-- ==== Sys2Proof/Word.lean ====
section
/-!
DEFINITION. The machine's words and their plainest arithmetic: bytes, 32-bit register words, and
the extraction and insertion of bit fields. A range [m:l] of the manual (R9) is given here by its
lowest bit and its width.
-/

namespace Sys2Proof

/-- One byte of a store (R10). -/
abbrev Byte := BitVec 8

/-- One 32-bit register word (R14). -/
abbrev Word := BitVec 32

/-- The bits of `v` from bit `lo` on, `w` of them (R9). -/
def bitsOf (v lo w : Nat) : Nat := v / 2 ^ lo % 2 ^ w

/-- `v` with its bits from `lo` on, `w` of them, replaced by the low bits of `x` (R9). -/
def setBits (v lo w x : Nat) : Nat :=
  v % 2 ^ lo + (x % 2 ^ w) * 2 ^ lo + v / 2 ^ (lo + w) * 2 ^ (lo + w)

/-- A truth value as the bit that a register shows. -/
def bit (b : Bool) : Nat := if b then 1 else 0

end Sys2Proof
end

