-- ==== Sys2Proof/Syntax.lean ====
section
/-!
DEFINITION. The commands of the block: the types of their operands and the one inductive `Instr`,
one constructor for each row of the opcode table, in the table's order.
-/

namespace Sys2Proof

/-- A channel, CH0 to CH3 (R3). -/
abbrev Ch := Fin 4
/-- An engine slot of a channel, E00 to E71; also a site by its physical number (R3, R586). -/
abbrev SlotId := Fin 72
/-- A command ring of a channel (R3). -/
abbrev RingId := Fin 16
/-- A harness port, HL0 to HL15 (R3). -/
abbrev PortId := Fin 16
/-- A stream, 0 to 1,023 (R3). -/
abbrev StreamId := Fin 1024
/-- A context number, 0 to 255 (R449). -/
abbrev CtxId := BitVec 8
/-- A context slot, 0 to 7 (R3). -/
abbrev CtxSlotId := Fin 8
/-- A mailbox, 0 to 41 (R488). -/
abbrev MbxId := Fin 42
/-- A byte address in BAR0, which has 64 MiB (R539). -/
abbrev BarAddr := BitVec 26

/-- The masters of the register file (R505, R650). -/
inductive Master where
  | farrier
  | groom (c : Ch)
  | host
  | peer (p : PortId)
  deriving DecidableEq, Repr

/-- The register pages of BAR0 (R648, R649, R373). -/
inductive Page where
  | hif | far | hmmu | strm | dlm | ctx | rpl | pwr | clk | ras
  | hlk (p : PortId)
  | mbx (m : MbxId)
  | grm (c : Ch) | cmmu (c : Ch) | wst (c : Ch) | ast (c : Ch) | tnd (c : Ch) | cvu (c : Ch)
  | hbmc (c : Ch)
  | ring (c : Ch) (r : RingId)
  | eng (c : Ch) (e : SlotId)
  | door (c : Ch) (r : RingId)
  deriving DecidableEq, Repr

/-- The gaits of a channel (R568). -/
inductive Gait where
  | walk | trot | canter | gallop
  deriving DecidableEq, Repr

/-- What an MSI-X mask write opens: one vector, or the function mask (R541). -/
inductive VectorMask where
  | vector (v : Fin 2048)
  | function
  deriving DecidableEq, Repr

/-- The translation caches (R423): one in each channel and one in the hub. -/
inductive CacheId where
  | cmmu (c : Ch)
  | hmmu
  deriving DecidableEq, Repr

/-- The hops of a tandem chain (R201). -/
inductive Hop where
  /-- The relay cell of an engine slot, towards the next hop of its block. -/
  | relay (c : Ch) (e : SlotId)
  /-- The hub tandem switch, for blocks that came from channel `c`. -/
  | hubFromCh (c : Ch)
  /-- The hub tandem switch, for blocks that came from harness port `p`. -/
  | hubFromPort (p : PortId)
  deriving DecidableEq, Repr

/-- The queues whose credits a consumer returns (R33, R201). -/
inductive CreditQueue where
  | descriptors (c : Ch) (r : RingId)
  | commands (c : Ch) (e : SlotId)
  | lane (c : Ch) (e : SlotId) (lane : Fin 8)
  | drain (c : Ch) (e : SlotId)
  | write (c : Ch) (e : SlotId)
  /-- The credits of one tandem class that channel `c` holds towards the hub. -/
  | chToHub (c : Ch) (cls : Fin 4)
  /-- The credits of one tandem class that the hub holds towards channel `c`. -/
  | hubToCh (c : Ch) (cls : Fin 4)
  /-- The credits of one tandem class that a relay cell offers its neighbour. -/
  | relay (c : Ch) (e : SlotId)
  deriving DecidableEq, Repr

/-- The dual-clock queues that carry entries of the model (R36, R565). -/
inductive Crossing where
  /-- From the hub fabric into channel `c`: doorbells and tandem blocks. -/
  | toCh (c : Ch)
  /-- From channel `c` to the hub fabric: tandem blocks for the hub switch. -/
  | fromCh (c : Ch)
  deriving DecidableEq, Repr

/-- What an upset makes of one column's sum in a beat (R108, R109): on the integer paths the sum moves by
`delta`; on the log path the sum becomes the value that `kind`, `neg` and `log` name, where `kind` 0 is ZERO,
1 finite, 2 INF and 3 INDEF. -/
structure Upset where
  column : Fin 260
  delta : Int
  kind : Fin 4
  neg : Bool
  log : Int
  deriving DecidableEq, Repr

/-- What the array meets in the issued beat, besides the numbers themselves (R111, R584, R585). -/
inductive BeatEvent where
  | clean
  /-- Upsets fall on columns of the engine, and of the secondary that runs in lockstep with it (R569). -/
  | upset (own mate : List Upset)
  /-- A single-bit error was corrected on a word of the beat. -/
  | corrected
  /-- The beat reads a poisoned word of ACCM or of its lane input. -/
  | poisoned
  deriving DecidableEq, Repr

/-- What can wake a sleeping channel (R576). -/
inductive WakeCause where
  | tail | mail | block
  deriving DecidableEq, Repr

/-- The causes of a port loss (R524). -/
inductive LossCause where
  | orderly | noSignal | presence | retrainFail | laneFail | disabled | peerMismatch
  deriving DecidableEq, Repr

/-- What a HELLO carries (R520, R522), with the lanes that this end trained. -/
structure Hello where
  id : BitVec 48
  port : BitVec 4
  proto : Byte
  ack : BitVec 12
  /-- The lanes that the peer offers. -/
  lanes : BitVec 4
  /-- The lanes on which this end's training ended well. -/
  own : BitVec 4
  deriving DecidableEq, Repr

/-- The receipts of a peer mailbox (R527, R528). -/
inductive Receipt where
  | read
  | ack (code : BitVec 16) (seq : BitVec 15)
  | cancelled
  deriving DecidableEq, Repr

/-- The header of a tandem block, field by field (R194). -/
structure BlockHdr where
  tag : Nat
  dtile : Nat
  dctx : Nat
  dch : Nat
  cls : Nat
  block : Nat
  kind : Nat
  tkind : Nat
  longsum : Bool
  fallback : Bool
  retries : Nat
  guardDenied : Bool
  cause : Nat
  pbase : Nat
  sslot : Nat
  sch : Nat
  sepoch : Nat
  deriving DecidableEq, Repr

/-- A tandem block or break marker (R194, R200): the header and the values that it carries, each
in its stored form. -/
structure Block where
  hdr : BlockHdr
  values : List Nat
  deriving DecidableEq, Repr

/-- The control messages of a harness link (R527 to R529). Their byte layout is not given. -/
inductive CtrlMsg where
  | message (seq : BitVec 15) (words : Vector Word 16)
  | cancel
  | receipt (r : Receipt)
  | lockRequest (page : BitVec 12) (lock : Fin 4) (release : Bool)
  | lockReply (value : Byte)
  deriving DecidableEq, Repr

/-- What a flit's payload carries (R511, R520, R526). A tandem block travels as a message of
several flits; every flit but the last names only its length here, and the last carries the block. -/
inductive FlitBody where
  | none
  | part
  | block (b : Block)
  | ctrl (m : CtrlMsg)
  | hello (h : Hello)
  | goodbye
  deriving DecidableEq, Repr

/-- A flit, by the fields of its header and its payload (R511). -/
structure Flit where
  ftype : BitVec 4
  vc : BitVec 3
  som : Bool
  fseq : BitVec 12
  ack : BitVec 12
  crvc : BitVec 3
  crcnt : Byte
  len : Byte
  eom : Bool
  body : FlitBody
  deriving DecidableEq, Repr

/-- How a flit arrives (R517): intact, failing its CRC, or in an uncorrectable FEC codeword. -/
inductive FlitQuality where
  | good | badCrc | uncorrectable
  deriving DecidableEq, Repr

/-- The components of a firmware package (R552). -/
inductive FwComponent where
  | farrier | groom
  deriving DecidableEq, Repr

/-- What the boot ROM meets in one flash bank (R543, step 2). -/
structure BankImage where
  signatureOk : Bool
  svn : Byte
  deriving DecidableEq, Repr

/-- What a cold start meets on its way to WAIT_PERST (R543, steps 2 to 4). -/
structure PowerOnInputs where
  bank0 : BankImage
  bank1 : BankImage
  /-- The bank that FAR_FW_STAT.NEXT names. -/
  next : Bool
  /-- Lowest security version that step 2 accepts. -/
  svnMin : Byte
  /-- The power that the sense pins of the 12V-2x6 connector allow, in watts. -/
  senseWatts : Nat
  railsOk : Bool
  pllsOk : Bool
  /-- The identifier in the card's identity record (R520). -/
  deviceId : BitVec 48
  deriving DecidableEq, Repr

/-- Why a channel is retired (R604, R616), by the code of RAS_CHn_STAT.CAUSE. -/
abbrev RetireCause := BitVec 4

/-- A requester of an access to host memory that failed (R433). -/
inductive RequesterId where
  | ringFetch (c : Ch) (r : RingId)
  | splitRead (c : Ch) (r : RingId)
  | addrGen (c : Ch) (e : SlotId) (lane : Fin 8)
  | drain (c : Ch) (e : SlotId)
  | scan (c : Ch) (e : SlotId)
  | initRead (c : Ch) (e : SlotId)
  | cvu (c : Ch)
  | copy (c : Ch)
  | lodger (c : Ch) (buf : Fin 2)
  | transfer (c : Ch) (n : StreamId) (page : Nat)
  | seal (c : Ch) (e : SlotId) (t : Fin 8)
  | save (c : Ch) (slot : CtxSlotId)
  | landing (c : Ch) (entry : Fin 128)
  | sync (c : Ch) (r : RingId)
  | completion (c : Ch) (r : RingId)
  | recorder (log : Fin 5)
  | walk (k : CacheId) (walk : Nat)
  deriving DecidableEq, Repr

/-- How a request to host memory failed (R433, R542). -/
inductive PcieFailure where
  | unsupported | abort | poisoned | timeout
  deriving DecidableEq, Repr

/-- The body of a log record (R623 to R628). -/
inductive RecBody where
  | mark (markNo gait : Nat) (crcs : List Nat)
  | cross (queue entries producerDseq : Nat)
  | dec (kind value : Nat)
  | out (kind value : Nat)
  | inReg (offset value : Nat)
  /-- One fragment of an input; `data` says that the payload is present (R628). -/
  | inData (kind : Nat) (data last : Bool) (fragment crc : Nat) (payload : List Byte)
  | cpl (cmdid status ring ctx : Nat)
  | gap (lost : Nat)
  | fin
  | div (cause dseq : Nat)
  deriving DecidableEq, Repr

/-- A log record: its domain, its sequence number and its body (R627). -/
structure LogRecord where
  dom : Nat
  dseq : Nat
  body : RecBody
  deriving DecidableEq, Repr

/-- A row of 1 KiB that reaches repair: one of the HBM stack, by a persistent error or by its corrected errors
(R603), or one of a bank of the stall or of the activation store (R602), numbered through the store bank by
bank. -/
inductive FailingRow where
  | hbm (row : Nat) (persistent : Bool)
  | stall (row : Nat)
  | ast (row : Nat)
  deriving DecidableEq, Repr

/-- The commands of the block, one constructor for each row of the opcode table. -/
inductive Instr where
  /-- REGISTER_WRITE (R14) -/
  | registerWrite (m : Master) (a : BarAddr) (v : Word)
  /-- RC_FIELD_READ (R14) -/
  | rcFieldRead (m : Master) (a : BarAddr)
  /-- PAIR_LO_READ (R18) -/
  | pairLoRead (m : Master) (a : BarAddr)
  /-- SUBWORD_WRITE (R646) -/
  | subwordWrite (m : Master) (a : BarAddr) (two : Bool)
  /-- UNALIGNED_ACCESS (R646) -/
  | unalignedAccess (m : Master) (a : BarAddr) (write : Bool) (size : Nat)
  /-- MSIX_UNMASK (R541) -/
  | msixUnmask (v : VectorMask)
  /-- LOCK_READ_ACQUIRE (R506) -/
  | lockReadAcquire (m : Master) (a : BarAddr)
  /-- LOCK_RELEASE (R506) -/
  | lockRelease (m : Master) (a : BarAddr)
  /-- LOCK_FORCE (R506) -/
  | lockForce (m : Master) (a : BarAddr)
  /-- TAIL_WRITE (R383) -/
  | tailWrite (m : Master) (c : Ch) (r : RingId) (v : Word)
  /-- RESUME (R382) -/
  | resume (m : Master) (c : Ch) (r : RingId) (v : Word)
  /-- CPL_HEAD_WRITE (R403) -/
  | cplHeadWrite (m : Master) (c : Ch) (r : RingId) (v : Word)
  /-- ENABLE_SET (R579) -/
  | enableSet (m : Master) (p : Page)
  /-- ENABLE_CLEAR (R579) -/
  | enableClear (m : Master) (p : Page)
  /-- BLOCK_START_STEP (R580) -/
  | blockStartStep (p : Page) (ok : Bool)
  /-- BLOCK_STOP_DONE (R580) -/
  | blockStopDone (p : Page)
  /-- STRM_READ (R307) -/
  | strmRead (m : Master)
  /-- OPEN (R307) -/
  | openStream (m : Master)
  /-- CLOSE (R307) -/
  | close (m : Master)
  /-- CLOSE_DISCARD (R307) -/
  | closeDiscard (m : Master)
  /-- REHOME (R307) -/
  | rehome (m : Master)
  /-- REHOME_WRITEBACK_DONE (R307) -/
  | rehomeWritebackDone
  /-- CTX_READ (R452) -/
  | ctxRead (m : Master)
  /-- ADMIT (R452) -/
  | admitContext (m : Master)
  /-- UPDATE (R452) -/
  | update (m : Master)
  /-- LOAD (R467) -/
  | load (m : Master)
  /-- EVICT (R459) -/
  | evict (m : Master)
  /-- CTX_RESET (R452) -/
  | ctxReset (m : Master)
  /-- RELEASE (R452) -/
  | release (m : Master)
  /-- DLM_READ (R478) -/
  | dlmRead (m : Master)
  /-- ARM (R479) -/
  | arm (m : Master)
  /-- DISARM (R479) -/
  | disarm (m : Master)
  /-- DLM_CLEAR (R479) -/
  | dlmClear (m : Master)
  /-- INV_ALL (R430) -/
  | invAll (m : Master)
  /-- INV_CONTEXT (R430) -/
  | invContext (m : Master) (ctx : CtxId)
  /-- INV_RANGE (R430) -/
  | invRange (m : Master) (ctx : CtxId) (count : BitVec 20)
  /-- INV_CTT (R430) -/
  | invCtt (m : Master) (ctx : CtxId)
  /-- INVALIDATION_COMPLETE (R432) -/
  | invalidationComplete
  /-- RETRY (R440) -/
  | retry (m : Master) (fault : BitVec 24)
  /-- ABORT_COMMAND (R440) -/
  | abortCommand (m : Master) (fault : BitVec 24)
  /-- ABORT_CONTEXT (R440) -/
  | abortContext (m : Master) (fault : BitVec 24)
  /-- MBX_SEND (R498) -/
  | mbxSend (m : Master) (b : MbxId)
  /-- MBX_SEND_ALT (R498) -/
  | mbxSendAlt (m : Master) (b : MbxId)
  /-- ATOMIC_SWAP_SEND (R540) -/
  | atomicSwapSend (v : Word)
  /-- UNSUPPORTED_ATOMICOP (R540) -/
  | unsupportedAtomicop (a : BarAddr)
  /-- MBX_RECV_READ (R499) -/
  | mbxRecvRead (m : Master) (b : MbxId)
  /-- MBX_ACK (R499) -/
  | mbxAck (m : Master) (b : MbxId) (code : BitVec 16)
  /-- MBX_CANCEL (R499) -/
  | mbxCancel (m : Master) (b : MbxId) (v : Word)
  /-- MBX_TIMEOUT (R500) -/
  | mbxTimeout (b : MbxId)
  /-- RLOCK_ACQUIRE (R537) -/
  | rlockAcquire (m : Master) (p : PortId) (page : BitVec 12) (lock : Fin 4)
  /-- RLOCK_RELEASE (R537) -/
  | rlockRelease (m : Master) (p : PortId) (page : BitVec 12) (lock : Fin 4)
  /-- RLOCK_REQUEST_ARRIVAL (R529) -/
  | rlockRequestArrival (p : PortId) (page : BitVec 12) (lock : Fin 4) (release : Bool)
  /-- RLOCK_REPLY (R537) -/
  | rlockReply (p : PortId) (value : Byte)
  /-- MARK (R632) -/
  | mark (m : Master)
  /-- MARK_DONE (R632) -/
  | markDone (c : Ch)
  /-- REPLAY (R635) -/
  | replay (m : Master) (markNo : BitVec 16) (crcs : List Word)
  /-- RPL_STOP (R640) -/
  | rplStop (m : Master)
  /-- RPL_RESUME (R640) -/
  | rplResume (m : Master) (placed : Bool)
  /-- GAIT_REQUEST (R571) -/
  | gaitRequest (m : Master) (c : Ch) (gait : Gait)
  /-- SLEEP_REQUEST (R576) -/
  | sleepRequest (m : Master) (c : Ch)
  /-- PARK_REQUEST (R576) -/
  | parkRequest (m : Master) (c : Ch)
  /-- RUN_REQUEST (R576) -/
  | runRequest (m : Master) (c : Ch)
  /-- MAXW_WRITE (R522) -/
  | maxwWrite (m : Master) (p : PortId) (maxw : BitVec 2)
  /-- FETCH_COMMAND (R384) -/
  | fetchCommand (c : Ch)
  /-- DESCRIPTOR_READ_RETURN (R384) -/
  | descriptorReadReturn (c : Ch) (r : RingId) (ext : List Byte)
  /-- SPLIT_TURN (R405) -/
  | splitTurn (c : Ch)
  /-- SPLIT_READ_RETURN (R666) -/
  | splitReadReturn (c : Ch) (r : RingId) (ext : List Byte)
  /-- MATMUL (R389) -/
  | matmul (c : Ch) (r : RingId)
  /-- CONV (R264) -/
  | conv (c : Ch) (r : RingId)
  /-- DWCONV (R276) -/
  | dwconv (c : Ch) (r : RingId)
  /-- POOL (R279) -/
  | pool (c : Ch) (r : RingId)
  /-- SCAN (R315) -/
  | scan (c : Ch) (r : RingId)
  /-- STATS (R218) -/
  | stats (c : Ch) (r : RingId)
  /-- ARGMAX (R399) -/
  | argmax (c : Ch) (r : RingId)
  /-- REGROUP (R275) -/
  | regroup (c : Ch) (r : RingId)
  /-- FORK (R325) -/
  | fork (c : Ch) (r : RingId)
  /-- LOAD_W (R398) -/
  | loadW (c : Ch) (r : RingId)
  /-- DRAIN (R397) -/
  | drain (c : Ch) (r : RingId)
  /-- COPY (R398) -/
  | copy (c : Ch) (r : RingId)
  /-- FENCE (R410) -/
  | fence (c : Ch) (r : RingId)
  /-- SIGNAL (R411) -/
  | signal (c : Ch) (r : RingId)
  /-- WAIT (R412) -/
  | wait (c : Ch) (r : RingId)
  /-- CVU (R292) -/
  | cvu (c : Ch) (r : RingId)
  /-- SIGNAL_WRITE_ACCEPTED (R411) -/
  | signalWriteAccepted (c : Ch) (r : RingId)
  /-- WAIT_POLL_EXPIRY (R412) -/
  | waitPollExpiry (c : Ch) (r : RingId)
  /-- WAIT_READ_RETURN (R412) -/
  | waitReadReturn (c : Ch) (r : RingId) (ext : List Byte)
  /-- WAIT_TIMEOUT (R413) -/
  | waitTimeout (c : Ch) (r : RingId)
  /-- TILE_CLAIM (R171) -/
  | tileClaim (c : Ch) (e : SlotId)
  /-- SEAL_COMPLETE (R174) -/
  | sealComplete (c : Ch) (e : SlotId) (t : Fin 8)
  /-- TILE_RESTORE_START (R175) -/
  | tileRestoreStart (c : Ch) (e : SlotId)
  /-- TILE_RESTORE_COMPLETE (R175) -/
  | tileRestoreComplete (c : Ch) (e : SlotId) (intact : Bool)
  /-- SLICE_LOAD_START (R79) -/
  | sliceLoadStart (c : Ch) (e : SlotId)
  /-- SLICE_LOAD_COMPLETE (R79) -/
  | sliceLoadComplete (c : Ch) (e : SlotId)
  /-- REBUILD_COMPLETE (R128) -/
  | rebuildComplete (c : Ch) (e : SlotId) (b : Fin 2)
  /-- BEAT_ISSUE (R86) -/
  | beatIssue (c : Ch) (e : SlotId) (ev : BeatEvent)
  /-- PROMOTION_COMPLETE (R151) -/
  | promotionComplete (c : Ch) (e : SlotId) (lane : Fin 8)
  /-- DRAIN_START (R228) -/
  | drainStart (c : Ch) (e : SlotId)
  /-- ROW_PARAM_FETCH_RETURN (R230) -/
  | rowParamFetchReturn (c : Ch) (e : SlotId) (ext : List Byte)
  /-- DRAIN_BLOCK_READ (R229) -/
  | drainBlockRead (c : Ch) (e : SlotId) (pairDiffers : Bool)
  /-- EPILOGUE_OUTPUT (R233) -/
  | epilogueOutput (c : Ch) (e : SlotId)
  /-- WRITE_BACK (R245) -/
  | writeBack (c : Ch) (e : SlotId)
  /-- DRAIN_COMPLETE (R231) -/
  | drainComplete (c : Ch) (e : SlotId)
  /-- CREDIT_RETURN (R35) -/
  | creditReturn (q : CreditQueue)
  /-- QUEUE_CROSSING (R565) -/
  | queueCrossing (q : Crossing)
  /-- TANDEM_BLOCK_SEND (R201) -/
  | tandemBlockSend (h : Hop)
  /-- BLOCK_ACCEPTED (R668) -/
  | blockAccepted (c : Ch) (e : SlotId)
  /-- TANDEM_INGRESS_ARRIVAL (R204) -/
  | tandemIngressArrival (c : Ch)
  /-- LANDED_BLOCK_MOVE (R205) -/
  | landedBlockMove (c : Ch) (e : SlotId)
  /-- BLOCK_FOLD (R196) -/
  | blockFold (c : Ch) (e : SlotId)
  /-- LANDING_SPILL (R208) -/
  | landingSpill (c : Ch) (entry : Fin 128)
  /-- LANDING_SPILL_DONE (R208) -/
  | landingSpillDone (c : Ch) (entry : Fin 128)
  /-- SCAN_HEAD_CHECK (R335) -/
  | scanHeadCheck (c : Ch) (e : SlotId)
  /-- SWAP_IN_COMPLETE (R332) -/
  | swapInComplete (c : Ch) (n : StreamId) (page : Nat) (ext : List Byte) (poisoned : Bool)
  /-- SWAP_OUT_COMPLETE (R331) -/
  | swapOutComplete (c : Ch) (n : StreamId) (page : Nat)
  /-- COW_COPY_COMPLETE (R327) -/
  | cowCopyComplete (c : Ch) (n : StreamId) (page : Nat)
  /-- BACKING_COPY_COMPLETE (R329) -/
  | backingCopyComplete (c : Ch) (n : StreamId) (page : Nat) (ext : List Byte)
  /-- SCAN_START (R315) -/
  | scanStart (c : Ch) (e : SlotId)
  /-- SCAN_COMPLETE (R320) -/
  | scanComplete (c : Ch) (e : SlotId) (ext : List Byte)
  /-- FORK_COMPLETE (R325) -/
  | forkComplete (c : Ch)
  /-- CVU_COMMAND_START (R294) -/
  | cvuCommandStart (c : Ch)
  /-- CVU_BLOCK_COMPLETE (R292) -/
  | cvuBlockComplete (c : Ch) (mismatch : Bool) (ext : List Byte)
  /-- CVU_COMMAND_COMPLETE (R294) -/
  | cvuCommandComplete (c : Ch)
  /-- COPY_UNIT_COMPLETE (R398) -/
  | copyUnitComplete (c : Ch) (ext : List Byte)
  /-- LODGER_FILL_START (R365) -/
  | lodgerFillStart (c : Ch)
  /-- LODGER_FILL_COMPLETE (R365) -/
  | lodgerFillComplete (c : Ch) (buf : Fin 2) (ext : List Byte)
  /-- COMMAND_COMPLETE (R400) -/
  | commandComplete (c : Ch) (cmd : Nat)
  /-- COMPLETION_RECORD_ACCEPTED (R404) -/
  | completionRecordAccepted (c : Ch) (r : RingId)
  /-- WALK_READ_RETURN (R424) -/
  | walkReadReturn (k : CacheId) (walk : Nat) (data : BitVec 256) (fail : Bool)
  /-- FAULT_RECORD_WRITE (R438) -/
  | faultRecordWrite (ctx : CtxId)
  /-- CHANNEL_SAVE_DONE (R459) -/
  | channelSaveDone (slot : CtxSlotId) (c : Ch)
  /-- CONTEXT_RESTORE_DONE (R462) -/
  | contextRestoreDone (slot : CtxSlotId) (intact : Bool)
  /-- CONTEXT_BLOCKED (R465) -/
  | contextBlocked (slot : CtxSlotId)
  /-- RELIEF (R469) -/
  | relief
  /-- DLM_CHECK (R483) -/
  | dlmCheck (n : StreamId)
  /-- PLL_RELOCK_DONE (R571) -/
  | pllRelockDone (c : Ch) (ok : Bool)
  /-- GAIT_CHANGE_DONE (R571) -/
  | gaitChangeDone (c : Ch)
  /-- GOVERNOR_PERIOD (R573) -/
  | governorPeriod (draws : Vector Nat 4) (board : Nat)
  /-- SLEEP_ENTRY (R576) -/
  | sleepEntry (c : Ch)
  /-- PARK_ENTRY (R576) -/
  | parkEntry (c : Ch)
  /-- WAKE_EVENT (R576) -/
  | wakeEvent (c : Ch) (cause : WakeCause)
  /-- WAKE_COMPLETE (R577) -/
  | wakeComplete (c : Ch)
  /-- LINK_TRAIN (R520) -/
  | linkTrain (p : PortId) (lanes : BitVec 4)
  /-- HELLO_RECEIVE (R520) -/
  | helloReceive (p : PortId) (h : Hello)
  /-- FLIT_TRANSMIT (R514) -/
  | flitTransmit (p : PortId)
  /-- FLIT_RECEIVE (R517) -/
  | flitReceive (p : PortId) (f : Flit) (q : FlitQuality) (corrected : Nat)
  /-- NAK_RECEIVE (R518) -/
  | nakReceive (p : PortId) (ack : BitVec 12)
  /-- REPLAY_TIMEOUT (R518) -/
  | replayTimeout (p : PortId)
  /-- LANE_FAILURE (R521) -/
  | laneFailure (p : PortId) (lane : Fin 4)
  /-- RETRAIN_DONE (R522) -/
  | retrainDone (p : PortId) (h : Hello)
  /-- RETRAIN_TIMEOUT (R523) -/
  | retrainTimeout (p : PortId)
  /-- PORT_LOSS (R525) -/
  | portLoss (p : PortId) (cause : LossCause)
  /-- GOODBYE_RECEIVE (R526) -/
  | goodbyeReceive (p : PortId)
  /-- GOODBYE_DRAIN_DONE (R526) -/
  | goodbyeDrainDone (p : PortId)
  /-- PEER_MESSAGE_ARRIVAL (R527) -/
  | peerMessageArrival (p : PortId) (seq : BitVec 15) (words : Vector Word 16)
  /-- PEER_RECEIPT_ARRIVAL (R527) -/
  | peerReceiptArrival (p : PortId) (r : Receipt)
  /-- POWER_ON (R543) -/
  | powerOn (p : PowerOnInputs)
  /-- PERST_DEASSERT (R543) -/
  | perstDeassert (speed : BitVec 4) (width : BitVec 5)
  /-- WARM_RESET (R547) -/
  | warmReset
  /-- HBM_TRAIN_DONE (R543) -/
  | hbmTrainDone (c : Ch) (ok : Bool)
  /-- SELFTEST_DONE (R543) -/
  | selftestDone (c : Ch) (ok : Bool)
  /-- GROOM_BOOT_ACK (R543) -/
  | groomBootAck (c : Ch) (code : BitVec 16)
  /-- ENGINE_CHECK_DONE (R543) -/
  | engineCheckDone (c : Ch) (failed : List SlotId)
  /-- CHANNEL_READY_TIMEOUT (R544) -/
  | channelReadyTimeout (c : Ch)
  /-- FLR (R555) -/
  | flr
  /-- PCIE_LINK_DOWN (R557) -/
  | pcieLinkDown
  /-- SURPRISE_REMOVAL (R558) -/
  | surpriseRemoval
  /-- COLD_RESET_REQUEST (R551) -/
  | coldResetRequest
  /-- PLDM_MONITOR (R551) -/
  | pldmMonitor
  /-- REQUEST_UPDATE (R552) -/
  | requestUpdate
  /-- PASS_COMPONENT_TABLE (R552) -/
  | passComponentTable (comps : List FwComponent)
  /-- UPDATE_COMPONENT (R552) -/
  | updateComponent (comp : FwComponent)
  /-- FIRMWARE_DATA (R552) -/
  | firmwareData (data : List Byte) (last : Bool) (sigOk : Bool) (svn : Byte)
  /-- ACTIVATE_FIRMWARE (R553) -/
  | activateFirmware
  /-- FARRIER_RESTART_DONE (R553) -/
  | farrierRestartDone (ok : Bool)
  /-- GROOM_PATCH_APPLY (R554) -/
  | groomPatchApply (c : Ch) (patch : BitVec 16)
  /-- SIDEBAND_EDGE (R560) -/
  | sidebandEdge (n : Fin 10) (level : Bool)
  /-- SIDEBAND_SETTLE_EXPIRY (R560) -/
  | sidebandSettleExpiry (n : Fin 10)
  /-- SIDEBAND_STUCK_EXPIRY (R560) -/
  | sidebandStuckExpiry (n : Fin 10)
  /-- SUBSTITUTION_HOLDOFF_EXPIRY (R600) -/
  | substitutionHoldoffExpiry (c : Ch) (e : SlotId)
  /-- SITE_RETEST (R601) -/
  | siteRetest (c : Ch) (phys : SlotId)
  /-- RETEST_DONE (R601) -/
  | retestDone (c : Ch) (phys : SlotId) (pass : Bool) (failedCols : List Nat)
  /-- HBM_ROW_REPAIR (R603), and the remapping of a store row by the farrier (R602) -/
  | hbmRowRepair (c : Ch) (row : FailingRow)
  /-- SOFT_PPR_DONE (R603) -/
  | softPprDone (c : Ch) (row : Nat) (ok : Bool)
  /-- CHANNEL_RETIRE (R605) -/
  | channelRetire (c : Ch) (cause : RetireCause)
  /-- READMIT (R609) -/
  | readmit
  /-- RETEST (R611) -/
  | retest
  /-- RETIRE (R611) -/
  | retire
  /-- RESTART (R607) -/
  | restart
  /-- CHRESET (R612) -/
  | chreset
  /-- ENGINE_RESET (R19) -/
  | engineReset (m : Master) (c : Ch) (e : SlotId)
  /-- BATCH_WRITE (R629) -/
  | batchWrite (log : Fin 5)
  /-- BATCH_ACCEPTED (R629) -/
  | batchAccepted (log : Fin 5)
  /-- REPLAY_RECORD (R637) -/
  | replayRecord (r : LogRecord)
  /-- ACTIVATION_READ_RETURN (R269) -/
  | activationReadReturn (c : Ch) (e : SlotId) (lane : Fin 8) (ext : List Byte)
  /-- PCIE_REQUEST_FAILURE (R433) -/
  | pcieRequestFailure (req : RequesterId) (ctx : CtxId) (va : BitVec 48) (write : Bool)
      (kind : PcieFailure)
  /-- PCIE_LINK_CHANGE (R662) -/
  | pcieLinkChange (speed : BitVec 4) (width : BitVec 5) (flit : Bool) (up : Bool)
  /-- CONFIG_REQUEST (R546) -/
  | configRequest
  /-- PLL_LOCK_LOST (R655) -/
  | pllLockLost (c : Ch)
  /-- LOCKSTEP_MISMATCH (R656) -/
  | lockstepMismatch (pc : BitVec 32)
  /-- UCIE_LINK_ERROR (R584) -/
  | ucieLinkError (c : Ch) (retryOk : Bool) (retrainOk : Bool)
  /-- HBM_TEMP_UPDATE (R665) -/
  | hbmTempUpdate (c : Ch) (temp : Byte)
  /-- ARGMAX_MERGE (R399) -/
  | argmaxMerge (c : Ch) (e : SlotId) (ext : List Byte)
  deriving DecidableEq, Repr

end Sys2Proof
end

