-- ==== Sys2Proof/WellFormed.lean ====
section
/-!
DEFINITION. Well-formed commands: the ranges and relations of operands that their types do not hold. An operand
of a command that comes from the register file, a cable or a log lies in these ranges by the rules named.
-/

namespace Sys2Proof

/-- A BAR0 address of a register word (R14, R646). -/
def wordAligned (a : BarAddr) : Bool := a.toNat % 4 = 0

/-- The header fields of a tandem block lie in their widths, and only a break marker carries a CAUSE, listed
or not (R194, R200). -/
def BlockHdr.wf (h : BlockHdr) : Bool :=
  h.tag < 2 ^ 16 && h.dtile < 2 ^ 16 && h.dctx < 2 ^ 8 && h.dch < 4 && h.cls < 4 && h.block < 8 && h.kind < 3
    && h.tkind < 2 && h.retries < 4 && h.cause < 2 ^ 8 && (h.kind = 2 || h.cause = 0) && h.pbase < 2 ^ 16
    && h.sslot < 72 && h.sch < 4 && h.sepoch < 16

/-- A tandem block: 2,048 totals in a totals block, nothing in a break marker, each value in at most the five
bytes of a total (R193, R194). -/
def Block.wf (b : Block) : Bool :=
  b.hdr.wf && (b.hdr.kind ≠ 0 || b.values.length = 2048) && (b.hdr.kind ≠ 2 || b.values.isEmpty)
    && b.values.all (· < 2 ^ 40)

def FlitBody.wf : FlitBody → Bool
  | .block b => b.wf
  | .none | .part | .ctrl _ | .hello _ | .goodbye => true

/-- A flit: at most 240 payload bytes, none in an IDLE or a NAK (R511). -/
def Flit.wf (f : Flit) : Bool :=
  f.len.toNat ≤ 240 && ((f.ftype ≠ 0 && f.ftype ≠ 2) || (f.len = 0 && f.body = .none)) && f.body.wf

/-- A domain code (R622). -/
def domCode (d : Nat) : Bool := d < 3 || (4 ≤ d && d < 12) || (16 ≤ d && d < 32)

/-- The arguments of a record lie in the bits that R628 gives them. -/
def RecBody.wf : RecBody → Bool
  | .mark n g crcs => n < 2 ^ 16 && g < 4 && crcs.length = 16 && crcs.all (· < 2 ^ 32)
  | .cross q n d => q < 2 ^ 16 && n < 2 ^ 16 && d < 2 ^ 32
  | .dec k v | .out k v => k < 2 ^ 8 && v < 2 ^ 56
  | .inReg o v => o < 2 ^ 24 && v < 2 ^ 32
  | .inData k _ _ f crc payload => k ≤ 4 && f < 2 ^ 8 && crc < 2 ^ 32 && payload.length ≤ 4048
  | .cpl n st r x => n < 2 ^ 32 && st < 2 ^ 8 && r < 16 && x < 2 ^ 8
  | .gap n => n < 2 ^ 32
  | .fin => true
  | .div k d => k < 2 ^ 8 && d < 2 ^ 32

def LogRecord.wf (r : LogRecord) : Bool := domCode r.dom && r.dseq < 2 ^ 32 && r.body.wf

/-- Rows of 1 KiB: 36 GiB of HBM, 64 banks of 5 MiB of stall, 64 banks of 1 MiB of activation store (R348,
R356). -/
def FailingRow.wf : FailingRow → Bool
  | .hbm row _ => row < 36 * 2 ^ 20
  | .stall row => row < 64 * 5120
  | .ast row => row < 64 * 1024

/-- The operands of a command that its constructor does not already bound. -/
def Instr.wf : Instr → Bool
  | .registerWrite _ a _ | .rcFieldRead _ a | .pairLoRead _ a => wordAligned a
  | .lockReadAcquire _ a | .lockRelease _ a | .lockForce _ a => wordAligned a
  | .subwordWrite _ a two => !two || a.toNat % 2 = 0
  | .unalignedAccess _ a _ size => (size = 2 || size = 4 || size = 8) && a.toNat % size ≠ 0
  | .replay _ _ crcs => crcs.length = 16
  | .flitReceive _ f _ _ => f.wf
  | .firmwareData data _ _ _ => !data.isEmpty
  | .engineCheckDone _ failed => failed.Nodup
  | .hbmRowRepair _ row => row.wf
  | .softPprDone _ row _ => row < 36 * 2 ^ 20
  | .channelRetire _ cause => 1 ≤ cause.toNat && cause.toNat ≤ 7
  | .retestDone _ _ pass cols => pass || !cols.isEmpty
  | .replayRecord r => r.wf
  | .msixUnmask .. | .tailWrite .. | .resume .. | .cplHeadWrite .. | .enableSet .. | .enableClear ..
  | .blockStartStep .. | .blockStopDone .. | .strmRead .. | .openStream .. | .close .. | .closeDiscard ..
  | .rehome .. | .rehomeWritebackDone .. | .ctxRead .. | .admitContext .. | .update .. | .load .. | .evict ..
  | .ctxReset .. | .release .. | .dlmRead .. | .arm .. | .disarm .. | .dlmClear .. | .invAll ..
  | .invContext .. | .invRange .. | .invCtt .. | .invalidationComplete .. | .retry .. | .abortCommand ..
  | .abortContext .. | .mbxSend .. | .mbxSendAlt .. | .atomicSwapSend .. | .unsupportedAtomicop ..
  | .mbxRecvRead .. | .mbxAck .. | .mbxCancel .. | .mbxTimeout .. | .rlockAcquire .. | .rlockRelease ..
  | .rlockRequestArrival .. | .rlockReply .. | .mark .. | .markDone .. | .rplStop .. | .rplResume ..
  | .gaitRequest .. | .sleepRequest .. | .parkRequest .. | .runRequest .. | .maxwWrite .. | .fetchCommand ..
  | .descriptorReadReturn .. | .splitTurn .. | .splitReadReturn .. | .matmul .. | .conv .. | .dwconv ..
  | .pool .. | .scan .. | .stats .. | .argmax .. | .regroup .. | .fork .. | .loadW .. | .drain .. | .copy ..
  | .fence .. | .signal .. | .wait .. | .cvu .. | .signalWriteAccepted .. | .waitPollExpiry ..
  | .waitReadReturn .. | .waitTimeout .. | .tileClaim .. | .sealComplete .. | .tileRestoreStart ..
  | .tileRestoreComplete .. | .sliceLoadStart .. | .sliceLoadComplete .. | .rebuildComplete .. | .beatIssue ..
  | .promotionComplete .. | .drainStart .. | .rowParamFetchReturn .. | .drainBlockRead .. | .epilogueOutput ..
  | .writeBack .. | .drainComplete .. | .creditReturn .. | .queueCrossing .. | .tandemBlockSend ..
  | .blockAccepted .. | .tandemIngressArrival .. | .landedBlockMove .. | .blockFold .. | .landingSpill ..
  | .landingSpillDone .. | .scanHeadCheck .. | .swapInComplete .. | .swapOutComplete .. | .cowCopyComplete ..
  | .backingCopyComplete .. | .scanStart .. | .scanComplete .. | .forkComplete .. | .cvuCommandStart ..
  | .cvuBlockComplete .. | .cvuCommandComplete .. | .copyUnitComplete .. | .lodgerFillStart ..
  | .lodgerFillComplete .. | .commandComplete .. | .completionRecordAccepted .. | .walkReadReturn ..
  | .faultRecordWrite .. | .channelSaveDone .. | .contextRestoreDone .. | .contextBlocked .. | .relief ..
  | .dlmCheck .. | .pllRelockDone .. | .gaitChangeDone .. | .governorPeriod .. | .sleepEntry .. | .parkEntry ..
  | .wakeEvent .. | .wakeComplete .. | .linkTrain .. | .helloReceive .. | .flitTransmit .. | .nakReceive ..
  | .replayTimeout .. | .laneFailure .. | .retrainDone .. | .retrainTimeout .. | .portLoss ..
  | .goodbyeReceive .. | .goodbyeDrainDone .. | .peerMessageArrival .. | .peerReceiptArrival .. | .powerOn ..
  | .perstDeassert .. | .warmReset .. | .hbmTrainDone .. | .selftestDone .. | .groomBootAck ..
  | .channelReadyTimeout .. | .flr .. | .pcieLinkDown .. | .surpriseRemoval .. | .coldResetRequest ..
  | .pldmMonitor .. | .requestUpdate .. | .passComponentTable .. | .updateComponent .. | .activateFirmware ..
  | .farrierRestartDone .. | .groomPatchApply .. | .sidebandEdge .. | .sidebandSettleExpiry ..
  | .sidebandStuckExpiry .. | .substitutionHoldoffExpiry .. | .siteRetest .. | .readmit .. | .retest ..
  | .retire .. | .restart .. | .chreset .. | .engineReset .. | .batchWrite .. | .batchAccepted ..
  | .activationReadReturn .. | .pcieRequestFailure .. | .pcieLinkChange .. | .configRequest ..
  | .pllLockLost .. | .lockstepMismatch .. | .ucieLinkError .. | .hbmTempUpdate .. | .argmaxMerge .. => true

end Sys2Proof
end

