-- ==== Sys2Proof/Decode.lean ====
section
/-!
DEFINITION. The commands that a word spells. The opcode table gives none of the block's commands any bits: a
command comes from a register access, a protocol event or the progress of an engine, never as an encoded word.
The command descriptors that rings hold are data of the machine, read in Machine/Descriptor.lean.
-/

namespace Sys2Proof

/-- The command that the low `nbits` bits of `w` spell by the bits of the table's rows. No row has bits. -/
def decodeTableWord (nbits w : Nat) : Option Instr :=
  match nbits, w with
  | _, _ => none

end Sys2Proof
end

