-- ==== Sys2Proof/Config.lean ====
section
/-!
DEFINITION. What the spec leaves to the part or leaves open: free values, which are constants
without a body, so that no proof can see what they are, and the sizes that the spec fixes for the
whole model.
-/

namespace Sys2Proof.Config

/-- Free value: byte `a` of a store whose contents an event made undefined (R19, R353, R368), for
the store's generation `gen`. -/
opaque undefByte : (gen a : Nat) → Byte

/-- Free value: the dither of a narrowed element (R145), 24 bits: the `i`-th element that channel `c` narrows
takes number 4·i + c. -/
opaque dither : (n : Nat) → BitVec 24

/-- Free value: the error of the `n`-th antilog within the bound of R244. -/
opaque antilogErr : (n : Nat) → Int

/-- Free value: the offset from OADDR at which a STATS command writes record `r` of its engine command
`i`, which the spec does not state (R222, R390). -/
opaque statOffset : (i r : Nat) → Nat

/-- Free value: the `n`-th value that a result leaves open (a value the spec states no result for). -/
opaque openValue : (n : Nat) → Nat

/-- Free value: whether the block that a link of context `ctx` awaits under `tag` comes by a path,
where no block of it has come yet (R214). Paths 0 to 15 are the harness ports, 16 to 19 the
channels. -/
opaque pathCrosses : (path ctx tag : Nat) → Bool

/-- Free value: the number of the dual-clock queue from the hub into channel `c`, or back, in crossing
records (R623). -/
opaque crossQueue : (into : Bool) → (c : Nat) → Nat

/-- Free value: the offset in a context's save region at which the `n`-th spilled block lies (R208, R475). -/
opaque spillOffset : (n : Nat) → Nat

/-- Free value: EXT of the descriptor at index `head` of a ring that is not being fetched, which a ring
of an AWAY context holds in memory that the card has not read (R470). -/
opaque headExt : (chan ring head : Nat) → BitVec 2

/-- Free value: the version of the groom image that the farrier loads (R664), MAJOR and MINOR. -/
opaque groomVersion : BitVec 16

/-- Free value: the framing version PROTO of this part's ports (R520). -/
opaque proto : Byte

/-- Free value: whether a clock domain that runs completes a cycle in the `n`-th stretch of time that passes
while no command waits (R563). -/
opaque edge : (n dom : Nat) → Bool

/-- Size of the stall of a channel in bytes (R346). -/
def stallBytes : Nat := 320 * 2 ^ 20
/-- Size of the activation store of a channel in bytes (R346). -/
def astBytes : Nat := 64 * 2 ^ 20
/-- Size of the HBM stack of a channel in bytes (R346). -/
def hbmBytes : Nat := 36 * 2 ^ 30

end Sys2Proof.Config
end

