-- ==== Sys2Proof/Machine/Tab.lean ====
section
/-!
DEFINITION. Sparse tables: a list of keys and values in rising order of the keys. What a key that
is not listed reads as is the caller's default.
-/

namespace Sys2Proof.Machine

/-- A sparse table, its keys strictly rising. -/
abbrev Tab (α : Type) := List (Nat × α)

/-- The value at a key, or the default where none is listed. -/
def Tab.get {α : Type} (d : α) : Tab α → Nat → α
  | [], _ => d
  | (k', v) :: t, k => if k = k' then v else Tab.get d t k

/-- The table with the value at a key replaced. -/
def Tab.set {α : Type} : Tab α → Nat → α → Tab α
  | [], k, v => [(k, v)]
  | (k', v') :: t, k, v =>
    if k < k' then (k, v) :: (k', v') :: t
    else if k = k' then (k, v) :: t
    else (k', v') :: Tab.set t k v

/-- The table without a key. -/
def Tab.erase {α : Type} : Tab α → Nat → Tab α
  | [], _ => []
  | (k', v') :: t, k => if k = k' then t else (k', v') :: Tab.erase t k

/-- The keys of a table are strictly rising. -/
def Tab.Sorted {α : Type} (t : Tab α) : Prop := t.Pairwise (fun a b => a.1 < b.1)

end Sys2Proof.Machine
end

