-- ==== Sys2Proof/Machine/Records.lean ====
section
/-!
DEFINITION. The records of the state that stand beside the registers: what leaves the card, the
stores, translation and its faults, mailbox slots, harness ports, firmware update and sideband
inputs, clocks, the recorder, and the commands of the rings. Every field's default value is its
value after a cold reset.
-/

namespace Sys2Proof.Machine

/-! ## What leaves the card -/

/-- How a PCIe request to the card completes (R540, R546, R646). -/
inductive CplStatus where
  | ok | unsupported | abort | retry
  deriving DecidableEq, Repr

/-- The AER reports of R542. -/
inductive Aer where
  | advisoryAbort | advisoryUnsupported | unsupported | abort | timeout | poisoned
  deriving DecidableEq, Repr

/-- What the farrier answers over MCTP (R551, R552). -/
inductive Pldm where
  | monitoring (board : Nat) (temps : List Nat) (ready : Nat) (fail : Nat) (inputs : List (Bool × Bool))
  | requestUpdate (ok : Bool)
  | passComponents (ok : Bool)
  | updateComponent (ok : Bool)
  | verifyComplete (comp : FwComponent) (ok : Bool)
  | activate (ok : Bool)
  deriving DecidableEq, Repr

/-- What the card sends to the world outside it. -/
inductive Output where
  /-- An MSI-X message on a vector (R541, R654). -/
  | msix (v : Nat)
  /-- The value that a register read returns to its master (R14). -/
  | read (m : Master) (v : Nat)
  /-- The bus fault of a master (R498). -/
  | busFault (m : Master)
  /-- A completion of a PCIe request (R540, R546, R646). -/
  | completion (st : CplStatus) (v : Nat)
  | aer (k : Aer)
  /-- A write to host memory at a PCIe bus address (R419, R433). -/
  | hostWrite (addr : Nat) (bytes : List Byte)
  | flit (p : PortId) (f : Flit)
  | pldm (r : Pldm)
  deriving DecidableEq, Repr

/-! ## Stores -/

/-- A byte store: the listed bytes in rising order of address, the ranges whose contents an event
made undefined (lowest address, address after the last, generation), newest first, and the
addresses of the 128-byte words that hold poisoned data (R585). -/
structure Memory where
  cells : List Host.Cell := []
  undef : List (Nat × Nat × Nat) := []
  gen : Nat := 0
  poison : List Nat := []
  deriving DecidableEq, Repr

/-! ## Translation (chapter 13) -/

/-- The target address spaces (R419). -/
inductive Target where
  | host
  | hbm (c : Ch)
  | ast (c : Ch)
  deriving DecidableEq, Repr

/-- What an access serves (R436): the ring and CMDID of a command with the model's number of the
command, a stream, a tile name. -/
structure ReqInfo where
  ring : Option Nat := none
  cmdid : Option Nat := none
  num : Option Nat := none
  stream : Option Nat := none
  tile : Nat := 0
  deriving DecidableEq, Repr

/-- One access that needs a translation. -/
structure MemAccess where
  req : RequesterId
  ctx : Nat
  va : Nat
  write : Bool
  info : ReqInfo := {}
  deriving DecidableEq, Repr

/-- A cached translation (R418, R423, R425). `size` is the page size as a power of two. -/
structure Xlat where
  ctx : Nat
  va : Nat
  size : Nat
  target : Target
  addr : Nat
  w : Bool
  pinned : Bool
  deriving DecidableEq, Repr

/-- What a walk reads next: the context's table entry (R422) or the entry of one level (R416) in
the table at an address of host memory or of an HBM stack. -/
inductive WalkStage where
  | table
  | level (n : Nat) (target : Target) (addr : Nat)
  deriving DecidableEq, Repr

/-- A walk in progress with the accesses that joined it, oldest first (R424). -/
structure Walk where
  stage : WalkStage
  joined : List MemAccess
  deriving DecidableEq, Repr

/-- A translation cache: its sets, most recently used first, its walkers and the accesses that
wait for one (R423 to R425). -/
structure Cache where
  sets : Tab (List Xlat) := []
  walks : Tab Walk := []
  waiting : List MemAccess := []
  /-- Results of finished walks that their accesses have not used yet (R424). -/
  ready : List (MemAccess × Xlat) := []
  deriving DecidableEq, Repr

/-- A cached entry of the context translation table (R421). -/
structure CttEntry where
  root : Nat
  target : Target
  frLog2 : Nat
  frBase : Nat
  frVec : Nat
  frIrq : Bool
  deriving DecidableEq, Repr

/-- An unresolved fault (R433 to R436, R667). `recorded` is the slot of the fault ring that holds
its record, if it has been written. -/
structure FaultEntry where
  id : Nat
  cause : Nat
  level : Nat
  access : MemAccess
  /-- The table entry that names the fault ring, as it was when the fault arose (R421). -/
  entry : Option CttEntry := none
  recorded : Option Nat := none
  deriving DecidableEq, Repr

/-- The place of the next record in a context's fault ring (R438). -/
structure FaultRing where
  next : Nat := 0
  phase : Bool := true
  deriving DecidableEq, Repr

/-- The invalidation under way (R430). -/
structure Inval where
  scope : Nat
  ctx : Nat
  va : Nat
  count : Nat
  deriving DecidableEq, Repr

/-- The translation state of the device: the caches (channel by channel, the hub's at 4), the
cached table entries, the faults and the invalidation. -/
structure Translation where
  caches : Tab Cache := []
  ctt : Tab CttEntry := []
  /-- Unresolved faults, oldest first, at most 1,024 (R435). -/
  faults : List FaultEntry := []
  /-- Faults of requesters that wait for a table entry (R435). -/
  overflow : List FaultEntry := []
  nextId : Nat := 0
  rings : Tab FaultRing := []
  inval : Option Inval := none
  /-- Requesters whose access a RETRY translated again since their context's last save (R470). -/
  retried : List MemAccess := []
  deriving DecidableEq, Repr

/-! ## Mailboxes and MSI-X (chapters 15 and 17) -/

/-- The slot of a mailbox (R493, R496). -/
structure MbxSlot where
  full : Bool := false
  read : Bool := false
  seq : Nat := 0
  deriving DecidableEq, Repr

/-- An entry of the MSI-X table with its pending bit (R539, R541). -/
structure MsixEntry where
  addr : Nat := 0
  data : Nat := 0
  masked : Bool := true
  pending : Bool := false
  deriving DecidableEq, Repr

/-! ## Harness ports (chapter 16) -/

/-- A message on its way through the egress of a port (R512, R514). -/
structure LinkMsg where
  body : FlitBody
  bytes : Nat
  /-- Flits of the message already sent. -/
  sent : Nat := 0
  deriving DecidableEq, Repr

/-- The state of a port that no register shows (R511 to R526). Classes are numbered by their VC. -/
structure Port where
  /-- FSEQ of the last new flit sent, and of the last flit accepted in order (R520, step 4). -/
  fseq : Nat := 0
  accepted : Nat := 0
  /-- Lanes in use, bit by bit (R510, R520). -/
  lanes : Nat := 0
  /-- Sent and unacknowledged flits, oldest first (R516). -/
  replay : List Flit := []
  /-- Flits that a replay has still to send, oldest first (R518). -/
  resend : List Flit := []
  /-- Consecutive replays and the FSEQ from which they started (R519). -/
  replays : Nat := 0
  replayFrom : Nat := 0
  /-- Flit credits held towards the peer, for each class. -/
  credits : Tab Nat := []
  /-- Flit credits taken from the receive buffers and not yet returned to the peer. -/
  owed : Tab Nat := []
  /-- Flits in the receive buffers, for each class, oldest first. -/
  rx : Tab (List FlitBody) := []
  /-- Messages at the egress, for each class, oldest first. -/
  egress : Tab (List LinkMsg) := []
  /-- LINKMGMT flits to send. -/
  mgmt : List FlitBody := []
  /-- The tandem class whose turn comes next (R514). -/
  turn : Nat := 1
  /-- The next flit that arrives must be the expected one: a NAK has been sent (R517). -/
  nakSent : Bool := false
  /-- A NAK waits to be sent. -/
  nakDue : Bool := false
  /-- A GOODBYE has been sent (R526). -/
  leaving : Bool := false
  /-- A request of HLK_RLOCK is at the egress or under way (R529). -/
  lockSent : Bool := false
  deriving DecidableEq, Repr

/-! ## Boot, firmware and sideband (chapter 17) -/

/-- A firmware update in progress (R552). -/
structure FwUpdate where
  comps : List FwComponent := []
  current : Option FwComponent := none
  data : List Byte := []
  /-- Components transferred and verified, with the security version. -/
  verified : List (FwComponent × Nat) := []
  deriving DecidableEq, Repr

/-- The parts of a sideband filter that FAR_SBn does not show (R560): the service cycles of the
last edges, newest first. -/
structure Sideband where
  edges : List Nat := []
  deriving DecidableEq, Repr

/-- A window operation that waits for a farrier that restarts (R553): its OP, its master and the entry
that it acts on. -/
inductive FarrierJob where
  | strm (op : Nat) (m : Master) (idx : Nat)
  | ctx (op : Nat) (m : Master) (idx : Nat)
  | dlm (op : Nat) (m : Master) (idx : Nat)
  deriving DecidableEq, Repr

/-- An answer that the farrier owes the host (R609 to R612): the message's type and SEQ, its channel, and
the site of a RETEST. -/
structure OwedAnswer where
  type : Nat
  seq : Nat
  chan : Nat
  phys : Nat
  deriving DecidableEq, Repr

/-- The device-wide state that no register shows. -/
structure Device where
  /-- Auxiliary power is on (R543, R558). -/
  powered : Bool := true
  /-- The main domain runs: the start has passed step 6 (R543). -/
  mainRuns : Bool := false
  /-- The farrier runs; false while it restarts (R553). -/
  farrierUp : Bool := true
  jobs : List FarrierJob := []
  update : Option FwUpdate := none
  /-- The groom component verified in this update, or loaded at the next boot of a groom (R554). -/
  groomPatch : Nat := 0
  /-- Generation of the per-boot sealing key (R476). -/
  sealKey : Nat := 0
  deviceId : Nat := 0
  functionMask : Bool := false
  sideband : Tab Sideband := []
  /-- Answers of the farrier that wait for room in FH (R610), each the words of its message. -/
  answers : List (List Nat) := []
  owed : List OwedAnswer := []
  /-- THROTTLE_N has become ASSERTED since the last governor period (R575). -/
  throttleRose : Bool := false
  deriving DecidableEq, Repr

/-- The start and stop of a block beyond BLK_STATE (R579, R580): steps of the start done, and
whether a write of 0 waits for the next safe point. -/
structure BlockRun where
  steps : Nat := 0
  ended : Bool := false
  deriving DecidableEq, Repr

/-! ## Recorder and replay (chapter 20) -/

/-- A batch of a log (R626). -/
structure Batch where
  bseq : Nat
  /-- The mark that opened the recording. -/
  markNo : Nat
  gap : Bool
  lost : Nat
  records : List LogRecord
  deriving DecidableEq, Repr

/-- One of the five logs (R619, R629, R630). -/
structure Log where
  recording : Bool := false
  /-- The level that the last mark put into effect (R620, R642). -/
  lvl : Nat := 0
  /-- Records of the batch being filled, oldest first. -/
  filling : List LogRecord := []
  /-- Full batches that wait for ring space, oldest first, at most 64. -/
  held : List Batch := []
  dseq : Tab Nat := []
  bseq : Nat := 0
  markNo : Nat := 0
  /-- Batches lost since the last batch written. -/
  lost : Nat := 0
  /-- A batch write is under way. -/
  writing : Option Batch := none
  deriving DecidableEq, Repr

/-! ## Commands of the rings (chapter 12) -/

/-- How far a host command has come (R384, R400, R405). -/
inductive CmdStage where
  /-- In the descriptor queue, not yet checked. -/
  | queued
  /-- Checked up to the translated reads of group 11; `n` of them have returned (R666). -/
  | reading (n : Nat)
  /-- Accepted; engine commands are being placed, or a groom command acts. -/
  | splitting
  /-- Every engine command is placed, or the unit that runs it has it. -/
  | running
  deriving DecidableEq, Repr

/-- One engine command as its host command sees it: index in split order, slot, tile name, and its
status once it has completed. -/
structure EcRef where
  idx : Nat
  slot : Nat
  tile : Nat
  status : Option Nat := none
  deriving DecidableEq, Repr

/-- A resolved group descriptor (R52 to R54): BASE and FSEL. -/
structure Group where
  base : Nat := 0
  fsel : Nat := 0
  deriving DecidableEq, Repr

/-- A host command that HEAD has passed and that has not completed (R384, R400). -/
structure HostCmd where
  num : Nat
  ring : Nat
  /-- The descriptors, each the 512-bit number of its bytes (R10, R385). -/
  descs : List Nat
  stage : CmdStage := .queued
  /-- Arith cycle in which a WAIT reached the head of its ring (R413). -/
  since : Nat := 0
  /-- Index of the next engine command to place. -/
  next : Nat := 0
  /-- Engine commands that the command splits into. -/
  total : Nat := 0
  ecs : List EcRef := []
  /-- Group entries read at split, by group index. -/
  groups : Tab Group := []
  /-- Child records of a FORK read at split. -/
  children : List Nat := []
  /-- Chunks of a lodger command whose fill has completed, and those that a save took away (R365,
  R368). -/
  chunks : List Nat := []
  lost : List Nat := []
  deriving DecidableEq, Repr

/-- A completion record held for its write (R402, R403); `irq` sends VEC after it (R404, R415). -/
structure CplRecord where
  num : Nat
  word : Nat
  irq : Bool
  deriving DecidableEq, Repr

/-- What a ring's synchronising command does (R410 to R413). -/
inductive Sync where
  | idle
  /-- The SIGNAL's write has been issued. -/
  | signalling
  /-- The WAIT is at the head; `reading` while its read is out. -/
  | waiting (reading : Bool)
  deriving DecidableEq, Repr

/-- A ring beyond its registers. -/
structure Ring where
  /-- The tail that the fetcher sees (R383). -/
  tailSeen : Nat := 0
  /-- A descriptor read is under way (R384). -/
  fetching : Bool := false
  /-- Descriptor-queue credits held by the fetcher, and credits the split has freed (R33, R35). -/
  credits : Nat := 16
  owed : Nat := 0
  sync : Sync := .idle
  /-- Translated address of the WAIT's word at its last read (R412). -/
  word : Option (Target × Nat) := none
  /-- Completion records held, oldest first. -/
  held : List CplRecord := []
  /-- The write of the first record was aborted and waits for RESUME (R437). -/
  parked : Bool := false
  /-- An engine command is held for credit (R408). -/
  creditHeld : Bool := false
  deriving DecidableEq, Repr

end Sys2Proof.Machine
end

