-- ==== Sys2Proof/Machine/EngineRecords.lean ====
section
/-!
DEFINITION. The records of the engines: the values that runs and totals hold (R58 to R61), engine
commands, lanes, weight registers, correction-table banks, tile slots, drains, relay cells, landing
entries and sites. Every field's default value is its value after an engine reset or a cold reset.
-/

namespace Sys2Proof.Machine

/-! ## Values -/

/-- A value of the log path (R118, R59 to R61): its class, its sign and the log of its magnitude in
the units of the place that holds it. -/
inductive LVal where
  | zero
  | fin (neg : Bool) (log : Int)
  | inf (neg : Bool)
  | indef
  deriving DecidableEq, Repr

/-- A value of the integer paths (R58). -/
inductive IVal where
  | fin (v : Int)
  | inf (neg : Bool)
  | indef
  deriving DecidableEq, Repr

/-- A fallback run (R135). -/
inductive FbRun where
  | zero
  | fin (v re : Int)
  | inf (neg : Bool)
  | indef
  deriving DecidableEq, Repr

/-- A run: an integer, an LNS run or a fallback run (R58, R59, R135). -/
inductive Run where
  | int (v : IVal)
  | lns (v : LVal)
  | fb (v : FbRun)
  deriving DecidableEq, Repr

/-- The trees that form a run. -/
inductive Trees where
  | integer | lns | fallback
  deriving DecidableEq, Repr

/-- The sum that a column delivers for one beat (R76, R89, R121, R135): a count, the output of a bank's tree,
or that of the fallback path, which has the form of a run. -/
inductive ColSum where
  | int (v : Int)
  | lns (v : LVal)
  | fb (v : FbRun)
  deriving DecidableEq, Repr

/-- A total of a tile (R58, R60). -/
inductive Total where
  | int (v : IVal)
  | lns (v : LVal)
  deriving DecidableEq, Repr

/-- An input channel of a beat: masked (R65, or a padding tap; `padded` marks a tap in padding under
ZERO with its channel and tap in range, R282), in an element block that is absent from a compressed
segment (R70), or an element's bits. -/
inductive In where
  | masked (padded : Bool)
  | absent
  | code (v : Nat)
  deriving DecidableEq, Repr

/-- A statistic record (R218, R220). -/
inductive StatRec where
  | sum (t : Total)
  | moments (n : Nat) (m m2 : LVal) (sat : Bool)
  deriving DecidableEq, Repr

/-! ## Engine commands and lanes (R33, R80 to R87) -/

/-- An element block that a fetch has read: its address, its bytes and whether it was poisoned. -/
structure Fetched where
  va : Nat
  bytes : List Byte
  poisoned : Bool
  deriving DecidableEq, Repr

/-- What a read that an access may interrupt has moved so far (R440): its bytes, and whether a poisoned word was
among them. -/
structure Moved where
  bytes : List Byte := []
  poisoned : Bool := false
  deriving DecidableEq, Repr

/-- Who writes a piece: the slot and its epoch when the piece left the engine (R598), the context
and command that its access serves, and whether the scan unit writes it (R315). -/
structure Owner where
  slot : Nat
  epoch : Nat
  ctx : Nat
  info : ReqInfo
  scan : Bool := false
  deriving DecidableEq, Repr

/-- A write of the epilogue, at most 64 bytes. With a mask, only the masked bits are written
(R274). -/
structure Piece where
  va : Nat
  bytes : List Byte
  mask : Option (List Byte) := none
  owner : Owner
  /-- More pieces of the same segment write follow (R247). -/
  more : Bool := false
  deriving DecidableEq, Repr

/-- The counts of a SCAN for its sideband record (R320), by host command. -/
structure NarrowCounts where
  inf : Nat := 0
  indef : Nat := 0
  sat : Nat := 0
  under : Nat := 0
  nzblk : Nat := 0
  deriving DecidableEq, Repr

/-- How far a SCAN engine command has come in the scan unit (R315, R341): the blocks of a and b with their headers
and the initial states that have been read, its results once it has been computed, and the writes that have not
yet entered the write queue. `lost` marks poisoned inputs, `tailed` that the sideband record has been formed. -/
structure ScanProg where
  got : List Fetched := []
  heads : List (Nat × Nat × Nat × Nat) := []
  inits : List ((Nat × Nat) × List Byte) := []
  initBad : Bool := false
  formed : Bool := false
  lost : Bool := false
  out : List Piece := []
  state : List ((Nat × Nat) × List Nat) := []
  counts : NarrowCounts := {}
  tailed : Bool := false
  deriving DecidableEq, Repr

/-- An engine command (R389). `num` and `idx` are its host command and its place in split order. -/
structure EngCmd where
  uid : Nat
  num : Nat
  idx : Nat
  ring : Nat
  ctx : Nat
  op : Nat
  name : Nat
  rt : Nat := 0
  pt : Nat := 0
  descs : List Nat
  /-- The groups that the split read (R53): input, output, and those of a SCAN's a and state. -/
  group : Group := {}
  ogroup : Group := {}
  agroup : Group := {}
  sgroup : Group := {}
  /-- The K-slices that it runs, in order, without the elided ones (R80, R271). -/
  order : List Nat := []
  /-- That order is descending (R80). -/
  desc : Bool := false
  elided : Nat := 0
  /-- It follows on its engine a tile of the same layer and row tile (R80). -/
  follows : Bool := false
  /-- The whole command is on the fallback path (R133); decided at its claim (R571). -/
  fallback : Bool := false
  /-- Trit address of the trit `wskip` of its weight stream (R347, R365). -/
  wbase : Nat := 0
  wskip : Nat := 0
  /-- Staging buffer and chunk of a lodger command (R365). -/
  buffer : Option (Nat × Nat) := none
  /-- The deadline monitor ran its step on the fallback model (R249, R485). -/
  diverted : Bool := false
  /-- Its progress in the scan unit. -/
  scan : ScanProg := {}
  /-- The groom's estimate of its cost (R482). -/
  cost : Nat := 0
  /-- A repetition under R164 or R590, which completes no command of its own. -/
  again : Bool := false
  /-- A repeated lodger command waits for its weights to be fetched again (R366). -/
  refetch : Bool := false
  deriving DecidableEq, Repr

/-- The inputs of one K-slice for one lane (R33, stage 4): 256 inputs for each of its positions. -/
structure SliceIn where
  idx : Nat
  inputs : List (List In)
  poisoned : Bool := false
  deriving DecidableEq, Repr

/-- The progress of one lane in one command. -/
structure LaneProg where
  /-- Index into the command's slice order, position within the lane, beat of the position. -/
  idx : Nat := 0
  pos : Nat := 0
  beat : Nat := 0
  begun : Bool := false
  done : Bool := false
  /-- The trees that its runs are formed on (R129). -/
  trees : Option Trees := none
  /-- K-slices finished since the lane's last promotion (R150). -/
  since : Nat := 0
  /-- K-slices of the command that the lane has promoted (R156). -/
  promoted : Nat := 0
  /-- A promotion waits for the previous one to complete (R151). -/
  due : Bool := false
  buf : List SliceIn := []
  /-- Element blocks that the fetch under way has read so far (R434). -/
  fetched : List Fetched := []
  deriving DecidableEq, Repr

/-- How a command forms its log-path runs (R126, R133). -/
inductive BankUse where
  /-- Not a log-path command, or on the fallback path for all of its beats. -/
  | none
  /-- To be bound when its first lane begins its first K-slice. -/
  | unbound
  /-- Waits under step 3 of R126. -/
  | waiting
  | bound (n : Nat)
  deriving DecidableEq, Repr

/-- A command in progress in a tile slot. -/
structure EngRun where
  cmd : EngCmd
  slot : Nat
  bank : BankUse := .none
  lanes : Tab LaneProg := []
  /-- Arith cycle in which it began (R483). -/
  start : Nat := 0
  deriving DecidableEq, Repr

/-- An entry of the slice sequence (R80) with the commands that it serves. -/
structure SeqEntry where
  num : Nat
  rt : Nat
  slice : Nat
  users : List Nat
  deriving DecidableEq, Repr

/-- A weight register (R78, R79): the cell codes of tile rows 0 to 255, 256 codes each, and the
rotations of the engine and of its secondary when their load began (R109). The spare and check columns hold
what `spareCodes` derives from these codes, the rotation and the column map (R107 to R109, R278). A released
register keeps its contents: `holds` names their host command, row tile and slice (R81). -/
structure WReg where
  entry : Option SeqEntry := none
  ready : Bool := false
  loading : Bool := false
  poisoned : Bool := false
  codes : List (List Nat) := []
  rot : Nat := 0
  mateRot : Nat := 0
  holds : Option (Nat × Nat × Nat) := none
  deriving DecidableEq, Repr

/-- A bank beyond its register ENG_LNS_BANKn (R126, R127). -/
structure Bank where
  recorded : Bool := false
  bound : List Nat := []
  lastBound : Nat := 0
  /-- The arith cycle in which knot 0 of the rebuild under way would have been written (R128). -/
  start : Nat := 0
  deriving DecidableEq, Repr

/-! ## Drain and write queue (R228 to R252) -/

/-- An argmax candidate while it forms (R240). -/
structure Cand where
  idx : Nat := 0
  valid : Bool := false
  hasIndef : Bool := false
  value : LVal := .indef
  deriving DecidableEq, Repr

/-- The drain under way. -/
structure Drain where
  slot : Nat
  cmd : EngCmd
  /-- The next block to leave ACCM (R229). -/
  block : Nat := 0
  /-- Blocks in the epilogue pipeline, oldest first: their totals' elements by position. -/
  pipe : List (Nat × Tab (List LVal)) := []
  paramsHeld : Bool := false
  inf : Nat := 0
  indef : Nat := 0
  sat : Nat := 0
  under : Nat := 0
  nzblk : Nat := 0
  countSat : Bool := false
  cands : Tab Cand := []
  /-- Value and mask of the bytes that the drain has written in part, by address (R274). -/
  partBytes : Tab (Nat × Nat) := []
  /-- The candidates and the sideband record are in the write queue. -/
  tailed : Bool := false
  deriving DecidableEq, Repr

/-! ## Tile slots (R168) -/

inductive TileState where
  | free | filling | draining | parked | held | sealing | restoring
  deriving DecidableEq, Repr

/-- A promoting copy (R151): the runs of a lane's positions, the base of their group, the trees, and
the K-slices that they hold. -/
structure Promo where
  uid : Nat
  base : Nat
  slices : Nat
  runs : Tab (List Run)
  deriving DecidableEq, Repr

/-- What a MID or TAIL awaits (R190, R199, R213). -/
structure Await where
  tag : Nat
  folded : Nat := 0
  cls : Option Nat := none
  /-- Paths by which blocks of the partial came: ports 0 to 15, channels 16 to 19 (R214). -/
  paths : List Nat := []
  /-- Blocks folded and sent on by a MID. -/
  sent : Nat := 0
  deriving DecidableEq, Repr

/-- A pair mismatch that an arbiter is to decide (R588): the sites of the primary and the secondary,
the block in which they differed, and the primary's totals of that block by position. -/
structure Rival where
  primary : Nat
  secondary : Nat
  block : Nat
  totals : Tab (List Total)
  deriving DecidableEq, Repr

/-- A tile slot. -/
structure TileSlot where
  state : TileState := .free
  ctx : Nat := 0
  name : Nat := 0
  /-- The format tag (R73). -/
  afmt : Nat := 0
  wfmt : Nat := 0
  tkind : Nat := 0
  tagSet : Bool := false
  tbase : Nat := 0
  interval : Nat := 8
  counter : Nat := 0
  longsum : Bool := false
  mismatch : Bool := false
  guarded : Bool := false
  guardDenied : Bool := false
  usedFallback : Bool := false
  retries : Nat := 0
  /-- The tile runs again after an overflow, in front of the engine's other tile (R164, R669). -/
  reissued : Bool := false
  /-- Its command is the tail of a chain, and its eight blocks are folded (R190). -/
  isTail : Bool := false
  tailDone : Bool := false
  /-- The secondary of its pair has recorded a mismatch for its copy (R111, R570). -/
  mateMismatch : Bool := false
  /-- The largest retry count over the chain behind it (R196). -/
  chainRetries : Nat := 0
  totals : Tab (List Total) := []
  runs : Tab (List Run) := []
  promoting : Tab Promo := []
  /-- K-slices of the tile that each lane has promoted; a lane without positions counts as having
  promoted them all (R156). -/
  promoted : Tab Nat := []
  /-- Statistic records of a STATS tile, by tile row or position (R222). -/
  stats : Tab StatRec := []
  /-- Pooled elements of a POOL tile, by position (R279). -/
  pooled : Tab (List LVal) := []
  /-- Elements of a REGROUP tile, by position (R275). -/
  raw : Tab (List (Option Nat)) := []
  /-- Commands that have accumulated since the fresh claim: the re-run list, which is the re-issue
  list of a guarded tile (R163, R590). -/
  list : List EngCmd := []
  rerunnable : Bool := true
  /-- Commands that complete when the tile leaves FILLING or drains (R400). -/
  closing : List EngCmd := []
  /-- The command that last accumulated, or the DRAIN. -/
  last : Option EngCmd := none
  /-- The command that last accumulated: a drain takes its positions and its output channels from
  it. -/
  geo : Option EngCmd := none
  await : Option Await := none
  /-- Blocks of its partial that the next hop has accepted (R668). -/
  accepted : Nat := 0
  /-- Order of completion (R174). -/
  stamp : Nat := 0
  /-- Times in a row that the tile became HELD (R587), and pair mismatches in a row (R588). -/
  heldTimes : Nat := 0
  pairTimes : Nat := 0
  rival : Option Rival := none
  /-- Its claim was mirrored by a pair (R569, R570). -/
  mirrored : Bool := false
  /-- The space of the save region that a seal or a restore of the tile uses (R475). -/
  space : Nat := 0
  /-- A restored tile that was FILLING and waits in PARKED for an in-progress slot (R185). -/
  paused : Bool := false
  /-- The drain that a save interrupted, to resume at its next block (R254). -/
  resume : Option Drain := none
  deriving DecidableEq, Repr

/-- Credits of a queue: those its producer holds and those its consumer has freed (R33, R35). -/
structure Credit where
  held : Nat
  owed : Nat := 0
  deriving DecidableEq, Repr

/-! ## Tandem (chapter 6) -/

/-- A block under way: the harness port by which it came, if any (R599), whether a landing entry is
held for it (R206), the NEXT of its sender, 16 for LOCAL (R188, R394), and the tile slot that sends
it, none for a break marker. -/
structure Moving where
  block : Block
  port : Option Nat := none
  backed : Bool := false
  next : Nat := 16
  tile : Option Nat := none
  deriving DecidableEq, Repr

/-- An entry of the landing buffer: held for a returned credit, or landed (R206). -/
structure Landing where
  cls : Nat
  shared : Bool
  block : Option Moving := none
  /-- Order in which the blocks landed (R203). -/
  order : Nat := 0
  /-- A spill of the entry is under way (R208), to an offset in the save region. -/
  spilling : Bool := false
  spillAt : Nat := 0
  deriving DecidableEq, Repr

/-- The credits of one class of a tandem hop: held, of which backed by a landing entry, and freed
(R202, R206). -/
structure HopCredit where
  held : Nat
  backed : Nat := 0
  owed : Nat := 0
  deriving DecidableEq, Repr

/-- The relay cell of a slot (R201): blocks received, blocks to send, and blocks sent that the next
hop has not yet accepted. -/
structure Relay where
  received : List Moving := []
  sending : List Moving := []
  sent : List Moving := []
  credits : Tab HopCredit := []
  deriving DecidableEq, Repr

/-- Blocks held in a relay cell (R213). -/
def Relay.occ (r : Relay) : Nat := r.received.length + r.sending.length + r.sent.length

/-! ## Engines -/

/-- The parameters that a bank of row parameters holds (R230, R234). -/
structure RowParams where
  addr : Nat
  rt : Nat
  records : List Nat
  deriving DecidableEq, Repr

/-- An engine beyond its registers. -/
structure Engine where
  queue : List EngCmd := []
  credit : Credit := ⟨32, 0⟩
  /-- The re-entry position and the scan unit (R315, R338). -/
  reentry : Option EngCmd := none
  scanning : Option EngCmd := none
  runs : List EngRun := []
  regA : WReg := {}
  regB : WReg := {}
  banks : Tab Bank := []
  bankWait : List Nat := []
  /-- Order of binding (R126). -/
  bindings : Nat := 0
  tiles : Tab TileSlot := []
  /-- The tile command that the engine began last: its host command, its row tile, and whether it runs its
  slices in descending order; none before the first, and after one without products (R80). -/
  ranOrder : Option (Nat × Nat × Bool) := none
  /-- Tiles that a guest run or a substitution brought here and that wait for a slot (R592, R595). -/
  incoming : List TileSlot := []
  /-- The pair with this engine as its primary has formed (R569). -/
  paired : Bool := false
  /-- Tiles in DRAINING, in the order in which they entered it (R228). -/
  drains : List Nat := []
  drain : Option Drain := none
  /-- Pieces of the epilogue's output and of the write queue (R229). -/
  output : List Piece := []
  writes : List Piece := []
  /-- Pieces of a segment write that the destination does not have whole yet (R247). -/
  assembling : List Piece := []
  writeCredit : Credit := ⟨16, 0⟩
  drainCredit : Credit := ⟨8, 0⟩
  laneCredit : Tab Credit := []
  params : Option RowParams := none
  /-- Segment headers held: command, K-slice, address and bitmap (R269). -/
  headers : List (Nat × Nat × Nat × Nat) := []
  relay : Relay := {}
  lastIssue : Option Nat := none
  /-- Tiles that have completed in this engine since its reset (R174). -/
  stamps : Nat := 0
  deriving DecidableEq, Repr

/-- A site (R586, R601, R615): tiles completed, the counts at which strikes fell, its record, and its
column map while it holds no slot (R105). -/
structure Site where
  tiles : Nat := 0
  strikes : List Nat := []
  state : Nat := 0
  returns : Nat := 0
  lastSlot : Nat := 0x7f
  colmap : List Nat := []
  deriving DecidableEq, Repr

/-- What a dual-clock queue between the hub and a channel carries (R36, R565): an accepted tail, a tandem
block, or an entry whose tail or block a reset has dropped on the way (R19). -/
inductive Crossed where
  | tail (ring v : Nat)
  | block (m : Moving)
  | dropped (m : Option Moving)
  deriving DecidableEq, Repr

/-- A dual-clock queue with its producer and consumer sequence numbers (R36). With each entry goes the
producer's DSEQ at its write (R623). -/
structure CrossQueue where
  entries : List (Crossed × Nat) := []
  produced : Nat := 0
  consumed : Nat := 0
  deriving DecidableEq, Repr

/-- A sealed tile image (R174): its owner, its name, the key generation it is sealed under and what
it holds. -/
structure TileImage where
  ctx : Nat
  name : Nat
  engine : Nat
  key : Nat
  /-- Its space in the save region (R475). -/
  space : Nat
  tile : TileSlot
  deriving DecidableEq, Repr

/-- A tandem block spilled to its context's save area (R208). -/
structure Spill where
  ctx : Nat
  key : Nat
  /-- Offset of its image in the save region. -/
  offset : Nat
  block : Moving
  deriving DecidableEq, Repr

end Sys2Proof.Machine
end

