-- ==== Sys2Proof/Machine/Descriptor.lean ====
section
/-!
DEFINITION. What a command's descriptors say (R385 to R397): the header, the bodies and the
extensions, and the window of a tile command with what the address generator derives from it
(chapter 8): output size, patches, taps, K-slices and the element under a cell row.
-/

namespace Sys2Proof.Machine

/-! ## Opcodes (R386) -/

def opMatmul : Nat := 0x01
def opConv : Nat := 0x02
def opDwconv : Nat := 0x03
def opPool : Nat := 0x04
def opScan : Nat := 0x05
def opStats : Nat := 0x06
def opArgmax : Nat := 0x07
def opRegroup : Nat := 0x08
def opFork : Nat := 0x10
def opLoadW : Nat := 0x20
def opDrain : Nat := 0x21
def opCopy : Nat := 0x22
def opFence : Nat := 0x30
def opSignal : Nat := 0x31
def opWait : Nat := 0x32
def opCvu : Nat := 0x40

def knownOps : List Nat :=
  [opMatmul, opConv, opDwconv, opPool, opScan, opStats, opArgmax, opRegroup, opFork, opLoadW,
    opDrain, opCopy, opFence, opSignal, opWait, opCvu]

/-- An opcode with the tile body (R390). -/
def hasTileBody (op : Nat) : Bool :=
  [opMatmul, opConv, opDwconv, opPool, opStats, opRegroup, opDrain, opCvu].contains op

/-- An opcode whose engine commands form products. -/
def isProduct (op : Nat) : Bool := [opMatmul, opConv, opDwconv].contains op

/-! ## Status codes (R401) -/

def stOk : Nat := 0x00
def stAborted : Nat := 0x01
def stBadOpcode : Nat := 0x02
def stBadContext : Nat := 0x03
def stBadArg : Nat := 0x04
def stFormatUnsupported : Nat := 0x05
def stFormatMismatch : Nat := 0x06
def stBadGroup : Nat := 0x07
def stBadLayout : Nat := 0x08
def stBadWindow : Nat := 0x09
def stBadEpilogue : Nat := 0x0a
def stEmptyOutput : Nat := 0x0b
def stBadPack : Nat := 0x0c
def stStallRange : Nat := 0x0d
def stLodgerOff : Nat := 0x0e
def stLodgerTooWide : Nat := 0x0f
def stBadStream : Nat := 0x10
def stStreamClosed : Nat := 0x11
def stWrongChannel : Nat := 0x12
def stStreamBusy : Nat := 0x13
def stTileLost : Nat := 0x14
def stRemoteLost : Nat := 0x15
def stContextReset : Nat := 0x16
def stNoTile : Nat := 0x17
def stWaitTimeout : Nat := 0x18

/-! ## Fields -/

/-- A field of the first descriptor (R385, R390, R395, R396). -/
def hd (ds : List Nat) (lo w : Nat) : Nat := bitsOf (ds.headD 0) lo w

def hdOp (ds : List Nat) : Nat := hd ds 0 8
def hdCtx (ds : List Nat) : Nat := hd ds 16 8
def hdStream (ds : List Nat) : Nat := hd ds 24 10
def hdTile (ds : List Nat) : Nat := hd ds 40 16
def hdAfmt (ds : List Nat) : Nat := hd ds 56 4
def hdWfmt (ds : List Nat) : Nat := hd ds 60 3
def hdGidx (ds : List Nat) : Nat := hd ds 64 8
def hdExact (ds : List Nat) : Bool := hd ds 72 1 = 1
def hdGuard (ds : List Nat) : Bool := hd ds 73 1 = 1
def hdLodger (ds : List Nat) : Bool := hd ds 74 1 = 1
def hdIrq (ds : List Nat) : Bool := hd ds 75 1 = 1
def hdReport (ds : List Nat) : Bool := hd ds 76 1 = 1
def hdAccum (ds : List Nat) : Bool := hd ds 77 1 = 1
def hdPark (ds : List Nat) : Bool := hd ds 78 1 = 1
def hdCmdid (ds : List Nat) : Nat := hd ds 96 32

def bIaddr (ds : List Nat) : Nat := hd ds 128 48
def bIlayout (ds : List Nat) : Nat := hd ds 176 1
def bIcomp (ds : List Nat) : Bool := hd ds 177 1 = 1
def bCin (ds : List Nat) : Nat := hd ds 192 16
def bCout (ds : List Nat) : Nat := hd ds 208 16
def bIw (ds : List Nat) : Nat := hd ds 224 14
def bIh (ds : List Nat) : Nat := hd ds 238 14
def bWsrc (ds : List Nat) : Nat := hd ds 256 48
def bSfirst (ds : List Nat) : Nat := hd ds 304 16
def bScount (ds : List Nat) : Nat := hd ds 320 16
def bOgroup (ds : List Nat) : Nat := hd ds 336 8
def bOfmt (ds : List Nat) : Nat := hd ds 344 4
def bOdest (ds : List Nat) : Nat := hd ds 348 2
def bOlayout (ds : List Nat) : Nat := hd ds 350 1
def bOcomp (ds : List Nat) : Bool := hd ds 351 1 = 1
def bOaddr (ds : List Nat) : Nat := hd ds 352 48
def bSop (ds : List Nat) : Nat := hd ds 400 2
def bAxis (ds : List Nat) : Nat := hd ds 402 1
def bSbaddr (ds : List Nat) : Nat := hd ds 416 48

/-- The extension descriptor of a kind (R388). -/
def extOf (ds : List Nat) (kind : Nat) : Option Nat := (ds.drop 1).find? fun d => d % 256 = kind

/-- A field of the extension of a kind, or a default where the extension is absent. -/
def ext (ds : List Nat) (kind lo w dflt : Nat) : Nat :=
  (extOf ds kind).elim dflt fun d => bitsOf d lo w

def oPaddr (ds : List Nat) : Nat := ext ds 1 32 48 0
def oAct (ds : List Nat) : Nat := ext ds 1 80 4 0
def oActarg (ds : List Nat) : Nat := ext ds 1 88 16 0
def oPoolop (ds : List Nat) : Nat := ext ds 1 104 2 0
def oPx (ds : List Nat) : Nat := 2 ^ ext ds 1 106 2 0
def oPy (ds : List Nat) : Nat := 2 ^ ext ds 1 108 2 0
def oArgaddr (ds : List Nat) : Nat := ext ds 1 128 48 0

/-- Roles of a link (R394). -/
def roleNone : Nat := 0
def roleHead : Nat := 1
def roleMid : Nat := 2
def roleTail : Nat := 3

def tRole (ds : List Nat) : Nat := if hdOp ds = opDrain then 0 else ext ds 3 32 2 0
def tClass (ds : List Nat) : Nat := ext ds 3 34 2 0
def tNext (ds : List Nat) : Nat := ext ds 3 36 5 16
def tDch (ds : List Nat) : Nat := ext ds 3 41 2 0
def tDctx (ds : List Nat) : Nat := ext ds 3 48 8 0
def tIntag (ds : List Nat) : Nat := ext ds 3 64 16 0
def tOuttag (ds : List Nat) : Nat := ext ds 3 80 16 0
def tDtile (ds : List Nat) : Nat := ext ds 3 96 16 0

/-! ## Windows (R257, R258, R260) -/

/-- The window of a tile command, with the input tensor that it reads. -/
structure Window where
  fmt : Nat
  layout : Nat
  comp : Bool
  base : Nat
  iw : Nat
  ih : Nat
  cin : Nat
  kw : Nat
  kh : Nat
  sx : Nat
  sy : Nat
  dx : Nat
  dy : Nat
  padl : Nat
  padr : Nat
  padt : Nat
  padb : Nat
  padmode : Nat
  padval : Nat
  patch : Nat
  /-- The factors of RGIN and RGOUT, 1 for none. -/
  fin : Nat
  fout : Nat
  gsize : Nat
  deriving DecidableEq, Repr

def rgFactor (code : Nat) : Nat := 2 ^ code

def windowOf (ds : List Nat) : Window :=
  { fmt := hdAfmt ds, layout := bIlayout ds, comp := bIcomp ds, base := bIaddr ds
    iw := bIw ds, ih := bIh ds, cin := bCin ds
    kw := ext ds 2 32 5 1, kh := ext ds 2 37 5 1, sx := ext ds 2 42 8 1, sy := ext ds 2 50 8 1
    dx := ext ds 2 58 10 1, dy := ext ds 2 68 10 1
    padl := ext ds 2 78 10 0, padr := ext ds 2 88 10 0, padt := ext ds 2 98 10 0
    padb := ext ds 2 108 10 0, padmode := ext ds 2 118 2 0, padval := ext ds 2 120 8 0
    patch := ext ds 2 128 2 0, fin := rgFactor (ext ds 2 130 2 0)
    fout := rgFactor (ext ds 2 132 2 0), gsize := ext ds 2 134 4 0 }

def ceilDiv (a b : Nat) : Nat := (a + b - 1) / b

/-- The regrouped grid and channel count (R260, R273). -/
def Window.gw (w : Window) : Nat := ceilDiv w.iw w.fin
def Window.gh (w : Window) : Nat := ceilDiv w.ih w.fin
def Window.gc (w : Window) : Nat := w.cin * w.fin * w.fin

/-- Output width and height before the check of EMPTY_OUTPUT (R260). -/
def outSize (grid pad0 pad1 d k st : Nat) : Int :=
  ((grid + pad0 + pad1 : Int) - d * ((k : Int) - 1) - 1).fdiv st + 1

def Window.wo' (w : Window) : Int := outSize w.gw w.padl w.padr w.dx w.kw w.sx
def Window.ho' (w : Window) : Int := outSize w.gh w.padt w.padb w.dy w.kh w.sy
def Window.wo (w : Window) : Nat := w.wo'.toNat
def Window.ho (w : Window) : Nat := w.ho'.toNat

/-- The position count N (R260). -/
def Window.npos (w : Window) : Nat := w.wo * w.ho

/-! ## Patches (R262, R263) -/

/-- Width and height of a patch; a LINEAR patch is 64 × 1 (R237). -/
def Window.pw (w : Window) : Nat := if w.patch = 0 then 64 else if w.patch = 1 then 16 else 8
def Window.ph (w : Window) : Nat := if w.patch = 0 then 1 else if w.patch = 1 then 4 else 8

/-- Patches in one patch row. -/
def Window.patchRow (w : Window) : Nat := ceilDiv w.wo w.pw

/-- Position tiles PT (R262, R389). -/
def Window.tiles (w : Window) : Nat :=
  if w.patch = 0 then ceilDiv w.npos 64 else w.patchRow * ceilDiv w.ho w.ph

/-- The output position of patch index `q` in position tile `t`, unless it lies at or beyond the
position count. -/
def Window.posOf (w : Window) (t q : Nat) : Option (Nat × Nat) :=
  if w.patch = 0 then
    let p := 64 * t + q
    if p < w.npos then some (p % w.wo, p / w.wo) else none
  else
    let x := w.pw * (t % w.patchRow) + q % w.pw
    let y := w.ph * (t / w.patchRow) + q / w.pw
    if x < w.wo ∧ y < w.ho then some (x, y) else none

/-- The patch indices of a lane (R85). -/
def laneQs (l : Nat) : List Nat := (List.range 8).map (8 * l + ·)

/-- A lane has a position in a tile (R87). -/
def Window.laneUsed (w : Window) (t l : Nat) : Bool := (laneQs l).any fun q => (w.posOf t q).isSome

/-! ## K-slices (R264, R265, R276) -/

/-- Cell rows per tap, taps per slice and channel slices of the CONV packing. -/
def Window.cb (w : Window) : Nat :=
  if 256 < w.gc then 256 else if w.gc ≤ 32 then 32 else if w.gc ≤ 64 then 64
  else if w.gc ≤ 128 then 128 else 256
def Window.tapsPer (w : Window) : Nat := if 256 < w.gc then 1 else 256 / w.cb
def Window.chSlices (w : Window) : Nat := if 256 < w.gc then ceilDiv w.gc 256 else 1
def Window.ntaps (w : Window) : Nat := w.kw * w.kh

/-- The K-slices of a layer per row tile. -/
def slicesOf (op : Nat) (w : Window) : Nat :=
  if op = opDwconv then w.ntaps else ceilDiv w.ntaps w.tapsPer * w.chSlices

/-- Tap and regrouped input channel of a cell row in a slice, unless the row is masked (R265,
R276). -/
def cellAt (op : Nat) (w : Window) (rt s k : Nat) : Option (Nat × Nat) :=
  let (tap, c) :=
    if op = opDwconv then (s, 256 * rt + k)
    else if w.tapsPer = 1 then (s / w.chSlices, 256 * (s % w.chSlices) + k)
    else (s * w.tapsPer + k / w.cb, k % w.cb)
  if c < w.gc ∧ tap < w.ntaps then some (tap, c) else none

/-- What lies under an unmasked cell row: padding under ZERO, the padding constant, a coordinate
beyond the grid before regrouping, or an element of the input tensor: position and channel. -/
inductive Src where
  | padding
  | const
  | beyond
  | elem (p c : Nat)
  deriving DecidableEq, Repr

/-- The element of the regrouped grid (R273). -/
def Window.element (w : Window) (x y c : Nat) : Src :=
  let sub := c / w.cin
  let ox := w.fin * x + sub % w.fin
  let oy := w.fin * y + sub / w.fin
  if ox < w.iw ∧ oy < w.ih then .elem (oy * w.iw + ox) (c % w.cin) else .beyond

/-- A tap's coordinate and whether it lies in the image (R267). -/
def Window.tapAt (w : Window) (ox oy tap : Nat) : Int × Int × Bool :=
  let ix : Int := (ox * w.sx + tap % w.kw * w.dx : Nat) - (w.padl : Int)
  let iy : Int := (oy * w.sy + tap / w.kw * w.dy : Nat) - (w.padt : Int)
  (ix, iy, 0 ≤ ix && ix < w.gw && 0 ≤ iy && iy < w.gh)

/-- What a tap's channel presents at an output position (R267, R268). -/
def Window.source (w : Window) (ox oy tap c : Nat) : Src :=
  let (ix, iy, inside) := w.tapAt ox oy tap
  if inside then w.element ix.toNat iy.toNat c
  else if w.padmode = 0 then .padding
  else if w.padmode = 1 then .const
  else w.element (min ix.toNat (w.gw - 1)) (min iy.toNat (w.gh - 1)) c

/-- The taps that a slice carries. -/
def sliceTaps (op : Nat) (w : Window) (s : Nat) : List Nat :=
  if op = opDwconv then [s]
  else if w.tapsPer = 1 then [s / w.chSlices]
  else ((List.range w.tapsPer).map (s * w.tapsPer + ·)).filter (· < w.ntaps)

/-- A slice falls away from a tile (R270): padding is ZERO and every tap that it carries lies in
padding at every position of the tile. -/
def sliceElided (op : Nat) (w : Window) (t s : Nat) : Bool :=
  w.padmode = 0 && (sliceTaps op w s).all fun tap =>
    (List.range 64).all fun q => (w.posOf t q).elim true fun xy => !(w.tapAt xy.1 xy.2 tap).2.2

/-- The slices that a command accumulates, in ascending order (R391). -/
def rangeOf (op : Nat) (ds : List Nat) : List Nat :=
  let w := windowOf ds
  let n := if bScount ds = 0 then slicesOf op w - bSfirst ds else bScount ds
  (List.range n).map (bSfirst ds + ·)

/-! ## Outputs -/

/-- The output channels R that a command computes (R259, R274, R390): COUT, or its input channels
where it ignores COUT. -/
def outChannels (ds : List Nat) : Nat :=
  let op := hdOp ds
  let w := windowOf ds
  if op = opPool ∨ op = opRegroup then w.gc else bCout ds

/-- Row tiles RT (R389). -/
def rowTiles (ds : List Nat) : Nat := ceilDiv (outChannels ds) 256

/-- Engine commands of a tile-producing command (R389). -/
def tileCount (ds : List Nat) : Nat := rowTiles ds * (windowOf ds).tiles

/-- Weight index of (row tile, slice, row, cell row) in the stream of R40 and R277; none for a cell
outside the diagonal (R276). -/
def weightIndex (op : Nat) (w : Window) (rt s r k : Nat) : Option Nat :=
  let S := slicesOf op w
  if op = opDwconv then
    let g := 2 ^ w.gsize
    if k / g = r / g then some (((rt * S + s) * 256 + r) * g + k % g) else none
  else some (((rt * S + s) * 256 + r) * 256 + k)

/-- Weights of one slice of a row tile. -/
def weightsPerSlice (op : Nat) (w : Window) : Nat := if op = opDwconv then 256 * 2 ^ w.gsize else 65536

end Sys2Proof.Machine
end

