-- ==== Sys2Proof/Machine/RegTable.lean ====
section
/-!
DEFINITION. The register tables of the spec as data: every field of every page with its place, its
access code, its reset value and its reset class, and a name for the place of each field. The
tables are those of the chapters that own the registers; R14 and R20 to R22 give the columns.
-/

namespace Sys2Proof.Machine

/-- The access codes of R14; `reserved` is a field that R16 keeps at 0. No field of the manual has
W1S or RWL. -/
inductive Access where
  | ro | rw | w1c | rc | ra | wo | reserved
  deriving DecidableEq, Repr

/-- The kinds of register page; `hdr` is the common header of every page (R651). -/
inductive PageKind where
  | hdr | eng | grm | tnd | cvu | strm | wst | ast | hbmc | ring | door | hmmu
  | cmmu | ctx | dlm | mbx | hlk | hif | far | clk | pwr | ras | rpl
  deriving DecidableEq, Repr

/-- A field of a register: lowest bit, width, access code, reset value, and the reset class that
its Reset column names (4 warm, 5 cold, 0 where the default class of the block restores it). -/
structure RegField where
  lo : Nat
  w : Nat
  access : Access
  reset : Nat
  cls : Nat
  deriving DecidableEq, Repr

/-- A register, or a row of like registers: the offset of the first, the distance between two, how
many there are, and whether each is a 64-bit pair (R18). -/
structure RegRow where
  kind : PageKind
  base : Nat
  stride : Nat
  count : Nat
  pair : Bool
  fields : List RegField
  deriving DecidableEq, Repr

/-- The place of a field within its page. -/
structure Fld where
  off : Nat
  lo : Nat
  w : Nat
  deriving DecidableEq, Repr

/-- The common header (R566, R578, R652, R506). -/
def regsHdr : List RegRow := [
  ⟨.hdr, 0x40, 4, 4, false, [⟨0, 8, .ra, 0x0, 0⟩, ⟨8, 23, .reserved, 0x0, 0⟩, ⟨31, 1, .wo, 0x0, 0⟩]⟩,
  ⟨.hdr, 0x8, 0, 1, false, [⟨0, 1, .rw, 0x0, 0⟩, ⟨1, 31, .reserved, 0x0, 0⟩]⟩,
  ⟨.hdr, 0xc, 0, 1, false, [⟨0, 2, .ro, 0x0, 0⟩, ⟨2, 1, .ro, 0x0, 0⟩, ⟨3, 1, .ro, 0x0, 0⟩, ⟨4, 28, .reserved, 0x0, 0⟩]⟩,
  ⟨.hdr, 0x0, 0, 1, false, [⟨0, 8, .ro, 0x0, 0⟩, ⟨8, 8, .ro, 0x0, 0⟩, ⟨16, 2, .ro, 0x0, 0⟩, ⟨18, 1, .ro, 0x0, 0⟩, ⟨19, 1, .reserved, 0x0, 0⟩, ⟨20, 12, .ro, 0x5e7, 0⟩]⟩,
  ⟨.hdr, 0x4, 0, 1, false, [⟨0, 8, .ro, 0x0, 0⟩, ⟨8, 8, .ro, 0x1, 0⟩, ⟨16, 8, .ro, 0xb0, 0⟩, ⟨24, 8, .reserved, 0x0, 0⟩]⟩,
  ⟨.hdr, 0x10, 0, 1, false, [⟨0, 32, .w1c, 0x0, 0⟩]⟩,
  ⟨.hdr, 0x14, 0, 1, false, [⟨0, 32, .rw, 0x0, 0⟩]⟩,
  ⟨.hdr, 0x18, 0, 1, false, [⟨0, 32, .ro, 0x0, 0⟩]⟩,
  ⟨.hdr, 0x1c, 0, 1, false, [⟨0, 11, .rw, 0x0, 0⟩, ⟨11, 5, .reserved, 0x0, 0⟩, ⟨16, 1, .rw, 0x0, 0⟩, ⟨17, 1, .rw, 0x1, 0⟩, ⟨18, 1, .rw, 0x0, 0⟩, ⟨19, 13, .reserved, 0x0, 0⟩]⟩,
  ⟨.hdr, 0x20, 0, 1, false, [⟨0, 8, .ro, 0x0, 0⟩, ⟨8, 22, .ro, 0x0, 0⟩, ⟨30, 1, .reserved, 0x0, 0⟩, ⟨31, 1, .w1c, 0x0, 0⟩]⟩,
  ⟨.hdr, 0x24, 0, 1, false, [⟨0, 8, .ro, 0x0, 0⟩, ⟨8, 22, .ro, 0x0, 0⟩, ⟨30, 1, .ro, 0x0, 0⟩, ⟨31, 1, .w1c, 0x0, 0⟩]⟩,
  ⟨.hdr, 0x28, 0, 1, false, [⟨0, 32, .rc, 0x0, 0⟩]⟩,
  ⟨.hdr, 0x2c, 0, 1, false, [⟨0, 32, .rc, 0x0, 0⟩]⟩,
  ⟨.hdr, 0x50, 0, 1, false, [⟨0, 32, .rw, 0x0, 0⟩]⟩,
  ⟨.hdr, 0x30, 0, 1, true, [⟨0, 64, .ro, 0x0, 0⟩]⟩]

/-- Registers of the ENG pages (R83, R98, R103, R104, R112, R131, R132, R138, R169, R170, R213, R251, R252, R281, R282, R283, R614, R660, R661). DESIGN CHOICE: a
field whose reset value is X (R22) starts at 0, or shows what its view shows. -/
def regsEng : List RegRow := [
  ⟨.eng, 0x110, 0, 1, false, [⟨0, 1, .ro, 0x0, 0⟩, ⟨1, 1, .ro, 0x0, 0⟩, ⟨2, 1, .ro, 0x0, 0⟩, ⟨3, 5, .reserved, 0x0, 0⟩, ⟨8, 8, .ro, 0x0, 0⟩, ⟨16, 8, .ro, 0x0, 0⟩, ⟨24, 6, .ro, 0x0, 0⟩, ⟨30, 2, .reserved, 0x0, 0⟩]⟩,
  ⟨.eng, 0x118, 0, 1, true, [⟨0, 64, .ro, 0x0, 0⟩]⟩,
  ⟨.eng, 0x140, 4, 8, false, [⟨0, 32, .rc, 0x0, 0⟩]⟩,
  ⟨.eng, 0x160, 4, 8, false, [⟨0, 32, .rc, 0x0, 0⟩]⟩,
  ⟨.eng, 0x100, 4, 4, false, [⟨0, 2, .rw, 0x0, 4⟩, ⟨2, 6, .reserved, 0x0, 0⟩, ⟨8, 8, .rw, 0x0, 4⟩, ⟨16, 16, .reserved, 0x0, 0⟩]⟩,
  ⟨.eng, 0x114, 0, 1, false, [⟨0, 1, .w1c, 0x0, 0⟩, ⟨1, 2, .ro, 0x0, 0⟩, ⟨3, 1, .ro, 0x0, 0⟩, ⟨4, 4, .reserved, 0x0, 0⟩, ⟨8, 8, .rc, 0x0, 0⟩, ⟨16, 4, .ro, 0x0, 0⟩, ⟨20, 12, .reserved, 0x0, 0⟩]⟩,
  ⟨.eng, 0x120, 4, 2, false, [⟨0, 16, .ro, 0x0, 0⟩, ⟨16, 2, .ro, 0x0, 0⟩, ⟨18, 1, .ro, 0x0, 0⟩, ⟨19, 1, .ro, 0x0, 0⟩, ⟨20, 1, .ro, 0x0, 0⟩, ⟨21, 8, .ro, 0x0, 0⟩, ⟨29, 3, .reserved, 0x0, 0⟩]⟩,
  ⟨.eng, 0x128, 0, 1, false, [⟨0, 16, .rc, 0x0, 0⟩, ⟨16, 16, .reserved, 0x0, 0⟩]⟩,
  ⟨.eng, 0x130, 0, 1, true, [⟨0, 64, .ro, 0x0, 0⟩]⟩,
  ⟨.eng, 0x180, 4, 8, false, [⟨0, 3, .ro, 0x0, 0⟩, ⟨3, 1, .reserved, 0x0, 0⟩, ⟨4, 3, .ro, 0x0, 0⟩, ⟨7, 1, .ro, 0x0, 0⟩, ⟨8, 2, .ro, 0x0, 0⟩, ⟨10, 1, .ro, 0x0, 0⟩, ⟨11, 1, .ro, 0x0, 0⟩, ⟨12, 4, .reserved, 0x0, 0⟩, ⟨16, 16, .ro, 0x0, 0⟩]⟩,
  ⟨.eng, 0x1a0, 0, 1, false, [⟨0, 8, .rc, 0x0, 0⟩, ⟨8, 8, .rc, 0x0, 0⟩, ⟨16, 8, .rc, 0x0, 0⟩, ⟨24, 8, .rc, 0x0, 0⟩]⟩,
  ⟨.eng, 0x1a4, 0, 1, false, [⟨0, 1, .ro, 0x0, 0⟩, ⟨1, 8, .ro, 0x0, 0⟩, ⟨9, 2, .ro, 0x0, 0⟩, ⟨11, 2, .ro, 0x0, 0⟩, ⟨13, 1, .ro, 0x0, 0⟩, ⟨14, 2, .reserved, 0x0, 0⟩, ⟨16, 16, .ro, 0x0, 0⟩]⟩,
  ⟨.eng, 0x1c0, 0, 1, false, [⟨0, 1, .ro, 0x0, 0⟩, ⟨1, 1, .ro, 0x0, 0⟩, ⟨2, 1, .ro, 0x0, 0⟩, ⟨3, 3, .ro, 0x0, 0⟩, ⟨6, 3, .ro, 0x0, 0⟩, ⟨9, 2, .ro, 0x0, 0⟩, ⟨11, 1, .ro, 0x0, 0⟩, ⟨12, 20, .reserved, 0x0, 0⟩]⟩,
  ⟨.eng, 0x1c4, 0, 1, false, [⟨0, 16, .rc, 0x0, 0⟩, ⟨16, 8, .rc, 0x0, 0⟩, ⟨24, 8, .rc, 0x0, 0⟩]⟩,
  ⟨.eng, 0x1e0, 0, 1, false, [⟨0, 1, .ro, 0x0, 0⟩, ⟨1, 1, .ro, 0x0, 0⟩, ⟨2, 1, .ro, 0x0, 0⟩, ⟨3, 2, .ro, 0x0, 0⟩, ⟨5, 1, .ro, 0x0, 0⟩, ⟨6, 2, .reserved, 0x0, 0⟩, ⟨8, 8, .ro, 0x0, 0⟩, ⟨16, 16, .ro, 0x0, 0⟩]⟩,
  ⟨.eng, 0x1e4, 0, 1, false, [⟨0, 16, .rc, 0x0, 0⟩, ⟨16, 16, .rc, 0x0, 0⟩]⟩,
  ⟨.eng, 0x1e8, 0, 1, true, [⟨0, 64, .ro, 0x0, 0⟩]⟩,
  ⟨.eng, 0x1f0, 0, 1, false, [⟨0, 7, .ro, 0x0, 5⟩, ⟨7, 1, .reserved, 0x0, 0⟩, ⟨8, 4, .ro, 0x0, 5⟩, ⟨12, 2, .ro, 0x0, 5⟩, ⟨14, 2, .reserved, 0x0, 0⟩, ⟨16, 16, .rc, 0x0, 0⟩]⟩,
  ⟨.eng, 0x12c, 0, 1, false, [⟨0, 6, .ro, 0x0, 0⟩, ⟨6, 1, .ro, 0x0, 0⟩, ⟨7, 1, .ro, 0x0, 0⟩, ⟨8, 1, .ro, 0x0, 0⟩, ⟨9, 2, .ro, 0x0, 0⟩, ⟨11, 5, .reserved, 0x0, 0⟩, ⟨16, 8, .ro, 0x0, 0⟩, ⟨24, 8, .reserved, 0x0, 0⟩]⟩,
  ⟨.eng, 0x1a8, 0, 1, true, [⟨0, 64, .ro, 0x0, 0⟩]⟩]

/-- Registers of the GRM pages (R148, R330, R343, R344, R345, R406, R664). -/
def regsGrm : List RegRow := [
  ⟨.grm, 0x140, 0, 1, false, [⟨0, 2, .rw, 0x1, 0⟩, ⟨2, 30, .reserved, 0x0, 0⟩]⟩,
  ⟨.grm, 0x150, 0, 1, false, [⟨0, 14, .rw, 0x1000, 0⟩, ⟨14, 2, .reserved, 0x0, 0⟩, ⟨16, 1, .rw, 0x1, 0⟩, ⟨17, 15, .reserved, 0x0, 0⟩]⟩,
  ⟨.grm, 0x154, 0, 1, false, [⟨0, 14, .ro, 0x0, 0⟩, ⟨14, 2, .reserved, 0x0, 0⟩, ⟨16, 14, .ro, 0x0, 0⟩, ⟨30, 1, .ro, 0x0, 0⟩, ⟨31, 1, .reserved, 0x0, 0⟩]⟩,
  ⟨.grm, 0x158, 0, 1, false, [⟨0, 7, .ro, 0x0, 0⟩, ⟨7, 1, .ro, 0x0, 0⟩, ⟨8, 8, .ro, 0x0, 0⟩, ⟨16, 16, .rc, 0x0, 0⟩]⟩,
  ⟨.grm, 0x15c, 0, 1, false, [⟨0, 12, .rc, 0x0, 0⟩, ⟨12, 12, .rc, 0x0, 0⟩, ⟨24, 8, .rc, 0x0, 0⟩]⟩,
  ⟨.grm, 0x160, 0, 1, false, [⟨0, 4, .rw, 0x8, 0⟩, ⟨4, 12, .reserved, 0x0, 0⟩, ⟨16, 16, .rw, 0x10, 0⟩]⟩,
  ⟨.grm, 0x100, 0, 1, false, [⟨0, 16, .ro, 0x0, 0⟩, ⟨16, 8, .ro, 0x0, 0⟩, ⟨24, 8, .ro, 0x0, 0⟩]⟩,
  ⟨.grm, 0x104, 0, 1, false, [⟨0, 1, .ro, 0x0, 0⟩, ⟨1, 1, .ro, 0x0, 0⟩, ⟨2, 1, .ro, 0x0, 0⟩, ⟨3, 5, .reserved, 0x0, 0⟩, ⟨8, 5, .ro, 0x0, 0⟩, ⟨13, 3, .reserved, 0x0, 0⟩, ⟨16, 8, .ro, 0x0, 0⟩, ⟨24, 8, .reserved, 0x0, 0⟩]⟩]

/-- Registers of the TND pages (R209, R210, R211, R212). -/
def regsTnd : List RegRow := [
  ⟨.tnd, 0x100, 0, 1, false, [⟨0, 8, .rw, 0x10, 0⟩, ⟨8, 8, .rw, 0x10, 0⟩, ⟨16, 8, .rw, 0x10, 0⟩, ⟨24, 8, .rw, 0x10, 0⟩]⟩,
  ⟨.tnd, 0x104, 0, 1, false, [⟨0, 8, .ro, 0x0, 0⟩, ⟨8, 8, .ro, 0x40, 0⟩, ⟨16, 4, .ro, 0x0, 0⟩, ⟨20, 12, .reserved, 0x0, 0⟩]⟩,
  ⟨.tnd, 0x108, 0, 1, false, [⟨0, 8, .ro, 0x0, 0⟩, ⟨8, 8, .ro, 0x0, 0⟩, ⟨16, 8, .ro, 0x0, 0⟩, ⟨24, 8, .ro, 0x0, 0⟩]⟩,
  ⟨.tnd, 0x10c, 0, 1, false, [⟨0, 16, .rc, 0x0, 0⟩, ⟨16, 8, .rc, 0x0, 0⟩, ⟨24, 4, .rc, 0x0, 0⟩, ⟨28, 4, .rc, 0x0, 0⟩]⟩]

/-- Registers of the CVU pages (R298, R299, R300). -/
def regsCvu : List RegRow := [
  ⟨.cvu, 0x100, 0, 1, false, [⟨0, 1, .ro, 0x0, 0⟩, ⟨1, 1, .ro, 0x0, 0⟩, ⟨2, 1, .ro, 0x0, 0⟩, ⟨3, 1, .ro, 0x0, 0⟩, ⟨4, 4, .ro, 0x0, 0⟩, ⟨8, 3, .ro, 0x0, 0⟩, ⟨11, 21, .reserved, 0x0, 0⟩]⟩,
  ⟨.cvu, 0x108, 0, 1, true, [⟨0, 64, .ro, 0x0, 0⟩]⟩,
  ⟨.cvu, 0x110, 0, 1, false, [⟨0, 16, .rc, 0x0, 0⟩, ⟨16, 8, .rc, 0x0, 0⟩, ⟨24, 8, .rc, 0x0, 0⟩]⟩]

/-- Registers of the STRM pages (R305, R342). -/
def regsStrm : List RegRow := [
  ⟨.strm, 0x100, 0, 1, false, [⟨0, 10, .rw, 0x0, 0⟩, ⟨10, 22, .reserved, 0x0, 0⟩]⟩,
  ⟨.strm, 0x104, 0, 1, false, [⟨0, 3, .wo, 0x0, 0⟩, ⟨3, 5, .reserved, 0x0, 0⟩, ⟨8, 8, .ro, 0x0, 0⟩, ⟨16, 1, .ro, 0x0, 0⟩, ⟨17, 15, .reserved, 0x0, 0⟩]⟩,
  ⟨.strm, 0x120, 4, 8, false, [⟨0, 32, .rw, 0x0, 0⟩]⟩,
  ⟨.strm, 0x108, 0, 1, false, [⟨0, 11, .ro, 0x0, 0⟩, ⟨11, 11, .ro, 0x0, 0⟩, ⟨22, 10, .rc, 0x0, 0⟩]⟩]

/-- Registers of the WST pages (R349, R350, R362, R369, R370). -/
def regsWst : List RegRow := [
  ⟨.wst, 0x140, 8, 16, false, [⟨0, 13, .rw, 0x0, 0⟩, ⟨13, 3, .reserved, 0x0, 0⟩, ⟨16, 13, .rw, 0x0, 0⟩, ⟨29, 3, .reserved, 0x0, 0⟩]⟩,
  ⟨.wst, 0x144, 8, 16, false, [⟨0, 8, .rw, 0x0, 0⟩, ⟨8, 1, .rw, 0x0, 0⟩, ⟨9, 1, .rw, 0x0, 0⟩, ⟨10, 1, .rw, 0x0, 0⟩, ⟨11, 21, .reserved, 0x0, 0⟩]⟩,
  ⟨.wst, 0x100, 0, 1, false, [⟨0, 1, .rw, 0x0, 0⟩, ⟨1, 31, .reserved, 0x0, 0⟩]⟩,
  ⟨.wst, 0x104, 0, 1, false, [⟨0, 1, .ro, 0x0, 0⟩, ⟨1, 2, .ro, 0x0, 0⟩, ⟨3, 2, .ro, 0x0, 0⟩, ⟨5, 3, .reserved, 0x0, 0⟩, ⟨8, 8, .ro, 0x0, 0⟩, ⟨16, 8, .ro, 0x0, 0⟩, ⟨24, 8, .reserved, 0x0, 0⟩]⟩,
  ⟨.wst, 0x108, 0, 1, false, [⟨0, 16, .rc, 0x0, 0⟩, ⟨16, 8, .rc, 0x0, 0⟩, ⟨24, 8, .rc, 0x0, 0⟩]⟩]

/-- Registers of the AST pages (R355). -/
def regsAst : List RegRow := [
  ⟨.ast, 0x100, 0, 1, false, [⟨0, 10, .ro, 0x2e7, 0⟩, ⟨10, 6, .reserved, 0x0, 0⟩, ⟨16, 14, .ro, 0x2e70, 0⟩, ⟨30, 2, .reserved, 0x0, 0⟩]⟩]

/-- Registers of the HBMC pages (R359, R360, R618, R665). -/
def regsHbmc : List RegRow := [
  ⟨.hbmc, 0x100, 0, 1, false, [⟨0, 4, .rw, 0x8, 0⟩, ⟨4, 4, .rw, 0x4, 0⟩, ⟨8, 4, .rw, 0x3, 0⟩, ⟨12, 4, .rw, 0x1, 0⟩, ⟨16, 16, .reserved, 0x0, 0⟩]⟩,
  ⟨.hbmc, 0x110, 8, 4, true, [⟨0, 64, .ro, 0x0, 0⟩]⟩,
  ⟨.hbmc, 0x130, 0, 1, false, [⟨0, 5, .ro, 0x0, 0⟩, ⟨5, 1, .ro, 0x0, 0⟩, ⟨6, 8, .ro, 0x0, 0⟩, ⟨14, 8, .ro, 0x0, 5⟩, ⟨22, 10, .reserved, 0x0, 0⟩]⟩,
  ⟨.hbmc, 0x104, 0, 1, false, [⟨0, 1, .ro, 0x0, 0⟩, ⟨1, 1, .ro, 0x0, 0⟩, ⟨2, 6, .reserved, 0x0, 0⟩, ⟨8, 8, .ro, 0x0, 0⟩, ⟨16, 16, .reserved, 0x0, 0⟩]⟩]

/-- Registers of the RING pages (R374, R376). -/
def regsRing : List RegRow := [
  ⟨.ring, 0x100, 0, 1, true, [⟨0, 4, .rw, 0x0, 0⟩, ⟨4, 8, .reserved, 0x0, 0⟩, ⟨12, 36, .rw, 0x0, 0⟩, ⟨48, 16, .reserved, 0x0, 0⟩]⟩,
  ⟨.ring, 0x108, 0, 1, true, [⟨0, 4, .rw, 0x0, 0⟩, ⟨4, 8, .reserved, 0x0, 0⟩, ⟨12, 36, .rw, 0x0, 0⟩, ⟨48, 16, .reserved, 0x0, 0⟩]⟩,
  ⟨.ring, 0x110, 0, 1, false, [⟨0, 1, .rw, 0x0, 0⟩, ⟨1, 7, .reserved, 0x0, 0⟩, ⟨8, 8, .rw, 0x0, 0⟩, ⟨16, 11, .rw, 0x0, 0⟩, ⟨27, 5, .reserved, 0x0, 0⟩]⟩]

/-- Registers of the DOOR pages (R379, R380, R381, R382). -/
def regsDoor : List RegRow := [
  ⟨.door, 0x100, 0, 1, false, [⟨0, 16, .rw, 0x0, 0⟩, ⟨16, 16, .reserved, 0x0, 0⟩]⟩,
  ⟨.door, 0x104, 0, 1, false, [⟨0, 16, .ro, 0x0, 0⟩, ⟨16, 1, .ro, 0x0, 0⟩, ⟨17, 1, .ro, 0x0, 0⟩, ⟨18, 1, .ro, 0x0, 0⟩, ⟨19, 5, .reserved, 0x0, 0⟩, ⟨24, 8, .rc, 0x0, 0⟩]⟩,
  ⟨.door, 0x108, 0, 1, false, [⟨0, 16, .rw, 0x0, 0⟩, ⟨16, 16, .ro, 0x0, 0⟩]⟩,
  ⟨.door, 0x10c, 0, 1, false, [⟨0, 1, .wo, 0x0, 0⟩]⟩]

/-- Registers of the HMMU pages (R420, R429, R430, R431, R439, R667, R445). -/
def regsHmmu : List RegRow := [
  ⟨.hmmu, 0x100, 0, 1, true, [⟨0, 1, .rw, 0x0, 0⟩, ⟨1, 11, .reserved, 0x0, 0⟩, ⟨12, 40, .rw, 0x0, 0⟩, ⟨52, 12, .reserved, 0x0, 0⟩]⟩,
  ⟨.hmmu, 0x120, 0, 1, true, [⟨0, 12, .reserved, 0x0, 0⟩, ⟨12, 36, .rw, 0x0, 0⟩, ⟨48, 16, .reserved, 0x0, 0⟩]⟩,
  ⟨.hmmu, 0x128, 0, 1, false, [⟨0, 8, .wo, 0x0, 0⟩, ⟨8, 2, .wo, 0x0, 0⟩, ⟨10, 2, .reserved, 0x0, 0⟩, ⟨12, 20, .wo, 0x0, 0⟩]⟩,
  ⟨.hmmu, 0x12c, 0, 1, false, [⟨0, 16, .ro, 0x0, 0⟩, ⟨16, 1, .ro, 0x0, 0⟩, ⟨17, 15, .reserved, 0x0, 0⟩]⟩,
  ⟨.hmmu, 0x110, 0, 1, false, [⟨0, 24, .wo, 0x0, 0⟩, ⟨24, 2, .wo, 0x0, 0⟩, ⟨26, 6, .reserved, 0x0, 0⟩]⟩,
  ⟨.hmmu, 0x118, 0, 1, false, [⟨0, 24, .ro, 0x0, 0⟩, ⟨24, 8, .ro, 0x0, 0⟩]⟩,
  ⟨.hmmu, 0x114, 0, 1, false, [⟨0, 11, .ro, 0x0, 0⟩, ⟨11, 5, .reserved, 0x0, 0⟩, ⟨16, 8, .rc, 0x0, 0⟩, ⟨24, 8, .ro, 0x0, 0⟩]⟩]

/-- Registers of the CMMU pages (R446, R447). -/
def regsCmmu : List RegRow := [
  ⟨.cmmu, 0x100, 0, 1, false, [⟨0, 4, .ro, 0x0, 0⟩, ⟨4, 10, .ro, 0x0, 0⟩, ⟨14, 2, .reserved, 0x0, 0⟩, ⟨16, 8, .ro, 0x0, 0⟩, ⟨24, 8, .reserved, 0x0, 0⟩]⟩,
  ⟨.cmmu, 0x104, 0, 1, false, [⟨0, 16, .rc, 0x0, 0⟩, ⟨16, 8, .rc, 0x0, 0⟩, ⟨24, 8, .rc, 0x0, 0⟩]⟩]

/-- Registers of the CTX pages (R450, R455, R456, R473, R472). -/
def regsCtx : List RegRow := [
  ⟨.ctx, 0x104, 0, 1, false, [⟨0, 3, .wo, 0x0, 0⟩, ⟨3, 5, .reserved, 0x0, 0⟩, ⟨8, 8, .ro, 0x0, 0⟩, ⟨16, 1, .ro, 0x0, 0⟩, ⟨17, 15, .reserved, 0x0, 0⟩]⟩,
  ⟨.ctx, 0x108, 0, 1, false, [⟨0, 1, .rw, 0x1, 0⟩, ⟨1, 1, .rw, 0x1, 0⟩, ⟨2, 3, .ro, 0x7, 0⟩, ⟨5, 3, .reserved, 0x0, 0⟩, ⟨8, 8, .rw, 0x40, 0⟩, ⟨16, 16, .reserved, 0x0, 0⟩]⟩,
  ⟨.ctx, 0x140, 4, 8, false, [⟨0, 3, .ro, 0x0, 0⟩, ⟨3, 1, .ro, 0x0, 0⟩, ⟨4, 8, .ro, 0x0, 0⟩, ⟨12, 1, .ro, 0x0, 0⟩, ⟨13, 3, .ro, 0x0, 0⟩, ⟨16, 3, .ro, 0x0, 0⟩, ⟨19, 13, .reserved, 0x0, 0⟩]⟩,
  ⟨.ctx, 0x10c, 0, 1, false, [⟨0, 8, .rc, 0x0, 0⟩, ⟨8, 8, .rc, 0x0, 0⟩, ⟨16, 8, .rc, 0x0, 0⟩, ⟨24, 4, .rc, 0x0, 0⟩, ⟨28, 4, .rc, 0x0, 0⟩]⟩,
  ⟨.ctx, 0x100, 0, 1, false, [⟨0, 8, .rw, 0x0, 0⟩]⟩,
  ⟨.ctx, 0x120, 4, 8, false, [⟨0, 32, .rw, 0x0, 0⟩]⟩,
  ⟨.ctx, 0x160, 4, 8, false, [⟨0, 32, .ro, 0x0, 0⟩]⟩]

/-- Registers of the DLM pages (R487, R478). -/
def regsDlm : List RegRow := [
  ⟨.dlm, 0x108, 0, 1, false, [⟨0, 1, .rw, 0x1, 0⟩, ⟨1, 7, .reserved, 0x0, 0⟩, ⟨8, 8, .rw, 0x10, 0⟩, ⟨16, 16, .reserved, 0x0, 0⟩]⟩,
  ⟨.dlm, 0x10c, 0, 1, false, [⟨0, 16, .rc, 0x0, 0⟩, ⟨16, 8, .rc, 0x0, 0⟩, ⟨24, 8, .rc, 0x0, 0⟩]⟩,
  ⟨.dlm, 0x100, 0, 1, false, [⟨0, 10, .rw, 0x0, 0⟩]⟩,
  ⟨.dlm, 0x104, 0, 1, false, [⟨0, 3, .wo, 0x0, 0⟩, ⟨8, 8, .ro, 0x0, 0⟩, ⟨16, 1, .ro, 0x0, 0⟩]⟩,
  ⟨.dlm, 0x120, 4, 8, false, [⟨0, 32, .rw, 0x0, 0⟩]⟩]

/-- Registers of the MBX pages (R491, R492, R493, R494, R495, R496). -/
def regsMbx : List RegRow := [
  ⟨.mbx, 0x100, 4, 16, false, [⟨0, 32, .rw, 0x0, 0⟩]⟩,
  ⟨.mbx, 0x180, 4, 16, false, [⟨0, 32, .ro, 0x0, 0⟩]⟩,
  ⟨.mbx, 0x140, 0, 1, false, [⟨0, 1, .wo, 0x0, 0⟩, ⟨1, 31, .reserved, 0x0, 0⟩]⟩,
  ⟨.mbx, 0x144, 0, 1, false, [⟨0, 1, .wo, 0x0, 0⟩, ⟨1, 31, .reserved, 0x0, 0⟩]⟩,
  ⟨.mbx, 0x14c, 0, 1, false, [⟨0, 1, .ro, 0x0, 0⟩, ⟨1, 1, .w1c, 0x0, 0⟩, ⟨2, 1, .w1c, 0x0, 0⟩, ⟨3, 1, .w1c, 0x0, 0⟩, ⟨4, 4, .reserved, 0x0, 0⟩, ⟨8, 8, .rc, 0x0, 0⟩, ⟨16, 15, .ro, 0x0, 0⟩, ⟨31, 1, .reserved, 0x0, 0⟩]⟩,
  ⟨.mbx, 0x150, 0, 1, false, [⟨0, 16, .ro, 0x0, 0⟩, ⟨16, 15, .ro, 0x0, 0⟩, ⟨31, 1, .ro, 0x0, 0⟩]⟩,
  ⟨.mbx, 0x160, 0, 1, false, [⟨0, 1, .rw, 0x1, 0⟩, ⟨1, 1, .rw, 0x1, 0⟩, ⟨2, 6, .reserved, 0x0, 0⟩, ⟨8, 16, .rw, 0x100, 0⟩, ⟨24, 8, .reserved, 0x0, 0⟩]⟩,
  ⟨.mbx, 0x1c0, 0, 1, false, [⟨0, 15, .ro, 0x0, 0⟩, ⟨15, 1, .ro, 0x0, 0⟩, ⟨16, 1, .ro, 0x0, 0⟩, ⟨17, 15, .reserved, 0x0, 0⟩]⟩,
  ⟨.mbx, 0x1c4, 0, 1, false, [⟨0, 16, .wo, 0x0, 0⟩, ⟨16, 16, .reserved, 0x0, 0⟩]⟩,
  ⟨.mbx, 0x148, 0, 1, false, [⟨0, 1, .wo, 0x0, 0⟩, ⟨1, 31, .reserved, 0x0, 0⟩]⟩]

/-- Registers of the HLK pages (R532, R533, R534, R535, R537, R536). -/
def regsHlk : List RegRow := [
  ⟨.hlk, 0x100, 0, 1, false, [⟨0, 1, .rw, 0x0, 4⟩, ⟨1, 2, .rw, 0x0, 4⟩, ⟨3, 1, .rw, 0x1, 4⟩, ⟨4, 4, .rw, 0x8, 4⟩, ⟨8, 16, .rw, 0x200, 4⟩, ⟨24, 8, .reserved, 0x0, 0⟩]⟩,
  ⟨.hlk, 0x104, 0, 1, false, [⟨0, 2, .ro, 0x0, 0⟩, ⟨2, 2, .ro, 0x0, 0⟩, ⟨4, 4, .ro, 0x0, 4⟩, ⟨8, 1, .ro, 0x0, 0⟩, ⟨9, 3, .ro, 0x0, 0⟩, ⟨12, 4, .ro, 0x0, 0⟩, ⟨16, 16, .reserved, 0x0, 0⟩]⟩,
  ⟨.hlk, 0x108, 0, 1, true, [⟨0, 48, .ro, 0x0, 4⟩, ⟨48, 8, .ro, 0x0, 4⟩, ⟨56, 8, .reserved, 0x0, 0⟩]⟩,
  ⟨.hlk, 0x110, 0, 1, false, [⟨0, 8, .ro, 0x0, 0⟩, ⟨8, 8, .ro, 0x0, 0⟩, ⟨16, 8, .ro, 0x0, 0⟩, ⟨24, 8, .ro, 0x0, 0⟩]⟩,
  ⟨.hlk, 0x118, 0, 1, false, [⟨0, 16, .rc, 0x0, 0⟩, ⟨16, 8, .rc, 0x0, 0⟩, ⟨24, 4, .rc, 0x0, 0⟩, ⟨28, 4, .rc, 0x0, 0⟩]⟩,
  ⟨.hlk, 0x130, 0, 1, false, [⟨0, 12, .rw, 0x0, 0⟩, ⟨12, 2, .rw, 0x0, 0⟩, ⟨14, 1, .rw, 0x0, 0⟩, ⟨15, 1, .wo, 0x0, 0⟩, ⟨16, 1, .ro, 0x0, 0⟩, ⟨17, 1, .ro, 0x0, 0⟩, ⟨18, 8, .ro, 0x0, 0⟩, ⟨26, 6, .reserved, 0x0, 0⟩]⟩,
  ⟨.hlk, 0x120, 0, 1, true, [⟨0, 40, .ro, 0x0, 0⟩, ⟨40, 24, .ro, 0x0, 0⟩]⟩]

/-- Registers of the HIF pages (R548, R662). -/
def regsHif : List RegRow := [
  ⟨.hif, 0x100, 0, 1, false, [⟨0, 4, .ro, 0x0, 0⟩, ⟨4, 4, .ro, 0x0, 0⟩, ⟨8, 4, .ro, 0x0, 0⟩, ⟨12, 4, .ro, 0x0, 0⟩, ⟨16, 1, .ro, 0x0, 0⟩, ⟨17, 1, .ro, 0x0, 0⟩, ⟨18, 14, .reserved, 0x0, 0⟩]⟩,
  ⟨.hif, 0x104, 0, 1, false, [⟨0, 4, .ro, 0x0, 0⟩, ⟨4, 5, .ro, 0x0, 0⟩, ⟨9, 1, .ro, 0x0, 0⟩, ⟨10, 1, .ro, 0x0, 0⟩, ⟨11, 21, .reserved, 0x0, 0⟩]⟩,
  ⟨.hif, 0x108, 0, 1, false, [⟨0, 16, .rc, 0x0, 0⟩, ⟨16, 8, .rc, 0x0, 0⟩, ⟨24, 8, .rc, 0x0, 0⟩]⟩]

/-- Registers of the FAR pages (R549, R550, R562). -/
def regsFar : List RegRow := [
  ⟨.far, 0x100, 0, 1, false, [⟨0, 4, .ro, 0x0, 0⟩, ⟨4, 1, .ro, 0x0, 0⟩, ⟨5, 1, .ro, 0x0, 0⟩, ⟨6, 2, .reserved, 0x0, 0⟩, ⟨8, 8, .ro, 0x0, 0⟩, ⟨16, 16, .reserved, 0x0, 0⟩]⟩,
  ⟨.far, 0x104, 0, 1, false, [⟨0, 1, .ro, 0x0, 0⟩, ⟨1, 1, .ro, 0x0, 0⟩, ⟨2, 1, .ro, 0x0, 0⟩, ⟨3, 1, .ro, 0x0, 0⟩, ⟨4, 1, .ro, 0x0, 0⟩, ⟨5, 3, .reserved, 0x0, 0⟩, ⟨8, 8, .ro, 0x0, 0⟩, ⟨16, 8, .ro, 0x0, 0⟩, ⟨24, 8, .reserved, 0x0, 0⟩]⟩,
  ⟨.far, 0x110, 4, 10, false, [⟨0, 1, .ro, 0x0, 0⟩, ⟨1, 1, .ro, 0x0, 0⟩, ⟨2, 1, .ro, 0x0, 0⟩, ⟨3, 1, .ro, 0x0, 0⟩, ⟨4, 12, .reserved, 0x0, 0⟩, ⟨16, 16, .rc, 0x0, 0⟩]⟩]

/-- Registers of the CLK pages (R567, R663). -/
def regsClk : List RegRow := [
  ⟨.clk, 0x100, 4, 4, false, [⟨0, 1, .ro, 0x0, 0⟩, ⟨1, 2, .ro, 0x0, 0⟩, ⟨3, 5, .reserved, 0x0, 0⟩, ⟨8, 8, .rc, 0x0, 0⟩, ⟨16, 16, .reserved, 0x0, 0⟩]⟩,
  ⟨.clk, 0x110, 0, 1, false, [⟨0, 4, .ro, 0x0, 0⟩, ⟨4, 28, .reserved, 0x0, 0⟩]⟩]

/-- Registers of the PWR pages (R581, R582, R583). -/
def regsPwr : List RegRow := [
  ⟨.pwr, 0x100, 8, 4, false, [⟨0, 2, .rw, 0x2, 4⟩, ⟨2, 2, .rw, 0x0, 4⟩, ⟨4, 28, .reserved, 0x0, 0⟩]⟩,
  ⟨.pwr, 0x104, 8, 4, false, [⟨0, 2, .ro, 0x2, 0⟩, ⟨2, 1, .ro, 0x0, 0⟩, ⟨3, 2, .ro, 0x3, 0⟩, ⟨5, 6, .ro, 0x0, 0⟩, ⟨11, 6, .ro, 0x0, 0⟩, ⟨17, 5, .ro, 0x10, 0⟩, ⟨22, 8, .ro, 0x0, 0⟩, ⟨30, 2, .reserved, 0x0, 0⟩]⟩,
  ⟨.pwr, 0x140, 0, 1, false, [⟨0, 9, .rw, 0xfa, 0⟩, ⟨9, 1, .rw, 0x1, 0⟩, ⟨10, 22, .reserved, 0x0, 0⟩]⟩,
  ⟨.pwr, 0x144, 0, 1, false, [⟨0, 10, .ro, 0x0, 0⟩, ⟨10, 1, .ro, 0x0, 0⟩, ⟨11, 21, .reserved, 0x0, 0⟩]⟩,
  ⟨.pwr, 0x148, 0, 1, false, [⟨0, 8, .rc, 0x0, 0⟩, ⟨8, 8, .rc, 0x0, 0⟩, ⟨16, 8, .rc, 0x0, 0⟩, ⟨24, 8, .rc, 0x0, 0⟩]⟩]

/-- Registers of the RAS pages (R615, R616, R617). DESIGN CHOICE: POOL and FAILED of RAS_CHn_STAT, whose reset
value is X (R22), start at 0, and RAS_ENG_REC shows the site records. -/
def regsRas : List RegRow := [
  ⟨.ras, 0x100, 0, 1, false, [⟨0, 2, .rw, 0x0, 0⟩, ⟨2, 7, .rw, 0x0, 0⟩, ⟨9, 23, .reserved, 0x0, 0⟩]⟩,
  ⟨.ras, 0x104, 0, 1, false, [⟨0, 3, .ro, 0x0, 0⟩, ⟨3, 7, .ro, 0x0, 0⟩, ⟨10, 2, .ro, 0x0, 0⟩, ⟨12, 2, .ro, 0x0, 0⟩, ⟨14, 3, .ro, 0x0, 0⟩, ⟨17, 7, .ro, 0x0, 0⟩, ⟨24, 8, .reserved, 0x0, 0⟩]⟩,
  ⟨.ras, 0x110, 4, 4, false, [⟨0, 2, .ro, 0x0, 0⟩, ⟨2, 4, .ro, 0x0, 0⟩, ⟨6, 4, .ro, 0x0, 0⟩, ⟨10, 6, .reserved, 0x0, 0⟩, ⟨16, 8, .ro, 0x0, 0⟩, ⟨24, 8, .ro, 0x0, 0⟩]⟩,
  ⟨.ras, 0x120, 0, 1, false, [⟨0, 8, .rc, 0x0, 0⟩, ⟨8, 8, .rc, 0x0, 0⟩, ⟨16, 8, .rc, 0x0, 0⟩, ⟨24, 8, .rc, 0x0, 0⟩]⟩]

/-- Registers of the RPL pages (R643). -/
def regsRpl : List RegRow := [
  ⟨.rpl, 0x108, 16, 5, false, [⟨0, 16, .rw, 0x0, 0⟩, ⟨16, 16, .ro, 0x0, 0⟩]⟩,
  ⟨.rpl, 0x160, 0, 1, false, [⟨0, 8, .rw, 0x0, 0⟩, ⟨8, 1, .rw, 0x0, 0⟩, ⟨9, 1, .rw, 0x0, 0⟩, ⟨10, 6, .reserved, 0x0, 0⟩, ⟨16, 8, .rw, 0x0, 0⟩, ⟨24, 8, .reserved, 0x0, 0⟩]⟩,
  ⟨.rpl, 0x164, 0, 1, false, [⟨0, 1, .wo, 0x0, 0⟩, ⟨1, 1, .wo, 0x0, 0⟩, ⟨2, 1, .wo, 0x0, 0⟩, ⟨3, 1, .wo, 0x0, 0⟩, ⟨4, 28, .reserved, 0x0, 0⟩]⟩,
  ⟨.rpl, 0x168, 0, 1, false, [⟨0, 3, .ro, 0x0, 0⟩, ⟨3, 1, .ro, 0x0, 0⟩, ⟨4, 5, .ro, 0x0, 0⟩, ⟨9, 4, .ro, 0x0, 0⟩, ⟨13, 3, .ro, 0x0, 0⟩, ⟨16, 16, .ro, 0x0, 0⟩]⟩,
  ⟨.rpl, 0x16c, 0, 1, false, [⟨0, 16, .rc, 0x0, 0⟩, ⟨16, 8, .rc, 0x0, 0⟩, ⟨24, 8, .rc, 0x0, 0⟩]⟩,
  ⟨.rpl, 0x170, 0, 1, true, [⟨0, 10, .rw, 0x0, 0⟩, ⟨10, 11, .reserved, 0x0, 0⟩, ⟨21, 27, .rw, 0x0, 0⟩, ⟨48, 16, .reserved, 0x0, 0⟩]⟩,
  ⟨.rpl, 0x180, 0, 1, false, [⟨0, 16, .ro, 0x0, 0⟩, ⟨16, 16, .rw, 0x0, 0⟩]⟩,
  ⟨.rpl, 0x184, 0, 1, false, [⟨0, 2, .rw, 0x0, 0⟩, ⟨2, 2, .rw, 0x0, 0⟩, ⟨4, 4, .reserved, 0x0, 0⟩, ⟨8, 8, .rw, 0x0, 0⟩, ⟨16, 10, .rw, 0x0, 0⟩, ⟨26, 6, .reserved, 0x0, 0⟩]⟩,
  ⟨.rpl, 0x188, 0, 1, false, [⟨0, 6, .rw, 0x0, 0⟩, ⟨6, 1, .rw, 0x0, 0⟩, ⟨7, 25, .reserved, 0x0, 0⟩]⟩,
  ⟨.rpl, 0x18c, 0, 1, false, [⟨0, 32, .rw, 0x0, 0⟩]⟩,
  ⟨.rpl, 0x190, 0, 1, false, [⟨0, 16, .rc, 0x0, 0⟩, ⟨16, 8, .rc, 0x0, 0⟩, ⟨24, 8, .rc, 0x0, 0⟩]⟩,
  ⟨.rpl, 0x100, 16, 5, true, [⟨0, 4, .rw, 0x0, 0⟩, ⟨12, 36, .rw, 0x0, 0⟩]⟩,
  ⟨.rpl, 0x178, 0, 1, true, [⟨0, 4, .rw, 0x0, 0⟩, ⟨12, 36, .rw, 0x0, 0⟩]⟩]

/-- The registers of a kind of page. -/
def PageKind.rows : PageKind → List RegRow
  | .hdr => regsHdr
  | .eng => regsEng
  | .grm => regsGrm
  | .tnd => regsTnd
  | .cvu => regsCvu
  | .strm => regsStrm
  | .wst => regsWst
  | .ast => regsAst
  | .hbmc => regsHbmc
  | .ring => regsRing
  | .door => regsDoor
  | .hmmu => regsHmmu
  | .cmmu => regsCmmu
  | .ctx => regsCtx
  | .dlm => regsDlm
  | .mbx => regsMbx
  | .hlk => regsHlk
  | .hif => regsHif
  | .far => regsFar
  | .clk => regsClk
  | .pwr => regsPwr
  | .ras => regsRas
  | .rpl => regsRpl

end Sys2Proof.Machine

namespace Sys2Proof.Reg

open Sys2Proof.Machine

/-! ENG_WREG_STAT (R83) -/
def engWregStat_WSEL : Fld := ⟨0x110, 0, 1⟩
def engWregStat_SHADOW_READY : Fld := ⟨0x110, 1, 1⟩
def engWregStat_SHADOW_LOADING : Fld := ⟨0x110, 2, 1⟩
def engWregStat_WSLICE : Fld := ⟨0x110, 8, 8⟩
def engWregStat_SSLICE : Fld := ⟨0x110, 16, 8⟩
def engWregStat_ROT : Fld := ⟨0x110, 24, 6⟩
/-! ENG_SKIP (R98) -/
def engSkip_SKIPPED : Fld := ⟨0x118, 0, 64⟩
/-! ENG_LANE_DONE (R103) -/
def engLaneDone_COUNT (i : Nat) : Fld := ⟨0x140 + 4 * i, 0, 32⟩
/-! ENG_LANE_WAIT (R103) -/
def engLaneWait_COUNT (i : Nat) : Fld := ⟨0x160 + 4 * i, 0, 32⟩
/-! ENG_COLMAP (R104) -/
def engColmap_MODE (i : Nat) : Fld := ⟨0x100 + 4 * i, 0, 2⟩
def engColmap_TARGET (i : Nat) : Fld := ⟨0x100 + 4 * i, 8, 8⟩
/-! ENG_CHK_STAT (R112) -/
def engChkStat_MISMATCH : Fld := ⟨0x114, 0, 1⟩
def engChkStat_LAST_GROUP : Fld := ⟨0x114, 1, 2⟩
def engChkStat_LAST_MODE : Fld := ⟨0x114, 3, 1⟩
def engChkStat_MISMATCH_CNT : Fld := ⟨0x114, 8, 8⟩
def engChkStat_UNCHECKED : Fld := ⟨0x114, 16, 4⟩
/-! ENG_LNS_BANK (R131) -/
def engLnsBank_BASE (i : Nat) : Fld := ⟨0x120 + 4 * i, 0, 16⟩
def engLnsBank_FSEL (i : Nat) : Fld := ⟨0x120 + 4 * i, 16, 2⟩
def engLnsBank_VALID (i : Nat) : Fld := ⟨0x120 + 4 * i, 18, 1⟩
def engLnsBank_BUILDING (i : Nat) : Fld := ⟨0x120 + 4 * i, 19, 1⟩
def engLnsBank_BOUND (i : Nat) : Fld := ⟨0x120 + 4 * i, 20, 1⟩
def engLnsBank_KNOT (i : Nat) : Fld := ⟨0x120 + 4 * i, 21, 8⟩
/-! ENG_LNS_CNT (R132) -/
def engLnsCnt_REBUILDS : Fld := ⟨0x128, 0, 16⟩
/-! ENG_FB_BEATS (R138) -/
def engFbBeats_BEATS : Fld := ⟨0x130, 0, 64⟩
/-! GRM_ACC_CFG (R148) -/
def grmAccCfg_PSEL : Fld := ⟨0x140, 0, 2⟩
/-! ENG_TSLOT (R169) -/
def engTslot_STATE (i : Nat) : Fld := ⟨0x180 + 4 * i, 0, 3⟩
def engTslot_CTX (i : Nat) : Fld := ⟨0x180 + 4 * i, 4, 3⟩
def engTslot_GUARDED (i : Nat) : Fld := ⟨0x180 + 4 * i, 7, 1⟩
def engTslot_RETRIES (i : Nat) : Fld := ⟨0x180 + 4 * i, 8, 2⟩
def engTslot_LONGSUM (i : Nat) : Fld := ⟨0x180 + 4 * i, 10, 1⟩
def engTslot_MISMATCH (i : Nat) : Fld := ⟨0x180 + 4 * i, 11, 1⟩
def engTslot_TILE (i : Nat) : Fld := ⟨0x180 + 4 * i, 16, 16⟩
/-! ENG_TILE_CNT (R170) -/
def engTileCnt_SEALS : Fld := ⟨0x1a0, 0, 8⟩
def engTileCnt_DISCARDS : Fld := ⟨0x1a0, 8, 8⟩
def engTileCnt_RETRIES : Fld := ⟨0x1a0, 16, 8⟩
def engTileCnt_MISMATCH_REJ : Fld := ⟨0x1a0, 24, 8⟩
/-! TND_LB_CFG (R209) -/
def tndLbCfg_RES0 : Fld := ⟨0x100, 0, 8⟩
def tndLbCfg_RES1 : Fld := ⟨0x100, 8, 8⟩
def tndLbCfg_RES2 : Fld := ⟨0x100, 16, 8⟩
def tndLbCfg_RES3 : Fld := ⟨0x100, 24, 8⟩
/-! TND_LB_STAT (R210) -/
def tndLbStat_OCC : Fld := ⟨0x104, 0, 8⟩
def tndLbStat_SHARED_FREE : Fld := ⟨0x104, 8, 8⟩
def tndLbStat_WITHHOLD : Fld := ⟨0x104, 16, 4⟩
/-! TND_LB_CLASSOCC (R211) -/
def tndLbClassocc_OCC0 : Fld := ⟨0x108, 0, 8⟩
def tndLbClassocc_OCC1 : Fld := ⟨0x108, 8, 8⟩
def tndLbClassocc_OCC2 : Fld := ⟨0x108, 16, 8⟩
def tndLbClassocc_OCC3 : Fld := ⟨0x108, 24, 8⟩
/-! TND_CNT (R212) -/
def tndCnt_LANDED : Fld := ⟨0x10c, 0, 16⟩
def tndCnt_SPILLED : Fld := ⟨0x10c, 16, 8⟩
def tndCnt_LOST : Fld := ⟨0x10c, 24, 4⟩
def tndCnt_DUPS : Fld := ⟨0x10c, 28, 4⟩
/-! ENG_TND_STAT (R213) -/
def engTndStat_AWAITING : Fld := ⟨0x1a4, 0, 1⟩
def engTndStat_FOLDED : Fld := ⟨0x1a4, 1, 8⟩
def engTndStat_RELAY_OCC : Fld := ⟨0x1a4, 9, 2⟩
def engTndStat_CLASS : Fld := ⟨0x1a4, 11, 2⟩
def engTndStat_CLASSV : Fld := ⟨0x1a4, 13, 1⟩
def engTndStat_TAG : Fld := ⟨0x1a4, 16, 16⟩
/-! ENG_DRAIN_STAT (R251) -/
def engDrainStat_BUSY : Fld := ⟨0x1c0, 0, 1⟩
def engDrainStat_STALLED : Fld := ⟨0x1c0, 1, 1⟩
def engDrainStat_NOCREDIT : Fld := ⟨0x1c0, 2, 1⟩
def engDrainStat_SLOT : Fld := ⟨0x1c0, 3, 3⟩
def engDrainStat_BLOCK : Fld := ⟨0x1c0, 6, 3⟩
def engDrainStat_DEST : Fld := ⟨0x1c0, 9, 2⟩
def engDrainStat_WAITING : Fld := ⟨0x1c0, 11, 1⟩
/-! ENG_DRAIN_CNT (R252) -/
def engDrainCnt_TILES : Fld := ⟨0x1c4, 0, 16⟩
def engDrainCnt_SPECIAL : Fld := ⟨0x1c4, 16, 8⟩
def engDrainCnt_STALLS : Fld := ⟨0x1c4, 24, 8⟩
/-! ENG_AG_STAT (R281) -/
def engAgStat_BUSY : Fld := ⟨0x1e0, 0, 1⟩
def engAgStat_STALLED : Fld := ⟨0x1e0, 1, 1⟩
def engAgStat_COMPRESSED : Fld := ⟨0x1e0, 2, 1⟩
def engAgStat_PATCH : Fld := ⟨0x1e0, 3, 2⟩
def engAgStat_DIAG : Fld := ⟨0x1e0, 5, 1⟩
def engAgStat_SLICE : Fld := ⟨0x1e0, 8, 8⟩
def engAgStat_ELIDED_TILE : Fld := ⟨0x1e0, 16, 16⟩
/-! ENG_AG_CNT (R282) -/
def engAgCnt_ELIDED : Fld := ⟨0x1e4, 0, 16⟩
def engAgCnt_PADSKIP : Fld := ⟨0x1e4, 16, 16⟩
/-! ENG_AG_RD (R283) -/
def engAgRd_BYTES : Fld := ⟨0x1e8, 0, 64⟩
/-! CVU_STAT (R298) -/
def cvuStat_BUSY : Fld := ⟨0x100, 0, 1⟩
def cvuStat_STALLED : Fld := ⟨0x100, 1, 1⟩
def cvuStat_NOCREDIT : Fld := ⟨0x100, 2, 1⟩
def cvuStat_WLOAD : Fld := ⟨0x100, 3, 1⟩
def cvuStat_QOCC : Fld := ⟨0x100, 4, 4⟩
def cvuStat_CTX : Fld := ⟨0x100, 8, 3⟩
/-! CVU_BUSY (R299) -/
def cvuBusy_CYCLES : Fld := ⟨0x108, 0, 64⟩
/-! CVU_CNT (R300) -/
def cvuCnt_CMDS : Fld := ⟨0x110, 0, 16⟩
def cvuCnt_CHK_MISMATCH : Fld := ⟨0x110, 16, 8⟩
def cvuCnt_STALLS : Fld := ⟨0x110, 24, 8⟩
/-! STRM_WIN_IDX (R305) -/
def strmWinIdx_IDX : Fld := ⟨0x100, 0, 10⟩
/-! STRM_WIN_CMD (R305) -/
def strmWinCmd_OP : Fld := ⟨0x104, 0, 3⟩
def strmWinCmd_STATUS : Fld := ⟨0x104, 8, 8⟩
def strmWinCmd_BUSY : Fld := ⟨0x104, 16, 1⟩
/-! STRM_WIN_DATA (R305) -/
def strmWinData_DATA (i : Nat) : Fld := ⟨0x120 + 4 * i, 0, 32⟩
/-! GRM_STATE_CFG (R330) -/
def grmStateCfg_FRAMES : Fld := ⟨0x150, 0, 14⟩
def grmStateCfg_PREFETCH : Fld := ⟨0x150, 16, 1⟩
/-! STRM_STAT (R342) -/
def strmStat_OPEN : Fld := ⟨0x108, 0, 11⟩
def strmStat_CLOSING : Fld := ⟨0x108, 11, 11⟩
def strmStat_FORKS : Fld := ⟨0x108, 22, 10⟩
/-! GRM_STATE_STAT (R343) -/
def grmStateStat_USED : Fld := ⟨0x154, 0, 14⟩
def grmStateStat_PINNED : Fld := ⟨0x154, 16, 14⟩
def grmStateStat_STALLED : Fld := ⟨0x154, 30, 1⟩
/-! GRM_PADDOCK_STAT (R344) -/
def grmPaddockStat_OCC : Fld := ⟨0x158, 0, 7⟩
def grmPaddockStat_FULLWAIT : Fld := ⟨0x158, 7, 1⟩
def grmPaddockStat_OLDEST_CTX : Fld := ⟨0x158, 8, 8⟩
def grmPaddockStat_ENTERED : Fld := ⟨0x158, 16, 16⟩
/-! GRM_STATE_CNT (R345) -/
def grmStateCnt_SWAPIN : Fld := ⟨0x15c, 0, 12⟩
def grmStateCnt_SWAPOUT : Fld := ⟨0x15c, 12, 12⟩
def grmStateCnt_COW : Fld := ⟨0x15c, 24, 8⟩
/-! WST_RGN_A (R349) -/
def wstRgnA_BASE (i : Nat) : Fld := ⟨0x140 + 8 * i, 0, 13⟩
def wstRgnA_LIMIT (i : Nat) : Fld := ⟨0x140 + 8 * i, 16, 13⟩
/-! WST_RGN_B (R350) -/
def wstRgnB_CTX (i : Nat) : Fld := ⟨0x144 + 8 * i, 0, 8⟩
def wstRgnB_VALID (i : Nat) : Fld := ⟨0x144 + 8 * i, 8, 1⟩
def wstRgnB_WRITE (i : Nat) : Fld := ⟨0x144 + 8 * i, 9, 1⟩
def wstRgnB_SHARED (i : Nat) : Fld := ⟨0x144 + 8 * i, 10, 1⟩
/-! AST_MAP (R355) -/
def astMap_TENSOR_END : Fld := ⟨0x100, 0, 10⟩
def astMap_POOL_BASE : Fld := ⟨0x100, 16, 14⟩
/-! HBMC_ARB (R359) -/
def hbmcArb_W_DATA : Fld := ⟨0x100, 0, 4⟩
def hbmcArb_W_WEIGHT : Fld := ⟨0x100, 4, 4⟩
def hbmcArb_W_STATE : Fld := ⟨0x100, 8, 4⟩
def hbmcArb_W_SAVE : Fld := ⟨0x100, 12, 4⟩
/-! HBMC_BYTES (R360) -/
def hbmcBytes_BYTES (i : Nat) : Fld := ⟨0x110 + 8 * i, 0, 64⟩
/-! WST_CFG (R362) -/
def wstCfg_STAGE_EN : Fld := ⟨0x100, 0, 1⟩
/-! WST_STAT (R369) -/
def wstStat_STAGE_ACTIVE : Fld := ⟨0x104, 0, 1⟩
def wstStat_BUF0 : Fld := ⟨0x104, 1, 2⟩
def wstStat_BUF1 : Fld := ⟨0x104, 3, 2⟩
def wstStat_BUF0_CTX : Fld := ⟨0x104, 8, 8⟩
def wstStat_BUF1_CTX : Fld := ⟨0x104, 16, 8⟩
/-! WST_CNT (R370) -/
def wstCnt_FILLS : Fld := ⟨0x108, 0, 16⟩
def wstCnt_RANGE_REJ : Fld := ⟨0x108, 16, 8⟩
def wstCnt_REFETCH : Fld := ⟨0x108, 24, 8⟩
/-! RING_BASE (R374) -/
def ringBase_LOG2N : Fld := ⟨0x100, 0, 4⟩
def ringBase_BASE : Fld := ⟨0x100, 12, 36⟩
/-! RING_CPL (R374) -/
def ringCpl_LOG2N : Fld := ⟨0x108, 0, 4⟩
def ringCpl_BASE : Fld := ⟨0x108, 12, 36⟩
/-! RING_CTL (R376) -/
def ringCtl_EN : Fld := ⟨0x110, 0, 1⟩
def ringCtl_CTX : Fld := ⟨0x110, 8, 8⟩
def ringCtl_VEC : Fld := ⟨0x110, 16, 11⟩
/-! RING_TAIL (R379) -/
def ringTail_TAIL : Fld := ⟨0x100, 0, 16⟩
/-! RING_HEAD (R380) -/
def ringHead_HEAD : Fld := ⟨0x104, 0, 16⟩
def ringHead_STOPPED : Fld := ⟨0x104, 16, 1⟩
def ringHead_FETCH_FAULT : Fld := ⟨0x104, 17, 1⟩
def ringHead_CPL_FULL : Fld := ⟨0x104, 18, 1⟩
def ringHead_BADTAIL : Fld := ⟨0x104, 24, 8⟩
/-! RING_CPLPTR (R381) -/
def ringCplptr_CPL_HEAD : Fld := ⟨0x108, 0, 16⟩
def ringCplptr_CPL_TAIL : Fld := ⟨0x108, 16, 16⟩
/-! GRM_SPLIT_CFG (R406) -/
def grmSplitCfg_QUANTUM : Fld := ⟨0x160, 0, 4⟩
def grmSplitCfg_POLL : Fld := ⟨0x160, 16, 16⟩
/-! HMMU_CTT (R420) -/
def hmmuCtt_EN : Fld := ⟨0x100, 0, 1⟩
def hmmuCtt_BASE : Fld := ⟨0x100, 12, 40⟩
/-! HMMU_INV_VA (R429) -/
def hmmuInvVa_VA : Fld := ⟨0x120, 12, 36⟩
/-! HMMU_INV_CMD (R430) -/
def hmmuInvCmd_CTX : Fld := ⟨0x128, 0, 8⟩
def hmmuInvCmd_SCOPE : Fld := ⟨0x128, 8, 2⟩
def hmmuInvCmd_COUNT : Fld := ⟨0x128, 12, 20⟩
/-! HMMU_INV_STAT (R431) -/
def hmmuInvStat_DONE : Fld := ⟨0x12c, 0, 16⟩
def hmmuInvStat_BUSY : Fld := ⟨0x12c, 16, 1⟩
/-! HMMU_DISP (R439) -/
def hmmuDisp_FAULTID : Fld := ⟨0x110, 0, 24⟩
def hmmuDisp_ACTION : Fld := ⟨0x110, 24, 2⟩
/-! HMMU_NOCTX (R667) -/
def hmmuNoctx_FAULTID : Fld := ⟨0x118, 0, 24⟩
def hmmuNoctx_CTX : Fld := ⟨0x118, 24, 8⟩
/-! HMMU_FSTAT (R445) -/
def hmmuFstat_OUTSTANDING : Fld := ⟨0x114, 0, 11⟩
def hmmuFstat_BADDISP : Fld := ⟨0x114, 16, 8⟩
def hmmuFstat_HELD : Fld := ⟨0x114, 24, 8⟩
/-! CMMU_STAT (R446) -/
def cmmuStat_WALKS : Fld := ⟨0x100, 0, 4⟩
def cmmuStat_PINNED : Fld := ⟨0x100, 4, 10⟩
def cmmuStat_STALLED : Fld := ⟨0x100, 16, 8⟩
/-! CMMU_CNT (R447) -/
def cmmuCnt_MISSES : Fld := ⟨0x104, 0, 16⟩
def cmmuCnt_FAULTS : Fld := ⟨0x104, 16, 8⟩
def cmmuCnt_INVALS : Fld := ⟨0x104, 24, 8⟩
/-! CTX_WIN_CMD (R450) -/
def ctxWinCmd_OP : Fld := ⟨0x104, 0, 3⟩
def ctxWinCmd_STATUS : Fld := ⟨0x104, 8, 8⟩
def ctxWinCmd_BUSY : Fld := ⟨0x104, 16, 1⟩
/-! CTX_CFG (R455) -/
def ctxCfg_RELIEF_EN : Fld := ⟨0x108, 0, 1⟩
def ctxCfg_AUTO : Fld := ⟨0x108, 1, 1⟩
def ctxCfg_RELIEF_SLOT : Fld := ⟨0x108, 2, 3⟩
def ctxCfg_BLKHOLD : Fld := ⟨0x108, 8, 8⟩
/-! CTX_SLOT (R456) -/
def ctxSlot_STATE (i : Nat) : Fld := ⟨0x140 + 4 * i, 0, 3⟩
def ctxSlot_RELIEF (i : Nat) : Fld := ⟨0x140 + 4 * i, 3, 1⟩
def ctxSlot_CTX (i : Nat) : Fld := ⟨0x140 + 4 * i, 4, 8⟩
def ctxSlot_BLOCKED (i : Nat) : Fld := ⟨0x140 + 4 * i, 12, 1⟩
def ctxSlot_CAUSE (i : Nat) : Fld := ⟨0x140 + 4 * i, 13, 3⟩
def ctxSlot_AGE (i : Nat) : Fld := ⟨0x140 + 4 * i, 16, 3⟩
/-! CTX_CNT (R473) -/
def ctxCnt_SAVES : Fld := ⟨0x10c, 0, 8⟩
def ctxCnt_RESTORES : Fld := ⟨0x10c, 8, 8⟩
def ctxCnt_RELIEFS : Fld := ⟨0x10c, 16, 8⟩
def ctxCnt_AUTH_FAIL : Fld := ⟨0x10c, 24, 4⟩
def ctxCnt_NOVICTIM : Fld := ⟨0x10c, 28, 4⟩
/-! DLM_CFG (R487) -/
def dlmCfg_EN : Fld := ⟨0x108, 0, 1⟩
def dlmCfg_CHECK : Fld := ⟨0x108, 8, 8⟩
/-! DLM_CNT (R487) -/
def dlmCnt_STEPS : Fld := ⟨0x10c, 0, 16⟩
def dlmCnt_MISSES : Fld := ⟨0x10c, 16, 8⟩
def dlmCnt_DIVERTS : Fld := ⟨0x10c, 24, 8⟩
/-! MBX_STAGE (R491) -/
def mbxStage_WORD (i : Nat) : Fld := ⟨0x100 + 4 * i, 0, 32⟩
/-! MBX_DATA (R491) -/
def mbxData_WORD (i : Nat) : Fld := ⟨0x180 + 4 * i, 0, 32⟩
/-! MBX_SEND (R492) -/
def mbxSend_GO : Fld := ⟨0x140, 0, 1⟩
/-! MBX_SEND_ALT (R492) -/
def mbxSendAlt_GO : Fld := ⟨0x144, 0, 1⟩
/-! MBX_SSTAT (R493) -/
def mbxSstat_FULL : Fld := ⟨0x14c, 0, 1⟩
def mbxSstat_TIMEOUT : Fld := ⟨0x14c, 1, 1⟩
def mbxSstat_SEND_REJECT : Fld := ⟨0x14c, 2, 1⟩
def mbxSstat_DISCARD : Fld := ⟨0x14c, 3, 1⟩
def mbxSstat_REJ_CNT : Fld := ⟨0x14c, 8, 8⟩
def mbxSstat_SEQ : Fld := ⟨0x14c, 16, 15⟩
/-! MBX_ACK_STAT (R494) -/
def mbxAckStat_CODE : Fld := ⟨0x150, 0, 16⟩
def mbxAckStat_SEQ : Fld := ⟨0x150, 16, 15⟩
def mbxAckStat_VALID : Fld := ⟨0x150, 31, 1⟩
/-! MBX_CFG (R495) -/
def mbxCfg_MODE : Fld := ⟨0x160, 0, 1⟩
def mbxCfg_WAKE_ON_MAIL : Fld := ⟨0x160, 1, 1⟩
def mbxCfg_TMO : Fld := ⟨0x160, 8, 16⟩
/-! MBX_RECV (R496) -/
def mbxRecv_SEQ : Fld := ⟨0x1c0, 0, 15⟩
def mbxRecv_FULL : Fld := ⟨0x1c0, 15, 1⟩
def mbxRecv_READ : Fld := ⟨0x1c0, 16, 1⟩
/-! MBX_ACK (R496) -/
def mbxAck_CODE : Fld := ⟨0x1c4, 0, 16⟩
/-! MBX_CANCEL (R496) -/
def mbxCancel_CANCEL : Fld := ⟨0x148, 0, 1⟩
/-! LOCK (R506) -/
def lock_OWNER (i : Nat) : Fld := ⟨0x40 + 4 * i, 0, 8⟩
def lock_FORCE (i : Nat) : Fld := ⟨0x40 + 4 * i, 31, 1⟩
/-! HLK_CFG (R532) -/
def hlkCfg_EN : Fld := ⟨0x100, 0, 1⟩
def hlkCfg_MAXW : Fld := ⟨0x100, 1, 2⟩
def hlkCfg_AUTODEGRADE : Fld := ⟨0x100, 3, 1⟩
def hlkCfg_REPLAY_LIM : Fld := ⟨0x100, 4, 4⟩
def hlkCfg_RETRAIN_TMO : Fld := ⟨0x100, 8, 16⟩
/-! HLK_STAT (R533) -/
def hlkStat_LINK : Fld := ⟨0x104, 0, 2⟩
def hlkStat_WIDTH : Fld := ⟨0x104, 2, 2⟩
def hlkStat_LANE_FAIL : Fld := ⟨0x104, 4, 4⟩
def hlkStat_PRESENT : Fld := ⟨0x104, 8, 1⟩
def hlkStat_LOSTCAUSE : Fld := ⟨0x104, 9, 3⟩
def hlkStat_PEER_PORT : Fld := ⟨0x104, 12, 4⟩
/-! HLK_PEER (R534) -/
def hlkPeer_PEER_ID : Fld := ⟨0x108, 0, 48⟩
def hlkPeer_PROTO : Fld := ⟨0x108, 48, 8⟩
/-! HLK_CRED (R535) -/
def hlkCred_TND0 : Fld := ⟨0x110, 0, 8⟩
def hlkCred_TND1 : Fld := ⟨0x110, 8, 8⟩
def hlkCred_TND2 : Fld := ⟨0x110, 16, 8⟩
def hlkCred_TND3 : Fld := ⟨0x110, 24, 8⟩
/-! HLK_CNT (R535) -/
def hlkCnt_REPLAYS : Fld := ⟨0x118, 0, 16⟩
def hlkCnt_RETRAINS : Fld := ⟨0x118, 16, 8⟩
def hlkCnt_DEGRADES : Fld := ⟨0x118, 24, 4⟩
def hlkCnt_LOSSES : Fld := ⟨0x118, 28, 4⟩
/-! HLK_RLOCK (R537) -/
def hlkRlock_PAGE : Fld := ⟨0x130, 0, 12⟩
def hlkRlock_LOCK : Fld := ⟨0x130, 12, 2⟩
def hlkRlock_OP : Fld := ⟨0x130, 14, 1⟩
def hlkRlock_GO : Fld := ⟨0x130, 15, 1⟩
def hlkRlock_BUSY : Fld := ⟨0x130, 16, 1⟩
def hlkRlock_LOST : Fld := ⟨0x130, 17, 1⟩
def hlkRlock_RESULT : Fld := ⟨0x130, 18, 8⟩
/-! HIF_READY (R548) -/
def hifReady_CH0 : Fld := ⟨0x100, 0, 4⟩
def hifReady_CH1 : Fld := ⟨0x100, 4, 4⟩
def hifReady_CH2 : Fld := ⟨0x100, 8, 4⟩
def hifReady_CH3 : Fld := ⟨0x100, 12, 4⟩
def hifReady_HUB_READY : Fld := ⟨0x100, 16, 1⟩
def hifReady_LINKS_STARTED : Fld := ⟨0x100, 17, 1⟩
/-! FAR_BOOT (R549) -/
def farBoot_STEP : Fld := ⟨0x100, 0, 4⟩
def farBoot_BANK : Fld := ⟨0x100, 4, 1⟩
def farBoot_FALLBACK : Fld := ⟨0x100, 5, 1⟩
def farBoot_FAIL : Fld := ⟨0x100, 8, 8⟩
/-! FAR_FW_STAT (R550) -/
def farFwStat_ACTIVE : Fld := ⟨0x104, 0, 1⟩
def farFwStat_NEXT : Fld := ⟨0x104, 1, 1⟩
def farFwStat_BANK0_OK : Fld := ⟨0x104, 2, 1⟩
def farFwStat_BANK1_OK : Fld := ⟨0x104, 3, 1⟩
def farFwStat_PENDING : Fld := ⟨0x104, 4, 1⟩
def farFwStat_SVN_MIN : Fld := ⟨0x104, 8, 8⟩
def farFwStat_SVN : Fld := ⟨0x104, 16, 8⟩
/-! FAR_SB (R562) -/
def farSb_RAW (i : Nat) : Fld := ⟨0x110 + 4 * i, 0, 1⟩
def farSb_ASSERTED (i : Nat) : Fld := ⟨0x110 + 4 * i, 1, 1⟩
def farSb_FAST (i : Nat) : Fld := ⟨0x110 + 4 * i, 2, 1⟩
def farSb_STUCK (i : Nat) : Fld := ⟨0x110 + 4 * i, 3, 1⟩
def farSb_EDGES (i : Nat) : Fld := ⟨0x110 + 4 * i, 16, 16⟩
/-! CLK_ARITH (R567) -/
def clkArith_LOCKED (i : Nat) : Fld := ⟨0x100 + 4 * i, 0, 1⟩
def clkArith_FREQ (i : Nat) : Fld := ⟨0x100 + 4 * i, 1, 2⟩
def clkArith_RELOCKS (i : Nat) : Fld := ⟨0x100 + 4 * i, 8, 8⟩
/-! BLK_CTRL (R578) -/
def blkCtrl_EN : Fld := ⟨0x8, 0, 1⟩
/-! BLK_STATE (R578) -/
def blkState_STATE : Fld := ⟨0xc, 0, 2⟩
def blkState_REARM : Fld := ⟨0xc, 2, 1⟩
def blkState_START_ENDED : Fld := ⟨0xc, 3, 1⟩
/-! PWR_CH_CTL (R581) -/
def pwrChCtl_GAIT (i : Nat) : Fld := ⟨0x100 + 8 * i, 0, 2⟩
def pwrChCtl_PSTATE (i : Nat) : Fld := ⟨0x100 + 8 * i, 2, 2⟩
/-! PWR_CH_STAT (R582) -/
def pwrChStat_GAIT (i : Nat) : Fld := ⟨0x104 + 8 * i, 0, 2⟩
def pwrChStat_CHANGING (i : Nat) : Fld := ⟨0x104 + 8 * i, 2, 1⟩
def pwrChStat_PSTATE (i : Nat) : Fld := ⟨0x104 + 8 * i, 3, 2⟩
def pwrChStat_UNPAIRED (i : Nat) : Fld := ⟨0x104 + 8 * i, 5, 6⟩
def pwrChStat_LOAN_W (i : Nat) : Fld := ⟨0x104 + 8 * i, 11, 6⟩
def pwrChStat_DUTY (i : Nat) : Fld := ⟨0x104 + 8 * i, 17, 5⟩
def pwrChStat_DRAW_W (i : Nat) : Fld := ⟨0x104 + 8 * i, 22, 8⟩
/-! PWR_CFG (R583) -/
def pwrCfg_THR_W : Fld := ⟨0x140, 0, 9⟩
def pwrCfg_LOAN_EN : Fld := ⟨0x140, 9, 1⟩
/-! PWR_BOARD (R583) -/
def pwrBoard_DRAW_W : Fld := ⟨0x144, 0, 10⟩
def pwrBoard_THROTTLE : Fld := ⟨0x144, 10, 1⟩
/-! PWR_CNT (R583) -/
def pwrCnt_GAIT_CHANGES : Fld := ⟨0x148, 0, 8⟩
def pwrCnt_THROTTLES : Fld := ⟨0x148, 8, 8⟩
def pwrCnt_PAIR_MISMATCH : Fld := ⟨0x148, 16, 8⟩
def pwrCnt_WAKES : Fld := ⟨0x148, 24, 8⟩
/-! ENG_SLOT_ID (R614) -/
def engSlotId_PHYS : Fld := ⟨0x1f0, 0, 7⟩
def engSlotId_EPOCH : Fld := ⟨0x1f0, 8, 4⟩
def engSlotId_STRIKES : Fld := ⟨0x1f0, 12, 2⟩
def engSlotId_GHOST : Fld := ⟨0x1f0, 16, 16⟩
/-! RAS_ENG_IDX (R615) -/
def rasEngIdx_CH : Fld := ⟨0x100, 0, 2⟩
def rasEngIdx_PHYS : Fld := ⟨0x100, 2, 7⟩
/-! RAS_ENG_REC (R615) -/
def rasEngRec_STATE : Fld := ⟨0x104, 0, 3⟩
def rasEngRec_SLOT : Fld := ⟨0x104, 3, 7⟩
def rasEngRec_STRIKES : Fld := ⟨0x104, 10, 2⟩
def rasEngRec_RETURNS : Fld := ⟨0x104, 12, 2⟩
def rasEngRec_COLREP : Fld := ⟨0x104, 14, 3⟩
def rasEngRec_LASTSLOT : Fld := ⟨0x104, 17, 7⟩
/-! RAS_CH_STAT (R616) -/
def rasChStat_STATE (i : Nat) : Fld := ⟨0x110 + 4 * i, 0, 2⟩
def rasChStat_CAUSE (i : Nat) : Fld := ⟨0x110 + 4 * i, 2, 4⟩
def rasChStat_POOL (i : Nat) : Fld := ⟨0x110 + 4 * i, 6, 4⟩
def rasChStat_FAILED (i : Nat) : Fld := ⟨0x110 + 4 * i, 16, 8⟩
def rasChStat_READMITS (i : Nat) : Fld := ⟨0x110 + 4 * i, 24, 8⟩
/-! RAS_CNT (R617) -/
def rasCnt_STRIKES : Fld := ⟨0x120, 0, 8⟩
def rasCnt_SUBST : Fld := ⟨0x120, 8, 8⟩
def rasCnt_GHOST : Fld := ⟨0x120, 16, 8⟩
def rasCnt_PERSIST : Fld := ⟨0x120, 24, 8⟩
/-! HBMC_PPR (R618) -/
def hbmcPpr_REMAP_USED : Fld := ⟨0x130, 0, 5⟩
def hbmcPpr_BUSY : Fld := ⟨0x130, 5, 1⟩
def hbmcPpr_SOFT : Fld := ⟨0x130, 6, 8⟩
def hbmcPpr_PENDING_HARD : Fld := ⟨0x130, 14, 8⟩
/-! RPL_LOG_PTR (R643) -/
def rplLogPtr_HEAD (i : Nat) : Fld := ⟨0x108 + 16 * i, 0, 16⟩
def rplLogPtr_TAIL (i : Nat) : Fld := ⟨0x108 + 16 * i, 16, 16⟩
/-! RPL_CFG (R643) -/
def rplCfg_LEVEL : Fld := ⟨0x160, 0, 8⟩
def rplCfg_HUBLOG : Fld := ⟨0x160, 8, 1⟩
def rplCfg_LOSSLESS : Fld := ⟨0x160, 9, 1⟩
def rplCfg_LOGCTX : Fld := ⟨0x160, 16, 8⟩
/-! RPL_CTL (R643) -/
def rplCtl_MARK : Fld := ⟨0x164, 0, 1⟩
def rplCtl_REPLAY : Fld := ⟨0x164, 1, 1⟩
def rplCtl_STOP : Fld := ⟨0x164, 2, 1⟩
def rplCtl_RESUME : Fld := ⟨0x164, 3, 1⟩
/-! RPL_STAT (R643) -/
def rplStat_STATE : Fld := ⟨0x168, 0, 3⟩
def rplStat_MARKING : Fld := ⟨0x168, 3, 1⟩
def rplStat_GAP : Fld := ⟨0x168, 4, 5⟩
def rplStat_REC : Fld := ⟨0x168, 9, 4⟩
def rplStat_STOPCAUSE : Fld := ⟨0x168, 13, 3⟩
def rplStat_MARKNO : Fld := ⟨0x168, 16, 16⟩
/-! RPL_CNT (R643) -/
def rplCnt_BATCHES : Fld := ⟨0x16c, 0, 16⟩
def rplCnt_LOST : Fld := ⟨0x16c, 16, 8⟩
def rplCnt_STALLS : Fld := ⟨0x16c, 24, 8⟩
/-! RPL_MARKAREA (R643) -/
def rplMarkarea_MB : Fld := ⟨0x170, 0, 10⟩
def rplMarkarea_VA : Fld := ⟨0x170, 21, 27⟩
/-! RPL_RP_PTR (R643) -/
def rplRpPtr_HEAD : Fld := ⟨0x180, 0, 16⟩
def rplRpPtr_TAIL : Fld := ⟨0x180, 16, 16⟩
/-! RPL_RP_CFG (R643) -/
def rplRpCfg_SRC : Fld := ⟨0x184, 0, 2⟩
def rplRpCfg_TGT : Fld := ⟨0x184, 2, 2⟩
def rplRpCfg_CTXOFS : Fld := ⟨0x184, 8, 8⟩
def rplRpCfg_STRMOFS : Fld := ⟨0x184, 16, 10⟩
/-! RPL_RP_STOPAT (R643) -/
def rplRpStopat_DOM : Fld := ⟨0x188, 0, 6⟩
def rplRpStopat_EN : Fld := ⟨0x188, 6, 1⟩
/-! RPL_RP_STOPSEQ (R643) -/
def rplRpStopseq_DSEQ : Fld := ⟨0x18c, 0, 32⟩
/-! RPL_DIV (R643) -/
def rplDiv_INPUT : Fld := ⟨0x190, 0, 16⟩
def rplDiv_NUMERIC : Fld := ⟨0x190, 16, 8⟩
def rplDiv_UPSET : Fld := ⟨0x190, 24, 8⟩
/-! BLK_ID (R652) -/
def blkId_BLOCK : Fld := ⟨0x0, 0, 8⟩
def blkId_INST : Fld := ⟨0x0, 8, 8⟩
def blkId_CH : Fld := ⟨0x0, 16, 2⟩
def blkId_CHAN : Fld := ⟨0x0, 18, 1⟩
def blkId_SIG : Fld := ⟨0x0, 20, 12⟩
/-! BLK_VER (R652) -/
def blkVer_MINOR : Fld := ⟨0x4, 0, 8⟩
def blkVer_MAJOR : Fld := ⟨0x4, 8, 8⟩
def blkVer_STEP : Fld := ⟨0x4, 16, 8⟩
/-! INT_RAW (R652) -/
def intRaw_RAW : Fld := ⟨0x10, 0, 32⟩
/-! INT_MASK (R652) -/
def intMask_MASK : Fld := ⟨0x14, 0, 32⟩
/-! INT_STAT (R652) -/
def intStat_STAT : Fld := ⟨0x18, 0, 32⟩
/-! INT_ROUTE (R652) -/
def intRoute_VEC : Fld := ⟨0x1c, 0, 11⟩
def intRoute_HOST : Fld := ⟨0x1c, 16, 1⟩
def intRoute_FARRIER : Fld := ⟨0x1c, 17, 1⟩
def intRoute_GROOM : Fld := ⟨0x1c, 18, 1⟩
/-! ERR_FIRST (R652) -/
def errFirst_CODE : Fld := ⟨0x20, 0, 8⟩
def errFirst_LOC : Fld := ⟨0x20, 8, 22⟩
def errFirst_VALID : Fld := ⟨0x20, 31, 1⟩
/-! ERR_NEXT (R652) -/
def errNext_CODE : Fld := ⟨0x24, 0, 8⟩
def errNext_LOC : Fld := ⟨0x24, 8, 22⟩
def errNext_MULTI : Fld := ⟨0x24, 30, 1⟩
def errNext_VALID : Fld := ⟨0x24, 31, 1⟩
/-! ERR_CNT_CORR (R652) -/
def errCntCorr_COUNT : Fld := ⟨0x28, 0, 32⟩
/-! ERR_CNT_UNCORR (R652) -/
def errCntUncorr_COUNT : Fld := ⟨0x2c, 0, 32⟩
/-! SCRATCH (R652) -/
def scratch_DATA : Fld := ⟨0x50, 0, 32⟩
/-! ENG_QSTAT (R660) -/
def engQstat_OCC : Fld := ⟨0x12c, 0, 6⟩
def engQstat_HEADWAIT : Fld := ⟨0x12c, 6, 1⟩
def engQstat_REENTRY : Fld := ⟨0x12c, 7, 1⟩
def engQstat_SCAN_BUSY : Fld := ⟨0x12c, 8, 1⟩
def engQstat_FILLING : Fld := ⟨0x12c, 9, 2⟩
def engQstat_HEADCTX : Fld := ⟨0x12c, 16, 8⟩
/-! ENG_ISSUE (R661) -/
def engIssue_BEATS : Fld := ⟨0x1a8, 0, 64⟩
/-! HIF_LINK (R662) -/
def hifLink_SPEED : Fld := ⟨0x104, 0, 4⟩
def hifLink_WIDTH : Fld := ⟨0x104, 4, 5⟩
def hifLink_FLIT : Fld := ⟨0x104, 9, 1⟩
def hifLink_DL_UP : Fld := ⟨0x104, 10, 1⟩
/-! HIF_CNT (R662) -/
def hifCnt_BADWR : Fld := ⟨0x108, 0, 16⟩
def hifCnt_UR : Fld := ⟨0x108, 16, 8⟩
def hifCnt_CA : Fld := ⟨0x108, 24, 8⟩
/-! CLK_XSTAT (R663) -/
def clkXstat_HELD : Fld := ⟨0x110, 0, 4⟩
/-! GRM_FW (R664) -/
def grmFw_PATCH : Fld := ⟨0x100, 0, 16⟩
def grmFw_MINOR : Fld := ⟨0x100, 16, 8⟩
def grmFw_MAJOR : Fld := ⟨0x100, 24, 8⟩
/-! GRM_STAT (R664) -/
def grmStat_RUNNING : Fld := ⟨0x104, 0, 1⟩
def grmStat_ASLEEP : Fld := ⟨0x104, 1, 1⟩
def grmStat_PATCHING : Fld := ⟨0x104, 2, 1⟩
def grmStat_RINGS_ON : Fld := ⟨0x104, 8, 5⟩
def grmStat_HELDCMDS : Fld := ⟨0x104, 16, 8⟩
/-! HBMC_STAT (R665) -/
def hbmcStat_TRAINED : Fld := ⟨0x104, 0, 1⟩
def hbmcStat_SELF_REFRESH : Fld := ⟨0x104, 1, 1⟩
def hbmcStat_TEMP : Fld := ⟨0x104, 8, 8⟩
/-! CYC (R566) -/
def cyc_CYC : Fld := ⟨0x30, 0, 64⟩
/-! RING_RESUME (R382) -/
def ringResume_RESUME : Fld := ⟨0x10c, 0, 1⟩
/-! CTX_WIN_IDX (R450) -/
def ctxWinIdx_IDX : Fld := ⟨0x100, 0, 8⟩
/-! CTX_WIN_DATA (R450) -/
def ctxWinData_DATA (i : Nat) : Fld := ⟨0x120 + 4 * i, 0, 32⟩
/-! CTX_RUNNABLE (R472) -/
def ctxRunnable_RUNNABLE (i : Nat) : Fld := ⟨0x160 + 4 * i, 0, 32⟩
/-! DLM_WIN_IDX (R478) -/
def dlmWinIdx_IDX : Fld := ⟨0x100, 0, 10⟩
/-! DLM_WIN_CMD (R478) -/
def dlmWinCmd_OP : Fld := ⟨0x104, 0, 3⟩
def dlmWinCmd_STATUS : Fld := ⟨0x104, 8, 8⟩
def dlmWinCmd_BUSY : Fld := ⟨0x104, 16, 1⟩
/-! DLM_WIN_DATA (R478) -/
def dlmWinData_DATA (i : Nat) : Fld := ⟨0x120 + 4 * i, 0, 32⟩
/-! HLK_FEC (R536) -/
def hlkFec_CORR : Fld := ⟨0x120, 0, 40⟩
def hlkFec_UNCORR : Fld := ⟨0x120, 40, 24⟩
/-! RPL_LOG_BASE (R643) -/
def rplLogBase_LOG2N (i : Nat) : Fld := ⟨0x100 + 16 * i, 0, 4⟩
def rplLogBase_BASE (i : Nat) : Fld := ⟨0x100 + 16 * i, 12, 36⟩
/-! RPL_RP_BASE (R643) -/
def rplRpBase_LOG2N : Fld := ⟨0x178, 0, 4⟩
def rplRpBase_BASE : Fld := ⟨0x178, 12, 36⟩

end Sys2Proof.Reg
end

