-- ==== Sys2Proof/Machine/StreamRecords.lean ====
section
/-!
DEFINITION. The records of contexts, streams and their state pages, and of the units that work beside
the engines. Every field's default value is its value after a cold reset.
-/

namespace Sys2Proof.Machine

/-- A context record (R449): STATE is 0 NONE, 1 AWAY, 2 RESIDENT, 3 MOVING. -/
structure CtxRec where
  state : Nat := 0
  guard : Bool := false
  prio : Nat := 0
  image : Bool := false
  slot : Nat := 0
  saveMb : Nat := 0
  gen : Nat := 0
  gdtVa : Nat := 0
  saveVa : Nat := 0
  /-- A transfer that waited at the save has completed since (R470). -/
  woken : Bool := false
  deriving DecidableEq, Repr

/-! ## Streams (chapter 10) -/

/-- An entry of the stream table (R304): STATE is 0 FREE, 1 OPEN, 2 CLOSING, 3 FORKING, 4 LOST. -/
structure StreamRec where
  state : Nat := 0
  home : Nat := 0
  forked : Bool := false
  ctx : Nat := 0
  parent : Nat := 0
  pages : Nat := 0
  stateVa : Nat := 0
  initVa : Nat := 0
  steps : Nat := 0
  /-- It closes under CLOSE_DISCARD (R307). -/
  discard : Bool := false
  deriving DecidableEq, Repr

/-- The states of a page (R331); `incoming` is IN. -/
inductive PageState where
  | away | incoming | resident | out | recalled
  deriving DecidableEq, Repr

/-- The one copy of a page's data with its sharers (R326): a private page has one sharer. -/
structure StatePage where
  index : Nat
  owner : Nat
  /-- Streams that share the page, in rising order, the owner among them. -/
  sharers : List Nat
  state : PageState := .away
  dirty : Bool := false
  frame : Nat := 0
  /-- The stream for which the frame is being copied (R327, R328). -/
  copying : Option Nat := none
  /-- Engine commands that pin the page (R334). -/
  pins : List Nat := []
  /-- Order of its last use (R334). -/
  used : Nat := 0
  /-- Its swap-out was aborted (R340). -/
  stuck : Bool := false
  /-- The closing stream whose backing is being copied to the owner's (R329). -/
  handing : Option Nat := none
  deriving DecidableEq, Repr

/-- A frame allocated for a stream's own copy of a shared page (R327, R333). -/
structure CopyFrame where
  stream : Nat
  index : Nat
  frame : Nat
  deriving DecidableEq, Repr

/-- A paddock entry (R335): the engine command and its slot. -/
structure Paddocked where
  slot : Nat
  cmd : EngCmd
  deriving DecidableEq, Repr

/-- A FORK in the state map unit (R325): its command, its parent, and its children with their
STATE_VA. -/
structure ForkJob where
  num : Nat
  parent : Nat
  children : List (Nat × Nat)
  deriving DecidableEq, Repr

/-- A LOAD_W or COPY in the copy unit: the bytes that it has moved, and whether one of them was no
packed T2 byte (R45, R398). -/
structure CopyRun where
  cmd : EngCmd
  moved : Nat := 0
  bad : Bool := false
  deriving DecidableEq, Repr

/-- What a staging buffer holds (R365, R366): the host command, its chunk, the row tiles, the context,
whether the fill is still under way, and the repeated command for which alone it was fetched again:
its engine and number. -/
structure LodgerBuf where
  num : Nat
  chunk : Nat
  first : Nat
  rows : Nat
  ctx : Nat
  filling : Bool := true
  again : Option (Nat × Nat) := none
  /-- What its fill has moved (R368). -/
  moved : Moved := {}
  deriving DecidableEq, Repr

/-! ## The conventional unit (chapter 9) -/

/-- The CVU command that runs: its next output block and its counts. -/
structure CvuRun where
  cmd : EngCmd
  block : Nat := 0
  counts : NarrowCounts := {}
  /-- What the block's reads have moved: its input blocks with their headers, its weights and its row
  parameters (R301), and whether the weights are being read (R298). -/
  got : List Fetched := []
  heads : List (Nat × Nat × Nat × Nat) := []
  weights : Moved := {}
  params : Moved := {}
  wload : Bool := false
  /-- Whether the block has been computed, and the writes that it has left. -/
  formed : Bool := false
  out : List Piece := []
  deriving DecidableEq, Repr

/-- The CVU beyond its registers: its queue, whose entries a save may have interrupted (R302), the lane that the 65th lane checks next, and its strike
log, which counts output blocks (R303, R589). -/
structure Cvu where
  queue : List CvuRun := []
  run : Option CvuRun := none
  lane : Nat := 0
  blocks : Nat := 0
  strikes : List Nat := []
  deriving DecidableEq, Repr

/-! ## Saved contexts (R459 to R463) -/

/-- A bank as a save holds it (R130): whether it records a descriptor, the descriptor, and how far its knots are
built. -/
structure SavedBank where
  index : Nat
  recorded : Bool
  group : Group
  valid : Nat
  building : Nat
  knot : Nat
  deriving DecidableEq, Repr

/-- What a save takes from one engine. -/
structure EngShare where
  slot : Nat
  queue : List EngCmd
  reentry : Option EngCmd
  scanning : Option EngCmd
  runs : List EngRun
  tiles : Tab TileSlot
  drains : List Nat
  received : List Moving
  sending : List Moving
  incoming : List TileSlot
  banks : List SavedBank
  /-- The weight registers with WSEL and ROT (R115). The slice sequence is that of the commands and of their lanes'
  positions. -/
  regA : WReg := {}
  regB : WReg := {}
  wsel : Nat := 0
  rot : Nat := 0
  deriving DecidableEq, Repr

/-- A channel's share of a context image, and the key that it is sealed under (R459, R476). -/
structure CtxShare where
  ctx : Nat
  chan : Nat
  key : Nat
  engines : List EngShare
  cvu : List CvuRun
  paddock : List Paddocked
  deriving DecidableEq, Repr

/-- What a save serves (R467 to R469). -/
inductive Serves where
  | evict
  | load (ctx : Nat)
  | relief
  deriving DecidableEq, Repr

/-- A context slot beyond its register: the channels that have reported, the order in which it became
blocked (R466), and what its save serves. -/
structure CtxSlot where
  reported : List Nat := []
  blockedAt : Nat := 0
  serves : Serves := .evict
  deriving DecidableEq, Repr

/-! ## The deadline monitor (R478 to R487) -/

/-- An entry of the deadline monitor with the step in progress: the cycle in which it began, the sum of
the estimates placed, its commands, whether one of them is a link, and how far its diversion has come. -/
structure DlmRec where
  armed : Bool := false
  instep : Bool := false
  diverted : Bool := false
  pending : Bool := false
  fbring : Nat := 0
  fben : Bool := false
  budget : Nat := 0
  stepcost : Nat := 0
  last : Nat := 0
  misses : Nat := 0
  diverts : Nat := 0
  nofallback : Nat := 0
  start : Nat := 0
  splitcost : Nat := 0
  cmds : List Nat := []
  links : Bool := false
  /-- The fallback ring's SIGNAL has been fetched, and has completed. -/
  fbFetched : Bool := false
  fbDone : Bool := false
  deriving DecidableEq, Repr

end Sys2Proof.Machine
end

