-- ==== Sys2Proof/Machine/State.lean ====
section
/-!
DEFINITION. The state of the block, the ways in which a command can stop, and the state after
reset.
-/

namespace Sys2Proof.Machine

/-- One channel (R26). -/
structure Channel where
  stall : Memory := {}
  ast : Memory := {}
  hbm : Memory := {}
  rings : Tab Ring := []
  cmds : List HostCmd := []
  nextCmd : Nat := 0
  /-- Ring at which the fetcher's and the split's next turns begin (R384, R405). -/
  fetchTurn : Nat := 0
  splitTurn : Nat := 0
  /-- Engines by slot, and the model's own numbering of engine commands. -/
  engines : Tab Engine := []
  nextUid : Nat := 0
  /-- The site in each slot, 0x7F for none; site n holds slot n at power-up (R586, R614). -/
  slotMap : Tab Nat := []
  sites : Tab Site := []
  /-- Hub cycle of the last substitution into each slot, and slots whose substitution waits (R600). -/
  substAt : Tab Nat := []
  substWait : List Nat := []
  /-- The CAUSE of a permanent failure for which the channel is to retire (R604). -/
  failing : Option Nat := none
  /-- The gait to which the change under way leads (R571). -/
  gaitTo : Nat := 0
  /-- A wake is under way, and the loan has shrunk for it (R574, R577). -/
  waking : Bool := false
  settled : Bool := false
  /-- HBM rows that the remap buffer holds (R603). -/
  rows : List Nat := []
  /-- Rows among them whose soft repair is under way. -/
  repairing : List Nat := []
  /-- Rows of the stall and of the activation store that spare rows of their banks replace (R602). -/
  stallSpares : List Nat := []
  astSpares : List Nat := []
  /-- Landing buffer, blocks at the ingress, and the credits towards and from the hub (R201). -/
  landing : Tab Landing := []
  landings : Nat := 0
  ingress : List Moving := []
  up : Tab HopCredit := []
  down : Tab HopCredit := []
  toCh : CrossQueue := {}
  fromCh : CrossQueue := {}
  /-- Blocks from the channel that wait at the hub tandem switch. -/
  switch : List Moving := []
  cvu : Cvu := {}
  /-- State pages that are not private, AWAY and unpinned (R326, R331). -/
  pages : List StatePage := []
  copyFrames : List CopyFrame := []
  /-- Uses of state pages so far. -/
  pageUses : Nat := 0
  paddock : Tab Paddocked := []
  /-- Order in which the paddock entries entered. -/
  paddockOrder : List Nat := []
  /-- FORKs in the state map unit, oldest first (R325). -/
  forks : List ForkJob := []
  /-- Counts of the SCAN commands in progress, by host command. -/
  scanCounts : Tab NarrowCounts := []
  /-- LOAD_W and COPY commands, in split order (R398). -/
  copies : List CopyRun := []
  /-- The two staging buffers, the one that filled last, and the lodger commands in split order (R365). -/
  buffers : Tab LodgerBuf := []
  lastBuffer : Nat := 1
  /-- Restored commands of chunks that are filled again before they enter their engines' queues (R365, R368). -/
  lodgerHeld : List (Nat × EngCmd) := []
  lodgers : List Nat := []
  tileImages : List TileImage := []
  spills : List Spill := []
  /-- Elements narrowed: the number of the next dither value, which no reset takes back (R145). -/
  narrowed : Nat := 0
  deriving DecidableEq, Repr

/-! ## Recorder and replay (R619 to R643) -/

/-- A mark image (R632, R633): its number and channel, the key that it is sealed under, the gait, the shares of
the contexts, and the channel's commands and those of its units, rings with their registers (by ring and word,
the doorbell page's after the ring page's), streams, deadline monitor entries and context records, with the
images of tiles and spilled blocks that the contexts' save regions held. -/
structure MarkImage where
  markNo : Nat
  chan : Nat
  key : Nat
  gait : Nat
  shares : List CtxShare
  cmds : List HostCmd
  nextCmd : Nat
  nextUid : Nat
  forks : List ForkJob
  scanCounts : Tab NarrowCounts
  copies : List CopyRun
  lodgers : List Nat
  lodgerHeld : List (Nat × EngCmd)
  tileImages : List TileImage
  spills : List Spill
  rings : Tab Ring
  ringRegs : Tab (Tab Nat)
  streams : Tab StreamRec
  dlm : Tab DlmRec
  ctxs : Tab CtxRec
  deriving DecidableEq, Repr

/-- An input that a replay has still to give to its consumer (R636): the CRC-32C of its bytes, none where the
log holds none, and its payload. -/
structure ReplayInput where
  crc : Option Nat
  data : Option (List Byte)
  deriving DecidableEq, Repr

/-- The recorder and the replay beyond their registers. -/
structure Recorder where
  logs : Tab Log := []
  /-- Channels whose mark is under way (R632). -/
  marking : List Nat := []
  /-- The mark images, newest first. -/
  images : List MarkImage := []
  /-- The next recorded DSEQ of each domain of the replay (R637). -/
  next : Tab Nat := []
  /-- The replay has been resumed at its stop point (R640). -/
  resumed : Bool := false
  /-- A recorded host write is being performed (R636). -/
  forcing : Bool := false
  /-- Recorded decisions, completions (CMDID, status, ring) and inputs whose events have still to come, and
  completions whose records have. -/
  decisions : List (Nat × Nat) := []
  completions : List (Nat × Nat × Nat) := []
  finished : List (Nat × Nat × Nat) := []
  inputs : List ReplayInput := []
  /-- Descriptors of the command whose last entry has still to come, and bytes of the current batch of the
  replay ring that have been read, its header with them. -/
  entries : List Nat := []
  used : Nat := 32
  /-- Entries of crossings into the target that its consumers may still take (R637). -/
  crossings : Nat := 0
  /-- Bytes of the input whose last fragment has still to come. -/
  partial' : List Byte := []
  /-- The shadow copy of slot map, epochs and strikes (R637), by slot. -/
  shadow : Tab (Nat × Nat × Nat) := []
  /-- Tiles re-run once for a live upset (R638), and tiles whose mismatch the log gives (R637): slot and tile
  slot. -/
  upsets : List (Nat × Nat) := []
  mismatches : List (Nat × Nat) := []
  /-- Tandem blocks that left the target and were discarded (R636). -/
  discarded : Nat := 0
  deriving DecidableEq, Repr

/-- The state of the FT-4. `pending` is the queue of commands that wait, first in, first out. -/
@[ext]
structure State where
  pending : List Instr := []
  out : List Output := []
  drawn : Nat := 0
  dev : Device := {}
  /-- Cycles of each clock domain, by the domain codes of R622. -/
  cycles : Tab Nat := []
  /-- The cycle at which a page's CYC was last 0, by page index (R566). -/
  cycBase : Tab Nat := []
  /-- Register words by BAR0 address; a word that is not listed holds its reset value. -/
  regs : Tab Nat := []
  /-- Holding copies of _HI by master's tag and address (R18). -/
  holds : Tab Nat := []
  blocks : Tab BlockRun := []
  msix : Tab MsixEntry := []
  mbx : Tab MbxSlot := []
  ports : Tab Port := []
  xlat : Translation := {}
  /-- Context records by number (R449). -/
  ctxs : Tab CtxRec := []
  /-- Context slots, LOADs that wait for one, the slot that the rule of R469 is restoring into while the
  relief designation has not passed, and the context that the rule last restored (R457, R469). -/
  ctxSlots : Tab CtxSlot := []
  loads : List Nat := []
  reliefInto : Option Nat := none
  lastRelief : Nat := 255
  /-- Saved context images, channel by channel (R459). -/
  shares : List CtxShare := []
  /-- The deadline monitor's entries, by stream (R478). -/
  dlm : Tab DlmRec := []
  /-- The stream table (R304). -/
  streams : Tab StreamRec := []
  /-- A REHOME whose write-back is under way (R307): the stream and its new home. -/
  rehoming : Option (Nat × Nat) := none
  recorder : Recorder := {}
  chans : Tab Channel := []
  deriving DecidableEq, Repr

/-- The reasons for which a command stops the block with a fault. -/
inductive Fault where
  /-- A command names a physical address outside the store that it acts on (R346). Safe: the spec gives such an
  address no meaning. No meaning raises it: translation answers such an address with OUT_OF_RANGE (R433), which is
  an effect on the state. -/
  | storeRange
  deriving DecidableEq, Repr

/-- The reasons for which a command has no meaning. -/
inductive Refusal where
  /-- The command has no meaning yet in this model. Safe: nothing can be proved of it. -/
  | notModelled (mnemonic : String)
  deriving DecidableEq, Repr

/-- The FT-4 as a cold reset leaves it (R19 to R22): auxiliary power is on, the farrier is about to
run its boot ROM, the main rails are off, and no command waits. -/
def State.reset : State := {}

end Sys2Proof.Machine
end

