-- ==== Sys2Proof/Machine/Ops.lean ====
section
/-!
DEFINITION. The named operations on the state: register pages and fields, interrupts and error
capture, MSI-X, stores, and the tables of channels, rings, mailboxes and ports.
-/

namespace Sys2Proof.Machine

/-! ## Masters, domains and pages -/

/-- The tag of a master (R505). -/
def masterTag : Master → Nat
  | .farrier => 0x01
  | .groom c => 0x02 + c
  | .host => 0x06
  | .peer p => 0x10 + p

/-- Domain codes (R622). -/
def domService : Nat := 0
def domHub : Nat := 1
def domPcie : Nat := 2
def domArith (c : Nat) : Nat := 4 + c
def domPhy (c : Nat) : Nat := 8 + c
def domLink (p : Nat) : Nat := 16 + p

/-- The number of a page: its byte address in BAR0 divided by 4,096 (R648, R649, R373). -/
def pageIndex : Page → Nat
  | .hif => 0 | .far => 1 | .hmmu => 2 | .strm => 3 | .dlm => 4
  | .ctx => 5 | .rpl => 6 | .pwr => 7 | .clk => 8 | .ras => 9
  | .hlk p => 0x20 + p
  | .mbx m => 0x40 + m
  | .grm c => 0x1000 + c * 0x800
  | .cmmu c => 0x1000 + c * 0x800 + 1
  | .wst c => 0x1000 + c * 0x800 + 2
  | .ast c => 0x1000 + c * 0x800 + 3
  | .tnd c => 0x1000 + c * 0x800 + 4
  | .cvu c => 0x1000 + c * 0x800 + 5
  | .hbmc c => 0x1000 + c * 0x800 + 6
  | .ring c r => 0x1000 + c * 0x800 + 0x80 + r
  | .eng c e => 0x1000 + c * 0x800 + 0x100 + e
  | .door c r => 0x3000 + c * 16 + r

/-- `n` as a member of `Fin k`, where it is below `k`. -/
def finOf? (k n : Nat) : Option (Fin k) := if h : n < k then some ⟨n, h⟩ else none

/-- The page of a hub page number (R648). -/
def hubPage? (i : Nat) : Option Page :=
  if i = 0 then some .hif else if i = 1 then some .far else if i = 2 then some .hmmu
  else if i = 3 then some .strm else if i = 4 then some .dlm else if i = 5 then some .ctx
  else if i = 6 then some .rpl else if i = 7 then some .pwr else if i = 8 then some .clk
  else if i = 9 then some .ras
  else if 0x20 ≤ i ∧ i < 0x30 then (finOf? 16 (i - 0x20)).map .hlk
  else if 0x40 ≤ i ∧ i < 0x6a then (finOf? 42 (i - 0x40)).map .mbx
  else none

/-- The page of channel `c` at page offset `k` (R649). -/
def channelPage? (c : Ch) (k : Nat) : Option Page :=
  if k = 0 then some (.grm c) else if k = 1 then some (.cmmu c) else if k = 2 then some (.wst c)
  else if k = 3 then some (.ast c) else if k = 4 then some (.tnd c) else if k = 5 then some (.cvu c)
  else if k = 6 then some (.hbmc c)
  else if 0x80 ≤ k ∧ k < 0x90 then (finOf? 16 (k - 0x80)).map (.ring c)
  else if 0x100 ≤ k ∧ k < 0x148 then (finOf? 72 (k - 0x100)).map (.eng c)
  else none

/-- The page with a number, if one lies there (R644, R645). -/
def pageAt? (i : Nat) : Option Page :=
  if i < 0x1000 then hubPage? i
  else if i < 0x3000 then
    (finOf? 4 ((i - 0x1000) / 0x800)).bind fun c => channelPage? c ((i - 0x1000) % 0x800)
  else if i < 0x3040 then
    (finOf? 4 ((i - 0x3000) / 16)).bind fun c =>
      (finOf? 16 ((i - 0x3000) % 16)).map (.door c)
  else none

def pageKind : Page → PageKind
  | .hif => .hif | .far => .far | .hmmu => .hmmu | .strm => .strm | .dlm => .dlm
  | .ctx => .ctx | .rpl => .rpl | .pwr => .pwr | .clk => .clk | .ras => .ras
  | .hlk _ => .hlk | .mbx _ => .mbx | .grm _ => .grm | .cmmu _ => .cmmu | .wst _ => .wst
  | .ast _ => .ast | .tnd _ => .tnd | .cvu _ => .cvu | .hbmc _ => .hbmc
  | .ring _ _ => .ring | .eng _ _ => .eng | .door _ _ => .door

/-- The channel of a channel page or of a doorbell page. -/
def pageCh? : Page → Option Ch
  | .grm c | .cmmu c | .wst c | .ast c | .tnd c | .cvu c | .hbmc c => some c
  | .ring c _ | .eng c _ | .door c _ => some c
  | .hif | .far | .hmmu | .strm | .dlm | .ctx | .rpl | .pwr | .clk | .ras | .hlk _ | .mbx _ => none

/-- The block code of a page (R653). -/
def blockCode : Page → Nat
  | .hif => 0x01 | .far => 0x02 | .mbx _ => 0x03 | .hmmu => 0x04 | .strm => 0x05 | .dlm => 0x06
  | .ctx => 0x07 | .hlk _ => 0x08 | .rpl => 0x09 | .pwr => 0x0a | .clk => 0x0b | .ras => 0x0c
  | .grm _ => 0x20 | .ring _ _ => 0x21 | .cmmu _ => 0x22 | .hbmc _ => 0x23 | .wst _ => 0x24
  | .ast _ => 0x25 | .cvu _ => 0x26 | .tnd _ => 0x27 | .eng _ _ => 0x28 | .door _ _ => 0x30

/-- The instance number that BLK_ID.INST shows (R652). -/
def pageInst : Page → Nat
  | .hlk p => p | .mbx m => m | .ring _ r => r | .eng _ e => e | .door _ r => r
  | .hif | .far | .hmmu | .strm | .dlm | .ctx | .rpl | .pwr | .clk | .ras => 0
  | .grm _ | .cmmu _ | .wst _ | .ast _ | .tnd _ | .cvu _ | .hbmc _ => 0

/-- The clock domain whose cycles the page's CYC counts (R563). -/
def pageDomain : Page → Nat
  | .far | .pwr | .clk | .ras => domService
  | .hmmu | .strm | .dlm | .ctx | .rpl | .mbx _ => domHub
  | .hif => domPcie
  | .hlk p => domLink p
  | .hbmc c => domPhy c
  | .grm c | .cmmu c | .wst c | .ast c | .tnd c | .cvu c => domArith c
  | .ring c _ | .eng c _ | .door c _ => domArith c

/-- The reset classes of R19, from narrow to wide. -/
def clsContext : Nat := 0
def clsEngine : Nat := 1
def clsChannel : Nat := 2
def clsFlr : Nat := 3
def clsWarm : Nat := 4
def clsCold : Nat := 5

/-- The default reset class of a page's block (R21). A doorbell page is restored as its ring is. -/
def pageClass : Page → Nat
  | .eng _ _ => clsEngine
  | .far | .ras | .clk | .mbx _ => clsCold
  | .hlk _ | .pwr => clsWarm
  | .hif | .hmmu | .strm | .dlm | .ctx | .rpl => clsFlr
  | .grm _ | .cmmu _ | .wst _ | .ast _ | .tnd _ | .cvu _ | .hbmc _ | .ring _ _ | .door _ _ =>
    clsChannel

/-! ## Register fields -/

/-- Whether a register row holds the word at an offset, and which register of the row it is. -/
def rowAt (row : RegRow) (off : Nat) : Option (RegRow × Bool) :=
  let step := if row.count ≤ 1 then 4096 else row.stride
  let d := off - row.base
  if row.base ≤ off ∧ d / step < max row.count 1 then
    if d % step = 0 then some (row, false)
    else if row.pair ∧ d % step = 4 then some (row, true)
    else none
  else none

/-- The part of a field that lies in the lower or the upper word of its register. -/
def fieldPart (high : Bool) (f : RegField) : Option RegField :=
  let base := if high then 32 else 0
  let lo := max f.lo base
  let hi := min (f.lo + f.w) (base + 32)
  if lo < hi then
    some { f with lo := lo - base, w := hi - lo, reset := bitsOf f.reset (lo - f.lo) (hi - lo) }
  else none

/-- The fields of the register word at an offset of a page; none where no chapter defines the
offset (R17). -/
def fieldsAt (p : Page) (off : Nat) : List RegField :=
  match (((if off < 0x100 then PageKind.hdr else pageKind p).rows).filterMap (rowAt · off)).head? with
  | some (row, high) => row.fields.filterMap (fieldPart high)
  | none => []

/-- The value of a register word after the widest reset of its page (R20), the instance-dependent
values of BLK_ID and INT_ROUTE apart (R652). -/
def resetWord (p : Page) (off : Nat) : Nat :=
  let base := (fieldsAt p off).foldl (fun v f => setBits v f.lo f.w f.reset) 0
  if off = 0x00 then
    blockCode p + pageInst p * 2 ^ 8 + ((pageCh? p).elim 0 fun c => c.val * 2 ^ 16 + 2 ^ 18)
      + 0x5e7 * 2 ^ 20
  else if off = 0x1c ∧ (pageCh? p).isSome then setBits base 18 1 1
  else base

/-- The BAR0 address of an offset of a page: a page has 4,096 bytes (R644). -/
def pageAddr (p : Page) (off : Nat) : Nat := pageIndex p * 4096 + off % 4096

/-- The stored word of a register. -/
def State.word (s : State) (p : Page) (off : Nat) : Nat :=
  Tab.get (resetWord p off) s.regs (pageAddr p off)

/-- The state with a register word set. A word has 32 bits (R14). -/
def State.setWord (s : State) (p : Page) (off v : Nat) : State :=
  { s with regs := Tab.set s.regs (pageAddr p off) (v % 2 ^ 32) }

/-- The stored value of a field. A field of more than one word takes the pair's two words. -/
def State.rd (s : State) (p : Page) (f : Fld) : Nat :=
  if f.lo + f.w ≤ 32 then bitsOf (s.word p f.off) f.lo f.w
  else bitsOf (s.word p f.off + s.word p (f.off + 4) * 2 ^ 32) f.lo f.w

/-- The state with a field set. -/
def State.wr (s : State) (p : Page) (f : Fld) (v : Nat) : State :=
  if f.lo + f.w ≤ 32 then s.setWord p f.off (setBits (s.word p f.off) f.lo f.w v)
  else
    let x := setBits (s.word p f.off + s.word p (f.off + 4) * 2 ^ 32) f.lo f.w v
    (s.setWord p f.off (bitsOf x 0 32)).setWord p (f.off + 4) (bitsOf x 32 32)

/-- A flag field, as a truth value. -/
def State.flag (s : State) (p : Page) (f : Fld) : Bool := s.rd p f ≠ 0

/-- The state with a counter raised by `n`, saturating at its largest value. -/
def State.bump (s : State) (p : Page) (f : Fld) (n : Nat := 1) : State :=
  s.wr p f (min (s.rd p f + n) (2 ^ f.w - 1))

/-- The state with a counter raised by `n`, wrapping after its largest value. -/
def State.wrap (s : State) (p : Page) (f : Fld) (n : Nat := 1) : State :=
  s.wr p f ((s.rd p f + n) % 2 ^ f.w)

/-! ## Output, interrupts and errors -/

/-- Something leaves the card. -/
def State.emit (s : State) (o : Output) : State := { s with out := s.out ++ [o] }

/-- An event selects an MSI-X vector (R541). -/
def State.sendVector (s : State) (v : Nat) : State :=
  let e := Tab.get {} s.msix v
  if s.dev.functionMask || e.masked then
    { s with msix := Tab.set s.msix v { e with pending := true } }
  else s.emit (.msix v)

/-- INT_STAT of a page: INT_RAW and not INT_MASK (R652). -/
def State.intStat (s : State) (p : Page) : Nat :=
  let raw := s.rd p Reg.intRaw_RAW
  raw - (raw &&& s.rd p Reg.intMask_MASK)

/-- The message of R654 where a bit of INT_STAT has gone from 0 to 1 since `before`. -/
def State.signalFrom (s : State) (p : Page) (before : Nat) : State :=
  let new := s.intStat p
  if new - (new &&& before) ≠ 0 ∧ s.flag p Reg.intRoute_HOST then
    s.sendVector (s.rd p Reg.intRoute_VEC)
  else s

/-- Bits of INT_RAW set at events (R654, R655). -/
def State.raiseBits (s : State) (p : Page) (bits : Nat) : State :=
  let before := s.intStat p
  (s.wr p Reg.intRaw_RAW (s.rd p Reg.intRaw_RAW ||| bits)).signalFrom p before

/-- Bit `n` of INT_RAW sets. -/
def State.raise (s : State) (p : Page) (n : Nat) : State := s.raiseBits p (2 ^ n)

/-- A persistent error of a block is captured and counted (R656). -/
def State.persistent (s : State) (p : Page) (code loc : Nat) : State :=
  let entry := (code % 256) + (loc % 2 ^ 22) * 256 + 2 ^ 31
  let s1 :=
    if s.flag p Reg.errFirst_VALID then
      s.setWord p 0x24 (entry + (if s.flag p Reg.errNext_VALID then 2 ^ 30 else 0))
    else s.setWord p 0x20 entry
  ((s1.bump p Reg.errCntUncorr_COUNT).bump .ras Reg.rasCnt_PERSIST).raise .ras 4

/-- A corrected error of a block is counted (R584). -/
def State.corrected (s : State) (p : Page) (n : Nat := 1) : State :=
  s.bump p Reg.errCntCorr_COUNT n

/-- A free value's number is drawn. -/
def State.draw (s : State) : State := { s with drawn := s.drawn + 1 }
def State.drawMany (s : State) (n : Nat) : State := { s with drawn := s.drawn + n }

/-! ## The tables of the state -/

def State.chan (s : State) (c : Nat) : Channel := Tab.get {} s.chans c
def State.setChan (s : State) (c : Nat) (x : Channel) : State :=
  { s with chans := Tab.set s.chans c x }
def State.modChan (s : State) (c : Nat) (f : Channel → Channel) : State := s.setChan c (f (s.chan c))

def Channel.ring (x : Channel) (r : Nat) : Ring := Tab.get {} x.rings r
def State.ringOf (s : State) (c r : Nat) : Ring := (s.chan c).ring r
def State.modRing (s : State) (c r : Nat) (f : Ring → Ring) : State :=
  s.modChan c fun x => { x with rings := Tab.set x.rings r (f (x.ring r)) }

def State.port (s : State) (p : Nat) : Port := Tab.get {} s.ports p
def State.modPort (s : State) (p : Nat) (f : Port → Port) : State :=
  { s with ports := Tab.set s.ports p (f (s.port p)) }

def State.slot (s : State) (m : Nat) : MbxSlot := Tab.get {} s.mbx m
def State.modSlot (s : State) (m : Nat) (f : MbxSlot → MbxSlot) : State :=
  { s with mbx := Tab.set s.mbx m (f (s.slot m)) }

def State.blockRun (s : State) (p : Page) : BlockRun := Tab.get {} s.blocks (pageIndex p)
def State.setBlockRun (s : State) (p : Page) (b : BlockRun) : State :=
  { s with blocks := Tab.set s.blocks (pageIndex p) b }

def State.log (s : State) (n : Nat) : Log := Tab.get {} s.recorder.logs n
def State.modLog (s : State) (n : Nat) (f : Log → Log) : State :=
  { s with recorder := { s.recorder with logs := Tab.set s.recorder.logs n (f (s.log n)) } }

def State.modDev (s : State) (f : Device → Device) : State := { s with dev := f s.dev }
def State.modXlat (s : State) (f : Translation → Translation) : State := { s with xlat := f s.xlat }
def State.modRec (s : State) (f : Recorder → Recorder) : State := { s with recorder := f s.recorder }

/-- Cycles of a clock domain since the service clock started (R566). -/
def State.cyc (s : State) (dom : Nat) : Nat := Tab.get 0 s.cycles dom

/-- The page's CYC counter (R566). -/
def State.pageCyc (s : State) (p : Page) : Nat :=
  (s.cyc (pageDomain p) - Tab.get 0 s.cycBase (pageIndex p)) % 2 ^ 64

/-- CYC of a page returns to 0. -/
def State.zeroCyc (s : State) (p : Page) : State :=
  { s with cycBase := Tab.set s.cycBase (pageIndex p) (s.cyc (pageDomain p)) }

/-! ## Stores -/

/-- What an unlisted byte reads as: 0 before any event made the store's contents undefined, and a
free byte after it (R19, R353, R362). -/
def Memory.blank (m : Memory) (a : Nat) : Byte :=
  match m.undef.find? (fun u => u.1 ≤ a && a < u.2.1) with
  | some u => Config.undefByte u.2.2 a
  | none => 0

def Memory.read (m : Memory) (a : Nat) : Byte := Tab.get (m.blank a) m.cells a

def Memory.write (m : Memory) (a : Nat) (v : Byte) : Memory :=
  { m with cells := if v = m.blank a then Tab.erase m.cells a else Tab.set m.cells a v }

/-- `n` bytes from an address on. -/
def Memory.readBytes (m : Memory) (a n : Nat) : List Byte := (List.range n).map fun i => m.read (a + i)

/-- Bytes written from an address on. -/
def Memory.writeBytes (m : Memory) (a : Nat) : List Byte → Memory
  | [] => m
  | b :: bs => (m.write a b).writeBytes (a + 1) bs

/-- A write of bytes: a poisoned word that it replaces whole is no longer poisoned (R585). -/
def Memory.put (m : Memory) (a : Nat) (bs : List Byte) : Memory :=
  let m' := m.writeBytes a bs
  { m' with poison := m'.poison.filter fun w => !(a ≤ w && w + 128 ≤ a + bs.length) }

/-- The contents from `lo` up to `hi` become undefined. -/
def Memory.lose (m : Memory) (lo hi : Nat) : Memory :=
  { m with
    cells := m.cells.filter fun c => c.1 < lo || hi ≤ c.1
    undef := (lo, hi, m.gen) :: m.undef
    gen := m.gen + 1
    poison := m.poison.filter fun a => a < lo || hi ≤ a }

/-- The form that every store keeps: addresses strictly rising, and no byte listed that equals what
an unlisted byte reads as. -/
abbrev Memory.wf (m : Memory) : Prop :=
  m.cells.Pairwise (fun a b => a.1 < b.1) ∧ ∀ c ∈ m.cells, c.2 ≠ m.blank c.1

/-- The number that little-endian bytes spell (R10). -/
def leNat : List Byte → Nat
  | [] => 0
  | b :: bs => b.toNat + 256 * leNat bs

/-- The `n` little-endian bytes of a number (R10). -/
def leBytes : (n v : Nat) → List Byte
  | 0, _ => []
  | n + 1, v => BitVec.ofNat 8 v :: leBytes n (v / 256)

end Sys2Proof.Machine
end

