-- ==== Sys2Proof/Machine/LogDomain.lean ====
section
/-!
DEFINITION. The arithmetic of the log path (chapter 4): the classes of values, the LNS adder node,
the correction tables, the close-cancellation unit, the antilog ROM and the fallback path. Logs and
powers of two are taken in fixed point with 128 fraction bits.
-/

namespace Sys2Proof.Machine

/-! ## Rounding, powers and logs of two -/

/-- `n / d` rounded to the nearest integer, ties to even. -/
def roundDiv (n : Int) (d : Nat) : Int :=
  let q := n.fdiv d
  let r := 2 * (n - q * d)
  if r < d then q else if d < r then q + 1 else if q % 2 = 0 then q else q + 1

/-- `2 ^ (2 ^ -i)` in units of 2^-128, for i = 1, 2, … -/
def rootsOfTwo : List Nat :=
  [ 0x16a09e667f3bcc908b2fb1366ea957d3e, 0x1306fe0a31b7152de8d5a46305c85eded,
    0x1172b83c7d517adcdf7c8c50eb14a7920, 0x10b5586cf9890f6298b92b71842a98364,
    0x1059b0d31585743ae7c548eb68ca417fe, 0x102c9a3e778060ee6f7caca4f7a29bde9,
    0x10163da9fb33356d84a66ae336dcdfa40, 0x100b1afa5abcbed6129ab13ec11dc9544,
    0x10058c86da1c09ea1ff19d294cf2f679c, 0x1002c605e2e8cec506d21bfc89a23a011,
    0x100162f3904051fa128bca9c55c31e5e0, 0x1000b175effdc76ba38e31671ca939726,
    0x100058ba01fb9f96d6cacd4b180917c3e, 0x10002c5cc37da9491d0985c348c68e7b4,
    0x1000162e525ee054754457d5995292027, 0x10000b17255775c040618bf4a4ade83fd,
    0x1000058b91b5bc9ae2eed81e9b7d4cfac, 0x100002c5c89d5ec6ca4d7c8acc017b7ca,
    0x10000162e43f4f831060e02d839a9d16d, 0x100000b1721bcfc99d9f890ea06911763 ] ++
  [ 0x10000058b90cf1e6d97f9ca14dbcc1629, 0x1000002c5c863b73f016468f6bac5ca2c,
    0x100000162e430e5a18f6119e3c02282a6, 0x1000000b1721835514b86e6d96efd1bff,
    0x100000058b90c0b48c6be5df846c5b2f0, 0x10000002c5c8601cc6b9e94213c72737b,
    0x1000000162e42fff037df38aa2b219f07, 0x10000000b17217fba9c739aa5819f44fa,
    0x1000000058b90bfcdee5acd3c1cedc824, 0x100000002c5c85fe31f35a6a30da1be51,
    0x10000000162e42ff0999ce3541b9fffd0, 0x100000000b17217f80f4ef5aadda45554,
    0x10000000058b90bfbf8479bd5a81b51ae, 0x1000000002c5c85fdf84bd62ae30a74cd,
    0x100000000162e42fefb2fed257559bdaa, 0x1000000000b17217f7d5a7716bba4a9af,
    0x100000000058b90bfbe9ddbac5e109ccf, 0x10000000002c5c85fdf4b15de6f17eb0e,
    0x1000000000162e42fefa494f1478fde05, 0x10000000000b17217f7d20cf927c8e94d ]

/-- The product of the roots whose bits are set in a fraction, most significant first: `frac` is in
units of 2^-n, where `n` is the length still to go. -/
def powFrac : (roots : List Nat) → (n frac acc : Nat) → Nat
  | [], _, _, acc => acc
  | _, 0, _, acc => acc
  | r :: rs, n + 1, frac, acc =>
    if 2 ^ n ≤ frac then powFrac rs n (frac - 2 ^ n) (acc * r / 2 ^ 128) else powFrac rs n frac acc

/-- `2 ^ (x / 2 ^ k)` in units of 2^-128, for `k` at most 40. -/
def pow2 (x : Int) (k : Nat) : Nat :=
  let q := x.fdiv (2 ^ k : Nat)
  let r := (x - q * (2 ^ k : Nat)).toNat
  let m := powFrac rootsOfTwo k r (2 ^ 128)
  if 0 ≤ q then m * 2 ^ q.toNat else m / 2 ^ (-q).toNat

/-- `n` further bits of the log of a mantissa in [1, 2), in units of 2^-128. -/
def logBits : (n m acc : Nat) → Nat
  | 0, _, acc => acc
  | n + 1, m, acc =>
    let sq := m * m / 2 ^ 128
    if 2 ^ 129 ≤ sq then logBits n (sq / 2) (2 * acc + 1) else logBits n sq (2 * acc)

/-- `log2 (v / 2 ^ 128)` in units of 2^-48, rounded down, for positive `v`. -/
def log2Down (v : Nat) : Int :=
  let e := v.log2
  let m := if 128 ≤ e then v / 2 ^ (e - 128) else v * 2 ^ (128 - e)
  ((e : Int) - 128) * 2 ^ 48 + logBits 48 m 0

/-- `log2 (v / 2 ^ 128)` rounded to the nearest multiple of 2^-k. A log is whole or irrational, so that none lies
in the middle of two multiples: one that reads so after rounding down lies above it. -/
def log2Round (v k : Nat) : Int := (2 * log2Down v + (2 ^ (48 - k) : Nat)).fdiv (2 ^ (49 - k) : Nat)

/-- `log2 (1 + 2 ^ -(d / 2 ^ k))` to the nearest multiple of 2^-u. -/
def phiExact (d k u : Nat) : Int := log2Round (2 ^ 128 + pow2 (-(d : Int)) k) u

/-- `log2 (1 - 2 ^ -(d / 2 ^ k))` to the nearest multiple of 2^-u, for positive `d`. -/
def psiExact (d k u : Nat) : Int := log2Round (2 ^ 128 - pow2 (-(d : Int)) k) u

/-! ## The node rule -/

/-- The corrections that one LNS adder uses: the fraction bits F of the group, and those of the
adder's own unit, F + 5 in a tree and 13 at run entry (R117, R121). -/
structure Adder where
  f : Nat
  frac : Nat
  deriving DecidableEq, Repr

/-- Knot `j` of the add table, in units of 2^-13 (R122). -/
def addKnot (f j : Nat) : Int := phiExact (2 * j) f 13

/-- Knot `j` of the subtract table (R122). -/
def subKnot (f j : Nat) : Int := psiExact (2 ^ (f + 1) + 2 * j) f 13

/-- A table value at the distance `d` from its first knot, in the units of the adder (R122, R123). -/
def Adder.table (a : Adder) (knot : Nat → Int) (d : Nat) : Int :=
  let sigma := 2 ^ (a.frac + 1 - a.f)
  let unit := 2 ^ (13 - a.frac)
  let j := d / sigma
  if j < 63 then
    let t := d - j * sigma
    roundDiv (knot j * sigma + (knot (j + 1) - knot j) * t) (sigma * unit)
  else roundDiv (roundDiv (knot 63) (2 ^ ((d - 63 * sigma) / 2 ^ a.frac))) unit

def Adder.phi (a : Adder) (d : Nat) : Int := a.table (addKnot a.f) d
def Adder.psi (a : Adder) (d : Nat) : Int := a.table (subKnot a.f) (d - 2 * 2 ^ a.frac)
def Adder.psiNear (a : Adder) (d : Nat) : Int := psiExact d a.frac a.frac

/-- The node rule of R119 over the corrections of an adder. -/
def nodeWith (oct : Nat) (phi psi psiNear : Nat → Int) (a b : LVal) : LVal :=
  match a, b with
  | .indef, _ => .indef
  | _, .indef => .indef
  | .inf x, .inf y => if x = y then .inf x else .indef
  | .inf x, _ => .inf x
  | _, .inf y => .inf y
  | .zero, b => b
  | a, .zero => a
  | .fin sa oa, .fin sb ob =>
    let (hs, ho, ls, lo) := if ob ≤ oa then (sa, oa, sb, ob) else (sb, ob, sa, oa)
    let d := (ho - lo).toNat
    if hs = ls then .fin hs (ho + phi d)
    else if d = 0 then .zero
    else if d < 2 * oct then .fin hs (ho + psiNear d)
    else .fin hs (ho + psi d)

/-- A node of a bank's tree or its run-entry adder (R119, R121). -/
def Adder.node (a : Adder) : LVal → LVal → LVal :=
  nodeWith (2 ^ a.frac) a.phi a.psi a.psiNear

/-- Neighbours are added pair by pair: one level of a tree (R120). DESIGN CHOICE: the spec says only that
the wiring fixes which inputs meet at each node. -/
def addPairs (node : LVal → LVal → LVal) : List LVal → List LVal
  | a :: b :: rest => node a b :: addPairs node rest
  | rest => rest

/-- The levels of a tree (R119): five for 32 inputs. -/
def treeLevels (node : LVal → LVal → LVal) : Nat → List LVal → List LVal
  | 0, vs => vs
  | n + 1, vs => treeLevels node n (addPairs node vs)

/-- The output of a 32-input tree over the products of one row. -/
def Adder.tree (a : Adder) (vs : List LVal) : LVal := (treeLevels a.node 5 vs).headD .zero

/-- A value held within a log field of `w` bits at its lowest and highest finite values: above it
becomes INF, below it ZERO (R61, R121). -/
def clampLog (w : Nat) (v : LVal) : LVal :=
  match v with
  | .fin neg log =>
    if (2 ^ (w - 1) : Int) - 2 < log then .inf neg
    else if log < -(2 ^ (w - 1) : Int) + 1 then .zero
    else v
  | .zero | .inf _ | .indef => v

/-- A tree output scaled into the 6.13 field of a run (R121). -/
def toRunField (f : Nat) (v : LVal) : LVal :=
  match v with
  | .fin neg off => clampLog 19 (.fin neg (off * 2 ^ (8 - f)))
  | .zero | .inf _ | .indef => v

/-- The run-entry adder (R121): a tree output enters its run. -/
def enterRun (f : Nat) (run out : LVal) : LVal :=
  clampLog 19 ((Adder.node ⟨f, 13⟩) run (toRunField f out))

/-! ## The fallback path (R133 to R136) -/

/-- The antilog ROM (R134): exponent and 12-bit mantissa of a finite offset in tree units. -/
def antilog (f : Nat) (e : Int) : Int × Nat :=
  let oct : Int := 2 ^ (f + 5)
  let q := e.fdiv oct
  let r := e - q * oct
  (q, (roundDiv (pow2 r (f + 5)) (2 ^ 117)).toNat)

/-- The special class of a beat's products, as the nodes of R119 combine them. -/
def specialOf (vs : List LVal) : Option LVal :=
  if vs.contains .indef ∨ (vs.contains (.inf true) ∧ vs.contains (.inf false)) then some .indef
  else if vs.contains (.inf true) then some (.inf true)
  else if vs.contains (.inf false) then some (.inf false)
  else none

/-- The finite terms of a beat: sign, exponent, mantissa (R134). -/
def fbTerms (f : Nat) (vs : List LVal) : List (Bool × Int × Nat) :=
  vs.filterMap fun v =>
    match v with
    | .fin neg e => some (neg, antilog f e)
    | .zero | .inf _ | .indef => none

/-- A right shift that rounds to nearest, ties to even; a left shift is exact. -/
def shiftRound (v : Int) (n : Int) : Int :=
  if 0 ≤ n then roundDiv v (2 ^ n.toNat) else v * 2 ^ (-n).toNat

/-- A fallback beat of one tile row (R135): a sum with the exponent of its largest term, or a special
class. -/
def fbBeat (f : Nat) (vs : List LVal) : FbRun :=
  match specialOf vs with
  | some (.inf neg) => .inf neg
  | some _ => .indef
  | none =>
    match fbTerms f vs with
    | [] => .zero
    | t :: ts =>
      let qmax := ts.foldl (fun q x => max q x.2.1) t.2.1
      .fin ((t :: ts).foldl (fun s x =>
        let m := shiftRound x.2.2 (qmax - x.2.1)
        s + if x.1 then -m else m) 0) qmax

/-- The halvings of an overlong run (R135). -/
def fbNormal : (fuel : Nat) → (v re : Int) → Int × Int
  | 0, v, re => (v, re)
  | fuel + 1, v, re => if 524286 < v.natAbs then fbNormal fuel (roundDiv v 2) (re + 1) else (v, re)

/-- A beat's sum enters a fallback run (R135). -/
def fbAdd (run b : FbRun) : FbRun :=
  match run, b with
  | .indef, _ => .indef
  | _, .indef => .indef
  | .inf x, .inf y => if x = y then .inf x else .indef
  | .inf x, _ => .inf x
  | _, .inf y => .inf y
  | r, .zero => r
  | .zero, .fin s q => if s = 0 then .zero else .fin s q
  | .fin v re, .fin s qb =>
    let re' := max re qb
    let v' := shiftRound v (re' - re) + shiftRound s (re' - qb)
    let (v2, re2) := fbNormal 32 v' re'
    if 63 < re2 then .inf (v2 < 0) else if v2 = 0 then .zero else .fin v2 re2

/-- A fallback run converted at promotion (R136): its log in units of 2^-22 relative to its base. -/
def fbToLns (run : FbRun) : LVal :=
  match run with
  | .zero => .zero
  | .inf neg => .inf neg
  | .indef => .indef
  | .fin v re => .fin (v < 0) (log2Round (v.natAbs * 2 ^ 128) 22 + (re - 11) * 2 ^ 22)

end Sys2Proof.Machine
end

