-- ==== Sys2Proof/Machine/Products.lean ====
section
/-!
DEFINITION. The arithmetic of a tile: activations and weights as the array reads them, products and
beats (chapter 3), runs, and their promotion into totals (chapter 5).
-/

namespace Sys2Proof.Machine

/-! ## Formats (R38, R57) -/

def fmtA1 : Nat := 0
def fmtAT : Nat := 1
def fmtI4 : Nat := 2
def fmtL8 : Nat := 3
def fmtI8 : Nat := 4
def fmtF16 : Nat := 5
def wtB1 : Nat := 0
def wtT2 : Nat := 1
def wtL2 : Nat := 2

/-- Bits per element of an activation format (R38). -/
def fmtBits (f : Nat) : Nat :=
  if f = fmtA1 then 1 else if f = fmtAT then 2 else if f = fmtI4 then 4
  else if f = fmtF16 then 16 else 8

/-! ## The integer paths (R88 to R90) -/

/-- Mask and sign of an activation (R88); `plane` is read for I4 only. -/
def inMask (fmt plane : Nat) : In → Bool × Bool
  | .masked _ | .absent => (false, false)
  | .code v =>
    if fmt = fmtA1 then (true, v % 2 = 0)
    else if fmt = fmtAT then (bitsOf v 0 1 = 1, bitsOf v 1 1 = 1)
    else (bitsOf v plane 1 = 1, false)

/-- The cell off the diagonal of a DWCONV: it holds code 0b00, and bit 2 is the model's mark that it counts as
a zero weight whatever the format (R276, R278). -/
def offCell : Nat := 4

/-- Mask and sign of a weight (R39, R88). -/
def wtMask (wfmt w : Nat) : Bool × Bool :=
  (w ≠ offCell && (wfmt = wtB1 || bitsOf w 0 1 = 1), bitsOf w 1 1 = 1)

/-- What one cell adds to its column's count (R89). -/
def cellCount (fmt plane wfmt : Nat) (x : In) (w : Nat) : Int :=
  let (ma, sa) := inMask fmt plane x
  let (mw, sw) := wtMask wfmt w
  if ma && mw then (if sa = sw then 1 else -1) else 0

/-- A column's beat result (R89). -/
def beatCount (fmt plane wfmt : Nat) (xs : List In) (ws : List Nat) : Int :=
  (List.zipWith (cellCount fmt plane wfmt) xs ws).sum

/-- The beat result as it enters the run: on the I4 path it is scaled by its plane (R90). -/
def planeScale (fmt plane : Nat) (v : Int) : Int :=
  if fmt = fmtI4 then (if plane = 3 then -8 * v else 2 ^ plane * v) else v

/-- The weight that a cell code of B1 or T2 stands for (R39). -/
def weightValue (w : Nat) : Int :=
  if w = offCell ∨ bitsOf w 0 1 = 0 then 0 else if bitsOf w 1 1 = 1 then -1 else 1

/-- The cell code of the trit that is congruent to `v` modulo 3 (R39, R108). -/
def tritOf (v : Int) : Nat := if v % 3 = 1 then 1 else if v % 3 = 2 then 3 else 0

/-- Additions of integer classes (R153, R159): special classes combine as in R119, and a sum outside
`limit` becomes INF. -/
def addInt (limit : Int) (a b : IVal) : IVal :=
  match a, b with
  | .indef, _ => .indef
  | _, .indef => .indef
  | .inf x, .inf y => if x = y then .inf x else .indef
  | .inf x, .fin _ => .inf x
  | .fin _, .inf y => .inf y
  | .fin x, .fin y => if limit < (x + y).natAbs then .inf (x + y < 0) else .fin (x + y)

/-- Largest finite magnitudes of a run and of a total (R58). -/
def runLimit : Int := 524286
def totalLimit : Int := 2 ^ 39 - 2

/-! ## The log path (R92, R93) -/

/-- A product of the log path: its offset is in tree units relative to the group base. -/
def logProduct (f wfmt : Nat) (x : In) (w : Nat) : LVal :=
  match x with
  | .masked _ | .absent => .zero
  | .code v =>
    if w = offCell ∨ wfmt = wtT2 ∧ bitsOf w 0 1 = 0 then .zero
    else
      let neg := (bitsOf v 7 1 = 1) != (bitsOf w 1 1 = 1)
      let c := bitsOf v 0 7
      if v % 256 = 0x00 then .zero
      else if v % 256 = 0x80 then .indef
      else if c = 0x7f then .inf neg
      else
        let h : Int := if wfmt = wtL2 then bitsOf w 0 1 else 0
        .fin neg (32 * ((c : Int) - 64) - h * 2 ^ (f + 5))

/-! ## Beats (R84, R95) -/

/-- Beats per position in one K-slice (R84). -/
def beatsPer (fmt : Nat) : Nat := if fmt = fmtL8 then 8 else if fmt = fmtI4 then 4 else 1

/-- The inputs of a beat among the 256 of its position. -/
def beatInputs {α : Type} (fmt beat : Nat) (xs : List α) : List α :=
  if fmt = fmtL8 then (xs.drop (32 * beat)).take 32 else xs

/-- A beat that R95 skips. -/
def beatSkips (fmt beat : Nat) (xs : List In) : Bool :=
  (beatInputs fmt beat xs).all fun x =>
    match x with
    | .masked _ | .absent => true
    | .code v => fmt = fmtI4 && bitsOf v beat 1 = 0

/-! ## Runs (R58, R59, R121, R135) -/

/-- A run at ZERO. -/
def Run.start : Trees → Run
  | .integer => .int (.fin 0)
  | .lns => .lns .zero
  | .fallback => .fb .zero

/-- The sum of one column for one beat (R76, R89, R121, R135). -/
def colSum (trees : Trees) (f fmt wfmt beat : Nat) (xs : List In) (ws : List Nat) : ColSum :=
  let bx := beatInputs fmt beat xs
  let bw := beatInputs fmt beat ws
  match trees with
  | .integer => .int (beatCount fmt beat wfmt bx bw)
  | .lns => .lns ((Adder.mk f (f + 5)).tree (List.zipWith (logProduct f wfmt) bx bw))
  | .fallback => .fb (fbBeat f (List.zipWith (logProduct f wfmt) bx bw))

/-- A column's sum enters the run of its tile row (R89, R90, R121, R135). -/
def Run.enter (r : Run) (f fmt beat : Nat) (v : ColSum) : Run :=
  match r, v with
  | .int a, .int b => .int (addInt runLimit a (.fin (planeScale fmt beat b)))
  | .lns a, .lns b => .lns (enterRun f a b)
  | .fb a, .fb b => .fb (fbAdd a b)
  | .int _, _ | .lns _, _ | .fb _, _ => r

/-! ## Spare and check columns (R107 to R111) -/

/-- What an upset makes of a column's sum. -/
def applyUpset (u : Upset) : ColSum → ColSum
  | .int v => .int (v + u.delta)
  | .lns _ => .lns (match u.kind with
    | 0 => .zero | 1 => .fin u.neg u.log | 2 => .inf u.neg | 3 => .indef)
  | .fb _ => .fb (match u.kind with
    | 0 => .zero | 1 => .fin u.delta u.log | 2 => .inf u.neg | 3 => .indef)

/-- The upsets of a beat act on the sum of column `j`. -/
def upsetAt (us : List Upset) (j : Nat) (v : ColSum) : ColSum :=
  us.foldl (fun v u => if u.column.val = j then applyUpset u v else v) v

/-- The column map of an engine: MODE and TARGET of SC0 to SC3 (R104). -/
abbrev ColMap := List (Nat × Nat)

def colCheck : Nat := 0
def colSpare : Nat := 1

/-- The spare column that serves a tile row: the lowest that names it (R107). -/
def ColMap.spareOf (m : ColMap) (row : Nat) : Option Nat :=
  (List.range 4).find? fun n => m.getD n (2, 0) = (colSpare, row)

/-- The code of the trit that weight prefetch writes into one cell row of a residue column: that of the
weights of the unmasked tile rows of group `n` (R108). -/
def residueCode (rows n : Nat) (codes : List (List Nat)) (k : Nat) : Nat :=
  tritOf ((((codes.take rows).drop (64 * n)).take 64).map fun r => weightValue (r.getD k 0)).sum

/-- The cell codes of SCn (R107 to R110): those of the tile row that it serves, the residue of its group on an
integer path, or a duplicate of tile row 64n + ROT on the log path; a column that does neither holds
none. -/
def spareCodes (m : ColMap) (n rows rot : Nat) (integer : Bool) (codes : List (List Nat)) : List Nat :=
  let (mode, target) := m.getD n (2, 0)
  if mode = colSpare then (if m.spareOf target = some n then codes.getD target [] else [])
  else if mode = colCheck then
    (if integer then (List.range 256).map (residueCode rows n codes) else codes.getD (64 * n + rot) [])
  else []

/-- The groups whose check column records a mismatch (R108, R109): `row r` is the sum that serves tile row `r`
and `col n` the sum of SCn. -/
def mismatches (m : ColMap) (rows rot : Nat) (integer : Bool) (row col : Nat → ColSum) : List Nat :=
  let count : ColSum → Int
    | .int v => v
    | .lns _ | .fb _ => 0
  (List.range 4).filter fun n =>
    (m.getD n (2, 0)).1 = colCheck &&
      (if integer then
        (((((List.range 256).take rows).drop (64 * n)).take 64).map fun r => count (row r)).sum % 3
          ≠ count (col n) % 3
      else row (64 * n + rot) ≠ col n)

/-- The sums of the tile rows of a beat and the groups that fail their check (R76, R107 to R109). -/
def beatColumns (m : ColMap) (rows rot : Nat) (trees : Trees) (f fmt wfmt beat : Nat) (xs : List In)
    (codes : List (List Nat)) (us : List Upset) : List ColSum × List Nat :=
  let integer : Bool := trees = .integer
  let sum (j : Nat) (ws : List Nat) : ColSum := upsetAt us j (colSum trees f fmt
    (if integer && 256 ≤ j && (m.getD (j - 256) (2, 0)).1 = colCheck then wtT2 else wfmt) beat xs ws)
  let col (n : Nat) : ColSum := sum (256 + n) (spareCodes m n rows rot integer codes)
  let rowSum (r : Nat) (ws : List Nat) : ColSum :=
    match m.spareOf r with
    | some n => col n
    | none => sum r ws
  let sums := codes.zipIdx.map fun x => rowSum x.2 x.1
  (sums, mismatches m rows rot integer (fun r => sums.getD r (.int 0)) col)

/-! ## Totals and promotion (R153 to R155, R159, R160) -/

def Total.zero (tkind : Nat) : Total := if tkind = 1 then .lns .zero else .int (.fin 0)

/-- The node rule with φ and ψ evaluated exactly to the nearest 2^-22 octave (R154). -/
def exactNode : LVal → LVal → LVal :=
  nodeWith (2 ^ 22) (fun d => phiExact d 22 22) (fun d => psiExact d 22 22)
    (fun d => psiExact d 22 22)

/-- Two LNS32 totals of one base are added (R154, steps 2 and 3). -/
def addLns (a b : LVal) : LVal := clampLog 31 (exactNode a b)

/-- A log is moved by `n` sixteenths of an octave in the 9.22 field. -/
def offsetLog (v : LVal) (n : Int) : LVal :=
  match v with
  | .fin neg log => .fin neg (log + n * 2 ^ 18)
  | .zero | .inf _ | .indef => v

/-- A run in the form in which it enters a total: widened, and offset by BASE − WBASE (R154, R155);
an integer run of a re-issued tile is shifted right by the retry count (R164, step 3). -/
def Run.widen (r : Run) (base wbase : Int) (retries : Nat) : Total :=
  match r with
  | .int (.fin v) => .int (.fin (roundDiv v (2 ^ retries)))
  | .int v => .int v
  | .lns (.fin neg log) => .lns (offsetLog (.fin neg (log * 2 ^ 9)) (base - wbase))
  | .lns v => .lns v
  | .fb v => .lns (offsetLog (fbToLns v) (base - wbase))

/-- Two totals of one kind are added; totals of two kinds do not meet. -/
def Total.add (a b : Total) : Total :=
  match a, b with
  | .int x, .int y => .int (addInt totalLimit x y)
  | .lns x, .lns y => .lns (addLns x y)
  | .int _, .lns _ => a
  | .lns _, .int _ => a

def Total.isInf : Total → Bool
  | .int (.inf _) | .lns (.inf _) => true
  | .int _ | .lns _ => false

/-- Finite or ZERO. -/
def Total.isFinite : Total → Bool
  | .int (.fin _) | .lns (.fin _ _) | .lns .zero => true
  | .int _ | .lns _ => false

/-- An overflow (R160): two finite operands give INF. -/
def overflows (a b : Total) : Bool := a.isFinite && b.isFinite && (a.add b).isInf

/-- The encodings of totals in memory and in tandem blocks (R58, R60, R61). -/
def encodeTotal : Total → Nat
  | .int (.fin v) => (v % 2 ^ 40).toNat
  | .int (.inf neg) => if neg then 0x8000000001 else 0x7fffffffff
  | .int .indef => 0x8000000000
  | .lns .zero => 0x40000000
  | .lns .indef => 0xc0000000
  | .lns (.inf neg) => 0x3fffffff + bit neg * 2 ^ 31
  | .lns (.fin neg log) => (log % 2 ^ 31).toNat + bit neg * 2 ^ 31

/-- The value of a two's complement field of `w` bits. -/
def signedOf (v w : Nat) : Int := if v % 2 ^ w < 2 ^ (w - 1) then v % 2 ^ w else (v % 2 ^ w : Int) - 2 ^ w

def decodeTotal (tkind v : Nat) : Total :=
  if tkind = 1 then
    let neg := bitsOf v 31 1 = 1
    let log := v % 2 ^ 31
    if log = 0x40000000 then .lns (if neg then .indef else .zero)
    else if log = 0x3fffffff then .lns (.inf neg)
    else .lns (.fin neg (signedOf log 31))
  else if v % 2 ^ 40 = 0x7fffffffff then .int (.inf false)
  else if v % 2 ^ 40 = 0x8000000001 then .int (.inf true)
  else if v % 2 ^ 40 = 0x8000000000 then .int .indef
  else .int (.fin (signedOf v 40))

/-! ## Weights in the stall (R40 to R45, R277) -/

/-- The cell codes of the five trits of a T2 byte (R39, R43); a byte above 242 holds five zeros
(R45). -/
def tritCode (b j : Nat) : Nat :=
  if 242 < b then 0
  else
    let d := b / 3 ^ j % 3
    if d = 0 then 3 else if d = 1 then 0 else 1

/-- The cell code of weight `i` of a stream that starts at a trit address (R41 to R44, R347). A B1 or
L2 stream starts at a byte. -/
def weightCode (m : Memory) (wfmt start i : Nat) : Nat :=
  if wfmt = wtT2 then tritCode (m.read ((start + i) / 5)).toNat ((start + i) % 5)
  else if wfmt = wtB1 then
    if bitsOf (m.read (start / 5 + i / 8)).toNat (i % 8) 1 = 1 then 1 else 3
  else bitsOf (m.read (start / 5 + i / 4)).toNat (2 * (i % 4)) 2

/-- The stall bytes that hold the weights `i` up to `j` of a stream. -/
def weightBytes (wfmt start i j : Nat) : Nat × Nat :=
  if wfmt = wtT2 then ((start + i) / 5, (start + j + 4) / 5)
  else if wfmt = wtB1 then (start / 5 + i / 8, start / 5 + (j + 7) / 8)
  else (start / 5 + i / 4, start / 5 + (j + 3) / 4)

/-! ## Elements in memory (R62 to R70) -/

/-- Lanes of a channel block: 16 or 32 (R62). -/
def blockLanes (layout : Nat) : Nat := if layout = 1 then 32 else 16

/-- Bytes of an element block (R63). -/
def elemBytes (fmt layout : Nat) : Nat := blockLanes layout * fmtBits fmt / 8

/-- Lane `l` of an element block (R63). -/
def laneOf (fmt : Nat) (bs : List Byte) (l : Nat) : Nat :=
  let w := fmtBits fmt
  if w = 16 then leNat ((bs.drop (2 * l)).take 2)
  else bitsOf (bs.getD (l * w / 8) 0).toNat (l * w % 8) w

/-- The bytes of an element block from its lanes. -/
def packLanes (fmt : Nat) (vs : List Nat) : List Byte :=
  let w := fmtBits fmt
  leBytes (vs.length * w / 8) ((vs.zipIdx.map fun e => e.1 % 2 ^ w * 2 ^ (w * e.2)).sum)

/-- Offset of an element block of a dense tensor (R64). -/
def denseOffset (fmt layout n b p : Nat) : Nat := (b * n + p) * elemBytes fmt layout

/-- Slot size and offset of a segment of a compressed tensor (R66). -/
def segBytes (fmt layout : Nat) : Nat := 32 + 64 * elemBytes fmt layout
def segOffset (fmt layout n b t : Nat) : Nat := (b * ((n + 63) / 64) + t) * segBytes fmt layout

/-- Set bits of the low `n` bits of a bitmap (R67). -/
def popCount (v n : Nat) : Nat := ((List.range n).filter fun i => bitsOf v i 1 = 1).length

/-- An element block's lanes are all zero (R68). -/
def zeroLane (fmt v : Nat) : Bool :=
  if fmt = fmtAT then v % 2 = 0 else v = 0

end Sys2Proof.Machine
end

