-- ==== Sys2Proof/Machine/Recording.lean ====
section
/-!
DEFINITION. What the recorder does at an event: the records of the track logs, their sequence
numbers, the batches they fill and the loss of batches (chapter 20), and the CRC-32C of inputs.
-/

namespace Sys2Proof.Machine

/-- One bit of a reflected CRC with a polynomial. -/
def crcBits (poly : Nat) : (n crc : Nat) → Nat
  | 0, crc => crc
  | n + 1, crc => crcBits poly n (if crc % 2 = 1 then (crc / 2) ^^^ poly else crc / 2)

/-- CRC-32C of bytes (R620, R626): the Castagnoli polynomial, reflected, with all ones before and
an inversion after. -/
def crc32c (bs : List Byte) : Nat :=
  (bs.foldl (fun c b => crcBits 0x82f63b78 8 (c ^^^ b.toNat)) 0xffffffff) ^^^ 0xffffffff

/-- The length of a record in units of 16 bytes (R627). -/
def recUnits : RecBody → Nat
  | .mark _ _ crcs => 1 + (4 * crcs.length + 15) / 16
  | .inData _ _ _ _ _ payload => 1 + (payload.length + 15) / 16
  | .cross _ _ _ | .dec _ _ | .out _ _ | .inReg _ _ | .cpl _ _ _ _ | .gap _ | .fin | .div _ _ => 1

/-- TYPE and ARG (as bits [127:64] of the header) of a record (R628). -/
def recHeader : RecBody → Nat × Nat
  | .mark n g _ => (0x01, n % 2 ^ 16 + g % 4 * 2 ^ 16)
  | .cross q n d => (0x02, q % 2 ^ 16 + n % 2 ^ 16 * 2 ^ 16 + d % 2 ^ 32 * 2 ^ 32)
  | .dec k v => (0x03, k % 2 ^ 8 + v % 2 ^ 56 * 2 ^ 8)
  | .out k v => (0x04, k % 2 ^ 8 + v % 2 ^ 56 * 2 ^ 8)
  | .inReg o v => (0x05, o % 2 ^ 24 + v % 2 ^ 32 * 2 ^ 32)
  | .inData k d l f c _ =>
    (0x06, k % 2 ^ 8 + bit d * 2 ^ 8 + bit l * 2 ^ 9 + f % 2 ^ 8 * 2 ^ 16 + c % 2 ^ 32 * 2 ^ 32)
  | .cpl i st r x => (0x07, i % 2 ^ 32 + st % 2 ^ 8 * 2 ^ 32 + r % 16 * 2 ^ 40 + x % 2 ^ 8 * 2 ^ 44)
  | .gap n => (0x08, n % 2 ^ 32)
  | .fin => (0x09, 0)
  | .div c d => (0x0a, c % 2 ^ 8 + d % 2 ^ 32 * 2 ^ 32)

/-- The payload bytes of a record, before padding. -/
def recPayload : RecBody → List Byte
  | .mark _ _ crcs => crcs.flatMap (leBytes 4)
  | .inData _ _ _ _ _ payload => payload
  | .cross _ _ _ | .dec _ _ | .out _ _ | .inReg _ _ | .cpl _ _ _ _ | .gap _ | .fin | .div _ _ => []

/-- The bytes of a record (R627). -/
def recBytes (r : LogRecord) : List Byte :=
  let (type, arg) := recHeader r.body
  let units := recUnits r.body
  let head := type + r.dom % 64 * 2 ^ 8 + units * 2 ^ 16 + r.dseq % 2 ^ 32 * 2 ^ 32
  let body := recPayload r.body
  leBytes 8 head ++ leBytes 8 arg ++ body ++ List.replicate (16 * (units - 1) - body.length) 0

/-- The bytes of a batch (R626). -/
def batchBytes (n : Nat) (b : Batch) : List Byte :=
  let body := b.records.flatMap recBytes
  let used := 32 + body.length
  leBytes 4 (0x4f43 + 0x1 * 2 ^ 16 + n % 8 * 2 ^ 20 + bit b.gap * 2 ^ 23) ++ leBytes 4 b.bseq
    ++ leBytes 2 b.records.length ++ leBytes 2 used ++ leBytes 2 b.markNo ++ leBytes 2 0
    ++ leBytes 4 b.lost ++ leBytes 4 (crc32c body) ++ leBytes 8 0
    ++ body ++ List.replicate (4096 - used) 0

/-- Bytes that records take in a batch. -/
def recordsBytes (rs : List LogRecord) : Nat := (rs.map fun r => 16 * recUnits r.body).sum

/-- Whether a record still fits into the batch being filled (R626, R627). -/
def Log.fits (l : Log) (b : RecBody) : Bool := 32 + recordsBytes l.filling + 16 * recUnits b ≤ 4096

/-- The batch being filled is closed: it joins the held batches, or is lost where 64 are held
(R629, R630). -/
def Log.close (l : Log) : Log :=
  if l.filling.isEmpty then l
  else if l.held.length < 64 then
    { l with
      held := l.held ++ [{ bseq := l.bseq, markNo := l.markNo, gap := l.lost ≠ 0, lost := l.lost, records := l.filling }]
      filling := []
      bseq := l.bseq + 1
      lost := 0 }
  else { l with filling := [], lost := l.lost + 1 }

/-- The record at the end of a log (R622): it takes the next DSEQ of its domain. -/
def Log.append (l : Log) (dom : Nat) (b : RecBody) : Log :=
  let l1 := if l.fits b then l else l.close
  let gapped := if l1.filling.isEmpty ∧ l1.lost ≠ 0 then
      [{ dom := dom, dseq := Tab.get 0 l1.dseq dom, body := .gap l1.lost : LogRecord }]
    else []
  let n := Tab.get 0 l1.dseq dom + gapped.length
  { l1 with
    filling := l1.filling ++ gapped ++ [{ dom := dom, dseq := n % 2 ^ 32, body := b }]
    dseq := Tab.set l1.dseq dom ((n + 1) % 2 ^ 32) }

/-- A record is written to log `n`, where the log records (R619). A batch lost on the way counts
(R630). -/
def State.logTo (s : State) (n dom : Nat) (b : RecBody) : State :=
  let l := s.log n
  if l.recording then
    let l' := l.append dom b
    let s1 := s.modLog n fun _ => l'
    if l'.lost = l.lost + 1 then
      let gap := s1.rd .rpl Reg.rplStat_GAP
      ((s1.wr .rpl Reg.rplStat_GAP (gap ||| 2 ^ n)).bump .rpl Reg.rplCnt_LOST).raise .rpl 1
    else s1
  else s

/-! ## Replay at an event (R635 to R639) -/

/-- Codes of RPL_STAT.STATE and of RPL_STAT.STOPCAUSE (R643). -/
def rplIdle : Nat := 0
def rplLoading : Nat := 1
def rplReplaying : Nat := 2
def rplStopped : Nat := 3
def rplDone : Nat := 4

def stopStopat : Nat := 1
def stopControl : Nat := 2
def stopNoData : Nat := 3
def stopUpset : Nat := 4
def stopSetup : Nat := 5
def stopHost : Nat := 6
def stopEnd : Nat := 7

def State.replayState (s : State) : Nat := s.rd .rpl Reg.rplStat_STATE
def State.target (s : State) : Nat := s.rd .rpl Reg.rplRpCfg_TGT

/-- The channel is the target of a replay under way (R635). -/
def State.replayOn (s : State) (c : Nat) : Bool := s.replayState = rplReplaying && s.target = c

/-- The channel is the target of a replay that has begun and not ended (R636, R641). -/
def State.replayHolds (s : State) (c : Nat) : Bool :=
  (s.replayState = rplReplaying || s.replayState = rplStopped) && s.target = c

/-- The replay stops with a cause (R639): a DIV record goes to the target's log, whatever its level. -/
def State.stopReplay (s : State) (cause : Nat) : State :=
  let c := s.target
  let dom := domArith (s.rd .rpl Reg.rplRpCfg_SRC)
  let at' := Tab.get 0 s.recorder.next dom
  let s1 := s.modLog c fun l => l.append dom (.div cause at')
  ((s1.wr .rpl Reg.rplStat_STATE rplStopped).wr .rpl Reg.rplStat_STOPCAUSE cause).raise .rpl 2

/-- A live mismatch in a replay (R638): the first of its kind counts and runs again, the second stops the
replay. -/
def State.upset (s : State) (key : Nat × Nat) (again : State → State) : State :=
  if s.recorder.upsets.contains key then s.stopReplay stopUpset
  else again ((s.modRec fun r => { r with upsets := r.upsets ++ [key] }).bump .rpl Reg.rplDiv_UPSET)

/-- The value of the recorded decision that a choice of a replay's target takes, where it is the next one
(R637). -/
def State.forced (s : State) (c kind : Nat) : Option Nat :=
  if s.replayOn c then
    match s.recorder.decisions with
    | d :: _ => if d.1 = kind then some d.2 else none
    | [] => none
  else none

/-- A choice of a channel. A replay's target takes the recorded one, read from its value, and waits while it
is not the next or may not be taken yet (R637). -/
def State.chosen (s : State) (c kind : Nat) (read : Nat → Nat) (ok : Nat → Bool) (own : Option Nat) :
    Option Nat :=
  if s.replayOn c then ((s.forced c kind).map read).filter ok else own

/-- An event of a replay's target that its next recorded decision does not name yet waits (R637). -/
def State.early (s : State) (c kind value : Nat) : Bool := s.replayOn c && s.forced c kind ≠ some value

/-- The ring and the count of the next recorded turn of the split, past the placements that it made. -/
def State.recordedTurn (s : State) : Option (Nat × Nat) :=
  ((s.recorder.decisions.dropWhile fun d => d.1 = 0x03).head?.filter fun d => d.1 = 0x02).map fun d =>
    (d.2 % 2 ^ 8, d.2 / 2 ^ 8)

/-- A decision of a channel is recorded (R624). In a replay it must be the recorded one (R639). -/
def State.logDec (s : State) (c kind value : Nat) : State :=
  if s.replayOn c then
    match s.recorder.decisions with
    | d :: rest =>
      if d = (kind, value) then s.modRec fun r => { r with decisions := rest } else s.stopReplay stopControl
    | [] => s.stopReplay stopControl
  else s.logTo c (domArith c) (.dec kind value)

/-- A lock or a mailbox decides (R624): recorded, and in a replay taken from the records where it is the next
decision. -/
def State.logLock (s : State) (c value : Nat) : State :=
  if s.replayOn c then
    if s.forced c 0x09 = some value then s.modRec fun r => { r with decisions := r.decisions.drop 1 } else s
  else s.logTo c (domArith c) (.dec 0x09 value)

/-- A completion of a replay's target meets its record (R639): whichever comes second compares. -/
def State.matchCpl (s : State) (x : Nat × Nat × Nat) (recorded : Bool) : State :=
  let same (y : Nat × Nat × Nat) : Bool := y.1 = x.1 && y.2.2 = x.2.2
  let r := s.recorder
  match (if recorded then r.finished else r.completions).find? same with
  | some y =>
    if y.2.1 ≠ x.2.1 then s.stopReplay stopControl
    else if recorded then s.modRec fun r => { r with finished := r.finished.erase y }
    else s.modRec fun r => { r with completions := r.completions.erase y }
  | none =>
    if recorded then s.modRec fun r => { r with completions := r.completions ++ [x] }
    else s.modRec fun r => { r with finished := r.finished ++ [x] }

/-- A stream number and a context number of the recorded channel, as the replay uses them (R634). -/
def State.shiftStream (s : State) (n : Nat) : Nat := (n + s.rd .rpl Reg.rplRpCfg_STRMOFS) % 1024
def State.shiftCtx (s : State) (n : Nat) : Nat := (n + s.rd .rpl Reg.rplRpCfg_CTXOFS) % 256

/-- An outcome is recorded (R625) in the log of a channel. -/
def State.logOut (s : State) (c kind value : Nat) : State :=
  s.logTo c (domArith c) (.out kind value)

/-- The level at which log `c` records (R620, R642). -/
def State.level (s : State) (c : Nat) : Nat := (s.log c).lvl

/-- The fragments of an input (R628): 4,048 bytes each, all of one DSEQ. -/
def inFragments (kind crc : Nat) : (fuel n : Nat) → List Byte → List RecBody
  | 0, _, _ => []
  | fuel + 1, n, bs =>
    let rest := bs.drop 4048
    .inData kind true rest.isEmpty n crc (bs.take 4048) ::
      (if rest.isEmpty then [] else inFragments kind crc fuel (n + 1) rest)

/-- An input of channel `c` is recorded with the payload that the level asks for (R620, R621).
Descriptors are written in full at every level. -/
def State.logInput (s : State) (c dom kind : Nat) (bs : List Byte) : State :=
  let lvl := s.level c
  if kind = 0 ∨ lvl = 3 then
    let d := Tab.get 0 (s.log c).dseq dom
    let frs := inFragments kind (crc32c bs) (bs.length / 4048 + 1) 0 bs
    let s1 := frs.foldl (fun s f => (s.modLog c fun l => { l with dseq := Tab.set l.dseq dom d }).logTo c dom f) s
    s1
  else s.logTo c dom (.inData kind false true 0 (if lvl = 2 then crc32c bs else 0) [])

/-- Consumers of channel `c` may run a recorded event: with LOSSLESS set they wait while the log's
held batches are full (R630). -/
def State.mayRecord (s : State) (c : Nat) : Bool :=
  !((s.log c).recording && s.flag .rpl Reg.rplCfg_LOSSLESS && 64 ≤ (s.log c).held.length)

/-- A wait under R630 is counted. -/
def State.recordStall (s : State) : State := s.bump .rpl Reg.rplCnt_STALLS

end Sys2Proof.Machine
end

