-- ==== Sys2Proof/Machine/Guard.lean ====
section
/-!
DEFINITION. Which master reaches which page: the start-up states of the channels (R546, R548) and
the permissions of R650, with the restrictions of the chapters.
-/

namespace Sys2Proof.Machine

/-- The outcome of a command. -/
abbrev Result := Host.Outcome State Fault Refusal

/-- A command acts while the card has power; without power nothing happens (R558). -/
def live (s t : State) : Result := .next (if s.dev.powered then t else s)

/-- Codes of HIF_READY (R548). -/
def chOff : Nat := 0
def chHbmTrain : Nat := 1
def chSelftest : Nat := 2
def chGroomBoot : Nat := 3
def chEngineCheck : Nat := 4
def chReady : Nat := 5
def chFailed : Nat := 6
def chRetired : Nat := 7

/-- The field of HIF_READY of channel `c`. -/
def readyFld (c : Nat) : Fld := ⟨0x100, 4 * c, 4⟩

def State.chState (s : State) (c : Nat) : Nat := s.rd .hif (readyFld c)

/-- A channel field of HIF_READY takes a value, with READY_CHANGE where it changes (R548). -/
def State.setChState (s : State) (c v : Nat) : State :=
  if s.chState c = v then s else (s.wr .hif (readyFld c) v).raise .hif 0

def State.isReady (s : State) (c : Nat) : Bool := s.chState c = chReady

/-- Codes of FAR_BOOT.STEP (R549). -/
def stepRom : Nat := 0
def stepVerify : Nat := 1
def stepPower : Nat := 2
def stepClocks : Nat := 3
def stepWaitPerst : Nat := 4
def stepChannels : Nat := 5
def stepLinks : Nat := 6
def stepRunning : Nat := 7
def stepRecovery : Nat := 8
def stepPowerLimit : Nat := 9

def State.bootStep (s : State) : Nat := s.rd .far Reg.farBoot_STEP

/-- The main domain runs and PCIe is up: the start has passed step 6 of R543. A farrier that
restarts leaves the main domain running (R553). -/
def State.mainUp (s : State) : Bool := s.dev.mainRuns

/-- A master reaches a page (R546): the host only after step 6, and a channel's pages only while
the channel is READY. -/
def State.reaches (s : State) (m : Master) (p : Page) : Bool :=
  match m with
  | .host => s.mainUp && (pageCh? p).elim true fun c => s.isReady c
  | .groom _ => s.mainUp
  | .farrier => true
  | .peer _ => s.mainUp

/-- Offsets of the window registers that a groom may write on hub pages (R650, R306, R428, R439,
R451, R478). -/
def groomWindow (p : Page) (off : Nat) : Bool :=
  match p with
  | .strm => off = 0x100 || off = 0x104 || (0x120 ≤ off && off < 0x140)
  | .ctx => off = 0x100 || off = 0x104 || (0x120 ≤ off && off < 0x140)
  | .dlm => off = 0x100 || off = 0x104 || (0x120 ≤ off && off < 0x140)
  | .hmmu => off = 0x110 || off = 0x120 || off = 0x124 || off = 0x128
  | _ => false

/-- The sender of a mailbox (R488). -/
def mbxSender (m : MbxId) : Master :=
  if m.val = 0 then .host
  else if m.val = 1 then .farrier
  else if m.val < 6 then .farrier
  else if m.val < 10 then .groom (Fin.ofNat 4 (m - 6))
  else if m.val < 26 then .farrier
  else .peer (Fin.ofNat 16 (m - 26))

/-- The receiver of a mailbox (R488). The receiver of POp is the farrier of the peer. -/
def mbxReceiver (m : MbxId) : Master :=
  if m.val = 0 then .farrier
  else if m.val = 1 then .host
  else if m.val < 6 then .groom (Fin.ofNat 4 (m - 2))
  else if m.val < 10 then .farrier
  else if m.val < 26 then .peer (Fin.ofNat 16 (m - 10))
  else .farrier

/-- What the chapters restrict on mailbox pages (R489, R495): the staging words, MBX_SEND,
MBX_SEND_ALT, MBX_CANCEL, MBX_SSTAT and MBX_ACK_STAT are the sender's, MBX_CFG the farrier's, the
rest the receiver's. A PIp page has no sender and a POp page no receiver of this device. -/
def mbxWriter (m : MbxId) (off : Nat) (by' : Master) : Bool :=
  if off < 0x160 then by' = mbxSender m
  else if off = 0x160 then by' = .farrier
  else by' = mbxReceiver m

/-- The registers that a master may write (R650, R106, R489, R495, R537, R578, R615). The header of a doorbell page
takes no write (R657). -/
def mayWrite (m : Master) (p : Page) (off : Nat) : Bool :=
  (match p with
    | .mbx b => off < 0x100 || mbxWriter b off m
    | .hlk _ => off ≠ 0x130 || m = .farrier
    | .door _ _ => 0x100 ≤ off
    | _ => true) &&
  match m with
  | .farrier => true
  | .groom c =>
    match p with
    | .mbx b => b.val = 2 + c.val || b.val = 6 + c.val
    | .strm | .ctx | .dlm | .hmmu => groomWindow p off || (0x40 ≤ off && off < 0x50)
    | .hif | .far | .rpl | .pwr | .clk | .ras | .hlk _ => 0x40 ≤ off && off < 0x50
    | _ => pageCh? p = some c
  | .host =>
    match p with
    | .door _ _ => off = 0x100 || off = 0x108 || off = 0x10c
    | .eng _ _ =>
      (0x10 ≤ off && off < 0x28 && off ≠ 0x18) || (0x40 ≤ off && off < 0x54) || 0x110 ≤ off
    | _ =>
      (0x10 ≤ off && off < 0x28 && off ≠ 0x18) || (0x40 ≤ off && off < 0x54) || 0x100 ≤ off
        || (off = 0x08 && (match p with | .ring _ _ | .hlk _ => true | _ => false))
  | .peer _ => false

/-- A write of a master to an offset of a page takes effect, as far as R546 and R650 go. Registers
of a channel that the farrier holds in reset take no write at all (R546), and those of a replay's target
none of the host (R636). -/
def State.writable (s : State) (m : Master) (p : Page) (off : Nat) : Bool :=
  s.reaches m p && !(m = .host && !s.recorder.forcing && (pageCh? p).elim false fun c => s.replayHolds c)
    && mayWrite m p off && (pageCh? p).elim true fun c => s.chState c ≠ chRetired

/-- The page and offset of a BAR0 address. -/
def placeOf (a : BarAddr) : Option (Page × Nat) :=
  (pageAt? (a.toNat / 4096)).map fun p => (p, a.toNat % 4096)

end Sys2Proof.Machine
end

