-- ==== Sys2Proof/Machine/Mailboxes.lean ====
section
/-!
DEFINITION. Locks and mailboxes (chapter 15), the AtomicOp route of the endpoint (R540), and the
peer mailboxes and remote locks of the harness (R527 to R529, R537).
-/

namespace Sys2Proof.Machine

/-! ## Locks (R505 to R508) -/

/-- The owner's tag of lock `i` of a page; a doorbell page's locks read as a tag of no master (R657). -/
def State.lockOwner (s : State) (p : Page) (i : Nat) : Nat :=
  match p with
  | .door _ _ => 0xff
  | _ => s.rd p (Reg.lock_OWNER i)

/-- A read-acquire (R506): the value that the read returns, and the state after it. -/
def State.acquire (s : State) (p : Page) (i tag : Nat) : Nat × State :=
  let owner := s.lockOwner p i
  if owner = 0 then (0, s.wr p (Reg.lock_OWNER i) tag) else (owner, s)

/-- A release by a tag: it frees the lock that the tag holds and changes nothing otherwise. -/
def State.release (s : State) (p : Page) (i tag : Nat) : State :=
  if s.lockOwner p i = tag then s.wr p (Reg.lock_OWNER i) 0 else s

/-- A master holds lock `i` of a page. -/
def State.holdsLock (s : State) (m : Master) (p : Page) (i : Nat) : Bool :=
  s.lockOwner p i = masterTag m

/-- The lock register at an offset of the common header (R651). -/
def lockAt? (off : Nat) : Option Nat :=
  if 0x40 ≤ off ∧ off < 0x50 ∧ off % 4 = 0 then some ((off - 0x40) / 4) else none

/-- Every lock that a tag holds is released, on every page (R508). -/
def State.releaseAll (s : State) (tag : Nat) : State :=
  { s with regs := s.regs.map fun r =>
      if (lockAt? (r.1 % 4096)).isSome ∧ r.1 < 0x3000000 ∧ bitsOf r.2 0 8 = tag then
        (r.1, setBits r.2 0 8 0)
      else r }

/-- LOCK_READ_ACQUIRE (R506, R507): the read returns the lock's tag to the master and acquires a
free lock for it. -/
def execLockReadAcquire (m : Master) (a : BarAddr) (s : State) : Result :=
  live s <|
    match placeOf a with
    | some (p, off) =>
      match lockAt? off with
      | some i =>
        if s.reaches m p then
          let (v, s1) := s.acquire p i (masterTag m)
          let s2 := (pageCh? p).elim (s1.logTo 4 domHub (.dec 0x09 (masterTag m)))
            fun c => s1.logLock c (masterTag m)
          s2.emit (.read m v)
        else s.emit (.read m 0)
      | none => s
    | none => s

/-- LOCK_RELEASE (R506): a write of 0 by the owner releases the lock; any other write of a lock
register is ignored. -/
def execLockRelease (m : Master) (a : BarAddr) (s : State) : Result :=
  live s <|
    match placeOf a with
    | some (p, off) =>
      match lockAt? off with
      | some i => if s.writable m p off then s.release p i (masterTag m) else s
      | none => s
    | none => s

/-- LOCK_FORCE (R506): the farrier's write of FORCE releases the lock; it is ignored from another
master. -/
def execLockForce (m : Master) (a : BarAddr) (s : State) : Result :=
  live s <|
    match placeOf a with
    | some (p, off) =>
      match lockAt? off with
      | some i =>
        if m = .farrier ∧ s.writable m p off then s.release p i (s.lockOwner p i) else s
      | none => s
    | none => s

/-! ## Mailboxes (R488 to R504) -/

def isPo (b : MbxId) : Bool := 10 ≤ b.val && b.val < 26
def isPi (b : MbxId) : Bool := 26 ≤ b.val
/-- The port of a peer mailbox. -/
def mbxPort (b : MbxId) : PortId := Fin.ofNat 16 (if b.val < 26 then b - 10 else b - 26)
def poBox (p : PortId) : MbxId := ⟨10 + p, by omega⟩
def piBox (p : PortId) : MbxId := ⟨26 + p, by omega⟩
def fgBox (c : Ch) : MbxId := ⟨2 + c, by omega⟩
def gfBox (c : Ch) : MbxId := ⟨6 + c, by omega⟩
def hfBox : MbxId := 0
def fhBox : MbxId := 1

/-- LINK of HLK_STAT reads UP (R533). -/
def State.linkUp (s : State) (p : PortId) : Bool := s.rd (.hlk p) Reg.hlkStat_LINK = 2

/-- A message joins the egress of a port (R512, R514). -/
def State.toEgress (s : State) (p vc : Nat) (m : LinkMsg) : State :=
  s.modPort p fun x => { x with egress := Tab.set x.egress vc (Tab.get [] x.egress vc ++ [m]) }

/-- A control message joins the egress of a port (R512: 16 to 80 bytes). -/
def State.sendCtrl (s : State) (p : PortId) (m : CtrlMsg) : State :=
  let n := match m with | .message _ _ => 80 | _ => 16
  s.toEgress p 0 { body := .ctrl m, bytes := n }

/-- The control message at the head of the receive buffer leaves it, and its credit is owed (R515). -/
def State.takeCtrl (s : State) (p : PortId) : State :=
  s.modPort p fun x =>
    match Tab.get [] x.rx 0 with
    | .ctrl _ :: rest =>
      { x with rx := Tab.set x.rx 0 rest, owed := Tab.set x.owed 0 (Tab.get 0 x.owed 0 + 1) }
    | _ => x

/-- The staging words of a mailbox (R491). -/
def State.stageWords (s : State) (b : MbxId) : List Nat :=
  (List.range 16).map fun i => s.word (.mbx b) (0x100 + 4 * i)

/-- The words of the message in the slot. -/
def State.dataWords (s : State) (b : MbxId) : List Nat :=
  (List.range 16).map fun i => s.word (.mbx b) (0x180 + 4 * i)

/-- Words stored from an offset of a page on. -/
def State.setWords (s : State) (p : Page) (off : Nat) : List Nat → State
  | [] => s
  | w :: ws => (s.setWord p off w).setWords p (off + 4) ws

/-- The receiver cannot take the message at all: a parked groom, or the farrier of a peer whose
port is not UP (R500). -/
def State.receiverGone (s : State) (b : MbxId) : Bool :=
  if isPo b then !s.linkUp (mbxPort b)
  else if 2 ≤ b.val ∧ b.val < 6 then
    s.rd .pwr (Reg.pwrChStat_PSTATE (b - 2)) = 2
  else false

/-- The channel whose groom sends or receives by a mailbox. -/
def mbxCh? (b : MbxId) : Option Nat :=
  if 2 ≤ b.val ∧ b.val < 6 then some (b - 2) else if 6 ≤ b.val ∧ b.val < 10 then some (b - 6) else none

/-- A record of the mailbox's decision, in the log of its channel or in log 4 (R624, R619). -/
def State.logAccept (s : State) (b : MbxId) (v : Nat) : State :=
  (mbxCh? b).elim (s.logTo 4 domHub (.dec 0x09 v)) fun c => s.logLock c v

/-- MBX_SSTAT.TIMEOUT sets (R500). -/
def State.mailTimeout (s : State) (b : MbxId) : State :=
  let s1 := (s.wr (.mbx b) Reg.mbxSstat_TIMEOUT 1).raise (.mbx b) 2
  (mbxCh? b).elim (s1.logTo 4 domHub (.out 0x06 (0x20 + b))) fun c => s1.logOut c 0x06 (0x20 + b)

/-- Messages for the groom of a replay's target wait until the replay ends (R636). -/
def State.mailWaits (s : State) (b : MbxId) : Bool :=
  2 ≤ b.val && b.val < 6 && s.replayHolds (b - 2) && !s.recorder.forcing

/-- An accepted send (R498): the words fill the slot, SEQ advances, RX_FULL sets. A peer message
joins the port's egress (R527), a message to a groom is an input of its channel (R621). -/
def State.acceptSend (s : State) (b : MbxId) (ws : List Nat) : State :=
  let p := Page.mbx b
  let seq := (s.rd p Reg.mbxSstat_SEQ + 1) % 2 ^ 15
  let s1 := (((s.setWords p 0x180 ws).wr p Reg.mbxSstat_SEQ seq).modSlot b
    fun _ => { full := true, read := false, seq := seq }).raise p 0
  let s2 := s1.logAccept b 0
  let s3 :=
    if isPo b then
      if s2.linkUp (mbxPort b) then
        s2.sendCtrl (mbxPort b)
          (.message (BitVec.ofNat 15 seq) (Vector.ofFn fun i => BitVec.ofNat 32 (ws.getD i.val 0)))
      else s2
    else if 2 ≤ b.val ∧ b.val < 6 then
      s2.logInput (b - 2) (domArith (b - 2)) 0x3 (ws.flatMap (leBytes 4))
    else s2
  if s.receiverGone b then s3.mailTimeout b else s3

/-- An answer of the farrier that waits is sent once FH is empty and the farrier runs (R553, R610). -/
def State.flushAnswers (s : State) : State :=
  match s.dev.answers with
  | ws :: rest =>
    if !s.dev.farrierUp || (s.slot fhBox).full then s
    else ((s.modDev fun d => { d with answers := rest }).setWords (.mbx fhBox) 0x100 ws).acceptSend fhBox ws
  | [] => s

/-- A rejected send changes nothing but the count of rejections (R498). -/
def State.rejectSend (s : State) (b : MbxId) : State :=
  (s.bump (.mbx b) Reg.mbxSstat_REJ_CNT).logAccept b 1

/-- MBX_SSTAT as a read returns it (R493): FULL is the slot's. On a PIp page it reads 0 (R489). -/
def State.sstatWord (s : State) (b : MbxId) : Nat :=
  if isPi b then 0 else setBits (s.word (.mbx b) 0x14c) 0 1 (bit (s.slot b).full)

/-- A posted send of the host (R498): a rejection drops the write and sets SEND_REJECT. -/
def State.postedSend (s : State) (b : MbxId) : State :=
  if (s.slot b).full then
    ((s.rejectSend b).wr (.mbx b) Reg.mbxSstat_SEND_REJECT 1).raise (.mbx b) 3
  else s.acceptSend b (s.stageWords b)

/-- MBX_SEND (R498): a write of GO by the sender. The farrier and the grooms take a bus fault on a
rejection; a host write acts as one to MBX_SEND_ALT. -/
def execMbxSend (m : Master) (b : MbxId) (s : State) : Result :=
  live s <|
    if s.writable m (.mbx b) 0x140 && !s.mailWaits b then
      if m = .host then s.postedSend b
      else if (s.slot b).full then (s.rejectSend b).emit (.busFault m)
      else s.acceptSend b (s.stageWords b)
    else s

/-- MBX_SEND_ALT (R498). -/
def execMbxSendAlt (m : Master) (b : MbxId) (s : State) : Result :=
  live s <| if s.writable m (.mbx b) 0x144 && !s.mailWaits b then s.postedSend b else s

/-- ATOMIC_SWAP_SEND (R498, R540, R542): the completion returns MBX_SSTAT as it stood before the
send, or a rejection completes with Completer Abort. A swap of a value whose GO is 0 sends nothing. -/
def execAtomicSwapSend (v : Word) (s : State) : Result :=
  live s <|
    if s.mainUp then
      if v.toNat % 2 = 0 then s.emit (.completion .ok (s.sstatWord hfBox))
      else if (s.slot hfBox).full then
        (((s.rejectSend hfBox).bump .hif Reg.hifCnt_CA).emit (.completion .abort 0)).emit
          (.aer .advisoryAbort)
      else (s.acceptSend hfBox (s.stageWords hfBox)).emit (.completion .ok (s.sstatWord hfBox))
    else s

/-- UNSUPPORTED_ATOMICOP (R540, R542): Unsupported Request, and nothing changes but its count. -/
def execUnsupportedAtomicop (_ : BarAddr) (s : State) : Result :=
  live s <|
    if s.mainUp then
      ((s.bump .hif Reg.hifCnt_UR).emit (.completion .unsupported 0)).emit (.aer .advisoryUnsupported)
    else s

/-- FULL of a slot clears; the peer of a PIp mailbox gets a receipt (R499, R527). -/
def State.clearSlot (s : State) (b : MbxId) (receipt : Receipt) : State :=
  let s1 := (s.modSlot b fun x => { x with full := false }).flushAnswers
  if isPi b ∧ s.linkUp (mbxPort b) then s1.sendCtrl (mbxPort b) (.receipt receipt) else s1

/-- MODE of a mailbox: true for ACKED (R495). -/
def State.acked (s : State) (b : MbxId) : Bool := s.flag (.mbx b) Reg.mbxCfg_MODE

/-- MBX_RECV as a read returns it (R496). On a POp page it reads 0 (R489). -/
def State.recvWord (s : State) (b : MbxId) : Nat :=
  let x := s.slot b
  if isPo b then 0 else x.seq % 2 ^ 15 + bit x.full * 2 ^ 15 + bit x.read * 2 ^ 16

/-- MBX_RECV_READ (R489, R499): a read by the receiver sets READ, and in PLAIN mode its first read
clears FULL. A read by another master has no side effect. -/
def execMbxRecvRead (m : Master) (b : MbxId) (s : State) : Result :=
  live s <|
    if s.reaches m (.mbx b) then
      let s1 := s.emit (.read m (s.recvWord b))
      if m = mbxReceiver b ∧ !isPo b ∧ (s.slot b).full then
        let s2 := s1.modSlot b fun x => { x with read := true }
        if s.acked b then s2 else s2.clearSlot b .read
      else s1
    else s.emit (.read m 0)

/-- MBX_ACK (R499): an acknowledgement of an ACKED message clears FULL and fills MBX_ACK_STAT. -/
def execMbxAck (m : Master) (b : MbxId) (code : BitVec 16) (s : State) : Result :=
  live s <|
    if s.writable m (.mbx b) 0x1c4 ∧ (s.slot b).full ∧ s.acked b ∧ !isPo b then
      let seq := (s.slot b).seq
      let s1 := s.clearSlot b (.ack code (BitVec.ofNat 15 seq))
      if isPi b then s1
      else
        (s1.setWord (.mbx b) 0x150 (code.toNat + seq % 2 ^ 15 * 2 ^ 16 + 2 ^ 31)).raise (.mbx b) 1
    else s

/-- MBX_CANCEL (R499, R528): the sender withdraws a message not yet read. On POp the cancel travels
to the peer, or clears FULL at once while the port is not UP. -/
def execMbxCancel (m : Master) (b : MbxId) (v : Word) (s : State) : Result :=
  live s <|
    if s.writable m (.mbx b) 0x148 ∧ v.toNat % 2 = 1 ∧ (s.slot b).full then
      if isPo b then
        if s.linkUp (mbxPort b) then s.sendCtrl (mbxPort b) .cancel
        else s.modSlot b fun x => { x with full := false }
      else if (s.slot b).read then s
      else (s.modSlot b fun x => { x with full := false }).flushAnswers
    else s

/-- The mailbox is one of a replay's target, whose live timer does not act (R637). -/
def State.timerOff (s : State) (b : MbxId) : Bool := (mbxCh? b).any fun c => s.replayOn c

/-- MBX_TIMEOUT (R500): FULL has stayed 1 for TMO × 1,024 sender cycles. A TMO of 0 disables it. -/
def execMbxTimeout (b : MbxId) (s : State) : Result :=
  live s <|
    if (s.slot b).full ∧ s.rd (.mbx b) Reg.mbxCfg_TMO ≠ 0 ∧ !s.timerOff b then s.mailTimeout b else s

/-! ## Peer mailboxes and remote locks (R527 to R529, R537) -/

/-- PEER_MESSAGE_ARRIVAL (R527): the message lands in PIp. A slot that is FULL rejects it (R498). -/
def execPeerMessageArrival (p : PortId) (seq : BitVec 15) (words : Vector Word 16) (s : State) :
    Result :=
  live s <|
    if s.linkUp p then
      let b := piBox p
      let s1 := s.takeCtrl p
      if (s1.slot b).full then s1.bump (.mbx b) Reg.mbxSstat_REJ_CNT
      else
        ((s1.setWords (.mbx b) 0x180 (words.toList.map BitVec.toNat)).modSlot b
          fun _ => { full := true, read := false, seq := seq.toNat }).raise (.mbx b) 0
    else s

/-- PEER_RECEIPT_ARRIVAL (R527, R528): POp's FULL clears; an ACK fills MBX_ACK_STAT. -/
def execPeerReceiptArrival (p : PortId) (r : Receipt) (s : State) : Result :=
  live s <|
    if s.linkUp p then
      let b := poBox p
      let s1 := (s.takeCtrl p).modSlot b fun x => { x with full := false }
      match r with
      | .read => s1.raise (.mbx b) 0
      | .ack code seq =>
        (s1.setWord (.mbx b) 0x150 (code.toNat + seq.toNat * 2 ^ 16 + 2 ^ 31)).raise (.mbx b) 1
      | .cancelled => s1
    else s

/-- A remote lock request of the farrier (R529, R537). A write while BUSY is 1 is ignored; a request
on a port that is not UP ends at once as lost. -/
def State.rlock (s : State) (m : Master) (p : PortId) (page : BitVec 12) (lock : Fin 4)
    (release : Bool) : State :=
  let h := Page.hlk p
  if m = .farrier ∧ !s.flag h Reg.hlkRlock_BUSY then
    let s1 := (((s.wr h Reg.hlkRlock_PAGE page.toNat).wr h Reg.hlkRlock_LOCK lock).wr h
      Reg.hlkRlock_OP (bit release)).wr h Reg.hlkRlock_LOST 0
    if s1.linkUp p then
      (((s1.wr h Reg.hlkRlock_BUSY 1).modPort p fun x => { x with lockSent := true })).sendCtrl p
        (.lockRequest page lock release)
    else s1.wr h Reg.hlkRlock_LOST 1
  else s

/-- RLOCK_ACQUIRE (R537). -/
def execRlockAcquire (m : Master) (p : PortId) (page : BitVec 12) (lock : Fin 4) (s : State) :
    Result :=
  live s <| s.rlock m p page lock false

/-- RLOCK_RELEASE (R537). -/
def execRlockRelease (m : Master) (p : PortId) (page : BitVec 12) (lock : Fin 4) (s : State) :
    Result :=
  live s <| s.rlock m p page lock true

/-- RLOCK_REQUEST_ARRIVAL (R529): the request is performed under the peer's tag, and the value of
the read goes back. A page that holds no hub block gives 0xFF. What a release returns is open. -/
def execRlockRequestArrival (p : PortId) (page : BitVec 12) (lock : Fin 4) (release : Bool)
    (s : State) : Result :=
  live s <|
    if s.linkUp p then
      let s1 := s.takeCtrl p
      let tag := masterTag (.peer p)
      match hubPage? page.toNat with
      | none => s1.sendCtrl p (.lockReply 0xff)
      | some q =>
        if release then
          (s1.release q lock tag).draw.sendCtrl p
            (.lockReply (BitVec.ofNat 8 (Config.openValue s1.drawn)))
        else
          let (v, s2) := s1.acquire q lock tag
          s2.sendCtrl p (.lockReply (BitVec.ofNat 8 v))
    else s

/-- RLOCK_REPLY (R537): RESULT takes the value, BUSY clears and RLOCK_DONE sets. -/
def execRlockReply (p : PortId) (value : Byte) (s : State) : Result :=
  live s <|
    let h := Page.hlk p
    if s.flag h Reg.hlkRlock_BUSY then
      ((((s.takeCtrl p).wr h Reg.hlkRlock_RESULT value.toNat).wr h Reg.hlkRlock_BUSY 0).modPort p
        fun x => { x with lockSent := false }).raise h 3
    else s

end Sys2Proof.Machine
end

