-- ==== Sys2Proof/Machine/Translation.lean ====
section
/-!
DEFINITION. Address translation (chapter 13): the caches and walks, the faults and their records,
RETRY, invalidation, and the accesses that data movements make through translation.
-/

namespace Sys2Proof.Machine

/-! ## Caches -/

def cacheKey : CacheId → Nat
  | .cmmu c => c
  | .hmmu => 4

/-- Sets, ways and walkers of a cache (R423). -/
def cacheSets : CacheId → Nat | .cmmu _ => 256 | .hmmu => 128
def cacheWalkers : CacheId → Nat | .cmmu _ => 8 | .hmmu => 4
def cacheWays : Nat := 8

def State.cache (s : State) (k : CacheId) : Cache := Tab.get {} s.xlat.caches (cacheKey k)
def State.modCache (s : State) (k : CacheId) (f : Cache → Cache) : State :=
  s.modXlat fun x => { x with caches := Tab.set x.caches (cacheKey k) (f (s.cache k)) }

/-- The page sizes of R416 and R418, as powers of two. -/
def pageSizes : List Nat := [12, 16, 21, 30]

/-- The set of a translation: its page number modulo the number of sets. -/
def setOf (k : CacheId) (va size : Nat) : Nat := va / 2 ^ size % cacheSets k

/-- A translation serves an address of a context. -/
def Xlat.covers (x : Xlat) (ctx va : Nat) : Bool :=
  x.ctx = ctx && x.va = va / 2 ^ x.size * 2 ^ x.size

/-- The cached translation of an address. -/
def Cache.find (x : Cache) (k : CacheId) (ctx va : Nat) : Option Xlat :=
  (pageSizes.filterMap fun size =>
    (Tab.get [] x.sets (setOf k va size)).find? fun t => t.size = size && t.covers ctx va).head?

/-- A used translation becomes the most recently used of its set (R425). -/
def Cache.touch (x : Cache) (k : CacheId) (t : Xlat) : Cache :=
  let i := setOf k t.va t.size
  { x with sets := Tab.set x.sets i (t :: (Tab.get [] x.sets i).filter (· ≠ t)) }

/-- The set without its least recently used way that is not pinned (R425). -/
def evictOne (ts : List Xlat) : List Xlat :=
  match ts.reverse.find? fun t => !t.pinned with
  | some v => ts.filter (· ≠ v)
  | none => ts

/-- A translation enters its set, in the place of an older one of the same page or of the way that
replacement picks; it is pinned when the set holds fewer than two pinned ways (R425). -/
def Cache.insert (x : Cache) (k : CacheId) (t : Xlat) : Cache :=
  let i := setOf k t.va t.size
  let old := (Tab.get [] x.sets i).filter fun u => !(u.ctx = t.ctx && u.va = t.va && u.size = t.size)
  let room := if old.length < cacheWays then old else evictOne old
  let pin := t.pinned && (room.filter (·.pinned)).length < 2
  { x with sets := Tab.set x.sets i ({ t with pinned := pin } :: room) }

/-- Translations that satisfy a test leave the cache, and so do results not yet used. -/
def Cache.drop (x : Cache) (p : Xlat → Bool) : Cache :=
  { x with
    sets := x.sets.map fun e => (e.1, e.2.filter fun t => !p t)
    ready := x.ready.filter fun e => !p e.2 }

/-! ## Requesters -/

/-- The channel of a requester; none for a hub block (R436). -/
def reqCh? : RequesterId → Option Ch
  | .ringFetch c _ | .splitRead c _ | .addrGen c _ _ | .drain c _ | .scan c _ | .initRead c _ | .cvu c
  | .copy c => some c
  | .lodger c _ | .transfer c _ _ | .seal c _ _ | .save c _ | .landing c _ | .sync c _ => some c
  | .completion c _ => some c
  | .recorder _ => none
  | .walk (.cmmu c) _ => some c
  | .walk .hmmu _ => none

/-- REQ of a requester (R437). -/
def reqCode : RequesterId → Nat
  | .ringFetch _ _ => 0x0 | .splitRead _ _ => 0x1 | .addrGen _ _ _ => 0x2 | .drain _ _ => 0x3
  | .scan _ _ => 0x4 | .cvu _ => 0x5 | .copy _ => 0x6 | .lodger _ _ => 0x7 | .transfer _ _ _ => 0x8
  | .initRead _ _ => 0x8
  | .seal _ _ _ => 0x9 | .landing _ _ => 0xa | .save _ _ => 0xb | .sync _ _ => 0xc
  | .recorder _ => 0xd | .completion _ _ => 0xe | .walk _ _ => 0xf

/-- The engine slot of a requester, or 0x7F outside the engines (R436). -/
def reqSlot : RequesterId → Nat
  | .addrGen _ e _ | .drain _ e | .scan _ e | .seal _ e _ => e
  | .ringFetch _ _ | .splitRead _ _ | .cvu _ | .copy _ | .lodger _ _ | .transfer _ _ _ | .initRead _ _ => 0x7f
  | .save _ _ => 0x7f
  | .landing _ _ | .sync _ _ | .recorder _ | .completion _ _ | .walk _ _ => 0x7f

/-- The cache that a requester's accesses use (R423). -/
def reqCache (r : RequesterId) : CacheId :=
  match reqCh? r with
  | some c => .cmmu c
  | none => .hmmu

/-- The slot that holds the context, for ENG_TSLOTn.CTX and for residence (R448). -/
def State.slotOfCtx (s : State) (ctx : Nat) : Option Nat :=
  (List.range 8).find? fun i => s.rd .ctx (Reg.ctxSlot_STATE i) ≠ 0 ∧ s.rd .ctx (Reg.ctxSlot_CTX i) = ctx

/-- A requester that serves the contexts in turn: its stall goes with its context when a save takes the
context away (R444). -/
def shared : RequesterId → Bool
  | .addrGen _ _ _ | .drain _ _ | .scan _ _ | .initRead _ _ | .cvu _ | .copy _ | .lodger _ _ | .seal _ _ _ => true
  | .ringFetch _ _ | .splitRead _ _ | .transfer _ _ _ | .save _ _ | .landing _ _ => false
  | .sync _ _ | .recorder _ | .completion _ _ | .walk _ _ => false

/-- A requester is stalled on a fault (R434). -/
def State.stalled (s : State) (r : RequesterId) : Bool :=
  (s.xlat.faults ++ s.xlat.overflow).any fun f =>
    f.access.req = r && (!shared r || (s.slotOfCtx f.access.ctx).isSome)

/-! ## Faults -/

def causeNotPresent : Nat := 0x01
def causeWriteProt : Nat := 0x02
def causeBadEntry : Nat := 0x03
def causeOutOfRange : Nat := 0x04
def causeWalkError : Nat := 0x05
def causeBusError : Nat := 0x06
def causeChannelDown : Nat := 0x07
def causeNoContext : Nat := 0x08

/-- Slots of a context's fault ring that hold a record without a disposition (R438). -/
def State.ringBusy (s : State) (ctx slot : Nat) : Bool :=
  s.xlat.faults.any fun f => f.access.ctx = ctx && f.recorded = some slot

/-- Faults that wait for a fault table entry or for a ring slot: HMMU_FSTAT.HELD (R445). -/
def State.heldFaults (s : State) : Nat :=
  s.xlat.overflow.length + (s.xlat.faults.filter fun f =>
    f.cause ≠ causeNoContext && f.recorded = none &&
      s.ringBusy f.access.ctx (Tab.get {} s.xlat.rings f.access.ctx).next).length

/-- HMMU INT_RAW.HELD sets where HELD has risen from 0 since an earlier state (R655). -/
def State.heldSince (s before : State) : State :=
  if before.heldFaults = 0 ∧ s.heldFaults ≠ 0 then s.raise .hmmu 1 else s

/-- What a stalled requester shows beside its fault: its status, its count and its interrupt
(R251, R298, R343, R369, R380, R655). -/
def State.onStall (s : State) (r : RequesterId) : State :=
  match r with
  | .ringFetch c r => (s.wr (.door c r) Reg.ringHead_FETCH_FAULT 1).raise (.ring c r) 3
  | .addrGen c e _ => s.raise (.eng c e) 2
  | .drain c e => (s.bump (.eng c e) Reg.engDrainCnt_STALLS).raise (.eng c e) 2
  | .cvu c => (s.bump (.cvu c) Reg.cvuCnt_STALLS).raise (.cvu c) 0
  | .lodger c b =>
    (s.wr (.wst c) (if b = 0 then Reg.wstStat_BUF0 else Reg.wstStat_BUF1) 3).raise (.wst c) 2
  | .transfer c _ _ => s.raise (.grm c) 2
  | .save _ slot =>
    if s.rd .ctx (Reg.ctxSlot_STATE slot) = 3 then s.wr .ctx (Reg.ctxSlot_STATE slot) 4 else s
  | .splitRead _ _ | .scan _ _ | .initRead _ _ | .copy _ | .seal _ _ _ | .landing _ _ | .sync _ _ => s
  | .recorder _ | .completion _ _ | .walk _ _ => s

/-- What ends with the stall of a requester. -/
def State.onResume (s : State) (r : RequesterId) : State :=
  match r with
  | .ringFetch c r => s.wr (.door c r) Reg.ringHead_FETCH_FAULT 0
  | .lodger c b => s.wr (.wst c) (if b = 0 then Reg.wstStat_BUF0 else Reg.wstStat_BUF1) 1
  | .save _ slot =>
    let other : Bool := (List.range 4).any fun c => s.stalled (.save (Fin.ofNat 4 c) slot)
    if s.rd .ctx (Reg.ctxSlot_STATE slot) = 4 && !other then s.wr .ctx (Reg.ctxSlot_STATE slot) 3 else s
  | .addrGen _ _ _ | .drain _ _ | .cvu _ | .transfer _ _ _ | .splitRead _ _ | .scan _ _ | .initRead _ _
  | .copy _ => s
  | .seal _ _ _ | .landing _ _ | .sync _ _ | .recorder _ | .completion _ _ | .walk _ _ => s

/-- A fault takes a FAULTID and an entry of the hub's table, or waits for an entry (R435). -/
def State.enterFault (s : State) (f : FaultEntry) : State :=
  if s.xlat.faults.length < 1024 then
    let id := s.xlat.nextId
    let s1 := s.modXlat fun x =>
      { x with faults := x.faults ++ [{ f with id := id }], nextId := (id + 1) % 2 ^ 24 }
    let s2 :=
      if f.cause = causeNoContext then
        ((s1.wr .hmmu Reg.hmmuNoctx_FAULTID id).wr .hmmu Reg.hmmuNoctx_CTX f.access.ctx).raise .hmmu 3
      else
        match reqCh? f.access.req with
        | some c => (s1.bump (.cmmu c) Reg.cmmuCnt_FAULTS).raise (.cmmu c) 0
        | none => s1
    match reqCh? f.access.req with
    | some c => s2.logOut c 0x04 (id + f.cause * 2 ^ 24)
    | none => s2.logTo 4 domHub (.out 0x04 (id + f.cause * 2 ^ 24))
  else s.modXlat fun x => { x with overflow := x.overflow ++ [f] }

/-- A translation or an access fails: its requester stalls with the access at its head (R434). In a replay
it stops the replay (R638). -/
def State.fault (s : State) (a : MemAccess) (cause level : Nat) : State :=
  let f : FaultEntry :=
    { id := 0, cause := cause, level := level, access := a
      entry := if s.xlat.ctt.any (·.1 = a.ctx) then
          some (Tab.get ⟨0, .host, 0, 0, 0, false⟩ s.xlat.ctt a.ctx) else none }
  if (reqCh? a.req).elim false fun c => s.replayOn c then s.stopReplay stopControl
  else ((s.enterFault f).onStall a.req).heldSince s

/-- A fault leaves the table; the oldest fault that waits for an entry takes one (R435). -/
def State.freeFault (s : State) (id : Nat) : State :=
  let s1 := s.modXlat fun x => { x with faults := x.faults.filter fun f => f.id ≠ id }
  match s1.xlat.overflow with
  | f :: rest => (s1.modXlat fun x => { x with overflow := rest }).enterFault f
  | [] => s1

/-! ## Walks -/

/-- The first read of a walk of a context: its table entry, or the level-0 table where the entry is
cached (R416, R422). -/
def State.firstStage (s : State) (ctx : Nat) : WalkStage :=
  match s.xlat.ctt.find? (·.1 = ctx) with
  | some e => .level 0 e.2.target e.2.root
  | none => .table

/-- A walker takes an access, or the access joins the walk of its page, or waits (R424). A context
translation table that is not enabled makes the access fault at once (R422). -/
def State.walkFor (s : State) (k : CacheId) (a : MemAccess) : State :=
  let x := s.cache k
  let same (b : MemAccess) : Bool := b.ctx = a.ctx && b.va / 4096 = a.va / 4096
  if (x.walks.any fun w => w.2.joined.contains a) || x.waiting.contains a then s
  else
    let s0 := match k with
      | .cmmu c => s.bump (.cmmu c) Reg.cmmuCnt_MISSES
      | .hmmu => s
    if !s0.flag .hmmu Reg.hmmuCtt_EN then s0.fault a causeNoContext 0
    else
      match x.walks.find? fun w => w.2.joined.any same with
      | some (i, w) => s0.modCache k fun x =>
          { x with walks := Tab.set x.walks i { w with joined := w.joined ++ [a] } }
      | none =>
        match (List.range (cacheWalkers k)).find? fun i => !(x.walks.any fun w => w.1 = i) with
        | some i => s0.modCache k fun x =>
            { x with walks := Tab.set x.walks i { stage := s0.firstStage a.ctx, joined := [a] } }
        | none => s0.modCache k fun x => { x with waiting := x.waiting ++ [a] }

/-- A finished walk frees its walker, and the oldest access that waits takes it (R424). -/
def State.endWalk (s : State) (k : CacheId) (i : Nat) : State :=
  let s1 := s.modCache k fun x => { x with walks := Tab.erase x.walks i }
  match (s1.cache k).waiting with
  | a :: rest => (s1.modCache k fun x => { x with waiting := rest }).walkFor k a
  | [] => s1

/-- A walk ends in a fault for every access that joined it (R426, R435). -/
def State.walkFault (s : State) (k : CacheId) (i : Nat) (w : Walk) (cause level : Nat) : State :=
  (w.joined.foldl (fun s a => s.fault a cause level) (s.modCache k fun x =>
    { x with walks := Tab.erase x.walks i })).endWalk k i

def targetOf (tgt ch : Nat) : Target :=
  if tgt = 1 then .hbm (Fin.ofNat 4 ch) else if tgt = 2 then .ast (Fin.ofNat 4 ch) else .host

/-- An entry of the context translation table (R421), unless it is unusable (R422). -/
def parseCtt (v : Nat) : Option CttEntry :=
  let reserved := bitsOf v 5 7 + bitsOf v 52 12 + bitsOf v 68 8 + bitsOf v 116 12 + bitsOf v 140 116
  let root := bitsOf v 12 40 * 4096
  if bitsOf v 0 1 = 0 ∨ reserved ≠ 0 ∨ 2 ≤ bitsOf v 1 2 ∨
      (bitsOf v 1 2 = 1 ∧ Config.hbmBytes ≤ root) then none
  else some
    { root := root, target := targetOf (bitsOf v 1 2) (bitsOf v 3 2)
      frLog2 := min 12 (bitsOf v 64 4), frBase := bitsOf v 76 40 * 4096
      frVec := bitsOf v 128 11, frIrq := bitsOf v 139 1 = 1 }

/-- The index bits of a level (R416). -/
def levelIndex (va level : Nat) : Nat := bitsOf va (39 - 9 * level) 9

/-- What the entry of a level leads to (R417, R418, R433). -/
inductive EntryStep where
  | bad (cause : Nat)
  | next (target : Target) (addr : Nat)
  | leaf (size : Nat) (target : Target) (addr : Nat) (w pin hubc : Bool)
  deriving DecidableEq, Repr

def entryStep (level e : Nat) : EntryStep :=
  let tgt := bitsOf e 6 2
  let target := targetOf tgt (bitsOf e 8 2)
  let addr := bitsOf e 12 40 * 4096
  let w := bitsOf e 2 1 = 1
  let pin := bitsOf e 3 1 = 1
  let hubc := bitsOf e 4 1 = 1
  let isLeaf := level = 3 ∨ bitsOf e 1 1 = 1
  if bitsOf e 0 1 = 0 then .bad causeNotPresent
  else if bitsOf e 10 2 ≠ 0 ∨ bitsOf e 52 12 ≠ 0 ∨ tgt = 3 ∨ (level = 0 ∧ bitsOf e 1 1 = 1) then
    .bad causeBadEntry
  else if isLeaf then
    if level = 2 then
      if addr % 2 ^ 21 ≠ 0 then .bad causeBadEntry else .leaf 21 target addr w pin hubc
    else if level = 1 then
      if addr % 2 ^ 30 ≠ 0 then .bad causeBadEntry else .leaf 30 target addr w pin hubc
    else if bitsOf e 5 1 = 1 then .leaf 16 target (addr / 2 ^ 16 * 2 ^ 16) w pin hubc
    else .leaf 12 target addr w pin hubc
  else if tgt = 2 ∨ (tgt = 1 ∧ Config.hbmBytes ≤ addr) then .bad causeBadEntry
  else .next target addr

/-! ## Stores behind a target -/

def State.mem (s : State) : Target → Memory
  | .hbm c => (s.chan c).hbm
  | .ast c => (s.chan c).ast
  | .host => {}

def State.modMem (s : State) (t : Target) (f : Memory → Memory) : State :=
  match t with
  | .hbm c => s.modChan c fun x => { x with hbm := f x.hbm }
  | .ast c => s.modChan c fun x => { x with ast := f x.ast }
  | .host => s

def targetCh? : Target → Option Ch
  | .hbm c | .ast c => some c
  | .host => none

/-- A target lies on a retired channel (R433). -/
def State.targetDown (s : State) (t : Target) : Bool :=
  (targetCh? t).elim false fun c => s.chState c = chRetired

/-- A page-table entry in an HBM stack, or the one that PCIe returned (R417). -/
def State.entryAt (s : State) (t : Target) (addr : Nat) (data : Nat) : Nat :=
  match t with
  | .host => data % 2 ^ 64
  | .hbm _ | .ast _ => leNat ((s.mem t).readBytes addr 8)

/-- A 128-byte word of a store is poisoned (R585). -/
def Memory.poisonedAt (m : Memory) (a n : Nat) : Bool :=
  m.poison.any fun w => w < a + n && a < w + 128

/-- Classes of HBM traffic (R358). -/
def hbmData : Nat := 0
def hbmWeight : Nat := 1
def hbmState : Nat := 2
def hbmSave : Nat := 3

/-- Bytes moved by an HBM stack are counted in their class (R360). An access that arrives through
the hub is of class DATA (R358). -/
def State.countHbm (s : State) (from' : Option Ch) (t : Target) (cls n : Nat) : State :=
  match t with
  | .hbm c => s.wrap (.hbmc c) (Reg.hbmcBytes_BYTES (if from' = some c then cls else hbmData)) n
  | .ast _ | .host => s

/-- WALK_READ_RETURN (R416, R422, R424, R426, R433): the walk continues, completes for every access
that joined it, or faults. An entry in an HBM stack is read from the stack, as DATA (R358). -/
def execWalkReadReturn (k : CacheId) (i : Nat) (data : BitVec 256) (fail : Bool) (s : State) :
    Result :=
  live s <|
    match (s.cache k).walks.find? (·.1 = i) with
    | none => s
    | some (_, w) =>
      match w.joined, w.stage with
      | [], _ => s.endWalk k i
      | a :: _, .table =>
        if fail then s.walkFault k i w causeNoContext 0
        else
          match parseCtt data.toNat with
          | none => s.walkFault k i w causeNoContext 0
          | some e =>
            (s.modXlat fun x => { x with ctt := Tab.set x.ctt a.ctx e }).modCache k fun x =>
              { x with walks := Tab.set x.walks i { w with stage := .level 0 e.target e.root } }
      | a :: _, .level n t addr =>
        let at' := addr + 8 * levelIndex a.va n
        if s.targetDown t then s.walkFault k i w causeChannelDown 3
        else
        let s := s.countHbm none t hbmData 8
        if (t = .host ∧ fail) ∨ (t ≠ .host ∧ (s.mem t).poisonedAt at' 8) then
          s.walkFault k i w causeWalkError n
        else
          match entryStep n (s.entryAt t at' data.toNat) with
          | .bad cause => s.walkFault k i w cause n
          | .next t' addr' => s.modCache k fun x =>
              { x with walks := Tab.set x.walks i { w with stage := .level (n + 1) t' addr' } }
          | .leaf size t' base wr pin hubc =>
            let x : Xlat :=
              { ctx := a.ctx, va := a.va / 2 ^ size * 2 ^ size, size := size, target := t'
                addr := base, w := wr, pinned := pin }
            let ok := w.joined.filter fun b => wr || !b.write
            let bad := w.joined.filter fun b => !wr && b.write
            let s1 := s.modCache k fun y =>
              let z := { y with walks := Tab.erase y.walks i, ready := y.ready ++ ok.map (·, x) }
              if !ok.isEmpty && (k ≠ .hmmu || hubc) then z.insert k x else z
            (bad.foldl (fun s b => s.fault b causeWriteProt 3) s1).endWalk k i

/-! ## Accesses -/

/-- The translation that an access may use: the result of its own walk, or a cached one. A write
does not use a translation that permits reads only (R426). -/
def State.lookup (s : State) (k : CacheId) (a : MemAccess) : Option Xlat :=
  let x := s.cache k
  let own := x.ready.find? fun e => e.1.req = a.req && e.2.covers a.ctx a.va && (e.2.w || !a.write)
  match own with
  | some e => some e.2
  | none => (x.find k a.ctx a.va).bind fun t => if t.w || !a.write then some t else none

/-- A cached translation is touched; one that is not cached stays so. -/
def touchCached (x : Cache) (k : CacheId) (t : Xlat) : Cache :=
  if (Tab.get [] x.sets (setOf k t.va t.size)).contains t then x.touch k t else x

/-- One access to one page (R424, R433, R434): the target address it reaches, or none where the
requester waits for a walk or stalls on a fault. -/
def State.reach (s : State) (a : MemAccess) : State × Option (Target × Nat) :=
  let k := reqCache a.req
  if s.stalled a.req then (s, none)
  else
    match s.lookup k a with
    | none => (s.walkFor k a, none)
    | some t =>
      let addr := t.addr + a.va % 2 ^ t.size
      if s.targetDown t.target then (s.fault a causeChannelDown 3, none)
      else
        let inRange := match t.target with
          | .host => true
          | .hbm _ => addr < Config.hbmBytes
          | .ast c => addr < s.rd (.ast c) Reg.astMap_TENSOR_END * 2 ^ 16
        if inRange then
          (s.modCache k fun x =>
            touchCached { x with ready := x.ready.filter fun e => e.1 ≠ a } k t, some (t.target, addr))
        else (s.fault a causeOutOfRange 3, none)

/-! ## Data movements -/

/-- What a read through translation gives: whether every page was reached, the bytes, whether a
poisoned word was met, and the host bytes left over. -/
structure ReadOut where
  done : Bool := true
  bytes : List Byte := []
  poisoned : Bool := false
  ext : List Byte := []
  deriving DecidableEq, Repr

/-- The pieces of a range that lie within one 4 KiB page each: address and length. -/
def pagePieces : (fuel va n : Nat) → List (Nat × Nat)
  | 0, _, _ => []
  | fuel + 1, va, n =>
    if n = 0 then []
    else
      let k := min n (4096 - va % 4096)
      (va, k) :: pagePieces fuel (va + k) (n - k)

def piecesOf (va n : Nat) : List (Nat × Nat) := pagePieces (n / 4096 + 2) va n

/-- The bytes that an input of a replay's target takes (R636): those of its record's payload, and otherwise
those that were read, whose digest is compared with the record's. -/
def State.replayed (s : State) (c : Nat) (bs : List Byte) : State × List Byte :=
  if !s.replayOn c then (s, bs)
  else
    match s.recorder.inputs with
    | [] => (s.stopReplay stopControl, bs)
    | i :: rest =>
      let s1 := s.modRec fun r => { r with inputs := rest }
      match i.data, i.crc with
      | some d, _ => (s1, d.take bs.length ++ bs.drop d.length)
      | none, some k => (if crc32c bs = k then s1 else s1.bump .rpl Reg.rplDiv_INPUT, bs)
      | none, none => (s1, bs)

/-- One page's piece of a read. Host bytes come from the bytes that PCIe returned, in order; a byte
it did not return reads 0. Host data and data of another channel are inputs of the channel (R621). -/
def readPiece (a : MemAccess) (cls : Nat) (so : State × ReadOut) (piece : Nat × Nat) :
    State × ReadOut :=
  let (s, o) := so
  if !o.done then so
  else
    match s.reach { a with va := piece.1 } with
    | (s1, none) => (s1, { o with done := false })
    | (s1, some (.host, _)) =>
      let got := o.ext.take piece.2
      let live := got ++ List.replicate (piece.2 - got.length) 0
      let kind := match a.req with | .ringFetch _ _ => 0x0 | _ => 0x1
      let (s2, bs) := (reqCh? a.req).elim (s1, live) fun c =>
        if kind = 0x0 then (s1.logInput c domPcie kind live, live)
        else
          let (s', bs) := s1.replayed c live
          (s'.logInput c domPcie kind bs, bs)
      (s2, { o with bytes := o.bytes ++ bs, ext := o.ext.drop piece.2 })
    | (s1, some (t, addr)) =>
      let live := (s1.mem t).readBytes addr piece.2
      let s2 := s1.countHbm (reqCh? a.req) t cls piece.2
      let (s3, bs) := match reqCh? a.req with
        | some c =>
          if targetCh? t = some c then (s2, live)
          else
            let (s', bs) := s2.replayed c live
            (s'.logInput c domHub 0x4 bs, bs)
        | none => (s2, live)
      (s3, { o with bytes := o.bytes ++ bs
                    poisoned := o.poisoned || (s1.mem t).poisonedAt addr piece.2 })

/-- A read of `n` bytes from a device virtual address (R434). -/
def State.readVa (s : State) (a : MemAccess) (cls n : Nat) (ext : List Byte) : State × ReadOut :=
  (piecesOf a.va n).foldl (readPiece a cls) (s, { ext := ext })

/-- A read that has moved `m` so far goes on from there, and moves nothing again (R440): what it has moved then. -/
def State.readOn (s : State) (a : MemAccess) (cls n : Nat) (m : Moved) (ext : List Byte) : State × ReadOut :=
  match s.readVa { a with va := a.va + m.bytes.length } cls (n - m.bytes.length) ext with
  | (s1, o) => (s1, { o with bytes := m.bytes ++ o.bytes, poisoned := m.poisoned || o.poisoned })

/-- What a read has moved. -/
def ReadOut.moved (o : ReadOut) : Moved := { bytes := o.bytes, poisoned := o.poisoned }

/-- One page's piece of a write; `n` counts the bytes written so far. -/
def writePiece (a : MemAccess) (cls : Nat) (st : State × Nat × Bool × List Byte)
    (piece : Nat × Nat) : State × Nat × Bool × List Byte :=
  let (s, n, ok, bs) := st
  if !ok then st
  else
    match s.reach { a with va := piece.1, write := true } with
    | (s1, none) => (s1, n, false, bs)
    | (s1, some (.host, addr)) =>
      (s1.emit (.hostWrite addr (bs.take piece.2)), n + piece.2, true, bs.drop piece.2)
    | (s1, some (t, addr)) =>
      let s2 := (s1.countHbm (reqCh? a.req) t cls piece.2).modMem t fun m =>
        m.put addr (bs.take piece.2)
      (s2, n + piece.2, true, bs.drop piece.2)

/-- A write of bytes from a device virtual address on (R434): the state, the bytes written before a
page that could not be reached, and whether all were. -/
def State.writeVa (s : State) (a : MemAccess) (cls : Nat) (bs : List Byte) : State × Nat × Bool :=
  let r := (piecesOf a.va bs.length).foldl (writePiece a cls) (s, 0, true, bs)
  (r.1, r.2.1, r.2.2.1)

/-! ## Fault records, RETRY and invalidation -/

/-- The 32 bytes of a fault record (R436). -/
def faultRecord (f : FaultEntry) (phase : Bool) : List Byte :=
  let a := f.access
  let i := a.info
  let ch := (reqCh? a.req).elim 0 fun c => c.val
  leBytes 32 <|
    f.id + f.cause * 2 ^ 24 + a.ctx % 256 * 2 ^ 32 + ch * 2 ^ 40
      + bit (reqCh? a.req).isNone * 2 ^ 42 + bit a.write * 2 ^ 43 + reqCode a.req * 2 ^ 44
      + reqSlot a.req * 2 ^ 48 + i.ring.getD 0 * 2 ^ 56 + bit i.ring.isSome * 2 ^ 60
      + f.level % 4 * 2 ^ 61 + a.va % 2 ^ 48 * 2 ^ 64 + i.tile % 2 ^ 16 * 2 ^ 112
      + i.cmdid.getD 0 % 2 ^ 32 * 2 ^ 128 + i.stream.getD 0 % 1024 * 2 ^ 160
      + bit i.stream.isSome * 2 ^ 170 + bit i.cmdid.isSome * 2 ^ 171 + bit phase * 2 ^ 255

/-- FAULT_RECORD_WRITE (R438): the oldest fault of the context without a record gets it in the next
slot of the fault ring, once that slot's record has had its disposition; then FRVEC is sent. -/
def execFaultRecordWrite (ctx : CtxId) (s : State) : Result :=
  live s <|
    let c := ctx.toNat
    match s.xlat.faults.find? fun f =>
        f.access.ctx = c && f.cause ≠ causeNoContext && f.recorded = none with
    | none => s
    | some f =>
      let fr := Tab.get {} s.xlat.rings c
      match f.entry with
      | none => s
      | some e =>
        if s.ringBusy c fr.next then s
        else
          let size := 2 ^ (e.frLog2 + 4)
          let fr' : FaultRing :=
            if fr.next + 1 < size then { fr with next := fr.next + 1 }
            else { next := 0, phase := !fr.phase }
          let s1 := (s.modXlat fun x =>
            { x with
              rings := Tab.set x.rings c fr'
              faults := x.faults.map fun g =>
                if g.id = f.id then { g with recorded := some fr.next } else g }).emit
            (.hostWrite (e.frBase + 32 * fr.next) (faultRecord f fr.phase))
          let s2 := if e.frIrq then s1.sendVector e.frVec else s1
          s2.heldSince s

/-- A faulting access is translated again (R440): its fault is resolved, and the access walks where
no cached translation serves it. -/
def State.retryFault (s : State) (f : FaultEntry) : State :=
  let s1 := (s.freeFault f.id).onResume f.access.req
  let s2 := s1.modXlat fun x => { x with retried := x.retried ++ [f.access] }
  match s2.lookup (reqCache f.access.req) f.access with
  | some _ => s2
  | none => s2.walkFor (reqCache f.access.req) f.access

/-- Masters that may write HMMU_DISP (R439). -/
def mayDispose (m : Master) : Bool :=
  match m with
  | .host | .farrier | .groom _ => true
  | .peer _ => false

/-- A disposition that names no unresolved fault is ignored and counted (R441). -/
def State.badDisposition (s : State) : State := (s.bump .hmmu Reg.hmmuFstat_BADDISP).raise .hmmu 2

/-- The fault that a disposition names, where its master may dispose of it. -/
def State.faultOf (s : State) (id : BitVec 24) : Option FaultEntry :=
  s.xlat.faults.find? fun f => f.id = id.toNat

/-- An applied disposition is recorded (R625). -/
def State.logDisposition (s : State) (f : FaultEntry) (action : Nat) : State :=
  match reqCh? f.access.req with
  | some c => s.logOut c 0x05 (f.id + action * 2 ^ 24)
  | none => s.logTo 4 domHub (.out 0x05 (f.id + action * 2 ^ 24))

/-- RETRY (R440, R441, R667). -/
def execRetry (m : Master) (fault : BitVec 24) (s : State) : Result :=
  live s <|
    if s.reaches m .hmmu ∧ mayDispose m then
      match s.faultOf fault with
      | some f => (s.logDisposition f 1).retryFault f
      | none => s.badDisposition
    else s

/-- An invalidation starts (R428, R430): the master holds HMMU_LOCK0, and none is under way. -/
def State.invalidate (s : State) (m : Master) (scope ctx count : Nat) : State :=
  if s.writable m .hmmu 0x128 ∧ s.holdsLock m .hmmu 0 ∧ !s.flag .hmmu Reg.hmmuInvStat_BUSY then
    (s.wr .hmmu Reg.hmmuInvStat_BUSY 1).modXlat fun x =>
      let v : Inval :=
        { scope := scope, ctx := ctx, va := s.rd .hmmu Reg.hmmuInvVa_VA * 4096, count := max 1 count }
      { x with inval := some v }
  else s

/-- INV_ALL (R430). -/
def execInvAll (m : Master) (s : State) : Result := live s <| s.invalidate m 0 0 0
/-- INV_CONTEXT (R430). -/
def execInvContext (m : Master) (ctx : CtxId) (s : State) : Result :=
  live s <| s.invalidate m 1 ctx.toNat 0
/-- INV_RANGE (R430): COUNT pages of 4 KiB from HMMU_INV_VA. -/
def execInvRange (m : Master) (ctx : CtxId) (count : BitVec 20) (s : State) : Result :=
  live s <| s.invalidate m 2 ctx.toNat count.toNat
/-- INV_CTT (R430). -/
def execInvCtt (m : Master) (ctx : CtxId) (s : State) : Result :=
  live s <| s.invalidate m 3 ctx.toNat 0

/-- A translation is in the scope of an invalidation (R430). -/
def Inval.removes (v : Inval) (t : Xlat) : Bool :=
  if v.scope = 0 then true
  else if v.scope = 1 then t.ctx = v.ctx
  else if v.scope = 2 then
    t.ctx = v.ctx && t.va < v.va + v.count * 4096 && v.va < t.va + 2 ^ t.size
  else false

/-- An invalidation names the table entry of a context (R430). -/
def Inval.namesEntry (v : Inval) (ctx : Nat) : Bool :=
  v.scope = 0 || ((v.scope = 1 || v.scope = 3) && v.ctx = ctx)

/-- The caches of the device. -/
def allCaches : List CacheId := [.cmmu 0, .cmmu 1, .cmmu 2, .cmmu 3, .hmmu]

/-- A cache applies an invalidation: its translations in scope go, and the walks of the context
start again (R432). -/
def State.invalidateCache (s : State) (v : Inval) (k : CacheId) : State :=
  let hit (w : Walk) : Bool := w.joined.any fun a => v.scope = 0 || a.ctx = v.ctx
  let s1 := s.modCache k fun x =>
    let y := x.drop v.removes
    { y with walks := y.walks.map fun w =>
        match w.2.joined with
        | a :: _ => if hit w.2 then (w.1, { w.2 with stage := s.firstStage a.ctx }) else w
        | [] => w }
  match k with
  | .cmmu c => s1.bump (.cmmu c) Reg.cmmuCnt_INVALS
  | .hmmu => s1

/-- INVALIDATION_COMPLETE (R432, R667): every cache has removed the translations in scope, DONE
advances, and the NO_CONTEXT faults of the context are retried. -/
def execInvalidationComplete (s : State) : Result :=
  live s <|
    match s.xlat.inval with
    | none => s
    | some v =>
      let s0 := s.modXlat fun x =>
        { x with inval := none, ctt := x.ctt.filter fun e => !v.namesEntry e.1 }
      let s1 := allCaches.foldl (fun s k => s.invalidateCache v k) s0
      let s2 := ((s1.wrap .hmmu Reg.hmmuInvStat_DONE).wr .hmmu Reg.hmmuInvStat_BUSY 0).raise .hmmu 0
      (s2.xlat.faults.filter fun f =>
        f.cause = causeNoContext && v.namesEntry f.access.ctx).foldl (fun s f => s.retryFault f) s2

/-! ## What resets remove -/

/-- Requests of a context, or of requesters that satisfy a test, leave every walk and queue of a
cache. -/
def Cache.forget (x : Cache) (p : MemAccess → Bool) : Cache :=
  { x with
    walks := x.walks.map fun w => (w.1, { w.2 with joined := w.2.joined.filter fun a => !p a })
    waiting := x.waiting.filter fun a => !p a
    ready := x.ready.filter fun e => !p e.1 }

/-- Faults, walks and results of accesses that satisfy a test are resolved (R442). -/
def State.forgetAccesses (s : State) (p : MemAccess → Bool) : State :=
  let s1 := allCaches.foldl (fun s k => s.modCache k fun x => x.forget p) s
  let s2 := s1.modXlat fun x =>
    { x with
      overflow := x.overflow.filter fun f => !p f.access
      retried := x.retried.filter fun a => !p a }
  (s2.xlat.faults.filter fun f => p f.access).foldl (fun s f => s.freeFault f.id) s2

end Sys2Proof.Machine
end

