-- ==== Sys2Proof/Machine/Engine.lean ====
section
/-!
DEFINITION. The engines as the other files use them: access to their records, when they run, pairs
(R569), sites and epochs (R586, R598), the engine queue and the slice sequence (R80, R81), the end
of engine commands, break markers (R200) and the release of tiles.
-/

namespace Sys2Proof.Machine

/-! ## Access -/

def engPage (c e : Nat) : Page := .eng (Fin.ofNat 4 c) (Fin.ofNat 72 e)

def Channel.engine (x : Channel) (e : Nat) : Engine := Tab.get {} x.engines e
def State.engine (s : State) (c e : Nat) : Engine := (s.chan c).engine e
def State.modEngine (s : State) (c e : Nat) (f : Engine → Engine) : State :=
  s.modChan c fun x => { x with engines := Tab.set x.engines e (f (x.engine e)) }

def Engine.tile (g : Engine) (t : Nat) : TileSlot := Tab.get {} g.tiles t
def Engine.setTile (g : Engine) (t : Nat) (v : TileSlot) : Engine :=
  { g with tiles := Tab.set g.tiles t v }
def State.tile (s : State) (c e t : Nat) : TileSlot := (s.engine c e).tile t
def State.modTile (s : State) (c e t : Nat) (f : TileSlot → TileSlot) : State :=
  s.modEngine c e fun g => g.setTile t (f (g.tile t))

/-- The eight tile slots of an engine with their numbers (R168). -/
def Engine.slots (g : Engine) : List (Nat × TileSlot) := (List.range 8).map fun t => (t, g.tile t)

/-- The command names the tile (R177): it has a tile body, and it is of the tile's context and name. -/
def EngCmd.ofTile (k : EngCmd) (x : TileSlot) : Bool := hasTileBody k.op && k.ctx = x.ctx && k.name = x.name

/-- In-progress slots: FILLING or DRAINING (R168). -/
def TileState.inProgress : TileState → Bool
  | .filling | .draining => true
  | .free | .parked | .held | .sealing | .restoring => false

def Engine.inProgress (g : Engine) : Nat := (g.slots.filter fun t => t.2.state.inProgress).length

/-- The slot that holds a context's tile of a name (R177). -/
def Engine.slotOf (g : Engine) (ctx name : Nat) : Option Nat :=
  (g.slots.find? fun t => t.2.state ≠ .free && t.2.ctx = ctx && t.2.name = name).map (·.1)

/-! ## Clocks, blocks and gaits -/

def blkOff : Nat := 0
def blkStarting : Nat := 1
def blkOn : Nat := 2
def blkStopping : Nat := 3

def State.blk (s : State) (p : Page) : Nat := s.rd p Reg.blkState_STATE
def State.setBlk (s : State) (p : Page) (v : Nat) : State := s.wr p Reg.blkState_STATE v

/-- The channel's arith clock runs (R567). -/
def State.arithOn (s : State) (c : Nat) : Bool := s.flag .clk (Reg.clkArith_LOCKED c)

def gWalk : Nat := 0
def gTrot : Nat := 1
def gCanter : Nat := 2
def gGallop : Nat := 3

/-- The gait in force (R582). -/
def State.gait (s : State) (c : Nat) : Nat := s.rd .pwr (Reg.pwrChStat_GAIT c)
def State.changing (s : State) (c : Nat) : Bool := s.flag .pwr (Reg.pwrChStat_CHANGING c)
def State.pstate (s : State) (c : Nat) : Nat := s.rd .pwr (Reg.pwrChStat_PSTATE c)
def State.duty (s : State) (c : Nat) : Nat := s.rd .pwr (Reg.pwrChStat_DUTY c)

/-- A context is being saved or restored: a mark waits for it (R632, step 1). -/
def State.contextsMove (s : State) : Bool :=
  (List.range 8).any fun i =>
    let x := s.rd .ctx (Reg.ctxSlot_STATE i)
    x = 1 || x = 3 || x = 4

/-- The change under way stops the sequencers, but for one between CANTER and GALLOP (R571), and so do a mark
(R632) and a stopped replay (R639). -/
def State.sequencersStopped (s : State) (c : Nat) : Bool :=
  (s.changing c && !(2 ≤ s.gait c && 2 ≤ (s.chan c).gaitTo))
    || (s.recorder.marking.contains c && !s.contextsMove) || (s.replayState = rplStopped && s.target = c)

/-- The engine of a slot runs: its clock runs, the sequencers are not stopped, and its block is ON
or STOPPING (R571, R578, R580, R632). -/
def State.engRuns (s : State) (c e : Nat) : Bool :=
  s.arithOn c && !s.sequencersStopped c && 2 ≤ s.blk (engPage c e)

/-- The gait skips beats (R97, R568). -/
def State.skips (s : State) (c : Nat) : Bool := s.gait c ≠ gWalk

/-! ## Pairs (R569) -/

/-- The secondary of a primary in the gait in force. -/
def secondaryOf (gait e : Nat) : Option Nat :=
  if gait = gWalk then (if e < 64 ∧ e % 2 = 0 then some (e + 1) else none)
  else if gait = gTrot then (if e < 8 then some (64 + e) else none)
  else none

/-- The primary of a secondary in the gait in force. -/
def primaryOf (gait e : Nat) : Option Nat :=
  if gait = gWalk then (if e < 64 ∧ e % 2 = 1 then some (e - 1) else none)
  else if gait = gTrot then (if 64 ≤ e ∧ e < 72 then some (e - 64) else none)
  else none

/-- A slot serves as the secondary of a pair that has formed. -/
def State.isSecondary (s : State) (c e : Nat) : Bool :=
  (primaryOf (s.gait c) e).elim false fun p => (s.engine c p).paired

/-- The pair of a primary may form: its secondary is ON, holds no tile and has no command. -/
def State.pairReady (s : State) (c e : Nat) : Bool :=
  (secondaryOf (s.gait c) e).elim false fun k =>
    let g := s.engine c k
    s.blk (engPage c k) = blkOn && g.queue.isEmpty && g.slots.all fun t => t.2.state = .free

/-- PWR_CHn_STAT.UNPAIRED: pairs of the gait that are not formed (R582). -/
def State.unpaired (s : State) (c : Nat) : Nat :=
  ((List.range 64).filter fun e =>
    (secondaryOf (s.gait c) e).isSome && !(s.engine c e).paired).length

/-! ## Sites and epochs (R586, R598, R614) -/

/-- The site in a slot, or 0x7F. -/
def State.siteIn (s : State) (c e : Nat) : Nat := Tab.get e (s.chan c).slotMap e

/-- A site's record; at power-up sites 0 to 63 are ACTIVE in their slots and 64 to 71 in the pool. -/
def State.site (s : State) (c n : Nat) : Site :=
  Tab.get { state := if n < 64 then 0 else 1, lastSlot := if n < 64 then n else 0x7f }
    (s.chan c).sites n
def State.modSite (s : State) (c n : Nat) (f : Site → Site) : State :=
  s.modChan c fun x => { x with sites := Tab.set x.sites n (f (s.site c n)) }

/-- The slot that a site holds, or 0x7F. -/
def State.slotOfSite (s : State) (c n : Nat) : Nat :=
  ((List.range 72).find? fun e => s.siteIn c e = n).getD 0x7f

/-- The live strikes of a site: those that fell fewer than 4,096 tiles ago (R586). -/
def Site.live (x : Site) : Nat := (x.strikes.filter fun t => x.tiles < t + 4096).length

def State.epoch (s : State) (c e : Nat) : Nat := s.rd (engPage c e) Reg.engSlotId_EPOCH

/-- Traffic of a slot's epoch is ghost traffic (R599). -/
def State.isGhost (s : State) (c slot epoch : Nat) : Bool := s.epoch c slot ≠ epoch

/-- A ghost item is dropped and counted (R599). -/
def State.ghostDrop (s : State) (c e : Nat) : State :=
  ((s.bump (engPage c e) Reg.engSlotId_GHOST).bump .ras Reg.rasCnt_GHOST).raise (engPage c e) 3

/-- A block of this device's own sender is ghost traffic (R225, R599). -/
def State.staleBlock (s : State) (b : Block) : Bool := s.isGhost b.hdr.sch b.hdr.sslot b.hdr.sepoch

/-! ## Host commands -/

/-- The host command of a number on a channel. -/
def Channel.cmd? (x : Channel) (num : Nat) : Option HostCmd := x.cmds.find? fun h => h.num = num

def State.modCmd (s : State) (c num : Nat) (f : HostCmd → HostCmd) : State :=
  s.modChan c fun x => { x with cmds := x.cmds.map fun h => if h.num = num then f h else h }

/-- An engine command completes with a status (R400, R401). A repetition under R164 or R590
completes nothing of its own. -/
def State.ecDone (s : State) (c : Nat) (k : EngCmd) (status : Nat) : State :=
  if k.again then s
  else s.modCmd c k.num fun h =>
    { h with ecs := h.ecs.map fun r =>
        if r.idx = k.idx ∧ r.status = none then { r with status := some status } else r }

def State.ecsDone (s : State) (c : Nat) (ks : List EngCmd) (status : Nat) : State :=
  ks.foldl (fun s k => s.ecDone c k status) s

/-- The entry of the engine command queue that a command took is free again (R33). -/
def State.freeEntry (s : State) (c e : Nat) (k : EngCmd) : State :=
  if k.again then s
  else s.modEngine c e fun g => { g with credit := { g.credit with owed := g.credit.owed + 1 } }

/-! ## The engines of a pair (R569) -/

/-- The secondary that runs in lockstep with an engine. -/
def State.mate (s : State) (c e : Nat) : Option Nat :=
  if (s.engine c e).paired then secondaryOf (s.gait c) e else none

/-- The engines whose pages show what an engine does for the tile in a slot: itself, and its secondary for a tile
that the pair claimed in lockstep. -/
def State.enginesOf (s : State) (c e t : Nat) : List Nat :=
  e :: (if (s.tile c e t).mirrored then (s.mate c e).toList else [])

/-- An engine and its secondary. -/
def State.pairOf (s : State) (c e : Nat) : List Nat := e :: (s.mate c e).toList

/-- The engines whose pages show what an engine does for a command in progress. -/
def State.enginesFor (s : State) (c e uid : Nat) : List Nat :=
  match (s.engine c e).runs.find? fun r => r.cmd.uid = uid with
  | some r => s.enginesOf c e r.slot
  | none => [e]

/-- One field of several engines takes one value. -/
def State.wrAll (s : State) (c : Nat) (es : List Nat) (f : Fld) (v : Nat) : State :=
  es.foldl (fun s e => s.wr (engPage c e) f v) s

/-- One counter of several engines counts: a wrapping one, and one that stays at its greatest value. -/
def State.wrapAll (s : State) (c : Nat) (es : List Nat) (f : Fld) (n : Nat := 1) : State :=
  es.foldl (fun s e => s.wrap (engPage c e) f n) s
def State.bumpAll (s : State) (c : Nat) (es : List Nat) (f : Fld) : State :=
  es.foldl (fun s e => s.bump (engPage c e) f) s

/-! ## The order of slices and the slice sequence (R80) -/

/-- A command as it enters an engine queue: its slices in ascending order, without the elided ones (R270,
R271). -/
def EngCmd.planned (k : EngCmd) : EngCmd :=
  if isProduct k.op then
    let range := rangeOf k.op k.descs
    let w := windowOf k.descs
    let run := range.filter fun sl => !sliceElided k.op w k.pt sl
    { k with order := run, desc := false, elided := range.length - run.length }
  else k

/-- The order in which commands that wait run their slices, after the command that began last: a tile that
follows one of the same host command and row tile takes the reverse of its order. A tile command without
products is a tile of another layer (R80). -/
def orderQueue : (prev : Option (Nat × Nat × Bool)) → List EngCmd → List EngCmd
  | _, [] => []
  | prev, k :: ks =>
    if isProduct k.op then
      let follows : Bool := prev.any fun p => p.1 = k.num && p.2.1 = k.rt
      let desc : Bool := follows && prev.any fun p => !p.2.2
      { k with
        order := if desc = k.desc then k.order else k.order.reverse, desc := desc, follows := follows } ::
          orderQueue (some (k.num, k.rt, desc)) ks
    else k :: orderQueue (if hasTileBody k.op && k.op ≠ opDrain then none else prev) ks

/-- What the next command's order follows, once a command has begun. -/
def EngCmd.ran (k : EngCmd) : Option (Nat × Nat × Bool) :=
  if isProduct k.op then some (k.num, k.rt, k.desc) else none

/-- The K-slices that a run has still to pass: those that some lane has not passed. -/
def EngRun.remaining (r : EngRun) : List Nat :=
  r.cmd.order.filter fun sl => (List.range 8).any fun l =>
    let p := Tab.get {} r.lanes l
    !p.done && (r.cmd.order.drop p.idx).contains sl

/-- Repetitions of a tile that an overflow re-issued wait or run (R164). -/
def Engine.reissuing (g : Engine) (t : Nat × TileSlot) : Bool :=
  t.2.reissued && ((g.queue.any fun k => k.again && k.ofTile t.2)
    || g.runs.any fun r => r.slot = t.1 && r.cmd.again)

/-- The commands that need slices, with the slices that they still need, in the order in which the engine
runs them: a re-issue goes in front of everything else (R164, R669). -/
def Engine.inTurn (g : Engine) : List (EngCmd × List Nat) :=
  let urgent := g.slots.filter g.reissuing
  let firstRun (r : EngRun) : Bool := urgent.any fun t => t.1 = r.slot
  let firstCmd (k : EngCmd) : Bool := k.again && urgent.any fun t => k.ofTile t.2
  let ofRun (r : EngRun) : EngCmd × List Nat := (r.cmd, r.remaining)
  let ofCmd (k : EngCmd) : EngCmd × List Nat := (k, k.order)
  (g.runs.filter firstRun).map ofRun ++ (g.queue.filter firstCmd).map ofCmd
    ++ (g.runs.filter fun r => !firstRun r).map ofRun ++ (g.queue.filter fun k => !firstCmd k).map ofCmd

/-- The slices of a command join the sequence; an entry equal to the one before it is merged. -/
def addSlices (num rt uid : Nat) (seq : List SeqEntry) : List Nat → List SeqEntry
  | [] => seq
  | sl :: rest =>
    let seq' :=
      match seq.getLast? with
      | some e =>
        if e.num = num ∧ e.rt = rt ∧ e.slice = sl then
          seq.dropLast ++ [{ e with users := e.users ++ [uid] }]
        else seq ++ [{ num := num, rt := rt, slice := sl, users := [uid] }]
      | none => [{ num := num, rt := rt, slice := sl, users := [uid] }]
    addSlices num rt uid seq' rest

/-- The slice sequence of an engine (R80): the slices that it still needs, in turn. -/
def Engine.seq (g : Engine) : List SeqEntry :=
  g.inTurn.foldl (fun seq k => addSlices k.1.num k.1.rt k.1.uid seq k.2) []

/-! ## The weight registers (R78 to R83) -/

/-- Two entries are one: they hold one slice for a command that both serve. -/
def SeqEntry.same (a b : SeqEntry) : Bool := a.slice = b.slice && a.users.any b.users.contains

/-- What an entry names: a slice of a row tile of a host command. -/
def SeqEntry.key (x : SeqEntry) : Nat × Nat × Nat := (x.num, x.rt, x.slice)

/-- The entry of the sequence that a register holds. -/
def WReg.entryIn (r : WReg) (seq : List SeqEntry) : Option SeqEntry :=
  r.entry.bind fun e => seq.find? e.same

/-- The entry that a register keeps: one of the first two of the sequence, or one that serves a command in
progress. A prefetched slice of a queued command gives way to a re-issue or a re-run (R78, R164). -/
def Engine.keptBy (g : Engine) (r : WReg) : Option SeqEntry :=
  (r.entryIn g.seq).filter fun x =>
    (g.seq.take 2).contains x || g.runs.any fun q => x.users.contains q.cmd.uid

/-- The entries that registers A and B keep. Where neither holds the first entry of the sequence, the later
one of the two is let go for it (R164, R669). -/
def Engine.kept (g : Engine) : Option SeqEntry × Option SeqEntry :=
  match g.keptBy g.regA, g.keptBy g.regB with
  | some a, some b =>
    if g.seq.head? = some a ∨ g.seq.head? = some b then (some a, some b)
    else if g.seq.idxOf a ≤ g.seq.idxOf b then (some a, none)
    else (none, some b)
  | a, b => (a, b)

/-- A register follows the entry that it keeps, or is released with its contents (R81). -/
def WReg.follow (r : WReg) (kept : Option SeqEntry) : WReg :=
  match r.entry, kept with
  | _, some x => { r with entry := some x }
  | some e, none =>
    { r with entry := none, ready := false, loading := false, holds := if r.ready then some e.key else none }
  | none, none => r

/-- A free register that already holds the next slice of the sequence is ready again without a load
(R81). -/
def WReg.refill (r other : WReg) (seq : List SeqEntry) : WReg :=
  match r.entry, seq.find? fun e => !(other.entry.any fun o => o.same e) with
  | none, some n => if r.holds = some n.key then { r with entry := some n, ready := true } else r
  | _, _ => r

/-- The queue's orders and the weight registers follow a change of the commands (R80, R81). -/
def Engine.follow (g : Engine) : Engine :=
  let g1 : Engine := { g with queue := orderQueue g.ranOrder g.queue }
  let (ka, kb) := g1.kept
  let a := g1.regA.follow ka
  let b := g1.regB.follow kb
  let a' := a.refill b g1.seq
  { g1 with regA := a', regB := b.refill a' g1.seq }

/-- A command enters the engine queue: its slice order is fixed (R80, R270, R271). -/
def Engine.enqueue (g : Engine) (k : EngCmd) : Engine :=
  ({ g with queue := g.queue ++ [k.planned] } : Engine).follow

/-- Register A is the working register (R83). -/
def State.workingA (s : State) (c e : Nat) : Bool := !s.flag (engPage c e) Reg.engWregStat_WSEL

/-- A command still needs a slice: it waits in the queue, or one of its lanes has not yet passed the slice
(R81, R269). -/
def Engine.needs (g : Engine) (uid slice : Nat) : Bool :=
  (g.queue.any fun k => k.uid = uid) ||
  g.runs.any fun r => r.cmd.uid = uid &&
    (List.range 8).any fun l =>
      let p := Tab.get {} r.lanes l
      !p.done &&
        (if isProduct r.cmd.op then (r.cmd.order.drop p.idx).contains slice else p.buf.length ≤ slice : Bool)

/-- The engine's registers and segment headers follow a change of its commands. When the working register
is released, the shadow register becomes the working register (R81, R269). -/
def State.sweep (s : State) (c e : Nat) : State :=
  let g := s.engine c e
  let kept := ({ g with queue := orderQueue g.ranOrder g.queue } : Engine).kept
  let released : Bool := if s.workingA c e then g.regA.entry.isSome && kept.1.isNone
    else g.regB.entry.isSome && kept.2.isNone
  let s1 := s.modEngine c e fun g =>
    let g1 := g.follow
    { g1 with headers := g1.headers.filter fun h => g1.needs h.1 h.2.1 }
  if released then s1.wrAll c (s.pairOf c e) Reg.engWregStat_WSEL (bit (s.workingA c e)) else s1

/-! ## Lane input buffers (R33) -/

/-- Credits of a lane's input buffer: two K-slices. -/
def Engine.laneCredits (g : Engine) (l : Nat) : Credit := Tab.get ⟨2, 0⟩ g.laneCredit l

def Engine.setLaneCredit (g : Engine) (l : Nat) (f : Credit → Credit) : Engine :=
  { g with laneCredit := Tab.set g.laneCredit l (f (g.laneCredits l)) }

/-- `n` entries of a queue are free: their credits are on their way back. -/
def Credit.free (k : Credit) (n : Nat) : Credit := { k with owed := k.owed + n }

/-- The K-slices in the buffers of a run's lanes are let go. -/
def Engine.freeLanes (g : Engine) (r : EngRun) : Engine :=
  if isProduct r.cmd.op then
    r.lanes.foldl (fun g (l : Nat × LaneProg) => g.setLaneCredit l.1 fun k => k.free l.2.buf.length) g
  else g

/-! ## Banks (R126, R127) -/

def Engine.bank (g : Engine) (n : Nat) : Bank := Tab.get {} g.banks n

/-- A bank shows, on several engines, a descriptor and how far its knots are built (R131). -/
def State.showBank (s : State) (c : Nat) (es : List Nat) (n : Nat) (d : Group)
    (valid building knot : Nat) : State :=
  let s1 := (s.wrAll c es (Reg.engLnsBank_BASE n) d.base).wrAll c es (Reg.engLnsBank_FSEL n) d.fsel
  ((s1.wrAll c es (Reg.engLnsBank_VALID n) valid).wrAll c es (Reg.engLnsBank_BUILDING n) building).wrAll c es
    (Reg.engLnsBank_KNOT n) knot

/-- A bank takes a descriptor for a command and starts its rebuild (R126, R128). -/
def State.startRebuild (s : State) (c e n uid : Nat) (d : Group) : State :=
  let es := s.enginesFor c e uid
  ((s.showBank c es n d 0 1 0).bumpAll c es Reg.engLnsCnt_REBUILDS).modEngine c e fun g =>
    let bank : Bank := { g.bank n with recorded := true, start := s.cyc (domArith c) }
    { g with banks := Tab.set g.banks n bank }

/-- KNOT of a bank (R128, R131): a rebuild writes one knot per arith cycle, and the last one makes the bank
valid. -/
def State.knots (s : State) (c e n : Nat) : Nat :=
  let p := engPage c e
  if s.flag p (Reg.engLnsBank_BUILDING n) then min 127 (s.cyc (domArith c) - ((s.engine c e).bank n).start)
  else s.rd p (Reg.engLnsBank_KNOT n)

/-- A command is bound to a bank. -/
def State.bindTo (s : State) (c e n uid : Nat) : State :=
  (s.modEngine c e fun g => { g with
    bindings := g.bindings + 1
    banks := Tab.set g.banks n { g.bank n with
      bound := (g.bank n).bound ++ [uid], lastBound := g.bindings + 1 }
    runs := g.runs.map fun r => if r.cmd.uid = uid then { r with bank := .bound n } else r }).wrAll c
    (s.enginesFor c e uid) (Reg.engLnsBank_BOUND n) 1

/-- The choice of a bank (R126). DESIGN CHOICE: where neither bank has been bound since the reset, the spec
names none, and bank 0 is taken. -/
def State.bindBank (s : State) (c e uid : Nat) (d : Group) : State :=
  let g := s.engine c e
  let p := engPage c e
  let records (n : Nat) : Bool := (g.bank n).recorded
    && s.rd p (Reg.engLnsBank_BASE n) = d.base && s.rd p (Reg.engLnsBank_FSEL n) = d.fsel
  let free (n : Nat) : Bool := (g.bank n).bound.isEmpty
  if records 0 then s.bindTo c e 0 uid
  else if records 1 then s.bindTo c e 1 uid
  else if free 0 ∨ free 1 then
    let n :=
      if free 0 ∧ free 1 then (if (g.bank 1).lastBound < (g.bank 0).lastBound then 1 else 0)
      else if free 0 then 0 else 1
    (s.startRebuild c e n uid d).bindTo c e n uid
  else
    s.modEngine c e fun g => { g with
      bankWait := g.bankWait ++ [uid]
      runs := g.runs.map fun r => if r.cmd.uid = uid then { r with bank := .waiting } else r }

/-- A command is no longer bound; the first that waits takes a bank that becomes free (R126 step 3,
R127). -/
def State.unbind (s : State) (c e uid : Nat) : State :=
  [0, 1].foldl (fun s n =>
    let g := s.engine c e
    if (g.bank n).bound.contains uid then
      let rest := (g.bank n).bound.erase uid
      let s1 := s.modEngine c e fun g =>
        { g with banks := Tab.set g.banks n { g.bank n with bound := rest } }
      if rest.isEmpty then
        match g.bankWait, g.runs.find? fun r => g.bankWait.head? = some r.cmd.uid with
        | u :: us, some r =>
          ((s1.modEngine c e fun g => { g with bankWait := us }).startRebuild c e n u r.cmd.group).bindTo
            c e n u
        | _, _ => s1.wrAll c (s.pairOf c e) (Reg.engLnsBank_BOUND n) 0
      else s1
    else s) (s.modEngine c e fun g => { g with bankWait := g.bankWait.erase uid })

/-! ## Tandem headers and break markers (R194, R200) -/

def kindTotals : Nat := 0
def kindStats : Nat := 1
def kindBreak : Nat := 2

def causeRemoteLost : Nat := 1
def causeFormatMismatch : Nat := 2
def causeTileLost : Nat := 3
def causeContextReset : Nat := 4

/-- The header of a block that a link sends (R194). The chain's flags are its own. -/
def linkHeader (s : State) (c e : Nat) (k : EngCmd) (blk kind tkind pbase : Nat) : BlockHdr :=
  let d := k.descs
  { tag := tOuttag d + k.idx, dtile := tDtile d + k.idx, dctx := tDctx d, dch := tDch d
    cls := tClass d, block := blk, kind := kind, tkind := tkind, longsum := false, fallback := false
    retries := 0, guardDenied := false, cause := 0, pbase := pbase, sslot := e, sch := c
    sepoch := s.epoch c e }

/-- A block joins the send queue of a relay cell. -/
def State.relaySend (s : State) (c e : Nat) (k : EngCmd) (t : Option Nat) (b : Block) : State :=
  s.modEngine c e fun g => { g with relay := { g.relay with
    sending := g.relay.sending ++ [{ block := b, next := tNext k.descs, tile := t }] } }

/-- A HEAD or MID link sends a break marker to its receiver (R200). -/
def State.sendBreak (s : State) (c e : Nat) (k : EngCmd) (tkind cause : Nat) : State :=
  if tRole k.descs = roleHead ∨ tRole k.descs = roleMid then
    s.relaySend c e k none
      { hdr := { linkHeader s c e k 0 kindBreak tkind 0 with cause := cause }, values := [] }
  else s

/-- TKIND of a command's path (R57). -/
def pathTkind (k : EngCmd) : Nat := if hdAfmt k.descs = fmtL8 then 1 else 0

/-! ## Release of tiles -/

/-- The runs of a tile end: their slices, banks, headers and inputs are let go. -/
def State.dropRuns (s : State) (c e t : Nat) : State :=
  let rs := (s.engine c e).runs.filter fun r => r.slot = t
  let s1 := rs.foldl (fun s r => ((s.unbind c e r.cmd.uid).freeEntry c e r.cmd).modEngine c e fun g =>
    g.freeLanes r) s
  (s1.modEngine c e fun g => { g with runs := g.runs.filter fun r => r.slot ≠ t }).sweep c e

/-- A block is addressed to a tile. -/
def Moving.forTile (m : Moving) (x : TileSlot) : Bool :=
  m.block.hdr.dctx = x.ctx && m.block.hdr.dtile = x.name

/-- The drain of a tile ends with its tile: the blocks in its pipeline leave the drain queue, and its output
is dropped. -/
def Engine.dropDrain (g : Engine) (t : Nat) : Engine :=
  match g.drain with
  | some d =>
    if d.slot = t then
      { g with drain := none, output := [], drainCredit := g.drainCredit.free d.pipe.length }
    else g
  | none => g

/-- A tile slot becomes FREE: nothing of the tile stays in the engine. The blocks in the relay cell that are
its own, or that came for it, go with it. -/
def State.freeTile (s : State) (c e t : Nat) : State :=
  (s.dropRuns c e t).modEngine c e fun g =>
    let r := g.relay
    let g1 : Engine := { g with
      drains := g.drains.filter (· ≠ t)
      relay := { r with
        received := r.received.filter fun m => !((g.tile t).await.isSome && m.forTile (g.tile t))
        sending := r.sending.filter fun m => m.tile ≠ some t
        sent := r.sent.filter fun m => m.tile ≠ some t } }
    (g1.dropDrain t).setTile t {}

/-- A tile is released without drain: the commands that its end would complete take a status; a HEAD
or MID sends a break marker where a cause is given. -/
def State.loseTile (s : State) (c e t status : Nat) (cause : Option Nat) : State :=
  let x := s.tile c e t
  let s1 := s.ecsDone c x.closing status
  let s2 :=
    match x.last, cause with
    | some k, some cs => s1.sendBreak c e k x.tkind cs
    | _, _ => s1
  s2.freeTile c e t

/-- The consumers of poisoned data, as an outcome record names them: its kind, with the slot and the tile
slot, or the stream, that it serves. The spec does not give the codes (R625). -/
def consumerTile (e t : Nat) : Nat := 0x02 + e * 2 ^ 8 + t * 2 ^ 16
def consumerArgmax (e : Nat) : Nat := 0x03 + e * 2 ^ 8
def consumerScan (e : Nat) : Nat := 0x04 + e * 2 ^ 8
def consumerCvu : Nat := 0x05
def consumerCopy : Nat := 0x06
def consumerSwapIn (stream : Nat) : Nat := 0x08 + stream * 2 ^ 8

/-- A consumer meets poisoned data (R585, R625). -/
def State.metPoison (s : State) (c consumer addr : Nat) : State :=
  s.logOut c 0x02 (consumer % 2 ^ 32 + addr % 2 ^ 24 * 2 ^ 32)

/-- A tile meets poisoned data: it is released and its commands complete TILE_LOST (R585). -/
def State.tileLost (s : State) (c e t : Nat) : State :=
  ((s.loseTile c e t stTileLost (some causeTileLost)).metPoison c (consumerTile e t) 0).persistent (engPage c e) 0x04
    (t * 640)

end Sys2Proof.Machine
end

