-- ==== Sys2Proof/Machine/Paths.lean ====
section
/-!
DEFINITION. The landing buffer of a channel (R206 to R212) and the loss of tandem paths (R214), which
a lost port, a retirement and a channel reset bring about.
-/

namespace Sys2Proof.Machine

/-! ## The landing buffer -/

/-- Entries reserved for a class (R209). -/
def State.reserve (s : State) (c cls : Nat) : Nat := bitsOf (s.word (.tnd (Fin.ofNat 4 c)) 0x100) (8 * cls) 8

/-- The shared pool of the landing buffer (R206). -/
def State.sharedPool (s : State) (c : Nat) : Nat :=
  128 - (s.reserve c 0 + s.reserve c 1 + s.reserve c 2 + s.reserve c 3)

def State.sharedFree (s : State) (c : Nat) : Nat :=
  s.sharedPool c - ((s.chan c).landing.filter fun l => l.2.shared).length

def State.reserveFree (s : State) (c cls : Nat) : Nat :=
  s.reserve c cls - ((s.chan c).landing.filter fun l => l.2.cls = cls && !l.2.shared).length

/-- A class is withholding (R206). -/
def State.withholds (s : State) (c cls : Nat) : Bool :=
  s.reserveFree c cls = 0 && s.sharedFree c = 0

/-- The bits of TND_LB_STAT.WITHHOLD (R210). -/
def State.withholdBits (s : State) (c : Nat) : Nat :=
  ((List.range 4).map fun k => bit (s.withholds c k) * 2 ^ k).sum

/-- TND INT_RAW.WITHHOLD sets where a class has begun to withhold since an earlier state (R655). -/
def State.withheldSince (s before : State) (c : Nat) : State :=
  if (List.range 4).any fun k => s.withholds c k && !before.withholds c k then
    s.raise (.tnd (Fin.ofNat 4 c)) 0
  else s

/-- An entry is taken for a class: from its reserve while that has room, and otherwise from the
shared pool (R206). -/
def State.takeLanding (s : State) (c cls : Nat) (m : Option Moving) : Option (Nat × State) :=
  if s.withholds c cls then none
  else
    ((List.range 128).find? fun i => !((s.chan c).landing.any fun l => l.1 = i)).map fun i =>
      let entry : Landing := { cls := cls, shared := s.reserveFree c cls = 0, block := m }
      (i, (s.modChan c fun x => { x with landing := Tab.set x.landing i entry }).withheldSince s c)

def State.dropLanding (s : State) (c i : Nat) : State :=
  s.modChan c fun x => { x with landing := Tab.erase x.landing i }

/-- A held entry of a class, for a block that came under the credit which holds it. -/
def State.heldLanding (s : State) (c cls : Nat) : Option Nat :=
  ((s.chan c).landing.find? fun l => l.2.cls = cls && l.2.block = none).map (·.1)

/-- The credits of a class on the hops of a channel; each link to and from the hub holds four blocks
of a class (R201). -/
def Channel.upCredit (x : Channel) (cls : Nat) : HopCredit := Tab.get ⟨4, 0, 0⟩ x.up cls
def Channel.downCredit (x : Channel) (cls : Nat) : HopCredit := Tab.get ⟨4, 0, 0⟩ x.down cls

/-- The credits of a class that a relay cell holds: two blocks (R201). -/
def Relay.credit (r : Relay) (cls : Nat) : HopCredit := Tab.get ⟨2, 0, 0⟩ r.credits cls

/-! ## Loss of a path (R214) -/

/-- The path of a block that is addressed to a channel of this device comes from a channel. -/
def pathOf (m : Moving) : Nat := m.port.getD (16 + m.block.hdr.sch)

/-- The landed entries of a context's tag on a channel. -/
def Channel.landed (x : Channel) (ctx tag : Nat) : List (Nat × Moving) :=
  x.landing.filterMap fun (l : Nat × Landing) =>
    match l.2.block with
    | some m => if m.block.hdr.dctx = ctx ∧ m.block.hdr.tag = tag then some (l.1, m) else none
    | none => none

/-- The spilled blocks of a context's tag on a channel. -/
def Channel.spilled (x : Channel) (ctx tag : Nat) : List Spill :=
  x.spills.filter fun p => p.ctx = ctx && p.block.block.hdr.tag = tag

/-- The blocks of a context's tag that have landed or been spilled are released and counted in LOST (R212,
R214). -/
def State.loseLanded (s : State) (c ctx tag : Nat) : State :=
  let is := ((s.chan c).landed ctx tag).map (·.1)
  let n := is.length + ((s.chan c).spilled ctx tag).length
  if n = 0 then s
  else
    let s1 := (is.foldl (fun s i => s.dropLanding c i) s).modChan c fun x => { x with
      spills := x.spills.filter fun p => !(p.ctx = ctx && p.block.block.hdr.tag = tag) }
    (s1.bump (.tnd (Fin.ofNat 4 c)) Reg.tndCnt_LOST n).raise (.tnd (Fin.ofNat 4 c)) 2

/-- What the loss of a path means for a link. -/
inductive LinkLoss where
  /-- It awaits a block over the path. -/
  | awaits
  /-- It sends by the path. -/
  | sends
  deriving DecidableEq, Repr

/-- A link that awaits a block over a lost path, or that sends by it. A receiver that has folded all eight
blocks is not affected. Until a block of its partial has come, the path that the partial takes is known to its
sender only. -/
def State.linkLoss (s : State) (c : Nat) (x : TileSlot) (path : Nat) (sends : EngCmd → Bool) : Option LinkLoss :=
  match x.last with
  | none => none
  | some k =>
    let role := tRole k.descs
    let crosses (w : Await) : Bool :=
      let came := w.paths ++ ((s.chan c).landed x.ctx w.tag).map (fun l => pathOf l.2)
        ++ ((s.chan c).spilled x.ctx w.tag).map fun p => pathOf p.block
      came.contains path || came.isEmpty && Config.pathCrosses path x.ctx w.tag
    if x.state = .filling && x.await.any fun w => w.folded ≠ 0xff && crosses w then some .awaits
    else if (x.state = .draining && role = roleHead || x.await.isSome && role = roleMid)
        && x.accepted < 8 && sends k then some .sends
    else none

/-- A path is lost for one tile: a link that awaits a block over it, or that sends by it, completes
REMOTE_LOST. -/
def State.tilePathLost (s : State) (c e t : Nat) (path : Nat) (sends : EngCmd → Bool) : State :=
  let x := s.tile c e t
  match x.last, s.linkLoss c x path sends with
  | some k, some .awaits =>
    let tag := tIntag k.descs + k.idx
    ((s.loseLanded c x.ctx tag).loseTile c e t stRemoteLost (some causeRemoteLost)).logOut c 0x07 tag
  | some k, some .sends =>
    (s.loseTile c e t stRemoteLost none).logOut c 0x07 (tOuttag k.descs + k.idx)
  | _, _ => s

/-- An engine's part of a saved context without the tile of a slot. -/
def EngShare.without (g : EngShare) (t : Nat) : EngShare :=
  { g with
    tiles := g.tiles.filter fun y => y.1 ≠ t
    runs := g.runs.filter fun r => r.slot ≠ t
    drains := g.drains.filter (· ≠ t)
    sending := g.sending.filter fun m => m.tile ≠ some t }

/-- The engine parts of a saved context on a channel change. -/
def State.modShare (s : State) (c ctx : Nat) (f : EngShare → EngShare) : State :=
  { s with shares := s.shares.map fun sh =>
      if sh.chan = c ∧ sh.ctx = ctx then { sh with engines := sh.engines.map f } else sh }

/-- A path is lost for one link of a context that is away (R214, R460). -/
def State.savedPathLost (s : State) (c e t : Nat) (x : TileSlot) (path : Nat) (sends : EngCmd → Bool) : State :=
  let drop (s : State) : State :=
    (s.ecsDone c x.closing stRemoteLost).modShare c x.ctx fun g => if g.slot = e then g.without t else g
  match x.last, s.linkLoss c x path sends with
  | some k, some .awaits =>
    let tag := tIntag k.descs + k.idx
    (drop ((s.loseLanded c x.ctx tag).sendBreak c e k x.tkind causeRemoteLost)).logOut c 0x07 tag
  | some k, some .sends => (drop s).logOut c 0x07 (tOuttag k.descs + k.idx)
  | _, _ => s

/-- A path is lost on every channel of the device, for the links in the engines and for those of contexts
that are away. -/
def State.pathLost (s : State) (path : Nat) (sends : Nat → EngCmd → Bool) : State :=
  let s1 := (List.range 4).foldl (fun s c =>
    (s.chan c).engines.foldl (fun s g =>
      (List.range 8).foldl (fun s t => s.tilePathLost c g.1 t path (sends c)) s) s) s
  s.shares.foldl (fun s sh =>
    sh.engines.foldl (fun s g =>
      g.tiles.foldl (fun s t => s.savedPathLost sh.chan g.slot t.1 t.2 path (sends sh.chan)) s) s) s1

/-- A channel's link to the hub has room for more blocks of a class: their credits are owed (R202). -/
def State.oweUp (s : State) (c cls : Nat) : State :=
  s.modChan c fun y =>
    let k := y.upCredit cls
    { y with up := Tab.set y.up cls { k with owed := k.owed + 1 } }

/-- Blocks of every channel that wait at the hub switch are released; their credits return (R37, R207). -/
def State.dropSwitch (s : State) (gone : Moving → Bool) : State :=
  (List.range 4).foldl (fun s c =>
    let ms := (s.chan c).switch.filter gone
    ms.foldl (fun s m => s.oweUp c m.block.hdr.cls) <|
      s.modChan c fun x => { x with switch := x.switch.filter fun m => !gone m }) s

/-- R214 for a lost harness port; blocks at the hub switch for the port are released (R207). -/
def State.portPathsLost (s : State) (p : PortId) : State :=
  (s.dropSwitch fun m => m.next = p.val).pathLost p.val fun _ k => tNext k.descs = p.val

/-- R214 for a channel that a retirement or a reset takes away (R605, R612). -/
def State.channelPathsLost (s : State) (c : Nat) : State :=
  (s.dropSwitch fun m => m.next = 16 && m.block.hdr.dch = c).pathLost (16 + c) fun d k =>
    d ≠ c && tNext k.descs = 16 && tDch k.descs = c

end Sys2Proof.Machine
end

