-- ==== Sys2Proof/Machine/Sites.lean ====
section
/-!
DEFINITION. What happens when a tile leaves FILLING (R172, R190), and the strike rule: strikes,
re-runs, guest runs, declarations and remount substitutions (R587 to R600).
-/

namespace Sys2Proof.Machine

/-! ## Resets of a page (R19 to R21) -/

/-- A register word after a reset of a class that covers the page: a field whose own class is wider
keeps its value. -/
def resetKeeps (p : Page) (off cls v : Nat) : Nat :=
  (fieldsAt p off).foldl (fun w f =>
    if cls < f.cls then setBits w f.lo f.w (bitsOf v f.lo f.w) else w) (resetWord p off)

/-- The registers of a page after a reset of a class, and its CYC counter (R20, R566). -/
def State.resetPage (s : State) (p : Page) (cls : Nat) : State :=
  ({ s with regs := s.regs.map fun (x : Nat × Nat) =>
      if x.1 / 4096 = pageIndex p then (x.1, resetKeeps p (x.1 % 4096) cls x.2) else x }.setBlockRun p
    {}).zeroCyc p

/-! ## Re-runs (R590) -/

/-- A tile at its fresh-claim values, with its tag (R590). -/
def TileSlot.afresh (x : TileSlot) : TileSlot :=
  { x with
    counter := 0, longsum := false, mismatch := false, guardDenied := false, usedFallback := false
    retries := 0, reissued := false, isTail := false, tailDone := false, mateMismatch := false
    chainRetries := 0, totals := [], runs := [], promoting := [], promoted := []
    stats := [], pooled := [], raw := [], await := none, accepted := 0, resume := none }

/-- The commands of a re-run, numbered anew from `uid` on. -/
def repeats (uid : Nat) (ks : List EngCmd) : List EngCmd :=
  ks.zipIdx.map fun k =>
    { k.1 with uid := uid + k.2, again := true, refetch := k.1.buffer.isSome }

/-- Repeated commands enter an engine's queue, in front or behind. Those in front have their slices loaded
again (R164). -/
def State.queueRepeats (s : State) (c e : Nat) (ks : List EngCmd) (front : Bool) : State :=
  let uid := (s.chan c).nextUid
  let ks' := repeats uid ks
  let s1 := s.modChan c fun x => { x with nextUid := uid + ks.length }
  (s1.modEngine c e fun g =>
    if front then
      { g with
        queue := ks' ++ g.queue
        regA := { g.regA with holds := none }, regB := { g.regB with holds := none } }
    else { g with queue := g.queue ++ ks' }).sweep c e

/-- The repetitions of a tile's commands that still wait in the queue are withdrawn. -/
def State.dropRepeats (s : State) (c e : Nat) (x : TileSlot) : State :=
  s.modEngine c e fun g =>
    { g with queue := g.queue.filter fun q => !(q.again && q.ofTile x) }

/-- What runs again: the re-run list, and then the DRAIN command that the tile still owes (R590). -/
def TileSlot.redo (x : TileSlot) : List EngCmd := x.list ++ x.closing.filter fun k => k.op = opDrain

/-- The tile re-runs on its own engine, or completes TILE_LOST where it is not re-runnable. -/
def State.rerunHere (s : State) (c e t : Nat) : State :=
  let x := s.tile c e t
  if x.rerunnable then
    (((s.dropRepeats c e x).dropRuns c e t).modTile c e t fun x =>
      { x.afresh with state := .held }).queueRepeats c e x.redo true
  else s.loseTile c e t stTileLost (some causeTileLost)

/-! ## Guest runs (R592) -/

/-- Free credits of a slot's engine command queue. -/
def State.freeCredits (s : State) (c e : Nat) : Nat := (s.engine c e).credit.held

/-- The slot with the most free engine-queue credits, ties to the lower slot number. -/
def State.mostCredits (s : State) (c : Nat) (slots : List Nat) : Option Nat :=
  slots.foldl (fun best e =>
    match best with
    | some b => if s.freeCredits c b < s.freeCredits c e then some e else some b
    | none => some e) none

/-- The slot of a guest run. -/
def State.guestSlot (s : State) (c e : Nat) (guarded : Bool) : Option Nat :=
  let ok (k : Nat) : Bool := k ≠ e && s.blk (engPage c k) = blkOn && !s.isSecondary c k
  if guarded then
    s.mostCredits c ((List.range 8).filter fun k => ok k && (s.gait c ≠ gWalk || k % 2 = 0))
  else
    let pool := (List.range 8).map (64 + ·)
    match pool.find? fun k => ok k && s.siteIn c k ≠ 0x7f with
    | some k => some k
    | none => s.mostCredits c ((List.range 64).filter ok)

/-- The tile and the commands that name it move to a guest's slot, where the tile re-runs (R177, R592). -/
def State.moveGuest (s : State) (c e t k : Nat) : State :=
  let x := s.tile c e t
  let own (q : EngCmd) : Bool := q.ofTile x
  let s0 := s.dropRepeats c e x
  let moved := (s0.engine c e).queue.filter own
  let s1 := (s0.dropRuns c e t).modEngine c e fun g =>
    { g with
      queue := g.queue.filter fun q => !own q
      credit := { g.credit with owed := g.credit.owed + moved.length } }
  let s2 := (s1.modEngine c e fun g => g.setTile t {}).sweep c e
  let s3 := (s2.modEngine c k fun g =>
    { g with
      incoming := g.incoming ++ [{ x.afresh with state := .held }]
      credit := { g.credit with held := g.credit.held - moved.length } }).queueRepeats c k x.redo false
  (s3.modEngine c k fun g => moved.foldl Engine.enqueue g).logDec c 0x03 (k + x.name * 2 ^ 8)

/-- The tile re-runs as a guest (R592), or completes TILE_LOST where it is not re-runnable. -/
def State.rerunAsGuest (s : State) (c e t : Nat) : State :=
  let x := s.tile c e t
  if x.rerunnable then
    match s.guestSlot c e x.guarded with
    | none => s.rerunHere c e t
    | some k => s.moveGuest c e t k
  else s.loseTile c e t stTileLost (some causeTileLost)

/-- The tile of a recorded mismatch re-runs in a replay where the log placed it (R637). -/
def State.rerunRecorded (s : State) (c e t : Nat) : State :=
  match s.forced c 0x03 with
  | some v =>
    if v / 2 ^ 8 = (s.tile c e t).name && v % 2 ^ 8 ≠ e && (s.tile c e t).rerunnable then
      s.moveGuest c e t (v % 2 ^ 8)
    else s.rerunHere c e t
  | none => s.rerunHere c e t

/-! ## Substitution (R593 to R600) -/

/-- The pool slot whose engine is the remount (R594). -/
def State.remount (s : State) (c e : Nat) : Option Nat :=
  let pool := ((List.range 8).map (64 + ·)).filter fun k => k ≠ e && s.siteIn c k ≠ 0x7f
  match pool.find? fun k => (s.site c (s.siteIn c k)).lastSlot ≠ e with
  | some k => some k
  | none => pool.head?

/-- The tiles of a failed site, with their slots, in the order of their re-runs: by completion, FILLING tiles
last (R595). -/
def Engine.rerunOrder (g : Engine) : List (Nat × TileSlot) :=
  let used := g.slots.filter fun t => t.2.state ≠ .free
  let late := used.filter fun t => t.2.state = .filling
  let early := used.filter fun t => t.2.state ≠ .filling
  early.mergeSort (fun a b => a.2.stamp ≤ b.2.stamp) ++ late

/-- A tile re-runs where it is moved (R595). A tile that is being sealed or restored is on its way to or from
memory, and goes on as it is. -/
def TileSlot.rerunsMoved (x : TileSlot) : Bool :=
  match x.state with
  | .filling | .draining | .parked | .held => true
  | .free | .sealing | .restoring => false

/-- A tile as it moves to the remount: in the same state, at its fresh-claim values where it re-runs (R590,
R595). -/
def TileSlot.moved (x : TileSlot) : TileSlot := if x.rerunsMoved then x.afresh else x

def colmapOffsets : List Nat := [0x100, 0x104, 0x108, 0x10c]

/-- A site takes a slot with its own column map (R105). -/
def State.takeSlot (s : State) (c e site : Nat) : State :=
  let map := (s.site c site).colmap
  let s1 := s.modChan c fun x => { x with slotMap := Tab.set x.slotMap e site }
  colmapOffsets.zipIdx.foldl (fun s o => s.setWord (engPage c e) o.1 (map.getD o.2 0)) s1

/-- A site leaves its slot: its column map stays with it. -/
def State.leaveSlot (s : State) (c e : Nat) : State :=
  let map := colmapOffsets.map fun o => s.word (engPage c e) o
  let s1 := if s.siteIn c e = 0x7f then s else s.modSite c (s.siteIn c e) fun x => { x with colmap := map }
  s1.modChan c fun x => { x with slotMap := Tab.set x.slotMap e 0x7f }

/-- The commands that stand in an engine's queue or in its scan unit, oldest first, without the
repetitions of its tiles. -/
def Engine.standing (g : Engine) : List EngCmd :=
  let own (q : EngCmd) : Bool := g.slots.any fun t =>
    t.2.state ≠ .free && q.ofTile t.2
  g.scanning.toList ++ g.reentry.toList ++ g.queue.filter fun q => !(q.again && own q)

/-- A pool engine is taken as the remount of a failing slot (R593 steps 2 to 6, R595). Tiles that the
pool engine ran as a guest stay with it, and those not parked re-run too. -/
def State.substitute (s : State) (c e k : Nat) : State :=
  let old := s.engine c e
  let new := s.engine c k
  let site := s.siteIn c k
  let blk := s.blk (engPage c k)
  let epoch := (s.epoch c e + 1) % 16
  let order := old.rerunOrder
  let guests := new.rerunOrder
  let reruns (t : Nat × TileSlot) : Bool := t.2.rerunsMoved
  let fails (t : Nat × TileSlot) : Bool := t.2.rerunsMoved && !t.2.rerunnable
  let runGuests := guests.filter fun t => t.2.state ≠ .parked
  let lost := (order ++ runGuests).filter fails
  let kept := order.filter fun t => !fails t
  let came := guests.filter fun t => t.2.state = .parked || !fails t
  let standing := old.standing ++ new.standing
  let s1 := ((s.leaveSlot c e).leaveSlot c k).takeSlot c e site
  let s2 := lost.foldl (fun s t => s.ecsDone c t.2.closing stTileLost) s1
  let s3 := ((s2.resetPage (engPage c e) clsEngine).resetPage (engPage c k) clsEngine)
  let s4 := (s3.wr (engPage c e) Reg.engSlotId_EPOCH epoch).setBlk (engPage c e) blk
  let s5 := s4.wr (engPage c e) Reg.blkCtrl_EN 1
  let s6 := (s5.modEngine c e fun _ =>
    { ({} : Engine) with
      tiles := kept.foldl (fun ts t => Tab.set ts t.1 t.2.moved) []
      credit := { held := 32 - (standing.filter fun q => !q.again).length }
      incoming := old.incoming ++ new.incoming ++ came.map fun t =>
        if t.2.state = .parked then t.2 else { t.2.moved with state := .held } }).modEngine c k fun _ => {}
  let s7 := ((kept ++ came.filter fun t => t.2.state ≠ .parked).filter reruns).foldl
    (fun s t => s.queueRepeats c e t.2.redo false) s6
  let s8 := s7.modEngine c e fun g =>
    standing.foldl (fun g q =>
      if q.again then ({ g with queue := g.queue ++ [q] } : Engine).follow else g.enqueue q) g
  let s9 := s8.modSite c site fun x => { x with state := 0, lastSlot := if e < 64 then e else x.lastSlot }
  let r := Page.ras
  let s10 := s9.wr r (Reg.rasChStat_POOL c) (s9.rd r (Reg.rasChStat_POOL c) - 1)
  let s11 := ((s10.bump r Reg.rasCnt_SUBST).raise r 1).modChan c fun x =>
    { x with
      substAt := Tab.set x.substAt e (s.cyc domHub)
      substWait := x.substWait.erase e }
  (match primaryOf gTrot k with
    | some p => if s.gait c = gTrot then s11.modEngine c p fun g => { g with paired := false } else s11
    | none => s11).logOut c 0x08 (site + e * 2 ^ 8 + epoch * 2 ^ 16)

/-- A site is declared failed: its slot's engine is held in reset, and a remount takes the slot, at
once or when the interval of R600 has passed. With the pool empty the channel is to retire (R604). -/
def State.declareFailed (s : State) (c e : Nat) : State :=
  let site := s.siteIn c e
  let s1 := (s.modSite c site fun x => { x with state := 2, lastSlot := if e < 64 then e else x.lastSlot }).bump
    .ras (Reg.rasChStat_FAILED c)
  let s2 := (s1.modEngine c e fun g => { g with
      runs := [], relay := {}, drain := none, output := [], writes := [] }).setBlk (engPage c e) blkOff
  match s.remount c e with
  | none => s2.modChan c fun x => { x with failing := some 1 }
  | some k =>
    if (s.chan c).substAt.any fun x => x.1 = e ∧ s.cyc domHub < x.2 + 2 ^ 20 then
      s2.modChan c fun x => { x with substWait := x.substWait ++ [e] }
    else s2.substitute c e k

/-! ## The strike rule (R587) -/

/-- A strike is added to the site in a slot. -/
def State.strike (s : State) (c e : Nat) : State :=
  ((s.modSite c (s.siteIn c e) fun x =>
    { x with strikes := (x.strikes ++ [x.tiles]).drop (x.strikes.length - 2) }).bump .ras
    Reg.rasCnt_STRIKES).raise .ras 0 |>.logOut c 0x08 (s.siteIn c e + e * 2 ^ 8 + s.epoch c e * 2 ^ 16)

/-- A tile becomes HELD and the strike rule acts (R587). During a replay a live mismatch re-runs the
tile once on its own engine without a strike (R638). -/
def State.hold (s : State) (c e t : Nat) : State :=
  let s1 := s.modTile c e t fun x => { x with state := .held, heldTimes := x.heldTimes + 1 }
  if s.replayOn c then
    if s.recorder.mismatches.contains (e, t) then
      (s1.modRec fun r => { r with mismatches := r.mismatches.erase (e, t) }).rerunRecorded c e t
    else s1.upset (e, t) fun s => s.rerunHere c e t
  else
    let s2 := s1.strike c e
    let n := (s2.site c (s2.siteIn c e)).live
    let lost : Bool := 3 ≤ (s1.tile c e t).heldTimes
    let s3 := if lost then s2.loseTile c e t stTileLost (some causeTileLost) else s2
    if 3 ≤ n then s3.declareFailed c e
    else if lost then s3
    else if n = 2 then s3.rerunAsGuest c e t
    else s3.rerunHere c e t

/-! ## Leaving FILLING (R172, R190) -/

/-- The next command of the engine queue accumulates into the tile (R172). -/
def Engine.continued (g : Engine) (x : TileSlot) : Bool :=
  match g.queue with
  | k :: _ => k.ofTile x && hdAccum k.descs && k.op ≠ opDrain
  | [] => false

/-- The end action of a tile's last command is taken (R172). -/
def State.endAction (s : State) (c e t : Nat) : State :=
  let x := s.tile c e t
  match x.last with
  | none => s
  | some k =>
    if hdPark k.descs && k.op ≠ opDrain && tRole k.descs ≠ roleHead then
      (s.ecsDone c x.closing stOk).modTile c e t fun x =>
        { x with state := .parked, closing := [], await := none, heldTimes := 0 }
    else
      let own (q : EngCmd) : Bool := q.num = k.num && q.idx = k.idx
      let before := x.closing.filter fun q => !own q
      (s.ecsDone c before stOk).modEngine c e fun g =>
        { (g.setTile t { x with
              state := .draining, await := none, heldTimes := 0
              closing := x.closing.filter own }) with drains := g.drains ++ [t] }

/-- A tile completes (R174). -/
def State.stampTile (s : State) (c e t : Nat) : State :=
  s.modEngine c e fun g =>
    { (g.setTile t { g.tile t with stamp := g.stamps + 1 }) with stamps := g.stamps + 1 }

/-- A command of a MID or a TAIL (R190). -/
def EngCmd.receives (k : EngCmd) : Bool := tRole k.descs = roleMid || tRole k.descs = roleTail

/-- A link awaits once its own K-slices are complete: its lanes have finished, no repetition of its commands
waits, and its promotions are in ACCM (R191, R197). -/
def State.tryAwait (s : State) (c e t : Nat) : State :=
  let x := s.tile c e t
  let g := s.engine c e
  match x.last with
  | some k =>
    if k.receives && x.state = .filling && x.await.isNone && !x.tailDone && !x.mismatch && x.promoting.isEmpty
        && !(g.runs.any fun r => r.slot = t) && !(g.queue.any fun q => q.again && q.ofTile x) then
      s.modTile c e t fun y => { y with await := some { tag := tIntag k.descs + k.idx } }
    else s
  | none => s

/-- The end action of a tile whose next command may accumulate into it (R172). -/
def State.endOrContinue (s : State) (c e t : Nat) : State :=
  let x := s.tile c e t
  match x.last with
  | some k => if hdPark k.descs && k.op ≠ opDrain && (s.engine c e).continued x then s else s.endAction c e t
  | none => s

/-- A tile is complete under R99: it becomes HELD, awaits, parks, drains, or stays FILLING for the
next command that accumulates into it. DESIGN CHOICE: a tile with its mismatch flag set becomes HELD whatever
its next command is, since R172 names both outcomes. A tile leaves FILLING while its last promotions are
under way (DEDUCED from R151 and the examples of chapter 7), and a drain waits for them. -/
def State.completeTile (s : State) (c e t : Nat) : State :=
  let x := s.tile c e t
  match x.last with
  | none => s
  | some k =>
    let s1 := s.modSite c (s.siteIn c e) fun y => { y with tiles := y.tiles + 1 }
    if x.mismatch then (s1.stampTile c e t).hold c e t
    else if k.receives then s1.tryAwait c e t
    else if tRole k.descs = roleNone then (s1.stampTile c e t).endOrContinue c e t
    else (s1.stampTile c e t).endAction c e t

/-- A run whose lanes have all finished ends; the tile completes unless another command in progress
continues it (R99, R127, R172). -/
def State.endRuns (s : State) (c e : Nat) : State :=
  let g := s.engine c e
  match g.runs.find? fun r => (List.range 8).all fun l => (Tab.get {} r.lanes l).done with
  | none => s
  | some r =>
    let s1 := ((s.unbind c e r.cmd.uid).freeEntry c e r.cmd).modEngine c e fun g =>
      { g with runs := g.runs.filter fun q => q.cmd.uid ≠ r.cmd.uid }
    let s2 := s1.sweep c e
    if s2.engine c e |>.runs.any fun q => q.slot = r.slot then s2 else s2.completeTile c e r.slot

end Sys2Proof.Machine
end

