-- ==== Sys2Proof/Machine/Tiles.lean ====
section
/-!
DEFINITION. Tile slots (R168 to R184): the claim of a slot with its tag check and guard decision, the
sealing of a parked tile and the return of its image.
-/

namespace Sys2Proof.Machine

/-! ## Contexts as the engines see them -/

/-- A context's record (R449). -/
def State.ctxRec (s : State) (n : Nat) : CtxRec := Tab.get {} s.ctxs n
def State.modCtx (s : State) (n : Nat) (f : CtxRec → CtxRec) : State :=
  { s with ctxs := Tab.set s.ctxs n (f (s.ctxRec n)) }

/-- The context is RESIDENT: its sequencers run (R458, R462). -/
def State.ctxRuns (s : State) (ctx : Nat) : Bool :=
  (s.slotOfCtx ctx).elim false fun i => s.rd .ctx (Reg.ctxSlot_STATE i) = 2

/-- A micro-instruction, a placement or a fetch for a context ends its being blocked (R465). -/
def State.active (s : State) (ctx : Nat) : State :=
  (s.slotOfCtx ctx).elim s fun i =>
    if s.flag .ctx (Reg.ctxSlot_BLOCKED i) then s.wr .ctx (Reg.ctxSlot_BLOCKED i) 0 else s

/-- A transfer of a context that waited at its save has completed (R470). -/
def State.wake (s : State) (ctx : Nat) : State :=
  if (s.ctxRec ctx).state = 1 then s.modCtx ctx fun r => { r with woken := true } else s

/-- Channel `c`'s save region of a context, and the spaces for tile images in it (R475). -/
def State.saveRegion (s : State) (c ctx : Nat) : Nat :=
  (s.ctxRec ctx).saveVa + c * (s.ctxRec ctx).saveMb * 2 ^ 20
def tileImageBytes : Nat := 81920
def State.imageVa (s : State) (c ctx space : Nat) : Nat :=
  s.saveRegion c ctx + 64 * 2 ^ 20 + space * 96 * 1024

/-- The lowest free space for a tile image of a context (R475). -/
def State.freeSpace (s : State) (c ctx : Nat) : Option Nat :=
  let moving (sp : Nat) : Bool := (s.chan c).engines.any fun (g : Nat × Engine) =>
    g.2.slots.any fun t => t.2.state = .sealing && t.2.ctx = ctx && t.2.space = sp
  (List.range (((s.ctxRec ctx).saveMb - 64) * 1024 / 96)).find? fun sp =>
    !((s.chan c).tileImages.any fun i => i.ctx = ctx && i.space = sp) && !moving sp

/-! ## Sealed writes -/

/-- The pages that an access reaches: target, address and length of each piece, or none where a page
could not be reached. -/
def State.reachAll (s : State) (a : MemAccess) (n : Nat) : State × Option (List (Target × Nat × Nat)) :=
  (piecesOf a.va n).foldl (fun (r : State × Option (List (Target × Nat × Nat))) p =>
    match r.2 with
    | none => r
    | some ps =>
      match r.1.reach { a with va := p.1 } with
      | (s1, some (t, addr)) => (s1, some (ps ++ [(t, addr, p.2)]))
      | (s1, none) => (s1, none)) (s, some [])

/-- A sealed image of `n` bytes is written (R476): its layout is not defined, so what it leaves in a
store is open. -/
def State.sealVa (s : State) (a : MemAccess) (n : Nat) : State × Bool :=
  match s.reachAll { a with write := true } n with
  | (s1, none) => (s1, false)
  | (s1, some ps) =>
    (ps.foldl (fun s (p : Target × Nat × Nat) =>
      match p.1 with
      | .host => (s.emit (.hostWrite p.2.1
          ((List.range p.2.2).map fun i => Config.undefByte s.drawn i))).draw
      | t => (s.countHbm (reqCh? a.req) t hbmSave p.2.2).modMem t fun m =>
          m.lose p.2.1 (p.2.1 + p.2.2)) s1, true)

/-- A sealed image of `n` bytes is read: whether all of it was, and whether a word was poisoned. What it
holds has no layout (R476), so the bytes that the recorder takes in are open. -/
def State.openVa (s : State) (a : MemAccess) (n : Nat) : State × Bool × Bool :=
  match s.reachAll a n with
  | (s1, none) => (s1, false, false)
  | (s1, some ps) =>
    let host : Nat := ((ps.filter fun p => p.1 = .host).map (·.2.2)).sum
    let bad : Bool := ps.any fun p => (s1.mem p.1).poisonedAt p.2.1 p.2.2
    let s2 := ps.foldl (fun s (p : Target × Nat × Nat) => s.countHbm (reqCh? a.req) p.1 hbmSave p.2.2) s1
    let s3 := match reqCh? a.req with
      | some c =>
        if host = 0 then s2
        else (s2.logInput c domPcie 0x1 ((List.range host).map (Config.undefByte s.drawn))).draw
      | none => s2
    (s3, true, bad)

/-! ## Victims (R174 to R176) -/

/-- The PARKED tile that a claim without a FREE slot seals. -/
def State.victim (s : State) (c e : Nat) : Option Nat :=
  let g := s.engine c e
  let parked := g.slots.filter fun t => t.2.state = .parked && !t.2.paused && (s.freeSpace c t.2.ctx).isSome
  let unnamed := parked.filter fun t => !(g.queue.any (·.ofTile t.2))
  let oldest (ts : List (Nat × TileSlot)) : Option Nat :=
    (ts.foldl (fun (best : Option (Nat × TileSlot)) t =>
      match best with
      | some b => if t.2.stamp < b.2.stamp then some t else some b
      | none => some t) none).map (·.1)
  if unnamed.isEmpty then oldest parked else oldest unnamed

/-- A claim finds no FREE slot: it waits for a seal or a restore under way, and otherwise starts
sealing a victim. A transfer stalled on a fault does not make it wait (R176). -/
def State.makeRoom (s : State) (c e : Nat) : State :=
  let g := s.engine c e
  let moving : Bool := g.slots.any fun t =>
    (t.2.state = .sealing || t.2.state = .restoring) &&
      !s.stalled (.seal (Fin.ofNat 4 c) (Fin.ofNat 72 e) (Fin.ofNat 8 t.1))
  if moving then s
  else
    let may (t : Nat) : Bool := (s.tile c e t).state = .parked && (s.freeSpace c (s.tile c e t).ctx).isSome
    match s.chosen c 0x04 id may (s.victim c e) with
    | some t => (s.modTile c e t fun x =>
        { x with state := .sealing, space := (s.freeSpace c x.ctx).getD 0 }).logDec c 0x04 t
    | none => s

def Engine.freeSlot (g : Engine) : Option Nat :=
  (g.slots.find? fun t => t.2.state = .free).map (·.1)

/-! ## The end of the queue's head -/

def State.popQueue (s : State) (c e : Nat) : State :=
  s.modEngine c e fun g => { g with queue := g.queue.drop 1 }

/-- The head leaves the queue to begin in a tile: the next tile's order follows its own (R80). -/
def State.beginHead (s : State) (c e : Nat) (k : EngCmd) : State :=
  (s.popQueue c e).modEngine c e fun g => { g with ranOrder := k.ran }

/-- A tile whose last command's end action waited for a continuation that did not come takes it
(R172). -/
def State.settle (s : State) (c e : Nat) : State :=
  (s.engine c e).slots.foldl (fun s t =>
    let x := s.tile c e t.1
    let g := s.engine c e
    let ended : Bool := x.tailDone || x.last.any fun k => tRole k.descs = roleNone
    if x.state = .filling ∧ x.await = none ∧ ended ∧ !(g.runs.any fun r => r.slot = t.1)
        ∧ !g.continued x ∧ !(g.queue.any fun k => k.again && k.ofTile x) then
      s.endAction c e t.1
    else s) s

/-- The head of an engine queue completes without a claim. -/
def State.dismiss (s : State) (c e : Nat) (k : EngCmd) (status : Nat) : State :=
  ((((s.popQueue c e).freeEntry c e k).ecDone c k status).sweep c e).settle c e

/-! ## Tags and guards (R161 to R163, R181, R182) -/

/-- The command's formats match the tag (R74). -/
def TileSlot.matchesTag (x : TileSlot) (k : EngCmd) : Bool :=
  x.afmt = hdAfmt k.descs && x.wfmt = hdWfmt k.descs && x.tkind = pathTkind k

/-- The command may guard a tile of this engine (R161). -/
def State.mayGuard (s : State) (e : Nat) (k : EngCmd) : Bool := e < 8 && (s.ctxRec k.ctx).guard

/-- A tile as its fresh claim leaves it (R149, R161, R181). -/
def State.freshTile (s : State) (c e : Nat) (k : EngCmd) : TileSlot :=
  let psel := s.rd (.grm (Fin.ofNat 4 c)) Reg.grmAccCfg_PSEL
  { state := .filling, ctx := k.ctx, name := k.name, afmt := hdAfmt k.descs, wfmt := hdWfmt k.descs
    tkind := pathTkind k, tagSet := true, tbase := if pathTkind k = 1 then k.group.base else 0
    interval := if s.gait c = gGallop ∨ psel = 2 then 16 else if psel = 0 then 4 else 8
    guarded := hdGuard k.descs && s.mayGuard e k
    mirrored := (s.engine c e).paired }

/-- A command accumulates into a tile: the guard decision, the re-run list and the command that the
tile's end completes (R162, R163, R366, R590). -/
def State.accumulate (s : State) (e : Nat) (k : EngCmd) (x : TileSlot) : TileSlot :=
  let d := k.descs
  let ninth : Bool := !k.again && 8 ≤ x.list.length
  let denied : Bool := hdGuard d && !(s.mayGuard e k && x.guarded)
    || hdLodger d && (x.guarded || hdGuard d) || ninth && x.guarded
  { x with
    guardDenied := x.guardDenied || denied
    guarded := x.guarded && !ninth && !hdLodger d
    rerunnable := x.rerunnable && !ninth
    list := if k.again then x.list else if ninth || !x.rerunnable then [] else x.list ++ [k]
    closing := if k.again then x.closing else x.closing ++ [k]
    last := some k, geo := some k, isTail := x.isTail || tRole d = roleTail, tailDone := false }

/-! ## Runs of commands -/

/-- The command runs on the fallback path for all of its beats (R133). -/
def State.allFallback (s : State) (c : Nat) (k : EngCmd) : Bool :=
  isProduct k.op && pathTkind k = 1 && (hdExact k.descs || s.gait c = gWalk)

/-- A command in progress takes its place among the others: behind those of its own tile, and with a tile that
an overflow re-issued in front of the engine's other tile (R669). -/
def insertRun (rs : List EngRun) (r : EngRun) (urgent : Bool) : List EngRun :=
  match rs.reverse.dropWhile fun q => q.slot ≠ r.slot with
  | [] => if urgent then r :: rs else rs ++ [r]
  | own => own.reverse ++ r :: rs.drop own.length

/-- A command begins in a tile: its lanes start, and lanes without positions are finished (R87). -/
def State.beginRun (s : State) (c e t : Nat) (k : EngCmd) : State :=
  let w := windowOf k.descs
  let fb := s.allFallback c k
  let unused := (List.range 8).filter fun l => !w.laneUsed k.pt l
  let run : EngRun :=
    { cmd := { k with fallback := fb }, slot := t
      bank := if isProduct k.op && pathTkind k = 1 && !fb then .unbound else .none
      lanes := unused.foldl (fun ls l => Tab.set ls l { done := true }) []
      start := s.cyc (domArith c) }
  (s.modEngine c e fun g =>
    { g with runs := insertRun g.runs run (g.tile t).reissued }).modTile c e t fun x =>
      { x with promoted := unused.foldl (fun p l =>
          Tab.set p l (Tab.get 0 p l + k.order.length)) x.promoted }

/-- A log-path command that claims a slot is bound to a bank (R126). -/
def State.bindAtClaim (s : State) (c e : Nat) (k : EngCmd) : State :=
  if isProduct k.op && pathTkind k = 1 && !s.allFallback c k then s.bindBank c e k.uid k.group else s

/-- The pair of a primary forms at its first fresh claim (R569). -/
def State.formPair (s : State) (c e : Nat) : State :=
  if !(s.engine c e).paired && s.pairReady c e then s.modEngine c e fun g => { g with paired := true }
  else s

/-- A tile whose every slice is elided completes at its claim (R272). -/
def elided (k : EngCmd) : Bool := isProduct k.op && k.order.isEmpty

/-- The head claims a tile slot, whose tile is already in it. -/
def State.enter (s : State) (c e t : Nat) (k : EngCmd) (x : TileSlot) : State :=
  let s1 := (s.beginHead c e k).modTile c e t fun _ =>
    { s.accumulate e k x with state := .filling, await := none }
  if elided k then ((s1.freeEntry c e k).sweep c e).completeTile c e t
  else (s1.beginRun c e t k).bindAtClaim c e k

/-! ## The claim (R171) -/

/-- The tile was moved while it was FILLING or DRAINING, and waits for its re-run to begin (R595), or an overflow
re-issues it (R164). -/
def Engine.waitsRerun (g : Engine) (t : Nat × TileSlot) : Bool :=
  t.2.state.inProgress && !(g.runs.any fun r => r.slot = t.1) && !g.drains.contains t.1
    && g.queue.any fun k => k.again && k.op ≠ opDrain && k.ofTile t.2

/-- A lane can begin the command's tile (R100, R171): no tile is FILLING, or a lane that has finished
the FILLING tile finds the first slice held in a ready register. -/
def Engine.laneCanBegin (g : Engine) (k : EngCmd) : Bool :=
  let filling := g.slots.filter fun t => t.2.state = .filling && !g.waitsRerun t
  let idle : Bool := filling.all fun t =>
    (List.range 8).any fun l => g.runs.all fun r => r.slot ≠ t.1 || (Tab.get {} r.lanes l).done
  let held : Bool := k.follows && (g.regA :: [g.regB]).any fun r =>
    r.ready && r.entry.elim false fun x => x.users.contains k.uid && k.order.head? = some x.slice
  filling.isEmpty || idle && held

/-- The claim of the head may take an in-progress slot. -/
def Engine.mayClaim (g : Engine) (k : EngCmd) : Bool :=
  g.inProgress < 2 && (elided k || k.op = opDrain || g.laneCanBegin k)

/-- The head claims its name fresh (R171, R179). -/
def State.claimFresh (s : State) (c e : Nat) (k : EngCmd) : State :=
  let g := s.engine c e
  if !g.mayClaim k then s
  else
    match g.freeSlot with
    | none => s.makeRoom c e
    | some t =>
      let s1 := s.formPair c e
      let x := s1.freshTile c e k
      s1.enter c e t k { x with guardDenied := hdGuard k.descs && !x.guarded }

/-- A DRAIN command takes its parked tile to DRAINING (R397). -/
def State.claimDrain (s : State) (c e t : Nat) (k : EngCmd) : State :=
  if 2 ≤ (s.engine c e).inProgress then s
  else
    ((s.popQueue c e).freeEntry c e k).modEngine c e fun g =>
      let x := g.tile t
      { (g.setTile t { x with
          state := .draining, last := some k
          closing := if k.again then x.closing else x.closing ++ [k] }) with drains := g.drains ++ [t] }

/-- The head's formats do not match the tag of the tile that it names (R74, R182). -/
def State.rejectFormats (s : State) (c e : Nat) (k : EngCmd) : State :=
  (s.dismiss c e k stFormatMismatch).bump (engPage c e) Reg.engTileCnt_MISMATCH_REJ

/-- A command that accumulates claims a parked tile once its claim can be made, or continues a FILLING one
(R171, R172, R182). -/
def State.claimInto (s : State) (c e t : Nat) (k : EngCmd) : State :=
  let x := s.tile c e t
  if x.state = .parked then
    if !(s.engine c e).mayClaim k then s
    else if !x.matchesTag k then s.rejectFormats c e k
    else s.enter c e t k x
  else
    let own := (s.engine c e).runs.filter fun r => r.slot = t
    let open' : Bool := x.await = none && !x.mismatch && x.last.elim false fun q =>
      hdPark q.descs && q.op ≠ opDrain && (tRole q.descs = roleNone || x.tailDone)
    if !open' || 2 ≤ own.length then s
    else if !x.matchesTag k then s.rejectFormats c e k
    else
      let s1 := (s.beginHead c e k).modTile c e t fun y => s.accumulate e k y
      if elided k then (s1.freeEntry c e k).sweep c e |>.settle c e
      else s1.beginRun c e t k

/-- A tile that a guest run or a substitution brought takes a slot for the command that names it. -/
def State.place (s : State) (c e : Nat) (k : EngCmd) : State :=
  let g := s.engine c e
  match g.incoming.find? k.ofTile with
  | none => s
  | some x =>
    match g.freeSlot with
    | none => s.makeRoom c e
    | some t => s.modEngine c e fun g =>
        { (g.setTile t x) with incoming := g.incoming.erase x }

/-- The re-run of an earlier tile finds both in-progress slots taken by tiles that wait for their own re-runs:
the one that re-runs last waits in HELD instead. DESIGN CHOICE: R595 moves every tile in its state and fixes the
order of the re-runs, and R168 allows two tiles in progress. -/
def State.giveWay (s : State) (c e : Nat) : State :=
  let g := s.engine c e
  let waiting := g.slots.filter g.waitsRerun
  if g.inProgress < 2 then s
  else
    match waiting.find? fun t => t.2.state = .filling, waiting.head? with
    | some (t, _), _ | none, some (t, _) => s.modTile c e t fun x => { x with state := .held }
    | none, none => s

/-- A repetition under R164 or R590 claims its tile. -/
def State.claimAgain (s : State) (c e : Nat) (k : EngCmd) : State :=
  let g := s.engine c e
  match g.slotOf k.ctx k.name with
  | none => s
  | some t =>
    let x := g.tile t
    let busy : Bool := g.runs.any fun r => r.slot = t
    if k.op = opDrain then (if x.state = .parked then s.claimDrain c e t k else s)
    else if k.refetch then s
    else if busy then (if hdAccum k.descs then s.claimInto c e t k else s)
    else if x.state = .filling || g.waitsRerun (t, x) then
      if x.reissued || !x.promoted.isEmpty || elided k || g.laneCanBegin k then s.enter c e t k x else s
    else if x.state = .held || x.state = .parked then
      if g.mayClaim k then s.enter c e t k x else s.giveWay c e
    else s

/-- A restored tile that waits for an in-progress slot takes one (R185). -/
def State.unpause (s : State) (c e : Nat) : State :=
  let g := s.engine c e
  match g.slots.find? fun t => t.2.paused with
  | some (t, _) =>
    let st : TileState := if g.drains.contains t then .draining else .filling
    if g.inProgress < 2 then (s.modTile c e t fun x => { x with state := st, paused := false }).tryAwait c e t
    else s
  | none => s

/-- TILE_CLAIM (R171, R174 to R182, R253). -/
def State.claim (s : State) (c e : Nat) : State :=
  match (s.engine c e).queue.head? with
  | none => s
  | some k =>
    if !s.engRuns c e || s.isSecondary c e || !s.ctxRuns k.ctx || !hasTileBody k.op
        || s.stalled (.drain (Fin.ofNat 4 c) (Fin.ofNat 72 e)) then s
    else
      let s0 := s.place c e k
      let g := s0.engine c e
      if k.again then s0.claimAgain c e k
      else if g.incoming.any k.ofTile then s0
      else
        match g.slotOf k.ctx k.name with
        | some t =>
          let x := g.tile t
          if x.paused then s0
          else if x.state = .parked then
            if k.op = opDrain then s0.claimDrain c e t k
            else if hdAccum k.descs then s0.claimInto c e t k
            else ((s0.freeTile c e t).bump (engPage c e) Reg.engTileCnt_DISCARDS).claimFresh c e k
          else if x.state = .filling ∧ hdAccum k.descs ∧ k.op ≠ opDrain then s0.claimInto c e t k
          else s0
        | none =>
          let image (i : TileImage) : Bool := i.ctx = k.ctx && i.name = k.name && i.engine = e
          if (s0.chan c).tileImages.any image then
            if k.op = opDrain ∨ hdAccum k.descs then
              (if g.freeSlot = none then s0.makeRoom c e else s0)
            else
              ((s0.modChan c fun y => { y with
                tileImages := y.tileImages.filter fun i => !image i }).bump (engPage c e)
                Reg.engTileCnt_DISCARDS).claimFresh c e k
          else if k.op = opDrain then s0.dismiss c e k stNoTile
          else s0.claimFresh c e k

/-- TILE_CLAIM. -/
def execTileClaim (c : Ch) (e : SlotId) (s : State) : Result := live s <| (s.unpause c e).claim c e

/-! ## Sealed tile images (R174, R175) -/

/-- The access of a seal or a restore. -/
def sealAccess (s : State) (c : Ch) (e : SlotId) (t : Nat) (x : TileSlot) : MemAccess :=
  { req := .seal c e (Fin.ofNat 8 t), ctx := x.ctx, va := s.imageVa c x.ctx x.space, write := false
    info := { tile := x.name } }

/-- The image of a tile. -/
def State.sealImage (s : State) (e : SlotId) (x : TileSlot) : TileImage :=
  { ctx := x.ctx, name := x.name, engine := e, key := s.dev.sealKey, space := x.space
    tile := { x with state := .parked } }

/-- The image is written and the slot is FREE. -/
def State.sealed (s : State) (c : Ch) (e : SlotId) (t : Nat) (x : TileSlot) (image : TileImage) : State :=
  (((s.modChan c fun y => { y with tileImages := y.tileImages ++ [image] }).bump (.eng c e)
    Reg.engTileCnt_SEALS).freeTile c e t).wake x.ctx

/-- SEAL_COMPLETE (R174): the image is written and the slot is FREE. -/
def execSealComplete (c : Ch) (e : SlotId) (t : Fin 8) (s : State) : Result :=
  live s <|
    let x := s.tile c e t
    if x.state ≠ .sealing ∨ !s.arithOn c then s
    else
      match s.sealVa (sealAccess s c e t x) tileImageBytes with
      | (s1, false) => s1
      | (s1, true) => s1.sealed c e t x (s.sealImage e x)

/-- The image that the head of an engine queue waits for. -/
def State.awaitedImage (s : State) (c e : Nat) : Option (EngCmd × TileImage) :=
  (s.engine c e).queue.head?.bind fun k =>
    if !hasTileBody k.op ∨ ((s.engine c e).slotOf k.ctx k.name).isSome then none
    else if k.op = opDrain ∨ hdAccum k.descs then
      ((s.chan c).tileImages.find? fun i => i.ctx = k.ctx && i.name = k.name && i.engine = e).map
        fun i => (k, i)
    else none

/-- TILE_RESTORE_START (R175): the image that the head of the queue names is read into a FREE
slot. -/
def execTileRestoreStart (c : Ch) (e : SlotId) (s : State) : Result :=
  live s <|
    match s.awaitedImage c e, (s.engine c e).freeSlot with
    | some (k, i), some t =>
      if s.engRuns c e && s.ctxRuns k.ctx then
        s.modTile c e t fun _ => { state := .restoring, ctx := k.ctx, name := k.name, space := i.space }
      else s
    | _, _ => s

/-- An image is that of a tile. -/
def TileImage.ofTile (i : TileImage) (e : SlotId) (x : TileSlot) : Bool :=
  i.ctx = x.ctx && i.name = x.name && i.engine = e

/-- A restored tile is back where its image is sound, and is lost with its command otherwise. -/
def State.restored (s : State) (c : Ch) (e : SlotId) (t : Nat) (x : TileSlot) (i : TileImage) (sound : Bool) : State :=
  let s2 := s.modChan c fun y => { y with tileImages := y.tileImages.filter fun j => !j.ofTile e x }
  if sound then s2.modTile c e t fun _ => i.tile
  else
    let s3 := s2.modTile c e t fun _ => {}
    match (s3.engine c e).queue.find? (·.ofTile x) with
    | some k => ((s3.sendBreak c e k i.tile.tkind causeTileLost).modEngine c e fun g =>
        { g with queue := k :: g.queue.erase k }).dismiss c e k stTileLost
    | none => s3

/-- TILE_RESTORE_COMPLETE (R175): the image has been read, or fails authentication, in which case it
is discarded and the command that waits completes TILE_LOST; a link then breaks its chain (R215). -/
def execTileRestoreComplete (c : Ch) (e : SlotId) (intact : Bool) (s : State) : Result :=
  live s <|
    match (s.engine c e).slots.find? fun t =>
        t.2.state = .restoring && !s.stalled (.seal c e (Fin.ofNat 8 t.1)) with
    | none => s
    | some (t, x) =>
      match s.arithOn c, (s.chan c).tileImages.find? fun i => i.ofTile e x,
          s.openVa (sealAccess s c e t x) tileImageBytes with
      | true, some i, (s1, done, poisoned) =>
        if !done then s1 else s1.restored c e t x i (intact && i.key = s.dev.sealKey && !poisoned)
      | _, _, _ => s

end Sys2Proof.Machine
end

