-- ==== Sys2Proof/Machine/Reading.lean ====
section
/-!
DEFINITION. The address generator: which element blocks a lane reads for one K-slice, the reads
themselves with their shared headers (R267 to R269), and the units that take its elements directly:
POOL (R279), STATS (R218 to R222) and REGROUP (R275).
-/

namespace Sys2Proof.Machine

/-! ## What a lane reads -/

/-- The positions of a lane, by patch index (R85, R87). -/
def lanePositions (w : Window) (pt l : Nat) : List Nat := (laneQs l).filter fun q => (w.posOf pt q).isSome

/-- The cell rows of a slice at a patch index: nothing for a masked row, else what lies under it. A
command without products reads its taps one by one over the channels of its row tile. -/
def rowSources (op : Nat) (w : Window) (rt pt s q : Nat) : List (Option Src) :=
  let packing := if isProduct op then op else opDwconv
  match w.posOf pt q with
  | none => []
  | some xy => (List.range 256).map fun k =>
      (cellAt packing w rt s k).map fun tc => w.source xy.1 xy.2 tc.1 tc.2

/-- The element block, by block and position, under a cell row. -/
def blockOf (w : Window) : Option Src → Option (Nat × Nat)
  | some (.elem p c) => some (c / blockLanes w.layout, p)
  | some .padding | some .const | some .beyond | none => none

/-- Positions of the input tensor. -/
def Window.inputs (w : Window) : Nat := w.iw * w.ih

/-- The reads under way of a lane: the state, what has been read, the segment headers held, whether
every read so far was answered, the host bytes left, and the engines of the channel that count the bytes read
(R283): none for reads of other units. -/
structure Reading where
  s : State
  got : List Fetched
  heads : List (Nat × Nat × Nat × Nat)
  ok : Bool := true
  ext : List Byte
  ch : Nat := 0
  counts : List Nat := []

/-- One read of the address generator (R283, R434). -/
def Reading.read (r : Reading) (a : MemAccess) (va n : Nat) : Reading × List Byte × Bool :=
  match r.s.readVa { a with va := va } hbmData n r.ext with
  | (s1, o) =>
    if o.done then
      let s2 := s1.wrapAll r.ch r.counts Reg.engAgRd_BYTES n
      ({ r with s := s2, ext := o.ext }, o.bytes, o.poisoned)
    else ({ r with s := s1, ok := false }, [], false)

/-- The header of a segment, read once for a command and a K-slice (R269): its bitmap. -/
def Reading.header (r : Reading) (a : MemAccess) (uid sl va : Nat) : Reading :=
  if !r.ok ∨ r.heads.any fun h => h.1 = uid ∧ h.2.1 = sl ∧ h.2.2.1 = va then r
  else
    let (r1, bs, poisoned) := r.read a va 32
    if r1.ok then
      { r1 with
        heads := r1.heads ++ [(uid, sl, va, leNat (bs.take 8))]
        got := if poisoned then r1.got ++ [⟨va, [], true⟩] else r1.got }
    else r1

/-- Address of the header of the segment of a block and a position (R66). -/
def Window.segVa (w : Window) (b p : Nat) : Nat :=
  w.base + segOffset w.fmt w.layout w.inputs b (p / 64)

/-- The bitmap that a lane holds for a segment. -/
def bitmapOf (heads : List (Nat × Nat × Nat × Nat)) (uid sl va : Nat) : Nat :=
  (heads.find? fun h => h.1 = uid && h.2.1 = sl && h.2.2.1 = va).elim 0 fun h => h.2.2.2

/-- Address of an element block, unless it is absent from its compressed segment (R64, R70). -/
def blockVa (w : Window) (heads : List (Nat × Nat × Nat × Nat)) (uid sl b p : Nat) : Option Nat :=
  if w.comp then
    let m := bitmapOf heads uid sl (w.segVa b p)
    if bitsOf m (p % 64) 1 = 1 then
      some (w.segVa b p + 32 + popCount m (p % 64) * elemBytes w.fmt w.layout)
    else none
  else some (w.base + denseOffset w.fmt w.layout w.inputs b p)

/-- One element block is read, with its header first. -/
def Reading.block (r : Reading) (a : MemAccess) (w : Window) (uid sl : Nat) (bp : Nat × Nat) : Reading :=
  let r1 := if w.comp then r.header a uid sl (w.segVa bp.1 bp.2) else r
  match r1.ok, blockVa w r1.heads uid sl bp.1 bp.2 with
  | true, some va =>
    if r1.got.any fun f => f.va = va && !f.bytes.isEmpty then r1
    else
      let (r2, bs, poisoned) := r1.read a va (elemBytes w.fmt w.layout)
      if r2.ok then { r2 with got := r2.got ++ [⟨va, bs, poisoned⟩] } else r2
  | _, _ => r1

/-- What a cell row presents to the array (R65, R70, R268, R273). -/
def inputOf (w : Window) (heads : List (Nat × Nat × Nat × Nat)) (got : List Fetched) (uid sl : Nat)
    (src : Option Src) : In :=
  match src with
  | none | some .beyond => .masked false
  | some .padding => .masked true
  | some .const => .code (w.padval % 2 ^ fmtBits w.fmt)
  | some (.elem p c) =>
    match blockVa w heads uid sl (c / blockLanes w.layout) p with
    | none => .absent
    | some va =>
      (got.find? fun f => f.va = va && !f.bytes.isEmpty).elim .absent fun f =>
        .code (laneOf w.fmt f.bytes (c % blockLanes w.layout))

/-- The reads of one K-slice for one lane: the inputs, or none where an access waits or stalls. -/
def State.fetchSlice (s : State) (c : Ch) (e : SlotId) (l : Fin 8) (k : EngCmd) (got : List Fetched)
    (sl : Nat) (ext : List Byte) : Reading × Option SliceIn :=
  let w := windowOf k.descs
  let rows := (lanePositions w k.pt l).map fun q => rowSources k.op w k.rt k.pt sl q
  let blocks := (rows.flatten.filterMap (blockOf w)).dedup
  let a : MemAccess :=
    { req := .addrGen c e l, ctx := k.ctx, va := 0, write := false
      info := { ring := some k.ring, cmdid := some (hdCmdid k.descs), num := some k.num
                stream := some (hdStream k.descs), tile := k.name } }
  let r0 : Reading :=
    { s := s, got := got, heads := (s.engine c e).headers, ext := ext
      ch := c, counts := s.enginesFor c e k.uid }
  let r := blocks.foldl (fun r bp => r.block a w k.uid sl bp) r0
  let s1 := r.s.modEngine c e fun g => { g with headers := r.heads }
  ({ r with s := s1 },
    if r.ok then
      some { idx := sl, poisoned := r.got.any (·.poisoned)
             inputs := rows.map fun row => row.map (inputOf w r.heads r.got k.uid sl) }
    else none)

/-! ## Elements as values -/

/-- An L8 element in the working form of the epilogue, in units of 2^-22 octave (R49). -/
def decodeL8 (d : Group) (v : Nat) : LVal :=
  let c := bitsOf v 0 7
  if v % 256 = 0 then .zero
  else if v % 256 = 0x80 then .indef
  else if c = 0x7f then .inf (bitsOf v 7 1 = 1)
  else .fin (bitsOf v 7 1 = 1) (signedOf d.base 16 * 2 ^ 18 + ((c : Int) - 64) * 2 ^ (20 - d.fsel))

/-- The integer that an A1, AT or I4 element stands for (R46 to R48). -/
def decodeInt (fmt v : Nat) : Int :=
  if fmt = fmtA1 then (if v % 2 = 1 then 1 else -1)
  else if fmt = fmtAT then (if bitsOf v 0 1 = 0 then 0 else if bitsOf v 1 1 = 1 then -1 else 1)
  else signedOf v 4

/-- An integer in LNS32 with base 0, rounded to the nearest 2^-22 octave (R221, R233). -/
def intToLns (v : Int) : LVal :=
  if v = 0 then .zero else .fin (v < 0) (log2Round (v.natAbs * 2 ^ 128) 22)

/-- The element that an input presents; nothing where it is masked. -/
def In.element : In → Option Nat
  | .masked _ => none
  | .absent => some 0
  | .code v => some v

/-! ## Pooling (R238, R239, R279) -/

/-- `a` is smaller than `b`, neither of them INDEF (R238). -/
def LVal.lt (a b : LVal) : Bool :=
  let rank : LVal → Int
    | .inf true => 0 | .fin true _ => 1 | .zero => 2 | .fin false _ => 3 | .inf false => 4 | .indef => 5
  match a, b with
  | .fin true x, .fin true y => y < x
  | .fin false x, .fin false y => x < y
  | x, y => rank x < rank y

/-- The largest element, the first among equals; a window with an INDEF yields INDEF. -/
def poolMax (vs : List LVal) : LVal :=
  if vs.contains .indef then .indef
  else match vs with
    | [] => .zero
    | v :: rest => rest.foldl (fun m x => if m.lt x then x else m) v

/-- The average of a window. -/
def poolAvg (vs : List LVal) : LVal :=
  match vs with
  | [] => .zero
  | v :: rest =>
    match rest.foldl exactNode v with
    | .fin neg log => .fin neg (log - log2Round (vs.length * 2 ^ 128) 22)
    | x => x

/-! ## Statistics (R218 to R221) -/

/-- The product of two values by addition of their exponents. -/
def mulLns (a b : LVal) : LVal :=
  match a, b with
  | .indef, _ | _, .indef => .indef
  | .zero, _ | _, .zero => .zero
  | .inf x, .inf y | .inf x, .fin y _ | .fin x _, .inf y => .inf (x != y)
  | .fin x l, .fin y m => .fin (x != y) (l + m)

def negLns : LVal → LVal
  | .fin n l => .fin (!n) l
  | .inf n => .inf (!n)
  | v => v

/-- The quotient of two counts, as a value. -/
def ratio (a b : Nat) : LVal :=
  match intToLns a, intToLns b with
  | .fin _ x, .fin _ y => .fin false (x - y)
  | _, _ => .zero

/-- The merge of two records (R220). -/
def StatRec.merge (a b : StatRec) : StatRec :=
  match a, b with
  | .sum x, .sum y => .sum (x.add y)
  | .moments na ma m2a sa, .moments nb mb m2b sb =>
    if na = 0 then b
    else if nb = 0 then a
    else
      let sum := na + nb
      let n := min sum 16777215
      let d := addLns mb (negLns ma)
      let m := addLns ma (clampLog 31 (mulLns d (ratio nb n)))
      let term := clampLog 31 (mulLns (mulLns d d) (mulLns (intToLns na) (ratio nb n)))
      .moments n m (addLns (addLns m2a m2b) term) (sa || sb || 16777215 < sum)
  | .sum _, .moments _ _ _ _ => a
  | .moments _ _ _ _, .sum _ => a

def sopSum : Nat := 0
def sopSumsq : Nat := 1
def sopMoments : Nat := 2

/-- The record of no element. -/
def StatRec.empty (k : EngCmd) : StatRec :=
  if bSop k.descs = sopMoments then .moments 0 .zero .zero false else .sum (Total.zero (pathTkind k))

/-- The record of one element (R218, R219, R220). -/
def StatRec.ofElement (k : EngCmd) (v : Nat) : StatRec :=
  let fmt := hdAfmt k.descs
  let sop := bSop k.descs
  if sop = sopMoments then
    .moments 1 (if fmt = fmtL8 then decodeL8 k.group v else intToLns (decodeInt fmt v)) .zero false
  else if fmt = fmtL8 then
    let x := decodeL8 k.group v
    .sum (.lns (clampLog 31 (if sop = sopSumsq then mulLns x x else x)))
  else
    let x := decodeInt fmt v
    .sum (.int (.fin (if sop = sopSumsq then x * x else x)))

/-- An element enters the record of its row or of its position. -/
def addElement (k : EngCmd) (q : Nat) (st : Tab StatRec) (rv : Nat × In) : Tab StatRec :=
  match rv.2.element with
  | none => st
  | some v =>
    let key := if bAxis k.descs = 0 then rv.1 else q
    Tab.set st key ((Tab.get (StatRec.empty k) st key).merge (StatRec.ofElement k v))

/-! ## The units that take elements directly -/

/-- What a lane's elements leave in a tile of POOL, STATS or REGROUP: `taps` holds the lane's inputs
tap by tap, each for the lane's positions in order. -/
def TileSlot.take (x : TileSlot) (k : EngCmd) (qs : List Nat) (taps : List (List (List In))) : TileSlot :=
  qs.zipIdx.foldl (fun (x : TileSlot) (qi : Nat × Nat) =>
    let rows (tap : List (List In)) : List In := tap.getD qi.2 []
    if k.op = opStats then
      { x with stats := taps.foldl (fun st tap =>
          (((List.range 256).filter fun r => 256 * k.rt + r < outChannels k.descs).zip (rows tap)).foldl
            (addElement k qi.1) st) x.stats }
    else if k.op = opRegroup then
      { x with raw := Tab.set x.raw qi.1 ((rows (taps.headD [])).map In.element) }
    else
      let window (r : Nat) : List LVal := taps.filterMap fun tap =>
        ((rows tap).getD r (.masked false)).element.map (decodeL8 k.group)
      let reduce := if oPoolop k.descs = 2 then poolAvg else poolMax
      { x with pooled := Tab.set x.pooled qi.1 ((List.range 256).map fun r => reduce (window r)) }) x

end Sys2Proof.Machine
end

