-- ==== Sys2Proof/Machine/Array.lean ====
section
/-!
DEFINITION. The array of an engine: weight prefetch (R78 to R83), correction-table rebuilds (R128),
activation reads, beats (R84 to R102), runs and their promotion (R150 to R165).
-/

namespace Sys2Proof.Machine

/-! ## Access -/

def State.modRun (s : State) (c e uid : Nat) (f : EngRun → EngRun) : State :=
  s.modEngine c e fun g => { g with runs := g.runs.map fun r => if r.cmd.uid = uid then f r else r }

def State.run? (s : State) (c e uid : Nat) : Option EngRun :=
  (s.engine c e).runs.find? fun r => r.cmd.uid = uid

def EngRun.lane (r : EngRun) (l : Nat) : LaneProg := Tab.get {} r.lanes l

def State.modLane (s : State) (c e uid l : Nat) (f : LaneProg → LaneProg) : State :=
  s.modRun c e uid fun r => { r with lanes := Tab.set r.lanes l (f (r.lane l)) }

/-! ## Weight prefetch (R79 to R83, R278) -/

/-- A command of the engine by its number. -/
def Engine.cmdOf (g : Engine) (uid : Nat) : Option EngCmd :=
  match g.queue.find? fun k => k.uid = uid with
  | some k => some k
  | none => (g.runs.find? fun r => r.cmd.uid = uid).map (·.cmd)

/-- A command that an entry of the sequence serves. -/
def Engine.served (g : Engine) (x : SeqEntry) : Option EngCmd := x.users.findSome? g.cmdOf

/-- The entry that weight prefetch loads next: the first that no register holds. -/
def Engine.nextEntry (g : Engine) : Option SeqEntry :=
  g.seq.find? fun x => !(g.regA.entry.elim false fun y => y.same x)
    && !(g.regB.entry.elim false fun y => y.same x)

/-- The duplicate-check rotation of a page after the advance at the start of a load (R83). -/
def State.nextRot (s : State) (p : Page) : Nat := (s.rd p Reg.engWregStat_ROT + 1) % 64

/-- A register whose load begins. The rotation of the load is the one that the load's own advance leaves in ROT
(DEDUCED from R83 and R109). -/
def State.loadingReg (s : State) (c e : Nat) (x : SeqEntry) : WReg :=
  { entry := some x, loading := true, rot := s.nextRot (engPage c e)
    mateRot := (s.mate c e).elim 0 fun m => s.nextRot (engPage c m) }

/-- SLICE_LOAD_START (R79): one load at a time, into a free register, the working register first. -/
def execSliceLoadStart (c : Ch) (e : SlotId) (s : State) : Result :=
  live s <|
    let g := s.engine c e
    match g.nextEntry with
    | none => s
    | some x =>
      let waits : Bool := (g.served x).elim true fun k => k.refetch || !s.ctxRuns k.ctx
      if !s.engRuns c e || g.regA.loading || g.regB.loading || waits then s
      else
        let r := s.loadingReg c e x
        let aFree : Bool := g.regA.entry = none
        let bFree : Bool := g.regB.entry = none
        let useA : Bool := aFree && (s.workingA c e || !bFree)
        if useA then (s.modEngine c e fun g => { g with regA := r }).wrapAll c (s.pairOf c e) Reg.engWregStat_ROT
        else if bFree then
          (s.modEngine c e fun g => { g with regB := r }).wrapAll c (s.pairOf c e) Reg.engWregStat_ROT
        else s

/-- The cell codes of a slice, row by row, and whether a poisoned stall word was read (R42, R278,
R347, R585). -/
def State.sliceCodes (s : State) (c : Nat) (k : EngCmd) (slice : Nat) : List (List Nat) × Bool :=
  let w := windowOf k.descs
  let m := (s.chan c).stall
  let wfmt := hdWfmt k.descs
  let index (r j : Nat) : Option Nat := (weightIndex k.op w k.rt slice r j).map (· - k.wskip)
  let codes := (List.range 256).map fun r => (List.range 256).map fun j =>
    (index r j).elim offCell fun i => weightCode m wfmt k.wbase i
  let first := (index 0 0).getD 0
  let range := weightBytes wfmt k.wbase first (first + weightsPerSlice k.op w)
  (codes, m.poisonedAt range.1 (range.2 - range.1))

/-- SLICE_LOAD_COMPLETE (R79): the register that is loading becomes ready. -/
def execSliceLoadComplete (c : Ch) (e : SlotId) (s : State) : Result :=
  live s <|
    let g := s.engine c e
    let load (r : WReg) : WReg :=
      match r.entry.bind fun x => (g.served x).map fun k => (x, k) with
      | some (x, k) =>
        if k.refetch then r else
        let (codes, poisoned) := s.sliceCodes c k x.slice
        { r with loading := false, ready := true, codes := codes, poisoned := poisoned }
      | none => {}
    if !s.engRuns c e then s
    else if g.regA.loading then s.modEngine c e fun g => { g with regA := load g.regA }
    else if g.regB.loading then s.modEngine c e fun g => { g with regB := load g.regB }
    else s

/-- REBUILD_COMPLETE (R128): the last knot is written and the bank is valid, on the pages that show the
rebuild. -/
def execRebuildComplete (c : Ch) (e : SlotId) (b : Fin 2) (s : State) : Result :=
  live s <|
    let p : Page := .eng c e
    let es := (s.pairOf c e).filter fun q => s.flag (engPage c q) (Reg.engLnsBank_BUILDING b)
    if s.engRuns c e && s.flag p (Reg.engLnsBank_BUILDING b) then
      ((s.wrAll c es (Reg.engLnsBank_BUILDING b) 0).wrAll c es (Reg.engLnsBank_VALID b) 1).wrAll c es
        (Reg.engLnsBank_KNOT b) 128
    else s

/-! ## Promotion (R150 to R152) -/

/-- A promotion of a lane is still under way, into whichever tile of the engine (R151). -/
def Engine.promotes (g : Engine) (l : Nat) : Bool :=
  g.slots.any fun t => t.2.promoting.any fun y => y.1 = l

/-- A lane's trigger is due: its runs are copied for promotion, unless its previous promotion is
still under way (R151). -/
def State.tryPromote (s : State) (c e uid l : Nat) : State :=
  match s.run? c e uid with
  | none => s
  | some r =>
    let p := r.lane l
    let x := s.tile c e r.slot
    if !p.due || (s.engine c e).promotes l then s
    else
      let qs := lanePositions (windowOf r.cmd.descs) r.cmd.pt l
      let runs : Tab (List Run) := qs.filterMap fun q =>
        (x.runs.find? fun y => y.1 = q).map fun y => (q, y.2)
      let copy : Promo := { uid := uid, base := r.cmd.group.base, slices := p.since, runs := runs }
      (s.modTile c e r.slot fun x => { x with
        promoting := Tab.set x.promoting l copy
        runs := qs.foldl Tab.erase x.runs }).modLane c e uid l fun p =>
          { p with due := false, since := 0, trees := none, promoted := p.promoted + copy.slices }

/-- The lane has passed its last beat of a K-slice (R150): the interval and the end of the command
trigger a promotion. -/
def State.finishSlice (s : State) (c e uid l : Nat) : State :=
  match s.run? c e uid with
  | none => s
  | some r =>
    let interval := (s.tile c e r.slot).interval
    ((s.modLane c e uid l fun p => { p with
      idx := p.idx + 1, pos := 0, beat := 0, begun := false, since := p.since + 1
      buf := p.buf.drop 1
      due := p.due || p.since + 1 = interval || p.idx + 1 = r.cmd.order.length }).modEngine c e
        fun g => g.setLaneCredit l fun k => { k with owed := k.owed + 1 }).tryPromote c e uid l

/-! ## Beats -/

/-- K-slices of its tile that a lane has passed, over the commands in progress in it. -/
def Engine.passed (g : Engine) (slot l : Nat) : Nat :=
  ((g.runs.filter fun r => r.slot = slot).map fun r =>
    if (r.lane l).done then r.cmd.order.length else (r.lane l).idx).sum

/-- A lane may begin its next K-slice (R82): it lies at most one ahead of the slowest lane's. -/
def Engine.mayBegin (g : Engine) (slot l : Nat) : Bool :=
  (List.range 8).all fun m => g.passed slot l ≤ g.passed slot m + 1

/-- The trees on which a command's K-slices now begin (R126, R129, R133). -/
def State.treesNow (s : State) (c e : Nat) (r : EngRun) : Trees :=
  if pathTkind r.cmd = 0 then .integer
  else
    match r.bank with
    | .bound n => if s.flag (engPage c e) (Reg.engLnsBank_VALID n) then .lns else .fallback
    | .none | .unbound | .waiting => .fallback

/-- A change of trees at which the lane's runs are promoted first, since a run is formed on one kind only
(R129, R150). After a restore that finds no valid bank (R130), the change from a bank's trees to the fallback
path promotes too: DESIGN CHOICE, R150 names only the change to a bank's trees. -/
def treeSwitch (before : Option Trees) (now : Trees) : Bool :=
  match before with
  | some .fallback => now = .lns
  | some .lns => now = .fallback
  | some .integer | none => false

/-- A lane begins a K-slice, if it may: a command without a bank is bound (R126), and a switch of trees
promotes first (R129, R150). DESIGN CHOICE: a lane begins a slice in its own cycle although its inputs or its
weights are not there yet; and a slice begun on the fallback path all of whose beats are skipped counts as runs
formed on that path. -/
def State.beginSlice (s : State) (c e uid l : Nat) : Option State :=
  match s.run? c e uid with
  | none => none
  | some r0 =>
    if !(s.engine c e).mayBegin r0.slot l then none
    else
      let s1 := if r0.bank = .unbound then s.bindBank c e uid r0.cmd.group else s
      match s1.run? c e uid with
      | none => none
      | some r =>
        let trees := s1.treesNow c e r
        let s2 := if treeSwitch (r.lane l).trees trees then
            (s1.modLane c e uid l fun p => { p with due := true }).tryPromote c e uid l
          else s1
        if ((s2.run? c e uid).elim false fun r => (r.lane l).due) then none
        else some (s2.modLane c e uid l fun p => { p with begun := true, trees := some trees })

/-- The ready register that holds a slice for a command (R82). -/
def Engine.regFor (g : Engine) (uid slice : Nat) : Option WReg :=
  [g.regA, g.regB].find? fun r =>
    r.ready && r.entry.elim false fun x => x.slice = slice && x.users.contains uid

/-- The lane passes one beat. -/
def State.stepBeat (s : State) (c e uid l : Nat) : State :=
  match s.run? c e uid with
  | none => s
  | some r =>
    let p := r.lane l
    let n := (lanePositions (windowOf r.cmd.descs) r.cmd.pt l).length
    if p.beat + 1 < beatsPer (hdAfmt r.cmd.descs) then
      s.modLane c e uid l fun p => { p with beat := p.beat + 1 }
    else if p.pos + 1 < n then s.modLane c e uid l fun p => { p with pos := p.pos + 1, beat := 0 }
    else s.finishSlice c e uid l

/-- A beat is skipped (R95, R98, R282). -/
def State.skipBeat (s : State) (c e uid l beat : Nat) (fmt : Nat) (xs : List In) : State :=
  let es := s.enginesFor c e uid
  let padded : Bool := (beatInputs fmt beat xs).any fun x => x = .masked true
  let s1 := s.wrapAll c es Reg.engSkip_SKIPPED
  (if padded then s1.bumpAll c es Reg.engAgCnt_PADSKIP else s1).stepBeat c e uid l

/-- The column map of an engine (R104). MODE 0b11 acts as OFF. -/
def State.colMap (s : State) (p : Page) : ColMap :=
  (List.range 4).map fun n => (s.rd p (Reg.engColmap_MODE n), s.rd p (Reg.engColmap_TARGET n))

/-- A check column of an engine records a mismatch (R111, R112). -/
def State.recordMismatch (s : State) (c e name : Nat) (integer : Bool) (g : Nat) : State :=
  let p := engPage c e
  (((((s.wr p Reg.engChkStat_MISMATCH 1).wr p Reg.engChkStat_LAST_GROUP g).wr p Reg.engChkStat_LAST_MODE
    (bit !integer)).bump p Reg.engChkStat_MISMATCH_CNT).raise p 1).logOut c 0x01 (e + name * 2 ^ 8)

/-- The check columns of a beat on the engine and on its secondary: the groups that fail. The tile, or the
secondary's copy of it, takes the mismatch flag (R111, R569). -/
def State.checkBeat (s : State) (c e t : Nat) (integer : Bool) (own mate : List Nat) : State :=
  let name := (s.tile c e t).name
  let s1 := own.foldl (fun (s : State) g => s.recordMismatch c e name integer g) s
  let s2 := match s.mate c e with
    | some m => mate.foldl (fun (s : State) g => s.recordMismatch c m name integer g) s1
    | none => s1
  s2.modTile c e t fun x => { x with
    mismatch := x.mismatch || !own.isEmpty, mateMismatch := x.mateMismatch || !mate.isEmpty }

/-- Tile rows of a row tile below the layer's output count: the others are masked (R40, R77). -/
def EngCmd.rows (k : EngCmd) : Nat := min 256 (outChannels k.descs - 256 * k.rt)

/-- The runs of a position after a beat: one for each unmasked tile row (R77, R89, R121, R135). -/
def enterRuns (rows f fmt beat : Nat) (runs : List Run) (sums : List ColSum) : List Run :=
  runs.zipIdx.map fun x =>
    if x.2 < rows then (sums[x.2]?).elim x.1 fun v => x.1.enter f fmt beat v else x.1

/-- A beat enters the runs of its position (R89, R121, R135), and the check columns compare it (R108,
R109). -/
def State.issueBeat (s : State) (c e uid l : Nat) (r : EngRun) (x : List In) (w : WReg) (ev : BeatEvent) :
    State :=
  let k := r.cmd
  let p := r.lane l
  let es := s.enginesOf c e r.slot
  let q := (lanePositions (windowOf k.descs) k.pt l).getD p.pos 0
  let trees := p.trees.getD .integer
  let fmt := hdAfmt k.descs
  let f := k.group.fsel + 2
  let (own, mate) := match ev with
    | .upset own mate => (own, mate)
    | .clean | .corrected | .poisoned => ([], [])
  let columns (page : Page) (rot : Nat) (us : List Upset) : List ColSum × List Nat :=
    beatColumns (s.colMap page) k.rows rot trees f fmt (hdWfmt k.descs) p.beat x w.codes us
  let beat := columns (engPage c e) w.rot own
  let mateFails : List Nat := match s.mate c e with
    | some m => if (s.tile c e r.slot).mirrored then (columns (engPage c m) w.mateRot mate).2 else []
    | none => []
  let before := Tab.get (List.replicate 256 (Run.start trees)) (s.tile c e r.slot).runs q
  let s1 := s.modTile c e r.slot fun y => { y with
    runs := Tab.set y.runs q (enterRuns k.rows f fmt p.beat before beat.1)
    usedFallback := y.usedFallback || trees = .fallback }
  let s2 := s1.wrapAll c es Reg.engIssue_BEATS
  let s3 := if trees = .fallback then s2.wrapAll c es Reg.engFbBeats_BEATS else s2
  let s4 := if ev = .corrected then s3.corrected (engPage c e) else s3
  (s4.checkBeat c e r.slot (trees = .integer) beat.2 mateFails).stepBeat c e uid l

/-- What became of a lane's own cycle. -/
inductive LaneStep where
  | issued | wait | finished
  deriving DecidableEq, Repr

/-- A lane works on one command until it issues a beat, must wait, or has finished it (R82, R96). -/
def State.advance (c e uid l : Nat) (ev : BeatEvent) : (fuel : Nat) → State → State × LaneStep
  | 0, s => (s, .wait)
  | fuel + 1, s =>
    match s.run? c e uid with
    | none => (s, .finished)
    | some r =>
      let p := r.lane l
      let fmt := hdAfmt r.cmd.descs
      if p.done then (s, .finished)
      else if p.due then
        let s1 := s.tryPromote c e uid l
        if (s1.run? c e uid).elim false fun r => (r.lane l).due then (s1, .wait)
        else State.advance c e uid l ev fuel s1
      else if r.cmd.order.length ≤ p.idx then
        (s.modLane c e uid l fun p => { p with done := true }, .finished)
      else if !p.begun then
        match s.beginSlice c e uid l with
        | none => (s, .wait)
        | some s1 => State.advance c e uid l ev fuel s1
      else
        match p.buf.head? with
        | none => (s, .wait)
        | some sl =>
          let xs := sl.inputs.getD p.pos []
          if s.skips c && beatSkips fmt p.beat xs then
            State.advance c e uid l ev fuel (s.skipBeat c e uid l p.beat fmt xs)
          else
            match (s.engine c e).regFor uid sl.idx with
            | none => (s, .wait)
            | some w =>
              if sl.poisoned || w.poisoned || ev = .poisoned then (s.tileLost c e r.slot, .issued)
              else
                let s1 := s.issueBeat c e uid l r xs w ev
                let ended : Bool := (s1.run? c e uid).elim false fun r =>
                  !(r.lane l).due && r.cmd.order.length ≤ (r.lane l).idx
                (if ended then s1.modLane c e uid l fun p => { p with done := true } else s1, .issued)

/-- The beats that a lane can pass in one event. -/
def EngRun.fuel (r : EngRun) : Nat := (r.cmd.order.length + 1) * 68

/-- The commands that the lanes may work on, in their order: while repetitions of a re-issued tile still wait in
the queue, only that tile's (R164, R669). -/
def Engine.laneRuns (g : Engine) : List EngRun :=
  match g.slots.find? fun t => t.2.reissued && g.queue.any fun k => k.again && k.ofTile t.2 with
  | some t => g.runs.filter fun r => r.slot = t.1
  | none => g.runs

/-- The command may use issue slots: its context is resident, and its tile does not wait after a restore. -/
def State.mayIssue (s : State) (c e : Nat) (r : EngRun) : Bool :=
  s.ctxRuns r.cmd.ctx && !(s.tile c e r.slot).paused

/-- A lane uses its own cycle: it works on the commands in their order until one takes the cycle
(R86, R100, R102). The number is that of the command that took it. -/
def State.ownCycle (c e l : Nat) (ev : BeatEvent) : List EngRun → State → State × Option (EngRun × LaneStep)
  | [], s => (s, none)
  | r :: rs, s =>
    if isProduct r.cmd.op && s.mayIssue c e r then
      match State.advance c e r.cmd.uid l ev r.fuel s with
      | (s1, .finished) => State.ownCycle c e l ev rs s1
      | (s1, step) => (s1, some (r, step))
    else State.ownCycle c e l ev rs s

/-- A lane has beats left, in tiles that satisfy a test. -/
def Engine.laneBusy (g : Engine) (l : Nat) (p : EngRun → Bool) : Bool :=
  g.runs.any fun r => isProduct r.cmd.op && !(r.lane l).done && p r

/-- An idle issue slot of a lane counts WAIT while the lane has beats left, and DONE otherwise, while the engine
is ON (R102). -/
def State.idleSlot (s : State) (p : Page) (l : Nat) (busy : Bool) : State :=
  if s.blk p ≠ blkOn then s
  else if busy then s.bump p (Reg.engLaneWait_COUNT l)
  else s.bump p (Reg.engLaneDone_COUNT l)

/-- BEAT_ISSUE (R86, R102, R573): the lane that owns the engine's cycle takes it, once a cycle. A secondary in
lockstep issues with its primary, by the primary's counter (R569). -/
def State.beatIssue (s : State) (c e : Nat) (ev : BeatEvent) : State :=
  let g := s.engine c e
  let now := s.cyc (domArith c)
  let cyc := s.pageCyc (engPage c e)
  let l := cyc % 8
  if !s.arithOn c || s.blk (engPage c e) < blkOn || s.isSecondary c e || g.lastIssue = some now then s
  else
    let s0 := s.modEngine c e fun g => { g with lastIssue := some now }
    let (s1, took) :=
      if s.engRuns c e && cyc / 8 % 16 < s.duty c then State.ownCycle c e l ev g.laneRuns s0 else (s0, none)
    let issued : Option EngRun := took.bind fun r => if r.2 = .issued then some r.1 else none
    let mirrored (r : EngRun) : Bool := (g.tile r.slot).mirrored
    let g1 := s1.engine c e
    let s2 := match issued with
      | some _ => (g.runs.map fun (r : EngRun) => r.cmd.ctx).dedup.foldl State.active s1
      | none => s1.idleSlot (engPage c e) l (g1.laneBusy l fun _ => true)
    let s3 := match s.mate c e with
      | some m => if issued.any mirrored then s2 else s2.idleSlot (engPage c m) l (g1.laneBusy l mirrored)
      | none => s2
    ((s3.sweep c e).endRuns c e).endRuns c e

/-- BEAT_ISSUE. -/
def execBeatIssue (c : Ch) (e : SlotId) (ev : BeatEvent) (s : State) : Result :=
  live s <| if s.mayRecord c then s.beatIssue c e ev else s.recordStall

/-! ## Activation reads -/

/-- The command and K-slice that a lane fetches next: its input buffer holds two (R33). -/
def State.toFetch (s : State) (c e l : Nat) : Option (EngRun × Nat) :=
  ((s.engine c e).laneRuns.find? fun r =>
    let p := r.lane l
    !p.done && s.mayIssue c e r && (!isProduct r.cmd.op || p.idx + p.buf.length < r.cmd.order.length)).map fun r =>
      let p := r.lane l
      (r, if isProduct r.cmd.op then r.cmd.order.getD (p.idx + p.buf.length) 0 else p.buf.length)

/-- ACTIVATION_READ_RETURN (R269, R434): a lane's inputs of one K-slice are read and buffered. A
command without products takes its inputs when its last tap has been read. -/
def execActivationReadReturn (c : Ch) (e : SlotId) (l : Fin 8) (ext : List Byte) (s : State) : Result :=
  live s <|
    let g := s.engine c e
    match s.toFetch c e l with
    | none => s
    | some (r, sl) =>
      let k := r.cmd
      let product := isProduct k.op
      if !s.engRuns c e || s.stalled (.addrGen c e l) ||
          (product && (g.laneCredits l).held = 0) then s
      else
        match s.fetchSlice c e l k (r.lane l).fetched sl ext with
        | (rd, none) => rd.s.modLane c e k.uid l fun p => { p with fetched := rd.got }
        | (rd, some x) =>
          let s1 := rd.s.modLane c e k.uid l fun p => { p with fetched := [], buf := p.buf ++ [x] }
          if product then s1.modEngine c e fun g => g.setLaneCredit l fun q => { q with held := q.held - 1 }
          else if x.poisoned then s1.tileLost c e r.slot
          else if sl + 1 < (windowOf k.descs).ntaps then s1
          else
            let taps := ((s1.run? c e k.uid).elim [] fun r => (r.lane l).buf).map (·.inputs)
            ((s1.modTile c e r.slot fun t => t.take k (lanePositions (windowOf k.descs) k.pt l) taps).modLane
              c e k.uid l fun p => { p with done := true, buf := [] }).endRuns c e

/-! ## The end of a promotion (R151 to R165) -/

/-- The working base of a tile (R154, R164). -/
def TileSlot.working (x : TileSlot) : Int := signedOf x.tbase 16 + 16 * x.retries

/-- A zero total for each tile row. -/
def zeroTotals (tkind : Nat) : List Total := List.replicate 256 (Total.zero tkind)

/-- A promoting copy enters the totals: the new totals, and whether a total overflowed (R160). -/
def TileSlot.enterPromo (x : TileSlot) (p : Promo) : Tab (List Total) × Bool :=
  p.runs.foldl (fun (acc : Tab (List Total) × Bool) (qr : Nat × List Run) =>
    let old := Tab.get (zeroTotals x.tkind) acc.1 qr.1
    let terms := qr.2.map fun r => r.widen (signedOf p.base 16) x.working x.retries
    (Tab.set acc.1 qr.1 (List.zipWith Total.add old terms),
      acc.2 || (List.zipWith overflows old terms).any id)) (x.totals, false)

/-- The promotion counter after a lane's promotion (R156, R157). -/
def TileSlot.count (x : TileSlot) (l slices : Nat) : TileSlot :=
  let promoted := Tab.set x.promoted l (Tab.get 0 x.promoted l + slices)
  let n := (List.range 8).foldl (fun m l => min m (Tab.get 0 promoted l)) (Tab.get 0 promoted 0)
  { x with promoted := promoted, counter := min n 4096, longsum := x.longsum || 4096 < n }

/-- The lanes leave the commands in progress where they are: their inputs are read again later. -/
def Engine.leaveRuns (g : Engine) : Engine :=
  { g.runs.foldl Engine.freeLanes g with
    runs := g.runs.map fun r => { r with lanes := r.lanes.map fun (l : Nat × LaneProg) =>
      (l.1, if isProduct r.cmd.op then { l.2 with buf := [], fetched := [] } else l.2) } }

/-- A guarded re-issue (R164, R669): the tile starts again one octave lower, and its commands run
again in front of everything else. DESIGN CHOICE: a tile whose overflow is found after it became PARKED is PARKED
until the re-issue claims it. -/
def State.reissue (s : State) (c e t : Nat) : State :=
  let x := s.tile c e t
  let es := s.enginesOf c e t
  let s1 := ((s.dropRepeats c e x).dropRuns c e t).modEngine c e fun g =>
    { (g.leaveRuns.setTile t { x with
        state := if x.state = .parked then .parked else .filling
        retries := x.retries + 1, reissued := true, counter := 0, longsum := false, totals := [], runs := []
        promoting := [], promoted := [], stats := [], await := none }) with
      drains := g.drains.filter (· ≠ t) }
  (((s1.queueRepeats c e x.redo true).bumpAll c es Reg.engTileCnt_RETRIES).raise (engPage c e) 4).logOut c 0x03
    (e + x.name * 2 ^ 8 + (x.retries + 1) * 2 ^ 24)

/-- The tile whose promoting copy of a lane enters ACCM: the one of the earlier command. -/
def Engine.promotingTile (g : Engine) (l : Nat) : Option (Nat × Promo) :=
  (g.slots.filterMap fun t => (t.2.promoting.find? fun p => p.1 = l).map fun p => (t.1, p.2)).foldl
    (fun (best : Option (Nat × Promo)) x =>
      match best with
      | some b => if x.2.uid < b.2.uid then some x else some b
      | none => some x) none

/-- PROMOTION_COMPLETE (R151 to R165). A link that waited for it awaits now (R191). -/
def execPromotionComplete (c : Ch) (e : SlotId) (lane : Fin 8) (s : State) : Result :=
  live s <|
    match (s.engine c e).promotingTile lane with
    | none => s
    | some (t, p) =>
      if !s.engRuns c e then s
      else
        let x := s.tile c e t
        let (totals, hit) := x.enterPromo p
        let exceeds : Bool := hit && x.guarded && x.retries < 3 && !x.list.isEmpty
        if exceeds && !s.replayOn c then s.reissue c e t
        else
          let s1 := (if exceeds then s.bump .rpl Reg.rplDiv_NUMERIC else s).active x.ctx
          (s1.modTile c e t fun y => { (y.count lane p.slices) with
            totals := totals, promoting := Tab.erase y.promoting lane }).tryAwait c e t

end Sys2Proof.Machine
end

