-- ==== Sys2Proof/Machine/Narrow.lean ====
section
/-!
DEFINITION. The epilogue's arithmetic on one element (R233 to R244): decode, scale, bias, activation,
argmax candidates and dithered narrowing. Values are in the working form, in units of 2^-22 octave.
-/

namespace Sys2Proof.Machine

/-! ## Steps 1 to 4 -/

/-- Step 1 (R166, R233): a total at its true scale. -/
def decodeStep (working : Int) (retries : Nat) : Total → LVal
  | .lns (.fin neg log) => .fin neg (log + working * 2 ^ 18)
  | .lns v => v
  | .int (.fin v) => intToLns (v * 2 ^ retries)
  | .int (.inf neg) => .inf neg
  | .int .indef => .indef

/-- Step 2 (R234): the scale of a row parameter record. -/
def scaleStep (rec : Nat) (v : LVal) : LVal :=
  let log := signedOf (bitsOf rec 0 24) 24 * 2 ^ 6
  let neg : Bool := bitsOf rec 24 1 = 1
  if bitsOf rec 25 1 = 1 then
    match v with
    | .indef => .indef
    | .zero | .inf _ | .fin _ _ => .zero
  else
    match v with
    | .fin n l => .fin (n != neg) (l + log)
    | .inf n => .inf (n != neg)
    | .zero => .zero
    | .indef => .indef

/-- Step 3 (R119, R154): the bias of a row parameter record. -/
def biasStep (rec : Nat) (v : LVal) : LVal :=
  match decodeTotal 1 (bitsOf rec 32 32) with
  | .lns b => exactNode v b
  | .int _ => v

/-- Step 4 (R236). -/
def actStep (act arg : Nat) (v : LVal) : LVal :=
  let theta := signedOf arg 16 * 2 ^ 14
  if act = 1 then
    match v with
    | .fin true _ | .inf true => .zero
    | v => v
  else if act = 2 then
    match v with
    | .fin true l => .fin true (l - (bitsOf arg 0 4 : Nat) * 2 ^ 22)
    | v => v
  else if act = 3 then
    match v with
    | .fin n l => .fin n (min l theta)
    | .inf n => .fin n theta
    | v => v
  else if act = 4 then
    match v with
    | .zero | .fin false _ | .inf false => .fin false 0
    | .fin true _ | .inf true => .fin true 0
    | .indef => .indef
  else if act = 5 then
    match v with
    | .fin n l => if l < theta then .zero else .fin n 0
    | .inf n => .fin n 0
    | v => v
  else v

/-- Steps 2 to 4 of an element; `rec` is the record of its row, none where PADDR is 0. -/
def epilogueSteps (rec : Option Nat) (act arg : Nat) (v : LVal) : LVal :=
  actStep act arg (rec.elim v fun r => biasStep r (scaleStep r v))

/-! ## Argmax (R240, R241) -/

/-- A row's value enters the candidate of its position; `ch` is its output channel. -/
def Cand.enter (x : Option Cand) (ch : Nat) (v : LVal) : Option Cand :=
  match x with
  | none => some { idx := ch, valid := v ≠ .indef, hasIndef := v = .indef, value := v }
  | some x =>
    if v = .indef then some { x with hasIndef := true }
    else if !x.valid then some { x with idx := ch, valid := true, value := v }
    else if x.value.lt v then some { x with idx := ch, value := v }
    else some x

/-- The eight bytes of a candidate. -/
def Cand.encode (x : Cand) : Nat :=
  let value := if x.valid then encodeTotal (.lns (clampLog 31 x.value)) else encodeTotal (.lns .indef)
  x.idx % 2 ^ 16 + bit x.valid * 2 ^ 16 + bit x.hasIndef * 2 ^ 17 + value * 2 ^ 32

def Cand.decode (v : Nat) : Cand :=
  { idx := bitsOf v 0 16, valid := bitsOf v 16 1 = 1, hasIndef := bitsOf v 17 1 = 1
    value := match decodeTotal 1 (bitsOf v 32 32) with
      | .lns x => x
      | .int _ => .indef }

/-- Two candidates of one position are merged (R241). -/
def Cand.merge (a b : Cand) : Cand :=
  let ind := a.hasIndef || b.hasIndef
  let win : Cand :=
    if a.valid && b.valid then
      if a.value.lt b.value then b
      else if b.value.lt a.value then a
      else if a.idx ≤ b.idx then a else b
    else if a.valid then a
    else if b.valid then b
    else if a.idx ≤ b.idx then a else b
  { win with hasIndef := ind }

/-! ## Step 7: narrowing (R145, R146, R242 to R244) -/

/-- What a narrowed element counts as (R243). -/
inductive NarrowCount where
  | none | inf | indef | sat | under
  deriving DecidableEq, Repr

/-- Dithered rounding (R146): `x` is in units of 2^-24 output LSB. -/
def ditherRound (x : Int) (u : BitVec 24) : Int :=
  let fl := x.fdiv (2 ^ 24)
  if (u.toNat : Int) < x - fl * 2 ^ 24 then fl + 1 else fl

/-- The antilog of a log in units of 2^-22 octave (R244): `2 ^ log` in units of 2^-24, with an error
of at most 2^-24 of it before the rounding. -/
def antilogUnits (log : Int) (n : Nat) : Int :=
  let y : Int := pow2 log 22
  let bound := y / 2 ^ 24
  let err := max (-bound) (min bound (Config.antilogErr n))
  roundDiv (y + err) (2 ^ 104)

/-- The sign of a value applied to a magnitude. -/
def signed (neg : Bool) (v : Int) : Int := if neg then -v else v

/-- A dithered integer saturated to a range, with what it counts as. -/
def saturate (lo hi v : Int) : Int × NarrowCount :=
  if v < lo then (lo, .sat) else if hi < v then (hi, .sat) else (v, .none)

/-- A dithered half-precision value: `m` units of 2^`lsb` (R242). -/
def packF16 (neg : Bool) (m : Nat) (lsb : Int) : Nat × NarrowCount :=
  let s := bit neg * 2 ^ 15
  let (m, lsb) :=
    if 2048 ≤ m then (m / 2, lsb + 1) else if m < 1024 ∧ -24 < lsb then (2 * m, lsb - 1) else (m, lsb)
  if m = 0 then (s, .under)
  else if 5 < lsb then (s + 0x7c00, .inf)
  else if m < 1024 then (s + m, .none)
  else (s + ((lsb + 25).toNat * 1024 + (m - 1024)), .none)

/-- The dither of the `n`-th element that a channel narrows: each channel has its own source (R145). -/
def ditherIndex (c n : Nat) : Nat := 4 * n + c

/-- The dithered result of a finite value in one of the formats; `n` is the element's place in the sources of
dither. `exact` marks a value of TERNARY. -/
def narrowFinite (fmt : Nat) (d : Group) (exact neg : Bool) (log : Int) (n : Nat) : Nat × NarrowCount :=
  let u := Config.dither n
  let rel := log - signedOf d.base 16 * 2 ^ 18
  if fmt = fmtL8 then
    let f := d.fsel + 2
    let code := 64 + ditherRound (rel * 2 ^ (f + 2)) u
    let s := bit neg * 2 ^ 7
    if 126 < code then (s + 0x7f, .inf) else if code < 1 then (0, .under) else (s + code.toNat, .none)
  else if fmt = fmtA1 then (bit !neg, .none)
  else if fmt = fmtF16 then
    let lsb := max (rel.fdiv (2 ^ 22)) (-14) - 10
    let v := ditherRound (signed neg (antilogUnits (rel - lsb * 2 ^ 22) n)) u
    packF16 neg v.natAbs lsb
  else
    let v := if exact then signed neg 1 else ditherRound (signed neg (antilogUnits rel n)) u
    if fmt = fmtAT then
      let (w, k) := saturate (-1) 1 v
      (if w = 0 then 0 else if w = 1 then 1 else 3, k)
    else if fmt = fmtI4 then
      let (w, k) := saturate (-8) 7 v
      ((w % 16).toNat, k)
    else
      let (w, k) := saturate (-128) 127 v
      ((w % 256).toNat, k)

/-- The codes of the special classes (R242). -/
def narrowSpecial (fmt : Nat) (v : LVal) : Nat :=
  let pick (a1 at' i4 l8 i8 f16 : Nat) : Nat :=
    if fmt = fmtA1 then a1 else if fmt = fmtAT then at' else if fmt = fmtI4 then i4
    else if fmt = fmtL8 then l8 else if fmt = fmtI8 then i8 else f16
  match v with
  | .zero | .fin _ _ => pick 1 0 0 0x00 0x00 0x0000
  | .inf false => pick 1 1 7 0x7f 0x7f 0x7c00
  | .inf true => pick 0 3 8 0xff 0x80 0xfc00
  | .indef => pick 1 0 0 0x80 0x00 0x7e00

/-- Step 7 (R242, R243): the code of an element and what it counts as. -/
def narrow (fmt : Nat) (d : Group) (exact : Bool) (v : LVal) (n : Nat) : Nat × NarrowCount :=
  match v with
  | .fin neg log => narrowFinite fmt d exact neg log n
  | .inf _ => (narrowSpecial fmt v, .inf)
  | .indef => (narrowSpecial fmt v, .indef)
  | .zero => (narrowSpecial fmt v, .none)

end Sys2Proof.Machine
end

