-- ==== Sys2Proof/Machine/Drain.lean ====
section
/-!
DEFINITION. The drain of a tile (R228 to R256): its start, the row parameters, the blocks that leave
ACCM with the comparison of pairs (R570, R588), the epilogue's output, write-back, and the merging of
argmax candidates (R399).
-/

namespace Sys2Proof.Machine

/-! ## What a drain writes, and where -/

/-- The command that gives a tile's drain its positions and channels. -/
def TileSlot.shape (x : TileSlot) : Option EngCmd := x.geo

/-- The access of a drain. -/
def drainAccess (c e : Nat) (k : EngCmd) : MemAccess :=
  { req := .drain (Fin.ofNat 4 c) (Fin.ofNat 72 e), ctx := k.ctx, va := 0, write := false
    info := { ring := some k.ring, cmdid := some (hdCmdid k.descs), num := some k.num
              stream := some (hdStream k.descs), tile := k.name } }

/-- The drain sends a partial (R190). -/
def sendsPartial (k : EngCmd) : Bool := tRole k.descs = roleHead

/-- The epilogue works on totals or on the sums of the CVU: STATS, POOL and REGROUP tiles skip its
steps 1 to 6. -/
def worksOnTotals (geo : EngCmd) : Bool := isProduct geo.op || geo.op = opCvu

/-- An element of the output grid: its position before pooling and regrouping, and its channel. -/
structure OutGrid where
  /-- Width and position count of the destination grid, channels, and the factor of RGOUT. -/
  width : Nat
  count : Nat
  channels : Nat
  f : Nat
  deriving DecidableEq, Repr

/-- The destination grid without pooling (R64, R274). -/
def outGrid (w : Window) (r : Nat) : OutGrid :=
  { width := w.fout * w.wo, count := w.fout * w.fout * w.npos
    channels := r / (w.fout * w.fout), f := w.fout }

/-- Position and channel of the destination that output channel `ch` of position (x, y) takes. -/
def OutGrid.place (g : OutGrid) (x y ch : Nat) : Nat × Nat :=
  if g.f = 1 then (y * g.width + x, ch)
  else
    let sub := ch / g.channels
    ((g.f * y + sub / g.f) * g.width + g.f * x + sub % g.f, ch % g.channels)

/-- The destination position of patch index `q`'s pooling window (R237, R246); a LINEAR patch is one
row of positions. -/
def pooledPlace (w : Window) (px py t q : Nat) : Option (Nat × Nat) :=
  (w.posOf t q).map fun xy =>
    if w.patch = 0 then ((64 * t + q) / px, ceilDiv w.npos px)
    else
      let width := ceilDiv w.wo px
      (xy.2 / py * width + xy.1 / px, width * ceilDiv w.ho py)

/-! ## Pieces -/

/-- The owner of what a drain writes now. -/
def State.ownerOf (s : State) (c e : Nat) (k : EngCmd) : Owner :=
  { slot := e, epoch := s.epoch c e, ctx := k.ctx, info := (drainAccess c e k).info }

/-- A write cut into pieces of at most 64 bytes (R229). -/
def piecesFrom (o : Owner) (va : Nat) (more : Bool) : (fuel : Nat) → List Byte → List Piece
  | 0, _ => []
  | fuel + 1, bs =>
    if bs.isEmpty then []
    else
      { va := va, bytes := bs.take 64, owner := o, more := more } ::
        piecesFrom o (va + 64) more fuel (bs.drop 64)

def pieces (o : Owner) (va : Nat) (more : Bool) (bs : List Byte) : List Piece :=
  piecesFrom o va more (bs.length / 64 + 1) bs

/-- Neighbouring whole pieces that join within 64 bytes are one piece. -/
def joinPieces : List Piece → List Piece
  | a :: b :: rest =>
    match joinPieces (b :: rest) with
    | b' :: rest' =>
      if a.va + a.bytes.length = b'.va ∧ a.bytes.length + b'.bytes.length ≤ 64 ∧ a.mask = none
          ∧ b'.mask = none ∧ a.more = b'.more then
        { a with bytes := a.bytes ++ b'.bytes } :: rest'
      else a :: b' :: rest'
    | [] => [a]
  | ps => ps

/-! ## The start of a drain (R228, R230) -/

/-- The row parameters of a drain are held, or none are needed. -/
def Engine.holdsParams (g : Engine) (k geo : EngCmd) : Bool :=
  sendsPartial k || !worksOnTotals geo || oPaddr k.descs = 0 ||
    g.params.elim false fun p => p.addr = oPaddr k.descs && p.rt = geo.rt

/-- DRAIN_START (R228): the drain path takes the tile that entered DRAINING first. One whose context does not run, or
that waits for an in-progress slot after a restore, does not hold it up (R444). A drain that a save interrupted
fetches its parameters again (R254). -/
def execDrainStart (c : Ch) (e : SlotId) (s : State) : Result :=
  live s <|
    let g := s.engine c e
    let runs (t : Nat) : Bool := s.ctxRuns (g.tile t).ctx && !(g.tile t).paused
    match g.drain, g.drains.find? runs with
    | none, some t =>
      let x := g.tile t
      match x.last, x.geo with
      | some k, some geo =>
        if s.engRuns c e && x.state = .draining && x.promoting.isEmpty then
          let d : Drain := x.resume.getD { slot := t, cmd := k }
          s.modEngine c e fun g =>
            let g1 : Engine := { g with params := if x.resume.isSome then none else g.params }
            { (g1.setTile t { x with resume := none }) with
              drain := some { d with slot := t, cmd := k, paramsHeld := g1.holdsParams k geo } }
        else s
      | _, _ => s
    | _, _ => s

/-- The records of a row parameter array (R234). -/
def paramRecords (bs : List Byte) : List Nat :=
  (List.range 256).map fun r => leNat ((bs.drop (16 * r)).take 16)

/-- ROW_PARAM_FETCH_RETURN (R230, R234). -/
def execRowParamFetchReturn (c : Ch) (e : SlotId) (ext : List Byte) (s : State) : Result :=
  live s <|
    match (s.engine c e).drain with
    | none => s
    | some d =>
      let x := s.tile c e d.slot
      match x.geo with
      | none => s
      | some geo =>
        if d.paramsHeld || !s.engRuns c e || !s.ctxRuns x.ctx then s
        else
          let va := oPaddr d.cmd.descs + 4096 * geo.rt
          match s.readVa { drainAccess c e d.cmd with va := va } hbmData 4096 ext with
          | (s1, o) =>
            if !o.done then s1
            else if o.poisoned then s1.tileLost c e d.slot
            else s1.modEngine c e fun g => { g with
              drain := some { d with paramsHeld := true }
              params := some { addr := oPaddr d.cmd.descs, rt := geo.rt, records := paramRecords o.bytes } }

/-! ## Blocks (R193, R229) -/

/-- The rows of a block. -/
def blockRows (j : Nat) : List Nat := (List.range 32).map (32 * j + ·)

/-- A tile's totals in a block, by patch index; a position beyond the count has none. -/
def TileSlot.blockTotals (x : TileSlot) (geo : EngCmd) (j : Nat) : Tab (List Total) :=
  (List.range 64).filterMap fun q =>
    ((windowOf geo.descs).posOf geo.pt q).map fun _ =>
      (q, ((Tab.get (zeroTotals x.tkind) x.totals q).drop (32 * j)).take 32)

/-- What leaves ACCM for the epilogue: elements after step 1, or the pooled elements of a POOL tile. -/
def TileSlot.blockElements (x : TileSlot) (geo : EngCmd) (j : Nat) : Tab (List LVal) :=
  if geo.op = opPool then
    x.pooled.map fun (p : Nat × List LVal) => (p.1, (p.2.drop (32 * j)).take 32)
  else (x.blockTotals geo j).map fun (p : Nat × List Total) =>
    (p.1, p.2.map (decodeStep x.working x.retries))

/-- A total as a partial carries it (R195): INT40 totals are shifted left by the retry count. -/
def partialValue (retries : Nat) : Total → Nat
  | .int (.fin v) => encodeTotal (.int (addInt totalLimit (.fin (v * 2 ^ retries)) (.fin 0)))
  | t => encodeTotal t

/-- The words m and M2 of a MOMENTS record: open where its count has saturated (R221). -/
def momentWords (drawn : Nat) (m m2 : LVal) (sat : Bool) : Nat × Nat :=
  if sat then (Config.openValue drawn % 2 ^ 32, Config.openValue (drawn + 1) % 2 ^ 32)
  else (encodeTotal (.lns m), encodeTotal (.lns m2))

/-- A statistic record as a block carries it (R218): one value, or the three words of MOMENTS, whose
first holds COUNT_SAT where R222 has it. -/
def encodeStat (drawn : Nat) : StatRec → List Nat
  | .sum t => [encodeTotal t]
  | .moments n m m2 sat =>
    let w := momentWords drawn m m2 sat
    [n + bit sat * 2 ^ 24, w.1, w.2]

/-- The statistic records of block `j` (R222). -/
def statBlockIds (geo : EngCmd) (j : Nat) : List Nat :=
  if bAxis geo.descs = 0 then (List.range 32).map (32 * j + ·) else (List.range 8).map (8 * j + ·)

/-- The payload of block `j` of a partial (R193, R222): rows in order, each with its 64 positions. -/
def TileSlot.partial (x : TileSlot) (drawn : Nat) (geo : EngCmd) (j : Nat) : List Nat :=
  if geo.op = opStats then
    (statBlockIds geo j).zipIdx.flatMap fun i =>
      encodeStat (drawn + 2 * i.2) (Tab.get (StatRec.empty geo) x.stats i.1)
  else
    let ts := x.blockTotals geo j
    (List.range 32).flatMap fun r => (List.range 64).map fun q =>
      partialValue x.retries ((Tab.get [] ts q).getD r (Total.zero x.tkind))

/-- The header of a block of a tile's partial, with the flags of the chain so far (R194, R196). -/
def tileHeader (s : State) (c e : Nat) (k : EngCmd) (x : TileSlot) (geo : EngCmd) (j : Nat) : BlockHdr :=
  let pbase := if x.tkind = 1 ∧ geo.op ≠ opStats then (x.working % 2 ^ 16).toNat else 0
  { linkHeader s c e k j (if geo.op = opStats then kindStats else kindTotals) x.tkind pbase with
    longsum := x.longsum, fallback := x.usedFallback, retries := max x.chainRetries x.retries
    guardDenied := x.guardDenied }

/-- Open values that a block of statistic records may take. -/
def statDraws : Nat := 64

/-- Block `j` of a tile's partial joins the send queue of the relay cell. -/
def State.sendBlock (s : State) (c e t j : Nat) (k : EngCmd) (x : TileSlot) (geo : EngCmd) : State :=
  (s.relaySend c e k (some t)
    { hdr := tileHeader s c e k x geo j, values := x.partial s.drawn geo j }).drawMany statDraws

/-! ## Pairs (R570, R588) -/

/-- A draining tile becomes HELD with its mismatch flag, and its drain is given up. -/
def State.holdDrain (s : State) (c e t : Nat) : State :=
  s.modEngine c e fun g =>
    { (g.setTile t { g.tile t with state := .held, mismatch := true, resume := none, accepted := 0 }) with
      drain := none, output := [], drains := g.drains.filter (· ≠ t)
      drainCredit := { g.drainCredit with owed := g.drainCredit.owed
        + (g.drain.elim 0 fun d => d.pipe.length) } }

/-- The two engines of a pair differ on a block: the tile becomes HELD; it re-runs on the pair, and
the second time as a guest, whose run is the arbiter. -/
def State.pairMismatch (s : State) (c e t j : Nat) : State :=
  let x := s.tile c e t
  let s1 := (s.bump .pwr Reg.pwrCnt_PAIR_MISMATCH).logOut c 0x01 (e + x.name * 2 ^ 8)
  let s2 := s1.holdDrain c e t
  if s.replayOn c then (s.holdDrain c e t).hold c e t
  else if x.pairTimes = 0 then (s2.modTile c e t fun x => { x with pairTimes := 1 }).rerunHere c e t
  else
    let second := (secondaryOf (s.gait c) e).getD e
    let rival : Rival :=
      { primary := s.siteIn c e, secondary := s.siteIn c second, block := j
        totals := x.geo.elim [] fun g => x.blockTotals g j }
    (s2.modTile c e t fun x => { x with pairTimes := 0, rival := some rival }).rerunAsGuest c e t

/-- A site bears a strike in the slot that it holds now (R587). -/
def State.strikeSite (s : State) (c site : Nat) : State :=
  let k := s.slotOfSite c site
  if k = 0x7f || s.replayOn c then s
  else
    let s1 := s.strike c k
    if 3 ≤ (s1.site c site).live then s1.declareFailed c k else s1

/-- The arbiter's block is compared with the pair's (R588). The primary's block is held; where it
differs from the arbiter's, whether the secondary's differs too is open. -/
def State.arbitrate (s : State) (c e t j : Nat) : State :=
  let x := s.tile c e t
  match x.rival, x.geo with
  | some v, some geo =>
    if v.block ≠ j then s
    else
      let first : Bool := v.totals ≠ x.blockTotals geo j
      let second : Bool := !first || Config.openValue s.drawn % 2 = 1
      let s1 := (s.draw).modTile c e t fun x => { x with rival := none }
      let s2 := if first && second then s1.loseTile c e t stTileLost (some causeTileLost) else s1
      let s3 := if first then s2.strikeSite c v.primary else s2
      if second then s3.strikeSite c v.secondary else s3
  | _, _ => s

/-- DRAIN_BLOCK_READ (R193, R195, R229, R570): a block leaves ACCM into the relay cell, or into the epilogue while
its output is not stalled. The engines of a pair differ where the totals do, or the mismatch flags of the two
copies of the tile. -/
def State.drainBlock (s : State) (c e : Nat) (differs : Bool) : State :=
  let g := s.engine c e
  match g.drain with
  | none => s
  | some d =>
    let x := g.tile d.slot
    match x.geo with
    | none => s
    | some geo =>
      let room : Bool :=
        if sendsPartial d.cmd then g.relay.occ < 2
        else d.pipe.isEmpty && g.output.isEmpty && 0 < g.drainCredit.held
      let apart : Bool := differs || x.mismatch != x.mateMismatch
      if !s.engRuns c e || !s.ctxRuns x.ctx || 8 ≤ d.block || !d.paramsHeld || !room then s
      else if apart && x.mirrored && g.paired then s.pairMismatch c e d.slot d.block
      else
        let s1 := (s.active x.ctx).arbitrate c e d.slot d.block
        if (s1.tile c e d.slot).state ≠ .draining then s1
        else if sendsPartial d.cmd then
          (s1.sendBlock c e d.slot d.block d.cmd x geo).modEngine c e fun g =>
            { g with drain := some { d with block := d.block + 1 } }
        else
          s1.modEngine c e fun g => { g with
            drain := some { d with
              block := d.block + 1, pipe := d.pipe ++ [(d.block, x.blockElements geo d.block)] }
            drainCredit := { g.drainCredit with held := g.drainCredit.held - 1 } }

/-- DRAIN_BLOCK_READ. -/
def execDrainBlockRead (c : Ch) (e : SlotId) (pairDiffers : Bool) (s : State) : Result :=
  live s <| if s.mayRecord c then s.drainBlock c e pairDiffers else s.recordStall

/-! ## The epilogue (R233) -/

/-- What the epilogue carries while it works on a block. -/
structure Epi where
  /-- The channel, and the number of the next element of it that narrows (R145). -/
  ch : Nat
  n : Nat
  d : Drain
  /-- The elements, by their numbers, that have counted in SAT_OUT before they narrow: no element counts twice
  (R243, R285). -/
  sums : List Nat := []
  deriving DecidableEq, Repr

def Drain.count (d : Drain) (k : NarrowCount) : Drain :=
  let up (v : Nat) : Nat := min (v + 1) 0xffff
  match k with
  | .none => d
  | .inf => { d with inf := up d.inf }
  | .indef => { d with indef := up d.indef }
  | .sat => { d with sat := up d.sat }
  | .under => { d with under := up d.under }

/-- Step 7 over a list of rows, in order. -/
def narrowAll (fmt : Nat) (og : Group) (exact : Bool) (x : Epi) (vs : List LVal) : Epi × List Nat :=
  vs.foldl (fun (acc : Epi × List Nat) v =>
    let (code, k) := narrow fmt og exact v (ditherIndex acc.1.ch acc.1.n)
    ({ acc.1 with n := acc.1.n + 1, d := if acc.1.sums.contains acc.1.n then acc.1.d else acc.1.d.count k },
      acc.2 ++ [code])) (x, [])

/-- The windows of fused pooling in a tile (R237): the patch indices of each, in patch order, that lie
below the position count. -/
def poolWindows (w : Window) (px py t : Nat) : List (List Nat) :=
  let cols := w.pw / px
  (List.range (cols * (w.ph / py))).map fun i =>
    (List.range 64).filter fun q =>
      q % w.pw / px = i % cols && q / w.pw / py = i / cols && (w.posOf t q).isSome

/-- The output channels of a block that the layer has. -/
def blockChannels (geo : EngCmd) (j : Nat) : List Nat :=
  (blockRows j).filter fun r => 256 * geo.rt + r < outChannels geo.descs

/-- Codes by destination position and channel. -/
abbrev Codes := List ((Nat × Nat) × Nat)

/-- The codes of a block after steps 5 to 7, by destination position and channel. -/
def epilogueBlock (k geo : EngCmd) (recs : List Nat) (x : Epi) (j : Nat) (es : Tab (List LVal)) :
    Epi × Codes :=
  let w := windowOf geo.descs
  let rows := blockChannels geo j
  let d := k.descs
  let held : Bool := oPaddr d ≠ 0 && worksOnTotals geo
  let step (r : Nat) (v : LVal) : LVal :=
    if worksOnTotals geo then
      epilogueSteps (if held then some (recs.getD r 0) else none) (oAct d) (oActarg d) v
    else v
  let vals : Tab (List LVal) := es.map fun (p : Nat × List LVal) =>
    (p.1, (rows.zip p.2).map fun rv => step rv.1 rv.2)
  let cands : Tab Cand :=
    if oArgaddr d = 0 ∨ !worksOnTotals geo then x.d.cands
    else vals.foldl (fun (cs : Tab Cand) (p : Nat × List LVal) =>
      let old := (cs.find? fun y => y.1 = p.1).map (·.2)
      match (rows.zip p.2).foldl (fun c rv => Cand.enter c (256 * geo.rt + rv.1) rv.2) old with
      | some c => Tab.set cs p.1 c
      | none => cs) x.d.cands
  let x1 : Epi := { x with d := { x.d with cands := cands } }
  let exact : Bool := worksOnTotals geo && oAct d = 5 && oPoolop d ≠ 2
  let grid := outGrid w (outChannels geo.descs)
  let place (p : Nat × Nat) (codes : List Nat) : Codes :=
    (rows.zip codes).map fun rc => (grid.place p.1 p.2 (256 * geo.rt + rc.1), rc.2)
  let pooling : Bool := worksOnTotals geo && (oPoolop d = 1 || oPoolop d = 2)
  if pooling then
    (poolWindows w (oPx d) (oPy d) geo.pt).foldl (fun (acc : Epi × Codes) qs =>
      match qs.head?.bind fun q => pooledPlace w (oPx d) (oPy d) geo.pt q with
      | none => acc
      | some (p, _) =>
        let at' (i : Nat) : List LVal := qs.map fun q => (Tab.get [] vals q).getD i .zero
        let pooled := (List.range rows.length).map fun i =>
          (if oPoolop d = 2 then poolAvg else poolMax) (at' i)
        let (x2, codes) := narrowAll (bOfmt d) k.ogroup exact acc.1 pooled
        (x2, acc.2 ++ (rows.zip codes).map fun rc => ((p, 256 * geo.rt + rc.1), rc.2))) (x1, [])
  else
    vals.foldl (fun (acc : Epi × Codes) (p : Nat × List LVal) =>
      match w.posOf geo.pt p.1 with
      | none => acc
      | some xy =>
        let (x2, codes) := narrowAll (bOfmt d) k.ogroup exact acc.1 p.2
        (x2, acc.2 ++ place xy codes)) (x1, [])

/-- The codes that a REGROUP moves (R275). -/
def regroupBlock (geo : EngCmd) (x : TileSlot) (j : Nat) : Codes :=
  let w := windowOf geo.descs
  let grid := outGrid w (outChannels geo.descs)
  x.raw.flatMap fun (p : Nat × List (Option Nat)) =>
    match w.posOf geo.pt p.1 with
    | none => []
    | some xy => (blockChannels geo j).map fun r =>
        (grid.place xy.1 xy.2 (256 * geo.rt + r), ((p.2.getD r none).getD 0))

/-- Positions and channels of the destination tensor of a drain. -/
def destShape (k geo : EngCmd) : Nat × Nat :=
  let w := windowOf geo.descs
  let grid := outGrid w (outChannels geo.descs)
  if worksOnTotals geo && (oPoolop k.descs = 1 || oPoolop k.descs = 2) then
    ((pooledPlace w (oPx k.descs) (oPy k.descs) geo.pt 0).elim 0 (·.2), grid.channels)
  else (grid.count, grid.channels)

/-- Element blocks of a set of codes: block and position with the lanes written. -/
def elementBlocks (n : Nat) (cs : Codes) : List ((Nat × Nat) × List (Nat × Nat)) :=
  ((cs.map fun c => (c.1.2 / n, c.1.1)).dedup).map fun bp =>
    (bp, (cs.filter fun c => c.1.2 / n = bp.1 && c.1.1 = bp.2).map fun c => (c.1.2 % n, c.2))

/-- The lanes of an element block as a list of codes. -/
def laneCodes (n : Nat) (ls : List (Nat × Nat)) : List Nat :=
  (List.range n).map fun l => (ls.find? fun x => x.1 = l).elim 0 (·.2)

/-- The mask of an element block that is written in part (R274): the lanes given, and the lanes at or
above the channel count. -/
def laneMask (fmt n b channels : Nat) (ls : List (Nat × Nat)) : List Byte :=
  packLanes fmt ((List.range n).map fun l =>
    if (ls.any fun x => x.1 = l) || channels ≤ b * n + l then 2 ^ fmtBits fmt - 1 else 0)

/-- Dense output (R64, R245, R274): one write for each element block. -/
def densePieces (o : Owner) (k geo : EngCmd) (cs : Codes) : List Piece :=
  let d := k.descs
  let n := blockLanes (bOlayout d)
  let (count, channels) := destShape k geo
  joinPieces <| (elementBlocks n cs).flatMap fun eb =>
    let va := bOaddr d + denseOffset (bOfmt d) (bOlayout d) count eb.1.1 eb.1.2
    let ps := pieces o va false (packLanes (bOfmt d) (laneCodes n eb.2))
    if (windowOf geo.descs).fout = 1 then ps
    else
      let mask := laneMask (bOfmt d) n eb.1.1 channels eb.2
      ps.zipIdx.map fun p => { p.1 with mask := some ((mask.drop (64 * p.2)).take 64) }

/-- A byte written in part joins what the drain has written of it before, so that a later piece keeps the lanes
of an earlier one where the destination takes whole bytes (R274). The table holds value and mask of such bytes by
address. -/
def mergeByte (acc : Tab (Nat × Nat) × List (Byte × Byte)) (x : Nat × Byte × Byte) :
    Tab (Nat × Nat) × List (Byte × Byte) :=
  let (va, v, m) := x
  if m = 0xff ∨ m = 0 then (acc.1, acc.2 ++ [(v, m)])
  else
    let old := Tab.get (0, 0) acc.1 va
    let v' := BitVec.ofNat 8 old.1 ||| (v &&& m)
    let m' := BitVec.ofNat 8 old.2 ||| m
    (Tab.set acc.1 va (v'.toNat, m'.toNat), acc.2 ++ [(v', m')])

/-- The pieces of a block with the bytes that earlier blocks of the drain wrote in part. -/
def mergeParts (parts : Tab (Nat × Nat)) (ps : List Piece) : List Piece × Tab (Nat × Nat) :=
  ps.foldl (fun (acc : List Piece × Tab (Nat × Nat)) p =>
    match p.mask with
    | none => (acc.1 ++ [p], acc.2)
    | some mask =>
      let r := ((p.bytes.zip mask).zipIdx.map fun x => (p.va + x.2, x.1)).foldl mergeByte (acc.2, [])
      (acc.1 ++ [{ p with bytes := r.2.map (·.1), mask := some (r.2.map (·.2)) }], r.1)) ([], parts)

/-- Compressed output (R66 to R68, R247): each segment of the block, its element blocks first and its
header last. -/
def segmentPieces (o : Owner) (k geo : EngCmd) (cs : Codes) : List Piece × Nat :=
  let d := k.descs
  let fmt := bOfmt d
  let n := blockLanes (bOlayout d)
  let (count, _) := destShape k geo
  let ebs := elementBlocks n cs
  let segs := (ebs.map fun eb => eb.1.1).dedup
  segs.foldl (fun (acc : List Piece × Nat) b =>
    let base := bOaddr d + segOffset fmt (bOlayout d) count b geo.pt
    let own := (ebs.filter fun eb => eb.1.1 = b && eb.2.any fun l => !zeroLane fmt l.2).mergeSort
      fun x y => x.1.2 ≤ y.1.2
    let bitmap := (own.map fun eb => 2 ^ (eb.1.2 % 64)).sum
    let body := own.flatMap fun eb => packLanes fmt (laneCodes n eb.2)
    let head := leBytes 32 (bitmap + own.length * 2 ^ 64)
    (acc.1 ++ pieces o (base + 32) true body ++ pieces o base false head,
      acc.2 + own.length)) ([], 0)

/-- The bytes of a written statistic record (R222). -/
def statBytes (drawn : Nat) : StatRec → List Byte
  | .sum (.lns v) => leBytes 4 (encodeTotal (.lns v))
  | .sum (.int v) => leBytes 8 ((signedOf (encodeTotal (.int v)) 40 % 2 ^ 64).toNat)
  | .moments n m m2 sat =>
    let w := momentWords drawn m m2 sat
    leBytes 16 (n + bit sat * 2 ^ 24 + w.1 * 2 ^ 32 + w.2 * 2 ^ 64)

def StatRec.saturated : StatRec → Bool
  | .moments _ _ _ sat => sat
  | .sum _ => false

/-- The records of a STATS tile that have elements' places: its rows, or its positions (R218). -/
def statIds (geo : EngCmd) : List Nat :=
  let w := windowOf geo.descs
  if bAxis geo.descs = 0 then
    (List.range 256).filter fun r => 256 * geo.rt + r < outChannels geo.descs
  else (List.range 64).filter fun q => (w.posOf geo.pt q).isSome

/-- The records of block `j` of a STATS tile. -/
def statPieces (drawn : Nat) (o : Owner) (k geo : EngCmd) (x : TileSlot) (j : Nat) : List Piece × Bool :=
  let per := if bAxis geo.descs = 0 then 32 else 8
  let ids := (statIds geo).filter fun i => i / per = j
  let rec' (i : Nat) : StatRec := Tab.get (StatRec.empty geo) x.stats i
  (ids.zipIdx.flatMap fun i =>
    pieces o (bOaddr k.descs + Config.statOffset geo.idx i.1) false (statBytes (drawn + 2 * i.2) (rec' i.1)),
   ids.any fun i => (rec' i).saturated)

/-- The sideband record (R249). A tile whose link was the tail of a chain shows the chain's retries, also where a
DRAIN command drains it (R166, R196). -/
def sidebandRecord (s : State) (c e : Nat) (k : EngCmd) (x : TileSlot) (d : Drain) : Nat :=
  d.inf + d.indef * 2 ^ 16 + d.sat * 2 ^ 32 + d.under * 2 ^ 48
    + bit x.longsum * 2 ^ 64 + bit x.usedFallback * 2 ^ 65
    + (if x.isTail then max x.chainRetries x.retries else x.retries) * 2 ^ 66
    + bit x.guardDenied * 2 ^ 68 + bit x.isTail * 2 ^ 69 + bit d.countSat * 2 ^ 70
    + bit k.diverted * 2 ^ 71 + x.ctx * 2 ^ 72 + x.name * 2 ^ 80 + c * 2 ^ 96 + e * 2 ^ 98
    + s.epoch c e * 2 ^ 105 + d.nzblk % 2 ^ 16 * 2 ^ 112

/-- Candidates and sideband record, the drain's last writes (R240, R249). -/
def tailPieces (s : State) (c e : Nat) (k geo : EngCmd) (x : TileSlot) (d : Drain) : List Piece :=
  let w := windowOf geo.descs
  let o := s.ownerOf c e k
  let cands := d.cands.flatMap fun (p : Nat × Cand) =>
    match w.posOf geo.pt p.1 with
    | none => []
    | some xy => pieces o
        (oArgaddr k.descs + (geo.rt * w.npos + (xy.2 * w.wo + xy.1)) * 8) false (leBytes 8 p.2.encode)
  let side := if bSbaddr k.descs = 0 then []
    else pieces o (bSbaddr k.descs) false (leBytes 16 (sidebandRecord s c e k x d))
  joinPieces cands ++ side

/-- The oldest block in the pipeline becomes pieces. -/
def State.epilogueStep (s : State) (c e : Nat) (d : Drain) (geo : EngCmd) (x : TileSlot) : State :=
  let k := d.cmd
  let o := s.ownerOf c e k
  match d.pipe with
  | (j, es) :: rest =>
    let free (g : Engine) : Credit := { g.drainCredit with owed := g.drainCredit.owed + 1 }
    if geo.op = opStats then
      let (ps, sat) := statPieces s.drawn o k geo x j
      (s.drawMany statDraws).modEngine c e fun g => { g with
        output := ps, drainCredit := free g
        drain := some { d with pipe := rest, countSat := d.countSat || sat } }
    else
      let recs := (s.engine c e).params.elim [] (·.records)
      let (y, cs) :=
        if geo.op = opRegroup then (({ ch := c, n := (s.chan c).narrowed, d := d } : Epi), regroupBlock geo x j)
        else epilogueBlock k geo recs { ch := c, n := (s.chan c).narrowed, d := d } j es
      let (ps, nz) :=
        if bOcomp k.descs && geo.op ≠ opRegroup then segmentPieces o k geo cs
        else
          let n := blockLanes (bOlayout k.descs)
          (densePieces o k geo cs, (elementBlocks n cs).length)
      let (qs, partBytes) := mergeParts d.partBytes ps
      (s.modChan c fun z => { z with narrowed := y.n }).modEngine c e fun g => { g with
        output := qs, drainCredit := free g
        drain := some { y.d with pipe := rest, nzblk := d.nzblk + nz, partBytes := partBytes } }
  | [] =>
    if d.block = 8 ∧ !d.tailed then
      s.modEngine c e fun g => { g with
        output := tailPieces s c e k geo x d, drain := some { d with tailed := true } }
    else s

/-- Pieces enter the write queue while it has credit (R229). -/
def Engine.pushOutput (g : Engine) : Engine :=
  let n := min g.output.length g.writeCredit.held
  { g with
    output := g.output.drop n, writes := g.writes ++ g.output.take n
    writeCredit := { g.writeCredit with held := g.writeCredit.held - n } }

/-- EPILOGUE_OUTPUT (R229, R233 to R250). What a save left at the epilogue's output goes on (R254). -/
def execEpilogueOutput (c : Ch) (e : SlotId) (s : State) : Result :=
  live s <|
    let g := s.engine c e
    match g.drain with
    | none => if s.engRuns c e then s.modEngine c e Engine.pushOutput else s
    | some d =>
      let x := g.tile d.slot
      match x.geo with
      | none => s
      | some geo =>
        if !s.engRuns c e || !s.ctxRuns x.ctx || sendsPartial d.cmd then s
        else
          let s1 := if g.output.isEmpty then s.epilogueStep c e d geo x else s
          s1.modEngine c e Engine.pushOutput

/-! ## Write-back (R245 to R248, R599) -/

/-- A masked byte: the masked bits take the new value. -/
def maskByte (old new mask : Byte) : Byte := (old &&& ~~~mask) ||| (new &&& mask)

/-- Bytes of a write reach one page: a store takes them with their mask; toward the host a byte that the mask
touches is written whole (R274). -/
def State.storeBytes (s : State) (r : RequesterId) (t : Target) (addr : Nat) (bs : List Byte)
    (mask : Option (List Byte)) : State :=
  match t, mask with
  | .host, none => s.emit (.hostWrite addr bs)
  | .host, some ms => (bs.zip ms).zipIdx.foldl (fun s x =>
      if x.1.2 = 0 then s else s.emit (.hostWrite (addr + x.2) [x.1.1])) s
  | tg, none => (s.countHbm (reqCh? r) tg hbmData bs.length).modMem tg fun m => m.put addr bs
  | tg, some ms => (s.countHbm (reqCh? r) tg hbmData bs.length).modMem tg fun m =>
      (bs.zip ms).zipIdx.foldl (fun m x =>
        m.write (addr + x.2) (maskByte (m.read (addr + x.2)) x.1.1 x.1.2)) m

/-- A piece without its first bytes. -/
def Piece.after (p : Piece) (n : Nat) : Piece :=
  { p with va := p.va + n, bytes := p.bytes.drop n, mask := p.mask.map (·.drop n) }

/-- One page of a piece is written, unless an earlier one could not be reached; `n` counts the bytes written. -/
def writePage (a : MemAccess) (p : Piece) (st : State × Nat × Bool) (page : Nat × Nat) : State × Nat × Bool :=
  let (s, n, ok) := st
  if !ok then st
  else
    match s.reach { a with va := page.1, write := true } with
    | (s1, none) => (s1, n, false)
    | (s1, some (t, addr)) =>
      (s1.storeBytes a.req t addr ((p.bytes.drop n).take page.2)
        (p.mask.map fun m => (m.drop n).take page.2), n + page.2, true)

/-- Pieces are written in their order, up to a page that cannot be reached (R434): the state and the pieces left,
the first of them from the faulting address on (R253). -/
def State.writeSome (s : State) (a : MemAccess) : List Piece → State × List Piece
  | [] => (s, [])
  | p :: ps =>
    match (piecesOf p.va p.bytes.length).foldl (writePage a p) (s, 0, true) with
    | (s1, _, true) => s1.writeSome a ps
    | (s1, n, false) => (s1, p.after n :: ps)

/-- The pages of several pieces: each page's target, address and piece, or none where a page could not be
reached. -/
def State.reachPieces (s : State) (a : MemAccess) (ps : List Piece) :
    State × Option (List (Piece × List (Target × Nat × Nat))) :=
  ps.foldl (fun (acc : State × Option (List (Piece × List (Target × Nat × Nat)))) p =>
    match acc.2 with
    | none => acc
    | some ts =>
      match acc.1.reachAll { a with va := p.va, write := true } p.bytes.length with
      | (s1, none) => (s1, none)
      | (s1, some q) => (s1, some (ts ++ [(p, q)]))) (s, some [])

/-- A segment is written whole once all of its pages can be reached (R247, R248): the state, and whether it
was. -/
def State.writeWhole (s : State) (a : MemAccess) (ps : List Piece) : State × Bool :=
  match s.reachPieces a ps with
  | (s1, none) => (s1, false)
  | (s1, some ts) =>
    (ts.foldl (fun s (x : Piece × List (Target × Nat × Nat)) =>
      (x.2.foldl (fun (st : State × Nat) t =>
        (st.1.storeBytes a.req t.1 t.2.1 ((x.1.bytes.drop st.2).take t.2.2)
          (x.1.mask.map fun m => (m.drop st.2).take t.2.2), st.2 + t.2.2)) (s, 0)).1) s1, true)

/-- Bytes of the largest segment slot (R66). -/
def maxSegBytes : Nat := 2080

/-- A header that an engine holds of a segment, and the blocks that its lanes have read of it, are read again after
the segment has been written: no read mixes an old header with new blocks (R72, R248). -/
def Engine.forgetSegment (g : Engine) (ctx va : Nat) : Engine :=
  let ofCtx (uid : Nat) : Bool := g.runs.any fun r => r.cmd.uid = uid && r.cmd.ctx = ctx
  let stale (h : Nat × Nat × Nat × Nat) : Bool := h.2.2.1 = va && ofCtx h.1
  let unread (k : EngCmd) : EngCmd :=
    if k.ctx = ctx && k.scan.heads.any fun h => h.2.2.1 = va then
      { k with scan := { k.scan with
          heads := k.scan.heads.filter fun h => h.2.2.1 ≠ va
          got := k.scan.got.filter fun f => !(va ≤ f.va && f.va < va + maxSegBytes) } }
    else k
  let g := { g with scanning := g.scanning.map unread }
  if g.headers.any stale then
    { g with
      headers := g.headers.filter fun h => !stale h
      runs := g.runs.map fun r =>
        if r.cmd.ctx = ctx then
          { r with lanes := r.lanes.map fun (l : Nat × LaneProg) =>
              (l.1, { l.2 with fetched := l.2.fetched.filter fun f => !(va ≤ f.va && f.va < va + maxSegBytes) }) }
        else r }
  else g

/-- The same of the CVU. -/
def Cvu.forgetSegment (u : Cvu) (ctx va : Nat) : Cvu :=
  { u with run := u.run.map fun r =>
      if r.cmd.ctx = ctx && r.heads.any fun h => h.2.2.1 = va then
        { r with
          heads := r.heads.filter fun h => h.2.2.1 ≠ va
          got := r.got.filter fun f => !(va ≤ f.va && f.va < va + maxSegBytes) }
      else r }

def State.forgetSegment (s : State) (ctx va : Nat) : State :=
  (List.range 4).foldl (fun s c => s.modChan c fun x =>
    { x with
      engines := x.engines.map fun (g : Nat × Engine) => (g.1, g.2.forgetSegment ctx va)
      cvu := x.cvu.forgetSegment ctx va }) s

/-- The pieces of the first write of a list: a segment's, or one piece; and the pieces behind them. -/
def firstWrite : List Piece → List Piece × List Piece
  | [] => ([], [])
  | p :: ps =>
    if p.more then
      let r := firstWrite ps
      (p :: r.1, r.2)
    else ([p], ps)

/-- A unit's writes leave in their order, a segment as one write, up to one that waits: the state and the pieces
left. -/
def State.writeOut (a : MemAccess) : (fuel : Nat) → State → List Piece → State × List Piece
  | 0, s, ps => (s, ps)
  | fuel + 1, s, ps =>
    match firstWrite ps with
    | ([], rest) => (s, rest)
    | ([p], rest) =>
      match s.writeSome a [p] with
      | (s1, []) => State.writeOut a fuel s1 rest
      | (s1, q :: _) => (s1, q :: rest)
    | (p :: w, rest) =>
      match s.writeWhole a (p :: w) with
      | (s1, false) => (s1, ps)
      | (s1, true) =>
        State.writeOut a fuel (s1.forgetSegment a.ctx ((p :: w).getLast?.elim p.va (·.va))) rest

/-- WRITE_BACK (R245, R247, R599): the first piece of the write queue leaves for its destination, which
takes a segment as one write. A write that meets a fault goes on from the faulting address (R253). -/
def execWriteBack (c : Ch) (e : SlotId) (s : State) : Result :=
  live s <|
    let g := s.engine c e
    match g.writes with
    | [] => s
    | p :: rest =>
      let free (g : Engine) : Engine := { g with writes := rest, writeCredit := g.writeCredit.free 1 }
      if !s.arithOn c then s
      else if s.isGhost c p.owner.slot p.owner.epoch then (s.modEngine c e free).ghostDrop c p.owner.slot
      else if p.more then s.modEngine c e fun g => { free g with assembling := g.assembling ++ [p] }
      else
        let a : MemAccess :=
          { req := if p.owner.scan then .scan c e else .drain c e, ctx := p.owner.ctx, va := p.va, write := true
            info := p.owner.info }
        if g.assembling.isEmpty then
          match s.writeSome a [p] with
          | (s1, []) => s1.modEngine c e free
          | (s1, q :: _) => s1.modEngine c e fun g => { g with writes := q :: rest }
        else
          match s.writeWhole a (g.assembling ++ [p]) with
          | (s1, false) => s1
          | (s1, true) => (s1.forgetSegment p.owner.ctx p.va).modEngine c e fun g =>
              { free g with assembling := [] }

/-! ## The end of a drain (R231, R252) -/

/-- DRAIN_COMPLETE (R231, R173): every write of the drain has been accepted. -/
def execDrainComplete (c : Ch) (e : SlotId) (s : State) : Result :=
  live s <|
    let g := s.engine c e
    match g.drain with
    | none => s
    | some d =>
      let p : Page := .eng c e
      let finished : Bool := d.block = 8 && d.tailed && d.pipe.isEmpty && g.output.isEmpty
        && g.writes.isEmpty && g.assembling.isEmpty
      if !s.engRuns c e || sendsPartial d.cmd || !finished then s
      else
        let x := g.tile d.slot
        let s1 := (s.ecsDone c x.closing stOk).bump p Reg.engDrainCnt_TILES
        let s2 := if d.inf ≠ 0 ∨ d.indef ≠ 0 ∨ d.sat ≠ 0 then s1.bump p Reg.engDrainCnt_SPECIAL else s1
        (s2.raise p 0).freeTile c e d.slot

/-! ## ARGMAX (R399) -/

/-- Address of a candidate in the array of a layer. -/
def candVa (base npos rt p : Nat) : Nat := base + (rt * npos + p) * 8

/-- The positions of an ARGMAX engine command. -/
def argmaxPositions (k : EngCmd) : List Nat :=
  ((List.range 64).map (64 * k.idx + ·)).filter (· < hd k.descs 176 32)

/-- The candidates of a command's positions are read, each position's in the order of its row tiles. -/
def State.argmaxReads (s : State) (a : MemAccess) (k : EngCmd) (ext : List Byte) :
    State × ReadOut × List (Nat × List Cand) :=
  (argmaxPositions k).foldl (fun (acc : State × ReadOut × List (Nat × List Cand)) p =>
    let (s1, o, cs) := acc
    let r := (List.range (hd k.descs 208 9)).foldl (fun (q : State × ReadOut × List Cand) rt =>
      if !q.2.1.done then q
      else
        let x := q.1.readVa { a with va := candVa (hd k.descs 128 48) (hd k.descs 176 32) rt p } hbmData 8
          q.2.1.ext
        (x.1, { x.2 with poisoned := x.2.poisoned || q.2.1.poisoned },
          q.2.2 ++ [Cand.decode (leNat x.2.bytes)])) (s1, o, [])
    (r.1, r.2.1, cs ++ [(p, r.2.2)])) (s, { ext := ext }, [])

/-- The candidate that each position's candidates merge to is written: whether all were. -/
def State.argmaxWrites (s : State) (a : MemAccess) (k : EngCmd) (cs : List (Nat × List Cand)) : State × Bool :=
  cs.foldl (fun (acc : State × Bool) pc =>
    match acc.2, pc.2 with
    | true, x :: xs =>
      let r := acc.1.writeVa { a with va := hd k.descs 224 48 + 8 * pc.1, write := true } hbmData
        (leBytes 8 (xs.foldl Cand.merge x).encode)
      (r.1, r.2.2)
    | _, _ => acc) (s, true)

/-- ARGMAX_MERGE (R241, R399): the command at the head of the queue merges its positions'
candidates. -/
def execArgmaxMerge (c : Ch) (e : SlotId) (ext : List Byte) (s : State) : Result :=
  live s <|
    match (s.engine c e).queue.head? with
    | none => s
    | some k =>
      if k.op ≠ opArgmax || (s.engine c e).drain.isSome || !s.engRuns c e || !s.ctxRuns k.ctx then s
      else
        match s.argmaxReads (drainAccess c e k) k ext with
        | (s1, o, cs) =>
          if !o.done then s1
          else if o.poisoned then (s1.metPoison c (consumerArgmax e) 0).dismiss c e k stTileLost
          else
            match s1.argmaxWrites (drainAccess c e k) k cs with
            | (s2, true) => s2.dismiss c e k stOk
            | (s2, false) => s2

end Sys2Proof.Machine
end

