-- ==== Sys2Proof/Machine/Links.lean ====
section
/-!
DEFINITION. Harness ports (chapter 16): training, flits with their credits and replay, lane
failures and retrains, and the loss of a port.
-/

namespace Sys2Proof.Machine

/-- Codes of HLK_STAT.LINK (R533). -/
def linkDown : Nat := 0
def linkTraining : Nat := 1
def linkUpCode : Nat := 2
def linkRetraining : Nat := 3

def State.link (s : State) (p : PortId) : Nat := s.rd (.hlk p) Reg.hlkStat_LINK
def State.setLink (s : State) (p : PortId) (v : Nat) : State := s.wr (.hlk p) Reg.hlkStat_LINK v

/-- PRESENT of a port: the filtered presence input of its cage (R24, R559). -/
def State.present (s : State) (p : PortId) : Bool := s.flag .far (Reg.farSb_ASSERTED (2 + p / 2))

/-- LOSTCAUSE codes (R524). -/
def lossCode : LossCause → Nat
  | .orderly => 1 | .noSignal => 2 | .presence => 3 | .retrainFail => 4 | .laneFail => 5
  | .disabled => 6 | .peerMismatch => 7

/-- Credits that a full receive buffer grants, by class (R513). -/
def fullCredits : Tab Nat := [(0, 32), (1, 128), (2, 128), (3, 128), (4, 128)]

/-- The lanes and the width code of the largest width that a lane mask and MAXW allow (R510, R520,
R532); none where no lane is left. -/
def chooseLanes (mask maxw : Nat) : Option (Nat × Nat) :=
  if mask % 16 = 15 ∧ maxw = 0 then some (15, 0)
  else if mask % 4 = 3 ∧ maxw ≤ 1 then some (3, 1)
  else if mask / 4 % 4 = 3 ∧ maxw ≤ 1 then some (12, 1)
  else if mask % 2 = 1 then some (1, 2)
  else if mask / 2 % 2 = 1 then some (2, 2)
  else if mask / 4 % 2 = 1 then some (4, 2)
  else if mask / 8 % 2 = 1 then some (8, 2)
  else none

/-- Lanes that a HELLO leaves to a port: trained here, offered by the peer and not failed. -/
def State.commonLanes (s : State) (p : PortId) (h : Hello) : Nat :=
  let fail := s.rd (.hlk p) Reg.hlkStat_LANE_FAIL
  (h.own.toNat &&& h.lanes.toNat) &&& (15 - fail)

/-- The HELLO of this end (R520, step 3). -/
def State.helloOf (s : State) (p : PortId) (lanes : BitVec 4) : Flit :=
  { ftype := 3, vc := 0, som := true, fseq := 0
    ack := BitVec.ofNat 12 (s.port p).accepted
    crvc := 0, crcnt := 0, len := 0, eom := true
    body := .hello
      { id := BitVec.ofNat 48 s.dev.deviceId, port := BitVec.ofNat 4 p, proto := Config.proto
        ack := BitVec.ofNat 12 (s.port p).accepted, lanes := lanes, own := lanes } }

/-- LINK_TRAIN (R520): an enabled port with a present peer trains the lanes that have not failed and
offers them in a HELLO. -/
def execLinkTrain (p : PortId) (lanes : BitVec 4) (s : State) : Result :=
  live s <|
    if s.flag (.hlk p) Reg.hlkCfg_EN ∧ s.present p ∧ s.link p = linkDown ∧ s.mainUp then
      (s.setLink p linkTraining).emit (.flit p (s.helloOf p lanes))
    else s

/-- The peer's HELLO is recorded (R533, R534). -/
def State.recordPeer (s : State) (p : PortId) (h : Hello) : State :=
  ((s.wr (.hlk p) Reg.hlkPeer_PEER_ID h.id.toNat).wr (.hlk p) Reg.hlkPeer_PROTO h.proto.toNat).wr
    (.hlk p) Reg.hlkStat_PEER_PORT h.port.toNat

/-- HELLO_RECEIVE (R520): the common lanes set the width and the port becomes UP with fresh
sequence numbers and full credits; another PROTO ends it with PEER_MISMATCH. -/
def execHelloReceive (p : PortId) (h : Hello) (s : State) : Result :=
  live s <|
    if s.link p = linkTraining then
      if h.proto ≠ Config.proto then
        ((s.recordPeer p h).setLink p linkDown).wr (.hlk p) Reg.hlkStat_LOSTCAUSE
          (lossCode .peerMismatch)
      else
        match chooseLanes (s.commonLanes p h) (s.rd (.hlk p) Reg.hlkCfg_MAXW) with
        | none => s.setLink p linkDown
        | some (lanes, width) =>
          let changed := s.rd (.hlk p) Reg.hlkPeer_PEER_ID ≠ h.id.toNat ∨
            s.rd (.hlk p) Reg.hlkStat_PEER_PORT ≠ h.port.toNat
          let s1 := ((s.recordPeer p h).setLink p linkUpCode).wr (.hlk p) Reg.hlkStat_WIDTH width
          let s2 := s1.modPort p fun _ => { credits := fullCredits, lanes := lanes }
          let s3 := s2.wr (.hlk p) Reg.blkState_STATE 2
          s3.raiseBits (.hlk p) (1 + if changed then 2 ^ 4 else 0)
    else s

/-! ## Sending -/

/-- The number of flits of a message (R512). -/
def LinkMsg.flits (m : LinkMsg) : Nat := max 1 ((m.bytes + 239) / 240)

/-- The next flit of a message, without its sequence number and acknowledgement. -/
def LinkMsg.flit (m : LinkMsg) (vc : Nat) : Flit :=
  let last := m.sent + 1 = m.flits
  { ftype := 1, vc := BitVec.ofNat 3 vc, som := m.sent = 0, fseq := 0, ack := 0, crvc := 0
    crcnt := 0, len := BitVec.ofNat 8 (if last then m.bytes - 240 * m.sent else 240)
    eom := last, body := if last then m.body else .part }

/-- A class may send its next flit: its message is under way, or it holds credits for every flit of
the message (R514). -/
def Port.canSend (x : Port) (vc : Nat) : Bool :=
  match Tab.get [] x.egress vc with
  | m :: _ => 0 < m.sent || m.flits ≤ Tab.get 0 x.credits vc
  | [] => false

/-- The classes in the order in which the egress looks at them: CTRL first, then the tandem classes
from the one whose turn it is (R514). -/
def Port.order (x : Port) : List Nat :=
  0 :: (List.range 4).map fun i => 1 + (x.turn - 1 + i) % 4

/-- The next flit of a class leaves its egress queue and uses a credit. -/
def Port.takeFlit (x : Port) (vc : Nat) : Option (Flit × Port) :=
  match Tab.get [] x.egress vc with
  | m :: rest =>
    let left := if m.sent + 1 = m.flits then rest else { m with sent := m.sent + 1 } :: rest
    some (m.flit vc,
      { x with
        egress := Tab.set x.egress vc left
        credits := Tab.set x.credits vc (Tab.get 0 x.credits vc - 1)
        turn := if vc = 0 then x.turn else vc % 4 + 1 })
  | [] => none

/-- A flit with this end's acknowledgement and one credit return, of the lowest class that owes
(R511). -/
def Port.stamp (x : Port) (f : Flit) : Flit × Port :=
  match (List.range 5).find? fun v => 0 < Tab.get 0 x.owed v with
  | some v =>
    let n := min 255 (Tab.get 0 x.owed v)
    ({ f with ack := BitVec.ofNat 12 x.accepted, crvc := BitVec.ofNat 3 v, crcnt := BitVec.ofNat 8 n },
      { x with owed := Tab.set x.owed v (Tab.get 0 x.owed v - n) })
  | none => ({ f with ack := BitVec.ofNat 12 x.accepted, crvc := 0, crcnt := 0 }, x)

/-- An unsequenced flit: IDLE (0x0) or NAK (0x2). -/
def plainFlit (ftype : Nat) : Flit :=
  { ftype := BitVec.ofNat 4 ftype, vc := 0, som := false, fseq := 0, ack := 0, crvc := 0
    crcnt := 0, len := 0, eom := false, body := .none }

/-- A new sequenced flit takes the next FSEQ and stays in the replay buffer (R516). -/
def Port.sequence (x : Port) (f : Flit) : Flit × Port :=
  let n := (x.fseq + 1) % 4096
  let f1 := { f with fseq := BitVec.ofNat 12 n }
  (f1, { x with fseq := n, replay := x.replay ++ [f1] })

/-- The flit that a port sends next, and the port after it (R514, R516, R518): a NAK that is due, a
flit of the replay under way, a LINKMGMT flit, a flit of a class that may send, or IDLE. -/
def Port.nextFlit (x : Port) : Flit × Port :=
  if x.nakDue then ({ x with nakDue := false }).stamp (plainFlit 2)
  else
    match x.resend with
    | f :: rest => ({ x with resend := rest }).stamp f
    | [] =>
      if 1024 ≤ x.replay.length then x.stamp (plainFlit 0)
      else
        match x.mgmt with
        | b :: rest =>
          let (f, x1) := ({ x with mgmt := rest }).sequence
            { plainFlit 3 with som := true, eom := true, body := b }
          x1.stamp f
        | [] =>
          match x.order.find? x.canSend with
          | some vc =>
            match x.takeFlit vc with
            | some (f, x1) =>
              let (f1, x2) := x1.sequence f
              x2.stamp f1
            | none => x.stamp (plainFlit 0)
          | none => x.stamp (plainFlit 0)

/-- A message at the head of a class whose block carries a stale epoch is dropped as the header
enters the port (R530). -/
def State.dropStaleEgress (s : State) (p : PortId) (vc : Nat) : State :=
  match Tab.get [] (s.port p).egress vc with
  | { body := .block b, bytes := _, sent := 0 } :: rest =>
    if s.staleBlock b then
      (s.modPort p fun x => { x with egress := Tab.set x.egress vc rest }).ghostDrop b.hdr.sch b.hdr.sslot
    else s
  | _ => s

/-- FLIT_TRANSMIT (R514): the egress of a port that is UP sends one flit. -/
def execFlitTransmit (p : PortId) (s : State) : Result :=
  live s <|
    if s.linkUp p then
      let s1 := [1, 2, 3, 4].foldl (fun s v => s.dropStaleEgress p v) s
      let (f, x) := (s1.port p).nextFlit
      (s1.modPort p fun _ => x).emit (.flit p f)
    else s

/-! ## Retrains and loss -/

/-- A port is lost (R524, R525). -/
def State.portLost (s : State) (p : PortId) (cause : LossCause) : State :=
  let h := Page.hlk p
  let s1 := (s.modPort p fun _ => {}).setLink p linkDown
  let s2 := s1.portPathsLost p
  let s3 := if (s2.slot (poBox p)).full then s2.mailTimeout (poBox p) else s2
  let s4 := s3.releaseAll (masterTag (.peer p))
  let s5 := if s4.flag h Reg.hlkRlock_BUSY then
      (s4.wr h Reg.hlkRlock_BUSY 0).wr h Reg.hlkRlock_LOST 1 else s4
  let s6 := ((s5.wr h Reg.hlkStat_LOSTCAUSE (lossCode cause)).wr h Reg.blkState_STATE
    (if s5.flag h Reg.hlkCfg_EN then 1 else 0)).wr h Reg.blkState_REARM 0
  (s6.bump h Reg.hlkCnt_LOSSES).raise h 1

/-- The port is UP or RETRAINING (R524). -/
def State.linkLive (s : State) (p : PortId) : Bool :=
  s.link p = linkUpCode || s.link p = linkRetraining

/-- PORT_LOSS (R525). -/
def execPortLoss (p : PortId) (cause : LossCause) (s : State) : Result :=
  live s <| if s.linkLive p then s.portLost p cause else s

/-- GOODBYE_RECEIVE (R526): the port goes DOWN with cause ORDERLY. -/
def execGoodbyeReceive (p : PortId) (s : State) : Result :=
  live s <| if s.linkLive p then s.portLost p .orderly else s

/-- GOODBYE_DRAIN_DONE (R526): after its GOODBYE the port goes DOWN with cause DISABLED. -/
def execGoodbyeDrainDone (p : PortId) (s : State) : Result :=
  live s <| if (s.port p).leaving ∧ s.linkLive p then s.portLost p .disabled else s

/-- A retrain starts from UP (R522). -/
def State.startRetrain (s : State) (p : PortId) : State :=
  if s.linkUp p then (s.setLink p linkRetraining).bump (.hlk p) Reg.hlkCnt_RETRAINS else s

/-- LANE_FAILURE (R521 to R523): the lane's bit sets. A lane in use starts a retrain; without
AUTODEGRADE it ends the port, and so does a retrain that has no lane left. -/
def execLaneFailure (p : PortId) (lane : Fin 4) (s : State) : Result :=
  live s <|
    if s.linkLive p then
      let fail := s.rd (.hlk p) Reg.hlkStat_LANE_FAIL ||| 2 ^ lane.val
      let s1 := s.wr (.hlk p) Reg.hlkStat_LANE_FAIL fail
      let used := bitsOf (s.port p).lanes lane 1 = 1
      if !used then s1
      else if !s.flag (.hlk p) Reg.hlkCfg_AUTODEGRADE then s1.portLost p .laneFail
      else if fail = 15 then s1.portLost p .noSignal
      else s1.startRetrain p
    else s

/-- MAXW_WRITE (R522, R532): a new MAXW on an UP port starts a retrain. -/
def execMaxwWrite (m : Master) (p : PortId) (maxw : BitVec 2) (s : State) : Result :=
  live s <|
    if s.writable m (.hlk p) 0x100 then
      let s1 := s.wr (.hlk p) Reg.hlkCfg_MAXW maxw.toNat
      if s.rd (.hlk p) Reg.hlkCfg_MAXW = maxw.toNat then s1 else s1.startRetrain p
    else s

/-! ## Receiving and replay -/

/-- How far FSEQ `a` lies behind `b`, modulo 4,096. -/
def seqBehind (a b : Nat) : Nat := (b + 4096 - a) % 4096

/-- The flits that an acknowledgement does not cover (R516): those after it in the sequence. -/
def uncovered (ack : Nat) (fs : List Flit) : List Flit :=
  fs.filter fun f => 2048 ≤ seqBehind f.fseq.toNat ack

/-- An acknowledgement frees the replay buffer up to it. An advance ends the count of consecutive
replays. -/
def Port.ackTo (x : Port) (ack : Nat) : Port :=
  let left := uncovered ack x.replay
  { x with
    replay := left
    resend := uncovered ack x.resend
    replays := if left.length < x.replay.length then 0 else x.replays }

/-- A replay starts from the oldest flit of the replay buffer (R518); REPLAY_LIM consecutive replays
from one FSEQ start a retrain (R519). -/
def State.startReplay (s : State) (p : PortId) : State :=
  match (s.port p).replay with
  | [] => s
  | f :: _ =>
    let x := s.port p
    let n := if x.replays ≠ 0 ∧ x.replayFrom = f.fseq.toNat then x.replays + 1 else 1
    let s1 := (s.modPort p fun x =>
      { x with resend := x.replay, replays := n, replayFrom := f.fseq.toNat }).bump (.hlk p)
        Reg.hlkCnt_REPLAYS
    if max 1 (s.rd (.hlk p) Reg.hlkCfg_REPLAY_LIM) ≤ n then
      (s1.modPort p fun x => { x with replays := 0 }).startRetrain p
    else s1

/-- A NAK (R518): the flits after its point are sent again, unless a replay from the same or an
earlier point is under way. -/
def State.nak (s : State) (p : PortId) (ack : Nat) : State :=
  let before := (s.port p).resend
  let s1 := s.modPort p fun x => x.ackTo ack
  if before.isEmpty ∨ before.length < (s1.port p).replay.length then s1.startReplay p else s1

/-- NAK_RECEIVE (R518). -/
def execNakReceive (p : PortId) (ack : BitVec 12) (s : State) : Result :=
  live s <| if s.linkUp p then s.nak p ack.toNat else s

/-- REPLAY_TIMEOUT (R518): the oldest unacknowledged flit is replayed. -/
def execReplayTimeout (p : PortId) (s : State) : Result :=
  live s <| if s.linkUp p then s.startReplay p else s

/-- A flit is discarded, and the first one asks for a NAK (R517). -/
def State.refuseFlit (s : State) (p : PortId) : State :=
  s.modPort p fun x => if x.nakSent then x else { x with nakSent := true, nakDue := true }

/-- A CANCEL of the peer (R528): it clears the FULL of PIp while the message is unread. -/
def State.peerCancel (s : State) (p : PortId) : State :=
  let x := s.slot (piBox p)
  if x.full ∧ !x.read then s.clearSlot (piBox p) .cancelled else s

/-- FLIT_RECEIVE (R511, R515 to R517, R536): a good flit acknowledges and returns credits; a
sequenced flit is accepted in order into its class's receive buffer, a duplicate is discarded, and
any other flit is discarded with one NAK. -/
def execFlitReceive (p : PortId) (f : Flit) (q : FlitQuality) (corrected : Nat) (s : State) :
    Result :=
  live s <|
    if s.linkUp p then
      let s0 := s.wrap (.hlk p) Reg.hlkFec_CORR corrected
      let s1 := if q = .uncorrectable then s0.wrap (.hlk p) Reg.hlkFec_UNCORR else s0
      if q ≠ .good ∨ 3 < f.ftype.toNat then s1.refuseFlit p
      else
        let s2 := s1.modPort p fun x =>
          let y := x.ackTo f.ack.toNat
          let held := Tab.get 0 y.credits f.crvc.toNat
          { y with credits := Tab.set y.credits f.crvc.toNat (held + f.crcnt.toNat) }
        if f.ftype = 0 then s2
        else if f.ftype = 2 then s2.nak p f.ack.toNat
        else
          let x := s2.port p
          if f.fseq.toNat = (x.accepted + 1) % 4096 then
            let s3 := s2.modPort p fun x =>
              { x with
                accepted := f.fseq.toNat
                nakSent := false
                rx := if f.ftype = 1 then
                    Tab.set x.rx f.vc.toNat (Tab.get [] x.rx f.vc.toNat ++ [f.body])
                  else x.rx }
            if f.body = .ctrl .cancel then (s3.takeCtrl p).peerCancel p else s3
          else if seqBehind f.fseq.toNat x.accepted < 2048 then s2
          else s2.refuseFlit p
    else s

/-- RETRAIN_DONE (R522, R523): the port resumes at the width of the common lanes, with the flits
after the peer's ACKSEQ first. A lower width is counted; no lane, or another PROTO, ends the port. -/
def execRetrainDone (p : PortId) (h : Hello) (s : State) : Result :=
  live s <|
    if s.link p = linkRetraining then
      if h.proto ≠ Config.proto then (s.recordPeer p h).portLost p .peerMismatch
      else
        match chooseLanes (s.commonLanes p h) (s.rd (.hlk p) Reg.hlkCfg_MAXW) with
        | none => s.portLost p .noSignal
        | some (lanes, width) =>
          let lower := s.rd (.hlk p) Reg.hlkStat_WIDTH < width
          let s1 := ((s.recordPeer p h).setLink p linkUpCode).wr (.hlk p) Reg.hlkStat_WIDTH width
          let underWay := !(s1.port p).resend.isEmpty
          let s2 := s1.modPort p fun x =>
            let y := { x.ackTo h.ack.toNat with lanes := lanes }
            { y with resend := y.replay }
          let s3 := if underWay ∨ (s2.port p).resend.isEmpty then s2
            else s2.bump (.hlk p) Reg.hlkCnt_REPLAYS
          if lower then (s3.bump (.hlk p) Reg.hlkCnt_DEGRADES).raise (.hlk p) 2 else s3
    else s

/-- RETRAIN_TIMEOUT (R523): the port is lost with cause RETRAIN_FAIL. -/
def execRetrainTimeout (p : PortId) (s : State) : Result :=
  live s <|
    if s.link p = linkRetraining then
      (s.portLost p .retrainFail).logTo 4 (domLink p) (.out 0x06 (0x100 + p.val))
    else s

end Sys2Proof.Machine
end

