-- ==== Sys2Proof/Machine/Tandem.lean ====
section
/-!
DEFINITION. Tandem chains (chapter 6): the hops of blocks with their credits, the ingress and the
landing buffer, folding, spilling, and the return of credits (R33, R35); and the dual-clock queues of
R36 that carry blocks and tails.
-/

namespace Sys2Proof.Machine

def tndPage (c : Nat) : Page := .tnd (Fin.ofNat 4 c)

/-! ## Sizes (R193, R200, R201, R512) -/

/-- Bytes of one value of a block: 4, or 5 for INT40. A MOMENTS record is three words of 4 bytes
(R218), which the number of values of the block tells. -/
def valueBytes (b : Block) : Nat :=
  if b.hdr.kind = kindStats ∧ (b.values.length = 96 ∨ b.values.length = 24) then 4
  else if b.hdr.tkind = 1 then 4 else 5

/-- Bytes of a block or a break marker with its header. -/
def blockSize (b : Block) : Nat := 64 + b.values.length * valueBytes b

/-- The header's 64 bytes (R194). -/
def headerBytes (h : BlockHdr) : List Byte :=
  leBytes 64 <|
    h.tag % 2 ^ 16 + h.dtile % 2 ^ 16 * 2 ^ 16 + h.dctx % 2 ^ 8 * 2 ^ 32 + h.dch % 4 * 2 ^ 40
      + h.cls % 4 * 2 ^ 42 + h.block % 8 * 2 ^ 44 + h.kind % 4 * 2 ^ 48 + h.tkind % 2 * 2 ^ 50
      + bit h.longsum * 2 ^ 51 + bit h.fallback * 2 ^ 52 + h.retries % 4 * 2 ^ 53
      + bit h.guardDenied * 2 ^ 55 + h.cause % 2 ^ 8 * 2 ^ 56 + h.pbase % 2 ^ 16 * 2 ^ 64
      + h.sslot % 2 ^ 7 * 2 ^ 80 + h.sch % 4 * 2 ^ 87 + h.sepoch % 2 ^ 4 * 2 ^ 89

def blockBytes (b : Block) : List Byte :=
  headerBytes b.hdr ++ b.values.flatMap (leBytes (valueBytes b))

/-! ## Dual-clock queues (R36, R565, R623) -/

/-- An entry is written; the log of channel `c` knows the producer's DSEQ. -/
def CrossQueue.push (q : CrossQueue) (x : Crossed) (dseq : Nat) : CrossQueue :=
  { q with entries := q.entries ++ [(x, dseq)], produced := q.produced + 1 }

def CrossQueue.pop (q : CrossQueue) : CrossQueue :=
  { q with entries := q.entries.drop 1, consumed := q.consumed + 1 }

/-- An entry enters the queue from the hub into a channel. -/
def State.intoCh (s : State) (c : Nat) (x : Crossed) : State :=
  s.modChan c fun y => { y with toCh := y.toCh.push x (Tab.get 0 (s.log c).dseq domHub) }

/-- An entry enters the queue from a channel to the hub. -/
def State.outOfCh (s : State) (c : Nat) (x : Crossed) : State :=
  s.modChan c fun y => { y with fromCh := y.fromCh.push x (Tab.get 0 (s.log c).dseq (domArith c)) }

/-- A crossing is recorded (R623): it joins the record before it where no other record of its domain
lies between. -/
def State.logCross (s : State) (c dom queue dseq : Nat) : State :=
  let l := s.log c
  let mine : Option LogRecord := (l.filling.filter fun r => r.dom = dom).getLast?
  match mine with
  | some { dom := d, dseq := n, body := .cross q k p } =>
    if q = queue ∧ k < 65535 ∧ l.recording then
      s.modLog c fun l => { l with filling := l.filling.map fun r =>
        if r.dom = d ∧ r.dseq = n then { r with body := .cross q (k + 1) p } else r }
    else s.logTo c dom (.cross queue 1 dseq)
  | _ => s.logTo c dom (.cross queue 1 dseq)

/-- The port that stands for the log, from which a replay takes its blocks (R636). -/
def logPort : Nat := 16

/-- The credit under which a block came is free again: its sender's within the channel, or the hub's. A block of
a replay's log came under none. -/
def State.oweIngress (s : State) (c : Nat) (m : Moving) : State :=
  let cls := m.block.hdr.cls
  let more (k : HopCredit) : HopCredit := { k with owed := k.owed + 1 }
  if m.port = none ∧ m.block.hdr.sch = c then
    s.modEngine c m.block.hdr.sslot fun g => { g with relay := { g.relay with
      credits := Tab.set g.relay.credits cls (more (g.relay.credit cls)) } }
  else if m.port = some logPort then s
  else s.modChan c fun y => { y with down := Tab.set y.down cls (more (y.downCredit cls)) }

/-- The landing entry held for a block's credit is released (R206). -/
def State.releaseHeld (s : State) (c : Nat) (m : Moving) : State :=
  if m.backed then
    match s.heldLanding c m.block.hdr.cls with
    | some i => s.dropLanding c i
    | none => s
  else s

/-- QUEUE_CROSSING: the first entry becomes visible to the consumer. A tail is the fetcher's (R383), a
block goes to the channel's ingress or to the hub tandem switch, and the credit of a dropped one returns. -/
def State.crossing (s : State) : Crossing → State
  | .toCh c =>
    match (s.chan c).toCh.entries with
    | [] => s
    | (x, d) :: _ =>
      if !s.arithOn c then s
      else
        let s1 := (s.modChan c fun y => { y with toCh := y.toCh.pop }).logCross c (domArith c)
          (Config.crossQueue true c) d
        match x with
        | .tail r v => s1.modRing c r fun y => { y with tailSeen := v }
        | .block m => s1.modChan c fun y => { y with ingress := y.ingress ++ [m] }
        | .dropped m => m.elim s1 fun m => (s1.releaseHeld c m).oweIngress c m
  | .fromCh c =>
    match (s.chan c).fromCh.entries with
    | [] => s
    | (x, d) :: _ =>
      let s1 := (s.modChan c fun y => { y with fromCh := y.fromCh.pop }).logCross c domHub
        (Config.crossQueue false c) d
      match x with
      | .tail _ _ => s1
      | .block m => s1.modChan c fun y => { y with switch := y.switch ++ [m] }
      | .dropped m => m.elim s1 fun m => s1.oweUp c m.block.hdr.cls

/-- QUEUE_CROSSING. The queues of a replay's target are crossed at the log's records only (R637). -/
def execQueueCrossing (q : Crossing) (s : State) : Result :=
  let c : Ch := match q with | .toCh c | .fromCh c => c
  live s <|
    if s.replayOn c then s
    else if s.mayRecord c then s.crossing q
    else s.recordStall

/-! ## Sending (R201 to R203) -/

/-- A credit of a hop is used: a backed one where there is one. -/
def HopCredit.take (k : HopCredit) : HopCredit × Bool :=
  ({ k with held := k.held - 1, backed := k.backed - 1 }, 0 < k.backed)

/-- A block stays within its sender's channel. -/
def Moving.localTo (m : Moving) (c : Nat) : Bool := m.next = 16 && m.block.hdr.dch = c

/-- The relay cell holds a credit for a block (R202). -/
def State.mayRelay (s : State) (c e : Nat) (m : Moving) : Bool :=
  let k := if m.localTo c then (s.engine c e).relay.credit m.block.hdr.cls
    else (s.chan c).upCredit m.block.hdr.cls
  0 < k.held

/-- A block as it leaves its slot: it carries the epoch of that moment (R194, R598). -/
def Moving.leaving (s : State) (c e : Nat) (m : Moving) : Moving :=
  { m with block := { m.block with hdr := { m.block.hdr with sslot := e, sch := c, sepoch := s.epoch c e } } }

/-- The first block of a relay cell whose class holds credit leaves it. -/
def State.relayOut (s : State) (c e : Nat) : State :=
  let r := (s.engine c e).relay
  match r.sending.find? (s.mayRelay c e) with
  | none => s
  | some m =>
    let cls := m.block.hdr.cls
    let left : Relay := { r with sending := r.sending.erase m }
    if m.localTo c then
      let (k, backed) := (r.credit cls).take
      let m' : Moving := { Moving.leaving s c e m with backed := backed }
      (s.modEngine c e fun g => { g with relay := { left with
        sent := left.sent ++ [m'], credits := Tab.set r.credits cls k } }).modChan c fun y =>
          { y with ingress := y.ingress ++ [m'] }
    else
      let (k, _) := ((s.chan c).upCredit cls).take
      let m' := Moving.leaving s c e m
      ((s.modEngine c e fun g => { g with relay := { left with sent := left.sent ++ [m'] } }).modChan c
        fun y => { y with up := Tab.set y.up cls k }).outOfCh c (.block m')

/-- The hub hands a block to a channel, under a credit of its class (R202). A block for a channel that is
held in reset or starts is discarded (R37). -/
def State.hubToCh (s : State) (d : Nat) (m : Moving) : State :=
  let cls := m.block.hdr.cls
  let (k, backed) := ((s.chan d).downCredit cls).take
  if !s.isReady d then s
  else (s.modChan d fun y => { y with down := Tab.set y.down cls k }).intoCh d
    (.block { m with backed := backed })

/-- A block may leave the hub switch: towards a channel with a credit, towards a port that is UP or
RETRAINING whose egress holds no message of the class (R202, R530). -/
def State.maySwitch (s : State) (m : Moving) : Bool :=
  if m.next = 16 then
    if s.replayHolds m.block.hdr.dch then false
    else !s.isReady m.block.hdr.dch || 0 < ((s.chan m.block.hdr.dch).downCredit m.block.hdr.cls).held
  else
    let p : PortId := Fin.ofNat 16 m.next
    s.linkLive p && (Tab.get [] (s.port p).egress (1 + m.block.hdr.cls)).isEmpty

/-- The hub switch sends on the first block from channel `c` that may go; a block of a stale epoch is
dropped (R530, R599). -/
def State.switchOut (s : State) (c : Nat) : State :=
  let sw := (s.chan c).switch
  match sw.find? fun m => s.staleBlock m.block || s.replayHolds c || s.maySwitch m with
  | none => s
  | some m =>
    let h := m.block.hdr
    let s1 := (s.modChan c fun y => { y with switch := y.switch.erase m }).oweUp c h.cls
    if s.staleBlock m.block then s1.ghostDrop h.sch h.sslot
    else if s.replayHolds c then s1.modRec fun r => { r with discarded := r.discarded + 1 }
    else if m.next = 16 then s1.hubToCh h.dch m
    else s1.toEgress m.next (1 + h.cls) { body := .block m.block, bytes := blockSize m.block }

/-- A complete message at the front of a receive buffer: its flits and its block. -/
def completeBlock (fs : List FlitBody) : Option (Nat × Block) :=
  let parts := fs.takeWhile fun f => f = .part
  match fs.drop parts.length with
  | .block b :: _ => some (parts.length + 1, b)
  | _ => none

/-- The hub switch takes a complete block from the receive buffer of a port (R515, R531); it takes none
of a class that the receiving channel withholds. -/
def State.portOut (s : State) (p : PortId) : State :=
  let ready (cls : Nat) : Option (Nat × Nat × Block) :=
    (completeBlock (Tab.get [] (s.port p).rx (1 + cls))).bind fun nb =>
      if s.replayHolds nb.2.hdr.dch then none
      else if !s.isReady nb.2.hdr.dch
          || 0 < ((s.chan nb.2.hdr.dch).downCredit cls).held && !s.withholds nb.2.hdr.dch cls then
        some (cls, nb)
      else none
  match (List.range 4).filterMap ready with
  | [] => s
  | (cls, n, b) :: _ =>
    (s.modPort p fun x => { x with
      rx := Tab.set x.rx (1 + cls) ((Tab.get [] x.rx (1 + cls)).drop n)
      owed := Tab.set x.owed (1 + cls) (Tab.get 0 x.owed (1 + cls) + n) }).hubToCh b.hdr.dch
        { block := { b with hdr := { b.hdr with cls := cls } }, port := some p.val }

/-- TANDEM_BLOCK_SEND (R201 to R203): a block moves over one hop. -/
def execTandemBlockSend (h : Hop) (s : State) : Result :=
  live s <|
    match h with
    | .relay c e => if s.engRuns c e then s.relayOut c e else s
    | .hubFromCh c => s.switchOut c
    | .hubFromPort p => s.portOut p

/-- The next hop has taken a block of a tile slot; with the last of eight the slot of a HEAD or MID
becomes FREE (R190). -/
def State.acceptFor (s : State) (c e t : Nat) : State :=
  let n := (s.tile c e t).accepted + 1
  let s1 := s.modTile c e t fun x => { x with accepted := n }
  if n < 8 then s1
  else
    let x := s1.tile c e t
    let s2 := s1.ecsDone c x.closing stOk
    let s3 := if x.await.isSome then s2
      else (s2.bump (engPage c e) Reg.engDrainCnt_TILES).raise (engPage c e) 0
    s3.freeTile c e t

/-- A sent block has not been taken whole into the buffer of the next hop (R668): the relay cell or landing entry of
a receiver in the same channel, the channel's link to the hub, or the egress of a port. -/
def State.underWay (s : State) (c : Nat) (m : Moving) : Bool :=
  let x := s.chan c
  if m.localTo c then x.ingress.contains m
  else m.next ≠ 16 && ((x.fromCh.entries.any fun q => q.1 = .block m) || x.switch.contains m)

/-- BLOCK_ACCEPTED (R190, R668): the oldest block sent has been taken whole into the buffer of the next
hop. -/
def execBlockAccepted (c : Ch) (e : SlotId) (s : State) : Result :=
  live s <|
    let g := s.engine c e
    match g.relay.sent with
    | [] => s
    | m :: rest =>
      if s.underWay c m then s
      else
        let s1 := s.modEngine c e fun g => { g with relay := { g.relay with sent := rest } }
        match m.tile with
        | none => s1
        | some t => s1.acceptFor c e t

/-! ## The ingress (R204 to R206) -/

/-- A block of this device's own sender whose epoch is stale; one that came over the harness is not checked
(R225, R599). -/
def State.ghostBlock (s : State) (m : Moving) : Bool := m.port = none && s.staleBlock m.block

/-- The tile that awaits a block: the tile of DCTX and DTILE is FILLING and awaits TAG. -/
def Engine.awaiting (g : Engine) (h : BlockHdr) : Option (Nat × TileSlot) :=
  g.slots.find? fun t => t.2.state = .filling && t.2.ctx = h.dctx && t.2.name = h.dtile &&
    t.2.await.elim false fun w => w.tag = h.tag

/-- The engine and tile slot that await a block. -/
def State.receiverOf (s : State) (c : Nat) (h : BlockHdr) : Option (Nat × Nat) :=
  (s.chan c).engines.findSome? fun (g : Nat × Engine) => (g.2.awaiting h).map fun t => (g.1, t.1)

/-- A block is received under the tag that a tile awaits (R213, R214). -/
def Await.receive (w : Await) (m : Moving) : Await :=
  { w with
    cls := some (w.cls.getD m.block.hdr.cls)
    paths := if w.paths.contains (pathOf m) then w.paths else w.paths ++ [pathOf m] }

/-- A block enters the relay cell of its receiver. -/
def State.deliver (s : State) (c e t : Nat) (m : Moving) : State :=
  s.modEngine c e fun g =>
    let x := g.tile t
    { (g.setTile t { x with await := x.await.map fun w => w.receive m }) with
      relay := { g.relay with received := g.relay.received ++ [{ m with backed := false }] } }

/-- A block lands in the entry held for its credit, or in one that is free (R206); none where its class
withholds. -/
def State.land (s : State) (c : Nat) (m : Moving) : Option (Nat × State) :=
  let cls := m.block.hdr.cls
  let taken := match m.backed, s.heldLanding c cls with
    | true, some i => some (i, s)
    | _, _ => s.takeLanding c cls none
  taken.map fun (x : Nat × State) =>
    (x.1, x.2.modChan c fun y =>
      let l := Tab.get { cls := cls, shared := false } y.landing x.1
      { y with
        landing := Tab.set y.landing x.1 { l with block := some { m with backed := false }, order := y.landings }
        landings := y.landings + 1 })

/-- A block of a replay's target lands where the log says (R637): in an entry that no block holds. -/
def State.landRecorded (s : State) (c : Nat) (m : Moving) : Option (Nat × State) :=
  (s.forced c 0x05).bind fun v =>
    let i := v / 2 ^ 8
    let busy : Bool := (s.chan c).landing.any fun l => l.1 = i && l.2.block.isSome
    if v % 2 ≠ 1 || busy then none
    else some (i, s.modChan c fun y =>
      let entry : Landing :=
        { cls := m.block.hdr.cls, shared := s.reserveFree c m.block.hdr.cls = 0
          block := some { m with backed := false }, order := y.landings }
      { y with landing := Tab.set y.landing i entry, landings := y.landings + 1 })

/-- A block at the ingress lands. -/
def State.landHere (s : State) (c : Nat) (m : Moving) : Option (Nat × State) :=
  if s.replayOn c then s.landRecorded c m else s.land c m

/-- One block at the ingress: it is delivered, or lands, or waits (none). -/
def State.arrive (s : State) (c : Nat) (m : Moving) : Option State :=
  let h := m.block.hdr
  let own : Bool := m.port = none && h.sch = c
  let s1 := s.modChan c fun y => { y with ingress := y.ingress.erase m }
  let s2 := if own then s1 else s1.logInput c (domArith c) 0x2 (blockBytes m.block)
  if s.ghostBlock m then
    some (((s1.releaseHeld c m).oweIngress c m).ghostDrop h.sch h.sslot)
  else
    match s.receiverOf c h with
    | some (e, t) =>
      if (s.engine c e).relay.occ < 2 ∧ ((s.chan c).landed h.dctx h.tag).isEmpty
          ∧ !s.early c 0x05 0 then
        some (((((s2.releaseHeld c m).deliver c e t m).oweIngress c m).logDec c 0x05 0))
      else (s2.landHere c m).map fun x =>
        ((x.2.oweIngress c m).bump (tndPage c) Reg.tndCnt_LANDED).logDec c 0x05 (1 + x.1 * 2 ^ 8)
    | none => (s2.landHere c m).map fun x =>
        ((x.2.oweIngress c m).bump (tndPage c) Reg.tndCnt_LANDED).logDec c 0x05 (1 + x.1 * 2 ^ 8)

/-- Two blocks are of one partial. -/
def Moving.samePartial (a b : Moving) : Bool :=
  a.block.hdr.dctx = b.block.hdr.dctx && a.block.hdr.tag = b.block.hdr.tag

/-- What the ingress does: the first block that may move goes on. The blocks of one partial keep their order
(R203). -/
def State.arriveFirst (s : State) (c : Nat) : Option State :=
  let ms := (s.chan c).ingress
  ms.zipIdx.findSome? fun m => if (ms.take m.2).any m.1.samePartial then none else s.arrive c m.1

/-- TANDEM_INGRESS_ARRIVAL (R204): the first block at the ingress whose class may move. -/
def execTandemIngressArrival (c : Ch) (s : State) : Result :=
  live s <|
    if !s.arithOn c then s
    else if !s.mayRecord c then s.recordStall
    else
      (s.arriveFirst c).getD s

/-- The landed block that arrived first under a tag. -/
def Channel.oldestLanded (x : Channel) (ctx tag : Nat) : Option (Nat × Moving) :=
  (x.landed ctx tag).foldl (fun (best : Option (Nat × Moving)) l =>
    let order (i : Nat) : Nat := (Tab.get { cls := 0, shared := false } x.landing i).order
    match best with
    | some b => if order l.1 < order b.1 then some l else some b
    | none => some l) none

/-- The tile slot of an engine for which a block has landed, with the block's entry and the block. -/
def State.landedFor (s : State) (c e : Nat) : Option (Nat × Nat × Moving) :=
  (s.engine c e).slots.findSome? fun t =>
    if t.2.state = .filling then
      t.2.await.bind fun w => ((s.chan c).oldestLanded t.2.ctx w.tag).map fun l => (t.1, l)
    else none

/-- LANDED_BLOCK_MOVE (R205): a landed block moves into the relay cell of the engine whose tile awaits
its tag, and its entry is released. Ghost traffic is dropped there (R599). -/
def execLandedBlockMove (c : Ch) (e : SlotId) (s : State) : Result :=
  live s <|
    match s.landedFor c e with
    | some (t, i, m) =>
      if !s.engRuns c e then s
      else if s.ghostBlock m then (s.dropLanding c i).ghostDrop m.block.hdr.sch m.block.hdr.sslot
      else if (s.engine c e).relay.occ < 2 && !s.early c 0x05 (i * 2 ^ 8) then
        ((s.dropLanding c i).deliver c e t m).logDec c 0x05 (i * 2 ^ 8)
      else s
    | none => s

/-! ## Folding (R195 to R200) -/

/-- The status that a break marker names (R200). -/
def breakStatus (cause : Nat) : Nat :=
  if cause = causeRemoteLost then stRemoteLost
  else if cause = causeFormatMismatch then stFormatMismatch
  else if cause = causeContextReset then stContextReset
  else stTileLost

/-- A value of a block in the form in which it enters a total (R196). -/
def foldTerm (x : TileSlot) (pbase : Int) : Total → Total
  | .int (.fin v) => .int (.fin (roundDiv v (2 ^ x.retries)))
  | .int v => .int v
  | .lns v => .lns (offsetLog v (pbase - x.working))

/-- The totals after a block of totals (R196): row `r` of the block at position `q` is its value
64·r + q. -/
def TileSlot.foldTotals (x : TileSlot) (geo : EngCmd) (b : Block) : Tab (List Total) :=
  let j := b.hdr.block
  (List.range 64).foldl (fun (ts : Tab (List Total)) q =>
    match (windowOf geo.descs).posOf geo.pt q with
    | none => ts
    | some _ =>
      let old := Tab.get (zeroTotals x.tkind) ts q
      Tab.set ts q (old.zipIdx.map fun (vr : Total × Nat) =>
        if vr.2 / 32 = j then
          vr.1.add (foldTerm x (signedOf b.hdr.pbase 16)
            (decodeTotal b.hdr.tkind (b.values.getD (64 * (vr.2 % 32) + q) 0)))
        else vr.1)) x.totals

/-- The `i`-th record of a block of statistic records. -/
def decodeStat (k : EngCmd) (tkind : Nat) (vs : List Nat) (i : Nat) : StatRec :=
  if bSop k.descs = sopMoments then
    let w := vs.getD (3 * i) 0
    let lns (v : Nat) : LVal := match decodeTotal 1 v with
      | .lns x => x
      | .int _ => .zero
    .moments (bitsOf w 0 24) (lns (vs.getD (3 * i + 1) 0)) (lns (vs.getD (3 * i + 2) 0)) (bitsOf w 24 1 = 1)
  else .sum (decodeTotal tkind (vs.getD i 0))

/-- The records after a block of records (R222). -/
def TileSlot.foldStats (x : TileSlot) (geo : EngCmd) (b : Block) : Tab StatRec :=
  (statBlockIds geo b.hdr.block).zipIdx.foldl (fun (st : Tab StatRec) (ki : Nat × Nat) =>
    Tab.set st ki.1 ((Tab.get (StatRec.empty geo) st ki.1).merge
      (decodeStat geo b.hdr.tkind b.values ki.2))) x.stats

/-- A tile after the fold of a block: its totals or records, the flags of the chain and the mask
(R196, R199). -/
def TileSlot.fold (x : TileSlot) (geo : EngCmd) (w : Await) (b : Block) : TileSlot :=
  let h := b.hdr
  let y := if geo.op = opStats then { x with stats := x.foldStats geo b }
    else { x with totals := x.foldTotals geo b }
  { y with
    longsum := x.longsum || h.longsum, usedFallback := x.usedFallback || h.fallback
    guardDenied := x.guardDenied || h.guardDenied, chainRetries := max x.chainRetries h.retries
    await := some { w with folded := w.folded ||| 2 ^ h.block } }

/-- A MID sends the block that it has folded on under its own tag (R190). -/
def State.sendFolded (s : State) (c e t j : Nat) (k geo : EngCmd) : State :=
  (s.sendBlock c e t j k (s.tile c e t) geo).modTile c e t
    fun x => { x with await := x.await.map fun w => { w with sent := w.sent + 1 } }

/-- A TAIL has folded its eight blocks: the tile completes and takes its end action, unless the next command
continues it (R172, R190). -/
def State.tailEnd (s : State) (c e t : Nat) : State :=
  ((s.stampTile c e t).modTile c e t fun x => { x with await := none, tailDone := true }).endOrContinue c e t

/-- A block is folded for a tile that awaits it, or ends the tile, or is released (R198 to R200). -/
def State.foldInto (s : State) (c e t : Nat) (m : Moving) : State :=
  let x := s.tile c e t
  let h := m.block.hdr
  match x.await, x.last, x.geo with
  | some w, some k, some geo =>
    if h.kind = kindBreak then s.loseTile c e t (breakStatus h.cause) (some h.cause)
    else if bitsOf w.folded h.block 1 = 1 then
      (s.bump (tndPage c) Reg.tndCnt_DUPS).raise (tndPage c) 3
    else if h.tkind ≠ x.tkind ∨ (h.kind = kindStats) ≠ (geo.op = opStats) then
      s.loseTile c e t stFormatMismatch (some causeFormatMismatch)
    else
      let s1 := s.modTile c e t fun x => x.fold geo w m.block
      let whole : Bool := (w.folded ||| 2 ^ h.block) = 0xff
      if tRole k.descs = roleMid then s1.sendFolded c e t h.block k geo
      else if whole then s1.tailEnd c e t
      else s1
  | _, _, _ => s

/-- A received block waits: its tile is back from a save and waits for an in-progress slot, or the tile's
context does not run. -/
def State.foldWaits (s : State) (c e : Nat) (m : Moving) : Bool :=
  let g := s.engine c e
  match g.awaiting m.block.hdr with
  | some (_, x) => !s.ctxRuns x.ctx
  | none => g.slots.any fun t => t.2.paused && t.2.await.isSome && m.forTile t.2

/-- BLOCK_FOLD (R196 to R200): the oldest block received in the relay cell whose tile runs. Ghost traffic is
dropped (R599), and a block that no tile awaits any more is released as a duplicate (R199). -/
def execBlockFold (c : Ch) (e : SlotId) (s : State) : Result :=
  live s <|
    let g := s.engine c e
    match g.relay.received.find? fun m => !s.foldWaits c e m with
    | none => s
    | some m =>
      let s1 := s.modEngine c e fun g => { g with relay := { g.relay with received := g.relay.received.erase m } }
      if !s.engRuns c e then s
      else if s.ghostBlock m then s1.ghostDrop m.block.hdr.sch m.block.hdr.sslot
      else
        match g.awaiting m.block.hdr with
        | none => (s1.bump (tndPage c) Reg.tndCnt_DUPS).raise (tndPage c) 3
        | some (t, _) => s1.foldInto c e t m

/-! ## Spilling (R208) -/

/-- LANDING_SPILL: a landed block of a withholding class whose context is not resident begins to be
spilled. -/
def execLandingSpill (c : Ch) (entry : Fin 128) (s : State) : Result :=
  live s <|
    match (s.chan c).landing.find? fun l => l.1 = entry.val with
    | none => s
    | some (i, l) =>
      match l.block with
      | none => s
      | some m =>
        if s.withholds c l.cls && (s.slotOfCtx m.block.hdr.dctx).isNone && !l.spilling && s.arithOn c then
          (s.modChan c fun y => { y with
            landing := Tab.set y.landing i { l with spilling := true, spillAt := Config.spillOffset s.drawn } }).draw
        else s

/-- LANDING_SPILL_DONE: the block is sealed into its context's save area and the entry is released. -/
def execLandingSpillDone (c : Ch) (entry : Fin 128) (s : State) : Result :=
  live s <|
    let l := Tab.get { cls := 0, shared := false } (s.chan c).landing entry.val
    match l.spilling, l.block with
    | true, some m =>
      let ctx := m.block.hdr.dctx
      let a : MemAccess :=
        { req := .landing c entry, ctx := ctx, va := s.saveRegion c ctx + l.spillAt
          write := true }
      match s.sealVa a (blockSize m.block) with
      | (s1, false) => s1
      | (s1, true) =>
        (((s1.dropLanding c entry).modChan c fun y => { y with
          spills := y.spills ++ [{ ctx := ctx, key := s.dev.sealKey, offset := l.spillAt, block := m }] }).bump (tndPage c)
            Reg.tndCnt_SPILLED).raise (tndPage c) 1
    | _, _ => s

/-! ## Credits (R33, R35, R206) -/

/-- One freed entry's credit reaches the producer. -/
def Credit.back (k : Credit) : Credit :=
  if k.owed = 0 then k else { held := k.held + 1, owed := k.owed - 1 }

/-- A credit that the ingress returns, with or without a landing entry behind it. -/
def HopCredit.back (k : HopCredit) (backed : Nat) : HopCredit :=
  if k.owed = 0 then k else { held := k.held + 1, backed := k.backed + backed, owed := k.owed - 1 }

/-- The ingress returns a credit of a class: it holds a landing entry, and none is returned while the
class withholds (R206). -/
def State.backCredit (s : State) (c cls : Nat) (k : HopCredit) (put : HopCredit → State → State) : State :=
  if k.owed = 0 then s
  else
    match s.takeLanding c cls none with
    | some (_, s1) => put (k.back 1) s1
    | none => s

/-- CREDIT_RETURN (R33, R35, R206). -/
def execCreditReturn (q : CreditQueue) (s : State) : Result :=
  live s <|
    match q with
    | .descriptors c r => s.modRing c r fun y =>
        if y.owed = 0 then y else { y with credits := y.credits + 1, owed := y.owed - 1 }
    | .commands c e => s.modEngine c e fun g => { g with credit := g.credit.back }
    | .lane c e l => s.modEngine c e fun g => g.setLaneCredit l Credit.back
    | .drain c e => s.modEngine c e fun g => { g with drainCredit := g.drainCredit.back }
    | .write c e => s.modEngine c e fun g => { g with writeCredit := g.writeCredit.back }
    | .chToHub c cls => s.modChan c fun y =>
        { y with up := Tab.set y.up cls ((y.upCredit cls).back 0) }
    | .hubToCh c cls =>
      s.backCredit c cls ((s.chan c).downCredit cls) fun k s =>
        s.modChan c fun y => { y with down := Tab.set y.down cls k }
    | .relay c e =>
      let r := (s.engine c e).relay
      match (List.range 4).find? fun cls => 0 < (r.credit cls).owed && !s.withholds c cls with
      | none => s
      | some cls => s.backCredit c cls (r.credit cls) fun k s =>
          s.modEngine c e fun g => { g with relay := { g.relay with
            credits := Tab.set g.relay.credits cls k } }

end Sys2Proof.Machine
end

