-- ==== Sys2Proof/Machine/Cvu.lean ====
section
/-!
DEFINITION. The conventional unit (chapter 9): binary32 arithmetic, the operands of an output block,
the block's results, and the commands of the unit.
-/

namespace Sys2Proof.Machine

def cvuPage (c : Nat) : Page := .cvu (Fin.ofNat 4 c)

/-! ## binary32 (R285 to R288) -/

/-- A binary32 value: `fin m e` is `m · 2^e`. A zero's sign is of no effect here. -/
inductive F32 where
  | fin (m e : Int)
  | inf (neg : Bool)
  | nan
  deriving DecidableEq, Repr

def F32.zero : F32 := .fin 0 0

/-- Bits of a magnitude. -/
def bitCount (n : Nat) : Int := if n = 0 then 0 else n.log2 + 1

/-- A value rounded to `p` significant bits, to nearest with ties to even, at or above the exponent
`low`. -/
def roundSig (p : Nat) (low m e : Int) : Int × Int :=
  let cut := max (bitCount m.natAbs - p) (low - e)
  if cut ≤ 0 then (m, e) else (roundDiv m (2 ^ cut.toNat), e + cut)

/-- A value rounded to binary32. -/
def F32.round (m e : Int) : F32 :=
  let r := roundSig 24 (-149) m e
  if 128 < bitCount r.1.natAbs + r.2 then .inf (m < 0) else .fin r.1 r.2

def F32.add (a b : F32) : F32 :=
  match a, b with
  | .nan, _ | _, .nan => .nan
  | .inf x, .inf y => if x = y then .inf x else .nan
  | .inf x, .fin _ _ | .fin _ _, .inf x => .inf x
  | .fin m e, .fin n f =>
    let k := min e f
    F32.round (m * 2 ^ (e - k).toNat + n * 2 ^ (f - k).toNat) k

/-- A product, which binary32 holds exactly (R285). -/
def F32.mul (a b : F32) : F32 :=
  match a, b with
  | .nan, _ | _, .nan => .nan
  | .inf x, .inf y => .inf (x != y)
  | .inf x, .fin m _ | .fin m _, .inf x => if m = 0 then .nan else .inf (x != (m < 0 : Bool))
  | .fin m e, .fin n f => .fin (m * n) (e + f)

/-- A half-precision code. -/
def F32.ofF16 (v : Nat) : F32 :=
  let neg : Bool := bitsOf v 15 1 = 1
  let ex := bitsOf v 10 5
  let m := bitsOf v 0 10
  if ex = 31 then (if m = 0 then .inf neg else .nan)
  else if ex = 0 then .fin (signed neg m) (-24)
  else .fin (signed neg (m + 1024)) (ex - 25)

/-- An L8 code relative to its group's base, rounded to an 11-bit significand (R286). -/
def F32.ofL8 (f v : Nat) : F32 :=
  let neg : Bool := bitsOf v 7 1 = 1
  let c := bitsOf v 0 7
  if v % 256 = 0 then .zero
  else if v % 256 = 0x80 then .nan
  else if c = 0x7f then .inf neg
  else
    let r := roundSig 11 (-300) (pow2 ((c : Int) - 64) f) (-128)
    .fin (signed neg r.1) r.2

/-- An input element of the CVU (R286, R288). -/
def cvuInput (fmt fsel : Nat) (x : In) : F32 :=
  match x with
  | .masked _ => .zero
  | .absent => .zero
  | .code v =>
    if fmt = fmtL8 then F32.ofL8 (fsel + 2) v
    else if fmt = fmtF16 then F32.ofF16 v
    else if fmt = fmtI8 then .fin (signedOf v 8) 0
    else .fin (decodeInt fmt v) 0

/-- The logarithm of a sum, relative to the base (R292, step 1). -/
def F32.toLns : F32 → LVal
  | .nan => .indef
  | .inf neg => .inf neg
  | .fin m e =>
    if m = 0 then .zero else .fin (m < 0) (log2Round (m.natAbs * 2 ^ 128) 22 + e * 2 ^ 22)

/-! ## Weights (R289, R290) -/

def cvuI8 : Nat := 4
def cvuF16 : Nat := 5

/-- The bytes that hold weights `i` up to `j` of a weight array, from its base. -/
def cvuWeightBytes (wfmt i j : Nat) : Nat × Nat :=
  if wfmt = cvuI8 then (i, j) else if wfmt = cvuF16 then (2 * i, 2 * j) else weightBytes wfmt 0 i j

/-- Weight `i` from the bytes read, of which the first is byte `first` of the array. -/
def cvuWeight (wfmt first : Nat) (bs : List Byte) (i : Nat) : F32 :=
  let at' (a : Nat) : Nat := (bs.getD (a - first) 0).toNat
  let cell (w : Nat) : F32 :=
    if w % 2 = 0 then .zero else if bitsOf w 1 1 = 1 then .fin (-1) 0 else .fin 1 0
  if wfmt = cvuI8 then .fin (signedOf (at' i) 8) 0
  else if wfmt = cvuF16 then F32.ofF16 (at' (2 * i) + 256 * at' (2 * i + 1))
  else if wfmt = wtT2 then cell (tritCode (at' (i / 5)) (i % 5))
  else if wfmt = wtB1 then cell (if bitsOf (at' (i / 8)) (i % 8) 1 = 1 then 1 else 3)
  else
    let w := bitsOf (at' (i / 4)) (2 * (i % 4)) 2
    .fin (if bitsOf w 1 1 = 1 then -1 else 1) (if w % 2 = 1 then -1 else 0)

/-! ## Sums (R285, R287) -/

/-- A lane's terms, 32 at a time. -/
def chunks32 {α : Type} : (fuel : Nat) → List α → List (List α)
  | 0, _ => []
  | fuel + 1, xs => if xs.isEmpty then [] else xs.take 32 :: chunks32 fuel (xs.drop 32)

/-- One level of the tree. -/
def addF32Pairs : List F32 → List F32
  | a :: b :: rest => a.add b :: addF32Pairs rest
  | xs => xs

/-- The five-level tree over the 32 products of a lane-beat; missing products are zero. -/
def treeF32 (xs : List F32) : F32 :=
  ((List.range 5).foldl (fun ys _ => addF32Pairs ys)
    (xs ++ List.replicate (32 - xs.length) F32.zero)).headD .zero

/-- The sum in F16 mode. -/
def sumF16 (xs ws : List F32) : F32 :=
  let ps := List.zipWith F32.mul xs ws
  (chunks32 (ps.length / 32 + 1) ps).foldl (fun acc c => acc.add (treeF32 c)) .zero

def F32.int : F32 → Int
  | .fin m e => m * 2 ^ e.toNat
  | .inf _ | .nan => 0

/-- The sum in INT8 mode, which saturates beyond ±(2^31 − 1), and whether it did. -/
def sumInt8 (xs ws : List F32) : Int × Bool :=
  let v := (List.zipWith (fun x w => F32.int x * F32.int w) xs ws).sum
  let top : Int := 2 ^ 31 - 1
  (max (-top) (min top v), top < v.natAbs)

/-! ## One output block (R292) -/

/-- Output blocks of 64 channels. -/
def cvuBlocks (k : EngCmd) : Nat := ceilDiv (bCout k.descs) 64

/-- Input indices K (R290). -/
def cvuDepth (k : EngCmd) : Nat := (windowOf k.descs).gc * (windowOf k.descs).ntaps

/-- All output blocks of a command: position tiles in the order of R262, and in each the channel blocks
in ascending order. -/
def cvuTotal (k : EngCmd) : Nat := (windowOf k.descs).tiles * cvuBlocks k

/-- The accesses of the CVU. -/
def cvuAccess (c : Ch) (k : EngCmd) : MemAccess :=
  { req := .cvu c, ctx := k.ctx, va := 0, write := false
    info := { ring := some k.ring, cmdid := some (hdCmdid k.descs), num := some k.num
              stream := some (hdStream k.descs) } }

/-- What lies under input index j at a position. -/
def cvuSources (w : Window) (xy : Nat × Nat) : List (Option Src) :=
  (List.range w.ntaps).flatMap fun tap => (List.range w.gc).map fun ch => some (w.source xy.1 xy.2 tap ch)

/-- The positions of a block with what lies under their input indices. -/
def cvuRows (k : EngCmd) (t : Nat) : List (Nat × List (Option Src)) :=
  let w := windowOf k.descs
  (List.range 64).filterMap fun q => (w.posOf t q).map fun xy => (q, cvuSources w xy)

/-- The weights of a block in their array: the index of the first, the index behind the last, and their bytes. -/
def cvuWeightRange (k : EngCmd) (ob : Nat) : Nat × Nat × Nat × Nat :=
  let first := 64 * ob * cvuDepth k
  let last := min (64 * (ob + 1)) (bCout k.descs) * cvuDepth k
  let wb := cvuWeightBytes (hdWfmt k.descs) first last
  (first, last, wb.1, wb.2)

/-- The reads of a block, from where they have come (R301): the inputs with their segment headers, the weights, and
the row parameters. The answer is the state, the command with what has been moved, and whether all has. -/
def State.cvuRead (s : State) (c : Ch) (r : CvuRun) (ext : List Byte) : State × CvuRun × Bool :=
  let k := r.cmd
  let ob := r.block % cvuBlocks k
  let w := windowOf k.descs
  let a := cvuAccess c k
  let blocks := (((cvuRows k (r.block / cvuBlocks k)).flatMap (·.2)).filterMap (blockOf w)).dedup
  let g := blocks.foldl (fun g bp => g.block a w k.uid 0 bp)
    ({ s := s, got := r.got, heads := r.heads, ext := ext } : Reading)
  let r1 := { r with got := g.got, heads := g.heads }
  if !g.ok then (g.s, r1, false)
  else
    let wb := (cvuWeightRange k ob).2.2
    match g.s.readOn { a with va := bWsrc k.descs + wb.1 } hbmWeight (wb.2 - wb.1) r.weights g.ext with
    | (s1, o) =>
      let r2 := { r1 with weights := o.moved, wload := !o.done }
      if !o.done then (s1, r2, false)
      else if oPaddr k.descs = 0 then (s1, r2, true)
      else
        match s1.readOn { a with va := oPaddr k.descs + 1024 * ob } hbmData 1024 r.params o.ext with
        | (s2, p) => (s2, { r2 with params := p.moved }, p.done)

/-- A poisoned word was met in the reads of a block. -/
def CvuRun.poisoned (r : CvuRun) : Bool := r.got.any (·.poisoned) || r.weights.poisoned || r.params.poisoned

/-- A command at a block of which nothing has been read. -/
def CvuRun.anew (r : CvuRun) (block : Nat) : CvuRun := { cmd := r.cmd, block := block, counts := r.counts }

/-- What a save takes: weights are read again after a restore (R302). -/
def CvuRun.saved (r : CvuRun) : CvuRun := { r with weights := {}, wload := false }

/-- What a block works on: inputs by patch index, the weights of its channels, and its row parameters. -/
structure CvuOperands where
  inputs : Tab (List F32)
  weights : List (List F32)
  records : List Nat

/-- The operands of a block whose reads are done. -/
def CvuRun.operands (r : CvuRun) : CvuOperands :=
  let k := r.cmd
  let w := windowOf k.descs
  let ob := r.block % cvuBlocks k
  let depth := cvuDepth k
  { inputs := (cvuRows k (r.block / cvuBlocks k)).map fun (p : Nat × List (Option Src)) =>
      (p.1, p.2.map fun x => cvuInput w.fmt k.group.fsel (inputOf w r.heads r.got k.uid 0 x))
    weights := (List.range (min 64 (bCout k.descs - 64 * ob))).map fun i =>
      (List.range depth).map fun j =>
        cvuWeight (hdWfmt k.descs) (cvuWeightRange k ob).2.2.1 r.weights.bytes ((64 * ob + i) * depth + j)
    records := (List.range 64).map fun i => leNat ((r.params.bytes.drop (16 * i)).take 16) }

/-- INT8 mode (R285). -/
def cvuInt8 (k : EngCmd) : Bool := hdAfmt k.descs = fmtI8 && hdWfmt k.descs = cvuI8

/-- An element after step 1 of the epilogue, and whether its sum saturated. -/
def cvuElement (k : EngCmd) (xs ws : List F32) : LVal × Bool :=
  let at' (v : LVal) : LVal := offsetLog v (signedOf k.group.base 16)
  if cvuInt8 k then
    let r := sumInt8 xs ws
    (at' (intToLns r.1), r.2)
  else (at' (sumF16 xs ws).toLns, false)

/-- So many elements more count in SAT_OUT. -/
def NarrowCounts.saturated (n : NarrowCounts) (k : Nat) : NarrowCounts := { n with sat := min (n.sat + k) 0xffff }

/-- A drain's counts as a command's, and back. -/
def NarrowCounts.toDrain (n : NarrowCounts) (k : EngCmd) : Drain :=
  { slot := 0, cmd := k, inf := n.inf, indef := n.indef, sat := n.sat, under := n.under, nzblk := n.nzblk }
def Drain.counts (d : Drain) : NarrowCounts :=
  { inf := d.inf, indef := d.indef, sat := d.sat, under := d.under, nzblk := d.nzblk }

/-- The codes of an output block: its two halves of 32 channels pass the epilogue as blocks of a row
tile do. An element whose sum saturated counts once (R243, R285). -/
def cvuCodes (c : Nat) (k : EngCmd) (t ob n : Nat) (o : CvuOperands) (counts : NarrowCounts) : Epi × Codes :=
  let base := 64 * (ob % 4)
  let recs := List.replicate base 0 ++ o.records
  let geo : EngCmd := { k with rt := ob / 4, pt := t }
  let sums := o.inputs.map fun (p : Nat × List F32) => (p.1, o.weights.map (cvuElement k p.2))
  let sat := (sums.map fun p => (p.2.filter (·.2)).length).sum
  let half (acc : Epi × Codes) (h : Nat) : Epi × Codes :=
    let es := sums.map fun p => (p.1, (p.2.drop (32 * h)).take 32)
    let full := ((es.flatMap (·.2)).zipIdx.filter (·.1.2)).map fun x => acc.1.n + x.2
    let r := epilogueBlock k geo recs { acc.1 with sums := full } (2 * (ob % 4) + h)
      (es.map fun p => (p.1, p.2.map (·.1)))
    (r.1, acc.2 ++ r.2)
  [0, 1].foldl half ({ ch := c, n := n, d := (counts.saturated sat).toDrain k }, [])

/-- The writes of an output block with the element blocks that hold something. -/
def cvuPieces (o : Owner) (k : EngCmd) (t ob : Nat) (cs : Codes) : List Piece × Nat :=
  let geo : EngCmd := { k with rt := ob / 4, pt := t }
  if bOcomp k.descs then segmentPieces o k geo cs
  else (densePieces o k geo cs, (elementBlocks (blockLanes (bOlayout k.descs)) cs).length)

/-! ## The unit's commands -/

/-- A unit beside the engines runs: its clock, its sequencers and its block (R571, R580). -/
def State.unitRuns (s : State) (c : Nat) (p : Page) : Bool :=
  s.arithOn c && !s.sequencersStopped c && 2 ≤ s.blk p

def State.modCvu (s : State) (c : Nat) (f : Cvu → Cvu) : State :=
  s.modChan c fun x => { x with cvu := f x.cvu }

/-- The running command ends with a status. -/
def State.cvuEnd (s : State) (c : Nat) (k : EngCmd) (status : Nat) : State :=
  ((s.modCvu c fun u => { u with run := none }).ecDone c k status).wr (cvuPage c) Reg.cvuStat_BUSY 0

/-- CVU_COMMAND_START (R294): the first command of the queue whose turn it is. -/
def execCvuCommandStart (c : Ch) (s : State) : Result :=
  live s <|
    let u := (s.chan c).cvu
    match u.run, u.queue with
    | none, r :: rest =>
      let k := r.cmd
      if s.unitRuns c (.cvu c) && s.ctxRuns k.ctx then
        ((s.modCvu c fun u => { u with queue := rest, run := some r }).wr (.cvu c)
          Reg.cvuStat_BUSY 1).wr (.cvu c) Reg.cvuStat_CTX ((s.slotOfCtx k.ctx).getD 0)
      else s
    | _, _ => s

/-- The CVU's strike log takes a strike; the third live one ends the channel (R589). In a replay it takes none
(R638). -/
def State.cvuStrike (s : State) (c : Nat) : State :=
  if s.replayOn c then s.upset (0x7f, 0) id
  else
  let s1 := s.modCvu c fun u => { u with strikes := (u.strikes ++ [u.blocks]).drop (u.strikes.length - 2) }
  let u := (s1.chan c).cvu
  if 3 ≤ (u.strikes.filter fun t => u.blocks < t + 4096).length then
    s1.modChan c fun x => { x with failing := some 3 }
  else s1

/-- The check of a block has failed: the block is run again (R303, R589). -/
def State.cvuMismatch (s : State) (c : Ch) (r : CvuRun) : State :=
  (((s.modCvu c fun u => { u with run := some (r.anew r.block) }).bump (.cvu c) Reg.cvuCnt_CHK_MISMATCH).raise
    (.cvu c) 1 |>.logOut c 0x01 0x7f).cvuStrike c

/-- A block whose reads are done is computed and checked: its beats of MAC issue count, the 65th lane goes on to
the next lane, and its writes are formed (R292, R297, R303). -/
def State.cvuForm (s : State) (c : Ch) (r : CvuRun) (mismatch : Bool) : State :=
  let k := r.cmd
  let t := r.block / cvuBlocks k
  let ob := r.block % cvuBlocks k
  let o := r.operands
  let beats := o.inputs.length * ceilDiv (cvuDepth k) 32
  let s1 := ((s.active k.ctx).wrap (.cvu c) Reg.cvuBusy_CYCLES beats).modCvu c fun u =>
    { u with lane := (u.lane + 1) % 64, blocks := u.blocks + bit !mismatch }
  if mismatch then s1.cvuMismatch c r
  else
    let (e, cs) := cvuCodes c k t ob (s1.chan c).narrowed o r.counts
    let owner : Owner := { slot := 0x7f, epoch := 0, ctx := k.ctx, info := (cvuAccess c k).info }
    let (ps, nz) := cvuPieces owner k t ob cs
    let r1 : CvuRun :=
      { r.anew r.block with counts := { e.d.counts with nzblk := r.counts.nzblk + nz }, formed := true, out := ps }
    (s1.modChan c fun x => { x with narrowed := e.n }).modCvu c fun u => { u with run := some r1 }

/-- The writes of a formed block leave; with the last of them the command goes on to its next block. -/
def State.cvuWrite (s : State) (c : Ch) : State :=
  match (s.chan c).cvu.run with
  | some r =>
    if !r.formed then s
    else
      let w := s.writeOut (cvuAccess c r.cmd) (r.out.length + 1) r.out
      w.1.modCvu c fun u =>
        { u with run := some (if w.2.isEmpty then r.anew (r.block + 1) else { r with out := w.2 }) }
  | none => s

/-- CVU_BLOCK_COMPLETE (R292, R301, R303): one output block is read, computed, checked and written, from where an
access that had to wait left it. -/
def execCvuBlockComplete (c : Ch) (mismatch : Bool) (ext : List Byte) (s : State) : Result :=
  live s <|
    match (s.chan c).cvu.run with
    | none => s
    | some r =>
      let k := r.cmd
      if !s.unitRuns c (.cvu c) || !s.ctxRuns k.ctx || cvuTotal k ≤ r.block then s
      else if r.formed then s.cvuWrite c
      else if !s.mayRecord c then s.recordStall
      else
        match s.cvuRead c r ext with
        | (s1, r1, false) => s1.modCvu c fun u => { u with run := u.run.map fun _ => r1 }
        | (s1, r1, true) =>
          if r1.poisoned then (s1.cvuEnd c k stTileLost).metPoison c consumerCvu 0
          else (s1.cvuForm c r1 mismatch).cvuWrite c

/-- The sideband record of a command that runs outside the engines' tiles (R293, R320): SLOT 0x7F,
EPOCH, TILE and every flag 0. -/
def unitSideband (c : Nat) (k : EngCmd) (n : NarrowCounts) : Nat :=
  n.inf + n.indef * 2 ^ 16 + n.sat * 2 ^ 32 + n.under * 2 ^ 48 + k.ctx * 2 ^ 72 + c * 2 ^ 96
    + 0x7f * 2 ^ 98 + n.nzblk % 2 ^ 16 * 2 ^ 112

/-- CVU_COMMAND_COMPLETE (R293, R294): the last write and the sideband record have been accepted. -/
def execCvuCommandComplete (c : Ch) (s : State) : Result :=
  live s <|
    match (s.chan c).cvu.run with
    | none => s
    | some r =>
      let k := r.cmd
      if !s.unitRuns c (.cvu c) || !s.ctxRuns k.ctx || r.block < cvuTotal k then s
      else
        let w := if bSbaddr k.descs = 0 then (s, true)
          else
            let x := s.writeVa { cvuAccess c k with va := bSbaddr k.descs, write := true } hbmData
              (leBytes 16 (unitSideband c k r.counts))
            (x.1, x.2.2)
        if w.2 then (w.1.cvuEnd c k stOk).bump (.cvu c) Reg.cvuCnt_CMDS else w.1

end Sys2Proof.Machine
end

