-- ==== Sys2Proof/Machine/Pages.lean ====
section
/-!
DEFINITION. Streams and their state pages (chapter 10): the table and its window operations, the pages
and frames of a channel, copies on write, the paddock, and the release of closing streams.
-/

namespace Sys2Proof.Machine

/-! ## The table (R304) -/

def strmFree : Nat := 0
def strmOpen : Nat := 1
def strmClosing : Nat := 2
def strmForking : Nat := 3
def strmLost : Nat := 4

def State.stream (s : State) (n : Nat) : StreamRec := Tab.get {} s.streams n
def State.modStream (s : State) (n : Nat) (f : StreamRec → StreamRec) : State :=
  { s with streams := Tab.set s.streams n (f (s.stream n)) }

/-- The 32 bytes of an entry, as a number. -/
def StreamRec.encode (x : StreamRec) : Nat :=
  x.state + x.home % 4 * 2 ^ 3 + bit x.forked * 2 ^ 5 + x.ctx % 256 * 2 ^ 8 + x.parent % 1024 * 2 ^ 16
    + x.pages % 2 ^ 15 * 2 ^ 32 + x.stateVa % 2 ^ 48 * 2 ^ 64 + x.initVa % 2 ^ 48 * 2 ^ 128
    + x.steps % 2 ^ 48 * 2 ^ 192

/-! ## Windows (R305, R306, R450, R478) -/

/-- An operation may start (R306, R451): the master holds the page's first lock, and none runs. The
three windows have one layout. -/
def State.windowFree (s : State) (m : Master) (p : Page) : Bool :=
  s.writable m p 0x104 && s.holdsLock m p 0 && !s.flag p Reg.strmWinCmd_BUSY

/-- An operation starts: the farrier runs it at once, or when it has restarted (R553). -/
def State.windowStart (s : State) (m : Master) (p : Page) (job : FarrierJob) (run : State → State) :
    State :=
  if !s.windowFree m p then s
  else
    let s1 := s.wr p Reg.strmWinCmd_BUSY 1
    if s.dev.farrierUp then run s1 else s1.modDev fun d => { d with jobs := d.jobs ++ [job] }

/-- Bit of OP_DONE in INT_RAW of a window's page (R655). -/
def opDoneBit (p : Page) : Nat := match p with | .ctx => 3 | _ => 0

/-- An operation ends with a status. -/
def State.windowDone (s : State) (p : Page) (status : Nat) : State :=
  ((s.wr p Reg.strmWinCmd_STATUS status).wr p Reg.strmWinCmd_BUSY 0).raise p (opDoneBit p)

/-- The eight data words of a window as one number. -/
def State.windowData (s : State) (p : Page) : Nat :=
  ((List.range 8).map fun i => s.rd p (Reg.strmWinData_DATA i) * 2 ^ (32 * i)).sum

/-- The data words take a number. -/
def State.setWindowData (s : State) (p : Page) (v : Nat) : State :=
  (List.range 8).foldl (fun s i => s.wr p (Reg.strmWinData_DATA i) (bitsOf v (32 * i) 32)) s

/-! ## Pages and frames (R326 to R334) -/

/-- A page that the table does not list: private, AWAY and owned by its stream. -/
def StatePage.fresh (n i : Nat) : StatePage := { index := i, owner := n, sharers := [n] }

def StatePage.isFresh (p : StatePage) : Bool :=
  p.sharers = [p.owner] && p.state = .away && p.pins.isEmpty && p.copying = none && p.handing = none

/-- The page `i` of stream `n`. -/
def Channel.page (x : Channel) (n i : Nat) : StatePage :=
  (x.pages.find? fun p => p.index = i && p.sharers.contains n).getD (StatePage.fresh n i)

/-- A page takes the place of an older version of it. -/
def Channel.putPage (x : Channel) (old new : StatePage) : Channel :=
  let rest := x.pages.filter (· ≠ old)
  { x with pages := if new.isFresh then rest else rest ++ [new] }

def State.modPage (s : State) (c n i : Nat) (f : StatePage → StatePage) : State :=
  s.modChan c fun x => x.putPage (x.page n i) (f (x.page n i))

/-- Frames in the state pool (R330). -/
def State.frames (s : State) (c : Nat) : Nat :=
  max 32 (min 8192 (s.rd (.grm (Fin.ofNat 4 c)) Reg.grmStateCfg_FRAMES))

/-- Address of a frame in the activation store (R353, R355). -/
def State.frameAddr (s : State) (c f : Nat) : Nat :=
  (s.rd (.ast (Fin.ofNat 4 c)) Reg.astMap_POOL_BASE + f) * 4096

/-- Frames in use. -/
def Channel.usedFrames (x : Channel) : List Nat :=
  (x.pages.filter fun p => p.state ≠ .away).map (·.frame) ++ x.copyFrames.map (·.frame)

def State.freeFrames (s : State) (c : Nat) : List Nat :=
  (List.range (s.frames c)).filter fun f => !(s.chan c).usedFrames.contains f

/-- The page is in a frame, and not on its way out. -/
def StatePage.held (p : StatePage) : Bool := p.state = .resident || p.state = .recalled

/-- The page is ready for a stream (R333). -/
def StatePage.readyFor (p : StatePage) (n : Nat) : Bool := p.held && p.sharers = [n]

/-! ## What a SCAN engine command needs (R332) -/

/-- Fields of the SCAN body (R395). -/
def nSoff (d : List Nat) : Nat := hd d 128 20 * 64
def nNpos (d : List Nat) : Nat := hd d 148 16
def nSc (d : List Nat) : Nat := hd d 164 13
def nLayout (d : List Nat) : Nat := hd d 177 1
def nCsel (d : List Nat) : Nat := hd d 178 2
def nL (d : List Nat) : Nat := hd d 180 7
def nIcomp (d : List Nat) : Bool := hd d 187 1 = 1
def nStepend (d : List Nat) : Bool := hd d 188 1 = 1
def nOcomp (d : List Nat) : Bool := hd d 189 1 = 1
def nOdest (d : List Nat) : Nat := hd d 190 2
def nAaddr (d : List Nat) : Nat := hd d 192 48
def nBaddr (d : List Nat) : Nat := hd d 240 48
def nXstride (d : List Nat) : Nat := hd d 288 26 * 64
def nAgroup (d : List Nat) : Nat := hd d 314 8
def nSgroup (d : List Nat) : Nat := hd d 322 8
def nOgroup (d : List Nat) : Nat := hd d 330 8
def nOfmt (d : List Nat) : Nat := hd d 338 4
def nRmask (d : List Nat) : Nat := hd d 342 64
def nOaddr (d : List Nat) : Nat := hd d 406 48
def nSbaddr (d : List Nat) : Nat := hd d 454 48

/-- Channel blocks and positions of a SCAN engine command (R315). -/
def scanBlocks (k : EngCmd) : List Nat :=
  let n := blockLanes (nLayout k.descs)
  ((List.range (256 / n)).map fun b => k.rt * (256 / n) + b).filter fun b => b * n < nSc k.descs
def scanPositions (k : EngCmd) : List Nat :=
  ((List.range 64).map fun q => 64 * k.pt + q).filter (· < nNpos k.descs)

/-- Offset of an element block of the state tensor in the stream's region. -/
def stateOffset (d : List Nat) (b p : Nat) : Nat :=
  nSoff d + denseOffset fmtL8 (nLayout d) (nNpos d) b p

/-- The pages that a SCAN engine command needs. -/
def neededPages (k : EngCmd) : List Nat :=
  ((scanBlocks k).flatMap fun b => (scanPositions k).map fun p => stateOffset k.descs b p / 4096).dedup

def scanStream (k : EngCmd) : Nat := hdStream k.descs

/-- Its pages are ready (R333). -/
def Channel.pagesReady (x : Channel) (k : EngCmd) : Bool :=
  (neededPages k).all fun i => (x.page (scanStream k) i).readyFor (scanStream k)

/-! ## Victims (R334) -/

/-- A page that may give up its frame to a command: neither pinned nor being copied (R334), and not one that the
command itself needs. DESIGN CHOICE: R334 does not except the command's own pages, whose loss would leave it
without a frame more. -/
def StatePage.mayLeave (p : StatePage) (k : EngCmd) : Bool :=
  p.state = .resident && p.pins.isEmpty && p.copying = none
    && !(p.sharers.contains (scanStream k) && (neededPages k).contains p.index)

/-- The page that gives up its frame to a command: the least recently used of those that may; one whose swap-out
was aborted only where no other is left (R340). -/
def Channel.pageVictim (x : Channel) (k : EngCmd) : Option StatePage :=
  let free := x.pages.filter fun p => p.mayLeave k
  let good := free.filter fun p => !p.stuck
  (if good.isEmpty then free else good).foldl (fun (best : Option StatePage) p =>
    match best with
    | some b => if p.used < b.used then some p else some b
    | none => some p) none

/-- A victim gives up its frame: at once where it is CLEAN, after a swap-out where it is DIRTY. -/
def State.evict (s : State) (c : Nat) (p : StatePage) : State :=
  (s.modChan c fun x => x.putPage p { p with state := if p.dirty then .out else .away, frame := if p.dirty then p.frame else 0 }).logDec
    c 0x06 (p.owner + p.index * 2 ^ 16)

/-- Victims are chosen until `n` frames are free or on their way to be. -/
def State.makeFrames (c n : Nat) (k : EngCmd) : (fuel : Nat) → State → State
  | 0, s => s
  | fuel + 1, s =>
    let leaving := ((s.chan c).pages.filter fun p => p.state = .out).length
    if n ≤ (s.freeFrames c).length + leaving then s
    else
      let x := s.chan c
      let named (v : Nat) : Option StatePage := x.pages.find? fun p =>
        p.owner + p.index * 2 ^ 16 = v && p.mayLeave k
      match if s.replayOn c then (s.forced c 0x06).bind named else x.pageVictim k with
      | some p => State.makeFrames c n k fuel (s.evict c p)
      | none => s

/-! ## Transfers (R327, R333, R339) -/

/-- Frames that a stream still needs for a page: one for data that is AWAY, and one for its own copy of
a shared page. -/
def Channel.framesFor (x : Channel) (n i : Nat) : Nat :=
  let p := x.page n i
  let copy : Bool := 1 < p.sharers.length && !(x.copyFrames.any fun f => f.stream = n && f.index = i)
  bit (p.state = .away) + bit copy

/-- The transfers that a stream's page needs start, with the frames given. -/
def State.startPage (s : State) (c n : Nat) (acc : List Nat) (i : Nat) : State × List Nat :=
  let x := s.chan c
  let p := x.page n i
  let away : Bool := p.state = .away
  let f1 := acc.headD 0
  let rest := if away then acc.drop 1 else acc
  let s1 :=
    if away then s.modChan c fun x => x.putPage p { p with state := .incoming, frame := f1, dirty := false } else s
  if 1 < p.sharers.length && !(x.copyFrames.any fun f => f.stream = n && f.index = i) then
    (s1.modChan c fun x => { x with copyFrames := x.copyFrames ++ [⟨n, i, rest.headD 0⟩] }, rest.drop 1)
  else (s1, rest)

/-- A page that a command needs keeps its frame after the swap-out under way (R339). -/
def State.recall (s : State) (c : Nat) (k : EngCmd) : State :=
  (neededPages k).foldl (fun s i =>
    let p := (s.chan c).page (scanStream k) i
    if p.state = .out then s.modChan c fun x => x.putPage p { p with state := .recalled } else s) s

/-- Every frame that one engine command needs is allocated in one action, or none (R333); whether it
has them. -/
def State.serve (s : State) (c : Nat) (k : EngCmd) : State × Bool :=
  let n := scanStream k
  let pages := neededPages k
  let need := (pages.map fun i => (s.chan c).framesFor n i).sum
  let s1 := s.makeFrames c need k (need + 1)
  let free := s1.freeFrames c
  if free.length < need then (s1, false)
  else ((pages.foldl (fun (acc : State × List Nat) i => acc.1.startPage c n acc.2 i) (s1, free)).1, true)

/-- Paddock entries, in the order in which they entered. -/
def Channel.paddocked (x : Channel) : List (Nat × Paddocked) :=
  x.paddockOrder.filterMap fun e => x.paddock.find? fun p => p.1 = e

/-- SCAN engine commands that wait in queues, in split order. -/
def Channel.queuedScans (x : Channel) : List EngCmd :=
  ((x.engines.flatMap fun (g : Nat × Engine) => g.2.queue.filter fun k => k.op = opScan)).mergeSort
    fun a b => a.uid ≤ b.uid

/-- Commands whose transfers run: those of the paddock and of the heads of queues, and with PREFETCH
every one that is split (R330). -/
def State.wanting (s : State) (c : Nat) : List EngCmd :=
  let x := s.chan c
  let pre := s.flag (.grm (Fin.ofNat 4 c)) Reg.grmStateCfg_PREFETCH
  let head (k : EngCmd) : Bool := x.engines.any fun (g : Nat × Engine) => g.2.queue.head? = some k
  x.paddocked.map (·.2.cmd) ++ x.queuedScans.filter fun k => pre || head k

/-- Frames are given out in order; no later command takes one while an earlier one waits. -/
def State.serveAll (c : Nat) : List EngCmd → State → State
  | [], s => s
  | k :: ks, s =>
    if (s.chan c).pagesReady k then State.serveAll c ks s
    else
      match s.serve c k with
      | (s1, true) => State.serveAll c ks s1
      | (s1, false) => s1

/-- Copies on write start: a held frame is copied for one sharer at a time, in the order in which their
frames were allocated (R327, R328). -/
def State.startCopies (s : State) (c : Nat) : State :=
  (s.chan c).copyFrames.foldl (fun s f =>
    let p := (s.chan c).page f.stream f.index
    if p.held && p.copying = none && 1 < p.sharers.length then
      s.modChan c fun x => x.putPage p { p with copying := some f.stream }
    else s) s

/-! ## Pins, the paddock and the re-entry position (R334 to R338) -/

/-- The command's pages are pinned for it. -/
def Channel.pinned (x : Channel) (k : EngCmd) : Bool :=
  (neededPages k).all fun i => (x.page (scanStream k) i).pins.contains k.uid

/-- The pages of a ready command are pinned; this is their use. -/
def State.pin (s : State) (c : Nat) (k : EngCmd) : State :=
  if (s.chan c).pinned k then s else
  (neededPages k).foldl (fun s i => (s.modChan c fun x => { x with pageUses := x.pageUses + 1 }).modPage c
    (scanStream k) i fun p => if p.pins.contains k.uid then p else
      { p with pins := p.pins ++ [k.uid], used := (s.chan c).pageUses + 1 }) s

def State.unpin (s : State) (c : Nat) (k : EngCmd) : State :=
  s.modChan c fun x =>
    let ps := x.pages.map fun p => { p with pins := p.pins.filter (· ≠ k.uid) }
    { x with pages := ps.filter fun p => !p.isFresh }

/-- A ready paddock entry takes the re-entry position of its engine when that is free (R338). -/
def State.releaseEntry (s : State) (c : Nat) (e : Nat × Paddocked) : State :=
  let x := s.chan c
  let k := e.2.cmd
  let earlier := (x.paddocked.takeWhile fun p => p.1 ≠ e.1).any fun p => scanStream p.2.cmd = scanStream k
  if earlier || !x.pagesReady k || !s.ctxRuns k.ctx || s.early c 0x07 e.1 then s
  else
    let s1 := s.pin c k
    if (s1.engine c e.2.slot).reentry.isSome then s1
    else
      ((((s1.modEngine c e.2.slot fun g => { g with reentry := some k }).modChan c fun x => { x with
        paddock := Tab.erase x.paddock e.1
        paddockOrder := x.paddockOrder.filter (· ≠ e.1) }).logDec c 0x07 e.1))

/-- The ready entries of the paddock are pinned, and leave it where they can (R338). -/
def State.releaseEntries (s : State) (c : Nat) : State :=
  (s.chan c).paddocked.foldl (fun s e => s.releaseEntry c e) s

/-- What the state map does after every change: ready entries are pinned before a frame is taken from anyone (R334),
pages on their way out are recalled, and frames are given out; copies start, and what has become ready leaves. -/
def State.stateMap (s : State) (c : Nat) : State :=
  let s1 := s.releaseEntries c
  let wanting := s1.wanting c
  let s2 := wanting.foldl (fun s k => s.recall c k) s1
  ((State.serveAll c wanting s2).startCopies c).releaseEntries c

/-- A SCAN engine command waits at the head of a queue for a paddock entry (R336, R337). -/
def Channel.headWaits (x : Channel) (k : EngCmd) : Bool :=
  k.op = opScan && !x.pinned k && 64 ≤ x.paddock.length
    && ((x.paddocked.any fun p => scanStream p.2.cmd = scanStream k) || !x.pagesReady k)

/-- One of the channel's queue heads waits so: FULLWAIT (R344). -/
def Channel.fullWait (x : Channel) : Bool :=
  x.engines.any fun (g : Nat × Engine) => g.2.queue.head?.any fun k => x.headWaits k

/-! ## Release (R308, R329) -/

/-- A command names a stream (R309). -/
def HostCmd.names (h : HostCmd) (n : Nat) : Bool :=
  (hdOp h.descs = opScan && hdStream h.descs = n)
    || (hdOp h.descs = opFork && (hdStream h.descs = n || h.children.any fun r => r % 1024 = n))

/-- The command's split has begun, and it has not completed. -/
def HostCmd.underWay (h : HostCmd) : Bool :=
  match h.stage with
  | .reading _ | .splitting | .running => true
  | .queued => false

/-- A page leaves a closing stream. Where an earlier owner's backing still holds the data, that is the backing that
is copied. -/
def State.releasePage (s : State) (c n : Nat) (p : StatePage) : State :=
  let rest := p.sharers.filter (· ≠ n)
  s.modChan c fun x =>
    match rest with
    | [] => { x with pages := x.pages.filter (· ≠ p) }
    | m :: _ =>
      if p.owner = n then
        if p.state = .away then x.putPage p { p with owner := m, sharers := rest, handing := some (p.handing.getD n) }
        else x.putPage p { p with owner := m, sharers := rest, dirty := true }
      else x.putPage p { p with sharers := rest }

/-- A closing stream is released once its last command has completed and none of its pages is on the
move; its entry is FREE when every backing that it owed has been copied. -/
def State.tryRelease (s : State) (n : Nat) : State :=
  let r := s.stream n
  let c := r.home
  let x := s.chan c
  let mine := x.pages.filter fun p => p.sharers.contains n
  let moving : Bool := mine.any fun p =>
    p.state = .incoming || p.state = .out || p.state = .recalled || p.copying.isSome
  if r.state ≠ strmClosing || (x.cmds.any fun h => h.names n && h.underWay) || moving then s
  else
    let s1 := (mine.foldl (fun s p => s.releasePage c n p) s).modChan c fun x =>
      { x with copyFrames := x.copyFrames.filter fun f => f.stream ≠ n }
    if (s1.chan c).pages.any fun p => p.handing = some n then s1.stateMap c
    else (s1.modStream n fun r => { r with state := strmFree, discard := false }).stateMap c

/-- Every closing stream that can be is released: the second pass frees those whose last page left in the first. -/
def State.releaseClosing (s : State) : State :=
  let pass (s : State) : State := s.streams.foldl (fun s r => s.tryRelease r.1) s
  pass (pass s)

/-! ## The window operations (R307) -/

def strmOk : Nat := 0
def strmEntryBusy : Nat := 1
def strmBadArg : Nat := 2
def strmChannelDown : Nat := 3
def strmBusyStatus : Nat := 4
def strmShared : Nat := 5
def strmNotOpen : Nat := 6

/-- READ. -/
def State.streamRead (s : State) (n : Nat) : State :=
  (s.setWindowData .strm (s.stream n).encode).windowDone .strm strmOk

/-- The entry that the data words describe, with its reserved bits. -/
def parseStream (v : Nat) : StreamRec × Bool :=
  ({ state := strmOpen, home := bitsOf v 3 2, ctx := bitsOf v 8 8, pages := bitsOf v 32 15
     stateVa := bitsOf v 64 48, initVa := bitsOf v 128 48 },
   bitsOf v 6 2 + bitsOf v 26 6 + bitsOf v 47 17 + bitsOf v 112 16 + bitsOf v 176 16 + bitsOf v 240 16 ≠ 0)

/-- OPEN. -/
def State.streamOpen (s : State) (n : Nat) : State :=
  let (r, reserved) := parseStream (s.windowData .strm)
  if (s.stream n).state ≠ strmFree then s.windowDone .strm strmEntryBusy
  else if s.chState r.home = chRetired then s.windowDone .strm strmChannelDown
  else if r.pages = 0 ∨ 16384 < r.pages ∨ r.stateVa % 4096 ≠ 0 ∨ r.initVa % 64 ≠ 0 ∨ reserved then
    s.windowDone .strm strmBadArg
  else (s.modStream n fun _ => r).windowDone .strm strmOk

/-- Every engine command of a host command has completed. -/
def HostCmd.allDone (h : HostCmd) : Bool := h.next = h.total && h.ecs.all fun r => r.status.isSome

/-- The command is the last of its host command that has not completed. -/
def Channel.lastOf (x : Channel) (k : EngCmd) : Bool :=
  (x.cmd? k.num).elim false fun h =>
    h.next = h.total && h.ecs.all fun r => r.idx = k.idx || r.status.isSome

/-- Counts of the command's earlier engine commands. -/
def State.scanBefore (s : State) (c : Nat) (k : EngCmd) : NarrowCounts := Tab.get {} (s.chan c).scanCounts k.num

/-- Who writes for a SCAN engine command. -/
def State.scanOwner (s : State) (c e : Nat) (k : EngCmd) : Owner :=
  { slot := e, epoch := s.epoch c e, ctx := k.ctx, scan := true
    info := { ring := some k.ring, cmdid := some (hdCmdid k.descs), num := some k.num
              stream := some (scanStream k) } }

/-- The sideband record of a SCAN (R320); none where SBADDR is 0. -/
def State.scanSideband (s : State) (c e : Nat) (k : EngCmd) (counts : NarrowCounts) : List Piece :=
  if nSbaddr k.descs = 0 then []
  else pieces (s.scanOwner c e k) (nSbaddr k.descs) false (leBytes 16 (unitSideband c k counts))

/-- STEPS of the stream, as the last engine command of a SCAN completes (R320). -/
def State.scanSteps (s : State) (c : Nat) (k : EngCmd) : State :=
  if (s.chan c).lastOf k && nStepend k.descs then
    s.modStream (scanStream k) fun r => { r with steps := (r.steps + nL k.descs) % 2 ^ 48 }
  else s

/-- A SCAN engine command completes STREAM_CLOSED without running (R307). Where it is the last of its SCAN, the
sideband record leaves over the engine's output. -/
def State.scanClosed (s : State) (c e : Nat) (k : EngCmd) : State :=
  let s1 := if (s.chan c).lastOf k then
      s.modEngine c e fun g => { g with output := g.output ++ s.scanSideband c e k (s.scanBefore c k) }
    else s
  ((s1.scanSteps c k).unpin c k).ecDone c k stStreamClosed

/-- The stream's SCAN engine commands that are paddocked, or queued and not yet started, complete
STREAM_CLOSED (R307). -/
def State.discardScans (s : State) (n : Nat) : State :=
  let c := (s.stream n).home
  let own (k : EngCmd) : Bool := k.op = opScan && scanStream k = n
  let x := s.chan c
  let pads := x.paddocked.filter fun p => own p.2.cmd
  let queued : List (Nat × EngCmd) := x.engines.flatMap fun (g : Nat × Engine) =>
    ((g.2.queue ++ g.2.reentry.toList).filter own).map fun k => (g.1, k)
  let s1 := s.modChan c fun x => { x with
    paddock := x.paddock.filter fun p => !own p.2.cmd
    paddockOrder := x.paddockOrder.filter fun e => !(pads.any fun p => p.1 = e)
    engines := x.engines.map fun (g : Nat × Engine) => (g.1, { g.2 with
      queue := g.2.queue.filter fun k => !own k
      reentry := g.2.reentry.filter fun k => !own k
      credit := { g.2.credit with owed := g.2.credit.owed + (g.2.queue.filter own).length } }) }
  ((pads.map fun p => (p.2.slot, p.2.cmd)) ++ queued).foldl (fun s x => s.scanClosed c x.1 x.2) s1

/-- CLOSE and CLOSE_DISCARD. -/
def State.streamClose (s : State) (n : Nat) (discard : Bool) : State :=
  let st := (s.stream n).state
  if st ≠ strmOpen ∧ st ≠ strmLost then s.windowDone .strm strmNotOpen
  else
    let s1 := s.modStream n fun r => { r with state := strmClosing, discard := discard }
    (if discard then s1.discardScans n else s1).releaseClosing.windowDone .strm strmOk

/-- REHOME: its checks; the write-back then runs while BUSY stays 1. -/
def State.streamRehome (s : State) (n : Nat) : State :=
  let r := s.stream n
  let home := bitsOf (s.rd .strm (Reg.strmWinData_DATA 0)) 3 2
  let x := s.chan r.home
  if r.state ≠ strmOpen then s.windowDone .strm strmNotOpen
  else if x.cmds.any fun h => h.names n && h.underWay then s.windowDone .strm strmBusyStatus
  else if x.pages.any fun p => p.sharers.contains n && 1 < p.sharers.length then
    s.windowDone .strm strmShared
  else if s.chState home = chRetired then s.windowDone .strm strmChannelDown
  else { s with rehoming := some (n, home) }

def State.strmOp (s : State) (op n : Nat) : State :=
  if op = 1 then s.streamRead n
  else if op = 2 then s.streamOpen n
  else if op = 3 then s.streamClose n false
  else if op = 4 then s.streamClose n true
  else s.streamRehome n

/-- A stream operation of a master. -/
def State.strmWindow (s : State) (m : Master) (op : Nat) : State :=
  let n := s.rd .strm Reg.strmWinIdx_IDX
  s.windowStart m .strm (.strm op m n) fun s => s.strmOp op n

/-- STRM_READ (R307). -/
def execStrmRead (m : Master) (s : State) : Result := live s <| s.strmWindow m 1
/-- OPEN (R307). -/
def execOpenStream (m : Master) (s : State) : Result := live s <| s.strmWindow m 2
/-- CLOSE (R307, R308). -/
def execClose (m : Master) (s : State) : Result := live s <| s.strmWindow m 3
/-- CLOSE_DISCARD (R307). -/
def execCloseDiscard (m : Master) (s : State) : Result := live s <| s.strmWindow m 4
/-- REHOME (R307). -/
def execRehome (m : Master) (s : State) : Result := live s <| s.strmWindow m 5

/-! ## The transfers' ends -/

/-- The access of a transfer: the backing of stream `n` at a page (R311), in the stream's context. -/
def State.backing (s : State) (c n i : Nat) : MemAccess :=
  { req := .transfer (Fin.ofNat 4 c) (Fin.ofNat 1024 n) i, ctx := (s.stream n).ctx
    va := (s.stream n).stateVa + 4096 * i, write := false, info := { stream := some n } }

/-- A page's frame is written to its owner's backing. -/
def State.writeBacking (s : State) (c : Nat) (p : StatePage) : State × Bool :=
  let a := s.backing c p.owner p.index
  let bs := (s.chan c).ast.readBytes (s.frameAddr c p.frame) 4096
  let r := s.writeVa { a with write := true } hbmState bs
  (r.1, r.2.2)

/-- A dirty page of a stream that moves is written to its backing, and is then clean: a write-back that has to wait
goes on with the page that it waits for (R440). -/
def State.writeHome (c : Nat) (acc : State × Bool) (p : StatePage) : State × Bool :=
  if acc.2 then
    match acc.1.writeBacking c p with
    | (s1, true) => (s1.modChan c fun x => x.putPage p { p with dirty := false }, true)
    | (s1, false) => (s1, false)
  else acc

/-- REHOME_WRITEBACK_DONE (R307, R608): every dirty page is in backing, the frames are free, and HOME
takes its value. A page whose data still lies in an earlier owner's backing (R329) is waited for. -/
def execRehomeWritebackDone (s : State) : Result :=
  live s <|
    match s.rehoming with
    | none => s
    | some (n, home) =>
      let c := (s.stream n).home
      let mine := (s.chan c).pages.filter fun p => p.sharers = [n]
      if !s.arithOn c || mine.any fun p => p.handing.isSome then s
      else
        let dirty := mine.filter fun p => p.state ≠ .away && p.dirty
        let w := dirty.foldl (State.writeHome c) (s, true)
        if !w.2 then w.1
        else
          let s1 := w.1.modChan c fun x => { x with pages := x.pages.filter fun p => p.sharers ≠ [n] }
          let s2 := { s1 with rehoming := none }
          ((s2.modStream n fun r => { r with home := home }).stateMap c).windowDone .strm strmOk

/-- The state map unit runs (R324). -/
def State.mapRuns (s : State) (c : Nat) : Bool := s.unitRuns c (.grm (Fin.ofNat 4 c))

/-- SWAP_IN_COMPLETE (R331, R332, R585): the page's data is in its frame; poisoned data makes the stream
LOST. -/
def execSwapInComplete (c : Ch) (n : StreamId) (page : Nat) (ext : List Byte) (poisoned : Bool) (s : State) :
    Result :=
  live s <|
    let p := (s.chan c).page n page
    if p.state ≠ .incoming || p.handing.isSome || !s.mapRuns c then s
    else
      match s.readVa (s.backing c p.owner page) hbmState 4096 ext with
      | (s1, o) =>
        if !o.done then s1
        else if poisoned || o.poisoned then
          ((((s1.modChan c fun x => x.putPage p { p with state := .away, frame := 0 }).modStream n fun r =>
            { r with state := strmLost }).raise .strm 1).metPoison c (consumerSwapIn n) 0).stateMap c
        else
          let addr := s1.frameAddr c p.frame
          (((s1.modChan c fun x =>
            { x.putPage p { p with state := .resident, dirty := false, used := x.pageUses + 1 } with
              pageUses := x.pageUses + 1, ast := x.ast.put addr o.bytes }).bump (.grm c) Reg.grmStateCnt_SWAPIN).stateMap c).releaseClosing.wake
              (s.stream n).ctx

/-- SWAP_OUT_COMPLETE (R331): the frame is free, or kept CLEAN where a command needs the page. -/
def execSwapOutComplete (c : Ch) (n : StreamId) (page : Nat) (s : State) : Result :=
  live s <|
    let p := (s.chan c).page n page
    if (p.state ≠ .out && p.state ≠ .recalled) || !s.mapRuns c then s
    else
      match s.writeBacking c p with
      | (s1, false) => s1
      | (s1, true) =>
        let p' : StatePage := if p.state = .out then { p with state := .away, dirty := false, frame := 0 }
          else { p with state := .resident, dirty := false }
        (((s1.modChan c fun x => x.putPage p p').bump (.grm c) Reg.grmStateCnt_SWAPOUT).stateMap c).releaseClosing

/-- A copy on write ends (R327): the copy is the writer's private page, and the page keeps its other
sharers. -/
def State.copied (s : State) (c : Nat) (p : StatePage) (f : CopyFrame) : State :=
  let rest := p.sharers.filter (· ≠ f.stream)
  let data := (s.chan c).ast.readBytes (s.frameAddr c p.frame) 4096
  let left : StatePage := { p with
    copying := none, sharers := rest
    owner := if p.owner = f.stream then rest.headD p.owner else p.owner
    dirty := p.dirty || p.owner = f.stream }
  let sole : Bool := rest.length = 1
  let left' := if sole then { left with owner := rest.headD left.owner, dirty := left.dirty || left.owner ≠ rest.headD left.owner } else left
  let own : StatePage := { StatePage.fresh f.stream f.index with
    state := .resident, dirty := true, frame := f.frame, used := (s.chan c).pageUses + 1 }
  let addr := s.frameAddr c f.frame
  let s1 := s.modChan c fun x => { (x.putPage p left') with
    ast := x.ast.put addr data
    pageUses := x.pageUses + 1
    copyFrames := x.copyFrames.filter fun g =>
      !(g.index = f.index && (g.stream = f.stream || (sole && rest.contains g.stream))) }
  let s2 := (s1.modChan c fun x => { x with pages := x.pages ++ [own] }).bump (.grm (Fin.ofNat 4 c))
    Reg.grmStateCnt_COW
  if sole then s2.logDec c 0x06 (rest.headD 0 + f.index * 2 ^ 16) else s2

/-- COW_COPY_COMPLETE (R327, R328). -/
def execCowCopyComplete (c : Ch) (n : StreamId) (page : Nat) (s : State) : Result :=
  live s <|
    let x := s.chan c
    let p := x.page n page
    let copying : Bool := p.copying = some n.val
    match copying, x.copyFrames.find? fun f => f.stream = n.val && f.index = page with
    | true, some f =>
      if s.mapRuns c then ((s.copied c p f).stateMap c).releaseClosing.wake (s.stream n).ctx else s
    | _, _ => s

/-- BACKING_COPY_COMPLETE (R329): a page of a closing stream is in its new owner's backing. -/
def execBackingCopyComplete (c : Ch) (n : StreamId) (page : Nat) (ext : List Byte) (s : State) : Result :=
  live s <|
    match (s.chan c).pages.find? fun p => p.index = page && p.handing = some n.val with
    | none => s
    | some p =>
      if !s.mapRuns c then s
      else
        match s.readVa (s.backing c n page) hbmState 4096 ext with
        | (s1, o) =>
          if !o.done then s1
          else
            let a := { s1.backing c p.owner page with write := true }
            match s1.writeVa a hbmState o.bytes with
            | (s2, _, false) => s2
            | (s2, _, true) =>
              (s2.modChan c fun x => x.putPage p { p with handing := none }).releaseClosing

end Sys2Proof.Machine
end

