-- ==== Sys2Proof/Machine/Scan.lean ====
section
/-!
DEFINITION. SCAN and FORK (chapter 10): the head check with the paddock, the scan unit's recurrence and
writes, and the forking of streams.
-/

namespace Sys2Proof.Machine

/-! ## The head check (R335 to R337) -/

def State.padFree (s : State) (c : Nat) : Option Nat :=
  (List.range 64).find? fun i => !((s.chan c).paddock.any fun p => p.1 = i)

/-- The head of an engine queue leaves it for the paddock. -/
def State.enterPaddock (s : State) (c e i : Nat) (k : EngCmd) : State :=
  (((s.popQueue c e).freeEntry c e k).modChan c fun x => { x with
    paddock := Tab.set x.paddock i { slot := e, cmd := k }
    paddockOrder := x.paddockOrder ++ [i] }).bump (.grm (Fin.ofNat 4 c)) Reg.grmPaddockStat_ENTERED

/-- SCAN_HEAD_CHECK: the state map answers whether the head's pages are ready. A ready command is pinned
and waits for the scan unit; another one enters the paddock, or waits at the head while the paddock is
full. -/
def execScanHeadCheck (c : Ch) (e : SlotId) (s : State) : Result :=
  live s <|
    match (s.engine c e).queue.head? with
    | none => s
    | some k =>
      if k.op ≠ opScan || !s.engRuns c e || !s.ctxRuns k.ctx || (s.chan c).pinned k then s
      else if !s.mayRecord c then s.recordStall
      else
        let behind : Bool := (s.chan c).paddocked.any fun p => scanStream p.2.cmd = scanStream k
        if !behind && (s.chan c).pagesReady k then s.pin c k
        else
          match s.padFree c with
          | some i => (s.enterPaddock c e i k).stateMap c
          | none => (s.raise (.grm c) 1).stateMap c

/-- The head of an engine queue waits: for a paddock entry (R337), or for a tile, a slot or an image (R178 to
R180). -/
def State.headHolds (s : State) (c : Ch) (e : SlotId) : Bool :=
  match (s.engine c e).queue.head? with
  | none => false
  | some k =>
    (s.chan c).headWaits k
      || (hasTileBody k.op && ((s.claim c e).engine c e).queue.any fun q => q.uid = k.uid)

/-- SCAN_START (R315, R338): the scan unit takes the head whose pages are pinned, or else the command in
the re-entry position where no command holds the head in a wait. -/
def execScanStart (c : Ch) (e : SlotId) (s : State) : Result :=
  live s <|
    let g := s.engine c e
    if g.scanning.isSome || !s.engRuns c e then s
    else
      let head := g.queue.head?.filter fun k => k.op = opScan && (s.chan c).pinned k && s.ctxRuns k.ctx
      match head, g.reentry with
      | some k, _ =>
        (((s.popQueue c e).freeEntry c e k).modEngine c e fun g => { g with scanning := some k }).settle c e
      | none, some k =>
        if s.ctxRuns k.ctx && !s.headHolds c e then
          (s.modEngine c e fun g => { g with scanning := some k, reentry := none }).stateMap c
        else s
      | none, none => s

/-! ## The recurrence (R317, R318) -/

/-- A log outside the working range of 12.22 (R317). -/
def scanClamp (v : LVal) : LVal :=
  match v with
  | .fin neg log => if 2 ^ 33 ≤ log then .inf neg else if log < -(2 ^ 33) then .zero else v
  | .zero | .inf _ | .indef => v

def scanMul (a b : LVal) : LVal :=
  match a, b with
  | .zero, _ | _, .zero => .zero
  | a, b => scanClamp (mulLns a b)

def scanAdd (a b : LVal) : LVal := scanClamp (exactNode a b)

/-- Reset marks: at a marked step b takes a · init and a becomes ZERO. -/
def resetMarks (rmask : Nat) (init : LVal) (a b : List LVal) : List LVal × List LVal :=
  let at' (j : Nat) : Bool := bitsOf rmask j 1 = 1
  ((a.zipIdx.map fun v => if at' v.2 then .zero else v.1),
   ((b.zip a).zipIdx.map fun v => if at' v.2 then scanAdd v.1.1 (scanMul v.1.2 init) else v.1.1))

/-- One level of the prefix combine: step j combines with step j − d. -/
def prefixLevel (d : Nat) (ab : List LVal × List LVal) : List LVal × List LVal :=
  let (a, b) := ab
  ((a.zipIdx.map fun v => if v.2 < d then v.1 else scanMul (a.getD (v.2 - d) .zero) v.1),
   ((b.zip a).zipIdx.map fun v => if v.2 < d then v.1.1
      else scanAdd (scanMul v.1.2 (b.getD (v.2 - d) .zero)) v.1.1))

/-- h at every step; `levels` is log2 of the chunk length. -/
def scanElement (levels rmask : Nat) (hIn init : LVal) (a b : List LVal) : List LVal :=
  let ab := (List.range levels).foldl (fun ab k => prefixLevel (2 ^ k) ab) (resetMarks rmask init a b)
  List.zipWith (fun aa bb => scanAdd (scanMul aa hIn) bb) ab.1 ab.2

/-- log2 of the chunk length (R313). -/
def scanLevels (k : EngCmd) : Nat := 4 + nCsel k.descs

/-! ## What a SCAN engine command reads -/

/-- The tensor of a or b at a step, as the address generator's functions take it. -/
def stepWindow (d : List Nat) (base j : Nat) : Window :=
  { windowOf d with
    fmt := fmtL8, layout := nLayout d, comp := nIcomp d, base := base + j * nXstride d
    iw := nNpos d, ih := 1, cin := nSc d }

/-- The accesses of the scan unit. -/
def scanAccess (c : Ch) (e : SlotId) (k : EngCmd) : MemAccess :=
  { req := .scan c e, ctx := k.ctx, va := 0, write := false
    info := { ring := some k.ring, cmdid := some (hdCmdid k.descs), num := some k.num
              stream := some (scanStream k) } }

/-- Element blocks that the command covers: channel block and position. -/
def scanElementBlocks (k : EngCmd) : List (Nat × Nat) :=
  (scanBlocks k).flatMap fun b => (scanPositions k).map fun p => (b, p)

/-- One element block of a step: its bytes, zeros where it is absent. -/
def fetchedBlock (w : Window) (p : ScanProg) (uid j : Nat) (bp : Nat × Nat) : List Byte :=
  match blockVa w p.heads uid j bp.1 bp.2 with
  | some va => (p.got.find? fun f => f.va = va && !f.bytes.isEmpty).elim
      (List.replicate (elemBytes w.fmt w.layout) 0) (·.bytes)
  | none => List.replicate (elemBytes w.fmt w.layout) 0

/-- A tensor of every step is read, from where its reads have come. -/
def readSteps (a : MemAccess) (k : EngCmd) (base : Nat) (r : Reading) : Reading :=
  (List.range (nL k.descs)).foldl (fun r j =>
    (scanElementBlocks k).foldl (fun r bp => r.block a (stepWindow k.descs base j) k.uid j bp) r) r

/-- A tensor that has been read: for each step, the blocks by channel block and position. -/
def stepBlocks (k : EngCmd) (base : Nat) : List (List ((Nat × Nat) × List Byte)) :=
  (List.range (nL k.descs)).map fun j =>
    (scanElementBlocks k).map fun bp => (bp, fetchedBlock (stepWindow k.descs base j) k.scan k.uid j bp)

/-- Address of a state byte in the frames, for a page that is held. -/
def State.stateAddr (s : State) (c n off : Nat) : Nat :=
  s.frameAddr c ((s.chan c).page n (off / 4096)).frame + off % 4096

/-- A mark lies at a step that the command runs. -/
def hasMarks (k : EngCmd) : Bool := (List.range (nL k.descs)).any fun j => bitsOf (nRmask k.descs) j 1 = 1

/-- The initial states at the command's element blocks (R319), from where their reads have come: an INIT_VA read is
a transfer (R340, R358). -/
def State.readInit (s : State) (c : Ch) (e : SlotId) (k : EngCmd) (p : ScanProg) (ext : List Byte) :
    State × ScanProg × Bool :=
  let r := s.stream (scanStream k)
  let n := elemBytes fmtL8 (nLayout k.descs)
  if r.initVa = 0 ∨ !hasMarks k then
    (s, { p with inits := (scanElementBlocks k).map fun bp => (bp, List.replicate n 0) }, true)
  else
    let done := (scanElementBlocks k).foldl (fun (acc : State × ScanProg × Bool × List Byte) bp =>
      let (s, p, ok, ext) := acc
      if !ok || p.inits.any fun x => x.1 = bp then acc
      else
        let a : MemAccess := { scanAccess c e k with
          req := .initRead c e, va := r.initVa + stateOffset k.descs bp.1 bp.2 }
        match s.readVa a hbmState n ext with
        | (s1, o) =>
          if o.done then
            (s1, { p with inits := p.inits ++ [(bp, o.bytes)], initBad := p.initBad || o.poisoned }, true, o.ext)
          else (s1, p, false, o.ext)) (s, p, true, ext)
    (done.1, done.2.1, done.2.2.1)

/-! ## Its results -/

/-- What a SCAN engine command computes: the narrowed codes of every step and of the state, by element
block and lane. -/
structure ScanOut where
  /-- The channel, and the number of its next element that narrows (R145). -/
  ch : Nat
  n : Nat
  counts : NarrowCounts
  steps : List (List ((Nat × Nat) × List Nat)) := []
  state : List ((Nat × Nat) × List Nat) := []

def NarrowCounts.count (x : NarrowCounts) (k : NarrowCount) : NarrowCounts :=
  let up (v : Nat) : Nat := min (v + 1) 0xffff
  match k with
  | .none => x
  | .inf => { x with inf := up x.inf }
  | .indef => { x with indef := up x.indef }
  | .sat => { x with sat := up x.sat }
  | .under => { x with under := up x.under }

/-- Lanes of a channel block that the tensor has. -/
def scanLanes (k : EngCmd) (b : Nat) : List Nat :=
  let n := blockLanes (nLayout k.descs)
  (List.range n).filter fun l => b * n + l < nSc k.descs

/-- Values are narrowed in order. -/
def narrowList (g : Group) (acc : ScanOut) (vs : List LVal) : ScanOut × List Nat :=
  vs.foldl (fun (x : ScanOut × List Nat) v =>
    let (code, k) := narrow fmtL8 g false v (ditherIndex x.1.ch x.1.n)
    ({ x.1 with n := x.1.n + 1, counts := x.1.counts.count k }, x.2 ++ [code])) (acc, [])

/-- h for one element block: for each of its lanes, every step. -/
def scanBlock (k : EngCmd) (a b : List (List Byte)) (h init : List Byte) (lanes : List Nat) : List (List LVal) :=
  lanes.map fun l =>
    let code (bs : List Byte) : Nat := (bs.getD l 0).toNat
    scanElement (scanLevels k) (nRmask k.descs) (decodeL8 k.sgroup (code h)) (decodeL8 k.sgroup (code init))
      (a.map fun bs => decodeL8 k.agroup (code bs)) (b.map fun bs => decodeL8 k.group (code bs))

/-- The narrowing of one element block: the outputs step by step, then the state. -/
def narrowBlock (k : EngCmd) (bp : Nat × Nat) (hs : List (List LVal)) (acc : ScanOut) : ScanOut :=
  let L := nL k.descs
  let outs := if nOaddr k.descs = 0 then (acc, [])
    else (List.range L).foldl (fun (x : ScanOut × List (List Nat)) j =>
      let r := narrowList k.ogroup x.1 (hs.map fun h => h.getD j .zero)
      (r.1, x.2 ++ [r.2])) (acc, [])
  let st := narrowList k.sgroup outs.1 (hs.map fun h => h.getD (L - 1) .zero)
  { st.1 with
    steps := if outs.2.isEmpty then acc.steps else
      outs.2.zipIdx.map fun o => (acc.steps.getD o.2 []) ++ [(bp, o.1)]
    state := acc.state ++ [(bp, st.2)] }

/-- The output of one step (R245 to R248, R320): its writes, and the element blocks that hold
something. -/
def stepPieces (o : Owner) (k : EngCmd) (j : Nat) (bs : List ((Nat × Nat) × List Nat)) : List Piece × Nat :=
  let d := k.descs
  let n := blockLanes (nLayout d)
  let base := nOaddr d + j * nXstride d
  let bytes (cs : List Nat) : List Byte := packLanes fmtL8 (cs ++ List.replicate (n - cs.length) 0)
  if nOcomp d then
    (scanBlocks k).foldl (fun (acc : List Piece × Nat) b =>
      let own := bs.filter fun e => e.1.1 = b && e.2.any fun v => !zeroLane fmtL8 v
      let at' := base + segOffset fmtL8 (nLayout d) (nNpos d) b k.pt
      let bitmap := (own.map fun e => 2 ^ (e.1.2 % 64)).sum
      (acc.1 ++ pieces o (at' + 32) true (own.flatMap fun e => bytes e.2)
        ++ pieces o at' false (leBytes 32 (bitmap + own.length * 2 ^ 64)), acc.2 + own.length)) ([], 0)
  else
    (joinPieces (bs.flatMap fun e =>
      pieces o (base + denseOffset fmtL8 (nLayout d) (nNpos d) e.1.1 e.1.2) false (bytes e.2)), bs.length)

/-- The new state is written into the stream's pages, which are DIRTY. -/
def State.writeState (s : State) (c : Nat) (k : EngCmd) (st : List ((Nat × Nat) × List Nat)) : State :=
  let n := blockLanes (nLayout k.descs)
  let s1 := st.foldl (fun s e =>
    let addr := s.stateAddr c (scanStream k) (stateOffset k.descs e.1.1 e.1.2)
    s.modChan c fun x => { x with
      ast := x.ast.put addr (packLanes fmtL8 (e.2 ++ List.replicate (n - e.2.length) 0)) }) s
  (neededPages k).foldl (fun s i => s.modPage c (scanStream k) i fun p => { p with dirty := true }) s1

/-- Two counts of one SCAN together; each but NZBLK saturates (R249). -/
def NarrowCounts.plus (a b : NarrowCounts) : NarrowCounts :=
  let up (x y : Nat) : Nat := min (x + y) 0xffff
  { inf := up a.inf b.inf, indef := up a.indef b.indef, sat := up a.sat b.sat, under := up a.under b.under
    nzblk := a.nzblk + b.nzblk }

/-- The command leaves the scan unit with a status. -/
def State.scanEnd (s : State) (c e : Nat) (k : EngCmd) (status : Nat) : State :=
  ((((s.modEngine c e fun g => { g with scanning := none }).unpin c k).ecDone c k status).stateMap c).releaseClosing

/-- The scan unit's command is at a new point. -/
def State.setScan (s : State) (c e : Nat) (k : EngCmd) (p : ScanProg) : State :=
  s.modEngine c e fun g => { g with scanning := some { k with scan := p } }

/-- A command's inputs are read, from where their reads have come, and whether all of them have been (R440). -/
def State.scanReads (s : State) (c : Ch) (e : SlotId) (k : EngCmd) (ext : List Byte) : State × ScanProg × Bool :=
  let a := scanAccess c e k
  let r := readSteps a k (nBaddr k.descs) (readSteps a k (nAaddr k.descs)
    { s := s, got := k.scan.got, heads := k.scan.heads, ext := ext })
  let p := { k.scan with got := r.got, heads := r.heads }
  if r.ok then r.s.readInit c e k p r.ext else (r.s, p, false)

/-- The place of an element block of the state in the activation store. -/
def State.scanHeld (s : State) (c : Nat) (k : EngCmd) (bp : Nat × Nat) : Nat :=
  s.stateAddr c (scanStream k) (stateOffset k.descs bp.1 bp.2)

/-- A command's inputs or its state are poisoned (R585). -/
def State.scanPoisoned (s : State) (c : Nat) (k : EngCmd) : Bool :=
  k.scan.initBad || k.scan.got.any (·.poisoned) || (scanElementBlocks k).any fun bp =>
    (s.chan c).ast.poisonedAt (s.scanHeld c k bp) (elemBytes fmtL8 (nLayout k.descs))

/-- The recurrence over all of a command's element blocks (R317, R318), whose reads are done. -/
def State.scanOut (s : State) (c : Nat) (k : EngCmd) : ScanOut :=
  let as := stepBlocks k (nAaddr k.descs)
  let bs := stepBlocks k (nBaddr k.descs)
  (scanElementBlocks k).foldl (fun (acc : ScanOut) bp =>
    let at' (xs : List ((Nat × Nat) × List Byte)) : List Byte := (xs.find? fun x => x.1 = bp).elim [] (·.2)
    narrowBlock k bp (scanBlock k (as.map at') (bs.map at')
      ((s.chan c).ast.readBytes (s.scanHeld c k bp) (elemBytes fmtL8 (nLayout k.descs))) (at' k.scan.inits)
      (scanLanes k bp.1)) acc) { ch := c, n := (s.chan c).narrowed, counts := {} }

/-- The writes of a command's outputs, step by step, with the element blocks that hold something. -/
def scanParts (o : Owner) (k : EngCmd) (out : ScanOut) : List (List Piece × Nat) :=
  out.steps.zipIdx.map fun st => stepPieces o k st.2 st.1

/-- A command whose reads are done is computed; one with poisoned inputs has no results (R317 to R320, R585). -/
def State.scanForm (s : State) (c : Ch) (e : SlotId) (k : EngCmd) : State :=
  if s.scanPoisoned c k then
    (s.metPoison c (consumerScan e) 0).setScan c e k { formed := true, lost := true }
  else
    let out := s.scanOut c k
    let parts := scanParts (s.scanOwner c e k) k out
    (s.modChan c fun x => { x with narrowed := out.n }).setScan c e k
      { formed := true, out := parts.flatMap (·.1), state := out.state
        counts := { out.counts with nzblk := (parts.map (·.2)).sum } }

/-- The writes of the scan unit enter the engine's write queue as far as its credits go (R315, R33). -/
def Engine.pushScan (g : Engine) : Engine :=
  match g.scanning with
  | some k =>
    let n := min k.scan.out.length g.writeCredit.held
    { g with
      scanning := some { k with scan := { k.scan with out := k.scan.out.drop n } }
      writes := g.writes ++ k.scan.out.take n
      writeCredit := { g.writeCredit with held := g.writeCredit.held - n } }
  | none => g

/-- A write of the scan unit has not been accepted yet. -/
def Engine.scanWrites (g : Engine) : Bool := (g.writes ++ g.assembling).any (·.owner.scan)

/-- A command whose writes have been accepted: the last of its SCAN first forms the sideband record; else the state
is written, STEPS counts, and the command completes (R320). -/
def State.scanFinish (s : State) (c : Ch) (e : SlotId) (k : EngCmd) : State :=
  let p := k.scan
  let total := (s.scanBefore c k).plus p.counts
  let tail := if (s.chan c).lastOf k && !p.tailed then s.scanSideband c e k total else []
  if !tail.isEmpty then
    (s.setScan c e k { p with out := tail, tailed := true }).modEngine c e Engine.pushScan
  else
    let s1 := if p.lost then s else s.writeState c k p.state
    ((s1.modChan c fun x => { x with scanCounts := Tab.set x.scanCounts k.num total }).scanSteps c k).scanEnd c e k
      (if p.lost then stTileLost else stOk)

/-- The scan unit works on its command: it reads and computes, its writes enter the write queue, and with the last of
them accepted the command ends. -/
def State.scan (s : State) (c : Ch) (e : SlotId) (k : EngCmd) (ext : List Byte) : State :=
  if k.scan.formed then
    if !k.scan.out.isEmpty then s.modEngine c e Engine.pushScan
    else if (s.engine c e).scanWrites then s
    else s.scanFinish c e k
  else
    match s.scanReads c e k ext with
    | (s1, p, false) => s1.setScan c e k p
    | (s1, p, true) => (s1.scanForm c e { k with scan := p }).modEngine c e Engine.pushScan

/-- SCAN_COMPLETE (R315, R317 to R320): it completes once its last write has been accepted. -/
def execScanComplete (c : Ch) (e : SlotId) (ext : List Byte) (s : State) : Result :=
  live s <|
    match (s.engine c e).scanning with
    | none => s
    | some k => if s.engRuns c e && s.ctxRuns k.ctx then (s.active k.ctx).scan c e k ext else s

/-! ## FORK (R322 to R325) -/

/-- A child stream's entry. -/
def childOf (parent : StreamRec) (n va : Nat) : StreamRec :=
  { parent with state := strmOpen, forked := true, parent := n, stateVa := va, discard := false }

/-- Every page of the parent is shared with its children. -/
def State.sharePages (s : State) (c n : Nat) (children : List Nat) : State :=
  let x := s.chan c
  let old := x.pages.filter fun p => p.sharers.contains n
  let all := (List.range (s.stream n).pages).map fun i => x.page n i
  s.modChan c fun x => { x with pages := x.pages.filter (fun p => !old.contains p) ++ all.map fun p =>
    { p with sharers := (p.sharers ++ children).mergeSort } }

/-- A FORK waits for an earlier command of its ring that names its parent (R324). -/
def Channel.forkWaits (x : Channel) (f : ForkJob) : Bool :=
  let ring := (x.cmd? f.num).elim 0 (·.ring)
  x.cmds.any fun h => h.ring = ring && h.num < f.num && h.names f.parent && h.underWay

/-- FORK_COMPLETE (R324, R325): once every earlier command of its ring that names the parent has
completed, the children are OPEN with the parent's state. -/
def execForkComplete (c : Ch) (s : State) : Result :=
  live s <|
    match (s.chan c).forks.find? fun f => !(s.chan c).forkWaits f && s.ctxRuns (s.stream f.parent).ctx with
    | none => s
    | some f =>
      if !s.mapRuns c then s
      else
        let p := s.stream f.parent
        let s1 := f.children.foldl (fun s ch => s.modStream ch.1 fun _ => childOf p f.parent ch.2) s
        let s2 := (s1.sharePages c f.parent (f.children.map (·.1))).modChan c fun x => { x with forks := x.forks.erase f }
        (((s2.modCmd c f.num fun h => { h with ecs := h.ecs.map fun r => { r with status := some stOk } }).bump
          .strm Reg.strmStat_FORKS).stateMap c).releaseClosing

end Sys2Proof.Machine
end

