-- ==== Sys2Proof/Machine/Deadlines.lean ====
section
/-!
DEFINITION. The deadline monitor (R478 to R487): its window operations, the steps of a stream, the
prediction, and the diversion.
-/

namespace Sys2Proof.Machine

def State.dlmRec (s : State) (n : Nat) : DlmRec := Tab.get {} s.dlm n
def State.modDlm (s : State) (n : Nat) (f : DlmRec → DlmRec) : State :=
  { s with dlm := Tab.set s.dlm n (f (s.dlmRec n)) }

/-- The 32 bytes of an entry (R478), as a number. -/
def DlmRec.encode (x : DlmRec) : Nat :=
  bit x.armed + bit x.instep * 2 + bit x.diverted * 4 + bit x.pending * 8 + x.fbring % 16 * 2 ^ 4
    + bit x.fben * 2 ^ 8 + x.budget % 2 ^ 32 * 2 ^ 32 + x.stepcost % 2 ^ 32 * 2 ^ 64
    + x.last % 2 ^ 32 * 2 ^ 96 + x.misses % 2 ^ 16 * 2 ^ 128 + x.diverts % 2 ^ 16 * 2 ^ 144
    + x.nofallback % 2 ^ 16 * 2 ^ 160

/-! ## The window operations (R478, R479) -/

def ringPage (c r : Nat) : Page := .ring (Fin.ofNat 4 c) (Fin.ofNat 16 r)
def doorPage (c r : Nat) : Page := .door (Fin.ofNat 4 c) (Fin.ofNat 16 r)

/-- The context to which a ring is bound (R376). -/
def State.ringCtx (s : State) (c r : Nat) : Nat := s.rd (ringPage c r) Reg.ringCtl_CTX

/-- ARM. -/
def State.dlmArm (s : State) (n : Nat) : State :=
  let v := s.windowData .dlm
  let r := s.stream n
  let fb := bitsOf v 4 4
  if r.state ≠ strmOpen then s.windowDone .dlm strmNotOpen
  else if (s.dlmRec n).instep then s.windowDone .dlm strmBusyStatus
  else if bitsOf v 32 32 = 0 ∨ s.ringCtx r.home fb ≠ r.ctx then s.windowDone .dlm strmBadArg
  else (s.modDlm n fun d => { d with
    armed := true, fbring := fb, fben := bitsOf v 8 1 = 1
    budget := bitsOf v 32 32, stepcost := bitsOf v 64 32 }).windowDone .dlm strmOk

def State.dlmOp (s : State) (op n : Nat) : State :=
  if op = 1 then (s.setWindowData .dlm (s.dlmRec n).encode).windowDone .dlm strmOk
  else if op = 2 then s.dlmArm n
  else if op = 3 then (s.modDlm n fun d => { d with armed := false }).windowDone .dlm strmOk
  else (s.modDlm n fun d => { d with last := 0, misses := 0, diverts := 0, nofallback := 0 }).windowDone
    .dlm strmOk

def State.dlmWindow (s : State) (m : Master) (op : Nat) : State :=
  let n := s.rd .dlm Reg.dlmWinIdx_IDX
  s.windowStart m .dlm (.dlm op m n) fun s => s.dlmOp op n

/-- DLM_READ (R478). -/
def execDlmRead (m : Master) (s : State) : Result := live s <| s.dlmWindow m 1
/-- ARM (R479). -/
def execArm (m : Master) (s : State) : Result := live s <| s.dlmWindow m 2
/-- DISARM (R479). -/
def execDisarm (m : Master) (s : State) : Result := live s <| s.dlmWindow m 3
/-- DLM_CLEAR (R479). -/
def execDlmClear (m : Master) (s : State) : Result := live s <| s.dlmWindow m 4

/-- An entry disarms itself when its stream is FREE (R479). -/
def State.disarmFreed (s : State) : State :=
  { s with dlm := s.dlm.map fun (d : Nat × DlmRec) =>
      if (s.stream d.1).state = strmFree then (d.1, { d.2 with armed := false }) else d }

/-! ## Steps (R480, R481, R486) -/

/-- The armed entry that a command names, which is on a ring of the stream's home channel. -/
def State.dlmOf (s : State) (c : Nat) (h : HostCmd) : Option Nat :=
  let n := hdStream h.descs
  let r := s.stream n
  if (s.dlmRec n).armed && s.flag .dlm Reg.dlmCfg_EN && r.state ≠ strmFree && r.home = c
      && r.ctx = hdCtx h.descs then some n else none

/-- The diversion of a step acts. -/
def DlmRec.diverting (d : DlmRec) : Bool := d.instep && d.diverted && !d.pending

def DlmRec.elapsed (d : DlmRec) (now : Nat) : Nat := now - d.start

/-- A command of another ring than FBRING begins the step. -/
def State.stepBegin (s : State) (c : Nat) (h : HostCmd) : State :=
  match s.dlmOf c h with
  | none => s
  | some n =>
    let d := s.dlmRec n
    if d.instep || d.fbring = h.ring then s
    else s.modDlm n fun d => { d with
      instep := true, diverted := false, pending := false, start := s.cyc (domArith c), splitcost := 0
      cmds := [], links := false, fbFetched := false, fbDone := false }

/-- The step ends: LAST, and a miss where it took longer than BUDGET. A disarmed entry counts nothing. -/
def State.stepEnd (s : State) (c n : Nat) : State :=
  let d := s.dlmRec n
  let e := d.elapsed (s.cyc (domArith c))
  if !d.armed then s.modDlm n fun d => { d with instep := false, pending := false }
  else
    let late : Bool := d.budget < e
    let s1 := (s.modDlm n fun d => { d with
      instep := false, pending := false, last := min e (2 ^ 32 - 1)
      misses := min (d.misses + bit late) 0xffff }).bump .dlm Reg.dlmCnt_STEPS
    if late then (s1.bump .dlm Reg.dlmCnt_MISSES).raise .dlm 1 else s1

/-- A SIGNAL that names the stream completes: the fallback ring's, or the one that ends the step. -/
def State.stepSignal (s : State) (c : Nat) (h : HostCmd) : State :=
  let n := hdStream h.descs
  let d := s.dlmRec n
  if !d.instep || (s.stream n).home ≠ c || (s.stream n).ctx ≠ hdCtx h.descs then s
  else if h.ring = d.fbring then
    (if d.diverted then s.modDlm n fun d => { d with fbDone := true } else s)
  else s.stepEnd c n

/-- The ending SIGNAL of a diverted step waits for the fallback ring's (R485). -/
def State.signalHeld (s : State) (c : Nat) (h : HostCmd) : Bool :=
  let n := hdStream h.descs
  let d := s.dlmRec n
  d.instep && d.diverted && !d.fbDone && h.ring ≠ d.fbring && (s.stream n).home = c
    && (s.stream n).ctx = hdCtx h.descs

/-- A command that a diversion lets complete without engine commands (R485). -/
def State.divertedAway (s : State) (c : Nat) (h : HostCmd) : Bool :=
  let op := hdOp h.descs
  (s.dlmOf c h).elim false fun n =>
    let d := s.dlmRec n
    d.diverting && h.ring ≠ d.fbring && op ≠ opWait && op ≠ opSignal

/-- A ring is the fallback ring of an armed entry and may not be fetched now (R485). -/
def State.fallbackHeld (s : State) (c r : Nat) : Bool :=
  s.dlm.any fun (d : Nat × DlmRec) =>
    d.2.armed && d.2.fbring = r && (s.stream d.1).home = c && !(d.2.diverting && !d.2.fbFetched)

/-- A SIGNAL fetched from the fallback ring closes it again (R485). -/
def State.fallbackFetched (s : State) (c : Nat) (h : HostCmd) : State :=
  let n := hdStream h.descs
  let d := s.dlmRec n
  if d.diverting && h.ring = d.fbring && hdOp h.descs = opSignal && (s.stream n).home = c then
    s.modDlm n fun d => { d with fbFetched := true }
  else s

/-! ## Estimates and predictions (R482 to R484) -/

/-- The estimate of an engine command (R482). -/
def costOf (k : EngCmd) : Nat :=
  let w := windowOf k.descs
  if k.op = opScan then
    (scanPositions k).length * (2 * nL k.descs + 2) + 12 * scanLevels k
  else if k.op = opCvu then w.npos * ceilDiv (cvuDepth k) 32 * ceilDiv (bCout k.descs) 64
  else if isProduct k.op then
    let n := ((rangeOf k.op k.descs).filter fun sl => !sliceElided k.op w k.pt sl).length
    let fmt := hdAfmt k.descs
    (if fmt = fmtL8 then 512 else if fmt = fmtI4 then 256 else 64) * n + 85
  else 0

def queueCost (ks : List EngCmd) : Nat := (ks.map (·.cost)).sum

/-- Ahead of a command in its queue, and its own rest: the largest over the commands of a step that a
queue or a unit holds. -/
def restIn (now : Nat) (step : List Nat) (queue : List EngCmd) (runs : List (EngCmd × Nat)) : Nat :=
  let queued := queue.zipIdx.map fun (k : EngCmd × Nat) =>
    if step.contains k.1.num then queueCost (queue.take k.2) + k.1.cost else 0
  let running := runs.map fun (r : EngCmd × Nat) => if step.contains r.1.num then r.1.cost - (now - r.2) else 0
  (queued ++ running).foldl max 0

/-- The prediction of R483. -/
def State.predict (s : State) (c n : Nat) : Nat :=
  let d := s.dlmRec n
  let now := s.cyc (domArith c)
  let x := s.chan c
  let inEngines := x.engines.map fun (g : Nat × Engine) =>
    restIn now d.cmds g.2.queue (g.2.runs.map fun r => (r.cmd, r.start))
  let inCvu := restIn now d.cmds (x.cvu.queue.map (·.cmd)) (x.cvu.run.toList.map fun r => (r.cmd, now))
  let f := (inCvu :: inEngines).foldl max 0
  let q := ceilDiv (((List.range 64).map fun e => queueCost (x.engine e).queue).sum) 64
  let u := ceilDiv (d.stepcost - d.splitcost) 64
  d.elapsed now + max f (q + u)

/-- A command leaves the split: its descriptor-queue credits are free (R33, R35). -/
def State.pastSplit (s : State) (c : Nat) (h : HostCmd) : State :=
  (s.modCmd c h.num fun h => { h with stage := .running }).modRing c h.ring fun r =>
    { r with owed := r.owed + h.descs.length, creditHeld := false }

/-- The step is diverted (R484, R485): what was not placed yet of its commands stays unplaced. -/
def State.divert (s : State) (c n : Nat) : State :=
  let d := s.dlmRec n
  let own (h : HostCmd) : Bool := hdStream h.descs = n && h.ring ≠ d.fbring && h.stage = .splitting
  let s1 := (((s.modDlm n fun d => { d with
    diverted := true, pending := false, diverts := min (d.diverts + 1) 0xffff }).bump .dlm
      Reg.dlmCnt_DIVERTS).raise .dlm 2).logDec c 0x0a n
  ((s1.chan c).cmds.filter own).foldl (fun s h =>
    (s.pastSplit c h).modCmd c h.num fun h => { h with total := h.next }) s1

/-- The fallback ring holds a whole command up to a SIGNAL that names the stream: what its entries hold
is open while they have not been read, an empty ring holds none. -/
def State.fallbackWhole (s : State) (c r : Nat) : Bool :=
  s.rd (doorPage c r) Reg.ringHead_HEAD ≠ (s.ringOf c r).tailSeen && Config.openValue s.drawn % 2 = 1

/-- A prediction is made (R483, R484); in a replay the log says when a step is diverted (R637). While the context is away a diversion is PENDING. -/
def State.checkStep (s : State) (c n : Nat) : State :=
  let d := s.dlmRec n
  if s.replayOn c then if s.forced c 0x0a = some n then s.divert c n else s
  else if !d.armed || !d.instep || s.predict c n ≤ d.budget then s
  else if d.fben && !d.diverted && !d.links && s.fallbackWhole c d.fbring then
    if s.ctxRuns (s.stream n).ctx then s.draw.divert c n
    else s.draw.modDlm n fun d => { d with pending := true, diverted := true }
  else s.draw.modDlm n fun d => { d with nofallback := min (d.nofallback + 1) 0xffff }

/-- An engine command of a step is placed. -/
def State.stepPlaced (s : State) (c : Nat) (h : HostCmd) (k : EngCmd) : State :=
  match s.dlmOf c h with
  | none => s
  | some n =>
    let d := s.dlmRec n
    if !d.instep || h.ring = d.fbring then s
    else (s.modDlm n fun d => { d with
      splitcost := d.splitcost + k.cost
      cmds := if d.cmds.contains h.num then d.cmds else d.cmds ++ [h.num]
      links := d.links || tRole h.descs ≠ roleNone }).checkStep c n

/-- DLM_CHECK (R483): the prediction that falls due every CHECK × 1,024 arith cycles. -/
def execDlmCheck (n : StreamId) (s : State) : Result :=
  live s <|
    let c := (s.stream n).home
    if s.flag .dlm Reg.dlmCfg_EN && s.arithOn c && s.mayRecord c then s.checkStep c n else s

/-- A diversion that waited for its context takes effect at the restore (R484). -/
def State.divertPending (s : State) (ctx : Nat) : State :=
  s.dlm.foldl (fun s (d : Nat × DlmRec) =>
    if d.2.pending && (s.stream d.1).ctx = ctx then s.divert (s.stream d.1).home d.1 else s) s

end Sys2Proof.Machine
end

