-- ==== Sys2Proof/Machine/Commands.lean ====
section
/-!
DEFINITION. The completion of commands (R400 to R404): statuses, completion records and interrupts.
-/

namespace Sys2Proof.Machine

/-! ## Status and record (R401, R402) -/

/-- The engine commands that have not completed OK, in split order. -/
def HostCmd.notOk (h : HostCmd) : List EcRef := h.ecs.filter fun r => r.status ≠ some stOk

/-- The status of a command whose engine commands have all completed: that of the failing one that
comes first; a command that ABORT_COMMAND ended is ABORTED (R440). -/
def HostCmd.status (h : HostCmd) : Nat :=
  let failing := h.notOk.filterMap (·.status)
  if failing.contains stAborted then stAborted else failing.headD stOk

/-- The engine commands that a record counts: not the work of a unit beside the engines. -/
def HostCmd.bad (h : HostCmd) : List EcRef := h.notOk.filter fun r => r.slot ≠ 0x7f

/-- The 16 bytes of a completion record, as a number. -/
def HostCmd.record (h : HostCmd) (status : Nat) : Nat :=
  let first := h.bad.head?
  hdCmdid h.descs + status * 2 ^ 32 + hdOp h.descs * 2 ^ 40 + min h.bad.length 0xffff * 2 ^ 48
    + (first.elim 0 (·.tile)) * 2 ^ 64 + (first.elim 0x7f (·.slot)) * 2 ^ 80

/-! ## The completion ring (R375, R403) -/

/-- Entries of a ring from its LOG2N (R374). -/
def entriesOf (log2n : Nat) : Nat := 2 ^ (min log2n 12 + 4)

def State.cplSize (s : State) (c r : Nat) : Nat := entriesOf (s.rd (ringPage c r) Reg.ringCpl_LOG2N)

/-- The completion ring is full: one more record would make CPL_TAIL equal CPL_HEAD. -/
def State.cplFull (s : State) (c r : Nat) : Bool :=
  (s.rd (doorPage c r) Reg.ringCplptr_CPL_TAIL + 1) % s.cplSize c r
    = s.rd (doorPage c r) Reg.ringCplptr_CPL_HEAD

/-- CPL_FULL shows that a record waits for room; its interrupt comes as it sets (R380, R655). -/
def State.showFull (s : State) (c r : Nat) : State :=
  let full : Bool := !(s.ringOf c r).held.isEmpty && s.cplFull c r
  let s1 := s.wr (doorPage c r) Reg.ringHead_CPL_FULL (bit full)
  if full && !s.flag (doorPage c r) Reg.ringHead_CPL_FULL then s1.raise (ringPage c r) 1 else s1

/-- A held record keeps a ring from splitting: the completion ring is full, or the record's write has
not succeeded after a fault (R403). -/
def State.cplHolds (s : State) (c r : Nat) : Bool :=
  s.flag (doorPage c r) Reg.ringHead_CPL_FULL || (s.ringOf c r).parked
    || s.stalled (.completion (Fin.ofNat 4 c) (Fin.ofNat 16 r))

def State.sendRingVector (s : State) (c r : Nat) : State :=
  s.sendVector (s.rd (ringPage c r) Reg.ringCtl_VEC)

/-- A ring stops splitting (R380, R655). -/
def State.stopRing (s : State) (c r : Nat) : State :=
  let s1 := s.wr (doorPage c r) Reg.ringHead_STOPPED 1
  if s.flag (doorPage c r) Reg.ringHead_STOPPED then s1 else s1.raise (ringPage c r) 0

/-! ## Completion -/

/-- A command completes with a status: its completion record joins those held, or its interrupt is sent
at once where it writes none (R402, R404). -/
def State.finish (s : State) (c : Nat) (h : HostCmd) (status : Nat) : State :=
  let r := h.ring
  let sr := if s.replayOn c then s.matchCpl (hdCmdid h.descs, status, r) false else s
  let s0 := if h.stage = .running then sr else sr.pastSplit c h
  let s1 := (s0.logTo c (domArith c) (.cpl (hdCmdid h.descs) status r (s.ringCtx c r))).modChan c
    fun x => { x with
      cmds := x.cmds.filter fun g => g.num ≠ h.num
      lodgers := x.lodgers.filter (· ≠ h.num)
      scanCounts := Tab.erase x.scanCounts h.num }
  let s2 := if hdOp h.descs = opSignal then s1.stepSignal c h else s1
  let s3 :=
    if status ≠ stOk || hdReport h.descs then
      (s2.modRing c r fun q => { q with
        held := q.held ++ [{ num := h.num, word := h.record status, irq := hdIrq h.descs }] }).showFull c r
    else if hdIrq h.descs then s2.sendRingVector c r
    else s2
  s3.releaseClosing.disarmFreed

/-- COMMAND_COMPLETE (R400, R401): every engine command of a split command has completed. -/
def execCommandComplete (c : Ch) (cmd : Nat) (s : State) : Result :=
  live s <|
    match (s.chan c).cmd? cmd with
    | some h =>
      if !s.arithOn c || h.stage ≠ .running || !h.allDone then s
      else if !s.mayRecord c then s.recordStall
      else s.finish c h h.status
    | none => s

/-- The access that writes a completion record. -/
def cplAccess (s : State) (c : Ch) (r : RingId) (q : CplRecord) (va : Nat) : MemAccess :=
  { req := .completion c r, ctx := s.ringCtx c r, va := va, write := true
    info := { ring := some r, cmdid := some (q.word % 2 ^ 32) } }

/-- The virtual address of the entry at CPL_TAIL. -/
def State.cplVa (s : State) (c : Ch) (r : RingId) : Nat :=
  s.rd (.ring c r) Reg.ringCpl_BASE * 4096 + 16 * s.rd (.door c r) Reg.ringCplptr_CPL_TAIL

/-- A record is written at CPL_TAIL: whether all of it was. -/
def State.writeRecord (s : State) (c : Ch) (r : RingId) (x : CplRecord) : State × Bool :=
  match s.writeVa (cplAccess s c r x (s.cplVa c r)) hbmData (leBytes 16 x.word) with
  | (t, _, ok) => (t, ok)

/-- The oldest held record `x` is written: CPL_TAIL moves on, and its interrupt is sent. -/
def State.recordWritten (s : State) (c : Ch) (r : RingId) (x : CplRecord) (rest : List CplRecord) (tail : Nat) :
    State :=
  let s2 := ((s.modRing c r fun q => { q with held := rest }).wr (.door c r) Reg.ringCplptr_CPL_TAIL tail).showFull
    c r
  if x.irq then s2.sendRingVector c r else s2

/-- COMPLETION_RECORD_ACCEPTED (R402 to R404): the oldest held record is written at CPL_TAIL, once there
is room; then its interrupt is sent. -/
def execCompletionRecordAccepted (c : Ch) (r : RingId) (s : State) : Result :=
  live s <|
    match (s.ringOf c r).held with
    | [] => s
    | x :: rest =>
      if !s.arithOn c || (s.ringOf c r).parked || s.cplFull c r then s
      else if (s.writeRecord c r x).2 then
        (s.writeRecord c r x).1.recordWritten c r x rest
          ((s.rd (.door c r) Reg.ringCplptr_CPL_TAIL + 1) % s.cplSize c r)
      else (s.writeRecord c r x).1

/-! ## Context reset (R415) -/

/-- The rings of a context in a context reset: each is STOPPED, its descriptor queue is discarded, and
every command that HEAD has passed gets a record in ring order; one interrupt follows the last. -/
def State.resetRing (s : State) (c r : Nat) : State :=
  let gone := (s.chan c).cmds.filter fun h => h.ring = r
  let irq : Bool := gone.any fun h => hdIrq h.descs
  let recs := gone.zipIdx.map fun (h : HostCmd × Nat) =>
    ({ num := h.1.num, word := h.1.record stContextReset, irq := irq && h.2 + 1 = gone.length } : CplRecord)
  let s1 := gone.foldl (fun s h =>
    s.logTo c (domArith c) (.cpl (hdCmdid h.descs) stContextReset r (s.ringCtx c r))) s
  let freed := ((gone.filter fun h => h.stage ≠ .running).map fun h => h.descs.length).sum
  ((((s1.modChan c fun x => { x with
    forks := x.forks.filter fun f => !(gone.any fun h => h.num = f.num)
    cmds := x.cmds.filter fun h => h.ring ≠ r
    lodgers := x.lodgers.filter fun n => !(gone.any fun h => h.num = n) }).modRing c r fun q => { q with
      fetching := false, sync := .idle, word := none, creditHeld := false, owed := q.owed + freed
      held := q.held ++ recs }).stopRing c r).wr (doorPage c r)
        Reg.ringHead_FETCH_FAULT 0).showFull c r

end Sys2Proof.Machine
end

