-- ==== Sys2Proof/Machine/Checks.lean ====
section
/-!
DEFINITION. The checks of a command at its split (R387, R666): each group of R666 is one function, which
answers the status of the first check that fails.
-/

namespace Sys2Proof.Machine

/-- The status of the first condition that holds. -/
def firstFail (xs : List (Bool × Nat)) : Option Nat := (xs.find? fun x => x.1).map (·.2)

/-! ## Steps 1 to 3 of R387 -/

/-- The kinds of extension that an opcode accepts (R386, R388). -/
def extKinds (op : Nat) : List Nat :=
  if op = opMatmul then [1, 3]
  else if op = opConv ∨ op = opDwconv then [1, 2, 3]
  else if op = opPool ∨ op = opCvu then [1, 2]
  else if op = opStats then [2, 3]
  else if op = opRegroup then [2]
  else if op = opDrain then [1]
  else []

/-- The reserved bits of the first descriptor: lowest bit and width (R385, R390, R395, R396). -/
def reservedBits (op : Nat) (lodger : Bool) : List (Nat × Nat) :=
  [(10, 6), (34, 6), (63, 1), (79, 17)] ++
  if hasTileBody op then
    [(178, 14), (252, 4), (403, 13), (464, 48)]
      ++ (if lodger || op = opCvu || op = opDrain then [] else [(287, 17)])
  else if op = opScan then [(502, 10)]
  else if op = opArgmax then [(217, 7), (272, 240)]
  else if op = opFork then [(134, 42), (224, 288)]
  else if op = opLoadW then [(205, 19), (256, 256)]
  else if op = opCopy then [(256, 256)]
  else if op = opSignal then [(177, 15), (256, 256)]
  else if op = opWait then [(177, 15), (272, 240)]
  else [(128, 384)]

/-- The reserved bits of an extension (R392 to R394). -/
def extReserved (kind : Nat) : List (Nat × Nat) :=
  if kind = 1 then [(8, 24), (84, 4), (110, 18), (176, 336)]
  else if kind = 2 then [(8, 24), (138, 374)]
  else [(8, 24), (43, 5), (56, 8), (112, 400)]

def anySet (d : Nat) (rs : List (Nat × Nat)) : Bool := rs.any fun r => bitsOf d r.1 r.2 ≠ 0

/-- Step 3 of R387: no reserved bit is set, and each extension is of an accepted kind, none twice. -/
def badShape (ds : List Nat) : Bool :=
  let op := hdOp ds
  let kinds := (ds.drop 1).map (· % 256)
  anySet (ds.headD 0) (reservedBits op (hdLodger ds))
    || (ds.drop 1).any (fun d => !(extKinds op).contains (d % 256) || anySet d (extReserved (d % 256)))
    || kinds.dedup.length ≠ kinds.length

/-- Steps 1 to 3 of R387 for a command of a ring bound to a context. -/
def headerChecks (ctx : Nat) (ds : List Nat) : Option Nat :=
  firstFail [(!knownOps.contains (hdOp ds), stBadOpcode), (hdCtx ds ≠ ctx, stBadContext),
    (badShape ds, stBadArg)]

/-! ## Group 1: formats (R38, R57, R227, R275, R279, R289, R291, R314) -/

/-- An engine-path activation and weight pair of R57. -/
def pairAccepted (afmt wfmt : Nat) : Bool :=
  (afmt = fmtL8 && wfmt ≤ 2) || (afmt < fmtL8 && wfmt ≤ 1)

def cvuWfmtOk (w : Nat) : Bool := w ≤ 2 || w = cvuI8 || w = cvuF16

/-- The first row of R227, and of R291 for the CVU. -/
def destFormat (ds : List Nat) : Bool :=
  let wide : Bool := bOfmt ds = fmtI8 || bOfmt ds = fmtF16
  wide && (if hdOp ds = opCvu then bOdest ds = 0 else bOdest ds ≠ 2)

/-- The output format is reserved, for an opcode that writes a tensor (R38). -/
def outFormat (ds : List Nat) : Bool := hdOp ds ≠ opStats && fmtF16 < bOfmt ds

def formatChecks (ds : List Nat) : Option Nat :=
  let op := hdOp ds
  let a := hdAfmt ds
  let bad : Bool :=
    if isProduct op then fmtF16 < a || !pairAccepted a (hdWfmt ds) || outFormat ds || destFormat ds
    else if op = opPool then a ≠ fmtL8 || wtL2 < hdWfmt ds || outFormat ds || destFormat ds
    else if op = opStats then fmtL8 < a || wtL2 < hdWfmt ds
    else if op = opRegroup then fmtL8 < a || wtL2 < hdWfmt ds || outFormat ds || destFormat ds || a ≠ bOfmt ds
    else if op = opDrain then outFormat ds || destFormat ds
    else if op = opCvu then fmtF16 < a || !cvuWfmtOk (hdWfmt ds) || outFormat ds || destFormat ds
    else if op = opScan then nOaddr ds ≠ 0 && nOfmt ds ≠ fmtL8
    else if op = opLoadW then 2 < hdWfmt ds
    else false
  if bad then some stFormatUnsupported else none

/-! ## Group 2: lodgers (R363) -/

/-- The command is a lodger command. -/
def isLodger (ds : List Nat) : Bool := isProduct (hdOp ds) && hdLodger ds

def State.staging (s : State) (c : Nat) : Bool := s.flag (.wst (Fin.ofNat 4 c)) Reg.wstCfg_STAGE_EN

def State.lodgerChecks (s : State) (c : Nat) (ds : List Nat) : Option Nat :=
  if isLodger ds then
    firstFail [(!s.staging c, stLodgerOff), (bWsrc ds % 64 ≠ 0, stBadLayout)]
  else none

/-! ## Group 3: the stream table (R309) -/

/-- The command names a stream that R309 checks. -/
def namesStream (ds : List Nat) : Bool := hdOp ds = opScan || hdOp ds = opFork

def State.streamChecks (s : State) (c : Nat) (ds : List Nat) : Option Nat :=
  if namesStream ds then
    let r := s.stream (hdStream ds)
    firstFail [(r.state = strmFree || r.ctx ≠ hdCtx ds, stBadStream),
      (r.state = strmClosing, stStreamClosed), (r.home ≠ c, stWrongChannel)]
  else none

/-- The command waits unsplit: its stream is FORKING, or an earlier FORK of its ring that names the
stream has not completed (R309, R324). -/
def State.streamWaits (s : State) (c : Nat) (h : HostCmd) : Bool :=
  namesStream h.descs && ((s.stream (hdStream h.descs)).state = strmForking ||
    (s.chan c).cmds.any fun g => g.ring = h.ring && g.num < h.num && hdOp g.descs = opFork
      && g.names (hdStream h.descs))

/-! ## Group 4: values of body fields (R388, R390, R392, R394, R396, R399, R322) -/

def bodyChecks (ds : List Nat) : Option Nat :=
  let op := hdOp ds
  let tile := hasTileBody op
  let move : Bool := op = opLoadW || op = opCopy
  let sync : Bool := op = opSignal || op = opWait
  firstFail [
    (tile && bOdest ds = 3, stBadArg),
    (op = opScan && nOdest ds = 3, stBadArg),
    (op = opStats && bSop ds = 3, stBadArg),
    (tile && oPoolop ds = 3, stBadEpilogue),
    (tile && (extOf ds 3).isSome && 16 < tNext ds, stBadArg),
    (move && (hd ds 128 48 % 64 ≠ 0 || hd ds 224 32 = 0), stBadArg),
    (sync && hd ds 128 48 % 8 ≠ 0, stBadArg),
    (op = opFork && (hd ds 176 48 % 8 ≠ 0 || hd ds 128 6 = 0), stBadArg),
    (op = opArgmax && (hd ds 208 9 = 0 || 256 < hd ds 208 9), stBadArg),
    (op = opMatmul && bIh ds ≠ 1, stBadWindow)]

/-! ## Group 5: the window (R259, R275, R291, R314) -/

def outside (lo hi v : Nat) : Bool := v < lo || hi < v

/-- The first row of R259. -/
def windowRange (ds : List Nat) : Bool :=
  let w := windowOf ds
  let op := hdOp ds
  outside 1 16383 w.iw || outside 1 16383 w.ih || outside 1 65535 w.cin || outside 1 31 w.kw
    || outside 1 31 w.kh || outside 1 255 w.sx || outside 1 255 w.sy || outside 1 1023 w.dx
    || outside 1 1023 w.dy || w.padmode = 3 || w.patch = 3 || 8 < w.gsize
    || (op ≠ opPool && op ≠ opRegroup && outside 1 65535 (bCout ds))

/-- The state tensor of a SCAN extends past its stream's region (R314). -/
def State.scanPast (s : State) (ds : List Nat) : Bool :=
  let n := blockLanes (nLayout ds)
  (s.stream (hdStream ds)).pages * 4096 < nSoff ds + ceilDiv (nSc ds) n * nNpos ds * n

def State.windowChecks (s : State) (ds : List Nat) : Option Nat :=
  let op := hdOp ds
  let w := windowOf ds
  if op = opScan then
    firstFail [
      (nCsel ds = 3 || outside 1 (16 * 2 ^ nCsel ds) (nL ds) || nNpos ds = 0 || outside 1 4096 (nSc ds),
        stBadWindow),
      (s.scanPast ds, stBadLayout)]
  else if hasTileBody op && op ≠ opDrain then
    let pooled : Bool := oPoolop ds ≠ 0
    firstFail [
      (windowRange ds, stBadWindow),
      (op = opDwconv && (w.cin % 2 ^ w.gsize ≠ 0 || w.cin ≠ bCout ds || w.fin ≠ 1), stBadWindow),
      (w.fout ≠ 1 && outChannels ds % (w.fout * w.fout) ≠ 0, stBadWindow),
      (w.wo' ≤ 0 || w.ho' ≤ 0, stEmptyOutput),
      (bOcomp ds && (w.patch ≠ 0 || w.fout ≠ 1), stBadLayout),
      (w.fout ≠ 1 && (pooled || oArgaddr ds ≠ 0), stBadEpilogue),
      (pooled && op ≠ opPool && w.patch = 0 && w.wo % oPx ds ≠ 0, stBadEpilogue),
      (op = opRegroup && (w.fin = 1) = (w.fout = 1), stBadWindow),
      (op = opCvu && (w.gsize ≠ 0 || 2 ^ 20 < w.gc * w.ntaps), stBadWindow)]
  else none

/-! ## Group 6: the output (R227, R291) -/

/-- The fourth row of R227. -/
def badAct (ds : List Nat) : Bool :=
  let a := oAct ds
  5 < a || (a = 2 && oActarg ds % 16 = 0) || (a = 4 && bOfmt ds ≠ fmtA1) || (a = 5 && bOfmt ds ≠ fmtAT)

/-- The window of the tile that a DRAIN names: that of the last command to name it in a queue, or else of the tile or
of its sealed image. -/
def State.windowOfTile (s : State) (c ctx name : Nat) : Option Window :=
  let x := s.chan c
  let names (k : EngCmd) : Bool := k.ctx = ctx && k.name = name && hasTileBody k.op && k.op ≠ opDrain
  let queued := (x.engines.flatMap fun (g : Nat × Engine) => g.2.queue.filter names).foldl
    (fun (best : Option EngCmd) k => if best.any fun b => k.uid < b.uid then best else some k) none
  let tile := x.engines.findSome? fun (g : Nat × Engine) => (g.2.slotOf ctx name).bind fun t => (g.2.tile t).geo
  let image := (x.tileImages.find? fun i => i.ctx = ctx && i.name = name).bind fun i => i.tile.geo
  (queued.or (tile.or image)).map fun k => windowOf k.descs

/-- The fifth row of R227: the patch is the tile's, for a DRAIN too. POOL ignores PX and PY (R279). -/
def State.badPool (s : State) (c : Nat) (ds : List Nat) : Bool :=
  let w := if hdOp ds = opDrain then (s.windowOfTile c (hdCtx ds) (hdTile ds)).getD (windowOf ds) else windowOf ds
  hdOp ds ≠ opPool && oPoolop ds ≠ 0 &&
    (w.pw % oPx ds ≠ 0 || w.ph % oPy ds ≠ 0 || oPx ds * oPy ds = 1)

def State.outputChecks (s : State) (c : Nat) (ds : List Nat) : Option Nat :=
  let op := hdOp ds
  if hasTileBody op then
    firstFail [
      (op ≠ opStats && bOcomp ds && (bOfmt ds = fmtA1 || bOfmt ds = fmtI8 || bOfmt ds = fmtF16
        || oPoolop ds ≠ 0), stBadLayout),
      (oPaddr ds % 16 ≠ 0 || bSbaddr ds % 16 ≠ 0 || oArgaddr ds % 8 ≠ 0, stBadLayout),
      (badAct ds, stBadEpilogue),
      (s.badPool c ds, stBadEpilogue),
      (op = opCvu && (oPoolop ds ≠ 0 || oArgaddr ds ≠ 0), stBadEpilogue)]
  else none

/-! ## Group 7: tensor layouts (R64, R66, R69) -/

def layoutChecks (ds : List Nat) : Option Nat :=
  let op := hdOp ds
  let bad : Bool :=
    if op = opScan then nAaddr ds % 64 ≠ 0 || nBaddr ds % 64 ≠ 0 || nOaddr ds % 64 ≠ 0
    else if hasTileBody op then
      (op ≠ opDrain && (bIaddr ds % 64 ≠ 0 || (hdAfmt ds = fmtA1 && bIcomp ds)))
        || (op ≠ opStats && bOaddr ds % 64 ≠ 0)
    else false
  if bad then some stBadLayout else none

/-! ## Group 8: tile names (R389) -/

/-- The engine commands, or the one work of a unit, that a command splits into (R294, R315, R389, R397 to
R399). -/
def splitCount (ds : List Nat) : Nat :=
  let op := hdOp ds
  if op = opScan then ceilDiv (nNpos ds) 64 * ceilDiv (nSc ds) 256
  else if op = opArgmax then ceilDiv (hd ds 176 32) 64
  else if hasTileBody op && op ≠ opDrain && op ≠ opCvu then tileCount ds
  else 1

def nameChecks (ds : List Nat) : Option Nat :=
  let op := hdOp ds
  let last := splitCount ds - 1
  if hasTileBody op && op ≠ opCvu && 65535 < max (max (hdTile ds) (tIntag ds))
      (max (tOuttag ds) (tDtile ds)) + last then some stBadArg
  else none

/-! ## Group 9: slices (R391, R364) -/

/-- The chunks of a lodger layer: first row tile and number of row tiles (R364). -/
def rowTileBytes (ds : List Nat) (first n : Nat) : Nat × Nat :=
  let w := windowOf ds
  let per := slicesOf (hdOp ds) w * weightsPerSlice (hdOp ds) w
  weightBytes (hdWfmt ds) 0 (first * per) ((first + n) * per)

def chunkFits (ds : List Nat) (first n : Nat) : Bool :=
  let b := rowTileBytes ds first n
  b.2 - b.1 ≤ 2 ^ 24

def chunksFrom (ds : List Nat) : (fuel first : Nat) → List (Nat × Nat)
  | 0, _ => []
  | fuel + 1, first =>
    if rowTiles ds ≤ first then []
    else
      let n := max 1 ((List.range (rowTiles ds - first)).filter fun i => chunkFits ds first (i + 1)).length
      (first, n) :: chunksFrom ds fuel (first + n)

def chunksOf (ds : List Nat) : List (Nat × Nat) := chunksFrom ds (rowTiles ds) 0

/-- The chunk that holds a row tile. -/
def chunkOf (ds : List Nat) (rt : Nat) : Nat := ((chunksOf ds).filter fun k => k.1 ≤ rt).length - 1

def sliceChecks (ds : List Nat) : Option Nat :=
  let op := hdOp ds
  if isProduct op then
    let n := slicesOf op (windowOf ds)
    firstFail [
      (n ≤ bSfirst ds || n < bSfirst ds + bScount ds, stBadWindow),
      (isLodger ds && (List.range (rowTiles ds)).any fun rt => !chunkFits ds rt 1, stLodgerTooWide)]
  else none

/-! ## Group 10: the stall (R347, R349 to R351) -/

/-- Every byte of a range lies in a valid region that the context may read, or write (R349 to R351). -/
def State.stallAllows (s : State) (c : Ch) (ctx : Nat) (write : Bool) (lo hi : Nat) : Bool :=
  let p := Page.wst c
  let unit (u : Nat) : Bool := (List.range 16).any fun n =>
    let own : Bool := s.rd p (Reg.wstRgnB_CTX n) = ctx
    let shared := s.flag p (Reg.wstRgnB_SHARED n)
    s.flag p (Reg.wstRgnB_VALID n) && s.rd p (Reg.wstRgnA_BASE n) ≤ u
      && u < min (s.rd p (Reg.wstRgnA_LIMIT n)) 5120
      && (if write then own && s.flag p (Reg.wstRgnB_WRITE n) && !shared else own || shared)
  let staged (u : Nat) : Bool := s.staging c && 0x1200 ≤ u && u < 0x1400
  (List.range (ceilDiv hi 65536 - lo / 65536)).all fun i =>
    unit (lo / 65536 + i) && !staged (lo / 65536 + i)

/-- The stall bytes that a product command reads lie in its context's regions. -/
def State.streamAllowed (s : State) (c : Ch) (ds : List Nat) : Bool :=
  let op := hdOp ds
  let w := windowOf ds
  let per := weightsPerSlice op w
  (List.range (rowTiles ds)).all fun rt =>
    let first := (rt * slicesOf op w + bSfirst ds) * per
    let b := weightBytes (hdWfmt ds) (bWsrc ds) first (first + (rangeOf op ds).length * per)
    s.stallAllows c (hdCtx ds) false b.1 b.2

/-- A command is rejected with STALL_RANGE (R351). -/
def State.stallChecks (s : State) (c : Ch) (ds : List Nat) : Option Nat :=
  let op := hdOp ds
  if isProduct op && !hdLodger ds then
    firstFail [(hdWfmt ds ≠ wtT2 && bWsrc ds % 320 ≠ 0, stBadLayout), (!s.streamAllowed c ds, stStallRange)]
  else if op = opLoadW then
    firstFail [(!s.stallAllows c (hdCtx ds) true (hd ds 176 29) (hd ds 176 29 + hd ds 224 32), stStallRange)]
  else none

/-! ## The groups in order (R666) -/

/-- What the checks before the translated reads answer. -/
inductive Verdict where
  | accept
  | wait
  | reject (status : Nat)
  deriving DecidableEq, Repr

def State.splitChecks (s : State) (c : Ch) (h : HostCmd) : Verdict :=
  let ds := h.descs
  let early := (headerChecks (s.ringCtx c h.ring) ds).or <| (formatChecks ds).or <|
    s.lodgerChecks c ds
  match early with
  | some st => .reject st
  | none =>
    if s.streamWaits c h then .wait
    else
      let late := (s.streamChecks c ds).or <| (bodyChecks ds).or <| (s.windowChecks ds).or <|
        (s.outputChecks c ds).or <|
        (layoutChecks ds).or <| (nameChecks ds).or <| (sliceChecks ds).or (s.stallChecks c ds)
      match late with
      | some st => .reject st
      | none => .accept

/-! ## Group 11: translated reads (R54, R314, R323) -/

/-- The groups that a command names, in the order of their reads (R52, R226, R313). -/
def namedGroups (ds : List Nat) : List Nat :=
  let op := hdOp ds
  let l8 : Bool := hdAfmt ds = fmtL8
  let out : List Nat := if bOfmt ds = fmtA1 then [] else [bOgroup ds]
  if isProduct op ∨ op = opPool then (if l8 then [hdGidx ds] else []) ++ out
  else if op = opStats then (if l8 then [hdGidx ds] else [])
  else if op = opRegroup then (if l8 then [hdGidx ds] else []) ++ out
  else if op = opCvu then hdGidx ds :: out
  else if op = opDrain then out
  else if op = opScan then
    [hdGidx ds, nAgroup ds, nSgroup ds] ++ (if nOaddr ds = 0 then [] else [nOgroup ds])
  else []

/-- Reads of group 11: one for each group, and one for the child records of a FORK. -/
def readCount (ds : List Nat) : Nat := (namedGroups ds).length + bit (hdOp ds = opFork)

/-- A group entry (R51), unless it is unusable (R54). -/
def parseGroup (v : Nat) : Option Group :=
  let top := bitsOf v 11 5
  if bitsOf v 31 1 = 0 ∨ bitsOf v 16 2 = 3 ∨ (top ≠ 0 ∧ top ≠ 31) then none
  else some { base := bitsOf v 0 16, fsel := bitsOf v 16 2 }

/-- The child records of a FORK: 64 bits each (R322). -/
def childRecords (bs : List Byte) : (n : Nat) → List Nat
  | 0 => []
  | n + 1 => leNat (bs.take 8) :: childRecords (bs.drop 8) n

/-- Stream and STATE_VA of a child record. -/
def childStream (v : Nat) : Nat := bitsOf v 0 10
def childVa (v : Nat) : Nat := bitsOf v 12 36 * 4096

/-- The checks of the child records (R323). -/
def State.childChecks (s : State) (parent : Nat) (rs : List Nat) : Option Nat :=
  let ns := rs.map childStream
  firstFail [
    (rs.any (fun v => bitsOf v 10 2 ≠ 0 || bitsOf v 48 16 ≠ 0) || (parent :: ns).dedup.length ≠ ns.length + 1,
      stBadArg),
    (ns.any fun n => (s.stream n).state ≠ strmFree, stStreamBusy)]

end Sys2Proof.Machine
end

