-- ==== Sys2Proof/Machine/Rings.lean ====
section
/-!
DEFINITION. Rings and the split (R373 to R414): doorbells, the fetcher, the checks and the acceptance of
commands, the placement of engine commands, and the synchronising commands.
-/

namespace Sys2Proof.Machine

/-! ## Doorbells (R379 to R383, R403) -/

def State.ringSize (s : State) (c r : Nat) : Nat := entriesOf (s.rd (ringPage c r) Reg.ringBase_LOG2N)

/-- Entries between an index and another, modulo the entry count (R383). -/
def ringSpan (size from' to' : Nat) : Nat := (to' + size - from' % size) % size

/-- A host write to a page of a channel is an input of the channel (R621). -/
def State.logWrite (s : State) (m : Master) (p : Page) (off v : Nat) : State :=
  match m, pageCh? p with
  | .host, some c => s.logTo c (domArith c) (.inReg (pageAddr p off / 4) v)
  | _, _ => s

/-- TAIL_WRITE (R383). -/
def execTailWrite (m : Master) (c : Ch) (r : RingId) (v : Word) (s : State) : Result :=
  live s <|
    let p := Page.door c r
    if !s.writable m p 0x100 then s
    else
      let s0 := s.logWrite m p 0x100 v.toNat
      let size := s.ringSize c r
      let tail := s.rd p Reg.ringTail_TAIL
      let new := v.toNat % 2 ^ 16
      let step := ringSpan size tail new
      let occupied := ringSpan size (s.rd p Reg.ringHead_HEAD) tail
      if s.flag (.ring c r) Reg.ringCtl_EN ∧ new < size ∧ 1 ≤ step ∧ step + occupied + 1 ≤ size then
        (s0.wr p Reg.ringTail_TAIL new).intoCh c (.tail r new)
      else (s0.bump p Reg.ringHead_BADTAIL).raise (.ring c r) 2

/-- RESUME (R382): STOPPED clears; a completion write that was aborted is made again (R437). -/
def execResume (m : Master) (c : Ch) (r : RingId) (v : Word) (s : State) : Result :=
  live s <|
    let p := Page.door c r
    if !s.writable m p 0x10c then s
    else
      let s0 := s.logWrite m p 0x10c v.toNat
      if v.toNat % 2 = 1 ∧ s.flag p Reg.ringHead_STOPPED then
        (s0.wr p Reg.ringHead_STOPPED 0).modRing c r fun q => { q with parked := false }
      else s0

/-- CPL_HEAD_WRITE (R381, R403). -/
def execCplHeadWrite (m : Master) (c : Ch) (r : RingId) (v : Word) (s : State) : Result :=
  live s <|
    let p := Page.door c r
    if !s.writable m p 0x108 then s
    else ((s.logWrite m p 0x108 v.toNat).wr p Reg.ringCplptr_CPL_HEAD v.toNat).showFull c r

/-! ## The fetcher (R384, R414) -/

/-- The fetcher may take a ring. Whether a whole command is there, and credits for all of it, it learns
from the first descriptor. -/
def State.mayFetch (s : State) (c r : Nat) : Bool :=
  let q := s.ringOf c r
  s.blk (ringPage c r) = blkOn && !s.flag (doorPage c r) Reg.ringHead_STOPPED
    && s.ctxRuns (s.ringCtx c r) && s.rd (doorPage c r) Reg.ringHead_HEAD ≠ q.tailSeen
    && 0 < q.credits && !s.fallbackHeld c r

/-- The first of sixteen rings from a turn on that satisfies a test. -/
def nextRing (turn : Nat) (ok : Nat → Bool) : Option Nat :=
  ((List.range 16).map fun i => (turn + i) % 16).find? ok

/-- FETCH_COMMAND (R384). -/
def execFetchCommand (c : Ch) (s : State) : Result :=
  live s <|
    let ok (r : Nat) : Bool := s.mayFetch c r && !(s.ringOf c r).fetching
    match s.chosen c 0x01 id ok (nextRing (s.chan c).fetchTurn ok) with
    | none => s
    | some r =>
      if !s.mapRuns c then s
      else if !s.mayRecord c then s.recordStall
      else
        ((s.modRing c r fun q => { q with fetching := true }).modChan c fun x => { x with
          fetchTurn := (r + 1) % 16 }).logDec c 0x01 r

/-- The address of an entry of a ring. -/
def State.entryVa (s : State) (c r i : Nat) : Nat :=
  s.rd (ringPage c r) Reg.ringBase_BASE * 4096 + 64 * (i % s.ringSize c r)

/-- Descriptors read one after the other, as far as their pages are reached. -/
def readEntries (a : MemAccess) (vas : List Nat) (s : State) (ext : List Byte) : State × ReadOut × List Nat :=
  vas.foldl (fun (acc : State × ReadOut × List Nat) va =>
    if !acc.2.1.done then acc
    else
      let r := acc.1.readVa { a with va := va } hbmData 64 acc.2.1.ext
      (r.1, r.2, acc.2.2 ++ [leNat r.2.bytes])) (s, { ext := ext }, [])

/-- A whole command enters the descriptor queue and HEAD passes it. -/
def State.takeCommand (s : State) (c r : Nat) (ds : List Nat) : State :=
  let head := s.rd (doorPage c r) Reg.ringHead_HEAD
  let h : HostCmd := { num := (s.chan c).nextCmd, ring := r, descs := ds }
  let s1 := s.modChan c fun x => { x with cmds := x.cmds ++ [h], nextCmd := x.nextCmd + 1 }
  let s2 := (s1.modRing c r fun q => { q with
    fetching := false, credits := q.credits - ds.length }).wr (doorPage c r) Reg.ringHead_HEAD
      ((head + ds.length) % s.ringSize c r)
  (s2.fallbackFetched c h).active (s.ringCtx c r)

/-- The access that fetches descriptors of a ring. -/
def State.fetchAccess (s : State) (c : Ch) (r : RingId) : MemAccess :=
  { req := .ringFetch c r, ctx := s.ringCtx c r, va := 0, write := false, info := { ring := some r } }

/-- A ring that is not fetched now. -/
def State.skipRing (s : State) (c r : Nat) : State := s.modRing c r fun q => { q with fetching := false }

/-- The command at HEAD is read, its header first (R384). -/
def State.fetchCommand (s : State) (c : Ch) (r : RingId) (ext : List Byte) : State :=
  match readEntries (s.fetchAccess c r) [s.entryVa c r (s.rd (.door c r) Reg.ringHead_HEAD)] s ext with
  | (s1, o, [d]) =>
    let head := s.rd (.door c r) Reg.ringHead_HEAD
    let q := s.ringOf c r
    let more := bitsOf d 8 2
    if !o.done then s1
    else if ringSpan (s.ringSize c r) head q.tailSeen < 1 + more ∨ q.credits < 1 + more then s.skipRing c r
    else
      match readEntries (s.fetchAccess c r) ((List.range more).map fun i => s.entryVa c r (head + 1 + i)) s1
        o.ext with
      | (s2, o2, ds) => if o2.done then s2.takeCommand c r (d :: ds) else s2
  | (s1, _, _) => s1

/-- DESCRIPTOR_READ_RETURN (R384, R385, R414). A ring that may no longer be fetched, that holds less than
a whole command, or that lacks credits for every entry of it, is skipped. A replay's target takes its
descriptors from the log (R636). -/
def execDescriptorReadReturn (c : Ch) (r : RingId) (ext : List Byte) (s : State) : Result :=
  live s <|
    if !(s.ringOf c r).fetching || !s.mapRuns c || s.replayOn c || s.stalled (.ringFetch c r) then s
    else if !s.mayFetch c r then s.skipRing c r
    else s.fetchCommand c r ext

/-! ## The head of a ring (R405, R409) -/

/-- The oldest command of a ring that the split has not finished with. -/
def Channel.head? (x : Channel) (r : Nat) : Option HostCmd :=
  x.cmds.find? fun h => h.ring = r && h.stage ≠ .running

/-- A ring is split: it is ON or STOPPING, not STOPPED, its context runs, and no completion record holds
it (R377, R380, R403, R415). -/
def State.splits (s : State) (c r : Nat) : Bool :=
  2 ≤ s.blk (ringPage c r) && !s.flag (doorPage c r) Reg.ringHead_STOPPED && s.ctxRuns (s.ringCtx c r)
    && !s.cplHolds c r && s.mapRuns c

/-- Commands of the ring ahead of a command have not all completed (R410). -/
def Channel.ahead (x : Channel) (h : HostCmd) : Bool := x.cmds.any fun g => g.ring = h.ring && g.num < h.num

/-! ## Engine commands (R389, R407) -/

/-- Trit address and first trit of a lodger chunk in its buffer (R362, R365). -/
def bufferBase (ds : List Nat) (b first : Nat) : Nat × Nat :=
  let byte := (rowTileBytes ds first 0).1
  (5 * (0x12000000 + b * 0x1000000),
    byte * (if hdWfmt ds = wtT2 then 5 else if hdWfmt ds = wtB1 then 8 else 4))

/-- The filled buffer that holds a chunk of a command. -/
def Channel.filled (x : Channel) (num chunk : Nat) : Option (Nat × LodgerBuf) :=
  x.buffers.find? fun b => b.2.num = num && b.2.chunk = chunk && !b.2.filling && b.2.again = none

/-- Engine command `i` of a command. -/
def State.engCmd (s : State) (c : Nat) (h : HostCmd) (i : Nat) : EngCmd :=
  let ds := h.descs
  let op := hdOp ds
  let pts := if op = opScan then ceilDiv (nNpos ds) 64 else if op = opArgmax then i + 1
    else (windowOf ds).tiles
  let one : Bool := op = opDrain || op = opCvu
  let rt := if one then 0 else i / pts
  let group (idx : Nat) : Group := Tab.get {} h.groups idx
  let chunk := chunkOf ds rt
  let buf := if isLodger ds then ((s.chan c).filled h.num chunk).map fun b =>
    (b.1, bufferBase ds b.1 b.2.first) else none
  let d := s.dlmOf c h |>.map s.dlmRec
  let k : EngCmd :=
    { uid := (s.chan c).nextUid, num := h.num, idx := i, ring := h.ring, ctx := hdCtx ds, op := op
      name := if hasTileBody op && op ≠ opCvu then hdTile ds + i else 0
      rt := rt, pt := if one then 0 else i % pts, descs := ds
      group := group (hdGidx ds)
      ogroup := group (if op = opScan then nOgroup ds else bOgroup ds)
      agroup := group (nAgroup ds), sgroup := group (nSgroup ds)
      wbase := buf.elim (bWsrc ds) (·.2.1), wskip := buf.elim 0 (·.2.2)
      buffer := buf.map fun b => (b.1, chunk)
      diverted := d.elim false fun d => d.diverting && d.fbring = h.ring }
  { k with cost := costOf k }

/-- The engine that a tile name is placed on: it holds the tile or its sealed image, or an engine command
in flight names it (R177). -/
def State.placement (s : State) (c ctx name : Nat) : Option Nat :=
  let x := s.chan c
  let names (k : EngCmd) : Bool := k.ctx = ctx && k.name = name && hasTileBody k.op
  ((List.range 72).find? fun e =>
    let g := x.engine e
    (g.slotOf ctx name).isSome || (g.incoming.any fun t => t.ctx = ctx && t.name = name)
      || g.queue.any names || g.runs.any fun r => names r.cmd).or
    ((x.tileImages.find? fun i => i.ctx = ctx && i.name = name).map (·.engine))

/-- The slots that are eligible for a name without placement (R407, R162, R569). -/
def State.eligible (s : State) (c : Nat) (k : EngCmd) : List Nat :=
  let top := if hdGuard k.descs && (s.ctxRec k.ctx).guard && hasTileBody k.op && k.op ≠ opDrain then 8 else 64
  (List.range top).filter fun e =>
    (s.gait c ≠ gWalk || e % 2 = 0) && s.blk (engPage c e) = blkOn && s.siteIn c e ≠ 0x7f

def State.chooseSlot (s : State) (c : Nat) (k : EngCmd) : Option Nat :=
  let held := if hasTileBody k.op then s.placement c k.ctx k.name else none
  let any := s.eligible c k
  s.chosen c 0x03 (· % 2 ^ 8) (fun e => held = some e || (held = none && any.contains e))
    (held.or (s.mostCredits c any))

/-- An engine command, or the work of a unit, has been placed. -/
def State.notePlaced (s : State) (c : Nat) (h : HostCmd) (k : EngCmd) (slot : Nat) : State :=
  let s1 := (s.modCmd c h.num fun h => { h with
    next := h.next + 1
    ecs := h.ecs ++ [{ idx := k.idx, slot := slot, tile := if slot = 0x7f then 0 else k.name }] }).modChan c
      fun x => { x with nextUid := x.nextUid + 1 }
  let s2 := (s1.modRing c h.ring fun q => { q with creditHeld := false }).active k.ctx
  let s3 := s2.stepBegin c h
  (if h.next + 1 = h.total then s3.pastSplit c h else s3).stepPlaced c h k

/-- The next engine command of a command is placed, if it can be (R365, R407, R408, R294). -/
def State.placeNext (s : State) (c : Nat) (h : HostCmd) : State × Bool :=
  let k := s.engCmd c h h.next
  if k.op = opCvu then
    if (s.chan c).cvu.queue.length < 8 then
      ((s.modCvu c fun u => { u with queue := u.queue ++ [{ cmd := k }] }).notePlaced c h k 0x7f, true)
    else (s, false)
  else if isLodger h.descs && k.buffer = none then (s, false)
  else
    match s.chooseSlot c k with
    | none => (s, false)
    | some e =>
      if (s.engine c e).credit.held = 0 then
        (s.modRing c h.ring fun q => { q with creditHeld := true }, false)
      else
        let s1 := (s.modEngine c e fun g => { g.enqueue k with
          credit := { g.credit with held := g.credit.held - 1 } }).logDec c 0x03 (e + k.name * 2 ^ 8)
        let elided := ((s1.engine c e).queue.getLast?.map (·.elided)).getD 0
        let s2 := (s1.notePlaced c h k e).bump (engPage c e) Reg.engAgCnt_ELIDED elided
        (if k.op = opScan then s2.stateMap c else s2, true)

/-- The command's engine commands are placed in turns of the split. -/
def HostCmd.placing (h : HostCmd) : Bool :=
  h.stage = .splitting && (hasTileBody (hdOp h.descs) || hdOp h.descs = opScan || hdOp h.descs = opArgmax)

/-- A ring's turn: at most `fuel` engine commands from its oldest commands (R405, R408). -/
def State.turn (c r : Nat) : (fuel : Nat) → State × Nat → State × Nat
  | 0, sn => sn
  | fuel + 1, (s, n) =>
    match (s.chan c).head? r with
    | none => (s, n)
    | some h =>
      if !h.placing then (s, n)
      else
        match s.placeNext c h with
        | (s1, true) => State.turn c r fuel (s1, n + 1)
        | (s1, false) => (s1, n)

/-- SPLIT_TURN (R405, R406): the next ring in rotation whose oldest command has engine commands to place,
or names no opcode. -/
def execSplitTurn (c : Ch) (s : State) : Result :=
  live s <|
    let due (h : HostCmd) : Bool := h.placing || (h.stage = .queued && !knownOps.contains (hdOp h.descs))
    let ok (r : Nat) : Bool := s.splits c r && ((s.chan c).head? r).any due
    let own := nextRing (s.chan c).splitTurn ok
    let recorded := s.recordedTurn
    let next := if s.replayOn c then (recorded.map (·.1)).filter ok else own
    let quantum := max 1 (s.rd (.grm c) Reg.grmSplitCfg_QUANTUM)
    match next with
    | none => s
    | some r =>
      if !s.mayRecord c then s.recordStall
      else
        let s0 := s.modChan c fun x => { x with splitTurn := (r + 1) % 16 }
        match (s.chan c).head? r with
        | none => s
        | some h =>
          if h.placing then
            let fuel := if s.replayOn c then recorded.elim quantum (·.2) else quantum
            let (s1, n) := State.turn c r fuel (s0, 0)
            s1.logDec c 0x02 (r + n * 2 ^ 8)
          else s0.finish c h stBadOpcode

/-! ## Acceptance -/

/-- A tile, SCAN, ARGMAX or CVU command is accepted: it waits for its turns. -/
def State.acceptSplit (s : State) (c : Nat) (h : HostCmd) : State :=
  let n := splitCount h.descs
  let s1 := s.modCmd c h.num fun h => { h with stage := .splitting, total := n }
  if n = 0 then (s1.stepBegin c h).pastSplit c h
  else if isLodger h.descs then s1.modChan c fun x => { x with lodgers := x.lodgers ++ [h.num] }
  else s1

/-- A LOAD_W or COPY goes to the copy unit (R398). -/
def State.acceptCopy (s : State) (c : Nat) (h : HostCmd) : State :=
  let s1 := s.modCmd c h.num fun h => { h with stage := .splitting, total := 1 }
  let k := s.engCmd c h 0
  (s1.modChan c fun x => { x with copies := x.copies ++ [{ cmd := k }] }).notePlaced c { h with total := 1 } k 0x7f

/-- A FORK sets its children to FORKING and goes to the state map unit (R323, R325). -/
def State.acceptFork (s : State) (c : Nat) (h : HostCmd) : State :=
  let s1 := s.modCmd c h.num fun h => { h with stage := .splitting, total := 1 }
  let k := s.engCmd c h 0
  let s2 := h.children.foldl (fun s v => s.modStream (childStream v) fun r => { r with state := strmForking }) s1
  (s2.modChan c fun x => { x with forks := x.forks ++
    [{ num := h.num, parent := hdStream h.descs
       children := h.children.map fun v => (childStream v, childVa v) }] }).notePlaced c { h with total := 1 } k 0x7f

/-- The command has passed every check. -/
def State.accept (s : State) (c : Nat) (h : HostCmd) : State :=
  let op := hdOp h.descs
  if op = opLoadW ∨ op = opCopy then s.acceptCopy c h
  else if op = opFork then s.acceptFork c h
  else s.acceptSplit c h

/-- A command is rejected at split (R387, R351). -/
def State.rejectCmd (s : State) (c : Ch) (h : HostCmd) (st : Nat) : State :=
  let s1 := if st = stStallRange then (s.bump (.wst c) Reg.wstCnt_RANGE_REJ).raise (.wst c) 0 else s
  s1.finish c h st

/-- The checks of a command that is at the head of its ring; what passes them goes on to `next`. -/
def State.check (s : State) (c : Ch) (h : HostCmd) (next : State → State) : State :=
  if s.divertedAway c h then s.finish c h stOk
  else
    match s.splitChecks c h with
    | .wait => s
    | .reject st => s.rejectCmd c h st
    | .accept => next s

/-- The head of a ring, where it is a command of an opcode and the ring is split. -/
def State.splitHead (s : State) (c : Ch) (r : RingId) (op : Nat) (act : HostCmd → State) : State :=
  match (s.chan c).head? r with
  | none => s
  | some h =>
    if hdOp h.descs ≠ op || !s.splits c r then s
    else if !s.mayRecord c then s.recordStall
    else act h

/-- A command with engine commands, or for a unit, is checked and accepted, or begins its translated
reads (R387, R389, R666). -/
def State.splitCommand (s : State) (c : Ch) (r : RingId) (op : Nat) : State :=
  s.splitHead c r op fun h =>
    if h.stage ≠ .queued then s
    else s.check c h fun s =>
      if readCount h.descs = 0 then s.accept c h
      else s.modCmd c h.num fun h => { h with stage := .reading 0 }

/-- MATMUL (R389). -/
def execMatmul (c : Ch) (r : RingId) (s : State) : Result := live s <| s.splitCommand c r opMatmul
/-- CONV (R264). -/
def execConv (c : Ch) (r : RingId) (s : State) : Result := live s <| s.splitCommand c r opConv
/-- DWCONV (R276). -/
def execDwconv (c : Ch) (r : RingId) (s : State) : Result := live s <| s.splitCommand c r opDwconv
/-- POOL (R279). -/
def execPool (c : Ch) (r : RingId) (s : State) : Result := live s <| s.splitCommand c r opPool
/-- SCAN (R315). -/
def execScan (c : Ch) (r : RingId) (s : State) : Result := live s <| s.splitCommand c r opScan
/-- STATS (R218). -/
def execStats (c : Ch) (r : RingId) (s : State) : Result := live s <| s.splitCommand c r opStats
/-- ARGMAX (R399). -/
def execArgmax (c : Ch) (r : RingId) (s : State) : Result := live s <| s.splitCommand c r opArgmax
/-- REGROUP (R275). -/
def execRegroup (c : Ch) (r : RingId) (s : State) : Result := live s <| s.splitCommand c r opRegroup
/-- FORK (R325). -/
def execFork (c : Ch) (r : RingId) (s : State) : Result := live s <| s.splitCommand c r opFork
/-- LOAD_W (R398). -/
def execLoadW (c : Ch) (r : RingId) (s : State) : Result := live s <| s.splitCommand c r opLoadW
/-- DRAIN (R397). -/
def execDrain (c : Ch) (r : RingId) (s : State) : Result := live s <| s.splitCommand c r opDrain
/-- COPY (R398). -/
def execCopy (c : Ch) (r : RingId) (s : State) : Result := live s <| s.splitCommand c r opCopy
/-- CVU (R292). -/
def execCvu (c : Ch) (r : RingId) (s : State) : Result := live s <| s.splitCommand c r opCvu

/-! ## The translated reads of the split (R54, R323, R666) -/

def splitAccess (c : Ch) (r : RingId) (h : HostCmd) (va : Nat) : MemAccess :=
  { req := .splitRead c r, ctx := hdCtx h.descs, va := va, write := false
    info := { ring := some r, cmdid := some (hdCmdid h.descs), num := some h.num
              stream := if namesStream h.descs then some (hdStream h.descs) else none } }

/-- SPLIT_READ_RETURN: the next group entry, or the child records of a FORK. -/
def execSplitReadReturn (c : Ch) (r : RingId) (ext : List Byte) (s : State) : Result :=
  live s <|
    match (s.chan c).head? r with
    | none => s
    | some h =>
      match h.stage with
      | .queued | .splitting | .running => s
      | .reading n =>
        if !s.splits c r || s.stalled (.splitRead c r) then s
        else if !s.mayRecord c then s.recordStall
        else
          match (namedGroups h.descs)[n]? with
          | some idx =>
            match s.readVa (splitAccess c r h ((s.ctxRec (hdCtx h.descs)).gdtVa + 8 * idx)) hbmData 8 ext with
            | (s1, o) =>
              if !o.done then s1
              else
                match parseGroup (leNat o.bytes) with
                | none => s1.rejectCmd c h stBadGroup
                | some g =>
                  let h' := { h with groups := Tab.set h.groups idx g, stage := .reading (n + 1) }
                  let s2 := s1.modCmd c h.num fun _ => h'
                  if n + 1 = readCount h.descs then s2.accept c h' else s2
          | none =>
            let n := hd h.descs 128 6
            match s.readVa (splitAccess c r h (hd h.descs 176 48)) hbmData (8 * n) ext with
            | (s1, o) =>
              if !o.done then s1
              else
                let read := childRecords o.bytes n
                let rs := if s.replayOn c then read.map fun v => v / 1024 * 1024 + s.shiftStream (v % 1024) else read
                match s1.childChecks (hdStream h.descs) rs with
                | some st => s1.rejectCmd c h st
                | none =>
                  let h' := { h with children := rs }
                  (s1.modCmd c h.num fun _ => h').accept c h'

/-! ## FENCE, SIGNAL and WAIT (R410 to R413) -/

/-- A synchronising command reaches the head of its ring; once there, it acts. -/
def State.syncHead (s : State) (c : Ch) (r : RingId) (op : Nat) (act : HostCmd → State → State) : State :=
  s.splitHead c r op fun h =>
    if h.stage = .queued then
      s.check c h fun s =>
        let h' := { h with stage := .splitting, since := s.cyc (domArith c) }
        act h' (((s.modCmd c h.num fun _ => h').stepBegin c h').active (hdCtx h.descs))
    else act h s

/-- FENCE (R410): it completes once every command ahead of it on its ring has. -/
def execFence (c : Ch) (r : RingId) (s : State) : Result :=
  live s <| s.syncHead c r opFence fun h s => if (s.chan c).ahead h then s else s.finish c h stOk

/-- SIGNAL (R411, R485): its write is issued once every command ahead of it has completed. -/
def execSignal (c : Ch) (r : RingId) (s : State) : Result :=
  live s <| s.syncHead c r opSignal fun h s =>
    if (s.chan c).ahead h || s.signalHeld c h then s
    else s.modRing c r fun q => { q with sync := .signalling }

/-- WAIT (R412): its word is read as it reaches the head of its ring. -/
def execWait (c : Ch) (r : RingId) (s : State) : Result :=
  live s <| s.syncHead c r opWait fun _ s => s.modRing c r fun q =>
    if q.sync = .idle then { q with sync := .waiting true } else q

def syncAccess (c : Ch) (r : RingId) (h : HostCmd) (write : Bool) : MemAccess :=
  { req := .sync c r, ctx := hdCtx h.descs, va := hd h.descs 128 48, write := write
    info := { ring := some r, cmdid := some (hdCmdid h.descs), num := some h.num } }

/-- WAITs of the channel on a word that a SIGNAL has written read it again (R412). -/
def State.rereads (s : State) (c : Nat) (t : Target × Nat) : State :=
  (List.range 16).foldl (fun s r => s.modRing c r fun q =>
    match q.sync with
    | .waiting _ => if q.word = some t then { q with sync := .waiting true } else q
    | .idle | .signalling => q) s

/-- The synchronising command that a ring's head is executing. -/
def State.syncing (s : State) (c : Ch) (r : RingId) : Option HostCmd :=
  ((s.chan c).head? r).filter fun h => h.stage = .splitting && s.ctxRuns (hdCtx h.descs) && s.mapRuns c

/-- SIGNAL_WRITE_ACCEPTED (R411, R412): the word is written, or added to where it does not lie in host
memory, and the SIGNAL completes. -/
def execSignalWriteAccepted (c : Ch) (r : RingId) (s : State) : Result :=
  live s <|
    match s.syncing c r, (s.ringOf c r).sync with
    | some h, .signalling =>
      if s.stalled (.sync c r) then s
      else if !s.mayRecord c then s.recordStall
      else
        let add : Bool := hd h.descs 176 1 = 1
        let v := hd h.descs 192 64
        let finish (s : State) (st : Nat) : State :=
          (s.modRing c r fun q => { q with sync := .idle }).finish c h st
        match s.reach (syncAccess c r h true) with
        | (s1, none) => s1
        | (s1, some (.host, addr)) =>
          if add then finish s1 stBadArg
          else finish ((s1.emit (.hostWrite addr (leBytes 8 v))).rereads c (.host, addr)) stOk
        | (s1, some (t, addr)) =>
          let old := if add then leNat ((s1.mem t).readBytes addr 8) else 0
          let s2 := if add then s1.countHbm (some c) t hbmData 8 else s1
          let s3 := (s2.countHbm (some c) t hbmData 8).modMem t fun m => m.put addr (leBytes 8 (old + v))
          finish (s3.rereads c (t, addr)) stOk
    | _, _ => s

/-- The WAIT at the head of a ring whose word is being read, or waits for its next read. -/
def State.waitingAt (s : State) (c : Ch) (r : RingId) : Option (HostCmd × Bool) :=
  match s.syncing c r, (s.ringOf c r).sync with
  | some h, .waiting b => some (h, b)
  | _, _ => none

/-- WAIT_POLL_EXPIRY (R412): the word is read again. -/
def execWaitPollExpiry (c : Ch) (r : RingId) (s : State) : Result :=
  live s <|
    match s.waitingAt c r with
    | some (_, false) => s.modRing c r fun q => { q with sync := .waiting true }
    | _ => s

/-- WAIT_READ_RETURN (R412): the WAIT completes where the word meets its operand. -/
def execWaitReadReturn (c : Ch) (r : RingId) (ext : List Byte) (s : State) : Result :=
  live s <|
    match s.waitingAt c r with
    | some (h, true) =>
      let a := syncAccess c r h false
      if s.stalled (.sync c r) then s
      else if !s.mayRecord c then s.recordStall
      else
        match s.reach a with
        | (_, none) => (s.reach a).1
        | (_, some t) =>
          match s.readVa a hbmData 8 ext with
          | (s1, o) =>
            if !o.done then s1
            else
              let v := leNat o.bytes
              let limit := hd h.descs 192 64
              let met : Bool := if hd h.descs 176 1 = 1 then v = limit else limit ≤ v
              if met then (s1.modRing c r fun q => { q with sync := .idle, word := none }).finish c h stOk
              else s1.modRing c r fun q => { q with sync := .waiting false, word := some t }
    | _ => s

/-- A WAIT times out (R413): it completes, a stalled read of it is abandoned with its fault, and the ring is
STOPPED. -/
def State.waitEnds (s : State) (c : Ch) (r : RingId) (h : HostCmd) : State :=
  ((((s.forgetAccesses fun a => a.req = .sync c r).modRing c r fun q =>
    { q with sync := .idle, word := none }).logOut c 0x06 r).finish c h stWaitTimeout).stopRing c r

/-- WAIT_TIMEOUT (R413). The live timer does not act in a replay (R637). -/
def execWaitTimeout (c : Ch) (r : RingId) (s : State) : Result :=
  live s <|
    match s.waitingAt c r with
    | some (h, _) =>
      if hd h.descs 256 16 = 0 || s.replayOn c then s
      else if !s.mayRecord c then s.recordStall
      else s.waitEnds c r h
    | none => s

end Sys2Proof.Machine
end

