-- ==== Sys2Proof/Machine/Copies.lean ====
section
/-!
DEFINITION. The copy unit (R45, R398) and the staging buffers of lodger commands (R362 to R368).
-/

namespace Sys2Proof.Machine

/-! ## The copy unit -/

def copyAccess (c : Ch) (k : EngCmd) (va : Nat) (write : Bool) : MemAccess :=
  { req := .copy c, ctx := k.ctx, va := va, write := write
    info := { ring := some k.ring, cmdid := some (hdCmdid k.descs), num := some k.num } }

/-- The destination takes bytes: the number of bytes taken, and whether all were. -/
def State.copyWrite (s : State) (c : Ch) (r : CopyRun) (bs : List Byte) : State × Nat × Bool :=
  let d := r.cmd.descs
  if r.cmd.op = opLoadW then
    (s.modChan c fun x => { x with stall := x.stall.put (hd d 176 29 + r.moved) bs }, bs.length, true)
  else s.writeVa (copyAccess c r.cmd (hd d 176 48 + r.moved) true) hbmData bs

/-- What ends a copy's advance. -/
inductive CopyEnd where
  | done | waits | poisoned
  deriving DecidableEq, Repr

/-- The copy moves on, at most one page of its source at a time. A T2 byte above 242 is written as
received (R45). -/
def State.copyOn (c : Ch) : (fuel : Nat) → State → CopyRun → List Byte → State × CopyRun × CopyEnd
  | 0, s, r, _ => (s, r, .waits)
  | fuel + 1, s, r, ext =>
    let d := r.cmd.descs
    let len := hd d 224 32
    if len ≤ r.moved then (s, r, .done)
    else
      let va := hd d 128 48 + r.moved
      let n := min (len - r.moved) (4096 - va % 4096)
      let weight : Bool := r.cmd.op = opLoadW
      match s.readVa (copyAccess c r.cmd va false) (if weight then hbmWeight else hbmData) n ext with
      | (s1, o) =>
        if !o.done then (s1, r, .waits)
        else if o.poisoned then (s1, r, .poisoned)
        else
          match s1.copyWrite c r o.bytes with
          | (s2, k, all) =>
            let bad : Bool := weight && hdWfmt d = wtT2 && (o.bytes.take k).any fun b => 243 ≤ b.toNat
            let r' := { r with moved := r.moved + k, bad := r.bad || bad }
            if all then State.copyOn c fuel s2 r' o.ext else (s2, r', .waits)

/-- The first command of the copy unit whose context runs: one at a time, in split order. -/
def State.copyHead (s : State) (c : Nat) : Option CopyRun :=
  (s.chan c).copies.find? fun r => s.ctxRuns r.cmd.ctx

/-- A command leaves the copy unit with a status. -/
def State.copyEnd (s : State) (c : Nat) (k : EngCmd) (status : Nat) : State :=
  (s.modChan c fun x => { x with copies := x.copies.filter fun r => r.cmd.uid ≠ k.uid }).ecDone c k status

/-- COPY_UNIT_COMPLETE (R398, R400): the command at the front of the copy unit moves its bytes. -/
def execCopyUnitComplete (c : Ch) (ext : List Byte) (s : State) : Result :=
  live s <|
    match s.copyHead c with
    | none => s
    | some r =>
      if !s.mapRuns c || s.stalled (.copy c) then s
      else if !s.mayRecord c then s.recordStall
      else
        let k := r.cmd
        match State.copyOn c (hd k.descs 224 32 / 4096 + 2) (s.active k.ctx) r ext with
        | (s1, _, .poisoned) => (s1.copyEnd c k stTileLost).metPoison c consumerCopy 0
        | (s1, r', .done) =>
          if r'.bad then (s1.copyEnd c k stBadPack).raise (.wst c) 1 else s1.copyEnd c k stOk
        | (s1, r', .waits) => s1.modChan c fun x => { x with
            copies := x.copies.map fun q => if q.cmd.uid = k.uid then r' else q }

/-! ## Staging buffers (R365, R366) -/

/-- An engine holds a command that satisfies a test, in its queue or in progress. -/
def Channel.anyCmd (x : Channel) (p : Nat → EngCmd → Bool) : Bool :=
  x.engines.any fun (g : Nat × Engine) => g.2.queue.any (p g.1) || g.2.runs.any fun r => p g.1 r.cmd

/-- Engine commands of a chunk that an engine still holds, or that wait for the chunk to be filled again. -/
def Channel.chunkHeld (x : Channel) (num chunk : Nat) (p : EngCmd → Bool) : Bool :=
  let mine (k : EngCmd) : Bool := k.num = num && !k.again && (k.buffer.any fun b => b.2 = chunk) && p k
  (x.anyCmd fun _ k => mine k) || x.lodgerHeld.any fun k => mine k.2

/-- Engine commands of the row tiles before `rt` of a command. -/
def beforeRow (h : HostCmd) (rt : Nat) : Nat := rt * (windowOf h.descs).tiles

/-- A buffer is free: nothing was filled into it, or every tile of its chunk has completed (R365). -/
def Channel.bufferFree (x : Channel) (b : Nat) : Bool :=
  match x.buffers.find? fun q => q.1 = b with
  | none => true
  | some (_, q) =>
    !q.filling &&
    match q.again with
    | some (e, uid) => !(x.anyCmd fun e' k => e' = e && k.uid = uid)
    | none =>
      ((x.cmd? q.num).elim true fun h => h.stage = .running || beforeRow h (q.first + q.rows) ≤ h.next)
        && !x.chunkHeld q.num q.chunk fun _ => true

/-- A repeated command whose row tile is to be fetched again (R366). -/
def State.refetch? (s : State) (c : Nat) : Option (Nat × EngCmd) :=
  let x := s.chan c
  (x.engines.flatMap fun (g : Nat × Engine) => ((g.2.runs.map (·.cmd) ++ g.2.queue).filter fun k =>
    k.again && k.refetch && s.ctxRuns k.ctx
      && !(x.buffers.any fun b => b.2.again = some (g.1, k.uid))).map fun k => (g.1, k)).head?

/-- The first chunk of the lodger commands, in split order, that is wanted and neither filled nor being
filled. -/
def State.nextChunk (s : State) (c : Nat) : Option (HostCmd × Nat × Nat × Nat) :=
  let x := s.chan c
  let hs := x.lodgers.filterMap x.cmd?
  (hs.flatMap fun h =>
    if !s.ctxRuns (hdCtx h.descs) then []
    else ((chunksOf h.descs).zipIdx.filter fun k =>
      !h.chunks.contains k.2
        && !(x.buffers.any fun b => b.2.num = h.num && b.2.chunk = k.2 && b.2.again = none && b.2.filling)
        && (h.next < beforeRow h (k.1.1 + k.1.2) || x.chunkHeld h.num k.2 (·.refetch))).map fun k =>
          (h, k.2, k.1.1, k.1.2)).head?

def bufFld (b : Nat) : Fld := if b = 0 then Reg.wstStat_BUF0 else Reg.wstStat_BUF1
def bufCtxFld (b : Nat) : Fld := if b = 0 then Reg.wstStat_BUF0_CTX else Reg.wstStat_BUF1_CTX

def State.startFill (s : State) (c : Nat) (b : Nat) (q : LodgerBuf) : State :=
  ((s.modChan c fun x =>
    { x with buffers := Tab.set x.buffers b q, lastBuffer := if q.again.isNone then b else x.lastBuffer }).wr
    (.wst (Fin.ofNat 4 c)) (bufFld b) 1).wr (.wst (Fin.ofNat 4 c)) (bufCtxFld b) q.ctx

/-- LODGER_FILL_START (R365, R366, R368): a free buffer takes the row tile of a repeated command, or else the buffer
that did not fill last, once it is free, takes the next chunk. -/
def execLodgerFillStart (c : Ch) (s : State) : Result :=
  live s <|
    let x := s.chan c
    let b := 1 - x.lastBuffer
    if !s.mapRuns c then s
    else
      match s.refetch? c, [b, 1 - b].find? x.bufferFree with
      | some (e, k), some f => s.startFill c f
          { num := k.num, chunk := chunkOf k.descs k.rt, first := k.rt, rows := 1, ctx := k.ctx
            again := some (e, k.uid) }
      | some _, none => s
      | none, _ =>
        match s.nextChunk c with
        | some (h, j, first, rows) =>
          if x.bufferFree b then s.startFill c b
            { num := h.num, chunk := j, first := first, rows := rows, ctx := hdCtx h.descs }
          else s
        | none => s

/-- The descriptors that a buffer's fill serves. -/
def Channel.fillDescs (x : Channel) (q : LodgerBuf) : Option (List Nat) :=
  match q.again with
  | none => (x.cmd? q.num).map (·.descs)
  | some (e, uid) => ((x.engine e).cmdOf uid).map (·.descs)

/-- A filled buffer is what the commands that wait for it read (R365). -/
def filledFor (b : Nat) (q : LodgerBuf) (e : Nat) (k : EngCmd) : EngCmd :=
  let mine : Bool :=
    match q.again with
    | some a => a = (e, k.uid)
    | none => k.num = q.num && !k.again && k.refetch && k.buffer.any fun x => x.2 = q.chunk
  let base := bufferBase k.descs b q.first
  if mine then { k with refetch := false, buffer := some (b, q.chunk), wbase := base.1, wskip := base.2 } else k

/-- A restored command returns to its engine's queue, in front of the commands that were split after it; the
restore has kept an entry for it. -/
def Engine.putHeld (g : Engine) (k : EngCmd) : Engine :=
  let earlier (q : EngCmd) : Bool := q.again || q.num < k.num || (q.num = k.num && q.idx < k.idx)
  ({ g with queue := g.queue.takeWhile earlier ++ k :: g.queue.dropWhile earlier } : Engine).follow

/-- Restored commands whose chunk is filled are placed (R365, R368). -/
def State.placeHeld (s : State) (c : Nat) : State :=
  let x := s.chan c
  let s1 := s.modChan c fun x => { x with lodgerHeld := x.lodgerHeld.filter (·.2.refetch) }
  (x.lodgerHeld.filter fun k => !k.2.refetch).foldl (fun s k => s.modEngine c k.1 fun g => g.putHeld k.2) s1

/-- Restored commands of a channel that wait for their chunk are let go; the entries kept for them are free. -/
def State.dropHeld (s : State) (c : Nat) (gone : EngCmd → Bool) : State :=
  let held := (s.chan c).lodgerHeld
  let s1 := s.modChan c fun x => { x with lodgerHeld := x.lodgerHeld.filter fun k => !gone k.2 }
  (held.filter fun k => gone k.2).foldl (fun s k => s.freeEntry c k.1 k.2) s1

def State.useFilled (s : State) (c b : Nat) (q : LodgerBuf) : State :=
  let s1 := (s.modChan c fun x => { x with
    buffers := Tab.set x.buffers b { q with filling := false }
    lodgerHeld := x.lodgerHeld.map fun k => (k.1, filledFor b q k.1 k.2)
    engines := x.engines.map fun (g : Nat × Engine) => (g.1, { g.2 with
      queue := g.2.queue.map (filledFor b q g.1)
      runs := g.2.runs.map fun r => { r with cmd := filledFor b q g.1 r.cmd } }) }).placeHeld c
  if q.again.isSome then s1.bump (.wst (Fin.ofNat 4 c)) Reg.wstCnt_REFETCH
  else
    let again : Bool := ((s.chan c).cmd? q.num).any fun h => h.lost.contains q.chunk
    let s2 := s1.modCmd c q.num fun h => { h with chunks := h.chunks ++ [q.chunk], lost := h.lost.erase q.chunk }
    if again then s2.bump (.wst (Fin.ofNat 4 c)) Reg.wstCnt_REFETCH else s2

/-- Words of a store become poisoned (R585). -/
def Memory.taint (m : Memory) (lo hi : Nat) : Memory :=
  { m with poison := m.poison ++ (List.range ((hi - lo + 127) / 128)).map fun i => lo + 128 * i }

/-- LODGER_FILL_COMPLETE (R365, R368): the chunk's bytes are in the stall; its tile commands may be
placed. -/
def execLodgerFillComplete (c : Ch) (buf : Fin 2) (ext : List Byte) (s : State) : Result :=
  live s <|
    match ((s.chan c).buffers.find? fun q => q.1 = buf.val && q.2.filling).map (·.2) with
    | none => s
    | some q =>
      if !s.mapRuns c || !s.ctxRuns q.ctx || s.stalled (.lodger c buf) then s
      else if !s.mayRecord c then s.recordStall
      else
        match (s.chan c).fillDescs q with
        | none => (s.modChan c fun x => { x with buffers := Tab.erase x.buffers buf }).wr (.wst c) (bufFld buf) 0
        | some ds =>
          let b := rowTileBytes ds q.first q.rows
          let a : MemAccess :=
            { req := .lodger c buf, ctx := q.ctx, va := bWsrc ds + b.1, write := false
              info := { ring := ((s.chan c).cmd? q.num).map (·.ring), cmdid := some (hdCmdid ds), num := some q.num } }
          match s.readOn a hbmWeight (b.2 - b.1) q.moved ext with
          | (s1, o) =>
            if !o.done then s1.modChan c fun x =>
              { x with buffers := Tab.set x.buffers buf { q with moved := o.moved } }
            else
              let at' := 0x12000000 + buf * 0x1000000
              let s2 := s1.modChan c fun x =>
                let m := x.stall.put at' o.bytes
                { x with stall := if o.poisoned then m.taint at' (at' + o.bytes.length) else m }
              ((s2.useFilled c buf { q with moved := {} }).wr (.wst c) (bufFld buf) 2).bump (.wst c) Reg.wstCnt_FILLS

end Sys2Proof.Machine
end

