-- ==== Sys2Proof/Machine/Contexts.lean ====
section
/-!
DEFINITION. Contexts (chapter 14): the context records with their window operations, saves and
restores, the reset of a context, blocked contexts, and the rule for the relief slot.
-/

namespace Sys2Proof.Machine

/-! ## Records (R449) -/

def ctxNone : Nat := 0
def ctxAway : Nat := 1
def ctxResident : Nat := 2
def ctxMoving : Nat := 3

/-- The 32 bytes of a record, as a number. -/
def CtxRec.encode (x : CtxRec) : Nat :=
  x.state % 4 + bit x.guard * 2 ^ 2 + x.prio % 4 * 2 ^ 3 + bit x.image * 2 ^ 5 + x.slot % 8 * 2 ^ 8
    + x.saveMb % 2 ^ 10 * 2 ^ 16 + x.gen % 2 ^ 32 * 2 ^ 32 + x.gdtVa % 2 ^ 48 * 2 ^ 64
    + x.saveVa % 2 ^ 48 * 2 ^ 128

/-- A record with the RW fields that the data words hold. -/
def CtxRec.take (x : CtxRec) (v : Nat) : CtxRec :=
  { x with
    guard := bitsOf v 2 1 = 1, prio := bitsOf v 3 2, saveMb := bitsOf v 16 10
    gdtVa := bitsOf v 64 48, saveVa := bitsOf v 128 48 }

/-- BAD_ARG of ADMIT and UPDATE (R452): SAVE_MB out of range, an address misaligned, or a reserved bit
set. -/
def badCtxArg (v : Nat) : Bool :=
  bitsOf v 16 10 < 64 || bitsOf v 64 48 % 2 ^ 11 ≠ 0 || bitsOf v 128 48 % 2 ^ 21 ≠ 0
    || bitsOf v 6 2 + bitsOf v 11 5 + bitsOf v 26 6 + bitsOf v 112 16 + bitsOf v 176 80 ≠ 0

/-! ## Slots (R456, R457) -/

def slotFree : Nat := 0
def slotLoading : Nat := 1
def slotResident : Nat := 2
def slotSaving : Nat := 3
def slotPaused : Nat := 4

def State.slotState (s : State) (i : Nat) : Nat := s.rd .ctx (Reg.ctxSlot_STATE i)
def State.slotCtx (s : State) (i : Nat) : Nat := s.rd .ctx (Reg.ctxSlot_CTX i)
def State.ctxSlotOf (s : State) (i : Nat) : CtxSlot := Tab.get {} s.ctxSlots i
def State.modSlotRec (s : State) (i : Nat) (f : CtxSlot → CtxSlot) : State :=
  { s with ctxSlots := Tab.set s.ctxSlots i (f (s.ctxSlotOf i)) }

/-- The slot is the relief slot, with RELIEF_EN at 1. -/
def State.isRelief (s : State) (i : Nat) : Bool :=
  s.flag .ctx Reg.ctxCfg_RELIEF_EN && s.rd .ctx Reg.ctxCfg_RELIEF_SLOT = i

def State.blocked (s : State) (i : Nat) : Bool := s.flag .ctx (Reg.ctxSlot_BLOCKED i)

/-- CAUSE of a blocked slot (R465): the first cause that applies. -/
def State.causeOf (s : State) (ctx : Nat) : Nat :=
  let r := s.ctxRec ctx
  let own := (s.xlat.faults ++ s.xlat.overflow).filter fun f => f.access.ctx = ctx
  let inArea (f : FaultEntry) : Bool :=
    r.saveVa ≤ f.access.va && f.access.va < r.saveVa + 4 * r.saveMb * 2 ^ 20
  let any (p : Nat → Channel → Bool) : Bool := (List.range 4).any fun c => p c (s.chan c)
  let remote : Bool := any fun _ x => x.engines.any fun (g : Nat × Engine) =>
    g.2.slots.any fun t => t.2.ctx = ctx && t.2.state = .filling && t.2.await.isSome
  let waits : Bool := any fun c x => (List.range 16).any fun r =>
    s.ringCtx c r = ctx && (match (x.ring r).sync with | .waiting _ => true | .idle | .signalling => false)
  let pages : Bool := any fun _ x => (x.paddock.any fun p => p.2.cmd.ctx = ctx)
    || x.engines.any fun (g : Nat × Engine) =>
      g.2.queue.head?.any fun k => k.op = opScan && k.ctx = ctx && !x.pinned k
  if own.any inArea then 5
  else if !own.isEmpty then 4
  else if remote then 2
  else if waits then 1
  else if pages then 3
  else 0

/-- CAUSE of a slot. -/
def State.slotCause (s : State) (i : Nat) : Nat := if s.blocked i then s.causeOf (s.slotCtx i) else 0

/-- AGE: the rank of a blocked slot by the cycle in which it became blocked (R466). -/
def State.slotAge (s : State) (i : Nat) : Nat :=
  if !s.blocked i then 0
  else
    let at' (j : Nat) : Nat := (s.ctxSlotOf j).blockedAt
    ((List.range 8).filter fun j => s.blocked j && (at' j < at' i || at' j = at' i && j < i)).length

/-- A slot takes a context or lets it go: what it shows of its block is gone. -/
def State.setSlot (s : State) (i st ctx : Nat) : State :=
  (((s.wr .ctx (Reg.ctxSlot_STATE i) st).wr .ctx (Reg.ctxSlot_CTX i) ctx).wr .ctx
    (Reg.ctxSlot_BLOCKED i) 0).modSlotRec i fun _ => {}

/-! ## Starting a move -/

/-- A save starts (R459, step 1). -/
def State.startSave (s : State) (i : Nat) (serves : Serves) : State :=
  ((s.wr .ctx (Reg.ctxSlot_STATE i) slotSaving).modCtx (s.slotCtx i) fun r => { r with state := ctxMoving }).modSlotRec
    i fun x => { x with reported := [], serves := serves }

/-- A restore starts (R462); a context without an image is RESIDENT at once. -/
def State.startRestore (s : State) (i ctx : Nat) : State :=
  if (s.ctxRec ctx).image then
    (s.setSlot i slotLoading ctx).modCtx ctx fun r => { r with state := ctxMoving, slot := i, woken := false }
  else
    ((s.setSlot i slotResident ctx).modCtx ctx fun r => { r with
      state := ctxResident, slot := i, woken := false }).raise .ctx 0

/-- The lowest FREE slot that a LOAD may target (R457, R467). -/
def State.loadTarget (s : State) : Option Nat :=
  (List.range 8).find? fun i => s.slotState i = slotFree && !s.isRelief i

/-- The first slot of least key. -/
def leastBy (key : Nat → Nat) (is : List Nat) : Option Nat :=
  is.foldl (fun best i =>
    match best with
    | some b => if key i < key b then some i else some b
    | none => some i) none

/-- A context has a ring on the target of a replay: the live BLKHOLD does not act for it, and the farrier moves
it only where the log says so (R637). -/
def State.inReplay (s : State) (ctx : Nat) : Bool :=
  s.replayOn s.target && (List.range 16).any fun r =>
    s.ringCtx s.target r = ctx && s.blk (ringPage s.target r) ≠ blkOff

/-- The victim of a LOAD (R467). -/
def State.loadVictim (s : State) (ctx : Nat) : Option Nat :=
  let prio (i : Nat) : Nat := (s.ctxRec (s.slotCtx i)).prio
  let ok (i : Nat) : Bool := s.slotState i = slotResident && !s.isRelief i
    && prio i < (s.ctxRec ctx).prio && s.slotCause i ≠ 5 && !s.inReplay (s.slotCtx i)
  leastBy (fun i => (prio i * 2 + bit !s.blocked i) * 8 + s.slotAge i) ((List.range 8).filter ok)

/-- The victim of the relief rule (R469). -/
def State.reliefVictim (s : State) : Option Nat :=
  leastBy s.slotAge ((List.range 8).filter fun i =>
    s.slotState i = slotResident && s.blocked i && s.slotCause i ≠ 5 && !s.inReplay (s.slotCtx i))

/-- A save that serves a LOAD or the relief rule is paused: another victim is saved (R468). -/
def State.otherVictim (s : State) (i : Nat) : State :=
  let serves := (s.ctxSlotOf i).serves
  match serves with
  | .evict => s
  | .load ctx => (s.loadVictim ctx).elim s fun j => s.startSave j serves
  | .relief => s.reliefVictim.elim s fun j => s.startSave j serves

/-- A slot has become FREE: the LOAD that has waited longest takes it (R467). -/
def State.slotFreed (s : State) (i : Nat) : State :=
  match s.loads with
  | ctx :: rest =>
    if s.isRelief i then s else ({ s with loads := rest } : State).startRestore i ctx
  | [] => s

/-! ## The reset of a context (R19, R186, R215, R255, R310, R415, R442) -/

/-- A link that has not sent all eight blocks sends a break marker, unless the same reset releases its
receiver (R215). -/
def State.breakReset (s : State) (c e ctx : Nat) (k : EngCmd) (tkind sent : Nat) : State :=
  if 8 ≤ sent || (tNext k.descs = 16 && tDctx k.descs = ctx) then s
  else s.sendBreak c e k tkind causeContextReset

/-- Blocks of its partial that a tile slot has sent. -/
def Engine.sentOf (g : Engine) (t : Nat) : Nat :=
  (g.tile t).accepted + (g.relay.sent.filter fun m => m.tile = some t).length

/-- A context leaves an engine: its commands, its tiles and its writes. -/
def State.resetInEngine (s : State) (c e ctx : Nat) : State :=
  let g := s.engine c e
  let own (k : EngCmd) : Bool := k.ctx = ctx
  let queued := g.queue.filter own
  let links (ks : List EngCmd) (s : State) : State :=
    ks.foldl (fun s k => if hasTileBody k.op && !k.again then s.breakReset c e ctx k (pathTkind k) 0 else s) s
  let ofTiles (xs : List TileSlot) (s : State) : State :=
    xs.foldl (fun s x => x.last.elim s fun k => s.breakReset c e ctx k x.tkind x.accepted) s
  let ofPiece (p : Piece) : Bool := p.owner.ctx = ctx
  let dropped := ((g.writes ++ g.assembling).filter ofPiece).length
  let s1 := (ofTiles (g.incoming.filter fun x => x.ctx = ctx) (links queued s)).modEngine c e fun g => { g with
    queue := g.queue.filter fun k => !own k
    reentry := g.reentry.filter fun k => !own k
    scanning := g.scanning.filter fun k => !own k
    incoming := g.incoming.filter fun x => x.ctx ≠ ctx
    output := g.output.filter fun p => !ofPiece p
    writes := g.writes.filter fun p => !ofPiece p
    assembling := g.assembling.filter fun p => !ofPiece p
    relay := { g.relay with received := g.relay.received.filter fun m => m.block.hdr.dctx ≠ ctx }
    writeCredit := { g.writeCredit with owed := g.writeCredit.owed + dropped }
    credit := { g.credit with owed := g.credit.owed + (queued.filter fun k => !k.again).length } }
  let s2 := g.slots.foldl (fun s t =>
    let x := t.2
    if x.state = .free || x.ctx ≠ ctx then s
    else
      let s' := match x.last with
        | some k => s.breakReset c e ctx k x.tkind (g.sentOf t.1)
        | none => s
      s'.freeTile c e t.1) s1
  (s2.sweep c e).settle c e

/-- Links of a saved share break their chains (R215). -/
def State.breakShare (s : State) (sh : CtxShare) : State :=
  sh.engines.foldl (fun s g =>
    let s1 := (g.tiles.map (·.2) ++ g.incoming).foldl (fun s x =>
      x.last.elim s fun k => s.breakReset sh.chan g.slot sh.ctx k x.tkind x.accepted) s
    g.queue.foldl (fun s k =>
      if hasTileBody k.op && !k.again then s.breakReset sh.chan g.slot sh.ctx k (pathTkind k) 0 else s) s1) s

/-- A context leaves the units of a channel beside the engines. -/
def State.resetInUnits (s : State) (c ctx : Nat) : State :=
  let x := s.chan c
  let own (k : EngCmd) : Bool := k.ctx = ctx
  let ofStream (n : Nat) : Bool := (s.stream n).state ≠ strmFree && (s.stream n).ctx = ctx
  let pads := x.paddocked.filter fun p => own p.2.cmd
  let lands := (x.landing.filter fun l => l.2.block.any fun m => m.block.hdr.dctx = ctx).map (·.1)
  let bufs := (x.buffers.filter fun b => b.2.ctx = ctx).map (·.1)
  let s1 := if x.cvu.run.any fun r => own r.cmd then s.wr (cvuPage c) Reg.cvuStat_BUSY 0 else s
  let s2 := bufs.foldl (fun s b => s.wr (.wst (Fin.ofNat 4 c)) (bufFld b) 0) s1
  let s3 := (lands.foldl (fun s i => s.dropLanding c i) s2).dropHeld c own
  s3.modChan c fun y => { y with
    cvu := { y.cvu with
      queue := y.cvu.queue.filter fun r => !own r.cmd
      run := y.cvu.run.filter fun r => !own r.cmd }
    paddock := y.paddock.filter fun p => !own p.2.cmd
    paddockOrder := y.paddockOrder.filter fun e => !(pads.any fun p => p.1 = e)
    copies := y.copies.filter fun r => !own r.cmd
    forks := y.forks.filter fun f => !ofStream f.parent
    buffers := y.buffers.filter fun b => b.2.ctx ≠ ctx
    tileImages := y.tileImages.filter fun i => i.ctx ≠ ctx
    spills := y.spills.filter fun p => p.ctx ≠ ctx
    pages := y.pages.filter fun p => !ofStream p.owner
    copyFrames := y.copyFrames.filter fun f => !ofStream f.stream }

/-- Children of the FORKs under way of a context's streams. They do not have its number yet (R325). -/
def State.forkChildren (s : State) (ctx : Nat) : List Nat :=
  (List.range 4).flatMap fun c => ((s.chan c).forks.filter fun f =>
    (s.stream f.parent).state ≠ strmFree && (s.stream f.parent).ctx = ctx).flatMap fun f => f.children.map (·.1)

/-- The streams of a context, and the children of its FORKs, become FREE without a write to backing (R310); a
REHOME of one of them ends. -/
def State.freeStreams (s : State) (ctx : Nat) (children : List Nat) : State :=
  let s1 := match s.rehoming with
    | some (n, _) =>
      if (s.stream n).ctx = ctx then ({ s with rehoming := none } : State).windowDone .strm strmNotOpen else s
    | none => s
  { s1 with streams := s1.streams.map fun (r : Nat × StreamRec) =>
      let own : Bool := if r.2.state = strmForking then children.contains r.1
        else r.2.ctx = ctx && r.2.state ≠ strmFree
      if own then (r.1, { r.2 with state := strmFree, discard := false }) else r }.disarmFreed

/-- Blocks of a crossing queue that a reset drops: their entries still cross. -/
def CrossQueue.dropBlocks (q : CrossQueue) (gone : Moving → Bool) : CrossQueue :=
  { q with entries := q.entries.map fun e =>
      match e.1 with
      | .block m => if gone m then (.dropped (some m), e.2) else e
      | .tail _ _ | .dropped _ => e }

/-- Blocks on their way in the device are released uncounted, and the credits under which they came return: the
reset of their receiver takes them in (R207). -/
def State.dropBlocks (s : State) (gone : Moving → Bool) : State :=
  (List.range 4).foldl (fun s c =>
    let ms := (s.chan c).ingress.filter gone
    ms.foldl (fun s m => (s.releaseHeld c m).oweIngress c m) <|
      s.modChan c fun y => { y with
        ingress := y.ingress.filter fun m => !gone m
        toCh := y.toCh.dropBlocks gone, fromCh := y.fromCh.dropBlocks gone }) (s.dropSwitch gone)

/-- A context reset: the state of the context in every block. Its page-table translations go, and its
faults are resolved. -/
def State.resetContext (s : State) (ctx : Nat) : State :=
  let children := s.forkChildren ctx
  let s1 := (List.range 4).foldl (fun s c =>
    let s0 := (s.shares.filter fun sh => sh.ctx = ctx && sh.chan = c).foldl State.breakShare s
    let sa := (s.chan c).engines.foldl (fun s (g : Nat × Engine) => s.resetInEngine c g.1 ctx) s0
    let sb := sa.resetInUnits c ctx
    (List.range 16).foldl (fun s r =>
      if s.ringCtx c r = ctx && s.blk (ringPage c r) ≠ blkOff then s.resetRing c r else s) sb) s
  let s2 := ((s1.dropBlocks fun m => m.next = 16 && m.block.hdr.dctx = ctx).freeStreams ctx
    children).forgetAccesses fun a => a.ctx = ctx
  let s3 := allCaches.foldl (fun s k => s.modCache k fun x => x.drop fun t => t.ctx = ctx) s2
  let s4 := s3.modXlat fun x => { x with ctt := x.ctt.filter fun e => e.1 ≠ ctx }
  let s5 : State := { s4 with
    shares := s4.shares.filter fun sh => sh.ctx ≠ ctx
    loads := s4.loads.filter (· ≠ ctx) }
  (List.range 4).foldl (fun s c => s.stateMap c) s5.releaseClosing

/-- The slot of a context becomes FREE after its reset; the relief slot keeps its designation (R452,
R457). -/
def State.resetSlot (s : State) (ctx : Nat) : State :=
  match s.slotOfCtx ctx with
  | none => s
  | some i =>
    let s1 : State := { s.setSlot i slotFree 0 with
      reliefInto := if s.reliefInto = some i then none else s.reliefInto }
    s1.slotFreed i

/-- RESET of a context (R452): its record is AWAY without an image. -/
def State.resetRecord (s : State) (ctx : Nat) : State :=
  ((s.resetContext ctx).modCtx ctx fun r => { r with
    state := ctxAway, image := false, woken := false }).resetSlot ctx

/-! ## The window operations (R452) -/

def ctxOk : Nat := 0
def ctxEntryBusy : Nat := 1
def ctxBadArg : Nat := 2
def ctxNoSlot : Nat := 3
def ctxNotAdmitted : Nat := 4
def ctxIsMoving : Nat := 5
def ctxNotResident : Nat := 6

def State.ctxDone (s : State) (status : Nat) : State := s.windowDone .ctx status

/-- ADMIT. -/
def State.ctxAdmit (s : State) (n : Nat) : State :=
  let v := s.windowData .ctx
  if (s.ctxRec n).state ≠ ctxNone then s.ctxDone ctxEntryBusy
  else if badCtxArg v then s.ctxDone ctxBadArg
  else (s.modCtx n fun r => { r.take v with state := ctxAway, image := false, gen := 0 }).ctxDone ctxOk

/-- UPDATE. -/
def State.ctxUpdate (s : State) (n : Nat) : State :=
  let v := s.windowData .ctx
  let r := s.ctxRec n
  let moved : Bool := bitsOf v 128 48 ≠ r.saveVa || bitsOf v 16 10 ≠ r.saveMb
  if r.state = ctxNone then s.ctxDone ctxNotAdmitted
  else if moved && r.state ≠ ctxAway then s.ctxDone ctxIsMoving
  else if badCtxArg v then s.ctxDone ctxBadArg
  else (s.modCtx n fun r => r.take v).ctxDone ctxOk

/-- LOAD (R467). -/
def State.ctxLoad (s : State) (n : Nat) : State :=
  let r := s.ctxRec n
  if r.state = ctxNone then s.ctxDone ctxNotAdmitted
  else if r.state = ctxMoving then s.ctxDone ctxIsMoving
  else if r.state = ctxResident then s.ctxDone ctxEntryBusy
  else
    match s.loadTarget, s.loadVictim n with
    | some i, _ => (s.startRestore i n).ctxDone ctxOk
    | none, some j =>
      let s1 : State := { s with loads := s.loads ++ [n] }
      ((s1.modCtx n fun r => { r with state := ctxMoving }).startSave j (.load n)).ctxDone ctxOk
    | none, none => s.ctxDone ctxNoSlot

/-- EVICT. -/
def State.ctxEvict (s : State) (n : Nat) : State :=
  let r := s.ctxRec n
  if r.state = ctxNone ∨ r.state = ctxAway then s.ctxDone ctxNotResident
  else if r.state = ctxMoving then s.ctxDone ctxIsMoving
  else (s.startSave r.slot .evict).ctxDone ctxOk

/-- RESET, and RELEASE, which ends with NONE. -/
def State.ctxResetOp (s : State) (n : Nat) (release : Bool) : State :=
  if (s.ctxRec n).state = ctxNone then s.ctxDone ctxNotAdmitted
  else
    let s1 := s.resetRecord n
    (if release then s1.modCtx n fun r => { r with state := ctxNone } else s1).ctxDone ctxOk

def State.ctxOp (s : State) (op n : Nat) : State :=
  if op = 1 then (s.setWindowData .ctx (s.ctxRec n).encode).ctxDone ctxOk
  else if op = 2 then s.ctxAdmit n
  else if op = 3 then s.ctxUpdate n
  else if op = 4 then s.ctxLoad n
  else if op = 5 then s.ctxEvict n
  else s.ctxResetOp n (op = 7)

/-- A context operation of a master. -/
def State.ctxWindow (s : State) (m : Master) (op : Nat) : State :=
  let n := s.rd .ctx Reg.ctxWinIdx_IDX
  s.windowStart m .ctx (.ctx op m n) fun s => s.ctxOp op n

/-- CTX_READ (R452). -/
def execCtxRead (m : Master) (s : State) : Result := live s <| s.ctxWindow m 1
/-- ADMIT (R452). -/
def execAdmit (m : Master) (s : State) : Result := live s <| s.ctxWindow m 2
/-- UPDATE (R452). -/
def execUpdate (m : Master) (s : State) : Result := live s <| s.ctxWindow m 3
/-- LOAD (R452, R467). -/
def execLoad (m : Master) (s : State) : Result := live s <| s.ctxWindow m 4
/-- EVICT (R452, R459). -/
def execEvict (m : Master) (s : State) : Result := live s <| s.ctxWindow m 5
/-- CTX_RESET (R452). -/
def execCtxReset (m : Master) (s : State) : Result := live s <| s.ctxWindow m 6
/-- RELEASE (R452). -/
def execRelease (m : Master) (s : State) : Result := live s <| s.ctxWindow m 7

/-! ## What a save takes (R459 to R461) -/

/-- A tile that a save takes, in whatever state its slot is (R185). -/
def TileSlot.moves (x : TileSlot) (ctx : Nat) : Bool := x.ctx = ctx && x.state ≠ .free

/-- The engine holds a tile or a queue entry of the context. -/
def Engine.holds (g : Engine) (ctx : Nat) : Bool :=
  (g.slots.any fun t => t.2.moves ctx) || (g.queue.any fun k => k.ctx = ctx)
    || (g.reentry.any fun k => k.ctx = ctx) || (g.scanning.any fun k => k.ctx = ctx)
    || g.incoming.any fun x => x.ctx = ctx

/-- B of R461. -/
def Channel.saveBytes (x : Channel) (ctx : Nat) : Nat :=
  65536 + (x.engines.map fun (g : Nat × Engine) =>
    if g.2.holds ctx then 122880 + 81920 * (g.2.slots.filter fun t => t.2.moves ctx).length else 0).sum

/-- Blocks of the context's tiles that are on their way count as accepted. -/
def State.acceptAll (s : State) (c e ctx : Nat) : State :=
  let g := s.engine c e
  let own (m : Moving) : Bool := m.tile.elim false fun t => (g.tile t).moves ctx
  let s1 := s.modEngine c e fun g => { g with relay := { g.relay with
    sent := g.relay.sent.filter fun m => !own m } }
  (g.relay.sent.filter own).foldl (fun s m => m.tile.elim s fun t => s.acceptFor c e t) s1

/-- A drain of the context stops after the block in the epilogue, whose writes go on (R254). -/
def State.stopDrain (s : State) (c e ctx : Nat) : State :=
  let g := s.engine c e
  match g.drain with
  | none => s
  | some d =>
    let x := g.tile d.slot
    if x.ctx ≠ ctx then s
    else
      let s1 := match x.geo with
        | some geo => if d.pipe.isEmpty then s else s.epilogueStep c e d geo x
        | none => s
      s1.modEngine c e fun h =>
        { (h.setTile d.slot { h.tile d.slot with resume := h.drain }) with
          drain := none, output := if d.pipe.isEmpty then h.output else g.output ++ h.output }

/-- A run as it is saved: its lanes' positions, without the inputs in their buffers. -/
def EngRun.saved (r : EngRun) : EngRun :=
  { r with lanes := r.lanes.map fun (l : Nat × LaneProg) => (l.1, { l.2 with buf := [], fetched := [] }) }

/-- A lodger command whose chunk a save lets go is fetched again (R368). -/
def EngCmd.saved (k : EngCmd) : EngCmd := { k with refetch := k.refetch || k.buffer.isSome }

/-- A bank as it is saved. -/
def State.savedBank (s : State) (c e n : Nat) : SavedBank :=
  let p := engPage c e
  { index := n, recorded := ((s.engine c e).bank n).recorded
    group := ⟨s.rd p (Reg.engLnsBank_BASE n), s.rd p (Reg.engLnsBank_FSEL n)⟩
    valid := s.rd p (Reg.engLnsBank_VALID n), building := s.rd p (Reg.engLnsBank_BUILDING n)
    knot := s.knots c e n }

/-- A save stops the rebuild that serves its context alone (R130, R458). DESIGN CHOICE: until the restore goes on
with it, the bank records no descriptor. -/
def State.stopRebuild (s : State) (c e n : Nat) : State :=
  if s.flag (engPage c e) (Reg.engLnsBank_BUILDING n) && ((s.engine c e).bank n).bound.isEmpty then
    (s.modEngine c e fun g => { g with
      banks := Tab.set g.banks n { g.bank n with recorded := false } }).wrAll c (s.pairOf c e)
        (Reg.engLnsBank_BUILDING n) 0
  else s

/-- An engine's part of a context leaves it for the image. -/
def State.takeEngine (s : State) (c e ctx : Nat) : State × EngShare :=
  let s1 := (s.acceptAll c e ctx).stopDrain c e ctx
  let g := s1.engine c e
  let own (k : EngCmd) : Bool := k.ctx = ctx
  let tiles := g.slots.filter fun t => t.2.moves ctx
  let mine (m : Moving) : Bool := m.tile.elim false fun t => (g.tile t).moves ctx
  let runs := g.runs.filter fun r => own r.cmd
  let queued := g.queue.filter own
  let used (n : Nat) : Bool := runs.any fun r => r.bank = .bound n
  let p := engPage c e
  let share : EngShare :=
    { slot := e
      queue := queued.map EngCmd.saved
      reentry := g.reentry.filter own, scanning := g.scanning.filter own
      runs := runs.map fun r => { r.saved with cmd := r.cmd.saved }
      tiles := tiles
      drains := g.drains.filter fun t => (g.tile t).moves ctx
      received := g.relay.received.filter fun m => m.block.hdr.dctx = ctx
      sending := g.relay.sending.filter mine
      incoming := g.incoming.filter fun x => x.ctx = ctx
      banks := [0, 1].map (s1.savedBank c e)
      regA := g.regA, regB := g.regB
      wsel := s1.rd p Reg.engWregStat_WSEL, rot := s1.rd p Reg.engWregStat_ROT }
  let freed := ((queued ++ runs.map (·.cmd)).filter fun k => !k.again).length
  let s2 := s1.modEngine c e fun g =>
    let g1 : Engine := { g with
      queue := g.queue.filter fun k => !own k
      reentry := g.reentry.filter fun k => !own k
      scanning := g.scanning.filter fun k => !own k
      incoming := g.incoming.filter fun x => x.ctx ≠ ctx
      runs := g.runs.filter fun r => !own r.cmd
      drains := g.drains.filter fun t => !(g.tile t).moves ctx
      relay := { g.relay with
        received := g.relay.received.filter fun m => m.block.hdr.dctx ≠ ctx
        sending := g.relay.sending.filter fun m => !mine m }
      credit := { g.credit with owed := g.credit.owed + freed } }
    tiles.foldl (fun g t => g.setTile t.1 {}) (runs.foldl Engine.freeLanes g1)
  let s3 := runs.foldl (fun s r => s.unbind c e r.cmd.uid) s2
  let s4 := ([0, 1].filter used).foldl (fun s n => s.stopRebuild c e n) s3
  ((s4.sweep c e).settle c e, share)

/-- The chunks of a context's lodger commands whose tiles have not all completed are let go (R368). -/
def State.dropBuffers (s : State) (c ctx : Nat) : State :=
  (s.chan c).buffers.foldl (fun s (b : Nat × LodgerBuf) =>
    if b.2.ctx ≠ ctx then s
    else
      let busy : Bool := !(s.chan c).bufferFree b.1
      let s1 := (s.modChan c fun x => { x with buffers := Tab.erase x.buffers b.1 }).wr
        (.wst (Fin.ofNat 4 c)) (bufFld b.1) 0
      if busy && b.2.again.isNone then
        s1.modCmd c b.2.num fun h =>
          { h with chunks := h.chunks.erase b.2.chunk, lost := h.lost ++ [b.2.chunk] }
      else s1) s

/-- A channel's share of a context leaves the channel for the image (R459, R460, R302, R341). -/
def State.takeShare (s : State) (c ctx : Nat) : State :=
  let own (k : EngCmd) : Bool := k.ctx = ctx
  let s0 := s.dropBuffers c ctx
  let x := s0.chan c
  let u := x.cvu
  let pads := x.paddocked.filter fun p => own p.2.cmd
  let scans := x.engines.filterMap fun (g : Nat × Engine) => g.2.scanning.filter own
  let parts := (x.engines.filter fun (g : Nat × Engine) =>
    g.2.holds ctx || g.2.runs.any fun r => own r.cmd).foldl (fun (acc : State × List EngShare) g =>
      let r := acc.1.takeEngine c g.1 ctx
      (r.1, acc.2 ++ [r.2])) (s0, [])
  let share : CtxShare :=
    { ctx := ctx, chan := c, key := s.dev.sealKey, engines := parts.2
      cvu := ((u.run.toList ++ u.queue).filter fun r => own r.cmd).map CvuRun.saved
      paddock := pads.map (·.2) }
  let s1 := parts.1.modChan c fun y => { y with
    cvu := { y.cvu with
      queue := y.cvu.queue.filter fun r => !own r.cmd
      run := y.cvu.run.filter fun r => !own r.cmd }
    paddock := y.paddock.filter fun p => !own p.2.cmd
    paddockOrder := y.paddockOrder.filter fun e => !(pads.any fun p => p.1 = e) }
  let s2 := if u.run.any fun r => own r.cmd then s1.wr (cvuPage c) Reg.cvuStat_BUSY 0 else s1
  let reentries := parts.2.filterMap (·.reentry)
  let s3 := (scans ++ reentries ++ pads.map (·.2.cmd)).foldl (fun s k => s.unpin c k) s2
  ({ s3 with shares := s3.shares ++ [share] } : State).stateMap c

/-- The last channel has reported (R459, step 7): the shares have left the channels, the context is AWAY
with an image, and its slot is FREE. -/
def State.saveDone (s : State) (i : Nat) : State :=
  let ctx := s.slotCtx i
  let s0 := (List.range 4).foldl (fun s c => if s.isReady c then s.takeShare c ctx else s) s
  let s1 := (s0.modCtx ctx fun r => { r with
    state := ctxAway, image := true, gen := (r.gen + 1) % 2 ^ 32, woken := false }).modXlat fun x =>
      { x with retried := x.retried.filter fun a => a.ctx ≠ ctx }
  let s2 := ((s1.setSlot i slotFree 0).bump .ctx Reg.ctxCnt_SAVES).raise .ctx 0
  match s2.reliefInto with
  | some _ => ({ s2 with reliefInto := none } : State).wr .ctx Reg.ctxCfg_RELIEF_SLOT i
  | none => s2.slotFreed i

/-- A channel reports the completion of its share. -/
def State.reportSave (s : State) (i c : Nat) : State :=
  let s1 := s.modSlotRec i fun x => { x with reported := x.reported ++ [c] }
  if (s1.ctxSlotOf i).reported.length = 4 then s1.saveDone i else s1

/-- CHANNEL_SAVE_DONE (R459, R461, R468): a channel has written its share of the image. The share leaves the
channel when the last one has reported, so that an abandoned save leaves everything in its place. -/
def execChannelSaveDone (slot : CtxSlotId) (c : Ch) (s : State) : Result :=
  live s <|
    let ctx := s.slotCtx slot
    if s.slotState slot ≠ slotSaving || (s.ctxSlotOf slot).reported.contains c.val || s.changing c || s.early c 0x08 ctx then s
    else if !s.isReady c then s.reportSave slot c
    else if !s.arithOn c then s
    else if !s.mayRecord c then s.recordStall
    else
      let a : MemAccess := { req := .save c slot, ctx := ctx, va := s.saveRegion c ctx, write := true }
      match s.sealVa a ((s.chan c).saveBytes ctx) with
      | (s1, false) => if s1.slotState slot = slotPaused then s1.otherVictim slot else s1
      | (s1, true) => (s1.logDec c 0x08 ctx).reportSave slot c

/-! ## Restores (R462, R463) -/

/-- Bytes that a channel's share takes in its save region. -/
def CtxShare.bytes (sh : CtxShare) : Nat :=
  65536 + (sh.engines.map fun g => 122880 + 81920 * g.tiles.length).sum

/-- Spilled blocks of the context return to the landing buffer from where they were sealed (R208, R462); whether
all did. -/
def State.spillsBack (s : State) (c ctx : Nat) : State × Bool :=
  ((s.chan c).spills.filter fun p => p.ctx = ctx).foldl (fun (acc : State × Bool) p =>
    if !acc.2 then acc
    else
      let drop (s : State) : State := s.modChan c fun y => { y with spills := y.spills.erase p }
      if p.key ≠ s.dev.sealKey then
        (((drop acc.1).bump (tndPage c) Reg.tndCnt_LOST).raise (tndPage c) 2, true)
      else
        match acc.1.land c { p.block with backed := false } with
        | none => (acc.1, false)
        | some (i, _) =>
          let a : MemAccess :=
            { req := .landing (Fin.ofNat 4 c) (Fin.ofNat 128 i), ctx := ctx, write := false
              va := acc.1.saveRegion c ctx + p.offset }
          match acc.1.openVa a (blockSize p.block.block) with
          | (s1, false, _) => (s1, false)
          | (s1, true, _) => ((s1.land c { p.block with backed := false }).elim (s1, false) fun r => (drop r.2, true))) (s, true)

/-- An engine has room for its part: a FREE slot for each tile and a credit for each command. -/
def Engine.hasRoom (g : Engine) (sh : EngShare) : Bool :=
  sh.tiles.length ≤ (g.slots.filter fun t => t.2.state = .free).length
    && ((sh.queue ++ sh.runs.map (·.cmd)).filter fun k => !k.again).length ≤ g.credit.held

/-- The new slots of saved tiles: the same number where it is FREE. -/
def Engine.newSlots (g : Engine) (tiles : Tab TileSlot) : List (Nat × Nat) :=
  let free := (g.slots.filter fun t => t.2.state = .free).map (·.1)
  let same := (tiles.map (·.1)).filter free.contains
  let rest := (tiles.map (·.1)).filter fun t => !same.contains t
  (same.map fun t => (t, t)) ++ rest.zip (free.filter fun t => !same.contains t)

/-- A tile returns to its state (R185). DESIGN CHOICE: one that was DRAINING waits in PARKED as a FILLING one does
where no in-progress slot is free (R168). -/
def Engine.putTile (g : Engine) (t : Nat) (x : TileSlot) : Engine :=
  if x.state.inProgress && 2 ≤ g.inProgress then g.setTile t { x with state := .parked, paused := true }
  else g.setTile t x

/-- The saved tiles return, the DRAINING ones first. -/
def Engine.putTiles (g : Engine) (tiles : List (Nat × TileSlot)) : Engine :=
  let drains (t : Nat × TileSlot) : Bool := t.2.state = .draining
  (tiles.filter drains ++ tiles.filter fun t => !drains t).foldl (fun g t => g.putTile t.1 t.2) g

/-- The accesses of a tile that was being sealed or restored follow it to its slot (R444). -/
def State.moveSeals (s : State) (c e ctx : Nat) (slot : Nat → Nat) : State :=
  let moved (a : MemAccess) : MemAccess :=
    match a.req with
    | .seal c' e' t =>
      if a.ctx = ctx ∧ c'.val = c ∧ e'.val = e then { a with req := .seal c' e' (Fin.ofNat 8 (slot t)) } else a
    | _ => a
  let ofCache (x : Cache) : Cache := { x with
    walks := x.walks.map fun w => (w.1, { w.2 with joined := w.2.joined.map moved })
    waiting := x.waiting.map moved
    ready := x.ready.map fun q => (moved q.1, q.2) }
  allCaches.foldl (fun s k => s.modCache k ofCache) <| s.modXlat fun x => { x with
    faults := x.faults.map fun f => { f with access := moved f.access }
    overflow := x.overflow.map fun f => { f with access := moved f.access }
    retried := x.retried.map moved }

/-- A bank takes back its saved contents where no command uses it; an interrupted rebuild goes on from the saved
knot (R130). -/
def State.putBank (s : State) (c e : Nat) (b : SavedBank) : State :=
  if ((s.engine c e).bank b.index).bound.isEmpty then
    (s.showBank c [e] b.index b.group b.valid b.building b.knot).modEngine c e fun g =>
      let bank : Bank :=
        { g.bank b.index with recorded := b.recorded, start := s.cyc (domArith c) - b.knot }
      { g with banks := Tab.set g.banks b.index bank }
  else s

/-- A restored command is bound again: to its own bank where that has its contents back, and otherwise as a
command that begins (R126, R130). -/
def State.rebind (s : State) (c e : Nat) (mine : List Nat) (r : EngRun) : State :=
  match r.bank with
  | .bound n => if mine.contains n then s.bindTo c e n r.cmd.uid else s.bindBank c e r.cmd.uid r.cmd.group
  | .waiting => s.bindBank c e r.cmd.uid r.cmd.group
  | .none | .unbound => s

/-- The weight registers come back bit for bit where the engine has no tile of another context in progress; otherwise
prefetch loads the saved slices again (R115, R462). -/
def State.putRegs (s : State) (c : Nat) (sh : EngShare) (alone : Bool) : State :=
  let p := engPage c sh.slot
  if alone then
    ((s.modEngine c sh.slot fun g => { g with regA := sh.regA, regB := sh.regB }).wr p
      Reg.engWregStat_WSEL sh.wsel).wr p Reg.engWregStat_ROT sh.rot
  else s

/-- A command of a share whose chunk is to be filled again before it is placed (R368). -/
def EngCmd.refills (k : EngCmd) : Bool := k.refetch && !k.again

/-- An engine takes its part back (R185, R462). -/
def State.putEngine (s : State) (c : Nat) (sh : EngShare) : State :=
  let e := sh.slot
  let g := s.engine c e
  let map := g.newSlots sh.tiles
  let slot (t : Nat) : Nat := Tab.get t map t
  let ctxs := (sh.tiles.map (·.2.ctx) ++ sh.queue.map (·.ctx)).dedup
  let runs := sh.runs.map fun r => { r with slot := slot r.slot }
  let count := ((sh.queue ++ sh.runs.map (·.cmd)).filter fun k => !k.again).length
  let alone : Bool := g.slots.all fun t => !t.2.state.inProgress
  let free := (sh.banks.filter fun b => (g.bank b.index).bound.isEmpty).map (·.index)
  let s1 := s.modEngine c e fun g =>
    let g1 := g.putTiles (sh.tiles.map fun t => (slot t.1, t.2))
    { g1 with
      queue := g1.queue ++ sh.queue.filter fun k => !k.refills, runs := g1.runs ++ runs
      drains := g1.drains ++ sh.drains.map slot, incoming := g1.incoming ++ sh.incoming
      relay := { g1.relay with
        received := g1.relay.received ++ sh.received
        sending := g1.relay.sending ++ sh.sending.map fun m => { m with tile := m.tile.map slot } }
      credit := { g1.credit with held := g1.credit.held - count } }
  let s2 := s1.modChan c fun x => { x with
    lodgerHeld := x.lodgerHeld ++ (sh.queue.filter EngCmd.refills).map fun k => (e, k) }
  let s3 := ctxs.foldl (fun s n => s.moveSeals c e n slot) (s2.putRegs c sh alone)
  let s4 := sh.banks.foldl (fun s b => s.putBank c e b) s3
  (runs.foldl (fun s r => s.rebind c e free r) s4).modEngine c e Engine.follow

/-- SCAN commands of a share in the order in which they return: those interrupted, those about to start,
and the paddock's own (R341). -/
def CtxShare.scans (sh : CtxShare) : List Paddocked :=
  let of (f : EngShare → Option EngCmd) : List Paddocked :=
    sh.engines.filterMap fun g => (f g).map fun k => { slot := g.slot, cmd := k }
  of (·.scanning) ++ of (·.reentry) ++ sh.paddock

/-- The paddock entries return, ahead of those that entered since. -/
def State.padsBack (s : State) (c : Nat) (ps : List Paddocked) : State :=
  let free := (List.range 64).filter fun i => !((s.chan c).paddock.any fun p => p.1 = i)
  let put := free.zip ps
  s.modChan c fun x => { x with
    paddock := put.foldl (fun t (p : Nat × Paddocked) => Tab.set t p.1 p.2) x.paddock
    paddockOrder := put.map (·.1) ++ x.paddockOrder }

/-- The CVU takes its commands back ahead of the others (R302): the first becomes its command where it has none. -/
def State.putCvu (s : State) (c : Nat) (rs : List CvuRun) : State :=
  match (s.chan c).cvu.run, rs with
  | none, r :: rest =>
    ((s.modCvu c fun u => { u with queue := rest ++ u.queue, run := some r }).wr (cvuPage c)
      Reg.cvuStat_BUSY 1).wr (cvuPage c) Reg.cvuStat_CTX ((s.slotOfCtx r.cmd.ctx).getD 0)
  | _, _ => s.modCvu c fun u => { u with queue := rs ++ u.queue }

/-- A channel restores its share (R462): the state, and whether the share is back. -/
def State.restoreShare (s : State) (slot : CtxSlotId) (sh : CtxShare) : State × Bool :=
  let c := sh.chan
  let ctx := sh.ctx
  match s.spillsBack c ctx with
  | (s1, false) => (s1, false)
  | (s1, true) =>
    let a : MemAccess :=
      { req := .save (Fin.ofNat 4 c) slot, ctx := ctx, va := s1.saveRegion c ctx, write := false }
    let tight := sh.engines.filter fun g => !(s1.engine c g.slot).hasRoom g
    let u := (s1.chan c).cvu
    let pads : Bool := (s1.chan c).paddock.length + sh.scans.length ≤ 64
      && u.queue.length + sh.cvu.length ≤ 8 + bit u.run.isNone
    if !tight.isEmpty || !pads then
      (tight.foldl (fun s g => if g.tiles.isEmpty then s else s.makeRoom c g.slot) s1, false)
    else
      match s1.openVa a sh.bytes with
      | (s2, false, _) => (s2, false)
      | (s2, true, _) =>
        let s3 := sh.engines.foldl (fun s g => s.putEngine c g) (s2.padsBack c sh.scans)
        let s4 := s3.putCvu c sh.cvu
        (({ s4 with shares := s4.shares.erase sh } : State).logDec c 0x08 (ctx + 2 ^ 8), true)

/-- A poisoned word lies in the image of a share. -/
def State.imagePoisoned (s : State) (slot : CtxSlotId) (sh : CtxShare) : Bool :=
  let a : MemAccess :=
    { req := .save (Fin.ofNat 4 sh.chan) slot, ctx := sh.ctx, va := s.saveRegion sh.chan sh.ctx, write := false }
  (s.openVa a sh.bytes).2.2

/-- The image of a context fails authentication (R463). -/
def State.authFail (s : State) (ctx : Nat) : State :=
  ((s.resetRecord ctx).bump .ctx Reg.ctxCnt_AUTH_FAIL).raise .ctx 1

/-- Every channel has finished: the context is RESIDENT (R462, R341, R484). -/
def State.restoreDone (s : State) (i ctx : Nat) : State :=
  let s1 := (s.wr .ctx (Reg.ctxSlot_STATE i) slotResident).modCtx ctx fun r => { r with
    state := ctxResident, image := false }
  let s2 := ((s1.bump .ctx Reg.ctxCnt_RESTORES).raise .ctx 0).divertPending ctx
  let gone := s2.streams.filter fun (r : Nat × StreamRec) =>
    r.2.ctx = ctx && r.2.state = strmClosing && r.2.discard
  let s3 := gone.foldl (fun s r => (s.discardScans r.1).tryRelease r.1) s2
  (List.range 4).foldl (fun s c => s.stateMap c) s3

/-- CONTEXT_RESTORE_DONE (R462, R463): the channels take their shares back as they find room. -/
def execContextRestoreDone (slot : CtxSlotId) (intact : Bool) (s : State) : Result :=
  live s <|
    if s.slotState slot ≠ slotLoading then s
    else
      let ctx := s.slotCtx slot
      let mine := s.shares.filter fun sh => sh.ctx = ctx
      if !intact || mine.any fun sh => sh.key ≠ s.dev.sealKey || s.imagePoisoned slot sh then s.authFail ctx
      else if mine.any fun sh =>
        !s.arithOn sh.chan || s.changing sh.chan || s.early sh.chan 0x08 (ctx + 2 ^ 8) then s
      else
        let r := mine.foldl (fun (acc : State × Bool) sh =>
          if acc.2 then acc.1.restoreShare slot sh else acc) (s, true)
        if r.2 then r.1.restoreDone slot ctx else r.1

/-! ## Blocked contexts and the relief rule (R465 to R471) -/

/-- CONTEXT_BLOCKED (R465). -/
def execContextBlocked (slot : CtxSlotId) (s : State) : Result :=
  live s <|
    if s.slotState slot = slotResident && !s.blocked slot && !s.inReplay (s.slotCtx slot) then
      (s.wr .ctx (Reg.ctxSlot_BLOCKED slot) 1).modSlotRec slot fun x => { x with blockedAt := s.cyc domHub }
    else s

/-- A ring holds a whole command (R470): what its entries hold in memory is not known to the card while
they are not fetched. -/
def State.holdsWhole (s : State) (c r : Nat) : Bool :=
  let head := s.rd (doorPage c r) Reg.ringHead_HEAD
  let n := ringSpan (s.ringSize c r) head (s.ringOf c r).tailSeen
  s.blk (ringPage c r) = blkOn && !s.flag (doorPage c r) Reg.ringHead_STOPPED && 0 < n
    && 1 + (Config.headExt c r head).toNat ≤ n

/-- Blocks of a partial that have landed or been spilled, with those received before the save. -/
def State.blocksThere (s : State) (c ctx tag : Nat) (sh : EngShare) : List Nat :=
  ((((s.chan c).landed ctx tag).map (·.2)) ++ (((s.chan c).spills.filter fun p => p.ctx = ctx).map (·.block))
    ++ sh.received).filterMap fun m => if m.block.hdr.tag = tag then some m.block.hdr.block else none

/-- An awaiting-remote record whose blocks are all there (R460, R470). -/
def State.remoteReady (s : State) (ctx : Nat) : Bool :=
  s.shares.any fun sh => sh.ctx = ctx && sh.engines.any fun g => g.tiles.any fun (t : Nat × TileSlot) =>
    t.2.await.any fun w => (List.range 8).all fun b =>
      bitsOf w.folded b 1 = 1 || (s.blocksThere sh.chan ctx w.tag g).contains b

/-- An AWAY context is runnable (R470). -/
def State.runnable (s : State) (ctx : Nat) : Bool :=
  (s.ctxRec ctx).state = ctxAway && !s.inReplay ctx &&
  (((List.range 4).any fun c => (List.range 16).any fun r => s.ringCtx c r = ctx && s.holdsWhole c r)
    || s.remoteReady ctx || (s.xlat.retried.any fun a => a.ctx = ctx) || (s.ctxRec ctx).woken)

/-- The context that the rule restores: the highest PRIO, then the first after the one it last
restored. -/
def State.reliefChoice (s : State) : Option Nat :=
  let turn (n : Nat) : Nat := (n + 256 - (s.lastRelief + 1) % 256) % 256
  leastBy (fun n => (3 - (s.ctxRec n).prio) * 256 + turn n) ((List.range 256).filter s.runnable)

/-- The rule of R469 holds, its choice of a context apart. -/
def State.reliefDue (s : State) : Bool :=
  let held := (List.range 8).filter fun i => s.slotState i ≠ slotFree
  let stuck (i : Nat) : Bool :=
    (s.slotState i = slotResident && s.blocked i) || s.slotState i = slotPaused
  s.flag .ctx Reg.ctxCfg_AUTO && s.flag .ctx Reg.ctxCfg_RELIEF_EN
    && s.slotState (s.rd .ctx Reg.ctxCfg_RELIEF_SLOT) = slotFree
    && held.all stuck && held.any fun i => s.slotState i = slotResident && s.blocked i

/-- RELIEF (R469, R471). Pending window operations go first, and a farrier that restarts does not act. -/
def execRelief (s : State) : Result :=
  live s <|
    if !s.reliefDue || !s.dev.farrierUp then s
    else
      match s.reliefChoice, s.reliefVictim with
      | some n, some j =>
        let i := s.rd .ctx Reg.ctxCfg_RELIEF_SLOT
        let s1 : State := { (s.startSave j .relief) with lastRelief := n, reliefInto := some i }
        (s1.startRestore i n).bump .ctx Reg.ctxCnt_RELIEFS
      | some _, none => (s.bump .ctx Reg.ctxCnt_NOVICTIM).raise .ctx 2
      | none, _ => s

end Sys2Proof.Machine
end

