-- ==== Sys2Proof/Machine/Blocks.lean ====
section
/-!
DEFINITION. The common state machine by which blocks start and stop (R577 to R580, R377, R535).
-/

namespace Sys2Proof.Machine

/-- The home of a page's enable: RING_CTL.EN and HLK_CFG.EN stand for BLK_CTRL.EN on their pages (R377,
R535). -/
def enFld : Page → Fld
  | .ring _ _ => Reg.ringCtl_EN
  | .hlk _ => Reg.hlkCfg_EN
  | _ => Reg.blkCtrl_EN

/-- The hub blocks of R25, HLK apart, which HUB_READY covers. -/
def hubBlocks : List Page :=
  [.hif, .far, .hmmu, .strm, .dlm, .ctx, .rpl, .pwr, .clk, .ras]
    ++ (List.finRange 42).map .mbx

/-- HUB_READY shows whether every hub block is ON (R548). -/
def State.showHub (s : State) : State :=
  s.wr .hif Reg.hifReady_HUB_READY (bit (hubBlocks.all fun p => s.blk p = blkOn))

def isHubBlock (p : Page) : Bool :=
  match p with
  | .hlk _ => false
  | _ => (pageCh? p).isNone

/-- HUB_READY follows a change of a hub block. -/
def State.showHubOf (s : State) (p : Page) : State := if isHubBlock p then s.showHub else s

/-- A block enters STARTING (R579, R580). A ring's pointers become 0 (R377). -/
def State.enterStarting (s : State) (p : Page) : State :=
  let s1 := (((s.setBlk p blkStarting).wr p Reg.blkState_START_ENDED 0).wr p
    Reg.blkState_REARM 0).setBlockRun p {}
  match p with
  | .ring c r =>
    ((((s1.wr (.door c r) Reg.ringHead_HEAD 0).wr (.door c r) Reg.ringTail_TAIL 0).wr (.door c r)
      Reg.ringCplptr_CPL_HEAD 0).wr (.door c r) Reg.ringCplptr_CPL_TAIL 0).modRing c r fun q =>
        { q with tailSeen := 0 }
  | _ => s1.showHubOf p

/-- A block goes from ON to STOPPING. A port that is UP says goodbye and its lanes count as sound
again (R526, R535). -/
def State.enterStopping (s : State) (p : Page) : State :=
  match p with
  | .hlk h =>
    let s1 := s.wr p Reg.hlkStat_LANE_FAIL 0
    if s1.linkLive h then
      (s1.modPort h fun x => { x with mgmt := x.mgmt ++ [.goodbye], leaving := true }).setBlk p blkStopping
    else (s1.setLink h linkDown).setBlk p blkOff
  | _ => (s.setBlk p blkStopping).showHubOf p

/-- EN of a page is written (R579). -/
def State.enable (s : State) (p : Page) (on : Bool) : State :=
  let s1 := s.wr p (enFld p) (bit on)
  let st := s.blk p
  if on then
    if st = blkOff then s1.enterStarting p
    else if st = blkStopping then s1.wr p Reg.blkState_REARM 1
    else s1
  else if st = blkOn then s1.enterStopping p
  else if st = blkStopping then s1.wr p Reg.blkState_REARM 0
  else if st = blkStarting then
    match p with
    | .hlk h =>
      (((s1.setLink h linkDown).wr p Reg.hlkStat_LANE_FAIL 0).setBlk p blkOff).wr p
        Reg.blkState_START_ENDED 1
    | _ => s1.setBlockRun p { s1.blockRun p with ended := true }
  else s1

/-- ENABLE_SET (R579): EN is written 1. -/
def execEnableSet (m : Master) (p : Page) (s : State) : Result :=
  live s <| if s.writable m p 8 then (s.logWrite m p 8 1).enable p true else s

/-- ENABLE_CLEAR (R579, R526): EN is written 0. -/
def execEnableClear (m : Master) (p : Page) (s : State) : Result :=
  live s <| if s.writable m p 8 then (s.logWrite m p 8 0).enable p false else s

/-- Channel and engine blocks wait at the start of STARTING while their GRM page is not ON, and need the
channel's clock (R579). -/
def State.mayStart (s : State) (p : Page) : Bool :=
  match pageCh? p with
  | none => true
  | some c => s.arithOn c && (p = .grm c || s.blk (.grm c) = blkOn)

/-- Steps of a block's start: the eight phases of an engine's self-check, and one otherwise (R580). -/
def startSteps : Page → Nat
  | .eng _ _ => 8
  | _ => 1

/-- BLOCK_START_STEP (R580, R655): a step of a start is done, which is a safe point. A self-check that
fails ends the start of its engine. A port's start is its training (R535). -/
def execBlockStartStep (p : Page) (ok : Bool) (s : State) : Result :=
  live s <|
    let hlk : Bool := match p with | .hlk _ => true | _ => false
    if s.blk p ≠ blkStarting || hlk || !s.mayStart p then s
    else if (s.blockRun p).ended then
      ((s.wr p Reg.blkState_START_ENDED 1).setBlockRun p {}).setBlk p blkStopping
    else if !ok && startSteps p = 8 then
      ((s.raise p 5).setBlockRun p {}).setBlk p blkStopping
    else
      let n := (s.blockRun p).steps + 1
      if n < startSteps p then s.setBlockRun p { steps := n }
      else ((s.setBlockRun p {}).setBlk p blkOn).showHubOf p

/-- A stopping block has nothing left to do: a ring has no command that HEAD has passed, and an engine
has an empty queue and every slot FREE (R377, R580). -/
def State.stopped (s : State) (p : Page) : Bool :=
  match p with
  | .ring c r => !((s.chan c).cmds.any fun h => h.ring = r.val) && !(s.ringOf c r).fetching
  | .eng c e =>
    let g := s.engine c e
    g.queue.isEmpty && g.reentry.isNone && g.scanning.isNone && g.incoming.isEmpty
      && g.slots.all fun t => t.2.state = .free
  | _ => true

/-- BLOCK_STOP_DONE (R579, R580, R377): a stopping block reaches OFF, and starts again where REARM asks
for it. An engine that has only PARKED tiles left seals them. -/
def execBlockStopDone (p : Page) (s : State) : Result :=
  live s <|
    let hlk : Bool := match p with | .hlk _ => true | _ => false
    if s.blk p ≠ blkStopping || hlk then s
    else if s.stopped p then
      let rearm := s.flag p Reg.blkState_REARM
      let s1 := (s.setBlk p blkOff).wr p Reg.blkState_REARM 0
      if rearm then s1.enterStarting p else s1.showHubOf p
    else
      match p with
      | .eng c e =>
        let g := s.engine c e
        let parkedOnly : Bool := g.queue.isEmpty && g.inProgress = 0
          && g.slots.any fun t => t.2.state = .parked
        if s.engRuns c e && parkedOnly then s.makeRoom c e else s
      | _ => s

end Sys2Proof.Machine
end

