-- ==== Sys2Proof/Machine/Resets.lean ====
section
/-!
DEFINITION. What resets do (R19 to R22, R37, R503, R508, R547, R555, R557, R605, R612): to register
pages, to mailboxes, to one channel, and to the device.
-/

namespace Sys2Proof.Machine

/-! ## Pages -/

/-- The hub pages of R648. -/
def hubPages : List Page := hubBlocks ++ (List.finRange 16).map .hlk

/-- The units of a channel beside its engines and rings (R649). -/
def unitPages (c : Ch) : List Page := [.grm c, .cmmu c, .wst c, .ast c, .tnd c, .cvu c, .hbmc c]

def ringPages (c : Ch) : List Page :=
  (List.finRange 16).map (.ring c) ++ (List.finRange 16).map (.door c)

/-- The pages of a channel, its doorbell pages among them. -/
def channelPages (c : Ch) : List Page := unitPages c ++ ringPages c ++ (List.finRange 72).map (.eng c)

/-- A reset of a class restores a list of pages. -/
def State.resetPages (s : State) (ps : List Page) (cls : Nat) : State :=
  ps.foldl (fun s p => s.resetPage p cls) s

/-- A block is ON, with its enable set. -/
def State.turnOn (s : State) (p : Page) : State := (s.wr p (enFld p) 1).setBlk p blkOn

/-! ## Mailboxes (R503) -/

/-- A mailbox is emptied. -/
def State.emptyBox (s : State) (b : MbxId) : State :=
  if (s.slot b).full then
    ((s.modSlot b fun x => { x with full := false, read := false }).wr (.mbx b)
      Reg.mbxSstat_DISCARD 1).raise (.mbx b) 4
  else s

/-- MODE of a channel's two mailboxes: ACKED at 1, PLAIN at 0. -/
def State.setMode (s : State) (c : Ch) (acked : Bool) : State :=
  (s.wr (.mbx (fgBox c)) Reg.mbxCfg_MODE (bit acked)).wr (.mbx (gfBox c)) Reg.mbxCfg_MODE (bit acked)

/-- The sender's side of a mailbox, SEQ apart: the staging words, the flags, REJ_CNT and MBX_ACK_STAT. -/
def State.resetSender (s : State) (b : MbxId) : State :=
  let p := Page.mbx b
  let s1 := (s.setWords p 0x100 (List.replicate 16 0)).setWord p 0x150 0
  (((s1.wr p Reg.mbxSstat_TIMEOUT 0).wr p Reg.mbxSstat_SEND_REJECT 0).wr p Reg.mbxSstat_DISCARD 0).wr p
    Reg.mbxSstat_REJ_CNT 0

/-! ## Stores -/

/-- The contents of a channel's stall and activation store become undefined, and with `all` those of its
HBM stack. -/
def Channel.loseStores (x : Channel) (all : Bool) : Channel :=
  { x with
    stall := x.stall.lose 0 Config.stallBytes
    ast := x.ast.lose 0 Config.astBytes
    hbm := if all then x.hbm.lose 0 Config.hbmBytes else x.hbm }

/-! ## Repair records -/

/-- The spare columns of a column map: what the repair records hold of it (R104, R106). -/
def repairsOf (map : List Nat) : List Nat := map.map fun w => if bitsOf w 0 2 = 1 then w else 0

/-- The repair records take in the column map of every site that holds a slot. -/
def State.recordMaps (s : State) (c : Nat) : State :=
  (List.range 72).foldl (fun s e =>
    if s.siteIn c e = 0x7f then s
    else s.modSite c (s.siteIn c e) fun x =>
      { x with colmap := repairsOf (colmapOffsets.map fun o => s.word (engPage c e) o) }) s

/-! ## Streams -/

/-- Streams whose HOME is a channel become LOST (R310, R605, R612). Their deadline steps end, and so does
a REHOME of one of them. DESIGN CHOICE: a child of a FORK under way, which has no HOME yet, is FREE again. -/
def State.loseStreams (s : State) (c : Nat) : State :=
  let goes (r : StreamRec) : Bool :=
    r.state ≠ strmFree && r.state ≠ strmLost && r.state ≠ strmForking && r.home = c
  let children := (s.chan c).forks.flatMap fun f => f.children.map (·.1)
  let lost : Bool := s.streams.any fun r => goes r.2
  let s1 := match s.rehoming with
    | some (n, _) =>
      if goes (s.stream n) then ({ s with rehoming := none } : State).windowDone .strm strmChannelDown else s
    | none => s
  let s2 : State := { s1 with
    dlm := s1.dlm.map fun (d : Nat × DlmRec) =>
      if goes (s1.stream d.1) then (d.1, { d.2 with instep := false, pending := false }) else d
    streams := s1.streams.map fun (r : Nat × StreamRec) =>
      if goes r.2 then (r.1, { r.2 with state := strmLost, discard := false })
      else if r.2.state = strmForking && children.contains r.1 then (r.1, { r.2 with state := strmFree })
      else r }
  if lost then s2.raise .strm 1 else s2

/-! ## Channel reset (R19, R37, R503, R508, R605, R612) -/

/-- Credits of a class that a channel holds towards the hub after its reset: the blocks that the hub still
has of it keep theirs. -/
def Channel.upAfter (x : Channel) (cls : Nat) : HopCredit :=
  let inQueue := (x.fromCh.entries.filter fun e =>
    match e.1 with
    | .block m | .dropped (some m) => m.block.hdr.cls = cls
    | .tail _ _ | .dropped none => false).length
  { held := 4 - (inQueue + (x.switch.filter fun m => m.block.hdr.cls = cls).length) }

/-- What a channel reset leaves of a channel: the sites with their records and slots, the repair records, what has
already left for the hub, and a gait change under way. The dither source goes on (R145). -/
def Channel.afterReset (x : Channel) : Channel :=
  { ({} : Channel) with
    stall := x.stall, ast := x.ast, hbm := x.hbm
    slotMap := x.slotMap, sites := x.sites, substAt := x.substAt, substWait := x.substWait
    rows := x.rows, repairing := x.repairing, stallSpares := x.stallSpares, astSpares := x.astSpares
    narrowed := x.narrowed, gaitTo := x.gaitTo
    fromCh := x.fromCh, switch := x.switch
    up := (List.range 4).map fun k => (k, x.upAfter k) }.loseStores true

/-- A channel enters channel reset. -/
def State.resetChannel (s : State) (c : Ch) : State :=
  let s1 := (s.channelPathsLost c).loseStreams c
  let own (a : MemAccess) : Bool := reqCh? a.req = some c
  let s2 := (s1.forgetAccesses own).modCache (.cmmu c) fun _ => {}
  let s3 := ((s2.modChan c Channel.afterReset).resetPages (channelPages c) clsChannel).releaseAll
    (masterTag (.groom c))
  let s4 := (s3.emptyBox (fgBox c)).resetSender (gfBox c)
  let s5 : State := { s4 with shares := s4.shares.filter fun sh => sh.chan ≠ c.val }
  s5.wr .pwr (Reg.pwrChStat_PSTATE c) 3

/-! ## Warm reset (R19, R547, R557) -/

/-- The registers of an arith PLL that is locked at 1.2 GHz. -/
def State.lockPll (s : State) (c freq : Nat) : State :=
  (s.wr .clk (Reg.clkArith_LOCKED c) 1).wr .clk (Reg.clkArith_FREQ c) freq

/-- The farrier relocks an arith PLL that does not run at 1.2 GHz (R547). -/
def State.relockFull (s : State) (c : Nat) : State :=
  if s.arithOn c ∧ s.rd .clk (Reg.clkArith_FREQ c) = 3 then s
  else ((s.lockPll c 3).bump .clk (Reg.clkArith_RELOCKS c)).raise .clk 0

/-- What a reset of the main domain leaves of a channel (R19). -/
def Channel.afterWarm (x : Channel) : Channel :=
  { ({} : Channel) with
    stall := x.stall, ast := x.ast, hbm := x.hbm
    slotMap := x.slotMap, sites := x.sites, substAt := x.substAt, substWait := x.substWait
    rows := x.rows, repairing := x.repairing, stallSpares := x.stallSpares, astSpares := x.astSpares
    narrowed := x.narrowed }.loseStores true

/-- The pages whose default class a warm reset takes in (R21). -/
def warmPages : List Page :=
  (hubPages.filter fun p => pageClass p ≤ clsWarm) ++ (List.finRange 4).flatMap channelPages

/-- The records of contexts, streams, translation and the recorder after a reset of the function. The operations
that wait in windows end with the windows' registers; the farrier survives, with the answers that it owes
(R19). -/
def State.clearFunction (s : State) : State :=
  { s with
    holds := [], msix := [], xlat := {}, ctxs := [], ctxSlots := [], loads := [], reliefInto := none
    lastRelief := 255, shares := [], dlm := [], streams := [], rehoming := none, recorder := {}
    dev := { s.dev with
      sealKey := s.dev.sealKey + 1, functionMask := false, jobs := [] } }

/-- A warm reset: all main-domain logic in the hub and every channel, and the ports. Boot goes back to
WAIT_PERST; a re-admission under way is lost. -/
def State.warm (s : State) : State :=
  let s1 := (List.range 4).foldl (fun s c => (s.recordMaps c).modChan c Channel.afterWarm) s
  let boxes := hfBox :: fhBox :: ((List.finRange 4).map fgBox ++ (List.finRange 4).map gfBox)
  let s2 := boxes.foldl (fun s b => (s.emptyBox b).wr (.mbx b) Reg.mbxCfg_MODE 1) s1
  let s3 := (List.finRange 16).foldl (fun s p =>
    if (s.slot (poBox p)).full then s.mailTimeout (poBox p) else s) s2
  let s4 := ({ s3 with ports := [] } : State).clearFunction.resetPages warmPages clsWarm
  let tags := masterTag .host :: ((List.finRange 4).map fun c => masterTag (.groom c))
    ++ (List.finRange 16).map fun p => masterTag (.peer p)
  let s5 := tags.foldl State.releaseAll s4
  let s6 := (List.range 4).foldl (fun s c =>
    let s' := s.relockFull c
    if s'.rd .ras (Reg.rasChStat_STATE c) = 2 then s'.wr .ras (Reg.rasChStat_STATE c) 1 else s') s5
  (if s.dev.farrierUp then s6.wr .far Reg.farBoot_STEP stepWaitPerst else s6).modDev fun d =>
    { d with mainRuns := false }

/-- The main rails are up and the PLLs are locked: the start has reached step 5. -/
def State.railsUp (s : State) : Bool :=
  !s.dev.farrierUp || (stepWaitPerst ≤ s.bootStep && s.bootStep ≤ stepRunning)

/-- WARM_RESET (R19, R547): PERST# is asserted. -/
def execWarmReset (s : State) : Result := live s <| if s.railsUp then s.warm else s

/-- Every harness port that is UP is disabled under R526: it says goodbye and goes DOWN (R557). -/
def State.disablePorts (s : State) : State :=
  (List.finRange 16).foldl (fun s p =>
    if s.linkUp p then
      let (f, x) := (s.port p).sequence { plainFlit 3 with som := true, eom := true, body := .goodbye }
      let (f1, y) := x.stamp f
      ((s.modPort p fun _ => y).emit (.flit p f1)).portLost p .disabled
    else s) s

/-- PCIE_LINK_DOWN (R557): a warm reset, before which the ports that are UP are disabled. -/
def execPcieLinkDown (s : State) : Result :=
  live s <| if s.mainUp then s.disablePorts.warm else s

/-- PCIE_LINK_CHANGE (R655, R662): the trained rate, or the data link layer's state, changes. A fall of
DL_UP acts as a warm reset (R557). -/
def execPcieLinkChange (speed : BitVec 4) (width : BitVec 5) (flit up : Bool) (s : State) : Result :=
  live s <|
    if !s.mainUp then s
    else
      let h := Page.hif
      let changed : Bool := s.rd h Reg.hifLink_SPEED ≠ speed.toNat || s.rd h Reg.hifLink_WIDTH ≠ width.toNat
        || s.flag h Reg.hifLink_DL_UP ≠ up
      let s1 := (((s.wr h Reg.hifLink_SPEED speed.toNat).wr h Reg.hifLink_WIDTH width.toNat).wr h
        Reg.hifLink_FLIT (bit flit)).wr h Reg.hifLink_DL_UP (bit up)
      let s2 := if changed then s1.raise h 1 else s1
      if s.flag h Reg.hifLink_DL_UP && !up then s2.disablePorts.warm else s2

/-! ## Function-level reset (R19, R503, R508, R555) -/

/-- The hub pages that an FLR restores (R21). -/
def flrPages : List Page := hubPages.filter fun p => pageClass p = clsFlr

/-- A block that an FLR does not drop: a break marker on its way to another device (R215). -/
def Moving.staysAtFlr (m : Moving) : Bool := m.tile.isNone && m.next ≠ 16

/-- Tails on their way to the fetcher go with their rings. -/
def CrossQueue.dropTails (q : CrossQueue) : CrossQueue :=
  { q with entries := q.entries.map fun e =>
      match e.1 with
      | .tail _ _ => (.dropped none, e.2)
      | .block _ | .dropped _ => e }

/-- What an FLR leaves of a relay cell. -/
def Relay.afterFlr (r : Relay) : Relay :=
  { r with
    received := [], sending := r.sending.filter Moving.staysAtFlr, sent := r.sent.filter Moving.staysAtFlr }

/-- What an FLR leaves of a channel after the reset of every context: no ring, no command, no page of a
stream, no block that has landed. -/
def Channel.afterFlr (x : Channel) : Channel :=
  { x with
    toCh := x.toCh.dropTails, landing := x.landing.filter fun (l : Nat × Landing) => l.2.block.isNone
    engines := x.engines.map fun (g : Nat × Engine) => (g.1, { g.2 with relay := g.2.relay.afterFlr })
    rings := [], cmds := [], fetchTurn := 0, splitTurn := 0, pages := [], copyFrames := [], paddock := []
    paddockOrder := [], forks := [], scanCounts := [], copies := [], lodgers := [], lodgerHeld := [], tileImages := []
    spills := [] }.loseStores false

/-- A channel that is READY runs steps 9 and 10 of R543 again. -/
def State.restartGroom (s : State) (c : Ch) : State :=
  if s.isReady c then
    ((s.setChState c chGroomBoot).wr (.grm c) Reg.grmStat_RUNNING 0).setMode c true
  else s

/-- INT_MASK and INT_ROUTE of a mailbox page return to reset (R503). -/
def State.resetRoute (s : State) (p : Page) : State :=
  (s.setWord p 0x14 (resetWord p 0x14)).setWord p 0x1c (resetWord p 0x1c)

/-- FLR: HIF_READY and HIF_LINK show what the FLR leaves, and the hub blocks are ON again. -/
def execFlr (s : State) : Result :=
  live s <|
    if !s.mainUp then s
    else
      let ready := s.word .hif 0x100
      let link := s.word .hif 0x104
      let s1 := s.ctxs.foldl (fun s r => s.resetContext r.1) s
      let s2 := (List.finRange 4).foldl (fun s c =>
        (s.modChan c Channel.afterFlr).resetPages (ringPages c) clsFlr)
          (s1.dropBlocks fun m => !m.staysAtFlr).clearFunction
      let s3 := flrPages.foldl (fun s p => s.turnOn p) (s2.resetPages flrPages clsFlr)
      let s4 := ((s3.setWord .hif 0x100 ready).setWord .hif 0x104 link).releaseAll (masterTag .host)
      let s5 := [hfBox, fhBox].foldl (fun s b => (s.emptyBox b).resetRoute (.mbx b)) s4
      (List.finRange 4).foldl (fun s c => s.restartGroom c) s5.showHub

/-! ## Removal (R558) -/

/-- SURPRISE_REMOVAL (R558): the card loses power. Only POWER_ON has an effect after it. -/
def execSurpriseRemoval (s : State) : Result :=
  live s <| { s with dev := { s.dev with powered := false } }

/-! ## Cold reset (R19, R609) -/

/-- What a cold reset leaves of a channel: its repair records. Each soft repair is made permanent (R603). -/
def Channel.afterCold (x : Channel) : Channel :=
  { ({} : Channel) with
    stall := x.stall, ast := x.ast, hbm := x.hbm, slotMap := x.slotMap
    rows := x.rows.filter fun r => !x.repairing.contains r
    stallSpares := x.stallSpares, astSpares := x.astSpares, narrowed := x.narrowed
    sites := x.sites.map fun (r : Nat × Site) => (r.1, { r.2 with tiles := 0, strikes := [] }) }.loseStores true

/-- A cold reset: everything is at its reset value, but for the repair records (R609). -/
def State.cold (s : State) : State :=
  let s1 := (List.range 4).foldl (fun s c => s.recordMaps c) s
  { ({} : State) with
    pending := s.pending, out := s.out, drawn := s.drawn
    chans := (List.range 4).map fun c => (c, (s1.chan c).afterCold)
    dev := { sealKey := s.dev.sealKey + 1 } }

/-- COLD_RESET_REQUEST (R545, R551): a PLDM request performs a cold reset; a farrier in RECOVERY accepts
none. -/
def execColdResetRequest (s : State) : Result :=
  live s <| if s.bootStep = stepRecovery ∨ !s.dev.farrierUp then s else s.cold

end Sys2Proof.Machine
end

