-- ==== Sys2Proof/Machine/Startup.lean ====
section
/-!
DEFINITION. The cold start with its steps (R543 to R548), the retirement of a channel (R604 to R606), and
the farrier's answers to the host (R610).
-/

namespace Sys2Proof.Machine

/-! ## Answers (R501, R610) -/

def msgReadmit : Nat := 0x0101
def msgRetest : Nat := 0x0102
def msgRetire : Nat := 0x0103
def msgRestart : Nat := 0x0104
def msgChreset : Nat := 0x0105

def codeOk : Nat := 0x0000
def codeBadArg : Nat := 0x0003
def codeNotReady : Nat := 0x0005
def codeNotRetired : Nat := 0x0100
def codeNotHeld : Nat := 0x0101
def codeNotLost : Nat := 0x0102
def codeHomeDown : Nat := 0x0103
def codeRepairFail : Nat := 0x0104

/-- The farrier answers a message on FH, as soon as FH is empty (R610). -/
def State.answer (s : State) (type seq code : Nat) : State :=
  let ws := [type + 0x8000, code + seq * 2 ^ 16] ++ List.replicate 14 0
  (s.modDev fun d => { d with answers := d.answers ++ [ws] }).flushAnswers

/-- The farrier answers the messages that it owes an answer and that satisfy a test. -/
def State.settleOwed (s : State) (p : OwedAnswer → Bool) (code : Nat) : State :=
  (s.dev.owed.filter p).foldl (fun s a => s.answer a.type a.seq code)
    (s.modDev fun d => { d with owed := d.owed.filter fun a => !p a })

/-- The answers to READMIT and CHRESET of a channel. -/
def restartOf (c : Nat) (a : OwedAnswer) : Bool :=
  a.chan = c && (a.type = msgReadmit || a.type = msgChreset)

/-! ## Links (R543, step 11) -/

/-- A channel's start has ended, one way or another (R544). -/
def State.chDone (s : State) (c : Nat) : Bool :=
  s.chState c = chReady || s.chState c = chFailed || s.chState c = chRetired

/-- Step 11, once no channel is under way: every port with a peer present is enabled. -/
def State.startLinks (s : State) : State :=
  if s.bootStep = stepChannels ∧ s.dev.farrierUp ∧ (List.range 4).all s.chDone then
    let s1 := (List.finRange 16).foldl (fun s p => if s.present p then s.enable (.hlk p) true else s) s
    (s1.wr .hif Reg.hifReady_LINKS_STARTED 1).wr .far Reg.farBoot_STEP stepRunning
  else s

/-! ## Retirement (R604, R605) -/

/-- RAS_CHn_STAT.STATE. -/
def rasInService : Nat := 0
def rasRetired : Nat := 1
def rasReadmitting : Nat := 2

def State.rasState (s : State) (c : Nat) : Nat := s.rd .ras (Reg.rasChStat_STATE c)

/-- A channel is retired with a cause. A re-admission under way ends as a failure (R609). -/
def State.retireChannel (s : State) (c : Ch) (cause : Nat) : State :=
  let readmitting : Bool := s.rasState c = rasReadmitting
  let s1 := ((s.resetChannel c).setChState c chRetired).wr .ras (Reg.rasChStat_STATE c) rasRetired
  let s2 := (s1.wr .ras (Reg.rasChStat_CAUSE c) cause).raise .ras 2
  let s3 := if readmitting then s2.raise .ras 3 else s2
  (s3.settleOwed (restartOf c) codeRepairFail).startLinks

/-- A step of a channel's start fails: the channel reads FAILED, or RETIRED where it was being re-admitted
(R544, R609, R612). -/
def State.startFails (s : State) (c : Ch) (cause : Nat) : State :=
  if s.rasState c = rasReadmitting then s.retireChannel c cause
  else ((s.setChState c chFailed).settleOwed (restartOf c) codeRepairFail).startLinks

/-- CHANNEL_RETIRE (R604, R605): the farrier retires a channel. A pool found empty, a failed CVU, a failed
UCIe retrain and a PLL that does not relock have shown themselves in the channel's state; the causes 2, 6
and 7 come with the event. -/
def execChannelRetire (c : Ch) (cause : RetireCause) (s : State) : Result :=
  live s <|
    let n := cause.toNat
    let seen : Bool := (s.chan c).failing = some n || n = 2 || n = 6 || n = 7
    if !s.mainUp || !s.dev.farrierUp || s.chState c = chRetired || s.chState c = chOff || !seen then s
    else s.retireChannel c n

/-! ## Power, clocks and the farrier (R543, steps 1 to 5) -/

/-- The result of step 2 for a bank: 0, or the code of FAIL. -/
def bankFail (b : BankImage) (svnMin : Nat) : Nat :=
  if !b.signatureOk then 0x01 else if b.svn.toNat < svnMin then 0x02 else 0x00

/-- The start ends in a step with a code of FAIL. -/
def State.bootEnds (s : State) (step code : Nat) : State :=
  (s.wr .far Reg.farBoot_STEP step).wr .far Reg.farBoot_FAIL code

/-- The blocks of the service domain. -/
def servicePages : List Page := [.far, .pwr, .clk, .ras]

/-- Steps 3 to 5. -/
def State.powerUp (s : State) (p : PowerOnInputs) : State :=
  if p.senseWatts < 300 then s.bootEnds stepPowerLimit 0x03
  else if !p.railsOk then s.bootEnds stepPower 0x04
  else if !p.pllsOk then s.bootEnds stepClocks 0x05
  else ((List.range 4).foldl (fun s c => s.lockPll c 3) s).wr .far Reg.farBoot_STEP stepWaitPerst

/-- The farrier runs the image of a bank. -/
def State.runBank (s : State) (bank svn : Nat) (fallback : Bool) : State :=
  (((s.wr .far Reg.farBoot_BANK bank).wr .far Reg.farFwStat_ACTIVE bank).wr .far Reg.farFwStat_SVN svn).wr
    .far Reg.farBoot_FALLBACK (bit fallback)

/-- Steps 1 to 5 of a cold start. -/
def State.coldStart (s : State) (p : PowerOnInputs) : State :=
  let min' := p.svnMin.toNat
  let first := if p.next then p.bank1 else p.bank0
  let other := if p.next then p.bank0 else p.bank1
  let s1 := (servicePages.foldl State.turnOn s).modDev fun d => { d with deviceId := p.deviceId.toNat }
  let s2 := ((s1.wr .far Reg.farFwStat_NEXT (bit p.next)).wr .far Reg.farFwStat_SVN_MIN min').wr .far
    Reg.farFwStat_BANK0_OK (bit (bankFail p.bank0 min' = 0))
  let s3 := s2.wr .far Reg.farFwStat_BANK1_OK (bit (bankFail p.bank1 min' = 0))
  if bankFail first min' = 0 then (s3.runBank (bit p.next) first.svn.toNat false).powerUp p
  else
    let s4 := s3.wr .far Reg.farBoot_FALLBACK 1
    if bankFail other min' = 0 then (s4.runBank (bit !p.next) other.svn.toNat true).powerUp p
    else s4.bootEnds stepRecovery (bankFail other min')

/-- POWER_ON (R543, R545, R556): auxiliary power arrives, or a cold reset has left the farrier at its boot
ROM, and the start runs to WAIT_PERST or to where it fails. -/
def execPowerOn (p : PowerOnInputs) (s : State) : Result :=
  .next <|
    if !s.dev.powered then (s.cold.modDev fun d => { d with powered := true }).coldStart p
    else if s.bootStep = stepRom then s.coldStart p
    else s

/-! ## The main domain (R543, steps 6 to 10) -/

/-- A channel's start begins at step 7. -/
def State.trainHbm (s : State) (c : Ch) : State := s.setChState c chHbmTrain

/-- PERST_DEASSERT (R543, step 6): the link trains, the hub blocks are ON, and the channels train their HBM
stacks. A retired channel stays in reset until a cold start or a READMIT (R609). -/
def execPerstDeassert (speed : BitVec 4) (width : BitVec 5) (s : State) : Result :=
  live s <|
    if s.bootStep ≠ stepWaitPerst ∨ !s.dev.farrierUp ∨ s.flag .far (Reg.farSb_ASSERTED 0) then s
    else
      let h := Page.hif
      let s1 := (hubBlocks.foldl State.turnOn s).showHub
      let s2 := ((((s1.wr h Reg.hifLink_SPEED speed.toNat).wr h Reg.hifLink_WIDTH width.toNat).wr h
        Reg.hifLink_FLIT (Config.openValue s.drawn % 2)).draw.wr h Reg.hifLink_DL_UP 1).raise h 1
      let s3 := (s2.wr .far Reg.farBoot_STEP stepChannels).modDev fun d => { d with mainRuns := true }
      ((List.finRange 4).foldl (fun s c =>
        if s.rasState c = rasRetired then s.setChState c chRetired else s.trainHbm c) s3).startLinks

/-- CONFIG_REQUEST (R546): a configuration request before step 6 is complete receives Request Retry Status. -/
def execConfigRequest (s : State) : Result :=
  live s <|
    if s.mainUp then s.draw.emit (.completion .ok (Config.openValue s.drawn))
    else s.emit (.completion .retry 0)

/-- HBM_TRAIN_DONE (R543, step 7). -/
def execHbmTrainDone (c : Ch) (ok : Bool) (s : State) : Result :=
  live s <|
    if s.chState c ≠ chHbmTrain then s
    else if ok then (s.wr (.hbmc c) Reg.hbmcStat_TRAINED 1).setChState c chSelftest
    else s.startFails c 7

/-- Engines of a channel's pool, and sites that are HELD, RETESTING or FAILED (R616). -/
def State.poolCount (s : State) (c : Nat) : Nat :=
  ((List.range 8).filter fun k => s.siteIn c (64 + k) ≠ 0x7f).length
def State.failedCount (s : State) (c : Nat) : Nat :=
  ((List.range 72).filter fun n => 2 ≤ (s.site c n).state).length

/-- HBMC_PPR shows the entries of the remap buffer, and whether a soft repair runs (R618). -/
def State.showRows (s : State) (c : Nat) : State :=
  let p := Page.hbmc (Fin.ofNat 4 c)
  let x := s.chan c
  (s.wr p Reg.hbmcPpr_REMAP_USED x.rows.length).wr p Reg.hbmcPpr_BUSY (bit !x.repairing.isEmpty)

/-- The repair records are applied: column maps, the rows in the remap buffer and the counts of RAS_CHn_STAT
(R106, R603, R614, R616). -/
def State.applyRecords (s : State) (c : Nat) : State :=
  let s1 := (List.range 72).foldl (fun s e =>
    if s.siteIn c e = 0x7f then s else s.takeSlot c e (s.siteIn c e)) s
  ((s1.showRows c).wr .ras (Reg.rasChStat_POOL c) (s1.poolCount c)).wr .ras (Reg.rasChStat_FAILED c)
    (s1.failedCount c)

/-- SELFTEST_DONE (R543, step 8): the repair records are applied, and the farrier sends the groom image over
FGc in ACKED mode. -/
def execSelftestDone (c : Ch) (ok : Bool) (s : State) : Result :=
  live s <|
    if s.chState c ≠ chSelftest || !s.arithOn c || !s.dev.farrierUp then s
    else if ok then ((s.applyRecords c).setMode c true).setChState c chGroomBoot
    else s.startFails c 6

/-- The groom runs, with the version of its image (R664). -/
def State.runGroom (s : State) (c : Ch) : State :=
  let p := Page.grm c
  let v := Config.groomVersion.toNat
  ((((s.wr p Reg.grmFw_MAJOR (v / 256)).wr p Reg.grmFw_MINOR (v % 256)).wr p Reg.grmFw_PATCH
    s.dev.groomPatch).wr p Reg.grmStat_RUNNING 1).wr p Reg.grmStat_ASLEEP 0

/-- GROOM_BOOT_ACK (R543, step 9): the groom's acknowledgement of its image. -/
def execGroomBootAck (c : Ch) (code : BitVec 16) (s : State) : Result :=
  live s <|
    if s.chState c ≠ chGroomBoot || !s.arithOn c || !s.dev.farrierUp then s
    else if code = 0 then ((unitPages c).foldl State.turnOn (s.runGroom c)).setChState c chEngineCheck
    else s.startFails c 2

/-- The engines that a start brings up: those of slots whose site is sound. -/
def State.soundSlots (s : State) (c : Nat) : List Nat :=
  (List.range 72).filter fun e => s.siteIn c e ≠ 0x7f && (s.site c (s.siteIn c e)).state < 2

/-- The channel becomes READY (R543, R609, R612). -/
def State.becomeReady (s : State) (c : Ch) : State :=
  let s1 := ((s.setMode c false).wr .pwr (Reg.pwrChStat_PSTATE c) 0).setChState c chReady
  let s2 :=
    if s.rasState c = rasReadmitting then
      ((s1.wr .ras (Reg.rasChStat_STATE c) rasInService).bump .ras (Reg.rasChStat_READMITS c)).raise .ras 3
    else s1
  (s2.settleOwed (restartOf c) codeOk).startLinks

/-- ENGINE_CHECK_DONE (R543, step 10; R544): the groom reports the slots that failed its check, whose sites
are declared failed (R593). The channel becomes READY, or retires where the pool ran out. -/
def execEngineCheckDone (c : Ch) (failed : List SlotId) (s : State) : Result :=
  live s <|
    if s.chState c ≠ chEngineCheck || !s.arithOn c || !s.dev.farrierUp then s
    else
      let sound := s.soundSlots c
      let s1 := sound.foldl (fun s e => s.turnOn (engPage c e)) s
      let s2 := (sound.filter fun e => failed.any fun f => f.val = e).foldl (fun s e => s.declareFailed c e) s1
      match (s2.chan c).failing with
      | some cause => s2.retireChannel c cause
      | none => s2.becomeReady c

/-- CHANNEL_READY_TIMEOUT (R544). -/
def execChannelReadyTimeout (c : Ch) (s : State) : Result :=
  live s <|
    let st := s.chState c
    if chHbmTrain ≤ st ∧ st ≤ chEngineCheck ∧ s.rasState c ≠ rasReadmitting ∧ s.dev.farrierUp then
      s.startFails c 0
    else s

end Sys2Proof.Machine
end

