-- ==== Sys2Proof/Machine/Firmware.lean ====
section
/-!
DEFINITION. The farrier towards its management: PLDM monitoring and firmware update (R551 to R554), the
sideband inputs (R559 to R562), and the events that its page and a stack's sensor show.
-/

namespace Sys2Proof.Machine

/-! ## PLDM (R545, R551, R552) -/

/-- What monitoring exposes. -/
def State.monitoring (s : State) : Pldm :=
  .monitoring (s.rd .pwr Reg.pwrBoard_DRAW_W)
    ((List.finRange 4).map fun c => s.rd (.hbmc c) Reg.hbmcStat_TEMP)
    (bitsOf (s.word .hif 0x100) 0 16) (s.rd .far Reg.farBoot_FAIL)
    ((List.range 10).map fun n => (s.flag .far (Reg.farSb_STUCK n), s.flag .far (Reg.farSb_FAST n)))

/-- A request to the farrier waits while it restarts (R553). -/
def State.pldm (s : State) (f : State → State) : Result := live s <| if s.dev.farrierUp then f s else s

/-- PLDM_MONITOR (R551). -/
def execPldmMonitor (s : State) : Result := s.pldm fun s => s.emit (.pldm s.monitoring)

/-- REQUEST_UPDATE (R552): an update begins, unless one is under way. -/
def execRequestUpdate (s : State) : Result :=
  s.pldm fun s =>
    if s.dev.update.isSome then s.emit (.pldm (.requestUpdate false))
    else (s.modDev fun d => { d with update := some {} }).emit (.pldm (.requestUpdate true))

/-- PASS_COMPONENT_TABLE (R552). -/
def execPassComponentTable (comps : List FwComponent) (s : State) : Result :=
  s.pldm fun s =>
    match s.dev.update with
    | some u => (s.modDev fun d => { d with update := some { u with comps := comps } }).emit
        (.pldm (.passComponents true))
    | none => s.emit (.pldm (.passComponents false))

/-- UPDATE_COMPONENT (R552): the transfer of a component of the table begins. -/
def execUpdateComponent (comp : FwComponent) (s : State) : Result :=
  s.pldm fun s =>
    match s.dev.update with
    | some u =>
      if u.comps.contains comp then
        (s.modDev fun d => { d with update := some { u with current := some comp, data := [] } }).emit
          (.pldm (.updateComponent true))
      else s.emit (.pldm (.updateComponent false))
    | none => s.emit (.pldm (.updateComponent false))

/-- BANKk_OK of a bank. -/
def bankOk (bank : Nat) : Fld := if bank = 0 then Reg.farFwStat_BANK0_OK else Reg.farFwStat_BANK1_OK

/-- The bank from which the farrier does not run, into which a component FARRIER goes (R552). -/
def State.otherBank (s : State) : Nat := 1 - s.rd .far Reg.farFwStat_ACTIVE

/-- A component is verified (R552): its result is reported, and a FARRIER sets its bank's OK bit. -/
def State.verified (s : State) (u : FwUpdate) (comp : FwComponent) (svn : Nat) (ok : Bool) : State :=
  let s1 := s.modDev fun d => { d with update := some { u with
    current := none
    verified := (u.verified.filter fun v => v.1 ≠ comp) ++ if ok then [(comp, svn)] else [] } }
  let s2 := if comp = .farrier then s1.wr .far (bankOk s.otherBank) (bit ok) else s1
  (if ok then s2.wr .far Reg.farFwStat_PENDING 1 else s2).emit (.pldm (.verifyComplete comp ok))

/-- FIRMWARE_DATA (R552, R543 step 2): data of the current component; after the last of it the component is
verified. -/
def execFirmwareData (data : List Byte) (last sigOk : Bool) (svn : Byte) (s : State) : Result :=
  s.pldm fun s =>
    match s.dev.update with
    | some u =>
      match u.current with
      | some comp =>
        let u' := { u with data := u.data ++ data }
        if last then
          s.verified u' comp svn.toNat (sigOk && s.rd .far Reg.farFwStat_SVN_MIN ≤ svn.toNat)
        else s.modDev fun d => { d with update := some u' }
      | none => s
    | none => s

/-! ## Activation (R553, R554) -/

/-- The patch goes to every READY groom over FGc in ACKED mode, and to the others at their next step 9. -/
def State.sendPatch (s : State) : State :=
  let s1 := (s.modDev fun d => { d with groomPatch := Config.openValue s.drawn % 2 ^ 16 }).draw
  (List.finRange 4).foldl (fun s (c : Ch) =>
    if s.isReady c then (s.wr (.grm c) Reg.grmStat_PATCHING 1).setMode c true else s) s1

/-- The farrier restarts from step 2 on the bank of the new image; in RECOVERY the image waits for the next
cold start (R545). -/
def State.restartFarrier (s : State) : State :=
  let s1 := s.wr .far Reg.farFwStat_NEXT s.otherBank
  if s.bootStep = stepRecovery then s1.modDev fun d => { d with update := none }
  else (s1.wr .far Reg.farBoot_STEP stepVerify).modDev fun d => { d with farrierUp := false }

/-- ACTIVATE_FIRMWARE (R553, R554). -/
def execActivateFirmware (s : State) : Result :=
  s.pldm fun s =>
    match s.dev.update with
    | some u =>
      let has (c : FwComponent) : Bool := u.verified.any fun v => v.1 = c
      if u.verified.isEmpty then s.emit (.pldm (.activate false))
      else
        let s1 := (s.wr .far Reg.farFwStat_PENDING 0).emit (.pldm (.activate true))
        let s2 := if has .groom then s1.sendPatch else s1
        if has .farrier then s2.restartFarrier
        else s2.modDev fun d => { d with update := none }
    | none => s.emit (.pldm (.activate false))

/-- A window operation that waited for the farrier runs. -/
def State.runJob (s : State) : FarrierJob → State
  | .strm op _ n => s.strmOp op n
  | .ctx op _ n => s.ctxOp op n
  | .dlm op _ n => s.dlmOp op n

/-- The step in which the farrier continues after a restart: the main domain has kept running. -/
def State.stepAfterRestart (s : State) : Nat :=
  if s.flag .hif Reg.hifReady_LINKS_STARTED then stepRunning
  else if s.dev.mainRuns then stepChannels
  else stepWaitPerst

/-- FARRIER_RESTART_DONE (R553, R655): the farrier runs the new image, or the old one with FALLBACK set
where the new one fails step 2. What waited for it goes on. -/
def execFarrierRestartDone (ok : Bool) (s : State) : Result :=
  live s <|
    if s.dev.farrierUp then s
    else
      let svn := (s.dev.update.bind fun u =>
        u.verified.find? fun v => v.1 = .farrier).elim (s.rd .far Reg.farFwStat_SVN) (·.2)
      let s1 :=
        if ok then s.runBank (s.rd .far Reg.farFwStat_NEXT) svn false
        else s.wr .far Reg.farBoot_FALLBACK 1
      let jobs := s.dev.jobs
      let s2 := (s1.wr .far Reg.farBoot_STEP s1.stepAfterRestart).modDev fun d =>
        { d with farrierUp := true, update := none, jobs := [] }
      let s3 := s2.startLinks
      let s4 := if s3.bootStep = stepRunning then s3.raise .far 2 else s3
      (jobs.foldl State.runJob s4).flushAnswers

/-- GROOM_PATCH_APPLY (R554, R655, R664): a groom applies the patch between two placements. -/
def execGroomPatchApply (c : Ch) (patch : BitVec 16) (s : State) : Result :=
  live s <|
    let p := Page.grm c
    if s.flag p Reg.grmStat_PATCHING && s.mapRuns c then
      ((((s.wr p Reg.grmFw_PATCH patch.toNat).wr p Reg.grmStat_PATCHING 0).setMode c false).modDev fun d =>
        { d with groomPatch := patch.toNat }).raise p 0
    else s

/-! ## Sideband inputs (R559 to R562) -/

/-- Service cycles of the filter: 1 ms (R560). -/
def settleCycles : Nat := 500000

/-- ASSERTED of an input becomes 1: THROTTLE_N throttles (R575, R583). -/
def State.asserts (s : State) (n : Nat) : State :=
  let s1 := s.wr .far (Reg.farSb_ASSERTED n) 1
  if s.flag .far (Reg.farSb_ASSERTED n) || n ≠ 1 then s1
  else ((s1.bump .pwr Reg.pwrCnt_THROTTLES).raise .pwr 1).modDev fun d => { d with throttleRose := true }

/-- SIDEBAND_EDGE (R560, R562): an input changes its level. The fourth edge within the filter's time holds
ASSERTED. -/
def execSidebandEdge (n : Fin 10) (level : Bool) (s : State) : Result :=
  live s <|
    if s.flag .far (Reg.farSb_RAW n) = level then s
    else
      let now := s.cyc domService
      let edges := (now :: (Tab.get {} s.dev.sideband n.val).edges).take 4
      let s1 := ((s.wr .far (Reg.farSb_RAW n) (bit level)).bump .far (Reg.farSb_EDGES n)).modDev fun d =>
        { d with sideband := Tab.set d.sideband n { edges := edges } }
      let fast : Bool := match edges with
        | [_, _, _, first] => now < first + settleCycles
        | _ => false
      if fast then
        let s2 := (s1.asserts n).wr .far (Reg.farSb_FAST n) 1
        if s.flag .far (Reg.farSb_FAST n) then s2 else s2.raise .far 1
      else s1

/-- A cage is empty: its two ports are lost, or end their training (R24, R524). -/
def State.cageEmpty (s : State) (k : Nat) : State :=
  [2 * k, 2 * k + 1].foldl (fun s p =>
    let q : PortId := Fin.ofNat 16 p
    if s.linkLive q then s.portLost q .presence
    else if s.link q = linkTraining then s.setLink q linkDown
    else s) s

/-- SIDEBAND_SETTLE_EXPIRY (R560): an input has held its level for the filter's time. -/
def execSidebandSettleExpiry (n : Fin 10) (s : State) : Result :=
  live s <|
    if s.flag .far (Reg.farSb_RAW n) then s.asserts n
    else
      let s1 := ((s.wr .far (Reg.farSb_ASSERTED n) 0).wr .far (Reg.farSb_FAST n) 0).wr .far
        (Reg.farSb_STUCK n) 0
      if s.flag .far (Reg.farSb_ASSERTED n) && 2 ≤ n.val then s1.cageEmpty (n.val - 2) else s1

/-- SIDEBAND_STUCK_EXPIRY (R560, R562): an input has been ASSERTED for 30,000,000,000 service cycles. -/
def execSidebandStuckExpiry (n : Fin 10) (s : State) : Result :=
  live s <|
    if s.flag .far (Reg.farSb_ASSERTED n) && !s.flag .far (Reg.farSb_STUCK n) then
      (s.wr .far (Reg.farSb_STUCK n) 1).raise .far 0
    else s

/-! ## Other events -/

/-- LOCKSTEP_MISMATCH (R655, R656): the farrier's two cores disagree. -/
def execLockstepMismatch (pc : BitVec 32) (s : State) : Result :=
  live s <| (s.persistent .far 0x06 (pc.toNat / 4)).raise .far 3

/-- HBM_TEMP_UPDATE (R665). -/
def execHbmTempUpdate (c : Ch) (temp : Byte) (s : State) : Result :=
  live s <|
    if !s.mainUp || s.chState c = chRetired then s else s.wr (.hbmc c) Reg.hbmcStat_TEMP temp.toNat

end Sys2Proof.Machine
end

