-- ==== Sys2Proof/Machine/Power.lean ====
section
/-!
DEFINITION. Gaits, power states and the governor (R567 to R577, R581 to R584).
-/

namespace Sys2Proof.Machine

/-! ## Gait changes (R568 to R572) -/

/-- CLK_ARITHc.FREQ of a gait (R567, R568). -/
def gaitFreq (gait : Nat) : Nat := if gait = gWalk then 1 else if gait = gTrot then 2 else 3

def gaitCode : Gait → Nat
  | .walk => gWalk | .trot => gTrot | .canter => gCanter | .gallop => gGallop

def State.requested (s : State) (c : Nat) : Nat := s.rd .pwr (Reg.pwrChCtl_GAIT c)

/-- A preemption save is under way (R572). -/
def State.saving (s : State) : Bool :=
  (List.range 8).any fun i => s.slotState i = slotSaving || s.slotState i = slotPaused

/-- The arith clock of a channel stops. -/
def State.stopClock (s : State) (c : Nat) : State :=
  (s.wr .clk (Reg.clkArith_LOCKED c) 0).wr .clk (Reg.clkArith_FREQ c) 0

/-- Steps 1 to 3 of a gait change, where the requested gait is not the one in force: CHANGING sets, a loan
ends, and the clock stops where it changes. -/
def State.startGait (s : State) (c : Nat) : State :=
  let old := s.gait c
  let new := s.requested c
  if old = new || s.changing c || !s.isReady c || s.pstate c ≠ 0 || !s.arithOn c || s.saving then s
  else
    let s1 := (s.wr .pwr (Reg.pwrChStat_CHANGING c) 1).modChan c fun x => { x with gaitTo := new }
    let s2 := if old = gGallop then s1.wr .pwr (Reg.pwrChStat_LOAN_W c) 0 else s1
    if gaitFreq old = gaitFreq new then s2 else s2.stopClock c

def ctlOff (c : Nat) : Nat := 0x100 + 8 * c

/-- GAIT_REQUEST (R571, R572): a write of GAIT is taken up at once, or when the change under way ends. -/
def execGaitRequest (m : Master) (c : Ch) (gait : Gait) (s : State) : Result :=
  live s <|
    if s.writable m .pwr (ctlOff c) then (s.wr .pwr (Reg.pwrChCtl_GAIT c) (gaitCode gait)).startGait c
    else s

/-- PLL_RELOCK_DONE (R571, R655): an arith PLL that is not locked, in a gait change, at a wake from PARKED
or after a lost lock, has locked, or fails for good (R604). -/
def execPllRelockDone (c : Ch) (ok : Bool) (s : State) : Result :=
  live s <|
    if !s.railsUp || s.arithOn c || s.pstate c = 1 || s.pstate c = 2 then s
    else if ok then
      ((s.lockPll c (gaitFreq (if s.changing c then (s.chan c).gaitTo else s.gait c))).bump .clk
        (Reg.clkArith_RELOCKS c)).raise .clk 0
    else s.modChan c fun x => { x with failing := x.failing.orElse fun _ => some 5 }

/-- When a gait that paired slots ends, its pairs end (R570). -/
def Channel.unpair (x : Channel) : Channel :=
  { x with engines := x.engines.map fun (g : Nat × Engine) =>
      (g.1, { g.2 with
        paired := false
        tiles := g.2.tiles.map fun (t : Nat × TileSlot) => (t.1, { t.2 with mirrored := false }) }) }

/-- GAIT_CHANGE_DONE (R571, steps 4 and 5): the new gait is in force. -/
def execGaitChangeDone (c : Ch) (s : State) : Result :=
  live s <|
    if !s.changing c || !s.arithOn c || s.early c 0x0b (s.chan c).gaitTo then s
    else if !s.mayRecord c then s.recordStall
    else
      let new := (s.chan c).gaitTo
      let s1 := (s.wr .pwr (Reg.pwrChStat_GAIT c) new).wr .pwr (Reg.pwrChStat_CHANGING c) 0
      let s2 := if s.gait c = gWalk || s.gait c = gTrot then s1.modChan c Channel.unpair else s1
      (((s2.bump .pwr Reg.pwrCnt_GAIT_CHANGES).raise .pwr 0).logDec c 0x0b new).startGait c

/-! ## Sleep and park (R576, R577) -/

/-- A power state is requested. -/
def State.requestPower (s : State) (m : Master) (c : Ch) (v : Nat) (f : State → State) : State :=
  if s.writable m .pwr (ctlOff c) then f (s.wr .pwr (Reg.pwrChCtl_PSTATE c) v) else s

/-- SLEEP_REQUEST (R576). -/
def execSleepRequest (m : Master) (c : Ch) (s : State) : Result := live s <| s.requestPower m c 1 id
/-- PARK_REQUEST (R576). -/
def execParkRequest (m : Master) (c : Ch) (s : State) : Result := live s <| s.requestPower m c 2 id

/-- A wake begins: it waits for the loan to shrink (R574). -/
def State.startWake (s : State) (c : Nat) : State :=
  if (s.pstate c = 1 || s.pstate c = 2) && !(s.chan c).waking then
    s.modChan c fun x => { x with waking := true, settled := false }
  else s

/-- RUN_REQUEST (R576): a channel that is ASLEEP or PARKED wakes. -/
def execRunRequest (m : Master) (c : Ch) (s : State) : Result :=
  live s <| s.requestPower m c 0 fun s => s.startWake c

/-- No transfer runs on a channel: no swap, no copy, no fill, no seal and no restore. -/
def Channel.still (x : Channel) : Bool :=
  (x.pages.all fun p => p.state ≠ .incoming && p.state ≠ .out) && x.copyFrames.isEmpty && x.forks.isEmpty
    && x.copies.isEmpty && (x.buffers.all fun b => !b.2.filling)
    && x.engines.all fun (g : Nat × Engine) =>
      g.2.slots.all fun t => t.2.state ≠ .sealing && t.2.state ≠ .restoring

/-- A request of PSTATE may be taken up at all. -/
def State.mayRest (s : State) (c v : Nat) : Bool :=
  s.isReady c && s.pstate c = 0 && s.rd .pwr (Reg.pwrChCtl_PSTATE c) = v && s.arithOn c && !s.changing c

/-- The conditions of ASLEEP: nothing to split, every engine queue empty, no tile FILLING or DRAINING, and
no swap or fill. -/
def State.maySleep (s : State) (c : Nat) : Bool :=
  let x := s.chan c
  s.mayRest c 1 && (x.cmds.all fun h => h.stage = .running)
    && ((List.range 16).all fun r => !s.mayFetch c r && !(s.ringOf c r).fetching)
    && (x.engines.all fun (g : Nat × Engine) =>
      g.2.queue.isEmpty && g.2.inProgress = 0 && g.2.scanning.isNone && g.2.reentry.isNone)
    && x.cvu.run.isNone && x.cvu.queue.isEmpty && x.still

/-- SLEEP_ENTRY (R576). -/
def execSleepEntry (c : Ch) (s : State) : Result :=
  live s <|
    if s.maySleep c then
      (((s.stopClock c).wr .pwr (Reg.pwrChStat_PSTATE c) 1).wr (.hbmc c) Reg.hbmcStat_SELF_REFRESH 1).wr
        (.grm c) Reg.grmStat_ASLEEP 1
    else s

/-- The conditions of PARKED: every ring OFF, every ACCM slot FREE, the paddock empty and no transfer. -/
def State.mayPark (s : State) (c : Nat) : Bool :=
  let x := s.chan c
  s.mayRest c 2 && ((List.range 16).all fun r => s.blk (ringPage c r) = blkOff)
    && (x.engines.all fun (g : Nat × Engine) => g.2.slots.all fun t => t.2.state = .free)
    && x.paddock.isEmpty && x.still

/-- PARK_ENTRY (R576): the PLL is off, and the groom is held in reset. -/
def execParkEntry (c : Ch) (s : State) : Result :=
  live s <|
    if s.mayPark c then
      ((s.stopClock c).wr .pwr (Reg.pwrChStat_PSTATE c) 2).wr (.grm c) Reg.grmStat_RUNNING 0
    else s

/-- What wakes a sleeping channel is there: an accepted tail or a block in its crossing queue, or mail with
WAKE_ON_MAIL at 1. A groom image is mail (R543, step 9). -/
def State.wakes (s : State) (c : Ch) : WakeCause → Bool
  | .tail => (s.chan c).toCh.entries.any fun e => match e.1 with | .tail _ _ => true | .block _ | .dropped _ => false
  | .block => (s.chan c).toCh.entries.any fun e => match e.1 with | .block _ => true | .tail _ _ | .dropped _ => false
  | .mail =>
    s.flag (.mbx (fgBox c)) Reg.mbxCfg_WAKE_ON_MAIL
      && ((s.slot (fgBox c)).full || s.chState c = chGroomBoot)

/-- WAKE_EVENT (R504, R576). -/
def execWakeEvent (c : Ch) (cause : WakeCause) (s : State) : Result :=
  live s <| if s.pstate c = 1 && s.wakes c cause then s.startWake c else s

/-- A channel holds a loan. -/
def State.lent (s : State) : Bool := (List.range 4).any fun c => s.rd .pwr (Reg.pwrChStat_LOAN_W c) ≠ 0

/-- WAKE_COMPLETE (R574, R577): after the loan has shrunk, a channel leaves ASLEEP; one that leaves PARKED
runs steps 9 and 10 of R543 again, with its PLL relocking. -/
def execWakeComplete (c : Ch) (s : State) : Result :=
  live s <|
    let x := s.chan c
    if !x.waking || (s.lent && !x.settled) then s
    else
      let s1 := ((s.modChan c fun x => { x with waking := false, settled := false }).bump .pwr
        Reg.pwrCnt_WAKES).raise .pwr 3
      if s.pstate c = 1 then
        (((s1.lockPll c (gaitFreq (s.gait c))).wr .pwr (Reg.pwrChStat_PSTATE c) 0).wr (.hbmc c)
          Reg.hbmcStat_SELF_REFRESH 0).wr (.grm c) Reg.grmStat_ASLEEP 0
      else ((s1.wr .pwr (Reg.pwrChStat_PSTATE c) 3).setMode c true).setChState c chGroomBoot

/-! ## The governor (R573 to R575) -/

/-- The power share of a gait, in watts (R568). -/
def gaitShare (gait : Nat) : Nat := if gait = gWalk then 30 else if gait = gTrot then 50 else 70

/-- What a channel lends: an idle channel that is not about to wake. -/
def State.lends (s : State) (c : Nat) : Nat :=
  if s.rasState c = rasRetired then 70
  else if (s.chan c).waking then 0
  else if s.pstate c = 1 then 58
  else if s.pstate c = 2 then 66
  else 0

/-- The channel that holds the loan: the lowest one that runs in GALLOP and is not leaving it. -/
def State.holder (s : State) : Option Nat :=
  (List.range 4).find? fun c =>
    s.gait c = gGallop && s.isReady c && s.pstate c = 0 && (!s.changing c || (s.chan c).gaitTo = gGallop)

def State.throttled (s : State) : Bool := s.flag .far (Reg.farSb_ASSERTED 1)

/-- The loan of the period. -/
def State.loan (s : State) (c : Nat) : Nat :=
  if s.holder = some c && s.flag .pwr Reg.pwrCfg_LOAN_EN && !s.throttled then
    min 40 ((List.range 4).map s.lends).sum
  else 0

/-- The limit of a channel under THROTTLE_N, in watts (R575, R583). -/
def State.throttleLimit (s : State) : Nat :=
  (min 350 (max 190 (s.rd .pwr Reg.pwrCfg_THR_W)) - 70) / 4

def State.limit (s : State) (c : Nat) : Nat :=
  let share := gaitShare (s.gait c)
  if s.throttled then min share s.throttleLimit else share + s.rd .pwr (Reg.pwrChStat_LOAN_W c)

/-- DUTY after a period (R573, R575). -/
def State.nextDuty (s : State) (c draw : Nat) : Nat :=
  if s.dev.throttleRose then 4
  else if s.limit c < draw then max 4 (s.duty c - 1)
  else if draw + 5 ≤ s.limit c then min 16 (s.duty c + 1)
  else s.duty c

/-- GOVERNOR_PERIOD (R573 to R575): the draws of the channels and of the board, the loan, the duties, and
gait changes that could not start before. -/
def execGovernorPeriod (draws : Vector Nat 4) (board : Nat) (s : State) : Result :=
  live s <|
    if !s.railsUp then s
    else
      let draw (c : Nat) : Nat := draws.toList.getD c 0
      let loans := (List.range 4).map s.loan
      let s1 := (List.range 4).foldl (fun s c =>
        (s.wr .pwr (Reg.pwrChStat_LOAN_W c) (loans.getD c 0)).modChan c fun x =>
          { x with settled := x.waking }) s
      let duties := (List.range 4).map fun c => s1.nextDuty c (draw c)
      let s2 := (List.range 4).foldl (fun s c =>
        (s.wr .pwr (Reg.pwrChStat_DRAW_W c) (min (draw c) 255)).wr .pwr (Reg.pwrChStat_DUTY c)
          (duties.getD c 16)) s1
      let s3 := (s2.wr .pwr Reg.pwrBoard_DRAW_W (min board 1023)).modDev fun d =>
        { d with throttleRose := false }
      (List.range 4).foldl (fun s c => s.startGait c) s3

/-! ## Clocks and links that fail -/

/-- PLL_LOCK_LOST (R655): an arith PLL loses lock outside a gait change, sleep and park. -/
def execPllLockLost (c : Ch) (s : State) : Result :=
  live s <| if s.arithOn c && !s.changing c then (s.stopClock c).raise .clk 1 else s

/-- UCIE_LINK_ERROR (R584, R604, R656): a flit between hub and channel is retried; where that and the
retrain fail, the channel is to retire. -/
def execUcieLinkError (c : Ch) (retryOk retrainOk : Bool) (s : State) : Result :=
  live s <|
    if !s.mainUp || s.chState c = chRetired then s
    else if retryOk || retrainOk then s.corrected (.grm c)
    else (s.persistent (.grm c) 0x03 0).modChan c fun x =>
      { x with failing := x.failing.orElse fun _ => some 4 }

end Sys2Proof.Machine
end

