-- ==== Sys2Proof/Machine/Clocks.lean ====
section
/-!
DEFINITION. The clock domains of R563, which of them run, and the passing of time while no command waits.
-/

namespace Sys2Proof.Machine

/-- The domains by their codes (R622). -/
def domains : List Nat :=
  [domService, domHub, domPcie] ++ (List.range 4).map domArith ++ (List.range 4).map domPhy ++
    (List.range 16).map domLink

/-- The hub and PCIe PLLs are locked: step 4 of R543 is behind the start. -/
def State.hubClock (s : State) : Bool :=
  s.mainUp || (stepWaitPerst ≤ s.bootStep && s.bootStep ≤ stepRunning)

/-- The clock of a domain runs (R563, R566). An HBM PHY's clock runs while the main domain does, and a port's
while it hears its peer. -/
def State.clockRuns (s : State) (d : Nat) : Bool :=
  if d = domService then true
  else if d = domHub ∨ d = domPcie then s.hubClock
  else if d < domPhy 0 then s.arithOn (d - domArith 0)
  else if d < domLink 0 then s.mainUp
  else (finOf? 16 (d - domLink 0)).elim false fun p => s.link p ≠ linkDown

/-- Time passes: each running domain completes one cycle or none. Which do is open, since no two domains are
related in frequency or in phase (R563). -/
def State.tick (s : State) : State :=
  if !s.dev.powered then s
  else
    let on := domains.filter fun d => s.clockRuns d && Config.edge s.drawn d
    let cycles := on.foldl (fun t d => Tab.set t d (Tab.get 0 t d + 1)) s.cycles
    ({ s with cycles := cycles } : State).draw

end Sys2Proof.Machine
end

