-- ==== Sys2Proof/Machine/Repair.lean ====
section
/-!
DEFINITION. Substitutions that waited, re-tests, row repair, the farrier's messages and the reset of an engine
(R19, R600 to R612).
-/

namespace Sys2Proof.Machine

/-! ## Substitution and re-test (R600, R601, R611) -/

/-- SUBSTITUTION_HOLDOFF_EXPIRY (R600): the interval since the slot's last substitution has passed. -/
def execSubstitutionHoldoffExpiry (c : Ch) (e : SlotId) (s : State) : Result :=
  live s <|
    if !(s.chan c).substWait.contains e.val || !s.dev.farrierUp || !s.arithOn c then s
    else
      match s.remount c e with
      | some k => s.substitute c e k
      | none => s.modChan c fun x => { x with
          substWait := x.substWait.erase e, failing := x.failing.orElse fun _ => some 1 }

/-- Codes of RAS_ENG_REC.STATE (R615). -/
def siteActive : Nat := 0
def sitePool : Nat := 1
def siteHeld : Nat := 2
def siteRetesting : Nat := 3
def siteFailed : Nat := 4

/-- SITE_RETEST (R601): the farrier re-tests a HELD site by itself; one that has returned twice reads FAILED. -/
def execSiteRetest (c : Ch) (phys : SlotId) (s : State) : Result :=
  live s <|
    let x := s.site c phys
    if x.state ≠ siteHeld || s.slotOfSite c phys ≠ 0x7f || !s.isReady c || !s.arithOn c || !s.dev.farrierUp then s
    else s.modSite c phys fun x => { x with state := if 2 ≤ x.returns then siteFailed else siteRetesting }

/-- A failed data column is repaired in a column map (R104, R107, R113): by its own group's check column, or
by the lowest one that is still unused. -/
def repairColumn (map : List Nat) (f : Nat) : Option (List Nat) :=
  let free (n : Nat) : Bool := bitsOf (map.getD n 0) 0 2 ≠ 1
  if map.any fun w => bitsOf w 0 2 = 1 && bitsOf w 8 8 = f then some map
  else
    match if free (f / 64) then some (f / 64) else (List.range 4).find? free with
    | some n => some (map.set n (1 + f * 2 ^ 8))
    | none => none

/-- The column map of a site with the columns that its re-test found failed repaired (R601); none where a column
cannot be. -/
def Site.retestMap (x : Site) (failedCols : List Nat) : Option (List Nat) :=
  failedCols.foldl (fun (m : Option (List Nat)) f => m.bind fun m => repairColumn m (f % 256))
    (some ((List.range 4).map fun n => x.colmap.getD n 0))

/-- The lowest-numbered empty pool slot. -/
def State.emptyPoolSlot (s : State) (c : Nat) : Option Nat :=
  ((List.range 8).map (64 + ·)).find? fun k => s.siteIn c k = 0x7f

/-- A site that has passed its re-test enters a pool slot. -/
def State.returnSite (s : State) (c : Ch) (phys k : Nat) (map : List Nat) : State :=
  let s1 := s.modSite c phys fun x => { x with
    state := sitePool, strikes := [], returns := min 3 (x.returns + 1), colmap := map }
  let epoch := (s.epoch c k + 1) % 16
  let s2 := ((s1.modEngine c k fun _ => {}).resetPage (engPage c k) clsEngine).takeSlot c k phys
  let s3 := (s2.wr (engPage c k) Reg.engSlotId_EPOCH epoch).turnOn (engPage c k)
  let st := Page.ras
  (s3.wr st (Reg.rasChStat_POOL c) (s3.rd st (Reg.rasChStat_POOL c) + 1)).wr st (Reg.rasChStat_FAILED c)
    (s3.rd st (Reg.rasChStat_FAILED c) - 1)

/-- The answer to a RETEST of a site. -/
def retestOf (c phys : Nat) (a : OwedAnswer) : Bool := a.type = msgRetest && a.chan = c && a.phys = phys

/-- RETEST_DONE (R601, R655). -/
def execRetestDone (c : Ch) (phys : SlotId) (pass : Bool) (failedCols : List Nat) (s : State) : Result :=
  live s <|
    let x := s.site c phys
    if x.state ≠ siteRetesting || !s.isReady c || !s.arithOn c || !s.dev.farrierUp then s
    else
      match x.retestMap failedCols, s.emptyPoolSlot c with
      | some m, some k =>
        if pass then ((s.returnSite c phys k m).raise .ras 3).settleOwed (retestOf c phys) codeOk
        else ((s.modSite c phys fun x => { x with state := siteFailed }).raise .ras 3).settleOwed
          (retestOf c phys) codeRepairFail
      | _, _ => ((s.modSite c phys fun x => { x with state := siteFailed }).raise .ras 3).settleOwed
          (retestOf c phys) codeRepairFail

/-! ## Rows of the HBM stack and of the stores (R602, R603, R618) -/

/-- Spare rows or a remap buffer are used up: common logic has failed (R602 to R604). -/
def State.rowsExhausted (s : State) (c : Ch) (p : Page) (bank : Nat) : State :=
  (s.persistent p 0x05 bank).modChan c fun x => { x with failing := x.failing.orElse fun _ => some 6 }

/-- A row of the HBM stack enters the remap buffer, or the channel fails where the buffer is full (R603,
step 1). -/
def State.repairHbm (s : State) (c : Ch) (row : Nat) (persistent : Bool) : State :=
  let x := s.chan c
  let p := Page.hbmc c
  if !s.flag p Reg.hbmcStat_TRAINED || x.rows.contains row || Config.hbmBytes / 1024 ≤ row then s
  else
    let s0 := if persistent then s.persistent p 0x02 (row / 16) else s
    if 16 ≤ x.rows.length then s0.draw.rowsExhausted c p (Config.openValue s0.drawn)
    else
      let s1 := s0.modChan c fun x => { x with rows := x.rows ++ [row], repairing := x.repairing ++ [row] }
      let s2 := (s1.showRows c).raise p 0
      if x.rows.length + 1 = 16 then s2.raise p 2 else s2

/-- The ranges of a row in a store whose banks interleave `unit` bytes and hold `rows` rows each (R348, R356): a
bank's row `j` is its bytes from 1,024 `j` on. -/
def rowRanges (unit rows row : Nat) : List Nat :=
  (List.range (1024 / unit)).map fun i => ((row % rows * (1024 / unit) + i) * 64 + row / rows) * unit

/-- Words of a store become poisoned zeros (R602). -/
def Memory.blot (m : Memory) (unit : Nat) (starts : List Nat) : Memory :=
  starts.foldl (fun m a => (m.put a (List.replicate unit 0)).taint a (a + unit)) m

/-- A spare row takes the place of a store's row, or the bank has none left (R602). -/
def State.remapRow (s : State) (c : Ch) (p : Page) (rows row first : Nat) (spares : List Nat) (use : Channel → Channel) :
    State :=
  if spares.contains row || 64 * rows ≤ row || !s.arithOn c || !s.dev.farrierUp then s
  else
    let s0 := s.persistent p 0x01 (first / 128)
    let s1 := match p with
      | .ast _ => s0.raise p 0
      | _ => s0
    if 16 ≤ (spares.filter fun r => r / rows = row / rows).length then s1.rowsExhausted c p (row / rows)
    else s1.modChan c use

/-- HBM_ROW_REPAIR (R602, R603, R655): a row reaches repair. -/
def execHbmRowRepair (c : Ch) (row : FailingRow) (s : State) : Result :=
  live s <|
    let x := s.chan c
    match row with
    | .hbm row persistent => s.repairHbm c row persistent
    | .stall row =>
      let at' := rowRanges 256 5120 row
      s.remapRow c (.wst c) 5120 row (at'.headD 0) x.stallSpares fun x => { x with
        stallSpares := x.stallSpares ++ [row], stall := x.stall.blot 256 at' }
    | .ast row =>
      let at' := rowRanges 128 1024 row
      s.remapRow c (.ast c) 1024 row (at'.headD 0) x.astSpares fun x => { x with
        astSpares := x.astSpares ++ [row], ast := x.ast.blot 128 at' }

/-- A store without the poison of a range (R585). -/
def Memory.heal (m : Memory) (a n : Nat) : Memory :=
  { m with poison := m.poison.filter fun w => !(w < a + n && a < w + 128) }

/-- SOFT_PPR_DONE (R603, steps 2 and 3): the row is repaired and leaves the buffer, or stays there for
good. -/
def execSoftPprDone (c : Ch) (row : Nat) (ok : Bool) (s : State) : Result :=
  live s <|
    let x := s.chan c
    let p := Page.hbmc c
    if !x.repairing.contains row || !s.dev.farrierUp then s
    else
      let s1 := s.modChan c fun x => { x with repairing := x.repairing.erase row }
      let s2 :=
        if ok then
          ((s1.modChan c fun x => { x with
            rows := x.rows.erase row, hbm := x.hbm.heal (1024 * row) 1024 }).bump p Reg.hbmcPpr_SOFT).bump p
              Reg.hbmcPpr_PENDING_HARD
        else s1
      (s2.showRows c).raise p 1

/-! ## The farrier's messages (R610 to R612) -/

/-- The farrier takes the message of a type that HF holds (R499): an ACKED message is acknowledged. What its
words and its SEQ say goes on to `act`. -/
def State.onMessage (s : State) (type : Nat) (act : List Nat → Nat → State → State) : State :=
  let ws := s.dataWords hfBox
  if !s.mainUp || !s.dev.farrierUp || !(s.slot hfBox).full || ws.headD 0 % 2 ^ 16 ≠ type then s
  else
    let seq := (s.slot hfBox).seq
    let s1 := (s.modSlot hfBox fun x => { x with read := true }).clearSlot hfBox .read
    let s2 :=
      if s.acked hfBox then
        (s1.setWord (.mbx hfBox) 0x150 (seq % 2 ^ 15 * 2 ^ 16 + 2 ^ 31)).raise (.mbx hfBox) 1
      else s1
    act ws seq s2

/-- The unlisted bits of a message are 0: those of word 0 above the type, those of word 1 from bit `n` on, and
those of the words after the `k`-th. -/
def wellFormedMsg (ws : List Nat) (n k : Nat) : Bool :=
  ws.headD 0 < 2 ^ 16 && (ws.getD 1 0) < 2 ^ n && (ws.drop k).all (· = 0)

/-- The channel that word 1 names. -/
def msgCh (ws : List Nat) : Ch := Fin.ofNat 4 (bitsOf (ws.getD 1 0) 0 2)

/-- The answer to a message is due when what it asks for has ended. -/
def State.owe (s : State) (type seq chan phys : Nat) : State :=
  s.modDev fun d => { d with owed := d.owed ++ [⟨type, seq, chan, phys⟩] }

/-- A channel leaves channel reset for step 7 of R543, its PLL locked (R609, R612). -/
def State.startChannel (s : State) (c : Ch) : State :=
  (if s.arithOn c then s else s.relockFull c).trainHbm c

/-- READMIT (R609). -/
def execReadmit (s : State) : Result :=
  live s <| s.onMessage msgReadmit fun ws seq s =>
    let c := msgCh ws
    if !wellFormedMsg ws 2 2 then s.answer msgReadmit seq codeBadArg
    else if s.rasState c ≠ rasRetired then s.answer msgReadmit seq codeNotRetired
    else ((s.wr .ras (Reg.rasChStat_STATE c) rasReadmitting).owe msgReadmit seq c 0).startChannel c

/-- RETEST (R611). -/
def execRetest (s : State) : Result :=
  live s <| s.onMessage msgRetest fun ws seq s =>
    let c := msgCh ws
    let phys := bitsOf (ws.getD 1 0) 2 7
    if !wellFormedMsg ws 9 2 || 72 ≤ phys then s.answer msgRetest seq codeBadArg
    else if (s.site c phys).state ≠ siteHeld && (s.site c phys).state ≠ siteFailed then
      s.answer msgRetest seq codeNotHeld
    else if !s.isReady c || s.slotOfSite c phys ≠ 0x7f then s.answer msgRetest seq codeNotReady
    else (s.modSite c phys fun x => { x with state := siteRetesting }).owe msgRetest seq c phys

/-- RETIRE (R611). -/
def execRetire (s : State) : Result :=
  live s <| s.onMessage msgRetire fun ws seq s =>
    let c := msgCh ws
    if !wellFormedMsg ws 2 2 then s.answer msgRetire seq codeBadArg
    else if s.rasState c ≠ rasInService then s.answer msgRetire seq codeNotReady
    else (s.retireChannel c 8).answer msgRetire seq codeOk

/-- The pages of a stream are private, AWAY and owned by it again; others that shared them keep them. -/
def State.dropPages (s : State) (n : Nat) : State :=
  let c := (s.stream n).home
  let mine := (s.chan c).pages.filter fun p => p.sharers.contains n
  (mine.foldl (fun s p => s.releasePage c n p) s).modChan c fun x =>
    { x with copyFrames := x.copyFrames.filter fun f => f.stream ≠ n }

/-- RESTART (R607). -/
def execRestart (s : State) : Result :=
  live s <| s.onMessage msgRestart fun ws seq s =>
    let w (i : Nat) : Nat := ws.getD i 0
    let n := bitsOf (w 1) 0 10
    let home := bitsOf (w 1) 10 2
    let va := w 2 + w 3 * 2 ^ 32
    let steps := w 4 + w 5 * 2 ^ 32
    if !wellFormedMsg ws 12 6 || 2 ^ 48 ≤ va || 2 ^ 48 ≤ steps then s.answer msgRestart seq codeBadArg
    else if (s.stream n).state ≠ strmLost then s.answer msgRestart seq codeNotLost
    else if !s.isReady home then s.answer msgRestart seq codeHomeDown
    else ((s.dropPages n).modStream n fun r => { r with
      state := strmOpen, home := home, stateVa := va, steps := steps }).answer msgRestart seq codeOk

/-- CHRESET (R612). -/
def execChreset (s : State) : Result :=
  live s <| s.onMessage msgChreset fun ws seq s =>
    let c := msgCh ws
    if !wellFormedMsg ws 2 2 then s.answer msgChreset seq codeBadArg
    else if !s.isReady c then s.answer msgChreset seq codeNotReady
    else ((s.resetChannel c).owe msgChreset seq c 0).startChannel c

/-! ## Engine reset (R19) -/

/-- A requester that works in an engine slot. -/
def ofEngine (c e : Nat) (r : RequesterId) : Bool :=
  reqSlot r = e && (reqCh? r).any fun k => k.val = c

/-- An engine is reset: what it works on is lost, and the slot's epoch stays. -/
def State.resetEngine (s : State) (c e : Nat) : State :=
  let g := s.engine c e
  let s1 := (g.queue ++ g.reentry.toList).foldl (fun s k => s.ecDone c k stTileLost) s
  let s2 := g.scanning.elim s1 fun k => (s1.unpin c k).ecDone c k stTileLost
  let s3 := g.slots.foldl (fun s t =>
    if t.2.state = .free then s else s.loseTile c e t.1 stTileLost (some causeTileLost)) s2
  let s4 := (g.incoming.flatMap (·.closing)).foldl (fun s k => s.ecDone c k stTileLost) s3
  let sent := (s4.engine c e).relay
  let s5 := (s4.forgetAccesses fun a => ofEngine c e a.req).modEngine c e fun _ => { ({} : Engine) with
    relay := { credits := sent.credits, sent := sent.sent, sending := sent.sending.filter fun m => m.tile.isNone } }
  (s5.resetPage (engPage c e) clsEngine).stateMap c

/-- ENGINE_RESET (R19): the groom of the channel or the farrier issues it for one slot. -/
def execEngineReset (m : Master) (c : Ch) (e : SlotId) (s : State) : Result :=
  live s <|
    let may : Bool := match m with
      | .farrier => true
      | .groom k => k = c
      | .host | .peer _ => false
    if may && (s.isReady c || s.chState c = chEngineCheck) && s.arithOn c then s.resetEngine c e else s

end Sys2Proof.Machine
end

