-- ==== Sys2Proof/Machine/Dispositions.lean ====
section
/-!
DEFINITION. The dispositions ABORT_COMMAND and ABORT_CONTEXT (R437, R439 to R442, R340, R631), and requests to
host memory that PCIe fails (R433, R542).
-/

namespace Sys2Proof.Machine

/-! ## The end of a command (R437, R440) -/

/-- Engine commands of other host commands that wait in a queue to accumulate into a tile. -/
def waitingFor (queue : List EngCmd) (x : TileSlot) (num : Nat) : List EngCmd :=
  let own := queue.filter fun k => k.ofTile x && !k.again
  (own.takeWhile fun k => hdAccum k.descs && k.op ≠ opDrain).filter fun k => k.num ≠ num

/-- A tile of an aborted command is released without drain: other commands that have accumulated into it, or
wait to, complete TILE_LOST. -/
def State.abortTile (s : State) (c e t num : Nat) : State :=
  let g := s.engine c e
  let x := g.tile t
  let waiting := waitingFor g.queue x num
  let s1 := s.ecsDone c ((x.closing.filter fun k => k.num ≠ num) ++ waiting) stTileLost
  let s2 := (s1.dropRepeats c e x).modEngine c e fun g => { g with
    queue := g.queue.filter fun k => !waiting.contains k
    credit := { g.credit with owed := g.credit.owed + waiting.length } }
  let s3 := match x.last with
    | some k => s2.sendBreak c e k x.tkind causeTileLost
    | none => s2
  s3.freeTile c e t

/-- A command leaves an engine. -/
def State.abortInEngine (s : State) (c e num : Nat) : State :=
  let g := s.engine c e
  let own (k : EngCmd) : Bool := k.num = num
  let queued := g.queue.filter fun k => own k && !k.again
  let ofPiece (p : Piece) : Bool := p.owner.info.num = some num
  let dropped := ((g.writes ++ g.assembling).filter ofPiece).length
  let scans := (g.scanning.toList ++ g.reentry.toList).filter own
  let s1 := queued.foldl (fun s k =>
    if hasTileBody k.op then s.sendBreak c e k (pathTkind k) causeTileLost else s) s
  let s2 := scans.foldl (fun s k => s.unpin c k) s1
  let s3 := s2.modEngine c e fun g => { g with
    queue := g.queue.filter fun k => !own k
    reentry := g.reentry.filter fun k => !own k
    scanning := g.scanning.filter fun k => !own k
    output := g.output.filter fun p => !ofPiece p
    writes := g.writes.filter fun p => !ofPiece p
    assembling := g.assembling.filter fun p => !ofPiece p
    writeCredit := { g.writeCredit with owed := g.writeCredit.owed + dropped }
    credit := { g.credit with owed := g.credit.owed + queued.length } }
  let s4 := g.slots.foldl (fun s t =>
    if t.2.state ≠ .free && t.2.closing.any own then s.abortTile c e t.1 num else s) s3
  let gone := g.incoming.filter fun x => x.closing.any own
  let s5 := (gone.flatMap fun x => x.closing.filter fun k => !own k).foldl
    (fun s k => s.ecDone c k stTileLost) s4
  let s6 := s5.modEngine c e fun g => { g with incoming := g.incoming.filter fun x => !gone.contains x }
  (s6.sweep c e).settle c e

/-- A command leaves the units beside the engines. -/
def State.abortInUnits (s : State) (c num : Nat) : State :=
  let x := s.chan c
  let own (k : EngCmd) : Bool := k.num = num
  let pads := x.paddocked.filter fun p => own p.2.cmd
  let bufs := (x.buffers.filter fun b => b.2.num = num).map (·.1)
  let s1 := if x.cvu.run.any fun r => own r.cmd then s.wr (cvuPage c) Reg.cvuStat_BUSY 0 else s
  let s2 := bufs.foldl (fun s b => s.wr (.wst (Fin.ofNat 4 c)) (bufFld b) 0) s1
  let s3 := (pads.foldl (fun s p => s.unpin c p.2.cmd) s2).dropHeld c own
  s3.modChan c fun y => { y with
    cvu := { y.cvu with
      queue := y.cvu.queue.filter fun r => !own r.cmd
      run := y.cvu.run.filter fun r => !own r.cmd }
    paddock := y.paddock.filter fun p => !own p.2.cmd
    paddockOrder := y.paddockOrder.filter fun e => !(pads.any fun p => p.1 = e)
    copies := y.copies.filter fun r => !own r.cmd
    buffers := y.buffers.filter fun b => b.2.num ≠ num }

/-- A command leaves an engine's part of a saved context (R440). -/
def State.abortInShare (s : State) (c ctx num : Nat) (g : EngShare) : State :=
  let own (k : EngCmd) : Bool := k.num = num
  let lost := g.tiles.filter fun t => t.2.closing.any own
  let waiting := lost.flatMap fun t => waitingFor g.queue t.2 num
  let others := (lost.map (·.2) ++ g.incoming).flatMap fun x =>
    if x.closing.any own then x.closing.filter fun k => !own k else []
  let s1 := (g.queue.filter fun k => own k && !k.again && hasTileBody k.op).foldl (fun s k =>
    s.sendBreak c g.slot k (pathTkind k) causeTileLost) s
  let s2 := lost.foldl (fun s t => t.2.last.elim s fun k => s.sendBreak c g.slot k t.2.tkind causeTileLost)
    (s1.ecsDone c (others ++ waiting) stTileLost)
  s2.modShare c ctx fun h =>
    if h.slot ≠ g.slot then h
    else
      let h1 := lost.foldl (fun h t => h.without t.1) h
      let again (k : EngCmd) : Bool := k.again && lost.any fun t => k.ofTile t.2
      { h1 with
        queue := h1.queue.filter fun k => !own k && !waiting.contains k && !again k
        reentry := h1.reentry.filter fun k => !own k
        scanning := h1.scanning.filter fun k => !own k
        incoming := h1.incoming.filter fun x => !x.closing.any own }

/-- A command leaves the saved contexts of its channel. -/
def State.abortInShares (s : State) (c num : Nat) : State :=
  let s1 := s.shares.foldl (fun s sh =>
    if sh.chan = c then sh.engines.foldl (fun s g => s.abortInShare c sh.ctx num g) s else s) s
  { s1 with shares := s1.shares.map fun sh =>
      if sh.chan = c then { sh with
        cvu := sh.cvu.filter fun r => r.cmd.num ≠ num
        paddock := sh.paddock.filter fun p => p.cmd.num ≠ num }
      else sh }

/-- ABORT_COMMAND ends a command: it completes ABORTED. -/
def State.abortCommand (s : State) (c num : Nat) : State :=
  match (s.chan c).cmd? num with
  | none => s
  | some h =>
    let s1 := (s.chan c).engines.foldl (fun s (g : Nat × Engine) => s.abortInEngine c g.1 num) s
    let s2 := ((s1.abortInUnits c num).abortInShares c num).forgetAccesses fun a =>
      a.info.num = some num && (reqCh? a.req).any fun k => k.val = c
    let h' := { h with ecs := (((s2.chan c).cmd? num).getD h).ecs.map fun r =>
      if r.status = none then { r with status := some stAborted } else r }
    (s2.finish c h' stAborted).stateMap c

/-- ABORT_COMMAND on a lodger fill (R368): the buffer is free, no further tile of the command is placed, and it
completes ABORTED once its tiles of earlier chunks have completed. -/
def State.abortFill (s : State) (c b num : Nat) : State :=
  let s1 := (s.modChan c fun y => { y with
    buffers := Tab.erase y.buffers b, lodgers := y.lodgers.filter (· ≠ num) }).wr (.wst (Fin.ofNat 4 c)) (bufFld b) 0
  let held := ((s1.chan c).lodgerHeld.map (·.2)).filter fun k => k.num = num
  let s1 := (s1.ecsDone c held stAborted).dropHeld c fun k => k.num = num
  match (s1.chan c).cmd? num with
  | none => s1
  | some h =>
    let s2 := s1.modCmd c num fun h => { h with
      next := h.next + 1, total := h.next + 1
      ecs := h.ecs ++ [{ idx := h.next, slot := 0x7f, tile := 0, status := some stAborted }] }
    if h.stage = .running then s2 else s2.pastSplit c h

/-! ## What ABORT_COMMAND does to each requester (R437) -/

/-- The image of a tile restore is given up, and the command that waits completes TILE_LOST. -/
def State.abortRestore (s : State) (c e t : Nat) : State :=
  let x := s.tile c e t
  let own (i : TileImage) : Bool := i.ctx = x.ctx && i.name = x.name && i.engine = e
  let tkind := ((s.chan c).tileImages.find? own).elim 0 (·.tile.tkind)
  let s1 := (s.modChan c fun y => { y with tileImages := y.tileImages.filter fun i => !own i }).modTile c e t
    fun _ => {}
  match (s1.engine c e).queue.find? (·.ofTile x) with
  | some k => ((s1.sendBreak c e k tkind causeTileLost).modEngine c e fun g =>
      { g with queue := k :: g.queue.erase k }).dismiss c e k stTileLost
  | none => s1

/-- The same of a tile in a saved context. -/
def State.abortSavedRestore (s : State) (c ctx : Nat) (g : EngShare) (t : Nat) (x : TileSlot) : State :=
  let own (i : TileImage) : Bool := i.ctx = ctx && i.name = x.name && i.engine = g.slot
  let tkind := ((s.chan c).tileImages.find? own).elim 0 (·.tile.tkind)
  let s1 := s.modChan c fun y => { y with tileImages := y.tileImages.filter fun i => !own i }
  match g.queue.find? (·.ofTile x) with
  | some k => ((s1.sendBreak c g.slot k tkind causeTileLost).ecDone c k stTileLost).modShare c ctx fun h =>
      if h.slot = g.slot then { h.without t with queue := h.queue.erase k } else h
  | none => s1.modShare c ctx fun h => if h.slot = g.slot then h.without t else h

/-- A seal or a restore of a tile in a saved context is abandoned. -/
def State.abortSavedSeal (s : State) (c e t ctx : Nat) : State :=
  let share := ((s.shares.find? fun sh => sh.chan = c && sh.ctx = ctx).bind fun sh =>
    sh.engines.find? fun g => g.slot = e)
  match share.bind fun g => (g.tiles.find? fun x => x.1 = t).map fun x => (g, x.2) with
  | some (g, x) =>
    if x.state = .sealing then s.modShare c ctx fun h =>
      if h.slot = e then { h with tiles := Tab.set h.tiles t { x with state := .parked } } else h
    else if x.state = .restoring then s.abortSavedRestore c ctx g t x
    else s
  | none => s

/-- A seal or a restore is abandoned. -/
def State.abortSeal (s : State) (c e t ctx : Nat) : State :=
  let x := s.tile c e t
  if (s.slotOfCtx ctx).isNone then s.abortSavedSeal c e t ctx
  else if x.state = .sealing then s.modTile c e t fun x => { x with state := .parked }
  else if x.state = .restoring then s.abortRestore c e t
  else s

/-- The read-back of a spilled block is given up: the block is released, and a break marker in its place makes
its receiver complete TILE_LOST (R200). -/
def State.abortReadBack (s : State) (c ctx : Nat) : State :=
  match (s.chan c).spills.find? fun p => p.ctx = ctx with
  | none => s
  | some p =>
    let m : Moving := { p.block with
      backed := false
      block := { hdr := { p.block.block.hdr with kind := kindBreak, cause := causeTileLost }, values := [] } }
    let s1 := ((s.modChan c fun y => { y with spills := y.spills.erase p }).bump (tndPage c)
      Reg.tndCnt_LOST).raise (tndPage c) 2
    (s1.land c m).elim s1 (·.2)

/-- The save or the restore of a context is abandoned. -/
def State.abortSave (s : State) (i ctx : Nat) : State :=
  if s.slotState i = slotLoading then s.resetRecord ctx
  else
    let own (r : RequesterId) : Bool := match r with
      | .save _ j => j.val = i
      | _ => false
    ((((s.forgetAccesses fun a => own a.req).wr .ctx (Reg.ctxSlot_STATE i) slotResident).modSlotRec i fun x =>
      { x with reported := [] }).modCtx ctx fun r => { r with state := ctxResident })

/-- A state transfer is abandoned (R340). -/
def State.abortTransfer (s : State) (c n i : Nat) : State :=
  let x := s.chan c
  let p := x.page n i
  if p.state = .incoming then
    let waiting := x.paddocked.filter fun q =>
      p.sharers.contains (scanStream q.2.cmd) && (neededPages q.2.cmd).contains i
    let s1 := s.modChan c fun y => y.putPage p { p with state := .away, frame := 0 }
    (waiting.map fun q => q.2.cmd.num).dedup.foldl (fun s num => s.abortCommand c num) s1
  else if p.state = .out || p.state = .recalled then
    s.modChan c fun y => y.putPage p { p with state := .resident, dirty := true, stuck := true }
  else s

/-- A batch of a log is lost (R630, R631). -/
def State.loseBatch (s : State) (n : Nat) : State :=
  let gap := s.rd .rpl Reg.rplStat_GAP
  ((((s.modLog n fun l => { l with writing := none, lost := l.lost + 1 }).wr .rpl Reg.rplStat_GAP
    (gap ||| 2 ^ n)).bump .rpl Reg.rplCnt_LOST).raise .rpl 1)

/-- MARKING shows whether a mark is under way. -/
def State.showMarking (s : State) : State :=
  s.wr .rpl Reg.rplStat_MARKING (bit !s.recorder.marking.isEmpty)

/-- The address of a channel's mark area (R643). -/
def State.markVa (s : State) (c : Nat) : Nat :=
  s.rd .rpl Reg.rplMarkarea_VA * 2 ^ 21 + c * s.rd .rpl Reg.rplMarkarea_MB * 2 ^ 20

/-- A log write or a mark is abandoned (R631, R632). -/
def State.abortRecorder (s : State) (n va : Nat) : State :=
  let lo := s.markVa n
  if s.recorder.marking.contains n && lo ≤ va && va < lo + s.rd .rpl Reg.rplMarkarea_MB * 2 ^ 20 then
    (s.modRec fun r => { r with marking := r.marking.erase n }).showMarking
  else if (s.log n).writing.isSome then s.loseBatch n
  else s

/-- ABORT_COMMAND of a requester. -/
def State.abortRequester (s : State) (a : MemAccess) : State :=
  let ends (c : Ch) : State := a.info.num.elim s fun num => s.abortCommand c num
  match a.req with
  | .ringFetch c r => (s.modRing c r fun q => { q with fetching := false }).stopRing c r
  | .splitRead c _ | .addrGen c _ _ | .drain c _ | .scan c _ | .initRead c _ | .cvu c | .copy c => ends c
  | .lodger c b => a.info.num.elim s fun num =>
    if (s.chan c).anyCmd fun _ k => k.num = num && k.refetch then s.abortCommand c num else s.abortFill c b num
  | .transfer c n i => s.abortTransfer c n i
  | .seal c e t => s.abortSeal c e t a.ctx
  | .save _ i => s.abortSave i a.ctx
  | .landing c i =>
    if a.write then s.modChan c fun y =>
      let l := Tab.get { cls := 0, shared := false } y.landing i
      { y with landing := Tab.set y.landing i { l with spilling := false } }
    else s.abortReadBack c a.ctx
  | .sync c r => ((ends c).modRing c r fun q => { q with sync := .idle, word := none }).stopRing c r
  | .completion c r => (s.modRing c r fun q => { q with parked := true }).stopRing c r
  | .recorder n => s.abortRecorder n a.va
  | .walk _ _ => s

/-- A disposition other than RETRY: it is applied to the fault that it names (R439, R441). -/
def State.dispose (s : State) (m : Master) (id : BitVec 24) (action : Nat) (act : FaultEntry → State → State) :
    State :=
  if s.reaches m .hmmu ∧ mayDispose m then
    match s.faultOf id with
    | some f => act f (((s.logDisposition f action).freeFault f.id).onResume f.access.req)
    | none => s.badDisposition
  else s

/-- ABORT_COMMAND (R437, R440). -/
def execAbortCommand (m : Master) (fault : BitVec 24) (s : State) : Result :=
  live s <| s.dispose m fault 2 fun f s => s.abortRequester f.access

/-- Every log stops until a new mark (R631). -/
def State.stopLogs (s : State) : State :=
  (s.modRec fun r => { r with
    marking := []
    logs := r.logs.map fun (l : Nat × Log) => (l.1, { l.2 with recording := false, filling := [], writing := none })
    }).showMarking.wr .rpl Reg.rplStat_REC 0

/-- ABORT_CONTEXT (R440, R631): the faulting context is reset. -/
def execAbortContext (m : Master) (fault : BitVec 24) (s : State) : Result :=
  live s <| s.dispose m fault 3 fun f s =>
    let ctx := f.access.ctx
    let s1 := if (s.ctxRec ctx).state = ctxNone then s.resetContext ctx else s.resetRecord ctx
    match f.access.req with
    | .recorder _ => s1.stopLogs
    | _ => s1

/-! ## Requests that PCIe fails (R433, R542) -/

/-- What an engine command's access serves. -/
def cmdInfo (k : EngCmd) : ReqInfo :=
  { ring := some k.ring, cmdid := some (hdCmdid k.descs), num := some k.num
    stream := if namesStream k.descs then some (hdStream k.descs) else none, tile := k.name }

/-- What the access of a requester serves at this moment; none where it has no access under way. -/
def State.serving (s : State) (req : RequesterId) (ctx : Nat) : Option ReqInfo :=
  let ofCmd (k : Option EngCmd) : Option ReqInfo := (k.filter fun k => k.ctx = ctx).map cmdInfo
  match req with
  | .ringFetch c r => if (s.ringOf c r).fetching then some { ring := some r } else none
  | .splitRead c r => ((s.chan c).head? r).bind fun h =>
      match h.stage with
      | .reading _ => some { ring := some r, cmdid := some (hdCmdid h.descs), num := some h.num }
      | .queued | .splitting | .running => none
  | .addrGen c e l => ofCmd (((s.engine c e).runs.find? fun r => r.cmd.ctx = ctx && !(r.lane l).done).map (·.cmd))
  | .drain c e =>
    let g := s.engine c e
    (ofCmd (g.drain.map (·.cmd))).or ((g.writes.find? fun p => p.owner.ctx = ctx).map (·.owner.info))
  | .scan c e | .initRead c e => ofCmd (s.engine c e).scanning
  | .cvu c => ofCmd ((s.chan c).cvu.run.map (·.cmd))
  | .copy c => ofCmd (((s.chan c).copies.find? fun r => r.cmd.ctx = ctx).map (·.cmd))
  | .lodger c b => (((s.chan c).buffers.find? fun q => q.1 = b.val && q.2.ctx = ctx && q.2.filling).bind fun q =>
      (s.chan c).cmd? q.2.num).map fun h =>
        { ring := some h.ring, cmdid := some (hdCmdid h.descs), num := some h.num }
  | .transfer c n i =>
    let p := (s.chan c).page n i
    if p.state = .incoming || p.state = .out || p.state = .recalled || p.handing.isSome then
      some { stream := some n } else none
  | .seal c e t =>
    let x := s.tile c e t
    if x.state = .sealing || x.state = .restoring then some { tile := x.name } else none
  | .save _ i => if s.slotState i = slotSaving || s.slotState i = slotLoading then some {} else none
  | .landing _ _ => some {}
  | .sync c r => (s.syncing c r).map fun h =>
      { ring := some r, cmdid := some (hdCmdid h.descs), num := some h.num }
  | .completion c r => (s.ringOf c r).held.head?.map fun q => { ring := some r, cmdid := some (q.word % 2 ^ 32) }
  | .recorder n => if (s.log n).writing.isSome || s.recorder.marking.contains n.val then some {} else none
  | .walk _ _ => none

/-- The AER report of a failure (R542). -/
def failureAer : PcieFailure → Aer
  | .unsupported => .unsupported
  | .abort => .abort
  | .poisoned => .poisoned
  | .timeout => .timeout

/-- PCIE_REQUEST_FAILURE (R422, R433, R542): a table read makes its walk fault, any other access faults with
BUS_ERROR. -/
def execPcieRequestFailure (req : RequesterId) (ctx : CtxId) (va : BitVec 48) (write : Bool) (kind : PcieFailure)
    (s : State) : Result :=
  live s <|
    match req with
    | .walk k i =>
      match (s.cache k).walks.find? (·.1 = i) with
      | some (_, w) =>
        let s1 := s.emit (.aer (failureAer kind))
        match w.stage with
        | .table => s1.walkFault k i w causeNoContext 0
        | .level n .host _ => s1.walkFault k i w causeWalkError n
        | .level _ _ _ => s
      | none => s
    | _ =>
      match s.serving req ctx.toNat with
      | some info =>
        if !s.mainUp || s.stalled req then s
        else
          (s.emit (.aer (failureAer kind))).fault
            { req := req, ctx := ctx.toNat, va := va.toNat, write := write, info := info } causeBusError 3
      | none => s

end Sys2Proof.Machine
end

