-- ==== Sys2Proof/Machine/Replay.lean ====
section
/-!
DEFINITION. Marks (R632, R633), the batches of the logs (R629), and the start, stop and end of a replay
(R634, R635, R639 to R641).
-/

namespace Sys2Proof.Machine

/-- A write to a register of RPL that needs RPL_LOCK0 takes effect (R642). -/
def State.rplWritable (s : State) (m : Master) (off : Nat) : Bool :=
  s.writable m .rpl off && s.holdsLock m .rpl 0

/-- LEVELc (R620). -/
def State.levelOf (s : State) (c : Nat) : Nat := bitsOf (s.rd .rpl Reg.rplCfg_LEVEL) (2 * c) 2

/-- The context that translates log, mark and replay-ring accesses. -/
def State.logCtx (s : State) : Nat := s.rd .rpl Reg.rplCfg_LOGCTX

/-! ## Marks -/

/-- MARK (R632): every READY channel whose LEVEL is not OFF begins its mark, under one new number. -/
def State.startMark (s : State) : State :=
  let cs := (List.range 4).filter fun c => s.isReady c && s.levelOf c ≠ 0
  if cs.isEmpty || !s.recorder.marking.isEmpty then s
  else
    ((s.modRec fun r => { r with marking := cs }).wrap .rpl Reg.rplStat_MARKNO).showMarking

/-- MARK. -/
def execMark (m : Master) (s : State) : Result :=
  live s <| if s.rplWritable m 0x164 then s.startMark else s

/-- The CRC-32C of each stall region of a channel, 0 for an invalid one (R628). -/
def State.stallCrcs (s : State) (c : Nat) : List Nat :=
  let p : Page := .wst (Fin.ofNat 4 c)
  (List.range 16).map fun n =>
    let lo := s.rd p (Reg.wstRgnA_BASE n)
    let hi := min (s.rd p (Reg.wstRgnA_LIMIT n)) 5120
    if s.flag p (Reg.wstRgnB_VALID n) && lo < hi then
      crc32c ((s.chan c).stall.readBytes (lo * 65536) ((hi - lo) * 65536))
    else 0

/-- The words of a page that differ from their reset values, by offset. -/
def State.pageWords (s : State) (p : Page) : Tab Nat :=
  (s.regs.filter fun w => w.1 / 4096 = pageIndex p).map fun w => (w.1 % 4096, w.2)

/-- The registers of a ring: its configuration page, and behind it its doorbell page. -/
def State.ringWords (s : State) (c r : Nat) : Tab Nat :=
  s.pageWords (ringPage c r) ++ (s.pageWords (doorPage c r)).map fun w => (4096 + w.1, w.2)

/-- The resident contexts (R632). -/
def State.residents (s : State) : List Nat :=
  ((List.range 8).filter fun i => s.slotState i = slotResident).map s.slotCtx

/-- A channel with the tiles that are being sealed back in PARKED, as their image holds them. -/
def Channel.unsealed (x : Channel) : Channel :=
  { x with engines := x.engines.map fun (g : Nat × Engine) => (g.1, { g.2 with
      tiles := g.2.tiles.map fun (t : Nat × TileSlot) =>
        (t.1, if t.2.state = .sealing then { t.2 with state := .parked } else t.2) }) }

/-- The mark image of a channel. -/
def State.markImage (s : State) (c : Nat) : MarkImage :=
  let x := s.chan c
  let taken := s.residents.foldl (fun s n => s.takeShare c n) (s.modChan c Channel.unsealed)
  let homed (n : Nat) : Bool := (s.stream n).state ≠ strmFree && (s.stream n).home = c
  { markNo := s.rd .rpl Reg.rplStat_MARKNO, chan := c, key := s.dev.sealKey, gait := s.gait c
    shares := taken.shares.filter fun sh => sh.chan = c
    cmds := x.cmds, nextCmd := x.nextCmd, nextUid := x.nextUid, forks := x.forks, scanCounts := x.scanCounts
    copies := x.copies, lodgers := x.lodgers, lodgerHeld := x.lodgerHeld, tileImages := x.tileImages
    spills := x.spills
    rings := x.rings, ringRegs := (List.range 16).map fun r => (r, s.ringWords c r)
    streams := s.streams.filter fun r => homed r.1
    dlm := s.dlm.filter fun d => homed d.1
    ctxs := s.ctxs.filter fun r => (List.range 16).any fun q => s.ringCtx c q = r.1 }

/-- The bytes of a channel's mark images (R461, R632). -/
def State.markBytes (s : State) (c : Nat) : Nat := (s.residents.map (s.chan c).saveBytes).sum

/-- The log of a channel begins anew at its mark (R622, R626, R632, step 4). -/
def Log.begin (l : Log) (lvl markNo : Nat) : Log :=
  { l.close with recording := true, lvl := lvl, dseq := [], bseq := 0, markNo := markNo, lost := 0 }

/-- A bit of RPL_STAT.REC, and of GAP. -/
def State.setRec (s : State) (c : Nat) (on : Bool) : State :=
  let v := s.rd .rpl Reg.rplStat_REC
  s.wr .rpl Reg.rplStat_REC (setBits v c 1 (bit on))
def State.clearGap (s : State) (n : Nat) : State :=
  s.wr .rpl Reg.rplStat_GAP (setBits (s.rd .rpl Reg.rplStat_GAP) n 1 0)

/-- A channel leaves the mark; MARK_DONE sets with the last one. -/
def State.leaveMark (s : State) (c : Nat) : State :=
  let s1 := (s.modRec fun r => { r with marking := r.marking.erase c }).showMarking
  if s1.recorder.marking.isEmpty then s1.raise .rpl 0 else s1

/-- The access that writes the mark images of a channel. -/
def State.markAccess (s : State) (c : Ch) : MemAccess :=
  { req := .recorder (c.castLE (by decide)), ctx := s.logCtx, va := s.markVa c, write := true }

/-- MARK_DONE (R632, steps 1 to 5): once no context moves, the images are written, and recording begins with
the MARK record. -/
def execMarkDone (c : Ch) (s : State) : Result :=
  live s <|
    if !s.recorder.marking.contains c.val || s.contextsMove || !s.dev.farrierUp || s.changing c then s
    else
      match s.sealVa (s.markAccess c) (s.markBytes c) with
      | (s1, false) => s1
      | (s1, true) =>
        let image := s1.markImage c
        let s2 := s1.modRec fun r => { r with
          images := image :: r.images.filter fun i => i.chan ≠ c.val || i.markNo ≠ image.markNo }
        let s3 := ((s2.modLog c fun l => l.begin (s.levelOf c) image.markNo).setRec c true).clearGap c
        (s3.logTo c (domArith c) (.mark image.markNo (s.gait c) (s.stallCrcs c))).leaveMark c

/-! ## Batches (R629, R631) -/

/-- Entries of a ring of batches, by the LOG2N of its base. -/
def batchRing (log2n : Nat) : Nat := 2 ^ (min log2n 12 + 4)

/-- BATCH_WRITE (R629): the first held batch is written, where the ring has room. -/
def execBatchWrite (log : Fin 5) (s : State) : Result :=
  live s <|
    let l := s.log log
    let size := batchRing (s.rd .rpl (Reg.rplLogBase_LOG2N log))
    let tail := s.rd .rpl (Reg.rplLogPtr_TAIL log)
    match l.held with
    | [] => s
    | b :: rest =>
      if l.writing.isSome || !s.mainUp || (tail + 1) % size = s.rd .rpl (Reg.rplLogPtr_HEAD log) % size then s
      else s.modLog log fun l => { l with writing := some b, held := rest }

/-- The access that writes the next batch of a log, at its TAIL. -/
def State.batchAccess (s : State) (log : Fin 5) : MemAccess :=
  { req := .recorder log, ctx := s.logCtx, write := true
    va := (s.rd .rpl (Reg.rplLogBase_BASE log) + s.rd .rpl (Reg.rplLogPtr_TAIL log) %
      batchRing (s.rd .rpl (Reg.rplLogBase_LOG2N log))) * 4096 }

/-- A batch is written at the tail of its ring: whether all of it was. -/
def State.writeBatch (s : State) (log : Fin 5) (b : Batch) : State × Bool :=
  match s.writeVa (s.batchAccess log) hbmData (batchBytes log b) with
  | (t, _, ok) => (t, ok)

/-- The slot after TAIL in the ring of a log. -/
def State.nextTail (s : State) (log : Fin 5) : Nat :=
  (s.rd .rpl (Reg.rplLogPtr_TAIL log) + 1) % batchRing (s.rd .rpl (Reg.rplLogBase_LOG2N log))

/-- A batch is written: TAIL moves on and the batch counter counts it. -/
def State.batchDone (s : State) (log : Fin 5) (tail : Nat) : State :=
  ((s.modLog log fun l => { l with writing := none }).wr .rpl (Reg.rplLogPtr_TAIL log) tail).bump .rpl
    Reg.rplCnt_BATCHES

/-- The batch goes to the ring; once all of it is written it is done. -/
def State.acceptBatch (s : State) (log : Fin 5) (b : Batch) : State :=
  if (s.writeBatch log b).2 then (s.writeBatch log b).1.batchDone log (s.nextTail log)
  else (s.writeBatch log b).1

/-- BATCH_ACCEPTED (R629): the batch has been written, and TAIL advances. -/
def execBatchAccepted (log : Fin 5) (s : State) : Result :=
  live s <|
    match (s.log log).writing with
    | none => s
    | some b => s.acceptBatch log b

/-! ## The numbers of a replay (R634) -/

/-- A descriptor of the log under the numbers of the replay: context and stream of a header, and of a link
extension the context of the next hop, and its channel where the block stays in the recorded one. -/
def State.shiftHead (s : State) (d : Nat) : Nat :=
  setBits (setBits d 16 8 (s.shiftCtx (bitsOf d 16 8))) 24 10 (s.shiftStream (bitsOf d 24 10))

def State.shiftLink (s : State) (d : Nat) : Nat :=
  let d' := setBits d 48 8 (s.shiftCtx (bitsOf d 48 8))
  if bitsOf d 36 5 = 16 && bitsOf d 41 2 = s.rd .rpl Reg.rplRpCfg_SRC then setBits d' 41 2 s.target else d'

def State.shiftDescs (s : State) (ds : List Nat) : List Nat :=
  match ds with
  | [] => []
  | h :: es => s.shiftHead h :: es.map fun d => if d % 256 = 3 then s.shiftLink d else d

def State.shiftCmd (s : State) (k : EngCmd) : EngCmd :=
  { k with ctx := s.shiftCtx k.ctx, descs := s.shiftDescs k.descs }

def State.shiftHdr (s : State) (h : BlockHdr) : BlockHdr :=
  let src := s.rd .rpl Reg.rplRpCfg_SRC
  let own (d : Nat) : Nat := if d = src then s.target else d
  { h with dctx := s.shiftCtx h.dctx, dch := own h.dch, sch := own h.sch }

def State.shiftMoving (s : State) (m : Moving) : Moving :=
  { m with block := { m.block with hdr := s.shiftHdr m.block.hdr } }

def State.shiftDrain (s : State) (d : Drain) : Drain := { d with cmd := s.shiftCmd d.cmd }

def State.shiftTile (s : State) (x : TileSlot) : TileSlot :=
  { x with
    ctx := s.shiftCtx x.ctx, list := x.list.map s.shiftCmd, closing := x.closing.map s.shiftCmd
    last := x.last.map s.shiftCmd, geo := x.geo.map s.shiftCmd, resume := x.resume.map s.shiftDrain }

def State.shiftRun (s : State) (r : EngRun) : EngRun := { r with cmd := s.shiftCmd r.cmd }

def State.shiftPad (s : State) (p : Paddocked) : Paddocked := { p with cmd := s.shiftCmd p.cmd }

def State.shiftEngShare (s : State) (g : EngShare) : EngShare :=
  { g with
    queue := g.queue.map s.shiftCmd, reentry := g.reentry.map s.shiftCmd, scanning := g.scanning.map s.shiftCmd
    runs := g.runs.map s.shiftRun, tiles := g.tiles.map fun (t : Nat × TileSlot) => (t.1, s.shiftTile t.2)
    received := g.received.map s.shiftMoving, sending := g.sending.map s.shiftMoving
    incoming := g.incoming.map s.shiftTile }

/-- A share as the target's channel and the replay's context hold it. -/
def State.shiftShare (s : State) (sh : CtxShare) : CtxShare :=
  { sh with
    ctx := s.shiftCtx sh.ctx, chan := s.target, engines := sh.engines.map s.shiftEngShare
    cvu := sh.cvu.map fun r => { r with cmd := s.shiftCmd r.cmd }, paddock := sh.paddock.map s.shiftPad }

def State.shiftHost (s : State) (h : HostCmd) : HostCmd :=
  { h with
    descs := s.shiftDescs h.descs
    children := h.children.map fun v => v / 1024 * 1024 + s.shiftStream (v % 1024) }

def State.shiftFork (s : State) (f : ForkJob) : ForkJob :=
  { f with
    parent := s.shiftStream f.parent
    children := f.children.map fun (k : Nat × Nat) => (s.shiftStream k.1, k.2) }

/-! ## REPLAY (R635) -/

/-- A replay context is resident in a slot. -/
def State.reside (s : State) (n : Nat) : State :=
  match s.loadTarget with
  | none => s
  | some i => (s.setSlot i slotResident n).modCtx n fun r => { r with state := ctxResident, slot := i, woken := false }

/-- The rings of the image come up on the target, bound to the replay's contexts. -/
def State.loadRings (s : State) (c : Nat) (i : MarkImage) : State :=
  i.ringRegs.foldl (fun s (q : Nat × Tab Nat) =>
    let r := q.1
    let put (s : State) (w : Nat × Nat) : State :=
      if w.1 < 4096 then s.setWord (ringPage c r) w.1 w.2 else s.setWord (doorPage c r) (w.1 - 4096) w.2
    let s1 := q.2.foldl put s
    (s1.wr (ringPage c r) Reg.ringCtl_CTX (s1.shiftCtx (s1.ringCtx c r))).modRing c r fun _ =>
      { Tab.get {} i.rings r with fetching := false }) s

/-- The streams' STEPS and deadline monitor entries go into the entries of the replay streams. -/
def State.loadStreams (s : State) (i : MarkImage) : State :=
  let s1 := i.streams.foldl (fun s (r : Nat × StreamRec) =>
    s.modStream (s.shiftStream r.1) fun x => { x with steps := r.2.steps }) s
  i.dlm.foldl (fun s (d : Nat × DlmRec) => s.modDlm (s.shiftStream d.1) fun _ => d.2) s1

/-- Commands, units and save regions of the image, under the replay's numbers. -/
def State.loadChannel (s : State) (c : Nat) (i : MarkImage) : State :=
  s.modChan c fun x => { x with
    cmds := i.cmds.map s.shiftHost, nextCmd := i.nextCmd, nextUid := i.nextUid
    forks := i.forks.map s.shiftFork, scanCounts := i.scanCounts
    copies := i.copies.map fun r => { r with cmd := s.shiftCmd r.cmd }, lodgers := i.lodgers
    lodgerHeld := i.lodgerHeld.map fun k => (k.1, s.shiftCmd k.2)
    tileImages := i.tileImages.map fun t => { t with ctx := s.shiftCtx t.ctx, tile := s.shiftTile t.tile }
    spills := i.spills.map fun p => { p with ctx := s.shiftCtx p.ctx, block := s.shiftMoving p.block } }

/-- A context of the image was resident at the mark. -/
def MarkImage.resident (i : MarkImage) (n : Nat) : Bool := (Tab.get {} i.ctxs n).state ≠ ctxAway

/-- A share of the image is taken up: by the target's engines where its context was resident, and as the
context's own image otherwise (R633). -/
def State.loadShare (s : State) (c : Nat) (i : MarkImage) (sh : CtxShare) : State :=
  let sh' := s.shiftShare sh
  if i.resident sh.ctx then
    let s1 := sh'.engines.foldl (fun s g => s.putEngine c g) (s.padsBack c sh'.scans)
    s1.modCvu c fun u => { u with queue := u.queue ++ sh'.cvu }
  else ({ s with shares := s.shares ++ [sh'] } : State).modCtx sh'.ctx fun r => { r with image := true }

/-- The target takes the recorded gait. -/
def State.loadGait (s : State) (c gait : Nat) : State :=
  ((s.wr .pwr (Reg.pwrChCtl_GAIT c) gait).wr .pwr (Reg.pwrChStat_GAIT c) gait).wr .clk (Reg.clkArith_FREQ c)
    (gaitFreq gait)

/-- The shadow copy of the target's slot map, epochs and live strikes (R637). -/
def State.shadowOf (s : State) (c : Nat) : Tab (Nat × Nat × Nat) :=
  (List.range 72).map fun e => (e, s.siteIn c e, s.epoch c e, (s.site c (s.siteIn c e)).live)

/-- The image is loaded, and the records run from the one behind MARK on. -/
def State.loadImage (s : State) (c : Nat) (i : MarkImage) : State :=
  let homes := (i.ctxs.filter fun r => r.2.state = ctxResident).map (·.1)
  let s0 := (s.loadChannel c i).loadRings c i
  let s1 := homes.foldl (fun s n => s.reside (s.shiftCtx n)) s0
  let s2 := i.shares.foldl (fun s sh => s.loadShare c i sh) s1
  let s3 := ((s2.loadStreams i).loadGait c i.gait).modRec fun r => { r with
    next := [(domArith (s.rd .rpl Reg.rplRpCfg_SRC), 1)], resumed := false, forcing := false, decisions := []
    completions := [], finished := [], inputs := [], entries := [], used := 32 + 16 * recUnits (.mark 0 0 (List.range 16))
    crossings := 0, partial' := [], shadow := s.shadowOf c, upsets := [], mismatches := [], discarded := 0 }
  ((s3.wr .rpl Reg.rplStat_STATE rplReplaying).wr .rpl Reg.rplStat_STOPCAUSE 0).stateMap c

/-- A replay that cannot be set up stops (R635). -/
def State.setupFails (s : State) : State := s.stopReplay stopSetup

/-- REPLAY (R635): the CRCs of the MARK record are compared with the target's stall regions, and the image of
that mark of the recorded channel is loaded. -/
def execReplay (m : Master) (markNo : BitVec 16) (crcs : List Word) (s : State) : Result :=
  live s <|
    let c := s.target
    if !s.rplWritable m 0x164 || !(s.replayState = rplIdle || s.replayState = rplDone) then s
    else
      match s.recorder.images.find? fun i => i.chan = s.rd .rpl Reg.rplRpCfg_SRC && i.markNo = markNo.toNat with
      | none => s.setupFails
      | some i =>
        let free := ((List.range 8).filter fun j => s.slotState j = slotFree && !s.isRelief j).length
        if !s.isReady c || i.key ≠ s.dev.sealKey || s.stallCrcs c ≠ crcs.map BitVec.toNat
            || free < (i.ctxs.filter fun r => r.2.state = ctxResident).length then s.setupFails
        else s.loadImage c i

/-! ## The end of a replay (R640, R641) -/

/-- The replay ends: its own state goes, the target is reset, and STATE is DONE. -/
def State.endReplay (s : State) (cause : Nat) : State :=
  let c : Ch := Fin.ofNat 4 s.target
  let s1 := s.modRec fun r => { r with
    next := [], resumed := false, decisions := [], completions := [], finished := [], inputs := [], entries := []
    crossings := 0, partial' := [], shadow := [], upsets := [], mismatches := [] }
  let s2 := ((s1.wr .rpl Reg.rplStat_STATE rplDone).wr .rpl Reg.rplStat_STOPCAUSE cause).raise .rpl 3
  if s2.isReady c then (s2.resetChannel c).startChannel c else s2

/-- RPL_STOP (R640): it ends any replay. -/
def execRplStop (m : Master) (s : State) : Result :=
  live s <|
    let st := s.replayState
    if s.rplWritable m 0x164 && (st = rplLoading || st = rplReplaying || st = rplStopped) then
      s.endReplay stopHost
    else s

/-- RPL_RESUME (R640): a replay stopped by STOPAT or UPSET continues, and one stopped by NO_DATA once the
missing data is in place. -/
def execRplResume (m : Master) (placed : Bool) (s : State) : Result :=
  live s <|
    let cause := s.rd .rpl Reg.rplStat_STOPCAUSE
    if s.rplWritable m 0x164 && s.replayState = rplStopped
        && (cause = stopStopat || cause = stopUpset || (cause = stopNoData && placed)) then
      (((s.wr .rpl Reg.rplStat_STATE rplReplaying).wr .rpl Reg.rplStat_STOPCAUSE 0).modRec fun r =>
        { r with resumed := true })
    else s

end Sys2Proof.Machine
end

