-- ==== Sys2Proof/Machine/Views.lean ====
section
/-!
DEFINITION. What a register shows: the stored word, with the fields that show other state of the block put
in its place (R14, R645 to R657 and the register tables of the chapters).
-/

namespace Sys2Proof.Machine

/-- The code of ENG_TSLOT.STATE (R168, R169). -/
def TileState.code : TileState → Nat
  | .free => 0 | .filling => 1 | .draining => 2 | .parked => 3 | .held => 4 | .sealing => 5 | .restoring => 6

/-! ## Engines -/

/-- ENG_TSLOTn (R169). CTX is the context slot of the owner. DESIGN CHOICE: for an owner that holds none, it reads
0. -/
def State.tslotView (s : State) (t : Nat) (x : TileSlot) : List (Fld × Nat) :=
  [(Reg.engTslot_STATE t, x.state.code), (Reg.engTslot_CTX t, (s.slotOfCtx x.ctx).getD 0),
    (Reg.engTslot_GUARDED t, bit x.guarded), (Reg.engTslot_RETRIES t, x.retries),
    (Reg.engTslot_LONGSUM t, bit x.longsum), (Reg.engTslot_MISMATCH t, bit x.mismatch),
    (Reg.engTslot_TILE t, x.name)]

/-- ENG_WREG_STAT (R83): the working register is A while WSEL is 0. -/
def Engine.wregView (g : Engine) (wsel : Nat) : List (Fld × Nat) :=
  let (work, shadow) := if wsel = 0 then (g.regA, g.regB) else (g.regB, g.regA)
  let slice (r : WReg) : Nat := r.entry.elim 0 fun x => x.slice
  [(Reg.engWregStat_SHADOW_READY, bit shadow.ready), (Reg.engWregStat_SHADOW_LOADING, bit shadow.loading),
    (Reg.engWregStat_WSLICE, slice work), (Reg.engWregStat_SSLICE, slice shadow)]

/-- ENG_TND_STAT (R213). Blocks beyond the relay cell's two, such as those of break markers and of a restore, are
not shown. -/
def Engine.tndView (g : Engine) : List (Fld × Nat) :=
  let w := g.slots.findSome? fun t => if t.2.state = .filling then t.2.await else none
  [(Reg.engTndStat_AWAITING, bit w.isSome), (Reg.engTndStat_FOLDED, w.elim 0 (·.folded)),
    (Reg.engTndStat_RELAY_OCC, min 2 g.relay.occ), (Reg.engTndStat_CLASS, w.elim 0 fun a => a.cls.getD 0),
    (Reg.engTndStat_CLASSV, w.elim 0 fun a => bit a.cls.isSome), (Reg.engTndStat_TAG, w.elim 0 (·.tag))]

/-- ENG_DRAIN_STAT (R251). -/
def State.drainView (s : State) (c : Ch) (e : SlotId) : List (Fld × Nat) :=
  let g := s.engine c e
  let sends (k : EngCmd) : Bool := tRole k.descs = roleHead || tRole k.descs = roleMid
  let at' (f : Drain → Nat) : Nat := g.drain.elim 0 f
  [(Reg.engDrainStat_BUSY, bit g.drain.isSome), (Reg.engDrainStat_STALLED, bit (s.stalled (.drain c e))),
    (Reg.engDrainStat_NOCREDIT, bit (g.writeCredit.held = 0)), (Reg.engDrainStat_SLOT, at' (·.slot)),
    (Reg.engDrainStat_BLOCK, at' (·.block)),
    (Reg.engDrainStat_DEST, at' fun d => if sends d.cmd then 3 else bOdest d.cmd.descs),
    (Reg.engDrainStat_WAITING, bit (1 < g.drains.length))]

/-- How far a lane's fetches have come: the command in progress, and the slice in its order. -/
def Engine.fetchPlace (g : Engine) (x : EngRun × Nat) : Nat :=
  (g.runs.map (·.cmd.uid)).idxOf x.1.cmd.uid * 2 ^ 16
    + (if isProduct x.1.cmd.op then x.1.cmd.order.idxOf x.2 else x.2)

/-- ENG_AG_STAT (R281). The slowest lane is the one that has fetched least of the tiles in progress; once every
lane has fetched all of them, the first tile is shown while it is in progress. -/
def State.agView (s : State) (c : Ch) (e : SlotId) : List (Fld × Nat) :=
  let g := s.engine c e
  let lanes := (List.range 8).filterMap (s.toFetch c e)
  let slow := lanes.foldl (fun (best : Option (EngRun × Nat)) x =>
    match best with
    | some b => if g.fetchPlace x < g.fetchPlace b then some x else some b
    | none => some x) none
  let k := (slow.map (·.1.cmd)).or (g.runs.head?.map (·.cmd))
  [(Reg.engAgStat_BUSY, bit !g.runs.isEmpty),
    (Reg.engAgStat_STALLED, bit ((List.finRange 8).any fun l => s.stalled (.addrGen c e l))),
    (Reg.engAgStat_COMPRESSED, k.elim 0 fun k => bit (bIcomp k.descs)),
    (Reg.engAgStat_PATCH, k.elim 0 fun k => (windowOf k.descs).patch),
    (Reg.engAgStat_DIAG, k.elim 0 fun k => bit (k.op = opDwconv)),
    (Reg.engAgStat_SLICE, slow.elim 0 (·.2)), (Reg.engAgStat_ELIDED_TILE, k.elim 0 (·.elided))]

/-- The head of the queue holds its place (R180, R315, R337). -/
def State.headWaits (s : State) (c : Ch) (e : SlotId) : Bool :=
  let g := s.engine c e
  match g.queue with
  | [] => false
  | k :: _ =>
    if k.op = opScan then g.scanning.isSome || (s.chan c).headWaits k
    else if !hasTileBody k.op then g.drain.isSome
    else
      match g.slotOf k.ctx k.name with
      | some t =>
        let st := (g.tile t).state
        st ≠ .parked && !(hdAccum k.descs && st = .filling)
      | none => g.incoming.any k.ofTile

/-- ENG_QSTAT (R660). -/
def State.queueView (s : State) (c : Ch) (e : SlotId) : List (Fld × Nat) :=
  let g := s.engine c e
  [(Reg.engQstat_OCC, g.queue.length), (Reg.engQstat_HEADWAIT, bit (s.headWaits c e)),
    (Reg.engQstat_REENTRY, bit g.reentry.isSome), (Reg.engQstat_SCAN_BUSY, bit g.scanning.isSome),
    (Reg.engQstat_FILLING, (g.slots.filter fun t => t.2.state = .filling).length),
    (Reg.engQstat_HEADCTX, (g.queue.map (·.ctx)).headD 0)]

/-- The groups without a check column (R110, R112). -/
def State.unchecked (s : State) (p : Page) : Nat :=
  ((List.range 4).map fun n => bit (s.rd p (Reg.engColmap_MODE n) ≠ 0) * 2 ^ n).sum

/-- KNOT of the two banks (R131), as the engine whose page it is or its primary builds them. -/
def State.knotViews (s : State) (c : Ch) (e by' : SlotId) : List (Fld × Nat) :=
  (List.range 2).map fun n =>
    (Reg.engLnsBank_KNOT n,
      if s.flag (.eng c e) (Reg.engLnsBank_BUILDING n) then s.knots c by' n
      else s.rd (.eng c e) (Reg.engLnsBank_KNOT n))

/-- What an engine works on. The secondary of a pair shows its copy of the primary's mirrored tiles, whose
mismatch flags are its own (R569, R570). -/
def State.workViews (s : State) (c : Ch) (e : SlotId) : List (Fld × Nat) :=
  let wsel := s.rd (.eng c e) Reg.engWregStat_WSEL
  match (primaryOf (s.gait c) e).filter fun p => (s.engine c p).paired with
  | some p =>
    let g := s.engine c p
    let copy (x : TileSlot) : TileSlot := if x.mirrored then { x with mismatch := x.mateMismatch } else {}
    g.wregView wsel ++ g.slots.flatMap (fun t => s.tslotView t.1 (copy t.2)) ++ s.agView c (Fin.ofNat 72 p)
      ++ s.queueView c (Fin.ofNat 72 p) ++ s.knotViews c e (Fin.ofNat 72 p)
  | none =>
    let g := s.engine c e
    g.wregView wsel ++ g.slots.flatMap (fun t => s.tslotView t.1 t.2) ++ s.agView c e ++ s.queueView c e
      ++ s.knotViews c e e

def State.engViews (s : State) (c : Ch) (e : SlotId) : List (Fld × Nat) :=
  let p := Page.eng c e
  s.workViews c e ++ (s.engine c e).tndView ++ s.drainView c e ++
    [(Reg.engChkStat_UNCHECKED, s.unchecked p), (Reg.engSlotId_PHYS, s.siteIn c e),
      (Reg.engSlotId_STRIKES, (s.site c (s.siteIn c e)).live)]

/-! ## The units of a channel -/

/-- TND_LB_STAT and TND_LB_CLASSOCC (R210, R211). -/
def State.tndViews (s : State) (c : Ch) : List (Fld × Nat) :=
  let ls := (s.chan c).landing
  let occ (k : Nat) : Nat := (ls.filter fun l => l.2.block.isSome && l.2.cls = k).length
  [(Reg.tndLbStat_OCC, (ls.filter fun l => l.2.block.isSome).length), (Reg.tndLbStat_SHARED_FREE, s.sharedFree c),
    (Reg.tndLbStat_WITHHOLD, s.withholdBits c), (Reg.tndLbClassocc_OCC0, occ 0), (Reg.tndLbClassocc_OCC1, occ 1),
    (Reg.tndLbClassocc_OCC2, occ 2), (Reg.tndLbClassocc_OCC3, occ 3)]

/-- CVU_STAT (R298). -/
def State.cvuViews (s : State) (c : Ch) : List (Fld × Nat) :=
  let u := (s.chan c).cvu
  [(Reg.cvuStat_STALLED, bit (s.stalled (.cvu c))), (Reg.cvuStat_QOCC, u.queue.length),
    (Reg.cvuStat_NOCREDIT, bit (u.run.any fun r => !r.out.isEmpty)), (Reg.cvuStat_WLOAD, bit (u.run.any (·.wload)))]

/-- A state transfer of the channel waits on a fault (R343). -/
def State.transferStalled (s : State) (c : Ch) : Bool :=
  (s.xlat.faults ++ s.xlat.overflow).any fun f =>
    match f.access.req with
    | .transfer d _ _ => d = c
    | _ => false

/-- GRM_STATE_STAT, GRM_PADDOCK_STAT and GRM_STAT (R343, R344, R664). -/
def State.grmViews (s : State) (c : Ch) : List (Fld × Nat) :=
  let x := s.chan c
  let framed := x.pages.filter fun p => p.state ≠ .away
  let oldest := x.paddockOrder.head?.bind fun i => (x.paddock.find? fun p => p.1 = i).map fun p => p.2.cmd.ctx
  let held := ((List.finRange 16).filter fun r => (s.ringOf c r).creditHeld).length
  [(Reg.grmStateStat_USED, framed.length + x.copyFrames.length),
    (Reg.grmStateStat_PINNED, (framed.filter fun p => !p.pins.isEmpty).length),
    (Reg.grmStateStat_STALLED, bit (s.transferStalled c)), (Reg.grmPaddockStat_OCC, x.paddock.length),
    (Reg.grmPaddockStat_FULLWAIT, bit x.fullWait),
    (Reg.grmPaddockStat_OLDEST_CTX, oldest.getD 0),
    (Reg.grmStat_RINGS_ON, ((List.finRange 16).filter fun r => s.blk (.ring c r) = blkOn).length),
    (Reg.grmStat_HELDCMDS, held)]

/-- WST_STAT (R369): a buffer whose chunk no tile needs reads FREE. -/
def State.wstViews (s : State) (c : Ch) : List (Fld × Nat) :=
  let p := Page.wst c
  let show' (b : Nat) (f : Fld) : Fld × Nat := (f, if (s.chan c).bufferFree b then 0 else s.rd p f)
  [(Reg.wstStat_STAGE_ACTIVE, s.rd p Reg.wstCfg_STAGE_EN), show' 0 Reg.wstStat_BUF0, show' 1 Reg.wstStat_BUF1]

/-- CMMU_STAT (R446). -/
def State.cmmuViews (s : State) (c : Ch) : List (Fld × Nat) :=
  let x := s.cache (.cmmu c)
  let faults := (s.xlat.faults ++ s.xlat.overflow).filter fun f => reqCh? f.access.req = some c
  [(Reg.cmmuStat_WALKS, x.walks.length),
    (Reg.cmmuStat_PINNED, ((x.sets.flatMap (·.2)).filter (·.pinned)).length),
    (Reg.cmmuStat_STALLED, min 255 (faults.map (·.access.req)).dedup.length)]

/-! ## The hub -/

/-- STRM_STAT (R342). -/
def State.strmViews (s : State) : List (Fld × Nat) :=
  let count (f : Nat → Bool) : Nat := (s.streams.filter fun r => f r.2.state).length
  [(Reg.strmStat_OPEN, count fun x => x = strmOpen || x = strmForking),
    (Reg.strmStat_CLOSING, count fun x => x = strmClosing)]

/-- HMMU_FSTAT (R445). -/
def State.hmmuViews (s : State) : List (Fld × Nat) :=
  [(Reg.hmmuFstat_OUTSTANDING, s.xlat.faults.length), (Reg.hmmuFstat_HELD, min 255 s.heldFaults)]

/-- CTX_SLOTn and CTX_RUNNABLEn (R456, R472). -/
def State.ctxViews (s : State) : List (Fld × Nat) :=
  ((List.range 8).flatMap fun i =>
    [(Reg.ctxSlot_RELIEF i, bit (s.isRelief i)), (Reg.ctxSlot_CAUSE i, s.slotCause i),
      (Reg.ctxSlot_AGE i, if s.blocked i then s.slotAge i else 0)]) ++
  (List.range 8).map fun i =>
    (Reg.ctxRunnable_RUNNABLE i, ((List.range 32).map fun b => bit (s.runnable (32 * i + b)) * 2 ^ b).sum)

/-- PWR_CHn_STAT.UNPAIRED and PWR_BOARD.THROTTLE (R582, R583). -/
def State.pwrViews (s : State) : List (Fld × Nat) :=
  (Reg.pwrBoard_THROTTLE, s.rd .far (Reg.farSb_ASSERTED 1)) ::
    (List.range 4).map fun c => (Reg.pwrChStat_UNPAIRED c, s.unpaired c)

/-- CLK_XSTAT.HELD (R663). -/
def State.clkViews (s : State) : List (Fld × Nat) :=
  [(Reg.clkXstat_HELD, ((List.range 4).map fun c =>
    bit (!s.arithOn c && !(s.chan c).toCh.entries.isEmpty) * 2 ^ c).sum)]

/-- RAS_ENG_REC of the record that RAS_ENG_IDX selects (R615). A site without a slot counts its spare columns
in its own map. DESIGN CHOICE: right after reset, where the spec leaves the fields undefined (R22), they show the
site's record. -/
def State.rasViews (s : State) : List (Fld × Nat) :=
  let c := s.rd .ras Reg.rasEngIdx_CH
  let n := s.rd .ras Reg.rasEngIdx_PHYS
  let x := s.site c n
  let slot := s.slotOfSite c n
  let modes : List Nat := if slot = 0x7f then x.colmap.map (· % 4) else
    (List.range 4).map fun i => s.rd (engPage c slot) (Reg.engColmap_MODE i)
  [(Reg.rasEngRec_STATE, x.state), (Reg.rasEngRec_SLOT, slot), (Reg.rasEngRec_STRIKES, x.live),
    (Reg.rasEngRec_RETURNS, min 3 x.returns), (Reg.rasEngRec_COLREP, (modes.filter (· = 1)).length),
    (Reg.rasEngRec_LASTSLOT, x.lastSlot)]

/-- HLK_STAT.PRESENT and HLK_CRED (R533, R535). -/
def State.hlkViews (s : State) (p : PortId) : List (Fld × Nat) :=
  let credit (k : Nat) : Nat := if s.link p = linkDown then 0 else Tab.get 0 (s.port p).credits (1 + k)
  [(Reg.hlkStat_PRESENT, bit (s.present p)), (Reg.hlkCred_TND0, credit 0), (Reg.hlkCred_TND1, credit 1),
    (Reg.hlkCred_TND2, credit 2), (Reg.hlkCred_TND3, credit 3)]

/-! ## Any register -/

/-- The fields of a page that show state which no register word holds. -/
def State.views (s : State) (p : Page) : List (Fld × Nat) :=
  match p with
  | .eng c e => s.engViews c e
  | .tnd c => s.tndViews c
  | .cvu c => s.cvuViews c
  | .grm c => s.grmViews c
  | .wst c => s.wstViews c
  | .cmmu c => s.cmmuViews c
  | .strm => s.strmViews
  | .hmmu => s.hmmuViews
  | .ctx => s.ctxViews
  | .pwr => s.pwrViews
  | .clk => s.clkViews
  | .ras => s.rasViews
  | .hlk q => s.hlkViews q
  | .hif | .far | .dlm | .rpl | .mbx _ | .ast _ | .hbmc _ | .ring _ _ | .door _ _ => []

/-- CYC of a page; an empty pool slot counts nothing (R566, R659). -/
def State.cycShown (s : State) (p : Page) : Nat :=
  match p with
  | .eng c e => if s.siteIn c e = 0x7f then 0 else s.pageCyc p
  | _ => s.pageCyc p

/-- The header of a page (R651, R652). -/
def State.headerWord (s : State) (p : Page) (off : Nat) : Nat :=
  if off = 0x08 then s.rd p (enFld p)
  else if off = 0x18 then s.intStat p
  else if off = 0x30 then s.cycShown p % 2 ^ 32
  else if off = 0x34 then s.cycShown p / 2 ^ 32
  else s.word p off

/-- The header of a doorbell page (R657). -/
def State.doorHeader (s : State) (c : Ch) (r : RingId) (off : Nat) : Nat :=
  if off = 0x00 ∨ off = 0x04 then s.word (.door c r) off
  else if off = 0x08 ∨ off = 0x0c then s.headerWord (.ring c r) off
  else if off = 0x30 ∨ off = 0x34 then s.headerWord (.door c r) off
  else if (lockAt? off).isSome then 0xff
  else 0

/-- A mailbox register (R489, R493, R495, R496): MODE and TMO belong to both sides. -/
def State.mbxWord (s : State) (b : MbxId) (off : Nat) : Nat :=
  let v := s.word (.mbx b) off
  if off = 0x14c then s.sstatWord b
  else if off = 0x1c0 then s.recvWord b
  else if off = 0x160 then (if 2 ≤ b.val && b.val < 6 then v else setBits v 1 1 0)
  else if isPi b && off < 0x160 then 0
  else if isPo b && 0x160 < off then 0
  else v

/-- What a read of a word of a page finds, before it acts on it. -/
def State.shown (s : State) (p : Page) (off : Nat) : Nat :=
  if off < 0x100 then
    match p with
    | .door c r => s.doorHeader c r off
    | _ => s.headerWord p off
  else
    let base := match p with
      | .mbx b => s.mbxWord b off
      | _ => s.word p off
    (s.views p).foldl (fun v f => if f.1.off = off then setBits v f.1.lo f.1.w f.2 else v) base

end Sys2Proof.Machine
end

