-- ==== Sys2Proof/Machine/Registers.lean ====
section
/-!
DEFINITION. Register writes and reads (R14 to R18, R646 to R657) and the opening of MSI-X vectors (R541).
-/

namespace Sys2Proof.Machine

/-- The state in which a command leaves the block. -/
def State.after (s : State) (r : Result) : State :=
  match r with
  | .next t => t
  | .fault _ => s
  | .refused _ => s

/-! ## Writes -/

/-- The fields of a word take a written value by their access codes (R14, R16). -/
def storeFields (fs : List RegField) (old v : Nat) : Nat :=
  fs.foldl (fun w f =>
    match f.access with
    | .rw => setBits w f.lo f.w (bitsOf v f.lo f.w)
    | .w1c =>
      let x := bitsOf w f.lo f.w
      setBits w f.lo f.w (x - (x &&& bitsOf v f.lo f.w))
    | .ro | .rc | .ra | .wo | .reserved => w) old

/-- A word takes a written value. -/
def State.storeWord (s : State) (p : Page) (off v : Nat) : State :=
  s.setWord p off (storeFields (fieldsAt p off) (s.word p off) v)

/-- A word takes a written value, but for the field that an effect of its own writes. -/
def State.storeBut (s : State) (p : Page) (off v : Nat) (f : Fld) : State :=
  let s1 := s.storeWord p off v
  s1.wr p f (s.rd p f)

/-- INT_ROUTE is written (R652, R654): GROOM is fixed on hub pages, and a route that opens to the host sends one
message for the bits that are set. -/
def State.writeRoute (s : State) (p : Page) (v : Nat) : State :=
  let s1 := s.storeWord p 0x1c v
  let s2 := if (pageCh? p).isSome then s1 else s1.wr p Reg.intRoute_GROOM 0
  if s.flag p Reg.intRoute_HOST then s2 else s2.signalFrom p 0

/-- INT_MASK is written (R654). -/
def State.writeMask (s : State) (p : Page) (v : Nat) : State :=
  (s.storeWord p 0x14 v).signalFrom p (s.intStat p)

/-- A lock register is written (R506). -/
def State.writeLock (s : State) (m : Master) (p : Page) (i v : Nat) : State :=
  if bitsOf v 31 1 = 1 && m = .farrier then s.release p i (s.lockOwner p i)
  else if v = 0 then s.release p i (masterTag m)
  else s

/-- A header register is written (R651 to R657). The header of a doorbell page takes no write. -/
def State.writeHeader (s : State) (m : Master) (p : Page) (off v : Nat) : State :=
  match p with
  | .door _ _ => s
  | _ =>
    if off = 0x08 then s.enable p (v % 2 = 1)
    else if off = 0x14 then s.writeMask p v
    else if off = 0x1c then s.writeRoute p v
    else if off = 0x20 ∨ off = 0x24 then (if bitsOf v 31 1 = 1 then s.setWord p off 0 else s)
    else
      match lockAt? off with
      | some i => s.writeLock m p i v
      | none => s.storeWord p off v

/-- A window of the hub is written (R305, R306, R450, R451, R478). `run` starts an operation by its code. -/
def State.writeWindow (s : State) (m : Master) (p : Page) (off v : Nat) (ops : Nat) (run : Nat → State) : State :=
  if off = 0x104 then
    let op := v % 8
    if 0 < op ∧ op ≤ ops then run op else s
  else if off = 0x100 ∨ (0x120 ≤ off ∧ off < 0x140) then
    if s.holdsLock m p 0 then s.storeWord p off v else s
  else s.storeWord p off v

/-- A mailbox register is written (R491 to R499). -/
def State.writeMbx (s : State) (m : Master) (b : MbxId) (off v : Nat) : State :=
  if off = 0x140 then (if v % 2 = 1 then s.after (execMbxSend m b s) else s)
  else if off = 0x144 then (if v % 2 = 1 then s.after (execMbxSendAlt m b s) else s)
  else if off = 0x148 then s.after (execMbxCancel m b (BitVec.ofNat 32 v) s)
  else if off = 0x1c4 then s.after (execMbxAck m b (BitVec.ofNat 16 v) s)
  else s.storeWord (.mbx b) off v

/-- A disposition is written (R439). -/
def State.writeDisp (s : State) (m : Master) (v : Nat) : State :=
  let id := BitVec.ofNat 24 v
  let action := bitsOf v 24 2
  if action = 1 then s.after (execRetry m id s)
  else if action = 2 then s.after (execAbortCommand m id s)
  else if action = 3 then s.after (execAbortContext m id s)
  else s

/-- A register of HMMU is written (R420, R428 to R430, R439). -/
def State.writeHmmu (s : State) (m : Master) (off v : Nat) : State :=
  if off = 0x100 ∨ off = 0x104 then
    if (List.range 8).any fun i => s.slotState i ≠ slotFree then s else s.storeWord .hmmu off v
  else if off = 0x110 then s.writeDisp m v
  else if off = 0x120 ∨ off = 0x124 then (if s.holdsLock m .hmmu 0 then s.storeWord .hmmu off v else s)
  else if off = 0x128 then s.invalidate m (bitsOf v 8 2) (bitsOf v 0 8) (bitsOf v 12 20)
  else s.storeWord .hmmu off v

/-- A ring's configuration is written (R374 to R377): BASE, CPL and CTX only while the ring is OFF. -/
def State.writeRing (s : State) (c : Ch) (r : RingId) (off v : Nat) : State :=
  let p := Page.ring c r
  let off' : Bool := s.blk p = blkOff
  if off = 0x110 then
    let v' := if off' then v else setBits v 8 8 (s.rd p Reg.ringCtl_CTX)
    (s.storeBut p off v' Reg.ringCtl_EN).enable p (v % 2 = 1)
  else if off < 0x110 then (if off' then s.storeWord p off v else s)
  else s.storeWord p off v

/-- A doorbell register is written (R379 to R383). -/
def State.writeDoor (s : State) (m : Master) (c : Ch) (r : RingId) (off v : Nat) : State :=
  let w := BitVec.ofNat 32 v
  if off = 0x100 then s.after (execTailWrite m c r w s)
  else if off = 0x108 then s.after (execCplHeadWrite m c r w s)
  else if off = 0x10c then s.after (execResume m c r w s)
  else s

/-- A port's register is written (R532, R537). -/
def State.writeHlk (s : State) (m : Master) (p : PortId) (off v : Nat) : State :=
  let h := Page.hlk p
  if off = 0x100 then (s.storeBut h off v Reg.hlkCfg_EN).enable h (v % 2 = 1)
  else if off = 0x130 then
    if s.flag h Reg.hlkRlock_BUSY then s
    else if bitsOf v 15 1 = 1 then
      s.rlock m p (BitVec.ofNat 12 v) (Fin.ofNat 4 (bitsOf v 12 2)) (bitsOf v 14 1 = 1)
    else s.storeWord h off v
  else s.storeWord h off v

/-- PWR_CHc_CTL is written (R571, R576, R581): a request of a gait and of a power state, of which 0b11 acts
as RUN. -/
def State.writePower (s : State) (m : Master) (c : Ch) (v : Nat) : State :=
  let s1 := (s.wr .pwr (Reg.pwrChCtl_GAIT c) (v % 4)).startGait c
  let ps := bitsOf v 2 2
  if ps = 1 ∨ ps = 2 then s1.requestPower m c ps id else s1.requestPower m c ps fun s => s.startWake c

/-- A log ends with an END record (R642). -/
def State.endLog (s : State) (n : Nat) : State :=
  if !(s.log n).recording then s
  else
    let s1 := s.logTo n (if n = 4 then domHub else domArith n) .fin
    let s2 := s1.modLog n fun l => { l.close with recording := false, lvl := 0 }
    if n = 4 then s2 else s2.setRec n false

/-- RPL_CFG is written (R620, R642): a level of OFF ends its log at once; HUBLOG starts and ends log 4. -/
def State.writeRplCfg (s : State) (v : Nat) : State :=
  let s1 := s.storeWord .rpl 0x160 v
  let s2 := (List.range 4).foldl (fun s c => if s.levelOf c = 0 then s.endLog c else s) s1
  let hub := s2.flag .rpl Reg.rplCfg_HUBLOG
  if hub && !(s2.log 4).recording then
    s2.modLog 4 fun l => l.begin 1 (s2.rd .rpl Reg.rplStat_MARKNO)
  else if hub then s2 else s2.endLog 4

/-- A register of RPL is written (R642, R643). -/
def State.writeRpl (s : State) (m : Master) (off v : Nat) : State :=
  let held : Bool := s.holdsLock m .rpl 0
  if off = 0x164 then
    let s1 := if v % 2 = 1 then s.after (execMark m s) else s
    if bitsOf v 2 1 = 1 then s1.after (execRplStop m s1) else s1
  else if off = 0x160 then (if held then s.writeRplCfg v else s)
  else if off = 0x170 ∨ off = 0x174 ∨ off = 0x184 ∨ off = 0x188 ∨ off = 0x18c then
    if held then s.storeWord .rpl off v else s
  else s.storeWord .rpl off v

/-- GRM_STATE_CFG is written (R330, R353 to R355): the state pool and the tensor area follow FRAMES, and what
becomes state pool loses its contents. -/
def State.writeFrames (s : State) (c : Ch) (v : Nat) : State :=
  let p := Page.grm c
  if bitsOf v 0 14 ≠ s.rd p Reg.grmStateCfg_FRAMES
      && (((s.chan c).pages.any fun g => g.state ≠ .away) || !(s.chan c).copyFrames.isEmpty) then s
  else
    let s1 := s.storeWord p 0x150 v
    let pool := 0x3e70 - s1.frames c
    let tensor := (63936 - s1.frames c * 4) / 64
    let old := s.rd (.ast c) Reg.astMap_POOL_BASE
    let s2 := (s1.wr (.ast c) Reg.astMap_TENSOR_END tensor).wr (.ast c) Reg.astMap_POOL_BASE pool
    if pool < old then s2.modChan c fun x => { x with ast := x.ast.lose (pool * 4096) (old * 4096) }
    else s2

/-- WST_CFG is written (R362): the staging buffers take the top of the stall, whose contents are lost. -/
def State.writeStage (s : State) (c : Ch) (v : Nat) : State :=
  let p := Page.wst c
  if v % 2 = s.rd p Reg.wstCfg_STAGE_EN then s
  else if !(s.chan c).cmds.isEmpty then s
  else
    let s1 := s.storeWord p 0x100 v
    if v % 2 = 1 then s1.modChan c fun x => { x with stall := x.stall.lose 0x12000000 0x14000000 } else s1

/-- A register of a chapter is written. -/
def State.writeBlock (s : State) (m : Master) (p : Page) (off v : Nat) : State :=
  match p with
  | .strm => s.writeWindow m p off v 5 fun op => s.strmWindow m op
  | .ctx => s.writeWindow m p off v 7 fun op => s.ctxWindow m op
  | .dlm => s.writeWindow m p off v 4 fun op => s.dlmWindow m op
  | .mbx b => s.writeMbx m b off v
  | .hmmu => s.writeHmmu m off v
  | .ring c r => s.writeRing c r off v
  | .door c r => s.writeDoor m c r off v
  | .hlk q => s.writeHlk m q off v
  | .pwr =>
    match (List.finRange 4).find? fun (c : Ch) => off = ctlOff c with
    | some c => s.writePower m c v
    | none => s.storeWord p off v
  | .rpl => s.writeRpl m off v
  | .ras => if off = 0x100 && !s.holdsLock m p 0 then s else s.storeWord p off v
  | .grm c => if off = 0x150 then s.writeFrames c v else s.storeWord p off v
  | .wst c => if off = 0x100 then s.writeStage c v else s.storeWord p off v
  | .tnd _ =>
    if off = 0x100 && 128 < bitsOf v 0 8 + bitsOf v 8 8 + bitsOf v 16 8 + bitsOf v 24 8 then s
    else s.storeWord p off v
  | .eng _ _ => if off < 0x110 && s.blk p ≠ blkOff then s else s.storeWord p off v
  | .hif | .far | .clk | .cmmu _ | .ast _ | .cvu _ | .hbmc _ => s.storeWord p off v

/-- A write of a master to a word of a page (R14, R650). The writes of a doorbell page are logged where they
act. -/
def State.regWrite (s : State) (m : Master) (p : Page) (off v : Nat) : State :=
  if !s.writable m p off then s
  else
    match p with
    | .door c r => s.writeDoor m c r off v
    | _ =>
      let s1 := s.logWrite m p off v
      if off < 0x100 then s1.writeHeader m p off v else s1.writeBlock m p off v

/-- REGISTER_WRITE (R14, R17). A write to an offset that no chapter defines has no effect. -/
def execRegisterWrite (m : Master) (a : BarAddr) (v : Word) (s : State) : Result :=
  live s <|
    match placeOf a with
    | some (p, off) =>
      if off % 4 ≠ 0 || (fieldsAt p off).isEmpty then s else s.regWrite m p off v.toNat
    | none => s

/-! ## Reads -/

/-- The fields of a word that a read restores take their reset values (R14). -/
def clearedByRead (fs : List RegField) (v : Nat) : Nat :=
  fs.foldl (fun w f => if f.access = .rc then setBits w f.lo f.w f.reset else w) v

/-- The key of a holding copy: a master's tag and the address of _HI (R18). -/
def holdKey (m : Master) (p : Page) (off : Nat) : Nat := masterTag m * 2 ^ 26 + pageAddr p off

/-- A master reads a word of a page and gets its value; a page that the host does not reach reads 0 (R546). -/
def State.regRead (s : State) (m : Master) (p : Page) (off : Nat) (act : Nat → State) : State :=
  if s.reaches m p then (act (s.shown p off)).emit (.read m (s.shown p off)) else s.emit (.read m 0)

/-- The register at an offset is a pair whose _LO lies there. -/
def isPairLo (p : Page) (off : Nat) : Bool :=
  match (((if off < 0x100 then PageKind.hdr else pageKind p).rows).filterMap (rowAt · off)).head? with
  | some (row, high) => row.pair && !high
  | none => false

/-- What a read of a _HI by a master returns (R18): its holding copy, or the live value where it holds none. -/
def State.highHalf (s : State) (m : Master) (p : Page) (off : Nat) : Nat :=
  ((s.holds.find? fun h => h.1 = holdKey m p off).map (·.2)).getD (s.shown p off)

/-- A read of a _HI (R18). DESIGN CHOICE: the holding copy is for the next read alone, and a later one finds the
live value. -/
def State.readHigh (s : State) (m : Master) (p : Page) (off : Nat) : State :=
  if s.reaches m p then
    ({ s with holds := Tab.erase s.holds (holdKey m p off) } : State).emit (.read m (s.highHalf m p off))
  else s.emit (.read m 0)

/-- RC_FIELD_READ (R14): the word is returned, and its RC fields take their reset values. A doorbell page's
header restores nothing (R657). The read of a _HI also changes state: it uses up the holding copy (R18). -/
def execRcFieldRead (m : Master) (a : BarAddr) (s : State) : Result :=
  live s <|
    match placeOf a with
    | some (p, off) =>
      if 4 ≤ off && isPairLo p (off - 4) then s.readHigh m p off
      else
      let fs := fieldsAt p off
      let door : Bool := match p with
        | .door _ _ => off < 0x100
        | _ => false
      if !(fs.any fun f => f.access = .rc) then s
      else s.regRead m p off fun _ => if door then s else s.setWord p off (clearedByRead fs (s.word p off))
    | none => s

/-- PAIR_LO_READ (R18): the lower half is returned, and the upper half of the same moment goes into the
master's holding copy of _HI. -/
def execPairLoRead (m : Master) (a : BarAddr) (s : State) : Result :=
  live s <|
    match placeOf a with
    | some (p, off) =>
      if !isPairLo p off then s
      else s.regRead m p off fun _ =>
        { s with holds := Tab.set s.holds (holdKey m p (off + 4)) (s.shown p (off + 4)) }
    | none => s

/-- SUBWORD_WRITE (R646): a write of one byte or two has no effect but its count. -/
def execSubwordWrite (_ : Master) (_ : BarAddr) (_ : Bool) (s : State) : Result :=
  live s <| if s.mainUp then s.bump .hif Reg.hifCnt_BADWR else s

/-- UNALIGNED_ACCESS (R646): a read returns ones in every word, a write does nothing, and both complete with
Unsupported Request. -/
def execUnalignedAccess (m : Master) (_ : BarAddr) (write : Bool) (size : Nat) (s : State) : Result :=
  live s <|
    if !s.mainUp then s
    else
      let s1 := s.bump .hif Reg.hifCnt_UR
      let ones := 2 ^ (32 * max 1 ((size + 3) / 4)) - 1
      if write then (s1.emit (.completion .unsupported 0)).emit (.aer .unsupported)
      else ((s1.emit (.read m ones)).emit (.completion .unsupported ones)).emit (.aer .unsupported)

/-! ## MSI-X (R541) -/

/-- A pending vector that is no longer masked sends its one message. -/
def State.sendPending (s : State) (v : Nat) : State :=
  let e := Tab.get {} s.msix v
  if e.pending && !e.masked && !s.dev.functionMask then
    ({ s with msix := Tab.set s.msix v { e with pending := false } } : State).emit (.msix v)
  else s

/-- MSIX_UNMASK (R541): the mask of a vector, or the function mask, opens. -/
def execMsixUnmask (v : VectorMask) (s : State) : Result :=
  live s <|
    if !s.mainUp then s
    else
      match v with
      | .vector n =>
        let e := Tab.get {} s.msix n
        ({ s with msix := Tab.set s.msix n { e with masked := false } } : State).sendPending n
      | .function =>
        let s1 := s.modDev fun d => { d with functionMask := false }
        (s1.msix.map (·.1)).foldl State.sendPending s1

end Sys2Proof.Machine
end

