-- ==== Sys2Proof/Machine/Replaying.lean ====
section
/-!
DEFINITION. What a replay does with the next record of its log (R636 to R640).
-/

namespace Sys2Proof.Machine

/-- The recorded channel. -/
def State.source (s : State) : Nat := s.rd .rpl Reg.rplRpCfg_SRC

/-! ## Reading the replay ring -/

/-- The batch of the replay ring that holds a record of some units, and the bytes of it that precede the
record: the batch that is being read, or the next one where the record does not fit into it. -/
def State.recordPlace (s : State) (units : Nat) : Nat × Nat :=
  let size := batchRing (s.rd .rpl Reg.rplRpBase_LOG2N)
  let head := s.rd .rpl Reg.rplRpPtr_HEAD
  if s.recorder.used + 16 * units ≤ 4096 then (head % size, s.recorder.used) else ((head + 1) % size, 32)

/-- The host has placed the batch of a record. -/
def State.recordPlaced (s : State) (units : Nat) : Bool :=
  let size := batchRing (s.rd .rpl Reg.rplRpBase_LOG2N)
  (s.recordPlace units).1 ≠ s.rd .rpl Reg.rplRpPtr_TAIL % size

/-- The replay has read a record, which takes the next number of its domain; the fragments of one input share
one. -/
def State.passed (s : State) (r : LogRecord) : State :=
  let units := recUnits r.body
  let (head, used) := s.recordPlace units
  let counts : Bool := match r.body with
    | .inData _ _ last _ _ _ => last
    | .mark _ _ _ => false
    | .cross _ _ _ | .dec _ _ | .out _ _ | .inReg _ _ | .cpl _ _ _ _ | .gap _ | .fin | .div _ _ => true
  (s.wr .rpl Reg.rplRpPtr_HEAD head).modRec fun x => { x with
    used := used + 16 * units, resumed := false
    next := if counts then Tab.set x.next r.dom ((r.dseq + 1) % 2 ^ 32) else x.next }

/-! ## Crossings (R637) -/

/-- Tails that the log lets the fetcher see become visible. -/
def State.takeTails : (fuel : Nat) → State → State
  | 0, s => s
  | fuel + 1, s =>
    let c := s.target
    match (s.chan c).toCh.entries with
    | (.tail r v, _) :: _ =>
      if s.recorder.crossings = 0 then s
      else
        State.takeTails fuel (((s.modChan c fun y => { y with toCh := y.toCh.pop }).modRing c r fun y =>
          { y with tailSeen := v }).modRec fun x => { x with crossings := x.crossings - 1 })
    | _ => s

/-- Entries that leave the target. -/
def State.leaveTarget : (n : Nat) → State → State
  | 0, s => s
  | n + 1, s => State.leaveTarget n (s.crossing (.fromCh (Fin.ofNat 4 s.target)))

/-- A crossing record runs once the producer has reached its number, and the entries are there. -/
def State.runCross (s : State) (q n d : Nat) : State × Bool :=
  let next (dom : Nat) : Nat := Tab.get 0 s.recorder.next dom
  if q = Config.crossQueue true s.source then
    if next domHub < d then (s, false)
    else ((s.modRec fun x => { x with crossings := x.crossings + n }).takeTails n, true)
  else if q = Config.crossQueue false s.source then
    if next (domArith s.source) < d || (s.chan s.target).fromCh.entries.length < n then (s, false)
    else (s.leaveTarget n, true)
  else (s, true)

/-! ## Decisions (R624, R637) -/

/-- A recorded value under the numbers of the replay. -/
def State.shiftDec (s : State) (kind v : Nat) : Nat :=
  if kind = 0x06 then s.shiftStream (v % 2 ^ 16) + v / 2 ^ 16 * 2 ^ 16
  else if kind = 0x08 then s.shiftCtx (v % 2 ^ 8) + v / 2 ^ 8 * 2 ^ 8
  else if kind = 0x0a then s.shiftStream v
  else v

/-- A recorded save or restore begins: the farrier moves replay contexts only here. -/
def State.moveRecorded (s : State) (v : Nat) : State × Bool :=
  let n := v % 2 ^ 8
  if v / 2 ^ 8 = 0 then
    match s.slotOfCtx n with
    | some i => (if s.slotState i = slotResident then s.startSave i .evict else s, true)
    | none => (s, true)
  else
    if (s.ctxRec n).state ≠ ctxAway then (s, true)
    else
      match s.loadTarget with
      | some i => (s.startRestore i n, true)
      | none => (s, false)

/-- A decision record: its value waits for the choice that takes it. -/
def State.runDec (s : State) (kind value : Nat) : State × Bool :=
  let v := s.shiftDec kind value
  let s1 := s.modRec fun x => { x with decisions := x.decisions ++ [(kind, v)] }
  if kind = 0x08 then s1.moveRecorded v
  else if kind = 0x0b then ((s1.wr .pwr (Reg.pwrChCtl_GAIT s.target) v).startGait s.target, true)
  else (s1, true)

/-! ## Outcomes (R625, R637) -/

/-- The tile of a name in an engine slot. -/
def State.tileNamed (s : State) (c e name : Nat) : Option (Nat × TileSlot) :=
  (s.engine c e).slots.find? fun t => t.2.state ≠ .free && t.2.name = name

/-- The outcome acts on a tile, or the replay has no place for it (R639). -/
def State.onTile (s : State) (e name : Nat) (act : Nat → TileSlot → State) : State :=
  match s.tileNamed s.target e name with
  | some (t, x) => act t x
  | none => s.stopReplay stopControl

/-- A mismatch sets the tile's flag. A pair's mismatch ends its drain. -/
def State.runMismatch (s : State) (v : Nat) : State :=
  let c := s.target
  let e := v % 2 ^ 8
  if e = 0x7f then s
  else s.onTile e (v / 2 ^ 8 % 2 ^ 16) fun t x =>
    let s1 := s.modRec fun y => { y with mismatches := y.mismatches ++ [(e, t)] }
    if x.state = .draining then (s1.holdDrain c e t).hold c e t
    else s1.modTile c e t fun y => { y with mismatch := true }

/-- A consumer is poisoned (R585). -/
def State.runPoison (s : State) (v : Nat) : State :=
  let c := s.target
  let kind := v % 2 ^ 8
  let e := v / 2 ^ 8 % 2 ^ 8
  let stop := s.stopReplay stopControl
  if kind = 0x02 then
    let t := v / 2 ^ 16 % 2 ^ 8
    if (s.tile c e t).state = .free then stop else s.loseTile c e t stTileLost (some causeTileLost)
  else if kind = 0x03 then
    match (s.engine c e).queue with
    | k :: _ => if k.op = opArgmax then s.dismiss c e k stTileLost else stop
    | [] => stop
  else if kind = 0x04 then (s.engine c e).scanning.elim stop fun k => s.scanEnd c e k stTileLost
  else if kind = 0x05 then (s.chan c).cvu.run.elim stop fun r => s.cvuEnd c r.cmd stTileLost
  else if kind = 0x06 then (s.copyHead c).elim stop fun r => s.copyEnd c r.cmd stTileLost
  else if kind = 0x08 then
    let n := s.shiftStream (v / 2 ^ 8 % 2 ^ 10)
    match (s.chan c).pages.find? fun p => p.state = .incoming && p.owner = n with
    | some p => (((s.modChan c fun x => x.putPage p { p with state := .away, frame := 0 }).modStream n fun r =>
        { r with state := strmLost }).stateMap c)
    | none => stop
  else stop

/-- A timeout fires: of a WAIT, or of a mailbox. -/
def State.runTimeout (s : State) (v : Nat) : State :=
  let c : Ch := Fin.ofNat 4 s.target
  let stop := s.stopReplay stopControl
  if v < 0x20 then
    let r : RingId := Fin.ofNat 16 v
    (s.waitingAt c r).elim stop fun h => s.waitEnds c r h.1
  else
    let b : MbxId := if v - 0x20 < 6 then fgBox c else gfBox c
    if (s.slot b).full then s.mailTimeout b else stop

/-- The tiles of a channel that a lost tag concerns: those that await it, and those that send under it. -/
def State.tagged (s : State) (c tag : Nat) : List (Nat × Nat × Bool) :=
  (s.chan c).engines.flatMap fun (g : Nat × Engine) =>
    g.2.slots.filterMap fun t =>
      let awaits : Bool := t.2.await.any fun w => w.tag = tag
      let sends : Bool := t.2.state = .draining && t.2.last.any fun k =>
        tRole k.descs ≠ roleNone && tOuttag k.descs + k.idx = tag
      if awaits || sends then some (g.1, t.1, awaits) else none

/-- A lost path ends under R214. -/
def State.runPathLost (s : State) (tag : Nat) : State :=
  let c := s.target
  match s.tagged c tag with
  | [] => s.stopReplay stopControl
  | (e, t, awaits) :: _ =>
    let x := s.tile c e t
    let s1 := if awaits then s.loseLanded c x.ctx tag else s
    s1.loseTile c e t stRemoteLost (if awaits then some causeRemoteLost else none)

/-- A strike or a substitution acts on the shadow copy alone: a substitution exchanges slots. -/
def State.runStrike (s : State) (v : Nat) : State :=
  let site := v % 2 ^ 8
  let e := v / 2 ^ 8 % 2 ^ 8
  let epoch := v / 2 ^ 16
  s.modRec fun x =>
    let old := Tab.get (0x7f, 0, 0) x.shadow e
    if old.1 = site then { x with shadow := Tab.set x.shadow e (site, epoch, old.2.2 + 1) }
    else
      let from' := (x.shadow.find? fun q => q.2.1 = site).map (·.1)
      let moved := from'.elim x.shadow fun k => Tab.set x.shadow k (0x7f, (Tab.get (0x7f, 0, 0) x.shadow k).2.1, 0)
      { x with shadow := Tab.set moved e (site, epoch, 0) }

/-- An outcome occurs at its record. -/
def State.runOut (s : State) (kind v : Nat) : State :=
  if kind = 0x01 then s.runMismatch v
  else if kind = 0x02 then s.runPoison v
  else if kind = 0x03 then s.onTile (v % 2 ^ 8) (v / 2 ^ 8 % 2 ^ 16) fun t _ => s.reissue s.target (v % 2 ^ 8) t
  else if kind = 0x05 then (if v / 2 ^ 24 = 1 then s else s.stopReplay stopControl)
  else if kind = 0x06 then s.runTimeout v
  else if kind = 0x07 then s.runPathLost v
  else if kind = 0x08 then s.runStrike v
  else s

/-! ## Inputs (R621, R636) -/

/-- The page of the target for a page of the recorded channel. -/
def State.targetPage (s : State) (p : Page) : Page :=
  let c : Ch := Fin.ofNat 4 s.target
  let own (d : Ch) : Ch := if d.val = s.source then c else d
  match p with
  | .grm d => .grm (own d) | .cmmu d => .cmmu (own d) | .wst d => .wst (own d) | .ast d => .ast (own d)
  | .tnd d => .tnd (own d) | .cvu d => .cvu (own d) | .hbmc d => .hbmc (own d)
  | .ring d r => .ring (own d) r | .door d r => .door (own d) r | .eng d e => .eng (own d) e
  | .hif | .far | .hmmu | .strm | .dlm | .ctx | .rpl | .pwr | .clk | .ras | .hlk _ | .mbx _ => p

/-- A written value with its context number shifted. -/
def State.shiftValue (s : State) (p : Page) (off v : Nat) : Nat :=
  match p with
  | .ring _ _ => if off = 0x110 then setBits v 8 8 (s.shiftCtx (bitsOf v 8 8)) else v
  | .wst _ => if 0x140 ≤ off ∧ off < 0x1c0 ∧ off % 8 = 4 then setBits v 0 8 (s.shiftCtx (bitsOf v 0 8)) else v
  | _ => v

/-- A recorded host write is performed on the target. -/
def State.runWrite (s : State) (o v : Nat) : State :=
  match pageAt? (4 * o / 4096) with
  | none => s
  | some p =>
    let off := 4 * o % 4096
    let q := s.targetPage p
    let s1 := (s.modRec fun x => { x with forcing := true }).regWrite .host q off (s.shiftValue p off v)
    (s1.modRec fun x => { x with forcing := false }).takeTails 1

/-- The ring whose descriptor read a recorded descriptor answers: one that is being fetched, of the
descriptor's context where there is one. -/
def State.fetchingRing (s : State) (c d : Nat) : Option Nat :=
  let rs := (List.range 16).filter fun r => (s.ringOf c r).fetching
  (rs.find? fun r => s.ringCtx c r = s.shiftCtx (bitsOf d 16 8)).orElse fun _ => rs.head?

/-- A recorded descriptor: with the last one its command enters the descriptor queue. A ring that does not hold
the whole command, or credits for it, is skipped as it was then (R384). -/
def State.runDescriptor (s : State) (bs : List Byte) : State × Bool :=
  let c := s.target
  let d := leNat bs
  let ds := s.recorder.entries ++ [d]
  let more := bitsOf (ds.headD 0) 8 2
  match s.fetchingRing c (ds.headD 0) with
  | none => (s, false)
  | some r =>
    let q := s.ringOf c r
    let head := s.rd (doorPage c r) Reg.ringHead_HEAD
    let s1 := s.modRec fun x => { x with entries := if ds.length < 1 + more then ds else [] }
    if ds.length = 1 && (ringSpan (s.ringSize c r) head q.tailSeen < 1 + more || q.credits < 1 + more) then
      ((s.modRec fun x => { x with entries := [] }).modRing c r fun q => { q with fetching := false }, true)
    else if ds.length < 1 + more then (s1, true)
    else (s1.takeCommand c r (s.shiftDescs ds), true)

/-- A tandem block from its bytes (R194). -/
def parseBlock (bs : List Byte) : Block :=
  let v := leNat (bs.take 64)
  let f (lo w : Nat) : Nat := bitsOf v lo w
  let h : BlockHdr :=
    { tag := f 0 16, dtile := f 16 16, dctx := f 32 8, dch := f 40 2, cls := f 42 2, block := f 44 3, kind := f 48 2
      tkind := f 50 1, longsum := f 51 1 = 1, fallback := f 52 1 = 1, retries := f 53 2, guardDenied := f 55 1 = 1
      cause := f 56 8, pbase := f 64 16, sslot := f 80 7, sch := f 87 2, sepoch := f 89 4 }
  let n := valueBytes { hdr := h, values := [] }
  let body := bs.drop 64
  { hdr := h, values := (List.range (body.length / n)).map fun i => leNat ((body.drop (n * i)).take n) }

/-- A recorded block is at the target's ingress. -/
def State.runBlock (s : State) (bs : List Byte) : State :=
  let b := parseBlock bs
  let m : Moving := { block := { b with hdr := s.shiftHdr b.hdr }, port := some logPort }
  ((s.modChan s.target fun y => { y with ingress := y.ingress ++ [m] }).modRec fun x =>
    { x with crossings := x.crossings - 1 })

/-- A recorded message arrives in FG of the target. -/
def State.runMessage (s : State) (bs : List Byte) : State :=
  let ws := (List.range 16).map fun i => leNat ((bs.drop (4 * i)).take 4)
  let s1 := (s.modRec fun x => { x with forcing := true }).acceptSend (fgBox (Fin.ofNat 4 s.target)) ws
  s1.modRec fun x => { x with forcing := false }

/-- A whole input of the log. A digest of 0 counts as none, as a log of level COMMANDS holds it. -/
def State.runInput (s : State) (kind : Nat) (data : Bool) (crc : Nat) (bs : List Byte) : State × Bool :=
  let input : ReplayInput := { crc := if crc = 0 then none else some crc, data := if data then some bs else none }
  if kind = 0x0 then s.runDescriptor bs
  else if kind = 0x1 then (s.modRec fun x => { x with inputs := x.inputs ++ [input] }, true)
  else if !data then (s.stopReplay stopNoData, false)
  else if kind = 0x2 then (s.runBlock bs, true)
  else if kind = 0x3 then (s.runMessage bs, true)
  else (s.modRec fun x => { x with inputs := x.inputs ++ [input] }, true)

/-- A fragment of an input: the last one completes it. -/
def State.runFragment (s : State) (kind : Nat) (data last : Bool) (crc : Nat) (payload : List Byte) : State × Bool :=
  let bs := s.recorder.partial' ++ payload
  if last then
    let r := s.runInput kind data crc bs
    (if r.2 then r.1.modRec fun x => { x with partial' := [] } else r.1, r.2)
  else (s.modRec fun x => { x with partial' := bs }, true)

/-! ## The next record -/

/-- A record runs: the state, and whether the replay passes it; otherwise it waits for the same record. -/
def State.runRecord (s : State) (b : RecBody) : State × Bool :=
  match b with
  | .mark _ _ _ => (s.modRec fun x => { x with next := [(domArith s.source, 1)] }, true)
  | .cross q n d => s.runCross q n d
  | .dec k v => s.runDec k v
  | .out k v => (s.runOut k v, true)
  | .inReg o v => (s.runWrite o v, true)
  | .inData k data last _ crc payload => s.runFragment k data last crc payload
  | .cpl i st r _ => (s.matchCpl (i, st, r) true, true)
  | .gap _ => if s.recorder.resumed then (s, true) else (s.stopReplay stopNoData, false)
  | .fin => (s.endReplay stopEnd, false)
  | .div _ _ => (s, true)

/-- The record is the next one of its domain (R637). A mark sets the numbers anew. -/
def State.isNext (s : State) (r : LogRecord) : Bool :=
  match r.body with
  | .mark _ _ _ => true
  | _ => r.dseq = Tab.get 0 s.recorder.next r.dom

/-- The replay is to stop before a record (R640). -/
def State.stopsAt (s : State) (r : LogRecord) : Bool :=
  s.flag .rpl Reg.rplRpStopat_EN && !s.recorder.resumed && r.dom = s.rd .rpl Reg.rplRpStopat_DOM
    && r.dseq = s.rd .rpl Reg.rplRpStopseq_DSEQ

/-- The access that reads the next record of the replay ring, of some units. -/
def State.recordAccess (s : State) (units : Nat) : MemAccess :=
  { req := .recorder ((Fin.ofNat 4 s.target).castLE (by decide)), ctx := s.logCtx, write := false
    va := (s.rd .rpl Reg.rplRpBase_BASE + (s.recordPlace units).1) * 4096 + (s.recordPlace units).2 }

/-- REPLAY_RECORD (R637): a domain of the target runs the next record, read from the replay ring through the
tables of LOGCTX. -/
def execReplayRecord (r : LogRecord) (s : State) : Result :=
  live s <|
    let units := recUnits r.body
    if !s.replayOn s.target || !s.isNext r || !s.recordPlaced units then s
    else
      match s.reachAll (s.recordAccess units) (16 * units) with
      | (s1, none) => s1
      | (s1, some _) =>
        if s1.stopsAt r then s1.stopReplay stopStopat
        else
          match s1.runRecord r.body with
          | (s2, true) => s2.passed r
          | (s2, false) => s2

end Sys2Proof.Machine
end

