-- ==== Sys2Proof/Machine/Dispatch.lean ====
section
/-!
DEFINITION. The meaning of every command of the block, one arm for each constructor of `Instr`.
-/

namespace Sys2Proof.Machine

def exec (i : Instr) (s : State) : Host.Outcome State Fault Refusal :=
  match i with
  | .registerWrite m a v => Sys2Proof.Machine.execRegisterWrite m a v s
  | .rcFieldRead m a => Sys2Proof.Machine.execRcFieldRead m a s
  | .pairLoRead m a => Sys2Proof.Machine.execPairLoRead m a s
  | .subwordWrite m a two => Sys2Proof.Machine.execSubwordWrite m a two s
  | .unalignedAccess m a write size => Sys2Proof.Machine.execUnalignedAccess m a write size s
  | .msixUnmask v => Sys2Proof.Machine.execMsixUnmask v s
  | .lockReadAcquire m a => Sys2Proof.Machine.execLockReadAcquire m a s
  | .lockRelease m a => Sys2Proof.Machine.execLockRelease m a s
  | .lockForce m a => Sys2Proof.Machine.execLockForce m a s
  | .tailWrite m c r v => Sys2Proof.Machine.execTailWrite m c r v s
  | .resume m c r v => Sys2Proof.Machine.execResume m c r v s
  | .cplHeadWrite m c r v => Sys2Proof.Machine.execCplHeadWrite m c r v s
  | .enableSet m p => Sys2Proof.Machine.execEnableSet m p s
  | .enableClear m p => Sys2Proof.Machine.execEnableClear m p s
  | .blockStartStep p ok => Sys2Proof.Machine.execBlockStartStep p ok s
  | .blockStopDone p => Sys2Proof.Machine.execBlockStopDone p s
  | .strmRead m => Sys2Proof.Machine.execStrmRead m s
  | .openStream m => Sys2Proof.Machine.execOpenStream m s
  | .close m => Sys2Proof.Machine.execClose m s
  | .closeDiscard m => Sys2Proof.Machine.execCloseDiscard m s
  | .rehome m => Sys2Proof.Machine.execRehome m s
  | .rehomeWritebackDone => Sys2Proof.Machine.execRehomeWritebackDone s
  | .ctxRead m => Sys2Proof.Machine.execCtxRead m s
  | .admitContext m => Sys2Proof.Machine.execAdmit m s
  | .update m => Sys2Proof.Machine.execUpdate m s
  | .load m => Sys2Proof.Machine.execLoad m s
  | .evict m => Sys2Proof.Machine.execEvict m s
  | .ctxReset m => Sys2Proof.Machine.execCtxReset m s
  | .release m => Sys2Proof.Machine.execRelease m s
  | .dlmRead m => Sys2Proof.Machine.execDlmRead m s
  | .arm m => Sys2Proof.Machine.execArm m s
  | .disarm m => Sys2Proof.Machine.execDisarm m s
  | .dlmClear m => Sys2Proof.Machine.execDlmClear m s
  | .invAll m => Sys2Proof.Machine.execInvAll m s
  | .invContext m ctx => Sys2Proof.Machine.execInvContext m ctx s
  | .invRange m ctx count => Sys2Proof.Machine.execInvRange m ctx count s
  | .invCtt m ctx => Sys2Proof.Machine.execInvCtt m ctx s
  | .invalidationComplete => Sys2Proof.Machine.execInvalidationComplete s
  | .retry m fault => Sys2Proof.Machine.execRetry m fault s
  | .abortCommand m fault => Sys2Proof.Machine.execAbortCommand m fault s
  | .abortContext m fault => Sys2Proof.Machine.execAbortContext m fault s
  | .mbxSend m b => Sys2Proof.Machine.execMbxSend m b s
  | .mbxSendAlt m b => Sys2Proof.Machine.execMbxSendAlt m b s
  | .atomicSwapSend v => Sys2Proof.Machine.execAtomicSwapSend v s
  | .unsupportedAtomicop a => Sys2Proof.Machine.execUnsupportedAtomicop a s
  | .mbxRecvRead m b => Sys2Proof.Machine.execMbxRecvRead m b s
  | .mbxAck m b code => Sys2Proof.Machine.execMbxAck m b code s
  | .mbxCancel m b v => Sys2Proof.Machine.execMbxCancel m b v s
  | .mbxTimeout b => Sys2Proof.Machine.execMbxTimeout b s
  | .rlockAcquire m p page lock => Sys2Proof.Machine.execRlockAcquire m p page lock s
  | .rlockRelease m p page lock => Sys2Proof.Machine.execRlockRelease m p page lock s
  | .rlockRequestArrival p page lock release => Sys2Proof.Machine.execRlockRequestArrival p page lock release s
  | .rlockReply p value => Sys2Proof.Machine.execRlockReply p value s
  | .mark m => Sys2Proof.Machine.execMark m s
  | .markDone c => Sys2Proof.Machine.execMarkDone c s
  | .replay m markNo crcs => Sys2Proof.Machine.execReplay m markNo crcs s
  | .rplStop m => Sys2Proof.Machine.execRplStop m s
  | .rplResume m placed => Sys2Proof.Machine.execRplResume m placed s
  | .gaitRequest m c gait => Sys2Proof.Machine.execGaitRequest m c gait s
  | .sleepRequest m c => Sys2Proof.Machine.execSleepRequest m c s
  | .parkRequest m c => Sys2Proof.Machine.execParkRequest m c s
  | .runRequest m c => Sys2Proof.Machine.execRunRequest m c s
  | .maxwWrite m p maxw => Sys2Proof.Machine.execMaxwWrite m p maxw s
  | .fetchCommand c => Sys2Proof.Machine.execFetchCommand c s
  | .descriptorReadReturn c r ext => Sys2Proof.Machine.execDescriptorReadReturn c r ext s
  | .splitTurn c => Sys2Proof.Machine.execSplitTurn c s
  | .splitReadReturn c r ext => Sys2Proof.Machine.execSplitReadReturn c r ext s
  | .matmul c r => Sys2Proof.Machine.execMatmul c r s
  | .conv c r => Sys2Proof.Machine.execConv c r s
  | .dwconv c r => Sys2Proof.Machine.execDwconv c r s
  | .pool c r => Sys2Proof.Machine.execPool c r s
  | .scan c r => Sys2Proof.Machine.execScan c r s
  | .stats c r => Sys2Proof.Machine.execStats c r s
  | .argmax c r => Sys2Proof.Machine.execArgmax c r s
  | .regroup c r => Sys2Proof.Machine.execRegroup c r s
  | .fork c r => Sys2Proof.Machine.execFork c r s
  | .loadW c r => Sys2Proof.Machine.execLoadW c r s
  | .drain c r => Sys2Proof.Machine.execDrain c r s
  | .copy c r => Sys2Proof.Machine.execCopy c r s
  | .fence c r => Sys2Proof.Machine.execFence c r s
  | .signal c r => Sys2Proof.Machine.execSignal c r s
  | .wait c r => Sys2Proof.Machine.execWait c r s
  | .cvu c r => Sys2Proof.Machine.execCvu c r s
  | .signalWriteAccepted c r => Sys2Proof.Machine.execSignalWriteAccepted c r s
  | .waitPollExpiry c r => Sys2Proof.Machine.execWaitPollExpiry c r s
  | .waitReadReturn c r ext => Sys2Proof.Machine.execWaitReadReturn c r ext s
  | .waitTimeout c r => Sys2Proof.Machine.execWaitTimeout c r s
  | .tileClaim c e => Sys2Proof.Machine.execTileClaim c e s
  | .sealComplete c e t => Sys2Proof.Machine.execSealComplete c e t s
  | .tileRestoreStart c e => Sys2Proof.Machine.execTileRestoreStart c e s
  | .tileRestoreComplete c e intact => Sys2Proof.Machine.execTileRestoreComplete c e intact s
  | .sliceLoadStart c e => Sys2Proof.Machine.execSliceLoadStart c e s
  | .sliceLoadComplete c e => Sys2Proof.Machine.execSliceLoadComplete c e s
  | .rebuildComplete c e b => Sys2Proof.Machine.execRebuildComplete c e b s
  | .beatIssue c e ev => Sys2Proof.Machine.execBeatIssue c e ev s
  | .promotionComplete c e lane => Sys2Proof.Machine.execPromotionComplete c e lane s
  | .drainStart c e => Sys2Proof.Machine.execDrainStart c e s
  | .rowParamFetchReturn c e ext => Sys2Proof.Machine.execRowParamFetchReturn c e ext s
  | .drainBlockRead c e pairDiffers => Sys2Proof.Machine.execDrainBlockRead c e pairDiffers s
  | .epilogueOutput c e => Sys2Proof.Machine.execEpilogueOutput c e s
  | .writeBack c e => Sys2Proof.Machine.execWriteBack c e s
  | .drainComplete c e => Sys2Proof.Machine.execDrainComplete c e s
  | .creditReturn q => Sys2Proof.Machine.execCreditReturn q s
  | .queueCrossing q => Sys2Proof.Machine.execQueueCrossing q s
  | .tandemBlockSend h => Sys2Proof.Machine.execTandemBlockSend h s
  | .blockAccepted c e => Sys2Proof.Machine.execBlockAccepted c e s
  | .tandemIngressArrival c => Sys2Proof.Machine.execTandemIngressArrival c s
  | .landedBlockMove c e => Sys2Proof.Machine.execLandedBlockMove c e s
  | .blockFold c e => Sys2Proof.Machine.execBlockFold c e s
  | .landingSpill c entry => Sys2Proof.Machine.execLandingSpill c entry s
  | .landingSpillDone c entry => Sys2Proof.Machine.execLandingSpillDone c entry s
  | .scanHeadCheck c e => Sys2Proof.Machine.execScanHeadCheck c e s
  | .swapInComplete c n page ext poisoned => Sys2Proof.Machine.execSwapInComplete c n page ext poisoned s
  | .swapOutComplete c n page => Sys2Proof.Machine.execSwapOutComplete c n page s
  | .cowCopyComplete c n page => Sys2Proof.Machine.execCowCopyComplete c n page s
  | .backingCopyComplete c n page ext => Sys2Proof.Machine.execBackingCopyComplete c n page ext s
  | .scanStart c e => Sys2Proof.Machine.execScanStart c e s
  | .scanComplete c e ext => Sys2Proof.Machine.execScanComplete c e ext s
  | .forkComplete c => Sys2Proof.Machine.execForkComplete c s
  | .cvuCommandStart c => Sys2Proof.Machine.execCvuCommandStart c s
  | .cvuBlockComplete c mismatch ext => Sys2Proof.Machine.execCvuBlockComplete c mismatch ext s
  | .cvuCommandComplete c => Sys2Proof.Machine.execCvuCommandComplete c s
  | .copyUnitComplete c ext => Sys2Proof.Machine.execCopyUnitComplete c ext s
  | .lodgerFillStart c => Sys2Proof.Machine.execLodgerFillStart c s
  | .lodgerFillComplete c buf ext => Sys2Proof.Machine.execLodgerFillComplete c buf ext s
  | .commandComplete c cmd => Sys2Proof.Machine.execCommandComplete c cmd s
  | .completionRecordAccepted c r => Sys2Proof.Machine.execCompletionRecordAccepted c r s
  | .walkReadReturn k walk data fail => Sys2Proof.Machine.execWalkReadReturn k walk data fail s
  | .faultRecordWrite ctx => Sys2Proof.Machine.execFaultRecordWrite ctx s
  | .channelSaveDone slot c => Sys2Proof.Machine.execChannelSaveDone slot c s
  | .contextRestoreDone slot intact => Sys2Proof.Machine.execContextRestoreDone slot intact s
  | .contextBlocked slot => Sys2Proof.Machine.execContextBlocked slot s
  | .relief => Sys2Proof.Machine.execRelief s
  | .dlmCheck n => Sys2Proof.Machine.execDlmCheck n s
  | .pllRelockDone c ok => Sys2Proof.Machine.execPllRelockDone c ok s
  | .gaitChangeDone c => Sys2Proof.Machine.execGaitChangeDone c s
  | .governorPeriod draws board => Sys2Proof.Machine.execGovernorPeriod draws board s
  | .sleepEntry c => Sys2Proof.Machine.execSleepEntry c s
  | .parkEntry c => Sys2Proof.Machine.execParkEntry c s
  | .wakeEvent c cause => Sys2Proof.Machine.execWakeEvent c cause s
  | .wakeComplete c => Sys2Proof.Machine.execWakeComplete c s
  | .linkTrain p lanes => Sys2Proof.Machine.execLinkTrain p lanes s
  | .helloReceive p h => Sys2Proof.Machine.execHelloReceive p h s
  | .flitTransmit p => Sys2Proof.Machine.execFlitTransmit p s
  | .flitReceive p f q corrected => Sys2Proof.Machine.execFlitReceive p f q corrected s
  | .nakReceive p ack => Sys2Proof.Machine.execNakReceive p ack s
  | .replayTimeout p => Sys2Proof.Machine.execReplayTimeout p s
  | .laneFailure p lane => Sys2Proof.Machine.execLaneFailure p lane s
  | .retrainDone p h => Sys2Proof.Machine.execRetrainDone p h s
  | .retrainTimeout p => Sys2Proof.Machine.execRetrainTimeout p s
  | .portLoss p cause => Sys2Proof.Machine.execPortLoss p cause s
  | .goodbyeReceive p => Sys2Proof.Machine.execGoodbyeReceive p s
  | .goodbyeDrainDone p => Sys2Proof.Machine.execGoodbyeDrainDone p s
  | .peerMessageArrival p seq words => Sys2Proof.Machine.execPeerMessageArrival p seq words s
  | .peerReceiptArrival p r => Sys2Proof.Machine.execPeerReceiptArrival p r s
  | .powerOn p => Sys2Proof.Machine.execPowerOn p s
  | .perstDeassert speed width => Sys2Proof.Machine.execPerstDeassert speed width s
  | .warmReset => Sys2Proof.Machine.execWarmReset s
  | .hbmTrainDone c ok => Sys2Proof.Machine.execHbmTrainDone c ok s
  | .selftestDone c ok => Sys2Proof.Machine.execSelftestDone c ok s
  | .groomBootAck c code => Sys2Proof.Machine.execGroomBootAck c code s
  | .engineCheckDone c failed => Sys2Proof.Machine.execEngineCheckDone c failed s
  | .channelReadyTimeout c => Sys2Proof.Machine.execChannelReadyTimeout c s
  | .flr => Sys2Proof.Machine.execFlr s
  | .pcieLinkDown => Sys2Proof.Machine.execPcieLinkDown s
  | .surpriseRemoval => Sys2Proof.Machine.execSurpriseRemoval s
  | .coldResetRequest => Sys2Proof.Machine.execColdResetRequest s
  | .pldmMonitor => Sys2Proof.Machine.execPldmMonitor s
  | .requestUpdate => Sys2Proof.Machine.execRequestUpdate s
  | .passComponentTable comps => Sys2Proof.Machine.execPassComponentTable comps s
  | .updateComponent comp => Sys2Proof.Machine.execUpdateComponent comp s
  | .firmwareData data last sigOk svn => Sys2Proof.Machine.execFirmwareData data last sigOk svn s
  | .activateFirmware => Sys2Proof.Machine.execActivateFirmware s
  | .farrierRestartDone ok => Sys2Proof.Machine.execFarrierRestartDone ok s
  | .groomPatchApply c patch => Sys2Proof.Machine.execGroomPatchApply c patch s
  | .sidebandEdge n level => Sys2Proof.Machine.execSidebandEdge n level s
  | .sidebandSettleExpiry n => Sys2Proof.Machine.execSidebandSettleExpiry n s
  | .sidebandStuckExpiry n => Sys2Proof.Machine.execSidebandStuckExpiry n s
  | .substitutionHoldoffExpiry c e => Sys2Proof.Machine.execSubstitutionHoldoffExpiry c e s
  | .siteRetest c phys => Sys2Proof.Machine.execSiteRetest c phys s
  | .retestDone c phys pass failedCols => Sys2Proof.Machine.execRetestDone c phys pass failedCols s
  | .hbmRowRepair c row => Sys2Proof.Machine.execHbmRowRepair c row s
  | .softPprDone c row ok => Sys2Proof.Machine.execSoftPprDone c row ok s
  | .channelRetire c cause => Sys2Proof.Machine.execChannelRetire c cause s
  | .readmit => Sys2Proof.Machine.execReadmit s
  | .retest => Sys2Proof.Machine.execRetest s
  | .retire => Sys2Proof.Machine.execRetire s
  | .restart => Sys2Proof.Machine.execRestart s
  | .chreset => Sys2Proof.Machine.execChreset s
  | .engineReset m c e => Sys2Proof.Machine.execEngineReset m c e s
  | .batchWrite log => Sys2Proof.Machine.execBatchWrite log s
  | .batchAccepted log => Sys2Proof.Machine.execBatchAccepted log s
  | .replayRecord r => Sys2Proof.Machine.execReplayRecord r s
  | .activationReadReturn c e lane ext => Sys2Proof.Machine.execActivationReadReturn c e lane ext s
  | .pcieRequestFailure req ctx va write kind => Sys2Proof.Machine.execPcieRequestFailure req ctx va write kind s
  | .pcieLinkChange speed width flit up => Sys2Proof.Machine.execPcieLinkChange speed width flit up s
  | .configRequest => Sys2Proof.Machine.execConfigRequest s
  | .pllLockLost c => Sys2Proof.Machine.execPllLockLost c s
  | .lockstepMismatch pc => Sys2Proof.Machine.execLockstepMismatch pc s
  | .ucieLinkError c retryOk retrainOk => Sys2Proof.Machine.execUcieLinkError c retryOk retrainOk s
  | .hbmTempUpdate c temp => Sys2Proof.Machine.execHbmTempUpdate c temp s
  | .argmaxMerge c e ext => Sys2Proof.Machine.execArgmaxMerge c e ext s

end Sys2Proof.Machine
end

