-- ==== Sys2Proof/Safety.lean ====
section
/-!
DEFINITION. What a run of the block keeps: the canonical form of its stores and registers, the queue, and what has
already left the card.
-/

namespace Sys2Proof.Machine

/-- The stores of a channel are in their canonical form (R346). -/
def Channel.storesWf (x : Channel) : Prop := x.stall.wf ∧ x.ast.wf ∧ x.hbm.wf

/-- Every store is in its canonical form. -/
def State.storesWf (s : State) : Prop := ∀ c, (s.chan c).storesWf

/-- The register words are listed in rising order of their addresses, and each has 32 bits (R14). -/
def State.regsWf (s : State) : Prop := Tab.Sorted s.regs ∧ ∀ r ∈ s.regs, r.2 < 2 ^ 32

/-- The stores of a channel have the same bytes, with the same words poisoned. -/
def Channel.sameStores (x y : Channel) : Prop := y.stall = x.stall ∧ y.ast = x.ast ∧ y.hbm = x.hbm

/-- Every store of every channel has the same bytes. -/
def State.sameStores (s t : State) : Prop := ∀ c, (s.chan c).sameStores (t.chan c)

/-- Every register word of a page outside `ps` holds what it held. -/
def State.sameWords (s t : State) (ps : List Page) : Prop := ∀ q, q ∉ ps → ∀ o, t.word q o = s.word q o

/-- Nothing but registers, interrupts, the output and the logs differs. -/
def State.sameTables (s t : State) : Prop :=
  t = { s with regs := t.regs, msix := t.msix, out := t.out, recorder := t.recorder }

/-! ## What a command may change -/

/-- The parts of the state, by the names of its fields; the register words are the pages', not a part. -/
inductive Part where
  | pending | out | drawn | dev | cycles | cycBase | holds | blocks | msix | mbx | ports | xlat | ctxs | ctxSlots
  | loads | reliefInto | lastRelief | shares | dlm | streams | rehoming | recorder | chans
  deriving DecidableEq, Repr

/-- A part is the same in two states. -/
def Part.same (s t : State) : Part → Prop
  | .pending => t.pending = s.pending
  | .out => t.out = s.out
  | .drawn => t.drawn = s.drawn
  | .dev => t.dev = s.dev
  | .cycles => t.cycles = s.cycles
  | .cycBase => t.cycBase = s.cycBase
  | .holds => t.holds = s.holds
  | .blocks => t.blocks = s.blocks
  | .msix => t.msix = s.msix
  | .mbx => t.mbx = s.mbx
  | .ports => t.ports = s.ports
  | .xlat => t.xlat = s.xlat
  | .ctxs => t.ctxs = s.ctxs
  | .ctxSlots => t.ctxSlots = s.ctxSlots
  | .loads => t.loads = s.loads
  | .reliefInto => t.reliefInto = s.reliefInto
  | .lastRelief => t.lastRelief = s.lastRelief
  | .shares => t.shares = s.shares
  | .dlm => t.dlm = s.dlm
  | .streams => t.streams = s.streams
  | .rehoming => t.rehoming = s.rehoming
  | .recorder => t.recorder = s.recorder
  | .chans => t.chans = s.chans

/-- What an operation may change: whether bytes of a store, which parts, and the register words of which kinds of
page. -/
structure Scope where
  stores : Bool
  parts : List Part
  kinds : List PageKind
  deriving DecidableEq, Repr

/-- A scope lies within another. -/
abbrev Scope.within (a b : Scope) : Prop :=
  (a.stores = true → b.stores = true) ∧ (∀ x ∈ a.parts, x ∈ b.parts) ∧ ∀ k ∈ a.kinds, k ∈ b.kinds

/-- Nothing beyond a scope changes from one state to another. -/
structure Scope.keeps (a : Scope) (s t : State) : Prop where
  stores : a.stores = false → s.sameStores t
  parts : ∀ x, x ∉ a.parts → x.same s t
  words : ∀ q, pageKind q ∉ a.kinds → ∀ o, t.word q o = s.word q o

/-- The kinds of page. -/
def allKinds : List PageKind := [.hif, .far, .hmmu, .strm, .dlm, .ctx, .rpl, .pwr, .clk, .ras, .hlk, .mbx, .grm, .cmmu, .wst, .ast, .tnd, .cvu, .hbmc, .ring, .eng, .door]

/-- The kinds of page that an access to memory may write: the translation pages, the counters of the stores, and
those of the command and context that a fault stops. -/
def accessKinds : List PageKind := [.hmmu, .ctx, .rpl, .grm, .cmmu, .wst, .cvu, .hbmc, .ring, .eng, .door]

/-- What each command may change beyond its own rules: a command leaves everything outside its scope as it is. -/
def scopeOf : Instr → Scope
  | .registerWrite .. | .replayRecord .. =>
    ⟨true, [.out, .dev, .cycBase, .blocks, .msix, .mbx, .ports, .xlat, .ctxs, .ctxSlots, .loads, .reliefInto,
     .shares, .dlm, .streams, .rehoming, .recorder, .chans], allKinds⟩
  | .rcFieldRead .. => ⟨false, [.out, .holds], allKinds⟩
  | .pairLoRead .. => ⟨false, [.out, .holds], []⟩
  | .subwordWrite .. => ⟨false, [], [.hif]⟩
  | .unalignedAccess .. | .unsupportedAtomicop .. => ⟨false, [.out], [.hif]⟩
  | .msixUnmask .. => ⟨false, [.out, .dev, .msix], []⟩
  | .lockReadAcquire .. => ⟨false, [.out, .msix, .recorder], allKinds⟩
  | .lockRelease .. | .lockForce .. => ⟨false, [], allKinds⟩
  | .tailWrite .. => ⟨false, [.out, .msix, .recorder, .chans], [.rpl, .ring, .door]⟩
  | .resume .. => ⟨false, [.out, .msix, .recorder, .chans], [.rpl, .door]⟩
  | .cplHeadWrite .. => ⟨false, [.out, .msix, .recorder], [.rpl, .ring, .door]⟩
  | .enableSet _ p => ⟨false, [.out, .blocks, .msix, .ports, .recorder, .chans], pageKind p :: [.hif, .rpl, .hlk, .door]⟩
  | .enableClear _ p => ⟨false, [.out, .blocks, .msix, .ports, .recorder, .chans], pageKind p :: [.hif, .rpl, .hlk, .door]⟩
  | .blockStartStep p _ => ⟨false, [.out, .blocks, .msix], pageKind p :: [.hif]⟩
  | .blockStopDone p => ⟨false, [.out, .blocks, .msix, .recorder, .chans], pageKind p :: [.hif, .rpl, .door]⟩
  | .strmRead .. | .openStream .. | .close .. | .closeDiscard .. | .rehome .. =>
    ⟨false, [.out, .dev, .msix, .streams, .rehoming, .recorder, .chans], [.strm, .rpl]⟩
  | .rehomeWritebackDone =>
    ⟨true, [.out, .msix, .xlat, .streams, .rehoming, .recorder, .chans], [.strm] ++ accessKinds⟩
  | .ctxRead .. | .admitContext .. | .update .. | .load .. | .evict .. | .ctxReset .. | .release .. =>
    ⟨false, [.out, .dev, .msix, .xlat, .ctxs, .ctxSlots, .loads, .reliefInto, .shares, .dlm, .streams,
     .rehoming, .recorder, .chans], [.strm] ++ accessKinds⟩
  | .dlmRead .. | .arm .. | .disarm .. | .dlmClear .. => ⟨false, [.out, .dev, .msix, .dlm], [.dlm]⟩
  | .invAll .. | .invContext .. | .invRange .. | .invCtt .. => ⟨false, [.xlat], [.hmmu]⟩
  | .invalidationComplete | .retry .. | .pcieRequestFailure .. =>
    ⟨false, [.out, .msix, .xlat, .recorder], [.hmmu, .ctx, .rpl, .grm, .cmmu, .wst, .cvu, .ring, .eng, .door]⟩
  | .abortCommand .. =>
    ⟨false, [.out, .msix, .xlat, .ctxs, .ctxSlots, .loads, .reliefInto, .shares, .dlm, .streams, .rehoming,
     .recorder, .chans], [.strm, .dlm, .tnd] ++ accessKinds⟩
  | .abortContext .. =>
    ⟨false, [.out, .msix, .xlat, .ctxs, .ctxSlots, .loads, .reliefInto, .shares, .dlm, .streams, .rehoming,
     .recorder, .chans], [.strm] ++ accessKinds⟩
  | .mbxSend .. | .mbxSendAlt .. => ⟨false, [.out, .msix, .mbx, .ports, .recorder], [.rpl, .mbx]⟩
  | .atomicSwapSend .. => ⟨false, [.out, .msix, .mbx, .ports, .recorder], [.hif, .rpl, .mbx]⟩
  | .mbxRecvRead .. | .mbxAck .. | .mbxCancel .. =>
    ⟨false, [.out, .dev, .msix, .mbx, .ports, .recorder], [.rpl, .mbx]⟩
  | .mbxTimeout .. => ⟨false, [.out, .msix, .recorder], [.rpl, .mbx]⟩
  | .rlockAcquire .. | .rlockRelease .. | .nakReceive .. | .replayTimeout .. => ⟨false, [.ports], [.hlk]⟩
  | .rlockRequestArrival .. => ⟨false, [.drawn, .ports], allKinds⟩
  | .rlockReply .. | .helloReceive .. => ⟨false, [.out, .msix, .ports], [.hlk]⟩
  | .mark .. | .rplResume .. => ⟨false, [.recorder], [.rpl]⟩
  | .markDone .. => ⟨true, [.out, .drawn, .msix, .xlat, .recorder, .chans], accessKinds⟩
  | .replay .. =>
    ⟨true, [.out, .msix, .xlat, .ctxs, .ctxSlots, .shares, .dlm, .streams, .recorder, .chans],
      [.pwr, .clk] ++ accessKinds⟩
  | .rplStop .. =>
    ⟨true, [.out, .cycBase, .blocks, .msix, .mbx, .xlat, .shares, .dlm, .streams, .rehoming, .recorder, .chans],
      allKinds⟩
  | .gaitRequest .. => ⟨false, [.chans], [.pwr, .clk]⟩
  | .sleepRequest .. | .parkRequest .. => ⟨false, [], [.pwr]⟩
  | .runRequest .. => ⟨false, [.chans], [.pwr]⟩
  | .maxwWrite .. => ⟨false, [], [.hlk]⟩
  | .fetchCommand .. | .scanStart .. => ⟨false, [.out, .msix, .recorder, .chans], [.rpl]⟩
  | .descriptorReadReturn .. => ⟨false, [.out, .msix, .xlat, .dlm, .recorder, .chans], accessKinds⟩
  | .splitTurn .. =>
    ⟨false, [.out, .drawn, .msix, .dlm, .streams, .recorder, .chans], [.dlm, .ctx, .rpl, .ring, .eng, .door]⟩
  | .splitReadReturn .. =>
    ⟨false, [.out, .drawn, .msix, .xlat, .dlm, .streams, .recorder, .chans], [.dlm] ++ accessKinds⟩
  | .matmul .. | .conv .. | .dwconv .. | .pool .. | .scan .. | .stats .. | .argmax .. | .regroup .. | .fork ..
  | .loadW .. | .drain .. | .copy .. | .cvu .. =>
    ⟨false, [.out, .drawn, .msix, .dlm, .streams, .recorder, .chans], [.dlm, .ctx, .rpl, .wst, .ring, .door]⟩
  | .fence .. | .signal .. | .wait .. =>
    ⟨false, [.out, .msix, .dlm, .streams, .recorder, .chans], [.dlm, .ctx, .rpl, .wst, .ring, .door]⟩
  | .signalWriteAccepted .. => ⟨true, [.out, .msix, .xlat, .dlm, .streams, .recorder, .chans], [.dlm] ++ accessKinds⟩
  | .waitPollExpiry .. | .tileRestoreStart .. | .sliceLoadComplete .. | .drainStart .. | .wakeEvent ..
  | .siteRetest .. => ⟨false, [.chans], []⟩
  | .waitReadReturn .. => ⟨false, [.out, .msix, .xlat, .dlm, .streams, .recorder, .chans], [.dlm] ++ accessKinds⟩
  | .waitTimeout .. =>
    ⟨false, [.out, .msix, .xlat, .dlm, .streams, .recorder, .chans], [.hmmu, .dlm, .rpl, .cmmu, .ring, .door]⟩
  | .tileClaim .. | .beatIssue .. | .activationReadReturn .. =>
    ⟨false, [.out, .cycBase, .blocks, .msix, .xlat, .recorder, .chans], [.ras] ++ accessKinds⟩
  | .sealComplete .. => ⟨true, [.out, .drawn, .msix, .xlat, .ctxs, .recorder, .chans], accessKinds⟩
  | .tileRestoreComplete .. | .epilogueOutput .. | .landingSpill .. =>
    ⟨false, [.out, .drawn, .msix, .xlat, .recorder, .chans], accessKinds⟩
  | .sliceLoadStart .. => ⟨false, [.chans], [.eng]⟩
  | .rebuildComplete .. => ⟨false, [], [.eng]⟩
  | .promotionComplete .. => ⟨false, [.out, .msix, .recorder, .chans], [.ctx, .rpl, .eng]⟩
  | .rowParamFetchReturn .. | .landedBlockMove .. =>
    ⟨false, [.out, .msix, .xlat, .recorder, .chans], [.ras] ++ accessKinds⟩
  | .drainBlockRead .. =>
    ⟨false, [.out, .drawn, .cycBase, .blocks, .msix, .xlat, .recorder, .chans], [.pwr, .ras] ++ accessKinds⟩
  | .writeBack .. => ⟨true, [.out, .msix, .xlat, .streams, .recorder, .chans], [.ras] ++ accessKinds⟩
  | .drainComplete .. | .queueCrossing .. | .walkReadReturn .. =>
    ⟨false, [.out, .msix, .xlat, .recorder, .chans], accessKinds⟩
  | .creditReturn .. => ⟨false, [.out, .msix, .xlat, .recorder, .chans], [.tnd] ++ accessKinds⟩
  | .tandemBlockSend .. => ⟨false, [.out, .msix, .ports, .xlat, .recorder, .chans], [.ras] ++ accessKinds⟩
  | .blockAccepted .. => ⟨false, [.out, .msix, .chans], [.eng]⟩
  | .tandemIngressArrival .. => ⟨false, [.out, .msix, .xlat, .recorder, .chans], [.ras, .tnd] ++ accessKinds⟩
  | .blockFold .. => ⟨false, [.out, .drawn, .msix, .xlat, .recorder, .chans], [.ras, .tnd] ++ accessKinds⟩
  | .landingSpillDone .. => ⟨true, [.out, .drawn, .msix, .xlat, .recorder, .chans], [.tnd] ++ accessKinds⟩
  | .scanHeadCheck .. => ⟨false, [.out, .msix, .recorder, .chans], [.rpl, .grm]⟩
  | .swapInComplete .. => ⟨true, [.out, .msix, .xlat, .ctxs, .streams, .recorder, .chans], [.strm] ++ accessKinds⟩
  | .swapOutComplete .. | .backingCopyComplete .. | .scanComplete .. =>
    ⟨true, [.out, .msix, .xlat, .streams, .recorder, .chans], accessKinds⟩
  | .cowCopyComplete .. => ⟨true, [.out, .msix, .ctxs, .streams, .recorder, .chans], [.rpl, .grm]⟩
  | .forkComplete .. => ⟨false, [.out, .msix, .streams, .recorder, .chans], [.strm, .rpl]⟩
  | .cvuCommandStart .. => ⟨false, [.chans], [.cvu]⟩
  | .cvuBlockComplete .. | .cvuCommandComplete .. | .copyUnitComplete .. | .lodgerFillComplete ..
  | .completionRecordAccepted .. | .batchAccepted .. | .argmaxMerge .. =>
    ⟨true, [.out, .msix, .xlat, .recorder, .chans], accessKinds⟩
  | .lodgerFillStart .. => ⟨false, [.chans], [.wst]⟩
  | .commandComplete .. => ⟨false, [.out, .msix, .dlm, .streams, .recorder, .chans], [.dlm, .rpl, .ring, .door]⟩
  | .faultRecordWrite .. => ⟨false, [.out, .msix, .xlat], [.hmmu]⟩
  | .channelSaveDone .. =>
    ⟨true, [.out, .drawn, .msix, .xlat, .ctxs, .ctxSlots, .loads, .reliefInto, .shares, .recorder, .chans],
      accessKinds⟩
  | .contextRestoreDone .. =>
    ⟨false, [.out, .drawn, .msix, .xlat, .ctxs, .ctxSlots, .loads, .reliefInto, .shares, .dlm, .streams,
     .rehoming, .recorder, .chans], [.strm, .dlm, .tnd] ++ accessKinds⟩
  | .contextBlocked .. => ⟨false, [.ctxSlots], [.ctx]⟩
  | .relief => ⟨false, [.out, .msix, .ctxs, .ctxSlots, .reliefInto, .lastRelief], [.ctx]⟩
  | .dlmCheck .. => ⟨false, [.out, .drawn, .msix, .dlm, .recorder, .chans], [.dlm, .rpl]⟩
  | .pllRelockDone .. => ⟨false, [.out, .msix, .chans], [.clk]⟩
  | .gaitChangeDone .. => ⟨false, [.out, .msix, .recorder, .chans], [.rpl, .pwr, .clk]⟩
  | .governorPeriod .. => ⟨false, [.drawn, .dev, .chans], [.pwr, .clk]⟩
  | .sleepEntry .. => ⟨false, [], [.pwr, .clk, .grm, .hbmc]⟩
  | .parkEntry .. => ⟨false, [], [.pwr, .clk, .grm]⟩
  | .wakeComplete .. => ⟨false, [.out, .msix, .chans], [.hif, .pwr, .clk, .mbx, .grm, .hbmc]⟩
  | .linkTrain .. => ⟨false, [.out], [.hlk]⟩
  | .flitTransmit .. => ⟨false, [.out, .msix, .ports], [.ras, .eng]⟩
  | .flitReceive .. => ⟨false, [.out, .dev, .msix, .mbx, .ports, .recorder], [.rpl, .hlk, .mbx]⟩
  | .laneFailure .. | .retrainDone .. | .retrainTimeout .. | .portLoss .. | .goodbyeReceive ..
  | .goodbyeDrainDone .. => ⟨false, [.out, .msix, .ports, .xlat, .shares, .recorder, .chans], allKinds⟩
  | .peerMessageArrival .. | .peerReceiptArrival .. => ⟨false, [.out, .msix, .mbx, .ports], [.mbx]⟩
  | .powerOn .. | .coldResetRequest =>
    ⟨true, [.out, .drawn, .dev, .cycles, .cycBase, .holds, .blocks, .msix, .mbx, .ports, .xlat, .ctxs,
     .ctxSlots, .loads, .reliefInto, .lastRelief, .shares, .dlm, .streams, .rehoming, .recorder, .chans],
      allKinds⟩
  | .perstDeassert .. => ⟨false, [.out, .drawn, .dev, .blocks, .msix, .ports, .chans], allKinds⟩
  | .warmReset | .pcieLinkDown | .pcieLinkChange .. =>
    ⟨true, [.out, .dev, .cycBase, .holds, .blocks, .msix, .mbx, .ports, .xlat, .ctxs, .ctxSlots, .loads,
     .reliefInto, .lastRelief, .shares, .dlm, .streams, .rehoming, .recorder, .chans], allKinds⟩
  | .hbmTrainDone .. | .selftestDone .. | .groomBootAck .. | .engineCheckDone .. | .channelReadyTimeout ..
  | .channelRetire .. | .retire | .chreset =>
    ⟨true, [.out, .dev, .cycBase, .blocks, .msix, .mbx, .ports, .xlat, .shares, .dlm, .streams, .rehoming,
     .recorder, .chans], allKinds⟩
  | .flr =>
    ⟨true, [.out, .dev, .cycBase, .holds, .blocks, .msix, .mbx, .xlat, .ctxs, .ctxSlots, .loads, .reliefInto,
     .lastRelief, .shares, .dlm, .streams, .rehoming, .recorder, .chans], allKinds⟩
  | .surpriseRemoval => ⟨false, [.dev], []⟩
  | .pldmMonitor => ⟨false, [.out], []⟩
  | .requestUpdate | .passComponentTable .. | .updateComponent .. => ⟨false, [.out, .dev], []⟩
  | .firmwareData .. => ⟨false, [.out, .dev], [.far]⟩
  | .activateFirmware => ⟨false, [.out, .drawn, .dev], [.far, .mbx, .grm]⟩
  | .farrierRestartDone .. =>
    ⟨false, [.out, .dev, .blocks, .msix, .mbx, .ports, .xlat, .ctxs, .ctxSlots, .loads, .reliefInto, .shares,
     .dlm, .streams, .rehoming, .recorder, .chans], [.hif, .far, .strm, .dlm, .hlk, .mbx] ++ accessKinds⟩
  | .groomPatchApply .. => ⟨false, [.out, .dev, .msix], [.mbx, .grm]⟩
  | .sidebandEdge .. => ⟨false, [.out, .dev, .msix], [.far, .pwr]⟩
  | .sidebandSettleExpiry .. => ⟨false, [.out, .dev, .msix, .ports, .xlat, .shares, .recorder, .chans], allKinds⟩
  | .sidebandStuckExpiry .. => ⟨false, [.out, .msix], [.far]⟩
  | .substitutionHoldoffExpiry .. => ⟨false, [.out, .cycBase, .blocks, .msix, .recorder, .chans], [.rpl, .ras, .eng]⟩
  | .retestDone .. =>
    ⟨false, [.out, .dev, .cycBase, .blocks, .msix, .mbx, .ports, .recorder, .chans], [.rpl, .ras, .mbx, .eng]⟩
  | .hbmRowRepair .. => ⟨true, [.out, .drawn, .msix, .chans], [.ras, .wst, .ast, .hbmc]⟩
  | .softPprDone .. => ⟨true, [.out, .msix, .chans], [.hbmc]⟩
  | .readmit => ⟨false, [.out, .dev, .msix, .mbx, .ports, .recorder], [.hif, .rpl, .clk, .ras, .mbx]⟩
  | .retest => ⟨false, [.out, .dev, .msix, .mbx, .ports, .recorder, .chans], [.rpl, .mbx]⟩
  | .restart => ⟨false, [.out, .dev, .msix, .mbx, .ports, .streams, .recorder, .chans], [.rpl, .mbx]⟩
  | .engineReset .. => ⟨false, [.out, .cycBase, .blocks, .msix, .xlat, .recorder, .chans], accessKinds⟩
  | .batchWrite .. => ⟨false, [.recorder], []⟩
  | .configRequest => ⟨false, [.out, .drawn], []⟩
  | .pllLockLost .. => ⟨false, [.out, .msix], [.clk]⟩
  | .lockstepMismatch .. => ⟨false, [.out, .msix], [.far, .ras]⟩
  | .ucieLinkError .. => ⟨false, [.out, .msix, .chans], [.ras, .grm]⟩
  | .hbmTempUpdate .. => ⟨false, [], [.hbmc]⟩

end Sys2Proof.Machine
end

