-- ==== Sys2Proof/Certificates/Slice0/Obligations.lean ====
section
/-!
DEFINITION. The statements about the block.
-/

open Sys2Proof Sys2Proof.Machine

/-- An engine command has completed with a status (R400): its host command, where it is still there, shows it. -/
def CompletedWith (s t : State) (c : Nat) (k : EngCmd) (status : Nat) : Prop :=
  k.again = false → ∀ h ∈ (t.chan c).cmds, h.num = k.num → ∀ r ∈ h.ecs, r.idx = k.idx →
    r.status ≠ none ∧ (r.status = some status ∨ ∃ g ∈ (s.chan c).cmds, g.num = k.num ∧ r ∈ g.ecs)

/-! ## The queue, time and the whole machine -/

/-- Rows of one queue, first in, first out: a step takes the command at the front and performs it on the state with
the queue's rest. -/
def Obligations.StepRunsFront : Prop :=
  ∀ (i : Instr) (rest : List Instr) (s : State), s.pending = i :: rest →
    Sys2Proof.Machine.step s = Sys2Proof.Machine.exec i { s with pending := rest }

/-- The model's choice (log entry 1): with an empty queue time passes. Each clock domain completes one cycle or none,
a stopped one none, and nothing but the cycle counts and the number of the next free value changes. -/
def Obligations.IdleStepPassesTime : Prop :=
  ∀ s : State, s.pending = [] →
    ∃ t, Sys2Proof.Machine.step s = .next t ∧
      (∀ d, t.cyc d = s.cyc d ∨ (s.dev.powered = true ∧ s.clockRuns d = true ∧ t.cyc d = s.cyc d + 1)) ∧
      t = { s with cycles := t.cycles, drawn := t.drawn }

/-- No command stops the block. -/
def Rules.EveryCommandAnswersNext : Prop :=
  ∀ (i : Instr) (s : State), ∃ t, Sys2Proof.Machine.exec i s = .next t

/-- Without power nothing acts but POWER_ON (R558). -/
def Rules.WithoutPowerNothingActs : Prop :=
  ∀ (i : Instr) (s : State), s.dev.powered = false → (∀ p, i ≠ .powerOn p) →
    Sys2Proof.Machine.exec i s = .next s

/-- What a command leaves of every other command's work: the queue is untouched, what has left the card stays out,
and numbers of free values are not used twice. -/
def Rules.CommandsKeepQueueAndOutput : Prop :=
  ∀ (i : Instr) (s t : State), Sys2Proof.Machine.exec i s = .next t →
    t.pending = s.pending ∧ s.out <+: t.out ∧ s.drawn ≤ t.drawn

/-- The invariant: every store is in its canonical form, and register words are 32 bits wide, each listed once. Every
step keeps it. -/
def Obligations.StepKeepsStoresAndRegisters : Prop :=
  ∀ s t : State, s.storesWf → s.regsWf → Sys2Proof.Machine.step s = .next t → t.storesWf ∧ t.regsWf

/-- The invariant holds after reset. -/
def Obligations.ResetStoresAndRegisters : Prop :=
  State.reset.storesWf ∧ State.reset.regsWf


/-! ## Locks and mailboxes (chapter 15) -/

/-- LOCK_READ_ACQUIRE (R506). The read returns the tag that stood in the lock, 0 for a free one, and a free lock takes
the reader's tag. Nothing else changes but what the recorder does. -/
def Rules.LockReadAcquire : Prop :=
  ∀ (m : Master) (a : BarAddr) (p : Page) (off i : Nat) (s : State), s.dev.powered = true →
    placeOf a = some (p, off) → lockAt? off = some i → s.reaches m p = true →
    ∃ t, Sys2Proof.Machine.exec (.lockReadAcquire m a) s = .next t ∧
      t.lockOwner p i = (if s.lockOwner p i = 0 then masterTag m else s.lockOwner p i) ∧
      t.out.getLast? = some (.read m (s.lockOwner p i)) ∧
      (∀ q o, o < 4096 → q ≠ .rpl → (q ≠ p ∨ o ≠ off) → t.word q o = s.word q o) ∧ s.sameTables t

/-- LOCK_RELEASE and LOCK_FORCE (R506). A write of 0 by the owner releases the lock, and so does FORCE of the farrier,
whoever holds it; a write by another master, and any other write, leaves the lock as it is. -/
def Rules.LockReleaseAndForce : Prop :=
  (∀ (m : Master) (a : BarAddr) (p : Page) (off i : Nat) (s : State), s.dev.powered = true →
    placeOf a = some (p, off) → lockAt? off = some i → s.writable m p off = true →
    Sys2Proof.Machine.exec (.lockRelease m a) s =
      .next (if s.lockOwner p i = masterTag m then s.wr p (Reg.lock_OWNER i) 0 else s)) ∧
  (∀ (a : BarAddr) (p : Page) (off i : Nat) (s : State), s.dev.powered = true →
    placeOf a = some (p, off) → lockAt? off = some i → s.writable .farrier p off = true →
    (∀ c r, p ≠ .door c r) →
    ∃ t, Sys2Proof.Machine.exec (.lockForce .farrier a) s = .next t ∧ t.lockOwner p i = 0 ∧
      (∀ q o, o < 4096 → (q ≠ p ∨ o ≠ off) → t.word q o = s.word q o) ∧ t = { s with regs := t.regs }) ∧
  (∀ (m : Master) (a : BarAddr) (s : State), m ≠ .farrier → Sys2Proof.Machine.exec (.lockForce m a) s = .next s) ∧
  (∀ (m : Master) (a : BarAddr) (v : Word) (p : Page) (off i : Nat) (s : State), s.dev.powered = true →
    placeOf a = some (p, off) → lockAt? off = some i → v.toNat ≠ 0 → (m = .farrier → v.toNat < 2 ^ 31) →
    ∃ t, Sys2Proof.Machine.exec (.registerWrite m a v) s = .next t ∧ t.lockOwner p i = s.lockOwner p i ∧
      ∀ q o, o < 4096 → q ≠ .rpl → t.word q o = s.word q o)

/-- What an accepted send leaves (R498): the words of the staging registers in the slot, FULL 1 and READ 0, SEQ one
further, RX_FULL set. -/
def SendAccepted (b : MbxId) (s t : State) : Prop :=
  t.dataWords b = s.stageWords b ∧ (t.slot b).full = true ∧ (t.slot b).read = false ∧
    t.rd (.mbx b) Reg.mbxSstat_SEQ = (s.rd (.mbx b) Reg.mbxSstat_SEQ + 1) % 2 ^ 15 ∧
    (t.rd (.mbx b) Reg.intRaw_RAW).testBit 0 = true ∧ t.stageWords b = s.stageWords b

/-- What a rejected send leaves (R498): the slot, the staging words and SEQ as they were, and one more rejection. -/
def SendRejected (b : MbxId) (s t : State) : Prop :=
  t.mbx = s.mbx ∧ t.dataWords b = s.dataWords b ∧ t.stageWords b = s.stageWords b ∧
    t.rd (.mbx b) Reg.mbxSstat_SEQ = s.rd (.mbx b) Reg.mbxSstat_SEQ ∧
    t.rd (.mbx b) Reg.mbxSstat_REJ_CNT = min (s.rd (.mbx b) Reg.mbxSstat_REJ_CNT + 1) (2 ^ 8 - 1)

/-- MBX_SEND, MBX_SEND_ALT and the AtomicOp Swap (R498): a send is accepted when FULL is 0: the
slot takes the staging words, FULL is 1 and READ 0, SEQ goes up, RX_FULL sets, and the Swap's completion returns
MBX_SSTAT as it stood before. -/
def Rules.SendsAcceptedWhenEmpty : Prop :=
  ∀ s : State, s.dev.powered = true → s.regsWf →
    (∀ m b, s.writable m (.mbx b) 0x140 = true → s.mailWaits b = false → (s.slot b).full = false →
      ∃ t, Sys2Proof.Machine.exec (.mbxSend m b) s = .next t ∧ SendAccepted b s t) ∧
    (∀ m b, s.writable m (.mbx b) 0x144 = true → s.mailWaits b = false → (s.slot b).full = false →
      ∃ t, Sys2Proof.Machine.exec (.mbxSendAlt m b) s = .next t ∧ SendAccepted b s t) ∧
    (∀ v : Word, v.toNat % 2 = 1 → s.mainUp = true → (s.slot hfBox).full = false →
      ∃ t, Sys2Proof.Machine.exec (.atomicSwapSend v) s = .next t ∧ SendAccepted hfBox s t ∧
        t.out.getLast? = some (.completion .ok (s.sstatWord hfBox)))

/-- A send is rejected when FULL is 1 (R498): the slot, the staging words and SEQ stay, and the rejection counts;
the farrier and the grooms take a bus fault, the host's Swap completes with Completer Abort, and its posted write to
either register is dropped with SEND_REJECT set. -/
def Rules.SendsRejectedWhenFull : Prop :=
  ∀ s : State, s.dev.powered = true →
    (∀ m b, m ≠ .host → s.writable m (.mbx b) 0x140 = true → s.mailWaits b = false → (s.slot b).full = true →
      ∃ t, Sys2Proof.Machine.exec (.mbxSend m b) s = .next t ∧ SendRejected b s t ∧
        t.out.getLast? = some (.busFault m)) ∧
    (∀ b, s.writable .host (.mbx b) 0x140 = true → s.mailWaits b = false → (s.slot b).full = true →
      ∃ t, Sys2Proof.Machine.exec (.mbxSend .host b) s = .next t ∧ SendRejected b s t ∧
        t.rd (.mbx b) Reg.mbxSstat_SEND_REJECT = 1 ∧ (t.rd (.mbx b) Reg.intRaw_RAW).testBit 3 = true) ∧
    (∀ m b, s.writable m (.mbx b) 0x144 = true → s.mailWaits b = false → (s.slot b).full = true →
      ∃ t, Sys2Proof.Machine.exec (.mbxSendAlt m b) s = .next t ∧ SendRejected b s t ∧
        t.rd (.mbx b) Reg.mbxSstat_SEND_REJECT = 1 ∧ (t.rd (.mbx b) Reg.intRaw_RAW).testBit 3 = true) ∧
    (∀ v : Word, v.toNat % 2 = 1 → s.mainUp = true → (s.slot hfBox).full = true →
      ∃ t, Sys2Proof.Machine.exec (.atomicSwapSend v) s = .next t ∧ SendRejected hfBox s t ∧
        ∃ l, t.out = l ++ [.completion .abort 0, .aer .advisoryAbort])

/-- MBX_RECV_READ (R499): the receiver's read returns SEQ, FULL and READ as they stood, and sets READ of a message; in
PLAIN mode it clears FULL besides. A read by another master has no side effect. -/
def Rules.ReceiverReadsMessage : Prop :=
  ∀ (m : Master) (b : MbxId) (s : State), s.dev.powered = true → s.reaches m (.mbx b) = true →
    ∃ t, Sys2Proof.Machine.exec (.mbxRecvRead m b) s = .next t ∧ .read m (s.recvWord b) ∈ t.out ∧
      (m = mbxReceiver b → isPo b = false → (s.slot b).full = true → b ≠ fhBox →
        (t.slot b).read = true ∧ (t.slot b).full = s.acked b ∧ (t.slot b).seq = (s.slot b).seq) ∧
      (m ≠ mbxReceiver b → t = s.emit (.read m (s.recvWord b)))

/-- MBX_ACK, MBX_CANCEL and MBX_TIMEOUT (R499, R500): an acknowledgement of an ACKED message clears FULL and fills
MBX_ACK_STAT; the sender withdraws a message that has not been read; TIMEOUT sets and never clears FULL. Of a peer
mailbox what the link carries is another statement's matter. -/
def Rules.MessagesAcknowledgedCancelledTimedOut : Prop :=
  ∀ (b : MbxId) (s : State), s.dev.powered = true → (s.slot b).full = true → isPo b = false →
    (∀ m code, s.writable m (.mbx b) 0x1c4 = true → s.acked b = true → isPi b = false → b ≠ fhBox →
      ∃ t, Sys2Proof.Machine.exec (.mbxAck m b code) s = .next t ∧ (t.slot b).full = false ∧
        t.word (.mbx b) 0x150 = code.toNat + (s.slot b).seq % 2 ^ 15 * 2 ^ 16 + 2 ^ 31 ∧
        (t.rd (.mbx b) Reg.intRaw_RAW).testBit 1 = true) ∧
    (∀ m v, s.writable m (.mbx b) 0x148 = true → v.toNat % 2 = 1 → (s.slot b).read = false → b ≠ fhBox →
      ∃ t, Sys2Proof.Machine.exec (.mbxCancel m b v) s = .next t ∧ (t.slot b).full = false ∧
        (∀ b', b' ≠ b → b' ≠ fhBox → t.slot b' = s.slot b')) ∧
    (s.rd (.mbx b) Reg.mbxCfg_TMO ≠ 0 → s.timerOff b = false →
      ∃ t, Sys2Proof.Machine.exec (.mbxTimeout b) s = .next t ∧ t.mbx = s.mbx ∧
        t.rd (.mbx b) Reg.mbxSstat_TIMEOUT = 1 ∧ (t.rd (.mbx b) Reg.intRaw_RAW).testBit 2 = true ∧
        s.sameWords t [.mbx b, .rpl] ∧ s.sameTables t)

/-- UNSUPPORTED_ATOMICOP (R540): every other AtomicOp completes with Unsupported Request and changes nothing but the
count of such requests. -/
def Rules.UnsupportedAtomicop : Prop :=
  ∀ (a : BarAddr) (s : State), s.dev.powered = true → s.mainUp = true →
    ∃ t, Sys2Proof.Machine.exec (.unsupportedAtomicop a) s = .next t ∧
      t.out = s.out ++ [.completion .unsupported 0, .aer .advisoryUnsupported] ∧
      (∀ q o, o < 4096 → (q ≠ .hif ∨ o ≠ Reg.hifCnt_UR.off) → t.word q o = s.word q o) ∧
      t = { s with regs := t.regs, out := t.out }

/-- The harness side of mailboxes and locks (R527 to R529, R537): a peer's message lands in the empty slot of PIp; a
receipt clears FULL of POp; a request of the farrier for a lock of a peer on an UP port goes out with BUSY set; a
peer's request is performed under its tag and answered; the answer ends BUSY. -/
def Obligations.PeerMailboxesAndLocks : Prop :=
  ∀ (p : PortId) (s : State), s.dev.powered = true →
    (∀ seq words, s.linkUp p = true → (s.slot (piBox p)).full = false →
      ∃ t, Sys2Proof.Machine.exec (.peerMessageArrival p seq words) s = .next t ∧
        t.slot (piBox p) = { full := true, read := false, seq := seq.toNat } ∧
        t.dataWords (piBox p) = words.toList.map BitVec.toNat ∧
        (t.rd (.mbx (piBox p)) Reg.intRaw_RAW).testBit 0 = true) ∧
    (∀ r, s.linkUp p = true →
      ∃ t, Sys2Proof.Machine.exec (.peerReceiptArrival p r) s = .next t ∧ (t.slot (poBox p)).full = false ∧
        (∀ code seq, r = .ack code seq →
          t.word (.mbx (poBox p)) 0x150 = code.toNat + seq.toNat * 2 ^ 16 + 2 ^ 31)) ∧
    (∀ page lock, s.linkUp p = true → s.flag (.hlk p) Reg.hlkRlock_BUSY = false →
      (∃ t, Sys2Proof.Machine.exec (.rlockAcquire .farrier p page lock) s = .next t ∧
        t.rd (.hlk p) Reg.hlkRlock_BUSY = 1 ∧ t.rd (.hlk p) Reg.hlkRlock_PAGE = page.toNat ∧
        ∃ l, Tab.get [] (t.port p).egress 0 = l ++ [{ body := .ctrl (.lockRequest page lock false), bytes := 16 }]) ∧
      (∃ t, Sys2Proof.Machine.exec (.rlockRelease .farrier p page lock) s = .next t ∧
        t.rd (.hlk p) Reg.hlkRlock_BUSY = 1 ∧ t.rd (.hlk p) Reg.hlkRlock_PAGE = page.toNat ∧
        ∃ l, Tab.get [] (t.port p).egress 0 = l ++ [{ body := .ctrl (.lockRequest page lock true), bytes := 16 }])) ∧
    (∀ page lock q, s.linkUp p = true → hubPage? page.toNat = some q →
      ∃ t, Sys2Proof.Machine.exec (.rlockRequestArrival p page lock false) s = .next t ∧
        t.lockOwner q lock = (if s.lockOwner q lock = 0 then masterTag (.peer p) else s.lockOwner q lock) ∧
        ∃ l, Tab.get [] (t.port p).egress 0 =
          l ++ [{ body := .ctrl (.lockReply (BitVec.ofNat 8 (s.lockOwner q lock))), bytes := 16 }]) ∧
    (∀ value, s.flag (.hlk p) Reg.hlkRlock_BUSY = true →
      ∃ t, Sys2Proof.Machine.exec (.rlockReply p value) s = .next t ∧ t.rd (.hlk p) Reg.hlkRlock_BUSY = 0 ∧
        t.rd (.hlk p) Reg.hlkRlock_RESULT = value.toNat ∧ (t.rd (.hlk p) Reg.intRaw_RAW).testBit 3 = true)


/-! ## Registers, MSI-X and blocks (R14 to R18, R541, R646, chapter 18) -/

/-- A page whose registers a write merely stores. -/
def PlainPage : Page → Prop
  | .hif | .far | .clk | .cmmu _ | .ast _ | .cvu _ | .hbmc _ => True
  | _ => False

/-- What a write leaves in a field, by its access code (R14). -/
def Written (k : Access) (old new : Nat) : Nat :=
  match k with
  | .rw => new
  | .w1c => old - (old &&& new)
  | _ => old

/-- REGISTER_WRITE (R14, R17) on the pages whose registers have no effect of their own: each field of the word takes
the written value by its access code, and no other register changes. A write to an offset that no chapter defines has
no effect on any page. -/
def Obligations.RegisterWriteByAccessCode : Prop :=
  ∀ (m : Master) (a : BarAddr) (v : Word) (p : Page) (off : Nat) (s : State), s.dev.powered = true →
    placeOf a = some (p, off) →
    (fieldsAt p off = [] → Sys2Proof.Machine.exec (.registerWrite m a v) s = .next s) ∧
    (PlainPage p → 0x100 ≤ off → off % 4 = 0 → fieldsAt p off ≠ [] → s.writable m p off = true →
      ∃ t, Sys2Proof.Machine.exec (.registerWrite m a v) s = .next t ∧
        (∀ f ∈ fieldsAt p off, bitsOf (t.word p off) f.lo f.w =
          Written f.access (bitsOf (s.word p off) f.lo f.w) (bitsOf v.toNat f.lo f.w)) ∧
        (∀ q o, o < 4096 → q ≠ .rpl → (q ≠ p ∨ o ≠ off) → t.word q o = s.word q o) ∧ s.sameTables t)

/-- RC_FIELD_READ (R14): the read returns the word, and its RC fields go back to their reset values; no other field
changes. -/
def Rules.ReadRestoresRcFields : Prop :=
  ∀ (m : Master) (a : BarAddr) (p : Page) (off : Nat) (s : State), s.dev.powered = true →
    placeOf a = some (p, off) → 0x100 ≤ off → isPairLo p (off - 4) = false → (∃ f ∈ fieldsAt p off, f.access = .rc) → s.reaches m p = true →
    ∃ t, Sys2Proof.Machine.exec (.rcFieldRead m a) s = .next t ∧ t.out = s.out ++ [.read m (s.shown p off)] ∧
      (∀ f ∈ fieldsAt p off, bitsOf (t.word p off) f.lo f.w =
        if f.access = .rc then f.reset else bitsOf (s.word p off) f.lo f.w) ∧
      (∀ q o, o < 4096 → (q ≠ p ∨ o ≠ off) → t.word q o = s.word q o) ∧
      t = { s with regs := t.regs, out := t.out }

/-- PAIR_LO_READ and the read of a _HI (R18): a read of _LO returns the lower half and captures the upper half of the
same moment; the next read of _HI by the same master returns it, whatever the register holds then. The model's choice
(log entry 19): that read uses the copy up. -/
def Obligations.PairReadCapturesHigh : Prop :=
  ∀ (m : Master) (a : BarAddr) (p : Page) (off : Nat) (s : State), s.dev.powered = true →
    placeOf a = some (p, off) → isPairLo p off = true → s.reaches m p = true →
    ∃ t, Sys2Proof.Machine.exec (.pairLoRead m a) s = .next t ∧ t.out = s.out ++ [.read m (s.shown p off)] ∧
      (∀ u : State, u.holds = t.holds → u.highHalf m p (off + 4) = s.shown p (off + 4)) ∧
      t = { s with holds := t.holds, out := t.out } ∧
      (∀ (a' : BarAddr) (u : State), u.holds = t.holds → u.dev.powered = true → placeOf a' = some (p, off + 4) →
        u.reaches m p = true →
        Sys2Proof.Machine.exec (.rcFieldRead m a') u =
          .next { u with
            holds := Tab.erase u.holds (holdKey m p (off + 4)), out := u.out ++ [.read m (s.shown p (off + 4))] })

/-- SUBWORD_WRITE and UNALIGNED_ACCESS (R646): a write of one or two bytes is ignored and counted; an access that is
not aligned returns ones in every word, or is ignored, and completes with Unsupported Request. -/
def Rules.OddSizedAccesses : Prop :=
  ∀ (m : Master) (a : BarAddr) (s : State), s.dev.powered = true → s.mainUp = true →
    (∀ two, ∃ t, Sys2Proof.Machine.exec (.subwordWrite m a two) s = .next t ∧
      t.rd .hif Reg.hifCnt_BADWR = min (s.rd .hif Reg.hifCnt_BADWR + 1) (2 ^ Reg.hifCnt_BADWR.w - 1) ∧
      (∀ q o, o < 4096 → (q ≠ .hif ∨ o ≠ Reg.hifCnt_BADWR.off) → t.word q o = s.word q o) ∧
      t = { s with regs := t.regs }) ∧
    (∀ size, ∃ t, Sys2Proof.Machine.exec (.unalignedAccess m a true size) s = .next t ∧
      t.out = s.out ++ [.completion .unsupported 0, .aer .unsupported] ∧
      (∀ q o, o < 4096 → (q ≠ .hif ∨ o ≠ Reg.hifCnt_UR.off) → t.word q o = s.word q o) ∧
      t = { s with regs := t.regs, out := t.out }) ∧
    (∀ size, ∃ t v, Sys2Proof.Machine.exec (.unalignedAccess m a false size) s = .next t ∧
      (∀ i, i < 32 * max 1 ((size + 3) / 4) → v.testBit i = true) ∧
      t.out = s.out ++ [.read m v, .completion .unsupported v, .aer .unsupported] ∧
      (∀ q o, o < 4096 → (q ≠ .hif ∨ o ≠ Reg.hifCnt_UR.off) → t.word q o = s.word q o) ∧
      t = { s with regs := t.regs, out := t.out })

/-- An event that selects a masked vector sets its pending bit and sends nothing (R541); another sends one message. -/
def Rules.MaskedVectorsWait : Prop :=
  ∀ (v : Nat) (s : State),
    ((Tab.get {} s.msix v).masked = true ∨ s.dev.functionMask = true →
      (s.sendVector v).out = s.out ∧ (Tab.get {} (s.sendVector v).msix v).pending = true) ∧
    ((Tab.get {} s.msix v).masked = false → s.dev.functionMask = false →
      s.sendVector v = { s with out := s.out ++ [.msix v] })

/-- MSIX_UNMASK (R541): a vector that is unmasked sends its one message if it is pending; the function mask opens for
every vector. -/
def Rules.MsixUnmask : Prop :=
  ∀ s : State, s.dev.powered = true → s.mainUp = true →
    (∀ v : Fin 2048, s.dev.functionMask = false →
      ∃ t, Sys2Proof.Machine.exec (.msixUnmask (.vector v)) s = .next t ∧
        (Tab.get {} t.msix v).masked = false ∧ (Tab.get {} t.msix v).pending = false ∧
        t.out = s.out ++ (if (Tab.get {} s.msix v).pending then [.msix v] else []) ∧
        (∀ n, n ≠ v.val → Tab.get {} t.msix n = Tab.get {} s.msix n) ∧ t = { s with msix := t.msix, out := t.out }) ∧
    (∃ t, Sys2Proof.Machine.exec (.msixUnmask .function) s = .next t ∧ t.dev.functionMask = false ∧
      (∀ n, (Tab.get {} t.msix n).pending = true → (Tab.get {} s.msix n).masked = true) ∧
      (∀ n, (Tab.get {} t.msix n).masked = (Tab.get {} s.msix n).masked) ∧
      t = { s with msix := t.msix, out := t.out, dev := t.dev })

/-- The pages whose start and stop no chapter of their own overrides: all but the ports. -/
def NotPort (p : Page) : Prop := ∀ h, p ≠ .hlk h

/-- ENABLE_SET (R579): EN written 1 takes a block from OFF to STARTING, sets REARM of a stopping one, and changes the
state of no other. -/
def Rules.EnableSet : Prop :=
  ∀ (m : Master) (p : Page) (s : State), s.dev.powered = true → s.writable m p 8 = true →
    ∃ t, Sys2Proof.Machine.exec (.enableSet m p) s = .next t ∧ t.rd p (enFld p) = 1 ∧
      t.blk p = (if s.blk p = blkOff then blkStarting else s.blk p) ∧
      (s.blk p = blkStopping → t.rd p Reg.blkState_REARM = 1)

/-- ENABLE_CLEAR (R579): EN written 0 takes a block from ON to STOPPING, clears REARM of a stopping one, ends a start
at its next safe point, and does nothing to a block that is OFF. -/
def Rules.EnableClear : Prop :=
  ∀ (m : Master) (p : Page) (s : State), s.dev.powered = true → s.writable m p 8 = true → NotPort p →
    ∃ t, Sys2Proof.Machine.exec (.enableClear m p) s = .next t ∧ t.rd p (enFld p) = 0 ∧
      t.blk p = (if s.blk p = blkOn then blkStopping else s.blk p) ∧
      (s.blk p = blkStopping → t.rd p Reg.blkState_REARM = 0) ∧
      (s.blk p = blkStarting → (t.blockRun p).ended = true)

/-- BLOCK_START_STEP (R579, R580): the last step of a start leaves the block ON, an earlier one leaves it STARTING; a
start that EN ended goes to STOPPING at the step's end with START_ENDED set. -/
def Rules.BlockStartStep : Prop :=
  ∀ (p : Page) (s : State), s.dev.powered = true → NotPort p → s.blk p = blkStarting → s.mayStart p = true →
    ((s.blockRun p).ended = false →
      ∃ t, Sys2Proof.Machine.exec (.blockStartStep p true) s = .next t ∧
        t.blk p = (if (s.blockRun p).steps + 1 < startSteps p then blkStarting else blkOn)) ∧
    (∀ ok, (s.blockRun p).ended = true →
      ∃ t, Sys2Proof.Machine.exec (.blockStartStep p ok) s = .next t ∧ t.blk p = blkStopping ∧
        t.rd p Reg.blkState_START_ENDED = 1)

/-- BLOCK_STOP_DONE (R579, R580): a stopping block that has nothing left to do reaches OFF, and enters STARTING with
REARM back at 0 where REARM was 1. -/
def Rules.BlockStopDone : Prop :=
  ∀ (p : Page) (s : State), s.dev.powered = true → NotPort p → s.blk p = blkStopping → s.stopped p = true →
    ∃ t, Sys2Proof.Machine.exec (.blockStopDone p) s = .next t ∧
      t.blk p = (if s.flag p Reg.blkState_REARM then blkStarting else blkOff) ∧ t.rd p Reg.blkState_REARM = 0



/-! ## Streams and state pages (chapter 10) -/

/-- A window operation of a master may start and the farrier runs it at once (R306, R451, R553). -/
def WindowReady (m : Master) (p : Page) (s : State) : Prop :=
  s.dev.powered = true ∧ s.windowFree m p = true ∧ s.dev.farrierUp = true

/-- A window operation has ended with a status (R305, R655). -/
def WindowEnded (p : Page) (status : Nat) (t : State) : Prop :=
  t.rd p Reg.strmWinCmd_STATUS = status ∧ t.rd p Reg.strmWinCmd_BUSY = 0 ∧
    (t.rd p Reg.intRaw_RAW).testBit (opDoneBit p) = true

/-- READ and OPEN of the stream window (R307): READ copies the entry into the data words; OPEN of a FREE entry with good
arguments writes its fields from them, OPEN with FORKED, PARENT and STEPS 0; a rejected OPEN changes no entry. -/
def Obligations.StreamReadAndOpen : Prop :=
  ∀ (m : Master) (s : State) (n : Nat), WindowReady m .strm s → n = s.rd .strm Reg.strmWinIdx_IDX →
    (∃ t, Sys2Proof.Machine.exec (.strmRead m) s = .next t ∧ WindowEnded .strm strmOk t ∧
      t.windowData .strm = (s.stream n).encode % 2 ^ 256 ∧ s.sameWords t [.strm] ∧ s.sameTables t) ∧
    (∃ t status, Sys2Proof.Machine.exec (.openStream m) s = .next t ∧ WindowEnded .strm status t ∧
      s.sameWords t [.strm] ∧
      (∀ r, parseStream (s.windowData .strm) = (r, false) → (s.stream n).state = strmFree →
        s.chState r.home ≠ chRetired → 1 ≤ r.pages → r.pages ≤ 16384 → r.stateVa % 4096 = 0 → r.initVa % 64 = 0 →
        status = strmOk ∧ t.stream n = r ∧ r.state = strmOpen ∧ r.forked = false ∧ r.parent = 0 ∧ r.steps = 0 ∧
          ∀ n', n' ≠ n → t.stream n' = s.stream n') ∧
      ((s.stream n).state ≠ strmFree → status = strmEntryBusy ∧ t.streams = s.streams) ∧
      (∀ r b, parseStream (s.windowData .strm) = (r, b) → (s.stream n).state = strmFree →
        s.chState r.home = chRetired → status = strmChannelDown ∧ t.streams = s.streams) ∧
      (∀ r b, parseStream (s.windowData .strm) = (r, b) → (s.stream n).state = strmFree →
        s.chState r.home ≠ chRetired →
        r.pages = 0 ∨ 16384 < r.pages ∨ r.stateVa % 4096 ≠ 0 ∨ r.initVa % 64 ≠ 0 ∨ b = true →
        status = strmBadArg ∧ t.streams = s.streams))

/-- A command that names a stream has been split and has not completed (R308). -/
def NamedUnderWay (s : State) (n : Nat) : Prop :=
  ((s.chan (s.stream n).home).cmds.any fun h => h.names n && h.underWay) = true

/-- No page of the home channel is the stream's, or still on its way to another's backing. -/
def NoPages (s : State) (n : Nat) : Prop :=
  ∀ q ∈ (s.chan (s.stream n).home).pages, q.sharers.contains n = false ∧ q.handing ≠ some n

/-- CLOSE and CLOSE_DISCARD (R307, R308): an OPEN or LOST stream closes; while a command that names it is under way the
entry reads CLOSING, and with no command and no page it is FREE at once. CLOSE_DISCARD takes its SCAN engine commands out
of paddock and queues, and they complete STREAM_CLOSED. -/
def Rules.StreamClose : Prop :=
  ∀ (m : Master) (s : State) (n : Nat), WindowReady m .strm s → n = s.rd .strm Reg.strmWinIdx_IDX →
    (s.stream n).state = strmOpen ∨ (s.stream n).state = strmLost →
    (∃ t, Sys2Proof.Machine.exec (.close m) s = .next t ∧ WindowEnded .strm strmOk t ∧
      (NamedUnderWay s n → (t.stream n).state = strmClosing ∧ (t.stream n).discard = false) ∧
      (¬ NamedUnderWay s n → NoPages s n → (t.stream n).state = strmFree) ∧
      (∀ n', n' ≠ n → (s.stream n').state ≠ strmClosing → t.stream n' = s.stream n')) ∧
    (∃ t, Sys2Proof.Machine.exec (.closeDiscard m) s = .next t ∧ WindowEnded .strm strmOk t ∧
      (NamedUnderWay s n → (t.stream n).state = strmClosing ∧ (t.stream n).discard = true ∧
        (∀ e ∈ (t.chan (s.stream n).home).paddock, ¬ (e.2.cmd.op = opScan ∧ scanStream e.2.cmd = n)) ∧
        (∀ g ∈ (t.chan (s.stream n).home).engines, ∀ k ∈ g.2.queue, ¬ (k.op = opScan ∧ scanStream k = n)) ∧
        (∀ e ∈ (s.chan (s.stream n).home).paddocked, e.2.cmd.op = opScan → scanStream e.2.cmd = n →
          CompletedWith s t (s.stream n).home e.2.cmd stStreamClosed)) ∧
      (∀ n', n' ≠ n → (s.stream n').state ≠ strmClosing → t.stream n' = s.stream n'))

/-- REHOME (R307): of an OPEN stream that no command names and that shares no page, to a channel that is not retired:
BUSY stays 1 and the write-back is under way; each rejection has its status and leaves the table. When the write-back's
last dirty page is in backing, HOME takes its value. -/
def Rules.StreamRehome : Prop :=
  (∀ (m : Master) (s : State) (n home : Nat), WindowReady m .strm s → n = s.rd .strm Reg.strmWinIdx_IDX →
    home = bitsOf (s.rd .strm (Reg.strmWinData_DATA 0)) 3 2 →
    ((s.stream n).state = strmOpen → ¬ NamedUnderWay s n →
      (∀ q ∈ (s.chan (s.stream n).home).pages, q.sharers.contains n = true → q.sharers.length ≤ 1) →
      s.chState home ≠ chRetired →
      Sys2Proof.Machine.exec (.rehome m) s =
        .next { s.wr .strm Reg.strmWinCmd_BUSY 1 with rehoming := some (n, home) }) ∧
    ((s.stream n).state ≠ strmOpen →
      ∃ t, Sys2Proof.Machine.exec (.rehome m) s = .next t ∧ WindowEnded .strm strmNotOpen t ∧ s.sameTables t)) ∧
  (∀ (s : State) (n home : Nat) (w : State × Bool), s.dev.powered = true → s.rehoming = some (n, home) →
    s.arithOn (s.stream n).home = true →
    (∀ p ∈ (s.chan (s.stream n).home).pages, p.sharers = [n] → p.handing = none) →
    w = ((((s.chan (s.stream n).home).pages.filter fun p => p.sharers = [n]).filter fun p =>
      p.state ≠ .away && p.dirty).foldl (State.writeHome (s.stream n).home) (s, true)) → w.2 = true →
    ∃ t, Sys2Proof.Machine.exec .rehomeWritebackDone s = .next t ∧ WindowEnded .strm strmOk t ∧
      (t.stream n).home = home ∧ t.rehoming = none ∧ w.1.sameStores t)

/-- Nothing waits for a state page of the channel, and no stream is closing. -/
def MapQuiet (s : State) (c : Nat) : Prop :=
  s.wanting c = [] ∧ (s.chan c).copyFrames = [] ∧ ∀ n, (s.stream n).state ≠ strmClosing

/-- SWAP_IN_COMPLETE and SWAP_OUT_COMPLETE (R331, R332, R585): the page's bytes stand in its frame and it is RESIDENT and
CLEAN; poisoned data makes the stream LOST; a page swapped out is AWAY, or RESIDENT and CLEAN where it was recalled. -/
def Rules.StatePageTransfers : Prop :=
  ∀ (c : Ch) (n : StreamId) (page : Nat) (s : State) (p : StatePage), s.dev.powered = true →
    p = (s.chan c).page n page → s.mapRuns c = true →
    (∀ ext poisoned u o, p.state = .incoming → p.handing = none →
      s.readVa (s.backing c p.owner page) hbmState 4096 ext = (u, o) → o.done = true →
      ∃ t, Sys2Proof.Machine.exec (.swapInComplete c n page ext poisoned) s = .next t ∧
        (poisoned = true ∨ o.poisoned = true → (t.stream n).state = strmLost ∧ u.sameStores t ∧
          (t.rd .strm Reg.intRaw_RAW).testBit 1 = true) ∧
        (poisoned = false → o.poisoned = false →
          (t.chan c).ast = (u.chan c).ast.put (u.frameAddr c p.frame) o.bytes ∧
          t.rd (.grm c) Reg.grmStateCnt_SWAPIN = min (u.rd (.grm c) Reg.grmStateCnt_SWAPIN + 1) (2 ^ Reg.grmStateCnt_SWAPIN.w - 1) ∧
          (MapQuiet u c → { p with state := .resident, dirty := false, used := (u.chan c).pageUses + 1 } ∈
            (t.chan c).pages))) ∧
    (∀ u, p.state = .out ∨ p.state = .recalled → s.writeBacking c p = (u, true) →
      ∃ t, Sys2Proof.Machine.exec (.swapOutComplete c n page) s = .next t ∧ u.sameStores t ∧
        t.rd (.grm c) Reg.grmStateCnt_SWAPOUT = min (u.rd (.grm c) Reg.grmStateCnt_SWAPOUT + 1) (2 ^ Reg.grmStateCnt_SWAPOUT.w - 1) ∧
        (MapQuiet u c → p.state = .recalled → { p with state := .resident, dirty := false } ∈ (t.chan c).pages) ∧
        (MapQuiet u c → p.state = .out → p ∉ (t.chan c).pages))

/-- COW_COPY_COMPLETE and BACKING_COPY_COMPLETE (R327, R329): the writer has a private, DIRTY copy of the page's bytes in
its own frame; the last page of a closing stream that another owner's backing has taken makes the entry FREE. -/
def Rules.StatePageCopies : Prop :=
  ∀ (c : Ch) (n : StreamId) (page : Nat) (s : State), s.dev.powered = true → s.mapRuns c = true →
    (∀ p f, p = (s.chan c).page n page → p.copying = some n.val → f.stream = n.val → f.index = page →
      (s.chan c).copyFrames = [f] → s.wanting c = [] → (∀ n', (s.stream n').state ≠ strmClosing) →
      ∃ t, Sys2Proof.Machine.exec (.cowCopyComplete c n page) s = .next t ∧
        { StatePage.fresh n page with
          state := .resident, dirty := true, frame := f.frame, used := (s.chan c).pageUses + 1 } ∈ (t.chan c).pages ∧
        (t.chan c).ast = (s.chan c).ast.put (s.frameAddr c f.frame)
          ((s.chan c).ast.readBytes (s.frameAddr c p.frame) 4096) ∧
        t.rd (.grm c) Reg.grmStateCnt_COW = min (s.rd (.grm c) Reg.grmStateCnt_COW + 1) (2 ^ Reg.grmStateCnt_COW.w - 1)) ∧
    (∀ ext p u o v k, ((s.chan c).pages.find? fun p => p.index = page && p.handing = some n.val) = some p →
      s.readVa (s.backing c n page) hbmState 4096 ext = (u, o) → o.done = true →
      u.writeVa { u.backing c p.owner page with write := true } hbmState o.bytes = (v, k, true) →
      ∃ t, Sys2Proof.Machine.exec (.backingCopyComplete c n page ext) s = .next t ∧ v.sameStores t ∧
        ((v.stream n).state = strmClosing → (v.stream n).home = c → (∀ n', n' ≠ n.val → (v.stream n').state ≠ strmClosing) →
          (∀ q ∈ (v.chan c).pages, q.sharers.contains n.val = false ∧ (q.handing = some n.val → q = p)) →
          ((v.chan c).cmds.any fun h => h.names n && h.underWay) = false → p ∈ (v.chan c).pages →
          (t.stream n).state = strmFree))


/-! ## Contexts (chapter 14) -/

/-- READ, ADMIT and UPDATE of the context window (R452): READ copies the record into the data words, ADMIT makes a NONE
record AWAY with the fields given and IMAGE and GEN 0, UPDATE writes the fields and keeps the rest; a rejected operation
changes no record. -/
def Rules.ContextRecords : Prop :=
  ∀ (m : Master) (s : State) (n : Nat), WindowReady m .ctx s → n = s.rd .ctx Reg.ctxWinIdx_IDX →
    (∃ t, Sys2Proof.Machine.exec (.ctxRead m) s = .next t ∧ WindowEnded .ctx ctxOk t ∧
      t.windowData .ctx = (s.ctxRec n).encode % 2 ^ 256 ∧ s.sameWords t [.ctx] ∧ s.sameTables t) ∧
    (∃ t status, Sys2Proof.Machine.exec (.admitContext m) s = .next t ∧ WindowEnded .ctx status t ∧
      s.sameWords t [.ctx] ∧ (∀ n', n' ≠ n → t.ctxRec n' = s.ctxRec n') ∧
      (if (s.ctxRec n).state ≠ ctxNone then status = ctxEntryBusy ∧ t.ctxs = s.ctxs
       else if badCtxArg (s.windowData .ctx) then status = ctxBadArg ∧ t.ctxs = s.ctxs
       else status = ctxOk ∧ t.ctxRec n =
        { (s.ctxRec n).take (s.windowData .ctx) with state := ctxAway, image := false, gen := 0 })) ∧
    (∃ t status, Sys2Proof.Machine.exec (.update m) s = .next t ∧ WindowEnded .ctx status t ∧
      s.sameWords t [.ctx] ∧ (∀ n', n' ≠ n → t.ctxRec n' = s.ctxRec n') ∧
      (if (s.ctxRec n).state = ctxNone then status = ctxNotAdmitted ∧ t.ctxs = s.ctxs
       else if ((s.ctxRec n).saveVa ≠ bitsOf (s.windowData .ctx) 128 48 ∨
          (s.ctxRec n).saveMb ≠ bitsOf (s.windowData .ctx) 16 10) ∧ (s.ctxRec n).state ≠ ctxAway then
        status = ctxIsMoving ∧ t.ctxs = s.ctxs
       else if badCtxArg (s.windowData .ctx) then status = ctxBadArg ∧ t.ctxs = s.ctxs
       else status = ctxOk ∧ t.ctxRec n = (s.ctxRec n).take (s.windowData .ctx)))

/-- What a context shows while it is restored into a slot (R462): MOVING and LOADING, or RESIDENT at once where no image
waits. -/
def RestoreBegun (s t : State) (i n : Nat) : Prop :=
  t.slotCtx i = n ∧ (t.ctxRec n).slot = i ∧
    ((s.ctxRec n).image = true → t.slotState i = slotLoading ∧ (t.ctxRec n).state = ctxMoving) ∧
    ((s.ctxRec n).image = false → t.slotState i = slotResident ∧ (t.ctxRec n).state = ctxResident ∧
      (t.rd .ctx Reg.intRaw_RAW).testBit 0 = true)

/-- LOAD and EVICT (R452, R459, R462, R467): a LOAD of an AWAY context takes the lowest FREE slot but the relief slot, or
else starts the save of its victim and waits, or is rejected with NO_SLOT; EVICT starts the save of a RESIDENT one. -/
def Rules.ContextLoadAndEvict : Prop :=
  ∀ (m : Master) (s : State) (n : Nat), WindowReady m .ctx s → n = s.rd .ctx Reg.ctxWinIdx_IDX →
    ((s.ctxRec n).state = ctxAway →
      ∃ t status, Sys2Proof.Machine.exec (.load m) s = .next t ∧ WindowEnded .ctx status t ∧
        (∀ i, i < 8 → s.slotState i = slotFree → s.isRelief i = false →
          (∀ j, j < i → s.slotState j ≠ slotFree ∨ s.isRelief j = true) → status = ctxOk ∧ RestoreBegun s t i n) ∧
        (∀ j, (∀ i, i < 8 → s.slotState i ≠ slotFree ∨ s.isRelief i = true) → s.loadVictim n = some j →
          status = ctxOk ∧ t.loads = s.loads ++ [n] ∧ (t.ctxRec n).state = ctxMoving ∧ t.slotState j = slotSaving ∧
            (t.ctxRec (s.slotCtx j)).state = ctxMoving) ∧
        ((∀ i, i < 8 → s.slotState i ≠ slotFree ∨ s.isRelief i = true) → s.loadVictim n = none →
          status = ctxNoSlot ∧ t.ctxs = s.ctxs)) ∧
    ((s.ctxRec n).state = ctxResident → (s.ctxRec n).slot < 8 →
      ∃ t, Sys2Proof.Machine.exec (.evict m) s = .next t ∧ WindowEnded .ctx ctxOk t ∧
        t.slotState (s.ctxRec n).slot = slotSaving ∧ (t.ctxRec (s.slotCtx (s.ctxRec n).slot)).state = ctxMoving ∧
        (t.ctxSlotOf (s.ctxRec n).slot).reported = [])

/-- RESET and RELEASE (R452, R310): the record is AWAY without an image, or NONE; the context's streams and the
children of its FORKs under way are FREE, no share of it is kept and no LOAD of it waits; its slot is FREE. -/
def Obligations.ContextResetAndRelease : Prop :=
  ∀ (m : Master) (s u : State) (n : Nat), WindowReady m .ctx s → n = s.rd .ctx Reg.ctxWinIdx_IDX →
    (s.ctxRec n).state ≠ ctxNone → u = (s.wr .ctx Reg.strmWinCmd_BUSY 1).resetContext n →
    (∃ t, Sys2Proof.Machine.exec (.ctxReset m) s = .next t ∧ WindowEnded .ctx ctxOk t ∧
      (t.ctxRec n).state = ctxAway ∧ (t.ctxRec n).image = false ∧ n ∉ t.loads ∧ (∀ sh ∈ t.shares, sh.ctx ≠ n) ∧
      (∀ k, (s.stream k).ctx = n → (s.stream k).state ≠ strmForking → (t.stream k).state = strmFree) ∧
      (∀ k ∈ s.forkChildren n, (s.stream k).state = strmForking → (t.stream k).state = strmFree) ∧
      (∀ i, u.slotOfCtx n = some i → s.loads = [] → t.slotState i = slotFree)) ∧
    (∃ t, Sys2Proof.Machine.exec (.release m) s = .next t ∧ WindowEnded .ctx ctxOk t ∧
      (t.ctxRec n).state = ctxNone ∧ (t.ctxRec n).image = false ∧ n ∉ t.loads ∧ (∀ sh ∈ t.shares, sh.ctx ≠ n) ∧
      (∀ k, (s.stream k).ctx = n → (s.stream k).state ≠ strmForking → (t.stream k).state = strmFree) ∧
      (∀ k ∈ s.forkChildren n, (s.stream k).state = strmForking → (t.stream k).state = strmFree) ∧
      (∀ i, u.slotOfCtx n = some i → s.loads = [] → t.slotState i = slotFree))

/-- CHANNEL_SAVE_DONE (R459): a channel whose share is written has reported; with the fourth report GEN goes up by 1,
the record is AWAY with an image, the slot is FREE, the save counts, and MOVED sets. -/
def Rules.ContextSave : Prop :=
  ∀ (slot : CtxSlotId) (c : Ch) (s u : State) (ctx : Nat), s.dev.powered = true → s.slotState slot = slotSaving →
    (s.ctxSlotOf slot).reported.contains c.val = false → s.changing c = false → s.early c 0x08 (s.slotCtx slot) = false →
    s.isReady c = true → s.arithOn c = true → s.mayRecord c = true → ctx = s.slotCtx slot →
    s.sealVa { req := .save c slot, ctx := ctx, va := s.saveRegion c ctx, write := true } ((s.chan c).saveBytes ctx) =
      (u, true) →
    ∃ t, Sys2Proof.Machine.exec (.channelSaveDone slot c) s = .next t ∧
      ((u.ctxSlotOf slot).reported.length ≠ 3 →
        (t.ctxSlotOf slot).reported = (u.ctxSlotOf slot).reported ++ [c.val] ∧ t.ctxs = u.ctxs) ∧
      ((u.ctxSlotOf slot).reported.length = 3 → u.loads = [] → u.reliefInto = none → u.slotCtx slot = ctx →
        (t.ctxRec ctx).state = ctxAway ∧ (t.ctxRec ctx).image = true ∧
          (t.ctxRec ctx).gen = ((u.ctxRec ctx).gen + 1) % 2 ^ 32 ∧ t.slotState slot = slotFree ∧
          (t.rd .ctx Reg.intRaw_RAW).testBit 0 = true)

/-- CONTEXT_RESTORE_DONE (R462, R463): an image that fails its check leaves the context AWAY without an image, counted
and signalled; a restore whose shares are all back makes the slot and the record RESIDENT. -/
def Rules.ContextRestore : Prop :=
  ∀ (slot : CtxSlotId) (s : State) (ctx : Nat), s.dev.powered = true → s.slotState slot = slotLoading →
    ctx = s.slotCtx slot →
    (∃ t, Sys2Proof.Machine.exec (.contextRestoreDone slot false) s = .next t ∧ (t.ctxRec ctx).state = ctxAway ∧
      (t.ctxRec ctx).image = false ∧ (t.rd .ctx Reg.intRaw_RAW).testBit 1 = true) ∧
    (∀ u, (∀ sh ∈ s.shares, sh.ctx = ctx → sh.key = s.dev.sealKey ∧ s.imagePoisoned slot sh = false ∧
        s.arithOn sh.chan = true ∧ s.changing sh.chan = false ∧ s.early sh.chan 0x08 (ctx + 2 ^ 8) = false) →
      (s.shares.filter fun sh => sh.ctx = ctx).foldl
        (fun (acc : State × Bool) sh => if acc.2 then acc.1.restoreShare slot sh else acc) (s, true) = (u, true) →
      ∃ t, Sys2Proof.Machine.exec (.contextRestoreDone slot true) s = .next t ∧ t.slotState slot = slotResident ∧
        (t.ctxRec ctx).state = ctxResident ∧ (t.ctxRec ctx).image = false ∧
        t.rd .ctx Reg.ctxCnt_RESTORES = min (u.rd .ctx Reg.ctxCnt_RESTORES + 1) (2 ^ Reg.ctxCnt_RESTORES.w - 1) ∧
        (t.rd .ctx Reg.intRaw_RAW).testBit 0 = true)

/-- CONTEXT_BLOCKED and RELIEF (R465, R466, R469): a RESIDENT slot becomes BLOCKED at the hub cycle of the event; the rule
starts the restore into the relief slot and the save of the victim in one step, or counts NOVICTIM. -/
def Obligations.BlockedContextsAndRelief : Prop :=
  ∀ s : State, s.dev.powered = true →
    (∀ slot : CtxSlotId, s.slotState slot = slotResident → s.blocked slot = false →
      s.inReplay (s.slotCtx slot) = false →
      ∃ t, Sys2Proof.Machine.exec (.contextBlocked slot) s = .next t ∧ t.blocked slot = true ∧
        (t.ctxSlotOf slot).blockedAt = s.cyc domHub ∧ t.slotState slot = slotResident ∧
        t.slotCtx slot = s.slotCtx slot ∧ s.sameWords t [.ctx] ∧ t = { s with regs := t.regs, ctxSlots := t.ctxSlots }) ∧
    (∀ n, s.reliefDue = true → s.dev.farrierUp = true → s.reliefChoice = some n →
      ∃ t, Sys2Proof.Machine.exec .relief s = .next t ∧
        (∀ j, s.reliefVictim = some j → RestoreBegun s t (s.rd .ctx Reg.ctxCfg_RELIEF_SLOT) n ∧
          t.slotState j = slotSaving ∧ t.lastRelief = n ∧
          t.reliefInto = some (s.rd .ctx Reg.ctxCfg_RELIEF_SLOT) ∧
          t.rd .ctx Reg.ctxCnt_RELIEFS = min (s.rd .ctx Reg.ctxCnt_RELIEFS + 1) (2 ^ Reg.ctxCnt_RELIEFS.w - 1)) ∧
        (s.reliefVictim = none →
          t.rd .ctx Reg.ctxCnt_NOVICTIM = min (s.rd .ctx Reg.ctxCnt_NOVICTIM + 1) (2 ^ Reg.ctxCnt_NOVICTIM.w - 1) ∧
          (t.rd .ctx Reg.intRaw_RAW).testBit 2 = true ∧ s.sameTables t))


/-! ## The deadline monitor (chapter 14) -/

/-- READ, ARM, DISARM and CLEAR of the monitor's window (R478, R479): READ copies the entry into the data words; ARM of
an OPEN stream outside a step, with a budget and a fallback ring of its context, arms the entry with the fields given,
and is rejected otherwise; DISARM ends arming; CLEAR zeroes LAST and the counts. -/
def Rules.DeadlineWindow : Prop :=
  ∀ (m : Master) (s : State) (n : Nat), WindowReady m .dlm s → n = s.rd .dlm Reg.dlmWinIdx_IDX →
    (∃ t, Sys2Proof.Machine.exec (.dlmRead m) s = .next t ∧ WindowEnded .dlm strmOk t ∧
      t.windowData .dlm = (s.dlmRec n).encode % 2 ^ 256 ∧ s.sameWords t [.dlm] ∧ s.sameTables t) ∧
    (∃ t status, Sys2Proof.Machine.exec (.arm m) s = .next t ∧ WindowEnded .dlm status t ∧ s.sameWords t [.dlm] ∧
      (∀ k, k ≠ n → t.dlmRec k = s.dlmRec k) ∧
      (if (s.stream n).state ≠ strmOpen then status = strmNotOpen ∧ t.dlm = s.dlm
       else if (s.dlmRec n).instep = true then status = strmBusyStatus ∧ t.dlm = s.dlm
       else if s.rd .dlm (Reg.dlmWinData_DATA 1) = 0 ∨
          s.ringCtx (s.stream n).home (bitsOf (s.rd .dlm (Reg.dlmWinData_DATA 0)) 4 4) ≠ (s.stream n).ctx then
        status = strmBadArg ∧ t.dlm = s.dlm
       else status = strmOk ∧ t.dlmRec n = { s.dlmRec n with
        armed := true, fbring := bitsOf (s.rd .dlm (Reg.dlmWinData_DATA 0)) 4 4
        fben := bitsOf (s.rd .dlm (Reg.dlmWinData_DATA 0)) 8 1 = 1
        budget := s.rd .dlm (Reg.dlmWinData_DATA 1), stepcost := s.rd .dlm (Reg.dlmWinData_DATA 2) })) ∧
    (∃ t, Sys2Proof.Machine.exec (.disarm m) s = .next t ∧ WindowEnded .dlm strmOk t ∧
      t.dlmRec n = { s.dlmRec n with armed := false } ∧ ∀ k, k ≠ n → t.dlmRec k = s.dlmRec k) ∧
    (∃ t, Sys2Proof.Machine.exec (.dlmClear m) s = .next t ∧ WindowEnded .dlm strmOk t ∧
      t.dlmRec n = { s.dlmRec n with last := 0, misses := 0, diverts := 0, nofallback := 0 } ∧
      ∀ k, k ≠ n → t.dlmRec k = s.dlmRec k)

/-- DLM_CHECK (R483, R484): a step within its budget is left alone; one that is predicted to be late is diverted where
its fallback may act, and PENDING while its context is away; otherwise NOFALLBACK counts. Whether the fallback ring holds
a whole command is a free value of the model. -/
def Rules.DeadlineCheck : Prop :=
  ∀ (n : StreamId) (s : State) (c : Nat) (d : DlmRec), s.dev.powered = true → c = (s.stream n).home → d = s.dlmRec n →
    s.flag .dlm Reg.dlmCfg_EN = true → s.arithOn c = true → s.mayRecord c = true → s.replayOn c = false →
    ∃ t, Sys2Proof.Machine.exec (.dlmCheck n) s = .next t ∧
      (d.armed = false ∨ d.instep = false ∨ s.predict c n ≤ d.budget → t = s) ∧
      (d.armed = true → d.instep = true → d.budget < s.predict c n →
        if d.fben = true ∧ d.diverted = false ∧ d.links = false ∧ s.fallbackWhole c d.fbring = true then
          (t.dlmRec n).diverted = true ∧
          (s.ctxRuns (s.stream n).ctx = true → (t.dlmRec n).pending = false ∧
            (t.dlmRec n).diverts = min (d.diverts + 1) 0xffff ∧ (t.rd .dlm Reg.intRaw_RAW).testBit 2 = true) ∧
          (s.ctxRuns (s.stream n).ctx = false → (t.dlmRec n).pending = true ∧ t.regs = s.regs)
        else t.dlmRec n = { d with nofallback := min (d.nofallback + 1) 0xffff } ∧ t.regs = s.regs)

/-! ## Translation (chapter 13) -/

/-- An invalidation is under way: BUSY is 1, and nothing else has changed (R430, R431). -/
def Invalidating (s : State) (v : Inval) : State :=
  { s.wr .hmmu Reg.hmmuInvStat_BUSY 1 with xlat := { s.xlat with inval := some v } }

/-- INV_ALL, INV_CONTEXT, INV_RANGE and INV_CTT (R428, R430, R431): a master that holds HMMU_LOCK0 starts the
invalidation of its scope; COUNT 0 acts as 1; without the lock, or while one is under way, nothing happens. -/
def Rules.InvalidationsStart : Prop :=
  ∀ (m : Master) (ctx : CtxId) (count : BitVec 20) (s : State) (va : Nat), s.dev.powered = true →
    va = s.rd .hmmu Reg.hmmuInvVa_VA * 4096 →
    (s.writable m .hmmu 0x128 = true → s.holdsLock m .hmmu 0 = true → s.flag .hmmu Reg.hmmuInvStat_BUSY = false →
      Sys2Proof.Machine.exec (.invAll m) s = .next (Invalidating s ⟨0, 0, va, 1⟩) ∧
      Sys2Proof.Machine.exec (.invContext m ctx) s = .next (Invalidating s ⟨1, ctx.toNat, va, 1⟩) ∧
      Sys2Proof.Machine.exec (.invRange m ctx count) s =
        .next (Invalidating s ⟨2, ctx.toNat, va, max 1 count.toNat⟩) ∧
      Sys2Proof.Machine.exec (.invCtt m ctx) s = .next (Invalidating s ⟨3, ctx.toNat, va, 1⟩)) ∧
    (s.holdsLock m .hmmu 0 = false ∨ s.flag .hmmu Reg.hmmuInvStat_BUSY = true →
      Sys2Proof.Machine.exec (.invAll m) s = .next s ∧ Sys2Proof.Machine.exec (.invContext m ctx) s = .next s ∧
      Sys2Proof.Machine.exec (.invRange m ctx count) s = .next s ∧ Sys2Proof.Machine.exec (.invCtt m ctx) s = .next s)

/-- INVALIDATION_COMPLETE (R431, R432): no cache holds a translation in scope, no table entry in scope is cached, DONE
advances and wraps, BUSY is 0 and INV_DONE sets. -/
def Rules.InvalidationRemoves : Prop :=
  ∀ (s : State) (v : Inval), s.dev.powered = true → s.xlat.inval = some v →
    ∃ t, Sys2Proof.Machine.exec .invalidationComplete s = .next t ∧ t.xlat.inval = none ∧
      (∀ k, ∀ e ∈ (t.cache k).sets, ∀ x ∈ e.2, v.removes x = false) ∧ (∀ e ∈ t.xlat.ctt, v.namesEntry e.1 = false) ∧
      t.rd .hmmu Reg.hmmuInvStat_DONE = (s.rd .hmmu Reg.hmmuInvStat_DONE + 1) % 2 ^ 16 ∧
      t.rd .hmmu Reg.hmmuInvStat_BUSY = 0 ∧ (t.rd .hmmu Reg.intRaw_RAW).testBit 0 = true

/-- An access has failed with a cause at a level (R433, R435): it stands in the fault table, or waits for an entry. -/
def Faulted (t : State) (a : MemAccess) (cause level : Nat) : Prop :=
  ∃ f ∈ t.xlat.faults ++ t.xlat.overflow, f.access = a ∧ f.cause = cause ∧ f.level = level

/-- WALK_READ_RETURN (R416, R417, R422, R424, R426, R433): a table entry starts the walk at level 0, a pointer takes it
one level further, a leaf serves every access that joined but a write that it does not permit, and a bad entry makes
every access that joined fault at its level. -/
def Rules.WalkSteps : Prop :=
  ∀ (k : CacheId) (i : Nat) (data : BitVec 256) (s : State) (w : Walk) (a : MemAccess) (rest : List MemAccess),
    s.dev.powered = true → ((s.cache k).walks.find? fun e => e.1 = i) = some (i, w) → w.joined = a :: rest →
    s.replayState ≠ rplReplaying →
    (∀ e, w.stage = .table → parseCtt data.toNat = some e →
      ∃ t, Sys2Proof.Machine.exec (.walkReadReturn k i data false) s = .next t ∧
        (∀ d, Tab.get d t.xlat.ctt a.ctx = e) ∧
        (∀ d, Tab.get d (t.cache k).walks i = { w with stage := .level 0 e.target e.root })) ∧
    (w.stage = .table → parseCtt data.toNat = none →
      ∃ t, Sys2Proof.Machine.exec (.walkReadReturn k i data false) s = .next t ∧
        ∀ b ∈ w.joined, Faulted t b causeNoContext 0) ∧
    (∀ n tg addr, w.stage = .level n tg addr → s.targetDown tg = false →
      (tg ≠ .host → (s.mem tg).poisonedAt (addr + 8 * levelIndex a.va n) 8 = false) →
      ∃ t, Sys2Proof.Machine.exec (.walkReadReturn k i data false) s = .next t ∧
        match entryStep n (s.entryAt tg (addr + 8 * levelIndex a.va n) data.toNat) with
        | .bad cause => ∀ b ∈ w.joined, Faulted t b cause n
        | .next tg' addr' => ∀ d, Tab.get d (t.cache k).walks i = { w with stage := .level (n + 1) tg' addr' }
        | .leaf size tg' base wr pin _ =>
          (∀ b ∈ w.joined, wr = true ∨ b.write = false →
            (b, ⟨a.ctx, a.va / 2 ^ size * 2 ^ size, size, tg', base, wr, pin⟩) ∈ (t.cache k).ready) ∧
          ∀ b ∈ w.joined, wr = false → b.write = true → Faulted t b causeWriteProt 3)

/-- PCIE_REQUEST_FAILURE (R433, R542): an access that PCIe fails is reported to AER and stalls its requester with
BUS_ERROR; a table read in host memory makes its walk fault with WALK_ERROR. -/
def Rules.PcieFailures : Prop :=
  ∀ (ctx : CtxId) (va : BitVec 48) (write : Bool) (kind : PcieFailure) (s : State), s.dev.powered = true →
    s.replayState ≠ rplReplaying →
    (∀ req info, (∀ k i, req ≠ .walk k i) → s.serving req ctx.toNat = some info → s.mainUp = true →
      s.stalled req = false →
      ∃ t, Sys2Proof.Machine.exec (.pcieRequestFailure req ctx va write kind) s = .next t ∧
        .aer (failureAer kind) ∈ t.out ∧ Faulted t ⟨req, ctx.toNat, va.toNat, write, info⟩ causeBusError 3) ∧
    (∀ k i w n addr, ((s.cache k).walks.find? fun e => e.1 = i) = some (i, w) → w.stage = .level n .host addr →
      ∃ t, Sys2Proof.Machine.exec (.pcieRequestFailure (.walk k i) ctx va write kind) s = .next t ∧
        .aer (failureAer kind) ∈ t.out ∧ ∀ b ∈ w.joined, Faulted t b causeWalkError n)

/-- FAULT_RECORD_WRITE (R436, R438): the oldest fault of the context without a record gets the next slot of the fault
ring, which wraps with PHASE inverted; then FRVEC is sent where FRIRQ asks for it. -/
def Rules.FaultRecords : Prop :=
  ∀ (ctx : CtxId) (s : State) (f : FaultEntry) (e : CttEntry) (fr : FaultRing), s.dev.powered = true →
    (s.xlat.faults.find? fun f => f.access.ctx = ctx.toNat && f.cause ≠ causeNoContext && f.recorded = none) = some f →
    f.entry = some e → fr = Tab.get {} s.xlat.rings ctx.toNat → s.ringBusy ctx.toNat fr.next = false →
    ∃ t l, Sys2Proof.Machine.exec (.faultRecordWrite ctx) s = .next t ∧
      t.out = s.out ++ .hostWrite (e.frBase + 32 * fr.next) (faultRecord f fr.phase) :: l ∧
      (e.frIrq = true → (Tab.get {} s.msix e.frVec).masked = false → s.dev.functionMask = false →
        .msix e.frVec ∈ l) ∧
      (∀ g ∈ t.xlat.faults, g.id = f.id → g.recorded = some fr.next) ∧
      Tab.get {} t.xlat.rings ctx.toNat =
        (if fr.next + 1 < 2 ^ (e.frLog2 + 4) then ⟨fr.next + 1, fr.phase⟩ else ⟨0, !fr.phase⟩)

/-- RETRY and dispositions of no fault (R440, R441): a retried fault is resolved, and its access walks again where no
cached translation serves it; a disposition of no unresolved fault is counted, whatever its action. -/
def Rules.RetryAndUnknownFaults : Prop :=
  ∀ (m : Master) (id : BitVec 24) (s : State), s.dev.powered = true → s.reaches m .hmmu = true →
    mayDispose m = true →
    (∀ f, s.faultOf id = some f → s.xlat.overflow = [] → s.xlat.nextId ≠ id.toNat →
      ∃ t, Sys2Proof.Machine.exec (.retry m id) s = .next t ∧ (∀ g ∈ t.xlat.faults, g.id ≠ id.toNat) ∧
        f.access ∈ t.xlat.retried ∧
        (s.lookup (reqCache f.access.req) f.access = none → s.flag .hmmu Reg.hmmuCtt_EN = true →
          (∃ w ∈ (t.cache (reqCache f.access.req)).walks, f.access ∈ w.2.joined) ∨
            f.access ∈ (t.cache (reqCache f.access.req)).waiting)) ∧
    (s.faultOf id = none → ∀ i, i = .retry m id ∨ i = .abortCommand m id ∨ i = .abortContext m id →
      ∃ t, Sys2Proof.Machine.exec i s = .next t ∧
        t.rd .hmmu Reg.hmmuFstat_BADDISP =
          min (s.rd .hmmu Reg.hmmuFstat_BADDISP + 1) (2 ^ Reg.hmmuFstat_BADDISP.w - 1) ∧
        (t.rd .hmmu Reg.intRaw_RAW).testBit 2 = true ∧ s.sameWords t [.hmmu] ∧ s.sameTables t)

/-- Requesters whose command ABORT_COMMAND ends (R437). -/
def EndsCommand (c : Ch) : RequesterId → Prop
  | .splitRead d _ | .addrGen d _ _ | .drain d _ | .scan d _ | .initRead d _ | .cvu d | .copy d => d = c
  | _ => False

/-- A command has completed with a status that a record shows (R402). -/
def RecordHeld (t : State) (c : Nat) (h : HostCmd) (status : Nat) : Prop :=
  (t.chan c).cmd? h.num = none ∧ ∃ q ∈ (t.ringOf c h.ring).held, q.num = h.num ∧ bitsOf q.word 32 8 = status % 2 ^ 8

/-- ABORT_COMMAND and ABORT_CONTEXT (R368, R437, R440, R442): by requester, the command completes ABORTED, the ring stops,
a seal or a save is given up, a lodger command places no further tile; ABORT_CONTEXT resets the faulting context and resolves its faults. -/
def Obligations.Aborts : Prop :=
  ∀ (m : Master) (id : BitVec 24) (s : State) (f : FaultEntry), s.dev.powered = true → s.reaches m .hmmu = true →
    mayDispose m = true → s.faultOf id = some f →
    (∃ t, Sys2Proof.Machine.exec (.abortCommand m id) s = .next t ∧
      (∀ c h num, EndsCommand c f.access.req → f.access.info.num = some num → (s.chan c).cmd? num = some h →
        RecordHeld t c h stAborted) ∧
      (∀ c r, f.access.req = .ringFetch c r → (t.ringOf c r).fetching = false ∧
        t.flag (.door c r) Reg.ringHead_STOPPED = true) ∧
      (∀ c r h num, f.access.req = .sync c r → f.access.info.num = some num → (s.chan c).cmd? num = some h →
        RecordHeld t c h stAborted ∧ (t.ringOf c r).sync = .idle ∧ t.flag (.door c r) Reg.ringHead_STOPPED = true) ∧
      (∀ c r, f.access.req = .completion c r → (t.ringOf c r).parked = true ∧
        (t.ringOf c r).held = (s.ringOf c r).held ∧ t.flag (.door c r) Reg.ringHead_STOPPED = true) ∧
      (∀ c e k, f.access.req = .seal c e k → (s.slotOfCtx f.access.ctx).isSome = true →
        (s.tile c e k).state = .sealing → (t.tile c e k).state = .parked) ∧
      (∀ c b num h, f.access.req = .lodger c b → f.access.info.num = some num → (s.chan c).cmd? num = some h →
        ((s.chan c).anyCmd fun _ k => k.num = num && k.refetch) = false →
        num ∉ (t.chan c).lodgers ∧ t.rd (.wst c) (bufFld b) = 0 ∧
          ∃ h', (t.chan c).cmd? num = some h' ∧ h'.next = h'.total) ∧
      (∀ c i, f.access.req = .save c i → s.slotState i = slotSaving ∨ s.slotState i = slotPaused →
        t.slotState i = slotResident ∧ (t.ctxRec f.access.ctx).state = ctxResident)) ∧
    ((s.ctxRec f.access.ctx).state ≠ ctxNone →
      ∃ t, Sys2Proof.Machine.exec (.abortContext m id) s = .next t ∧ (t.ctxRec f.access.ctx).state = ctxAway ∧
        (t.ctxRec f.access.ctx).image = false ∧
        (∀ k, (s.stream k).ctx = f.access.ctx → (s.stream k).state ≠ strmForking →
          (t.stream k).state = strmFree) ∧
        ∀ g ∈ t.xlat.faults, g.access.ctx ≠ f.access.ctx)


/-! ## Rings, the split and completion (chapter 12) -/

/-- TAIL_WRITE, RESUME and CPL_HEAD_WRITE (R379 to R383, R403): a TAIL that advances by 1 to the free entries is taken and
crosses into the channel; any other is ignored and counted; RESUME clears STOPPED, and makes an aborted record write due
again; CPL_HEAD takes its value, and CPL_FULL follows it. -/
def Rules.Doorbells : Prop :=
  ∀ (m : Master) (c : Ch) (r : RingId) (v : Word) (s : State), s.dev.powered = true →
    (∀ size tail new, s.writable m (.door c r) 0x100 = true → size = s.ringSize c r →
      tail = s.rd (.door c r) Reg.ringTail_TAIL → new = v.toNat % 2 ^ 16 →
      ∃ t, Sys2Proof.Machine.exec (.tailWrite m c r v) s = .next t ∧
        (if s.flag (.ring c r) Reg.ringCtl_EN = true ∧ new < size ∧ 1 ≤ ringSpan size tail new ∧
            ringSpan size tail new + ringSpan size (s.rd (.door c r) Reg.ringHead_HEAD) tail + 1 ≤ size then
          t.rd (.door c r) Reg.ringTail_TAIL = new ∧
          ∃ d, (t.chan c).toCh.entries = (s.chan c).toCh.entries ++ [(.tail r new, d)]
        else t.rd (.door c r) Reg.ringTail_TAIL = tail ∧ t.chans = s.chans ∧
          t.rd (.door c r) Reg.ringHead_BADTAIL =
            min (s.rd (.door c r) Reg.ringHead_BADTAIL + 1) (2 ^ Reg.ringHead_BADTAIL.w - 1) ∧
          (t.rd (.ring c r) Reg.intRaw_RAW).testBit 2 = true)) ∧
    (s.writable m (.door c r) 0x10c = true → v.toNat % 2 = 1 → s.flag (.door c r) Reg.ringHead_STOPPED = true →
      ∃ t, Sys2Proof.Machine.exec (.resume m c r v) s = .next t ∧ t.flag (.door c r) Reg.ringHead_STOPPED = false ∧
        (t.ringOf c r).parked = false ∧ t.rd (.door c r) Reg.ringHead_HEAD = s.rd (.door c r) Reg.ringHead_HEAD) ∧
    (s.writable m (.door c r) 0x108 = true →
      ∃ t, Sys2Proof.Machine.exec (.cplHeadWrite m c r v) s = .next t ∧
        t.rd (.door c r) Reg.ringCplptr_CPL_HEAD = v.toNat % 2 ^ 16 ∧
        t.rd (.door c r) Reg.ringCplptr_CPL_TAIL = s.rd (.door c r) Reg.ringCplptr_CPL_TAIL ∧
        t.flag (.door c r) Reg.ringHead_CPL_FULL = (!(s.ringOf c r).held.isEmpty && t.cplFull c r) ∧
        t.chans = s.chans)

/-- FETCH_COMMAND and DESCRIPTOR_READ_RETURN (R384, R385): the fetcher takes the first ring from its turn on that may be
fetched; a whole command enters the descriptor queue, HEAD passes its entries modulo the entry count, and its credits are
taken; a ring that holds less than a whole command is skipped. -/
def Rules.FetcherTakesWholeCommands : Prop :=
  ∀ (c : Ch) (s : State), s.dev.powered = true → s.mapRuns c = true → s.replayOn c = false →
    (∀ k r : Nat, k < 16 → r = ((s.chan c).fetchTurn + k) % 16 → s.mayRecord c = true → s.mayFetch c r = true →
      (s.ringOf c r).fetching = false →
      (∀ j, j < k → s.mayFetch c (((s.chan c).fetchTurn + j) % 16) = false ∨
        (s.ringOf c (((s.chan c).fetchTurn + j) % 16)).fetching = true) →
      ∃ t, Sys2Proof.Machine.exec (.fetchCommand c) s = .next t ∧ (t.ringOf c r).fetching = true ∧
        (t.chan c).fetchTurn = (r + 1) % 16 ∧ (∀ r', r' ≠ r → t.ringOf c r' = s.ringOf c r')) ∧
    (∀ (r : RingId) ext u o d, (s.ringOf c r).fetching = true → s.stalled (.ringFetch c r) = false → s.mayFetch c r = true →
      readEntries (s.fetchAccess c r) [s.entryVa c r (s.rd (.door c r) Reg.ringHead_HEAD)] s ext = (u, o, [d]) →
      o.done = true →
      ∃ t, Sys2Proof.Machine.exec (.descriptorReadReturn c r ext) s = .next t ∧
        (ringSpan (s.ringSize c r) (s.rd (.door c r) Reg.ringHead_HEAD) (s.ringOf c r).tailSeen < 1 + bitsOf d 8 2 ∨
            (s.ringOf c r).credits < 1 + bitsOf d 8 2 →
          (t.ringOf c r).fetching = false ∧ (t.chan c).cmds = (u.chan c).cmds ∧ t.regs = u.regs) ∧
        (∀ w o2 ds, 1 + bitsOf d 8 2 ≤
            ringSpan (s.ringSize c r) (s.rd (.door c r) Reg.ringHead_HEAD) (s.ringOf c r).tailSeen →
          1 + bitsOf d 8 2 ≤ (s.ringOf c r).credits →
          readEntries (s.fetchAccess c r) ((List.range (bitsOf d 8 2)).map fun i =>
            s.entryVa c r (s.rd (.door c r) Reg.ringHead_HEAD + 1 + i)) u o.ext = (w, o2, ds) → o2.done = true →
          (∃ h : HostCmd, (t.chan c).cmds = (w.chan c).cmds ++ [h] ∧ h.descs = d :: ds ∧ h.ring = r ∧
            h.stage = .queued) ∧
          t.rd (.door c r) Reg.ringHead_HEAD =
            (w.rd (.door c r) Reg.ringHead_HEAD + (ds.length + 1)) % w.ringSize c r ∧
          (t.ringOf c r).credits = (w.ringOf c r).credits - (ds.length + 1) ∧ (t.ringOf c r).fetching = false))

/-- A command has been accepted for its unit: a LOAD_W or COPY by the copy unit, a FORK by the state map unit with its
children FORKING, any other by the split, with the count of its engine commands (R323, R398, R400). -/
def Taken (t : State) (c : Nat) (h : HostCmd) : Prop :=
  if hdOp h.descs = opLoadW ∨ hdOp h.descs = opCopy then
    ∃ x ∈ (t.chan c).copies, x.cmd.num = h.num ∧ x.moved = 0
  else if hdOp h.descs = opFork then
    (∃ f ∈ (t.chan c).forks, f.num = h.num ∧ f.parent = hdStream h.descs) ∧
      ∀ v ∈ h.children, (t.stream (childStream v)).state = strmForking
  else ∃ g ∈ (t.chan c).cmds, g.num = h.num ∧ g.total = splitCount h.descs ∧
    g.stage = if splitCount h.descs = 0 then .running else .splitting

/-- The thirteen opcode commands of engines, CVU, copy unit and state map unit (R386, R387, R389, R405): the command at
the head of a ring that is split is checked in the order of the checks; it is rejected with the status of the first that
it fails, or its translated reads begin, or it is taken. -/
def Rules.CommandsAtTheSplit : Prop :=
  ∀ (c : Ch) (r : RingId) (i : Instr) (op : Nat) (s : State) (h : HostCmd),
    (i, op) ∈ [(.matmul c r, opMatmul), (.conv c r, opConv), (.dwconv c r, opDwconv), (.pool c r, opPool),
      (.scan c r, opScan), (.stats c r, opStats), (.argmax c r, opArgmax), (.regroup c r, opRegroup),
      (.fork c r, opFork), (.loadW c r, opLoadW), (.drain c r, opDrain), (.copy c r, opCopy), (Instr.cvu c r, opCvu)] →
    s.dev.powered = true → (s.chan c).head? r = some h → hdOp h.descs = op → h.stage = .queued →
    s.splits c r = true → s.mayRecord c = true →
    ∃ t, Sys2Proof.Machine.exec i s = .next t ∧
      (s.divertedAway c h = true → (t.chan c).cmd? h.num = none) ∧
      (s.divertedAway c h = false → s.splitChecks c h = .wait → t = s) ∧
      (∀ st, s.divertedAway c h = false → s.splitChecks c h = .reject st → st ≠ stOk → RecordHeld t c h st) ∧
      (s.divertedAway c h = false → s.splitChecks c h = .accept →
        if readCount h.descs = 0 then Taken t c h
        else ∃ g ∈ (t.chan c).cmds, g = { h with stage := .reading 0 })

/-- SPLIT_READ_RETURN (R54, R323, R666): a group entry that is read is kept, and the last read lets the command be taken;
a malformed entry is rejected with BAD_GROUP, and child records with the status of the first that they fail. -/
def Rules.SplitReads : Prop :=
  ∀ (c : Ch) (r : RingId) (ext : List Byte) (s : State) (h : HostCmd) (n : Nat), s.dev.powered = true →
    (s.chan c).head? r = some h → h.stage = .reading n → s.splits c r = true →
    s.stalled (.splitRead c r) = false → s.mayRecord c = true →
    (∀ idx u o, (namedGroups h.descs)[n]? = some idx →
      s.readVa (splitAccess c r h ((s.ctxRec (hdCtx h.descs)).gdtVa + 8 * idx)) hbmData 8 ext = (u, o) →
      o.done = true →
      ∃ t, Sys2Proof.Machine.exec (.splitReadReturn c r ext) s = .next t ∧
        (parseGroup (leNat o.bytes) = none → RecordHeld t c h stBadGroup) ∧
        (∀ g, parseGroup (leNat o.bytes) = some g →
          if n + 1 = readCount h.descs then Taken t c h
          else ∃ k ∈ (t.chan c).cmds, k = { h with groups := Tab.set h.groups idx g, stage := .reading (n + 1) })) ∧
    (∀ u o, (namedGroups h.descs)[n]? = none → s.replayOn c = false →
      s.readVa (splitAccess c r h (hd h.descs 176 48)) hbmData (8 * hd h.descs 128 6) ext = (u, o) → o.done = true →
      ∃ t, Sys2Proof.Machine.exec (.splitReadReturn c r ext) s = .next t ∧
        match u.childChecks (hdStream h.descs) (childRecords o.bytes (hd h.descs 128 6)) with
        | some st => st ≠ stOk → RecordHeld t c h st
        | none => Taken t c { h with children := childRecords o.bytes (hd h.descs 128 6) })

/-- SPLIT_TURN (R386, R405 to R408): the first ring from the turn on with something to split has it; an unknown opcode
completes BAD_OPCODE; with QUANTUM 1, one engine command is placed on the engine chosen, which takes a credit of its
queue; without a credit it is held. -/
def Rules.SplitTurns : Prop :=
  ∀ (c : Ch) (s : State) (k r : Nat) (h : HostCmd) (due : HostCmd → Bool), s.dev.powered = true → s.mayRecord c = true →
    s.replayOn c = false → k < 16 → r = ((s.chan c).splitTurn + k) % 16 →
    due = (fun h => h.placing || (h.stage = .queued && !knownOps.contains (hdOp h.descs))) →
    s.splits c r = true → (s.chan c).head? r = some h → due h = true →
    (∀ j, j < k → (s.splits c (((s.chan c).splitTurn + j) % 16) &&
      ((s.chan c).head? (((s.chan c).splitTurn + j) % 16)).any due) = false) →
    ∃ t, Sys2Proof.Machine.exec (.splitTurn c) s = .next t ∧ (t.chan c).splitTurn = (r + 1) % 16 ∧
      (h.placing = false → RecordHeld t c h stBadOpcode) ∧
      (∀ u x e, h.placing = true → s.rd (.grm c) Reg.grmSplitCfg_QUANTUM ≤ 1 →
        u = s.modChan c (fun y => { y with splitTurn := (r + 1) % 16 }) → x = u.engCmd c h h.next → x.op ≠ opCvu →
        (isLodger h.descs = true → x.buffer ≠ none) → u.chooseSlot c x = some e →
        ((s.engine c e).credit.held = 0 → (t.ringOf c h.ring).creditHeld = true ∧ (t.chan c).cmds = (s.chan c).cmds) ∧
        ((s.engine c e).credit.held ≠ 0 →
          (t.engine c e).credit.held = (s.engine c e).credit.held - 1 ∧
          (∃ q ∈ (t.engine c e).queue, q.uid = x.uid ∧ q.num = h.num ∧ q.idx = h.next) ∧
          ∃ g ∈ (t.chan c).cmds, g.num = h.num ∧ g.next = h.next + 1 ∧
            ∃ y ∈ g.ecs, y.idx = h.next ∧ y.slot = e ∧ y.status = none))

/-- A synchronising command stands, or has just passed its checks, at the head of its ring. -/
def AtHead (s : State) (c : Ch) (r : RingId) (op : Nat) (h : HostCmd) : Prop :=
  (s.chan c).head? r = some h ∧ hdOp h.descs = op ∧ s.splits c r = true ∧ s.mayRecord c = true ∧
    (h.stage = .splitting ∨
      (h.stage = .queued ∧ s.divertedAway c h = false ∧ s.splitChecks c h = .accept))

/-- FENCE, SIGNAL and WAIT (R410 to R412): a FENCE completes once no command ahead of it on its ring is left, and holds
the ring before that; a SIGNAL issues its write then; a WAIT reads its word as it reaches the head. -/
def Rules.SynchronisingCommands : Prop :=
  ∀ (c : Ch) (r : RingId) (s : State) (h : HostCmd), s.dev.powered = true →
    (AtHead s c r opFence h →
      ∃ t, Sys2Proof.Machine.exec (.fence c r) s = .next t ∧
        ((s.chan c).ahead h = false → (t.chan c).cmd? h.num = none) ∧
        ((s.chan c).ahead h = true → ∃ g ∈ (t.chan c).cmds, g.num = h.num ∧ g.stage = .splitting)) ∧
    (AtHead s c r opSignal h →
      ∃ t, Sys2Proof.Machine.exec (.signal c r) s = .next t ∧
        ((s.chan c).ahead h = false → s.signalHeld c h = false → (t.ringOf c r).sync = .signalling) ∧
        ((s.chan c).ahead h = true ∨ s.signalHeld c h = true → (t.ringOf c r).sync = (s.ringOf c r).sync)) ∧
    (AtHead s c r opWait h → (s.ringOf c r).sync = .idle →
      ∃ t, Sys2Proof.Machine.exec (.wait c r) s = .next t ∧ (t.ringOf c r).sync = .waiting true ∧
        (h.stage = .queued → ∃ g ∈ (t.chan c).cmds, g.num = h.num ∧ g.since = s.cyc (domArith c)))

/-- SIGNAL_WRITE_ACCEPTED (R411): the value, or its sum with the word modulo 2^64, is written where translation leads,
and the SIGNAL completes; an ADD to host memory completes BAD_ARG and writes nothing. -/
def Rules.SignalWrites : Prop :=
  ∀ (c : Ch) (r : RingId) (s u : State) (h : HostCmd) (tg : Target) (addr : Nat), s.dev.powered = true →
    s.syncing c r = some h → (s.ringOf c r).sync = .signalling → s.stalled (.sync c r) = false → s.mayRecord c = true →
    s.reach (syncAccess c r h true) = (u, some (tg, addr)) →
    ∃ t, Sys2Proof.Machine.exec (.signalWriteAccepted c r) s = .next t ∧ (t.ringOf c r).sync = .idle ∧
      (t.chan c).cmd? h.num = none ∧
      (tg = .host → hd h.descs 176 1 = 1 → RecordHeld t c h stBadArg ∧ u.sameStores t) ∧
      (tg = .host → hd h.descs 176 1 = 0 → .hostWrite addr (leBytes 8 (hd h.descs 192 64)) ∈ t.out ∧ u.sameStores t) ∧
      (tg ≠ .host → t.mem tg = (u.mem tg).put addr (leBytes 8 ((if hd h.descs 176 1 = 1 then
        leNat ((u.mem tg).readBytes addr 8) else 0) + hd h.descs 192 64)))

/-- WAIT_POLL_EXPIRY, WAIT_READ_RETURN and WAIT_TIMEOUT (R412, R413): the word is read again; a WAIT completes when its
word is at least VALUE, or equal to it, and waits for its next read otherwise; a WAIT whose TIMEOUT elapses completes
WAIT_TIMEOUT and stops its ring. -/
def Rules.WaitEvents : Prop :=
  ∀ (c : Ch) (r : RingId) (s : State) (h : HostCmd), s.dev.powered = true →
    (s.waitingAt c r = some (h, false) →
      ∃ t, Sys2Proof.Machine.exec (.waitPollExpiry c r) s = .next t ∧ (t.ringOf c r).sync = .waiting true ∧
        t = { s with chans := t.chans } ∧ s.sameStores t) ∧
    (∀ ext u v tg o, s.waitingAt c r = some (h, true) → s.stalled (.sync c r) = false → s.mayRecord c = true →
      s.reach (syncAccess c r h false) = (v, some tg) →
      s.readVa (syncAccess c r h false) hbmData 8 ext = (u, o) → o.done = true →
      ∃ t, Sys2Proof.Machine.exec (.waitReadReturn c r ext) s = .next t ∧
        (if (if hd h.descs 176 1 = 1 then leNat o.bytes = hd h.descs 192 64
            else hd h.descs 192 64 ≤ leNat o.bytes) then
          (t.chan c).cmd? h.num = none ∧ (t.ringOf c r).sync = .idle
        else (t.chan c).cmds = (u.chan c).cmds ∧ (t.ringOf c r).sync = .waiting false ∧
          (t.ringOf c r).word = some tg)) ∧
    (∀ b, s.waitingAt c r = some (h, b) → hd h.descs 256 16 ≠ 0 → s.replayOn c = false → s.mayRecord c = true →
      ∃ t, Sys2Proof.Machine.exec (.waitTimeout c r) s = .next t ∧ RecordHeld t c h stWaitTimeout ∧
        (t.ringOf c r).sync = .idle ∧ t.flag (.door c r) Reg.ringHead_STOPPED = true)

/-- COMMAND_COMPLETE and COMPLETION_RECORD_ACCEPTED (R400 to R404): a command whose engine commands have all completed
leaves the channel, with a record where its status is not OK or it asks for one, and its interrupt at once where it
writes none; an accepted record moves CPL_TAIL on and sends the interrupt. -/
def Obligations.Completions : Prop :=
  ∀ (c : Ch) (s : State), s.dev.powered = true → s.arithOn c = true →
    (∀ num h, (s.chan c).cmd? num = some h → h.stage = .running → h.allDone = true → s.mayRecord c = true →
      ∃ t, Sys2Proof.Machine.exec (.commandComplete c num) s = .next t ∧ (t.chan c).cmd? num = none ∧
        (h.status ≠ stOk ∨ hdReport h.descs = true → RecordHeld t c h h.status)) ∧
    (∀ (r : RingId) x rest u, (s.ringOf c r).held = x :: rest → (s.ringOf c r).parked = false →
      s.cplFull c r = false → s.writeRecord c r x = (u, true) →
      ∃ t, Sys2Proof.Machine.exec (.completionRecordAccepted c r) s = .next t ∧ (t.ringOf c r).held = rest ∧
        t.rd (.door c r) Reg.ringCplptr_CPL_TAIL =
          (s.rd (.door c r) Reg.ringCplptr_CPL_TAIL + 1) % s.cplSize c r ∧
        u.sameStores t ∧
        (x.irq = true → u.dev.functionMask = false →
          (Tab.get {} u.msix (u.rd (.ring c r) Reg.ringCtl_VEC)).masked = false →
          .msix (u.rd (.ring c r) Reg.ringCtl_VEC) ∈ t.out))


/-! ## The copy unit, the staging buffers and the CVU (chapters 3, 9, 11, 12) -/

/-- COPY_UNIT_COMPLETE (R45, R398, R400): the command in turn leaves the unit when its last write has been accepted, OK or
with BAD_PACK where a T2 byte above 242 was among its bytes; poisoned data ends it with TILE_LOST. The bytes of a LOAD_W
of one page lie in the weight stall at its stall address, as received. -/
def Obligations.CopyUnit : Prop :=
  ∀ (c : Ch) (ext : List Byte) (s : State) (r : CopyRun), s.dev.powered = true → s.copyHead c = some r →
    s.mapRuns c = true → s.stalled (.copy c) = false → s.mayRecord c = true →
    (∀ u x e, State.copyOn c (hd r.cmd.descs 224 32 / 4096 + 2) (s.active r.cmd.ctx) r ext = (u, x, e) →
      ∃ t, Sys2Proof.Machine.exec (.copyUnitComplete c ext) s = .next t ∧ u.sameStores t ∧
        (e = .done → (∀ q ∈ (t.chan c).copies, q.cmd.uid ≠ r.cmd.uid) ∧
          CompletedWith u t c r.cmd (if x.bad then stBadPack else stOk) ∧
          (x.bad = true → (t.rd (.wst c) Reg.intRaw_RAW).testBit 1 = true)) ∧
        (e = .poisoned → (∀ q ∈ (t.chan c).copies, q.cmd.uid ≠ r.cmd.uid) ∧ CompletedWith u t c r.cmd stTileLost) ∧
        (e = .waits → ∀ q ∈ (t.chan c).copies, q.cmd.uid = r.cmd.uid → q = x)) ∧
    (∀ u o, r.cmd.op = opLoadW → r.moved = 0 → 0 < hd r.cmd.descs 224 32 →
      hd r.cmd.descs 224 32 ≤ 4096 - hd r.cmd.descs 128 48 % 4096 →
      (s.active r.cmd.ctx).readVa (copyAccess c r.cmd (hd r.cmd.descs 128 48) false) hbmWeight (hd r.cmd.descs 224 32)
        ext = (u, o) → o.done = true → o.poisoned = false → o.bytes.length = hd r.cmd.descs 224 32 →
      ∃ t, Sys2Proof.Machine.exec (.copyUnitComplete c ext) s = .next t ∧
        (t.chan c).stall = (u.chan c).stall.put (hd r.cmd.descs 176 29) o.bytes ∧
        (t.chan c).hbm = (u.chan c).hbm ∧ (t.chan c).ast = (u.chan c).ast)

/-- LODGER_FILL_START and LODGER_FILL_COMPLETE (R365, R366, R368, R440): the row tile of a repeated command is fetched
into a free buffer; else the buffer that did not fill last, once it is free, begins to fill with the next chunk; a fill
that has to wait keeps what it has moved; a complete fill stands in the stall's staging window, the buffer is full, and
the chunk may be used. -/
def Obligations.LodgerFills : Prop :=
  ∀ (c : Ch) (s : State), s.dev.powered = true → s.mapRuns c = true →
    (∀ b, b = 1 - (s.chan c).lastBuffer →
      ∃ t, Sys2Proof.Machine.exec (.lodgerFillStart c) s = .next t ∧
        (∀ e k f, s.refetch? c = some (e, k) → [b, 1 - b].find? (s.chan c).bufferFree = some f →
          t.rd (.wst c) (bufFld f) = 1 ∧ (t.chan c).lastBuffer = (s.chan c).lastBuffer ∧
          ∀ d, Tab.get d (t.chan c).buffers f = { num := k.num, chunk := chunkOf k.descs k.rt, first := k.rt, rows := 1
                                                  ctx := k.ctx, again := some (e, k.uid) }) ∧
        (∀ h j first rows, s.refetch? c = none → s.nextChunk c = some (h, j, first, rows) →
          (s.chan c).bufferFree b = true →
          t.rd (.wst c) (bufFld b) = 1 ∧ (t.chan c).lastBuffer = b ∧
          ∀ d, Tab.get d (t.chan c).buffers b =
            { num := h.num, chunk := j, first := first, rows := rows, ctx := hdCtx h.descs }) ∧
        (s.refetch? c = none → s.nextChunk c = none ∨ (s.chan c).bufferFree b = false → t = s)) ∧
    (∀ (buf : Fin 2) ext q ds a u o, ((s.chan c).buffers.find? fun q => q.1 = buf.val && q.2.filling) = some (buf.val, q) →
      s.ctxRuns q.ctx = true → s.stalled (.lodger c buf) = false → s.mayRecord c = true →
      (s.chan c).fillDescs q = some ds →
      a = { req := .lodger c buf, ctx := q.ctx, va := bWsrc ds + (rowTileBytes ds q.first q.rows).1, write := false
            info := { ring := ((s.chan c).cmd? q.num).map (·.ring), cmdid := some (hdCmdid ds), num := some q.num } } →
      s.readOn a hbmWeight ((rowTileBytes ds q.first q.rows).2 - (rowTileBytes ds q.first q.rows).1) q.moved ext =
        (u, o) →
      ∃ t, Sys2Proof.Machine.exec (.lodgerFillComplete c buf ext) s = .next t ∧
        (o.done = false → u.sameStores t ∧ ∀ d, Tab.get d (t.chan c).buffers buf = { q with moved := o.moved }) ∧
        (o.done = true → t.rd (.wst c) (bufFld buf) = 2 ∧
          (o.poisoned = false → (t.chan c).stall = (u.chan c).stall.put (0x12000000 + buf * 0x1000000) o.bytes) ∧
          (∀ d, Tab.get d (t.chan c).buffers buf = { q with filling := false, moved := {} }) ∧
          t.rd (.wst c) Reg.wstCnt_FILLS = min (u.rd (.wst c) Reg.wstCnt_FILLS + 1) (2 ^ Reg.wstCnt_FILLS.w - 1) ∧
          (q.again = none → ∀ h ∈ (t.chan c).cmds, h.num = q.num → q.chunk ∈ h.chunks)))

/-- The CVU's commands (R292 to R294, R297, R301, R303): the first of the queue starts; a block's reads go on from where
they have come; a block that its checker confirms counts its beats of MAC issue and is formed, and its writes leave, from
where they have come; with the last of them the next block is due; a block that differs is counted and computed again;
poisoned operands end the command with TILE_LOST; after the last block and the sideband record it completes OK. -/
def Obligations.CvuCommands : Prop :=
  ∀ (c : Ch) (s : State), s.dev.powered = true → s.unitRuns c (.cvu c) = true →
    (∀ r rest, (s.chan c).cvu.run = none → (s.chan c).cvu.queue = r :: rest → s.ctxRuns r.cmd.ctx = true →
      ∃ t, Sys2Proof.Machine.exec (.cvuCommandStart c) s = .next t ∧ (t.chan c).cvu.run = some r ∧
        (t.chan c).cvu.queue = rest ∧ t.rd (.cvu c) Reg.cvuStat_BUSY = 1 ∧ s.sameStores t ∧ s.sameWords t [.cvu c]) ∧
    (∀ r ext u x done, (s.chan c).cvu.run = some r → s.ctxRuns r.cmd.ctx = true → r.block < cvuTotal r.cmd →
      r.formed = false → s.mayRecord c = true → s.cvuRead c r ext = (u, x, done) →
      (done = false → ∀ mismatch,
        ∃ t, Sys2Proof.Machine.exec (.cvuBlockComplete c mismatch ext) s = .next t ∧ u.sameStores t ∧
          t.regs = u.regs ∧ ∀ y, (t.chan c).cvu.run = some y → y = x) ∧
      (done = true → x.poisoned = true → ∀ mismatch,
        ∃ t, Sys2Proof.Machine.exec (.cvuBlockComplete c mismatch ext) s = .next t ∧ (t.chan c).cvu.run = none ∧
          t.rd (.cvu c) Reg.cvuStat_BUSY = 0 ∧ CompletedWith s t c r.cmd stTileLost ∧ s.sameStores t) ∧
      (done = true → x.poisoned = false →
        ∃ t, Sys2Proof.Machine.exec (.cvuBlockComplete c true ext) s = .next t ∧
          (t.chan c).cvu.run = some (x.anew r.block) ∧
          t.rd (.cvu c) Reg.cvuCnt_CHK_MISMATCH =
            min (u.rd (.cvu c) Reg.cvuCnt_CHK_MISMATCH + 1) (2 ^ Reg.cvuCnt_CHK_MISMATCH.w - 1) ∧
          (t.rd (.cvu c) Reg.intRaw_RAW).testBit 1 = true ∧ s.sameStores t) ∧
      (∀ e cs ps n f w, done = true → x.poisoned = false →
        cvuCodes c r.cmd (r.block / cvuBlocks r.cmd) (r.block % cvuBlocks r.cmd) (u.chan c).narrowed x.operands r.counts =
          (e, cs) →
        cvuPieces { slot := 0x7f, epoch := 0, ctx := r.cmd.ctx, info := (cvuAccess c r.cmd).info } r.cmd
          (r.block / cvuBlocks r.cmd) (r.block % cvuBlocks r.cmd) cs = (ps, n) →
        f = u.cvuForm c x false → w = f.writeOut (cvuAccess c r.cmd) (ps.length + 1) ps →
        u.sameStores f ∧ ∃ t y, Sys2Proof.Machine.exec (.cvuBlockComplete c false ext) s = .next t ∧ w.1.sameStores t ∧
          (t.chan c).cvu.run = some y ∧ y.cmd = r.cmd ∧
          (if w.2 = [] then y.block = r.block + 1 ∧ y.formed = false
            else y.block = r.block ∧ y.formed = true ∧ y.out = w.2) ∧
          t.rd (.cvu c) Reg.cvuBusy_CYCLES =
            (u.rd (.cvu c) Reg.cvuBusy_CYCLES + x.operands.inputs.length * ceilDiv (cvuDepth r.cmd) 32) % 2 ^ 64 ∧
          (t.chan c).cvu.lane = ((u.chan c).cvu.lane + 1) % 64 ∧
          (t.chan c).cvu.blocks = (u.chan c).cvu.blocks + 1 ∧ (t.chan c).narrowed = e.n)) ∧
    (∀ r ext mismatch w, (s.chan c).cvu.run = some r → s.ctxRuns r.cmd.ctx = true → r.block < cvuTotal r.cmd →
      r.formed = true → w = s.writeOut (cvuAccess c r.cmd) (r.out.length + 1) r.out →
      ∃ t, Sys2Proof.Machine.exec (.cvuBlockComplete c mismatch ext) s = .next t ∧ w.1.sameStores t ∧
        (t.chan c).cvu.run = some (if w.2 = [] then r.anew (r.block + 1) else { r with out := w.2 }) ∧
        (t.chan c).cvu.lane = (s.chan c).cvu.lane) ∧
    (∀ r, (s.chan c).cvu.run = some r → s.ctxRuns r.cmd.ctx = true → cvuTotal r.cmd ≤ r.block →
      (bSbaddr r.cmd.descs = 0 →
        ∃ t, Sys2Proof.Machine.exec (.cvuCommandComplete c) s = .next t ∧ (t.chan c).cvu.run = none ∧
          CompletedWith s t c r.cmd stOk ∧ t.rd (.cvu c) Reg.cvuStat_BUSY = 0 ∧ s.sameStores t ∧
          t.rd (.cvu c) Reg.cvuCnt_CMDS = min (s.rd (.cvu c) Reg.cvuCnt_CMDS + 1) (2 ^ Reg.cvuCnt_CMDS.w - 1)) ∧
      (∀ u n, bSbaddr r.cmd.descs ≠ 0 →
        s.writeVa { cvuAccess c r.cmd with va := bSbaddr r.cmd.descs, write := true } hbmData
          (leBytes 16 (unitSideband c r.cmd r.counts)) = (u, n, true) →
        ∃ t, Sys2Proof.Machine.exec (.cvuCommandComplete c) s = .next t ∧ (t.chan c).cvu.run = none ∧
          CompletedWith s t c r.cmd stOk ∧ u.sameStores t))


/-! ## Tiles and the array (chapters 4 to 7) -/

/-- The head of an engine's queue may claim: the engine runs and is not its pair's secondary, the command's context runs,
no drain stall holds the engine, and no restored tile waits for an in-progress slot (R171, R185, R253). -/
def ClaimHead (s : State) (c : Ch) (e : SlotId) (k : EngCmd) : Prop :=
  s.dev.powered = true ∧ (s.engine c e).queue.head? = some k ∧ s.engRuns c e = true ∧ s.isSecondary c e = false ∧
    s.ctxRuns k.ctx = true ∧ hasTileBody k.op = true ∧ k.again = false ∧ s.stalled (.drain c e) = false ∧
    (∀ t ∈ (s.engine c e).slots, t.2.paused = false) ∧
    (∀ x ∈ (s.engine c e).incoming, k.ofTile x = false)

/-- No sealed image of the tile that a command names is kept for the engine (R175). -/
def NoImage (s : State) (c : Ch) (e : SlotId) (k : EngCmd) : Prop :=
  ∀ i ∈ (s.chan c).tileImages, ¬ (i.ctx = k.ctx ∧ i.name = k.name ∧ i.engine = e.val)

/-- TILE_CLAIM (R171, R174, R179, R182, R397): a name without a tile is claimed fresh in a FREE slot, which becomes FILLING
under the command's tag; without a FREE slot a PARKED victim is sealed; a tag mismatch completes FORMAT_MISMATCH; DRAIN of
a PARKED tile makes it DRAINING, and of no tile completes NO_TILE. -/
def Rules.TileClaims : Prop :=
  ∀ (c : Ch) (e : SlotId) (s : State) (k : EngCmd), ClaimHead s c e k →
    ∃ t, Sys2Proof.Machine.exec (.tileClaim c e) s = .next t ∧
      (∀ n, (s.engine c e).slotOf k.ctx k.name = none → NoImage s c e k → k.op ≠ opDrain →
        (s.engine c e).mayClaim k = true → elided k = false → (s.engine c e).freeSlot = some n →
        (t.tile c e n).state = .filling ∧ (t.tile c e n).ctx = k.ctx ∧ (t.tile c e n).name = k.name ∧
          (t.tile c e n).afmt = hdAfmt k.descs ∧ (t.tile c e n).wfmt = hdWfmt k.descs ∧
          (t.tile c e n).last = some k ∧ (t.engine c e).queue = (s.engine c e).queue.tail ∧
          ∃ r ∈ (t.engine c e).runs, r.cmd.uid = k.uid ∧ r.slot = n) ∧
      (∀ n, (s.engine c e).slotOf k.ctx k.name = none → NoImage s c e k → k.op ≠ opDrain →
        (s.engine c e).mayClaim k = true → (s.engine c e).freeSlot = none → s.replayOn c = false →
        (∀ x ∈ (s.engine c e).slots, x.2.state ≠ .sealing ∧ x.2.state ≠ .restoring) → s.victim c e = some n →
        (t.tile c e n).state = .sealing ∧ (t.engine c e).queue = (s.engine c e).queue) ∧
      (∀ n, (s.engine c e).slotOf k.ctx k.name = some n → (s.tile c e n).state = .parked → k.op ≠ opDrain →
        hdAccum k.descs = true → (s.tile c e n).matchesTag k = false → (s.engine c e).mayClaim k = true →
        CompletedWith s t c k stFormatMismatch ∧ 0 < t.rd (.eng c e) Reg.engTileCnt_MISMATCH_REJ ∧
          (t.engine c e).queue.map (·.uid) = (s.engine c e).queue.tail.map (·.uid)) ∧
      (∀ n, (s.engine c e).slotOf k.ctx k.name = some n → (s.tile c e n).state = .parked → k.op = opDrain →
        (s.engine c e).inProgress < 2 →
        (t.tile c e n).state = .draining ∧ (t.tile c e n).last = some k ∧
          (t.engine c e).drains = (s.engine c e).drains ++ [n] ∧ (t.engine c e).queue = (s.engine c e).queue.tail) ∧
      ((s.engine c e).slotOf k.ctx k.name = none → NoImage s c e k → k.op = opDrain →
        CompletedWith s t c k stNoTile ∧
          (t.engine c e).queue.map (·.uid) = (s.engine c e).queue.tail.map (·.uid))

/-- SEAL_COMPLETE, TILE_RESTORE_START and TILE_RESTORE_COMPLETE (R174, R175, R476): a sealed tile's image is kept under the
sealing key and its slot is FREE; the image that the queue's head names is restored into a FREE slot; a sound image brings
the tile back as it was, and one that fails authentication is discarded. -/
def Rules.TileImages : Prop :=
  ∀ (c : Ch) (e : SlotId) (s : State), s.dev.powered = true →
    (∀ (n : Fin 8) u x, x = s.tile c e n → x.state = .sealing → s.arithOn c = true →
      s.sealVa (sealAccess s c e n x) tileImageBytes = (u, true) →
      ∃ t, Sys2Proof.Machine.exec (.sealComplete c e n) s = .next t ∧ (t.tile c e n).state = .free ∧
        { ctx := x.ctx, name := x.name, engine := e, key := s.dev.sealKey, space := x.space
          tile := { x with state := .parked } } ∈ (t.chan c).tileImages ∧ u.sameStores t) ∧
    (∀ k i n, s.awaitedImage c e = some (k, i) → (s.engine c e).freeSlot = some n → s.engRuns c e = true →
      s.ctxRuns k.ctx = true →
      ∃ t, Sys2Proof.Machine.exec (.tileRestoreStart c e) s = .next t ∧ (t.tile c e n).state = .restoring ∧
        (t.tile c e n).ctx = k.ctx ∧ (t.tile c e n).name = k.name ∧ (t.tile c e n).space = i.space ∧
        (t.engine c e).queue = (s.engine c e).queue ∧ s.sameStores t ∧ t = { s with chans := t.chans }) ∧
    (∀ n x i u poisoned, ((s.engine c e).slots.find? fun t =>
        t.2.state = .restoring && !s.stalled (.seal c e (Fin.ofNat 8 t.1))) = some (n, x) →
      s.arithOn c = true → ((s.chan c).tileImages.find? fun i => i.ofTile e x) = some i →
      s.openVa (sealAccess s c e n x) tileImageBytes = (u, true, poisoned) →
      (poisoned = false → i.key = s.dev.sealKey →
        ∃ t, Sys2Proof.Machine.exec (.tileRestoreComplete c e true) s = .next t ∧ t.tile c e n = i.tile ∧
          ∀ j ∈ (t.chan c).tileImages, j.ofTile e x = false) ∧
      (∃ t, Sys2Proof.Machine.exec (.tileRestoreComplete c e false) s = .next t ∧
        (∀ j ∈ (t.chan c).tileImages, j.ofTile e x = false) ∧
        ∀ k, ((s.engine c e).queue.find? (·.ofTile x)) = some k →
          CompletedWith s t c k stTileLost))

/-- SLICE_LOAD_START, SLICE_LOAD_COMPLETE and REBUILD_COMPLETE (R79, R83, R128): the first slice that no register holds
loads into a free register, the working one first, and ROT moves on; a complete load makes its register ready with the
cell codes of the slice; a complete rebuild makes its bank VALID at knot 128, on the pages of a pair that show it. -/
def Obligations.WeightRegistersAndBanks : Prop :=
  ∀ (c : Ch) (e : SlotId) (s : State), s.dev.powered = true → s.engRuns c e = true →
    (∀ x k, (s.engine c e).nextEntry = some x → (s.engine c e).served x = some k → k.refetch = false →
      s.ctxRuns k.ctx = true → (s.engine c e).regA.loading = false → (s.engine c e).regB.loading = false →
      (s.engine c e).regA.entry = none ∨ (s.engine c e).regB.entry = none →
      ∃ t, Sys2Proof.Machine.exec (.sliceLoadStart c e) s = .next t ∧
        t.rd (.eng c e) Reg.engWregStat_ROT = (s.rd (.eng c e) Reg.engWregStat_ROT + 1) % 2 ^ 6 ∧
        (if (s.engine c e).regA.entry = none ∧ (s.workingA c e = true ∨ (s.engine c e).regB.entry ≠ none) then
          (t.engine c e).regA = s.loadingReg c e x ∧ (t.engine c e).regB = (s.engine c e).regB
        else (t.engine c e).regB = s.loadingReg c e x ∧ (t.engine c e).regA = (s.engine c e).regA)) ∧
    (∀ x k, (s.engine c e).regA.loading = true → (s.engine c e).regA.entry = some x →
      (s.engine c e).served x = some k → k.refetch = false →
      ∃ t, Sys2Proof.Machine.exec (.sliceLoadComplete c e) s = .next t ∧
        (t.engine c e).regA = { (s.engine c e).regA with
          loading := false, ready := true, codes := (s.sliceCodes c k x.slice).1
          poisoned := (s.sliceCodes c k x.slice).2 } ∧
        (t.engine c e).regB = (s.engine c e).regB ∧ s.sameStores t ∧ t.regs = s.regs) ∧
    (∀ x k, (s.engine c e).regA.loading = false → (s.engine c e).regB.loading = true →
      (s.engine c e).regB.entry = some x → (s.engine c e).served x = some k → k.refetch = false →
      ∃ t, Sys2Proof.Machine.exec (.sliceLoadComplete c e) s = .next t ∧
        (t.engine c e).regB = { (s.engine c e).regB with
          loading := false, ready := true, codes := (s.sliceCodes c k x.slice).1
          poisoned := (s.sliceCodes c k x.slice).2 } ∧
        (t.engine c e).regA = (s.engine c e).regA ∧ s.sameStores t ∧ t.regs = s.regs) ∧
    (∀ b : Fin 2, s.flag (.eng c e) (Reg.engLnsBank_BUILDING b) = true →
      ∃ t, Sys2Proof.Machine.exec (.rebuildComplete c e b) s = .next t ∧
        t.flag (.eng c e) (Reg.engLnsBank_BUILDING b) = false ∧ t.flag (.eng c e) (Reg.engLnsBank_VALID b) = true ∧
        t.rd (.eng c e) (Reg.engLnsBank_KNOT b) = 128 ∧
        t.rd (.eng c e) (Reg.engLnsBank_BASE b) = s.rd (.eng c e) (Reg.engLnsBank_BASE b) ∧
        s.sameWords t ((s.pairOf c e).map (engPage c)) ∧ t = { s with regs := t.regs })

/-- A lane owns the engine's cycle and works on the engine's one command in progress (R86, R102, R573). -/
def LaneAt (s : State) (c : Ch) (e : SlotId) (r : EngRun) (l : Nat) : Prop :=
  s.dev.powered = true ∧ s.mayRecord c = true ∧ s.engRuns c e = true ∧ s.isSecondary c e = false ∧
    (s.engine c e).lastIssue ≠ some (s.cyc (domArith c)) ∧ (s.engine c e).runs = [r] ∧ (s.engine c e).laneRuns = [r] ∧ isProduct r.cmd.op = true ∧
    s.ctxRuns r.cmd.ctx = true ∧ (s.tile c e r.slot).paused = false ∧ l = s.pageCyc (.eng c e) % 8 ∧
    (r.lane l).done = false

/-- BEAT_ISSUE (R40, R77, R86, R89, R102, R107 to R109, R573): a beat that is neither skipped nor poisoned enters the runs
of its position, those of masked rows apart, and is counted, and the lane moves on to the next beat; a check column whose
comparison fails marks the tile; a lane without its inputs, or whose duty slot is closed, waits and is counted. -/
def Rules.BeatsIssue : Prop :=
  ∀ (c : Ch) (e : SlotId) (s : State) (r : EngRun) (l : Nat), LaneAt s c e r l →
    (∀ ev own sl w xs n q trees sums fails, s.pageCyc (.eng c e) / 8 % 16 < s.duty c → (r.lane l).due = false → (r.lane l).begun = true →
      (r.lane l).idx < r.cmd.order.length → (r.lane l).buf.head? = some sl → xs = sl.inputs.getD (r.lane l).pos [] →
      (s.skips c && beatSkips (hdAfmt r.cmd.descs) (r.lane l).beat xs) = false →
      (s.engine c e).regFor r.cmd.uid sl.idx = some w → sl.poisoned = false → w.poisoned = false → ev ≠ .poisoned →
      own = (match ev with | .upset us _ => us | .clean | .corrected | .poisoned => []) →
      trees = (r.lane l).trees.getD .integer →
      beatColumns (s.colMap (.eng c e)) r.cmd.rows w.rot trees (r.cmd.group.fsel + 2) (hdAfmt r.cmd.descs)
        (hdWfmt r.cmd.descs) (r.lane l).beat xs w.codes own = (sums, fails) →
      n = (lanePositions (windowOf r.cmd.descs) r.cmd.pt l).length →
      q = (lanePositions (windowOf r.cmd.descs) r.cmd.pt l).getD (r.lane l).pos 0 →
      (r.lane l).beat + 1 < beatsPer (hdAfmt r.cmd.descs) ∨ (r.lane l).pos + 1 < n →
      ∃ t, Sys2Proof.Machine.exec (.beatIssue c e ev) s = .next t ∧
        t.rd (.eng c e) Reg.engIssue_BEATS = (s.rd (.eng c e) Reg.engIssue_BEATS + 1) % 2 ^ 64 ∧
        (∀ d, Tab.get d (t.tile c e r.slot).runs q =
          enterRuns r.cmd.rows (r.cmd.group.fsel + 2) (hdAfmt r.cmd.descs) (r.lane l).beat
            (Tab.get (List.replicate 256 (Run.start trees)) (s.tile c e r.slot).runs q) sums) ∧
        ((t.run? c e r.cmd.uid).map fun x => ((x.lane l).pos, (x.lane l).beat)) =
          some (if (r.lane l).beat + 1 < beatsPer (hdAfmt r.cmd.descs) then ((r.lane l).pos, (r.lane l).beat + 1)
            else ((r.lane l).pos + 1, 0)) ∧
        (fails ≠ [] → (t.tile c e r.slot).mismatch = true ∧ t.rd (.eng c e) Reg.engChkStat_MISMATCH = 1 ∧
            (t.rd (.eng c e) Reg.intRaw_RAW).testBit 1 = true)) ∧
    (∀ ev, s.blk (.eng c e) = blkOn → s.duty c ≤ s.pageCyc (.eng c e) / 8 % 16 ∨
        ((r.lane l).due = false ∧ (r.lane l).begun = true ∧ (r.lane l).idx < r.cmd.order.length ∧
          (r.lane l).buf = []) →
      ∃ t, Sys2Proof.Machine.exec (.beatIssue c e ev) s = .next t ∧
        t.rd (.eng c e) (Reg.engLaneWait_COUNT l) =
          min (s.rd (.eng c e) (Reg.engLaneWait_COUNT l) + 1) (2 ^ 32 - 1) ∧
        t.rd (.eng c e) Reg.engIssue_BEATS = s.rd (.eng c e) Reg.engIssue_BEATS ∧
        (t.tile c e r.slot).runs = (s.tile c e r.slot).runs)

/-- ACTIVATION_READ_RETURN (R33, R269): the inputs of the next K-slice enter the lane's buffer and take a credit of it. -/
def Rules.ActivationReads : Prop :=
  ∀ (c : Ch) (e : SlotId) (l : Fin 8) (ext : List Byte) (s : State) (r : EngRun) (sl : Nat), s.dev.powered = true →
    s.toFetch c e l = some (r, sl) → s.run? c e r.cmd.uid = some r → isProduct r.cmd.op = true →
    s.engRuns c e = true → s.stalled (.addrGen c e l) = false →
    ((s.engine c e).laneCredits l).held ≠ 0 →
    ∃ t, Sys2Proof.Machine.exec (.activationReadReturn c e l ext) s = .next t ∧ s.sameStores t ∧
      (∀ rd x, s.fetchSlice c e l r.cmd (r.lane l).fetched sl ext = (rd, some x) →
        ((t.run? c e r.cmd.uid).map fun y => (y.lane l).buf) = some ((r.lane l).buf ++ [x]) ∧
        ((t.engine c e).laneCredits l).held = ((s.engine c e).laneCredits l).held - 1) ∧
      (∀ rd, s.fetchSlice c e l r.cmd (r.lane l).fetched sl ext = (rd, none) →
        ((t.run? c e r.cmd.uid).map fun y => ((y.lane l).buf, (y.lane l).fetched)) = some ((r.lane l).buf, rd.got) ∧
        (t.engine c e).laneCredits l = (s.engine c e).laneCredits l)

/-- PROMOTION_COMPLETE (R151 to R157, R160, R164): a promoting copy enters the totals, and the lane's promoted slices are
counted; where a guarded tile's total would overflow it is issued again one octave lower, at most three times. -/
def Obligations.Promotions : Prop :=
  ∀ (c : Ch) (e : SlotId) (lane : Fin 8) (s : State) (n : Nat) (p : Promo) (x : TileSlot) (totals : Tab (List Total))
    (hit : Bool), s.dev.powered = true → (s.engine c e).promotingTile lane = some (n, p) → s.engRuns c e = true →
    x = s.tile c e n → x.enterPromo p = (totals, hit) →
    ∃ t, Sys2Proof.Machine.exec (.promotionComplete c e lane) s = .next t ∧
      (hit = false ∨ x.guarded = false ∨ 3 ≤ x.retries ∨ x.list = [] →
        (t.tile c e n).totals = totals ∧ (t.tile c e n).promoting = Tab.erase x.promoting lane ∧
          Tab.get 0 (t.tile c e n).promoted lane = Tab.get 0 x.promoted lane + p.slices ∧
          (t.tile c e n).retries = x.retries) ∧
      (hit = true → x.guarded = true → x.retries < 3 → x.list ≠ [] → s.replayOn c = false →
        (t.tile c e n).retries = x.retries + 1 ∧ (t.tile c e n).totals = [] ∧ (t.tile c e n).promoting = [] ∧
          (t.tile c e n).counter = 0 ∧ (t.rd (.eng c e) Reg.intRaw_RAW).testBit 4 = true)


/-! ## The drain (chapter 8) -/

/-- A drain is under way on a tile, whose engine and context run. -/
def DrainUnderWay (s : State) (c : Ch) (e : SlotId) (d : Drain) (x : TileSlot) (geo : EngCmd) : Prop :=
  s.dev.powered = true ∧ (s.engine c e).drain = some d ∧ x = s.tile c e d.slot ∧ x.geo = some geo ∧
    s.engRuns c e = true ∧ s.ctxRuns x.ctx = true

/-- DRAIN_START and ROW_PARAM_FETCH_RETURN (R228, R230, R234, R254): the drain path takes the first tile to have entered
DRAINING of those whose context runs, at block 0 or where a save interrupted it, and the parameters of a resumed drain
are fetched again; the 256 row parameters are held for it. A drain whose parameters are poisoned loses its tile (R585). -/
def Rules.DrainStart : Prop :=
  ∀ (c : Ch) (e : SlotId) (s : State),
    (∀ n x k geo ps, s.dev.powered = true → (s.engine c e).drain = none →
      ((s.engine c e).drains.find? fun m => s.ctxRuns (s.tile c e m).ctx && !(s.tile c e m).paused) = some n →
      x = s.tile c e n → x.last = some k → x.geo = some geo → s.engRuns c e = true →
      ps = (if x.resume.isSome then none else (s.engine c e).params) → x.state = .draining → x.promoting = [] →
      ∃ t, Sys2Proof.Machine.exec (.drainStart c e) s = .next t ∧
        (t.engine c e).drain = some { x.resume.getD { slot := n, cmd := k } with
          slot := n, cmd := k, paramsHeld := ({ s.engine c e with params := ps } : Engine).holdsParams k geo } ∧
        (t.engine c e).params = ps ∧
        t.tile c e n = { x with resume := none } ∧ t = { s with chans := t.chans }) ∧
    (∀ d x geo ext u o, DrainUnderWay s c e d x geo → d.paramsHeld = false →
      s.readVa { drainAccess c e d.cmd with va := oPaddr d.cmd.descs + 4096 * geo.rt } hbmData 4096 ext = (u, o) →
      o.done = true →
      ∃ t, Sys2Proof.Machine.exec (.rowParamFetchReturn c e ext) s = .next t ∧ s.sameStores t ∧
        (o.poisoned = false → (t.engine c e).drain = some { d with paramsHeld := true } ∧
          (t.engine c e).params =
            some { addr := oPaddr d.cmd.descs, rt := geo.rt, records := paramRecords o.bytes }) ∧
        (o.poisoned = true → (t.tile c e d.slot).state = .free))

/-- DRAIN_BLOCK_READ (R193, R195, R201, R229): the next block of the tile enters the epilogue under a credit once what it
put out before has left; a HEAD's goes into the relay cell, with its header and its values as they were accumulated. -/
def Rules.DrainBlocks : Prop :=
  ∀ (c : Ch) (e : SlotId) (differs : Bool) (s : State) (d : Drain) (x : TileSlot) (geo : EngCmd),
    DrainUnderWay s c e d x geo → s.mayRecord c = true → x.state = .draining → x.rival = none → d.block < 8 →
    d.paramsHeld = true → ((differs = false ∧ x.mismatch = x.mateMismatch) ∨ x.mirrored = false ∨ (s.engine c e).paired = false) →
    (sendsPartial d.cmd = false → d.pipe = [] → (s.engine c e).output = [] → 0 < (s.engine c e).drainCredit.held →
      ∃ t, Sys2Proof.Machine.exec (.drainBlockRead c e differs) s = .next t ∧
        (t.engine c e).drain = some { d with
          block := d.block + 1, pipe := [(d.block, x.blockElements geo d.block)] } ∧
        (t.engine c e).drainCredit.held = (s.engine c e).drainCredit.held - 1 ∧ t.tile c e d.slot = x ∧
        s.sameStores t) ∧
    (sendsPartial d.cmd = true → (s.engine c e).relay.occ < 2 →
      ∃ t, Sys2Proof.Machine.exec (.drainBlockRead c e differs) s = .next t ∧
        (t.engine c e).drain = some { d with block := d.block + 1 } ∧ t.tile c e d.slot = x ∧
        (t.engine c e).relay.sending = (s.engine c e).relay.sending ++
          [{ block := { hdr := tileHeader s c e d.cmd x geo d.block, values := x.partial s.drawn geo d.block }
             next := tNext d.cmd.descs, tile := some d.slot }] ∧ s.sameStores t)

/-- DRAIN_BLOCK_READ where the two engines of a pair differ (R570, R588, R590): the difference is counted, the drain is
given up, and the tile is HELD with every command of its re-run list in the queue again. -/
def Rules.PairMismatch : Prop :=
  ∀ (c : Ch) (e : SlotId) (s : State) (d : Drain) (x : TileSlot) (geo : EngCmd),
    DrainUnderWay s c e d x geo → s.mayRecord c = true → s.replayOn c = false → d.block < 8 → d.paramsHeld = true →
    (if sendsPartial d.cmd then (s.engine c e).relay.occ < 2
      else d.pipe = [] ∧ (s.engine c e).output = [] ∧ 0 < (s.engine c e).drainCredit.held) →
    x.mirrored = true → (s.engine c e).paired = true → x.pairTimes = 0 → x.rerunnable = true →
    ∃ t, Sys2Proof.Machine.exec (.drainBlockRead c e true) s = .next t ∧
      t.rd .pwr Reg.pwrCnt_PAIR_MISMATCH =
        min (s.rd .pwr Reg.pwrCnt_PAIR_MISMATCH + 1) (2 ^ Reg.pwrCnt_PAIR_MISMATCH.w - 1) ∧
      (t.engine c e).drain = none ∧ (t.tile c e d.slot).state = .held ∧ (t.tile c e d.slot).totals = [] ∧
      (∀ k ∈ x.list, ∃ q ∈ (t.engine c e).queue, q.again = true ∧ q.num = k.num ∧ q.idx = k.idx) ∧ s.sameStores t

/-- EPILOGUE_OUTPUT (R229, R233, R240, R245, R247, R249): the block in the pipeline becomes pieces in the tile's
destination, dense or compressed, and its credit is freed; after the eighth block the candidates and the sideband record
follow; and pieces enter the write queue while it has credit. -/
def Obligations.EpilogueOutput : Prop :=
  ∀ (c : Ch) (e : SlotId) (s : State) (d : Drain) (x : TileSlot) (geo : EngCmd), DrainUnderWay s c e d x geo →
    sendsPartial d.cmd = false →
    ∃ t, Sys2Proof.Machine.exec (.epilogueOutput c e) s = .next t ∧ s.sameStores t ∧
      (∀ n, (s.engine c e).output ≠ [] → n = min (s.engine c e).output.length (s.engine c e).writeCredit.held →
        (t.engine c e).writes = (s.engine c e).writes ++ (s.engine c e).output.take n ∧
          (t.engine c e).output = (s.engine c e).output.drop n ∧
          (t.engine c e).writeCredit.held = (s.engine c e).writeCredit.held - n ∧ (t.engine c e).drain = some d) ∧
      (∀ j es rest y cs, (s.engine c e).output = [] → d.pipe = (j, es) :: rest → geo.op ≠ opStats →
        geo.op ≠ opRegroup →
        epilogueBlock d.cmd geo ((s.engine c e).params.elim [] (·.records)) { ch := c, n := (s.chan c).narrowed, d := d } j
          es = (y, cs) →
        (t.engine c e).writes ++ (t.engine c e).output = (s.engine c e).writes ++
          (mergeParts d.partBytes (if bOcomp d.cmd.descs then (segmentPieces (s.ownerOf c e d.cmd) d.cmd geo cs).1
            else densePieces (s.ownerOf c e d.cmd) d.cmd geo cs)).1 ∧
        (t.chan c).narrowed = y.n ∧ (t.engine c e).drain.map (·.pipe) = some rest ∧
        (t.engine c e).drainCredit.owed = (s.engine c e).drainCredit.owed + 1) ∧
      ((s.engine c e).output = [] → d.pipe = [] → d.block = 8 → d.tailed = false →
        (t.engine c e).writes ++ (t.engine c e).output =
          (s.engine c e).writes ++ tailPieces s c e d.cmd geo x d ∧
        (t.engine c e).drain = some { d with tailed := true })

/-- WRITE_BACK (R245, R247, R253, R599): the first piece of the write queue is written, a segment as one write, and frees
its credit; a piece that meets a fault stays with what is still to be written; a ghost's is dropped and counted. -/
def Rules.WriteBack : Prop :=
  ∀ (c : Ch) (e : SlotId) (s : State) (p : Piece) (rest : List Piece) (a : MemAccess), s.dev.powered = true →
    s.arithOn c = true → (s.engine c e).writes = p :: rest →
    a = { req := if p.owner.scan then .scan c e else .drain c e, ctx := p.owner.ctx, va := p.va, write := true
          info := p.owner.info } →
    (s.isGhost c p.owner.slot p.owner.epoch = true →
      ∃ t, Sys2Proof.Machine.exec (.writeBack c e) s = .next t ∧ (t.engine c e).writes = rest ∧ s.sameStores t ∧
        t.rd (engPage c p.owner.slot) Reg.engSlotId_GHOST =
          min (s.rd (engPage c p.owner.slot) Reg.engSlotId_GHOST + 1) (2 ^ Reg.engSlotId_GHOST.w - 1)) ∧
    (s.isGhost c p.owner.slot p.owner.epoch = false → p.more = true →
      ∃ t, Sys2Proof.Machine.exec (.writeBack c e) s = .next t ∧ (t.engine c e).writes = rest ∧
        (t.engine c e).assembling = (s.engine c e).assembling ++ [p] ∧ s.sameStores t ∧ t = { s with chans := t.chans }) ∧
    (∀ u qs, s.isGhost c p.owner.slot p.owner.epoch = false → p.more = false → (s.engine c e).assembling = [] →
      s.writeSome a [p] = (u, qs) →
      ∃ t, Sys2Proof.Machine.exec (.writeBack c e) s = .next t ∧ u.sameStores t ∧
        (t.engine c e).writes = qs.take 1 ++ rest ∧
        (qs = [] → (t.engine c e).writeCredit.owed = (s.engine c e).writeCredit.owed + 1)) ∧
    (∀ u, s.isGhost c p.owner.slot p.owner.epoch = false → p.more = false → (s.engine c e).assembling ≠ [] →
      s.writeWhole a ((s.engine c e).assembling ++ [p]) = (u, true) →
      ∃ t, Sys2Proof.Machine.exec (.writeBack c e) s = .next t ∧ (t.engine c e).writes = rest ∧
        (t.engine c e).assembling = [] ∧ u.sameStores t ∧
        (t.engine c e).writeCredit.owed = (s.engine c e).writeCredit.owed + 1)

/-- DRAIN_COMPLETE (R231, R252, R655): with the last write accepted the tile's commands complete OK, the slot is FREE,
and the drain is counted and signalled. -/
def Rules.DrainComplete : Prop :=
  ∀ (c : Ch) (e : SlotId) (s : State) (d : Drain), s.dev.powered = true → (s.engine c e).drain = some d →
    s.engRuns c e = true → sendsPartial d.cmd = false → d.block = 8 → d.tailed = true → d.pipe = [] →
    (s.engine c e).output = [] → (s.engine c e).writes = [] → (s.engine c e).assembling = [] →
    ∃ t, Sys2Proof.Machine.exec (.drainComplete c e) s = .next t ∧ (t.tile c e d.slot).state = .free ∧
      (t.engine c e).drain = none ∧ (∀ k ∈ (s.tile c e d.slot).closing, CompletedWith s t c k stOk) ∧
      t.rd (.eng c e) Reg.engDrainCnt_TILES =
        min (s.rd (.eng c e) Reg.engDrainCnt_TILES + 1) (2 ^ Reg.engDrainCnt_TILES.w - 1) ∧
      (t.rd (.eng c e) Reg.intRaw_RAW).testBit 0 = true ∧ s.sameStores t

/-- ARGMAX_MERGE (R241, R399, R585): the candidates of the command's positions are read and merged, and the merged ones
are written; the command then completes OK, or TILE_LOST where a candidate was poisoned. -/
def Obligations.ArgmaxMerge : Prop :=
  ∀ (c : Ch) (e : SlotId) (ext : List Byte) (s u : State) (k : EngCmd) (o : ReadOut) (cs : List (Nat × List Cand)),
    s.dev.powered = true → (s.engine c e).queue.head? = some k → k.op = opArgmax → (s.engine c e).drain = none →
    s.engRuns c e = true → s.ctxRuns k.ctx = true → s.argmaxReads (drainAccess c e k) k ext = (u, o, cs) →
    o.done = true →
    ∃ t, Sys2Proof.Machine.exec (.argmaxMerge c e ext) s = .next t ∧
      (∀ v, o.poisoned = false → u.argmaxWrites (drainAccess c e k) k cs = (v, true) →
        v.sameStores t ∧ CompletedWith s t c k stOk ∧ (t.engine c e).queue.map (·.uid) = (s.engine c e).queue.tail.map (·.uid)) ∧
      (o.poisoned = true → s.sameStores t ∧ CompletedWith s t c k stTileLost ∧
        (t.engine c e).queue.map (·.uid) = (s.engine c e).queue.tail.map (·.uid))


/-! ## Credits, crossings and tandem chains (chapters 1 and 6) -/

/-- CREDIT_RETURN (R33, R35, R201, R206): one freed entry's credit goes back to the queue's producer; a credit that the
ingress returns takes a landing entry with it, and none goes back while its class withholds. -/
def Rules.CreditReturns : Prop :=
  ∀ (c : Ch) (s : State), s.dev.powered = true →
    (∀ r : RingId, (s.ringOf c r).owed ≠ 0 →
      ∃ t, Sys2Proof.Machine.exec (.creditReturn (.descriptors c r)) s = .next t ∧
        (t.ringOf c r).credits = (s.ringOf c r).credits + 1 ∧ (t.ringOf c r).owed = (s.ringOf c r).owed - 1) ∧
    (∀ e : SlotId, (s.engine c e).credit.owed ≠ 0 →
      ∃ t, Sys2Proof.Machine.exec (.creditReturn (.commands c e)) s = .next t ∧
        (t.engine c e).credit = ⟨(s.engine c e).credit.held + 1, (s.engine c e).credit.owed - 1⟩) ∧
    (∀ (e : SlotId) (l : Fin 8), ((s.engine c e).laneCredits l).owed ≠ 0 →
      ∃ t, Sys2Proof.Machine.exec (.creditReturn (.lane c e l)) s = .next t ∧ (t.engine c e).laneCredits l =
        ⟨((s.engine c e).laneCredits l).held + 1, ((s.engine c e).laneCredits l).owed - 1⟩) ∧
    (∀ e : SlotId, (s.engine c e).drainCredit.owed ≠ 0 →
      ∃ t, Sys2Proof.Machine.exec (.creditReturn (.drain c e)) s = .next t ∧
        (t.engine c e).drainCredit = ⟨(s.engine c e).drainCredit.held + 1, (s.engine c e).drainCredit.owed - 1⟩) ∧
    (∀ e : SlotId, (s.engine c e).writeCredit.owed ≠ 0 →
      ∃ t, Sys2Proof.Machine.exec (.creditReturn (.write c e)) s = .next t ∧
        (t.engine c e).writeCredit = ⟨(s.engine c e).writeCredit.held + 1, (s.engine c e).writeCredit.owed - 1⟩) ∧
    (∀ cls : Fin 4, ((s.chan c).upCredit cls).owed ≠ 0 →
      ∃ t, Sys2Proof.Machine.exec (.creditReturn (.chToHub c cls)) s = .next t ∧
        ((t.chan c).upCredit cls).held = ((s.chan c).upCredit cls).held + 1 ∧
        ((t.chan c).upCredit cls).owed = ((s.chan c).upCredit cls).owed - 1) ∧
    (∀ cls : Fin 4, s.withholds c cls = true →
      Sys2Proof.Machine.exec (.creditReturn (.hubToCh c cls)) s = .next s) ∧
    (∀ (cls : Fin 4) (i : Nat) (u : State), ((s.chan c).downCredit cls).owed ≠ 0 →
      s.takeLanding c cls none = some (i, u) →
      ∃ t, Sys2Proof.Machine.exec (.creditReturn (.hubToCh c cls)) s = .next t ∧
        ((t.chan c).downCredit cls).held = ((s.chan c).downCredit cls).held + 1 ∧
        ((t.chan c).downCredit cls).backed = ((s.chan c).downCredit cls).backed + 1 ∧
        (t.chan c).landing = (u.chan c).landing) ∧
    (∀ (e : SlotId) (cls : Fin 4) (i : Nat) (u : State),
      (∀ k, k < cls.val → ((s.engine c e).relay.credit k).owed = 0 ∨ s.withholds c k = true) →
      ((s.engine c e).relay.credit cls).owed ≠ 0 → s.takeLanding c cls none = some (i, u) →
      ∃ t, Sys2Proof.Machine.exec (.creditReturn (.relay c e)) s = .next t ∧
        ((t.engine c e).relay.credit cls).held = ((s.engine c e).relay.credit cls).held + 1 ∧
        ((t.engine c e).relay.credit cls).backed = ((s.engine c e).relay.credit cls).backed + 1 ∧
        (t.chan c).landing = (u.chan c).landing)

/-- QUEUE_CROSSING (R36, R383, R565): the first entry of a dual-clock queue becomes visible to its consumer: a tail to the
fetcher, a block to the channel's ingress or to the hub switch; a block that was dropped on its way gives its credit back. -/
def Rules.QueueCrossings : Prop :=
  ∀ (c : Ch) (s : State) (x : Crossed) (n : Nat) (rest : List (Crossed × Nat)), s.dev.powered = true →
    s.replayOn c = false → s.mayRecord c = true →
    ((s.chan c).toCh.entries = (x, n) :: rest → s.arithOn c = true →
      ∃ t, Sys2Proof.Machine.exec (.queueCrossing (.toCh c)) s = .next t ∧ (t.chan c).toCh.entries = rest ∧
        (t.chan c).toCh.consumed = (s.chan c).toCh.consumed + 1 ∧
        (∀ r v, x = .tail r v → (t.ringOf c r).tailSeen = v ∧ (t.chan c).ingress = (s.chan c).ingress) ∧
        (∀ m, x = .block m → (t.chan c).ingress = (s.chan c).ingress ++ [m])) ∧
    ((s.chan c).fromCh.entries = (x, n) :: rest →
      ∃ t, Sys2Proof.Machine.exec (.queueCrossing (.fromCh c)) s = .next t ∧ (t.chan c).fromCh.entries = rest ∧
        (∀ m, x = .block m → (t.chan c).switch = (s.chan c).switch ++ [m]) ∧
        ∀ m, x = .dropped (some m) → ((t.chan c).upCredit m.block.hdr.cls).owed =
          ((s.chan c).upCredit m.block.hdr.cls).owed + 1)

/-- TANDEM_BLOCK_SEND (R194, R201 to R203, R515, R530, R531, R599): a block moves over one hop under a credit of its class,
from the relay cell with its slot's epoch, within the channel or towards the hub, and from the hub into a channel or to a port; a ghost's is
dropped. -/
def Rules.TandemBlocksMove : Prop :=
  ∀ s : State, s.dev.powered = true →
    (∀ (c : Ch) (e : SlotId) m ms, s.engRuns c e = true → (s.engine c e).relay.sending = m :: ms →
      s.mayRelay c e m = true →
      ∃ t, Sys2Proof.Machine.exec (.tandemBlockSend (.relay c e)) s = .next t ∧
        (t.engine c e).relay.sending = ms ∧
        (m.localTo c = true → ∃ b, (t.engine c e).relay.sent =
            (s.engine c e).relay.sent ++ [{ Moving.leaving s c e m with backed := b }] ∧
          (t.chan c).ingress = (s.chan c).ingress ++ [{ Moving.leaving s c e m with backed := b }] ∧
          ((t.engine c e).relay.credit m.block.hdr.cls).held =
            ((s.engine c e).relay.credit m.block.hdr.cls).held - 1) ∧
        (m.localTo c = false → (t.engine c e).relay.sent = (s.engine c e).relay.sent ++ [Moving.leaving s c e m] ∧
          (t.chan c).fromCh.entries.map (·.1) =
            (s.chan c).fromCh.entries.map (·.1) ++ [.block (Moving.leaving s c e m)] ∧
          ((t.chan c).upCredit m.block.hdr.cls).held = ((s.chan c).upCredit m.block.hdr.cls).held - 1)) ∧
    (∀ (c : Ch) m ms d, (s.chan c).switch = m :: ms → d = m.block.hdr.dch → s.replayHolds c = false →
      s.maySwitch m = true →
      ∃ t, Sys2Proof.Machine.exec (.tandemBlockSend (.hubFromCh c)) s = .next t ∧ (t.chan c).switch = ms ∧
        ((t.chan c).upCredit m.block.hdr.cls).owed = ((s.chan c).upCredit m.block.hdr.cls).owed + 1 ∧
        (s.staleBlock m.block = false → m.next = 16 → s.isReady d = true →
          ((t.chan d).downCredit m.block.hdr.cls).held = ((s.chan d).downCredit m.block.hdr.cls).held - 1 ∧
          ∃ b, (t.chan d).toCh.entries.map (·.1) =
            (s.chan d).toCh.entries.map (·.1) ++ [.block { m with backed := b }]) ∧
        (s.staleBlock m.block = false → m.next ≠ 16 → Tab.get [] (t.port m.next).egress (1 + m.block.hdr.cls) =
          Tab.get [] (s.port m.next).egress (1 + m.block.hdr.cls) ++
            [{ body := .block m.block, bytes := blockSize m.block }]) ∧
        (s.staleBlock m.block = true ∨ m.next = 16 ∧ s.isReady d = false →
          t.ports = s.ports ∧ (t.chan d).toCh = (s.chan d).toCh)) ∧
    (∀ (p : PortId) (cls : Fin 4) n b d, completeBlock (Tab.get [] (s.port p).rx (1 + cls)) = some (n, b) →
      (∀ k, k < cls.val → completeBlock (Tab.get [] (s.port p).rx (1 + k)) = none) → d = b.hdr.dch →
      s.replayHolds d = false → s.isReady d = true → 0 < ((s.chan d).downCredit cls).held →
      s.withholds d cls = false →
      ∃ t, Sys2Proof.Machine.exec (.tandemBlockSend (.hubFromPort p)) s = .next t ∧
        Tab.get [] (t.port p).rx (1 + cls) = (Tab.get [] (s.port p).rx (1 + cls)).drop n ∧
        Tab.get 0 (t.port p).owed (1 + cls) = Tab.get 0 (s.port p).owed (1 + cls) + n ∧
        ((t.chan d).downCredit cls).held = ((s.chan d).downCredit cls).held - 1 ∧
        ∃ f, (t.chan d).toCh.entries.map (·.1) = (s.chan d).toCh.entries.map (·.1) ++
          [.block { block := { b with hdr := { b.hdr with cls := cls } }, port := some p.val, backed := f }])

/-- BLOCK_ACCEPTED (R190, R668): the next hop has taken a block of a tile whole, so that it is no longer under way; with the eighth its commands complete OK and
the slot is FREE. -/
def Rules.BlockAccepted : Prop :=
  ∀ (c : Ch) (e : SlotId) (s : State) (m : Moving) (ms : List Moving) (n : Nat), s.dev.powered = true →
    (s.engine c e).relay.sent = m :: ms → m.tile = some n →
    s.underWay c m = false →
    ∃ t, Sys2Proof.Machine.exec (.blockAccepted c e) s = .next t ∧
      ((s.tile c e n).accepted < 7 → (t.tile c e n).accepted = (s.tile c e n).accepted + 1 ∧
        (t.tile c e n).state = (s.tile c e n).state ∧ (t.engine c e).relay.sent = ms) ∧
      (7 ≤ (s.tile c e n).accepted → (t.tile c e n).state = .free ∧
        ∀ k ∈ (s.tile c e n).closing, CompletedWith s t c k stOk)

/-- TANDEM_INGRESS_ARRIVAL and LANDED_BLOCK_MOVE (R204 to R206): the block at the ingress goes to the relay cell of the
engine that awaits it, which has room for it and for which nothing has landed, or it lands in a free entry, or waits where
its class withholds; a landed block moves on to the engine that awaits it. -/
def Rules.BlocksLand : Prop :=
  ∀ (c : Ch) (s : State), s.dev.powered = true → s.replayOn c = false →
    (∀ m ms h, s.arithOn c = true → s.mayRecord c = true → (s.chan c).ingress = m :: ms → h = m.block.hdr →
      s.ghostBlock m = false →
      (∀ e n, s.receiverOf c h = some (e, n) → (s.engine c e).relay.occ < 2 →
        (s.chan c).landed h.dctx h.tag = [] →
        ∃ t, Sys2Proof.Machine.exec (.tandemIngressArrival c) s = .next t ∧ (t.chan c).ingress = ms ∧
          (t.engine c e).relay.received = (s.engine c e).relay.received ++ [{ m with backed := false }]) ∧
      (∀ i u, s.receiverOf c h = none → m.backed = false → s.takeLanding c h.cls none = some (i, u) →
        ∃ t, Sys2Proof.Machine.exec (.tandemIngressArrival c) s = .next t ∧ (t.chan c).ingress = ms ∧
          (∀ x, (Tab.get x (t.chan c).landing i).block = some { m with backed := false }) ∧
          t.rd (.tnd c) Reg.tndCnt_LANDED =
            min (s.rd (.tnd c) Reg.tndCnt_LANDED + 1) (2 ^ Reg.tndCnt_LANDED.w - 1)) ∧
      (s.receiverOf c h = none → m.backed = false → s.withholds c h.cls = true → ms = [] →
        Sys2Proof.Machine.exec (.tandemIngressArrival c) s = .next s)) ∧
    (∀ (e : SlotId) n i m, s.landedFor c e = some (n, i, m) → s.ghostBlock m = false → s.engRuns c e = true →
      (s.engine c e).relay.occ < 2 →
      ∃ t, Sys2Proof.Machine.exec (.landedBlockMove c e) s = .next t ∧
        (t.engine c e).relay.received = (s.engine c e).relay.received ++ [{ m with backed := false }] ∧
        (t.chan c).landing = Tab.erase (s.chan c).landing i)

/-- BLOCK_FOLD (R190, R196, R198 to R200): a block enters the totals of the tile that awaits it, a MID's goes on under its
own tag, and the eighth of a TAIL ends the tile; a break marker and a block of another kind lose the tile, with their
status; one that was folded before, or that no tile awaits, is released and counted. -/
def Rules.BlocksFold : Prop :=
  ∀ (c : Ch) (e : SlotId) (s : State) (m : Moving) (ms : List Moving), s.dev.powered = true →
    (s.engine c e).relay.received = m :: ms → s.engRuns c e = true → s.ghostBlock m = false →
    ((s.engine c e).awaiting m.block.hdr = none → s.foldWaits c e m = false →
      ∃ t, Sys2Proof.Machine.exec (.blockFold c e) s = .next t ∧ (t.engine c e).relay.received = ms ∧
        (t.engine c e).tiles = (s.engine c e).tiles ∧ (t.rd (.tnd c) Reg.intRaw_RAW).testBit 3 = true ∧
        t.rd (.tnd c) Reg.tndCnt_DUPS = min (s.rd (.tnd c) Reg.tndCnt_DUPS + 1) (2 ^ Reg.tndCnt_DUPS.w - 1)) ∧
    (∀ n x w k geo, (s.engine c e).awaiting m.block.hdr = some (n, x) → s.ctxRuns x.ctx = true → x.await = some w →
      x.last = some k → x.geo = some geo →
      ∃ t, Sys2Proof.Machine.exec (.blockFold c e) s = .next t ∧
        (m.block.hdr.kind = kindBreak → (t.tile c e n).state = .free ∧
          ∀ q ∈ x.closing, CompletedWith s t c q (breakStatus m.block.hdr.cause)) ∧
        (m.block.hdr.kind ≠ kindBreak → bitsOf w.folded m.block.hdr.block 1 = 1 →
          t.tile c e n = x ∧ (t.rd (.tnd c) Reg.intRaw_RAW).testBit 3 = true) ∧
        (m.block.hdr.kind ≠ kindBreak → bitsOf w.folded m.block.hdr.block 1 = 0 → m.block.hdr.tkind ≠ x.tkind →
          (t.tile c e n).state = .free ∧ ∀ q ∈ x.closing, CompletedWith s t c q stFormatMismatch) ∧
        (m.block.hdr.kind ≠ kindBreak → bitsOf w.folded m.block.hdr.block 1 = 0 → m.block.hdr.tkind = x.tkind →
          (m.block.hdr.kind = kindStats ↔ geo.op = opStats) →
          (t.tile c e n).totals = (x.fold geo w m.block).totals ∧ (t.tile c e n).stats = (x.fold geo w m.block).stats ∧
          (tRole k.descs = roleMid → ∃ b, (t.engine c e).relay.sending = (s.engine c e).relay.sending ++
            [{ block := b, next := tNext k.descs, tile := some n }] ∧ b.hdr.block = m.block.hdr.block) ∧
          (tRole k.descs ≠ roleMid → (w.folded ||| 2 ^ m.block.hdr.block) ≠ 0xff →
            t.tile c e n = x.fold geo w m.block) ∧
          (tRole k.descs = roleTail → (w.folded ||| 2 ^ m.block.hdr.block) = 0xff → hdPark k.descs = false →
            (t.tile c e n).state = .draining ∧ (t.engine c e).drains = (s.engine c e).drains ++ [n])))

/-- LANDING_SPILL and LANDING_SPILL_DONE (R208): a landed block of a withholding class whose context is not resident is
sealed into its context's save area; its entry is then free, and the spill is counted and signalled. -/
def Rules.LandingSpills : Prop :=
  ∀ (c : Ch) (entry : Fin 128) (s : State), s.dev.powered = true →
    (∀ l m, ((s.chan c).landing.find? fun l => l.1 = entry.val) = some (entry.val, l) → l.block = some m →
      s.withholds c l.cls = true → s.slotOfCtx m.block.hdr.dctx = none → l.spilling = false → s.arithOn c = true →
      ∃ t, Sys2Proof.Machine.exec (.landingSpill c entry) s = .next t ∧
        (∃ off, ∀ x, Tab.get x (t.chan c).landing entry = { l with spilling := true, spillAt := off }) ∧
        s.sameStores t ∧ t = { s with chans := t.chans, drawn := t.drawn }) ∧
    (∀ l m u, l = Tab.get { cls := 0, shared := false } (s.chan c).landing entry → l.spilling = true →
      l.block = some m →
      s.sealVa { req := .landing c entry, ctx := m.block.hdr.dctx
                 va := s.saveRegion c m.block.hdr.dctx + l.spillAt, write := true }
        (blockSize m.block) = (u, true) →
      ∃ t, Sys2Proof.Machine.exec (.landingSpillDone c entry) s = .next t ∧
        (t.chan c).landing = Tab.erase (s.chan c).landing entry ∧
        (t.chan c).spills = (s.chan c).spills ++
          [{ ctx := m.block.hdr.dctx, key := s.dev.sealKey, offset := l.spillAt, block := m }] ∧
        (t.rd (.tnd c) Reg.intRaw_RAW).testBit 1 = true ∧ u.sameStores t)


/-! ## SCAN and FORK (chapter 10) -/

/-- A SCAN engine command is at the head of its queue; its engine and its context run, and its pages are not pinned. -/
def ScanAtHead (s : State) (c : Ch) (e : SlotId) (k : EngCmd) : Prop :=
  s.dev.powered = true ∧ (s.engine c e).queue.head? = some k ∧ k.op = opScan ∧ s.engRuns c e = true ∧
    s.ctxRuns k.ctx = true

/-- Another command of the same stream waits in the paddock. -/
def BehindInPaddock (s : State) (c : Ch) (k : EngCmd) : Prop :=
  ∃ p ∈ (s.chan c).paddocked, scanStream p.2.cmd = scanStream k

/-- The channel has one record for each page of a stream. -/
def OneRecordEach (s : State) (c : Ch) (n : Nat) : Prop :=
  ∀ p ∈ (s.chan c).pages, ∀ q ∈ (s.chan c).pages, p.index = q.index → n ∈ p.sharers → n ∈ q.sharers → p = q

/-- SCAN_HEAD_CHECK (R335 to R337, R334, R655): a head whose pages are ready, with none of its stream in the paddock, pins
them; another enters the paddock, from which it may go on to the re-entry position; with the paddock full it waits at the
head and the wait is signalled. -/
def Rules.ScanHeadChecks : Prop :=
  ∀ (c : Ch) (e : SlotId) (s : State) (k : EngCmd), ScanAtHead s c e k → (s.chan c).pinned k = false →
    s.mayRecord c = true →
    ∃ t, Sys2Proof.Machine.exec (.scanHeadCheck c e) s = .next t ∧ s.sameStores t ∧
      (¬ BehindInPaddock s c k → (s.chan c).pagesReady k = true → OneRecordEach s c (scanStream k) →
        (t.chan c).pinned k = true ∧ (t.engine c e).queue = (s.engine c e).queue) ∧
      (∀ i, BehindInPaddock s c k ∨ (s.chan c).pagesReady k = false → s.padFree c = some i →
        (t.engine c e).queue = (s.engine c e).queue.tail ∧
        ((∃ p ∈ (t.chan c).paddock, p.2.cmd = k ∧ p.2.slot = e) ∨ (t.engine c e).reentry = some k) ∧
        t.rd (.grm c) Reg.grmPaddockStat_ENTERED =
          min (s.rd (.grm c) Reg.grmPaddockStat_ENTERED + 1) (2 ^ Reg.grmPaddockStat_ENTERED.w - 1)) ∧
      (BehindInPaddock s c k ∨ (s.chan c).pagesReady k = false → s.padFree c = none →
        (t.engine c e).queue = (s.engine c e).queue ∧ (t.rd (.grm c) Reg.intRaw_RAW).testBit 1 = true)

/-- SCAN_START (R315, R338): the free scan unit takes the head whose pages are pinned, and otherwise the command in the
re-entry position where no command holds the head in a wait. -/
def Rules.ScanStarts : Prop :=
  ∀ (c : Ch) (e : SlotId) (s : State) (k : EngCmd), s.dev.powered = true → (s.engine c e).scanning = none →
    s.engRuns c e = true → s.ctxRuns k.ctx = true →
    ((s.engine c e).queue.head? = some k → k.op = opScan → (s.chan c).pinned k = true →
      ∃ t, Sys2Proof.Machine.exec (.scanStart c e) s = .next t ∧ (t.engine c e).scanning = some k ∧
        (t.engine c e).queue = (s.engine c e).queue.tail ∧ s.sameStores t) ∧
    ((∀ q, (s.engine c e).queue.head? = some q → q.op ≠ opScan ∨ (s.chan c).pinned q = false) →
      s.headHolds c e = false → (s.engine c e).reentry = some k →
      ∃ t, Sys2Proof.Machine.exec (.scanStart c e) s = .next t ∧ (t.engine c e).scanning = some k ∧
        (t.engine c e).queue = (s.engine c e).queue ∧ s.sameStores t)

/-- SCAN_COMPLETE while inputs are missing or have just been read (R315, R317 to R320, R440, R585): the reads of a, b and
the initial state go on from where they have come; once all are there the recurrence gives the outputs, which enter the
engine's write queue as far as it has credit, and with poisoned inputs nothing. -/
def Rules.ScanComputes : Prop :=
  ∀ (c : Ch) (e : SlotId) (ext : List Byte) (s u : State) (k : EngCmd) (p : ScanProg) (done : Bool),
    s.dev.powered = true → (s.engine c e).scanning = some k → s.engRuns c e = true → s.ctxRuns k.ctx = true →
    k.scan.formed = false → (s.active k.ctx).scanReads c e k ext = (u, p, done) →
    ∃ t, Sys2Proof.Machine.exec (.scanComplete c e ext) s = .next t ∧ u.sameStores t ∧
      (done = false → (t.engine c e).scanning = some { k with scan := p } ∧ t = { u with chans := t.chans }) ∧
      (done = true → u.scanPoisoned c { k with scan := p } = true →
        (t.engine c e).scanning = some { k with scan := { formed := true, lost := true } } ∧
          (t.engine c e).writes = (u.engine c e).writes) ∧
      (∀ out, done = true → u.scanPoisoned c { k with scan := p } = false → out = u.scanOut c { k with scan := p } →
        (t.chan c).narrowed = out.n ∧ ∃ q, (t.engine c e).scanning = some q ∧ q.scan.formed = true ∧
          q.scan.lost = false ∧ q.scan.state = out.state ∧ (t.engine c e).writes ++ q.scan.out = (u.engine c e).writes ++
            (scanParts (u.scanOwner c e k) { k with scan := p } out).flatMap (·.1))

/-- SCAN_COMPLETE once the results are formed (R315, R319, R320, R585): outputs enter the write queue as far as it has
credit; when all have been accepted, the last command of its SCAN forms the sideband record, and then the new state is
written, STEPS counts, and the command completes OK, or TILE_LOST with the state as it was where its inputs were
poisoned. -/
def Rules.ScanCompletes : Prop :=
  ∀ (c : Ch) (e : SlotId) (ext : List Byte) (s u : State) (k : EngCmd) (n : Nat), s.dev.powered = true →
    (s.engine c e).scanning = some k → s.engRuns c e = true → s.ctxRuns k.ctx = true → k.scan.formed = true →
    u = s.active k.ctx →
    ∃ t, Sys2Proof.Machine.exec (.scanComplete c e ext) s = .next t ∧
      (k.scan.out ≠ [] → n = min k.scan.out.length (s.engine c e).writeCredit.held → s.sameStores t ∧
        (t.engine c e).scanning = some { k with scan := { k.scan with out := k.scan.out.drop n } } ∧
        (t.engine c e).writes = (s.engine c e).writes ++ k.scan.out.take n ∧
        (t.engine c e).writeCredit.held = (s.engine c e).writeCredit.held - n) ∧
      (∀ side, k.scan.out = [] → (s.engine c e).scanWrites = false → (s.chan c).lastOf k = true →
        k.scan.tailed = false → side = u.scanSideband c e k ((s.scanBefore c k).plus k.scan.counts) → side ≠ [] →
        s.sameStores t ∧ ∃ q, (t.engine c e).scanning = some q ∧ q.scan.tailed = true ∧ q.scan.state = k.scan.state ∧
          (t.engine c e).writes ++ q.scan.out = (s.engine c e).writes ++ side) ∧
      (k.scan.out = [] → (s.engine c e).scanWrites = false →
        (s.chan c).lastOf k = false ∨ k.scan.tailed = true ∨ nSbaddr k.descs = 0 →
        (t.engine c e).scanning = none ∧
          (k.scan.lost = true → s.sameStores t ∧ CompletedWith s t c k stTileLost) ∧
          (k.scan.lost = false → (u.writeState c k k.scan.state).sameStores t ∧ CompletedWith s t c k stOk) ∧
          (t.stream (scanStream k)).steps =
            if (s.chan c).lastOf k = true ∧ nStepend k.descs = true then
              ((s.stream (scanStream k)).steps + nL k.descs) % 2 ^ 48
            else (s.stream (scanStream k)).steps)

/-- FORK_COMPLETE (R324 to R326): each child is an OPEN stream with the parent's fields and its own STATE_VA, FORKED set
and PARENT naming it; it shares every page of the parent; and the command completes OK. -/
def Obligations.ForkCompletes : Prop :=
  ∀ (c : Ch) (s : State) (f : ForkJob), s.dev.powered = true → s.mapRuns c = true →
    ((s.chan c).forks.find? fun f => !(s.chan c).forkWaits f && s.ctxRuns (s.stream f.parent).ctx) = some f →
    ∃ t, Sys2Proof.Machine.exec (.forkComplete c) s = .next t ∧ s.sameStores t ∧
      (∀ ch ∈ f.children, ∃ q ∈ f.children, q.1 = ch.1 ∧ t.stream ch.1 = childOf (s.stream f.parent) f.parent q.2) ∧
      ((∀ n, (s.stream n).state ≠ strmClosing) → ∀ ch ∈ f.children, ∀ i, i < (s.stream f.parent).pages →
        ∃ p ∈ (t.chan c).pages, p.index = i ∧ f.parent ∈ p.sharers ∧ ch.1 ∈ p.sharers) ∧
      (∀ h ∈ (t.chan c).cmds, h.num = f.num → ∀ r ∈ h.ecs, r.status = some stOk) ∧
      (t.chan c).forks = (s.chan c).forks.erase f


/-! ## Harness ports (chapter 16) -/

/-- LINK_TRAIN and HELLO_RECEIVE (R520, R533): an enabled port that is DOWN with a present peer goes to TRAINING and offers
its lanes; the peer's HELLO is recorded, and the port is UP and its block ON at the width of the common lanes, with FSEQ
and ACKSEQ 0 and full credits; another PROTO ends it with PEER_MISMATCH. -/
def Rules.LinkTraining : Prop :=
  ∀ (p : PortId) (s : State), s.dev.powered = true →
    (∀ lanes, s.flag (.hlk p) Reg.hlkCfg_EN = true → s.present p = true → s.link p = linkDown → s.mainUp = true →
      ∃ t, Sys2Proof.Machine.exec (.linkTrain p lanes) s = .next t ∧ t.link p = linkTraining ∧
        t.out = s.out ++ [.flit p (s.helloOf p lanes)] ∧ t = { s with regs := t.regs, out := t.out }) ∧
    (∀ h : Hello, s.link p = linkTraining →
      ∃ t, Sys2Proof.Machine.exec (.helloReceive p h) s = .next t ∧
        (h.proto ≠ Config.proto → t.link p = linkDown ∧
          t.rd (.hlk p) Reg.hlkStat_LOSTCAUSE = lossCode .peerMismatch) ∧
        (∀ lanes width, h.proto = Config.proto →
          chooseLanes (s.commonLanes p h) (s.rd (.hlk p) Reg.hlkCfg_MAXW) = some (lanes, width) →
          t.link p = linkUpCode ∧ t.blk (.hlk p) = blkOn ∧ t.rd (.hlk p) Reg.hlkStat_WIDTH = width ∧
            t.port p = { credits := fullCredits, lanes := lanes } ∧ t.rd (.hlk p) Reg.hlkPeer_PEER_ID = h.id.toNat ∧
            t.rd (.hlk p) Reg.hlkStat_PEER_PORT = h.port.toNat ∧ (t.rd (.hlk p) Reg.intRaw_RAW).testBit 0 = true ∧
            (s.rd (.hlk p) Reg.hlkPeer_PEER_ID ≠ h.id.toNat ∨ s.rd (.hlk p) Reg.hlkStat_PEER_PORT ≠ h.port.toNat →
              (t.rd (.hlk p) Reg.intRaw_RAW).testBit 4 = true)))

/-- What the loss of a port leaves (R525): LINK is DOWN with the cause, the buffers, queues and credits of the port are
gone, no lock is held by the peer, and the loss is counted and signalled. -/
def PortLost (p : PortId) (cause : LossCause) (s t : State) : Prop :=
  t.link p = linkDown ∧ t.rd (.hlk p) Reg.hlkStat_LOSTCAUSE = lossCode cause ∧ t.port p = {} ∧
    t.rd (.hlk p) Reg.hlkRlock_BUSY = 0 ∧ (t.rd (.hlk p) Reg.intRaw_RAW).testBit 1 = true ∧
    t.rd (.hlk p) Reg.hlkCnt_LOSSES = min (s.rd (.hlk p) Reg.hlkCnt_LOSSES + 1) (2 ^ Reg.hlkCnt_LOSSES.w - 1) ∧
    (s.flag (.hlk p) Reg.hlkRlock_BUSY = true → t.rd (.hlk p) Reg.hlkRlock_LOST = 1)

/-- PORT_LOSS, GOODBYE_RECEIVE, GOODBYE_DRAIN_DONE and RETRAIN_TIMEOUT (R523 to R526): a port that is UP or RETRAINING is
lost with its cause. -/
def Rules.PortsLost : Prop :=
  ∀ (p : PortId) (s : State), s.dev.powered = true → s.linkLive p = true →
    (∀ cause, ∃ t, Sys2Proof.Machine.exec (.portLoss p cause) s = .next t ∧ PortLost p cause s t) ∧
    (∃ t, Sys2Proof.Machine.exec (.goodbyeReceive p) s = .next t ∧ PortLost p .orderly s t) ∧
    ((s.port p).leaving = true →
      ∃ t, Sys2Proof.Machine.exec (.goodbyeDrainDone p) s = .next t ∧ PortLost p .disabled s t) ∧
    (s.link p = linkRetraining →
      ∃ t, Sys2Proof.Machine.exec (.retrainTimeout p) s = .next t ∧ PortLost p .retrainFail s t)

/-- LANE_FAILURE, MAXW_WRITE and RETRAIN_DONE (R521 to R523, R532): the failure of a lane in use and a new MAXW start a
retrain of an UP port; without AUTODEGRADE, or with no lane left, the failure ends the port; the retrain ends at the width
of the common lanes, with the flits after the peer's ACKSEQ first, and counts a lower one. -/
def Rules.LinkRetrains : Prop :=
  ∀ (p : PortId) (s : State), s.dev.powered = true →
    (∀ (lane : Fin 4) fail, s.linkLive p = true → fail = s.rd (.hlk p) Reg.hlkStat_LANE_FAIL ||| 2 ^ lane.val →
      ∃ t, Sys2Proof.Machine.exec (.laneFailure p lane) s = .next t ∧ t.rd (.hlk p) Reg.hlkStat_LANE_FAIL = fail ∧
        (bitsOf (s.port p).lanes lane 1 = 0 → t.link p = s.link p ∧ t = { s with regs := t.regs }) ∧
        (bitsOf (s.port p).lanes lane 1 = 1 → s.flag (.hlk p) Reg.hlkCfg_AUTODEGRADE = false →
          PortLost p .laneFail s t) ∧
        (bitsOf (s.port p).lanes lane 1 = 1 → s.flag (.hlk p) Reg.hlkCfg_AUTODEGRADE = true → fail = 15 →
          PortLost p .noSignal s t) ∧
        (bitsOf (s.port p).lanes lane 1 = 1 → s.flag (.hlk p) Reg.hlkCfg_AUTODEGRADE = true → fail ≠ 15 →
          t.link p = linkRetraining ∧ t.ports = s.ports)) ∧
    (∀ (m : Master) (w : BitVec 2), s.writable m (.hlk p) 0x100 = true →
      ∃ t, Sys2Proof.Machine.exec (.maxwWrite m p w) s = .next t ∧ t.rd (.hlk p) Reg.hlkCfg_MAXW = w.toNat ∧
        t.link p = (if s.rd (.hlk p) Reg.hlkCfg_MAXW ≠ w.toNat ∧ s.link p = linkUpCode then linkRetraining
          else s.link p) ∧ t = { s with regs := t.regs }) ∧
    (∀ h : Hello, s.link p = linkRetraining →
      ∃ t, Sys2Proof.Machine.exec (.retrainDone p h) s = .next t ∧
        (h.proto ≠ Config.proto → PortLost p .peerMismatch s t) ∧
        (h.proto = Config.proto →
          chooseLanes (s.commonLanes p h) (s.rd (.hlk p) Reg.hlkCfg_MAXW) = none → PortLost p .noSignal s t) ∧
        (∀ lanes width, h.proto = Config.proto →
          chooseLanes (s.commonLanes p h) (s.rd (.hlk p) Reg.hlkCfg_MAXW) = some (lanes, width) →
          t.link p = linkUpCode ∧ t.rd (.hlk p) Reg.hlkStat_WIDTH = width ∧ (t.port p).lanes = lanes ∧
            (t.port p).replay = uncovered h.ack.toNat (s.port p).replay ∧ (t.port p).resend = (t.port p).replay ∧
            (t.port p).fseq = (s.port p).fseq ∧ (t.port p).rx = (s.port p).rx ∧
            (t.port p).credits = (s.port p).credits ∧
            (s.rd (.hlk p) Reg.hlkStat_WIDTH < width → (t.rd (.hlk p) Reg.intRaw_RAW).testBit 2 = true)))

/-- No tandem message at the egress of a port is a ghost's (R530). -/
def EgressFresh (p : PortId) (s : State) : Prop :=
  ∀ v, 1 ≤ v → v ≤ 4 → ∀ m ∈ Tab.get [] (s.port p).egress v, ∀ b, m.body = .block b → s.staleBlock b = false

/-- FLIT_TRANSMIT (R511, R514, R516, R518): an UP port sends one flit with its acknowledgement: a NAK that is due, then
the flits of a replay under way, then LINKMGMT and the messages, CTRL first; a new sequenced flit takes the next FSEQ,
stays in the replay buffer and uses a credit; with nothing to send it is IDLE. -/
def Rules.FlitsSent : Prop :=
  ∀ (p : PortId) (s : State), s.dev.powered = true → s.linkUp p = true → EgressFresh p s →
    ∃ t f, Sys2Proof.Machine.exec (.flitTransmit p) s = .next t ∧ t.out = s.out ++ [.flit p f] ∧
      f.ack = BitVec.ofNat 12 (s.port p).accepted ∧ t.regs = s.regs ∧ s.sameStores t ∧
      ((s.port p).nakDue = true → f.ftype = 2 ∧ (t.port p).nakDue = false ∧
        (t.port p).egress = (s.port p).egress ∧ (t.port p).replay = (s.port p).replay) ∧
      (∀ g rest, (s.port p).nakDue = false → (s.port p).resend = g :: rest →
        f.body = g.body ∧ f.fseq = g.fseq ∧ (t.port p).resend = rest ∧ (t.port p).egress = (s.port p).egress) ∧
      (∀ m rest, (s.port p).nakDue = false → (s.port p).resend = [] → (s.port p).replay.length < 1024 →
        (s.port p).mgmt = [] → Tab.get [] (s.port p).egress 0 = m :: rest → m.sent = 0 → m.flits = 1 →
        m.flits ≤ Tab.get 0 (s.port p).credits 0 →
        f.ftype = 1 ∧ f.vc = 0 ∧ f.body = m.body ∧ f.fseq = BitVec.ofNat 12 (((s.port p).fseq + 1) % 4096) ∧
          (t.port p).fseq = ((s.port p).fseq + 1) % 4096 ∧ Tab.get [] (t.port p).egress 0 = rest ∧
          Tab.get 0 (t.port p).credits 0 = Tab.get 0 (s.port p).credits 0 - 1 ∧
          (t.port p).replay.length = (s.port p).replay.length + 1) ∧
      ((s.port p).nakDue = false → (s.port p).resend = [] → (s.port p).mgmt = [] →
        (∀ v, v ≤ 4 → (s.port p).canSend v = false) →
        f.ftype = 0 ∧ (t.port p).fseq = (s.port p).fseq ∧ (t.port p).replay = (s.port p).replay)

/-- FLIT_RECEIVE (R511, R515 to R517, R536): a good flit acknowledges and returns credits; the next one in order enters the
receive buffer of its class; a duplicate is discarded; any other is discarded, and the first such asks for a NAK. -/
def Rules.FlitsReceived : Prop :=
  ∀ (p : PortId) (f : Flit) (corrected : Nat) (s : State), s.dev.powered = true → s.linkUp p = true →
    (∀ q, q ≠ .good →
      ∃ t, Sys2Proof.Machine.exec (.flitReceive p f q corrected) s = .next t ∧ (t.port p).nakSent = true ∧
        ((s.port p).nakSent = false → (t.port p).nakDue = true) ∧ (t.port p).rx = (s.port p).rx ∧
        (t.port p).accepted = (s.port p).accepted ∧ (t.port p).replay = (s.port p).replay ∧
        t.rd (.hlk p) Reg.hlkFec_CORR = (s.rd (.hlk p) Reg.hlkFec_CORR + corrected) % 2 ^ Reg.hlkFec_CORR.w ∧
        (q = .uncorrectable → t.rd (.hlk p) Reg.hlkFec_UNCORR =
          (s.rd (.hlk p) Reg.hlkFec_UNCORR + 1) % 2 ^ Reg.hlkFec_UNCORR.w)) ∧
    (f.ftype = 1 → f.body ≠ .ctrl .cancel →
      ∃ t, Sys2Proof.Machine.exec (.flitReceive p f .good corrected) s = .next t ∧
        (t.port p).replay = uncovered f.ack.toNat (s.port p).replay ∧
        Tab.get 0 (t.port p).credits f.crvc.toNat = Tab.get 0 (s.port p).credits f.crvc.toNat + f.crcnt.toNat ∧
        (f.fseq.toNat = ((s.port p).accepted + 1) % 4096 → (t.port p).accepted = f.fseq.toNat ∧
          Tab.get [] (t.port p).rx f.vc.toNat = Tab.get [] (s.port p).rx f.vc.toNat ++ [f.body]) ∧
        (f.fseq.toNat ≠ ((s.port p).accepted + 1) % 4096 → (t.port p).accepted = (s.port p).accepted ∧
          (t.port p).rx = (s.port p).rx) ∧
        (f.fseq.toNat ≠ ((s.port p).accepted + 1) % 4096 → seqBehind f.fseq.toNat (s.port p).accepted < 2048 →
          (t.port p).nakDue = (s.port p).nakDue) ∧
        (f.fseq.toNat ≠ ((s.port p).accepted + 1) % 4096 → 2048 ≤ seqBehind f.fseq.toNat (s.port p).accepted →
          (t.port p).nakSent = true))

/-- NAK_RECEIVE and REPLAY_TIMEOUT (R518, R519): the flits of the replay buffer after the NAK's point, or all of them, are
sent again before any new flit, and the replay is counted; with REPLAY_LIM replays from one FSEQ the port retrains. -/
def Rules.FlitsReplayed : Prop :=
  ∀ (p : PortId) (s : State), s.dev.powered = true → s.linkUp p = true →
    (∀ ack : BitVec 12, (s.port p).resend = [] →
      ∃ t, Sys2Proof.Machine.exec (.nakReceive p ack) s = .next t ∧
        (t.port p).replay = uncovered ack.toNat (s.port p).replay ∧ (t.port p).resend = (t.port p).replay) ∧
    (∀ f fs, (s.port p).replay = f :: fs →
      ∃ t, Sys2Proof.Machine.exec (.replayTimeout p) s = .next t ∧ (t.port p).resend = f :: fs ∧
        (t.port p).replay = f :: fs ∧
        t.rd (.hlk p) Reg.hlkCnt_REPLAYS =
          min (s.rd (.hlk p) Reg.hlkCnt_REPLAYS + 1) (2 ^ Reg.hlkCnt_REPLAYS.w - 1) ∧
        (t.link p = linkRetraining ↔
          max 1 (s.rd (.hlk p) Reg.hlkCfg_REPLAY_LIM) ≤
            if (s.port p).replays ≠ 0 ∧ (s.port p).replayFrom = f.fseq.toNat then (s.port p).replays + 1 else 1))


/-! ## Gaits, power states and the governor (chapter 18) -/

/-- A gait change may start (R571, R572): the channel is READY in RUN with its clock running, no change is under way and
no context is being saved. -/
def GaitMayStart (s : State) (c : Ch) : Prop :=
  s.changing c = false ∧ s.isReady c = true ∧ s.pstate c = 0 ∧ s.arithOn c = true ∧ s.saving = false

/-- GAIT_REQUEST and GAIT_CHANGE_DONE (R570 to R572): the request is taken up at once where a change may start: CHANGING
sets, the loan of GALLOP ends, and the clock stops where its frequency changes. The change ends with the new gait in force,
the pairs of the old one ended, and the change counted and signalled. -/
def Rules.GaitChanges : Prop :=
  ∀ (c : Ch) (s : State), s.dev.powered = true →
    (∀ m gait, s.writable m .pwr (ctlOff c) = true →
      ∃ t, Sys2Proof.Machine.exec (.gaitRequest m c gait) s = .next t ∧ t.requested c = gaitCode gait ∧
        t.gait c = s.gait c ∧ s.sameStores t ∧
        (s.gait c = gaitCode gait ∨ ¬ GaitMayStart s c → t = s.wr .pwr (Reg.pwrChCtl_GAIT c) (gaitCode gait)) ∧
        (s.gait c ≠ gaitCode gait → GaitMayStart s c → t.changing c = true ∧ (t.chan c).gaitTo = gaitCode gait ∧
          (s.gait c = gGallop → t.rd .pwr (Reg.pwrChStat_LOAN_W c) = 0) ∧
          t.arithOn c = decide (gaitFreq (s.gait c) = gaitFreq (gaitCode gait)))) ∧
    (s.changing c = true → s.arithOn c = true → s.replayOn c = false → s.mayRecord c = true →
      (s.chan c).gaitTo < 4 →
      ∃ t, Sys2Proof.Machine.exec (.gaitChangeDone c) s = .next t ∧ t.gait c = (s.chan c).gaitTo ∧ s.sameStores t ∧
        (t.rd .pwr Reg.intRaw_RAW).testBit 0 = true ∧
        t.rd .pwr Reg.pwrCnt_GAIT_CHANGES = min (s.rd .pwr Reg.pwrCnt_GAIT_CHANGES + 1) (2 ^ 8 - 1) ∧
        (s.requested c = (s.chan c).gaitTo → t.changing c = false) ∧
        (s.gait c = gWalk ∨ s.gait c = gTrot → ∀ e : SlotId, (t.engine c e).paired = false))

/-- PLL_RELOCK_DONE and PLL_LOCK_LOST (R567, R571, R655): a PLL that locks runs at the frequency of the gait in force, or
of the one that a change leads to, and the relock is counted and signalled; a lost lock stops the clock and is signalled; a
PLL that fails for good is cause 5 of a retirement (R604). -/
def Rules.PllLocks : Prop :=
  ∀ (c : Ch) (s : State), s.dev.powered = true →
    (s.railsUp = true → s.arithOn c = false → s.pstate c ≠ 1 → s.pstate c ≠ 2 →
      (∃ t, Sys2Proof.Machine.exec (.pllRelockDone c true) s = .next t ∧ t.arithOn c = true ∧
        t.rd .clk (Reg.clkArith_FREQ c) = gaitFreq (if s.changing c then (s.chan c).gaitTo else s.gait c) ∧
        t.rd .clk (Reg.clkArith_RELOCKS c) = min (s.rd .clk (Reg.clkArith_RELOCKS c) + 1) (2 ^ 8 - 1) ∧
        (t.rd .clk Reg.intRaw_RAW).testBit 0 = true ∧ s.sameWords t [.clk] ∧ s.sameTables t) ∧
      (∃ t, Sys2Proof.Machine.exec (.pllRelockDone c false) s = .next t ∧
        (t.chan c).failing = some ((s.chan c).failing.getD 5) ∧ t = { s with chans := t.chans })) ∧
    (s.arithOn c = true → s.changing c = false →
      ∃ t, Sys2Proof.Machine.exec (.pllLockLost c) s = .next t ∧ t.arithOn c = false ∧
        (t.rd .clk Reg.intRaw_RAW).testBit 1 = true ∧ s.sameWords t [.clk] ∧ s.sameTables t)

/-- SLEEP_REQUEST, PARK_REQUEST, RUN_REQUEST, SLEEP_ENTRY and PARK_ENTRY (R576, R577): PSTATE takes the request; RUN wakes
a channel that rests; a channel enters ASLEEP or PARKED once it may: its clock stops, the stack goes into self-refresh or
the groom into reset, and until then nothing happens. -/
def Rules.PowerRequests : Prop :=
  ∀ (c : Ch) (s : State), s.dev.powered = true →
    (∀ m, s.writable m .pwr (ctlOff c) = true →
      Sys2Proof.Machine.exec (.sleepRequest m c) s = .next (s.wr .pwr (Reg.pwrChCtl_PSTATE c) 1) ∧
      Sys2Proof.Machine.exec (.parkRequest m c) s = .next (s.wr .pwr (Reg.pwrChCtl_PSTATE c) 2) ∧
      ∃ t, Sys2Proof.Machine.exec (.runRequest m c) s = .next t ∧ t.rd .pwr (Reg.pwrChCtl_PSTATE c) = 0 ∧
        ((t.chan c).waking = true ↔ (s.chan c).waking = true ∨ s.pstate c = 1 ∨ s.pstate c = 2)) ∧
    (∃ t, Sys2Proof.Machine.exec (.sleepEntry c) s = .next t ∧
      (s.maySleep c = true → t.pstate c = 1 ∧ t.arithOn c = false ∧ t.rd (.hbmc c) Reg.hbmcStat_SELF_REFRESH = 1 ∧
        t.rd (.grm c) Reg.grmStat_ASLEEP = 1 ∧ t = { s with regs := t.regs }) ∧
      (s.maySleep c = false → t = s)) ∧
    (∃ t, Sys2Proof.Machine.exec (.parkEntry c) s = .next t ∧
      (s.mayPark c = true → t.pstate c = 2 ∧ t.arithOn c = false ∧ t.rd (.grm c) Reg.grmStat_RUNNING = 0 ∧
        t = { s with regs := t.regs }) ∧
      (s.mayPark c = false → t = s))

/-- WAKE_EVENT and WAKE_COMPLETE (R504, R574, R576, R577): what wakes a sleeping channel is there and the wake begins;
once no loan is out, or a period has passed, an ASLEEP channel runs again, and a PARKED one starts with GROOM_BOOT; the
wake is counted and signalled. -/
def Rules.Wakes : Prop :=
  ∀ (c : Ch) (s : State), s.dev.powered = true →
    (∀ cause, s.pstate c = 1 →
      ∃ t, Sys2Proof.Machine.exec (.wakeEvent c cause) s = .next t ∧
        ((t.chan c).waking = true ↔ (s.chan c).waking = true ∨ s.wakes c cause = true) ∧
        t = { s with chans := t.chans }) ∧
    ((s.chan c).waking = true → s.lent = true → (s.chan c).settled = false →
      Sys2Proof.Machine.exec (.wakeComplete c) s = .next s) ∧
    ((s.chan c).waking = true → s.lent = false ∨ (s.chan c).settled = true →
      ∃ t, Sys2Proof.Machine.exec (.wakeComplete c) s = .next t ∧ (t.chan c).waking = false ∧
        t.rd .pwr Reg.pwrCnt_WAKES = min (s.rd .pwr Reg.pwrCnt_WAKES + 1) (2 ^ 8 - 1) ∧
        (t.rd .pwr Reg.intRaw_RAW).testBit 3 = true ∧ s.sameStores t ∧
        (s.pstate c = 1 → t.pstate c = 0 ∧ t.arithOn c = true ∧
          t.rd .clk (Reg.clkArith_FREQ c) = gaitFreq (s.gait c) ∧
          t.rd (.hbmc c) Reg.hbmcStat_SELF_REFRESH = 0 ∧ t.rd (.grm c) Reg.grmStat_ASLEEP = 0) ∧
        (s.pstate c ≠ 1 → t.pstate c = 3 ∧ t.chState c = chGroomBoot))

/-- GOVERNOR_PERIOD (R573 to R575, R583): the period's draws are shown; a loan goes to the holder from the channels that
rest; and each channel's duty falls by one where it drew more than its share, rises where it drew 5 W less, and is 4 after
THROTTLE_N. -/
def Rules.GovernorPeriods : Prop :=
  ∀ (draws : Vector Nat 4) (board : Nat) (s : State), s.dev.powered = true → s.railsUp = true →
    ∃ t, Sys2Proof.Machine.exec (.governorPeriod draws board) s = .next t ∧
      t.rd .pwr Reg.pwrBoard_DRAW_W = min board 1023 ∧ t.dev.throttleRose = false ∧ s.sameStores t ∧
      ∀ (c : Fin 4) limit, limit = (if s.throttled then min (gaitShare (s.gait c)) s.throttleLimit
          else gaitShare (s.gait c) + s.loan c) →
        t.rd .pwr (Reg.pwrChStat_DRAW_W c) = min draws[c] 255 ∧ t.gait c = s.gait c ∧
        t.rd .pwr (Reg.pwrChStat_LOAN_W c) =
          (if s.changing c = false ∧ t.changing c = true ∧ s.gait c = gGallop then 0 else s.loan c) ∧
        t.duty c = if s.dev.throttleRose then 4 else if limit < draws[c] then max 4 (s.duty c - 1)
          else if draws[c] + 5 ≤ limit then min 16 (s.duty c + 1) else s.duty c

/-- UCIE_LINK_ERROR (R584, R604, R656): an error that a retry or a retrain mends is a corrected one; otherwise it is a
persistent one and cause 4 of the channel's retirement. -/
def Rules.UcieErrors : Prop :=
  ∀ (c : Ch) (s : State), s.dev.powered = true → s.mainUp = true → s.chState c ≠ chRetired →
    (∀ retryOk retrainOk, retryOk = true ∨ retrainOk = true →
      ∃ t, Sys2Proof.Machine.exec (.ucieLinkError c retryOk retrainOk) s = .next t ∧
        t.rd (.grm c) Reg.errCntCorr_COUNT =
          min (s.rd (.grm c) Reg.errCntCorr_COUNT + 1) (2 ^ Reg.errCntCorr_COUNT.w - 1) ∧
        s.sameWords t [.grm c] ∧ t = { s with regs := t.regs }) ∧
    (∃ t, Sys2Proof.Machine.exec (.ucieLinkError c false false) s = .next t ∧
      (t.chan c).failing = some ((s.chan c).failing.getD 4) ∧
      t.rd (.grm c) Reg.errCntUncorr_COUNT =
        min (s.rd (.grm c) Reg.errCntUncorr_COUNT + 1) (2 ^ Reg.errCntUncorr_COUNT.w - 1) ∧
      (t.rd .ras Reg.intRaw_RAW).testBit 4 = true)


/-! ## Resets (chapters 1, 17 and 19) -/

/-- What a warm reset leaves (R19, R20, R547): the fields of the main domain's pages whose reset class it covers are at
reset; no ring, command, tile, stream, context or port state is left; the sites keep their slots; the sealing key is new;
the clocks run at 1.2 GHz; and the start is back at WAIT_PERST, unless the farrier restarts. -/
def WarmlyReset (s t : State) : Prop :=
  (∀ p ∈ warmPages, ∀ off, off < 4096 → ∀ f ∈ fieldsAt p off, f.cls ≤ clsWarm →
    bitsOf (t.word p off) f.lo f.w = bitsOf (resetWord p off) f.lo f.w) ∧
  (∀ c : Ch, (t.chan c).rings = [] ∧ (t.chan c).cmds = [] ∧ (t.chan c).engines = [] ∧ (t.chan c).pages = [] ∧
    (t.chan c).slotMap = (s.chan c).slotMap ∧ t.arithOn c = true ∧ t.rd .clk (Reg.clkArith_FREQ c) = 3) ∧
  t.streams = [] ∧ t.ctxs = [] ∧ t.ports = [] ∧ t.xlat = {} ∧ t.dev.sealKey = s.dev.sealKey + 1 ∧
  t.dev.mainRuns = false ∧ (s.dev.farrierUp = true → t.bootStep = stepWaitPerst) ∧
  ∀ c : Ch, (t.slot (fgBox c)).full = false ∧ (t.slot (gfBox c)).full = false

/-- WARM_RESET and PCIE_LINK_DOWN (R19, R547, R557): PERST# and the loss of the link act as a warm reset; at the loss every
port that is UP first says goodbye. -/
def Rules.WarmResets : Prop :=
  ∀ s : State, s.dev.powered = true →
    (s.railsUp = true → ∃ t, Sys2Proof.Machine.exec .warmReset s = .next t ∧ WarmlyReset s t) ∧
    (s.mainUp = true → ∃ t, Sys2Proof.Machine.exec .pcieLinkDown s = .next t ∧ WarmlyReset s t ∧
      ∀ p, s.linkUp p = true → ∃ f, f.body = .goodbye ∧ .flit p f ∈ t.out)

/-- PCIE_LINK_CHANGE (R557, R655, R662): the trained rate is shown and a change of it signalled; a fall of DL_UP acts as a
warm reset. -/
def Rules.PcieLinkChanges : Prop :=
  ∀ (speed : BitVec 4) (width : BitVec 5) (flit up : Bool) (s : State), s.dev.powered = true → s.mainUp = true →
    ∃ t, Sys2Proof.Machine.exec (.pcieLinkChange speed width flit up) s = .next t ∧
      (s.flag .hif Reg.hifLink_DL_UP = true → up = false → t.dev.mainRuns = false ∧ t.ports = []) ∧
      (s.flag .hif Reg.hifLink_DL_UP = false ∨ up = true →
        t.rd .hif Reg.hifLink_SPEED = speed.toNat ∧ t.rd .hif Reg.hifLink_WIDTH = width.toNat ∧
        t.flag .hif Reg.hifLink_FLIT = flit ∧ t.flag .hif Reg.hifLink_DL_UP = up ∧
        (s.rd .hif Reg.hifLink_SPEED ≠ speed.toNat ∨ s.rd .hif Reg.hifLink_WIDTH ≠ width.toNat ∨
          s.flag .hif Reg.hifLink_DL_UP ≠ up → (t.rd .hif Reg.intRaw_RAW).testBit 1 = true) ∧
        s.sameWords t [.hif] ∧ s.sameTables t)

/-- FLR (R19, R503, R555): no ring, command, stream or context is left, the function mask is off and the sealing key new;
the hub blocks that it restores are ON; each READY channel starts again with GROOM_BOOT and another stays as it was. -/
def Rules.FunctionLevelReset : Prop :=
  ∀ s : State, s.dev.powered = true → s.mainUp = true →
    ∃ t, Sys2Proof.Machine.exec .flr s = .next t ∧ t.streams = [] ∧ t.ctxs = [] ∧ t.xlat = {} ∧
      t.dev.functionMask = false ∧ t.dev.sealKey = s.dev.sealKey + 1 ∧ (∀ p ∈ flrPages, t.blk p = blkOn) ∧
      (t.slot hfBox).full = false ∧ (t.slot fhBox).full = false ∧
      ∀ c : Ch, (t.chan c).rings = [] ∧ (t.chan c).cmds = [] ∧ (t.chan c).tileImages = [] ∧
        t.chState c = if s.isReady c then chGroomBoot else s.chState c

/-- COLD_RESET_REQUEST and SURPRISE_REMOVAL (R19, R20, R545, R551, R558, R609): a cold reset leaves every register at reset
and nothing of any table but the sites with their slots; a farrier in RECOVERY or one that restarts performs none; after a
removal the card has no power. -/
def Rules.ColdResets : Prop :=
  ∀ s : State, s.dev.powered = true →
    (∃ t, Sys2Proof.Machine.exec .coldResetRequest s = .next t ∧
      (s.bootStep = stepRecovery ∨ s.dev.farrierUp = false → t = s) ∧
      (s.bootStep ≠ stepRecovery → s.dev.farrierUp = true →
        (∀ p off, t.word p off = resetWord p off) ∧ t.streams = [] ∧ t.ctxs = [] ∧ t.mbx = [] ∧ t.ports = [] ∧
        t.dev.sealKey = s.dev.sealKey + 1 ∧ t.pending = s.pending ∧ t.out = s.out ∧
        ∀ c : Ch, (t.chan c).engines = [] ∧ (t.chan c).cmds = [] ∧ (t.chan c).slotMap = (s.chan c).slotMap)) ∧
    Sys2Proof.Machine.exec .surpriseRemoval s = .next { s with dev := { s.dev with powered := false } }

/-! ## The start (R543 to R548) and retirement (R604, R605) -/

/-- POWER_ON (R543, R545, R549): from power-off or the boot ROM the farrier runs the image of the bank that NEXT names,
or the other one with FALLBACK set, and the start reaches WAIT_PERST with the arith clocks running, or ends in the step that
fails with its code. A start that is past the ROM is not begun again. -/
def Rules.PowerOn : Prop :=
  ∀ (p : PowerOnInputs) (s : State) (first other : BankImage), first = (if p.next then p.bank1 else p.bank0) →
    other = (if p.next then p.bank0 else p.bank1) →
    (s.dev.powered = true → s.bootStep ≠ stepRom → Sys2Proof.Machine.exec (.powerOn p) s = .next s) ∧
    (s.dev.powered = false ∨ s.bootStep = stepRom →
      ∃ t, Sys2Proof.Machine.exec (.powerOn p) s = .next t ∧ t.dev.powered = true ∧
        (bankFail first p.svnMin.toNat = 0 → t.rd .far Reg.farBoot_BANK = bit p.next ∧
          t.rd .far Reg.farBoot_FALLBACK = 0 ∧ t.rd .far Reg.farFwStat_SVN = first.svn.toNat) ∧
        (bankFail first p.svnMin.toNat ≠ 0 → bankFail other p.svnMin.toNat = 0 →
          t.rd .far Reg.farBoot_BANK = bit (!p.next) ∧ t.rd .far Reg.farBoot_FALLBACK = 1) ∧
        (bankFail first p.svnMin.toNat ≠ 0 → bankFail other p.svnMin.toNat ≠ 0 → t.bootStep = stepRecovery ∧
          t.rd .far Reg.farBoot_FAIL = bankFail other p.svnMin.toNat) ∧
        (bankFail first p.svnMin.toNat = 0 ∨ bankFail other p.svnMin.toNat = 0 →
          (p.senseWatts < 300 → t.bootStep = stepPowerLimit ∧ t.rd .far Reg.farBoot_FAIL = 0x03) ∧
          (300 ≤ p.senseWatts → p.railsOk = false → t.bootStep = stepPower ∧ t.rd .far Reg.farBoot_FAIL = 0x04) ∧
          (300 ≤ p.senseWatts → p.railsOk = true → p.pllsOk = false →
            t.bootStep = stepClocks ∧ t.rd .far Reg.farBoot_FAIL = 0x05) ∧
          (300 ≤ p.senseWatts → p.railsOk = true → p.pllsOk = true →
            t.bootStep = stepWaitPerst ∧ ∀ c : Ch, t.arithOn c = true)))

/-- PERST_DEASSERT and CONFIG_REQUEST (R543 step 6, R546, R662): the link comes up at its rate, the hub blocks are ON, and
every channel that is not retired trains its HBM stack; before that a configuration request receives Request Retry Status,
and after it a completion whose value the spec leaves to PCIe. -/
def Rules.PerstDeassert : Prop :=
  ∀ s : State, s.dev.powered = true →
    (∀ speed width, s.bootStep = stepWaitPerst → s.dev.farrierUp = true →
      s.flag .far (Reg.farSb_ASSERTED 0) = false →
      ∃ t, Sys2Proof.Machine.exec (.perstDeassert speed width) s = .next t ∧ t.dev.mainRuns = true ∧
        t.rd .hif Reg.hifLink_SPEED = speed.toNat ∧ t.rd .hif Reg.hifLink_WIDTH = width.toNat ∧
        t.rd .hif Reg.hifLink_DL_UP = 1 ∧ (∀ p ∈ hubBlocks, t.blk p = blkOn) ∧ t.rd .hif Reg.hifReady_HUB_READY = 1 ∧
        (∀ c : Ch, t.chState c = if s.rasState c = rasRetired then chRetired else chHbmTrain) ∧
        ((∃ c : Ch, s.rasState c ≠ rasRetired) → t.bootStep = stepChannels)) ∧
    (∃ t, Sys2Proof.Machine.exec .configRequest s = .next t ∧
      (s.mainUp = false → t = s.emit (.completion .retry 0)) ∧
      (s.mainUp = true → (∃ v, t.out = s.out ++ [.completion .ok v]) ∧ t = { s with out := t.out, drawn := t.drawn }))

/-- HBM_TRAIN_DONE, SELFTEST_DONE, GROOM_BOOT_ACK, ENGINE_CHECK_DONE and CHANNEL_READY_TIMEOUT (R543 steps 7 to 10, R544):
each step that passes takes the channel to the next, with what it brings up; the last leaves it READY in RUN; a step that
fails, or runs out of time, leaves a channel that is not being re-admitted FAILED. -/
def Rules.ChannelStart : Prop :=
  ∀ (c : Ch) (s : State), s.dev.powered = true →
    (s.chState c = chHbmTrain →
      (∃ t, Sys2Proof.Machine.exec (.hbmTrainDone c true) s = .next t ∧ t.chState c = chSelftest ∧
        t.rd (.hbmc c) Reg.hbmcStat_TRAINED = 1) ∧
      (s.rasState c ≠ rasReadmitting →
        ∃ t, Sys2Proof.Machine.exec (.hbmTrainDone c false) s = .next t ∧ t.chState c = chFailed)) ∧
    (s.chState c = chSelftest → s.arithOn c = true → s.dev.farrierUp = true →
      (∃ t, Sys2Proof.Machine.exec (.selftestDone c true) s = .next t ∧ t.chState c = chGroomBoot ∧
        t.rd .ras (Reg.rasChStat_POOL c) = s.poolCount c ∧ t.rd .ras (Reg.rasChStat_FAILED c) = s.failedCount c ∧
        t.rd (.mbx (fgBox c)) Reg.mbxCfg_MODE = 1) ∧
      (s.rasState c ≠ rasReadmitting →
        ∃ t, Sys2Proof.Machine.exec (.selftestDone c false) s = .next t ∧ t.chState c = chFailed)) ∧
    (∀ code, s.chState c = chGroomBoot → s.arithOn c = true → s.dev.farrierUp = true →
      ∃ t, Sys2Proof.Machine.exec (.groomBootAck c code) s = .next t ∧
        (code = 0 → t.chState c = chEngineCheck ∧ (∀ p ∈ unitPages c, t.blk p = blkOn) ∧
          t.rd (.grm c) Reg.grmStat_RUNNING = 1) ∧
        (code ≠ 0 → s.rasState c ≠ rasReadmitting → t.chState c = chFailed)) ∧
    (s.chState c = chEngineCheck → s.arithOn c = true → s.dev.farrierUp = true → (s.chan c).failing = none →
      ∃ t, Sys2Proof.Machine.exec (.engineCheckDone c []) s = .next t ∧ t.chState c = chReady ∧ t.pstate c = 0 ∧
        (∀ e ∈ s.soundSlots c, t.blk (engPage c e) = blkOn) ∧
        (s.rasState c = rasReadmitting → t.rasState c = rasInService)) ∧
    (chHbmTrain ≤ s.chState c → s.chState c ≤ chEngineCheck → s.rasState c ≠ rasReadmitting →
      s.dev.farrierUp = true →
      ∃ t, Sys2Proof.Machine.exec (.channelReadyTimeout c) s = .next t ∧ t.chState c = chFailed)

/-- CHANNEL_RETIRE (R604, R605, R616): for a cause that the channel shows, or that comes with the event, the channel reads
RETIRED with the cause; its commands, tiles and rings are gone, the streams whose home it is are LOST, and the retirement is
signalled. -/
def Rules.ChannelRetires : Prop :=
  ∀ (c : Ch) (cause : BitVec 4) (s : State), s.dev.powered = true → s.mainUp = true → s.dev.farrierUp = true →
    s.chState c ≠ chRetired → s.chState c ≠ chOff →
    (s.chan c).failing = some cause.toNat ∨ cause = 2 ∨ cause = 6 ∨ cause = 7 →
    ∃ t, Sys2Proof.Machine.exec (.channelRetire c cause) s = .next t ∧ t.chState c = chRetired ∧
      t.rasState c = rasRetired ∧ t.rd .ras (Reg.rasChStat_CAUSE c) = cause.toNat ∧
      (t.rd .ras Reg.intRaw_RAW).testBit 2 = true ∧ (t.chan c).cmds = [] ∧ (t.chan c).engines = [] ∧
      (t.chan c).rings = [] ∧ (t.chan c).slotMap = (s.chan c).slotMap ∧
      ∀ n, (s.stream n).state = strmOpen → (s.stream n).home = c → (t.stream n).state = strmLost


/-! ## The farrier's management (chapter 17) -/

/-- The PLDM requests (R551, R552): monitoring shows what the farrier exposes; an update begins unless one is under way;
its table, its components and their data follow in it, and a component is verified after its last data, with its signature
and its security version; without an update each is refused. -/
def Rules.PldmRequests : Prop :=
  ∀ s : State, s.dev.powered = true → s.dev.farrierUp = true →
    Sys2Proof.Machine.exec .pldmMonitor s = .next (s.emit (.pldm s.monitoring)) ∧
    (∃ t, Sys2Proof.Machine.exec .requestUpdate s = .next t ∧ t.dev.update = some (s.dev.update.getD {}) ∧
      t.out = s.out ++ [.pldm (.requestUpdate s.dev.update.isNone)]) ∧
    (∀ comps, ∃ t, Sys2Proof.Machine.exec (.passComponentTable comps) s = .next t ∧
      t.dev.update = s.dev.update.map (fun u => { u with comps := comps }) ∧
      t.out = s.out ++ [.pldm (.passComponents s.dev.update.isSome)]) ∧
    (∀ comp u, s.dev.update = some u →
      ∃ t, Sys2Proof.Machine.exec (.updateComponent comp) s = .next t ∧
        t.out = s.out ++ [.pldm (.updateComponent (u.comps.contains comp))] ∧
        t.dev.update = some (if u.comps.contains comp then { u with current := some comp, data := [] } else u)) ∧
    (∀ data sigOk svn comp u ok, s.dev.update = some u → u.current = some comp →
      ok = (sigOk && decide (s.rd .far Reg.farFwStat_SVN_MIN ≤ BitVec.toNat svn)) →
      (∃ t, Sys2Proof.Machine.exec (.firmwareData data false sigOk svn) s = .next t ∧
        t.dev.update = some { u with data := u.data ++ data } ∧ t = { s with dev := t.dev }) ∧
      ∃ t v, Sys2Proof.Machine.exec (.firmwareData data true sigOk svn) s = .next t ∧ t.dev.update = some v ∧
        v.current = none ∧ ((comp, svn.toNat) ∈ v.verified ↔ ok = true) ∧
        t.out = s.out ++ [.pldm (.verifyComplete comp ok)] ∧
        (comp = .farrier → t.flag .far (bankOk s.otherBank) = ok) ∧
        (ok = true → t.rd .far Reg.farFwStat_PENDING = 1))

/-- ACTIVATE_FIRMWARE and GROOM_PATCH_APPLY (R553, R554, R655): nothing verified is refused; a verified groom component
goes as a patch to every READY groom, which shows PATCHING until it applies it; a verified farrier component restarts the
farrier from step 2 on the other bank. -/
def Rules.FirmwareActivation : Prop :=
  ∀ s : State, s.dev.powered = true →
    (s.dev.farrierUp = true →
      ∃ t, Sys2Proof.Machine.exec .activateFirmware s = .next t ∧
        (s.dev.update.elim [] (·.verified) = [] → t = s.emit (.pldm (.activate false))) ∧
        (∀ u v, s.dev.update = some u → v ∈ u.verified → t.rd .far Reg.farFwStat_PENDING = 0 ∧
          .pldm (.activate true) ∈ t.out ∧
          (v.1 = .groom → ∀ c : Ch, s.isReady c = true → t.rd (.grm c) Reg.grmStat_PATCHING = 1) ∧
          (v.1 = .farrier → t.rd .far Reg.farFwStat_NEXT = s.otherBank ∧
            (s.bootStep ≠ stepRecovery → t.dev.farrierUp = false ∧ t.bootStep = stepVerify)) ∧
          ((∀ w ∈ u.verified, w.1 = .groom) → t.dev.update = none ∧ t.dev.farrierUp = true))) ∧
    (∀ (c : Ch) (patch : BitVec 16), s.flag (.grm c) Reg.grmStat_PATCHING = true → s.mapRuns c = true →
      ∃ t, Sys2Proof.Machine.exec (.groomPatchApply c patch) s = .next t ∧
        t.rd (.grm c) Reg.grmFw_PATCH = patch.toNat ∧ t.rd (.grm c) Reg.grmStat_PATCHING = 0 ∧
        (t.rd (.grm c) Reg.intRaw_RAW).testBit 0 = true ∧ t.rd (.mbx (fgBox c)) Reg.mbxCfg_MODE = 0)

/-- FARRIER_RESTART_DONE (R553, R655): the farrier runs the image of NEXT, or the old one with FALLBACK set where that
fails; the update is over, and a start that had ended reads RUNNING again and is signalled. -/
def Rules.FarrierRestarts : Prop :=
  ∀ (ok : Bool) (s : State), s.dev.powered = true →
    (s.dev.farrierUp = true → Sys2Proof.Machine.exec (.farrierRestartDone ok) s = .next s) ∧
    (s.dev.farrierUp = false →
      ∃ t, Sys2Proof.Machine.exec (.farrierRestartDone ok) s = .next t ∧ t.dev.farrierUp = true ∧
        t.dev.update = none ∧ t.dev.jobs = [] ∧
        (ok = true → t.rd .far Reg.farFwStat_ACTIVE = s.rd .far Reg.farFwStat_NEXT ∧
          t.rd .far Reg.farBoot_FALLBACK = 0) ∧
        (ok = false → t.rd .far Reg.farFwStat_ACTIVE = s.rd .far Reg.farFwStat_ACTIVE ∧
          t.rd .far Reg.farBoot_FALLBACK = 1) ∧
        (s.flag .hif Reg.hifReady_LINKS_STARTED = true → t.bootStep = stepRunning ∧
          (t.rd .far Reg.intRaw_RAW).testBit 2 = true))

/-- The sideband inputs (R559 to R562, R575): an edge is seen and counted, and the fourth within a settling time sets FAST
and holds ASSERTED; a level that settles sets or clears ASSERTED, with THROTTLE_N throttling and an emptied cage ending its
ports; an input that stays ASSERTED too long is STUCK. -/
def Rules.SidebandInputs : Prop :=
  ∀ (n : Fin 10) (s : State), s.dev.powered = true →
    (∀ level, s.flag .far (Reg.farSb_RAW n) ≠ level →
      ∃ t, Sys2Proof.Machine.exec (.sidebandEdge n level) s = .next t ∧ t.flag .far (Reg.farSb_RAW n) = level ∧
        t.rd .far (Reg.farSb_EDGES n) = min (s.rd .far (Reg.farSb_EDGES n) + 1) (2 ^ 16 - 1) ∧
        (∀ a b first rest, (Tab.get {} s.dev.sideband n.val).edges = a :: b :: first :: rest →
          (s.cyc domService < first + settleCycles → t.rd .far (Reg.farSb_ASSERTED n) = 1 ∧
            t.rd .far (Reg.farSb_FAST n) = 1) ∧
          (first + settleCycles ≤ s.cyc domService →
            t.rd .far (Reg.farSb_ASSERTED n) = s.rd .far (Reg.farSb_ASSERTED n)))) ∧
    (s.flag .far (Reg.farSb_RAW n) = true →
      ∃ t, Sys2Proof.Machine.exec (.sidebandSettleExpiry n) s = .next t ∧ t.rd .far (Reg.farSb_ASSERTED n) = 1 ∧
        (n = 1 → s.flag .far (Reg.farSb_ASSERTED n) = false → t.dev.throttleRose = true ∧
          t.rd .pwr Reg.pwrCnt_THROTTLES = min (s.rd .pwr Reg.pwrCnt_THROTTLES + 1) (2 ^ 8 - 1) ∧
          (t.rd .pwr Reg.intRaw_RAW).testBit 1 = true)) ∧
    (s.flag .far (Reg.farSb_RAW n) = false →
      ∃ t, Sys2Proof.Machine.exec (.sidebandSettleExpiry n) s = .next t ∧ t.rd .far (Reg.farSb_ASSERTED n) = 0 ∧
        t.rd .far (Reg.farSb_FAST n) = 0 ∧ t.rd .far (Reg.farSb_STUCK n) = 0 ∧
        (s.flag .far (Reg.farSb_ASSERTED n) = true → ∀ p : PortId, n.val = 2 + p.val / 2 → s.linkLive p = true →
          t.link p = linkDown ∧ t.rd (.hlk p) Reg.hlkStat_LOSTCAUSE = lossCode .presence)) ∧
    (s.flag .far (Reg.farSb_ASSERTED n) = true → s.flag .far (Reg.farSb_STUCK n) = false →
      ∃ t, Sys2Proof.Machine.exec (.sidebandStuckExpiry n) s = .next t ∧ t.rd .far (Reg.farSb_STUCK n) = 1 ∧
        (t.rd .far Reg.intRaw_RAW).testBit 0 = true ∧ s.sameWords t [.far] ∧ s.sameTables t)

/-- LOCKSTEP_MISMATCH and HBM_TEMP_UPDATE (R655, R656, R665): a disagreement of the farrier's cores is a persistent error
and is signalled; a stack's temperature is shown while its channel is not retired. -/
def Rules.LockstepAndTemperature : Prop :=
  ∀ s : State, s.dev.powered = true →
    (∀ pc, ∃ t, Sys2Proof.Machine.exec (.lockstepMismatch pc) s = .next t ∧
      (t.rd .far Reg.intRaw_RAW).testBit 3 = true ∧
      t.rd .far Reg.errCntUncorr_COUNT =
        min (s.rd .far Reg.errCntUncorr_COUNT + 1) (2 ^ Reg.errCntUncorr_COUNT.w - 1) ∧
      s.sameWords t [.far, .ras] ∧ s.sameTables t) ∧
    (∀ (c : Ch) (temp : Byte), s.mainUp = true → s.chState c ≠ chRetired →
      Sys2Proof.Machine.exec (.hbmTempUpdate c temp) s = .next (s.wr (.hbmc c) Reg.hbmcStat_TEMP temp.toNat))


/-! ## Repair (chapter 19) -/

/-- SUBSTITUTION_HOLDOFF_EXPIRY (R593, R594, R600): once the interval has passed, the pool engine that is the remount takes
the slot under the next epoch, and the substitution is counted and signalled; with the pool empty the channel is to retire
with cause 1. -/
def Rules.Substitutions : Prop :=
  ∀ (c : Ch) (e : SlotId) (s : State), s.dev.powered = true → (s.chan c).substWait.contains e.val = true →
    s.dev.farrierUp = true → s.arithOn c = true →
    ∃ t, Sys2Proof.Machine.exec (.substitutionHoldoffExpiry c e) s = .next t ∧
      (∀ k, s.remount c e = some k → t.siteIn c e = s.siteIn c k ∧ t.siteIn c k = 0x7f ∧
        t.epoch c e = (s.epoch c e + 1) % 16 ∧ t.blk (.eng c e) = s.blk (engPage c k) ∧
        t.rd .ras Reg.rasCnt_SUBST = min (s.rd .ras Reg.rasCnt_SUBST + 1) (2 ^ 8 - 1) ∧
        (t.rd .ras Reg.intRaw_RAW).testBit 1 = true ∧ s.sameStores t) ∧
      (s.remount c e = none → (t.chan c).failing = some ((s.chan c).failing.getD 1) ∧ t = { s with chans := t.chans })

/-- A site waits outside every slot while its channel is READY and the farrier runs (R601). -/
def SiteWaits (s : State) (c : Ch) (phys : SlotId) : Prop :=
  s.dev.powered = true ∧ s.isReady c = true ∧ s.arithOn c = true ∧ s.dev.farrierUp = true ∧
    s.slotOfSite c phys = 0x7f

/-- SITE_RETEST and RETEST_DONE (R601, R611, R655): a HELD site is re-tested, or FAILED once it has returned twice; one that
passes, and whose failed columns can be repaired, enters an empty pool slot without its strikes; another is FAILED; the end
is signalled. -/
def Rules.Retests : Prop :=
  ∀ (c : Ch) (phys : SlotId) (s : State), SiteWaits s c phys →
    ((s.site c phys).state = siteHeld →
      ∃ t, Sys2Proof.Machine.exec (.siteRetest c phys) s = .next t ∧
        t.site c phys = { s.site c phys with
          state := if 2 ≤ (s.site c phys).returns then siteFailed else siteRetesting } ∧ t = { s with chans := t.chans }) ∧
    (∀ pass cols, (s.site c phys).state = siteRetesting →
      ∃ t, Sys2Proof.Machine.exec (.retestDone c phys pass cols) s = .next t ∧ s.sameStores t ∧
        (t.rd .ras Reg.intRaw_RAW).testBit 3 = true ∧ (∀ a ∈ t.dev.owed, retestOf c phys a = false) ∧
        (∀ m k, (s.site c phys).retestMap cols = some m → s.emptyPoolSlot c = some k → pass = true →
          t.siteIn c k = phys ∧ (t.site c phys).state = sitePool ∧ (t.site c phys).strikes = [] ∧
          (t.site c phys).returns = min 3 ((s.site c phys).returns + 1) ∧ t.blk (engPage c k) = blkOn) ∧
        (pass = false ∨ (s.site c phys).retestMap cols = none ∨ s.emptyPoolSlot c = none →
          (t.site c phys).state = siteFailed))

/-- HBM_ROW_REPAIR and SOFT_PPR_DONE (R603, R618, R655): a row of the stack that reaches repair enters the remap buffer, or
the channel is to retire with cause 6 where the buffer is full; a soft repair that succeeds takes the row out and leaves a
hard one pending; both are signalled. -/
def Rules.RowRepairs : Prop :=
  ∀ (c : Ch) (row : Nat) (s : State), s.dev.powered = true →
    (∀ persistent, s.flag (.hbmc c) Reg.hbmcStat_TRAINED = true → (s.chan c).rows.contains row = false →
      row < Config.hbmBytes / 1024 →
      ∃ t, Sys2Proof.Machine.exec (.hbmRowRepair c (.hbm row persistent)) s = .next t ∧
        ((s.chan c).rows.length < 16 → (t.chan c).rows = (s.chan c).rows ++ [row] ∧
          t.rd (.hbmc c) Reg.hbmcPpr_REMAP_USED = (s.chan c).rows.length + 1 ∧ t.rd (.hbmc c) Reg.hbmcPpr_BUSY = 1 ∧
          (t.rd (.hbmc c) Reg.intRaw_RAW).testBit 0 = true ∧
          (persistent = true → (t.rd .ras Reg.intRaw_RAW).testBit 4 = true) ∧
          ((s.chan c).rows.length = 15 → (t.rd (.hbmc c) Reg.intRaw_RAW).testBit 2 = true)) ∧
        (16 ≤ (s.chan c).rows.length → (t.chan c).rows = (s.chan c).rows ∧
          (t.chan c).failing = some ((s.chan c).failing.getD 6))) ∧
    (∀ ok, (s.chan c).repairing.contains row = true → s.dev.farrierUp = true → (s.chan c).rows.length ≤ 16 →
      ∃ t, Sys2Proof.Machine.exec (.softPprDone c row ok) s = .next t ∧
        (t.chan c).repairing = (s.chan c).repairing.erase row ∧ (t.rd (.hbmc c) Reg.intRaw_RAW).testBit 1 = true ∧
        t.rd (.hbmc c) Reg.hbmcPpr_REMAP_USED = (t.chan c).rows.length ∧
        (ok = true → (t.chan c).rows = (s.chan c).rows.erase row ∧
          t.rd (.hbmc c) Reg.hbmcPpr_SOFT = min (s.rd (.hbmc c) Reg.hbmcPpr_SOFT + 1) (2 ^ 8 - 1) ∧
          t.rd (.hbmc c) Reg.hbmcPpr_PENDING_HARD = min (s.rd (.hbmc c) Reg.hbmcPpr_PENDING_HARD + 1) (2 ^ 8 - 1)) ∧
        (ok = false → (t.chan c).rows = (s.chan c).rows))

/-- HBM_ROW_REPAIR of a row of the stall or the activation store (R602, R656): a spare row of its bank takes its place with
poisoned zeros, and the failure is a persistent error; with the bank's 16 spares used the channel is to retire with
cause 6. That this command carries R602, and the numbers of the rows, are the model's choices (log entry 88). -/
def Rules.StoreRowRepairs : Prop :=
  ∀ (c : Ch) (row : Nat) (s : State), s.dev.powered = true → s.arithOn c = true → s.dev.farrierUp = true →
    ((s.chan c).stallSpares.contains row = false → row < 64 * 5120 →
      ∃ t, Sys2Proof.Machine.exec (.hbmRowRepair c (.stall row)) s = .next t ∧
        (t.chan c).ast = (s.chan c).ast ∧ (t.chan c).hbm = (s.chan c).hbm ∧
        (t.rd .ras Reg.intRaw_RAW).testBit 4 = true ∧
        (((s.chan c).stallSpares.filter fun r => r / 5120 = row / 5120).length < 16 →
          (t.chan c).stallSpares = (s.chan c).stallSpares ++ [row] ∧
          (t.chan c).stall = (s.chan c).stall.blot 256 (rowRanges 256 5120 row)) ∧
        (16 ≤ ((s.chan c).stallSpares.filter fun r => r / 5120 = row / 5120).length →
          (t.chan c).failing = some ((s.chan c).failing.getD 6) ∧ (t.chan c).stall = (s.chan c).stall)) ∧
    ((s.chan c).astSpares.contains row = false → row < 64 * 1024 →
      ∃ t, Sys2Proof.Machine.exec (.hbmRowRepair c (.ast row)) s = .next t ∧
        (t.chan c).stall = (s.chan c).stall ∧ (t.chan c).hbm = (s.chan c).hbm ∧
        (t.rd .ras Reg.intRaw_RAW).testBit 4 = true ∧ (t.rd (.ast c) Reg.intRaw_RAW).testBit 0 = true ∧
        (((s.chan c).astSpares.filter fun r => r / 1024 = row / 1024).length < 16 →
          (t.chan c).astSpares = (s.chan c).astSpares ++ [row] ∧
          (t.chan c).ast = (s.chan c).ast.blot 128 (rowRanges 128 1024 row)) ∧
        (16 ≤ ((s.chan c).astSpares.filter fun r => r / 1024 = row / 1024).length →
          (t.chan c).failing = some ((s.chan c).failing.getD 6) ∧ (t.chan c).ast = (s.chan c).ast))

/-- The mailbox HF holds a message of a type for a farrier that runs (R501, R610). -/
def HasMessage (s : State) (type seq : Nat) (ws : List Nat) : Prop :=
  s.dev.powered = true ∧ s.mainUp = true ∧ s.dev.farrierUp = true ∧ (s.slot hfBox).full = true ∧
    s.dataWords hfBox = ws ∧ ws.headD 0 % 2 ^ 16 = type ∧ (s.slot hfBox).seq = seq

/-- The farrier has answered a message: where FH was empty and nothing else was owed, its answer stands there (R610). -/
def Answered (s t : State) (type seq code : Nat) : Prop :=
  (s.slot fhBox).full = false → s.dev.answers = [] → s.dev.owed = [] →
    (t.slot fhBox).full = true ∧
      t.dataWords fhBox = ([type + 0x8000, code + seq * 2 ^ 16] ++ List.replicate 14 0).map (· % 2 ^ 32)

/-- READMIT, CHRESET and RETIRE (R609 to R612): a retired channel is re-admitted and a READY one reset, and either starts
again at step 7 with its clock locked; a channel in service is retired with cause 8 and answered; a message that is not well
formed, or whose channel is in another state, is answered with its code. Each takes the message out of HF. -/
def Rules.ChannelMessages : Prop :=
  ∀ (seq : Nat) (ws : List Nat) (s : State),
    (HasMessage s msgReadmit seq ws →
      ∃ t, Sys2Proof.Machine.exec .readmit s = .next t ∧ (t.slot hfBox).full = false ∧
        (wellFormedMsg ws 2 2 = false → Answered s t msgReadmit seq codeBadArg) ∧
        (wellFormedMsg ws 2 2 = true → s.rasState (msgCh ws) ≠ rasRetired →
          Answered s t msgReadmit seq codeNotRetired) ∧
        (wellFormedMsg ws 2 2 = true → s.rasState (msgCh ws) = rasRetired →
          t.rasState (msgCh ws) = rasReadmitting ∧ t.chState (msgCh ws) = chHbmTrain ∧
          t.arithOn (msgCh ws) = true ∧ (⟨msgReadmit, seq, msgCh ws, 0⟩ : OwedAnswer) ∈ t.dev.owed)) ∧
    (HasMessage s msgChreset seq ws →
      ∃ t, Sys2Proof.Machine.exec .chreset s = .next t ∧ (t.slot hfBox).full = false ∧
        (wellFormedMsg ws 2 2 = false → Answered s t msgChreset seq codeBadArg) ∧
        (wellFormedMsg ws 2 2 = true → s.isReady (msgCh ws) = false →
          Answered s t msgChreset seq codeNotReady) ∧
        (wellFormedMsg ws 2 2 = true → s.isReady (msgCh ws) = true →
          t.chState (msgCh ws) = chHbmTrain ∧ (t.chan (msgCh ws)).cmds = [] ∧ (t.chan (msgCh ws)).engines = [] ∧
          (⟨msgChreset, seq, msgCh ws, 0⟩ : OwedAnswer) ∈ t.dev.owed)) ∧
    (HasMessage s msgRetire seq ws →
      ∃ t, Sys2Proof.Machine.exec .retire s = .next t ∧ (t.slot hfBox).full = false ∧
        (wellFormedMsg ws 2 2 = false → Answered s t msgRetire seq codeBadArg) ∧
        (wellFormedMsg ws 2 2 = true → s.rasState (msgCh ws) ≠ rasInService →
          Answered s t msgRetire seq codeNotReady) ∧
        (wellFormedMsg ws 2 2 = true → s.rasState (msgCh ws) = rasInService →
          Answered s t msgRetire seq codeOk ∧ t.chState (msgCh ws) = chRetired ∧
          t.rasState (msgCh ws) = rasRetired ∧ t.rd .ras (Reg.rasChStat_CAUSE (msgCh ws)) = 8))

/-- RETEST and RESTART (R607, R611): a site that is HELD or FAILED is re-tested, and answered when that ends; a LOST stream is
OPEN again on a READY home channel with its new STATE_VA and STEPS; each rejection has its code. -/
def Rules.SiteAndStreamMessages : Prop :=
  ∀ (seq : Nat) (ws : List Nat) (s : State),
    (∀ phys, HasMessage s msgRetest seq ws → phys = bitsOf (ws.getD 1 0) 2 7 →
      ∃ t, Sys2Proof.Machine.exec .retest s = .next t ∧ (t.slot hfBox).full = false ∧
        (wellFormedMsg ws 9 2 = false ∨ 72 ≤ phys → Answered s t msgRetest seq codeBadArg) ∧
        (wellFormedMsg ws 9 2 = true → phys < 72 → (s.site (msgCh ws) phys).state ≠ siteHeld →
          (s.site (msgCh ws) phys).state ≠ siteFailed → Answered s t msgRetest seq codeNotHeld) ∧
        (wellFormedMsg ws 9 2 = true → phys < 72 →
          (s.site (msgCh ws) phys).state = siteHeld ∨ (s.site (msgCh ws) phys).state = siteFailed →
          (s.isReady (msgCh ws) = false ∨ s.slotOfSite (msgCh ws) phys ≠ 0x7f →
            Answered s t msgRetest seq codeNotReady) ∧
          (s.isReady (msgCh ws) = true → s.slotOfSite (msgCh ws) phys = 0x7f →
            (t.site (msgCh ws) phys).state = siteRetesting ∧
            (⟨msgRetest, seq, msgCh ws, phys⟩ : OwedAnswer) ∈ t.dev.owed))) ∧
    (∀ n home va steps, HasMessage s msgRestart seq ws → n = bitsOf (ws.getD 1 0) 0 10 →
      home = bitsOf (ws.getD 1 0) 10 2 → va = ws.getD 2 0 + ws.getD 3 0 * 2 ^ 32 →
      steps = ws.getD 4 0 + ws.getD 5 0 * 2 ^ 32 →
      ∃ t, Sys2Proof.Machine.exec .restart s = .next t ∧ (t.slot hfBox).full = false ∧
        (wellFormedMsg ws 12 6 = false ∨ 2 ^ 48 ≤ va ∨ 2 ^ 48 ≤ steps → Answered s t msgRestart seq codeBadArg) ∧
        (wellFormedMsg ws 12 6 = true → va < 2 ^ 48 → steps < 2 ^ 48 →
          ((s.stream n).state ≠ strmLost → Answered s t msgRestart seq codeNotLost) ∧
          ((s.stream n).state = strmLost → s.isReady home = false → Answered s t msgRestart seq codeHomeDown) ∧
          ((s.stream n).state = strmLost → s.isReady home = true → Answered s t msgRestart seq codeOk ∧
            t.stream n = { s.stream n with state := strmOpen, home := home, stateVa := va, steps := steps })))

/-- ENGINE_RESET (R19): the farrier, or the channel's groom, resets an engine: its queue, tiles and drain are gone, their
commands complete TILE_LOST, and the slot keeps its epoch; from another master it has no effect. -/
def Rules.EngineReset : Prop :=
  ∀ (m : Master) (c : Ch) (e : SlotId) (s : State), s.dev.powered = true →
    (m = .farrier ∨ m = .groom c → s.isReady c = true ∨ s.chState c = chEngineCheck → s.arithOn c = true →
      ∃ t, Sys2Proof.Machine.exec (.engineReset m c e) s = .next t ∧ (t.engine c e).queue = [] ∧
        (t.engine c e).tiles = [] ∧ (t.engine c e).runs = [] ∧ (t.engine c e).drain = none ∧
        t.epoch c e = s.epoch c e ∧ s.sameStores t ∧
        (∀ k ∈ (s.engine c e).queue, CompletedWith s t c k stTileLost) ∧
        (∀ x ∈ (s.engine c e).slots, x.2.state ≠ .free → ∀ k ∈ x.2.closing, CompletedWith s t c k stTileLost)) ∧
    (m ≠ .farrier → m ≠ .groom c → Sys2Proof.Machine.exec (.engineReset m c e) s = .next s)


/-! ## Recorder and replay (chapter 20) -/

/-- MARK (R632): every READY channel whose LEVEL is not OFF begins its mark under the next MARKNO; with none, or while a mark
is under way, nothing happens. MARK_DONE (R628, R632, R633): once no context moves the channel's image is kept under the
sealing key, its log records at its LEVEL from a MARK record on, and the last channel signals the end. -/
def Rules.Marks : Prop :=
  ∀ s : State, s.dev.powered = true →
    (∀ m cs, s.rplWritable m 0x164 = true →
      cs = (List.range 4).filter (fun c => s.isReady c && decide (s.levelOf c ≠ 0)) →
      ∃ t, Sys2Proof.Machine.exec (.mark m) s = .next t ∧
        (cs = [] ∨ s.recorder.marking ≠ [] → t = s) ∧
        (cs ≠ [] → s.recorder.marking = [] → t.recorder.marking = cs ∧
          t.rd .rpl Reg.rplStat_MARKNO = (s.rd .rpl Reg.rplStat_MARKNO + 1) % 2 ^ Reg.rplStat_MARKNO.w ∧
          t.chans = s.chans)) ∧
    (∀ (c : Ch) u, s.recorder.marking.contains c.val = true → s.contextsMove = false → s.dev.farrierUp = true →
      s.changing c = false → s.sealVa (s.markAccess c) (s.markBytes c) = (u, true) →
      ∃ t, Sys2Proof.Machine.exec (.markDone c) s = .next t ∧ u.sameStores t ∧
        t.recorder.images.head? = some (u.markImage c) ∧ (t.log c).recording = true ∧ (t.log c).lvl = s.levelOf c ∧
        (t.log c).filling = [{ dom := domArith c, dseq := 0
                               body := .mark (u.rd .rpl Reg.rplStat_MARKNO) (s.gait c) (s.stallCrcs c) }] ∧
        t.recorder.marking = u.recorder.marking.erase c.val ∧
        (u.recorder.marking.erase c.val = [] → (t.rd .rpl Reg.intRaw_RAW).testBit 0 = true))

/-- BATCH_WRITE and BATCH_ACCEPTED (R629): the first held batch of a log is written at the tail of its ring, where that has
room; once it is written TAIL moves on and the batch is counted. -/
def Rules.Batches : Prop :=
  ∀ (log : Fin 5) (s : State), s.dev.powered = true →
    (∀ b rest, (s.log log).held = b :: rest → (s.log log).writing = none → s.mainUp = true →
      (s.nextTail log ≠ s.rd .rpl (Reg.rplLogPtr_HEAD log) % batchRing (s.rd .rpl (Reg.rplLogBase_LOG2N log)) →
        ∃ t, Sys2Proof.Machine.exec (.batchWrite log) s = .next t ∧ (t.log log).writing = some b ∧
          (t.log log).held = rest ∧ t = { s with recorder := t.recorder }) ∧
      (s.nextTail log = s.rd .rpl (Reg.rplLogPtr_HEAD log) % batchRing (s.rd .rpl (Reg.rplLogBase_LOG2N log)) →
        Sys2Proof.Machine.exec (.batchWrite log) s = .next s)) ∧
    (∀ b u, (s.log log).writing = some b → s.writeBatch log b = (u, true) →
      ∃ t, Sys2Proof.Machine.exec (.batchAccepted log) s = .next t ∧ (t.log log).writing = none ∧
        t.rd .rpl (Reg.rplLogPtr_TAIL log) = s.nextTail log ∧ u.sameStores t ∧
        t.rd .rpl Reg.rplCnt_BATCHES = min (u.rd .rpl Reg.rplCnt_BATCHES + 1) (2 ^ Reg.rplCnt_BATCHES.w - 1))

/-- REPLAY, RPL_STOP and RPL_RESUME (R633, R635, R640, R641): a replay whose image is there under the sealing key, whose
target is READY with the recorded stall regions and free context slots, loads it and is REPLAYING at the recorded gait;
otherwise it stops with SETUP. STOP ends it and resets the target; RESUME continues one that STOPAT or UPSET stopped, or
NO_DATA once the data is placed. -/
def Rules.Replays : Prop :=
  ∀ (m : Master) (s : State), s.dev.powered = true → s.rplWritable m 0x164 = true →
    (∀ (markNo : BitVec 16) (crcs : List Word), s.replayState = rplIdle ∨ s.replayState = rplDone →
      ∃ t, Sys2Proof.Machine.exec (.replay m markNo crcs) s = .next t ∧ s.sameStores t ∧
        (∀ i, (s.recorder.images.find? fun i =>
            i.chan = s.rd .rpl Reg.rplRpCfg_SRC && i.markNo = markNo.toNat) = some i →
          s.isReady s.target = true → i.key = s.dev.sealKey → s.stallCrcs s.target = crcs.map BitVec.toNat →
          (i.ctxs.filter fun r => r.2.state = ctxResident) = [] →
          t.replayState = rplReplaying ∧ t.gait s.target = i.gait % 4 ∧
            (t.chan s.target).cmds = i.cmds.map s.shiftHost) ∧
        ((∀ i ∈ s.recorder.images, ¬ (i.chan = s.rd .rpl Reg.rplRpCfg_SRC ∧ i.markNo = markNo.toNat ∧
            i.key = s.dev.sealKey)) ∨ s.isReady s.target = false ∨ s.stallCrcs s.target ≠ crcs.map BitVec.toNat →
          t.replayState = rplStopped ∧ t.rd .rpl Reg.rplStat_STOPCAUSE = stopSetup ∧
            (t.rd .rpl Reg.intRaw_RAW).testBit 2 = true)) ∧
    (s.replayState = rplReplaying ∨ s.replayState = rplStopped →
      ∃ t, Sys2Proof.Machine.exec (.rplStop m) s = .next t ∧ t.replayState = rplDone ∧
        t.rd .rpl Reg.rplStat_STOPCAUSE = stopHost ∧ (t.rd .rpl Reg.intRaw_RAW).testBit 3 = true ∧
        (s.isReady s.target = true → t.chState s.target = chHbmTrain ∧ (t.chan s.target).cmds = [])) ∧
    (∀ placed cause, s.replayState = rplStopped → cause = s.rd .rpl Reg.rplStat_STOPCAUSE →
      ∃ t, Sys2Proof.Machine.exec (.rplResume m placed) s = .next t ∧
        (cause = stopStopat ∨ cause = stopUpset ∨ cause = stopNoData ∧ placed = true →
          t.replayState = rplReplaying ∧ t.recorder.resumed = true) ∧
        (cause ≠ stopStopat → cause ≠ stopUpset → cause ≠ stopNoData ∨ placed = false → t = s))

/-- REPLAY_RECORD (R637, R639, R640): the target runs the next record of a domain, read from the replay ring: a decision
waits for the choice that takes it, an input for its consumer, a GAP without its data stops the replay with NO_DATA, the stop
point with STOPAT, and END ends it; a record that is not the next, or that is not placed yet, does not run. -/
def Rules.ReplayRecords : Prop :=
  ∀ (r : LogRecord) (s : State), s.dev.powered = true →
    (s.replayOn s.target = false ∨ s.isNext r = false ∨ s.recordPlaced (recUnits r.body) = false →
      Sys2Proof.Machine.exec (.replayRecord r) s = .next s) ∧
    (∀ u ps, s.replayOn s.target = true → s.isNext r = true → s.recordPlaced (recUnits r.body) = true →
      s.reachAll (s.recordAccess (recUnits r.body)) (16 * recUnits r.body) = (u, some ps) →
      ∃ t, Sys2Proof.Machine.exec (.replayRecord r) s = .next t ∧
        (u.stopsAt r = true → t.replayState = rplStopped ∧ t.rd .rpl Reg.rplStat_STOPCAUSE = stopStopat ∧
          u.sameStores t) ∧
        (u.stopsAt r = false →
          (∀ k v, r.body = .dec k v → k ≠ 0x08 → k ≠ 0x0b →
            t.recorder.decisions = u.recorder.decisions ++ [(k, u.shiftDec k v)] ∧
            (∀ d, Tab.get d t.recorder.next r.dom = (r.dseq + 1) % 2 ^ 32) ∧ t.recorder.resumed = false ∧
            t.chans = u.chans) ∧
          (∀ crc payload, r.body = .inData 0x1 true true 0 crc payload →
            t.recorder.inputs = u.recorder.inputs ++
              [{ crc := if crc = 0 then none else some crc, data := some (u.recorder.partial' ++ payload) }] ∧
            t.recorder.partial' = [] ∧ t.chans = u.chans) ∧
          (∀ n, r.body = .gap n → u.recorder.resumed = false →
            t.replayState = rplStopped ∧ t.rd .rpl Reg.rplStat_STOPCAUSE = stopNoData) ∧
          (r.body = .fin → t.replayState = rplDone ∧ t.rd .rpl Reg.rplStat_STOPCAUSE = stopEnd ∧
            (t.rd .rpl Reg.intRaw_RAW).testBit 3 = true)))

/-- A command changes nothing beyond its scope: the table of `scopeOf` names, command by command, the parts of the
state and the kinds of register pages that it may change; every other part and every word of every other page is as it
was, and so is every byte of every store where the command may not store. -/
def Obligations.CommandsStayInScope : Prop :=
  ∀ (i : Instr) (s t : State), Sys2Proof.Machine.exec i s = .next t → (scopeOf i).keeps s t

/-- The reset value of every field (R20, R304, R449, R548): after a cold reset each field of a register word that a
table lists reads its Reset value, every channel's field of HIF_READY is OFF, every block is OFF, every stream is FREE
and every context record NONE, no lock has an owner, every mailbox slot is empty, and no command waits. BLK_ID holds the
block's code and the signature (R652). -/
def Obligations.ResetValues : Prop :=
  (∀ (p : Page) (off : Nat), 4 ≤ off → off < 4096 → off ≠ 0x1c →
    ∀ f ∈ fieldsAt p off, bitsOf (State.reset.word p off) f.lo f.w = f.reset) ∧
  (∀ p : Page, bitsOf (State.reset.word p 0) 0 8 = blockCode p ∧ bitsOf (State.reset.word p 0) 20 12 = 0x5e7) ∧
  (∀ p : Page, State.reset.rd p Reg.intRoute_FARRIER = 1 ∧ State.reset.rd p Reg.intRoute_HOST = 0 ∧
    State.reset.rd p Reg.intRoute_GROOM = if (pageCh? p).isSome then 1 else 0) ∧
  (∀ c : Ch, State.reset.chState c = chOff) ∧ (∀ p : Page, (∀ c r, p ≠ .door c r) → State.reset.blk p = blkOff) ∧
  (∀ n, (State.reset.stream n).state = 0) ∧ (∀ n, (State.reset.ctxRec n).state = 0) ∧
  (∀ p i, (∀ c r, p ≠ .door c r) → i < 4 → State.reset.lockOwner p i = 0) ∧
  (∀ b, (State.reset.slot b).full = false) ∧ State.reset.pending = []

/-! ## The statements -/

/-- Every command answers a next state, keeps the queue and what has left the card, and does nothing without power.
`Rules.EveryCommandAnswersNext`, `Rules.WithoutPowerNothingActs`, `Rules.CommandsKeepQueueAndOutput`. -/
def Obligations.CommandsLeaveQueueAndOutput : Prop :=
  Rules.EveryCommandAnswersNext ∧ Rules.WithoutPowerNothingActs ∧ Rules.CommandsKeepQueueAndOutput

/-- Locks: read-acquire, release by the owner, FORCE of the farrier, and every other write ignored.
`Rules.LockReadAcquire`, `Rules.LockReleaseAndForce`. -/
def Obligations.Locks : Prop :=
  Rules.LockReadAcquire ∧ Rules.LockReleaseAndForce

/-- A send is accepted when FULL is 0 and rejected by its route when FULL is 1; other AtomicOps change nothing.
`Rules.SendsAcceptedWhenEmpty`, `Rules.SendsRejectedWhenFull`, `Rules.UnsupportedAtomicop`. -/
def Obligations.Sends : Prop :=
  Rules.SendsAcceptedWhenEmpty ∧ Rules.SendsRejectedWhenFull ∧ Rules.UnsupportedAtomicop

/-- A message is read, acknowledged, cancelled or timed out. `Rules.ReceiverReadsMessage`,
`Rules.MessagesAcknowledgedCancelledTimedOut`. -/
def Obligations.Messages : Prop :=
  Rules.ReceiverReadsMessage ∧ Rules.MessagesAcknowledgedCancelledTimedOut

/-- Reads that restore RC fields, and accesses of other sizes. `Rules.ReadRestoresRcFields`, `Rules.OddSizedAccesses`. -/
def Obligations.ReadsAndOddAccesses : Prop :=
  Rules.ReadRestoresRcFields ∧ Rules.OddSizedAccesses

/-- Masked MSI-X vectors wait, and an unmasked one sends its one message. `Rules.MaskedVectorsWait`, `Rules.MsixUnmask`. -/
def Obligations.Msix : Prop :=
  Rules.MaskedVectorsWait ∧ Rules.MsixUnmask

/-- The common state machine of blocks: OFF, STARTING, ON, STOPPING. `Rules.EnableSet`, `Rules.EnableClear`,
`Rules.BlockStartStep`, `Rules.BlockStopDone`. -/
def Obligations.BlockStates : Prop :=
  Rules.EnableSet ∧ Rules.EnableClear ∧ Rules.BlockStartStep ∧ Rules.BlockStopDone

/-- The stream window: CLOSE, CLOSE_DISCARD and REHOME. `Rules.StreamClose`, `Rules.StreamRehome`. -/
def Obligations.StreamCloseAndRehome : Prop :=
  Rules.StreamClose ∧ Rules.StreamRehome

/-- State pages: swap in and out, copy on write and copy of backing. `Rules.StatePageTransfers`, `Rules.StatePageCopies`. -/
def Obligations.StatePages : Prop :=
  Rules.StatePageTransfers ∧ Rules.StatePageCopies

/-- The context window: READ, ADMIT, UPDATE, LOAD and EVICT. `Rules.ContextRecords`, `Rules.ContextLoadAndEvict`. -/
def Obligations.ContextRecordOperations : Prop :=
  Rules.ContextRecords ∧ Rules.ContextLoadAndEvict

/-- A context is saved channel by channel and restored from its image. `Rules.ContextSave`, `Rules.ContextRestore`. -/
def Obligations.ContextImages : Prop :=
  Rules.ContextSave ∧ Rules.ContextRestore

/-- The deadline monitor: its window and its checks. `Rules.DeadlineWindow`, `Rules.DeadlineCheck`. -/
def Obligations.DeadlineMonitor : Prop :=
  Rules.DeadlineWindow ∧ Rules.DeadlineCheck

/-- Invalidations start under the lock, and remove every translation in scope. `Rules.InvalidationsStart`,
`Rules.InvalidationRemoves`. -/
def Obligations.Invalidations : Prop :=
  Rules.InvalidationsStart ∧ Rules.InvalidationRemoves

/-- Page walks step level by level, fault with a cause, or fail on PCIe. `Rules.WalkSteps`, `Rules.PcieFailures`. -/
def Obligations.Walks : Prop :=
  Rules.WalkSteps ∧ Rules.PcieFailures

/-- Fault records, RETRY, and dispositions of no fault. `Rules.FaultRecords`, `Rules.RetryAndUnknownFaults`. -/
def Obligations.FaultsAndRetries : Prop :=
  Rules.FaultRecords ∧ Rules.RetryAndUnknownFaults

/-- Tail writes, RESUME and completion heads; the fetcher takes whole commands in ring turns. `Rules.Doorbells`,
`Rules.FetcherTakesWholeCommands`. -/
def Obligations.RingsAndFetcher : Prop :=
  Rules.Doorbells ∧ Rules.FetcherTakesWholeCommands

/-- The split: checks, operand reads and turns of the rings. `Rules.CommandsAtTheSplit`, `Rules.SplitReads`,
`Rules.SplitTurns`. -/
def Obligations.Splits : Prop :=
  Rules.CommandsAtTheSplit ∧ Rules.SplitReads ∧ Rules.SplitTurns

/-- FENCE, SIGNAL and WAIT. `Rules.SynchronisingCommands`, `Rules.SignalWrites`, `Rules.WaitEvents`. -/
def Obligations.Synchronisation : Prop :=
  Rules.SynchronisingCommands ∧ Rules.SignalWrites ∧ Rules.WaitEvents

/-- Tiles are claimed, sealed and restored. `Rules.TileClaims`, `Rules.TileImages`. -/
def Obligations.TileSlots : Prop :=
  Rules.TileClaims ∧ Rules.TileImages

/-- Beats enter runs, and activation reads fill lane buffers. `Rules.BeatsIssue`, `Rules.ActivationReads`. -/
def Obligations.Beats : Prop :=
  Rules.BeatsIssue ∧ Rules.ActivationReads

/-- A drain starts, reads block by block, and detects a pair mismatch. `Rules.DrainStart`, `Rules.DrainBlocks`,
`Rules.PairMismatch`. -/
def Obligations.Drains : Prop :=
  Rules.DrainStart ∧ Rules.DrainBlocks ∧ Rules.PairMismatch

/-- Pieces are written back, and the drain completes. `Rules.WriteBack`, `Rules.DrainComplete`. -/
def Obligations.WritesAndCompletion : Prop :=
  Rules.WriteBack ∧ Rules.DrainComplete

/-- Credits return to their producers, and entries cross clock domains. `Rules.CreditReturns`, `Rules.QueueCrossings`. -/
def Obligations.CreditsAndCrossings : Prop :=
  Rules.CreditReturns ∧ Rules.QueueCrossings

/-- Tandem blocks move hop by hop and are accepted. `Rules.TandemBlocksMove`, `Rules.BlockAccepted`. -/
def Obligations.TandemHops : Prop :=
  Rules.TandemBlocksMove ∧ Rules.BlockAccepted

/-- Tandem blocks land, fold into their tile, or spill. `Rules.BlocksLand`, `Rules.BlocksFold`, `Rules.LandingSpills`. -/
def Obligations.TandemLanding : Prop :=
  Rules.BlocksLand ∧ Rules.BlocksFold ∧ Rules.LandingSpills

/-- SCAN commands pin their pages, take the unit and run the recurrence. `Rules.ScanHeadChecks`, `Rules.ScanStarts`,
`Rules.ScanComputes`, `Rules.ScanCompletes`. -/
def Obligations.Scans : Prop :=
  Rules.ScanHeadChecks ∧ Rules.ScanStarts ∧ Rules.ScanComputes ∧ Rules.ScanCompletes

/-- Harness links train, retrain and are lost. `Rules.LinkTraining`, `Rules.PortsLost`, `Rules.LinkRetrains`. -/
def Obligations.LinkStates : Prop :=
  Rules.LinkTraining ∧ Rules.PortsLost ∧ Rules.LinkRetrains

/-- Flits are sent, received in order, and replayed. `Rules.FlitsSent`, `Rules.FlitsReceived`, `Rules.FlitsReplayed`. -/
def Obligations.Flits : Prop :=
  Rules.FlitsSent ∧ Rules.FlitsReceived ∧ Rules.FlitsReplayed

/-- Gaits change, and PLLs lock or fail. `Rules.GaitChanges`, `Rules.PllLocks`. -/
def Obligations.GaitsAndClocks : Prop :=
  Rules.GaitChanges ∧ Rules.PllLocks

/-- Channels sleep, park and wake. `Rules.PowerRequests`, `Rules.Wakes`. -/
def Obligations.PowerStates : Prop :=
  Rules.PowerRequests ∧ Rules.Wakes

/-- The power governor's periods and the UCIe errors. `Rules.GovernorPeriods`, `Rules.UcieErrors`. -/
def Obligations.GovernorAndUcie : Prop :=
  Rules.GovernorPeriods ∧ Rules.UcieErrors

/-- Warm reset, PCIe link changes, FLR, cold reset and surprise removal. `Rules.WarmResets`, `Rules.PcieLinkChanges`,
`Rules.FunctionLevelReset`, `Rules.ColdResets`. -/
def Obligations.Resets : Prop :=
  Rules.WarmResets ∧ Rules.PcieLinkChanges ∧ Rules.FunctionLevelReset ∧ Rules.ColdResets

/-- The card boots and comes up at PERST#; a channel starts step by step, and retires. `Rules.PowerOn`,
`Rules.PerstDeassert`, `Rules.ChannelStart`, `Rules.ChannelRetires`. -/
def Obligations.CardAndChannelStart : Prop :=
  Rules.PowerOn ∧ Rules.PerstDeassert ∧ Rules.ChannelStart ∧ Rules.ChannelRetires

/-- PLDM monitoring, update and activation of firmware. `Rules.PldmRequests`, `Rules.FirmwareActivation`,
`Rules.FarrierRestarts`. -/
def Obligations.Firmware : Prop :=
  Rules.PldmRequests ∧ Rules.FirmwareActivation ∧ Rules.FarrierRestarts

/-- Sideband inputs, lockstep errors and HBM temperature. `Rules.SidebandInputs`, `Rules.LockstepAndTemperature`. -/
def Obligations.SidebandAndTemperature : Prop :=
  Rules.SidebandInputs ∧ Rules.LockstepAndTemperature

/-- Sites are substituted and re-tested, and rows repaired. `Rules.Substitutions`, `Rules.Retests`, `Rules.RowRepairs`,
`Rules.StoreRowRepairs`. -/
def Obligations.Repairs : Prop :=
  Rules.Substitutions ∧ Rules.Retests ∧ Rules.RowRepairs ∧ Rules.StoreRowRepairs

/-- Messages of the host to the farrier, and the engine reset. `Rules.ChannelMessages`, `Rules.SiteAndStreamMessages`,
`Rules.EngineReset`. -/
def Obligations.FarrierMessages : Prop :=
  Rules.ChannelMessages ∧ Rules.SiteAndStreamMessages ∧ Rules.EngineReset

/-- Marks, log batches, and replays. `Rules.Marks`, `Rules.Batches`, `Rules.Replays`, `Rules.ReplayRecords`. -/
def Obligations.MarksAndReplays : Prop :=
  Rules.Marks ∧ Rules.Batches ∧ Rules.Replays ∧ Rules.ReplayRecords
end

