-- ==== Sys2Proof/Laws/Bits.lean ====
section
/-!
SUPPORT. Bit fields: a field reads back what was put into it, other fields stay, and words stay words.
-/

set_option Elab.async false

namespace Sys2Proof

theorem bitsOf_lt (v lo w : Nat) : bitsOf v lo w < 2 ^ w := Nat.mod_lt _ (Nat.two_pow_pos w)

theorem testBit_bitsOf (v lo w i : Nat) :
    (bitsOf v lo w).testBit i = (decide (i < w) && v.testBit (lo + i)) := by
  unfold bitsOf
  rw [Nat.testBit_mod_two_pow, Nat.testBit_div_two_pow, Nat.add_comm]

theorem testBit_setBits (v lo w x i : Nat) :
    (setBits v lo w x).testBit i =
      if i < lo then v.testBit i else if i < lo + w then x.testBit (i - lo) else v.testBit i := by
  have h1 : v % 2 ^ lo < 2 ^ lo := Nat.mod_lt _ (Nat.two_pow_pos lo)
  have h2 : v % 2 ^ lo + x % 2 ^ w * 2 ^ lo < 2 ^ (lo + w) := by
    have h3 : x % 2 ^ w < 2 ^ w := Nat.mod_lt _ (Nat.two_pow_pos w)
    rw [Nat.pow_add]
    nlinarith [Nat.two_pow_pos lo, Nat.two_pow_pos w]
  unfold setBits
  rw [Nat.add_comm _ (v / 2 ^ (lo + w) * 2 ^ (lo + w)), Nat.mul_comm (v / 2 ^ (lo + w)),
    Nat.testBit_two_pow_mul_add _ h2, Nat.add_comm (v % 2 ^ lo), Nat.mul_comm (x % 2 ^ w),
    Nat.testBit_two_pow_mul_add _ h1]
  simp only [Nat.testBit_mod_two_pow, Nat.testBit_div_two_pow]
  by_cases h3 : i < lo
  · simp [h3, show i < lo + w by omega]
  · by_cases h4 : i < lo + w
    · simp [h3, h4, show i - lo < w by omega]
    · simp [h3, h4, Nat.sub_add_cancel (Nat.le_of_not_lt h4)]

theorem bitsOf_setBits_same (v lo w x : Nat) : bitsOf (setBits v lo w x) lo w = x % 2 ^ w := by
  apply Nat.eq_of_testBit_eq
  intro i
  rw [testBit_bitsOf, testBit_setBits, Nat.testBit_mod_two_pow]
  by_cases hi : i < w
  · simp [hi, show ¬ lo + i < lo by omega, show lo + i < lo + w by omega]
  · simp [hi]

theorem bitsOf_setBits_other (v lo w x : Nat) {lo' w' : Nat} (h : lo' + w' ≤ lo ∨ lo + w ≤ lo') :
    bitsOf (setBits v lo w x) lo' w' = bitsOf v lo' w' := by
  apply Nat.eq_of_testBit_eq
  intro i
  rw [testBit_bitsOf, testBit_bitsOf, testBit_setBits]
  by_cases hi : i < w'
  · split
    · rfl
    · split
      · omega
      · rfl
  · simp [hi]

/-- A field of a word looks only at the word's bits. -/
theorem bitsOf_mod (v : Nat) {lo w n : Nat} (h : lo + w ≤ n) : bitsOf (v % 2 ^ n) lo w = bitsOf v lo w := by
  apply Nat.eq_of_testBit_eq
  intro i
  rw [testBit_bitsOf, testBit_bitsOf, Nat.testBit_mod_two_pow]
  by_cases hi : i < w
  · simp [hi, show lo + i < n by omega]
  · simp [hi]

theorem setBits_lt {v lo w x n : Nat} (hv : v < 2 ^ n) (hn : lo + w ≤ n) : setBits v lo w x < 2 ^ n := by
  apply Nat.lt_pow_two_of_testBit
  intro i hi
  rw [testBit_setBits]
  split
  · omega
  · split
    · omega
    · exact Nat.testBit_lt_two_pow (lt_of_lt_of_le hv (Nat.pow_le_pow_right (by omega) hi))

@[simp] theorem bit_true : bit true = 1 := rfl
@[simp] theorem bit_false : bit false = 0 := rfl

end Sys2Proof
end

