-- ==== Sys2Proof/Laws/Tab.lean ====
section
/-!
SUPPORT. A table reads back what was written, and a write leaves every other key alone.
-/

set_option Elab.async false

namespace Sys2Proof.Machine

variable {α : Type}

@[simp] theorem Tab.get_nil (d : α) (k : Nat) : Tab.get d [] k = d := rfl

@[simp] theorem Tab.get_set_same (d : α) (t : Tab α) (k : Nat) (v : α) :
    Tab.get d (Tab.set t k v) k = v := by
  induction t with
  | nil => simp [Tab.set, Tab.get]
  | cons p t ih =>
    obtain ⟨k', v'⟩ := p
    unfold Tab.set
    split
    · simp [Tab.get]
    · split
      · simp [Tab.get]
      · simp [Tab.get, *]

theorem Tab.get_set_other (d : α) (t : Tab α) {k j : Nat} (v : α) (h : j ≠ k) :
    Tab.get d (Tab.set t k v) j = Tab.get d t j := by
  induction t with
  | nil => simp [Tab.set, Tab.get, h]
  | cons p t ih =>
    obtain ⟨k', v'⟩ := p
    unfold Tab.set
    split
    · simp [Tab.get, h]
    · split
      · rename_i hk; subst hk; simp [Tab.get, h]
      · simp [Tab.get, ih]

@[simp] theorem Tab.get_set (d : α) (t : Tab α) (k j : Nat) (v : α) :
    Tab.get d (Tab.set t k v) j = if j = k then v else Tab.get d t j := by
  split
  · subst_vars; simp
  · exact Tab.get_set_other d t v ‹_›

end Sys2Proof.Machine
end

