-- ==== Sys2Proof/Laws/State.lean ====
section
/-!
SUPPORT. What each named update of the state does to each field.
-/

set_option Elab.async false

namespace Sys2Proof.Machine

variable (s : State)

@[simp] theorem State.setWord_pending (p : Page) (o v : Nat) : (s.setWord p o v).pending = s.pending := rfl
@[simp] theorem State.setWord_out (p : Page) (o v : Nat) : (s.setWord p o v).out = s.out := rfl
@[simp] theorem State.setWord_drawn (p : Page) (o v : Nat) : (s.setWord p o v).drawn = s.drawn := rfl
@[simp] theorem State.setWord_dev (p : Page) (o v : Nat) : (s.setWord p o v).dev = s.dev := rfl
@[simp] theorem State.setWord_cycles (p : Page) (o v : Nat) : (s.setWord p o v).cycles = s.cycles := rfl
@[simp] theorem State.setWord_cycBase (p : Page) (o v : Nat) : (s.setWord p o v).cycBase = s.cycBase := rfl
@[simp] theorem State.setWord_regs (p : Page) (o v : Nat) : (s.setWord p o v).regs = Tab.set s.regs (pageAddr p o) (v % 2 ^ 32) := rfl
@[simp] theorem State.setWord_holds (p : Page) (o v : Nat) : (s.setWord p o v).holds = s.holds := rfl
@[simp] theorem State.setWord_blocks (p : Page) (o v : Nat) : (s.setWord p o v).blocks = s.blocks := rfl
@[simp] theorem State.setWord_msix (p : Page) (o v : Nat) : (s.setWord p o v).msix = s.msix := rfl
@[simp] theorem State.setWord_mbx (p : Page) (o v : Nat) : (s.setWord p o v).mbx = s.mbx := rfl
@[simp] theorem State.setWord_ports (p : Page) (o v : Nat) : (s.setWord p o v).ports = s.ports := rfl
@[simp] theorem State.setWord_xlat (p : Page) (o v : Nat) : (s.setWord p o v).xlat = s.xlat := rfl
@[simp] theorem State.setWord_ctxs (p : Page) (o v : Nat) : (s.setWord p o v).ctxs = s.ctxs := rfl
@[simp] theorem State.setWord_ctxSlots (p : Page) (o v : Nat) : (s.setWord p o v).ctxSlots = s.ctxSlots := rfl
@[simp] theorem State.setWord_loads (p : Page) (o v : Nat) : (s.setWord p o v).loads = s.loads := rfl
@[simp] theorem State.setWord_reliefInto (p : Page) (o v : Nat) : (s.setWord p o v).reliefInto = s.reliefInto := rfl
@[simp] theorem State.setWord_lastRelief (p : Page) (o v : Nat) : (s.setWord p o v).lastRelief = s.lastRelief := rfl
@[simp] theorem State.setWord_shares (p : Page) (o v : Nat) : (s.setWord p o v).shares = s.shares := rfl
@[simp] theorem State.setWord_dlm (p : Page) (o v : Nat) : (s.setWord p o v).dlm = s.dlm := rfl
@[simp] theorem State.setWord_streams (p : Page) (o v : Nat) : (s.setWord p o v).streams = s.streams := rfl
@[simp] theorem State.setWord_rehoming (p : Page) (o v : Nat) : (s.setWord p o v).rehoming = s.rehoming := rfl
@[simp] theorem State.setWord_recorder (p : Page) (o v : Nat) : (s.setWord p o v).recorder = s.recorder := rfl
@[simp] theorem State.setWord_chans (p : Page) (o v : Nat) : (s.setWord p o v).chans = s.chans := rfl

@[simp] theorem State.setChan_pending (c : Nat) (x : Channel) : (s.setChan c x).pending = s.pending := rfl
@[simp] theorem State.setChan_out (c : Nat) (x : Channel) : (s.setChan c x).out = s.out := rfl
@[simp] theorem State.setChan_drawn (c : Nat) (x : Channel) : (s.setChan c x).drawn = s.drawn := rfl
@[simp] theorem State.setChan_dev (c : Nat) (x : Channel) : (s.setChan c x).dev = s.dev := rfl
@[simp] theorem State.setChan_cycles (c : Nat) (x : Channel) : (s.setChan c x).cycles = s.cycles := rfl
@[simp] theorem State.setChan_cycBase (c : Nat) (x : Channel) : (s.setChan c x).cycBase = s.cycBase := rfl
@[simp] theorem State.setChan_regs (c : Nat) (x : Channel) : (s.setChan c x).regs = s.regs := rfl
@[simp] theorem State.setChan_holds (c : Nat) (x : Channel) : (s.setChan c x).holds = s.holds := rfl
@[simp] theorem State.setChan_blocks (c : Nat) (x : Channel) : (s.setChan c x).blocks = s.blocks := rfl
@[simp] theorem State.setChan_msix (c : Nat) (x : Channel) : (s.setChan c x).msix = s.msix := rfl
@[simp] theorem State.setChan_mbx (c : Nat) (x : Channel) : (s.setChan c x).mbx = s.mbx := rfl
@[simp] theorem State.setChan_ports (c : Nat) (x : Channel) : (s.setChan c x).ports = s.ports := rfl
@[simp] theorem State.setChan_xlat (c : Nat) (x : Channel) : (s.setChan c x).xlat = s.xlat := rfl
@[simp] theorem State.setChan_ctxs (c : Nat) (x : Channel) : (s.setChan c x).ctxs = s.ctxs := rfl
@[simp] theorem State.setChan_ctxSlots (c : Nat) (x : Channel) : (s.setChan c x).ctxSlots = s.ctxSlots := rfl
@[simp] theorem State.setChan_loads (c : Nat) (x : Channel) : (s.setChan c x).loads = s.loads := rfl
@[simp] theorem State.setChan_reliefInto (c : Nat) (x : Channel) : (s.setChan c x).reliefInto = s.reliefInto := rfl
@[simp] theorem State.setChan_lastRelief (c : Nat) (x : Channel) : (s.setChan c x).lastRelief = s.lastRelief := rfl
@[simp] theorem State.setChan_shares (c : Nat) (x : Channel) : (s.setChan c x).shares = s.shares := rfl
@[simp] theorem State.setChan_dlm (c : Nat) (x : Channel) : (s.setChan c x).dlm = s.dlm := rfl
@[simp] theorem State.setChan_streams (c : Nat) (x : Channel) : (s.setChan c x).streams = s.streams := rfl
@[simp] theorem State.setChan_rehoming (c : Nat) (x : Channel) : (s.setChan c x).rehoming = s.rehoming := rfl
@[simp] theorem State.setChan_recorder (c : Nat) (x : Channel) : (s.setChan c x).recorder = s.recorder := rfl
@[simp] theorem State.setChan_chans (c : Nat) (x : Channel) : (s.setChan c x).chans = Tab.set s.chans c x := rfl

@[simp] theorem State.modChan_pending (c : Nat) (f : Channel → Channel) : (s.modChan c f).pending = s.pending := rfl
@[simp] theorem State.modChan_out (c : Nat) (f : Channel → Channel) : (s.modChan c f).out = s.out := rfl
@[simp] theorem State.modChan_drawn (c : Nat) (f : Channel → Channel) : (s.modChan c f).drawn = s.drawn := rfl
@[simp] theorem State.modChan_dev (c : Nat) (f : Channel → Channel) : (s.modChan c f).dev = s.dev := rfl
@[simp] theorem State.modChan_cycles (c : Nat) (f : Channel → Channel) : (s.modChan c f).cycles = s.cycles := rfl
@[simp] theorem State.modChan_cycBase (c : Nat) (f : Channel → Channel) : (s.modChan c f).cycBase = s.cycBase := rfl
@[simp] theorem State.modChan_regs (c : Nat) (f : Channel → Channel) : (s.modChan c f).regs = s.regs := rfl
@[simp] theorem State.modChan_holds (c : Nat) (f : Channel → Channel) : (s.modChan c f).holds = s.holds := rfl
@[simp] theorem State.modChan_blocks (c : Nat) (f : Channel → Channel) : (s.modChan c f).blocks = s.blocks := rfl
@[simp] theorem State.modChan_msix (c : Nat) (f : Channel → Channel) : (s.modChan c f).msix = s.msix := rfl
@[simp] theorem State.modChan_mbx (c : Nat) (f : Channel → Channel) : (s.modChan c f).mbx = s.mbx := rfl
@[simp] theorem State.modChan_ports (c : Nat) (f : Channel → Channel) : (s.modChan c f).ports = s.ports := rfl
@[simp] theorem State.modChan_xlat (c : Nat) (f : Channel → Channel) : (s.modChan c f).xlat = s.xlat := rfl
@[simp] theorem State.modChan_ctxs (c : Nat) (f : Channel → Channel) : (s.modChan c f).ctxs = s.ctxs := rfl
@[simp] theorem State.modChan_ctxSlots (c : Nat) (f : Channel → Channel) : (s.modChan c f).ctxSlots = s.ctxSlots := rfl
@[simp] theorem State.modChan_loads (c : Nat) (f : Channel → Channel) : (s.modChan c f).loads = s.loads := rfl
@[simp] theorem State.modChan_reliefInto (c : Nat) (f : Channel → Channel) : (s.modChan c f).reliefInto = s.reliefInto := rfl
@[simp] theorem State.modChan_lastRelief (c : Nat) (f : Channel → Channel) : (s.modChan c f).lastRelief = s.lastRelief := rfl
@[simp] theorem State.modChan_shares (c : Nat) (f : Channel → Channel) : (s.modChan c f).shares = s.shares := rfl
@[simp] theorem State.modChan_dlm (c : Nat) (f : Channel → Channel) : (s.modChan c f).dlm = s.dlm := rfl
@[simp] theorem State.modChan_streams (c : Nat) (f : Channel → Channel) : (s.modChan c f).streams = s.streams := rfl
@[simp] theorem State.modChan_rehoming (c : Nat) (f : Channel → Channel) : (s.modChan c f).rehoming = s.rehoming := rfl
@[simp] theorem State.modChan_recorder (c : Nat) (f : Channel → Channel) : (s.modChan c f).recorder = s.recorder := rfl
@[simp] theorem State.modChan_chans (c : Nat) (f : Channel → Channel) : (s.modChan c f).chans = Tab.set s.chans c (f (s.chan c)) := rfl

@[simp] theorem State.modRing_pending (c r : Nat) (f : Ring → Ring) : (s.modRing c r f).pending = s.pending := rfl
@[simp] theorem State.modRing_out (c r : Nat) (f : Ring → Ring) : (s.modRing c r f).out = s.out := rfl
@[simp] theorem State.modRing_drawn (c r : Nat) (f : Ring → Ring) : (s.modRing c r f).drawn = s.drawn := rfl
@[simp] theorem State.modRing_dev (c r : Nat) (f : Ring → Ring) : (s.modRing c r f).dev = s.dev := rfl
@[simp] theorem State.modRing_cycles (c r : Nat) (f : Ring → Ring) : (s.modRing c r f).cycles = s.cycles := rfl
@[simp] theorem State.modRing_cycBase (c r : Nat) (f : Ring → Ring) : (s.modRing c r f).cycBase = s.cycBase := rfl
@[simp] theorem State.modRing_regs (c r : Nat) (f : Ring → Ring) : (s.modRing c r f).regs = s.regs := rfl
@[simp] theorem State.modRing_holds (c r : Nat) (f : Ring → Ring) : (s.modRing c r f).holds = s.holds := rfl
@[simp] theorem State.modRing_blocks (c r : Nat) (f : Ring → Ring) : (s.modRing c r f).blocks = s.blocks := rfl
@[simp] theorem State.modRing_msix (c r : Nat) (f : Ring → Ring) : (s.modRing c r f).msix = s.msix := rfl
@[simp] theorem State.modRing_mbx (c r : Nat) (f : Ring → Ring) : (s.modRing c r f).mbx = s.mbx := rfl
@[simp] theorem State.modRing_ports (c r : Nat) (f : Ring → Ring) : (s.modRing c r f).ports = s.ports := rfl
@[simp] theorem State.modRing_xlat (c r : Nat) (f : Ring → Ring) : (s.modRing c r f).xlat = s.xlat := rfl
@[simp] theorem State.modRing_ctxs (c r : Nat) (f : Ring → Ring) : (s.modRing c r f).ctxs = s.ctxs := rfl
@[simp] theorem State.modRing_ctxSlots (c r : Nat) (f : Ring → Ring) : (s.modRing c r f).ctxSlots = s.ctxSlots := rfl
@[simp] theorem State.modRing_loads (c r : Nat) (f : Ring → Ring) : (s.modRing c r f).loads = s.loads := rfl
@[simp] theorem State.modRing_reliefInto (c r : Nat) (f : Ring → Ring) : (s.modRing c r f).reliefInto = s.reliefInto := rfl
@[simp] theorem State.modRing_lastRelief (c r : Nat) (f : Ring → Ring) : (s.modRing c r f).lastRelief = s.lastRelief := rfl
@[simp] theorem State.modRing_shares (c r : Nat) (f : Ring → Ring) : (s.modRing c r f).shares = s.shares := rfl
@[simp] theorem State.modRing_dlm (c r : Nat) (f : Ring → Ring) : (s.modRing c r f).dlm = s.dlm := rfl
@[simp] theorem State.modRing_streams (c r : Nat) (f : Ring → Ring) : (s.modRing c r f).streams = s.streams := rfl
@[simp] theorem State.modRing_rehoming (c r : Nat) (f : Ring → Ring) : (s.modRing c r f).rehoming = s.rehoming := rfl
@[simp] theorem State.modRing_recorder (c r : Nat) (f : Ring → Ring) : (s.modRing c r f).recorder = s.recorder := rfl

@[simp] theorem State.modPort_pending (p : Nat) (f : Port → Port) : (s.modPort p f).pending = s.pending := rfl
@[simp] theorem State.modPort_out (p : Nat) (f : Port → Port) : (s.modPort p f).out = s.out := rfl
@[simp] theorem State.modPort_drawn (p : Nat) (f : Port → Port) : (s.modPort p f).drawn = s.drawn := rfl
@[simp] theorem State.modPort_dev (p : Nat) (f : Port → Port) : (s.modPort p f).dev = s.dev := rfl
@[simp] theorem State.modPort_cycles (p : Nat) (f : Port → Port) : (s.modPort p f).cycles = s.cycles := rfl
@[simp] theorem State.modPort_cycBase (p : Nat) (f : Port → Port) : (s.modPort p f).cycBase = s.cycBase := rfl
@[simp] theorem State.modPort_regs (p : Nat) (f : Port → Port) : (s.modPort p f).regs = s.regs := rfl
@[simp] theorem State.modPort_holds (p : Nat) (f : Port → Port) : (s.modPort p f).holds = s.holds := rfl
@[simp] theorem State.modPort_blocks (p : Nat) (f : Port → Port) : (s.modPort p f).blocks = s.blocks := rfl
@[simp] theorem State.modPort_msix (p : Nat) (f : Port → Port) : (s.modPort p f).msix = s.msix := rfl
@[simp] theorem State.modPort_mbx (p : Nat) (f : Port → Port) : (s.modPort p f).mbx = s.mbx := rfl
@[simp] theorem State.modPort_ports (p : Nat) (f : Port → Port) : (s.modPort p f).ports = Tab.set s.ports p (f (s.port p)) := rfl
@[simp] theorem State.modPort_xlat (p : Nat) (f : Port → Port) : (s.modPort p f).xlat = s.xlat := rfl
@[simp] theorem State.modPort_ctxs (p : Nat) (f : Port → Port) : (s.modPort p f).ctxs = s.ctxs := rfl
@[simp] theorem State.modPort_ctxSlots (p : Nat) (f : Port → Port) : (s.modPort p f).ctxSlots = s.ctxSlots := rfl
@[simp] theorem State.modPort_loads (p : Nat) (f : Port → Port) : (s.modPort p f).loads = s.loads := rfl
@[simp] theorem State.modPort_reliefInto (p : Nat) (f : Port → Port) : (s.modPort p f).reliefInto = s.reliefInto := rfl
@[simp] theorem State.modPort_lastRelief (p : Nat) (f : Port → Port) : (s.modPort p f).lastRelief = s.lastRelief := rfl
@[simp] theorem State.modPort_shares (p : Nat) (f : Port → Port) : (s.modPort p f).shares = s.shares := rfl
@[simp] theorem State.modPort_dlm (p : Nat) (f : Port → Port) : (s.modPort p f).dlm = s.dlm := rfl
@[simp] theorem State.modPort_streams (p : Nat) (f : Port → Port) : (s.modPort p f).streams = s.streams := rfl
@[simp] theorem State.modPort_rehoming (p : Nat) (f : Port → Port) : (s.modPort p f).rehoming = s.rehoming := rfl
@[simp] theorem State.modPort_recorder (p : Nat) (f : Port → Port) : (s.modPort p f).recorder = s.recorder := rfl
@[simp] theorem State.modPort_chans (p : Nat) (f : Port → Port) : (s.modPort p f).chans = s.chans := rfl

@[simp] theorem State.modSlot_pending (m : Nat) (f : MbxSlot → MbxSlot) : (s.modSlot m f).pending = s.pending := rfl
@[simp] theorem State.modSlot_out (m : Nat) (f : MbxSlot → MbxSlot) : (s.modSlot m f).out = s.out := rfl
@[simp] theorem State.modSlot_drawn (m : Nat) (f : MbxSlot → MbxSlot) : (s.modSlot m f).drawn = s.drawn := rfl
@[simp] theorem State.modSlot_dev (m : Nat) (f : MbxSlot → MbxSlot) : (s.modSlot m f).dev = s.dev := rfl
@[simp] theorem State.modSlot_cycles (m : Nat) (f : MbxSlot → MbxSlot) : (s.modSlot m f).cycles = s.cycles := rfl
@[simp] theorem State.modSlot_cycBase (m : Nat) (f : MbxSlot → MbxSlot) : (s.modSlot m f).cycBase = s.cycBase := rfl
@[simp] theorem State.modSlot_regs (m : Nat) (f : MbxSlot → MbxSlot) : (s.modSlot m f).regs = s.regs := rfl
@[simp] theorem State.modSlot_holds (m : Nat) (f : MbxSlot → MbxSlot) : (s.modSlot m f).holds = s.holds := rfl
@[simp] theorem State.modSlot_blocks (m : Nat) (f : MbxSlot → MbxSlot) : (s.modSlot m f).blocks = s.blocks := rfl
@[simp] theorem State.modSlot_msix (m : Nat) (f : MbxSlot → MbxSlot) : (s.modSlot m f).msix = s.msix := rfl
@[simp] theorem State.modSlot_mbx (m : Nat) (f : MbxSlot → MbxSlot) : (s.modSlot m f).mbx = Tab.set s.mbx m (f (s.slot m)) := rfl
@[simp] theorem State.modSlot_ports (m : Nat) (f : MbxSlot → MbxSlot) : (s.modSlot m f).ports = s.ports := rfl
@[simp] theorem State.modSlot_xlat (m : Nat) (f : MbxSlot → MbxSlot) : (s.modSlot m f).xlat = s.xlat := rfl
@[simp] theorem State.modSlot_ctxs (m : Nat) (f : MbxSlot → MbxSlot) : (s.modSlot m f).ctxs = s.ctxs := rfl
@[simp] theorem State.modSlot_ctxSlots (m : Nat) (f : MbxSlot → MbxSlot) : (s.modSlot m f).ctxSlots = s.ctxSlots := rfl
@[simp] theorem State.modSlot_loads (m : Nat) (f : MbxSlot → MbxSlot) : (s.modSlot m f).loads = s.loads := rfl
@[simp] theorem State.modSlot_reliefInto (m : Nat) (f : MbxSlot → MbxSlot) : (s.modSlot m f).reliefInto = s.reliefInto := rfl
@[simp] theorem State.modSlot_lastRelief (m : Nat) (f : MbxSlot → MbxSlot) : (s.modSlot m f).lastRelief = s.lastRelief := rfl
@[simp] theorem State.modSlot_shares (m : Nat) (f : MbxSlot → MbxSlot) : (s.modSlot m f).shares = s.shares := rfl
@[simp] theorem State.modSlot_dlm (m : Nat) (f : MbxSlot → MbxSlot) : (s.modSlot m f).dlm = s.dlm := rfl
@[simp] theorem State.modSlot_streams (m : Nat) (f : MbxSlot → MbxSlot) : (s.modSlot m f).streams = s.streams := rfl
@[simp] theorem State.modSlot_rehoming (m : Nat) (f : MbxSlot → MbxSlot) : (s.modSlot m f).rehoming = s.rehoming := rfl
@[simp] theorem State.modSlot_recorder (m : Nat) (f : MbxSlot → MbxSlot) : (s.modSlot m f).recorder = s.recorder := rfl
@[simp] theorem State.modSlot_chans (m : Nat) (f : MbxSlot → MbxSlot) : (s.modSlot m f).chans = s.chans := rfl

@[simp] theorem State.setBlockRun_pending (p : Page) (b : BlockRun) : (s.setBlockRun p b).pending = s.pending := rfl
@[simp] theorem State.setBlockRun_out (p : Page) (b : BlockRun) : (s.setBlockRun p b).out = s.out := rfl
@[simp] theorem State.setBlockRun_drawn (p : Page) (b : BlockRun) : (s.setBlockRun p b).drawn = s.drawn := rfl
@[simp] theorem State.setBlockRun_dev (p : Page) (b : BlockRun) : (s.setBlockRun p b).dev = s.dev := rfl
@[simp] theorem State.setBlockRun_cycles (p : Page) (b : BlockRun) : (s.setBlockRun p b).cycles = s.cycles := rfl
@[simp] theorem State.setBlockRun_cycBase (p : Page) (b : BlockRun) : (s.setBlockRun p b).cycBase = s.cycBase := rfl
@[simp] theorem State.setBlockRun_regs (p : Page) (b : BlockRun) : (s.setBlockRun p b).regs = s.regs := rfl
@[simp] theorem State.setBlockRun_holds (p : Page) (b : BlockRun) : (s.setBlockRun p b).holds = s.holds := rfl
@[simp] theorem State.setBlockRun_blocks (p : Page) (b : BlockRun) : (s.setBlockRun p b).blocks = Tab.set s.blocks (pageIndex p) b := rfl
@[simp] theorem State.setBlockRun_msix (p : Page) (b : BlockRun) : (s.setBlockRun p b).msix = s.msix := rfl
@[simp] theorem State.setBlockRun_mbx (p : Page) (b : BlockRun) : (s.setBlockRun p b).mbx = s.mbx := rfl
@[simp] theorem State.setBlockRun_ports (p : Page) (b : BlockRun) : (s.setBlockRun p b).ports = s.ports := rfl
@[simp] theorem State.setBlockRun_xlat (p : Page) (b : BlockRun) : (s.setBlockRun p b).xlat = s.xlat := rfl
@[simp] theorem State.setBlockRun_ctxs (p : Page) (b : BlockRun) : (s.setBlockRun p b).ctxs = s.ctxs := rfl
@[simp] theorem State.setBlockRun_ctxSlots (p : Page) (b : BlockRun) : (s.setBlockRun p b).ctxSlots = s.ctxSlots := rfl
@[simp] theorem State.setBlockRun_loads (p : Page) (b : BlockRun) : (s.setBlockRun p b).loads = s.loads := rfl
@[simp] theorem State.setBlockRun_reliefInto (p : Page) (b : BlockRun) : (s.setBlockRun p b).reliefInto = s.reliefInto := rfl
@[simp] theorem State.setBlockRun_lastRelief (p : Page) (b : BlockRun) : (s.setBlockRun p b).lastRelief = s.lastRelief := rfl
@[simp] theorem State.setBlockRun_shares (p : Page) (b : BlockRun) : (s.setBlockRun p b).shares = s.shares := rfl
@[simp] theorem State.setBlockRun_dlm (p : Page) (b : BlockRun) : (s.setBlockRun p b).dlm = s.dlm := rfl
@[simp] theorem State.setBlockRun_streams (p : Page) (b : BlockRun) : (s.setBlockRun p b).streams = s.streams := rfl
@[simp] theorem State.setBlockRun_rehoming (p : Page) (b : BlockRun) : (s.setBlockRun p b).rehoming = s.rehoming := rfl
@[simp] theorem State.setBlockRun_recorder (p : Page) (b : BlockRun) : (s.setBlockRun p b).recorder = s.recorder := rfl
@[simp] theorem State.setBlockRun_chans (p : Page) (b : BlockRun) : (s.setBlockRun p b).chans = s.chans := rfl

@[simp] theorem State.modLog_pending (n : Nat) (f : Log → Log) : (s.modLog n f).pending = s.pending := rfl
@[simp] theorem State.modLog_out (n : Nat) (f : Log → Log) : (s.modLog n f).out = s.out := rfl
@[simp] theorem State.modLog_drawn (n : Nat) (f : Log → Log) : (s.modLog n f).drawn = s.drawn := rfl
@[simp] theorem State.modLog_dev (n : Nat) (f : Log → Log) : (s.modLog n f).dev = s.dev := rfl
@[simp] theorem State.modLog_cycles (n : Nat) (f : Log → Log) : (s.modLog n f).cycles = s.cycles := rfl
@[simp] theorem State.modLog_cycBase (n : Nat) (f : Log → Log) : (s.modLog n f).cycBase = s.cycBase := rfl
@[simp] theorem State.modLog_regs (n : Nat) (f : Log → Log) : (s.modLog n f).regs = s.regs := rfl
@[simp] theorem State.modLog_holds (n : Nat) (f : Log → Log) : (s.modLog n f).holds = s.holds := rfl
@[simp] theorem State.modLog_blocks (n : Nat) (f : Log → Log) : (s.modLog n f).blocks = s.blocks := rfl
@[simp] theorem State.modLog_msix (n : Nat) (f : Log → Log) : (s.modLog n f).msix = s.msix := rfl
@[simp] theorem State.modLog_mbx (n : Nat) (f : Log → Log) : (s.modLog n f).mbx = s.mbx := rfl
@[simp] theorem State.modLog_ports (n : Nat) (f : Log → Log) : (s.modLog n f).ports = s.ports := rfl
@[simp] theorem State.modLog_xlat (n : Nat) (f : Log → Log) : (s.modLog n f).xlat = s.xlat := rfl
@[simp] theorem State.modLog_ctxs (n : Nat) (f : Log → Log) : (s.modLog n f).ctxs = s.ctxs := rfl
@[simp] theorem State.modLog_ctxSlots (n : Nat) (f : Log → Log) : (s.modLog n f).ctxSlots = s.ctxSlots := rfl
@[simp] theorem State.modLog_loads (n : Nat) (f : Log → Log) : (s.modLog n f).loads = s.loads := rfl
@[simp] theorem State.modLog_reliefInto (n : Nat) (f : Log → Log) : (s.modLog n f).reliefInto = s.reliefInto := rfl
@[simp] theorem State.modLog_lastRelief (n : Nat) (f : Log → Log) : (s.modLog n f).lastRelief = s.lastRelief := rfl
@[simp] theorem State.modLog_shares (n : Nat) (f : Log → Log) : (s.modLog n f).shares = s.shares := rfl
@[simp] theorem State.modLog_dlm (n : Nat) (f : Log → Log) : (s.modLog n f).dlm = s.dlm := rfl
@[simp] theorem State.modLog_streams (n : Nat) (f : Log → Log) : (s.modLog n f).streams = s.streams := rfl
@[simp] theorem State.modLog_rehoming (n : Nat) (f : Log → Log) : (s.modLog n f).rehoming = s.rehoming := rfl
@[simp] theorem State.modLog_chans (n : Nat) (f : Log → Log) : (s.modLog n f).chans = s.chans := rfl

@[simp] theorem State.modDev_pending (f : Device → Device) : (s.modDev f).pending = s.pending := rfl
@[simp] theorem State.modDev_out (f : Device → Device) : (s.modDev f).out = s.out := rfl
@[simp] theorem State.modDev_drawn (f : Device → Device) : (s.modDev f).drawn = s.drawn := rfl
@[simp] theorem State.modDev_dev (f : Device → Device) : (s.modDev f).dev = f s.dev := rfl
@[simp] theorem State.modDev_cycles (f : Device → Device) : (s.modDev f).cycles = s.cycles := rfl
@[simp] theorem State.modDev_cycBase (f : Device → Device) : (s.modDev f).cycBase = s.cycBase := rfl
@[simp] theorem State.modDev_regs (f : Device → Device) : (s.modDev f).regs = s.regs := rfl
@[simp] theorem State.modDev_holds (f : Device → Device) : (s.modDev f).holds = s.holds := rfl
@[simp] theorem State.modDev_blocks (f : Device → Device) : (s.modDev f).blocks = s.blocks := rfl
@[simp] theorem State.modDev_msix (f : Device → Device) : (s.modDev f).msix = s.msix := rfl
@[simp] theorem State.modDev_mbx (f : Device → Device) : (s.modDev f).mbx = s.mbx := rfl
@[simp] theorem State.modDev_ports (f : Device → Device) : (s.modDev f).ports = s.ports := rfl
@[simp] theorem State.modDev_xlat (f : Device → Device) : (s.modDev f).xlat = s.xlat := rfl
@[simp] theorem State.modDev_ctxs (f : Device → Device) : (s.modDev f).ctxs = s.ctxs := rfl
@[simp] theorem State.modDev_ctxSlots (f : Device → Device) : (s.modDev f).ctxSlots = s.ctxSlots := rfl
@[simp] theorem State.modDev_loads (f : Device → Device) : (s.modDev f).loads = s.loads := rfl
@[simp] theorem State.modDev_reliefInto (f : Device → Device) : (s.modDev f).reliefInto = s.reliefInto := rfl
@[simp] theorem State.modDev_lastRelief (f : Device → Device) : (s.modDev f).lastRelief = s.lastRelief := rfl
@[simp] theorem State.modDev_shares (f : Device → Device) : (s.modDev f).shares = s.shares := rfl
@[simp] theorem State.modDev_dlm (f : Device → Device) : (s.modDev f).dlm = s.dlm := rfl
@[simp] theorem State.modDev_streams (f : Device → Device) : (s.modDev f).streams = s.streams := rfl
@[simp] theorem State.modDev_rehoming (f : Device → Device) : (s.modDev f).rehoming = s.rehoming := rfl
@[simp] theorem State.modDev_recorder (f : Device → Device) : (s.modDev f).recorder = s.recorder := rfl
@[simp] theorem State.modDev_chans (f : Device → Device) : (s.modDev f).chans = s.chans := rfl

@[simp] theorem State.modXlat_pending (f : Translation → Translation) : (s.modXlat f).pending = s.pending := rfl
@[simp] theorem State.modXlat_out (f : Translation → Translation) : (s.modXlat f).out = s.out := rfl
@[simp] theorem State.modXlat_drawn (f : Translation → Translation) : (s.modXlat f).drawn = s.drawn := rfl
@[simp] theorem State.modXlat_dev (f : Translation → Translation) : (s.modXlat f).dev = s.dev := rfl
@[simp] theorem State.modXlat_cycles (f : Translation → Translation) : (s.modXlat f).cycles = s.cycles := rfl
@[simp] theorem State.modXlat_cycBase (f : Translation → Translation) : (s.modXlat f).cycBase = s.cycBase := rfl
@[simp] theorem State.modXlat_regs (f : Translation → Translation) : (s.modXlat f).regs = s.regs := rfl
@[simp] theorem State.modXlat_holds (f : Translation → Translation) : (s.modXlat f).holds = s.holds := rfl
@[simp] theorem State.modXlat_blocks (f : Translation → Translation) : (s.modXlat f).blocks = s.blocks := rfl
@[simp] theorem State.modXlat_msix (f : Translation → Translation) : (s.modXlat f).msix = s.msix := rfl
@[simp] theorem State.modXlat_mbx (f : Translation → Translation) : (s.modXlat f).mbx = s.mbx := rfl
@[simp] theorem State.modXlat_ports (f : Translation → Translation) : (s.modXlat f).ports = s.ports := rfl
@[simp] theorem State.modXlat_xlat (f : Translation → Translation) : (s.modXlat f).xlat = f s.xlat := rfl
@[simp] theorem State.modXlat_ctxs (f : Translation → Translation) : (s.modXlat f).ctxs = s.ctxs := rfl
@[simp] theorem State.modXlat_ctxSlots (f : Translation → Translation) : (s.modXlat f).ctxSlots = s.ctxSlots := rfl
@[simp] theorem State.modXlat_loads (f : Translation → Translation) : (s.modXlat f).loads = s.loads := rfl
@[simp] theorem State.modXlat_reliefInto (f : Translation → Translation) : (s.modXlat f).reliefInto = s.reliefInto := rfl
@[simp] theorem State.modXlat_lastRelief (f : Translation → Translation) : (s.modXlat f).lastRelief = s.lastRelief := rfl
@[simp] theorem State.modXlat_shares (f : Translation → Translation) : (s.modXlat f).shares = s.shares := rfl
@[simp] theorem State.modXlat_dlm (f : Translation → Translation) : (s.modXlat f).dlm = s.dlm := rfl
@[simp] theorem State.modXlat_streams (f : Translation → Translation) : (s.modXlat f).streams = s.streams := rfl
@[simp] theorem State.modXlat_rehoming (f : Translation → Translation) : (s.modXlat f).rehoming = s.rehoming := rfl
@[simp] theorem State.modXlat_recorder (f : Translation → Translation) : (s.modXlat f).recorder = s.recorder := rfl
@[simp] theorem State.modXlat_chans (f : Translation → Translation) : (s.modXlat f).chans = s.chans := rfl

@[simp] theorem State.modRec_pending (f : Recorder → Recorder) : (s.modRec f).pending = s.pending := rfl
@[simp] theorem State.modRec_out (f : Recorder → Recorder) : (s.modRec f).out = s.out := rfl
@[simp] theorem State.modRec_drawn (f : Recorder → Recorder) : (s.modRec f).drawn = s.drawn := rfl
@[simp] theorem State.modRec_dev (f : Recorder → Recorder) : (s.modRec f).dev = s.dev := rfl
@[simp] theorem State.modRec_cycles (f : Recorder → Recorder) : (s.modRec f).cycles = s.cycles := rfl
@[simp] theorem State.modRec_cycBase (f : Recorder → Recorder) : (s.modRec f).cycBase = s.cycBase := rfl
@[simp] theorem State.modRec_regs (f : Recorder → Recorder) : (s.modRec f).regs = s.regs := rfl
@[simp] theorem State.modRec_holds (f : Recorder → Recorder) : (s.modRec f).holds = s.holds := rfl
@[simp] theorem State.modRec_blocks (f : Recorder → Recorder) : (s.modRec f).blocks = s.blocks := rfl
@[simp] theorem State.modRec_msix (f : Recorder → Recorder) : (s.modRec f).msix = s.msix := rfl
@[simp] theorem State.modRec_mbx (f : Recorder → Recorder) : (s.modRec f).mbx = s.mbx := rfl
@[simp] theorem State.modRec_ports (f : Recorder → Recorder) : (s.modRec f).ports = s.ports := rfl
@[simp] theorem State.modRec_xlat (f : Recorder → Recorder) : (s.modRec f).xlat = s.xlat := rfl
@[simp] theorem State.modRec_ctxs (f : Recorder → Recorder) : (s.modRec f).ctxs = s.ctxs := rfl
@[simp] theorem State.modRec_ctxSlots (f : Recorder → Recorder) : (s.modRec f).ctxSlots = s.ctxSlots := rfl
@[simp] theorem State.modRec_loads (f : Recorder → Recorder) : (s.modRec f).loads = s.loads := rfl
@[simp] theorem State.modRec_reliefInto (f : Recorder → Recorder) : (s.modRec f).reliefInto = s.reliefInto := rfl
@[simp] theorem State.modRec_lastRelief (f : Recorder → Recorder) : (s.modRec f).lastRelief = s.lastRelief := rfl
@[simp] theorem State.modRec_shares (f : Recorder → Recorder) : (s.modRec f).shares = s.shares := rfl
@[simp] theorem State.modRec_dlm (f : Recorder → Recorder) : (s.modRec f).dlm = s.dlm := rfl
@[simp] theorem State.modRec_streams (f : Recorder → Recorder) : (s.modRec f).streams = s.streams := rfl
@[simp] theorem State.modRec_rehoming (f : Recorder → Recorder) : (s.modRec f).rehoming = s.rehoming := rfl
@[simp] theorem State.modRec_recorder (f : Recorder → Recorder) : (s.modRec f).recorder = f s.recorder := rfl
@[simp] theorem State.modRec_chans (f : Recorder → Recorder) : (s.modRec f).chans = s.chans := rfl

@[simp] theorem State.emit_pending (o : Output) : (s.emit o).pending = s.pending := rfl
@[simp] theorem State.emit_out (o : Output) : (s.emit o).out = s.out ++ [o] := rfl
@[simp] theorem State.emit_drawn (o : Output) : (s.emit o).drawn = s.drawn := rfl
@[simp] theorem State.emit_dev (o : Output) : (s.emit o).dev = s.dev := rfl
@[simp] theorem State.emit_cycles (o : Output) : (s.emit o).cycles = s.cycles := rfl
@[simp] theorem State.emit_cycBase (o : Output) : (s.emit o).cycBase = s.cycBase := rfl
@[simp] theorem State.emit_regs (o : Output) : (s.emit o).regs = s.regs := rfl
@[simp] theorem State.emit_holds (o : Output) : (s.emit o).holds = s.holds := rfl
@[simp] theorem State.emit_blocks (o : Output) : (s.emit o).blocks = s.blocks := rfl
@[simp] theorem State.emit_msix (o : Output) : (s.emit o).msix = s.msix := rfl
@[simp] theorem State.emit_mbx (o : Output) : (s.emit o).mbx = s.mbx := rfl
@[simp] theorem State.emit_ports (o : Output) : (s.emit o).ports = s.ports := rfl
@[simp] theorem State.emit_xlat (o : Output) : (s.emit o).xlat = s.xlat := rfl
@[simp] theorem State.emit_ctxs (o : Output) : (s.emit o).ctxs = s.ctxs := rfl
@[simp] theorem State.emit_ctxSlots (o : Output) : (s.emit o).ctxSlots = s.ctxSlots := rfl
@[simp] theorem State.emit_loads (o : Output) : (s.emit o).loads = s.loads := rfl
@[simp] theorem State.emit_reliefInto (o : Output) : (s.emit o).reliefInto = s.reliefInto := rfl
@[simp] theorem State.emit_lastRelief (o : Output) : (s.emit o).lastRelief = s.lastRelief := rfl
@[simp] theorem State.emit_shares (o : Output) : (s.emit o).shares = s.shares := rfl
@[simp] theorem State.emit_dlm (o : Output) : (s.emit o).dlm = s.dlm := rfl
@[simp] theorem State.emit_streams (o : Output) : (s.emit o).streams = s.streams := rfl
@[simp] theorem State.emit_rehoming (o : Output) : (s.emit o).rehoming = s.rehoming := rfl
@[simp] theorem State.emit_recorder (o : Output) : (s.emit o).recorder = s.recorder := rfl
@[simp] theorem State.emit_chans (o : Output) : (s.emit o).chans = s.chans := rfl

@[simp] theorem State.draw_pending : s.draw.pending = s.pending := rfl
@[simp] theorem State.draw_out : s.draw.out = s.out := rfl
@[simp] theorem State.draw_drawn : s.draw.drawn = s.drawn + 1 := rfl
@[simp] theorem State.draw_dev : s.draw.dev = s.dev := rfl
@[simp] theorem State.draw_cycles : s.draw.cycles = s.cycles := rfl
@[simp] theorem State.draw_cycBase : s.draw.cycBase = s.cycBase := rfl
@[simp] theorem State.draw_regs : s.draw.regs = s.regs := rfl
@[simp] theorem State.draw_holds : s.draw.holds = s.holds := rfl
@[simp] theorem State.draw_blocks : s.draw.blocks = s.blocks := rfl
@[simp] theorem State.draw_msix : s.draw.msix = s.msix := rfl
@[simp] theorem State.draw_mbx : s.draw.mbx = s.mbx := rfl
@[simp] theorem State.draw_ports : s.draw.ports = s.ports := rfl
@[simp] theorem State.draw_xlat : s.draw.xlat = s.xlat := rfl
@[simp] theorem State.draw_ctxs : s.draw.ctxs = s.ctxs := rfl
@[simp] theorem State.draw_ctxSlots : s.draw.ctxSlots = s.ctxSlots := rfl
@[simp] theorem State.draw_loads : s.draw.loads = s.loads := rfl
@[simp] theorem State.draw_reliefInto : s.draw.reliefInto = s.reliefInto := rfl
@[simp] theorem State.draw_lastRelief : s.draw.lastRelief = s.lastRelief := rfl
@[simp] theorem State.draw_shares : s.draw.shares = s.shares := rfl
@[simp] theorem State.draw_dlm : s.draw.dlm = s.dlm := rfl
@[simp] theorem State.draw_streams : s.draw.streams = s.streams := rfl
@[simp] theorem State.draw_rehoming : s.draw.rehoming = s.rehoming := rfl
@[simp] theorem State.draw_recorder : s.draw.recorder = s.recorder := rfl
@[simp] theorem State.draw_chans : s.draw.chans = s.chans := rfl

@[simp] theorem State.zeroCyc_pending (p : Page) : (s.zeroCyc p).pending = s.pending := rfl
@[simp] theorem State.zeroCyc_out (p : Page) : (s.zeroCyc p).out = s.out := rfl
@[simp] theorem State.zeroCyc_drawn (p : Page) : (s.zeroCyc p).drawn = s.drawn := rfl
@[simp] theorem State.zeroCyc_dev (p : Page) : (s.zeroCyc p).dev = s.dev := rfl
@[simp] theorem State.zeroCyc_cycles (p : Page) : (s.zeroCyc p).cycles = s.cycles := rfl
@[simp] theorem State.zeroCyc_cycBase (p : Page) : (s.zeroCyc p).cycBase = Tab.set s.cycBase (pageIndex p) (s.cyc (pageDomain p)) := rfl
@[simp] theorem State.zeroCyc_regs (p : Page) : (s.zeroCyc p).regs = s.regs := rfl
@[simp] theorem State.zeroCyc_holds (p : Page) : (s.zeroCyc p).holds = s.holds := rfl
@[simp] theorem State.zeroCyc_blocks (p : Page) : (s.zeroCyc p).blocks = s.blocks := rfl
@[simp] theorem State.zeroCyc_msix (p : Page) : (s.zeroCyc p).msix = s.msix := rfl
@[simp] theorem State.zeroCyc_mbx (p : Page) : (s.zeroCyc p).mbx = s.mbx := rfl
@[simp] theorem State.zeroCyc_ports (p : Page) : (s.zeroCyc p).ports = s.ports := rfl
@[simp] theorem State.zeroCyc_xlat (p : Page) : (s.zeroCyc p).xlat = s.xlat := rfl
@[simp] theorem State.zeroCyc_ctxs (p : Page) : (s.zeroCyc p).ctxs = s.ctxs := rfl
@[simp] theorem State.zeroCyc_ctxSlots (p : Page) : (s.zeroCyc p).ctxSlots = s.ctxSlots := rfl
@[simp] theorem State.zeroCyc_loads (p : Page) : (s.zeroCyc p).loads = s.loads := rfl
@[simp] theorem State.zeroCyc_reliefInto (p : Page) : (s.zeroCyc p).reliefInto = s.reliefInto := rfl
@[simp] theorem State.zeroCyc_lastRelief (p : Page) : (s.zeroCyc p).lastRelief = s.lastRelief := rfl
@[simp] theorem State.zeroCyc_shares (p : Page) : (s.zeroCyc p).shares = s.shares := rfl
@[simp] theorem State.zeroCyc_dlm (p : Page) : (s.zeroCyc p).dlm = s.dlm := rfl
@[simp] theorem State.zeroCyc_streams (p : Page) : (s.zeroCyc p).streams = s.streams := rfl
@[simp] theorem State.zeroCyc_rehoming (p : Page) : (s.zeroCyc p).rehoming = s.rehoming := rfl
@[simp] theorem State.zeroCyc_recorder (p : Page) : (s.zeroCyc p).recorder = s.recorder := rfl
@[simp] theorem State.zeroCyc_chans (p : Page) : (s.zeroCyc p).chans = s.chans := rfl

@[simp] theorem State.chan_modChan (c d : Nat) (f : Channel → Channel) :
    (s.modChan c f).chan d = if d = c then f (s.chan c) else s.chan d := by
  simp [State.chan]

@[simp] theorem State.chan_setChan (c d : Nat) (x : Channel) :
    (s.setChan c x).chan d = if d = c then x else s.chan d := by
  simp [State.chan]

@[simp] theorem State.port_modPort (p q : Nat) (f : Port → Port) :
    (s.modPort p f).port q = if q = p then f (s.port p) else s.port q := by
  simp [State.port]

@[simp] theorem State.slot_modSlot (m n : Nat) (f : MbxSlot → MbxSlot) :
    (s.modSlot m f).slot n = if n = m then f (s.slot m) else s.slot n := by
  simp [State.slot]

theorem State.chan_congr {s t : State} (h : t.chans = s.chans) (c : Nat) : t.chan c = s.chan c := by
  simp [State.chan, h]

theorem State.word_congr {s t : State} (h : t.regs = s.regs) (p : Page) (o : Nat) : t.word p o = s.word p o := by
  simp [State.word, h]

theorem State.rd_congr {s t : State} (h : t.regs = s.regs) (p : Page) (f : Fld) : t.rd p f = s.rd p f := by
  simp [State.rd, State.word_congr h]

end Sys2Proof.Machine
end

