-- ==== Sys2Proof/Laws/Registers.lean ====
section
/-!
SUPPORT. Registers: pages do not overlap, a word or field that is written reads back, and every other one stays.
-/

set_option Elab.async false

namespace Sys2Proof.Machine

/-! ## Pages -/

/-- The page at a page's number is the page (R644, R648, R649). -/
theorem pageAt?_pageIndex (p : Page) : pageAt? (pageIndex p) = some p := by
  cases p with
  | hlk p => revert p; decide +kernel
  | mbx m => revert m; decide +kernel
  | grm c => revert c; decide +kernel
  | cmmu c => revert c; decide +kernel
  | wst c => revert c; decide +kernel
  | ast c => revert c; decide +kernel
  | tnd c => revert c; decide +kernel
  | cvu c => revert c; decide +kernel
  | hbmc c => revert c; decide +kernel
  | ring c r => revert c r; decide +kernel
  | eng c e => revert c e; decide +kernel
  | door c r => revert c r; decide +kernel
  | _ => decide +kernel

theorem pageIndex_inj {p q : Page} (h : pageIndex p = pageIndex q) : p = q := by
  have h1 := pageAt?_pageIndex p
  rw [h, pageAt?_pageIndex q] at h1
  exact (Option.some.inj h1).symm

theorem pageAddr_page {p q : Page} {o o' : Nat} (h : pageAddr p o = pageAddr q o') : p = q := by
  unfold pageAddr at h
  exact pageIndex_inj (by omega)

theorem pageAddr_inj {p q : Page} {o o' : Nat} (ho : o < 4096) (ho' : o' < 4096)
    (h : pageAddr p o = pageAddr q o') : p = q ∧ o = o' := by
  have hp := pageAddr_page h
  unfold pageAddr at h
  exact ⟨hp, by subst hp; omega⟩

/-! ## Words -/

theorem State.word_setWord (s : State) {p q : Page} {o o' v : Nat} (ho : o < 4096) (ho' : o' < 4096) :
    (s.setWord p o v).word q o' = if q = p ∧ o' = o then v % 2 ^ 32 else s.word q o' := by
  unfold State.word
  rw [State.setWord_regs, Tab.get_set]
  by_cases h : q = p ∧ o' = o
  · obtain ⟨rfl, rfl⟩ := h; simp
  · have : pageAddr q o' ≠ pageAddr p o := fun e => h (pageAddr_inj ho' ho e)
    simp [this, h]

/-- A write of a word leaves every word of another page. -/
theorem State.word_setWord_page (s : State) {p q : Page} {o o' v : Nat} (h : q ≠ p) :
    (s.setWord p o v).word q o' = s.word q o' := by
  unfold State.word
  rw [State.setWord_regs, Tab.get_set, if_neg fun e => h (pageAddr_page e)]

@[simp] theorem State.word_setWord_same (s : State) (p : Page) (o v : Nat) : (s.setWord p o v).word p o = v % 2 ^ 32 := by
  simp [State.word]

theorem State.word_setWord_other (s : State) {p q : Page} {o o' : Nat} (v : Nat) (ho : o < 4096) (ho' : o' < 4096)
    (h : q ≠ p ∨ o' ≠ o) : (s.setWord p o v).word q o' = s.word q o' := by
  rw [State.word_setWord s ho ho', if_neg (by tauto)]

/-! ## Fields -/

theorem State.rd_narrow (s : State) (p : Page) {f : Fld} (h : f.lo + f.w ≤ 32) :
    s.rd p f = bitsOf (s.word p f.off) f.lo f.w := by
  simp [State.rd, h]

theorem State.wr_narrow (s : State) (p : Page) {f : Fld} (v : Nat) (h : f.lo + f.w ≤ 32) :
    s.wr p f v = s.setWord p f.off (setBits (s.word p f.off) f.lo f.w v) := by
  simp [State.wr, h]

/-- A field that is written reads back in its width. -/
theorem State.rd_wr_same (s : State) (p : Page) {f : Fld} (v : Nat) (h : f.lo + f.w ≤ 32) :
    (s.wr p f v).rd p f = v % 2 ^ f.w := by
  rw [State.rd_narrow _ _ h, State.wr_narrow _ _ _ h, State.word_setWord_same, bitsOf_mod _ h, bitsOf_setBits_same]

/-- A write of a field leaves every word of another place. -/
theorem State.word_wr_other (s : State) {p q : Page} {f : Fld} {o : Nat} (v : Nat) (h : f.lo + f.w ≤ 32)
    (hf : f.off < 4096) (ho : o < 4096) (hne : q ≠ p ∨ o ≠ f.off) : (s.wr p f v).word q o = s.word q o := by
  rw [State.wr_narrow _ _ _ h, State.word_setWord_other s _ hf ho hne]

/-- A write of a field leaves every field of another place, and every field beside it in its word. -/
theorem State.rd_wr_other (s : State) {p q : Page} {f g : Fld} (v : Nat) (hf : f.lo + f.w ≤ 32)
    (hg : g.lo + g.w ≤ 32) (of : f.off < 4096) (og : g.off < 4096)
    (h : q ≠ p ∨ g.off ≠ f.off ∨ g.lo + g.w ≤ f.lo ∨ f.lo + f.w ≤ g.lo) : (s.wr p f v).rd q g = s.rd q g := by
  rw [State.rd_narrow _ _ hg, State.rd_narrow _ _ hg]
  by_cases hne : q ≠ p ∨ g.off ≠ f.off
  · rw [State.word_wr_other s v hf of og hne]
  · have hp : q = p := by tauto
    have ho : g.off = f.off := by tauto
    subst hp
    rw [State.wr_narrow _ _ _ hf, ho, State.word_setWord_same, bitsOf_mod _ hg, bitsOf_setBits_other]
    tauto

/-- A write of a field leaves all of the state but the register words. -/
theorem State.wr_eq (s : State) (p : Page) (f : Fld) (v : Nat) :
    s.wr p f v = { s with regs := (s.wr p f v).regs } := by
  unfold State.wr
  split <;> rfl

@[simp] theorem State.rd_emit (s : State) (o : Output) (p : Page) (f : Fld) : (s.emit o).rd p f = s.rd p f := rfl
@[simp] theorem State.rd_draw (s : State) (p : Page) (f : Fld) : s.draw.rd p f = s.rd p f := rfl
@[simp] theorem State.rd_modChan (s : State) (c : Nat) (g : Channel → Channel) (p : Page) (f : Fld) :
    (s.modChan c g).rd p f = s.rd p f := rfl
@[simp] theorem State.rd_modDev (s : State) (g : Device → Device) (p : Page) (f : Fld) :
    (s.modDev g).rd p f = s.rd p f := rfl
@[simp] theorem State.rd_modXlat (s : State) (g : Translation → Translation) (p : Page) (f : Fld) :
    (s.modXlat g).rd p f = s.rd p f := rfl
@[simp] theorem State.rd_modRec (s : State) (g : Recorder → Recorder) (p : Page) (f : Fld) :
    (s.modRec g).rd p f = s.rd p f := rfl

/-- A vector changes only the MSI-X table or the output (R541). -/
theorem State.sendVector_frame (s : State) (v : Nat) :
    ∃ m o, s.sendVector v = { s with msix := m, out := s.out ++ o } := by
  by_cases h : (s.dev.functionMask || (Tab.get {} s.msix v).masked) = true
  · exact ⟨_, [], by simp [State.sendVector, h]; rfl⟩
  · exact ⟨s.msix, [.msix v], by simp [State.sendVector, h, State.emit]⟩

theorem State.signalFrom_frame (s : State) (p : Page) (before : Nat) :
    ∃ m o, s.signalFrom p before = { s with msix := m, out := s.out ++ o } := by
  unfold State.signalFrom
  dsimp only
  split
  · exact s.sendVector_frame _
  · exact ⟨s.msix, [], by simp⟩

/-- An event on a page sets its bits of INT_RAW, and else changes only the MSI-X table and the output (R654). -/
theorem State.raiseBits_frame (s : State) (p : Page) (bits : Nat) :
    ∃ m o, s.raiseBits p bits =
      { s.wr p Reg.intRaw_RAW (s.rd p Reg.intRaw_RAW ||| bits) with msix := m, out := s.out ++ o } := by
  obtain ⟨m, o, h⟩ := (s.wr p Reg.intRaw_RAW (s.rd p Reg.intRaw_RAW ||| bits)).signalFrom_frame p (s.intStat p)
  refine ⟨m, o, ?_⟩
  unfold State.raiseBits
  dsimp only
  rw [h, show (s.wr p Reg.intRaw_RAW (s.rd p Reg.intRaw_RAW ||| bits)).out = s.out by rw [State.wr_eq]]

theorem State.word_raise_other (s : State) {p q : Page} {n o : Nat} (ho : o < 4096) (h : q ≠ p ∨ o ≠ 0x10) :
    (s.raise p n).word q o = s.word q o := by
  obtain ⟨m, l, e⟩ := s.raiseBits_frame p (2 ^ n)
  unfold State.raise
  rw [e]
  exact State.word_wr_other s _ (by decide) (by decide) ho h

/-- An event leaves every field outside the page's INT_RAW. -/
theorem State.rd_raise_other (s : State) {p q : Page} {n : Nat} {f : Fld} (hf : f.lo + f.w ≤ 32) (ho : f.off < 4096)
    (h : q ≠ p ∨ f.off ≠ 0x10) : (s.raise p n).rd q f = s.rd q f := by
  rw [State.rd_narrow _ _ hf, State.rd_narrow _ _ hf, State.word_raise_other s ho h]

/-- After an event its bit of INT_RAW reads 1. -/
theorem State.rd_raise_raw (s : State) (p : Page) (n : Nat) :
    (s.raise p n).rd p Reg.intRaw_RAW = (s.rd p Reg.intRaw_RAW ||| 2 ^ n) % 2 ^ 32 := by
  obtain ⟨m, l, e⟩ := s.raiseBits_frame p (2 ^ n)
  unfold State.raise
  rw [e]
  exact State.rd_wr_same s p _ (by decide)

end Sys2Proof.Machine
end

