-- ==== Sys2Proof/Laws/Fields.lean ====
section
/-!
SUPPORT. What the operations on registers, interrupts and logs leave: every other field of the state, and every
register of another page.
-/

set_option Elab.async false

namespace Sys2Proof.Machine

variable (s : State)

@[simp] theorem State.wr_pending (p : Page) (f : Fld) (v : Nat) : (s.wr p f v).pending = s.pending := by rw [State.wr_eq]
@[simp] theorem State.wr_out (p : Page) (f : Fld) (v : Nat) : (s.wr p f v).out = s.out := by rw [State.wr_eq]
@[simp] theorem State.wr_drawn (p : Page) (f : Fld) (v : Nat) : (s.wr p f v).drawn = s.drawn := by rw [State.wr_eq]
@[simp] theorem State.wr_dev (p : Page) (f : Fld) (v : Nat) : (s.wr p f v).dev = s.dev := by rw [State.wr_eq]
@[simp] theorem State.wr_cycles (p : Page) (f : Fld) (v : Nat) : (s.wr p f v).cycles = s.cycles := by rw [State.wr_eq]
@[simp] theorem State.wr_cycBase (p : Page) (f : Fld) (v : Nat) : (s.wr p f v).cycBase = s.cycBase := by rw [State.wr_eq]
@[simp] theorem State.wr_holds (p : Page) (f : Fld) (v : Nat) : (s.wr p f v).holds = s.holds := by rw [State.wr_eq]
@[simp] theorem State.wr_blocks (p : Page) (f : Fld) (v : Nat) : (s.wr p f v).blocks = s.blocks := by rw [State.wr_eq]
@[simp] theorem State.wr_msix (p : Page) (f : Fld) (v : Nat) : (s.wr p f v).msix = s.msix := by rw [State.wr_eq]
@[simp] theorem State.wr_mbx (p : Page) (f : Fld) (v : Nat) : (s.wr p f v).mbx = s.mbx := by rw [State.wr_eq]
@[simp] theorem State.wr_ports (p : Page) (f : Fld) (v : Nat) : (s.wr p f v).ports = s.ports := by rw [State.wr_eq]
@[simp] theorem State.wr_xlat (p : Page) (f : Fld) (v : Nat) : (s.wr p f v).xlat = s.xlat := by rw [State.wr_eq]
@[simp] theorem State.wr_ctxs (p : Page) (f : Fld) (v : Nat) : (s.wr p f v).ctxs = s.ctxs := by rw [State.wr_eq]
@[simp] theorem State.wr_ctxSlots (p : Page) (f : Fld) (v : Nat) : (s.wr p f v).ctxSlots = s.ctxSlots := by rw [State.wr_eq]
@[simp] theorem State.wr_loads (p : Page) (f : Fld) (v : Nat) : (s.wr p f v).loads = s.loads := by rw [State.wr_eq]
@[simp] theorem State.wr_reliefInto (p : Page) (f : Fld) (v : Nat) : (s.wr p f v).reliefInto = s.reliefInto := by rw [State.wr_eq]
@[simp] theorem State.wr_lastRelief (p : Page) (f : Fld) (v : Nat) : (s.wr p f v).lastRelief = s.lastRelief := by rw [State.wr_eq]
@[simp] theorem State.wr_shares (p : Page) (f : Fld) (v : Nat) : (s.wr p f v).shares = s.shares := by rw [State.wr_eq]
@[simp] theorem State.wr_dlm (p : Page) (f : Fld) (v : Nat) : (s.wr p f v).dlm = s.dlm := by rw [State.wr_eq]
@[simp] theorem State.wr_streams (p : Page) (f : Fld) (v : Nat) : (s.wr p f v).streams = s.streams := by rw [State.wr_eq]
@[simp] theorem State.wr_rehoming (p : Page) (f : Fld) (v : Nat) : (s.wr p f v).rehoming = s.rehoming := by rw [State.wr_eq]
@[simp] theorem State.wr_recorder (p : Page) (f : Fld) (v : Nat) : (s.wr p f v).recorder = s.recorder := by rw [State.wr_eq]
@[simp] theorem State.wr_chans (p : Page) (f : Fld) (v : Nat) : (s.wr p f v).chans = s.chans := by rw [State.wr_eq]

@[simp] theorem State.bump_pending (p : Page) (f : Fld) (n : Nat) : (s.bump p f n).pending = s.pending := State.wr_pending _ _ _ _
@[simp] theorem State.bump_out (p : Page) (f : Fld) (n : Nat) : (s.bump p f n).out = s.out := State.wr_out _ _ _ _
@[simp] theorem State.bump_drawn (p : Page) (f : Fld) (n : Nat) : (s.bump p f n).drawn = s.drawn := State.wr_drawn _ _ _ _
@[simp] theorem State.bump_dev (p : Page) (f : Fld) (n : Nat) : (s.bump p f n).dev = s.dev := State.wr_dev _ _ _ _
@[simp] theorem State.bump_cycles (p : Page) (f : Fld) (n : Nat) : (s.bump p f n).cycles = s.cycles := State.wr_cycles _ _ _ _
@[simp] theorem State.bump_cycBase (p : Page) (f : Fld) (n : Nat) : (s.bump p f n).cycBase = s.cycBase := State.wr_cycBase _ _ _ _
@[simp] theorem State.bump_holds (p : Page) (f : Fld) (n : Nat) : (s.bump p f n).holds = s.holds := State.wr_holds _ _ _ _
@[simp] theorem State.bump_blocks (p : Page) (f : Fld) (n : Nat) : (s.bump p f n).blocks = s.blocks := State.wr_blocks _ _ _ _
@[simp] theorem State.bump_msix (p : Page) (f : Fld) (n : Nat) : (s.bump p f n).msix = s.msix := State.wr_msix _ _ _ _
@[simp] theorem State.bump_mbx (p : Page) (f : Fld) (n : Nat) : (s.bump p f n).mbx = s.mbx := State.wr_mbx _ _ _ _
@[simp] theorem State.bump_ports (p : Page) (f : Fld) (n : Nat) : (s.bump p f n).ports = s.ports := State.wr_ports _ _ _ _
@[simp] theorem State.bump_xlat (p : Page) (f : Fld) (n : Nat) : (s.bump p f n).xlat = s.xlat := State.wr_xlat _ _ _ _
@[simp] theorem State.bump_ctxs (p : Page) (f : Fld) (n : Nat) : (s.bump p f n).ctxs = s.ctxs := State.wr_ctxs _ _ _ _
@[simp] theorem State.bump_ctxSlots (p : Page) (f : Fld) (n : Nat) : (s.bump p f n).ctxSlots = s.ctxSlots := State.wr_ctxSlots _ _ _ _
@[simp] theorem State.bump_loads (p : Page) (f : Fld) (n : Nat) : (s.bump p f n).loads = s.loads := State.wr_loads _ _ _ _
@[simp] theorem State.bump_reliefInto (p : Page) (f : Fld) (n : Nat) : (s.bump p f n).reliefInto = s.reliefInto := State.wr_reliefInto _ _ _ _
@[simp] theorem State.bump_lastRelief (p : Page) (f : Fld) (n : Nat) : (s.bump p f n).lastRelief = s.lastRelief := State.wr_lastRelief _ _ _ _
@[simp] theorem State.bump_shares (p : Page) (f : Fld) (n : Nat) : (s.bump p f n).shares = s.shares := State.wr_shares _ _ _ _
@[simp] theorem State.bump_dlm (p : Page) (f : Fld) (n : Nat) : (s.bump p f n).dlm = s.dlm := State.wr_dlm _ _ _ _
@[simp] theorem State.bump_streams (p : Page) (f : Fld) (n : Nat) : (s.bump p f n).streams = s.streams := State.wr_streams _ _ _ _
@[simp] theorem State.bump_rehoming (p : Page) (f : Fld) (n : Nat) : (s.bump p f n).rehoming = s.rehoming := State.wr_rehoming _ _ _ _
@[simp] theorem State.bump_recorder (p : Page) (f : Fld) (n : Nat) : (s.bump p f n).recorder = s.recorder := State.wr_recorder _ _ _ _
@[simp] theorem State.bump_chans (p : Page) (f : Fld) (n : Nat) : (s.bump p f n).chans = s.chans := State.wr_chans _ _ _ _

@[simp] theorem State.wrap_pending (p : Page) (f : Fld) (n : Nat) : (s.wrap p f n).pending = s.pending := State.wr_pending _ _ _ _
@[simp] theorem State.wrap_out (p : Page) (f : Fld) (n : Nat) : (s.wrap p f n).out = s.out := State.wr_out _ _ _ _
@[simp] theorem State.wrap_drawn (p : Page) (f : Fld) (n : Nat) : (s.wrap p f n).drawn = s.drawn := State.wr_drawn _ _ _ _
@[simp] theorem State.wrap_dev (p : Page) (f : Fld) (n : Nat) : (s.wrap p f n).dev = s.dev := State.wr_dev _ _ _ _
@[simp] theorem State.wrap_cycles (p : Page) (f : Fld) (n : Nat) : (s.wrap p f n).cycles = s.cycles := State.wr_cycles _ _ _ _
@[simp] theorem State.wrap_cycBase (p : Page) (f : Fld) (n : Nat) : (s.wrap p f n).cycBase = s.cycBase := State.wr_cycBase _ _ _ _
@[simp] theorem State.wrap_holds (p : Page) (f : Fld) (n : Nat) : (s.wrap p f n).holds = s.holds := State.wr_holds _ _ _ _
@[simp] theorem State.wrap_blocks (p : Page) (f : Fld) (n : Nat) : (s.wrap p f n).blocks = s.blocks := State.wr_blocks _ _ _ _
@[simp] theorem State.wrap_msix (p : Page) (f : Fld) (n : Nat) : (s.wrap p f n).msix = s.msix := State.wr_msix _ _ _ _
@[simp] theorem State.wrap_mbx (p : Page) (f : Fld) (n : Nat) : (s.wrap p f n).mbx = s.mbx := State.wr_mbx _ _ _ _
@[simp] theorem State.wrap_ports (p : Page) (f : Fld) (n : Nat) : (s.wrap p f n).ports = s.ports := State.wr_ports _ _ _ _
@[simp] theorem State.wrap_xlat (p : Page) (f : Fld) (n : Nat) : (s.wrap p f n).xlat = s.xlat := State.wr_xlat _ _ _ _
@[simp] theorem State.wrap_ctxs (p : Page) (f : Fld) (n : Nat) : (s.wrap p f n).ctxs = s.ctxs := State.wr_ctxs _ _ _ _
@[simp] theorem State.wrap_ctxSlots (p : Page) (f : Fld) (n : Nat) : (s.wrap p f n).ctxSlots = s.ctxSlots := State.wr_ctxSlots _ _ _ _
@[simp] theorem State.wrap_loads (p : Page) (f : Fld) (n : Nat) : (s.wrap p f n).loads = s.loads := State.wr_loads _ _ _ _
@[simp] theorem State.wrap_reliefInto (p : Page) (f : Fld) (n : Nat) : (s.wrap p f n).reliefInto = s.reliefInto := State.wr_reliefInto _ _ _ _
@[simp] theorem State.wrap_lastRelief (p : Page) (f : Fld) (n : Nat) : (s.wrap p f n).lastRelief = s.lastRelief := State.wr_lastRelief _ _ _ _
@[simp] theorem State.wrap_shares (p : Page) (f : Fld) (n : Nat) : (s.wrap p f n).shares = s.shares := State.wr_shares _ _ _ _
@[simp] theorem State.wrap_dlm (p : Page) (f : Fld) (n : Nat) : (s.wrap p f n).dlm = s.dlm := State.wr_dlm _ _ _ _
@[simp] theorem State.wrap_streams (p : Page) (f : Fld) (n : Nat) : (s.wrap p f n).streams = s.streams := State.wr_streams _ _ _ _
@[simp] theorem State.wrap_rehoming (p : Page) (f : Fld) (n : Nat) : (s.wrap p f n).rehoming = s.rehoming := State.wr_rehoming _ _ _ _
@[simp] theorem State.wrap_recorder (p : Page) (f : Fld) (n : Nat) : (s.wrap p f n).recorder = s.recorder := State.wr_recorder _ _ _ _
@[simp] theorem State.wrap_chans (p : Page) (f : Fld) (n : Nat) : (s.wrap p f n).chans = s.chans := State.wr_chans _ _ _ _

@[simp] theorem State.corrected_pending (p : Page) (n : Nat) : (s.corrected p n).pending = s.pending := State.wr_pending _ _ _ _
@[simp] theorem State.corrected_out (p : Page) (n : Nat) : (s.corrected p n).out = s.out := State.wr_out _ _ _ _
@[simp] theorem State.corrected_drawn (p : Page) (n : Nat) : (s.corrected p n).drawn = s.drawn := State.wr_drawn _ _ _ _
@[simp] theorem State.corrected_dev (p : Page) (n : Nat) : (s.corrected p n).dev = s.dev := State.wr_dev _ _ _ _
@[simp] theorem State.corrected_cycles (p : Page) (n : Nat) : (s.corrected p n).cycles = s.cycles := State.wr_cycles _ _ _ _
@[simp] theorem State.corrected_cycBase (p : Page) (n : Nat) : (s.corrected p n).cycBase = s.cycBase := State.wr_cycBase _ _ _ _
@[simp] theorem State.corrected_holds (p : Page) (n : Nat) : (s.corrected p n).holds = s.holds := State.wr_holds _ _ _ _
@[simp] theorem State.corrected_blocks (p : Page) (n : Nat) : (s.corrected p n).blocks = s.blocks := State.wr_blocks _ _ _ _
@[simp] theorem State.corrected_msix (p : Page) (n : Nat) : (s.corrected p n).msix = s.msix := State.wr_msix _ _ _ _
@[simp] theorem State.corrected_mbx (p : Page) (n : Nat) : (s.corrected p n).mbx = s.mbx := State.wr_mbx _ _ _ _
@[simp] theorem State.corrected_ports (p : Page) (n : Nat) : (s.corrected p n).ports = s.ports := State.wr_ports _ _ _ _
@[simp] theorem State.corrected_xlat (p : Page) (n : Nat) : (s.corrected p n).xlat = s.xlat := State.wr_xlat _ _ _ _
@[simp] theorem State.corrected_ctxs (p : Page) (n : Nat) : (s.corrected p n).ctxs = s.ctxs := State.wr_ctxs _ _ _ _
@[simp] theorem State.corrected_ctxSlots (p : Page) (n : Nat) : (s.corrected p n).ctxSlots = s.ctxSlots := State.wr_ctxSlots _ _ _ _
@[simp] theorem State.corrected_loads (p : Page) (n : Nat) : (s.corrected p n).loads = s.loads := State.wr_loads _ _ _ _
@[simp] theorem State.corrected_reliefInto (p : Page) (n : Nat) : (s.corrected p n).reliefInto = s.reliefInto := State.wr_reliefInto _ _ _ _
@[simp] theorem State.corrected_lastRelief (p : Page) (n : Nat) : (s.corrected p n).lastRelief = s.lastRelief := State.wr_lastRelief _ _ _ _
@[simp] theorem State.corrected_shares (p : Page) (n : Nat) : (s.corrected p n).shares = s.shares := State.wr_shares _ _ _ _
@[simp] theorem State.corrected_dlm (p : Page) (n : Nat) : (s.corrected p n).dlm = s.dlm := State.wr_dlm _ _ _ _
@[simp] theorem State.corrected_streams (p : Page) (n : Nat) : (s.corrected p n).streams = s.streams := State.wr_streams _ _ _ _
@[simp] theorem State.corrected_rehoming (p : Page) (n : Nat) : (s.corrected p n).rehoming = s.rehoming := State.wr_rehoming _ _ _ _
@[simp] theorem State.corrected_recorder (p : Page) (n : Nat) : (s.corrected p n).recorder = s.recorder := State.wr_recorder _ _ _ _
@[simp] theorem State.corrected_chans (p : Page) (n : Nat) : (s.corrected p n).chans = s.chans := State.wr_chans _ _ _ _

@[simp] theorem State.recordStall_pending : (s.recordStall).pending = s.pending := State.wr_pending _ _ _ _
@[simp] theorem State.recordStall_out : (s.recordStall).out = s.out := State.wr_out _ _ _ _
@[simp] theorem State.recordStall_drawn : (s.recordStall).drawn = s.drawn := State.wr_drawn _ _ _ _
@[simp] theorem State.recordStall_dev : (s.recordStall).dev = s.dev := State.wr_dev _ _ _ _
@[simp] theorem State.recordStall_cycles : (s.recordStall).cycles = s.cycles := State.wr_cycles _ _ _ _
@[simp] theorem State.recordStall_cycBase : (s.recordStall).cycBase = s.cycBase := State.wr_cycBase _ _ _ _
@[simp] theorem State.recordStall_holds : (s.recordStall).holds = s.holds := State.wr_holds _ _ _ _
@[simp] theorem State.recordStall_blocks : (s.recordStall).blocks = s.blocks := State.wr_blocks _ _ _ _
@[simp] theorem State.recordStall_msix : (s.recordStall).msix = s.msix := State.wr_msix _ _ _ _
@[simp] theorem State.recordStall_mbx : (s.recordStall).mbx = s.mbx := State.wr_mbx _ _ _ _
@[simp] theorem State.recordStall_ports : (s.recordStall).ports = s.ports := State.wr_ports _ _ _ _
@[simp] theorem State.recordStall_xlat : (s.recordStall).xlat = s.xlat := State.wr_xlat _ _ _ _
@[simp] theorem State.recordStall_ctxs : (s.recordStall).ctxs = s.ctxs := State.wr_ctxs _ _ _ _
@[simp] theorem State.recordStall_ctxSlots : (s.recordStall).ctxSlots = s.ctxSlots := State.wr_ctxSlots _ _ _ _
@[simp] theorem State.recordStall_loads : (s.recordStall).loads = s.loads := State.wr_loads _ _ _ _
@[simp] theorem State.recordStall_reliefInto : (s.recordStall).reliefInto = s.reliefInto := State.wr_reliefInto _ _ _ _
@[simp] theorem State.recordStall_lastRelief : (s.recordStall).lastRelief = s.lastRelief := State.wr_lastRelief _ _ _ _
@[simp] theorem State.recordStall_shares : (s.recordStall).shares = s.shares := State.wr_shares _ _ _ _
@[simp] theorem State.recordStall_dlm : (s.recordStall).dlm = s.dlm := State.wr_dlm _ _ _ _
@[simp] theorem State.recordStall_streams : (s.recordStall).streams = s.streams := State.wr_streams _ _ _ _
@[simp] theorem State.recordStall_rehoming : (s.recordStall).rehoming = s.rehoming := State.wr_rehoming _ _ _ _
@[simp] theorem State.recordStall_recorder : (s.recordStall).recorder = s.recorder := State.wr_recorder _ _ _ _
@[simp] theorem State.recordStall_chans : (s.recordStall).chans = s.chans := State.wr_chans _ _ _ _

@[simp] theorem State.sendVector_pending (v : Nat) : (s.sendVector v).pending = s.pending := by obtain ⟨m, o, e⟩ := s.sendVector_frame v; rw [e]
@[simp] theorem State.sendVector_drawn (v : Nat) : (s.sendVector v).drawn = s.drawn := by obtain ⟨m, o, e⟩ := s.sendVector_frame v; rw [e]
@[simp] theorem State.sendVector_dev (v : Nat) : (s.sendVector v).dev = s.dev := by obtain ⟨m, o, e⟩ := s.sendVector_frame v; rw [e]
@[simp] theorem State.sendVector_cycles (v : Nat) : (s.sendVector v).cycles = s.cycles := by obtain ⟨m, o, e⟩ := s.sendVector_frame v; rw [e]
@[simp] theorem State.sendVector_cycBase (v : Nat) : (s.sendVector v).cycBase = s.cycBase := by obtain ⟨m, o, e⟩ := s.sendVector_frame v; rw [e]
@[simp] theorem State.sendVector_regs (v : Nat) : (s.sendVector v).regs = s.regs := by obtain ⟨m, o, e⟩ := s.sendVector_frame v; rw [e]
@[simp] theorem State.sendVector_holds (v : Nat) : (s.sendVector v).holds = s.holds := by obtain ⟨m, o, e⟩ := s.sendVector_frame v; rw [e]
@[simp] theorem State.sendVector_blocks (v : Nat) : (s.sendVector v).blocks = s.blocks := by obtain ⟨m, o, e⟩ := s.sendVector_frame v; rw [e]
@[simp] theorem State.sendVector_mbx (v : Nat) : (s.sendVector v).mbx = s.mbx := by obtain ⟨m, o, e⟩ := s.sendVector_frame v; rw [e]
@[simp] theorem State.sendVector_ports (v : Nat) : (s.sendVector v).ports = s.ports := by obtain ⟨m, o, e⟩ := s.sendVector_frame v; rw [e]
@[simp] theorem State.sendVector_xlat (v : Nat) : (s.sendVector v).xlat = s.xlat := by obtain ⟨m, o, e⟩ := s.sendVector_frame v; rw [e]
@[simp] theorem State.sendVector_ctxs (v : Nat) : (s.sendVector v).ctxs = s.ctxs := by obtain ⟨m, o, e⟩ := s.sendVector_frame v; rw [e]
@[simp] theorem State.sendVector_ctxSlots (v : Nat) : (s.sendVector v).ctxSlots = s.ctxSlots := by obtain ⟨m, o, e⟩ := s.sendVector_frame v; rw [e]
@[simp] theorem State.sendVector_loads (v : Nat) : (s.sendVector v).loads = s.loads := by obtain ⟨m, o, e⟩ := s.sendVector_frame v; rw [e]
@[simp] theorem State.sendVector_reliefInto (v : Nat) : (s.sendVector v).reliefInto = s.reliefInto := by obtain ⟨m, o, e⟩ := s.sendVector_frame v; rw [e]
@[simp] theorem State.sendVector_lastRelief (v : Nat) : (s.sendVector v).lastRelief = s.lastRelief := by obtain ⟨m, o, e⟩ := s.sendVector_frame v; rw [e]
@[simp] theorem State.sendVector_shares (v : Nat) : (s.sendVector v).shares = s.shares := by obtain ⟨m, o, e⟩ := s.sendVector_frame v; rw [e]
@[simp] theorem State.sendVector_dlm (v : Nat) : (s.sendVector v).dlm = s.dlm := by obtain ⟨m, o, e⟩ := s.sendVector_frame v; rw [e]
@[simp] theorem State.sendVector_streams (v : Nat) : (s.sendVector v).streams = s.streams := by obtain ⟨m, o, e⟩ := s.sendVector_frame v; rw [e]
@[simp] theorem State.sendVector_rehoming (v : Nat) : (s.sendVector v).rehoming = s.rehoming := by obtain ⟨m, o, e⟩ := s.sendVector_frame v; rw [e]
@[simp] theorem State.sendVector_recorder (v : Nat) : (s.sendVector v).recorder = s.recorder := by obtain ⟨m, o, e⟩ := s.sendVector_frame v; rw [e]
@[simp] theorem State.sendVector_chans (v : Nat) : (s.sendVector v).chans = s.chans := by obtain ⟨m, o, e⟩ := s.sendVector_frame v; rw [e]

@[simp] theorem State.signalFrom_pending (p : Page) (n : Nat) : (s.signalFrom p n).pending = s.pending := by obtain ⟨m, o, e⟩ := s.signalFrom_frame p n; rw [e]
@[simp] theorem State.signalFrom_drawn (p : Page) (n : Nat) : (s.signalFrom p n).drawn = s.drawn := by obtain ⟨m, o, e⟩ := s.signalFrom_frame p n; rw [e]
@[simp] theorem State.signalFrom_dev (p : Page) (n : Nat) : (s.signalFrom p n).dev = s.dev := by obtain ⟨m, o, e⟩ := s.signalFrom_frame p n; rw [e]
@[simp] theorem State.signalFrom_cycles (p : Page) (n : Nat) : (s.signalFrom p n).cycles = s.cycles := by obtain ⟨m, o, e⟩ := s.signalFrom_frame p n; rw [e]
@[simp] theorem State.signalFrom_cycBase (p : Page) (n : Nat) : (s.signalFrom p n).cycBase = s.cycBase := by obtain ⟨m, o, e⟩ := s.signalFrom_frame p n; rw [e]
@[simp] theorem State.signalFrom_regs (p : Page) (n : Nat) : (s.signalFrom p n).regs = s.regs := by obtain ⟨m, o, e⟩ := s.signalFrom_frame p n; rw [e]
@[simp] theorem State.signalFrom_holds (p : Page) (n : Nat) : (s.signalFrom p n).holds = s.holds := by obtain ⟨m, o, e⟩ := s.signalFrom_frame p n; rw [e]
@[simp] theorem State.signalFrom_blocks (p : Page) (n : Nat) : (s.signalFrom p n).blocks = s.blocks := by obtain ⟨m, o, e⟩ := s.signalFrom_frame p n; rw [e]
@[simp] theorem State.signalFrom_mbx (p : Page) (n : Nat) : (s.signalFrom p n).mbx = s.mbx := by obtain ⟨m, o, e⟩ := s.signalFrom_frame p n; rw [e]
@[simp] theorem State.signalFrom_ports (p : Page) (n : Nat) : (s.signalFrom p n).ports = s.ports := by obtain ⟨m, o, e⟩ := s.signalFrom_frame p n; rw [e]
@[simp] theorem State.signalFrom_xlat (p : Page) (n : Nat) : (s.signalFrom p n).xlat = s.xlat := by obtain ⟨m, o, e⟩ := s.signalFrom_frame p n; rw [e]
@[simp] theorem State.signalFrom_ctxs (p : Page) (n : Nat) : (s.signalFrom p n).ctxs = s.ctxs := by obtain ⟨m, o, e⟩ := s.signalFrom_frame p n; rw [e]
@[simp] theorem State.signalFrom_ctxSlots (p : Page) (n : Nat) : (s.signalFrom p n).ctxSlots = s.ctxSlots := by obtain ⟨m, o, e⟩ := s.signalFrom_frame p n; rw [e]
@[simp] theorem State.signalFrom_loads (p : Page) (n : Nat) : (s.signalFrom p n).loads = s.loads := by obtain ⟨m, o, e⟩ := s.signalFrom_frame p n; rw [e]
@[simp] theorem State.signalFrom_reliefInto (p : Page) (n : Nat) : (s.signalFrom p n).reliefInto = s.reliefInto := by obtain ⟨m, o, e⟩ := s.signalFrom_frame p n; rw [e]
@[simp] theorem State.signalFrom_lastRelief (p : Page) (n : Nat) : (s.signalFrom p n).lastRelief = s.lastRelief := by obtain ⟨m, o, e⟩ := s.signalFrom_frame p n; rw [e]
@[simp] theorem State.signalFrom_shares (p : Page) (n : Nat) : (s.signalFrom p n).shares = s.shares := by obtain ⟨m, o, e⟩ := s.signalFrom_frame p n; rw [e]
@[simp] theorem State.signalFrom_dlm (p : Page) (n : Nat) : (s.signalFrom p n).dlm = s.dlm := by obtain ⟨m, o, e⟩ := s.signalFrom_frame p n; rw [e]
@[simp] theorem State.signalFrom_streams (p : Page) (n : Nat) : (s.signalFrom p n).streams = s.streams := by obtain ⟨m, o, e⟩ := s.signalFrom_frame p n; rw [e]
@[simp] theorem State.signalFrom_rehoming (p : Page) (n : Nat) : (s.signalFrom p n).rehoming = s.rehoming := by obtain ⟨m, o, e⟩ := s.signalFrom_frame p n; rw [e]
@[simp] theorem State.signalFrom_recorder (p : Page) (n : Nat) : (s.signalFrom p n).recorder = s.recorder := by obtain ⟨m, o, e⟩ := s.signalFrom_frame p n; rw [e]
@[simp] theorem State.signalFrom_chans (p : Page) (n : Nat) : (s.signalFrom p n).chans = s.chans := by obtain ⟨m, o, e⟩ := s.signalFrom_frame p n; rw [e]

@[simp] theorem State.raiseBits_pending (p : Page) (n : Nat) : (s.raiseBits p n).pending = s.pending := by simp [State.raiseBits]
@[simp] theorem State.raiseBits_drawn (p : Page) (n : Nat) : (s.raiseBits p n).drawn = s.drawn := by simp [State.raiseBits]
@[simp] theorem State.raiseBits_dev (p : Page) (n : Nat) : (s.raiseBits p n).dev = s.dev := by simp [State.raiseBits]
@[simp] theorem State.raiseBits_cycles (p : Page) (n : Nat) : (s.raiseBits p n).cycles = s.cycles := by simp [State.raiseBits]
@[simp] theorem State.raiseBits_cycBase (p : Page) (n : Nat) : (s.raiseBits p n).cycBase = s.cycBase := by simp [State.raiseBits]
@[simp] theorem State.raiseBits_holds (p : Page) (n : Nat) : (s.raiseBits p n).holds = s.holds := by simp [State.raiseBits]
@[simp] theorem State.raiseBits_blocks (p : Page) (n : Nat) : (s.raiseBits p n).blocks = s.blocks := by simp [State.raiseBits]
@[simp] theorem State.raiseBits_mbx (p : Page) (n : Nat) : (s.raiseBits p n).mbx = s.mbx := by simp [State.raiseBits]
@[simp] theorem State.raiseBits_ports (p : Page) (n : Nat) : (s.raiseBits p n).ports = s.ports := by simp [State.raiseBits]
@[simp] theorem State.raiseBits_xlat (p : Page) (n : Nat) : (s.raiseBits p n).xlat = s.xlat := by simp [State.raiseBits]
@[simp] theorem State.raiseBits_ctxs (p : Page) (n : Nat) : (s.raiseBits p n).ctxs = s.ctxs := by simp [State.raiseBits]
@[simp] theorem State.raiseBits_ctxSlots (p : Page) (n : Nat) : (s.raiseBits p n).ctxSlots = s.ctxSlots := by simp [State.raiseBits]
@[simp] theorem State.raiseBits_loads (p : Page) (n : Nat) : (s.raiseBits p n).loads = s.loads := by simp [State.raiseBits]
@[simp] theorem State.raiseBits_reliefInto (p : Page) (n : Nat) : (s.raiseBits p n).reliefInto = s.reliefInto := by simp [State.raiseBits]
@[simp] theorem State.raiseBits_lastRelief (p : Page) (n : Nat) : (s.raiseBits p n).lastRelief = s.lastRelief := by simp [State.raiseBits]
@[simp] theorem State.raiseBits_shares (p : Page) (n : Nat) : (s.raiseBits p n).shares = s.shares := by simp [State.raiseBits]
@[simp] theorem State.raiseBits_dlm (p : Page) (n : Nat) : (s.raiseBits p n).dlm = s.dlm := by simp [State.raiseBits]
@[simp] theorem State.raiseBits_streams (p : Page) (n : Nat) : (s.raiseBits p n).streams = s.streams := by simp [State.raiseBits]
@[simp] theorem State.raiseBits_rehoming (p : Page) (n : Nat) : (s.raiseBits p n).rehoming = s.rehoming := by simp [State.raiseBits]
@[simp] theorem State.raiseBits_recorder (p : Page) (n : Nat) : (s.raiseBits p n).recorder = s.recorder := by simp [State.raiseBits]
@[simp] theorem State.raiseBits_chans (p : Page) (n : Nat) : (s.raiseBits p n).chans = s.chans := by simp [State.raiseBits]

@[simp] theorem State.raise_pending (p : Page) (n : Nat) : (s.raise p n).pending = s.pending := State.raiseBits_pending _ _ _
@[simp] theorem State.raise_drawn (p : Page) (n : Nat) : (s.raise p n).drawn = s.drawn := State.raiseBits_drawn _ _ _
@[simp] theorem State.raise_dev (p : Page) (n : Nat) : (s.raise p n).dev = s.dev := State.raiseBits_dev _ _ _
@[simp] theorem State.raise_cycles (p : Page) (n : Nat) : (s.raise p n).cycles = s.cycles := State.raiseBits_cycles _ _ _
@[simp] theorem State.raise_cycBase (p : Page) (n : Nat) : (s.raise p n).cycBase = s.cycBase := State.raiseBits_cycBase _ _ _
@[simp] theorem State.raise_holds (p : Page) (n : Nat) : (s.raise p n).holds = s.holds := State.raiseBits_holds _ _ _
@[simp] theorem State.raise_blocks (p : Page) (n : Nat) : (s.raise p n).blocks = s.blocks := State.raiseBits_blocks _ _ _
@[simp] theorem State.raise_mbx (p : Page) (n : Nat) : (s.raise p n).mbx = s.mbx := State.raiseBits_mbx _ _ _
@[simp] theorem State.raise_ports (p : Page) (n : Nat) : (s.raise p n).ports = s.ports := State.raiseBits_ports _ _ _
@[simp] theorem State.raise_xlat (p : Page) (n : Nat) : (s.raise p n).xlat = s.xlat := State.raiseBits_xlat _ _ _
@[simp] theorem State.raise_ctxs (p : Page) (n : Nat) : (s.raise p n).ctxs = s.ctxs := State.raiseBits_ctxs _ _ _
@[simp] theorem State.raise_ctxSlots (p : Page) (n : Nat) : (s.raise p n).ctxSlots = s.ctxSlots := State.raiseBits_ctxSlots _ _ _
@[simp] theorem State.raise_loads (p : Page) (n : Nat) : (s.raise p n).loads = s.loads := State.raiseBits_loads _ _ _
@[simp] theorem State.raise_reliefInto (p : Page) (n : Nat) : (s.raise p n).reliefInto = s.reliefInto := State.raiseBits_reliefInto _ _ _
@[simp] theorem State.raise_lastRelief (p : Page) (n : Nat) : (s.raise p n).lastRelief = s.lastRelief := State.raiseBits_lastRelief _ _ _
@[simp] theorem State.raise_shares (p : Page) (n : Nat) : (s.raise p n).shares = s.shares := State.raiseBits_shares _ _ _
@[simp] theorem State.raise_dlm (p : Page) (n : Nat) : (s.raise p n).dlm = s.dlm := State.raiseBits_dlm _ _ _
@[simp] theorem State.raise_streams (p : Page) (n : Nat) : (s.raise p n).streams = s.streams := State.raiseBits_streams _ _ _
@[simp] theorem State.raise_rehoming (p : Page) (n : Nat) : (s.raise p n).rehoming = s.rehoming := State.raiseBits_rehoming _ _ _
@[simp] theorem State.raise_recorder (p : Page) (n : Nat) : (s.raise p n).recorder = s.recorder := State.raiseBits_recorder _ _ _
@[simp] theorem State.raise_chans (p : Page) (n : Nat) : (s.raise p n).chans = s.chans := State.raiseBits_chans _ _ _

@[simp] theorem State.persistent_pending (p : Page) (n l : Nat) : (s.persistent p n l).pending = s.pending := by unfold State.persistent; dsimp only; rw [State.raise_pending, State.bump_pending, State.bump_pending]; split <;> rfl
@[simp] theorem State.persistent_drawn (p : Page) (n l : Nat) : (s.persistent p n l).drawn = s.drawn := by unfold State.persistent; dsimp only; rw [State.raise_drawn, State.bump_drawn, State.bump_drawn]; split <;> rfl
@[simp] theorem State.persistent_dev (p : Page) (n l : Nat) : (s.persistent p n l).dev = s.dev := by unfold State.persistent; dsimp only; rw [State.raise_dev, State.bump_dev, State.bump_dev]; split <;> rfl
@[simp] theorem State.persistent_cycles (p : Page) (n l : Nat) : (s.persistent p n l).cycles = s.cycles := by unfold State.persistent; dsimp only; rw [State.raise_cycles, State.bump_cycles, State.bump_cycles]; split <;> rfl
@[simp] theorem State.persistent_cycBase (p : Page) (n l : Nat) : (s.persistent p n l).cycBase = s.cycBase := by unfold State.persistent; dsimp only; rw [State.raise_cycBase, State.bump_cycBase, State.bump_cycBase]; split <;> rfl
@[simp] theorem State.persistent_holds (p : Page) (n l : Nat) : (s.persistent p n l).holds = s.holds := by unfold State.persistent; dsimp only; rw [State.raise_holds, State.bump_holds, State.bump_holds]; split <;> rfl
@[simp] theorem State.persistent_blocks (p : Page) (n l : Nat) : (s.persistent p n l).blocks = s.blocks := by unfold State.persistent; dsimp only; rw [State.raise_blocks, State.bump_blocks, State.bump_blocks]; split <;> rfl
@[simp] theorem State.persistent_mbx (p : Page) (n l : Nat) : (s.persistent p n l).mbx = s.mbx := by unfold State.persistent; dsimp only; rw [State.raise_mbx, State.bump_mbx, State.bump_mbx]; split <;> rfl
@[simp] theorem State.persistent_ports (p : Page) (n l : Nat) : (s.persistent p n l).ports = s.ports := by unfold State.persistent; dsimp only; rw [State.raise_ports, State.bump_ports, State.bump_ports]; split <;> rfl
@[simp] theorem State.persistent_xlat (p : Page) (n l : Nat) : (s.persistent p n l).xlat = s.xlat := by unfold State.persistent; dsimp only; rw [State.raise_xlat, State.bump_xlat, State.bump_xlat]; split <;> rfl
@[simp] theorem State.persistent_ctxs (p : Page) (n l : Nat) : (s.persistent p n l).ctxs = s.ctxs := by unfold State.persistent; dsimp only; rw [State.raise_ctxs, State.bump_ctxs, State.bump_ctxs]; split <;> rfl
@[simp] theorem State.persistent_ctxSlots (p : Page) (n l : Nat) : (s.persistent p n l).ctxSlots = s.ctxSlots := by unfold State.persistent; dsimp only; rw [State.raise_ctxSlots, State.bump_ctxSlots, State.bump_ctxSlots]; split <;> rfl
@[simp] theorem State.persistent_loads (p : Page) (n l : Nat) : (s.persistent p n l).loads = s.loads := by unfold State.persistent; dsimp only; rw [State.raise_loads, State.bump_loads, State.bump_loads]; split <;> rfl
@[simp] theorem State.persistent_reliefInto (p : Page) (n l : Nat) : (s.persistent p n l).reliefInto = s.reliefInto := by unfold State.persistent; dsimp only; rw [State.raise_reliefInto, State.bump_reliefInto, State.bump_reliefInto]; split <;> rfl
@[simp] theorem State.persistent_lastRelief (p : Page) (n l : Nat) : (s.persistent p n l).lastRelief = s.lastRelief := by unfold State.persistent; dsimp only; rw [State.raise_lastRelief, State.bump_lastRelief, State.bump_lastRelief]; split <;> rfl
@[simp] theorem State.persistent_shares (p : Page) (n l : Nat) : (s.persistent p n l).shares = s.shares := by unfold State.persistent; dsimp only; rw [State.raise_shares, State.bump_shares, State.bump_shares]; split <;> rfl
@[simp] theorem State.persistent_dlm (p : Page) (n l : Nat) : (s.persistent p n l).dlm = s.dlm := by unfold State.persistent; dsimp only; rw [State.raise_dlm, State.bump_dlm, State.bump_dlm]; split <;> rfl
@[simp] theorem State.persistent_streams (p : Page) (n l : Nat) : (s.persistent p n l).streams = s.streams := by unfold State.persistent; dsimp only; rw [State.raise_streams, State.bump_streams, State.bump_streams]; split <;> rfl
@[simp] theorem State.persistent_rehoming (p : Page) (n l : Nat) : (s.persistent p n l).rehoming = s.rehoming := by unfold State.persistent; dsimp only; rw [State.raise_rehoming, State.bump_rehoming, State.bump_rehoming]; split <;> rfl
@[simp] theorem State.persistent_recorder (p : Page) (n l : Nat) : (s.persistent p n l).recorder = s.recorder := by unfold State.persistent; dsimp only; rw [State.raise_recorder, State.bump_recorder, State.bump_recorder]; split <;> rfl
@[simp] theorem State.persistent_chans (p : Page) (n l : Nat) : (s.persistent p n l).chans = s.chans := by unfold State.persistent; dsimp only; rw [State.raise_chans, State.bump_chans, State.bump_chans]; split <;> rfl

@[simp] theorem State.logTo_pending (n d : Nat) (b : RecBody) : (s.logTo n d b).pending = s.pending := by
  unfold State.logTo
  dsimp only
  split
  · split <;> simp
  · rfl
@[simp] theorem State.logTo_drawn (n d : Nat) (b : RecBody) : (s.logTo n d b).drawn = s.drawn := by
  unfold State.logTo
  dsimp only
  split
  · split <;> simp
  · rfl
@[simp] theorem State.logTo_dev (n d : Nat) (b : RecBody) : (s.logTo n d b).dev = s.dev := by
  unfold State.logTo
  dsimp only
  split
  · split <;> simp
  · rfl
@[simp] theorem State.logTo_cycles (n d : Nat) (b : RecBody) : (s.logTo n d b).cycles = s.cycles := by
  unfold State.logTo
  dsimp only
  split
  · split <;> simp
  · rfl
@[simp] theorem State.logTo_cycBase (n d : Nat) (b : RecBody) : (s.logTo n d b).cycBase = s.cycBase := by
  unfold State.logTo
  dsimp only
  split
  · split <;> simp
  · rfl
@[simp] theorem State.logTo_holds (n d : Nat) (b : RecBody) : (s.logTo n d b).holds = s.holds := by
  unfold State.logTo
  dsimp only
  split
  · split <;> simp
  · rfl
@[simp] theorem State.logTo_blocks (n d : Nat) (b : RecBody) : (s.logTo n d b).blocks = s.blocks := by
  unfold State.logTo
  dsimp only
  split
  · split <;> simp
  · rfl
@[simp] theorem State.logTo_mbx (n d : Nat) (b : RecBody) : (s.logTo n d b).mbx = s.mbx := by
  unfold State.logTo
  dsimp only
  split
  · split <;> simp
  · rfl
@[simp] theorem State.logTo_ports (n d : Nat) (b : RecBody) : (s.logTo n d b).ports = s.ports := by
  unfold State.logTo
  dsimp only
  split
  · split <;> simp
  · rfl
@[simp] theorem State.logTo_xlat (n d : Nat) (b : RecBody) : (s.logTo n d b).xlat = s.xlat := by
  unfold State.logTo
  dsimp only
  split
  · split <;> simp
  · rfl
@[simp] theorem State.logTo_ctxs (n d : Nat) (b : RecBody) : (s.logTo n d b).ctxs = s.ctxs := by
  unfold State.logTo
  dsimp only
  split
  · split <;> simp
  · rfl
@[simp] theorem State.logTo_ctxSlots (n d : Nat) (b : RecBody) : (s.logTo n d b).ctxSlots = s.ctxSlots := by
  unfold State.logTo
  dsimp only
  split
  · split <;> simp
  · rfl
@[simp] theorem State.logTo_loads (n d : Nat) (b : RecBody) : (s.logTo n d b).loads = s.loads := by
  unfold State.logTo
  dsimp only
  split
  · split <;> simp
  · rfl
@[simp] theorem State.logTo_reliefInto (n d : Nat) (b : RecBody) : (s.logTo n d b).reliefInto = s.reliefInto := by
  unfold State.logTo
  dsimp only
  split
  · split <;> simp
  · rfl
@[simp] theorem State.logTo_lastRelief (n d : Nat) (b : RecBody) : (s.logTo n d b).lastRelief = s.lastRelief := by
  unfold State.logTo
  dsimp only
  split
  · split <;> simp
  · rfl
@[simp] theorem State.logTo_shares (n d : Nat) (b : RecBody) : (s.logTo n d b).shares = s.shares := by
  unfold State.logTo
  dsimp only
  split
  · split <;> simp
  · rfl
@[simp] theorem State.logTo_dlm (n d : Nat) (b : RecBody) : (s.logTo n d b).dlm = s.dlm := by
  unfold State.logTo
  dsimp only
  split
  · split <;> simp
  · rfl
@[simp] theorem State.logTo_streams (n d : Nat) (b : RecBody) : (s.logTo n d b).streams = s.streams := by
  unfold State.logTo
  dsimp only
  split
  · split <;> simp
  · rfl
@[simp] theorem State.logTo_rehoming (n d : Nat) (b : RecBody) : (s.logTo n d b).rehoming = s.rehoming := by
  unfold State.logTo
  dsimp only
  split
  · split <;> simp
  · rfl
@[simp] theorem State.logTo_chans (n d : Nat) (b : RecBody) : (s.logTo n d b).chans = s.chans := by
  unfold State.logTo
  dsimp only
  split
  · split <;> simp
  · rfl

@[simp] theorem State.stopReplay_pending (n : Nat) : (s.stopReplay n).pending = s.pending := by simp [State.stopReplay]
@[simp] theorem State.stopReplay_drawn (n : Nat) : (s.stopReplay n).drawn = s.drawn := by simp [State.stopReplay]
@[simp] theorem State.stopReplay_dev (n : Nat) : (s.stopReplay n).dev = s.dev := by simp [State.stopReplay]
@[simp] theorem State.stopReplay_cycles (n : Nat) : (s.stopReplay n).cycles = s.cycles := by simp [State.stopReplay]
@[simp] theorem State.stopReplay_cycBase (n : Nat) : (s.stopReplay n).cycBase = s.cycBase := by simp [State.stopReplay]
@[simp] theorem State.stopReplay_holds (n : Nat) : (s.stopReplay n).holds = s.holds := by simp [State.stopReplay]
@[simp] theorem State.stopReplay_blocks (n : Nat) : (s.stopReplay n).blocks = s.blocks := by simp [State.stopReplay]
@[simp] theorem State.stopReplay_mbx (n : Nat) : (s.stopReplay n).mbx = s.mbx := by simp [State.stopReplay]
@[simp] theorem State.stopReplay_ports (n : Nat) : (s.stopReplay n).ports = s.ports := by simp [State.stopReplay]
@[simp] theorem State.stopReplay_xlat (n : Nat) : (s.stopReplay n).xlat = s.xlat := by simp [State.stopReplay]
@[simp] theorem State.stopReplay_ctxs (n : Nat) : (s.stopReplay n).ctxs = s.ctxs := by simp [State.stopReplay]
@[simp] theorem State.stopReplay_ctxSlots (n : Nat) : (s.stopReplay n).ctxSlots = s.ctxSlots := by simp [State.stopReplay]
@[simp] theorem State.stopReplay_loads (n : Nat) : (s.stopReplay n).loads = s.loads := by simp [State.stopReplay]
@[simp] theorem State.stopReplay_reliefInto (n : Nat) : (s.stopReplay n).reliefInto = s.reliefInto := by simp [State.stopReplay]
@[simp] theorem State.stopReplay_lastRelief (n : Nat) : (s.stopReplay n).lastRelief = s.lastRelief := by simp [State.stopReplay]
@[simp] theorem State.stopReplay_shares (n : Nat) : (s.stopReplay n).shares = s.shares := by simp [State.stopReplay]
@[simp] theorem State.stopReplay_dlm (n : Nat) : (s.stopReplay n).dlm = s.dlm := by simp [State.stopReplay]
@[simp] theorem State.stopReplay_streams (n : Nat) : (s.stopReplay n).streams = s.streams := by simp [State.stopReplay]
@[simp] theorem State.stopReplay_rehoming (n : Nat) : (s.stopReplay n).rehoming = s.rehoming := by simp [State.stopReplay]
@[simp] theorem State.stopReplay_chans (n : Nat) : (s.stopReplay n).chans = s.chans := by simp [State.stopReplay]

@[simp] theorem State.logDec_pending (c k v : Nat) : (s.logDec c k v).pending = s.pending := by
  unfold State.logDec
  split
  · split
    · split <;> simp
    · simp
  · simp
@[simp] theorem State.logDec_drawn (c k v : Nat) : (s.logDec c k v).drawn = s.drawn := by
  unfold State.logDec
  split
  · split
    · split <;> simp
    · simp
  · simp
@[simp] theorem State.logDec_dev (c k v : Nat) : (s.logDec c k v).dev = s.dev := by
  unfold State.logDec
  split
  · split
    · split <;> simp
    · simp
  · simp
@[simp] theorem State.logDec_cycles (c k v : Nat) : (s.logDec c k v).cycles = s.cycles := by
  unfold State.logDec
  split
  · split
    · split <;> simp
    · simp
  · simp
@[simp] theorem State.logDec_cycBase (c k v : Nat) : (s.logDec c k v).cycBase = s.cycBase := by
  unfold State.logDec
  split
  · split
    · split <;> simp
    · simp
  · simp
@[simp] theorem State.logDec_holds (c k v : Nat) : (s.logDec c k v).holds = s.holds := by
  unfold State.logDec
  split
  · split
    · split <;> simp
    · simp
  · simp
@[simp] theorem State.logDec_blocks (c k v : Nat) : (s.logDec c k v).blocks = s.blocks := by
  unfold State.logDec
  split
  · split
    · split <;> simp
    · simp
  · simp
@[simp] theorem State.logDec_mbx (c k v : Nat) : (s.logDec c k v).mbx = s.mbx := by
  unfold State.logDec
  split
  · split
    · split <;> simp
    · simp
  · simp
@[simp] theorem State.logDec_ports (c k v : Nat) : (s.logDec c k v).ports = s.ports := by
  unfold State.logDec
  split
  · split
    · split <;> simp
    · simp
  · simp
@[simp] theorem State.logDec_xlat (c k v : Nat) : (s.logDec c k v).xlat = s.xlat := by
  unfold State.logDec
  split
  · split
    · split <;> simp
    · simp
  · simp
@[simp] theorem State.logDec_ctxs (c k v : Nat) : (s.logDec c k v).ctxs = s.ctxs := by
  unfold State.logDec
  split
  · split
    · split <;> simp
    · simp
  · simp
@[simp] theorem State.logDec_ctxSlots (c k v : Nat) : (s.logDec c k v).ctxSlots = s.ctxSlots := by
  unfold State.logDec
  split
  · split
    · split <;> simp
    · simp
  · simp
@[simp] theorem State.logDec_loads (c k v : Nat) : (s.logDec c k v).loads = s.loads := by
  unfold State.logDec
  split
  · split
    · split <;> simp
    · simp
  · simp
@[simp] theorem State.logDec_reliefInto (c k v : Nat) : (s.logDec c k v).reliefInto = s.reliefInto := by
  unfold State.logDec
  split
  · split
    · split <;> simp
    · simp
  · simp
@[simp] theorem State.logDec_lastRelief (c k v : Nat) : (s.logDec c k v).lastRelief = s.lastRelief := by
  unfold State.logDec
  split
  · split
    · split <;> simp
    · simp
  · simp
@[simp] theorem State.logDec_shares (c k v : Nat) : (s.logDec c k v).shares = s.shares := by
  unfold State.logDec
  split
  · split
    · split <;> simp
    · simp
  · simp
@[simp] theorem State.logDec_dlm (c k v : Nat) : (s.logDec c k v).dlm = s.dlm := by
  unfold State.logDec
  split
  · split
    · split <;> simp
    · simp
  · simp
@[simp] theorem State.logDec_streams (c k v : Nat) : (s.logDec c k v).streams = s.streams := by
  unfold State.logDec
  split
  · split
    · split <;> simp
    · simp
  · simp
@[simp] theorem State.logDec_rehoming (c k v : Nat) : (s.logDec c k v).rehoming = s.rehoming := by
  unfold State.logDec
  split
  · split
    · split <;> simp
    · simp
  · simp
@[simp] theorem State.logDec_chans (c k v : Nat) : (s.logDec c k v).chans = s.chans := by
  unfold State.logDec
  split
  · split
    · split <;> simp
    · simp
  · simp

@[simp] theorem State.logLock_pending (c v : Nat) : (s.logLock c v).pending = s.pending := by
  unfold State.logLock
  split
  · split <;> rfl
  · simp
@[simp] theorem State.logLock_drawn (c v : Nat) : (s.logLock c v).drawn = s.drawn := by
  unfold State.logLock
  split
  · split <;> rfl
  · simp
@[simp] theorem State.logLock_dev (c v : Nat) : (s.logLock c v).dev = s.dev := by
  unfold State.logLock
  split
  · split <;> rfl
  · simp
@[simp] theorem State.logLock_cycles (c v : Nat) : (s.logLock c v).cycles = s.cycles := by
  unfold State.logLock
  split
  · split <;> rfl
  · simp
@[simp] theorem State.logLock_cycBase (c v : Nat) : (s.logLock c v).cycBase = s.cycBase := by
  unfold State.logLock
  split
  · split <;> rfl
  · simp
@[simp] theorem State.logLock_holds (c v : Nat) : (s.logLock c v).holds = s.holds := by
  unfold State.logLock
  split
  · split <;> rfl
  · simp
@[simp] theorem State.logLock_blocks (c v : Nat) : (s.logLock c v).blocks = s.blocks := by
  unfold State.logLock
  split
  · split <;> rfl
  · simp
@[simp] theorem State.logLock_mbx (c v : Nat) : (s.logLock c v).mbx = s.mbx := by
  unfold State.logLock
  split
  · split <;> rfl
  · simp
@[simp] theorem State.logLock_ports (c v : Nat) : (s.logLock c v).ports = s.ports := by
  unfold State.logLock
  split
  · split <;> rfl
  · simp
@[simp] theorem State.logLock_xlat (c v : Nat) : (s.logLock c v).xlat = s.xlat := by
  unfold State.logLock
  split
  · split <;> rfl
  · simp
@[simp] theorem State.logLock_ctxs (c v : Nat) : (s.logLock c v).ctxs = s.ctxs := by
  unfold State.logLock
  split
  · split <;> rfl
  · simp
@[simp] theorem State.logLock_ctxSlots (c v : Nat) : (s.logLock c v).ctxSlots = s.ctxSlots := by
  unfold State.logLock
  split
  · split <;> rfl
  · simp
@[simp] theorem State.logLock_loads (c v : Nat) : (s.logLock c v).loads = s.loads := by
  unfold State.logLock
  split
  · split <;> rfl
  · simp
@[simp] theorem State.logLock_reliefInto (c v : Nat) : (s.logLock c v).reliefInto = s.reliefInto := by
  unfold State.logLock
  split
  · split <;> rfl
  · simp
@[simp] theorem State.logLock_lastRelief (c v : Nat) : (s.logLock c v).lastRelief = s.lastRelief := by
  unfold State.logLock
  split
  · split <;> rfl
  · simp
@[simp] theorem State.logLock_shares (c v : Nat) : (s.logLock c v).shares = s.shares := by
  unfold State.logLock
  split
  · split <;> rfl
  · simp
@[simp] theorem State.logLock_dlm (c v : Nat) : (s.logLock c v).dlm = s.dlm := by
  unfold State.logLock
  split
  · split <;> rfl
  · simp
@[simp] theorem State.logLock_streams (c v : Nat) : (s.logLock c v).streams = s.streams := by
  unfold State.logLock
  split
  · split <;> rfl
  · simp
@[simp] theorem State.logLock_rehoming (c v : Nat) : (s.logLock c v).rehoming = s.rehoming := by
  unfold State.logLock
  split
  · split <;> rfl
  · simp
@[simp] theorem State.logLock_chans (c v : Nat) : (s.logLock c v).chans = s.chans := by
  unfold State.logLock
  split
  · split <;> rfl
  · simp

@[simp] theorem State.logOut_pending (c k v : Nat) : (s.logOut c k v).pending = s.pending := State.logTo_pending _ _ _ _
@[simp] theorem State.logOut_drawn (c k v : Nat) : (s.logOut c k v).drawn = s.drawn := State.logTo_drawn _ _ _ _
@[simp] theorem State.logOut_dev (c k v : Nat) : (s.logOut c k v).dev = s.dev := State.logTo_dev _ _ _ _
@[simp] theorem State.logOut_cycles (c k v : Nat) : (s.logOut c k v).cycles = s.cycles := State.logTo_cycles _ _ _ _
@[simp] theorem State.logOut_cycBase (c k v : Nat) : (s.logOut c k v).cycBase = s.cycBase := State.logTo_cycBase _ _ _ _
@[simp] theorem State.logOut_holds (c k v : Nat) : (s.logOut c k v).holds = s.holds := State.logTo_holds _ _ _ _
@[simp] theorem State.logOut_blocks (c k v : Nat) : (s.logOut c k v).blocks = s.blocks := State.logTo_blocks _ _ _ _
@[simp] theorem State.logOut_mbx (c k v : Nat) : (s.logOut c k v).mbx = s.mbx := State.logTo_mbx _ _ _ _
@[simp] theorem State.logOut_ports (c k v : Nat) : (s.logOut c k v).ports = s.ports := State.logTo_ports _ _ _ _
@[simp] theorem State.logOut_xlat (c k v : Nat) : (s.logOut c k v).xlat = s.xlat := State.logTo_xlat _ _ _ _
@[simp] theorem State.logOut_ctxs (c k v : Nat) : (s.logOut c k v).ctxs = s.ctxs := State.logTo_ctxs _ _ _ _
@[simp] theorem State.logOut_ctxSlots (c k v : Nat) : (s.logOut c k v).ctxSlots = s.ctxSlots := State.logTo_ctxSlots _ _ _ _
@[simp] theorem State.logOut_loads (c k v : Nat) : (s.logOut c k v).loads = s.loads := State.logTo_loads _ _ _ _
@[simp] theorem State.logOut_reliefInto (c k v : Nat) : (s.logOut c k v).reliefInto = s.reliefInto := State.logTo_reliefInto _ _ _ _
@[simp] theorem State.logOut_lastRelief (c k v : Nat) : (s.logOut c k v).lastRelief = s.lastRelief := State.logTo_lastRelief _ _ _ _
@[simp] theorem State.logOut_shares (c k v : Nat) : (s.logOut c k v).shares = s.shares := State.logTo_shares _ _ _ _
@[simp] theorem State.logOut_dlm (c k v : Nat) : (s.logOut c k v).dlm = s.dlm := State.logTo_dlm _ _ _ _
@[simp] theorem State.logOut_streams (c k v : Nat) : (s.logOut c k v).streams = s.streams := State.logTo_streams _ _ _ _
@[simp] theorem State.logOut_rehoming (c k v : Nat) : (s.logOut c k v).rehoming = s.rehoming := State.logTo_rehoming _ _ _ _
@[simp] theorem State.logOut_chans (c k v : Nat) : (s.logOut c k v).chans = s.chans := State.logTo_chans _ _ _ _

@[simp] theorem State.matchCpl_pending (x : Nat × Nat × Nat) (b : Bool) : (s.matchCpl x b).pending = s.pending := by
  unfold State.matchCpl
  dsimp only
  split
  · split
    · simp
    · split <;> rfl
  · split <;> rfl
@[simp] theorem State.matchCpl_drawn (x : Nat × Nat × Nat) (b : Bool) : (s.matchCpl x b).drawn = s.drawn := by
  unfold State.matchCpl
  dsimp only
  split
  · split
    · simp
    · split <;> rfl
  · split <;> rfl
@[simp] theorem State.matchCpl_dev (x : Nat × Nat × Nat) (b : Bool) : (s.matchCpl x b).dev = s.dev := by
  unfold State.matchCpl
  dsimp only
  split
  · split
    · simp
    · split <;> rfl
  · split <;> rfl
@[simp] theorem State.matchCpl_cycles (x : Nat × Nat × Nat) (b : Bool) : (s.matchCpl x b).cycles = s.cycles := by
  unfold State.matchCpl
  dsimp only
  split
  · split
    · simp
    · split <;> rfl
  · split <;> rfl
@[simp] theorem State.matchCpl_cycBase (x : Nat × Nat × Nat) (b : Bool) : (s.matchCpl x b).cycBase = s.cycBase := by
  unfold State.matchCpl
  dsimp only
  split
  · split
    · simp
    · split <;> rfl
  · split <;> rfl
@[simp] theorem State.matchCpl_holds (x : Nat × Nat × Nat) (b : Bool) : (s.matchCpl x b).holds = s.holds := by
  unfold State.matchCpl
  dsimp only
  split
  · split
    · simp
    · split <;> rfl
  · split <;> rfl
@[simp] theorem State.matchCpl_blocks (x : Nat × Nat × Nat) (b : Bool) : (s.matchCpl x b).blocks = s.blocks := by
  unfold State.matchCpl
  dsimp only
  split
  · split
    · simp
    · split <;> rfl
  · split <;> rfl
@[simp] theorem State.matchCpl_mbx (x : Nat × Nat × Nat) (b : Bool) : (s.matchCpl x b).mbx = s.mbx := by
  unfold State.matchCpl
  dsimp only
  split
  · split
    · simp
    · split <;> rfl
  · split <;> rfl
@[simp] theorem State.matchCpl_ports (x : Nat × Nat × Nat) (b : Bool) : (s.matchCpl x b).ports = s.ports := by
  unfold State.matchCpl
  dsimp only
  split
  · split
    · simp
    · split <;> rfl
  · split <;> rfl
@[simp] theorem State.matchCpl_xlat (x : Nat × Nat × Nat) (b : Bool) : (s.matchCpl x b).xlat = s.xlat := by
  unfold State.matchCpl
  dsimp only
  split
  · split
    · simp
    · split <;> rfl
  · split <;> rfl
@[simp] theorem State.matchCpl_ctxs (x : Nat × Nat × Nat) (b : Bool) : (s.matchCpl x b).ctxs = s.ctxs := by
  unfold State.matchCpl
  dsimp only
  split
  · split
    · simp
    · split <;> rfl
  · split <;> rfl
@[simp] theorem State.matchCpl_ctxSlots (x : Nat × Nat × Nat) (b : Bool) : (s.matchCpl x b).ctxSlots = s.ctxSlots := by
  unfold State.matchCpl
  dsimp only
  split
  · split
    · simp
    · split <;> rfl
  · split <;> rfl
@[simp] theorem State.matchCpl_loads (x : Nat × Nat × Nat) (b : Bool) : (s.matchCpl x b).loads = s.loads := by
  unfold State.matchCpl
  dsimp only
  split
  · split
    · simp
    · split <;> rfl
  · split <;> rfl
@[simp] theorem State.matchCpl_reliefInto (x : Nat × Nat × Nat) (b : Bool) : (s.matchCpl x b).reliefInto = s.reliefInto := by
  unfold State.matchCpl
  dsimp only
  split
  · split
    · simp
    · split <;> rfl
  · split <;> rfl
@[simp] theorem State.matchCpl_lastRelief (x : Nat × Nat × Nat) (b : Bool) : (s.matchCpl x b).lastRelief = s.lastRelief := by
  unfold State.matchCpl
  dsimp only
  split
  · split
    · simp
    · split <;> rfl
  · split <;> rfl
@[simp] theorem State.matchCpl_shares (x : Nat × Nat × Nat) (b : Bool) : (s.matchCpl x b).shares = s.shares := by
  unfold State.matchCpl
  dsimp only
  split
  · split
    · simp
    · split <;> rfl
  · split <;> rfl
@[simp] theorem State.matchCpl_dlm (x : Nat × Nat × Nat) (b : Bool) : (s.matchCpl x b).dlm = s.dlm := by
  unfold State.matchCpl
  dsimp only
  split
  · split
    · simp
    · split <;> rfl
  · split <;> rfl
@[simp] theorem State.matchCpl_streams (x : Nat × Nat × Nat) (b : Bool) : (s.matchCpl x b).streams = s.streams := by
  unfold State.matchCpl
  dsimp only
  split
  · split
    · simp
    · split <;> rfl
  · split <;> rfl
@[simp] theorem State.matchCpl_rehoming (x : Nat × Nat × Nat) (b : Bool) : (s.matchCpl x b).rehoming = s.rehoming := by
  unfold State.matchCpl
  dsimp only
  split
  · split
    · simp
    · split <;> rfl
  · split <;> rfl
@[simp] theorem State.matchCpl_chans (x : Nat × Nat × Nat) (b : Bool) : (s.matchCpl x b).chans = s.chans := by
  unfold State.matchCpl
  dsimp only
  split
  · split
    · simp
    · split <;> rfl
  · split <;> rfl

@[simp] theorem State.setWords_pending (p : Page) (o : Nat) (ws : List Nat) : (s.setWords p o ws).pending = s.pending := by
  induction ws generalizing s o with
  | nil => rfl
  | cons w ws ih => exact (ih _ _).trans rfl
@[simp] theorem State.setWords_out (p : Page) (o : Nat) (ws : List Nat) : (s.setWords p o ws).out = s.out := by
  induction ws generalizing s o with
  | nil => rfl
  | cons w ws ih => exact (ih _ _).trans rfl
@[simp] theorem State.setWords_drawn (p : Page) (o : Nat) (ws : List Nat) : (s.setWords p o ws).drawn = s.drawn := by
  induction ws generalizing s o with
  | nil => rfl
  | cons w ws ih => exact (ih _ _).trans rfl
@[simp] theorem State.setWords_dev (p : Page) (o : Nat) (ws : List Nat) : (s.setWords p o ws).dev = s.dev := by
  induction ws generalizing s o with
  | nil => rfl
  | cons w ws ih => exact (ih _ _).trans rfl
@[simp] theorem State.setWords_cycles (p : Page) (o : Nat) (ws : List Nat) : (s.setWords p o ws).cycles = s.cycles := by
  induction ws generalizing s o with
  | nil => rfl
  | cons w ws ih => exact (ih _ _).trans rfl
@[simp] theorem State.setWords_cycBase (p : Page) (o : Nat) (ws : List Nat) : (s.setWords p o ws).cycBase = s.cycBase := by
  induction ws generalizing s o with
  | nil => rfl
  | cons w ws ih => exact (ih _ _).trans rfl
@[simp] theorem State.setWords_holds (p : Page) (o : Nat) (ws : List Nat) : (s.setWords p o ws).holds = s.holds := by
  induction ws generalizing s o with
  | nil => rfl
  | cons w ws ih => exact (ih _ _).trans rfl
@[simp] theorem State.setWords_blocks (p : Page) (o : Nat) (ws : List Nat) : (s.setWords p o ws).blocks = s.blocks := by
  induction ws generalizing s o with
  | nil => rfl
  | cons w ws ih => exact (ih _ _).trans rfl
@[simp] theorem State.setWords_msix (p : Page) (o : Nat) (ws : List Nat) : (s.setWords p o ws).msix = s.msix := by
  induction ws generalizing s o with
  | nil => rfl
  | cons w ws ih => exact (ih _ _).trans rfl
@[simp] theorem State.setWords_mbx (p : Page) (o : Nat) (ws : List Nat) : (s.setWords p o ws).mbx = s.mbx := by
  induction ws generalizing s o with
  | nil => rfl
  | cons w ws ih => exact (ih _ _).trans rfl
@[simp] theorem State.setWords_ports (p : Page) (o : Nat) (ws : List Nat) : (s.setWords p o ws).ports = s.ports := by
  induction ws generalizing s o with
  | nil => rfl
  | cons w ws ih => exact (ih _ _).trans rfl
@[simp] theorem State.setWords_xlat (p : Page) (o : Nat) (ws : List Nat) : (s.setWords p o ws).xlat = s.xlat := by
  induction ws generalizing s o with
  | nil => rfl
  | cons w ws ih => exact (ih _ _).trans rfl
@[simp] theorem State.setWords_ctxs (p : Page) (o : Nat) (ws : List Nat) : (s.setWords p o ws).ctxs = s.ctxs := by
  induction ws generalizing s o with
  | nil => rfl
  | cons w ws ih => exact (ih _ _).trans rfl
@[simp] theorem State.setWords_ctxSlots (p : Page) (o : Nat) (ws : List Nat) : (s.setWords p o ws).ctxSlots = s.ctxSlots := by
  induction ws generalizing s o with
  | nil => rfl
  | cons w ws ih => exact (ih _ _).trans rfl
@[simp] theorem State.setWords_loads (p : Page) (o : Nat) (ws : List Nat) : (s.setWords p o ws).loads = s.loads := by
  induction ws generalizing s o with
  | nil => rfl
  | cons w ws ih => exact (ih _ _).trans rfl
@[simp] theorem State.setWords_reliefInto (p : Page) (o : Nat) (ws : List Nat) : (s.setWords p o ws).reliefInto = s.reliefInto := by
  induction ws generalizing s o with
  | nil => rfl
  | cons w ws ih => exact (ih _ _).trans rfl
@[simp] theorem State.setWords_lastRelief (p : Page) (o : Nat) (ws : List Nat) : (s.setWords p o ws).lastRelief = s.lastRelief := by
  induction ws generalizing s o with
  | nil => rfl
  | cons w ws ih => exact (ih _ _).trans rfl
@[simp] theorem State.setWords_shares (p : Page) (o : Nat) (ws : List Nat) : (s.setWords p o ws).shares = s.shares := by
  induction ws generalizing s o with
  | nil => rfl
  | cons w ws ih => exact (ih _ _).trans rfl
@[simp] theorem State.setWords_dlm (p : Page) (o : Nat) (ws : List Nat) : (s.setWords p o ws).dlm = s.dlm := by
  induction ws generalizing s o with
  | nil => rfl
  | cons w ws ih => exact (ih _ _).trans rfl
@[simp] theorem State.setWords_streams (p : Page) (o : Nat) (ws : List Nat) : (s.setWords p o ws).streams = s.streams := by
  induction ws generalizing s o with
  | nil => rfl
  | cons w ws ih => exact (ih _ _).trans rfl
@[simp] theorem State.setWords_rehoming (p : Page) (o : Nat) (ws : List Nat) : (s.setWords p o ws).rehoming = s.rehoming := by
  induction ws generalizing s o with
  | nil => rfl
  | cons w ws ih => exact (ih _ _).trans rfl
@[simp] theorem State.setWords_recorder (p : Page) (o : Nat) (ws : List Nat) : (s.setWords p o ws).recorder = s.recorder := by
  induction ws generalizing s o with
  | nil => rfl
  | cons w ws ih => exact (ih _ _).trans rfl
@[simp] theorem State.setWords_chans (p : Page) (o : Nat) (ws : List Nat) : (s.setWords p o ws).chans = s.chans := by
  induction ws generalizing s o with
  | nil => rfl
  | cons w ws ih => exact (ih _ _).trans rfl
/-- What changes of a log and records keep, an input keeps. -/
theorem State.logInput_ind {s : State} {P : State → Prop} (h : P s) (hm : ∀ u n f, P u → P (State.modLog u n f))
    (hl : ∀ u n d b, P u → P (State.logTo u n d b)) (c d k : Nat) (bs : List Byte) : P (s.logInput c d k bs) := by
  unfold State.logInput
  dsimp only
  split
  · rename_i hk
    clear hk
    generalize inFragments _ _ _ _ _ = l
    generalize Tab.get 0 _ _ = n
    induction l generalizing s with
    | nil => exact h
    | cons x l ih => exact ih (hl _ _ _ _ (hm _ _ _ h))
  · exact hl _ _ _ _ h

@[simp] theorem State.logInput_pending (c d k : Nat) (bs : List Byte) : (s.logInput c d k bs).pending = s.pending :=
  State.logInput_ind (P := fun t => t.pending = s.pending) rfl (fun _ _ _ h => h) (fun _ _ _ _ h => (State.logTo_pending _ _ _ _).trans h)
    _ _ _ _
@[simp] theorem State.logInput_drawn (c d k : Nat) (bs : List Byte) : (s.logInput c d k bs).drawn = s.drawn :=
  State.logInput_ind (P := fun t => t.drawn = s.drawn) rfl (fun _ _ _ h => h) (fun _ _ _ _ h => (State.logTo_drawn _ _ _ _).trans h)
    _ _ _ _
@[simp] theorem State.logInput_dev (c d k : Nat) (bs : List Byte) : (s.logInput c d k bs).dev = s.dev :=
  State.logInput_ind (P := fun t => t.dev = s.dev) rfl (fun _ _ _ h => h) (fun _ _ _ _ h => (State.logTo_dev _ _ _ _).trans h)
    _ _ _ _
@[simp] theorem State.logInput_cycles (c d k : Nat) (bs : List Byte) : (s.logInput c d k bs).cycles = s.cycles :=
  State.logInput_ind (P := fun t => t.cycles = s.cycles) rfl (fun _ _ _ h => h) (fun _ _ _ _ h => (State.logTo_cycles _ _ _ _).trans h)
    _ _ _ _
@[simp] theorem State.logInput_cycBase (c d k : Nat) (bs : List Byte) : (s.logInput c d k bs).cycBase = s.cycBase :=
  State.logInput_ind (P := fun t => t.cycBase = s.cycBase) rfl (fun _ _ _ h => h) (fun _ _ _ _ h => (State.logTo_cycBase _ _ _ _).trans h)
    _ _ _ _
@[simp] theorem State.logInput_holds (c d k : Nat) (bs : List Byte) : (s.logInput c d k bs).holds = s.holds :=
  State.logInput_ind (P := fun t => t.holds = s.holds) rfl (fun _ _ _ h => h) (fun _ _ _ _ h => (State.logTo_holds _ _ _ _).trans h)
    _ _ _ _
@[simp] theorem State.logInput_blocks (c d k : Nat) (bs : List Byte) : (s.logInput c d k bs).blocks = s.blocks :=
  State.logInput_ind (P := fun t => t.blocks = s.blocks) rfl (fun _ _ _ h => h) (fun _ _ _ _ h => (State.logTo_blocks _ _ _ _).trans h)
    _ _ _ _
@[simp] theorem State.logInput_mbx (c d k : Nat) (bs : List Byte) : (s.logInput c d k bs).mbx = s.mbx :=
  State.logInput_ind (P := fun t => t.mbx = s.mbx) rfl (fun _ _ _ h => h) (fun _ _ _ _ h => (State.logTo_mbx _ _ _ _).trans h)
    _ _ _ _
@[simp] theorem State.logInput_ports (c d k : Nat) (bs : List Byte) : (s.logInput c d k bs).ports = s.ports :=
  State.logInput_ind (P := fun t => t.ports = s.ports) rfl (fun _ _ _ h => h) (fun _ _ _ _ h => (State.logTo_ports _ _ _ _).trans h)
    _ _ _ _
@[simp] theorem State.logInput_xlat (c d k : Nat) (bs : List Byte) : (s.logInput c d k bs).xlat = s.xlat :=
  State.logInput_ind (P := fun t => t.xlat = s.xlat) rfl (fun _ _ _ h => h) (fun _ _ _ _ h => (State.logTo_xlat _ _ _ _).trans h)
    _ _ _ _
@[simp] theorem State.logInput_ctxs (c d k : Nat) (bs : List Byte) : (s.logInput c d k bs).ctxs = s.ctxs :=
  State.logInput_ind (P := fun t => t.ctxs = s.ctxs) rfl (fun _ _ _ h => h) (fun _ _ _ _ h => (State.logTo_ctxs _ _ _ _).trans h)
    _ _ _ _
@[simp] theorem State.logInput_ctxSlots (c d k : Nat) (bs : List Byte) : (s.logInput c d k bs).ctxSlots = s.ctxSlots :=
  State.logInput_ind (P := fun t => t.ctxSlots = s.ctxSlots) rfl (fun _ _ _ h => h) (fun _ _ _ _ h => (State.logTo_ctxSlots _ _ _ _).trans h)
    _ _ _ _
@[simp] theorem State.logInput_loads (c d k : Nat) (bs : List Byte) : (s.logInput c d k bs).loads = s.loads :=
  State.logInput_ind (P := fun t => t.loads = s.loads) rfl (fun _ _ _ h => h) (fun _ _ _ _ h => (State.logTo_loads _ _ _ _).trans h)
    _ _ _ _
@[simp] theorem State.logInput_reliefInto (c d k : Nat) (bs : List Byte) : (s.logInput c d k bs).reliefInto = s.reliefInto :=
  State.logInput_ind (P := fun t => t.reliefInto = s.reliefInto) rfl (fun _ _ _ h => h) (fun _ _ _ _ h => (State.logTo_reliefInto _ _ _ _).trans h)
    _ _ _ _
@[simp] theorem State.logInput_lastRelief (c d k : Nat) (bs : List Byte) : (s.logInput c d k bs).lastRelief = s.lastRelief :=
  State.logInput_ind (P := fun t => t.lastRelief = s.lastRelief) rfl (fun _ _ _ h => h) (fun _ _ _ _ h => (State.logTo_lastRelief _ _ _ _).trans h)
    _ _ _ _
@[simp] theorem State.logInput_shares (c d k : Nat) (bs : List Byte) : (s.logInput c d k bs).shares = s.shares :=
  State.logInput_ind (P := fun t => t.shares = s.shares) rfl (fun _ _ _ h => h) (fun _ _ _ _ h => (State.logTo_shares _ _ _ _).trans h)
    _ _ _ _
@[simp] theorem State.logInput_dlm (c d k : Nat) (bs : List Byte) : (s.logInput c d k bs).dlm = s.dlm :=
  State.logInput_ind (P := fun t => t.dlm = s.dlm) rfl (fun _ _ _ h => h) (fun _ _ _ _ h => (State.logTo_dlm _ _ _ _).trans h)
    _ _ _ _
@[simp] theorem State.logInput_streams (c d k : Nat) (bs : List Byte) : (s.logInput c d k bs).streams = s.streams :=
  State.logInput_ind (P := fun t => t.streams = s.streams) rfl (fun _ _ _ h => h) (fun _ _ _ _ h => (State.logTo_streams _ _ _ _).trans h)
    _ _ _ _
@[simp] theorem State.logInput_rehoming (c d k : Nat) (bs : List Byte) : (s.logInput c d k bs).rehoming = s.rehoming :=
  State.logInput_ind (P := fun t => t.rehoming = s.rehoming) rfl (fun _ _ _ h => h) (fun _ _ _ _ h => (State.logTo_rehoming _ _ _ _).trans h)
    _ _ _ _
@[simp] theorem State.logInput_chans (c d k : Nat) (bs : List Byte) : (s.logInput c d k bs).chans = s.chans :=
  State.logInput_ind (P := fun t => t.chans = s.chans) rfl (fun _ _ _ h => h) (fun _ _ _ _ h => (State.logTo_chans _ _ _ _).trans h)
    _ _ _ _

/-! ## Registers of another page -/

theorem State.rd_setWord_page (s : State) {p q : Page} {g : Fld} {o v : Nat} (h : q ≠ p) :
    (s.setWord p o v).rd q g = s.rd q g := by
  unfold State.rd
  rw [State.word_setWord_page s h, State.word_setWord_page s h]

theorem State.rd_wr_page (s : State) {p q : Page} {f g : Fld} {v : Nat} (h : q ≠ p) :
    (s.wr p f v).rd q g = s.rd q g := by
  unfold State.wr
  dsimp only
  split
  · exact State.rd_setWord_page s h
  · rw [State.rd_setWord_page _ h, State.rd_setWord_page _ h]

theorem State.rd_bump_page (s : State) {p q : Page} {f g : Fld} {n : Nat} (h : q ≠ p) :
    (s.bump p f n).rd q g = s.rd q g := State.rd_wr_page s h
theorem State.rd_wrap_page (s : State) {p q : Page} {f g : Fld} {n : Nat} (h : q ≠ p) :
    (s.wrap p f n).rd q g = s.rd q g := State.rd_wr_page s h
theorem State.rd_corrected_page (s : State) {p q : Page} {g : Fld} {n : Nat} (h : q ≠ p) :
    (s.corrected p n).rd q g = s.rd q g := State.rd_wr_page s h

@[simp] theorem State.rd_sendVector (s : State) (v : Nat) (q : Page) (g : Fld) : (s.sendVector v).rd q g = s.rd q g := by
  obtain ⟨m, o, e⟩ := s.sendVector_frame v; rw [e]; rfl
@[simp] theorem State.rd_signalFrom (s : State) (p : Page) (n : Nat) (q : Page) (g : Fld) :
    (s.signalFrom p n).rd q g = s.rd q g := by
  obtain ⟨m, o, e⟩ := s.signalFrom_frame p n; rw [e]; rfl
theorem State.rd_raise_page (s : State) {p q : Page} {g : Fld} {n : Nat} (h : q ≠ p) :
    (s.raise p n).rd q g = s.rd q g := by
  simp only [State.raise, State.raiseBits, State.rd_signalFrom]
  exact State.rd_wr_page s h
theorem State.rd_recordStall_page (s : State) {q : Page} {g : Fld} (h : q ≠ .rpl) :
    s.recordStall.rd q g = s.rd q g := State.rd_bump_page s h
theorem State.rd_persistent_page (s : State) {p q : Page} {g : Fld} {n l : Nat} (h : q ≠ p) (hr : q ≠ .ras) :
    (s.persistent p n l).rd q g = s.rd q g := by
  unfold State.persistent
  dsimp only
  rw [State.rd_raise_page _ hr, State.rd_bump_page _ hr, State.rd_bump_page _ h]
  split <;> exact State.rd_setWord_page s h
@[simp] theorem State.rd_modLog (s : State) (n : Nat) (f : Log → Log) (q : Page) (g : Fld) :
    (s.modLog n f).rd q g = s.rd q g := rfl
@[simp] theorem State.rd_modSlot (s : State) (n : Nat) (f : MbxSlot → MbxSlot) (q : Page) (g : Fld) :
    (s.modSlot n f).rd q g = s.rd q g := rfl
@[simp] theorem State.rd_modPort (s : State) (n : Nat) (f : Port → Port) (q : Page) (g : Fld) :
    (s.modPort n f).rd q g = s.rd q g := rfl
@[simp] theorem State.rd_setChan (s : State) (n : Nat) (x : Channel) (q : Page) (g : Fld) :
    (s.setChan n x).rd q g = s.rd q g := rfl
@[simp] theorem State.rd_modRing (s : State) (c r : Nat) (f : Ring → Ring) (q : Page) (g : Fld) :
    (s.modRing c r f).rd q g = s.rd q g := rfl
theorem State.rd_logTo_page (s : State) {q : Page} {g : Fld} {n d : Nat} {b : RecBody} (h : q ≠ .rpl) :
    (s.logTo n d b).rd q g = s.rd q g := by
  unfold State.logTo
  dsimp only
  split
  · split
    · rw [State.rd_raise_page _ h, State.rd_bump_page _ h, State.rd_wr_page _ h,
        State.rd_modLog]
    · rfl
  · rfl
theorem State.rd_stopReplay_page (s : State) {q : Page} {g : Fld} {n : Nat} (h : q ≠ .rpl) :
    (s.stopReplay n).rd q g = s.rd q g := by
  unfold State.stopReplay
  rw [State.rd_raise_page _ h, State.rd_wr_page _ h, State.rd_wr_page _ h,
    State.rd_modLog]
theorem State.rd_logOut_page (s : State) {q : Page} {g : Fld} {c k v : Nat} (h : q ≠ .rpl) :
    (s.logOut c k v).rd q g = s.rd q g := State.rd_logTo_page s h
theorem State.rd_logDec_page (s : State) {q : Page} {g : Fld} {c k v : Nat} (h : q ≠ .rpl) :
    (s.logDec c k v).rd q g = s.rd q g := by
  unfold State.logDec
  split
  · split
    · split
      · rfl
      · exact State.rd_stopReplay_page s h
    · exact State.rd_stopReplay_page s h
  · exact State.rd_logTo_page s h
theorem State.rd_logLock_page (s : State) {q : Page} {g : Fld} {c v : Nat} (h : q ≠ .rpl) :
    (s.logLock c v).rd q g = s.rd q g := by
  unfold State.logLock
  split
  · split <;> rfl
  · exact State.rd_logTo_page s h
theorem State.rd_logInput_page (s : State) {q : Page} {g : Fld} {c d k : Nat} {bs : List Byte} (h : q ≠ .rpl)
    : (s.logInput c d k bs).rd q g = s.rd q g :=
  State.logInput_ind (P := fun t => t.rd q g = s.rd q g) rfl (fun _ _ _ e => e)
    (fun _ _ _ _ e => (State.rd_logTo_page _ h).trans e) _ _ _ _

/-! ## Fields of the same page -/

theorem State.rd_setWord_off (s : State) (p : Page) {g : Fld} {o v : Nat} (hg : g.lo + g.w ≤ 32) (og : g.off < 4096)
    (ho : o < 4096) (h : g.off ≠ o) : (s.setWord p o v).rd p g = s.rd p g := by
  rw [State.rd_narrow _ _ hg, State.rd_narrow _ _ hg, State.word_setWord_other s v ho og (.inr h)]
theorem State.rd_wr_off (s : State) (p : Page) {f g : Fld} {v : Nat} (hf : f.lo + f.w ≤ 32) (hg : g.lo + g.w ≤ 32)
    (of : f.off < 4096) (og : g.off < 4096) (h : g.off ≠ f.off ∨ g.lo + g.w ≤ f.lo ∨ f.lo + f.w ≤ g.lo) :
    (s.wr p f v).rd p g = s.rd p g := State.rd_wr_other s v hf hg of og (.inr h)
theorem State.rd_bump_off (s : State) (p : Page) {f g : Fld} {n : Nat} (hf : f.lo + f.w ≤ 32) (hg : g.lo + g.w ≤ 32)
    (of : f.off < 4096) (og : g.off < 4096) (h : g.off ≠ f.off ∨ g.lo + g.w ≤ f.lo ∨ f.lo + f.w ≤ g.lo) :
    (s.bump p f n).rd p g = s.rd p g := State.rd_wr_off s p hf hg of og h
theorem State.rd_raise_off (s : State) (p : Page) {g : Fld} {n : Nat} (hg : g.lo + g.w ≤ 32) (og : g.off < 4096)
    (h : g.off ≠ 0x10) : (s.raise p n).rd p g = s.rd p g := State.rd_raise_other s hg og (.inr h)

theorem bitsOf_le (v lo w : Nat) : bitsOf v lo w ≤ 2 ^ w - 1 := Nat.le_sub_one_of_lt (bitsOf_lt v lo w)

/-- A counter counts, and stays at its largest value (R656). -/
theorem State.rd_bump_same (s : State) (p : Page) {f : Fld} (n : Nat) (h : f.lo + f.w ≤ 32) :
    (s.bump p f n).rd p f = min (s.rd p f + n) (2 ^ f.w - 1) := by
  unfold State.bump
  rw [State.rd_wr_same s p _ h]
  exact Nat.mod_eq_of_lt (lt_of_le_of_lt (Nat.min_le_right _ _) (Nat.sub_one_lt (Nat.two_pow_pos _).ne'))

end Sys2Proof.Machine
end

