-- ==== Sys2Proof/Laws/Frames.lean ====
section
/-!
SUPPORT. Which register pages the operations write: the rules of `State.sameWords`.
-/

set_option Elab.async false

namespace Sys2Proof.Machine

variable {s t u : State} {ps : List Page} {p : Page}

theorem State.sameWords.refl : s.sameWords s ps := fun _ _ _ => rfl

theorem State.sameWords.trans (h1 : s.sameWords t ps) (h2 : t.sameWords u ps) : s.sameWords u ps :=
  fun q hq o => (h2 q hq o).trans (h1 q hq o)

/-- A change of anything but the register words. -/
theorem State.sameWords.of_regs (h : s.sameWords t ps) (e : u.regs = t.regs) : s.sameWords u ps :=
  fun q hq o => by
    have := h q hq o
    unfold State.word at this ⊢
    rw [e]
    exact this

theorem State.sameWords.setWord {o v : Nat} (h : s.sameWords t ps) (hp : p ∈ ps) : s.sameWords (t.setWord p o v) ps :=
  fun q hq o' => (State.word_setWord_page t fun (e : q = p) => hq (e ▸ hp)).trans (h q hq o')

theorem State.sameWords.wr {f : Fld} {v : Nat} (h : s.sameWords t ps) (hp : p ∈ ps) :
    s.sameWords (t.wr p f v) ps := by
  unfold State.wr
  dsimp only
  split
  · exact h.setWord hp
  · exact (h.setWord hp).setWord hp

theorem State.sameWords.bump {f : Fld} {n : Nat} (h : s.sameWords t ps) (hp : p ∈ ps) :
    s.sameWords (t.bump p f n) ps := h.wr hp
theorem State.sameWords.wrap {f : Fld} {n : Nat} (h : s.sameWords t ps) (hp : p ∈ ps) :
    s.sameWords (t.wrap p f n) ps := h.wr hp
theorem State.sameWords.corrected {n : Nat} (h : s.sameWords t ps) (hp : p ∈ ps) :
    s.sameWords (t.corrected p n) ps := h.wr hp
theorem State.sameWords.recordStall (h : s.sameWords t ps) (hp : .rpl ∈ ps) : s.sameWords t.recordStall ps :=
  h.wr hp

theorem State.sameWords.raiseBits {n : Nat} (h : s.sameWords t ps) (hp : p ∈ ps) :
    s.sameWords (t.raiseBits p n) ps :=
  (h.wr (v := t.rd p Reg.intRaw_RAW ||| n) hp).of_regs (State.signalFrom_regs _ _ _)
theorem State.sameWords.raise {n : Nat} (h : s.sameWords t ps) (hp : p ∈ ps) : s.sameWords (t.raise p n) ps :=
  h.raiseBits hp

theorem State.sameWords.persistent {n l : Nat} (h : s.sameWords t ps) (hp : p ∈ ps) (hr : .ras ∈ ps) :
    s.sameWords (t.persistent p n l) ps := by
  unfold State.persistent
  dsimp only
  refine (((?_ : s.sameWords _ ps).bump hp).bump hr).raise hr
  split <;> exact h.setWord hp

theorem State.sameWords.logTo {n d : Nat} {b : RecBody} (h : s.sameWords t ps) (hp : .rpl ∈ ps) :
    s.sameWords (t.logTo n d b) ps := by
  have k (f) : s.sameWords (t.modLog n f) ps := h.of_regs rfl
  unfold State.logTo
  dsimp only
  split
  · split
    · exact (((k _).wr hp).bump hp).raise hp
    · exact k _
  · exact h

theorem State.sameWords.stopReplay {n : Nat} (h : s.sameWords t ps) (hp : .rpl ∈ ps) :
    s.sameWords (t.stopReplay n) ps := by
  unfold State.stopReplay
  exact (((h.of_regs (u := t.modLog _ _) rfl).wr hp).wr hp).raise hp

theorem State.sameWords.logOut {c k v : Nat} (h : s.sameWords t ps) (hp : .rpl ∈ ps) :
    s.sameWords (t.logOut c k v) ps := h.logTo hp
theorem State.sameWords.logDec {c k v : Nat} (h : s.sameWords t ps) (hp : .rpl ∈ ps) :
    s.sameWords (t.logDec c k v) ps := by
  unfold State.logDec
  split
  · split
    · split
      · exact h.of_regs rfl
      · exact h.stopReplay hp
    · exact h.stopReplay hp
  · exact h.logTo hp
theorem State.sameWords.logLock {c v : Nat} (h : s.sameWords t ps) (hp : .rpl ∈ ps) :
    s.sameWords (t.logLock c v) ps := by
  unfold State.logLock
  split
  · split
    · exact h.of_regs rfl
    · exact h
  · exact h.logTo hp
theorem State.sameWords.logInput {c d k : Nat} {bs : List Byte} (h : s.sameWords t ps) (hp : .rpl ∈ ps) :
    s.sameWords (t.logInput c d k bs) ps :=
  State.logInput_ind (P := fun u => s.sameWords u ps) h (fun _ _ _ k => k.of_regs rfl) (fun _ _ _ _ k => k.logTo hp) _ _ _ _

theorem State.sameWords.setWords {o : Nat} {ws : List Nat} (h : s.sameWords t ps) (hp : p ∈ ps) :
    s.sameWords (t.setWords p o ws) ps := by
  induction ws generalizing t o with
  | nil => exact h
  | cons w ws ih =>
    exact ih (h.setWord hp)

/-- What a field of a page that was not written reads. -/
theorem State.sameWords.rd (h : s.sameWords t ps) {q : Page} (hq : q ∉ ps) (g : Fld) : t.rd q g = s.rd q g := by
  unfold State.rd
  rw [h q hq, h q hq]

end Sys2Proof.Machine
end

