-- ==== Sys2Proof/Laws/ResetWords.lean ====
section
/-!
SUPPORT. The fields of a register word lie in its 32 bits, and so do its reset values.
-/

set_option Elab.async false

namespace Sys2Proof.Machine

theorem fieldPart_width {high : Bool} {g f : RegField} (h : fieldPart high g = some f) : f.lo + f.w ≤ 32 := by
  cases high <;>
  · simp only [fieldPart, Option.ite_none_right_eq_some, Option.some.injEq] at h
    rw [← h.2]
    simp only [Bool.false_eq_true, if_false, if_true] at h ⊢
    omega

theorem fieldsAt_width {p : Page} {off : Nat} {f : RegField} (h : f ∈ fieldsAt p off) : f.lo + f.w ≤ 32 := by
  unfold fieldsAt at h
  split at h
  · obtain ⟨g, _, hg⟩ := List.mem_filterMap.mp h
    exact fieldPart_width hg
  · cases h

/-- A fold that sets fields of a word leaves a word. -/
theorem foldFields_lt {l : List RegField} (hl : ∀ f ∈ l, f.lo + f.w ≤ 32) (g : Nat → RegField → Nat)
    (hg : ∀ v f, f.lo + f.w ≤ 32 → v < 2 ^ 32 → g v f < 2 ^ 32) {v : Nat} (hv : v < 2 ^ 32) :
    l.foldl g v < 2 ^ 32 := by
  induction l generalizing v with
  | nil => exact hv
  | cons f l ih =>
    exact ih (fun x hx => hl x (List.mem_cons_of_mem _ hx)) (hg v f (hl f (List.mem_cons_self ..)) hv)

theorem blockCode_lt (p : Page) : blockCode p < 2 ^ 8 := by
  cases p <;> simp [blockCode]

theorem pageInst_lt (p : Page) : pageInst p < 2 ^ 7 := by
  cases p <;> simp only [pageInst] <;> omega

theorem resetWord_lt (p : Page) (off : Nat) : resetWord p off < 2 ^ 32 := by
  have hb : (fieldsAt p off).foldl (fun v f => setBits v f.lo f.w f.reset) 0 < 2 ^ 32 :=
    foldFields_lt (fun f hf => fieldsAt_width hf) _ (fun v f hf hv => setBits_lt hv hf) (by decide)
  unfold resetWord
  dsimp only
  split
  · have h1 := blockCode_lt p
    have h2 := pageInst_lt p
    have h3 : ((pageCh? p).elim 0 fun c => c.val * 2 ^ 16 + 2 ^ 18) ≤ 3 * 2 ^ 16 + 2 ^ 18 := by
      cases pageCh? p with
      | none => exact Nat.zero_le _
      | some c => have := c.isLt; simp only [Option.elim]; omega
    omega
  · split
    · exact setBits_lt hb (by decide)
    · exact hb

theorem resetKeeps_lt (p : Page) (off cls v : Nat) : resetKeeps p off cls v < 2 ^ 32 := by
  unfold resetKeeps
  refine foldFields_lt (fun f hf => fieldsAt_width hf) _ (fun v f hf hv => ?_) (resetWord_lt p off)
  split
  · exact setBits_lt hv hf
  · exact hv

end Sys2Proof.Machine
end

