-- ==== Sys2Proof/Laws/Stores.lean ====
section
/-!
SUPPORT. Stores: a byte that is written reads back, every other byte stays, and every operation on a store keeps
the canonical form.
-/

set_option Elab.async false

namespace Sys2Proof.Machine

/-! ## Tables in order -/

variable {α : Type}

theorem Tab.mem_set {t : Tab α} {k : Nat} {v : α} {x : Nat × α} (h : x ∈ Tab.set t k v) :
    x = (k, v) ∨ x ∈ t := by
  induction t with
  | nil => simpa [Tab.set] using h
  | cons p t ih =>
    obtain ⟨k', v'⟩ := p
    unfold Tab.set at h
    split at h
    · simpa using h
    · split at h
      · rcases List.mem_cons.mp h with h | h
        · exact .inl h
        · exact .inr (List.mem_cons_of_mem _ h)
      · rcases List.mem_cons.mp h with h | h
        · exact .inr (by simp [h])
        · exact (ih h).imp id (List.mem_cons_of_mem _)

theorem Tab.set_sorted {t : Tab α} (k : Nat) (v : α) (h : Tab.Sorted t) : Tab.Sorted (Tab.set t k v) := by
  unfold Tab.Sorted at h ⊢
  induction t with
  | nil => simp [Tab.set]
  | cons p t ih =>
    obtain ⟨k', v'⟩ := p
    obtain ⟨h1, h2⟩ := List.pairwise_cons.mp h
    unfold Tab.set
    split
    · refine List.pairwise_cons.mpr ⟨fun x hx => ?_, h⟩
      rcases List.mem_cons.mp hx with rfl | hx
      · assumption
      · exact Nat.lt_trans ‹_› (h1 x hx)
    · split
      · subst_vars; exact List.pairwise_cons.mpr ⟨h1, h2⟩
      · refine List.pairwise_cons.mpr ⟨fun x hx => ?_, ih h2⟩
        rcases Tab.mem_set hx with rfl | hx
        · simp only; omega
        · exact h1 x hx

theorem Tab.erase_sublist (t : Tab α) (k : Nat) : (Tab.erase t k).Sublist t := by
  induction t with
  | nil => exact .slnil
  | cons p t ih =>
    obtain ⟨k', v'⟩ := p
    unfold Tab.erase
    split
    · exact List.sublist_cons_self _ _
    · exact ih.cons_cons _

theorem Tab.get_of_lt (d : α) {t : Tab α} {k : Nat} (h : ∀ x ∈ t, k < x.1) : Tab.get d t k = d := by
  induction t with
  | nil => rfl
  | cons p t ih =>
    obtain ⟨k', v'⟩ := p
    have hk : k < k' := h (k', v') (by simp)
    unfold Tab.get
    rw [if_neg (by omega), ih fun x hx => h x (by simp [hx])]

theorem Tab.get_erase (d : α) {t : Tab α} (k j : Nat) (h : Tab.Sorted t) :
    Tab.get d (Tab.erase t k) j = if j = k then d else Tab.get d t j := by
  unfold Tab.Sorted at h
  induction t with
  | nil => simp [Tab.erase]
  | cons p t ih =>
    obtain ⟨k', v'⟩ := p
    obtain ⟨h1, h2⟩ := List.pairwise_cons.mp h
    unfold Tab.erase
    split
    · subst_vars
      split
      · subst_vars; exact Tab.get_of_lt d h1
      · rename_i hj; simp [Tab.get, hj]
    · rename_i hk
      simp only [Tab.get, ih h2]
      split
      · subst_vars; rw [if_neg (Ne.symm hk)]
      · rfl

/-! ## Bytes -/

/-- A byte that is written reads back. -/
theorem Memory.read_write_same (m : Memory) (a : Nat) (v : Byte) (h : m.wf) : (m.write a v).read a = v := by
  unfold Memory.read Memory.write
  split
  · rename_i hv
    show Tab.get (m.blank a) (Tab.erase m.cells a) a = v
    rw [Tab.get_erase _ _ _ h.1, if_pos rfl, hv]
  · show Tab.get _ (Tab.set m.cells a v) a = v
    simp

/-- A write leaves every other byte. -/
theorem Memory.read_write_other (m : Memory) {a b : Nat} (v : Byte) (h : m.wf) (hab : b ≠ a) :
    (m.write a v).read b = m.read b := by
  unfold Memory.read Memory.write
  split
  · show Tab.get (m.blank b) (Tab.erase m.cells a) b = _
    rw [Tab.get_erase _ _ _ h.1, if_neg hab]
  · show Tab.get (m.blank b) (Tab.set m.cells a v) b = _
    simp [hab]

@[simp] theorem Memory.blank_write (m : Memory) (a b : Nat) (v : Byte) : (m.write a v).blank b = m.blank b := rfl

/-! ## The canonical form -/

theorem Memory.wf_empty : ({} : Memory).wf := by simp [Memory.wf]

theorem Memory.write_wf {m : Memory} (a : Nat) (v : Byte) (h : m.wf) : (m.write a v).wf := by
  unfold Memory.write
  split
  · exact ⟨h.1.sublist (Tab.erase_sublist _ _), fun c hc => h.2 c ((Tab.erase_sublist _ _).subset hc)⟩
  · rename_i hv
    refine ⟨Tab.set_sorted a v h.1, fun c hc => ?_⟩
    rcases Tab.mem_set hc with rfl | hc
    · exact hv
    · exact h.2 c hc

theorem Memory.writeBytes_wf {m : Memory} (a : Nat) (bs : List Byte) (h : m.wf) : (m.writeBytes a bs).wf := by
  induction bs generalizing m a with
  | nil => exact h
  | cons b bs ih => exact ih (a + 1) (Memory.write_wf a b h)

theorem Memory.fold_wf {m : Memory} {f : Memory → α → Memory} (l : List α) (hf : ∀ m x, m.wf → (f m x).wf)
    (h : m.wf) : (l.foldl f m).wf := by
  induction l generalizing m with
  | nil => exact h
  | cons x l ih => exact ih (hf _ _ h)

theorem Memory.put_wf {m : Memory} (a : Nat) (bs : List Byte) (h : m.wf) : (m.put a bs).wf :=
  Memory.writeBytes_wf a bs h

theorem Memory.taint_wf {m : Memory} (lo hi : Nat) (h : m.wf) : (m.taint lo hi).wf := h

theorem Memory.heal_wf {m : Memory} (a n : Nat) (h : m.wf) : (m.heal a n).wf := h

theorem Memory.blank_lose (m : Memory) {lo hi a : Nat} (h : a < lo ∨ hi ≤ a) : (m.lose lo hi).blank a = m.blank a := by
  unfold Memory.blank Memory.lose
  have h1 : (decide (lo ≤ a) && decide (a < hi)) = false := by
    rcases h with h | h
    · simp; omega
    · simp; omega
  simp only [List.find?_cons, h1]

theorem Memory.lose_wf {m : Memory} (lo hi : Nat) (h : m.wf) : (m.lose lo hi).wf := by
  refine ⟨h.1.sublist List.filter_sublist, fun c hc => ?_⟩
  obtain ⟨h1, h2⟩ := List.mem_filter.mp hc
  rw [Memory.blank_lose m (by simpa using h2)]
  exact h.2 c h1

/-- The bytes that a write stores read back, and every byte beside them reads as before. -/
theorem Memory.read_writeBytes (m : Memory) (a : Nat) (bs : List Byte) (h : m.wf) (b : Nat) :
    (m.writeBytes a bs).read b = if a ≤ b ∧ b < a + bs.length then bs.getD (b - a) 0 else m.read b := by
  induction bs generalizing m a with
  | nil => simp [Memory.writeBytes]
  | cons v bs ih =>
    rw [Memory.writeBytes, ih (m.write a v) (a + 1) (Memory.write_wf a v h)]
    by_cases h1 : b = a
    · subst h1
      rw [if_neg (by omega), Memory.read_write_same _ _ _ h, if_pos (by simp)]
      simp
    · rw [Memory.read_write_other _ v h h1]
      by_cases h2 : a + 1 ≤ b ∧ b < a + 1 + bs.length
      · rw [if_pos h2, if_pos ⟨by omega, by simp; omega⟩, show b - a = b - (a + 1) + 1 by omega]
        simp
      · rw [if_neg h2, if_neg (by simp; omega)]

end Sys2Proof.Machine
end

