-- ==== Sys2Proof/Laws/Moves.lean ====
section
/-!
SUPPORT. What every operation of the block keeps, said once as a relation of two states, and the rules by which it
passes through the ways in which operations are put together. The relation takes a scope: nothing beyond it changes,
and a store that may change keeps its canonical form.
-/

set_option Elab.async false

namespace Sys2Proof.Machine

/-- What an operation makes of the stores of a channel. -/
structure StoresMove (w : Bool) (x y : Channel) : Prop where
  same : w = false → x.sameStores y
  wf : x.storesWf → y.storesWf

/-- What an operation of a scope makes of the state: the queue is the same, what has left the card stays out, the
numbers of free values rise, registers and stores keep their form, and nothing beyond the scope changes. -/
structure Moves (σ : Scope) (s t : State) : Prop where
  pending : t.pending = s.pending
  out : s.out <+: t.out
  drawn : s.drawn ≤ t.drawn
  regs : s.regsWf → t.regsWf
  stores : ∀ c, StoresMove σ.stores (s.chan c) (t.chan c)
  parts : ∀ x, x ∉ σ.parts → x.same s t
  words : ∀ q, pageKind q ∉ σ.kinds → ∀ o, t.word q o = s.word q o

variable {w : Bool} {σ τ : Scope} {s t u : State} {α β : Type}

theorem StoresMove.refl (x : Channel) : StoresMove w x x := ⟨fun _ => ⟨rfl, rfl, rfl⟩, fun h => h⟩

theorem StoresMove.of_eq {x y : Channel} (h1 : y.stall = x.stall) (h2 : y.ast = x.ast) (h3 : y.hbm = x.hbm) :
    StoresMove w x y :=
  ⟨fun _ => ⟨h1, h2, h3⟩, fun h => by unfold Channel.storesWf at h ⊢; rw [h1, h2, h3]; exact h⟩

theorem StoresMove.trans {x y z : Channel} (h1 : StoresMove w x y) (h2 : StoresMove w y z) : StoresMove w x z :=
  ⟨fun hw => ⟨(h2.same hw).1.trans (h1.same hw).1, (h2.same hw).2.1.trans (h1.same hw).2.1,
    (h2.same hw).2.2.trans (h1.same hw).2.2⟩, fun h => h2.wf (h1.wf h)⟩

theorem StoresMove.ite {x y z : Channel} {c : Prop} [Decidable c] (h1 : StoresMove w x y) (h2 : StoresMove w x z) :
    StoresMove w x (if c then y else z) := by
  split <;> assumption

/-- Stores that change, each in its canonical form. -/
theorem StoresMove.change {x y : Channel} (h1 : x.stall.wf → y.stall.wf) (h2 : x.ast.wf → y.ast.wf)
    (h3 : x.hbm.wf → y.hbm.wf) : StoresMove true x y :=
  ⟨fun h => Bool.noConfusion h, fun h => ⟨h1 h.1, h2 h.2.1, h3 h.2.2⟩⟩

/-- Stores that change in an operation that may change them. -/
theorem StoresMove.changeOf {x y : Channel} (hw : w = true) (h1 : x.stall.wf → y.stall.wf) (h2 : x.ast.wf → y.ast.wf)
    (h3 : x.hbm.wf → y.hbm.wf) : StoresMove w x y := hw ▸ .change h1 h2 h3

theorem Scope.within.trans {τ υ : Scope} (h1 : σ.within τ) (h2 : τ.within υ) : σ.within υ :=
  ⟨fun h => h2.1 (h1.1 h), fun _ h => h2.2.1 _ (h1.2.1 _ h), fun _ h => h2.2.2 _ (h1.2.2 _ h)⟩

theorem Part.same_refl (x : Part) : x.same s s := by cases x <;> rfl
theorem Part.same_trans {x : Part} (h1 : x.same s t) (h2 : x.same t u) : x.same s u := by
  cases x <;> exact Eq.trans h2 h1

theorem Moves.refl : Moves σ s s :=
  ⟨rfl, List.prefix_refl _, Nat.le_refl _, fun h => h, fun _ => .refl _, fun x _ => x.same_refl, fun _ _ _ => rfl⟩

theorem Moves.trans (h1 : Moves σ s t) (h2 : Moves σ t u) : Moves σ s u :=
  ⟨h2.pending.trans h1.pending, h1.out.trans h2.out, h1.drawn.trans h2.drawn, fun h => h2.regs (h1.regs h),
    fun c => (h1.stores c).trans (h2.stores c), fun x hx => Part.same_trans (h1.parts x hx) (h2.parts x hx),
    fun q hq o => (h2.words q hq o).trans (h1.words q hq o)⟩

/-- An operation keeps what lies beyond its scope. -/
theorem Moves.keeps (h : Moves σ s t) : σ.keeps s t :=
  ⟨fun hs c => (h.stores c).same hs, h.parts, h.words⟩

/-- A record update of other parts than the registers and the channels, each of them in the scope or unchanged. -/
theorem Moves.record (h : Moves σ s t) {out' : List Output} {drawn' : Nat}
    {dev cycles cycBase holds blocks msix mbx ports xlat ctxs ctxSlots loads reliefInto lastRelief shares dlm
      streams rehoming recorder}
    (ho : out' = t.out) (hd : drawn' = t.drawn)
    (h1 : dev = t.dev ∨ .dev ∈ σ.parts) (h2 : cycles = t.cycles ∨ .cycles ∈ σ.parts)
    (h3 : cycBase = t.cycBase ∨ .cycBase ∈ σ.parts) (h4 : holds = t.holds ∨ .holds ∈ σ.parts)
    (h5 : blocks = t.blocks ∨ .blocks ∈ σ.parts) (h6 : msix = t.msix ∨ .msix ∈ σ.parts)
    (h7 : mbx = t.mbx ∨ .mbx ∈ σ.parts) (h8 : ports = t.ports ∨ .ports ∈ σ.parts)
    (h9 : xlat = t.xlat ∨ .xlat ∈ σ.parts) (h10 : ctxs = t.ctxs ∨ .ctxs ∈ σ.parts)
    (h11 : ctxSlots = t.ctxSlots ∨ .ctxSlots ∈ σ.parts) (h12 : loads = t.loads ∨ .loads ∈ σ.parts)
    (h13 : reliefInto = t.reliefInto ∨ .reliefInto ∈ σ.parts)
    (h14 : lastRelief = t.lastRelief ∨ .lastRelief ∈ σ.parts)
    (h15 : shares = t.shares ∨ .shares ∈ σ.parts) (h16 : dlm = t.dlm ∨ .dlm ∈ σ.parts)
    (h17 : streams = t.streams ∨ .streams ∈ σ.parts) (h18 : rehoming = t.rehoming ∨ .rehoming ∈ σ.parts)
    (h19 : recorder = t.recorder ∨ .recorder ∈ σ.parts) :
    Moves σ s ⟨t.pending, out', drawn', dev, cycles, cycBase, t.regs, holds, blocks, msix, mbx, ports, xlat, ctxs,
      ctxSlots, loads, reliefInto, lastRelief, shares, dlm, streams, rehoming, recorder, t.chans⟩ :=
  h.trans ⟨rfl, ho ▸ List.prefix_refl _, Nat.le_of_eq hd.symm, id, fun _ => .refl _,
    fun x hx => by
      cases x
      · rfl
      · exact ho
      · exact hd
      · exact h1.resolve_right hx
      · exact h2.resolve_right hx
      · exact h3.resolve_right hx
      · exact h4.resolve_right hx
      · exact h5.resolve_right hx
      · exact h6.resolve_right hx
      · exact h7.resolve_right hx
      · exact h8.resolve_right hx
      · exact h9.resolve_right hx
      · exact h10.resolve_right hx
      · exact h11.resolve_right hx
      · exact h12.resolve_right hx
      · exact h13.resolve_right hx
      · exact h14.resolve_right hx
      · exact h15.resolve_right hx
      · exact h16.resolve_right hx
      · exact h17.resolve_right hx
      · exact h18.resolve_right hx
      · exact h19.resolve_right hx
      · rfl,
    fun _ _ _ => rfl⟩

/-- Register words that change on pages of the scope. -/
theorem Moves.regsTo (h : Moves σ s t) (l : Tab Nat) (hl : t.regsWf → Tab.Sorted l ∧ ∀ r ∈ l, r.2 < 2 ^ 32)
    (hw : ∀ q, pageKind q ∉ σ.kinds → ∀ o, ({ t with regs := l } : State).word q o = t.word q o) :
    Moves σ s { t with regs := l } :=
  h.trans ⟨rfl, List.prefix_refl _, Nat.le_refl _, hl, fun _ => .refl _, fun x _ => by cases x <;> rfl, hw⟩

theorem Tab.get_map_same {α : Type} (d : α) (l : Tab α) (f : Nat × α → Nat × α) (hk : ∀ r, (f r).1 = r.1) {k : Nat}
    (hf : ∀ r, r.1 = k → f r = r) : Tab.get d (l.map f) k = Tab.get d l k := by
  induction l with
  | nil => rfl
  | cons r l ih =>
    obtain ⟨k', v⟩ := r
    by_cases h : k = k'
    · subst h
      rw [List.map_cons, hf (k, v) rfl]
      simp [Tab.get]
    · have h1 : k ≠ (f (k', v)).1 := by rw [hk]; exact h
      rw [List.map_cons, show f (k', v) = ((f (k', v)).1, (f (k', v)).2) from rfl]
      simp only [Tab.get, if_neg h1, if_neg h]
      exact ih

/-- Register words that change where they are, on pages of the scope. -/
theorem Moves.regsMap (h : Moves σ s t) (f : Nat × Nat → Nat × Nat) (hk : ∀ r, (f r).1 = r.1)
    (hv : ∀ r, r.2 < 2 ^ 32 → (f r).2 < 2 ^ 32)
    (hp : ∀ q, pageKind q ∉ σ.kinds → ∀ r, r.1 / 4096 = pageIndex q → f r = r) :
    Moves σ s { t with regs := t.regs.map f } :=
  h.regsTo _ (fun hr =>
    ⟨List.Pairwise.map f (fun a b hab => by rw [hk, hk]; exact hab) hr.1, fun r hm => by
      obtain ⟨x, hx, rfl⟩ := List.mem_map.mp hm
      exact hv x (hr.2 x hx)⟩) fun q hq o => by
    unfold State.word
    exact Tab.get_map_same _ _ _ hk fun r hr => hp q hq r (by rw [hr]; unfold pageAddr; omega)

theorem Moves.ite {c : Prop} [Decidable c] (h1 : Moves σ s t) (h2 : Moves σ s u) :
    Moves σ s (if c then t else u) := by
  split <;> assumption

theorem Moves.elim {o : Option α} {f : α → State} (h1 : Moves σ s t) (h2 : ∀ x, Moves σ s (f x)) :
    Moves σ s (o.elim t f) := by
  cases o
  · exact h1
  · exact h2 _

theorem Moves.elimFst {o : Option α} {a : State × β} {f : α → State × β} (h1 : Moves σ s a.1)
    (h2 : ∀ x, Moves σ s (f x).1) : Moves σ s (o.elim a f).1 := by
  cases o
  · exact h1
  · exact h2 _

theorem Moves.getD {o : Option State} (h1 : Moves σ s t) (h2 : ∀ x, o = some x → Moves σ s x) :
    Moves σ s (o.getD t) := by
  cases o
  · exact h1
  · exact h2 _ rfl

/-- A fold of steps over a list. -/
theorem Moves.fold {f : State → α → State} {l : List α} (h : Moves σ s t)
    (hf : ∀ u x, Moves σ s u → Moves σ s (f u x)) : Moves σ s (l.foldl f t) := by
  induction l generalizing t with
  | nil => exact h
  | cons x l ih => exact ih (hf _ _ h)

/-- A fold that carries more beside the state. -/
theorem Moves.foldPair {f : State × β → α → State × β} {l : List α} {i : State × β} (h : Moves σ s i.1)
    (hf : ∀ u x, Moves σ s u.1 → Moves σ s (f u x).1) : Moves σ s (l.foldl f i).1 := by
  induction l generalizing i with
  | nil => exact h
  | cons x l ih => exact ih (hf _ _ h)

theorem Moves.iteFst {c : Prop} [Decidable c] {a b : State × β} (h1 : Moves σ s a.1) (h2 : Moves σ s b.1) :
    Moves σ s (if c then a else b).1 := by
  split <;> assumption

theorem Moves.iteSnd {c : Prop} [Decidable c] {a b : β × State} (h1 : Moves σ s a.2) (h2 : Moves σ s b.2) :
    Moves σ s (if c then a else b).2 := by
  split <;> assumption

theorem Moves.fstOf {p : State × β} {x : β} (e : p = (t, x)) (h : Moves σ s p.1) : Moves σ s t := by
  rw [e] at h; exact h

theorem Moves.sndOf {p : β × State} {x : β} (e : p = (x, t)) (h : Moves σ s p.2) : Moves σ s t := by
  rw [e] at h; exact h

/-- A state that an operation may answer. -/
structure MovesOpt (σ : Scope) (s : State) (o : Option State) : Prop where
  get : ∀ r, o = some r → Moves σ s r

/-- A state that an operation may answer beside something else. -/
structure MovesOptSnd (σ : Scope) (s : State) (o : Option (α × State)) : Prop where
  get : ∀ r, o = some r → Moves σ s r.2

theorem MovesOpt.none : MovesOpt σ s none := ⟨fun _ e => nomatch e⟩
theorem MovesOpt.some (h : Moves σ s t) : MovesOpt σ s (some t) := ⟨fun _ e => Option.some.inj e ▸ h⟩
theorem MovesOpt.ite {c : Prop} [Decidable c] {a b : Option State} (h1 : MovesOpt σ s a) (h2 : MovesOpt σ s b) :
    MovesOpt σ s (if c then a else b) := by
  split <;> assumption
theorem MovesOpt.map {o : Option α} {f : α → State} (h : ∀ x, Moves σ s (f x)) : MovesOpt σ s (o.map f) := by
  cases o
  · exact .none
  · exact .some (h _)
theorem MovesOpt.elim {o : Option α} {a : Option State} {f : α → Option State} (h1 : MovesOpt σ s a)
    (h2 : ∀ x, MovesOpt σ s (f x)) : MovesOpt σ s (o.elim a f) := by
  cases o
  · exact h1
  · exact h2 _
theorem MovesOpt.findSome {f : α → Option State} {l : List α} (h : ∀ x, MovesOpt σ s (f x)) :
    MovesOpt σ s (l.findSome? f) := by
  induction l with
  | nil => exact .none
  | cons x l ih =>
    unfold List.findSome?
    split
    · exact ⟨fun r e => (h x).get _ (by rw [← e]; assumption)⟩
    · exact ih
theorem Moves.someOf {o : Option State} (e : o = some t) (h : MovesOpt σ s o) : Moves σ s t := h.get _ e
theorem MovesOpt.getD {o : Option State} (h1 : Moves σ s t) (h2 : MovesOpt σ s o) : Moves σ s (o.getD t) :=
  h1.getD h2.get

theorem MovesOptSnd.none : MovesOptSnd σ s (none : Option (α × State)) := ⟨fun _ e => nomatch e⟩
theorem MovesOptSnd.some {x : α} (h : Moves σ s t) : MovesOptSnd σ s (some (x, t)) :=
  ⟨fun _ e => Option.some.inj e ▸ h⟩
theorem MovesOptSnd.ite {c : Prop} [Decidable c] {a b : Option (α × State)} (h1 : MovesOptSnd σ s a)
    (h2 : MovesOptSnd σ s b) : MovesOptSnd σ s (if c then a else b) := by
  split <;> assumption
theorem MovesOptSnd.map {o : Option β} {f : β → α × State} (h : ∀ x, Moves σ s (f x).2) :
    MovesOptSnd σ s (o.map f) := by
  cases o
  · exact .none
  · exact .some (h _)
theorem MovesOptSnd.bind {o : Option β} {f : β → Option (α × State)} (h : ∀ x, MovesOptSnd σ s (f x)) :
    MovesOptSnd σ s (o.bind f) := by
  cases o
  · exact .none
  · exact h _
theorem MovesOptSnd.mapSnd {o : Option (β × State)} {f : β × State → α × State} (h1 : MovesOptSnd σ s o)
    (h2 : ∀ x, Moves σ s x.2 → Moves σ s (f x).2) : MovesOptSnd σ s (o.map f) := by
  cases o
  · exact .none
  · exact .some (h2 _ (h1.get _ rfl))
theorem MovesOpt.mapSnd {o : Option (β × State)} {f : β × State → State} (h1 : MovesOptSnd σ s o)
    (h2 : ∀ x, Moves σ s x.2 → Moves σ s (f x)) : MovesOpt σ s (o.map f) := by
  cases o
  · exact .none
  · exact .some (h2 _ (h1.get _ rfl))
theorem Moves.elimSnd {o : Option (β × State)} {f : β × State → State} (h : Moves σ s t) (h1 : MovesOptSnd σ s o)
    (h2 : ∀ x, Moves σ s x.2 → Moves σ s (f x)) : Moves σ s (o.elim t f) := by
  cases o
  · exact h
  · exact h2 _ (h1.get _ rfl)
theorem Moves.elimSndFst {γ : Type} {o : Option (β × State)} {a : State × γ} {f : β × State → State × γ}
    (h : Moves σ s a.1) (h1 : MovesOptSnd σ s o) (h2 : ∀ x, Moves σ s x.2 → Moves σ s (f x).1) :
    Moves σ s (o.elim a f).1 := by
  cases o
  · exact h
  · exact h2 _ (h1.get _ rfl)
theorem Moves.someSndOf {o : Option (α × State)} {x : α} (e : o = some (x, t)) (h : MovesOptSnd σ s o) :
    Moves σ s t := h.get _ e

/-- What a command makes of the state where it answers a next one. -/
structure MovesResult (σ : Scope) (s : State) (r : Result) : Prop where
  get : ∀ t, r = .next t → Moves σ s t

theorem MovesResult.next (h : Moves σ s t) : MovesResult σ s (.next t) :=
  ⟨fun _ e => Host.Outcome.next.inj e ▸ h⟩

/-- A command without power leaves the state as it is. -/
theorem MovesResult.live (h1 : Moves σ s t) (h2 : Moves σ s u) : MovesResult σ s (live t u) :=
  .next (by split <;> assumption)

/-! ## The named updates -/

theorem State.setWord_moves (h : Moves σ s t) (p : Page) (o v : Nat) (hp : pageKind p ∈ σ.kinds) :
    Moves σ s (t.setWord p o v) :=
  h.regsTo _ (fun hr => ⟨Tab.set_sorted _ _ hr.1, fun r hm => by
    rcases Tab.mem_set hm with rfl | hm
    · exact Nat.mod_lt _ (by decide)
    · exact hr.2 r hm⟩) fun _ hq _ => State.word_setWord_page t fun e => hq (e ▸ hp)

theorem State.wr_moves (h : Moves σ s t) (p : Page) (f : Fld) (v : Nat) (hp : pageKind p ∈ σ.kinds) :
    Moves σ s (t.wr p f v) := by
  unfold State.wr
  exact .ite (State.setWord_moves h _ _ _ hp) (State.setWord_moves (State.setWord_moves h _ _ _ hp) _ _ _ hp)

theorem State.bump_moves (h : Moves σ s t) (p : Page) (f : Fld) (n : Nat) (hp : pageKind p ∈ σ.kinds) :
    Moves σ s (t.bump p f n) := State.wr_moves h _ _ _ hp

theorem State.wrap_moves (h : Moves σ s t) (p : Page) (f : Fld) (n : Nat) (hp : pageKind p ∈ σ.kinds) :
    Moves σ s (t.wrap p f n) := State.wr_moves h _ _ _ hp

theorem State.emit_moves (h : Moves σ s t) (o : Output) (hp : .out ∈ σ.parts) : Moves σ s (t.emit o) :=
  h.trans ⟨rfl, List.prefix_append _ _, Nat.le_refl _, id, fun _ => .refl _,
    fun x hx => by cases x <;> first | rfl | exact absurd hp hx, fun _ _ _ => rfl⟩

theorem State.draw_moves (h : Moves σ s t) (hp : .drawn ∈ σ.parts) : Moves σ s t.draw :=
  h.trans ⟨rfl, List.prefix_refl _, Nat.le_succ _, id, fun _ => .refl _,
    fun x hx => by cases x <;> first | rfl | exact absurd hp hx, fun _ _ _ => rfl⟩

theorem State.modChan_moves (h : Moves σ s t) (c : Nat) {f : Channel → Channel} (hp : .chans ∈ σ.parts)
    (hf : ∀ x, x = t.chan c → StoresMove σ.stores x (f x)) : Moves σ s (t.modChan c f) :=
  h.trans ⟨rfl, List.prefix_refl _, Nat.le_refl _, id, fun d => by
    rw [State.chan_modChan]
    split
    · subst_vars; exact hf _ rfl
    · exact .refl _, fun x hx => by cases x <;> first | rfl | exact absurd hp hx, fun _ _ _ => rfl⟩

theorem State.setChan_moves (h : Moves σ s t) (c : Nat) {x : Channel} (hp : .chans ∈ σ.parts)
    (hf : StoresMove σ.stores (t.chan c) x) : Moves σ s (t.setChan c x) :=
  State.modChan_moves (f := fun _ => x) h c hp fun _ e => e ▸ hf

theorem State.sendVector_moves (h : Moves σ s t) (v : Nat) (h1 : .msix ∈ σ.parts) (h2 : .out ∈ σ.parts) :
    Moves σ s (t.sendVector v) := by
  unfold State.sendVector
  refine .ite ?_ (State.emit_moves h _ h2)
  apply Moves.record h <;> first | rfl | exact .inl rfl | exact .inr h1

theorem State.signalFrom_moves (h : Moves σ s t) (p : Page) (b : Nat) (h1 : .msix ∈ σ.parts) (h2 : .out ∈ σ.parts) :
    Moves σ s (t.signalFrom p b) := by
  unfold State.signalFrom
  exact .ite (State.sendVector_moves h _ h1 h2) h

theorem State.raise_moves (h : Moves σ s t) (p : Page) (n : Nat) (hp : pageKind p ∈ σ.kinds) (h1 : .msix ∈ σ.parts)
    (h2 : .out ∈ σ.parts) : Moves σ s (t.raise p n) :=
  State.signalFrom_moves (State.wr_moves h _ _ _ hp) _ _ h1 h2

/-- Every page is of one of the kinds. -/
theorem pageKind_mem (p : Page) : pageKind p ∈ [PageKind.hif, .far, .hmmu, .strm, .dlm, .ctx, .rpl, .pwr, .clk, .ras,
    .hlk, .mbx, .grm, .cmmu, .wst, .ast, .tnd, .cvu, .hbmc, .ring, .eng, .door] := by
  cases p <;> simp [pageKind]

@[simp] theorem pageKind_hif : pageKind .hif = .hif := rfl
@[simp] theorem pageKind_far : pageKind .far = .far := rfl
@[simp] theorem pageKind_hmmu : pageKind .hmmu = .hmmu := rfl
@[simp] theorem pageKind_strm : pageKind .strm = .strm := rfl
@[simp] theorem pageKind_dlm : pageKind .dlm = .dlm := rfl
@[simp] theorem pageKind_ctx : pageKind .ctx = .ctx := rfl
@[simp] theorem pageKind_rpl : pageKind .rpl = .rpl := rfl
@[simp] theorem pageKind_pwr : pageKind .pwr = .pwr := rfl
@[simp] theorem pageKind_clk : pageKind .clk = .clk := rfl
@[simp] theorem pageKind_ras : pageKind .ras = .ras := rfl
@[simp] theorem pageKind_hlk (c : PortId) : pageKind (.hlk c) = .hlk := rfl
@[simp] theorem pageKind_mbx (c : MbxId) : pageKind (.mbx c) = .mbx := rfl
@[simp] theorem pageKind_grm (c : Ch) : pageKind (.grm c) = .grm := rfl
@[simp] theorem pageKind_cmmu (c : Ch) : pageKind (.cmmu c) = .cmmu := rfl
@[simp] theorem pageKind_wst (c : Ch) : pageKind (.wst c) = .wst := rfl
@[simp] theorem pageKind_ast (c : Ch) : pageKind (.ast c) = .ast := rfl
@[simp] theorem pageKind_tnd (c : Ch) : pageKind (.tnd c) = .tnd := rfl
@[simp] theorem pageKind_cvu (c : Ch) : pageKind (.cvu c) = .cvu := rfl
@[simp] theorem pageKind_hbmc (c : Ch) : pageKind (.hbmc c) = .hbmc := rfl
@[simp] theorem pageKind_ring (c : Ch) (r : RingId) : pageKind (.ring c r) = .ring := rfl
@[simp] theorem pageKind_eng (c : Ch) (r : SlotId) : pageKind (.eng c r) = .eng := rfl
@[simp] theorem pageKind_door (c : Ch) (r : RingId) : pageKind (.door c r) = .door := rfl
@[simp] theorem pageKind_engPage (c e : Nat) : pageKind (engPage c e) = .eng := rfl
@[simp] theorem pageKind_ringPage (c r : Nat) : pageKind (ringPage c r) = .ring := rfl
@[simp] theorem pageKind_doorPage (c r : Nat) : pageKind (doorPage c r) = .door := rfl
@[simp] theorem pageKind_tndPage (c : Nat) : pageKind (tndPage c) = .tnd := rfl
@[simp] theorem pageKind_cvuPage (c : Nat) : pageKind (cvuPage c) = .cvu := rfl

end Sys2Proof.Machine
end

