-- ==== Sys2Proof/Laws/MovesOps.lean ====
section
/-! SUPPORT. What the functions of Machine/Ops.lean can do to a state: each keeps the queue and the
canonical form of the stores, only adds to the output and keeps the registers 32 bits wide (`Moves`). -/

set_option Elab.async false

namespace Sys2Proof.Machine
variable {σ : Scope}

theorem State.raiseBits_moves {s0 : State} {s : State} (h : Moves σ s0 s) (p : Page) (bits : Nat) (hs : Scope.within ⟨false, [.out, .msix], []⟩ σ) (hp1 : pageKind p ∈ σ.kinds) :
    Moves σ s0 (State.raiseBits s p bits) := by
  unfold State.raiseBits
  repeat' first
    | with_reducible assumption
    | with_reducible apply Moves.ite
    | with_reducible apply State.wr_moves
    | with_reducible apply State.signalFrom_moves
    | dsimp only
    | split
    | with_reducible apply Moves.record
    | with_reducible rfl
    | exact hs.2.2 _ (by simp)
    | exact hs.2.1 _ (by decide +kernel)

theorem State.persistent_moves {s0 : State} {s : State} (h : Moves σ s0 s) (p : Page) (code : Nat) (loc : Nat) (hs : Scope.within ⟨false, [.out, .msix], [.ras]⟩ σ) (hp1 : pageKind p ∈ σ.kinds) :
    Moves σ s0 (State.persistent s p code loc) := by
  unfold State.persistent
  repeat' first
    | with_reducible assumption
    | with_reducible apply Moves.ite
    | with_reducible apply State.bump_moves
    | with_reducible apply State.raise_moves
    | with_reducible apply State.setWord_moves
    | dsimp only
    | split
    | with_reducible apply Moves.record
    | with_reducible rfl
    | exact hs.2.2 _ (by simp)
    | exact hs.2.1 _ (by decide +kernel)

theorem State.corrected_moves {s0 : State} {s : State} (h : Moves σ s0 s) (p : Page) (n : Nat) (hs : Scope.within ⟨false, [], []⟩ σ) (hp1 : pageKind p ∈ σ.kinds) :
    Moves σ s0 (State.corrected s p n) := by
  unfold State.corrected
  repeat' first
    | with_reducible assumption
    | with_reducible apply Moves.ite
    | with_reducible apply State.bump_moves

theorem State.drawMany_moves {s0 s : State} (h : Moves σ s0 s) (n : Nat) (hs : Scope.within ⟨false, [.drawn], []⟩ σ) : Moves σ s0 (State.drawMany s n) :=
  h.trans ⟨rfl, List.prefix_refl _, Nat.le_add_right _ _, id, fun _ => .refl _,
    fun x hx => by cases x <;> first | rfl | exact absurd (hs.2.1 _ (by decide +kernel)) hx, fun _ _ _ => rfl⟩

theorem State.modRing_moves {s0 : State} {s : State} (h : Moves σ s0 s) (c : Nat) (r : Nat) (f : Ring → Ring) (hs : Scope.within ⟨false, [.chans], []⟩ σ) :
    Moves σ s0 (State.modRing s c r f) := by
  unfold State.modRing
  repeat' first
    | with_reducible assumption
    | intro _
    | with_reducible apply Moves.ite
    | with_reducible apply State.modChan_moves
    | exact StoresMove.of_eq rfl rfl rfl
    | dsimp only
    | split
    | with_reducible apply Moves.record
    | with_reducible rfl
    | exact hs.2.2 _ (by simp)
    | exact hs.2.1 _ (by decide +kernel)

theorem State.modPort_moves {s0 : State} {s : State} (h : Moves σ s0 s) (p : Nat) (f : Port → Port) (hs : Scope.within ⟨false, [.ports], []⟩ σ) :
    Moves σ s0 (State.modPort s p f) := by
  unfold State.modPort
  repeat' first
    | with_reducible assumption
    | with_reducible apply Moves.ite
    | dsimp only
    | split
    | with_reducible apply Moves.record
    | with_reducible rfl
    | exact hs.2.2 _ (by simp)
    | exact hs.2.1 _ (by decide +kernel)
    | exact Scope.within.trans (by decide +kernel) hs
    | exact .inr (hs.2.1 _ (by decide +kernel))
    | with_reducible exact .inl rfl

theorem State.modSlot_moves {s0 : State} {s : State} (h : Moves σ s0 s) (m : Nat) (f : MbxSlot → MbxSlot) (hs : Scope.within ⟨false, [.mbx], []⟩ σ) :
    Moves σ s0 (State.modSlot s m f) := by
  unfold State.modSlot
  repeat' first
    | with_reducible assumption
    | with_reducible apply Moves.ite
    | dsimp only
    | split
    | with_reducible apply Moves.record
    | with_reducible rfl
    | exact hs.2.2 _ (by simp)
    | exact hs.2.1 _ (by decide +kernel)
    | exact Scope.within.trans (by decide +kernel) hs
    | exact .inr (hs.2.1 _ (by decide +kernel))
    | with_reducible exact .inl rfl

theorem State.setBlockRun_moves {s0 : State} {s : State} (h : Moves σ s0 s) (p : Page) (b : BlockRun) (hs : Scope.within ⟨false, [.blocks], []⟩ σ) :
    Moves σ s0 (State.setBlockRun s p b) := by
  unfold State.setBlockRun
  repeat' first
    | with_reducible assumption
    | with_reducible apply Moves.ite
    | dsimp only
    | split
    | with_reducible apply Moves.record
    | with_reducible rfl
    | exact hs.2.2 _ (by simp)
    | exact hs.2.1 _ (by decide +kernel)
    | exact Scope.within.trans (by decide +kernel) hs
    | exact .inr (hs.2.1 _ (by decide +kernel))
    | with_reducible exact .inl rfl

theorem State.modLog_moves {s0 : State} {s : State} (h : Moves σ s0 s) (n : Nat) (f : Log → Log) (hs : Scope.within ⟨false, [.recorder], []⟩ σ) :
    Moves σ s0 (State.modLog s n f) := by
  unfold State.modLog
  repeat' first
    | with_reducible assumption
    | with_reducible apply Moves.ite
    | dsimp only
    | split
    | with_reducible apply Moves.record
    | with_reducible rfl
    | exact hs.2.2 _ (by simp)
    | exact hs.2.1 _ (by decide +kernel)
    | exact Scope.within.trans (by decide +kernel) hs
    | exact .inr (hs.2.1 _ (by decide +kernel))
    | with_reducible exact .inl rfl

theorem State.modDev_moves {s0 : State} {s : State} (h : Moves σ s0 s) (f : Device → Device) (hs : Scope.within ⟨false, [.dev], []⟩ σ) :
    Moves σ s0 (State.modDev s f) := by
  unfold State.modDev
  repeat' first
    | with_reducible assumption
    | with_reducible apply Moves.ite
    | dsimp only
    | split
    | with_reducible apply Moves.record
    | with_reducible rfl
    | exact hs.2.2 _ (by simp)
    | exact hs.2.1 _ (by decide +kernel)
    | exact Scope.within.trans (by decide +kernel) hs
    | exact .inr (hs.2.1 _ (by decide +kernel))
    | with_reducible exact .inl rfl

theorem State.modXlat_moves {s0 : State} {s : State} (h : Moves σ s0 s) (f : Translation → Translation) (hs : Scope.within ⟨false, [.xlat], []⟩ σ) :
    Moves σ s0 (State.modXlat s f) := by
  unfold State.modXlat
  repeat' first
    | with_reducible assumption
    | with_reducible apply Moves.ite
    | dsimp only
    | split
    | with_reducible apply Moves.record
    | with_reducible rfl
    | exact hs.2.2 _ (by simp)
    | exact hs.2.1 _ (by decide +kernel)
    | exact Scope.within.trans (by decide +kernel) hs
    | exact .inr (hs.2.1 _ (by decide +kernel))
    | with_reducible exact .inl rfl

theorem State.modRec_moves {s0 : State} {s : State} (h : Moves σ s0 s) (f : Recorder → Recorder) (hs : Scope.within ⟨false, [.recorder], []⟩ σ) :
    Moves σ s0 (State.modRec s f) := by
  unfold State.modRec
  repeat' first
    | with_reducible assumption
    | with_reducible apply Moves.ite
    | dsimp only
    | split
    | with_reducible apply Moves.record
    | with_reducible rfl
    | exact hs.2.2 _ (by simp)
    | exact hs.2.1 _ (by decide +kernel)
    | exact Scope.within.trans (by decide +kernel) hs
    | exact .inr (hs.2.1 _ (by decide +kernel))
    | with_reducible exact .inl rfl

theorem State.zeroCyc_moves {s0 : State} {s : State} (h : Moves σ s0 s) (p : Page) (hs : Scope.within ⟨false, [.cycBase], []⟩ σ) :
    Moves σ s0 (State.zeroCyc s p) := by
  unfold State.zeroCyc
  repeat' first
    | with_reducible assumption
    | with_reducible apply Moves.ite
    | dsimp only
    | split
    | with_reducible apply Moves.record
    | with_reducible rfl
    | exact hs.2.2 _ (by simp)
    | exact hs.2.1 _ (by decide +kernel)
    | exact Scope.within.trans (by decide +kernel) hs
    | exact .inr (hs.2.1 _ (by decide +kernel))
    | with_reducible exact .inl rfl

end Sys2Proof.Machine
end

