-- ==== Sys2Proof/Laws/MovesRecording.lean ====
section
/-! SUPPORT. What the functions of Machine/Recording.lean can do to a state: each keeps the queue and the
canonical form of the stores, only adds to the output and keeps the registers 32 bits wide (`Moves`). -/

set_option Elab.async false

namespace Sys2Proof.Machine
variable {σ : Scope}

theorem State.logTo_moves {s0 : State} {s : State} (h : Moves σ s0 s) (n : Nat) (dom : Nat) (b : RecBody) (hs : Scope.within ⟨false, [.out, .msix, .recorder], [.rpl]⟩ σ) :
    Moves σ s0 (State.logTo s n dom b) := by
  unfold State.logTo
  repeat' first
    | with_reducible assumption
    | intro _
    | with_reducible apply Moves.ite
    | with_reducible apply State.wr_moves
    | with_reducible apply State.bump_moves
    | with_reducible apply State.raise_moves
    | with_reducible apply State.modLog_moves
    | dsimp only
    | split
    | with_reducible apply Moves.record
    | with_reducible rfl
    | exact hs.2.2 _ (by simp)
    | exact hs.2.1 _ (by decide +kernel)
    | exact Scope.within.trans (by decide +kernel) hs

theorem State.stopReplay_moves {s0 : State} {s : State} (h : Moves σ s0 s) (cause : Nat) (hs : Scope.within ⟨false, [.out, .msix, .recorder], [.rpl]⟩ σ) :
    Moves σ s0 (State.stopReplay s cause) := by
  unfold State.stopReplay
  repeat' first
    | with_reducible assumption
    | intro _
    | with_reducible apply Moves.ite
    | with_reducible apply State.wr_moves
    | with_reducible apply State.raise_moves
    | with_reducible apply State.modLog_moves
    | dsimp only
    | split
    | with_reducible apply Moves.record
    | with_reducible rfl
    | exact hs.2.2 _ (by simp)
    | exact hs.2.1 _ (by decide +kernel)
    | exact Scope.within.trans (by decide +kernel) hs

theorem State.upset_moves {s0 : State} {s : State} (h : Moves σ s0 s) (key : Nat × Nat) (again : State → State) (hs : Scope.within ⟨false, [.out, .msix, .recorder], [.rpl]⟩ σ) (h_again : ∀ u, Moves σ s0 u → Moves σ s0 (again u)) :
    Moves σ s0 (State.upset s key again) := by
  unfold State.upset
  repeat' first
    | with_reducible assumption
    | intro _
    | with_reducible apply Moves.ite
    | with_reducible apply State.bump_moves
    | with_reducible apply h_again
    | with_reducible apply State.modRec_moves
    | with_reducible apply State.stopReplay_moves
    | dsimp only
    | split
    | with_reducible apply Moves.record
    | with_reducible rfl
    | exact hs.2.2 _ (by simp)
    | exact hs.2.1 _ (by decide +kernel)
    | exact Scope.within.trans (by decide +kernel) hs

theorem State.logDec_moves {s0 : State} {s : State} (h : Moves σ s0 s) (c : Nat) (kind : Nat) (value : Nat) (hs : Scope.within ⟨false, [.out, .msix, .recorder], [.rpl]⟩ σ) :
    Moves σ s0 (State.logDec s c kind value) := by
  unfold State.logDec
  repeat' first
    | with_reducible assumption
    | intro _
    | with_reducible apply Moves.ite
    | with_reducible apply State.logTo_moves
    | with_reducible apply State.modRec_moves
    | with_reducible apply State.stopReplay_moves
    | with_reducible refine Moves.fstOf (by with_reducible assumption) ?_
    | dsimp only
    | split
    | with_reducible apply Moves.record
    | with_reducible rfl
    | exact hs.2.2 _ (by simp)
    | exact hs.2.1 _ (by decide +kernel)
    | exact Scope.within.trans (by decide +kernel) hs

theorem State.logLock_moves {s0 : State} {s : State} (h : Moves σ s0 s) (c : Nat) (value : Nat) (hs : Scope.within ⟨false, [.out, .msix, .recorder], [.rpl]⟩ σ) :
    Moves σ s0 (State.logLock s c value) := by
  unfold State.logLock
  repeat' first
    | with_reducible assumption
    | intro _
    | with_reducible apply Moves.ite
    | with_reducible apply State.logTo_moves
    | with_reducible apply State.modRec_moves
    | dsimp only
    | split
    | with_reducible apply Moves.record
    | with_reducible rfl
    | exact hs.2.2 _ (by simp)
    | exact hs.2.1 _ (by decide +kernel)
    | exact Scope.within.trans (by decide +kernel) hs

theorem State.matchCpl_moves {s0 : State} {s : State} (h : Moves σ s0 s) (x : Nat × Nat × Nat) (recorded : Bool) (hs : Scope.within ⟨false, [.out, .msix, .recorder], [.rpl]⟩ σ) :
    Moves σ s0 (State.matchCpl s x recorded) := by
  unfold State.matchCpl
  repeat' first
    | with_reducible assumption
    | intro _
    | with_reducible apply Moves.ite
    | with_reducible apply State.modRec_moves
    | with_reducible apply State.stopReplay_moves
    | with_reducible refine Moves.fstOf (by with_reducible assumption) ?_
    | dsimp only
    | split
    | with_reducible apply Moves.record
    | with_reducible rfl
    | exact hs.2.2 _ (by simp)
    | exact hs.2.1 _ (by decide +kernel)
    | exact Scope.within.trans (by decide +kernel) hs

theorem State.logOut_moves {s0 : State} {s : State} (h : Moves σ s0 s) (c : Nat) (kind : Nat) (value : Nat) (hs : Scope.within ⟨false, [.out, .msix, .recorder], [.rpl]⟩ σ) :
    Moves σ s0 (State.logOut s c kind value) := by
  unfold State.logOut
  repeat' first
    | with_reducible assumption
    | with_reducible apply Moves.ite
    | with_reducible apply State.logTo_moves

theorem State.logInput_moves {s0 : State} {s : State} (h : Moves σ s0 s) (c : Nat) (dom : Nat) (kind : Nat) (bs : List Byte) (hs : Scope.within ⟨false, [.out, .msix, .recorder], [.rpl]⟩ σ) :
    Moves σ s0 (State.logInput s c dom kind bs) := by
  unfold State.logInput
  repeat' first
    | with_reducible assumption
    | intro _
    | with_reducible apply Moves.ite
    | with_reducible apply State.logTo_moves
    | with_reducible apply State.modLog_moves
    | with_reducible apply Moves.fold
    | with_reducible apply Moves.foldPair
    | dsimp only
    | split
    | with_reducible apply Moves.record
    | with_reducible rfl
    | exact hs.2.2 _ (by simp)
    | exact hs.2.1 _ (by decide +kernel)
    | exact Scope.within.trans (by decide +kernel) hs

theorem State.recordStall_moves {s0 : State} {s : State} (h : Moves σ s0 s)  (hs : Scope.within ⟨false, [], [.rpl]⟩ σ) :
    Moves σ s0 (State.recordStall s) := by
  unfold State.recordStall
  repeat' first
    | with_reducible assumption
    | with_reducible apply Moves.ite
    | with_reducible apply State.bump_moves
    | dsimp only
    | split
    | with_reducible apply Moves.record
    | with_reducible rfl
    | exact hs.2.2 _ (by simp)

end Sys2Proof.Machine
end

