-- ==== Sys2Proof/Laws/MovesGuard.lean ====
section
/-! SUPPORT. What the functions of Machine/Guard.lean can do to a state: each keeps the queue and the
canonical form of the stores, only adds to the output and keeps the registers 32 bits wide (`Moves`). -/

set_option Elab.async false

namespace Sys2Proof.Machine
variable {σ : Scope}

theorem State.setChState_moves {s0 : State} {s : State} (h : Moves σ s0 s) (c : Nat) (v : Nat) (hs : Scope.within ⟨false, [.out, .msix], [.hif]⟩ σ) :
    Moves σ s0 (State.setChState s c v) := by
  unfold State.setChState
  repeat' first
    | with_reducible assumption
    | with_reducible apply Moves.ite
    | with_reducible apply State.wr_moves
    | with_reducible apply State.raise_moves
    | dsimp only
    | split
    | with_reducible apply Moves.record
    | with_reducible rfl
    | exact hs.2.2 _ (by simp)
    | exact hs.2.1 _ (by decide +kernel)

end Sys2Proof.Machine
end

