-- ==== Sys2Proof/Laws/MovesMailboxes.lean ====
section
/-! SUPPORT. What the functions of Machine/Mailboxes.lean can do to a state: each keeps the queue and the
canonical form of the stores, only adds to the output and keeps the registers 32 bits wide (`Moves`). -/

set_option Elab.async false

namespace Sys2Proof.Machine
variable {σ : Scope}

theorem State.acquire_moves {s0 : State} {s : State} (h : Moves σ s0 s) (p : Page) (i : Nat) (tag : Nat) (hs : Scope.within ⟨false, [], []⟩ σ) (hp1 : pageKind p ∈ σ.kinds) :
    Moves σ s0 (State.acquire s p i tag).2 := by
  unfold State.acquire
  repeat' first
    | with_reducible assumption
    | intro _
    | with_reducible apply Moves.ite
    | with_reducible apply State.wr_moves
    | with_reducible apply Moves.iteSnd

theorem State.release_moves {s0 : State} {s : State} (h : Moves σ s0 s) (p : Page) (i : Nat) (tag : Nat) (hs : Scope.within ⟨false, [], []⟩ σ) (hp1 : pageKind p ∈ σ.kinds) :
    Moves σ s0 (State.release s p i tag) := by
  unfold State.release
  repeat' first
    | with_reducible assumption
    | with_reducible apply Moves.ite
    | with_reducible apply State.wr_moves

theorem State.releaseAll_moves {s0 s : State} (h : Moves σ s0 s) (tag : Nat) (hs : Scope.within ⟨false, [], [.hif, .far, .hmmu, .strm, .dlm, .ctx, .rpl, .pwr, .clk, .ras, .hlk, .mbx, .grm, .cmmu, .wst, .ast, .tnd, .cvu, .hbmc, .ring, .eng, .door]⟩ σ) :
    Moves σ s0 (State.releaseAll s tag) :=
  h.regsMap _ (fun r => by split <;> rfl) (fun r hr => by
    split
    · exact setBits_lt hr (by decide)
    · exact hr) fun q hq => absurd (hs.2.2 _ (pageKind_mem q)) hq

theorem execLockReadAcquire_moves {s0 : State} {s : State} (h : Moves σ s0 s) (m : Master) (a : BarAddr) (hs : Scope.within ⟨false, [.out, .msix, .recorder], [.hif, .far, .hmmu, .strm, .dlm, .ctx, .rpl, .pwr, .clk, .ras, .hlk, .mbx, .grm, .cmmu, .wst, .ast, .tnd, .cvu, .hbmc, .ring, .eng, .door]⟩ σ) :
    MovesResult σ s0 (execLockReadAcquire m a s) := by
  unfold execLockReadAcquire
  repeat' first
    | with_reducible assumption
    | intro _
    | with_reducible apply Moves.ite
    | with_reducible apply State.emit_moves
    | with_reducible apply State.acquire_moves
    | with_reducible apply State.logLock_moves
    | with_reducible apply State.logTo_moves
    | with_reducible apply MovesResult.live
    | with_reducible apply MovesResult.next
    | with_reducible apply Moves.elimSnd
    | with_reducible apply Moves.elim
    | with_reducible apply Moves.elimSndFst
    | with_reducible apply Moves.elimFst
    | with_reducible refine Moves.fstOf (by with_reducible assumption) ?_
    | dsimp only
    | split
    | with_reducible apply Moves.record
    | with_reducible rfl
    | exact hs.2.2 _ (pageKind_mem _)
    | exact hs.2.1 _ (by decide +kernel)
    | exact Scope.within.trans (by decide +kernel) hs

theorem execLockRelease_moves {s0 : State} {s : State} (h : Moves σ s0 s) (m : Master) (a : BarAddr) (hs : Scope.within ⟨false, [], [.hif, .far, .hmmu, .strm, .dlm, .ctx, .rpl, .pwr, .clk, .ras, .hlk, .mbx, .grm, .cmmu, .wst, .ast, .tnd, .cvu, .hbmc, .ring, .eng, .door]⟩ σ) :
    MovesResult σ s0 (execLockRelease m a s) := by
  unfold execLockRelease
  repeat' first
    | with_reducible assumption
    | intro _
    | with_reducible apply Moves.ite
    | with_reducible apply State.release_moves
    | with_reducible apply MovesResult.live
    | with_reducible apply MovesResult.next
    | with_reducible refine Moves.fstOf (by with_reducible assumption) ?_
    | dsimp only
    | split
    | with_reducible apply Moves.record
    | with_reducible rfl
    | exact hs.2.2 _ (pageKind_mem _)
    | exact hs.2.1 _ (by decide +kernel)
    | exact Scope.within.trans (by decide +kernel) hs

theorem execLockForce_moves {s0 : State} {s : State} (h : Moves σ s0 s) (m : Master) (a : BarAddr) (hs : Scope.within ⟨false, [], [.hif, .far, .hmmu, .strm, .dlm, .ctx, .rpl, .pwr, .clk, .ras, .hlk, .mbx, .grm, .cmmu, .wst, .ast, .tnd, .cvu, .hbmc, .ring, .eng, .door]⟩ σ) :
    MovesResult σ s0 (execLockForce m a s) := by
  unfold execLockForce
  repeat' first
    | with_reducible assumption
    | intro _
    | with_reducible apply Moves.ite
    | with_reducible apply State.release_moves
    | with_reducible apply MovesResult.live
    | with_reducible apply MovesResult.next
    | with_reducible refine Moves.fstOf (by with_reducible assumption) ?_
    | dsimp only
    | split
    | with_reducible apply Moves.record
    | with_reducible rfl
    | exact hs.2.2 _ (pageKind_mem _)
    | exact hs.2.1 _ (by decide +kernel)
    | exact Scope.within.trans (by decide +kernel) hs

theorem State.toEgress_moves {s0 : State} {s : State} (h : Moves σ s0 s) (p : Nat) (vc : Nat) (m : LinkMsg) (hs : Scope.within ⟨false, [.ports], []⟩ σ) :
    Moves σ s0 (State.toEgress s p vc m) := by
  unfold State.toEgress
  repeat' first
    | with_reducible assumption
    | intro _
    | with_reducible apply Moves.ite
    | with_reducible apply State.modPort_moves

theorem State.sendCtrl_moves {s0 : State} {s : State} (h : Moves σ s0 s) (p : PortId) (m : CtrlMsg) (hs : Scope.within ⟨false, [.ports], []⟩ σ) :
    Moves σ s0 (State.sendCtrl s p m) := by
  unfold State.sendCtrl
  repeat' first
    | with_reducible assumption
    | with_reducible apply Moves.ite
    | with_reducible apply State.toEgress_moves

theorem State.takeCtrl_moves {s0 : State} {s : State} (h : Moves σ s0 s) (p : PortId) (hs : Scope.within ⟨false, [.ports], []⟩ σ) :
    Moves σ s0 (State.takeCtrl s p) := by
  unfold State.takeCtrl
  repeat' first
    | with_reducible assumption
    | intro _
    | with_reducible apply Moves.ite
    | with_reducible apply State.modPort_moves

theorem State.setWords_moves {s0 s : State} (h : Moves σ s0 s) (p : Page) (off : Nat) (ws : List Nat) (hs : Scope.within ⟨false, [], []⟩ σ) (hp1 : pageKind p ∈ σ.kinds) :
    Moves σ s0 (State.setWords s p off ws) := by
  induction ws generalizing s off with
  | nil => exact h
  | cons v ws ih => exact ih (State.setWord_moves h _ _ _ hp1) _

theorem State.logAccept_moves {s0 : State} {s : State} (h : Moves σ s0 s) (b : MbxId) (v : Nat) (hs : Scope.within ⟨false, [.out, .msix, .recorder], [.rpl]⟩ σ) :
    Moves σ s0 (State.logAccept s b v) := by
  unfold State.logAccept
  repeat' first
    | with_reducible assumption
    | intro _
    | with_reducible apply Moves.ite
    | with_reducible apply State.logLock_moves
    | with_reducible apply State.logTo_moves
    | with_reducible apply Moves.elimSnd
    | with_reducible apply Moves.elim

theorem State.mailTimeout_moves {s0 : State} {s : State} (h : Moves σ s0 s) (b : MbxId) (hs : Scope.within ⟨false, [.out, .msix, .recorder], [.rpl, .mbx]⟩ σ) :
    Moves σ s0 (State.mailTimeout s b) := by
  unfold State.mailTimeout
  repeat' first
    | with_reducible assumption
    | intro _
    | with_reducible apply Moves.ite
    | with_reducible apply State.wr_moves
    | with_reducible apply State.raise_moves
    | with_reducible apply State.logOut_moves
    | with_reducible apply State.logTo_moves
    | with_reducible apply Moves.elimSnd
    | with_reducible apply Moves.elim
    | with_reducible apply Moves.elimSndFst
    | with_reducible apply Moves.elimFst
    | dsimp only
    | split
    | with_reducible apply Moves.record
    | with_reducible rfl
    | exact hs.2.2 _ (by simp)
    | exact hs.2.1 _ (by decide +kernel)
    | exact Scope.within.trans (by decide +kernel) hs

theorem State.acceptSend_moves {s0 : State} {s : State} (h : Moves σ s0 s) (b : MbxId) (ws : List Nat) (hs : Scope.within ⟨false, [.out, .msix, .mbx, .ports, .recorder], [.rpl, .mbx]⟩ σ) :
    Moves σ s0 (State.acceptSend s b ws) := by
  unfold State.acceptSend
  repeat' first
    | with_reducible assumption
    | intro _
    | with_reducible apply Moves.ite
    | with_reducible apply State.wr_moves
    | with_reducible apply State.raise_moves
    | with_reducible apply State.logAccept_moves
    | with_reducible apply State.logInput_moves
    | with_reducible apply State.mailTimeout_moves
    | with_reducible apply State.modSlot_moves
    | with_reducible apply State.sendCtrl_moves
    | with_reducible apply State.setWords_moves
    | dsimp only
    | split
    | with_reducible apply Moves.record
    | with_reducible rfl
    | exact hs.2.2 _ (by simp)
    | exact hs.2.1 _ (by decide +kernel)
    | exact Scope.within.trans (by decide +kernel) hs

theorem State.flushAnswers_moves {s0 : State} {s : State} (h : Moves σ s0 s)  (hs : Scope.within ⟨false, [.out, .dev, .msix, .mbx, .ports, .recorder], [.rpl, .mbx]⟩ σ) :
    Moves σ s0 (State.flushAnswers s) := by
  unfold State.flushAnswers
  repeat' first
    | with_reducible assumption
    | intro _
    | with_reducible apply Moves.ite
    | with_reducible apply State.acceptSend_moves
    | with_reducible apply State.modDev_moves
    | with_reducible apply State.setWords_moves
    | with_reducible refine Moves.fstOf (by with_reducible assumption) ?_
    | dsimp only
    | split
    | with_reducible apply Moves.record
    | with_reducible rfl
    | exact hs.2.2 _ (by simp)
    | exact hs.2.1 _ (by decide +kernel)
    | exact Scope.within.trans (by decide +kernel) hs

theorem State.rejectSend_moves {s0 : State} {s : State} (h : Moves σ s0 s) (b : MbxId) (hs : Scope.within ⟨false, [.out, .msix, .recorder], [.rpl, .mbx]⟩ σ) :
    Moves σ s0 (State.rejectSend s b) := by
  unfold State.rejectSend
  repeat' first
    | with_reducible assumption
    | with_reducible apply Moves.ite
    | with_reducible apply State.bump_moves
    | with_reducible apply State.logAccept_moves
    | dsimp only
    | split
    | with_reducible apply Moves.record
    | with_reducible rfl
    | exact hs.2.2 _ (by simp)
    | exact hs.2.1 _ (by decide +kernel)
    | exact Scope.within.trans (by decide +kernel) hs

theorem State.postedSend_moves {s0 : State} {s : State} (h : Moves σ s0 s) (b : MbxId) (hs : Scope.within ⟨false, [.out, .msix, .mbx, .ports, .recorder], [.rpl, .mbx]⟩ σ) :
    Moves σ s0 (State.postedSend s b) := by
  unfold State.postedSend
  repeat' first
    | with_reducible assumption
    | with_reducible apply Moves.ite
    | with_reducible apply State.wr_moves
    | with_reducible apply State.raise_moves
    | with_reducible apply State.acceptSend_moves
    | with_reducible apply State.rejectSend_moves
    | dsimp only
    | split
    | with_reducible apply Moves.record
    | with_reducible rfl
    | exact hs.2.2 _ (by simp)
    | exact hs.2.1 _ (by decide +kernel)
    | exact Scope.within.trans (by decide +kernel) hs

theorem execMbxSend_moves {s0 : State} {s : State} (h : Moves σ s0 s) (m : Master) (b : MbxId) (hs : Scope.within ⟨false, [.out, .msix, .mbx, .ports, .recorder], [.rpl, .mbx]⟩ σ) :
    MovesResult σ s0 (execMbxSend m b s) := by
  unfold execMbxSend
  repeat' first
    | with_reducible assumption
    | intro _
    | with_reducible apply Moves.ite
    | with_reducible apply State.emit_moves
    | with_reducible apply State.acceptSend_moves
    | with_reducible apply State.postedSend_moves
    | with_reducible apply State.rejectSend_moves
    | with_reducible apply MovesResult.live
    | with_reducible apply MovesResult.next
    | dsimp only
    | split
    | with_reducible apply Moves.record
    | with_reducible rfl
    | exact hs.2.2 _ (by simp)
    | exact hs.2.1 _ (by decide +kernel)
    | exact Scope.within.trans (by decide +kernel) hs

theorem execMbxSendAlt_moves {s0 : State} {s : State} (h : Moves σ s0 s) (m : Master) (b : MbxId) (hs : Scope.within ⟨false, [.out, .msix, .mbx, .ports, .recorder], [.rpl, .mbx]⟩ σ) :
    MovesResult σ s0 (execMbxSendAlt m b s) := by
  unfold execMbxSendAlt
  repeat' first
    | with_reducible assumption
    | intro _
    | with_reducible apply Moves.ite
    | with_reducible apply State.postedSend_moves
    | with_reducible apply MovesResult.live

theorem execAtomicSwapSend_moves {s0 : State} {s : State} (h : Moves σ s0 s) (v : Word) (hs : Scope.within ⟨false, [.out, .msix, .mbx, .ports, .recorder], [.hif, .rpl, .mbx]⟩ σ) :
    MovesResult σ s0 (execAtomicSwapSend v s) := by
  unfold execAtomicSwapSend
  repeat' first
    | with_reducible assumption
    | intro _
    | with_reducible apply Moves.ite
    | with_reducible apply State.bump_moves
    | with_reducible apply State.emit_moves
    | with_reducible apply State.acceptSend_moves
    | with_reducible apply State.rejectSend_moves
    | with_reducible apply MovesResult.live
    | with_reducible apply MovesResult.next
    | dsimp only
    | split
    | with_reducible apply Moves.record
    | with_reducible rfl
    | exact hs.2.2 _ (by simp)
    | exact hs.2.1 _ (by decide +kernel)
    | exact Scope.within.trans (by decide +kernel) hs

theorem execUnsupportedAtomicop_moves {s0 : State} {s : State} (h : Moves σ s0 s) (a0_ : BarAddr) (hs : Scope.within ⟨false, [.out], [.hif]⟩ σ) :
    MovesResult σ s0 (execUnsupportedAtomicop a0_ s) := by
  unfold execUnsupportedAtomicop
  repeat' first
    | with_reducible assumption
    | intro _
    | with_reducible apply Moves.ite
    | with_reducible apply State.bump_moves
    | with_reducible apply State.emit_moves
    | with_reducible apply MovesResult.live
    | with_reducible apply MovesResult.next
    | dsimp only
    | split
    | with_reducible apply Moves.record
    | with_reducible rfl
    | exact hs.2.2 _ (by simp)
    | exact hs.2.1 _ (by decide +kernel)

theorem State.clearSlot_moves {s0 : State} {s : State} (h : Moves σ s0 s) (b : MbxId) (receipt : Receipt) (hs : Scope.within ⟨false, [.out, .dev, .msix, .mbx, .ports, .recorder], [.rpl, .mbx]⟩ σ) :
    Moves σ s0 (State.clearSlot s b receipt) := by
  unfold State.clearSlot
  repeat' first
    | with_reducible assumption
    | intro _
    | with_reducible apply Moves.ite
    | with_reducible apply State.flushAnswers_moves
    | with_reducible apply State.modSlot_moves
    | with_reducible apply State.sendCtrl_moves
    | dsimp only
    | split
    | with_reducible apply Moves.record
    | with_reducible rfl
    | exact hs.2.2 _ (by simp)
    | exact hs.2.1 _ (by decide +kernel)
    | exact Scope.within.trans (by decide +kernel) hs

theorem execMbxRecvRead_moves {s0 : State} {s : State} (h : Moves σ s0 s) (m : Master) (b : MbxId) (hs : Scope.within ⟨false, [.out, .dev, .msix, .mbx, .ports, .recorder], [.rpl, .mbx]⟩ σ) :
    MovesResult σ s0 (execMbxRecvRead m b s) := by
  unfold execMbxRecvRead
  repeat' first
    | with_reducible assumption
    | intro _
    | with_reducible apply Moves.ite
    | with_reducible apply State.emit_moves
    | with_reducible apply State.clearSlot_moves
    | with_reducible apply State.modSlot_moves
    | with_reducible apply MovesResult.live
    | with_reducible apply MovesResult.next
    | dsimp only
    | split
    | with_reducible apply Moves.record
    | with_reducible rfl
    | exact hs.2.2 _ (by simp)
    | exact hs.2.1 _ (by decide +kernel)
    | exact Scope.within.trans (by decide +kernel) hs

theorem execMbxAck_moves {s0 : State} {s : State} (h : Moves σ s0 s) (m : Master) (b : MbxId) (code : BitVec 16) (hs : Scope.within ⟨false, [.out, .dev, .msix, .mbx, .ports, .recorder], [.rpl, .mbx]⟩ σ) :
    MovesResult σ s0 (execMbxAck m b code s) := by
  unfold execMbxAck
  repeat' first
    | with_reducible assumption
    | intro _
    | with_reducible apply Moves.ite
    | with_reducible apply State.raise_moves
    | with_reducible apply State.setWord_moves
    | with_reducible apply State.clearSlot_moves
    | with_reducible apply MovesResult.live
    | with_reducible apply MovesResult.next
    | dsimp only
    | split
    | with_reducible apply Moves.record
    | with_reducible rfl
    | exact hs.2.2 _ (by simp)
    | exact hs.2.1 _ (by decide +kernel)

theorem execMbxCancel_moves {s0 : State} {s : State} (h : Moves σ s0 s) (m : Master) (b : MbxId) (v : Word) (hs : Scope.within ⟨false, [.out, .dev, .msix, .mbx, .ports, .recorder], [.rpl, .mbx]⟩ σ) :
    MovesResult σ s0 (execMbxCancel m b v s) := by
  unfold execMbxCancel
  repeat' first
    | with_reducible assumption
    | intro _
    | with_reducible apply Moves.ite
    | with_reducible apply State.flushAnswers_moves
    | with_reducible apply State.modSlot_moves
    | with_reducible apply State.sendCtrl_moves
    | with_reducible apply MovesResult.live
    | with_reducible apply MovesResult.next
    | dsimp only
    | split
    | with_reducible apply Moves.record
    | with_reducible rfl
    | exact hs.2.2 _ (by simp)
    | exact hs.2.1 _ (by decide +kernel)
    | exact Scope.within.trans (by decide +kernel) hs

theorem execMbxTimeout_moves {s0 : State} {s : State} (h : Moves σ s0 s) (b : MbxId) (hs : Scope.within ⟨false, [.out, .msix, .recorder], [.rpl, .mbx]⟩ σ) :
    MovesResult σ s0 (execMbxTimeout b s) := by
  unfold execMbxTimeout
  repeat' first
    | with_reducible assumption
    | intro _
    | with_reducible apply Moves.ite
    | with_reducible apply State.mailTimeout_moves
    | with_reducible apply MovesResult.live

theorem execPeerMessageArrival_moves {s0 : State} {s : State} (h : Moves σ s0 s) (p : PortId) (seq : BitVec 15) (words : Vector Word 16) (hs : Scope.within ⟨false, [.out, .msix, .mbx, .ports], [.mbx]⟩ σ) :
    MovesResult σ s0 (execPeerMessageArrival p seq words s) := by
  unfold execPeerMessageArrival
  repeat' first
    | with_reducible assumption
    | intro _
    | with_reducible apply Moves.ite
    | with_reducible apply State.bump_moves
    | with_reducible apply State.raise_moves
    | with_reducible apply State.modSlot_moves
    | with_reducible apply State.setWords_moves
    | with_reducible apply State.takeCtrl_moves
    | with_reducible apply MovesResult.live
    | with_reducible apply MovesResult.next
    | dsimp only
    | split
    | with_reducible apply Moves.record
    | with_reducible rfl
    | exact hs.2.2 _ (by simp)
    | exact hs.2.1 _ (by decide +kernel)
    | exact Scope.within.trans (by decide +kernel) hs

theorem execPeerReceiptArrival_moves {s0 : State} {s : State} (h : Moves σ s0 s) (p : PortId) (r : Receipt) (hs : Scope.within ⟨false, [.out, .msix, .mbx, .ports], [.mbx]⟩ σ) :
    MovesResult σ s0 (execPeerReceiptArrival p r s) := by
  unfold execPeerReceiptArrival
  repeat' first
    | with_reducible assumption
    | intro _
    | with_reducible apply Moves.ite
    | with_reducible apply State.raise_moves
    | with_reducible apply State.setWord_moves
    | with_reducible apply State.modSlot_moves
    | with_reducible apply State.takeCtrl_moves
    | with_reducible apply MovesResult.live
    | with_reducible apply MovesResult.next
    | with_reducible refine Moves.fstOf (by with_reducible assumption) ?_
    | dsimp only
    | split
    | with_reducible apply Moves.record
    | with_reducible rfl
    | exact hs.2.2 _ (by simp)
    | exact hs.2.1 _ (by decide +kernel)
    | exact Scope.within.trans (by decide +kernel) hs

theorem State.rlock_moves {s0 : State} {s : State} (h : Moves σ s0 s) (m : Master) (p : PortId) (page : BitVec 12) (lock : Fin 4) (release : Bool) (hs : Scope.within ⟨false, [.ports], [.hlk]⟩ σ) :
    Moves σ s0 (State.rlock s m p page lock release) := by
  unfold State.rlock
  repeat' first
    | with_reducible assumption
    | intro _
    | with_reducible apply Moves.ite
    | with_reducible apply State.wr_moves
    | with_reducible apply State.modPort_moves
    | with_reducible apply State.release_moves
    | with_reducible apply State.sendCtrl_moves
    | dsimp only
    | split
    | with_reducible apply Moves.record
    | with_reducible rfl
    | exact hs.2.2 _ (by simp)
    | exact hs.2.1 _ (by decide +kernel)
    | exact Scope.within.trans (by decide +kernel) hs

theorem execRlockAcquire_moves {s0 : State} {s : State} (h : Moves σ s0 s) (m : Master) (p : PortId) (page : BitVec 12) (lock : Fin 4) (hs : Scope.within ⟨false, [.ports], [.hlk]⟩ σ) :
    MovesResult σ s0 (execRlockAcquire m p page lock s) := by
  unfold execRlockAcquire
  repeat' first
    | with_reducible assumption
    | intro _
    | with_reducible apply Moves.ite
    | with_reducible apply State.rlock_moves
    | with_reducible apply MovesResult.live

theorem execRlockRelease_moves {s0 : State} {s : State} (h : Moves σ s0 s) (m : Master) (p : PortId) (page : BitVec 12) (lock : Fin 4) (hs : Scope.within ⟨false, [.ports], [.hlk]⟩ σ) :
    MovesResult σ s0 (execRlockRelease m p page lock s) := by
  unfold execRlockRelease
  repeat' first
    | with_reducible assumption
    | intro _
    | with_reducible apply Moves.ite
    | with_reducible apply State.rlock_moves
    | with_reducible apply MovesResult.live

theorem execRlockRequestArrival_moves {s0 : State} {s : State} (h : Moves σ s0 s) (p : PortId) (page : BitVec 12) (lock : Fin 4) (release : Bool) (hs : Scope.within ⟨false, [.drawn, .ports], [.hif, .far, .hmmu, .strm, .dlm, .ctx, .rpl, .pwr, .clk, .ras, .hlk, .mbx, .grm, .cmmu, .wst, .ast, .tnd, .cvu, .hbmc, .ring, .eng, .door]⟩ σ) :
    MovesResult σ s0 (execRlockRequestArrival p page lock release s) := by
  unfold execRlockRequestArrival
  repeat' first
    | with_reducible assumption
    | intro _
    | with_reducible apply Moves.ite
    | with_reducible apply State.draw_moves
    | with_reducible apply State.acquire_moves
    | with_reducible apply State.release_moves
    | with_reducible apply State.sendCtrl_moves
    | with_reducible apply State.takeCtrl_moves
    | with_reducible apply MovesResult.live
    | with_reducible apply MovesResult.next
    | with_reducible refine Moves.fstOf (by with_reducible assumption) ?_
    | dsimp only
    | split
    | with_reducible apply Moves.record
    | with_reducible rfl
    | exact hs.2.2 _ (pageKind_mem _)
    | exact hs.2.1 _ (by decide +kernel)
    | exact Scope.within.trans (by decide +kernel) hs

theorem execRlockReply_moves {s0 : State} {s : State} (h : Moves σ s0 s) (p : PortId) (value : Byte) (hs : Scope.within ⟨false, [.out, .msix, .ports], [.hlk]⟩ σ) :
    MovesResult σ s0 (execRlockReply p value s) := by
  unfold execRlockReply
  repeat' first
    | with_reducible assumption
    | intro _
    | with_reducible apply Moves.ite
    | with_reducible apply State.wr_moves
    | with_reducible apply State.raise_moves
    | with_reducible apply State.modPort_moves
    | with_reducible apply State.takeCtrl_moves
    | with_reducible apply MovesResult.live
    | with_reducible apply MovesResult.next
    | dsimp only
    | split
    | with_reducible apply Moves.record
    | with_reducible rfl
    | exact hs.2.2 _ (by simp)
    | exact hs.2.1 _ (by decide +kernel)
    | exact Scope.within.trans (by decide +kernel) hs

end Sys2Proof.Machine
end

