-- ==== Sys2Proof/Laws/MovesTranslation.lean ====
section
/-! SUPPORT. What the functions of Machine/Translation.lean can do to a state: each keeps the queue and the
canonical form of the stores, only adds to the output and keeps the registers 32 bits wide (`Moves`). -/

set_option Elab.async false

namespace Sys2Proof.Machine
variable {σ : Scope}

theorem State.modCache_moves {s0 : State} {s : State} (h : Moves σ s0 s) (k : CacheId) (f : Cache → Cache) (hs : Scope.within ⟨false, [.xlat], []⟩ σ) :
    Moves σ s0 (State.modCache s k f) := by
  unfold State.modCache
  repeat' first
    | with_reducible assumption
    | intro _
    | with_reducible apply Moves.ite
    | with_reducible apply State.modXlat_moves

theorem State.heldSince_moves {s0 : State} {s : State} (h : Moves σ s0 s) (before : State) (hs : Scope.within ⟨false, [.out, .msix], [.hmmu]⟩ σ) :
    Moves σ s0 (State.heldSince s before) := by
  unfold State.heldSince
  repeat' first
    | with_reducible assumption
    | with_reducible apply Moves.ite
    | with_reducible apply State.raise_moves
    | dsimp only
    | split
    | with_reducible apply Moves.record
    | with_reducible rfl
    | exact hs.2.2 _ (by simp)
    | exact hs.2.1 _ (by decide +kernel)

theorem State.onStall_moves {s0 : State} {s : State} (h : Moves σ s0 s) (r : RequesterId) (hs : Scope.within ⟨false, [.out, .msix], [.ctx, .grm, .wst, .cvu, .ring, .eng, .door]⟩ σ) :
    Moves σ s0 (State.onStall s r) := by
  unfold State.onStall
  repeat' first
    | with_reducible assumption
    | with_reducible apply Moves.ite
    | with_reducible apply State.wr_moves
    | with_reducible apply State.bump_moves
    | with_reducible apply State.raise_moves
    | with_reducible refine Moves.fstOf (by with_reducible assumption) ?_
    | dsimp only
    | split
    | with_reducible apply Moves.record
    | with_reducible rfl
    | exact hs.2.2 _ (by simp)
    | exact hs.2.1 _ (by decide +kernel)

theorem State.onResume_moves {s0 : State} {s : State} (h : Moves σ s0 s) (r : RequesterId) (hs : Scope.within ⟨false, [], [.ctx, .wst, .door]⟩ σ) :
    Moves σ s0 (State.onResume s r) := by
  unfold State.onResume
  repeat' first
    | with_reducible assumption
    | intro _
    | with_reducible apply Moves.ite
    | with_reducible apply State.wr_moves
    | with_reducible refine Moves.fstOf (by with_reducible assumption) ?_
    | dsimp only
    | split
    | with_reducible apply Moves.record
    | with_reducible rfl
    | exact hs.2.2 _ (by simp)

theorem State.enterFault_moves {s0 : State} {s : State} (h : Moves σ s0 s) (f : FaultEntry) (hs : Scope.within ⟨false, [.out, .msix, .xlat, .recorder], [.hmmu, .rpl, .cmmu]⟩ σ) :
    Moves σ s0 (State.enterFault s f) := by
  unfold State.enterFault
  repeat' first
    | with_reducible assumption
    | intro _
    | with_reducible apply Moves.ite
    | with_reducible apply State.wr_moves
    | with_reducible apply State.bump_moves
    | with_reducible apply State.raise_moves
    | with_reducible apply State.logOut_moves
    | with_reducible apply State.logTo_moves
    | with_reducible apply State.modXlat_moves
    | with_reducible refine Moves.fstOf (by with_reducible assumption) ?_
    | assumption
    | dsimp only
    | split
    | with_reducible apply Moves.record
    | with_reducible rfl
    | exact hs.2.2 _ (by simp)
    | exact hs.2.1 _ (by decide +kernel)
    | exact Scope.within.trans (by decide +kernel) hs

theorem State.fault_moves {s0 : State} {s : State} (h : Moves σ s0 s) (a : MemAccess) (cause : Nat) (level : Nat) (hs : Scope.within ⟨false, [.out, .msix, .xlat, .recorder], [.hmmu, .ctx, .rpl, .grm, .cmmu, .wst, .cvu, .ring, .eng, .door]⟩ σ) :
    Moves σ s0 (State.fault s a cause level) := by
  unfold State.fault
  repeat' first
    | with_reducible assumption
    | intro _
    | with_reducible apply Moves.ite
    | with_reducible apply State.enterFault_moves
    | with_reducible apply State.heldSince_moves
    | with_reducible apply State.onStall_moves
    | with_reducible apply State.stopReplay_moves
    | with_reducible apply Moves.elimSnd
    | with_reducible apply Moves.elim
    | with_reducible apply Moves.elimSndFst
    | with_reducible apply Moves.elimFst
    | assumption
    | dsimp only
    | split
    | with_reducible apply Moves.record
    | with_reducible rfl
    | exact hs.2.2 _ (by simp)
    | exact hs.2.1 _ (by decide +kernel)
    | exact Scope.within.trans (by decide +kernel) hs

theorem State.freeFault_moves {s0 : State} {s : State} (h : Moves σ s0 s) (id : Nat) (hs : Scope.within ⟨false, [.out, .msix, .xlat, .recorder], [.hmmu, .rpl, .cmmu]⟩ σ) :
    Moves σ s0 (State.freeFault s id) := by
  unfold State.freeFault
  repeat' first
    | with_reducible assumption
    | intro _
    | with_reducible apply Moves.ite
    | with_reducible apply State.enterFault_moves
    | with_reducible apply State.modXlat_moves
    | with_reducible refine Moves.fstOf (by with_reducible assumption) ?_
    | assumption
    | dsimp only
    | split
    | with_reducible apply Moves.record
    | with_reducible rfl
    | exact hs.2.2 _ (by simp)
    | exact hs.2.1 _ (by decide +kernel)
    | exact Scope.within.trans (by decide +kernel) hs

theorem State.walkFor_moves {s0 : State} {s : State} (h : Moves σ s0 s) (k : CacheId) (a : MemAccess) (hs : Scope.within ⟨false, [.out, .msix, .xlat, .recorder], [.hmmu, .ctx, .rpl, .grm, .cmmu, .wst, .cvu, .ring, .eng, .door]⟩ σ) :
    Moves σ s0 (State.walkFor s k a) := by
  unfold State.walkFor
  repeat' first
    | with_reducible assumption
    | intro _
    | with_reducible apply Moves.ite
    | with_reducible apply State.bump_moves
    | with_reducible apply State.fault_moves
    | with_reducible apply State.modCache_moves
    | with_reducible refine Moves.fstOf (by with_reducible assumption) ?_
    | dsimp only
    | split
    | with_reducible apply Moves.record
    | with_reducible rfl
    | exact hs.2.2 _ (by simp)
    | exact hs.2.1 _ (by decide +kernel)
    | exact Scope.within.trans (by decide +kernel) hs

theorem State.endWalk_moves {s0 : State} {s : State} (h : Moves σ s0 s) (k : CacheId) (i : Nat) (hs : Scope.within ⟨false, [.out, .msix, .xlat, .recorder], [.hmmu, .ctx, .rpl, .grm, .cmmu, .wst, .cvu, .ring, .eng, .door]⟩ σ) :
    Moves σ s0 (State.endWalk s k i) := by
  unfold State.endWalk
  repeat' first
    | with_reducible assumption
    | intro _
    | with_reducible apply Moves.ite
    | with_reducible apply State.modCache_moves
    | with_reducible apply State.walkFor_moves
    | with_reducible refine Moves.fstOf (by with_reducible assumption) ?_
    | dsimp only
    | split
    | with_reducible apply Moves.record
    | with_reducible rfl
    | exact hs.2.2 _ (by simp)
    | exact hs.2.1 _ (by decide +kernel)
    | exact Scope.within.trans (by decide +kernel) hs

theorem State.walkFault_moves {s0 : State} {s : State} (h : Moves σ s0 s) (k : CacheId) (i : Nat) (w : Walk) (cause : Nat) (level : Nat) (hs : Scope.within ⟨false, [.out, .msix, .xlat, .recorder], [.hmmu, .ctx, .rpl, .grm, .cmmu, .wst, .cvu, .ring, .eng, .door]⟩ σ) :
    Moves σ s0 (State.walkFault s k i w cause level) := by
  unfold State.walkFault
  repeat' first
    | with_reducible assumption
    | intro _
    | with_reducible apply Moves.ite
    | with_reducible apply State.endWalk_moves
    | with_reducible apply State.fault_moves
    | with_reducible apply State.modCache_moves
    | with_reducible apply Moves.fold
    | with_reducible apply Moves.foldPair
    | dsimp only
    | split
    | with_reducible apply Moves.record
    | with_reducible rfl
    | exact hs.2.2 _ (by simp)
    | exact hs.2.1 _ (by decide +kernel)
    | exact Scope.within.trans (by decide +kernel) hs

theorem State.modMem_moves {s0 s : State} (h : Moves σ s0 s) (t : Target) (f : Memory → Memory)
    (hf : ∀ m, m.wf → (f m).wf) (hs : Scope.within ⟨true, [.chans], []⟩ σ) : Moves σ s0 (State.modMem s t f) := by
  unfold State.modMem
  split
  · exact State.modChan_moves h _ (hs.2.1 _ (by decide +kernel)) fun x _ => .changeOf (hs.1 rfl) id id (hf _)
  · exact State.modChan_moves h _ (hs.2.1 _ (by decide +kernel)) fun x _ => .changeOf (hs.1 rfl) id (hf _) id
  · exact h

theorem State.countHbm_moves {s0 : State} {s : State} (h : Moves σ s0 s) (from' : Option Ch) (t : Target) (cls : Nat) (n : Nat) (hs : Scope.within ⟨false, [], [.hbmc]⟩ σ) :
    Moves σ s0 (State.countHbm s from' t cls n) := by
  unfold State.countHbm
  repeat' first
    | with_reducible assumption
    | with_reducible apply Moves.ite
    | with_reducible apply State.wrap_moves
    | with_reducible refine Moves.fstOf (by with_reducible assumption) ?_
    | dsimp only
    | split
    | with_reducible apply Moves.record
    | with_reducible rfl
    | exact hs.2.2 _ (by simp)

theorem execWalkReadReturn_moves {s0 : State} {s : State} (h : Moves σ s0 s) (k : CacheId) (i : Nat) (data : BitVec 256) (fail : Bool) (hs : Scope.within ⟨false, [.out, .msix, .xlat, .recorder, .chans], [.hmmu, .ctx, .rpl, .grm, .cmmu, .wst, .cvu, .hbmc, .ring, .eng, .door]⟩ σ) :
    MovesResult σ s0 (execWalkReadReturn k i data fail s) := by
  unfold execWalkReadReturn
  repeat' first
    | with_reducible assumption
    | intro _
    | with_reducible apply Moves.ite
    | with_reducible apply State.wr_moves
    | with_reducible apply State.countHbm_moves
    | with_reducible apply State.endWalk_moves
    | with_reducible apply State.fault_moves
    | with_reducible apply State.modCache_moves
    | with_reducible apply State.modXlat_moves
    | with_reducible apply State.pin_moves
    | with_reducible apply State.walkFault_moves
    | with_reducible apply Moves.fold
    | with_reducible apply Moves.foldPair
    | with_reducible apply MovesResult.live
    | with_reducible apply MovesResult.next
    | with_reducible refine Moves.fstOf (by with_reducible assumption) ?_
    | dsimp only
    | split
    | with_reducible apply Moves.record
    | with_reducible rfl
    | exact hs.2.2 _ (by simp)
    | exact hs.2.1 _ (by decide +kernel)
    | exact Scope.within.trans (by decide +kernel) hs

theorem State.reach_moves {s0 : State} {s : State} (h : Moves σ s0 s) (a : MemAccess) (hs : Scope.within ⟨false, [.out, .msix, .xlat, .recorder], [.hmmu, .ctx, .rpl, .grm, .cmmu, .wst, .cvu, .ring, .eng, .door]⟩ σ) :
    Moves σ s0 (State.reach s a).1 := by
  unfold State.reach
  repeat' first
    | with_reducible assumption
    | intro _
    | with_reducible apply Moves.ite
    | with_reducible apply State.fault_moves
    | with_reducible apply State.modCache_moves
    | with_reducible apply State.walkFor_moves
    | with_reducible apply Moves.iteFst
    | with_reducible refine Moves.fstOf (by with_reducible assumption) ?_
    | dsimp only
    | split
    | with_reducible apply Moves.record
    | with_reducible rfl
    | exact hs.2.2 _ (by simp)
    | exact hs.2.1 _ (by decide +kernel)
    | exact Scope.within.trans (by decide +kernel) hs

theorem State.replayed_moves {s0 : State} {s : State} (h : Moves σ s0 s) (c : Nat) (bs : List Byte) (hs : Scope.within ⟨false, [.out, .msix, .recorder], [.rpl]⟩ σ) :
    Moves σ s0 (State.replayed s c bs).1 := by
  unfold State.replayed
  repeat' first
    | with_reducible assumption
    | intro _
    | with_reducible apply Moves.ite
    | with_reducible apply State.bump_moves
    | with_reducible apply State.modRec_moves
    | with_reducible apply State.stopReplay_moves
    | with_reducible apply Moves.iteFst
    | with_reducible refine Moves.fstOf (by with_reducible assumption) ?_
    | dsimp only
    | split
    | with_reducible apply Moves.record
    | with_reducible rfl
    | exact hs.2.2 _ (by simp)
    | exact hs.2.1 _ (by decide +kernel)
    | exact Scope.within.trans (by decide +kernel) hs

theorem readPiece_moves {s0 : State} {so : State × ReadOut} (h : Moves σ s0 so.1) (a : MemAccess) (cls : Nat) (piece : Nat × Nat) (hs : Scope.within ⟨false, [.out, .msix, .xlat, .recorder], [.hmmu, .ctx, .rpl, .grm, .cmmu, .wst, .cvu, .hbmc, .ring, .eng, .door]⟩ σ) :
    Moves σ s0 (readPiece a cls so piece).1 := by
  unfold readPiece
  repeat' first
    | with_reducible assumption
    | intro _
    | with_reducible apply Moves.ite
    | with_reducible apply State.countHbm_moves
    | with_reducible apply State.logInput_moves
    | with_reducible apply State.reach_moves
    | with_reducible apply State.replayed_moves
    | with_reducible apply Moves.iteFst
    | with_reducible apply Moves.elimSnd
    | with_reducible apply Moves.elim
    | with_reducible apply Moves.elimSndFst
    | with_reducible apply Moves.elimFst
    | with_reducible refine Moves.fstOf (by with_reducible assumption) ?_
    | dsimp only
    | split
    | with_reducible apply Moves.record
    | with_reducible rfl
    | exact hs.2.2 _ (by simp)
    | exact hs.2.1 _ (by decide +kernel)
    | exact Scope.within.trans (by decide +kernel) hs

theorem State.readVa_moves {s0 : State} {s : State} (h : Moves σ s0 s) (a : MemAccess) (cls : Nat) (n : Nat) (ext : List Byte) (hs : Scope.within ⟨false, [.out, .msix, .xlat, .recorder], [.hmmu, .ctx, .rpl, .grm, .cmmu, .wst, .cvu, .hbmc, .ring, .eng, .door]⟩ σ) :
    Moves σ s0 (State.readVa s a cls n ext).1 := by
  unfold State.readVa
  repeat' first
    | with_reducible assumption
    | intro _
    | with_reducible apply Moves.ite
    | with_reducible apply readPiece_moves
    | with_reducible apply Moves.fold
    | with_reducible apply Moves.foldPair

theorem State.readOn_moves {s0 : State} {s : State} (h : Moves σ s0 s) (a : MemAccess) (cls : Nat) (n : Nat) (m : Moved) (ext : List Byte) (hs : Scope.within ⟨false, [.out, .msix, .xlat, .recorder], [.hmmu, .ctx, .rpl, .grm, .cmmu, .wst, .cvu, .hbmc, .ring, .eng, .door]⟩ σ) :
    Moves σ s0 (State.readOn s a cls n m ext).1 := by
  unfold State.readOn
  repeat' first
    | with_reducible assumption
    | intro _
    | with_reducible apply Moves.ite
    | with_reducible apply State.readVa_moves

theorem writePiece_moves {s0 : State} {st : State × Nat × Bool × List Byte} (h : Moves σ s0 st.1) (a : MemAccess) (cls : Nat) (piece : Nat × Nat) (hs : Scope.within ⟨true, [.out, .msix, .xlat, .recorder, .chans], [.hmmu, .ctx, .rpl, .grm, .cmmu, .wst, .cvu, .hbmc, .ring, .eng, .door]⟩ σ) :
    Moves σ s0 (writePiece a cls st piece).1 := by
  unfold writePiece
  repeat' first
    | with_reducible assumption
    | intro _
    | with_reducible apply Moves.ite
    | with_reducible apply State.emit_moves
    | with_reducible apply State.countHbm_moves
    | with_reducible apply State.modMem_moves
    | with_reducible apply State.reach_moves
    | with_reducible apply Moves.iteFst
    | with_reducible exact Memory.put_wf _ _ (by assumption)
    | with_reducible refine Moves.fstOf (by with_reducible assumption) ?_
    | dsimp only
    | split
    | with_reducible apply Moves.record
    | with_reducible rfl
    | exact hs.2.2 _ (by simp)
    | exact hs.2.1 _ (by decide +kernel)
    | exact Scope.within.trans (by decide +kernel) hs

theorem State.writeVa_moves {s0 : State} {s : State} (h : Moves σ s0 s) (a : MemAccess) (cls : Nat) (bs : List Byte) (hs : Scope.within ⟨true, [.out, .msix, .xlat, .recorder, .chans], [.hmmu, .ctx, .rpl, .grm, .cmmu, .wst, .cvu, .hbmc, .ring, .eng, .door]⟩ σ) :
    Moves σ s0 (State.writeVa s a cls bs).1 := by
  unfold State.writeVa
  repeat' first
    | with_reducible assumption
    | intro _
    | with_reducible apply Moves.ite
    | with_reducible apply writePiece_moves
    | with_reducible apply Moves.fold
    | with_reducible apply Moves.foldPair

theorem execFaultRecordWrite_moves {s0 : State} {s : State} (h : Moves σ s0 s) (ctx : CtxId) (hs : Scope.within ⟨false, [.out, .msix, .xlat], [.hmmu]⟩ σ) :
    MovesResult σ s0 (execFaultRecordWrite ctx s) := by
  unfold execFaultRecordWrite
  repeat' first
    | with_reducible assumption
    | intro _
    | with_reducible apply Moves.ite
    | with_reducible apply State.emit_moves
    | with_reducible apply State.heldSince_moves
    | with_reducible apply State.modXlat_moves
    | with_reducible apply State.sendVector_moves
    | with_reducible apply MovesResult.live
    | with_reducible apply MovesResult.next
    | with_reducible refine Moves.fstOf (by with_reducible assumption) ?_
    | assumption
    | dsimp only
    | split
    | with_reducible apply Moves.record
    | with_reducible rfl
    | exact hs.2.2 _ (by simp)
    | exact hs.2.1 _ (by decide +kernel)
    | exact Scope.within.trans (by decide +kernel) hs

theorem State.retryFault_moves {s0 : State} {s : State} (h : Moves σ s0 s) (f : FaultEntry) (hs : Scope.within ⟨false, [.out, .msix, .xlat, .recorder], [.hmmu, .ctx, .rpl, .grm, .cmmu, .wst, .cvu, .ring, .eng, .door]⟩ σ) :
    Moves σ s0 (State.retryFault s f) := by
  unfold State.retryFault
  repeat' first
    | with_reducible assumption
    | intro _
    | with_reducible apply Moves.ite
    | with_reducible apply State.freeFault_moves
    | with_reducible apply State.modXlat_moves
    | with_reducible apply State.onResume_moves
    | with_reducible apply State.walkFor_moves
    | with_reducible refine Moves.fstOf (by with_reducible assumption) ?_
    | assumption
    | dsimp only
    | split
    | with_reducible apply Moves.record
    | with_reducible rfl
    | exact hs.2.2 _ (by simp)
    | exact hs.2.1 _ (by decide +kernel)
    | exact Scope.within.trans (by decide +kernel) hs

theorem State.badDisposition_moves {s0 : State} {s : State} (h : Moves σ s0 s)  (hs : Scope.within ⟨false, [.out, .msix], [.hmmu]⟩ σ) :
    Moves σ s0 (State.badDisposition s) := by
  unfold State.badDisposition
  repeat' first
    | with_reducible assumption
    | with_reducible apply Moves.ite
    | with_reducible apply State.bump_moves
    | with_reducible apply State.raise_moves
    | dsimp only
    | split
    | with_reducible apply Moves.record
    | with_reducible rfl
    | exact hs.2.2 _ (by simp)
    | exact hs.2.1 _ (by decide +kernel)

theorem State.logDisposition_moves {s0 : State} {s : State} (h : Moves σ s0 s) (f : FaultEntry) (action : Nat) (hs : Scope.within ⟨false, [.out, .msix, .recorder], [.rpl]⟩ σ) :
    Moves σ s0 (State.logDisposition s f action) := by
  unfold State.logDisposition
  repeat' first
    | with_reducible assumption
    | with_reducible apply Moves.ite
    | with_reducible apply State.logOut_moves
    | with_reducible apply State.logTo_moves
    | with_reducible refine Moves.fstOf (by with_reducible assumption) ?_
    | assumption
    | dsimp only
    | split

theorem execRetry_moves {s0 : State} {s : State} (h : Moves σ s0 s) (m : Master) (fault : BitVec 24) (hs : Scope.within ⟨false, [.out, .msix, .xlat, .recorder], [.hmmu, .ctx, .rpl, .grm, .cmmu, .wst, .cvu, .ring, .eng, .door]⟩ σ) :
    MovesResult σ s0 (execRetry m fault s) := by
  unfold execRetry
  repeat' first
    | with_reducible assumption
    | intro _
    | with_reducible apply Moves.ite
    | with_reducible apply State.badDisposition_moves
    | with_reducible apply State.fault_moves
    | with_reducible apply State.logDisposition_moves
    | with_reducible apply State.retryFault_moves
    | with_reducible apply MovesResult.live
    | with_reducible apply MovesResult.next
    | with_reducible refine Moves.fstOf (by with_reducible assumption) ?_
    | dsimp only
    | split
    | with_reducible apply Moves.record
    | with_reducible rfl
    | exact hs.2.2 _ (by simp)
    | exact hs.2.1 _ (by decide +kernel)
    | exact Scope.within.trans (by decide +kernel) hs

theorem State.invalidate_moves {s0 : State} {s : State} (h : Moves σ s0 s) (m : Master) (scope : Nat) (ctx : Nat) (count : Nat) (hs : Scope.within ⟨false, [.xlat], [.hmmu]⟩ σ) :
    Moves σ s0 (State.invalidate s m scope ctx count) := by
  unfold State.invalidate
  repeat' first
    | with_reducible assumption
    | intro _
    | with_reducible apply Moves.ite
    | with_reducible apply State.wr_moves
    | with_reducible apply State.modXlat_moves
    | dsimp only
    | split
    | with_reducible apply Moves.record
    | with_reducible rfl
    | exact hs.2.2 _ (by simp)
    | exact hs.2.1 _ (by decide +kernel)
    | exact Scope.within.trans (by decide +kernel) hs

theorem execInvAll_moves {s0 : State} {s : State} (h : Moves σ s0 s) (m : Master) (hs : Scope.within ⟨false, [.xlat], [.hmmu]⟩ σ) :
    MovesResult σ s0 (execInvAll m s) := by
  unfold execInvAll
  repeat' first
    | with_reducible assumption
    | intro _
    | with_reducible apply Moves.ite
    | with_reducible apply State.invalidate_moves
    | with_reducible apply MovesResult.live

theorem execInvContext_moves {s0 : State} {s : State} (h : Moves σ s0 s) (m : Master) (ctx : CtxId) (hs : Scope.within ⟨false, [.xlat], [.hmmu]⟩ σ) :
    MovesResult σ s0 (execInvContext m ctx s) := by
  unfold execInvContext
  repeat' first
    | with_reducible assumption
    | intro _
    | with_reducible apply Moves.ite
    | with_reducible apply State.invalidate_moves
    | with_reducible apply MovesResult.live

theorem execInvRange_moves {s0 : State} {s : State} (h : Moves σ s0 s) (m : Master) (ctx : CtxId) (count : BitVec 20) (hs : Scope.within ⟨false, [.xlat], [.hmmu]⟩ σ) :
    MovesResult σ s0 (execInvRange m ctx count s) := by
  unfold execInvRange
  repeat' first
    | with_reducible assumption
    | intro _
    | with_reducible apply Moves.ite
    | with_reducible apply State.invalidate_moves
    | with_reducible apply MovesResult.live

theorem execInvCtt_moves {s0 : State} {s : State} (h : Moves σ s0 s) (m : Master) (ctx : CtxId) (hs : Scope.within ⟨false, [.xlat], [.hmmu]⟩ σ) :
    MovesResult σ s0 (execInvCtt m ctx s) := by
  unfold execInvCtt
  repeat' first
    | with_reducible assumption
    | intro _
    | with_reducible apply Moves.ite
    | with_reducible apply State.invalidate_moves
    | with_reducible apply MovesResult.live

theorem State.invalidateCache_moves {s0 : State} {s : State} (h : Moves σ s0 s) (v : Inval) (k : CacheId) (hs : Scope.within ⟨false, [.xlat], [.cmmu]⟩ σ) :
    Moves σ s0 (State.invalidateCache s v k) := by
  unfold State.invalidateCache
  repeat' first
    | with_reducible assumption
    | intro _
    | with_reducible apply Moves.ite
    | with_reducible apply State.bump_moves
    | with_reducible apply State.modCache_moves
    | with_reducible refine Moves.fstOf (by with_reducible assumption) ?_
    | dsimp only
    | split
    | with_reducible apply Moves.record
    | with_reducible rfl
    | exact hs.2.2 _ (by simp)
    | exact hs.2.1 _ (by decide +kernel)
    | exact Scope.within.trans (by decide +kernel) hs

theorem execInvalidationComplete_moves {s0 : State} {s : State} (h : Moves σ s0 s)  (hs : Scope.within ⟨false, [.out, .msix, .xlat, .recorder], [.hmmu, .ctx, .rpl, .grm, .cmmu, .wst, .cvu, .ring, .eng, .door]⟩ σ) :
    MovesResult σ s0 (execInvalidationComplete s) := by
  unfold execInvalidationComplete
  repeat' first
    | with_reducible assumption
    | intro _
    | with_reducible apply Moves.ite
    | with_reducible apply State.wr_moves
    | with_reducible apply State.raise_moves
    | with_reducible apply State.wrap_moves
    | with_reducible apply State.invalidateCache_moves
    | with_reducible apply State.modXlat_moves
    | with_reducible apply State.retryFault_moves
    | with_reducible apply Moves.fold
    | with_reducible apply Moves.foldPair
    | with_reducible apply MovesResult.live
    | with_reducible apply MovesResult.next
    | with_reducible refine Moves.fstOf (by with_reducible assumption) ?_
    | dsimp only
    | split
    | with_reducible apply Moves.record
    | with_reducible rfl
    | exact hs.2.2 _ (by simp)
    | exact hs.2.1 _ (by decide +kernel)
    | exact Scope.within.trans (by decide +kernel) hs

theorem State.forgetAccesses_moves {s0 : State} {s : State} (h : Moves σ s0 s) (p : MemAccess → Bool) (hs : Scope.within ⟨false, [.out, .msix, .xlat, .recorder], [.hmmu, .rpl, .cmmu]⟩ σ) :
    Moves σ s0 (State.forgetAccesses s p) := by
  unfold State.forgetAccesses
  repeat' first
    | with_reducible assumption
    | intro _
    | with_reducible apply Moves.ite
    | with_reducible apply State.freeFault_moves
    | with_reducible apply State.modCache_moves
    | with_reducible apply State.modXlat_moves
    | with_reducible apply Moves.fold
    | with_reducible apply Moves.foldPair
    | assumption
    | dsimp only
    | split
    | with_reducible apply Moves.record
    | with_reducible rfl
    | exact hs.2.2 _ (by simp)
    | exact hs.2.1 _ (by decide +kernel)
    | exact Scope.within.trans (by decide +kernel) hs

end Sys2Proof.Machine
end

