-- ==== Sys2Proof/Laws/MovesEngine.lean ====
section
/-! SUPPORT. What the functions of Machine/Engine.lean can do to a state: each keeps the queue and the
canonical form of the stores, only adds to the output and keeps the registers 32 bits wide (`Moves`). -/

set_option Elab.async false

namespace Sys2Proof.Machine
variable {σ : Scope}

theorem State.modEngine_moves {s0 : State} {s : State} (h : Moves σ s0 s) (c : Nat) (e : Nat) (f : Engine → Engine) (hs : Scope.within ⟨false, [.chans], []⟩ σ) :
    Moves σ s0 (State.modEngine s c e f) := by
  unfold State.modEngine
  repeat' first
    | with_reducible assumption
    | intro _
    | with_reducible apply Moves.ite
    | with_reducible apply State.modChan_moves
    | exact StoresMove.of_eq rfl rfl rfl
    | dsimp only
    | split
    | with_reducible apply Moves.record
    | with_reducible rfl
    | exact hs.2.2 _ (by simp)
    | exact hs.2.1 _ (by decide +kernel)

theorem State.modTile_moves {s0 : State} {s : State} (h : Moves σ s0 s) (c : Nat) (e : Nat) (t : Nat) (f : TileSlot → TileSlot) (hs : Scope.within ⟨false, [.chans], []⟩ σ) :
    Moves σ s0 (State.modTile s c e t f) := by
  unfold State.modTile
  repeat' first
    | with_reducible assumption
    | intro _
    | with_reducible apply Moves.ite
    | with_reducible apply State.modEngine_moves

theorem State.setBlk_moves {s0 : State} {s : State} (h : Moves σ s0 s) (p : Page) (v : Nat) (hs : Scope.within ⟨false, [], []⟩ σ) (hp1 : pageKind p ∈ σ.kinds) :
    Moves σ s0 (State.setBlk s p v) := by
  unfold State.setBlk
  repeat' first
    | with_reducible assumption
    | with_reducible apply Moves.ite
    | with_reducible apply State.wr_moves

theorem State.modSite_moves {s0 : State} {s : State} (h : Moves σ s0 s) (c : Nat) (n : Nat) (f : Site → Site) (hs : Scope.within ⟨false, [.chans], []⟩ σ) :
    Moves σ s0 (State.modSite s c n f) := by
  unfold State.modSite
  repeat' first
    | with_reducible assumption
    | intro _
    | with_reducible apply Moves.ite
    | with_reducible apply State.modChan_moves
    | exact StoresMove.of_eq rfl rfl rfl
    | dsimp only
    | split
    | with_reducible apply Moves.record
    | with_reducible rfl
    | exact hs.2.2 _ (by simp)
    | exact hs.2.1 _ (by decide +kernel)

theorem State.ghostDrop_moves {s0 : State} {s : State} (h : Moves σ s0 s) (c : Nat) (e : Nat) (hs : Scope.within ⟨false, [.out, .msix], [.ras, .eng]⟩ σ) :
    Moves σ s0 (State.ghostDrop s c e) := by
  unfold State.ghostDrop
  repeat' first
    | with_reducible assumption
    | with_reducible apply Moves.ite
    | with_reducible apply State.bump_moves
    | with_reducible apply State.raise_moves
    | dsimp only
    | split
    | with_reducible apply Moves.record
    | with_reducible rfl
    | exact hs.2.2 _ (by simp)
    | exact hs.2.1 _ (by decide +kernel)

theorem State.modCmd_moves {s0 : State} {s : State} (h : Moves σ s0 s) (c : Nat) (num : Nat) (f : HostCmd → HostCmd) (hs : Scope.within ⟨false, [.chans], []⟩ σ) :
    Moves σ s0 (State.modCmd s c num f) := by
  unfold State.modCmd
  repeat' first
    | with_reducible assumption
    | intro _
    | with_reducible apply Moves.ite
    | with_reducible apply State.modChan_moves
    | exact StoresMove.of_eq rfl rfl rfl
    | dsimp only
    | split
    | with_reducible apply Moves.record
    | with_reducible rfl
    | exact hs.2.2 _ (by simp)
    | exact hs.2.1 _ (by decide +kernel)

theorem State.ecDone_moves {s0 : State} {s : State} (h : Moves σ s0 s) (c : Nat) (k : EngCmd) (status : Nat) (hs : Scope.within ⟨false, [.chans], []⟩ σ) :
    Moves σ s0 (State.ecDone s c k status) := by
  unfold State.ecDone
  repeat' first
    | with_reducible assumption
    | intro _
    | with_reducible apply Moves.ite
    | with_reducible apply State.modCmd_moves

theorem State.ecsDone_moves {s0 : State} {s : State} (h : Moves σ s0 s) (c : Nat) (ks : List EngCmd) (status : Nat) (hs : Scope.within ⟨false, [.chans], []⟩ σ) :
    Moves σ s0 (State.ecsDone s c ks status) := by
  unfold State.ecsDone
  repeat' first
    | with_reducible assumption
    | intro _
    | with_reducible apply Moves.ite
    | with_reducible apply State.ecDone_moves
    | with_reducible apply Moves.fold

theorem State.freeEntry_moves {s0 : State} {s : State} (h : Moves σ s0 s) (c : Nat) (e : Nat) (k : EngCmd) (hs : Scope.within ⟨false, [.chans], []⟩ σ) :
    Moves σ s0 (State.freeEntry s c e k) := by
  unfold State.freeEntry
  repeat' first
    | with_reducible assumption
    | intro _
    | with_reducible apply Moves.ite
    | with_reducible apply State.modEngine_moves

theorem State.wrAll_moves {s0 : State} {s : State} (h : Moves σ s0 s) (c : Nat) (es : List Nat) (f : Fld) (v : Nat) (hs : Scope.within ⟨false, [], [.eng]⟩ σ) :
    Moves σ s0 (State.wrAll s c es f v) := by
  unfold State.wrAll
  repeat' first
    | with_reducible assumption
    | intro _
    | with_reducible apply Moves.ite
    | with_reducible apply State.wr_moves
    | with_reducible apply Moves.fold
    | with_reducible apply Moves.foldPair
    | dsimp only
    | split
    | with_reducible apply Moves.record
    | with_reducible rfl
    | exact hs.2.2 _ (by simp)

theorem State.wrapAll_moves {s0 : State} {s : State} (h : Moves σ s0 s) (c : Nat) (es : List Nat) (f : Fld) (n : Nat) (hs : Scope.within ⟨false, [], [.eng]⟩ σ) :
    Moves σ s0 (State.wrapAll s c es f n) := by
  unfold State.wrapAll
  repeat' first
    | with_reducible assumption
    | intro _
    | with_reducible apply Moves.ite
    | with_reducible apply State.wrap_moves
    | with_reducible apply Moves.fold
    | with_reducible apply Moves.foldPair
    | dsimp only
    | split
    | with_reducible apply Moves.record
    | with_reducible rfl
    | exact hs.2.2 _ (by simp)

theorem State.bumpAll_moves {s0 : State} {s : State} (h : Moves σ s0 s) (c : Nat) (es : List Nat) (f : Fld) (hs : Scope.within ⟨false, [], [.eng]⟩ σ) :
    Moves σ s0 (State.bumpAll s c es f) := by
  unfold State.bumpAll
  repeat' first
    | with_reducible assumption
    | intro _
    | with_reducible apply Moves.ite
    | with_reducible apply State.bump_moves
    | with_reducible apply Moves.fold
    | with_reducible apply Moves.foldPair
    | dsimp only
    | split
    | with_reducible apply Moves.record
    | with_reducible rfl
    | exact hs.2.2 _ (by simp)

theorem State.sweep_moves {s0 : State} {s : State} (h : Moves σ s0 s) (c : Nat) (e : Nat) (hs : Scope.within ⟨false, [.chans], [.eng]⟩ σ) :
    Moves σ s0 (State.sweep s c e) := by
  unfold State.sweep
  repeat' first
    | with_reducible assumption
    | intro _
    | with_reducible apply Moves.ite
    | with_reducible apply State.modEngine_moves
    | with_reducible apply State.wrAll_moves
    | dsimp only
    | split
    | with_reducible apply Moves.record
    | with_reducible rfl
    | exact hs.2.2 _ (by simp)
    | exact hs.2.1 _ (by decide +kernel)
    | exact Scope.within.trans (by decide +kernel) hs

theorem State.showBank_moves {s0 : State} {s : State} (h : Moves σ s0 s) (c : Nat) (es : List Nat) (n : Nat) (d : Group) (valid : Nat) (building : Nat) (knot : Nat) (hs : Scope.within ⟨false, [], [.eng]⟩ σ) :
    Moves σ s0 (State.showBank s c es n d valid building knot) := by
  unfold State.showBank
  repeat' first
    | with_reducible assumption
    | with_reducible apply Moves.ite
    | with_reducible apply State.wrAll_moves

theorem State.startRebuild_moves {s0 : State} {s : State} (h : Moves σ s0 s) (c : Nat) (e : Nat) (n : Nat) (uid : Nat) (d : Group) (hs : Scope.within ⟨false, [.chans], [.eng]⟩ σ) :
    Moves σ s0 (State.startRebuild s c e n uid d) := by
  unfold State.startRebuild
  repeat' first
    | with_reducible assumption
    | intro _
    | with_reducible apply Moves.ite
    | with_reducible apply State.bumpAll_moves
    | with_reducible apply State.modEngine_moves
    | with_reducible apply State.showBank_moves
    | dsimp only
    | split
    | with_reducible apply Moves.record
    | with_reducible rfl
    | exact hs.2.2 _ (by simp)
    | exact hs.2.1 _ (by decide +kernel)
    | exact Scope.within.trans (by decide +kernel) hs

theorem State.bindTo_moves {s0 : State} {s : State} (h : Moves σ s0 s) (c : Nat) (e : Nat) (n : Nat) (uid : Nat) (hs : Scope.within ⟨false, [.chans], [.eng]⟩ σ) :
    Moves σ s0 (State.bindTo s c e n uid) := by
  unfold State.bindTo
  repeat' first
    | with_reducible assumption
    | intro _
    | with_reducible apply Moves.ite
    | with_reducible apply State.modEngine_moves
    | with_reducible apply State.wrAll_moves
    | dsimp only
    | split
    | with_reducible apply Moves.record
    | with_reducible rfl
    | exact hs.2.2 _ (by simp)
    | exact hs.2.1 _ (by decide +kernel)
    | exact Scope.within.trans (by decide +kernel) hs

theorem State.bindBank_moves {s0 : State} {s : State} (h : Moves σ s0 s) (c : Nat) (e : Nat) (uid : Nat) (d : Group) (hs : Scope.within ⟨false, [.chans], [.eng]⟩ σ) :
    Moves σ s0 (State.bindBank s c e uid d) := by
  unfold State.bindBank
  repeat' first
    | with_reducible assumption
    | intro _
    | with_reducible apply Moves.ite
    | with_reducible apply State.bindTo_moves
    | with_reducible apply State.modEngine_moves
    | with_reducible apply State.startRebuild_moves
    | dsimp only
    | split
    | with_reducible apply Moves.record
    | with_reducible rfl
    | exact hs.2.2 _ (by simp)
    | exact hs.2.1 _ (by decide +kernel)
    | exact Scope.within.trans (by decide +kernel) hs

theorem State.unbind_moves {s0 : State} {s : State} (h : Moves σ s0 s) (c : Nat) (e : Nat) (uid : Nat) (hs : Scope.within ⟨false, [.chans], [.eng]⟩ σ) :
    Moves σ s0 (State.unbind s c e uid) := by
  unfold State.unbind
  repeat' first
    | with_reducible assumption
    | intro _
    | with_reducible apply Moves.ite
    | with_reducible apply State.bindTo_moves
    | with_reducible apply State.modEngine_moves
    | with_reducible apply State.startRebuild_moves
    | with_reducible apply State.wrAll_moves
    | with_reducible apply Moves.fold
    | with_reducible apply Moves.foldPair
    | with_reducible refine Moves.fstOf (by with_reducible assumption) ?_
    | dsimp only
    | split
    | with_reducible apply Moves.record
    | with_reducible rfl
    | exact hs.2.2 _ (by simp)
    | exact hs.2.1 _ (by decide +kernel)
    | exact Scope.within.trans (by decide +kernel) hs

theorem State.relaySend_moves {s0 : State} {s : State} (h : Moves σ s0 s) (c : Nat) (e : Nat) (k : EngCmd) (t : Option Nat) (b : Block) (hs : Scope.within ⟨false, [.out, .msix, .xlat, .recorder, .chans], [.hmmu, .ctx, .rpl, .grm, .cmmu, .wst, .cvu, .hbmc, .ring, .eng, .door]⟩ σ) :
    Moves σ s0 (State.relaySend s c e k t b) := by
  unfold State.relaySend
  repeat' first
    | with_reducible assumption
    | intro _
    | with_reducible apply Moves.ite
    | with_reducible apply Reading.block_moves
    | with_reducible apply State.modEngine_moves
    | dsimp only
    | split
    | with_reducible apply Moves.record
    | with_reducible rfl
    | exact hs.2.2 _ (by simp)
    | exact hs.2.1 _ (by decide +kernel)
    | exact Scope.within.trans (by decide +kernel) hs

theorem State.sendBreak_moves {s0 : State} {s : State} (h : Moves σ s0 s) (c : Nat) (e : Nat) (k : EngCmd) (tkind : Nat) (cause : Nat) (hs : Scope.within ⟨false, [.out, .msix, .xlat, .recorder, .chans], [.hmmu, .ctx, .rpl, .grm, .cmmu, .wst, .cvu, .hbmc, .ring, .eng, .door]⟩ σ) :
    Moves σ s0 (State.sendBreak s c e k tkind cause) := by
  unfold State.sendBreak
  repeat' first
    | with_reducible assumption
    | with_reducible apply Moves.ite
    | with_reducible apply State.relaySend_moves

theorem State.dropRuns_moves {s0 : State} {s : State} (h : Moves σ s0 s) (c : Nat) (e : Nat) (t : Nat) (hs : Scope.within ⟨false, [.chans], [.eng]⟩ σ) :
    Moves σ s0 (State.dropRuns s c e t) := by
  unfold State.dropRuns
  repeat' first
    | with_reducible assumption
    | intro _
    | with_reducible apply Moves.ite
    | with_reducible apply State.freeEntry_moves
    | with_reducible apply State.modEngine_moves
    | with_reducible apply State.sweep_moves
    | with_reducible apply State.unbind_moves
    | with_reducible apply Moves.fold
    | with_reducible apply Moves.foldPair
    | dsimp only
    | split
    | with_reducible apply Moves.record
    | with_reducible rfl
    | exact hs.2.2 _ (by simp)
    | exact hs.2.1 _ (by decide +kernel)
    | exact Scope.within.trans (by decide +kernel) hs

theorem State.freeTile_moves {s0 : State} {s : State} (h : Moves σ s0 s) (c : Nat) (e : Nat) (t : Nat) (hs : Scope.within ⟨false, [.chans], [.eng]⟩ σ) :
    Moves σ s0 (State.freeTile s c e t) := by
  unfold State.freeTile
  repeat' first
    | with_reducible assumption
    | intro _
    | with_reducible apply Moves.ite
    | with_reducible apply State.dropRuns_moves
    | with_reducible apply State.modEngine_moves
    | dsimp only
    | split
    | with_reducible apply Moves.record
    | with_reducible rfl
    | exact hs.2.2 _ (by simp)
    | exact hs.2.1 _ (by decide +kernel)
    | exact Scope.within.trans (by decide +kernel) hs

theorem State.loseTile_moves {s0 : State} {s : State} (h : Moves σ s0 s) (c : Nat) (e : Nat) (t : Nat) (status : Nat) (cause : Option Nat) (hs : Scope.within ⟨false, [.out, .msix, .xlat, .recorder, .chans], [.hmmu, .ctx, .rpl, .grm, .cmmu, .wst, .cvu, .hbmc, .ring, .eng, .door]⟩ σ) :
    Moves σ s0 (State.loseTile s c e t status cause) := by
  unfold State.loseTile
  repeat' first
    | with_reducible assumption
    | with_reducible apply Moves.ite
    | with_reducible apply State.ecsDone_moves
    | with_reducible apply State.freeTile_moves
    | with_reducible apply State.sendBreak_moves
    | with_reducible exact Memory.lose_wf _ _ (by assumption)
    | with_reducible refine Moves.fstOf (by with_reducible assumption) ?_
    | dsimp only
    | split
    | with_reducible apply Moves.record
    | with_reducible rfl
    | exact hs.2.2 _ (by simp)
    | exact hs.2.1 _ (by decide +kernel)
    | exact Scope.within.trans (by decide +kernel) hs

theorem State.metPoison_moves {s0 : State} {s : State} (h : Moves σ s0 s) (c : Nat) (consumer : Nat) (addr : Nat) (hs : Scope.within ⟨false, [.out, .msix, .recorder], [.rpl]⟩ σ) :
    Moves σ s0 (State.metPoison s c consumer addr) := by
  unfold State.metPoison
  repeat' first
    | with_reducible assumption
    | with_reducible apply Moves.ite
    | with_reducible apply State.logOut_moves

theorem State.tileLost_moves {s0 : State} {s : State} (h : Moves σ s0 s) (c : Nat) (e : Nat) (t : Nat) (hs : Scope.within ⟨false, [.out, .msix, .xlat, .recorder, .chans], [.hmmu, .ctx, .rpl, .ras, .grm, .cmmu, .wst, .cvu, .hbmc, .ring, .eng, .door]⟩ σ) :
    Moves σ s0 (State.tileLost s c e t) := by
  unfold State.tileLost
  repeat' first
    | with_reducible assumption
    | with_reducible apply Moves.ite
    | with_reducible apply State.loseTile_moves
    | with_reducible apply State.metPoison_moves
    | with_reducible apply State.persistent_moves
    | with_reducible exact Memory.lose_wf _ _ (by assumption)
    | dsimp only
    | split
    | with_reducible apply Moves.record
    | with_reducible rfl
    | exact hs.2.2 _ (by simp)
    | exact hs.2.1 _ (by decide +kernel)
    | exact Scope.within.trans (by decide +kernel) hs

end Sys2Proof.Machine
end

