-- ==== Sys2Proof/Laws/MovesPaths.lean ====
section
/-! SUPPORT. What the functions of Machine/Paths.lean can do to a state: each keeps the queue and the
canonical form of the stores, only adds to the output and keeps the registers 32 bits wide (`Moves`). -/

set_option Elab.async false

namespace Sys2Proof.Machine
variable {σ : Scope}

theorem State.withheldSince_moves {s0 : State} {s : State} (h : Moves σ s0 s) (before : State) (c : Nat) (hs : Scope.within ⟨false, [.out, .msix], [.tnd]⟩ σ) :
    Moves σ s0 (State.withheldSince s before c) := by
  unfold State.withheldSince
  repeat' first
    | with_reducible assumption
    | intro _
    | with_reducible apply Moves.ite
    | with_reducible apply State.raise_moves
    | dsimp only
    | split
    | with_reducible apply Moves.record
    | with_reducible rfl
    | exact hs.2.2 _ (by simp)
    | exact hs.2.1 _ (by decide +kernel)

theorem State.takeLanding_moves {s0 : State} {s : State} (h : Moves σ s0 s) (c : Nat) (cls : Nat) (m : Option Moving) (hs : Scope.within ⟨false, [.out, .msix, .xlat, .recorder, .chans], [.hmmu, .ctx, .rpl, .grm, .cmmu, .wst, .tnd, .cvu, .hbmc, .ring, .eng, .door]⟩ σ) :
    MovesOptSnd σ s0 (State.takeLanding s c cls m) := by
  unfold State.takeLanding
  repeat' first
    | with_reducible assumption
    | intro _
    | with_reducible apply Moves.ite
    | with_reducible apply State.modChan_moves
    | with_reducible apply Reading.block_moves
    | with_reducible apply State.withheldSince_moves
    | exact StoresMove.of_eq rfl rfl rfl
    | with_reducible apply MovesOptSnd.none
    | with_reducible apply MovesOptSnd.some
    | with_reducible apply MovesOptSnd.ite
    | with_reducible apply MovesOptSnd.mapSnd
    | with_reducible apply MovesOptSnd.map
    | dsimp only
    | split
    | with_reducible apply Moves.record
    | with_reducible rfl
    | exact hs.2.2 _ (by simp)
    | exact hs.2.1 _ (by decide +kernel)
    | exact Scope.within.trans (by decide +kernel) hs

theorem State.dropLanding_moves {s0 : State} {s : State} (h : Moves σ s0 s) (c : Nat) (i : Nat) (hs : Scope.within ⟨false, [.chans], []⟩ σ) :
    Moves σ s0 (State.dropLanding s c i) := by
  unfold State.dropLanding
  repeat' first
    | with_reducible assumption
    | intro _
    | with_reducible apply Moves.ite
    | with_reducible apply State.modChan_moves
    | exact StoresMove.of_eq rfl rfl rfl
    | dsimp only
    | split
    | with_reducible apply Moves.record
    | with_reducible rfl
    | exact hs.2.2 _ (by simp)
    | exact hs.2.1 _ (by decide +kernel)

theorem State.loseLanded_moves {s0 : State} {s : State} (h : Moves σ s0 s) (c : Nat) (ctx : Nat) (tag : Nat) (hs : Scope.within ⟨false, [.out, .msix, .xlat, .recorder, .chans], [.hmmu, .ctx, .rpl, .grm, .cmmu, .wst, .tnd, .cvu, .hbmc, .ring, .eng, .door]⟩ σ) :
    Moves σ s0 (State.loseLanded s c ctx tag) := by
  unfold State.loseLanded
  repeat' first
    | with_reducible assumption
    | intro _
    | with_reducible apply Moves.ite
    | with_reducible apply State.bump_moves
    | with_reducible apply State.raise_moves
    | with_reducible apply State.modChan_moves
    | with_reducible apply Reading.block_moves
    | with_reducible apply State.dropLanding_moves
    | exact StoresMove.of_eq rfl rfl rfl
    | with_reducible apply Moves.fold
    | with_reducible apply Moves.foldPair
    | with_reducible exact Memory.lose_wf _ _ (by assumption)
    | dsimp only
    | split
    | with_reducible apply Moves.record
    | with_reducible rfl
    | exact hs.2.2 _ (by simp)
    | exact hs.2.1 _ (by decide +kernel)
    | exact Scope.within.trans (by decide +kernel) hs

theorem State.tilePathLost_moves {s0 : State} {s : State} (h : Moves σ s0 s) (c : Nat) (e : Nat) (t : Nat) (path : Nat) (sends : EngCmd → Bool) (hs : Scope.within ⟨false, [.out, .msix, .xlat, .recorder, .chans], [.hmmu, .ctx, .rpl, .grm, .cmmu, .wst, .tnd, .cvu, .hbmc, .ring, .eng, .door]⟩ σ) :
    Moves σ s0 (State.tilePathLost s c e t path sends) := by
  unfold State.tilePathLost
  repeat' first
    | with_reducible assumption
    | with_reducible apply Moves.ite
    | with_reducible apply State.logOut_moves
    | with_reducible apply State.loseLanded_moves
    | with_reducible apply State.loseTile_moves
    | with_reducible exact Memory.lose_wf _ _ (by assumption)
    | with_reducible refine Moves.fstOf (by with_reducible assumption) ?_
    | dsimp only
    | split
    | with_reducible apply Moves.record
    | with_reducible rfl
    | exact hs.2.2 _ (by simp)
    | exact hs.2.1 _ (by decide +kernel)
    | exact Scope.within.trans (by decide +kernel) hs

theorem State.modShare_moves {s0 : State} {s : State} (h : Moves σ s0 s) (c : Nat) (ctx : Nat) (f : EngShare → EngShare) (hs : Scope.within ⟨false, [.shares], []⟩ σ) :
    Moves σ s0 (State.modShare s c ctx f) := by
  unfold State.modShare
  repeat' first
    | with_reducible assumption
    | intro _
    | with_reducible apply Moves.ite
    | dsimp only
    | split
    | with_reducible apply Moves.record
    | with_reducible rfl
    | exact hs.2.2 _ (by simp)
    | exact hs.2.1 _ (by decide +kernel)
    | exact Scope.within.trans (by decide +kernel) hs
    | exact .inr (hs.2.1 _ (by decide +kernel))
    | with_reducible exact .inl rfl

theorem State.savedPathLost_moves {s0 : State} {s : State} (h : Moves σ s0 s) (c : Nat) (e : Nat) (t : Nat) (x : TileSlot) (path : Nat) (sends : EngCmd → Bool) (hs : Scope.within ⟨false, [.out, .msix, .xlat, .shares, .recorder, .chans], [.hmmu, .ctx, .rpl, .grm, .cmmu, .wst, .tnd, .cvu, .hbmc, .ring, .eng, .door]⟩ σ) :
    Moves σ s0 (State.savedPathLost s c e t x path sends) := by
  unfold State.savedPathLost
  repeat' first
    | with_reducible assumption
    | intro _
    | with_reducible apply Moves.ite
    | with_reducible apply State.ecsDone_moves
    | with_reducible apply State.logOut_moves
    | with_reducible apply State.loseLanded_moves
    | with_reducible apply State.modShare_moves
    | with_reducible apply State.sendBreak_moves
    | with_reducible exact Memory.lose_wf _ _ (by assumption)
    | with_reducible refine Moves.fstOf (by with_reducible assumption) ?_
    | dsimp only
    | split
    | with_reducible apply Moves.record
    | with_reducible rfl
    | exact hs.2.2 _ (by simp)
    | exact hs.2.1 _ (by decide +kernel)
    | exact Scope.within.trans (by decide +kernel) hs

theorem State.pathLost_moves {s0 : State} {s : State} (h : Moves σ s0 s) (path : Nat) (sends : Nat → EngCmd → Bool) (hs : Scope.within ⟨false, [.out, .msix, .xlat, .shares, .recorder, .chans], [.hmmu, .ctx, .rpl, .grm, .cmmu, .wst, .tnd, .cvu, .hbmc, .ring, .eng, .door]⟩ σ) :
    Moves σ s0 (State.pathLost s path sends) := by
  unfold State.pathLost
  repeat' first
    | with_reducible assumption
    | intro _
    | with_reducible apply Moves.ite
    | with_reducible apply State.savedPathLost_moves
    | with_reducible apply State.tilePathLost_moves
    | with_reducible apply Moves.fold
    | with_reducible apply Moves.foldPair
    | dsimp only
    | split
    | with_reducible apply Moves.record
    | with_reducible rfl
    | exact hs.2.2 _ (by simp)
    | exact hs.2.1 _ (by decide +kernel)
    | exact Scope.within.trans (by decide +kernel) hs

theorem State.oweUp_moves {s0 : State} {s : State} (h : Moves σ s0 s) (c : Nat) (cls : Nat) (hs : Scope.within ⟨false, [.chans], []⟩ σ) :
    Moves σ s0 (State.oweUp s c cls) := by
  unfold State.oweUp
  repeat' first
    | with_reducible assumption
    | intro _
    | with_reducible apply Moves.ite
    | with_reducible apply State.modChan_moves
    | exact StoresMove.of_eq rfl rfl rfl
    | dsimp only
    | split
    | with_reducible apply Moves.record
    | with_reducible rfl
    | exact hs.2.2 _ (by simp)
    | exact hs.2.1 _ (by decide +kernel)

theorem State.dropSwitch_moves {s0 : State} {s : State} (h : Moves σ s0 s) (gone : Moving → Bool) (hs : Scope.within ⟨false, [.out, .msix, .xlat, .recorder, .chans], [.hmmu, .ctx, .rpl, .grm, .cmmu, .wst, .cvu, .hbmc, .ring, .eng, .door]⟩ σ) :
    Moves σ s0 (State.dropSwitch s gone) := by
  unfold State.dropSwitch
  repeat' first
    | with_reducible assumption
    | intro _
    | with_reducible apply Moves.ite
    | with_reducible apply State.modChan_moves
    | with_reducible apply Reading.block_moves
    | with_reducible apply State.oweUp_moves
    | exact StoresMove.of_eq rfl rfl rfl
    | with_reducible apply Moves.fold
    | with_reducible apply Moves.foldPair
    | dsimp only
    | split
    | with_reducible apply Moves.record
    | with_reducible rfl
    | exact hs.2.2 _ (by simp)
    | exact hs.2.1 _ (by decide +kernel)
    | exact Scope.within.trans (by decide +kernel) hs

theorem State.portPathsLost_moves {s0 : State} {s : State} (h : Moves σ s0 s) (p : PortId) (hs : Scope.within ⟨false, [.out, .msix, .xlat, .shares, .recorder, .chans], [.hmmu, .ctx, .rpl, .grm, .cmmu, .wst, .tnd, .cvu, .hbmc, .ring, .eng, .door]⟩ σ) :
    Moves σ s0 (State.portPathsLost s p) := by
  unfold State.portPathsLost
  repeat' first
    | with_reducible assumption
    | intro _
    | with_reducible apply Moves.ite
    | with_reducible apply State.dropSwitch_moves
    | with_reducible apply State.pathLost_moves
    | dsimp only
    | split
    | with_reducible apply Moves.record
    | with_reducible rfl
    | exact hs.2.2 _ (by simp)
    | exact hs.2.1 _ (by decide +kernel)
    | exact Scope.within.trans (by decide +kernel) hs

theorem State.channelPathsLost_moves {s0 : State} {s : State} (h : Moves σ s0 s) (c : Nat) (hs : Scope.within ⟨false, [.out, .msix, .xlat, .shares, .recorder, .chans], [.hmmu, .ctx, .rpl, .grm, .cmmu, .wst, .tnd, .cvu, .hbmc, .ring, .eng, .door]⟩ σ) :
    Moves σ s0 (State.channelPathsLost s c) := by
  unfold State.channelPathsLost
  repeat' first
    | with_reducible assumption
    | intro _
    | with_reducible apply Moves.ite
    | with_reducible apply Reading.block_moves
    | with_reducible apply State.dropSwitch_moves
    | with_reducible apply State.pathLost_moves
    | dsimp only
    | split
    | with_reducible apply Moves.record
    | with_reducible rfl
    | exact hs.2.2 _ (by simp)
    | exact hs.2.1 _ (by decide +kernel)
    | exact Scope.within.trans (by decide +kernel) hs

end Sys2Proof.Machine
end

