-- ==== Sys2Proof/Laws/MovesLinks.lean ====
section
/-! SUPPORT. What the functions of Machine/Links.lean can do to a state: each keeps the queue and the
canonical form of the stores, only adds to the output and keeps the registers 32 bits wide (`Moves`). -/

set_option Elab.async false

namespace Sys2Proof.Machine
variable {σ : Scope}

theorem State.setLink_moves {s0 : State} {s : State} (h : Moves σ s0 s) (p : PortId) (v : Nat) (hs : Scope.within ⟨false, [], [.hlk]⟩ σ) :
    Moves σ s0 (State.setLink s p v) := by
  unfold State.setLink
  repeat' first
    | with_reducible assumption
    | with_reducible apply Moves.ite
    | with_reducible apply State.wr_moves
    | dsimp only
    | split
    | with_reducible apply Moves.record
    | with_reducible rfl
    | exact hs.2.2 _ (by simp)

theorem execLinkTrain_moves {s0 : State} {s : State} (h : Moves σ s0 s) (p : PortId) (lanes : BitVec 4) (hs : Scope.within ⟨false, [.out], [.hlk]⟩ σ) :
    MovesResult σ s0 (execLinkTrain p lanes s) := by
  unfold execLinkTrain
  repeat' first
    | with_reducible assumption
    | intro _
    | with_reducible apply Moves.ite
    | with_reducible apply State.emit_moves
    | with_reducible apply State.setLink_moves
    | with_reducible apply MovesResult.live
    | with_reducible apply MovesResult.next
    | dsimp only
    | split
    | with_reducible apply Moves.record
    | with_reducible rfl
    | exact hs.2.2 _ (by simp)
    | exact hs.2.1 _ (by decide +kernel)
    | exact Scope.within.trans (by decide +kernel) hs

theorem State.recordPeer_moves {s0 : State} {s : State} (h : Moves σ s0 s) (p : PortId) (h : Hello) (hs : Scope.within ⟨false, [], [.hlk]⟩ σ) :
    Moves σ s0 (State.recordPeer s p h) := by
  unfold State.recordPeer
  repeat' first
    | with_reducible assumption
    | with_reducible apply Moves.ite
    | with_reducible apply State.wr_moves
    | assumption
    | dsimp only
    | split
    | with_reducible apply Moves.record
    | with_reducible rfl
    | exact hs.2.2 _ (by simp)

theorem execHelloReceive_moves {s0 : State} {s : State} (h : Moves σ s0 s) (p : PortId) (h : Hello) (hs : Scope.within ⟨false, [.out, .msix, .ports], [.hlk]⟩ σ) :
    MovesResult σ s0 (execHelloReceive p h s) := by
  unfold execHelloReceive
  repeat' first
    | with_reducible assumption
    | intro _
    | with_reducible apply Moves.ite
    | with_reducible apply State.wr_moves
    | with_reducible apply State.modPort_moves
    | with_reducible apply State.raiseBits_moves
    | with_reducible apply State.recordPeer_moves
    | with_reducible apply State.setLink_moves
    | with_reducible apply MovesResult.live
    | with_reducible apply MovesResult.next
    | with_reducible refine Moves.fstOf (by with_reducible assumption) ?_
    | assumption
    | dsimp only
    | split
    | with_reducible apply Moves.record
    | with_reducible rfl
    | exact hs.2.2 _ (by simp)
    | exact hs.2.1 _ (by decide +kernel)
    | exact Scope.within.trans (by decide +kernel) hs

theorem State.dropStaleEgress_moves {s0 : State} {s : State} (h : Moves σ s0 s) (p : PortId) (vc : Nat) (hs : Scope.within ⟨false, [.out, .msix, .ports], [.ras, .eng]⟩ σ) :
    Moves σ s0 (State.dropStaleEgress s p vc) := by
  unfold State.dropStaleEgress
  repeat' first
    | with_reducible assumption
    | intro _
    | with_reducible apply Moves.ite
    | with_reducible apply State.ghostDrop_moves
    | with_reducible apply State.modPort_moves
    | with_reducible refine Moves.fstOf (by with_reducible assumption) ?_
    | dsimp only
    | split
    | with_reducible apply Moves.record
    | with_reducible rfl
    | exact hs.2.2 _ (by simp)
    | exact hs.2.1 _ (by decide +kernel)
    | exact Scope.within.trans (by decide +kernel) hs

theorem execFlitTransmit_moves {s0 : State} {s : State} (h : Moves σ s0 s) (p : PortId) (hs : Scope.within ⟨false, [.out, .msix, .ports], [.ras, .eng]⟩ σ) :
    MovesResult σ s0 (execFlitTransmit p s) := by
  unfold execFlitTransmit
  repeat' first
    | with_reducible assumption
    | intro _
    | with_reducible apply Moves.ite
    | with_reducible apply State.emit_moves
    | with_reducible apply State.dropStaleEgress_moves
    | with_reducible apply State.modPort_moves
    | with_reducible apply Moves.fold
    | with_reducible apply Moves.foldPair
    | with_reducible apply MovesResult.live
    | with_reducible apply MovesResult.next
    | with_reducible refine Moves.fstOf (by with_reducible assumption) ?_
    | dsimp only
    | split
    | with_reducible apply Moves.record
    | with_reducible rfl
    | exact hs.2.2 _ (by simp)
    | exact hs.2.1 _ (by decide +kernel)
    | exact Scope.within.trans (by decide +kernel) hs

theorem State.portLost_moves {s0 : State} {s : State} (h : Moves σ s0 s) (p : PortId) (cause : LossCause) (hs : Scope.within ⟨false, [.out, .msix, .ports, .xlat, .shares, .recorder, .chans], [.hif, .far, .hmmu, .strm, .dlm, .ctx, .rpl, .pwr, .clk, .ras, .hlk, .mbx, .grm, .cmmu, .wst, .ast, .tnd, .cvu, .hbmc, .ring, .eng, .door]⟩ σ) :
    Moves σ s0 (State.portLost s p cause) := by
  unfold State.portLost
  repeat' first
    | with_reducible assumption
    | intro _
    | with_reducible apply Moves.ite
    | with_reducible apply State.wr_moves
    | with_reducible apply State.bump_moves
    | with_reducible apply State.raise_moves
    | with_reducible apply State.mailTimeout_moves
    | with_reducible apply State.modPort_moves
    | with_reducible apply State.portPathsLost_moves
    | with_reducible apply State.releaseAll_moves
    | with_reducible apply State.setLink_moves
    | dsimp only
    | split
    | with_reducible apply Moves.record
    | with_reducible rfl
    | exact hs.2.2 _ (pageKind_mem _)
    | exact hs.2.1 _ (by decide +kernel)
    | exact Scope.within.trans (by decide +kernel) hs

theorem execPortLoss_moves {s0 : State} {s : State} (h : Moves σ s0 s) (p : PortId) (cause : LossCause) (hs : Scope.within ⟨false, [.out, .msix, .ports, .xlat, .shares, .recorder, .chans], [.hif, .far, .hmmu, .strm, .dlm, .ctx, .rpl, .pwr, .clk, .ras, .hlk, .mbx, .grm, .cmmu, .wst, .ast, .tnd, .cvu, .hbmc, .ring, .eng, .door]⟩ σ) :
    MovesResult σ s0 (execPortLoss p cause s) := by
  unfold execPortLoss
  repeat' first
    | with_reducible assumption
    | intro _
    | with_reducible apply Moves.ite
    | with_reducible apply State.portLost_moves
    | with_reducible apply MovesResult.live

theorem execGoodbyeReceive_moves {s0 : State} {s : State} (h : Moves σ s0 s) (p : PortId) (hs : Scope.within ⟨false, [.out, .msix, .ports, .xlat, .shares, .recorder, .chans], [.hif, .far, .hmmu, .strm, .dlm, .ctx, .rpl, .pwr, .clk, .ras, .hlk, .mbx, .grm, .cmmu, .wst, .ast, .tnd, .cvu, .hbmc, .ring, .eng, .door]⟩ σ) :
    MovesResult σ s0 (execGoodbyeReceive p s) := by
  unfold execGoodbyeReceive
  repeat' first
    | with_reducible assumption
    | intro _
    | with_reducible apply Moves.ite
    | with_reducible apply State.portLost_moves
    | with_reducible apply MovesResult.live

theorem execGoodbyeDrainDone_moves {s0 : State} {s : State} (h : Moves σ s0 s) (p : PortId) (hs : Scope.within ⟨false, [.out, .msix, .ports, .xlat, .shares, .recorder, .chans], [.hif, .far, .hmmu, .strm, .dlm, .ctx, .rpl, .pwr, .clk, .ras, .hlk, .mbx, .grm, .cmmu, .wst, .ast, .tnd, .cvu, .hbmc, .ring, .eng, .door]⟩ σ) :
    MovesResult σ s0 (execGoodbyeDrainDone p s) := by
  unfold execGoodbyeDrainDone
  repeat' first
    | with_reducible assumption
    | intro _
    | with_reducible apply Moves.ite
    | with_reducible apply State.portLost_moves
    | with_reducible apply MovesResult.live

theorem State.startRetrain_moves {s0 : State} {s : State} (h : Moves σ s0 s) (p : PortId) (hs : Scope.within ⟨false, [], [.hlk]⟩ σ) :
    Moves σ s0 (State.startRetrain s p) := by
  unfold State.startRetrain
  repeat' first
    | with_reducible assumption
    | with_reducible apply Moves.ite
    | with_reducible apply State.bump_moves
    | with_reducible apply State.setLink_moves
    | dsimp only
    | split
    | with_reducible apply Moves.record
    | with_reducible rfl
    | exact hs.2.2 _ (by simp)

theorem execLaneFailure_moves {s0 : State} {s : State} (h : Moves σ s0 s) (p : PortId) (lane : Fin 4) (hs : Scope.within ⟨false, [.out, .msix, .ports, .xlat, .shares, .recorder, .chans], [.hif, .far, .hmmu, .strm, .dlm, .ctx, .rpl, .pwr, .clk, .ras, .hlk, .mbx, .grm, .cmmu, .wst, .ast, .tnd, .cvu, .hbmc, .ring, .eng, .door]⟩ σ) :
    MovesResult σ s0 (execLaneFailure p lane s) := by
  unfold execLaneFailure
  repeat' first
    | with_reducible assumption
    | intro _
    | with_reducible apply Moves.ite
    | with_reducible apply State.wr_moves
    | with_reducible apply State.portLost_moves
    | with_reducible apply State.startRetrain_moves
    | with_reducible apply MovesResult.live
    | with_reducible apply MovesResult.next
    | dsimp only
    | split
    | with_reducible apply Moves.record
    | with_reducible rfl
    | exact hs.2.2 _ (pageKind_mem _)
    | exact hs.2.1 _ (by decide +kernel)
    | exact Scope.within.trans (by decide +kernel) hs

theorem execMaxwWrite_moves {s0 : State} {s : State} (h : Moves σ s0 s) (m : Master) (p : PortId) (maxw : BitVec 2) (hs : Scope.within ⟨false, [], [.hlk]⟩ σ) :
    MovesResult σ s0 (execMaxwWrite m p maxw s) := by
  unfold execMaxwWrite
  repeat' first
    | with_reducible assumption
    | intro _
    | with_reducible apply Moves.ite
    | with_reducible apply State.wr_moves
    | with_reducible apply State.startRetrain_moves
    | with_reducible apply MovesResult.live
    | with_reducible apply MovesResult.next
    | dsimp only
    | split
    | with_reducible apply Moves.record
    | with_reducible rfl
    | exact hs.2.2 _ (by simp)

theorem State.startReplay_moves {s0 : State} {s : State} (h : Moves σ s0 s) (p : PortId) (hs : Scope.within ⟨false, [.ports], [.hlk]⟩ σ) :
    Moves σ s0 (State.startReplay s p) := by
  unfold State.startReplay
  repeat' first
    | with_reducible assumption
    | intro _
    | with_reducible apply Moves.ite
    | with_reducible apply State.bump_moves
    | with_reducible apply State.modPort_moves
    | with_reducible apply State.startRetrain_moves
    | with_reducible refine Moves.fstOf (by with_reducible assumption) ?_
    | dsimp only
    | split
    | with_reducible apply Moves.record
    | with_reducible rfl
    | exact hs.2.2 _ (by simp)
    | exact hs.2.1 _ (by decide +kernel)
    | exact Scope.within.trans (by decide +kernel) hs

theorem State.nak_moves {s0 : State} {s : State} (h : Moves σ s0 s) (p : PortId) (ack : Nat) (hs : Scope.within ⟨false, [.ports], [.hlk]⟩ σ) :
    Moves σ s0 (State.nak s p ack) := by
  unfold State.nak
  repeat' first
    | with_reducible assumption
    | intro _
    | with_reducible apply Moves.ite
    | with_reducible apply State.modPort_moves
    | with_reducible apply State.startReplay_moves
    | dsimp only
    | split
    | with_reducible apply Moves.record
    | with_reducible rfl
    | exact hs.2.2 _ (by simp)
    | exact hs.2.1 _ (by decide +kernel)
    | exact Scope.within.trans (by decide +kernel) hs

theorem execNakReceive_moves {s0 : State} {s : State} (h : Moves σ s0 s) (p : PortId) (ack : BitVec 12) (hs : Scope.within ⟨false, [.ports], [.hlk]⟩ σ) :
    MovesResult σ s0 (execNakReceive p ack s) := by
  unfold execNakReceive
  repeat' first
    | with_reducible assumption
    | intro _
    | with_reducible apply Moves.ite
    | with_reducible apply State.nak_moves
    | with_reducible apply MovesResult.live

theorem execReplayTimeout_moves {s0 : State} {s : State} (h : Moves σ s0 s) (p : PortId) (hs : Scope.within ⟨false, [.ports], [.hlk]⟩ σ) :
    MovesResult σ s0 (execReplayTimeout p s) := by
  unfold execReplayTimeout
  repeat' first
    | with_reducible assumption
    | intro _
    | with_reducible apply Moves.ite
    | with_reducible apply State.startReplay_moves
    | with_reducible apply MovesResult.live

theorem State.refuseFlit_moves {s0 : State} {s : State} (h : Moves σ s0 s) (p : PortId) (hs : Scope.within ⟨false, [.ports], []⟩ σ) :
    Moves σ s0 (State.refuseFlit s p) := by
  unfold State.refuseFlit
  repeat' first
    | with_reducible assumption
    | intro _
    | with_reducible apply Moves.ite
    | with_reducible apply State.modPort_moves

theorem State.peerCancel_moves {s0 : State} {s : State} (h : Moves σ s0 s) (p : PortId) (hs : Scope.within ⟨false, [.out, .dev, .msix, .mbx, .ports, .recorder], [.rpl, .mbx]⟩ σ) :
    Moves σ s0 (State.peerCancel s p) := by
  unfold State.peerCancel
  repeat' first
    | with_reducible assumption
    | with_reducible apply Moves.ite
    | with_reducible apply State.clearSlot_moves

theorem execFlitReceive_moves {s0 : State} {s : State} (h : Moves σ s0 s) (p : PortId) (f : Flit) (q : FlitQuality) (corrected : Nat) (hs : Scope.within ⟨false, [.out, .dev, .msix, .mbx, .ports, .recorder], [.rpl, .hlk, .mbx]⟩ σ) :
    MovesResult σ s0 (execFlitReceive p f q corrected s) := by
  unfold execFlitReceive
  repeat' first
    | with_reducible assumption
    | intro _
    | with_reducible apply Moves.ite
    | with_reducible apply State.wrap_moves
    | with_reducible apply State.corrected_moves
    | with_reducible apply State.modPort_moves
    | with_reducible apply State.nak_moves
    | with_reducible apply State.peerCancel_moves
    | with_reducible apply State.refuseFlit_moves
    | with_reducible apply State.takeCtrl_moves
    | with_reducible apply MovesResult.live
    | with_reducible apply MovesResult.next
    | dsimp only
    | split
    | with_reducible apply Moves.record
    | with_reducible rfl
    | exact hs.2.2 _ (by simp)
    | exact hs.2.1 _ (by decide +kernel)
    | exact Scope.within.trans (by decide +kernel) hs

theorem execRetrainDone_moves {s0 : State} {s : State} (h : Moves σ s0 s) (p : PortId) (h : Hello) (hs : Scope.within ⟨false, [.out, .msix, .ports, .xlat, .shares, .recorder, .chans], [.hif, .far, .hmmu, .strm, .dlm, .ctx, .rpl, .pwr, .clk, .ras, .hlk, .mbx, .grm, .cmmu, .wst, .ast, .tnd, .cvu, .hbmc, .ring, .eng, .door]⟩ σ) :
    MovesResult σ s0 (execRetrainDone p h s) := by
  unfold execRetrainDone
  repeat' first
    | with_reducible assumption
    | intro _
    | with_reducible apply Moves.ite
    | with_reducible apply State.wr_moves
    | with_reducible apply State.bump_moves
    | with_reducible apply State.raise_moves
    | with_reducible apply State.modPort_moves
    | with_reducible apply State.portLost_moves
    | with_reducible apply State.recordPeer_moves
    | with_reducible apply State.setLink_moves
    | with_reducible apply MovesResult.live
    | with_reducible apply MovesResult.next
    | with_reducible refine Moves.fstOf (by with_reducible assumption) ?_
    | dsimp only
    | split
    | with_reducible apply Moves.record
    | with_reducible rfl
    | exact hs.2.2 _ (pageKind_mem _)
    | exact hs.2.1 _ (by decide +kernel)
    | exact Scope.within.trans (by decide +kernel) hs

theorem execRetrainTimeout_moves {s0 : State} {s : State} (h : Moves σ s0 s) (p : PortId) (hs : Scope.within ⟨false, [.out, .msix, .ports, .xlat, .shares, .recorder, .chans], [.hif, .far, .hmmu, .strm, .dlm, .ctx, .rpl, .pwr, .clk, .ras, .hlk, .mbx, .grm, .cmmu, .wst, .ast, .tnd, .cvu, .hbmc, .ring, .eng, .door]⟩ σ) :
    MovesResult σ s0 (execRetrainTimeout p s) := by
  unfold execRetrainTimeout
  repeat' first
    | with_reducible assumption
    | intro _
    | with_reducible apply Moves.ite
    | with_reducible apply State.logTo_moves
    | with_reducible apply State.portLost_moves
    | with_reducible apply MovesResult.live
    | with_reducible apply MovesResult.next
    | dsimp only
    | split
    | with_reducible apply Moves.record
    | with_reducible rfl
    | exact hs.2.2 _ (pageKind_mem _)
    | exact hs.2.1 _ (by decide +kernel)
    | exact Scope.within.trans (by decide +kernel) hs

end Sys2Proof.Machine
end

