-- ==== Sys2Proof/Laws/MovesSites.lean ====
section
/-! SUPPORT. What the functions of Machine/Sites.lean can do to a state: each keeps the queue and the
canonical form of the stores, only adds to the output and keeps the registers 32 bits wide (`Moves`). -/

set_option Elab.async false

namespace Sys2Proof.Machine
variable {σ : Scope}

theorem State.resetPage_moves {s0 s : State} (h : Moves σ s0 s) (p : Page) (cls : Nat) (hs : Scope.within ⟨false, [.cycBase, .blocks], []⟩ σ) (hp1 : pageKind p ∈ σ.kinds) :
    Moves σ s0 (State.resetPage s p cls) := by
  unfold State.resetPage
  refine State.zeroCyc_moves (State.setBlockRun_moves ?_ _ _ (.trans (by decide +kernel) hs)) _ (.trans (by decide +kernel) hs)
  refine h.regsMap _ (fun r => ?_) (fun r hr => ?_) fun q hq r hr => ?_
  · split <;> rfl
  · split
    · exact resetKeeps_lt _ _ _ _
    · exact hr
  · rw [hr, if_neg fun e => hq (by rw [pageIndex_inj e]; exact hp1)]

theorem State.queueRepeats_moves {s0 : State} {s : State} (h : Moves σ s0 s) (c : Nat) (e : Nat) (ks : List EngCmd) (front : Bool) (hs : Scope.within ⟨false, [.chans], [.eng]⟩ σ) :
    Moves σ s0 (State.queueRepeats s c e ks front) := by
  unfold State.queueRepeats
  repeat' first
    | with_reducible assumption
    | intro _
    | with_reducible apply Moves.ite
    | with_reducible apply State.modChan_moves
    | with_reducible apply State.modEngine_moves
    | with_reducible apply State.sweep_moves
    | exact StoresMove.of_eq rfl rfl rfl
    | dsimp only
    | split
    | with_reducible apply Moves.record
    | with_reducible rfl
    | exact hs.2.2 _ (by simp)
    | exact hs.2.1 _ (by decide +kernel)
    | exact Scope.within.trans (by decide +kernel) hs

theorem State.dropRepeats_moves {s0 : State} {s : State} (h : Moves σ s0 s) (c : Nat) (e : Nat) (x : TileSlot) (hs : Scope.within ⟨false, [.chans], []⟩ σ) :
    Moves σ s0 (State.dropRepeats s c e x) := by
  unfold State.dropRepeats
  repeat' first
    | with_reducible assumption
    | intro _
    | with_reducible apply Moves.ite
    | with_reducible apply State.modEngine_moves

theorem State.rerunHere_moves {s0 : State} {s : State} (h : Moves σ s0 s) (c : Nat) (e : Nat) (t : Nat) (hs : Scope.within ⟨false, [.out, .msix, .xlat, .recorder, .chans], [.hmmu, .ctx, .rpl, .grm, .cmmu, .wst, .cvu, .hbmc, .ring, .eng, .door]⟩ σ) :
    Moves σ s0 (State.rerunHere s c e t) := by
  unfold State.rerunHere
  repeat' first
    | with_reducible assumption
    | intro _
    | with_reducible apply Moves.ite
    | with_reducible apply State.dropRepeats_moves
    | with_reducible apply State.dropRuns_moves
    | with_reducible apply State.loseTile_moves
    | with_reducible apply State.modTile_moves
    | with_reducible apply State.queueRepeats_moves
    | with_reducible exact Memory.lose_wf _ _ (by assumption)
    | dsimp only
    | split
    | with_reducible apply Moves.record
    | with_reducible rfl
    | exact hs.2.2 _ (by simp)
    | exact hs.2.1 _ (by decide +kernel)
    | exact Scope.within.trans (by decide +kernel) hs

theorem State.moveGuest_moves {s0 : State} {s : State} (h : Moves σ s0 s) (c : Nat) (e : Nat) (t : Nat) (k : Nat) (hs : Scope.within ⟨false, [.out, .msix, .recorder, .chans], [.rpl, .eng]⟩ σ) :
    Moves σ s0 (State.moveGuest s c e t k) := by
  unfold State.moveGuest
  repeat' first
    | with_reducible assumption
    | intro _
    | with_reducible apply Moves.ite
    | with_reducible apply State.dropRepeats_moves
    | with_reducible apply State.dropRuns_moves
    | with_reducible apply State.logDec_moves
    | with_reducible apply State.modEngine_moves
    | with_reducible apply State.queueRepeats_moves
    | with_reducible apply State.sweep_moves
    | with_reducible apply Moves.fold
    | with_reducible apply Moves.foldPair
    | dsimp only
    | split
    | with_reducible apply Moves.record
    | with_reducible rfl
    | exact hs.2.2 _ (by simp)
    | exact hs.2.1 _ (by decide +kernel)
    | exact Scope.within.trans (by decide +kernel) hs

theorem State.rerunAsGuest_moves {s0 : State} {s : State} (h : Moves σ s0 s) (c : Nat) (e : Nat) (t : Nat) (hs : Scope.within ⟨false, [.out, .msix, .xlat, .recorder, .chans], [.hmmu, .ctx, .rpl, .grm, .cmmu, .wst, .cvu, .hbmc, .ring, .eng, .door]⟩ σ) :
    Moves σ s0 (State.rerunAsGuest s c e t) := by
  unfold State.rerunAsGuest
  repeat' first
    | with_reducible assumption
    | with_reducible apply Moves.ite
    | with_reducible apply State.loseTile_moves
    | with_reducible apply State.moveGuest_moves
    | with_reducible apply State.rerunHere_moves
    | with_reducible exact Memory.lose_wf _ _ (by assumption)
    | with_reducible refine Moves.fstOf (by with_reducible assumption) ?_
    | dsimp only
    | split
    | with_reducible apply Moves.record
    | with_reducible rfl
    | exact hs.2.2 _ (by simp)
    | exact hs.2.1 _ (by decide +kernel)
    | exact Scope.within.trans (by decide +kernel) hs

theorem State.rerunRecorded_moves {s0 : State} {s : State} (h : Moves σ s0 s) (c : Nat) (e : Nat) (t : Nat) (hs : Scope.within ⟨false, [.out, .msix, .xlat, .recorder, .chans], [.hmmu, .ctx, .rpl, .grm, .cmmu, .wst, .cvu, .hbmc, .ring, .eng, .door]⟩ σ) :
    Moves σ s0 (State.rerunRecorded s c e t) := by
  unfold State.rerunRecorded
  repeat' first
    | with_reducible assumption
    | with_reducible apply Moves.ite
    | with_reducible apply State.moveGuest_moves
    | with_reducible apply State.rerunHere_moves
    | with_reducible refine Moves.fstOf (by with_reducible assumption) ?_
    | dsimp only
    | split
    | with_reducible apply Moves.record
    | with_reducible rfl
    | exact hs.2.2 _ (by simp)
    | exact hs.2.1 _ (by decide +kernel)
    | exact Scope.within.trans (by decide +kernel) hs

theorem State.takeSlot_moves {s0 : State} {s : State} (h : Moves σ s0 s) (c : Nat) (e : Nat) (site : Nat) (hs : Scope.within ⟨false, [.chans], [.eng]⟩ σ) :
    Moves σ s0 (State.takeSlot s c e site) := by
  unfold State.takeSlot
  repeat' first
    | with_reducible assumption
    | intro _
    | with_reducible apply Moves.ite
    | with_reducible apply State.modChan_moves
    | with_reducible apply State.setWord_moves
    | exact StoresMove.of_eq rfl rfl rfl
    | with_reducible apply Moves.fold
    | with_reducible apply Moves.foldPair
    | dsimp only
    | split
    | with_reducible apply Moves.record
    | with_reducible rfl
    | exact hs.2.2 _ (by simp)
    | exact hs.2.1 _ (by decide +kernel)

theorem State.leaveSlot_moves {s0 : State} {s : State} (h : Moves σ s0 s) (c : Nat) (e : Nat) (hs : Scope.within ⟨false, [.chans], []⟩ σ) :
    Moves σ s0 (State.leaveSlot s c e) := by
  unfold State.leaveSlot
  repeat' first
    | with_reducible assumption
    | intro _
    | with_reducible apply Moves.ite
    | with_reducible apply State.modChan_moves
    | with_reducible apply State.modSite_moves
    | exact StoresMove.of_eq rfl rfl rfl
    | dsimp only
    | split
    | with_reducible apply Moves.record
    | with_reducible rfl
    | exact hs.2.2 _ (by simp)
    | exact hs.2.1 _ (by decide +kernel)

theorem State.substitute_moves {s0 : State} {s : State} (h : Moves σ s0 s) (c : Nat) (e : Nat) (k : Nat) (hs : Scope.within ⟨false, [.out, .cycBase, .blocks, .msix, .recorder, .chans], [.rpl, .ras, .eng]⟩ σ) :
    Moves σ s0 (State.substitute s c e k) := by
  unfold State.substitute
  repeat' first
    | with_reducible assumption
    | intro _
    | with_reducible apply Moves.ite
    | with_reducible apply State.wr_moves
    | with_reducible apply State.bump_moves
    | with_reducible apply State.raise_moves
    | with_reducible apply State.modChan_moves
    | with_reducible apply State.ecsDone_moves
    | with_reducible apply State.leaveSlot_moves
    | with_reducible apply State.logOut_moves
    | with_reducible apply State.modEngine_moves
    | with_reducible apply State.modSite_moves
    | with_reducible apply State.queueRepeats_moves
    | with_reducible apply State.resetPage_moves
    | with_reducible apply State.setBlk_moves
    | with_reducible apply State.takeSlot_moves
    | exact StoresMove.of_eq rfl rfl rfl
    | with_reducible apply Moves.fold
    | with_reducible apply Moves.foldPair
    | with_reducible refine Moves.fstOf (by with_reducible assumption) ?_
    | dsimp only
    | split
    | with_reducible apply Moves.record
    | with_reducible rfl
    | exact hs.2.2 _ (by simp)
    | exact hs.2.1 _ (by decide +kernel)
    | exact Scope.within.trans (by decide +kernel) hs

theorem State.declareFailed_moves {s0 : State} {s : State} (h : Moves σ s0 s) (c : Nat) (e : Nat) (hs : Scope.within ⟨false, [.out, .cycBase, .blocks, .msix, .recorder, .chans], [.rpl, .ras, .eng]⟩ σ) :
    Moves σ s0 (State.declareFailed s c e) := by
  unfold State.declareFailed
  repeat' first
    | with_reducible assumption
    | intro _
    | with_reducible apply Moves.ite
    | with_reducible apply State.bump_moves
    | with_reducible apply State.modChan_moves
    | with_reducible apply State.modEngine_moves
    | with_reducible apply State.modSite_moves
    | with_reducible apply State.setBlk_moves
    | with_reducible apply State.substitute_moves
    | exact StoresMove.of_eq rfl rfl rfl
    | with_reducible refine Moves.fstOf (by with_reducible assumption) ?_
    | dsimp only
    | split
    | with_reducible apply Moves.record
    | with_reducible rfl
    | exact hs.2.2 _ (by simp)
    | exact hs.2.1 _ (by decide +kernel)
    | exact Scope.within.trans (by decide +kernel) hs

theorem State.strike_moves {s0 : State} {s : State} (h : Moves σ s0 s) (c : Nat) (e : Nat) (hs : Scope.within ⟨false, [.out, .msix, .recorder, .chans], [.rpl, .ras]⟩ σ) :
    Moves σ s0 (State.strike s c e) := by
  unfold State.strike
  repeat' first
    | with_reducible assumption
    | intro _
    | with_reducible apply Moves.ite
    | with_reducible apply State.bump_moves
    | with_reducible apply State.raise_moves
    | with_reducible apply State.logOut_moves
    | with_reducible apply State.modSite_moves
    | dsimp only
    | split
    | with_reducible apply Moves.record
    | with_reducible rfl
    | exact hs.2.2 _ (by simp)
    | exact hs.2.1 _ (by decide +kernel)
    | exact Scope.within.trans (by decide +kernel) hs

theorem State.hold_moves {s0 : State} {s : State} (h : Moves σ s0 s) (c : Nat) (e : Nat) (t : Nat) (hs : Scope.within ⟨false, [.out, .cycBase, .blocks, .msix, .xlat, .recorder, .chans], [.hmmu, .ctx, .rpl, .ras, .grm, .cmmu, .wst, .cvu, .hbmc, .ring, .eng, .door]⟩ σ) :
    Moves σ s0 (State.hold s c e t) := by
  unfold State.hold
  repeat' first
    | with_reducible assumption
    | intro _
    | with_reducible apply Moves.ite
    | with_reducible apply State.declareFailed_moves
    | with_reducible apply State.loseTile_moves
    | with_reducible apply State.modRec_moves
    | with_reducible apply State.modTile_moves
    | with_reducible apply State.rerunAsGuest_moves
    | with_reducible apply State.rerunHere_moves
    | with_reducible apply State.rerunRecorded_moves
    | with_reducible apply State.strike_moves
    | with_reducible apply State.upset_moves
    | with_reducible exact Memory.lose_wf _ _ (by assumption)
    | with_reducible refine Moves.fstOf (by with_reducible assumption) ?_
    | dsimp only
    | split
    | with_reducible apply Moves.record
    | with_reducible rfl
    | exact hs.2.2 _ (by simp)
    | exact hs.2.1 _ (by decide +kernel)
    | exact Scope.within.trans (by decide +kernel) hs

theorem State.endAction_moves {s0 : State} {s : State} (h : Moves σ s0 s) (c : Nat) (e : Nat) (t : Nat) (hs : Scope.within ⟨false, [.chans], []⟩ σ) :
    Moves σ s0 (State.endAction s c e t) := by
  unfold State.endAction
  repeat' first
    | with_reducible assumption
    | intro _
    | with_reducible apply Moves.ite
    | with_reducible apply State.ecsDone_moves
    | with_reducible apply State.modEngine_moves
    | with_reducible apply State.modTile_moves
    | with_reducible refine Moves.fstOf (by with_reducible assumption) ?_
    | dsimp only
    | split

theorem State.stampTile_moves {s0 : State} {s : State} (h : Moves σ s0 s) (c : Nat) (e : Nat) (t : Nat) (hs : Scope.within ⟨false, [.chans], []⟩ σ) :
    Moves σ s0 (State.stampTile s c e t) := by
  unfold State.stampTile
  repeat' first
    | with_reducible assumption
    | intro _
    | with_reducible apply Moves.ite
    | with_reducible apply State.modEngine_moves

theorem State.tryAwait_moves {s0 : State} {s : State} (h : Moves σ s0 s) (c : Nat) (e : Nat) (t : Nat) (hs : Scope.within ⟨false, [.chans], []⟩ σ) :
    Moves σ s0 (State.tryAwait s c e t) := by
  unfold State.tryAwait
  repeat' first
    | with_reducible assumption
    | intro _
    | with_reducible apply Moves.ite
    | with_reducible apply State.modTile_moves
    | with_reducible refine Moves.fstOf (by with_reducible assumption) ?_
    | dsimp only
    | split

theorem State.endOrContinue_moves {s0 : State} {s : State} (h : Moves σ s0 s) (c : Nat) (e : Nat) (t : Nat) (hs : Scope.within ⟨false, [.chans], []⟩ σ) :
    Moves σ s0 (State.endOrContinue s c e t) := by
  unfold State.endOrContinue
  repeat' first
    | with_reducible assumption
    | with_reducible apply Moves.ite
    | with_reducible apply State.endAction_moves
    | with_reducible refine Moves.fstOf (by with_reducible assumption) ?_
    | dsimp only
    | split

theorem State.completeTile_moves {s0 : State} {s : State} (h : Moves σ s0 s) (c : Nat) (e : Nat) (t : Nat) (hs : Scope.within ⟨false, [.out, .cycBase, .blocks, .msix, .xlat, .recorder, .chans], [.hmmu, .ctx, .rpl, .ras, .grm, .cmmu, .wst, .cvu, .hbmc, .ring, .eng, .door]⟩ σ) :
    Moves σ s0 (State.completeTile s c e t) := by
  unfold State.completeTile
  repeat' first
    | with_reducible assumption
    | intro _
    | with_reducible apply Moves.ite
    | with_reducible apply State.endAction_moves
    | with_reducible apply State.endOrContinue_moves
    | with_reducible apply State.hold_moves
    | with_reducible apply State.modSite_moves
    | with_reducible apply State.stampTile_moves
    | with_reducible apply State.tryAwait_moves
    | with_reducible refine Moves.fstOf (by with_reducible assumption) ?_
    | dsimp only
    | split
    | with_reducible apply Moves.record
    | with_reducible rfl
    | exact hs.2.2 _ (by simp)
    | exact hs.2.1 _ (by decide +kernel)
    | exact Scope.within.trans (by decide +kernel) hs

theorem State.endRuns_moves {s0 : State} {s : State} (h : Moves σ s0 s) (c : Nat) (e : Nat) (hs : Scope.within ⟨false, [.out, .cycBase, .blocks, .msix, .xlat, .recorder, .chans], [.hmmu, .ctx, .rpl, .ras, .grm, .cmmu, .wst, .cvu, .hbmc, .ring, .eng, .door]⟩ σ) :
    Moves σ s0 (State.endRuns s c e) := by
  unfold State.endRuns
  repeat' first
    | with_reducible assumption
    | intro _
    | with_reducible apply Moves.ite
    | with_reducible apply State.completeTile_moves
    | with_reducible apply State.freeEntry_moves
    | with_reducible apply State.modEngine_moves
    | with_reducible apply State.sweep_moves
    | with_reducible apply State.unbind_moves
    | with_reducible refine Moves.fstOf (by with_reducible assumption) ?_
    | dsimp only
    | split
    | with_reducible apply Moves.record
    | with_reducible rfl
    | exact hs.2.2 _ (by simp)
    | exact hs.2.1 _ (by decide +kernel)
    | exact Scope.within.trans (by decide +kernel) hs

end Sys2Proof.Machine
end

