-- ==== Sys2Proof/Laws/MovesTiles.lean ====
section
/-! SUPPORT. What the functions of Machine/Tiles.lean can do to a state: each keeps the queue and the
canonical form of the stores, only adds to the output and keeps the registers 32 bits wide (`Moves`). -/

set_option Elab.async false

namespace Sys2Proof.Machine
variable {σ : Scope}

theorem State.modCtx_moves {s0 : State} {s : State} (h : Moves σ s0 s) (n : Nat) (f : CtxRec → CtxRec) (hs : Scope.within ⟨false, [.ctxs], []⟩ σ) :
    Moves σ s0 (State.modCtx s n f) := by
  unfold State.modCtx
  repeat' first
    | with_reducible assumption
    | with_reducible apply Moves.ite
    | dsimp only
    | split
    | with_reducible apply Moves.record
    | with_reducible rfl
    | exact hs.2.2 _ (by simp)
    | exact hs.2.1 _ (by decide +kernel)
    | exact Scope.within.trans (by decide +kernel) hs
    | exact .inr (hs.2.1 _ (by decide +kernel))
    | with_reducible exact .inl rfl

theorem State.active_moves {s0 : State} {s : State} (h : Moves σ s0 s) (ctx : Nat) (hs : Scope.within ⟨false, [], [.ctx]⟩ σ) :
    Moves σ s0 (State.active s ctx) := by
  unfold State.active
  repeat' first
    | with_reducible assumption
    | intro _
    | with_reducible apply Moves.ite
    | with_reducible apply State.wr_moves
    | with_reducible apply Moves.elimSnd
    | with_reducible apply Moves.elim
    | with_reducible apply Moves.elimSndFst
    | with_reducible apply Moves.elimFst
    | dsimp only
    | split
    | with_reducible apply Moves.record
    | with_reducible rfl
    | exact hs.2.2 _ (by simp)

theorem State.wake_moves {s0 : State} {s : State} (h : Moves σ s0 s) (ctx : Nat) (hs : Scope.within ⟨false, [.ctxs], []⟩ σ) :
    Moves σ s0 (State.wake s ctx) := by
  unfold State.wake
  repeat' first
    | with_reducible assumption
    | intro _
    | with_reducible apply Moves.ite
    | with_reducible apply State.modCtx_moves

theorem State.reachAll_moves {s0 : State} {s : State} (h : Moves σ s0 s) (a : MemAccess) (n : Nat) (hs : Scope.within ⟨false, [.out, .msix, .xlat, .recorder], [.hmmu, .ctx, .rpl, .grm, .cmmu, .wst, .cvu, .ring, .eng, .door]⟩ σ) :
    Moves σ s0 (State.reachAll s a n).1 := by
  unfold State.reachAll
  repeat' first
    | with_reducible assumption
    | intro _
    | with_reducible apply Moves.ite
    | with_reducible apply State.reach_moves
    | with_reducible apply Moves.fold
    | with_reducible apply Moves.foldPair
    | with_reducible apply Moves.iteFst
    | with_reducible refine Moves.fstOf (by with_reducible assumption) ?_
    | dsimp only
    | split

theorem State.sealVa_moves {s0 : State} {s : State} (h : Moves σ s0 s) (a : MemAccess) (n : Nat) (hs : Scope.within ⟨true, [.out, .drawn, .msix, .xlat, .recorder, .chans], [.hmmu, .ctx, .rpl, .grm, .cmmu, .wst, .cvu, .hbmc, .ring, .eng, .door]⟩ σ) :
    Moves σ s0 (State.sealVa s a n).1 := by
  unfold State.sealVa
  repeat' first
    | with_reducible assumption
    | intro _
    | with_reducible apply Moves.ite
    | with_reducible apply State.emit_moves
    | with_reducible apply State.draw_moves
    | with_reducible apply State.countHbm_moves
    | with_reducible apply State.modMem_moves
    | with_reducible apply State.reachAll_moves
    | with_reducible apply Moves.fold
    | with_reducible apply Moves.foldPair
    | with_reducible apply Moves.iteFst
    | with_reducible exact Memory.lose_wf _ _ (by assumption)
    | with_reducible refine Moves.fstOf (by with_reducible assumption) ?_
    | dsimp only
    | split
    | with_reducible apply Moves.record
    | with_reducible rfl
    | exact hs.2.2 _ (by simp)
    | exact hs.2.1 _ (by decide +kernel)
    | exact Scope.within.trans (by decide +kernel) hs

theorem State.openVa_moves {s0 : State} {s : State} (h : Moves σ s0 s) (a : MemAccess) (n : Nat) (hs : Scope.within ⟨false, [.out, .drawn, .msix, .xlat, .recorder], [.hmmu, .ctx, .rpl, .grm, .cmmu, .wst, .cvu, .hbmc, .ring, .eng, .door]⟩ σ) :
    Moves σ s0 (State.openVa s a n).1 := by
  unfold State.openVa
  repeat' first
    | with_reducible assumption
    | intro _
    | with_reducible apply Moves.ite
    | with_reducible apply State.draw_moves
    | with_reducible apply State.countHbm_moves
    | with_reducible apply State.logInput_moves
    | with_reducible apply State.reachAll_moves
    | with_reducible apply Moves.fold
    | with_reducible apply Moves.foldPair
    | with_reducible apply Moves.iteFst
    | with_reducible refine Moves.fstOf (by with_reducible assumption) ?_
    | dsimp only
    | split
    | with_reducible apply Moves.record
    | with_reducible rfl
    | exact hs.2.2 _ (by simp)
    | exact hs.2.1 _ (by decide +kernel)
    | exact Scope.within.trans (by decide +kernel) hs

theorem State.makeRoom_moves {s0 : State} {s : State} (h : Moves σ s0 s) (c : Nat) (e : Nat) (hs : Scope.within ⟨false, [.out, .msix, .recorder, .chans], [.rpl]⟩ σ) :
    Moves σ s0 (State.makeRoom s c e) := by
  unfold State.makeRoom
  repeat' first
    | with_reducible assumption
    | intro _
    | with_reducible apply Moves.ite
    | with_reducible apply State.logDec_moves
    | with_reducible apply State.modTile_moves
    | with_reducible refine Moves.fstOf (by with_reducible assumption) ?_
    | assumption
    | dsimp only
    | split
    | with_reducible apply Moves.record
    | with_reducible rfl
    | exact hs.2.2 _ (by simp)
    | exact hs.2.1 _ (by decide +kernel)
    | exact Scope.within.trans (by decide +kernel) hs

theorem State.popQueue_moves {s0 : State} {s : State} (h : Moves σ s0 s) (c : Nat) (e : Nat) (hs : Scope.within ⟨false, [.chans], []⟩ σ) :
    Moves σ s0 (State.popQueue s c e) := by
  unfold State.popQueue
  repeat' first
    | with_reducible assumption
    | intro _
    | with_reducible apply Moves.ite
    | with_reducible apply State.modEngine_moves

theorem State.beginHead_moves {s0 : State} {s : State} (h : Moves σ s0 s) (c : Nat) (e : Nat) (k : EngCmd) (hs : Scope.within ⟨false, [.chans], []⟩ σ) :
    Moves σ s0 (State.beginHead s c e k) := by
  unfold State.beginHead
  repeat' first
    | with_reducible assumption
    | intro _
    | with_reducible apply Moves.ite
    | with_reducible apply State.modEngine_moves
    | with_reducible apply State.popQueue_moves

theorem State.settle_moves {s0 : State} {s : State} (h : Moves σ s0 s) (c : Nat) (e : Nat) (hs : Scope.within ⟨false, [.chans], []⟩ σ) :
    Moves σ s0 (State.settle s c e) := by
  unfold State.settle
  repeat' first
    | with_reducible assumption
    | intro _
    | with_reducible apply Moves.ite
    | with_reducible apply State.endAction_moves
    | with_reducible apply Moves.fold

theorem State.dismiss_moves {s0 : State} {s : State} (h : Moves σ s0 s) (c : Nat) (e : Nat) (k : EngCmd) (status : Nat) (hs : Scope.within ⟨false, [.chans], [.eng]⟩ σ) :
    Moves σ s0 (State.dismiss s c e k status) := by
  unfold State.dismiss
  repeat' first
    | with_reducible assumption
    | with_reducible apply Moves.ite
    | with_reducible apply State.ecDone_moves
    | with_reducible apply State.freeEntry_moves
    | with_reducible apply State.popQueue_moves
    | with_reducible apply State.settle_moves
    | with_reducible apply State.sweep_moves
    | dsimp only
    | split
    | with_reducible apply Moves.record
    | with_reducible rfl
    | exact hs.2.2 _ (by simp)
    | exact hs.2.1 _ (by decide +kernel)
    | exact Scope.within.trans (by decide +kernel) hs

theorem State.beginRun_moves {s0 : State} {s : State} (h : Moves σ s0 s) (c : Nat) (e : Nat) (t : Nat) (k : EngCmd) (hs : Scope.within ⟨false, [.chans], []⟩ σ) :
    Moves σ s0 (State.beginRun s c e t k) := by
  unfold State.beginRun
  repeat' first
    | with_reducible assumption
    | intro _
    | with_reducible apply Moves.ite
    | with_reducible apply State.modEngine_moves
    | with_reducible apply State.modTile_moves

theorem State.bindAtClaim_moves {s0 : State} {s : State} (h : Moves σ s0 s) (c : Nat) (e : Nat) (k : EngCmd) (hs : Scope.within ⟨false, [.chans], [.eng]⟩ σ) :
    Moves σ s0 (State.bindAtClaim s c e k) := by
  unfold State.bindAtClaim
  repeat' first
    | with_reducible assumption
    | with_reducible apply Moves.ite
    | with_reducible apply State.bindBank_moves

theorem State.formPair_moves {s0 : State} {s : State} (h : Moves σ s0 s) (c : Nat) (e : Nat) (hs : Scope.within ⟨false, [.chans], []⟩ σ) :
    Moves σ s0 (State.formPair s c e) := by
  unfold State.formPair
  repeat' first
    | with_reducible assumption
    | intro _
    | with_reducible apply Moves.ite
    | with_reducible apply State.modEngine_moves

theorem State.enter_moves {s0 : State} {s : State} (h : Moves σ s0 s) (c : Nat) (e : Nat) (t : Nat) (k : EngCmd) (x : TileSlot) (hs : Scope.within ⟨false, [.out, .cycBase, .blocks, .msix, .xlat, .recorder, .chans], [.hmmu, .ctx, .rpl, .ras, .grm, .cmmu, .wst, .cvu, .hbmc, .ring, .eng, .door]⟩ σ) :
    Moves σ s0 (State.enter s c e t k x) := by
  unfold State.enter
  repeat' first
    | with_reducible assumption
    | intro _
    | with_reducible apply Moves.ite
    | with_reducible apply State.beginHead_moves
    | with_reducible apply State.beginRun_moves
    | with_reducible apply State.bindAtClaim_moves
    | with_reducible apply State.completeTile_moves
    | with_reducible apply State.freeEntry_moves
    | with_reducible apply State.modTile_moves
    | with_reducible apply State.sweep_moves
    | dsimp only
    | split
    | with_reducible apply Moves.record
    | with_reducible rfl
    | exact hs.2.2 _ (by simp)
    | exact hs.2.1 _ (by decide +kernel)
    | exact Scope.within.trans (by decide +kernel) hs

theorem State.claimFresh_moves {s0 : State} {s : State} (h : Moves σ s0 s) (c : Nat) (e : Nat) (k : EngCmd) (hs : Scope.within ⟨false, [.out, .cycBase, .blocks, .msix, .xlat, .recorder, .chans], [.hmmu, .ctx, .rpl, .ras, .grm, .cmmu, .wst, .cvu, .hbmc, .ring, .eng, .door]⟩ σ) :
    Moves σ s0 (State.claimFresh s c e k) := by
  unfold State.claimFresh
  repeat' first
    | with_reducible assumption
    | with_reducible apply Moves.ite
    | with_reducible apply State.enter_moves
    | with_reducible apply State.formPair_moves
    | with_reducible apply State.makeRoom_moves
    | with_reducible refine Moves.fstOf (by with_reducible assumption) ?_
    | dsimp only
    | split
    | with_reducible apply Moves.record
    | with_reducible rfl
    | exact hs.2.2 _ (by simp)
    | exact hs.2.1 _ (by decide +kernel)
    | exact Scope.within.trans (by decide +kernel) hs

theorem State.claimDrain_moves {s0 : State} {s : State} (h : Moves σ s0 s) (c : Nat) (e : Nat) (t : Nat) (k : EngCmd) (hs : Scope.within ⟨false, [.chans], []⟩ σ) :
    Moves σ s0 (State.claimDrain s c e t k) := by
  unfold State.claimDrain
  repeat' first
    | with_reducible assumption
    | intro _
    | with_reducible apply Moves.ite
    | with_reducible apply State.freeEntry_moves
    | with_reducible apply State.modEngine_moves
    | with_reducible apply State.popQueue_moves

theorem State.rejectFormats_moves {s0 : State} {s : State} (h : Moves σ s0 s) (c : Nat) (e : Nat) (k : EngCmd) (hs : Scope.within ⟨false, [.chans], [.eng]⟩ σ) :
    Moves σ s0 (State.rejectFormats s c e k) := by
  unfold State.rejectFormats
  repeat' first
    | with_reducible assumption
    | with_reducible apply Moves.ite
    | with_reducible apply State.bump_moves
    | with_reducible apply State.dismiss_moves
    | with_reducible refine Moves.fstOf (by with_reducible assumption) ?_
    | dsimp only
    | split
    | with_reducible apply Moves.record
    | with_reducible rfl
    | exact hs.2.2 _ (by simp)

theorem State.claimInto_moves {s0 : State} {s : State} (h : Moves σ s0 s) (c : Nat) (e : Nat) (t : Nat) (k : EngCmd) (hs : Scope.within ⟨false, [.out, .cycBase, .blocks, .msix, .xlat, .recorder, .chans], [.hmmu, .ctx, .rpl, .ras, .grm, .cmmu, .wst, .cvu, .hbmc, .ring, .eng, .door]⟩ σ) :
    Moves σ s0 (State.claimInto s c e t k) := by
  unfold State.claimInto
  repeat' first
    | with_reducible assumption
    | intro _
    | with_reducible apply Moves.ite
    | with_reducible apply State.beginHead_moves
    | with_reducible apply State.beginRun_moves
    | with_reducible apply State.enter_moves
    | with_reducible apply State.freeEntry_moves
    | with_reducible apply State.modTile_moves
    | with_reducible apply State.rejectFormats_moves
    | with_reducible apply State.settle_moves
    | with_reducible apply State.sweep_moves
    | with_reducible apply Moves.elimSnd
    | with_reducible apply Moves.elim
    | with_reducible apply Moves.elimSndFst
    | with_reducible apply Moves.elimFst
    | with_reducible refine Moves.fstOf (by with_reducible assumption) ?_
    | dsimp only
    | split
    | with_reducible apply Moves.record
    | with_reducible rfl
    | exact hs.2.2 _ (by simp)
    | exact hs.2.1 _ (by decide +kernel)
    | exact Scope.within.trans (by decide +kernel) hs

theorem State.place_moves {s0 : State} {s : State} (h : Moves σ s0 s) (c : Nat) (e : Nat) (k : EngCmd) (hs : Scope.within ⟨false, [.out, .msix, .recorder, .chans], [.rpl]⟩ σ) :
    Moves σ s0 (State.place s c e k) := by
  unfold State.place
  repeat' first
    | with_reducible assumption
    | intro _
    | with_reducible apply Moves.ite
    | with_reducible apply State.makeRoom_moves
    | with_reducible apply State.modEngine_moves
    | with_reducible refine Moves.fstOf (by with_reducible assumption) ?_
    | dsimp only
    | split
    | with_reducible apply Moves.record
    | with_reducible rfl
    | exact hs.2.2 _ (by simp)
    | exact hs.2.1 _ (by decide +kernel)
    | exact Scope.within.trans (by decide +kernel) hs

theorem State.giveWay_moves {s0 : State} {s : State} (h : Moves σ s0 s) (c : Nat) (e : Nat) (hs : Scope.within ⟨false, [.chans], []⟩ σ) :
    Moves σ s0 (State.giveWay s c e) := by
  unfold State.giveWay
  repeat' first
    | with_reducible assumption
    | intro _
    | with_reducible apply Moves.ite
    | with_reducible apply State.modTile_moves
    | with_reducible refine Moves.fstOf (by with_reducible assumption) ?_
    | dsimp only
    | split

theorem State.claimAgain_moves {s0 : State} {s : State} (h : Moves σ s0 s) (c : Nat) (e : Nat) (k : EngCmd) (hs : Scope.within ⟨false, [.out, .cycBase, .blocks, .msix, .xlat, .recorder, .chans], [.hmmu, .ctx, .rpl, .ras, .grm, .cmmu, .wst, .cvu, .hbmc, .ring, .eng, .door]⟩ σ) :
    Moves σ s0 (State.claimAgain s c e k) := by
  unfold State.claimAgain
  repeat' first
    | with_reducible assumption
    | intro _
    | with_reducible apply Moves.ite
    | with_reducible apply State.claimDrain_moves
    | with_reducible apply State.claimInto_moves
    | with_reducible apply State.enter_moves
    | with_reducible apply State.giveWay_moves
    | with_reducible refine Moves.fstOf (by with_reducible assumption) ?_
    | dsimp only
    | split
    | with_reducible apply Moves.record
    | with_reducible rfl
    | exact hs.2.2 _ (by simp)
    | exact hs.2.1 _ (by decide +kernel)
    | exact Scope.within.trans (by decide +kernel) hs

theorem State.unpause_moves {s0 : State} {s : State} (h : Moves σ s0 s) (c : Nat) (e : Nat) (hs : Scope.within ⟨false, [.chans], []⟩ σ) :
    Moves σ s0 (State.unpause s c e) := by
  unfold State.unpause
  repeat' first
    | with_reducible assumption
    | intro _
    | with_reducible apply Moves.ite
    | with_reducible apply State.modTile_moves
    | with_reducible apply State.tryAwait_moves
    | with_reducible refine Moves.fstOf (by with_reducible assumption) ?_
    | dsimp only
    | split

theorem State.claim_moves {s0 : State} {s : State} (h : Moves σ s0 s) (c : Nat) (e : Nat) (hs : Scope.within ⟨false, [.out, .cycBase, .blocks, .msix, .xlat, .recorder, .chans], [.hmmu, .ctx, .rpl, .ras, .grm, .cmmu, .wst, .cvu, .hbmc, .ring, .eng, .door]⟩ σ) :
    Moves σ s0 (State.claim s c e) := by
  unfold State.claim
  repeat' first
    | with_reducible assumption
    | intro _
    | with_reducible apply Moves.ite
    | with_reducible apply State.bump_moves
    | with_reducible apply State.modChan_moves
    | with_reducible apply State.claimAgain_moves
    | with_reducible apply State.claimDrain_moves
    | with_reducible apply State.claimFresh_moves
    | with_reducible apply State.claimInto_moves
    | with_reducible apply State.dismiss_moves
    | with_reducible apply State.freeTile_moves
    | with_reducible apply State.makeRoom_moves
    | with_reducible apply State.place_moves
    | exact StoresMove.of_eq rfl rfl rfl
    | with_reducible refine Moves.fstOf (by with_reducible assumption) ?_
    | dsimp only
    | split
    | with_reducible apply Moves.record
    | with_reducible rfl
    | exact hs.2.2 _ (by simp)
    | exact hs.2.1 _ (by decide +kernel)
    | exact Scope.within.trans (by decide +kernel) hs

theorem execTileClaim_moves {s0 : State} {s : State} (h : Moves σ s0 s) (c : Ch) (e : SlotId) (hs : Scope.within ⟨false, [.out, .cycBase, .blocks, .msix, .xlat, .recorder, .chans], [.hmmu, .ctx, .rpl, .ras, .grm, .cmmu, .wst, .cvu, .hbmc, .ring, .eng, .door]⟩ σ) :
    MovesResult σ s0 (execTileClaim c e s) := by
  unfold execTileClaim
  repeat' first
    | with_reducible assumption
    | intro _
    | with_reducible apply Moves.ite
    | with_reducible apply State.claim_moves
    | with_reducible apply State.unpause_moves
    | with_reducible apply MovesResult.live
    | with_reducible apply MovesResult.next
    | dsimp only
    | split
    | with_reducible apply Moves.record
    | with_reducible rfl
    | exact hs.2.2 _ (by simp)
    | exact hs.2.1 _ (by decide +kernel)
    | exact Scope.within.trans (by decide +kernel) hs

theorem State.sealed_moves {s0 : State} {s : State} (h : Moves σ s0 s) (c : Ch) (e : SlotId) (t : Nat) (x : TileSlot) (image : TileImage) (hs : Scope.within ⟨false, [.ctxs, .chans], [.eng]⟩ σ) :
    Moves σ s0 (State.sealed s c e t x image) := by
  unfold State.sealed
  repeat' first
    | with_reducible assumption
    | intro _
    | with_reducible apply Moves.ite
    | with_reducible apply State.bump_moves
    | with_reducible apply State.modChan_moves
    | with_reducible apply State.freeTile_moves
    | with_reducible apply State.wake_moves
    | exact StoresMove.of_eq rfl rfl rfl
    | dsimp only
    | split
    | with_reducible apply Moves.record
    | with_reducible rfl
    | exact hs.2.2 _ (by simp)
    | exact hs.2.1 _ (by decide +kernel)
    | exact Scope.within.trans (by decide +kernel) hs

theorem execSealComplete_moves {s0 : State} {s : State} (h : Moves σ s0 s) (c : Ch) (e : SlotId) (t : Fin 8) (hs : Scope.within ⟨true, [.out, .drawn, .msix, .xlat, .ctxs, .recorder, .chans], [.hmmu, .ctx, .rpl, .grm, .cmmu, .wst, .cvu, .hbmc, .ring, .eng, .door]⟩ σ) :
    MovesResult σ s0 (execSealComplete c e t s) := by
  unfold execSealComplete
  repeat' first
    | with_reducible assumption
    | intro _
    | with_reducible apply Moves.ite
    | with_reducible apply State.sealVa_moves
    | with_reducible apply State.sealed_moves
    | with_reducible apply MovesResult.live
    | with_reducible apply MovesResult.next
    | with_reducible refine Moves.fstOf (by with_reducible assumption) ?_
    | dsimp only
    | split
    | with_reducible apply Moves.record
    | with_reducible rfl
    | exact hs.2.2 _ (by simp)
    | exact hs.2.1 _ (by decide +kernel)
    | exact Scope.within.trans (by decide +kernel) hs

theorem execTileRestoreStart_moves {s0 : State} {s : State} (h : Moves σ s0 s) (c : Ch) (e : SlotId) (hs : Scope.within ⟨false, [.chans], []⟩ σ) :
    MovesResult σ s0 (execTileRestoreStart c e s) := by
  unfold execTileRestoreStart
  repeat' first
    | with_reducible assumption
    | intro _
    | with_reducible apply Moves.ite
    | with_reducible apply State.modTile_moves
    | with_reducible apply MovesResult.live
    | with_reducible apply MovesResult.next
    | with_reducible refine Moves.fstOf (by with_reducible assumption) ?_
    | dsimp only
    | split

theorem State.restored_moves {s0 : State} {s : State} (h : Moves σ s0 s) (c : Ch) (e : SlotId) (t : Nat) (x : TileSlot) (i : TileImage) (sound : Bool) (hs : Scope.within ⟨false, [.out, .msix, .xlat, .recorder, .chans], [.hmmu, .ctx, .rpl, .grm, .cmmu, .wst, .cvu, .hbmc, .ring, .eng, .door]⟩ σ) :
    Moves σ s0 (State.restored s c e t x i sound) := by
  unfold State.restored
  repeat' first
    | with_reducible assumption
    | intro _
    | with_reducible apply Moves.ite
    | with_reducible apply State.modChan_moves
    | with_reducible apply State.dismiss_moves
    | with_reducible apply State.modEngine_moves
    | with_reducible apply State.modTile_moves
    | with_reducible apply State.sendBreak_moves
    | exact StoresMove.of_eq rfl rfl rfl
    | with_reducible refine Moves.fstOf (by with_reducible assumption) ?_
    | dsimp only
    | split
    | with_reducible apply Moves.record
    | with_reducible rfl
    | exact hs.2.2 _ (by simp)
    | exact hs.2.1 _ (by decide +kernel)
    | exact Scope.within.trans (by decide +kernel) hs

theorem execTileRestoreComplete_moves {s0 : State} {s : State} (h : Moves σ s0 s) (c : Ch) (e : SlotId) (intact : Bool) (hs : Scope.within ⟨false, [.out, .drawn, .msix, .xlat, .recorder, .chans], [.hmmu, .ctx, .rpl, .grm, .cmmu, .wst, .cvu, .hbmc, .ring, .eng, .door]⟩ σ) :
    MovesResult σ s0 (execTileRestoreComplete c e intact s) := by
  unfold execTileRestoreComplete
  repeat' first
    | with_reducible assumption
    | intro _
    | with_reducible apply Moves.ite
    | with_reducible apply State.openVa_moves
    | with_reducible apply State.restored_moves
    | with_reducible apply MovesResult.live
    | with_reducible apply MovesResult.next
    | with_reducible refine Moves.fstOf (by with_reducible assumption) ?_
    | dsimp only
    | split
    | with_reducible apply Moves.record
    | with_reducible rfl
    | exact hs.2.2 _ (by simp)
    | exact hs.2.1 _ (by decide +kernel)
    | exact Scope.within.trans (by decide +kernel) hs

end Sys2Proof.Machine
end

