-- ==== Sys2Proof/Laws/MovesReading.lean ====
section
/-! SUPPORT. What the functions of Machine/Reading.lean can do to a state: each keeps the queue and the
canonical form of the stores, only adds to the output and keeps the registers 32 bits wide (`Moves`). -/

set_option Elab.async false

namespace Sys2Proof.Machine
variable {σ : Scope}

theorem Reading.read_moves {s0 : State} {r : Reading} (h : Moves σ s0 r.s) (a : MemAccess) (va n : Nat) (hs : Scope.within ⟨false, [.out, .msix, .xlat, .recorder], [.hmmu, .ctx, .rpl, .grm, .cmmu, .wst, .cvu, .hbmc, .ring, .eng, .door]⟩ σ) :
    Moves σ s0 (r.read a va n).1.s := by
  unfold Reading.read
  have h1 := State.readVa_moves h { a with va := va } hbmData n r.ext (.trans (by decide +kernel) hs)
  split
  rename_i s1 o e
  rw [e] at h1
  split
  · exact State.wrapAll_moves h1 _ _ _ _ (.trans (by decide +kernel) hs)
  · exact h1

theorem Reading.header_moves {s0 : State} {r : Reading} (h : Moves σ s0 r.s) (a : MemAccess) (uid sl va : Nat) (hs : Scope.within ⟨false, [.out, .msix, .xlat, .recorder], [.hmmu, .ctx, .rpl, .grm, .cmmu, .wst, .cvu, .hbmc, .ring, .eng, .door]⟩ σ) :
    Moves σ s0 (r.header a uid sl va).s := by
  unfold Reading.header
  have h1 := Reading.read_moves h a va 32 (.trans (by decide +kernel) hs)
  split
  · exact h
  · dsimp only
    split <;> exact h1

theorem Reading.block_moves {s0 : State} {r : Reading} (h : Moves σ s0 r.s) (a : MemAccess) (v : Window)
    (uid sl : Nat) (bp : Nat × Nat) (hs : Scope.within ⟨false, [.out, .msix, .xlat, .recorder], [.hmmu, .ctx, .rpl, .grm, .cmmu, .wst, .cvu, .hbmc, .ring, .eng, .door]⟩ σ) : Moves σ s0 (r.block a v uid sl bp).s := by
  have h1 : Moves σ s0 (if v.comp then r.header a uid sl (v.segVa bp.1 bp.2) else r).s := by
    split
    · exact Reading.header_moves h _ _ _ _ (.trans (by decide +kernel) hs)
    · exact h
  unfold Reading.block
  dsimp only
  generalize (if v.comp then r.header a uid sl (v.segVa bp.1 bp.2) else r) = r1 at h1 ⊢
  have h2 := fun va => Reading.read_moves h1 a va (elemBytes v.fmt v.layout) (.trans (by decide +kernel) hs)
  split
  · split
    · exact h1
    · split <;> exact h2 _
  · exact h1

theorem Reading.blocks_moves {s0 : State} {r : Reading} (h : Moves σ s0 r.s) (a : MemAccess) (v : Window)
    (uid sl : Nat) (bps : List (Nat × Nat)) (hs : Scope.within ⟨false, [.out, .msix, .xlat, .recorder], [.hmmu, .ctx, .rpl, .grm, .cmmu, .wst, .cvu, .hbmc, .ring, .eng, .door]⟩ σ) :
    Moves σ s0 (bps.foldl (fun r bp => r.block a v uid sl bp) r).s := by
  induction bps generalizing r with
  | nil => exact h
  | cons bp bps ih => exact ih (Reading.block_moves h _ _ _ _ _ (.trans (by decide +kernel) hs))

theorem Reading.movesOf {α : Type} {s0 : State} {p : Reading × α} {r : Reading} {x : α} (e : p = (r, x))
    (h : Moves σ s0 p.1.s) : Moves σ s0 r.s := by
  rw [e] at h; exact h

theorem State.fetchSlice_moves {s0 s : State} (h : Moves σ s0 s) (c : Ch) (e : SlotId) (l : Fin 8) (k : EngCmd)
    (got : List Fetched) (sl : Nat) (ext : List Byte) (hs : Scope.within ⟨false, [.out, .msix, .xlat, .recorder, .chans], [.hmmu, .ctx, .rpl, .grm, .cmmu, .wst, .cvu, .hbmc, .ring, .eng, .door]⟩ σ) : Moves σ s0 (s.fetchSlice c e l k got sl ext).1.s := by
  unfold State.fetchSlice
  dsimp only
  exact State.modEngine_moves (Reading.blocks_moves h _ _ _ _ _ (.trans (by decide +kernel) hs)) _ _ _ (.trans (by decide +kernel) hs)

end Sys2Proof.Machine
end

