-- ==== Sys2Proof/Laws/MovesArray.lean ====
section
/-! SUPPORT. What the functions of Machine/Array.lean can do to a state: each keeps the queue and the
canonical form of the stores, only adds to the output and keeps the registers 32 bits wide (`Moves`). -/

set_option Elab.async false

namespace Sys2Proof.Machine
variable {σ : Scope}

theorem State.modRun_moves {s0 : State} {s : State} (h : Moves σ s0 s) (c : Nat) (e : Nat) (uid : Nat) (f : EngRun → EngRun) (hs : Scope.within ⟨false, [.chans], []⟩ σ) :
    Moves σ s0 (State.modRun s c e uid f) := by
  unfold State.modRun
  repeat' first
    | with_reducible assumption
    | intro _
    | with_reducible apply Moves.ite
    | with_reducible apply State.modEngine_moves

theorem State.modLane_moves {s0 : State} {s : State} (h : Moves σ s0 s) (c : Nat) (e : Nat) (uid : Nat) (l : Nat) (f : LaneProg → LaneProg) (hs : Scope.within ⟨false, [.chans], []⟩ σ) :
    Moves σ s0 (State.modLane s c e uid l f) := by
  unfold State.modLane
  repeat' first
    | with_reducible assumption
    | intro _
    | with_reducible apply Moves.ite
    | with_reducible apply State.modRun_moves

theorem execSliceLoadStart_moves {s0 : State} {s : State} (h : Moves σ s0 s) (c : Ch) (e : SlotId) (hs : Scope.within ⟨false, [.chans], [.eng]⟩ σ) :
    MovesResult σ s0 (execSliceLoadStart c e s) := by
  unfold execSliceLoadStart
  repeat' first
    | with_reducible assumption
    | intro _
    | with_reducible apply Moves.ite
    | with_reducible apply State.modEngine_moves
    | with_reducible apply State.wrapAll_moves
    | with_reducible apply MovesResult.live
    | with_reducible apply MovesResult.next
    | with_reducible apply Moves.elimSnd
    | with_reducible apply Moves.elim
    | with_reducible apply Moves.elimSndFst
    | with_reducible apply Moves.elimFst
    | with_reducible refine Moves.fstOf (by with_reducible assumption) ?_
    | dsimp only
    | split
    | with_reducible apply Moves.record
    | with_reducible rfl
    | exact hs.2.2 _ (by simp)
    | exact hs.2.1 _ (by decide +kernel)
    | exact Scope.within.trans (by decide +kernel) hs

theorem execSliceLoadComplete_moves {s0 : State} {s : State} (h : Moves σ s0 s) (c : Ch) (e : SlotId) (hs : Scope.within ⟨false, [.chans], []⟩ σ) :
    MovesResult σ s0 (execSliceLoadComplete c e s) := by
  unfold execSliceLoadComplete
  repeat' first
    | with_reducible assumption
    | intro _
    | with_reducible apply Moves.ite
    | with_reducible apply State.modEngine_moves
    | with_reducible apply MovesResult.live

theorem execRebuildComplete_moves {s0 : State} {s : State} (h : Moves σ s0 s) (c : Ch) (e : SlotId) (b : Fin 2) (hs : Scope.within ⟨false, [], [.eng]⟩ σ) :
    MovesResult σ s0 (execRebuildComplete c e b s) := by
  unfold execRebuildComplete
  repeat' first
    | with_reducible assumption
    | intro _
    | with_reducible apply Moves.ite
    | with_reducible apply State.wrAll_moves
    | with_reducible apply MovesResult.live

theorem State.tryPromote_moves {s0 : State} {s : State} (h : Moves σ s0 s) (c : Nat) (e : Nat) (uid : Nat) (l : Nat) (hs : Scope.within ⟨false, [.chans], []⟩ σ) :
    Moves σ s0 (State.tryPromote s c e uid l) := by
  unfold State.tryPromote
  repeat' first
    | with_reducible assumption
    | intro _
    | with_reducible apply Moves.ite
    | with_reducible apply State.modLane_moves
    | with_reducible apply State.modTile_moves
    | with_reducible apply Moves.fold
    | with_reducible apply Moves.foldPair
    | with_reducible refine Moves.fstOf (by with_reducible assumption) ?_
    | dsimp only
    | split

theorem State.finishSlice_moves {s0 : State} {s : State} (h : Moves σ s0 s) (c : Nat) (e : Nat) (uid : Nat) (l : Nat) (hs : Scope.within ⟨false, [.chans], []⟩ σ) :
    Moves σ s0 (State.finishSlice s c e uid l) := by
  unfold State.finishSlice
  repeat' first
    | with_reducible assumption
    | intro _
    | with_reducible apply Moves.ite
    | with_reducible apply State.modEngine_moves
    | with_reducible apply State.modLane_moves
    | with_reducible apply State.tryPromote_moves
    | with_reducible refine Moves.fstOf (by with_reducible assumption) ?_
    | dsimp only
    | split

theorem State.beginSlice_moves {s0 : State} {s : State} (h : Moves σ s0 s) (c : Nat) (e : Nat) (uid : Nat) (l : Nat) (hs : Scope.within ⟨false, [.chans], [.eng]⟩ σ) :
    MovesOpt σ s0 (State.beginSlice s c e uid l) := by
  unfold State.beginSlice
  repeat' first
    | with_reducible assumption
    | intro _
    | with_reducible apply Moves.ite
    | with_reducible apply State.bindBank_moves
    | with_reducible apply State.modLane_moves
    | with_reducible apply State.tryPromote_moves
    | with_reducible apply MovesOpt.none
    | with_reducible apply MovesOpt.some
    | with_reducible apply MovesOpt.ite
    | with_reducible apply MovesOpt.elim
    | with_reducible apply Moves.elimSnd
    | with_reducible apply Moves.elim
    | with_reducible apply Moves.elimSndFst
    | with_reducible apply Moves.elimFst
    | with_reducible refine Moves.fstOf (by with_reducible assumption) ?_
    | dsimp only
    | split
    | with_reducible apply Moves.record
    | with_reducible rfl
    | exact hs.2.2 _ (by simp)
    | exact hs.2.1 _ (by decide +kernel)
    | exact Scope.within.trans (by decide +kernel) hs

theorem State.stepBeat_moves {s0 : State} {s : State} (h : Moves σ s0 s) (c : Nat) (e : Nat) (uid : Nat) (l : Nat) (hs : Scope.within ⟨false, [.chans], []⟩ σ) :
    Moves σ s0 (State.stepBeat s c e uid l) := by
  unfold State.stepBeat
  repeat' first
    | with_reducible assumption
    | intro _
    | with_reducible apply Moves.ite
    | with_reducible apply State.finishSlice_moves
    | with_reducible apply State.modLane_moves
    | with_reducible refine Moves.fstOf (by with_reducible assumption) ?_
    | dsimp only
    | split

theorem State.skipBeat_moves {s0 : State} {s : State} (h : Moves σ s0 s) (c : Nat) (e : Nat) (uid : Nat) (l : Nat) (beat : Nat) (fmt : Nat) (xs : List In) (hs : Scope.within ⟨false, [.chans], [.eng]⟩ σ) :
    Moves σ s0 (State.skipBeat s c e uid l beat fmt xs) := by
  unfold State.skipBeat
  repeat' first
    | with_reducible assumption
    | intro _
    | with_reducible apply Moves.ite
    | with_reducible apply State.bumpAll_moves
    | with_reducible apply State.stepBeat_moves
    | with_reducible apply State.wrapAll_moves
    | dsimp only
    | split
    | with_reducible apply Moves.record
    | with_reducible rfl
    | exact hs.2.2 _ (by simp)
    | exact hs.2.1 _ (by decide +kernel)
    | exact Scope.within.trans (by decide +kernel) hs

theorem State.recordMismatch_moves {s0 : State} {s : State} (h : Moves σ s0 s) (c : Nat) (e : Nat) (name : Nat) (integer : Bool) (g : Nat) (hs : Scope.within ⟨false, [.out, .msix, .recorder], [.rpl, .eng]⟩ σ) :
    Moves σ s0 (State.recordMismatch s c e name integer g) := by
  unfold State.recordMismatch
  repeat' first
    | with_reducible assumption
    | with_reducible apply Moves.ite
    | with_reducible apply State.wr_moves
    | with_reducible apply State.bump_moves
    | with_reducible apply State.raise_moves
    | with_reducible apply State.logOut_moves
    | with_reducible refine Moves.fstOf (by with_reducible assumption) ?_
    | dsimp only
    | split
    | with_reducible apply Moves.record
    | with_reducible rfl
    | exact hs.2.2 _ (by simp)
    | exact hs.2.1 _ (by decide +kernel)
    | exact Scope.within.trans (by decide +kernel) hs

theorem State.checkBeat_moves {s0 : State} {s : State} (h : Moves σ s0 s) (c : Nat) (e : Nat) (t : Nat) (integer : Bool) (own : List Nat) (mate : List Nat) (hs : Scope.within ⟨false, [.out, .msix, .recorder, .chans], [.rpl, .eng]⟩ σ) :
    Moves σ s0 (State.checkBeat s c e t integer own mate) := by
  unfold State.checkBeat
  repeat' first
    | with_reducible assumption
    | intro _
    | with_reducible apply Moves.ite
    | with_reducible apply State.modTile_moves
    | with_reducible apply State.recordMismatch_moves
    | with_reducible apply Moves.fold
    | with_reducible apply Moves.foldPair
    | with_reducible refine Moves.fstOf (by with_reducible assumption) ?_
    | dsimp only
    | split
    | with_reducible apply Moves.record
    | with_reducible rfl
    | exact hs.2.2 _ (by simp)
    | exact hs.2.1 _ (by decide +kernel)
    | exact Scope.within.trans (by decide +kernel) hs

theorem State.issueBeat_moves {s0 : State} {s : State} (h : Moves σ s0 s) (c : Nat) (e : Nat) (uid : Nat) (l : Nat) (r : EngRun) (x : List In) (w : WReg) (ev : BeatEvent) (hs : Scope.within ⟨false, [.out, .msix, .recorder, .chans], [.rpl, .eng]⟩ σ) :
    Moves σ s0 (State.issueBeat s c e uid l r x w ev) := by
  unfold State.issueBeat
  repeat' first
    | with_reducible assumption
    | intro _
    | with_reducible apply Moves.ite
    | with_reducible apply State.checkBeat_moves
    | with_reducible apply State.corrected_moves
    | with_reducible apply State.modTile_moves
    | with_reducible apply State.stepBeat_moves
    | with_reducible apply State.wrapAll_moves
    | with_reducible refine Moves.fstOf (by with_reducible assumption) ?_
    | dsimp only
    | split
    | with_reducible apply Moves.record
    | with_reducible rfl
    | exact hs.2.2 _ (by simp)
    | exact hs.2.1 _ (by decide +kernel)
    | exact Scope.within.trans (by decide +kernel) hs

theorem State.advance_moves {s0 s : State} (h : Moves σ s0 s) (c e uid l : Nat) (ev : BeatEvent) (fuel : Nat) (hs : Scope.within ⟨false, [.out, .msix, .xlat, .recorder, .chans], [.hmmu, .ctx, .rpl, .ras, .grm, .cmmu, .wst, .cvu, .hbmc, .ring, .eng, .door]⟩ σ) :
    Moves σ s0 (State.advance c e uid l ev fuel s).1 := by
  induction fuel generalizing s with
  | zero => exact h
  | succ n ih =>
    unfold State.advance
    repeat' first
      | with_reducible assumption
      | intro _
      | with_reducible apply Moves.ite
      | with_reducible apply ih
      | with_reducible apply State.beginSlice_moves
      | with_reducible refine Moves.someOf (by with_reducible assumption) ?_
      | with_reducible apply State.issueBeat_moves
      | with_reducible apply State.modLane_moves
      | with_reducible apply State.skipBeat_moves
      | with_reducible apply State.tileLost_moves
      | with_reducible apply State.tryPromote_moves
      | with_reducible apply Moves.iteFst
      | with_reducible apply Moves.elimSnd
      | with_reducible apply Moves.elim
      | with_reducible apply Moves.elimSndFst
      | with_reducible apply Moves.elimFst
      | with_reducible refine Moves.fstOf (by with_reducible assumption) ?_
      | dsimp only
      | split
      | with_reducible apply Moves.record
      | with_reducible rfl
      | exact hs.2.2 _ (by simp)
      | exact hs.2.1 _ (by decide +kernel)
      | exact Scope.within.trans (by decide +kernel) hs
      | exact .inr (hs.2.1 _ (by decide +kernel))
      | with_reducible exact .inl rfl
      | exact hs.1 rfl

theorem State.ownCycle_moves {s0 s : State} (h : Moves σ s0 s) (c e l : Nat) (ev : BeatEvent) (rs : List EngRun) (hs : Scope.within ⟨false, [.out, .msix, .xlat, .recorder, .chans], [.hmmu, .ctx, .rpl, .ras, .grm, .cmmu, .wst, .cvu, .hbmc, .ring, .eng, .door]⟩ σ) :
    Moves σ s0 (State.ownCycle c e l ev rs s).1 := by
  induction rs generalizing s with
  | nil => exact h
  | cons r rs ih =>
    unfold State.ownCycle
    repeat' first
      | with_reducible assumption
      | intro _
      | with_reducible apply Moves.ite
      | with_reducible apply ih
      | with_reducible apply State.advance_moves
      | with_reducible apply Moves.iteFst
      | with_reducible refine Moves.fstOf (by with_reducible assumption) ?_
      | dsimp only
      | split
      | with_reducible rfl
      | exact hs.2.2 _ (by simp)
      | exact hs.2.1 _ (by decide +kernel)
      | exact Scope.within.trans (by decide +kernel) hs
      | exact .inr (hs.2.1 _ (by decide +kernel))
      | with_reducible exact .inl rfl
      | exact hs.1 rfl

theorem State.idleSlot_moves {s0 : State} {s : State} (h : Moves σ s0 s) (p : Page) (l : Nat) (busy : Bool) (hs : Scope.within ⟨false, [], []⟩ σ) (hp1 : pageKind p ∈ σ.kinds) :
    Moves σ s0 (State.idleSlot s p l busy) := by
  unfold State.idleSlot
  repeat' first
    | with_reducible assumption
    | with_reducible apply Moves.ite
    | with_reducible apply State.bump_moves

theorem State.beatIssue_moves {s0 : State} {s : State} (h : Moves σ s0 s) (c : Nat) (e : Nat) (ev : BeatEvent) (hs : Scope.within ⟨false, [.out, .cycBase, .blocks, .msix, .xlat, .recorder, .chans], [.hmmu, .ctx, .rpl, .ras, .grm, .cmmu, .wst, .cvu, .hbmc, .ring, .eng, .door]⟩ σ) :
    Moves σ s0 (State.beatIssue s c e ev) := by
  unfold State.beatIssue
  repeat' first
    | with_reducible assumption
    | intro _
    | with_reducible apply Moves.ite
    | with_reducible apply State.active_moves
    | with_reducible apply State.endRuns_moves
    | with_reducible apply State.idleSlot_moves
    | with_reducible apply State.modEngine_moves
    | with_reducible apply State.ownCycle_moves
    | with_reducible apply State.sweep_moves
    | with_reducible apply Moves.fold
    | with_reducible apply Moves.foldPair
    | with_reducible refine Moves.fstOf (by with_reducible assumption) ?_
    | dsimp only
    | split
    | with_reducible apply Moves.record
    | with_reducible rfl
    | exact hs.2.2 _ (by simp)
    | exact hs.2.1 _ (by decide +kernel)
    | exact Scope.within.trans (by decide +kernel) hs

theorem execBeatIssue_moves {s0 : State} {s : State} (h : Moves σ s0 s) (c : Ch) (e : SlotId) (ev : BeatEvent) (hs : Scope.within ⟨false, [.out, .cycBase, .blocks, .msix, .xlat, .recorder, .chans], [.hmmu, .ctx, .rpl, .ras, .grm, .cmmu, .wst, .cvu, .hbmc, .ring, .eng, .door]⟩ σ) :
    MovesResult σ s0 (execBeatIssue c e ev s) := by
  unfold execBeatIssue
  repeat' first
    | with_reducible assumption
    | intro _
    | with_reducible apply Moves.ite
    | with_reducible apply State.beatIssue_moves
    | with_reducible apply State.recordStall_moves
    | with_reducible apply MovesResult.live
    | with_reducible apply MovesResult.next
    | dsimp only
    | split
    | with_reducible apply Moves.record
    | with_reducible rfl
    | exact hs.2.2 _ (by simp)
    | exact hs.2.1 _ (by decide +kernel)
    | exact Scope.within.trans (by decide +kernel) hs

theorem execActivationReadReturn_moves {s0 : State} {s : State} (h : Moves σ s0 s) (c : Ch) (e : SlotId) (l : Fin 8) (ext : List Byte) (hs : Scope.within ⟨false, [.out, .cycBase, .blocks, .msix, .xlat, .recorder, .chans], [.hmmu, .ctx, .rpl, .ras, .grm, .cmmu, .wst, .cvu, .hbmc, .ring, .eng, .door]⟩ σ) :
    MovesResult σ s0 (execActivationReadReturn c e l ext s) := by
  unfold execActivationReadReturn
  repeat' first
    | with_reducible assumption
    | intro _
    | with_reducible apply Moves.ite
    | with_reducible apply State.endRuns_moves
    | with_reducible apply State.fetchSlice_moves
    | with_reducible apply State.modEngine_moves
    | with_reducible apply State.modLane_moves
    | with_reducible apply State.modTile_moves
    | with_reducible apply State.tileLost_moves
    | with_reducible apply MovesResult.live
    | with_reducible apply MovesResult.next
    | with_reducible apply Moves.elimSnd
    | with_reducible apply Moves.elim
    | with_reducible apply Moves.elimSndFst
    | with_reducible apply Moves.elimFst
    | with_reducible refine Moves.fstOf (by with_reducible assumption) ?_
    | with_reducible refine Reading.movesOf (by with_reducible assumption) ?_
    | dsimp only
    | split
    | with_reducible apply Moves.record
    | with_reducible rfl
    | exact hs.2.2 _ (by simp)
    | exact hs.2.1 _ (by decide +kernel)
    | exact Scope.within.trans (by decide +kernel) hs

theorem State.reissue_moves {s0 : State} {s : State} (h : Moves σ s0 s) (c : Nat) (e : Nat) (t : Nat) (hs : Scope.within ⟨false, [.out, .msix, .recorder, .chans], [.rpl, .eng]⟩ σ) :
    Moves σ s0 (State.reissue s c e t) := by
  unfold State.reissue
  repeat' first
    | with_reducible assumption
    | intro _
    | with_reducible apply Moves.ite
    | with_reducible apply State.raise_moves
    | with_reducible apply State.bumpAll_moves
    | with_reducible apply State.dropRepeats_moves
    | with_reducible apply State.dropRuns_moves
    | with_reducible apply State.logOut_moves
    | with_reducible apply State.modEngine_moves
    | with_reducible apply State.queueRepeats_moves
    | dsimp only
    | split
    | with_reducible apply Moves.record
    | with_reducible rfl
    | exact hs.2.2 _ (by simp)
    | exact hs.2.1 _ (by decide +kernel)
    | exact Scope.within.trans (by decide +kernel) hs

theorem execPromotionComplete_moves {s0 : State} {s : State} (h : Moves σ s0 s) (c : Ch) (e : SlotId) (lane : Fin 8) (hs : Scope.within ⟨false, [.out, .msix, .recorder, .chans], [.ctx, .rpl, .eng]⟩ σ) :
    MovesResult σ s0 (execPromotionComplete c e lane s) := by
  unfold execPromotionComplete
  repeat' first
    | with_reducible assumption
    | intro _
    | with_reducible apply Moves.ite
    | with_reducible apply State.bump_moves
    | with_reducible apply State.active_moves
    | with_reducible apply State.modTile_moves
    | with_reducible apply State.reissue_moves
    | with_reducible apply State.tryAwait_moves
    | with_reducible apply MovesResult.live
    | with_reducible apply MovesResult.next
    | with_reducible refine Moves.fstOf (by with_reducible assumption) ?_
    | dsimp only
    | split
    | with_reducible apply Moves.record
    | with_reducible rfl
    | exact hs.2.2 _ (by simp)
    | exact hs.2.1 _ (by decide +kernel)
    | exact Scope.within.trans (by decide +kernel) hs

end Sys2Proof.Machine
end

