-- ==== Sys2Proof/Laws/MovesDrain.lean ====
section
/-! SUPPORT. What the functions of Machine/Drain.lean can do to a state: each keeps the queue and the
canonical form of the stores, only adds to the output and keeps the registers 32 bits wide (`Moves`). -/

set_option Elab.async false

namespace Sys2Proof.Machine
variable {σ : Scope}

theorem execDrainStart_moves {s0 : State} {s : State} (h : Moves σ s0 s) (c : Ch) (e : SlotId) (hs : Scope.within ⟨false, [.chans], []⟩ σ) :
    MovesResult σ s0 (execDrainStart c e s) := by
  unfold execDrainStart
  repeat' first
    | with_reducible assumption
    | intro _
    | with_reducible apply Moves.ite
    | with_reducible apply State.modEngine_moves
    | with_reducible apply MovesResult.live
    | with_reducible apply MovesResult.next
    | with_reducible refine Moves.fstOf (by with_reducible assumption) ?_
    | dsimp only
    | split

theorem execRowParamFetchReturn_moves {s0 : State} {s : State} (h : Moves σ s0 s) (c : Ch) (e : SlotId) (ext : List Byte) (hs : Scope.within ⟨false, [.out, .msix, .xlat, .recorder, .chans], [.hmmu, .ctx, .rpl, .ras, .grm, .cmmu, .wst, .cvu, .hbmc, .ring, .eng, .door]⟩ σ) :
    MovesResult σ s0 (execRowParamFetchReturn c e ext s) := by
  unfold execRowParamFetchReturn
  repeat' first
    | with_reducible assumption
    | intro _
    | with_reducible apply Moves.ite
    | with_reducible apply State.modEngine_moves
    | with_reducible apply State.readVa_moves
    | with_reducible apply State.tileLost_moves
    | with_reducible apply MovesResult.live
    | with_reducible apply MovesResult.next
    | with_reducible refine Moves.fstOf (by with_reducible assumption) ?_
    | dsimp only
    | split
    | with_reducible apply Moves.record
    | with_reducible rfl
    | exact hs.2.2 _ (by simp)
    | exact hs.2.1 _ (by decide +kernel)
    | exact Scope.within.trans (by decide +kernel) hs

theorem State.sendBlock_moves {s0 : State} {s : State} (h : Moves σ s0 s) (c : Nat) (e : Nat) (t : Nat) (j : Nat) (k : EngCmd) (x : TileSlot) (geo : EngCmd) (hs : Scope.within ⟨false, [.out, .drawn, .msix, .xlat, .recorder, .chans], [.hmmu, .ctx, .rpl, .grm, .cmmu, .wst, .cvu, .hbmc, .ring, .eng, .door]⟩ σ) :
    Moves σ s0 (State.sendBlock s c e t j k x geo) := by
  unfold State.sendBlock
  repeat' first
    | with_reducible assumption
    | with_reducible apply Moves.ite
    | with_reducible apply State.drawMany_moves
    | with_reducible apply State.relaySend_moves
    | dsimp only
    | split
    | with_reducible apply Moves.record
    | with_reducible rfl
    | exact hs.2.2 _ (by simp)
    | exact hs.2.1 _ (by decide +kernel)
    | exact Scope.within.trans (by decide +kernel) hs

theorem State.holdDrain_moves {s0 : State} {s : State} (h : Moves σ s0 s) (c : Nat) (e : Nat) (t : Nat) (hs : Scope.within ⟨false, [.chans], []⟩ σ) :
    Moves σ s0 (State.holdDrain s c e t) := by
  unfold State.holdDrain
  repeat' first
    | with_reducible assumption
    | intro _
    | with_reducible apply Moves.ite
    | with_reducible apply State.modEngine_moves

theorem State.pairMismatch_moves {s0 : State} {s : State} (h : Moves σ s0 s) (c : Nat) (e : Nat) (t : Nat) (j : Nat) (hs : Scope.within ⟨false, [.out, .cycBase, .blocks, .msix, .xlat, .recorder, .chans], [.hmmu, .ctx, .rpl, .pwr, .ras, .grm, .cmmu, .wst, .cvu, .hbmc, .ring, .eng, .door]⟩ σ) :
    Moves σ s0 (State.pairMismatch s c e t j) := by
  unfold State.pairMismatch
  repeat' first
    | with_reducible assumption
    | intro _
    | with_reducible apply Moves.ite
    | with_reducible apply State.bump_moves
    | with_reducible apply Reading.block_moves
    | with_reducible apply State.hold_moves
    | with_reducible apply State.holdDrain_moves
    | with_reducible apply State.logOut_moves
    | with_reducible apply State.modTile_moves
    | with_reducible apply State.rerunAsGuest_moves
    | with_reducible apply State.rerunHere_moves
    | with_reducible apply Moves.elimSnd
    | with_reducible apply Moves.elim
    | with_reducible apply Moves.elimSndFst
    | with_reducible apply Moves.elimFst
    | with_reducible refine Moves.fstOf (by with_reducible assumption) ?_
    | dsimp only
    | split
    | with_reducible apply Moves.record
    | with_reducible rfl
    | exact hs.2.2 _ (by simp)
    | exact hs.2.1 _ (by decide +kernel)
    | exact Scope.within.trans (by decide +kernel) hs

theorem State.strikeSite_moves {s0 : State} {s : State} (h : Moves σ s0 s) (c : Nat) (site : Nat) (hs : Scope.within ⟨false, [.out, .cycBase, .blocks, .msix, .recorder, .chans], [.rpl, .ras, .eng]⟩ σ) :
    Moves σ s0 (State.strikeSite s c site) := by
  unfold State.strikeSite
  repeat' first
    | with_reducible assumption
    | with_reducible apply Moves.ite
    | with_reducible apply State.declareFailed_moves
    | with_reducible apply State.strike_moves
    | dsimp only
    | split
    | with_reducible apply Moves.record
    | with_reducible rfl
    | exact hs.2.2 _ (by simp)
    | exact hs.2.1 _ (by decide +kernel)
    | exact Scope.within.trans (by decide +kernel) hs

theorem State.arbitrate_moves {s0 : State} {s : State} (h : Moves σ s0 s) (c : Nat) (e : Nat) (t : Nat) (j : Nat) (hs : Scope.within ⟨false, [.out, .drawn, .cycBase, .blocks, .msix, .xlat, .recorder, .chans], [.hmmu, .ctx, .rpl, .ras, .grm, .cmmu, .wst, .cvu, .hbmc, .ring, .eng, .door]⟩ σ) :
    Moves σ s0 (State.arbitrate s c e t j) := by
  unfold State.arbitrate
  repeat' first
    | with_reducible assumption
    | intro _
    | with_reducible apply Moves.ite
    | with_reducible apply State.draw_moves
    | with_reducible apply Reading.block_moves
    | with_reducible apply State.loseTile_moves
    | with_reducible apply State.modTile_moves
    | with_reducible apply State.strikeSite_moves
    | with_reducible exact Memory.lose_wf _ _ (by assumption)
    | with_reducible refine Moves.fstOf (by with_reducible assumption) ?_
    | dsimp only
    | split
    | with_reducible apply Moves.record
    | with_reducible rfl
    | exact hs.2.2 _ (by simp)
    | exact hs.2.1 _ (by decide +kernel)
    | exact Scope.within.trans (by decide +kernel) hs

theorem State.drainBlock_moves {s0 : State} {s : State} (h : Moves σ s0 s) (c : Nat) (e : Nat) (differs : Bool) (hs : Scope.within ⟨false, [.out, .drawn, .cycBase, .blocks, .msix, .xlat, .recorder, .chans], [.hmmu, .ctx, .rpl, .pwr, .ras, .grm, .cmmu, .wst, .cvu, .hbmc, .ring, .eng, .door]⟩ σ) :
    Moves σ s0 (State.drainBlock s c e differs) := by
  unfold State.drainBlock
  repeat' first
    | with_reducible assumption
    | intro _
    | with_reducible apply Moves.ite
    | with_reducible apply Reading.block_moves
    | with_reducible apply State.active_moves
    | with_reducible apply State.arbitrate_moves
    | with_reducible apply State.modEngine_moves
    | with_reducible apply State.pairMismatch_moves
    | with_reducible apply State.sendBlock_moves
    | with_reducible refine Moves.fstOf (by with_reducible assumption) ?_
    | dsimp only
    | split
    | with_reducible apply Moves.record
    | with_reducible rfl
    | exact hs.2.2 _ (by simp)
    | exact hs.2.1 _ (by decide +kernel)
    | exact Scope.within.trans (by decide +kernel) hs

theorem execDrainBlockRead_moves {s0 : State} {s : State} (h : Moves σ s0 s) (c : Ch) (e : SlotId) (pairDiffers : Bool) (hs : Scope.within ⟨false, [.out, .drawn, .cycBase, .blocks, .msix, .xlat, .recorder, .chans], [.hmmu, .ctx, .rpl, .pwr, .ras, .grm, .cmmu, .wst, .cvu, .hbmc, .ring, .eng, .door]⟩ σ) :
    MovesResult σ s0 (execDrainBlockRead c e pairDiffers s) := by
  unfold execDrainBlockRead
  repeat' first
    | with_reducible assumption
    | intro _
    | with_reducible apply Moves.ite
    | with_reducible apply State.drainBlock_moves
    | with_reducible apply State.recordStall_moves
    | with_reducible apply MovesResult.live
    | with_reducible apply MovesResult.next
    | dsimp only
    | split
    | with_reducible apply Moves.record
    | with_reducible rfl
    | exact hs.2.2 _ (by simp)
    | exact hs.2.1 _ (by decide +kernel)
    | exact Scope.within.trans (by decide +kernel) hs

theorem State.epilogueStep_moves {s0 : State} {s : State} (h : Moves σ s0 s) (c : Nat) (e : Nat) (d : Drain) (geo : EngCmd) (x : TileSlot) (hs : Scope.within ⟨false, [.out, .drawn, .msix, .xlat, .recorder, .chans], [.hmmu, .ctx, .rpl, .grm, .cmmu, .wst, .cvu, .hbmc, .ring, .eng, .door]⟩ σ) :
    Moves σ s0 (State.epilogueStep s c e d geo x) := by
  unfold State.epilogueStep
  repeat' first
    | with_reducible assumption
    | intro _
    | with_reducible apply Moves.ite
    | with_reducible apply State.modChan_moves
    | with_reducible apply Reading.block_moves
    | with_reducible apply State.drawMany_moves
    | with_reducible apply State.modEngine_moves
    | exact StoresMove.of_eq rfl rfl rfl
    | with_reducible apply Moves.elimSnd
    | with_reducible apply Moves.elim
    | with_reducible apply Moves.elimSndFst
    | with_reducible apply Moves.elimFst
    | with_reducible refine Moves.fstOf (by with_reducible assumption) ?_
    | dsimp only
    | split
    | with_reducible apply Moves.record
    | with_reducible rfl
    | exact hs.2.2 _ (by simp)
    | exact hs.2.1 _ (by decide +kernel)
    | exact Scope.within.trans (by decide +kernel) hs

theorem execEpilogueOutput_moves {s0 : State} {s : State} (h : Moves σ s0 s) (c : Ch) (e : SlotId) (hs : Scope.within ⟨false, [.out, .drawn, .msix, .xlat, .recorder, .chans], [.hmmu, .ctx, .rpl, .grm, .cmmu, .wst, .cvu, .hbmc, .ring, .eng, .door]⟩ σ) :
    MovesResult σ s0 (execEpilogueOutput c e s) := by
  unfold execEpilogueOutput
  repeat' first
    | with_reducible assumption
    | intro _
    | with_reducible apply Moves.ite
    | with_reducible apply State.epilogueStep_moves
    | with_reducible apply State.modEngine_moves
    | with_reducible apply MovesResult.live
    | with_reducible apply MovesResult.next
    | with_reducible refine Moves.fstOf (by with_reducible assumption) ?_
    | dsimp only
    | split
    | with_reducible apply Moves.record
    | with_reducible rfl
    | exact hs.2.2 _ (by simp)
    | exact hs.2.1 _ (by decide +kernel)
    | exact Scope.within.trans (by decide +kernel) hs

theorem State.storeBytes_moves {s0 : State} {s : State} (h : Moves σ s0 s) (r : RequesterId) (t : Target) (addr : Nat) (bs : List Byte) (mask : Option (List Byte)) (hs : Scope.within ⟨true, [.out, .chans], [.hbmc]⟩ σ) :
    Moves σ s0 (State.storeBytes s r t addr bs mask) := by
  unfold State.storeBytes
  repeat' first
    | with_reducible assumption
    | intro _
    | with_reducible apply Moves.ite
    | with_reducible apply State.emit_moves
    | with_reducible apply State.countHbm_moves
    | with_reducible apply State.modMem_moves
    | with_reducible apply Moves.fold
    | with_reducible apply Moves.foldPair
    | exact Memory.fold_wf _ (fun m x hm => Memory.write_wf _ _ hm) (by assumption)
    | with_reducible exact Memory.put_wf _ _ (by assumption)
    | with_reducible refine Moves.fstOf (by with_reducible assumption) ?_
    | dsimp only
    | split
    | with_reducible apply Moves.record
    | with_reducible rfl
    | exact hs.2.2 _ (by simp)
    | exact hs.2.1 _ (by decide +kernel)
    | exact Scope.within.trans (by decide +kernel) hs

theorem writePage_moves {s0 : State} {st : State × Nat × Bool} (h : Moves σ s0 st.1) (a : MemAccess) (p : Piece) (page : Nat × Nat) (hs : Scope.within ⟨true, [.out, .msix, .xlat, .recorder, .chans], [.hmmu, .ctx, .rpl, .grm, .cmmu, .wst, .cvu, .hbmc, .ring, .eng, .door]⟩ σ) :
    Moves σ s0 (writePage a p st page).1 := by
  unfold writePage
  repeat' first
    | with_reducible assumption
    | intro _
    | with_reducible apply Moves.ite
    | with_reducible apply State.reach_moves
    | with_reducible apply State.storeBytes_moves
    | with_reducible apply Moves.iteFst
    | with_reducible refine Moves.fstOf (by with_reducible assumption) ?_
    | dsimp only
    | split
    | with_reducible apply Moves.record
    | with_reducible rfl
    | exact hs.2.2 _ (by simp)
    | exact hs.2.1 _ (by decide +kernel)
    | exact Scope.within.trans (by decide +kernel) hs

theorem State.writeSome_moves {s0 s : State} (h : Moves σ s0 s) (a : MemAccess) (ps : List Piece) (hs : Scope.within ⟨true, [.out, .msix, .xlat, .recorder, .chans], [.hmmu, .ctx, .rpl, .grm, .cmmu, .wst, .cvu, .hbmc, .ring, .eng, .door]⟩ σ) :
    Moves σ s0 (State.writeSome s a ps).1 := by
  induction ps generalizing s with
  | nil => exact h
  | cons p ps ih =>
    unfold State.writeSome
    repeat' first
      | with_reducible assumption
      | intro _
      | with_reducible apply Moves.ite
      | with_reducible apply ih
      | with_reducible apply State.after_moves
      | with_reducible apply writePage_moves
      | with_reducible apply Moves.fold
      | with_reducible apply Moves.foldPair
      | with_reducible apply Moves.iteFst
      | with_reducible refine Moves.fstOf (by with_reducible assumption) ?_
      | dsimp only
      | split
      | with_reducible apply Moves.record
      | with_reducible rfl
      | exact hs.2.2 _ (by simp)
      | exact hs.2.1 _ (by decide +kernel)
      | exact Scope.within.trans (by decide +kernel) hs
      | exact .inr (hs.2.1 _ (by decide +kernel))
      | with_reducible exact .inl rfl
      | exact hs.1 rfl

theorem State.reachPieces_moves {s0 : State} {s : State} (h : Moves σ s0 s) (a : MemAccess) (ps : List Piece) (hs : Scope.within ⟨false, [.out, .msix, .xlat, .recorder], [.hmmu, .ctx, .rpl, .grm, .cmmu, .wst, .cvu, .ring, .eng, .door]⟩ σ) :
    Moves σ s0 (State.reachPieces s a ps).1 := by
  unfold State.reachPieces
  repeat' first
    | with_reducible assumption
    | intro _
    | with_reducible apply Moves.ite
    | with_reducible apply State.reachAll_moves
    | with_reducible apply Moves.fold
    | with_reducible apply Moves.foldPair
    | with_reducible apply Moves.iteFst
    | with_reducible refine Moves.fstOf (by with_reducible assumption) ?_
    | dsimp only
    | split

theorem State.writeWhole_moves {s0 : State} {s : State} (h : Moves σ s0 s) (a : MemAccess) (ps : List Piece) (hs : Scope.within ⟨true, [.out, .msix, .xlat, .recorder, .chans], [.hmmu, .ctx, .rpl, .grm, .cmmu, .wst, .cvu, .hbmc, .ring, .eng, .door]⟩ σ) :
    Moves σ s0 (State.writeWhole s a ps).1 := by
  unfold State.writeWhole
  repeat' first
    | with_reducible assumption
    | intro _
    | with_reducible apply Moves.ite
    | with_reducible apply State.reachPieces_moves
    | with_reducible apply State.storeBytes_moves
    | with_reducible apply Moves.fold
    | with_reducible apply Moves.foldPair
    | with_reducible apply Moves.iteFst
    | with_reducible refine Moves.fstOf (by with_reducible assumption) ?_
    | dsimp only
    | split
    | with_reducible apply Moves.record
    | with_reducible rfl
    | exact hs.2.2 _ (by simp)
    | exact hs.2.1 _ (by decide +kernel)
    | exact Scope.within.trans (by decide +kernel) hs

theorem State.forgetSegment_moves {s0 : State} {s : State} (h : Moves σ s0 s) (ctx : Nat) (va : Nat) (hs : Scope.within ⟨false, [.chans], []⟩ σ) :
    Moves σ s0 (State.forgetSegment s ctx va) := by
  unfold State.forgetSegment
  repeat' first
    | with_reducible assumption
    | intro _
    | with_reducible apply Moves.ite
    | with_reducible apply State.modChan_moves
    | exact StoresMove.of_eq rfl rfl rfl
    | with_reducible apply Moves.fold
    | with_reducible apply Moves.foldPair
    | dsimp only
    | split
    | with_reducible apply Moves.record
    | with_reducible rfl
    | exact hs.2.2 _ (by simp)
    | exact hs.2.1 _ (by decide +kernel)

theorem State.writeOut_moves {s0 s : State} (h : Moves σ s0 s) (a : MemAccess) (fuel : Nat) (ps : List Piece) (hs : Scope.within ⟨true, [.out, .msix, .xlat, .recorder, .chans], [.hmmu, .ctx, .rpl, .grm, .cmmu, .wst, .cvu, .hbmc, .ring, .eng, .door]⟩ σ) :
    Moves σ s0 (State.writeOut a fuel s ps).1 := by
  induction fuel generalizing s ps with
  | zero => exact h
  | succ k ih =>
    unfold State.writeOut
    repeat' first
      | with_reducible assumption
      | intro _
      | with_reducible apply Moves.ite
      | with_reducible apply ih
      | with_reducible apply State.forgetSegment_moves
      | with_reducible apply State.writeSome_moves
      | with_reducible apply State.writeWhole_moves
      | with_reducible apply Moves.iteFst
      | with_reducible apply Moves.elimSnd
      | with_reducible apply Moves.elim
      | with_reducible apply Moves.elimSndFst
      | with_reducible apply Moves.elimFst
      | with_reducible refine Moves.fstOf (by with_reducible assumption) ?_
      | dsimp only
      | split
      | with_reducible rfl
      | exact hs.2.2 _ (by simp)
      | exact hs.2.1 _ (by decide +kernel)
      | exact Scope.within.trans (by decide +kernel) hs
      | exact .inr (hs.2.1 _ (by decide +kernel))
      | with_reducible exact .inl rfl
      | exact hs.1 rfl

theorem execWriteBack_moves {s0 : State} {s : State} (h : Moves σ s0 s) (c : Ch) (e : SlotId) (hs : Scope.within ⟨true, [.out, .msix, .xlat, .streams, .recorder, .chans], [.hmmu, .ctx, .rpl, .ras, .grm, .cmmu, .wst, .cvu, .hbmc, .ring, .eng, .door]⟩ σ) :
    MovesResult σ s0 (execWriteBack c e s) := by
  unfold execWriteBack
  repeat' first
    | with_reducible assumption
    | intro _
    | with_reducible apply Moves.ite
    | with_reducible apply State.forgetSegment_moves
    | with_reducible apply State.ghostDrop_moves
    | with_reducible apply State.modEngine_moves
    | with_reducible apply State.scan_moves
    | with_reducible apply State.writeSome_moves
    | with_reducible apply State.writeWhole_moves
    | with_reducible apply MovesResult.live
    | with_reducible apply MovesResult.next
    | with_reducible refine Moves.fstOf (by with_reducible assumption) ?_
    | dsimp only
    | split
    | with_reducible apply Moves.record
    | with_reducible rfl
    | exact hs.2.2 _ (by simp)
    | exact hs.2.1 _ (by decide +kernel)
    | exact Scope.within.trans (by decide +kernel) hs

theorem execDrainComplete_moves {s0 : State} {s : State} (h : Moves σ s0 s) (c : Ch) (e : SlotId) (hs : Scope.within ⟨false, [.out, .msix, .xlat, .recorder, .chans], [.hmmu, .ctx, .rpl, .grm, .cmmu, .wst, .cvu, .hbmc, .ring, .eng, .door]⟩ σ) :
    MovesResult σ s0 (execDrainComplete c e s) := by
  unfold execDrainComplete
  repeat' first
    | with_reducible assumption
    | intro _
    | with_reducible apply Moves.ite
    | with_reducible apply State.bump_moves
    | with_reducible apply State.raise_moves
    | with_reducible apply Reading.block_moves
    | with_reducible apply State.ecsDone_moves
    | with_reducible apply State.freeTile_moves
    | with_reducible apply MovesResult.live
    | with_reducible apply MovesResult.next
    | with_reducible refine Moves.fstOf (by with_reducible assumption) ?_
    | dsimp only
    | split
    | with_reducible apply Moves.record
    | with_reducible rfl
    | exact hs.2.2 _ (by simp)
    | exact hs.2.1 _ (by decide +kernel)
    | exact Scope.within.trans (by decide +kernel) hs

theorem State.argmaxReads_moves {s0 : State} {s : State} (h : Moves σ s0 s) (a : MemAccess) (k : EngCmd) (ext : List Byte) (hs : Scope.within ⟨false, [.out, .msix, .xlat, .recorder], [.hmmu, .ctx, .rpl, .grm, .cmmu, .wst, .cvu, .hbmc, .ring, .eng, .door]⟩ σ) :
    Moves σ s0 (State.argmaxReads s a k ext).1 := by
  unfold State.argmaxReads
  repeat' first
    | with_reducible assumption
    | intro _
    | with_reducible apply Moves.ite
    | with_reducible apply State.readVa_moves
    | with_reducible apply Moves.fold
    | with_reducible apply Moves.foldPair
    | with_reducible apply Moves.iteFst

theorem State.argmaxWrites_moves {s0 : State} {s : State} (h : Moves σ s0 s) (a : MemAccess) (k : EngCmd) (cs : List (Nat × List Cand)) (hs : Scope.within ⟨true, [.out, .msix, .xlat, .recorder, .chans], [.hmmu, .ctx, .rpl, .grm, .cmmu, .wst, .cvu, .hbmc, .ring, .eng, .door]⟩ σ) :
    Moves σ s0 (State.argmaxWrites s a k cs).1 := by
  unfold State.argmaxWrites
  repeat' first
    | with_reducible assumption
    | intro _
    | with_reducible apply Moves.ite
    | with_reducible apply State.writeVa_moves
    | with_reducible apply Moves.fold
    | with_reducible apply Moves.foldPair
    | with_reducible apply Moves.iteFst
    | with_reducible refine Moves.fstOf (by with_reducible assumption) ?_
    | dsimp only
    | split

theorem execArgmaxMerge_moves {s0 : State} {s : State} (h : Moves σ s0 s) (c : Ch) (e : SlotId) (ext : List Byte) (hs : Scope.within ⟨true, [.out, .msix, .xlat, .recorder, .chans], [.hmmu, .ctx, .rpl, .grm, .cmmu, .wst, .cvu, .hbmc, .ring, .eng, .door]⟩ σ) :
    MovesResult σ s0 (execArgmaxMerge c e ext s) := by
  unfold execArgmaxMerge
  repeat' first
    | with_reducible assumption
    | intro _
    | with_reducible apply Moves.ite
    | with_reducible apply State.argmaxReads_moves
    | with_reducible apply State.argmaxWrites_moves
    | with_reducible apply State.dismiss_moves
    | with_reducible apply State.metPoison_moves
    | with_reducible apply MovesResult.live
    | with_reducible apply MovesResult.next
    | with_reducible refine Moves.fstOf (by with_reducible assumption) ?_
    | dsimp only
    | split
    | with_reducible apply Moves.record
    | with_reducible rfl
    | exact hs.2.2 _ (by simp)
    | exact hs.2.1 _ (by decide +kernel)
    | exact Scope.within.trans (by decide +kernel) hs

end Sys2Proof.Machine
end

