-- ==== Sys2Proof/Laws/MovesTandem.lean ====
section
/-! SUPPORT. What the functions of Machine/Tandem.lean can do to a state: each keeps the queue and the
canonical form of the stores, only adds to the output and keeps the registers 32 bits wide (`Moves`). -/

set_option Elab.async false

namespace Sys2Proof.Machine
variable {σ : Scope}

theorem State.intoCh_moves {s0 : State} {s : State} (h : Moves σ s0 s) (c : Nat) (x : Crossed) (hs : Scope.within ⟨false, [.chans], []⟩ σ) :
    Moves σ s0 (State.intoCh s c x) := by
  unfold State.intoCh
  repeat' first
    | with_reducible assumption
    | intro _
    | with_reducible apply Moves.ite
    | with_reducible apply State.modChan_moves
    | exact StoresMove.of_eq rfl rfl rfl
    | dsimp only
    | split
    | with_reducible apply Moves.record
    | with_reducible rfl
    | exact hs.2.2 _ (by simp)
    | exact hs.2.1 _ (by decide +kernel)

theorem State.outOfCh_moves {s0 : State} {s : State} (h : Moves σ s0 s) (c : Nat) (x : Crossed) (hs : Scope.within ⟨false, [.chans], []⟩ σ) :
    Moves σ s0 (State.outOfCh s c x) := by
  unfold State.outOfCh
  repeat' first
    | with_reducible assumption
    | intro _
    | with_reducible apply Moves.ite
    | with_reducible apply State.modChan_moves
    | exact StoresMove.of_eq rfl rfl rfl
    | dsimp only
    | split
    | with_reducible apply Moves.record
    | with_reducible rfl
    | exact hs.2.2 _ (by simp)
    | exact hs.2.1 _ (by decide +kernel)

theorem State.logCross_moves {s0 : State} {s : State} (h : Moves σ s0 s) (c : Nat) (dom : Nat) (queue : Nat) (dseq : Nat) (hs : Scope.within ⟨false, [.out, .msix, .recorder], [.rpl]⟩ σ) :
    Moves σ s0 (State.logCross s c dom queue dseq) := by
  unfold State.logCross
  repeat' first
    | with_reducible assumption
    | intro _
    | with_reducible apply Moves.ite
    | with_reducible apply State.logTo_moves
    | with_reducible apply State.modLog_moves
    | with_reducible refine Moves.fstOf (by with_reducible assumption) ?_
    | dsimp only
    | split
    | with_reducible apply Moves.record
    | with_reducible rfl
    | exact hs.2.2 _ (by simp)
    | exact hs.2.1 _ (by decide +kernel)
    | exact Scope.within.trans (by decide +kernel) hs

theorem State.oweIngress_moves {s0 : State} {s : State} (h : Moves σ s0 s) (c : Nat) (m : Moving) (hs : Scope.within ⟨false, [.out, .msix, .xlat, .recorder, .chans], [.hmmu, .ctx, .rpl, .grm, .cmmu, .wst, .cvu, .hbmc, .ring, .eng, .door]⟩ σ) :
    Moves σ s0 (State.oweIngress s c m) := by
  unfold State.oweIngress
  repeat' first
    | with_reducible assumption
    | intro _
    | with_reducible apply Moves.ite
    | with_reducible apply State.modChan_moves
    | with_reducible apply Reading.block_moves
    | with_reducible apply State.modEngine_moves
    | exact StoresMove.of_eq rfl rfl rfl
    | dsimp only
    | split
    | with_reducible apply Moves.record
    | with_reducible rfl
    | exact hs.2.2 _ (by simp)
    | exact hs.2.1 _ (by decide +kernel)
    | exact Scope.within.trans (by decide +kernel) hs

theorem State.releaseHeld_moves {s0 : State} {s : State} (h : Moves σ s0 s) (c : Nat) (m : Moving) (hs : Scope.within ⟨false, [.out, .msix, .xlat, .recorder, .chans], [.hmmu, .ctx, .rpl, .grm, .cmmu, .wst, .cvu, .hbmc, .ring, .eng, .door]⟩ σ) :
    Moves σ s0 (State.releaseHeld s c m) := by
  unfold State.releaseHeld
  repeat' first
    | with_reducible assumption
    | with_reducible apply Moves.ite
    | with_reducible apply Reading.block_moves
    | with_reducible apply State.dropLanding_moves
    | with_reducible refine Moves.fstOf (by with_reducible assumption) ?_
    | dsimp only
    | split
    | with_reducible apply Moves.record
    | with_reducible rfl
    | exact hs.2.2 _ (by simp)
    | exact hs.2.1 _ (by decide +kernel)
    | exact Scope.within.trans (by decide +kernel) hs

theorem State.crossing_moves {s0 s : State} (h : Moves σ s0 s) (q : Crossing) (hs : Scope.within ⟨false, [.out, .msix, .xlat, .recorder, .chans], [.hmmu, .ctx, .rpl, .grm, .cmmu, .wst, .cvu, .hbmc, .ring, .eng, .door]⟩ σ) :
    Moves σ s0 (State.crossing s q) := by
    unfold State.crossing
    repeat' first
      | with_reducible assumption
      | intro _
      | with_reducible apply Moves.ite
      | with_reducible apply State.modChan_moves
      | with_reducible apply Reading.block_moves
      | with_reducible apply State.logCross_moves
      | with_reducible apply State.modRing_moves
      | with_reducible apply State.oweIngress_moves
      | with_reducible apply State.oweUp_moves
      | with_reducible apply State.releaseHeld_moves
      | exact StoresMove.of_eq rfl rfl rfl
      | with_reducible apply Moves.elimSnd
      | with_reducible apply Moves.elim
      | with_reducible apply Moves.elimSndFst
      | with_reducible apply Moves.elimFst
      | with_reducible refine Moves.fstOf (by with_reducible assumption) ?_
      | dsimp only
      | split
      | with_reducible apply Moves.record
      | with_reducible rfl
      | exact hs.2.2 _ (by simp)
      | exact hs.2.1 _ (by decide +kernel)
      | exact Scope.within.trans (by decide +kernel) hs
      | exact .inr (hs.2.1 _ (by decide +kernel))
      | with_reducible exact .inl rfl
      | exact hs.1 rfl

theorem execQueueCrossing_moves {s0 : State} {s : State} (h : Moves σ s0 s) (q : Crossing) (hs : Scope.within ⟨false, [.out, .msix, .xlat, .recorder, .chans], [.hmmu, .ctx, .rpl, .grm, .cmmu, .wst, .cvu, .hbmc, .ring, .eng, .door]⟩ σ) :
    MovesResult σ s0 (execQueueCrossing q s) := by
  unfold execQueueCrossing
  repeat' first
    | with_reducible assumption
    | intro _
    | with_reducible apply Moves.ite
    | with_reducible apply State.crossing_moves
    | with_reducible apply State.recordStall_moves
    | with_reducible apply MovesResult.live
    | with_reducible apply MovesResult.next
    | with_reducible refine Moves.fstOf (by with_reducible assumption) ?_
    | dsimp only
    | split
    | with_reducible apply Moves.record
    | with_reducible rfl
    | exact hs.2.2 _ (by simp)
    | exact hs.2.1 _ (by decide +kernel)
    | exact Scope.within.trans (by decide +kernel) hs

theorem State.relayOut_moves {s0 : State} {s : State} (h : Moves σ s0 s) (c : Nat) (e : Nat) (hs : Scope.within ⟨false, [.out, .msix, .xlat, .recorder, .chans], [.hmmu, .ctx, .rpl, .grm, .cmmu, .wst, .cvu, .hbmc, .ring, .eng, .door]⟩ σ) :
    Moves σ s0 (State.relayOut s c e) := by
  unfold State.relayOut
  repeat' first
    | with_reducible assumption
    | intro _
    | with_reducible apply Moves.ite
    | with_reducible apply State.modChan_moves
    | with_reducible apply Reading.block_moves
    | with_reducible apply State.modEngine_moves
    | with_reducible apply State.outOfCh_moves
    | exact StoresMove.of_eq rfl rfl rfl
    | with_reducible refine Moves.fstOf (by with_reducible assumption) ?_
    | dsimp only
    | split
    | with_reducible apply Moves.record
    | with_reducible rfl
    | exact hs.2.2 _ (by simp)
    | exact hs.2.1 _ (by decide +kernel)
    | exact Scope.within.trans (by decide +kernel) hs

theorem State.hubToCh_moves {s0 : State} {s : State} (h : Moves σ s0 s) (d : Nat) (m : Moving) (hs : Scope.within ⟨false, [.out, .msix, .xlat, .recorder, .chans], [.hmmu, .ctx, .rpl, .grm, .cmmu, .wst, .cvu, .hbmc, .ring, .eng, .door]⟩ σ) :
    Moves σ s0 (State.hubToCh s d m) := by
  unfold State.hubToCh
  repeat' first
    | with_reducible assumption
    | intro _
    | with_reducible apply Moves.ite
    | with_reducible apply State.modChan_moves
    | with_reducible apply Reading.block_moves
    | with_reducible apply State.intoCh_moves
    | exact StoresMove.of_eq rfl rfl rfl
    | with_reducible refine Moves.fstOf (by with_reducible assumption) ?_
    | dsimp only
    | split
    | with_reducible apply Moves.record
    | with_reducible rfl
    | exact hs.2.2 _ (by simp)
    | exact hs.2.1 _ (by decide +kernel)
    | exact Scope.within.trans (by decide +kernel) hs

theorem State.switchOut_moves {s0 : State} {s : State} (h : Moves σ s0 s) (c : Nat) (hs : Scope.within ⟨false, [.out, .msix, .ports, .xlat, .recorder, .chans], [.hmmu, .ctx, .rpl, .ras, .grm, .cmmu, .wst, .cvu, .hbmc, .ring, .eng, .door]⟩ σ) :
    Moves σ s0 (State.switchOut s c) := by
  unfold State.switchOut
  repeat' first
    | with_reducible assumption
    | intro _
    | with_reducible apply Moves.ite
    | with_reducible apply State.modChan_moves
    | with_reducible apply Reading.block_moves
    | with_reducible apply State.ghostDrop_moves
    | with_reducible apply State.hubToCh_moves
    | with_reducible apply State.modRec_moves
    | with_reducible apply State.oweUp_moves
    | with_reducible apply State.toEgress_moves
    | exact StoresMove.of_eq rfl rfl rfl
    | with_reducible refine Moves.fstOf (by with_reducible assumption) ?_
    | dsimp only
    | split
    | with_reducible apply Moves.record
    | with_reducible rfl
    | exact hs.2.2 _ (by simp)
    | exact hs.2.1 _ (by decide +kernel)
    | exact Scope.within.trans (by decide +kernel) hs

theorem State.portOut_moves {s0 : State} {s : State} (h : Moves σ s0 s) (p : PortId) (hs : Scope.within ⟨false, [.out, .msix, .ports, .xlat, .recorder, .chans], [.hmmu, .ctx, .rpl, .grm, .cmmu, .wst, .cvu, .hbmc, .ring, .eng, .door]⟩ σ) :
    Moves σ s0 (State.portOut s p) := by
  unfold State.portOut
  repeat' first
    | with_reducible assumption
    | intro _
    | with_reducible apply Moves.ite
    | with_reducible apply Reading.block_moves
    | with_reducible apply State.hubToCh_moves
    | with_reducible apply State.modPort_moves
    | with_reducible refine Moves.fstOf (by with_reducible assumption) ?_
    | dsimp only
    | split
    | with_reducible apply Moves.record
    | with_reducible rfl
    | exact hs.2.2 _ (by simp)
    | exact hs.2.1 _ (by decide +kernel)
    | exact Scope.within.trans (by decide +kernel) hs

theorem execTandemBlockSend_moves {s0 : State} {s : State} (h : Moves σ s0 s) (h : Hop) (hs : Scope.within ⟨false, [.out, .msix, .ports, .xlat, .recorder, .chans], [.hmmu, .ctx, .rpl, .ras, .grm, .cmmu, .wst, .cvu, .hbmc, .ring, .eng, .door]⟩ σ) :
    MovesResult σ s0 (execTandemBlockSend h s) := by
  unfold execTandemBlockSend
  repeat' first
    | with_reducible assumption
    | intro _
    | with_reducible apply Moves.ite
    | with_reducible apply State.portOut_moves
    | with_reducible apply State.relayOut_moves
    | with_reducible apply State.switchOut_moves
    | with_reducible apply MovesResult.live
    | with_reducible apply MovesResult.next
    | with_reducible refine Moves.fstOf (by with_reducible assumption) ?_
    | dsimp only
    | split
    | with_reducible apply Moves.record
    | with_reducible rfl
    | exact hs.2.2 _ (by simp)
    | exact hs.2.1 _ (by decide +kernel)
    | exact Scope.within.trans (by decide +kernel) hs

theorem State.acceptFor_moves {s0 : State} {s : State} (h : Moves σ s0 s) (c : Nat) (e : Nat) (t : Nat) (hs : Scope.within ⟨false, [.out, .msix, .chans], [.eng]⟩ σ) :
    Moves σ s0 (State.acceptFor s c e t) := by
  unfold State.acceptFor
  repeat' first
    | with_reducible assumption
    | intro _
    | with_reducible apply Moves.ite
    | with_reducible apply State.bump_moves
    | with_reducible apply State.raise_moves
    | with_reducible apply State.ecsDone_moves
    | with_reducible apply State.freeTile_moves
    | with_reducible apply State.modTile_moves
    | dsimp only
    | split
    | with_reducible apply Moves.record
    | with_reducible rfl
    | exact hs.2.2 _ (by simp)
    | exact hs.2.1 _ (by decide +kernel)
    | exact Scope.within.trans (by decide +kernel) hs

theorem execBlockAccepted_moves {s0 : State} {s : State} (h : Moves σ s0 s) (c : Ch) (e : SlotId) (hs : Scope.within ⟨false, [.out, .msix, .chans], [.eng]⟩ σ) :
    MovesResult σ s0 (execBlockAccepted c e s) := by
  unfold execBlockAccepted
  repeat' first
    | with_reducible assumption
    | intro _
    | with_reducible apply Moves.ite
    | with_reducible apply State.acceptFor_moves
    | with_reducible apply State.modEngine_moves
    | with_reducible apply MovesResult.live
    | with_reducible apply MovesResult.next
    | with_reducible refine Moves.fstOf (by with_reducible assumption) ?_
    | dsimp only
    | split
    | with_reducible apply Moves.record
    | with_reducible rfl
    | exact hs.2.2 _ (by simp)
    | exact hs.2.1 _ (by decide +kernel)
    | exact Scope.within.trans (by decide +kernel) hs

theorem State.deliver_moves {s0 : State} {s : State} (h : Moves σ s0 s) (c : Nat) (e : Nat) (t : Nat) (m : Moving) (hs : Scope.within ⟨false, [.chans], []⟩ σ) :
    Moves σ s0 (State.deliver s c e t m) := by
  unfold State.deliver
  repeat' first
    | with_reducible assumption
    | intro _
    | with_reducible apply Moves.ite
    | with_reducible apply State.modEngine_moves

theorem State.land_moves {s0 : State} {s : State} (h : Moves σ s0 s) (c : Nat) (m : Moving) (hs : Scope.within ⟨false, [.out, .msix, .xlat, .recorder, .chans], [.hmmu, .ctx, .rpl, .grm, .cmmu, .wst, .tnd, .cvu, .hbmc, .ring, .eng, .door]⟩ σ) :
    MovesOptSnd σ s0 (State.land s c m) := by
  unfold State.land
  repeat' first
    | with_reducible assumption
    | intro _
    | with_reducible apply Moves.ite
    | with_reducible apply State.modChan_moves
    | with_reducible apply Reading.block_moves
    | with_reducible apply State.takeLanding_moves
    | with_reducible refine Moves.someSndOf (by with_reducible assumption) ?_
    | exact StoresMove.of_eq rfl rfl rfl
    | with_reducible apply MovesOptSnd.none
    | with_reducible apply MovesOptSnd.some
    | with_reducible apply MovesOptSnd.ite
    | with_reducible apply MovesOptSnd.mapSnd
    | with_reducible apply MovesOptSnd.map
    | with_reducible refine Moves.fstOf (by with_reducible assumption) ?_
    | dsimp only
    | split
    | with_reducible apply Moves.record
    | with_reducible rfl
    | exact hs.2.2 _ (by simp)
    | exact hs.2.1 _ (by decide +kernel)

theorem State.landRecorded_moves {s0 : State} {s : State} (h : Moves σ s0 s) (c : Nat) (m : Moving) (hs : Scope.within ⟨false, [.out, .msix, .xlat, .recorder, .chans], [.hmmu, .ctx, .rpl, .grm, .cmmu, .wst, .cvu, .hbmc, .ring, .eng, .door]⟩ σ) :
    MovesOptSnd σ s0 (State.landRecorded s c m) := by
  unfold State.landRecorded
  repeat' first
    | with_reducible assumption
    | intro _
    | with_reducible apply Moves.ite
    | with_reducible apply State.modChan_moves
    | with_reducible apply Reading.block_moves
    | exact StoresMove.of_eq rfl rfl rfl
    | with_reducible apply MovesOptSnd.none
    | with_reducible apply MovesOptSnd.some
    | with_reducible apply MovesOptSnd.ite
    | with_reducible apply MovesOptSnd.bind
    | dsimp only
    | split
    | with_reducible apply Moves.record
    | with_reducible rfl
    | exact hs.2.2 _ (by simp)
    | exact hs.2.1 _ (by decide +kernel)

theorem State.landHere_moves {s0 : State} {s : State} (h : Moves σ s0 s) (c : Nat) (m : Moving) (hs : Scope.within ⟨false, [.out, .msix, .xlat, .recorder, .chans], [.hmmu, .ctx, .rpl, .grm, .cmmu, .wst, .tnd, .cvu, .hbmc, .ring, .eng, .door]⟩ σ) :
    MovesOptSnd σ s0 (State.landHere s c m) := by
  unfold State.landHere
  repeat' first
    | with_reducible assumption
    | intro _
    | with_reducible apply Moves.ite
    | with_reducible apply State.land_moves
    | with_reducible refine Moves.someSndOf (by with_reducible assumption) ?_
    | with_reducible apply State.landRecorded_moves
    | with_reducible refine Moves.someSndOf (by with_reducible assumption) ?_
    | with_reducible apply MovesOptSnd.none
    | with_reducible apply MovesOptSnd.some
    | with_reducible apply MovesOptSnd.ite
    | dsimp only
    | split
    | with_reducible apply Moves.record
    | with_reducible rfl
    | exact hs.2.2 _ (by simp)
    | exact hs.2.1 _ (by decide +kernel)
    | exact Scope.within.trans (by decide +kernel) hs

theorem State.arrive_moves {s0 : State} {s : State} (h : Moves σ s0 s) (c : Nat) (m : Moving) (hs : Scope.within ⟨false, [.out, .msix, .xlat, .recorder, .chans], [.hmmu, .ctx, .rpl, .ras, .grm, .cmmu, .wst, .tnd, .cvu, .hbmc, .ring, .eng, .door]⟩ σ) :
    MovesOpt σ s0 (State.arrive s c m) := by
  unfold State.arrive
  repeat' first
    | with_reducible assumption
    | intro _
    | with_reducible apply Moves.ite
    | with_reducible apply State.bump_moves
    | with_reducible apply State.modChan_moves
    | with_reducible apply Reading.block_moves
    | with_reducible apply State.deliver_moves
    | with_reducible apply State.ghostDrop_moves
    | with_reducible apply State.landHere_moves
    | with_reducible refine Moves.someSndOf (by with_reducible assumption) ?_
    | with_reducible apply State.logDec_moves
    | with_reducible apply State.logInput_moves
    | with_reducible apply State.oweIngress_moves
    | with_reducible apply State.releaseHeld_moves
    | exact StoresMove.of_eq rfl rfl rfl
    | with_reducible apply MovesOpt.none
    | with_reducible apply MovesOpt.some
    | with_reducible apply MovesOpt.ite
    | with_reducible apply MovesOpt.mapSnd
    | with_reducible apply MovesOpt.map
    | with_reducible refine Moves.fstOf (by with_reducible assumption) ?_
    | dsimp only
    | split
    | with_reducible apply Moves.record
    | with_reducible rfl
    | exact hs.2.2 _ (by simp)
    | exact hs.2.1 _ (by decide +kernel)
    | exact Scope.within.trans (by decide +kernel) hs

theorem State.arriveFirst_moves {s0 : State} {s : State} (h : Moves σ s0 s) (c : Nat) (hs : Scope.within ⟨false, [.out, .msix, .xlat, .recorder, .chans], [.hmmu, .ctx, .rpl, .ras, .grm, .cmmu, .wst, .tnd, .cvu, .hbmc, .ring, .eng, .door]⟩ σ) :
    MovesOpt σ s0 (State.arriveFirst s c) := by
  unfold State.arriveFirst
  repeat' first
    | with_reducible assumption
    | intro _
    | with_reducible apply Moves.ite
    | with_reducible apply State.arrive_moves
    | with_reducible refine Moves.someOf (by with_reducible assumption) ?_
    | with_reducible apply MovesOpt.none
    | with_reducible apply MovesOpt.some
    | with_reducible apply MovesOpt.ite
    | with_reducible apply MovesOpt.findSome

theorem execTandemIngressArrival_moves {s0 : State} {s : State} (h : Moves σ s0 s) (c : Ch) (hs : Scope.within ⟨false, [.out, .msix, .xlat, .recorder, .chans], [.hmmu, .ctx, .rpl, .ras, .grm, .cmmu, .wst, .tnd, .cvu, .hbmc, .ring, .eng, .door]⟩ σ) :
    MovesResult σ s0 (execTandemIngressArrival c s) := by
  unfold execTandemIngressArrival
  repeat' first
    | with_reducible assumption
    | intro _
    | with_reducible apply Moves.ite
    | with_reducible apply State.arriveFirst_moves
    | with_reducible refine Moves.someOf (by with_reducible assumption) ?_
    | with_reducible apply State.recordStall_moves
    | with_reducible apply MovesResult.live
    | with_reducible apply MovesResult.next
    | with_reducible apply MovesOpt.getD
    | dsimp only
    | split
    | with_reducible apply Moves.record
    | with_reducible rfl
    | exact hs.2.2 _ (by simp)
    | exact hs.2.1 _ (by decide +kernel)
    | exact Scope.within.trans (by decide +kernel) hs

theorem execLandedBlockMove_moves {s0 : State} {s : State} (h : Moves σ s0 s) (c : Ch) (e : SlotId) (hs : Scope.within ⟨false, [.out, .msix, .xlat, .recorder, .chans], [.hmmu, .ctx, .rpl, .ras, .grm, .cmmu, .wst, .cvu, .hbmc, .ring, .eng, .door]⟩ σ) :
    MovesResult σ s0 (execLandedBlockMove c e s) := by
  unfold execLandedBlockMove
  repeat' first
    | with_reducible assumption
    | intro _
    | with_reducible apply Moves.ite
    | with_reducible apply Reading.block_moves
    | with_reducible apply State.deliver_moves
    | with_reducible apply State.dropLanding_moves
    | with_reducible apply State.ghostDrop_moves
    | with_reducible apply State.logDec_moves
    | with_reducible apply MovesResult.live
    | with_reducible apply MovesResult.next
    | with_reducible refine Moves.fstOf (by with_reducible assumption) ?_
    | dsimp only
    | split
    | with_reducible apply Moves.record
    | with_reducible rfl
    | exact hs.2.2 _ (by simp)
    | exact hs.2.1 _ (by decide +kernel)
    | exact Scope.within.trans (by decide +kernel) hs

theorem State.sendFolded_moves {s0 : State} {s : State} (h : Moves σ s0 s) (c : Nat) (e : Nat) (t : Nat) (j : Nat) (k : EngCmd) (geo : EngCmd) (hs : Scope.within ⟨false, [.out, .drawn, .msix, .xlat, .recorder, .chans], [.hmmu, .ctx, .rpl, .grm, .cmmu, .wst, .cvu, .hbmc, .ring, .eng, .door]⟩ σ) :
    Moves σ s0 (State.sendFolded s c e t j k geo) := by
  unfold State.sendFolded
  repeat' first
    | with_reducible assumption
    | intro _
    | with_reducible apply Moves.ite
    | with_reducible apply State.modTile_moves
    | with_reducible apply State.sendBlock_moves
    | dsimp only
    | split
    | with_reducible apply Moves.record
    | with_reducible rfl
    | exact hs.2.2 _ (by simp)
    | exact hs.2.1 _ (by decide +kernel)
    | exact Scope.within.trans (by decide +kernel) hs

theorem State.tailEnd_moves {s0 : State} {s : State} (h : Moves σ s0 s) (c : Nat) (e : Nat) (t : Nat) (hs : Scope.within ⟨false, [.chans], []⟩ σ) :
    Moves σ s0 (State.tailEnd s c e t) := by
  unfold State.tailEnd
  repeat' first
    | with_reducible assumption
    | intro _
    | with_reducible apply Moves.ite
    | with_reducible apply State.endOrContinue_moves
    | with_reducible apply State.modTile_moves
    | with_reducible apply State.stampTile_moves

theorem State.foldInto_moves {s0 : State} {s : State} (h : Moves σ s0 s) (c : Nat) (e : Nat) (t : Nat) (m : Moving) (hs : Scope.within ⟨false, [.out, .drawn, .msix, .xlat, .recorder, .chans], [.hmmu, .ctx, .rpl, .grm, .cmmu, .wst, .tnd, .cvu, .hbmc, .ring, .eng, .door]⟩ σ) :
    Moves σ s0 (State.foldInto s c e t m) := by
  unfold State.foldInto
  repeat' first
    | with_reducible assumption
    | intro _
    | with_reducible apply Moves.ite
    | with_reducible apply State.bump_moves
    | with_reducible apply State.raise_moves
    | with_reducible apply Reading.block_moves
    | with_reducible apply State.loseTile_moves
    | with_reducible apply State.modTile_moves
    | with_reducible apply State.sendFolded_moves
    | with_reducible apply State.tailEnd_moves
    | with_reducible exact Memory.lose_wf _ _ (by assumption)
    | with_reducible refine Moves.fstOf (by with_reducible assumption) ?_
    | dsimp only
    | split
    | with_reducible apply Moves.record
    | with_reducible rfl
    | exact hs.2.2 _ (by simp)
    | exact hs.2.1 _ (by decide +kernel)
    | exact Scope.within.trans (by decide +kernel) hs

theorem execBlockFold_moves {s0 : State} {s : State} (h : Moves σ s0 s) (c : Ch) (e : SlotId) (hs : Scope.within ⟨false, [.out, .drawn, .msix, .xlat, .recorder, .chans], [.hmmu, .ctx, .rpl, .ras, .grm, .cmmu, .wst, .tnd, .cvu, .hbmc, .ring, .eng, .door]⟩ σ) :
    MovesResult σ s0 (execBlockFold c e s) := by
  unfold execBlockFold
  repeat' first
    | with_reducible assumption
    | intro _
    | with_reducible apply Moves.ite
    | with_reducible apply State.bump_moves
    | with_reducible apply State.raise_moves
    | with_reducible apply Reading.block_moves
    | with_reducible apply State.foldInto_moves
    | with_reducible apply State.ghostDrop_moves
    | with_reducible apply State.modEngine_moves
    | with_reducible apply MovesResult.live
    | with_reducible apply MovesResult.next
    | with_reducible refine Moves.fstOf (by with_reducible assumption) ?_
    | dsimp only
    | split
    | with_reducible apply Moves.record
    | with_reducible rfl
    | exact hs.2.2 _ (by simp)
    | exact hs.2.1 _ (by decide +kernel)
    | exact Scope.within.trans (by decide +kernel) hs

theorem execLandingSpill_moves {s0 : State} {s : State} (h : Moves σ s0 s) (c : Ch) (entry : Fin 128) (hs : Scope.within ⟨false, [.out, .drawn, .msix, .xlat, .recorder, .chans], [.hmmu, .ctx, .rpl, .grm, .cmmu, .wst, .cvu, .hbmc, .ring, .eng, .door]⟩ σ) :
    MovesResult σ s0 (execLandingSpill c entry s) := by
  unfold execLandingSpill
  repeat' first
    | with_reducible assumption
    | intro _
    | with_reducible apply Moves.ite
    | with_reducible apply State.modChan_moves
    | with_reducible apply State.draw_moves
    | with_reducible apply Reading.block_moves
    | exact StoresMove.of_eq rfl rfl rfl
    | with_reducible apply MovesResult.live
    | with_reducible apply MovesResult.next
    | with_reducible refine Moves.fstOf (by with_reducible assumption) ?_
    | dsimp only
    | split
    | with_reducible apply Moves.record
    | with_reducible rfl
    | exact hs.2.2 _ (by simp)
    | exact hs.2.1 _ (by decide +kernel)

theorem execLandingSpillDone_moves {s0 : State} {s : State} (h : Moves σ s0 s) (c : Ch) (entry : Fin 128) (hs : Scope.within ⟨true, [.out, .drawn, .msix, .xlat, .recorder, .chans], [.hmmu, .ctx, .rpl, .grm, .cmmu, .wst, .tnd, .cvu, .hbmc, .ring, .eng, .door]⟩ σ) :
    MovesResult σ s0 (execLandingSpillDone c entry s) := by
  unfold execLandingSpillDone
  repeat' first
    | with_reducible assumption
    | intro _
    | with_reducible apply Moves.ite
    | with_reducible apply State.bump_moves
    | with_reducible apply State.raise_moves
    | with_reducible apply State.modChan_moves
    | with_reducible apply Reading.block_moves
    | with_reducible apply State.dropLanding_moves
    | with_reducible apply State.sealVa_moves
    | exact StoresMove.of_eq rfl rfl rfl
    | with_reducible apply MovesResult.live
    | with_reducible apply MovesResult.next
    | with_reducible refine Moves.fstOf (by with_reducible assumption) ?_
    | dsimp only
    | split
    | with_reducible apply Moves.record
    | with_reducible rfl
    | exact hs.2.2 _ (by simp)
    | exact hs.2.1 _ (by decide +kernel)
    | exact Scope.within.trans (by decide +kernel) hs

theorem State.backCredit_moves {s0 : State} {s : State} (h : Moves σ s0 s) (c : Nat) (cls : Nat) (k : HopCredit) (put : HopCredit → State → State) (hs : Scope.within ⟨false, [.out, .msix, .xlat, .recorder, .chans], [.hmmu, .ctx, .rpl, .grm, .cmmu, .wst, .tnd, .cvu, .hbmc, .ring, .eng, .door]⟩ σ) (h_put : ∀ x0 u, Moves σ s0 u → Moves σ s0 (put x0 u)) :
    Moves σ s0 (State.backCredit s c cls k put) := by
  unfold State.backCredit
  repeat' first
    | with_reducible assumption
    | with_reducible apply Moves.ite
    | with_reducible apply h_put
    | with_reducible apply State.takeLanding_moves
    | with_reducible refine Moves.someSndOf (by with_reducible assumption) ?_
    | with_reducible refine Moves.fstOf (by with_reducible assumption) ?_
    | dsimp only
    | split

theorem execCreditReturn_moves {s0 : State} {s : State} (h : Moves σ s0 s) (q : CreditQueue) (hs : Scope.within ⟨false, [.out, .msix, .xlat, .recorder, .chans], [.hmmu, .ctx, .rpl, .grm, .cmmu, .wst, .tnd, .cvu, .hbmc, .ring, .eng, .door]⟩ σ) :
    MovesResult σ s0 (execCreditReturn q s) := by
  unfold execCreditReturn
  repeat' first
    | with_reducible assumption
    | intro _
    | with_reducible apply Moves.ite
    | with_reducible apply State.modChan_moves
    | with_reducible apply State.backCredit_moves
    | with_reducible apply State.modEngine_moves
    | with_reducible apply State.modRing_moves
    | exact StoresMove.of_eq rfl rfl rfl
    | with_reducible apply MovesResult.live
    | with_reducible apply MovesResult.next
    | with_reducible refine Moves.fstOf (by with_reducible assumption) ?_
    | dsimp only
    | split
    | with_reducible apply Moves.record
    | with_reducible rfl
    | exact hs.2.2 _ (by simp)
    | exact hs.2.1 _ (by decide +kernel)
    | exact Scope.within.trans (by decide +kernel) hs

end Sys2Proof.Machine
end

