-- ==== Sys2Proof/Laws/MovesCvu.lean ====
section
/-! SUPPORT. What the functions of Machine/Cvu.lean can do to a state: each keeps the queue and the
canonical form of the stores, only adds to the output and keeps the registers 32 bits wide (`Moves`). -/

set_option Elab.async false

namespace Sys2Proof.Machine
variable {σ : Scope}

theorem State.cvuRead_moves {s0 s : State} (h : Moves σ s0 s) (c : Ch) (r : CvuRun) (ext : List Byte) (hs : Scope.within ⟨false, [.out, .msix, .xlat, .recorder], [.hmmu, .ctx, .rpl, .grm, .cmmu, .wst, .cvu, .hbmc, .ring, .eng, .door]⟩ σ) :
    Moves σ s0 (s.cvuRead c r ext).1 := by
  unfold State.cvuRead
  dsimp only
  have h1 := Reading.blocks_moves (r := { s := s, got := r.got, heads := r.heads, ext := ext }) h (cvuAccess c r.cmd)
    (windowOf r.cmd.descs) r.cmd.uid 0
    ((((cvuRows r.cmd (r.block / cvuBlocks r.cmd)).flatMap (·.2)).filterMap (blockOf (windowOf r.cmd.descs))).dedup)
    (.trans (by decide +kernel) hs)
  revert h1
  generalize List.foldl (fun g bp => Reading.block g (cvuAccess c r.cmd) (windowOf r.cmd.descs) r.cmd.uid 0 bp) _ _ = g
  intro h1
  split
  · exact h1
  · have h2 (a : MemAccess) (n : Nat) (m : Moved) (x : List Byte) : Moves σ s0 (g.s.readOn a hbmWeight n m x).1 :=
      State.readOn_moves h1 _ _ _ _ _ (.trans (by decide +kernel) hs)
    split
    · exact h2 _ _ _ _
    · split
      · exact h2 _ _ _ _
      · exact State.readOn_moves (h2 _ _ _ _) _ _ _ _ _ (.trans (by decide +kernel) hs)

theorem State.modCvu_moves {s0 : State} {s : State} (h : Moves σ s0 s) (c : Nat) (f : Cvu → Cvu) (hs : Scope.within ⟨false, [.chans], []⟩ σ) :
    Moves σ s0 (State.modCvu s c f) := by
  unfold State.modCvu
  repeat' first
    | with_reducible assumption
    | intro _
    | with_reducible apply Moves.ite
    | with_reducible apply State.modChan_moves
    | exact StoresMove.of_eq rfl rfl rfl
    | dsimp only
    | split
    | with_reducible apply Moves.record
    | with_reducible rfl
    | exact hs.2.2 _ (by simp)
    | exact hs.2.1 _ (by decide +kernel)

theorem State.cvuEnd_moves {s0 : State} {s : State} (h : Moves σ s0 s) (c : Nat) (k : EngCmd) (status : Nat) (hs : Scope.within ⟨false, [.chans], [.cvu]⟩ σ) :
    Moves σ s0 (State.cvuEnd s c k status) := by
  unfold State.cvuEnd
  repeat' first
    | with_reducible assumption
    | intro _
    | with_reducible apply Moves.ite
    | with_reducible apply State.wr_moves
    | with_reducible apply State.ecDone_moves
    | with_reducible apply State.modCvu_moves
    | dsimp only
    | split
    | with_reducible apply Moves.record
    | with_reducible rfl
    | exact hs.2.2 _ (by simp)
    | exact hs.2.1 _ (by decide +kernel)
    | exact Scope.within.trans (by decide +kernel) hs

theorem execCvuCommandStart_moves {s0 : State} {s : State} (h : Moves σ s0 s) (c : Ch) (hs : Scope.within ⟨false, [.chans], [.cvu]⟩ σ) :
    MovesResult σ s0 (execCvuCommandStart c s) := by
  unfold execCvuCommandStart
  repeat' first
    | with_reducible assumption
    | intro _
    | with_reducible apply Moves.ite
    | with_reducible apply State.wr_moves
    | with_reducible apply State.modCvu_moves
    | with_reducible apply MovesResult.live
    | with_reducible apply MovesResult.next
    | with_reducible refine Moves.fstOf (by with_reducible assumption) ?_
    | dsimp only
    | split
    | with_reducible apply Moves.record
    | with_reducible rfl
    | exact hs.2.2 _ (by simp)
    | exact hs.2.1 _ (by decide +kernel)
    | exact Scope.within.trans (by decide +kernel) hs

theorem State.cvuStrike_moves {s0 : State} {s : State} (h : Moves σ s0 s) (c : Nat) (hs : Scope.within ⟨false, [.out, .msix, .recorder, .chans], [.rpl]⟩ σ) :
    Moves σ s0 (State.cvuStrike s c) := by
  unfold State.cvuStrike
  repeat' first
    | with_reducible assumption
    | intro _
    | with_reducible apply Moves.ite
    | with_reducible apply State.modChan_moves
    | with_reducible apply State.modCvu_moves
    | with_reducible apply State.upset_moves
    | exact StoresMove.of_eq rfl rfl rfl
    | assumption
    | dsimp only
    | split
    | with_reducible apply Moves.record
    | with_reducible rfl
    | exact hs.2.2 _ (by simp)
    | exact hs.2.1 _ (by decide +kernel)
    | exact Scope.within.trans (by decide +kernel) hs

theorem State.cvuMismatch_moves {s0 : State} {s : State} (h : Moves σ s0 s) (c : Ch) (r : CvuRun) (hs : Scope.within ⟨false, [.out, .msix, .xlat, .recorder, .chans], [.hmmu, .ctx, .rpl, .grm, .cmmu, .wst, .cvu, .hbmc, .ring, .eng, .door]⟩ σ) :
    Moves σ s0 (State.cvuMismatch s c r) := by
  unfold State.cvuMismatch
  repeat' first
    | with_reducible assumption
    | intro _
    | with_reducible apply Moves.ite
    | with_reducible apply State.bump_moves
    | with_reducible apply State.raise_moves
    | with_reducible apply Reading.block_moves
    | with_reducible apply State.cvuStrike_moves
    | with_reducible apply State.logOut_moves
    | with_reducible apply State.modCvu_moves
    | with_reducible refine Moves.fstOf (by with_reducible assumption) ?_
    | dsimp only
    | split
    | with_reducible apply Moves.record
    | with_reducible rfl
    | exact hs.2.2 _ (by simp)
    | exact hs.2.1 _ (by decide +kernel)
    | exact Scope.within.trans (by decide +kernel) hs

theorem State.cvuForm_moves {s0 : State} {s : State} (h : Moves σ s0 s) (c : Ch) (r : CvuRun) (mismatch : Bool) (hs : Scope.within ⟨false, [.out, .msix, .xlat, .recorder, .chans], [.hmmu, .ctx, .rpl, .grm, .cmmu, .wst, .cvu, .hbmc, .ring, .eng, .door]⟩ σ) :
    Moves σ s0 (State.cvuForm s c r mismatch) := by
  unfold State.cvuForm
  repeat' first
    | with_reducible assumption
    | intro _
    | with_reducible apply Moves.ite
    | with_reducible apply State.wrap_moves
    | with_reducible apply State.modChan_moves
    | with_reducible apply Reading.block_moves
    | with_reducible apply State.active_moves
    | with_reducible apply State.cvuMismatch_moves
    | with_reducible apply State.modCvu_moves
    | exact StoresMove.of_eq rfl rfl rfl
    | with_reducible refine Moves.fstOf (by with_reducible assumption) ?_
    | dsimp only
    | split
    | with_reducible apply Moves.record
    | with_reducible rfl
    | exact hs.2.2 _ (by simp)
    | exact hs.2.1 _ (by decide +kernel)
    | exact Scope.within.trans (by decide +kernel) hs

theorem State.cvuWrite_moves {s0 : State} {s : State} (h : Moves σ s0 s) (c : Ch) (hs : Scope.within ⟨true, [.out, .msix, .xlat, .recorder, .chans], [.hmmu, .ctx, .rpl, .grm, .cmmu, .wst, .cvu, .hbmc, .ring, .eng, .door]⟩ σ) :
    Moves σ s0 (State.cvuWrite s c) := by
  unfold State.cvuWrite
  repeat' first
    | with_reducible assumption
    | intro _
    | with_reducible apply Moves.ite
    | with_reducible apply Reading.block_moves
    | with_reducible apply State.modCvu_moves
    | with_reducible apply State.writeOut_moves
    | with_reducible refine Moves.fstOf (by with_reducible assumption) ?_
    | dsimp only
    | split
    | with_reducible apply Moves.record
    | with_reducible rfl
    | exact hs.2.2 _ (by simp)
    | exact hs.2.1 _ (by decide +kernel)
    | exact Scope.within.trans (by decide +kernel) hs

theorem execCvuBlockComplete_moves {s0 : State} {s : State} (h : Moves σ s0 s) (c : Ch) (mismatch : Bool) (ext : List Byte) (hs : Scope.within ⟨true, [.out, .msix, .xlat, .recorder, .chans], [.hmmu, .ctx, .rpl, .grm, .cmmu, .wst, .cvu, .hbmc, .ring, .eng, .door]⟩ σ) :
    MovesResult σ s0 (execCvuBlockComplete c mismatch ext s) := by
  unfold execCvuBlockComplete
  repeat' first
    | with_reducible assumption
    | intro _
    | with_reducible apply Moves.ite
    | with_reducible apply Reading.block_moves
    | with_reducible apply State.cvuEnd_moves
    | with_reducible apply State.cvuForm_moves
    | with_reducible apply State.cvuRead_moves
    | with_reducible apply State.cvuWrite_moves
    | with_reducible apply State.metPoison_moves
    | with_reducible apply State.modCvu_moves
    | with_reducible apply State.recordStall_moves
    | with_reducible apply MovesResult.live
    | with_reducible apply MovesResult.next
    | with_reducible refine Moves.fstOf (by with_reducible assumption) ?_
    | dsimp only
    | split
    | with_reducible apply Moves.record
    | with_reducible rfl
    | exact hs.2.2 _ (by simp)
    | exact hs.2.1 _ (by decide +kernel)
    | exact Scope.within.trans (by decide +kernel) hs

theorem execCvuCommandComplete_moves {s0 : State} {s : State} (h : Moves σ s0 s) (c : Ch) (hs : Scope.within ⟨true, [.out, .msix, .xlat, .recorder, .chans], [.hmmu, .ctx, .rpl, .grm, .cmmu, .wst, .cvu, .hbmc, .ring, .eng, .door]⟩ σ) :
    MovesResult σ s0 (execCvuCommandComplete c s) := by
  unfold execCvuCommandComplete
  repeat' first
    | with_reducible assumption
    | intro _
    | with_reducible apply Moves.ite
    | with_reducible apply State.bump_moves
    | with_reducible apply Reading.block_moves
    | with_reducible apply State.cvuEnd_moves
    | with_reducible apply State.writeVa_moves
    | with_reducible apply MovesResult.live
    | with_reducible apply MovesResult.next
    | with_reducible refine Moves.fstOf (by with_reducible assumption) ?_
    | dsimp only
    | split
    | with_reducible apply Moves.record
    | with_reducible rfl
    | exact hs.2.2 _ (by simp)
    | exact hs.2.1 _ (by decide +kernel)
    | exact Scope.within.trans (by decide +kernel) hs

end Sys2Proof.Machine
end

