-- ==== Sys2Proof/Laws/MovesPages.lean ====
section
/-! SUPPORT. What the functions of Machine/Pages.lean can do to a state: each keeps the queue and the
canonical form of the stores, only adds to the output and keeps the registers 32 bits wide (`Moves`). -/

set_option Elab.async false

namespace Sys2Proof.Machine
variable {σ : Scope}

theorem State.modStream_moves {s0 : State} {s : State} (h : Moves σ s0 s) (n : Nat) (f : StreamRec → StreamRec) (hs : Scope.within ⟨false, [.streams], []⟩ σ) :
    Moves σ s0 (State.modStream s n f) := by
  unfold State.modStream
  repeat' first
    | with_reducible assumption
    | with_reducible apply Moves.ite
    | dsimp only
    | split
    | with_reducible apply Moves.record
    | with_reducible rfl
    | exact hs.2.2 _ (by simp)
    | exact hs.2.1 _ (by decide +kernel)
    | exact Scope.within.trans (by decide +kernel) hs
    | exact .inr (hs.2.1 _ (by decide +kernel))
    | with_reducible exact .inl rfl

theorem State.windowStart_moves {s0 : State} {s : State} (h : Moves σ s0 s) (m : Master) (p : Page) (job : FarrierJob) (run : State → State) (hs : Scope.within ⟨false, [.dev], []⟩ σ) (hp2 : pageKind p ∈ σ.kinds) (h_run : ∀ u, Moves σ s0 u → Moves σ s0 (run u)) :
    Moves σ s0 (State.windowStart s m p job run) := by
  unfold State.windowStart
  repeat' first
    | with_reducible assumption
    | intro _
    | with_reducible apply Moves.ite
    | with_reducible apply State.wr_moves
    | with_reducible apply h_run
    | with_reducible apply State.modDev_moves

theorem State.windowDone_moves {s0 : State} {s : State} (h : Moves σ s0 s) (p : Page) (status : Nat) (hs : Scope.within ⟨false, [.out, .msix], []⟩ σ) (hp1 : pageKind p ∈ σ.kinds) :
    Moves σ s0 (State.windowDone s p status) := by
  unfold State.windowDone
  repeat' first
    | with_reducible assumption
    | with_reducible apply Moves.ite
    | with_reducible apply State.wr_moves
    | with_reducible apply State.raise_moves
    | dsimp only
    | split
    | with_reducible apply Moves.record
    | with_reducible rfl
    | exact hs.2.2 _ (by simp)
    | exact hs.2.1 _ (by decide +kernel)

theorem State.setWindowData_moves {s0 : State} {s : State} (h : Moves σ s0 s) (p : Page) (v : Nat) (hs : Scope.within ⟨false, [], []⟩ σ) (hp1 : pageKind p ∈ σ.kinds) :
    Moves σ s0 (State.setWindowData s p v) := by
  unfold State.setWindowData
  repeat' first
    | with_reducible assumption
    | intro _
    | with_reducible apply Moves.ite
    | with_reducible apply State.wr_moves
    | with_reducible apply Moves.fold

theorem State.modPage_moves {s0 : State} {s : State} (h : Moves σ s0 s) (c : Nat) (n : Nat) (i : Nat) (f : StatePage → StatePage) (hs : Scope.within ⟨false, [.chans], []⟩ σ) :
    Moves σ s0 (State.modPage s c n i f) := by
  unfold State.modPage
  repeat' first
    | with_reducible assumption
    | intro _
    | with_reducible apply Moves.ite
    | with_reducible apply State.modChan_moves
    | with_reducible exact Channel.putPage_stores _
    | exact StoresMove.of_eq rfl rfl rfl
    | with_reducible exact Memory.put_wf _ _ (by assumption)
    | dsimp only
    | split
    | with_reducible apply Moves.record
    | with_reducible rfl
    | exact hs.2.2 _ (by simp)
    | exact hs.2.1 _ (by decide +kernel)

theorem State.evict_moves {s0 : State} {s : State} (h : Moves σ s0 s) (c : Nat) (p : StatePage) (hs : Scope.within ⟨false, [.out, .msix, .recorder, .chans], [.rpl]⟩ σ) :
    Moves σ s0 (State.evict s c p) := by
  unfold State.evict
  repeat' first
    | with_reducible assumption
    | intro _
    | with_reducible apply Moves.ite
    | with_reducible apply State.modChan_moves
    | with_reducible apply State.logDec_moves
    | with_reducible exact Channel.putPage_stores _
    | exact StoresMove.of_eq rfl rfl rfl
    | with_reducible exact Memory.put_wf _ _ (by assumption)
    | dsimp only
    | split
    | with_reducible apply Moves.record
    | with_reducible rfl
    | exact hs.2.2 _ (by simp)
    | exact hs.2.1 _ (by decide +kernel)
    | exact Scope.within.trans (by decide +kernel) hs

theorem State.makeFrames_moves {s0 s : State} (h : Moves σ s0 s) (c n : Nat) (k : EngCmd) (fuel : Nat) (hs : Scope.within ⟨false, [.out, .msix, .recorder, .chans], [.rpl]⟩ σ) :
    Moves σ s0 (State.makeFrames c n k fuel s) := by
  induction fuel generalizing s with
  | zero => exact h
  | succ m ih =>
    unfold State.makeFrames
    repeat' first
      | with_reducible assumption
      | intro _
      | with_reducible apply Moves.ite
      | with_reducible apply ih
      | with_reducible apply State.evict_moves
      | with_reducible refine Moves.fstOf (by with_reducible assumption) ?_
      | dsimp only
      | split
      | with_reducible rfl
      | exact hs.2.2 _ (by simp)
      | exact hs.2.1 _ (by decide +kernel)
      | exact Scope.within.trans (by decide +kernel) hs
      | exact .inr (hs.2.1 _ (by decide +kernel))
      | with_reducible exact .inl rfl
      | exact hs.1 rfl

theorem State.startPage_moves {s0 : State} {s : State} (h : Moves σ s0 s) (c : Nat) (n : Nat) (acc : List Nat) (i : Nat) (hs : Scope.within ⟨false, [.chans], []⟩ σ) :
    Moves σ s0 (State.startPage s c n acc i).1 := by
  unfold State.startPage
  repeat' first
    | with_reducible assumption
    | intro _
    | with_reducible apply Moves.ite
    | with_reducible apply State.modChan_moves
    | with_reducible exact Channel.putPage_stores _
    | exact StoresMove.of_eq rfl rfl rfl
    | with_reducible apply Moves.iteFst
    | with_reducible exact Memory.put_wf _ _ (by assumption)
    | dsimp only
    | split
    | with_reducible apply Moves.record
    | with_reducible rfl
    | exact hs.2.2 _ (by simp)
    | exact hs.2.1 _ (by decide +kernel)

theorem State.recall_moves {s0 : State} {s : State} (h : Moves σ s0 s) (c : Nat) (k : EngCmd) (hs : Scope.within ⟨false, [.chans], []⟩ σ) :
    Moves σ s0 (State.recall s c k) := by
  unfold State.recall
  repeat' first
    | with_reducible assumption
    | intro _
    | with_reducible apply Moves.ite
    | with_reducible apply State.modChan_moves
    | with_reducible exact Channel.putPage_stores _
    | exact StoresMove.of_eq rfl rfl rfl
    | with_reducible apply Moves.fold
    | with_reducible apply Moves.foldPair
    | with_reducible exact Memory.put_wf _ _ (by assumption)
    | dsimp only
    | split
    | with_reducible apply Moves.record
    | with_reducible rfl
    | exact hs.2.2 _ (by simp)
    | exact hs.2.1 _ (by decide +kernel)

theorem State.serve_moves {s0 s : State} (h : Moves σ s0 s) (c : Nat) (k : EngCmd) (hs : Scope.within ⟨false, [.out, .msix, .recorder, .chans], [.rpl]⟩ σ) :
    Moves σ s0 (s.serve c k).1 := by
  unfold State.serve
  dsimp only
  have h1 (n m : Nat) := State.makeFrames_moves h c n k m (.trans (by decide +kernel) hs)
  refine Moves.iteFst (h1 _ _) (Moves.foldPair (h1 _ _) fun u i hu => ?_)
  exact State.startPage_moves hu _ _ _ _ (.trans (by decide +kernel) hs)

theorem State.serveAll_moves {s0 s : State} (h : Moves σ s0 s) (c : Nat) (ks : List EngCmd) (hs : Scope.within ⟨false, [.out, .msix, .recorder, .chans], [.rpl]⟩ σ) :
    Moves σ s0 (State.serveAll c ks s) := by
  induction ks generalizing s with
  | nil => exact h
  | cons k ks ih =>
    unfold State.serveAll
    repeat' first
      | with_reducible assumption
      | with_reducible apply Moves.ite
      | with_reducible apply ih
      | with_reducible apply State.serve_moves
      | with_reducible refine Moves.fstOf (by with_reducible assumption) ?_
      | dsimp only
      | split
      | with_reducible rfl
      | exact hs.2.2 _ (by simp)
      | exact hs.2.1 _ (by decide +kernel)
      | exact Scope.within.trans (by decide +kernel) hs
      | exact .inr (hs.2.1 _ (by decide +kernel))
      | with_reducible exact .inl rfl
      | exact hs.1 rfl

theorem State.startCopies_moves {s0 : State} {s : State} (h : Moves σ s0 s) (c : Nat) (hs : Scope.within ⟨false, [.chans], []⟩ σ) :
    Moves σ s0 (State.startCopies s c) := by
  unfold State.startCopies
  repeat' first
    | with_reducible assumption
    | intro _
    | with_reducible apply Moves.ite
    | with_reducible apply State.modChan_moves
    | with_reducible exact Channel.putPage_stores _
    | exact StoresMove.of_eq rfl rfl rfl
    | with_reducible apply Moves.fold
    | with_reducible apply Moves.foldPair
    | with_reducible exact Memory.put_wf _ _ (by assumption)
    | dsimp only
    | split
    | with_reducible apply Moves.record
    | with_reducible rfl
    | exact hs.2.2 _ (by simp)
    | exact hs.2.1 _ (by decide +kernel)

theorem State.pin_moves {s0 : State} {s : State} (h : Moves σ s0 s) (c : Nat) (k : EngCmd) (hs : Scope.within ⟨false, [.chans], []⟩ σ) :
    Moves σ s0 (State.pin s c k) := by
  unfold State.pin
  repeat' first
    | with_reducible assumption
    | intro _
    | with_reducible apply Moves.ite
    | with_reducible apply State.modChan_moves
    | with_reducible apply State.modPage_moves
    | exact StoresMove.of_eq rfl rfl rfl
    | with_reducible apply Moves.fold
    | with_reducible apply Moves.foldPair
    | dsimp only
    | split
    | with_reducible apply Moves.record
    | with_reducible rfl
    | exact hs.2.2 _ (by simp)
    | exact hs.2.1 _ (by decide +kernel)

theorem State.unpin_moves {s0 : State} {s : State} (h : Moves σ s0 s) (c : Nat) (k : EngCmd) (hs : Scope.within ⟨false, [.chans], []⟩ σ) :
    Moves σ s0 (State.unpin s c k) := by
  unfold State.unpin
  repeat' first
    | with_reducible assumption
    | intro _
    | with_reducible apply Moves.ite
    | with_reducible apply State.modChan_moves
    | exact StoresMove.of_eq rfl rfl rfl
    | dsimp only
    | split
    | with_reducible apply Moves.record
    | with_reducible rfl
    | exact hs.2.2 _ (by simp)
    | exact hs.2.1 _ (by decide +kernel)

theorem State.releaseEntry_moves {s0 : State} {s : State} (h : Moves σ s0 s) (c : Nat) (e : Nat × Paddocked) (hs : Scope.within ⟨false, [.out, .msix, .recorder, .chans], [.rpl]⟩ σ) :
    Moves σ s0 (State.releaseEntry s c e) := by
  unfold State.releaseEntry
  repeat' first
    | with_reducible assumption
    | intro _
    | with_reducible apply Moves.ite
    | with_reducible apply State.modChan_moves
    | with_reducible apply State.logDec_moves
    | with_reducible apply State.modEngine_moves
    | with_reducible apply State.pin_moves
    | exact StoresMove.of_eq rfl rfl rfl
    | dsimp only
    | split
    | with_reducible apply Moves.record
    | with_reducible rfl
    | exact hs.2.2 _ (by simp)
    | exact hs.2.1 _ (by decide +kernel)
    | exact Scope.within.trans (by decide +kernel) hs

theorem State.releaseEntries_moves {s0 : State} {s : State} (h : Moves σ s0 s) (c : Nat) (hs : Scope.within ⟨false, [.out, .msix, .recorder, .chans], [.rpl]⟩ σ) :
    Moves σ s0 (State.releaseEntries s c) := by
  unfold State.releaseEntries
  repeat' first
    | with_reducible assumption
    | intro _
    | with_reducible apply Moves.ite
    | with_reducible apply State.releaseEntry_moves
    | with_reducible apply Moves.fold

theorem State.stateMap_moves {s0 : State} {s : State} (h : Moves σ s0 s) (c : Nat) (hs : Scope.within ⟨false, [.out, .msix, .recorder, .chans], [.rpl]⟩ σ) :
    Moves σ s0 (State.stateMap s c) := by
  unfold State.stateMap
  repeat' first
    | with_reducible assumption
    | intro _
    | with_reducible apply Moves.ite
    | with_reducible apply State.recall_moves
    | with_reducible apply State.releaseEntries_moves
    | with_reducible apply State.serveAll_moves
    | with_reducible apply State.startCopies_moves
    | with_reducible apply Moves.fold
    | with_reducible apply Moves.foldPair
    | dsimp only
    | split
    | with_reducible apply Moves.record
    | with_reducible rfl
    | exact hs.2.2 _ (by simp)
    | exact hs.2.1 _ (by decide +kernel)
    | exact Scope.within.trans (by decide +kernel) hs

theorem State.releasePage_moves {s0 : State} {s : State} (h : Moves σ s0 s) (c : Nat) (n : Nat) (p : StatePage) (hs : Scope.within ⟨false, [.chans], []⟩ σ) :
    Moves σ s0 (State.releasePage s c n p) := by
  unfold State.releasePage
  repeat' first
    | with_reducible assumption
    | intro _
    | with_reducible apply Moves.ite
    | with_reducible apply State.modChan_moves
    | with_reducible exact Channel.putPage_stores _
    | exact StoresMove.of_eq rfl rfl rfl
    | with_reducible exact Memory.put_wf _ _ (by assumption)
    | with_reducible refine Moves.fstOf (by with_reducible assumption) ?_
    | dsimp only
    | split
    | with_reducible apply Moves.record
    | with_reducible rfl
    | exact hs.2.2 _ (by simp)
    | exact hs.2.1 _ (by decide +kernel)

theorem State.tryRelease_moves {s0 : State} {s : State} (h : Moves σ s0 s) (n : Nat) (hs : Scope.within ⟨false, [.out, .msix, .streams, .recorder, .chans], [.rpl]⟩ σ) :
    Moves σ s0 (State.tryRelease s n) := by
  unfold State.tryRelease
  repeat' first
    | with_reducible assumption
    | intro _
    | with_reducible apply Moves.ite
    | with_reducible apply State.modChan_moves
    | with_reducible apply State.modStream_moves
    | with_reducible apply State.releasePage_moves
    | with_reducible apply State.stateMap_moves
    | exact StoresMove.of_eq rfl rfl rfl
    | with_reducible apply Moves.fold
    | with_reducible apply Moves.foldPair
    | dsimp only
    | split
    | with_reducible apply Moves.record
    | with_reducible rfl
    | exact hs.2.2 _ (by simp)
    | exact hs.2.1 _ (by decide +kernel)
    | exact Scope.within.trans (by decide +kernel) hs

theorem State.releaseClosing_moves {s0 : State} {s : State} (h : Moves σ s0 s)  (hs : Scope.within ⟨false, [.out, .msix, .streams, .recorder, .chans], [.rpl]⟩ σ) :
    Moves σ s0 (State.releaseClosing s) := by
  unfold State.releaseClosing
  repeat' first
    | with_reducible assumption
    | intro _
    | with_reducible apply Moves.ite
    | with_reducible apply State.tryRelease_moves
    | with_reducible apply Moves.fold

theorem State.streamRead_moves {s0 : State} {s : State} (h : Moves σ s0 s) (n : Nat) (hs : Scope.within ⟨false, [.out, .msix], [.strm]⟩ σ) :
    Moves σ s0 (State.streamRead s n) := by
  unfold State.streamRead
  repeat' first
    | with_reducible assumption
    | with_reducible apply Moves.ite
    | with_reducible apply State.setWindowData_moves
    | with_reducible apply State.windowDone_moves
    | dsimp only
    | split
    | with_reducible apply Moves.record
    | with_reducible rfl
    | exact hs.2.2 _ (by simp)
    | exact hs.2.1 _ (by decide +kernel)
    | exact Scope.within.trans (by decide +kernel) hs

theorem State.streamOpen_moves {s0 : State} {s : State} (h : Moves σ s0 s) (n : Nat) (hs : Scope.within ⟨false, [.out, .msix, .streams], [.strm]⟩ σ) :
    Moves σ s0 (State.streamOpen s n) := by
  unfold State.streamOpen
  repeat' first
    | with_reducible assumption
    | intro _
    | with_reducible apply Moves.ite
    | with_reducible apply State.modStream_moves
    | with_reducible apply State.windowDone_moves
    | with_reducible refine Moves.fstOf (by with_reducible assumption) ?_
    | dsimp only
    | split
    | with_reducible apply Moves.record
    | with_reducible rfl
    | exact hs.2.2 _ (by simp)
    | exact hs.2.1 _ (by decide +kernel)
    | exact Scope.within.trans (by decide +kernel) hs

theorem State.scanSteps_moves {s0 : State} {s : State} (h : Moves σ s0 s) (c : Nat) (k : EngCmd) (hs : Scope.within ⟨false, [.streams], []⟩ σ) :
    Moves σ s0 (State.scanSteps s c k) := by
  unfold State.scanSteps
  repeat' first
    | with_reducible assumption
    | intro _
    | with_reducible apply Moves.ite
    | with_reducible apply State.modStream_moves

theorem State.scanClosed_moves {s0 : State} {s : State} (h : Moves σ s0 s) (c : Nat) (e : Nat) (k : EngCmd) (hs : Scope.within ⟨false, [.streams, .chans], []⟩ σ) :
    Moves σ s0 (State.scanClosed s c e k) := by
  unfold State.scanClosed
  repeat' first
    | with_reducible assumption
    | intro _
    | with_reducible apply Moves.ite
    | with_reducible apply State.ecDone_moves
    | with_reducible apply State.modEngine_moves
    | with_reducible apply State.scanSteps_moves
    | with_reducible apply State.unpin_moves
    | dsimp only
    | split
    | with_reducible apply Moves.record
    | with_reducible rfl
    | exact hs.2.2 _ (by simp)
    | exact hs.2.1 _ (by decide +kernel)
    | exact Scope.within.trans (by decide +kernel) hs

theorem State.discardScans_moves {s0 : State} {s : State} (h : Moves σ s0 s) (n : Nat) (hs : Scope.within ⟨false, [.streams, .chans], []⟩ σ) :
    Moves σ s0 (State.discardScans s n) := by
  unfold State.discardScans
  repeat' first
    | with_reducible assumption
    | intro _
    | with_reducible apply Moves.ite
    | with_reducible apply State.modChan_moves
    | with_reducible apply State.scanClosed_moves
    | exact StoresMove.of_eq rfl rfl rfl
    | with_reducible apply Moves.fold
    | with_reducible apply Moves.foldPair
    | dsimp only
    | split
    | with_reducible apply Moves.record
    | with_reducible rfl
    | exact hs.2.2 _ (by simp)
    | exact hs.2.1 _ (by decide +kernel)

theorem State.streamClose_moves {s0 : State} {s : State} (h : Moves σ s0 s) (n : Nat) (discard : Bool) (hs : Scope.within ⟨false, [.out, .msix, .streams, .recorder, .chans], [.strm, .rpl]⟩ σ) :
    Moves σ s0 (State.streamClose s n discard) := by
  unfold State.streamClose
  repeat' first
    | with_reducible assumption
    | intro _
    | with_reducible apply Moves.ite
    | with_reducible apply State.discardScans_moves
    | with_reducible apply State.modStream_moves
    | with_reducible apply State.releaseClosing_moves
    | with_reducible apply State.windowDone_moves
    | dsimp only
    | split
    | with_reducible apply Moves.record
    | with_reducible rfl
    | exact hs.2.2 _ (by simp)
    | exact hs.2.1 _ (by decide +kernel)
    | exact Scope.within.trans (by decide +kernel) hs

theorem State.streamRehome_moves {s0 : State} {s : State} (h : Moves σ s0 s) (n : Nat) (hs : Scope.within ⟨false, [.out, .msix, .rehoming], [.strm]⟩ σ) :
    Moves σ s0 (State.streamRehome s n) := by
  unfold State.streamRehome
  repeat' first
    | with_reducible assumption
    | intro _
    | with_reducible apply Moves.ite
    | with_reducible apply State.windowDone_moves
    | dsimp only
    | split
    | with_reducible apply Moves.record
    | with_reducible rfl
    | exact hs.2.2 _ (by simp)
    | exact hs.2.1 _ (by decide +kernel)
    | exact Scope.within.trans (by decide +kernel) hs
    | exact .inr (hs.2.1 _ (by decide +kernel))
    | with_reducible exact .inl rfl

theorem State.strmOp_moves {s0 : State} {s : State} (h : Moves σ s0 s) (op : Nat) (n : Nat) (hs : Scope.within ⟨false, [.out, .msix, .streams, .rehoming, .recorder, .chans], [.strm, .rpl]⟩ σ) :
    Moves σ s0 (State.strmOp s op n) := by
  unfold State.strmOp
  repeat' first
    | with_reducible assumption
    | with_reducible apply Moves.ite
    | with_reducible apply State.streamClose_moves
    | with_reducible apply State.streamOpen_moves
    | with_reducible apply State.streamRead_moves
    | with_reducible apply State.streamRehome_moves
    | dsimp only
    | split
    | with_reducible apply Moves.record
    | with_reducible rfl
    | exact hs.2.2 _ (by simp)
    | exact hs.2.1 _ (by decide +kernel)
    | exact Scope.within.trans (by decide +kernel) hs

theorem State.strmWindow_moves {s0 : State} {s : State} (h : Moves σ s0 s) (m : Master) (op : Nat) (hs : Scope.within ⟨false, [.out, .dev, .msix, .streams, .rehoming, .recorder, .chans], [.strm, .rpl]⟩ σ) :
    Moves σ s0 (State.strmWindow s m op) := by
  unfold State.strmWindow
  repeat' first
    | with_reducible assumption
    | intro _
    | with_reducible apply Moves.ite
    | with_reducible apply State.strmOp_moves
    | with_reducible apply State.windowStart_moves
    | dsimp only
    | split
    | with_reducible apply Moves.record
    | with_reducible rfl
    | exact hs.2.2 _ (by simp)
    | exact hs.2.1 _ (by decide +kernel)
    | exact Scope.within.trans (by decide +kernel) hs

theorem execStrmRead_moves {s0 : State} {s : State} (h : Moves σ s0 s) (m : Master) (hs : Scope.within ⟨false, [.out, .dev, .msix, .streams, .rehoming, .recorder, .chans], [.strm, .rpl]⟩ σ) :
    MovesResult σ s0 (execStrmRead m s) := by
  unfold execStrmRead
  repeat' first
    | with_reducible assumption
    | intro _
    | with_reducible apply Moves.ite
    | with_reducible apply State.strmWindow_moves
    | with_reducible apply MovesResult.live

theorem execOpenStream_moves {s0 : State} {s : State} (h : Moves σ s0 s) (m : Master) (hs : Scope.within ⟨false, [.out, .dev, .msix, .streams, .rehoming, .recorder, .chans], [.strm, .rpl]⟩ σ) :
    MovesResult σ s0 (execOpenStream m s) := by
  unfold execOpenStream
  repeat' first
    | with_reducible assumption
    | intro _
    | with_reducible apply Moves.ite
    | with_reducible apply State.strmWindow_moves
    | with_reducible apply MovesResult.live

theorem execClose_moves {s0 : State} {s : State} (h : Moves σ s0 s) (m : Master) (hs : Scope.within ⟨false, [.out, .dev, .msix, .streams, .rehoming, .recorder, .chans], [.strm, .rpl]⟩ σ) :
    MovesResult σ s0 (execClose m s) := by
  unfold execClose
  repeat' first
    | with_reducible assumption
    | intro _
    | with_reducible apply Moves.ite
    | with_reducible apply State.strmWindow_moves
    | with_reducible apply MovesResult.live

theorem execCloseDiscard_moves {s0 : State} {s : State} (h : Moves σ s0 s) (m : Master) (hs : Scope.within ⟨false, [.out, .dev, .msix, .streams, .rehoming, .recorder, .chans], [.strm, .rpl]⟩ σ) :
    MovesResult σ s0 (execCloseDiscard m s) := by
  unfold execCloseDiscard
  repeat' first
    | with_reducible assumption
    | intro _
    | with_reducible apply Moves.ite
    | with_reducible apply State.strmWindow_moves
    | with_reducible apply MovesResult.live

theorem execRehome_moves {s0 : State} {s : State} (h : Moves σ s0 s) (m : Master) (hs : Scope.within ⟨false, [.out, .dev, .msix, .streams, .rehoming, .recorder, .chans], [.strm, .rpl]⟩ σ) :
    MovesResult σ s0 (execRehome m s) := by
  unfold execRehome
  repeat' first
    | with_reducible assumption
    | intro _
    | with_reducible apply Moves.ite
    | with_reducible apply State.strmWindow_moves
    | with_reducible apply MovesResult.live

theorem State.writeBacking_moves {s0 : State} {s : State} (h : Moves σ s0 s) (c : Nat) (p : StatePage) (hs : Scope.within ⟨true, [.out, .msix, .xlat, .recorder, .chans], [.hmmu, .ctx, .rpl, .grm, .cmmu, .wst, .cvu, .hbmc, .ring, .eng, .door]⟩ σ) :
    Moves σ s0 (State.writeBacking s c p).1 := by
  unfold State.writeBacking
  repeat' first
    | with_reducible assumption
    | intro _
    | with_reducible apply Moves.ite
    | with_reducible apply State.writeVa_moves

theorem State.writeHome_moves {s0 : State} {acc : State × Bool} (h : Moves σ s0 acc.1) (c : Nat) (p : StatePage) (hs : Scope.within ⟨true, [.out, .msix, .xlat, .recorder, .chans], [.hmmu, .ctx, .rpl, .grm, .cmmu, .wst, .cvu, .hbmc, .ring, .eng, .door]⟩ σ) :
    Moves σ s0 (State.writeHome c acc p).1 := by
  unfold State.writeHome
  repeat' first
    | with_reducible assumption
    | intro _
    | with_reducible apply Moves.ite
    | with_reducible apply State.modChan_moves
    | with_reducible apply State.writeBacking_moves
    | with_reducible exact Channel.putPage_stores _
    | exact StoresMove.of_eq rfl rfl rfl
    | with_reducible apply Moves.iteFst
    | with_reducible exact Memory.put_wf _ _ (by assumption)
    | with_reducible refine Moves.fstOf (by with_reducible assumption) ?_
    | dsimp only
    | split
    | with_reducible apply Moves.record
    | with_reducible rfl
    | exact hs.2.2 _ (by simp)
    | exact hs.2.1 _ (by decide +kernel)

theorem execRehomeWritebackDone_moves {s0 : State} {s : State} (h : Moves σ s0 s)  (hs : Scope.within ⟨true, [.out, .msix, .xlat, .streams, .rehoming, .recorder, .chans], [.hmmu, .strm, .ctx, .rpl, .grm, .cmmu, .wst, .cvu, .hbmc, .ring, .eng, .door]⟩ σ) :
    MovesResult σ s0 (execRehomeWritebackDone s) := by
  unfold execRehomeWritebackDone
  repeat' first
    | with_reducible assumption
    | intro _
    | with_reducible apply Moves.ite
    | with_reducible apply State.modChan_moves
    | with_reducible apply State.modStream_moves
    | with_reducible apply State.stateMap_moves
    | with_reducible apply State.windowDone_moves
    | with_reducible apply State.writeHome_moves
    | exact StoresMove.of_eq rfl rfl rfl
    | with_reducible apply Moves.fold
    | with_reducible apply Moves.foldPair
    | with_reducible apply MovesResult.live
    | with_reducible apply MovesResult.next
    | with_reducible refine Moves.fstOf (by with_reducible assumption) ?_
    | dsimp only
    | split
    | with_reducible apply Moves.record
    | with_reducible rfl
    | exact hs.2.2 _ (by simp)
    | exact hs.2.1 _ (by decide +kernel)
    | exact Scope.within.trans (by decide +kernel) hs
    | exact .inr (hs.2.1 _ (by decide +kernel))
    | with_reducible exact .inl rfl

theorem execSwapInComplete_moves {s0 : State} {s : State} (h : Moves σ s0 s) (c : Ch) (n : StreamId) (page : Nat) (ext : List Byte) (poisoned : Bool) (hs : Scope.within ⟨true, [.out, .msix, .xlat, .ctxs, .streams, .recorder, .chans], [.hmmu, .strm, .ctx, .rpl, .grm, .cmmu, .wst, .cvu, .hbmc, .ring, .eng, .door]⟩ σ) :
    MovesResult σ s0 (execSwapInComplete c n page ext poisoned s) := by
  unfold execSwapInComplete
  repeat' first
    | with_reducible assumption
    | intro _
    | with_reducible apply Moves.ite
    | with_reducible apply State.bump_moves
    | with_reducible apply State.raise_moves
    | with_reducible apply State.modChan_moves
    | with_reducible apply State.metPoison_moves
    | with_reducible apply State.modStream_moves
    | with_reducible apply State.readVa_moves
    | with_reducible apply State.releaseClosing_moves
    | with_reducible apply State.stateMap_moves
    | with_reducible apply State.wake_moves
    | with_reducible exact Channel.putPage_stores _
    | exact StoresMove.changeOf (hs.1 rfl) (fun h => h) (fun h => Memory.put_wf _ _ h) (fun h => h)
    | exact StoresMove.of_eq rfl rfl rfl
    | with_reducible apply MovesResult.live
    | with_reducible apply MovesResult.next
    | with_reducible exact Memory.put_wf _ _ (by assumption)
    | with_reducible refine Moves.fstOf (by with_reducible assumption) ?_
    | dsimp only
    | split
    | with_reducible apply Moves.record
    | with_reducible rfl
    | exact hs.2.2 _ (by simp)
    | exact hs.2.1 _ (by decide +kernel)
    | exact Scope.within.trans (by decide +kernel) hs

theorem execSwapOutComplete_moves {s0 : State} {s : State} (h : Moves σ s0 s) (c : Ch) (n : StreamId) (page : Nat) (hs : Scope.within ⟨true, [.out, .msix, .xlat, .streams, .recorder, .chans], [.hmmu, .ctx, .rpl, .grm, .cmmu, .wst, .cvu, .hbmc, .ring, .eng, .door]⟩ σ) :
    MovesResult σ s0 (execSwapOutComplete c n page s) := by
  unfold execSwapOutComplete
  repeat' first
    | with_reducible assumption
    | intro _
    | with_reducible apply Moves.ite
    | with_reducible apply State.bump_moves
    | with_reducible apply State.modChan_moves
    | with_reducible apply State.releaseClosing_moves
    | with_reducible apply State.stateMap_moves
    | with_reducible apply State.writeBacking_moves
    | with_reducible exact Channel.putPage_stores _
    | exact StoresMove.of_eq rfl rfl rfl
    | with_reducible apply MovesResult.live
    | with_reducible apply MovesResult.next
    | with_reducible exact Memory.put_wf _ _ (by assumption)
    | with_reducible refine Moves.fstOf (by with_reducible assumption) ?_
    | dsimp only
    | split
    | with_reducible apply Moves.record
    | with_reducible rfl
    | exact hs.2.2 _ (by simp)
    | exact hs.2.1 _ (by decide +kernel)
    | exact Scope.within.trans (by decide +kernel) hs

theorem State.copied_moves {s0 : State} {s : State} (h : Moves σ s0 s) (c : Nat) (p : StatePage) (f : CopyFrame) (hs : Scope.within ⟨true, [.out, .msix, .recorder, .chans], [.rpl, .grm]⟩ σ) :
    Moves σ s0 (State.copied s c p f) := by
  unfold State.copied
  repeat' first
    | with_reducible assumption
    | intro _
    | with_reducible apply Moves.ite
    | with_reducible apply State.bump_moves
    | with_reducible apply State.modChan_moves
    | with_reducible apply State.logDec_moves
    | with_reducible exact Channel.putPage_stores _
    | exact StoresMove.changeOf (hs.1 rfl) (fun h => h) (fun h => Memory.put_wf _ _ h) (fun h => h)
    | exact StoresMove.of_eq rfl rfl rfl
    | with_reducible exact Memory.put_wf _ _ (by assumption)
    | dsimp only
    | split
    | with_reducible apply Moves.record
    | with_reducible rfl
    | exact hs.2.2 _ (by simp)
    | exact hs.2.1 _ (by decide +kernel)
    | exact Scope.within.trans (by decide +kernel) hs

theorem execCowCopyComplete_moves {s0 : State} {s : State} (h : Moves σ s0 s) (c : Ch) (n : StreamId) (page : Nat) (hs : Scope.within ⟨true, [.out, .msix, .ctxs, .streams, .recorder, .chans], [.rpl, .grm]⟩ σ) :
    MovesResult σ s0 (execCowCopyComplete c n page s) := by
  unfold execCowCopyComplete
  repeat' first
    | with_reducible assumption
    | intro _
    | with_reducible apply Moves.ite
    | with_reducible apply State.copied_moves
    | with_reducible apply State.releaseClosing_moves
    | with_reducible apply State.stateMap_moves
    | with_reducible apply State.wake_moves
    | with_reducible apply MovesResult.live
    | with_reducible apply MovesResult.next
    | with_reducible refine Moves.fstOf (by with_reducible assumption) ?_
    | dsimp only
    | split
    | with_reducible apply Moves.record
    | with_reducible rfl
    | exact hs.2.2 _ (by simp)
    | exact hs.2.1 _ (by decide +kernel)
    | exact Scope.within.trans (by decide +kernel) hs

theorem execBackingCopyComplete_moves {s0 : State} {s : State} (h : Moves σ s0 s) (c : Ch) (n : StreamId) (page : Nat) (ext : List Byte) (hs : Scope.within ⟨true, [.out, .msix, .xlat, .streams, .recorder, .chans], [.hmmu, .ctx, .rpl, .grm, .cmmu, .wst, .cvu, .hbmc, .ring, .eng, .door]⟩ σ) :
    MovesResult σ s0 (execBackingCopyComplete c n page ext s) := by
  unfold execBackingCopyComplete
  repeat' first
    | with_reducible assumption
    | intro _
    | with_reducible apply Moves.ite
    | with_reducible apply State.modChan_moves
    | with_reducible apply State.readVa_moves
    | with_reducible apply State.releaseClosing_moves
    | with_reducible apply State.writeVa_moves
    | with_reducible exact Channel.putPage_stores _
    | exact StoresMove.of_eq rfl rfl rfl
    | with_reducible apply MovesResult.live
    | with_reducible apply MovesResult.next
    | with_reducible exact Memory.put_wf _ _ (by assumption)
    | with_reducible refine Moves.fstOf (by with_reducible assumption) ?_
    | dsimp only
    | split
    | with_reducible apply Moves.record
    | with_reducible rfl
    | exact hs.2.2 _ (by simp)
    | exact hs.2.1 _ (by decide +kernel)
    | exact Scope.within.trans (by decide +kernel) hs

end Sys2Proof.Machine
end

