-- ==== Sys2Proof/Laws/MovesScan.lean ====
section
/-! SUPPORT. What the functions of Machine/Scan.lean can do to a state: each keeps the queue and the
canonical form of the stores, only adds to the output and keeps the registers 32 bits wide (`Moves`). -/

set_option Elab.async false

namespace Sys2Proof.Machine
variable {σ : Scope}

theorem State.enterPaddock_moves {s0 : State} {s : State} (h : Moves σ s0 s) (c : Nat) (e : Nat) (i : Nat) (k : EngCmd) (hs : Scope.within ⟨false, [.chans], [.grm]⟩ σ) :
    Moves σ s0 (State.enterPaddock s c e i k) := by
  unfold State.enterPaddock
  repeat' first
    | with_reducible assumption
    | intro _
    | with_reducible apply Moves.ite
    | with_reducible apply State.bump_moves
    | with_reducible apply State.modChan_moves
    | with_reducible apply State.freeEntry_moves
    | with_reducible apply State.popQueue_moves
    | exact StoresMove.of_eq rfl rfl rfl
    | dsimp only
    | split
    | with_reducible apply Moves.record
    | with_reducible rfl
    | exact hs.2.2 _ (by simp)
    | exact hs.2.1 _ (by decide +kernel)
    | exact Scope.within.trans (by decide +kernel) hs

theorem execScanHeadCheck_moves {s0 : State} {s : State} (h : Moves σ s0 s) (c : Ch) (e : SlotId) (hs : Scope.within ⟨false, [.out, .msix, .recorder, .chans], [.rpl, .grm]⟩ σ) :
    MovesResult σ s0 (execScanHeadCheck c e s) := by
  unfold execScanHeadCheck
  repeat' first
    | with_reducible assumption
    | intro _
    | with_reducible apply Moves.ite
    | with_reducible apply State.raise_moves
    | with_reducible apply State.enterPaddock_moves
    | with_reducible apply State.pin_moves
    | with_reducible apply State.recordStall_moves
    | with_reducible apply State.stateMap_moves
    | with_reducible apply MovesResult.live
    | with_reducible apply MovesResult.next
    | with_reducible refine Moves.fstOf (by with_reducible assumption) ?_
    | dsimp only
    | split
    | with_reducible apply Moves.record
    | with_reducible rfl
    | exact hs.2.2 _ (by simp)
    | exact hs.2.1 _ (by decide +kernel)
    | exact Scope.within.trans (by decide +kernel) hs

theorem execScanStart_moves {s0 : State} {s : State} (h : Moves σ s0 s) (c : Ch) (e : SlotId) (hs : Scope.within ⟨false, [.out, .msix, .recorder, .chans], [.rpl]⟩ σ) :
    MovesResult σ s0 (execScanStart c e s) := by
  unfold execScanStart
  repeat' first
    | with_reducible assumption
    | intro _
    | with_reducible apply Moves.ite
    | with_reducible apply State.freeEntry_moves
    | with_reducible apply State.modEngine_moves
    | with_reducible apply State.popQueue_moves
    | with_reducible apply State.settle_moves
    | with_reducible apply State.stateMap_moves
    | with_reducible apply MovesResult.live
    | with_reducible apply MovesResult.next
    | with_reducible refine Moves.fstOf (by with_reducible assumption) ?_
    | dsimp only
    | split
    | with_reducible apply Moves.record
    | with_reducible rfl
    | exact hs.2.2 _ (by simp)
    | exact hs.2.1 _ (by decide +kernel)
    | exact Scope.within.trans (by decide +kernel) hs

theorem readSteps_moves {s0 : State} {r : Reading} (h : Moves σ s0 r.s) (a : MemAccess) (k : EngCmd) (base : Nat) (hs : Scope.within ⟨false, [.out, .msix, .xlat, .recorder], [.hmmu, .ctx, .rpl, .grm, .cmmu, .wst, .cvu, .hbmc, .ring, .eng, .door]⟩ σ) :
    Moves σ s0 (readSteps a k base r).s := by
  unfold readSteps
  generalize List.range (nL k.descs) = l
  induction l generalizing r with
  | nil => exact h
  | cons j l ih => exact ih (Reading.blocks_moves h _ _ _ _ _ (.trans (by decide +kernel) hs))

theorem State.readInit_moves {s0 : State} {s : State} (h : Moves σ s0 s) (c : Ch) (e : SlotId) (k : EngCmd) (p : ScanProg) (ext : List Byte) (hs : Scope.within ⟨false, [.out, .msix, .xlat, .recorder], [.hmmu, .ctx, .rpl, .grm, .cmmu, .wst, .cvu, .hbmc, .ring, .eng, .door]⟩ σ) :
    Moves σ s0 (State.readInit s c e k p ext).1 := by
  unfold State.readInit
  repeat' first
    | with_reducible assumption
    | intro _
    | with_reducible apply Moves.ite
    | with_reducible apply State.readVa_moves
    | with_reducible apply Moves.fold
    | with_reducible apply Moves.foldPair
    | with_reducible apply Moves.iteFst

theorem State.writeState_moves {s0 : State} {s : State} (h : Moves σ s0 s) (c : Nat) (k : EngCmd) (st : List ((Nat × Nat) × List Nat)) (hs : Scope.within ⟨true, [.chans], []⟩ σ) :
    Moves σ s0 (State.writeState s c k st) := by
  unfold State.writeState
  repeat' first
    | with_reducible assumption
    | intro _
    | with_reducible apply Moves.ite
    | with_reducible apply State.modChan_moves
    | with_reducible apply State.modPage_moves
    | exact StoresMove.changeOf (hs.1 rfl) (fun h => h) (fun h => Memory.put_wf _ _ h) (fun h => h)
    | exact StoresMove.of_eq rfl rfl rfl
    | with_reducible apply Moves.fold
    | with_reducible apply Moves.foldPair
    | with_reducible exact Memory.put_wf _ _ (by assumption)
    | dsimp only
    | split
    | with_reducible apply Moves.record
    | with_reducible rfl
    | exact hs.2.2 _ (by simp)
    | exact hs.2.1 _ (by decide +kernel)
    | exact Scope.within.trans (by decide +kernel) hs

theorem State.scanEnd_moves {s0 : State} {s : State} (h : Moves σ s0 s) (c : Nat) (e : Nat) (k : EngCmd) (status : Nat) (hs : Scope.within ⟨false, [.out, .msix, .streams, .recorder, .chans], [.rpl]⟩ σ) :
    Moves σ s0 (State.scanEnd s c e k status) := by
  unfold State.scanEnd
  repeat' first
    | with_reducible assumption
    | intro _
    | with_reducible apply Moves.ite
    | with_reducible apply State.ecDone_moves
    | with_reducible apply State.modEngine_moves
    | with_reducible apply State.releaseClosing_moves
    | with_reducible apply State.stateMap_moves
    | with_reducible apply State.unpin_moves
    | dsimp only
    | split
    | with_reducible apply Moves.record
    | with_reducible rfl
    | exact hs.2.2 _ (by simp)
    | exact hs.2.1 _ (by decide +kernel)
    | exact Scope.within.trans (by decide +kernel) hs

theorem State.setScan_moves {s0 : State} {s : State} (h : Moves σ s0 s) (c : Nat) (e : Nat) (k : EngCmd) (p : ScanProg) (hs : Scope.within ⟨true, [.out, .msix, .xlat, .streams, .recorder, .chans], [.hmmu, .ctx, .rpl, .grm, .cmmu, .wst, .cvu, .hbmc, .ring, .eng, .door]⟩ σ) :
    Moves σ s0 (State.setScan s c e k p) := by
  unfold State.setScan
  repeat' first
    | with_reducible assumption
    | intro _
    | with_reducible apply Moves.ite
    | with_reducible apply State.modEngine_moves
    | with_reducible apply State.scan_moves
    | dsimp only
    | split
    | with_reducible apply Moves.record
    | with_reducible rfl
    | exact hs.2.2 _ (by simp)
    | exact hs.2.1 _ (by decide +kernel)
    | exact Scope.within.trans (by decide +kernel) hs

theorem State.scanReads_moves {s0 : State} {s : State} (h : Moves σ s0 s) (c : Ch) (e : SlotId) (k : EngCmd) (ext : List Byte) (hs : Scope.within ⟨true, [.out, .msix, .xlat, .streams, .recorder, .chans], [.hmmu, .ctx, .rpl, .grm, .cmmu, .wst, .cvu, .hbmc, .ring, .eng, .door]⟩ σ) :
    Moves σ s0 (State.scanReads s c e k ext).1 := by
  unfold State.scanReads
  repeat' first
    | with_reducible assumption
    | intro _
    | with_reducible apply Moves.ite
    | with_reducible apply State.readInit_moves
    | with_reducible apply State.scan_moves
    | with_reducible apply readSteps_moves
    | with_reducible apply Moves.iteFst
    | dsimp only
    | split
    | with_reducible apply Moves.record
    | with_reducible rfl
    | exact hs.2.2 _ (by simp)
    | exact hs.2.1 _ (by decide +kernel)
    | exact Scope.within.trans (by decide +kernel) hs

theorem State.scanForm_moves {s0 : State} {s : State} (h : Moves σ s0 s) (c : Ch) (e : SlotId) (k : EngCmd) (hs : Scope.within ⟨true, [.out, .msix, .xlat, .streams, .recorder, .chans], [.hmmu, .ctx, .rpl, .grm, .cmmu, .wst, .cvu, .hbmc, .ring, .eng, .door]⟩ σ) :
    Moves σ s0 (State.scanForm s c e k) := by
  unfold State.scanForm
  repeat' first
    | with_reducible assumption
    | intro _
    | with_reducible apply Moves.ite
    | with_reducible apply State.modChan_moves
    | with_reducible apply State.metPoison_moves
    | with_reducible apply State.setScan_moves
    | exact StoresMove.of_eq rfl rfl rfl
    | dsimp only
    | split
    | with_reducible apply Moves.record
    | with_reducible rfl
    | exact hs.2.2 _ (by simp)
    | exact hs.2.1 _ (by decide +kernel)
    | exact Scope.within.trans (by decide +kernel) hs

theorem State.scanFinish_moves {s0 : State} {s : State} (h : Moves σ s0 s) (c : Ch) (e : SlotId) (k : EngCmd) (hs : Scope.within ⟨true, [.out, .msix, .xlat, .streams, .recorder, .chans], [.hmmu, .ctx, .rpl, .grm, .cmmu, .wst, .cvu, .hbmc, .ring, .eng, .door]⟩ σ) :
    Moves σ s0 (State.scanFinish s c e k) := by
  unfold State.scanFinish
  repeat' first
    | with_reducible assumption
    | intro _
    | with_reducible apply Moves.ite
    | with_reducible apply State.modChan_moves
    | with_reducible apply State.modEngine_moves
    | with_reducible apply State.scan_moves
    | with_reducible apply State.scanEnd_moves
    | with_reducible apply State.scanSteps_moves
    | with_reducible apply State.setScan_moves
    | with_reducible apply State.writeState_moves
    | exact StoresMove.of_eq rfl rfl rfl
    | dsimp only
    | split
    | with_reducible apply Moves.record
    | with_reducible rfl
    | exact hs.2.2 _ (by simp)
    | exact hs.2.1 _ (by decide +kernel)
    | exact Scope.within.trans (by decide +kernel) hs

theorem State.scan_moves {s0 : State} {s : State} (h : Moves σ s0 s) (c : Ch) (e : SlotId) (k : EngCmd) (ext : List Byte) (hs : Scope.within ⟨true, [.out, .msix, .xlat, .streams, .recorder, .chans], [.hmmu, .ctx, .rpl, .grm, .cmmu, .wst, .cvu, .hbmc, .ring, .eng, .door]⟩ σ) :
    Moves σ s0 (State.scan s c e k ext) := by
  unfold State.scan
  repeat' first
    | with_reducible assumption
    | with_reducible apply Moves.ite
    | with_reducible apply State.modEngine_moves
    | with_reducible apply State.scanFinish_moves
    | with_reducible apply State.scanForm_moves
    | with_reducible apply State.scanReads_moves
    | with_reducible apply State.setScan_moves
    | with_reducible refine Moves.fstOf (by with_reducible assumption) ?_
    | dsimp only
    | split
    | with_reducible apply Moves.record
    | with_reducible rfl
    | exact hs.2.2 _ (by simp)
    | exact hs.2.1 _ (by decide +kernel)
    | exact Scope.within.trans (by decide +kernel) hs

theorem execScanComplete_moves {s0 : State} {s : State} (h : Moves σ s0 s) (c : Ch) (e : SlotId) (ext : List Byte) (hs : Scope.within ⟨true, [.out, .msix, .xlat, .streams, .recorder, .chans], [.hmmu, .ctx, .rpl, .grm, .cmmu, .wst, .cvu, .hbmc, .ring, .eng, .door]⟩ σ) :
    MovesResult σ s0 (execScanComplete c e ext s) := by
  unfold execScanComplete
  repeat' first
    | with_reducible assumption
    | intro _
    | with_reducible apply Moves.ite
    | with_reducible apply State.active_moves
    | with_reducible apply State.scan_moves
    | with_reducible apply MovesResult.live
    | with_reducible apply MovesResult.next
    | with_reducible refine Moves.fstOf (by with_reducible assumption) ?_
    | dsimp only
    | split
    | with_reducible apply Moves.record
    | with_reducible rfl
    | exact hs.2.2 _ (by simp)
    | exact hs.2.1 _ (by decide +kernel)
    | exact Scope.within.trans (by decide +kernel) hs

theorem State.sharePages_moves {s0 : State} {s : State} (h : Moves σ s0 s) (c : Nat) (n : Nat) (children : List Nat) (hs : Scope.within ⟨false, [.chans], []⟩ σ) :
    Moves σ s0 (State.sharePages s c n children) := by
  unfold State.sharePages
  repeat' first
    | with_reducible assumption
    | intro _
    | with_reducible apply Moves.ite
    | with_reducible apply State.modChan_moves
    | exact StoresMove.of_eq rfl rfl rfl
    | dsimp only
    | split
    | with_reducible apply Moves.record
    | with_reducible rfl
    | exact hs.2.2 _ (by simp)
    | exact hs.2.1 _ (by decide +kernel)

theorem execForkComplete_moves {s0 : State} {s : State} (h : Moves σ s0 s) (c : Ch) (hs : Scope.within ⟨false, [.out, .msix, .streams, .recorder, .chans], [.strm, .rpl]⟩ σ) :
    MovesResult σ s0 (execForkComplete c s) := by
  unfold execForkComplete
  repeat' first
    | with_reducible assumption
    | intro _
    | with_reducible apply Moves.ite
    | with_reducible apply State.bump_moves
    | with_reducible apply State.modChan_moves
    | with_reducible apply State.modCmd_moves
    | with_reducible apply State.modStream_moves
    | with_reducible apply State.releaseClosing_moves
    | with_reducible apply State.sharePages_moves
    | with_reducible apply State.stateMap_moves
    | exact StoresMove.of_eq rfl rfl rfl
    | with_reducible apply Moves.fold
    | with_reducible apply Moves.foldPair
    | with_reducible apply MovesResult.live
    | with_reducible apply MovesResult.next
    | with_reducible refine Moves.fstOf (by with_reducible assumption) ?_
    | dsimp only
    | split
    | with_reducible apply Moves.record
    | with_reducible rfl
    | exact hs.2.2 _ (by simp)
    | exact hs.2.1 _ (by decide +kernel)
    | exact Scope.within.trans (by decide +kernel) hs

end Sys2Proof.Machine
end

