-- ==== Sys2Proof/Laws/MovesDeadlines.lean ====
section
/-! SUPPORT. What the functions of Machine/Deadlines.lean can do to a state: each keeps the queue and the
canonical form of the stores, only adds to the output and keeps the registers 32 bits wide (`Moves`). -/

set_option Elab.async false

namespace Sys2Proof.Machine
variable {σ : Scope}

theorem State.modDlm_moves {s0 : State} {s : State} (h : Moves σ s0 s) (n : Nat) (f : DlmRec → DlmRec) (hs : Scope.within ⟨false, [.dlm], []⟩ σ) :
    Moves σ s0 (State.modDlm s n f) := by
  unfold State.modDlm
  repeat' first
    | with_reducible assumption
    | with_reducible apply Moves.ite
    | dsimp only
    | split
    | with_reducible apply Moves.record
    | with_reducible rfl
    | exact hs.2.2 _ (by simp)
    | exact hs.2.1 _ (by decide +kernel)
    | exact Scope.within.trans (by decide +kernel) hs
    | exact .inr (hs.2.1 _ (by decide +kernel))
    | with_reducible exact .inl rfl

theorem State.dlmArm_moves {s0 : State} {s : State} (h : Moves σ s0 s) (n : Nat) (hs : Scope.within ⟨false, [.out, .msix, .dlm], [.dlm]⟩ σ) :
    Moves σ s0 (State.dlmArm s n) := by
  unfold State.dlmArm
  repeat' first
    | with_reducible assumption
    | intro _
    | with_reducible apply Moves.ite
    | with_reducible apply State.modDlm_moves
    | with_reducible apply State.windowDone_moves
    | dsimp only
    | split
    | with_reducible apply Moves.record
    | with_reducible rfl
    | exact hs.2.2 _ (by simp)
    | exact hs.2.1 _ (by decide +kernel)
    | exact Scope.within.trans (by decide +kernel) hs

theorem State.dlmOp_moves {s0 : State} {s : State} (h : Moves σ s0 s) (op : Nat) (n : Nat) (hs : Scope.within ⟨false, [.out, .msix, .dlm], [.dlm]⟩ σ) :
    Moves σ s0 (State.dlmOp s op n) := by
  unfold State.dlmOp
  repeat' first
    | with_reducible assumption
    | intro _
    | with_reducible apply Moves.ite
    | with_reducible apply State.dlmArm_moves
    | with_reducible apply State.modDlm_moves
    | with_reducible apply State.setWindowData_moves
    | with_reducible apply State.windowDone_moves
    | dsimp only
    | split
    | with_reducible apply Moves.record
    | with_reducible rfl
    | exact hs.2.2 _ (by simp)
    | exact hs.2.1 _ (by decide +kernel)
    | exact Scope.within.trans (by decide +kernel) hs

theorem State.dlmWindow_moves {s0 : State} {s : State} (h : Moves σ s0 s) (m : Master) (op : Nat) (hs : Scope.within ⟨false, [.out, .dev, .msix, .dlm], [.dlm]⟩ σ) :
    Moves σ s0 (State.dlmWindow s m op) := by
  unfold State.dlmWindow
  repeat' first
    | with_reducible assumption
    | intro _
    | with_reducible apply Moves.ite
    | with_reducible apply State.dlmOp_moves
    | with_reducible apply State.windowStart_moves
    | dsimp only
    | split
    | with_reducible apply Moves.record
    | with_reducible rfl
    | exact hs.2.2 _ (by simp)
    | exact hs.2.1 _ (by decide +kernel)
    | exact Scope.within.trans (by decide +kernel) hs

theorem execDlmRead_moves {s0 : State} {s : State} (h : Moves σ s0 s) (m : Master) (hs : Scope.within ⟨false, [.out, .dev, .msix, .dlm], [.dlm]⟩ σ) :
    MovesResult σ s0 (execDlmRead m s) := by
  unfold execDlmRead
  repeat' first
    | with_reducible assumption
    | intro _
    | with_reducible apply Moves.ite
    | with_reducible apply State.dlmWindow_moves
    | with_reducible apply MovesResult.live

theorem execArm_moves {s0 : State} {s : State} (h : Moves σ s0 s) (m : Master) (hs : Scope.within ⟨false, [.out, .dev, .msix, .dlm], [.dlm]⟩ σ) :
    MovesResult σ s0 (execArm m s) := by
  unfold execArm
  repeat' first
    | with_reducible assumption
    | intro _
    | with_reducible apply Moves.ite
    | with_reducible apply State.dlmWindow_moves
    | with_reducible apply MovesResult.live

theorem execDisarm_moves {s0 : State} {s : State} (h : Moves σ s0 s) (m : Master) (hs : Scope.within ⟨false, [.out, .dev, .msix, .dlm], [.dlm]⟩ σ) :
    MovesResult σ s0 (execDisarm m s) := by
  unfold execDisarm
  repeat' first
    | with_reducible assumption
    | intro _
    | with_reducible apply Moves.ite
    | with_reducible apply State.dlmWindow_moves
    | with_reducible apply MovesResult.live

theorem execDlmClear_moves {s0 : State} {s : State} (h : Moves σ s0 s) (m : Master) (hs : Scope.within ⟨false, [.out, .dev, .msix, .dlm], [.dlm]⟩ σ) :
    MovesResult σ s0 (execDlmClear m s) := by
  unfold execDlmClear
  repeat' first
    | with_reducible assumption
    | intro _
    | with_reducible apply Moves.ite
    | with_reducible apply State.dlmWindow_moves
    | with_reducible apply MovesResult.live

theorem State.disarmFreed_moves {s0 : State} {s : State} (h : Moves σ s0 s)  (hs : Scope.within ⟨false, [.dlm], []⟩ σ) :
    Moves σ s0 (State.disarmFreed s) := by
  unfold State.disarmFreed
  repeat' first
    | with_reducible assumption
    | intro _
    | with_reducible apply Moves.ite
    | dsimp only
    | split
    | with_reducible apply Moves.record
    | with_reducible rfl
    | exact hs.2.2 _ (by simp)
    | exact hs.2.1 _ (by decide +kernel)
    | exact Scope.within.trans (by decide +kernel) hs
    | exact .inr (hs.2.1 _ (by decide +kernel))
    | with_reducible exact .inl rfl

theorem State.stepBegin_moves {s0 : State} {s : State} (h : Moves σ s0 s) (c : Nat) (h : HostCmd) (hs : Scope.within ⟨false, [.dlm], []⟩ σ) :
    Moves σ s0 (State.stepBegin s c h) := by
  unfold State.stepBegin
  repeat' first
    | with_reducible assumption
    | intro _
    | with_reducible apply Moves.ite
    | with_reducible apply State.modDlm_moves
    | with_reducible refine Moves.fstOf (by with_reducible assumption) ?_
    | dsimp only
    | split

theorem State.stepEnd_moves {s0 : State} {s : State} (h : Moves σ s0 s) (c : Nat) (n : Nat) (hs : Scope.within ⟨false, [.out, .msix, .dlm], [.dlm]⟩ σ) :
    Moves σ s0 (State.stepEnd s c n) := by
  unfold State.stepEnd
  repeat' first
    | with_reducible assumption
    | intro _
    | with_reducible apply Moves.ite
    | with_reducible apply State.bump_moves
    | with_reducible apply State.raise_moves
    | with_reducible apply State.modDlm_moves
    | dsimp only
    | split
    | with_reducible apply Moves.record
    | with_reducible rfl
    | exact hs.2.2 _ (by simp)
    | exact hs.2.1 _ (by decide +kernel)
    | exact Scope.within.trans (by decide +kernel) hs

theorem State.stepSignal_moves {s0 : State} {s : State} (h : Moves σ s0 s) (c : Nat) (h : HostCmd) (hs : Scope.within ⟨false, [.out, .msix, .dlm], [.dlm]⟩ σ) :
    Moves σ s0 (State.stepSignal s c h) := by
  unfold State.stepSignal
  repeat' first
    | with_reducible assumption
    | intro _
    | with_reducible apply Moves.ite
    | with_reducible apply State.modDlm_moves
    | with_reducible apply State.stepEnd_moves
    | dsimp only
    | split
    | with_reducible apply Moves.record
    | with_reducible rfl
    | exact hs.2.2 _ (by simp)
    | exact hs.2.1 _ (by decide +kernel)
    | exact Scope.within.trans (by decide +kernel) hs

theorem State.fallbackFetched_moves {s0 : State} {s : State} (h : Moves σ s0 s) (c : Nat) (h : HostCmd) (hs : Scope.within ⟨false, [.dlm], []⟩ σ) :
    Moves σ s0 (State.fallbackFetched s c h) := by
  unfold State.fallbackFetched
  repeat' first
    | with_reducible assumption
    | intro _
    | with_reducible apply Moves.ite
    | with_reducible apply State.modDlm_moves

theorem State.pastSplit_moves {s0 : State} {s : State} (h : Moves σ s0 s) (c : Nat) (h : HostCmd) (hs : Scope.within ⟨false, [.chans], []⟩ σ) :
    Moves σ s0 (State.pastSplit s c h) := by
  unfold State.pastSplit
  repeat' first
    | with_reducible assumption
    | intro _
    | with_reducible apply Moves.ite
    | with_reducible apply State.modCmd_moves
    | with_reducible apply State.modRing_moves

theorem State.divert_moves {s0 : State} {s : State} (h : Moves σ s0 s) (c : Nat) (n : Nat) (hs : Scope.within ⟨false, [.out, .msix, .dlm, .recorder, .chans], [.dlm, .rpl]⟩ σ) :
    Moves σ s0 (State.divert s c n) := by
  unfold State.divert
  repeat' first
    | with_reducible assumption
    | intro _
    | with_reducible apply Moves.ite
    | with_reducible apply State.bump_moves
    | with_reducible apply State.raise_moves
    | with_reducible apply State.logDec_moves
    | with_reducible apply State.modCmd_moves
    | with_reducible apply State.modDlm_moves
    | with_reducible apply State.pastSplit_moves
    | with_reducible apply Moves.fold
    | with_reducible apply Moves.foldPair
    | dsimp only
    | split
    | with_reducible apply Moves.record
    | with_reducible rfl
    | exact hs.2.2 _ (by simp)
    | exact hs.2.1 _ (by decide +kernel)
    | exact Scope.within.trans (by decide +kernel) hs

theorem State.checkStep_moves {s0 : State} {s : State} (h : Moves σ s0 s) (c : Nat) (n : Nat) (hs : Scope.within ⟨false, [.out, .drawn, .msix, .dlm, .recorder, .chans], [.dlm, .rpl]⟩ σ) :
    Moves σ s0 (State.checkStep s c n) := by
  unfold State.checkStep
  repeat' first
    | with_reducible assumption
    | intro _
    | with_reducible apply Moves.ite
    | with_reducible apply State.draw_moves
    | with_reducible apply State.divert_moves
    | with_reducible apply State.modDlm_moves
    | dsimp only
    | split
    | with_reducible apply Moves.record
    | with_reducible rfl
    | exact hs.2.2 _ (by simp)
    | exact hs.2.1 _ (by decide +kernel)
    | exact Scope.within.trans (by decide +kernel) hs

theorem State.stepPlaced_moves {s0 : State} {s : State} (h : Moves σ s0 s) (c : Nat) (h : HostCmd) (k : EngCmd) (hs : Scope.within ⟨false, [.out, .drawn, .msix, .dlm, .recorder, .chans], [.dlm, .rpl]⟩ σ) :
    Moves σ s0 (State.stepPlaced s c h k) := by
  unfold State.stepPlaced
  repeat' first
    | with_reducible assumption
    | intro _
    | with_reducible apply Moves.ite
    | with_reducible apply State.checkStep_moves
    | with_reducible apply State.modDlm_moves
    | with_reducible refine Moves.fstOf (by with_reducible assumption) ?_
    | dsimp only
    | split
    | with_reducible apply Moves.record
    | with_reducible rfl
    | exact hs.2.2 _ (by simp)
    | exact hs.2.1 _ (by decide +kernel)
    | exact Scope.within.trans (by decide +kernel) hs

theorem execDlmCheck_moves {s0 : State} {s : State} (h : Moves σ s0 s) (n : StreamId) (hs : Scope.within ⟨false, [.out, .drawn, .msix, .dlm, .recorder, .chans], [.dlm, .rpl]⟩ σ) :
    MovesResult σ s0 (execDlmCheck n s) := by
  unfold execDlmCheck
  repeat' first
    | with_reducible assumption
    | intro _
    | with_reducible apply Moves.ite
    | with_reducible apply State.checkStep_moves
    | with_reducible apply MovesResult.live

theorem State.divertPending_moves {s0 : State} {s : State} (h : Moves σ s0 s) (ctx : Nat) (hs : Scope.within ⟨false, [.out, .msix, .dlm, .recorder, .chans], [.dlm, .rpl]⟩ σ) :
    Moves σ s0 (State.divertPending s ctx) := by
  unfold State.divertPending
  repeat' first
    | with_reducible assumption
    | intro _
    | with_reducible apply Moves.ite
    | with_reducible apply State.divert_moves
    | with_reducible apply Moves.fold

end Sys2Proof.Machine
end

