-- ==== Sys2Proof/Laws/MovesCommands.lean ====
section
/-! SUPPORT. What the functions of Machine/Commands.lean can do to a state: each keeps the queue and the
canonical form of the stores, only adds to the output and keeps the registers 32 bits wide (`Moves`). -/

set_option Elab.async false

namespace Sys2Proof.Machine
variable {σ : Scope}

theorem State.showFull_moves {s0 : State} {s : State} (h : Moves σ s0 s) (c : Nat) (r : Nat) (hs : Scope.within ⟨false, [.out, .msix], [.ring, .door]⟩ σ) :
    Moves σ s0 (State.showFull s c r) := by
  unfold State.showFull
  repeat' first
    | with_reducible assumption
    | with_reducible apply Moves.ite
    | with_reducible apply State.wr_moves
    | with_reducible apply State.raise_moves
    | dsimp only
    | split
    | with_reducible apply Moves.record
    | with_reducible rfl
    | exact hs.2.2 _ (by simp)
    | exact hs.2.1 _ (by decide +kernel)

theorem State.sendRingVector_moves {s0 : State} {s : State} (h : Moves σ s0 s) (c : Nat) (r : Nat) (hs : Scope.within ⟨false, [.out, .msix], []⟩ σ) :
    Moves σ s0 (State.sendRingVector s c r) := by
  unfold State.sendRingVector
  repeat' first
    | with_reducible assumption
    | with_reducible apply Moves.ite
    | with_reducible apply State.sendVector_moves
    | dsimp only
    | split
    | with_reducible apply Moves.record
    | with_reducible rfl
    | exact hs.2.2 _ (by simp)
    | exact hs.2.1 _ (by decide +kernel)

theorem State.stopRing_moves {s0 : State} {s : State} (h : Moves σ s0 s) (c : Nat) (r : Nat) (hs : Scope.within ⟨false, [.out, .msix], [.ring, .door]⟩ σ) :
    Moves σ s0 (State.stopRing s c r) := by
  unfold State.stopRing
  repeat' first
    | with_reducible assumption
    | with_reducible apply Moves.ite
    | with_reducible apply State.wr_moves
    | with_reducible apply State.raise_moves
    | dsimp only
    | split
    | with_reducible apply Moves.record
    | with_reducible rfl
    | exact hs.2.2 _ (by simp)
    | exact hs.2.1 _ (by decide +kernel)

theorem State.finish_moves {s0 : State} {s : State} (h : Moves σ s0 s) (c : Nat) (h : HostCmd) (status : Nat) (hs : Scope.within ⟨false, [.out, .msix, .dlm, .streams, .recorder, .chans], [.dlm, .rpl, .ring, .door]⟩ σ) :
    Moves σ s0 (State.finish s c h status) := by
  unfold State.finish
  repeat' first
    | with_reducible assumption
    | intro _
    | with_reducible apply Moves.ite
    | with_reducible apply State.modChan_moves
    | with_reducible apply State.disarmFreed_moves
    | with_reducible apply State.logTo_moves
    | with_reducible apply State.matchCpl_moves
    | with_reducible apply State.modRing_moves
    | with_reducible apply State.pastSplit_moves
    | with_reducible apply State.releaseClosing_moves
    | with_reducible apply State.sendRingVector_moves
    | with_reducible apply State.showFull_moves
    | with_reducible apply State.stepSignal_moves
    | exact StoresMove.of_eq rfl rfl rfl
    | with_reducible refine Moves.fstOf (by with_reducible assumption) ?_
    | dsimp only
    | split
    | with_reducible apply Moves.record
    | with_reducible rfl
    | exact hs.2.2 _ (by simp)
    | exact hs.2.1 _ (by decide +kernel)
    | exact Scope.within.trans (by decide +kernel) hs

theorem execCommandComplete_moves {s0 : State} {s : State} (h : Moves σ s0 s) (c : Ch) (cmd : Nat) (hs : Scope.within ⟨false, [.out, .msix, .dlm, .streams, .recorder, .chans], [.dlm, .rpl, .ring, .door]⟩ σ) :
    MovesResult σ s0 (execCommandComplete c cmd s) := by
  unfold execCommandComplete
  repeat' first
    | with_reducible assumption
    | intro _
    | with_reducible apply Moves.ite
    | with_reducible apply State.finish_moves
    | with_reducible apply State.recordStall_moves
    | with_reducible apply MovesResult.live
    | with_reducible apply MovesResult.next
    | with_reducible refine Moves.fstOf (by with_reducible assumption) ?_
    | dsimp only
    | split
    | with_reducible apply Moves.record
    | with_reducible rfl
    | exact hs.2.2 _ (by simp)
    | exact hs.2.1 _ (by decide +kernel)
    | exact Scope.within.trans (by decide +kernel) hs

theorem State.writeRecord_moves {s0 s : State} (h : Moves σ s0 s) (c : Ch) (r : RingId) (x : CplRecord) (hs : Scope.within ⟨true, [.out, .msix, .xlat, .recorder, .chans], [.hmmu, .ctx, .rpl, .grm, .cmmu, .wst, .cvu, .hbmc, .ring, .eng, .door]⟩ σ) :
    Moves σ s0 (State.writeRecord s c r x).1 := by
  have k := State.writeVa_moves h (cplAccess s c r x (s.cplVa c r)) hbmData (leBytes 16 x.word) (.trans (by decide +kernel) hs)
  unfold State.writeRecord
  revert k
  generalize s.writeVa _ _ _ = w
  exact id

theorem State.recordWritten_moves {s0 : State} {s : State} (h : Moves σ s0 s) (c : Ch) (r : RingId) (x : CplRecord) (rest : List CplRecord) (tail : Nat) (hs : Scope.within ⟨false, [.out, .msix, .chans], [.ring, .door]⟩ σ) :
    Moves σ s0 (State.recordWritten s c r x rest tail) := by
  unfold State.recordWritten
  repeat' first
    | with_reducible assumption
    | intro _
    | with_reducible apply Moves.ite
    | with_reducible apply State.wr_moves
    | with_reducible apply State.modRing_moves
    | with_reducible apply State.sendRingVector_moves
    | with_reducible apply State.showFull_moves
    | dsimp only
    | split
    | with_reducible apply Moves.record
    | with_reducible rfl
    | exact hs.2.2 _ (by simp)
    | exact hs.2.1 _ (by decide +kernel)
    | exact Scope.within.trans (by decide +kernel) hs

theorem execCompletionRecordAccepted_moves {s0 : State} {s : State} (h : Moves σ s0 s) (c : Ch) (r : RingId) (hs : Scope.within ⟨true, [.out, .msix, .xlat, .recorder, .chans], [.hmmu, .ctx, .rpl, .grm, .cmmu, .wst, .cvu, .hbmc, .ring, .eng, .door]⟩ σ) :
    MovesResult σ s0 (execCompletionRecordAccepted c r s) := by
  unfold execCompletionRecordAccepted
  repeat' first
    | with_reducible assumption
    | intro _
    | with_reducible apply Moves.ite
    | with_reducible apply State.recordWritten_moves
    | with_reducible apply State.writeRecord_moves
    | with_reducible apply MovesResult.live
    | with_reducible apply MovesResult.next
    | with_reducible refine Moves.fstOf (by with_reducible assumption) ?_
    | dsimp only
    | split
    | with_reducible apply Moves.record
    | with_reducible rfl
    | exact hs.2.2 _ (by simp)
    | exact hs.2.1 _ (by decide +kernel)
    | exact Scope.within.trans (by decide +kernel) hs

theorem State.resetRing_moves {s0 : State} {s : State} (h : Moves σ s0 s) (c : Nat) (r : Nat) (hs : Scope.within ⟨false, [.out, .msix, .recorder, .chans], [.rpl, .ring, .door]⟩ σ) :
    Moves σ s0 (State.resetRing s c r) := by
  unfold State.resetRing
  repeat' first
    | with_reducible assumption
    | intro _
    | with_reducible apply Moves.ite
    | with_reducible apply State.wr_moves
    | with_reducible apply State.modChan_moves
    | with_reducible apply State.logTo_moves
    | with_reducible apply State.modRing_moves
    | with_reducible apply State.showFull_moves
    | with_reducible apply State.stopRing_moves
    | exact StoresMove.of_eq rfl rfl rfl
    | with_reducible apply Moves.fold
    | with_reducible apply Moves.foldPair
    | dsimp only
    | split
    | with_reducible apply Moves.record
    | with_reducible rfl
    | exact hs.2.2 _ (by simp)
    | exact hs.2.1 _ (by decide +kernel)
    | exact Scope.within.trans (by decide +kernel) hs

end Sys2Proof.Machine
end

