-- ==== Sys2Proof/Laws/MovesRings.lean ====
section
/-! SUPPORT. What the functions of Machine/Rings.lean can do to a state: each keeps the queue and the
canonical form of the stores, only adds to the output and keeps the registers 32 bits wide (`Moves`). -/

set_option Elab.async false

namespace Sys2Proof.Machine
variable {σ : Scope}

theorem State.logWrite_moves {s0 : State} {s : State} (h : Moves σ s0 s) (m : Master) (p : Page) (off : Nat) (v : Nat) (hs : Scope.within ⟨false, [.out, .msix, .recorder], [.rpl]⟩ σ) :
    Moves σ s0 (State.logWrite s m p off v) := by
  unfold State.logWrite
  repeat' first
    | with_reducible assumption
    | with_reducible apply Moves.ite
    | with_reducible apply State.logTo_moves
    | with_reducible refine Moves.fstOf (by with_reducible assumption) ?_
    | dsimp only
    | split

theorem execTailWrite_moves {s0 : State} {s : State} (h : Moves σ s0 s) (m : Master) (c : Ch) (r : RingId) (v : Word) (hs : Scope.within ⟨false, [.out, .msix, .recorder, .chans], [.rpl, .ring, .door]⟩ σ) :
    MovesResult σ s0 (execTailWrite m c r v s) := by
  unfold execTailWrite
  repeat' first
    | with_reducible assumption
    | intro _
    | with_reducible apply Moves.ite
    | with_reducible apply State.wr_moves
    | with_reducible apply State.bump_moves
    | with_reducible apply State.raise_moves
    | with_reducible apply State.intoCh_moves
    | with_reducible apply State.logWrite_moves
    | with_reducible apply MovesResult.live
    | with_reducible apply MovesResult.next
    | dsimp only
    | split
    | with_reducible apply Moves.record
    | with_reducible rfl
    | exact hs.2.2 _ (by simp)
    | exact hs.2.1 _ (by decide +kernel)
    | exact Scope.within.trans (by decide +kernel) hs

theorem execResume_moves {s0 : State} {s : State} (h : Moves σ s0 s) (m : Master) (c : Ch) (r : RingId) (v : Word) (hs : Scope.within ⟨false, [.out, .msix, .recorder, .chans], [.rpl, .door]⟩ σ) :
    MovesResult σ s0 (execResume m c r v s) := by
  unfold execResume
  repeat' first
    | with_reducible assumption
    | intro _
    | with_reducible apply Moves.ite
    | with_reducible apply State.wr_moves
    | with_reducible apply State.logWrite_moves
    | with_reducible apply State.modRing_moves
    | with_reducible apply MovesResult.live
    | with_reducible apply MovesResult.next
    | dsimp only
    | split
    | with_reducible apply Moves.record
    | with_reducible rfl
    | exact hs.2.2 _ (by simp)
    | exact hs.2.1 _ (by decide +kernel)
    | exact Scope.within.trans (by decide +kernel) hs

theorem execCplHeadWrite_moves {s0 : State} {s : State} (h : Moves σ s0 s) (m : Master) (c : Ch) (r : RingId) (v : Word) (hs : Scope.within ⟨false, [.out, .msix, .recorder], [.rpl, .ring, .door]⟩ σ) :
    MovesResult σ s0 (execCplHeadWrite m c r v s) := by
  unfold execCplHeadWrite
  repeat' first
    | with_reducible assumption
    | intro _
    | with_reducible apply Moves.ite
    | with_reducible apply State.wr_moves
    | with_reducible apply State.logWrite_moves
    | with_reducible apply State.showFull_moves
    | with_reducible apply MovesResult.live
    | with_reducible apply MovesResult.next
    | dsimp only
    | split
    | with_reducible apply Moves.record
    | with_reducible rfl
    | exact hs.2.2 _ (by simp)
    | exact hs.2.1 _ (by decide +kernel)
    | exact Scope.within.trans (by decide +kernel) hs

theorem execFetchCommand_moves {s0 : State} {s : State} (h : Moves σ s0 s) (c : Ch) (hs : Scope.within ⟨false, [.out, .msix, .recorder, .chans], [.rpl]⟩ σ) :
    MovesResult σ s0 (execFetchCommand c s) := by
  unfold execFetchCommand
  repeat' first
    | with_reducible assumption
    | intro _
    | with_reducible apply Moves.ite
    | with_reducible apply State.modChan_moves
    | with_reducible apply State.logDec_moves
    | with_reducible apply State.modRing_moves
    | with_reducible apply State.recordStall_moves
    | exact StoresMove.of_eq rfl rfl rfl
    | with_reducible apply MovesResult.live
    | with_reducible apply MovesResult.next
    | with_reducible refine Moves.fstOf (by with_reducible assumption) ?_
    | assumption
    | dsimp only
    | split
    | with_reducible apply Moves.record
    | with_reducible rfl
    | exact hs.2.2 _ (by simp)
    | exact hs.2.1 _ (by decide +kernel)
    | exact Scope.within.trans (by decide +kernel) hs

theorem readEntries_moves {s0 : State} {s : State} (h : Moves σ s0 s) (a : MemAccess) (vas : List Nat) (ext : List Byte) (hs : Scope.within ⟨false, [.out, .msix, .xlat, .recorder], [.hmmu, .ctx, .rpl, .grm, .cmmu, .wst, .cvu, .hbmc, .ring, .eng, .door]⟩ σ) :
    Moves σ s0 (readEntries a vas s ext).1 := by
  unfold readEntries
  repeat' first
    | with_reducible assumption
    | intro _
    | with_reducible apply Moves.ite
    | with_reducible apply State.readVa_moves
    | with_reducible apply Moves.fold
    | with_reducible apply Moves.foldPair
    | with_reducible apply Moves.iteFst

theorem State.takeCommand_moves {s0 : State} {s : State} (h : Moves σ s0 s) (c : Nat) (r : Nat) (ds : List Nat) (hs : Scope.within ⟨false, [.dlm, .chans], [.ctx, .door]⟩ σ) :
    Moves σ s0 (State.takeCommand s c r ds) := by
  unfold State.takeCommand
  repeat' first
    | with_reducible assumption
    | intro _
    | with_reducible apply Moves.ite
    | with_reducible apply State.wr_moves
    | with_reducible apply State.modChan_moves
    | with_reducible apply State.active_moves
    | with_reducible apply State.fallbackFetched_moves
    | with_reducible apply State.modRing_moves
    | exact StoresMove.of_eq rfl rfl rfl
    | dsimp only
    | split
    | with_reducible apply Moves.record
    | with_reducible rfl
    | exact hs.2.2 _ (by simp)
    | exact hs.2.1 _ (by decide +kernel)
    | exact Scope.within.trans (by decide +kernel) hs

theorem State.skipRing_moves {s0 : State} {s : State} (h : Moves σ s0 s) (c : Nat) (r : Nat) (hs : Scope.within ⟨false, [.chans], []⟩ σ) :
    Moves σ s0 (State.skipRing s c r) := by
  unfold State.skipRing
  repeat' first
    | with_reducible assumption
    | intro _
    | with_reducible apply Moves.ite
    | with_reducible apply State.modRing_moves

theorem State.fetchCommand_moves {s0 : State} {s : State} (h : Moves σ s0 s) (c : Ch) (r : RingId) (ext : List Byte) (hs : Scope.within ⟨false, [.out, .msix, .xlat, .dlm, .recorder, .chans], [.hmmu, .ctx, .rpl, .grm, .cmmu, .wst, .cvu, .hbmc, .ring, .eng, .door]⟩ σ) :
    Moves σ s0 (State.fetchCommand s c r ext) := by
  unfold State.fetchCommand
  repeat' first
    | with_reducible assumption
    | intro _
    | with_reducible apply Moves.ite
    | with_reducible apply State.skipRing_moves
    | with_reducible apply State.takeCommand_moves
    | with_reducible apply readEntries_moves
    | with_reducible refine Moves.fstOf (by with_reducible assumption) ?_
    | split
    | extract_lets
    | with_reducible apply Moves.record
    | with_reducible rfl
    | exact hs.2.2 _ (by simp)
    | exact hs.2.1 _ (by decide +kernel)
    | exact Scope.within.trans (by decide +kernel) hs

theorem execDescriptorReadReturn_moves {s0 : State} {s : State} (h : Moves σ s0 s) (c : Ch) (r : RingId) (ext : List Byte) (hs : Scope.within ⟨false, [.out, .msix, .xlat, .dlm, .recorder, .chans], [.hmmu, .ctx, .rpl, .grm, .cmmu, .wst, .cvu, .hbmc, .ring, .eng, .door]⟩ σ) :
    MovesResult σ s0 (execDescriptorReadReturn c r ext s) := by
  unfold execDescriptorReadReturn
  repeat' first
    | with_reducible assumption
    | intro _
    | with_reducible apply Moves.ite
    | with_reducible apply State.fetchCommand_moves
    | with_reducible apply State.skipRing_moves
    | with_reducible apply MovesResult.live
    | with_reducible apply MovesResult.next
    | dsimp only
    | split
    | with_reducible apply Moves.record
    | with_reducible rfl
    | exact hs.2.2 _ (by simp)
    | exact hs.2.1 _ (by decide +kernel)
    | exact Scope.within.trans (by decide +kernel) hs

theorem State.notePlaced_moves {s0 : State} {s : State} (h : Moves σ s0 s) (c : Nat) (h : HostCmd) (k : EngCmd) (slot : Nat) (hs : Scope.within ⟨false, [.out, .drawn, .msix, .dlm, .recorder, .chans], [.dlm, .ctx, .rpl]⟩ σ) :
    Moves σ s0 (State.notePlaced s c h k slot) := by
  unfold State.notePlaced
  repeat' first
    | with_reducible assumption
    | intro _
    | with_reducible apply Moves.ite
    | with_reducible apply State.modChan_moves
    | with_reducible apply State.active_moves
    | with_reducible apply State.modCmd_moves
    | with_reducible apply State.modRing_moves
    | with_reducible apply State.pastSplit_moves
    | with_reducible apply State.stepBegin_moves
    | with_reducible apply State.stepPlaced_moves
    | exact StoresMove.of_eq rfl rfl rfl
    | dsimp only
    | split
    | with_reducible apply Moves.record
    | with_reducible rfl
    | exact hs.2.2 _ (by simp)
    | exact hs.2.1 _ (by decide +kernel)
    | exact Scope.within.trans (by decide +kernel) hs

theorem State.placeNext_moves {s0 : State} {s : State} (h : Moves σ s0 s) (c : Nat) (h : HostCmd) (hs : Scope.within ⟨false, [.out, .drawn, .msix, .dlm, .recorder, .chans], [.dlm, .ctx, .rpl, .eng]⟩ σ) :
    Moves σ s0 (State.placeNext s c h).1 := by
  unfold State.placeNext
  repeat' first
    | with_reducible assumption
    | intro _
    | with_reducible apply Moves.ite
    | with_reducible apply State.bump_moves
    | with_reducible apply State.logDec_moves
    | with_reducible apply State.modCvu_moves
    | with_reducible apply State.modEngine_moves
    | with_reducible apply State.modRing_moves
    | with_reducible apply State.notePlaced_moves
    | with_reducible apply State.stateMap_moves
    | with_reducible apply Moves.iteFst
    | with_reducible refine Moves.fstOf (by with_reducible assumption) ?_
    | dsimp only
    | split
    | with_reducible apply Moves.record
    | with_reducible rfl
    | exact hs.2.2 _ (by simp)
    | exact hs.2.1 _ (by decide +kernel)
    | exact Scope.within.trans (by decide +kernel) hs

theorem State.turn_moves {s0 s : State} (h : Moves σ s0 s) (c r fuel n : Nat) (hs : Scope.within ⟨false, [.out, .drawn, .msix, .dlm, .recorder, .chans], [.dlm, .ctx, .rpl, .eng]⟩ σ) :
    Moves σ s0 (State.turn c r fuel (s, n)).1 := by
  induction fuel generalizing s n with
  | zero => exact h
  | succ k ih =>
    unfold State.turn
    repeat' first
      | with_reducible assumption
      | intro _
      | with_reducible apply Moves.ite
      | with_reducible apply ih
      | with_reducible apply State.placeNext_moves
      | with_reducible apply Moves.iteFst
      | with_reducible refine Moves.fstOf (by with_reducible assumption) ?_
      | dsimp only
      | split
      | with_reducible rfl
      | exact hs.2.2 _ (by simp)
      | exact hs.2.1 _ (by decide +kernel)
      | exact Scope.within.trans (by decide +kernel) hs
      | exact .inr (hs.2.1 _ (by decide +kernel))
      | with_reducible exact .inl rfl
      | exact hs.1 rfl

theorem execSplitTurn_moves {s0 : State} {s : State} (h : Moves σ s0 s) (c : Ch) (hs : Scope.within ⟨false, [.out, .drawn, .msix, .dlm, .streams, .recorder, .chans], [.dlm, .ctx, .rpl, .ring, .eng, .door]⟩ σ) :
    MovesResult σ s0 (execSplitTurn c s) := by
  unfold execSplitTurn
  repeat' first
    | with_reducible assumption
    | intro _
    | with_reducible apply Moves.ite
    | with_reducible apply State.modChan_moves
    | with_reducible apply State.finish_moves
    | with_reducible apply State.logDec_moves
    | with_reducible apply State.recordStall_moves
    | with_reducible apply State.turn_moves
    | exact StoresMove.of_eq rfl rfl rfl
    | with_reducible apply MovesResult.live
    | with_reducible apply MovesResult.next
    | with_reducible apply Moves.elimSnd
    | with_reducible apply Moves.elim
    | with_reducible apply Moves.elimSndFst
    | with_reducible apply Moves.elimFst
    | with_reducible refine Moves.fstOf (by with_reducible assumption) ?_
    | dsimp only
    | split
    | with_reducible apply Moves.record
    | with_reducible rfl
    | exact hs.2.2 _ (by simp)
    | exact hs.2.1 _ (by decide +kernel)
    | exact Scope.within.trans (by decide +kernel) hs

theorem State.acceptSplit_moves {s0 : State} {s : State} (h : Moves σ s0 s) (c : Nat) (h : HostCmd) (hs : Scope.within ⟨false, [.dlm, .chans], []⟩ σ) :
    Moves σ s0 (State.acceptSplit s c h) := by
  unfold State.acceptSplit
  repeat' first
    | with_reducible assumption
    | intro _
    | with_reducible apply Moves.ite
    | with_reducible apply State.modChan_moves
    | with_reducible apply State.modCmd_moves
    | with_reducible apply State.pastSplit_moves
    | with_reducible apply State.stepBegin_moves
    | exact StoresMove.of_eq rfl rfl rfl
    | dsimp only
    | split
    | with_reducible apply Moves.record
    | with_reducible rfl
    | exact hs.2.2 _ (by simp)
    | exact hs.2.1 _ (by decide +kernel)
    | exact Scope.within.trans (by decide +kernel) hs

theorem State.acceptCopy_moves {s0 : State} {s : State} (h : Moves σ s0 s) (c : Nat) (h : HostCmd) (hs : Scope.within ⟨false, [.out, .drawn, .msix, .dlm, .recorder, .chans], [.dlm, .ctx, .rpl]⟩ σ) :
    Moves σ s0 (State.acceptCopy s c h) := by
  unfold State.acceptCopy
  repeat' first
    | with_reducible assumption
    | intro _
    | with_reducible apply Moves.ite
    | with_reducible apply State.modChan_moves
    | with_reducible apply State.modCmd_moves
    | with_reducible apply State.notePlaced_moves
    | exact StoresMove.of_eq rfl rfl rfl
    | dsimp only
    | split
    | with_reducible apply Moves.record
    | with_reducible rfl
    | exact hs.2.2 _ (by simp)
    | exact hs.2.1 _ (by decide +kernel)
    | exact Scope.within.trans (by decide +kernel) hs

theorem State.acceptFork_moves {s0 : State} {s : State} (h : Moves σ s0 s) (c : Nat) (h : HostCmd) (hs : Scope.within ⟨false, [.out, .drawn, .msix, .dlm, .streams, .recorder, .chans], [.dlm, .ctx, .rpl]⟩ σ) :
    Moves σ s0 (State.acceptFork s c h) := by
  unfold State.acceptFork
  repeat' first
    | with_reducible assumption
    | intro _
    | with_reducible apply Moves.ite
    | with_reducible apply State.modChan_moves
    | with_reducible apply State.modCmd_moves
    | with_reducible apply State.modStream_moves
    | with_reducible apply State.notePlaced_moves
    | exact StoresMove.of_eq rfl rfl rfl
    | with_reducible apply Moves.fold
    | with_reducible apply Moves.foldPair
    | dsimp only
    | split
    | with_reducible apply Moves.record
    | with_reducible rfl
    | exact hs.2.2 _ (by simp)
    | exact hs.2.1 _ (by decide +kernel)
    | exact Scope.within.trans (by decide +kernel) hs

theorem State.accept_moves {s0 : State} {s : State} (h : Moves σ s0 s) (c : Nat) (h : HostCmd) (hs : Scope.within ⟨false, [.out, .drawn, .msix, .dlm, .streams, .recorder, .chans], [.dlm, .ctx, .rpl]⟩ σ) :
    Moves σ s0 (State.accept s c h) := by
  unfold State.accept
  repeat' first
    | with_reducible assumption
    | with_reducible apply Moves.ite
    | with_reducible apply State.acceptCopy_moves
    | with_reducible apply State.acceptFork_moves
    | with_reducible apply State.acceptSplit_moves
    | dsimp only
    | split
    | with_reducible apply Moves.record
    | with_reducible rfl
    | exact hs.2.2 _ (by simp)
    | exact hs.2.1 _ (by decide +kernel)
    | exact Scope.within.trans (by decide +kernel) hs

theorem State.rejectCmd_moves {s0 : State} {s : State} (h : Moves σ s0 s) (c : Ch) (h : HostCmd) (st : Nat) (hs : Scope.within ⟨false, [.out, .msix, .dlm, .streams, .recorder, .chans], [.dlm, .rpl, .wst, .ring, .door]⟩ σ) :
    Moves σ s0 (State.rejectCmd s c h st) := by
  unfold State.rejectCmd
  repeat' first
    | with_reducible assumption
    | with_reducible apply Moves.ite
    | with_reducible apply State.bump_moves
    | with_reducible apply State.raise_moves
    | with_reducible apply State.finish_moves
    | dsimp only
    | split
    | with_reducible apply Moves.record
    | with_reducible rfl
    | exact hs.2.2 _ (by simp)
    | exact hs.2.1 _ (by decide +kernel)
    | exact Scope.within.trans (by decide +kernel) hs

theorem State.check_moves {s0 : State} {s : State} (h : Moves σ s0 s) (c : Ch) (h : HostCmd) (next : State → State) (hs : Scope.within ⟨false, [.out, .msix, .dlm, .streams, .recorder, .chans], [.dlm, .rpl, .wst, .ring, .door]⟩ σ) (h_next : ∀ u, Moves σ s0 u → Moves σ s0 (next u)) :
    Moves σ s0 (State.check s c h next) := by
  unfold State.check
  repeat' first
    | with_reducible assumption
    | with_reducible apply Moves.ite
    | with_reducible apply h_next
    | with_reducible apply State.finish_moves
    | with_reducible apply State.rejectCmd_moves
    | with_reducible refine Moves.fstOf (by with_reducible assumption) ?_
    | dsimp only
    | split
    | with_reducible apply Moves.record
    | with_reducible rfl
    | exact hs.2.2 _ (by simp)
    | exact hs.2.1 _ (by decide +kernel)
    | exact Scope.within.trans (by decide +kernel) hs

theorem State.splitHead_moves {s0 : State} {s : State} (h : Moves σ s0 s) (c : Ch) (r : RingId) (op : Nat) (act : HostCmd → State) (hs : Scope.within ⟨false, [], [.rpl]⟩ σ) (h_act : ∀ x0, Moves σ s0 (act x0)) :
    Moves σ s0 (State.splitHead s c r op act) := by
  unfold State.splitHead
  repeat' first
    | with_reducible assumption
    | with_reducible apply Moves.ite
    | with_reducible apply h_act
    | with_reducible apply State.recordStall_moves
    | with_reducible refine Moves.fstOf (by with_reducible assumption) ?_
    | dsimp only
    | split

theorem State.splitCommand_moves {s0 : State} {s : State} (h : Moves σ s0 s) (c : Ch) (r : RingId) (op : Nat) (hs : Scope.within ⟨false, [.out, .drawn, .msix, .dlm, .streams, .recorder, .chans], [.dlm, .ctx, .rpl, .wst, .ring, .door]⟩ σ) :
    Moves σ s0 (State.splitCommand s c r op) := by
  unfold State.splitCommand
  repeat' first
    | with_reducible assumption
    | intro _
    | with_reducible apply Moves.ite
    | with_reducible apply State.accept_moves
    | with_reducible apply State.check_moves
    | with_reducible apply State.modCmd_moves
    | with_reducible apply State.splitHead_moves
    | dsimp only
    | split
    | with_reducible apply Moves.record
    | with_reducible rfl
    | exact hs.2.2 _ (by simp)
    | exact hs.2.1 _ (by decide +kernel)
    | exact Scope.within.trans (by decide +kernel) hs

theorem execMatmul_moves {s0 : State} {s : State} (h : Moves σ s0 s) (c : Ch) (r : RingId) (hs : Scope.within ⟨false, [.out, .drawn, .msix, .dlm, .streams, .recorder, .chans], [.dlm, .ctx, .rpl, .wst, .ring, .door]⟩ σ) :
    MovesResult σ s0 (execMatmul c r s) := by
  unfold execMatmul
  repeat' first
    | with_reducible assumption
    | intro _
    | with_reducible apply Moves.ite
    | with_reducible apply State.splitCommand_moves
    | with_reducible apply MovesResult.live

theorem execConv_moves {s0 : State} {s : State} (h : Moves σ s0 s) (c : Ch) (r : RingId) (hs : Scope.within ⟨false, [.out, .drawn, .msix, .dlm, .streams, .recorder, .chans], [.dlm, .ctx, .rpl, .wst, .ring, .door]⟩ σ) :
    MovesResult σ s0 (execConv c r s) := by
  unfold execConv
  repeat' first
    | with_reducible assumption
    | intro _
    | with_reducible apply Moves.ite
    | with_reducible apply State.splitCommand_moves
    | with_reducible apply MovesResult.live

theorem execDwconv_moves {s0 : State} {s : State} (h : Moves σ s0 s) (c : Ch) (r : RingId) (hs : Scope.within ⟨false, [.out, .drawn, .msix, .dlm, .streams, .recorder, .chans], [.dlm, .ctx, .rpl, .wst, .ring, .door]⟩ σ) :
    MovesResult σ s0 (execDwconv c r s) := by
  unfold execDwconv
  repeat' first
    | with_reducible assumption
    | intro _
    | with_reducible apply Moves.ite
    | with_reducible apply State.splitCommand_moves
    | with_reducible apply MovesResult.live

theorem execPool_moves {s0 : State} {s : State} (h : Moves σ s0 s) (c : Ch) (r : RingId) (hs : Scope.within ⟨false, [.out, .drawn, .msix, .dlm, .streams, .recorder, .chans], [.dlm, .ctx, .rpl, .wst, .ring, .door]⟩ σ) :
    MovesResult σ s0 (execPool c r s) := by
  unfold execPool
  repeat' first
    | with_reducible assumption
    | intro _
    | with_reducible apply Moves.ite
    | with_reducible apply State.splitCommand_moves
    | with_reducible apply MovesResult.live

theorem execScan_moves {s0 : State} {s : State} (h : Moves σ s0 s) (c : Ch) (r : RingId) (hs : Scope.within ⟨false, [.out, .drawn, .msix, .dlm, .streams, .recorder, .chans], [.dlm, .ctx, .rpl, .wst, .ring, .door]⟩ σ) :
    MovesResult σ s0 (execScan c r s) := by
  unfold execScan
  repeat' first
    | with_reducible assumption
    | intro _
    | with_reducible apply Moves.ite
    | with_reducible apply State.splitCommand_moves
    | with_reducible apply MovesResult.live

theorem execStats_moves {s0 : State} {s : State} (h : Moves σ s0 s) (c : Ch) (r : RingId) (hs : Scope.within ⟨false, [.out, .drawn, .msix, .dlm, .streams, .recorder, .chans], [.dlm, .ctx, .rpl, .wst, .ring, .door]⟩ σ) :
    MovesResult σ s0 (execStats c r s) := by
  unfold execStats
  repeat' first
    | with_reducible assumption
    | intro _
    | with_reducible apply Moves.ite
    | with_reducible apply State.splitCommand_moves
    | with_reducible apply MovesResult.live

theorem execArgmax_moves {s0 : State} {s : State} (h : Moves σ s0 s) (c : Ch) (r : RingId) (hs : Scope.within ⟨false, [.out, .drawn, .msix, .dlm, .streams, .recorder, .chans], [.dlm, .ctx, .rpl, .wst, .ring, .door]⟩ σ) :
    MovesResult σ s0 (execArgmax c r s) := by
  unfold execArgmax
  repeat' first
    | with_reducible assumption
    | intro _
    | with_reducible apply Moves.ite
    | with_reducible apply State.splitCommand_moves
    | with_reducible apply MovesResult.live

theorem execRegroup_moves {s0 : State} {s : State} (h : Moves σ s0 s) (c : Ch) (r : RingId) (hs : Scope.within ⟨false, [.out, .drawn, .msix, .dlm, .streams, .recorder, .chans], [.dlm, .ctx, .rpl, .wst, .ring, .door]⟩ σ) :
    MovesResult σ s0 (execRegroup c r s) := by
  unfold execRegroup
  repeat' first
    | with_reducible assumption
    | intro _
    | with_reducible apply Moves.ite
    | with_reducible apply State.splitCommand_moves
    | with_reducible apply MovesResult.live

theorem execFork_moves {s0 : State} {s : State} (h : Moves σ s0 s) (c : Ch) (r : RingId) (hs : Scope.within ⟨false, [.out, .drawn, .msix, .dlm, .streams, .recorder, .chans], [.dlm, .ctx, .rpl, .wst, .ring, .door]⟩ σ) :
    MovesResult σ s0 (execFork c r s) := by
  unfold execFork
  repeat' first
    | with_reducible assumption
    | intro _
    | with_reducible apply Moves.ite
    | with_reducible apply State.splitCommand_moves
    | with_reducible apply MovesResult.live

theorem execLoadW_moves {s0 : State} {s : State} (h : Moves σ s0 s) (c : Ch) (r : RingId) (hs : Scope.within ⟨false, [.out, .drawn, .msix, .dlm, .streams, .recorder, .chans], [.dlm, .ctx, .rpl, .wst, .ring, .door]⟩ σ) :
    MovesResult σ s0 (execLoadW c r s) := by
  unfold execLoadW
  repeat' first
    | with_reducible assumption
    | intro _
    | with_reducible apply Moves.ite
    | with_reducible apply State.splitCommand_moves
    | with_reducible apply MovesResult.live

theorem execDrain_moves {s0 : State} {s : State} (h : Moves σ s0 s) (c : Ch) (r : RingId) (hs : Scope.within ⟨false, [.out, .drawn, .msix, .dlm, .streams, .recorder, .chans], [.dlm, .ctx, .rpl, .wst, .ring, .door]⟩ σ) :
    MovesResult σ s0 (execDrain c r s) := by
  unfold execDrain
  repeat' first
    | with_reducible assumption
    | intro _
    | with_reducible apply Moves.ite
    | with_reducible apply State.splitCommand_moves
    | with_reducible apply MovesResult.live

theorem execCopy_moves {s0 : State} {s : State} (h : Moves σ s0 s) (c : Ch) (r : RingId) (hs : Scope.within ⟨false, [.out, .drawn, .msix, .dlm, .streams, .recorder, .chans], [.dlm, .ctx, .rpl, .wst, .ring, .door]⟩ σ) :
    MovesResult σ s0 (execCopy c r s) := by
  unfold execCopy
  repeat' first
    | with_reducible assumption
    | intro _
    | with_reducible apply Moves.ite
    | with_reducible apply State.splitCommand_moves
    | with_reducible apply MovesResult.live

theorem execCvu_moves {s0 : State} {s : State} (h : Moves σ s0 s) (c : Ch) (r : RingId) (hs : Scope.within ⟨false, [.out, .drawn, .msix, .dlm, .streams, .recorder, .chans], [.dlm, .ctx, .rpl, .wst, .ring, .door]⟩ σ) :
    MovesResult σ s0 (execCvu c r s) := by
  unfold execCvu
  repeat' first
    | with_reducible assumption
    | intro _
    | with_reducible apply Moves.ite
    | with_reducible apply State.splitCommand_moves
    | with_reducible apply MovesResult.live

theorem execSplitReadReturn_moves {s0 : State} {s : State} (h : Moves σ s0 s) (c : Ch) (r : RingId) (ext : List Byte) (hs : Scope.within ⟨false, [.out, .drawn, .msix, .xlat, .dlm, .streams, .recorder, .chans], [.hmmu, .dlm, .ctx, .rpl, .grm, .cmmu, .wst, .cvu, .hbmc, .ring, .eng, .door]⟩ σ) :
    MovesResult σ s0 (execSplitReadReturn c r ext s) := by
  unfold execSplitReadReturn
  repeat' first
    | with_reducible assumption
    | intro _
    | with_reducible apply Moves.ite
    | with_reducible apply State.accept_moves
    | with_reducible apply State.modCmd_moves
    | with_reducible apply State.readVa_moves
    | with_reducible apply State.recordStall_moves
    | with_reducible apply State.rejectCmd_moves
    | with_reducible apply MovesResult.live
    | with_reducible apply MovesResult.next
    | with_reducible refine Moves.fstOf (by with_reducible assumption) ?_
    | dsimp only
    | split
    | with_reducible apply Moves.record
    | with_reducible rfl
    | exact hs.2.2 _ (by simp)
    | exact hs.2.1 _ (by decide +kernel)
    | exact Scope.within.trans (by decide +kernel) hs

theorem State.syncHead_moves {s0 : State} {s : State} (h : Moves σ s0 s) (c : Ch) (r : RingId) (op : Nat) (act : HostCmd → State → State) (hs : Scope.within ⟨false, [.out, .msix, .dlm, .streams, .recorder, .chans], [.dlm, .ctx, .rpl, .wst, .ring, .door]⟩ σ) (h_act : ∀ x0 u, Moves σ s0 u → Moves σ s0 (act x0 u)) :
    Moves σ s0 (State.syncHead s c r op act) := by
  unfold State.syncHead
  repeat' first
    | with_reducible assumption
    | intro _
    | with_reducible apply Moves.ite
    | with_reducible apply h_act
    | with_reducible apply State.active_moves
    | with_reducible apply State.check_moves
    | with_reducible apply State.modCmd_moves
    | with_reducible apply State.splitHead_moves
    | with_reducible apply State.stepBegin_moves
    | dsimp only
    | split
    | with_reducible apply Moves.record
    | with_reducible rfl
    | exact hs.2.2 _ (by simp)
    | exact hs.2.1 _ (by decide +kernel)
    | exact Scope.within.trans (by decide +kernel) hs

theorem execFence_moves {s0 : State} {s : State} (h : Moves σ s0 s) (c : Ch) (r : RingId) (hs : Scope.within ⟨false, [.out, .msix, .dlm, .streams, .recorder, .chans], [.dlm, .ctx, .rpl, .wst, .ring, .door]⟩ σ) :
    MovesResult σ s0 (execFence c r s) := by
  unfold execFence
  repeat' first
    | with_reducible assumption
    | intro _
    | with_reducible apply Moves.ite
    | with_reducible apply State.finish_moves
    | with_reducible apply State.syncHead_moves
    | with_reducible apply MovesResult.live
    | with_reducible apply MovesResult.next
    | dsimp only
    | split
    | with_reducible apply Moves.record
    | with_reducible rfl
    | exact hs.2.2 _ (by simp)
    | exact hs.2.1 _ (by decide +kernel)
    | exact Scope.within.trans (by decide +kernel) hs

theorem execSignal_moves {s0 : State} {s : State} (h : Moves σ s0 s) (c : Ch) (r : RingId) (hs : Scope.within ⟨false, [.out, .msix, .dlm, .streams, .recorder, .chans], [.dlm, .ctx, .rpl, .wst, .ring, .door]⟩ σ) :
    MovesResult σ s0 (execSignal c r s) := by
  unfold execSignal
  repeat' first
    | with_reducible assumption
    | intro _
    | with_reducible apply Moves.ite
    | with_reducible apply State.modRing_moves
    | with_reducible apply State.syncHead_moves
    | with_reducible apply MovesResult.live
    | with_reducible apply MovesResult.next
    | dsimp only
    | split
    | with_reducible apply Moves.record
    | with_reducible rfl
    | exact hs.2.2 _ (by simp)
    | exact hs.2.1 _ (by decide +kernel)
    | exact Scope.within.trans (by decide +kernel) hs

theorem execWait_moves {s0 : State} {s : State} (h : Moves σ s0 s) (c : Ch) (r : RingId) (hs : Scope.within ⟨false, [.out, .msix, .dlm, .streams, .recorder, .chans], [.dlm, .ctx, .rpl, .wst, .ring, .door]⟩ σ) :
    MovesResult σ s0 (execWait c r s) := by
  unfold execWait
  repeat' first
    | with_reducible assumption
    | intro _
    | with_reducible apply Moves.ite
    | with_reducible apply State.modRing_moves
    | with_reducible apply State.syncHead_moves
    | with_reducible apply MovesResult.live
    | with_reducible apply MovesResult.next
    | dsimp only
    | split
    | with_reducible apply Moves.record
    | with_reducible rfl
    | exact hs.2.2 _ (by simp)
    | exact hs.2.1 _ (by decide +kernel)
    | exact Scope.within.trans (by decide +kernel) hs

theorem State.rereads_moves {s0 : State} {s : State} (h : Moves σ s0 s) (c : Nat) (t : Target × Nat) (hs : Scope.within ⟨false, [.chans], []⟩ σ) :
    Moves σ s0 (State.rereads s c t) := by
  unfold State.rereads
  repeat' first
    | with_reducible assumption
    | intro _
    | with_reducible apply Moves.ite
    | with_reducible apply State.modRing_moves
    | with_reducible apply Moves.fold

theorem execSignalWriteAccepted_moves {s0 : State} {s : State} (h : Moves σ s0 s) (c : Ch) (r : RingId) (hs : Scope.within ⟨true, [.out, .msix, .xlat, .dlm, .streams, .recorder, .chans], [.hmmu, .dlm, .ctx, .rpl, .grm, .cmmu, .wst, .cvu, .hbmc, .ring, .eng, .door]⟩ σ) :
    MovesResult σ s0 (execSignalWriteAccepted c r s) := by
  unfold execSignalWriteAccepted
  repeat' first
    | with_reducible assumption
    | intro _
    | with_reducible apply Moves.ite
    | with_reducible apply State.emit_moves
    | with_reducible apply State.countHbm_moves
    | with_reducible apply State.finish_moves
    | with_reducible apply State.modMem_moves
    | with_reducible apply State.modRing_moves
    | with_reducible apply State.reach_moves
    | with_reducible apply State.recordStall_moves
    | with_reducible apply State.rereads_moves
    | with_reducible apply MovesResult.live
    | with_reducible apply MovesResult.next
    | with_reducible exact Memory.put_wf _ _ (by assumption)
    | with_reducible refine Moves.fstOf (by with_reducible assumption) ?_
    | dsimp only
    | split
    | with_reducible apply Moves.record
    | with_reducible rfl
    | exact hs.2.2 _ (by simp)
    | exact hs.2.1 _ (by decide +kernel)
    | exact Scope.within.trans (by decide +kernel) hs

theorem execWaitPollExpiry_moves {s0 : State} {s : State} (h : Moves σ s0 s) (c : Ch) (r : RingId) (hs : Scope.within ⟨false, [.chans], []⟩ σ) :
    MovesResult σ s0 (execWaitPollExpiry c r s) := by
  unfold execWaitPollExpiry
  repeat' first
    | with_reducible assumption
    | intro _
    | with_reducible apply Moves.ite
    | with_reducible apply State.modRing_moves
    | with_reducible apply MovesResult.live
    | with_reducible apply MovesResult.next
    | with_reducible refine Moves.fstOf (by with_reducible assumption) ?_
    | dsimp only
    | split

theorem execWaitReadReturn_moves {s0 : State} {s : State} (h : Moves σ s0 s) (c : Ch) (r : RingId) (ext : List Byte) (hs : Scope.within ⟨false, [.out, .msix, .xlat, .dlm, .streams, .recorder, .chans], [.hmmu, .dlm, .ctx, .rpl, .grm, .cmmu, .wst, .cvu, .hbmc, .ring, .eng, .door]⟩ σ) :
    MovesResult σ s0 (execWaitReadReturn c r ext s) := by
  unfold execWaitReadReturn
  repeat' first
    | with_reducible assumption
    | intro _
    | with_reducible apply Moves.ite
    | with_reducible apply State.finish_moves
    | with_reducible apply State.modRing_moves
    | with_reducible apply State.reach_moves
    | with_reducible apply State.readVa_moves
    | with_reducible apply State.recordStall_moves
    | with_reducible apply MovesResult.live
    | with_reducible apply MovesResult.next
    | with_reducible refine Moves.fstOf (by with_reducible assumption) ?_
    | dsimp only
    | split
    | with_reducible apply Moves.record
    | with_reducible rfl
    | exact hs.2.2 _ (by simp)
    | exact hs.2.1 _ (by decide +kernel)
    | exact Scope.within.trans (by decide +kernel) hs

theorem State.waitEnds_moves {s0 : State} {s : State} (h : Moves σ s0 s) (c : Ch) (r : RingId) (h : HostCmd) (hs : Scope.within ⟨false, [.out, .msix, .xlat, .dlm, .streams, .recorder, .chans], [.hmmu, .dlm, .rpl, .cmmu, .ring, .door]⟩ σ) :
    Moves σ s0 (State.waitEnds s c r h) := by
  unfold State.waitEnds
  repeat' first
    | with_reducible assumption
    | intro _
    | with_reducible apply Moves.ite
    | with_reducible apply State.finish_moves
    | with_reducible apply State.forgetAccesses_moves
    | with_reducible apply State.logOut_moves
    | with_reducible apply State.modRing_moves
    | with_reducible apply State.stopRing_moves
    | dsimp only
    | split
    | with_reducible apply Moves.record
    | with_reducible rfl
    | exact hs.2.2 _ (by simp)
    | exact hs.2.1 _ (by decide +kernel)
    | exact Scope.within.trans (by decide +kernel) hs

theorem execWaitTimeout_moves {s0 : State} {s : State} (h : Moves σ s0 s) (c : Ch) (r : RingId) (hs : Scope.within ⟨false, [.out, .msix, .xlat, .dlm, .streams, .recorder, .chans], [.hmmu, .dlm, .rpl, .cmmu, .ring, .door]⟩ σ) :
    MovesResult σ s0 (execWaitTimeout c r s) := by
  unfold execWaitTimeout
  repeat' first
    | with_reducible assumption
    | intro _
    | with_reducible apply Moves.ite
    | with_reducible apply State.recordStall_moves
    | with_reducible apply State.waitEnds_moves
    | with_reducible apply MovesResult.live
    | with_reducible apply MovesResult.next
    | with_reducible refine Moves.fstOf (by with_reducible assumption) ?_
    | dsimp only
    | split
    | with_reducible apply Moves.record
    | with_reducible rfl
    | exact hs.2.2 _ (by simp)
    | exact hs.2.1 _ (by decide +kernel)
    | exact Scope.within.trans (by decide +kernel) hs

end Sys2Proof.Machine
end

