-- ==== Sys2Proof/Laws/MovesCopies.lean ====
section
/-! SUPPORT. What the functions of Machine/Copies.lean can do to a state: each keeps the queue and the
canonical form of the stores, only adds to the output and keeps the registers 32 bits wide (`Moves`). -/

set_option Elab.async false

namespace Sys2Proof.Machine
variable {σ : Scope}

theorem State.copyWrite_moves {s0 : State} {s : State} (h : Moves σ s0 s) (c : Ch) (r : CopyRun) (bs : List Byte) (hs : Scope.within ⟨true, [.out, .msix, .xlat, .recorder, .chans], [.hmmu, .ctx, .rpl, .grm, .cmmu, .wst, .cvu, .hbmc, .ring, .eng, .door]⟩ σ) :
    Moves σ s0 (State.copyWrite s c r bs).1 := by
  unfold State.copyWrite
  repeat' first
    | with_reducible assumption
    | intro _
    | with_reducible apply Moves.ite
    | with_reducible apply State.modChan_moves
    | with_reducible apply State.writeVa_moves
    | exact StoresMove.changeOf (hs.1 rfl) (fun h => Memory.put_wf _ _ h) (fun h => h) (fun h => h)
    | exact StoresMove.of_eq rfl rfl rfl
    | with_reducible apply Moves.iteFst
    | with_reducible exact Memory.put_wf _ _ (by assumption)
    | dsimp only
    | split
    | with_reducible apply Moves.record
    | with_reducible rfl
    | exact hs.2.2 _ (by simp)
    | exact hs.2.1 _ (by decide +kernel)

theorem State.copyOn_moves {s0 s : State} (h : Moves σ s0 s) (c : Ch) (fuel : Nat) (r : CopyRun)
    (ext : List Byte) (hs : Scope.within ⟨true, [.out, .msix, .xlat, .recorder, .chans], [.hmmu, .ctx, .rpl, .grm, .cmmu, .wst, .cvu, .hbmc, .ring, .eng, .door]⟩ σ) : Moves σ s0 (State.copyOn c fuel s r ext).1 := by
  induction fuel generalizing s r ext with
  | zero => exact h
  | succ k ih =>
    unfold State.copyOn
    repeat' first
      | with_reducible assumption
      | intro _
      | with_reducible apply Moves.ite
      | with_reducible apply ih
      | with_reducible apply State.copyWrite_moves
      | with_reducible apply State.readVa_moves
      | with_reducible apply Moves.iteFst
      | with_reducible refine Moves.fstOf (by with_reducible assumption) ?_
      | dsimp only
      | split
      | with_reducible apply Moves.record
      | with_reducible rfl
      | exact hs.2.2 _ (by simp)
      | exact hs.2.1 _ (by decide +kernel)
      | exact Scope.within.trans (by decide +kernel) hs
      | exact .inr (hs.2.1 _ (by decide +kernel))
      | with_reducible exact .inl rfl
      | exact hs.1 rfl

theorem State.copyEnd_moves {s0 : State} {s : State} (h : Moves σ s0 s) (c : Nat) (k : EngCmd) (status : Nat) (hs : Scope.within ⟨false, [.chans], []⟩ σ) :
    Moves σ s0 (State.copyEnd s c k status) := by
  unfold State.copyEnd
  repeat' first
    | with_reducible assumption
    | intro _
    | with_reducible apply Moves.ite
    | with_reducible apply State.modChan_moves
    | with_reducible apply State.ecDone_moves
    | exact StoresMove.of_eq rfl rfl rfl
    | dsimp only
    | split
    | with_reducible apply Moves.record
    | with_reducible rfl
    | exact hs.2.2 _ (by simp)
    | exact hs.2.1 _ (by decide +kernel)

theorem execCopyUnitComplete_moves {s0 : State} {s : State} (h : Moves σ s0 s) (c : Ch) (ext : List Byte) (hs : Scope.within ⟨true, [.out, .msix, .xlat, .recorder, .chans], [.hmmu, .ctx, .rpl, .grm, .cmmu, .wst, .cvu, .hbmc, .ring, .eng, .door]⟩ σ) :
    MovesResult σ s0 (execCopyUnitComplete c ext s) := by
  unfold execCopyUnitComplete
  repeat' first
    | with_reducible assumption
    | intro _
    | with_reducible apply Moves.ite
    | with_reducible apply State.raise_moves
    | with_reducible apply State.modChan_moves
    | with_reducible apply State.active_moves
    | with_reducible apply State.copyEnd_moves
    | with_reducible apply State.copyOn_moves
    | with_reducible apply State.metPoison_moves
    | with_reducible apply State.recordStall_moves
    | exact StoresMove.of_eq rfl rfl rfl
    | with_reducible apply MovesResult.live
    | with_reducible apply MovesResult.next
    | with_reducible refine Moves.fstOf (by with_reducible assumption) ?_
    | dsimp only
    | split
    | with_reducible apply Moves.record
    | with_reducible rfl
    | exact hs.2.2 _ (by simp)
    | exact hs.2.1 _ (by decide +kernel)
    | exact Scope.within.trans (by decide +kernel) hs

theorem State.startFill_moves {s0 : State} {s : State} (h : Moves σ s0 s) (c : Nat) (b : Nat) (q : LodgerBuf) (hs : Scope.within ⟨false, [.chans], [.wst]⟩ σ) :
    Moves σ s0 (State.startFill s c b q) := by
  unfold State.startFill
  repeat' first
    | with_reducible assumption
    | intro _
    | with_reducible apply Moves.ite
    | with_reducible apply State.wr_moves
    | with_reducible apply State.modChan_moves
    | exact StoresMove.of_eq rfl rfl rfl
    | dsimp only
    | split
    | with_reducible apply Moves.record
    | with_reducible rfl
    | exact hs.2.2 _ (by simp)
    | exact hs.2.1 _ (by decide +kernel)

theorem execLodgerFillStart_moves {s0 : State} {s : State} (h : Moves σ s0 s) (c : Ch) (hs : Scope.within ⟨false, [.chans], [.wst]⟩ σ) :
    MovesResult σ s0 (execLodgerFillStart c s) := by
  unfold execLodgerFillStart
  repeat' first
    | with_reducible assumption
    | intro _
    | with_reducible apply Moves.ite
    | with_reducible apply State.startFill_moves
    | with_reducible apply MovesResult.live
    | with_reducible apply MovesResult.next
    | with_reducible refine Moves.fstOf (by with_reducible assumption) ?_
    | dsimp only
    | split

theorem State.placeHeld_moves {s0 : State} {s : State} (h : Moves σ s0 s) (c : Nat) (hs : Scope.within ⟨false, [.chans], []⟩ σ) :
    Moves σ s0 (State.placeHeld s c) := by
  unfold State.placeHeld
  repeat' first
    | with_reducible assumption
    | intro _
    | with_reducible apply Moves.ite
    | with_reducible apply State.modChan_moves
    | with_reducible apply State.modEngine_moves
    | exact StoresMove.of_eq rfl rfl rfl
    | with_reducible apply Moves.fold
    | with_reducible apply Moves.foldPair
    | with_reducible exact Memory.put_wf _ _ (by assumption)
    | dsimp only
    | split
    | with_reducible apply Moves.record
    | with_reducible rfl
    | exact hs.2.2 _ (by simp)
    | exact hs.2.1 _ (by decide +kernel)

theorem State.dropHeld_moves {s0 : State} {s : State} (h : Moves σ s0 s) (c : Nat) (gone : EngCmd → Bool) (hs : Scope.within ⟨false, [.chans], []⟩ σ) :
    Moves σ s0 (State.dropHeld s c gone) := by
  unfold State.dropHeld
  repeat' first
    | with_reducible assumption
    | intro _
    | with_reducible apply Moves.ite
    | with_reducible apply State.modChan_moves
    | with_reducible apply State.freeEntry_moves
    | exact StoresMove.of_eq rfl rfl rfl
    | with_reducible apply Moves.fold
    | with_reducible apply Moves.foldPair
    | dsimp only
    | split
    | with_reducible apply Moves.record
    | with_reducible rfl
    | exact hs.2.2 _ (by simp)
    | exact hs.2.1 _ (by decide +kernel)

theorem State.useFilled_moves {s0 : State} {s : State} (h : Moves σ s0 s) (c : Nat) (b : Nat) (q : LodgerBuf) (hs : Scope.within ⟨false, [.chans], [.wst]⟩ σ) :
    Moves σ s0 (State.useFilled s c b q) := by
  unfold State.useFilled
  repeat' first
    | with_reducible assumption
    | intro _
    | with_reducible apply Moves.ite
    | with_reducible apply State.bump_moves
    | with_reducible apply State.modChan_moves
    | with_reducible apply State.modCmd_moves
    | with_reducible apply State.placeHeld_moves
    | exact StoresMove.of_eq rfl rfl rfl
    | dsimp only
    | split
    | with_reducible apply Moves.record
    | with_reducible rfl
    | exact hs.2.2 _ (by simp)
    | exact hs.2.1 _ (by decide +kernel)
    | exact Scope.within.trans (by decide +kernel) hs

theorem execLodgerFillComplete_moves {s0 : State} {s : State} (h : Moves σ s0 s) (c : Ch) (buf : Fin 2) (ext : List Byte) (hs : Scope.within ⟨true, [.out, .msix, .xlat, .recorder, .chans], [.hmmu, .ctx, .rpl, .grm, .cmmu, .wst, .cvu, .hbmc, .ring, .eng, .door]⟩ σ) :
    MovesResult σ s0 (execLodgerFillComplete c buf ext s) := by
  unfold execLodgerFillComplete
  repeat' first
    | with_reducible assumption
    | intro _
    | with_reducible apply Moves.ite
    | with_reducible apply State.wr_moves
    | with_reducible apply State.bump_moves
    | with_reducible apply State.modChan_moves
    | with_reducible apply State.readOn_moves
    | with_reducible apply State.recordStall_moves
    | with_reducible apply State.useFilled_moves
    | exact StoresMove.changeOf (hs.1 rfl) (fun h => Memory.put_wf _ _ h) (fun h => h) (fun h => h)
    | exact StoresMove.of_eq rfl rfl rfl
    | with_reducible apply MovesResult.live
    | with_reducible apply MovesResult.next
    | with_reducible exact Memory.taint_wf _ _ (by assumption)
    | with_reducible exact Memory.put_wf _ _ (by assumption)
    | with_reducible refine Moves.fstOf (by with_reducible assumption) ?_
    | dsimp only
    | split
    | with_reducible apply Moves.record
    | with_reducible rfl
    | exact hs.2.2 _ (by simp)
    | exact hs.2.1 _ (by decide +kernel)
    | exact Scope.within.trans (by decide +kernel) hs

end Sys2Proof.Machine
end

