-- ==== Sys2Proof/Laws/MovesContexts.lean ====
section
/-! SUPPORT. What the functions of Machine/Contexts.lean can do to a state: each keeps the queue and the
canonical form of the stores, only adds to the output and keeps the registers 32 bits wide (`Moves`). -/

set_option Elab.async false

namespace Sys2Proof.Machine
variable {σ : Scope}

theorem State.modSlotRec_moves {s0 : State} {s : State} (h : Moves σ s0 s) (i : Nat) (f : CtxSlot → CtxSlot) (hs : Scope.within ⟨false, [.ctxSlots], []⟩ σ) :
    Moves σ s0 (State.modSlotRec s i f) := by
  unfold State.modSlotRec
  repeat' first
    | with_reducible assumption
    | with_reducible apply Moves.ite
    | dsimp only
    | split
    | with_reducible apply Moves.record
    | with_reducible rfl
    | exact hs.2.2 _ (by simp)
    | exact hs.2.1 _ (by decide +kernel)
    | exact Scope.within.trans (by decide +kernel) hs
    | exact .inr (hs.2.1 _ (by decide +kernel))
    | with_reducible exact .inl rfl

theorem State.setSlot_moves {s0 : State} {s : State} (h : Moves σ s0 s) (i : Nat) (st : Nat) (ctx : Nat) (hs : Scope.within ⟨false, [.ctxSlots], [.ctx]⟩ σ) :
    Moves σ s0 (State.setSlot s i st ctx) := by
  unfold State.setSlot
  repeat' first
    | with_reducible assumption
    | intro _
    | with_reducible apply Moves.ite
    | with_reducible apply State.wr_moves
    | with_reducible apply State.modSlotRec_moves
    | dsimp only
    | split
    | with_reducible apply Moves.record
    | with_reducible rfl
    | exact hs.2.2 _ (by simp)
    | exact hs.2.1 _ (by decide +kernel)
    | exact Scope.within.trans (by decide +kernel) hs

theorem State.startSave_moves {s0 : State} {s : State} (h : Moves σ s0 s) (i : Nat) (serves : Serves) (hs : Scope.within ⟨false, [.ctxs, .ctxSlots], [.ctx]⟩ σ) :
    Moves σ s0 (State.startSave s i serves) := by
  unfold State.startSave
  repeat' first
    | with_reducible assumption
    | intro _
    | with_reducible apply Moves.ite
    | with_reducible apply State.wr_moves
    | with_reducible apply State.modCtx_moves
    | with_reducible apply State.modSlotRec_moves
    | dsimp only
    | split
    | with_reducible apply Moves.record
    | with_reducible rfl
    | exact hs.2.2 _ (by simp)
    | exact hs.2.1 _ (by decide +kernel)
    | exact Scope.within.trans (by decide +kernel) hs

theorem State.startRestore_moves {s0 : State} {s : State} (h : Moves σ s0 s) (i : Nat) (ctx : Nat) (hs : Scope.within ⟨false, [.out, .msix, .ctxs, .ctxSlots], [.ctx]⟩ σ) :
    Moves σ s0 (State.startRestore s i ctx) := by
  unfold State.startRestore
  repeat' first
    | with_reducible assumption
    | intro _
    | with_reducible apply Moves.ite
    | with_reducible apply State.raise_moves
    | with_reducible apply State.modCtx_moves
    | with_reducible apply State.setSlot_moves
    | dsimp only
    | split
    | with_reducible apply Moves.record
    | with_reducible rfl
    | exact hs.2.2 _ (by simp)
    | exact hs.2.1 _ (by decide +kernel)
    | exact Scope.within.trans (by decide +kernel) hs

theorem State.otherVictim_moves {s0 : State} {s : State} (h : Moves σ s0 s) (i : Nat) (hs : Scope.within ⟨false, [.ctxs, .ctxSlots], [.ctx]⟩ σ) :
    Moves σ s0 (State.otherVictim s i) := by
  unfold State.otherVictim
  repeat' first
    | with_reducible assumption
    | intro _
    | with_reducible apply Moves.ite
    | with_reducible apply State.startSave_moves
    | with_reducible apply Moves.elimSnd
    | with_reducible apply Moves.elim
    | with_reducible apply Moves.elimSndFst
    | with_reducible apply Moves.elimFst
    | with_reducible refine Moves.fstOf (by with_reducible assumption) ?_
    | dsimp only
    | split

theorem State.slotFreed_moves {s0 : State} {s : State} (h : Moves σ s0 s) (i : Nat) (hs : Scope.within ⟨false, [.out, .msix, .ctxs, .ctxSlots, .loads], [.ctx]⟩ σ) :
    Moves σ s0 (State.slotFreed s i) := by
  unfold State.slotFreed
  repeat' first
    | with_reducible assumption
    | with_reducible apply Moves.ite
    | with_reducible apply State.startRestore_moves
    | with_reducible refine Moves.fstOf (by with_reducible assumption) ?_
    | dsimp only
    | split
    | with_reducible apply Moves.record
    | with_reducible rfl
    | exact hs.2.2 _ (by simp)
    | exact hs.2.1 _ (by decide +kernel)
    | exact Scope.within.trans (by decide +kernel) hs
    | exact .inr (hs.2.1 _ (by decide +kernel))
    | with_reducible exact .inl rfl

theorem State.breakReset_moves {s0 : State} {s : State} (h : Moves σ s0 s) (c : Nat) (e : Nat) (ctx : Nat) (k : EngCmd) (tkind : Nat) (sent : Nat) (hs : Scope.within ⟨false, [.out, .msix, .xlat, .recorder, .chans], [.hmmu, .ctx, .rpl, .grm, .cmmu, .wst, .cvu, .hbmc, .ring, .eng, .door]⟩ σ) :
    Moves σ s0 (State.breakReset s c e ctx k tkind sent) := by
  unfold State.breakReset
  repeat' first
    | with_reducible assumption
    | with_reducible apply Moves.ite
    | with_reducible apply State.sendBreak_moves

theorem State.resetInEngine_moves {s0 : State} {s : State} (h : Moves σ s0 s) (c : Nat) (e : Nat) (ctx : Nat) (hs : Scope.within ⟨false, [.out, .msix, .xlat, .recorder, .chans], [.hmmu, .ctx, .rpl, .grm, .cmmu, .wst, .cvu, .hbmc, .ring, .eng, .door]⟩ σ) :
    Moves σ s0 (State.resetInEngine s c e ctx) := by
  unfold State.resetInEngine
  repeat' first
    | with_reducible assumption
    | intro _
    | with_reducible apply Moves.ite
    | with_reducible apply Reading.block_moves
    | with_reducible apply State.breakReset_moves
    | with_reducible apply State.freeTile_moves
    | with_reducible apply State.modEngine_moves
    | with_reducible apply State.settle_moves
    | with_reducible apply State.sweep_moves
    | with_reducible apply Moves.fold
    | with_reducible apply Moves.foldPair
    | with_reducible apply Moves.elimSnd
    | with_reducible apply Moves.elim
    | with_reducible apply Moves.elimSndFst
    | with_reducible apply Moves.elimFst
    | with_reducible refine Moves.fstOf (by with_reducible assumption) ?_
    | dsimp only
    | split
    | with_reducible apply Moves.record
    | with_reducible rfl
    | exact hs.2.2 _ (by simp)
    | exact hs.2.1 _ (by decide +kernel)
    | exact Scope.within.trans (by decide +kernel) hs

theorem State.breakShare_moves {s0 : State} {s : State} (h : Moves σ s0 s) (sh : CtxShare) (hs : Scope.within ⟨false, [.out, .msix, .xlat, .recorder, .chans], [.hmmu, .ctx, .rpl, .grm, .cmmu, .wst, .cvu, .hbmc, .ring, .eng, .door]⟩ σ) :
    Moves σ s0 (State.breakShare s sh) := by
  unfold State.breakShare
  repeat' first
    | with_reducible assumption
    | intro _
    | with_reducible apply Moves.ite
    | with_reducible apply State.breakReset_moves
    | with_reducible apply Moves.fold
    | with_reducible apply Moves.foldPair
    | with_reducible apply Moves.elimSnd
    | with_reducible apply Moves.elim

theorem State.resetInUnits_moves {s0 : State} {s : State} (h : Moves σ s0 s) (c : Nat) (ctx : Nat) (hs : Scope.within ⟨false, [.out, .msix, .xlat, .recorder, .chans], [.hmmu, .ctx, .rpl, .grm, .cmmu, .wst, .cvu, .hbmc, .ring, .eng, .door]⟩ σ) :
    Moves σ s0 (State.resetInUnits s c ctx) := by
  unfold State.resetInUnits
  repeat' first
    | with_reducible assumption
    | intro _
    | with_reducible apply Moves.ite
    | with_reducible apply State.wr_moves
    | with_reducible apply State.modChan_moves
    | with_reducible apply Reading.block_moves
    | with_reducible apply State.dropHeld_moves
    | with_reducible apply State.dropLanding_moves
    | exact StoresMove.of_eq rfl rfl rfl
    | with_reducible apply Moves.fold
    | with_reducible apply Moves.foldPair
    | dsimp only
    | split
    | with_reducible apply Moves.record
    | with_reducible rfl
    | exact hs.2.2 _ (by simp)
    | exact hs.2.1 _ (by decide +kernel)
    | exact Scope.within.trans (by decide +kernel) hs

theorem State.freeStreams_moves {s0 : State} {s : State} (h : Moves σ s0 s) (ctx : Nat) (children : List Nat) (hs : Scope.within ⟨false, [.out, .msix, .dlm, .streams, .rehoming], [.strm]⟩ σ) :
    Moves σ s0 (State.freeStreams s ctx children) := by
  unfold State.freeStreams
  repeat' first
    | with_reducible assumption
    | intro _
    | with_reducible apply Moves.ite
    | with_reducible apply State.disarmFreed_moves
    | with_reducible apply State.windowDone_moves
    | with_reducible refine Moves.fstOf (by with_reducible assumption) ?_
    | dsimp only
    | split
    | with_reducible apply Moves.record
    | with_reducible rfl
    | exact hs.2.2 _ (by simp)
    | exact hs.2.1 _ (by decide +kernel)
    | exact Scope.within.trans (by decide +kernel) hs
    | exact .inr (hs.2.1 _ (by decide +kernel))
    | with_reducible exact .inl rfl

theorem State.dropBlocks_moves {s0 : State} {s : State} (h : Moves σ s0 s) (gone : Moving → Bool) (hs : Scope.within ⟨false, [.out, .msix, .xlat, .recorder, .chans], [.hmmu, .ctx, .rpl, .grm, .cmmu, .wst, .cvu, .hbmc, .ring, .eng, .door]⟩ σ) :
    Moves σ s0 (State.dropBlocks s gone) := by
  unfold State.dropBlocks
  repeat' first
    | with_reducible assumption
    | intro _
    | with_reducible apply Moves.ite
    | with_reducible apply State.modChan_moves
    | with_reducible apply State.dropSwitch_moves
    | with_reducible apply State.oweIngress_moves
    | with_reducible apply State.releaseHeld_moves
    | exact StoresMove.of_eq rfl rfl rfl
    | with_reducible apply Moves.fold
    | with_reducible apply Moves.foldPair
    | dsimp only
    | split
    | with_reducible apply Moves.record
    | with_reducible rfl
    | exact hs.2.2 _ (by simp)
    | exact hs.2.1 _ (by decide +kernel)

theorem State.resetContext_moves {s0 : State} {s : State} (h : Moves σ s0 s) (ctx : Nat) (hs : Scope.within ⟨false, [.out, .msix, .xlat, .loads, .shares, .dlm, .streams, .rehoming, .recorder, .chans], [.hmmu, .strm, .ctx, .rpl, .grm, .cmmu, .wst, .cvu, .hbmc, .ring, .eng, .door]⟩ σ) :
    Moves σ s0 (State.resetContext s ctx) := by
  unfold State.resetContext
  repeat' first
    | with_reducible assumption
    | intro _
    | with_reducible apply Moves.ite
    | with_reducible apply Reading.block_moves
    | with_reducible apply State.breakShare_moves
    | with_reducible apply State.dropBlocks_moves
    | with_reducible apply State.forgetAccesses_moves
    | with_reducible apply State.freeStreams_moves
    | with_reducible apply State.modCache_moves
    | with_reducible apply State.modXlat_moves
    | with_reducible apply State.releaseClosing_moves
    | with_reducible apply State.resetInEngine_moves
    | with_reducible apply State.resetInUnits_moves
    | with_reducible apply State.resetRing_moves
    | with_reducible apply State.stateMap_moves
    | with_reducible apply Moves.fold
    | with_reducible apply Moves.foldPair
    | dsimp only
    | split
    | with_reducible apply Moves.record
    | with_reducible rfl
    | exact hs.2.2 _ (by simp)
    | exact hs.2.1 _ (by decide +kernel)
    | exact Scope.within.trans (by decide +kernel) hs
    | exact .inr (hs.2.1 _ (by decide +kernel))
    | with_reducible exact .inl rfl

theorem State.resetSlot_moves {s0 : State} {s : State} (h : Moves σ s0 s) (ctx : Nat) (hs : Scope.within ⟨false, [.out, .msix, .ctxs, .ctxSlots, .loads, .reliefInto], [.ctx]⟩ σ) :
    Moves σ s0 (State.resetSlot s ctx) := by
  unfold State.resetSlot
  repeat' first
    | with_reducible assumption
    | with_reducible apply Moves.ite
    | with_reducible apply State.setSlot_moves
    | with_reducible apply State.slotFreed_moves
    | with_reducible refine Moves.fstOf (by with_reducible assumption) ?_
    | dsimp only
    | split
    | with_reducible apply Moves.record
    | with_reducible rfl
    | exact hs.2.2 _ (by simp)
    | exact hs.2.1 _ (by decide +kernel)
    | exact Scope.within.trans (by decide +kernel) hs
    | exact .inr (hs.2.1 _ (by decide +kernel))
    | with_reducible exact .inl rfl

theorem State.resetRecord_moves {s0 : State} {s : State} (h : Moves σ s0 s) (ctx : Nat) (hs : Scope.within ⟨false, [.out, .msix, .xlat, .ctxs, .ctxSlots, .loads, .reliefInto, .shares, .dlm, .streams, .rehoming, .recorder, .chans], [.hmmu, .strm, .ctx, .rpl, .grm, .cmmu, .wst, .cvu, .hbmc, .ring, .eng, .door]⟩ σ) :
    Moves σ s0 (State.resetRecord s ctx) := by
  unfold State.resetRecord
  repeat' first
    | with_reducible assumption
    | intro _
    | with_reducible apply Moves.ite
    | with_reducible apply State.modCtx_moves
    | with_reducible apply State.resetContext_moves
    | with_reducible apply State.resetSlot_moves
    | dsimp only
    | split
    | with_reducible apply Moves.record
    | with_reducible rfl
    | exact hs.2.2 _ (by simp)
    | exact hs.2.1 _ (by decide +kernel)
    | exact Scope.within.trans (by decide +kernel) hs

theorem State.ctxDone_moves {s0 : State} {s : State} (h : Moves σ s0 s) (status : Nat) (hs : Scope.within ⟨false, [.out, .msix], [.ctx]⟩ σ) :
    Moves σ s0 (State.ctxDone s status) := by
  unfold State.ctxDone
  repeat' first
    | with_reducible assumption
    | with_reducible apply Moves.ite
    | with_reducible apply State.windowDone_moves
    | dsimp only
    | split
    | with_reducible apply Moves.record
    | with_reducible rfl
    | exact hs.2.2 _ (by simp)
    | exact hs.2.1 _ (by decide +kernel)
    | exact Scope.within.trans (by decide +kernel) hs

theorem State.ctxAdmit_moves {s0 : State} {s : State} (h : Moves σ s0 s) (n : Nat) (hs : Scope.within ⟨false, [.out, .msix, .ctxs], [.ctx]⟩ σ) :
    Moves σ s0 (State.ctxAdmit s n) := by
  unfold State.ctxAdmit
  repeat' first
    | with_reducible assumption
    | intro _
    | with_reducible apply Moves.ite
    | with_reducible apply State.ctxDone_moves
    | with_reducible apply State.modCtx_moves
    | dsimp only
    | split
    | with_reducible apply Moves.record
    | with_reducible rfl
    | exact hs.2.2 _ (by simp)
    | exact hs.2.1 _ (by decide +kernel)
    | exact Scope.within.trans (by decide +kernel) hs

theorem State.ctxUpdate_moves {s0 : State} {s : State} (h : Moves σ s0 s) (n : Nat) (hs : Scope.within ⟨false, [.out, .msix, .ctxs], [.ctx]⟩ σ) :
    Moves σ s0 (State.ctxUpdate s n) := by
  unfold State.ctxUpdate
  repeat' first
    | with_reducible assumption
    | intro _
    | with_reducible apply Moves.ite
    | with_reducible apply State.ctxDone_moves
    | with_reducible apply State.modCtx_moves
    | dsimp only
    | split
    | with_reducible apply Moves.record
    | with_reducible rfl
    | exact hs.2.2 _ (by simp)
    | exact hs.2.1 _ (by decide +kernel)
    | exact Scope.within.trans (by decide +kernel) hs

theorem State.ctxLoad_moves {s0 : State} {s : State} (h : Moves σ s0 s) (n : Nat) (hs : Scope.within ⟨false, [.out, .msix, .ctxs, .ctxSlots, .loads], [.ctx]⟩ σ) :
    Moves σ s0 (State.ctxLoad s n) := by
  unfold State.ctxLoad
  repeat' first
    | with_reducible assumption
    | intro _
    | with_reducible apply Moves.ite
    | with_reducible apply State.ctxDone_moves
    | with_reducible apply State.modCtx_moves
    | with_reducible apply State.startRestore_moves
    | with_reducible apply State.startSave_moves
    | with_reducible refine Moves.fstOf (by with_reducible assumption) ?_
    | dsimp only
    | split
    | with_reducible apply Moves.record
    | with_reducible rfl
    | exact hs.2.2 _ (by simp)
    | exact hs.2.1 _ (by decide +kernel)
    | exact Scope.within.trans (by decide +kernel) hs
    | exact .inr (hs.2.1 _ (by decide +kernel))
    | with_reducible exact .inl rfl

theorem State.ctxEvict_moves {s0 : State} {s : State} (h : Moves σ s0 s) (n : Nat) (hs : Scope.within ⟨false, [.out, .msix, .ctxs, .ctxSlots], [.ctx]⟩ σ) :
    Moves σ s0 (State.ctxEvict s n) := by
  unfold State.ctxEvict
  repeat' first
    | with_reducible assumption
    | with_reducible apply Moves.ite
    | with_reducible apply State.ctxDone_moves
    | with_reducible apply State.startSave_moves
    | dsimp only
    | split
    | with_reducible apply Moves.record
    | with_reducible rfl
    | exact hs.2.2 _ (by simp)
    | exact hs.2.1 _ (by decide +kernel)
    | exact Scope.within.trans (by decide +kernel) hs

theorem State.ctxResetOp_moves {s0 : State} {s : State} (h : Moves σ s0 s) (n : Nat) (release : Bool) (hs : Scope.within ⟨false, [.out, .msix, .xlat, .ctxs, .ctxSlots, .loads, .reliefInto, .shares, .dlm, .streams, .rehoming, .recorder, .chans], [.hmmu, .strm, .ctx, .rpl, .grm, .cmmu, .wst, .cvu, .hbmc, .ring, .eng, .door]⟩ σ) :
    Moves σ s0 (State.ctxResetOp s n release) := by
  unfold State.ctxResetOp
  repeat' first
    | with_reducible assumption
    | intro _
    | with_reducible apply Moves.ite
    | with_reducible apply State.ctxDone_moves
    | with_reducible apply State.modCtx_moves
    | with_reducible apply State.release_moves
    | with_reducible apply State.resetRecord_moves
    | dsimp only
    | split
    | with_reducible apply Moves.record
    | with_reducible rfl
    | exact hs.2.2 _ (by simp)
    | exact hs.2.1 _ (by decide +kernel)
    | exact Scope.within.trans (by decide +kernel) hs

theorem State.ctxOp_moves {s0 : State} {s : State} (h : Moves σ s0 s) (op : Nat) (n : Nat) (hs : Scope.within ⟨false, [.out, .msix, .xlat, .ctxs, .ctxSlots, .loads, .reliefInto, .shares, .dlm, .streams, .rehoming, .recorder, .chans], [.hmmu, .strm, .ctx, .rpl, .grm, .cmmu, .wst, .cvu, .hbmc, .ring, .eng, .door]⟩ σ) :
    Moves σ s0 (State.ctxOp s op n) := by
  unfold State.ctxOp
  repeat' first
    | with_reducible assumption
    | with_reducible apply Moves.ite
    | with_reducible apply State.ctxAdmit_moves
    | with_reducible apply State.ctxDone_moves
    | with_reducible apply State.ctxEvict_moves
    | with_reducible apply State.ctxLoad_moves
    | with_reducible apply State.ctxResetOp_moves
    | with_reducible apply State.ctxUpdate_moves
    | with_reducible apply State.setWindowData_moves
    | dsimp only
    | split
    | with_reducible apply Moves.record
    | with_reducible rfl
    | exact hs.2.2 _ (by simp)
    | exact hs.2.1 _ (by decide +kernel)
    | exact Scope.within.trans (by decide +kernel) hs

theorem State.ctxWindow_moves {s0 : State} {s : State} (h : Moves σ s0 s) (m : Master) (op : Nat) (hs : Scope.within ⟨false, [.out, .dev, .msix, .xlat, .ctxs, .ctxSlots, .loads, .reliefInto, .shares, .dlm, .streams, .rehoming, .recorder, .chans], [.hmmu, .strm, .ctx, .rpl, .grm, .cmmu, .wst, .cvu, .hbmc, .ring, .eng, .door]⟩ σ) :
    Moves σ s0 (State.ctxWindow s m op) := by
  unfold State.ctxWindow
  repeat' first
    | with_reducible assumption
    | intro _
    | with_reducible apply Moves.ite
    | with_reducible apply State.ctxOp_moves
    | with_reducible apply State.windowStart_moves
    | dsimp only
    | split
    | with_reducible apply Moves.record
    | with_reducible rfl
    | exact hs.2.2 _ (by simp)
    | exact hs.2.1 _ (by decide +kernel)
    | exact Scope.within.trans (by decide +kernel) hs

theorem execCtxRead_moves {s0 : State} {s : State} (h : Moves σ s0 s) (m : Master) (hs : Scope.within ⟨false, [.out, .dev, .msix, .xlat, .ctxs, .ctxSlots, .loads, .reliefInto, .shares, .dlm, .streams, .rehoming, .recorder, .chans], [.hmmu, .strm, .ctx, .rpl, .grm, .cmmu, .wst, .cvu, .hbmc, .ring, .eng, .door]⟩ σ) :
    MovesResult σ s0 (execCtxRead m s) := by
  unfold execCtxRead
  repeat' first
    | with_reducible assumption
    | intro _
    | with_reducible apply Moves.ite
    | with_reducible apply State.ctxWindow_moves
    | with_reducible apply MovesResult.live

theorem execAdmit_moves {s0 : State} {s : State} (h : Moves σ s0 s) (m : Master) (hs : Scope.within ⟨false, [.out, .dev, .msix, .xlat, .ctxs, .ctxSlots, .loads, .reliefInto, .shares, .dlm, .streams, .rehoming, .recorder, .chans], [.hmmu, .strm, .ctx, .rpl, .grm, .cmmu, .wst, .cvu, .hbmc, .ring, .eng, .door]⟩ σ) :
    MovesResult σ s0 (execAdmit m s) := by
  unfold execAdmit
  repeat' first
    | with_reducible assumption
    | intro _
    | with_reducible apply Moves.ite
    | with_reducible apply State.ctxWindow_moves
    | with_reducible apply MovesResult.live

theorem execUpdate_moves {s0 : State} {s : State} (h : Moves σ s0 s) (m : Master) (hs : Scope.within ⟨false, [.out, .dev, .msix, .xlat, .ctxs, .ctxSlots, .loads, .reliefInto, .shares, .dlm, .streams, .rehoming, .recorder, .chans], [.hmmu, .strm, .ctx, .rpl, .grm, .cmmu, .wst, .cvu, .hbmc, .ring, .eng, .door]⟩ σ) :
    MovesResult σ s0 (execUpdate m s) := by
  unfold execUpdate
  repeat' first
    | with_reducible assumption
    | intro _
    | with_reducible apply Moves.ite
    | with_reducible apply State.ctxWindow_moves
    | with_reducible apply MovesResult.live

theorem execLoad_moves {s0 : State} {s : State} (h : Moves σ s0 s) (m : Master) (hs : Scope.within ⟨false, [.out, .dev, .msix, .xlat, .ctxs, .ctxSlots, .loads, .reliefInto, .shares, .dlm, .streams, .rehoming, .recorder, .chans], [.hmmu, .strm, .ctx, .rpl, .grm, .cmmu, .wst, .cvu, .hbmc, .ring, .eng, .door]⟩ σ) :
    MovesResult σ s0 (execLoad m s) := by
  unfold execLoad
  repeat' first
    | with_reducible assumption
    | intro _
    | with_reducible apply Moves.ite
    | with_reducible apply State.ctxWindow_moves
    | with_reducible apply MovesResult.live

theorem execEvict_moves {s0 : State} {s : State} (h : Moves σ s0 s) (m : Master) (hs : Scope.within ⟨false, [.out, .dev, .msix, .xlat, .ctxs, .ctxSlots, .loads, .reliefInto, .shares, .dlm, .streams, .rehoming, .recorder, .chans], [.hmmu, .strm, .ctx, .rpl, .grm, .cmmu, .wst, .cvu, .hbmc, .ring, .eng, .door]⟩ σ) :
    MovesResult σ s0 (execEvict m s) := by
  unfold execEvict
  repeat' first
    | with_reducible assumption
    | intro _
    | with_reducible apply Moves.ite
    | with_reducible apply State.ctxWindow_moves
    | with_reducible apply MovesResult.live

theorem execCtxReset_moves {s0 : State} {s : State} (h : Moves σ s0 s) (m : Master) (hs : Scope.within ⟨false, [.out, .dev, .msix, .xlat, .ctxs, .ctxSlots, .loads, .reliefInto, .shares, .dlm, .streams, .rehoming, .recorder, .chans], [.hmmu, .strm, .ctx, .rpl, .grm, .cmmu, .wst, .cvu, .hbmc, .ring, .eng, .door]⟩ σ) :
    MovesResult σ s0 (execCtxReset m s) := by
  unfold execCtxReset
  repeat' first
    | with_reducible assumption
    | intro _
    | with_reducible apply Moves.ite
    | with_reducible apply State.ctxWindow_moves
    | with_reducible apply MovesResult.live

theorem execRelease_moves {s0 : State} {s : State} (h : Moves σ s0 s) (m : Master) (hs : Scope.within ⟨false, [.out, .dev, .msix, .xlat, .ctxs, .ctxSlots, .loads, .reliefInto, .shares, .dlm, .streams, .rehoming, .recorder, .chans], [.hmmu, .strm, .ctx, .rpl, .grm, .cmmu, .wst, .cvu, .hbmc, .ring, .eng, .door]⟩ σ) :
    MovesResult σ s0 (execRelease m s) := by
  unfold execRelease
  repeat' first
    | with_reducible assumption
    | intro _
    | with_reducible apply Moves.ite
    | with_reducible apply State.ctxWindow_moves
    | with_reducible apply MovesResult.live

theorem State.acceptAll_moves {s0 : State} {s : State} (h : Moves σ s0 s) (c : Nat) (e : Nat) (ctx : Nat) (hs : Scope.within ⟨false, [.out, .msix, .chans], [.eng]⟩ σ) :
    Moves σ s0 (State.acceptAll s c e ctx) := by
  unfold State.acceptAll
  repeat' first
    | with_reducible assumption
    | intro _
    | with_reducible apply Moves.ite
    | with_reducible apply State.acceptFor_moves
    | with_reducible apply State.modEngine_moves
    | with_reducible apply Moves.fold
    | with_reducible apply Moves.foldPair
    | with_reducible apply Moves.elimSnd
    | with_reducible apply Moves.elim
    | with_reducible apply Moves.elimSndFst
    | with_reducible apply Moves.elimFst
    | dsimp only
    | split
    | with_reducible apply Moves.record
    | with_reducible rfl
    | exact hs.2.2 _ (by simp)
    | exact hs.2.1 _ (by decide +kernel)
    | exact Scope.within.trans (by decide +kernel) hs

theorem State.stopDrain_moves {s0 : State} {s : State} (h : Moves σ s0 s) (c : Nat) (e : Nat) (ctx : Nat) (hs : Scope.within ⟨false, [.out, .drawn, .msix, .xlat, .recorder, .chans], [.hmmu, .ctx, .rpl, .grm, .cmmu, .wst, .cvu, .hbmc, .ring, .eng, .door]⟩ σ) :
    Moves σ s0 (State.stopDrain s c e ctx) := by
  unfold State.stopDrain
  repeat' first
    | with_reducible assumption
    | intro _
    | with_reducible apply Moves.ite
    | with_reducible apply State.epilogueStep_moves
    | with_reducible apply State.modEngine_moves
    | with_reducible refine Moves.fstOf (by with_reducible assumption) ?_
    | dsimp only
    | split
    | with_reducible apply Moves.record
    | with_reducible rfl
    | exact hs.2.2 _ (by simp)
    | exact hs.2.1 _ (by decide +kernel)
    | exact Scope.within.trans (by decide +kernel) hs

theorem State.stopRebuild_moves {s0 : State} {s : State} (h : Moves σ s0 s) (c : Nat) (e : Nat) (n : Nat) (hs : Scope.within ⟨false, [.chans], [.eng]⟩ σ) :
    Moves σ s0 (State.stopRebuild s c e n) := by
  unfold State.stopRebuild
  repeat' first
    | with_reducible assumption
    | intro _
    | with_reducible apply Moves.ite
    | with_reducible apply State.modEngine_moves
    | with_reducible apply State.wrAll_moves
    | dsimp only
    | split
    | with_reducible apply Moves.record
    | with_reducible rfl
    | exact hs.2.2 _ (by simp)
    | exact hs.2.1 _ (by decide +kernel)
    | exact Scope.within.trans (by decide +kernel) hs

theorem State.takeEngine_moves {s0 : State} {s : State} (h : Moves σ s0 s) (c : Nat) (e : Nat) (ctx : Nat) (hs : Scope.within ⟨false, [.out, .drawn, .msix, .xlat, .recorder, .chans], [.hmmu, .ctx, .rpl, .grm, .cmmu, .wst, .cvu, .hbmc, .ring, .eng, .door]⟩ σ) :
    Moves σ s0 (State.takeEngine s c e ctx).1 := by
  unfold State.takeEngine
  repeat' first
    | with_reducible assumption
    | intro _
    | with_reducible apply Moves.ite
    | with_reducible apply Reading.block_moves
    | with_reducible apply State.acceptAll_moves
    | with_reducible apply State.modEngine_moves
    | with_reducible apply State.settle_moves
    | with_reducible apply State.stopDrain_moves
    | with_reducible apply State.stopRebuild_moves
    | with_reducible apply State.sweep_moves
    | with_reducible apply State.unbind_moves
    | with_reducible apply Moves.fold
    | with_reducible apply Moves.foldPair
    | with_reducible apply Moves.iteFst
    | with_reducible apply Moves.elimSnd
    | with_reducible apply Moves.elim
    | with_reducible apply Moves.elimSndFst
    | with_reducible apply Moves.elimFst
    | dsimp only
    | split
    | with_reducible apply Moves.record
    | with_reducible rfl
    | exact hs.2.2 _ (by simp)
    | exact hs.2.1 _ (by decide +kernel)
    | exact Scope.within.trans (by decide +kernel) hs

theorem State.dropBuffers_moves {s0 : State} {s : State} (h : Moves σ s0 s) (c : Nat) (ctx : Nat) (hs : Scope.within ⟨false, [.chans], [.wst]⟩ σ) :
    Moves σ s0 (State.dropBuffers s c ctx) := by
  unfold State.dropBuffers
  repeat' first
    | with_reducible assumption
    | intro _
    | with_reducible apply Moves.ite
    | with_reducible apply State.wr_moves
    | with_reducible apply State.modChan_moves
    | with_reducible apply State.modCmd_moves
    | exact StoresMove.of_eq rfl rfl rfl
    | with_reducible apply Moves.fold
    | with_reducible apply Moves.foldPair
    | dsimp only
    | split
    | with_reducible apply Moves.record
    | with_reducible rfl
    | exact hs.2.2 _ (by simp)
    | exact hs.2.1 _ (by decide +kernel)
    | exact Scope.within.trans (by decide +kernel) hs

theorem State.takeShare_moves {s0 : State} {s : State} (h : Moves σ s0 s) (c : Nat) (ctx : Nat) (hs : Scope.within ⟨false, [.out, .drawn, .msix, .xlat, .shares, .recorder, .chans], [.hmmu, .ctx, .rpl, .grm, .cmmu, .wst, .cvu, .hbmc, .ring, .eng, .door]⟩ σ) :
    Moves σ s0 (State.takeShare s c ctx) := by
  unfold State.takeShare
  repeat' first
    | with_reducible assumption
    | intro _
    | with_reducible apply Moves.ite
    | with_reducible apply State.wr_moves
    | with_reducible apply State.modChan_moves
    | with_reducible apply State.dropBuffers_moves
    | with_reducible apply State.stateMap_moves
    | with_reducible apply State.takeEngine_moves
    | with_reducible apply State.unpin_moves
    | exact StoresMove.of_eq rfl rfl rfl
    | with_reducible apply Moves.fold
    | with_reducible apply Moves.foldPair
    | dsimp only
    | split
    | with_reducible apply Moves.record
    | with_reducible rfl
    | exact hs.2.2 _ (by simp)
    | exact hs.2.1 _ (by decide +kernel)
    | exact Scope.within.trans (by decide +kernel) hs
    | exact .inr (hs.2.1 _ (by decide +kernel))
    | with_reducible exact .inl rfl

theorem State.saveDone_moves {s0 : State} {s : State} (h : Moves σ s0 s) (i : Nat) (hs : Scope.within ⟨false, [.out, .drawn, .msix, .xlat, .ctxs, .ctxSlots, .loads, .reliefInto, .shares, .recorder, .chans], [.hmmu, .ctx, .rpl, .grm, .cmmu, .wst, .cvu, .hbmc, .ring, .eng, .door]⟩ σ) :
    Moves σ s0 (State.saveDone s i) := by
  unfold State.saveDone
  repeat' first
    | with_reducible assumption
    | intro _
    | with_reducible apply Moves.ite
    | with_reducible apply State.wr_moves
    | with_reducible apply State.bump_moves
    | with_reducible apply State.raise_moves
    | with_reducible apply State.modCtx_moves
    | with_reducible apply State.modXlat_moves
    | with_reducible apply State.setSlot_moves
    | with_reducible apply State.slotFreed_moves
    | with_reducible apply State.takeShare_moves
    | with_reducible apply Moves.fold
    | with_reducible apply Moves.foldPair
    | with_reducible refine Moves.fstOf (by with_reducible assumption) ?_
    | dsimp only
    | split
    | with_reducible apply Moves.record
    | with_reducible rfl
    | exact hs.2.2 _ (by simp)
    | exact hs.2.1 _ (by decide +kernel)
    | exact Scope.within.trans (by decide +kernel) hs
    | exact .inr (hs.2.1 _ (by decide +kernel))
    | with_reducible exact .inl rfl

theorem State.reportSave_moves {s0 : State} {s : State} (h : Moves σ s0 s) (i : Nat) (c : Nat) (hs : Scope.within ⟨false, [.out, .drawn, .msix, .xlat, .ctxs, .ctxSlots, .loads, .reliefInto, .shares, .recorder, .chans], [.hmmu, .ctx, .rpl, .grm, .cmmu, .wst, .cvu, .hbmc, .ring, .eng, .door]⟩ σ) :
    Moves σ s0 (State.reportSave s i c) := by
  unfold State.reportSave
  repeat' first
    | with_reducible assumption
    | intro _
    | with_reducible apply Moves.ite
    | with_reducible apply State.modSlotRec_moves
    | with_reducible apply State.saveDone_moves
    | dsimp only
    | split
    | with_reducible apply Moves.record
    | with_reducible rfl
    | exact hs.2.2 _ (by simp)
    | exact hs.2.1 _ (by decide +kernel)
    | exact Scope.within.trans (by decide +kernel) hs

theorem execChannelSaveDone_moves {s0 : State} {s : State} (h : Moves σ s0 s) (slot : CtxSlotId) (c : Ch) (hs : Scope.within ⟨true, [.out, .drawn, .msix, .xlat, .ctxs, .ctxSlots, .loads, .reliefInto, .shares, .recorder, .chans], [.hmmu, .ctx, .rpl, .grm, .cmmu, .wst, .cvu, .hbmc, .ring, .eng, .door]⟩ σ) :
    MovesResult σ s0 (execChannelSaveDone slot c s) := by
  unfold execChannelSaveDone
  repeat' first
    | with_reducible assumption
    | intro _
    | with_reducible apply Moves.ite
    | with_reducible apply State.logDec_moves
    | with_reducible apply State.otherVictim_moves
    | with_reducible apply State.recordStall_moves
    | with_reducible apply State.reportSave_moves
    | with_reducible apply State.sealVa_moves
    | with_reducible apply MovesResult.live
    | with_reducible apply MovesResult.next
    | with_reducible refine Moves.fstOf (by with_reducible assumption) ?_
    | dsimp only
    | split
    | with_reducible apply Moves.record
    | with_reducible rfl
    | exact hs.2.2 _ (by simp)
    | exact hs.2.1 _ (by decide +kernel)
    | exact Scope.within.trans (by decide +kernel) hs

theorem State.spillsBack_moves {s0 : State} {s : State} (h : Moves σ s0 s) (c : Nat) (ctx : Nat) (hs : Scope.within ⟨false, [.out, .drawn, .msix, .xlat, .recorder, .chans], [.hmmu, .ctx, .rpl, .grm, .cmmu, .wst, .tnd, .cvu, .hbmc, .ring, .eng, .door]⟩ σ) :
    Moves σ s0 (State.spillsBack s c ctx).1 := by
  unfold State.spillsBack
  repeat' first
    | with_reducible assumption
    | intro _
    | with_reducible apply Moves.ite
    | with_reducible apply State.bump_moves
    | with_reducible apply State.raise_moves
    | with_reducible apply State.modChan_moves
    | with_reducible apply Reading.block_moves
    | with_reducible apply State.land_moves
    | with_reducible refine Moves.someSndOf (by with_reducible assumption) ?_
    | with_reducible apply State.openVa_moves
    | exact StoresMove.of_eq rfl rfl rfl
    | with_reducible apply Moves.fold
    | with_reducible apply Moves.foldPair
    | with_reducible apply Moves.iteFst
    | with_reducible apply Moves.elimSnd
    | with_reducible apply Moves.elim
    | with_reducible apply Moves.elimSndFst
    | with_reducible apply Moves.elimFst
    | with_reducible refine Moves.fstOf (by with_reducible assumption) ?_
    | dsimp only
    | split
    | with_reducible apply Moves.record
    | with_reducible rfl
    | exact hs.2.2 _ (by simp)
    | exact hs.2.1 _ (by decide +kernel)
    | exact Scope.within.trans (by decide +kernel) hs

theorem State.moveSeals_moves {s0 : State} {s : State} (h : Moves σ s0 s) (c : Nat) (e : Nat) (ctx : Nat) (slot : Nat → Nat) (hs : Scope.within ⟨false, [.xlat], []⟩ σ) :
    Moves σ s0 (State.moveSeals s c e ctx slot) := by
  unfold State.moveSeals
  repeat' first
    | with_reducible assumption
    | intro _
    | with_reducible apply Moves.ite
    | with_reducible apply State.modCache_moves
    | with_reducible apply State.modXlat_moves
    | with_reducible apply Moves.fold

theorem State.putBank_moves {s0 : State} {s : State} (h : Moves σ s0 s) (c : Nat) (e : Nat) (b : SavedBank) (hs : Scope.within ⟨false, [.chans], [.eng]⟩ σ) :
    Moves σ s0 (State.putBank s c e b) := by
  unfold State.putBank
  repeat' first
    | with_reducible assumption
    | intro _
    | with_reducible apply Moves.ite
    | with_reducible apply State.modEngine_moves
    | with_reducible apply State.showBank_moves
    | with_reducible exact Memory.put_wf _ _ (by assumption)
    | dsimp only
    | split
    | with_reducible apply Moves.record
    | with_reducible rfl
    | exact hs.2.2 _ (by simp)
    | exact hs.2.1 _ (by decide +kernel)
    | exact Scope.within.trans (by decide +kernel) hs

theorem State.rebind_moves {s0 : State} {s : State} (h : Moves σ s0 s) (c : Nat) (e : Nat) (mine : List Nat) (r : EngRun) (hs : Scope.within ⟨false, [.chans], [.eng]⟩ σ) :
    Moves σ s0 (State.rebind s c e mine r) := by
  unfold State.rebind
  repeat' first
    | with_reducible assumption
    | with_reducible apply Moves.ite
    | with_reducible apply State.bindBank_moves
    | with_reducible apply State.bindTo_moves
    | with_reducible refine Moves.fstOf (by with_reducible assumption) ?_
    | dsimp only
    | split

theorem State.putRegs_moves {s0 : State} {s : State} (h : Moves σ s0 s) (c : Nat) (sh : EngShare) (alone : Bool) (hs : Scope.within ⟨false, [.chans], [.eng]⟩ σ) :
    Moves σ s0 (State.putRegs s c sh alone) := by
  unfold State.putRegs
  repeat' first
    | with_reducible assumption
    | intro _
    | with_reducible apply Moves.ite
    | with_reducible apply State.wr_moves
    | with_reducible apply State.modEngine_moves
    | with_reducible exact Memory.put_wf _ _ (by assumption)
    | dsimp only
    | split
    | with_reducible apply Moves.record
    | with_reducible rfl
    | exact hs.2.2 _ (by simp)
    | exact hs.2.1 _ (by decide +kernel)
    | exact Scope.within.trans (by decide +kernel) hs

theorem State.putEngine_moves {s0 : State} {s : State} (h : Moves σ s0 s) (c : Nat) (sh : EngShare) (hs : Scope.within ⟨false, [.xlat, .ctxs, .chans], [.eng]⟩ σ) :
    Moves σ s0 (State.putEngine s c sh) := by
  unfold State.putEngine
  repeat' first
    | with_reducible assumption
    | intro _
    | with_reducible apply Moves.ite
    | with_reducible apply State.modChan_moves
    | with_reducible apply State.modEngine_moves
    | with_reducible apply State.moveSeals_moves
    | with_reducible apply State.putBank_moves
    | with_reducible apply State.putRegs_moves
    | with_reducible apply State.rebind_moves
    | exact StoresMove.of_eq rfl rfl rfl
    | with_reducible apply Moves.fold
    | with_reducible apply Moves.foldPair
    | with_reducible exact Memory.put_wf _ _ (by assumption)
    | dsimp only
    | split
    | with_reducible apply Moves.record
    | with_reducible rfl
    | exact hs.2.2 _ (by simp)
    | exact hs.2.1 _ (by decide +kernel)
    | exact Scope.within.trans (by decide +kernel) hs

theorem State.padsBack_moves {s0 : State} {s : State} (h : Moves σ s0 s) (c : Nat) (ps : List Paddocked) (hs : Scope.within ⟨false, [.chans], []⟩ σ) :
    Moves σ s0 (State.padsBack s c ps) := by
  unfold State.padsBack
  repeat' first
    | with_reducible assumption
    | intro _
    | with_reducible apply Moves.ite
    | with_reducible apply State.modChan_moves
    | exact StoresMove.of_eq rfl rfl rfl
    | with_reducible apply Moves.fold
    | with_reducible apply Moves.foldPair
    | dsimp only
    | split
    | with_reducible apply Moves.record
    | with_reducible rfl
    | exact hs.2.2 _ (by simp)
    | exact hs.2.1 _ (by decide +kernel)

theorem State.putCvu_moves {s0 : State} {s : State} (h : Moves σ s0 s) (c : Nat) (rs : List CvuRun) (hs : Scope.within ⟨false, [.chans], [.cvu]⟩ σ) :
    Moves σ s0 (State.putCvu s c rs) := by
  unfold State.putCvu
  repeat' first
    | with_reducible assumption
    | intro _
    | with_reducible apply Moves.ite
    | with_reducible apply State.wr_moves
    | with_reducible apply State.modCvu_moves
    | with_reducible exact Memory.put_wf _ _ (by assumption)
    | with_reducible refine Moves.fstOf (by with_reducible assumption) ?_
    | dsimp only
    | split
    | with_reducible apply Moves.record
    | with_reducible rfl
    | exact hs.2.2 _ (by simp)
    | exact hs.2.1 _ (by decide +kernel)
    | exact Scope.within.trans (by decide +kernel) hs

theorem State.restoreShare_moves {s0 : State} {s : State} (h : Moves σ s0 s) (slot : CtxSlotId) (sh : CtxShare) (hs : Scope.within ⟨false, [.out, .drawn, .msix, .xlat, .ctxs, .shares, .recorder, .chans], [.hmmu, .ctx, .rpl, .grm, .cmmu, .wst, .tnd, .cvu, .hbmc, .ring, .eng, .door]⟩ σ) :
    Moves σ s0 (State.restoreShare s slot sh).1 := by
  unfold State.restoreShare
  repeat' first
    | with_reducible assumption
    | intro _
    | with_reducible apply Moves.ite
    | with_reducible apply State.logDec_moves
    | with_reducible apply State.makeRoom_moves
    | with_reducible apply State.openVa_moves
    | with_reducible apply State.padsBack_moves
    | with_reducible apply State.putCvu_moves
    | with_reducible apply State.putEngine_moves
    | with_reducible apply State.spillsBack_moves
    | with_reducible apply Moves.fold
    | with_reducible apply Moves.foldPair
    | with_reducible apply Moves.iteFst
    | with_reducible exact Memory.put_wf _ _ (by assumption)
    | with_reducible refine Moves.fstOf (by with_reducible assumption) ?_
    | dsimp only
    | split
    | with_reducible apply Moves.record
    | with_reducible rfl
    | exact hs.2.2 _ (by simp)
    | exact hs.2.1 _ (by decide +kernel)
    | exact Scope.within.trans (by decide +kernel) hs
    | exact .inr (hs.2.1 _ (by decide +kernel))
    | with_reducible exact .inl rfl

theorem State.authFail_moves {s0 : State} {s : State} (h : Moves σ s0 s) (ctx : Nat) (hs : Scope.within ⟨false, [.out, .msix, .xlat, .ctxs, .ctxSlots, .loads, .reliefInto, .shares, .dlm, .streams, .rehoming, .recorder, .chans], [.hmmu, .strm, .ctx, .rpl, .grm, .cmmu, .wst, .cvu, .hbmc, .ring, .eng, .door]⟩ σ) :
    Moves σ s0 (State.authFail s ctx) := by
  unfold State.authFail
  repeat' first
    | with_reducible assumption
    | with_reducible apply Moves.ite
    | with_reducible apply State.bump_moves
    | with_reducible apply State.raise_moves
    | with_reducible apply State.resetRecord_moves
    | dsimp only
    | split
    | with_reducible apply Moves.record
    | with_reducible rfl
    | exact hs.2.2 _ (by simp)
    | exact hs.2.1 _ (by decide +kernel)

theorem State.restoreDone_moves {s0 : State} {s : State} (h : Moves σ s0 s) (i : Nat) (ctx : Nat) (hs : Scope.within ⟨false, [.out, .msix, .ctxs, .dlm, .streams, .recorder, .chans], [.dlm, .ctx, .rpl]⟩ σ) :
    Moves σ s0 (State.restoreDone s i ctx) := by
  unfold State.restoreDone
  repeat' first
    | with_reducible assumption
    | intro _
    | with_reducible apply Moves.ite
    | with_reducible apply State.wr_moves
    | with_reducible apply State.bump_moves
    | with_reducible apply State.raise_moves
    | with_reducible apply State.discardScans_moves
    | with_reducible apply State.divertPending_moves
    | with_reducible apply State.modCtx_moves
    | with_reducible apply State.stateMap_moves
    | with_reducible apply State.tryRelease_moves
    | with_reducible apply Moves.fold
    | with_reducible apply Moves.foldPair
    | dsimp only
    | split
    | with_reducible apply Moves.record
    | with_reducible rfl
    | exact hs.2.2 _ (by simp)
    | exact hs.2.1 _ (by decide +kernel)
    | exact Scope.within.trans (by decide +kernel) hs

theorem execContextRestoreDone_moves {s0 : State} {s : State} (h : Moves σ s0 s) (slot : CtxSlotId) (intact : Bool) (hs : Scope.within ⟨false, [.out, .drawn, .msix, .xlat, .ctxs, .ctxSlots, .loads, .reliefInto, .shares, .dlm, .streams, .rehoming, .recorder, .chans], [.hmmu, .strm, .dlm, .ctx, .rpl, .grm, .cmmu, .wst, .tnd, .cvu, .hbmc, .ring, .eng, .door]⟩ σ) :
    MovesResult σ s0 (execContextRestoreDone slot intact s) := by
  unfold execContextRestoreDone
  repeat' first
    | with_reducible assumption
    | intro _
    | with_reducible apply Moves.ite
    | with_reducible apply State.authFail_moves
    | with_reducible apply State.restoreDone_moves
    | with_reducible apply State.restoreShare_moves
    | with_reducible apply Moves.fold
    | with_reducible apply Moves.foldPair
    | with_reducible apply MovesResult.live
    | with_reducible apply MovesResult.next
    | dsimp only
    | split
    | with_reducible apply Moves.record
    | with_reducible rfl
    | exact hs.2.2 _ (by simp)
    | exact hs.2.1 _ (by decide +kernel)
    | exact Scope.within.trans (by decide +kernel) hs

theorem execContextBlocked_moves {s0 : State} {s : State} (h : Moves σ s0 s) (slot : CtxSlotId) (hs : Scope.within ⟨false, [.ctxSlots], [.ctx]⟩ σ) :
    MovesResult σ s0 (execContextBlocked slot s) := by
  unfold execContextBlocked
  repeat' first
    | with_reducible assumption
    | intro _
    | with_reducible apply Moves.ite
    | with_reducible apply State.wr_moves
    | with_reducible apply State.modSlotRec_moves
    | with_reducible apply MovesResult.live
    | with_reducible apply MovesResult.next
    | dsimp only
    | split
    | with_reducible apply Moves.record
    | with_reducible rfl
    | exact hs.2.2 _ (by simp)
    | exact hs.2.1 _ (by decide +kernel)
    | exact Scope.within.trans (by decide +kernel) hs

theorem execRelief_moves {s0 : State} {s : State} (h : Moves σ s0 s)  (hs : Scope.within ⟨false, [.out, .msix, .ctxs, .ctxSlots, .reliefInto, .lastRelief], [.ctx]⟩ σ) :
    MovesResult σ s0 (execRelief s) := by
  unfold execRelief
  repeat' first
    | with_reducible assumption
    | intro _
    | with_reducible apply Moves.ite
    | with_reducible apply State.bump_moves
    | with_reducible apply State.raise_moves
    | with_reducible apply State.startRestore_moves
    | with_reducible apply State.startSave_moves
    | with_reducible apply MovesResult.live
    | with_reducible apply MovesResult.next
    | with_reducible refine Moves.fstOf (by with_reducible assumption) ?_
    | dsimp only
    | split
    | with_reducible apply Moves.record
    | with_reducible rfl
    | exact hs.2.2 _ (by simp)
    | exact hs.2.1 _ (by decide +kernel)
    | exact Scope.within.trans (by decide +kernel) hs
    | exact .inr (hs.2.1 _ (by decide +kernel))
    | with_reducible exact .inl rfl

end Sys2Proof.Machine
end

