-- ==== Sys2Proof/Laws/MovesBlocks.lean ====
section
/-! SUPPORT. What the functions of Machine/Blocks.lean can do to a state: each keeps the queue and the
canonical form of the stores, only adds to the output and keeps the registers 32 bits wide (`Moves`). -/

set_option Elab.async false

namespace Sys2Proof.Machine
variable {σ : Scope}

theorem State.showHub_moves {s0 : State} {s : State} (h : Moves σ s0 s)  (hs : Scope.within ⟨false, [], [.hif]⟩ σ) :
    Moves σ s0 (State.showHub s) := by
  unfold State.showHub
  repeat' first
    | with_reducible assumption
    | intro _
    | with_reducible apply Moves.ite
    | with_reducible apply State.wr_moves
    | dsimp only
    | split
    | with_reducible apply Moves.record
    | with_reducible rfl
    | exact hs.2.2 _ (by simp)

theorem State.showHubOf_moves {s0 : State} {s : State} (h : Moves σ s0 s) (p : Page) (hs : Scope.within ⟨false, [], [.hif]⟩ σ) :
    Moves σ s0 (State.showHubOf s p) := by
  unfold State.showHubOf
  repeat' first
    | with_reducible assumption
    | with_reducible apply Moves.ite
    | with_reducible apply State.showHub_moves

theorem State.enterStarting_moves {s0 : State} {s : State} (h : Moves σ s0 s) (p : Page) (hs : Scope.within ⟨false, [.blocks, .chans], [.hif, .door]⟩ σ) (hp1 : pageKind p ∈ σ.kinds) :
    Moves σ s0 (State.enterStarting s p) := by
  unfold State.enterStarting
  repeat' first
    | with_reducible assumption
    | intro _
    | with_reducible apply Moves.ite
    | with_reducible apply State.wr_moves
    | with_reducible apply State.modRing_moves
    | with_reducible apply State.setBlk_moves
    | with_reducible apply State.setBlockRun_moves
    | with_reducible apply State.showHubOf_moves
    | with_reducible refine Moves.fstOf (by with_reducible assumption) ?_
    | dsimp only
    | split
    | with_reducible apply Moves.record
    | with_reducible rfl
    | exact hs.2.2 _ (by simp)
    | exact hs.2.1 _ (by decide +kernel)
    | exact Scope.within.trans (by decide +kernel) hs

theorem State.enterStopping_moves {s0 : State} {s : State} (h : Moves σ s0 s) (p : Page) (hs : Scope.within ⟨false, [.ports], [.hif, .hlk]⟩ σ) (hp1 : pageKind p ∈ σ.kinds) :
    Moves σ s0 (State.enterStopping s p) := by
  unfold State.enterStopping
  repeat' first
    | with_reducible assumption
    | intro _
    | with_reducible apply Moves.ite
    | with_reducible apply State.wr_moves
    | with_reducible apply State.modPort_moves
    | with_reducible apply State.setBlk_moves
    | with_reducible apply State.setLink_moves
    | with_reducible apply State.showHubOf_moves
    | with_reducible refine Moves.fstOf (by with_reducible assumption) ?_
    | dsimp only
    | split
    | with_reducible apply Moves.record
    | with_reducible rfl
    | exact hs.2.2 _ (by simp)
    | exact hs.2.1 _ (by decide +kernel)
    | exact Scope.within.trans (by decide +kernel) hs

theorem State.enable_moves {s0 : State} {s : State} (h : Moves σ s0 s) (p : Page) (on : Bool) (hs : Scope.within ⟨false, [.blocks, .ports, .chans], [.hif, .hlk, .door]⟩ σ) (hp1 : pageKind p ∈ σ.kinds) :
    Moves σ s0 (State.enable s p on) := by
  unfold State.enable
  repeat' first
    | with_reducible assumption
    | with_reducible apply Moves.ite
    | with_reducible apply State.wr_moves
    | with_reducible apply State.enterStarting_moves
    | with_reducible apply State.enterStopping_moves
    | with_reducible apply State.setBlk_moves
    | with_reducible apply State.setBlockRun_moves
    | with_reducible apply State.setLink_moves
    | with_reducible refine Moves.fstOf (by with_reducible assumption) ?_
    | dsimp only
    | split
    | with_reducible apply Moves.record
    | with_reducible rfl
    | exact hs.2.2 _ (by simp)
    | exact hs.2.1 _ (by decide +kernel)
    | exact Scope.within.trans (by decide +kernel) hs

theorem execEnableSet_moves {s0 : State} {s : State} (h : Moves σ s0 s) (m : Master) (p : Page) (hs : Scope.within ⟨false, [.out, .blocks, .msix, .ports, .recorder, .chans], [.hif, .rpl, .hlk, .door]⟩ σ) (hp1 : pageKind p ∈ σ.kinds) :
    MovesResult σ s0 (execEnableSet m p s) := by
  unfold execEnableSet
  repeat' first
    | with_reducible assumption
    | intro _
    | with_reducible apply Moves.ite
    | with_reducible apply State.enable_moves
    | with_reducible apply State.logWrite_moves
    | with_reducible apply MovesResult.live
    | with_reducible apply MovesResult.next
    | dsimp only
    | split
    | with_reducible apply Moves.record
    | with_reducible rfl
    | exact hs.2.2 _ (by simp)
    | exact hs.2.1 _ (by decide +kernel)
    | exact Scope.within.trans (by decide +kernel) hs

theorem execEnableClear_moves {s0 : State} {s : State} (h : Moves σ s0 s) (m : Master) (p : Page) (hs : Scope.within ⟨false, [.out, .blocks, .msix, .ports, .recorder, .chans], [.hif, .rpl, .hlk, .door]⟩ σ) (hp1 : pageKind p ∈ σ.kinds) :
    MovesResult σ s0 (execEnableClear m p s) := by
  unfold execEnableClear
  repeat' first
    | with_reducible assumption
    | intro _
    | with_reducible apply Moves.ite
    | with_reducible apply State.enable_moves
    | with_reducible apply State.logWrite_moves
    | with_reducible apply MovesResult.live
    | with_reducible apply MovesResult.next
    | dsimp only
    | split
    | with_reducible apply Moves.record
    | with_reducible rfl
    | exact hs.2.2 _ (by simp)
    | exact hs.2.1 _ (by decide +kernel)
    | exact Scope.within.trans (by decide +kernel) hs

theorem execBlockStartStep_moves {s0 : State} {s : State} (h : Moves σ s0 s) (p : Page) (ok : Bool) (hs : Scope.within ⟨false, [.out, .blocks, .msix], [.hif]⟩ σ) (hp0 : pageKind p ∈ σ.kinds) :
    MovesResult σ s0 (execBlockStartStep p ok s) := by
  unfold execBlockStartStep
  repeat' first
    | with_reducible assumption
    | intro _
    | with_reducible apply Moves.ite
    | with_reducible apply State.wr_moves
    | with_reducible apply State.raise_moves
    | with_reducible apply State.setBlk_moves
    | with_reducible apply State.setBlockRun_moves
    | with_reducible apply State.showHubOf_moves
    | with_reducible apply MovesResult.live
    | with_reducible apply MovesResult.next
    | with_reducible refine Moves.fstOf (by with_reducible assumption) ?_
    | dsimp only
    | split
    | with_reducible apply Moves.record
    | with_reducible rfl
    | exact hs.2.2 _ (by simp)
    | exact hs.2.1 _ (by decide +kernel)
    | exact Scope.within.trans (by decide +kernel) hs

theorem execBlockStopDone_moves {s0 : State} {s : State} (h : Moves σ s0 s) (p : Page) (hs : Scope.within ⟨false, [.out, .blocks, .msix, .recorder, .chans], [.hif, .rpl, .door]⟩ σ) (hp0 : pageKind p ∈ σ.kinds) :
    MovesResult σ s0 (execBlockStopDone p s) := by
  unfold execBlockStopDone
  repeat' first
    | with_reducible assumption
    | intro _
    | with_reducible apply Moves.ite
    | with_reducible apply State.wr_moves
    | with_reducible apply State.enterStarting_moves
    | with_reducible apply State.makeRoom_moves
    | with_reducible apply State.setBlk_moves
    | with_reducible apply State.showHubOf_moves
    | with_reducible apply MovesResult.live
    | with_reducible apply MovesResult.next
    | with_reducible refine Moves.fstOf (by with_reducible assumption) ?_
    | dsimp only
    | split
    | with_reducible apply Moves.record
    | with_reducible rfl
    | exact hs.2.2 _ (by simp)
    | exact hs.2.1 _ (by decide +kernel)
    | exact Scope.within.trans (by decide +kernel) hs

end Sys2Proof.Machine
end

