-- ==== Sys2Proof/Laws/MovesChecks.lean ====
section
/-! SUPPORT. What the functions of Machine/Checks.lean can do to a state: each keeps the queue and the
canonical form of the stores, only adds to the output and keeps the registers 32 bits wide (`Moves`). -/

set_option Elab.async false

namespace Sys2Proof.Machine
variable {σ : Scope}

end Sys2Proof.Machine
end

