-- ==== Sys2Proof/Laws/MovesResets.lean ====
section
/-! SUPPORT. What the functions of Machine/Resets.lean can do to a state: each keeps the queue and the
canonical form of the stores, only adds to the output and keeps the registers 32 bits wide (`Moves`). -/

set_option Elab.async false

namespace Sys2Proof.Machine
variable {σ : Scope}

theorem State.resetPages_moves {s0 : State} {s : State} (h : Moves σ s0 s) (ps : List Page) (cls : Nat) (hs : Scope.within ⟨false, [.cycBase, .blocks], [.hif, .far, .hmmu, .strm, .dlm, .ctx, .rpl, .pwr, .clk, .ras, .hlk, .mbx, .grm, .cmmu, .wst, .ast, .tnd, .cvu, .hbmc, .ring, .eng, .door]⟩ σ) :
    Moves σ s0 (State.resetPages s ps cls) := by
  unfold State.resetPages
  repeat' first
    | with_reducible assumption
    | intro _
    | with_reducible apply Moves.ite
    | with_reducible apply State.resetPage_moves
    | with_reducible apply Moves.fold
    | with_reducible apply Moves.foldPair
    | dsimp only
    | split
    | with_reducible apply Moves.record
    | with_reducible rfl
    | exact hs.2.2 _ (pageKind_mem _)
    | exact hs.2.1 _ (by decide +kernel)
    | exact Scope.within.trans (by decide +kernel) hs

theorem State.turnOn_moves {s0 : State} {s : State} (h : Moves σ s0 s) (p : Page) (hs : Scope.within ⟨false, [], []⟩ σ) (hp1 : pageKind p ∈ σ.kinds) :
    Moves σ s0 (State.turnOn s p) := by
  unfold State.turnOn
  repeat' first
    | with_reducible assumption
    | with_reducible apply Moves.ite
    | with_reducible apply State.wr_moves
    | with_reducible apply State.setBlk_moves

theorem State.emptyBox_moves {s0 : State} {s : State} (h : Moves σ s0 s) (b : MbxId) (hs : Scope.within ⟨false, [.out, .msix, .mbx], [.mbx]⟩ σ) :
    Moves σ s0 (State.emptyBox s b) := by
  unfold State.emptyBox
  repeat' first
    | with_reducible assumption
    | intro _
    | with_reducible apply Moves.ite
    | with_reducible apply State.wr_moves
    | with_reducible apply State.raise_moves
    | with_reducible apply State.modSlot_moves
    | dsimp only
    | split
    | with_reducible apply Moves.record
    | with_reducible rfl
    | exact hs.2.2 _ (by simp)
    | exact hs.2.1 _ (by decide +kernel)
    | exact Scope.within.trans (by decide +kernel) hs

theorem State.setMode_moves {s0 : State} {s : State} (h : Moves σ s0 s) (c : Ch) (acked : Bool) (hs : Scope.within ⟨false, [], [.mbx]⟩ σ) :
    Moves σ s0 (State.setMode s c acked) := by
  unfold State.setMode
  repeat' first
    | with_reducible assumption
    | with_reducible apply Moves.ite
    | with_reducible apply State.wr_moves
    | dsimp only
    | split
    | with_reducible apply Moves.record
    | with_reducible rfl
    | exact hs.2.2 _ (by simp)

theorem State.resetSender_moves {s0 : State} {s : State} (h : Moves σ s0 s) (b : MbxId) (hs : Scope.within ⟨false, [], [.mbx]⟩ σ) :
    Moves σ s0 (State.resetSender s b) := by
  unfold State.resetSender
  repeat' first
    | with_reducible assumption
    | with_reducible apply Moves.ite
    | with_reducible apply State.wr_moves
    | with_reducible apply State.setWord_moves
    | with_reducible apply State.setWords_moves
    | dsimp only
    | split
    | with_reducible apply Moves.record
    | with_reducible rfl
    | exact hs.2.2 _ (by simp)
    | exact hs.2.1 _ (by decide +kernel)
    | exact Scope.within.trans (by decide +kernel) hs

theorem Channel.loseStores_stores {w : Bool} (hw : w = true) (x : Channel) (all : Bool) : StoresMove w x (x.loseStores all) := by
  refine .changeOf hw (fun h => Memory.lose_wf _ _ h) (fun h => Memory.lose_wf _ _ h) fun h => ?_
  show (if all then x.hbm.lose 0 Config.hbmBytes else x.hbm).wf
  split
  · exact Memory.lose_wf _ _ h
  · exact h

theorem State.recordMaps_moves {s0 : State} {s : State} (h : Moves σ s0 s) (c : Nat) (hs : Scope.within ⟨false, [.chans], []⟩ σ) :
    Moves σ s0 (State.recordMaps s c) := by
  unfold State.recordMaps
  repeat' first
    | with_reducible assumption
    | intro _
    | with_reducible apply Moves.ite
    | with_reducible apply State.modSite_moves
    | with_reducible apply Moves.fold

theorem State.loseStreams_moves {s0 : State} {s : State} (h : Moves σ s0 s) (c : Nat) (hs : Scope.within ⟨false, [.out, .msix, .dlm, .streams, .rehoming], [.strm]⟩ σ) :
    Moves σ s0 (State.loseStreams s c) := by
  unfold State.loseStreams
  repeat' first
    | with_reducible assumption
    | intro _
    | with_reducible apply Moves.ite
    | with_reducible apply State.raise_moves
    | with_reducible apply State.windowDone_moves
    | with_reducible exact Memory.lose_wf _ _ (by assumption)
    | with_reducible refine Moves.fstOf (by with_reducible assumption) ?_
    | dsimp only
    | split
    | with_reducible apply Moves.record
    | with_reducible rfl
    | exact hs.2.2 _ (by simp)
    | exact hs.2.1 _ (by decide +kernel)
    | exact Scope.within.trans (by decide +kernel) hs
    | exact .inr (hs.2.1 _ (by decide +kernel))
    | with_reducible exact .inl rfl

theorem Channel.afterReset_stores {w : Bool} (hw : w = true) (x : Channel) : StoresMove w x x.afterReset := by
  unfold Channel.afterReset
  refine .trans ?_ (Channel.loseStores_stores hw _ _)
  exact .of_eq rfl rfl rfl

theorem State.resetChannel_moves {s0 : State} {s : State} (h : Moves σ s0 s) (c : Ch) (hs : Scope.within ⟨true, [.out, .cycBase, .blocks, .msix, .mbx, .xlat, .shares, .dlm, .streams, .rehoming, .recorder, .chans], [.hif, .far, .hmmu, .strm, .dlm, .ctx, .rpl, .pwr, .clk, .ras, .hlk, .mbx, .grm, .cmmu, .wst, .ast, .tnd, .cvu, .hbmc, .ring, .eng, .door]⟩ σ) :
    Moves σ s0 (State.resetChannel s c) := by
  unfold State.resetChannel
  repeat' first
    | with_reducible assumption
    | intro _
    | with_reducible apply Moves.ite
    | with_reducible apply State.wr_moves
    | with_reducible apply State.modChan_moves
    | with_reducible apply Channel.afterReset_moves
    | with_reducible apply State.channelPathsLost_moves
    | with_reducible apply State.emptyBox_moves
    | with_reducible apply State.forgetAccesses_moves
    | with_reducible apply State.loseStreams_moves
    | with_reducible apply State.modCache_moves
    | with_reducible apply State.releaseAll_moves
    | with_reducible apply State.resetPages_moves
    | with_reducible apply State.resetSender_moves
    | with_reducible exact Channel.afterReset_stores (hs.1 rfl) _
    | exact StoresMove.of_eq rfl rfl rfl
    | with_reducible exact Memory.lose_wf _ _ (by assumption)
    | dsimp only
    | split
    | with_reducible apply Moves.record
    | with_reducible rfl
    | exact hs.2.2 _ (pageKind_mem _)
    | exact hs.2.1 _ (by decide +kernel)
    | exact Scope.within.trans (by decide +kernel) hs
    | exact .inr (hs.2.1 _ (by decide +kernel))
    | with_reducible exact .inl rfl

theorem State.lockPll_moves {s0 : State} {s : State} (h : Moves σ s0 s) (c : Nat) (freq : Nat) (hs : Scope.within ⟨false, [], [.clk]⟩ σ) :
    Moves σ s0 (State.lockPll s c freq) := by
  unfold State.lockPll
  repeat' first
    | with_reducible assumption
    | with_reducible apply Moves.ite
    | with_reducible apply State.wr_moves
    | dsimp only
    | split
    | with_reducible apply Moves.record
    | with_reducible rfl
    | exact hs.2.2 _ (by simp)

theorem State.relockFull_moves {s0 : State} {s : State} (h : Moves σ s0 s) (c : Nat) (hs : Scope.within ⟨false, [.out, .msix], [.clk]⟩ σ) :
    Moves σ s0 (State.relockFull s c) := by
  unfold State.relockFull
  repeat' first
    | with_reducible assumption
    | with_reducible apply Moves.ite
    | with_reducible apply State.bump_moves
    | with_reducible apply State.raise_moves
    | with_reducible apply State.lockPll_moves
    | dsimp only
    | split
    | with_reducible apply Moves.record
    | with_reducible rfl
    | exact hs.2.2 _ (by simp)
    | exact hs.2.1 _ (by decide +kernel)
    | exact Scope.within.trans (by decide +kernel) hs

theorem Channel.afterWarm_stores {w : Bool} (hw : w = true) (x : Channel) : StoresMove w x x.afterWarm := by
  unfold Channel.afterWarm
  refine .trans ?_ (Channel.loseStores_stores hw _ _)
  exact .of_eq rfl rfl rfl

theorem State.clearFunction_moves {s0 : State} {s : State} (h : Moves σ s0 s)  (hs : Scope.within ⟨false, [.dev, .holds, .msix, .xlat, .ctxs, .ctxSlots, .loads, .reliefInto, .lastRelief, .shares, .dlm, .streams, .rehoming, .recorder], []⟩ σ) :
    Moves σ s0 (State.clearFunction s) := by
  unfold State.clearFunction
  repeat' first
    | with_reducible assumption
    | with_reducible apply Moves.ite
    | dsimp only
    | split
    | with_reducible apply Moves.record
    | with_reducible rfl
    | exact hs.2.2 _ (by simp)
    | exact hs.2.1 _ (by decide +kernel)
    | exact Scope.within.trans (by decide +kernel) hs
    | exact .inr (hs.2.1 _ (by decide +kernel))
    | with_reducible exact .inl rfl

theorem State.warm_moves {s0 : State} {s : State} (h : Moves σ s0 s)  (hs : Scope.within ⟨true, [.out, .dev, .cycBase, .holds, .blocks, .msix, .mbx, .ports, .xlat, .ctxs, .ctxSlots, .loads, .reliefInto, .lastRelief, .shares, .dlm, .streams, .rehoming, .recorder, .chans], [.hif, .far, .hmmu, .strm, .dlm, .ctx, .rpl, .pwr, .clk, .ras, .hlk, .mbx, .grm, .cmmu, .wst, .ast, .tnd, .cvu, .hbmc, .ring, .eng, .door]⟩ σ) :
    Moves σ s0 (State.warm s) := by
  unfold State.warm
  repeat' first
    | with_reducible assumption
    | intro _
    | with_reducible apply Moves.ite
    | with_reducible apply State.wr_moves
    | with_reducible apply State.modChan_moves
    | with_reducible apply Channel.afterWarm_moves
    | with_reducible apply State.clearFunction_moves
    | with_reducible apply State.emptyBox_moves
    | with_reducible apply State.mailTimeout_moves
    | with_reducible apply State.modDev_moves
    | with_reducible apply State.recordMaps_moves
    | with_reducible apply State.releaseAll_moves
    | with_reducible apply State.relockFull_moves
    | with_reducible apply State.resetPages_moves
    | with_reducible exact Channel.afterWarm_stores (hs.1 rfl) _
    | exact StoresMove.of_eq rfl rfl rfl
    | with_reducible apply Moves.fold
    | with_reducible apply Moves.foldPair
    | dsimp only
    | split
    | with_reducible apply Moves.record
    | with_reducible rfl
    | exact hs.2.2 _ (pageKind_mem _)
    | exact hs.2.1 _ (by decide +kernel)
    | exact Scope.within.trans (by decide +kernel) hs
    | exact .inr (hs.2.1 _ (by decide +kernel))
    | with_reducible exact .inl rfl

theorem execWarmReset_moves {s0 : State} {s : State} (h : Moves σ s0 s)  (hs : Scope.within ⟨true, [.out, .dev, .cycBase, .holds, .blocks, .msix, .mbx, .ports, .xlat, .ctxs, .ctxSlots, .loads, .reliefInto, .lastRelief, .shares, .dlm, .streams, .rehoming, .recorder, .chans], [.hif, .far, .hmmu, .strm, .dlm, .ctx, .rpl, .pwr, .clk, .ras, .hlk, .mbx, .grm, .cmmu, .wst, .ast, .tnd, .cvu, .hbmc, .ring, .eng, .door]⟩ σ) :
    MovesResult σ s0 (execWarmReset s) := by
  unfold execWarmReset
  repeat' first
    | with_reducible assumption
    | intro _
    | with_reducible apply Moves.ite
    | with_reducible apply State.warm_moves
    | with_reducible apply MovesResult.live

theorem State.disablePorts_moves {s0 : State} {s : State} (h : Moves σ s0 s)  (hs : Scope.within ⟨false, [.out, .msix, .ports, .xlat, .shares, .recorder, .chans], [.hif, .far, .hmmu, .strm, .dlm, .ctx, .rpl, .pwr, .clk, .ras, .hlk, .mbx, .grm, .cmmu, .wst, .ast, .tnd, .cvu, .hbmc, .ring, .eng, .door]⟩ σ) :
    Moves σ s0 (State.disablePorts s) := by
  unfold State.disablePorts
  repeat' first
    | with_reducible assumption
    | intro _
    | with_reducible apply Moves.ite
    | with_reducible apply State.emit_moves
    | with_reducible apply State.modPort_moves
    | with_reducible apply State.portLost_moves
    | with_reducible apply Moves.fold
    | with_reducible apply Moves.foldPair
    | with_reducible refine Moves.fstOf (by with_reducible assumption) ?_
    | dsimp only
    | split
    | with_reducible apply Moves.record
    | with_reducible rfl
    | exact hs.2.2 _ (pageKind_mem _)
    | exact hs.2.1 _ (by decide +kernel)
    | exact Scope.within.trans (by decide +kernel) hs

theorem execPcieLinkDown_moves {s0 : State} {s : State} (h : Moves σ s0 s)  (hs : Scope.within ⟨true, [.out, .dev, .cycBase, .holds, .blocks, .msix, .mbx, .ports, .xlat, .ctxs, .ctxSlots, .loads, .reliefInto, .lastRelief, .shares, .dlm, .streams, .rehoming, .recorder, .chans], [.hif, .far, .hmmu, .strm, .dlm, .ctx, .rpl, .pwr, .clk, .ras, .hlk, .mbx, .grm, .cmmu, .wst, .ast, .tnd, .cvu, .hbmc, .ring, .eng, .door]⟩ σ) :
    MovesResult σ s0 (execPcieLinkDown s) := by
  unfold execPcieLinkDown
  repeat' first
    | with_reducible assumption
    | intro _
    | with_reducible apply Moves.ite
    | with_reducible apply State.disablePorts_moves
    | with_reducible apply State.warm_moves
    | with_reducible apply MovesResult.live
    | with_reducible apply MovesResult.next
    | dsimp only
    | split
    | with_reducible apply Moves.record
    | with_reducible rfl
    | exact hs.2.2 _ (pageKind_mem _)
    | exact hs.2.1 _ (by decide +kernel)
    | exact Scope.within.trans (by decide +kernel) hs

theorem execPcieLinkChange_moves {s0 : State} {s : State} (h : Moves σ s0 s) (speed : BitVec 4) (width : BitVec 5) (flit : Bool) (up : Bool) (hs : Scope.within ⟨true, [.out, .dev, .cycBase, .holds, .blocks, .msix, .mbx, .ports, .xlat, .ctxs, .ctxSlots, .loads, .reliefInto, .lastRelief, .shares, .dlm, .streams, .rehoming, .recorder, .chans], [.hif, .far, .hmmu, .strm, .dlm, .ctx, .rpl, .pwr, .clk, .ras, .hlk, .mbx, .grm, .cmmu, .wst, .ast, .tnd, .cvu, .hbmc, .ring, .eng, .door]⟩ σ) :
    MovesResult σ s0 (execPcieLinkChange speed width flit up s) := by
  unfold execPcieLinkChange
  repeat' first
    | with_reducible assumption
    | intro _
    | with_reducible apply Moves.ite
    | with_reducible apply State.wr_moves
    | with_reducible apply State.raise_moves
    | with_reducible apply State.disablePorts_moves
    | with_reducible apply State.warm_moves
    | with_reducible apply MovesResult.live
    | with_reducible apply MovesResult.next
    | dsimp only
    | split
    | with_reducible apply Moves.record
    | with_reducible rfl
    | exact hs.2.2 _ (pageKind_mem _)
    | exact hs.2.1 _ (by decide +kernel)
    | exact Scope.within.trans (by decide +kernel) hs

theorem Channel.afterFlr_stores {w : Bool} (hw : w = true) (x : Channel) : StoresMove w x x.afterFlr := by
  unfold Channel.afterFlr
  refine .trans ?_ (Channel.loseStores_stores hw _ _)
  exact .of_eq rfl rfl rfl

theorem State.restartGroom_moves {s0 : State} {s : State} (h : Moves σ s0 s) (c : Ch) (hs : Scope.within ⟨false, [.out, .msix], [.hif, .mbx, .grm]⟩ σ) :
    Moves σ s0 (State.restartGroom s c) := by
  unfold State.restartGroom
  repeat' first
    | with_reducible assumption
    | with_reducible apply Moves.ite
    | with_reducible apply State.wr_moves
    | with_reducible apply State.setChState_moves
    | with_reducible apply State.setMode_moves
    | dsimp only
    | split
    | with_reducible apply Moves.record
    | with_reducible rfl
    | exact hs.2.2 _ (by simp)
    | exact hs.2.1 _ (by decide +kernel)
    | exact Scope.within.trans (by decide +kernel) hs

theorem State.resetRoute_moves {s0 : State} {s : State} (h : Moves σ s0 s) (p : Page) (hs : Scope.within ⟨false, [], []⟩ σ) (hp1 : pageKind p ∈ σ.kinds) :
    Moves σ s0 (State.resetRoute s p) := by
  unfold State.resetRoute
  repeat' first
    | with_reducible assumption
    | with_reducible apply Moves.ite
    | with_reducible apply State.setWord_moves

theorem execFlr_moves {s0 : State} {s : State} (h : Moves σ s0 s)  (hs : Scope.within ⟨true, [.out, .dev, .cycBase, .holds, .blocks, .msix, .mbx, .xlat, .ctxs, .ctxSlots, .loads, .reliefInto, .lastRelief, .shares, .dlm, .streams, .rehoming, .recorder, .chans], [.hif, .far, .hmmu, .strm, .dlm, .ctx, .rpl, .pwr, .clk, .ras, .hlk, .mbx, .grm, .cmmu, .wst, .ast, .tnd, .cvu, .hbmc, .ring, .eng, .door]⟩ σ) :
    MovesResult σ s0 (execFlr s) := by
  unfold execFlr
  repeat' first
    | with_reducible assumption
    | intro _
    | with_reducible apply Moves.ite
    | with_reducible apply State.modChan_moves
    | with_reducible apply State.setWord_moves
    | with_reducible apply Channel.afterFlr_moves
    | with_reducible apply State.clearFunction_moves
    | with_reducible apply State.dropBlocks_moves
    | with_reducible apply State.emptyBox_moves
    | with_reducible apply State.releaseAll_moves
    | with_reducible apply State.resetContext_moves
    | with_reducible apply State.resetPages_moves
    | with_reducible apply State.resetRoute_moves
    | with_reducible apply State.restartGroom_moves
    | with_reducible apply State.showHub_moves
    | with_reducible apply State.turnOn_moves
    | with_reducible exact Channel.afterFlr_stores (hs.1 rfl) _
    | exact StoresMove.of_eq rfl rfl rfl
    | with_reducible apply Moves.fold
    | with_reducible apply Moves.foldPair
    | with_reducible apply MovesResult.live
    | with_reducible apply MovesResult.next
    | dsimp only
    | split
    | with_reducible apply Moves.record
    | with_reducible rfl
    | exact hs.2.2 _ (pageKind_mem _)
    | exact hs.2.1 _ (by decide +kernel)
    | exact Scope.within.trans (by decide +kernel) hs

theorem execSurpriseRemoval_moves {s0 : State} {s : State} (h : Moves σ s0 s)  (hs : Scope.within ⟨false, [.dev], []⟩ σ) :
    MovesResult σ s0 (execSurpriseRemoval s) := by
  unfold execSurpriseRemoval
  repeat' first
    | with_reducible assumption
    | intro _
    | with_reducible apply Moves.ite
    | with_reducible apply MovesResult.live
    | with_reducible apply MovesResult.next
    | dsimp only
    | split
    | with_reducible apply Moves.record
    | with_reducible rfl
    | exact hs.2.2 _ (by simp)
    | exact hs.2.1 _ (by decide +kernel)
    | exact Scope.within.trans (by decide +kernel) hs
    | exact .inr (hs.2.1 _ (by decide +kernel))
    | with_reducible exact .inl rfl

theorem Channel.afterCold_stores {w : Bool} (hw : w = true) (x : Channel) : StoresMove w x x.afterCold := by
  unfold Channel.afterCold
  refine .trans ?_ (Channel.loseStores_stores hw _ _)
  exact .of_eq rfl rfl rfl

theorem State.cold_moves {s0 s : State} (h : Moves σ s0 s) (hs : Scope.within ⟨true, [.out, .drawn, .dev, .cycles, .cycBase, .holds, .blocks, .msix, .mbx, .ports, .xlat, .ctxs, .ctxSlots, .loads, .reliefInto, .lastRelief, .shares, .dlm, .streams, .rehoming, .recorder, .chans], [.hif, .far, .hmmu, .strm, .dlm, .ctx, .rpl, .pwr, .clk, .ras, .hlk, .mbx, .grm, .cmmu, .wst, .ast, .tnd, .cvu, .hbmc, .ring, .eng, .door]⟩ σ) : Moves σ s0 (State.cold s) := by
  have h1 : Moves σ s0 ((List.range 4).foldl (fun s c => s.recordMaps c) s) :=
    .fold h fun u c hu => State.recordMaps_moves hu c (.trans (by decide +kernel) hs)
  refine ⟨h.pending, h.out, h.drawn, fun _ => ⟨List.Pairwise.nil, fun _ hr => nomatch hr⟩, fun c => ?_, fun x hx => ?_,
    fun q hq => absurd (hs.2.2 _ (pageKind_mem q)) hq⟩
  rotate_left
  · cases x <;> first | exact h.pending | exact absurd (hs.2.1 _ (by decide +kernel)) hx
  have h2 : ∀ x : Channel, StoresMove σ.stores x (({} : Channel)) := fun x =>
    .changeOf (hs.1 rfl) (fun _ => Memory.wf_empty) (fun _ => Memory.wf_empty) (fun _ => Memory.wf_empty)
  have h3 := fun d => (h1.stores d).trans (Channel.afterCold_stores (hs.1 rfl) _)
  by_cases h0 : c = 0
  · subst h0; exact h3 0
  · by_cases h1 : c = 1
    · subst h1; exact h3 1
    · by_cases h2' : c = 2
      · subst h2'; exact h3 2
      · by_cases h3' : c = 3
        · subst h3'; exact h3 3
        · have e : (State.cold s).chan c = {} := by
            simp [State.cold, State.chan, Tab.get, List.range, List.range.loop, h0, h1, h2', h3']
          rw [e]; exact h2 _

theorem execColdResetRequest_moves {s0 : State} {s : State} (h : Moves σ s0 s)  (hs : Scope.within ⟨true, [.out, .drawn, .dev, .cycles, .cycBase, .holds, .blocks, .msix, .mbx, .ports, .xlat, .ctxs, .ctxSlots, .loads, .reliefInto, .lastRelief, .shares, .dlm, .streams, .rehoming, .recorder, .chans], [.hif, .far, .hmmu, .strm, .dlm, .ctx, .rpl, .pwr, .clk, .ras, .hlk, .mbx, .grm, .cmmu, .wst, .ast, .tnd, .cvu, .hbmc, .ring, .eng, .door]⟩ σ) :
    MovesResult σ s0 (execColdResetRequest s) := by
  unfold execColdResetRequest
  repeat' first
    | with_reducible assumption
    | intro _
    | with_reducible apply Moves.ite
    | with_reducible apply State.cold_moves
    | with_reducible apply MovesResult.live

end Sys2Proof.Machine
end

