-- ==== Sys2Proof/Laws/MovesStartup.lean ====
section
/-! SUPPORT. What the functions of Machine/Startup.lean can do to a state: each keeps the queue and the
canonical form of the stores, only adds to the output and keeps the registers 32 bits wide (`Moves`). -/

set_option Elab.async false

namespace Sys2Proof.Machine
variable {σ : Scope}

theorem State.answer_moves {s0 : State} {s : State} (h : Moves σ s0 s) (type : Nat) (seq : Nat) (code : Nat) (hs : Scope.within ⟨false, [.out, .dev, .msix, .mbx, .ports, .recorder], [.rpl, .mbx]⟩ σ) :
    Moves σ s0 (State.answer s type seq code) := by
  unfold State.answer
  repeat' first
    | with_reducible assumption
    | intro _
    | with_reducible apply Moves.ite
    | with_reducible apply State.flushAnswers_moves
    | with_reducible apply State.modDev_moves
    | dsimp only
    | split
    | with_reducible apply Moves.record
    | with_reducible rfl
    | exact hs.2.2 _ (by simp)
    | exact hs.2.1 _ (by decide +kernel)
    | exact Scope.within.trans (by decide +kernel) hs

theorem State.settleOwed_moves {s0 : State} {s : State} (h : Moves σ s0 s) (p : OwedAnswer → Bool) (code : Nat) (hs : Scope.within ⟨false, [.out, .dev, .msix, .mbx, .ports, .recorder], [.rpl, .mbx]⟩ σ) :
    Moves σ s0 (State.settleOwed s p code) := by
  unfold State.settleOwed
  repeat' first
    | with_reducible assumption
    | intro _
    | with_reducible apply Moves.ite
    | with_reducible apply State.answer_moves
    | with_reducible apply State.modDev_moves
    | with_reducible apply Moves.fold
    | with_reducible apply Moves.foldPair
    | dsimp only
    | split
    | with_reducible apply Moves.record
    | with_reducible rfl
    | exact hs.2.2 _ (by simp)
    | exact hs.2.1 _ (by decide +kernel)
    | exact Scope.within.trans (by decide +kernel) hs

theorem State.startLinks_moves {s0 : State} {s : State} (h : Moves σ s0 s)  (hs : Scope.within ⟨false, [.blocks, .ports, .chans], [.hif, .far, .hlk, .door]⟩ σ) :
    Moves σ s0 (State.startLinks s) := by
  unfold State.startLinks
  repeat' first
    | with_reducible assumption
    | intro _
    | with_reducible apply Moves.ite
    | with_reducible apply State.wr_moves
    | with_reducible apply State.enable_moves
    | with_reducible apply Moves.fold
    | with_reducible apply Moves.foldPair
    | dsimp only
    | split
    | with_reducible apply Moves.record
    | with_reducible rfl
    | exact hs.2.2 _ (by simp)
    | exact hs.2.1 _ (by decide +kernel)
    | exact Scope.within.trans (by decide +kernel) hs

theorem State.retireChannel_moves {s0 : State} {s : State} (h : Moves σ s0 s) (c : Ch) (cause : Nat) (hs : Scope.within ⟨true, [.out, .dev, .cycBase, .blocks, .msix, .mbx, .ports, .xlat, .shares, .dlm, .streams, .rehoming, .recorder, .chans], [.hif, .far, .hmmu, .strm, .dlm, .ctx, .rpl, .pwr, .clk, .ras, .hlk, .mbx, .grm, .cmmu, .wst, .ast, .tnd, .cvu, .hbmc, .ring, .eng, .door]⟩ σ) :
    Moves σ s0 (State.retireChannel s c cause) := by
  unfold State.retireChannel
  repeat' first
    | with_reducible assumption
    | with_reducible apply Moves.ite
    | with_reducible apply State.wr_moves
    | with_reducible apply State.raise_moves
    | with_reducible apply State.resetChannel_moves
    | with_reducible apply State.setChState_moves
    | with_reducible apply State.settleOwed_moves
    | with_reducible apply State.startLinks_moves
    | exact StoresMove.of_eq rfl rfl rfl
    | dsimp only
    | split
    | with_reducible apply Moves.record
    | with_reducible rfl
    | exact hs.2.2 _ (pageKind_mem _)
    | exact hs.2.1 _ (by decide +kernel)
    | exact Scope.within.trans (by decide +kernel) hs

theorem State.startFails_moves {s0 : State} {s : State} (h : Moves σ s0 s) (c : Ch) (cause : Nat) (hs : Scope.within ⟨true, [.out, .dev, .cycBase, .blocks, .msix, .mbx, .ports, .xlat, .shares, .dlm, .streams, .rehoming, .recorder, .chans], [.hif, .far, .hmmu, .strm, .dlm, .ctx, .rpl, .pwr, .clk, .ras, .hlk, .mbx, .grm, .cmmu, .wst, .ast, .tnd, .cvu, .hbmc, .ring, .eng, .door]⟩ σ) :
    Moves σ s0 (State.startFails s c cause) := by
  unfold State.startFails
  repeat' first
    | with_reducible assumption
    | with_reducible apply Moves.ite
    | with_reducible apply State.retireChannel_moves
    | with_reducible apply State.setChState_moves
    | with_reducible apply State.settleOwed_moves
    | with_reducible apply State.startLinks_moves
    | dsimp only
    | split
    | with_reducible apply Moves.record
    | with_reducible rfl
    | exact hs.2.2 _ (pageKind_mem _)
    | exact hs.2.1 _ (by decide +kernel)
    | exact Scope.within.trans (by decide +kernel) hs

theorem execChannelRetire_moves {s0 : State} {s : State} (h : Moves σ s0 s) (c : Ch) (cause : RetireCause) (hs : Scope.within ⟨true, [.out, .dev, .cycBase, .blocks, .msix, .mbx, .ports, .xlat, .shares, .dlm, .streams, .rehoming, .recorder, .chans], [.hif, .far, .hmmu, .strm, .dlm, .ctx, .rpl, .pwr, .clk, .ras, .hlk, .mbx, .grm, .cmmu, .wst, .ast, .tnd, .cvu, .hbmc, .ring, .eng, .door]⟩ σ) :
    MovesResult σ s0 (execChannelRetire c cause s) := by
  unfold execChannelRetire
  repeat' first
    | with_reducible assumption
    | intro _
    | with_reducible apply Moves.ite
    | with_reducible apply State.retireChannel_moves
    | with_reducible apply MovesResult.live

theorem State.bootEnds_moves {s0 : State} {s : State} (h : Moves σ s0 s) (step : Nat) (code : Nat) (hs : Scope.within ⟨false, [], [.far]⟩ σ) :
    Moves σ s0 (State.bootEnds s step code) := by
  unfold State.bootEnds
  repeat' first
    | with_reducible assumption
    | with_reducible apply Moves.ite
    | with_reducible apply State.wr_moves
    | dsimp only
    | split
    | with_reducible apply Moves.record
    | with_reducible rfl
    | exact hs.2.2 _ (by simp)

theorem State.powerUp_moves {s0 : State} {s : State} (h : Moves σ s0 s) (p : PowerOnInputs) (hs : Scope.within ⟨false, [], [.far, .clk]⟩ σ) :
    Moves σ s0 (State.powerUp s p) := by
  unfold State.powerUp
  repeat' first
    | with_reducible assumption
    | intro _
    | with_reducible apply Moves.ite
    | with_reducible apply State.wr_moves
    | with_reducible apply State.bootEnds_moves
    | with_reducible apply State.lockPll_moves
    | with_reducible apply Moves.fold
    | with_reducible apply Moves.foldPair
    | dsimp only
    | split
    | with_reducible apply Moves.record
    | with_reducible rfl
    | exact hs.2.2 _ (by simp)
    | exact hs.2.1 _ (by decide +kernel)
    | exact Scope.within.trans (by decide +kernel) hs

theorem State.runBank_moves {s0 : State} {s : State} (h : Moves σ s0 s) (bank : Nat) (svn : Nat) (fallback : Bool) (hs : Scope.within ⟨false, [], [.far]⟩ σ) :
    Moves σ s0 (State.runBank s bank svn fallback) := by
  unfold State.runBank
  repeat' first
    | with_reducible assumption
    | with_reducible apply Moves.ite
    | with_reducible apply State.wr_moves
    | dsimp only
    | split
    | with_reducible apply Moves.record
    | with_reducible rfl
    | exact hs.2.2 _ (by simp)

theorem State.coldStart_moves {s0 : State} {s : State} (h : Moves σ s0 s) (p : PowerOnInputs) (hs : Scope.within ⟨false, [.dev], [.hif, .far, .hmmu, .strm, .dlm, .ctx, .rpl, .pwr, .clk, .ras, .hlk, .mbx, .grm, .cmmu, .wst, .ast, .tnd, .cvu, .hbmc, .ring, .eng, .door]⟩ σ) :
    Moves σ s0 (State.coldStart s p) := by
  unfold State.coldStart
  repeat' first
    | with_reducible assumption
    | intro _
    | with_reducible apply Moves.ite
    | with_reducible apply State.wr_moves
    | with_reducible apply State.bootEnds_moves
    | with_reducible apply State.modDev_moves
    | with_reducible apply State.powerUp_moves
    | with_reducible apply State.runBank_moves
    | with_reducible apply State.turnOn_moves
    | with_reducible apply Moves.fold
    | with_reducible apply Moves.foldPair
    | dsimp only
    | split
    | with_reducible apply Moves.record
    | with_reducible rfl
    | exact hs.2.2 _ (pageKind_mem _)
    | exact hs.2.1 _ (by decide +kernel)
    | exact Scope.within.trans (by decide +kernel) hs

theorem execPowerOn_moves {s0 : State} {s : State} (h : Moves σ s0 s) (p : PowerOnInputs) (hs : Scope.within ⟨true, [.out, .drawn, .dev, .cycles, .cycBase, .holds, .blocks, .msix, .mbx, .ports, .xlat, .ctxs, .ctxSlots, .loads, .reliefInto, .lastRelief, .shares, .dlm, .streams, .rehoming, .recorder, .chans], [.hif, .far, .hmmu, .strm, .dlm, .ctx, .rpl, .pwr, .clk, .ras, .hlk, .mbx, .grm, .cmmu, .wst, .ast, .tnd, .cvu, .hbmc, .ring, .eng, .door]⟩ σ) :
    MovesResult σ s0 (execPowerOn p s) := by
  unfold execPowerOn
  repeat' first
    | with_reducible assumption
    | intro _
    | with_reducible apply Moves.ite
    | with_reducible apply State.cold_moves
    | with_reducible apply State.coldStart_moves
    | with_reducible apply State.modDev_moves
    | with_reducible apply MovesResult.live
    | with_reducible apply MovesResult.next
    | dsimp only
    | split
    | with_reducible apply Moves.record
    | with_reducible rfl
    | exact hs.2.2 _ (pageKind_mem _)
    | exact hs.2.1 _ (by decide +kernel)
    | exact Scope.within.trans (by decide +kernel) hs

theorem State.trainHbm_moves {s0 : State} {s : State} (h : Moves σ s0 s) (c : Ch) (hs : Scope.within ⟨false, [.out, .msix], [.hif]⟩ σ) :
    Moves σ s0 (State.trainHbm s c) := by
  unfold State.trainHbm
  repeat' first
    | with_reducible assumption
    | with_reducible apply Moves.ite
    | with_reducible apply State.setChState_moves

theorem execPerstDeassert_moves {s0 : State} {s : State} (h : Moves σ s0 s) (speed : BitVec 4) (width : BitVec 5) (hs : Scope.within ⟨false, [.out, .drawn, .dev, .blocks, .msix, .ports, .chans], [.hif, .far, .hmmu, .strm, .dlm, .ctx, .rpl, .pwr, .clk, .ras, .hlk, .mbx, .grm, .cmmu, .wst, .ast, .tnd, .cvu, .hbmc, .ring, .eng, .door]⟩ σ) :
    MovesResult σ s0 (execPerstDeassert speed width s) := by
  unfold execPerstDeassert
  repeat' first
    | with_reducible assumption
    | intro _
    | with_reducible apply Moves.ite
    | with_reducible apply State.wr_moves
    | with_reducible apply State.raise_moves
    | with_reducible apply State.draw_moves
    | with_reducible apply State.modDev_moves
    | with_reducible apply State.setChState_moves
    | with_reducible apply State.showHub_moves
    | with_reducible apply State.startLinks_moves
    | with_reducible apply State.trainHbm_moves
    | with_reducible apply State.turnOn_moves
    | with_reducible apply Moves.fold
    | with_reducible apply Moves.foldPair
    | with_reducible apply MovesResult.live
    | with_reducible apply MovesResult.next
    | dsimp only
    | split
    | with_reducible apply Moves.record
    | with_reducible rfl
    | exact hs.2.2 _ (pageKind_mem _)
    | exact hs.2.1 _ (by decide +kernel)
    | exact Scope.within.trans (by decide +kernel) hs

theorem execConfigRequest_moves {s0 : State} {s : State} (h : Moves σ s0 s)  (hs : Scope.within ⟨false, [.out, .drawn], []⟩ σ) :
    MovesResult σ s0 (execConfigRequest s) := by
  unfold execConfigRequest
  repeat' first
    | with_reducible assumption
    | intro _
    | with_reducible apply Moves.ite
    | with_reducible apply State.emit_moves
    | with_reducible apply State.draw_moves
    | with_reducible apply MovesResult.live
    | with_reducible apply MovesResult.next
    | dsimp only
    | split
    | with_reducible apply Moves.record
    | with_reducible rfl
    | exact hs.2.2 _ (by simp)
    | exact hs.2.1 _ (by decide +kernel)

theorem execHbmTrainDone_moves {s0 : State} {s : State} (h : Moves σ s0 s) (c : Ch) (ok : Bool) (hs : Scope.within ⟨true, [.out, .dev, .cycBase, .blocks, .msix, .mbx, .ports, .xlat, .shares, .dlm, .streams, .rehoming, .recorder, .chans], [.hif, .far, .hmmu, .strm, .dlm, .ctx, .rpl, .pwr, .clk, .ras, .hlk, .mbx, .grm, .cmmu, .wst, .ast, .tnd, .cvu, .hbmc, .ring, .eng, .door]⟩ σ) :
    MovesResult σ s0 (execHbmTrainDone c ok s) := by
  unfold execHbmTrainDone
  repeat' first
    | with_reducible assumption
    | intro _
    | with_reducible apply Moves.ite
    | with_reducible apply State.wr_moves
    | with_reducible apply State.setChState_moves
    | with_reducible apply State.startFails_moves
    | with_reducible apply MovesResult.live
    | with_reducible apply MovesResult.next
    | dsimp only
    | split
    | with_reducible apply Moves.record
    | with_reducible rfl
    | exact hs.2.2 _ (pageKind_mem _)
    | exact hs.2.1 _ (by decide +kernel)
    | exact Scope.within.trans (by decide +kernel) hs

theorem State.showRows_moves {s0 : State} {s : State} (h : Moves σ s0 s) (c : Nat) (hs : Scope.within ⟨false, [], [.hbmc]⟩ σ) :
    Moves σ s0 (State.showRows s c) := by
  unfold State.showRows
  repeat' first
    | with_reducible assumption
    | with_reducible apply Moves.ite
    | with_reducible apply State.wr_moves
    | dsimp only
    | split
    | with_reducible apply Moves.record
    | with_reducible rfl
    | exact hs.2.2 _ (by simp)

theorem State.applyRecords_moves {s0 : State} {s : State} (h : Moves σ s0 s) (c : Nat) (hs : Scope.within ⟨false, [.chans], [.ras, .hbmc, .eng]⟩ σ) :
    Moves σ s0 (State.applyRecords s c) := by
  unfold State.applyRecords
  repeat' first
    | with_reducible assumption
    | intro _
    | with_reducible apply Moves.ite
    | with_reducible apply State.wr_moves
    | with_reducible apply State.showRows_moves
    | with_reducible apply State.takeSlot_moves
    | with_reducible apply Moves.fold
    | with_reducible apply Moves.foldPair
    | dsimp only
    | split
    | with_reducible apply Moves.record
    | with_reducible rfl
    | exact hs.2.2 _ (by simp)
    | exact hs.2.1 _ (by decide +kernel)
    | exact Scope.within.trans (by decide +kernel) hs

theorem execSelftestDone_moves {s0 : State} {s : State} (h : Moves σ s0 s) (c : Ch) (ok : Bool) (hs : Scope.within ⟨true, [.out, .dev, .cycBase, .blocks, .msix, .mbx, .ports, .xlat, .shares, .dlm, .streams, .rehoming, .recorder, .chans], [.hif, .far, .hmmu, .strm, .dlm, .ctx, .rpl, .pwr, .clk, .ras, .hlk, .mbx, .grm, .cmmu, .wst, .ast, .tnd, .cvu, .hbmc, .ring, .eng, .door]⟩ σ) :
    MovesResult σ s0 (execSelftestDone c ok s) := by
  unfold execSelftestDone
  repeat' first
    | with_reducible assumption
    | intro _
    | with_reducible apply Moves.ite
    | with_reducible apply State.applyRecords_moves
    | with_reducible apply State.setChState_moves
    | with_reducible apply State.setMode_moves
    | with_reducible apply State.startFails_moves
    | with_reducible apply MovesResult.live
    | with_reducible apply MovesResult.next
    | dsimp only
    | split
    | with_reducible apply Moves.record
    | with_reducible rfl
    | exact hs.2.2 _ (pageKind_mem _)
    | exact hs.2.1 _ (by decide +kernel)
    | exact Scope.within.trans (by decide +kernel) hs

theorem State.runGroom_moves {s0 : State} {s : State} (h : Moves σ s0 s) (c : Ch) (hs : Scope.within ⟨false, [], [.grm]⟩ σ) :
    Moves σ s0 (State.runGroom s c) := by
  unfold State.runGroom
  repeat' first
    | with_reducible assumption
    | with_reducible apply Moves.ite
    | with_reducible apply State.wr_moves
    | dsimp only
    | split
    | with_reducible apply Moves.record
    | with_reducible rfl
    | exact hs.2.2 _ (by simp)

theorem execGroomBootAck_moves {s0 : State} {s : State} (h : Moves σ s0 s) (c : Ch) (code : BitVec 16) (hs : Scope.within ⟨true, [.out, .dev, .cycBase, .blocks, .msix, .mbx, .ports, .xlat, .shares, .dlm, .streams, .rehoming, .recorder, .chans], [.hif, .far, .hmmu, .strm, .dlm, .ctx, .rpl, .pwr, .clk, .ras, .hlk, .mbx, .grm, .cmmu, .wst, .ast, .tnd, .cvu, .hbmc, .ring, .eng, .door]⟩ σ) :
    MovesResult σ s0 (execGroomBootAck c code s) := by
  unfold execGroomBootAck
  repeat' first
    | with_reducible assumption
    | intro _
    | with_reducible apply Moves.ite
    | with_reducible apply State.runGroom_moves
    | with_reducible apply State.setChState_moves
    | with_reducible apply State.startFails_moves
    | with_reducible apply State.turnOn_moves
    | with_reducible apply Moves.fold
    | with_reducible apply Moves.foldPair
    | with_reducible apply MovesResult.live
    | with_reducible apply MovesResult.next
    | dsimp only
    | split
    | with_reducible apply Moves.record
    | with_reducible rfl
    | exact hs.2.2 _ (pageKind_mem _)
    | exact hs.2.1 _ (by decide +kernel)
    | exact Scope.within.trans (by decide +kernel) hs

theorem State.becomeReady_moves {s0 : State} {s : State} (h : Moves σ s0 s) (c : Ch) (hs : Scope.within ⟨false, [.out, .dev, .blocks, .msix, .mbx, .ports, .recorder, .chans], [.hif, .far, .rpl, .pwr, .ras, .hlk, .mbx, .door]⟩ σ) :
    Moves σ s0 (State.becomeReady s c) := by
  unfold State.becomeReady
  repeat' first
    | with_reducible assumption
    | with_reducible apply Moves.ite
    | with_reducible apply State.wr_moves
    | with_reducible apply State.bump_moves
    | with_reducible apply State.raise_moves
    | with_reducible apply State.setChState_moves
    | with_reducible apply State.setMode_moves
    | with_reducible apply State.settleOwed_moves
    | with_reducible apply State.startLinks_moves
    | dsimp only
    | split
    | with_reducible apply Moves.record
    | with_reducible rfl
    | exact hs.2.2 _ (by simp)
    | exact hs.2.1 _ (by decide +kernel)
    | exact Scope.within.trans (by decide +kernel) hs

theorem execEngineCheckDone_moves {s0 : State} {s : State} (h : Moves σ s0 s) (c : Ch) (failed : List SlotId) (hs : Scope.within ⟨true, [.out, .dev, .cycBase, .blocks, .msix, .mbx, .ports, .xlat, .shares, .dlm, .streams, .rehoming, .recorder, .chans], [.hif, .far, .hmmu, .strm, .dlm, .ctx, .rpl, .pwr, .clk, .ras, .hlk, .mbx, .grm, .cmmu, .wst, .ast, .tnd, .cvu, .hbmc, .ring, .eng, .door]⟩ σ) :
    MovesResult σ s0 (execEngineCheckDone c failed s) := by
  unfold execEngineCheckDone
  repeat' first
    | with_reducible assumption
    | intro _
    | with_reducible apply Moves.ite
    | with_reducible apply State.becomeReady_moves
    | with_reducible apply State.declareFailed_moves
    | with_reducible apply State.retireChannel_moves
    | with_reducible apply State.turnOn_moves
    | with_reducible apply Moves.fold
    | with_reducible apply Moves.foldPair
    | with_reducible apply MovesResult.live
    | with_reducible apply MovesResult.next
    | with_reducible refine Moves.fstOf (by with_reducible assumption) ?_
    | dsimp only
    | split
    | with_reducible apply Moves.record
    | with_reducible rfl
    | exact hs.2.2 _ (pageKind_mem _)
    | exact hs.2.1 _ (by decide +kernel)
    | exact Scope.within.trans (by decide +kernel) hs

theorem execChannelReadyTimeout_moves {s0 : State} {s : State} (h : Moves σ s0 s) (c : Ch) (hs : Scope.within ⟨true, [.out, .dev, .cycBase, .blocks, .msix, .mbx, .ports, .xlat, .shares, .dlm, .streams, .rehoming, .recorder, .chans], [.hif, .far, .hmmu, .strm, .dlm, .ctx, .rpl, .pwr, .clk, .ras, .hlk, .mbx, .grm, .cmmu, .wst, .ast, .tnd, .cvu, .hbmc, .ring, .eng, .door]⟩ σ) :
    MovesResult σ s0 (execChannelReadyTimeout c s) := by
  unfold execChannelReadyTimeout
  repeat' first
    | with_reducible assumption
    | intro _
    | with_reducible apply Moves.ite
    | with_reducible apply State.startFails_moves
    | with_reducible apply MovesResult.live

end Sys2Proof.Machine
end

