-- ==== Sys2Proof/Laws/MovesFirmware.lean ====
section
/-! SUPPORT. What the functions of Machine/Firmware.lean can do to a state: each keeps the queue and the
canonical form of the stores, only adds to the output and keeps the registers 32 bits wide (`Moves`). -/

set_option Elab.async false

namespace Sys2Proof.Machine
variable {σ : Scope}

theorem State.pldm_moves {s0 : State} {s : State} (h : Moves σ s0 s) (f : State → State) (hs : Scope.within ⟨false, [], []⟩ σ) (h_f : ∀ u, Moves σ s0 u → Moves σ s0 (f u)) :
    MovesResult σ s0 (State.pldm s f) := by
  unfold State.pldm
  repeat' first
    | with_reducible assumption
    | intro _
    | with_reducible apply Moves.ite
    | with_reducible apply h_f
    | with_reducible apply MovesResult.live

theorem execPldmMonitor_moves {s0 : State} {s : State} (h : Moves σ s0 s)  (hs : Scope.within ⟨false, [.out], []⟩ σ) :
    MovesResult σ s0 (execPldmMonitor s) := by
  unfold execPldmMonitor
  repeat' first
    | with_reducible assumption
    | intro _
    | with_reducible apply Moves.ite
    | with_reducible apply State.emit_moves
    | with_reducible apply State.pldm_moves
    | with_reducible apply MovesResult.live
    | with_reducible apply MovesResult.next
    | dsimp only
    | split
    | with_reducible apply Moves.record
    | with_reducible rfl
    | exact hs.2.2 _ (by simp)
    | exact hs.2.1 _ (by decide +kernel)
    | exact Scope.within.trans (by decide +kernel) hs

theorem execRequestUpdate_moves {s0 : State} {s : State} (h : Moves σ s0 s)  (hs : Scope.within ⟨false, [.out, .dev], []⟩ σ) :
    MovesResult σ s0 (execRequestUpdate s) := by
  unfold execRequestUpdate
  repeat' first
    | with_reducible assumption
    | intro _
    | with_reducible apply Moves.ite
    | with_reducible apply State.emit_moves
    | with_reducible apply State.modDev_moves
    | with_reducible apply State.pldm_moves
    | with_reducible apply MovesResult.live
    | with_reducible apply MovesResult.next
    | dsimp only
    | split
    | with_reducible apply Moves.record
    | with_reducible rfl
    | exact hs.2.2 _ (by simp)
    | exact hs.2.1 _ (by decide +kernel)
    | exact Scope.within.trans (by decide +kernel) hs

theorem execPassComponentTable_moves {s0 : State} {s : State} (h : Moves σ s0 s) (comps : List FwComponent) (hs : Scope.within ⟨false, [.out, .dev], []⟩ σ) :
    MovesResult σ s0 (execPassComponentTable comps s) := by
  unfold execPassComponentTable
  repeat' first
    | with_reducible assumption
    | intro _
    | with_reducible apply Moves.ite
    | with_reducible apply State.emit_moves
    | with_reducible apply State.modDev_moves
    | with_reducible apply State.pldm_moves
    | with_reducible apply MovesResult.live
    | with_reducible apply MovesResult.next
    | with_reducible refine Moves.fstOf (by with_reducible assumption) ?_
    | dsimp only
    | split
    | with_reducible apply Moves.record
    | with_reducible rfl
    | exact hs.2.2 _ (by simp)
    | exact hs.2.1 _ (by decide +kernel)
    | exact Scope.within.trans (by decide +kernel) hs

theorem execUpdateComponent_moves {s0 : State} {s : State} (h : Moves σ s0 s) (comp : FwComponent) (hs : Scope.within ⟨false, [.out, .dev], []⟩ σ) :
    MovesResult σ s0 (execUpdateComponent comp s) := by
  unfold execUpdateComponent
  repeat' first
    | with_reducible assumption
    | intro _
    | with_reducible apply Moves.ite
    | with_reducible apply State.emit_moves
    | with_reducible apply State.modDev_moves
    | with_reducible apply State.pldm_moves
    | with_reducible apply MovesResult.live
    | with_reducible apply MovesResult.next
    | with_reducible refine Moves.fstOf (by with_reducible assumption) ?_
    | dsimp only
    | split
    | with_reducible apply Moves.record
    | with_reducible rfl
    | exact hs.2.2 _ (by simp)
    | exact hs.2.1 _ (by decide +kernel)
    | exact Scope.within.trans (by decide +kernel) hs

theorem State.verified_moves {s0 : State} {s : State} (h : Moves σ s0 s) (u : FwUpdate) (comp : FwComponent) (svn : Nat) (ok : Bool) (hs : Scope.within ⟨false, [.out, .dev], [.far]⟩ σ) :
    Moves σ s0 (State.verified s u comp svn ok) := by
  unfold State.verified
  repeat' first
    | with_reducible assumption
    | intro _
    | with_reducible apply Moves.ite
    | with_reducible apply State.wr_moves
    | with_reducible apply State.emit_moves
    | with_reducible apply State.modDev_moves
    | dsimp only
    | split
    | with_reducible apply Moves.record
    | with_reducible rfl
    | exact hs.2.2 _ (by simp)
    | exact hs.2.1 _ (by decide +kernel)
    | exact Scope.within.trans (by decide +kernel) hs

theorem execFirmwareData_moves {s0 : State} {s : State} (h : Moves σ s0 s) (data : List Byte) (last : Bool) (sigOk : Bool) (svn : Byte) (hs : Scope.within ⟨false, [.out, .dev], [.far]⟩ σ) :
    MovesResult σ s0 (execFirmwareData data last sigOk svn s) := by
  unfold execFirmwareData
  repeat' first
    | with_reducible assumption
    | intro _
    | with_reducible apply Moves.ite
    | with_reducible apply State.modDev_moves
    | with_reducible apply State.pldm_moves
    | with_reducible apply State.verified_moves
    | with_reducible apply MovesResult.live
    | with_reducible apply MovesResult.next
    | with_reducible refine Moves.fstOf (by with_reducible assumption) ?_
    | dsimp only
    | split
    | with_reducible apply Moves.record
    | with_reducible rfl
    | exact hs.2.2 _ (by simp)
    | exact hs.2.1 _ (by decide +kernel)
    | exact Scope.within.trans (by decide +kernel) hs

theorem State.sendPatch_moves {s0 : State} {s : State} (h : Moves σ s0 s)  (hs : Scope.within ⟨false, [.drawn, .dev], [.mbx, .grm]⟩ σ) :
    Moves σ s0 (State.sendPatch s) := by
  unfold State.sendPatch
  repeat' first
    | with_reducible assumption
    | intro _
    | with_reducible apply Moves.ite
    | with_reducible apply State.wr_moves
    | with_reducible apply State.draw_moves
    | with_reducible apply State.modDev_moves
    | with_reducible apply State.setMode_moves
    | with_reducible apply Moves.fold
    | with_reducible apply Moves.foldPair
    | dsimp only
    | split
    | with_reducible apply Moves.record
    | with_reducible rfl
    | exact hs.2.2 _ (by simp)
    | exact hs.2.1 _ (by decide +kernel)
    | exact Scope.within.trans (by decide +kernel) hs

theorem State.restartFarrier_moves {s0 : State} {s : State} (h : Moves σ s0 s)  (hs : Scope.within ⟨false, [.dev], [.far]⟩ σ) :
    Moves σ s0 (State.restartFarrier s) := by
  unfold State.restartFarrier
  repeat' first
    | with_reducible assumption
    | intro _
    | with_reducible apply Moves.ite
    | with_reducible apply State.wr_moves
    | with_reducible apply State.modDev_moves
    | dsimp only
    | split
    | with_reducible apply Moves.record
    | with_reducible rfl
    | exact hs.2.2 _ (by simp)
    | exact hs.2.1 _ (by decide +kernel)
    | exact Scope.within.trans (by decide +kernel) hs

theorem execActivateFirmware_moves {s0 : State} {s : State} (h : Moves σ s0 s)  (hs : Scope.within ⟨false, [.out, .drawn, .dev], [.far, .mbx, .grm]⟩ σ) :
    MovesResult σ s0 (execActivateFirmware s) := by
  unfold execActivateFirmware
  repeat' first
    | with_reducible assumption
    | intro _
    | with_reducible apply Moves.ite
    | with_reducible apply State.wr_moves
    | with_reducible apply State.emit_moves
    | with_reducible apply State.modDev_moves
    | with_reducible apply State.pldm_moves
    | with_reducible apply State.restartFarrier_moves
    | with_reducible apply State.sendPatch_moves
    | with_reducible apply State.verified_moves
    | with_reducible apply MovesResult.live
    | with_reducible apply MovesResult.next
    | with_reducible refine Moves.fstOf (by with_reducible assumption) ?_
    | dsimp only
    | split
    | with_reducible apply Moves.record
    | with_reducible rfl
    | exact hs.2.2 _ (by simp)
    | exact hs.2.1 _ (by decide +kernel)
    | exact Scope.within.trans (by decide +kernel) hs

theorem State.runJob_moves {s0 s : State} (h : Moves σ s0 s) (j : FarrierJob) (hs : Scope.within ⟨false, [.out, .msix, .xlat, .ctxs, .ctxSlots, .loads, .reliefInto, .shares, .dlm, .streams, .rehoming, .recorder, .chans], [.hmmu, .strm, .dlm, .ctx, .rpl, .grm, .cmmu, .wst, .cvu, .hbmc, .ring, .eng, .door]⟩ σ) :
    Moves σ s0 (State.runJob s j) := by
    unfold State.runJob
    repeat' first
      | with_reducible assumption
      | with_reducible apply Moves.ite
      | with_reducible apply State.ctxOp_moves
      | with_reducible apply State.dlmOp_moves
      | with_reducible apply State.strmOp_moves
      | dsimp only
      | split
      | with_reducible apply Moves.record
      | with_reducible rfl
      | exact hs.2.2 _ (by simp)
      | exact hs.2.1 _ (by decide +kernel)
      | exact Scope.within.trans (by decide +kernel) hs
      | exact .inr (hs.2.1 _ (by decide +kernel))
      | with_reducible exact .inl rfl
      | exact hs.1 rfl

theorem execFarrierRestartDone_moves {s0 : State} {s : State} (h : Moves σ s0 s) (ok : Bool) (hs : Scope.within ⟨false, [.out, .dev, .blocks, .msix, .mbx, .ports, .xlat, .ctxs, .ctxSlots, .loads, .reliefInto, .shares, .dlm, .streams, .rehoming, .recorder, .chans], [.hif, .far, .hmmu, .strm, .dlm, .ctx, .rpl, .hlk, .mbx, .grm, .cmmu, .wst, .cvu, .hbmc, .ring, .eng, .door]⟩ σ) :
    MovesResult σ s0 (execFarrierRestartDone ok s) := by
  unfold execFarrierRestartDone
  repeat' first
    | with_reducible assumption
    | intro _
    | with_reducible apply Moves.ite
    | with_reducible apply State.wr_moves
    | with_reducible apply State.raise_moves
    | with_reducible apply State.flushAnswers_moves
    | with_reducible apply State.modDev_moves
    | with_reducible apply State.runBank_moves
    | with_reducible apply State.runJob_moves
    | with_reducible apply State.startLinks_moves
    | with_reducible apply State.verified_moves
    | with_reducible apply Moves.fold
    | with_reducible apply Moves.foldPair
    | with_reducible apply MovesResult.live
    | with_reducible apply MovesResult.next
    | with_reducible apply Moves.elimSnd
    | with_reducible apply Moves.elim
    | with_reducible apply Moves.elimSndFst
    | with_reducible apply Moves.elimFst
    | dsimp only
    | split
    | with_reducible apply Moves.record
    | with_reducible rfl
    | exact hs.2.2 _ (by simp)
    | exact hs.2.1 _ (by decide +kernel)
    | exact Scope.within.trans (by decide +kernel) hs

theorem execGroomPatchApply_moves {s0 : State} {s : State} (h : Moves σ s0 s) (c : Ch) (patch : BitVec 16) (hs : Scope.within ⟨false, [.out, .dev, .msix], [.mbx, .grm]⟩ σ) :
    MovesResult σ s0 (execGroomPatchApply c patch s) := by
  unfold execGroomPatchApply
  repeat' first
    | with_reducible assumption
    | intro _
    | with_reducible apply Moves.ite
    | with_reducible apply State.wr_moves
    | with_reducible apply State.raise_moves
    | with_reducible apply State.modDev_moves
    | with_reducible apply State.setMode_moves
    | with_reducible apply MovesResult.live
    | with_reducible apply MovesResult.next
    | dsimp only
    | split
    | with_reducible apply Moves.record
    | with_reducible rfl
    | exact hs.2.2 _ (by simp)
    | exact hs.2.1 _ (by decide +kernel)
    | exact Scope.within.trans (by decide +kernel) hs

theorem State.asserts_moves {s0 : State} {s : State} (h : Moves σ s0 s) (n : Nat) (hs : Scope.within ⟨false, [.out, .dev, .msix], [.far, .pwr]⟩ σ) :
    Moves σ s0 (State.asserts s n) := by
  unfold State.asserts
  repeat' first
    | with_reducible assumption
    | intro _
    | with_reducible apply Moves.ite
    | with_reducible apply State.wr_moves
    | with_reducible apply State.bump_moves
    | with_reducible apply State.raise_moves
    | with_reducible apply State.modDev_moves
    | dsimp only
    | split
    | with_reducible apply Moves.record
    | with_reducible rfl
    | exact hs.2.2 _ (by simp)
    | exact hs.2.1 _ (by decide +kernel)
    | exact Scope.within.trans (by decide +kernel) hs

theorem execSidebandEdge_moves {s0 : State} {s : State} (h : Moves σ s0 s) (n : Fin 10) (level : Bool) (hs : Scope.within ⟨false, [.out, .dev, .msix], [.far, .pwr]⟩ σ) :
    MovesResult σ s0 (execSidebandEdge n level s) := by
  unfold execSidebandEdge
  repeat' first
    | with_reducible assumption
    | intro _
    | with_reducible apply Moves.ite
    | with_reducible apply State.wr_moves
    | with_reducible apply State.bump_moves
    | with_reducible apply State.raise_moves
    | with_reducible apply State.asserts_moves
    | with_reducible apply State.modDev_moves
    | with_reducible apply MovesResult.live
    | with_reducible apply MovesResult.next
    | with_reducible refine Moves.fstOf (by with_reducible assumption) ?_
    | dsimp only
    | split
    | with_reducible apply Moves.record
    | with_reducible rfl
    | exact hs.2.2 _ (by simp)
    | exact hs.2.1 _ (by decide +kernel)
    | exact Scope.within.trans (by decide +kernel) hs

theorem State.cageEmpty_moves {s0 : State} {s : State} (h : Moves σ s0 s) (k : Nat) (hs : Scope.within ⟨false, [.out, .msix, .ports, .xlat, .shares, .recorder, .chans], [.hif, .far, .hmmu, .strm, .dlm, .ctx, .rpl, .pwr, .clk, .ras, .hlk, .mbx, .grm, .cmmu, .wst, .ast, .tnd, .cvu, .hbmc, .ring, .eng, .door]⟩ σ) :
    Moves σ s0 (State.cageEmpty s k) := by
  unfold State.cageEmpty
  repeat' first
    | with_reducible assumption
    | intro _
    | with_reducible apply Moves.ite
    | with_reducible apply State.portLost_moves
    | with_reducible apply State.setLink_moves
    | with_reducible apply Moves.fold
    | with_reducible apply Moves.foldPair
    | dsimp only
    | split
    | with_reducible apply Moves.record
    | with_reducible rfl
    | exact hs.2.2 _ (pageKind_mem _)
    | exact hs.2.1 _ (by decide +kernel)
    | exact Scope.within.trans (by decide +kernel) hs

theorem execSidebandSettleExpiry_moves {s0 : State} {s : State} (h : Moves σ s0 s) (n : Fin 10) (hs : Scope.within ⟨false, [.out, .dev, .msix, .ports, .xlat, .shares, .recorder, .chans], [.hif, .far, .hmmu, .strm, .dlm, .ctx, .rpl, .pwr, .clk, .ras, .hlk, .mbx, .grm, .cmmu, .wst, .ast, .tnd, .cvu, .hbmc, .ring, .eng, .door]⟩ σ) :
    MovesResult σ s0 (execSidebandSettleExpiry n s) := by
  unfold execSidebandSettleExpiry
  repeat' first
    | with_reducible assumption
    | intro _
    | with_reducible apply Moves.ite
    | with_reducible apply State.wr_moves
    | with_reducible apply State.asserts_moves
    | with_reducible apply State.cageEmpty_moves
    | with_reducible apply MovesResult.live
    | with_reducible apply MovesResult.next
    | dsimp only
    | split
    | with_reducible apply Moves.record
    | with_reducible rfl
    | exact hs.2.2 _ (pageKind_mem _)
    | exact hs.2.1 _ (by decide +kernel)
    | exact Scope.within.trans (by decide +kernel) hs

theorem execSidebandStuckExpiry_moves {s0 : State} {s : State} (h : Moves σ s0 s) (n : Fin 10) (hs : Scope.within ⟨false, [.out, .msix], [.far]⟩ σ) :
    MovesResult σ s0 (execSidebandStuckExpiry n s) := by
  unfold execSidebandStuckExpiry
  repeat' first
    | with_reducible assumption
    | intro _
    | with_reducible apply Moves.ite
    | with_reducible apply State.wr_moves
    | with_reducible apply State.raise_moves
    | with_reducible apply MovesResult.live
    | with_reducible apply MovesResult.next
    | dsimp only
    | split
    | with_reducible apply Moves.record
    | with_reducible rfl
    | exact hs.2.2 _ (by simp)
    | exact hs.2.1 _ (by decide +kernel)

theorem execLockstepMismatch_moves {s0 : State} {s : State} (h : Moves σ s0 s) (pc : BitVec 32) (hs : Scope.within ⟨false, [.out, .msix], [.far, .ras]⟩ σ) :
    MovesResult σ s0 (execLockstepMismatch pc s) := by
  unfold execLockstepMismatch
  repeat' first
    | with_reducible assumption
    | intro _
    | with_reducible apply Moves.ite
    | with_reducible apply State.raise_moves
    | with_reducible apply State.persistent_moves
    | with_reducible apply MovesResult.live
    | with_reducible apply MovesResult.next
    | with_reducible refine Moves.fstOf (by with_reducible assumption) ?_
    | dsimp only
    | split
    | with_reducible apply Moves.record
    | with_reducible rfl
    | exact hs.2.2 _ (by simp)
    | exact hs.2.1 _ (by decide +kernel)
    | exact Scope.within.trans (by decide +kernel) hs

theorem execHbmTempUpdate_moves {s0 : State} {s : State} (h : Moves σ s0 s) (c : Ch) (temp : Byte) (hs : Scope.within ⟨false, [], [.hbmc]⟩ σ) :
    MovesResult σ s0 (execHbmTempUpdate c temp s) := by
  unfold execHbmTempUpdate
  repeat' first
    | with_reducible assumption
    | intro _
    | with_reducible apply Moves.ite
    | with_reducible apply State.wr_moves
    | with_reducible apply MovesResult.live
    | with_reducible apply MovesResult.next
    | dsimp only
    | split
    | with_reducible apply Moves.record
    | with_reducible rfl
    | exact hs.2.2 _ (by simp)

end Sys2Proof.Machine
end

