-- ==== Sys2Proof/Laws/MovesPower.lean ====
section
/-! SUPPORT. What the functions of Machine/Power.lean can do to a state: each keeps the queue and the
canonical form of the stores, only adds to the output and keeps the registers 32 bits wide (`Moves`). -/

set_option Elab.async false

namespace Sys2Proof.Machine
variable {σ : Scope}

theorem State.stopClock_moves {s0 : State} {s : State} (h : Moves σ s0 s) (c : Nat) (hs : Scope.within ⟨false, [], [.clk]⟩ σ) :
    Moves σ s0 (State.stopClock s c) := by
  unfold State.stopClock
  repeat' first
    | with_reducible assumption
    | with_reducible apply Moves.ite
    | with_reducible apply State.wr_moves
    | dsimp only
    | split
    | with_reducible apply Moves.record
    | with_reducible rfl
    | exact hs.2.2 _ (by simp)

theorem State.startGait_moves {s0 : State} {s : State} (h : Moves σ s0 s) (c : Nat) (hs : Scope.within ⟨false, [.chans], [.pwr, .clk]⟩ σ) :
    Moves σ s0 (State.startGait s c) := by
  unfold State.startGait
  repeat' first
    | with_reducible assumption
    | intro _
    | with_reducible apply Moves.ite
    | with_reducible apply State.wr_moves
    | with_reducible apply State.modChan_moves
    | with_reducible apply State.stopClock_moves
    | exact StoresMove.of_eq rfl rfl rfl
    | dsimp only
    | split
    | with_reducible apply Moves.record
    | with_reducible rfl
    | exact hs.2.2 _ (by simp)
    | exact hs.2.1 _ (by decide +kernel)
    | exact Scope.within.trans (by decide +kernel) hs

theorem execGaitRequest_moves {s0 : State} {s : State} (h : Moves σ s0 s) (m : Master) (c : Ch) (gait : Gait) (hs : Scope.within ⟨false, [.chans], [.pwr, .clk]⟩ σ) :
    MovesResult σ s0 (execGaitRequest m c gait s) := by
  unfold execGaitRequest
  repeat' first
    | with_reducible assumption
    | intro _
    | with_reducible apply Moves.ite
    | with_reducible apply State.wr_moves
    | with_reducible apply State.startGait_moves
    | with_reducible apply MovesResult.live
    | with_reducible apply MovesResult.next
    | dsimp only
    | split
    | with_reducible apply Moves.record
    | with_reducible rfl
    | exact hs.2.2 _ (by simp)

theorem execPllRelockDone_moves {s0 : State} {s : State} (h : Moves σ s0 s) (c : Ch) (ok : Bool) (hs : Scope.within ⟨false, [.out, .msix, .chans], [.clk]⟩ σ) :
    MovesResult σ s0 (execPllRelockDone c ok s) := by
  unfold execPllRelockDone
  repeat' first
    | with_reducible assumption
    | intro _
    | with_reducible apply Moves.ite
    | with_reducible apply State.bump_moves
    | with_reducible apply State.raise_moves
    | with_reducible apply State.modChan_moves
    | with_reducible apply State.lockPll_moves
    | exact StoresMove.of_eq rfl rfl rfl
    | with_reducible apply MovesResult.live
    | with_reducible apply MovesResult.next
    | dsimp only
    | split
    | with_reducible apply Moves.record
    | with_reducible rfl
    | exact hs.2.2 _ (by simp)
    | exact hs.2.1 _ (by decide +kernel)
    | exact Scope.within.trans (by decide +kernel) hs

theorem execGaitChangeDone_moves {s0 : State} {s : State} (h : Moves σ s0 s) (c : Ch) (hs : Scope.within ⟨false, [.out, .msix, .recorder, .chans], [.rpl, .pwr, .clk]⟩ σ) :
    MovesResult σ s0 (execGaitChangeDone c s) := by
  unfold execGaitChangeDone
  repeat' first
    | with_reducible assumption
    | intro _
    | with_reducible apply Moves.ite
    | with_reducible apply State.wr_moves
    | with_reducible apply State.bump_moves
    | with_reducible apply State.raise_moves
    | with_reducible apply State.modChan_moves
    | with_reducible apply State.logDec_moves
    | with_reducible apply State.recordStall_moves
    | with_reducible apply State.startGait_moves
    | with_reducible exact Channel.unpair_stores _
    | exact StoresMove.of_eq rfl rfl rfl
    | with_reducible apply MovesResult.live
    | with_reducible apply MovesResult.next
    | dsimp only
    | split
    | with_reducible apply Moves.record
    | with_reducible rfl
    | exact hs.2.2 _ (by simp)
    | exact hs.2.1 _ (by decide +kernel)
    | exact Scope.within.trans (by decide +kernel) hs

theorem State.requestPower_moves {s0 : State} {s : State} (h : Moves σ s0 s) (m : Master) (c : Ch) (v : Nat) (f : State → State) (hs : Scope.within ⟨false, [], [.pwr]⟩ σ) (h_f : ∀ u, Moves σ s0 u → Moves σ s0 (f u)) :
    Moves σ s0 (State.requestPower s m c v f) := by
  unfold State.requestPower
  repeat' first
    | with_reducible assumption
    | with_reducible apply Moves.ite
    | with_reducible apply State.wr_moves
    | with_reducible apply h_f
    | dsimp only
    | split
    | with_reducible apply Moves.record
    | with_reducible rfl
    | exact hs.2.2 _ (by simp)

theorem execSleepRequest_moves {s0 : State} {s : State} (h : Moves σ s0 s) (m : Master) (c : Ch) (hs : Scope.within ⟨false, [], [.pwr]⟩ σ) :
    MovesResult σ s0 (execSleepRequest m c s) := by
  unfold execSleepRequest
  repeat' first
    | with_reducible assumption
    | intro _
    | with_reducible apply Moves.ite
    | with_reducible apply State.requestPower_moves
    | with_reducible apply MovesResult.live
    | with_reducible apply MovesResult.next
    | assumption

theorem execParkRequest_moves {s0 : State} {s : State} (h : Moves σ s0 s) (m : Master) (c : Ch) (hs : Scope.within ⟨false, [], [.pwr]⟩ σ) :
    MovesResult σ s0 (execParkRequest m c s) := by
  unfold execParkRequest
  repeat' first
    | with_reducible assumption
    | intro _
    | with_reducible apply Moves.ite
    | with_reducible apply State.requestPower_moves
    | with_reducible apply MovesResult.live
    | with_reducible apply MovesResult.next
    | assumption

theorem State.startWake_moves {s0 : State} {s : State} (h : Moves σ s0 s) (c : Nat) (hs : Scope.within ⟨false, [.chans], []⟩ σ) :
    Moves σ s0 (State.startWake s c) := by
  unfold State.startWake
  repeat' first
    | with_reducible assumption
    | intro _
    | with_reducible apply Moves.ite
    | with_reducible apply State.modChan_moves
    | exact StoresMove.of_eq rfl rfl rfl
    | dsimp only
    | split
    | with_reducible apply Moves.record
    | with_reducible rfl
    | exact hs.2.2 _ (by simp)
    | exact hs.2.1 _ (by decide +kernel)

theorem execRunRequest_moves {s0 : State} {s : State} (h : Moves σ s0 s) (m : Master) (c : Ch) (hs : Scope.within ⟨false, [.chans], [.pwr]⟩ σ) :
    MovesResult σ s0 (execRunRequest m c s) := by
  unfold execRunRequest
  repeat' first
    | with_reducible assumption
    | intro _
    | with_reducible apply Moves.ite
    | with_reducible apply State.requestPower_moves
    | with_reducible apply State.startWake_moves
    | with_reducible apply MovesResult.live
    | with_reducible apply MovesResult.next
    | dsimp only
    | split
    | with_reducible apply Moves.record
    | with_reducible rfl
    | exact hs.2.2 _ (by simp)
    | exact hs.2.1 _ (by decide +kernel)
    | exact Scope.within.trans (by decide +kernel) hs

theorem execSleepEntry_moves {s0 : State} {s : State} (h : Moves σ s0 s) (c : Ch) (hs : Scope.within ⟨false, [], [.pwr, .clk, .grm, .hbmc]⟩ σ) :
    MovesResult σ s0 (execSleepEntry c s) := by
  unfold execSleepEntry
  repeat' first
    | with_reducible assumption
    | intro _
    | with_reducible apply Moves.ite
    | with_reducible apply State.wr_moves
    | with_reducible apply State.stopClock_moves
    | with_reducible apply MovesResult.live
    | with_reducible apply MovesResult.next
    | dsimp only
    | split
    | with_reducible apply Moves.record
    | with_reducible rfl
    | exact hs.2.2 _ (by simp)
    | exact hs.2.1 _ (by decide +kernel)
    | exact Scope.within.trans (by decide +kernel) hs

theorem execParkEntry_moves {s0 : State} {s : State} (h : Moves σ s0 s) (c : Ch) (hs : Scope.within ⟨false, [], [.pwr, .clk, .grm]⟩ σ) :
    MovesResult σ s0 (execParkEntry c s) := by
  unfold execParkEntry
  repeat' first
    | with_reducible assumption
    | intro _
    | with_reducible apply Moves.ite
    | with_reducible apply State.wr_moves
    | with_reducible apply State.stopClock_moves
    | with_reducible apply MovesResult.live
    | with_reducible apply MovesResult.next
    | dsimp only
    | split
    | with_reducible apply Moves.record
    | with_reducible rfl
    | exact hs.2.2 _ (by simp)
    | exact hs.2.1 _ (by decide +kernel)
    | exact Scope.within.trans (by decide +kernel) hs

theorem execWakeEvent_moves {s0 : State} {s : State} (h : Moves σ s0 s) (c : Ch) (cause : WakeCause) (hs : Scope.within ⟨false, [.chans], []⟩ σ) :
    MovesResult σ s0 (execWakeEvent c cause s) := by
  unfold execWakeEvent
  repeat' first
    | with_reducible assumption
    | intro _
    | with_reducible apply Moves.ite
    | with_reducible apply State.startWake_moves
    | with_reducible apply MovesResult.live

theorem execWakeComplete_moves {s0 : State} {s : State} (h : Moves σ s0 s) (c : Ch) (hs : Scope.within ⟨false, [.out, .msix, .chans], [.hif, .pwr, .clk, .mbx, .grm, .hbmc]⟩ σ) :
    MovesResult σ s0 (execWakeComplete c s) := by
  unfold execWakeComplete
  repeat' first
    | with_reducible assumption
    | intro _
    | with_reducible apply Moves.ite
    | with_reducible apply State.wr_moves
    | with_reducible apply State.bump_moves
    | with_reducible apply State.raise_moves
    | with_reducible apply State.modChan_moves
    | with_reducible apply State.lockPll_moves
    | with_reducible apply State.setChState_moves
    | with_reducible apply State.setMode_moves
    | exact StoresMove.of_eq rfl rfl rfl
    | with_reducible apply MovesResult.live
    | with_reducible apply MovesResult.next
    | dsimp only
    | split
    | with_reducible apply Moves.record
    | with_reducible rfl
    | exact hs.2.2 _ (by simp)
    | exact hs.2.1 _ (by decide +kernel)
    | exact Scope.within.trans (by decide +kernel) hs

theorem execGovernorPeriod_moves {s0 : State} {s : State} (h : Moves σ s0 s) (draws : Vector Nat 4) (board : Nat) (hs : Scope.within ⟨false, [.drawn, .dev, .chans], [.pwr, .clk]⟩ σ) :
    MovesResult σ s0 (execGovernorPeriod draws board s) := by
  unfold execGovernorPeriod
  repeat' first
    | with_reducible assumption
    | intro _
    | with_reducible apply Moves.ite
    | with_reducible apply State.wr_moves
    | with_reducible apply State.modChan_moves
    | with_reducible apply State.draw_moves
    | with_reducible apply State.modDev_moves
    | with_reducible apply State.startGait_moves
    | exact StoresMove.of_eq rfl rfl rfl
    | with_reducible apply Moves.fold
    | with_reducible apply Moves.foldPair
    | with_reducible apply MovesResult.live
    | with_reducible apply MovesResult.next
    | dsimp only
    | split
    | with_reducible apply Moves.record
    | with_reducible rfl
    | exact hs.2.2 _ (by simp)
    | exact hs.2.1 _ (by decide +kernel)
    | exact Scope.within.trans (by decide +kernel) hs

theorem execPllLockLost_moves {s0 : State} {s : State} (h : Moves σ s0 s) (c : Ch) (hs : Scope.within ⟨false, [.out, .msix], [.clk]⟩ σ) :
    MovesResult σ s0 (execPllLockLost c s) := by
  unfold execPllLockLost
  repeat' first
    | with_reducible assumption
    | intro _
    | with_reducible apply Moves.ite
    | with_reducible apply State.raise_moves
    | with_reducible apply State.stopClock_moves
    | with_reducible apply MovesResult.live
    | with_reducible apply MovesResult.next
    | dsimp only
    | split
    | with_reducible apply Moves.record
    | with_reducible rfl
    | exact hs.2.2 _ (by simp)
    | exact hs.2.1 _ (by decide +kernel)
    | exact Scope.within.trans (by decide +kernel) hs

theorem execUcieLinkError_moves {s0 : State} {s : State} (h : Moves σ s0 s) (c : Ch) (retryOk : Bool) (retrainOk : Bool) (hs : Scope.within ⟨false, [.out, .msix, .chans], [.ras, .grm]⟩ σ) :
    MovesResult σ s0 (execUcieLinkError c retryOk retrainOk s) := by
  unfold execUcieLinkError
  repeat' first
    | with_reducible assumption
    | intro _
    | with_reducible apply Moves.ite
    | with_reducible apply State.modChan_moves
    | with_reducible apply State.corrected_moves
    | with_reducible apply State.persistent_moves
    | exact StoresMove.of_eq rfl rfl rfl
    | with_reducible apply MovesResult.live
    | with_reducible apply MovesResult.next
    | dsimp only
    | split
    | with_reducible apply Moves.record
    | with_reducible rfl
    | exact hs.2.2 _ (by simp)
    | exact hs.2.1 _ (by decide +kernel)
    | exact Scope.within.trans (by decide +kernel) hs

end Sys2Proof.Machine
end

