-- ==== Sys2Proof/Laws/MovesRepair.lean ====
section
/-! SUPPORT. What the functions of Machine/Repair.lean can do to a state: each keeps the queue and the
canonical form of the stores, only adds to the output and keeps the registers 32 bits wide (`Moves`). -/

set_option Elab.async false

namespace Sys2Proof.Machine
variable {σ : Scope}

theorem execSubstitutionHoldoffExpiry_moves {s0 : State} {s : State} (h : Moves σ s0 s) (c : Ch) (e : SlotId) (hs : Scope.within ⟨false, [.out, .cycBase, .blocks, .msix, .recorder, .chans], [.rpl, .ras, .eng]⟩ σ) :
    MovesResult σ s0 (execSubstitutionHoldoffExpiry c e s) := by
  unfold execSubstitutionHoldoffExpiry
  repeat' first
    | with_reducible assumption
    | intro _
    | with_reducible apply Moves.ite
    | with_reducible apply State.modChan_moves
    | with_reducible apply State.substitute_moves
    | exact StoresMove.of_eq rfl rfl rfl
    | with_reducible apply MovesResult.live
    | with_reducible apply MovesResult.next
    | with_reducible refine Moves.fstOf (by with_reducible assumption) ?_
    | dsimp only
    | split
    | with_reducible apply Moves.record
    | with_reducible rfl
    | exact hs.2.2 _ (by simp)
    | exact hs.2.1 _ (by decide +kernel)

theorem execSiteRetest_moves {s0 : State} {s : State} (h : Moves σ s0 s) (c : Ch) (phys : SlotId) (hs : Scope.within ⟨false, [.chans], []⟩ σ) :
    MovesResult σ s0 (execSiteRetest c phys s) := by
  unfold execSiteRetest
  repeat' first
    | with_reducible assumption
    | intro _
    | with_reducible apply Moves.ite
    | with_reducible apply State.modSite_moves
    | with_reducible apply MovesResult.live

theorem State.returnSite_moves {s0 : State} {s : State} (h : Moves σ s0 s) (c : Ch) (phys : Nat) (k : Nat) (map : List Nat) (hs : Scope.within ⟨false, [.cycBase, .blocks, .chans], [.ras, .eng]⟩ σ) :
    Moves σ s0 (State.returnSite s c phys k map) := by
  unfold State.returnSite
  repeat' first
    | with_reducible assumption
    | intro _
    | with_reducible apply Moves.ite
    | with_reducible apply State.wr_moves
    | with_reducible apply State.modEngine_moves
    | with_reducible apply State.modSite_moves
    | with_reducible apply State.resetPage_moves
    | with_reducible apply State.takeSlot_moves
    | with_reducible apply State.turnOn_moves
    | dsimp only
    | split
    | with_reducible apply Moves.record
    | with_reducible rfl
    | exact hs.2.2 _ (by simp)
    | exact hs.2.1 _ (by decide +kernel)
    | exact Scope.within.trans (by decide +kernel) hs

theorem execRetestDone_moves {s0 : State} {s : State} (h : Moves σ s0 s) (c : Ch) (phys : SlotId) (pass : Bool) (failedCols : List Nat) (hs : Scope.within ⟨false, [.out, .dev, .cycBase, .blocks, .msix, .mbx, .ports, .recorder, .chans], [.rpl, .ras, .mbx, .eng]⟩ σ) :
    MovesResult σ s0 (execRetestDone c phys pass failedCols s) := by
  unfold execRetestDone
  repeat' first
    | with_reducible assumption
    | intro _
    | with_reducible apply Moves.ite
    | with_reducible apply State.raise_moves
    | with_reducible apply State.modSite_moves
    | with_reducible apply State.returnSite_moves
    | with_reducible apply State.settleOwed_moves
    | with_reducible apply MovesResult.live
    | with_reducible apply MovesResult.next
    | with_reducible refine Moves.fstOf (by with_reducible assumption) ?_
    | dsimp only
    | split
    | with_reducible apply Moves.record
    | with_reducible rfl
    | exact hs.2.2 _ (by simp)
    | exact hs.2.1 _ (by decide +kernel)
    | exact Scope.within.trans (by decide +kernel) hs

theorem State.rowsExhausted_moves {s0 : State} {s : State} (h : Moves σ s0 s) (c : Ch) (p : Page) (bank : Nat) (hs : Scope.within ⟨false, [.out, .msix, .chans], [.ras]⟩ σ) (hp2 : pageKind p ∈ σ.kinds) :
    Moves σ s0 (State.rowsExhausted s c p bank) := by
  unfold State.rowsExhausted
  repeat' first
    | with_reducible assumption
    | intro _
    | with_reducible apply Moves.ite
    | with_reducible apply State.modChan_moves
    | with_reducible apply State.persistent_moves
    | exact StoresMove.of_eq rfl rfl rfl
    | dsimp only
    | split
    | with_reducible apply Moves.record
    | with_reducible rfl
    | exact hs.2.2 _ (by simp)
    | exact hs.2.1 _ (by decide +kernel)
    | exact Scope.within.trans (by decide +kernel) hs

theorem State.repairHbm_moves {s0 : State} {s : State} (h : Moves σ s0 s) (c : Ch) (row : Nat) (persistent : Bool) (hs : Scope.within ⟨false, [.out, .drawn, .msix, .chans], [.ras, .hbmc]⟩ σ) :
    Moves σ s0 (State.repairHbm s c row persistent) := by
  unfold State.repairHbm
  repeat' first
    | with_reducible assumption
    | intro _
    | with_reducible apply Moves.ite
    | with_reducible apply State.raise_moves
    | with_reducible apply State.modChan_moves
    | with_reducible apply State.draw_moves
    | with_reducible apply State.persistent_moves
    | with_reducible apply State.rowsExhausted_moves
    | with_reducible apply State.showRows_moves
    | exact StoresMove.of_eq rfl rfl rfl
    | dsimp only
    | split
    | with_reducible apply Moves.record
    | with_reducible rfl
    | exact hs.2.2 _ (by simp)
    | exact hs.2.1 _ (by decide +kernel)
    | exact Scope.within.trans (by decide +kernel) hs

/-- The stores keep their form where a row turns into words of poison. -/
theorem Memory.blot_wf (unit : Nat) (l : List Nat) {m : Memory} (h : m.wf) : (m.blot unit l).wf :=
  Memory.fold_wf _ (fun _ _ hm => Memory.taint_wf _ _ (Memory.put_wf _ _ hm)) h

theorem State.remapRow_moves {s0 : State} {s : State} (h : Moves σ s0 s) (c : Ch) (p : Page) (rows row first : Nat)
    (spares : List Nat) (use : Channel → Channel) (hu : ∀ x, StoresMove σ.stores x (use x)) (hs : Scope.within ⟨false, [.out, .msix, .chans], [.ras]⟩ σ) (hp2 : pageKind p ∈ σ.kinds) :
    Moves σ s0 (State.remapRow s c p rows row first spares use) := by
  unfold State.remapRow
  have h1 := State.persistent_moves h p 1 (first / 128) (.trans (by decide +kernel) hs) hp2
  split
  · exact h
  · extract_lets s2 s1
    have h2 : Moves σ s0 s1 := by
      unfold s1
      split
      · exact State.raise_moves h1 _ _ hp2 (hs.2.1 _ (by decide +kernel)) (hs.2.1 _ (by decide +kernel))
      · exact h1
    split
    · exact State.rowsExhausted_moves h2 _ _ _ (.trans (by decide +kernel) hs) hp2
    · exact State.modChan_moves h2 _ (hs.2.1 _ (by decide +kernel)) fun x _ => hu x

theorem execHbmRowRepair_moves {s0 : State} {s : State} (h : Moves σ s0 s) (c : Ch) (row : FailingRow) (hs : Scope.within ⟨true, [.out, .drawn, .msix, .chans], [.ras, .wst, .ast, .hbmc]⟩ σ) :
    MovesResult σ s0 (execHbmRowRepair c row s) := by
  unfold execHbmRowRepair
  refine .live h ?_
  dsimp only
  cases row with
  | hbm row persistent => exact State.repairHbm_moves h _ _ _ (.trans (by decide +kernel) hs)
  | stall row =>
    exact State.remapRow_moves h _ _ _ _ _ _ _
      (fun x => .changeOf (hs.1 rfl) (fun h => Memory.blot_wf _ _ h) (fun h => h) (fun h => h))
      (.trans (by decide +kernel) hs) (hs.2.2 _ (by simp [pageKind]))
  | ast row =>
    exact State.remapRow_moves h _ _ _ _ _ _ _
      (fun x => .changeOf (hs.1 rfl) (fun h => h) (fun h => Memory.blot_wf _ _ h) (fun h => h))
      (.trans (by decide +kernel) hs) (hs.2.2 _ (by simp [pageKind]))

theorem execSoftPprDone_moves {s0 : State} {s : State} (h : Moves σ s0 s) (c : Ch) (row : Nat) (ok : Bool) (hs : Scope.within ⟨true, [.out, .msix, .chans], [.hbmc]⟩ σ) :
    MovesResult σ s0 (execSoftPprDone c row ok s) := by
  unfold execSoftPprDone
  repeat' first
    | with_reducible assumption
    | intro _
    | with_reducible apply Moves.ite
    | with_reducible apply State.bump_moves
    | with_reducible apply State.raise_moves
    | with_reducible apply State.modChan_moves
    | with_reducible apply State.showRows_moves
    | exact StoresMove.changeOf (hs.1 rfl) (fun h => h) (fun h => h) (fun h => Memory.heal_wf _ _ h)
    | exact StoresMove.of_eq rfl rfl rfl
    | with_reducible apply MovesResult.live
    | with_reducible apply MovesResult.next
    | with_reducible exact Memory.heal_wf _ _ (by assumption)
    | dsimp only
    | split
    | with_reducible apply Moves.record
    | with_reducible rfl
    | exact hs.2.2 _ (by simp)
    | exact hs.2.1 _ (by decide +kernel)
    | exact Scope.within.trans (by decide +kernel) hs

theorem State.onMessage_moves {s0 : State} {s : State} (h : Moves σ s0 s) (type : Nat) (act : List Nat → Nat → State → State) (hs : Scope.within ⟨false, [.out, .dev, .msix, .mbx, .ports, .recorder], [.rpl, .mbx]⟩ σ) (h_act : ∀ x0 x1 u, Moves σ s0 u → Moves σ s0 (act x0 x1 u)) :
    Moves σ s0 (State.onMessage s type act) := by
  unfold State.onMessage
  repeat' first
    | with_reducible assumption
    | intro _
    | with_reducible apply Moves.ite
    | with_reducible apply State.raise_moves
    | with_reducible apply State.setWord_moves
    | with_reducible apply h_act
    | with_reducible apply State.clearSlot_moves
    | with_reducible apply State.modSlot_moves
    | dsimp only
    | split
    | with_reducible apply Moves.record
    | with_reducible rfl
    | exact hs.2.2 _ (by simp)
    | exact hs.2.1 _ (by decide +kernel)
    | exact Scope.within.trans (by decide +kernel) hs

theorem State.owe_moves {s0 : State} {s : State} (h : Moves σ s0 s) (type : Nat) (seq : Nat) (chan : Nat) (phys : Nat) (hs : Scope.within ⟨false, [.dev], []⟩ σ) :
    Moves σ s0 (State.owe s type seq chan phys) := by
  unfold State.owe
  repeat' first
    | with_reducible assumption
    | intro _
    | with_reducible apply Moves.ite
    | with_reducible apply State.modDev_moves

theorem State.startChannel_moves {s0 : State} {s : State} (h : Moves σ s0 s) (c : Ch) (hs : Scope.within ⟨false, [.out, .msix], [.hif, .clk]⟩ σ) :
    Moves σ s0 (State.startChannel s c) := by
  unfold State.startChannel
  repeat' first
    | with_reducible assumption
    | with_reducible apply Moves.ite
    | with_reducible apply State.relockFull_moves
    | with_reducible apply State.trainHbm_moves
    | dsimp only
    | split
    | with_reducible apply Moves.record
    | with_reducible rfl
    | exact hs.2.2 _ (by simp)
    | exact hs.2.1 _ (by decide +kernel)
    | exact Scope.within.trans (by decide +kernel) hs

theorem execReadmit_moves {s0 : State} {s : State} (h : Moves σ s0 s)  (hs : Scope.within ⟨false, [.out, .dev, .msix, .mbx, .ports, .recorder], [.hif, .rpl, .clk, .ras, .mbx]⟩ σ) :
    MovesResult σ s0 (execReadmit s) := by
  unfold execReadmit
  repeat' first
    | with_reducible assumption
    | intro _
    | with_reducible apply Moves.ite
    | with_reducible apply State.wr_moves
    | with_reducible apply State.answer_moves
    | with_reducible apply State.onMessage_moves
    | with_reducible apply State.owe_moves
    | with_reducible apply State.startChannel_moves
    | with_reducible apply MovesResult.live
    | with_reducible apply MovesResult.next
    | dsimp only
    | split
    | with_reducible apply Moves.record
    | with_reducible rfl
    | exact hs.2.2 _ (by simp)
    | exact hs.2.1 _ (by decide +kernel)
    | exact Scope.within.trans (by decide +kernel) hs

theorem execRetest_moves {s0 : State} {s : State} (h : Moves σ s0 s)  (hs : Scope.within ⟨false, [.out, .dev, .msix, .mbx, .ports, .recorder, .chans], [.rpl, .mbx]⟩ σ) :
    MovesResult σ s0 (execRetest s) := by
  unfold execRetest
  repeat' first
    | with_reducible assumption
    | intro _
    | with_reducible apply Moves.ite
    | with_reducible apply State.answer_moves
    | with_reducible apply State.modSite_moves
    | with_reducible apply State.onMessage_moves
    | with_reducible apply State.owe_moves
    | with_reducible apply MovesResult.live
    | with_reducible apply MovesResult.next
    | dsimp only
    | split
    | with_reducible apply Moves.record
    | with_reducible rfl
    | exact hs.2.2 _ (by simp)
    | exact hs.2.1 _ (by decide +kernel)
    | exact Scope.within.trans (by decide +kernel) hs

theorem execRetire_moves {s0 : State} {s : State} (h : Moves σ s0 s)  (hs : Scope.within ⟨true, [.out, .dev, .cycBase, .blocks, .msix, .mbx, .ports, .xlat, .shares, .dlm, .streams, .rehoming, .recorder, .chans], [.hif, .far, .hmmu, .strm, .dlm, .ctx, .rpl, .pwr, .clk, .ras, .hlk, .mbx, .grm, .cmmu, .wst, .ast, .tnd, .cvu, .hbmc, .ring, .eng, .door]⟩ σ) :
    MovesResult σ s0 (execRetire s) := by
  unfold execRetire
  repeat' first
    | with_reducible assumption
    | intro _
    | with_reducible apply Moves.ite
    | with_reducible apply State.answer_moves
    | with_reducible apply State.onMessage_moves
    | with_reducible apply State.retireChannel_moves
    | with_reducible apply MovesResult.live
    | with_reducible apply MovesResult.next
    | dsimp only
    | split
    | with_reducible apply Moves.record
    | with_reducible rfl
    | exact hs.2.2 _ (pageKind_mem _)
    | exact hs.2.1 _ (by decide +kernel)
    | exact Scope.within.trans (by decide +kernel) hs

theorem State.dropPages_moves {s0 : State} {s : State} (h : Moves σ s0 s) (n : Nat) (hs : Scope.within ⟨false, [.chans], []⟩ σ) :
    Moves σ s0 (State.dropPages s n) := by
  unfold State.dropPages
  repeat' first
    | with_reducible assumption
    | intro _
    | with_reducible apply Moves.ite
    | with_reducible apply State.modChan_moves
    | with_reducible apply State.releasePage_moves
    | exact StoresMove.of_eq rfl rfl rfl
    | with_reducible apply Moves.fold
    | with_reducible apply Moves.foldPair
    | dsimp only
    | split
    | with_reducible apply Moves.record
    | with_reducible rfl
    | exact hs.2.2 _ (by simp)
    | exact hs.2.1 _ (by decide +kernel)

theorem execRestart_moves {s0 : State} {s : State} (h : Moves σ s0 s)  (hs : Scope.within ⟨false, [.out, .dev, .msix, .mbx, .ports, .streams, .recorder, .chans], [.rpl, .mbx]⟩ σ) :
    MovesResult σ s0 (execRestart s) := by
  unfold execRestart
  repeat' first
    | with_reducible assumption
    | intro _
    | with_reducible apply Moves.ite
    | with_reducible apply State.answer_moves
    | with_reducible apply State.dropPages_moves
    | with_reducible apply State.modStream_moves
    | with_reducible apply State.onMessage_moves
    | with_reducible apply MovesResult.live
    | with_reducible apply MovesResult.next
    | dsimp only
    | split
    | with_reducible apply Moves.record
    | with_reducible rfl
    | exact hs.2.2 _ (by simp)
    | exact hs.2.1 _ (by decide +kernel)
    | exact Scope.within.trans (by decide +kernel) hs

theorem execChreset_moves {s0 : State} {s : State} (h : Moves σ s0 s)  (hs : Scope.within ⟨true, [.out, .dev, .cycBase, .blocks, .msix, .mbx, .ports, .xlat, .shares, .dlm, .streams, .rehoming, .recorder, .chans], [.hif, .far, .hmmu, .strm, .dlm, .ctx, .rpl, .pwr, .clk, .ras, .hlk, .mbx, .grm, .cmmu, .wst, .ast, .tnd, .cvu, .hbmc, .ring, .eng, .door]⟩ σ) :
    MovesResult σ s0 (execChreset s) := by
  unfold execChreset
  repeat' first
    | with_reducible assumption
    | intro _
    | with_reducible apply Moves.ite
    | with_reducible apply State.answer_moves
    | with_reducible apply State.onMessage_moves
    | with_reducible apply State.owe_moves
    | with_reducible apply State.resetChannel_moves
    | with_reducible apply State.startChannel_moves
    | exact StoresMove.of_eq rfl rfl rfl
    | with_reducible apply MovesResult.live
    | with_reducible apply MovesResult.next
    | dsimp only
    | split
    | with_reducible apply Moves.record
    | with_reducible rfl
    | exact hs.2.2 _ (pageKind_mem _)
    | exact hs.2.1 _ (by decide +kernel)
    | exact Scope.within.trans (by decide +kernel) hs

theorem State.resetEngine_moves {s0 : State} {s : State} (h : Moves σ s0 s) (c : Nat) (e : Nat) (hs : Scope.within ⟨false, [.out, .cycBase, .blocks, .msix, .xlat, .recorder, .chans], [.hmmu, .ctx, .rpl, .grm, .cmmu, .wst, .cvu, .hbmc, .ring, .eng, .door]⟩ σ) :
    Moves σ s0 (State.resetEngine s c e) := by
  unfold State.resetEngine
  repeat' first
    | with_reducible assumption
    | intro _
    | with_reducible apply Moves.ite
    | with_reducible apply State.ecDone_moves
    | with_reducible apply State.forgetAccesses_moves
    | with_reducible apply State.loseTile_moves
    | with_reducible apply State.modEngine_moves
    | with_reducible apply State.resetPage_moves
    | with_reducible apply State.stateMap_moves
    | with_reducible apply State.unpin_moves
    | with_reducible apply Moves.fold
    | with_reducible apply Moves.foldPair
    | with_reducible exact Memory.lose_wf _ _ (by assumption)
    | with_reducible apply Moves.elimSnd
    | with_reducible apply Moves.elim
    | with_reducible apply Moves.elimSndFst
    | with_reducible apply Moves.elimFst
    | dsimp only
    | split
    | with_reducible apply Moves.record
    | with_reducible rfl
    | exact hs.2.2 _ (by simp)
    | exact hs.2.1 _ (by decide +kernel)
    | exact Scope.within.trans (by decide +kernel) hs

theorem execEngineReset_moves {s0 : State} {s : State} (h : Moves σ s0 s) (m : Master) (c : Ch) (e : SlotId) (hs : Scope.within ⟨false, [.out, .cycBase, .blocks, .msix, .xlat, .recorder, .chans], [.hmmu, .ctx, .rpl, .grm, .cmmu, .wst, .cvu, .hbmc, .ring, .eng, .door]⟩ σ) :
    MovesResult σ s0 (execEngineReset m c e s) := by
  unfold execEngineReset
  repeat' first
    | with_reducible assumption
    | intro _
    | with_reducible apply Moves.ite
    | with_reducible apply State.resetEngine_moves
    | with_reducible apply MovesResult.live

end Sys2Proof.Machine
end

