-- ==== Sys2Proof/Laws/MovesDispositions.lean ====
section
/-! SUPPORT. What the functions of Machine/Dispositions.lean can do to a state: each keeps the queue and the
canonical form of the stores, only adds to the output and keeps the registers 32 bits wide (`Moves`). -/

set_option Elab.async false

namespace Sys2Proof.Machine
variable {σ : Scope}

theorem State.abortTile_moves {s0 : State} {s : State} (h : Moves σ s0 s) (c : Nat) (e : Nat) (t : Nat) (num : Nat) (hs : Scope.within ⟨false, [.out, .msix, .xlat, .recorder, .chans], [.hmmu, .ctx, .rpl, .grm, .cmmu, .wst, .cvu, .hbmc, .ring, .eng, .door]⟩ σ) :
    Moves σ s0 (State.abortTile s c e t num) := by
  unfold State.abortTile
  repeat' first
    | with_reducible assumption
    | intro _
    | with_reducible apply Moves.ite
    | with_reducible apply State.dropRepeats_moves
    | with_reducible apply State.ecsDone_moves
    | with_reducible apply State.freeTile_moves
    | with_reducible apply State.modEngine_moves
    | with_reducible apply State.sendBreak_moves
    | with_reducible refine Moves.fstOf (by with_reducible assumption) ?_
    | dsimp only
    | split
    | with_reducible apply Moves.record
    | with_reducible rfl
    | exact hs.2.2 _ (by simp)
    | exact hs.2.1 _ (by decide +kernel)
    | exact Scope.within.trans (by decide +kernel) hs

theorem State.abortInEngine_moves {s0 : State} {s : State} (h : Moves σ s0 s) (c : Nat) (e : Nat) (num : Nat) (hs : Scope.within ⟨false, [.out, .msix, .xlat, .recorder, .chans], [.hmmu, .ctx, .rpl, .grm, .cmmu, .wst, .cvu, .hbmc, .ring, .eng, .door]⟩ σ) :
    Moves σ s0 (State.abortInEngine s c e num) := by
  unfold State.abortInEngine
  repeat' first
    | with_reducible assumption
    | intro _
    | with_reducible apply Moves.ite
    | with_reducible apply State.abortTile_moves
    | with_reducible apply State.ecDone_moves
    | with_reducible apply State.modEngine_moves
    | with_reducible apply State.sendBreak_moves
    | with_reducible apply State.settle_moves
    | with_reducible apply State.sweep_moves
    | with_reducible apply State.unpin_moves
    | with_reducible apply Moves.fold
    | with_reducible apply Moves.foldPair
    | dsimp only
    | split
    | with_reducible apply Moves.record
    | with_reducible rfl
    | exact hs.2.2 _ (by simp)
    | exact hs.2.1 _ (by decide +kernel)
    | exact Scope.within.trans (by decide +kernel) hs

theorem State.abortInUnits_moves {s0 : State} {s : State} (h : Moves σ s0 s) (c : Nat) (num : Nat) (hs : Scope.within ⟨false, [.chans], [.wst, .cvu]⟩ σ) :
    Moves σ s0 (State.abortInUnits s c num) := by
  unfold State.abortInUnits
  repeat' first
    | with_reducible assumption
    | intro _
    | with_reducible apply Moves.ite
    | with_reducible apply State.wr_moves
    | with_reducible apply State.modChan_moves
    | with_reducible apply State.dropHeld_moves
    | with_reducible apply State.unpin_moves
    | exact StoresMove.of_eq rfl rfl rfl
    | with_reducible apply Moves.fold
    | with_reducible apply Moves.foldPair
    | dsimp only
    | split
    | with_reducible apply Moves.record
    | with_reducible rfl
    | exact hs.2.2 _ (by simp)
    | exact hs.2.1 _ (by decide +kernel)
    | exact Scope.within.trans (by decide +kernel) hs

theorem State.abortInShare_moves {s0 : State} {s : State} (h : Moves σ s0 s) (c : Nat) (ctx : Nat) (num : Nat) (g : EngShare) (hs : Scope.within ⟨false, [.out, .msix, .xlat, .shares, .recorder, .chans], [.hmmu, .ctx, .rpl, .grm, .cmmu, .wst, .cvu, .hbmc, .ring, .eng, .door]⟩ σ) :
    Moves σ s0 (State.abortInShare s c ctx num g) := by
  unfold State.abortInShare
  repeat' first
    | with_reducible assumption
    | intro _
    | with_reducible apply Moves.ite
    | with_reducible apply State.ecsDone_moves
    | with_reducible apply State.modShare_moves
    | with_reducible apply State.sendBreak_moves
    | with_reducible apply Moves.fold
    | with_reducible apply Moves.foldPair
    | with_reducible apply Moves.elimSnd
    | with_reducible apply Moves.elim
    | with_reducible apply Moves.elimSndFst
    | with_reducible apply Moves.elimFst
    | dsimp only
    | split
    | with_reducible apply Moves.record
    | with_reducible rfl
    | exact hs.2.2 _ (by simp)
    | exact hs.2.1 _ (by decide +kernel)
    | exact Scope.within.trans (by decide +kernel) hs

theorem State.abortInShares_moves {s0 : State} {s : State} (h : Moves σ s0 s) (c : Nat) (num : Nat) (hs : Scope.within ⟨false, [.out, .msix, .xlat, .shares, .recorder, .chans], [.hmmu, .ctx, .rpl, .grm, .cmmu, .wst, .cvu, .hbmc, .ring, .eng, .door]⟩ σ) :
    Moves σ s0 (State.abortInShares s c num) := by
  unfold State.abortInShares
  repeat' first
    | with_reducible assumption
    | intro _
    | with_reducible apply Moves.ite
    | with_reducible apply State.abortInShare_moves
    | with_reducible apply Moves.fold
    | with_reducible apply Moves.foldPair
    | dsimp only
    | split
    | with_reducible apply Moves.record
    | with_reducible rfl
    | exact hs.2.2 _ (by simp)
    | exact hs.2.1 _ (by decide +kernel)
    | exact Scope.within.trans (by decide +kernel) hs
    | exact .inr (hs.2.1 _ (by decide +kernel))
    | with_reducible exact .inl rfl

theorem State.abortCommand_moves {s0 : State} {s : State} (h : Moves σ s0 s) (c : Nat) (num : Nat) (hs : Scope.within ⟨false, [.out, .msix, .xlat, .shares, .dlm, .streams, .recorder, .chans], [.hmmu, .dlm, .ctx, .rpl, .grm, .cmmu, .wst, .cvu, .hbmc, .ring, .eng, .door]⟩ σ) :
    Moves σ s0 (State.abortCommand s c num) := by
  unfold State.abortCommand
  repeat' first
    | with_reducible assumption
    | intro _
    | with_reducible apply Moves.ite
    | with_reducible apply State.abortInEngine_moves
    | with_reducible apply State.abortInShares_moves
    | with_reducible apply State.abortInUnits_moves
    | with_reducible apply State.finish_moves
    | with_reducible apply State.forgetAccesses_moves
    | with_reducible apply State.stateMap_moves
    | with_reducible apply Moves.fold
    | with_reducible apply Moves.foldPair
    | with_reducible refine Moves.fstOf (by with_reducible assumption) ?_
    | dsimp only
    | split
    | with_reducible apply Moves.record
    | with_reducible rfl
    | exact hs.2.2 _ (by simp)
    | exact hs.2.1 _ (by decide +kernel)
    | exact Scope.within.trans (by decide +kernel) hs

theorem State.abortFill_moves {s0 : State} {s : State} (h : Moves σ s0 s) (c : Nat) (b : Nat) (num : Nat) (hs : Scope.within ⟨false, [.chans], [.wst]⟩ σ) :
    Moves σ s0 (State.abortFill s c b num) := by
  unfold State.abortFill
  repeat' first
    | with_reducible assumption
    | intro _
    | with_reducible apply Moves.ite
    | with_reducible apply State.wr_moves
    | with_reducible apply State.modChan_moves
    | with_reducible apply State.dropHeld_moves
    | with_reducible apply State.ecsDone_moves
    | with_reducible apply State.modCmd_moves
    | with_reducible apply State.pastSplit_moves
    | exact StoresMove.of_eq rfl rfl rfl
    | with_reducible refine Moves.fstOf (by with_reducible assumption) ?_
    | dsimp only
    | split
    | with_reducible apply Moves.record
    | with_reducible rfl
    | exact hs.2.2 _ (by simp)
    | exact hs.2.1 _ (by decide +kernel)
    | exact Scope.within.trans (by decide +kernel) hs

theorem State.abortRestore_moves {s0 : State} {s : State} (h : Moves σ s0 s) (c : Nat) (e : Nat) (t : Nat) (hs : Scope.within ⟨false, [.out, .msix, .xlat, .recorder, .chans], [.hmmu, .ctx, .rpl, .grm, .cmmu, .wst, .cvu, .hbmc, .ring, .eng, .door]⟩ σ) :
    Moves σ s0 (State.abortRestore s c e t) := by
  unfold State.abortRestore
  repeat' first
    | with_reducible assumption
    | intro _
    | with_reducible apply Moves.ite
    | with_reducible apply State.modChan_moves
    | with_reducible apply State.dismiss_moves
    | with_reducible apply State.modEngine_moves
    | with_reducible apply State.modTile_moves
    | with_reducible apply State.sendBreak_moves
    | exact StoresMove.of_eq rfl rfl rfl
    | with_reducible apply Moves.elimSnd
    | with_reducible apply Moves.elim
    | with_reducible apply Moves.elimSndFst
    | with_reducible apply Moves.elimFst
    | with_reducible refine Moves.fstOf (by with_reducible assumption) ?_
    | dsimp only
    | split
    | with_reducible apply Moves.record
    | with_reducible rfl
    | exact hs.2.2 _ (by simp)
    | exact hs.2.1 _ (by decide +kernel)
    | exact Scope.within.trans (by decide +kernel) hs

theorem State.abortSavedRestore_moves {s0 : State} {s : State} (h : Moves σ s0 s) (c : Nat) (ctx : Nat) (g : EngShare) (t : Nat) (x : TileSlot) (hs : Scope.within ⟨false, [.out, .msix, .xlat, .shares, .recorder, .chans], [.hmmu, .ctx, .rpl, .grm, .cmmu, .wst, .cvu, .hbmc, .ring, .eng, .door]⟩ σ) :
    Moves σ s0 (State.abortSavedRestore s c ctx g t x) := by
  unfold State.abortSavedRestore
  repeat' first
    | with_reducible assumption
    | intro _
    | with_reducible apply Moves.ite
    | with_reducible apply State.modChan_moves
    | with_reducible apply State.ecDone_moves
    | with_reducible apply State.modShare_moves
    | with_reducible apply State.sendBreak_moves
    | exact StoresMove.of_eq rfl rfl rfl
    | with_reducible apply Moves.elimSnd
    | with_reducible apply Moves.elim
    | with_reducible apply Moves.elimSndFst
    | with_reducible apply Moves.elimFst
    | with_reducible refine Moves.fstOf (by with_reducible assumption) ?_
    | dsimp only
    | split
    | with_reducible apply Moves.record
    | with_reducible rfl
    | exact hs.2.2 _ (by simp)
    | exact hs.2.1 _ (by decide +kernel)
    | exact Scope.within.trans (by decide +kernel) hs

theorem State.abortSavedSeal_moves {s0 : State} {s : State} (h : Moves σ s0 s) (c : Nat) (e : Nat) (t : Nat) (ctx : Nat) (hs : Scope.within ⟨false, [.out, .msix, .xlat, .shares, .recorder, .chans], [.hmmu, .ctx, .rpl, .grm, .cmmu, .wst, .cvu, .hbmc, .ring, .eng, .door]⟩ σ) :
    Moves σ s0 (State.abortSavedSeal s c e t ctx) := by
  unfold State.abortSavedSeal
  repeat' first
    | with_reducible assumption
    | intro _
    | with_reducible apply Moves.ite
    | with_reducible apply State.abortSavedRestore_moves
    | with_reducible apply State.modShare_moves
    | with_reducible refine Moves.fstOf (by with_reducible assumption) ?_
    | dsimp only
    | split
    | with_reducible apply Moves.record
    | with_reducible rfl
    | exact hs.2.2 _ (by simp)
    | exact hs.2.1 _ (by decide +kernel)
    | exact Scope.within.trans (by decide +kernel) hs

theorem State.abortSeal_moves {s0 : State} {s : State} (h : Moves σ s0 s) (c : Nat) (e : Nat) (t : Nat) (ctx : Nat) (hs : Scope.within ⟨false, [.out, .msix, .xlat, .shares, .recorder, .chans], [.hmmu, .ctx, .rpl, .grm, .cmmu, .wst, .cvu, .hbmc, .ring, .eng, .door]⟩ σ) :
    Moves σ s0 (State.abortSeal s c e t ctx) := by
  unfold State.abortSeal
  repeat' first
    | with_reducible assumption
    | intro _
    | with_reducible apply Moves.ite
    | with_reducible apply State.abortRestore_moves
    | with_reducible apply State.abortSavedSeal_moves
    | with_reducible apply State.modTile_moves
    | dsimp only
    | split
    | with_reducible apply Moves.record
    | with_reducible rfl
    | exact hs.2.2 _ (by simp)
    | exact hs.2.1 _ (by decide +kernel)
    | exact Scope.within.trans (by decide +kernel) hs

theorem State.abortReadBack_moves {s0 : State} {s : State} (h : Moves σ s0 s) (c : Nat) (ctx : Nat) (hs : Scope.within ⟨false, [.out, .msix, .xlat, .recorder, .chans], [.hmmu, .ctx, .rpl, .grm, .cmmu, .wst, .tnd, .cvu, .hbmc, .ring, .eng, .door]⟩ σ) :
    Moves σ s0 (State.abortReadBack s c ctx) := by
  unfold State.abortReadBack
  repeat' first
    | with_reducible assumption
    | intro _
    | with_reducible apply Moves.ite
    | with_reducible apply State.bump_moves
    | with_reducible apply State.raise_moves
    | with_reducible apply State.modChan_moves
    | with_reducible apply Reading.block_moves
    | with_reducible apply State.land_moves
    | with_reducible refine Moves.someSndOf (by with_reducible assumption) ?_
    | exact StoresMove.of_eq rfl rfl rfl
    | with_reducible apply Moves.elimSnd
    | with_reducible apply Moves.elim
    | with_reducible apply Moves.elimSndFst
    | with_reducible apply Moves.elimFst
    | with_reducible refine Moves.fstOf (by with_reducible assumption) ?_
    | dsimp only
    | split
    | with_reducible apply Moves.record
    | with_reducible rfl
    | exact hs.2.2 _ (by simp)
    | exact hs.2.1 _ (by decide +kernel)

theorem State.abortSave_moves {s0 : State} {s : State} (h : Moves σ s0 s) (i : Nat) (ctx : Nat) (hs : Scope.within ⟨false, [.out, .msix, .xlat, .ctxs, .ctxSlots, .loads, .reliefInto, .shares, .dlm, .streams, .rehoming, .recorder, .chans], [.hmmu, .strm, .ctx, .rpl, .grm, .cmmu, .wst, .cvu, .hbmc, .ring, .eng, .door]⟩ σ) :
    Moves σ s0 (State.abortSave s i ctx) := by
  unfold State.abortSave
  repeat' first
    | with_reducible assumption
    | intro _
    | with_reducible apply Moves.ite
    | with_reducible apply State.wr_moves
    | with_reducible apply State.forgetAccesses_moves
    | with_reducible apply State.modCtx_moves
    | with_reducible apply State.modSlotRec_moves
    | with_reducible apply State.resetRecord_moves
    | with_reducible refine Moves.fstOf (by with_reducible assumption) ?_
    | dsimp only
    | split
    | with_reducible apply Moves.record
    | with_reducible rfl
    | exact hs.2.2 _ (by simp)
    | exact hs.2.1 _ (by decide +kernel)
    | exact Scope.within.trans (by decide +kernel) hs

theorem State.abortTransfer_moves {s0 : State} {s : State} (h : Moves σ s0 s) (c : Nat) (n : Nat) (i : Nat) (hs : Scope.within ⟨false, [.out, .msix, .xlat, .shares, .dlm, .streams, .recorder, .chans], [.hmmu, .dlm, .ctx, .rpl, .grm, .cmmu, .wst, .cvu, .hbmc, .ring, .eng, .door]⟩ σ) :
    Moves σ s0 (State.abortTransfer s c n i) := by
  unfold State.abortTransfer
  repeat' first
    | with_reducible assumption
    | intro _
    | with_reducible apply Moves.ite
    | with_reducible apply State.modChan_moves
    | with_reducible apply State.abortCommand_moves
    | with_reducible exact Channel.putPage_stores _
    | exact StoresMove.of_eq rfl rfl rfl
    | with_reducible apply Moves.fold
    | with_reducible apply Moves.foldPair
    | with_reducible exact Memory.put_wf _ _ (by assumption)
    | dsimp only
    | split
    | with_reducible apply Moves.record
    | with_reducible rfl
    | exact hs.2.2 _ (by simp)
    | exact hs.2.1 _ (by decide +kernel)

theorem State.loseBatch_moves {s0 : State} {s : State} (h : Moves σ s0 s) (n : Nat) (hs : Scope.within ⟨false, [.out, .msix, .recorder], [.rpl]⟩ σ) :
    Moves σ s0 (State.loseBatch s n) := by
  unfold State.loseBatch
  repeat' first
    | with_reducible assumption
    | intro _
    | with_reducible apply Moves.ite
    | with_reducible apply State.wr_moves
    | with_reducible apply State.bump_moves
    | with_reducible apply State.raise_moves
    | with_reducible apply State.modLog_moves
    | with_reducible exact Memory.lose_wf _ _ (by assumption)
    | dsimp only
    | split
    | with_reducible apply Moves.record
    | with_reducible rfl
    | exact hs.2.2 _ (by simp)
    | exact hs.2.1 _ (by decide +kernel)
    | exact Scope.within.trans (by decide +kernel) hs

theorem State.showMarking_moves {s0 : State} {s : State} (h : Moves σ s0 s)  (hs : Scope.within ⟨false, [], [.rpl]⟩ σ) :
    Moves σ s0 (State.showMarking s) := by
  unfold State.showMarking
  repeat' first
    | with_reducible assumption
    | with_reducible apply Moves.ite
    | with_reducible apply State.wr_moves
    | dsimp only
    | split
    | with_reducible apply Moves.record
    | with_reducible rfl
    | exact hs.2.2 _ (by simp)

theorem State.abortRecorder_moves {s0 : State} {s : State} (h : Moves σ s0 s) (n : Nat) (va : Nat) (hs : Scope.within ⟨false, [.out, .msix, .recorder], [.rpl]⟩ σ) :
    Moves σ s0 (State.abortRecorder s n va) := by
  unfold State.abortRecorder
  repeat' first
    | with_reducible assumption
    | intro _
    | with_reducible apply Moves.ite
    | with_reducible apply State.loseBatch_moves
    | with_reducible apply State.modRec_moves
    | with_reducible apply State.showMarking_moves
    | with_reducible exact Memory.lose_wf _ _ (by assumption)
    | dsimp only
    | split
    | with_reducible apply Moves.record
    | with_reducible rfl
    | exact hs.2.2 _ (by simp)
    | exact hs.2.1 _ (by decide +kernel)
    | exact Scope.within.trans (by decide +kernel) hs

theorem State.abortRequester_moves {s0 : State} {s : State} (h : Moves σ s0 s) (a : MemAccess) (hs : Scope.within ⟨false, [.out, .msix, .xlat, .ctxs, .ctxSlots, .loads, .reliefInto, .shares, .dlm, .streams, .rehoming, .recorder, .chans], [.hmmu, .strm, .dlm, .ctx, .rpl, .grm, .cmmu, .wst, .tnd, .cvu, .hbmc, .ring, .eng, .door]⟩ σ) :
    Moves σ s0 (State.abortRequester s a) := by
  unfold State.abortRequester
  repeat' first
    | with_reducible assumption
    | intro _
    | with_reducible apply Moves.ite
    | with_reducible apply State.modChan_moves
    | with_reducible apply State.abortCommand_moves
    | with_reducible apply State.abortFill_moves
    | with_reducible apply State.abortReadBack_moves
    | with_reducible apply State.abortRecorder_moves
    | with_reducible apply State.abortSave_moves
    | with_reducible apply State.abortSeal_moves
    | with_reducible apply State.abortTransfer_moves
    | with_reducible apply State.modRing_moves
    | with_reducible apply State.stopRing_moves
    | exact StoresMove.of_eq rfl rfl rfl
    | with_reducible apply Moves.elimSnd
    | with_reducible apply Moves.elim
    | with_reducible apply Moves.elimSndFst
    | with_reducible apply Moves.elimFst
    | with_reducible refine Moves.fstOf (by with_reducible assumption) ?_
    | dsimp only
    | split
    | with_reducible apply Moves.record
    | with_reducible rfl
    | exact hs.2.2 _ (by simp)
    | exact hs.2.1 _ (by decide +kernel)
    | exact Scope.within.trans (by decide +kernel) hs

theorem State.dispose_moves {s0 : State} {s : State} (h : Moves σ s0 s) (m : Master) (id : BitVec 24) (action : Nat) (act : FaultEntry → State → State) (hs : Scope.within ⟨false, [.out, .msix, .xlat, .recorder], [.hmmu, .ctx, .rpl, .cmmu, .wst, .door]⟩ σ) (h_act : ∀ x0 u, Moves σ s0 u → Moves σ s0 (act x0 u)) :
    Moves σ s0 (State.dispose s m id action act) := by
  unfold State.dispose
  repeat' first
    | with_reducible assumption
    | with_reducible apply Moves.ite
    | with_reducible apply h_act
    | with_reducible apply State.badDisposition_moves
    | with_reducible apply State.freeFault_moves
    | with_reducible apply State.logDisposition_moves
    | with_reducible apply State.onResume_moves
    | with_reducible refine Moves.fstOf (by with_reducible assumption) ?_
    | assumption
    | dsimp only
    | split
    | with_reducible apply Moves.record
    | with_reducible rfl
    | exact hs.2.2 _ (by simp)
    | exact hs.2.1 _ (by decide +kernel)
    | exact Scope.within.trans (by decide +kernel) hs

theorem execAbortCommand_moves {s0 : State} {s : State} (h : Moves σ s0 s) (m : Master) (fault : BitVec 24) (hs : Scope.within ⟨false, [.out, .msix, .xlat, .ctxs, .ctxSlots, .loads, .reliefInto, .shares, .dlm, .streams, .rehoming, .recorder, .chans], [.hmmu, .strm, .dlm, .ctx, .rpl, .grm, .cmmu, .wst, .tnd, .cvu, .hbmc, .ring, .eng, .door]⟩ σ) :
    MovesResult σ s0 (execAbortCommand m fault s) := by
  unfold execAbortCommand
  repeat' first
    | with_reducible assumption
    | intro _
    | with_reducible apply Moves.ite
    | with_reducible apply State.abortRequester_moves
    | with_reducible apply State.dispose_moves
    | with_reducible apply State.fault_moves
    | with_reducible apply MovesResult.live
    | with_reducible apply MovesResult.next
    | dsimp only
    | split
    | with_reducible apply Moves.record
    | with_reducible rfl
    | exact hs.2.2 _ (by simp)
    | exact hs.2.1 _ (by decide +kernel)
    | exact Scope.within.trans (by decide +kernel) hs

theorem State.stopLogs_moves {s0 : State} {s : State} (h : Moves σ s0 s)  (hs : Scope.within ⟨false, [.recorder], [.rpl]⟩ σ) :
    Moves σ s0 (State.stopLogs s) := by
  unfold State.stopLogs
  repeat' first
    | with_reducible assumption
    | intro _
    | with_reducible apply Moves.ite
    | with_reducible apply State.wr_moves
    | with_reducible apply State.modRec_moves
    | with_reducible apply State.showMarking_moves
    | dsimp only
    | split
    | with_reducible apply Moves.record
    | with_reducible rfl
    | exact hs.2.2 _ (by simp)
    | exact hs.2.1 _ (by decide +kernel)
    | exact Scope.within.trans (by decide +kernel) hs

theorem execAbortContext_moves {s0 : State} {s : State} (h : Moves σ s0 s) (m : Master) (fault : BitVec 24) (hs : Scope.within ⟨false, [.out, .msix, .xlat, .ctxs, .ctxSlots, .loads, .reliefInto, .shares, .dlm, .streams, .rehoming, .recorder, .chans], [.hmmu, .strm, .ctx, .rpl, .grm, .cmmu, .wst, .cvu, .hbmc, .ring, .eng, .door]⟩ σ) :
    MovesResult σ s0 (execAbortContext m fault s) := by
  unfold execAbortContext
  repeat' first
    | with_reducible assumption
    | intro _
    | with_reducible apply Moves.ite
    | with_reducible apply State.dispose_moves
    | with_reducible apply State.fault_moves
    | with_reducible apply State.resetContext_moves
    | with_reducible apply State.resetRecord_moves
    | with_reducible apply State.stopLogs_moves
    | with_reducible apply MovesResult.live
    | with_reducible apply MovesResult.next
    | with_reducible refine Moves.fstOf (by with_reducible assumption) ?_
    | dsimp only
    | split
    | with_reducible apply Moves.record
    | with_reducible rfl
    | exact hs.2.2 _ (by simp)
    | exact hs.2.1 _ (by decide +kernel)
    | exact Scope.within.trans (by decide +kernel) hs

theorem execPcieRequestFailure_moves {s0 : State} {s : State} (h : Moves σ s0 s) (req : RequesterId) (ctx : CtxId) (va : BitVec 48) (write : Bool) (kind : PcieFailure) (hs : Scope.within ⟨false, [.out, .msix, .xlat, .recorder], [.hmmu, .ctx, .rpl, .grm, .cmmu, .wst, .cvu, .ring, .eng, .door]⟩ σ) :
    MovesResult σ s0 (execPcieRequestFailure req ctx va write kind s) := by
  unfold execPcieRequestFailure
  repeat' first
    | with_reducible assumption
    | intro _
    | with_reducible apply Moves.ite
    | with_reducible apply State.emit_moves
    | with_reducible apply State.fault_moves
    | with_reducible apply State.walkFault_moves
    | with_reducible apply MovesResult.live
    | with_reducible apply MovesResult.next
    | with_reducible refine Moves.fstOf (by with_reducible assumption) ?_
    | dsimp only
    | split
    | with_reducible apply Moves.record
    | with_reducible rfl
    | exact hs.2.2 _ (by simp)
    | exact hs.2.1 _ (by decide +kernel)

end Sys2Proof.Machine
end

