-- ==== Sys2Proof/Laws/MovesReplay.lean ====
section
/-! SUPPORT. What the functions of Machine/Replay.lean can do to a state: each keeps the queue and the
canonical form of the stores, only adds to the output and keeps the registers 32 bits wide (`Moves`). -/

set_option Elab.async false

namespace Sys2Proof.Machine
variable {σ : Scope}

theorem State.startMark_moves {s0 : State} {s : State} (h : Moves σ s0 s)  (hs : Scope.within ⟨false, [.recorder], [.rpl]⟩ σ) :
    Moves σ s0 (State.startMark s) := by
  unfold State.startMark
  repeat' first
    | with_reducible assumption
    | intro _
    | with_reducible apply Moves.ite
    | with_reducible apply State.wrap_moves
    | with_reducible apply State.modRec_moves
    | with_reducible apply State.showMarking_moves
    | dsimp only
    | split
    | with_reducible apply Moves.record
    | with_reducible rfl
    | exact hs.2.2 _ (by simp)
    | exact hs.2.1 _ (by decide +kernel)
    | exact Scope.within.trans (by decide +kernel) hs

theorem execMark_moves {s0 : State} {s : State} (h : Moves σ s0 s) (m : Master) (hs : Scope.within ⟨false, [.recorder], [.rpl]⟩ σ) :
    MovesResult σ s0 (execMark m s) := by
  unfold execMark
  repeat' first
    | with_reducible assumption
    | intro _
    | with_reducible apply Moves.ite
    | with_reducible apply State.startMark_moves
    | with_reducible apply MovesResult.live

theorem State.setRec_moves {s0 : State} {s : State} (h : Moves σ s0 s) (c : Nat) (on : Bool) (hs : Scope.within ⟨false, [], [.rpl]⟩ σ) :
    Moves σ s0 (State.setRec s c on) := by
  unfold State.setRec
  repeat' first
    | with_reducible assumption
    | with_reducible apply Moves.ite
    | with_reducible apply State.wr_moves
    | dsimp only
    | split
    | with_reducible apply Moves.record
    | with_reducible rfl
    | exact hs.2.2 _ (by simp)

theorem State.clearGap_moves {s0 : State} {s : State} (h : Moves σ s0 s) (n : Nat) (hs : Scope.within ⟨false, [], [.rpl]⟩ σ) :
    Moves σ s0 (State.clearGap s n) := by
  unfold State.clearGap
  repeat' first
    | with_reducible assumption
    | with_reducible apply Moves.ite
    | with_reducible apply State.wr_moves
    | dsimp only
    | split
    | with_reducible apply Moves.record
    | with_reducible rfl
    | exact hs.2.2 _ (by simp)

theorem State.leaveMark_moves {s0 : State} {s : State} (h : Moves σ s0 s) (c : Nat) (hs : Scope.within ⟨false, [.out, .msix, .recorder], [.rpl]⟩ σ) :
    Moves σ s0 (State.leaveMark s c) := by
  unfold State.leaveMark
  repeat' first
    | with_reducible assumption
    | intro _
    | with_reducible apply Moves.ite
    | with_reducible apply State.raise_moves
    | with_reducible apply State.modRec_moves
    | with_reducible apply State.showMarking_moves
    | dsimp only
    | split
    | with_reducible apply Moves.record
    | with_reducible rfl
    | exact hs.2.2 _ (by simp)
    | exact hs.2.1 _ (by decide +kernel)
    | exact Scope.within.trans (by decide +kernel) hs

theorem execMarkDone_moves {s0 : State} {s : State} (h : Moves σ s0 s) (c : Ch) (hs : Scope.within ⟨true, [.out, .drawn, .msix, .xlat, .recorder, .chans], [.hmmu, .ctx, .rpl, .grm, .cmmu, .wst, .cvu, .hbmc, .ring, .eng, .door]⟩ σ) :
    MovesResult σ s0 (execMarkDone c s) := by
  unfold execMarkDone
  repeat' first
    | with_reducible assumption
    | intro _
    | with_reducible apply Moves.ite
    | with_reducible apply State.clearGap_moves
    | with_reducible apply State.leaveMark_moves
    | with_reducible apply State.logTo_moves
    | with_reducible apply State.modLog_moves
    | with_reducible apply State.modRec_moves
    | with_reducible apply State.sealVa_moves
    | with_reducible apply State.setRec_moves
    | with_reducible apply MovesResult.live
    | with_reducible apply MovesResult.next
    | with_reducible refine Moves.fstOf (by with_reducible assumption) ?_
    | dsimp only
    | split
    | with_reducible apply Moves.record
    | with_reducible rfl
    | exact hs.2.2 _ (by simp)
    | exact hs.2.1 _ (by decide +kernel)
    | exact Scope.within.trans (by decide +kernel) hs

theorem execBatchWrite_moves {s0 : State} {s : State} (h : Moves σ s0 s) (log : Fin 5) (hs : Scope.within ⟨false, [.recorder], []⟩ σ) :
    MovesResult σ s0 (execBatchWrite log s) := by
  unfold execBatchWrite
  repeat' first
    | with_reducible assumption
    | intro _
    | with_reducible apply Moves.ite
    | with_reducible apply State.modLog_moves
    | with_reducible apply MovesResult.live
    | with_reducible apply MovesResult.next
    | with_reducible refine Moves.fstOf (by with_reducible assumption) ?_
    | dsimp only
    | split

theorem State.writeBatch_moves {s0 s : State} (h : Moves σ s0 s) (log : Fin 5) (b : Batch) (hs : Scope.within ⟨true, [.out, .msix, .xlat, .recorder, .chans], [.hmmu, .ctx, .rpl, .grm, .cmmu, .wst, .cvu, .hbmc, .ring, .eng, .door]⟩ σ) :
    Moves σ s0 (State.writeBatch s log b).1 := by
  have k := State.writeVa_moves h (s.batchAccess log) hbmData (batchBytes log b) (.trans (by decide +kernel) hs)
  unfold State.writeBatch
  revert k
  generalize s.writeVa _ _ _ = w
  exact id

theorem State.batchDone_moves {s0 : State} {s : State} (h : Moves σ s0 s) (log : Fin 5) (tail : Nat) (hs : Scope.within ⟨false, [.recorder], [.rpl]⟩ σ) :
    Moves σ s0 (State.batchDone s log tail) := by
  unfold State.batchDone
  repeat' first
    | with_reducible assumption
    | intro _
    | with_reducible apply Moves.ite
    | with_reducible apply State.wr_moves
    | with_reducible apply State.bump_moves
    | with_reducible apply State.modLog_moves
    | dsimp only
    | split
    | with_reducible apply Moves.record
    | with_reducible rfl
    | exact hs.2.2 _ (by simp)
    | exact hs.2.1 _ (by decide +kernel)
    | exact Scope.within.trans (by decide +kernel) hs

theorem State.acceptBatch_moves {s0 s : State} (h : Moves σ s0 s) (log : Fin 5) (b : Batch) (hs : Scope.within ⟨true, [.out, .msix, .xlat, .recorder, .chans], [.hmmu, .ctx, .rpl, .grm, .cmmu, .wst, .cvu, .hbmc, .ring, .eng, .door]⟩ σ) :
    Moves σ s0 (State.acceptBatch s log b) :=
  .ite (State.batchDone_moves (State.writeBatch_moves h log b (.trans (by decide +kernel) hs)) _ _ (.trans (by decide +kernel) hs)) (State.writeBatch_moves h log b (.trans (by decide +kernel) hs))

theorem execBatchAccepted_moves {s0 : State} {s : State} (h : Moves σ s0 s) (log : Fin 5) (hs : Scope.within ⟨true, [.out, .msix, .xlat, .recorder, .chans], [.hmmu, .ctx, .rpl, .grm, .cmmu, .wst, .cvu, .hbmc, .ring, .eng, .door]⟩ σ) :
    MovesResult σ s0 (execBatchAccepted log s) := by
  unfold execBatchAccepted
  repeat' first
    | with_reducible assumption
    | intro _
    | with_reducible apply Moves.ite
    | with_reducible apply State.acceptBatch_moves
    | with_reducible apply MovesResult.live
    | with_reducible apply MovesResult.next
    | with_reducible refine Moves.fstOf (by with_reducible assumption) ?_
    | dsimp only
    | split

theorem State.reside_moves {s0 : State} {s : State} (h : Moves σ s0 s) (n : Nat) (hs : Scope.within ⟨false, [.ctxs, .ctxSlots], [.ctx]⟩ σ) :
    Moves σ s0 (State.reside s n) := by
  unfold State.reside
  repeat' first
    | with_reducible assumption
    | intro _
    | with_reducible apply Moves.ite
    | with_reducible apply State.modCtx_moves
    | with_reducible apply State.setSlot_moves
    | with_reducible refine Moves.fstOf (by with_reducible assumption) ?_
    | dsimp only
    | split
    | with_reducible apply Moves.record
    | with_reducible rfl
    | exact hs.2.2 _ (by simp)
    | exact hs.2.1 _ (by decide +kernel)
    | exact Scope.within.trans (by decide +kernel) hs

theorem State.loadRings_moves {s0 : State} {s : State} (h : Moves σ s0 s) (c : Nat) (i : MarkImage) (hs : Scope.within ⟨true, [.chans], [.ring, .door]⟩ σ) :
    Moves σ s0 (State.loadRings s c i) := by
  unfold State.loadRings
  repeat' first
    | with_reducible assumption
    | intro _
    | with_reducible apply Moves.ite
    | with_reducible apply State.wr_moves
    | with_reducible apply State.setWord_moves
    | with_reducible apply State.modRing_moves
    | with_reducible apply Moves.fold
    | with_reducible apply Moves.foldPair
    | dsimp only
    | split
    | with_reducible apply Moves.record
    | with_reducible rfl
    | exact hs.2.2 _ (by simp)
    | exact hs.2.1 _ (by decide +kernel)
    | exact Scope.within.trans (by decide +kernel) hs

theorem State.loadStreams_moves {s0 : State} {s : State} (h : Moves σ s0 s) (i : MarkImage) (hs : Scope.within ⟨false, [.dlm, .streams], []⟩ σ) :
    Moves σ s0 (State.loadStreams s i) := by
  unfold State.loadStreams
  repeat' first
    | with_reducible assumption
    | intro _
    | with_reducible apply Moves.ite
    | with_reducible apply State.modDlm_moves
    | with_reducible apply State.modStream_moves
    | with_reducible apply Moves.fold
    | with_reducible apply Moves.foldPair
    | dsimp only
    | split
    | with_reducible apply Moves.record
    | with_reducible rfl
    | exact hs.2.2 _ (by simp)
    | exact hs.2.1 _ (by decide +kernel)
    | exact Scope.within.trans (by decide +kernel) hs

theorem State.loadChannel_moves {s0 : State} {s : State} (h : Moves σ s0 s) (c : Nat) (i : MarkImage) (hs : Scope.within ⟨false, [.out, .msix, .xlat, .recorder, .chans], [.hmmu, .ctx, .rpl, .grm, .cmmu, .wst, .cvu, .hbmc, .ring, .eng, .door]⟩ σ) :
    Moves σ s0 (State.loadChannel s c i) := by
  unfold State.loadChannel
  repeat' first
    | with_reducible assumption
    | intro _
    | with_reducible apply Moves.ite
    | with_reducible apply State.modChan_moves
    | with_reducible apply Reading.block_moves
    | exact StoresMove.of_eq rfl rfl rfl
    | dsimp only
    | split
    | with_reducible apply Moves.record
    | with_reducible rfl
    | exact hs.2.2 _ (by simp)
    | exact hs.2.1 _ (by decide +kernel)

theorem State.loadShare_moves {s0 : State} {s : State} (h : Moves σ s0 s) (c : Nat) (i : MarkImage) (sh : CtxShare) (hs : Scope.within ⟨false, [.xlat, .ctxs, .shares, .chans], [.eng]⟩ σ) :
    Moves σ s0 (State.loadShare s c i sh) := by
  unfold State.loadShare
  repeat' first
    | with_reducible assumption
    | intro _
    | with_reducible apply Moves.ite
    | with_reducible apply State.modCtx_moves
    | with_reducible apply State.modCvu_moves
    | with_reducible apply State.padsBack_moves
    | with_reducible apply State.putEngine_moves
    | with_reducible apply Moves.fold
    | with_reducible apply Moves.foldPair
    | with_reducible exact Memory.put_wf _ _ (by assumption)
    | dsimp only
    | split
    | with_reducible apply Moves.record
    | with_reducible rfl
    | exact hs.2.2 _ (by simp)
    | exact hs.2.1 _ (by decide +kernel)
    | exact Scope.within.trans (by decide +kernel) hs
    | exact .inr (hs.2.1 _ (by decide +kernel))
    | with_reducible exact .inl rfl

theorem State.loadGait_moves {s0 : State} {s : State} (h : Moves σ s0 s) (c : Nat) (gait : Nat) (hs : Scope.within ⟨false, [], [.pwr, .clk]⟩ σ) :
    Moves σ s0 (State.loadGait s c gait) := by
  unfold State.loadGait
  repeat' first
    | with_reducible assumption
    | with_reducible apply Moves.ite
    | with_reducible apply State.wr_moves
    | dsimp only
    | split
    | with_reducible apply Moves.record
    | with_reducible rfl
    | exact hs.2.2 _ (by simp)

theorem State.loadImage_moves {s0 : State} {s : State} (h : Moves σ s0 s) (c : Nat) (i : MarkImage) (hs : Scope.within ⟨true, [.out, .msix, .xlat, .ctxs, .ctxSlots, .shares, .dlm, .streams, .recorder, .chans], [.hmmu, .ctx, .rpl, .pwr, .clk, .grm, .cmmu, .wst, .cvu, .hbmc, .ring, .eng, .door]⟩ σ) :
    Moves σ s0 (State.loadImage s c i) := by
  unfold State.loadImage
  repeat' first
    | with_reducible assumption
    | intro _
    | with_reducible apply Moves.ite
    | with_reducible apply State.wr_moves
    | with_reducible apply State.loadChannel_moves
    | with_reducible apply State.loadGait_moves
    | with_reducible apply State.loadRings_moves
    | with_reducible apply State.loadShare_moves
    | with_reducible apply State.loadStreams_moves
    | with_reducible apply State.modRec_moves
    | with_reducible apply State.reside_moves
    | with_reducible apply State.stateMap_moves
    | with_reducible apply Moves.fold
    | with_reducible apply Moves.foldPair
    | with_reducible refine Moves.fstOf (by with_reducible assumption) ?_
    | dsimp only
    | split
    | with_reducible apply Moves.record
    | with_reducible rfl
    | exact hs.2.2 _ (by simp)
    | exact hs.2.1 _ (by decide +kernel)
    | exact Scope.within.trans (by decide +kernel) hs

theorem State.setupFails_moves {s0 : State} {s : State} (h : Moves σ s0 s)  (hs : Scope.within ⟨false, [.out, .msix, .recorder], [.rpl]⟩ σ) :
    Moves σ s0 (State.setupFails s) := by
  unfold State.setupFails
  repeat' first
    | with_reducible assumption
    | with_reducible apply Moves.ite
    | with_reducible apply State.stopReplay_moves

theorem execReplay_moves {s0 : State} {s : State} (h : Moves σ s0 s) (m : Master) (markNo : BitVec 16) (crcs : List Word) (hs : Scope.within ⟨true, [.out, .msix, .xlat, .ctxs, .ctxSlots, .shares, .dlm, .streams, .recorder, .chans], [.hmmu, .ctx, .rpl, .pwr, .clk, .grm, .cmmu, .wst, .cvu, .hbmc, .ring, .eng, .door]⟩ σ) :
    MovesResult σ s0 (execReplay m markNo crcs s) := by
  unfold execReplay
  repeat' first
    | with_reducible assumption
    | intro _
    | with_reducible apply Moves.ite
    | with_reducible apply State.loadImage_moves
    | with_reducible apply State.setupFails_moves
    | with_reducible apply MovesResult.live
    | with_reducible apply MovesResult.next
    | with_reducible refine Moves.fstOf (by with_reducible assumption) ?_
    | dsimp only
    | split
    | with_reducible apply Moves.record
    | with_reducible rfl
    | exact hs.2.2 _ (by simp)
    | exact hs.2.1 _ (by decide +kernel)
    | exact Scope.within.trans (by decide +kernel) hs

theorem State.endReplay_moves {s0 : State} {s : State} (h : Moves σ s0 s) (cause : Nat) (hs : Scope.within ⟨true, [.out, .cycBase, .blocks, .msix, .mbx, .xlat, .shares, .dlm, .streams, .rehoming, .recorder, .chans], [.hif, .far, .hmmu, .strm, .dlm, .ctx, .rpl, .pwr, .clk, .ras, .hlk, .mbx, .grm, .cmmu, .wst, .ast, .tnd, .cvu, .hbmc, .ring, .eng, .door]⟩ σ) :
    Moves σ s0 (State.endReplay s cause) := by
  unfold State.endReplay
  repeat' first
    | with_reducible assumption
    | intro _
    | with_reducible apply Moves.ite
    | with_reducible apply State.wr_moves
    | with_reducible apply State.raise_moves
    | with_reducible apply State.modRec_moves
    | with_reducible apply State.resetChannel_moves
    | with_reducible apply State.startChannel_moves
    | exact StoresMove.of_eq rfl rfl rfl
    | with_reducible refine Moves.fstOf (by with_reducible assumption) ?_
    | dsimp only
    | split
    | with_reducible apply Moves.record
    | with_reducible rfl
    | exact hs.2.2 _ (pageKind_mem _)
    | exact hs.2.1 _ (by decide +kernel)
    | exact Scope.within.trans (by decide +kernel) hs

theorem execRplStop_moves {s0 : State} {s : State} (h : Moves σ s0 s) (m : Master) (hs : Scope.within ⟨true, [.out, .cycBase, .blocks, .msix, .mbx, .xlat, .shares, .dlm, .streams, .rehoming, .recorder, .chans], [.hif, .far, .hmmu, .strm, .dlm, .ctx, .rpl, .pwr, .clk, .ras, .hlk, .mbx, .grm, .cmmu, .wst, .ast, .tnd, .cvu, .hbmc, .ring, .eng, .door]⟩ σ) :
    MovesResult σ s0 (execRplStop m s) := by
  unfold execRplStop
  repeat' first
    | with_reducible assumption
    | intro _
    | with_reducible apply Moves.ite
    | with_reducible apply State.endReplay_moves
    | with_reducible apply MovesResult.live

theorem execRplResume_moves {s0 : State} {s : State} (h : Moves σ s0 s) (m : Master) (placed : Bool) (hs : Scope.within ⟨false, [.recorder], [.rpl]⟩ σ) :
    MovesResult σ s0 (execRplResume m placed s) := by
  unfold execRplResume
  repeat' first
    | with_reducible assumption
    | intro _
    | with_reducible apply Moves.ite
    | with_reducible apply State.wr_moves
    | with_reducible apply State.modRec_moves
    | with_reducible apply MovesResult.live
    | with_reducible apply MovesResult.next
    | dsimp only
    | split
    | with_reducible apply Moves.record
    | with_reducible rfl
    | exact hs.2.2 _ (by simp)
    | exact hs.2.1 _ (by decide +kernel)
    | exact Scope.within.trans (by decide +kernel) hs

end Sys2Proof.Machine
end

