-- ==== Sys2Proof/Laws/MovesRegisters.lean ====
section
/-! SUPPORT. What the functions of Machine/Registers.lean can do to a state: each keeps the queue and the
canonical form of the stores, only adds to the output and keeps the registers 32 bits wide (`Moves`). -/

set_option Elab.async false

namespace Sys2Proof.Machine
variable {σ : Scope}

theorem State.after_moves {s0 s : State} (h : Moves σ s0 s) {r : Result} (hr : MovesResult σ s0 r) (hs : Scope.within ⟨false, [], []⟩ σ) :
    Moves σ s0 (State.after s r) := by
  cases r with
  | next t => exact hr.get _ rfl
  | fault => exact h
  | refused => exact h

theorem State.storeWord_moves {s0 : State} {s : State} (h : Moves σ s0 s) (p : Page) (off : Nat) (v : Nat) (hs : Scope.within ⟨false, [], []⟩ σ) (hp1 : pageKind p ∈ σ.kinds) :
    Moves σ s0 (State.storeWord s p off v) := by
  unfold State.storeWord
  repeat' first
    | with_reducible assumption
    | with_reducible apply Moves.ite
    | with_reducible apply State.setWord_moves

theorem State.storeBut_moves {s0 : State} {s : State} (h : Moves σ s0 s) (p : Page) (off : Nat) (v : Nat) (f : Fld) (hs : Scope.within ⟨false, [], []⟩ σ) (hp1 : pageKind p ∈ σ.kinds) :
    Moves σ s0 (State.storeBut s p off v f) := by
  unfold State.storeBut
  repeat' first
    | with_reducible assumption
    | with_reducible apply Moves.ite
    | with_reducible apply State.wr_moves
    | with_reducible apply State.storeWord_moves

theorem State.writeRoute_moves {s0 : State} {s : State} (h : Moves σ s0 s) (p : Page) (v : Nat) (hs : Scope.within ⟨false, [.out, .msix], []⟩ σ) (hp1 : pageKind p ∈ σ.kinds) :
    Moves σ s0 (State.writeRoute s p v) := by
  unfold State.writeRoute
  repeat' first
    | with_reducible assumption
    | with_reducible apply Moves.ite
    | with_reducible apply State.wr_moves
    | with_reducible apply State.signalFrom_moves
    | with_reducible apply State.storeWord_moves
    | dsimp only
    | split
    | with_reducible apply Moves.record
    | with_reducible rfl
    | exact hs.2.2 _ (by simp)
    | exact hs.2.1 _ (by decide +kernel)
    | exact Scope.within.trans (by decide +kernel) hs

theorem State.writeMask_moves {s0 : State} {s : State} (h : Moves σ s0 s) (p : Page) (v : Nat) (hs : Scope.within ⟨false, [.out, .msix], []⟩ σ) (hp1 : pageKind p ∈ σ.kinds) :
    Moves σ s0 (State.writeMask s p v) := by
  unfold State.writeMask
  repeat' first
    | with_reducible assumption
    | with_reducible apply Moves.ite
    | with_reducible apply State.signalFrom_moves
    | with_reducible apply State.storeWord_moves
    | dsimp only
    | split
    | with_reducible apply Moves.record
    | with_reducible rfl
    | exact hs.2.2 _ (by simp)
    | exact hs.2.1 _ (by decide +kernel)
    | exact Scope.within.trans (by decide +kernel) hs

theorem State.writeLock_moves {s0 : State} {s : State} (h : Moves σ s0 s) (m : Master) (p : Page) (i : Nat) (v : Nat) (hs : Scope.within ⟨false, [], []⟩ σ) (hp2 : pageKind p ∈ σ.kinds) :
    Moves σ s0 (State.writeLock s m p i v) := by
  unfold State.writeLock
  repeat' first
    | with_reducible assumption
    | with_reducible apply Moves.ite
    | with_reducible apply State.release_moves

theorem State.writeHeader_moves {s0 : State} {s : State} (h : Moves σ s0 s) (m : Master) (p : Page) (off : Nat) (v : Nat) (hs : Scope.within ⟨false, [.out, .blocks, .msix, .ports, .chans], [.hif, .hlk, .door]⟩ σ) (hp2 : pageKind p ∈ σ.kinds) :
    Moves σ s0 (State.writeHeader s m p off v) := by
  unfold State.writeHeader
  repeat' first
    | with_reducible assumption
    | with_reducible apply Moves.ite
    | with_reducible apply State.setWord_moves
    | with_reducible apply State.enable_moves
    | with_reducible apply State.storeWord_moves
    | with_reducible apply State.writeLock_moves
    | with_reducible apply State.writeMask_moves
    | with_reducible apply State.writeRoute_moves
    | with_reducible refine Moves.fstOf (by with_reducible assumption) ?_
    | dsimp only
    | split
    | with_reducible apply Moves.record
    | with_reducible rfl
    | exact hs.2.2 _ (by simp)
    | exact hs.2.1 _ (by decide +kernel)
    | exact Scope.within.trans (by decide +kernel) hs

theorem State.writeWindow_moves {s0 : State} {s : State} (h : Moves σ s0 s) (m : Master) (p : Page) (off : Nat) (v : Nat) (ops : Nat) (run : Nat → State) (hs : Scope.within ⟨false, [], []⟩ σ) (hp2 : pageKind p ∈ σ.kinds) (h_run : ∀ x0, Moves σ s0 (run x0)) :
    Moves σ s0 (State.writeWindow s m p off v ops run) := by
  unfold State.writeWindow
  repeat' first
    | with_reducible assumption
    | with_reducible apply Moves.ite
    | with_reducible apply h_run
    | with_reducible apply State.storeWord_moves

theorem State.writeMbx_moves {s0 : State} {s : State} (h : Moves σ s0 s) (m : Master) (b : MbxId) (off : Nat) (v : Nat) (hs : Scope.within ⟨false, [.out, .dev, .msix, .mbx, .ports, .recorder], [.rpl, .mbx]⟩ σ) :
    Moves σ s0 (State.writeMbx s m b off v) := by
  unfold State.writeMbx
  repeat' first
    | with_reducible assumption
    | with_reducible apply Moves.ite
    | with_reducible apply State.after_moves
    | with_reducible apply State.storeWord_moves
    | with_reducible apply execMbxAck_moves
    | with_reducible apply execMbxCancel_moves
    | with_reducible apply execMbxSend_moves
    | with_reducible apply execMbxSendAlt_moves
    | dsimp only
    | split
    | with_reducible apply Moves.record
    | with_reducible rfl
    | exact hs.2.2 _ (by simp)
    | exact hs.2.1 _ (by decide +kernel)
    | exact Scope.within.trans (by decide +kernel) hs

theorem State.writeDisp_moves {s0 : State} {s : State} (h : Moves σ s0 s) (m : Master) (v : Nat) (hs : Scope.within ⟨false, [.out, .msix, .xlat, .ctxs, .ctxSlots, .loads, .reliefInto, .shares, .dlm, .streams, .rehoming, .recorder, .chans], [.hmmu, .strm, .dlm, .ctx, .rpl, .grm, .cmmu, .wst, .tnd, .cvu, .hbmc, .ring, .eng, .door]⟩ σ) :
    Moves σ s0 (State.writeDisp s m v) := by
  unfold State.writeDisp
  repeat' first
    | with_reducible assumption
    | with_reducible apply Moves.ite
    | with_reducible apply State.after_moves
    | with_reducible apply execAbortCommand_moves
    | with_reducible apply execAbortContext_moves
    | with_reducible apply execRetry_moves
    | assumption
    | dsimp only
    | split
    | with_reducible apply Moves.record
    | with_reducible rfl
    | exact hs.2.2 _ (by simp)
    | exact hs.2.1 _ (by decide +kernel)
    | exact Scope.within.trans (by decide +kernel) hs

theorem State.writeHmmu_moves {s0 : State} {s : State} (h : Moves σ s0 s) (m : Master) (off : Nat) (v : Nat) (hs : Scope.within ⟨false, [.out, .msix, .xlat, .ctxs, .ctxSlots, .loads, .reliefInto, .shares, .dlm, .streams, .rehoming, .recorder, .chans], [.hmmu, .strm, .dlm, .ctx, .rpl, .grm, .cmmu, .wst, .tnd, .cvu, .hbmc, .ring, .eng, .door]⟩ σ) :
    Moves σ s0 (State.writeHmmu s m off v) := by
  unfold State.writeHmmu
  repeat' first
    | with_reducible assumption
    | intro _
    | with_reducible apply Moves.ite
    | with_reducible apply State.invalidate_moves
    | with_reducible apply State.storeWord_moves
    | with_reducible apply State.writeDisp_moves
    | dsimp only
    | split
    | with_reducible apply Moves.record
    | with_reducible rfl
    | exact hs.2.2 _ (by simp)
    | exact hs.2.1 _ (by decide +kernel)
    | exact Scope.within.trans (by decide +kernel) hs

theorem State.writeRing_moves {s0 : State} {s : State} (h : Moves σ s0 s) (c : Ch) (r : RingId) (off : Nat) (v : Nat) (hs : Scope.within ⟨false, [.blocks, .ports, .chans], [.hif, .hlk, .ring, .door]⟩ σ) :
    Moves σ s0 (State.writeRing s c r off v) := by
  unfold State.writeRing
  repeat' first
    | with_reducible assumption
    | with_reducible apply Moves.ite
    | with_reducible apply State.enable_moves
    | with_reducible apply State.storeBut_moves
    | with_reducible apply State.storeWord_moves
    | dsimp only
    | split
    | with_reducible apply Moves.record
    | with_reducible rfl
    | exact hs.2.2 _ (by simp)
    | exact hs.2.1 _ (by decide +kernel)
    | exact Scope.within.trans (by decide +kernel) hs

theorem State.writeDoor_moves {s0 : State} {s : State} (h : Moves σ s0 s) (m : Master) (c : Ch) (r : RingId) (off : Nat) (v : Nat) (hs : Scope.within ⟨false, [.out, .msix, .recorder, .chans], [.rpl, .ring, .door]⟩ σ) :
    Moves σ s0 (State.writeDoor s m c r off v) := by
  unfold State.writeDoor
  repeat' first
    | with_reducible assumption
    | with_reducible apply Moves.ite
    | with_reducible apply State.after_moves
    | with_reducible apply execCplHeadWrite_moves
    | with_reducible apply execResume_moves
    | with_reducible apply execTailWrite_moves
    | dsimp only
    | split
    | with_reducible apply Moves.record
    | with_reducible rfl
    | exact hs.2.2 _ (by simp)
    | exact hs.2.1 _ (by decide +kernel)
    | exact Scope.within.trans (by decide +kernel) hs

theorem State.writeHlk_moves {s0 : State} {s : State} (h : Moves σ s0 s) (m : Master) (p : PortId) (off : Nat) (v : Nat) (hs : Scope.within ⟨false, [.blocks, .ports, .chans], [.hif, .hlk, .door]⟩ σ) :
    Moves σ s0 (State.writeHlk s m p off v) := by
  unfold State.writeHlk
  repeat' first
    | with_reducible assumption
    | with_reducible apply Moves.ite
    | with_reducible apply State.enable_moves
    | with_reducible apply State.rlock_moves
    | with_reducible apply State.storeBut_moves
    | with_reducible apply State.storeWord_moves
    | dsimp only
    | split
    | with_reducible apply Moves.record
    | with_reducible rfl
    | exact hs.2.2 _ (by simp)
    | exact hs.2.1 _ (by decide +kernel)
    | exact Scope.within.trans (by decide +kernel) hs

theorem State.writePower_moves {s0 : State} {s : State} (h : Moves σ s0 s) (m : Master) (c : Ch) (v : Nat) (hs : Scope.within ⟨false, [.chans], [.pwr, .clk]⟩ σ) :
    Moves σ s0 (State.writePower s m c v) := by
  unfold State.writePower
  repeat' first
    | with_reducible assumption
    | intro _
    | with_reducible apply Moves.ite
    | with_reducible apply State.wr_moves
    | with_reducible apply State.requestPower_moves
    | with_reducible apply State.startGait_moves
    | with_reducible apply State.startWake_moves
    | assumption
    | dsimp only
    | split
    | with_reducible apply Moves.record
    | with_reducible rfl
    | exact hs.2.2 _ (by simp)
    | exact hs.2.1 _ (by decide +kernel)
    | exact Scope.within.trans (by decide +kernel) hs

theorem State.endLog_moves {s0 : State} {s : State} (h : Moves σ s0 s) (n : Nat) (hs : Scope.within ⟨false, [.out, .msix, .recorder], [.rpl]⟩ σ) :
    Moves σ s0 (State.endLog s n) := by
  unfold State.endLog
  repeat' first
    | with_reducible assumption
    | intro _
    | with_reducible apply Moves.ite
    | with_reducible apply State.logTo_moves
    | with_reducible apply State.modLog_moves
    | with_reducible apply State.setRec_moves
    | dsimp only
    | split
    | with_reducible apply Moves.record
    | with_reducible rfl
    | exact hs.2.2 _ (by simp)
    | exact hs.2.1 _ (by decide +kernel)
    | exact Scope.within.trans (by decide +kernel) hs

theorem State.writeRplCfg_moves {s0 : State} {s : State} (h : Moves σ s0 s) (v : Nat) (hs : Scope.within ⟨false, [.out, .msix, .recorder], [.rpl]⟩ σ) :
    Moves σ s0 (State.writeRplCfg s v) := by
  unfold State.writeRplCfg
  repeat' first
    | with_reducible assumption
    | intro _
    | with_reducible apply Moves.ite
    | with_reducible apply State.endLog_moves
    | with_reducible apply State.modLog_moves
    | with_reducible apply State.storeWord_moves
    | with_reducible apply Moves.fold
    | with_reducible apply Moves.foldPair
    | dsimp only
    | split
    | with_reducible apply Moves.record
    | with_reducible rfl
    | exact hs.2.2 _ (by simp)
    | exact hs.2.1 _ (by decide +kernel)
    | exact Scope.within.trans (by decide +kernel) hs

theorem State.writeRpl_moves {s0 : State} {s : State} (h : Moves σ s0 s) (m : Master) (off : Nat) (v : Nat) (hs : Scope.within ⟨true, [.out, .cycBase, .blocks, .msix, .mbx, .xlat, .shares, .dlm, .streams, .rehoming, .recorder, .chans], [.hif, .far, .hmmu, .strm, .dlm, .ctx, .rpl, .pwr, .clk, .ras, .hlk, .mbx, .grm, .cmmu, .wst, .ast, .tnd, .cvu, .hbmc, .ring, .eng, .door]⟩ σ) :
    Moves σ s0 (State.writeRpl s m off v) := by
  unfold State.writeRpl
  repeat' first
    | with_reducible assumption
    | with_reducible apply Moves.ite
    | with_reducible apply State.after_moves
    | with_reducible apply State.storeWord_moves
    | with_reducible apply State.writeRplCfg_moves
    | with_reducible apply execMark_moves
    | with_reducible apply execRplStop_moves
    | dsimp only
    | split
    | with_reducible apply Moves.record
    | with_reducible rfl
    | exact hs.2.2 _ (pageKind_mem _)
    | exact hs.2.1 _ (by decide +kernel)
    | exact Scope.within.trans (by decide +kernel) hs

theorem State.writeFrames_moves {s0 : State} {s : State} (h : Moves σ s0 s) (c : Ch) (v : Nat) (hs : Scope.within ⟨true, [.chans], [.grm, .ast]⟩ σ) :
    Moves σ s0 (State.writeFrames s c v) := by
  unfold State.writeFrames
  repeat' first
    | with_reducible assumption
    | intro _
    | with_reducible apply Moves.ite
    | with_reducible apply State.wr_moves
    | with_reducible apply State.modChan_moves
    | with_reducible apply State.storeWord_moves
    | exact StoresMove.changeOf (hs.1 rfl) (fun h => h) (fun h => Memory.lose_wf _ _ h) (fun h => h)
    | exact StoresMove.of_eq rfl rfl rfl
    | with_reducible exact Memory.lose_wf _ _ (by assumption)
    | dsimp only
    | split
    | with_reducible apply Moves.record
    | with_reducible rfl
    | exact hs.2.2 _ (by simp)
    | exact hs.2.1 _ (by decide +kernel)
    | exact Scope.within.trans (by decide +kernel) hs

theorem State.writeStage_moves {s0 : State} {s : State} (h : Moves σ s0 s) (c : Ch) (v : Nat) (hs : Scope.within ⟨true, [.chans], [.wst]⟩ σ) :
    Moves σ s0 (State.writeStage s c v) := by
  unfold State.writeStage
  repeat' first
    | with_reducible assumption
    | intro _
    | with_reducible apply Moves.ite
    | with_reducible apply State.modChan_moves
    | with_reducible apply State.storeWord_moves
    | exact StoresMove.changeOf (hs.1 rfl) (fun h => Memory.lose_wf _ _ h) (fun h => h) (fun h => h)
    | exact StoresMove.of_eq rfl rfl rfl
    | with_reducible exact Memory.lose_wf _ _ (by assumption)
    | dsimp only
    | split
    | with_reducible apply Moves.record
    | with_reducible rfl
    | exact hs.2.2 _ (by simp)
    | exact hs.2.1 _ (by decide +kernel)
    | exact Scope.within.trans (by decide +kernel) hs

theorem State.writeBlock_moves {s0 : State} {s : State} (h : Moves σ s0 s) (m : Master) (p : Page) (off : Nat) (v : Nat) (hs : Scope.within ⟨true, [.out, .dev, .cycBase, .blocks, .msix, .mbx, .ports, .xlat, .ctxs, .ctxSlots, .loads, .reliefInto, .shares, .dlm, .streams, .rehoming, .recorder, .chans], [.hif, .far, .hmmu, .strm, .dlm, .ctx, .rpl, .pwr, .clk, .ras, .hlk, .mbx, .grm, .cmmu, .wst, .ast, .tnd, .cvu, .hbmc, .ring, .eng, .door]⟩ σ) (hp2 : pageKind p ∈ σ.kinds) :
    Moves σ s0 (State.writeBlock s m p off v) := by
  unfold State.writeBlock
  repeat' first
    | with_reducible assumption
    | intro _
    | with_reducible apply Moves.ite
    | with_reducible apply State.ctxWindow_moves
    | with_reducible apply State.dlmWindow_moves
    | with_reducible apply State.storeWord_moves
    | with_reducible apply State.strmWindow_moves
    | with_reducible apply State.writeDoor_moves
    | with_reducible apply State.writeFrames_moves
    | with_reducible apply State.writeHlk_moves
    | with_reducible apply State.writeHmmu_moves
    | with_reducible apply State.writeMbx_moves
    | with_reducible apply State.writePower_moves
    | with_reducible apply State.writeRing_moves
    | with_reducible apply State.writeRpl_moves
    | with_reducible apply State.writeStage_moves
    | with_reducible apply State.writeWindow_moves
    | with_reducible refine Moves.fstOf (by with_reducible assumption) ?_
    | dsimp only
    | split
    | with_reducible apply Moves.record
    | with_reducible rfl
    | exact hs.2.2 _ (pageKind_mem _)
    | exact hs.2.1 _ (by decide +kernel)
    | exact Scope.within.trans (by decide +kernel) hs

theorem State.regWrite_moves {s0 : State} {s : State} (h : Moves σ s0 s) (m : Master) (p : Page) (off : Nat) (v : Nat) (hs : Scope.within ⟨true, [.out, .dev, .cycBase, .blocks, .msix, .mbx, .ports, .xlat, .ctxs, .ctxSlots, .loads, .reliefInto, .shares, .dlm, .streams, .rehoming, .recorder, .chans], [.hif, .far, .hmmu, .strm, .dlm, .ctx, .rpl, .pwr, .clk, .ras, .hlk, .mbx, .grm, .cmmu, .wst, .ast, .tnd, .cvu, .hbmc, .ring, .eng, .door]⟩ σ) (hp2 : pageKind p ∈ σ.kinds) :
    Moves σ s0 (State.regWrite s m p off v) := by
  unfold State.regWrite
  repeat' first
    | with_reducible assumption
    | with_reducible apply Moves.ite
    | with_reducible apply State.logWrite_moves
    | with_reducible apply State.writeBlock_moves
    | with_reducible apply State.writeDoor_moves
    | with_reducible apply State.writeHeader_moves
    | with_reducible refine Moves.fstOf (by with_reducible assumption) ?_
    | dsimp only
    | split
    | with_reducible apply Moves.record
    | with_reducible rfl
    | exact hs.2.2 _ (pageKind_mem _)
    | exact hs.2.1 _ (by decide +kernel)
    | exact Scope.within.trans (by decide +kernel) hs

theorem execRegisterWrite_moves {s0 : State} {s : State} (h : Moves σ s0 s) (m : Master) (a : BarAddr) (v : Word) (hs : Scope.within ⟨true, [.out, .dev, .cycBase, .blocks, .msix, .mbx, .ports, .xlat, .ctxs, .ctxSlots, .loads, .reliefInto, .shares, .dlm, .streams, .rehoming, .recorder, .chans], [.hif, .far, .hmmu, .strm, .dlm, .ctx, .rpl, .pwr, .clk, .ras, .hlk, .mbx, .grm, .cmmu, .wst, .ast, .tnd, .cvu, .hbmc, .ring, .eng, .door]⟩ σ) :
    MovesResult σ s0 (execRegisterWrite m a v s) := by
  unfold execRegisterWrite
  repeat' first
    | with_reducible assumption
    | intro _
    | with_reducible apply Moves.ite
    | with_reducible apply State.regWrite_moves
    | with_reducible apply MovesResult.live
    | with_reducible apply MovesResult.next
    | with_reducible refine Moves.fstOf (by with_reducible assumption) ?_
    | dsimp only
    | split
    | with_reducible apply Moves.record
    | with_reducible rfl
    | exact hs.2.2 _ (pageKind_mem _)

theorem State.regRead_moves {s0 : State} {s : State} (h : Moves σ s0 s) (m : Master) (p : Page) (off : Nat) (act : Nat → State) (hs : Scope.within ⟨false, [.out], []⟩ σ) (h_act : ∀ x0, Moves σ s0 (act x0)) :
    Moves σ s0 (State.regRead s m p off act) := by
  unfold State.regRead
  repeat' first
    | with_reducible assumption
    | with_reducible apply Moves.ite
    | with_reducible apply State.emit_moves
    | with_reducible apply h_act
    | dsimp only
    | split
    | with_reducible apply Moves.record
    | with_reducible rfl
    | exact hs.2.2 _ (by simp)
    | exact hs.2.1 _ (by decide +kernel)

theorem State.readHigh_moves {s0 : State} {s : State} (h : Moves σ s0 s) (m : Master) (p : Page) (off : Nat) (hs : Scope.within ⟨false, [.out, .holds], []⟩ σ) :
    Moves σ s0 (State.readHigh s m p off) := by
  unfold State.readHigh
  repeat' first
    | with_reducible assumption
    | with_reducible apply Moves.ite
    | with_reducible apply State.emit_moves
    | dsimp only
    | split
    | with_reducible apply Moves.record
    | with_reducible rfl
    | exact hs.2.2 _ (by simp)
    | exact hs.2.1 _ (by decide +kernel)
    | exact Scope.within.trans (by decide +kernel) hs
    | exact .inr (hs.2.1 _ (by decide +kernel))
    | with_reducible exact .inl rfl

theorem execRcFieldRead_moves {s0 : State} {s : State} (h : Moves σ s0 s) (m : Master) (a : BarAddr) (hs : Scope.within ⟨false, [.out, .holds], [.hif, .far, .hmmu, .strm, .dlm, .ctx, .rpl, .pwr, .clk, .ras, .hlk, .mbx, .grm, .cmmu, .wst, .ast, .tnd, .cvu, .hbmc, .ring, .eng, .door]⟩ σ) :
    MovesResult σ s0 (execRcFieldRead m a s) := by
  unfold execRcFieldRead
  repeat' first
    | with_reducible assumption
    | intro _
    | with_reducible apply Moves.ite
    | with_reducible apply State.setWord_moves
    | with_reducible apply State.readHigh_moves
    | with_reducible apply State.regRead_moves
    | with_reducible apply MovesResult.live
    | with_reducible apply MovesResult.next
    | with_reducible refine Moves.fstOf (by with_reducible assumption) ?_
    | dsimp only
    | split
    | with_reducible apply Moves.record
    | with_reducible rfl
    | exact hs.2.2 _ (pageKind_mem _)
    | exact hs.2.1 _ (by decide +kernel)
    | exact Scope.within.trans (by decide +kernel) hs

theorem execPairLoRead_moves {s0 : State} {s : State} (h : Moves σ s0 s) (m : Master) (a : BarAddr) (hs : Scope.within ⟨false, [.out, .holds], []⟩ σ) :
    MovesResult σ s0 (execPairLoRead m a s) := by
  unfold execPairLoRead
  repeat' first
    | with_reducible assumption
    | intro _
    | with_reducible apply Moves.ite
    | with_reducible apply State.regRead_moves
    | with_reducible apply MovesResult.live
    | with_reducible apply MovesResult.next
    | with_reducible refine Moves.fstOf (by with_reducible assumption) ?_
    | dsimp only
    | split
    | with_reducible apply Moves.record
    | with_reducible rfl
    | exact hs.2.2 _ (by simp)
    | exact hs.2.1 _ (by decide +kernel)
    | exact Scope.within.trans (by decide +kernel) hs
    | exact .inr (hs.2.1 _ (by decide +kernel))
    | with_reducible exact .inl rfl

theorem execSubwordWrite_moves {s0 : State} {s : State} (h : Moves σ s0 s) (a0_ : Master) (a1_ : BarAddr) (a2_ : Bool) (hs : Scope.within ⟨false, [], [.hif]⟩ σ) :
    MovesResult σ s0 (execSubwordWrite a0_ a1_ a2_ s) := by
  unfold execSubwordWrite
  repeat' first
    | with_reducible assumption
    | intro _
    | with_reducible apply Moves.ite
    | with_reducible apply State.bump_moves
    | with_reducible apply MovesResult.live
    | with_reducible apply MovesResult.next
    | dsimp only
    | split
    | with_reducible apply Moves.record
    | with_reducible rfl
    | exact hs.2.2 _ (by simp)

theorem execUnalignedAccess_moves {s0 : State} {s : State} (h : Moves σ s0 s) (m : Master) (a1_ : BarAddr) (write : Bool) (size : Nat) (hs : Scope.within ⟨false, [.out], [.hif]⟩ σ) :
    MovesResult σ s0 (execUnalignedAccess m a1_ write size s) := by
  unfold execUnalignedAccess
  repeat' first
    | with_reducible assumption
    | intro _
    | with_reducible apply Moves.ite
    | with_reducible apply State.bump_moves
    | with_reducible apply State.emit_moves
    | with_reducible apply MovesResult.live
    | with_reducible apply MovesResult.next
    | dsimp only
    | split
    | with_reducible apply Moves.record
    | with_reducible rfl
    | exact hs.2.2 _ (by simp)
    | exact hs.2.1 _ (by decide +kernel)

theorem State.sendPending_moves {s0 : State} {s : State} (h : Moves σ s0 s) (v : Nat) (hs : Scope.within ⟨false, [.out, .msix], []⟩ σ) :
    Moves σ s0 (State.sendPending s v) := by
  unfold State.sendPending
  repeat' first
    | with_reducible assumption
    | with_reducible apply Moves.ite
    | with_reducible apply State.emit_moves
    | dsimp only
    | split
    | with_reducible apply Moves.record
    | with_reducible rfl
    | exact hs.2.2 _ (by simp)
    | exact hs.2.1 _ (by decide +kernel)
    | exact Scope.within.trans (by decide +kernel) hs
    | exact .inr (hs.2.1 _ (by decide +kernel))
    | with_reducible exact .inl rfl

theorem execMsixUnmask_moves {s0 : State} {s : State} (h : Moves σ s0 s) (v : VectorMask) (hs : Scope.within ⟨false, [.out, .dev, .msix], []⟩ σ) :
    MovesResult σ s0 (execMsixUnmask v s) := by
  unfold execMsixUnmask
  repeat' first
    | with_reducible assumption
    | intro _
    | with_reducible apply Moves.ite
    | with_reducible apply State.modDev_moves
    | with_reducible apply State.sendPending_moves
    | with_reducible apply Moves.fold
    | with_reducible apply Moves.foldPair
    | with_reducible apply MovesResult.live
    | with_reducible apply MovesResult.next
    | with_reducible refine Moves.fstOf (by with_reducible assumption) ?_
    | dsimp only
    | split
    | with_reducible apply Moves.record
    | with_reducible rfl
    | exact hs.2.2 _ (by simp)
    | exact hs.2.1 _ (by decide +kernel)
    | exact Scope.within.trans (by decide +kernel) hs
    | exact .inr (hs.2.1 _ (by decide +kernel))
    | with_reducible exact .inl rfl

end Sys2Proof.Machine
end

