-- ==== Sys2Proof/Laws/MovesReplaying.lean ====
section
/-! SUPPORT. What the functions of Machine/Replaying.lean can do to a state: each keeps the queue and the
canonical form of the stores, only adds to the output and keeps the registers 32 bits wide (`Moves`). -/

set_option Elab.async false

namespace Sys2Proof.Machine
variable {σ : Scope}

theorem State.passed_moves {s0 : State} {s : State} (h : Moves σ s0 s) (r : LogRecord) (hs : Scope.within ⟨false, [.recorder], [.rpl]⟩ σ) :
    Moves σ s0 (State.passed s r) := by
  unfold State.passed
  repeat' first
    | with_reducible assumption
    | intro _
    | with_reducible apply Moves.ite
    | with_reducible apply State.wr_moves
    | with_reducible apply State.modRec_moves
    | with_reducible refine Moves.fstOf (by with_reducible assumption) ?_
    | dsimp only
    | split
    | with_reducible apply Moves.record
    | with_reducible rfl
    | exact hs.2.2 _ (by simp)
    | exact hs.2.1 _ (by decide +kernel)
    | exact Scope.within.trans (by decide +kernel) hs

theorem State.takeTails_moves {s0 s : State} (h : Moves σ s0 s) (fuel : Nat) (hs : Scope.within ⟨false, [.recorder, .chans], []⟩ σ) :
    Moves σ s0 (State.takeTails fuel s) := by
  induction fuel generalizing s with
  | zero => exact h
  | succ k ih =>
    unfold State.takeTails
    repeat' first
      | with_reducible assumption
      | intro _
      | with_reducible apply Moves.ite
      | with_reducible apply State.modChan_moves
      | with_reducible apply ih
      | with_reducible apply State.modRec_moves
      | with_reducible apply State.modRing_moves
      | exact StoresMove.of_eq rfl rfl rfl
      | with_reducible refine Moves.fstOf (by with_reducible assumption) ?_
      | dsimp only
      | split
      | with_reducible apply Moves.record
      | with_reducible rfl
      | exact hs.2.2 _ (by simp)
      | exact hs.2.1 _ (by decide +kernel)
      | exact Scope.within.trans (by decide +kernel) hs
      | exact .inr (hs.2.1 _ (by decide +kernel))
      | with_reducible exact .inl rfl
      | exact hs.1 rfl

theorem State.leaveTarget_moves {s0 s : State} (h : Moves σ s0 s) (n : Nat) (hs : Scope.within ⟨false, [.out, .msix, .xlat, .recorder, .chans], [.hmmu, .ctx, .rpl, .grm, .cmmu, .wst, .cvu, .hbmc, .ring, .eng, .door]⟩ σ) :
    Moves σ s0 (State.leaveTarget n s) := by
  induction n generalizing s with
  | zero => exact h
  | succ k ih =>
    unfold State.leaveTarget
    repeat' first
      | with_reducible assumption
      | with_reducible apply Moves.ite
      | with_reducible apply ih
      | with_reducible apply State.crossing_moves
      | dsimp only
      | split
      | with_reducible rfl
      | exact hs.2.2 _ (by simp)
      | exact hs.2.1 _ (by decide +kernel)
      | exact Scope.within.trans (by decide +kernel) hs
      | exact .inr (hs.2.1 _ (by decide +kernel))
      | with_reducible exact .inl rfl
      | exact hs.1 rfl

theorem State.runCross_moves {s0 : State} {s : State} (h : Moves σ s0 s) (q : Nat) (n : Nat) (d : Nat) (hs : Scope.within ⟨false, [.out, .msix, .xlat, .recorder, .chans], [.hmmu, .ctx, .rpl, .grm, .cmmu, .wst, .cvu, .hbmc, .ring, .eng, .door]⟩ σ) :
    Moves σ s0 (State.runCross s q n d).1 := by
  unfold State.runCross
  repeat' first
    | with_reducible assumption
    | intro _
    | with_reducible apply Moves.ite
    | with_reducible apply State.leaveTarget_moves
    | with_reducible apply State.modRec_moves
    | with_reducible apply State.takeTails_moves
    | with_reducible apply Moves.iteFst
    | dsimp only
    | split
    | with_reducible apply Moves.record
    | with_reducible rfl
    | exact hs.2.2 _ (by simp)
    | exact hs.2.1 _ (by decide +kernel)
    | exact Scope.within.trans (by decide +kernel) hs

theorem State.moveRecorded_moves {s0 : State} {s : State} (h : Moves σ s0 s) (v : Nat) (hs : Scope.within ⟨false, [.out, .msix, .ctxs, .ctxSlots], [.ctx]⟩ σ) :
    Moves σ s0 (State.moveRecorded s v).1 := by
  unfold State.moveRecorded
  repeat' first
    | with_reducible assumption
    | intro _
    | with_reducible apply Moves.ite
    | with_reducible apply State.startRestore_moves
    | with_reducible apply State.startSave_moves
    | with_reducible apply Moves.iteFst
    | with_reducible refine Moves.fstOf (by with_reducible assumption) ?_
    | dsimp only
    | split
    | with_reducible apply Moves.record
    | with_reducible rfl
    | exact hs.2.2 _ (by simp)
    | exact hs.2.1 _ (by decide +kernel)
    | exact Scope.within.trans (by decide +kernel) hs

theorem State.runDec_moves {s0 : State} {s : State} (h : Moves σ s0 s) (kind : Nat) (value : Nat) (hs : Scope.within ⟨false, [.out, .msix, .ctxs, .ctxSlots, .recorder, .chans], [.ctx, .pwr, .clk]⟩ σ) :
    Moves σ s0 (State.runDec s kind value).1 := by
  unfold State.runDec
  repeat' first
    | with_reducible assumption
    | intro _
    | with_reducible apply Moves.ite
    | with_reducible apply State.wr_moves
    | with_reducible apply State.modRec_moves
    | with_reducible apply State.moveRecorded_moves
    | with_reducible apply State.startGait_moves
    | with_reducible apply Moves.iteFst
    | dsimp only
    | split
    | with_reducible apply Moves.record
    | with_reducible rfl
    | exact hs.2.2 _ (by simp)
    | exact hs.2.1 _ (by decide +kernel)
    | exact Scope.within.trans (by decide +kernel) hs

theorem State.onTile_moves {s0 : State} {s : State} (h : Moves σ s0 s) (e : Nat) (name : Nat) (act : Nat → TileSlot → State) (hs : Scope.within ⟨false, [.out, .msix, .recorder], [.rpl]⟩ σ) (h_act : ∀ x0 x1, Moves σ s0 (act x0 x1)) :
    Moves σ s0 (State.onTile s e name act) := by
  unfold State.onTile
  repeat' first
    | with_reducible assumption
    | with_reducible apply Moves.ite
    | with_reducible apply h_act
    | with_reducible apply State.stopReplay_moves
    | with_reducible refine Moves.fstOf (by with_reducible assumption) ?_
    | dsimp only
    | split

theorem State.runMismatch_moves {s0 : State} {s : State} (h : Moves σ s0 s) (v : Nat) (hs : Scope.within ⟨false, [.out, .cycBase, .blocks, .msix, .xlat, .recorder, .chans], [.hmmu, .ctx, .rpl, .ras, .grm, .cmmu, .wst, .cvu, .hbmc, .ring, .eng, .door]⟩ σ) :
    Moves σ s0 (State.runMismatch s v) := by
  unfold State.runMismatch
  repeat' first
    | with_reducible assumption
    | intro _
    | with_reducible apply Moves.ite
    | with_reducible apply State.hold_moves
    | with_reducible apply State.holdDrain_moves
    | with_reducible apply State.modRec_moves
    | with_reducible apply State.modTile_moves
    | with_reducible apply State.onTile_moves
    | with_reducible refine Moves.fstOf (by with_reducible assumption) ?_
    | dsimp only
    | split
    | with_reducible apply Moves.record
    | with_reducible rfl
    | exact hs.2.2 _ (by simp)
    | exact hs.2.1 _ (by decide +kernel)
    | exact Scope.within.trans (by decide +kernel) hs

theorem State.runPoison_moves {s0 : State} {s : State} (h : Moves σ s0 s) (v : Nat) (hs : Scope.within ⟨false, [.out, .msix, .xlat, .streams, .recorder, .chans], [.hmmu, .ctx, .rpl, .grm, .cmmu, .wst, .cvu, .hbmc, .ring, .eng, .door]⟩ σ) :
    Moves σ s0 (State.runPoison s v) := by
  unfold State.runPoison
  repeat' first
    | with_reducible assumption
    | intro _
    | with_reducible apply Moves.ite
    | with_reducible apply State.modChan_moves
    | with_reducible apply State.copyEnd_moves
    | with_reducible apply State.cvuEnd_moves
    | with_reducible apply State.dismiss_moves
    | with_reducible apply State.loseTile_moves
    | with_reducible apply State.modStream_moves
    | with_reducible apply State.scanEnd_moves
    | with_reducible apply State.stateMap_moves
    | with_reducible apply State.stopReplay_moves
    | with_reducible exact Channel.putPage_stores _
    | exact StoresMove.of_eq rfl rfl rfl
    | with_reducible exact Memory.lose_wf _ _ (by assumption)
    | with_reducible exact Memory.put_wf _ _ (by assumption)
    | with_reducible apply Moves.elimSnd
    | with_reducible apply Moves.elim
    | with_reducible apply Moves.elimSndFst
    | with_reducible apply Moves.elimFst
    | with_reducible refine Moves.fstOf (by with_reducible assumption) ?_
    | dsimp only
    | split
    | with_reducible apply Moves.record
    | with_reducible rfl
    | exact hs.2.2 _ (by simp)
    | exact hs.2.1 _ (by decide +kernel)
    | exact Scope.within.trans (by decide +kernel) hs

theorem State.runTimeout_moves {s0 : State} {s : State} (h : Moves σ s0 s) (v : Nat) (hs : Scope.within ⟨false, [.out, .msix, .xlat, .dlm, .streams, .recorder, .chans], [.hmmu, .dlm, .rpl, .mbx, .cmmu, .ring, .door]⟩ σ) :
    Moves σ s0 (State.runTimeout s v) := by
  unfold State.runTimeout
  repeat' first
    | with_reducible assumption
    | intro _
    | with_reducible apply Moves.ite
    | with_reducible apply State.mailTimeout_moves
    | with_reducible apply State.stopReplay_moves
    | with_reducible apply State.waitEnds_moves
    | with_reducible apply Moves.elimSnd
    | with_reducible apply Moves.elim
    | with_reducible apply Moves.elimSndFst
    | with_reducible apply Moves.elimFst
    | dsimp only
    | split
    | with_reducible apply Moves.record
    | with_reducible rfl
    | exact hs.2.2 _ (by simp)
    | exact hs.2.1 _ (by decide +kernel)
    | exact Scope.within.trans (by decide +kernel) hs

theorem State.runPathLost_moves {s0 : State} {s : State} (h : Moves σ s0 s) (tag : Nat) (hs : Scope.within ⟨false, [.out, .msix, .xlat, .recorder, .chans], [.hmmu, .ctx, .rpl, .grm, .cmmu, .wst, .tnd, .cvu, .hbmc, .ring, .eng, .door]⟩ σ) :
    Moves σ s0 (State.runPathLost s tag) := by
  unfold State.runPathLost
  repeat' first
    | with_reducible assumption
    | with_reducible apply Moves.ite
    | with_reducible apply State.loseLanded_moves
    | with_reducible apply State.loseTile_moves
    | with_reducible apply State.stopReplay_moves
    | with_reducible exact Memory.lose_wf _ _ (by assumption)
    | with_reducible refine Moves.fstOf (by with_reducible assumption) ?_
    | dsimp only
    | split
    | with_reducible apply Moves.record
    | with_reducible rfl
    | exact hs.2.2 _ (by simp)
    | exact hs.2.1 _ (by decide +kernel)
    | exact Scope.within.trans (by decide +kernel) hs

theorem State.runStrike_moves {s0 : State} {s : State} (h : Moves σ s0 s) (v : Nat) (hs : Scope.within ⟨false, [.recorder], []⟩ σ) :
    Moves σ s0 (State.runStrike s v) := by
  unfold State.runStrike
  repeat' first
    | with_reducible assumption
    | intro _
    | with_reducible apply Moves.ite
    | with_reducible apply State.modRec_moves

theorem State.runOut_moves {s0 : State} {s : State} (h : Moves σ s0 s) (kind : Nat) (v : Nat) (hs : Scope.within ⟨false, [.out, .cycBase, .blocks, .msix, .xlat, .dlm, .streams, .recorder, .chans], [.hmmu, .dlm, .ctx, .rpl, .ras, .mbx, .grm, .cmmu, .wst, .tnd, .cvu, .hbmc, .ring, .eng, .door]⟩ σ) :
    Moves σ s0 (State.runOut s kind v) := by
  unfold State.runOut
  repeat' first
    | with_reducible assumption
    | intro _
    | with_reducible apply Moves.ite
    | with_reducible apply State.onTile_moves
    | with_reducible apply State.reissue_moves
    | with_reducible apply State.runMismatch_moves
    | with_reducible apply State.runPathLost_moves
    | with_reducible apply State.runPoison_moves
    | with_reducible apply State.runStrike_moves
    | with_reducible apply State.runTimeout_moves
    | with_reducible apply State.stopReplay_moves
    | with_reducible refine Moves.fstOf (by with_reducible assumption) ?_
    | dsimp only
    | split
    | with_reducible apply Moves.record
    | with_reducible rfl
    | exact hs.2.2 _ (by simp)
    | exact hs.2.1 _ (by decide +kernel)
    | exact Scope.within.trans (by decide +kernel) hs

theorem State.runWrite_moves {s0 : State} {s : State} (h : Moves σ s0 s) (o : Nat) (v : Nat) (hs : Scope.within ⟨true, [.out, .dev, .cycBase, .blocks, .msix, .mbx, .ports, .xlat, .ctxs, .ctxSlots, .loads, .reliefInto, .shares, .dlm, .streams, .rehoming, .recorder, .chans], [.hif, .far, .hmmu, .strm, .dlm, .ctx, .rpl, .pwr, .clk, .ras, .hlk, .mbx, .grm, .cmmu, .wst, .ast, .tnd, .cvu, .hbmc, .ring, .eng, .door]⟩ σ) :
    Moves σ s0 (State.runWrite s o v) := by
  unfold State.runWrite
  repeat' first
    | with_reducible assumption
    | intro _
    | with_reducible apply Moves.ite
    | with_reducible apply State.modRec_moves
    | with_reducible apply State.regWrite_moves
    | with_reducible apply State.takeTails_moves
    | with_reducible refine Moves.fstOf (by with_reducible assumption) ?_
    | dsimp only
    | split
    | with_reducible apply Moves.record
    | with_reducible rfl
    | exact hs.2.2 _ (pageKind_mem _)
    | exact hs.2.1 _ (by decide +kernel)
    | exact Scope.within.trans (by decide +kernel) hs

theorem State.runDescriptor_moves {s0 : State} {s : State} (h : Moves σ s0 s) (bs : List Byte) (hs : Scope.within ⟨false, [.dlm, .recorder, .chans], [.ctx, .door]⟩ σ) :
    Moves σ s0 (State.runDescriptor s bs).1 := by
  unfold State.runDescriptor
  repeat' first
    | with_reducible assumption
    | intro _
    | with_reducible apply Moves.ite
    | with_reducible apply State.modRec_moves
    | with_reducible apply State.modRing_moves
    | with_reducible apply State.takeCommand_moves
    | with_reducible apply Moves.iteFst
    | with_reducible refine Moves.fstOf (by with_reducible assumption) ?_
    | dsimp only
    | split
    | with_reducible apply Moves.record
    | with_reducible rfl
    | exact hs.2.2 _ (by simp)
    | exact hs.2.1 _ (by decide +kernel)
    | exact Scope.within.trans (by decide +kernel) hs

theorem State.runBlock_moves {s0 : State} {s : State} (h : Moves σ s0 s) (bs : List Byte) (hs : Scope.within ⟨false, [.out, .msix, .xlat, .recorder, .chans], [.hmmu, .ctx, .rpl, .grm, .cmmu, .wst, .cvu, .hbmc, .ring, .eng, .door]⟩ σ) :
    Moves σ s0 (State.runBlock s bs) := by
  unfold State.runBlock
  repeat' first
    | with_reducible assumption
    | intro _
    | with_reducible apply Moves.ite
    | with_reducible apply State.modChan_moves
    | with_reducible apply Reading.block_moves
    | with_reducible apply State.modRec_moves
    | exact StoresMove.of_eq rfl rfl rfl
    | dsimp only
    | split
    | with_reducible apply Moves.record
    | with_reducible rfl
    | exact hs.2.2 _ (by simp)
    | exact hs.2.1 _ (by decide +kernel)
    | exact Scope.within.trans (by decide +kernel) hs

theorem State.runMessage_moves {s0 : State} {s : State} (h : Moves σ s0 s) (bs : List Byte) (hs : Scope.within ⟨false, [.out, .msix, .mbx, .ports, .recorder], [.rpl, .mbx]⟩ σ) :
    Moves σ s0 (State.runMessage s bs) := by
  unfold State.runMessage
  repeat' first
    | with_reducible assumption
    | intro _
    | with_reducible apply Moves.ite
    | with_reducible apply State.acceptSend_moves
    | with_reducible apply State.modRec_moves
    | dsimp only
    | split
    | with_reducible apply Moves.record
    | with_reducible rfl
    | exact hs.2.2 _ (by simp)
    | exact hs.2.1 _ (by decide +kernel)
    | exact Scope.within.trans (by decide +kernel) hs

theorem State.runInput_moves {s0 : State} {s : State} (h : Moves σ s0 s) (kind : Nat) (data : Bool) (crc : Nat) (bs : List Byte) (hs : Scope.within ⟨false, [.out, .msix, .mbx, .ports, .xlat, .dlm, .recorder, .chans], [.hmmu, .ctx, .rpl, .mbx, .grm, .cmmu, .wst, .cvu, .hbmc, .ring, .eng, .door]⟩ σ) :
    Moves σ s0 (State.runInput s kind data crc bs).1 := by
  unfold State.runInput
  repeat' first
    | with_reducible assumption
    | intro _
    | with_reducible apply Moves.ite
    | with_reducible apply State.modRec_moves
    | with_reducible apply State.runBlock_moves
    | with_reducible apply State.runDescriptor_moves
    | with_reducible apply State.runMessage_moves
    | with_reducible apply State.stopReplay_moves
    | with_reducible apply Moves.iteFst
    | dsimp only
    | split
    | with_reducible apply Moves.record
    | with_reducible rfl
    | exact hs.2.2 _ (by simp)
    | exact hs.2.1 _ (by decide +kernel)
    | exact Scope.within.trans (by decide +kernel) hs

theorem State.runFragment_moves {s0 : State} {s : State} (h : Moves σ s0 s) (kind : Nat) (data : Bool) (last : Bool) (crc : Nat) (payload : List Byte) (hs : Scope.within ⟨false, [.out, .msix, .mbx, .ports, .xlat, .dlm, .recorder, .chans], [.hmmu, .ctx, .rpl, .mbx, .grm, .cmmu, .wst, .cvu, .hbmc, .ring, .eng, .door]⟩ σ) :
    Moves σ s0 (State.runFragment s kind data last crc payload).1 := by
  unfold State.runFragment
  repeat' first
    | with_reducible assumption
    | intro _
    | with_reducible apply Moves.ite
    | with_reducible apply State.modRec_moves
    | with_reducible apply State.runInput_moves
    | with_reducible apply Moves.iteFst
    | dsimp only
    | split
    | with_reducible apply Moves.record
    | with_reducible rfl
    | exact hs.2.2 _ (by simp)
    | exact hs.2.1 _ (by decide +kernel)
    | exact Scope.within.trans (by decide +kernel) hs

theorem State.runRecord_moves {s0 : State} {s : State} (h : Moves σ s0 s) (b : RecBody) (hs : Scope.within ⟨true, [.out, .dev, .cycBase, .blocks, .msix, .mbx, .ports, .xlat, .ctxs, .ctxSlots, .loads, .reliefInto, .shares, .dlm, .streams, .rehoming, .recorder, .chans], [.hif, .far, .hmmu, .strm, .dlm, .ctx, .rpl, .pwr, .clk, .ras, .hlk, .mbx, .grm, .cmmu, .wst, .ast, .tnd, .cvu, .hbmc, .ring, .eng, .door]⟩ σ) :
    Moves σ s0 (State.runRecord s b).1 := by
  unfold State.runRecord
  repeat' first
    | with_reducible assumption
    | intro _
    | with_reducible apply Moves.ite
    | with_reducible apply State.endReplay_moves
    | with_reducible apply State.matchCpl_moves
    | with_reducible apply State.modRec_moves
    | with_reducible apply State.runCross_moves
    | with_reducible apply State.runDec_moves
    | with_reducible apply State.runFragment_moves
    | with_reducible apply State.runOut_moves
    | with_reducible apply State.runWrite_moves
    | with_reducible apply State.stopReplay_moves
    | with_reducible apply Moves.iteFst
    | with_reducible refine Moves.fstOf (by with_reducible assumption) ?_
    | dsimp only
    | split
    | with_reducible apply Moves.record
    | with_reducible rfl
    | exact hs.2.2 _ (pageKind_mem _)
    | exact hs.2.1 _ (by decide +kernel)
    | exact Scope.within.trans (by decide +kernel) hs

theorem execReplayRecord_moves {s0 : State} {s : State} (h : Moves σ s0 s) (r : LogRecord) (hs : Scope.within ⟨true, [.out, .dev, .cycBase, .blocks, .msix, .mbx, .ports, .xlat, .ctxs, .ctxSlots, .loads, .reliefInto, .shares, .dlm, .streams, .rehoming, .recorder, .chans], [.hif, .far, .hmmu, .strm, .dlm, .ctx, .rpl, .pwr, .clk, .ras, .hlk, .mbx, .grm, .cmmu, .wst, .ast, .tnd, .cvu, .hbmc, .ring, .eng, .door]⟩ σ) :
    MovesResult σ s0 (execReplayRecord r s) := by
  unfold execReplayRecord
  repeat' first
    | with_reducible assumption
    | intro _
    | with_reducible apply Moves.ite
    | with_reducible apply State.passed_moves
    | with_reducible apply State.reachAll_moves
    | with_reducible apply State.runRecord_moves
    | with_reducible apply State.stopReplay_moves
    | with_reducible apply MovesResult.live
    | with_reducible apply MovesResult.next
    | with_reducible refine Moves.fstOf (by with_reducible assumption) ?_
    | dsimp only
    | split
    | with_reducible apply Moves.record
    | with_reducible rfl
    | exact hs.2.2 _ (pageKind_mem _)
    | exact hs.2.1 _ (by decide +kernel)
    | exact Scope.within.trans (by decide +kernel) hs

end Sys2Proof.Machine
end

