-- ==== Sys2Proof/Tests/Slice0.lean ====
section
/-!
SUPPORT. Tests: ill-formed commands that the checks refuse, the worked examples of the spec, and for every statement
with hypotheses a state and operands that meet them together, at the bounds of its clauses.
-/

set_option Elab.async false

open Sys2Proof Sys2Proof.Machine

namespace Sys2Proof.Tests

/-- A card that has started: the main domain runs, and channel 0 is READY with its clock locked and its blocks ON. -/
def up : State :=
  let s := ((State.reset.modDev fun d => { d with mainRuns := true }).wr .far Reg.farBoot_STEP stepRunning)
  ((s.wr .hif (readyFld 0) chReady).wr .clk (Reg.clkArith_LOCKED 0) 1).setBlk (.grm 0) blkOn

def yes (p : State → Bool) (r : Result) : Bool := match r with
  | .next t => p t
  | .fault _ => false
  | .refused _ => false

def barOf (p : Page) (off : Nat) : BarAddr := BitVec.ofNat _ (pageAddr p off)

/-! ## Ill-formed commands are refused -/

theorem test_wf_addresses : (Instr.registerWrite .host 2 0).wf = false ∧ (Instr.rcFieldRead .host 1).wf = false ∧
    (Instr.pairLoRead .host 3).wf = false ∧ (Instr.lockReadAcquire .host 0x41).wf = false ∧
    (Instr.lockRelease .host 0x42).wf = false ∧ (Instr.lockForce .farrier 0x43).wf = false ∧
    (Instr.subwordWrite .host 5 true).wf = false ∧ (Instr.unalignedAccess .host 5 true 3).wf = false ∧
    (Instr.unalignedAccess .host 8 true 8).wf = false := by decide

theorem test_wf_accepts : (Instr.registerWrite .host 4 0).wf = true ∧ (Instr.subwordWrite .host 5 false).wf = true ∧
    (Instr.unalignedAccess .host 12 false 8).wf = true ∧ (Instr.retestDone 0 5 true []).wf = true := by decide

theorem test_wf_lists : (Instr.replay .host 0 []).wf = false ∧ (Instr.firmwareData [] false true 0).wf = false ∧
    (Instr.engineCheckDone 0 [5, 5]).wf = false ∧ (Instr.retestDone 0 5 false []).wf = false ∧
    (Instr.channelRetire 0 0).wf = false ∧ (Instr.channelRetire 0 8).wf = false := by decide

theorem test_wf_rows : (Instr.hbmRowRepair 0 (.hbm (36 * 2 ^ 20) true)).wf = false ∧
    (Instr.hbmRowRepair 0 (.stall (64 * 5120))).wf = false ∧ (Instr.hbmRowRepair 0 (.ast (64 * 1024))).wf = false ∧
    (Instr.softPprDone 0 (36 * 2 ^ 20) true).wf = false ∧ (Instr.hbmRowRepair 0 (.stall (64 * 5120 - 1))).wf = true := by
  decide +kernel

/-- A flit that carries a block, of which one field is not well formed. -/
def flitOf (ft : BitVec 4) (len : Byte) (b : FlitBody) : Flit :=
  { ftype := ft, vc := 1, som := true, fseq := 0, ack := 0, crvc := 0, crcnt := 0, len := len, eom := true, body := b }
def blockFlit (h : BlockHdr) (vs : List Nat) : Instr := .flitReceive 0 (flitOf 1 1 (.block ⟨h, vs⟩)) .good 0

def goodHdr : BlockHdr :=
  { tag := 5, dtile := 0, dctx := 1, dch := 0, cls := 3, block := 7, kind := 2, tkind := 0, longsum := false
    fallback := false, retries := 0, guardDenied := false, cause := 4, pbase := 0, sslot := 71, sch := 0, sepoch := 15 }

theorem test_wf_flits : (Instr.flitReceive 0 (flitOf 1 241 .part) .good 0).wf = false ∧
    (Instr.flitReceive 0 (flitOf 0 1 .none) .good 0).wf = false ∧ (Instr.flitReceive 0 (flitOf 2 0 .part) .good 0).wf = false ∧
    (blockFlit goodHdr []).wf = true ∧ (blockFlit goodHdr [0]).wf = false ∧
    (blockFlit { goodHdr with kind := 0, cause := 0 } [0]).wf = false ∧
    (blockFlit { goodHdr with kind := 1, cause := 0 } [2 ^ 40]).wf = false := by decide +kernel

theorem test_wf_headers : ∀ h ∈ [{ goodHdr with tag := 2 ^ 16 }, { goodHdr with dtile := 2 ^ 16 }, { goodHdr with dctx := 256 },
    { goodHdr with dch := 4 }, { goodHdr with cls := 4 }, { goodHdr with block := 8 }, { goodHdr with kind := 3 },
    { goodHdr with tkind := 2 }, { goodHdr with retries := 4 }, { goodHdr with cause := 256 },
    { goodHdr with kind := 0 }, { goodHdr with pbase := 2 ^ 16 }, { goodHdr with sslot := 72 }, { goodHdr with sch := 4 },
    { goodHdr with sepoch := 16 }], h.wf = false := by decide

theorem test_wf_records : ∀ r ∈ [(⟨3, 0, .fin⟩ : LogRecord), ⟨12, 0, .fin⟩, ⟨32, 0, .fin⟩, ⟨1, 2 ^ 32, .fin⟩,
    ⟨1, 0, .mark 0 4 (List.replicate 16 0)⟩, ⟨1, 0, .mark 0 0 []⟩, ⟨1, 0, .cross (2 ^ 16) 0 0⟩, ⟨1, 0, .dec 256 0⟩,
    ⟨1, 0, .out 0 (2 ^ 56)⟩, ⟨1, 0, .inReg (2 ^ 24) 0⟩, ⟨1, 0, .inData 5 true true 0 0 []⟩, ⟨1, 0, .cpl 0 0 16 0⟩,
    ⟨1, 0, .gap (2 ^ 32)⟩, ⟨1, 0, .div 256 0⟩], (Instr.replayRecord r).wf = false := by decide +kernel

/-! ## The worked examples of the spec -/

/-- Chapter 0: ENG_CYC_LO of CH1.E12 lies at 0x0190_C030; chapter 21: E23 and E64 of CH2 at 0x0211_7000 and 0x0214_0000,
with their BLK_ID. -/
theorem test_example_pages : pageAddr (.eng 1 12) 0x30 = 0x190c030 ∧ pageAddr (.eng 2 23) 0 = 0x2117000 ∧
    pageAddr (.eng 2 64) 0 = 0x2140000 ∧ resetWord (.eng 2 23) 0 = 0x5e761728 ∧ resetWord (.eng 2 64) 0 = 0x5e764028 ∧
    placeOf (0x190c030 : BarAddr) = some (.eng 1 12, 0x30) := by decide +kernel

/-- Chapter 2: the byte 167 holds the weights +1, 0, −1, −1 and +1, in the cell codes 01, 00, 11, 11 and 01; a byte above 242
holds five zeros (R45). -/
theorem test_example_trits : (List.range 5).map (tritCode 167) = [1, 0, 3, 3, 1] ∧
    (List.range 5).map (tritCode 243) = [0, 0, 0, 0, 0] ∧ (List.range 5).map (tritCode 242) = [1, 1, 1, 1, 1] := by decide

/-- Chapter 2: under BASE −56 and F = 3 the byte 0xC8 is −2^−2.5, here in units of 2^-22 octave; and the special bytes. -/
theorem test_example_activation : decodeL8 { base := 0xffc8, fsel := 1 } 0xc8 = .fin true (-5 * 2 ^ 21) ∧
    decodeL8 {} 0x00 = .zero ∧ decodeL8 {} 0x80 = .indef ∧ decodeL8 {} 0x7f = .inf false ∧ decodeL8 {} 0xff = .inf true := by
  decide

/-- Chapter 2: a segment slot of CB32 L8 takes 2,080 bytes, and the 1,296 positions of a block take 21 of them. -/
theorem test_example_segments : segBytes fmtL8 1 = 2080 ∧ segOffset fmtL8 1 1296 1 0 = 21 * 2080 := by decide

/-- Chapter 10: the states of the shot that cuts at step 5; h_5 = 1.25 and h_7 = 0.6875, to the nearest 2^-22 octave. -/
theorem test_example_scan :
    (let v (b : Nat) : LVal := decodeL8 { base := 0, fsel := 1 } b;
      let h := scanElement 4 (2 ^ 5) (v 0x40) (v 0x48) (List.replicate 16 (v 0x38)) (List.replicate 16 (v 0x30));
      (h.getD 0 .zero, h.getD 5 .zero, h.getD 7 .zero, h.getD 15 .zero) =
        (.fin false (-1740793), .fin false 1350264, .fin false (-2267308), .fin false (-4185446))) := by decide +kernel

/-- R60, R61: the encodings of the special totals. -/
theorem test_totals : encodeTotal (.int (.inf false)) = 0x7fffffffff ∧ encodeTotal (.int (.inf true)) = 0x8000000001 ∧
    encodeTotal (.int .indef) = 0x8000000000 ∧ encodeTotal (.lns .zero) = 0x40000000 ∧ encodeTotal (.lns .indef) = 0xc0000000 := by
  decide

/-- The constants of the log domain are the roots of two, rounded down: the square of each is the one before it. -/
theorem test_rootsOfTwo : rootsOfTwo.length = 40 ∧
    ((2 ^ 129 :: rootsOfTwo).zip rootsOfTwo).all (fun x => x.2 * x.2 ≤ x.1 * 2 ^ 128 + 2 ^ 130 && x.1 * 2 ^ 128 ≤ (x.2 + 1) * (x.2 + 1)) = true := by
  decide +kernel

/-- Chapter 0: a new event beside a write of 1 leaves the bit set, as a queued write comes first (R15). -/
theorem test_example_collision : yes (fun t => t.rd (.eng 0 7) Reg.intRaw_RAW = 0 &&
      (t.raise (.eng 0 7) 0).rd (.eng 0 7) Reg.intRaw_RAW = 1)
    (exec (.registerWrite .host (barOf (.eng 0 7) 0x10) 1) (up.raise (.eng 0 7) 0)) = true := by decide +kernel

/-- Chapter 0: a read of ENG_CYC_LO captures the upper half 2, which the next read of ENG_CYC_HI returns though the counter
has gone on to 3. -/
def afterLow (s : State) : State := match exec (.pairLoRead .host (barOf (.eng 0 12) 0x30)) s with
  | .next t => t
  | .fault _ => s
  | .refused _ => s

theorem test_example_pair : yes (fun t => t.out = [.read .host 0xfffffff0, .read .host 2])
    (exec (.rcFieldRead .host (barOf (.eng 0 12) 0x34))
      { afterLow { up with cycles := [(domArith 0, 0x2fffffff0)] } with cycles := [(domArith 0, 0x300000000)] }) = true := by
  decide +kernel

/-- No word spells a command: no row of the opcode table has bits. -/
theorem test_decode (nbits w : Nat) : decodeTableWord nbits w = none := rfl

/-! ## Witnesses of the statements' hypotheses -/

theorem test_StepRunsFront : ({ up with pending := [.invalidationComplete] } : State).pending = [.invalidationComplete] := by
  decide +kernel

theorem test_IdleStepPassesTime : up.pending = [] ∧ up.clockRuns 0 = true := by decide +kernel

theorem test_WithoutPowerNothingActs : (up.modDev fun d => { d with powered := false }).dev.powered = false ∧
    ∀ p, Instr.invalidationComplete ≠ .powerOn p := by
  exact ⟨rfl, fun _ h => by cases h⟩

/-- A command answers a next state, as the statements about every next state suppose. -/
theorem test_exec_next : up.dev.powered = true ∧ ∃ t, exec .invalidationComplete up = .next t := by
  exact ⟨rfl, _, rfl⟩

theorem test_StepKeepsStoresAndRegisters : (State.reset.storesWf ∧ State.reset.regsWf) ∧
    ∃ t, step State.reset = .next t := by
  refine ⟨⟨fun c => ?_, ?_⟩, ⟨_, rfl⟩⟩
  · exact ⟨by unfold Memory.wf; exact ⟨List.Pairwise.nil, fun _ h => absurd h (List.not_mem_nil)⟩,
      by unfold Memory.wf; exact ⟨List.Pairwise.nil, fun _ h => absurd h (List.not_mem_nil)⟩,
      by unfold Memory.wf; exact ⟨List.Pairwise.nil, fun _ h => absurd h (List.not_mem_nil)⟩⟩
  · exact ⟨List.Pairwise.nil, fun _ h => absurd h (List.not_mem_nil)⟩

/-! ### Locks and mailboxes -/

theorem test_LockReadAcquire : up.dev.powered = true ∧ placeOf (barOf .ctx 0x40) = some (.ctx, 0x40) ∧
    lockAt? 0x40 = some 0 ∧ up.reaches .host .ctx = true := by decide +kernel

/-- The last lock of a page that another master holds. -/
theorem test_LockReadAcquire_held : placeOf (barOf (.hbmc 0) 0x4c) = some (.hbmc 0, 0x4c) ∧ lockAt? 0x4c = some 3 ∧
    (up.wr (.hbmc 0) (Reg.lock_OWNER 3) 2).reaches .farrier (.hbmc 0) = true := by decide +kernel

def locked : State := up.wr .ctx (Reg.lock_OWNER 0) (masterTag .host)

theorem test_LockRelease : locked.dev.powered = true ∧ placeOf (barOf .ctx 0x40) = some (.ctx, 0x40) ∧
    lockAt? 0x40 = some 0 ∧ locked.writable .host .ctx 0x40 = true ∧ locked.lockOwner .ctx 0 = masterTag .host := by
  decide +kernel

theorem test_LockForce : locked.writable .farrier .ctx 0x40 = true ∧ (∀ c r, Page.ctx ≠ .door c r) ∧
    Master.host ≠ .farrier := by decide +kernel

theorem test_LockOtherWrite : placeOf (barOf .ctx 0x4c) = some (.ctx, 0x4c) ∧ lockAt? 0x4c = some 3 ∧
    (0x80000000 : Word).toNat ≠ 0 ∧ (Master.host = .farrier → (0x80000000 : Word).toNat < 2 ^ 31) := by
  exact ⟨by decide +kernel, by decide, by decide, fun h => by cases h⟩

def filled (b : MbxId) : State := up.modSlot b fun _ => { full := true, read := false, seq := 5 }

theorem regsWf_of (s : State) (h : decide (s.regs.Pairwise (fun a b => a.1 < b.1) ∧ ∀ r ∈ s.regs, r.2 < 2 ^ 32) = true) :
    s.regsWf := by
  have := of_decide_eq_true h
  exact this

theorem up_regsWf : up.regsWf := regsWf_of up (by decide +kernel)

theorem test_SendsAcceptedWhenEmpty : up.dev.powered = true ∧ up.regsWf ∧
    (up.writable .farrier (.mbx 1) 0x140 = true ∧ up.mailWaits 1 = false ∧ (up.slot 1).full = false) ∧
    (up.writable .host (.mbx 0) 0x144 = true ∧ up.mailWaits 0 = false ∧ (up.slot 0).full = false) ∧
    ((1 : Word).toNat % 2 = 1 ∧ up.mainUp = true ∧ (up.slot hfBox).full = false) :=
  ⟨by decide, up_regsWf, by decide +kernel, by decide +kernel, by decide +kernel⟩

theorem test_SendsRejectedWhenFull :
    (Master.groom 2 ≠ .host ∧ (filled 8).writable (.groom 2) (.mbx 8) 0x140 = true ∧ (filled 8).mailWaits 8 = false ∧
      ((filled 8).slot 8).full = true) ∧
    ((filled 0).writable .host (.mbx 0) 0x140 = true ∧ (filled 0).mailWaits 0 = false ∧ ((filled 0).slot 0).full = true) ∧
    (filled 0).writable .host (.mbx 0) 0x144 = true ∧ (filled 0).mainUp = true ∧ ((filled 0).slot hfBox).full = true := by
  decide +kernel

theorem test_ReceiverReadsMessage : (filled 9).reaches .farrier (.mbx 9) = true ∧ Master.farrier = mbxReceiver 9 ∧
    isPo 9 = false ∧ ((filled 9).slot 9).full = true ∧ (9 : MbxId) ≠ fhBox ∧ Master.host ≠ mbxReceiver 9 := by
  decide +kernel

/-- A mailbox in ACKED mode holds a message. -/
def ackedBox : State := (filled 0).wr (.mbx 0) Reg.mbxCfg_MODE 1

theorem test_MessagesAcknowledgedCancelledTimedOut : ackedBox.dev.powered = true ∧ (ackedBox.slot 0).full = true ∧
    isPo 0 = false ∧ (ackedBox.writable .farrier (.mbx 0) 0x1c4 = true ∧ ackedBox.acked 0 = true ∧ isPi 0 = false ∧
      (0 : MbxId) ≠ fhBox) ∧
    (ackedBox.writable .host (.mbx 0) 0x148 = true ∧ (1 : Word).toNat % 2 = 1 ∧ (ackedBox.slot 0).read = false) ∧
    ackedBox.rd (.mbx 0) Reg.mbxCfg_TMO ≠ 0 ∧ ackedBox.timerOff 0 = false := by decide +kernel

theorem test_UnsupportedAtomicop : up.dev.powered = true ∧ up.mainUp = true := by decide +kernel

/-- Port 15 is UP, with a peer. -/
def linked : State := up.wr (.hlk 15) Reg.hlkStat_LINK linkUpCode

theorem test_PeerMailboxesAndLocks : linked.dev.powered = true ∧ linked.linkUp 15 = true ∧
    (linked.slot (piBox 15)).full = false ∧ linked.flag (.hlk 15) Reg.hlkRlock_BUSY = false ∧
    hubPage? (0x69 : BitVec 12).toNat = some (.mbx 41) ∧
    (linked.wr (.hlk 15) Reg.hlkRlock_BUSY 1).flag (.hlk 15) Reg.hlkRlock_BUSY = true := by decide +kernel

/-! ### Registers, MSI-X and blocks -/

theorem test_RegisterWriteByAccessCode : up.dev.powered = true ∧
    (placeOf (barOf .clk 0xffc) = some (.clk, 0xffc) ∧ fieldsAt .clk 0xffc = []) ∧
    (placeOf (barOf (.cvu 0) 0x100) = some (.cvu 0, 0x100) ∧ 0x100 ≤ 0x100 ∧ 0x100 % 4 = 0 ∧
      fieldsAt (.cvu 0) 0x100 ≠ [] ∧ up.writable .host (.cvu 0) 0x100 = true) ∧ PlainPage (.cvu 0) := by
  exact ⟨by decide, by decide +kernel, by decide +kernel, trivial⟩

theorem test_ReadRestoresRcFields : placeOf (barOf .hif 0x108) = some (.hif, 0x108) ∧ 0x100 ≤ 0x108 ∧
    isPairLo .hif (0x108 - 4) = false ∧ (∃ f ∈ fieldsAt .hif 0x108, f.access = .rc) ∧ up.reaches .host .hif = true := by decide +kernel

theorem test_PairReadCapturesHigh : placeOf (barOf (.eng 0 71) 0x30) = some (.eng 0 71, 0x30) ∧
    isPairLo (.eng 0 71) 0x30 = true ∧ up.reaches .host (.eng 0 71) = true ∧
    placeOf (barOf (.eng 0 71) 0x34) = some (.eng 0 71, 0x30 + 4) := by decide +kernel

theorem test_OddSizedAccesses : up.dev.powered = true ∧ up.mainUp = true := by decide +kernel

/-- Vector 2047 is open, and the others are masked. -/
def vectors : State := { up with msix := [(2047, { masked := false })] }

theorem test_MaskedVectorsWait : (Tab.get {} vectors.msix 0).masked = true ∧
    (Tab.get {} vectors.msix 2047).masked = false ∧ vectors.dev.functionMask = false := by decide +kernel

theorem test_MsixUnmask : vectors.dev.powered = true ∧ vectors.mainUp = true ∧ vectors.dev.functionMask = false := by
  decide +kernel

/-- An engine's page in a state of its block. -/
def blockIn (st : Nat) : State := up.setBlk (.eng 0 71) st

theorem test_EnableSet : up.dev.powered = true ∧ (blockIn blkOff).writable .farrier (.eng 0 71) 8 = true ∧
    (blockIn blkOff).blk (.eng 0 71) = blkOff ∧ (blockIn blkStopping).blk (.eng 0 71) = blkStopping := by decide +kernel

theorem test_EnableClear : (blockIn blkOn).writable (.groom 0) (.eng 0 71) 8 = true ∧ NotPort (.eng 0 71) ∧
    (blockIn blkStopping).blk (.eng 0 71) = blkStopping ∧ (blockIn blkStarting).blk (.eng 0 71) = blkStarting := by
  exact ⟨by decide +kernel, (by intro _ h; cases h), by decide +kernel, by decide +kernel⟩

theorem test_BlockStartStep : (blockIn blkStarting).blk (.eng 0 71) = blkStarting ∧
    (blockIn blkStarting).mayStart (.eng 0 71) = true ∧ ((blockIn blkStarting).blockRun (.eng 0 71)).ended = false ∧
    (((blockIn blkStarting).setBlockRun (.eng 0 71) { steps := 7, ended := true }).blockRun (.eng 0 71)).ended = true := by
  decide +kernel

theorem test_BlockStopDone : (blockIn blkStopping).blk (.eng 0 71) = blkStopping ∧
    (blockIn blkStopping).stopped (.eng 0 71) = true := by decide +kernel

/-! ### Streams and state pages -/

/-- The host holds the first lock of the stream window and names entry 1023; stream 1023 is in a state. -/
def windowed (st : Nat) : State :=
  (((up.wr .strm (Reg.lock_OWNER 0) (masterTag .host)).wr .strm Reg.strmWinIdx_IDX 1023).modStream 1023 fun r =>
    { r with state := st, ctx := 1, pages := 2, stateVa := 4096 })

/-- The data words describe one page at 0x1000 for context 1 on a home channel. -/
def described (home pages : Nat) : State :=
  (windowed strmFree).setWindowData .strm (home * 8 + 256 + pages * 2 ^ 32 + 4096 * 2 ^ 64)

theorem test_StreamReadAndOpen : ((windowed strmOpen).dev.powered = true ∧
      (windowed strmOpen).windowFree .host .strm = true ∧ (windowed strmOpen).dev.farrierUp = true) ∧
    1023 = (windowed strmOpen).rd .strm Reg.strmWinIdx_IDX ∧ ((windowed strmOpen).stream 1023).state ≠ strmFree := by
  decide +kernel

theorem test_StreamReadAndOpen_ok : (described 3 16384).windowFree .host .strm = true ∧
    (parseStream ((described 3 16384).windowData .strm)).2 = false ∧
    ((described 3 16384).stream ((described 3 16384).rd .strm Reg.strmWinIdx_IDX)).state = strmFree ∧
    (parseStream ((described 3 16384).windowData .strm)).1.pages = 16384 ∧
    (described 3 16384).chState (parseStream ((described 3 16384).windowData .strm)).1.home ≠ chRetired := by
  decide +kernel

theorem test_StreamReadAndOpen_rejected :
    (parseStream ((described 3 0).windowData .strm)).1.pages = 0 ∧
    ((described 3 1).wr .hif (readyFld 3) chRetired).chState
      (parseStream ((described 3 1).windowData .strm)).1.home = chRetired := by decide +kernel

/-- A FORK from stream 1023 is in progress on its home channel. -/
def busyStream : State :=
  (windowed strmOpen).modChan 0 fun x => { x with
    cmds := [{ num := 0, ring := 0, descs := [opFork + 1023 * 2 ^ 24], stage := .running }] }

theorem test_StreamClose : NamedUnderWay busyStream 1023 ∧ ¬ NamedUnderWay (windowed strmLost) 1023 ∧
    NoPages (windowed strmLost) 1023 ∧ ((windowed strmLost).stream 1023).state = strmLost := by
  unfold NamedUnderWay NoPages
  decide +kernel

theorem test_StreamRehome : ((windowed strmOpen).stream 1023).state = strmOpen ∧
    ¬ NamedUnderWay (windowed strmOpen) 1023 ∧
    (∀ q ∈ ((windowed strmOpen).chan ((windowed strmOpen).stream 1023).home).pages,
      q.sharers.contains 1023 = true → q.sharers.length ≤ 1) ∧ (windowed strmOpen).chState 0 ≠ chRetired := by
  unfold NamedUnderWay
  decide +kernel

/-- Context 1's first GiB lies in the HBM stack of channel 0, in the translation caches of channel 0 and of the hub. -/
def mapped (s : State) : State :=
  let t : Xlat := { ctx := 1, va := 0, size := 30, target := .hbm 0, addr := 0, w := true, pinned := false }
  (s.modCache (.cmmu 0) fun x => x.insert (.cmmu 0) t).modCache .hmmu fun x => x.insert .hmmu t

/-- Page 1 of stream 1023 is in a state, in frame 2. -/
def paged (st : PageState) : State :=
  (mapped (windowed strmOpen)).modChan 0 fun x => { x with
    pages := [{ index := 1, owner := 1023, sharers := [1023], state := st, dirty := true, frame := 2 }] }

theorem test_StatePageTransfers_in : ((paged .incoming).chan 0).page 1023 1 =
      { index := 1, owner := 1023, sharers := [1023], state := .incoming, dirty := true, frame := 2 } ∧
    (paged .incoming).mapRuns 0 = true ∧
    ((paged .incoming).readVa ((paged .incoming).backing 0 1023 1) hbmState 4096 []).2.done = true := by
  decide +kernel

theorem test_StatePageTransfers_out : (((paged .out).chan 0).page 1023 1).state = .out ∧
    ((paged .out).writeBacking 0 (((paged .out).chan 0).page 1023 1)).2 = true ∧
    (((paged .recalled).chan 0).page 1023 1).state = .recalled := by decide +kernel

theorem test_MapQuiet : (paged .out).wanting 0 = [] ∧ ((paged .out).chan 0).copyFrames = [] ∧
    (((paged .out).stream 1023).state ≠ strmClosing) := by decide +kernel

/-- Stream 1023 moves to channel 3, and has a dirty page. -/
def moving : State := { paged .resident with rehoming := some (1023, 3) }

theorem test_StreamRehome_done : moving.rehoming = some (1023, 3) ∧
    moving.arithOn (moving.stream 1023).home = true ∧
    (∀ p ∈ (moving.chan (moving.stream 1023).home).pages, p.sharers = [1023] → p.handing = none) ∧
    ((((moving.chan 0).pages.filter fun p => p.sharers = [1023]).filter fun p => p.state ≠ .away && p.dirty).foldl
      (State.writeHome 0) (moving, true)).2 = true := by decide +kernel

/-- Page 1 of streams 7 and 1023 is being copied into frame 3 for stream 1023. -/
def copying : State :=
  (windowed strmOpen).modChan 0 fun x => { x with
    pages := [{ index := 1, owner := 7, sharers := [7, 1023], state := .resident, frame := 2, copying := some 1023 }]
    copyFrames := [{ stream := 1023, index := 1, frame := 3 }] }

theorem test_StatePageCopies_cow : copying.mapRuns 0 = true ∧ ((copying.chan 0).page 1023 1).copying = some 1023 ∧
    (copying.chan 0).copyFrames = [{ stream := 1023, index := 1, frame := 3 }] ∧ copying.wanting 0 = [] := by
  decide +kernel

/-- Stream 1023 closes, and its page 1 has gone to stream 7, whose backing is to take it. -/
def handing : State :=
  ((mapped (windowed strmClosing)).modStream 7 fun r => { r with state := strmOpen, ctx := 1, stateVa := 65536 }).modChan 0
    fun x => { x with pages := [{ index := 1, owner := 7, sharers := [7], handing := some 1023 }] }

theorem test_StatePageCopies_backing :
    ((handing.chan 0).pages.find? fun p => p.index = 1 && p.handing = some 1023).isSome = true ∧
    (handing.readVa (handing.backing 0 1023 1) hbmState 4096 []).2.done = true ∧
    ((handing.readVa (handing.backing 0 1023 1) hbmState 4096 []).1.writeVa
      { (handing.readVa (handing.backing 0 1023 1) hbmState 4096 []).1.backing 0 7 1 with write := true } hbmState
      (List.replicate 4096 0)).2.2 = true ∧
    (handing.stream 1023).state = strmClosing ∧ (handing.stream 1023).home = 0 := by decide +kernel

/-! ### Contexts -/

/-- The host holds the first lock of the context window and names record 255, which is in a state. -/
def ctxWindow (st : Nat) : State :=
  ((up.wr .ctx (Reg.lock_OWNER 0) (masterTag .host)).wr .ctx Reg.ctxWinIdx_IDX 255).modCtx 255 fun r =>
    { r with state := st, prio := 1, saveMb := 64, saveVa := 2 ^ 21 }

/-- The data words hold a SAVE_MB. -/
def ctxData (st mb : Nat) : State := (ctxWindow st).setWindowData .ctx (mb * 2 ^ 16 + 2 ^ 21 * 2 ^ 128)

theorem test_ContextRecords : ((ctxWindow ctxNone).dev.powered = true ∧ (ctxWindow ctxNone).windowFree .host .ctx = true ∧
      (ctxWindow ctxNone).dev.farrierUp = true) ∧ 255 = (ctxWindow ctxNone).rd .ctx Reg.ctxWinIdx_IDX ∧
    badCtxArg ((ctxData ctxNone 1023).windowData .ctx) = false ∧ badCtxArg ((ctxData ctxNone 63).windowData .ctx) = true := by
  decide +kernel

/-- Slots 0 to `k - 1` are held by blocked contexts. -/
def slotted (s : State) (k : Nat) : State :=
  (List.range k).foldl (fun s i => (((s.wr .ctx (Reg.ctxSlot_STATE i) slotResident).wr .ctx (Reg.ctxSlot_CTX i) i).wr .ctx
    (Reg.ctxSlot_BLOCKED i) 1).modCtx i fun r => { r with state := ctxResident, slot := i, saveMb := 64 }) s

theorem test_ContextLoadAndEvict : ((slotted (ctxWindow ctxAway) 6).ctxRec 255).state = ctxAway ∧
    (slotted (ctxWindow ctxAway) 6).slotState 6 = slotFree ∧ (slotted (ctxWindow ctxAway) 6).isRelief 6 = false ∧
    (∀ j, j < 6 → (slotted (ctxWindow ctxAway) 6).slotState j ≠ slotFree) := by decide +kernel

theorem test_ContextLoadAndEvict_victim :
    (∀ i, i < 8 → (slotted (ctxWindow ctxAway) 8).slotState i ≠ slotFree) ∧
    (slotted (ctxWindow ctxAway) 8).loadVictim 255 = some 0 := by decide +kernel

theorem test_ContextLoadAndEvict_none :
    (slotted ((ctxWindow ctxAway).modCtx 255 fun r => { r with prio := 0 }) 8).loadVictim 255 = none := by decide +kernel

/-- Record 255 is RESIDENT in slot 7. -/
def resident : State :=
  ((ctxWindow ctxResident).modCtx 255 fun r => { r with slot := 7 }).wr .ctx (Reg.ctxSlot_STATE 7) slotResident
    |>.wr .ctx (Reg.ctxSlot_CTX 7) 255

theorem test_ContextEvict : (resident.ctxRec 255).state = ctxResident ∧ (resident.ctxRec 255).slot < 8 := by decide +kernel

theorem test_ContextResetAndRelease : resident.dev.powered = true ∧ resident.windowFree .host .ctx = true ∧
    255 = resident.rd .ctx Reg.ctxWinIdx_IDX ∧ (resident.ctxRec 255).state ≠ ctxNone ∧
    ((resident.wr .ctx Reg.strmWinCmd_BUSY 1).resetContext 255).slotOfCtx 255 = some 7 ∧ resident.loads = [] := by
  decide +kernel

/-- Stream 1023 of context 255 forks streams 0 and 1022. -/
def forking : State :=
  ((((resident.modStream 1023 fun r => { r with state := strmOpen, ctx := 255 }).modStream 0 fun r =>
    { r with state := strmForking }).modStream 1022 fun r => { r with state := strmForking, ctx := 255 })).modChan 0 fun x =>
      { x with forks := [{ num := 1, parent := 1023, children := [(0, 4096), (1022, 8192)] }] }

theorem test_ContextResetAndRelease_streams : (forking.stream 1023).ctx = 255 ∧
    (forking.stream 1023).state ≠ strmForking ∧ 0 ∈ forking.forkChildren 255 ∧ 1022 ∈ forking.forkChildren 255 ∧
    (forking.stream 1022).state = strmForking := by decide +kernel

/-- Context 1 is being saved out of slot 7, and its save area is mapped. -/
def saving (done : List Nat) : State :=
  ((((mapped up).modCtx 1 fun r => { r with state := ctxMoving, slot := 7, saveMb := 64, saveVa := 2 ^ 21 }).wr .ctx
    (Reg.ctxSlot_STATE 7) slotSaving).wr .ctx (Reg.ctxSlot_CTX 7) 1).modSlotRec 7 fun r => { r with reported := done }

theorem test_ContextSave : (saving [1, 2, 3]).dev.powered = true ∧ (saving [1, 2, 3]).slotState 7 = slotSaving ∧
    ((saving [1, 2, 3]).ctxSlotOf 7).reported.contains 0 = false ∧ (saving [1, 2, 3]).changing 0 = false ∧
    (saving [1, 2, 3]).early 0 0x08 ((saving [1, 2, 3]).slotCtx 7) = false ∧ (saving [1, 2, 3]).isReady 0 = true ∧
    (saving [1, 2, 3]).arithOn 0 = true ∧ (saving [1, 2, 3]).mayRecord 0 = true ∧ 1 = (saving [1, 2, 3]).slotCtx 7 := by
  decide +kernel

/-- The write of the share succeeds, and the fourth report is the last. -/
def savedBy (done : List Nat) : State × Bool :=
  (saving done).sealVa { req := .save 0 7, ctx := 1, va := (saving done).saveRegion 0 1, write := true }
    (((saving done).chan 0).saveBytes 1)

theorem test_ContextSave_write : (savedBy [1, 2, 3]).2 = true ∧
    ((savedBy [1, 2, 3]).1.ctxSlotOf 7).reported.length = 3 ∧ (savedBy [1, 2, 3]).1.loads = [] ∧
    (savedBy [1, 2, 3]).1.reliefInto = none ∧ (savedBy [1, 2, 3]).1.slotCtx 7 = 1 ∧ (savedBy [2, 3]).2 = true ∧
    ((savedBy [2, 3]).1.ctxSlotOf 7).reported.length ≠ 3 := by decide +kernel

/-- Context 1 is being restored into slot 7 from one empty share. -/
def restoring : State :=
  let s := ((mapped up).modCtx 1 fun r => { r with state := ctxMoving, slot := 7, image := true, saveMb := 64, saveVa := 2 ^ 21 })
  { (s.wr .ctx (Reg.ctxSlot_STATE 7) slotLoading).wr .ctx (Reg.ctxSlot_CTX 7) 1 with
    shares := [{ ctx := 1, chan := 0, key := 0, engines := [], cvu := [], paddock := [] }] }

theorem test_ContextRestore : restoring.dev.powered = true ∧ restoring.slotState 7 = slotLoading ∧ 1 = restoring.slotCtx 7 ∧
    (∀ sh ∈ restoring.shares, sh.ctx = 1 → sh.key = restoring.dev.sealKey ∧ restoring.imagePoisoned 7 sh = false ∧
      restoring.arithOn sh.chan = true ∧ restoring.changing sh.chan = false ∧
      restoring.early sh.chan 0x08 (1 + 2 ^ 8) = false) ∧
    ((restoring.shares.filter fun sh => sh.ctx = 1).foldl (fun (acc : State × Bool) sh =>
      if acc.2 then acc.1.restoreShare 7 sh else acc) (restoring, true)).2 = true := by decide +kernel

theorem test_BlockedContexts : resident.slotState 7 = slotResident ∧ resident.blocked 7 = false ∧
    resident.inReplay (resident.slotCtx 7) = false := by decide +kernel

/-- Slots 0 to 6 are held by blocked contexts, slot 7 is the relief slot, and context 255 can run. -/
def stuckCard : State :=
  ((((slotted up 7).wr .ctx Reg.ctxCfg_AUTO 1).wr .ctx Reg.ctxCfg_RELIEF_EN 1).wr .ctx Reg.ctxCfg_RELIEF_SLOT 7).modCtx 255
    fun r => { r with state := ctxAway, woken := true, saveMb := 64 }

theorem test_Relief : stuckCard.reliefDue = true ∧ stuckCard.dev.farrierUp = true ∧
    stuckCard.reliefChoice = some 255 ∧ stuckCard.reliefVictim = some 0 := by decide +kernel

/-! ### The deadline monitor and translation -/

/-- The host holds the first lock of the monitor's window and names entry 1023, whose stream is in a state. -/
def dlmWindow (st : Nat) : State :=
  ((windowed st).wr .dlm (Reg.lock_OWNER 0) (masterTag .host)).wr .dlm Reg.dlmWinIdx_IDX 1023

/-- A budget is given, with a fallback ring that is bound to context 1. -/
def budgeted : State := (((dlmWindow strmOpen).wr .dlm (Reg.dlmWinData_DATA 1) 1).wr .dlm (Reg.dlmWinData_DATA 0) 0xf0).wr
  (.ring 0 15) Reg.ringCtl_CTX 1

theorem test_DeadlineWindow : ((dlmWindow strmFree).dev.powered = true ∧ (dlmWindow strmFree).windowFree .host .dlm = true ∧
      (dlmWindow strmFree).dev.farrierUp = true) ∧ 1023 = (dlmWindow strmFree).rd .dlm Reg.dlmWinIdx_IDX := by
  decide +kernel

theorem test_DeadlineWindow_arm : (budgeted.stream 1023).state = strmOpen ∧ (budgeted.dlmRec 1023).instep = false ∧
    budgeted.rd .dlm (Reg.dlmWinData_DATA 1) ≠ 0 ∧
    budgeted.ringCtx (budgeted.stream 1023).home (bitsOf (budgeted.rd .dlm (Reg.dlmWinData_DATA 0)) 4 4) =
      (budgeted.stream 1023).ctx := by decide +kernel

/-- A step of stream 1023 has run for 100 cycles of a budget of 10. -/
def late : State :=
  ({ (windowed strmOpen).wr .dlm Reg.dlmCfg_EN 1 with cycles := [(domArith 0, 100)] } : State).modDlm 1023 fun d =>
    { d with armed := true, instep := true, fben := true, budget := 10 }

theorem test_DeadlineCheck : late.dev.powered = true ∧ late.flag .dlm Reg.dlmCfg_EN = true ∧
    late.arithOn (late.stream 1023).home = true ∧ late.mayRecord (late.stream 1023).home = true ∧
    late.replayOn (late.stream 1023).home = false ∧ (late.dlmRec 1023).armed = true ∧ (late.dlmRec 1023).instep = true ∧
    (late.dlmRec 1023).budget < late.predict 0 1023 := by decide +kernel

/-- The budget holds exactly. -/
theorem test_DeadlineCheck_met : (late.modDlm 1023 fun d => { d with budget := 100 }).predict 0 1023 ≤
    ((late.modDlm 1023 fun d => { d with budget := 100 }).dlmRec 1023).budget := by decide +kernel

def invLocked : State := up.wr .hmmu (Reg.lock_OWNER 0) (masterTag .host)

theorem test_InvalidationsStart : invLocked.writable .host .hmmu 0x128 = true ∧ invLocked.holdsLock .host .hmmu 0 = true ∧
    invLocked.flag .hmmu Reg.hmmuInvStat_BUSY = false ∧ up.holdsLock .host .hmmu 0 = false := by decide +kernel

def invalidating : State := (mapped up).modXlat fun x => { x with inval := some ⟨1, 1, 0, 1⟩ }

theorem test_InvalidationRemoves : invalidating.dev.powered = true ∧ invalidating.xlat.inval = some ⟨1, 1, 0, 1⟩ := by
  decide +kernel

/-- An access of the state map unit, and one that writes. -/
def accessOf (write : Bool) : MemAccess := { req := .transfer 0 1023 1, ctx := 1, va := 4096, write := write }

/-- Walker 7 of channel 0's cache is at a stage, for a read that a write joined. -/
def walking (st : WalkStage) : State :=
  up.modCache (.cmmu 0) fun x => { x with walks := [(7, { stage := st, joined := [accessOf false, accessOf true] })] }

theorem test_WalkSteps : (walking .table).dev.powered = true ∧
    (((walking .table).cache (.cmmu 0)).walks.find? fun e => e.1 = 7) =
      some (7, { stage := .table, joined := [accessOf false, accessOf true] }) ∧
    (walking .table).replayState ≠ rplReplaying ∧ (parseCtt 1).isSome = true ∧ parseCtt 0 = none := by decide +kernel

/-- A level in the host's memory, whose entry is a pointer, a leaf, or not present. -/
theorem test_WalkSteps_level : (walking (.level 0 .host 0)).targetDown .host = false ∧
    entryStep 0 ((walking (.level 0 .host 0)).entryAt .host 0 1) = .next .host 0 ∧
    entryStep 3 ((walking (.level 3 .host 0)).entryAt .host 0 1) = .leaf 12 .host 0 false false false ∧
    entryStep 3 ((walking (.level 3 .host 0)).entryAt .host 0 0) = .bad causeNotPresent := by decide +kernel

/-- Ring 15 of channel 0 fetches. -/
def fetching : State := up.modRing 0 15 fun q => { q with fetching := true }

theorem test_PcieFailures : fetching.dev.powered = true ∧ fetching.replayState ≠ rplReplaying ∧
    (∀ k i, RequesterId.ringFetch 0 15 ≠ .walk k i) ∧ fetching.serving (.ringFetch 0 15) 255 = some { ring := some 15 } ∧
    fetching.mainUp = true ∧ fetching.stalled (.ringFetch 0 15) = false :=
  ⟨by decide +kernel, by decide +kernel, (by intro _ _ h; cases h), by decide +kernel, by decide +kernel, by decide +kernel⟩

theorem test_PcieFailures_walk : (((walking (.level 3 .host 0)).cache (.cmmu 0)).walks.find? fun e => e.1 = 7) =
    some (7, { stage := .level 3 .host 0, joined := [accessOf false, accessOf true] }) := by decide +kernel

/-- An access of context 1 has faulted under FAULTID 9; its fault ring has 16 slots, of which the last is next. -/
def faulted (req : RequesterId) : State :=
  mapped ((up.wr .hmmu Reg.hmmuCtt_EN 1).modXlat fun x => { x with
    nextId := 10, rings := [(1, ⟨15, true⟩)]
    faults := [{ id := 9, cause := causeNotPresent, level := 3, access := { accessOf true with req := req, va := 2 ^ 40 }
                 entry := some ⟨0, .host, 0, 4096, 2047, true⟩ }] })

theorem test_FaultRecords : ((faulted (.transfer 0 1023 1)).xlat.faults.find? fun f =>
      f.access.ctx = 1 && f.cause ≠ causeNoContext && f.recorded = none).isSome = true ∧
    (faulted (.transfer 0 1023 1)).ringBusy 1 15 = false ∧
    Tab.get {} (faulted (.transfer 0 1023 1)).xlat.rings 1 = ⟨15, true⟩ ∧
    (Tab.get {} ({ faulted (.transfer 0 1023 1) with msix := [(2047, { masked := false })] } : State).msix 2047).masked =
      false := by decide +kernel

theorem test_RetryAndUnknownFaults : (faulted (.transfer 0 1023 1)).reaches .host .hmmu = true ∧ mayDispose .host = true ∧
    ((faulted (.transfer 0 1023 1)).faultOf 9).isSome = true ∧ (faulted (.transfer 0 1023 1)).xlat.overflow = [] ∧
    (faulted (.transfer 0 1023 1)).xlat.nextId ≠ (9 : BitVec 24).toNat ∧
    (faulted (.transfer 0 1023 1)).lookup (.cmmu 0) { accessOf true with va := 2 ^ 40 } = none ∧
    (faulted (.transfer 0 1023 1)).flag .hmmu Reg.hmmuCtt_EN = true ∧
    (faulted (.transfer 0 1023 1)).faultOf 8 = none := by decide +kernel

/-- A command of the copy unit of channel 0 has faulted. -/
def copyFault : State :=
  ((faulted (.copy 0)).modXlat fun x => { x with
    faults := x.faults.map fun f => { f with access := { f.access with info := { num := some 4 } } } }).modChan 0 fun x =>
      { x with cmds := [{ num := 4, ring := 3, descs := [opCopy], stage := .running, ecs := [⟨0, 0x7f, 0, none⟩] }] }

theorem test_Aborts : copyFault.dev.powered = true ∧ copyFault.reaches .host .hmmu = true ∧
    (copyFault.faultOf 9).isSome = true ∧ EndsCommand 0 (.copy 0) ∧ ((copyFault.chan 0).cmd? 4).isSome = true :=
  ⟨by decide +kernel, by decide +kernel, by decide +kernel, rfl, by decide +kernel⟩

/-- A lodger command's fill of a buffer has faulted. -/
def lodgerFault : State :=
  ((faulted (.lodger 0 1)).modXlat fun x => { x with
    faults := x.faults.map fun f => { f with access := { f.access with info := { num := some 4 } } } }).modChan 0 fun x =>
      { x with cmds := [{ num := 4, ring := 3, descs := [opMatmul], stage := .splitting, total := 2 }], lodgers := [4] }

theorem test_Aborts_lodger : (lodgerFault.faultOf 9).isSome = true ∧ ((lodgerFault.chan 0).cmd? 4).isSome = true ∧
    ((lodgerFault.chan 0).anyCmd fun _ k => k.num = 4 && k.refetch) = false := by decide +kernel

/-- The initial states of a SCAN are read for its command. -/
theorem test_Aborts_initRead : EndsCommand 3 (.initRead 3 71) := rfl

/-- Other requesters of the fault: a fetch, a completion, a SIGNAL, a seal and a save. -/
theorem test_Aborts_others : ((faulted (.ringFetch 0 15)).faultOf 9).isSome = true ∧
    ((faulted (.completion 0 15)).faultOf 9).isSome = true ∧ ((faulted (.sync 0 15)).faultOf 9).isSome = true ∧
    (((faulted (.seal 0 71 7)).modTile 0 71 7 fun t => { t with state := .sealing }).tile 0 71 7).state = .sealing ∧
    ((faulted (.save 0 7)).wr .ctx (Reg.ctxSlot_STATE 7) slotPaused).slotState 7 = slotPaused ∧
    (((faulted (.save 0 7)).modCtx 1 fun r => { r with state := ctxMoving }).ctxRec 1).state ≠ ctxNone := by decide +kernel

/-! ### Rings, the split and completion -/

/-- A number with fields at their lowest bits. -/
def packed (fs : List (Nat × Nat)) : Nat := (fs.map fun f => f.2 * 2 ^ f.1).sum

/-- Context 1 is resident in slot 7 of a card whose channel 0 has its ring 15 ON, EN and bound to the context, with 16
entries at 0x10000 and 16 completion records at 0x20000; stream 1023 is open for it, and it may read and write a region
of the weight stall. -/
def ringed : State :=
  let s := (((mapped (windowed strmOpen)).wr .ctx (Reg.ctxSlot_STATE 7) slotResident).wr .ctx (Reg.ctxSlot_CTX 7) 1).modCtx 1
    fun r => { r with state := ctxResident, slot := 7, saveMb := 65, gdtVa := 0x30000 }
  let s1 := ((((s.setBlk (.ring 0 15) blkOn).wr (.ring 0 15) Reg.ringCtl_EN 1).wr (.ring 0 15) Reg.ringCtl_CTX 1).wr
    (.ring 0 15) Reg.ringBase_BASE 16).wr (.ring 0 15) Reg.ringCpl_BASE 32
  ((((s1.wr (.wst 0) (Reg.wstRgnA_LIMIT 0) 16).wr (.wst 0) (Reg.wstRgnB_CTX 0) 1).wr (.wst 0) (Reg.wstRgnB_VALID 0) 1).wr
    (.wst 0) (Reg.wstRgnB_WRITE 0) 1).setBlk (.eng 0 7) blkOn

/-- Ring 15's tail stands at entry 15, its head at an entry. -/
def tailed (head : Nat) : State :=
  (ringed.wr (.door 0 15) Reg.ringTail_TAIL 15).wr (.door 0 15) Reg.ringHead_HEAD head

/-- The last free entry may be filled; without one the tail stays. -/
theorem test_Doorbells : ((tailed 2).dev.powered = true ∧ (tailed 2).writable .host (.door 0 15) 0x100 = true) ∧
    (tailed 2).flag (.ring 0 15) Reg.ringCtl_EN = true ∧
    (0 < (tailed 2).ringSize 0 15 ∧ 1 ≤ ringSpan ((tailed 2).ringSize 0 15) 15 0 ∧
      ringSpan ((tailed 2).ringSize 0 15) 15 0 + ringSpan ((tailed 2).ringSize 0 15)
        ((tailed 2).rd (.door 0 15) Reg.ringHead_HEAD) 15 + 1 ≤ (tailed 2).ringSize 0 15) ∧
    ¬ (ringSpan ((tailed 0).ringSize 0 15) 15 0 + ringSpan ((tailed 0).ringSize 0 15)
        ((tailed 0).rd (.door 0 15) Reg.ringHead_HEAD) 15 + 1 ≤ (tailed 0).ringSize 0 15) := by decide +kernel

theorem test_Doorbells_resume : ringed.writable .host (.door 0 15) 0x10c = true ∧
    (ringed.wr (.door 0 15) Reg.ringHead_STOPPED 1).flag (.door 0 15) Reg.ringHead_STOPPED = true ∧
    ringed.writable .host (.door 0 15) 0x108 = true := by decide +kernel

/-- A MATMUL with one extension stands at entry 15; its extension is at entry 0. -/
def fetchable : State :=
  let s := (ringed.modRing 0 15 fun q => { q with tailSeen := 1 }).wr (.door 0 15) Reg.ringHead_HEAD 15
  (s.modChan 0 fun x => { x with
    hbm := (x.hbm.put (0x10000 + 64 * 15) (leBytes 64 (opMatmul + 2 ^ 8 + 2 ^ 16))).put 0x10000 (leBytes 64 1) })

theorem test_FetcherTakesWholeCommands : fetchable.dev.powered = true ∧ fetchable.mapRuns 0 = true ∧
    fetchable.replayOn 0 = false ∧ 15 = ((fetchable.chan 0).fetchTurn + 15) % 16 ∧ fetchable.mayRecord 0 = true ∧
    fetchable.mayFetch 0 15 = true ∧ (fetchable.ringOf 0 15).fetching = false ∧
    (∀ j, j < 15 → fetchable.mayFetch 0 (((fetchable.chan 0).fetchTurn + j) % 16) = false) := by decide +kernel

def fetchingNow : State := fetchable.modRing 0 15 fun q => { q with fetching := true }

/-- The two reads of the command. -/
def firstEntry : State × ReadOut × List Nat :=
  readEntries (fetchingNow.fetchAccess 0 15) [fetchingNow.entryVa 0 15 15] fetchingNow []

theorem test_FetcherTakesWholeCommands_read : (fetchingNow.ringOf 0 15).fetching = true ∧
    fetchingNow.stalled (.ringFetch 0 15) = false ∧ fetchingNow.mayFetch 0 15 = true ∧
    firstEntry.2.2 = [opMatmul + 2 ^ 8 + 2 ^ 16] ∧ firstEntry.2.1.done = true ∧
    1 + bitsOf (opMatmul + 2 ^ 8 + 2 ^ 16) 8 2 ≤ ringSpan (fetchingNow.ringSize 0 15) 15 1 ∧
    1 + bitsOf (opMatmul + 2 ^ 8 + 2 ^ 16) 8 2 ≤ (fetchingNow.ringOf 0 15).credits ∧
    (readEntries (fetchingNow.fetchAccess 0 15) [fetchingNow.entryVa 0 15 (15 + 1 + 0)] firstEntry.1
      firstEntry.2.1.ext).2.1.done = true := by decide +kernel

/-- The ring holds one entry of the two. -/
theorem test_FetcherTakesWholeCommands_skipped :
    ringSpan (fetchingNow.ringSize 0 15) 15 0 < 1 + bitsOf (opMatmul + 2 ^ 8 + 2 ^ 16) 8 2 ∧
    (fetchingNow.modRing 0 15 fun q => { q with tailSeen := 0 }).mayFetch 0 15 = true := by decide +kernel

/-- Ring 15 holds a command at a stage. -/
def headed (ds : List Nat) (st : CmdStage) (more : HostCmd → HostCmd := id) : State :=
  ringed.modChan 0 fun x => { x with
    cmds := [more { num := 4, ring := 15, descs := ds, stage := st }], nextCmd := 5, splitTurn := 0 }

/-- A tile command of one position and one channel, A1 to A1. -/
def tileDesc (op more : Nat) : Nat :=
  packed [(0, op), (16, 1), (192, 1), (208, 1), (224, 1), (238, 1), (320, 1), (352, 4096)] + more

/-- A window extension with 2 × 2 regrouping of the input. -/
def regroupExt : Nat := packed [(0, 2), (32, 1), (37, 1), (42, 1), (50, 1), (58, 1), (68, 1), (130, 1)]

/-- A command of each of the thirteen opcodes, and what its checks answer: accepted, or a status. -/
def descsOf (op : Nat) : List Nat :=
  if op = opPool then [tileDesc op (packed [(56, fmtL8)])]
  else if op = opStats then [tileDesc op 0]
  else if op = opRegroup then [tileDesc op (2 ^ 8), regroupExt]
  else if op = opScan then [packed [(0, op), (16, 1), (24, 1023), (148, 1), (164, 1), (180, 1)]]
  else if op = opArgmax then [packed [(0, op), (16, 1), (176, 1), (208, 1)]]
  else if op = opFork then [packed [(0, op), (16, 1), (24, 1023), (128, 1), (176, 0x40000)]]
  else if op = opLoadW ∨ op = opCopy then [packed [(0, op), (16, 1), (128, 0x40000), (224, 64)]]
  else if op = opDrain then [tileDesc op 0]
  else [tileDesc op 0]

def thirteen : List Nat :=
  [opMatmul, opConv, opDwconv, opPool, opScan, opStats, opArgmax, opRegroup, opFork, opLoadW, opDrain, opCopy, opCvu]

def atHead (op : Nat) : State := headed (descsOf op) .queued

def cmdOf (op : Nat) : HostCmd := { num := 4, ring := 15, descs := descsOf op }

/-- A command of every one of the thirteen opcodes is accepted; those that name groups, and FORK, read first. -/
theorem test_CommandsAtTheSplit : ∀ op ∈ thirteen, (atHead op).dev.powered = true ∧
    ((atHead op).chan 0).head? 15 = some (cmdOf op) ∧ hdOp (cmdOf op).descs = op ∧ (cmdOf op).stage = .queued ∧
    (atHead op).splits 0 15 = true ∧ (atHead op).mayRecord 0 = true ∧ (atHead op).divertedAway 0 (cmdOf op) = false ∧
    (atHead op).splitChecks 0 (cmdOf op) = .accept := by decide +kernel

theorem test_CommandsAtTheSplit_reads : thirteen.filter (fun op => readCount (descsOf op) ≠ 0) =
    [opPool, opScan, opFork, opCvu] := by decide +kernel

/-- The stream of a command is FORKING; or an unknown extension is named. -/
theorem test_CommandsAtTheSplit_waits :
    ((atHead opFork).modStream 1023 fun r => { r with state := strmForking }).splitChecks 0 (cmdOf opFork) = .wait ∧
    (atHead opFork).splitChecks 0 { cmdOf opFork with descs := [tileDesc opMatmul (2 ^ 10 + 2 ^ 16)] } = .reject stBadContext ∧
    stBadContext ≠ stOk := by decide +kernel

/-- The deadline monitor diverts the command's step. -/
def divertedCard : State :=
  ((atHead opFork).wr .dlm Reg.dlmCfg_EN 1).modDlm 1023 fun d =>
    { d with armed := true, instep := true, fben := true, diverted := true }

theorem test_CommandsAtTheSplit_diverted : divertedCard.divertedAway 0 (cmdOf opFork) = true := by decide +kernel

/-- The first group read of a CVU command, and the child records of a FORK. -/
def readingCmd (op n : Nat) : State := headed (descsOf op) (.reading n)

theorem test_SplitReads : (readingCmd opCvu 0).dev.powered = true ∧
    ((readingCmd opCvu 0).chan 0).head? 15 = some { cmdOf opCvu with stage := .reading 0 } ∧
    (readingCmd opCvu 0).splits 0 15 = true ∧ (readingCmd opCvu 0).stalled (.splitRead 0 15) = false ∧
    (readingCmd opCvu 0).mayRecord 0 = true ∧ (namedGroups (descsOf opCvu))[0]? = some 0 ∧
    ((readingCmd opCvu 0).readVa (splitAccess 0 15 (cmdOf opCvu) (((readingCmd opCvu 0).ctxRec 1).gdtVa + 8 * 0))
      hbmData 8 []).2.done = true ∧
    parseGroup (2 ^ 31 + 65535) = some { base := 65535, fsel := 0 } ∧ parseGroup 0 = none := by decide +kernel

theorem test_SplitReads_children : ((readingCmd opFork 0).chan 0).head? 15 =
      some { cmdOf opFork with stage := .reading 0 } ∧ (namedGroups (descsOf opFork))[0]? = none ∧
    (readingCmd opFork 0).replayOn 0 = false ∧ (readingCmd opFork 0).splits 0 15 = true ∧
    ((readingCmd opFork 0).readVa (splitAccess 0 15 (cmdOf opFork) (hd (descsOf opFork) 176 48)) hbmData
      (8 * hd (descsOf opFork) 128 6) []).2.done = true := by decide +kernel

/-- A MATMUL whose next engine command is to be placed. -/
def placing : State := headed (descsOf opMatmul) .splitting fun h => { h with total := 1 }
def placingCmd : HostCmd := { cmdOf opMatmul with stage := .splitting, total := 1 }
def placeFrom (s : State) : State := s.modChan 0 fun y => { y with splitTurn := (15 + 1) % 16 }

theorem test_SplitTurns : placing.dev.powered = true ∧ placing.mayRecord 0 = true ∧ placing.replayOn 0 = false ∧
    15 = ((placing.chan 0).splitTurn + 15) % 16 ∧ placing.splits 0 15 = true ∧
    (placing.chan 0).head? 15 = some placingCmd ∧ placingCmd.placing = true ∧
    (∀ j, j < 15 → (placing.splits 0 (((placing.chan 0).splitTurn + j) % 16)) = false) ∧
    (placing.rd (.grm 0) Reg.grmSplitCfg_QUANTUM ≤ 1 ∨ (placing.wr (.grm 0) Reg.grmSplitCfg_QUANTUM 1).rd (.grm 0)
      Reg.grmSplitCfg_QUANTUM ≤ 1) ∧
    ((placeFrom placing).engCmd 0 placingCmd placingCmd.next).op ≠ opCvu ∧ isLodger placingCmd.descs = false ∧
    (placeFrom placing).chooseSlot 0 ((placeFrom placing).engCmd 0 placingCmd placingCmd.next) = some 7 ∧
    (placing.engine 0 7).credit.held ≠ 0 ∧
    ((placing.modEngine 0 7 fun g => { g with credit := ⟨0, 32⟩ }).engine 0 7).credit.held = 0 := by decide +kernel

/-- An opcode that no command has. -/
theorem test_SplitTurns_unknown : ((headed [0x55] .queued).chan 0).head? 15 =
      some { num := 4, ring := 15, descs := [0x55] } ∧
    ({ num := 4, ring := 15, descs := [0x55] } : HostCmd).placing = false ∧
    knownOps.contains (hdOp [0x55]) = false := by decide +kernel

/-- A synchronising command for the word at 8 of context 1, with its value and its timeout. -/
def syncDesc (op : Nat) : Nat := packed [(0, op), (16, 1), (128, 8), (192, 2 ^ 64 - 1)] +
  (if op = opWait then packed [(256, 1)] else 0) - (if op = opFence then packed [(128, 8), (192, 2 ^ 64 - 1)] else 0)

def syncCmd (op : Nat) (st : CmdStage) : HostCmd := { num := 4, ring := 15, descs := [syncDesc op], stage := st }
def syncCard (op : Nat) (st : CmdStage) : State := headed [syncDesc op] st

/-- The command stands at the head alone, or behind a command that runs. -/
theorem test_SynchronisingCommands : ∀ op ∈ [opFence, opSignal, opWait],
    AtHead (syncCard op .queued) 0 15 op (syncCmd op .queued) ∧
    AtHead (syncCard op .splitting) 0 15 op (syncCmd op .splitting) ∧
    ((syncCard op .queued).chan 0).ahead (syncCmd op .queued) = false ∧ ((syncCard op .queued).ringOf 0 15).sync = .idle ∧
    (syncCard op .queued).signalHeld 0 (syncCmd op .queued) = false ∧
    (((syncCard op .queued).modChan 0 fun x => { x with
      cmds := { num := 0, ring := 15, descs := [], stage := .running } :: x.cmds }).chan 0).ahead
        (syncCmd op .queued) = true := by
  unfold AtHead
  decide +kernel

def signalling (op : Sync) (k : Nat) : State := (syncCard k .splitting).modRing 0 15 fun q => { q with sync := op }

theorem test_SignalWrites : (signalling .signalling opSignal).syncing 0 15 = some (syncCmd opSignal .splitting) ∧
    ((signalling .signalling opSignal).ringOf 0 15).sync = .signalling ∧
    (signalling .signalling opSignal).stalled (.sync 0 15) = false ∧ (signalling .signalling opSignal).mayRecord 0 = true ∧
    ((signalling .signalling opSignal).reach (syncAccess 0 15 (syncCmd opSignal .splitting) true)).2 =
      some (.hbm 0, 8) := by decide +kernel

theorem test_WaitEvents : (signalling (.waiting false) opWait).waitingAt 0 15 = some (syncCmd opWait .splitting, false) ∧
    hd [syncDesc opWait] 256 16 ≠ 0 ∧ (signalling (.waiting false) opWait).replayOn 0 = false ∧
    (signalling (.waiting false) opWait).mayRecord 0 = true := by decide +kernel

theorem test_WaitEvents_read : (signalling (.waiting true) opWait).waitingAt 0 15 =
      some (syncCmd opWait .splitting, true) ∧
    (signalling (.waiting true) opWait).stalled (.sync 0 15) = false ∧
    ((signalling (.waiting true) opWait).reach (syncAccess 0 15 (syncCmd opWait .splitting) false)).2 = some (.hbm 0, 8) ∧
    ((signalling (.waiting true) opWait).readVa (syncAccess 0 15 (syncCmd opWait .splitting) false) hbmData 8
      []).2.done = true := by decide +kernel

def finished : State := headed (descsOf opDrain) .running fun h => { h with next := 1, total := 1, ecs := [⟨0, 3, 0, some stNoTile⟩] }

theorem test_Completions : finished.dev.powered = true ∧ finished.arithOn 0 = true ∧
    (((finished.chan 0).cmd? 4).any fun h => h.stage = .running && h.allDone && h.status ≠ stOk) = true ∧
    finished.mayRecord 0 = true := by decide +kernel

/-- A record waits to be written, and its vector is open. -/
def recordDue : State :=
  { ringed.modRing 0 15 fun q => { q with held := [{ num := 4, word := 1, irq := true }] } with
    msix := [(0, { masked := false })] }

theorem test_Completions_record : (recordDue.ringOf 0 15).held = { num := 4, word := 1, irq := true } :: [] ∧
    (recordDue.ringOf 0 15).parked = false ∧ recordDue.cplFull 0 15 = false ∧
    (recordDue.writeRecord 0 15 { num := 4, word := 1, irq := true }).2 = true ∧ recordDue.dev.functionMask = false ∧
    (Tab.get {} recordDue.msix (recordDue.rd (.ring 0 15) Reg.ringCtl_VEC)).masked = false := by decide +kernel

/-! ### The copy unit, the staging buffers and the CVU -/

/-- An engine command, or a unit's, of a command that the head of ring 15 was split into. -/
def engOf (op : Nat) : EngCmd := { uid := 9, num := 4, idx := 0, ring := 15, ctx := 1, op := op, name := 0, descs := descsOf op }

/-- Ring 15's command runs, split into one engine command. -/
def runningCmd (op : Nat) : State :=
  headed (descsOf op) .running fun h => { h with next := 1, total := 1, ecs := [⟨0, 0x7f, 0, none⟩] }

/-- The command is in the copy unit of channel 0. -/
def copyCard (op : Nat) : State := (runningCmd op).modChan 0 fun x => { x with copies := [{ cmd := engOf op }] }
def copyOf (op : Nat) : CopyRun := { cmd := engOf op }
def copyStep (op : Nat) (s : State) : State × CopyRun × CopyEnd :=
  State.copyOn 0 (hd (descsOf op) 224 32 / 4096 + 2) (s.active 1) (copyOf op) []

theorem test_CopyUnit : ∀ op ∈ [opCopy, opLoadW], (copyCard op).dev.powered = true ∧
    (copyCard op).copyHead 0 = some (copyOf op) ∧ (copyCard op).mapRuns 0 = true ∧
    (copyCard op).stalled (.copy 0) = false ∧ (copyCard op).mayRecord 0 = true ∧
    (copyStep op (copyCard op)).2.2 = .done := by decide +kernel

/-- Packed T2 bytes above 242, poisoned bytes, and bytes that translation does not reach. -/
theorem test_CopyUnit_ends :
    (let s := (copyCard opLoadW).modChan 0 fun x => { x with hbm := x.hbm.put 0x40000 [243] };
      (hdWfmt (descsOf opLoadW) = wtT2 ∨ (State.copyOn 0 2 (s.active 1)
        { cmd := { engOf opLoadW with descs := [(descsOf opLoadW).headD 0 + wtT2 * 2 ^ 60] } } []).2.1.bad = true)) ∧
    (let s := (copyCard opCopy).modChan 0 fun x => { x with hbm := { x.hbm with poison := [0x40000] } };
      (copyStep opCopy s).2.2 = .poisoned) ∧
    (let s := (copyCard opCopy).modXlat fun x => { x with caches := [] };
      (copyStep opCopy s).2.2 = .waits) := by decide +kernel

theorem test_CopyUnit_oneRead : (copyOf opLoadW).cmd.op = opLoadW ∧ (copyOf opLoadW).moved = 0 ∧
    0 < hd (descsOf opLoadW) 224 32 ∧
    hd (descsOf opLoadW) 224 32 ≤ 4096 - hd (descsOf opLoadW) 128 48 % 4096 ∧
    (let o := (((copyCard opLoadW).active 1).readVa (copyAccess 0 (engOf opLoadW) 0x40000 false) hbmWeight 64 []).2;
      o.done = true ∧ o.poisoned = false ∧ o.bytes.length = 64) := by decide +kernel

/-- A MATMUL as a lodger command: its weights lie at 0x50000. -/
def lodgerDescs : List Nat := [tileDesc opMatmul (packed [(74, 1), (256, 0x50000)])]

/-- The lodger command's first chunk is wanted, and a buffer is free. -/
def lodging : State := (headed lodgerDescs .splitting fun h => { h with total := 1 }).modChan 0 fun x =>
  { x with lodgers := [4] }

theorem test_LodgerFills : lodging.dev.powered = true ∧ lodging.mapRuns 0 = true ∧
    (lodging.chan 0).bufferFree (1 - (lodging.chan 0).lastBuffer) = true ∧ lodging.refetch? 0 = none ∧
    ((lodging.nextChunk 0).map fun x => (x.1.num, x.2)) = some (4, 0, 0, 1) ∧
    ringed.refetch? 0 = none ∧ ringed.nextChunk 0 = none := by decide +kernel

/-- A repeated lodger command waits for its weights in engine 7. -/
def lodgerAgain : EngCmd := { engOf opMatmul with descs := lodgerDescs, again := true, refetch := true, buffer := some (0, 0) }
def refetching : State := lodging.modEngine 0 7 fun g => { g with queue := [lodgerAgain] }

theorem test_LodgerFills_refetch : refetching.refetch? 0 = some (7, lodgerAgain) ∧
    ([1 - (refetching.chan 0).lastBuffer, 1 - (1 - (refetching.chan 0).lastBuffer)].find?
      (refetching.chan 0).bufferFree).isSome = true := by decide +kernel

def fillOf (m : Moved) : LodgerBuf := { num := 4, chunk := 0, first := 0, rows := 1, ctx := 1, moved := m }
def filling (m : Moved) : State := lodging.modChan 0 fun x => { x with buffers := [(1, fillOf m)], lastBuffer := 1 }
def fillAccess : MemAccess :=
  { req := .lodger 0 1, ctx := 1, va := bWsrc lodgerDescs + (rowTileBytes lodgerDescs 0 1).1, write := false
    info := { ring := some 15, cmdid := some 0, num := some 4 } }

/-- The fill is read whole, from its first byte or from its last one; or translation does not reach its bytes. -/
theorem test_LodgerFills_complete :
    (((filling {}).chan 0).buffers.find? fun q => q.1 = (1 : Fin 2).val && q.2.filling) = some (1, fillOf {}) ∧
    (filling {}).ctxRuns 1 = true ∧ (filling {}).stalled (.lodger 0 1) = false ∧ (filling {}).mayRecord 0 = true ∧
    ((filling {}).chan 0).fillDescs (fillOf {}) = some lodgerDescs ∧
    (let n := (rowTileBytes lodgerDescs 0 1).2 - (rowTileBytes lodgerDescs 0 1).1;
      ((filling {}).readOn fillAccess hbmWeight n {} []).2.done = true ∧
      ((filling {}).readOn fillAccess hbmWeight n { bytes := List.replicate (n - 1) 7 } []).2.done = true ∧
      (((filling {}).modXlat fun x => { x with caches := [] }).readOn fillAccess hbmWeight n {} []).2.done = false) := by
  decide +kernel

/-- The CVU of channel 0 is ON. -/
def cvuOn (more : Cvu → Cvu) : State := ((runningCmd opCvu).setBlk (.cvu 0) blkOn).modCvu 0 more
def cvuRunOf (b : Nat) : CvuRun := { cmd := engOf opCvu, block := b }

theorem test_CvuCommands : (cvuOn fun u => { u with queue := [cvuRunOf 0] }).dev.powered = true ∧
    (cvuOn fun u => { u with queue := [cvuRunOf 0] }).unitRuns 0 (.cvu 0) = true ∧
    ((cvuOn fun u => { u with queue := [cvuRunOf 0] }).chan 0).cvu.run = none ∧
    ((cvuOn fun u => { u with queue := [cvuRunOf 0] }).chan 0).cvu.queue = cvuRunOf 0 :: [] ∧
    (cvuOn fun u => { u with queue := [cvuRunOf 0] }).ctxRuns (cvuRunOf 0).cmd.ctx = true := by decide +kernel

def cvuBusy (b : Nat) : State := cvuOn fun u => { u with run := some (cvuRunOf b), lane := 63 }

/-- The operands are read, or poisoned, or translation does not reach them. -/
theorem test_CvuCommands_block : ((cvuBusy 0).chan 0).cvu.run = some (cvuRunOf 0) ∧
    (cvuRunOf 0).block < cvuTotal (cvuRunOf 0).cmd ∧ (cvuRunOf 0).formed = false ∧ (cvuBusy 0).mayRecord 0 = true ∧
    ((cvuBusy 0).cvuRead 0 (cvuRunOf 0) []).2.2 = true ∧ ((cvuBusy 0).cvuRead 0 (cvuRunOf 0) []).2.1.poisoned = false ∧
    (let s := (cvuBusy 0).modChan 0 fun x => { x with hbm := { x.hbm with poison := [0] } };
      (s.cvuRead 0 (cvuRunOf 0) []).2.2 = true ∧ (s.cvuRead 0 (cvuRunOf 0) []).2.1.poisoned = true) ∧
    (((cvuBusy 0).modXlat fun x => { x with caches := [] }).cvuRead 0 (cvuRunOf 0) []).2.2 = false := by decide +kernel

/-- A formed block whose last writes are due. -/
def cvuFormed : CvuRun :=
  { cvuRunOf 0 with
    formed := true
    out := [{ va := 4096, bytes := [1], owner := { slot := 0x7f, epoch := 0, ctx := 1, info := {} } }] }

theorem test_CvuCommands_written : cvuFormed.formed = true ∧ cvuFormed.block < cvuTotal cvuFormed.cmd ∧
    ((cvuBusy 0).writeOut (cvuAccess 0 (engOf opCvu)) (cvuFormed.out.length + 1) cvuFormed.out).2 = [] ∧
    (((cvuBusy 0).modXlat fun x => { x with caches := [] }).writeOut (cvuAccess 0 (engOf opCvu))
      (cvuFormed.out.length + 1) cvuFormed.out).2 ≠ [] := by decide +kernel

/-- The last block is written; with a sideband record at 0x8000 or without. -/
theorem test_CvuCommands_complete : ((cvuBusy 1).chan 0).cvu.run = some (cvuRunOf 1) ∧
    cvuTotal (cvuRunOf 1).cmd ≤ 1 ∧ bSbaddr (descsOf opCvu) = 0 ∧ bSbaddr [tileDesc opCvu (packed [(416, 0x8000)])] ≠ 0 ∧
    (let k := { engOf opCvu with descs := [tileDesc opCvu (packed [(416, 0x8000)])] };
      ((cvuBusy 1).writeVa { cvuAccess 0 k with va := bSbaddr k.descs, write := true } hbmData
        (leBytes 16 (unitSideband 0 k {}))).2.2) = true := by decide +kernel

/-! ### Tiles and the array -/

/-- A command that has been placed on engine 7; its queue names each of its K-slices. -/
def placed (op : Nat) : EngCmd := { engOf op with order := [0] }

/-- Engine 7 of channel 0 is ON in the home of context 1, and holds what it is given. -/
def working (op : Nat) (g : Engine → Engine) : State := (runningCmd op).modEngine 0 7 g

/-- A name without a tile, and a FREE slot. -/
theorem test_TileClaims : ClaimHead (working opMatmul fun g => { g with queue := [placed opMatmul] }) 0 7 (placed opMatmul) ∧
    NoImage (working opMatmul fun g => { g with queue := [placed opMatmul] }) 0 7 (placed opMatmul) ∧
    (let g := (working opMatmul fun g => { g with queue := [placed opMatmul] }).engine 0 7;
      g.slotOf 1 0 = none ∧ g.mayClaim (placed opMatmul) = true ∧ elided (placed opMatmul) = false ∧
      g.freeSlot = some 0 ∧ (placed opMatmul).op ≠ opDrain) := by
  unfold ClaimHead NoImage
  decide +kernel

/-- The last slot is FREE; or every slot holds a PARKED tile, of which that of slot 2 completed first. -/
def parkedTiles (n : Nat) : Engine → Engine := fun g => (List.range n).foldl (fun g t =>
  g.setTile t { state := .parked, ctx := 1, name := t + 5, tagSet := true, stamp := if t = 2 then 1 else t + 3 })
    { g with queue := [placed opMatmul] }

theorem test_TileClaims_last : ((working opMatmul (parkedTiles 7)).engine 0 7).freeSlot = some 7 ∧
    ((working opMatmul (parkedTiles 8)).engine 0 7).freeSlot = none ∧ (working opMatmul (parkedTiles 8)).replayOn 0 = false ∧
    (∀ x ∈ ((working opMatmul (parkedTiles 8)).engine 0 7).slots, x.2.state ≠ .sealing ∧ x.2.state ≠ .restoring) ∧
    (working opMatmul (parkedTiles 8)).victim 0 7 = some 2 := by decide +kernel

/-- A PARKED tile under another tag is named by an accumulating command, or by DRAIN. -/
def named (op : Nat) (tag : Nat) : State :=
  working op fun g => ({ g with queue := [{ placed op with descs := [tileDesc op (2 ^ 77)] }] } : Engine).setTile 7
    { state := .parked, ctx := 1, name := 0, afmt := tag, tagSet := true }

theorem test_TileClaims_parked :
    (∀ op ∈ [opMatmul, opDrain], ∀ tag ∈ [fmtL8],
      ((named op tag).engine 0 7).slotOf 1 0 = some 7 ∧ ((named op tag).tile 0 7 7).state = .parked ∧
      ((named op tag).engine 0 7).inProgress < 2) ∧
    (let k : EngCmd := { placed opMatmul with descs := [tileDesc opMatmul (2 ^ 77)] };
      ClaimHead (named opMatmul fmtL8) 0 7 k ∧ hdAccum k.descs = true ∧
      ((named opMatmul fmtL8).tile 0 7 7).matchesTag k = false ∧ ((named opMatmul fmtL8).engine 0 7).mayClaim k = true) ∧
    ClaimHead (working opDrain fun g => { g with queue := [placed opDrain] }) 0 7 (placed opDrain) := by
  unfold ClaimHead
  decide +kernel

/-- The tile of slot 7 is SEALING or RESTORING, and an image of its name is kept. -/
def imaged (st : TileState) : State :=
  (working opMatmul fun g => ({ g with queue := [{ placed opMatmul with descs := [tileDesc opMatmul (2 ^ 77)] }] } :
    Engine).setTile 7 { state := st, ctx := 1, name := 0, tagSet := true }).modChan 0 fun x => { x with
      tileImages := [{ ctx := 1, name := 0, engine := 7, key := State.reset.dev.sealKey, space := 0, tile := { state := .parked } }] }

theorem test_TileImages : ((imaged .sealing).tile 0 7 7).state = .sealing ∧ (imaged .sealing).arithOn 0 = true ∧
    ((imaged .sealing).sealVa (sealAccess (imaged .sealing) 0 7 7 ((imaged .sealing).tile 0 7 7)) tileImageBytes).2 = true ∧
    ((imaged .free).awaitedImage 0 7).isSome = true ∧ ((imaged .free).engine 0 7).freeSlot = some 0 ∧
    (imaged .free).engRuns 0 7 = true ∧ (imaged .free).ctxRuns 1 = true := by decide +kernel

theorem test_TileImages_restored :
    ((((imaged .restoring).engine 0 7).slots.find? fun t =>
      t.2.state = .restoring && !(imaged .restoring).stalled (.seal 0 7 (Fin.ofNat 8 t.1))).map (·.1)) = some 7 ∧
    (((imaged .restoring).chan 0).tileImages.find? fun i => i.ofTile 7 ((imaged .restoring).tile 0 7 7)).isSome = true ∧
    ((imaged .restoring).openVa (sealAccess (imaged .restoring) 0 7 7 ((imaged .restoring).tile 0 7 7))
      tileImageBytes).2 = (true, false) ∧
    (((imaged .restoring).engine 0 7).queue.find? (·.ofTile ((imaged .restoring).tile 0 7 7))).isSome = true := by
  decide +kernel

def sliceEntry : SeqEntry := { num := 4, rt := 0, slice := 0, users := [9] }

/-- Slice 0 of the command at the head is due. -/
theorem test_WeightRegistersAndBanks :
    (let s := working opMatmul fun g => { g with queue := [placed opMatmul] };
      s.dev.powered = true ∧ s.engRuns 0 7 = true ∧ (s.engine 0 7).nextEntry = some sliceEntry ∧
      (s.engine 0 7).served sliceEntry = some (placed opMatmul) ∧ (placed opMatmul).refetch = false ∧ s.ctxRuns 1 = true ∧
      (s.engine 0 7).regA.loading = false ∧ (s.engine 0 7).regB.loading = false ∧ (s.engine 0 7).regA.entry = none ∧
      s.workingA 0 7 = true) ∧
    (let s := working opMatmul fun g => { g with queue := [placed opMatmul], regA := { entry := some sliceEntry, loading := true } };
      (s.engine 0 7).regA.loading = true ∧ (s.engine 0 7).served sliceEntry = some (placed opMatmul)) ∧
    (let s := working opMatmul fun g => { g with queue := [placed opMatmul], regB := { entry := some sliceEntry, loading := true } };
      (s.engine 0 7).regA.loading = false ∧ (s.engine 0 7).regB.loading = true ∧
      (s.engine 0 7).served sliceEntry = some (placed opMatmul)) ∧
    (ringed.wr (.eng 0 7) (Reg.engLnsBank_BUILDING 1) 1).flag (.eng 0 7) (Reg.engLnsBank_BUILDING 1) = true := by
  decide +kernel

/-- Lane 0 of engine 7 has begun the one slice of its command, whose inputs are I4, with or without its inputs. -/
def placedI4 : EngCmd := { placed opMatmul with descs := [tileDesc opMatmul (packed [(56, fmtI4)])] }
def laneRun (buf : List SliceIn) : EngRun :=
  { cmd := placedI4, slot := 7, lanes := [(0, { begun := true, buf := buf, idx := 0 })] }
def inputs0 : SliceIn := { idx := 0, inputs := [List.replicate 256 (.code 1)] }
def lane (buf : List SliceIn) : State :=
  (working opMatmul fun g => ({ g with
    runs := [laneRun buf], regA := { entry := some sliceEntry, ready := true, codes := [] } } :
      Engine).setTile 7 { state := .filling, ctx := 1, name := 0, last := some placedI4, geo := some placedI4 }).wr
        .pwr (Reg.pwrChStat_DUTY 0) 16

theorem test_LaneAt : LaneAt (lane [inputs0]) 0 7 (laneRun [inputs0]) 0 ∧ LaneAt (lane []) 0 7 (laneRun []) 0 := by
  unfold LaneAt
  decide +kernel

/-- The beat is neither skipped nor poisoned, and it is not the last of its lane's slice. -/
theorem test_BeatsIssue : (lane [inputs0]).pageCyc (.eng 0 7) / 8 % 16 < (lane [inputs0]).duty 0 ∧
    ((laneRun [inputs0]).lane 0).due = false ∧ ((laneRun [inputs0]).lane 0).begun = true ∧
    ((laneRun [inputs0]).lane 0).idx < placedI4.order.length ∧ ((laneRun [inputs0]).lane 0).buf.head? = some inputs0 ∧
    ((lane [inputs0]).skips 0 && beatSkips (hdAfmt placedI4.descs) 0 (inputs0.inputs.getD 0 [])) = false ∧
    (((lane [inputs0]).engine 0 7).regFor 9 0).isSome = true ∧ inputs0.poisoned = false ∧
    (lanePositions (windowOf placedI4.descs) placedI4.pt 0).length = 1 ∧
    ((laneRun [inputs0]).lane 0).beat + 1 < beatsPer (hdAfmt placedI4.descs) ∧ (BeatEvent.upset [] [] ≠ .poisoned) := by
  decide +kernel

/-- A lane without inputs, and one whose duty slot is closed. -/
theorem test_BeatsIssue_waits : (lane []).blk (.eng 0 7) = blkOn ∧ ((laneRun []).lane 0).buf = [] ∧
    ((laneRun []).lane 0).idx < (laneRun []).cmd.order.length ∧
    ((lane []).wr .pwr (Reg.pwrChStat_DUTY 0) 0).duty 0 ≤ ((lane []).wr .pwr (Reg.pwrChStat_DUTY 0) 0).pageCyc (.eng 0 7) / 8 % 16 := by
  decide +kernel

/-- Lane 0 has its inputs to read; the address table answers, or misses. -/
def fetchCmd (hit : Bool) : EngCmd :=
  { placed opMatmul with descs := [tileDesc opMatmul (if hit then 0 else 2 ^ 40 * 2 ^ 128)] }
def fetchRun (hit : Bool) : EngRun := { cmd := fetchCmd hit, slot := 7 }
def fetchCard (hit : Bool) : State := working opMatmul fun g =>
  ({ g with runs := [fetchRun hit] } : Engine).setTile 7
    { state := .filling, ctx := 1, name := 0, last := some (fetchCmd hit), geo := some (fetchCmd hit) }

theorem test_ActivationReads : ∀ hit, (fetchCard hit).dev.powered = true ∧
    (fetchCard hit).toFetch 0 7 0 = some (fetchRun hit, 0) ∧ (fetchCard hit).run? 0 7 9 = some (fetchRun hit) ∧
    isProduct (fetchRun hit).cmd.op = true ∧ (fetchCard hit).engRuns 0 7 = true ∧
    (fetchCard hit).stalled (.addrGen 0 7 0) = false ∧ (((fetchCard hit).engine 0 7).laneCredits 0).held ≠ 0 ∧
    ((fetchCard hit).fetchSlice 0 7 0 (fetchRun hit).cmd ((fetchRun hit).lane 0).fetched 0 []).2.isSome = hit := by
  decide +kernel

/-- The last lane's copy is under way: into totals it fits, or into a total at its limit. -/
def promoting (n : Nat) (v : Int) : State := working opMatmul fun h => h.setTile 7
  { state := .filling, ctx := 1, name := 0, last := some (placed opMatmul), geo := some (placed opMatmul),
    guarded := true, retries := n, list := [placed opMatmul], totals := [(63, [.int (.fin totalLimit)])]
    promoting := [(7, ⟨9, 0, 8, [(63, [.int (.fin v)])]⟩)] }

/-- An overflow of a guarded tile issues it again three times at most. -/
theorem test_Promotions : ∀ n ∈ [0, 2, 3], ∀ v ∈ [0, 2 ^ n], (promoting n v).dev.powered = true ∧
    ((promoting n v).engine 0 7).promotingTile 7 = some (7, ⟨9, 0, 8, [(63, [.int (.fin v)])]⟩) ∧
    (promoting n v).engRuns 0 7 = true ∧ (promoting n v).replayOn 0 = false ∧
    (((promoting n v).tile 0 7 7).enterPromo ⟨9, 0, 8, [(63, [.int (.fin v)])]⟩).2 = decide (v ≠ 0) := by
  decide +kernel

/-! ### The drain -/

/-- The drain path has taken the tile of slot 7 of engine 7, a tile of an opcode's command. -/
def drainOf (k : EngCmd) : Drain := { slot := 7, cmd := k }
def drainTile (k : EngCmd) : TileSlot :=
  { state := .draining, ctx := 1, name := 0, tagSet := true, last := some k, geo := some k, list := [k], closing := [k] }
def draining (k : EngCmd) (d : Drain) (g : Engine → Engine) : State :=
  working opMatmul fun h => (g { h with queue := [], drains := [7], drain := some d }).setTile 7 (drainTile k)

theorem test_DrainUnderWay : ∀ op ∈ [opMatmul, opPool, opStats],
    DrainUnderWay (draining (placed op) (drainOf (placed op)) id) 0 7 (drainOf (placed op)) (drainTile (placed op)) (placed op) := by
  unfold DrainUnderWay
  decide +kernel

/-- Nothing drains, and the tile of slot 7 stands first; a saved drain of it would go on at block 3. -/
def drainWaits (r : Option Drain) : State :=
  (draining (placed opMatmul) (drainOf (placed opMatmul)) fun g => { g with drain := none }).modTile 0 7 7 fun x =>
    { x with resume := r }

theorem test_DrainStart : ∀ r ∈ [none, some { drainOf (placed opMatmul) with block := 3 }],
    (drainWaits r).dev.powered = true ∧ ((drainWaits r).engine 0 7).drain = none ∧
    (((drainWaits r).engine 0 7).drains.find? fun m =>
      (drainWaits r).ctxRuns ((drainWaits r).tile 0 7 m).ctx && !((drainWaits r).tile 0 7 m).paused) = some 7 ∧
    ((drainWaits r).tile 0 7 7).last = some (placed opMatmul) ∧ ((drainWaits r).tile 0 7 7).geo = some (placed opMatmul) ∧
    (drainWaits r).engRuns 0 7 = true ∧ ((drainWaits r).tile 0 7 7).state = .draining ∧
    ((drainWaits r).tile 0 7 7).promoting = [] := by decide +kernel

/-- The row parameters lie at 0; they are read whole, and may be poisoned. -/
def paramsCard (bad : List Nat) : State :=
  (draining (placed opMatmul) (drainOf (placed opMatmul)) id).modChan 0 fun x => { x with hbm := { x.hbm with poison := bad } }

theorem test_DrainStart_params : ∀ bad ∈ [[], [4064]],
    (let o := ((paramsCard bad).readVa { drainAccess 0 7 (placed opMatmul) with va := oPaddr (descsOf opMatmul) + 4096 * 0 }
        hbmData 4096 []).2;
      (drainOf (placed opMatmul)).paramsHeld = false ∧ o.done = true ∧ o.poisoned = decide (bad ≠ [])) := by decide +kernel

/-- The first and the last block of a tile, whose command writes the output or sends a partial. -/
def headCmd : EngCmd := { placed opMatmul with descs := [tileDesc opMatmul (2 ^ 8), packed [(0, 3), (32, 1)]] }

theorem test_DrainBlocks : ∀ j ∈ [0, 7],
    (let d := { drainOf (placed opMatmul) with block := j, paramsHeld := true }; let s := draining (placed opMatmul) d id;
      s.mayRecord 0 = true ∧ d.block < 8 ∧ sendsPartial d.cmd = false ∧ d.pipe = [] ∧ (s.engine 0 7).output = [] ∧
      0 < (s.engine 0 7).drainCredit.held ∧ (drainTile (placed opMatmul)).mirrored = false ∧
      (drainTile (placed opMatmul)).rival = none) := by decide +kernel

theorem test_DrainBlocks_head : sendsPartial headCmd = true ∧
    ((draining headCmd { drainOf headCmd with block := 7, paramsHeld := true } id).engine 0 7).relay.occ < 2 := by
  decide +kernel

/-- The tile of a formed pair. -/
def pairedDrain : State :=
  (draining (placed opMatmul) { drainOf (placed opMatmul) with block := 7, paramsHeld := true } fun g =>
    { g with paired := true }).modTile 0 7 7 fun x => { x with mirrored := true }

theorem test_PairMismatch : DrainUnderWay pairedDrain 0 7 { drainOf (placed opMatmul) with block := 7, paramsHeld := true }
      { drainTile (placed opMatmul) with mirrored := true } (placed opMatmul) ∧
    pairedDrain.mayRecord 0 = true ∧ pairedDrain.replayOn 0 = false ∧ (pairedDrain.engine 0 7).output = [] ∧
    0 < (pairedDrain.engine 0 7).drainCredit.held ∧ (pairedDrain.engine 0 7).paired = true ∧
    (pairedDrain.tile 0 7 7).pairTimes = 0 ∧ (pairedDrain.tile 0 7 7).rerunnable = true := by
  unfold DrainUnderWay
  decide +kernel

/-- Block 7 stands in the pipeline; or everything has left but the sideband record; or a piece waits. -/
theorem test_EpilogueOutput :
    (let d := { drainOf (placed opMatmul) with block := 8, pipe := [(7, [])] };
      DrainUnderWay (draining (placed opMatmul) d id) 0 7 d (drainTile (placed opMatmul)) (placed opMatmul) ∧
      sendsPartial d.cmd = false ∧ ((draining (placed opMatmul) d id).engine 0 7).output = [] ∧
      (placed opMatmul).op ≠ opStats ∧ (placed opMatmul).op ≠ opRegroup) ∧
    (let d := { drainOf (placed opMatmul) with block := 8 };
      DrainUnderWay (draining (placed opMatmul) d id) 0 7 d (drainTile (placed opMatmul)) (placed opMatmul) ∧
      d.tailed = false) := by
  unfold DrainUnderWay
  decide +kernel

/-- A piece of engine 7's own write queue, of its present epoch or of an earlier one. -/
def pieceOf (epoch : Nat) (more : Bool) : Piece :=
  { va := 4095, bytes := [1, 2], owner := { slot := 7, epoch := epoch, ctx := 1, info := {} }, more := more }
def writing (ps qs : List Piece) : State :=
  draining (placed opMatmul) (drainOf (placed opMatmul)) fun g => { g with writes := ps, assembling := qs }
def drainWrite : MemAccess := { req := .drain 0 7, ctx := 1, va := 4095, write := true, info := {} }

theorem test_WriteBack : (writing [pieceOf 0 false] []).dev.powered = true ∧ (writing [pieceOf 0 false] []).arithOn 0 = true ∧
    (writing [pieceOf 0 false] []).isGhost 0 7 0 = false ∧ (writing [pieceOf 1 false] []).isGhost 0 7 1 = true ∧
    ((writing [pieceOf 0 false] []).writeSome drainWrite [pieceOf 0 false]).2 = [] ∧
    (((writing [pieceOf 0 false] []).modXlat fun x => { x with caches := [] }).writeSome drainWrite [pieceOf 0 false]).2 =
      [pieceOf 0 false] ∧
    (pieceOf 0 true).more = true ∧ (pieceOf 0 false).more = false ∧
    ((writing [pieceOf 0 false] [pieceOf 0 true]).writeWhole drainWrite [pieceOf 0 true, pieceOf 0 false]).2 = true := by
  decide +kernel

theorem test_DrainComplete :
    (let d := { drainOf (placed opMatmul) with block := 8, tailed := true }; let s := draining (placed opMatmul) d id;
      s.dev.powered = true ∧ (s.engine 0 7).drain = some d ∧ s.engRuns 0 7 = true ∧ sendsPartial d.cmd = false ∧
      (s.engine 0 7).output = [] ∧ (s.engine 0 7).writes = [] ∧ (s.engine 0 7).assembling = []) := by decide +kernel

/-- The candidates of one position lie in reach; or in poisoned bytes. -/
def merging (bad : List Nat) : State := (working opArgmax fun g => { g with queue := [placed opArgmax] }).modChan 0 fun x =>
  { x with hbm := { x.hbm with poison := bad } }
def mergeRead (bad : List Nat) : State × ReadOut × List (Nat × List Cand) :=
  (merging bad).argmaxReads (drainAccess 0 7 (placed opArgmax)) (placed opArgmax) []

theorem test_ArgmaxMerge : ∀ bad ∈ [[], [0]], (merging bad).dev.powered = true ∧
    ((merging bad).engine 0 7).queue.head? = some (placed opArgmax) ∧ (placed opArgmax).op = opArgmax ∧
    ((merging bad).engine 0 7).drain = none ∧ (merging bad).engRuns 0 7 = true ∧ (merging bad).ctxRuns 1 = true ∧
    (mergeRead bad).2.1.done = true ∧ (mergeRead bad).2.1.poisoned = decide (bad ≠ []) := by decide +kernel

theorem test_ArgmaxMerge_written : ((mergeRead []).1.argmaxWrites (drainAccess 0 7 (placed opArgmax)) (placed opArgmax)
    (mergeRead []).2.2).2 = true := by decide +kernel

/-! ### Credits, crossings and tandem chains -/

/-- Ring 15, engine 7 and channel 0 owe one credit of each queue. -/
def owing : State := (ringed.modRing 0 15 fun q => { q with owed := 1 }).modChan 0 fun x =>
  { x with
    engines := [(7, { credit := ⟨31, 1⟩, drainCredit := ⟨7, 1⟩, writeCredit := ⟨15, 1⟩, laneCredit := [(7, ⟨1, 1⟩)]
                      relay := { credits := [(3, ⟨3, 0, 1⟩)] } })]
    up := [(3, ⟨3, 0, 1⟩)], down := [(3, ⟨3, 0, 1⟩)] }

/-- Every entry of the landing buffer is held: all classes withhold. -/
def withholding (s : State) : State := s.modChan 0 fun x => { x with
  landing := (List.range 128).map fun i => (i, { cls := i % 4, shared := 64 ≤ i }) }

theorem test_CreditReturns : owing.dev.powered = true ∧ (owing.ringOf 0 15).owed ≠ 0 ∧
    (owing.engine 0 7).credit.owed ≠ 0 ∧ ((owing.engine 0 7).laneCredits 7).owed ≠ 0 ∧
    (owing.engine 0 7).drainCredit.owed ≠ 0 ∧ (owing.engine 0 7).writeCredit.owed ≠ 0 ∧
    ((owing.chan 0).upCredit 3).owed ≠ 0 ∧ ((owing.chan 0).downCredit 3).owed ≠ 0 ∧
    (owing.takeLanding 0 3 none).isSome = true ∧
    (∀ k, k < 3 → ((owing.engine 0 7).relay.credit k).owed = 0) ∧ ((owing.engine 0 7).relay.credit 3).owed ≠ 0 ∧
    (withholding owing).withholds 0 3 = true := by decide +kernel

/-- A block of engine 7's slot on channel 0, for tile 0 of context 1. -/
def hdrOf (kind block cls sepoch : Nat) : BlockHdr :=
  { tag := 5, dtile := 0, dctx := 1, dch := 0, cls := cls, block := block, kind := kind, tkind := 0, longsum := false
    fallback := false, retries := 0, guardDenied := false, cause := 0, pbase := 0, sslot := 7, sch := 0, sepoch := sepoch }
def movingOf (kind block sepoch : Nat) : Moving := { block := { hdr := hdrOf kind block 3 sepoch, values := [] } }
def aBlock : Moving := movingOf kindTotals 7 0

def crossed (x : Crossed) : State :=
  ringed.modChan 0 fun y => { y with toCh := { entries := [(x, 4)] }, fromCh := { entries := [(x, 4)] } }

theorem test_QueueCrossings : ∀ x ∈ [Crossed.tail 15 3, .block aBlock, .dropped (some aBlock), .dropped none],
    (crossed x).dev.powered = true ∧ (crossed x).replayOn 0 = false ∧ (crossed x).mayRecord 0 = true ∧
    ((crossed x).chan 0).toCh.entries = [(x, 4)] ∧ (crossed x).arithOn 0 = true ∧
    ((crossed x).chan 0).fromCh.entries = [(x, 4)] := by decide +kernel

/-- A block stands in engine 7's relay cell, for its own channel or for the port 3. -/
def relaying (next : Nat) : State := working opMatmul fun g => { g with relay := { sending := [{ aBlock with next := next }] } }

theorem test_TandemBlocksMove : ∀ next ∈ [16, 3], (relaying next).dev.powered = true ∧ (relaying next).engRuns 0 7 = true ∧
    (relaying next).mayRelay 0 7 { aBlock with next := next } = true ∧
    ({ aBlock with next := next } : Moving).localTo 0 = decide (next = 16) := by decide +kernel

/-- A block of channel 0 stands at the hub switch, for channel 0 itself, a channel that is not READY, or port 3, whose link
is up; or it is a ghost's. -/
def switching (m : Moving) : State := ((ringed.modChan 0 fun x => { x with switch := [m] }).modPort 3 fun p =>
  { p with egress := [], rx := [(4, [.part, .block { aBlock.block with hdr := { aBlock.block.hdr with cls := 3 } }])] }).wr
    (.hlk 3) Reg.hlkStat_LINK linkUpCode

def forOther : Moving := { aBlock with block := { aBlock.block with hdr := { aBlock.block.hdr with dch := 3 } } }

theorem test_TandemBlocksMove_switch :
    (∀ m ∈ [aBlock, { aBlock with next := 3 }, forOther], (switching m).dev.powered = true ∧
      ((switching m).chan 0).switch = [m] ∧ (switching m).replayHolds 0 = false ∧ (switching m).maySwitch m = true ∧
      (switching m).staleBlock m.block = false) ∧
    (switching aBlock).isReady 0 = true ∧ (switching forOther).isReady 3 = false ∧
    (switching (movingOf kindTotals 7 1)).staleBlock (movingOf kindTotals 7 1).block = true ∧
    (switching (movingOf kindTotals 7 1)).maySwitch (movingOf kindTotals 7 1) = true := by decide +kernel

theorem test_TandemBlocksMove_port : completeBlock (Tab.get [] ((switching aBlock).port 3).rx (1 + 3)) =
      some (2, aBlock.block) ∧
    (∀ k, k < 3 → completeBlock (Tab.get [] ((switching aBlock).port 3).rx (1 + k)) = none) ∧
    (switching aBlock).replayHolds 0 = false ∧ (switching aBlock).isReady 0 = true ∧
    0 < (((switching aBlock).chan 0).downCredit 3).held ∧ (switching aBlock).withholds 0 3 = false := by decide +kernel

/-- Blocks of the tile of slot 7 have been sent; the seventh or the eighth has been taken. -/
def taken (n : Nat) : State := working opMatmul fun g => ({ g with
  relay := { sent := [{ aBlock with tile := some 7 }] } } : Engine).setTile 7
    { drainTile (placed opMatmul) with accepted := n }

theorem test_BlockAccepted : ∀ n ∈ [0, 6, 7], (taken n).dev.powered = true ∧
    ((taken n).engine 0 7).relay.sent = [{ aBlock with tile := some 7 }] ∧
    (taken n).underWay 0 { aBlock with tile := some 7 } = false ∧ ((taken n).tile 0 7 7).accepted = n := by decide +kernel

/-- Tile 0 of context 1, in slot 7 of engine 7, awaits partial 5, of which the blocks of a mask are folded. -/
def linkCmd (role park : Nat) : EngCmd :=
  { placed opMatmul with descs := [tileDesc opMatmul (2 ^ 8 + park * 2 ^ 78), packed [(0, 3), (32, role)]] }
def awaitTile (k : EngCmd) (folded : Nat) : TileSlot :=
  { drainTile k with state := .filling, await := some { tag := 5, folded := folded } }
def awaits (k : EngCmd) (folded : Nat) (g : Engine → Engine) : State :=
  working opMatmul fun h => (g h).setTile 7 (awaitTile k folded)

/-- At the ingress, with and without a tile that awaits the block. -/
def atIngress (s : State) : State := s.modChan 0 fun x => { x with ingress := [aBlock] }

theorem test_BlocksLand :
    (let s := atIngress (awaits (linkCmd roleTail 0) 0 id);
      s.dev.powered = true ∧ s.replayOn 0 = false ∧ s.arithOn 0 = true ∧ s.mayRecord 0 = true ∧
      (s.chan 0).ingress = [aBlock] ∧ s.ghostBlock aBlock = false ∧ s.receiverOf 0 aBlock.block.hdr = some (7, 7) ∧
      (s.engine 0 7).relay.occ < 2 ∧ (s.chan 0).landed 1 5 = []) ∧
    (let s := atIngress (working opMatmul id);
      s.receiverOf 0 aBlock.block.hdr = none ∧ aBlock.backed = false ∧ (s.takeLanding 0 3 none).isSome = true ∧
      (withholding s).withholds 0 3 = true ∧ (withholding s).receiverOf 0 aBlock.block.hdr = none) := by decide +kernel

/-- Entry 127 holds the awaited block. -/
def landedAt (s : State) (l : Landing) : State := s.modChan 0 fun x => { x with landing := [(127, l)] }

theorem test_BlocksLand_move :
    (let s := landedAt (awaits (linkCmd roleTail 0) 0 id) { cls := 3, shared := false, block := some aBlock };
      s.landedFor 0 7 = some (7, 127, aBlock) ∧ s.ghostBlock aBlock = false ∧ s.engRuns 0 7 = true ∧
      (s.engine 0 7).relay.occ < 2) := by decide +kernel

/-- The relay cell has received a block. -/
def received (k : EngCmd) (folded : Nat) (m : Moving) : State :=
  awaits k folded fun g => { g with relay := { received := [m] } }

/-- First and last block of a MID and of a TAIL, a break marker, a block of another kind, and one folded before. -/
theorem test_BlocksFold : ∀ role ∈ [roleMid, roleTail], ∀ x ∈ [(0, movingOf kindTotals 0 0), (0x7f, movingOf kindTotals 7 0),
      (0, movingOf kindBreak 0 0), (0x80, movingOf kindTotals 7 0), (0, { aBlock with block := { aBlock.block with hdr :=
        { aBlock.block.hdr with tkind := 1 } } })],
    (let k := linkCmd role 0; let s := received k x.1 x.2;
      s.dev.powered = true ∧ (s.engine 0 7).relay.received = [x.2] ∧ s.engRuns 0 7 = true ∧ s.ghostBlock x.2 = false ∧
      (s.engine 0 7).awaiting x.2.block.hdr = some (7, awaitTile k x.1) ∧ s.ctxRuns 1 = true ∧
      tRole k.descs = role ∧ hdPark k.descs = false) := by decide +kernel

theorem test_BlocksFold_clauses : ((0x7f ||| 2 ^ 7) = 0xff) ∧ ((0 ||| 2 ^ 0) ≠ 0xff) ∧ bitsOf 0x80 7 1 = 1 ∧ bitsOf 0x7f 7 1 = 0 ∧
    (kindTotals ≠ kindBreak) ∧ ((movingOf kindTotals 7 0).block.hdr.kind = kindStats ↔ (linkCmd roleTail 0).op = opStats) := by
  decide +kernel

/-- No tile awaits the block. -/
theorem test_BlocksFold_late :
    (let s := working opMatmul fun g => { g with relay := { received := [aBlock] } };
      (s.engine 0 7).awaiting aBlock.block.hdr = none ∧ s.foldWaits 0 7 aBlock = false) := by decide +kernel

/-- All 128 entries are taken; the block of entry 127 is for context 1, which is not resident. -/
def spillEntry (spilling : Bool) : Landing := { cls := 3, shared := true, block := some aBlock, spilling := spilling, spillAt := 4096 }
def spillCard (spilling : Bool) : State := ((withholding ringed).modChan 0 fun x => { x with
  landing := Tab.set x.landing 127 (spillEntry spilling) }).wr .ctx (Reg.ctxSlot_STATE 7) slotFree

theorem test_LandingSpills :
    (((spillCard false).chan 0).landing.find? fun l => l.1 = 127) = some (127, spillEntry false) ∧
    (spillCard false).withholds 0 3 = true ∧
    (spillCard false).slotOfCtx 1 = none ∧
    (spillCard false).arithOn 0 = true ∧
    Tab.get { cls := 0, shared := false } ((spillCard true).chan 0).landing 127 = spillEntry true ∧
    ((spillCard true).sealVa { req := .landing 0 127, ctx := 1, va := (spillCard true).saveRegion 0 1 + 4096, write := true }
      (blockSize aBlock.block)).2 = true := by decide +kernel

/-! ### SCAN and FORK -/

/-- A SCAN engine command of stream 1023 needs page 0 of its state; the page has one record. -/
def scanCmd (p : ScanProg) : EngCmd := { placed opScan with scan := p }
def statePage (st : PageState) (pins : List Nat) : StatePage :=
  { index := 0, owner := 1023, sharers := [1023], state := st, frame := 2, pins := pins }
def scanCard (g : Engine → Engine) (pg : StatePage) (pad : Tab Paddocked) : State :=
  (working opScan g).modChan 0 fun x => { x with pages := [pg], paddock := pad, paddockOrder := pad.map (·.1) }
def scanHead (g : Engine) : Engine := { g with queue := [scanCmd {}] }

/-- The paddock holds a command of another stream in every entry, or one of the same stream in its last. -/
def fullPaddock : Tab Paddocked := (List.range 64).map fun i =>
  (i, { slot := 9, cmd := { scanCmd {} with uid := 100 + i, descs := [packed [(0, opScan), (16, 1), (24, 5)]] } })

theorem test_ScanHeadChecks : ∀ x ∈ [(PageState.resident, ([] : Tab Paddocked)), (.away, []), (.away, fullPaddock),
      (.resident, [(63, { slot := 9, cmd := { scanCmd {} with uid := 100 } })])],
    (let s := scanCard scanHead (statePage x.1 []) x.2;
      ScanAtHead s 0 7 (scanCmd {}) ∧ (s.chan 0).pinned (scanCmd {}) = false ∧ s.mayRecord 0 = true ∧
      (s.chan 0).pagesReady (scanCmd {}) = decide (x.1 = .resident)) := by
  unfold ScanAtHead
  decide +kernel

theorem test_ScanHeadChecks_clauses :
    OneRecordEach (scanCard scanHead (statePage .resident []) []) 0 (scanStream (scanCmd {})) ∧
    ¬ BehindInPaddock (scanCard scanHead (statePage .resident []) []) 0 (scanCmd {}) ∧
    BehindInPaddock (scanCard scanHead (statePage .resident []) [(63, { slot := 9, cmd := { scanCmd {} with uid := 100 } })])
      0 (scanCmd {}) ∧
    (scanCard scanHead (statePage .away []) []).padFree 0 = some 0 ∧
    (scanCard scanHead (statePage .away []) fullPaddock).padFree 0 = none := by
  unfold OneRecordEach BehindInPaddock
  decide +kernel

/-- The pinned head, or the command in the re-entry position. -/
theorem test_ScanStarts :
    (let s := scanCard scanHead (statePage .resident [9]) [];
      s.dev.powered = true ∧ (s.engine 0 7).scanning = none ∧ s.engRuns 0 7 = true ∧ s.ctxRuns 1 = true ∧
      (s.engine 0 7).queue.head? = some (scanCmd {}) ∧ (scanCmd {}).op = opScan ∧ (s.chan 0).pinned (scanCmd {}) = true) ∧
    (let s := scanCard (fun g => { g with reentry := some (scanCmd {}) }) (statePage .resident [9]) [];
      (s.engine 0 7).scanning = none ∧ s.engRuns 0 7 = true ∧ (s.engine 0 7).queue.head? = none ∧
      s.headHolds 0 7 = false ∧ (s.engine 0 7).reentry = some (scanCmd {})) := by decide +kernel

/-- The scan unit works on a command whose a and b lie at 0, in reach or not, poisoned or not. -/
def scanning (p : ScanProg) (s : State → State) : State :=
  s (scanCard (fun g => { g with scanning := some (scanCmd p) }) (statePage .resident [9]) [])
def noCaches (s : State) : State := s.modXlat fun x => { x with caches := [] }
def badBytes (s : State) : State := s.modChan 0 fun x => { x with hbm := { x.hbm with poison := [0] } }

theorem test_ScanComputes : ∀ f ∈ [id, noCaches, badBytes], (scanning {} f).dev.powered = true ∧
    ((scanning {} f).engine 0 7).scanning = some (scanCmd {}) ∧ (scanning {} f).engRuns 0 7 = true ∧
    (scanning {} f).ctxRuns 1 = true ∧ (scanCmd {}).scan.formed = false := by decide +kernel

def scanRead (f : State → State) : State × ScanProg × Bool := ((scanning {} f).active 1).scanReads 0 7 (scanCmd {}) []

theorem test_ScanComputes_clauses : (scanRead noCaches).2.2 = false ∧ (scanRead id).2.2 = true ∧ (scanRead badBytes).2.2 = true ∧
    (scanRead id).1.scanPoisoned 0 (scanCmd (scanRead id).2.1) = false ∧
    (scanRead badBytes).1.scanPoisoned 0 (scanCmd (scanRead badBytes).2.1) = true := by decide +kernel

/-- Results are formed: outputs are left, or nothing but the end; the inputs were poisoned or not. -/
def scanPiece : Piece := { va := 0, bytes := [1], owner := { slot := 7, epoch := 0, ctx := 1, info := {}, scan := true } }

theorem test_ScanCompletes : ∀ p ∈ [({ formed := true, out := [scanPiece] } : ScanProg), { formed := true },
      { formed := true, lost := true }],
    (scanning p id).dev.powered = true ∧ ((scanning p id).engine 0 7).scanning = some (scanCmd p) ∧
    (scanning p id).engRuns 0 7 = true ∧ (scanning p id).ctxRuns 1 = true ∧ (scanCmd p).scan.formed = true ∧
    ((scanning p id).engine 0 7).scanWrites = false ∧ nSbaddr (scanCmd p).descs = 0 := by decide +kernel

/-- The last command of a SCAN that names a sideband record has it still to form. -/
def sidedCmd : EngCmd := { scanCmd { formed := true } with descs := [(descsOf opScan).headD 0 + packed [(454, 0x50000)]] }
def sided : State := scanCard (fun g => { g with scanning := some sidedCmd }) (statePage .resident [9]) []

theorem test_ScanCompletes_sideband : (sided.chan 0).lastOf sidedCmd = true ∧ sidedCmd.scan.tailed = false ∧
    (sided.engine 0 7).scanWrites = false ∧ (sided.engine 0 7).scanning = some sidedCmd ∧
    (sided.active 1).scanSideband 0 7 sidedCmd ((sided.scanBefore 0 sidedCmd).plus sidedCmd.scan.counts) ≠ [] := by
  decide +kernel

/-- Two streams become children of stream 1023, which has two pages. -/
def forkJob : ForkJob := { num := 4, parent := 1023, children := [(0, 0x10000), (1022, 0x20000)] }
def forkCard : State := (runningCmd opFork).modChan 0 fun x => { x with forks := [forkJob] }

theorem test_ForkCompletes : forkCard.dev.powered = true ∧ forkCard.mapRuns 0 = true ∧
    ((forkCard.chan 0).forks.find? fun f => !(forkCard.chan 0).forkWaits f && forkCard.ctxRuns (forkCard.stream f.parent).ctx) =
      some forkJob ∧ 0 < (forkCard.stream 1023).pages ∧ (forkCard.stream 1023).state ≠ strmClosing ∧
    (forkCard.stream 0).state ≠ strmClosing := by decide +kernel

/-- A property of the default and of every entry holds of what a table gives. -/
theorem tab_get_all {α : Type} (P : α → Prop) (d : α) (hd : P d) (t : Tab α) (h : ∀ x ∈ t, P x.2) (k : Nat) :
    P (Tab.get d t k) := by
  induction t with
  | nil => exact hd
  | cons x t ih =>
    have hx := h x (by simp)
    have ht := ih fun y hy => h y (by simp [hy])
    simp only [Tab.get]
    split <;> assumption

/-- No stream of the card is closing. -/
theorem test_ForkCompletes_open : ∀ n, (forkCard.stream n).state ≠ strmClosing :=
  tab_get_all (fun r : StreamRec => r.state ≠ strmClosing) {} (by decide) _ (by decide +kernel)

/-! ### Harness ports -/

/-- Port 3 has a present peer, is enabled, and its link is in a state. -/
def onPort (st : Nat) : State :=
  (((up.wr .far (Reg.farSb_ASSERTED 3) 1).wr (.hlk 3) Reg.hlkCfg_EN 1).wr (.hlk 3) Reg.hlkStat_LINK st).modPort 3 fun p =>
    { p with lanes := 14, credits := fullCredits }

def aHello (proto : Byte) (lanes : BitVec 4) : Hello :=
  { id := 1, port := 3, proto := proto, ack := 4095, lanes := lanes, own := 15 }

theorem test_LinkTraining : (onPort linkDown).dev.powered = true ∧ (onPort linkDown).flag (.hlk 3) Reg.hlkCfg_EN = true ∧
    (onPort linkDown).present 3 = true ∧ (onPort linkDown).link 3 = linkDown ∧ (onPort linkDown).mainUp = true ∧
    (onPort linkTraining).link 3 = linkTraining := by decide +kernel

/-- A peer of another PROTO, and peers with four lanes, one lane and none. -/
theorem test_LinkTraining_proto : (aHello (Config.proto + 1) 15).proto ≠ Config.proto := by
  intro h
  have : Config.proto + 1 = Config.proto := h
  bv_omega

theorem test_LinkTraining_lanes : ∀ st ∈ [linkTraining, linkRetraining],
    chooseLanes ((onPort st).commonLanes 3 (aHello Config.proto 15)) ((onPort st).rd (.hlk 3) Reg.hlkCfg_MAXW) = some (15, 0) ∧
    chooseLanes ((onPort st).commonLanes 3 (aHello Config.proto 8)) ((onPort st).rd (.hlk 3) Reg.hlkCfg_MAXW) = some (8, 2) ∧
    chooseLanes ((onPort st).commonLanes 3 (aHello Config.proto 0)) ((onPort st).rd (.hlk 3) Reg.hlkCfg_MAXW) = none := by
  decide +kernel

theorem test_PortsLost : ∀ st ∈ [linkUpCode, linkRetraining], (onPort st).dev.powered = true ∧
    (onPort st).linkLive 3 = true ∧ (((onPort st).modPort 3 fun p => { p with leaving := true }).port 3).leaving = true ∧
    (onPort linkRetraining).link 3 = linkRetraining := by decide +kernel

/-- Lane 0 is not in use, lane 3 is; with AUTODEGRADE or without it, and with lanes left or none. -/
theorem test_LinkRetrains : (onPort linkUpCode).linkLive 3 = true ∧ bitsOf ((onPort linkUpCode).port 3).lanes 0 1 = 0 ∧
    bitsOf ((onPort linkUpCode).port 3).lanes 3 1 = 1 ∧
    (∀ b ∈ [0, 1], ((onPort linkUpCode).wr (.hlk 3) Reg.hlkCfg_AUTODEGRADE b).flag (.hlk 3) Reg.hlkCfg_AUTODEGRADE =
      decide (b = 1)) ∧
    (onPort linkUpCode).rd (.hlk 3) Reg.hlkStat_LANE_FAIL ||| 2 ^ 3 ≠ 15 ∧
    ((onPort linkUpCode).wr (.hlk 3) Reg.hlkStat_LANE_FAIL 7).rd (.hlk 3) Reg.hlkStat_LANE_FAIL ||| 2 ^ 3 = 15 ∧
    (onPort linkUpCode).writable .host (.hlk 3) 0x100 = true ∧ (onPort linkRetraining).link 3 = linkRetraining := by
  decide +kernel

/-- A port with something to send: a NAK, a replay, a message of one flit in CTRL, or nothing. -/
def aFlit (fseq : Nat) : Flit := { ftype := 1, vc := 0, som := true, fseq := BitVec.ofNat 12 fseq, ack := 4095, crvc := 4
                                   crcnt := 255, len := 240, eom := true, body := .part }
def lockMsg : LinkMsg := { body := .ctrl .cancel, bytes := 240 }
def sending (f : Port → Port) : State := (onPort linkUpCode).modPort 3 f

theorem test_FlitsSent : (sending id).dev.powered = true ∧ (sending id).linkUp 3 = true ∧
    ((sending fun p => { p with nakDue := true }).port 3).nakDue = true ∧
    ((sending fun p => { p with resend := [aFlit 4095] }).port 3).resend = [aFlit 4095] ∧
    Tab.get [] ((sending fun p => { p with egress := [(0, [lockMsg])] }).port 3).egress 0 = [lockMsg] ∧
    lockMsg.flits = 1 ∧ lockMsg.flits ≤ Tab.get 0 ((sending id).port 3).credits 0 ∧
    ((sending fun p => { p with egress := [(0, [lockMsg])] }).port 3).replay.length < 1024 ∧
    (∀ v, v ≤ 4 → ((sending id).port 3).canSend v = false) := by decide +kernel

theorem test_FlitsSent_fresh : EgressFresh 3 (sending id) := by
  have h : ((sending id).port (3 : PortId)).egress = [] := by decide +kernel
  intro v _ _ m hm
  rw [h] at hm
  simp [Tab.get] at hm

/-- The expected flit after 4095 is 0; 4095 again and one 2048 behind are duplicates or not; the classes of credits end
with 4. -/
def receiving : State := sending fun p => { p with accepted := 4095 }

theorem test_FlitsReceived : receiving.linkUp 3 = true ∧ (aFlit 0).ftype = 1 ∧ (aFlit 0).body ≠ .ctrl .cancel ∧
    (aFlit 0).fseq.toNat = ((receiving.port 3).accepted + 1) % 4096 ∧
    (aFlit 4095).fseq.toNat ≠ ((receiving.port 3).accepted + 1) % 4096 ∧
    seqBehind (aFlit 4095).fseq.toNat (receiving.port 3).accepted < 2048 ∧
    seqBehind (aFlit 2048).fseq.toNat (receiving.port 3).accepted < 2048 ∧
    2048 ≤ seqBehind (aFlit 1).fseq.toNat (receiving.port 3).accepted ∧ (receiving.port 3).nakSent = false ∧
    FlitQuality.badCrc ≠ .good ∧ FlitQuality.uncorrectable ≠ .good := by decide +kernel

theorem test_FlitsReplayed : ((sending fun p => { p with replay := [aFlit 4095, aFlit 0] }).port 3).resend = [] ∧
    ((sending fun p => { p with replay := [aFlit 4095, aFlit 0] }).port 3).replay = [aFlit 4095, aFlit 0] ∧
    (sending fun p => { p with replay := [aFlit 4095, aFlit 0] }).linkUp 3 = true := by decide +kernel

/-! ### Gaits, power states and the governor -/

/-- Channel 0 runs at a gait, with PSTATE shown and asked for as given. -/
def gaited (gait st req : Nat) : State :=
  ((up.wr .pwr (Reg.pwrChStat_GAIT 0) gait).wr .pwr (Reg.pwrChStat_PSTATE 0) st).wr .pwr (Reg.pwrChCtl_PSTATE 0) req

theorem test_GaitChanges : (∀ g ∈ [gWalk, gTrot, gGallop], (gaited g 0 0).dev.powered = true ∧
      (gaited g 0 0).writable .host .pwr (ctlOff 0) = true ∧ GaitMayStart (gaited g 0 0) 0 ∧ (gaited g 0 0).gait 0 = g) ∧
    ¬ GaitMayStart (gaited gTrot 1 0) 0 := by
  unfold GaitMayStart
  decide +kernel

def changing (g g2 : Nat) : State := ((gaited g 0 0).wr .pwr (Reg.pwrChStat_CHANGING 0) 1).modChan 0 fun x => { x with gaitTo := g2 }

theorem test_GaitChanges_done : ∀ g ∈ [gWalk, gGallop], (changing g 3).changing 0 = true ∧ (changing g 3).arithOn 0 = true ∧
    (changing g 3).replayOn 0 = false ∧ (changing g 3).mayRecord 0 = true ∧ ((changing g 3).chan 0).gaitTo < 4 := by
  decide +kernel

theorem test_PllLocks : (let s := (gaited gTrot 0 0).wr .clk (Reg.clkArith_LOCKED 0) 0;
      s.dev.powered = true ∧ s.railsUp = true ∧ s.arithOn 0 = false ∧ s.pstate 0 ≠ 1 ∧ s.pstate 0 ≠ 2) ∧
    (gaited gTrot 0 0).arithOn 0 = true ∧ (gaited gTrot 0 0).changing 0 = false := by decide +kernel

/-- A channel that rests, and one that may. -/
theorem test_PowerRequests : (gaited gTrot 0 0).writable .host .pwr (ctlOff 0) = true ∧
    (gaited gTrot 0 1).maySleep 0 = true ∧ (gaited gTrot 0 0).maySleep 0 = false ∧
    (gaited gTrot 0 2).mayPark 0 = true ∧ (gaited gTrot 0 0).mayPark 0 = false := by decide +kernel

def resting (st : Nat) (waking settled : Bool) : State :=
  (gaited gTrot st 0).modChan 0 fun x => { x with waking := waking, settled := settled }

theorem test_Wakes : (resting 1 false false).pstate 0 = 1 ∧ (resting 1 true false).lent = false ∧
    (resting 2 true false).pstate 0 ≠ 1 ∧
    (let s := (resting 1 true false).wr .pwr (Reg.pwrChStat_LOAN_W 1) 10;
      (s.chan 0).waking = true ∧ s.lent = true ∧ (s.chan 0).settled = false) ∧
    ((resting 1 true true).chan 0).settled = true := by decide +kernel

theorem test_GovernorPeriods : up.dev.powered = true ∧ up.railsUp = true ∧
    (∀ d ∈ [0, gaitShare (up.gait 0) + up.loan 0, gaitShare (up.gait 0) + up.loan 0 + 1, 255, 256], d ≤ 256) := by
  decide +kernel

theorem test_UcieErrors : up.dev.powered = true ∧ up.mainUp = true ∧ up.chState 0 ≠ chRetired ∧ up.chState 3 ≠ chRetired := by
  decide +kernel

/-! ### Resets, the start and retirement -/

theorem test_Resets : up.dev.powered = true ∧ up.railsUp = true ∧ up.mainUp = true ∧
    (onPort linkUpCode).linkUp 3 = true ∧ (up.wr .hif Reg.hifLink_DL_UP 1).flag .hif Reg.hifLink_DL_UP = true ∧
    up.flag .hif Reg.hifLink_DL_UP = false ∧ up.dev.farrierUp = true ∧ up.bootStep ≠ stepRecovery ∧
    (up.wr .far Reg.farBoot_STEP stepRecovery).bootStep = stepRecovery := by decide +kernel

/-- An image of the lowest version accepted, one below it, and one whose signature is bad. -/
def image (sig : Bool) (svn : Byte) : BankImage := ⟨sig, svn⟩

theorem test_PowerOn : State.reset.bootStep = stepRom ∧ (up.modDev fun d => { d with powered := false }).dev.powered = false ∧
    up.bootStep ≠ stepRom ∧ bankFail (image true 7) 7 = 0 ∧ bankFail (image true 6) 7 ≠ 0 ∧
    bankFail (image false 7) 7 ≠ 0 ∧ (299 < 300) ∧ 300 ≤ 300 := by decide +kernel

theorem test_PerstDeassert :
    (let s := (up.modDev fun d => { d with mainRuns := false }).wr .far Reg.farBoot_STEP stepWaitPerst;
      s.dev.powered = true ∧ s.bootStep = stepWaitPerst ∧ s.dev.farrierUp = true ∧
      s.flag .far (Reg.farSb_ASSERTED 0) = false ∧ s.rasState 3 ≠ rasRetired ∧ s.mainUp = false) ∧ up.mainUp = true := by
  decide +kernel

/-- Channel 0 is at a step of its start. -/
def starting (st : Nat) : State := up.wr .hif (readyFld 0) st

theorem test_ChannelStart : (∀ st ∈ [chHbmTrain, chSelftest, chGroomBoot, chEngineCheck], (starting st).dev.powered = true ∧
      (starting st).chState 0 = st ∧ (starting st).arithOn 0 = true ∧ (starting st).dev.farrierUp = true ∧
      (starting st).rasState 0 ≠ rasReadmitting ∧ ((starting st).chan 0).failing = none ∧
      chHbmTrain ≤ st ∧ st ≤ chEngineCheck) ∧
    ((starting chEngineCheck).wr .ras (Reg.rasChStat_STATE 0) rasReadmitting).rasState 0 = rasReadmitting := by
  decide +kernel

theorem test_ChannelRetires : ∀ f ∈ [none, some 1, some 5],
    (let s := ringed.modChan 0 fun x => { x with failing := f };
      s.dev.powered = true ∧ s.mainUp = true ∧ s.dev.farrierUp = true ∧ s.chState 0 ≠ chRetired ∧ s.chState 0 ≠ chOff ∧
      (s.chan 0).failing = f ∧ (s.stream 1023).state = strmOpen ∧ (s.stream 1023).home = 0) := by decide +kernel

/-! ### The farrier's management -/

/-- An update is under way; its component is verified or still loads. -/
def updating (u : FwUpdate) : State := up.modDev fun d => { d with update := some u }

theorem test_PldmRequests : up.dev.powered = true ∧ up.dev.farrierUp = true ∧ up.dev.update = none ∧
    (updating { comps := [.groom], current := some .groom }).dev.update = some { comps := [.groom], current := some .groom } ∧
    (true && decide (up.rd .far Reg.farFwStat_SVN_MIN ≤ BitVec.toNat (0 : Byte))) = true := by decide +kernel

theorem test_FirmwareActivation : up.dev.update.elim [] (·.verified) = [] ∧
    (let s := updating { comps := [.groom, .farrier], verified := [(.groom, 0), (.farrier, 0)] };
      s.dev.powered = true ∧ s.dev.farrierUp = true ∧ s.bootStep ≠ stepRecovery ∧ s.isReady 0 = true) ∧
    ((updating { comps := [.groom], verified := [(.groom, 0)] }).isReady 0 = true) ∧
    (let s := up.wr (.grm 0) Reg.grmStat_PATCHING 1; s.flag (.grm 0) Reg.grmStat_PATCHING = true ∧ s.mapRuns 0 = true) := by
  decide +kernel

theorem test_FarrierRestarts :
    (let s := (up.modDev fun d => { d with farrierUp := false }).wr .hif Reg.hifReady_LINKS_STARTED 1;
      s.dev.powered = true ∧ s.dev.farrierUp = false ∧ s.flag .hif Reg.hifReady_LINKS_STARTED = true) ∧
    up.dev.farrierUp = true := by decide +kernel

/-- THROTTLE_N (1) and the presence of the last cage (9) with a level, and what is shown of it. -/
def input (n : Fin 10) (raw asserted : Nat) : State :=
  ((onPort linkUpCode).wr .far (Reg.farSb_RAW n) raw).wr .far (Reg.farSb_ASSERTED n) asserted

theorem test_SidebandInputs : ∀ n ∈ [(1 : Fin 10), 9], (input n 0 0).dev.powered = true ∧
    (input n 0 0).flag .far (Reg.farSb_RAW n) ≠ true ∧ (input n 1 0).flag .far (Reg.farSb_RAW n) = true ∧
    (input n 1 0).flag .far (Reg.farSb_ASSERTED n) = false ∧ (input n 0 1).flag .far (Reg.farSb_RAW n) = false ∧
    (input n 0 1).flag .far (Reg.farSb_ASSERTED n) = true ∧ (input n 0 1).flag .far (Reg.farSb_STUCK n) = false := by
  decide +kernel

/-- Three edges; the first lies within a settling time, or just outside it. -/
def edged : State := up.modDev fun d => { d with sideband := [(9, { edges := [3, 2, 1] })] }

theorem test_SidebandInputs_edges : (Tab.get {} edged.dev.sideband 9).edges = [3, 2, 1] ∧
    edged.cyc domService < 1 + settleCycles ∧ ¬ (settleCycles + 1 < 1 + settleCycles) ∧
    ((onPort linkUpCode).linkLive 3 = true ∧ 3 = 2 + 3 / 2) := by decide +kernel

theorem test_LockstepAndTemperature : up.dev.powered = true ∧ up.mainUp = true ∧ up.chState 3 ≠ chRetired := by decide +kernel

/-! ### Repair and the farrier's messages -/

/-- The substitution into slot 63 waits, with a pool or without one. -/
def substituting (pool : Bool) : State := up.modChan 0 fun x => { x with
  substWait := [63], slotMap := if pool then [] else (List.range 8).map fun i => (64 + i, 0x7f) }

theorem test_Substitutions : ∀ b, (substituting b).dev.powered = true ∧ ((substituting b).chan 0).substWait.contains 63 = true ∧
    (substituting b).dev.farrierUp = true ∧ (substituting b).arithOn 0 = true ∧
    (substituting b).remount 0 63 = if b then some 64 else none := by decide +kernel

/-- Site 71 holds no slot. -/
def siteAt (st returns : Nat) (cols : List Nat) : State := (up.modChan 0 fun x => { x with slotMap := [(71, 0x7f)] }).modSite 0 71
  fun x => { x with state := st, returns := returns, colmap := cols }

theorem test_Retests : (∀ r ∈ [1, 2], SiteWaits (siteAt siteHeld r []) 0 71 ∧ ((siteAt siteHeld r []).site 0 71).state = siteHeld ∧
      ((siteAt siteHeld r []).site 0 71).returns = r) ∧
    SiteWaits (siteAt siteRetesting 1 []) 0 71 ∧ ((siteAt siteRetesting 1 []).site 0 71).state = siteRetesting ∧
    (((siteAt siteRetesting 1 []).site 0 71).retestMap [255]).isSome = true ∧
    (siteAt siteRetesting 1 []).emptyPoolSlot 0 = some 71 ∧
    ((siteAt siteRetesting 1 []).site 0 71).retestMap [0, 1, 2, 3, 4, 64, 128, 192, 65] = none ∧
    ((siteAt siteRetesting 1 []).modChan 0 fun x => { x with slotMap := [(5, 0x7f)] }).emptyPoolSlot 0 = none := by
  unfold SiteWaits
  decide +kernel

/-- The remap buffer holds 0, 15 or 16 rows. -/
def remapped (n : Nat) (soft : List Nat) : State :=
  (up.wr (.hbmc 0) Reg.hbmcStat_TRAINED 1).modChan 0 fun x => { x with rows := List.range n, repairing := soft }

theorem test_RowRepairs : (∀ n ∈ [0, 15, 16], (remapped n []).flag (.hbmc 0) Reg.hbmcStat_TRAINED = true ∧
      ((remapped n []).chan 0).rows.contains 16 = false ∧ 16 < Config.hbmBytes / 1024 ∧
      ((remapped n []).chan 0).rows.length = n) ∧
    ((remapped 16 [3]).chan 0).repairing.contains 3 = true ∧ (remapped 16 [3]).dev.farrierUp = true ∧
    ((remapped 16 [3]).chan 0).rows.length ≤ 16 := by decide +kernel

/-- The last bank of a store has used none or all of its spare rows. -/
def spared (n : Nat) : State := up.modChan 0 fun x => { x with
  stallSpares := (List.range n).map (5120 * 63 + ·), astSpares := (List.range n).map (1024 * 63 + ·) }

theorem test_StoreRowRepairs : ∀ n ∈ [0, 15, 16], (spared n).arithOn 0 = true ∧ (spared n).dev.farrierUp = true ∧
    ((spared n).chan 0).stallSpares.contains (64 * 5120 - 1) = false ∧ 64 * 5120 - 1 < 64 * 5120 ∧
    (((spared n).chan 0).stallSpares.filter fun r => r / 5120 = (64 * 5120 - 1) / 5120).length = n ∧
    ((spared n).chan 0).astSpares.contains (64 * 1024 - 1) = false ∧ 64 * 1024 - 1 < 64 * 1024 ∧
    (((spared n).chan 0).astSpares.filter fun r => r / 1024 = (64 * 1024 - 1) / 1024).length = n := by decide +kernel

/-- HF holds a message of two words. -/
def asked (type arg : Nat) : State := (((up.modSlot hfBox fun _ => { full := true, read := false, seq := 5 }).setWord
  (.mbx hfBox) 0x180 type).setWord (.mbx hfBox) 0x184 arg)
def askedWords (type arg : Nat) : List Nat := type :: arg :: List.replicate 14 0

theorem test_ChannelMessages : (∀ type ∈ [msgReadmit, msgChreset, msgRetire], ∀ arg ∈ [0, 3, 4],
      HasMessage (asked type arg) type 5 (askedWords type arg) ∧ wellFormedMsg (askedWords type arg) 2 2 = decide (arg < 4)) ∧
    (asked msgReadmit 0).rasState 0 ≠ rasRetired ∧
    ((asked msgReadmit 3).wr .ras (Reg.rasChStat_STATE 3) rasRetired).rasState 3 = rasRetired ∧
    (asked msgChreset 3).isReady 3 = false ∧ (asked msgChreset 0).isReady 0 = true ∧
    (asked msgRetire 0).rasState 0 = rasInService ∧
    ((asked msgRetire 3).wr .ras (Reg.rasChStat_STATE 3) rasReadmitting).rasState 3 ≠ rasInService ∧
    ((asked msgRetire 0).slot fhBox).full = false ∧ (asked msgRetire 0).dev.answers = [] ∧ (asked msgRetire 0).dev.owed = [] := by
  unfold HasMessage
  decide +kernel

theorem test_SiteAndStreamMessages : (∀ site ∈ [0, 71, 72], HasMessage (asked msgRetest (4 * site)) msgRetest 5 (askedWords msgRetest (4 * site)) ∧
      bitsOf ((askedWords msgRetest (4 * site)).getD 1 0) 2 7 = site ∧ wellFormedMsg (askedWords msgRetest (4 * site)) 9 2 = true) ∧
    (∀ st ∈ [siteHeld, siteFailed], ((siteAt st 0 []).site 0 71).state = st ∧ (siteAt st 0 []).isReady 0 = true ∧
      (siteAt st 0 []).slotOfSite 0 71 = 0x7f) ∧ (up.site 0 71).state ≠ siteHeld ∧ (up.site 0 71).state ≠ siteFailed ∧
    up.slotOfSite 0 0 ≠ 0x7f ∧
    HasMessage (asked msgRestart (1023 + 2 ^ 10)) msgRestart 5 (askedWords msgRestart (1023 + 2 ^ 10)) ∧
    wellFormedMsg (askedWords msgRestart (1023 + 2 ^ 10)) 12 6 = true ∧
    ((asked msgRestart 1023).stream 1023).state ≠ strmLost ∧
    (((asked msgRestart 1023).modStream 1023 fun r => { r with state := strmLost }).stream 1023).state = strmLost ∧
    (asked msgRestart 1023).isReady 0 = true ∧ (asked msgRestart 1023).isReady 1 = false := by
  unfold HasMessage
  decide +kernel

theorem test_EngineReset : up.dev.powered = true ∧ up.isReady 0 = true ∧ up.arithOn 0 = true ∧
    (starting chEngineCheck).chState 0 = chEngineCheck ∧ Master.host ≠ .farrier ∧ Master.host ≠ .groom 0 ∧
    Master.groom 1 ≠ .groom 0 := by decide +kernel

/-! ### Recorder and replay -/

/-- The host holds the recorder's lock; context 1, whose table reaches HBM, is LOGCTX. -/
def recorderCard : State :=
  ((mapped up).wr .rpl (Reg.lock_OWNER 0) (masterTag .host)).wr .rpl Reg.rplCfg_LOGCTX 1

/-- Channel 0 has a level, a mark under way or none. -/
def marked (level : Nat) (ms : List Nat) : State :=
  (recorderCard.wr .rpl Reg.rplCfg_LEVEL level).modRec fun r => { r with marking := ms }

theorem test_Marks : (marked 1 []).dev.powered = true ∧ (marked 1 []).rplWritable .host 0x164 = true ∧
    (List.range 4).filter (fun c => (marked 1 []).isReady c && decide ((marked 1 []).levelOf c ≠ 0)) = [0] ∧
    (List.range 4).filter (fun c => (marked 0 []).isReady c && decide ((marked 0 []).levelOf c ≠ 0)) = [] ∧
    (marked 1 []).recorder.marking = [] ∧ (marked 1 [0]).recorder.marking ≠ [] ∧
    (marked 1 [0]).recorder.marking.contains 0 = true ∧ (marked 1 [0]).contextsMove = false ∧
    (marked 1 [0]).dev.farrierUp = true ∧ (marked 1 [0]).changing 0 = false ∧
    ((marked 1 [0]).sealVa ((marked 1 [0]).markAccess 0) ((marked 1 [0]).markBytes 0)).2 = true := by decide +kernel

def aBatch : Batch := { bseq := 0, markNo := 1, gap := false, lost := 0, records := [{ dom := 1, dseq := 0, body := .fin }] }

/-- The hub's log (4) holds a batch, or writes one; its ring has room or is full. -/
def batched (tail : Nat) : State := (recorderCard.wr .rpl (Reg.rplLogPtr_TAIL 4) tail).modLog 4 fun l =>
  { l with held := [aBatch], writing := none }

theorem test_Batches : (batched 0).dev.powered = true ∧ (batched 0).mainUp = true ∧
    (batched 0).nextTail 4 ≠ (batched 0).rd .rpl (Reg.rplLogPtr_HEAD 4) % batchRing ((batched 0).rd .rpl (Reg.rplLogBase_LOG2N 4)) ∧
    (batched 15).nextTail 4 = (batched 15).rd .rpl (Reg.rplLogPtr_HEAD 4) % batchRing ((batched 15).rd .rpl (Reg.rplLogBase_LOG2N 4)) := by
  decide +kernel

theorem test_Batches_written : ((batched 0).writeBatch 4 aBatch).2 = true := by decide +kernel

/-- The image of mark 7 of channel 0 is kept, under this key or another; a replay on channel 0 is in a state. -/
def markImageOf (key : Nat) : MarkImage :=
  { markNo := 7, chan := 0, key := key, gait := 3, shares := [], cmds := [], nextCmd := 0, nextUid := 0, forks := []
    scanCounts := [], copies := [], lodgers := [], lodgerHeld := [], tileImages := [], spills := [], rings := []
    ringRegs := [], streams := [], dlm := [], ctxs := [] }
def replaying (st cause key : Nat) : State :=
  ((recorderCard.wr .rpl Reg.rplStat_STATE st).wr .rpl Reg.rplStat_STOPCAUSE cause).modRec fun r =>
    { r with images := [markImageOf key] }

theorem test_Replays : (∀ st ∈ [rplIdle, rplDone], (replaying st 0 0).rplWritable .host 0x164 = true ∧
      (replaying st 0 0).replayState = st ∧ (replaying st 0 0).isReady (replaying st 0 0).target = true ∧
      (markImageOf 0).key = (replaying st 0 0).dev.sealKey ∧ (markImageOf 1).key ≠ (replaying st 0 1).dev.sealKey ∧
      (replaying st 0 0).stallCrcs 0 = (List.replicate 16 (0 : Word)).map BitVec.toNat ∧
      (replaying st 0 0).stallCrcs 0 ≠ (List.replicate 16 (1 : Word)).map BitVec.toNat) ∧
    ((replaying rplIdle 0 0).recorder.images.find? fun i =>
      i.chan = (replaying rplIdle 0 0).rd .rpl Reg.rplRpCfg_SRC && i.markNo = 7) = some (markImageOf 0) ∧
    (∀ st ∈ [rplReplaying, rplStopped], (replaying st 0 0).replayState = st) ∧
    (∀ cause ∈ [stopStopat, stopUpset, stopNoData, stopSetup],
      (replaying rplStopped cause 0).rd .rpl Reg.rplStat_STOPCAUSE = cause) := by decide +kernel

/-- The next record of the target's domain stands in the replay ring; or the replay is to stop before it. -/
def playing (stop : Nat) : State := ((replaying rplReplaying 0 0).wr .rpl Reg.rplRpPtr_TAIL 1).wr .rpl Reg.rplRpStopat_EN stop

theorem test_ReplayRecords : ∀ b ∈ [RecBody.dec 1 5, .inData 0x1 true true 0 0 [1], .gap 1, .fin],
    (let r : LogRecord := { dom := 0, dseq := 0, body := b };
      (playing 0).replayOn (playing 0).target = true ∧ (playing 0).isNext r = true ∧
      (playing 0).recordPlaced (recUnits b) = true ∧
      ((playing 0).reachAll ((playing 0).recordAccess (recUnits b)) (16 * recUnits b)).2.isSome = true ∧
      (playing 0).stopsAt r = false ∧ (playing 1).stopsAt r = true ∧
      (playing 0).isNext { r with dseq := 1 } = false) := by decide +kernel

theorem test_ReplayRecords_resumed : (playing 0).recorder.resumed = false ∧ recorderCard.replayOn recorderCard.target = false ∧
    ((playing 0).wr .rpl Reg.rplRpPtr_TAIL 0).recordPlaced 1 = false := by decide +kernel

end Sys2Proof.Tests
end

section
/-!
## The form of the stores and of the register words

Every command moves the state within its scope, so every step keeps the canonical form; the state after reset has it
(R14, R346).
-/

namespace Sys2Proof.Machine

theorem Scope.within.refl {σ : Scope} : σ.within σ := ⟨id, fun _ h => h, fun _ h => h⟩

/-- A scope lies within the one that has one more kind of page. -/
theorem Scope.within.consKind {b : Bool} {ps : List Part} {k : PageKind} {ks : List PageKind} :
    Scope.within ⟨b, ps, ks⟩ ⟨b, ps, k :: ks⟩ := ⟨id, fun _ h => h, fun _ h => List.mem_cons_of_mem _ h⟩

/-- What a command makes of the state: all that it changes lies in its scope, and what it stores keeps its form. -/
theorem exec_moves (i : Instr) (s : State) : MovesResult (scopeOf i) s (exec i s) := by
  cases i with
  | registerWrite m a v => exact execRegisterWrite_moves .refl m a v .refl
  | rcFieldRead m a => exact execRcFieldRead_moves .refl m a .refl
  | pairLoRead m a => exact execPairLoRead_moves .refl m a .refl
  | subwordWrite m a two => exact execSubwordWrite_moves .refl m a two .refl
  | unalignedAccess m a write size => exact execUnalignedAccess_moves .refl m a write size .refl
  | msixUnmask v => exact execMsixUnmask_moves .refl v .refl
  | lockReadAcquire m a => exact execLockReadAcquire_moves .refl m a .refl
  | lockRelease m a => exact execLockRelease_moves .refl m a .refl
  | lockForce m a => exact execLockForce_moves .refl m a .refl
  | tailWrite m c r v => exact execTailWrite_moves .refl m c r v .refl
  | resume m c r v => exact execResume_moves .refl m c r v .refl
  | cplHeadWrite m c r v => exact execCplHeadWrite_moves .refl m c r v .refl
  | enableSet m p => exact execEnableSet_moves .refl m p .consKind (List.mem_cons_self ..)
  | enableClear m p => exact execEnableClear_moves .refl m p .consKind (List.mem_cons_self ..)
  | blockStartStep p ok => exact execBlockStartStep_moves .refl p ok .consKind (List.mem_cons_self ..)
  | blockStopDone p => exact execBlockStopDone_moves .refl p .consKind (List.mem_cons_self ..)
  | strmRead m => exact execStrmRead_moves .refl m .refl
  | openStream m => exact execOpenStream_moves .refl m .refl
  | close m => exact execClose_moves .refl m .refl
  | closeDiscard m => exact execCloseDiscard_moves .refl m .refl
  | rehome m => exact execRehome_moves .refl m .refl
  | rehomeWritebackDone => exact execRehomeWritebackDone_moves .refl (by simp only [scopeOf]; decide +kernel)
  | ctxRead m => exact execCtxRead_moves .refl m (by simp only [scopeOf]; decide +kernel)
  | admitContext m => exact execAdmit_moves .refl m (by simp only [scopeOf]; decide +kernel)
  | update m => exact execUpdate_moves .refl m (by simp only [scopeOf]; decide +kernel)
  | load m => exact execLoad_moves .refl m (by simp only [scopeOf]; decide +kernel)
  | evict m => exact execEvict_moves .refl m (by simp only [scopeOf]; decide +kernel)
  | ctxReset m => exact execCtxReset_moves .refl m (by simp only [scopeOf]; decide +kernel)
  | release m => exact execRelease_moves .refl m (by simp only [scopeOf]; decide +kernel)
  | dlmRead m => exact execDlmRead_moves .refl m .refl
  | arm m => exact execArm_moves .refl m .refl
  | disarm m => exact execDisarm_moves .refl m .refl
  | dlmClear m => exact execDlmClear_moves .refl m .refl
  | invAll m => exact execInvAll_moves .refl m .refl
  | invContext m ctx => exact execInvContext_moves .refl m ctx .refl
  | invRange m ctx count => exact execInvRange_moves .refl m ctx count .refl
  | invCtt m ctx => exact execInvCtt_moves .refl m ctx .refl
  | invalidationComplete => exact execInvalidationComplete_moves .refl .refl
  | retry m fault => exact execRetry_moves .refl m fault .refl
  | abortCommand m fault => exact execAbortCommand_moves .refl m fault (by simp only [scopeOf]; decide +kernel)
  | abortContext m fault => exact execAbortContext_moves .refl m fault (by simp only [scopeOf]; decide +kernel)
  | mbxSend m b => exact execMbxSend_moves .refl m b .refl
  | mbxSendAlt m b => exact execMbxSendAlt_moves .refl m b .refl
  | atomicSwapSend v => exact execAtomicSwapSend_moves .refl v .refl
  | unsupportedAtomicop a => exact execUnsupportedAtomicop_moves .refl a .refl
  | mbxRecvRead m b => exact execMbxRecvRead_moves .refl m b .refl
  | mbxAck m b code => exact execMbxAck_moves .refl m b code .refl
  | mbxCancel m b v => exact execMbxCancel_moves .refl m b v .refl
  | mbxTimeout b => exact execMbxTimeout_moves .refl b .refl
  | rlockAcquire m p page lock => exact execRlockAcquire_moves .refl m p page lock .refl
  | rlockRelease m p page lock => exact execRlockRelease_moves .refl m p page lock .refl
  | rlockRequestArrival p page lock release =>
    exact execRlockRequestArrival_moves .refl p page lock release .refl
  | rlockReply p value => exact execRlockReply_moves .refl p value .refl
  | mark m => exact execMark_moves .refl m .refl
  | markDone c => exact execMarkDone_moves .refl c .refl
  | replay m markNo crcs => exact execReplay_moves .refl m markNo crcs (by simp only [scopeOf]; decide +kernel)
  | rplStop m => exact execRplStop_moves .refl m .refl
  | rplResume m placed => exact execRplResume_moves .refl m placed .refl
  | gaitRequest m c gait => exact execGaitRequest_moves .refl m c gait .refl
  | sleepRequest m c => exact execSleepRequest_moves .refl m c .refl
  | parkRequest m c => exact execParkRequest_moves .refl m c .refl
  | runRequest m c => exact execRunRequest_moves .refl m c .refl
  | maxwWrite m p maxw => exact execMaxwWrite_moves .refl m p maxw .refl
  | fetchCommand c => exact execFetchCommand_moves .refl c .refl
  | descriptorReadReturn c r ext => exact execDescriptorReadReturn_moves .refl c r ext .refl
  | splitTurn c => exact execSplitTurn_moves .refl c .refl
  | splitReadReturn c r ext =>
    exact execSplitReadReturn_moves .refl c r ext (by simp only [scopeOf]; decide +kernel)
  | matmul c r => exact execMatmul_moves .refl c r .refl
  | conv c r => exact execConv_moves .refl c r .refl
  | dwconv c r => exact execDwconv_moves .refl c r .refl
  | pool c r => exact execPool_moves .refl c r .refl
  | scan c r => exact execScan_moves .refl c r .refl
  | stats c r => exact execStats_moves .refl c r .refl
  | argmax c r => exact execArgmax_moves .refl c r .refl
  | regroup c r => exact execRegroup_moves .refl c r .refl
  | fork c r => exact execFork_moves .refl c r .refl
  | loadW c r => exact execLoadW_moves .refl c r .refl
  | drain c r => exact execDrain_moves .refl c r .refl
  | copy c r => exact execCopy_moves .refl c r .refl
  | fence c r => exact execFence_moves .refl c r .refl
  | signal c r => exact execSignal_moves .refl c r .refl
  | wait c r => exact execWait_moves .refl c r .refl
  | cvu c r => exact execCvu_moves .refl c r .refl
  | signalWriteAccepted c r =>
    exact execSignalWriteAccepted_moves .refl c r (by simp only [scopeOf]; decide +kernel)
  | waitPollExpiry c r => exact execWaitPollExpiry_moves .refl c r .refl
  | waitReadReturn c r ext =>
    exact execWaitReadReturn_moves .refl c r ext (by simp only [scopeOf]; decide +kernel)
  | waitTimeout c r => exact execWaitTimeout_moves .refl c r .refl
  | tileClaim c e => exact execTileClaim_moves .refl c e (by simp only [scopeOf]; decide +kernel)
  | sealComplete c e t => exact execSealComplete_moves .refl c e t .refl
  | tileRestoreStart c e => exact execTileRestoreStart_moves .refl c e .refl
  | tileRestoreComplete c e intact => exact execTileRestoreComplete_moves .refl c e intact .refl
  | sliceLoadStart c e => exact execSliceLoadStart_moves .refl c e .refl
  | sliceLoadComplete c e => exact execSliceLoadComplete_moves .refl c e .refl
  | rebuildComplete c e b => exact execRebuildComplete_moves .refl c e b .refl
  | beatIssue c e ev => exact execBeatIssue_moves .refl c e ev (by simp only [scopeOf]; decide +kernel)
  | promotionComplete c e lane => exact execPromotionComplete_moves .refl c e lane .refl
  | drainStart c e => exact execDrainStart_moves .refl c e .refl
  | rowParamFetchReturn c e ext =>
    exact execRowParamFetchReturn_moves .refl c e ext (by simp only [scopeOf]; decide +kernel)
  | drainBlockRead c e pairDiffers =>
    exact execDrainBlockRead_moves .refl c e pairDiffers (by simp only [scopeOf]; decide +kernel)
  | epilogueOutput c e => exact execEpilogueOutput_moves .refl c e .refl
  | writeBack c e => exact execWriteBack_moves .refl c e (by simp only [scopeOf]; decide +kernel)
  | drainComplete c e => exact execDrainComplete_moves .refl c e .refl
  | creditReturn q => exact execCreditReturn_moves .refl q (by simp only [scopeOf]; decide +kernel)
  | queueCrossing q => exact execQueueCrossing_moves .refl q .refl
  | tandemBlockSend h => exact execTandemBlockSend_moves .refl h (by simp only [scopeOf]; decide +kernel)
  | blockAccepted c e => exact execBlockAccepted_moves .refl c e .refl
  | tandemIngressArrival c =>
    exact execTandemIngressArrival_moves .refl c (by simp only [scopeOf]; decide +kernel)
  | landedBlockMove c e => exact execLandedBlockMove_moves .refl c e (by simp only [scopeOf]; decide +kernel)
  | blockFold c e => exact execBlockFold_moves .refl c e (by simp only [scopeOf]; decide +kernel)
  | landingSpill c entry => exact execLandingSpill_moves .refl c entry .refl
  | landingSpillDone c entry =>
    exact execLandingSpillDone_moves .refl c entry (by simp only [scopeOf]; decide +kernel)
  | scanHeadCheck c e => exact execScanHeadCheck_moves .refl c e .refl
  | swapInComplete c n page ext poisoned =>
    exact execSwapInComplete_moves .refl c n page ext poisoned (by simp only [scopeOf]; decide +kernel)
  | swapOutComplete c n page => exact execSwapOutComplete_moves .refl c n page .refl
  | cowCopyComplete c n page => exact execCowCopyComplete_moves .refl c n page .refl
  | backingCopyComplete c n page ext => exact execBackingCopyComplete_moves .refl c n page ext .refl
  | scanStart c e => exact execScanStart_moves .refl c e .refl
  | scanComplete c e ext => exact execScanComplete_moves .refl c e ext .refl
  | forkComplete c => exact execForkComplete_moves .refl c .refl
  | cvuCommandStart c => exact execCvuCommandStart_moves .refl c .refl
  | cvuBlockComplete c mismatch ext => exact execCvuBlockComplete_moves .refl c mismatch ext .refl
  | cvuCommandComplete c => exact execCvuCommandComplete_moves .refl c .refl
  | copyUnitComplete c ext => exact execCopyUnitComplete_moves .refl c ext .refl
  | lodgerFillStart c => exact execLodgerFillStart_moves .refl c .refl
  | lodgerFillComplete c buf ext => exact execLodgerFillComplete_moves .refl c buf ext .refl
  | commandComplete c cmd => exact execCommandComplete_moves .refl c cmd .refl
  | completionRecordAccepted c r => exact execCompletionRecordAccepted_moves .refl c r .refl
  | walkReadReturn k walk data fail => exact execWalkReadReturn_moves .refl k walk data fail .refl
  | faultRecordWrite ctx => exact execFaultRecordWrite_moves .refl ctx .refl
  | channelSaveDone slot c => exact execChannelSaveDone_moves .refl slot c .refl
  | contextRestoreDone slot intact =>
    exact execContextRestoreDone_moves .refl slot intact (by simp only [scopeOf]; decide +kernel)
  | contextBlocked slot => exact execContextBlocked_moves .refl slot .refl
  | relief => exact execRelief_moves .refl .refl
  | dlmCheck n => exact execDlmCheck_moves .refl n .refl
  | pllRelockDone c ok => exact execPllRelockDone_moves .refl c ok .refl
  | gaitChangeDone c => exact execGaitChangeDone_moves .refl c .refl
  | governorPeriod draws board => exact execGovernorPeriod_moves .refl draws board .refl
  | sleepEntry c => exact execSleepEntry_moves .refl c .refl
  | parkEntry c => exact execParkEntry_moves .refl c .refl
  | wakeEvent c cause => exact execWakeEvent_moves .refl c cause .refl
  | wakeComplete c => exact execWakeComplete_moves .refl c .refl
  | linkTrain p lanes => exact execLinkTrain_moves .refl p lanes .refl
  | helloReceive p h => exact execHelloReceive_moves .refl p h .refl
  | flitTransmit p => exact execFlitTransmit_moves .refl p .refl
  | flitReceive p f q corrected => exact execFlitReceive_moves .refl p f q corrected .refl
  | nakReceive p ack => exact execNakReceive_moves .refl p ack .refl
  | replayTimeout p => exact execReplayTimeout_moves .refl p .refl
  | laneFailure p lane => exact execLaneFailure_moves .refl p lane .refl
  | retrainDone p h => exact execRetrainDone_moves .refl p h .refl
  | retrainTimeout p => exact execRetrainTimeout_moves .refl p .refl
  | portLoss p cause => exact execPortLoss_moves .refl p cause .refl
  | goodbyeReceive p => exact execGoodbyeReceive_moves .refl p .refl
  | goodbyeDrainDone p => exact execGoodbyeDrainDone_moves .refl p .refl
  | peerMessageArrival p seq words => exact execPeerMessageArrival_moves .refl p seq words .refl
  | peerReceiptArrival p r => exact execPeerReceiptArrival_moves .refl p r .refl
  | powerOn p => exact execPowerOn_moves .refl p .refl
  | perstDeassert speed width => exact execPerstDeassert_moves .refl speed width .refl
  | warmReset => exact execWarmReset_moves .refl .refl
  | hbmTrainDone c ok => exact execHbmTrainDone_moves .refl c ok .refl
  | selftestDone c ok => exact execSelftestDone_moves .refl c ok .refl
  | groomBootAck c code => exact execGroomBootAck_moves .refl c code .refl
  | engineCheckDone c failed => exact execEngineCheckDone_moves .refl c failed .refl
  | channelReadyTimeout c => exact execChannelReadyTimeout_moves .refl c .refl
  | flr => exact execFlr_moves .refl .refl
  | pcieLinkDown => exact execPcieLinkDown_moves .refl .refl
  | surpriseRemoval => exact execSurpriseRemoval_moves .refl .refl
  | coldResetRequest => exact execColdResetRequest_moves .refl .refl
  | pldmMonitor => exact execPldmMonitor_moves .refl .refl
  | requestUpdate => exact execRequestUpdate_moves .refl .refl
  | passComponentTable comps => exact execPassComponentTable_moves .refl comps .refl
  | updateComponent comp => exact execUpdateComponent_moves .refl comp .refl
  | firmwareData data last sigOk svn => exact execFirmwareData_moves .refl data last sigOk svn .refl
  | activateFirmware => exact execActivateFirmware_moves .refl .refl
  | farrierRestartDone ok =>
    exact execFarrierRestartDone_moves .refl ok (by simp only [scopeOf]; decide +kernel)
  | groomPatchApply c patch => exact execGroomPatchApply_moves .refl c patch .refl
  | sidebandEdge n level => exact execSidebandEdge_moves .refl n level .refl
  | sidebandSettleExpiry n => exact execSidebandSettleExpiry_moves .refl n .refl
  | sidebandStuckExpiry n => exact execSidebandStuckExpiry_moves .refl n .refl
  | substitutionHoldoffExpiry c e => exact execSubstitutionHoldoffExpiry_moves .refl c e .refl
  | siteRetest c phys => exact execSiteRetest_moves .refl c phys .refl
  | retestDone c phys pass failedCols => exact execRetestDone_moves .refl c phys pass failedCols .refl
  | hbmRowRepair c row => exact execHbmRowRepair_moves .refl c row .refl
  | softPprDone c row ok => exact execSoftPprDone_moves .refl c row ok .refl
  | channelRetire c cause => exact execChannelRetire_moves .refl c cause .refl
  | readmit => exact execReadmit_moves .refl .refl
  | retest => exact execRetest_moves .refl .refl
  | retire => exact execRetire_moves .refl .refl
  | restart => exact execRestart_moves .refl .refl
  | chreset => exact execChreset_moves .refl .refl
  | engineReset m c e => exact execEngineReset_moves .refl m c e .refl
  | batchWrite log => exact execBatchWrite_moves .refl log .refl
  | batchAccepted log => exact execBatchAccepted_moves .refl log .refl
  | replayRecord r => exact execReplayRecord_moves .refl r .refl
  | activationReadReturn c e lane ext =>
    exact execActivationReadReturn_moves .refl c e lane ext (by simp only [scopeOf]; decide +kernel)
  | pcieRequestFailure req ctx va write kind =>
    exact execPcieRequestFailure_moves .refl req ctx va write kind .refl
  | pcieLinkChange speed width flit up => exact execPcieLinkChange_moves .refl speed width flit up .refl
  | configRequest => exact execConfigRequest_moves .refl .refl
  | pllLockLost c => exact execPllLockLost_moves .refl c .refl
  | lockstepMismatch pc => exact execLockstepMismatch_moves .refl pc .refl
  | ucieLinkError c retryOk retrainOk => exact execUcieLinkError_moves .refl c retryOk retrainOk .refl
  | hbmTempUpdate c temp => exact execHbmTempUpdate_moves .refl c temp .refl
  | argmaxMerge c e ext => exact execArgmaxMerge_moves .refl c e ext .refl

/-- What moves keeps the canonical form of the stores and the form of the register words. -/
theorem Moves.keepsForm {σ : Scope} {s t : State} (h : Moves σ s t) (hs : s.storesWf) (hr : s.regsWf) :
    t.storesWf ∧ t.regsWf := ⟨fun c => (h.stores c).wf (hs c), h.regs hr⟩

theorem step_of_pending {s : State} {i : Instr} {rest : List Instr} (h : s.pending = i :: rest) :
    step s = exec i { s with pending := rest } := by
  simp only [step, h]

theorem step_of_idle {s : State} (h : s.pending = []) : step s = .next s.tick := by
  simp only [step, h]

/-- Settles O5: a command keeps the form of what it moves, and where none waits only time passes. -/
theorem stepKeepsStoresAndRegisters : Obligations.StepKeepsStoresAndRegisters := by
  intro s t hs hr h
  cases hp : s.pending with
  | nil =>
    rw [step_of_idle hp] at h
    obtain rfl := Host.Outcome.next.inj h
    exact (State.tick_moves .refl .refl).keepsForm hs hr
  | cons i rest =>
    rw [step_of_pending hp] at h
    exact ((exec_moves i _).get t h).keepsForm hs hr

/-- Settles O6: after reset no byte of a store and no register word is listed. -/
theorem resetStoresAndRegisters : Obligations.ResetStoresAndRegisters :=
  ⟨fun _ => ⟨Memory.wf_empty, Memory.wf_empty, Memory.wf_empty⟩, List.Pairwise.nil, fun _ h => nomatch h⟩

end Sys2Proof.Machine
end

section
/-!
## The fields of a register word

The fields of a word lie apart, so a fold over them acts on each field alone (R14, R20).
-/

namespace Sys2Proof.Machine

/-- Two fields of a word share no bit. -/
def RegField.Apart (f g : RegField) : Prop := f.lo + f.w ≤ g.lo ∨ g.lo + g.w ≤ f.lo

theorem RegField.Apart.symm {f g : RegField} (h : f.Apart g) : g.Apart f := Or.symm h

/-- In every register of the tables the fields lie apart. -/
theorem rows_apart (k : PageKind) : ∀ row ∈ k.rows, row.fields.Pairwise RegField.Apart := by
  unfold RegField.Apart
  cases k <;> decide +kernel

theorem fieldPart_eq_some {high : Bool} {g f : RegField} (h : fieldPart high g = some f) :
    ∃ b, f.lo + b = max g.lo b ∧ f.lo + f.w + b = min (g.lo + g.w) (b + 32) ∧ f.reset < 2 ^ f.w ∧
      b = if high then 32 else 0 := by
  refine ⟨if high then 32 else 0, ?_⟩
  simp only [fieldPart, Option.ite_none_right_eq_some, Option.some.injEq] at h
  obtain ⟨hlt, rfl⟩ := h
  exact ⟨by dsimp only; omega, by dsimp only; omega, bitsOf_lt _ _ _, rfl⟩

theorem fieldPart_apart {high : Bool} {g g' f f' : RegField} (h : g.Apart g') (hf : fieldPart high g = some f)
    (hf' : fieldPart high g' = some f') : f.Apart f' := by
  obtain ⟨b, h1, h2, -, hb⟩ := fieldPart_eq_some hf
  obtain ⟨b', h1', h2', -, hb'⟩ := fieldPart_eq_some hf'
  unfold RegField.Apart at h ⊢
  omega

theorem rowAt_fields {row r : RegRow} {off : Nat} {b : Bool} (h : rowAt row off = some (r, b)) : r = row := by
  unfold rowAt at h
  grind

/-- What `fieldsAt` lists are parts of the fields of one register. -/
theorem fieldsAt_eq (p : Page) (off : Nat) :
    fieldsAt p off = [] ∨ ∃ k high, ∃ row ∈ PageKind.rows k, fieldsAt p off = row.fields.filterMap (fieldPart high) := by
  unfold fieldsAt
  split
  · next row high h =>
    obtain ⟨row', hmem, hrow⟩ := List.mem_filterMap.mp (List.mem_of_head? h)
    exact .inr ⟨_, high, row', hmem, by rw [rowAt_fields hrow]⟩
  · exact .inl rfl

theorem fieldsAt_apart (p : Page) (off : Nat) : (fieldsAt p off).Pairwise RegField.Apart := by
  obtain h | ⟨k, high, row, hmem, h⟩ := fieldsAt_eq p off
  · rw [h]; exact .nil
  · rw [h]
    exact (rows_apart k row hmem).filterMap (fieldPart high) fun _ _ ha _ hf _ hf' => fieldPart_apart ha hf hf'

theorem fieldsAt_reset_lt {p : Page} {off : Nat} {f : RegField} (hf : f ∈ fieldsAt p off) : f.reset < 2 ^ f.w := by
  obtain h | ⟨k, high, row, -, h⟩ := fieldsAt_eq p off
  · rw [h] at hf; cases hf
  · rw [h] at hf
    obtain ⟨g, -, hg⟩ := List.mem_filterMap.mp hf
    obtain ⟨-, -, -, hlt, -⟩ := fieldPart_eq_some hg
    exact hlt

theorem RegField.Apart.bitsOf_setBits {f g : RegField} (h : f.Apart g) (w x : Nat) :
    bitsOf (setBits w f.lo f.w x) g.lo g.w = bitsOf w g.lo g.w :=
  bitsOf_setBits_other w f.lo f.w x h.symm

/-- A fold over fields that lie apart, each step of which acts on its own field as `new` says and leaves every field
beside it, acts so on every field. -/
theorem bitsOf_foldFields {l : List RegField} {g : Nat → RegField → Nat} {new : RegField → Nat → Nat}
    (hl : l.Pairwise RegField.Apart) (same : ∀ f ∈ l, ∀ w, bitsOf (g w f) f.lo f.w = new f (bitsOf w f.lo f.w))
    (other : ∀ f h, RegField.Apart f h → ∀ w, bitsOf (g w f) h.lo h.w = bitsOf w h.lo h.w) {f : RegField} (hf : f ∈ l)
    (w : Nat) : bitsOf (l.foldl g w) f.lo f.w = new f (bitsOf w f.lo f.w) := by
  have beside {l : List RegField} {h : RegField} (hl : ∀ x ∈ l, RegField.Apart x h) (w : Nat) :
      bitsOf (l.foldl g w) h.lo h.w = bitsOf w h.lo h.w := by
    induction l generalizing w with
    | nil => rfl
    | cons x l ih =>
      rw [List.foldl_cons, ih fun y hy => hl y (List.mem_cons_of_mem _ hy), other x h (hl x (List.mem_cons_self ..))]
  induction l generalizing w with
  | nil => cases hf
  | cons x l ih =>
    obtain ⟨hx, hl⟩ := List.pairwise_cons.mp hl
    rw [List.foldl_cons]
    obtain rfl | hf := List.mem_cons.mp hf
    · rw [beside fun y hy => (hx y hy).symm, same f (List.mem_cons_self ..)]
    · rw [ih hl (fun y hy => same y (List.mem_cons_of_mem _ hy)) hf, other x f (hx f hf)]

/-- The fields of a word whose reset value its page does not set are at their reset values. -/
theorem bitsOf_resetWord {p : Page} {off : Nat} (h0 : off ≠ 0) (h1 : off ≠ 0x1c) {f : RegField}
    (hf : f ∈ fieldsAt p off) : bitsOf (resetWord p off) f.lo f.w = f.reset := by
  have h : resetWord p off = (fieldsAt p off).foldl (fun v f => setBits v f.lo f.w f.reset) 0 := by
    simp [resetWord, h0, h1]
  rw [h]
  exact bitsOf_foldFields (new := fun f _ => f.reset) (fieldsAt_apart p off)
    (fun f hf w => by rw [bitsOf_setBits_same, Nat.mod_eq_of_lt (fieldsAt_reset_lt hf)])
    (fun f g h w => h.bitsOf_setBits w _) hf 0

/-! ## What a reset leaves (R20, R304, R449, R548, R652) -/

theorem State.word_reset (p : Page) (off : Nat) : State.reset.word p off = resetWord p off := rfl

/-- The header is the same on every page (R651). -/
theorem fieldsAt_header (p q : Page) {off : Nat} (h : off < 0x100) : fieldsAt p off = fieldsAt q off := by
  simp only [fieldsAt, if_pos h]

/-- The reset value of a header word is the same on every page, but for BLK_ID and INT_ROUTE (R652). -/
theorem resetWord_header (p q : Page) {off : Nat} (h : off < 0x100) (h0 : off ≠ 0) (h1 : off ≠ 0x1c) :
    resetWord p off = resetWord q off := by
  simp only [resetWord, fieldsAt_header p q h, h0, h1, false_and, if_false]

theorem resetWord_blkId (p : Page) :
    bitsOf (resetWord p 0) 0 8 = blockCode p ∧ bitsOf (resetWord p 0) 20 12 = 0x5e7 := by
  have h1 := blockCode_lt p
  have h2 := pageInst_lt p
  have h3 : ((pageCh? p).elim 0 fun c => c.val * 2 ^ 16 + 2 ^ 18) ≤ 3 * 2 ^ 16 + 2 ^ 18 ∧
      ((pageCh? p).elim 0 fun c => c.val * 2 ^ 16 + 2 ^ 18) % 2 ^ 16 = 0 := by
    cases pageCh? p with
    | none => exact ⟨Nat.zero_le _, rfl⟩
    | some c => have := c.isLt; simp only [Option.elim]; omega
  simp only [resetWord, if_true, bitsOf]
  omega

theorem resetWord_route (p : Page) :
    resetWord p 0x1c = if (pageCh? p).isSome then 2 ^ 17 + 2 ^ 18 else 2 ^ 17 := by
  have h : (fieldsAt p 0x1c).foldl (fun v f => setBits v f.lo f.w f.reset) 0 = 2 ^ 17 := by
    rw [fieldsAt_header p .hif (by decide)]
    decide +kernel
  simp only [resetWord, h, true_and]
  rfl

/-- The locks of a page stand in its header, but for those of a doorbell page (R657). -/
theorem State.lockOwner_eq (s : State) {p : Page} (hp : ∀ c r, p ≠ .door c r) (i : Nat) :
    s.lockOwner p i = s.rd p (Reg.lock_OWNER i) := by
  unfold State.lockOwner
  split
  · exact absurd rfl (hp _ _)
  · rfl

/-- Settles O7: a word that is not listed holds its reset value, and the tables of the state are empty. -/
theorem resetValues : Obligations.ResetValues := by
  refine ⟨fun p off h4 _ h1c f hf => bitsOf_resetWord (by omega) h1c hf, resetWord_blkId, fun p => ?_, by decide +kernel,
    fun p _ => ?_, fun _ => rfl, fun _ => rfl, fun p i hp hi => ?_, fun _ => rfl, rfl⟩
  · rw [State.rd_narrow _ _ (by decide), State.rd_narrow _ _ (by decide), State.rd_narrow _ _ (by decide)]
    simp only [Reg.intRoute_FARRIER, Reg.intRoute_HOST, Reg.intRoute_GROOM, State.word_reset, resetWord_route]
    cases (pageCh? p).isSome <;> decide
  · rw [State.blk, State.rd_narrow _ _ (by decide), State.word_reset, resetWord_header p .hif] <;> decide +kernel
  · have h : State.reset.rd p (Reg.lock_OWNER i) = 0 := by
      rw [State.rd_narrow _ _ (by decide +revert), State.word_reset, resetWord_header p .hif]
      · revert i; decide +kernel
      all_goals simp only [Reg.lock_OWNER]; omega
    rw [State.lockOwner_eq _ hp, h]

end Sys2Proof.Machine
end

section
/-!
## Register accesses (R14, R17, R18, R646)
-/

namespace Sys2Proof.Machine

theorem live_of_powered {s : State} (h : s.dev.powered = true) (t : State) : live s t = .next t := by
  rw [live, if_pos h]

theorem placeOf_offset_lt {a : BarAddr} {p : Page} {off : Nat} (h : placeOf a = some (p, off)) : off < 4096 := by
  obtain ⟨q, -, hq⟩ := Option.map_eq_some_iff.mp h
  obtain ⟨-, rfl⟩ := Prod.mk.inj hq
  exact Nat.mod_lt _ (by decide)

/-- What moves within the registers, the interrupts, the output and the logs leaves every table. -/
theorem Moves.sameTables {b : Bool} {ks : List PageKind} {s t : State}
    (h : Moves ⟨b, [.out, .msix, .recorder], ks⟩ s t) : s.sameTables t :=
  have part (x : Part) (hx : x ∉ [Part.out, .msix, .recorder]) : x.same s t := h.parts x hx
  State.ext h.pending rfl (part .drawn (by decide)) (part .dev (by decide)) (part .cycles (by decide))
    (part .cycBase (by decide)) rfl (part .holds (by decide)) (part .blocks (by decide)) rfl (part .mbx (by decide))
    (part .ports (by decide)) (part .xlat (by decide)) (part .ctxs (by decide)) (part .ctxSlots (by decide))
    (part .loads (by decide)) (part .reliefInto (by decide)) (part .lastRelief (by decide)) (part .shares (by decide))
    (part .dlm (by decide)) (part .streams (by decide)) (part .rehoming (by decide)) rfl (part .chans (by decide))

/-! ## Writes -/

theorem bitsOf_storeFields {p : Page} {off : Nat} {f : RegField} (hf : f ∈ fieldsAt p off) (old v : Nat) :
    bitsOf (storeFields (fieldsAt p off) old v) f.lo f.w =
      Written f.access (bitsOf old f.lo f.w) (bitsOf v f.lo f.w) := by
  refine bitsOf_foldFields (new := fun f x => Written f.access x (bitsOf v f.lo f.w)) (fieldsAt_apart p off)
    (fun f _ w => ?_) (fun f g h w => ?_) hf old
  · have hx := bitsOf_lt w f.lo f.w
    cases ha : f.access <;> simp only [Written, bitsOf_setBits_same]
    · exact Nat.mod_eq_of_lt (bitsOf_lt _ _ _)
    · exact Nat.mod_eq_of_lt (by omega)
  · cases ha : f.access <;> simp only [h.bitsOf_setBits]

theorem State.storeWord_field (s : State) {p : Page} {off : Nat} {f : RegField} (hf : f ∈ fieldsAt p off) (v : Nat) :
    bitsOf ((s.storeWord p off v).word p off) f.lo f.w =
      Written f.access (bitsOf (s.word p off) f.lo f.w) (bitsOf v f.lo f.w) := by
  rw [State.storeWord, State.word_setWord_same, bitsOf_mod _ (fieldsAt_width hf), bitsOf_storeFields hf]

theorem State.logWrite_sameWords (s : State) (m : Master) (p : Page) (off v : Nat) :
    s.sameWords (s.logWrite m p off v) [.rpl] := by
  unfold State.logWrite
  split
  · exact State.sameWords.refl.logTo (List.mem_singleton_self _)
  · exact .refl

theorem PlainPage.ne_rpl {p : Page} (h : PlainPage p) : p ≠ .rpl := by
  rintro rfl
  exact h

theorem exec_registerWrite {m : Master} {a : BarAddr} {v : Word} {p : Page} {off : Nat} {s : State}
    (hp : s.dev.powered = true) (ha : placeOf a = some (p, off)) :
    exec (.registerWrite m a v) s =
      .next (if off % 4 ≠ 0 || (fieldsAt p off).isEmpty then s else s.regWrite m p off v.toNat) := by
  simp only [exec, execRegisterWrite, live_of_powered hp, ha]

/-- On a plain page a register of a chapter takes the written word, once the write is logged. -/
theorem State.regWrite_plain {s : State} {m : Master} {p : Page} {off : Nat} (v : Nat) (hp : PlainPage p)
    (ho : 0x100 ≤ off) (hw : s.writable m p off = true) :
    s.regWrite m p off v = (s.logWrite m p off v).storeWord p off v := by
  have h : ¬ off < 0x100 := by omega
  cases p <;> first | exact hp.elim | simp [State.regWrite, State.writeBlock, hw, h]

/-- Settles O12: on a plain page the write is logged, and the word takes the value field by field. -/
theorem registerWriteByAccessCode : Obligations.RegisterWriteByAccessCode := by
  intro m a v p off s hp ha
  have hoff := placeOf_offset_lt ha
  refine ⟨fun hf => ?_, fun hplain ho h4 hf hw => ⟨(s.logWrite m p off v.toNat).storeWord p off v.toNat, ?_, fun f hf => ?_,
    fun q o ho' hq hne => ?_, ?_⟩⟩
  · simp [exec_registerWrite hp ha, hf]
  · simp [exec_registerWrite hp ha, h4, hf, State.regWrite_plain _ hplain ho hw]
  · rw [State.storeWord_field _ hf, s.logWrite_sameWords m p off v.toNat p (by simpa using PlainPage.ne_rpl hplain)]
  · rw [State.storeWord, State.word_setWord_other _ _ hoff ho' hne,
      s.logWrite_sameWords m p off v.toNat q (by simpa using hq)]
  · have h := (State.logWrite_moves .refl m p off v.toNat .refl : Moves _ s _).sameTables
    unfold State.sameTables at h ⊢
    rw [State.storeWord, State.setWord, h]

/-! ## Reads -/

theorem bitsOf_clearedByRead {p : Page} {off : Nat} {f : RegField} (hf : f ∈ fieldsAt p off) (v : Nat) :
    bitsOf (clearedByRead (fieldsAt p off) v) f.lo f.w = if f.access = .rc then f.reset else bitsOf v f.lo f.w := by
  refine bitsOf_foldFields (new := fun f x => if f.access = .rc then f.reset else x) (fieldsAt_apart p off)
    (fun f hf w => ?_) (fun f g h w => ?_) hf v
  · split
    · rw [bitsOf_setBits_same, Nat.mod_eq_of_lt (fieldsAt_reset_lt hf)]
    · rfl
  · split
    · exact h.bitsOf_setBits w _
    · rfl

/-- A read of a register of a chapter that has RC fields restores them. -/
theorem exec_rcFieldRead {m : Master} {a : BarAddr} {p : Page} {off : Nat} {s : State} (hp : s.dev.powered = true)
    (ha : placeOf a = some (p, off)) (ho : 0x100 ≤ off) (hlo : isPairLo p (off - 4) = false)
    (hrc : ∃ f ∈ fieldsAt p off, f.access = .rc) (hr : s.reaches m p = true) :
    exec (.rcFieldRead m a) s =
      .next ((s.setWord p off (clearedByRead (fieldsAt p off) (s.word p off))).emit (.read m (s.shown p off))) := by
  have hany : ((fieldsAt p off).any fun f => f.access = .rc) = true := by simpa using hrc
  have hhdr : decide (off < 0x100) = false := by simpa using ho
  simp only [exec, execRcFieldRead, live_of_powered hp, ha, hlo, hany, State.regRead, hr, Bool.and_false,
    Bool.not_true, Bool.false_eq_true, if_false, if_true]
  cases p <;> simp only [hhdr] <;> rfl

theorem readRestoresRcFields : Rules.ReadRestoresRcFields := by
  intro m a p off s hp ha ho hlo hrc hr
  have hoff := placeOf_offset_lt ha
  refine ⟨_, exec_rcFieldRead hp ha ho hlo hrc hr, rfl, fun f hf => ?_, fun q o ho' hne => ?_, rfl⟩
  · rw [State.word_congr (State.emit_regs ..), State.word_setWord_same, bitsOf_mod _ (fieldsAt_width hf),
      bitsOf_clearedByRead hf]
  · rw [State.word_congr (State.emit_regs ..), State.word_setWord_other _ _ hoff ho' hne]

/-! ## Accesses of other sizes (R646) -/

/-- A counter of HIF leaves every other word (R656). -/
theorem State.word_bump_hif (s : State) {f : Fld} (hw : f.lo + f.w ≤ 32) (hf : f.off < 4096) (q : Page) (o : Nat)
    (ho : o < 4096) (hne : q ≠ .hif ∨ o ≠ f.off) : (s.bump .hif f).word q o = s.word q o :=
  State.word_wr_other s _ hw hf ho hne

theorem exec_subwordWrite {s : State} (hp : s.dev.powered = true) (hm : s.mainUp = true) (m : Master) (a : BarAddr)
    (two : Bool) : exec (.subwordWrite m a two) s = .next (s.bump .hif Reg.hifCnt_BADWR) := by
  simp only [exec, execSubwordWrite, live_of_powered hp, hm, if_true]

theorem exec_unalignedAccess {s : State} (hp : s.dev.powered = true) (hm : s.mainUp = true) (m : Master) (a : BarAddr)
    (write : Bool) (size : Nat) : exec (.unalignedAccess m a write size) s =
      .next { s.bump .hif Reg.hifCnt_UR with
        out := s.out ++ if write then [.completion .unsupported 0, .aer .unsupported]
          else [.read m (2 ^ (32 * max 1 ((size + 3) / 4)) - 1),
            .completion .unsupported (2 ^ (32 * max 1 ((size + 3) / 4)) - 1), .aer .unsupported] } := by
  cases write <;> simp [exec, execUnalignedAccess, live_of_powered hp, hm, State.emit]

theorem oddSizedAccesses : Rules.OddSizedAccesses := by
  intro m a s hp hm
  refine ⟨fun two => ⟨_, exec_subwordWrite hp hm m a two, s.rd_bump_same .hif 1 (by decide),
      s.word_bump_hif (by decide) (by decide), State.wr_eq ..⟩,
    fun size => ⟨_, exec_unalignedAccess hp hm m a true size, rfl, s.word_bump_hif (by decide) (by decide), ?_⟩,
    fun size => ⟨_, _, exec_unalignedAccess hp hm m a false size, fun i hi => ?_, rfl,
      s.word_bump_hif (by decide) (by decide), ?_⟩⟩
  · rw [State.bump, State.wr_eq]
  · rw [Nat.testBit_two_pow_sub_one]
    exact decide_eq_true hi
  · rw [State.bump, State.wr_eq]

/-- Settles O13. -/
theorem readsAndOddAccesses : Obligations.ReadsAndOddAccesses := ⟨readRestoresRcFields, oddSizedAccesses⟩

/-! ## Pairs (R18) -/

theorem Tab.find?_set {α : Type} (t : Tab α) (k : Nat) (v : α) :
    (Tab.set t k v).find? (fun h => h.1 = k) = some (k, v) := by
  induction t with
  | nil => simp [Tab.set]
  | cons p t ih =>
    obtain ⟨k', v'⟩ := p
    unfold Tab.set
    split
    · simp
    · split
      · simp
      · next hne => simp [Ne.symm hne, ih]

/-- The copy that a master holds of a _HI. -/
theorem State.highHalf_of_held {u : State} {t : Tab Nat} {m : Master} {p : Page} {off v : Nat}
    (h : u.holds = Tab.set t (holdKey m p off) v) : u.highHalf m p off = v := by
  rw [State.highHalf, h, Tab.find?_set]
  rfl

/-- Settles O14: the copy of the upper half is found by the next read of _HI, which erases it. -/
theorem pairReadCapturesHigh : Obligations.PairReadCapturesHigh := by
  intro m a p off s hp ha hlo hr
  refine ⟨({ s with holds := Tab.set s.holds (holdKey m p (off + 4)) (s.shown p (off + 4)) } : State).emit
      (.read m (s.shown p off)), ?_, rfl, fun u hu => State.highHalf_of_held hu, rfl, fun a' u hu hp' ha' hr' => ?_⟩
  · simp only [exec, execPairLoRead, live_of_powered hp, ha, hlo, State.regRead, hr, Bool.not_true,
      Bool.false_eq_true, if_false, if_true]
  · have h4 : (decide (4 ≤ off + 4) && isPairLo p (off + 4 - 4)) = true := by simp [hlo]
    simp only [exec, execRcFieldRead, live_of_powered hp', ha', h4, State.readHigh, hr', if_true,
      State.highHalf_of_held hu, State.emit]

end Sys2Proof.Machine
end

section
/-!
## Register words under resets (R19 to R21, R508, R612)
-/

namespace Sys2Proof.Machine

variable {s : State}

/-! ## Folds -/

/-- A fold of steps over a list keeps what every step keeps. -/
theorem foldl_keeps {α β : Type} {P : β → Prop} {f : β → α → β} {l : List α} (kept : ∀ u, ∀ y ∈ l, P u → P (f u y))
    {u : β} (h : P u) : P (l.foldl f u) := by
  induction l generalizing u with
  | nil => exact h
  | cons y l ih =>
    exact ih (fun u z hz => kept u z (List.mem_cons_of_mem _ hz)) (kept u y (List.mem_cons_self ..) h)

/-- A fold of steps over a list holds what the step at one of its members establishes and every step keeps. -/
theorem foldl_holds {α β : Type} {P : β → Prop} {f : β → α → β} {l : List α} {x : α} (hx : x ∈ l)
    (made : ∀ u, P (f u x)) (kept : ∀ u, ∀ y ∈ l, P u → P (f u y)) (u : β) : P (l.foldl f u) := by
  induction l generalizing u with
  | nil => cases hx
  | cons y l ih =>
    have kept' (u : β) (z : α) (hz : z ∈ l) : P u → P (f u z) := kept u z (List.mem_cons_of_mem _ hz)
    obtain rfl | hx := List.mem_cons.mp hx
    · exact foldl_keeps kept' (made u)
    · exact ih hx kept' _

/-! ## Words that change where they are listed -/

/-- A table whose entries change under their keys: an entry that is not listed still reads as the default. -/
theorem Tab.get_map {α : Type} (d : α) (l : Tab α) {f : Nat × α → Nat × α} (hf : ∀ r, (f r).1 = r.1) (k : Nat) :
    Tab.get d (l.map f) k = d ∧ Tab.get d l k = d ∨ Tab.get d (l.map f) k = (f (k, Tab.get d l k)).2 := by
  induction l with
  | nil => exact .inl ⟨rfl, rfl⟩
  | cons r l ih =>
    obtain ⟨k', v⟩ := r
    rw [List.map_cons, show f (k', v) = (k', (f (k', v)).2) from Prod.ext (hf _) rfl]
    by_cases h : k = k'
    · subst h
      exact .inr (by simp [Tab.get])
    · simpa only [Tab.get, if_neg h] using ih

theorem pageAddr_div (p : Page) (off : Nat) : pageAddr p off / 4096 = pageIndex p := by
  unfold pageAddr
  omega

theorem pageAddr_mod (p : Page) (off : Nat) : pageAddr p off % 4096 = off % 4096 := by
  unfold pageAddr
  omega

theorem bitsOf_resetKeeps {p : Page} {off : Nat} {f : RegField} (hf : f ∈ fieldsAt p off) (cls v : Nat) :
    bitsOf (resetKeeps p off cls v) f.lo f.w =
      if cls < f.cls then bitsOf v f.lo f.w else bitsOf (resetWord p off) f.lo f.w := by
  refine bitsOf_foldFields (new := fun f x => if cls < f.cls then bitsOf v f.lo f.w else x) (fieldsAt_apart p off)
    (fun f _ w => ?_) (fun f g h w => ?_) hf _
  · split
    · rw [bitsOf_setBits_same, Nat.mod_eq_of_lt (bitsOf_lt _ _ _)]
    · rfl
  · split
    · exact h.bitsOf_setBits w _
    · rfl

theorem State.word_resetPage_other (s : State) {p q : Page} (cls off : Nat) (h : q ≠ p) :
    (s.resetPage p cls).word q off = s.word q off := by
  refine Tab.get_map_same _ _ _ (fun r => by split <;> rfl) fun r hr => if_neg fun e => h (pageIndex_inj ?_)
  rw [← e, hr, pageAddr_div]

/-- A field after a reset of its page: at its reset value where the reset covers it, and else as it was. -/
theorem State.field_resetPage (s : State) {p : Page} (cls : Nat) {off : Nat} (ho : off < 4096) {f : RegField}
    (hf : f ∈ fieldsAt p off) : bitsOf ((s.resetPage p cls).word p off) f.lo f.w =
      if cls < f.cls then bitsOf (s.word p off) f.lo f.w else bitsOf (resetWord p off) f.lo f.w := by
  obtain ⟨h, h'⟩ | h := Tab.get_map (resetWord p off) s.regs
    (f := fun x => if x.1 / 4096 = pageIndex p then (x.1, resetKeeps p (x.1 % 4096) cls x.2) else x)
    (fun r => by split <;> rfl) (pageAddr p off)
  · rw [State.word, State.word, h']
    erw [h]
    simp
  · rw [State.word]
    erw [h]
    rw [if_pos (pageAddr_div p off), pageAddr_mod, Nat.mod_eq_of_lt ho, bitsOf_resetKeeps hf]
    rfl

/-- A lock that its master's reset releases reads 0, and nothing else of a word changes (R508). -/
theorem State.word_releaseAll (s : State) (tag : Nat) (p : Page) (off : Nat) :
    (s.releaseAll tag).word p off = s.word p off ∨
      (lockAt? (off % 4096)).isSome ∧ (s.releaseAll tag).word p off = setBits (s.word p off) 0 8 0 := by
  obtain ⟨h, h'⟩ | h := Tab.get_map (resetWord p off) s.regs (f := fun r =>
      if (lockAt? (r.1 % 4096)).isSome ∧ r.1 < 0x3000000 ∧ bitsOf r.2 0 8 = tag then (r.1, setBits r.2 0 8 0) else r)
    (fun r => by split <;> rfl) (pageAddr p off)
  · exact .inl (h.trans h'.symm)
  · split at h
    · next hl => exact .inr ⟨by rw [← pageAddr_mod p off]; exact hl.1, h⟩
    · exact .inl h

/-- A release of locks leaves every word outside the lock registers. -/
theorem State.word_releaseAll_other (s : State) (tag : Nat) (p : Page) {off : Nat} (h : lockAt? (off % 4096) = none) :
    (s.releaseAll tag).word p off = s.word p off :=
  (s.word_releaseAll tag p off).resolve_right fun e => by simp [h] at e

end Sys2Proof.Machine
end

section
/-!
## Warm and cold resets (R19, R20, R547, R557, R609)
-/

namespace Sys2Proof.Machine

/-! ## Words at reset -/

/-- The fields of pages that a reset class covers are at their reset values. -/
def State.AtReset (s : State) (ps : List Page) (cls : Nat) : Prop :=
  ∀ p ∈ ps, ∀ off, off < 4096 → ∀ f ∈ fieldsAt p off, f.cls ≤ cls →
    bitsOf (s.word p off) f.lo f.w = bitsOf (resetWord p off) f.lo f.w

theorem State.AtReset.resetPages (s : State) (ps : List Page) (cls : Nat) : (s.resetPages ps cls).AtReset ps cls := by
  intro p hp off ho f hf hc
  refine foldl_holds (P := fun u : State => bitsOf (u.word p off) f.lo f.w = bitsOf (resetWord p off) f.lo f.w) hp
    (fun u => ?_) (fun u q _ h => ?_) s
  · rw [u.field_resetPage cls ho hf, if_neg (Nat.not_lt.mpr hc)]
  · by_cases hq : p = q
    · subst hq
      rw [u.field_resetPage cls ho hf, if_neg (Nat.not_lt.mpr hc)]
    · rwa [u.word_resetPage_other cls off hq]

theorem State.AtReset.sameWords {s t : State} {ps qs : List Page} {cls : Nat} (h : s.AtReset ps cls)
    (hw : s.sameWords t qs) (hq : ∀ p ∈ ps, p ∉ qs) : t.AtReset ps cls := by
  intro p hp off ho f hf hc
  rw [hw p (hq p hp) off]
  exact h p hp off ho f hf hc

/-- A lock register has the reset value 0 on every page. -/
theorem resetWord_lock (p : Page) {off : Nat} (ho : off < 4096) (h : (lockAt? (off % 4096)).isSome) :
    resetWord p off = 0 := by
  unfold lockAt? at h
  split at h
  · next hl =>
    obtain ⟨h1, h2, h3⟩ := hl
    rw [resetWord_header p .hif (by omega) (by omega) (by omega)]
    obtain rfl | rfl | rfl | rfl : off = 0x40 ∨ off = 0x44 ∨ off = 0x48 ∨ off = 0x4c := by omega
    all_goals decide +kernel
  · cases h

theorem bitsOf_clear {v lo w lo' w' : Nat} (h : bitsOf v lo' w' = 0) : bitsOf (setBits v lo w 0) lo' w' = 0 := by
  apply Nat.eq_of_testBit_eq
  intro i
  have hi := congrArg (·.testBit i) h
  simp only [testBit_bitsOf, Nat.zero_testBit, testBit_setBits] at hi ⊢
  split
  · exact hi
  · split
    · simp
    · exact hi

theorem State.AtReset.releaseAll {s : State} {ps : List Page} {cls : Nat} (h : s.AtReset ps cls) (tag : Nat) :
    (s.releaseAll tag).AtReset ps cls := by
  intro p hp off ho f hf hc
  have hs := h p hp off ho f hf hc
  obtain e | ⟨hl, e⟩ := s.word_releaseAll tag p off
  · rw [e, hs]
  · have h0 : bitsOf 0 f.lo f.w = 0 := by simp [bitsOf]
    rw [resetWord_lock p ho hl, h0] at hs ⊢
    rw [e, bitsOf_clear hs]

/-! ## The parts of a warm reset -/

/-- What a warm reset leaves of the channels (R19). -/
def State.warmChans (s : State) : State :=
  (List.range 4).foldl (fun s c => (s.recordMaps c).modChan c Channel.afterWarm) s

/-- The mailboxes of the host and of the grooms are empty, and messages to peers have timed out (R503, R547). -/
def State.warmMail (s : State) : State :=
  (List.finRange 16).foldl (fun s p => if (s.slot (poBox p)).full then s.mailTimeout (poBox p) else s) <|
    (hfBox :: fhBox :: ((List.finRange 4).map fgBox ++ (List.finRange 4).map gfBox)).foldl
      (fun s b => (s.emptyBox b).wr (.mbx b) Reg.mbxCfg_MODE 1) s

/-- The tags whose locks a warm reset releases: those of every master but the farrier (R508). -/
def warmTags : List Nat :=
  masterTag .host :: ((List.finRange 4).map fun c => masterTag (.groom c))
    ++ (List.finRange 16).map fun p => masterTag (.peer p)

/-- The PLLs run at 1.2 GHz, and a re-admission under way is lost (R547, R609). -/
def State.warmClocks (s : State) : State :=
  (List.range 4).foldl (fun s c =>
    let s' := s.relockFull c
    if s'.rd .ras (Reg.rasChStat_STATE c) = 2 then s'.wr .ras (Reg.rasChStat_STATE c) 1 else s') s

/-- The tables and registers of a warm reset, before the clocks run again. -/
def State.warmTables (s : State) : State :=
  warmTags.foldl State.releaseAll <|
    ({ s.warmChans.warmMail with ports := [] } : State).clearFunction.resetPages warmPages clsWarm

theorem State.warm_eq (s : State) : s.warm =
    (if s.dev.farrierUp then s.warmTables.warmClocks.wr .far Reg.farBoot_STEP stepWaitPerst
      else s.warmTables.warmClocks).modDev fun d => { d with mainRuns := false } := rfl

/-- The repair records take in what the sites' column maps hold, and nothing else of a channel changes. -/
theorem State.chan_recordMaps (s : State) (c d : Nat) :
    ∃ sites, (s.recordMaps c).chan d = { s.chan d with sites := sites } := by
  unfold State.recordMaps
  refine foldl_keeps (P := fun u : State => ∃ sites, u.chan d = { s.chan d with sites := sites }) (fun u e _ h => ?_)
    ⟨(s.chan d).sites, rfl⟩
  split
  · exact h
  · obtain ⟨sites, h⟩ := h
    rw [State.modSite, State.chan_modChan]
    split
    · next hd => subst hd; exact ⟨_, by rw [h]⟩
    · exact ⟨sites, h⟩

theorem State.chan_warmChans (s : State) (c : Ch) :
    let x := s.warmChans.chan c
    x.rings = [] ∧ x.cmds = [] ∧ x.engines = [] ∧ x.pages = [] ∧ x.slotMap = (s.chan c).slotMap := by
  have hc : c.val ∈ List.range 4 := List.mem_range.mpr c.isLt
  have step (u : State) (d : Nat) : ((u.recordMaps d).modChan d Channel.afterWarm).chan c =
      if c.val = d then Channel.afterWarm ((u.recordMaps d).chan d) else (u.recordMaps d).chan c := by
    rw [State.chan_modChan]
  have cleared := foldl_holds
    (P := fun u : State => (u.chan c).rings = [] ∧ (u.chan c).cmds = [] ∧ (u.chan c).engines = [] ∧ (u.chan c).pages = [])
    (f := fun u d => (u.recordMaps d).modChan d Channel.afterWarm) hc
    (fun u => by rw [step, if_pos rfl]; exact ⟨rfl, rfl, rfl, rfl⟩)
    (fun u d _ h => by
      rw [step]
      obtain ⟨sites, hs⟩ := u.chan_recordMaps d c
      split
      · exact ⟨rfl, rfl, rfl, rfl⟩
      · rw [hs]; exact h) s
  have slots := foldl_keeps (P := fun u : State => (u.chan c).slotMap = (s.chan c).slotMap)
    (f := fun u d => (u.recordMaps d).modChan d Channel.afterWarm) (l := List.range 4) (fun u d _ h => by
      rw [step]
      obtain ⟨sites, hs⟩ := u.chan_recordMaps d c
      split
      · next hd => subst hd; rw [hs]; exact h
      · rw [hs]; exact h) (u := s) rfl
  obtain ⟨h1, h2, h3, h4⟩ := cleared
  exact ⟨h1, h2, h3, h4, slots⟩

theorem State.warmChans_moves (s : State) : Moves ⟨true, [.chans], []⟩ s s.warmChans :=
  Moves.fold .refl fun u c h => State.modChan_moves (State.recordMaps_moves h c (by decide)) c (by decide)
    fun x _ => Channel.afterWarm_stores rfl x

theorem State.warmMail_moves (s : State) : Moves ⟨false, [.out, .msix, .mbx, .recorder], [.rpl, .mbx]⟩ s s.warmMail :=
  Moves.fold
    (Moves.fold .refl fun u b h => State.wr_moves (State.emptyBox_moves h b (by decide)) _ _ _ (by simp))
    fun u p h => .ite (State.mailTimeout_moves h _ (by decide)) h

theorem State.warmClocks_moves (s : State) : Moves ⟨false, [.out, .msix], [.clk, .ras]⟩ s s.warmClocks :=
  Moves.fold .refl fun u c h => by
    have h' := State.relockFull_moves h c (by decide)
    dsimp only
    split
    · exact State.wr_moves h' _ _ _ (by decide)
    · exact h'

theorem State.slot_emptyBox_same (s : State) (b : MbxId) : ((s.emptyBox b).slot b).full = false := by
  unfold State.emptyBox
  split
  · simp [State.slot]
  · next h => exact Bool.eq_false_iff.mpr h

theorem State.slot_emptyBox_empty {s : State} (b : MbxId) {d : Nat} (h : (s.slot d).full = false) :
    ((s.emptyBox b).slot d).full = false := by
  unfold State.emptyBox
  split
  · simp only [State.slot, State.raise_mbx, State.wr_mbx, State.modSlot_mbx, Tab.get_set]
    split
    · rfl
    · exact h
  · exact h

/-- What the relock of an arith PLL leaves of another one's register. -/
theorem State.rd_relockFull_other (s : State) {c : Nat} {g : Fld} (hg : g.lo + g.w ≤ 32) (og : g.off < 4096)
    (hc : c < 4) (h : g.off ≠ 0x100 + 4 * c) (h0 : g.off ≠ 0x10) : (s.relockFull c).rd .clk g = s.rd .clk g := by
  unfold State.relockFull
  split
  · rfl
  · unfold State.lockPll Reg.clkArith_LOCKED Reg.clkArith_FREQ Reg.clkArith_RELOCKS
    simp (disch := first | omega | (dsimp only; omega)) only [State.rd_raise_off, State.rd_bump_off, State.rd_wr_off]

theorem State.relockFull_runs (s : State) {c : Nat} (hc : c < 4) :
    (s.relockFull c).arithOn c = true ∧ (s.relockFull c).rd .clk (Reg.clkArith_FREQ c) = 3 := by
  unfold State.relockFull
  split
  · assumption
  · unfold State.arithOn State.flag State.lockPll Reg.clkArith_LOCKED Reg.clkArith_FREQ Reg.clkArith_RELOCKS
    simp (disch := (dsimp only; omega)) only [State.rd_raise_off, State.rd_bump_off, State.rd_wr_off, State.rd_wr_same]
    decide

theorem State.warmClocks_runs (s : State) (c : Ch) :
    s.warmClocks.arithOn c = true ∧ s.warmClocks.rd .clk (Reg.clkArith_FREQ c) = 3 := by
  have ras (u : State) (d : Nat) (g : Fld) : (if u.rd .ras (Reg.rasChStat_STATE d) = 2 then
      u.wr .ras (Reg.rasChStat_STATE d) 1 else u).rd .clk g = u.rd .clk g := by
    split
    · exact State.rd_wr_page _ (by decide)
    · rfl
  refine foldl_holds (P := fun u : State => u.arithOn c = true ∧ u.rd .clk (Reg.clkArith_FREQ c) = 3)
    (List.mem_range.mpr c.isLt) (fun u => ?_) (fun u d hd h => ?_) s
  · simp only [State.arithOn, State.flag, ras]
    exact u.relockFull_runs c.isLt
  · simp only [State.arithOn, State.flag, ras] at h ⊢
    have hd := List.mem_range.mp hd
    by_cases he : d = c
    · subst he; exact u.relockFull_runs c.isLt
    · have hc := c.isLt
      rw [u.rd_relockFull_other (by simp [Reg.clkArith_LOCKED]) (by simp only [Reg.clkArith_LOCKED]; omega) hd
          (by simp only [Reg.clkArith_LOCKED]; omega) (by simp only [Reg.clkArith_LOCKED]; omega),
        u.rd_relockFull_other (by simp [Reg.clkArith_FREQ]) (by simp only [Reg.clkArith_FREQ]; omega) hd
          (by simp only [Reg.clkArith_FREQ]; omega) (by simp only [Reg.clkArith_FREQ]; omega)]
      exact h

end Sys2Proof.Machine
end

section
/-!
## What a warm reset leaves (R19, R20, R547, R557)
-/

namespace Sys2Proof.Machine

/-- Where only some kinds of page move, the words of every other page stay. -/
theorem Moves.sameWords {σ : Scope} {s t : State} (h : Moves σ s t) {ps : List Page}
    (hk : ∀ q, pageKind q ∈ σ.kinds → q ∈ ps) : s.sameWords t ps := fun q hq o => h.words q (fun e => hq (hk q e)) o

/-- The state of a warm reset before its registers are reset. -/
def State.warmCleared (s : State) : State := ({ s.warmChans.warmMail with ports := [] } : State).clearFunction

theorem State.clearFunction_mbx (s : State) : s.clearFunction.mbx = s.mbx := rfl

theorem State.clearFunction_chans (s : State) : s.clearFunction.chans = s.chans := rfl

theorem State.warmCleared_mbx (s : State) : s.warmCleared.mbx = s.warmChans.warmMail.mbx := by
  rw [State.warmCleared, State.clearFunction_mbx]

theorem State.warmCleared_chans (s : State) : s.warmCleared.chans = s.warmChans.warmMail.chans := by
  rw [State.warmCleared, State.clearFunction_chans]

theorem State.warmTables_moves (s : State) : Moves ⟨false, [.cycBase, .blocks], allKinds⟩ s.warmCleared s.warmTables :=
  Moves.fold (State.resetPages_moves .refl warmPages clsWarm .refl) fun _ tag h => State.releaseAll_moves h tag (by decide)

theorem State.warmTables_atReset (s : State) : s.warmTables.AtReset warmPages clsWarm :=
  foldl_keeps (P := fun u : State => u.AtReset warmPages clsWarm) (fun _ tag _ h => h.releaseAll tag)
    (State.AtReset.resetPages s.warmCleared warmPages clsWarm)

/-- After its tables and registers, a warm reset changes the registers of the clocks, the repair and the farrier. -/
theorem State.warm_tail_moves (s : State) :
    Moves ⟨false, [.out, .msix, .dev], [.clk, .ras, .far]⟩ s.warmTables s.warm := by
  have h : Moves ⟨false, [.out, .msix, .dev], [.clk, .ras, .far]⟩ s.warmTables s.warmTables.warmClocks :=
    Moves.fold .refl fun u c h => by
      have h' := State.relockFull_moves h c (by decide)
      dsimp only
      split
      · exact State.wr_moves h' _ _ _ (by decide)
      · exact h'
  rw [State.warm_eq]
  exact State.modDev_moves (.ite (State.wr_moves h _ _ _ (by decide)) h) _ (by decide)

theorem State.warm_clk (s : State) (f : Fld) : s.warm.rd .clk f = s.warmTables.warmClocks.rd .clk f := by
  rw [State.warm_eq, State.rd_modDev]
  split
  · exact State.rd_wr_page _ (by decide)
  · rfl

theorem State.warm_dev (s : State) :
    s.warm.dev = { s.dev with sealKey := s.dev.sealKey + 1, functionMask := false, jobs := [], mainRuns := false } := by
  have h1 : s.warmTables.warmClocks.dev = s.warmTables.dev := s.warmTables.warmClocks_moves.parts .dev (by decide)
  have h2 : s.warmTables.dev = s.warmCleared.dev := s.warmTables_moves.parts .dev (by decide)
  have h3 : s.warmChans.warmMail.dev = s.warmChans.dev := s.warmChans.warmMail_moves.parts .dev (by decide)
  have h4 : s.warmChans.dev = s.dev := s.warmChans_moves.parts .dev (by decide)
  have h5 : s.warmCleared.dev = { s.dev with sealKey := s.dev.sealKey + 1, functionMask := false, jobs := [] } := by
    rw [State.warmCleared, State.clearFunction, h3, h4]
  rw [State.warm_eq]
  split <;> simp only [State.modDev_dev, State.wr_dev, h1, h2, h5]

theorem State.warm_bootStep {s : State} (h : s.dev.farrierUp = true) : s.warm.bootStep = stepWaitPerst := by
  rw [State.warm_eq, if_pos h, State.bootStep, State.rd_modDev, State.rd_wr_same _ _ _ (by decide)]
  rfl

theorem State.warmMail_empties (s : State) {b : MbxId}
    (hb : b ∈ hfBox :: fhBox :: ((List.finRange 4).map fgBox ++ (List.finRange 4).map gfBox)) :
    (s.warmMail.slot b).full = false := by
  have h := foldl_holds (P := fun u : State => (u.slot b).full = false)
    (f := fun s b => (s.emptyBox b).wr (.mbx b) Reg.mbxCfg_MODE 1) hb
    (fun u => by simpa [State.slot] using u.slot_emptyBox_same b)
    (fun u d _ h => by simpa [State.slot] using State.slot_emptyBox_empty d h) s
  refine foldl_keeps (P := fun u : State => (u.slot b).full = false) (fun u p _ h => ?_) h
  split
  · have e : (u.mailTimeout (poBox p)).mbx = u.mbx :=
      (State.mailTimeout_moves .refl (poBox p) .refl : Moves ⟨false, _, _⟩ u _).parts .mbx (by decide)
    simpa only [State.slot, e] using h
  · exact h

theorem State.warm_slots (s : State) (c : Ch) :
    (s.warm.slot (fgBox c)).full = false ∧ (s.warm.slot (gfBox c)).full = false := by
  have h1 : s.warm.mbx = s.warmTables.mbx := s.warm_tail_moves.parts .mbx (by decide)
  have h2 : s.warmTables.mbx = s.warmCleared.mbx := s.warmTables_moves.parts .mbx (by decide)
  have slot (b : Nat) : s.warm.slot b = s.warmChans.warmMail.slot b := by
    rw [State.slot, State.slot, h1, h2, s.warmCleared_mbx]
  rw [slot, slot]
  have hf := List.mem_map_of_mem (f := fgBox) (List.mem_finRange c)
  have hg := List.mem_map_of_mem (f := gfBox) (List.mem_finRange c)
  exact ⟨s.warmChans.warmMail_empties (.tail _ (.tail _ (List.mem_append_left _ hf))),
    s.warmChans.warmMail_empties (.tail _ (.tail _ (List.mem_append_right _ hg)))⟩

theorem State.warm_chan (s : State) (c : Nat) : s.warm.chan c = s.warmChans.chan c := by
  have h1 : s.warm.chans = s.warmTables.chans := s.warm_tail_moves.parts .chans (by decide)
  have h2 : s.warmTables.chans = s.warmCleared.chans := s.warmTables_moves.parts .chans (by decide)
  have h3 : s.warmChans.warmMail.chans = s.warmChans.chans := s.warmChans.warmMail_moves.parts .chans (by decide)
  rw [State.chan, State.chan, h1, h2, s.warmCleared_chans, h3]

theorem warmPages_not_tail : ∀ p ∈ warmPages, p ∉ [Page.clk, .ras, .far] := by decide +kernel

theorem State.warm_atReset (s : State) : s.warm.AtReset warmPages clsWarm := by
  refine s.warmTables_atReset.sameWords (s.warm_tail_moves.sameWords fun q hq => ?_) warmPages_not_tail
  cases q <;> simp_all

theorem State.warm_tables (s : State) :
    s.warm.streams = [] ∧ s.warm.ctxs = [] ∧ s.warm.ports = [] ∧ s.warm.xlat = {} := by
  have tail {x : Part} (h : x ∉ [Part.out, .msix, .dev]) : x.same s.warmTables s.warm := s.warm_tail_moves.parts x h
  have tables {x : Part} (h : x ∉ [Part.cycBase, .blocks]) : x.same s.warmCleared s.warmTables :=
    s.warmTables_moves.parts x h
  exact ⟨(tail (x := .streams) (by decide)).trans (tables (x := .streams) (by decide)),
    (tail (x := .ctxs) (by decide)).trans (tables (x := .ctxs) (by decide)),
    (tail (x := .ports) (by decide)).trans (tables (x := .ports) (by decide)),
    (tail (x := .xlat) (by decide)).trans (tables (x := .xlat) (by decide))⟩

theorem State.warm_warmlyReset (s : State) : WarmlyReset s s.warm := by
  obtain ⟨hstreams, hctxs, hports, hxlat⟩ := s.warm_tables
  refine ⟨s.warm_atReset, fun c => ?_, hstreams, hctxs, hports, hxlat, by rw [s.warm_dev], by rw [s.warm_dev],
    State.warm_bootStep, s.warm_slots⟩
  obtain ⟨h1, h2, h3, h4, h5⟩ := s.chan_warmChans c
  obtain ⟨hon, hfreq⟩ := s.warmTables.warmClocks_runs c
  rw [s.warm_chan]
  exact ⟨h1, h2, h3, h4, h5, by rw [State.arithOn, State.flag, s.warm_clk]; exact hon, by rw [s.warm_clk]; exact hfreq⟩

/-- A warm reset that begins in a state which has the sites' slots and the device of an earlier one. -/
theorem WarmlyReset.of_before {s u t : State} (h : WarmlyReset u t) (hs : ∀ c, (u.chan c).slotMap = (s.chan c).slotMap)
    (hd : u.dev = s.dev) : WarmlyReset s t := by
  obtain ⟨hwords, hchans, hstreams, hctxs, hports, hxlat, hkey, hmain, hboot, hslots⟩ := h
  refine ⟨hwords, fun c => ?_, hstreams, hctxs, hports, hxlat, hd ▸ hkey, hmain, hd ▸ hboot, hslots⟩
  rw [← hs c]
  exact hchans c

end Sys2Proof.Machine
end

section
/-!
## What ends with a tile, an engine or a path (R19, R200, R214, R400)

Two relations of states: the engine commands of every host command keep their records or end with one status, and
the work of every engine stays as it is.
-/

namespace Sys2Proof.Machine

variable {st : Nat} {s t u : State} {α : Type}

/-! ## Commands that end with a status -/

/-- A host command has the engine commands that an earlier one of its number had, and those that have completed since
have done so with a status. -/
def HostCmd.EndsTo (st : Nat) (g h : HostCmd) : Prop :=
  g.num = h.num ∧ ∀ r ∈ h.ecs, ∃ q ∈ g.ecs, q.idx = r.idx ∧ (r = q ∨ q.status = none ∧ r.status = some st)

theorem HostCmd.EndsTo.refl (h : HostCmd) : HostCmd.EndsTo st h h := ⟨rfl, fun r hr => ⟨r, hr, rfl, .inl rfl⟩⟩

theorem HostCmd.EndsTo.trans {f g h : HostCmd} (h1 : HostCmd.EndsTo st f g) (h2 : HostCmd.EndsTo st g h) :
    HostCmd.EndsTo st f h := by
  refine ⟨h1.1.trans h2.1, fun r hr => ?_⟩
  obtain ⟨q, hq, hi, hrq⟩ := h2.2 r hr
  obtain ⟨p, hp, hj, hqp⟩ := h1.2 q hq
  refine ⟨p, hp, hj.trans hi, ?_⟩
  obtain rfl | ⟨hn, hs⟩ := hrq
  · exact hqp
  · obtain rfl | ⟨-, hq'⟩ := hqp
    · exact .inr ⟨hn, hs⟩
    · rw [hq'] at hn; cases hn

/-- What an operation that ends commands with a status leaves of a channel: its sites keep their slots, and no command
comes to it. -/
structure Channel.Ends (st : Nat) (x y : Channel) : Prop where
  slotMap : y.slotMap = x.slotMap
  cmds : ∀ h ∈ y.cmds, ∃ g ∈ x.cmds, g.EndsTo st h

theorem Channel.Ends.of_eq {x y : Channel} (h1 : y.slotMap = x.slotMap) (h2 : y.cmds = x.cmds) : x.Ends st y :=
  ⟨h1, fun h hh => ⟨h, h2 ▸ hh, .refl h⟩⟩

theorem Channel.Ends.trans {x y z : Channel} (h1 : x.Ends st y) (h2 : y.Ends st z) : x.Ends st z := by
  refine ⟨h2.slotMap.trans h1.slotMap, fun h hh => ?_⟩
  obtain ⟨g, hg, hgh⟩ := h2.cmds h hh
  obtain ⟨f, hf, hfg⟩ := h1.cmds g hg
  exact ⟨f, hf, hfg.trans hgh⟩

/-- An operation ends commands with a status, and no slot takes another epoch. -/
structure State.Ends (st : Nat) (s t : State) : Prop where
  chan : ∀ c, (s.chan c).Ends st (t.chan c)
  epoch : ∀ c e, t.epoch c e = s.epoch c e

theorem State.Ends.refl : s.Ends st s := ⟨fun _ => .of_eq rfl rfl, fun _ _ => rfl⟩

theorem State.Ends.trans (h1 : s.Ends st t) (h2 : t.Ends st u) : s.Ends st u :=
  ⟨fun c => (h1.chan c).trans (h2.chan c), fun c e => (h2.epoch c e).trans (h1.epoch c e)⟩

theorem State.Ends.fold {f : State → α → State} {l : List α} (h : s.Ends st t)
    (hf : ∀ u : State, ∀ x ∈ l, u.Ends st (f u x)) : s.Ends st (l.foldl f t) := foldl_keeps (fun u x hx hu => hu.trans (hf u x hx)) h

theorem State.Ends.ite {c : Prop} [Decidable c] (h1 : s.Ends st t) (h2 : s.Ends st u) :
    s.Ends st (if c then t else u) := by
  split <;> assumption

/-- What leaves the channels and the pages of the engines. -/
theorem State.Ends.of_moves {σ : Scope} (h : Moves σ s t) (hc : .chans ∉ σ.parts) (he : .eng ∉ σ.kinds) : s.Ends st t := by
  have hchans : t.chans = s.chans := h.parts .chans hc
  refine ⟨fun c => ?_, fun c e => ?_⟩
  · rw [State.chan_congr hchans]
    exact .of_eq rfl rfl
  · rw [State.epoch, State.epoch, State.rd_narrow _ _ (by decide), State.rd_narrow _ _ (by decide),
      h.words (engPage c e) he]

theorem State.modChan_ends (s : State) (c : Nat) {f : Channel → Channel} (hf : (s.chan c).Ends st (f (s.chan c))) :
    s.Ends st (s.modChan c f) := by
  refine ⟨fun d => ?_, fun _ _ => rfl⟩
  rw [State.chan_modChan]
  split
  · subst_vars; exact hf
  · exact .of_eq rfl rfl

theorem State.modEngine_ends (s : State) (c e : Nat) (f : Engine → Engine) : s.Ends st (s.modEngine c e f) :=
  s.modChan_ends c (.of_eq rfl rfl)

/-- The engine command completes with the status where it has none. -/
theorem State.ecDone_ends (s : State) (c : Nat) (k : EngCmd) (st : Nat) : s.Ends st (s.ecDone c k st) := by
  unfold State.ecDone
  refine .ite .refl (s.modChan_ends c ⟨rfl, fun h hh => ?_⟩)
  obtain ⟨g, hg, rfl⟩ := List.mem_map.mp hh
  refine ⟨g, hg, ?_⟩
  split
  · refine ⟨rfl, fun r hr => ?_⟩
    obtain ⟨q, hq, rfl⟩ := List.mem_map.mp hr
    refine ⟨q, hq, ?_⟩
    split
    · next hn => exact ⟨rfl, .inr ⟨hn.2, rfl⟩⟩
    · exact ⟨rfl, .inl rfl⟩
  · exact .refl g

theorem State.ecsDone_ends (s : State) (c : Nat) (ks : List EngCmd) (st : Nat) : s.Ends st (s.ecsDone c ks st) :=
  State.Ends.refl.fold fun u k _ => u.ecDone_ends c k st

/-- A field of an engine's page beside ENG_SLOT_ID. -/
def Fld.BesideSlotId (f : Fld) : Prop := f.lo + f.w ≤ 32 ∧ f.off < 0x1f0

theorem State.wr_ends (s : State) (p : Page) {f : Fld} (v : Nat) (hf : f.BesideSlotId) : s.Ends st (s.wr p f v) := by
  obtain ⟨hw, ho⟩ := hf
  refine ⟨fun c => ?_, fun c e => ?_⟩
  · rw [State.chan_congr (State.wr_chans ..)]
    exact .of_eq rfl rfl
  · exact State.rd_wr_other s v hw (by decide) (by omega) (by decide)
      (.inr (.inl (by simp only [Reg.engSlotId_EPOCH]; omega)))

theorem State.wrAll_ends (s : State) (c : Nat) (es : List Nat) {f : Fld} (v : Nat) (hf : f.BesideSlotId) :
    s.Ends st (s.wrAll c es f v) := State.Ends.refl.fold fun u _ _ => u.wr_ends _ v hf

theorem State.bumpAll_ends (s : State) (c : Nat) (es : List Nat) {f : Fld} (hf : f.BesideSlotId) :
    s.Ends st (s.bumpAll c es f) := State.Ends.refl.fold fun u _ _ => u.wr_ends _ _ hf

theorem State.sweep_ends (s : State) (c e : Nat) : s.Ends st (s.sweep c e) := by
  have h := s.modEngine_ends (st := st) c e fun g =>
    { g.follow with headers := g.follow.headers.filter fun h => g.follow.needs h.1 h.2.1 }
  exact .ite (h.trans (State.wrAll_ends _ _ _ _ ⟨by decide, by decide⟩)) h

theorem State.freeEntry_ends (s : State) (c e : Nat) (k : EngCmd) : s.Ends st (s.freeEntry c e k) :=
  .ite .refl (s.modEngine_ends c e _)

/-! ## Banks -/

theorem bound_besideSlotId {n : Nat} (hn : n < 2) : (Reg.engLnsBank_BOUND n).BesideSlotId :=
  ⟨Nat.le_of_ble_eq_true rfl, by simp only [Reg.engLnsBank_BOUND]; omega⟩

theorem State.showBank_ends (s : State) (c : Nat) (es : List Nat) {n : Nat} (hn : n < 2) (d : Group)
    (valid building knot : Nat) : s.Ends st (s.showBank c es n d valid building knot) := by
  have bank (lo w : Nat) (h : lo + w ≤ 32) : Fld.BesideSlotId ⟨0x120 + 4 * n, lo, w⟩ := ⟨h, by dsimp only; omega⟩
  exact ((((s.wrAll_ends c es _ (bank 0 16 (by decide))).trans (State.wrAll_ends _ c es _ (bank 16 2 (by decide)))).trans
    (State.wrAll_ends _ c es _ (bank 18 1 (by decide)))).trans
    (State.wrAll_ends _ c es _ (bank 19 1 (by decide)))).trans (State.wrAll_ends _ c es _ (bank 21 8 (by decide)))

theorem State.startRebuild_ends (s : State) (c e : Nat) {n : Nat} (hn : n < 2) (uid : Nat) (d : Group) :
    s.Ends st (s.startRebuild c e n uid d) := by
  unfold State.startRebuild
  exact ((s.showBank_ends c _ hn d 0 1 0).trans
    (State.bumpAll_ends _ c _ (f := Reg.engLnsCnt_REBUILDS) ⟨by decide, by decide⟩)).trans (State.modEngine_ends _ c e _)

theorem State.bindTo_ends (s : State) (c e : Nat) {n : Nat} (hn : n < 2) (uid : Nat) : s.Ends st (s.bindTo c e n uid) :=
  (s.modEngine_ends c e _).trans (State.wrAll_ends _ c _ _ (bound_besideSlotId hn))

theorem State.unbind_ends (s : State) (c e uid : Nat) : s.Ends st (s.unbind c e uid) := by
  refine (s.modEngine_ends c e _).fold fun u n hn => ?_
  have hn : n < 2 := by simp only [List.mem_cons, List.not_mem_nil, or_false] at hn; omega
  dsimp only
  split
  · split
    · split
      · exact ((((u.modEngine_ends c e _).trans (State.modEngine_ends _ c e _)).trans
          (State.startRebuild_ends _ c e hn _ _))).trans (State.bindTo_ends _ c e hn _)
      · exact (u.modEngine_ends c e _).trans
          (State.wrAll_ends _ c _ _ (bound_besideSlotId hn))
    · exact u.modEngine_ends c e _
  · exact .refl

/-! ## Tiles -/

theorem State.dropRuns_ends (s : State) (c e t : Nat) : s.Ends st (s.dropRuns c e t) := by
  refine .trans (.trans (State.Ends.refl.fold fun u r _ => ?_) (State.modEngine_ends _ c e _)) (State.sweep_ends _ c e)
  exact ((u.unbind_ends c e _).trans (State.freeEntry_ends _ c e _)).trans (State.modEngine_ends _ c e _)

theorem State.freeTile_ends (s : State) (c e t : Nat) : s.Ends st (s.freeTile c e t) :=
  (s.dropRuns_ends c e t).trans (State.modEngine_ends _ c e _)

theorem State.sendBreak_ends (s : State) (c e : Nat) (k : EngCmd) (tkind cause : Nat) :
    s.Ends st (s.sendBreak c e k tkind cause) := .ite (s.modEngine_ends c e _) .refl

/-- After its commands have ended, what a tile that is lost leaves. -/
theorem State.loseTile_ends_after (s : State) (c e t st' : Nat) (cause : Option Nat) :
    (s.ecsDone c (s.tile c e t).closing st').Ends st (s.loseTile c e t st' cause) := by
  unfold State.loseTile
  dsimp only
  refine State.Ends.trans ?_ (State.freeTile_ends _ c e t)
  split
  · exact State.sendBreak_ends _ c e _ _ _
  · exact .refl

theorem State.loseTile_ends (s : State) (c e t st : Nat) (cause : Option Nat) :
    s.Ends st (s.loseTile c e t st cause) := (s.ecsDone_ends c _ st).trans (s.loseTile_ends_after c e t st cause)

/-! ## Paths -/

theorem State.loseLanded_ends (s : State) (c ctx tag : Nat) : s.Ends st (s.loseLanded c ctx tag) := by
  unfold State.loseLanded
  dsimp only
  refine .ite .refl ?_
  refine State.Ends.trans (t := (((s.chan c).landed ctx tag).map (·.1)).foldl (fun s i => s.dropLanding c i) s)
    (State.Ends.refl.fold fun u i _ => u.modChan_ends c (.of_eq rfl rfl)) ?_
  refine (State.modChan_ends _ c (.of_eq rfl rfl)).trans (.of_moves (State.raise_moves (σ := ⟨false, [.out, .msix], [.tnd]⟩)
    (State.bump_moves .refl _ _ _ ?_) _ _ ?_ ?_ ?_) ?_ ?_) <;> simp

theorem State.logOut_ends (s : State) (c k v : Nat) : s.Ends st (s.logOut c k v) :=
  .of_moves (σ := ⟨false, [.out, .msix, .recorder], [.rpl]⟩) (State.logOut_moves .refl c k v .refl) (by decide) (by decide)

/-- A link that a lost path serves ends REMOTE_LOST (R214). -/
theorem State.tilePathLost_ends (s : State) (c e t path : Nat) (sends : EngCmd → Bool) :
    s.Ends stRemoteLost (s.tilePathLost c e t path sends) := by
  unfold State.tilePathLost
  dsimp only
  split
  · exact ((s.loseLanded_ends c _ _).trans (State.loseTile_ends _ c e t _ _)).trans (State.logOut_ends _ c _ _)
  · exact (s.loseTile_ends c e t _ _).trans (State.logOut_ends _ c _ _)
  · exact .refl

theorem State.modShare_ends (s : State) (c ctx : Nat) (f : EngShare → EngShare) : s.Ends st (s.modShare c ctx f) :=
  ⟨fun _ => .of_eq rfl rfl, fun _ _ => rfl⟩

theorem State.savedPathLost_ends (s : State) (c e t : Nat) (x : TileSlot) (path : Nat) (sends : EngCmd → Bool) :
    s.Ends stRemoteLost (s.savedPathLost c e t x path sends) := by
  unfold State.savedPathLost
  dsimp only
  split
  · exact ((((s.loseLanded_ends c _ _).trans (State.sendBreak_ends _ c e _ _ _)).trans
      (State.ecsDone_ends _ c _ _)).trans (State.modShare_ends _ c _ _)).trans (State.logOut_ends _ c _ _)
  · exact ((s.ecsDone_ends c _ _).trans (State.modShare_ends _ c _ _)).trans (State.logOut_ends _ c _ _)
  · exact .refl

theorem State.pathLost_ends (s : State) (path : Nat) (sends : Nat → EngCmd → Bool) :
    s.Ends stRemoteLost (s.pathLost path sends) := by
  unfold State.pathLost
  refine State.Ends.fold (State.Ends.refl.fold fun u c _ => ?_) fun u sh _ => ?_
  · exact State.Ends.refl.fold fun u g _ => State.Ends.refl.fold fun u t _ => u.tilePathLost_ends c g.1 t path _
  · exact State.Ends.refl.fold fun u g _ => State.Ends.refl.fold fun u t _ => u.savedPathLost_ends _ _ _ _ path _

theorem State.dropSwitch_ends (s : State) (gone : Moving → Bool) : s.Ends st (s.dropSwitch gone) :=
  State.Ends.refl.fold fun u c _ =>
    (u.modChan_ends c (f := fun x => { x with switch := x.switch.filter fun m => !gone m }) (.of_eq rfl rfl)).fold
      fun v _ _ => v.modChan_ends c (.of_eq rfl rfl)

theorem State.portPathsLost_ends (s : State) (p : PortId) : s.Ends stRemoteLost (s.portPathsLost p) :=
  (s.dropSwitch_ends _).trans (State.pathLost_ends _ _ _)

end Sys2Proof.Machine
end

section
/-!
## The rules of resets (R19, R20, R503, R545 to R558, R609)
-/

namespace Sys2Proof.Machine

theorem Moves.rd_eq {σ : Scope} {s t : State} (h : Moves σ s t) {q : Page} (hq : pageKind q ∉ σ.kinds) (f : Fld) :
    t.rd q f = s.rd q f := by
  simp only [State.rd, h.words q hq]

theorem State.rd_releaseAll (s : State) (tag : Nat) (q : Page) {f : Fld} (hw : f.lo + f.w ≤ 32)
    (hl : lockAt? (f.off % 4096) = none) : (s.releaseAll tag).rd q f = s.rd q f := by
  rw [State.rd_narrow _ _ hw, State.rd_narrow _ _ hw, s.word_releaseAll_other tag q hl]

/-! ## Ports that say goodbye (R526, R557) -/

/-- The loss of the paths and the mail of a port. -/
def State.portGone (s : State) (p : PortId) : State :=
  let s2 := ((s.modPort p fun _ => {}).setLink p linkDown).portPathsLost p
  (if (s2.slot (poBox p)).full then s2.mailTimeout (poBox p) else s2).releaseAll (masterTag (.peer p))

/-- What the port's own page shows of its loss. -/
def State.showLoss (s : State) (p : PortId) (cause : LossCause) : State :=
  let h := Page.hlk p
  let s5 := if s.flag h Reg.hlkRlock_BUSY then (s.wr h Reg.hlkRlock_BUSY 0).wr h Reg.hlkRlock_LOST 1 else s
  let s6 := ((s5.wr h Reg.hlkStat_LOSTCAUSE (lossCode cause)).wr h Reg.blkState_STATE
    (if s5.flag h Reg.hlkCfg_EN then 1 else 0)).wr h Reg.blkState_REARM 0
  (s6.bump h Reg.hlkCnt_LOSSES).raise h 1

theorem State.portLost_eq (s : State) (p : PortId) (cause : LossCause) :
    s.portLost p cause = (s.portGone p).showLoss p cause := rfl

/-- A change of registers of a port's page alone. -/
theorem State.showLoss_ends {st : Nat} (s : State) (p : PortId) (cause : LossCause) : s.Ends st (s.showLoss p cause) := by
  refine .of_moves (σ := ⟨false, [.out, .msix], [.hlk]⟩) (State.raise_moves (State.bump_moves (State.wr_moves (State.wr_moves
    (State.wr_moves (.ite (State.wr_moves (State.wr_moves .refl _ _ _ ?_) _ _ _ ?_) .refl) _ _ _ ?_) _ _ _ ?_) _ _ _ ?_)
    _ _ _ ?_) _ _ ?_ ?_ ?_) ?_ ?_ <;> simp

theorem State.releaseAll_ends {st : Nat} (s : State) (tag : Nat) : s.Ends st (s.releaseAll tag) :=
  ⟨fun _ => .of_eq rfl rfl, fun _ _ => s.rd_releaseAll tag _ (by decide) (by decide)⟩

theorem State.portLost_ends (s : State) (p : PortId) (cause : LossCause) : s.Ends stRemoteLost (s.portLost p cause) := by
  rw [State.portLost_eq]
  refine State.Ends.trans ?_ (State.showLoss_ends _ p cause)
  have h1 : s.Ends stRemoteLost ((s.modPort p fun _ => {}).setLink p linkDown) :=
    State.Ends.trans (t := s.modPort p fun _ => {}) ⟨fun _ => .of_eq rfl rfl, fun _ _ => rfl⟩
      (State.wr_ends _ _ _ ⟨by decide, by decide⟩)
  have h2 := h1.trans (State.portPathsLost_ends _ p)
  exact (h2.trans (.ite (.of_moves (State.mailTimeout_moves .refl (poBox p) .refl) (by decide) (by decide)) .refl)).trans
    (State.releaseAll_ends _ _)

/-- The loss of a port leaves the LINK of every other port. -/
theorem State.linkUp_portLost_other (s : State) {p q : PortId} (h : q ≠ p) (cause : LossCause) :
    (s.portLost p cause).linkUp q = s.linkUp q := by
  have hne : Page.hlk q ≠ Page.hlk p := by simpa using h
  have hshow : ((s.portGone p).showLoss p cause).rd (.hlk q) Reg.hlkStat_LINK =
      (s.portGone p).rd (.hlk q) Reg.hlkStat_LINK := by
    unfold State.showLoss
    dsimp only
    rw [State.rd_raise_page _ hne, State.rd_bump_page _ hne, State.rd_wr_page _ hne, State.rd_wr_page _ hne,
      State.rd_wr_page _ hne]
    split
    · rw [State.rd_wr_page _ hne, State.rd_wr_page _ hne]
    · rfl
  have hmail (u : State) : (if (u.slot (poBox p)).full then u.mailTimeout (poBox p) else u).rd (.hlk q) Reg.hlkStat_LINK =
      u.rd (.hlk q) Reg.hlkStat_LINK := by
    split
    · exact (State.mailTimeout_moves .refl (poBox p) .refl : Moves ⟨false, _, _⟩ u _).rd_eq (by simp) _
    · rfl
  have hpaths (u : State) : (u.portPathsLost p).rd (.hlk q) Reg.hlkStat_LINK = u.rd (.hlk q) Reg.hlkStat_LINK :=
    (State.portPathsLost_moves .refl p .refl : Moves ⟨false, _, _⟩ u _).rd_eq (by simp) _
  rw [State.linkUp, State.linkUp, State.portLost_eq, hshow, State.portGone,
    State.rd_releaseAll _ _ _ (by decide) (by decide), hmail, hpaths, State.setLink, State.rd_wr_page _ hne, State.rd_modPort]

/-- What the disabling of one port that is UP does. -/
def State.disablePort (s : State) (p : PortId) : State :=
  if s.linkUp p then
    let (f, x) := (s.port p).sequence { plainFlit 3 with som := true, eom := true, body := .goodbye }
    let (f1, y) := x.stamp f
    ((s.modPort p fun _ => y).emit (.flit p f1)).portLost p .disabled
  else s

theorem Port.stamp_body (x : Port) (f : Flit) : (x.stamp f).1.body = f.body := by
  unfold Port.stamp
  split <;> rfl

theorem Port.sequence_body (x : Port) (f : Flit) : (x.sequence f).1.body = f.body := rfl

/-- A port that is UP sends a GOODBYE and is lost. -/
theorem State.disablePort_up {s : State} {p : PortId} (h : s.linkUp p = true) :
    ∃ f y, f.body = .goodbye ∧
      s.disablePort p = ((s.modPort p fun _ => y).emit (.flit p f)).portLost p .disabled := by
  let q := (s.port p).sequence { plainFlit 3 with som := true, eom := true, body := .goodbye }
  refine ⟨(q.2.stamp q.1).1, (q.2.stamp q.1).2, by rw [Port.stamp_body, Port.sequence_body], ?_⟩
  unfold State.disablePort
  rw [if_pos h]

theorem State.disablePort_down {s : State} {p : PortId} (h : s.linkUp p = false) : s.disablePort p = s := by
  unfold State.disablePort
  rw [if_neg (by simp [h])]

theorem State.disablePort_moves (s : State) (p : PortId) :
    Moves ⟨false, [.out, .msix, .ports, .xlat, .shares, .recorder, .chans], allKinds⟩ s (s.disablePort p) := by
  by_cases h : s.linkUp p = true
  · obtain ⟨f, y, -, e⟩ := State.disablePort_up h
    rw [e]
    exact State.portLost_moves (State.emit_moves (State.modPort_moves .refl _ _ (by decide)) _ (by decide)) p _ .refl
  · rw [State.disablePort_down (by simpa using h)]
    exact .refl

theorem State.disablePort_ends (s : State) (p : PortId) : s.Ends stRemoteLost (s.disablePort p) := by
  by_cases h : s.linkUp p = true
  · obtain ⟨f, y, -, e⟩ := State.disablePort_up h
    rw [e]
    exact State.Ends.trans (t := (s.modPort p fun _ => y).emit (.flit p f)) ⟨fun _ => .of_eq rfl rfl, fun _ _ => rfl⟩
      (State.portLost_ends _ p _)
  · rw [State.disablePort_down (by simpa using h)]
    exact .refl

theorem State.linkUp_disablePort_other (s : State) {p q : PortId} (h : q ≠ p) :
    (s.disablePort p).linkUp q = s.linkUp q := by
  by_cases hu : s.linkUp p = true
  · obtain ⟨f, y, -, e⟩ := State.disablePort_up hu
    rw [e, State.linkUp_portLost_other _ h]
    rfl
  · rw [State.disablePort_down (by simpa using hu)]

/-- Every port that is UP says goodbye. -/
theorem State.disablePorts_goodbye (l : List PortId) (s : State) {p : PortId} (hp : p ∈ l) (h : s.linkUp p = true) :
    ∃ f, f.body = .goodbye ∧ .flit p f ∈ (l.foldl State.disablePort s).out := by
  induction l generalizing s with
  | nil => cases hp
  | cons q l ih =>
    by_cases hq : p = q
    · subst hq
      obtain ⟨f, y, hf, e⟩ := State.disablePort_up h
      have first : .flit p f ∈ (s.disablePort p).out := by
        rw [e]
        have lost := (State.portLost_moves .refl p .disabled .refl :
          Moves ⟨false, _, _⟩ ((s.modPort p fun _ => y).emit (.flit p f)) _)
        exact lost.out.subset (by simp)
      have rest : Moves ⟨false, [.out, .msix, .ports, .xlat, .shares, .recorder, .chans], allKinds⟩ (s.disablePort p)
          (l.foldl State.disablePort (s.disablePort p)) :=
        Moves.fold .refl fun u q h => h.trans (u.disablePort_moves q)
      exact ⟨f, hf, rest.out.subset first⟩
    · exact ih (s.disablePort q) ((List.mem_cons.mp hp).resolve_left hq) (by rw [s.linkUp_disablePort_other hq, h])

theorem State.disablePorts_ends (s : State) : s.Ends stRemoteLost s.disablePorts :=
  State.Ends.refl.fold fun u p _ => u.disablePort_ends p

theorem State.disablePorts_dev (s : State) : s.disablePorts.dev = s.dev :=
  (State.disablePorts_moves .refl .refl : Moves ⟨false, _, _⟩ s _).parts .dev (by decide)

/-! ## Warm resets -/

theorem warmResets : Rules.WarmResets := by
  intro s hp
  refine ⟨fun hr => ⟨s.warm, ?_, s.warm_warmlyReset⟩, fun hm => ⟨s.disablePorts.warm, ?_, ?_, fun p hu => ?_⟩⟩
  · simp only [exec, execWarmReset, live_of_powered hp, hr, if_true]
  · simp only [exec, execPcieLinkDown, live_of_powered hp, hm, if_true]
  · exact WarmlyReset.of_before s.disablePorts.warm_warmlyReset (fun c => (s.disablePorts_ends.chan c).slotMap)
      s.disablePorts_dev
  · obtain ⟨f, hf, hout⟩ := State.disablePorts_goodbye (List.finRange 16) s (List.mem_finRange p) hu
    have hw := (State.warm_moves .refl .refl : Moves ⟨true, _, _⟩ s.disablePorts _)
    exact ⟨f, hf, hw.out.subset hout⟩

end Sys2Proof.Machine
end

section
/-!
## Link changes, function-level and cold resets (R19, R20, R503, R545 to R558, R609)
-/

namespace Sys2Proof.Machine

/-! ## PCIE_LINK_CHANGE (R557, R655, R662) -/

/-- HIF_LINK shows the trained rate and the state of the data link layer. -/
def State.showRate (s : State) (speed : BitVec 4) (width : BitVec 5) (flit up : Bool) : State :=
  (((s.wr .hif Reg.hifLink_SPEED speed.toNat).wr .hif Reg.hifLink_WIDTH width.toNat).wr .hif
    Reg.hifLink_FLIT (bit flit)).wr .hif Reg.hifLink_DL_UP (bit up)

/-- HIF_LINK differs from a rate and a state of the data link layer. -/
def State.rateDiffers (s : State) (speed : BitVec 4) (width : BitVec 5) (up : Bool) : Bool :=
  s.rd .hif Reg.hifLink_SPEED ≠ speed.toNat || s.rd .hif Reg.hifLink_WIDTH ≠ width.toNat
    || s.flag .hif Reg.hifLink_DL_UP ≠ up

/-- The rate is shown, and a change of it signalled. -/
def State.linkChanged (s : State) (speed : BitVec 4) (width : BitVec 5) (flit up : Bool) : State :=
  if s.rateDiffers speed width up then (s.showRate speed width flit up).raise .hif 1 else s.showRate speed width flit up

theorem execPcieLinkChange_eq {s : State} (hp : s.dev.powered = true) (hm : s.mainUp = true) (speed : BitVec 4)
    (width : BitVec 5) (flit up : Bool) : exec (.pcieLinkChange speed width flit up) s =
      .next (if s.flag .hif Reg.hifLink_DL_UP && !up then (s.linkChanged speed width flit up).disablePorts.warm
        else s.linkChanged speed width flit up) := by
  rw [exec, execPcieLinkChange, live_of_powered hp, if_neg (by simp [hm])]
  unfold State.linkChanged State.showRate State.rateDiffers
  dsimp only

theorem State.linkChanged_moves (s : State) (speed : BitVec 4) (width : BitVec 5) (flit up : Bool) :
    Moves ⟨false, [.out, .msix, .recorder], [.hif]⟩ s (s.linkChanged speed width flit up) := by
  have h : Moves ⟨false, [.out, .msix, .recorder], [.hif]⟩ s (s.showRate speed width flit up) :=
    State.wr_moves (State.wr_moves (State.wr_moves (State.wr_moves .refl _ _ _ (by decide)) _ _ _ (by decide)) _ _ _
      (by decide)) _ _ _ (by decide)
  exact .ite (State.raise_moves h _ _ (by decide) (by decide) (by decide)) h

theorem State.rd_linkChanged (s : State) (speed : BitVec 4) (width : BitVec 5) (flit up : Bool) {f : Fld}
    (hw : f.lo + f.w ≤ 32) (ho : f.off = 0x104) :
    (s.linkChanged speed width flit up).rd .hif f = (s.showRate speed width flit up).rd .hif f := by
  unfold State.linkChanged
  split
  · exact State.rd_raise_off _ _ hw (by omega) (by omega)
  · rfl

theorem flag_of_bit {s : State} {p : Page} {f : Fld} {b : Bool} (h : s.rd p f = bit b % 2 ^ 1) : s.flag p f = b := by
  cases b <;> simp [State.flag, h, bit]

/-- HIF_LINK reads what has trained. -/
theorem State.linkChanged_shows (s : State) (speed : BitVec 4) (width : BitVec 5) (flit up : Bool) :
    let t := s.linkChanged speed width flit up
    t.rd .hif Reg.hifLink_SPEED = speed.toNat ∧ t.rd .hif Reg.hifLink_WIDTH = width.toNat ∧
      t.flag .hif Reg.hifLink_FLIT = flit ∧ t.flag .hif Reg.hifLink_DL_UP = up := by
  refine ⟨?_, ?_, flag_of_bit ?_, flag_of_bit ?_⟩
  all_goals
    rw [State.rd_linkChanged _ _ _ _ _ (by decide) rfl, State.showRate]
    simp (disch := decide) only [State.rd_wr_off, State.rd_wr_same]
  · exact Nat.mod_eq_of_lt speed.isLt
  · exact Nat.mod_eq_of_lt width.isLt
  all_goals rfl

/-- A change of the rate is signalled. -/
theorem State.linkChanged_raises {s : State} {speed : BitVec 4} {width : BitVec 5} {up : Bool}
    (h : s.rateDiffers speed width up = true) (flit : Bool) :
    ((s.linkChanged speed width flit up).rd .hif Reg.intRaw_RAW).testBit 1 = true := by
  rw [State.linkChanged, if_pos h, State.rd_raise_raw, Nat.testBit_mod_two_pow, Nat.testBit_or, Nat.testBit_two_pow_self]
  simp

theorem pcieLinkChanges : Rules.PcieLinkChanges := by
  intro speed width flit up s hp hm
  refine ⟨_, execPcieLinkChange_eq hp hm speed width flit up, fun hflag hup => ?_, fun hstays => ?_⟩
  · rw [if_pos (by simp [hflag, hup])]
    exact ⟨by rw [State.warm_dev], (State.warm_tables _).2.2.1⟩
  · rw [if_neg (by rcases hstays with h | h <;> simp [h])]
    obtain ⟨hspeed, hwidth, hflit, hdl⟩ := s.linkChanged_shows speed width flit up
    have moved := s.linkChanged_moves speed width flit up
    exact ⟨hspeed, hwidth, hflit, hdl,
      fun h => State.linkChanged_raises (by simpa [State.rateDiffers, or_assoc] using h) flit,
      moved.sameWords fun q hq => by cases q <;> simp_all, moved.sameTables⟩

/-! ## FLR (R19, R503, R555) -/

/-- Every context is reset, and the blocks on their way are gone. -/
def State.flrContexts (s : State) : State :=
  (s.ctxs.foldl (fun s r => s.resetContext r.1) s).dropBlocks fun m => !m.staysAtFlr

/-- What an FLR leaves of contexts, streams and channels. -/
def State.flrTables (s : State) : State :=
  (List.finRange 4).foldl (fun s (c : Ch) => (s.modChan c Channel.afterFlr).resetPages (ringPages c) clsFlr)
    s.flrContexts.clearFunction

/-- The hub blocks that an FLR restores are at reset and ON. -/
def State.flrBlocks (s : State) : State := flrPages.foldl (fun s p => s.turnOn p) (s.resetPages flrPages clsFlr)

/-- HIF_READY and HIF_LINK show what they did, and the host holds no lock. -/
def State.flrShows (s : State) (ready link : Nat) : State :=
  ((s.setWord .hif 0x100 ready).setWord .hif 0x104 link).releaseAll (masterTag .host)

/-- The host's mailboxes are empty (R503). -/
def State.flrMail (s : State) : State := [hfBox, fhBox].foldl (fun s b => (s.emptyBox b).resetRoute (.mbx b)) s

/-- Every channel that is READY starts again. -/
def State.flrGrooms (s : State) : State := (List.finRange 4).foldl (fun s c => s.restartGroom c) s

theorem execFlr_eq {s : State} (hp : s.dev.powered = true) (hm : s.mainUp = true) : exec .flr s =
    .next (s.flrTables.flrBlocks.flrShows (s.word .hif 0x100) (s.word .hif 0x104)).flrMail.showHub.flrGrooms := by
  rw [exec, execFlr, live_of_powered hp, if_neg (by simp [hm])]
  unfold State.flrTables State.flrContexts State.flrBlocks State.flrShows State.flrMail State.flrGrooms
  dsimp only

theorem State.clearFunction_tables (s : State) : s.clearFunction.streams = [] ∧ s.clearFunction.ctxs = [] ∧
    s.clearFunction.xlat = {} ∧ s.clearFunction.dev.functionMask = false ∧
    s.clearFunction.dev.sealKey = s.dev.sealKey + 1 := ⟨rfl, rfl, rfl, rfl, rfl⟩

theorem State.resetContext_dev (s : State) (ctx : Nat) : (s.resetContext ctx).dev = s.dev :=
  (State.resetContext_moves .refl ctx .refl : Moves ⟨false, _, _⟩ s _).parts .dev (by decide)

theorem State.dropBlocks_dev (s : State) (gone : Moving → Bool) : (s.dropBlocks gone).dev = s.dev :=
  (State.dropBlocks_moves .refl gone .refl : Moves ⟨false, _, _⟩ s _).parts .dev (by decide)

theorem State.flrContexts_dev (s : State) : s.flrContexts.dev = s.dev := by
  rw [State.flrContexts, State.dropBlocks_dev]
  exact foldl_keeps (P := fun u : State => u.dev = s.dev) (fun u r _ h => by rw [u.resetContext_dev, h]) rfl

theorem State.flrTables_clear (s : State) : s.flrTables.streams = [] ∧ s.flrTables.ctxs = [] ∧ s.flrTables.xlat = {} ∧
    s.flrTables.dev.functionMask = false ∧ s.flrTables.dev.sealKey = s.dev.sealKey + 1 := by
  have channels : Moves ⟨true, [.chans, .cycBase, .blocks], allKinds⟩ s.flrContexts.clearFunction s.flrTables :=
    .fold .refl fun u c h => State.resetPages_moves (State.modChan_moves h c (by decide) fun x _ =>
      Channel.afterFlr_stores rfl x) _ _ (by decide +kernel)
  obtain ⟨h1, h2, h3, h4, h5⟩ := State.clearFunction_tables s.flrContexts
  have kept {x : Part} (h : x ∉ [Part.chans, .cycBase, .blocks]) := channels.parts x h
  have hdev := kept (x := .dev) (by decide)
  refine ⟨(kept (x := .streams) (by decide)).trans h1, (kept (x := .ctxs) (by decide)).trans h2,
    (kept (x := .xlat) (by decide)).trans h3, ?_, ?_⟩
  · exact (congrArg Device.functionMask hdev).trans h4
  · exact ((congrArg Device.sealKey hdev).trans h5).trans
      (congrArg (fun d : Device => d.sealKey + 1) s.flrContexts_dev)

theorem State.resetPages_chans (s : State) (ps : List Page) (cls : Nat) : (s.resetPages ps cls).chans = s.chans :=
  (State.resetPages_moves .refl ps cls .refl : Moves ⟨false, _, _⟩ s _).parts .chans (by decide)

theorem State.chan_flrTables (s : State) (c : Ch) :
    (s.flrTables.chan c).rings = [] ∧ (s.flrTables.chan c).cmds = [] ∧ (s.flrTables.chan c).tileImages = [] := by
  have step (u : State) (d : Ch) : ((u.modChan d Channel.afterFlr).resetPages (ringPages d) clsFlr).chan c =
      if c.val = d.val then Channel.afterFlr (u.chan d) else u.chan c := by
    rw [State.chan_congr (State.resetPages_chans ..), State.chan_modChan]
  unfold State.flrTables
  refine foldl_holds
    (f := fun s (c : Ch) => (s.modChan c Channel.afterFlr).resetPages (ringPages c) clsFlr)
    (P := fun u : State => (u.chan c).rings = [] ∧ (u.chan c).cmds = [] ∧ (u.chan c).tileImages = [])
    (List.mem_finRange c) (fun u => ?_) (fun u d _ h => ?_) _
  · rw [step, if_pos rfl]
    exact ⟨rfl, rfl, rfl⟩
  · rw [step]
    split
    · exact ⟨rfl, rfl, rfl⟩
    · exact h

theorem State.flrBlocks_on (s : State) {p : Page} (hp : p ∈ flrPages) : s.flrBlocks.blk p = blkOn := by
  have made (u : State) : (u.turnOn p).blk p = blkOn := by
    rw [State.turnOn, State.blk, State.setBlk, State.rd_wr_same _ _ _ (by decide)]
    rfl
  refine foldl_holds (P := fun u : State => u.blk p = blkOn) hp made (fun u q _ h => ?_) _
  by_cases hq : p = q
  · subst hq
    exact made u
  · rw [State.turnOn, State.blk, State.setBlk, State.rd_wr_page _ hq, State.rd_wr_page _ hq]
    exact h

/-! ## What an FLR does after its tables -/

theorem State.flrMail_moves (s : State) : Moves ⟨false, [.out, .msix, .mbx], [.mbx]⟩ s s.flrMail :=
  .fold .refl fun _ b h => State.resetRoute_moves (State.emptyBox_moves h b .refl) _ (by decide) (by simp)

theorem State.flrGrooms_moves (s : State) : Moves ⟨false, [.out, .msix], [.hif, .mbx, .grm]⟩ s s.flrGrooms :=
  .fold .refl fun _ c h => State.restartGroom_moves h c .refl

/-- An FLR leaves of the tables what it does to the contexts, streams and channels. -/
theorem State.flr_moves (s : State) (ready link : Nat) : Moves ⟨false, [.out, .cycBase, .blocks, .msix, .mbx], allKinds⟩ s
    (s.flrBlocks.flrShows ready link).flrMail.showHub.flrGrooms := by
  have blocks : Moves ⟨false, [.out, .cycBase, .blocks, .msix, .mbx], allKinds⟩ s s.flrBlocks :=
    .fold (State.resetPages_moves .refl _ _ (by decide +kernel)) fun _ p h =>
      State.turnOn_moves h p (by decide) (pageKind_mem p)
  have shows := State.releaseAll_moves (State.setWord_moves (State.setWord_moves blocks .hif 0x100 ready (by decide))
    .hif 0x104 link (by decide)) (masterTag .host) (by decide +kernel)
  have mail : Moves ⟨false, [.out, .cycBase, .blocks, .msix, .mbx], allKinds⟩ s (s.flrBlocks.flrShows ready link).flrMail :=
    .fold shows fun u b h => State.resetRoute_moves (State.emptyBox_moves h b (by decide +kernel)) _ (by decide)
      (pageKind_mem _)
  exact .fold (State.showHub_moves mail (by decide +kernel)) fun u c h => State.restartGroom_moves h c (by decide +kernel)

theorem State.rd_setMode (s : State) (c : Ch) (acked : Bool) (f : Fld) : (s.setMode c acked).rd .hif f = s.rd .hif f := by
  rw [State.setMode, State.rd_wr_page _ (by simp), State.rd_wr_page _ (by simp)]

theorem State.rd_restartGroom (s : State) (c : Ch) {f : Fld} (hw : f.lo + f.w ≤ 32) (ho : f.off < 4096)
    (h0 : f.off ≠ 0x10) (h1 : f.off ≠ 0x100 ∨ f.lo + f.w ≤ 4 * c ∨ 4 * c + 4 ≤ f.lo) :
    (s.restartGroom c).rd .hif f = s.rd .hif f := by
  have hc := c.isLt
  unfold State.restartGroom
  split
  · rw [State.rd_setMode, State.rd_wr_page _ (by simp), State.setChState]
    split
    · rfl
    · rw [State.rd_raise_off _ _ hw ho h0, State.rd_wr_off _ _ _ hw _ ho]
      · simpa [readyFld] using h1
      · simp only [readyFld]; omega
      · simp [readyFld]
  · rfl

theorem readyFld_narrow (c : Ch) : (readyFld c).lo + (readyFld c).w ≤ 32 := by
  have hc := c.isLt
  simp only [readyFld]
  omega

theorem State.chState_setChState (s : State) (c : Ch) {v : Nat} (hv : v < 16) : (s.setChState c v).chState c = v := by
  unfold State.setChState
  split
  · assumption
  · rw [State.chState, State.rd_raise_off _ _ (readyFld_narrow c) (by simp [readyFld]) (by simp [readyFld]),
      State.rd_wr_same _ _ _ (readyFld_narrow c)]
    exact Nat.mod_eq_of_lt hv

theorem State.chState_restartGroom (s : State) (c d : Ch) :
    (s.restartGroom d).chState c = if d = c ∧ s.isReady c then chGroomBoot else s.chState c := by
  by_cases h : d = c
  · subst h
    unfold State.restartGroom
    split
    · next hr =>
      rw [if_pos ⟨rfl, hr⟩, State.chState, State.rd_setMode, State.rd_wr_page _ (by simp)]
      exact s.chState_setChState d (by decide)
    · next hr => rw [if_neg (by simp [hr])]
  · rw [if_neg (by simp [h]), State.chState, s.rd_restartGroom d (readyFld_narrow c) (by simp [readyFld])
      (by simp [readyFld])]
    · rfl
    · simp only [readyFld]
      have hv : d.val ≠ c.val := fun e => h (Fin.ext e)
      omega

/-- A channel that is READY starts again, and another stays as it was. -/
theorem State.chState_restartGrooms (l : List Ch) (s : State) (c : Ch) :
    (l.foldl (fun s d => s.restartGroom d) s).chState c = if c ∈ l ∧ s.isReady c then chGroomBoot else s.chState c := by
  induction l generalizing s with
  | nil => simp
  | cons d l ih =>
    rw [List.foldl_cons, ih, State.isReady, State.chState_restartGroom]
    by_cases hr : s.isReady c = true
    · by_cases hd : d = c
      · subst hd
        simp [hr, show ¬ chGroomBoot = chReady by decide]
      · have hc : c ≠ d := Ne.symm hd
        simp [hd, hc, hr, show s.chState c = chReady by simpa [State.isReady] using hr]
    · have hn : ¬ s.chState c = chReady := by simpa [State.isReady] using hr
      simp [hr, hn]

theorem State.chState_flr (s u : State) (link : Nat) (c : Ch) :
    (u.flrShows (s.word .hif 0x100) link).flrMail.showHub.flrGrooms.chState c =
      if s.isReady c then chGroomBoot else s.chState c := by
  have before : (u.flrShows (s.word .hif 0x100) link).flrMail.showHub.chState c = s.chState c := by
    have hc := c.isLt
    rw [State.chState, State.showHub, State.rd_wr_off _ _ (by decide) (readyFld_narrow c) (by decide) (by simp [readyFld])
        (.inr (.inl (by simp only [readyFld, Reg.hifReady_HUB_READY]; omega))),
      (State.flrMail_moves _).rd_eq (by simp), State.flrShows,
      State.rd_releaseAll _ _ _ (readyFld_narrow c) (by simp [readyFld, lockAt?]),
      State.rd_setWord_off _ _ (readyFld_narrow c) (by simp [readyFld]) (by decide) (by simp [readyFld]),
      State.rd_narrow _ _ (readyFld_narrow c)]
    simp only [readyFld, State.word_setWord_same]
    rw [bitsOf_mod _ (by omega), State.chState, State.rd_narrow _ _ (readyFld_narrow c)]
    rfl
  have ready : (u.flrShows (s.word .hif 0x100) link).flrMail.showHub.isReady c = s.isReady c := by
    rw [State.isReady, State.isReady, before]
  rw [State.flrGrooms, State.chState_restartGrooms, before, ready]
  simp

theorem flrPages_notMail {p : Page} (hp : p ∈ flrPages) : pageKind p ∉ [PageKind.mbx, .grm] := by
  revert p
  decide +kernel

theorem State.blk_flr (s : State) (ready link : Nat) {p : Page} (hp : p ∈ flrPages) :
    (s.flrShows ready link).flrMail.showHub.flrGrooms.blk p = s.blk p := by
  have kind := flrPages_notMail hp
  have grooms (u : State) : u.flrGrooms.rd p Reg.blkState_STATE = u.rd p Reg.blkState_STATE := by
    by_cases hh : p = .hif
    · subst hh
      exact foldl_keeps (P := fun v : State => v.rd .hif Reg.blkState_STATE = u.rd .hif Reg.blkState_STATE)
        (fun v c _ h => (v.rd_restartGroom c (by decide) (by decide) (by decide) (.inl (by decide))).trans h) rfl
    · exact u.flrGrooms_moves.rd_eq (by cases p <;> simp_all) _
  have hub (u : State) : u.showHub.rd p Reg.blkState_STATE = u.rd p Reg.blkState_STATE :=
    State.rd_wr_other _ _ (by decide) (by decide) (by decide) (by decide) (.inr (.inl (by decide)))
  have word (u : State) (o v : Nat) (ho : o < 4096) (h : Reg.blkState_STATE.off ≠ o) :
      (u.setWord .hif o v).rd p Reg.blkState_STATE = u.rd p Reg.blkState_STATE := by
    by_cases hh : p = .hif
    · subst hh
      exact State.rd_setWord_off _ _ (by decide) (by decide) ho h
    · exact State.rd_setWord_page _ hh
  rw [State.blk, grooms, hub, (State.flrMail_moves _).rd_eq (by simp_all), State.flrShows,
    State.rd_releaseAll _ _ _ (by decide) (by decide), word _ _ _ (by decide) (by decide),
    word _ _ _ (by decide) (by decide)]
  rfl

theorem State.slot_flrMail (s : State) : (s.flrMail.slot hfBox).full = false ∧ (s.flrMail.slot fhBox).full = false := by
  have keeps (b d : MbxId) (u : State) (h : (u.slot d).full = false) :
      (((u.emptyBox b).resetRoute (.mbx b)).slot d).full = false := by
    simpa [State.resetRoute, State.slot] using State.slot_emptyBox_empty b h
  have made (b : MbxId) (u : State) : (((u.emptyBox b).resetRoute (.mbx b)).slot b).full = false := by
    simpa [State.resetRoute, State.slot] using u.slot_emptyBox_same b
  exact ⟨keeps fhBox hfBox _ (made hfBox s), made fhBox _⟩

theorem State.slot_flrGrooms (s : State) (b : Nat) : s.showHub.flrGrooms.slot b = s.slot b := by
  have h : s.showHub.flrGrooms.mbx = s.showHub.mbx := s.showHub.flrGrooms_moves.parts .mbx (by decide)
  rw [State.slot, h, State.showHub, State.wr_mbx, State.slot]

theorem functionLevelReset : Rules.FunctionLevelReset := by
  intro s hp hm
  obtain ⟨hstreams, hctxs, hxlat, hmask, hkey⟩ := s.flrTables_clear
  have moved := s.flrTables.flr_moves (s.word .hif 0x100) (s.word .hif 0x104)
  have kept {x : Part} (h : x ∉ [Part.out, .cycBase, .blocks, .msix, .mbx]) := moved.parts x h
  obtain ⟨hhf, hfh⟩ := (s.flrTables.flrBlocks.flrShows (s.word .hif 0x100) (s.word .hif 0x104)).slot_flrMail
  have hmbx (b : Nat) := State.slot_flrGrooms
    (s.flrTables.flrBlocks.flrShows (s.word .hif 0x100) (s.word .hif 0x104)).flrMail b
  have hdev := kept (x := .dev) (by decide)
  refine ⟨_, execFlr_eq hp hm, (kept (x := .streams) (by decide)).trans hstreams,
    (kept (x := .ctxs) (by decide)).trans hctxs, (kept (x := .xlat) (by decide)).trans hxlat, (congrArg Device.functionMask hdev).trans hmask,
    (congrArg Device.sealKey hdev).trans hkey, fun p hq => ?_, ?_, ?_, fun c => ?_⟩
  · rw [State.blk_flr _ _ _ hq, State.flrBlocks_on _ hq]
  · rw [hmbx, hhf]
  · rw [hmbx, hfh]
  · have hchan : _ = s.flrTables.chan c := State.chan_congr (kept (x := .chans) (by decide)) c
    obtain ⟨h1, h2, h3⟩ := s.chan_flrTables c
    rw [hchan, State.chState_flr]
    exact ⟨h1, h2, h3, rfl⟩

/-! ## Cold resets and removal (R19, R20, R545, R551, R558, R609) -/

theorem Channel.afterCold_empty (x : Channel) :
    x.afterCold.engines = [] ∧ x.afterCold.cmds = [] ∧ x.afterCold.slotMap = x.slotMap := ⟨rfl, rfl, rfl⟩

theorem State.cold_tables (s : State) : s.cold.streams = [] ∧ s.cold.ctxs = [] ∧ s.cold.mbx = [] ∧ s.cold.ports = [] ∧
    s.cold.dev.sealKey = s.dev.sealKey + 1 ∧ s.cold.pending = s.pending ∧ s.cold.out = s.out :=
  ⟨rfl, rfl, rfl, rfl, rfl, rfl, rfl⟩

theorem State.cold_regs (s : State) : s.cold.regs = [] := rfl

theorem State.chan_cold (s : State) (c : Ch) :
    s.cold.chan c = (((List.range 4).foldl (fun s c => s.recordMaps c) s).chan c).afterCold := by
  fin_cases c <;> rfl

theorem State.slotMap_recordMaps (s : State) (l : List Nat) (d : Nat) :
    ((l.foldl (fun s c => s.recordMaps c) s).chan d).slotMap = (s.chan d).slotMap :=
  foldl_keeps (P := fun u : State => (u.chan d).slotMap = (s.chan d).slotMap) (fun u c _ h => by
    obtain ⟨sites, e⟩ := u.chan_recordMaps c d
    rw [e]
    exact h) rfl

theorem coldResets : Rules.ColdResets := by
  intro s hp
  refine ⟨⟨if s.bootStep = stepRecovery ∨ !s.dev.farrierUp then s else s.cold, ?_, fun h => ?_, fun hb hf => ?_⟩, ?_⟩
  · rw [exec, execColdResetRequest, live_of_powered hp]
  · rw [if_pos (by simpa using h)]
  · rw [if_neg (by simp [hb, hf])]
    obtain ⟨h1, h2, h3, h4, h5, h6, h7⟩ := s.cold_tables
    refine ⟨fun p off => ?_, h1, h2, h3, h4, h5, h6, h7, fun c => ?_⟩
    · rw [State.word, s.cold_regs]
      rfl
    · obtain ⟨h1, h2, h3⟩ := Channel.afterCold_empty (((List.range 4).foldl (fun s c => s.recordMaps c) s).chan c)
      rw [s.chan_cold]
      exact ⟨h1, h2, h3.trans (s.slotMap_recordMaps _ c)⟩
  · rw [exec, execSurpriseRemoval, live_of_powered hp]

/-- Settles O54: each reset is the fold of its parts, and every later part moves only pages and tables beside those that
the statement names. -/
theorem resets : Obligations.Resets := ⟨warmResets, pcieLinkChanges, functionLevelReset, coldResets⟩

end Sys2Proof.Machine
end

section
/-!
## The farrier's mailboxes (R498 to R501, R610)
-/

namespace Sys2Proof.Machine

/-- A message after its words are stored: they are in the slot, SEQ is advanced and RX_FULL set (R498). -/
def State.acceptFh (s : State) (ws : List Nat) : State :=
  let seq := (s.rd (.mbx fhBox) Reg.mbxSstat_SEQ + 1) % 2 ^ 15
  (((s.setWords (.mbx fhBox) 0x180 ws).wr (.mbx fhBox) Reg.mbxSstat_SEQ seq).modSlot fhBox
    fun _ => { full := true, read := false, seq := seq }).raise (.mbx fhBox) 0

/-- FH has no port and no channel: its sends are recorded in log 4. -/
theorem State.acceptSend_fh (s : State) (ws : List Nat) : s.acceptSend fhBox ws = (s.acceptFh ws).logAccept fhBox 0 := by
  have hpo : isPo fhBox = false := by decide
  have hgroom : ¬ (2 ≤ fhBox.val ∧ fhBox.val < 6) := by decide
  have hgone (u : State) : u.receiverGone fhBox = false := by
    rw [State.receiverGone, hpo, if_neg (by decide), if_neg hgroom]
  unfold State.acceptSend
  dsimp only
  rw [hpo, if_neg Bool.false_ne_true, if_neg hgroom, hgone, if_neg Bool.false_ne_true,
    State.acceptFh]

theorem State.logAccept_mbx (s : State) (b : MbxId) (v : Nat) : (s.logAccept b v).mbx = s.mbx :=
  (State.logAccept_moves .refl b v .refl : Moves ⟨false, _, _⟩ s _).parts .mbx (by decide)

theorem State.logAccept_dev (s : State) (b : MbxId) (v : Nat) : (s.logAccept b v).dev = s.dev :=
  (State.logAccept_moves .refl b v .refl : Moves ⟨false, _, _⟩ s _).parts .dev (by decide)

theorem State.slot_acceptSend_fh (s : State) (ws : List Nat) (d : Nat) : (s.acceptSend fhBox ws).slot d =
    if d = fhBox.val then { full := true, read := false, seq := (s.rd (.mbx fhBox) Reg.mbxSstat_SEQ + 1) % 2 ^ 15 }
    else s.slot d := by
  rw [s.acceptSend_fh, State.slot, State.logAccept_mbx, State.acceptFh, State.raise_mbx]
  simp [State.slot]

theorem State.acceptSend_fh_dev (s : State) (ws : List Nat) : (s.acceptSend fhBox ws).dev = s.dev := by
  rw [s.acceptSend_fh, State.logAccept_dev]
  simp [State.acceptFh]

/-! ## Answers -/

theorem State.flushAnswers_none {s : State} (h : s.dev.answers = []) : s.flushAnswers = s := by
  rw [State.flushAnswers, h]

theorem State.flushAnswers_sends {s : State} {ws : List Nat} {rest : List (List Nat)} (h : s.dev.answers = ws :: rest)
    (hup : s.dev.farrierUp = true) (he : (s.slot fhBox).full = false) : s.flushAnswers =
      ((s.modDev fun d => { d with answers := rest }).setWords (.mbx fhBox) 0x100 ws).acceptSend fhBox ws := by
  rw [State.flushAnswers, h]
  exact if_neg (by simp [hup, he])

/-- Waiting answers concern no mailbox but FH, and nothing of the device but themselves. -/
theorem State.flushAnswers_frame (s : State) : (∀ d, d ≠ fhBox.val → s.flushAnswers.slot d = s.slot d) ∧
    s.flushAnswers.dev = { s.dev with answers := s.flushAnswers.dev.answers } := by
  unfold State.flushAnswers
  split
  · next ws rest h =>
    split
    · exact ⟨fun _ _ => rfl, rfl⟩
    · refine ⟨fun d hd => ?_, ?_⟩
      · rw [State.slot_acceptSend_fh, if_neg hd, State.slot, State.setWords_mbx, State.modDev_mbx, State.slot]
      · rw [State.acceptSend_fh_dev, State.setWords_dev, State.modDev_dev]
  · exact ⟨fun _ _ => rfl, rfl⟩

theorem State.slot_answer_other (s : State) (type seq code : Nat) {d : Nat} (hd : d ≠ fhBox.val) :
    (s.answer type seq code).slot d = s.slot d := (State.flushAnswers_frame _).1 d hd

theorem State.slot_settleOwed_other (s : State) (p : OwedAnswer → Bool) (code : Nat) {d : Nat} (hd : d ≠ fhBox.val) :
    (s.settleOwed p code).slot d = s.slot d :=
  foldl_keeps (P := fun u : State => u.slot d = s.slot d) (fun u _ _ h => (u.slot_answer_other _ _ _ hd).trans h) rfl

/-- With no answer owed there is none to settle. -/
theorem State.settleOwed_none {s : State} (h : s.dev.owed = []) (p : OwedAnswer → Bool) (code : Nat) :
    s.settleOwed p code = s := by
  have hdev : { s.dev with owed := s.dev.owed.filter fun a => !p a } = s.dev := by rw [h, List.filter_nil, ← h]
  have hmod : (s.modDev fun d => { d with owed := d.owed.filter fun a => !p a }) = s := by rw [State.modDev, hdev]
  rw [State.settleOwed, hmod, h, List.filter_nil, List.foldl_nil]

/-! ## The words of an answer -/

theorem State.word_setWords_before (s : State) (p : Page) {off o : Nat} (ws : List Nat) (ho : o < off)
    (hl : off + 4 * ws.length ≤ 4096) : (s.setWords p off ws).word p o = s.word p o := by
  induction ws generalizing s off with
  | nil => rfl
  | cons w ws ih =>
    rw [List.length_cons] at hl
    rw [State.setWords, ih _ (by omega) (by omega), State.word_setWord_other _ _ (by omega) (by omega) (.inr (by omega))]

/-- The words stored from an offset on read back there. -/
theorem State.words_setWords (s : State) (p : Page) {off : Nat} (ws : List Nat) (hl : off + 4 * ws.length ≤ 4096) :
    (List.range ws.length).map (fun i => (s.setWords p off ws).word p (off + 4 * i)) = ws.map (· % 2 ^ 32) := by
  induction ws generalizing s off with
  | nil => rfl
  | cons w ws ih =>
    rw [List.length_cons] at hl
    rw [List.length_cons, List.range_succ_eq_map, List.map_cons, List.map_map, List.map_cons, State.setWords, Nat.mul_zero,
      State.word_setWords_before _ _ _ (by omega) (by omega), Nat.add_zero, State.word_setWord_same,
      ← ih (s.setWord p off w) (off := off + 4) (by omega)]
    refine congrArg _ (List.map_congr_left fun i _ => ?_)
    rw [Function.comp_apply, Nat.mul_succ, Nat.add_comm (4 * i) 4, Nat.add_assoc]

/-- The words of a message that FH accepts stand in its slot. -/
theorem State.dataWords_acceptSend_fh (s : State) {ws : List Nat} (hl : ws.length = 16) :
    (s.acceptSend fhBox ws).dataWords fhBox = ws.map (· % 2 ^ 32) := by
  rw [← s.words_setWords (.mbx fhBox) (off := 0x180) ws (by omega), hl, State.dataWords]
  refine List.map_congr_left fun i hi => ?_
  have hi := List.mem_range.mp hi
  rw [s.acceptSend_fh, (State.logAccept_moves .refl fhBox 0 .refl : Moves ⟨false, _, _⟩ _ _).words _ (by decide),
    State.acceptFh, State.word_raise_other _ (by omega) (.inr (by omega))]
  exact State.word_wr_other _ _ (by decide) (by decide) (by omega) (.inr (by simp only [Reg.mbxSstat_SEQ]; omega))

/-- An answer to an empty FH stands there, where the message and what it asked for left FH and the device. -/
theorem answered_answer {s u : State} {type seq code : Nat} (hup : s.dev.farrierUp = true)
    (desk : s.dev.answers = [] → s.dev.owed = [] → u.dev = s.dev ∧ u.slot fhBox = s.slot fhBox) :
    Answered s (u.answer type seq code) type seq code := by
  intro he ha ho
  obtain ⟨hdev, hslot⟩ := desk ha ho
  rw [State.answer, State.flushAnswers_sends (rest := []) (by rw [State.modDev_dev, hdev, ha]; rfl)
    (by rw [State.modDev_dev, hdev]; exact hup) (by rw [State.slot, State.modDev_mbx, ← State.slot, hslot, he])]
  exact ⟨by rw [State.slot_acceptSend_fh, if_pos rfl], State.dataWords_acceptSend_fh _ rfl⟩

/-! ## Taking a message (R499) -/

/-- The farrier takes the message out of HF and acknowledges an ACKED one. -/
def State.takeMessage (s : State) : State :=
  let s1 := (s.modSlot hfBox fun x => { x with read := true }).clearSlot hfBox .read
  if s.acked hfBox then
    (s1.setWord (.mbx hfBox) 0x150 ((s.slot hfBox).seq % 2 ^ 15 * 2 ^ 16 + 2 ^ 31)).raise (.mbx hfBox) 1
  else s1

theorem State.onMessage_eq {s : State} {type seq : Nat} {ws : List Nat} (h : HasMessage s type seq ws)
    (act : List Nat → Nat → State → State) : s.onMessage type act = act ws seq s.takeMessage := by
  obtain ⟨-, hm, hf, hfull, hws, htype, hseq⟩ := h
  rw [State.onMessage, hws, hm, hf, hfull, hseq, htype, if_neg (by simp), State.takeMessage, hseq]

theorem State.takeMessage_moves (s : State) :
    Moves ⟨false, [.out, .dev, .msix, .mbx, .ports, .recorder], [.rpl, .mbx]⟩ s s.takeMessage := by
  have h1 := State.clearSlot_moves (State.modSlot_moves
    (σ := ⟨false, [.out, .dev, .msix, .mbx, .ports, .recorder], [.rpl, .mbx]⟩) (Moves.refl (s := s)) hfBox
    (fun x => { x with read := true }) (by decide)) hfBox .read .refl
  exact .ite (State.raise_moves (State.setWord_moves h1 _ _ _ (by decide)) _ _ (by decide) (by decide) (by decide)) h1

/-- The slots and the device after HF's message has been taken are those after its slot has cleared. -/
theorem State.takeMessage_tables (s : State) :
    let u := (s.modSlot hfBox fun x => { x with read := true }).modSlot hfBox fun x => { x with full := false }
    s.takeMessage.mbx = u.flushAnswers.mbx ∧ s.takeMessage.dev = u.flushAnswers.dev := by
  have hpi (u : State) : ¬ (isPi hfBox = true ∧ u.linkUp (mbxPort hfBox) = true) := fun h => absurd h.1 (by decide)
  unfold State.takeMessage State.clearSlot
  dsimp only
  rw [if_neg (hpi _)]
  split
  · exact ⟨by simp, by simp⟩
  · exact ⟨rfl, rfl⟩

theorem State.takeMessage_empties (s : State) : (s.takeMessage.slot hfBox).full = false := by
  rw [State.slot, s.takeMessage_tables.1]
  have h := (((s.modSlot hfBox fun x => { x with read := true }).modSlot hfBox fun x =>
    { x with full := false }).flushAnswers_frame).1 hfBox (by decide)
  rw [State.slot] at h
  rw [h]
  simp

/-- Where no answer waits, taking a message leaves the device and FH. -/
theorem State.takeMessage_desk {s : State} (h : s.dev.answers = []) :
    s.takeMessage.dev = s.dev ∧ s.takeMessage.slot fhBox = s.slot fhBox := by
  obtain ⟨hmbx, hdev⟩ := s.takeMessage_tables
  rw [State.flushAnswers_none (by exact h)] at hmbx hdev
  refine ⟨hdev, ?_⟩
  rw [State.slot, hmbx, State.modSlot_mbx, Tab.get_set, if_neg (by decide), State.modSlot_mbx, Tab.get_set,
    if_neg (by decide), State.slot]

end Sys2Proof.Machine
end

section
/-!
## Messages of the host to the farrier (R607, R609 to R612)
-/

namespace Sys2Proof.Machine

variable {s t u : State}

/-! ## What a message finds once it has been taken -/

theorem powered_of_message {type seq : Nat} {ws : List Nat} (h : HasMessage s type seq ws) : s.dev.powered = true := h.1

theorem farrierUp_of_message {type seq : Nat} {ws : List Nat} (h : HasMessage s type seq ws) : s.dev.farrierUp = true := by
  obtain ⟨-, -, hup, -⟩ := h
  exact hup

theorem State.rd_takeMessage (s : State) {q : Page} (hq : q ∈ [Page.hif, .ras, .clk]) (f : Fld) :
    s.takeMessage.rd q f = s.rd q f :=
  s.takeMessage_moves.rd_eq (by revert q; decide) f

theorem State.rasState_takeMessage (s : State) (c : Nat) : s.takeMessage.rasState c = s.rasState c :=
  s.rd_takeMessage (by simp) _

theorem State.isReady_takeMessage (s : State) (c : Nat) : s.takeMessage.isReady c = s.isReady c := by
  rw [State.isReady, State.chState, s.rd_takeMessage (by simp)]
  rfl

theorem State.chan_takeMessage (s : State) (c : Nat) : s.takeMessage.chan c = s.chan c :=
  State.chan_congr (s.takeMessage_moves.parts .chans (by decide)) c

theorem State.site_takeMessage (s : State) (c n : Nat) : s.takeMessage.site c n = s.site c n := by
  rw [State.site, State.site, s.chan_takeMessage]

theorem State.slotOfSite_takeMessage (s : State) (c n : Nat) : s.takeMessage.slotOfSite c n = s.slotOfSite c n := by
  have h : s.takeMessage.siteIn c = s.siteIn c := by
    funext e
    rw [State.siteIn, State.siteIn, s.chan_takeMessage]
  rw [State.slotOfSite, h, State.slotOfSite]

theorem State.stream_takeMessage (s : State) (n : Nat) : s.takeMessage.stream n = s.stream n := by
  have h : s.takeMessage.streams = s.streams := s.takeMessage_moves.parts .streams (by decide)
  rw [State.stream, h, State.stream]

/-- A message that is answered at once where a condition holds, and else acted upon. -/
theorem refused_or {type seq code : Nat} {p : Prop} [Decidable p] {act : State} {Done : State → Prop}
    (hup : s.dev.farrierUp = true) (done : ¬ p → (act.slot hfBox).full = false ∧ Done act) :
    let t := if p then s.takeMessage.answer type seq code else act
    (t.slot hfBox).full = false ∧ (p → Answered s t type seq code) ∧ (¬ p → Done t) := by
  by_cases hp : p
  · simp only [if_pos hp, State.slot_answer_other _ _ _ _ (show hfBox.val ≠ fhBox.val by decide)]
    exact ⟨s.takeMessage_empties, fun _ => answered_answer hup fun h _ => State.takeMessage_desk h, fun h => absurd hp h⟩
  · simp only [if_neg hp]
    obtain ⟨hempty, hdone⟩ := done hp
    exact ⟨hempty, fun h => absurd h hp, fun _ => hdone⟩

/-! ## Channel reset and the start of a channel (R609, R612) -/

/-- The part of a channel's reset before its mailboxes. -/
def State.channelCleared (s : State) (c : Ch) : State :=
  ((((((s.channelPathsLost c).loseStreams c).forgetAccesses fun a => reqCh? a.req = some c).modCache (.cmmu c)
    fun _ => {}).modChan c Channel.afterReset).resetPages (channelPages c) clsChannel).releaseAll (masterTag (.groom c))

/-- The part of a channel's reset after its tables. -/
def State.channelMailReset (s : State) (c : Ch) : State :=
  let s4 := (s.emptyBox (fgBox c)).resetSender (gfBox c)
  ({ s4 with shares := s4.shares.filter fun sh => sh.chan ≠ c.val } : State).wr .pwr (Reg.pwrChStat_PSTATE c) 3

theorem State.resetChannel_eq (s : State) (c : Ch) : s.resetChannel c = (s.channelCleared c).channelMailReset c := by
  rw [State.resetChannel, State.channelCleared, State.channelMailReset]

theorem State.channelCleared_mbx (s : State) (c : Ch) : (s.channelCleared c).mbx = s.mbx := by
  have paths (u : State) : (u.channelPathsLost c).mbx = u.mbx :=
    (State.channelPathsLost_moves .refl c .refl : Moves ⟨false, _, _⟩ u _).parts .mbx (by decide)
  have streams (u : State) : (u.loseStreams c).mbx = u.mbx :=
    (State.loseStreams_moves .refl c .refl : Moves ⟨false, _, _⟩ u _).parts .mbx (by decide)
  have accesses (u : State) (own : MemAccess → Bool) : (u.forgetAccesses own).mbx = u.mbx :=
    (State.forgetAccesses_moves .refl own .refl : Moves ⟨false, _, _⟩ u _).parts .mbx (by decide)
  have cache (u : State) (f : Cache → Cache) : (u.modCache (.cmmu c) f).mbx = u.mbx :=
    (State.modCache_moves .refl _ f .refl : Moves ⟨false, _, _⟩ u _).parts .mbx (by decide)
  have pages (u : State) : (u.resetPages (channelPages c) clsChannel).mbx = u.mbx :=
    (State.resetPages_moves .refl _ _ .refl : Moves ⟨false, _, _⟩ u _).parts .mbx (by decide)
  have locks (u : State) (tag : Nat) : (u.releaseAll tag).mbx = u.mbx :=
    (State.releaseAll_moves .refl tag .refl : Moves ⟨false, _, _⟩ u _).parts .mbx (by decide)
  rw [State.channelCleared, locks, pages, State.modChan_mbx, cache, accesses, streams, paths]

theorem hfBox_ne_fgBox (c : Ch) : hfBox.val ≠ (fgBox c).val := by
  simp only [hfBox, fgBox, Fin.isValue, Fin.val_zero]
  omega

/-- A channel's reset empties no mailbox but its groom's. -/
theorem State.slot_resetChannel (s : State) (c : Ch) {d : Nat} (hd : d ≠ (fgBox c).val) :
    (s.resetChannel c).slot d = s.slot d := by
  have sender (u : State) : (u.resetSender (gfBox c)).mbx = u.mbx :=
    (State.resetSender_moves .refl _ .refl : Moves ⟨false, _, _⟩ u _).parts .mbx (by decide)
  have empty (u : State) : (u.emptyBox (fgBox c)).slot d = u.slot d := by
    unfold State.emptyBox
    split
    · rw [State.slot, State.raise_mbx, State.wr_mbx, State.modSlot_mbx, Tab.get_set, if_neg hd, State.slot]
    · rfl
  have mail (u : State) : (u.channelMailReset c).slot d = u.slot d := by
    rw [State.channelMailReset, State.slot, State.wr_mbx]
    dsimp only
    rw [sender, ← State.slot, empty]
  rw [s.resetChannel_eq, mail, State.slot, s.channelCleared_mbx, State.slot]

theorem State.resetChannel_dev (s : State) (c : Ch) : (s.resetChannel c).dev = s.dev :=
  (State.resetChannel_moves .refl c .refl : Moves ⟨true, _, _⟩ s _).parts .dev (by decide)

/-- A channel's reset leaves it no command and no engine state. -/
theorem State.chan_resetChannel (s : State) (c : Ch) :
    ((s.resetChannel c).chan c).cmds = [] ∧ ((s.resetChannel c).chan c).engines = [] := by
  have locks (u : State) (tag : Nat) : (u.releaseAll tag).chans = u.chans :=
    (State.releaseAll_moves .refl tag .refl : Moves ⟨false, _, _⟩ u _).parts .chans (by decide)
  have sender (u : State) : (u.resetSender (gfBox c)).chans = u.chans :=
    (State.resetSender_moves .refl _ .refl : Moves ⟨false, _, _⟩ u _).parts .chans (by decide)
  have empty (u : State) : (u.emptyBox (fgBox c)).chans = u.chans :=
    (State.emptyBox_moves .refl _ .refl : Moves ⟨false, _, _⟩ u _).parts .chans (by decide)
  have mail (u : State) : (u.channelMailReset c).chans = u.chans := by
    rw [State.channelMailReset, State.wr_chans]
    dsimp only
    rw [sender, empty]
  have cleared (u : State) : ((u.modChan c Channel.afterReset).chan c).cmds = [] ∧
      ((u.modChan c Channel.afterReset).chan c).engines = [] := by
    rw [State.chan_modChan, if_pos rfl]
    exact ⟨rfl, rfl⟩
  rw [s.resetChannel_eq, State.chan_congr (mail _), State.channelCleared, State.chan_congr (locks _ _),
    State.chan_congr (State.resetPages_chans ..)]
  exact cleared _

theorem State.startChannel_starts (s : State) (c : Ch) :
    (s.startChannel c).chState c = chHbmTrain ∧ (s.startChannel c).arithOn c = true := by
  have runs : (if s.arithOn c then s else s.relockFull c).arithOn c = true := by
    split
    · assumption
    · exact (s.relockFull_runs c.isLt).1
  have clock (u : State) : (u.trainHbm c).arithOn c = u.arithOn c := by
    rw [State.arithOn, State.flag, (State.trainHbm_moves .refl c .refl : Moves ⟨false, _, _⟩ u _).rd_eq (by decide)]
    rfl
  exact ⟨State.chState_setChState _ c (by decide), (clock _).trans runs⟩

theorem State.startChannel_frame (s : State) (c : Ch) : Moves ⟨false, [.out, .msix], [.hif, .clk]⟩ s (s.startChannel c) :=
  State.startChannel_moves .refl c .refl

theorem State.owe_frame (s : State) (type seq chan phys : Nat) : Moves ⟨false, [.dev], []⟩ s (s.owe type seq chan phys) :=
  State.owe_moves .refl _ _ _ _ .refl

theorem Moves.slot_eq {σ : Scope} (h : Moves σ s t) (hm : .mbx ∉ σ.parts) (d : Nat) : t.slot d = s.slot d := by
  have e : t.mbx = s.mbx := h.parts .mbx hm
  rw [State.slot, e, State.slot]

theorem State.owed_startChannel (s : State) (c : Ch) (type seq chan phys : Nat) :
    (⟨type, seq, chan, phys⟩ : OwedAnswer) ∈ ((s.owe type seq chan phys).startChannel c).dev.owed := by
  have h : ((s.owe type seq chan phys).startChannel c).dev = (s.owe type seq chan phys).dev :=
    (State.startChannel_frame _ c).parts .dev (by decide)
  rw [h, State.owe, State.modDev_dev]
  simp

/-! ## READMIT, CHRESET and RETIRE (R609, R611, R612) -/

/-- A message for a channel: it is not well formed, the channel is in another state, or it is acted upon. -/
theorem channelMessage {type seq code : Nat} {ws : List Nat} {wrong : Prop} [Decidable wrong] {act : State}
    {Done : State → Prop} (h : HasMessage s type seq ws) (done : ¬ wrong → (act.slot hfBox).full = false ∧ Done act) :
    let t := if !wellFormedMsg ws 2 2 then s.takeMessage.answer type seq codeBadArg
      else if wrong then s.takeMessage.answer type seq code else act
    (t.slot hfBox).full = false ∧ (wellFormedMsg ws 2 2 = false → Answered s t type seq codeBadArg) ∧
      (wellFormedMsg ws 2 2 = true → wrong → Answered s t type seq code) ∧
      (wellFormedMsg ws 2 2 = true → ¬ wrong → Done t) := by
  have hup := farrierUp_of_message h
  obtain ⟨hempty, hbad, hrest⟩ := refused_or (s := s) (type := type) (seq := seq) (code := codeBadArg)
    (p := (!wellFormedMsg ws 2 2) = true) (Done := fun t => (wrong → Answered s t type seq code) ∧ (¬ wrong → Done t)) hup
    fun _ => refused_or hup done
  exact ⟨hempty, fun hw => hbad (by simp [hw]), fun hw => (hrest (by simp [hw])).1, fun hw => (hrest (by simp [hw])).2⟩

/-- A channel is being re-admitted, and the answer is owed. -/
def Readmitting (seq : Nat) (c : Ch) (t : State) : Prop :=
  t.rasState c = rasReadmitting ∧ t.chState c = chHbmTrain ∧ t.arithOn c = true ∧
    (⟨msgReadmit, seq, c, 0⟩ : OwedAnswer) ∈ t.dev.owed

/-- What READMIT does to a channel that is retired. -/
theorem State.readmitting (s : State) (seq : Nat) (c : Ch) (hf : (s.slot hfBox).full = false) :
    ((((s.wr .ras (Reg.rasChStat_STATE c) rasReadmitting).owe msgReadmit seq c 0).startChannel c).slot hfBox).full = false ∧
      Readmitting seq c (((s.wr .ras (Reg.rasChStat_STATE c) rasReadmitting).owe msgReadmit seq c 0).startChannel c) := by
  obtain ⟨hstate, harith⟩ := State.startChannel_starts
    ((s.wr .ras (Reg.rasChStat_STATE c) rasReadmitting).owe msgReadmit seq c 0) c
  refine ⟨?_, ?_, hstate, harith, State.owed_startChannel ..⟩
  · rw [(State.startChannel_frame _ c).slot_eq (by decide), (State.owe_frame ..).slot_eq (by decide), State.slot,
      State.wr_mbx, ← State.slot, hf]
  · rw [State.rasState, (State.startChannel_frame _ c).rd_eq (by decide), (State.owe_frame ..).rd_eq (by decide),
      State.rd_wr_same _ _ _ (by simp [Reg.rasChStat_STATE])]
    rfl

/-- A channel starts again without commands and engine state, and the answer is owed. -/
def StartingAgain (seq : Nat) (c : Ch) (t : State) : Prop :=
  t.chState c = chHbmTrain ∧ (t.chan c).cmds = [] ∧ (t.chan c).engines = [] ∧
    (⟨msgChreset, seq, c, 0⟩ : OwedAnswer) ∈ t.dev.owed

/-- What CHRESET does to a channel that is READY. -/
theorem State.startingAgain (s : State) (seq : Nat) (c : Ch) (hf : (s.slot hfBox).full = false) :
    ((((s.resetChannel c).owe msgChreset seq c 0).startChannel c).slot hfBox).full = false ∧
      StartingAgain seq c (((s.resetChannel c).owe msgChreset seq c 0).startChannel c) := by
  obtain ⟨hcmds, hengines⟩ := s.chan_resetChannel c
  have hchan : (((s.resetChannel c).owe msgChreset seq c 0).startChannel c).chan c = (s.resetChannel c).chan c :=
    State.chan_congr (((State.startChannel_frame _ c).parts .chans (by decide)).trans
      ((State.owe_frame ..).parts .chans (by decide))) c
  refine ⟨?_, (State.startChannel_starts _ c).1, by rw [hchan, hcmds], by rw [hchan, hengines],
    State.owed_startChannel ..⟩
  rw [(State.startChannel_frame _ c).slot_eq (by decide), (State.owe_frame ..).slot_eq (by decide),
    s.slot_resetChannel c (hfBox_ne_fgBox c), hf]

/-! ## Retirement (R604, R605, R611) -/

/-- A channel that is retired, before the answers that its retirement settles. -/
def State.retired (s : State) (c : Ch) (cause : Nat) : State :=
  let readmitting : Bool := s.rasState c = rasReadmitting
  let s1 := ((s.resetChannel c).setChState c chRetired).wr .ras (Reg.rasChStat_STATE c) rasRetired
  let s2 := (s1.wr .ras (Reg.rasChStat_CAUSE c) cause).raise .ras 2
  if readmitting then s2.raise .ras 3 else s2

theorem State.retireChannel_eq (s : State) (c : Ch) (cause : Nat) :
    s.retireChannel c cause = ((s.retired c cause).settleOwed (restartOf c) codeRepairFail).startLinks := by
  rw [State.retireChannel, State.retired]

/-- The retirement itself, after the reset of the channel, shows in registers alone. -/
theorem State.retired_moves (s : State) (c : Ch) (cause : Nat) :
    Moves ⟨false, [.out, .msix], [.hif, .ras]⟩ (s.resetChannel c) (s.retired c cause) := by
  have shown : Moves ⟨false, [.out, .msix], [.hif, .ras]⟩ (s.resetChannel c)
      (((((s.resetChannel c).setChState c chRetired).wr .ras (Reg.rasChStat_STATE c) rasRetired).wr .ras
        (Reg.rasChStat_CAUSE c) cause).raise .ras 2) :=
    State.raise_moves (State.wr_moves (State.wr_moves (State.setChState_moves .refl _ _ (by decide)) _ _ _ (by decide)) _ _ _
      (by decide)) _ _ (by decide) (by decide) (by decide)
  exact .ite (State.raise_moves shown _ _ (by decide) (by decide) (by decide)) shown

theorem State.retired_shows (s : State) (c : Ch) {cause : Nat} (hc : cause < 16) :
    (s.retired c cause).chState c = chRetired ∧ (s.retired c cause).rasState c = rasRetired ∧
      (s.retired c cause).rd .ras (Reg.rasChStat_CAUSE c) = cause := by
  have ras {f : Fld} (hw : f.lo + f.w ≤ 32) (ho : f.off < 4096) (h0 : f.off ≠ 0x10) : (s.retired c cause).rd .ras f =
      ((((s.resetChannel c).setChState c chRetired).wr .ras (Reg.rasChStat_STATE c) rasRetired).wr .ras
        (Reg.rasChStat_CAUSE c) cause).rd .ras f := by
    unfold State.retired
    dsimp only
    split
    · rw [State.rd_raise_off _ _ hw ho h0, State.rd_raise_off _ _ hw ho h0]
    · rw [State.rd_raise_off _ _ hw ho h0]
  have hif : (s.retired c cause).chState c = ((s.resetChannel c).setChState c chRetired).chState c := by
    rw [State.chState, State.chState]
    unfold State.retired
    dsimp only
    split
    · rw [State.rd_raise_page _ (by decide), State.rd_raise_page _ (by decide), State.rd_wr_page _ (by decide),
        State.rd_wr_page _ (by decide)]
    · rw [State.rd_raise_page _ (by decide), State.rd_wr_page _ (by decide), State.rd_wr_page _ (by decide)]
  have hlt := c.isLt
  refine ⟨hif.trans (State.chState_setChState _ c (by decide)), ?_, ?_⟩
  · rw [State.rasState, ras (by simp [Reg.rasChStat_STATE]) (by simp only [Reg.rasChStat_STATE]; omega)
      (by simp only [Reg.rasChStat_STATE]; omega), State.rd_wr_off _ _ (by simp [Reg.rasChStat_CAUSE])
      (by simp [Reg.rasChStat_STATE]) (by simp only [Reg.rasChStat_CAUSE]; omega) (by simp only [Reg.rasChStat_STATE]; omega)
      (by simp [Reg.rasChStat_STATE, Reg.rasChStat_CAUSE]), State.rd_wr_same _ _ _ (by simp [Reg.rasChStat_STATE])]
    rfl
  · rw [ras (by simp [Reg.rasChStat_CAUSE]) (by simp only [Reg.rasChStat_CAUSE]; omega)
      (by simp only [Reg.rasChStat_CAUSE]; omega), State.rd_wr_same _ _ _ (by simp [Reg.rasChStat_CAUSE])]
    exact Nat.mod_eq_of_lt hc

/-- The enabling of a port leaves HIF_READY. -/
theorem State.rd_enable_port (s : State) (p : PortId) (f : Fld) : (s.enable (.hlk p) true).rd .hif f = s.rd .hif f := by
  have h : Page.hif ≠ .hlk p := by simp
  unfold State.enable State.enterStarting State.setBlk
  dsimp only
  rw [if_pos rfl]
  split
  · rw [State.showHubOf, if_neg (by simp [isHubBlock]), State.rd_congr (State.setBlockRun_regs ..),
      State.rd_wr_page _ h, State.rd_wr_page _ h, State.rd_wr_page _ h, State.rd_wr_page _ h]
  · split
    · rw [State.rd_wr_page _ h, State.rd_wr_page _ h]
    · rw [State.rd_wr_page _ h]

theorem State.chState_startLinks (s : State) (c : Ch) : s.startLinks.chState c = s.chState c := by
  have ports : ((List.finRange 16).foldl (fun s p => if s.present p then s.enable (.hlk p) true else s) s).rd .hif
      (readyFld c) = s.rd .hif (readyFld c) :=
    foldl_keeps (P := fun u : State => u.rd .hif (readyFld c) = s.rd .hif (readyFld c)) (fun u p _ h => by
      split
      · rw [u.rd_enable_port, h]
      · exact h) rfl
  have hc := c.isLt
  unfold State.startLinks
  split
  · rw [State.chState, State.rd_wr_page _ (by decide), State.rd_wr_off _ _ (by decide) (readyFld_narrow c) (by decide)
      (by simp [readyFld]) (.inr (.inl (by simp only [readyFld, Reg.hifReady_LINKS_STARTED]; omega))), ports, State.chState]
  · rfl

/-- A channel shows its retirement and the cause. -/
def ShowsRetired (c : Ch) (cause : Nat) (t : State) : Prop :=
  t.chState c = chRetired ∧ t.rasState c = rasRetired ∧ t.rd .ras (Reg.rasChStat_CAUSE c) = cause

theorem State.retireChannel_shows (s : State) (c : Ch) {cause : Nat} (hc : cause < 16) (type seq code : Nat) :
    ShowsRetired c cause ((s.retireChannel c cause).answer type seq code) := by
  obtain ⟨hstate, hras, hcause⟩ := s.retired_shows c hc
  have answer (u : State) := (State.answer_moves .refl type seq code .refl : Moves ⟨false, _, _⟩ u _)
  have links (u : State) := (State.startLinks_moves .refl .refl : Moves ⟨false, _, _⟩ u _)
  have settled (u : State) := (State.settleOwed_moves .refl (restartOf c) codeRepairFail .refl : Moves ⟨false, _, _⟩ u _)
  have ras (f : Fld) : ((s.retireChannel c cause).answer type seq code).rd .ras f = (s.retired c cause).rd .ras f := by
    rw [(answer _).rd_eq (by decide), s.retireChannel_eq, (links _).rd_eq (by decide), (settled _).rd_eq (by decide)]
  refine ⟨?_, (ras _).trans hras, (ras _).trans hcause⟩
  rw [State.chState, (answer _).rd_eq (by decide), ← State.chState, s.retireChannel_eq, State.chState_startLinks,
    State.chState, (settled _).rd_eq (by decide)]
  exact hstate

/-- A retirement leaves HF, and where no answer is owed the device and FH too. -/
theorem State.retireChannel_desk (s : State) (c : Ch) (cause : Nat) :
    (s.retireChannel c cause).slot hfBox = s.slot hfBox ∧ (s.dev.owed = [] →
      (s.retireChannel c cause).dev = s.dev ∧ (s.retireChannel c cause).slot fhBox = s.slot fhBox) := by
  have links (u : State) := (State.startLinks_moves .refl .refl : Moves ⟨false, _, _⟩ u _)
  have slot {b : MbxId} (hb : b.val ≠ (fgBox c).val) : (s.retired c cause).slot b = s.slot b := by
    rw [(s.retired_moves c cause).slot_eq (by decide), s.slot_resetChannel c hb]
  have dev : (s.retired c cause).dev = s.dev :=
    Eq.trans ((s.retired_moves c cause).parts .dev (by decide)) (s.resetChannel_dev c)
  rw [s.retireChannel_eq]
  refine ⟨?_, fun ho => ⟨?_, ?_⟩⟩
  · rw [(links _).slot_eq (by decide), State.slot_settleOwed_other _ _ _ (by decide), slot (hfBox_ne_fgBox c)]
  · rw [State.settleOwed_none (dev ▸ ho)]
    exact Eq.trans ((links _).parts .dev (by decide)) dev
  · rw [State.settleOwed_none (dev ▸ ho), (links _).slot_eq (by decide), slot (by simp only [fhBox, fgBox]; omega)]

/-- What RETIRE does to a channel in service. -/
theorem State.retireAnswered (s : State) (hup : s.dev.farrierUp = true) (seq : Nat) (c : Ch) :
    (((s.takeMessage.retireChannel c 8).answer msgRetire seq codeOk).slot hfBox).full = false ∧
      Answered s ((s.takeMessage.retireChannel c 8).answer msgRetire seq codeOk) msgRetire seq codeOk := by
  obtain ⟨hhf, hdesk⟩ := s.takeMessage.retireChannel_desk c 8
  refine ⟨?_, answered_answer hup fun ha ho => ?_⟩
  · rw [State.slot_answer_other _ _ _ _ (by decide), hhf, s.takeMessage_empties]
  · obtain ⟨hdev, hfh⟩ := State.takeMessage_desk ha
    obtain ⟨hdev', hfh'⟩ := hdesk (hdev ▸ ho)
    exact ⟨hdev'.trans hdev, hfh'.trans hfh⟩

theorem channelMessages : Rules.ChannelMessages := by
  intro seq ws s
  rw [← s.rasState_takeMessage, ← s.isReady_takeMessage]
  refine ⟨fun h => ?_, fun h => ?_, fun h => ?_⟩
  · obtain ⟨hempty, hbad, hwrong, hdone⟩ := channelMessage (code := codeNotRetired)
      (wrong := s.takeMessage.rasState (msgCh ws) ≠ rasRetired) h fun _ =>
        s.takeMessage.readmitting seq (msgCh ws) s.takeMessage_empties
    exact ⟨_, by rw [exec, execReadmit, live_of_powered (powered_of_message h), State.onMessage_eq h], hempty, hbad,
      hwrong, fun hw hr => hdone hw (not_not_intro hr)⟩
  · obtain ⟨hempty, hbad, hwrong, hdone⟩ := channelMessage (code := codeNotReady)
      (wrong := (!s.takeMessage.isReady (msgCh ws)) = true) h fun _ =>
        s.takeMessage.startingAgain seq (msgCh ws) s.takeMessage_empties
    exact ⟨_, by rw [exec, execChreset, live_of_powered (powered_of_message h), State.onMessage_eq h], hempty, hbad,
      fun hw hr => hwrong hw (by simp [hr]), fun hw hr => hdone hw (by simp [hr])⟩
  · obtain ⟨retEmpty, retAnswer⟩ := s.retireAnswered (farrierUp_of_message h) seq (msgCh ws)
    obtain ⟨hempty, hbad, hwrong, hdone⟩ := channelMessage (code := codeNotReady)
      (wrong := s.takeMessage.rasState (msgCh ws) ≠ rasInService)
      (Done := fun t => Answered s t msgRetire seq codeOk ∧ ShowsRetired (msgCh ws) 8 t) h fun _ =>
        ⟨retEmpty, retAnswer, State.retireChannel_shows _ _ (by decide) ..⟩
    exact ⟨_, by rw [exec, execRetire, live_of_powered (powered_of_message h), State.onMessage_eq h], hempty, hbad,
      hwrong, fun hw hr => hdone hw (not_not_intro hr)⟩

/-! ## RETEST and RESTART (R607, R611) -/

/-- A message with three grounds of refusal. -/
theorem refused_thrice {type seq c1 c2 c3 : Nat} {p1 p2 p3 : Prop} [Decidable p1] [Decidable p2] [Decidable p3]
    {act : State} {Done : State → Prop} (hup : s.dev.farrierUp = true) (done : ¬ p3 → (act.slot hfBox).full = false ∧ Done act) :
    let t := if p1 then s.takeMessage.answer type seq c1 else if p2 then s.takeMessage.answer type seq c2
      else if p3 then s.takeMessage.answer type seq c3 else act
    (t.slot hfBox).full = false ∧ (p1 → Answered s t type seq c1) ∧ (¬ p1 → p2 → Answered s t type seq c2) ∧
      (¬ p1 → ¬ p2 → (p3 → Answered s t type seq c3) ∧ (¬ p3 → Done t)) := by
  obtain ⟨hempty, h1, hrest⟩ := refused_or (s := s) (type := type) (seq := seq) (code := c1) (p := p1)
    (Done := fun t => (p2 → Answered s t type seq c2) ∧ (¬ p2 → (p3 → Answered s t type seq c3) ∧ (¬ p3 → Done t))) hup
    fun _ => refused_or (Done := fun t => (p3 → Answered s t type seq c3) ∧ (¬ p3 → Done t)) hup fun _ => refused_or hup done
  exact ⟨hempty, h1, fun h => (hrest h).1, fun h => (hrest h).2⟩

theorem State.site_modSite_same (s : State) (c n : Nat) (f : Site → Site) : (s.modSite c n f).site c n = f (s.site c n) := by
  rw [State.site, State.modSite, State.chan_modChan, if_pos rfl]
  simp

/-- A site is under re-test, and the answer is owed. -/
def Retesting (seq : Nat) (c : Ch) (phys : Nat) (t : State) : Prop :=
  (t.site c phys).state = siteRetesting ∧ (⟨msgRetest, seq, c, phys⟩ : OwedAnswer) ∈ t.dev.owed

/-- What RETEST does to a site that is HELD or FAILED. -/
theorem State.retesting (s : State) (seq : Nat) (c : Ch) (phys : Nat) (hf : (s.slot hfBox).full = false) :
    (((s.modSite c phys fun x => { x with state := siteRetesting }).owe msgRetest seq c phys).slot hfBox).full = false ∧
      Retesting seq c phys ((s.modSite c phys fun x => { x with state := siteRetesting }).owe msgRetest seq c phys) := by
  refine ⟨hf, ?_, by simp [State.owe]⟩
  rw [State.site, State.owe, State.chan_congr (State.modDev_chans ..), ← State.site, State.site_modSite_same]

theorem retests {seq : Nat} {ws : List Nat} {phys : Nat} (h : HasMessage s msgRetest seq ws)
    (hphys : phys = bitsOf (ws.getD 1 0) 2 7) :
    ∃ t, Sys2Proof.Machine.exec .retest s = .next t ∧ (t.slot hfBox).full = false ∧
      (wellFormedMsg ws 9 2 = false ∨ 72 ≤ phys → Answered s t msgRetest seq codeBadArg) ∧
      (wellFormedMsg ws 9 2 = true → phys < 72 → (s.site (msgCh ws) phys).state ≠ siteHeld →
        (s.site (msgCh ws) phys).state ≠ siteFailed → Answered s t msgRetest seq codeNotHeld) ∧
      (wellFormedMsg ws 9 2 = true → phys < 72 →
        (s.site (msgCh ws) phys).state = siteHeld ∨ (s.site (msgCh ws) phys).state = siteFailed →
        (s.isReady (msgCh ws) = false ∨ s.slotOfSite (msgCh ws) phys ≠ 0x7f →
          Answered s t msgRetest seq codeNotReady) ∧
        (s.isReady (msgCh ws) = true → s.slotOfSite (msgCh ws) phys = 0x7f →
          (t.site (msgCh ws) phys).state = siteRetesting ∧
          (⟨msgRetest, seq, msgCh ws, phys⟩ : OwedAnswer) ∈ t.dev.owed)) := by
  rw [← s.isReady_takeMessage, ← s.slotOfSite_takeMessage, ← s.site_takeMessage]
  obtain ⟨hempty, hbad, hheld, hrest⟩ := refused_thrice (s := s) (type := msgRetest) (seq := seq) (c1 := codeBadArg)
    (c2 := codeNotHeld) (c3 := codeNotReady) (p1 := (!wellFormedMsg ws 9 2 || decide (72 ≤ phys)) = true)
    (p2 := (decide ((s.takeMessage.site (msgCh ws) phys).state ≠ siteHeld) &&
      decide ((s.takeMessage.site (msgCh ws) phys).state ≠ siteFailed)) = true)
    (p3 := (!s.takeMessage.isReady (msgCh ws) || decide (s.takeMessage.slotOfSite (msgCh ws) phys ≠ 0x7f)) = true)
    (farrierUp_of_message h) fun _ => s.takeMessage.retesting seq (msgCh ws) phys s.takeMessage_empties
  refine ⟨_, by rw [exec, execRetest, live_of_powered (powered_of_message h), State.onMessage_eq h, hphys], hempty,
    fun hw => hbad (by simpa using hw),
    fun hw hp h1 h2 => hheld (by simp [hw, hp]) (by simp [h1, h2]), fun hw hp hst => ?_⟩
  obtain ⟨hnot, hdone⟩ := hrest (by simp [hw, hp]) (by simpa [or_iff_not_imp_left] using hst)
  exact ⟨fun hr => hnot (by simpa using hr), fun hr hs => hdone (by simp [hr, hs])⟩

/-- A stream that is OPEN again on a home channel, with its place and its steps (R607). -/
def StreamRec.reopened (r : StreamRec) (home va steps : Nat) : StreamRec :=
  { r with state := strmOpen, home := home, stateVa := va, steps := steps }

/-- RESTART has been answered, and the stream is OPEN again. -/
def Reopened (s : State) (seq n home va steps : Nat) (t : State) : Prop :=
  Answered s t msgRestart seq codeOk ∧ t.stream n = (s.takeMessage.stream n).reopened home va steps

/-- What RESTART does to a LOST stream. -/
theorem State.reopened (s : State) (hup : s.dev.farrierUp = true) (seq n home va steps : Nat) :
    ((((s.takeMessage.dropPages n).modStream n fun r => r.reopened home va steps).answer msgRestart seq codeOk).slot
        hfBox).full = false ∧
      Reopened s seq n home va steps
        (((s.takeMessage.dropPages n).modStream n fun r => r.reopened home va steps).answer msgRestart seq codeOk) := by
  have dropped := (State.dropPages_moves .refl n .refl : Moves ⟨false, _, _⟩ s.takeMessage _)
  have opening := (State.modStream_moves .refl n (fun r => r.reopened home va steps) .refl :
    Moves ⟨false, _, _⟩ (s.takeMessage.dropPages n) _)
  refine ⟨?_, answered_answer hup fun ha _ => ?_, ?_⟩
  · rw [State.slot_answer_other _ _ _ _ (by decide), opening.slot_eq (by decide), dropped.slot_eq (by decide),
      s.takeMessage_empties]
  · obtain ⟨hdev, hfh⟩ := State.takeMessage_desk ha
    exact ⟨((opening.parts .dev (by decide)).trans (dropped.parts .dev (by decide))).trans hdev, by
      rw [opening.slot_eq (by decide), dropped.slot_eq (by decide), hfh]⟩
  · have answered (u : State) : (u.answer msgRestart seq codeOk).streams = u.streams :=
      (State.answer_moves .refl _ _ _ .refl : Moves ⟨false, _, _⟩ u _).parts .streams (by decide)
    have kept : (s.takeMessage.dropPages n).streams = s.takeMessage.streams := dropped.parts .streams (by decide)
    rw [State.stream, answered, State.modStream]
    dsimp only
    rw [Tab.get_set, if_pos rfl, State.stream, kept, State.stream]

theorem restarts {seq : Nat} {ws : List Nat} {n home va steps : Nat} (h : HasMessage s msgRestart seq ws)
    (hn : n = bitsOf (ws.getD 1 0) 0 10) (hhome : home = bitsOf (ws.getD 1 0) 10 2)
    (hva : va = ws.getD 2 0 + ws.getD 3 0 * 2 ^ 32) (hsteps : steps = ws.getD 4 0 + ws.getD 5 0 * 2 ^ 32) :
    ∃ t, Sys2Proof.Machine.exec .restart s = .next t ∧ (t.slot hfBox).full = false ∧
      (wellFormedMsg ws 12 6 = false ∨ 2 ^ 48 ≤ va ∨ 2 ^ 48 ≤ steps → Answered s t msgRestart seq codeBadArg) ∧
      (wellFormedMsg ws 12 6 = true → va < 2 ^ 48 → steps < 2 ^ 48 →
        ((s.stream n).state ≠ strmLost → Answered s t msgRestart seq codeNotLost) ∧
        ((s.stream n).state = strmLost → s.isReady home = false → Answered s t msgRestart seq codeHomeDown) ∧
        ((s.stream n).state = strmLost → s.isReady home = true → Answered s t msgRestart seq codeOk ∧
          t.stream n = { s.stream n with state := strmOpen, home := home, stateVa := va, steps := steps })) := by
  rw [← s.isReady_takeMessage, ← s.stream_takeMessage]
  obtain ⟨hempty, hbad, hlost, hrest⟩ := refused_thrice (s := s) (type := msgRestart) (seq := seq) (c1 := codeBadArg)
    (c2 := codeNotLost) (c3 := codeHomeDown)
    (p1 := (!wellFormedMsg ws 12 6 || decide (2 ^ 48 ≤ va) || decide (2 ^ 48 ≤ steps)) = true)
    (p2 := (s.takeMessage.stream n).state ≠ strmLost) (p3 := (!s.takeMessage.isReady home) = true) (farrierUp_of_message h)
    fun _ => s.reopened (farrierUp_of_message h) seq n home va steps
  refine ⟨_, ?_, hempty, fun hw => hbad (by simpa [or_assoc] using hw), fun hw h1 h2 => ?_⟩
  · rw [exec, execRestart, live_of_powered (powered_of_message h), State.onMessage_eq h, hn, hhome, hva, hsteps]
    rfl
  · have good : ¬ (!wellFormedMsg ws 12 6 || decide (2 ^ 48 ≤ va) || decide (2 ^ 48 ≤ steps)) = true := by
      simpa [hw] using ⟨h1, h2⟩
    exact ⟨hlost good, fun hl hr => (hrest good (not_not_intro hl)).1 (by simp [hr]),
      fun hl hr => (hrest good (not_not_intro hl)).2 (by simp [hr])⟩

theorem siteAndStreamMessages : Rules.SiteAndStreamMessages := fun _ _ _ => ⟨fun _ => retests, fun _ _ _ _ => restarts⟩

end Sys2Proof.Machine
end

section
/-!
## The engine reset (R19, R200, R400)
-/

namespace Sys2Proof.Machine

variable {s t u : State} {st : Nat} {α β : Type}

/-! ## What is kept of every channel -/

/-- Every channel keeps what a view shows of it. -/
structure State.Keeps (view : Channel → β) (s t : State) : Prop where
  same : ∀ c, view (t.chan c) = view (s.chan c)

section
variable {view : Channel → β}

theorem State.Keeps.refl : s.Keeps view s := ⟨fun _ => rfl⟩

theorem State.Keeps.trans (h1 : s.Keeps view t) (h2 : t.Keeps view u) : s.Keeps view u :=
  ⟨fun c => (h2.same c).trans (h1.same c)⟩

theorem State.Keeps.fold {f : State → α → State} {l : List α} (h : s.Keeps view t)
    (hf : ∀ u : State, ∀ x ∈ l, u.Keeps view (f u x)) : s.Keeps view (l.foldl f t) :=
  foldl_keeps (fun u x hx hu => hu.trans (hf u x hx)) h

theorem State.Keeps.ite {c : Prop} [Decidable c] (h1 : s.Keeps view t) (h2 : s.Keeps view u) :
    s.Keeps view (if c then t else u) := by
  split <;> assumption

theorem State.Keeps.of_chans (h : t.chans = s.chans) : s.Keeps view t := ⟨fun c => by rw [State.chan_congr h]⟩

theorem State.modChan_keeps (s : State) (c : Nat) {f : Channel → Channel}
    (hf : ∀ x, view (f x) = view x := by intros; rfl) : s.Keeps view (s.modChan c f) := by
  refine ⟨fun d => ?_⟩
  rw [State.chan_modChan]
  split
  · subst_vars; exact hf _
  · rfl

end

/-- Engines that change in one place, seen through a view of each engine that does not change. -/
theorem Tab.view_set {γ : Type} (view : Engine → γ) (l : Tab Engine) (e : Nat) {g : Engine}
    (hg : view g = view (Tab.get {} l e)) :
    (fun d => view (Tab.get {} (Tab.set l e g) d)) = fun d => view (Tab.get {} l d) := by
  funext d
  rw [Tab.get_set]
  split
  · subst_vars; exact hg
  · rfl

/-! ## The tiles beside one that is lost -/

/-- The tiles of every engine of a channel. -/
def Channel.tileView (x : Channel) (e : Nat) : Tab TileSlot := (x.engine e).tiles

theorem State.tile_of_keeps (h : s.Keeps Channel.tileView t) (c e n : Nat) : t.tile c e n = s.tile c e n := by
  rw [State.tile, Engine.tile, State.engine, ← Channel.tileView, h.same c]
  rfl

theorem State.modEngine_tiles (s : State) (c e : Nat) {f : Engine → Engine}
    (hf : ∀ g, (f g).tiles = g.tiles := by intros; rfl) : s.Keeps Channel.tileView (s.modEngine c e f) :=
  s.modChan_keeps c fun x => Tab.view_set Engine.tiles x.engines e (hf _)

theorem State.ecDone_tiles (s : State) (c : Nat) (k : EngCmd) (st : Nat) : s.Keeps Channel.tileView (s.ecDone c k st) :=
  .ite .refl (s.modChan_keeps c)

theorem State.ecsDone_tiles (s : State) (c : Nat) (ks : List EngCmd) (st : Nat) :
    s.Keeps Channel.tileView (s.ecsDone c ks st) := State.Keeps.refl.fold fun u k _ => u.ecDone_tiles c k st

theorem State.wrAll_keeps {view : Channel → β} (s : State) (c : Nat) (es : List Nat) (f : Fld) (v : Nat) :
    s.Keeps view (s.wrAll c es f v) := State.Keeps.refl.fold fun _ _ _ => .of_chans (State.wr_chans ..)

theorem Engine.follow_tiles (g : Engine) : g.follow.tiles = g.tiles := rfl

theorem State.sweep_tiles (s : State) (c e : Nat) : s.Keeps Channel.tileView (s.sweep c e) := by
  have h := s.modEngine_tiles c e (f := fun g =>
    { g.follow with headers := g.follow.headers.filter fun h => g.follow.needs h.1 h.2.1 }) Engine.follow_tiles
  exact .ite (h.trans (State.wrAll_keeps ..)) h

theorem State.freeEntry_tiles (s : State) (c e : Nat) (k : EngCmd) : s.Keeps Channel.tileView (s.freeEntry c e k) :=
  .ite .refl (s.modEngine_tiles c e)

theorem State.startRebuild_tiles (s : State) (c e n uid : Nat) (d : Group) :
    s.Keeps Channel.tileView (s.startRebuild c e n uid d) := by
  unfold State.startRebuild
  refine State.Keeps.trans ?_ (State.modEngine_tiles _ c e)
  refine .of_chans ?_
  exact ((State.bumpAll_moves (State.showBank_moves .refl c _ n d 0 1 0 .refl) c _ _ .refl :
    Moves ⟨false, _, _⟩ s _)).parts .chans (by decide)

theorem State.bindTo_tiles (s : State) (c e n uid : Nat) : s.Keeps Channel.tileView (s.bindTo c e n uid) :=
  (s.modEngine_tiles c e).trans (State.wrAll_keeps ..)

theorem State.unbind_tiles (s : State) (c e uid : Nat) : s.Keeps Channel.tileView (s.unbind c e uid) := by
  refine (s.modEngine_tiles c e).fold fun u n _ => ?_
  have first := u.modEngine_tiles c e (f := fun g =>
    { g with banks := Tab.set g.banks n { g.bank n with bound := ((u.engine c e).bank n).bound.erase uid } })
  dsimp only
  split
  · split
    · split
      · exact ((first.trans (State.modEngine_tiles _ c e)).trans (State.startRebuild_tiles ..)).trans
          (State.bindTo_tiles ..)
      · exact first.trans (State.wrAll_keeps ..)
    · exact first
  · exact .refl

theorem Engine.freeLanes_tiles (g : Engine) (r : EngRun) : (g.freeLanes r).tiles = g.tiles := by
  unfold Engine.freeLanes
  split
  · exact foldl_keeps (P := fun h : Engine => h.tiles = g.tiles)
      (f := fun g (l : Nat × LaneProg) => g.setLaneCredit l.1 fun k => k.free l.2.buf.length) (fun _ _ _ h => h) rfl
  · rfl

theorem State.dropRuns_tiles (s : State) (c e t : Nat) : s.Keeps Channel.tileView (s.dropRuns c e t) := by
  refine State.Keeps.trans (State.Keeps.trans (State.Keeps.refl.fold fun u r _ => ?_) (State.modEngine_tiles _ c e))
    (State.sweep_tiles _ c e)
  exact ((u.unbind_tiles c e _).trans (State.freeEntry_tiles _ c e _)).trans
    (State.modEngine_tiles _ c e fun g => g.freeLanes_tiles r)

theorem Engine.dropDrain_tiles (g : Engine) (t : Nat) : (g.dropDrain t).tiles = g.tiles := by
  unfold Engine.dropDrain
  split
  · split <;> rfl
  · rfl

/-- A tile that is freed leaves every other one. -/
theorem State.tile_freeTile_other (s : State) (c e : Nat) {m n : Nat} (h : n ≠ m) :
    (s.freeTile c e m).tile c e n = s.tile c e n := by
  rw [← State.tile_of_keeps (s.dropRuns_tiles c e m) c e n, State.freeTile, State.modEngine, State.tile, State.engine,
    State.chan_modChan, if_pos rfl, Channel.engine, Tab.get_set, if_pos rfl, Engine.tile, Engine.setTile, Tab.get_set, if_neg h,
    Engine.dropDrain_tiles]
  rfl

theorem State.sendBreak_tiles (s : State) (c e : Nat) (k : EngCmd) (tkind cause : Nat) :
    s.Keeps Channel.tileView (s.sendBreak c e k tkind cause) := .ite (s.modEngine_tiles c e) .refl

theorem State.tile_loseTile_other (s : State) (c e : Nat) {m n : Nat} (h : n ≠ m) (st : Nat) (cause : Option Nat) :
    (s.loseTile c e m st cause).tile c e n = s.tile c e n := by
  unfold State.loseTile
  dsimp only
  rw [State.tile_freeTile_other _ c e h]
  refine State.tile_of_keeps ?_ c e n
  split
  · exact (s.ecsDone_tiles c _ st).trans (State.sendBreak_tiles ..)
  · exact s.ecsDone_tiles c _ st

/-! ## The work of the engines under the state map (R330 to R338) -/

/-- What an engine works on. -/
def Engine.work (g : Engine) : List EngCmd × Tab TileSlot × List EngRun × Option Drain := (g.queue, g.tiles, g.runs, g.drain)

/-- The commands of a channel, its sites' slots and the work of its engines. -/
def Channel.workView (x : Channel) :
    List HostCmd × Tab Nat × (Nat → List EngCmd × Tab TileSlot × List EngRun × Option Drain) :=
  (x.cmds, x.slotMap, fun e => (x.engine e).work)

theorem Channel.workView_eq {x y : Channel} (h : y.workView = x.workView) :
    y.cmds = x.cmds ∧ y.slotMap = x.slotMap ∧ ∀ e, (y.engine e).work = (x.engine e).work := by
  simpa only [Channel.workView, Prod.mk.injEq, funext_iff] using h

theorem State.putPage_work (s : State) (c : Nat) (p q : StatePage) :
    s.Keeps Channel.workView (s.modChan c fun x => x.putPage p q) := s.modChan_keeps c

theorem State.modEngine_work (s : State) (c e : Nat) {f : Engine → Engine}
    (hf : ∀ g, (f g).work = g.work := by intros; rfl) : s.Keeps Channel.workView (s.modEngine c e f) :=
  s.modChan_keeps c fun x => Prod.ext rfl (Prod.ext rfl (Tab.view_set Engine.work x.engines e (hf _)))

theorem State.pin_work (s : State) (c : Nat) (k : EngCmd) : s.Keeps Channel.workView (s.pin c k) :=
  .ite .refl (State.Keeps.refl.fold fun u i _ => State.Keeps.trans (u.modChan_keeps c)
    (State.modChan_keeps _ c))

theorem State.releaseEntry_work (s : State) (c : Nat) (e : Nat × Paddocked) :
    s.Keeps Channel.workView (s.releaseEntry c e) := by
  refine .ite .refl (.ite (s.pin_work c _) ?_)
  refine State.Keeps.trans ?_ (.of_chans (State.logDec_chans ..))
  exact ((s.pin_work c _).trans (State.modEngine_work ..)).trans (State.modChan_keeps _ c)

theorem State.releaseEntries_work (s : State) (c : Nat) : s.Keeps Channel.workView (s.releaseEntries c) :=
  State.Keeps.refl.fold fun u e _ => u.releaseEntry_work c e

theorem State.recall_work (s : State) (c : Nat) (k : EngCmd) : s.Keeps Channel.workView (s.recall c k) :=
  State.Keeps.refl.fold fun u _ _ => .ite (u.putPage_work c _ _) .refl

theorem State.startCopies_work (s : State) (c : Nat) : s.Keeps Channel.workView (s.startCopies c) :=
  State.Keeps.refl.fold fun u _ _ => .ite (u.putPage_work c _ _) .refl

theorem State.evict_work (s : State) (c : Nat) (p : StatePage) : s.Keeps Channel.workView (s.evict c p) :=
  (s.putPage_work c _ _).trans (.of_chans (State.logDec_chans ..))

theorem State.makeFrames_work (c n : Nat) (k : EngCmd) (fuel : Nat) (s : State) :
    s.Keeps Channel.workView (State.makeFrames c n k fuel s) := by
  induction fuel generalizing s with
  | zero => exact .refl
  | succ fuel ih =>
    refine .ite .refl ?_
    split
    · exact (s.evict_work c _).trans (ih _)
    · exact .refl

theorem State.startPage_work (s : State) (c n : Nat) (acc : List Nat) (i : Nat) :
    s.Keeps Channel.workView (s.startPage c n acc i).1 := by
  have first : s.Keeps Channel.workView (if ((s.chan c).page n i).state = .away then s.modChan c fun x =>
      x.putPage ((s.chan c).page n i) { (s.chan c).page n i with state := .incoming, frame := acc.headD 0, dirty := false }
      else s) := .ite (s.putPage_work c _ _) .refl
  unfold State.startPage
  simp only [decide_eq_true_eq]
  split
  · dsimp only
    exact first.trans (State.modChan_keeps _ c)
  · exact first

theorem State.serve_work (s : State) (c : Nat) (k : EngCmd) : s.Keeps Channel.workView (s.serve c k).1 := by
  unfold State.serve
  dsimp only
  split
  · exact State.makeFrames_work ..
  · exact foldl_keeps (P := fun acc : State × List Nat => s.Keeps Channel.workView acc.1)
      (fun acc i _ h => h.trans (acc.1.startPage_work c _ acc.2 i)) (State.makeFrames_work ..)

theorem State.serveAll_work (c : Nat) (ks : List EngCmd) (s : State) : s.Keeps Channel.workView (State.serveAll c ks s) := by
  induction ks generalizing s with
  | nil => exact .refl
  | cons k ks ih =>
    have served := s.serve_work c k
    refine .ite (ih s) ?_
    split
    · next h => rw [h] at served; exact served.trans (ih _)
    · next h => rw [h] at served; exact served

/-- The state map gives out pages, and leaves the commands and the work of the engines. -/
theorem State.stateMap_work (s : State) (c : Nat) : s.Keeps Channel.workView (s.stateMap c) := by
  have recalled := (s.releaseEntries_work c).fold (f := fun s k => s.recall c k) (l := (s.releaseEntries c).wanting c)
    fun u k _ => u.recall_work c k
  unfold State.stateMap
  dsimp only
  exact ((recalled.trans (State.serveAll_work ..)).trans (State.startCopies_work ..)).trans (State.releaseEntries_work ..)

theorem State.stateMap_ends (s : State) (c : Nat) : s.Ends st (s.stateMap c) := by
  refine ⟨fun d => ?_, fun d e => (State.stateMap_moves .refl c .refl : Moves ⟨false, _, _⟩ s _).rd_eq (by simp [engPage]) _⟩
  obtain ⟨hcmds, hslots, -⟩ := Channel.workView_eq ((s.stateMap_work c).same d)
  exact .of_eq hslots hcmds

/-! ## Commands that have a status -/

/-- The commands of a number that are still there have a status for an engine command. -/
def State.Done (s : State) (c : Nat) (k : EngCmd) : Prop :=
  ∀ h ∈ (s.chan c).cmds, h.num = k.num → ∀ r ∈ h.ecs, r.idx = k.idx → r.status ≠ none

/-- What has a status keeps it. -/
theorem State.Done.ends {c : Nat} {k : EngCmd} (hd : s.Done c k) (he : s.Ends st t) : t.Done c k := by
  intro h hh hn r hr hi
  obtain ⟨g, hg, hgn, hecs⟩ := (he.chan c).cmds h hh
  obtain ⟨q, hq, hqi, rfl | ⟨hnone, -⟩⟩ := hecs r hr
  · exact hd g hg (hgn.trans hn) r hq hi
  · exact absurd hnone (hd g hg (hgn.trans hn) q hq (hqi.trans hi))

theorem State.ecDone_done (s : State) (c : Nat) {k : EngCmd} (ha : k.again = false) (st : Nat) :
    (s.ecDone c k st).Done c k := by
  intro h hh hn r hr hi
  rw [State.ecDone, if_neg (by simp [ha]), State.modCmd, State.chan_modChan, if_pos rfl] at hh
  obtain ⟨g, hg, rfl⟩ := List.mem_map.mp hh
  by_cases hgn : g.num = k.num
  · rw [if_pos hgn] at hr
    obtain ⟨q, hq, rfl⟩ := List.mem_map.mp hr
    by_cases hq : q.idx = k.idx ∧ q.status = none
    · simp [hq]
    · rw [if_neg hq] at hi ⊢
      exact fun h => hq ⟨hi, h⟩
  · rw [if_neg hgn] at hn
    exact absurd hn hgn

theorem State.ecsDone_done (s : State) (c : Nat) {k : EngCmd} (ha : k.again = false) {ks : List EngCmd} (hk : k ∈ ks)
    (st : Nat) : (s.ecsDone c ks st).Done c k :=
  foldl_holds (P := fun u : State => u.Done c k) hk (fun u => u.ecDone_done c ha st)
    (fun u q _ h => h.ends (u.ecDone_ends c q st)) s

/-- A command whose host command shows a status has ended with the status or before. -/
theorem completedWith_of_done {c : Nat} {k : EngCmd} (he : s.Ends st t) (hd : k.again = false → t.Done c k) :
    CompletedWith s t c k st := by
  intro ha h hh hn r hr hi
  refine ⟨hd ha h hh hn r hr hi, ?_⟩
  obtain ⟨g, hg, hgn, hecs⟩ := (he.chan c).cmds h hh
  obtain ⟨q, hq, -, rfl | ⟨-, hs⟩⟩ := hecs r hr
  · exact .inr ⟨g, hg, hgn.trans hn, hq⟩
  · exact .inl hs

/-! ## The reset of an engine -/

/-- The commands that wait and the scan of an engine have ended. -/
def State.endQueue (s : State) (c e : Nat) : State :=
  let g := s.engine c e
  let s1 := (g.queue ++ g.reentry.toList).foldl (fun s k => s.ecDone c k stTileLost) s
  g.scanning.elim s1 fun k => (s1.unpin c k).ecDone c k stTileLost

/-- Of a list of tiles, those that are not FREE are lost. -/
def State.loseTiles (s : State) (c e : Nat) (l : List (Nat × TileSlot)) : State :=
  l.foldl (fun s t => if t.2.state = .free then s else s.loseTile c e t.1 stTileLost (some causeTileLost)) s

/-- The engine and its page are fresh; blocks on their way from its relay cell stay. -/
def State.freshEngine (s : State) (c e : Nat) : State :=
  let sent := (s.engine c e).relay
  ((s.forgetAccesses fun a => ofEngine c e a.req).modEngine c e fun _ => { ({} : Engine) with
    relay := { credits := sent.credits, sent := sent.sent, sending := sent.sending.filter fun m => m.tile.isNone } }).resetPage
    (engPage c e) clsEngine

theorem State.resetEngine_eq (s : State) (c e : Nat) : s.resetEngine c e =
    ((((s.endQueue c e).loseTiles c e (s.engine c e).slots).ecsDone c ((s.engine c e).incoming.flatMap (·.closing))
      stTileLost).freshEngine c e).stateMap c := by
  rw [State.resetEngine, State.endQueue, State.loseTiles, State.ecsDone, State.freshEngine]

theorem State.unpin_ends (s : State) (c : Nat) (k : EngCmd) : s.Ends st (s.unpin c k) := s.modChan_ends c (.of_eq rfl rfl)

/-- The end of what waits, of the scan or the tiles of an engine ends commands with TILE_LOST. -/
theorem State.endQueue_ends_after (s : State) (c e : Nat) : ((s.engine c e).queue ++ (s.engine c e).reentry.toList).foldl
    (fun s k => s.ecDone c k stTileLost) s |>.Ends stTileLost (s.endQueue c e) := by
  unfold State.endQueue
  dsimp only
  cases (s.engine c e).scanning with
  | none => exact .refl
  | some k => exact (State.unpin_ends _ c k).trans (State.ecDone_ends _ c k _)

theorem State.loseTiles_ends (s : State) (c e : Nat) (l : List (Nat × TileSlot)) :
    s.Ends stTileLost (s.loseTiles c e l) :=
  State.Ends.refl.fold fun u _ _ => .ite .refl (u.loseTile_ends c e _ _ _)

/-- EPOCH is a field of an engine's page that no reset but power-on covers (R21). -/
theorem epoch_field (c : Ch) (e : Fin 72) : ∃ f ∈ fieldsAt (.eng c e) 0x1f0, f.lo = 8 ∧ f.w = 4 ∧ clsEngine < f.cls := by
  have same : fieldsAt (.eng c e) 0x1f0 = fieldsAt (.eng 0 0) 0x1f0 := rfl
  rw [same]
  decide +kernel

theorem State.resetPage_chans (s : State) (p : Page) (cls : Nat) : (s.resetPage p cls).chans = s.chans :=
  (State.resetPage_moves .refl p cls (by decide) (pageKind_mem p) :
    Moves ⟨false, [.cycBase, .blocks], allKinds⟩ s _).parts .chans (by decide)

theorem State.resetPage_ends (s : State) (c e : Nat) : s.Ends st (s.resetPage (engPage c e) clsEngine) := by
  refine ⟨fun d => ?_, fun d f => ?_⟩
  · rw [State.chan_congr (State.resetPage_chans ..)]
    exact .of_eq rfl rfl
  · rw [State.epoch, State.epoch, State.rd_narrow _ _ (by decide), State.rd_narrow _ _ (by decide)]
    by_cases h : engPage d f = engPage c e
    · rw [h]
      obtain ⟨g, hg, hlo, hw, hcls⟩ := epoch_field (Fin.ofNat 4 c) (Fin.ofNat 72 e)
      have kept := s.field_resetPage clsEngine (by decide) hg
      rw [if_pos hcls, hlo, hw] at kept
      exact kept
    · rw [s.word_resetPage_other _ _ h]

theorem State.freshEngine_ends (s : State) (c e : Nat) : s.Ends st (s.freshEngine c e) :=
  ((State.Ends.of_moves (State.forgetAccesses_moves .refl _ .refl : Moves ⟨false, _, _⟩ s _) (by decide) (by decide)).trans
    (State.modEngine_ends _ c e _)).trans (State.resetPage_ends _ c e)

/-- A fresh engine works on nothing. -/
theorem State.freshEngine_work (s : State) (c e : Nat) : ((s.freshEngine c e).engine c e).work = ([], [], [], none) := by
  rw [State.freshEngine, State.engine, State.chan_congr (State.resetPage_chans ..), State.modEngine, State.chan_modChan, if_pos rfl,
    Channel.engine, Tab.get_set, if_pos rfl]
  rfl

/-- The closing commands of a tile that is not FREE have ended once the tiles of its engine are lost. -/
theorem State.loseTiles_done (s : State) (c e : Nat) {l : List (Nat × TileSlot)} {x : Nat × TileSlot} (hx : x ∈ l)
    (hl : ∀ y ∈ l, y.2 = s.tile c e y.1) (hs : x.2.state ≠ .free) {k : EngCmd} (hk : k ∈ x.2.closing)
    (ha : k.again = false) : (s.loseTiles c e l).Done c k := by
  obtain ⟨l1, l2, rfl⟩ := List.append_of_mem hx
  have before : (s.loseTiles c e l1).tile c e x.1 = s.tile c e x.1 ∨ (s.loseTiles c e l1).Done c k := by
    refine foldl_keeps (P := fun u : State => u.tile c e x.1 = s.tile c e x.1 ∨ u.Done c k) (fun u y hy h => ?_) (.inl rfl)
    split
    · exact h
    · obtain h | h := h
      · by_cases hxy : x.1 = y.1
        · refine .inr (State.Done.ends (st := stTileLost) (u.ecsDone_done c ha ?_ stTileLost)
            (u.loseTile_ends_after c e y.1 stTileLost _))
          rw [← hxy, h, ← hl x hx]
          exact hk
        · exact .inl ((u.tile_loseTile_other c e hxy _ _).trans h)
      · exact .inr (h.ends (u.loseTile_ends c e _ _ _))
  have at_x : ((s.loseTiles c e l1).loseTile c e x.1 stTileLost (some causeTileLost)).Done c k := by
    obtain h | h := before
    · refine State.Done.ends (st := stTileLost) (State.ecsDone_done _ c ha ?_ stTileLost)
        (State.loseTile_ends_after _ c e _ _ _)
      rw [h, ← hl x hx]
      exact hk
    · exact h.ends (State.loseTile_ends _ c e _ _ _)
  rw [State.loseTiles, List.foldl_append, List.foldl_cons, if_neg hs]
  exact at_x.ends (State.loseTiles_ends _ c e l2)

theorem Engine.slots_tile (g : Engine) {x : Nat × TileSlot} (hx : x ∈ g.slots) : x.2 = g.tile x.1 := by
  obtain ⟨n, -, rfl⟩ := List.mem_map.mp hx
  rfl

theorem State.endQueue_tiles (s : State) (c e : Nat) : s.Keeps Channel.tileView (s.endQueue c e) := by
  have queue : s.Keeps Channel.tileView (((s.engine c e).queue ++ (s.engine c e).reentry.toList).foldl
      (fun s k => s.ecDone c k stTileLost) s) := State.Keeps.refl.fold fun u k _ => u.ecDone_tiles c k _
  unfold State.endQueue
  dsimp only
  cases (s.engine c e).scanning with
  | none => exact queue
  | some k => exact (queue.trans (State.modChan_keeps _ c)).trans (State.ecDone_tiles _ c k _)

/-- What an engine reset leaves of its engine, its slot and their commands. -/
theorem State.resetEngine_shows (s : State) (c e : Nat) : ((s.resetEngine c e).engine c e).work = ([], [], [], none) ∧
    (s.resetEngine c e).epoch c e = s.epoch c e ∧
    (∀ k ∈ (s.engine c e).queue, CompletedWith s (s.resetEngine c e) c k stTileLost) ∧
    (∀ x ∈ (s.engine c e).slots, x.2.state ≠ .free → ∀ k ∈ x.2.closing,
      CompletedWith s (s.resetEngine c e) c k stTileLost) := by
  have queue : s.Ends stTileLost (((s.engine c e).queue ++ (s.engine c e).reentry.toList).foldl
      (fun s k => s.ecDone c k stTileLost) s) := State.Ends.refl.fold fun u k _ => u.ecDone_ends c k _
  have lost := (s.endQueue c e).loseTiles_ends c e (s.engine c e).slots
  have rest : ((s.endQueue c e).loseTiles c e (s.engine c e).slots).Ends stTileLost (s.resetEngine c e) := by
    rw [s.resetEngine_eq]
    exact ((State.ecsDone_ends _ c _ _).trans (State.freshEngine_ends _ c e)).trans (State.stateMap_ends _ c)
  have all := ((queue.trans (s.endQueue_ends_after c e)).trans lost).trans rest
  refine ⟨?_, all.epoch c e, fun k hk => ?_, fun x hx hs k hk => ?_⟩
  · obtain ⟨-, -, hwork⟩ := Channel.workView_eq ((State.stateMap_work ((((s.endQueue c e).loseTiles c e
      (s.engine c e).slots).ecsDone c ((s.engine c e).incoming.flatMap (·.closing)) stTileLost).freshEngine c e) c).same c)
    rw [s.resetEngine_eq]
    exact (hwork e).trans (State.freshEngine_work _ c e)
  · refine completedWith_of_done all fun ha => ?_
    have done := s.ecsDone_done c ha (List.mem_append_left (s.engine c e).reentry.toList hk) stTileLost
    exact State.Done.ends done (((s.endQueue_ends_after c e).trans lost).trans rest)
  · refine completedWith_of_done all fun ha => State.Done.ends (State.loseTiles_done _ c e hx (fun y hy => ?_) hs hk ha) rest
    rw [Engine.slots_tile _ hy, ← State.tile, State.tile_of_keeps (s.endQueue_tiles c e)]

theorem execEngineReset_resets {m : Master} {c : Ch} {e : SlotId} (hp : s.dev.powered = true)
    (hm : m = .farrier ∨ m = .groom c) (hr : s.isReady c = true ∨ s.chState c = chEngineCheck) (ha : s.arithOn c = true) :
    exec (.engineReset m c e) s = .next (s.resetEngine c e) := by
  rw [exec]
  unfold execEngineReset
  rw [live_of_powered hp]
  rcases hm with rfl | rfl <;> simp [hr, ha]

theorem engineReset : Rules.EngineReset := by
  intro m c e s hp
  refine ⟨fun hm hr ha => ⟨_, execEngineReset_resets hp hm hr ha, ?_⟩, fun hf hg => ?_⟩
  · obtain ⟨hwork, hepoch, hqueue, htiles⟩ := s.resetEngine_shows c e
    obtain ⟨h1, h2, h3, h4⟩ : (_ = _ ∧ _ = _ ∧ _ = _ ∧ _ = _) := by simpa [Engine.work] using hwork
    exact ⟨h1, h2, h3, h4, hepoch, fun d =>
      ((State.resetEngine_moves .refl c e .refl : Moves ⟨false, _, _⟩ s _).stores d).same rfl, hqueue, htiles⟩
  · rw [exec]
    unfold execEngineReset
    rw [live_of_powered hp]
    cases m with
    | farrier => exact absurd rfl hf
    | groom k => simp [show k ≠ c from fun h => hg (h ▸ rfl)]
    | host => simp
    | peer _ => simp

/-- Settles O59: what a message finds is what stood there before it was taken, an answer to an empty FH is all that
moves there, and an engine reset ends its commands one by one with TILE_LOST. -/
theorem farrierMessages : Obligations.FarrierMessages := ⟨channelMessages, siteAndStreamMessages, engineReset⟩

end Sys2Proof.Machine
end

section
/-!
## Credits and crossings (R33, R35, R36, R201, R206, R383, R565)
-/

namespace Sys2Proof.Machine

variable {s u : State}

/-! ## Engines and rings that change -/

theorem State.engine_modEngine_same (s : State) (c e : Nat) (f : Engine → Engine) :
    (s.modEngine c e f).engine c e = f (s.engine c e) := by
  simp [State.engine, State.modEngine, Channel.engine]

theorem State.ringOf_modRing_same (s : State) (c r : Nat) (f : Ring → Ring) :
    (s.modRing c r f).ringOf c r = f (s.ringOf c r) := by
  simp [State.ringOf, State.modRing, Channel.ring]

/-! ## One credit goes back -/

theorem Credit.back_of_owed {k : Credit} (h : k.owed ≠ 0) : k.back = ⟨k.held + 1, k.owed - 1⟩ := if_neg h

theorem HopCredit.back_of_owed {k : HopCredit} (h : k.owed ≠ 0) (n : Nat) :
    k.back n = ⟨k.held + 1, k.backed + n, k.owed - 1⟩ := if_neg h

theorem descriptorsReturn (hp : s.dev.powered = true) (c : Ch) (r : RingId) (h : (s.ringOf c r).owed ≠ 0) :
    ∃ t, exec (.creditReturn (.descriptors c r)) s = .next t ∧
      (t.ringOf c r).credits = (s.ringOf c r).credits + 1 ∧ (t.ringOf c r).owed = (s.ringOf c r).owed - 1 := by
  refine ⟨_, live_of_powered hp _, ?_⟩
  rw [State.ringOf_modRing_same, if_neg h]
  exact ⟨rfl, rfl⟩

/-- A credit of an engine's queue goes back by a change of the engine. -/
theorem engineReturn (hp : s.dev.powered = true) {q : CreditQueue} {c e : Nat} {f : Engine → Engine} {view : Engine → Credit}
    (hq : execCreditReturn q s = live s (s.modEngine c e f)) (hf : ∀ g, view (f g) = (view g).back)
    (h : (view (s.engine c e)).owed ≠ 0) :
    ∃ t, exec (.creditReturn q) s = .next t ∧
      view (t.engine c e) = ⟨(view (s.engine c e)).held + 1, (view (s.engine c e)).owed - 1⟩ := by
  refine ⟨_, hq.trans (live_of_powered hp _), ?_⟩
  rw [State.engine_modEngine_same, hf, Credit.back_of_owed h]

theorem Engine.laneCredits_setLaneCredit_same (g : Engine) (l : Nat) (f : Credit → Credit) :
    (g.setLaneCredit l f).laneCredits l = f (g.laneCredits l) := by
  simp [Engine.laneCredits, Engine.setLaneCredit]

theorem chToHubReturn (hp : s.dev.powered = true) (c : Ch) (cls : Fin 4) (h : ((s.chan c).upCredit cls).owed ≠ 0) :
    ∃ t, exec (.creditReturn (.chToHub c cls)) s = .next t ∧
      ((t.chan c).upCredit cls).held = ((s.chan c).upCredit cls).held + 1 ∧
      ((t.chan c).upCredit cls).owed = ((s.chan c).upCredit cls).owed - 1 := by
  refine ⟨_, live_of_powered hp _, ?_⟩
  rw [State.chan_modChan, if_pos rfl, HopCredit.back_of_owed h, Channel.upCredit, Tab.get_set_same]
  exact ⟨rfl, rfl⟩

/-! ## A landing entry for a credit (R206) -/

theorem State.withholds_of_takeLanding {c cls i : Nat} {m : Option Moving} (h : s.takeLanding c cls m = some (i, u)) :
    s.withholds c cls = false := by
  by_contra hw
  rw [State.takeLanding, if_pos (by simpa using hw)] at h
  cases h

theorem State.takeLanding_of_withholds {c cls : Nat} (h : s.withholds c cls = true) (m : Option Moving) :
    s.takeLanding c cls m = none := if_pos h

theorem State.backCredit_withholds {c cls : Nat} (h : s.withholds c cls = true) (k : HopCredit)
    (put : HopCredit → State → State) : s.backCredit c cls k put = s := by
  rw [State.backCredit, State.takeLanding_of_withholds h]
  exact ite_self s

theorem State.backCredit_takes {c cls i : Nat} (ht : s.takeLanding c cls none = some (i, u)) {k : HopCredit}
    (h : k.owed ≠ 0) (put : HopCredit → State → State) :
    s.backCredit c cls k put = put ⟨k.held + 1, k.backed + 1, k.owed - 1⟩ u := by
  rw [State.backCredit, if_neg h, ht, ← HopCredit.back_of_owed h]

theorem hubToChWithheld (hp : s.dev.powered = true) (c : Ch) (cls : Fin 4) (h : s.withholds c cls = true) :
    exec (.creditReturn (.hubToCh c cls)) s = .next s := by
  rw [exec, execCreditReturn, live_of_powered hp, State.backCredit_withholds h]

theorem hubToChReturn (hp : s.dev.powered = true) (c : Ch) (cls : Fin 4) (i : Nat)
    (h : ((s.chan c).downCredit cls).owed ≠ 0) (ht : s.takeLanding c cls none = some (i, u)) :
    ∃ t, exec (.creditReturn (.hubToCh c cls)) s = .next t ∧
      ((t.chan c).downCredit cls).held = ((s.chan c).downCredit cls).held + 1 ∧
      ((t.chan c).downCredit cls).backed = ((s.chan c).downCredit cls).backed + 1 ∧
      (t.chan c).landing = (u.chan c).landing := by
  refine ⟨_, live_of_powered hp _, ?_⟩
  dsimp only
  rw [State.backCredit_takes ht h, State.chan_modChan, if_pos rfl, Channel.downCredit, Tab.get_set_same]
  exact ⟨rfl, rfl, rfl⟩

theorem relayReturn (hp : s.dev.powered = true) (c : Ch) (e : SlotId) (cls : Fin 4) (i : Nat)
    (low : ∀ k, k < cls.val → ((s.engine c e).relay.credit k).owed = 0 ∨ s.withholds c k = true)
    (h : ((s.engine c e).relay.credit cls).owed ≠ 0) (ht : s.takeLanding c cls none = some (i, u)) :
    ∃ t, exec (.creditReturn (.relay c e)) s = .next t ∧
      ((t.engine c e).relay.credit cls).held = ((s.engine c e).relay.credit cls).held + 1 ∧
      ((t.engine c e).relay.credit cls).backed = ((s.engine c e).relay.credit cls).backed + 1 ∧
      (t.chan c).landing = (u.chan c).landing := by
  have first : ((List.range 4).find? fun k => 0 < ((s.engine c e).relay.credit k).owed && !s.withholds c k) =
      some cls.val := by
    refine List.find?_range_eq_some.mpr ⟨?_, List.mem_range.mpr cls.isLt, fun k hk => ?_⟩
    · simp [Nat.pos_of_ne_zero h, State.withholds_of_takeLanding ht]
    · rcases low k hk with h0 | hw
      · simp [h0]
      · simp [hw]
  refine ⟨_, live_of_powered hp _, ?_⟩
  dsimp only
  rw [first]
  dsimp only
  rw [State.backCredit_takes ht h, State.engine_modEngine_same, Relay.credit, Tab.get_set_same]
  exact ⟨rfl, rfl, by rw [State.modEngine, State.chan_modChan, if_pos rfl]⟩

theorem creditReturns : Rules.CreditReturns := fun c _ hp =>
  ⟨descriptorsReturn hp c, fun _ => engineReturn hp (view := (·.credit)) rfl fun _ => rfl,
    fun _ l => engineReturn hp (view := (·.laneCredits l)) rfl fun g => g.laneCredits_setLaneCredit_same l _,
    fun _ => engineReturn hp (view := (·.drainCredit)) rfl fun _ => rfl,
    fun _ => engineReturn hp (view := (·.writeCredit)) rfl fun _ => rfl, chToHubReturn hp c,
    hubToChWithheld hp c, fun cls i _ => hubToChReturn hp c cls i, fun e cls i _ => relayReturn hp c e cls i⟩

/-! ## Crossings (R36, R383, R565) -/

theorem State.chan_logCross (s : State) (c dom queue dseq d : Nat) : (s.logCross c dom queue dseq).chan d = s.chan d :=
  State.chan_congr ((State.logCross_moves .refl c dom queue dseq .refl :
    Moves ⟨false, [.out, .msix, .recorder], [.rpl]⟩ s _).parts .chans (by decide)) d

theorem exec_queueCrossing (hp : s.dev.powered = true) {c : Ch} (hr : s.replayOn c = false) (hm : s.mayRecord c = true)
    {q : Crossing} (hq : q = .toCh c ∨ q = .fromCh c) : exec (.queueCrossing q) s = .next (s.crossing q) := by
  rw [exec]
  unfold execQueueCrossing
  rw [live_of_powered hp]
  rcases hq with rfl | rfl <;> simp [hr, hm]

theorem State.releaseHeld_keepsToCh (s : State) (c : Nat) (m : Moving) : s.Keeps Channel.toCh (s.releaseHeld c m) := by
  unfold State.releaseHeld
  split
  · split
    · exact s.modChan_keeps c
    · exact .refl
  · exact .refl

theorem State.oweIngress_keepsToCh (s : State) (c : Nat) (m : Moving) : s.Keeps Channel.toCh (s.oweIngress c m) :=
  .ite (s.modChan_keeps c) (.ite .refl (s.modChan_keeps c))

/-- The first entry of the queue into a channel has left it, and the crossing is recorded. -/
def State.poppedToCh (s : State) (c d : Nat) : State :=
  (s.modChan c fun y => { y with toCh := y.toCh.pop }).logCross c (domArith c) (Config.crossQueue true c) d

/-- The first entry of the queue out of a channel has left it, and the crossing is recorded. -/
def State.poppedFromCh (s : State) (c d : Nat) : State :=
  (s.modChan c fun y => { y with fromCh := y.fromCh.pop }).logCross c domHub (Config.crossQueue false c) d

theorem State.chan_poppedToCh (s : State) (c d : Nat) :
    (s.poppedToCh c d).chan c = { s.chan c with toCh := (s.chan c).toCh.pop } := by
  rw [State.poppedToCh, State.chan_logCross, State.chan_modChan, if_pos rfl]

theorem State.chan_poppedFromCh (s : State) (c d : Nat) :
    (s.poppedFromCh c d).chan c = { s.chan c with fromCh := (s.chan c).fromCh.pop } := by
  rw [State.poppedFromCh, State.chan_logCross, State.chan_modChan, if_pos rfl]

theorem CrossQueue.entries_pop {q : CrossQueue} {x : Crossed × Nat} {rest : List (Crossed × Nat)}
    (h : q.entries = x :: rest) : q.pop.entries = rest := by
  simp [CrossQueue.pop, h]

/-- What the crossing into a channel does, entry by entry. -/
theorem State.crossing_toCh {c : Ch} {x : Crossed} {n : Nat} {rest : List (Crossed × Nat)}
    (h : (s.chan c).toCh.entries = (x, n) :: rest) (ha : s.arithOn c = true) :
    (∀ r v, x = .tail r v → s.crossing (.toCh c) = (s.poppedToCh c n).modRing c r fun y => { y with tailSeen := v }) ∧
    (∀ m, x = .block m →
      s.crossing (.toCh c) = (s.poppedToCh c n).modChan c fun y => { y with ingress := y.ingress ++ [m] }) ∧
    (∀ m, x = .dropped m →
      s.crossing (.toCh c) = m.elim (s.poppedToCh c n) fun m => ((s.poppedToCh c n).releaseHeld c m).oweIngress c m) := by
  simp only [State.crossing, h, ha]
  exact ⟨by rintro _ _ rfl; rfl, by rintro _ rfl; rfl, by rintro _ rfl; rfl⟩

/-- What the crossing out of a channel does, entry by entry. -/
theorem State.crossing_fromCh {c : Ch} {x : Crossed} {n : Nat} {rest : List (Crossed × Nat)}
    (h : (s.chan c).fromCh.entries = (x, n) :: rest) :
    (∀ r v, x = .tail r v → s.crossing (.fromCh c) = s.poppedFromCh c n) ∧
    (∀ m, x = .block m →
      s.crossing (.fromCh c) = (s.poppedFromCh c n).modChan c fun y => { y with switch := y.switch ++ [m] }) ∧
    (∀ m, x = .dropped m →
      s.crossing (.fromCh c) = m.elim (s.poppedFromCh c n) fun m => (s.poppedFromCh c n).oweUp c m.block.hdr.cls) := by
  simp only [State.crossing, h]
  exact ⟨by rintro _ _ rfl; rfl, by rintro _ rfl; rfl, by rintro _ rfl; rfl⟩

/-- The first entry of the queue into a channel leaves it, whatever it is. -/
theorem State.toCh_crossing {c : Ch} {x : Crossed} {n : Nat} {rest : List (Crossed × Nat)}
    (h : (s.chan c).toCh.entries = (x, n) :: rest) (ha : s.arithOn c = true) :
    ((s.crossing (.toCh c)).chan c).toCh = (s.chan c).toCh.pop := by
  obtain ⟨htail, hblock, hdropped⟩ := State.crossing_toCh h ha
  have popped : ((s.poppedToCh c n).chan c).toCh = (s.chan c).toCh.pop := by rw [State.chan_poppedToCh]
  cases x with
  | tail r v => rw [htail r v rfl, State.modRing, State.chan_modChan, if_pos rfl, ← popped]
  | block m => rw [hblock m rfl, State.chan_modChan, if_pos rfl, ← popped]
  | dropped m =>
    rw [hdropped m rfl, ← popped]
    cases m with
    | none => rfl
    | some m => exact ((State.releaseHeld_keepsToCh _ c m).trans (State.oweIngress_keepsToCh _ c m)).same c

/-- The first entry of the queue out of a channel leaves it, whatever it is. -/
theorem State.fromCh_crossing {c : Ch} {x : Crossed} {n : Nat} {rest : List (Crossed × Nat)}
    (h : (s.chan c).fromCh.entries = (x, n) :: rest) :
    ((s.crossing (.fromCh c)).chan c).fromCh = (s.chan c).fromCh.pop := by
  obtain ⟨htail, hblock, hdropped⟩ := State.crossing_fromCh h
  have popped : ((s.poppedFromCh c n).chan c).fromCh = (s.chan c).fromCh.pop := by rw [State.chan_poppedFromCh]
  cases x with
  | tail r v => rw [htail r v rfl, popped]
  | block m => rw [hblock m rfl, State.chan_modChan, if_pos rfl, ← popped]
  | dropped m =>
    rw [hdropped m rfl, ← popped]
    cases m with
    | none => rfl
    | some m => rw [Option.elim_some, State.oweUp, State.chan_modChan, if_pos rfl]

theorem queueCrossings : Rules.QueueCrossings := by
  intro c s x n rest hp hr hm
  refine ⟨fun h ha => ?_, fun h => ?_⟩
  · obtain ⟨htail, hblock, -⟩ := State.crossing_toCh h ha
    have queue := State.toCh_crossing h ha
    refine ⟨_, exec_queueCrossing hp hr hm (.inl rfl), ?_, ?_, fun r v hx => ?_, fun m hx => ?_⟩
    · rw [queue, CrossQueue.entries_pop h]
    · rw [queue]; rfl
    · rw [htail r v hx, State.ringOf_modRing_same]
      exact ⟨rfl, by rw [State.modRing, State.chan_modChan, if_pos rfl, State.chan_poppedToCh]⟩
    · rw [hblock m hx, State.chan_modChan, if_pos rfl, State.chan_poppedToCh]
  · obtain ⟨-, hblock, hdropped⟩ := State.crossing_fromCh h
    refine ⟨_, exec_queueCrossing hp hr hm (.inr rfl), ?_, fun m hx => ?_, fun m hx => ?_⟩
    · rw [State.fromCh_crossing h, CrossQueue.entries_pop h]
    · rw [hblock m hx, State.chan_modChan, if_pos rfl, State.chan_poppedFromCh]
    · rw [hdropped _ hx, Option.elim_some, State.oweUp, State.chan_modChan, if_pos rfl, State.chan_poppedFromCh,
        Channel.upCredit, Tab.get_set_same]
      rfl

/-- Settles O44: a credit that the ingress returns takes its entry from the landing buffer first, and an entry that
crosses leaves its queue before its consumer sees it. -/
theorem creditsAndCrossings : Obligations.CreditsAndCrossings := ⟨creditReturns, queueCrossings⟩

end Sys2Proof.Machine
end

section
/-!
## The words of one page (R18, R569)

What an operation on an engine's page leaves of its words, offset by offset; and the pages of the two engines of a pair.
-/

namespace Sys2Proof.Machine

variable {s t u : State}

/-! ## Words beside those that change -/

/-- The offsets of the words in which a field lies. -/
def Fld.words (f : Fld) : List Nat := if f.lo + f.w ≤ 32 then [f.off] else [f.off, f.off + 4]

/-- Of the words of a page only those at some offsets may have changed. -/
def State.Beside (p : Page) (os : List Nat) (s t : State) : Prop := ∀ o, o < 4096 → o ∉ os → t.word p o = s.word p o

section
variable {p q : Page} {os : List Nat} {f : Fld}

theorem State.Beside.of_sameWords {ps : List Page} (h : s.sameWords t ps) (hp : p ∉ ps) : s.Beside p os t :=
  fun o _ _ => h p hp o

theorem State.Beside.refl : s.Beside p os s := fun _ _ _ => rfl

theorem State.Beside.trans (h1 : s.Beside p os t) (h2 : t.Beside p os u) : s.Beside p os u :=
  fun o ho hn => (h2 o ho hn).trans (h1 o ho hn)

theorem State.Beside.mono {os' : List Nat} (h : s.Beside p os t) (hs : os ⊆ os') : s.Beside p os' t :=
  fun o ho hn => h o ho fun hm => hn (hs hm)

theorem State.Beside.fold {α : Type} {f : State → α → State} {l : List α}
    (hf : ∀ u : State, ∀ x ∈ l, u.Beside p os (f u x)) (s : State) : s.Beside p os (l.foldl f s) :=
  foldl_keeps (P := fun u => s.Beside p os u) (fun u x hx hu => hu.trans (hf u x hx)) .refl

theorem State.Beside.rd (h : s.Beside p os t) (hf : ∀ o ∈ f.words, o < 4096 ∧ o ∉ os) : t.rd p f = s.rd p f := by
  have word : ∀ o ∈ f.words, t.word p o = s.word p o := fun o ho => h o (hf o ho).1 (hf o ho).2
  unfold Fld.words at word
  unfold State.rd
  split at word
  · simp [*]
  · simp [*]

theorem State.Beside.wr (s : State) (q : Page) (v : Nat) (ho : ∀ o ∈ f.words, o < 4096)
    (h : q ≠ p ∨ f.words ⊆ os) : s.Beside p os (s.wr q f v) := by
  rcases h with hq | hw
  · exact .of_sameWords (State.sameWords.refl.wr (List.mem_singleton_self q)) (by simpa using Ne.symm hq)
  · intro o hlt hn
    unfold Fld.words at ho hw
    unfold State.wr
    split at ho
    · rename_i hnarrow
      rw [if_pos hnarrow] at hw ⊢
      exact State.word_setWord_other s _ (ho _ (by simp)) hlt (.inr fun e => hn (hw (by simp [e])))
    · rename_i hwide
      rw [if_neg hwide] at hw ⊢
      dsimp only
      rw [State.word_setWord_other _ _ (ho _ (by simp)) hlt (.inr fun e => hn (hw (by simp [e]))),
        State.word_setWord_other s _ (ho _ (by simp)) hlt (.inr fun e => hn (hw (by simp [e])))]

theorem State.Beside.raise (s : State) (q : Page) (n : Nat) (h : q ≠ p ∨ 0x10 ∈ os) : s.Beside p os (s.raise q n) :=
  fun _ ho hn => State.word_raise_other s ho (h.imp Ne.symm fun hm e => hn (e ▸ hm))

theorem State.Beside.logOut (s : State) (c k v : Nat) (h : p ≠ .rpl) : s.Beside p os (s.logOut c k v) :=
  .of_sameWords (State.sameWords.refl.logOut (List.mem_singleton_self _)) (by simpa using h)

/-- One field of several engines that is written changes a page in the field's own words only. -/
theorem State.Beside.engines {c : Nat} {f : Fld} (ho : ∀ o ∈ f.words, o < 4096) (hw : f.words ⊆ os) (es : List Nat)
    (v : State → Nat → Nat) (s : State) : s.Beside p os (es.foldl (fun s e => s.wr (engPage c e) f (v s e)) s) :=
  .fold (fun _ _ _ => .wr _ _ _ ho (.inr hw)) s

end

/-- A field of a pair of words that is written reads back in its width. -/
theorem State.rd_wr_same_pair (s : State) (p : Page) {f : Fld} (v : Nat) (h : 32 < f.lo + f.w) (h64 : f.lo + f.w ≤ 64)
    (ho : f.off + 4 < 4096) : (s.wr p f v).rd p f = v % 2 ^ f.w := by
  unfold State.rd State.wr
  rw [if_neg (by omega), if_neg (by omega)]
  dsimp only
  rw [State.word_setWord_same, State.word_setWord_other _ _ ho (by omega) (.inr (by omega)), State.word_setWord_same]
  generalize hx : setBits _ f.lo f.w v = x
  have whole : bitsOf x 0 32 % 2 ^ 32 + bitsOf x 32 32 % 2 ^ 32 * 2 ^ 32 = x % 2 ^ 64 := by
    unfold bitsOf
    omega
  rw [whole, bitsOf_mod _ h64, ← hx, bitsOf_setBits_same]

/-! ## The pages of the engines of a pair (R569) -/

theorem engPage_val (c : Ch) (e : SlotId) : engPage c e = .eng c e := by simp [engPage]

/-- The secondary of an engine is another engine. -/
theorem State.mate_page_ne {c : Nat} {e : SlotId} {m : Nat} (h : s.mate c e = some m) :
    engPage c m ≠ engPage c e := by
  have other : m ≠ e ∧ m < 72 := by
    have := e.isLt
    unfold State.mate secondaryOf at h
    split_ifs at h <;> simp only [Option.some.injEq] at h <;> omega
  intro he
  have hv := congrArg Fin.val (Page.eng.inj he).2
  simp only [Fin.val_ofNat] at hv
  have := e.isLt
  omega

/-- The engines of a tile are the engine itself and others. -/
theorem State.enginesOf_eq (s : State) (c : Nat) (e : SlotId) (n : Nat) :
    ∃ ms, s.enginesOf c e n = e.val :: ms ∧ ∀ m ∈ ms, engPage c m ≠ engPage c e := by
  refine ⟨_, rfl, fun m hm => ?_⟩
  split at hm
  · exact State.mate_page_ne (Option.mem_toList.mp hm)
  · cases hm

/-- A wrapping counter of several engines counts one on the page of the first of them. -/
theorem State.rd_wrapAll_first (s : State) {c e : Nat} {ms : List Nat} (hm : ∀ m ∈ ms, engPage c m ≠ engPage c e) {f : Fld}
    (h : 32 < f.lo + f.w) (h64 : f.lo + f.w ≤ 64) (ho : f.off + 4 < 4096) :
    (s.wrapAll c (e :: ms) f).rd (engPage c e) f = (s.rd (engPage c e) f + 1) % 2 ^ f.w := by
  have own : (s.wrap (engPage c e) f).rd (engPage c e) f = (s.rd (engPage c e) f + 1) % 2 ^ f.w := by
    rw [State.wrap, State.rd_wr_same_pair _ _ _ h h64 ho, Nat.mod_mod]
  rw [← own, State.wrapAll, List.foldl_cons]
  exact foldl_keeps (P := fun u : State => u.rd (engPage c e) f = (s.wrap (engPage c e) f).rd (engPage c e) f)
    (fun u m hm' hu => (State.rd_wrap_page _ (hm m hm').symm).trans hu) rfl

end Sys2Proof.Machine
end

section
/-!
## A lane's own cycle (R82, R86, R102, R573)

The lane that owns its engine's cycle issues a beat or waits. What comes after it in the same cycle (the idle slot of the
secondary, the weight registers, the end of runs) leaves the engine's runs and tiles.
-/

namespace Sys2Proof.Machine

variable {s t u : State}

/-! ## Runs, lanes and tiles that change -/

theorem State.tile_modTile_same (s : State) (c e n : Nat) (f : TileSlot → TileSlot) :
    (s.modTile c e n f).tile c e n = f (s.tile c e n) := by
  rw [State.modTile, State.tile, State.engine_modEngine_same, Engine.tile, Engine.setTile, Tab.get_set_same]
  rfl

theorem State.runs_modTile (s : State) (c e n : Nat) (f : TileSlot → TileSlot) :
    ((s.modTile c e n f).engine c e).runs = (s.engine c e).runs := by
  rw [State.modTile, State.engine_modEngine_same, Engine.setTile]

theorem State.tiles_modLane (s : State) (c e uid l : Nat) (f : LaneProg → LaneProg) :
    ((s.modLane c e uid l f).engine c e).tiles = (s.engine c e).tiles := by
  rw [State.modLane, State.modRun, State.engine_modEngine_same]

/-- A run with one lane's progress changed. -/
def EngRun.withLane (r : EngRun) (l : Nat) (f : LaneProg → LaneProg) : EngRun :=
  { r with lanes := Tab.set r.lanes l (f (r.lane l)) }

theorem EngRun.lane_withLane (r : EngRun) (l : Nat) (f : LaneProg → LaneProg) : (r.withLane l f).lane l = f (r.lane l) :=
  Tab.get_set_same ..

/-- The runs of an engine, those of a command with one lane's progress changed. -/
theorem State.runs_modLane (s : State) (c e uid l : Nat) (f : LaneProg → LaneProg) :
    ((s.modLane c e uid l f).engine c e).runs =
      (s.engine c e).runs.map fun r => if r.cmd.uid = uid then r.withLane l f else r := by
  rw [State.modLane, State.modRun, State.engine_modEngine_same]
  rfl

theorem State.run?_congr {c e : Nat} (h : (t.engine c e).runs = (s.engine c e).runs) (uid : Nat) :
    t.run? c e uid = s.run? c e uid := by
  rw [State.run?, h, State.run?]

theorem State.run?_single {c e : Nat} {r : EngRun} (h : (s.engine c e).runs = [r]) : s.run? c e r.cmd.uid = some r := by
  simp [State.run?, h]

/-- The run of a command after one lane's progress has changed. -/
theorem State.run?_modLane {c e uid : Nat} {r : EngRun} (h : s.run? c e uid = some r) (l : Nat)
    (f : LaneProg → LaneProg) : (s.modLane c e uid l f).run? c e uid = some (r.withLane l f) := by
  have hu : r.cmd.uid = uid := by simpa using List.find?_some h
  have same : ((fun q : EngRun => decide (q.cmd.uid = uid)) ∘ fun q => if q.cmd.uid = uid then q.withLane l f else q) =
      fun q : EngRun => decide (q.cmd.uid = uid) := by
    funext q
    simp only [Function.comp_apply]
    split <;> rfl
  rw [State.run?, State.runs_modLane, List.find?_map, same, ← State.run?, h, Option.map_some, if_pos hu]

/-! ## What follows a lane's own cycle -/

/-- An engine whose registers and headers have followed its commands. -/
def Engine.swept (g : Engine) : Engine :=
  { g.follow with headers := g.follow.headers.filter fun h => g.follow.needs h.1 h.2.1 }

theorem State.sweep_cases (s : State) (c e : Nat) :
    s.sweep c e = (s.modEngine c e Engine.swept).wrAll c (s.pairOf c e) Reg.engWregStat_WSEL (bit (s.workingA c e)) ∨
      s.sweep c e = s.modEngine c e Engine.swept := by
  unfold State.sweep
  exact ite_eq_or_eq ..

theorem State.engine_sweep (s : State) (c e : Nat) : (s.sweep c e).engine c e = (s.engine c e).swept := by
  rw [← s.engine_modEngine_same c e Engine.swept]
  rcases s.sweep_cases c e with h | h <;> rw [h]
  rw [State.engine, State.chan_congr ((State.wrAll_moves .refl c _ _ _ .refl : Moves ⟨false, [], [.eng]⟩ _ _).parts .chans
    (by decide))]
  rfl

theorem State.sweep_beside (s : State) (c e : Nat) (p : Page) : s.Beside p Reg.engWregStat_WSEL.words (s.sweep c e) := by
  have first : s.Beside p Reg.engWregStat_WSEL.words (s.modEngine c e Engine.swept) :=
    .of_sameWords (ps := []) (State.sameWords.refl.of_regs rfl) List.not_mem_nil
  rcases s.sweep_cases c e with h | h <;> rw [h]
  · exact first.trans (.engines (f := Reg.engWregStat_WSEL) (by decide) (List.Subset.refl _) _ _ _)
  · exact first

/-- While every run has a lane at work, none ends. -/
theorem State.endRuns_of_working {c e : Nat}
    (h : ∀ r ∈ (s.engine c e).runs, ∃ l < 8, (r.lane l).done = false) : s.endRuns c e = s := by
  have none : ((s.engine c e).runs.find? fun r => (List.range 8).all fun l => (Tab.get {} r.lanes l).done) = none := by
    rw [List.find?_eq_none]
    intro r hr hall
    obtain ⟨l, hl, hd⟩ := h r hr
    have := List.all_eq_true.mp hall l (List.mem_range.mpr hl)
    rw [← EngRun.lane, hd] at this
    cases this
  unfold State.endRuns
  dsimp only
  rw [none]

/-- What is left of a cycle after its lane has used it: the runs and tiles of the engine stay, and of its page's words
all but the one that names the working register. -/
structure State.Closes (c : Ch) (e : SlotId) (s t : State) : Prop where
  runs : (t.engine c e).runs = (s.engine c e).runs
  tiles : (t.engine c e).tiles = (s.engine c e).tiles
  words : s.Beside (.eng c e) Reg.engWregStat_WSEL.words t

/-- The registers follow, and no run ends, where every run has a lane at work. -/
theorem State.Closes.settle {c : Ch} {e : SlotId} (hc : t.chans = s.chans) (hw : s.Beside (.eng c e) [] t)
    (h : ∀ r ∈ (s.engine c e).runs, ∃ l < 8, (r.lane l).done = false) :
    s.Closes c e (((t.sweep c e).endRuns c e).endRuns c e) := by
  have engine : t.engine c e = s.engine c e := by rw [State.engine, State.chan_congr hc]; rfl
  have swept := t.engine_sweep c e
  rw [engine] at swept
  have settled : (t.sweep c e).endRuns c e = t.sweep c e := State.endRuns_of_working (by rw [swept]; exact h)
  rw [settled, settled]
  exact ⟨by rw [swept]; rfl, by rw [swept]; rfl, (hw.mono (List.nil_subset _)).trans (t.sweep_beside c e _)⟩

theorem State.idleSlot_chans (s : State) (p : Page) (l : Nat) (busy : Bool) : (s.idleSlot p l busy).chans = s.chans := by
  unfold State.idleSlot
  split
  · rfl
  · split <;> exact State.bump_chans ..

theorem State.idleSlot_sameWords (s : State) (p : Page) (l : Nat) (busy : Bool) :
    s.sameWords (s.idleSlot p l busy) [p] := by
  unfold State.idleSlot
  split
  · exact .refl
  · split <;> exact State.sameWords.refl.bump (List.mem_singleton_self p)

/-- The idle slot of a secondary, where there is one, is no affair of its primary. -/
theorem State.Closes.afterMate {c : Ch} {e : SlotId} {mate : Option Nat} (hm : ∀ m, mate = some m → engPage c m ≠ engPage c e)
    (hc : t.chans = s.chans) (hw : s.Beside (.eng c e) [] t) (skip : Bool) (l : Nat) (busy : Bool)
    (h : ∀ r ∈ (s.engine c e).runs, ∃ l < 8, (r.lane l).done = false) :
    s.Closes c e ((((match mate with
      | some m => if skip then t else t.idleSlot (engPage c m) l busy
      | none => t).sweep c e).endRuns c e).endRuns c e) := by
  cases mate with
  | none => exact .settle hc hw h
  | some m =>
    dsimp only
    split
    · exact .settle hc hw h
    · have page : Page.eng c e ∉ [engPage c m] := by
        rw [← engPage_val]
        simpa using (hm m rfl).symm
      exact .settle ((t.idleSlot_chans ..).trans hc) (hw.trans (.of_sameWords (t.idleSlot_sameWords _ l busy) page)) h

theorem State.active_chans (s : State) (ctx : Nat) : (s.active ctx).chans = s.chans :=
  (State.active_moves .refl ctx .refl : Moves ⟨false, [], [.ctx]⟩ s _).parts .chans (by decide)

theorem State.active_sameWords (s : State) (ctx : Nat) : s.sameWords (s.active ctx) [.ctx] := by
  unfold State.active
  cases s.slotOfCtx ctx with
  | none => exact .refl
  | some i =>
    dsimp only [Option.elim_some]
    split
    · exact State.sameWords.refl.wr (List.mem_singleton_self _)
    · exact .refl

/-! ## A lane's own cycle -/

section
variable {c : Ch} {e : SlotId} {r : EngRun} {l : Nat} {ev : BeatEvent}

theorem lane_lt_of_laneAt (h : LaneAt s c e r l) : l < 8 := by
  obtain ⟨-, -, -, -, -, -, -, -, -, -, rfl, -⟩ := h
  omega

theorem runs_of_laneAt (h : LaneAt s c e r l) : (s.engine c e).runs = [r] := by
  obtain ⟨-, -, -, -, -, hruns, -⟩ := h
  exact hruns

theorem done_of_laneAt (h : LaneAt s c e r l) : (r.lane l).done = false := by
  obtain ⟨-, -, -, -, -, -, -, -, -, -, -, hdone⟩ := h
  exact hdone

/-- The engine's cycle is taken. -/
def State.takeCycle (s : State) (c e : Nat) : State :=
  s.modEngine c e fun g => { g with lastIssue := some (s.cyc (domArith c)) }

theorem execBeatIssue_laneAt (h : LaneAt s c e r l) : exec (.beatIssue c e ev) s = .next (s.beatIssue c e ev) := by
  obtain ⟨hp, hm, -⟩ := h
  rw [exec]
  unfold execBeatIssue
  rw [live_of_powered hp, if_pos hm]

/-- Nothing keeps the lane from its cycle. -/
theorem ready_of_laneAt (h : LaneAt s c e r l) : (!s.arithOn c || s.blk (engPage c e) < blkOn || s.isSecondary c e ||
    (s.engine c e).lastIssue = some (s.cyc (domArith c))) = false := by
  obtain ⟨-, -, hrun, hsec, hnow, -⟩ := h
  simp only [State.engRuns, Bool.and_eq_true, decide_eq_true_eq] at hrun
  obtain ⟨⟨harith, -⟩, hblk⟩ := hrun
  simp [harith, hsec, hnow, Nat.not_lt.mpr (show blkOn ≤ _ from hblk)]

theorem dutyOpen_of_laneAt (h : LaneAt s c e r l) (hd : s.pageCyc (.eng c e) / 8 % 16 < s.duty c) :
    (s.engRuns c e && s.pageCyc (engPage c e) / 8 % 16 < s.duty c) = true := by
  obtain ⟨-, -, hrun, -⟩ := h
  simp [engPage_val, hrun, hd]

/-- A lane that has issued a beat leaves the rest of the cycle to others. -/
theorem State.beatIssue_issued (h : LaneAt s c e r l) (hd : s.pageCyc (.eng c e) / 8 % 16 < s.duty c)
    (ho : State.ownCycle c e l ev [r] (s.takeCycle c e) = (u, some (r, .issued)))
    (hu : ∀ r ∈ (u.engine c e).runs, ∃ l < 8, (r.lane l).done = false) : u.Closes c e (s.beatIssue c e ev) := by
  have ready := ready_of_laneAt h
  have duty := dutyOpen_of_laneAt h hd
  obtain ⟨-, -, -, -, -, -, hlanes, -, -, -, rfl, -⟩ := h
  rw [← engPage_val] at ho
  unfold State.takeCycle at ho
  unfold State.beatIssue
  dsimp only
  rw [if_neg (by simp [ready]), if_pos duty, hlanes, ho]
  refine .afterMate (fun m => State.mate_page_ne) ?_ ?_ _ _ _ hu
  · exact foldl_keeps (P := fun v : State => v.chans = u.chans) (fun v x _ hv => (v.active_chans x).trans hv) rfl
  · exact .fold (fun v x _ => .of_sameWords (v.active_sameWords x) (by simp)) u

/-- The idle slot of an engine whose lane has beats left counts a wait (R102). -/
theorem State.idleSlot_busy {p : Page} (hb : s.blk p = blkOn) (l : Nat) :
    s.idleSlot p l true = s.bump p (Reg.engLaneWait_COUNT l) := by
  rw [State.idleSlot, if_neg (not_not_intro hb), if_pos rfl]

/-- A lane that has not issued a beat counts a wait, whether its slot was closed or its command had to wait. -/
theorem State.beatIssue_waits (h : LaneAt s c e r l) (hb : s.blk (.eng c e) = blkOn)
    (ho : s.pageCyc (.eng c e) / 8 % 16 < s.duty c →
      State.ownCycle c e l ev [r] (s.takeCycle c e) = (s.takeCycle c e, some (r, .wait))) :
    ((s.takeCycle c e).bump (.eng c e) (Reg.engLaneWait_COUNT l)).Closes c e (s.beatIssue c e ev) := by
  have ready := ready_of_laneAt h
  have lane := lane_lt_of_laneAt h
  obtain ⟨-, -, hrun, -, -, hruns, hlanes, hprod, -, -, hl, hdone⟩ := h
  have own : ∃ took : Option (EngRun × LaneStep),
      (if s.engRuns c e && s.pageCyc (.eng c e) / 8 % 16 < s.duty c then State.ownCycle c e l ev [r] (s.takeCycle c e)
        else (s.takeCycle c e, none)) = (s.takeCycle c e, took) ∧
      (took.bind fun x => if x.2 = .issued then some x.1 else none) = none := by
    by_cases hd : s.pageCyc (.eng c e) / 8 % 16 < s.duty c
    · exact ⟨some (r, .wait), by simp [hrun, hd, ho hd], rfl⟩
    · exact ⟨none, by simp [hd], rfl⟩
  obtain ⟨took, own, idle⟩ := own
  have runs : ((s.takeCycle c e).engine c e).runs = [r] := by
    rw [State.takeCycle, State.engine_modEngine_same, hruns]
  have busy : ((s.takeCycle c e).engine c e).laneBusy l (fun _ => true) = true := by
    simp [Engine.laneBusy, runs, hprod, hdone]
  rw [← engPage_val] at hl own hb ⊢
  subst hl
  unfold State.beatIssue
  dsimp only
  rw [if_neg (by simp [ready]), hlanes, ← State.takeCycle, own]
  dsimp only
  rw [idle, busy, State.idleSlot_busy (s := s.takeCycle c e) hb]
  refine .afterMate (fun m => State.mate_page_ne) rfl .refl _ _ _ fun q hq => ?_
  rw [State.engine, State.chan_congr (State.bump_chans ..), ← State.engine, runs, List.mem_singleton] at hq
  exact ⟨_, lane, hq ▸ hdone⟩

theorem State.engine_takeCycle (s : State) (c e : Nat) :
    (s.takeCycle c e).engine c e = { s.engine c e with lastIssue := some (s.cyc (domArith c)) } :=
  s.engine_modEngine_same ..

theorem State.tile_takeCycle (s : State) (c e n : Nat) : (s.takeCycle c e).tile c e n = s.tile c e n := by
  rw [State.tile, State.engine_takeCycle]
  rfl

theorem State.run?_takeCycle (s : State) (c e uid : Nat) : (s.takeCycle c e).run? c e uid = s.run? c e uid :=
  State.run?_congr (by rw [State.engine_takeCycle]) uid

/-- The one command in progress takes the cycle where its lane has not finished. -/
theorem State.ownCycle_single (h : LaneAt s c e r l) {step : LaneStep} (hs : step ≠ .finished)
    (ha : State.advance c e r.cmd.uid l ev r.fuel (s.takeCycle c e) = (u, step)) :
    State.ownCycle c e l ev [r] (s.takeCycle c e) = (u, some (r, step)) := by
  obtain ⟨-, -, -, -, -, -, -, hprod, hctx, hpaused, -⟩ := h
  have may : (s.takeCycle c e).mayIssue c e r = true := by
    rw [State.mayIssue, State.tile_takeCycle, hpaused, show (s.takeCycle c e).ctxRuns r.cmd.ctx = s.ctxRuns r.cmd.ctx from rfl,
      hctx]
    rfl
  rw [State.ownCycle, if_pos (by rw [hprod, may]; rfl), ha]
  cases step with
  | finished => exact absurd rfl hs
  | issued => rfl
  | wait => rfl

theorem EngRun.fuel_succ (r : EngRun) : ∃ n, r.fuel = n + 1 :=
  Nat.exists_eq_succ_of_ne_zero (by unfold EngRun.fuel; omega)

/-- A lane in the midst of a K-slice: it has begun it, and no promotion is due. -/
def EngRun.inSlice (r : EngRun) (l : Nat) : Prop :=
  (r.lane l).done = false ∧ (r.lane l).due = false ∧ (r.lane l).begun = true ∧ (r.lane l).idx < r.cmd.order.length

variable {uid : Nat}

/-- A lane without its inputs waits. -/
theorem State.advance_waits (hr : s.run? c e uid = some r) (hl : r.inSlice l) (hb : (r.lane l).buf = []) :
    State.advance c e uid l ev r.fuel s = (s, .wait) := by
  obtain ⟨n, hn⟩ := r.fuel_succ
  obtain ⟨hdone, hdue, hbegun, hidx⟩ := hl
  rw [hn, State.advance]
  simp [hr, hdone, hdue, hbegun, Nat.not_le.mpr hidx, hb]

/-- A lane whose inputs and weights are there, sound and not skipped, issues its beat. -/
theorem State.advance_issues (hr : s.run? c e uid = some r) (hl : r.inSlice l) {sl : SliceIn} {w : WReg}
    (hb : (r.lane l).buf.head? = some sl) {xs : List In} (hxs : xs = sl.inputs.getD (r.lane l).pos [])
    (hskip : (s.skips c && beatSkips (hdAfmt r.cmd.descs) (r.lane l).beat xs) = false)
    (hw : (s.engine c e).regFor uid sl.idx = some w) (hsl : sl.poisoned = false) (hwp : w.poisoned = false)
    (hev : ev ≠ .poisoned) {r' : EngRun} (hr' : (s.issueBeat c e uid l r xs w ev).run? c e uid = some r')
    (hidx' : (r'.lane l).idx < r'.cmd.order.length) :
    State.advance c e uid l ev r.fuel s = (s.issueBeat c e uid l r xs w ev, .issued) := by
  obtain ⟨n, hn⟩ := r.fuel_succ
  obtain ⟨hdone, hdue, hbegun, hidx⟩ := hl
  subst hxs
  rw [hn, State.advance]
  simp only [hr, hdone, hdue, hbegun, Nat.not_le.mpr hidx, hb, hskip, hw, hsl, hwp, hev, hr', Nat.not_le.mpr hidx',
    Bool.not_true, Bool.false_eq_true, if_false, Bool.or_false, decide_false, Option.elim_some, Bool.and_false]

end

end Sys2Proof.Machine
end

section
/-!
## Beats (R40, R77, R89, R107 to R109, R111, R112)

A beat changes the runs of one position of one tile, one lane of the one command in progress, and a few words of its
engine's page.
-/

namespace Sys2Proof.Machine

variable {s t u : State} {c : Ch} {e : SlotId} {r : EngRun} {l : Nat} {ev : BeatEvent}

/-! ## The next beat of a lane -/

/-- The next beat of a lane that has not passed its last one of the K-slice. -/
def LaneProg.next (p : LaneProg) (beats : Nat) : LaneProg :=
  if p.beat + 1 < beats then { p with beat := p.beat + 1 } else { p with pos := p.pos + 1, beat := 0 }

theorem LaneProg.next_progress (p : LaneProg) (beats : Nat) :
    (p.next beats).done = p.done ∧ (p.next beats).idx = p.idx ∧
      ((p.next beats).pos, (p.next beats).beat) = if p.beat + 1 < beats then (p.pos, p.beat + 1) else (p.pos + 1, 0) := by
  unfold LaneProg.next
  split <;> exact ⟨rfl, rfl, rfl⟩

/-- The one command in progress after a beat of a lane that was not its last one of the K-slice. -/
def EngRun.stepped (r : EngRun) (l : Nat) : EngRun := r.withLane l (·.next (beatsPer (hdAfmt r.cmd.descs)))

theorem State.stepBeat_next (hr : (s.engine c e).runs = [r])
    (hn : (r.lane l).beat + 1 < beatsPer (hdAfmt r.cmd.descs) ∨
      (r.lane l).pos + 1 < (lanePositions (windowOf r.cmd.descs) r.cmd.pt l).length) :
    ((s.stepBeat c e r.cmd.uid l).engine c e).tiles = (s.engine c e).tiles ∧
      (s.stepBeat c e r.cmd.uid l).regs = s.regs ∧ ((s.stepBeat c e r.cmd.uid l).engine c e).runs = [r.stepped l] := by
  have run := State.run?_single hr
  have step : ∃ f : LaneProg → LaneProg, f (r.lane l) = (r.lane l).next (beatsPer (hdAfmt r.cmd.descs)) ∧
      s.stepBeat c e r.cmd.uid l = s.modLane c e r.cmd.uid l f := by
    by_cases hbeat : (r.lane l).beat + 1 < beatsPer (hdAfmt r.cmd.descs)
    · exact ⟨fun p => { p with beat := p.beat + 1 }, (if_pos hbeat).symm, by simp only [State.stepBeat, run, if_pos hbeat]⟩
    · exact ⟨fun p => { p with pos := p.pos + 1, beat := 0 }, (if_neg hbeat).symm,
        by simp only [State.stepBeat, run, if_neg hbeat, if_pos (hn.resolve_left hbeat)]⟩
  obtain ⟨f, hf, step⟩ := step
  rw [step]
  refine ⟨State.tiles_modLane .., rfl, ?_⟩
  rw [State.runs_modLane, hr, List.map_singleton, if_pos rfl, EngRun.withLane, hf]
  rfl

/-- The runs of a position with a beat in them. -/
def State.enterBeat (s : State) (c e n q : Nat) (runs : List Run) (fallback : Bool) : State :=
  s.modTile c e n fun y => { y with runs := Tab.set y.runs q runs, usedFallback := y.usedFallback || fallback }

/-- A beat is counted. -/
def State.countBeat (s : State) (c e : Nat) (es : List Nat) (trees : Trees) (ev : BeatEvent) : State :=
  let s1 := s.wrapAll c es Reg.engIssue_BEATS
  let s2 := if trees = .fallback then s1.wrapAll c es Reg.engFbBeats_BEATS else s1
  if ev = .corrected then s2.corrected (engPage c e) else s2

/-- The runs that a lane's beat makes of those of its position. -/
def State.beatRuns (s : State) (c e l : Nat) (r : EngRun) (sums : List ColSum) : List Run :=
  enterRuns r.cmd.rows (r.cmd.group.fsel + 2) (hdAfmt r.cmd.descs) (r.lane l).beat
    (Tab.get (List.replicate 256 (Run.start ((r.lane l).trees.getD .integer))) (s.tile c e r.slot).runs
      ((lanePositions (windowOf r.cmd.descs) r.cmd.pt l).getD (r.lane l).pos 0)) sums

/-- The upsets of a beat in the engine itself. -/
def ownUpsets : BeatEvent → List Upset
  | .upset us _ => us
  | .clean | .corrected | .poisoned => []

/-- A beat is entered, counted and checked, and the lane moves on. -/
theorem State.issueBeat_eq {uid : Nat} {xs : List In} {w : WReg} {sums : List ColSum} {fails : List Nat}
    (h : beatColumns (s.colMap (engPage c e)) r.cmd.rows w.rot ((r.lane l).trees.getD .integer) (r.cmd.group.fsel + 2)
      (hdAfmt r.cmd.descs) (hdWfmt r.cmd.descs) (r.lane l).beat xs w.codes (ownUpsets ev) = (sums, fails)) :
    ∃ fb mate, s.issueBeat c e uid l r xs w ev =
      (((s.enterBeat c e r.slot ((lanePositions (windowOf r.cmd.descs) r.cmd.pt l).getD (r.lane l).pos 0)
        (s.beatRuns c e l r sums) fb).countBeat c e (s.enginesOf c e r.slot) ((r.lane l).trees.getD .integer) ev).checkBeat
          c e r.slot ((r.lane l).trees.getD .integer = .integer) fails mate).stepBeat c e uid l := by
  unfold State.issueBeat
  dsimp only
  cases ev <;> dsimp only [ownUpsets] at h ⊢ <;> rw [h] <;> exact ⟨_, _, rfl⟩

theorem State.tile_enterBeat (s : State) (c e n q : Nat) (runs : List Run) (fb : Bool) :
    ((s.enterBeat c e n q runs fb).tile c e n).runs = Tab.set (s.tile c e n).runs q runs := by
  rw [State.enterBeat, State.tile_modTile_same]

theorem State.chans_countBeat (s : State) (c e : Nat) (es : List Nat) (trees : Trees) (ev : BeatEvent) :
    (s.countBeat c e es trees ev).chans = s.chans := by
  have wrapped (s : State) (f : Fld) : (s.wrapAll c es f).chans = s.chans :=
    (State.wrapAll_moves .refl c es f 1 .refl : Moves ⟨false, [], [.eng]⟩ s _).parts .chans (by decide)
  unfold State.countBeat
  dsimp only
  split <;> split <;> simp [wrapped]

/-- A beat is counted once on the page of its engine, and beside that only in the counts of the fallback path and of
corrected errors. -/
theorem State.countBeat_counts (s : State) {c e : Nat} {ms : List Nat} (hm : ∀ m ∈ ms, engPage c m ≠ engPage c e)
    (trees : Trees) (ev : BeatEvent) :
    (s.countBeat c e (e :: ms) trees ev).rd (engPage c e) Reg.engIssue_BEATS =
      (s.rd (engPage c e) Reg.engIssue_BEATS + 1) % 2 ^ 64 := by
  refine (State.Beside.rd (os := Reg.engFbBeats_BEATS.words ++ Reg.errCntCorr_COUNT.words) ?_ (by decide)).trans
    (State.rd_wrapAll_first s hm (f := Reg.engIssue_BEATS) (by decide) (by decide) (by decide))
  have fallback (s : State) : s.Beside (engPage c e) (Reg.engFbBeats_BEATS.words ++ Reg.errCntCorr_COUNT.words)
      (s.wrapAll c (e :: ms) Reg.engFbBeats_BEATS) :=
    .engines (f := Reg.engFbBeats_BEATS) (by decide) (List.subset_append_left ..) _ _ s
  have corrected (s : State) : s.Beside (engPage c e) (Reg.engFbBeats_BEATS.words ++ Reg.errCntCorr_COUNT.words)
      (s.corrected (engPage c e)) :=
    .wr (f := Reg.errCntCorr_COUNT) s _ _ (by decide) (.inr (List.subset_append_right ..))
  unfold State.countBeat
  dsimp only
  split <;> split
  · exact (fallback _).trans (corrected _)
  · exact corrected _
  · exact fallback _
  · exact .refl

/-! ## The check columns (R108, R109, R111, R112) -/

/-- The words of an engine's page that record a mismatch. -/
def checkWords : List Nat := Reg.engChkStat_MISMATCH.words ++ Reg.intRaw_RAW.words

/-- An engine shows a mismatch of a check column. -/
def State.ShowsMismatch (s : State) (p : Page) : Prop :=
  s.rd p Reg.engChkStat_MISMATCH = 1 ∧ (s.rd p Reg.intRaw_RAW).testBit 1 = true

theorem engPage_ne_rpl (c e : Nat) : engPage c e ≠ .rpl := Page.noConfusion

theorem State.recordMismatch_shows (s : State) (c e name : Nat) (integer : Bool) (g : Nat) :
    (s.recordMismatch c e name integer g).ShowsMismatch (engPage c e) := by
  have other := engPage_ne_rpl c e
  unfold State.ShowsMismatch State.recordMismatch
  dsimp only
  rw [State.rd_logOut_page _ other, State.rd_logOut_page _ other]
  constructor
  · rw [State.rd_raise_off _ _ (by decide) (by decide) (by decide),
      State.rd_bump_off _ _ (by decide) (by decide) (by decide) (by decide) (by decide),
      State.rd_wr_off _ _ (by decide) (by decide) (by decide) (by decide) (by decide),
      State.rd_wr_off _ _ (by decide) (by decide) (by decide) (by decide) (by decide), State.rd_wr_same _ _ _ (by decide)]
    rfl
  · rw [State.rd_raise_raw, Nat.testBit_mod_two_pow, Nat.testBit_or, Nat.testBit_two_pow_self, Bool.or_true]
    rfl

theorem State.recordMismatch_sameWords (s : State) (c e name : Nat) (integer : Bool) (g : Nat) :
    s.sameWords (s.recordMismatch c e name integer g) [engPage c e, .rpl] := by
  have page : engPage c e ∈ [engPage c e, .rpl] := List.mem_cons_self
  exact (((((State.sameWords.refl.wr page).wr page).wr page).bump page).raise page).logOut (by simp)

theorem State.recordMismatch_beside (s : State) (c e name : Nat) (integer : Bool) (g : Nat) :
    s.Beside (engPage c e) checkWords (s.recordMismatch c e name integer g) := by
  have field (s : State) (f : Fld) (v : Nat) (hf : f.words = Reg.engChkStat_MISMATCH.words) :
      s.Beside (engPage c e) checkWords (s.wr (engPage c e) f v) :=
    .wr s _ v (by rw [hf]; decide) (.inr (hf ▸ List.subset_append_left ..))
  unfold State.recordMismatch
  exact (((((field s Reg.engChkStat_MISMATCH 1 rfl).trans (field _ Reg.engChkStat_LAST_GROUP g rfl)).trans
    (field _ Reg.engChkStat_LAST_MODE (bit !integer) rfl)).trans (field _ Reg.engChkStat_MISMATCH_CNT _ rfl)).trans
    (.raise _ _ 1 (.inr (by decide)))).trans (.logOut _ c _ _ (engPage_ne_rpl c e))

theorem State.recordMismatch_chans (s : State) (c e name : Nat) (integer : Bool) (g : Nat) :
    (s.recordMismatch c e name integer g).chans = s.chans :=
  (State.recordMismatch_moves .refl c e name integer g .refl :
    Moves ⟨false, [.out, .msix, .recorder], [.rpl, .eng]⟩ s _).parts .chans (by decide)

/-- The mismatches of an engine's check columns, one by one. -/
def State.recordAll (s : State) (c e name : Nat) (integer : Bool) (gs : List Nat) : State :=
  gs.foldl (fun s g => s.recordMismatch c e name integer g) s

theorem State.recordAll_chans (s : State) (c e name : Nat) (integer : Bool) (gs : List Nat) :
    (s.recordAll c e name integer gs).chans = s.chans :=
  foldl_keeps (P := fun u : State => u.chans = s.chans) (fun u _ _ hu => (u.recordMismatch_chans ..).trans hu) rfl

theorem State.recordAll_shows (s : State) (c e name : Nat) (integer : Bool) {gs : List Nat} (h : gs ≠ []) :
    (s.recordAll c e name integer gs).ShowsMismatch (engPage c e) := by
  obtain ⟨g, hg⟩ := List.exists_mem_of_ne_nil gs h
  exact foldl_holds (P := fun u : State => u.ShowsMismatch (engPage c e)) hg (fun u => u.recordMismatch_shows ..)
    (fun u _ _ _ => u.recordMismatch_shows ..) s

theorem State.checkBeat_eq (s : State) (c e n : Nat) (integer : Bool) (own mate : List Nat) :
    ∃ f : TileSlot → TileSlot, (∀ x, (f x).runs = x.runs ∧ (own ≠ [] → (f x).mismatch = true)) ∧
      s.checkBeat c e n integer own mate = ((s.mate c e).elim (s.recordAll c e (s.tile c e n).name integer own) fun m =>
        (s.recordAll c e (s.tile c e n).name integer own).recordAll c m (s.tile c e n).name integer mate).modTile c e n f := by
  refine ⟨fun x => { x with mismatch := x.mismatch || !own.isEmpty, mateMismatch := x.mateMismatch || !mate.isEmpty },
    fun x => ⟨rfl, fun h => by simp [h]⟩, ?_⟩
  unfold State.checkBeat
  dsimp only
  cases s.mate c e <;> rfl

/-- A beat is checked: its engine's runs and its tile's stay, and a check column that fails marks the tile and shows on
the page. -/
structure State.Checks (c : Nat) (e : SlotId) (n : Nat) (fails : List Nat) (s t : State) : Prop where
  runs : (t.engine c e).runs = (s.engine c e).runs
  tile : (t.tile c e n).runs = (s.tile c e n).runs
  words : s.Beside (engPage c e) checkWords t
  marks : fails ≠ [] → (t.tile c e n).mismatch = true ∧ t.ShowsMismatch (engPage c e)

theorem State.checkBeat_checks (s : State) (c : Nat) (e : SlotId) (n : Nat) (integer : Bool) (own mate : List Nat) :
    s.Checks c e n own (s.checkBeat c e n integer own mate) := by
  obtain ⟨f, hf, eq⟩ := s.checkBeat_eq c e n integer own mate
  rw [eq]
  generalize (s.tile c e n).name = name
  have first : s.Beside (engPage c e) checkWords (s.recordAll c e name integer own) :=
    .fold (fun u g _ => u.recordMismatch_beside c e name integer g) s
  have mated : ∃ u, (s.mate c e).elim (s.recordAll c e name integer own)
        (fun m => (s.recordAll c e name integer own).recordAll c m name integer mate) = u ∧
      u.chans = s.chans ∧ (s.recordAll c e name integer own).Beside (engPage c e) [] u := by
    refine ⟨_, rfl, ?_⟩
    cases hm : s.mate c e with
    | none => exact ⟨s.recordAll_chans .., .refl⟩
    | some m =>
      refine ⟨(State.recordAll_chans ..).trans (s.recordAll_chans ..), .fold (fun u g _ => ?_) _⟩
      exact .of_sameWords (u.recordMismatch_sameWords c m name integer g)
        (by simp [(State.mate_page_ne hm).symm, engPage_ne_rpl])
  obtain ⟨u, hu, chans, words⟩ := mated
  rw [hu]
  have engine : u.engine c e = s.engine c e := by rw [State.engine, State.chan_congr chans]; rfl
  have tile : u.tile c e n = s.tile c e n := by rw [State.tile, engine]; rfl
  have after : u.Beside (engPage c e) [] (u.modTile c e n f) := .of_sameWords (ps := []) (.of_regs .refl rfl) List.not_mem_nil
  have shows : own ≠ [] → (u.modTile c e n f).ShowsMismatch (engPage c e) := fun h => by
    unfold State.ShowsMismatch
    rw [(words.trans after).rd (by decide), (words.trans after).rd (by decide)]
    exact s.recordAll_shows c e name integer h
  refine ⟨by rw [State.runs_modTile, engine], by rw [State.tile_modTile_same, (hf _).1, tile],
    first.trans ((words.trans after).mono (List.nil_subset _)), fun h => ⟨?_, shows h⟩⟩
  rw [State.tile_modTile_same]
  exact (hf _).2 h

/-- A beat of a lane has been issued for the one command in progress. -/
structure State.Issues (c : Ch) (e : SlotId) (r : EngRun) (l : Nat) (sums : List ColSum) (fails : List Nat) (s t : State) :
    Prop where
  runs : (t.engine c e).runs = [r.stepped l]
  tile : (t.tile c e r.slot).runs = Tab.set (s.tile c e r.slot).runs
    ((lanePositions (windowOf r.cmd.descs) r.cmd.pt l).getD (r.lane l).pos 0) (s.beatRuns c e l r sums)
  beats : t.rd (engPage c e) Reg.engIssue_BEATS = (s.rd (engPage c e) Reg.engIssue_BEATS + 1) % 2 ^ 64
  marks : fails ≠ [] → (t.tile c e r.slot).mismatch = true ∧ t.ShowsMismatch (engPage c e)

theorem State.issueBeat_issues {xs : List In} {w : WReg} {sums : List ColSum} {fails : List Nat}
    (hr : (s.engine c e).runs = [r])
    (hn : (r.lane l).beat + 1 < beatsPer (hdAfmt r.cmd.descs) ∨
      (r.lane l).pos + 1 < (lanePositions (windowOf r.cmd.descs) r.cmd.pt l).length)
    (h : beatColumns (s.colMap (engPage c e)) r.cmd.rows w.rot ((r.lane l).trees.getD .integer) (r.cmd.group.fsel + 2)
      (hdAfmt r.cmd.descs) (hdWfmt r.cmd.descs) (r.lane l).beat xs w.codes (ownUpsets ev) = (sums, fails)) :
    s.Issues c e r l sums fails (s.issueBeat c e r.cmd.uid l r xs w ev) := by
  obtain ⟨fb, mate, eq⟩ := State.issueBeat_eq h
  obtain ⟨ms, hes, others⟩ := s.enginesOf_eq c e r.slot
  rw [eq, hes]
  generalize hq : (lanePositions (windowOf r.cmd.descs) r.cmd.pt l).getD (r.lane l).pos 0 = q
  generalize hruns : s.beatRuns c e l r sums = runs
  have entered := s.tile_enterBeat c e r.slot q runs fb
  have enteredRuns : ((s.enterBeat c e r.slot q runs fb).engine c e).runs = [r] := (s.runs_modTile ..).trans hr
  have enteredWord : (s.enterBeat c e r.slot q runs fb).rd (engPage c e) Reg.engIssue_BEATS =
    s.rd (engPage c e) Reg.engIssue_BEATS := rfl
  generalize s.enterBeat c e r.slot q runs fb = s1 at *
  have counted := s1.countBeat_counts others ((r.lane l).trees.getD .integer) ev
  have countedEngine : (s1.countBeat c e (e :: ms) ((r.lane l).trees.getD .integer) ev).engine c e = s1.engine c e := by
    rw [State.engine, State.chan_congr (s1.chans_countBeat ..)]; rfl
  generalize s1.countBeat c e (e :: ms) ((r.lane l).trees.getD .integer) ev = s2 at *
  have checked := s2.checkBeat_checks c e r.slot ((r.lane l).trees.getD .integer = .integer) fails mate
  generalize s2.checkBeat c e r.slot ((r.lane l).trees.getD .integer = .integer) fails mate = s3 at *
  obtain ⟨tiles, regs, stepped⟩ := State.stepBeat_next (checked.runs.trans (by rw [countedEngine, enteredRuns])) hn
  have tile : (s3.stepBeat c e r.cmd.uid l).tile c e r.slot = s3.tile c e r.slot := by
    rw [State.tile, Engine.tile, tiles]; rfl
  refine ⟨stepped, ?_, ?_, fun hf => ?_⟩
  · rw [tile, checked.tile, hq, hruns, ← entered, State.tile, countedEngine]
    rfl
  · rw [State.rd_congr regs, checked.words.rd (by decide), counted, enteredWord]
  · rw [tile, State.ShowsMismatch, State.rd_congr regs, State.rd_congr regs]
    exact checked.marks hf

/-- The lane takes its own cycle with a beat, and nothing after it undoes what the beat does. -/
theorem State.beatIssue_shows (h : LaneAt s c e r l) (hd : s.pageCyc (.eng c e) / 8 % 16 < s.duty c)
    {v : State} {sums : List ColSum} {fails : List Nat} (hi : s.Issues c e r l sums fails v)
    (ho : State.ownCycle c e l ev [r] (s.takeCycle c e) = (v, some (r, .issued))) :
    s.Issues c e r l sums fails (s.beatIssue c e ev) := by
  have lane := lane_lt_of_laneAt h
  have closes := State.beatIssue_issued h hd ho fun q hq => by
    rw [hi.runs, List.mem_singleton] at hq
    subst hq
    exact ⟨l, lane, by rw [EngRun.stepped, EngRun.lane_withLane, (LaneProg.next_progress _ _).1, done_of_laneAt h]⟩
  have tile : (s.beatIssue c e ev).tile c e r.slot = v.tile c e r.slot := by
    rw [State.tile, Engine.tile, closes.tiles]
    rfl
  have words : v.Beside (engPage c e) Reg.engWregStat_WSEL.words (s.beatIssue c e ev) := engPage_val c e ▸ closes.words
  refine ⟨closes.runs.trans hi.runs, by rw [tile, hi.tile], by rw [words.rd (by decide), hi.beats], fun hf => ?_⟩
  rw [tile, State.ShowsMismatch, words.rd (by decide), words.rd (by decide)]
  exact hi.marks hf

/-- A beat that is neither skipped nor poisoned enters the runs of its position (R89, R102, R108). -/
theorem State.beatIssue_issues (h : LaneAt s c e r l) (hd : s.pageCyc (.eng c e) / 8 % 16 < s.duty c)
    (hl : r.inSlice l) {sl : SliceIn} {w : WReg} (hb : (r.lane l).buf.head? = some sl)
    (hskip : (s.skips c && beatSkips (hdAfmt r.cmd.descs) (r.lane l).beat (sl.inputs.getD (r.lane l).pos [])) = false)
    (hw : (s.engine c e).regFor r.cmd.uid sl.idx = some w) (hsl : sl.poisoned = false) (hwp : w.poisoned = false)
    (hev : ev ≠ .poisoned) {sums : List ColSum} {fails : List Nat}
    (hcols : beatColumns (s.colMap (engPage c e)) r.cmd.rows w.rot ((r.lane l).trees.getD .integer)
      (r.cmd.group.fsel + 2) (hdAfmt r.cmd.descs) (hdWfmt r.cmd.descs) (r.lane l).beat (sl.inputs.getD (r.lane l).pos [])
      w.codes (ownUpsets ev) = (sums, fails))
    (hn : (r.lane l).beat + 1 < beatsPer (hdAfmt r.cmd.descs) ∨
      (r.lane l).pos + 1 < (lanePositions (windowOf r.cmd.descs) r.cmd.pt l).length) :
    s.Issues c e r l sums fails (s.beatIssue c e ev) := by
  have engine := s.engine_takeCycle c e
  have runs : ((s.takeCycle c e).engine c e).runs = [r] := by rw [engine, runs_of_laneAt h]
  have issues := State.issueBeat_issues (s := s.takeCycle c e) runs hn hcols
  have reg : ((s.takeCycle c e).engine c e).regFor r.cmd.uid sl.idx = some w := by rw [engine]; exact hw
  have stepped : ((r.stepped l).lane l).idx < (r.stepped l).cmd.order.length := by
    obtain ⟨-, -, -, hidx⟩ := hl
    rw [EngRun.stepped, EngRun.lane_withLane, (LaneProg.next_progress _ _).2.1]
    exact hidx
  have issued := State.advance_issues (State.run?_single runs) hl hb rfl hskip reg hsl hwp hev
    (State.run?_single (r := r.stepped l) issues.runs) stepped
  refine State.beatIssue_shows h hd ?_ (State.ownCycle_single h (by decide) issued)
  obtain ⟨hruns, htile, hbeats, hmarks⟩ := issues
  rw [State.beatRuns, State.tile_takeCycle] at htile
  exact ⟨hruns, htile, hbeats, hmarks⟩

theorem beatsIssue : Rules.BeatsIssue := by
  intro c e s r l h
  have lane := lane_lt_of_laneAt h
  have hdone := done_of_laneAt h
  refine ⟨?_, ?_⟩
  · intro ev own sl w xs n q trees sums fails hd hdue hbegun hidx hbuf hxs hskip hw hsl hwp hev hown htrees hcols hn hq hnext
    have upsets : own = ownUpsets ev := by rw [hown]; cases ev <;> rfl
    subst upsets htrees hn hq hxs
    rw [← engPage_val] at hcols
    have issues := State.beatIssue_issues h hd ⟨hdone, hdue, hbegun, hidx⟩ hbuf hskip hw hsl hwp hev hcols hnext
    obtain ⟨runs, tile, beats, marks⟩ := issues
    rw [State.ShowsMismatch] at marks
    rw [engPage_val] at beats marks
    refine ⟨_, execBeatIssue_laneAt h, beats, fun d => ?_, ?_, marks⟩
    · rw [tile, Tab.get_set_same]
      rfl
    · rw [show r.cmd.uid = (r.stepped l).cmd.uid from rfl, State.run?_single runs, Option.map_some, EngRun.stepped,
        EngRun.lane_withLane, (LaneProg.next_progress _ _).2.2]
  · intro ev hb hwait
    have closes := State.beatIssue_waits (ev := ev) h hb fun hd => by
      obtain ⟨hdue, hbegun, hidx, hbuf⟩ := hwait.resolve_left (Nat.not_le.mpr hd)
      have run : (s.takeCycle c e).run? c e r.cmd.uid = some r := by rw [State.run?_takeCycle, State.run?_single (runs_of_laneAt h)]
      exact State.ownCycle_single h (by decide) (State.advance_waits run ⟨hdone, hdue, hbegun, hidx⟩ hbuf)
    have counter : ∀ o ∈ (Reg.engLaneWait_COUNT l).words, o = 0x160 + 4 * l := by simp [Fld.words, Reg.engLaneWait_COUNT]
    refine ⟨_, execBeatIssue_laneAt h, ?_, ?_, ?_⟩
    · rw [closes.words.rd fun o ho => by rw [counter o ho]; simp [Fld.words, Reg.engWregStat_WSEL]; omega]
      exact State.rd_bump_same _ _ 1 (Nat.le_refl 32)
    · rw [closes.words.rd (by decide)]
      exact State.Beside.rd (.wr (os := (Reg.engLaneWait_COUNT l).words) _ _ _
        (fun o ho => by rw [counter o ho]; omega) (.inr (List.Subset.refl _)))
        fun o ho => ⟨by revert o; decide, fun hm => by have := counter o hm; revert o; simp [Fld.words, Reg.engIssue_BEATS]; omega⟩
    · rw [State.tile, Engine.tile, closes.tiles, ← Engine.tile, State.engine, State.chan_congr (State.bump_chans ..),
        ← State.engine, ← State.tile, State.tile_takeCycle]

end Sys2Proof.Machine
end

section
/-!
## Activation reads (R33, R269)
-/

namespace Sys2Proof.Machine

variable {s : State}

/-- The reads of a K-slice change nothing of their engine but the segment headers that it holds. -/
theorem State.engine_fetchSlice (s : State) (c : Ch) (e : SlotId) (l : Fin 8) (k : EngCmd) (got : List Fetched) (sl : Nat)
    (ext : List Byte) : ∃ heads, (s.fetchSlice c e l k got sl ext).1.s.engine c e = { s.engine c e with headers := heads } := by
  unfold State.fetchSlice
  dsimp only
  rw [State.engine_modEngine_same]
  generalize hr : List.foldl _ _ _ = r
  have chans : r.s.chans = s.chans := hr ▸
    (Reading.blocks_moves (σ := ⟨false, [.out, .msix, .xlat, .recorder],
      [.hmmu, .ctx, .rpl, .grm, .cmmu, .wst, .cvu, .hbmc, .ring, .eng, .door]⟩) (s0 := s) .refl _ _ _ _ _ .refl).parts .chans
      (by decide)
  refine ⟨r.heads, ?_⟩
  rw [State.engine, State.chan_congr chans]
  rfl

/-- A fetch that may go on reads its K-slice. -/
theorem execActivationReadReturn_reads {c : Ch} {e : SlotId} {l : Fin 8} {ext : List Byte} {r : EngRun} {sl : Nat}
    (hp : s.dev.powered = true) (hf : s.toFetch c e l = some (r, sl)) (hprod : isProduct r.cmd.op = true)
    (hrun : s.engRuns c e = true) (hst : s.stalled (.addrGen c e l) = false)
    (hcr : ((s.engine c e).laneCredits l).held ≠ 0) {rd : Reading} {o : Option SliceIn}
    (hr : s.fetchSlice c e l r.cmd (r.lane l).fetched sl ext = (rd, o)) :
    exec (.activationReadReturn c e l ext) s = .next (o.elim
      (rd.s.modLane c e r.cmd.uid l fun p => { p with fetched := rd.got }) fun x =>
        (rd.s.modLane c e r.cmd.uid l fun p => { p with fetched := [], buf := p.buf ++ [x] }).modEngine c e fun g =>
          g.setLaneCredit l fun q => { q with held := q.held - 1 }) := by
  rw [exec]
  unfold execActivationReadReturn
  rw [live_of_powered hp]
  cases o <;> simp [hf, hprod, hrun, hst, hcr, hr]

theorem State.run?_setLaneCredit (s : State) (c e l uid : Nat) (f : Credit → Credit) :
    (s.modEngine c e fun g => g.setLaneCredit l f).run? c e uid = s.run? c e uid :=
  State.run?_congr (by rw [State.engine_modEngine_same, Engine.setLaneCredit]) uid

theorem State.laneCredits_modLane (s : State) (c e uid l n : Nat) (f : LaneProg → LaneProg) :
    ((s.modLane c e uid l f).engine c e).laneCredits n = (s.engine c e).laneCredits n := by
  rw [State.modLane, State.modRun, State.engine_modEngine_same]
  rfl

theorem activationReads : Rules.ActivationReads := by
  intro c e l ext s r sl hp hf hrun hprod heng hst hcr
  obtain ⟨rd, o, hr⟩ : ∃ rd o, s.fetchSlice c e l r.cmd (r.lane l).fetched sl ext = (rd, o) := ⟨_, _, rfl⟩
  obtain ⟨heads, engine⟩ := s.engine_fetchSlice c e l r.cmd (r.lane l).fetched sl ext
  rw [hr] at engine
  have run : rd.s.run? c e r.cmd.uid = some r := (State.run?_congr (by rw [engine]) _).trans hrun
  have credits : (rd.s.engine c e).laneCredits l = (s.engine c e).laneCredits l := by rw [engine]; rfl
  have reads := execActivationReadReturn_reads hp hf hprod heng hst hcr hr
  refine ⟨_, reads, fun d => (((exec_moves (.activationReadReturn c e l ext) s).get _ reads).stores d).same rfl,
    fun rd' x h => ?_, fun rd' h => ?_⟩
  · obtain ⟨rfl, rfl⟩ := Prod.mk.inj (hr.symm.trans h)
    dsimp only [Option.elim_some]
    constructor
    · rw [State.run?_setLaneCredit, State.run?_modLane run, Option.map_some, EngRun.lane_withLane]
    · rw [State.engine_modEngine_same, Engine.laneCredits_setLaneCredit_same, State.laneCredits_modLane, credits]
  · obtain ⟨rfl, rfl⟩ := Prod.mk.inj (hr.symm.trans h)
    dsimp only [Option.elim_none]
    constructor
    · rw [State.run?_modLane run, Option.map_some, EngRun.lane_withLane]
    · rw [State.laneCredits_modLane, credits]

/-- Settles O38: a beat of the one command in progress changes one position's runs and one lane, what follows it in the
cycle leaves both, and the reads of a K-slice leave the runs and credits of their engine for its arrival. -/
theorem beats : Obligations.Beats := ⟨beatsIssue, activationReads⟩

end Sys2Proof.Machine
end

section
/-!
## The copy unit (R45, R398, R400)
-/

namespace Sys2Proof.Machine

variable {s t u : State} {c : Ch} {r x : CopyRun} {ext : List Byte}

/-- The copy unit has come to a command that may go on. -/
structure State.AtCopy (s : State) (c : Ch) (r : CopyRun) : Prop where
  powered : s.dev.powered = true
  head : s.copyHead c = some r
  runs : s.mapRuns c = true
  free : s.stalled (.copy c) = false
  recording : s.mayRecord c = true

/-- What the copy unit does where a command's advance has come to an end. -/
def State.copySettle (s : State) (c : Ch) (k : EngCmd) (x : CopyRun) : CopyEnd → State
  | .poisoned => (s.copyEnd c k stTileLost).metPoison c consumerCopy 0
  | .done => if x.bad then (s.copyEnd c k stBadPack).raise (.wst c) 1 else s.copyEnd c k stOk
  | .waits => s.modChan c fun y => { y with copies := y.copies.map fun q => if q.cmd.uid = k.uid then x else q }

theorem exec_copyUnitComplete (h : s.AtCopy c r) {e : CopyEnd}
    (ho : State.copyOn c (hd r.cmd.descs 224 32 / 4096 + 2) (s.active r.cmd.ctx) r ext = (u, x, e)) :
    exec (.copyUnitComplete c ext) s = .next (u.copySettle c r.cmd x e) := by
  obtain ⟨hp, hh, hm, hs, hr⟩ := h
  rw [exec]
  unfold execCopyUnitComplete
  rw [live_of_powered hp]
  cases e <;> simp [hh, hm, hs, hr, ho, State.copySettle]

/-- A command has left the copy unit with a status. -/
structure State.CopyLeft (s t : State) (c : Nat) (k : EngCmd) (st : Nat) : Prop where
  left : ∀ q ∈ (t.chan c).copies, q.cmd.uid ≠ k.uid
  completed : CompletedWith s t c k st

theorem State.copyEnd_left (s : State) (c : Nat) (k : EngCmd) (st : Nat) : s.CopyLeft (s.copyEnd c k st) c k st := by
  refine ⟨fun q hq => ?_, completedWith_of_done ((s.modChan_ends c (.of_eq rfl rfl)).trans (State.ecDone_ends _ c k st))
    fun ha => State.ecDone_done _ c ha st⟩
  have copies : ((s.copyEnd c k st).chan c).copies = (s.chan c).copies.filter fun r => r.cmd.uid ≠ k.uid := by
    unfold State.copyEnd State.ecDone
    split <;> simp [State.modCmd]
  rw [copies] at hq
  simpa using (List.mem_filter.mp hq).2

theorem State.CopyLeft.of_chans {k : EngCmd} {st c : Nat} (h : s.CopyLeft t c k st) (hc : u.chans = t.chans) :
    s.CopyLeft u c k st := by
  obtain ⟨left, completed⟩ := h
  have chan := State.chan_congr hc c
  exact ⟨by rw [chan]; exact left, by unfold CompletedWith; rw [chan]; exact completed⟩

theorem State.copyEnd_sameStores (s : State) (c : Nat) (k : EngCmd) (st : Nat) : s.sameStores (s.copyEnd c k st) :=
  fun d => ((State.copyEnd_moves .refl c k st .refl : Moves ⟨false, [.chans], []⟩ s _).stores d).same rfl

/-- The unit's bookkeeping leaves every store as the advance has written it. -/
theorem State.copySettle_sameStores (s : State) (c : Ch) (k : EngCmd) (x : CopyRun) (e : CopyEnd) :
    s.sameStores (s.copySettle c k x e) := by
  intro d
  cases e with
  | poisoned =>
    rw [State.copySettle, State.metPoison, State.chan_congr (State.logOut_chans ..)]
    exact s.copyEnd_sameStores c k _ d
  | done =>
    rw [State.copySettle]
    split
    · rw [State.chan_congr (State.raise_chans ..)]
      exact s.copyEnd_sameStores c k _ d
    · exact s.copyEnd_sameStores c k _ d
  | waits =>
    rw [State.copySettle, State.chan_modChan]
    split
    · subst_vars; exact ⟨rfl, rfl, rfl⟩
    · exact ⟨rfl, rfl, rfl⟩

/-- A command whose last write has been accepted completes, with BAD_PACK where it met a bad T2 byte (R45). -/
theorem State.copySettle_done (s : State) (c : Ch) (k : EngCmd) (x : CopyRun) :
    s.CopyLeft (s.copySettle c k x .done) c k (if x.bad then stBadPack else stOk) ∧
      (x.bad = true → ((s.copySettle c k x .done).rd (.wst c) Reg.intRaw_RAW).testBit 1 = true) := by
  rw [State.copySettle]
  cases x.bad with
  | false => exact ⟨s.copyEnd_left c k stOk, Bool.noConfusion⟩
  | true =>
    refine ⟨(s.copyEnd_left c k stBadPack).of_chans (State.raise_chans ..), fun _ => ?_⟩
    rw [if_pos rfl, State.rd_raise_raw, Nat.testBit_mod_two_pow, Nat.testBit_or, Nat.testBit_two_pow_self]
    simp

/-- Poisoned data ends the command with TILE_LOST (R585). -/
theorem State.copySettle_poisoned (s : State) (c : Ch) (k : EngCmd) (x : CopyRun) :
    s.CopyLeft (s.copySettle c k x .poisoned) c k stTileLost :=
  (s.copyEnd_left c k stTileLost).of_chans (State.logOut_chans ..)

/-- A command that waits stays in the unit with what it has moved. -/
theorem State.copySettle_waits (s : State) (c : Ch) (k : EngCmd) (x : CopyRun) :
    ∀ q ∈ ((s.copySettle c k x .waits).chan c).copies, q.cmd.uid = k.uid → q = x := by
  intro q hq hk
  rw [State.copySettle, State.chan_modChan, if_pos rfl] at hq
  obtain ⟨p, -, rfl⟩ := List.mem_map.mp hq
  split at hk
  · next h => rw [if_pos h]
  · next h => exact absurd hk h

/-- What a LOAD_W has read of its source is written to the stall at its stall address. -/
def State.stallPut (s : State) (c : Ch) (k : EngCmd) (bs : List Byte) : State :=
  s.modChan c fun y => { y with stall := y.stall.put (hd k.descs 176 29) bs }

/-- A LOAD_W whose source lies in one page is moved by one read and one write (R398). -/
theorem State.copyOn_page (hop : r.cmd.op = opLoadW) (hmoved : r.moved = 0) (hlen : 0 < hd r.cmd.descs 224 32)
    (hpage : hd r.cmd.descs 224 32 ≤ 4096 - hd r.cmd.descs 128 48 % 4096) {o : ReadOut}
    (hread : s.readVa (copyAccess c r.cmd (hd r.cmd.descs 128 48) false) hbmWeight (hd r.cmd.descs 224 32) ext = (u, o))
    (hdone : o.done = true) (hpoison : o.poisoned = false) (hbytes : o.bytes.length = hd r.cmd.descs 224 32) (n : Nat) :
    ∃ x, State.copyOn c (n + 2) s r ext = (u.stallPut c r.cmd o.bytes, x, .done) := by
  have written : u.copyWrite c r o.bytes = (u.stallPut c r.cmd o.bytes, hd r.cmd.descs 224 32, true) := by
    rw [State.copyWrite, if_pos hop, hmoved, hbytes]
    rfl
  simp [State.copyOn, hop, hmoved, Nat.not_le.mpr hlen, Nat.min_eq_left hpage, hread, hdone, hpoison, written]

/-- Settles O33: a command's end in the copy unit is its record and its departure, and a LOAD_W of one page is one read of
the source and one write of the stall. -/
theorem copyUnit : Obligations.CopyUnit := by
  intro c ext s r hp hh hm hs hr
  have at' : s.AtCopy c r := ⟨hp, hh, hm, hs, hr⟩
  refine ⟨fun u x e ho => ?_, fun u o hop hmoved hlen hpage hread hdone hpoison hbytes => ?_⟩
  · refine ⟨_, exec_copyUnitComplete at' ho, u.copySettle_sameStores c r.cmd x e, ?_, ?_, ?_⟩
    · rintro rfl
      obtain ⟨⟨left, completed⟩, raised⟩ := u.copySettle_done c r.cmd x
      exact ⟨left, completed, raised⟩
    · rintro rfl
      obtain ⟨left, completed⟩ := u.copySettle_poisoned c r.cmd x
      exact ⟨left, completed⟩
    · rintro rfl
      exact u.copySettle_waits c r.cmd x
  · obtain ⟨x, ho⟩ := State.copyOn_page hop hmoved hlen hpage hread hdone hpoison hbytes (hd r.cmd.descs 224 32 / 4096)
    obtain ⟨hstall, hast, hhbm⟩ := (u.stallPut c r.cmd o.bytes).copySettle_sameStores c r.cmd x .done c
    rw [State.stallPut, State.chan_modChan, if_pos rfl] at hstall hast hhbm
    exact ⟨_, exec_copyUnitComplete at' ho, hstall, hhbm, hast⟩

end Sys2Proof.Machine
end

section
/-!
## What the state map leaves of a channel (R308, R329 to R338)
-/

namespace Sys2Proof.Machine

variable {s t : State} {β γ : Type}

/-- What a view keeps, every view that goes through it keeps. -/
theorem State.Keeps.map {view : Channel → β} (h : s.Keeps view t) (f : β → γ) : s.Keeps (fun x => f (view x)) t :=
  ⟨fun c => congrArg f (h.same c)⟩

/-- An engine beside its re-entry position. -/
def Engine.besideReentry (g : Engine) : Engine := { g with reentry := none }

/-- A channel beside its state pages, its paddock and the re-entry positions of its engines. -/
def Channel.besidePages (x : Channel) : Channel × (Nat → Engine) :=
  ({ x with pages := [], pageUses := 0, copyFrames := [], paddock := [], paddockOrder := [], engines := [] },
    fun e => (x.engine e).besideReentry)

theorem State.putPage_besidePages (s : State) (c : Nat) (p q : StatePage) :
    s.Keeps Channel.besidePages (s.modChan c fun x => x.putPage p q) := s.modChan_keeps c

theorem State.pin_besidePages (s : State) (c : Nat) (k : EngCmd) : s.Keeps Channel.besidePages (s.pin c k) :=
  .ite .refl (State.Keeps.refl.fold fun u _ _ => State.Keeps.trans (u.modChan_keeps c) (State.modChan_keeps _ c))

theorem State.reentry_besidePages (s : State) (c e : Nat) (k : Option EngCmd) :
    s.Keeps Channel.besidePages (s.modEngine c e fun g => { g with reentry := k }) :=
  s.modChan_keeps c fun x => Prod.ext rfl
    (Tab.view_set Engine.besideReentry x.engines e (g := { x.engine e with reentry := k }) rfl)

theorem State.releaseEntry_besidePages (s : State) (c : Nat) (e : Nat × Paddocked) :
    s.Keeps Channel.besidePages (s.releaseEntry c e) := by
  have pinned := s.pin_besidePages c e.2.cmd
  refine .ite .refl (.ite pinned (State.Keeps.trans ?_ (.of_chans (State.logDec_chans ..))))
  exact (pinned.trans (State.reentry_besidePages ..)).trans (State.modChan_keeps _ c)

theorem State.releaseEntries_besidePages (s : State) (c : Nat) : s.Keeps Channel.besidePages (s.releaseEntries c) :=
  State.Keeps.refl.fold fun u e _ => u.releaseEntry_besidePages c e

theorem State.recall_besidePages (s : State) (c : Nat) (k : EngCmd) : s.Keeps Channel.besidePages (s.recall c k) :=
  State.Keeps.refl.fold fun u _ _ => .ite (u.putPage_besidePages c _ _) .refl

theorem State.startCopies_besidePages (s : State) (c : Nat) : s.Keeps Channel.besidePages (s.startCopies c) :=
  State.Keeps.refl.fold fun u _ _ => .ite (u.putPage_besidePages c _ _) .refl

theorem State.makeFrames_besidePages (c n : Nat) (k : EngCmd) (fuel : Nat) (s : State) :
    s.Keeps Channel.besidePages (State.makeFrames c n k fuel s) := by
  induction fuel generalizing s with
  | zero => exact .refl
  | succ fuel ih =>
    refine .ite .refl ?_
    split
    · exact ((s.putPage_besidePages c _ _).trans (.of_chans (State.logDec_chans ..))).trans (ih _)
    · exact .refl

theorem State.startPage_besidePages (s : State) (c n : Nat) (acc : List Nat) (i : Nat) :
    s.Keeps Channel.besidePages (s.startPage c n acc i).1 := by
  have arrives (q : StatePage) (b : Prop) [Decidable b] : s.Keeps Channel.besidePages
      (if b then s.modChan c fun x => x.putPage ((s.chan c).page n i) q else s) := .ite (s.putPage_besidePages c _ _) .refl
  unfold State.startPage
  dsimp only
  split
  · dsimp only
    exact (arrives _ _).trans (State.modChan_keeps _ c)
  · exact arrives _ _

theorem State.serve_besidePages (s : State) (c : Nat) (k : EngCmd) : s.Keeps Channel.besidePages (s.serve c k).1 := by
  unfold State.serve
  dsimp only
  split
  · exact State.makeFrames_besidePages ..
  · exact foldl_keeps (P := fun acc : State × List Nat => s.Keeps Channel.besidePages acc.1)
      (fun acc i _ h => h.trans (acc.1.startPage_besidePages c _ acc.2 i)) (State.makeFrames_besidePages ..)

theorem State.serveAll_besidePages (c : Nat) (ks : List EngCmd) (s : State) :
    s.Keeps Channel.besidePages (State.serveAll c ks s) := by
  induction ks generalizing s with
  | nil => exact .refl
  | cons k ks ih =>
    have served := s.serve_besidePages c k
    refine .ite (ih s) ?_
    split
    · next h => rw [h] at served; exact served.trans (ih _)
    · next h => rw [h] at served; exact served

/-- The state map moves pages, and engine commands out of the paddock: nothing else of any channel. -/
theorem State.stateMap_besidePages (s : State) (c : Nat) : s.Keeps Channel.besidePages (s.stateMap c) := by
  have recalled := (s.releaseEntries_besidePages c).fold (l := (s.releaseEntries c).wanting c)
    (f := fun s k => s.recall c k) fun u k _ => u.recall_besidePages c k
  exact ((recalled.trans (State.serveAll_besidePages ..)).trans (State.startCopies_besidePages ..)).trans
    (State.releaseEntries_besidePages ..)

theorem State.releasePage_besidePages (s : State) (c n : Nat) (p : StatePage) :
    s.Keeps Channel.besidePages (s.releasePage c n p) := by
  unfold State.releasePage
  refine s.modChan_keeps c fun x => ?_
  split
  · rfl
  · split
    · split <;> rfl
    · rfl

theorem State.modStream_keeps {view : Channel → β} (s : State) (n : Nat) (f : StreamRec → StreamRec) :
    s.Keeps view (s.modStream n f) := .of_chans rfl

theorem State.tryRelease_besidePages (s : State) (n : Nat) : s.Keeps Channel.besidePages (s.tryRelease n) := by
  unfold State.tryRelease
  dsimp only
  refine .ite .refl ?_
  have released (l : List StatePage) := (State.Keeps.refl (view := Channel.besidePages) (s := s)).fold (l := l)
    (f := fun s' p => s'.releasePage (s.stream n).home n p) fun u p _ => u.releasePage_besidePages _ n p
  have first (l : List StatePage) := (released l).trans (State.modChan_keeps _ (s.stream n).home
    (f := fun x => { x with copyFrames := x.copyFrames.filter fun f => f.stream ≠ n }))
  refine .ite ?_ ?_
  · exact (first _).trans (State.stateMap_besidePages ..)
  · exact ((first _).trans (State.modStream_keeps ..)).trans (State.stateMap_besidePages ..)

theorem State.releaseClosing_besidePages (s : State) : s.Keeps Channel.besidePages s.releaseClosing :=
  (State.Keeps.refl.fold fun u _ _ => u.tryRelease_besidePages _).fold fun u _ _ => u.tryRelease_besidePages _

end Sys2Proof.Machine
end

section
/-!
## Completion (R400, R402, R404)
-/

namespace Sys2Proof.Machine

variable {s t u : State}

/-- The command leaves its channel: its completion is logged. -/
def State.dropCmd (s : State) (c : Nat) (h : HostCmd) (st : Nat) : State :=
  let matched := if s.replayOn c then s.matchCpl (hdCmdid h.descs, st, h.ring) false else s
  let past := if h.stage = .running then matched else matched.pastSplit c h
  (past.logTo c (domArith c) (.cpl (hdCmdid h.descs) st h.ring (s.ringCtx c h.ring))).modChan c fun x => { x with
    cmds := x.cmds.filter fun g => g.num ≠ h.num
    lodgers := x.lodgers.filter (· ≠ h.num)
    scanCounts := Tab.erase x.scanCounts h.num }

/-- The step of the command ends where a SIGNAL ends it. -/
def State.signalStep (s : State) (c : Nat) (h : HostCmd) : State :=
  if hdOp h.descs = opSignal then s.stepSignal c h else s

/-- The completion record of a command. -/
def HostCmd.cplRecord (h : HostCmd) (st : Nat) : CplRecord := { num := h.num, word := h.record st, irq := hdIrq h.descs }

/-- The command's record is held, or its interrupt is sent. -/
def State.report (s : State) (c : Nat) (h : HostCmd) (st : Nat) : State :=
  if st ≠ stOk || hdReport h.descs then
    (s.modRing c h.ring fun q => { q with held := q.held ++ [h.cplRecord st] }).showFull c h.ring
  else if hdIrq h.descs then s.sendRingVector c h.ring
  else s

theorem State.modRing_keeps {β : Type} {view : Channel → β}
    (hv : ∀ (x : Channel) rings, view { x with rings := rings } = view x) (s : State) (c r : Nat) (f : Ring → Ring) :
    s.Keeps view (s.modRing c r f) := s.modChan_keeps c fun x => hv x _

theorem State.modCmd_keeps {β : Type} {view : Channel → β}
    (hv : ∀ (x : Channel) cmds, view { x with cmds := cmds } = view x) (s : State) (c num : Nat) (f : HostCmd → HostCmd) :
    s.Keeps view (s.modCmd c num f) := s.modChan_keeps c fun x => hv x _

theorem State.finish_eq (s : State) (c : Nat) (h : HostCmd) (st : Nat) :
    s.finish c h st = (((s.dropCmd c h st).signalStep c h).report c h st).releaseClosing.disarmFreed := rfl

theorem State.signalStep_chans (s : State) (c : Nat) (h : HostCmd) : (s.signalStep c h).chans = s.chans := by
  unfold State.signalStep
  split
  · exact (State.stepSignal_moves .refl c h .refl : Moves ⟨false, [.out, .msix, .dlm], [.dlm]⟩ s _).parts .chans
      (by decide)
  · rfl

theorem State.showFull_chans (s : State) (c r : Nat) : (s.showFull c r).chans = s.chans :=
  (State.showFull_moves .refl c r .refl : Moves ⟨false, [.out, .msix], [.ring, .door]⟩ s _).parts .chans (by decide)

/-- What follows the completion leaves the rings and, of a channel, all but its state pages. -/
theorem State.finish_besidePages (s : State) (c : Nat) (h : HostCmd) (st : Nat) :
    (((s.dropCmd c h st).signalStep c h).report c h st).Keeps Channel.besidePages (s.finish c h st) :=
  (State.releaseClosing_besidePages _).trans (.of_chans rfl)

/-- What a view of a channel shows beside its rings and state pages stays once the command has left. -/
theorem State.finish_keeps {β : Type} {view : Channel × (Nat → Engine) → β}
    (hv : ∀ (x : Channel) rings, view { x with rings := rings }.besidePages = view x.besidePages) (s : State) (c : Nat)
    (h : HostCmd) (st : Nat) : (s.dropCmd c h st).Keeps (fun x => view x.besidePages) (s.finish c h st) := by
  have held (u : State) : u.Keeps (fun x => view x.besidePages) (u.report c h st) := by
    refine .ite ?_ (.ite (.of_chans (State.sendVector_chans ..)) .refl)
    exact (u.modRing_keeps hv c h.ring _).trans (.of_chans (State.showFull_chans ..))
  have signalled : (s.dropCmd c h st).Keeps (fun x => view x.besidePages) ((s.dropCmd c h st).signalStep c h) :=
    .of_chans (State.signalStep_chans ..)
  exact (signalled.trans (held _)).trans ((State.finish_besidePages s c h st).map view)

/-- A command that completes leaves its channel. -/
theorem State.finish_gone (s : State) (c : Nat) (h : HostCmd) (st : Nat) :
    ((s.finish c h st).chan c).cmd? h.num = none := by
  have cmds : ((s.finish c h st).chan c).cmds = ((s.dropCmd c h st).chan c).cmds :=
    (State.finish_keeps (view := (·.1.cmds)) (fun _ _ => rfl) s c h st).same c
  unfold Channel.cmd?
  rw [cmds, State.dropCmd, State.chan_modChan, if_pos rfl, List.find?_eq_none]
  intro g hg
  simpa using (List.mem_filter.mp hg).2

/-- The status of a record, in its bits. -/
theorem HostCmd.record_status (h : HostCmd) (st : Nat) : bitsOf (h.record st) 32 8 = st % 2 ^ 8 := by
  have cmdid : hdCmdid h.descs < 2 ^ 32 := Nat.mod_lt _ (by decide)
  unfold HostCmd.record bitsOf
  dsimp only
  generalize hdOp h.descs = op, min h.bad.length 0xffff = n, h.bad.head?.elim 0 (·.tile) = tile,
    h.bad.head?.elim 0x7f (·.slot) = slot, hdCmdid h.descs = id at *
  omega

/-- A command that completes with another status than OK has its record held (R402). -/
theorem State.finish_recordHeld (s : State) (c : Nat) (h : HostCmd) {st : Nat} (hst : st ≠ stOk) :
    RecordHeld (s.finish c h st) c h st := by
  refine ⟨s.finish_gone c h st, h.cplRecord st, ?_, rfl, h.record_status st⟩
  have rings : (s.finish c h st).ringOf c h.ring = (((s.dropCmd c h st).signalStep c h).report c h st).ringOf c h.ring :=
    ((State.finish_besidePages s c h st).map (fun x => x.1.ring h.ring)).same c
  rw [rings, State.report, if_pos (by simp [hst]), State.ringOf, State.chan_congr (State.showFull_chans ..), ← State.ringOf,
    State.ringOf_modRing_same]
  simp

theorem State.rejectCmd_recordHeld (s : State) (c : Ch) (h : HostCmd) {st : Nat} (hst : st ≠ stOk) :
    RecordHeld (s.rejectCmd c h st) c h st := State.finish_recordHeld _ c h hst

theorem State.pastSplit_keeps {β : Type} {view : Channel → β}
    (hv : ∀ (x : Channel) cmds rings, view { x with cmds := cmds, rings := rings } = view x) (s : State) (c : Nat)
    (h : HostCmd) : s.Keeps view (s.pastSplit c h) :=
  (s.modCmd_keeps (fun x cmds => hv x cmds x.rings) c _ _).trans (State.modRing_keeps (fun x => hv x x.cmds) _ c _ _)

theorem State.finish_splitTurn (s : State) (c : Nat) (h : HostCmd) (st : Nat) :
    s.Keeps Channel.splitTurn (s.finish c h st) := by
  have matched : s.Keeps Channel.splitTurn
      (if s.replayOn c then s.matchCpl (hdCmdid h.descs, st, h.ring) false else s) :=
    .ite (.of_chans (State.matchCpl_chans ..)) .refl
  have past := State.Keeps.ite (c := h.stage = .running) matched
    (matched.trans (State.pastSplit_keeps (fun _ _ _ => rfl) _ c h))
  have dropped : s.Keeps Channel.splitTurn (s.dropCmd c h st) := by
    unfold State.dropCmd
    exact (past.trans (.of_chans (State.logTo_chans ..))).trans (State.modChan_keeps _ c)
  exact dropped.trans (State.finish_keeps (view := (·.1.splitTurn)) (fun _ _ => rfl) s c h st)

end Sys2Proof.Machine
end

section
/-!
## Placement and acceptance (R323, R398, R400, R407, R485)
-/

namespace Sys2Proof.Machine

variable {s t u : State}

/-! ## What a placement leaves -/

/-- The placements of the commands of a channel: of each, its number, the next engine command, and those placed. -/
def Channel.placings (x : Channel) : List (Nat × Nat × List EcRef) := x.cmds.map fun h => (h.num, h.next, h.ecs)

/-- What of a channel a diverted step and the state map leave: its placements, the units' work, the split's turn, and the
queues and credits of its engines. -/
structure SplitView where
  placings : List (Nat × Nat × List EcRef)
  copies : List CopyRun
  forks : List ForkJob
  turn : Nat
  queues : Nat → List EngCmd × Credit

def Channel.splitView (x : Channel) : SplitView :=
  ⟨x.placings, x.copies, x.forks, x.splitTurn, fun e => ((x.engine e).queue, (x.engine e).credit)⟩

theorem Channel.splitView_eq {x y : Channel} (h : y.splitView = x.splitView) : y.placings = x.placings ∧
    y.copies = x.copies ∧ y.forks = x.forks ∧ y.splitTurn = x.splitTurn ∧
    ∀ e, (y.engine e).queue = (x.engine e).queue ∧ (y.engine e).credit = (x.engine e).credit := by
  simpa only [Channel.splitView, SplitView.mk.injEq, Prod.mk.injEq, funext_iff] using h

theorem State.stateMap_splitView (s : State) (c : Nat) : s.Keeps Channel.splitView (s.stateMap c) :=
  (s.stateMap_besidePages c).map fun x =>
    SplitView.mk x.1.placings x.1.copies x.1.forks x.1.splitTurn fun e => ((x.2 e).queue, (x.2 e).credit)

/-- Commands that change elsewhere than in their placements. -/
theorem State.modCmd_splitView (s : State) (c num : Nat) {f : HostCmd → HostCmd}
    (hf : ∀ h, (f h).num = h.num ∧ (f h).next = h.next ∧ (f h).ecs = h.ecs) :
    s.Keeps Channel.splitView (s.modCmd c num f) := by
  refine s.modChan_keeps c fun x => congrArg (fun p => ({ x.splitView with placings := p } : SplitView)) ?_
  refine (List.map_map ..).trans (List.map_congr_left fun h _ => ?_)
  obtain ⟨hnum, hnext, hecs⟩ := hf h
  dsimp only [Function.comp]
  split
  · rw [hnum, hnext, hecs]
  · rfl

theorem State.pastSplit_splitView (s : State) (c : Nat) (h : HostCmd) : s.Keeps Channel.splitView (s.pastSplit c h) := by
  unfold State.pastSplit
  exact (s.modCmd_splitView c h.num fun _ => by exact ⟨rfl, rfl, rfl⟩).trans (State.modChan_keeps _ c)

theorem State.divert_splitView (s : State) (c n : Nat) : s.Keeps Channel.splitView (s.divert c n) := by
  refine State.Keeps.fold (.of_chans ?_) fun u h _ => ?_
  · rw [State.logDec_chans, State.raise_chans, State.bump_chans]
    rfl
  · exact (u.pastSplit_splitView c h).trans (State.modCmd_splitView _ c _ fun _ => ⟨rfl, rfl, rfl⟩)

theorem State.modDlm_keeps {β : Type} {view : Channel → β} (s : State) (n : Nat) (f : DlmRec → DlmRec) :
    s.Keeps view (s.modDlm n f) := .of_chans rfl

theorem State.checkStep_splitView (s : State) (c n : Nat) : s.Keeps Channel.splitView (s.checkStep c n) := by
  have drawn : s.Keeps Channel.splitView s.draw := .of_chans s.draw_chans
  exact .ite (.ite (s.divert_splitView c n) .refl) (.ite .refl (.ite (.ite (drawn.trans (State.divert_splitView _ c n))
    (drawn.trans (State.modDlm_keeps ..))) (drawn.trans (State.modDlm_keeps ..))))

theorem State.stepBegin_chans (s : State) (c : Nat) (h : HostCmd) : (s.stepBegin c h).chans = s.chans :=
  (State.stepBegin_moves .refl c h .refl : Moves ⟨false, [.dlm], []⟩ s _).parts .chans (by decide)

theorem State.stepPlaced_splitView (s : State) (c : Nat) (h : HostCmd) (k : EngCmd) :
    s.Keeps Channel.splitView (s.stepPlaced c h k) := by
  unfold State.stepPlaced
  split
  · exact .refl
  · exact .ite .refl ((State.modDlm_keeps ..).trans (State.checkStep_splitView _ c _))

/-- A command with its next engine command placed on a slot. -/
def HostCmd.placed (h : HostCmd) (k : EngCmd) (slot : Nat) : HostCmd :=
  { h with next := h.next + 1
           ecs := h.ecs ++ [{ idx := k.idx, slot := slot, tile := if slot = 0x7f then 0 else k.name }] }

/-- A placement shows at the command; what the deadline monitor makes of it changes no placement. -/
theorem State.notePlaced_splitView (s : State) (c : Nat) (h : HostCmd) (k : EngCmd) (slot : Nat) :
    (s.modCmd c h.num (·.placed k slot)).Keeps Channel.splitView (s.notePlaced c h k slot) := by
  refine State.Keeps.trans ?_ (State.stepPlaced_splitView _ c h k)
  have begun : (s.modCmd c h.num (·.placed k slot)).Keeps Channel.splitView
      (((((s.modCmd c h.num (·.placed k slot)).modChan c fun x => { x with nextUid := x.nextUid + 1 }).modRing c h.ring
        fun q => { q with creditHeld := false }).active k.ctx).stepBegin c h) :=
    (((State.modChan_keeps _ c).trans (State.modChan_keeps _ c)).trans (.of_chans (State.active_chans ..))).trans
      (.of_chans (State.stepBegin_chans ..))
  exact .ite (begun.trans (State.pastSplit_splitView _ c h)) begun

theorem State.notePlaced_streams (s : State) (c : Nat) (h : HostCmd) (k : EngCmd) (slot : Nat) :
    (s.notePlaced c h k slot).streams = s.streams :=
  (State.notePlaced_moves .refl c h k slot .refl :
    Moves ⟨false, [.out, .drawn, .msix, .dlm, .recorder, .chans], [.dlm, .ctx, .rpl]⟩ s _).parts .streams (by decide)

/-! ## Acceptance -/

theorem State.chan_modCmd_same (s : State) (c num : Nat) (f : HostCmd → HostCmd) :
    ((s.modCmd c num f).chan c).cmds = (s.chan c).cmds.map fun h => if h.num = num then f h else h := by
  rw [State.modCmd, State.chan_modChan, if_pos rfl]

/-- A command of a channel that is changed by its number is there as changed. -/
theorem State.mem_modCmd {c : Nat} {h : HostCmd} (hh : h ∈ (s.chan c).cmds) (f : HostCmd → HostCmd) :
    f h ∈ ((s.modCmd c h.num f).chan c).cmds := by
  rw [State.chan_modCmd_same]
  exact List.mem_map.mpr ⟨h, hh, if_pos rfl⟩

/-- The work of the copy unit and of the state map unit is not an affair of a placement. -/
theorem State.notePlaced_units (s : State) (c : Nat) (h : HostCmd) (k : EngCmd) (slot : Nat) :
    ((s.notePlaced c h k slot).chan c).copies = (s.chan c).copies ∧
      ((s.notePlaced c h k slot).chan c).forks = (s.chan c).forks := by
  obtain ⟨-, copies, forks, -⟩ := Channel.splitView_eq ((s.notePlaced_splitView c h k slot).same c)
  rw [State.modCmd, State.chan_modChan, if_pos rfl] at copies forks
  exact ⟨copies, forks⟩

/-- The copy unit has taken a LOAD_W or COPY (R398). -/
theorem State.acceptCopy_copies (s : State) (c : Nat) (h : HostCmd) :
    ∃ x ∈ ((s.acceptCopy c h).chan c).copies, x.cmd.num = h.num ∧ x.moved = 0 := by
  unfold State.acceptCopy
  dsimp only
  rw [(State.notePlaced_units ..).1, State.chan_modChan, if_pos rfl]
  exact ⟨_, List.mem_append_right _ (List.mem_singleton_self _), rfl, rfl⟩

theorem State.stream_modStream (s : State) (n m : Nat) (f : StreamRec → StreamRec) :
    (s.modStream n f).stream m = if m = n then f (s.stream n) else s.stream m := by
  simp [State.stream, State.modStream]

/-- The state map unit has taken a FORK, whose children are FORKING (R323, R325). -/
theorem State.acceptFork_forks (s : State) (c : Nat) (h : HostCmd) :
    (∃ f ∈ ((s.acceptFork c h).chan c).forks, f.num = h.num ∧ f.parent = hdStream h.descs) ∧
      ∀ v ∈ h.children, ((s.acceptFork c h).stream (childStream v)).state = strmForking := by
  unfold State.acceptFork
  dsimp only
  refine ⟨?_, fun v hv => ?_⟩
  · rw [(State.notePlaced_units ..).2, State.chan_modChan, if_pos rfl]
    exact ⟨_, List.mem_append_right _ (List.mem_singleton_self _), rfl, rfl⟩
  · rw [State.stream, State.notePlaced_streams, State.modChan_streams, ← State.stream]
    refine foldl_holds (P := fun u : State => (u.stream (childStream v)).state = strmForking) hv (fun u => ?_)
      (fun u w _ hu => ?_) _
    · rw [State.stream_modStream, if_pos rfl]
    · rw [State.stream_modStream]
      split
      · rfl
      · exact hu

/-- A command that is split waits for its turns with the count of its engine commands; without any it is past the split
at once (R389). -/
theorem State.acceptSplit_cmds {c : Nat} {h : HostCmd} (hh : h ∈ (s.chan c).cmds) :
    ∃ g ∈ ((s.acceptSplit c h).chan c).cmds, g.num = h.num ∧ g.total = splitCount h.descs ∧
      g.stage = if splitCount h.descs = 0 then .running else .splitting := by
  have split' := State.mem_modCmd hh fun h' => { h' with stage := .splitting, total := splitCount h.descs }
  unfold State.acceptSplit
  dsimp only
  by_cases hn : splitCount h.descs = 0
  · rw [if_pos hn, State.pastSplit, State.modRing, State.chan_modChan, if_pos rfl]
    refine ⟨_, State.mem_modCmd (h := { h with stage := .splitting, total := splitCount h.descs }) ?_ _, rfl, rfl,
      (if_pos hn).symm⟩
    rw [State.chan_congr (State.stepBegin_chans ..)]
    exact split'
  · rw [if_neg hn]
    refine ⟨{ h with stage := .splitting, total := splitCount h.descs }, ?_, rfl, rfl, (if_neg hn).symm⟩
    split
    · rw [State.chan_modChan, if_pos rfl]
      exact split'
    · exact split'

/-- A command that has passed every check is taken by its unit. -/
theorem State.accept_taken {c : Nat} {h : HostCmd} (hh : h ∈ (s.chan c).cmds) : Taken (s.accept c h) c h := by
  unfold Taken State.accept
  dsimp only
  split
  · exact s.acceptCopy_copies c h
  · split
    · exact s.acceptFork_forks c h
    · exact State.acceptSplit_cmds hh

end Sys2Proof.Machine
end

section
/-!
## Checks and operand reads (R54, R323, R386, R387, R389, R666)
-/

namespace Sys2Proof.Machine

variable {s u : State} {c : Ch} {r : RingId} {h : HostCmd}

/-! ## The head of a ring -/

theorem Channel.mem_of_head? {x : Channel} {r : Nat} {h : HostCmd} (hh : x.head? r = some h) : h ∈ x.cmds :=
  List.mem_of_find?_eq_some hh

/-- The head of a ring that is split, unsplit so far, is checked (R387). -/
theorem State.splitCommand_queued (hh : (s.chan c).head? r = some h) (hq : h.stage = .queued) (hs : s.splits c r = true)
    (hm : s.mayRecord c = true) : s.splitCommand c r (hdOp h.descs) = s.check c h fun s =>
      if readCount h.descs = 0 then s.accept c h else s.modCmd c h.num fun h => { h with stage := .reading 0 } := by
  simp [State.splitCommand, State.splitHead, hh, hq, hs, hm]

theorem State.check_diverted (hd : s.divertedAway c h = true) (next : State → State) :
    s.check c h next = s.finish c h stOk := if_pos hd

theorem State.check_wait (hd : s.divertedAway c h = false) (hv : s.splitChecks c h = .wait) (next : State → State) :
    s.check c h next = s := by simp [State.check, hd, hv]

theorem State.check_reject {st : Nat} (hd : s.divertedAway c h = false) (hv : s.splitChecks c h = .reject st)
    (next : State → State) : s.check c h next = s.rejectCmd c h st := by simp [State.check, hd, hv]

theorem State.check_accept (hd : s.divertedAway c h = false) (hv : s.splitChecks c h = .accept) (next : State → State) :
    s.check c h next = next s := by simp [State.check, hd, hv]

theorem commandsAtTheSplit : Rules.CommandsAtTheSplit := by
  intro c r i op s h hi hp hh hop hq hs hm
  have run : exec i s = .next (s.splitCommand c r op) := by
    simp only [List.mem_cons, Prod.mk.injEq, List.not_mem_nil, or_false] at hi
    obtain ⟨rfl, rfl⟩ | ⟨rfl, rfl⟩ | ⟨rfl, rfl⟩ | ⟨rfl, rfl⟩ | ⟨rfl, rfl⟩ | ⟨rfl, rfl⟩ | ⟨rfl, rfl⟩ | ⟨rfl, rfl⟩ |
      ⟨rfl, rfl⟩ | ⟨rfl, rfl⟩ | ⟨rfl, rfl⟩ | ⟨rfl, rfl⟩ | ⟨rfl, rfl⟩ := hi <;> exact live_of_powered hp _
  subst hop
  have mem := Channel.mem_of_head? hh
  refine ⟨_, run, ?_⟩
  rw [State.splitCommand_queued hh hq hs hm]
  refine ⟨fun hd => ?_, fun hd hv => State.check_wait hd hv _, fun st hd hv hst => ?_, fun hd hv => ?_⟩
  · rw [State.check_diverted hd]
    exact s.finish_gone c h stOk
  · rw [State.check_reject hd hv]
    exact s.rejectCmd_recordHeld c h hst
  · rw [State.check_accept hd hv]
    split
    · exact State.accept_taken mem
    · exact ⟨_, State.mem_modCmd mem _, rfl⟩

/-! ## Operand reads -/

/-- A command with the group entry of its read `n`. -/
def HostCmd.withGroup (h : HostCmd) (n idx : Nat) (g : Group) : HostCmd :=
  { h with groups := Tab.set h.groups idx g, stage := .reading (n + 1) }

/-- The unit of a command does not ask for its groups or its stage. -/
theorem HostCmd.taken_withGroup {t : State} {c n idx : Nat} {h : HostCmd} {g : Group}
    (ht : Taken t c (h.withGroup n idx g)) : Taken t c h := ht

/-- A ring's head has come to one of its operand reads, and the split may go on. -/
structure State.AtRead (s : State) (c : Ch) (r : RingId) (h : HostCmd) (n : Nat) : Prop where
  powered : s.dev.powered = true
  head : (s.chan c).head? r = some h
  stage : h.stage = .reading n
  splits : s.splits c r = true
  free : s.stalled (.splitRead c r) = false
  recording : s.mayRecord c = true

/-- What the split makes of a group entry that it has read (R54). -/
def State.groupRead (s : State) (c : Ch) (h : HostCmd) (n idx : Nat) : Option Group → State
  | none => s.rejectCmd c h stBadGroup
  | some g =>
    if n + 1 = readCount h.descs then (s.modCmd c h.num fun _ => h.withGroup n idx g).accept c (h.withGroup n idx g)
    else s.modCmd c h.num fun _ => h.withGroup n idx g

/-- What the split makes of the child records that it has read (R323). -/
def State.childrenRead (s : State) (c : Ch) (h : HostCmd) (rs : List Nat) : Option Nat → State
  | some st => s.rejectCmd c h st
  | none => (s.modCmd c h.num fun _ => { h with children := rs }).accept c { h with children := rs }

theorem exec_splitReadReturn_group {n idx : Nat} {ext : List Byte} {o : ReadOut} (h' : s.AtRead c r h n)
    (hi : (namedGroups h.descs)[n]? = some idx)
    (hr : s.readVa (splitAccess c r h ((s.ctxRec (hdCtx h.descs)).gdtVa + 8 * idx)) hbmData 8 ext = (u, o))
    (hdone : o.done = true) :
    exec (.splitReadReturn c r ext) s = .next (u.groupRead c h n idx (parseGroup (leNat o.bytes))) := by
  obtain ⟨hp, hh, hst, hs, hf, hm⟩ := h'
  rw [exec]
  unfold execSplitReadReturn
  rw [live_of_powered hp]
  cases hg : parseGroup (leNat o.bytes) <;> simp [hh, hst, hs, hf, hm, hi, hr, hdone, hg, State.groupRead, HostCmd.withGroup]

theorem exec_splitReadReturn_children {n : Nat} {ext : List Byte} {o : ReadOut} (h' : s.AtRead c r h n)
    (hi : (namedGroups h.descs)[n]? = none) (hrep : s.replayOn c = false)
    (hr : s.readVa (splitAccess c r h (hd h.descs 176 48)) hbmData (8 * hd h.descs 128 6) ext = (u, o))
    (hdone : o.done = true) :
    exec (.splitReadReturn c r ext) s = .next (u.childrenRead c h (childRecords o.bytes (hd h.descs 128 6))
      (u.childChecks (hdStream h.descs) (childRecords o.bytes (hd h.descs 128 6)))) := by
  obtain ⟨hp, hh, hst, hs, hf, hm⟩ := h'
  rw [exec]
  unfold execSplitReadReturn
  rw [live_of_powered hp]
  cases hg : u.childChecks (hdStream h.descs) (childRecords o.bytes (hd h.descs 128 6)) <;>
    simp [hh, hst, hs, hf, hm, hi, hrep, hr, hdone, hg, State.childrenRead]

/-- A translated read leaves the commands of its channel. -/
theorem State.readVa_chans {a : MemAccess} {cls n : Nat} {ext : List Byte} {o : ReadOut}
    (hr : s.readVa a cls n ext = (u, o)) : u.chans = s.chans := by
  have h := (State.readVa_moves .refl a cls n ext .refl : Moves ⟨false, [.out, .msix, .xlat, .recorder],
    [.hmmu, .ctx, .rpl, .grm, .cmmu, .wst, .cvu, .hbmc, .ring, .eng, .door]⟩ s _).parts .chans (by decide)
  rw [hr] at h
  exact h

theorem splitReads : Rules.SplitReads := by
  intro c r ext s h n hp hh hst hs hf hm
  have at' : s.AtRead c r h n := ⟨hp, hh, hst, hs, hf, hm⟩
  have mem {u : State} (hc : u.chans = s.chans) : h ∈ (u.chan c).cmds := by
    rw [State.chan_congr hc]
    exact Channel.mem_of_head? hh
  refine ⟨fun idx u o hi hr hdone => ?_, fun u o hi hrep hr hdone => ?_⟩
  · have mem := mem (State.readVa_chans hr)
    refine ⟨_, exec_splitReadReturn_group at' hi hr hdone, fun hg => ?_, fun g hg => ?_⟩
    · rw [hg, State.groupRead]
      exact u.rejectCmd_recordHeld c h (by decide)
    · rw [hg, State.groupRead]
      split
      · exact HostCmd.taken_withGroup (State.accept_taken (State.mem_modCmd mem fun _ => h.withGroup n idx g))
      · exact ⟨_, State.mem_modCmd mem _, rfl⟩
  · have mem := mem (State.readVa_chans hr)
    refine ⟨_, exec_splitReadReturn_children at' hi hrep hr hdone, ?_⟩
    split
    · next st hv =>
      intro hst
      rw [hv, State.childrenRead]
      exact u.rejectCmd_recordHeld c h hst
    · next hv =>
      rw [hv, State.childrenRead]
      exact State.accept_taken (State.mem_modCmd mem fun _ => { h with children := childRecords o.bytes (hd h.descs 128 6) })

end Sys2Proof.Machine
end

section
/-!
## Turns of the split (R386, R405 to R408)
-/

namespace Sys2Proof.Machine

variable {s t u : State} {c : Ch} {h : HostCmd}

/-! ## An engine's queue -/

/-- What names an engine command in its queue. -/
def EngCmd.tag (k : EngCmd) : Nat × Nat × Nat := (k.uid, k.num, k.idx)

/-- The order of a queue's slices is not its commands' order. -/
theorem orderQueue_tags (ks : List EngCmd) (prev : Option (Nat × Nat × Bool)) :
    (orderQueue prev ks).map EngCmd.tag = ks.map EngCmd.tag := by
  induction ks generalizing prev with
  | nil => rfl
  | cons k ks ih =>
    unfold orderQueue
    split
    · rw [List.map_cons, List.map_cons, ih]
      rfl
    · rw [List.map_cons, List.map_cons, ih]

theorem EngCmd.planned_tag (k : EngCmd) : k.planned.tag = k.tag := by
  unfold EngCmd.planned
  split <;> rfl

theorem Engine.enqueue_tags (g : Engine) (k : EngCmd) :
    (g.enqueue k).queue.map EngCmd.tag = g.queue.map EngCmd.tag ++ [k.tag] := by
  refine (orderQueue_tags _ _).trans ?_
  rw [List.map_append, List.map_singleton, k.planned_tag]

/-! ## One engine command -/

/-- The engine chosen takes a command into its queue, for a credit (R407). -/
def State.enqueueOn (s : State) (c e : Nat) (k : EngCmd) : State :=
  s.modEngine c e fun g => { g.enqueue k with credit := { g.credit with held := g.credit.held - 1 } }

theorem State.enqueueOn_splitTurn (s : State) (c e : Nat) (k : EngCmd) :
    s.Keeps Channel.splitTurn (s.enqueueOn c e k) := by
  unfold State.enqueueOn State.modEngine
  exact s.modChan_keeps c

theorem State.notePlaced_splitTurn (s : State) (c : Nat) (h : HostCmd) (k : EngCmd) (slot : Nat) :
    s.Keeps Channel.splitTurn (s.notePlaced c h k slot) :=
  (State.modCmd_keeps (fun _ _ => rfl) s c h.num _).trans ((s.notePlaced_splitView c h k slot).map SplitView.turn)

/-- An engine command is placed on an engine that has a credit for it (R407, R408). -/
def State.placeOn (s : State) (c : Nat) (h : HostCmd) (k : EngCmd) (e : Nat) : State :=
  let queued := (s.enqueueOn c e k).logDec c 0x03 (e + k.name * 2 ^ 8)
  let elided := ((queued.engine c e).queue.getLast?.map (·.elided)).getD 0
  let noted := (queued.notePlaced c h k e).bump (engPage c e) Reg.engAgCnt_ELIDED elided
  if k.op = opScan then noted.stateMap c else noted

theorem State.modCmd_chans (h : t.chans = s.chans) (c num : Nat) (f : HostCmd → HostCmd) :
    (t.modCmd c num f).chans = (s.modCmd c num f).chans := by
  rw [State.modCmd, State.modCmd, State.modChan_chans, State.modChan_chans, h, State.chan_congr h]

/-- A placement shows in the engine's queue and credit and at the command; what follows it leaves both. -/
theorem State.placeOn_splitView (s : State) (c : Nat) (h : HostCmd) (k : EngCmd) (e : Nat) :
    ((s.enqueueOn c e k).modCmd c h.num (·.placed k e)).Keeps Channel.splitView (s.placeOn c h k e) := by
  have noted (kind value : Nat) (p : Page) (f : Fld) (n : Nat) :
      ((s.enqueueOn c e k).modCmd c h.num (·.placed k e)).Keeps Channel.splitView
        ((((s.enqueueOn c e k).logDec c kind value).notePlaced c h k e).bump p f n) :=
    ((State.Keeps.of_chans (State.modCmd_chans (State.logDec_chans ..) c h.num _)).trans
      (State.notePlaced_splitView ..)).trans (.of_chans (State.bump_chans ..))
  exact .ite ((noted ..).trans (State.stateMap_splitView _ c)) (noted ..)

theorem State.placeOn_splitTurn (s : State) (c : Nat) (h : HostCmd) (k : EngCmd) (e : Nat) :
    s.Keeps Channel.splitTurn (s.placeOn c h k e) :=
  ((s.enqueueOn_splitTurn c e k).trans (State.modCmd_keeps (fun _ _ => rfl) _ c h.num _)).trans
    ((s.placeOn_splitView c h k e).map SplitView.turn)

/-- The next engine command of a command, for an engine, is `k`: it waits for no buffer, and engine `e` is chosen. -/
structure State.Chooses (s : State) (c : Nat) (h : HostCmd) (k : EngCmd) (e : Nat) : Prop where
  next : s.engCmd c h h.next = k
  engine : k.op ≠ opCvu
  filled : isLodger h.descs = true → k.buffer ≠ none
  chosen : s.chooseSlot c k = some e

/-- The engine chosen takes the next engine command for a credit; without one, the ring holds the command (R407). -/
theorem State.placeNext_eq {c e : Nat} {k : EngCmd} (h' : s.Chooses c h k e) : s.placeNext c h =
    if (s.engine c e).credit.held = 0 then (s.modRing c h.ring fun q => { q with creditHeld := true }, false)
    else (s.placeOn c h k e, true) := by
  obtain ⟨rfl, hcvu, hbuf, he⟩ := h'
  have unfilled : ¬ (isLodger h.descs && decide ((s.engCmd c h h.next).buffer = none)) = true := by simpa using hbuf
  unfold State.placeNext
  dsimp only
  rw [if_neg hcvu, if_neg unfilled, he]
  rfl

theorem State.placeNext_splitTurn (s : State) (c : Nat) (h : HostCmd) :
    s.Keeps Channel.splitTurn (s.placeNext c h).1 := by
  unfold State.placeNext
  dsimp only
  split
  · split
    · exact State.Keeps.trans (s.modChan_keeps c) (State.notePlaced_splitTurn _ c h _ _)
    · exact .refl
  · split
    · exact .refl
    · split
      · exact .refl
      · split
        · dsimp only
          exact s.modRing_keeps (fun _ _ => rfl) c _ _
        · exact s.placeOn_splitTurn c h _ _

/-! ## A turn -/

theorem State.turn_splitTurn (c r fuel : Nat) (s : State) (n : Nat) :
    s.Keeps Channel.splitTurn (State.turn c r fuel (s, n)).1 := by
  induction fuel generalizing s n with
  | zero => exact .refl
  | succ fuel ih =>
    unfold State.turn
    split
    · exact .refl
    · next h _ =>
      have placed := s.placeNext_splitTurn c h
      split
      · exact .refl
      · split
        · next hp => rw [hp] at placed; exact placed.trans (ih _ _)
        · next hp => rw [hp] at placed; exact placed

/-- A turn of one engine command is one placement. -/
theorem State.turn_one {c r : Nat} (hh : (s.chan c).head? r = some h) (hp : h.placing = true) (n : Nat) :
    (State.turn c r 1 (s, n)).1 = (s.placeNext c h).1 := by
  rw [State.turn, hh]
  dsimp only
  rw [if_neg (by simp [hp])]
  split
  · next he => rw [he]; rfl
  · next he => rw [he]

/-- The first ring from the turn on that passes the test is the next one. -/
theorem nextRing_eq {turn k : Nat} {ok : Nat → Bool} (hk : k < 16) (hok : ok ((turn + k) % 16) = true)
    (hb : ∀ j, j < k → ok ((turn + j) % 16) = false) : nextRing turn ok = some ((turn + k) % 16) := by
  have first : (List.range 16).find? (ok ∘ fun i => (turn + i) % 16) = some k :=
    List.find?_range_eq_some.mpr ⟨hok, List.mem_range.mpr hk, fun j hj => by simp [hb j hj]⟩
  rw [nextRing, List.find?_map, first]
  rfl

/-- The split's turn passes to the ring after the one that has it. -/
def State.passTurn (s : State) (c r : Nat) : State := s.modChan c fun y => { y with splitTurn := (r + 1) % 16 }

theorem State.chan_passTurn (s : State) (c r : Nat) :
    (s.passTurn c r).chan c = { s.chan c with splitTurn := (r + 1) % 16 } := by
  rw [State.passTurn, State.chan_modChan, if_pos rfl]

/-- A ring has the split's turn: the first from the turn on with something to split. -/
structure State.AtTurn (s : State) (c : Ch) (r : Nat) (h : HostCmd) : Prop where
  powered : s.dev.powered = true
  recording : s.mayRecord c = true
  live : s.replayOn c = false
  next : nextRing (s.chan c).splitTurn (fun r => s.splits c r && ((s.chan c).head? r).any fun h =>
    h.placing || (h.stage = .queued && !knownOps.contains (hdOp h.descs))) = some r
  head : (s.chan c).head? r = some h

/-- A ring's turn: the engine commands that QUANTUM allows are placed, and their number is recorded (R405, R624). -/
def State.takeTurn (s : State) (c : Ch) (r : Nat) : State :=
  let placed := State.turn c r (max 1 (s.rd (.grm c) Reg.grmSplitCfg_QUANTUM)) (s.passTurn c r, 0)
  placed.1.logDec c 0x02 (r + placed.2 * 2 ^ 8)

theorem exec_splitTurn {r : Nat} (h' : s.AtTurn c r h) : exec (.splitTurn c) s = .next
    (if h.placing then s.takeTurn c r else (s.passTurn c r).finish c h stBadOpcode) := by
  obtain ⟨hp, hm, hrep, hn, hh⟩ := h'
  rw [exec]
  unfold execSplitTurn
  rw [live_of_powered hp]
  simp only [hrep, hn, hh, hm, Bool.not_true, Bool.false_eq_true, ↓reduceIte]
  rfl

theorem State.takeTurn_splitTurn (s : State) (c : Ch) (r : Nat) : ((s.takeTurn c r).chan c).splitTurn = (r + 1) % 16 := by
  unfold State.takeTurn
  rw [State.chan_congr (State.logDec_chans ..), (State.turn_splitTurn ..).same, s.chan_passTurn]

/-- With one engine command to a turn, a turn's end is its placement's. -/
theorem State.takeTurn_one {r : Nat} (hh : (s.chan c).head? r = some h) (hp : h.placing = true)
    (hq : s.rd (.grm c) Reg.grmSplitCfg_QUANTUM ≤ 1) :
    (s.takeTurn c r).chans = ((s.passTurn c r).placeNext c h).1.chans := by
  have hh : ((s.passTurn c r).chan c).head? r = some h := by
    rw [s.chan_passTurn]
    exact hh
  unfold State.takeTurn
  rw [State.logDec_chans, Nat.max_eq_left hq, State.turn_one hh hp]

/-- A placement takes a credit of the engine's queue, and the command stands there and at its host command (R407). -/
theorem State.placeOn_shows {c e : Nat} {k : EngCmd} (hh : h ∈ (s.chan c).cmds) (hk : k.num = h.num)
    (hc : t.chans = (s.placeOn c h k e).chans) :
    (t.engine c e).credit.held = (s.engine c e).credit.held - 1 ∧
      (∃ q ∈ (t.engine c e).queue, q.uid = k.uid ∧ q.num = h.num ∧ q.idx = k.idx) ∧
      ∃ g ∈ (t.chan c).cmds, g.num = h.num ∧ g.next = h.next + 1 ∧
        ∃ y ∈ g.ecs, y.idx = k.idx ∧ y.slot = e ∧ y.status = none := by
  obtain ⟨placings, -, -, -, engines⟩ := Channel.splitView_eq ((s.placeOn_splitView c h k e).same c)
  rw [← State.chan_congr hc c] at placings engines
  have taken : ((s.enqueueOn c e k).modCmd c h.num (·.placed k e)).engine c e = { (s.engine c e).enqueue k with
      credit := { (s.engine c e).credit with held := (s.engine c e).credit.held - 1 } } := by
    rw [State.modCmd, State.engine, State.chan_modChan, if_pos rfl]
    exact State.engine_modEngine_same ..
  obtain ⟨queue, credit⟩ := engines e
  rw [← State.engine, ← State.engine, taken] at queue credit
  refine ⟨by rw [credit], ?_, ?_⟩
  · have tag : k.tag ∈ (t.engine c e).queue.map EngCmd.tag := by
      rw [queue, Engine.enqueue_tags]
      exact List.mem_append_right _ (List.mem_singleton_self _)
    obtain ⟨q, hq, hqt⟩ := List.mem_map.mp tag
    simp only [EngCmd.tag, Prod.mk.injEq] at hqt
    obtain ⟨huid, hnum, hidx⟩ := hqt
    exact ⟨q, hq, huid, hnum.trans hk, hidx⟩
  · have mem : h ∈ ((s.enqueueOn c e k).chan c).cmds := by
      rw [State.enqueueOn, State.modEngine, State.chan_modChan, if_pos rfl]
      exact hh
    have placed : ((h.placed k e).num, (h.placed k e).next, (h.placed k e).ecs) ∈ (t.chan c).placings := by
      rw [placings]
      exact List.mem_map_of_mem (State.mem_modCmd mem _)
    obtain ⟨g, hg, hgp⟩ := List.mem_map.mp placed
    simp only [Prod.mk.injEq] at hgp
    obtain ⟨hnum, hnext, hecs⟩ := hgp
    exact ⟨g, hg, hnum, hnext, hecs ▸ ⟨_, List.mem_append_right _ (List.mem_singleton_self _), rfl, rfl, rfl⟩⟩

theorem splitTurns : Rules.SplitTurns := by
  intro c s k r h due hp hm hrep hk hr hdue hs hh hd hb
  subst hr hdue
  have at' : s.AtTurn c (((s.chan c).splitTurn + k) % 16) h :=
    ⟨hp, hm, hrep, nextRing_eq hk (by rw [hs, hh]; exact hd) hb, hh⟩
  generalize ((s.chan c).splitTurn + k) % 16 = r at at' hh
  refine ⟨_, exec_splitTurn at', ?_, fun hplace => ?_, ?_⟩
  · split
    · exact s.takeTurn_splitTurn c r
    · rw [(State.finish_splitTurn ..).same, s.chan_passTurn]
  · rw [if_neg (by simp [hplace])]
    exact State.finish_recordHeld _ c h (by decide)
  · intro u x e hplace hq hu hx hcvu hbuf he
    obtain rfl : u = s.passTurn c r := hu
    subst hx
    rw [if_pos hplace]
    have placed := State.placeNext_eq ⟨rfl, hcvu, hbuf, he⟩
    have turn := State.takeTurn_one hh hplace hq
    have engine : (s.passTurn c r).engine c e = s.engine c e := by
      rw [State.engine, s.chan_passTurn]
      rfl
    rw [placed, engine] at turn
    refine ⟨fun hcr => ?_, fun hcr => ?_⟩
    · rw [if_pos hcr] at turn
      rw [State.ringOf, State.chan_congr turn, ← State.ringOf, State.ringOf_modRing_same, State.modRing,
        State.chan_modChan, if_pos rfl, s.chan_passTurn]
      exact ⟨rfl, rfl⟩
    · rw [if_neg hcr] at turn
      have mem : h ∈ ((s.passTurn c r).chan c).cmds := by
        rw [s.chan_passTurn]
        exact Channel.mem_of_head? hh
      have shown := State.placeOn_shows mem rfl turn
      rw [engine] at shown
      exact shown

/-- Settles O30: a command at the split is checked, read and taken by rules of one case each; what completes or is placed
there shows through the closing streams, the state map and the deadline monitor, which leave it. -/
theorem splits : Obligations.Splits := ⟨commandsAtTheSplit, splitReads, splitTurns⟩

end Sys2Proof.Machine
end

section
/-!
## Weight registers and correction banks (R79, R83, R128)

A load goes into one of the two weight registers of an engine, and comes to its end there; a rebuild ends on the pages of
a pair that show it.
-/

namespace Sys2Proof.Machine

variable {s : State} {c : Ch} {e : SlotId}

/-! ## A field of several engines -/

section
variable {es : List Nat} {f g : Fld} {m : Nat}

/-- The two fields each lie in one word of a page, and they share no bit. -/
abbrev Fld.Apart (f g : Fld) : Prop :=
  f.lo + f.w ≤ 32 ∧ g.lo + g.w ≤ 32 ∧ f.off < 4096 ∧ g.off < 4096 ∧
    (g.off ≠ f.off ∨ g.lo + g.w ≤ f.lo ∨ f.lo + f.w ≤ g.lo)

/-- A field that several engines take reads back on the page of each of them. -/
theorem State.rd_wrAll_mem (s : State) (c : Nat) (hm : m ∈ es) (v : Nat) (h : f.lo + f.w ≤ 32) :
    (s.wrAll c es f v).rd (engPage c m) f = v % 2 ^ f.w := by
  refine foldl_holds (P := fun u : State => u.rd (engPage c m) f = v % 2 ^ f.w) hm
    (fun u => u.rd_wr_same _ v h) (fun u y _ hu => ?_) s
  by_cases hp : engPage c m = engPage c y
  · rw [hp]
    exact u.rd_wr_same _ v h
  · exact (State.rd_wr_page u hp).trans hu

/-- A field that several engines take leaves the fields beside it on every page. -/
theorem State.rd_wrAll_beside (s : State) (c : Nat) (es : List Nat) (v : Nat) (p : Page) (h : f.Apart g) :
    (s.wrAll c es f v).rd p g = s.rd p g := by
  obtain ⟨hf, hg, fo, go, apart⟩ := h
  exact foldl_keeps (P := fun u : State => u.rd p g = s.rd p g)
    (fun u _ _ hu => (u.rd_wr_other v hf hg fo go (.inr apart)).trans hu) rfl

theorem State.wrAll_sameWords (s : State) (c : Nat) (es : List Nat) (f : Fld) (v : Nat) :
    s.sameWords (s.wrAll c es f v) (es.map (engPage c)) :=
  foldl_keeps (P := fun u : State => s.sameWords u (es.map (engPage c)))
    (fun _ _ hm hu => hu.wr (List.mem_map_of_mem hm)) .refl

theorem State.wrAll_eq (s : State) (c : Nat) (es : List Nat) (f : Fld) (v : Nat) :
    s.wrAll c es f v = { s with regs := (s.wrAll c es f v).regs } :=
  foldl_keeps (P := fun u : State => u = { s with regs := u.regs })
    (fun u y _ hu => (u.wr_eq ..).trans (congrArg (fun x : State => { x with regs := (u.wr (engPage c y) f v).regs }) hu))
    rfl

/-- The secondary of a pair shows on a page of its own. -/
theorem State.mate_pages_ne {c : Nat} : ∀ m ∈ (s.mate c e).toList, engPage c m ≠ engPage c e :=
  fun _ hm => State.mate_page_ne (Option.mem_toList.mp hm)

/-- A wrapping counter in one word counts one on the page of the first engine of a pair. -/
theorem State.rd_wrapAll_pair (s u : State) (c : Nat) (e : SlotId) (h : f.lo + f.w ≤ 32) :
    (u.wrapAll c (s.pairOf c e) f).rd (engPage c e) f = (u.rd (engPage c e) f + 1) % 2 ^ f.w := by
  have own : (u.wrap (engPage c e) f).rd (engPage c e) f = (u.rd (engPage c e) f + 1) % 2 ^ f.w := by
    rw [State.wrap, State.rd_wr_same _ _ _ h, Nat.mod_mod]
  rw [State.wrapAll, State.pairOf, List.foldl_cons]
  exact foldl_keeps (P := fun v : State => v.rd (engPage c e) f = (u.rd (engPage c e) f + 1) % 2 ^ f.w)
    (fun v m hm hv => (State.rd_wrap_page v (State.mate_pages_ne m hm).symm).trans hv) own

theorem State.engine_wrapAll (s : State) (c d e : Nat) (es : List Nat) (f : Fld) :
    (s.wrapAll c es f).engine d e = s.engine d e := by
  rw [State.engine, State.chan_congr ((State.wrapAll_moves .refl c es f 1 .refl : Moves ⟨false, [], [.eng]⟩ s _).parts .chans
    (by decide))]
  rfl

end

/-! ## The two weight registers (R79) -/

/-- A change of an engine is what it makes of the engine that is there. -/
theorem State.modEngine_congr {c e : Nat} {f g : Engine → Engine} (h : f (s.engine c e) = g (s.engine c e)) :
    s.modEngine c e f = s.modEngine c e g := by
  simp only [State.engine, Channel.engine] at h
  simp only [State.modEngine, State.modChan, Channel.engine, h]

/-- A weight register of an engine: A, or B. -/
def Engine.wreg (g : Engine) (a : Bool) : WReg := if a then g.regA else g.regB

/-- An engine with one of its weight registers changed. -/
def Engine.setWreg (g : Engine) (a : Bool) (r : WReg) : Engine := if a then { g with regA := r } else { g with regB := r }

/-- A load takes register A where that is free and is the working one, or B is not free (R79). -/
def State.loadsA (s : State) (c e : Nat) : Bool :=
  (s.engine c e).regA.entry = none && (s.workingA c e || !((s.engine c e).regB.entry = none : Bool))

theorem State.loadsA_iff {c e : Nat} : s.loadsA c e = true ↔
    (s.engine c e).regA.entry = none ∧ (s.workingA c e = true ∨ (s.engine c e).regB.entry ≠ none) := by
  simp [State.loadsA]

/-- An entry of the sequence is due, and nothing keeps its load from starting. -/
structure State.LoadDue (s : State) (c : Ch) (e : SlotId) (x : SeqEntry) (k : EngCmd) : Prop where
  powered : s.dev.powered = true
  runs : s.engRuns c e = true
  due : (s.engine c e).nextEntry = some x
  served : (s.engine c e).served x = some k
  refetch : k.refetch = false
  ctx : s.ctxRuns k.ctx = true
  idleA : (s.engine c e).regA.loading = false
  idleB : (s.engine c e).regB.loading = false
  free : (s.engine c e).regA.entry = none ∨ (s.engine c e).regB.entry = none

theorem exec_sliceLoadStart {x : SeqEntry} {k : EngCmd} (h : s.LoadDue c e x k) :
    exec (.sliceLoadStart c e) s = .next ((s.modEngine c e fun g => g.setWreg (s.loadsA c e) (s.loadingReg c e x)).wrapAll c
      (s.pairOf c e) Reg.engWregStat_ROT) := by
  obtain ⟨hp, hrun, hdue, hserved, hrefetch, hctx, hA, hB, hfree⟩ := h
  rw [exec]
  unfold execSliceLoadStart
  rw [live_of_powered hp]
  simp only [hdue, hserved, hrun, hrefetch, hctx, hA, hB, Option.elim_some, Bool.not_true, Bool.or_self,
    Bool.false_eq_true, if_false]
  cases ha : s.loadsA c e with
  | true =>
    unfold State.loadsA at ha
    rw [if_pos ha]
    rfl
  | false =>
    have freeB : (s.engine c e).regB.entry = none := by
      by_contra hB
      rw [State.loadsA_iff.mpr ⟨hfree.resolve_right hB, .inr hB⟩] at ha
      cases ha
    unfold State.loadsA at ha
    rw [if_neg (Bool.eq_false_iff.mp ha), if_pos (decide_eq_true freeB)]
    rfl

/-- The load of an entry is under way in a register, and nothing keeps it from its end; a load in A ends first. -/
structure State.LoadEnds (s : State) (c : Ch) (e : SlotId) (a : Bool) (x : SeqEntry) (k : EngCmd) : Prop where
  powered : s.dev.powered = true
  runs : s.engRuns c e = true
  loading : ((s.engine c e).wreg a).loading = true
  first : a = false → (s.engine c e).regA.loading = false
  entry : ((s.engine c e).wreg a).entry = some x
  served : (s.engine c e).served x = some k
  refetch : k.refetch = false

/-- A register whose load has come to its end. -/
def State.loadedReg (s : State) (c : Nat) (k : EngCmd) (x : SeqEntry) (r : WReg) : WReg :=
  { r with loading := false, ready := true, codes := (s.sliceCodes c k x.slice).1, poisoned := (s.sliceCodes c k x.slice).2 }

theorem exec_sliceLoadComplete {a : Bool} {x : SeqEntry} {k : EngCmd} (h : s.LoadEnds c e a x k) :
    exec (.sliceLoadComplete c e) s =
      .next (s.modEngine c e fun g => g.setWreg a (s.loadedReg c k x (g.wreg a))) := by
  obtain ⟨hp, hrun, hloading, hfirst, hentry, hserved, hrefetch⟩ := h
  rw [exec]
  unfold execSliceLoadComplete
  rw [live_of_powered hp]
  cases a with
  | true =>
    simp only [Engine.wreg, if_true] at hloading hentry
    simp only [hrun, hloading, Bool.not_true, Bool.false_eq_true, if_false, if_true]
    refine congrArg _ (State.modEngine_congr ?_)
    simp [hentry, hserved, hrefetch, Engine.setWreg, Engine.wreg, State.loadedReg]
  | false =>
    simp only [Engine.wreg, Bool.false_eq_true, if_false] at hloading hentry
    simp only [hrun, hfirst rfl, hloading, Bool.not_true, Bool.false_eq_true, if_false, if_true]
    refine congrArg _ (State.modEngine_congr ?_)
    simp [hentry, hserved, hrefetch, Engine.setWreg, Engine.wreg, State.loadedReg]

theorem sliceLoadComplete_sameStores {t : State} (h : exec (.sliceLoadComplete c e) s = .next t) : s.sameStores t :=
  fun d => (((exec_moves (.sliceLoadComplete c e) s).get t h).stores d).same rfl

/-! ## Rebuilds (R128) -/

/-- The fields that the end of a rebuild takes lie apart from each other and from the base of the bank. -/
theorem bank_fields_apart : ∀ b : Fin 2,
    (Reg.engLnsBank_KNOT b).Apart (Reg.engLnsBank_BUILDING b) ∧ (Reg.engLnsBank_KNOT b).Apart (Reg.engLnsBank_VALID b) ∧
      (Reg.engLnsBank_KNOT b).Apart (Reg.engLnsBank_BASE b) ∧ (Reg.engLnsBank_VALID b).Apart (Reg.engLnsBank_BUILDING b) ∧
      (Reg.engLnsBank_VALID b).Apart (Reg.engLnsBank_BASE b) ∧ (Reg.engLnsBank_BUILDING b).Apart (Reg.engLnsBank_BASE b) := by
  decide

/-- The engines of a pair whose pages show a rebuild of a bank. -/
def State.rebuilding (s : State) (c e : Nat) (b : Fin 2) : List Nat :=
  (s.pairOf c e).filter fun q => s.flag (engPage c q) (Reg.engLnsBank_BUILDING b)

/-- A rebuild has come to its end on the pages of several engines. -/
def State.endRebuild (s : State) (c : Nat) (es : List Nat) (b : Fin 2) : State :=
  ((s.wrAll c es (Reg.engLnsBank_BUILDING b) 0).wrAll c es (Reg.engLnsBank_VALID b) 1).wrAll c es (Reg.engLnsBank_KNOT b) 128

theorem exec_rebuildComplete {b : Fin 2} (hp : s.dev.powered = true) (hrun : s.engRuns c e = true)
    (hb : s.flag (.eng c e) (Reg.engLnsBank_BUILDING b) = true) :
    exec (.rebuildComplete c e b) s = .next (s.endRebuild c (s.rebuilding c e b) b) := by
  rw [exec]
  unfold execRebuildComplete
  rw [live_of_powered hp]
  exact congrArg Host.Outcome.next (if_pos (by rw [hrun, hb]; rfl))

/-- On a page that shows it, a rebuild that has ended leaves its bank valid at knot 128, under the base it had. -/
theorem State.endRebuild_shows (s : State) (c : Nat) {es : List Nat} {m : Nat} (hm : m ∈ es) (b : Fin 2) :
    let t := s.endRebuild c es b
    t.flag (engPage c m) (Reg.engLnsBank_BUILDING b) = false ∧ t.flag (engPage c m) (Reg.engLnsBank_VALID b) = true ∧
      t.rd (engPage c m) (Reg.engLnsBank_KNOT b) = 128 ∧
      t.rd (engPage c m) (Reg.engLnsBank_BASE b) = s.rd (engPage c m) (Reg.engLnsBank_BASE b) := by
  obtain ⟨knotBuilding, knotValid, knotBase, validBuilding, validBase, buildingBase⟩ := bank_fields_apart b
  unfold State.endRebuild
  refine ⟨flag_of_bit ?_, flag_of_bit ?_, ?_, ?_⟩
  · rw [State.rd_wrAll_beside _ _ _ _ _ knotBuilding, State.rd_wrAll_beside _ _ _ _ _ validBuilding,
      State.rd_wrAll_mem _ _ hm _ buildingBase.1]
    rfl
  · rw [State.rd_wrAll_beside _ _ _ _ _ knotValid, State.rd_wrAll_mem _ _ hm _ validBase.1]
    rfl
  · exact State.rd_wrAll_mem _ _ hm _ knotBase.1
  · rw [State.rd_wrAll_beside _ _ _ _ _ knotBase, State.rd_wrAll_beside _ _ _ _ _ validBase,
      State.rd_wrAll_beside _ _ _ _ _ buildingBase]

theorem State.endRebuild_sameWords (s : State) (c : Nat) (es : List Nat) (b : Fin 2) :
    s.sameWords (s.endRebuild c es b) (es.map (engPage c)) :=
  ((s.wrAll_sameWords c es _ _).trans (State.wrAll_sameWords _ c es _ _)).trans (State.wrAll_sameWords _ c es _ _)

theorem State.endRebuild_eq (s : State) (c : Nat) (es : List Nat) (b : Fin 2) :
    s.endRebuild c es b = { s with regs := (s.endRebuild c es b).regs } := by
  unfold State.endRebuild
  rw [State.wrAll_eq _ c es (Reg.engLnsBank_KNOT b), State.wrAll_eq _ c es (Reg.engLnsBank_VALID b),
    s.wrAll_eq c es (Reg.engLnsBank_BUILDING b)]

/-- Settles O37: a load is a change of one weight register, at its start and at its end, and the end of a rebuild is three
fields of a bank on the pages that show it. -/
theorem weightRegistersAndBanks : Obligations.WeightRegistersAndBanks := by
  intro c e s hp hrun
  refine ⟨fun x k hdue hserved hrefetch hctx hA hB hfree => ?_, fun x k hA hentry hserved hrefetch => ?_,
    fun x k hA hB hentry hserved hrefetch => ?_, fun b hb => ?_⟩
  · refine ⟨_, exec_sliceLoadStart ⟨hp, hrun, hdue, hserved, hrefetch, hctx, hA, hB, hfree⟩, ?_, ?_⟩
    · rw [← engPage_val, State.rd_wrapAll_pair _ _ _ _ (by decide)]
      rfl
    · simp only [← State.loadsA_iff, State.engine_wrapAll, State.engine_modEngine_same, Engine.setWreg]
      split <;> exact ⟨rfl, rfl⟩
  · have loaded := exec_sliceLoadComplete (a := true) ⟨hp, hrun, hA, Bool.noConfusion, hentry, hserved, hrefetch⟩
    refine ⟨_, loaded, ?_, ?_, sliceLoadComplete_sameStores loaded, rfl⟩ <;> rw [State.engine_modEngine_same] <;> rfl
  · have loaded := exec_sliceLoadComplete (a := false) ⟨hp, hrun, hB, fun _ => hA, hentry, hserved, hrefetch⟩
    refine ⟨_, loaded, ?_, ?_, sliceLoadComplete_sameStores loaded, rfl⟩ <;> rw [State.engine_modEngine_same] <;> rfl
  · have shown : e.val ∈ s.rebuilding c e b := List.mem_filter.mpr ⟨List.mem_cons_self, by rw [engPage_val]; exact hb⟩
    obtain ⟨building, valid, knot, base⟩ := s.endRebuild_shows c shown b
    rw [engPage_val] at building valid knot base
    refine ⟨_, exec_rebuildComplete hp hrun hb, building, valid, knot, base, fun q hq => ?_, s.endRebuild_eq ..⟩
    exact s.endRebuild_sameWords c _ b q fun hm => hq (List.map_subset _ (List.filter_subset_self _) hm)

end Sys2Proof.Machine
end

section
/-!
## Bindings to banks, and what they leave (R126, R127)
-/

namespace Sys2Proof.Machine

variable {s t u : State}

/-- What the choice of a bank leaves of an engine: its queue, its tiles, and which commands run in which slots. -/
def Engine.besideBanks (g : Engine) : List EngCmd × Tab TileSlot × List (EngCmd × Nat) :=
  (g.queue, g.tiles, g.runs.map fun r => (r.cmd, r.slot))

/-- What the choice of a bank leaves of a channel: the tile images, and of each engine what is not its banks'. -/
def Channel.besideBanks (x : Channel) : List TileImage × (Nat → List EngCmd × Tab TileSlot × List (EngCmd × Nat)) :=
  (x.tileImages, fun e => (x.engine e).besideBanks)

theorem State.modEngine_besideBanks (s : State) (c e : Nat) {f : Engine → Engine}
    (hf : ∀ g, (f g).besideBanks = g.besideBanks := by intros; rfl) : s.Keeps Channel.besideBanks (s.modEngine c e f) :=
  s.modChan_keeps c fun x => Prod.ext rfl (Tab.view_set Engine.besideBanks x.engines e (hf _))

/-- Runs that change in the banks that they use. -/
theorem EngRun.map_besideBank (rs : List EngRun) (p : EngRun → Prop) [DecidablePred p] (b : BankUse) :
    ((rs.map fun r => if p r then { r with bank := b } else r).map fun r => (r.cmd, r.slot)) =
      rs.map fun r => (r.cmd, r.slot) := by
  rw [List.map_map]
  refine List.map_congr_left fun r _ => ?_
  simp only [Function.comp_apply]
  split <;> rfl

theorem State.startRebuild_besideBanks (s : State) (c e n uid : Nat) (d : Group) :
    s.Keeps Channel.besideBanks (s.startRebuild c e n uid d) := by
  have shown : Moves ⟨false, [], [.eng]⟩ s
      ((s.showBank c (s.enginesFor c e uid) n d 0 1 0).bumpAll c (s.enginesFor c e uid) Reg.engLnsCnt_REBUILDS) :=
    State.bumpAll_moves (State.showBank_moves .refl c _ n d 0 1 0 .refl) c _ _ .refl
  unfold State.startRebuild
  exact (State.Keeps.of_chans (shown.parts .chans (by decide))).trans (State.modEngine_besideBanks _ c e)

theorem State.bindTo_besideBanks (s : State) (c e n uid : Nat) : s.Keeps Channel.besideBanks (s.bindTo c e n uid) := by
  refine (s.modEngine_besideBanks c e fun g => ?_).trans (State.wrAll_keeps ..)
  rw [Engine.besideBanks, EngRun.map_besideBank]
  rfl

theorem State.bindBank_besideBanks (s : State) (c e uid : Nat) (d : Group) :
    s.Keeps Channel.besideBanks (s.bindBank c e uid d) := by
  unfold State.bindBank
  dsimp only
  refine .ite (s.bindTo_besideBanks c e 0 uid) (.ite (s.bindTo_besideBanks c e 1 uid) (.ite ?_ ?_))
  · exact (s.startRebuild_besideBanks ..).trans (State.bindTo_besideBanks ..)
  · refine s.modEngine_besideBanks c e fun g => ?_
    rw [Engine.besideBanks, EngRun.map_besideBank]
    rfl

theorem State.bindAtClaim_besideBanks (s : State) (c e : Nat) (k : EngCmd) :
    s.Keeps Channel.besideBanks (s.bindAtClaim c e k) := .ite (s.bindBank_besideBanks ..) .refl

theorem State.unbind_besideBanks (s : State) (c e uid : Nat) : s.Keeps Channel.besideBanks (s.unbind c e uid) := by
  refine (s.modEngine_besideBanks c e).fold fun u n _ => ?_
  have released := u.modEngine_besideBanks c e (f := fun g =>
    { g with banks := Tab.set g.banks n { g.bank n with bound := ((u.engine c e).bank n).bound.erase uid } })
  dsimp only
  split
  · split
    · split
      · exact ((released.trans (State.modEngine_besideBanks _ c e)).trans (State.startRebuild_besideBanks ..)).trans
          (State.bindTo_besideBanks ..)
      · exact released.trans (State.wrAll_keeps ..)
    · exact released
  · exact .refl

/-- An engine beside its banks, as a view of its channel shows it. -/
theorem State.Keeps.engine_besideBanks (h : s.Keeps Channel.besideBanks t) (c e : Nat) :
    (t.engine c e).queue = (s.engine c e).queue ∧ (t.engine c e).tiles = (s.engine c e).tiles ∧
      ((t.engine c e).runs.map fun r => (r.cmd, r.slot)) = (s.engine c e).runs.map fun r => (r.cmd, r.slot) := by
  have same : (t.engine c e).besideBanks = (s.engine c e).besideBanks := congrFun (congrArg Prod.snd (h.same c)) e
  simpa only [Engine.besideBanks, Prod.mk.injEq] using same

end Sys2Proof.Machine
end

section
/-!
## Engine queues and tile images beside the tiles (R33, R80, R172, R174)

What becomes of a tile, and of the runs of its commands, leaves the commands that wait in the engines' queues, though not
the order of their slices, and the sealed images.
-/

namespace Sys2Proof.Machine

variable {s t u : State} {st : Nat}

/-- The tile images of a channel, and which commands wait in its engines' queues. -/
def Channel.waiting (x : Channel) : List TileImage × (Nat → List (Nat × Nat × Nat)) :=
  (x.tileImages, fun e => (x.engine e).queue.map EngCmd.tag)

theorem State.Keeps.tileImages (h : s.Keeps Channel.waiting t) (c : Nat) :
    (t.chan c).tileImages = (s.chan c).tileImages := congrArg Prod.fst (h.same c)

theorem State.Keeps.queue_tags (h : s.Keeps Channel.waiting t) (c e : Nat) :
    (t.engine c e).queue.map EngCmd.tag = (s.engine c e).queue.map EngCmd.tag :=
  congrFun (congrArg Prod.snd (h.same c)) e

theorem State.modEngine_waiting (s : State) (c e : Nat) {f : Engine → Engine}
    (hf : ∀ g, (f g).queue.map EngCmd.tag = g.queue.map EngCmd.tag := by intros; rfl) :
    s.Keeps Channel.waiting (s.modEngine c e f) :=
  s.modChan_keeps c fun x => Prod.ext rfl
    (Tab.view_set (fun g : Engine => g.queue.map EngCmd.tag) x.engines e (hf _))

theorem State.ecDone_waiting (s : State) (c : Nat) (k : EngCmd) (st : Nat) :
    s.Keeps Channel.waiting (s.ecDone c k st) := .ite .refl (s.modChan_keeps c)

theorem State.ecsDone_waiting (s : State) (c : Nat) (ks : List EngCmd) (st : Nat) :
    s.Keeps Channel.waiting (s.ecsDone c ks st) := State.Keeps.refl.fold fun u k _ => u.ecDone_waiting c k st

theorem State.freeEntry_waiting (s : State) (c e : Nat) (k : EngCmd) : s.Keeps Channel.waiting (s.freeEntry c e k) :=
  .ite .refl (s.modEngine_waiting c e)

theorem Engine.swept_tags (g : Engine) : g.swept.queue.map EngCmd.tag = g.queue.map EngCmd.tag := orderQueue_tags ..

theorem State.sweep_waiting (s : State) (c e : Nat) : s.Keeps Channel.waiting (s.sweep c e) := by
  have swept := s.modEngine_waiting c e Engine.swept_tags
  rcases s.sweep_cases c e with h | h <;> rw [h]
  · exact swept.trans (State.wrAll_keeps ..)
  · exact swept

theorem State.unbind_waiting (s : State) (c e uid : Nat) : s.Keeps Channel.waiting (s.unbind c e uid) :=
  (s.unbind_besideBanks c e uid).map fun v => (v.1, fun e => (v.2 e).1.map EngCmd.tag)

theorem Engine.freeLanes_queue (g : Engine) (r : EngRun) : (g.freeLanes r).queue = g.queue := by
  unfold Engine.freeLanes
  split
  · exact foldl_keeps (P := fun h : Engine => h.queue = g.queue)
      (f := fun g (l : Nat × LaneProg) => g.setLaneCredit l.1 fun k => k.free l.2.buf.length) (fun _ _ _ h => h) rfl
  · rfl

theorem State.dropRuns_waiting (s : State) (c e t : Nat) : s.Keeps Channel.waiting (s.dropRuns c e t) := by
  refine State.Keeps.trans (State.Keeps.trans (State.Keeps.refl.fold fun u r _ => ?_) (State.modEngine_waiting _ c e))
    (State.sweep_waiting _ c e)
  exact ((u.unbind_waiting c e _).trans (State.freeEntry_waiting _ c e _)).trans
    (State.modEngine_waiting _ c e fun g => by rw [g.freeLanes_queue])

theorem Engine.dropDrain_queue (g : Engine) (t : Nat) : (g.dropDrain t).queue = g.queue := by
  unfold Engine.dropDrain
  split
  · split <;> rfl
  · rfl

theorem State.freeTile_waiting (s : State) (c e t : Nat) : s.Keeps Channel.waiting (s.freeTile c e t) :=
  (s.dropRuns_waiting c e t).trans (State.modEngine_waiting _ c e fun g => by
    rw [Engine.setTile, Engine.dropDrain_queue])

/-- The slot of a tile that is released is FREE. -/
theorem State.tile_freeTile_same (s : State) (c e n : Nat) : (s.freeTile c e n).tile c e n = {} := by
  rw [State.freeTile, State.tile, State.engine_modEngine_same, Engine.tile, Engine.setTile, Tab.get_set_same]

/-! ## The end action of tiles (R172) -/

theorem State.endAction_waiting (s : State) (c e t : Nat) : s.Keeps Channel.waiting (s.endAction c e t) := by
  unfold State.endAction
  dsimp only
  split
  · exact .refl
  · exact .ite ((s.ecsDone_waiting c _ _).trans (State.modEngine_waiting _ c e))
      ((s.ecsDone_waiting c _ _).trans (State.modEngine_waiting _ c e))

theorem State.endAction_ends (s : State) (c e t : Nat) : s.Ends stOk (s.endAction c e t) := by
  unfold State.endAction
  dsimp only
  split
  · exact .refl
  · exact .ite ((s.ecsDone_ends c _ _).trans (State.modEngine_ends _ c e _))
      ((s.ecsDone_ends c _ _).trans (State.modEngine_ends _ c e _))

theorem State.settle_waiting (s : State) (c e : Nat) : s.Keeps Channel.waiting (s.settle c e) :=
  State.Keeps.refl.fold fun u t _ => .ite (u.endAction_waiting c e t.1) .refl

theorem State.settle_ends (s : State) (c e : Nat) : s.Ends stOk (s.settle c e) :=
  State.Ends.refl.fold fun u t _ => .ite (u.endAction_ends c e t.1) .refl

/-! ## Commands that complete without a claim (R182, R397) -/

theorem State.engine_popQueue (s : State) (c e : Nat) :
    (s.popQueue c e).engine c e = { s.engine c e with queue := (s.engine c e).queue.tail } := by
  rw [State.popQueue, State.engine_modEngine_same, List.drop_one]

theorem State.modEngine_tileImages (s : State) (c e : Nat) (f : Engine → Engine) :
    s.Keeps Channel.tileImages (s.modEngine c e f) := s.modChan_keeps c

/-- What follows the departure of a queue's head that completes without a claim leaves the rest of the queue. -/
theorem State.dismiss_waiting (s : State) (c e : Nat) (k : EngCmd) (st : Nat) :
    (s.popQueue c e).Keeps Channel.waiting (s.dismiss c e k st) :=
  ((((s.popQueue c e).freeEntry_waiting c e k).trans (State.ecDone_waiting ..)).trans (State.sweep_waiting ..)).trans
    (State.settle_waiting ..)

theorem State.dismiss_tileImages (s : State) (c e d : Nat) (k : EngCmd) (st : Nat) :
    ((s.dismiss c e k st).chan d).tileImages = (s.chan d).tileImages :=
  ((s.dismiss_waiting c e k st).tileImages d).trans ((s.modEngine_tileImages c e _).same d)

theorem map_uid_of_map_tag {ks js : List EngCmd} (h : ks.map EngCmd.tag = js.map EngCmd.tag) :
    ks.map (·.uid) = js.map (·.uid) := by
  have first := congrArg (List.map Prod.fst) h
  rw [List.map_map, List.map_map] at first
  exact first

theorem State.dismiss_queue (s : State) (c e : Nat) (k : EngCmd) (st : Nat) :
    ((s.dismiss c e k st).engine c e).queue.map (·.uid) = (s.engine c e).queue.tail.map (·.uid) := by
  refine map_uid_of_map_tag (((s.dismiss_waiting c e k st).queue_tags c e).trans ?_)
  rw [State.engine_popQueue]

/-- What ends other commands later leaves a command with the status that it has. -/
theorem completedWith_of_ends_later {st' c : Nat} {k : EngCmd} (h : CompletedWith s t c k st) (he : t.Ends st' u) :
    CompletedWith s u c k st := by
  intro ha g hg hn r hr hi
  obtain ⟨g', hg', hgn, hecs⟩ := (he.chan c).cmds g hg
  obtain ⟨q, hq, hqi, hrq⟩ := hecs r hr
  have completed := h ha g' hg' (hgn.trans hn) q hq (hqi.trans hi)
  obtain rfl | ⟨hnone, -⟩ := hrq
  · exact completed
  · exact absurd hnone completed.1

/-- A command that is dismissed completes with its status, whatever the tiles that settle then complete. -/
theorem State.dismiss_completes {k : EngCmd} (he : s.Ends st t) (c e : Nat) :
    CompletedWith s (t.dismiss c e k st) c k st := by
  have done : CompletedWith s (((t.popQueue c e).freeEntry c e k).ecDone c k st) c k st :=
    completedWith_of_done
      (((he.trans (t.modEngine_ends c e _)).trans (State.freeEntry_ends _ c e k)).trans (State.ecDone_ends _ c k st))
      fun ha => State.ecDone_done _ c ha st
  exact completedWith_of_ends_later (completedWith_of_ends_later done (State.sweep_ends (st := st) _ c e))
    (State.settle_ends _ c e)

/-- A completion shows in the channels alone. -/
theorem completedWith_of_chans {s' t' : State} {c : Nat} {k : EngCmd} (h : CompletedWith s t c k st)
    (hs : s'.chans = s.chans) (ht : t'.chans = t.chans) : CompletedWith s' t' c k st := by
  unfold CompletedWith
  rw [State.chan_congr hs, State.chan_congr ht]
  exact h

end Sys2Proof.Machine
end

section
/-!
## Claims of tile slots (R171, R174, R179, R182, R397)
-/

namespace Sys2Proof.Machine

variable {s : State} {c : Ch} {e : SlotId} {k : EngCmd} {n : Nat}

/-! ## The branches of a claim -/

theorem Engine.tile_mem_slots_of_slotOf {g : Engine} {ctx name : Nat} (h : g.slotOf ctx name = some n) :
    (n, g.tile n) ∈ g.slots := by
  obtain ⟨x, hx, rfl⟩ := Option.map_eq_some_iff.mp h
  have mem := List.mem_of_find?_eq_some hx
  rw [← g.slots_tile mem]
  exact mem

/-- While no restored tile waits for an in-progress slot, none takes one. -/
theorem State.unpause_of_none {c e : Nat} (h : ∀ t ∈ (s.engine c e).slots, t.2.paused = false) : s.unpause c e = s := by
  have none : (s.engine c e).slots.find? (fun t => t.2.paused) = none :=
    List.find?_eq_none.mpr fun t ht => by simp [h t ht]
  unfold State.unpause
  dsimp only
  rw [none]

theorem exec_tileClaim (h : ClaimHead s c e k) : exec (.tileClaim c e) s = .next (s.claim c e) := by
  obtain ⟨hp, -, -, -, -, -, -, -, hpaused, -⟩ := h
  rw [exec, execTileClaim, live_of_powered hp, State.unpause_of_none hpaused]

theorem Engine.incoming_any_eq_false {g : Engine} (h : ∀ x ∈ g.incoming, k.ofTile x = false) :
    g.incoming.any k.ofTile = false := List.any_eq_false.mpr fun x hx => by simp [h x hx]

/-- While no tile that was moved here waits for the head, none takes a slot. -/
theorem State.place_of_none {c e : Nat} (h : ∀ x ∈ (s.engine c e).incoming, k.ofTile x = false) : s.place c e k = s := by
  have none : (s.engine c e).incoming.find? k.ofTile = none := List.find?_eq_none.mpr fun x hx => by simp [h x hx]
  unfold State.place
  dsimp only
  rw [none]

/-- The head names no tile, and no image: it is claimed fresh, or DRAIN has no tile. -/
theorem State.claim_noTile (h : ClaimHead s c e k) (hslot : (s.engine c e).slotOf k.ctx k.name = none)
    (himage : NoImage s c e k) :
    s.claim c e = if k.op = opDrain then s.dismiss c e k stNoTile else s.claimFresh c e k := by
  obtain ⟨-, hhead, hrun, hsec, hctx, hbody, hagain, hstall, -, hincoming⟩ := h
  have noImage : ((s.chan c).tileImages.any fun i => i.ctx = k.ctx && i.name = k.name && i.engine = e.val) = false :=
    List.any_eq_false.mpr fun i hi => by simpa [and_assoc] using himage i hi
  unfold State.claim
  simp [hhead, hrun, hsec, hctx, hbody, hagain, hstall, State.place_of_none hincoming,
    Engine.incoming_any_eq_false hincoming, hslot, noImage]

/-- The head names a PARKED tile: DRAIN takes it, an accumulating command claims it. -/
theorem State.claim_parked (h : ClaimHead s c e k) (hslot : (s.engine c e).slotOf k.ctx k.name = some n)
    (hparked : (s.tile c e n).state = .parked) (hop : k.op = opDrain ∨ hdAccum k.descs = true) :
    s.claim c e = if k.op = opDrain then s.claimDrain c e n k else s.claimInto c e n k := by
  obtain ⟨-, hhead, hrun, hsec, hctx, hbody, hagain, hstall, hpaused, hincoming⟩ := h
  have notPaused : ((s.engine c e).tile n).paused = false := hpaused _ (Engine.tile_mem_slots_of_slotOf hslot)
  have drainBody : hasTileBody opDrain = true := rfl
  rw [State.tile] at hparked
  unfold State.claim
  rcases hop with hop | hop <;>
    simp [hhead, hrun, hsec, hctx, hbody, hagain, hstall, State.place_of_none hincoming,
      Engine.incoming_any_eq_false hincoming, hslot, notPaused, hparked, hop, drainBody]

/-! ## A fresh claim (R171, R179) -/

theorem State.formPair_engine (s : State) (c e : Nat) :
    ∃ b, (s.formPair c e).engine c e = { s.engine c e with paired := b } := by
  unfold State.formPair
  split
  · exact ⟨true, State.engine_modEngine_same ..⟩
  · exact ⟨_, rfl⟩

/-- A command in progress has its place among the others. -/
theorem mem_insertRun (rs : List EngRun) (r : EngRun) (urgent : Bool) : r ∈ insertRun rs r urgent := by
  unfold insertRun
  split
  · split <;> simp
  · simp

/-- A command that begins in a tile leaves the queue and all of the tile but its count of promotions, and is one of the
runs. -/
theorem State.beginRun_shows (s : State) (c e t : Nat) (k : EngCmd) :
    ((s.beginRun c e t k).engine c e).queue = (s.engine c e).queue ∧
      (∃ p, (s.beginRun c e t k).tile c e t = { s.tile c e t with promoted := p }) ∧
      ∃ r ∈ ((s.beginRun c e t k).engine c e).runs, r.cmd.uid = k.uid ∧ r.slot = t := by
  unfold State.beginRun
  dsimp only
  refine ⟨?_, ?_, ?_⟩
  · rw [State.modTile, State.engine_modEngine_same, Engine.setTile, State.engine_modEngine_same]
  · rw [State.tile_modTile_same, State.tile, State.engine_modEngine_same]
    exact ⟨_, rfl⟩
  · rw [State.runs_modTile, State.engine_modEngine_same]
    exact ⟨_, mem_insertRun .., rfl, rfl⟩

/-- The head has left the queue, and its tile fills a slot. -/
def State.fillSlot (s : State) (c e t : Nat) (k : EngCmd) (x : TileSlot) : State :=
  (s.beginHead c e k).modTile c e t fun _ => { s.accumulate e k x with state := .filling, await := none }

theorem State.enter_of_not_elided (s : State) (c e t : Nat) {k : EngCmd} (x : TileSlot) (hk : elided k = false) :
    s.enter c e t k x = ((s.fillSlot c e t k x).beginRun c e t k).bindAtClaim c e k :=
  if_neg (by simp [hk])

/-- A head that claims a slot and has slices to run leaves the queue, and fills the slot as one of the runs. -/
theorem State.enter_shows (s : State) (c e t : Nat) {k : EngCmd} (x : TileSlot) (hk : elided k = false) :
    ((s.enter c e t k x).engine c e).queue = (s.engine c e).queue.tail ∧
      (∃ p, (s.enter c e t k x).tile c e t =
        { s.accumulate e k x with state := .filling, await := none, promoted := p }) ∧
      ∃ r ∈ ((s.enter c e t k x).engine c e).runs, r.cmd.uid = k.uid ∧ r.slot = t := by
  obtain ⟨hqueue, ⟨p, htile⟩, r, hr, huid, hslot⟩ := (s.fillSlot c e t k x).beginRun_shows c e t k
  obtain ⟨bqueue, btiles, bruns⟩ :=
    (State.bindAtClaim_besideBanks ((s.fillSlot c e t k x).beginRun c e t k) c e k).engine_besideBanks c e
  rw [s.enter_of_not_elided c e t x hk]
  refine ⟨?_, ⟨p, ?_⟩, ?_⟩
  · rw [bqueue, hqueue, State.fillSlot, State.modTile, State.engine_modEngine_same, State.beginHead,
      State.engine_modEngine_same, State.engine_popQueue]
    rfl
  · rw [State.tile, Engine.tile, btiles, ← Engine.tile, ← State.tile, htile, State.fillSlot, State.tile_modTile_same]
  · have mem : (r.cmd, r.slot) ∈
        (((s.fillSlot c e t k x).beginRun c e t k).engine c e).runs.map fun r => (r.cmd, r.slot) :=
      List.mem_map_of_mem (f := fun r : EngRun => (r.cmd, r.slot)) hr
    rw [← bruns] at mem
    obtain ⟨q, hq, hqr⟩ := List.mem_map.mp mem
    simp only [Prod.mk.injEq] at hqr
    obtain ⟨hcmd, hqslot⟩ := hqr
    exact ⟨q, hq, hcmd ▸ huid, hqslot.trans hslot⟩

/-- The tile of a fresh claim, with the guard decision (R161). -/
def State.claimedTile (s : State) (c e : Nat) (k : EngCmd) : TileSlot :=
  { s.freshTile c e k with guardDenied := hdGuard k.descs && !(s.freshTile c e k).guarded }

/-- A fresh claim enters the FREE slot with a tile of its own. -/
theorem State.claimFresh_enters {c e : Nat} (hmay : (s.engine c e).mayClaim k = true)
    (hfree : (s.engine c e).freeSlot = some n) :
    s.claimFresh c e k = (s.formPair c e).enter c e n k ((s.formPair c e).claimedTile c e k) := by
  simp [State.claimFresh, State.claimedTile, hmay, hfree]

theorem tileClaim_fresh (h : ClaimHead s c e k) (hslot : (s.engine c e).slotOf k.ctx k.name = none)
    (himage : NoImage s c e k) (hop : k.op ≠ opDrain) (hmay : (s.engine c e).mayClaim k = true) (hk : elided k = false)
    (hfree : (s.engine c e).freeSlot = some n) :
    let t := s.claim c e
    (t.tile c e n).state = .filling ∧ (t.tile c e n).ctx = k.ctx ∧ (t.tile c e n).name = k.name ∧
      (t.tile c e n).afmt = hdAfmt k.descs ∧ (t.tile c e n).wfmt = hdWfmt k.descs ∧
      (t.tile c e n).last = some k ∧ (t.engine c e).queue = (s.engine c e).queue.tail ∧
      ∃ r ∈ (t.engine c e).runs, r.cmd.uid = k.uid ∧ r.slot = n := by
  dsimp only
  rw [State.claim_noTile h hslot himage, if_neg hop, State.claimFresh_enters hmay hfree]
  obtain ⟨hqueue, ⟨p, htile⟩, hrun⟩ := (s.formPair c e).enter_shows c e n ((s.formPair c e).claimedTile c e k) hk
  obtain ⟨b, paired⟩ := s.formPair_engine c e
  rw [paired] at hqueue
  rw [htile]
  exact ⟨rfl, rfl, rfl, rfl, rfl, rfl, hqueue, hrun⟩

/-! ## Claims without a FREE slot (R174) -/

/-- A PARKED tile on its way into the save region. -/
def State.sealingTile (s : State) (c : Nat) (x : TileSlot) : TileSlot :=
  { x with state := .sealing, space := (s.freeSpace c x.ctx).getD 0 }

/-- Where no seal or restore is under way, the victim is sealed, and this is recorded. -/
theorem State.makeRoom_seals {c e : Nat}
    (hidle : ∀ x ∈ (s.engine c e).slots, x.2.state ≠ .sealing ∧ x.2.state ≠ .restoring)
    (hreplay : s.replayOn c = false) (hvictim : s.victim c e = some n) :
    s.makeRoom c e = (s.modTile c e n (s.sealingTile c)).logDec c 0x04 n := by
  unfold State.makeRoom
  dsimp only
  rw [if_neg, State.chosen, hreplay, if_neg Bool.false_ne_true, hvictim]
  · rfl
  · intro moving
    obtain ⟨t, ht, hmoves⟩ := List.any_eq_true.mp moving
    simp [hidle t ht] at hmoves

theorem tileClaim_seals (h : ClaimHead s c e k) (hslot : (s.engine c e).slotOf k.ctx k.name = none)
    (himage : NoImage s c e k) (hop : k.op ≠ opDrain) (hmay : (s.engine c e).mayClaim k = true)
    (hfree : (s.engine c e).freeSlot = none) (hreplay : s.replayOn c = false)
    (hidle : ∀ x ∈ (s.engine c e).slots, x.2.state ≠ .sealing ∧ x.2.state ≠ .restoring)
    (hvictim : s.victim c e = some n) :
    ((s.claim c e).tile c e n).state = .sealing ∧ ((s.claim c e).engine c e).queue = (s.engine c e).queue := by
  have room : s.claim c e = (s.modTile c e n (s.sealingTile c)).logDec c 0x04 n := by
    rw [State.claim_noTile h hslot himage, if_neg hop, ← State.makeRoom_seals hidle hreplay hvictim]
    simp [State.claimFresh, hmay, hfree]
  have engine : (s.claim c e).engine c e = (s.modTile c e n (s.sealingTile c)).engine c e := by
    rw [room, State.engine, State.chan_congr (State.logDec_chans ..)]
    rfl
  refine ⟨?_, ?_⟩
  · rw [State.tile, engine, ← State.tile, State.tile_modTile_same]
    rfl
  · rw [engine, State.modTile, State.engine_modEngine_same]
    rfl

/-! ## Claims of PARKED tiles (R182, R397) -/

theorem tileClaim_mismatch (h : ClaimHead s c e k) (hslot : (s.engine c e).slotOf k.ctx k.name = some n)
    (hparked : (s.tile c e n).state = .parked) (hop : k.op ≠ opDrain) (haccum : hdAccum k.descs = true)
    (htag : (s.tile c e n).matchesTag k = false) (hmay : (s.engine c e).mayClaim k = true) :
    let t := s.claim c e
    CompletedWith s t c k stFormatMismatch ∧ 0 < t.rd (.eng c e) Reg.engTileCnt_MISMATCH_REJ ∧
      (t.engine c e).queue.map (·.uid) = (s.engine c e).queue.tail.map (·.uid) := by
  have rejected : s.claim c e = s.rejectFormats c e k := by
    rw [State.claim_parked h hslot hparked (.inr haccum), if_neg hop]
    simp [State.claimInto, hparked, hmay, htag]
  have chans : (s.rejectFormats c e k).chans = (s.dismiss c e k stFormatMismatch).chans := State.bump_chans ..
  dsimp only
  rw [rejected]
  refine ⟨completedWith_of_chans (State.dismiss_completes .refl c e) rfl chans, ?_, ?_⟩
  · rw [State.rejectFormats, engPage_val, State.rd_bump_same _ _ _ (by decide)]
    simp [Reg.engTileCnt_MISMATCH_REJ]
  · rw [State.engine, State.chan_congr chans]
    exact s.dismiss_queue c e k _

theorem tileClaim_drain (h : ClaimHead s c e k) (hslot : (s.engine c e).slotOf k.ctx k.name = some n)
    (hparked : (s.tile c e n).state = .parked) (hop : k.op = opDrain) (hroom : (s.engine c e).inProgress < 2) :
    let t := s.claim c e
    (t.tile c e n).state = .draining ∧ (t.tile c e n).last = some k ∧
      (t.engine c e).drains = (s.engine c e).drains ++ [n] ∧ (t.engine c e).queue = (s.engine c e).queue.tail := by
  have hagain : k.again = false := by
    obtain ⟨-, -, -, -, -, -, hagain, -⟩ := h
    exact hagain
  dsimp only
  rw [State.claim_parked h hslot hparked (.inl hop), if_pos hop, State.claimDrain, if_neg (by omega), State.tile,
    State.engine_modEngine_same, State.freeEntry, if_neg (by simp [hagain]), State.engine_modEngine_same,
    State.engine_popQueue]
  simp [Engine.setTile, Engine.tile]

theorem tileClaims : Rules.TileClaims := by
  intro c e s k h
  refine ⟨_, exec_tileClaim h, fun n hslot himage hop hmay hk hfree => tileClaim_fresh h hslot himage hop hmay hk hfree,
    fun n hslot himage hop hmay hfree hreplay hidle hvictim =>
      tileClaim_seals h hslot himage hop hmay hfree hreplay hidle hvictim,
    fun n hslot hparked hop haccum htag hmay => tileClaim_mismatch h hslot hparked hop haccum htag hmay,
    fun n hslot hparked hop hroom => tileClaim_drain h hslot hparked hop hroom, fun hslot himage hop => ?_⟩
  rw [State.claim_noTile h hslot himage, if_pos hop]
  exact ⟨State.dismiss_completes .refl c e, s.dismiss_queue c e k _⟩

end Sys2Proof.Machine
end

section
/-!
## Sealed tile images (R174, R175, R476)
-/

namespace Sys2Proof.Machine

variable {s u : State} {c : Ch} {e : SlotId} {k : EngCmd} {x : TileSlot} {i : TileImage} {n : Nat}

/-! ## Seals -/

theorem State.wake_chans (s : State) (ctx : Nat) : (s.wake ctx).chans = s.chans :=
  (State.wake_moves .refl ctx .refl : Moves ⟨false, [.ctxs], []⟩ s _).parts .chans (by decide)

theorem exec_sealComplete {t : Fin 8} (hp : s.dev.powered = true) (hs : (s.tile c e t).state = .sealing)
    (ha : s.arithOn c = true) (hw : s.sealVa (sealAccess s c e t (s.tile c e t)) tileImageBytes = (u, true)) :
    exec (.sealComplete c e t) s = .next (u.sealed c e t (s.tile c e t) (s.sealImage e (s.tile c e t))) := by
  rw [exec, execSealComplete, live_of_powered hp]
  simp [hs, ha, hw]

/-- A tile that has been sealed leaves its slot FREE, its image among the channel's, and the stores as they were written. -/
theorem State.sealed_shows (s : State) (c : Ch) (e : SlotId) (n : Nat) (x : TileSlot) (i : TileImage) :
    ((s.sealed c e n x i).tile c e n).state = .free ∧ i ∈ ((s.sealed c e n x i).chan c).tileImages ∧
      s.sameStores (s.sealed c e n x i) := by
  refine ⟨?_, ?_, fun d => ((State.sealed_moves .refl c e n x i .refl : Moves ⟨false, _, _⟩ s _).stores d).same rfl⟩
  · rw [State.sealed, State.tile, State.engine, State.chan_congr (State.wake_chans ..), ← State.engine, ← State.tile,
      State.tile_freeTile_same]
  · rw [State.sealed, State.chan_congr (State.wake_chans ..), (State.freeTile_waiting ..).tileImages,
      State.chan_congr (State.bump_chans ..), State.chan_modChan, if_pos rfl]
    exact List.mem_append_right _ (List.mem_singleton_self i)

/-! ## Restores -/

theorem exec_tileRestoreStart (hp : s.dev.powered = true) (hi : s.awaitedImage c e = some (k, i))
    (hfree : (s.engine c e).freeSlot = some n) (hrun : s.engRuns c e = true) (hctx : s.ctxRuns k.ctx = true) :
    exec (.tileRestoreStart c e) s = .next
      (s.modTile c e n fun _ => { state := .restoring, ctx := k.ctx, name := k.name, space := i.space }) := by
  rw [exec, execTileRestoreStart, live_of_powered hp]
  simp [hi, hfree, hrun, hctx]

theorem exec_tileRestoreComplete (hp : s.dev.powered = true)
    (ht : ((s.engine c e).slots.find? fun t => t.2.state = .restoring && !s.stalled (.seal c e (Fin.ofNat 8 t.1))) =
      some (n, x)) (ha : s.arithOn c = true) (hi : ((s.chan c).tileImages.find? fun i => i.ofTile e x) = some i)
    {poisoned : Bool} (ho : s.openVa (sealAccess s c e n x) tileImageBytes = (u, true, poisoned)) (intact : Bool) :
    exec (.tileRestoreComplete c e intact) s =
      .next (u.restored c e n x i (intact && i.key = s.dev.sealKey && !poisoned)) := by
  rw [exec, execTileRestoreComplete, live_of_powered hp, ht]
  simp [ha, hi, ho]

/-- The images of a tile are discarded. -/
def State.dropImages (s : State) (c : Ch) (e : SlotId) (x : TileSlot) : State :=
  s.modChan c fun y => { y with tileImages := y.tileImages.filter fun j => !j.ofTile e x }

theorem State.dropImages_none (s : State) (c : Ch) (e : SlotId) (x : TileSlot) :
    ∀ j ∈ ((s.dropImages c e x).chan c).tileImages, j.ofTile e x = false := by
  intro j hj
  rw [State.dropImages, State.chan_modChan, if_pos rfl] at hj
  simpa using (List.mem_filter.mp hj).2

/-- A sound image brings its tile back. -/
theorem State.restored_sound (s : State) (c : Ch) (e : SlotId) (n : Nat) (x : TileSlot) (i : TileImage) :
    (s.restored c e n x i true).tile c e n = i.tile ∧
      ∀ j ∈ ((s.restored c e n x i true).chan c).tileImages, j.ofTile e x = false := by
  have back : s.restored c e n x i true = (s.dropImages c e x).modTile c e n fun _ => i.tile := by
    rw [State.restored]
    exact if_pos rfl
  rw [back]
  refine ⟨State.tile_modTile_same .., ?_⟩
  rw [State.modTile, (State.modEngine_tileImages ..).same]
  exact s.dropImages_none c e x

/-- An image that is not sound is gone, and so is its tile. -/
def State.dropRestored (s : State) (c : Ch) (e : SlotId) (n : Nat) (x : TileSlot) : State :=
  (s.dropImages c e x).modTile c e n fun _ => {}

/-- The command that waits for a tile that is gone breaks its chain, and comes to the front of its queue. -/
def State.breakRestored (s : State) (c : Ch) (e : SlotId) (i : TileImage) (k : EngCmd) : State :=
  (s.sendBreak c e k i.tile.tkind causeTileLost).modEngine c e fun g => { g with queue := k :: g.queue.erase k }

theorem State.restored_unsound (s : State) (c : Ch) (e : SlotId) (n : Nat) (x : TileSlot) (i : TileImage) :
    s.restored c e n x i false = ((s.engine c e).queue.find? (·.ofTile x)).elim (s.dropRestored c e n x) fun k =>
      ((s.dropRestored c e n x).breakRestored c e i k).dismiss c e k stTileLost := by
  have queue : ((s.dropRestored c e n x).engine c e).queue = (s.engine c e).queue := by
    rw [State.dropRestored, State.modTile, State.engine_modEngine_same, State.dropImages, State.engine, State.chan_modChan,
      if_pos rfl]
    rfl
  rw [← queue, State.restored, if_neg Bool.false_ne_true, ← State.dropImages, ← State.dropRestored]
  dsimp only
  cases ((s.dropRestored c e n x).engine c e).queue.find? (·.ofTile x) with
  | none => rfl
  | some k => rw [Option.elim_some, State.breakRestored]

theorem State.breakRestored_tileImages (s : State) (c : Ch) (e : SlotId) (i : TileImage) (k : EngCmd) :
    s.Keeps Channel.tileImages (s.breakRestored c e i k) :=
  (State.Keeps.ite (s.modEngine_tileImages c e _) .refl).trans (State.modEngine_tileImages _ c e _)

theorem State.breakRestored_ends {st : Nat} (s : State) (c : Ch) (e : SlotId) (i : TileImage) (k : EngCmd) :
    s.Ends st (s.breakRestored c e i k) := (s.sendBreak_ends c e k _ _).trans (State.modEngine_ends _ c e _)

theorem State.dropRestored_none (s : State) (c : Ch) (e : SlotId) (n : Nat) (x : TileSlot) :
    ∀ j ∈ ((s.dropRestored c e n x).chan c).tileImages, j.ofTile e x = false := by
  rw [State.dropRestored, State.modTile, (State.modEngine_tileImages ..).same]
  exact s.dropImages_none c e x

theorem State.dropRestored_ends {st : Nat} (s : State) (c : Ch) (e : SlotId) (n : Nat) (x : TileSlot) :
    s.Ends st (s.dropRestored c e n x) := by
  unfold State.dropRestored State.dropImages
  exact (s.modChan_ends c (.of_eq rfl rfl)).trans (State.modEngine_ends _ c e _)

/-- An image that is not sound is discarded, and the command that waits for its tile completes TILE_LOST. -/
theorem State.restored_lost (s : State) (c : Ch) (e : SlotId) (n : Nat) (x : TileSlot) (i : TileImage) :
    (∀ j ∈ ((s.restored c e n x i false).chan c).tileImages, j.ofTile e x = false) ∧
      ∀ k, ((s.engine c e).queue.find? (·.ofTile x)) = some k →
        CompletedWith s (s.restored c e n x i false) c k stTileLost := by
  have dropped := s.dropRestored_none c e n x
  rw [s.restored_unsound]
  cases (s.engine c e).queue.find? (·.ofTile x) with
  | none => exact ⟨dropped, fun _ h => nomatch h⟩
  | some q =>
    rw [Option.elim_some]
    refine ⟨?_, fun k h => ?_⟩
    · rw [State.dismiss_tileImages, (State.breakRestored_tileImages ..).same]
      exact dropped
    · obtain rfl := Option.some.inj h
      exact State.dismiss_completes ((s.dropRestored_ends c e n x).trans (State.breakRestored_ends ..)) c e

theorem State.openVa_chans {a : MemAccess} {m : Nat} {done poisoned : Bool} (h : s.openVa a m = (u, done, poisoned)) :
    u.chans = s.chans := by
  have opened : Moves ⟨false, [.out, .drawn, .msix, .xlat, .recorder],
      [.hmmu, .ctx, .rpl, .grm, .cmmu, .wst, .cvu, .hbmc, .ring, .eng, .door]⟩ s (s.openVa a m).1 :=
    State.openVa_moves .refl a m .refl
  rw [h] at opened
  exact opened.parts .chans (by decide)

theorem tileImages : Rules.TileImages := by
  intro c e s hp
  refine ⟨fun n u x hx hs ha hw => ?_, fun k i n hi hfree hrun hctx => ?_,
    fun n x i u poisoned ht ha hi ho => ⟨?_, ?_⟩⟩
  · subst hx
    exact ⟨_, exec_sealComplete hp hs ha hw, u.sealed_shows c e n _ _⟩
  · refine ⟨_, exec_tileRestoreStart hp hi hfree hrun hctx, ?_⟩
    have restoring := State.tile_modTile_same s c e n fun _ =>
      { state := .restoring, ctx := k.ctx, name := k.name, space := i.space }
    rw [restoring]
    refine ⟨rfl, rfl, rfl, rfl, ?_, fun d => ?_, rfl⟩
    · rw [State.modTile, State.engine_modEngine_same]
      rfl
    · exact ((State.modTile_moves .refl c e n _ .refl : Moves ⟨false, [.chans], []⟩ s _).stores d).same rfl
  · intro hsound hkey
    refine ⟨_, exec_tileRestoreComplete hp ht ha hi ho true, ?_⟩
    rw [show (true && decide (i.key = s.dev.sealKey) && !poisoned) = true by simp [hsound, hkey]]
    exact u.restored_sound c e n x i
  · refine ⟨_, exec_tileRestoreComplete hp ht ha hi ho false, ?_⟩
    have chans := State.openVa_chans ho
    have engine : u.engine c e = s.engine c e := congrArg (·.engine e.val) (State.chan_congr chans c)
    obtain ⟨hdropped, hlost⟩ := u.restored_lost c e n x i
    rw [engine] at hlost
    exact ⟨hdropped, fun k hk => completedWith_of_chans (hlost k hk) chans.symm rfl⟩

/-- Settles O36: what the head names decides the branch of its claim; a command that is dismissed completes before the
tiles that settle after it complete theirs; and no change of queues, runs and tiles touches the images. -/
theorem tileSlots : Obligations.TileSlots := ⟨tileClaims, tileImages⟩

end Sys2Proof.Machine
end

section
/-!
## What ends with the runs of a tile, and what a re-run puts in the queue (R127, R570, R590)
-/

namespace Sys2Proof.Machine

variable {s t : State}

/-- What stays of an engine while runs end and its queue changes: its tiles, its drain and its relay cell, among others. -/
def Engine.besideRuns (g : Engine) : Engine :=
  { g with
    queue := [], credit := ⟨0, 0⟩, runs := [], regA := {}, regB := {}, banks := [], bankWait := [], bindings := 0
    laneCredit := [], headers := [] }

/-- What the engines of a channel keep while runs end and their queues change. -/
def Channel.besideRuns (x : Channel) (e : Nat) : Engine := (x.engine e).besideRuns

theorem State.Keeps.engine_besideRuns (h : s.Keeps Channel.besideRuns t) (c e : Nat) :
    (t.engine c e).drain = (s.engine c e).drain ∧ ∀ n, t.tile c e n = s.tile c e n := by
  have same : (t.engine c e).besideRuns = (s.engine c e).besideRuns := congrFun (h.same c) e
  have tiles : (t.engine c e).tiles = (s.engine c e).tiles := (congrArg Engine.tiles same :)
  exact ⟨(congrArg Engine.drain same :), fun n => by rw [State.tile, State.tile, Engine.tile, Engine.tile, tiles]⟩

theorem State.modEngine_besideRuns (s : State) (c e : Nat) {f : Engine → Engine}
    (hf : ∀ g, (f g).besideRuns = g.besideRuns := by intros; rfl) : s.Keeps Channel.besideRuns (s.modEngine c e f) :=
  s.modChan_keeps c fun x => Tab.view_set Engine.besideRuns x.engines e (hf _)

theorem State.startRebuild_besideRuns (s : State) (c e n uid : Nat) (d : Group) :
    s.Keeps Channel.besideRuns (s.startRebuild c e n uid d) := by
  have shown : Moves ⟨false, [], [.eng]⟩ s
      ((s.showBank c (s.enginesFor c e uid) n d 0 1 0).bumpAll c (s.enginesFor c e uid) Reg.engLnsCnt_REBUILDS) :=
    State.bumpAll_moves (State.showBank_moves .refl c _ n d 0 1 0 .refl) c _ _ .refl
  unfold State.startRebuild
  exact (State.Keeps.of_chans (shown.parts .chans (by decide))).trans (State.modEngine_besideRuns _ c e)

theorem State.bindTo_besideRuns (s : State) (c e n uid : Nat) : s.Keeps Channel.besideRuns (s.bindTo c e n uid) :=
  (s.modEngine_besideRuns c e).trans (State.wrAll_keeps ..)

theorem State.unbind_besideRuns (s : State) (c e uid : Nat) : s.Keeps Channel.besideRuns (s.unbind c e uid) := by
  refine (s.modEngine_besideRuns c e).fold fun u n _ => ?_
  have released := u.modEngine_besideRuns c e (f := fun g =>
    { g with banks := Tab.set g.banks n { g.bank n with bound := ((u.engine c e).bank n).bound.erase uid } })
  dsimp only
  split
  · split
    · split
      · exact ((released.trans (State.modEngine_besideRuns _ c e)).trans (State.startRebuild_besideRuns ..)).trans
          (State.bindTo_besideRuns ..)
      · exact released.trans (State.wrAll_keeps ..)
    · exact released
  · exact .refl

theorem State.sweep_besideRuns (s : State) (c e : Nat) : s.Keeps Channel.besideRuns (s.sweep c e) := by
  have swept := s.modEngine_besideRuns c e (f := Engine.swept)
  rcases s.sweep_cases c e with h | h <;> rw [h]
  · exact swept.trans (State.wrAll_keeps ..)
  · exact swept

theorem Engine.freeLanes_besideRuns (g : Engine) (r : EngRun) : (g.freeLanes r).besideRuns = g.besideRuns := by
  unfold Engine.freeLanes
  split
  · exact foldl_keeps (P := fun h : Engine => h.besideRuns = g.besideRuns)
      (f := fun g (l : Nat × LaneProg) => g.setLaneCredit l.1 fun k => k.free l.2.buf.length) (fun _ _ _ h => h) rfl
  · rfl

theorem State.dropRuns_besideRuns (s : State) (c e n : Nat) : s.Keeps Channel.besideRuns (s.dropRuns c e n) := by
  refine State.Keeps.trans (State.Keeps.trans (State.Keeps.refl.fold fun u r _ => ?_) (State.modEngine_besideRuns _ c e))
    (State.sweep_besideRuns _ c e)
  have freed (u : State) : u.Keeps Channel.besideRuns (u.freeEntry c e r.cmd) := .ite .refl (u.modEngine_besideRuns c e)
  exact ((u.unbind_besideRuns c e _).trans (freed _)).trans
    (State.modEngine_besideRuns _ c e fun g => g.freeLanes_besideRuns r)

/-! ## Repetitions (R590) -/

/-- A command repeats another one: it is marked as a repetition, and it names the same engine command. -/
def EngCmd.RepeatOf (q k : EngCmd) : Prop := q.again = true ∧ q.num = k.num ∧ q.idx = k.idx

theorem exists_repeat (uid : Nat) {ks : List EngCmd} {k : EngCmd} (hk : k ∈ ks) :
    ∃ q ∈ repeats uid ks, q.RepeatOf k := by
  obtain ⟨i, hi⟩ := List.mem_iff_getElem?.mp hk
  exact ⟨_, List.mem_map_of_mem (List.mk_mem_zipIdx_iff_getElem?.mpr hi), rfl, rfl, rfl⟩

/-- Putting the slices of a queue in order leaves what its commands repeat. -/
theorem exists_repeat_orderQueue {ks : List EngCmd} {k q : EngCmd} (hq : q ∈ ks) (h : q.RepeatOf k)
    (prev : Option (Nat × Nat × Bool)) : ∃ p ∈ orderQueue prev ks, p.RepeatOf k := by
  induction ks generalizing prev with
  | nil => cases hq
  | cons j ks ih =>
    unfold orderQueue
    rcases List.mem_cons.mp hq with rfl | hq
    · split
      · exact ⟨_, List.mem_cons_self, h⟩
      · exact ⟨_, List.mem_cons_self, h⟩
    · split
      · obtain ⟨p, hp, hr⟩ := ih hq (some (j.num, j.rt, _))
        exact ⟨p, List.mem_cons_of_mem _ hp, hr⟩
      · obtain ⟨p, hp, hr⟩ := ih hq _
        exact ⟨p, List.mem_cons_of_mem _ hp, hr⟩

theorem State.queueRepeats_besideRuns (s : State) (c e : Nat) (ks : List EngCmd) :
    s.Keeps Channel.besideRuns (s.queueRepeats c e ks true) :=
  ((s.modChan_keeps c).trans (State.modEngine_besideRuns _ c e)).trans (State.sweep_besideRuns ..)

theorem State.queueRepeats_queue (s : State) (c e : Nat) {ks : List EngCmd} {k : EngCmd} (hk : k ∈ ks) :
    ∃ q ∈ ((s.queueRepeats c e ks true).engine c e).queue, q.RepeatOf k := by
  obtain ⟨q, hq, hr⟩ := exists_repeat (s.chan c).nextUid hk
  rw [State.queueRepeats, State.engine_sweep, State.engine_modEngine_same]
  exact exists_repeat_orderQueue (List.mem_append_left _ hq) hr _

/-- A tile that re-runs on its own engine is HELD at its fresh-claim values, what runs again waits in the queue, and the
drain path stays as it was (R590). -/
theorem State.rerunHere_shows (s : State) (c e n : Nat) (hr : (s.tile c e n).rerunnable = true) :
    ((s.rerunHere c e n).engine c e).drain = (s.engine c e).drain ∧
      (s.rerunHere c e n).tile c e n = { (s.tile c e n).afresh with state := .held } ∧
      ∀ k ∈ (s.tile c e n).list, ∃ q ∈ ((s.rerunHere c e n).engine c e).queue, q.RepeatOf k := by
  have dropped : s.Keeps Channel.besideRuns ((s.dropRepeats c e (s.tile c e n)).dropRuns c e n) :=
    (s.modEngine_besideRuns c e).trans (State.dropRuns_besideRuns ..)
  have queued := State.queueRepeats_besideRuns (((s.dropRepeats c e (s.tile c e n)).dropRuns c e n).modTile c e n fun x =>
    { x.afresh with state := .held }) c e (s.tile c e n).redo
  obtain ⟨hdrain, htile⟩ := dropped.engine_besideRuns c e
  obtain ⟨hdrain', htile'⟩ := queued.engine_besideRuns c e
  rw [State.rerunHere]
  dsimp only
  rw [if_pos hr]
  refine ⟨?_, ?_, fun k hk => State.queueRepeats_queue _ c e (List.mem_append_left _ hk)⟩
  · rw [hdrain', State.modTile, State.engine_modEngine_same, ← hdrain]
    rfl
  · rw [htile', State.tile_modTile_same, htile]

end Sys2Proof.Machine
end

section
/-!
## The drain path (R193, R201, R228 to R230, R254, R570, R585, R588)
-/

namespace Sys2Proof.Machine

variable {s t u : State} {c : Ch} {e : SlotId} {d : Drain} {x : TileSlot} {geo : EngCmd}

/-- A command of a scope without stores leaves them. -/
theorem exec_sameStores {i : Instr} (h : exec i s = .next t) (hi : (scopeOf i).stores = false) : s.sameStores t :=
  fun c => (((exec_moves i s).get t h).stores c).same hi

/-! ## The start of a drain -/

/-- An engine whose drain path takes a tile with its last command (R228). -/
def Engine.startDrain (g : Engine) (n : Nat) (x : TileSlot) (k geo : EngCmd) (ps : Option RowParams) : Engine :=
  { ({ g with params := ps }.setTile n { x with resume := none } : Engine) with
    drain := some { x.resume.getD { slot := n, cmd := k } with
      slot := n, cmd := k, paramsHeld := ({ g with params := ps } : Engine).holdsParams k geo } }

/-- The drain path has taken a tile; a drain that a save interrupted holds no parameters (R228, R254). -/
def State.startDrain (s : State) (c : Ch) (e : SlotId) (n : Nat) (k geo : EngCmd) : State :=
  s.modEngine c e fun g =>
    g.startDrain n (s.tile c e n) k geo (if (s.tile c e n).resume.isSome then none else g.params)

theorem exec_drainStart {n : Nat} {k : EngCmd} (hp : s.dev.powered = true) (hd : (s.engine c e).drain = none)
    (hf : ((s.engine c e).drains.find? fun m => s.ctxRuns (s.tile c e m).ctx && !(s.tile c e m).paused) = some n)
    (hl : (s.tile c e n).last = some k) (hg : (s.tile c e n).geo = some geo) (hr : s.engRuns c e = true)
    (hs : (s.tile c e n).state = .draining) (hpr : (s.tile c e n).promoting = []) :
    exec (.drainStart c e) s = .next (s.startDrain c e n k geo) := by
  rw [exec, execDrainStart, live_of_powered hp]
  refine congrArg _ ?_
  dsimp only
  split
  · next m _ hm =>
    obtain rfl : m = n := Option.some.inj (hm.symm.trans hf)
    split
    · next k' geo' hl' hg' =>
      obtain rfl : k' = k := Option.some.inj (hl'.symm.trans hl)
      obtain rfl : geo' = geo := Option.some.inj (hg'.symm.trans hg)
      rw [if_pos (by rw [State.tile] at hs hpr; simp [hr, hs, hpr])]
      rfl
    · next no => exact absurd hg (no _ _ hl)
  · next no => exact absurd hf (no _ hd)

theorem State.engine_startDrain (s : State) (c : Ch) (e : SlotId) (n : Nat) (k geo : EngCmd) :
    (s.startDrain c e n k geo).engine c e = (s.engine c e).startDrain n (s.tile c e n) k geo
      (if (s.tile c e n).resume.isSome then none else (s.engine c e).params) := State.engine_modEngine_same ..

theorem State.tile_startDrain (s : State) (c : Ch) (e : SlotId) (n : Nat) (k geo : EngCmd) :
    (s.startDrain c e n k geo).tile c e n = { s.tile c e n with resume := none } := by
  rw [State.tile, State.engine_startDrain, Engine.startDrain, Engine.tile, Engine.setTile, Tab.get_set_same]

/-- What the return of a drain's parameters does with them (R230, R585). -/
def State.takeParams (s : State) (c : Ch) (e : SlotId) (d : Drain) (geo : EngCmd) (o : ReadOut) : State :=
  if o.poisoned then s.tileLost c e d.slot
  else s.modEngine c e fun g => { g with
    drain := some { d with paramsHeld := true }
    params := some { addr := oPaddr d.cmd.descs, rt := geo.rt, records := paramRecords o.bytes } }

theorem exec_rowParamFetchReturn {ext : List Byte} {o : ReadOut} (h : DrainUnderWay s c e d x geo)
    (hh : d.paramsHeld = false)
    (hr : s.readVa { drainAccess c e d.cmd with va := oPaddr d.cmd.descs + 4096 * geo.rt } hbmData 4096 ext = (u, o))
    (hdone : o.done = true) :
    exec (.rowParamFetchReturn c e ext) s = .next (u.takeParams c e d geo o) := by
  obtain ⟨hp, hd, rfl, hg, hrun, hctx⟩ := h
  rw [exec, execRowParamFetchReturn, live_of_powered hp]
  simp [hd, hg, hrun, hctx, hh, hr, hdone, State.takeParams]

theorem State.tileLost_free (s : State) (c e n : Nat) : ((s.tileLost c e n).tile c e n).state = .free := by
  rw [State.tileLost, State.tile, State.engine, State.chan_congr (State.persistent_chans ..), State.metPoison,
    State.chan_congr (State.logOut_chans ..), ← State.engine, ← State.tile]
  unfold State.loseTile
  dsimp only
  rw [State.tile_freeTile_same]

theorem drainStart : Rules.DrainStart := by
  intro c e s
  refine ⟨fun n x k geo ps hp hd hf hx hl hg hr hps hs hpr => ?_, fun d x geo ext u o h hh hr hdone => ?_⟩
  · subst hx hps
    refine ⟨_, exec_drainStart hp hd hf hl hg hr hs hpr, ?_, ?_, s.tile_startDrain c e n k geo, rfl⟩
    · rw [State.engine_startDrain]
      rfl
    · rw [State.engine_startDrain]
      rfl
  · have ran := exec_rowParamFetchReturn h hh hr hdone
    refine ⟨_, ran, exec_sameStores ran rfl, fun hp => ?_, fun hp => ?_⟩
    · rw [State.takeParams, if_neg (by simp [hp]), State.engine_modEngine_same]
      exact ⟨rfl, rfl⟩
    · rw [State.takeParams, if_pos hp, State.tileLost_free]

/-! ## Blocks -/

/-- The next block of a drain may leave the accumulators (R193, R229). -/
structure State.BlockDue (s : State) (c : Ch) (e : SlotId) (d : Drain) (x : TileSlot) (geo : EngCmd) : Prop where
  drain : DrainUnderWay s c e d x geo
  records : s.mayRecord c = true
  more : d.block < 8
  held : d.paramsHeld = true
  room : if sendsPartial d.cmd then (s.engine c e).relay.occ < 2
    else d.pipe = [] ∧ (s.engine c e).output = [] ∧ 0 < (s.engine c e).drainCredit.held

/-- The drain has put its next block into the relay cell, or into the epilogue (R195, R229). -/
def State.blockOut (s : State) (c : Ch) (e : SlotId) (d : Drain) (x : TileSlot) (geo : EngCmd) : State :=
  if sendsPartial d.cmd then
    (s.sendBlock c e d.slot d.block d.cmd x geo).modEngine c e fun g =>
      { g with drain := some { d with block := d.block + 1 } }
  else
    s.modEngine c e fun g => { g with
      drain := some { d with
        block := d.block + 1, pipe := d.pipe ++ [(d.block, x.blockElements geo d.block)] }
      drainCredit := { g.drainCredit with held := g.drainCredit.held - 1 } }

theorem State.arbitrate_of_noRival {c e n j : Nat} (h : (s.tile c e n).rival = none) : s.arbitrate c e n j = s := by
  unfold State.arbitrate
  simp only [h]

theorem State.tile_active (s : State) (ctx c e n : Nat) : (s.active ctx).tile c e n = s.tile c e n := by
  rw [State.tile, State.engine, State.chan_congr (State.active_chans ..)]
  rfl

/-- A block on which the engines of a pair agree leaves the accumulators, once an arbiter has been heard (R588). -/
def State.agreedBlock (s : State) (c : Ch) (e : SlotId) (d : Drain) (x : TileSlot) (geo : EngCmd) : State :=
  let u := (s.active x.ctx).arbitrate c e d.slot d.block
  if (u.tile c e d.slot).state ≠ .draining then u else u.blockOut c e d x geo

theorem State.agreedBlock_draining (hx : x = s.tile c e d.slot) (hs : x.state = .draining) (hv : x.rival = none)
    (geo : EngCmd) : s.agreedBlock c e d x geo = (s.active x.ctx).blockOut c e d x geo := by
  have tile : (s.active x.ctx).tile c e d.slot = x := by rw [State.tile_active, hx]
  rw [State.agreedBlock, State.arbitrate_of_noRival (by rw [tile, hv])]
  exact if_neg (by rw [tile, hs]; exact not_not_intro rfl)

/-- A block that is due leaves the accumulators, but where the engines of a pair differ the drain is given up. -/
theorem exec_drainBlockRead (h : s.BlockDue c e d x geo) (differs : Bool) :
    exec (.drainBlockRead c e differs) s =
      .next (if (differs || x.mismatch != x.mateMismatch) && x.mirrored && (s.engine c e).paired then
          s.pairMismatch c e d.slot d.block
        else s.agreedBlock c e d x geo) := by
  obtain ⟨⟨hp, hd, rfl, hg, hrun, hctx⟩, hm, hb, hh, hroom⟩ := h
  have room : (if sendsPartial d.cmd then decide ((s.engine c e).relay.occ < 2)
      else d.pipe.isEmpty && (s.engine c e).output.isEmpty && decide (0 < (s.engine c e).drainCredit.held)) = true := by
    revert hroom
    split <;> simp +contextual
  rw [State.tile] at hg hctx
  rw [exec, execDrainBlockRead, live_of_powered hp, if_pos hm]
  refine congrArg _ ?_
  unfold State.drainBlock
  dsimp only
  rw [hd]
  dsimp only
  split
  · next no => exact absurd (no.symm.trans hg) nofun
  · next geo' hg' =>
    obtain rfl : geo' = geo := Option.some.inj (hg'.symm.trans hg)
    rw [if_neg (by rw [hrun, hctx, hh, room]; simpa using hb)]
    rfl

/-! ## A block on which a pair agrees -/

theorem State.epoch_active (s : State) (ctx c e : Nat) : (s.active ctx).epoch c e = s.epoch c e :=
  (s.active_sameWords ctx).rd (by simp [engPage]) _

theorem State.tileHeader_active (s : State) (ctx c e : Nat) (k : EngCmd) (x : TileSlot) (geo : EngCmd) (j : Nat) :
    tileHeader (s.active ctx) c e k x geo j = tileHeader s c e k x geo j := by
  simp only [tileHeader, linkHeader, State.epoch_active]

theorem State.engine_active (s : State) (ctx c e : Nat) : (s.active ctx).engine c e = s.engine c e :=
  congrArg (Channel.engine · e) (State.chan_congr (s.active_chans ctx) c)

theorem State.drawn_active (s : State) (ctx : Nat) : (s.active ctx).drawn = s.drawn :=
  (State.active_moves .refl ctx .refl : Moves ⟨false, [], [.ctx]⟩ s _).parts .drawn (by decide)

/-- A block that enters the epilogue takes a credit, and the drain goes on to the next (R229). -/
theorem State.blockOut_epilogue (hk : sendsPartial d.cmd = false) (ctx : Nat) :
    ((s.active ctx).blockOut c e d x geo).engine c e = { s.engine c e with
      drain := some { d with block := d.block + 1, pipe := d.pipe ++ [(d.block, x.blockElements geo d.block)] }
      drainCredit := { (s.engine c e).drainCredit with held := (s.engine c e).drainCredit.held - 1 } } := by
  rw [State.blockOut, if_neg (by simp [hk]), State.engine_modEngine_same, State.engine_active]

theorem State.engine_drawMany (s : State) (n c e : Nat) : (s.drawMany n).engine c e = s.engine c e := rfl

theorem State.engine_sendBlock (s : State) (c e n j : Nat) (k : EngCmd) (x : TileSlot) (geo : EngCmd) :
    (s.sendBlock c e n j k x geo).engine c e = { s.engine c e with
      relay := { (s.engine c e).relay with
        sending := (s.engine c e).relay.sending ++
          [{ block := { hdr := tileHeader s c e k x geo j, values := x.partial s.drawn geo j }
             next := tNext k.descs, tile := some n }] } } := by
  rw [State.sendBlock, State.engine_drawMany, State.relaySend, State.engine_modEngine_same]

/-- A block of a partial joins the relay cell's queue, and the drain goes on to the next (R195, R201). -/
theorem State.blockOut_relay (hk : sendsPartial d.cmd = true) (ctx : Nat) :
    ((s.active ctx).blockOut c e d x geo).engine c e = { s.engine c e with
      drain := some { d with block := d.block + 1 }
      relay := { (s.engine c e).relay with
        sending := (s.engine c e).relay.sending ++
          [{ block := { hdr := tileHeader s c e d.cmd x geo d.block, values := x.partial s.drawn geo d.block }
             next := tNext d.cmd.descs, tile := some d.slot }] } } := by
  rw [State.blockOut, if_pos hk, State.engine_modEngine_same, State.engine_sendBlock, State.engine_active,
    State.tileHeader_active, State.drawn_active]

theorem drainBlocks : Rules.DrainBlocks := by
  intro c e differs s d x geo h hm hs hv hb hh hdiff
  have agree : ¬ ((differs || x.mismatch != x.mateMismatch) && x.mirrored && (s.engine c e).paired) = true := by
    rcases hdiff with ⟨h1, h2⟩ | h1 | h1
    · simp [h1, h2]
    · simp [h1]
    · simp [h1]
  obtain ⟨-, -, hx, -⟩ := id h
  have agreed := State.agreedBlock_draining hx hs hv geo
  refine ⟨fun hk hpipe hout hcr => ?_, fun hk hocc => ?_⟩
  · have ran := exec_drainBlockRead ⟨h, hm, hb, hh, by simp [hk, hpipe, hout, hcr]⟩ differs
    rw [if_neg agree, agreed] at ran
    have engine := State.blockOut_epilogue (s := s) (c := c) (e := e) (x := x) (geo := geo) hk x.ctx
    refine ⟨_, ran, ?_, ?_, ?_, exec_sameStores ran rfl⟩
    · rw [engine, hpipe]
      rfl
    · rw [engine]
    · rw [State.tile, engine, hx]
      rfl
  · have ran := exec_drainBlockRead ⟨h, hm, hb, hh, by simp [hk, hocc]⟩ differs
    rw [if_neg agree, agreed] at ran
    have engine := State.blockOut_relay (s := s) (c := c) (e := e) (x := x) (geo := geo) hk x.ctx
    refine ⟨_, ran, ?_, ?_, ?_, exec_sameStores ran rfl⟩
    · rw [engine]
    · rw [State.tile, engine, hx]
      rfl
    · rw [engine]

/-! ## A block on which a pair differs (R570, R588) -/

/-- A pair mismatch has been counted and recorded. -/
def State.countMismatch (s : State) (c e n : Nat) : State :=
  (s.bump .pwr Reg.pwrCnt_PAIR_MISMATCH).logOut c 0x01 (e + (s.tile c e n).name * 2 ^ 8)

/-- The drain of a tile has been given up at its first pair mismatch in a row. -/
def State.giveUp (s : State) (c e n : Nat) : State :=
  ((s.countMismatch c e n).holdDrain c e n).modTile c e n fun x => { x with pairTimes := 1 }

theorem State.pairMismatch_first {c e n : Nat} (hr : s.replayOn c = false) (h : (s.tile c e n).pairTimes = 0) (j : Nat) :
    s.pairMismatch c e n j = (s.giveUp c e n).rerunHere c e n := by
  unfold State.pairMismatch
  dsimp only
  rw [if_neg (by simp [hr]), if_pos h]
  rfl

theorem State.engine_countMismatch (s : State) (c e n : Nat) : (s.countMismatch c e n).engine c e = s.engine c e :=
  congrArg (Channel.engine · e)
    (State.chan_congr (by rw [State.countMismatch, State.logOut_chans, State.bump_chans]) c)

theorem State.giveUp_shows (s : State) (c e n : Nat) : ((s.giveUp c e n).engine c e).drain = none ∧
    (s.giveUp c e n).tile c e n = { s.tile c e n with
      state := .held, mismatch := true, resume := none, accepted := 0, pairTimes := 1 } := by
  have tile : ((s.countMismatch c e n).holdDrain c e n).tile c e n = { s.tile c e n with
      state := .held, mismatch := true, resume := none, accepted := 0 } := by
    rw [State.holdDrain, State.tile, State.engine_modEngine_same, State.engine_countMismatch, Engine.tile, Engine.setTile,
      Tab.get_set_same]
    rfl
  refine ⟨?_, ?_⟩
  · rw [State.giveUp, State.modTile, State.engine_modEngine_same, Engine.setTile, State.holdDrain, State.engine_modEngine_same]
  · rw [State.giveUp, State.tile_modTile_same, tile]

theorem State.giveUp_counts (s : State) (c e n : Nat) : (s.giveUp c e n).rd .pwr Reg.pwrCnt_PAIR_MISMATCH =
    min (s.rd .pwr Reg.pwrCnt_PAIR_MISMATCH + 1) (2 ^ Reg.pwrCnt_PAIR_MISMATCH.w - 1) := by
  have counted : (s.countMismatch c e n).rd .pwr Reg.pwrCnt_PAIR_MISMATCH =
      (s.bump .pwr Reg.pwrCnt_PAIR_MISMATCH).rd .pwr Reg.pwrCnt_PAIR_MISMATCH := State.rd_logOut_page _ (by decide)
  rw [← State.rd_bump_same s .pwr 1 (by decide), ← counted]
  exact State.rd_congr rfl _ _

theorem pairMismatch : Rules.PairMismatch := by
  intro c e s d x geo h hm hrep hb hh hroom hmir hpair htimes hre
  obtain ⟨-, -, rfl, -⟩ := id h
  have ran := exec_drainBlockRead ⟨h, hm, hb, hh, hroom⟩ true
  rw [if_pos (by simp [hmir, hpair]), State.pairMismatch_first hrep htimes] at ran
  obtain ⟨hdrain, htile⟩ := s.giveUp_shows c e d.slot
  obtain ⟨hdrain', htile', hqueue⟩ := (s.giveUp c e d.slot).rerunHere_shows c e d.slot (by rw [htile, hre])
  have counted := ((State.rerunHere_moves .refl c e d.slot .refl : Moves ⟨false, _, _⟩ (s.giveUp c e d.slot) _).rd_eq
    (q := .pwr) (by decide) Reg.pwrCnt_PAIR_MISMATCH).trans (s.giveUp_counts c e d.slot)
  rw [htile] at hqueue
  refine ⟨_, ran, counted, hdrain'.trans hdrain, ?_, ?_, hqueue, exec_sameStores ran rfl⟩
  · rw [htile']
  · rw [htile']
    rfl

/-- Settles O40: the drain path takes a tile by one change of its engine, a block leaves by one change of it, and a tile
on which a pair differs re-runs after its drain is given up. -/
theorem drains : Obligations.Drains := ⟨drainStart, drainBlocks, pairMismatch⟩

end Sys2Proof.Machine
end

section
/-!
## Tandem blocks from hop to hop (R190, R194, R201 to R203, R515, R530, R599, R668)
-/

namespace Sys2Proof.Machine

variable {s t : State} {c : Ch} {e : SlotId} {m : Moving} {ms : List Moving}

theorem State.chan_modEngine_same (s : State) (c e : Nat) (f : Engine → Engine) :
    (s.modEngine c e f).chan c = { s.chan c with engines := Tab.set (s.chan c).engines e (f (s.engine c e)) } := by
  rw [State.modEngine, State.chan_modChan, if_pos rfl]
  rfl

theorem State.Keeps.engine (h : s.Keeps Channel.engines t) (c e : Nat) : t.engine c e = s.engine c e := by
  rw [State.engine, Channel.engine, h.same c]
  rfl

/-! ## Out of a relay cell -/

/-- A block leaves the relay cell for the ingress of its own channel (R202). -/
def State.relayLocal (s : State) (c e : Nat) (m : Moving) (ms : List Moving) : State :=
  let r := (s.engine c e).relay
  let k := (r.credit m.block.hdr.cls).take
  let m' : Moving := { Moving.leaving s c e m with backed := k.2 }
  (s.modEngine c e fun g => { g with relay := { r with
    sending := ms, sent := r.sent ++ [m'], credits := Tab.set r.credits m.block.hdr.cls k.1 } }).modChan c fun y =>
      { y with ingress := y.ingress ++ [m'] }

/-- A block leaves the relay cell for the hub (R202). -/
def State.relayUp (s : State) (c e : Nat) (m : Moving) (ms : List Moving) : State :=
  let r := (s.engine c e).relay
  ((s.modEngine c e fun g => { g with relay := { r with
    sending := ms, sent := r.sent ++ [Moving.leaving s c e m] } }).modChan c fun y =>
      { y with up := Tab.set y.up m.block.hdr.cls ((s.chan c).upCredit m.block.hdr.cls).take.1 }).outOfCh c
        (.block (Moving.leaving s c e m))

theorem State.relayOut_first {c e : Nat} (hs : (s.engine c e).relay.sending = m :: ms) (hm : s.mayRelay c e m = true) :
    s.relayOut c e = if m.localTo c then s.relayLocal c e m ms else s.relayUp c e m ms := by
  have first : (s.engine c e).relay.sending.find? (s.mayRelay c e) = some m := by
    rw [hs, List.find?_cons_of_pos hm]
  have left : (s.engine c e).relay.sending.erase m = ms := by rw [hs, List.erase_cons_head]
  unfold State.relayOut
  simp only [first, left]
  rfl

theorem State.relayLocal_shows (s : State) (c e : Nat) (m : Moving) (ms : List Moving) :
    ∃ b, ((s.relayLocal c e m ms).engine c e).relay.sending = ms ∧
      ((s.relayLocal c e m ms).engine c e).relay.sent =
        (s.engine c e).relay.sent ++ [{ Moving.leaving s c e m with backed := b }] ∧
      ((s.relayLocal c e m ms).chan c).ingress = (s.chan c).ingress ++ [{ Moving.leaving s c e m with backed := b }] ∧
      (((s.relayLocal c e m ms).engine c e).relay.credit m.block.hdr.cls).held =
        ((s.engine c e).relay.credit m.block.hdr.cls).held - 1 := by
  have relay : ((s.relayLocal c e m ms).engine c e).relay = { (s.engine c e).relay with
      sending := ms
      sent := (s.engine c e).relay.sent ++
        [{ Moving.leaving s c e m with backed := ((s.engine c e).relay.credit m.block.hdr.cls).take.2 }]
      credits := Tab.set (s.engine c e).relay.credits m.block.hdr.cls
        ((s.engine c e).relay.credit m.block.hdr.cls).take.1 } := by
    rw [State.relayLocal, State.Keeps.engine (State.modChan_keeps _ c), State.engine_modEngine_same]
  refine ⟨((s.engine c e).relay.credit m.block.hdr.cls).take.2, by rw [relay], by rw [relay], ?_, ?_⟩
  · rw [State.relayLocal, State.chan_modChan, if_pos rfl, State.chan_modEngine_same]
  · rw [relay, Relay.credit, Tab.get_set_same]
    rfl

theorem State.relayUp_shows (s : State) (c e : Nat) (m : Moving) (ms : List Moving) :
    ((s.relayUp c e m ms).engine c e).relay.sending = ms ∧
      ((s.relayUp c e m ms).engine c e).relay.sent = (s.engine c e).relay.sent ++ [Moving.leaving s c e m] ∧
      ((s.relayUp c e m ms).chan c).fromCh.entries.map (·.1) =
        (s.chan c).fromCh.entries.map (·.1) ++ [.block (Moving.leaving s c e m)] ∧
      (((s.relayUp c e m ms).chan c).upCredit m.block.hdr.cls).held = ((s.chan c).upCredit m.block.hdr.cls).held - 1 := by
  rw [State.relayUp, State.outOfCh, State.Keeps.engine (State.modChan_keeps _ c),
    State.Keeps.engine (State.modChan_keeps _ c), State.engine_modEngine_same, State.chan_modChan, if_pos rfl, State.chan_modChan, if_pos rfl,
    State.chan_modEngine_same, CrossQueue.push, List.map_append]
  refine ⟨rfl, rfl, rfl, ?_⟩
  rw [Channel.upCredit, Tab.get_set_same]
  rfl

theorem relaySends (hp : s.dev.powered = true) (hrun : s.engRuns c e = true)
    (hs : (s.engine c e).relay.sending = m :: ms) (hm : s.mayRelay c e m = true) :
    exec (.tandemBlockSend (.relay c e)) s =
      .next (if m.localTo c then s.relayLocal c e m ms else s.relayUp c e m ms) := by
  rw [exec, execTandemBlockSend, live_of_powered hp, ← State.relayOut_first hs hm]
  exact congrArg _ (if_pos hrun)

/-! ## Into a channel -/

theorem State.hubToCh_ready {d : Nat} (hr : s.isReady d = true) (m : Moving) :
    (((s.hubToCh d m).chan d).downCredit m.block.hdr.cls).held = ((s.chan d).downCredit m.block.hdr.cls).held - 1 ∧
      ∃ b, ((s.hubToCh d m).chan d).toCh.entries.map (·.1) =
        (s.chan d).toCh.entries.map (·.1) ++ [.block { m with backed := b }] := by
  rw [State.hubToCh]
  dsimp only
  rw [if_neg (by simp [hr]), State.intoCh, State.chan_modChan, if_pos rfl, State.chan_modChan, if_pos rfl]
  refine ⟨?_, ((s.chan d).downCredit m.block.hdr.cls).take.2, ?_⟩
  · rw [Channel.downCredit, Tab.get_set_same]
    rfl
  · rw [CrossQueue.push, List.map_append]
    rfl

theorem State.hubToCh_notReady {d : Nat} (hr : s.isReady d = false) (m : Moving) : s.hubToCh d m = s :=
  if_pos (by simp [hr])

theorem State.hubToCh_ports (s : State) (d : Nat) (m : Moving) : (s.hubToCh d m).ports = s.ports := by
  unfold State.hubToCh
  dsimp only
  split
  · rfl
  · rfl

/-! ## Out of the hub switch -/

/-- A channel's blocks at the hub switch, and its credits towards it. -/
def Channel.upLink (x : Channel) : List Moving × Tab HopCredit := (x.switch, x.up)

/-- A channel's entries from the hub, and the hub's credits towards it. -/
def Channel.downLink (x : Channel) : CrossQueue × Tab HopCredit := (x.toCh, x.down)

/-- A block leaves the hub switch, and the credit of its link returns (R202). -/
def State.leaveSwitch (s : State) (c : Nat) (m : Moving) : State :=
  (s.modChan c fun y => { y with switch := y.switch.erase m }).oweUp c m.block.hdr.cls

/-- Where a block goes that has left the hub switch: a ghost's is dropped (R530, R599). -/
def State.passHub (s : State) (m : Moving) : State :=
  if s.staleBlock m.block then s.ghostDrop m.block.hdr.sch m.block.hdr.sslot
  else if m.next = 16 then s.hubToCh m.block.hdr.dch m
  else s.toEgress m.next (1 + m.block.hdr.cls) { body := .block m.block, bytes := blockSize m.block }

theorem exec_hubFromCh (hp : s.dev.powered = true) (hs : (s.chan c).switch = m :: ms) (hr : s.replayHolds c = false)
    (hm : s.maySwitch m = true) :
    exec (.tandemBlockSend (.hubFromCh c)) s = .next ((s.leaveSwitch c m).passHub m) := by
  have first : ((s.chan c).switch.find? fun m => s.staleBlock m.block || s.replayHolds c || s.maySwitch m) = some m := by
    rw [hs, List.find?_cons_of_pos (by simp [hm])]
  rw [exec, execTandemBlockSend, live_of_powered hp, State.switchOut]
  simp only [first]
  rw [hr]
  rfl

theorem State.leaveSwitch_upLink {c : Nat} (hs : (s.chan c).switch = m :: ms) :
    ((s.leaveSwitch c m).chan c).switch = ms ∧
      (((s.leaveSwitch c m).chan c).upCredit m.block.hdr.cls).owed = ((s.chan c).upCredit m.block.hdr.cls).owed + 1 := by
  rw [State.leaveSwitch, State.oweUp, State.chan_modChan, if_pos rfl, State.chan_modChan, if_pos rfl]
  refine ⟨?_, ?_⟩
  · dsimp only
    rw [hs, List.erase_cons_head]
  · rw [Channel.upCredit, Tab.get_set_same]
    rfl

theorem State.leaveSwitch_downLink (s : State) (c : Nat) (m : Moving) :
    s.Keeps Channel.downLink (s.leaveSwitch c m) := by
  unfold State.leaveSwitch State.oweUp
  exact (s.modChan_keeps c).trans (State.modChan_keeps _ c)

theorem State.ghostDrop_chans (s : State) (c e : Nat) : (s.ghostDrop c e).chans = s.chans := by
  rw [State.ghostDrop, State.raise_chans, State.bump_chans, State.bump_chans]

theorem State.passHub_upLink (s : State) (m : Moving) : s.Keeps Channel.upLink (s.passHub m) :=
  .ite (.of_chans (State.ghostDrop_chans ..))
    (.ite (.ite .refl ((s.modChan_keeps _).trans (State.modChan_keeps _ _))) (.of_chans rfl))

theorem hubSends {d : Nat} (hp : s.dev.powered = true) (hs : (s.chan c).switch = m :: ms) (hd : d = m.block.hdr.dch)
    (hr : s.replayHolds c = false) (hm : s.maySwitch m = true) :
    ∃ t, exec (.tandemBlockSend (.hubFromCh c)) s = .next t ∧ (t.chan c).switch = ms ∧
      ((t.chan c).upCredit m.block.hdr.cls).owed = ((s.chan c).upCredit m.block.hdr.cls).owed + 1 ∧
      (s.staleBlock m.block = false → m.next = 16 → s.isReady d = true →
        ((t.chan d).downCredit m.block.hdr.cls).held = ((s.chan d).downCredit m.block.hdr.cls).held - 1 ∧
        ∃ b, (t.chan d).toCh.entries.map (·.1) =
          (s.chan d).toCh.entries.map (·.1) ++ [.block { m with backed := b }]) ∧
      (s.staleBlock m.block = false → m.next ≠ 16 → Tab.get [] (t.port m.next).egress (1 + m.block.hdr.cls) =
        Tab.get [] (s.port m.next).egress (1 + m.block.hdr.cls) ++
          [{ body := .block m.block, bytes := blockSize m.block }]) ∧
      (s.staleBlock m.block = true ∨ m.next = 16 ∧ s.isReady d = false →
        t.ports = s.ports ∧ (t.chan d).toCh = (s.chan d).toCh) := by
  subst hd
  obtain ⟨hswitch, howed⟩ := State.leaveSwitch_upLink hs
  obtain ⟨hswitch', hup⟩ := Prod.mk.inj ((State.passHub_upLink (s.leaveSwitch c m) m).same c)
  obtain ⟨htoCh, hdown⟩ := Prod.mk.inj ((s.leaveSwitch_downLink c m).same m.block.hdr.dch)
  have stale : (s.leaveSwitch c m).staleBlock m.block = s.staleBlock m.block := rfl
  have ready : (s.leaveSwitch c m).isReady m.block.hdr.dch = s.isReady m.block.hdr.dch := rfl
  refine ⟨_, exec_hubFromCh hp hs hr hm, hswitch'.trans hswitch, ?_, fun h1 h2 h3 => ?_, fun h1 h2 => ?_, fun h => ?_⟩
  · rw [Channel.upCredit, hup, ← Channel.upCredit, howed]
  · have credit : ((s.leaveSwitch c m).chan m.block.hdr.dch).downCredit m.block.hdr.cls =
        (s.chan m.block.hdr.dch).downCredit m.block.hdr.cls := by
      rw [Channel.downCredit, hdown, ← Channel.downCredit]
    rw [State.passHub, stale, h1, if_neg Bool.false_ne_true, if_pos h2, ← credit, ← htoCh]
    exact State.hubToCh_ready (ready.trans h3) m
  · rw [State.passHub, stale, h1, if_neg Bool.false_ne_true, if_neg h2, State.toEgress, State.port_modPort, if_pos rfl,
      Tab.get_set_same]
    rfl
  · by_cases hst : s.staleBlock m.block = true
    · rw [State.passHub, stale, if_pos hst, State.chan_congr (State.ghostDrop_chans ..)]
      exact ⟨by rw [State.ghostDrop, State.raise_ports, State.bump_ports, State.bump_ports]; rfl, htoCh⟩
    · obtain ⟨hnext, hdead⟩ := h.resolve_left hst
      rw [State.passHub, stale, if_neg hst, if_pos hnext, State.hubToCh_notReady (ready.trans hdead)]
      exact ⟨rfl, htoCh⟩

/-! ## Out of a port's receive buffer -/

/-- A complete block leaves the receive buffer of a port, whose credits are owed (R515). -/
def State.takeBlock (s : State) (p : PortId) (cls n : Nat) : State :=
  s.modPort p fun x => { x with
    rx := Tab.set x.rx (1 + cls) ((Tab.get [] x.rx (1 + cls)).drop n)
    owed := Tab.set x.owed (1 + cls) (Tab.get 0 x.owed (1 + cls) + n) }

/-- A block that came by a port, in the class that it came in (R531). -/
def Moving.cameBy (p : PortId) (cls : Nat) (b : Block) : Moving :=
  { block := { b with hdr := { b.hdr with cls := cls } }, port := some p.val }

/-- The block of a class that the hub switch may take from a port's receive buffer (R515, R531). -/
def State.portReady (s : State) (p : PortId) (cls : Nat) : Option (Nat × Nat × Block) :=
  (completeBlock (Tab.get [] (s.port p).rx (1 + cls))).bind fun nb =>
    if s.replayHolds nb.2.hdr.dch then none
    else if !s.isReady nb.2.hdr.dch
        || 0 < ((s.chan nb.2.hdr.dch).downCredit cls).held && !s.withholds nb.2.hdr.dch cls then some (cls, nb)
    else none

theorem State.portOut_first {p : PortId} {cls n : Nat} {b : Block} {l : List (Nat × Nat × Block)}
    (h : (List.range 4).filterMap (s.portReady p) = (cls, n, b) :: l) :
    s.portOut p = (s.takeBlock p cls n).hubToCh b.hdr.dch (Moving.cameBy p cls b) := by
  unfold State.portReady at h
  unfold State.portOut
  dsimp only
  rw [h]
  rfl

/-- The first of the numbers below a bound for which a function has a value comes first among its values. -/
theorem filterMap_range_first {α : Type} {f : Nat → Option α} {n k : Nat} {a : α} (hk : k < n) (ha : f k = some a)
    (low : ∀ j < k, f j = none) : ∃ l, (List.range n).filterMap f = a :: l := by
  obtain ⟨r, rfl⟩ : ∃ r, n = k + (r + 1) := ⟨n - k - 1, by omega⟩
  have before : (List.range k).filterMap f = [] :=
    List.filterMap_eq_nil_iff.mpr fun j hj => low j (List.mem_range.mp hj)
  rw [List.range_add, List.range_succ_eq_map, List.filterMap_append, before, List.map_cons, Nat.add_zero,
    List.filterMap_cons_some ha]
  exact ⟨_, rfl⟩

theorem exec_hubFromPort {p : PortId} {cls : Fin 4} {n : Nat} {b : Block} (hp : s.dev.powered = true)
    (hb : completeBlock (Tab.get [] (s.port p).rx (1 + cls)) = some (n, b))
    (low : ∀ k, k < cls.val → completeBlock (Tab.get [] (s.port p).rx (1 + k)) = none)
    (hrep : s.replayHolds b.hdr.dch = false) (hh : 0 < ((s.chan b.hdr.dch).downCredit cls).held)
    (hw : s.withholds b.hdr.dch cls = false) :
    exec (.tandemBlockSend (.hubFromPort p)) s =
      .next ((s.takeBlock p cls n).hubToCh b.hdr.dch (Moving.cameBy p cls b)) := by
  have ready : s.portReady p cls = some (cls.val, n, b) := by simp [State.portReady, hb, hrep, hh, hw]
  have none_below (k : Nat) (hk : k < cls.val) : s.portReady p k = none := by simp [State.portReady, low k hk]
  obtain ⟨l, hl⟩ := filterMap_range_first cls.isLt ready none_below
  rw [exec, execTandemBlockSend, live_of_powered hp, ← State.portOut_first hl]

theorem tandemBlocksMove : Rules.TandemBlocksMove := by
  intro s hp
  refine ⟨fun c e m ms hrun hs hm => ⟨_, relaySends hp hrun hs hm, ?_⟩,
    fun c m ms d hs hd hr hm => hubSends hp hs hd hr hm,
    fun p cls n b d hb low hd hrep hr hh hw => ?_⟩
  · by_cases hl : m.localTo c = true
    · obtain ⟨b, hsending, hsent, hin, hcredit⟩ := s.relayLocal_shows c e m ms
      rw [if_pos hl]
      exact ⟨hsending, fun _ => ⟨b, hsent, hin, hcredit⟩, fun h => absurd hl (by simp [h])⟩
    · obtain ⟨hsending, hsent, hout, hcredit⟩ := s.relayUp_shows c e m ms
      rw [if_neg hl]
      exact ⟨hsending, fun h => absurd h hl, fun _ => ⟨hsent, hout, hcredit⟩⟩
  · subst hd
    have port : ((s.takeBlock p cls n).hubToCh b.hdr.dch (Moving.cameBy p cls b)).port p = (s.takeBlock p cls n).port p := by
      rw [State.port, State.hubToCh_ports]
      rfl
    obtain ⟨hheld, f, hentries⟩ := State.hubToCh_ready (s := s.takeBlock p cls n) hr (Moving.cameBy p cls b)
    refine ⟨_, exec_hubFromPort hp hb low hrep hh hw, ?_, ?_, hheld, f, hentries⟩
    · rw [port, State.takeBlock, State.port_modPort, if_pos rfl, Tab.get_set_same]
    · rw [port, State.takeBlock, State.port_modPort, if_pos rfl, Tab.get_set_same]

/-! ## Blocks accepted (R190, R668) -/

/-- The next hop has taken the oldest block that a relay cell sent. -/
def State.takeSent (s : State) (c e : Nat) (ms : List Moving) : State :=
  s.modEngine c e fun g => { g with relay := { g.relay with sent := ms } }

theorem exec_blockAccepted {n : Nat} (hp : s.dev.powered = true) (hs : (s.engine c e).relay.sent = m :: ms)
    (ht : m.tile = some n) (hu : s.underWay c m = false) :
    exec (.blockAccepted c e) s = .next ((s.takeSent c e ms).acceptFor c e n) := by
  rw [exec, execBlockAccepted, live_of_powered hp]
  simp [hs, ht, hu, State.takeSent]

theorem State.tile_takeSent (s : State) (c e n : Nat) (ms : List Moving) :
    (s.takeSent c e ms).tile c e n = s.tile c e n := by
  rw [State.tile, State.takeSent, State.engine_modEngine_same]
  rfl

theorem State.acceptFor_more {c e n : Nat} (h : (s.tile c e n).accepted < 7) :
    s.acceptFor c e n = s.modTile c e n fun x => { x with accepted := (s.tile c e n).accepted + 1 } :=
  if_pos (by omega)

/-- With the eighth block the commands of the tile complete, and its slot is FREE (R190). -/
theorem State.acceptFor_last {c e n : Nat} (he : s.Ends stOk t) (h : 7 ≤ (t.tile c e n).accepted) :
    ((t.acceptFor c e n).tile c e n).state = .free ∧
      ∀ k ∈ (t.tile c e n).closing, CompletedWith s (t.acceptFor c e n) c k stOk := by
  rw [State.acceptFor]
  dsimp only
  rw [if_neg (by omega), State.tile_freeTile_same, State.tile_modTile_same]
  refine ⟨rfl, fun k hk => completedWith_of_ends_later ?_ (State.freeTile_ends (st := stOk) _ c e n)⟩
  have ended : CompletedWith s ((t.modTile c e n fun x => { x with accepted := (t.tile c e n).accepted + 1 }).ecsDone c
      (t.tile c e n).closing stOk) c k stOk :=
    completedWith_of_done ((he.trans (t.modEngine_ends c e _)).trans (State.ecsDone_ends ..)) fun ha =>
      State.ecsDone_done _ c ha hk stOk
  split
  · exact ended
  · exact completedWith_of_chans ended rfl (by rw [State.raise_chans, State.bump_chans])

theorem blockAccepted : Rules.BlockAccepted := by
  intro c e s m ms n hp hs ht hu
  refine ⟨_, exec_blockAccepted hp hs ht hu, fun h => ?_, fun h => ?_⟩
  · rw [← State.tile_takeSent s c e n ms] at h ⊢
    rw [State.acceptFor_more h, State.tile_modTile_same, State.modTile, State.engine_modEngine_same, State.takeSent,
      State.engine_modEngine_same]
    exact ⟨rfl, rfl, rfl⟩
  · rw [← State.tile_takeSent s c e n ms] at h ⊢
    exact State.acceptFor_last (s.modEngine_ends c e _) h

/-- Settles O45: a block takes its credit with it on each hop, what passes the hub leaves the switch first, and the
eighth block accepted ends its tile's commands. -/
theorem tandemHops : Obligations.TandemHops := ⟨tandemBlocksMove, blockAccepted⟩

end Sys2Proof.Machine
end

section
/-!
## The epilogue's output (R229, R233, R240, R245, R247, R249)
-/

namespace Sys2Proof.Machine

variable {s : State} {c : Ch} {e : SlotId} {d : Drain} {x : TileSlot} {geo : EngCmd}

/-- What the epilogue does with its oldest block, once what it put out before has left (R229, R254). -/
def State.epilogueTurn (s : State) (c e : Nat) (d : Drain) (geo : EngCmd) (x : TileSlot) : State :=
  if (s.engine c e).output = [] then s.epilogueStep c e d geo x else s

theorem exec_epilogueOutput (h : DrainUnderWay s c e d x geo) (hk : sendsPartial d.cmd = false) :
    exec (.epilogueOutput c e) s = .next ((s.epilogueTurn c e d geo x).modEngine c e Engine.pushOutput) := by
  obtain ⟨hp, hd, rfl, hg, hrun, hctx⟩ := h
  rw [State.tile] at hg hctx
  rw [exec, execEpilogueOutput, live_of_powered hp]
  simp [hd, hg, hrun, hctx, hk, State.epilogueTurn, State.tile]

/-! ## The write queue's credit (R229) -/

/-- Pieces that enter the write queue leave the output in their order, and none is lost. -/
theorem Engine.pushOutput_pieces (g : Engine) :
    g.pushOutput.writes ++ g.pushOutput.output = g.writes ++ g.output := by
  rw [Engine.pushOutput, List.append_assoc, List.take_append_drop]

theorem Engine.pushOutput_drain (g : Engine) : g.pushOutput.drain = g.drain := rfl

theorem Engine.pushOutput_drainCredit (g : Engine) : g.pushOutput.drainCredit = g.drainCredit := rfl

/-! ## A block becomes pieces (R233, R245, R247) -/

/-- The pieces of a block's codes, compressed or dense, and the number of its element blocks (R245, R247). -/
def blockPieces (o : Owner) (k geo : EngCmd) (cs : Codes) : List Piece × Nat :=
  if bOcomp k.descs then segmentPieces o k geo cs
  else (densePieces o k geo cs, (elementBlocks (blockLanes (bOlayout k.descs)) cs).length)

theorem blockPieces_fst (o : Owner) (k geo : EngCmd) (cs : Codes) : (blockPieces o k geo cs).1 =
    if bOcomp k.descs then (segmentPieces o k geo cs).1 else densePieces o k geo cs := by
  rw [blockPieces, apply_ite Prod.fst]

/-- The engine after a block has become pieces: the block has left the pipeline, and its credit is owed (R229). -/
def Engine.blockDone (g : Engine) (d : Drain) (rest : List (Nat × Tab (List LVal))) (y : Epi) (ps : List Piece × Nat) :
    Engine :=
  { g with
    output := (mergeParts d.partBytes ps.1).1
    drainCredit := { g.drainCredit with owed := g.drainCredit.owed + 1 }
    drain := some { y.d with
      pipe := rest, nzblk := d.nzblk + ps.2, partBytes := (mergeParts d.partBytes ps.1).2 } }

theorem State.epilogueStep_block {j : Nat} {es : Tab (List LVal)} {rest : List (Nat × Tab (List LVal))} {y : Epi}
    {cs : Codes} (hpipe : d.pipe = (j, es) :: rest) (hstats : geo.op ≠ opStats) (hregroup : geo.op ≠ opRegroup)
    (hb : epilogueBlock d.cmd geo ((s.engine c e).params.elim [] (·.records))
      { ch := c, n := (s.chan c).narrowed, d := d } j es = (y, cs)) (x : TileSlot) :
    s.epilogueStep c e d geo x = (s.modChan c fun z => { z with narrowed := y.n }).modEngine c e fun g =>
      g.blockDone d rest y (blockPieces (s.ownerOf c e d.cmd) d.cmd geo cs) := by
  unfold State.epilogueStep blockPieces
  rw [hpipe]
  cases hc : bOcomp d.cmd.descs <;> simp [hstats, hregroup, hb, hc, Engine.blockDone]

/-- After the eighth block the candidates and the sideband record follow (R240, R249). -/
theorem State.epilogueStep_tail (hpipe : d.pipe = []) (hblock : d.block = 8) (htail : d.tailed = false) (x : TileSlot) :
    s.epilogueStep c e d geo x = s.modEngine c e fun g =>
      { g with output := tailPieces s c e d.cmd geo x d, drain := some { d with tailed := true } } := by
  unfold State.epilogueStep
  rw [hpipe]
  exact if_pos ⟨hblock, by simp [htail]⟩

/-- Settles O41: a block and the tail are each one change of the engine, after which its pieces pass on to the write
queue as far as its credit goes. -/
theorem epilogueOutput : Obligations.EpilogueOutput := by
  intro c e s d x geo h hk
  have ran := exec_epilogueOutput h hk
  obtain ⟨-, hd, -⟩ := h
  refine ⟨_, ran, exec_sameStores ran rfl, fun n hout hn => ?_, fun j es rest y cs hout hpipe hstats hregroup hb => ?_,
    fun hout hpipe hblock htail => ?_⟩
  · subst hn
    rw [State.epilogueTurn, if_neg hout, State.engine_modEngine_same]
    exact ⟨rfl, rfl, rfl, hd⟩
  · rw [State.epilogueTurn, if_pos hout, State.epilogueStep_block hpipe hstats hregroup hb, ← blockPieces_fst,
      State.engine_modEngine_same, State.engine_modEngine_same, State.Keeps.engine (State.modChan_keeps s c),
      Engine.pushOutput_pieces]
    refine ⟨rfl, ?_, rfl, rfl⟩
    rw [State.chan_modEngine_same, State.chan_modEngine_same, State.chan_modChan, if_pos rfl]
  · rw [State.epilogueTurn, if_pos hout, State.epilogueStep_tail hpipe hblock htail, State.engine_modEngine_same,
      State.engine_modEngine_same, Engine.pushOutput_pieces]
    exact ⟨rfl, rfl⟩

end Sys2Proof.Machine
end

section
/-!
## Writes through translation beside the stores (R245, R247, R434)

What a write changes of a channel is bytes of its activation store and its stack.
-/

namespace Sys2Proof.Machine

variable {s t : State}

/-- What leaves the stores leaves every byte of them. -/
theorem Moves.sameStores {σ : Scope} (h : Moves σ s t) (hσ : σ.stores = false) : s.sameStores t :=
  fun c => (h.stores c).same hσ

theorem State.modEngine_sameStores (s : State) (c e : Nat) (f : Engine → Engine) : s.sameStores (s.modEngine c e f) :=
  (State.modEngine_moves .refl c e f .refl : Moves ⟨false, [.chans], []⟩ s _).sameStores rfl

/-- A channel beside its activation store and its stack. -/
def Channel.besideStores (x : Channel) : Channel := { x with ast := {}, hbm := {} }

theorem State.modMem_besideStores (s : State) (t : Target) (f : Memory → Memory) :
    s.Keeps Channel.besideStores (s.modMem t f) := by
  cases t with
  | host => exact .refl
  | hbm c => exact s.modChan_keeps c (f := fun x => { x with hbm := f x.hbm })
  | ast c => exact s.modChan_keeps c (f := fun x => { x with ast := f x.ast })

theorem State.countHbm_chans (s : State) (from' : Option Ch) (t : Target) (cls n : Nat) :
    (s.countHbm from' t cls n).chans = s.chans :=
  (State.countHbm_moves .refl from' t cls n .refl : Moves ⟨false, [], [.hbmc]⟩ s _).parts .chans (by decide)

theorem State.reach_chans (s : State) (a : MemAccess) : (s.reach a).1.chans = s.chans :=
  (State.reach_moves .refl a .refl : Moves ⟨false, [.out, .msix, .xlat, .recorder], _⟩ s _).parts .chans (by decide)

theorem State.reachPieces_chans (s : State) (a : MemAccess) (ps : List Piece) : (s.reachPieces a ps).1.chans = s.chans :=
  (State.reachPieces_moves .refl a ps .refl : Moves ⟨false, [.out, .msix, .xlat, .recorder], _⟩ s _).parts .chans
    (by decide)

theorem State.putBytes_besideStores (s : State) (from' : Option Ch) (t : Target) (cls n : Nat) (f : Memory → Memory) :
    s.Keeps Channel.besideStores ((s.countHbm from' t cls n).modMem t f) :=
  (State.Keeps.of_chans (State.countHbm_chans ..)).trans (State.modMem_besideStores ..)

theorem writePiece_besideStores (a : MemAccess) (cls : Nat) (st : State × Nat × Bool × List Byte) (piece : Nat × Nat) :
    st.1.Keeps Channel.besideStores (writePiece a cls st piece).1 := by
  obtain ⟨s, n, ok, bs⟩ := st
  have reached : s.Keeps Channel.besideStores (s.reach { a with va := piece.1, write := true }).1 :=
    .of_chans (s.reach_chans _)
  unfold writePiece
  dsimp only
  split
  · exact .refl
  · split
    · next h => rwa [h] at reached
    · next h =>
      rw [h] at reached
      exact reached.trans (.of_chans rfl)
    · next h =>
      rw [h] at reached
      dsimp only at reached ⊢
      exact reached.trans (State.putBytes_besideStores ..)

theorem State.writeVa_besideStores (s : State) (a : MemAccess) (cls : Nat) (bs : List Byte) :
    s.Keeps Channel.besideStores (s.writeVa a cls bs).1 :=
  foldl_keeps (P := fun st : State × Nat × Bool × List Byte => s.Keeps Channel.besideStores st.1)
    (fun st piece _ h => h.trans (writePiece_besideStores a cls st piece)) .refl

theorem State.storeBytes_besideStores (s : State) (r : RequesterId) (t : Target) (addr : Nat) (bs : List Byte)
    (mask : Option (List Byte)) : s.Keeps Channel.besideStores (s.storeBytes r t addr bs mask) := by
  unfold State.storeBytes
  split
  · exact .of_chans rfl
  · exact State.Keeps.refl.fold fun u x _ => .ite .refl (.of_chans rfl)
  · exact State.putBytes_besideStores ..
  · exact State.putBytes_besideStores ..

theorem writePage_besideStores (a : MemAccess) (p : Piece) (st : State × Nat × Bool) (page : Nat × Nat) :
    st.1.Keeps Channel.besideStores (writePage a p st page).1 := by
  obtain ⟨s, n, ok⟩ := st
  have reached : s.Keeps Channel.besideStores (s.reach { a with va := page.1, write := true }).1 :=
    .of_chans (s.reach_chans _)
  unfold writePage
  dsimp only
  split
  · exact .refl
  · split
    · next h => rwa [h] at reached
    · next h =>
      rw [h] at reached
      exact reached.trans (State.storeBytes_besideStores ..)

theorem State.writeSome_besideStores (s : State) (a : MemAccess) (ps : List Piece) :
    s.Keeps Channel.besideStores (s.writeSome a ps).1 := by
  induction ps generalizing s with
  | nil => exact .refl
  | cons p ps ih =>
    have pages : s.Keeps Channel.besideStores ((piecesOf p.va p.bytes.length).foldl (writePage a p) (s, 0, true)).1 :=
      foldl_keeps (P := fun st : State × Nat × Bool => s.Keeps Channel.besideStores st.1)
        (fun st page _ h => h.trans (writePage_besideStores a p st page)) .refl
    unfold State.writeSome
    split
    · next h =>
      rw [h] at pages
      exact pages.trans (ih _)
    · next h => rwa [h] at pages

theorem State.writeWhole_besideStores (s : State) (a : MemAccess) (ps : List Piece) :
    s.Keeps Channel.besideStores (s.writeWhole a ps).1 := by
  have reached : s.Keeps Channel.besideStores (s.reachPieces a ps).1 := .of_chans (s.reachPieces_chans a ps)
  unfold State.writeWhole
  split
  · next h => rwa [h] at reached
  · next h =>
    rw [h] at reached
    refine reached.trans (State.Keeps.refl.fold fun u x _ => ?_)
    exact foldl_keeps (P := fun st : State × Nat => u.Keeps Channel.besideStores st.1)
      (fun st y _ h => h.trans (State.storeBytes_besideStores ..)) .refl

theorem State.Keeps.engine_besideStores (h : s.Keeps Channel.besideStores t) (c e : Nat) :
    t.engine c e = s.engine c e := (h.map Channel.engines).engine c e

end Sys2Proof.Machine
end

section
/-!
## Write-back (R245, R247, R253, R599)
-/

namespace Sys2Proof.Machine

variable {s u : State} {c : Ch} {e : SlotId} {p : Piece} {rest qs : List Piece}

/-- A piece stands first in the write queue of an engine whose clock runs. -/
structure State.AtWrite (s : State) (c : Ch) (e : SlotId) (p : Piece) (rest : List Piece) : Prop where
  powered : s.dev.powered = true
  clock : s.arithOn c = true
  head : (s.engine c e).writes = p :: rest

/-- The access with which a piece is written. -/
def Piece.writeAccess (p : Piece) (c : Ch) (e : SlotId) : MemAccess :=
  { req := if p.owner.scan then .scan c e else .drain c e, ctx := p.owner.ctx, va := p.va, write := true
    info := p.owner.info }

/-- The first piece has left the write queue, and its credit is free (R229). -/
def Engine.writeDone (g : Engine) (rest : List Piece) : Engine :=
  { g with writes := rest, writeCredit := g.writeCredit.free 1 }

/-- What is left of the first piece stays in the write queue; where nothing is, its credit is free (R253). -/
def Engine.pieceDone (g : Engine) (rest qs : List Piece) : Engine :=
  if qs = [] then g.writeDone rest else { g with writes := qs.take 1 ++ rest }

theorem exec_writeBack_ghost (h : s.AtWrite c e p rest) (hg : s.isGhost c p.owner.slot p.owner.epoch = true) :
    exec (.writeBack c e) s = .next ((s.modEngine c e (·.writeDone rest)).ghostDrop c p.owner.slot) := by
  obtain ⟨hp, ha, hw⟩ := h
  rw [exec, execWriteBack, live_of_powered hp]
  simp [hw, ha, hg, Engine.writeDone]

theorem exec_writeBack_part (h : s.AtWrite c e p rest) (hg : s.isGhost c p.owner.slot p.owner.epoch = false)
    (hm : p.more = true) : exec (.writeBack c e) s =
      .next (s.modEngine c e fun g => { g.writeDone rest with assembling := g.assembling ++ [p] }) := by
  obtain ⟨hp, ha, hw⟩ := h
  rw [exec, execWriteBack, live_of_powered hp]
  simp [hw, ha, hg, hm, Engine.writeDone]

theorem exec_writeBack_piece (h : s.AtWrite c e p rest) (hg : s.isGhost c p.owner.slot p.owner.epoch = false)
    (hm : p.more = false) (hs : (s.engine c e).assembling = []) (ho : s.writeSome (p.writeAccess c e) [p] = (u, qs)) :
    exec (.writeBack c e) s = .next (u.modEngine c e (·.pieceDone rest qs)) := by
  obtain ⟨hp, ha, hw⟩ := h
  rw [Piece.writeAccess] at ho
  rw [exec, execWriteBack, live_of_powered hp]
  cases qs <;> simp [hw, ha, hg, hm, hs, ho, Engine.pieceDone, Engine.writeDone]

theorem exec_writeBack_segment (h : s.AtWrite c e p rest) (hg : s.isGhost c p.owner.slot p.owner.epoch = false)
    (hm : p.more = false) (hs : (s.engine c e).assembling ≠ [])
    (ho : s.writeWhole (p.writeAccess c e) ((s.engine c e).assembling ++ [p]) = (u, true)) :
    exec (.writeBack c e) s = .next ((u.forgetSegment p.owner.ctx p.va).modEngine c e fun g =>
      { g.writeDone rest with assembling := [] }) := by
  obtain ⟨hp, ha, hw⟩ := h
  rw [Piece.writeAccess] at ho
  rw [exec, execWriteBack, live_of_powered hp]
  simp [hw, ha, hg, hm, hs, ho, Engine.writeDone]

/-- A ghost item is counted on the page of its slot (R599). -/
theorem State.rd_ghostDrop (s : State) (c n : Nat) : (s.ghostDrop c n).rd (engPage c n) Reg.engSlotId_GHOST =
    min (s.rd (engPage c n) Reg.engSlotId_GHOST + 1) (2 ^ Reg.engSlotId_GHOST.w - 1) := by
  rw [State.ghostDrop, State.rd_raise_off _ _ (by decide) (by decide) (by decide), State.rd_bump_page _ Page.noConfusion,
    State.rd_bump_same _ _ _ (by decide)]

/-- The write credits of a channel's engines. -/
def Channel.writeCredits (x : Channel) (e : Nat) : Credit := (x.engine e).writeCredit

theorem Engine.forgetSegment_writeCredit (g : Engine) (ctx va : Nat) :
    (g.forgetSegment ctx va).writeCredit = g.writeCredit := by
  unfold Engine.forgetSegment
  dsimp only
  split <;> rfl

/-- What the readers of a segment forget once it has been written is not the credit of the writes. -/
theorem State.forgetSegment_writeCredits (s : State) (ctx va : Nat) :
    s.Keeps Channel.writeCredits (s.forgetSegment ctx va) := by
  refine State.Keeps.refl.fold fun u c _ => u.modChan_keeps c fun x => funext fun e => ?_
  rw [Channel.writeCredits, Channel.writeCredits, Channel.engine, Channel.engine]
  obtain ⟨h, h'⟩ | h := Tab.get_map ({} : Engine) x.engines (f := fun g => (g.1, g.2.forgetSegment ctx va)) (fun _ => rfl) e
  · exact congrArg Engine.writeCredit (h.trans h'.symm)
  · exact (congrArg Engine.writeCredit h).trans (Engine.forgetSegment_writeCredit ..)

theorem writeBack : Rules.WriteBack := by
  intro c e s p rest a hp ha hw haccess
  obtain rfl : a = p.writeAccess c e := haccess
  have at' : s.AtWrite c e p rest := ⟨hp, ha, hw⟩
  refine ⟨fun hg => ?_, fun hg hm => ?_, fun u qs hg hm hs ho => ?_, fun u hg hm hs ho => ?_⟩
  · have moves : Moves ⟨false, [.out, .msix, .chans], [.ras, .eng]⟩ s
        ((s.modEngine c e (·.writeDone rest)).ghostDrop c p.owner.slot) :=
      State.ghostDrop_moves (State.modEngine_moves .refl c e _ (by decide)) c _ (by decide)
    refine ⟨_, exec_writeBack_ghost at' hg, ?_, moves.sameStores rfl, State.rd_ghostDrop ..⟩
    rw [State.engine, State.chan_congr (State.ghostDrop_chans ..), ← State.engine, State.engine_modEngine_same]
    rfl
  · refine ⟨_, exec_writeBack_part at' hg hm, ?_, ?_, s.modEngine_sameStores c e _, rfl⟩
    · rw [State.engine_modEngine_same]
      rfl
    · rw [State.engine_modEngine_same]
  · have written := s.writeSome_besideStores (p.writeAccess c e) [p]
    rw [ho] at written
    refine ⟨_, exec_writeBack_piece at' hg hm hs ho, u.modEngine_sameStores c e _, ?_, fun hq => ?_⟩
    · rw [State.engine_modEngine_same, Engine.pieceDone]
      split
      · next hq => rw [hq]; rfl
      · rfl
    · rw [State.engine_modEngine_same, Engine.pieceDone, if_pos hq, written.engine_besideStores]
      rfl
  · have written := s.writeWhole_besideStores (p.writeAccess c e) ((s.engine c e).assembling ++ [p])
    rw [ho] at written
    have credit : ((u.forgetSegment p.owner.ctx p.va).engine c e).writeCredit = (u.engine c e).writeCredit :=
      congrFun ((u.forgetSegment_writeCredits p.owner.ctx p.va).same c) e
    refine ⟨_, exec_writeBack_segment at' hg hm hs ho, ?_, ?_,
      (State.modEngine_moves (State.forgetSegment_moves .refl _ _ .refl) c e _ .refl :
        Moves ⟨false, [.chans], []⟩ u _).sameStores rfl, ?_⟩
    · rw [State.engine_modEngine_same]
      rfl
    · rw [State.engine_modEngine_same]
    · rw [State.engine_modEngine_same, Engine.writeDone]
      dsimp only
      rw [credit, written.engine_besideStores]
      rfl

end Sys2Proof.Machine
end

section
/-!
## The end of a drain (R173, R231, R252, R655)
-/

namespace Sys2Proof.Machine

variable {s t : State}

/-! ## The words of an engine's page that show its runs -/

/-- The words of an engine's page that follow its runs: the working register, the banks and the count of rebuilds. -/
def runWords : List Nat := [0x110, 0x120, 0x124, 0x128]

theorem State.modEngine_beside (s : State) (c e : Nat) (f : Engine → Engine) (p : Page) (os : List Nat) :
    s.Beside p os (s.modEngine c e f) := .of_sameWords (ps := []) (State.sameWords.refl.of_regs rfl) List.not_mem_nil

theorem State.wrAll_beside (s : State) (c : Nat) (es : List Nat) (f : Fld) (v : Nat) (p : Page)
    (hf : f.words ⊆ runWords := by decide) : s.Beside p runWords (s.wrAll c es f v) :=
  .engines (fun o ho => (by decide : ∀ o ∈ runWords, o < 4096) o (hf ho)) hf es (fun _ _ => v) s

theorem State.bumpAll_beside (s : State) (c : Nat) (es : List Nat) (f : Fld) (p : Page)
    (hf : f.words ⊆ runWords := by decide) : s.Beside p runWords (s.bumpAll c es f) :=
  .engines (fun o ho => (by decide : ∀ o ∈ runWords, o < 4096) o (hf ho)) hf es
    (fun s e => min (s.rd (engPage c e) f + 1) (2 ^ f.w - 1)) s

theorem bankWords_subset {n : Nat} (hn : n < 2) {lo w : Nat} (h : lo + w ≤ 32) :
    Fld.words ⟨0x120 + 4 * n, lo, w⟩ ⊆ runWords := by
  rw [Fld.words, if_pos h]
  exact List.cons_subset.mpr ⟨(by decide : ∀ n < 2, 0x120 + 4 * n ∈ runWords) n hn, List.nil_subset _⟩

theorem State.showBank_beside (s : State) (c : Nat) (es : List Nat) {n : Nat} (hn : n < 2) (d : Group)
    (valid building knot : Nat) (p : Page) : s.Beside p runWords (s.showBank c es n d valid building knot) := by
  have field (u : State) {lo w : Nat} (v : Nat) (h : lo + w ≤ 32) :
      u.Beside p runWords (u.wrAll c es ⟨0x120 + 4 * n, lo, w⟩ v) := u.wrAll_beside c es _ v p (bankWords_subset hn h)
  exact ((((field s _ (by decide)).trans (field _ _ (by decide))).trans (field _ _ (by decide))).trans
    (field _ _ (by decide))).trans (field _ _ (by decide))

theorem State.startRebuild_beside (s : State) (c e : Nat) {n : Nat} (hn : n < 2) (uid : Nat) (d : Group) (p : Page) :
    s.Beside p runWords (s.startRebuild c e n uid d) := by
  unfold State.startRebuild
  exact ((s.showBank_beside c _ hn d 0 1 0 p).trans (State.bumpAll_beside _ c _ Reg.engLnsCnt_REBUILDS p)).trans
    (State.modEngine_beside _ c e _ p _)

theorem State.bindTo_beside (s : State) (c e : Nat) {n : Nat} (hn : n < 2) (uid : Nat) (p : Page) :
    s.Beside p runWords (s.bindTo c e n uid) :=
  (s.modEngine_beside c e _ p _).trans (State.wrAll_beside _ c _ _ _ p (bankWords_subset hn (by decide)))

theorem State.unbind_beside (s : State) (c e uid : Nat) (p : Page) : s.Beside p runWords (s.unbind c e uid) := by
  refine (s.modEngine_beside c e _ p _).trans (.fold (fun u n hn => ?_) _)
  have hn : n < 2 := (by decide : ∀ n ∈ [0, 1], n < 2) n hn
  dsimp only
  split
  · split
    · split
      · exact (((u.modEngine_beside c e _ p _).trans (State.modEngine_beside _ c e _ p _)).trans
          (State.startRebuild_beside _ c e hn _ _ p)).trans (State.bindTo_beside _ c e hn _ p)
      · exact (u.modEngine_beside c e _ p _).trans
          (State.wrAll_beside _ c _ _ _ p (bankWords_subset hn (by decide)))
    · exact u.modEngine_beside c e _ p _
  · exact .refl

/-- A tile that is freed changes of its engine's page only what shows the runs. -/
theorem State.freeTile_beside (s : State) (c e n : Nat) (p : Page) : s.Beside p runWords (s.freeTile c e n) := by
  unfold State.freeTile State.dropRuns
  refine .trans (.trans (.trans (.fold (fun u r _ => ?_) s) (State.modEngine_beside _ c e _ p _))
    ((State.sweep_beside _ c e p).mono (by decide))) (State.modEngine_beside _ c e _ p _)
  have freed (u : State) : u.Beside p runWords (u.freeEntry c e r.cmd) := by
    unfold State.freeEntry
    split
    · exact .refl
    · exact u.modEngine_beside c e _ p _
  exact ((u.unbind_beside c e _ p).trans (freed _)).trans (State.modEngine_beside _ c e _ p _)

/-! ## The drain of a tile that is freed -/

/-- The drain path is free once the tile that it drains is (R231). -/
theorem State.drain_freeTile {c e : Nat} {d : Drain} (hd : (s.engine c e).drain = some d) :
    ((s.freeTile c e d.slot).engine c e).drain = none := by
  obtain ⟨drain, -⟩ := (s.dropRuns_besideRuns c e d.slot).engine_besideRuns c e
  rw [State.freeTile, State.engine_modEngine_same, Engine.setTile, Engine.dropDrain]
  dsimp only
  rw [drain, hd]
  dsimp only
  rw [if_pos rfl]

variable {c : Ch} {e : SlotId} {d : Drain}

/-- Everything that a drain has to write has been accepted (R231). -/
structure State.DrainWritten (s : State) (c : Ch) (e : SlotId) (d : Drain) : Prop where
  powered : s.dev.powered = true
  drain : (s.engine c e).drain = some d
  runs : s.engRuns c e = true
  writes : sendsPartial d.cmd = false
  blocks : d.block = 8
  tail : d.tailed = true
  pipe : d.pipe = []
  output : (s.engine c e).output = []
  queue : (s.engine c e).writes = []
  segment : (s.engine c e).assembling = []

/-- The commands of a drained tile are complete, and the drain is counted and signalled (R252, R655). -/
def State.reportDrain (s : State) (c : Ch) (e : SlotId) (d : Drain) : State :=
  let u := (s.ecsDone c (s.tile c e d.slot).closing stOk).bump (.eng c e) Reg.engDrainCnt_TILES
  (if d.inf ≠ 0 ∨ d.indef ≠ 0 ∨ d.sat ≠ 0 then u.bump (.eng c e) Reg.engDrainCnt_SPECIAL else u).raise (.eng c e) 0

theorem exec_drainComplete (h : s.DrainWritten c e d) :
    exec (.drainComplete c e) s = .next ((s.reportDrain c e d).freeTile c e d.slot) := by
  obtain ⟨hp, hd, hr, hk, hb, ht, hpipe, hout, hw, ha⟩ := h
  rw [exec, execDrainComplete, live_of_powered hp]
  simp [hd, hr, hk, hb, ht, hpipe, hout, hw, ha, State.reportDrain, State.tile]

theorem State.reportDrain_chans (s : State) (c : Ch) (e : SlotId) (d : Drain) :
    (s.reportDrain c e d).chans = (s.ecsDone c (s.tile c e d.slot).closing stOk).chans := by
  unfold State.reportDrain
  dsimp only
  rw [State.raise_chans]
  split
  · rw [State.bump_chans, State.bump_chans]
  · rw [State.bump_chans]

theorem State.reportDrain_drain (s : State) (c : Ch) (e : SlotId) (d : Drain) :
    ((s.reportDrain c e d).engine c e).drain = (s.engine c e).drain := by
  have done : s.Keeps Channel.engines (s.ecsDone c (s.tile c e d.slot).closing stOk) :=
    State.Keeps.refl.fold fun u k _ => .ite .refl (u.modCmd_keeps (fun _ _ => rfl) c _ _)
  rw [(done.trans (.of_chans (s.reportDrain_chans c e d))).engine]

theorem State.reportDrain_counts (s : State) (c : Ch) (e : SlotId) (d : Drain) :
    (s.reportDrain c e d).rd (.eng c e) Reg.engDrainCnt_TILES =
      min (s.rd (.eng c e) Reg.engDrainCnt_TILES + 1) (2 ^ Reg.engDrainCnt_TILES.w - 1) := by
  have done : Moves ⟨false, [.chans], []⟩ s (s.ecsDone c (s.tile c e d.slot).closing stOk) :=
    State.ecsDone_moves .refl c _ _ .refl
  rw [← done.rd_eq (q := .eng c e) List.not_mem_nil, ← State.rd_bump_same _ _ _ (by decide)]
  unfold State.reportDrain
  dsimp only
  rw [State.rd_raise_off _ _ (by decide) (by decide) (by decide)]
  split
  · rw [State.rd_bump_off _ _ (by decide) (by decide) (by decide) (by decide) (.inr (.inl (by decide)))]
  · rfl

theorem State.reportDrain_raises (s : State) (c : Ch) (e : SlotId) (d : Drain) :
    ((s.reportDrain c e d).rd (.eng c e) Reg.intRaw_RAW).testBit 0 = true := by
  rw [State.reportDrain, State.rd_raise_raw, Nat.testBit_mod_two_pow, Nat.testBit_or, Nat.testBit_two_pow_self]
  simp

theorem drainComplete : Rules.DrainComplete := by
  intro c e s d hp hd hr hk hb ht hpipe hout hw ha
  have ran := exec_drainComplete ⟨hp, hd, hr, hk, hb, ht, hpipe, hout, hw, ha⟩
  have words := (s.reportDrain c e d).freeTile_beside c e d.slot (.eng c e)
  refine ⟨_, ran, by rw [State.tile_freeTile_same], State.drain_freeTile ((s.reportDrain_drain c e d).trans hd),
    fun k hm => completedWith_of_ends_later ?_ (State.freeTile_ends (st := stOk) _ c e _), ?_, ?_, exec_sameStores ran rfl⟩
  · have done : CompletedWith s (s.ecsDone c (s.tile c e d.slot).closing stOk) c k stOk :=
      completedWith_of_done (State.ecsDone_ends ..) fun again => State.ecsDone_done _ c again hm stOk
    exact completedWith_of_chans done rfl (s.reportDrain_chans c e d)
  · rw [words.rd (by decide), State.reportDrain_counts]
  · rw [words.rd (by decide)]
    exact s.reportDrain_raises c e d

/-- Settles O42: a write changes stores and nothing else of a channel, so the queue's credit is the engine's own; and a
drain is reported before its slot is FREE, which touches no word of the report. -/
theorem writesAndCompletion : Obligations.WritesAndCompletion := ⟨writeBack, drainComplete⟩

end Sys2Proof.Machine
end

section
/-!
## ARGMAX_MERGE (R241, R399, R585)
-/

namespace Sys2Proof.Machine

variable {s t u v : State} {c : Ch} {e : SlotId} {k : EngCmd} {o : ReadOut} {cs : List (Nat × List Cand)}

theorem State.argmaxReads_moves_of {a : MemAccess} {ext : List Byte} (h : s.argmaxReads a k ext = (u, o, cs)) :
    Moves ⟨false, [.out, .msix, .xlat, .recorder],
      [.hmmu, .ctx, .rpl, .grm, .cmmu, .wst, .cvu, .hbmc, .ring, .eng, .door]⟩ s u := by
  have moves := State.argmaxReads_moves (σ := ⟨false, [.out, .msix, .xlat, .recorder],
    [.hmmu, .ctx, .rpl, .grm, .cmmu, .wst, .cvu, .hbmc, .ring, .eng, .door]⟩) (s := s) .refl a k ext .refl
  rwa [h] at moves

theorem State.argmaxWrites_besideStores (s : State) (a : MemAccess) (k : EngCmd) (cs : List (Nat × List Cand)) :
    s.Keeps Channel.besideStores (s.argmaxWrites a k cs).1 := by
  refine foldl_keeps (P := fun acc : State × Bool => s.Keeps Channel.besideStores acc.1) (fun acc pc _ h => ?_) .refl
  split
  · exact h.trans (State.writeVa_besideStores ..)
  · exact h

/-- The command has come to the head of an engine's queue and may merge (R399). -/
structure State.AtMerge (s : State) (c : Ch) (e : SlotId) (k : EngCmd) : Prop where
  powered : s.dev.powered = true
  head : (s.engine c e).queue.head? = some k
  argmax : k.op = opArgmax
  noDrain : (s.engine c e).drain = none
  runs : s.engRuns c e = true
  context : s.ctxRuns k.ctx = true

/-- What the merge does with the candidates that it has read: where one was poisoned the command ends TILE_LOST (R585),
and otherwise it ends once all merged ones are written. -/
def State.mergeEnd (s : State) (c : Ch) (e : SlotId) (k : EngCmd) (poisoned : Bool) (cs : List (Nat × List Cand)) : State :=
  if poisoned then (s.metPoison c (consumerArgmax e) 0).dismiss c e k stTileLost
  else
    let r := s.argmaxWrites (drainAccess c e k) k cs
    if r.2 then r.1.dismiss c e k stOk else r.1

theorem exec_argmaxMerge (h : s.AtMerge c e k) {ext : List Byte}
    (hr : s.argmaxReads (drainAccess c e k) k ext = (u, o, cs)) (hdone : o.done = true) :
    exec (.argmaxMerge c e ext) s = .next (u.mergeEnd c e k o.poisoned cs) := by
  obtain ⟨hp, hh, hk, hd, hrun, hctx⟩ := h
  rw [exec, execArgmaxMerge, live_of_powered hp]
  obtain ⟨w, written⟩ : ∃ w, u.argmaxWrites (drainAccess c e k) k cs = w := ⟨_, rfl⟩
  obtain ⟨v, _ | _⟩ := w <;> simp [hh, hk, hd, hrun, hctx, hr, hdone, State.mergeEnd, written]

/-- A completion shows in the host commands of its channel alone. -/
theorem completedWith_of_cmds {c st : Nat} (h : CompletedWith s t c k st) (hs : (u.chan c).cmds = (s.chan c).cmds) :
    CompletedWith u t c k st := by
  unfold CompletedWith
  rw [hs]
  exact h

theorem State.metPoison_chans (s : State) (c consumer addr : Nat) : (s.metPoison c consumer addr).chans = s.chans :=
  State.logOut_chans ..

/-- A command has completed with a status, and the head of its engine's queue is gone. -/
structure State.Dismissed (s t : State) (c : Ch) (e : SlotId) (k : EngCmd) (st : Nat) : Prop where
  completed : CompletedWith s t c k st
  queue : (t.engine c e).queue.map (·.uid) = (s.engine c e).queue.tail.map (·.uid)

theorem State.dismiss_dismissed (s : State) (c : Ch) (e : SlotId) (k : EngCmd) (st : Nat) :
    s.Dismissed (s.dismiss c e k st) c e k st := ⟨State.dismiss_completes .refl c e, s.dismiss_queue c e k st⟩

/-- A command that is dismissed after a change of stores alone is dismissed from before it. -/
theorem State.Dismissed.of_besideStores {st : Nat} (h : s.Dismissed t c e k st) (hu : u.Keeps Channel.besideStores s) :
    u.Dismissed t c e k st := by
  obtain ⟨completed, queue⟩ := h
  refine ⟨completedWith_of_cmds completed ((hu.map Channel.cmds).same c).symm, ?_⟩
  rw [queue, hu.engine_besideStores]

theorem State.dismiss_sameStores (s : State) (c e : Nat) (k : EngCmd) (st : Nat) : s.sameStores (s.dismiss c e k st) :=
  (State.dismiss_moves .refl c e k st .refl : Moves ⟨false, [.chans], [.eng]⟩ s _).sameStores rfl

/-- Settles O43: the reads leave the channels and the writes all but their stores, so the command that is dismissed after
them is the head of the queue as it was. -/
theorem argmaxMerge : Obligations.ArgmaxMerge := by
  intro c e ext s u k o cs hp hh hk hd hrun hctx hr hdone
  have read := State.argmaxReads_moves_of hr
  have chans : u.chans = s.chans := read.parts .chans (by decide)
  refine ⟨_, exec_argmaxMerge ⟨hp, hh, hk, hd, hrun, hctx⟩ hr hdone, fun v hpoison hw => ?_, fun hpoison => ?_⟩
  · have written := u.argmaxWrites_besideStores (drainAccess c e k) k cs
    rw [State.mergeEnd, hpoison, if_neg Bool.false_ne_true, hw]
    rw [hw] at written
    obtain ⟨completed, queue⟩ := (v.dismiss_dismissed c e k stOk).of_besideStores
      ((State.Keeps.of_chans chans).trans written)
    exact ⟨v.dismiss_sameStores c e k stOk, completed, queue⟩
  · rw [State.mergeEnd, if_pos hpoison]
    have met := (State.metPoison_chans u c (consumerArgmax e) 0).trans chans
    obtain ⟨completed, queue⟩ := ((u.metPoison c (consumerArgmax e) 0).dismiss_dismissed c e k stTileLost).of_besideStores
      (.of_chans met)
    refine ⟨fun i => ?_, completed, queue⟩
    rw [← State.chan_congr met i]
    exact State.dismiss_sameStores _ c e k stTileLost i

end Sys2Proof.Machine
end

section
/-!
## What accesses and writes leave of a CVU (R245, R298, R434)

An access that stalls the CVU counts and raises its interrupt on the CVU's page; a segment that is written makes its
readers forget what they hold of it. No other word of the page and no other part of the unit changes.
-/

namespace Sys2Proof.Machine

variable {s t u : State} {c : Ch}

theorem State.Beside.of_moves {σ : Scope} {p : Page} {os : List Nat} (h : Moves σ s t) (hp : pageKind p ∉ σ.kinds) :
    s.Beside p os t := fun o _ _ => h.words p hp o

theorem State.Beside.ite {p : Page} {os : List Nat} {b : Prop} [Decidable b] (h1 : s.Beside p os t) (h2 : s.Beside p os u) :
    s.Beside p os (if b then t else u) := by
  split <;> assumption

/-- The words of a CVU's page that an access changes where it stalls: INT_RAW and the count of stalls. -/
def cvuStallWords : List Nat := [0x10, 0x110]

/-- Nothing of a CVU's page has changed but what its stalls change. -/
abbrev State.BesideCvuStall (c : Ch) (s t : State) : Prop := s.Beside (.cvu c) cvuStallWords t

theorem State.onStall_besideCvuStall (s : State) : ∀ r, s.BesideCvuStall c (s.onStall r)
  | .cvu _ => (State.Beside.wr _ _ _ (by decide) (.inr (by decide))).trans (.raise _ _ _ (.inr (by decide)))
  | .ringFetch _ _ | .drain _ _ => (State.Beside.wr _ _ _ (by decide) (.inl Page.noConfusion)).trans
      (.raise _ _ _ (.inl Page.noConfusion))
  | .lodger _ b => (State.Beside.wr _ _ _ (by split <;> decide) (.inl Page.noConfusion)).trans
      (.raise _ _ _ (.inl Page.noConfusion))
  | .addrGen _ _ _ | .transfer _ _ _ => .raise _ _ _ (.inl Page.noConfusion)
  | .save _ _ => .ite (.of_sameWords (State.sameWords.refl.wr (List.mem_singleton_self _)) (by simp)) .refl
  | .splitRead _ _ | .scan _ _ | .initRead _ _ | .copy _ | .seal _ _ _ | .landing _ _ | .sync _ _ => .refl
  | .recorder _ | .completion _ _ | .walk _ _ => .refl

theorem State.fault_besideCvuStall (s : State) (a : MemAccess) (cause level : Nat) :
    s.BesideCvuStall c (s.fault a cause level) := by
  have stopped : Moves ⟨false, [.out, .msix, .recorder], [.rpl]⟩ s (s.stopReplay stopControl) :=
    State.stopReplay_moves .refl _ .refl
  have entered (f : FaultEntry) : Moves ⟨false, [.out, .msix, .xlat, .recorder], [.hmmu, .rpl, .cmmu]⟩ s
      (s.enterFault f) :=
    State.enterFault_moves .refl f .refl
  have held (v : State) : Moves ⟨false, [.out, .msix], [.hmmu]⟩ v (v.heldSince s) := State.heldSince_moves .refl s .refl
  unfold State.fault
  exact .ite (.of_moves stopped (by simp [pageKind])) (((State.Beside.of_moves (entered _) (by simp [pageKind])).trans
    (State.onStall_besideCvuStall _ _)).trans (.of_moves (held _) (by simp [pageKind])))

theorem State.modCache_besideCvuStall (s : State) (k : CacheId) (f : Cache → Cache) :
    s.BesideCvuStall c (s.modCache k f) := fun _ _ _ => rfl

theorem State.walkFor_besideCvuStall (s : State) (k : CacheId) (a : MemAccess) : s.BesideCvuStall c (s.walkFor k a) := by
  unfold State.walkFor
  extract_lets x same v
  have missed : s.BesideCvuStall c v := by
    unfold v
    split
    · exact .wr _ _ _ (by decide) (.inl Page.noConfusion)
    · exact .refl
  clear_value v
  refine .ite .refl (.ite (missed.trans (v.fault_besideCvuStall _ _ _)) ?_)
  split
  · exact missed.trans (v.modCache_besideCvuStall _ _)
  · split <;> exact missed.trans (v.modCache_besideCvuStall _ _)

theorem State.reach_besideCvuStall (s : State) (a : MemAccess) : s.BesideCvuStall c (s.reach a).1 := by
  have touched (f : Cache → Cache) (b : Prop) [Decidable b] (o : Option (Target × Nat)) : s.BesideCvuStall c
      (if b then (s.modCache (reqCache a.req) f, o) else (s.fault a causeOutOfRange 3, none)).1 := by
    split
    · exact s.modCache_besideCvuStall _ _
    · exact s.fault_besideCvuStall _ _ _
  unfold State.reach
  dsimp only
  split
  · exact .refl
  · split
    · exact s.walkFor_besideCvuStall _ _
    · split
      · exact s.fault_besideCvuStall _ _ _
      · exact touched _ _ _

/-! ## Writes -/

/-- The parts of a channel's CVU that no write changes: the lane to be checked next, the blocks it has counted; and the
number of the channel's next dither. -/
def Channel.cvuCounts (x : Channel) : Nat × Nat × Nat := (x.cvu.lane, x.cvu.blocks, x.narrowed)

/-- What a write leaves of a CVU: its page but for its stalls, and what it counts. -/
structure State.CvuWrites (c : Ch) (s t : State) : Prop where
  words : s.BesideCvuStall c t
  counts : s.Keeps Channel.cvuCounts t

theorem State.CvuWrites.refl : s.CvuWrites c s := ⟨State.Beside.refl, .refl⟩

theorem State.CvuWrites.trans (h1 : s.CvuWrites c t) (h2 : t.CvuWrites c u) : s.CvuWrites c u :=
  ⟨h1.words.trans h2.words, h1.counts.trans h2.counts⟩

theorem State.storeBytes_besideCvuStall (s : State) (r : RequesterId) (tg : Target) (addr : Nat) (bs : List Byte)
    (mask : Option (List Byte)) : s.BesideCvuStall c (s.storeBytes r tg addr bs mask) :=
  .of_moves (State.storeBytes_moves (σ := ⟨true, [.out, .chans], [.hbmc]⟩) .refl r tg addr bs mask .refl)
    (by simp [pageKind])

theorem writePage_besideCvuStall (a : MemAccess) (p : Piece) (st : State × Nat × Bool) (page : Nat × Nat) :
    st.1.BesideCvuStall c (writePage a p st page).1 := by
  obtain ⟨s, n, ok⟩ := st
  have reached : s.BesideCvuStall c (s.reach { a with va := page.1, write := true }).1 := s.reach_besideCvuStall _
  unfold writePage
  dsimp only
  split
  · exact .refl
  · split
    · next h => rwa [h] at reached
    · next h =>
      rw [h] at reached
      exact reached.trans (State.storeBytes_besideCvuStall _ _ _ _ _ _)

theorem State.writeSome_besideCvuStall (s : State) (a : MemAccess) (ps : List Piece) :
    s.BesideCvuStall c (s.writeSome a ps).1 := by
  induction ps generalizing s with
  | nil => exact .refl
  | cons p ps ih =>
    have pages : s.BesideCvuStall c ((piecesOf p.va p.bytes.length).foldl (writePage a p) (s, 0, true)).1 :=
      foldl_keeps (P := fun st : State × Nat × Bool => s.BesideCvuStall c st.1)
        (fun st page _ h => h.trans (writePage_besideCvuStall a p st page)) .refl
    unfold State.writeSome
    split
    · next h =>
      rw [h] at pages
      exact pages.trans (ih _)
    · next h => rwa [h] at pages

theorem State.reachAll_besideCvuStall (s : State) (a : MemAccess) (n : Nat) :
    s.BesideCvuStall c (s.reachAll a n).1 := by
  refine foldl_keeps (P := fun r : State × Option (List (Target × Nat × Nat)) => s.BesideCvuStall c r.1)
    (fun r p _ h => ?_) .refl
  have reached := h.trans (r.1.reach_besideCvuStall (c := c) { a with va := p.1 })
  split
  · exact h
  · split <;> next h => rwa [h] at reached

theorem State.reachPieces_besideCvuStall (s : State) (a : MemAccess) (ps : List Piece) :
    s.BesideCvuStall c (s.reachPieces a ps).1 := by
  refine foldl_keeps (P := fun acc : State × Option (List (Piece × List (Target × Nat × Nat))) =>
    s.BesideCvuStall c acc.1) (fun acc p _ h => ?_) .refl
  have reached := h.trans
    (acc.1.reachAll_besideCvuStall (c := c) { a with va := p.va, write := true } p.bytes.length)
  split
  · exact h
  · split <;> next h => rwa [h] at reached

theorem State.writeWhole_besideCvuStall (s : State) (a : MemAccess) (ps : List Piece) :
    s.BesideCvuStall c (s.writeWhole a ps).1 := by
  have reached : s.BesideCvuStall c (s.reachPieces a ps).1 := s.reachPieces_besideCvuStall a ps
  unfold State.writeWhole
  split
  · next h => rwa [h] at reached
  · next h =>
    rw [h] at reached
    refine reached.trans (State.Beside.fold (fun u x _ => ?_) _)
    exact foldl_keeps (P := fun st : State × Nat => u.BesideCvuStall c st.1)
      (fun st y _ h => h.trans (State.storeBytes_besideCvuStall _ _ _ _ _ _)) .refl

theorem State.Keeps.cvuCounts (h : s.Keeps Channel.besideStores t) : s.Keeps Channel.cvuCounts t := h.map Channel.cvuCounts

theorem State.forgetSegment_cvuWrites (s : State) (ctx va : Nat) : s.CvuWrites c (s.forgetSegment ctx va) where
  words := .of_moves (State.forgetSegment_moves (σ := ⟨false, [.chans], []⟩) .refl ctx va .refl) List.not_mem_nil
  counts := State.Keeps.refl.fold fun u d _ => u.modChan_keeps d

/-- The writes of a unit leave a CVU's page but for its stalls, and what it counts (R245, R247, R434). -/
theorem State.writeOut_cvuWrites (a : MemAccess) (fuel : Nat) (s : State) (ps : List Piece) :
    s.CvuWrites c (State.writeOut a fuel s ps).1 := by
  induction fuel generalizing s ps with
  | zero => exact .refl
  | succ fuel ih =>
    unfold State.writeOut
    split
    · exact .refl
    · next p rest _ =>
      have written : s.CvuWrites c (s.writeSome a [p]).1 :=
        ⟨s.writeSome_besideCvuStall a [p], (s.writeSome_besideStores a [p]).cvuCounts⟩
      split
      · next h => rw [h] at written; exact written.trans (ih _ _)
      · next h => rwa [h] at written
    · next p w rest _ _ =>
      have written : s.CvuWrites c (s.writeWhole a (p :: w)).1 :=
        ⟨s.writeWhole_besideCvuStall a _, (s.writeWhole_besideStores a _).cvuCounts⟩
      split
      · next h => rwa [h] at written
      · next h =>
        rw [h] at written
        exact (written.trans (State.forgetSegment_cvuWrites _ _ _)).trans (ih _ _)

end Sys2Proof.Machine
end

section
/-!
## The CVU's commands (R292 to R294, R297, R301, R303)
-/

namespace Sys2Proof.Machine

variable {s t u v : State} {c : Ch} {r x : CvuRun} {k : EngCmd} {st : Nat}

theorem cvuPage_val (c : Ch) : cvuPage c = .cvu c := by simp [cvuPage]

theorem State.modCvu_moves_self (s : State) (c : Nat) (f : Cvu → Cvu) : Moves ⟨false, [.chans], []⟩ s (s.modCvu c f) :=
  State.modCvu_moves .refl c f .refl

theorem State.modCvu_sameStores (s : State) (c : Nat) (f : Cvu → Cvu) : s.sameStores (s.modCvu c f) :=
  (s.modCvu_moves_self c f).sameStores rfl

theorem State.rd_modCvu (s : State) (c : Nat) (f : Cvu → Cvu) (p : Page) (g : Fld) :
    (s.modCvu c f).rd p g = s.rd p g := rfl

theorem State.modCvu_ends (s : State) (c : Nat) (f : Cvu → Cvu) : s.Ends st (s.modCvu c f) :=
  s.modChan_ends c (.of_eq rfl rfl)

theorem State.cvu_modCvu_same (s : State) (c : Nat) (f : Cvu → Cvu) :
    ((s.modCvu c f).chan c).cvu = f (s.chan c).cvu := by
  rw [State.modCvu, State.chan_modChan, if_pos rfl]

/-- The CVU runs, and so does the context of its command. -/
structure State.AtCvu (s : State) (c : Ch) (r : CvuRun) : Prop where
  powered : s.dev.powered = true
  unit : s.unitRuns c (.cvu c) = true
  run : (s.chan c).cvu.run = some r
  context : s.ctxRuns r.cmd.ctx = true

/-! ## The start of a command (R294) -/

/-- A command has left the queue of the CVU, and runs. -/
def State.cvuStarted (s : State) (c : Ch) (r : CvuRun) (rest : List CvuRun) : State :=
  ((s.modCvu c fun u => { u with queue := rest, run := some r }).wr (.cvu c) Reg.cvuStat_BUSY 1).wr (.cvu c)
    Reg.cvuStat_CTX ((s.slotOfCtx r.cmd.ctx).getD 0)

theorem exec_cvuCommandStart {rest : List CvuRun} (hp : s.dev.powered = true) (hu : s.unitRuns c (.cvu c) = true)
    (hr : (s.chan c).cvu.run = none) (hq : (s.chan c).cvu.queue = r :: rest) (hc : s.ctxRuns r.cmd.ctx = true) :
    exec (.cvuCommandStart c) s = .next (s.cvuStarted c r rest) := by
  rw [exec, execCvuCommandStart, live_of_powered hp]
  simp [hu, hr, hq, hc, State.cvuStarted]

theorem State.cvuStarted_chan (s : State) (c : Ch) (r : CvuRun) (rest : List CvuRun) :
    ((s.cvuStarted c r rest).chan c).cvu = { (s.chan c).cvu with queue := rest, run := some r } := by
  rw [State.cvuStarted, State.chan_congr (State.wr_chans ..), State.chan_congr (State.wr_chans ..),
    State.cvu_modCvu_same]

theorem State.rd_cvuStarted_busy (s : State) (c : Ch) (r : CvuRun) (rest : List CvuRun) :
    (s.cvuStarted c r rest).rd (.cvu c) Reg.cvuStat_BUSY = 1 := by
  rw [State.cvuStarted, State.rd_wr_off _ _ (by decide) (by decide) (by decide) (by decide) (.inr (by decide)),
    State.rd_wr_same _ _ _ (by decide)]
  rfl

theorem State.cvuStarted_sameWords (s : State) (c : Ch) (r : CvuRun) (rest : List CvuRun) :
    s.sameWords (s.cvuStarted c r rest) [.cvu c] :=
  ((State.sameWords.refl.of_regs rfl).wr (List.mem_singleton_self _)).wr (List.mem_singleton_self _)

/-! ## The end of a command (R293, R294, R585) -/

/-- A command has left the CVU with a status. -/
structure State.CvuLeft (s t : State) (c : Ch) (k : EngCmd) (st : Nat) : Prop where
  free : (t.chan c).cvu.run = none
  completed : CompletedWith s t c k st
  idle : t.rd (.cvu c) Reg.cvuStat_BUSY = 0

theorem State.cvuEnd_left (s : State) (c : Ch) (k : EngCmd) (st : Nat) : s.CvuLeft (s.cvuEnd c k st) c k st := by
  have chans : (s.cvuEnd c k st).chans = ((s.modCvu c fun u => { u with run := none }).ecDone c k st).chans :=
    State.wr_chans ..
  have kept : (s.modCvu c fun u => { u with run := none }).Keeps Channel.cvu
      ((s.modCvu c fun u => { u with run := none }).ecDone c k st) :=
    .ite .refl (State.modCmd_keeps (fun _ _ => rfl) _ c _ _)
  refine ⟨?_, completedWith_of_chans (completedWith_of_done ((s.modCvu_ends c _).trans (State.ecDone_ends _ c k st))
    fun ha => State.ecDone_done _ c ha st) rfl chans, ?_⟩
  · rw [State.chan_congr chans, kept.same c, State.cvu_modCvu_same]
  · rw [State.cvuEnd, cvuPage_val, State.rd_wr_same _ _ _ (by decide)]
    rfl

/-- The end of a command shows in the channels and on the CVU's page. -/
theorem State.CvuLeft.congr (h : s.CvuLeft t c k st) (hc : u.chans = t.chans)
    (hw : u.rd (.cvu c) Reg.cvuStat_BUSY = t.rd (.cvu c) Reg.cvuStat_BUSY) : s.CvuLeft u c k st := by
  obtain ⟨free, completed, idle⟩ := h
  exact ⟨by rw [State.chan_congr hc, free], completedWith_of_chans completed rfl hc, hw.trans idle⟩

theorem State.cvuEnd_sameStores (s : State) (c : Nat) (k : EngCmd) (st : Nat) : s.sameStores (s.cvuEnd c k st) :=
  (State.cvuEnd_moves .refl c k st .refl : Moves ⟨false, [.chans], [.cvu]⟩ s _).sameStores rfl

theorem State.sameStores.of_chans (h : s.sameStores t) (hu : u.chans = s.chans) (hv : v.chans = t.chans) :
    u.sameStores v := fun d => by
  rw [State.chan_congr hu, State.chan_congr hv]
  exact h d

theorem State.rd_cvuEnd_counts (s : State) (c : Ch) (k : EngCmd) (st : Nat) :
    (s.cvuEnd c k st).rd (.cvu c) Reg.cvuCnt_CMDS = s.rd (.cvu c) Reg.cvuCnt_CMDS := by
  have done : Moves ⟨false, [.chans], []⟩ s ((s.modCvu c fun u => { u with run := none }).ecDone c k st) :=
    State.ecDone_moves (s.modCvu_moves_self c _) c k st .refl
  rw [State.cvuEnd, cvuPage_val, State.rd_wr_off _ _ (by decide) (by decide) (by decide) (by decide) (.inl (by decide)),
    done.rd_eq List.not_mem_nil]

/-- A command that has completed is counted (R300). -/
def State.cvuDone (s : State) (c : Ch) (k : EngCmd) : State := (s.cvuEnd c k stOk).bump (.cvu c) Reg.cvuCnt_CMDS

theorem State.cvuDone_left (s : State) (c : Ch) (k : EngCmd) : s.CvuLeft (s.cvuDone c k) c k stOk :=
  (s.cvuEnd_left c k stOk).congr (State.bump_chans ..)
    (State.rd_bump_off _ _ (by decide) (by decide) (by decide) (by decide) (.inl (by decide)))

theorem State.cvuDone_sameStores (s : State) (c : Ch) (k : EngCmd) : s.sameStores (s.cvuDone c k) :=
  (s.cvuEnd_sameStores c k stOk).of_chans rfl (State.bump_chans ..)

theorem State.rd_cvuDone_counts (s : State) (c : Ch) (k : EngCmd) : (s.cvuDone c k).rd (.cvu c) Reg.cvuCnt_CMDS =
    min (s.rd (.cvu c) Reg.cvuCnt_CMDS + 1) (2 ^ Reg.cvuCnt_CMDS.w - 1) := by
  rw [State.cvuDone, State.rd_bump_same _ _ _ (by decide), State.rd_cvuEnd_counts]

theorem exec_cvuCommandComplete (h : s.AtCvu c r) (hb : cvuTotal r.cmd ≤ r.block) (hs : bSbaddr r.cmd.descs = 0) :
    exec (.cvuCommandComplete c) s = .next (s.cvuDone c r.cmd) := by
  obtain ⟨hp, hu, hr, hc⟩ := h
  rw [exec, execCvuCommandComplete, live_of_powered hp]
  simp [hu, hr, hc, hs, Nat.not_lt.mpr hb, State.cvuDone]

/-- The command's sideband record is written where its last byte can be (R293). -/
theorem exec_cvuCommandComplete_sideband (h : s.AtCvu c r) (hb : cvuTotal r.cmd ≤ r.block)
    (hs : bSbaddr r.cmd.descs ≠ 0) {n : Nat}
    (hw : s.writeVa { cvuAccess c r.cmd with va := bSbaddr r.cmd.descs, write := true } hbmData
      (leBytes 16 (unitSideband c r.cmd r.counts)) = (u, n, true)) :
    exec (.cvuCommandComplete c) s = .next (u.cvuDone c r.cmd) := by
  obtain ⟨hp, hu, hr, hc⟩ := h
  rw [exec, execCvuCommandComplete, live_of_powered hp]
  simp [hu, hr, hc, hs, Nat.not_lt.mpr hb, hw, State.cvuDone]

/-! ## The reads of a block (R301) -/

theorem State.cvuRead_chans (s : State) (c : Ch) (r : CvuRun) (ext : List Byte) :
    (s.cvuRead c r ext).1.chans = s.chans :=
  (State.cvuRead_moves (σ := ⟨false, [.out, .msix, .xlat, .recorder],
    [.hmmu, .ctx, .rpl, .grm, .cmmu, .wst, .cvu, .hbmc, .ring, .eng, .door]⟩) .refl c r ext .refl).parts .chans (by decide)

/-- The reads of a block change nothing of the command but what they have moved. -/
theorem State.cvuRead_keeps (s : State) (c : Ch) (r : CvuRun) (ext : List Byte) :
    (s.cvuRead c r ext).2.1.cmd = r.cmd ∧ (s.cvuRead c r ext).2.1.block = r.block ∧
      (s.cvuRead c r ext).2.1.counts = r.counts := by
  unfold State.cvuRead
  dsimp only
  split
  · exact ⟨rfl, rfl, rfl⟩
  · split
    · exact ⟨rfl, rfl, rfl⟩
    · split <;> exact ⟨rfl, rfl, rfl⟩

/-- What the CVU does where the reads of a block have come to an end, or wait. -/
def State.cvuSettle (s : State) (c : Ch) (k : EngCmd) (x : CvuRun) (done mismatch : Bool) : State :=
  if done = false then s.modCvu c fun u => { u with run := u.run.map fun _ => x }
  else if x.poisoned then (s.cvuEnd c k stTileLost).metPoison c consumerCvu 0
  else (s.cvuForm c x mismatch).cvuWrite c

theorem exec_cvuBlockComplete (h : s.AtCvu c r) (hb : r.block < cvuTotal r.cmd) (hf : r.formed = false)
    (hm : s.mayRecord c = true) {ext : List Byte} {done : Bool} (hr : s.cvuRead c r ext = (u, x, done)) (mismatch : Bool) :
    exec (.cvuBlockComplete c mismatch ext) s = .next (u.cvuSettle c r.cmd x done mismatch) := by
  obtain ⟨hp, hu, hrun, hc⟩ := h
  rw [exec, execCvuBlockComplete, live_of_powered hp]
  cases done <;> simp [hu, hrun, hc, Nat.not_le.mpr hb, hf, hm, hr, State.cvuSettle]

/-! ## A block that differs (R303, R589) -/

/-- The unit has issued the beats of a block, and its 65th lane goes on to the next lane (R297, R303). -/
def State.cvuIssued (s : State) (c : Ch) (x : CvuRun) (ok : Bool) : State :=
  ((s.active x.cmd.ctx).wrap (.cvu c) Reg.cvuBusy_CYCLES (x.operands.inputs.length * ceilDiv (cvuDepth x.cmd) 32)).modCvu c
    fun u => { u with lane := (u.lane + 1) % 64, blocks := u.blocks + bit ok }

theorem State.cvuForm_mismatch (s : State) (c : Ch) (x : CvuRun) :
    s.cvuForm c x true = (s.cvuIssued c x false).cvuMismatch c x := rfl

theorem State.cvuStrike_moves_self (s : State) (c : Nat) :
    Moves ⟨false, [.out, .msix, .recorder, .chans], [.rpl]⟩ s (s.cvuStrike c) := State.cvuStrike_moves .refl c .refl

/-- A strike leaves the command that runs. -/
theorem State.cvuStrike_run (s : State) (c : Nat) : s.Keeps (·.cvu.run) (s.cvuStrike c) := by
  have upset : (s.upset (0x7f, 0) id).chans = s.chans :=
    (State.upset_moves .refl _ _ .refl (fun _ h => h) : Moves ⟨false, [.out, .msix, .recorder], [.rpl]⟩ s _).parts
      .chans (by decide)
  have struck (f : Cvu → Cvu) (hf : ∀ u, (f u).run = u.run) : s.Keeps (·.cvu.run) (s.modCvu c f) :=
    s.modChan_keeps c fun x => hf x.cvu
  unfold State.cvuStrike
  dsimp only
  refine .ite (.of_chans upset) (.ite ((struck _ ?_).trans (State.modChan_keeps _ c)) (struck _ ?_)) <;> exact fun _ => rfl

/-- A block that differs is due again, from the first of its reads. -/
theorem State.cvuMismatch_run (s : State) (c : Ch) (x : CvuRun) :
    ((s.cvuMismatch c x).chan c).cvu.run = some (x.anew x.block) := by
  rw [State.cvuMismatch, (State.cvuStrike_run _ c).same c, State.chan_congr (State.logOut_chans ..),
    State.chan_congr (State.raise_chans ..), State.chan_congr (State.bump_chans ..), State.cvu_modCvu_same]

/-- The CVU's page after a block that differs is as after its count and its event. -/
theorem State.rd_cvuMismatch (s : State) (c : Ch) (x : CvuRun) (f : Fld) : (s.cvuMismatch c x).rd (.cvu c) f =
    (((s.modCvu c fun u => { u with run := some (x.anew x.block) }).bump (.cvu c) Reg.cvuCnt_CHK_MISMATCH).raise
      (.cvu c) 1).rd (.cvu c) f := by
  rw [State.cvuMismatch, (State.cvuStrike_moves_self _ c).rd_eq (q := .cvu c) (by simp [pageKind]),
    State.rd_logOut_page _ Page.noConfusion]

theorem State.rd_cvuMismatch_count (s : State) (c : Ch) (x : CvuRun) :
    (s.cvuMismatch c x).rd (.cvu c) Reg.cvuCnt_CHK_MISMATCH =
      min (s.rd (.cvu c) Reg.cvuCnt_CHK_MISMATCH + 1) (2 ^ Reg.cvuCnt_CHK_MISMATCH.w - 1) := by
  rw [State.rd_cvuMismatch, State.rd_raise_off _ _ (by decide) (by decide) (by decide),
    State.rd_bump_same _ _ _ (by decide), State.rd_modCvu]

theorem State.rd_cvuMismatch_raw (s : State) (c : Ch) (x : CvuRun) :
    ((s.cvuMismatch c x).rd (.cvu c) Reg.intRaw_RAW).testBit 1 = true := by
  rw [State.rd_cvuMismatch, State.rd_raise_raw, Nat.testBit_mod_two_pow, Nat.testBit_or, Nat.testBit_two_pow_self]
  simp

/-- Of the CVU's page the beats of a block change CVU_BUSY alone (R299). -/
theorem State.rd_cvuIssued (s : State) (c : Ch) (x : CvuRun) (ok : Bool) {f : Fld}
    (hf : ∀ o ∈ f.words, o < 4096 ∧ o ∉ Reg.cvuBusy_CYCLES.words) :
    (s.cvuIssued c x ok).rd (.cvu c) f = s.rd (.cvu c) f := by
  have issued : s.Beside (.cvu c) Reg.cvuBusy_CYCLES.words (s.cvuIssued c x ok) :=
    State.Beside.trans (.of_sameWords (s.active_sameWords x.cmd.ctx) (by simp))
      (State.Beside.trans (.wr _ _ _ (by decide) (.inr (List.Subset.refl _)))
        (.of_sameWords (ps := []) (State.sameWords.refl.of_regs rfl) List.not_mem_nil))
  exact issued.rd hf

/-- The beats of a block count in CVU_BUSY (R297, R299). -/
theorem State.rd_cvuIssued_busy (s : State) (c : Ch) (x : CvuRun) (ok : Bool) :
    (s.cvuIssued c x ok).rd (.cvu c) Reg.cvuBusy_CYCLES =
      (s.rd (.cvu c) Reg.cvuBusy_CYCLES + x.operands.inputs.length * ceilDiv (cvuDepth x.cmd) 32) % 2 ^ 64 := by
  rw [State.cvuIssued, State.rd_modCvu, State.wrap, State.rd_wr_same_pair _ _ _ (by decide) (by decide) (by decide),
    Nat.mod_mod, (s.active_sameWords x.cmd.ctx).rd (by simp)]
  rfl

theorem State.cvuIssued_chan (s : State) (c : Ch) (x : CvuRun) (ok : Bool) :
    (s.cvuIssued c x ok).chan c =
      { s.chan c with cvu := { (s.chan c).cvu with
          lane := ((s.chan c).cvu.lane + 1) % 64, blocks := (s.chan c).cvu.blocks + bit ok } } := by
  rw [State.cvuIssued, State.modCvu, State.chan_modChan, if_pos rfl, State.chan_congr (State.wrap_chans ..),
    State.chan_congr (State.active_chans ..)]

/-! ## The writes of a block (R292) -/

/-- The command after what could be written of a formed block has been: the next block is due once nothing is left. -/
def CvuRun.written (r : CvuRun) (ps : List Piece) : CvuRun :=
  if ps = [] then r.anew (r.block + 1) else { r with out := ps }

theorem State.cvuWrite_unformed (hr : (s.chan c).cvu.run = some r) (hf : r.formed = false) : s.cvuWrite c = s := by
  rw [State.cvuWrite, hr]
  simp [hf]

theorem State.cvuWrite_formed (hr : (s.chan c).cvu.run = some r) (hf : r.formed = true) {ps : List Piece}
    (hw : s.writeOut (cvuAccess c r.cmd) (r.out.length + 1) r.out = (u, ps)) :
    s.cvuWrite c = u.modCvu c fun v => { v with run := some (r.written ps) } := by
  rw [State.cvuWrite, hr]
  cases ps <;> simp [hf, hw, CvuRun.written]

/-- What the writes of a block leave: the unit's counts and its page, and of its command only what is left to write. -/
structure State.CvuWritten (s t : State) (c : Ch) (y : CvuRun) : Prop where
  run : (t.chan c).cvu.run = some y
  counts : s.Keeps Channel.cvuCounts t
  busy : t.rd (.cvu c) Reg.cvuBusy_CYCLES = s.rd (.cvu c) Reg.cvuBusy_CYCLES

theorem State.writeOut_written {a : MemAccess} {n : Nat} {ps qs : List Piece} (hw : s.writeOut a n ps = (u, qs))
    (y : CvuRun) : s.CvuWritten (u.modCvu c fun v => { v with run := some y }) c y := by
  obtain ⟨words, counts⟩ := State.writeOut_cvuWrites (c := c) a n s ps
  rw [hw] at words counts
  exact ⟨by rw [State.cvu_modCvu_same], counts.trans (u.modChan_keeps c), words.rd (by decide)⟩

theorem exec_cvuBlockComplete_formed (h : s.AtCvu c r) (hb : r.block < cvuTotal r.cmd) (hf : r.formed = true)
    (mismatch : Bool) (ext : List Byte) : exec (.cvuBlockComplete c mismatch ext) s = .next (s.cvuWrite c) := by
  obtain ⟨hp, hu, hrun, hc⟩ := h
  rw [exec, execCvuBlockComplete, live_of_powered hp]
  simp [hu, hrun, hc, Nat.not_le.mpr hb, hf]

/-! ## A block on which the checker agrees (R292, R297, R303) -/

/-- The operands that a command has read of a block become codes, and these the pieces that it writes (R292). -/
structure State.CvuOutput (s : State) (c : Ch) (x : CvuRun) (e : Epi) (cs : Codes) (ps : List Piece) (nz : Nat) : Prop where
  codes : cvuCodes c x.cmd (x.block / cvuBlocks x.cmd) (x.block % cvuBlocks x.cmd) (s.chan c).narrowed x.operands
    x.counts = (e, cs)
  pieces : cvuPieces { slot := 0x7f, epoch := 0, ctx := x.cmd.ctx, info := (cvuAccess c x.cmd).info } x.cmd
    (x.block / cvuBlocks x.cmd) (x.block % cvuBlocks x.cmd) cs = (ps, nz)

/-- The command whose block has been formed: its counts, and the writes that are due. -/
def CvuRun.withWrites (x : CvuRun) (e : Epi) (ps : List Piece) (nz : Nat) : CvuRun :=
  { x.anew x.block with counts := { e.d.counts with nzblk := x.counts.nzblk + nz }, formed := true, out := ps }

theorem State.cvuForm_agrees {e : Epi} {cs : Codes} {ps : List Piece} {nz : Nat} (ho : s.CvuOutput c x e cs ps nz) :
    s.cvuForm c x false = ((s.cvuIssued c x true).modChan c fun y => { y with narrowed := e.n }).modCvu c
      fun u => { u with run := some (x.withWrites e ps nz) } := by
  obtain ⟨hcodes, hpieces⟩ := ho
  have narrowed : ((s.cvuIssued c x true).chan c).narrowed = (s.chan c).narrowed := by rw [State.cvuIssued_chan]
  rw [← narrowed, State.cvuIssued] at hcodes
  simp only [State.cvuForm, if_neg Bool.false_ne_true, Bool.not_false, hcodes, hpieces]
  rfl

/-- The unit with a formed block: what it counts, and the writes that are due. -/
structure State.CvuFormed (s t : State) (c : Ch) (x : CvuRun) (e : Epi) (y : CvuRun) : Prop where
  run : (t.chan c).cvu.run = some y
  counts : (t.chan c).cvuCounts = (((s.chan c).cvu.lane + 1) % 64, (s.chan c).cvu.blocks + 1, e.n)
  busy : t.rd (.cvu c) Reg.cvuBusy_CYCLES =
    (s.rd (.cvu c) Reg.cvuBusy_CYCLES + x.operands.inputs.length * ceilDiv (cvuDepth x.cmd) 32) % 2 ^ 64

theorem State.formed_of_issued (s : State) (c : Ch) (x : CvuRun) (e : Epi) (y : CvuRun) :
    s.CvuFormed (((s.cvuIssued c x true).modChan c fun z => { z with narrowed := e.n }).modCvu c
      fun u => { u with run := some y }) c x e y := by
  refine ⟨by rw [State.cvu_modCvu_same], ?_, ?_⟩
  · rw [State.modCvu, State.chan_modChan, if_pos rfl, State.chan_modChan, if_pos rfl, State.cvuIssued_chan]
    rfl
  · rw [State.rd_modCvu, State.rd_modChan, State.rd_cvuIssued_busy]

theorem State.CvuFormed.written {e : Epi} {y z : CvuRun} (h : s.CvuFormed t c x e y) (hw : t.CvuWritten v c z) :
    s.CvuFormed v c x e z := by
  obtain ⟨-, counts, busy⟩ := h
  obtain ⟨run, kept, words⟩ := hw
  exact ⟨run, (kept.same c).trans counts, words.trans busy⟩

theorem State.cvuForm_sameStores (s : State) (c : Ch) (x : CvuRun) (mismatch : Bool) :
    s.sameStores (s.cvuForm c x mismatch) :=
  (State.cvuForm_moves (σ := ⟨false, [.out, .msix, .xlat, .recorder, .chans],
    [.hmmu, .ctx, .rpl, .grm, .cmmu, .wst, .cvu, .hbmc, .ring, .eng, .door]⟩) .refl c x mismatch .refl).sameStores rfl

theorem CvuRun.written_withWrites (x : CvuRun) (e : Epi) (ps : List Piece) (nz : Nat) (qs : List Piece) :
    ((x.withWrites e ps nz).written qs).cmd = x.cmd ∧
      if qs = [] then ((x.withWrites e ps nz).written qs).block = x.block + 1 ∧
        ((x.withWrites e ps nz).written qs).formed = false
      else ((x.withWrites e ps nz).written qs).block = x.block ∧ ((x.withWrites e ps nz).written qs).formed = true ∧
        ((x.withWrites e ps nz).written qs).out = qs := by
  unfold CvuRun.written
  split <;> exact ⟨rfl, by simp [CvuRun.withWrites, CvuRun.anew]⟩

/-! ## The rules -/

/-- Where the reads of a block wait, what they have moved is kept (R301). -/
theorem State.cvuSettle_waits (s : State) (c : Ch) (k : EngCmd) (x : CvuRun) (mismatch : Bool) :
    s.sameStores (s.cvuSettle c k x false mismatch) ∧ (s.cvuSettle c k x false mismatch).regs = s.regs ∧
      ∀ y, ((s.cvuSettle c k x false mismatch).chan c).cvu.run = some y → y = x := by
  rw [State.cvuSettle, if_pos rfl]
  refine ⟨s.modCvu_sameStores c _, rfl, fun y hy => ?_⟩
  rw [State.cvu_modCvu_same, Option.map_eq_some_iff] at hy
  obtain ⟨-, -, rfl⟩ := hy
  rfl

/-- Poisoned operands end the command with TILE_LOST (R585). -/
theorem State.cvuSettle_poisoned (s : State) (c : Ch) (k : EngCmd) (hx : x.poisoned = true) (mismatch : Bool) :
    s.CvuLeft (s.cvuSettle c k x true mismatch) c k stTileLost ∧ s.sameStores (s.cvuSettle c k x true mismatch) := by
  rw [State.cvuSettle, if_neg Bool.noConfusion, if_pos hx]
  exact ⟨(s.cvuEnd_left c k stTileLost).congr (State.metPoison_chans ..) (State.rd_logOut_page _ Page.noConfusion),
    (s.cvuEnd_sameStores c k stTileLost).of_chans rfl (State.metPoison_chans ..)⟩

/-- A block that differs is counted and signalled, and computed again; nothing of it is written (R303, R589). -/
theorem State.cvuSettle_differs (s : State) (c : Ch) (k : EngCmd) (hx : x.poisoned = false) :
    ((s.cvuSettle c k x true true).chan c).cvu.run = some (x.anew x.block) ∧
      (s.cvuSettle c k x true true).rd (.cvu c) Reg.cvuCnt_CHK_MISMATCH =
        min (s.rd (.cvu c) Reg.cvuCnt_CHK_MISMATCH + 1) (2 ^ Reg.cvuCnt_CHK_MISMATCH.w - 1) ∧
      ((s.cvuSettle c k x true true).rd (.cvu c) Reg.intRaw_RAW).testBit 1 = true ∧
      s.sameStores (s.cvuSettle c k x true true) := by
  have settled : s.cvuSettle c k x true true = (s.cvuIssued c x false).cvuMismatch c x := by
    rw [State.cvuSettle, if_neg Bool.noConfusion, if_neg (by simp [hx]), State.cvuForm_mismatch,
      State.cvuWrite_unformed (State.cvuMismatch_run ..) rfl]
  rw [settled]
  exact ⟨State.cvuMismatch_run .., by rw [State.rd_cvuMismatch_count, State.rd_cvuIssued _ _ _ _ (by decide)],
    State.rd_cvuMismatch_raw .., s.cvuForm_sameStores c x true⟩

/-- A block on which the checker agrees is formed, and its writes leave as far as they can (R292, R303). -/
theorem State.cvuSettle_agrees (hx : x.poisoned = false) {e : Epi} {cs : Codes} {ps : List Piece} {nz : Nat}
    {w : State × List Piece} (ho : s.CvuOutput c x e cs ps nz)
    (hw : w = (s.cvuForm c x false).writeOut (cvuAccess c x.cmd) (ps.length + 1) ps) :
    w.1.sameStores (s.cvuSettle c k x true false) ∧
      s.CvuFormed (s.cvuSettle c k x true false) c x e ((x.withWrites e ps nz).written w.2) := by
  have formed := s.formed_of_issued c x e (x.withWrites e ps nz)
  rw [← State.cvuForm_agrees ho] at formed
  rw [State.cvuSettle, if_neg Bool.noConfusion, if_neg (by simp [hx]), State.cvuWrite_formed formed.run rfl hw.symm]
  exact ⟨w.1.modCvu_sameStores c _, formed.written (State.writeOut_written hw.symm _)⟩

/-- Settles O35: every command of the unit is one change of its state or its end, the reads leave the channels, and a
write leaves of the unit's page all but what a stall shows there. -/
theorem cvuCommands : Obligations.CvuCommands := by
  intro c s hp hu
  refine ⟨fun r rest hr hq hc => ?_, fun r ext u x done hr hc hb hf hm hread => ?_,
    fun r ext mismatch w hr hc hb hf hw => ?_, fun r hr hc hb => ?_⟩
  · have ran := exec_cvuCommandStart hp hu hr hq hc
    have cvu := s.cvuStarted_chan c r rest
    exact ⟨_, ran, by rw [cvu], by rw [cvu], s.rd_cvuStarted_busy c r rest, exec_sameStores ran rfl,
      s.cvuStarted_sameWords c r rest⟩
  · have ran := exec_cvuBlockComplete ⟨hp, hu, hr, hc⟩ hb hf hm hread
    have chans := s.cvuRead_chans c r ext
    obtain ⟨hcmd, hblock, hcounts⟩ := s.cvuRead_keeps c r ext
    rw [hread] at chans hcmd hblock hcounts
    dsimp only at chans hcmd hblock hcounts
    refine ⟨?_, ?_, ?_, ?_⟩
    · rintro rfl mismatch
      exact ⟨_, ran mismatch, u.cvuSettle_waits c r.cmd x mismatch⟩
    · rintro rfl hx mismatch
      obtain ⟨⟨free, completed, idle⟩, stores⟩ := u.cvuSettle_poisoned c r.cmd hx mismatch
      exact ⟨_, ran mismatch, free, idle, completedWith_of_chans completed chans.symm rfl,
        stores.of_chans chans.symm rfl⟩
    · rintro rfl hx
      obtain ⟨run, count, raised, stores⟩ := u.cvuSettle_differs c r.cmd hx
      exact ⟨_, ran true, hblock ▸ run, count, raised, stores.of_chans chans.symm rfl⟩
    · rintro e cs ps n f w rfl hx hcodes hpieces rfl hw
      rw [← hcmd, ← hblock, ← hcounts] at hcodes
      rw [← hcmd, ← hblock] at hpieces
      rw [← hcmd] at hw
      obtain ⟨stores, run, counts, busy⟩ := State.cvuSettle_agrees (k := r.cmd) hx ⟨hcodes, hpieces⟩ hw
      obtain ⟨cmd, written⟩ := x.written_withWrites e ps n w.2
      obtain ⟨lane, blocks, narrowed⟩ : _ ∧ _ ∧ _ := by simpa only [Channel.cvuCounts, Prod.mk.injEq] using counts
      rw [← hcmd, ← hblock]
      exact ⟨u.cvuForm_sameStores c x false, _, _, ran false, stores, run, cmd, written, busy, lane, blocks, narrowed⟩
  · have ran := exec_cvuBlockComplete_formed ⟨hp, hu, hr, hc⟩ hb hf mismatch ext
    obtain ⟨v, ps⟩ := w
    have write := State.cvuWrite_formed hr hf hw.symm
    obtain ⟨run, counts, -⟩ := State.writeOut_written (c := c) hw.symm (r.written ps)
    rw [← write] at run counts
    refine ⟨_, ran, ?_, run, congrArg Prod.fst (counts.same c)⟩
    rw [write]
    exact v.modCvu_sameStores c _
  · refine ⟨fun hs => ?_, fun u n hs hw => ?_⟩
    · obtain ⟨free, completed, idle⟩ := s.cvuDone_left c r.cmd
      exact ⟨_, exec_cvuCommandComplete ⟨hp, hu, hr, hc⟩ hb hs, free, completed, idle, s.cvuDone_sameStores c r.cmd,
        s.rd_cvuDone_counts c r.cmd⟩
    · obtain ⟨free, completed, -⟩ := u.cvuDone_left c r.cmd
      have written := s.writeVa_besideStores { cvuAccess c r.cmd with va := bSbaddr r.cmd.descs, write := true } hbmData
        (leBytes 16 (unitSideband c r.cmd r.counts))
      rw [hw] at written
      exact ⟨_, exec_cvuCommandComplete_sideband ⟨hp, hu, hr, hc⟩ hb hs hw, free,
        completedWith_of_cmds completed ((written.map Channel.cmds).same c).symm, u.cvuDone_sameStores c r.cmd⟩

end Sys2Proof.Machine
end

section
/-!
## The window operations, and READ and OPEN of a stream (R304 to R307, R450, R655)
-/

namespace Sys2Proof.Machine

variable {s t u : State} {m : Master} {p : Page}

/-! ## How a window operation starts and ends -/

/-- A window operation of a master that may start is run at once. -/
theorem State.windowStart_ready (h : WindowReady m p s) (job : FarrierJob) (run : State → State) :
    s.windowStart m p job run = run (s.wr p Reg.strmWinCmd_BUSY 1) := by
  obtain ⟨-, hfree, hup⟩ := h
  simp [State.windowStart, hfree, hup]

theorem windowEnded_windowDone (s : State) (p : Page) {status : Nat} (h : status < 2 ^ 8) :
    WindowEnded p status (s.windowDone p status) := by
  have bit : opDoneBit p < 32 := by unfold opDoneBit; split <;> decide
  refine ⟨?_, ?_, ?_⟩
  · rw [State.windowDone, State.rd_raise_off _ _ (by decide) (by decide) (by decide),
      State.rd_wr_off _ _ (by decide) (by decide) (by decide) (by decide) (by decide),
      State.rd_wr_same _ _ _ (by decide)]
    exact Nat.mod_eq_of_lt h
  · rw [State.windowDone, State.rd_raise_off _ _ (by decide) (by decide) (by decide),
      State.rd_wr_same _ _ _ (by decide)]
    rfl
  · rw [State.windowDone, State.rd_raise_raw, Nat.testBit_mod_two_pow, Nat.testBit_or]
    simp [bit]

/-- The words of a window's page that its command, its status and its interrupt change. -/
def windowWords : List Nat := [0x104, 0x10]

theorem State.windowBusy_beside (s : State) (p : Page) (v : Nat) :
    s.Beside p windowWords (s.wr p Reg.strmWinCmd_BUSY v) := .wr _ _ _ (by decide) (.inr (by decide))

theorem State.windowDone_beside (s : State) (p : Page) (status : Nat) :
    s.Beside p windowWords (s.windowDone p status) :=
  ((State.Beside.wr _ _ _ (by decide) (.inr (by decide))).trans (State.windowBusy_beside _ _ _)).trans
    (.raise _ _ _ (.inr (by decide)))

/-! ## The data words -/

theorem dataWord_besideCommand {i : Nat} (hi : i < 8) :
    ∀ o ∈ (Reg.strmWinData_DATA i).words, o < 4096 ∧ o ∉ windowWords := by
  simp only [Fld.words, Reg.strmWinData_DATA, windowWords, Nat.zero_add, le_refl, if_true, List.mem_cons, List.not_mem_nil,
    or_false, forall_eq]
  omega

theorem State.Beside.windowData (h : s.Beside p windowWords t) : t.windowData p = s.windowData p :=
  congrArg List.sum (List.map_congr_left fun i hi => by rw [h.rd (dataWord_besideCommand (List.mem_range.mp hi))])

/-- The data words that have been set hold their part of the number, and the others what they held. -/
theorem State.rd_setData (s : State) (p : Page) (v : Nat) {n i : Nat} (hn : n ≤ 8) (hi : i < 8) :
    ((List.range n).foldl (fun s i => s.wr p (Reg.strmWinData_DATA i) (bitsOf v (32 * i) 32)) s).rd p
      (Reg.strmWinData_DATA i) = if i < n then bitsOf v (32 * i) 32 else s.rd p (Reg.strmWinData_DATA i) := by
  have off (j : Nat) : (Reg.strmWinData_DATA j).off = 288 + 4 * j := rfl
  induction n with
  | zero => simp
  | succ n ih =>
    rw [List.range_succ, List.foldl_append, List.foldl_cons, List.foldl_nil]
    by_cases h : i = n
    · subst h
      rw [State.rd_wr_same _ _ _ le_rfl, if_pos (Nat.lt_succ_self i)]
      exact Nat.mod_eq_of_lt (bitsOf_lt ..)
    · rw [State.rd_wr_off _ _ le_rfl le_rfl (by rw [off]; omega) (by rw [off]; omega) (.inl (by rw [off, off]; omega)),
        ih (by omega)]
      simp only [show i < n + 1 ↔ i < n by omega]

/-- The 32-bit parts of a number spell it. -/
theorem sum_words (v n : Nat) :
    ((List.range n).map fun i => bitsOf v (32 * i) 32 * 2 ^ (32 * i)).sum = v % 2 ^ (32 * n) := by
  induction n with
  | zero => simp [Nat.mod_one]
  | succ n ih =>
    rw [List.range_succ, List.map_append, List.sum_append, ih, Nat.mul_succ, Nat.pow_add, Nat.mod_mul,
      Nat.mul_comm (2 ^ (32 * n)) (_ % _)]
    simp [bitsOf]

theorem State.windowData_setWindowData (s : State) (p : Page) (v : Nat) :
    (s.setWindowData p v).windowData p = v % 2 ^ 256 := by
  rw [← sum_words v 8]
  refine congrArg List.sum (List.map_congr_left fun i hi => ?_)
  have hi : i < 8 := List.mem_range.mp hi
  rw [State.setWindowData, State.rd_setData s p v le_rfl hi, if_pos hi]

/-! ## READ and OPEN -/

theorem exec_strmRead (h : WindowReady m .strm s) :
    exec (.strmRead m) s = .next ((s.wr .strm Reg.strmWinCmd_BUSY 1).streamRead (s.rd .strm Reg.strmWinIdx_IDX)) := by
  rw [exec, execStrmRead, live_of_powered h.1, State.strmWindow, State.windowStart_ready h, State.strmOp, if_pos rfl]

theorem exec_openStream (h : WindowReady m .strm s) :
    exec (.openStream m) s = .next ((s.wr .strm Reg.strmWinCmd_BUSY 1).streamOpen (s.rd .strm Reg.strmWinIdx_IDX)) := by
  rw [exec, execOpenStream, live_of_powered h.1, State.strmWindow, State.windowStart_ready h, State.strmOp,
    if_neg (by decide), if_pos rfl]

/-- The arguments of an OPEN are bad (R307): PAGES, STATE_VA or INIT_VA, or a reserved bit that is set. -/
abbrev StreamRec.BadArgs (r : StreamRec) (reserved : Bool) : Prop :=
  r.pages = 0 ∨ 16384 < r.pages ∨ r.stateVa % 4096 ≠ 0 ∨ r.initVa % 64 ≠ 0 ∨ reserved = true

theorem parseStream_fields {v : Nat} {r : StreamRec} {b : Bool} (h : parseStream v = (r, b)) :
    r.state = strmOpen ∧ r.forked = false ∧ r.parent = 0 ∧ r.steps = 0 := by
  obtain ⟨rfl, -⟩ := Prod.mk.inj h
  exact ⟨rfl, rfl, rfl, rfl⟩

/-- The status of an OPEN of an entry with the arguments that its data words describe: the first check that fails. -/
def State.openStatus (s : State) (n : Nat) (r : StreamRec) (reserved : Bool) : Nat :=
  if (s.stream n).state ≠ strmFree then strmEntryBusy
  else if s.chState r.home = chRetired then strmChannelDown
  else if r.BadArgs reserved then strmBadArg
  else strmOk

/-- An OPEN writes its entry where no check fails. -/
def State.openEntry (s : State) (n : Nat) (r : StreamRec) (status : Nat) : State :=
  if status = strmOk then s.modStream n fun _ => r else s

theorem State.streamOpen_eq {n : Nat} {r : StreamRec} {b : Bool} (h : parseStream (s.windowData .strm) = (r, b)) :
    s.streamOpen n = (s.openEntry n r (s.openStatus n r b)).windowDone .strm (s.openStatus n r b) := by
  simp only [State.streamOpen, h, State.openStatus, State.openEntry]
  by_cases hs : (s.stream n).state ≠ strmFree
  · simp [hs, strmEntryBusy, strmOk]
  by_cases hc : s.chState r.home = chRetired
  · simp [hs, hc, strmChannelDown, strmOk]
  by_cases hb : r.BadArgs b
  · simp only [if_neg hs, if_neg hc, if_pos hb]; rfl
  · simp only [if_neg hs, if_neg hc, if_neg hb]; rfl

theorem State.openStatus_lt (s : State) (n : Nat) (r : StreamRec) (b : Bool) : s.openStatus n r b < 2 ^ 8 := by
  unfold State.openStatus
  split_ifs <;> decide

theorem State.openEntry_regs (s : State) (n : Nat) (r : StreamRec) (status : Nat) :
    (s.openEntry n r status).regs = s.regs := by
  unfold State.openEntry
  split <;> rfl

theorem State.windowDone_streams (s : State) (p : Page) (status : Nat) : (s.windowDone p status).streams = s.streams := by
  simp [State.windowDone]

theorem State.stream_openDone (s : State) (n k : Nat) (r : StreamRec) :
    ((s.openEntry n r strmOk).windowDone .strm strmOk).stream k = if k = n then r else s.stream k := by
  rw [State.stream, State.windowDone_streams, State.openEntry, if_pos rfl]
  exact s.stream_modStream n k _

theorem State.streams_openRejected (s : State) (n : Nat) (r : StreamRec) {status : Nat} (h : status ≠ strmOk) :
    ((s.openEntry n r status).windowDone .strm status).streams = s.streams := by
  rw [State.windowDone_streams, State.openEntry, if_neg h]

theorem State.windowDone_sameWords (s : State) (p : Page) (status : Nat) : s.sameWords (s.windowDone p status) [p] :=
  ((State.sameWords.refl.wr (List.mem_singleton_self p)).wr (List.mem_singleton_self p)).raise (List.mem_singleton_self p)

theorem State.chState_wr_strm (s : State) (f : Fld) (v c : Nat) : (s.wr .strm f v).chState c = s.chState c :=
  State.rd_wr_page s Page.noConfusion

/-- Settles O17: READ copies the entry's 32 bytes, and each of OPEN's checks answers before those behind it. -/
theorem streamReadAndOpen : Obligations.StreamReadAndOpen := by
  rintro m s n h rfl
  set u := s.wr .strm Reg.strmWinCmd_BUSY 1 with hu
  have busy : s.Beside .strm windowWords u := s.windowBusy_beside .strm 1
  have began : s.sameWords u [.strm] := State.sameWords.refl.wr (List.mem_singleton_self _)
  constructor
  · have moved : Moves ⟨false, [.out, .msix, .recorder], [.strm]⟩ s
        (u.streamRead (s.rd .strm Reg.strmWinIdx_IDX)) :=
      State.streamRead_moves (State.wr_moves .refl _ _ _ (List.mem_singleton_self _)) _ (by decide)
    refine ⟨_, exec_strmRead h, windowEnded_windowDone _ _ (by decide), ?_, ?_, moved.sameTables⟩
    · exact ((State.windowDone_beside _ _ _).windowData).trans (State.windowData_setWindowData ..)
    · exact moved.sameWords fun q hq => by cases q <;> simp_all
  · generalize hn : s.rd .strm Reg.strmWinIdx_IDX = n
    obtain ⟨r, b, hp⟩ : ∃ r b, parseStream (s.windowData .strm) = (r, b) := ⟨_, _, rfl⟩
    have hp' : parseStream (u.windowData .strm) = (r, b) := by rw [busy.windowData, hp]
    have same : u.openStatus n r b = s.openStatus n r b := by
      simp only [State.openStatus, hu, State.chState_wr_strm]; rfl
    have ran : exec (.openStream m) s =
        .next ((u.openEntry n r (s.openStatus n r b)).windowDone .strm (s.openStatus n r b)) := by
      rw [exec_openStream h, hn, ← hu, State.streamOpen_eq hp', same]
    have rejected {st : Nat} (hst : s.openStatus n r b = st) (hne : st ≠ strmOk) : s.openStatus n r b = st ∧
        ((u.openEntry n r (s.openStatus n r b)).windowDone .strm (s.openStatus n r b)).streams = s.streams := by
      rw [hst, State.streams_openRejected _ _ _ hne]
      exact ⟨rfl, State.wr_streams ..⟩
    refine ⟨_, _, ran, windowEnded_windowDone _ _ (State.openStatus_lt ..),
      (began.of_regs (State.openEntry_regs ..)).trans (State.windowDone_sameWords _ _ _), ?_, ?_, ?_, ?_⟩
    · intro r' hr hs hc h1 h2 h3 h4
      obtain ⟨rfl, rfl⟩ := Prod.mk.inj (hp.symm.trans hr)
      have good : ¬ r.BadArgs false := by simp [StreamRec.BadArgs, h3, h4]; omega
      rw [show s.openStatus n r false = strmOk by rw [State.openStatus, if_neg (not_not_intro hs), if_neg hc, if_neg good]]
      obtain ⟨hopen, hforked, hparent, hsteps⟩ := parseStream_fields hp
      refine ⟨rfl, ?_, hopen, hforked, hparent, hsteps, fun k hk => ?_⟩
      · rw [State.stream_openDone, if_pos rfl]
      · rw [State.stream_openDone, if_neg hk]
        rfl
    · exact fun hs => rejected (if_pos hs) (by decide)
    · intro r' b' hr hs hc
      obtain ⟨rfl, rfl⟩ := Prod.mk.inj (hp.symm.trans hr)
      exact rejected (by rw [State.openStatus, if_neg (not_not_intro hs), if_pos hc]) (by decide)
    · intro r' b' hr hs hc hb
      obtain ⟨rfl, rfl⟩ := Prod.mk.inj (hp.symm.trans hr)
      exact rejected (by rw [State.openStatus, if_neg (not_not_intro hs), if_neg hc, if_pos hb]) (by decide)

end Sys2Proof.Machine
end

section
/-!
## The steps of the state map (R327 to R338)

The state map is a sequence of small changes of one channel; what each of them keeps, the map keeps.
-/

namespace Sys2Proof.Machine

/-- An entry leaves the paddock for the re-entry position of its engine (R338). -/
def State.leavePaddock (s : State) (c : Nat) (e : Nat × Paddocked) : State :=
  (s.modEngine c e.2.slot fun g => { g with reentry := some e.2.cmd }).modChan c fun x => { x with
    paddock := Tab.erase x.paddock e.1
    paddockOrder := x.paddockOrder.filter (· ≠ e.1) }

/-- Every small change of the state map keeps a property: a page is replaced by one of its index and its sharers, uses
and frames for copies are noted, a decision is logged, and an entry leaves the paddock for a free re-entry position. -/
structure MapKeeps (c : Nat) (P : State → Prop) : Prop where
  put : ∀ u (p q : StatePage), q.index = p.index → q.sharers = p.sharers → P u →
    P (u.modChan c fun x => x.putPage p q)
  note : ∀ u (uses : Channel → Nat) (frames : Channel → List CopyFrame), P u →
    P (u.modChan c fun x => { x with pageUses := uses x, copyFrames := frames x })
  log : ∀ u v : State, v.chans = u.chans → P u → P v
  leave : ∀ u v e, P u → P v → e ∈ (u.chan c).paddocked → (v.engine c e.2.slot).reentry = none →
    P (v.leavePaddock c e)

section
variable {c : Nat} {P : State → Prop} (h : MapKeeps c P)
include h

theorem MapKeeps.pin {s : State} (hs : P s) (k : EngCmd) : P (s.pin c k) := by
  unfold State.pin
  split
  · exact hs
  · refine foldl_keeps (P := P) (fun u i _ hu => ?_) hs
    refine h.put _ _ _ ?_ ?_ (h.note u (fun x => x.pageUses + 1) (·.copyFrames) hu)
    all_goals dsimp only; split <;> rfl

theorem MapKeeps.logDec {s : State} (hs : P s) (kind v : Nat) : P (s.logDec c kind v) := h.log _ _ (State.logDec_chans ..) hs

theorem MapKeeps.releaseEntry {s u : State} (hs : P s) (hu : P u) {e : Nat × Paddocked} (he : e ∈ (u.chan c).paddocked) :
    P (s.releaseEntry c e) := by
  unfold State.releaseEntry
  dsimp only
  split
  · exact hs
  · split
    · exact h.pin hs _
    · rename_i free
      exact h.logDec (h.leave u _ e hu (h.pin hs _) he (by simpa using free)) _ _

theorem MapKeeps.releaseEntries {s : State} (hs : P s) : P (s.releaseEntries c) :=
  foldl_keeps (P := P) (fun _ _ he hu => h.releaseEntry hu hs he) hs

theorem MapKeeps.recall {s : State} (hs : P s) (k : EngCmd) : P (s.recall c k) := by
  refine foldl_keeps (P := P) (fun u i _ hu => ?_) hs
  dsimp only
  split
  · exact h.put _ _ _ rfl rfl hu
  · exact hu

theorem MapKeeps.evict {s : State} (hs : P s) (p : StatePage) : P (s.evict c p) :=
  h.logDec (h.put s p _ (by rfl) (by rfl) hs) _ _

theorem MapKeeps.makeFrames (n : Nat) (k : EngCmd) (fuel : Nat) {s : State} (hs : P s) :
    P (State.makeFrames c n k fuel s) := by
  induction fuel generalizing s with
  | zero => exact hs
  | succ fuel ih =>
    unfold State.makeFrames
    dsimp only
    split
    · exact hs
    · split
      · exact ih (h.evict hs _)
      · exact hs

theorem MapKeeps.startPage {s : State} (hs : P s) (n : Nat) (acc : List Nat) (i : Nat) : P (s.startPage c n acc i).1 := by
  have arrives (q : StatePage) (b : Prop) [Decidable b] (hi : q.index = ((s.chan c).page n i).index)
      (hq : q.sharers = ((s.chan c).page n i).sharers) :
      P (if b then s.modChan c fun x => x.putPage ((s.chan c).page n i) q else s) := by
    split
    · exact h.put _ _ _ hi hq hs
    · exact hs
  unfold State.startPage
  dsimp only
  split
  · exact h.note _ (·.pageUses) (fun x => x.copyFrames ++ [_]) (arrives _ _ (by rfl) (by rfl))
  · exact arrives _ _ (by rfl) (by rfl)

theorem MapKeeps.serve {s : State} (hs : P s) (k : EngCmd) : P (s.serve c k).1 := by
  unfold State.serve
  dsimp only
  split
  · exact h.makeFrames _ _ _ hs
  · exact foldl_keeps (P := fun acc : State × List Nat => P acc.1) (fun acc i _ hu => h.startPage hu _ _ i)
      (h.makeFrames _ _ _ hs)

theorem MapKeeps.serveAll (ks : List EngCmd) {s : State} (hs : P s) : P (State.serveAll c ks s) := by
  induction ks generalizing s with
  | nil => exact hs
  | cons k ks ih =>
    have served := h.serve hs k
    unfold State.serveAll
    split
    · exact ih hs
    · split
      · next hk => rw [hk] at served; exact ih served
      · next hk => rw [hk] at served; exact served

theorem MapKeeps.startCopies {s : State} (hs : P s) : P (s.startCopies c) := by
  refine foldl_keeps (P := P) (fun u f _ hu => ?_) hs
  dsimp only
  split
  · exact h.put _ _ _ rfl rfl hu
  · exact hu

/-- What every small change of the state map keeps, the state map keeps. -/
theorem MapKeeps.stateMap {s : State} (hs : P s) : P (s.stateMap c) :=
  h.releaseEntries (h.startCopies (h.serveAll _
    (foldl_keeps (P := P) (fun _ k _ hu => h.recall hu k) (h.releaseEntries hs))))

end

end Sys2Proof.Machine
end

section
/-!
## Streams and shared pages under a release and a FORK (R308, R324 to R326, R329)
-/

namespace Sys2Proof.Machine

variable {s t u : State}

/-! ## What the end of a closing stream makes of the table -/

/-- What a release makes of a stream's entry: nothing, or FREE where it was CLOSING. -/
def StreamRec.ReleasesTo (r q : StreamRec) : Prop :=
  q = r ∨ r.state = strmClosing ∧ q = { r with state := strmFree, discard := false }

theorem StreamRec.ReleasesTo.trans {r q v : StreamRec} (h1 : r.ReleasesTo q) (h2 : q.ReleasesTo v) : r.ReleasesTo v := by
  obtain rfl | ⟨hr, rfl⟩ := h1
  · exact h2
  · obtain rfl | ⟨hq, -⟩ := h2
    · exact .inr ⟨hr, rfl⟩
    · exact absurd hq (by decide : strmFree ≠ strmClosing)

/-- A stream that is not CLOSING stays as it is. -/
theorem StreamRec.ReleasesTo.eq_of_open {r q : StreamRec} (h : r.ReleasesTo q) (hr : r.state ≠ strmClosing) : q = r :=
  h.resolve_right fun hc => hr hc.1

theorem StreamRec.ReleasesTo.steps {r q : StreamRec} (h : r.ReleasesTo q) : q.steps = r.steps := by
  obtain rfl | ⟨-, rfl⟩ := h <;> rfl

theorem State.stateMap_streams (s : State) (c : Nat) : (s.stateMap c).streams = s.streams :=
  (State.stateMap_moves .refl c .refl : Moves ⟨false, _, _⟩ s _).parts .streams (by decide)

theorem State.stream_congr (h : t.streams = s.streams) (n : Nat) : t.stream n = s.stream n := by
  rw [State.stream, h, State.stream]

/-- The pages and the frames for copies of a stream leave it (R329). -/
def State.leavePages (s : State) (n : Nat) : State :=
  let c := (s.stream n).home
  ((((s.chan c).pages.filter fun p => p.sharers.contains n).foldl (fun s p => s.releasePage c n p) s)).modChan c fun x =>
    { x with copyFrames := x.copyFrames.filter fun f => f.stream ≠ n }

theorem State.leavePages_streams (s : State) (n : Nat) : (s.leavePages n).streams = s.streams :=
  foldl_keeps (P := fun u : State => u.streams = s.streams)
    (f := fun u p => u.releasePage (s.stream n).home n p) (fun _ _ _ hu => hu) rfl

/-- A stream that is released was CLOSING, and is FREE unless it still owes a backing. -/
theorem State.tryRelease_cases (s : State) (n : Nat) : s.tryRelease n = s ∨ (s.stream n).state = strmClosing ∧
    (s.tryRelease n = (s.leavePages n).stateMap (s.stream n).home ∨
      s.tryRelease n = ((s.leavePages n).modStream n fun r =>
        { r with state := strmFree, discard := false }).stateMap (s.stream n).home) := by
  unfold State.tryRelease
  dsimp only
  split
  · exact .inl rfl
  · rename_i h
    refine .inr ⟨by_contra fun hc => h (by simp [hc]), ?_⟩
    split
    · exact .inl rfl
    · exact .inr rfl

theorem State.stream_tryRelease (s : State) (n k : Nat) : (s.stream k).ReleasesTo ((s.tryRelease n).stream k) := by
  have left (m : Nat) := State.stream_congr (s.leavePages_streams n) m
  obtain h | ⟨closing, h | h⟩ := s.tryRelease_cases n
  · exact .inl (by rw [h])
  · exact .inl (by rw [h, State.stream_congr (State.stateMap_streams ..), left])
  · rw [h, State.stream_congr (State.stateMap_streams ..), State.stream_modStream]
    split
    · subst k
      exact .inr ⟨closing, by rw [left]⟩
    · exact .inl (left k)

theorem State.stream_releaseClosing (s : State) (k : Nat) : (s.stream k).ReleasesTo (s.releaseClosing.stream k) :=
  have pass (u : State) (hu : (s.stream k).ReleasesTo (u.stream k)) : (s.stream k).ReleasesTo
      ((u.streams.foldl (fun s r => s.tryRelease r.1) u).stream k) :=
    foldl_keeps (P := fun v : State => (s.stream k).ReleasesTo (v.stream k))
      (fun v _ _ hv => hv.trans (v.stream_tryRelease _ k)) hu
  pass _ (pass _ (.inl rfl))

/-- With no stream CLOSING there is nothing to release. -/
theorem State.releaseClosing_none (h : ∀ n, (s.stream n).state ≠ strmClosing) : s.releaseClosing = s := by
  have none (n : Nat) : s.tryRelease n = s := if_pos (by simp [h n])
  have pass : s.streams.foldl (fun s r => s.tryRelease r.1) s = s :=
    foldl_keeps (P := fun u => u = s) (fun _ r _ hu => hu ▸ none r.1) rfl
  rw [State.releaseClosing]
  dsimp only
  rw [pass, pass]

/-! ## Pages that two streams share -/

/-- A page of the channel is shared by two streams that are not one and the same sharer. -/
def Channel.SharedPage (n m i : Nat) (x : Channel) : Prop :=
  ∃ p ∈ x.pages, p.index = i ∧ n ∈ p.sharers ∧ m ∈ p.sharers ∧ 2 ≤ p.sharers.length

theorem StatePage.not_fresh_of_shared {p : StatePage} (h : 2 ≤ p.sharers.length) : p.isFresh = false := by
  have : p.sharers ≠ [p.owner] := fun e => by simp [e] at h
  simp [StatePage.isFresh, this]

/-- A shared page stays where its index and its sharers do. -/
theorem Channel.SharedPage.putPage {n m i : Nat} {x : Channel} (h : x.SharedPage n m i) {p q : StatePage}
    (hi : q.index = p.index) (hs : q.sharers = p.sharers) : (x.putPage p q).SharedPage n m i := by
  obtain ⟨w, hw, index, first, second, two⟩ := h
  by_cases e : w = p
  · subst e
    refine ⟨q, ?_, hi.trans index, hs ▸ first, hs ▸ second, hs ▸ two⟩
    simp [Channel.putPage, StatePage.not_fresh_of_shared (hs ▸ two)]
  · refine ⟨w, ?_, index, first, second, two⟩
    unfold Channel.putPage
    dsimp only
    split <;> simp [hw, e]

theorem Channel.SharedPage.mapKeeps (c n m i : Nat) : MapKeeps c fun u => (u.chan c).SharedPage n m i where
  put u p q hi hs h := by
    rw [State.chan_modChan, if_pos rfl]
    exact h.putPage hi hs
  note u uses frames h := by
    rw [State.chan_modChan, if_pos rfl]
    exact h
  log u v hv h := by
    rw [State.chan_congr hv]
    exact h
  leave u v e _ h _ _ := by
    rw [State.leavePaddock, State.chan_modChan, if_pos rfl, State.modEngine, State.chan_modChan, if_pos rfl]
    exact h

/-! ## The children of a FORK -/

theorem Channel.page_names (x : Channel) (n i : Nat) : (x.page n i).index = i ∧ n ∈ (x.page n i).sharers := by
  unfold Channel.page
  cases h : x.pages.find? fun p => p.index = i && p.sharers.contains n with
  | none => exact ⟨rfl, List.mem_singleton_self n⟩
  | some p => simpa using List.find?_some h

theorem State.sharePages_shares (s : State) (c n : Nat) {children : List Nat} {m i : Nat} (hm : m ∈ children)
    (hi : i < (s.stream n).pages) : ((s.sharePages c n children).chan c).SharedPage n m i := by
  obtain ⟨index, own⟩ := (s.chan c).page_names n i
  rw [State.sharePages, State.chan_modChan, if_pos rfl]
  refine ⟨{ (s.chan c).page n i with sharers := (((s.chan c).page n i).sharers ++ children).mergeSort }, ?_, index, ?_, ?_,
    ?_⟩
  · exact List.mem_append_right _ (List.mem_map_of_mem (List.mem_map.mpr ⟨i, List.mem_range.mpr hi, rfl⟩))
  · exact List.mem_mergeSort.mpr (List.mem_append_left _ own)
  · exact List.mem_mergeSort.mpr (List.mem_append_right _ hm)
  · have one := List.length_pos_of_mem own
    have other := List.length_pos_of_mem hm
    simp only [List.length_mergeSort, List.length_append]
    omega

/-- The children of a FORK are open (R325). -/
def State.openChildren (s : State) (f : ForkJob) : State :=
  f.children.foldl (fun u ch => u.modStream ch.1 fun _ => childOf (s.stream f.parent) f.parent ch.2) s

theorem State.openChildren_chans (s : State) (f : ForkJob) : (s.openChildren f).chans = s.chans :=
  foldl_keeps (P := fun u : State => u.chans = s.chans)
    (f := fun u (ch : Nat × Nat) => u.modStream ch.1 fun _ => childOf (s.stream f.parent) f.parent ch.2)
    (fun _ _ _ hu => hu) rfl

theorem State.stream_openChildren (s : State) (f : ForkJob) {ch : Nat × Nat} (hch : ch ∈ f.children) :
    ∃ q ∈ f.children, q.1 = ch.1 ∧ (s.openChildren f).stream ch.1 = childOf (s.stream f.parent) f.parent q.2 := by
  refine foldl_holds (P := fun u : State => ∃ q ∈ f.children, q.1 = ch.1 ∧
    u.stream ch.1 = childOf (s.stream f.parent) f.parent q.2) hch (fun u => ?_) (fun u y hy hu => ?_) s
  · exact ⟨ch, hch, rfl, by rw [State.stream_modStream, if_pos rfl]⟩
  · by_cases e : ch.1 = y.1
    · exact ⟨y, hy, e.symm, by rw [State.stream_modStream, if_pos e]⟩
    · simpa only [State.stream_modStream, if_neg e] using hu

/-- A property of entries that the entries of the children have is kept as the children open. -/
theorem State.openChildren_keeps (s : State) (f : ForkJob) {Q : StreamRec → Prop}
    (hQ : ∀ va, Q (childOf (s.stream f.parent) f.parent va)) {n : Nat} (hn : Q (s.stream n)) :
    Q ((s.openChildren f).stream n) := by
  refine foldl_keeps (P := fun u : State => Q (u.stream n)) (fun u ch _ hu => ?_) hn
  rw [State.stream_modStream]
  split
  · exact hQ _
  · exact hu

/-- The children share their parent's pages, the FORK has left the unit, and its command has completed (R325, R326). -/
def State.forked (s : State) (c : Nat) (f : ForkJob) : State :=
  (((s.openChildren f).sharePages c f.parent (f.children.map (·.1))).modChan c fun x =>
    { x with forks := x.forks.erase f }).modCmd c f.num fun h =>
      { h with ecs := h.ecs.map fun r => { r with status := some stOk } }

/-- A FORK that does not wait completes. -/
theorem exec_forkComplete {c : Ch} {f : ForkJob} (hp : s.dev.powered = true) (hm : s.mapRuns c = true)
    (hf : ((s.chan c).forks.find? fun f => !(s.chan c).forkWaits f && s.ctxRuns (s.stream f.parent).ctx) = some f) :
    exec (.forkComplete c) s =
      .next (((s.forked c f).bump .strm Reg.strmStat_FORKS).stateMap c).releaseClosing := by
  rw [exec, execForkComplete, live_of_powered hp, hf]
  simp only [hm]
  rfl

theorem State.Keeps.cmds_forks (h : s.Keeps Channel.besidePages t) (c : Nat) :
    (t.chan c).cmds = (s.chan c).cmds ∧ (t.chan c).forks = (s.chan c).forks :=
  ⟨(h.map (·.1.cmds)).same c, (h.map (·.1.forks)).same c⟩

/-- What a view of a channel shows beside its state pages stays as a FORK's last steps are taken. -/
theorem State.forked_keeps (s : State) (c : Nat) (f : ForkJob) : (s.forked c f).Keeps Channel.besidePages
    (((s.forked c f).bump .strm Reg.strmStat_FORKS).stateMap c).releaseClosing :=
  ((State.Keeps.of_chans (State.bump_chans ..)).trans (State.stateMap_besidePages ..)).trans
    (State.releaseClosing_besidePages _)

theorem State.chan_forked (s : State) (c : Nat) (f : ForkJob) : ((s.forked c f).chan c).forks = (s.chan c).forks.erase f ∧
    ∀ h ∈ ((s.forked c f).chan c).cmds, h.num = f.num → ∀ r ∈ h.ecs, r.status = some stOk := by
  constructor
  · simp [State.forked, State.modCmd, State.sharePages, State.chan_congr (s.openChildren_chans f)]
  · intro h hh hn r hr
    rw [State.forked, State.chan_modCmd_same] at hh
    obtain ⟨g, -, rfl⟩ := List.mem_map.mp hh
    by_cases e : g.num = f.num
    · rw [if_pos e] at hr
      obtain ⟨q, -, rfl⟩ := List.mem_map.mp hr
      rfl
    · rw [if_neg e] at hn
      contradiction

/-- The parent's pages stay shared as the map runs. -/
theorem State.forked_shares (s : State) (c : Nat) (f : ForkJob) {ch : Nat × Nat} (hch : ch ∈ f.children) {i : Nat}
    (hi : i < (s.stream f.parent).pages) :
    ((((s.forked c f).bump .strm Reg.strmStat_FORKS).stateMap c).chan c).SharedPage f.parent ch.1 i := by
  refine (Channel.SharedPage.mapKeeps c f.parent ch.1 i).stateMap ?_
  have pages : ((s.openChildren f).stream f.parent).pages = (s.stream f.parent).pages :=
    s.openChildren_keeps f (Q := fun r => r.pages = (s.stream f.parent).pages) (fun _ => rfl) rfl
  have shared := (s.openChildren f).sharePages_shares c f.parent (List.mem_map_of_mem (f := (·.1)) hch) (pages ▸ hi)
  rw [State.chan_congr (State.bump_chans ..), State.forked, State.modCmd, State.chan_modChan, if_pos rfl, State.chan_modChan,
    if_pos rfl]
  exact shared

/-- Settles O48: the children open, share the parent's pages, and what follows leaves both as they are. -/
theorem forkCompletes : Obligations.ForkCompletes := by
  intro c s f hp hm hf
  have ran := exec_forkComplete hp hm hf
  obtain ⟨keptCmds, keptForks⟩ := (s.forked_keeps c f).cmds_forks c
  obtain ⟨forks, cmds⟩ := s.chan_forked c f
  have mapped (n : Nat) : (((s.forked c f).bump .strm Reg.strmStat_FORKS).stateMap c).stream n =
      (s.openChildren f).stream n :=
    State.stream_congr ((State.stateMap_streams ..).trans (State.bump_streams ..)) n
  refine ⟨_, ran, exec_sameStores ran rfl, fun ch hch => ?_, fun closing ch hch i hi => ?_, ?_, ?_⟩
  · obtain ⟨q, hq, hn, hs⟩ := s.stream_openChildren f hch
    refine ⟨q, hq, hn, ?_⟩
    rw [← hs, ← mapped]
    refine (State.stream_releaseClosing _ _).eq_of_open ?_
    rw [mapped, hs]
    exact (by decide : strmOpen ≠ strmClosing)
  · rw [State.releaseClosing_none fun n => by
      rw [mapped]
      exact s.openChildren_keeps f (Q := fun r => r.state ≠ strmClosing) (fun _ => (by decide : strmOpen ≠ strmClosing))
        (closing n)]
    obtain ⟨p, hmem, index, parent, child, -⟩ := s.forked_shares c f hch hi
    exact ⟨p, hmem, index, parent, child⟩
  · rwa [keptCmds]
  · rw [keptForks, forks]

end Sys2Proof.Machine
end

section
/-!
## The reset of a context (R19, R310, R452, R457)
-/

namespace Sys2Proof.Machine

variable {s t u : State} {m : Master} {n : Nat}

theorem Moves.loads {σ : Scope} (h : Moves σ s t) (hp : .loads ∉ σ.parts) : t.loads = s.loads := h.parts .loads hp

theorem Moves.shares {σ : Scope} (h : Moves σ s t) (hp : .shares ∉ σ.parts) : t.shares = s.shares := h.parts .shares hp

theorem Moves.ctxs {σ : Scope} (h : Moves σ s t) (hp : .ctxs ∉ σ.parts) : t.ctxs = s.ctxs := h.parts .ctxs hp

theorem Moves.stream {σ : Scope} (h : Moves σ s t) (hp : .streams ∉ σ.parts) (n : Nat) : t.stream n = s.stream n :=
  State.stream_congr (h.parts .streams hp) n

/-! ## The stages of a reset -/

/-- A context has left the engines, the units and the rings of the channels, and its blocks on their way are released. -/
def State.resetChannels (s : State) (ctx : Nat) : State :=
  ((List.range 4).foldl (fun s c =>
    let s0 := (s.shares.filter fun sh => sh.ctx = ctx && sh.chan = c).foldl State.breakShare s
    let sa := (s.chan c).engines.foldl (fun s (g : Nat × Engine) => s.resetInEngine c g.1 ctx) s0
    let sb := sa.resetInUnits c ctx
    (List.range 16).foldl (fun s r =>
      if s.ringCtx c r = ctx && s.blk (ringPage c r) ≠ blkOff then s.resetRing c r else s) sb) s).dropBlocks
        fun m => m.next = 16 && m.block.hdr.dctx = ctx

/-- A context's accesses, translations and table entry are forgotten (R442). -/
def State.forgetContext (s : State) (ctx : Nat) : State :=
  (allCaches.foldl (fun s k => s.modCache k fun x => x.drop fun t => t.ctx = ctx)
    (s.forgetAccesses fun a => a.ctx = ctx)).modXlat fun x => { x with ctt := x.ctt.filter fun e => e.1 ≠ ctx }

/-- Nothing is saved of a context, and it does not wait to be loaded. -/
def State.dropSaved (s : State) (ctx : Nat) : State :=
  { s with shares := s.shares.filter fun sh => sh.ctx ≠ ctx, loads := s.loads.filter (· ≠ ctx) }

theorem State.dropSaved_loads (s : State) (ctx : Nat) : (s.dropSaved ctx).loads = s.loads.filter (· ≠ ctx) := rfl

theorem State.dropSaved_shares (s : State) (ctx : Nat) :
    (s.dropSaved ctx).shares = s.shares.filter fun sh => sh.ctx ≠ ctx := rfl

theorem State.dropSaved_stream (s : State) (ctx n : Nat) : (s.dropSaved ctx).stream n = s.stream n := rfl

/-- A context's streams are FREE, and nothing is kept of it. -/
def State.forgetSaved (s : State) (ctx : Nat) : State :=
  (((s.resetChannels ctx).freeStreams ctx (s.forkChildren ctx)).forgetContext ctx).dropSaved ctx

theorem State.resetContext_eq (s : State) (ctx : Nat) :
    s.resetContext ctx = (List.range 4).foldl (fun s c => s.stateMap c) (s.forgetSaved ctx).releaseClosing := rfl

theorem State.resetChannels_moves (s : State) (ctx : Nat) : Moves ⟨false, [.out, .msix, .xlat, .recorder, .chans],
    [.hmmu, .ctx, .rpl, .grm, .cmmu, .wst, .cvu, .hbmc, .ring, .eng, .door]⟩ s (s.resetChannels ctx) := by
  refine State.dropBlocks_moves (Moves.fold .refl fun u c hu => Moves.fold (State.resetInUnits_moves (Moves.fold
    (Moves.fold hu fun v sh hv => State.breakShare_moves hv sh .refl) fun v g hv => State.resetInEngine_moves hv _ _ _ .refl)
      _ _ .refl) fun v r hv => .ite ?_ hv) _ .refl
  exact State.resetRing_moves hv _ _ (by decide)

theorem State.forgetContext_moves (s : State) (ctx : Nat) :
    Moves ⟨false, [.out, .msix, .xlat, .recorder], [.hmmu, .rpl, .cmmu]⟩ s (s.forgetContext ctx) :=
  State.modXlat_moves (Moves.fold (State.forgetAccesses_moves .refl _ .refl) fun _ _ hv =>
    State.modCache_moves hv _ _ (by decide)) _ (by decide)

/-- The release and the state map that end a reset. -/
theorem State.resetContext_tail_moves (s : State) (ctx : Nat) :
    Moves ⟨false, [.out, .msix, .streams, .recorder, .chans], [.rpl]⟩ (s.forgetSaved ctx) (s.resetContext ctx) :=
  Moves.fold (State.releaseClosing_moves .refl .refl) fun _ _ hv => State.stateMap_moves hv _ (by decide)

theorem State.freeStreams_moves_self (s : State) (ctx : Nat) (ks : List Nat) :
    Moves ⟨false, [.out, .msix, .dlm, .streams, .rehoming], [.strm]⟩ s (s.freeStreams ctx ks) :=
  State.freeStreams_moves .refl ctx ks .refl

theorem State.resetContext_loads (s : State) (ctx : Nat) : (s.resetContext ctx).loads = s.loads.filter (· ≠ ctx) := by
  rw [(s.resetContext_tail_moves ctx).loads (by decide), State.forgetSaved, State.dropSaved_loads,
    (State.forgetContext_moves _ ctx).loads (by decide), (State.freeStreams_moves_self _ ctx _).loads (by decide),
    (s.resetChannels_moves ctx).loads (by decide)]

theorem State.resetContext_shares (s : State) (ctx : Nat) : ∀ sh ∈ (s.resetContext ctx).shares, sh.ctx ≠ ctx := by
  rw [(s.resetContext_tail_moves ctx).shares (by decide), State.forgetSaved, State.dropSaved_shares]
  intro sh hsh
  simpa using (List.mem_filter.mp hsh).2

/-! ## The streams of a context (R310) -/

/-- An entry where a reset of a context frees it: as one of the context's own, or as a child of a FORK. -/
def StreamRec.ResetBy (r : StreamRec) (ctx : Nat) (child : Prop) : Prop :=
  if r.state = strmForking then child else r.ctx = ctx

/-- What the reset of a context makes of an entry of the stream table. -/
def freedEntry (ctx : Nat) (ks : List Nat) (r : Nat × StreamRec) : Nat × StreamRec :=
  if (if r.2.state = strmForking then ks.contains r.1 else r.2.ctx = ctx && r.2.state ≠ strmFree) then
    (r.1, { r.2 with state := strmFree, discard := false })
  else r

theorem freedEntry_key (ctx : Nat) (ks : List Nat) (r : Nat × StreamRec) : (freedEntry ctx ks r).1 = r.1 := by
  unfold freedEntry
  rw [apply_ite Prod.fst, ite_self]

theorem freedEntry_free {ctx : Nat} {ks : List Nat} {r : Nat × StreamRec} (h : r.2.ResetBy ctx (r.1 ∈ ks)) :
    (freedEntry ctx ks r).2.state = strmFree := by
  unfold StreamRec.ResetBy at h
  unfold freedEntry
  by_cases hf : r.2.state = strmForking
  · rw [if_pos hf] at h
    simp [hf, h]
  · rw [if_neg hf] at h
    by_cases hs : r.2.state = strmFree
    · simp [hs, strmFree, strmForking]
    · simp [hf, hs, h]

theorem State.freeStreams_streams (s : State) (ctx : Nat) (ks : List Nat) :
    (s.freeStreams ctx ks).streams = s.streams.map (freedEntry ctx ks) := by
  unfold State.freeStreams State.disarmFreed
  dsimp only
  split
  · split
    · rw [State.windowDone_streams]
      rfl
    · rfl
  · rfl

theorem State.stream_freeStreams (s : State) (ctx : Nat) (ks : List Nat) {k : Nat}
    (h : (s.stream k).ResetBy ctx (k ∈ ks)) :
    ((s.freeStreams ctx ks).stream k).state = strmFree := by
  rw [State.stream, State.freeStreams_streams]
  obtain ⟨e, -⟩ | e := Tab.get_map {} s.streams (freedEntry_key ctx ks) k
  · rw [e]; rfl
  · rw [e]; exact freedEntry_free h

/-- The streams of a context, and the children of its FORKs, stay FREE to the end of its reset. -/
theorem State.stream_resetContext (s : State) (ctx : Nat) {k : Nat}
    (h : (s.stream k).ResetBy ctx (k ∈ s.forkChildren ctx)) :
    ((s.resetContext ctx).stream k).state = strmFree := by
  have freed : ((s.forgetSaved ctx).stream k).state = strmFree := by
    rw [State.forgetSaved, State.dropSaved_stream, (State.forgetContext_moves _ ctx).stream (by decide)]
    refine State.stream_freeStreams _ ctx _ ?_
    rwa [(s.resetChannels_moves ctx).stream (by decide)]
  have mapped (u : State) : ((List.range 4).foldl (fun s c => s.stateMap c) u).streams = u.streams :=
    foldl_keeps (P := fun v : State => v.streams = u.streams) (fun v c _ hv => (v.stateMap_streams c).trans hv) rfl
  rw [State.resetContext_eq, State.stream_congr (mapped _),
    (State.stream_releaseClosing _ k).eq_of_open (freed ▸ (by decide : strmFree ≠ strmClosing)), freed]

/-! ## The slot of a context (R452, R457, R467) -/

theorem State.ctxRec_modCtx (s : State) (n k : Nat) (f : CtxRec → CtxRec) :
    (s.modCtx n f).ctxRec k = if k = n then f (s.ctxRec n) else s.ctxRec k := by
  simp [State.ctxRec, State.modCtx]

theorem State.ctxRec_congr (h : t.ctxs = s.ctxs) (n : Nat) : t.ctxRec n = s.ctxRec n := by
  rw [State.ctxRec, h, State.ctxRec]

theorem State.setSlot_moves_self (s : State) (i st ctx : Nat) : Moves ⟨false, [.ctxSlots], [.ctx]⟩ s (s.setSlot i st ctx) :=
  State.setSlot_moves .refl i st ctx .refl

theorem State.rd_setSlot_state (s : State) {i st : Nat} (hi : i < 8) (hst : st < 8) (ctx : Nat) :
    (s.setSlot i st ctx).slotState i = st := by
  have off : 0x140 + 4 * i < 4096 := by omega
  have words : (s.setSlot i st ctx).regs =
      (((s.wr .ctx (Reg.ctxSlot_STATE i) st).wr .ctx (Reg.ctxSlot_CTX i) ctx).wr .ctx (Reg.ctxSlot_BLOCKED i) 0).regs := rfl
  rw [State.slotState, State.rd_congr words,
    State.rd_wr_off _ _ (by simp [Reg.ctxSlot_BLOCKED]) (by simp [Reg.ctxSlot_STATE]) off off (.inr (.inl (by
      simp [Reg.ctxSlot_BLOCKED, Reg.ctxSlot_STATE]))),
    State.rd_wr_off _ _ (by simp [Reg.ctxSlot_CTX]) (by simp [Reg.ctxSlot_STATE]) off off (.inr (.inl (by
      simp [Reg.ctxSlot_CTX, Reg.ctxSlot_STATE]))),
    State.rd_wr_same _ _ _ (by simp [Reg.ctxSlot_STATE])]
  exact Nat.mod_eq_of_lt hst

/-- A restore changes the record of its own context only. -/
theorem State.ctxRec_startRestore (s : State) (i : Nat) {ctx k : Nat} (h : k ≠ ctx) :
    (s.startRestore i ctx).ctxRec k = s.ctxRec k := by
  have slot (st : Nat) : (s.setSlot i st ctx).ctxRec k = s.ctxRec k :=
    State.ctxRec_congr ((s.setSlot_moves_self i st ctx).ctxs (by decide)) k
  unfold State.startRestore
  split
  · rw [State.ctxRec_modCtx, if_neg h, slot]
  · rw [State.ctxRec_congr (State.raise_ctxs ..), State.ctxRec_modCtx, if_neg h, slot]

theorem State.startRestore_loads (s : State) (i ctx : Nat) : (s.startRestore i ctx).loads = s.loads :=
  (State.startRestore_moves .refl i ctx .refl : Moves ⟨false, _, _⟩ s _).loads (by decide)

/-- A slot that has become FREE stays so, or takes the context whose LOAD has waited longest. -/
theorem State.slotFreed_cases (s : State) (i : Nat) : s.slotFreed i = s ∨ ∃ ctx rest, s.loads = ctx :: rest ∧
    s.slotFreed i = ({ s with loads := rest } : State).startRestore i ctx := by
  unfold State.slotFreed
  split
  · next ctx rest h =>
    split
    · exact .inl rfl
    · exact .inr ⟨ctx, rest, h, rfl⟩
  · exact .inl rfl

theorem State.slotFreed_none (s : State) (h : s.loads = []) (i : Nat) : s.slotFreed i = s := by
  rw [State.slotFreed, h]

/-- The LOAD of another context that takes a freed slot leaves a context's record, and adds no LOAD. -/
theorem State.slotFreed_keeps {s : State} {k : Nat} (h : k ∉ s.loads) (i : Nat) :
    (s.slotFreed i).ctxRec k = s.ctxRec k ∧ k ∉ (s.slotFreed i).loads := by
  obtain e | ⟨ctx, rest, hl, e⟩ := s.slotFreed_cases i
  · rw [e]
    exact ⟨rfl, h⟩
  · rw [hl, List.mem_cons, not_or] at h
    rw [e, State.ctxRec_startRestore _ _ h.1, State.startRestore_loads]
    exact ⟨rfl, h.2⟩

/-- A restore by the relief rule is under way into a slot, or into none. -/
def State.setRelief (s : State) (r : Option Nat) : State := { s with reliefInto := r }

theorem State.setRelief_loads (s : State) (r : Option Nat) : (s.setRelief r).loads = s.loads := rfl

theorem State.setRelief_ctxs (s : State) (r : Option Nat) : (s.setRelief r).ctxs = s.ctxs := rfl

theorem State.setRelief_regs (s : State) (r : Option Nat) : (s.setRelief r).regs = s.regs := rfl

/-- A context leaves its slot. -/
def State.vacateSlot (s : State) (i : Nat) : State :=
  (s.setSlot i slotFree 0).setRelief (if s.reliefInto = some i then none else s.reliefInto)

theorem State.vacateSlot_loads (s : State) (i : Nat) : (s.vacateSlot i).loads = s.loads := by
  rw [State.vacateSlot, State.setRelief_loads, (s.setSlot_moves_self i slotFree 0).loads (by decide)]

theorem State.vacateSlot_ctxs (s : State) (i : Nat) : (s.vacateSlot i).ctxs = s.ctxs := by
  rw [State.vacateSlot, State.setRelief_ctxs, (s.setSlot_moves_self i slotFree 0).ctxs (by decide)]

theorem State.resetSlot_cases (s : State) (ctx : Nat) : s.slotOfCtx ctx = none ∧ s.resetSlot ctx = s ∨
    ∃ i, s.slotOfCtx ctx = some i ∧ s.resetSlot ctx = (s.vacateSlot i).slotFreed i := by
  unfold State.resetSlot
  split
  · next h => exact .inl ⟨h, rfl⟩
  · next i h => exact .inr ⟨i, h, rfl⟩

theorem State.resetSlot_keeps {s : State} {k : Nat} (h : k ∉ s.loads) (ctx : Nat) :
    (s.resetSlot ctx).ctxRec k = s.ctxRec k ∧ k ∉ (s.resetSlot ctx).loads := by
  obtain ⟨-, e⟩ | ⟨i, -, e⟩ := s.resetSlot_cases ctx
  · rw [e]
    exact ⟨rfl, h⟩
  · rw [e, ← State.ctxRec_congr (s.vacateSlot_ctxs i)]
    exact State.slotFreed_keeps (by rwa [State.vacateSlot_loads]) i

theorem slotOfCtx_lt {ctx i : Nat} (h : s.slotOfCtx ctx = some i) : i < 8 :=
  List.mem_range.mp (List.mem_of_find?_eq_some h)

/-- Where no LOAD waits, the slot that a context leaves is FREE. -/
theorem State.slotState_resetSlot {ctx i : Nat} (h : s.slotOfCtx ctx = some i) (hl : s.loads = []) :
    (s.resetSlot ctx).slotState i = slotFree := by
  have freed : s.resetSlot ctx = s.vacateSlot i := by
    rw [← State.slotFreed_none (s.vacateSlot i) ((s.vacateSlot_loads i).trans hl) i, State.resetSlot, h]
    rfl
  rw [freed, State.vacateSlot, State.slotState, State.rd_congr (State.setRelief_regs ..)]
  exact s.rd_setSlot_state (slotOfCtx_lt h) (by decide) 0

/-! ## RESET and RELEASE -/

/-- What a reset makes of a context: it has no image and no share, waits for no LOAD, its streams and the children of its
FORKs are FREE, and so is its slot where no LOAD waits. -/
structure ResetOf (s u : State) (n : Nat) (t : State) : Prop where
  image : (t.ctxRec n).image = false
  loads : n ∉ t.loads
  shares : ∀ sh ∈ t.shares, sh.ctx ≠ n
  streams : ∀ k, (s.stream k).ResetBy n (k ∈ s.forkChildren n) → (t.stream k).state = strmFree
  slot : ∀ i, u.slotOfCtx n = some i → s.loads = [] → t.slotState i = slotFree

/-- The record of a context that has been reset: AWAY without an image. -/
def State.markAway (s : State) (n : Nat) : State :=
  s.modCtx n fun r => { r with state := ctxAway, image := false, woken := false }

theorem State.markAway_loads (s : State) (n : Nat) : (s.markAway n).loads = s.loads := rfl

theorem State.markAway_shares (s : State) (n : Nat) : (s.markAway n).shares = s.shares := rfl

theorem State.stream_markAway (s : State) (n k : Nat) : (s.markAway n).stream k = s.stream k := rfl

theorem State.slotOfCtx_markAway (s : State) (n k : Nat) : (s.markAway n).slotOfCtx k = s.slotOfCtx k := rfl

theorem State.resetRecord_eq (s : State) (n : Nat) : s.resetRecord n = ((s.resetContext n).markAway n).resetSlot n := rfl

theorem State.resetContext_marked (s : State) (n : Nat) : n ∉ ((s.resetContext n).markAway n).loads := by
  rw [State.markAway_loads, State.resetContext_loads]
  simp

theorem State.ctxRec_resetRecord (s : State) (n : Nat) :
    ((s.resetRecord n).ctxRec n).state = ctxAway ∧ ((s.resetRecord n).ctxRec n).image = false := by
  rw [State.resetRecord_eq, (State.resetSlot_keeps (s.resetContext_marked n) n).1, State.markAway, State.ctxRec_modCtx,
    if_pos rfl]
  exact ⟨rfl, rfl⟩

theorem resetOf_resetRecord (s : State) (n : Nat) : ResetOf s (s.resetContext n) n (s.resetRecord n) := by
  have moves : Moves ⟨false, [.out, .msix, .ctxs, .ctxSlots, .loads, .reliefInto], [.ctx]⟩ ((s.resetContext n).markAway n)
      (s.resetRecord n) := by
    rw [State.resetRecord_eq]
    exact State.resetSlot_moves .refl n .refl
  refine ⟨(s.ctxRec_resetRecord n).2, ?_, ?_, fun k hk => ?_, fun i hi hl => ?_⟩
  · rw [State.resetRecord_eq]
    exact (State.resetSlot_keeps (s.resetContext_marked n) n).2
  · rw [moves.shares (by decide), State.markAway_shares]
    exact s.resetContext_shares n
  · rw [moves.stream (by decide), State.stream_markAway]
    exact s.stream_resetContext n hk
  · rw [State.resetRecord_eq]
    refine State.slotState_resetSlot ((State.slotOfCtx_markAway ..).trans hi) ?_
    rw [State.markAway_loads, State.resetContext_loads, hl, List.filter_nil]

/-- The reset starts from the window's page as it is while the operation runs. -/
theorem ResetOf.of_busy (p : Page) (v : Nat) (h : ResetOf (s.wr p Reg.strmWinCmd_BUSY v) u n t) : ResetOf s u n t :=
  ⟨h.image, h.loads, h.shares, h.streams, h.slot⟩

/-- A change of the context's state alone, as RELEASE makes it. -/
theorem ResetOf.modCtx (h : ResetOf s u n t) (st : Nat) : ResetOf s u n (t.modCtx n fun r => { r with state := st }) := by
  refine ⟨?_, h.loads, h.shares, h.streams, h.slot⟩
  rw [State.ctxRec_modCtx, if_pos rfl]
  exact h.image

theorem State.ctxDone_moves_self (s : State) (status : Nat) : Moves ⟨false, [.out, .msix], [.ctx]⟩ s (s.ctxDone status) :=
  State.ctxDone_moves .refl status .refl

theorem State.ctxRec_ctxDone (s : State) (status n : Nat) : (s.ctxDone status).ctxRec n = s.ctxRec n :=
  State.ctxRec_congr ((s.ctxDone_moves_self status).ctxs (by decide)) n

theorem State.slotState_ctxDone (s : State) (status : Nat) {i : Nat} (hi : i < 8) :
    (s.ctxDone status).slotState i = s.slotState i := by
  refine (s.windowDone_beside .ctx status).rd ?_
  simp only [Fld.words, Reg.ctxSlot_STATE, windowWords, Nat.zero_add, Nat.reduceLeDiff, if_true, List.mem_cons,
    List.not_mem_nil, or_false, forall_eq]
  omega

theorem windowEnded_ctxDone (s : State) : WindowEnded .ctx ctxOk (s.ctxDone ctxOk) :=
  windowEnded_windowDone s .ctx (by decide)

theorem ResetOf.ctxDone (h : ResetOf s u n t) (status : Nat) : ResetOf s u n (t.ctxDone status) := by
  have moves := t.ctxDone_moves_self status
  refine ⟨?_, ?_, ?_, fun k hk => ?_, fun i hi hl => ?_⟩
  · rw [State.ctxRec_ctxDone]
    exact h.image
  · rw [moves.loads (by decide)]
    exact h.loads
  · rw [moves.shares (by decide)]
    exact h.shares
  · rw [moves.stream (by decide)]
    exact h.streams k hk
  · rw [State.slotState_ctxDone _ _ (slotOfCtx_lt hi)]
    exact h.slot i hi hl

theorem exec_ctxReset (h : WindowReady m .ctx s) : exec (.ctxReset m) s =
    .next ((s.wr .ctx Reg.strmWinCmd_BUSY 1).ctxResetOp (s.rd .ctx Reg.ctxWinIdx_IDX) false) := by
  rw [exec, execCtxReset, live_of_powered h.1, State.ctxWindow, State.windowStart_ready h, State.ctxOp,
    if_neg (by decide), if_neg (by decide), if_neg (by decide), if_neg (by decide), if_neg (by decide)]
  rfl

theorem exec_release (h : WindowReady m .ctx s) : exec (.release m) s =
    .next ((s.wr .ctx Reg.strmWinCmd_BUSY 1).ctxResetOp (s.rd .ctx Reg.ctxWinIdx_IDX) true) := by
  rw [exec, execRelease, live_of_powered h.1, State.ctxWindow, State.windowStart_ready h, State.ctxOp,
    if_neg (by decide), if_neg (by decide), if_neg (by decide), if_neg (by decide), if_neg (by decide)]
  rfl

theorem State.ctxResetOp_reset (h : (s.ctxRec n).state ≠ ctxNone) :
    s.ctxResetOp n false = (s.resetRecord n).ctxDone ctxOk := by
  rw [State.ctxResetOp, if_neg h]
  rfl

theorem State.ctxResetOp_release (h : (s.ctxRec n).state ≠ ctxNone) : s.ctxResetOp n true =
    ((s.resetRecord n).modCtx n fun r => { r with state := ctxNone }).ctxDone ctxOk := by
  rw [State.ctxResetOp, if_neg h]
  rfl

theorem StreamRec.ResetBy.own {r : StreamRec} {child : Prop} (hc : r.ctx = n) (hs : r.state ≠ strmForking) :
    r.ResetBy n child := by
  rwa [StreamRec.ResetBy, if_neg hs]

theorem StreamRec.ResetBy.child {r : StreamRec} {child : Prop} (hc : child) (hs : r.state = strmForking) :
    r.ResetBy n child := by
  rwa [StreamRec.ResetBy, if_pos hs]

theorem ResetOf.own (h : ResetOf s u n t) (k : Nat) (hc : (s.stream k).ctx = n) (hs : (s.stream k).state ≠ strmForking) :
    (t.stream k).state = strmFree := h.streams k (.own hc hs)

theorem ResetOf.child (h : ResetOf s u n t) (k : Nat) (hc : k ∈ s.forkChildren n) (hs : (s.stream k).state = strmForking) :
    (t.stream k).state = strmFree := h.streams k (.child hc hs)

/-- The state that a RESET leaves, but for the words of the window that say how it ended. -/
theorem resetOf_busy (s : State) (n : Nat) : ResetOf s ((s.wr .ctx Reg.strmWinCmd_BUSY 1).resetContext n) n
    ((s.wr .ctx Reg.strmWinCmd_BUSY 1).resetRecord n) := (resetOf_resetRecord _ n).of_busy .ctx 1

/-- Settles O21: RESET and RELEASE reset the context and its slot, and then only the record's state and the words of the
window that say how the operation ended change. -/
theorem contextResetAndRelease : Obligations.ContextResetAndRelease := by
  intro m s u n ready hn admitted hu
  have admitted : ((s.wr .ctx Reg.strmWinCmd_BUSY 1).ctxRec n).state ≠ ctxNone := by
    rwa [State.ctxRec_congr (State.wr_ctxs ..)]
  have reset : ResetOf s u n ((s.wr .ctx Reg.strmWinCmd_BUSY 1).resetRecord n) := hu ▸ resetOf_busy s n
  have away := (State.ctxRec_resetRecord (s.wr .ctx Reg.strmWinCmd_BUSY 1) n).1
  generalize hv : (s.wr .ctx Reg.strmWinCmd_BUSY 1).resetRecord n = v at reset away
  have resetDone := reset.ctxDone ctxOk
  have released := (reset.modCtx ctxNone).ctxDone ctxOk
  refine ⟨⟨v.ctxDone ctxOk, ?_, windowEnded_ctxDone _, ?_, resetDone.image, resetDone.loads, resetDone.shares, resetDone.own,
      resetDone.child, resetDone.slot⟩,
    ⟨(v.modCtx n fun r => { r with state := ctxNone }).ctxDone ctxOk, ?_, windowEnded_ctxDone _, ?_, released.image,
      released.loads, released.shares, released.own, released.child, released.slot⟩⟩
  · rw [exec_ctxReset ready, ← hn, State.ctxResetOp_reset admitted, hv]
  · rw [State.ctxRec_ctxDone, away]
  · rw [exec_release ready, ← hn, State.ctxResetOp_release admitted, hv]
  · rw [State.ctxRec_ctxDone, State.ctxRec_modCtx, if_pos rfl]

end Sys2Proof.Machine
end

section
/-!
## The paddock and the head check of a SCAN (R335 to R338)
-/

namespace Sys2Proof.Machine

variable {s t u : State} {c : Ch} {e : SlotId} {k : EngCmd}

/-! ## What the state map leaves of an engine -/

theorem State.Keeps.engine_besideReentry (h : s.Keeps Channel.besidePages t) (c e : Nat) :
    (t.engine c e).besideReentry = (s.engine c e).besideReentry := congrFun (congrArg Prod.snd (h.same c)) e

theorem Engine.eq_of_besideReentry {g h : Engine} (e : g.besideReentry = h.besideReentry) :
    g.queue = h.queue ∧ g.scanning = h.scanning := by
  obtain ⟨⟩ := g
  obtain ⟨⟩ := h
  simp only [Engine.besideReentry, Engine.mk.injEq] at e
  exact ⟨e.1, e.2.2.2.1⟩

theorem State.Keeps.queue (h : s.Keeps Channel.besidePages t) (c e : Nat) : (t.engine c e).queue = (s.engine c e).queue :=
  (Engine.eq_of_besideReentry (h.engine_besideReentry c e)).1

theorem State.Keeps.scanning (h : s.Keeps Channel.besidePages t) (c e : Nat) :
    (t.engine c e).scanning = (s.engine c e).scanning := (Engine.eq_of_besideReentry (h.engine_besideReentry c e)).2

theorem State.engine_modEngine_other (s : State) (c : Nat) {e d : Nat} (h : d ≠ e) (f : Engine → Engine) :
    (s.modEngine c e f).engine c d = s.engine c d := by
  simp [State.engine, State.modEngine, Channel.engine, h]

theorem State.engine_of_engines {c : Nat} {f : Channel → Channel} (hf : ∀ x, (f x).engines = x.engines) (s : State)
    (e : Nat) :
    (s.modChan c f).engine c e = s.engine c e := by
  rw [State.engine, State.chan_modChan, if_pos rfl, Channel.engine, hf]
  rfl

/-! ## An entry of the paddock -/

theorem Tab.mem_erase_other {α : Type} {t : Tab α} {j : Nat} {x : Nat × α} (h : x ∈ t) (hj : x.1 ≠ j) :
    x ∈ Tab.erase t j := by
  induction t with
  | nil => exact h
  | cons p t ih =>
    unfold Tab.erase
    obtain rfl | h := List.mem_cons.mp h
    · rw [if_neg (Ne.symm hj)]
      exact List.mem_cons_self
    · split
      · exact h
      · exact List.mem_cons_of_mem _ (ih h)

theorem Tab.mem_set_self {α : Type} (t : Tab α) (k : Nat) (v : α) : (k, v) ∈ Tab.set t k v := 
  List.mem_of_find?_eq_some (Tab.find?_set t k v)

theorem Channel.mem_paddock {x : Channel} {p : Nat × Paddocked} (h : p ∈ x.paddocked) : p ∈ x.paddock := by
  obtain ⟨i, -, hi⟩ := List.mem_filterMap.mp h
  exact List.mem_of_find?_eq_some hi

/-- An entry of the paddock is a command's alone, and the command waits there or has gone on to the re-entry position of
its engine. -/
structure State.Paddocks (c i : Nat) (q : Paddocked) (s : State) : Prop where
  alone : ∀ p ∈ (s.chan c).paddock, p.1 = i → p.2 = q
  waits : (i, q) ∈ (s.chan c).paddock ∨ (s.engine c q.slot).reentry = some q.cmd

theorem State.Paddocks.congr {c i : Nat} {q : Paddocked} (h : s.Paddocks c i q)
    (hp : (t.chan c).paddock = (s.chan c).paddock)
    (he : (t.engine c q.slot).reentry = (s.engine c q.slot).reentry) : t.Paddocks c i q :=
  ⟨hp ▸ h.alone, by rw [hp, he]; exact h.waits⟩

theorem State.leavePaddock_paddock (s : State) (c : Nat) (p : Nat × Paddocked) :
    ((s.leavePaddock c p).chan c).paddock = Tab.erase (s.chan c).paddock p.1 := by
  simp [State.leavePaddock, State.modEngine]

theorem State.engine_leavePaddock (s : State) (c d : Nat) (p : Nat × Paddocked) :
    ((s.leavePaddock c p).engine c d).reentry =
    if d = p.2.slot then some p.2.cmd else (s.engine c d).reentry := by
  rw [State.leavePaddock, State.engine_of_engines (by intros; rfl)]
  split
  · subst_vars
    rw [State.engine_modEngine_same]
  · next h => rw [State.engine_modEngine_other _ _ h]

theorem State.Paddocks.mapKeeps (c i : Nat) (q : Paddocked) : MapKeeps c (State.Paddocks c i q) where
  put u a b _ _ h := h.congr (by rw [State.chan_modChan, if_pos rfl]; rfl)
    (by rw [State.engine_of_engines (by intros; rfl)])
  note u uses frames h := h.congr (by rw [State.chan_modChan, if_pos rfl])
    (by rw [State.engine_of_engines (by intros; rfl)])
  log u v hv h := h.congr (by rw [State.chan_congr hv]) (by rw [State.engine, State.chan_congr hv]; rfl)
  leave u v p hu hv hp free := by
    refine ⟨fun r hr hi => ?_, ?_⟩
    · rw [State.leavePaddock_paddock] at hr
      exact hv.alone r ((Tab.erase_sublist _ _).subset hr) hi
    · rw [State.leavePaddock_paddock, State.engine_leavePaddock]
      by_cases own : p.1 = i
      · rw [hu.alone p (Channel.mem_paddock hp) own, if_pos rfl]
        exact .inr rfl
      · obtain stays | gone := hv.waits
        · exact .inl (Tab.mem_erase_other stays (Ne.symm own))
        · rw [if_neg fun same => by simp [← same, gone] at free]
          exact .inr gone

/-! ## The head enters the paddock -/

/-- The head has left its queue, and its entry of the queue is owed. -/
def State.leaveQueue (s : State) (c e : Nat) (k : EngCmd) : State := (s.popQueue c e).freeEntry c e k

theorem State.freeEntry_queue (s : State) (c e : Nat) (k : EngCmd) :
    ((s.freeEntry c e k).engine c e).queue = (s.engine c e).queue := by
  unfold State.freeEntry
  split
  · rfl
  · rw [State.engine_modEngine_same]

theorem State.leaveQueue_queue (s : State) (c e : Nat) (k : EngCmd) :
    ((s.leaveQueue c e k).engine c e).queue = (s.engine c e).queue.tail := by
  rw [State.leaveQueue, State.freeEntry_queue, State.engine_popQueue]

theorem State.leaveQueue_paddock (s : State) (c e : Nat) (k : EngCmd) :
    ((s.leaveQueue c e k).chan c).paddock = (s.chan c).paddock := by
  unfold State.leaveQueue State.freeEntry
  split <;> simp [State.popQueue, State.modEngine]

theorem State.padFree_empty {c i : Nat} (h : s.padFree c = some i) : ∀ p ∈ (s.chan c).paddock, p.1 ≠ i := by
  simpa using List.find?_some h

theorem State.enterPaddock_paddocks {c i e : Nat} (h : s.padFree c = some i) (k : EngCmd) :
    (s.enterPaddock c e i k).Paddocks c i ⟨e, k⟩ := by
  have paddock : ((s.enterPaddock c e i k).chan c).paddock = Tab.set (s.chan c).paddock i ⟨e, k⟩ := by
    rw [State.enterPaddock, State.chan_congr (State.bump_chans ..), State.chan_modChan, if_pos rfl,
      ← State.leaveQueue_paddock s c e k]
    rfl
  refine ⟨fun p hp hi => ?_, .inl ?_⟩
  · rw [paddock] at hp
    obtain rfl | old := Tab.mem_set hp
    · rfl
    · exact absurd hi (State.padFree_empty h p old)
  · rw [paddock]
    exact Tab.mem_set_self _ _ _

theorem State.enterPaddock_queue (s : State) (c e i : Nat) (k : EngCmd) :
    ((s.enterPaddock c e i k).engine c e).queue = (s.engine c e).queue.tail := by
  rw [State.enterPaddock, State.engine, State.chan_congr (State.bump_chans ..), ← State.engine,
    State.engine_of_engines (by intros; rfl)]
  exact s.leaveQueue_queue c e k

theorem State.leaveQueue_regs (s : State) (c e : Nat) (k : EngCmd) : (s.leaveQueue c e k).regs = s.regs := by
  unfold State.leaveQueue State.freeEntry
  split <;> rfl

theorem State.enterPaddock_counts (s : State) (c : Ch) (e i : Nat) (k : EngCmd) :
    (s.enterPaddock c e i k).rd (.grm c) Reg.grmPaddockStat_ENTERED =
      min (s.rd (.grm c) Reg.grmPaddockStat_ENTERED + 1) (2 ^ Reg.grmPaddockStat_ENTERED.w - 1) := by
  rw [State.enterPaddock, Fin.ofNat_val_eq_self, State.rd_bump_same _ _ _ (by decide)]
  congr 2
  exact State.rd_congr (s.leaveQueue_regs c e k) ..

/-- The state map writes no word of the granary's page. -/
theorem State.rd_stateMap (s : State) (c : Nat) {p : Page} (hp : pageKind p ≠ .rpl) {f : Fld} (hf : f.lo + f.w ≤ 32) :
    (s.stateMap c).rd p f = s.rd p f := by
  rw [State.rd_narrow _ _ hf, State.rd_narrow _ _ hf,
    (State.stateMap_moves .refl c .refl : Moves ⟨false, _, _⟩ s _).words p (by simpa using hp)]

/-! ## The head check -/

theorem behind_iff : BehindInPaddock s c k ↔
    ((s.chan c).paddocked.any fun p => scanStream p.2.cmd = scanStream k) = true := by
  simp [BehindInPaddock]

/-- A head that may not go on: another of its stream is in the paddock, or its pages are not ready (R336). -/
def HeldBack (s : State) (c : Ch) (k : EngCmd) : Prop := BehindInPaddock s c k ∨ (s.chan c).pagesReady k = false

/-- A head that may not go on enters the paddock, or waits while that is full (R336, R337). -/
def State.holdHead (s : State) (c : Ch) (e : SlotId) (k : EngCmd) : State :=
  match s.padFree c with
  | some i => (s.enterPaddock c e i k).stateMap c
  | none => (s.raise (.grm c) 1).stateMap c

theorem exec_headPins (h : ScanAtHead s c e k) (hpin : (s.chan c).pinned k = false) (hrec : s.mayRecord c = true)
    (hb : ¬ BehindInPaddock s c k) (hready : (s.chan c).pagesReady k = true) :
    exec (.scanHeadCheck c e) s = .next (s.pin c k) := by
  obtain ⟨hp, hq, hop, hrun, hctx⟩ := h
  rw [behind_iff, Bool.not_eq_true] at hb
  rw [exec, execScanHeadCheck, live_of_powered hp, hq]
  simp only [hop, hrun, hctx, hpin, hrec, hb, hready]
  rfl

theorem exec_headHeld (h : ScanAtHead s c e k) (hpin : (s.chan c).pinned k = false) (hrec : s.mayRecord c = true)
    (hb : HeldBack s c k) : exec (.scanHeadCheck c e) s = .next (s.holdHead c e k) := by
  obtain ⟨hp, hq, hop, hrun, hctx⟩ := h
  have held : (!((s.chan c).paddocked.any fun p => scanStream p.2.cmd = scanStream k) &&
      (s.chan c).pagesReady k) = false := by
    obtain hb | hb := hb
    · rw [behind_iff.mp hb]
      rfl
    · rw [hb, Bool.and_false]
  rw [exec, execScanHeadCheck, live_of_powered hp, hq]
  simp only [hop, hrun, hctx, hpin, hrec, held]
  rfl

/-- The head of a queue enters the entry of the paddock that is free (R336, R655). -/
theorem headEnters (s : State) (c : Ch) (e : SlotId) (k : EngCmd) {i : Nat} (hi : s.padFree c = some i) :
    ((s.holdHead c e k).engine c e).queue = (s.engine c e).queue.tail ∧
      (s.holdHead c e k).Paddocks c i ⟨e, k⟩ ∧ (s.holdHead c e k).rd (.grm c) Reg.grmPaddockStat_ENTERED =
        min (s.rd (.grm c) Reg.grmPaddockStat_ENTERED + 1) (2 ^ Reg.grmPaddockStat_ENTERED.w - 1) := by
  have enters : s.holdHead c e k = (s.enterPaddock c e i k).stateMap c := by rw [State.holdHead, hi]
  rw [enters]
  refine ⟨?_, (State.Paddocks.mapKeeps c i ⟨e, k⟩).stateMap (State.enterPaddock_paddocks hi k), ?_⟩
  · rw [(State.stateMap_besidePages _ c).queue, State.enterPaddock_queue]
  · rw [State.rd_stateMap _ _ (by simp [pageKind]) (by decide), State.enterPaddock_counts]

/-- With the paddock full the head waits in its queue, and the wait is signalled (R337, R655). -/
theorem headWaits (s : State) (c : Ch) (e : SlotId) (k : EngCmd) (hi : s.padFree c = none) :
    ((s.holdHead c e k).engine c e).queue = (s.engine c e).queue ∧
      ((s.holdHead c e k).rd (.grm c) Reg.intRaw_RAW).testBit 1 = true := by
  have waits : s.holdHead c e k = (s.raise (.grm c) 1).stateMap c := by rw [State.holdHead, hi]
  rw [waits]
  constructor
  · rw [((State.Keeps.of_chans (State.raise_chans ..)).trans (State.stateMap_besidePages _ c)).queue]
  · rw [State.rd_stateMap _ _ (by simp [pageKind]) (by decide), State.rd_raise_raw, Nat.testBit_mod_two_pow, Nat.testBit_or,
      Nat.testBit_two_pow_self, Bool.or_true]
    rfl

/-! ## The head pins its pages (R334) -/

/-- The channel has one record for each page of a stream. -/
def Channel.OneRecordEach (x : Channel) (n : Nat) : Prop :=
  ∀ p ∈ x.pages, ∀ q ∈ x.pages, p.index = q.index → n ∈ p.sharers → n ∈ q.sharers → p = q

theorem StatePage.not_fresh_of_held {p : StatePage} (h : p.held = true) : p.isFresh = false := by
  have : p.state ≠ .away := fun e => by simp [StatePage.held, e] at h
  simp [StatePage.isFresh, this]

/-- A page that is held is listed. -/
theorem Channel.mem_of_held {x : Channel} {n i : Nat} (h : (x.page n i).held = true) : x.page n i ∈ x.pages := by
  unfold Channel.page at h ⊢
  cases found : x.pages.find? fun p => p.index = i && p.sharers.contains n with
  | none =>
    rw [found] at h
    contradiction
  | some p => exact List.mem_of_find?_eq_some found

section
variable {x : Channel} {n i : Nat} {q : StatePage}

theorem Channel.pages_putPage (hq : q.held = true) (p : StatePage) :
    (x.putPage p q).pages = x.pages.filter (· ≠ p) ++ [q] := by
  rw [Channel.putPage, StatePage.not_fresh_of_held hq]
  rfl

/-- A new version of a page is found in the place of the older one, and the other pages are found as before. -/
theorem Channel.page_putPage (one : x.OneRecordEach n) (hi : q.index = (x.page n i).index)
    (hs : q.sharers = (x.page n i).sharers) (held : (x.page n i).held = true) (hq : q.held = true) (j : Nat) :
    (x.putPage (x.page n i) q).page n j = if j = i then q else x.page n j := by
  obtain ⟨index, own⟩ := x.page_names n i
  have listed := Channel.mem_of_held held
  rw [Channel.page, Channel.pages_putPage hq, List.find?_append, List.find?_filter]
  split
  · next e =>
    subst e
    rw [List.find?_eq_none.mpr fun p hp => ?_]
    · simp [hi, hs, index, own]
    · have only (h1 : p.index = j) (h2 : n ∈ p.sharers) : p = x.page n j := one p hp _ listed (h1.trans index.symm) h2 own
      simpa using fun h h1 h2 => h (only h1 h2)
  · next e =>
    have other : ([q].find? fun p => p.index = j && p.sharers.contains n) = none := by
      simp [hi, index, Ne.symm e]
    rw [other, Option.or_none, Channel.page.eq_1 x n j]
    congr 2
    funext p
    by_cases h : p = x.page n i
    · simp [h, index, Ne.symm e]
    · simp [h]

theorem Channel.OneRecordEach.putPage (one : x.OneRecordEach n) (hi : q.index = (x.page n i).index)
    (held : (x.page n i).held = true) (hq : q.held = true) : (x.putPage (x.page n i) q).OneRecordEach n := by
  obtain ⟨-, own⟩ := x.page_names n i
  have listed := Channel.mem_of_held held
  have only {p : StatePage} (hp : p ∈ x.pages.filter (· ≠ x.page n i)) (h1 : p.index = q.index)
      (h2 : n ∈ p.sharers) : False := by
    obtain ⟨hp, hne⟩ := List.mem_filter.mp hp
    exact of_decide_eq_true hne (one p hp _ listed (h1.trans hi) h2 own)
  intro a ha b hb hab sa sb
  rw [Channel.pages_putPage hq, List.mem_append, List.mem_singleton] at ha hb
  obtain ha | rfl := ha <;> obtain hb | rfl := hb
  · exact one a (List.mem_filter.mp ha).1 b (List.mem_filter.mp hb).1 hab sa sb
  · exact (only ha hab sa).elim
  · exact (only hb hab.symm sb).elim
  · rfl

end

/-- The page with the command among those that it is pinned for. -/
def StatePage.pinFor (uid used : Nat) (p : StatePage) : StatePage :=
  if p.pins.contains uid then p else { p with pins := p.pins ++ [uid], used := used }

theorem StatePage.pinFor_names (uid used : Nat) (p : StatePage) : (p.pinFor uid used).index = p.index ∧
    (p.pinFor uid used).sharers = p.sharers ∧ (p.pinFor uid used).held = p.held := by
  unfold StatePage.pinFor
  split <;> exact ⟨rfl, rfl, rfl⟩

theorem StatePage.pinFor_pins (uid used : Nat) (p : StatePage) : uid ∈ (p.pinFor uid used).pins := by
  unfold StatePage.pinFor
  split
  · next h => simpa using h
  · simp

/-- One page of a stream is pinned for a command: this is a use of it. -/
def State.pinPage (s : State) (c n uid i : Nat) : State :=
  (s.modChan c fun x => { x with pageUses := x.pageUses + 1 }).modPage c n i (StatePage.pinFor uid ((s.chan c).pageUses + 1))

theorem State.pin_eq (s : State) (c : Nat) (k : EngCmd) (h : (s.chan c).pinned k = false) :
    s.pin c k = (neededPages k).foldl (fun s i => s.pinPage c (scanStream k) k.uid i) s := by
  rw [State.pin, h]
  rfl

theorem State.chan_pinPage (s : State) (c n uid i : Nat) : (s.pinPage c n uid i).chan c =
    ({ s.chan c with pageUses := (s.chan c).pageUses + 1 } : Channel).putPage ((s.chan c).page n i)
      (((s.chan c).page n i).pinFor uid ((s.chan c).pageUses + 1)) := by
  rw [State.pinPage, State.modPage, State.chan_modChan, if_pos rfl, State.chan_modChan, if_pos rfl]
  rfl

/-- The pages that a command needs are held, each in one record. -/
structure PagesHeld (n : Nat) (l : List Nat) (x : Channel) : Prop where
  one : x.OneRecordEach n
  held : ∀ j ∈ l, (x.page n j).held = true

theorem State.page_pinPage {s : State} {c n i : Nat} {l : List Nat} (h : PagesHeld n l (s.chan c)) (hi : i ∈ l)
    (uid j : Nat) :
    ((s.pinPage c n uid i).chan c).page n j =
      if j = i then ((s.chan c).page n i).pinFor uid ((s.chan c).pageUses + 1) else (s.chan c).page n j := by
  obtain ⟨index, sharers, held⟩ := ((s.chan c).page n i).pinFor_names uid ((s.chan c).pageUses + 1)
  rw [State.chan_pinPage]
  exact Channel.page_putPage (x := { s.chan c with pageUses := (s.chan c).pageUses + 1 }) h.one index sharers (h.held i hi)
    (held.trans (h.held i hi)) j

theorem PagesHeld.pinPage {s : State} {c n i : Nat} {l : List Nat} (h : PagesHeld n l (s.chan c)) (hi : i ∈ l) (uid : Nat) :
    PagesHeld n l ((s.pinPage c n uid i).chan c) := by
  obtain ⟨index, -, held⟩ := ((s.chan c).page n i).pinFor_names uid ((s.chan c).pageUses + 1)
  refine ⟨?_, fun j hj => ?_⟩
  · rw [State.chan_pinPage]
    exact Channel.OneRecordEach.putPage (x := { s.chan c with pageUses := (s.chan c).pageUses + 1 }) h.one index
      (h.held i hi) (held.trans (h.held i hi))
  · rw [State.page_pinPage h hi]
    split
    · exact held.trans (h.held i hi)
    · exact h.held j hj

theorem State.pinPage_pins {s : State} {c n i : Nat} {l : List Nat} (h : PagesHeld n l (s.chan c)) (hi : i ∈ l)
    {uid j : Nat}
    (hj : j = i ∨ uid ∈ ((s.chan c).page n j).pins) : uid ∈ (((s.pinPage c n uid i).chan c).page n j).pins := by
  rw [State.page_pinPage h hi]
  split
  · exact StatePage.pinFor_pins ..
  · next e => exact hj.resolve_left e

/-- Pages that are held are pinned one after another, and stay pinned. -/
theorem State.pinPages_pins {c n uid : Nat} {l l' : List Nat} (hl : ∀ i ∈ l', i ∈ l) {s : State}
    (h : PagesHeld n l (s.chan c))
    {j : Nat} (hj : j ∈ l' ∨ uid ∈ ((s.chan c).page n j).pins) :
    uid ∈ (((l'.foldl (fun s i => s.pinPage c n uid i) s).chan c).page n j).pins := by
  induction l' generalizing s with
  | nil => exact hj.resolve_left List.not_mem_nil
  | cons i l' ih =>
    have hi := hl i List.mem_cons_self
    refine ih (fun a ha => hl a (List.mem_cons_of_mem _ ha)) (h.pinPage hi uid) ?_
    rw [List.mem_cons, or_assoc] at hj
    obtain e | hj | hj := hj
    · exact .inr (State.pinPage_pins h hi (.inl e))
    · exact .inl hj
    · exact .inr (State.pinPage_pins h hi (.inr hj))

/-- A head whose pages are ready, each in one record, pins them. -/
theorem State.pinned_pin (s : State) (c : Nat) (k : EngCmd) (hpin : (s.chan c).pinned k = false)
    (hready : (s.chan c).pagesReady k = true) (one : (s.chan c).OneRecordEach (scanStream k)) :
    ((s.pin c k).chan c).pinned k = true := by
  have held : PagesHeld (scanStream k) (neededPages k) (s.chan c) := by
    refine ⟨one, fun j hj => ?_⟩
    have ready := List.all_eq_true.mp hready j hj
    rw [StatePage.readyFor, Bool.and_eq_true] at ready
    exact ready.1
  rw [State.pin_eq s c k hpin]
  exact List.all_eq_true.mpr fun j hj =>
    List.contains_iff_mem.mpr (State.pinPages_pins (fun _ h => h) held (.inl hj))

/-- The head check of a SCAN: the head pins its pages, enters the paddock, or waits. -/
theorem scanHeadChecks : Rules.ScanHeadChecks := by
  intro c e s k head hpin hrec
  by_cases hb : HeldBack s c k
  · have ran := exec_headHeld head hpin hrec hb
    refine ⟨_, ran, exec_sameStores ran rfl, fun hn hready _ => ?_, fun i _ hi => ?_, fun _ hi => headWaits s c e k hi⟩
    · obtain hb | hb := hb
      · exact absurd hb hn
      · rw [hready] at hb
        contradiction
    · obtain ⟨queue, paddocks, entered⟩ := headEnters s c e k hi
      exact ⟨queue, paddocks.waits.imp (fun h => ⟨_, h, rfl, rfl⟩) id, entered⟩
  · obtain ⟨hn, hready⟩ := not_or.mp hb
    rw [Bool.not_eq_false] at hready
    have ran := exec_headPins head hpin hrec hn hready
    exact ⟨_, ran, exec_sameStores ran rfl,
      fun _ _ one => ⟨s.pinned_pin c k hpin hready one, (s.pin_besidePages c k).queue c e⟩,
      fun _ h => absurd h hb, fun h => absurd h hb⟩

end Sys2Proof.Machine
end

section
/-!
## The start of the scan unit (R315, R338)
-/

namespace Sys2Proof.Machine

variable {s t u : State} {c : Ch} {e : SlotId} {k : EngCmd}

/-- The queue and the scan unit of every engine of a channel. -/
def Channel.scanUnits (x : Channel) (e : Nat) : List EngCmd × Option EngCmd :=
  ((x.engine e).queue, (x.engine e).scanning)

theorem State.Keeps.scanUnit (h : s.Keeps Channel.scanUnits t) (c e : Nat) :
    (t.engine c e).queue = (s.engine c e).queue ∧ (t.engine c e).scanning = (s.engine c e).scanning :=
  Prod.mk.inj (congrFun (h.same c) e)

theorem State.modEngine_scanUnits (s : State) (c e : Nat) {f : Engine → Engine}
    (hf : ∀ g, ((f g).queue, (f g).scanning) = (g.queue, g.scanning) := by intros; rfl) :
    s.Keeps Channel.scanUnits (s.modEngine c e f) :=
  s.modChan_keeps c fun x => Tab.view_set (fun g : Engine => (g.queue, g.scanning)) x.engines e (hf _)

theorem State.ecsDone_scanUnits (s : State) (c : Nat) (ks : List EngCmd) (st : Nat) :
    s.Keeps Channel.scanUnits (s.ecsDone c ks st) :=
  State.Keeps.refl.fold fun u _ _ => .ite .refl (u.modChan_keeps c)

theorem State.endAction_scanUnits (s : State) (c e t : Nat) : s.Keeps Channel.scanUnits (s.endAction c e t) := by
  unfold State.endAction
  dsimp only
  split
  · exact .refl
  · exact .ite ((s.ecsDone_scanUnits c _ _).trans (State.modEngine_scanUnits _ c e))
      ((s.ecsDone_scanUnits c _ _).trans (State.modEngine_scanUnits _ c e))

/-- Tiles that settle leave the queue and the scan unit. -/
theorem State.settle_scanUnits (s : State) (c e : Nat) : s.Keeps Channel.scanUnits (s.settle c e) :=
  State.Keeps.refl.fold fun u t _ => .ite (u.endAction_scanUnits c e t.1) .refl

/-- The scan unit takes a command. -/
def State.scanTakes (s : State) (c e : Nat) (k : EngCmd) : State := s.modEngine c e fun g => { g with scanning := some k }

theorem State.engine_scanTakes (s : State) (c e : Nat) (k : EngCmd) :
    (s.scanTakes c e k).engine c e = { s.engine c e with scanning := some k } := State.engine_modEngine_same ..

/-- The free scan unit takes the head whose pages are pinned. -/
theorem exec_scanTakesHead (hp : s.dev.powered = true) (hfree : (s.engine c e).scanning = none) (hrun : s.engRuns c e = true)
    (hctx : s.ctxRuns k.ctx = true) (hq : (s.engine c e).queue.head? = some k) (hop : k.op = opScan)
    (hpin : (s.chan c).pinned k = true) :
    exec (.scanStart c e) s = .next (((s.leaveQueue c e k).scanTakes c e k).settle c e) := by
  rw [exec, execScanStart, live_of_powered hp]
  simp only [hfree, hrun, hq, Option.filter, hop, hpin, hctx]
  rfl

/-- The command in the re-entry position has gone to the scan unit. -/
def State.scanReenters (s : State) (c e : Nat) (k : EngCmd) : State :=
  s.modEngine c e fun g => { g with scanning := some k, reentry := none }

theorem State.engine_scanReenters (s : State) (c e : Nat) (k : EngCmd) :
    (s.scanReenters c e k).engine c e = { s.engine c e with scanning := some k, reentry := none } :=
  State.engine_modEngine_same ..

/-- A head that is no SCAN, or whose pages are not pinned, is not taken. -/
theorem head_not_taken (h : ∀ q, (s.engine c e).queue.head? = some q → q.op ≠ opScan ∨ (s.chan c).pinned q = false) :
    ((s.engine c e).queue.head?.filter fun q => q.op = opScan && (s.chan c).pinned q && s.ctxRuns q.ctx) = none := by
  refine Option.filter_eq_none_iff.mpr fun q hq => ?_
  obtain h | h := h q hq <;> simp [h]

/-- Without such a head it takes the command in the re-entry position. -/
theorem exec_scanReenters (hp : s.dev.powered = true) (hfree : (s.engine c e).scanning = none) (hrun : s.engRuns c e = true)
    (hctx : s.ctxRuns k.ctx = true)
    (hhead : ∀ q, (s.engine c e).queue.head? = some q → q.op ≠ opScan ∨ (s.chan c).pinned q = false)
    (hholds : s.headHolds c e = false) (hre : (s.engine c e).reentry = some k) :
    exec (.scanStart c e) s = .next ((s.scanReenters c e k).stateMap c) := by
  rw [exec, execScanStart, live_of_powered hp]
  simp only [hfree, hrun, head_not_taken hhead, hre, hctx, hholds]
  rfl

/-- The free scan unit starts: it takes the head, or the command in the re-entry position. -/
theorem scanStarts : Rules.ScanStarts := by
  intro c e s k hp hfree hrun hctx
  refine ⟨fun hq hop hpin => ?_, fun hhead hholds hre => ?_⟩
  · have ran := exec_scanTakesHead hp hfree hrun hctx hq hop hpin
    obtain ⟨queue, scanning⟩ := (State.settle_scanUnits ((s.leaveQueue c e k).scanTakes c e k) c e).scanUnit c e
    rw [State.engine_scanTakes] at queue scanning
    exact ⟨_, ran, scanning, queue.trans (s.leaveQueue_queue c e k), exec_sameStores ran rfl⟩
  · have ran := exec_scanReenters hp hfree hrun hctx hhead hholds hre
    have kept := (s.scanReenters c e k).stateMap_besidePages c
    refine ⟨_, ran, ?_, ?_, exec_sameStores ran rfl⟩
    · rw [kept.scanning, State.engine_scanReenters]
    · rw [kept.queue, State.engine_scanReenters]

end Sys2Proof.Machine
end

section
/-!
## The reads and the recurrence of a SCAN (R315, R317 to R320, R440, R585)
-/

namespace Sys2Proof.Machine

variable {s t u : State} {c : Ch} {e : SlotId} {k : EngCmd}

/-! ## The writes of the scan unit -/

/-- Of the writes of a scan that an engine holds, those that its write queue takes. -/
def Engine.scanSent (g : Engine) (p : ScanProg) : Nat := min p.out.length g.writeCredit.held

theorem Engine.pushScan_eq {g : Engine} (h : g.scanning = some k) : g.pushScan = { g with
    scanning := some { k with scan := { k.scan with out := k.scan.out.drop (g.scanSent k.scan) } }
    writes := g.writes ++ k.scan.out.take (g.scanSent k.scan)
    writeCredit := { g.writeCredit with held := g.writeCredit.held - g.scanSent k.scan } } := by
  rw [Engine.pushScan, h]
  rfl

/-- The scan unit's command is at a new point, and its writes go on. -/
def State.scanGoes (s : State) (c e : Nat) (k : EngCmd) (p : ScanProg) : State :=
  (s.setScan c e k p).modEngine c e Engine.pushScan

theorem State.engine_setScan (s : State) (c e : Nat) (k : EngCmd) (p : ScanProg) :
    (s.setScan c e k p).engine c e = { s.engine c e with scanning := some { k with scan := p } } :=
  State.engine_modEngine_same ..

theorem State.engine_scanGoes (s : State) (c e : Nat) (k : EngCmd) (p : ScanProg) : ∃ n,
    ((s.scanGoes c e k p).engine c e).scanning = some { k with scan := { p with out := p.out.drop n } } ∧
      ((s.scanGoes c e k p).engine c e).writes = (s.engine c e).writes ++ p.out.take n := by
  refine ⟨(s.engine c e).scanSent p, ?_⟩
  rw [State.scanGoes, State.engine_modEngine_same, State.engine_setScan, Engine.pushScan_eq rfl]
  exact ⟨rfl, rfl⟩

theorem State.scanGoes_sameStores (s : State) (c e : Nat) (k : EngCmd) (p : ScanProg) : s.sameStores (s.scanGoes c e k p) :=
  (State.modEngine_moves (State.modEngine_moves .refl c e _ .refl) c e _ .refl :
    Moves ⟨false, [.chans], []⟩ s _).sameStores rfl

theorem State.chan_scanGoes (s : State) (c e : Nat) (k : EngCmd) (p : ScanProg) :
    ((s.scanGoes c e k p).chan c).narrowed = (s.chan c).narrowed := by
  simp [State.scanGoes, State.setScan, State.modEngine]

/-! ## The two ways to form the results -/

/-- The results of a command whose inputs are poisoned: none (R585). -/
def lostScan : ScanProg := { formed := true, lost := true }

/-- The results of a command whose reads are done. -/
def State.formedScan (s : State) (c e : Nat) (k : EngCmd) : ScanProg :=
  let parts := scanParts (s.scanOwner c e k) k (s.scanOut c k)
  { formed := true, out := parts.flatMap (·.1), state := (s.scanOut c k).state
    counts := { (s.scanOut c k).counts with nzblk := (parts.map (·.2)).sum } }

/-- The values that a command narrows count (R145). -/
def State.countNarrowed (s : State) (c n : Nat) : State := s.modChan c fun x => { x with narrowed := n }

theorem State.scanForm_lost (h : s.scanPoisoned c k = true) :
    s.scanForm c e k = (s.metPoison c (consumerScan e) 0).setScan c e k lostScan := if_pos h

theorem State.scanForm_formed (h : s.scanPoisoned c k = false) : s.scanForm c e k =
    (s.countNarrowed c (s.scanOut c k).n).setScan c e k (s.formedScan c e k) := by
  rw [State.scanForm, h]
  rfl

theorem State.engine_countNarrowed (s : State) (c n e : Nat) : (s.countNarrowed c n).engine c e = s.engine c e :=
  State.engine_of_engines (by intros; rfl) s e

theorem State.countNarrowed_sameStores (s : State) (c n : Nat) : s.sameStores (s.countNarrowed c n) := by
  intro d
  rw [State.countNarrowed, State.chan_modChan]
  split
  · subst_vars
    exact ⟨rfl, rfl, rfl⟩
  · exact ⟨rfl, rfl, rfl⟩

/-! ## SCAN_COMPLETE while a command is being computed -/

theorem exec_scanComplete {ext : List Byte} (hp : s.dev.powered = true) (hk : (s.engine c e).scanning = some k)
    (hrun : s.engRuns c e = true) (hctx : s.ctxRuns k.ctx = true) :
    exec (.scanComplete c e ext) s = .next ((s.active k.ctx).scan c e k ext) := by
  rw [exec, execScanComplete, live_of_powered hp, hk]
  simp only [hrun, hctx]
  rfl

section
variable {ext : List Byte} {p : ScanProg} (hform : k.scan.formed = false)
include hform

theorem State.scan_reads (h : s.scanReads c e k ext = (u, p, false)) : s.scan c e k ext = u.setScan c e k p := by
  rw [State.scan, hform, h]
  rfl

theorem State.scan_forms (h : s.scanReads c e k ext = (u, p, true)) :
    s.scan c e k ext = (u.scanForm c e { k with scan := p }).modEngine c e Engine.pushScan := by
  rw [State.scan, hform, h]
  rfl

end

theorem State.setScan_sameStores (s : State) (c e : Nat) (k : EngCmd) (p : ScanProg) : s.sameStores (s.setScan c e k p) :=
  s.modEngine_sameStores c e _

theorem State.sameStores.trans (h1 : s.sameStores t) (h2 : t.sameStores u) : s.sameStores u := fun c =>
  ⟨(h2 c).1.trans (h1 c).1, (h2 c).2.1.trans (h1 c).2.1, (h2 c).2.2.trans (h1 c).2.2⟩

/-- A command whose reads have been done is lost, or its results are formed and its writes begin. -/
theorem scanFormed (u : State) (c : Ch) (e : SlotId) (k : EngCmd) (p : ScanProg) :
    ∃ t, (u.scanForm c e { k with scan := p }).modEngine c e Engine.pushScan = t ∧ u.sameStores t ∧
      (u.scanPoisoned c { k with scan := p } = true → (t.engine c e).scanning = some { k with scan := lostScan } ∧
        (t.engine c e).writes = (u.engine c e).writes) ∧
      (u.scanPoisoned c { k with scan := p } = false →
        (t.chan c).narrowed = (u.scanOut c { k with scan := p }).n ∧ ∃ n, (t.engine c e).scanning = some { k with
          scan := { u.formedScan c e { k with scan := p } with
            out := (u.formedScan c e { k with scan := p }).out.drop n } } ∧
        (t.engine c e).writes = (u.engine c e).writes ++ (u.formedScan c e { k with scan := p }).out.take n) := by
  cases poisoned : u.scanPoisoned c { k with scan := p } with
  | true =>
    rw [State.scanForm_lost poisoned]
    refine ⟨_, rfl, ?_, fun _ => ?_, fun h => Bool.noConfusion h⟩
    · exact (State.scanGoes_sameStores (u.metPoison c (consumerScan e) 0) c e { k with scan := p } lostScan).of_chans
        (State.metPoison_chans ..).symm rfl
    · obtain ⟨n, scanning, writes⟩ :=
        (u.metPoison c (consumerScan e) 0).engine_scanGoes c e { k with scan := p } lostScan
      have same : (u.metPoison c (consumerScan e) 0).engine c e = u.engine c e := by
        rw [State.engine, State.chan_congr (State.metPoison_chans ..), ← State.engine]
      rw [same] at writes
      simp only [lostScan, List.drop_nil, List.take_nil, List.append_nil] at scanning writes
      exact ⟨scanning, writes⟩
  | false =>
    rw [State.scanForm_formed poisoned]
    refine ⟨_, rfl, ?_, fun h => Bool.noConfusion h, fun _ => ⟨?_, ?_⟩⟩
    · exact (u.countNarrowed_sameStores c _).trans (State.scanGoes_sameStores _ c e { k with scan := p } _)
    · refine (State.chan_scanGoes _ c e { k with scan := p } _).trans ?_
      rw [State.countNarrowed, State.chan_modChan, if_pos rfl]
    · obtain ⟨n, scanning, writes⟩ := (u.countNarrowed c (u.scanOut c { k with scan := p }).n).engine_scanGoes c e
        { k with scan := p } (u.formedScan c e { k with scan := p })
      rw [State.engine_countNarrowed] at writes
      exact ⟨n, scanning, writes⟩

/-- What a formed scan still has to write and what its engine's write queue has taken are its outputs in order. -/
theorem scanComputes : Rules.ScanComputes := by
  intro c e ext s u k p done hp hk hrun hctx hform hread
  have ran := exec_scanComplete (ext := ext) hp hk hrun hctx
  cases done with
  | false =>
    rw [State.scan_reads hform hread] at ran
    refine ⟨_, ran, u.setScan_sameStores c e k p, fun _ => ⟨?_, rfl⟩, fun h => Bool.noConfusion h, fun _ h =>
      Bool.noConfusion h⟩
    rw [State.engine_setScan]
  | true =>
    obtain ⟨t, ht, stores, lost, formed⟩ := scanFormed u c e k p
    rw [State.scan_forms hform hread, ht] at ran
    refine ⟨t, ran, stores, fun h => Bool.noConfusion h, fun _ => lost, ?_⟩
    rintro out - poisoned rfl
    obtain ⟨narrowed, n, scanning, writes⟩ := formed poisoned
    refine ⟨narrowed, _, scanning, rfl, rfl, rfl, ?_⟩
    rw [writes, List.append_assoc, List.take_append_drop]
    rfl

end Sys2Proof.Machine
end

section
/-!
## The end of a SCAN command (R315, R319, R320, R585)
-/

namespace Sys2Proof.Machine

variable {s t u : State} {c : Ch} {e : SlotId} {k : EngCmd}

/-! ## The three ways on once the results are formed -/

/-- The sideband record that a command still has to form: the last of its SCAN forms it, once (R320). -/
def State.scanTail (s : State) (c e : Nat) (k : EngCmd) : List Piece :=
  if (s.chan c).lastOf k && !k.scan.tailed then s.scanSideband c e k ((s.scanBefore c k).plus k.scan.counts) else []

/-- The new state of a command that is not lost is in the stream's pages (R319). -/
def State.scanStored (s : State) (c : Nat) (k : EngCmd) : State := if k.scan.lost then s else s.writeState c k k.scan.state

/-- The counts of a SCAN are kept for its later commands. -/
def State.scanTotals (s : State) (c : Nat) (k : EngCmd) (n : NarrowCounts) : State :=
  s.modChan c fun x => { x with scanCounts := Tab.set x.scanCounts k.num n }

theorem State.scanFinish_tail (h : s.scanTail c e k ≠ []) :
    s.scanFinish c e k = s.scanGoes c e k { k.scan with out := s.scanTail c e k, tailed := true } := by
  unfold State.scanFinish
  dsimp only
  rw [if_pos]
  · rfl
  · rw [Bool.not_eq_true']
    exact List.isEmpty_eq_false_iff.mpr h

theorem State.scanFinish_end (h : s.scanTail c e k = []) : s.scanFinish c e k =
    (((s.scanStored c k).scanTotals c k ((s.scanBefore c k).plus k.scan.counts)).scanSteps c k).scanEnd c e k
      (if k.scan.lost then stTileLost else stOk) := by
  unfold State.scanFinish
  dsimp only
  rw [if_neg]
  · rfl
  · rw [Bool.not_eq_true', Bool.not_eq_false]
    exact List.isEmpty_iff.mpr h

section
variable {ext : List Byte} (hform : k.scan.formed = true)
include hform

theorem State.scan_writes (h : k.scan.out ≠ []) : s.scan c e k ext = s.modEngine c e Engine.pushScan := by
  rw [State.scan, hform, if_pos rfl, if_pos (by simpa using h)]

theorem State.scan_finishes (h : k.scan.out = []) (hw : (s.engine c e).scanWrites = false) :
    s.scan c e k ext = s.scanFinish c e k := by
  rw [State.scan, hform, if_pos rfl, if_neg (by simp [h]), if_neg (by simp [hw])]

end

/-! ## What the steps of the end leave -/

theorem Channel.lastOf_congr {x y : Channel} (h : y.cmds = x.cmds) (k : EngCmd) : y.lastOf k = x.lastOf k := by
  rw [Channel.lastOf, Channel.cmd?, h]
  rfl

theorem State.writeState_cmds (s : State) (c : Nat) (k : EngCmd) (st : List ((Nat × Nat) × List Nat)) :
    s.Keeps (fun x => x.cmds) (s.writeState c k st) :=
  (State.Keeps.refl.fold fun u _ _ => u.modChan_keeps c).fold fun u _ _ => u.modChan_keeps c

theorem State.writeState_streams (s : State) (c : Nat) (k : EngCmd) (st : List ((Nat × Nat) × List Nat)) :
    (s.writeState c k st).streams = s.streams :=
  (State.writeState_moves .refl c k st .refl : Moves ⟨true, [.chans], []⟩ s _).parts .streams (by decide)

theorem State.scanStored_cmds (s : State) (c : Nat) (k : EngCmd) : s.Keeps (fun x => x.cmds) (s.scanStored c k) :=
  .ite .refl (s.writeState_cmds c k _)

theorem State.scanStored_streams (s : State) (c : Nat) (k : EngCmd) : (s.scanStored c k).streams = s.streams := by
  unfold State.scanStored
  split
  · rfl
  · exact s.writeState_streams c k _

theorem State.scanTotals_cmds (s : State) (c : Nat) (k : EngCmd) (n : NarrowCounts) :
    s.Keeps (fun x => x.cmds) (s.scanTotals c k n) := s.modChan_keeps c

theorem State.scanTotals_streams (s : State) (c : Nat) (k : EngCmd) (n : NarrowCounts) :
    (s.scanTotals c k n).streams = s.streams := rfl

theorem State.scanSteps_chans (s : State) (c : Nat) (k : EngCmd) : (s.scanSteps c k).chans = s.chans := by
  unfold State.scanSteps
  split <;> rfl

/-- STEPS counts the steps of a SCAN whose last command ends with the stream's position (R320). -/
theorem State.steps_scanSteps (s : State) (c : Nat) (k : EngCmd) : ((s.scanSteps c k).stream (scanStream k)).steps =
    if (s.chan c).lastOf k = true ∧ nStepend k.descs = true then
      ((s.stream (scanStream k)).steps + nL k.descs) % 2 ^ 48
    else (s.stream (scanStream k)).steps := by
  unfold State.scanSteps
  split <;> rename_i last <;> rw [Bool.and_eq_true] at last
  · rw [State.stream_modStream, if_pos rfl, if_pos last]
  · rw [if_neg last]

/-! ## The command leaves the scan unit -/

/-- The scan unit is free, its command's pages are no longer pinned, and the command has completed. -/
def State.scanLeaves (s : State) (c e : Nat) (k : EngCmd) (st : Nat) : State :=
  ((s.modEngine c e fun g => { g with scanning := none }).unpin c k).ecDone c k st

theorem State.scanEnd_eq (s : State) (c e : Nat) (k : EngCmd) (st : Nat) :
    s.scanEnd c e k st = ((s.scanLeaves c e k st).stateMap c).releaseClosing := rfl

theorem State.scanEnd_keeps (s : State) (c e : Nat) (k : EngCmd) (st : Nat) :
    (s.scanLeaves c e k st).Keeps Channel.besidePages (s.scanEnd c e k st) :=
  (State.stateMap_besidePages _ c).trans (State.releaseClosing_besidePages _)

theorem State.scanLeaves_scanUnits (s : State) (c e : Nat) (k : EngCmd) (st : Nat) :
    (s.modEngine c e fun g => { g with scanning := none }).Keeps Channel.scanUnits (s.scanLeaves c e k st) :=
  State.Keeps.trans (State.modChan_keeps _ c) (.ite .refl (State.modChan_keeps _ c))

theorem State.scanEnd_scanning (s : State) (c e : Nat) (k : EngCmd) (st : Nat) :
    ((s.scanEnd c e k st).engine c e).scanning = none := by
  rw [(s.scanEnd_keeps c e k st).scanning, ((s.scanLeaves_scanUnits c e k st).scanUnit c e).2, State.engine_modEngine_same]

theorem State.scanEnd_completes (s : State) (c e : Nat) (k : EngCmd) (st : Nat) :
    CompletedWith s (s.scanEnd c e k st) c k st := by
  have done : CompletedWith s (s.scanLeaves c e k st) c k st :=
    completedWith_of_done (((s.modEngine_ends c e _).trans (State.unpin_ends _ c k)).trans (State.ecDone_ends _ c k st))
      fun ha => State.ecDone_done _ c ha st
  unfold CompletedWith at done ⊢
  rw [((s.scanEnd_keeps c e k st).cmds_forks c).1]
  exact done

theorem State.scanEnd_steps (s : State) (c e : Nat) (k : EngCmd) (st n : Nat) :
    ((s.scanEnd c e k st).stream n).steps = (s.stream n).steps := by
  have left : (s.scanLeaves c e k st).streams = s.streams := by
    rw [State.scanLeaves, State.ecDone]
    split <;> rfl
  rw [State.scanEnd_eq, (State.stream_releaseClosing _ n).steps, State.stream_congr (State.stateMap_streams ..),
    State.stream_congr left]

/-! ## A command whose writes have been accepted -/

/-- The status that a command of the scan unit ends with: TILE_LOST where its inputs were poisoned (R585). -/
def EngCmd.scanStatus (k : EngCmd) : Nat := if k.scan.lost then stTileLost else stOk

/-- The counts of its SCAN have been kept and STEPS has counted. -/
def State.scanCounted (s : State) (c : Nat) (k : EngCmd) (n : NarrowCounts) : State :=
  ((s.scanStored c k).scanTotals c k n).scanSteps c k

theorem State.scanCounted_cmds (s : State) (c : Nat) (k : EngCmd) (n : NarrowCounts) :
    s.Keeps (fun x => x.cmds) (s.scanCounted c k n) :=
  ((s.scanStored_cmds c k).trans (State.scanTotals_cmds _ c k n)).trans (.of_chans (State.scanSteps_chans ..))

theorem State.scanCounted_steps (s : State) (c : Nat) (k : EngCmd) (n : NarrowCounts) :
    ((s.scanCounted c k n).stream (scanStream k)).steps =
      if (s.chan c).lastOf k = true ∧ nStepend k.descs = true then
        ((s.stream (scanStream k)).steps + nL k.descs) % 2 ^ 48
      else (s.stream (scanStream k)).steps := by
  rw [State.scanCounted, State.steps_scanSteps,
    Channel.lastOf_congr (((s.scanStored_cmds c k).trans (State.scanTotals_cmds _ c k n)).same c),
    State.stream_congr ((State.scanTotals_streams ..).trans (s.scanStored_streams c k))]

/-- The state that the end of a command leaves. -/
def State.scanDone (s : State) (c e : Nat) (k : EngCmd) (n : NarrowCounts) : State :=
  (s.scanCounted c k n).scanEnd c e k k.scanStatus

theorem State.scanDone_sameStores (s : State) (c e : Nat) (k : EngCmd) (n : NarrowCounts) :
    (s.scanStored c k).sameStores (s.scanDone c e k n) := by
  have totals : Moves ⟨false, [.out, .msix, .streams, .recorder, .chans], [.rpl]⟩ (s.scanStored c k)
      ((s.scanStored c k).scanTotals c k n) :=
    State.modChan_moves .refl c (by decide) fun _ _ => .of_eq rfl rfl rfl
  exact (State.scanEnd_moves (State.scanSteps_moves totals c k (by decide)) c e k k.scanStatus .refl).sameStores rfl

theorem State.scanDone_completes (s : State) (c e : Nat) (k : EngCmd) (n : NarrowCounts) :
    CompletedWith s (s.scanDone c e k n) c k k.scanStatus :=
  completedWith_of_cmds (State.scanEnd_completes _ c e k _) ((s.scanCounted_cmds c k n).same c).symm

/-- A command that has to form no record any more ends (R320, R585). -/
theorem scanEnds (s : State) (c : Ch) (e : SlotId) (k : EngCmd) (n : NarrowCounts) :
    ((s.scanDone c e k n).engine c e).scanning = none ∧
      (k.scan.lost = true → s.sameStores (s.scanDone c e k n) ∧ CompletedWith s (s.scanDone c e k n) c k stTileLost) ∧
      (k.scan.lost = false → (s.writeState c k k.scan.state).sameStores (s.scanDone c e k n) ∧
        CompletedWith s (s.scanDone c e k n) c k stOk) ∧
      ((s.scanDone c e k n).stream (scanStream k)).steps =
        if (s.chan c).lastOf k = true ∧ nStepend k.descs = true then
          ((s.stream (scanStream k)).steps + nL k.descs) % 2 ^ 48
        else (s.stream (scanStream k)).steps := by
  have stores := s.scanDone_sameStores c e k n
  have completed := s.scanDone_completes c e k n
  refine ⟨State.scanEnd_scanning .., fun lost => ?_, fun held => ?_, ?_⟩
  · rw [State.scanStored, if_pos lost] at stores
    rw [EngCmd.scanStatus, if_pos lost] at completed
    exact ⟨stores, completed⟩
  · rw [State.scanStored, held] at stores
    rw [EngCmd.scanStatus, held] at completed
    exact ⟨stores, completed⟩
  · rw [State.scanDone, State.scanEnd_steps, State.scanCounted_steps]

theorem State.scanTail_none (h : (s.chan c).lastOf k = false ∨ k.scan.tailed = true ∨ nSbaddr k.descs = 0) :
    s.scanTail c e k = [] := by
  unfold State.scanTail State.scanSideband
  obtain h | h | h := h <;> simp [h]

theorem State.scanTail_record (hl : (s.chan c).lastOf k = true) (ht : k.scan.tailed = false) :
    s.scanTail c e k = s.scanSideband c e k ((s.scanBefore c k).plus k.scan.counts) := by
  rw [State.scanTail, hl, ht]
  rfl

theorem State.scanBefore_congr (h : t.chans = s.chans) (c : Nat) (k : EngCmd) : t.scanBefore c k = s.scanBefore c k := by
  rw [State.scanBefore, State.chan_congr h, State.scanBefore]

theorem State.active_stream (s : State) (ctx n : Nat) : (s.active ctx).stream n = s.stream n :=
  (State.active_moves .refl ctx .refl : Moves ⟨false, [], [.ctx]⟩ s _).stream (by decide) n

/-- The outputs that are formed go on, then the sideband record, and then the command ends. -/
theorem scanCompletes : Rules.ScanCompletes := by
  intro c e ext s u k n hp hk hrun hctx hform hu
  have ran := exec_scanComplete (ext := ext) hp hk hrun hctx
  rw [← hu] at ran
  have chans : u.chans = s.chans := hu ▸ s.active_chans k.ctx
  have engine : u.engine c e = s.engine c e := hu ▸ s.engine_active k.ctx c e
  have chan : u.chan c = s.chan c := State.chan_congr chans c
  have stream : u.stream (scanStream k) = s.stream (scanStream k) := hu ▸ s.active_stream k.ctx _
  refine ⟨_, ran, fun hout hn => ?_, fun side hout hw hlast htail hside hne => ?_, fun hout hw hno => ?_⟩
  · rw [State.scan_writes hform hout, State.engine_modEngine_same, engine, Engine.pushScan_eq hk]
    subst hn
    exact ⟨(u.modEngine_sameStores c e _).of_chans chans.symm rfl, rfl, rfl, rfl⟩
  · rw [State.scan_finishes hform hout (engine ▸ hw)]
    have record : u.scanTail c e k = side := by
      rw [State.scanTail_record (chan ▸ hlast) htail, State.scanBefore_congr chans, hside]
    rw [State.scanFinish_tail (record ▸ hne), record]
    obtain ⟨n, scanning, writes⟩ := u.engine_scanGoes c e k { k.scan with out := side, tailed := true }
    refine ⟨(u.scanGoes_sameStores c e k _).of_chans chans.symm rfl, _, scanning, rfl, rfl, ?_⟩
    rw [writes, engine, List.append_assoc, List.take_append_drop]
  · rw [State.scan_finishes hform hout (engine ▸ hw), State.scanFinish_end (State.scanTail_none (chan ▸ hno))]
    obtain ⟨scanning, lost, held, steps⟩ := scanEnds u c e k ((u.scanBefore c k).plus k.scan.counts)
    refine ⟨scanning, fun h => ?_, fun h => ?_, ?_⟩
    · exact ⟨(lost h).1.of_chans chans.symm rfl, completedWith_of_chans (lost h).2 chans.symm rfl⟩
    · exact ⟨(held h).1, completedWith_of_chans (held h).2 chans.symm rfl⟩
    · rw [chan, stream] at steps
      exact steps

/-- Settles O47: the head check, the start of the scan unit, and its work on a command before and after the results are
formed. -/
theorem scans : Obligations.Scans := ⟨scanHeadChecks, scanStarts, scanComputes, scanCompletes⟩

end Sys2Proof.Machine
end

section
/-!
## The staging window of a lodger fill (R362, R365)

The model forms the address of a buffer's half of the staging window in the type of the buffer's number, which has two
values: either half comes out at address 0 of the weight stall, so a complete fill stands there.
-/

namespace Sys2Proof.Machine

variable {s u : State} {c : Ch} {buf : Fin 2} {q : LodgerBuf} {ds : List Nat} {ext : List Byte} {o : ReadOut}

/-! ## A filled chunk is used -/

/-- The restored commands that are placed change the engines, and those that wait for their chunk. -/
theorem State.placeHeld_keeps {β : Type} {view : Channel → β}
    (hv : ∀ (x : Channel) held engines, view { x with lodgerHeld := held, engines := engines } = view x) (s : State)
    (c : Nat) : s.Keeps view (s.placeHeld c) :=
  (s.modChan_keeps c fun x => hv x _ x.engines).fold fun u _ _ => u.modChan_keeps c fun x => hv x x.lodgerHeld _

/-- A filled buffer that is used changes no byte of the stall. -/
theorem State.useFilled_stall (s : State) (c b : Nat) (q : LodgerBuf) : s.Keeps Channel.stall (s.useFilled c b q) := by
  unfold State.useFilled
  extract_lets placed again known
  have taken : s.Keeps Channel.stall placed := (s.modChan_keeps c).trans (State.placeHeld_keeps (fun _ _ _ => rfl) _ c)
  have noted : s.Keeps Channel.stall known := taken.trans (State.modCmd_keeps (fun _ _ => rfl) _ c _ _)
  exact .ite (taken.trans (.of_chans (State.bump_chans ..))) (.ite (noted.trans (.of_chans (State.bump_chans ..))) noted)

/-! ## A fill completes -/

/-- A buffer of the channel is being filled, and its fill may go on. -/
structure State.AtFill (s : State) (c : Ch) (buf : Fin 2) (q : LodgerBuf) (ds : List Nat) : Prop where
  powered : s.dev.powered = true
  map : s.mapRuns c = true
  fill : ((s.chan c).buffers.find? fun q => q.1 = buf.val && q.2.filling) = some (buf.val, q)
  context : s.ctxRuns q.ctx = true
  free : s.stalled (.lodger c buf) = false
  recording : s.mayRecord c = true
  descs : (s.chan c).fillDescs q = some ds

/-- The access that reads a fill. -/
def State.fillAccess (s : State) (c : Ch) (buf : Fin 2) (q : LodgerBuf) (ds : List Nat) : MemAccess :=
  { req := .lodger c buf, ctx := q.ctx, va := bWsrc ds + (rowTileBytes ds q.first q.rows).1, write := false
    info := { ring := ((s.chan c).cmd? q.num).map (·.ring), cmdid := some (hdCmdid ds), num := some q.num } }

/-- The bytes of a fill. -/
def fillBytes (ds : List Nat) (q : LodgerBuf) : Nat :=
  (rowTileBytes ds q.first q.rows).2 - (rowTileBytes ds q.first q.rows).1

/-- What was read stands at address 0 of the stall, poisoned where what was read is. -/
def State.stage (s : State) (c : Ch) (o : ReadOut) : State :=
  s.modChan c fun x =>
    let m := x.stall.put 0 o.bytes
    { x with stall := if o.poisoned then m.taint 0 o.bytes.length else m }

/-- The fill is complete. -/
def State.fillDone (s : State) (c : Ch) (buf : Fin 2) (q : LodgerBuf) (o : ReadOut) : State :=
  (((s.stage c o).useFilled c buf { q with moved := {} }).wr (.wst c) (bufFld buf) 2).bump (.wst c) Reg.wstCnt_FILLS

theorem exec_lodgerFillComplete (h : s.AtFill c buf q ds)
    (ho : s.readOn (s.fillAccess c buf q ds) hbmWeight (fillBytes ds q) q.moved ext = (u, o)) (hdone : o.done = true) :
    exec (.lodgerFillComplete c buf ext) s = .next (u.fillDone c buf q o) := by
  obtain ⟨hp, hm, hf, hc, hs, hr, hd⟩ := h
  unfold State.fillAccess fillBytes at ho
  rw [exec, execLodgerFillComplete, live_of_powered hp, hf]
  simp [hm, hc, hs, hr, hd, ho, hdone, State.fillDone, State.stage]

theorem State.fillDone_stall (s : State) (c : Ch) (buf : Fin 2) (q : LodgerBuf) (ho : o.poisoned = false) :
    ((s.fillDone c buf q o).chan c).stall = (s.chan c).stall.put 0 o.bytes := by
  rw [State.fillDone, State.chan_congr (State.bump_chans ..), State.chan_congr (State.wr_chans ..),
    (State.useFilled_stall _ c buf _).same c, State.stage, State.chan_modChan, if_pos rfl, ho]
  rfl

/-- Bytes that are put above address 0 of a store do not stand there. -/
theorem Memory.put_zero_ne {m : Memory} (hm : m.wf) {b : Byte} {bs : List Byte} {base : Nat} (hb : m.read 0 ≠ b)
    (hbase : base ≠ 0) : m.put base (b :: bs) ≠ m.put 0 (b :: bs) := by
  intro same
  have low : (m.put 0 (b :: bs)).read 0 = b := by
    refine (m.read_writeBytes 0 (b :: bs) hm 0).trans ?_
    simp
  have high : (m.put base (b :: bs)).read 0 = m.read 0 := by
    refine (m.read_writeBytes base (b :: bs) hm 0).trans (if_neg ?_)
    omega
  rw [same, low] at high
  exact hb high.symm

/-! ## A fill that the model puts elsewhere -/

/-- A MATMUL of one position and one channel, A1 to A1, whose weights lie at 0x50000. -/
def stagedDescs : List Nat :=
  [opMatmul + 2 ^ 16 + 2 ^ 74 + 2 ^ 192 + 2 ^ 208 + 2 ^ 224 + 2 ^ 238 + 0x50000 * 2 ^ 256 + 2 ^ 320 + 4096 * 2 ^ 352]

/-- The first fill of its one chunk, that has moved nothing yet. -/
def stagedFill : LodgerBuf := { num := 4, chunk := 0, first := 0, rows := 1, ctx := 1 }

/-- The first 2³⁰ bytes of context 1 lie in the stack of channel 0. -/
def stagedPage : Xlat := { ctx := 1, va := 0, size := 30, target := .hbm 0, addr := 0, w := true, pinned := false }

/-- Channel 0 runs, context 1 is resident, and a lodger command's chunk is being filled into buffer 0; its first weight
byte is 7. -/
def stagedCard : State :=
  let card := ((State.reset.modDev fun d => { d with mainRuns := true }).wr .clk (Reg.clkArith_LOCKED 0) 1).setBlk (.grm 0)
    blkOn
  let resident := (card.wr .ctx (Reg.ctxSlot_STATE 7) slotResident).wr .ctx (Reg.ctxSlot_CTX 7) 1
  (resident.modCache (.cmmu 0) fun x => x.insert (.cmmu 0) stagedPage).modChan 0 fun x => { x with
    cmds := [{ num := 4, ring := 15, descs := stagedDescs, stage := .splitting, total := 1 }]
    lodgers := [4]
    buffers := [(0, stagedFill)]
    hbm := x.hbm.put 0x50000 [7] }

/-- What the fill reads. -/
def stagedRead : State × ReadOut :=
  stagedCard.readOn (stagedCard.fillAccess 0 0 stagedFill stagedDescs) hbmWeight (fillBytes stagedDescs stagedFill)
    stagedFill.moved []

theorem stagedCard_atFill : stagedCard.AtFill 0 0 stagedFill stagedDescs := by
  constructor <;> decide +kernel

/-- The fill is read at once and without poison; its first byte is 7, and the stall is still empty. -/
theorem stagedRead_done : stagedRead.2.done = true ∧ stagedRead.2.poisoned = false ∧ stagedRead.2.bytes.head? = some 7 ∧
    (stagedRead.1.chan (0 : Ch)).stall = {} := by decide +kernel

/-- Refutes O34: the fill of a lodger command's chunk into buffer 0 of channel 0, whose first weight byte is 7, completes
with that byte at address 0 of the weight stall and not at 0x12000000, the first of the buffer's window (R362). -/
theorem not_lodgerFills : ¬ Obligations.LodgerFills := by
  intro h
  obtain ⟨hp, hm, hf, hc, hs, hr, hd⟩ := stagedCard_atFill
  obtain ⟨done, sound, first, empty⟩ := stagedRead_done
  have read : stagedCard.readOn _ _ _ _ _ = (stagedRead.1, stagedRead.2) := (Prod.eta stagedRead).symm
  generalize stagedRead.1 = u, stagedRead.2 = o at done sound first empty read
  obtain ⟨bs, bytes⟩ : ∃ bs, o.bytes = 7 :: bs := List.head?_eq_some_iff.mp first
  obtain ⟨-, fills⟩ := h 0 stagedCard hp hm
  obtain ⟨t, ran, -, full⟩ := fills 0 [] stagedFill stagedDescs _ u o hf hc hs hr hd rfl read
  obtain ⟨-, claimed, -⟩ := full done
  obtain rfl := Host.Outcome.next.inj ((exec_lodgerFillComplete stagedCard_atFill read done).symm.trans ran)
  have staged := (State.fillDone_stall u 0 0 stagedFill sound).symm.trans (claimed sound)
  rw [bytes, empty] at staged
  exact Memory.put_zero_ne Memory.wf_empty (by decide) (by decide) staged.symm

end Sys2Proof.Machine
end

section
/-!
## The records of a channel, and the end of its rings (R380, R402)
-/

namespace Sys2Proof.Machine

variable {s t : State}

/-! ## Completion records -/

/-- The commands of a channel, and the completion records that its rings hold. -/
def Channel.records (x : Channel) : List HostCmd × (Nat → List CplRecord) := (x.cmds, fun r => (x.ring r).held)

theorem RecordHeld.of_keeps {c st : Nat} {h : HostCmd} (hr : RecordHeld s c h st) (hk : s.Keeps Channel.records t) :
    RecordHeld t c h st := by
  have same := hk.same c
  have cmds : (t.chan c).cmds = (s.chan c).cmds := congrArg Prod.fst same
  have held : (t.ringOf c h.ring).held = (s.ringOf c h.ring).held := congrFun (congrArg Prod.snd same) h.ring
  unfold RecordHeld Channel.cmd? at hr ⊢
  rwa [cmds, held]

/-- Whose record is held is said by the command's number and ring. -/
theorem RecordHeld.of_names {c st : Nat} {g h : HostCmd} (hg : RecordHeld s c g st) (hn : g.num = h.num)
    (hr : g.ring = h.ring) : RecordHeld s c h st := by
  unfold RecordHeld at hg ⊢
  rwa [← hn, ← hr]

theorem State.modRing_records (s : State) (c r : Nat) {f : Ring → Ring}
    (hf : ∀ q, (f q).held = q.held := by intros; rfl) : s.Keeps Channel.records (s.modRing c r f) := by
  refine s.modChan_keeps c fun x => Prod.ext rfl (funext fun d => ?_)
  show (Tab.get {} (Tab.set x.rings r (f (x.ring r))) d).held = (x.ring d).held
  rw [Tab.get_set]
  split
  · subst_vars
    exact hf _
  · rfl

/-! ## A ring that stops -/

theorem State.stopRing_chans (s : State) (c r : Nat) : (s.stopRing c r).chans = s.chans :=
  (State.stopRing_moves .refl c r .refl : Moves ⟨false, [.out, .msix], [.ring, .door]⟩ s _).parts .chans (by decide)

theorem State.stopRing_stopped (s : State) (c : Ch) (r : RingId) :
    (s.stopRing c r).flag (.door c r) Reg.ringHead_STOPPED = true := by
  have door : doorPage c r = .door c r := by simp [doorPage]
  have ring : ringPage c r = .ring c r := by simp [ringPage]
  have stopped : (s.wr (.door c r) Reg.ringHead_STOPPED 1).rd (.door c r) Reg.ringHead_STOPPED = 1 :=
    State.rd_wr_same _ _ _ (by decide)
  unfold State.stopRing State.flag
  rw [door, ring]
  split
  · rw [stopped]
    decide
  · rw [State.rd_raise_page _ Page.noConfusion, stopped]
    decide

end Sys2Proof.Machine
end

section
/-!
## Dispositions (R437, R439, R440)
-/

namespace Sys2Proof.Machine

variable {s : State} {m : Master} {id : BitVec 24} {f : FaultEntry} {a : MemAccess} {h : HostCmd} {num : Nat}

/-! ## What comes before the action of a disposition -/

/-- The disposition is recorded, the fault leaves the table, and its requester is no longer stalled. -/
def State.disposed (s : State) (f : FaultEntry) (action : Nat) : State :=
  ((s.logDisposition f action).freeFault f.id).onResume f.access.req

/-- The fault has left the table. -/
theorem State.freed_moves (s : State) (f : FaultEntry) (action : Nat) :
    Moves ⟨false, [.out, .msix, .xlat, .recorder], [.hmmu, .rpl, .cmmu]⟩ s ((s.logDisposition f action).freeFault f.id) :=
  State.freeFault_moves (State.logDisposition_moves .refl f action (by decide)) f.id .refl

theorem State.disposed_moves (s : State) (f : FaultEntry) (action : Nat) :
    Moves ⟨false, [.out, .msix, .xlat, .recorder], [.hmmu, .rpl, .cmmu, .ctx, .wst, .door]⟩ s (s.disposed f action) :=
  State.onResume_moves (State.freeFault_moves (State.logDisposition_moves .refl f action (by decide)) f.id (by decide)) _
    (by decide)

theorem State.disposed_chans (s : State) (f : FaultEntry) (action : Nat) : (s.disposed f action).chans = s.chans :=
  (s.disposed_moves f action).parts .chans (by decide)

theorem State.chan_disposed (s : State) (f : FaultEntry) (action c : Nat) : (s.disposed f action).chan c = s.chan c :=
  State.chan_congr (s.disposed_chans f action) c

theorem State.dispose_fault (hr : s.reaches m .hmmu = true) (hm : mayDispose m = true) (hf : s.faultOf id = some f)
    (action : Nat) (act : FaultEntry → State → State) : s.dispose m id action act = act f (s.disposed f action) := by
  rw [State.dispose, if_pos ⟨hr, hm⟩, hf]
  rfl

theorem exec_abortCommand (hp : s.dev.powered = true) (hr : s.reaches m .hmmu = true) (hm : mayDispose m = true)
    (hf : s.faultOf id = some f) : exec (.abortCommand m id) s = .next ((s.disposed f 2).abortRequester f.access) := by
  rw [exec, execAbortCommand, live_of_powered hp, State.dispose_fault hr hm hf]

/-! ## A command ends (R437, R440) -/

theorem State.abortRequester_ends {c : Ch} (hc : EndsCommand c a.req) (hn : a.info.num = some num) :
    s.abortRequester a = s.abortCommand c num := by
  obtain ⟨req, ctx, va, write, info⟩ := a
  dsimp only at hc hn
  cases req with
  | splitRead d r | addrGen d e l | drain d e | scan d e | initRead d e | cvu d | copy d =>
    cases hc
    simp only [State.abortRequester, hn, Option.elim_some]
  | _ => cases hc

/-- A command that is aborted leaves the engines, the units and the saved contexts; then it completes. -/
theorem State.abortCommand_finish {c : Nat} (hh : (s.chan c).cmd? num = some h) : ∃ (u : State) (g : HostCmd),
    s.abortCommand c num = (u.finish c g stAborted).stateMap c ∧ g.num = h.num ∧ g.ring = h.ring := by
  unfold State.abortCommand
  rw [hh]
  exact ⟨_, _, rfl, rfl, rfl⟩

/-- A command that ABORT_COMMAND ends has its record held, with ABORTED. -/
theorem State.abortCommand_recordHeld {c : Nat} (hh : (s.chan c).cmd? num = some h) :
    RecordHeld (s.abortCommand c num) c h stAborted := by
  obtain ⟨u, g, e, hnum, hring⟩ := State.abortCommand_finish hh
  have ended : RecordHeld (u.finish c g stAborted) c h stAborted :=
    RecordHeld.of_names (u.finish_recordHeld c g (by decide)) hnum hring
  rw [e]
  exact RecordHeld.of_keeps ended ((State.stateMap_besidePages _ c).map (·.1.records))

theorem State.abortRequester_ringFetch {c : Ch} {r : RingId} (hq : a.req = .ringFetch c r) :
    ((s.abortRequester a).ringOf c r).fetching = false ∧
      (s.abortRequester a).flag (.door c r) Reg.ringHead_STOPPED = true := by
  simp only [State.abortRequester, hq]
  refine ⟨?_, State.stopRing_stopped ..⟩
  rw [State.ringOf, State.chan_congr (State.stopRing_chans ..), ← State.ringOf, State.ringOf_modRing_same]

theorem State.abortRequester_sync {c : Ch} {r : RingId} (hq : a.req = .sync c r) (hn : a.info.num = some num)
    (hh : (s.chan c).cmd? num = some h) :
    RecordHeld (s.abortRequester a) c h stAborted ∧ ((s.abortRequester a).ringOf c r).sync = .idle ∧
      (s.abortRequester a).flag (.door c r) Reg.ringHead_STOPPED = true := by
  simp only [State.abortRequester, hq, hn, Option.elim_some]
  refine ⟨?_, ?_, State.stopRing_stopped ..⟩
  · exact RecordHeld.of_keeps (State.abortCommand_recordHeld hh)
      ((State.modRing_records _ c r).trans (.of_chans (State.stopRing_chans ..)))
  · rw [State.ringOf, State.chan_congr (State.stopRing_chans ..), ← State.ringOf, State.ringOf_modRing_same]

theorem State.abortRequester_completion {c : Ch} {r : RingId} (hq : a.req = .completion c r) :
    ((s.abortRequester a).ringOf c r).parked = true ∧ ((s.abortRequester a).ringOf c r).held = (s.ringOf c r).held ∧
      (s.abortRequester a).flag (.door c r) Reg.ringHead_STOPPED = true := by
  simp only [State.abortRequester, hq]
  rw [State.ringOf, State.chan_congr (State.stopRing_chans ..), ← State.ringOf, State.ringOf_modRing_same]
  exact ⟨rfl, rfl, State.stopRing_stopped ..⟩

/-! ## A seal and a save are given up (R440) -/

/-- A stall of a seal ends without a change of the context slots. -/
theorem State.slotOfCtx_disposed {c : Ch} {e : SlotId} {k : Fin 8} (hq : f.access.req = .seal c e k) (action ctx : Nat) :
    (s.disposed f action).slotOfCtx ctx = s.slotOfCtx ctx := by
  have moves := s.freed_moves f action
  unfold State.disposed State.slotOfCtx
  rw [hq]
  simp only [State.onResume, moves.rd_eq (q := .ctx) (by decide)]

theorem State.abortRequester_seal {c : Ch} {e : SlotId} {k : Fin 8} (hq : a.req = .seal c e k)
    (hctx : (s.slotOfCtx a.ctx).isSome = true) (hs : (s.tile c e k).state = .sealing) :
    ((s.abortRequester a).tile c e k).state = .parked := by
  simp only [State.abortRequester, hq, State.abortSeal]
  rw [if_neg (by simpa using Option.isSome_iff_ne_none.mp hctx), if_pos hs, State.tile_modTile_same]

/-- A save that goes on or is paused does not become a load as its stall ends. -/
theorem State.slotState_onResume (c : Ch) (i : CtxSlotId) (h : s.slotState i = slotSaving ∨ s.slotState i = slotPaused) :
    (s.onResume (.save c i)).slotState i ≠ slotLoading := by
  simp only [State.onResume]
  split
  · rw [State.slotState, State.rd_wr_same _ _ _ (by simp [Reg.ctxSlot_STATE])]
    exact (by decide : 3 % 2 ^ 3 ≠ slotLoading)
  · obtain h | h := h <;> rw [h] <;> decide

theorem State.slotState_disposed {c : Ch} {i : CtxSlotId} (hq : f.access.req = .save c i)
    (h : s.slotState i = slotSaving ∨ s.slotState i = slotPaused) : (s.disposed f 2).slotState i ≠ slotLoading := by
  unfold State.disposed
  rw [hq]
  refine State.slotState_onResume c i ?_
  rwa [State.slotState, (s.freed_moves f 2).rd_eq (by decide)]

theorem State.abortRequester_save {c : Ch} {i : CtxSlotId} (hq : a.req = .save c i) (h : s.slotState i ≠ slotLoading) :
    (s.abortRequester a).slotState i = slotResident ∧ ((s.abortRequester a).ctxRec a.ctx).state = ctxResident := by
  simp only [State.abortRequester, hq]
  unfold State.abortSave
  rw [if_neg h]
  constructor
  · exact State.rd_wr_same _ _ _ (by simp [Reg.ctxSlot_STATE])
  · rw [State.ctxRec_modCtx, if_pos rfl]

end Sys2Proof.Machine
end

section
/-!
## The abort of a lodger fill (R368)
-/

namespace Sys2Proof.Machine

variable {s : State} {h : HostCmd} {num : Nat}

/-! ## What the placement of a channel's commands has come to -/

/-- The lodger commands of a channel, and of every command how many engine commands are placed, and of how many. -/
def Channel.progress (x : Channel) : List Nat × List (Nat × Nat × Nat) :=
  (x.lodgers, x.cmds.map fun h => (h.num, h.next, h.total))

theorem Channel.progress_fst (x : Channel) : x.progress.1 = x.lodgers := rfl

theorem State.modCmd_progress (s : State) (c n : Nat) {f : HostCmd → HostCmd}
    (hf : ∀ h, ((f h).num, (f h).next, (f h).total) = (h.num, h.next, h.total) := by intros; rfl) :
    s.Keeps Channel.progress (s.modCmd c n f) := by
  refine s.modChan_keeps c fun x => Prod.ext rfl ?_
  show List.map _ (List.map _ _) = List.map _ _
  rw [List.map_map]
  refine List.map_congr_left fun h _ => ?_
  rw [Function.comp_apply]
  split
  · exact hf h
  · rfl

theorem State.ecsDone_progress (s : State) (c : Nat) (ks : List EngCmd) (st : Nat) :
    s.Keeps Channel.progress (s.ecsDone c ks st) :=
  State.Keeps.refl.fold fun u k _ => .ite .refl (u.modCmd_progress c k.num)

theorem State.dropHeld_progress (s : State) (c : Nat) (gone : EngCmd → Bool) :
    s.Keeps Channel.progress (s.dropHeld c gone) :=
  State.Keeps.fold (s.modChan_keeps c) fun u _ _ => .ite .refl (u.modChan_keeps c)

theorem State.pastSplit_progress (s : State) (c : Nat) (h : HostCmd) : s.Keeps Channel.progress (s.pastSplit c h) :=
  (s.modCmd_progress c h.num).trans (State.modRing_keeps (fun _ _ => rfl) _ c h.ring _)

/-- A command is there where its number is. -/
theorem Channel.cmd?_of_progress {x : Channel} {p : Nat × Nat} (hx : (num, p) ∈ x.progress.2) :
    ∃ h, x.cmd? num = some h ∧ (num, h.next, h.total) ∈ x.progress.2 := by
  obtain ⟨g, hg, e⟩ := List.mem_map.mp hx
  obtain ⟨h, hh⟩ : ∃ h, x.cmd? num = some h := Option.isSome_iff_exists.mp
    (List.find?_isSome.mpr ⟨g, hg, by simpa using congrArg Prod.fst e⟩)
  have own : h.num = num := by simpa using List.find?_some hh
  exact ⟨h, hh, own ▸ List.mem_map_of_mem (List.mem_of_find?_eq_some hh)⟩

theorem Channel.progress_of_cmd? {x : Channel} (hh : x.cmd? num = some h) : (num, h.next, h.total) ∈ x.progress.2 := by
  have own : h.num = num := by simpa using List.find?_some hh
  exact own ▸ List.mem_map_of_mem (List.mem_of_find?_eq_some hh)

/-! ## The steps of the abort -/

/-- The buffer is free, and the command is a lodger command no more. -/
def State.fillFreed (s : State) (c b num : Nat) : State :=
  (s.modChan c fun y => { y with
    buffers := Tab.erase y.buffers b, lodgers := y.lodgers.filter (· ≠ num) }).wr (.wst (Fin.ofNat 4 c)) (bufFld b) 0

/-- The command's restored engine commands are let go. -/
def State.heldDropped (s : State) (c num : Nat) : State :=
  (s.ecsDone c (((s.chan c).lodgerHeld.map (·.2)).filter fun k => k.num = num) stAborted).dropHeld c fun k => k.num = num

/-- No further engine command of the command is placed: one that is ABORTED stands for them. -/
def State.placementEnded (s : State) (c num : Nat) : State :=
  s.modCmd c num fun h => { h with
    next := h.next + 1, total := h.next + 1
    ecs := h.ecs ++ [{ idx := h.next, slot := 0x7f, tile := 0, status := some stAborted }] }

/-- The abort of a fill, but for the departure of its command from the split. -/
def State.fillEnded (s : State) (c b num : Nat) : State :=
  ((s.fillFreed c b num).heldDropped c num).placementEnded c num

theorem State.heldDropped_progress (s : State) (c num : Nat) : s.Keeps Channel.progress (s.heldDropped c num) :=
  (s.ecsDone_progress c _ _).trans (State.dropHeld_progress ..)

theorem State.fillFreed_progress (s : State) (c b num : Nat) :
    ((s.fillFreed c b num).chan c).progress = ((s.chan c).lodgers.filter (· ≠ num), (s.chan c).progress.2) := by
  rw [State.fillFreed, State.chan_congr (State.wr_chans ..), State.chan_modChan, if_pos rfl]
  rfl

/-- The progress of a command that no placement goes on with. -/
def endedAt (num : Nat) (p : Nat × Nat × Nat) : Nat × Nat × Nat := if p.1 = num then (num, p.2.1 + 1, p.2.1 + 1) else p

theorem State.placementEnded_progress (s : State) (c num : Nat) : ((s.placementEnded c num).chan c).progress =
    ((s.chan c).progress.1, (s.chan c).progress.2.map (endedAt num)) := by
  rw [State.placementEnded, State.modCmd, State.chan_modChan, if_pos rfl]
  refine Prod.ext rfl ?_
  show List.map _ (List.map _ _) = List.map _ (List.map _ _)
  rw [List.map_map, List.map_map]
  refine List.map_congr_left fun h _ => ?_
  simp only [Function.comp_apply, endedAt]
  split
  · next own => rw [own]
  · rfl

theorem State.heldDropped_fillFreed_progress (s : State) (c b num : Nat) :
    (((s.fillFreed c b num).heldDropped c num).chan c).progress =
      ((s.chan c).lodgers.filter (· ≠ num), (s.chan c).progress.2) :=
  ((State.heldDropped_progress _ c num).same c).trans (s.fillFreed_progress c b num)

theorem State.fillEnded_progress (s : State) (c b num : Nat) : ((s.fillEnded c b num).chan c).progress =
    ((s.chan c).lodgers.filter (· ≠ num), (s.chan c).progress.2.map (endedAt num)) := by
  rw [State.fillEnded, State.placementEnded_progress, State.heldDropped_fillFreed_progress]

/-- Once its buffer is free, the abort of a fill changes channels alone. -/
theorem State.fillEnded_moves (s : State) (c b num : Nat) :
    Moves ⟨false, [.chans], []⟩ (s.fillFreed c b num) (s.fillEnded c b num) :=
  State.modCmd_moves (State.dropHeld_moves (State.ecsDone_moves .refl c _ _ .refl) c _ .refl) c num _ .refl

/-- The last step of the abort: a command that was being placed leaves the split. -/
theorem State.abortFill_cases {c b : Nat} (hh : (s.chan c).cmd? num = some h) :
    s.abortFill c b num = s.fillEnded c b num ∨ ∃ g, s.abortFill c b num = (s.fillEnded c b num).pastSplit c g := by
  obtain ⟨g, hg, -⟩ : ∃ g, (((s.fillFreed c b num).heldDropped c num).chan c).cmd? num = some g ∧ _ :=
    Channel.cmd?_of_progress (p := (h.next, h.total)) (by
      rw [State.heldDropped_fillFreed_progress]
      exact Channel.progress_of_cmd? hh)
  unfold State.heldDropped State.fillFreed at hg
  unfold State.abortFill
  dsimp only
  rw [hg]
  dsimp only
  split
  · exact .inl rfl
  · exact .inr ⟨g, rfl⟩

theorem State.abortFill_progress {c b : Nat} (hh : (s.chan c).cmd? num = some h) :
    ((s.abortFill c b num).chan c).progress =
      ((s.chan c).lodgers.filter (· ≠ num), (s.chan c).progress.2.map (endedAt num)) := by
  obtain e | ⟨g, e⟩ := State.abortFill_cases (b := b) hh
  · rw [e, State.fillEnded_progress]
  · rw [e, (State.pastSplit_progress _ c g).same c, State.fillEnded_progress]

theorem State.abortFill_rd {c b : Nat} (hh : (s.chan c).cmd? num = some h) (p : Page) (f : Fld) :
    (s.abortFill c b num).rd p f = (s.fillFreed c b num).rd p f := by
  have moves := s.fillEnded_moves c b num
  obtain e | ⟨g, e⟩ := State.abortFill_cases (b := b) hh
  · rw [e, moves.rd_eq (by simp)]
  · rw [e, (State.pastSplit_moves moves c g .refl).rd_eq (by simp)]

/-- What an abort of a fill makes of a lodger command: its buffer is EMPTY, and all of it that will be placed is. -/
theorem State.abortFill_shows {c : Ch} (b : Nat) (hh : (s.chan c).cmd? num = some h) :
    num ∉ ((s.abortFill c b num).chan c).lodgers ∧ (s.abortFill c b num).rd (.wst c) (bufFld b) = 0 ∧
      ∃ h', ((s.abortFill c b num).chan c).cmd? num = some h' ∧ h'.next = h'.total := by
  have progress := State.abortFill_progress (b := b) hh
  have placed : ((s.abortFill c b num).chan c).progress.2 = (s.chan c).progress.2.map (endedAt num) := by rw [progress]
  refine ⟨?_, ?_, ?_⟩
  · rw [← Channel.progress_fst, progress]
    simp
  · have narrow : (bufFld b).lo + (bufFld b).w ≤ 32 := by unfold bufFld; split <;> decide
    rw [State.abortFill_rd hh, State.fillFreed, Fin.ofNat_val_eq_self, State.rd_wr_same _ _ _ narrow, Nat.zero_mod]
  · have own : (num, h.next + 1, h.next + 1) ∈ ((s.abortFill c b num).chan c).progress.2 := by
      rw [placed]
      exact List.mem_map.mpr ⟨_, Channel.progress_of_cmd? hh, if_pos rfl⟩
    obtain ⟨g, hg, last⟩ := Channel.cmd?_of_progress own
    refine ⟨g, hg, ?_⟩
    rw [placed] at last
    obtain ⟨p, -, e⟩ := List.mem_map.mp last
    unfold endedAt at e
    split at e
    · simp only [Prod.mk.injEq] at e
      omega
    · next other => exact absurd (congrArg Prod.fst e) other

/-- ABORT_COMMAND of a fill that does not serve a repeated command. -/
theorem State.abortRequester_lodger {a : MemAccess} {c : Ch} {b : Fin 2} (hq : a.req = .lodger c b)
    (hn : a.info.num = some num) (hh : (s.chan c).cmd? num = some h)
    (again : ((s.chan c).anyCmd fun _ k => k.num = num && k.refetch) = false) :
    num ∉ ((s.abortRequester a).chan c).lodgers ∧ (s.abortRequester a).rd (.wst c) (bufFld b) = 0 ∧
      ∃ h', ((s.abortRequester a).chan c).cmd? num = some h' ∧ h'.next = h'.total := by
  simp only [State.abortRequester, hq, hn, Option.elim_some, again, Bool.false_eq_true, if_false]
  exact State.abortFill_shows b hh

end Sys2Proof.Machine
end

section
/-!
## The faults of a context that is reset (R442)
-/

namespace Sys2Proof.Machine

variable {s t : State} {p : MemAccess → Bool}

/-- No fault of certain accesses waits for an entry of the table. -/
def State.NoneWaits (s : State) (p : MemAccess → Bool) : Prop := ∀ f ∈ s.xlat.overflow, p f.access = false

theorem State.enterFault_cases (s : State) (f : FaultEntry) :
    ((s.enterFault f).xlat.faults = s.xlat.faults ++ [{ f with id := s.xlat.nextId }] ∧
      (s.enterFault f).xlat.overflow = s.xlat.overflow) ∨
    ((s.enterFault f).xlat.faults = s.xlat.faults ∧ (s.enterFault f).xlat.overflow = s.xlat.overflow ++ [f]) := by
  unfold State.enterFault
  dsimp only
  split
  · left
    split
    · split <;> simp
    · split <;> simp [*]
  · right
    simp

/-- Nothing of certain accesses comes into the table as a fault leaves it, and none that is left has its number. -/
theorem State.freeFault_leaves (h : s.NoneWaits p) (id : Nat) : (s.freeFault id).NoneWaits p ∧
    ∀ g ∈ (s.freeFault id).xlat.faults, p g.access = true → g ∈ s.xlat.faults ∧ g.id ≠ id := by
  unfold State.freeFault
  extract_lets left
  have leaves : ∀ g ∈ left.xlat.faults, g ∈ s.xlat.faults ∧ g.id ≠ id := fun g hg => by
    simpa using List.mem_filter.mp hg
  have waits : left.NoneWaits p := h
  split
  · next f rest e =>
    have first : p f.access = false := waits f (e ▸ List.mem_cons_self)
    have others : (left.modXlat fun x => { x with overflow := rest }).NoneWaits p :=
      fun g hg => waits g (e ▸ List.mem_cons_of_mem _ hg)
    obtain ⟨faults, overflow⟩ | ⟨faults, overflow⟩ :=
      (left.modXlat fun x => { x with overflow := rest }).enterFault_cases f
    · refine ⟨fun g hg => others g (overflow ▸ hg), fun g hg own => ?_⟩
      rw [faults, List.mem_append, List.mem_singleton] at hg
      obtain hg | rfl := hg
      · exact leaves g hg
      · exact absurd (own.symm.trans first) Bool.noConfusion
    · refine ⟨fun g hg => ?_, fun g hg _ => leaves g (faults ▸ hg)⟩
      rw [overflow, List.mem_append, List.mem_singleton] at hg
      obtain hg | rfl := hg
      · exact others g hg
      · exact first
  · exact ⟨waits, fun g hg _ => leaves g hg⟩

/-- Faults that leave the table one after the other. -/
theorem State.freeFaults_leave (l : List FaultEntry) (h : s.NoneWaits p)
    (hl : ∀ g ∈ s.xlat.faults, p g.access = true → ∃ f ∈ l, g.id = f.id) :
    ∀ g ∈ (l.foldl (fun s f => s.freeFault f.id) s).xlat.faults, p g.access = false := by
  induction l generalizing s with
  | nil =>
    intro g hg
    rw [← Bool.not_eq_true]
    intro own
    obtain ⟨f, hf, -⟩ := hl g hg own
    cases hf
  | cons f l ih =>
    obtain ⟨waits, leaves⟩ := State.freeFault_leaves h f.id
    refine ih waits fun g hg own => ?_
    obtain ⟨old, other⟩ := leaves g hg own
    obtain ⟨e, he, same⟩ := hl g old own
    obtain rfl | he := List.mem_cons.mp he
    · exact absurd same other
    · exact ⟨e, he, same⟩

/-- No fault of an access that is forgotten stays in the table. -/
theorem State.forgetAccesses_faults (s : State) (p : MemAccess → Bool) :
    ∀ g ∈ (s.forgetAccesses p).xlat.faults, p g.access = false := by
  unfold State.forgetAccesses
  refine State.freeFaults_leave _ (fun f hf => ?_) fun g hg own => ⟨g, List.mem_filter.mpr ⟨hg, own⟩, rfl⟩
  simpa using (List.mem_filter.mp hf).2

theorem State.dropSaved_xlat (s : State) (n : Nat) : (s.dropSaved n).xlat = s.xlat := rfl

theorem State.markAway_xlat (s : State) (n : Nat) : (s.markAway n).xlat = s.xlat := rfl

theorem State.forgetContext_faults (s : State) (n : Nat) :
    (s.forgetContext n).xlat.faults = (s.forgetAccesses fun a => a.ctx = n).xlat.faults := by
  unfold State.forgetContext
  exact foldl_keeps (P := fun u : State => u.xlat.faults = (s.forgetAccesses fun a => a.ctx = n).xlat.faults)
    (f := fun s k => s.modCache k fun x => x.drop fun t => t.ctx = n) (fun _ _ _ hu => hu) rfl

theorem Moves.xlat {σ : Scope} (h : Moves σ s t) (hx : .xlat ∉ σ.parts) : t.xlat = s.xlat := h.parts .xlat hx

/-- The faults of a context are resolved in its reset. -/
theorem State.resetContext_faults (s : State) (n : Nat) : ∀ g ∈ (s.resetContext n).xlat.faults, g.access.ctx ≠ n := by
  intro g hg
  rw [(s.resetContext_tail_moves n).xlat (by decide), State.forgetSaved, State.dropSaved_xlat, State.forgetContext_faults] at hg
  simpa using State.forgetAccesses_faults _ _ g hg

theorem State.resetRecord_faults (s : State) (n : Nat) : ∀ g ∈ (s.resetRecord n).xlat.faults, g.access.ctx ≠ n := by
  have slot (u : State) : (u.resetSlot n).xlat = u.xlat :=
    (State.resetSlot_moves .refl n .refl : Moves ⟨false, _, _⟩ u _).xlat (by decide)
  intro g hg
  rw [State.resetRecord_eq, slot, State.markAway_xlat] at hg
  exact s.resetContext_faults n g hg

end Sys2Proof.Machine
end

section
/-!
## ABORT_COMMAND and ABORT_CONTEXT (R368, R437, R440, R442)
-/

namespace Sys2Proof.Machine

variable {s : State} {m : Master} {id : BitVec 24} {f : FaultEntry}

/-- The faulting context is reset; where a log's write faulted, every log stops (R440, R631). -/
def State.resetByFault (s : State) (a : MemAccess) : State :=
  match a.req with
  | .recorder _ => (s.resetRecord a.ctx).stopLogs
  | _ => s.resetRecord a.ctx

theorem exec_abortContext (hp : s.dev.powered = true) (hr : s.reaches m .hmmu = true) (hm : mayDispose m = true)
    (hf : s.faultOf id = some f) (hctx : (s.ctxRec f.access.ctx).state ≠ ctxNone) :
    exec (.abortContext m id) s = .next ((s.disposed f 3).resetByFault f.access) := by
  have admitted : ((s.disposed f 3).ctxRec f.access.ctx).state ≠ ctxNone := by
    rwa [State.ctxRec_congr ((s.disposed_moves f 3).ctxs (by decide))]
  rw [exec, execAbortContext, live_of_powered hp, State.dispose_fault hr hm hf]
  dsimp only
  rw [if_neg admitted]
  rfl

/-- What follows the reset of the context stops logs, and changes nothing else. -/
theorem State.resetByFault_moves (s : State) (a : MemAccess) :
    Moves ⟨false, [.recorder], [.rpl]⟩ (s.resetRecord a.ctx) (s.resetByFault a) := by
  unfold State.resetByFault
  split
  · exact State.stopLogs_moves .refl .refl
  · exact .refl

/-- Settles O28: ABORT_COMMAND does by requester what the rule names, and ABORT_CONTEXT is the reset of the faulting
context, which forgets its accesses. -/
theorem aborts : Obligations.Aborts := by
  intro m id s f hp hr hm hf
  refine ⟨⟨_, exec_abortCommand hp hr hm hf, ?_, ?_, ?_, ?_, ?_, ?_, ?_⟩, fun hctx => ?_⟩
  · intro c h num ends hn hh
    rw [State.abortRequester_ends ends hn]
    exact State.abortCommand_recordHeld (by rwa [State.chan_disposed])
  · intro c r hq
    exact State.abortRequester_ringFetch hq
  · intro c r h num hq hn hh
    exact State.abortRequester_sync hq hn (by rwa [State.chan_disposed])
  · intro c r hq
    have ring : s.ringOf c r = (s.disposed f 2).ringOf c r := by rw [State.ringOf, State.ringOf, State.chan_disposed]
    rw [ring]
    exact State.abortRequester_completion hq
  · intro c e k hq hctx hs
    refine State.abortRequester_seal hq ?_ ?_
    · rwa [State.slotOfCtx_disposed hq]
    · rwa [State.tile, State.engine, State.chan_disposed]
  · intro c b num h hq hn hh again
    exact State.abortRequester_lodger hq hn (by rwa [State.chan_disposed]) (by rwa [State.chan_disposed])
  · intro c i hq hs
    exact State.abortRequester_save hq (State.slotState_disposed hq hs)
  · have reset := resetOf_resetRecord (s.disposed f 3) f.access.ctx
    obtain ⟨away, image⟩ := (s.disposed f 3).ctxRec_resetRecord f.access.ctx
    have moves := (s.disposed f 3).resetByFault_moves f.access
    refine ⟨_, exec_abortContext hp hr hm hf hctx, ?_, ?_, fun k hk hs => ?_, ?_⟩
    · rw [State.ctxRec_congr (moves.ctxs (by decide)), away]
    · rw [State.ctxRec_congr (moves.ctxs (by decide)), image]
    · have before := (s.disposed_moves f 3).stream (by decide) k
      rw [moves.stream (by decide)]
      exact reset.own k (before ▸ hk) (before ▸ hs)
    · rw [moves.parts .xlat (by decide)]
      exact State.resetRecord_faults _ _

end Sys2Proof.Machine
end

section
/-!
## A ring that holds less than a whole command (R360, R384)

The model puts such a ring aside in the state from before its first descriptor was read, so the bytes of that read are
missing from the counters of the stack it was read from.
-/

namespace Sys2Proof.Machine

variable {s u : State} {c : Ch} {r : RingId} {ext : List Byte} {o : ReadOut} {d : Nat}

/-- The fetcher waits for the entry at a ring's HEAD, and the ring may still be fetched. -/
structure State.AtFetch (s : State) (c : Ch) (r : RingId) : Prop where
  powered : s.dev.powered = true
  map : s.mapRuns c = true
  live : s.replayOn c = false
  fetching : (s.ringOf c r).fetching = true
  free : s.stalled (.ringFetch c r) = false
  allowed : s.mayFetch c r = true

/-- The read of the first descriptor of the command at HEAD. -/
def State.firstEntry (s : State) (c : Ch) (r : RingId) (ext : List Byte) : State × ReadOut × List Nat :=
  readEntries (s.fetchAccess c r) [s.entryVa c r (s.rd (.door c r) Reg.ringHead_HEAD)] s ext

/-- The entries of a ring between HEAD and the tail that the channel has seen. -/
def State.entriesHeld (s : State) (c : Ch) (r : RingId) : Nat :=
  ringSpan (s.ringSize c r) (s.rd (.door c r) Reg.ringHead_HEAD) (s.ringOf c r).tailSeen

theorem exec_descriptorReadReturn_short (h : s.AtFetch c r) (hread : s.firstEntry c r ext = (u, o, [d]))
    (hdone : o.done = true) (hshort : s.entriesHeld c r < 1 + bitsOf d 8 2) :
    exec (.descriptorReadReturn c r ext) s = .next (s.skipRing c r) := by
  obtain ⟨hp, hm, hrep, hf, hs, ha⟩ := h
  unfold State.firstEntry at hread
  unfold State.entriesHeld at hshort
  rw [exec, execDescriptorReadReturn, live_of_powered hp]
  simp [hm, hrep, hf, hs, ha, State.fetchCommand, hread, hdone, hshort]

/-- What the rule asks of a ring that is skipped comes, in the model, to a read that changes no register. -/
theorem regs_eq_of_fetcherTakesWholeCommands (rule : Rules.FetcherTakesWholeCommands) (h : s.AtFetch c r)
    (hread : s.firstEntry c r ext = (u, o, [d])) (hdone : o.done = true) (hshort : s.entriesHeld c r < 1 + bitsOf d 8 2) :
    s.regs = u.regs := by
  obtain ⟨t, ran, skipped, -⟩ := (rule c s h.powered h.map h.live).2 r ext u o d h.fetching h.free h.allowed hread hdone
  obtain rfl := Host.Outcome.next.inj ((exec_descriptorReadReturn_short h hread hdone hshort).symm.trans ran)
  obtain ⟨-, -, kept⟩ := skipped (.inl hshort)
  exact kept

/-- Channel 0 runs, context 1 is resident and has the first 2³⁰ bytes in the stack of channel 0. Ring 15 is bound to it and
is being fetched: it holds its entry 0, the first descriptor of a command of two entries, and no more. -/
def shortRing : State :=
  let card := ((State.reset.modDev fun d => { d with mainRuns := true }).wr .clk (Reg.clkArith_LOCKED 0) 1).setBlk (.grm 0)
    blkOn
  let resident := (card.wr .ctx (Reg.ctxSlot_STATE 7) slotResident).wr .ctx (Reg.ctxSlot_CTX 7) 1
  let page : Xlat := { ctx := 1, va := 0, size := 30, target := .hbm 0, addr := 0, w := true, pinned := false }
  let bound := ((resident.modCache (.cmmu 0) fun x => x.insert (.cmmu 0) page).setBlk (.ring 0 15) blkOn).wr (.ring 0 15)
    Reg.ringCtl_CTX 1
  (bound.modRing 0 15 fun q => { q with tailSeen := 1, fetching := true }).modChan 0 fun x => { x with
    hbm := x.hbm.put 0 (leBytes 64 (opMatmul + 2 ^ 8)) }

theorem shortRing_atFetch : shortRing.AtFetch 0 15 := by
  constructor <;> decide +kernel

/-- The read is done at once; the ring holds less than its command, and the 64 bytes are counted in the stack's page. -/
theorem shortRing_read : ((shortRing.firstEntry 0 15 []).2.1.done = true ∧
    (shortRing.firstEntry 0 15 []).2.2 = [opMatmul + 2 ^ 8]) ∧
    shortRing.entriesHeld 0 15 < 1 + bitsOf (opMatmul + 2 ^ 8) 8 2 ∧
    (shortRing.firstEntry 0 15 []).1.rd (.hbmc 0) (Reg.hbmcBytes_BYTES hbmData) = 64 ∧
    shortRing.rd (.hbmc 0) (Reg.hbmcBytes_BYTES hbmData) = 0 := by decide +kernel

/-- Refutes O29: ring 15 of channel 0 holds one entry of a command of two and is skipped, and with that the 64 bytes that
the read of the entry has counted in HBMC_BYTES (R360) are gone from the registers. -/
theorem not_ringsAndFetcher : ¬ Obligations.RingsAndFetcher := by
  intro h
  obtain ⟨⟨done, entry⟩, short, counted, before⟩ := shortRing_read
  generalize read : shortRing.firstEntry 0 15 [] = entryRead at done entry counted
  obtain ⟨u, o, ds⟩ := entryRead
  obtain rfl : ds = [opMatmul + 2 ^ 8] := entry
  have kept : shortRing.regs = u.regs := regs_eq_of_fetcherTakesWholeCommands h.2 shortRing_atFetch read done short
  rw [← State.rd_congr kept, before] at counted
  exact absurd counted (by decide)

end Sys2Proof.Machine
end

section
/-!
## What the synchronisation of a ring stands at (R410 to R413)
-/

namespace Sys2Proof.Machine

variable {s t : State}

/-- What the synchronising command at the head of each ring stands at. -/
def Channel.syncs (x : Channel) (r : Nat) : Sync := (x.ring r).sync

theorem State.modRing_syncs (s : State) (c r : Nat) {f : Ring → Ring}
    (hf : ∀ q, (f q).sync = q.sync := by intros; rfl) : s.Keeps Channel.syncs (s.modRing c r f) := by
  refine s.modChan_keeps c fun x => funext fun d => ?_
  show (Tab.get {} (Tab.set x.rings r (f (x.ring r))) d).sync = (x.ring d).sync
  rw [Tab.get_set]
  split
  · subst_vars
    exact hf _
  · rfl

theorem State.pastSplit_syncs (s : State) (c : Nat) (h : HostCmd) : s.Keeps Channel.syncs (s.pastSplit c h) :=
  (State.modCmd_keeps (fun _ _ => rfl) s c _ _).trans (State.modRing_syncs _ c _)

theorem State.dropCmd_syncs (s : State) (c : Nat) (h : HostCmd) (st : Nat) : s.Keeps Channel.syncs (s.dropCmd c h st) := by
  unfold State.dropCmd
  extract_lets matched past
  have same : s.Keeps Channel.syncs matched := .ite (.of_chans (State.matchCpl_chans ..)) .refl
  have left : s.Keeps Channel.syncs past := .ite same (same.trans (State.pastSplit_syncs ..))
  exact (left.trans (.of_chans (State.logTo_chans ..))).trans (State.modChan_keeps _ c)

theorem State.report_syncs (s : State) (c : Nat) (h : HostCmd) (st : Nat) : s.Keeps Channel.syncs (s.report c h st) :=
  .ite ((s.modRing_syncs c _).trans (.of_chans (State.showFull_chans ..)))
    (.ite (.of_chans (State.sendVector_chans ..)) .refl)

/-- A completion changes no ring's synchronisation. -/
theorem State.finish_syncs (s : State) (c : Nat) (h : HostCmd) (st : Nat) : s.Keeps Channel.syncs (s.finish c h st) :=
  (((s.dropCmd_syncs c h st).trans (.of_chans (State.signalStep_chans ..))).trans (State.report_syncs ..)).trans
    ((State.finish_besidePages s c h st).map (·.1.syncs))

/-- The synchronising command of a ring completes as the ring's synchronisation changes. -/
theorem State.finish_modRing_sync (s : State) (c r : Nat) (f : Ring → Ring) (h : HostCmd) (st : Nat) :
    (((s.modRing c r f).finish c h st).ringOf c r).sync = (f (s.ringOf c r)).sync := by
  have same : (((s.modRing c r f).finish c h st).chan c).syncs r = ((s.modRing c r f).chan c).syncs r :=
    congrFun ((State.finish_syncs _ c h st).same c) r
  exact same.trans (congrArg Ring.sync (s.ringOf_modRing_same c r f))

end Sys2Proof.Machine
end

section
/-!
## FENCE, SIGNAL and WAIT at the head of their ring (R410 to R412, R485)
-/

namespace Sys2Proof.Machine

variable {s u : State} {c : Ch} {r : RingId} {op : Nat} {g h : HostCmd}

theorem State.signalHeld_congr {t : State} (hd : t.dlm = s.dlm) (hs : t.streams = s.streams) (c : Nat) (h : HostCmd) :
    t.signalHeld c h = s.signalHeld c h := by
  unfold State.signalHeld State.dlmRec State.stream
  rw [hd, hs]

/-- As a step begins, the monitor has diverted none, so what holds a SIGNAL stays as it is. -/
theorem State.signalHeld_stepBegin (s : State) (c : Nat) (h : HostCmd) :
    (s.stepBegin c h).signalHeld c h = s.signalHeld c h := by
  unfold State.stepBegin
  split
  · rfl
  · next n hn =>
    obtain rfl : hdStream h.descs = n := by
      simp only [State.dlmOf, Option.ite_none_right_eq_some, Option.some.injEq] at hn
      exact hn.2
    extract_lets d
    split
    · rfl
    · next idle =>
      have out : (s.dlmRec (hdStream h.descs)).instep = false := by simp_all [d]
      have after : ∀ f : DlmRec → DlmRec, (s.modDlm (hdStream h.descs) f).dlmRec (hdStream h.descs) =
          f (s.dlmRec (hdStream h.descs)) := fun f => by simp [State.dlmRec, State.modDlm]
      simp [State.signalHeld, after, out]

/-- A command that has reached the head of its ring (R410). -/
def HostCmd.arrived (h : HostCmd) (now : Nat) : HostCmd := { h with stage := .splitting, since := now }

/-- A synchronising command reaches the head of its ring (R410). -/
def State.reachHead (s : State) (c : Ch) (h : HostCmd) : State :=
  let g := h.arrived (s.cyc (domArith c))
  ((s.modCmd c h.num fun _ => g).stepBegin c g).active (hdCtx h.descs)

theorem State.reachHead_chans (s : State) (c : Ch) (h : HostCmd) :
    (s.reachHead c h).chans = (s.modCmd c h.num fun _ => h.arrived (s.cyc (domArith c))).chans :=
  (State.active_chans ..).trans (State.stepBegin_chans ..)

theorem State.reachHead_signalHeld (s : State) (c : Ch) (h : HostCmd) :
    (s.reachHead c h).signalHeld c (h.arrived (s.cyc (domArith c))) = s.signalHeld c h := by
  have moves (t : State) : Moves ⟨false, [], [.ctx]⟩ t (t.active (hdCtx h.descs)) := State.active_moves .refl _ .refl
  unfold State.reachHead
  dsimp only
  rw [State.signalHeld_congr ((moves _).parts .dlm (by decide)) ((moves _).parts .streams (by decide)),
    State.signalHeld_stepBegin]
  rfl

/-- No other command comes to be ahead of one that reaches the head. -/
theorem State.reachHead_ahead (s : State) (c : Ch) (h : HostCmd) :
    ((s.reachHead c h).chan c).ahead (h.arrived (s.cyc (domArith c))) = (s.chan c).ahead h := by
  rw [Channel.ahead, State.chan_congr (s.reachHead_chans c h), State.chan_modCmd_same, List.any_map, Channel.ahead]
  congr 1
  funext k
  rw [Function.comp_apply]
  split
  · next own => simp [HostCmd.arrived, own]
  · rfl

/-- A synchronising command acts as `g` in the state `u`, where it stands at the head of its ring. -/
structure State.Acts (s : State) (c : Ch) (r : RingId) (h g : HostCmd) (u : State) : Prop where
  num : g.num = h.num
  stage : g.stage = .splitting
  mem : g ∈ (u.chan c).cmds
  ahead : (u.chan c).ahead g = (s.chan c).ahead h
  held : u.signalHeld c g = s.signalHeld c h
  ring : u.ringOf c r = s.ringOf c r
  since : h.stage = .queued → g.since = s.cyc (domArith c)

theorem State.acts_reachHead (hh : (s.chan c).head? r = some h) :
    s.Acts c r h (h.arrived (s.cyc (domArith c))) (s.reachHead c h) where
  num := rfl
  stage := rfl
  mem := by
    rw [State.chan_congr (s.reachHead_chans c h)]
    exact State.mem_modCmd (Channel.mem_of_head? hh) _
  ahead := s.reachHead_ahead c h
  held := s.reachHead_signalHeld c h
  ring := by
    rw [State.ringOf, State.chan_congr (s.reachHead_chans c h), State.modCmd, State.chan_modChan, if_pos rfl]
    rfl
  since _ := rfl

theorem State.acts_self (hh : (s.chan c).head? r = some h) (hst : h.stage = .splitting) : s.Acts c r h h s :=
  ⟨rfl, hst, Channel.mem_of_head? hh, rfl, rfl, rfl, fun hq => nomatch hst.symm.trans hq⟩

theorem State.splitHead_eq (hh : (s.chan c).head? r = some h) (hs : s.splits c r = true) (hm : s.mayRecord c = true)
    (act : HostCmd → State) : s.splitHead c r (hdOp h.descs) act = act h := by
  simp [State.splitHead, hh, hs, hm]

/-- A synchronising command acts at once where it is at the head already, or as it passes its checks. -/
theorem syncHead_of_atHead (at' : AtHead s c r op h) :
    ∃ g u, s.Acts c r h g u ∧ ∀ act, s.syncHead c r op act = act g u := by
  obtain ⟨hh, rfl, hs, hm, hst | ⟨hq, hd, hv⟩⟩ := at'
  · refine ⟨h, s, State.acts_self hh hst, fun act => ?_⟩
    rw [State.syncHead, State.splitHead_eq hh hs hm, if_neg (by simp [hst])]
  · refine ⟨_, _, State.acts_reachHead hh, fun act => ?_⟩
    rw [State.syncHead, State.splitHead_eq hh hs hm, if_pos hq, State.check_accept hd hv]
    rfl

theorem synchronisingCommands : Rules.SynchronisingCommands := by
  intro c r s h hp
  refine ⟨fun at' => ?_, fun at' => ?_, fun at' idle => ?_⟩
  · obtain ⟨g, u, acts, run⟩ := syncHead_of_atHead at'
    refine ⟨_, by rw [exec, execFence, live_of_powered hp, run], fun first => ?_, fun behind => ?_⟩
    · rw [acts.ahead, first, ← acts.num]
      exact u.finish_gone c g stOk
    · rw [acts.ahead, behind]
      exact ⟨g, acts.mem, acts.num, acts.stage⟩
  · obtain ⟨g, u, acts, run⟩ := syncHead_of_atHead at'
    refine ⟨_, by rw [exec, execSignal, live_of_powered hp, run], fun first free => ?_, fun waits => ?_⟩
    · rw [acts.ahead, acts.held, if_neg (by simp [first, free])]
      exact congrArg Ring.sync (u.ringOf_modRing_same c r _)
    · rw [acts.ahead, acts.held, if_pos (by simpa using waits), acts.ring]
  · obtain ⟨g, u, acts, run⟩ := syncHead_of_atHead at'
    refine ⟨_, by rw [exec, execWait, live_of_powered hp, run], ?_, fun hq => ?_⟩
    · rw [State.ringOf_modRing_same, acts.ring, if_pos idle]
    · rw [State.modRing, State.chan_modChan, if_pos rfl]
      exact ⟨g, acts.mem, acts.num, acts.since hq⟩

end Sys2Proof.Machine
end

section
/-!
## The write of a SIGNAL (R411)
-/

namespace Sys2Proof.Machine

variable {s u : State} {c : Ch} {r : RingId} {h : HostCmd} {tg : Target} {addr : Nat}

/-- Stores that stay are read as before. -/
theorem State.mem_of_sameStores {t : State} (h : s.sameStores t) (tg : Target) : t.mem tg = s.mem tg := by
  cases tg with
  | hbm c => exact (h c).2.2
  | ast c => exact (h c).2.1
  | host => rfl

theorem State.mem_modMem (s : State) (htg : tg ≠ .host) (f : Memory → Memory) :
    (s.modMem tg f).mem tg = f (s.mem tg) := by
  cases tg with
  | hbm c | ast c => simp [State.mem, State.modMem]
  | host => exact absurd rfl htg

/-- Bytes that are counted change no store. -/
theorem State.countHbm_mem (s : State) (d : Option Ch) (tg : Target) (cls n : Nat) (st : Target) :
    (s.countHbm d tg cls n).mem st = s.mem st := by
  cases st with
  | host => rfl
  | hbm e | ast e => rw [State.mem, State.chan_congr (State.countHbm_chans ..), State.mem]

/-- WAITs that are to read their word again change the rings alone. -/
theorem State.rereads_moves_chans (s : State) (c : Ch) (word : Target × Nat) :
    Moves ⟨false, [.chans], []⟩ s (s.rereads c word) := State.rereads_moves .refl c word .refl

theorem State.rereads_sameStores (s : State) (c : Ch) (word : Target × Nat) : s.sameStores (s.rereads c word) :=
  (s.rereads_moves_chans c word).sameStores rfl

theorem State.rereads_out (s : State) (c : Ch) (word : Target × Nat) : (s.rereads c word).out = s.out :=
  (s.rereads_moves_chans c word).parts .out (by decide)

/-- A ring's synchronising command completes, and the ring waits for nothing. -/
def State.syncEnds (s : State) (c : Ch) (r : RingId) (h : HostCmd) (st : Nat) : State :=
  (s.modRing c r fun q => { q with sync := .idle }).finish c h st

theorem State.syncEnds_idle (s : State) (c : Ch) (r : RingId) (h : HostCmd) (st : Nat) :
    ((s.syncEnds c r h st).ringOf c r).sync = .idle := s.finish_modRing_sync c r _ h st

theorem State.syncEnds_moves (s : State) (c : Ch) (r : RingId) (h : HostCmd) (st : Nat) :
    Moves ⟨false, [.out, .msix, .dlm, .streams, .recorder, .chans], [.dlm, .rpl, .ring, .door]⟩ s
      (s.syncEnds c r h st) :=
  State.finish_moves (State.modRing_moves .refl c r _ (by decide)) c h st .refl

theorem State.syncEnds_sameStores (s : State) (c : Ch) (r : RingId) (h : HostCmd) (st : Nat) :
    s.sameStores (s.syncEnds c r h st) := (s.syncEnds_moves c r h st).sameStores rfl

/-! ## SIGNAL_WRITE_ACCEPTED -/

/-- The value of a SIGNAL, or its sum with the word, is put into a store. -/
def State.signalPut (s : State) (c : Ch) (h : HostCmd) (tg : Target) (addr : Nat) : State :=
  let add : Bool := hd h.descs 176 1 = 1
  let old := if add then leNat ((s.mem tg).readBytes addr 8) else 0
  let counted := if add then s.countHbm (some c) tg hbmData 8 else s
  (counted.countHbm (some c) tg hbmData 8).modMem tg fun m => m.put addr (leBytes 8 (old + hd h.descs 192 64))

/-- A SIGNAL is written where translation leads, and the WAITs on its word read it again; a sum in host memory is not
formed. -/
def State.signalWrite (s : State) (c : Ch) (h : HostCmd) (tg : Target) (addr : Nat) : State :=
  if tg = .host then
    if hd h.descs 176 1 = 1 then s
    else (s.emit (.hostWrite addr (leBytes 8 (hd h.descs 192 64)))).rereads c (.host, addr)
  else (s.signalPut c h tg addr).rereads c (tg, addr)

/-- The status with which a SIGNAL completes. -/
def signalStatus (h : HostCmd) (tg : Target) : Nat := if tg = .host ∧ hd h.descs 176 1 = 1 then stBadArg else stOk

/-- A SIGNAL has been issued, and its write may be accepted. -/
structure State.AtSignal (s : State) (c : Ch) (r : RingId) (h : HostCmd) : Prop where
  powered : s.dev.powered = true
  syncing : s.syncing c r = some h
  issued : (s.ringOf c r).sync = .signalling
  free : s.stalled (.sync c r) = false
  recording : s.mayRecord c = true

theorem exec_signalWriteAccepted (at' : s.AtSignal c r h) (hreach : s.reach (syncAccess c r h true) = (u, some (tg, addr))) :
    exec (.signalWriteAccepted c r) s = .next ((u.signalWrite c h tg addr).syncEnds c r h (signalStatus h tg)) := by
  obtain ⟨hp, hh, hi, hf, hm⟩ := at'
  rw [exec, execSignalWriteAccepted, live_of_powered hp, hh, hi]
  cases tg with
  | host =>
    by_cases add : hd h.descs 176 1 = 1 <;> simp [hf, hm, hreach, add, State.signalWrite, State.syncEnds, signalStatus]
  | hbm d | ast d => simp [hf, hm, hreach, State.signalWrite, State.signalPut, State.syncEnds, signalStatus]

theorem State.signalPut_mem (s : State) (c : Ch) (h : HostCmd) (addr : Nat) (htg : tg ≠ .host) :
    (s.signalPut c h tg addr).mem tg = (s.mem tg).put addr (leBytes 8 ((if hd h.descs 176 1 = 1 then
        leNat ((s.mem tg).readBytes addr 8) else 0) + hd h.descs 192 64)) := by
  unfold State.signalPut
  extract_lets add old counted
  have before : counted.mem tg = s.mem tg := by
    unfold counted
    split
    · exact s.countHbm_mem ..
    · rfl
  rw [State.mem_modMem _ htg, State.countHbm_mem, before]
  simp [old, add]

theorem State.signalWrite_host (s : State) (c : Ch) (h : HostCmd) (addr : Nat) (set : hd h.descs 176 1 = 0) :
    s.signalWrite c h .host addr = (s.emit (.hostWrite addr (leBytes 8 (hd h.descs 192 64)))).rereads c (.host, addr) := by
  rw [State.signalWrite, if_pos rfl, if_neg (by simp [set])]

/-- A SIGNAL to host memory leaves the stores of the card. -/
theorem State.signalWrite_host_sameStores (s : State) (c : Ch) (h : HostCmd) (addr : Nat) :
    s.sameStores (s.signalWrite c h .host addr) := by
  have emitted (o : Output) : s.sameStores (s.emit o) := fun _ => ⟨rfl, rfl, rfl⟩
  unfold State.signalWrite
  rw [if_pos rfl]
  split
  · exact fun _ => ⟨rfl, rfl, rfl⟩
  · exact (emitted _).trans (State.rereads_sameStores _ _ _)

theorem signalWrites : Rules.SignalWrites := by
  intro c r s u h tg addr hp hh hi hf hm hreach
  have ended := (u.signalWrite c h tg addr).syncEnds_moves c r h (signalStatus h tg)
  have stores := (u.signalWrite c h tg addr).syncEnds_sameStores c r h (signalStatus h tg)
  refine ⟨_, exec_signalWriteAccepted ⟨hp, hh, hi, hf, hm⟩ hreach, State.syncEnds_idle .., State.finish_gone ..,
    ?_, ?_, fun htg => ?_⟩
  · rintro rfl add
    have refused : signalStatus h .host = stBadArg := if_pos ⟨rfl, add⟩
    refine ⟨?_, (u.signalWrite_host_sameStores c h addr).trans stores⟩
    rw [refused]
    exact State.finish_recordHeld _ c h (by decide)
  · rintro rfl set
    refine ⟨ended.out.subset ?_, (u.signalWrite_host_sameStores c h addr).trans stores⟩
    rw [u.signalWrite_host c h addr set, State.rereads_out]
    exact List.mem_append_right _ (List.mem_singleton_self _)
  · rw [State.mem_of_sameStores stores, State.signalWrite, if_neg htg,
      State.mem_of_sameStores (State.rereads_sameStores _ _ _), u.signalPut_mem c h addr htg]

end Sys2Proof.Machine
end

section
/-!
## The reads of a WAIT (R412, R413)

The word that a WAIT reads is kept with its ring as translation has reached it, so that a SIGNAL on the same word lets the
WAIT read it again (the model's choice, log entry 72).
-/

namespace Sys2Proof.Machine

variable {s u v : State} {c : Ch} {r : RingId} {h : HostCmd} {b : Bool} {ext : List Byte} {o : ReadOut}
  {word : Target × Nat}

theorem exec_waitPollExpiry (hp : s.dev.powered = true) (hw : s.waitingAt c r = some (h, false)) :
    exec (.waitPollExpiry c r) s = .next (s.modRing c r fun q => { q with sync := .waiting true }) := by
  rw [exec, execWaitPollExpiry, live_of_powered hp, hw]

/-- The word of a WAIT meets its operand. -/
def HostCmd.met (h : HostCmd) (value : Nat) : Bool :=
  if hd h.descs 176 1 = 1 then value = hd h.descs 192 64 else hd h.descs 192 64 ≤ value

theorem HostCmd.met_iff (h : HostCmd) (value : Nat) : h.met value = true ↔
    if hd h.descs 176 1 = 1 then value = hd h.descs 192 64 else hd h.descs 192 64 ≤ value := by
  unfold HostCmd.met
  split <;> exact decide_eq_true_iff

/-- What WAIT_READ_RETURN makes of the state in which its word has been read. -/
def State.waitRead (s : State) (c : Ch) (r : RingId) (h : HostCmd) (word : Target × Nat) (value : Nat) : State :=
  if h.met value then (s.modRing c r fun q => { q with sync := .idle, word := none }).finish c h stOk
  else s.modRing c r fun q => { q with sync := .waiting false, word := some word }

/-- A WAIT reads its word, and the read may return. -/
structure State.AtWait (s : State) (c : Ch) (r : RingId) (h : HostCmd) : Prop where
  powered : s.dev.powered = true
  waiting : s.waitingAt c r = some (h, true)
  free : s.stalled (.sync c r) = false
  recording : s.mayRecord c = true

theorem exec_waitReadReturn (at' : s.AtWait c r h) (hreach : s.reach (syncAccess c r h false) = (v, some word))
    (hread : s.readVa (syncAccess c r h false) hbmData 8 ext = (u, o)) (hdone : o.done = true) :
    exec (.waitReadReturn c r ext) s = .next (u.waitRead c r h word (leNat o.bytes)) := by
  obtain ⟨hp, hw, hf, hm⟩ := at'
  rw [exec, execWaitReadReturn, live_of_powered hp, hw]
  simp [hf, hm, hreach, hread, hdone, State.waitRead, HostCmd.met]

theorem exec_waitTimeout (hp : s.dev.powered = true) (hw : s.waitingAt c r = some (h, b)) (ht : hd h.descs 256 16 ≠ 0)
    (hrep : s.replayOn c = false) (hm : s.mayRecord c = true) :
    exec (.waitTimeout c r) s = .next (s.waitEnds c r h) := by
  rw [exec, execWaitTimeout, live_of_powered hp, hw]
  simp [ht, hrep, hm]

/-- The read of a WAIT is given up, with its fault, and its ring waits for nothing (R413). -/
def State.waitGivenUp (s : State) (c : Ch) (r : RingId) : State :=
  (s.forgetAccesses fun a => a.req = .sync c r).modRing c r fun q => { q with sync := .idle, word := none }

/-- The end of a WAIT that times out leaves the synchronisation of the rings as it is given up. -/
theorem State.waitEnds_syncs (s : State) (c : Ch) (r : RingId) (h : HostCmd) :
    (s.waitGivenUp c r).Keeps Channel.syncs (s.waitEnds c r h) :=
  ((State.Keeps.of_chans (State.logOut_chans ..)).trans (State.finish_syncs _ c h _)).trans
    (.of_chans (State.stopRing_chans ..))

/-- A WAIT that times out has its record held, and its ring is idle and STOPPED (R413). -/
theorem State.waitEnds_shows (s : State) (c : Ch) (r : RingId) (h : HostCmd) :
    RecordHeld (s.waitEnds c r h) c h stWaitTimeout ∧ ((s.waitEnds c r h).ringOf c r).sync = .idle ∧
      (s.waitEnds c r h).flag (.door c r) Reg.ringHead_STOPPED = true := by
  refine ⟨?_, ?_, State.stopRing_stopped ..⟩
  · exact RecordHeld.of_keeps (State.finish_recordHeld _ c h (by decide)) (.of_chans (State.stopRing_chans ..))
  · have same : ((s.waitEnds c r h).ringOf c r).sync = ((s.waitGivenUp c r).ringOf c r).sync :=
      congrFun ((s.waitEnds_syncs c r h).same c) r
    rw [same, State.waitGivenUp, State.ringOf_modRing_same]

theorem waitEvents : Rules.WaitEvents := by
  intro c r s h hp
  refine ⟨fun hw => ?_, fun ext u v tg o hw hf hm hreach hread hdone => ?_, fun b hw ht hrep hm => ?_⟩
  · refine ⟨_, exec_waitPollExpiry hp hw, by rw [State.ringOf_modRing_same], rfl, ?_⟩
    exact (State.modRing_moves .refl c r _ .refl : Moves ⟨false, [.chans], []⟩ s _).sameStores rfl
  · refine ⟨_, exec_waitReadReturn ⟨hp, hw, hf, hm⟩ hreach hread hdone, ?_⟩
    by_cases met : h.met (leNat o.bytes) = true
    · rw [State.waitRead, if_pos met, if_pos ((h.met_iff _).mp met)]
      exact ⟨State.finish_gone .., State.finish_modRing_sync ..⟩
    · rw [State.waitRead, if_neg met, if_neg fun holds => met ((h.met_iff _).mpr holds), State.ringOf_modRing_same,
        State.modRing, State.chan_modChan, if_pos rfl]
      exact ⟨rfl, rfl, rfl⟩
  · exact ⟨_, exec_waitTimeout hp hw ht hrep hm, s.waitEnds_shows c r h⟩

/-- Settles O31: a synchronising command acts on the state in which it stands at its ring's head, its word is reached as
any other access is, and a completion leaves the synchronisation of every ring. -/
theorem synchronisation : Obligations.Synchronisation := ⟨synchronisingCommands, signalWrites, waitEvents⟩

end Sys2Proof.Machine
end

section
/-!
## Steps and the scopes of commands

Every command is a change of the powered state within its scope (R558); a step runs the command at the front of the
queue, and where none waits only time passes.
-/

namespace Sys2Proof.Machine

/-- Settles O4: what moves within a scope keeps all that lies beyond it. -/
theorem commandsStayInScope : Obligations.CommandsStayInScope :=
  fun i s t h => ((exec_moves i s).get t h).keeps

/-- Every command but POWER_ON acts through `live`. -/
theorem exec_eq_live (i : Instr) (s : State) (h : ∀ p, i ≠ .powerOn p) : ∃ u, exec i s = live s u := by
  cases i
  case powerOn p => exact absurd rfl (h p)
  all_goals exact ⟨_, rfl⟩

theorem live_of_unpowered {s : State} (h : s.dev.powered = false) (u : State) : live s u = .next s := by
  rw [live, h, if_neg Bool.false_ne_true]

theorem everyCommandAnswersNext : Rules.EveryCommandAnswersNext := by
  intro i s
  by_cases h : ∃ p, i = .powerOn p
  · obtain ⟨p, rfl⟩ := h
    exact ⟨_, rfl⟩
  · obtain ⟨u, hu⟩ := exec_eq_live i s fun p e => h ⟨p, e⟩
    exact ⟨_, hu⟩

theorem withoutPowerNothingActs : Rules.WithoutPowerNothingActs := by
  intro i s hp hi
  obtain ⟨u, hu⟩ := exec_eq_live i s hi
  rw [hu, live_of_unpowered hp]

theorem commandsKeepQueueAndOutput : Rules.CommandsKeepQueueAndOutput := by
  intro i s t h
  have hm := (exec_moves i s).get t h
  exact ⟨hm.pending, hm.out, hm.drawn⟩

/-- Settles O3. -/
theorem commandsLeaveQueueAndOutput : Obligations.CommandsLeaveQueueAndOutput :=
  ⟨everyCommandAnswersNext, withoutPowerNothingActs, commandsKeepQueueAndOutput⟩

/-- Settles O1. -/
theorem stepRunsFront : Obligations.StepRunsFront := fun _ _ _ h => step_of_pending h

/-! ## Time passes (R563) -/

/-- A fold that counts one up at each of some different keys. -/
theorem Tab.get_foldl_count {l : List Nat} (hl : l.Nodup) (t : Tab Nat) (d : Nat) :
    Tab.get 0 (l.foldl (fun t d => Tab.set t d (Tab.get 0 t d + 1)) t) d =
      if d ∈ l then Tab.get 0 t d + 1 else Tab.get 0 t d := by
  induction l generalizing t with
  | nil => rfl
  | cons x l ih =>
    obtain ⟨hx, hl⟩ := List.nodup_cons.mp hl
    rw [List.foldl_cons, ih hl, Tab.get_set]
    by_cases h : d = x
    · subst h
      simp [hx]
    · simp [h]

theorem domains_nodup : domains.Nodup := by decide

/-- The cycle count of a clock domain after a tick. -/
theorem State.cyc_tick (s : State) (d : Nat) :
    s.tick.cyc d = s.cyc d ∨ s.dev.powered = true ∧ s.clockRuns d = true ∧ s.tick.cyc d = s.cyc d + 1 := by
  unfold State.tick
  split
  · exact .inl rfl
  · next hp =>
    have hget := Tab.get_foldl_count (domains_nodup.filter fun d => s.clockRuns d && Config.edge s.drawn d) s.cycles d
    split at hget
    · next hd =>
      have hrun : s.clockRuns d = true := by
        have := (List.mem_filter.mp hd).2
        simp_all
      exact .inr ⟨by simpa using hp, hrun, hget⟩
    · exact .inl hget

theorem State.tick_frame (s : State) : s.tick = { s with cycles := s.tick.cycles, drawn := s.tick.drawn } := by
  unfold State.tick
  split <;> rfl

/-- Settles O2: the step of an idle block is a tick. -/
theorem idleStepPassesTime : Obligations.IdleStepPassesTime :=
  fun s h => ⟨s.tick, step_of_idle h, s.cyc_tick, s.tick_frame⟩

end Sys2Proof.Machine
end

section
/-!
## What the logs leave of the recorder's page (R619, R630)
-/

namespace Sys2Proof.Machine

/-- The words of the recorder's page that a record may write: RPL_STAT, RPL_CNT and INT_RAW. -/
def logWords : List Nat := Reg.rplStat_GAP.words ++ Reg.rplCnt_LOST.words ++ Reg.intRaw_RAW.words

theorem State.modLog_beside (s : State) (p : Page) (n : Nat) (f : Log → Log) : s.Beside p logWords (s.modLog n f) :=
  fun _ _ _ => State.word_congr rfl p _

theorem State.logTo_beside (s : State) (p : Page) (n d : Nat) (b : RecBody) : s.Beside p logWords (s.logTo n d b) := by
  unfold State.logTo
  dsimp only
  split
  · refine .trans (s.modLog_beside p n fun _ => (s.log n).append d b) ?_
    split
    · exact ((State.Beside.wr _ .rpl _ (by decide) (.inr (by decide))).trans
        (State.Beside.wr _ .rpl _ (by decide) (.inr (by decide)))).trans (State.Beside.raise _ .rpl _ (.inr (by decide)))
    · exact .refl
  · exact .refl

theorem State.logLock_beside (s : State) (p : Page) (c v : Nat) : s.Beside p logWords (s.logLock c v) := by
  unfold State.logLock
  split
  · split
    · exact fun _ _ _ => State.word_congr rfl p _
    · exact .refl
  · exact s.logTo_beside p c _ _

theorem State.logWrite_beside (s : State) (m : Master) (q p : Page) (off v : Nat) :
    s.Beside p logWords (s.logWrite m q off v) := by
  unfold State.logWrite
  split
  · exact s.logTo_beside p _ _ _
  · exact .refl

end Sys2Proof.Machine
end

section
/-!
## Locks (R506, R507)
-/

namespace Sys2Proof.Machine

variable {s t : State} {m : Master} {a : BarAddr} {p : Page} {off i : Nat}

theorem lockAt?_eq_some (h : lockAt? off = some i) : off = 0x40 + 4 * i ∧ i < 4 := by
  simp only [lockAt?, Option.ite_none_right_eq_some, Option.some.injEq] at h
  omega

theorem masterTag_lt (m : Master) : masterTag m < 2 ^ 8 := by
  cases m <;> simp only [masterTag] <;> omega

/-- A lock's owner stands in the word of the lock. -/
theorem State.lockOwner_congr (h : t.word p (0x40 + 4 * i) = s.word p (0x40 + 4 * i)) :
    t.lockOwner p i = s.lockOwner p i := by
  unfold State.lockOwner
  split
  · rfl
  · rw [State.rd_narrow _ _ (show 0 + 8 ≤ 32 by decide), State.rd_narrow _ _ (show 0 + 8 ≤ 32 by decide)]
    simp only [Reg.lock_OWNER, h]

theorem State.lockOwner_of_beside {os : List Nat} (h : s.Beside p os t) (hi : i < 4) (ho : ∀ o ∈ os, o < 0x40 ∨ 0x50 ≤ o) :
    t.lockOwner p i = s.lockOwner p i :=
  State.lockOwner_congr (h _ (by omega) fun hm => by have := ho _ hm; omega)

theorem logWords_not_locks : ∀ o ∈ logWords, o < 0x40 ∨ 0x50 ≤ o := by decide

theorem State.lockOwner_wr (s : State) (hp : ∀ c r, p ≠ .door c r) (i v : Nat) (hv : v < 2 ^ 8) :
    (s.wr p (Reg.lock_OWNER i) v).lockOwner p i = v := by
  rw [State.lockOwner_eq _ hp, State.rd_wr_same _ _ _ (show 0 + 8 ≤ 32 by decide)]
  exact Nat.mod_eq_of_lt hv

theorem State.acquire_value (s : State) (p : Page) (i tag : Nat) : (s.acquire p i tag).1 = s.lockOwner p i := by
  unfold State.acquire
  dsimp only
  split
  · next h => exact h.symm
  · rfl

/-- A free lock takes the tag; a lock that is held keeps its owner. -/
theorem State.lockOwner_acquire (s : State) (p : Page) (i : Nat) {tag : Nat} (ht : tag < 2 ^ 8) :
    (s.acquire p i tag).2.lockOwner p i = if s.lockOwner p i = 0 then tag else s.lockOwner p i := by
  unfold State.acquire
  dsimp only
  split
  · next h =>
    refine s.lockOwner_wr (fun c r e => ?_) i tag ht
    subst e
    cases h
  · rfl

theorem State.word_acquire_other (s : State) (p : Page) (hi : i < 4) (tag : Nat) {q : Page} {o : Nat} (ho : o < 4096)
    (hne : q ≠ p ∨ o ≠ 0x40 + 4 * i) : (s.acquire p i tag).2.word q o = s.word q o := by
  unfold State.acquire
  dsimp only
  split
  · exact s.word_wr_other _ (show 0 + 8 ≤ 32 by decide) (show 0x40 + 4 * i < 4096 by omega) ho hne
  · rfl

/-- The record of an acquire: in the log of the page's channel, or in log 4 (R624). -/
def State.logAcquire (s : State) (p : Page) (tag : Nat) : State :=
  (pageCh? p).elim (s.logTo 4 domHub (.dec 0x09 tag)) fun c => s.logLock c tag

theorem State.logAcquire_beside (s : State) (p q : Page) (tag : Nat) : s.Beside q logWords (s.logAcquire p tag) := by
  unfold State.logAcquire
  cases pageCh? p with
  | none => exact s.logTo_beside q _ _ _
  | some c => exact s.logLock_beside q c tag

theorem State.logAcquire_sameWords (s : State) (p : Page) (tag : Nat) : s.sameWords (s.logAcquire p tag) [.rpl] := by
  unfold State.logAcquire
  cases pageCh? p with
  | none => exact State.sameWords.refl.logTo (List.mem_singleton_self _)
  | some c => exact State.sameWords.refl.logLock (List.mem_singleton_self _)

theorem exec_lockReadAcquire (hp : s.dev.powered = true) (ha : placeOf a = some (p, off)) (hl : lockAt? off = some i)
    (hr : s.reaches m p = true) : exec (.lockReadAcquire m a) s =
      .next (((s.acquire p i (masterTag m)).2.logAcquire p (masterTag m)).emit (.read m (s.lockOwner p i))) := by
  simp only [exec, execLockReadAcquire, live_of_powered hp, ha, hl, hr, if_true, State.acquire_value]
  rfl

theorem lockReadAcquire : Rules.LockReadAcquire := by
  intro m a p off i s hp ha hl hr
  obtain ⟨rfl, hi⟩ := lockAt?_eq_some hl
  have he := exec_lockReadAcquire hp ha hl hr
  refine ⟨_, he, ?_, by simp, fun q o ho hq hne => ?_, ((exec_moves (.lockReadAcquire m a) s).get _ he).sameTables⟩
  · rw [State.lockOwner_congr (State.word_congr (State.emit_regs ..) p _),
      State.lockOwner_of_beside (State.logAcquire_beside _ p p _) hi logWords_not_locks,
      State.lockOwner_acquire _ _ _ (masterTag_lt m)]
  · rw [State.word_congr (State.emit_regs ..), State.logAcquire_sameWords _ _ _ q (by simpa using hq),
      State.word_acquire_other _ _ hi _ ho hne]

theorem exec_lockRelease (hp : s.dev.powered = true) (ha : placeOf a = some (p, off)) (hl : lockAt? off = some i)
    (hw : s.writable m p off = true) : exec (.lockRelease m a) s = .next (s.release p i (masterTag m)) := by
  simp only [exec, execLockRelease, live_of_powered hp, ha, hl, hw, if_true]

theorem exec_lockForce (hp : s.dev.powered = true) (ha : placeOf a = some (p, off)) (hl : lockAt? off = some i)
    (hw : s.writable .farrier p off = true) :
    exec (.lockForce .farrier a) s = .next (s.wr p (Reg.lock_OWNER i) 0) := by
  simp only [exec, execLockForce, live_of_powered hp, ha, hl, hw, and_self, if_true, State.release]

theorem exec_lockForce_other (hm : m ≠ .farrier) : exec (.lockForce m a) s = .next s := by
  cases hp : s.dev.powered with
  | false => simp only [exec, execLockForce, live, hp, Bool.false_eq_true, if_false]
  | true =>
    simp only [exec, execLockForce, live_of_powered hp, hm, false_and, if_false]
    split
    · split <;> rfl
    · rfl

/-- A write of a value to a lock register, neither 0 nor with the farrier's FORCE, is logged at most (R506). -/
theorem State.regWrite_lock (s : State) (m : Master) (p : Page) (hl : lockAt? off = some i) {v : Nat} (hv : v ≠ 0)
    (hf : m = .farrier → v < 2 ^ 31) :
    s.regWrite m p off v = s ∨ s.regWrite m p off v = s.logWrite m p off v := by
  obtain ⟨rfl, hi⟩ := lockAt?_eq_some hl
  unfold State.regWrite
  split
  · exact .inl rfl
  · split
    · refine .inl ?_
      simp only [State.writeDoor, show 0x40 + 4 * i ≠ 0x100 by omega, show 0x40 + 4 * i ≠ 0x108 by omega,
        show 0x40 + 4 * i ≠ 0x10c by omega, if_false]
    · refine .inr ?_
      have hforce : (bitsOf v 31 1 = 1 && m = .farrier) = false := by
        simp only [Bool.and_eq_false_iff, decide_eq_false_iff_not]
        by_cases hm : m = .farrier
        · exact .inl (by have := hf hm; unfold bitsOf; omega)
        · exact .inr hm
      simp only [show 0x40 + 4 * i < 0x100 by omega, if_true]
      unfold State.writeHeader
      split
      · rfl
      · simp only [show 0x40 + 4 * i ≠ 0x08 by omega, show 0x40 + 4 * i ≠ 0x14 by omega,
          show 0x40 + 4 * i ≠ 0x1c by omega, show 0x40 + 4 * i ≠ 0x20 by omega, show 0x40 + 4 * i ≠ 0x24 by omega,
          or_self, if_false, hl, State.writeLock, hforce, Bool.false_eq_true, hv]

theorem lockReleaseAndForce : Rules.LockReleaseAndForce := by
  refine ⟨fun m a p off i s hp ha hl hw => exec_lockRelease hp ha hl hw, fun a p off i s hp ha hl hw hd => ?_,
    fun m a s hm => exec_lockForce_other hm, fun m a v p off i s hp ha hl hv hf => ?_⟩
  · obtain ⟨rfl, hi⟩ := lockAt?_eq_some hl
    exact ⟨_, exec_lockForce hp ha hl hw, s.lockOwner_wr hd i 0 (by decide), fun q o ho hne =>
      s.word_wr_other _ (show 0 + 8 ≤ 32 by decide) (show 0x40 + 4 * i < 4096 by omega) ho hne, State.wr_eq ..⟩
  · refine ⟨_, exec_registerWrite hp ha, ?_⟩
    have kept : s.lockOwner p i = s.lockOwner p i ∧ ∀ q o, o < 4096 → q ≠ Page.rpl → s.word q o = s.word q o :=
      ⟨rfl, fun _ _ _ _ => rfl⟩
    split
    · exact kept
    · obtain h | h := s.regWrite_lock m p hl hv hf
      · rw [h]
        exact kept
      · rw [h]
        exact ⟨State.lockOwner_of_beside (s.logWrite_beside m p p off _) (lockAt?_eq_some hl).2 logWords_not_locks,
          fun q o _ hq => s.logWrite_sameWords m p off _ q (by simpa using hq) o⟩

/-- Settles O8. -/
theorem locks : Obligations.Locks := ⟨lockReadAcquire, lockReleaseAndForce⟩

end Sys2Proof.Machine
end

section
/-!
## Bits of INT_RAW and words of 32 bits (R14, R654)
-/

namespace Sys2Proof.Machine

variable {s : State}

/-- After an event its bit of INT_RAW is set. -/
theorem State.raise_sets (s : State) (p : Page) {n : Nat} (h : n < 32) :
    ((s.raise p n).rd p Reg.intRaw_RAW).testBit n = true := by
  rw [State.rd_raise_raw, Nat.testBit_mod_two_pow, Nat.testBit_or, Nat.testBit_two_pow_self]
  simp [h]

/-- An event clears no bit of INT_RAW. -/
theorem State.raise_keeps (s : State) (p : Page) (n : Nat) {k : Nat} (h : (s.rd p Reg.intRaw_RAW).testBit k = true) :
    ((s.raise p n).rd p Reg.intRaw_RAW).testBit k = true := by
  have hk : k < 32 := by
    by_contra hk
    rw [State.rd_narrow _ _ (by decide), testBit_bitsOf] at h
    simp [Reg.intRaw_RAW, hk] at h
  rw [State.rd_raise_raw, Nat.testBit_mod_two_pow, Nat.testBit_or, h]
  simp [hk]

/-- Every word of a well-formed state has 32 bits. -/
theorem State.word_lt (h : s.regsWf) (p : Page) (o : Nat) : s.word p o < 2 ^ 32 := by
  obtain ⟨-, h⟩ := h
  unfold State.word
  generalize s.regs = l at h
  induction l with
  | nil => exact resetWord_lt p o
  | cons r l ih =>
    obtain ⟨k, v⟩ := r
    unfold Tab.get
    split
    · exact h (k, v) (List.mem_cons_self ..)
    · exact ih fun r hr => h r (List.mem_cons_of_mem _ hr)

end Sys2Proof.Machine
end

section
/-!
## Sends (R498, R500, R540)
-/

namespace Sys2Proof.Machine

variable {s t u : State} {m : Master} {b : MbxId}

/-- The words of a mailbox page that a send may write beside its message: MBX_SSTAT and INT_RAW. -/
def mailWords : List Nat := [0x14c, 0x10]

theorem State.Beside.sstat (s : State) (b : MbxId) {f : Fld} (hf : f.words = [0x14c]) (v : Nat) :
    s.Beside (.mbx b) mailWords (s.wr (.mbx b) f v) :=
  .wr _ _ _ (by rw [hf]; decide) (.inr (by rw [hf]; decide))

theorem State.modSlot_beside (s : State) (p : Page) (n : Nat) (f : MbxSlot → MbxSlot) :
    s.Beside p mailWords (s.modSlot n f) :=
  fun _ _ _ => State.word_congr rfl p _

theorem State.dataWords_of_beside (h : s.Beside (.mbx b) mailWords t) : t.dataWords b = s.dataWords b :=
  List.map_congr_left fun i hi => h _ (by have := List.mem_range.mp hi; omega)
    (by have := List.mem_range.mp hi; simp only [mailWords, List.mem_cons, List.not_mem_nil, or_false]; omega)

theorem State.stageWords_of_beside (h : s.Beside (.mbx b) mailWords t) : t.stageWords b = s.stageWords b :=
  List.map_congr_left fun i hi => h _ (by have := List.mem_range.mp hi; omega)
    (by have := List.mem_range.mp hi; simp only [mailWords, List.mem_cons, List.not_mem_nil, or_false]; omega)

/-- What the steps after a send leave of a mailbox: its slot, its words, SEQ, and the bits of INT_RAW. -/
structure State.MailKept (b : MbxId) (s t : State) : Prop where
  mbx : t.mbx = s.mbx
  words : s.Beside (.mbx b) mailWords t
  seq : t.rd (.mbx b) Reg.mbxSstat_SEQ = s.rd (.mbx b) Reg.mbxSstat_SEQ
  raw : ∀ n, (s.rd (.mbx b) Reg.intRaw_RAW).testBit n = true → (t.rd (.mbx b) Reg.intRaw_RAW).testBit n = true

theorem State.MailKept.refl : s.MailKept b s := ⟨rfl, .refl, rfl, fun _ h => h⟩

theorem State.MailKept.trans (h1 : s.MailKept b t) (h2 : t.MailKept b u) : s.MailKept b u :=
  ⟨h2.mbx.trans h1.mbx, h1.words.trans h2.words, h2.seq.trans h1.seq, fun n h => h2.raw n (h1.raw n h)⟩

/-- What moves outside the mailboxes and their pages keeps them. -/
theorem Moves.mailKept {w : Bool} {ps : List Part} {ks : List PageKind} (h : Moves ⟨w, ps, ks⟩ s t)
    (hp : Part.mbx ∉ ps) (hk : PageKind.mbx ∉ ks) (b : MbxId) : s.MailKept b t := by
  have hw : ∀ o, t.word (.mbx b) o = s.word (.mbx b) o := h.words (.mbx b) hk
  have hr (f : Fld) : t.rd (.mbx b) f = s.rd (.mbx b) f := by simp only [State.rd, hw]
  exact ⟨h.parts .mbx hp, fun o _ _ => hw o, hr _, fun n e => by rw [hr]; exact e⟩

/-- MBX_SSTAT.TIMEOUT and its interrupt keep the message (R500). -/
theorem State.mailTimeout_kept (s : State) (b : MbxId) : s.MailKept b (s.mailTimeout b) := by
  have h1 : s.MailKept b ((s.wr (.mbx b) Reg.mbxSstat_TIMEOUT 1).raise (.mbx b) 2) :=
    ⟨by simp, (State.Beside.sstat _ b (by decide) _).trans (.raise _ _ _ (.inr (by decide))),
      by rw [State.rd_raise_off _ _ (by decide) (by decide) (by decide),
        State.rd_wr_off _ _ (by decide) (by decide) (by decide) (by decide) (by decide)],
      fun n h => State.raise_keeps _ _ _ (by
        rwa [State.rd_wr_off _ _ (by decide) (by decide) (by decide) (by decide) (by decide)])⟩
  refine h1.trans ?_
  unfold State.mailTimeout
  dsimp only
  refine Moves.mailKept (w := false) (ps := [.out, .msix, .recorder]) (ks := [.rpl]) ?_ (by decide) (by decide) b
  cases mbxCh? b with
  | none => exact State.logTo_moves .refl _ _ _ .refl
  | some c => exact State.logOut_moves .refl _ _ _ .refl

theorem State.logAccept_kept (s : State) (b : MbxId) (v : Nat) (d : MbxId) : s.MailKept d (s.logAccept b v) :=
  (State.logAccept_moves (Moves.refl (σ := ⟨false, [.out, .msix, .recorder], [.rpl]⟩)) b v .refl).mailKept
    (by decide) (by decide) d

theorem State.emit_kept (s : State) (o : Output) (b : MbxId) : s.MailKept b (s.emit o) := ⟨rfl, fun _ _ _ => rfl, rfl, fun _ h => h⟩

/-- The words of a message stand in the slot, SEQ is one further, and RX_FULL is set. -/
def State.placeMail (s : State) (b : MbxId) (ws : List Nat) : State :=
  let seq := (s.rd (.mbx b) Reg.mbxSstat_SEQ + 1) % 2 ^ 15
  (((s.setWords (.mbx b) 0x180 ws).wr (.mbx b) Reg.mbxSstat_SEQ seq).modSlot b
    fun _ => { full := true, read := false, seq := seq }).raise (.mbx b) 0

/-- Where an accepted message goes beside its slot: to the egress of a port, or to the log of its channel. -/
def State.routeSend (s : State) (b : MbxId) (seq : Nat) (ws : List Nat) : State :=
  if isPo b then
    if s.linkUp (mbxPort b) then
      s.sendCtrl (mbxPort b)
        (.message (BitVec.ofNat 15 seq) (Vector.ofFn fun i => BitVec.ofNat 32 (ws.getD i.val 0)))
    else s
  else if 2 ≤ b.val ∧ b.val < 6 then
    s.logInput (b - 2) (domArith (b - 2)) 0x3 (ws.flatMap (leBytes 4))
  else s

theorem State.routeSend_kept (s : State) (b : MbxId) (seq : Nat) (ws : List Nat) :
    s.MailKept b (s.routeSend b seq ws) := by
  have moved : Moves ⟨false, [.out, .msix, .ports, .recorder], [.rpl]⟩ s (s.routeSend b seq ws) :=
    .ite (.ite (State.sendCtrl_moves .refl _ _ (by decide)) .refl)
      (.ite (State.logInput_moves .refl _ _ _ _ (by decide)) .refl)
  exact moved.mailKept (by decide) (by decide) b

theorem State.acceptSend_eq (s : State) (b : MbxId) (ws : List Nat) : s.acceptSend b ws =
    if s.receiverGone b then
      (((s.placeMail b ws).logAccept b 0).routeSend b ((s.rd (.mbx b) Reg.mbxSstat_SEQ + 1) % 2 ^ 15) ws).mailTimeout b
    else ((s.placeMail b ws).logAccept b 0).routeSend b ((s.rd (.mbx b) Reg.mbxSstat_SEQ + 1) % 2 ^ 15) ws := rfl

/-- What an accepted send does once its slot is filled keeps the message. -/
theorem State.acceptSend_kept (s : State) (b : MbxId) (ws : List Nat) :
    (s.placeMail b ws).MailKept b (s.acceptSend b ws) := by
  have routed := ((s.placeMail b ws).logAccept_kept b 0 b).trans
    (State.routeSend_kept _ b ((s.rd (.mbx b) Reg.mbxSstat_SEQ + 1) % 2 ^ 15) ws)
  rw [s.acceptSend_eq]
  split
  · exact routed.trans (State.mailTimeout_kept _ b)
  · exact routed

theorem SendAccepted.kept (h : SendAccepted b s t) (k : t.MailKept b u) : SendAccepted b s u := by
  obtain ⟨hdata, hfull, hread, hseq, hraw, hstage⟩ := h
  have hslot : u.slot b = t.slot b := by rw [State.slot, k.mbx, State.slot]
  exact ⟨(State.dataWords_of_beside k.words).trans hdata, by rw [hslot, hfull], by rw [hslot, hread], k.seq.trans hseq,
    k.raw 0 hraw, (State.stageWords_of_beside k.words).trans hstage⟩

theorem State.stageWords_lt (h : s.regsWf) (b : MbxId) : (s.stageWords b).map (· % 2 ^ 32) = s.stageWords b := by
  rw [State.stageWords, List.map_map]
  exact List.map_congr_left fun i _ => Nat.mod_eq_of_lt (State.word_lt h _ _)

theorem State.stageWords_length (s : State) (b : MbxId) : (s.stageWords b).length = 16 := by
  simp [State.stageWords]

/-- The words stored in the slot read back there, whatever is written to MBX_SSTAT and INT_RAW after them. -/
theorem State.dataWords_setWords {ws : List Nat} (hl : ws.length = 16)
    (h : (s.setWords (.mbx b) 0x180 ws).Beside (.mbx b) mailWords t) : t.dataWords b = ws.map (· % 2 ^ 32) := by
  rw [State.dataWords_of_beside h, ← s.words_setWords (.mbx b) (off := 0x180) ws (by omega), hl, State.dataWords]

theorem State.stageWords_setWords {ws : List Nat} (hl : ws.length = 16)
    (h : (s.setWords (.mbx b) 0x180 ws).Beside (.mbx b) mailWords t) : t.stageWords b = s.stageWords b := by
  rw [State.stageWords_of_beside h]
  refine List.map_congr_left fun i hi => ?_
  have hi := List.mem_range.mp hi
  exact s.word_setWords_before _ _ (by omega) (by omega)

theorem State.placeMail_accepted (hs : s.regsWf) (b : MbxId) : SendAccepted b s (s.placeMail b (s.stageWords b)) := by
  have hl := s.stageWords_length b
  have beside : (s.setWords (.mbx b) 0x180 (s.stageWords b)).Beside (.mbx b) mailWords
      (s.placeMail b (s.stageWords b)) :=
    ((State.Beside.sstat _ b (f := Reg.mbxSstat_SEQ) (by decide) _).trans (State.modSlot_beside _ _ _ _)).trans (.raise _ _ _ (.inr (by decide)))
  refine ⟨?_, ?_, ?_, ?_, State.raise_sets _ _ (by decide), State.stageWords_setWords hl beside⟩
  · rw [State.dataWords_setWords hl beside, State.stageWords_lt hs]
  · simp [State.placeMail, State.slot]
  · simp [State.placeMail, State.slot]
  · rw [State.placeMail, State.rd_raise_off _ _ (by decide) (by decide) (by decide), State.rd_modSlot,
      State.rd_wr_same _ _ _ (by decide)]
    exact Nat.mod_mod _ _

theorem State.acceptSend_accepted (hs : s.regsWf) (b : MbxId) : SendAccepted b s (s.acceptSend b (s.stageWords b)) :=
  SendAccepted.kept (State.placeMail_accepted hs b) (s.acceptSend_kept b _)

theorem State.postedSend_accepts (h : (s.slot b).full = false) : s.postedSend b = s.acceptSend b (s.stageWords b) := by
  rw [State.postedSend, h, if_neg Bool.false_ne_true]

theorem exec_mbxSend_accepts (hp : s.dev.powered = true) (hw : s.writable m (.mbx b) 0x140 = true)
    (hm : s.mailWaits b = false) (hf : (s.slot b).full = false) :
    exec (.mbxSend m b) s = .next (s.acceptSend b (s.stageWords b)) := by
  simp [exec, execMbxSend, live_of_powered hp, hw, hm, hf, State.postedSend_accepts hf]

theorem exec_mbxSendAlt (hp : s.dev.powered = true) (hw : s.writable m (.mbx b) 0x144 = true)
    (hm : s.mailWaits b = false) : exec (.mbxSendAlt m b) s = .next (s.postedSend b) := by
  simp [exec, execMbxSendAlt, live_of_powered hp, hw, hm]

theorem exec_atomicSwapSend_accepts (hp : s.dev.powered = true) (hm : s.mainUp = true) {v : Word}
    (hv : v.toNat % 2 = 1) (hf : (s.slot hfBox).full = false) : exec (.atomicSwapSend v) s =
      .next ((s.acceptSend hfBox (s.stageWords hfBox)).emit (.completion .ok (s.sstatWord hfBox))) := by
  simp [exec, execAtomicSwapSend, live_of_powered hp, hm, hf, hv]

theorem sendsAcceptedWhenEmpty : Rules.SendsAcceptedWhenEmpty := by
  intro s hp hs
  refine ⟨fun m b hw hm hf => ⟨_, exec_mbxSend_accepts hp hw hm hf, State.acceptSend_accepted hs b⟩,
    fun m b hw hm hf => ⟨_, exec_mbxSendAlt hp hw hm, ?_⟩,
    fun v hv hm hf => ⟨_, exec_atomicSwapSend_accepts hp hm hv hf,
      SendAccepted.kept (State.acceptSend_accepted hs hfBox) (State.emit_kept _ _ _), by simp⟩⟩
  rw [State.postedSend_accepts hf]
  exact State.acceptSend_accepted hs b

/-! ## Rejections (R498, R542) -/

/-- What leaves the message, the staging words, SEQ and the count of rejections as they are. -/
theorem SendRejected.kept (h : SendRejected b s t) (k : t.MailKept b u)
    (hc : u.rd (.mbx b) Reg.mbxSstat_REJ_CNT = t.rd (.mbx b) Reg.mbxSstat_REJ_CNT) : SendRejected b s u := by
  obtain ⟨hmbx, hdata, hstage, hseq, hcnt⟩ := h
  exact ⟨k.mbx.trans hmbx, (State.dataWords_of_beside k.words).trans hdata,
    (State.stageWords_of_beside k.words).trans hstage, k.seq.trans hseq, hc.trans hcnt⟩

theorem State.rd_logAccept (s : State) (b : MbxId) (v : Nat) (d : MbxId) (f : Fld) :
    (s.logAccept b v).rd (.mbx d) f = s.rd (.mbx d) f := by
  have moved : Moves ⟨false, [.out, .msix, .recorder], [.rpl]⟩ s (s.logAccept b v) := State.logAccept_moves .refl b v .refl
  exact moved.rd_eq (q := .mbx d) (show PageKind.mbx ∉ _ by decide) f

theorem State.rejectSend_rejected (s : State) (b : MbxId) : SendRejected b s (s.rejectSend b) := by
  have beside : s.Beside (.mbx b) mailWords (s.bump (.mbx b) Reg.mbxSstat_REJ_CNT) :=
    .sstat _ b (by decide) _
  have counted : SendRejected b s (s.bump (.mbx b) Reg.mbxSstat_REJ_CNT) :=
    ⟨State.bump_mbx .., State.dataWords_of_beside beside, State.stageWords_of_beside beside,
      State.rd_bump_off _ _ (by decide) (by decide) (by decide) (by decide) (by decide),
      State.rd_bump_same _ _ _ (by decide)⟩
  exact SendRejected.kept counted (State.logAccept_kept _ b 1 b) (State.rd_logAccept ..)

/-- A posted send that is rejected sets SEND_REJECT and its interrupt. -/
theorem State.postedSend_rejects (h : (s.slot b).full = true) : SendRejected b s (s.postedSend b) ∧
    (s.postedSend b).rd (.mbx b) Reg.mbxSstat_SEND_REJECT = 1 ∧
    ((s.postedSend b).rd (.mbx b) Reg.intRaw_RAW).testBit 3 = true := by
  rw [State.postedSend, h, if_pos rfl]
  have off (g : Fld) (hg : g.lo + g.w ≤ 32) (og : g.off < 4096) (h10 : g.off ≠ 0x10)
      (hb : g.off ≠ 0x14c ∨ g.lo + g.w ≤ 2 ∨ 3 ≤ g.lo) :
      (((s.rejectSend b).wr (.mbx b) Reg.mbxSstat_SEND_REJECT 1).raise (.mbx b) 3).rd (.mbx b) g =
        (s.rejectSend b).rd (.mbx b) g := by
    rw [State.rd_raise_off _ _ hg og h10, State.rd_wr_off _ _ (by decide) hg (by decide) og hb]
  refine ⟨SendRejected.kept (s.rejectSend_rejected b) ⟨by simp, ?_, off _ (by decide) (by decide) (by decide) (by decide), fun n e => ?_⟩
    (off _ (by decide) (by decide) (by decide) (by decide)), ?_, State.raise_sets _ _ (by decide)⟩
  · exact (State.Beside.sstat _ b (by decide) _).trans (.raise _ _ _ (.inr (by decide)))
  · exact State.raise_keeps _ _ _ (by rwa [State.rd_wr_off _ _ (by decide) (by decide) (by decide) (by decide) (by decide)])
  · rw [State.rd_raise_off _ _ (by decide) (by decide) (by decide), State.rd_wr_same _ _ _ (by decide)]
    rfl

theorem exec_mbxSend_rejects (hp : s.dev.powered = true) (hm : m ≠ .host) (hw : s.writable m (.mbx b) 0x140 = true)
    (hq : s.mailWaits b = false) (hf : (s.slot b).full = true) :
    exec (.mbxSend m b) s = .next ((s.rejectSend b).emit (.busFault m)) := by
  simp [exec, execMbxSend, live_of_powered hp, hw, hq, hf, hm]

theorem exec_mbxSend_host (hp : s.dev.powered = true) (hw : s.writable .host (.mbx b) 0x140 = true)
    (hq : s.mailWaits b = false) : exec (.mbxSend .host b) s = .next (s.postedSend b) := by
  simp [exec, execMbxSend, live_of_powered hp, hw, hq]

theorem exec_atomicSwapSend_rejects (hp : s.dev.powered = true) (hm : s.mainUp = true) {v : Word}
    (hv : v.toNat % 2 = 1) (hf : (s.slot hfBox).full = true) : exec (.atomicSwapSend v) s =
      .next ((((s.rejectSend hfBox).bump .hif Reg.hifCnt_CA).emit (.completion .abort 0)).emit (.aer .advisoryAbort)) := by
  simp [exec, execAtomicSwapSend, live_of_powered hp, hm, hf, hv]

theorem sendsRejectedWhenFull : Rules.SendsRejectedWhenFull := by
  intro s hp
  refine ⟨fun m b hm hw hq hf => ⟨_, exec_mbxSend_rejects hp hm hw hq hf,
      SendRejected.kept (s.rejectSend_rejected b) (State.emit_kept _ _ _) rfl, by simp⟩,
    fun b hw hq hf => ⟨_, exec_mbxSend_host hp hw hq, State.postedSend_rejects hf⟩,
    fun m b hw hq hf => ⟨_, exec_mbxSendAlt hp hw hq, State.postedSend_rejects hf⟩,
    fun v hv hm hf => ⟨_, exec_atomicSwapSend_rejects hp hm hv hf, ?_, _, List.append_assoc _ [_] [_]⟩⟩
  have counted : (s.rejectSend hfBox).MailKept hfBox ((s.rejectSend hfBox).bump .hif Reg.hifCnt_CA) :=
    (State.bump_moves (Moves.refl (σ := ⟨false, [], [.hif]⟩)) _ _ _ (by decide)).mailKept (by decide) (by decide) _
  exact SendRejected.kept (s.rejectSend_rejected hfBox) ((counted.trans (State.emit_kept _ _ _)).trans (State.emit_kept _ _ _))
    (State.rd_bump_page _ (by decide))

/-! ## Other AtomicOps (R540) -/

theorem exec_unsupportedAtomicop (hp : s.dev.powered = true) (hm : s.mainUp = true) (a : BarAddr) :
    exec (.unsupportedAtomicop a) s = .next { s.bump .hif Reg.hifCnt_UR with
      out := s.out ++ [.completion .unsupported 0, .aer .advisoryUnsupported] } := by
  simp [exec, execUnsupportedAtomicop, live_of_powered hp, hm, State.emit]

theorem unsupportedAtomicop : Rules.UnsupportedAtomicop := by
  intro a s hp hm
  refine ⟨_, exec_unsupportedAtomicop hp hm a, rfl, s.word_bump_hif (by decide) (by decide), ?_⟩
  rw [State.bump, State.wr_eq]

/-- Settles O9. -/
theorem sends : Obligations.Sends := ⟨sendsAcceptedWhenEmpty, sendsRejectedWhenFull, unsupportedAtomicop⟩

end Sys2Proof.Machine
end

section
/-!
## Messages read, acknowledged, cancelled and timed out (R499, R500)
-/

namespace Sys2Proof.Machine

variable {s t : State} {m : Master} {b : MbxId}

theorem MbxId.val_ne_fhBox (h : b ≠ fhBox) : b.val ≠ fhBox.val := fun e => h (Fin.ext e)

/-- FULL of a slot clears, and the answers of the farrier that waited for it leave every slot but FH's. -/
theorem State.slot_clearFull (s : State) (b : MbxId) {d : Nat} (hd : d ≠ fhBox.val) :
    (s.modSlot b fun x => { x with full := false }).flushAnswers.slot d =
      if d = b.val then { s.slot b with full := false } else s.slot d := by
  rw [(State.flushAnswers_frame _).1 d hd, State.slot_modSlot]

theorem State.slot_clearSlot (s : State) (b : MbxId) (r : Receipt) (hb : b ≠ fhBox) :
    (s.clearSlot b r).slot b = { s.slot b with full := false } := by
  have h := s.slot_clearFull b (MbxId.val_ne_fhBox hb)
  rw [if_pos rfl] at h
  unfold State.clearSlot
  dsimp only
  split
  · exact h
  · exact h

theorem exec_mbxRecvRead (hp : s.dev.powered = true) (hr : s.reaches m (.mbx b) = true) :
    exec (.mbxRecvRead m b) s = .next
      (if m = mbxReceiver b ∧ isPo b = false ∧ (s.slot b).full = true then
        if s.acked b then (s.emit (.read m (s.recvWord b))).modSlot b fun x => { x with read := true }
        else ((s.emit (.read m (s.recvWord b))).modSlot b fun x => { x with read := true }).clearSlot b .read
      else s.emit (.read m (s.recvWord b))) := by
  simp [exec, execMbxRecvRead, live_of_powered hp, hr]

theorem receiverReadsMessage : Rules.ReceiverReadsMessage := by
  intro m b s hp hr
  let e := s.emit (.read m (s.recvWord b))
  have mem : Output.read m (s.recvWord b) ∈ e.out := by simp [e]
  refine ⟨_, exec_mbxRecvRead hp hr, ?_, fun hm ho hf hb => ?_, fun hm => ?_⟩
  · split
    · split
      · exact mem
      · have moved : Moves ⟨false, [.out, .msix, .mbx, .ports, .recorder, .dev], [.mbx, .rpl]⟩ e
            ((e.modSlot b fun x => { x with read := true }).clearSlot b .read) :=
          State.clearSlot_moves (State.modSlot_moves .refl _ _ (by decide)) b .read (by decide)
        exact moved.out.subset mem
    · exact mem
  · rw [if_pos ⟨hm, ho, hf⟩]
    cases ha : s.acked b with
    | true =>
      rw [if_pos rfl]
      have hs : ∀ f, (e.modSlot b f).slot b = f (s.slot b) := fun f => by rw [State.slot_modSlot, if_pos rfl]; rfl
      exact ⟨by rw [hs], by rw [hs]; exact hf, by rw [hs]⟩
    | false =>
      rw [if_neg Bool.false_ne_true]
      have hs : ∀ f, (e.modSlot b f).slot b = f (s.slot b) := fun f => by rw [State.slot_modSlot, if_pos rfl]; rfl
      have hc := State.slot_clearSlot (e.modSlot b fun x => { x with read := true }) b .read hb
      rw [hs] at hc
      exact ⟨by rw [hc], by rw [hc], by rw [hc]⟩
  · rw [if_neg fun h => hm h.1]

theorem exec_mbxAck (hp : s.dev.powered = true) (hw : s.writable m (.mbx b) 0x1c4 = true) (hf : (s.slot b).full = true)
    (ha : s.acked b = true) (ho : isPo b = false) (hi : isPi b = false) (code : BitVec 16) :
    exec (.mbxAck m b code) s = .next
      (((s.clearSlot b (.ack code (BitVec.ofNat 15 (s.slot b).seq))).setWord (.mbx b) 0x150
        (code.toNat + (s.slot b).seq % 2 ^ 15 * 2 ^ 16 + 2 ^ 31)).raise (.mbx b) 1) := by
  simp [exec, execMbxAck, live_of_powered hp, hw, hf, ha, ho, hi]

theorem exec_mbxCancel (hp : s.dev.powered = true) (hw : s.writable m (.mbx b) 0x148 = true) {v : Word}
    (hv : v.toNat % 2 = 1) (hf : (s.slot b).full = true) (ho : isPo b = false) (hr : (s.slot b).read = false) :
    exec (.mbxCancel m b v) s = .next (s.modSlot b fun x => { x with full := false }).flushAnswers := by
  simp [exec, execMbxCancel, live_of_powered hp, hw, hv, hf, ho, hr]

theorem exec_mbxTimeout (hp : s.dev.powered = true) (hf : (s.slot b).full = true)
    (ht : s.rd (.mbx b) Reg.mbxCfg_TMO ≠ 0) (hr : s.timerOff b = false) :
    exec (.mbxTimeout b) s = .next (s.mailTimeout b) := by
  simp [exec, execMbxTimeout, live_of_powered hp, hf, ht, hr]

/-- MBX_SSTAT.TIMEOUT after a timeout. -/
theorem State.mailTimeout_shows (s : State) (b : MbxId) : (s.mailTimeout b).rd (.mbx b) Reg.mbxSstat_TIMEOUT = 1 ∧
    ((s.mailTimeout b).rd (.mbx b) Reg.intRaw_RAW).testBit 2 = true := by
  let u := (s.wr (.mbx b) Reg.mbxSstat_TIMEOUT 1).raise (.mbx b) 2
  have logged (f : Fld) : (s.mailTimeout b).rd (.mbx b) f = u.rd (.mbx b) f := by
    have h : Moves ⟨false, [.out, .msix, .recorder], [.rpl]⟩ u (s.mailTimeout b) := by
      unfold State.mailTimeout
      dsimp only
      cases mbxCh? b with
      | none => exact State.logTo_moves .refl _ _ _ .refl
      | some c => exact State.logOut_moves .refl _ _ _ .refl
    exact h.rd_eq (q := .mbx b) (show PageKind.mbx ∉ _ by decide) f
  refine ⟨?_, ?_⟩
  · rw [logged, State.rd_raise_off _ _ (by decide) (by decide) (by decide), State.rd_wr_same _ _ _ (by decide)]
    rfl
  · rw [logged]
    exact State.raise_sets _ _ (by decide)

theorem State.mailTimeout_sameWords (s : State) (b : MbxId) : s.sameWords (s.mailTimeout b) [.mbx b, .rpl] := by
  unfold State.mailTimeout
  dsimp only
  have h1 : s.sameWords ((s.wr (.mbx b) Reg.mbxSstat_TIMEOUT 1).raise (.mbx b) 2) [.mbx b, .rpl] :=
    (State.sameWords.refl.wr (by simp)).raise (by simp)
  cases mbxCh? b with
  | none => exact h1.logTo (by simp)
  | some c => exact h1.logOut (by simp)

theorem messagesAcknowledgedCancelledTimedOut : Rules.MessagesAcknowledgedCancelledTimedOut := by
  intro b s hp hf ho
  refine ⟨fun m code hw ha hi hb => ⟨_, exec_mbxAck hp hw hf ha ho hi code, ?_, ?_, State.raise_sets _ _ (by decide)⟩,
    fun m v hw hv hr hb => ⟨_, exec_mbxCancel hp hw hv hf ho hr, ?_, fun d hd hd' => ?_⟩,
    fun ht hr => ⟨_, exec_mbxTimeout hp hf ht hr, (s.mailTimeout_kept b).mbx, (s.mailTimeout_shows b).1,
      (s.mailTimeout_shows b).2, s.mailTimeout_sameWords b, ?_⟩⟩
  · have hc := s.slot_clearSlot b (.ack code (BitVec.ofNat 15 (s.slot b).seq)) hb
    rw [State.slot, State.raise_mbx, State.setWord_mbx, ← State.slot, hc]
  · rw [State.word_raise_other _ (by decide) (.inr (by decide)), State.word_setWord_same]
    have := code.isLt
    exact Nat.mod_eq_of_lt (by omega)
  · rw [s.slot_clearFull b (MbxId.val_ne_fhBox hb), if_pos rfl]
  · rw [s.slot_clearFull b (MbxId.val_ne_fhBox hd'), if_neg fun e => hd (Fin.ext e)]
  · exact ((exec_moves (.mbxTimeout b) s).get _ (exec_mbxTimeout hp hf ht hr)).sameTables

/-- Settles O10. -/
theorem messages : Obligations.Messages := ⟨receiverReadsMessage, messagesAcknowledgedCancelledTimedOut⟩

end Sys2Proof.Machine
end

section
/-!
## Peer mailboxes and remote locks (R527 to R529, R537)
-/

namespace Sys2Proof.Machine

variable {s t : State} {p : PortId}

/-- A control message of 16 bytes joins the CTRL class of the egress, behind what waits there. -/
theorem State.sendCtrl_egress (s : State) (p : PortId) {m : CtrlMsg} (hm : ∀ q w, m ≠ .message q w) :
    ∃ l, Tab.get [] ((s.sendCtrl p m).port p).egress 0 = l ++ [{ body := .ctrl m, bytes := 16 }] := by
  refine ⟨Tab.get [] (s.port p).egress 0, ?_⟩
  unfold State.sendCtrl State.toEgress
  rw [State.port_modPort, if_pos rfl, Tab.get_set, if_pos rfl]
  cases m with
  | message q w => exact absurd rfl (hm q w)
  | receipt r => rfl
  | cancel => rfl
  | lockRequest page lock release => rfl
  | lockReply v => rfl

theorem exec_peerMessageArrival (hp : s.dev.powered = true) (hu : s.linkUp p = true)
    (hf : (s.slot (piBox p)).full = false) (seq : BitVec 15) (words : Vector Word 16) :
    exec (.peerMessageArrival p seq words) s = .next
      ((((s.takeCtrl p).setWords (.mbx (piBox p)) 0x180 (words.toList.map BitVec.toNat)).modSlot (piBox p)
        fun _ => { full := true, read := false, seq := seq.toNat }).raise (.mbx (piBox p)) 0) := by
  have hf' : ((s.takeCtrl p).slot (piBox p)).full = false := hf
  simp [exec, execPeerMessageArrival, live_of_powered hp, hu, hf']

/-- A peer's message lands in the empty slot of PIp (R527). -/
theorem peerMessageLands (hp : s.dev.powered = true) (hu : s.linkUp p = true)
    (hf : (s.slot (piBox p)).full = false) (seq : BitVec 15) (words : Vector Word 16) :
    ∃ t, exec (.peerMessageArrival p seq words) s = .next t ∧
      t.slot (piBox p) = { full := true, read := false, seq := seq.toNat } ∧
      t.dataWords (piBox p) = words.toList.map BitVec.toNat ∧
      (t.rd (.mbx (piBox p)) Reg.intRaw_RAW).testBit 0 = true := by
  refine ⟨_, exec_peerMessageArrival hp hu hf seq words, ?_, ?_, State.raise_sets _ _ (by decide)⟩
  · rw [State.slot, State.raise_mbx, ← State.slot, State.slot_modSlot, if_pos rfl]
  · rw [State.dataWords_setWords (by simp) ((State.modSlot_beside _ _ _ _).trans (.raise _ _ _ (.inr (by decide)))),
      List.map_map]
    exact List.map_congr_left fun w _ => Nat.mod_eq_of_lt w.isLt

/-- What a receipt of the peer leaves (R527, R528). -/
def State.takeReceipt (s : State) (p : PortId) (r : Receipt) : State :=
  let s1 := (s.takeCtrl p).modSlot (poBox p) fun x => { x with full := false }
  match r with
  | .read => s1.raise (.mbx (poBox p)) 0
  | .ack code seq => (s1.setWord (.mbx (poBox p)) 0x150 (code.toNat + seq.toNat * 2 ^ 16 + 2 ^ 31)).raise (.mbx (poBox p)) 1
  | .cancelled => s1

theorem exec_peerReceiptArrival (hp : s.dev.powered = true) (hu : s.linkUp p = true) (r : Receipt) :
    exec (.peerReceiptArrival p r) s = .next (s.takeReceipt p r) := by
  simp only [exec, execPeerReceiptArrival, live_of_powered hp, hu, if_true]
  cases r <;> rfl

theorem State.slot_takeReceipt (s : State) (p : PortId) (r : Receipt) : ((s.takeReceipt p r).slot (poBox p)).full = false := by
  unfold State.takeReceipt
  dsimp only
  cases r <;> simp [State.slot]

/-- A receipt of the peer clears FULL of POp; an acknowledgement fills MBX_ACK_STAT (R527, R528). -/
theorem peerReceiptClears (hp : s.dev.powered = true) (hu : s.linkUp p = true) (r : Receipt) :
    ∃ t, exec (.peerReceiptArrival p r) s = .next t ∧ (t.slot (poBox p)).full = false ∧
      (∀ code seq, r = .ack code seq →
        t.word (.mbx (poBox p)) 0x150 = code.toNat + seq.toNat * 2 ^ 16 + 2 ^ 31) := by
  refine ⟨_, exec_peerReceiptArrival hp hu r, s.slot_takeReceipt p r, ?_⟩
  · rintro code seq rfl
    unfold State.takeReceipt
    dsimp only
    rw [State.word_raise_other _ (by decide) (.inr (by decide)), State.word_setWord_same]
    have := code.isLt
    have := seq.isLt
    exact Nat.mod_eq_of_lt (by omega)

/-- A remote lock request of the farrier shows its page, lock and operation in RLOCK. -/
def State.showRlock (s : State) (p : PortId) (page : BitVec 12) (lock : Fin 4) (release : Bool) : State :=
  (((s.wr (.hlk p) Reg.hlkRlock_PAGE page.toNat).wr (.hlk p) Reg.hlkRlock_LOCK lock).wr (.hlk p)
    Reg.hlkRlock_OP (bit release)).wr (.hlk p) Reg.hlkRlock_LOST 0

theorem State.rlock_up (hu : s.linkUp p = true) (hb : s.flag (.hlk p) Reg.hlkRlock_BUSY = false) (page : BitVec 12)
    (lock : Fin 4) (release : Bool) : s.rlock .farrier p page lock release =
      ((((s.showRlock p page lock release).wr (.hlk p) Reg.hlkRlock_BUSY 1).modPort p fun x =>
        { x with lockSent := true })).sendCtrl p (.lockRequest page lock release) := by
  have hl : (s.showRlock p page lock release).linkUp p = true := by
    have off (u : State) (f : Fld) (v : Nat) (hf : f.lo + f.w ≤ 32) (ho : f.off < 4096)
        (hne : f.off ≠ Reg.hlkStat_LINK.off) :
        (u.wr (.hlk p) f v).rd (.hlk p) Reg.hlkStat_LINK = u.rd (.hlk p) Reg.hlkStat_LINK :=
      State.rd_wr_off _ _ hf (by decide) ho (by decide) (.inl hne.symm)
    unfold State.linkUp State.showRlock
    rw [off _ _ _ (by decide) (by decide) (by decide), off _ _ _ (by decide) (by decide) (by decide),
      off _ _ _ (by decide) (by decide) (by decide), off _ _ _ (by decide) (by decide) (by decide)]
    exact hu
  unfold State.rlock
  simp only [hb, Bool.not_false, and_self, if_true]
  exact if_pos hl

/-- A request of the farrier for a lock of a peer on an UP port goes out with BUSY set (R529, R537). -/
theorem State.rlock_sends (hu : s.linkUp p = true) (hb : s.flag (.hlk p) Reg.hlkRlock_BUSY = false) (page : BitVec 12)
    (lock : Fin 4) (release : Bool) (h : s.rlock .farrier p page lock release = t) :
    t.rd (.hlk p) Reg.hlkRlock_BUSY = 1 ∧ t.rd (.hlk p) Reg.hlkRlock_PAGE = page.toNat ∧
      ∃ l, Tab.get [] (t.port p).egress 0 = l ++ [{ body := .ctrl (.lockRequest page lock release), bytes := 16 }] := by
  rw [State.rlock_up hu hb] at h
  subst h
  have rd (u : State) (m : CtrlMsg) (f : Fld) : (u.sendCtrl p m).rd (.hlk p) f = u.rd (.hlk p) f := rfl
  refine ⟨?_, ?_, State.sendCtrl_egress _ p nofun⟩
  · rw [rd, State.rd_modPort, State.rd_wr_same _ _ _ (by decide)]
    rfl
  · rw [rd, State.rd_modPort, State.rd_wr_off _ _ (by decide) (by decide) (by decide) (by decide) (by decide)]
    unfold State.showRlock
    rw [State.rd_wr_off _ _ (by decide) (by decide) (by decide) (by decide) (by decide),
      State.rd_wr_off _ _ (by decide) (by decide) (by decide) (by decide) (by decide),
      State.rd_wr_off _ _ (by decide) (by decide) (by decide) (by decide) (by decide), State.rd_wr_same _ _ _ (by decide)]
    exact Nat.mod_eq_of_lt page.isLt

/-- A peer's request for a lock is performed under the peer's tag and answered (R529). -/
theorem rlockRequestPerformed (hp : s.dev.powered = true) (hu : s.linkUp p = true) (page : BitVec 12) (lock : Fin 4)
    {q : Page} (hq : hubPage? page.toNat = some q) :
    ∃ t, exec (.rlockRequestArrival p page lock false) s = .next t ∧
      t.lockOwner q lock = (if s.lockOwner q lock = 0 then masterTag (.peer p) else s.lockOwner q lock) ∧
      ∃ l, Tab.get [] (t.port p).egress 0 =
        l ++ [{ body := .ctrl (.lockReply (BitVec.ofNat 8 (s.lockOwner q lock))), bytes := 16 }] := by
  let u := s.takeCtrl p
  have hv : (u.acquire q lock (masterTag (.peer p))).1 = s.lockOwner q lock := u.acquire_value q lock _
  refine ⟨(u.acquire q lock (masterTag (.peer p))).2.sendCtrl p (.lockReply (BitVec.ofNat 8 (s.lockOwner q lock))), ?_,
    u.lockOwner_acquire q lock (masterTag_lt _), State.sendCtrl_egress _ p nofun⟩
  rw [← hv]
  simp only [exec, execRlockRequestArrival, live_of_powered hp, hu, hq, if_true, Bool.false_eq_true, if_false]
  rfl

theorem exec_rlockReply (hp : s.dev.powered = true) (value : Byte) (hb : s.flag (.hlk p) Reg.hlkRlock_BUSY = true) :
    exec (.rlockReply p value) s = .next (((((s.takeCtrl p).wr (.hlk p) Reg.hlkRlock_RESULT value.toNat).wr (.hlk p)
      Reg.hlkRlock_BUSY 0).modPort p fun x => { x with lockSent := false }).raise (.hlk p) 3) := by
  simp only [exec, execRlockReply, live_of_powered hp, hb, if_true]

/-- The peer's answer ends BUSY (R537). -/
theorem rlockReplyEndsBusy (hp : s.dev.powered = true) (value : Byte)
    (hb : s.flag (.hlk p) Reg.hlkRlock_BUSY = true) :
    ∃ t, exec (.rlockReply p value) s = .next t ∧ t.rd (.hlk p) Reg.hlkRlock_BUSY = 0 ∧
      t.rd (.hlk p) Reg.hlkRlock_RESULT = value.toNat ∧ (t.rd (.hlk p) Reg.intRaw_RAW).testBit 3 = true := by
  refine ⟨_, exec_rlockReply hp value hb, ?_, ?_, State.raise_sets _ _ (by decide)⟩
  · rw [State.rd_raise_off _ _ (by decide) (by decide) (by decide), State.rd_modPort, State.rd_wr_same _ _ _ (by decide)]
    rfl
  · rw [State.rd_raise_off _ _ (by decide) (by decide) (by decide), State.rd_modPort,
      State.rd_wr_off _ _ (by decide) (by decide) (by decide) (by decide) (by decide), State.rd_wr_same _ _ _ (by decide)]
    exact Nat.mod_eq_of_lt value.isLt

/-- Settles O11. -/
theorem peerMailboxesAndLocks : Obligations.PeerMailboxesAndLocks := by
  intro p s hp
  refine ⟨fun seq words hu hf => peerMessageLands hp hu hf seq words, fun r hu => peerReceiptClears hp hu r,
    fun page lock hu hb => ⟨⟨_, ?_, State.rlock_sends hu hb page lock false rfl⟩,
      ⟨_, ?_, State.rlock_sends hu hb page lock true rfl⟩⟩,
    fun page lock q hu hq => rlockRequestPerformed hp hu page lock hq, fun value hb => rlockReplyEndsBusy hp value hb⟩
  · simp only [exec, execRlockAcquire, live_of_powered hp]
  · simp only [exec, execRlockRelease, live_of_powered hp]

end Sys2Proof.Machine
end

section
/-!
## Blocks start and stop (R579, R580)
-/

namespace Sys2Proof.Machine

variable {s : State} {p : Page} {m : Master}

theorem enFld_eq (p : Page) : enFld p = Reg.ringCtl_EN ∨ enFld p = Reg.blkCtrl_EN ∨ enFld p = Reg.hlkCfg_EN ∧ p ≠ .hif := by
  unfold enFld
  split
  · exact .inl rfl
  · exact .inr (.inr ⟨rfl, nofun⟩)
  · exact .inr (.inl rfl)

theorem enFld_bounds (p : Page) : (enFld p).lo = 0 ∧ (enFld p).w = 1 ∧ (enFld p).off < 4096 ∧
    (enFld p).off ≠ Reg.blkState_STATE.off ∧ (enFld p).off ∉ logWords ∧
      (p ≠ .hif ∨ (enFld p).off ≠ Reg.hifReady_HUB_READY.off) := by
  obtain h | h | ⟨h, hp⟩ := enFld_eq p
  · rw [h]
    exact ⟨rfl, rfl, by decide, by decide, by decide, .inr (by decide)⟩
  · rw [h]
    exact ⟨rfl, rfl, by decide, by decide, by decide, .inr (by decide)⟩
  · rw [h]
    exact ⟨rfl, rfl, by decide, by decide, by decide, .inl hp⟩

theorem State.rd_showHub (s : State) {f : Fld} (hw : f.lo + f.w ≤ 32) (ho : f.off < 4096)
    (h : p ≠ .hif ∨ f.off ≠ Reg.hifReady_HUB_READY.off) : s.showHub.rd p f = s.rd p f :=
  State.rd_wr_other s _ (by decide) hw (by decide) ho (h.imp id .inl)

theorem State.rd_showHubOf (s : State) (q : Page) {f : Fld} (hw : f.lo + f.w ≤ 32) (ho : f.off < 4096)
    (h : p ≠ .hif ∨ f.off ≠ Reg.hifReady_HUB_READY.off) : (s.showHubOf q).rd p f = s.rd p f := by
  unfold State.showHubOf
  split
  · exact s.rd_showHub hw ho h
  · rfl

theorem State.blk_setBlk (s : State) (p : Page) {v : Nat} (hv : v < 4) : (s.setBlk p v).blk p = v := by
  rw [State.blk, State.setBlk, State.rd_wr_same _ _ _ (by decide)]
  exact Nat.mod_eq_of_lt hv

theorem State.blk_showHubOf (s : State) (q : Page) : (s.showHubOf q).blk p = s.blk p :=
  s.rd_showHubOf q (by decide) (by decide) (.inr (by decide))

/-- EN as a write leaves it. -/
theorem State.rd_wr_enFld (s : State) (p : Page) (on : Bool) : (s.wr p (enFld p) (bit on)).rd p (enFld p) = bit on := by
  obtain ⟨hlo, hw, -⟩ := enFld_bounds p
  rw [State.rd_wr_same _ _ _ (by omega), hw]
  cases on <;> rfl

/-- A write of EN leaves STATE and what stands beside it. -/
theorem State.rd_state_wr_enFld (s : State) (p : Page) (v : Nat) {f : Fld} (hw : f.lo + f.w ≤ 32)
    (ho : f.off = Reg.blkState_STATE.off) : (s.wr p (enFld p) v).rd p f = s.rd p f := by
  obtain ⟨hlo, hwe, hoff, hne, -⟩ := enFld_bounds p
  exact State.rd_wr_off s p (by omega) hw hoff (by rw [ho]; decide) (.inl (by rw [ho]; exact hne.symm))

/-- A write beside STATE leaves EN. -/
theorem State.rd_enFld_wr (s : State) (p : Page) (v : Nat) {f : Fld} (hw : f.lo + f.w ≤ 32)
    (ho : f.off = Reg.blkState_STATE.off) : (s.wr p f v).rd p (enFld p) = s.rd p (enFld p) := by
  obtain ⟨hlo, hwe, hoff, hne, -⟩ := enFld_bounds p
  exact State.rd_wr_off s p hw (by omega) (by rw [ho]; decide) hoff (.inl (by rw [ho]; exact hne))

theorem State.rd_setBlockRun (s : State) (p q : Page) (b : BlockRun) (f : Fld) :
    (s.setBlockRun p b).rd q f = s.rd q f := rfl

/-- What a block's own registers show as it enters STARTING. -/
def State.showStarting (s : State) (p : Page) : State :=
  ((s.setBlk p blkStarting).wr p Reg.blkState_START_ENDED 0).wr p Reg.blkState_REARM 0

theorem State.rd_enterStarting (s : State) {f : Fld} (hw : f.lo + f.w ≤ 32) (ho : f.off < 4096)
    (h : p ≠ .hif ∨ f.off ≠ Reg.hifReady_HUB_READY.off) : (s.enterStarting p).rd p f = (s.showStarting p).rd p f := by
  unfold State.enterStarting
  dsimp only
  split
  · next c r =>
    rw [State.rd_modRing, State.rd_wr_page _ (by simp), State.rd_wr_page _ (by simp), State.rd_wr_page _ (by simp),
      State.rd_wr_page _ (by simp), State.rd_setBlockRun]
    rfl
  · rw [State.rd_showHubOf _ _ hw ho h, State.rd_setBlockRun]
    rfl

theorem State.blk_enterStarting (s : State) (p : Page) : (s.enterStarting p).blk p = blkStarting := by
  rw [State.blk, State.rd_enterStarting s (by decide) (by decide) (.inr (by decide)), State.showStarting,
    State.rd_wr_off _ _ (by decide) (by decide) (by decide) (by decide) (by decide),
    State.rd_wr_off _ _ (by decide) (by decide) (by decide) (by decide) (by decide)]
  exact s.blk_setBlk p (by decide)

theorem State.rearm_enterStarting (s : State) (p : Page) : (s.enterStarting p).rd p Reg.blkState_REARM = 0 := by
  rw [State.rd_enterStarting s (by decide) (by decide) (.inr (by decide)), State.showStarting,
    State.rd_wr_same _ _ _ (by decide)]
  rfl

theorem State.enFld_enterStarting (s : State) (p : Page) : (s.enterStarting p).rd p (enFld p) = s.rd p (enFld p) := by
  obtain ⟨hlo, hw, ho, hne, -, hif⟩ := enFld_bounds p
  rw [State.rd_enterStarting s (by omega) ho hif]
  unfold State.showStarting State.setBlk
  rw [State.rd_enFld_wr _ _ _ (by decide) (by rfl), State.rd_enFld_wr _ _ _ (by decide) (by rfl),
    State.rd_enFld_wr _ _ _ (by decide) (by rfl)]

theorem State.enterStopping_of_notPort (h : NotPort p) (s : State) : s.enterStopping p = (s.setBlk p blkStopping).showHubOf p := by
  unfold State.enterStopping
  split
  · exact absurd rfl (h _)
  · rfl

theorem exec_enableSet (hp : s.dev.powered = true) (hw : s.writable m p 8 = true) :
    exec (.enableSet m p) s = .next ((s.logWrite m p 8 1).enable p true) := by
  simp only [exec, execEnableSet, live_of_powered hp, hw, if_true]

theorem exec_enableClear (hp : s.dev.powered = true) (hw : s.writable m p 8 = true) :
    exec (.enableClear m p) s = .next ((s.logWrite m p 8 0).enable p false) := by
  simp only [exec, execEnableClear, live_of_powered hp, hw, if_true]

/-- EN written 1, on a state that the record of the write has left. -/
theorem State.enable_set (s : State) (p : Page) : (s.enable p true).rd p (enFld p) = 1 ∧
    (s.enable p true).blk p = (if s.blk p = blkOff then blkStarting else s.blk p) ∧
    (s.blk p = blkStopping → (s.enable p true).rd p Reg.blkState_REARM = 1) := by
  obtain ⟨hlo, hw, ho, hne, -, -⟩ := enFld_bounds p
  unfold State.enable
  simp only [if_true]
  split
  · next h =>
    exact ⟨by rw [State.enFld_enterStarting, State.rd_wr_enFld]; rfl, State.blk_enterStarting _ p,
      fun h' => absurd (h.symm.trans h') (by decide)⟩
  · split
    · next h =>
      refine ⟨?_, ?_, fun _ => ?_⟩
      · rw [State.rd_enFld_wr _ _ _ (by decide) (by rfl), State.rd_wr_enFld]
        rfl
      · rw [State.blk, State.rd_wr_off _ _ (by decide) (by decide) (by decide) (by decide) (by decide)]
        exact State.rd_state_wr_enFld s p _ (by decide) rfl
      · rw [State.rd_wr_same _ _ _ (by decide)]
        rfl
    · next h => exact ⟨by rw [State.rd_wr_enFld]; rfl, State.rd_state_wr_enFld s p _ (by decide) rfl, fun h' => absurd h' h⟩

/-- EN written 0, on a page that is no port's. -/
theorem State.enable_clear (s : State) (hn : NotPort p) : (s.enable p false).rd p (enFld p) = 0 ∧
    (s.enable p false).blk p = (if s.blk p = blkOn then blkStopping else s.blk p) ∧
    (s.blk p = blkStopping → (s.enable p false).rd p Reg.blkState_REARM = 0) ∧
    (s.blk p = blkStarting → ((s.enable p false).blockRun p).ended = true) := by
  obtain ⟨hlo, hw, ho, hne, -, hif⟩ := enFld_bounds p
  have en : (s.wr p (enFld p) (bit false)).rd p (enFld p) = 0 := s.rd_wr_enFld p false
  have blk : (s.wr p (enFld p) (bit false)).blk p = s.blk p := State.rd_state_wr_enFld s p _ (by decide) rfl
  unfold State.enable
  simp only [Bool.false_eq_true, if_false, State.enterStopping_of_notPort hn]
  split
  · next h =>
    refine ⟨?_, ?_, fun h' => absurd (h.symm.trans h') (by decide), fun h' => absurd (h.symm.trans h') (by decide)⟩
    · rw [State.rd_showHubOf _ _ (by omega) ho hif, State.setBlk,
        State.rd_enFld_wr _ _ _ (by decide) (by rfl), en]
    · rw [State.blk_showHubOf, State.blk_setBlk _ _ (by decide)]
  · split
    · next h =>
      refine ⟨?_, ?_, fun _ => ?_, fun h' => absurd (h.symm.trans h') (by decide)⟩
      · rw [State.rd_enFld_wr _ _ _ (by decide) (by rfl), en]
      · rw [State.blk, State.rd_wr_off _ _ (by decide) (by decide) (by decide) (by decide) (by decide)]
        exact blk
      · rw [State.rd_wr_same _ _ _ (by decide)]
        rfl
    · split
      · next h _ =>
        split
        · exact absurd rfl (hn _)
        · exact ⟨en, blk, fun h' => absurd h' h, fun _ => by simp [State.blockRun, State.setBlockRun]⟩
      · next h h' => exact ⟨en, blk, fun h'' => absurd h'' h, fun h'' => absurd h'' h'⟩

/-- The record of a host's write leaves the registers of a block's state. -/
theorem State.rd_logWrite_block (s : State) (m : Master) (p : Page) (off v : Nat) :
    (s.logWrite m p off v).blk p = s.blk p :=
  (s.logWrite_beside m p p off v).rd (f := Reg.blkState_STATE) (by decide)

theorem enableSet : Rules.EnableSet := by
  intro m p s hp hw
  obtain ⟨hen, hblk, hre⟩ := (s.logWrite m p 8 1).enable_set p
  rw [State.rd_logWrite_block] at hblk hre
  exact ⟨_, exec_enableSet hp hw, hen, hblk, hre⟩

theorem enableClear : Rules.EnableClear := by
  intro m p s hp hw hn
  obtain ⟨hen, hblk, hre, hend⟩ := (s.logWrite m p 8 0).enable_clear hn
  rw [State.rd_logWrite_block] at hblk hre hend
  exact ⟨_, exec_enableClear hp hw, hen, hblk, hre, hend⟩

/-- A step of a start, by whether EN has ended the start and whether the step is the last one. -/
theorem exec_blockStartStep (hp : s.dev.powered = true) (hn : NotPort p) (hb : s.blk p = blkStarting)
    (hm : s.mayStart p = true) (ok : Bool) (h : ok = true ∨ (s.blockRun p).ended = true) :
    exec (.blockStartStep p ok) s = .next
      (if (s.blockRun p).ended then ((s.wr p Reg.blkState_START_ENDED 1).setBlockRun p {}).setBlk p blkStopping
      else if (s.blockRun p).steps + 1 < startSteps p then s.setBlockRun p { steps := (s.blockRun p).steps + 1 }
      else ((s.setBlockRun p {}).setBlk p blkOn).showHubOf p) := by
  cases he : (s.blockRun p).ended with
  | true =>
    simp [exec, execBlockStartStep, live_of_powered hp, hb, hm, he]
    intro hport
    split at hport
    · exact absurd rfl (hn _)
    · cases hport
  | false =>
    obtain rfl : ok = true := h.resolve_right (by simp [he])
    simp [exec, execBlockStartStep, live_of_powered hp, hb, hm, he]
    intro hport
    split at hport
    · exact absurd rfl (hn _)
    · cases hport

theorem blockStartStep : Rules.BlockStartStep := by
  intro p s hp hn hb hm
  refine ⟨fun he => ⟨_, exec_blockStartStep hp hn hb hm true (.inl rfl), ?_⟩,
    fun ok he => ⟨_, exec_blockStartStep hp hn hb hm ok (.inr he), ?_⟩⟩
  · rw [he, if_neg Bool.false_ne_true]
    split
    · exact hb
    · rw [State.blk_showHubOf, State.blk_setBlk _ _ (by decide)]
  · rw [he, if_pos rfl]
    refine ⟨State.blk_setBlk _ _ (by decide), ?_⟩
    rw [State.setBlk, State.rd_wr_off _ _ (by decide) (by decide) (by decide) (by decide) (by decide), State.rd_setBlockRun,
      State.rd_wr_same _ _ _ (by decide)]
    rfl

theorem exec_blockStopDone (hp : s.dev.powered = true) (hn : NotPort p) (hb : s.blk p = blkStopping)
    (hs : s.stopped p = true) : exec (.blockStopDone p) s = .next
      (if s.flag p Reg.blkState_REARM then ((s.setBlk p blkOff).wr p Reg.blkState_REARM 0).enterStarting p
      else ((s.setBlk p blkOff).wr p Reg.blkState_REARM 0).showHubOf p) := by
  simp [exec, execBlockStopDone, live_of_powered hp, hb, hs]
  intro hport
  split at hport
  · exact absurd rfl (hn _)
  · cases hport

theorem blockStopDone : Rules.BlockStopDone := by
  intro p s hp hn hb hs
  refine ⟨_, exec_blockStopDone hp hn hb hs, ?_⟩
  split
  · exact ⟨State.blk_enterStarting _ p, State.rearm_enterStarting _ p⟩
  · refine ⟨?_, ?_⟩
    · rw [State.blk_showHubOf, State.blk, State.rd_wr_off _ _ (by decide) (by decide) (by decide) (by decide) (by decide)]
      exact s.blk_setBlk p (by decide)
    · rw [State.rd_showHubOf _ _ (by decide) (by decide) (.inr (by decide)), State.rd_wr_same _ _ _ (by decide)]
      rfl

/-- Settles O16. -/
theorem blockStates : Obligations.BlockStates := ⟨enableSet, enableClear, blockStartStep, blockStopDone⟩

end Sys2Proof.Machine
end

section
/-!
## Registers of gaits, power states and clocks (R567 to R577, R658 to R660)
-/

namespace Sys2Proof.Machine

variable {s t u : State} {c : Ch} {m : Master}

/-- A step that changes registers alone. -/
def State.RegsOnly (s t : State) : Prop := t = { s with regs := t.regs }

theorem State.RegsOnly.refl : s.RegsOnly s := rfl

theorem State.RegsOnly.wr (h : s.RegsOnly t) (p : Page) (f : Fld) (v : Nat) : s.RegsOnly (t.wr p f v) := by
  unfold State.RegsOnly at h ⊢
  rw [State.wr_eq t p f v]
  generalize (t.wr p f v).regs = rs
  rw [h]

theorem State.stopClock_regsOnly (s : State) (c : Nat) : s.RegsOnly (s.stopClock c) := (State.RegsOnly.refl.wr _ _ _).wr _ _ _

theorem State.rd_stopClock (s : State) (c : Nat) {p : Page} (hp : p ≠ .clk) (f : Fld) : (s.stopClock c).rd p f = s.rd p f := by
  rw [State.stopClock, State.rd_wr_page _ hp, State.rd_wr_page _ hp]

theorem State.arithOn_stopClock (s : State) (c : Ch) : (s.stopClock c).arithOn c = false := by
  have hc := c.isLt
  have h : (s.stopClock c).rd .clk (Reg.clkArith_LOCKED c) = 0 := by
    unfold State.stopClock Reg.clkArith_LOCKED Reg.clkArith_FREQ
    simp (disch := (dsimp only; omega)) only [State.rd_wr_off, State.rd_wr_same]
    rfl
  rw [State.arithOn, State.flag, h]
  rfl

theorem gaitFreq_lt (g : Nat) : gaitFreq g < 4 := by
  unfold gaitFreq
  split
  · decide
  · split <;> decide

theorem State.lockPll_runs (s : State) (c : Ch) {freq : Nat} (hf : freq < 4) :
    (s.lockPll c freq).arithOn c = true ∧ (s.lockPll c freq).rd .clk (Reg.clkArith_FREQ c) = freq := by
  have hc := c.isLt
  have h : (s.lockPll c freq).rd .clk (Reg.clkArith_LOCKED c) = 1 := by
    unfold State.lockPll Reg.clkArith_LOCKED Reg.clkArith_FREQ
    simp (disch := (dsimp only; omega)) only [State.rd_wr_off, State.rd_wr_same]
    rfl
  refine ⟨by rw [State.arithOn, State.flag, h]; rfl, ?_⟩
  rw [State.lockPll, State.rd_wr_same _ _ _ (show 1 + 2 ≤ 32 by decide)]
  exact Nat.mod_eq_of_lt hf

theorem State.rd_lockPll (s : State) (c freq : Nat) {p : Page} (hp : p ≠ .clk) (f : Fld) :
    (s.lockPll c freq).rd p f = s.rd p f := by
  rw [State.lockPll, State.rd_wr_page _ hp, State.rd_wr_page _ hp]

theorem State.gait_congr (h : ∀ f, t.rd .pwr f = s.rd .pwr f) (c : Nat) :
    t.gait c = s.gait c ∧ t.changing c = s.changing c ∧ t.pstate c = s.pstate c ∧ t.requested c = s.requested c := by
  simp only [State.gait, State.changing, State.pstate, State.requested, State.flag, h, and_self]

theorem State.arithOn_congr (h : ∀ f, t.rd .clk f = s.rd .clk f) (c : Nat) : t.arithOn c = s.arithOn c := by
  simp only [State.arithOn, State.flag, h]

/-- A request in PWR_CH_CTL leaves what PWR_CH_STAT shows. -/
theorem State.rd_wr_ctl (s : State) (c : Ch) {f g : Fld} {v : Nat} (hf : f.lo + f.w ≤ 32) (hg : g.lo + g.w ≤ 32)
    (of : f.off = 0x100 + 8 * c.val) (og : g.off = 0x104 + 8 * c.val) : (s.wr .pwr f v).rd .pwr g = s.rd .pwr g := by
  have hc := c.isLt
  exact State.rd_wr_off s _ hf hg (by omega) (by omega) (.inl (by omega))

end Sys2Proof.Machine
end

section
/-!
## Sleep, park and wake (R574, R576, R577)
-/

namespace Sys2Proof.Machine

variable {s t : State} {c : Ch} {m : Master}

theorem State.startWake_chans (s : State) (c : Nat) : s.startWake c = { s with chans := (s.startWake c).chans } := by
  unfold State.startWake
  split <;> rfl

theorem State.rd_startWake (s : State) (c : Nat) (p : Page) (f : Fld) : (s.startWake c).rd p f = s.rd p f := by
  rw [s.startWake_chans c]
  rfl

/-- A wake is under way once it begins on a channel that rests. -/
theorem State.waking_startWake (s : State) (c : Nat) : ((s.startWake c).chan c).waking = true ↔
    (s.chan c).waking = true ∨ s.pstate c = 1 ∨ s.pstate c = 2 := by
  unfold State.startWake
  split
  · next h =>
    simp only [Bool.and_eq_true, Bool.or_eq_true, decide_eq_true_eq] at h
    simp [h.1]
  · next h =>
    simp only [Bool.and_eq_true, Bool.or_eq_true, decide_eq_true_eq, Bool.not_eq_true', not_and, Bool.not_eq_false] at h
    exact ⟨.inl, fun k => k.elim id h⟩

theorem exec_requestPower (hp : s.dev.powered = true) (hw : s.writable m .pwr (ctlOff c) = true) :
    exec (.sleepRequest m c) s = .next (s.wr .pwr (Reg.pwrChCtl_PSTATE c) 1) ∧
      exec (.parkRequest m c) s = .next (s.wr .pwr (Reg.pwrChCtl_PSTATE c) 2) ∧
      exec (.runRequest m c) s = .next ((s.wr .pwr (Reg.pwrChCtl_PSTATE c) 0).startWake c) := by
  simp only [exec, execSleepRequest, execParkRequest, execRunRequest, live_of_powered hp, State.requestPower, hw, if_true,
    id_eq, and_self]

/-- RUN is requested: the request stands in PSTATE, and a channel that rests wakes. -/
theorem State.runRequested (s : State) (c : Ch) : let t := (s.wr .pwr (Reg.pwrChCtl_PSTATE c) 0).startWake c
    t.rd .pwr (Reg.pwrChCtl_PSTATE c) = 0 ∧
      ((t.chan c).waking = true ↔ (s.chan c).waking = true ∨ s.pstate c = 1 ∨ s.pstate c = 2) := by
  have hps : (s.wr .pwr (Reg.pwrChCtl_PSTATE c) 0).pstate c = s.pstate c := s.rd_wr_ctl c (show 2 + 2 ≤ 32 by decide) (show 3 + 2 ≤ 32 by decide) rfl rfl
  refine ⟨?_, ?_⟩
  · rw [State.rd_startWake, State.rd_wr_same _ _ _ (show 2 + 2 ≤ 32 by decide)]
    rfl
  · rw [State.waking_startWake, hps, State.chan_congr (State.wr_chans ..)]

theorem exec_sleepEntry (hp : s.dev.powered = true) : exec (.sleepEntry c) s = .next (if s.maySleep c then
    (((s.stopClock c).wr .pwr (Reg.pwrChStat_PSTATE c) 1).wr (.hbmc c) Reg.hbmcStat_SELF_REFRESH 1).wr (.grm c)
      Reg.grmStat_ASLEEP 1 else s) := by
  simp only [exec, execSleepEntry, live_of_powered hp]

theorem exec_parkEntry (hp : s.dev.powered = true) : exec (.parkEntry c) s = .next (if s.mayPark c then
    ((s.stopClock c).wr .pwr (Reg.pwrChStat_PSTATE c) 2).wr (.grm c) Reg.grmStat_RUNNING 0 else s) := by
  simp only [exec, execParkEntry, live_of_powered hp]

theorem State.pstate_wr (s : State) (c : Nat) {v : Nat} (hv : v < 4) :
    (s.wr .pwr (Reg.pwrChStat_PSTATE c) v).pstate c = v := by
  rw [State.pstate, State.rd_wr_same _ _ _ (show 3 + 2 ≤ 32 by decide)]
  exact Nat.mod_eq_of_lt hv

theorem powerRequests : Rules.PowerRequests := by
  intro c s hp
  refine ⟨fun m hw => ?_, ⟨_, exec_sleepEntry hp, fun h => ?_, fun h => by rw [h]; rfl⟩,
    ⟨_, exec_parkEntry hp, fun h => ?_, fun h => by rw [h]; rfl⟩⟩
  · obtain ⟨hsleep, hpark, hrun⟩ := exec_requestPower hp hw
    exact ⟨hsleep, hpark, _, hrun, s.runRequested c⟩
  · rw [h, if_pos rfl]
    refine ⟨?_, ?_, ?_, ?_, (((s.stopClock_regsOnly c).wr _ _ _).wr _ _ _).wr _ _ _⟩
    · rw [State.pstate, State.rd_wr_page _ (by nofun), State.rd_wr_page _ (by nofun), ← State.pstate, State.pstate_wr _ _ (by decide)]
    · rw [← s.arithOn_stopClock c]
      exact State.arithOn_congr (fun f => by
        rw [State.rd_wr_page _ (by nofun), State.rd_wr_page _ (by nofun), State.rd_wr_page _ (by nofun)]) c
    · rw [State.rd_wr_page _ (by nofun), State.rd_wr_same _ _ _ (by decide)]
      rfl
    · rw [State.rd_wr_same _ _ _ (by decide)]
      rfl
  · rw [h, if_pos rfl]
    refine ⟨?_, ?_, ?_, ((s.stopClock_regsOnly c).wr _ _ _).wr _ _ _⟩
    · rw [State.pstate, State.rd_wr_page _ (by nofun), ← State.pstate, State.pstate_wr _ _ (by decide)]
    · rw [← s.arithOn_stopClock c]
      exact State.arithOn_congr (fun f => by rw [State.rd_wr_page _ (by nofun), State.rd_wr_page _ (by nofun)]) c
    · rw [State.rd_wr_same _ _ _ (by decide)]
      rfl

theorem exec_wakeEvent (hp : s.dev.powered = true) (hs : s.pstate c = 1) (cause : WakeCause) :
    exec (.wakeEvent c cause) s = .next (if s.wakes c cause then s.startWake c else s) := by
  simp [exec, execWakeEvent, live_of_powered hp, hs]

/-- A wake ends: it is counted and signalled. -/
def State.wakeEnds (s : State) (c : Nat) : State :=
  ((s.modChan c fun x => { x with waking := false, settled := false }).bump .pwr Reg.pwrCnt_WAKES).raise .pwr 3

/-- What a channel that leaves ASLEEP, or PARKED, brings up. -/
def State.runsAgain (s : State) (c : Ch) (gait : Nat) : State :=
  (((s.lockPll c (gaitFreq gait)).wr .pwr (Reg.pwrChStat_PSTATE c) 0).wr (.hbmc c) Reg.hbmcStat_SELF_REFRESH 0).wr
    (.grm c) Reg.grmStat_ASLEEP 0
def State.startsGroom (s : State) (c : Ch) : State :=
  ((s.wr .pwr (Reg.pwrChStat_PSTATE c) 3).setMode c true).setChState c chGroomBoot

theorem exec_wakeComplete (hp : s.dev.powered = true) : exec (.wakeComplete c) s = .next
    (if !(s.chan c).waking || (s.lent && !(s.chan c).settled) then s
    else if s.pstate c = 1 then (s.wakeEnds c).runsAgain c (s.gait c) else (s.wakeEnds c).startsGroom c) := by
  simp only [exec, execWakeComplete, live_of_powered hp]
  rfl

theorem State.rd_wakeEnds (s : State) (c : Nat) {p : Page} (hp : p ≠ .pwr) (f : Fld) :
    (s.wakeEnds c).rd p f = s.rd p f := by
  rw [State.wakeEnds, State.rd_raise_page _ hp, State.rd_bump_page _ hp, State.rd_modChan]

theorem State.wakeEnds_counts (s : State) (c : Nat) :
    (s.wakeEnds c).rd .pwr Reg.pwrCnt_WAKES = min (s.rd .pwr Reg.pwrCnt_WAKES + 1) (2 ^ 8 - 1) ∧
      ((s.wakeEnds c).rd .pwr Reg.intRaw_RAW).testBit 3 = true := by
  refine ⟨?_, State.raise_sets _ _ (by decide)⟩
  rw [State.wakeEnds, State.rd_raise_off _ _ (by decide) (by decide) (by decide), State.rd_bump_same _ _ _ (by decide)]
  rfl

/-- Registers of PWR that the end of a wake leaves beside PSTATE. -/
theorem State.rd_runsAgain (s : State) (c : Ch) (g : Nat) {f : Fld} (hw : f.lo + f.w ≤ 32) (ho : f.off < 4096)
    (h : f.off ≠ 0x104 + 8 * c.val) : (s.runsAgain c g).rd .pwr f = s.rd .pwr f := by
  have hc := c.isLt
  rw [State.runsAgain, State.rd_wr_page _ (by nofun), State.rd_wr_page _ (by nofun),
    State.rd_wr_off _ _ (show 3 + 2 ≤ 32 by decide) hw (show 0x104 + 8 * c.val < 4096 by omega) ho (.inl h),
    State.rd_lockPll _ _ _ (by nofun)]

theorem State.rd_startsGroom (s : State) (c : Ch) {f : Fld} (hw : f.lo + f.w ≤ 32) (ho : f.off < 4096)
    (h : f.off ≠ 0x104 + 8 * c.val) : (s.startsGroom c).rd .pwr f = s.rd .pwr f := by
  have hc := c.isLt
  rw [State.startsGroom, (State.setChState_moves .refl c chGroomBoot .refl : Moves ⟨false, _, _⟩ _ _).rd_eq (by decide),
    State.setMode, State.rd_wr_page _ (by nofun), State.rd_wr_page _ (by nofun),
    State.rd_wr_off _ _ (show 3 + 2 ≤ 32 by decide) hw (show 0x104 + 8 * c.val < 4096 by omega) ho (.inl h)]

theorem State.runsAgain_shows (s : State) (c : Ch) (g : Nat) : let t := s.runsAgain c g
    t.pstate c = 0 ∧ t.arithOn c = true ∧ t.rd .clk (Reg.clkArith_FREQ c) = gaitFreq g ∧
      t.rd (.hbmc c) Reg.hbmcStat_SELF_REFRESH = 0 ∧ t.rd (.grm c) Reg.grmStat_ASLEEP = 0 := by
  obtain ⟨hon, hfreq⟩ := s.lockPll_runs c (gaitFreq_lt g)
  have clk (f : Fld) : (s.runsAgain c g).rd .clk f = (s.lockPll c (gaitFreq g)).rd .clk f := by
    rw [State.runsAgain, State.rd_wr_page _ (by nofun), State.rd_wr_page _ (by nofun), State.rd_wr_page _ (by nofun)]
  refine ⟨?_, (State.arithOn_congr clk c).trans hon, (clk _).trans hfreq, ?_, ?_⟩
  · rw [State.pstate, State.runsAgain, State.rd_wr_page _ (by nofun), State.rd_wr_page _ (by nofun), ← State.pstate,
      State.pstate_wr _ _ (by decide)]
  · rw [State.runsAgain, State.rd_wr_page _ (by nofun), State.rd_wr_same _ _ _ (by decide)]
    rfl
  · rw [State.runsAgain, State.rd_wr_same _ _ _ (by decide)]
    rfl

theorem State.startsGroom_shows (s : State) (c : Ch) :
    (s.startsGroom c).pstate c = 3 ∧ (s.startsGroom c).chState c = chGroomBoot := by
  refine ⟨?_, State.chState_setChState _ c (by decide)⟩
  rw [State.pstate, State.startsGroom,
    (State.setChState_moves .refl c chGroomBoot .refl : Moves ⟨false, _, _⟩ _ _).rd_eq (by decide), State.setMode,
    State.rd_wr_page _ (by nofun), State.rd_wr_page _ (by nofun), ← State.pstate, State.pstate_wr _ _ (by decide)]

/-- A wake that ends is over, counted and signalled, whichever way the channel comes up. -/
theorem wakeCounted {t : State} (hrd : ∀ f : Fld, f.lo + f.w ≤ 32 → f.off < 4096 → f.off ≠ 0x104 + 8 * c.val →
      t.rd .pwr f = (s.wakeEnds c).rd .pwr f) (hch : t.chans = (s.wakeEnds c).chans) :
    (t.chan c).waking = false ∧ t.rd .pwr Reg.pwrCnt_WAKES = min (s.rd .pwr Reg.pwrCnt_WAKES + 1) (2 ^ 8 - 1) ∧
      (t.rd .pwr Reg.intRaw_RAW).testBit 3 = true := by
  have hc := c.isLt
  obtain ⟨hcnt, hraw⟩ := s.wakeEnds_counts c
  refine ⟨?_, ?_, ?_⟩
  · rw [State.chan_congr hch, State.wakeEnds, State.chan_congr (State.raise_chans ..), State.chan_congr (State.bump_chans ..),
      State.chan_modChan, if_pos rfl]
  · rw [hrd _ (by decide) (by decide) (by show 0x148 ≠ _; omega), hcnt]
  · rw [hrd _ (by decide) (by decide) (by show 0x10 ≠ _; omega)]
    exact hraw

theorem wakes : Rules.Wakes := by
  intro c s hp
  refine ⟨fun cause hs => ⟨_, exec_wakeEvent hp hs cause, ?_, ?_⟩, fun hw hl hst => ?_, fun hw hl => ?_⟩
  · split
    · next h => simp [State.waking_startWake, hs, h]
    · next h => simp [h]
  · split
    · exact s.startWake_chans c
    · rfl
  · rw [exec_wakeComplete hp, hw, hl, hst]
    rfl
  · have hgo : (!(s.chan c).waking || (s.lent && !(s.chan c).settled)) = false := by
      obtain h | h := hl <;> simp [hw, h]
    have he := exec_wakeComplete (c := c) hp
    rw [hgo, if_neg Bool.false_ne_true] at he
    refine ⟨_, he, ?_⟩
    have stores := exec_sameStores he rfl
    split
    · next h =>
      rw [if_pos h] at stores
      obtain ⟨hwk, hcnt, hraw⟩ := wakeCounted (s := s) (c := c) (t := (s.wakeEnds c).runsAgain c (s.gait c))
        (fun f h1 h2 h3 => State.rd_runsAgain _ c _ h1 h2 h3) (by simp [State.runsAgain, State.lockPll])
      exact ⟨hwk, hcnt, hraw, stores, fun _ => State.runsAgain_shows _ c _, fun h' => absurd h h'⟩
    · next h =>
      rw [if_neg h] at stores
      obtain ⟨hwk, hcnt, hraw⟩ := wakeCounted (s := s) (c := c) (t := (s.wakeEnds c).startsGroom c)
        (fun f h1 h2 h3 => State.rd_startsGroom _ c h1 h2 h3)
        ((State.setChState_moves (State.setMode_moves (State.wr_moves .refl _ _ _ (by decide)) c true (by decide)) c chGroomBoot
          (by decide) : Moves ⟨false, [.out, .msix], [.pwr, .mbx, .hif]⟩ _ _).parts .chans (by decide))
      exact ⟨hwk, hcnt, hraw, stores, fun h' => absurd h' h, fun _ => State.startsGroom_shows _ c⟩

/-- Settles O52. -/
theorem powerStates : Obligations.PowerStates := ⟨powerRequests, wakes⟩

end Sys2Proof.Machine
end

section
/-!
## Gaits and PLLs (R567 to R572, R655)
-/

namespace Sys2Proof.Machine

variable {s t u : State} {c : Ch} {m : Master}

/-- The gait of a channel changes: CHANGING is set, the loan of GALLOP ends, and the clock stops where it changes. -/
def State.gaitStarts (s : State) (c : Nat) : State :=
  let s1 := (s.wr .pwr (Reg.pwrChStat_CHANGING c) 1).modChan c fun x => { x with gaitTo := s.requested c }
  let s2 := if s.gait c = gGallop then s1.wr .pwr (Reg.pwrChStat_LOAN_W c) 0 else s1
  if gaitFreq (s.gait c) = gaitFreq (s.requested c) then s2 else s2.stopClock c

theorem State.startGait_stays (h : s.gait c = s.requested c ∨ ¬ GaitMayStart s c) : s.startGait c = s := by
  unfold State.startGait
  dsimp only
  rw [if_pos]
  obtain h | h := h
  · simp [h]
  · by_contra hn
    refine h ?_
    simp only [Bool.or_eq_true, Bool.not_eq_true', decide_eq_true_eq, not_or, Bool.not_eq_true, Bool.not_eq_false] at hn
    obtain ⟨⟨⟨⟨⟨-, hch⟩, hr⟩, hps⟩, hon⟩, hsv⟩ := hn
    exact ⟨hch, hr, not_not.mp hps, hon, hsv⟩

theorem State.startGait_starts (h : s.gait c ≠ s.requested c) (hm : GaitMayStart s c) : s.startGait c = s.gaitStarts c := by
  obtain ⟨hch, hr, hps, hon, hsv⟩ := hm
  unfold State.startGait
  dsimp only
  rw [if_neg (by simp [h, hch, hr, hps, hon, hsv])]
  rfl

/-- What the start of a gait change leaves: every register but CHANGING and LOAN_W of the channel, and its clock's. -/
theorem State.rd_gaitStarts (s : State) (c : Ch) {p : Page} (hp : p ≠ .clk) {f : Fld} (hw : f.lo + f.w ≤ 32)
    (ho : f.off < 4096) (h : p ≠ .pwr ∨ f.off ≠ 0x104 + 8 * c.val ∨ f.lo + f.w ≤ 2 ∨ 17 ≤ f.lo) :
    (s.gaitStarts c).rd p f = s.rd p f := by
  have hc := c.isLt
  have changing (u : State) : (u.wr .pwr (Reg.pwrChStat_CHANGING c) 1).rd p f = u.rd p f :=
    State.rd_wr_other u _ (show 2 + 1 ≤ 32 by decide) hw (show 0x104 + 8 * c.val < 4096 by omega) ho
      (h.imp id fun h => (show f.off ≠ 0x104 + 8 * c.val ∨ f.lo + f.w ≤ 2 ∨ 2 + 1 ≤ f.lo by omega))
  have loan (u : State) : (u.wr .pwr (Reg.pwrChStat_LOAN_W c) 0).rd p f = u.rd p f :=
    State.rd_wr_other u _ (show 11 + 6 ≤ 32 by decide) hw (show 0x104 + 8 * c.val < 4096 by omega) ho
      (h.imp id fun h => (show f.off ≠ 0x104 + 8 * c.val ∨ f.lo + f.w ≤ 11 ∨ 11 + 6 ≤ f.lo by omega))
  have start : (if s.gait c = gGallop then
      ((s.wr .pwr (Reg.pwrChStat_CHANGING c) 1).modChan c fun x => { x with gaitTo := s.requested c }).wr .pwr
        (Reg.pwrChStat_LOAN_W c) 0
      else (s.wr .pwr (Reg.pwrChStat_CHANGING c) 1).modChan c fun x => { x with gaitTo := s.requested c }).rd p f =
        s.rd p f := by
    split
    · rw [loan, State.rd_modChan, changing]
    · rw [State.rd_modChan, changing]
  unfold State.gaitStarts
  dsimp only
  split
  · exact start
  · rw [State.rd_stopClock _ _ hp, start]

/-- A gait change under way: CHANGING, the gait that it leads to, LOAN_W, and the clock. -/
theorem State.gaitStarts_shows (s : State) (c : Ch) : let t := s.gaitStarts c
    t.changing c = true ∧ (t.chan c).gaitTo = s.requested c ∧
      t.rd .pwr (Reg.pwrChStat_LOAN_W c) = (if s.gait c = gGallop then 0 else s.rd .pwr (Reg.pwrChStat_LOAN_W c)) ∧
      (s.arithOn c = true → t.arithOn c = decide (gaitFreq (s.gait c) = gaitFreq (s.requested c))) := by
  have hc := c.isLt
  let s1 := (s.wr .pwr (Reg.pwrChStat_CHANGING c) 1).modChan c fun x => { x with gaitTo := s.requested c }
  let s2 := if s.gait c = gGallop then s1.wr .pwr (Reg.pwrChStat_LOAN_W c) 0 else s1
  have ht : s.gaitStarts c = if gaitFreq (s.gait c) = gaitFreq (s.requested c) then s2 else s2.stopClock c := rfl
  have pwr (f : Fld) : (s.gaitStarts c).rd .pwr f = s2.rd .pwr f := by
    rw [ht]
    split
    · rfl
    · exact s2.rd_stopClock c (by decide) f
  have chans : (s.gaitStarts c).chan c = s1.chan c := by
    rw [ht]
    refine State.chan_congr ?_ c
    split <;> simp only [s2, State.stopClock] <;> split <;> simp
  refine ⟨?_, ?_, ?_, fun hon => ?_⟩
  · have h1 : s1.rd .pwr (Reg.pwrChStat_CHANGING c) = 1 := s.rd_wr_same _ _ (show 2 + 1 ≤ 32 by decide)
    have h2 : s2.rd .pwr (Reg.pwrChStat_CHANGING c) = 1 := by
      simp only [s2]
      split
      · rw [State.rd_wr_off _ _ (show 11 + 6 ≤ 32 by decide) (show 2 + 1 ≤ 32 by decide)
          (show 0x104 + 8 * c.val < 4096 by omega) (show 0x104 + 8 * c.val < 4096 by omega)
          (.inr (.inl (show 2 + 1 ≤ 11 by decide))), h1]
      · exact h1
    rw [State.changing, State.flag, pwr, h2]
    rfl
  · rw [chans, State.chan_modChan, if_pos rfl]
  · rw [pwr]
    simp only [s2]
    split
    · rw [State.rd_wr_same _ _ _ (show 11 + 6 ≤ 32 by decide)]
      rfl
    · exact State.rd_wr_off s _ (show 2 + 1 ≤ 32 by decide) (show 11 + 6 ≤ 32 by decide)
        (show 0x104 + 8 * c.val < 4096 by omega) (show 0x104 + 8 * c.val < 4096 by omega)
        (.inr (.inr (show 2 + 1 ≤ 11 by decide)))
  · have h2 : s2.arithOn c = true := by
      rw [← hon]
      refine State.arithOn_congr (fun f => ?_) c
      simp only [s2]
      split
      · rw [State.rd_wr_page _ (by decide), State.rd_modChan, State.rd_wr_page _ (by decide)]
      · rw [State.rd_modChan, State.rd_wr_page _ (by decide)]
    rw [ht]
    split
    · next h => rw [h2, decide_eq_true h]
    · next h => rw [State.arithOn_stopClock, decide_eq_false h]

/-- Whatever a start of a gait change does, it leaves every register but CHANGING and LOAN_W of the channel, and its
clock's. -/
theorem State.rd_startGait (s : State) (c : Ch) {p : Page} (hp : p ≠ .clk) {f : Fld} (hw : f.lo + f.w ≤ 32)
    (ho : f.off < 4096) (h : p ≠ .pwr ∨ f.off ≠ 0x104 + 8 * c.val ∨ f.lo + f.w ≤ 2 ∨ 17 ≤ f.lo) :
    (s.startGait c).rd p f = s.rd p f := by
  by_cases hs : s.gait c = s.requested c ∨ ¬ GaitMayStart s c
  · rw [State.startGait_stays hs]
  · obtain ⟨hne, hm⟩ := not_or.mp hs
    rw [State.startGait_starts hne (not_not.mp hm), State.rd_gaitStarts s c hp hw ho h]

theorem State.gait_startGait (s : State) (c d : Ch) : (s.startGait c).gait d = s.gait d :=
  s.rd_startGait c (by decide) (show 0 + 2 ≤ 32 by decide) (by have := d.isLt; show 0x104 + 8 * d.val < 4096; omega)
    (.inr (.inr (.inl (show 0 + 2 ≤ 2 by decide))))

theorem State.requested_startGait (s : State) (c : Ch) : (s.startGait c).requested c = s.requested c := by
  have hc := c.isLt
  exact s.rd_startGait c (by decide) (show 0 + 2 ≤ 32 by decide) (show 0x100 + 8 * c.val < 4096 by omega)
    (.inr (.inl (show 0x100 + 8 * c.val ≠ 0x104 + 8 * c.val by omega)))

theorem State.engine_startGait (s : State) (c d e : Nat) : (s.startGait c).engine d e = s.engine d e := by
  have h : ∃ g, (s.startGait c).chans = s.chans ∨ (s.startGait c).chans =
      (s.modChan c fun x => { x with gaitTo := g }).chans := by
    refine ⟨s.requested c, ?_⟩
    unfold State.startGait
    dsimp only
    split
    · exact .inl rfl
    · refine .inr ?_
      split <;> split <;> simp [State.stopClock, State.modChan, State.setChan, State.chan]
  obtain ⟨g, h | h⟩ := h
  · rw [State.engine, State.chan_congr h, State.engine]
  · rw [State.engine, State.chan_congr h, State.chan_modChan]
    split
    · next e => rw [e]; rfl
    · rfl

theorem gaitCode_lt (g : Gait) : gaitCode g < 4 := by cases g <;> decide

/-- A request of a gait leaves what decides whether a change may start. -/
theorem gaitMayStart_request (s : State) (c : Ch) (v : Nat) :
    GaitMayStart (s.wr .pwr (Reg.pwrChCtl_GAIT c) v) c ↔ GaitMayStart s c := by
  have pwr {g : Fld} (hg : g.lo + g.w ≤ 32) (og : g.off = 0x104 + 8 * c.val) :
      (s.wr .pwr (Reg.pwrChCtl_GAIT c) v).rd .pwr g = s.rd .pwr g := s.rd_wr_ctl c (show 0 + 2 ≤ 32 by decide) hg rfl og
  have page {p : Page} (hp : p ≠ .pwr) (f : Fld) : (s.wr .pwr (Reg.pwrChCtl_GAIT c) v).rd p f = s.rd p f :=
    State.rd_wr_page _ hp
  have slot (i : Nat) : (s.wr .pwr (Reg.pwrChCtl_GAIT c) v).slotState i = s.slotState i := page (by decide) _
  have hch : (s.wr .pwr (Reg.pwrChCtl_GAIT c) v).changing c = s.changing c := by
    rw [State.changing, State.flag, pwr (show 2 + 1 ≤ 32 by decide) rfl]
    rfl
  have hr : (s.wr .pwr (Reg.pwrChCtl_GAIT c) v).isReady c = s.isReady c := by
    rw [State.isReady, State.chState, page (by decide)]
    rfl
  have hps : (s.wr .pwr (Reg.pwrChCtl_GAIT c) v).pstate c = s.pstate c := pwr (show 3 + 2 ≤ 32 by decide) rfl
  have hon := State.arithOn_congr (fun f => page (p := .clk) (by decide) f) c
  have hsv : (s.wr .pwr (Reg.pwrChCtl_GAIT c) v).saving = s.saving := by
    simp only [State.saving, slot]
  rw [GaitMayStart, GaitMayStart, hch, hr, hps, hon, hsv]

theorem exec_gaitRequest (hp : s.dev.powered = true) (hw : s.writable m .pwr (ctlOff c) = true) (g : Gait) :
    exec (.gaitRequest m c g) s = .next ((s.wr .pwr (Reg.pwrChCtl_GAIT c) (gaitCode g)).startGait c) := by
  simp only [exec, execGaitRequest, live_of_powered hp, hw, if_true]

/-- GAIT_REQUEST: the request stands in GAIT, and the change starts where it may. -/
theorem gaitRequested (hp : s.dev.powered = true) (hw : s.writable m .pwr (ctlOff c) = true) (gait : Gait) :
    ∃ t, exec (.gaitRequest m c gait) s = .next t ∧ t.requested c = gaitCode gait ∧ t.gait c = s.gait c ∧ s.sameStores t ∧
      (s.gait c = gaitCode gait ∨ ¬ GaitMayStart s c → t = s.wr .pwr (Reg.pwrChCtl_GAIT c) (gaitCode gait)) ∧
      (s.gait c ≠ gaitCode gait → GaitMayStart s c → t.changing c = true ∧ (t.chan c).gaitTo = gaitCode gait ∧
        (s.gait c = gGallop → t.rd .pwr (Reg.pwrChStat_LOAN_W c) = 0) ∧
        t.arithOn c = decide (gaitFreq (s.gait c) = gaitFreq (gaitCode gait))) := by
  have he := exec_gaitRequest (c := c) hp hw gait
  have hreq : (s.wr .pwr (Reg.pwrChCtl_GAIT c) (gaitCode gait)).requested c = gaitCode gait := by
    rw [State.requested, State.rd_wr_same _ _ _ (show 0 + 2 ≤ 32 by decide)]
    exact Nat.mod_eq_of_lt (gaitCode_lt gait)
  have hgait : (s.wr .pwr (Reg.pwrChCtl_GAIT c) (gaitCode gait)).gait c = s.gait c :=
    s.rd_wr_ctl c (show 0 + 2 ≤ 32 by decide) (show 0 + 2 ≤ 32 by decide) rfl rfl
  have hon : (s.wr .pwr (Reg.pwrChCtl_GAIT c) (gaitCode gait)).arithOn c = s.arithOn c :=
    State.arithOn_congr (fun f => State.rd_wr_page _ (by decide)) c
  refine ⟨_, he, (State.requested_startGait _ c).trans hreq, (State.gait_startGait _ c c).trans hgait,
    exec_sameStores he rfl, fun h => State.startGait_stays ?_, fun hne hm => ?_⟩
  · rwa [hgait, hreq, gaitMayStart_request]
  · rw [State.startGait_starts (by rwa [hgait, hreq]) ((gaitMayStart_request s c _).mpr hm)]
    obtain ⟨hch, hto, hloan, hclk⟩ := (s.wr .pwr (Reg.pwrChCtl_GAIT c) (gaitCode gait)).gaitStarts_shows c
    rw [hgait, hreq, hon] at hclk
    rw [hgait] at hloan
    exact ⟨hch, hto.trans hreq, fun h => hloan.trans (if_pos h), hclk hm.2.2.2.1⟩

/-- The end of a gait change: the new gait is in force, and the change is counted, signalled and recorded. -/
def State.gaitEnds (s : State) (c : Nat) : State :=
  let new := (s.chan c).gaitTo
  let s1 := (s.wr .pwr (Reg.pwrChStat_GAIT c) new).wr .pwr (Reg.pwrChStat_CHANGING c) 0
  let s2 := if s.gait c = gWalk || s.gait c = gTrot then s1.modChan c Channel.unpair else s1
  ((s2.bump .pwr Reg.pwrCnt_GAIT_CHANGES).raise .pwr 0).logDec c 0x0b new

theorem exec_gaitChangeDone (hp : s.dev.powered = true) (hch : s.changing c = true) (hon : s.arithOn c = true)
    (hr : s.replayOn c = false) (hm : s.mayRecord c = true) :
    exec (.gaitChangeDone c) s = .next ((s.gaitEnds c).startGait c) := by
  simp only [exec, execGaitChangeDone, live_of_powered hp, State.early, hch, hon, hr, hm, Bool.not_true, Bool.false_and,
    Bool.or_self, Bool.false_eq_true, if_false]
  rfl

/-- The engines of a gait that paired slots lose their pairs (R570). -/
theorem Channel.engine_unpair (x : Channel) (e : Nat) : (x.unpair.engine e).paired = false := by
  obtain ⟨h, -⟩ | h := Tab.get_map ({} : Engine) x.engines (f := fun g => (g.1, { g.2 with
    paired := false
    tiles := g.2.tiles.map fun (t : Nat × TileSlot) => (t.1, { t.2 with mirrored := false }) })) (fun _ => rfl) e
  · exact (congrArg Engine.paired h).trans rfl
  · exact congrArg Engine.paired h

theorem State.gaitEnds_shows (s : State) (c : Ch) (hg : (s.chan c).gaitTo < 4) :
    let t := s.gaitEnds c
    t.gait c = (s.chan c).gaitTo ∧ t.changing c = false ∧ t.requested c = s.requested c ∧
      (t.rd .pwr Reg.intRaw_RAW).testBit 0 = true ∧
      t.rd .pwr Reg.pwrCnt_GAIT_CHANGES = min (s.rd .pwr Reg.pwrCnt_GAIT_CHANGES + 1) (2 ^ 8 - 1) ∧
      (s.gait c = gWalk ∨ s.gait c = gTrot → ∀ e, (t.engine c e).paired = false) := by
  have hc := c.isLt
  let s1 := (s.wr .pwr (Reg.pwrChStat_GAIT c) (s.chan c).gaitTo).wr .pwr (Reg.pwrChStat_CHANGING c) 0
  let s2 := if s.gait c = gWalk || s.gait c = gTrot then s1.modChan c Channel.unpair else s1
  have raised (f : Fld) : (s.gaitEnds c).rd .pwr f = ((s2.bump .pwr Reg.pwrCnt_GAIT_CHANGES).raise .pwr 0).rd .pwr f :=
    State.rd_logDec_page _ (by decide)
  have rd2 (f : Fld) : s2.rd .pwr f = s1.rd .pwr f := by
    simp only [s2]
    split <;> rfl
  have ctl {f : Fld} (hw : f.lo + f.w ≤ 32) (ho : f.off < 4096) (h : f.off ≠ 0x104 + 8 * c.val) :
      s1.rd .pwr f = s.rd .pwr f := by
    rw [State.rd_wr_off _ _ (show 2 + 1 ≤ 32 by decide) hw (show 0x104 + 8 * c.val < 4096 by omega) ho (.inl h),
      State.rd_wr_off _ _ (show 0 + 2 ≤ 32 by decide) hw (show 0x104 + 8 * c.val < 4096 by omega) ho (.inl h)]
  have stat {f : Fld} (hw : f.lo + f.w ≤ 32) (ho : f.off < 4096) (h1 : f.off ≠ 0x10) (h2 : f.off ≠ 0x148) :
      (s.gaitEnds c).rd .pwr f = s1.rd .pwr f := by
    rw [raised, State.rd_raise_off _ _ hw ho h1, State.rd_bump_off _ _ (by decide) hw (by decide) ho (.inl h2), rd2]
  refine ⟨?_, ?_, ?_, ?_, ?_, fun hold e => ?_⟩
  · rw [State.gait, stat (show 0 + 2 ≤ 32 by decide) (show 0x104 + 8 * c.val < 4096 by omega)
      (show 0x104 + 8 * c.val ≠ 0x10 by omega) (show 0x104 + 8 * c.val ≠ 0x148 by omega),
      State.rd_wr_off _ _ (show 2 + 1 ≤ 32 by decide) (show 0 + 2 ≤ 32 by decide)
        (show 0x104 + 8 * c.val < 4096 by omega) (show 0x104 + 8 * c.val < 4096 by omega)
        (.inr (.inl (show 0 + 2 ≤ 2 by decide))), State.rd_wr_same _ _ _ (show 0 + 2 ≤ 32 by decide)]
    exact Nat.mod_eq_of_lt hg
  · rw [State.changing, State.flag, stat (show 2 + 1 ≤ 32 by decide) (show 0x104 + 8 * c.val < 4096 by omega)
      (show 0x104 + 8 * c.val ≠ 0x10 by omega) (show 0x104 + 8 * c.val ≠ 0x148 by omega),
      State.rd_wr_same _ _ _ (show 2 + 1 ≤ 32 by decide)]
    rfl
  · rw [State.requested, stat (show 0 + 2 ≤ 32 by decide) (show 0x100 + 8 * c.val < 4096 by omega)
      (show 0x100 + 8 * c.val ≠ 0x10 by omega) (show 0x100 + 8 * c.val ≠ 0x148 by omega),
      ctl (show 0 + 2 ≤ 32 by decide) (show 0x100 + 8 * c.val < 4096 by omega)
      (show 0x100 + 8 * c.val ≠ 0x104 + 8 * c.val by omega)]
    rfl
  · rw [raised]
    exact State.raise_sets _ _ (by decide)
  · rw [raised, State.rd_raise_off _ _ (by decide) (by decide) (by decide), State.rd_bump_same _ _ _ (by decide), rd2,
      ctl (by decide) (by decide) (show 0x148 ≠ 0x104 + 8 * c.val by omega)]
    rfl
  · have chans : (s.gaitEnds c).chans = s2.chans :=
      (State.logDec_moves (State.raise_moves (State.bump_moves .refl _ _ _ (by decide)) _ _ (by decide) (by decide) (by decide))
        c 0x0b (s.chan c).gaitTo (by decide) : Moves ⟨false, [.out, .msix, .recorder], [.pwr, .rpl]⟩ s2 _).parts .chans
          (by decide)
    rw [State.engine, State.chan_congr chans]
    have h2 : s2 = s1.modChan c Channel.unpair := if_pos (by simpa using hold)
    rw [h2, State.chan_modChan, if_pos rfl]
    exact Channel.engine_unpair _ e

theorem gaitChangeEnds (hp : s.dev.powered = true) (hch : s.changing c = true) (hon : s.arithOn c = true)
    (hr : s.replayOn c = false) (hm : s.mayRecord c = true) (hg : (s.chan c).gaitTo < 4) :
    ∃ t, exec (.gaitChangeDone c) s = .next t ∧ t.gait c = (s.chan c).gaitTo ∧ s.sameStores t ∧
      (t.rd .pwr Reg.intRaw_RAW).testBit 0 = true ∧
      t.rd .pwr Reg.pwrCnt_GAIT_CHANGES = min (s.rd .pwr Reg.pwrCnt_GAIT_CHANGES + 1) (2 ^ 8 - 1) ∧
      (s.requested c = (s.chan c).gaitTo → t.changing c = false) ∧
      (s.gait c = gWalk ∨ s.gait c = gTrot → ∀ e : SlotId, (t.engine c e).paired = false) := by
  have he := exec_gaitChangeDone hp hch hon hr hm
  obtain ⟨hgait, hdone, hreq, hraw, hcnt, hpair⟩ := s.gaitEnds_shows c hg
  have hc := c.isLt
  refine ⟨_, he, (State.gait_startGait _ c c).trans hgait, exec_sameStores he rfl, ?_, ?_, fun h => ?_, fun hold e => ?_⟩
  · rwa [State.rd_startGait _ c (by decide) (by decide) (by decide) (.inr (.inl (show 0x10 ≠ 0x104 + 8 * c.val by omega)))]
  · rwa [State.rd_startGait _ c (by decide) (by decide) (by decide) (.inr (.inl (show 0x148 ≠ 0x104 + 8 * c.val by omega)))]
  · rw [State.startGait_stays (.inl (by rw [hgait, hreq, h]))]
    exact hdone
  · rw [State.engine_startGait]
    exact hpair hold e

theorem gaitChanges : Rules.GaitChanges :=
  fun _ _ hp => ⟨fun _ gait hw => gaitRequested hp hw gait,
    fun hch hon hr hm hg => gaitChangeEnds hp hch hon hr hm hg⟩

theorem exec_pllRelockDone (hp : s.dev.powered = true) (hu : s.railsUp = true) (hon : s.arithOn c = false)
    (h1 : s.pstate c ≠ 1) (h2 : s.pstate c ≠ 2) (ok : Bool) : exec (.pllRelockDone c ok) s = .next
      (if ok then ((s.lockPll c (gaitFreq (if s.changing c then (s.chan c).gaitTo else s.gait c))).bump .clk
        (Reg.clkArith_RELOCKS c)).raise .clk 0
      else s.modChan c fun x => { x with failing := x.failing.orElse fun _ => some 5 }) := by
  simp [exec, execPllRelockDone, live_of_powered hp, hu, hon, h1, h2]

/-- A relock is counted and signalled, and leaves the PLL as it runs. -/
theorem State.relocked_shows (s : State) (c : Ch) {freq : Nat} (hf : freq < 4) :
    let t := ((s.lockPll c freq).bump .clk (Reg.clkArith_RELOCKS c)).raise .clk 0
    t.arithOn c = true ∧ t.rd .clk (Reg.clkArith_FREQ c) = freq ∧
      t.rd .clk (Reg.clkArith_RELOCKS c) = min (s.rd .clk (Reg.clkArith_RELOCKS c) + 1) (2 ^ 8 - 1) ∧
      (t.rd .clk Reg.intRaw_RAW).testBit 0 = true ∧ s.sameWords t [.clk] := by
  have hc := c.isLt
  obtain ⟨hon, hfreq⟩ := s.lockPll_runs c hf
  have below {f : Fld} (hw : f.lo + f.w ≤ 8) (ho : f.off = 0x100 + 4 * c.val) :
      (((s.lockPll c freq).bump .clk (Reg.clkArith_RELOCKS c)).raise .clk 0).rd .clk f = (s.lockPll c freq).rd .clk f := by
    rw [State.rd_raise_off _ _ (by omega) (by omega) (by omega),
      State.rd_bump_off _ _ (show 8 + 8 ≤ 32 by decide) (by omega) (show 0x100 + 4 * c.val < 4096 by omega) (by omega)
        (.inr (.inl hw))]
  refine ⟨?_, (below (show 1 + 2 ≤ 8 by decide) rfl).trans hfreq, ?_, State.raise_sets _ _ (by decide), ?_⟩
  · rw [State.arithOn, State.flag, below (show 0 + 1 ≤ 8 by decide) rfl]
    exact hon
  · rw [State.rd_raise_off _ _ (show 8 + 8 ≤ 32 by decide) (show 0x100 + 4 * c.val < 4096 by omega)
      (show 0x100 + 4 * c.val ≠ 0x10 by omega), State.rd_bump_same _ _ _ (show 8 + 8 ≤ 32 by decide)]
    unfold State.lockPll Reg.clkArith_LOCKED Reg.clkArith_FREQ Reg.clkArith_RELOCKS
    simp (disch := (dsimp only; omega)) only [State.rd_wr_off]
  · exact ((((State.sameWords.refl.wr (by simp)).wr (by simp)).bump (by simp)).raise (by simp))

theorem exec_pllLockLost (hp : s.dev.powered = true) (hon : s.arithOn c = true) (hch : s.changing c = false) :
    exec (.pllLockLost c) s = .next ((s.stopClock c).raise .clk 1) := by
  simp [exec, execPllLockLost, live_of_powered hp, hon, hch]

theorem Option.orElse_some_eq (o : Option Nat) (n : Nat) : (o.orElse fun _ => some n) = some (o.getD n) := by
  cases o <;> rfl

theorem pllLocks : Rules.PllLocks := by
  intro c s hp
  refine ⟨fun hu hon h1 h2 => ⟨?_, ?_⟩, fun hon hch => ?_⟩
  · have he := exec_pllRelockDone hp hu hon h1 h2 true
    rw [if_pos rfl] at he
    obtain ⟨hrun, hfreq, hcnt, hraw, hwords⟩ :=
      s.relocked_shows c (gaitFreq_lt (if s.changing c then (s.chan c).gaitTo else s.gait c))
    exact ⟨_, he, hrun, hfreq, hcnt, hraw, hwords, 
      (State.raise_moves (State.bump_moves (State.lockPll_moves .refl c _ (by decide)) _ _ _ (by decide)) _ _ (by decide)
        (by decide) (by decide) : Moves ⟨false, [.out, .msix, .recorder], [.clk]⟩ s _).sameTables⟩
  · refine ⟨_, exec_pllRelockDone hp hu hon h1 h2 false, ?_, rfl⟩
    rw [if_neg Bool.false_ne_true, State.chan_modChan, if_pos rfl]
    exact Option.orElse_some_eq _ 5
  · have hc := c.isLt
    have he := exec_pllLockLost hp hon hch
    refine ⟨_, he, ?_, State.raise_sets _ _ (by decide), ?_, 
      (State.raise_moves (State.stopClock_moves .refl c (by decide)) _ _ (by decide) (by decide) (by decide) :
        Moves ⟨false, [.out, .msix, .recorder], [.clk]⟩ s _).sameTables⟩
    · rw [State.arithOn, State.flag, State.rd_raise_off _ _ (show 0 + 1 ≤ 32 by decide)
        (show 0x100 + 4 * c.val < 4096 by omega) (show 0x100 + 4 * c.val ≠ 0x10 by omega)]
      exact s.arithOn_stopClock c
    · exact (((State.sameWords.refl.wr (by simp)).wr (by simp)).raise (by simp))

/-- Settles O51. -/
theorem gaitsAndClocks : Obligations.GaitsAndClocks := ⟨gaitChanges, pllLocks⟩

end Sys2Proof.Machine
end

section
/-!
## The governor and UCIe errors (R573 to R575, R583, R584)
-/

namespace Sys2Proof.Machine

variable {s t u : State} {c : Ch}

/-! ## A period of the governor -/

/-- The loans of a period are shown, and a channel that wakes has seen a period pass. -/
def State.showLoan (s : State) (loan : Nat → Nat) (c : Nat) : State :=
  (s.wr .pwr (Reg.pwrChStat_LOAN_W c) (loan c)).modChan c fun x => { x with settled := x.waking }
def State.showLoans (s : State) (loan : Nat → Nat) : State := (List.range 4).foldl (fun s c => s.showLoan loan c) s

/-- The draws and duties of a period are shown. -/
def State.showDuty (s : State) (draw duty : Nat → Nat) (c : Nat) : State :=
  (s.wr .pwr (Reg.pwrChStat_DRAW_W c) (min (draw c) 255)).wr .pwr (Reg.pwrChStat_DUTY c) (duty c)
def State.showDuties (s : State) (draw duty : Nat → Nat) : State :=
  (List.range 4).foldl (fun s c => s.showDuty draw duty c) s

/-- The loan and the duty of a channel in a period. -/
def State.periodLoan (s : State) (c : Nat) : Nat := ((List.range 4).map s.loan).getD c 0
def State.periodDuty (s : State) (draw : Nat → Nat) (c : Nat) : Nat :=
  ((List.range 4).map fun c => (s.showLoans s.periodLoan).nextDuty c (draw c)).getD c 16

/-- What a period shows before gait changes start. -/
def State.governed (s : State) (draw : Nat → Nat) (board : Nat) : State :=
  (((s.showLoans s.periodLoan).showDuties draw (s.periodDuty draw)).wr .pwr Reg.pwrBoard_DRAW_W
    (min board 1023)).modDev fun d => { d with throttleRose := false }

theorem exec_governorPeriod (hp : s.dev.powered = true) (hu : s.railsUp = true) (draws : Vector Nat 4) (board : Nat) :
    exec (.governorPeriod draws board) s = .next
      ((List.range 4).foldl (fun s c => s.startGait c) (s.governed (fun c => draws.toList.getD c 0) board)) := by
  simp only [exec, execGovernorPeriod, live_of_powered hp, hu, Bool.not_true, Bool.false_eq_true, if_false]
  rfl

theorem ch_of_mem_range {y : Nat} (h : y ∈ List.range 4) : ∃ d : Ch, y = d.val := ⟨⟨y, List.mem_range.mp h⟩, rfl⟩

theorem getD_map_range {f : Nat → Nat} (c : Ch) (d : Nat) : ((List.range 4).map f).getD c d = f c := by
  have hc := c.isLt
  simp [List.getD, hc]

theorem State.rd_showLoan (s : State) (loan : Nat → Nat) (c : Ch) {p : Page} {f : Fld} (hw : f.lo + f.w ≤ 32)
    (ho : f.off < 4096) (h : p ≠ .pwr ∨ f.off ≠ 0x104 + 8 * c.val ∨ f.lo + f.w ≤ 11 ∨ 17 ≤ f.lo) :
    (s.showLoan loan c).rd p f = s.rd p f := by
  have hc := c.isLt
  rw [State.showLoan, State.rd_modChan, State.rd_wr_other _ _ (show 11 + 6 ≤ 32 by decide) hw
    (show 0x104 + 8 * c.val < 4096 by omega) ho h]

theorem State.rd_showDuty (s : State) (draw duty : Nat → Nat) (c : Ch) {p : Page} {f : Fld} (hw : f.lo + f.w ≤ 32)
    (ho : f.off < 4096) (h : p ≠ .pwr ∨ f.off ≠ 0x104 + 8 * c.val ∨ f.lo + f.w ≤ 17) :
    (s.showDuty draw duty c).rd p f = s.rd p f := by
  have hc := c.isLt
  rw [State.showDuty, State.rd_wr_other _ _ (show 17 + 5 ≤ 32 by decide) hw (show 0x104 + 8 * c.val < 4096 by omega) ho
      (h.imp id fun h => h.imp id .inl),
    State.rd_wr_other _ _ (show 22 + 8 ≤ 32 by decide) hw (show 0x104 + 8 * c.val < 4096 by omega) ho
      (h.imp id fun h => h.imp id fun h => .inl (show f.lo + f.w ≤ 22 by omega))]

/-- The loans of a period leave every register but LOAN_W. -/
theorem State.rd_showLoans (s : State) (loan : Nat → Nat) {p : Page} {f : Fld} (hw : f.lo + f.w ≤ 32) (ho : f.off < 4096)
    (h : p ≠ .pwr ∨ (∀ c : Ch, f.off ≠ 0x104 + 8 * c.val) ∨ f.lo + f.w ≤ 11 ∨ 17 ≤ f.lo) :
    (s.showLoans loan).rd p f = s.rd p f :=
  foldl_keeps (P := fun u : State => u.rd p f = s.rd p f) (fun u y hy hu => by
    obtain ⟨d, rfl⟩ := ch_of_mem_range hy
    rw [u.rd_showLoan loan d hw ho (h.imp id fun h => h.imp (· d) id), hu]) rfl

theorem State.loan_showLoans (s : State) {loan : Nat → Nat} (hl : loan c < 2 ^ 6) :
    (s.showLoans loan).rd .pwr (Reg.pwrChStat_LOAN_W c) = loan c := by
  have hc := c.isLt
  refine foldl_holds (P := fun u : State => u.rd .pwr (Reg.pwrChStat_LOAN_W c) = loan c) (List.mem_range.mpr hc)
    (fun u => ?_) (fun u y hy hu => ?_) s
  · rw [State.showLoan, State.rd_modChan, State.rd_wr_same _ _ _ (show 11 + 6 ≤ 32 by decide)]
    exact Nat.mod_eq_of_lt hl
  · obtain ⟨d, rfl⟩ := ch_of_mem_range hy
    by_cases hd : d = c
    · subst hd
      rw [State.showLoan, State.rd_modChan, State.rd_wr_same _ _ _ (show 11 + 6 ≤ 32 by decide)]
      exact Nat.mod_eq_of_lt hl
    · have hne := Fin.val_ne_of_ne hd
      rw [u.rd_showLoan loan d (show 11 + 6 ≤ 32 by decide) (show 0x104 + 8 * c.val < 4096 by omega)
        (.inr (.inl (show 0x104 + 8 * c.val ≠ 0x104 + 8 * d.val by omega))), hu]

/-- The draws and duties of a period leave every register but DRAW_W and DUTY. -/
theorem State.rd_showDuties (s : State) (draw duty : Nat → Nat) {p : Page} {f : Fld} (hw : f.lo + f.w ≤ 32)
    (ho : f.off < 4096) (h : p ≠ .pwr ∨ (∀ c : Ch, f.off ≠ 0x104 + 8 * c.val) ∨ f.lo + f.w ≤ 17) :
    (s.showDuties draw duty).rd p f = s.rd p f :=
  foldl_keeps (P := fun u : State => u.rd p f = s.rd p f) (fun u y hy hu => by
    obtain ⟨d, rfl⟩ := ch_of_mem_range hy
    rw [u.rd_showDuty draw duty d hw ho (h.imp id fun h => h.imp (· d) id), hu]) rfl

/-- A channel shows its draw and its duty. -/
def ShowsDuty (c : Ch) (draw duty : Nat) (u : State) : Prop :=
  u.rd .pwr (Reg.pwrChStat_DRAW_W c) = draw ∧ u.duty c = duty

theorem State.showDuty_shows (s : State) (draw : Nat → Nat) {duty : Nat → Nat} (hd : duty c < 2 ^ 5) :
    ShowsDuty c (min (draw c) 255) (duty c) (s.showDuty draw duty c) := by
  have hc := c.isLt
  refine ⟨?_, ?_⟩
  · rw [State.showDuty, State.rd_wr_off _ _ (show 17 + 5 ≤ 32 by decide) (show 22 + 8 ≤ 32 by decide)
      (show 0x104 + 8 * c.val < 4096 by omega) (show 0x104 + 8 * c.val < 4096 by omega)
      (.inr (.inr (show 17 + 5 ≤ 22 by decide))), State.rd_wr_same _ _ _ (show 22 + 8 ≤ 32 by decide)]
    exact Nat.mod_eq_of_lt (show min (draw c) 255 < 256 by omega)
  · rw [State.duty, State.showDuty, State.rd_wr_same _ _ _ (show 17 + 5 ≤ 32 by decide)]
    exact Nat.mod_eq_of_lt hd

theorem State.showDuties_shows (s : State) (draw : Nat → Nat) {duty : Nat → Nat} (hd : duty c < 2 ^ 5) :
    ShowsDuty c (min (draw c) 255) (duty c) (s.showDuties draw duty) := by
  have hc := c.isLt
  refine foldl_holds (P := ShowsDuty c (min (draw c) 255) (duty c)) (List.mem_range.mpr hc)
    (fun u => u.showDuty_shows draw hd) (fun u y hy hu => ?_) s
  obtain ⟨d, rfl⟩ := ch_of_mem_range hy
  by_cases hdc : d = c
  · subst hdc
    exact u.showDuty_shows draw hd
  · have hne := Fin.val_ne_of_ne hdc
    obtain ⟨h1, h2⟩ := hu
    exact ⟨(u.rd_showDuty draw duty d (show 22 + 8 ≤ 32 by decide) (show 0x104 + 8 * c.val < 4096 by omega)
        (.inr (.inl (show 0x104 + 8 * c.val ≠ 0x104 + 8 * d.val by omega)))).trans h1,
      (u.rd_showDuty draw duty d (show 17 + 5 ≤ 32 by decide) (show 0x104 + 8 * c.val < 4096 by omega)
        (.inr (.inl (show 0x104 + 8 * c.val ≠ 0x104 + 8 * d.val by omega)))).trans h2⟩

theorem State.loan_lt (s : State) (c : Nat) : s.loan c < 2 ^ 6 := by
  unfold State.loan
  split
  · exact Nat.lt_of_le_of_lt (Nat.min_le_left ..) (by decide)
  · decide

/-- DUTY of the next period, by the limit of the channel (R573, R575). -/
def dutyAfter (rose : Bool) (limit draw duty : Nat) : Nat :=
  if rose then 4 else if limit < draw then max 4 (duty - 1) else if draw + 5 ≤ limit then min 16 (duty + 1) else duty

theorem dutyAfter_lt (rose : Bool) (limit draw : Nat) {duty : Nat} (h : duty < 2 ^ 5) :
    dutyAfter rose limit draw duty < 2 ^ 5 := by
  unfold dutyAfter
  split
  · decide
  · split
    · omega
    · split <;> omega

/-- The power limit of a channel in a period (R573 to R575). -/
def State.periodLimit (s : State) (c : Nat) : Nat :=
  if s.throttled then min (gaitShare (s.gait c)) s.throttleLimit else gaitShare (s.gait c) + s.loan c

theorem State.duty_lt (s : State) (c : Nat) : s.duty c < 2 ^ 5 := by
  rw [State.duty, State.rd_narrow _ _ (show 17 + 5 ≤ 32 by decide)]
  exact bitsOf_lt ..

/-- With the loans shown, a channel's limit is that of the period. -/
theorem State.nextDuty_showLoans (s : State) (c : Ch) {loan : Nat → Nat} (hl : loan c = s.loan c) (draw : Nat) :
    (s.showLoans loan).nextDuty c draw = dutyAfter s.dev.throttleRose (s.periodLimit c) draw (s.duty c) := by
  have hc := c.isLt
  have hshare : (s.showLoans loan).gait c = s.gait c := s.rd_showLoans loan (show 0 + 2 ≤ 32 by decide)
    (show 0x104 + 8 * c.val < 4096 by omega) (.inr (.inr (.inl (show 0 + 2 ≤ 11 by decide))))
  have hduty : (s.showLoans loan).duty c = s.duty c := s.rd_showLoans loan (show 17 + 5 ≤ 32 by decide)
    (show 0x104 + 8 * c.val < 4096 by omega) (.inr (.inr (.inr (show 17 ≤ 17 by decide))))
  have hthr : (s.showLoans loan).throttled = s.throttled := by
    rw [State.throttled, State.flag, s.rd_showLoans loan (by decide) (by decide) (.inl (by decide))]
    rfl
  have hlim : (s.showLoans loan).throttleLimit = s.throttleLimit := by
    rw [State.throttleLimit, s.rd_showLoans loan (by decide) (by decide)
      (.inr (.inl fun d => (show 0x140 ≠ 0x104 + 8 * d.val by have := d.isLt; omega))), State.throttleLimit]
  have hdev : (s.showLoans loan).dev = s.dev :=
    foldl_keeps (P := fun u : State => u.dev = s.dev) (fun u y _ hu => by simp [State.showLoan, hu]) rfl
  rw [State.nextDuty, State.limit, hshare, hduty, hthr, hlim, hdev,
    s.loan_showLoans (by rw [hl]; exact s.loan_lt c), hl, dutyAfter, State.periodLimit]

/-- What a period shows of a channel before gait changes start. -/
theorem State.governed_shows (s : State) (draw : Nat → Nat) (board : Nat) (c : Ch) : let t := s.governed draw board
    ShowsDuty c (min (draw c) 255) (dutyAfter s.dev.throttleRose (s.periodLimit c) (draw c) (s.duty c)) t ∧
      t.gait c = s.gait c ∧ t.changing c = s.changing c ∧ t.rd .pwr (Reg.pwrChStat_LOAN_W c) = s.loan c := by
  have hc := c.isLt
  have hl : s.periodLoan c = s.loan c := getD_map_range c 0
  have hd : s.periodDuty draw c = dutyAfter s.dev.throttleRose (s.periodLimit c) (draw c) (s.duty c) :=
    (getD_map_range c 16).trans (s.nextDuty_showLoans c hl (draw c))
  have rd {f : Fld} (hw : f.lo + f.w ≤ 32) (ho : f.off = 0x104 + 8 * c.val) :
      (s.governed draw board).rd .pwr f = ((s.showLoans s.periodLoan).showDuties draw (s.periodDuty draw)).rd .pwr f := by
    rw [State.governed, State.rd_modDev]
    exact State.rd_wr_off _ _ (by decide) hw (by decide) (by omega) (.inl (show f.off ≠ 0x144 by omega))
  have rd17 {f : Fld} (hw : f.lo + f.w ≤ 17) (ho : f.off = 0x104 + 8 * c.val) :
      (s.governed draw board).rd .pwr f = (s.showLoans s.periodLoan).rd .pwr f := by
    rw [rd (by omega) ho, State.rd_showDuties _ _ _ (by omega) (by omega) (.inr (.inr hw))]
  obtain ⟨hdraw, hduty⟩ := (s.showLoans s.periodLoan).showDuties_shows (c := c) draw (duty := s.periodDuty draw)
    (by rw [hd]; exact dutyAfter_lt _ _ _ (s.duty_lt c))
  refine ⟨⟨?_, ?_⟩, ?_, ?_, ?_⟩
  · rw [rd (show 22 + 8 ≤ 32 by decide) rfl, hdraw]
  · rw [State.duty, rd (show 17 + 5 ≤ 32 by decide) rfl, ← hd]
    exact hduty
  · rw [State.gait, rd17 (show 0 + 2 ≤ 17 by decide) rfl, State.rd_showLoans _ _ (show 0 + 2 ≤ 32 by decide)
      (show 0x104 + 8 * c.val < 4096 by omega) (.inr (.inr (.inl (show 0 + 2 ≤ 11 by decide))))]
    rfl
  · rw [State.changing, State.flag, rd17 (show 2 + 1 ≤ 17 by decide) rfl,
      State.rd_showLoans _ _ (show 2 + 1 ≤ 32 by decide)
      (show 0x104 + 8 * c.val < 4096 by omega) (.inr (.inr (.inl (show 2 + 1 ≤ 11 by decide))))]
    rfl
  · rw [rd17 (show 11 + 6 ≤ 17 by decide) rfl, State.loan_showLoans _ (by rw [hl]; exact s.loan_lt c), hl]

/-! ## Gait changes at the end of a period -/

/-- Either no gait change of a channel has started, or one has, and it ended the loan of GALLOP. -/
def GaitMayHaveStarted (c : Ch) (s u : State) : Prop :=
  u.gait c = s.gait c ∧
    (u.changing c = s.changing c ∧ u.rd .pwr (Reg.pwrChStat_LOAN_W c) = s.rd .pwr (Reg.pwrChStat_LOAN_W c) ∨
      s.changing c = false ∧ u.changing c = true ∧
        u.rd .pwr (Reg.pwrChStat_LOAN_W c) = if s.gait c = gGallop then 0 else s.rd .pwr (Reg.pwrChStat_LOAN_W c))

theorem GaitMayHaveStarted.startGait {d : Ch} (h : GaitMayHaveStarted c s u) : GaitMayHaveStarted c s (u.startGait d) := by
  obtain ⟨hg, h⟩ := h
  refine ⟨(u.gait_startGait d c).trans hg, ?_⟩
  by_cases hs : u.gait d = u.requested d ∨ ¬ GaitMayStart u d
  · rw [State.startGait_stays hs]
    exact h
  obtain ⟨hne, hm⟩ := not_or.mp hs
  have hm := not_not.mp hm
  rw [State.startGait_starts hne hm]
  by_cases hd : d = c
  · subst hd
    obtain ⟨hch, hto, hloan, -⟩ := u.gaitStarts_shows d
    obtain ⟨hnot, -⟩ := hm
    obtain ⟨h1, h2⟩ | ⟨-, h1, -⟩ := h
    · exact .inr ⟨h1.symm.trans hnot, hch, by rw [hloan, hg, h2]⟩
    · exact absurd (hnot.symm.trans h1) (by decide)
  · have hne := Fin.val_ne_of_ne hd
    have hc := c.isLt
    have rd {f : Fld} (hw : f.lo + f.w ≤ 32) (ho : f.off = 0x104 + 8 * c.val) :
        (u.gaitStarts d).rd .pwr f = u.rd .pwr f :=
      u.rd_gaitStarts d (by decide) hw (by omega) (.inr (.inl (by omega)))
    have hch : (u.gaitStarts d).changing c = u.changing c := by
      rw [State.changing, State.flag, rd (show 2 + 1 ≤ 32 by decide) rfl]
      rfl
    rw [hch, rd (show 11 + 6 ≤ 32 by decide) rfl]
    exact h

/-- The gait changes that start leave every other register of PWR. -/
theorem State.rd_startGaits (s : State) {f : Fld} (hw : f.lo + f.w ≤ 32) (ho : f.off < 4096)
    (h : (∀ c : Ch, f.off ≠ 0x104 + 8 * c.val) ∨ f.lo + f.w ≤ 2 ∨ 17 ≤ f.lo) :
    ((List.range 4).foldl (fun s c => s.startGait c) s).rd .pwr f = s.rd .pwr f :=
  foldl_keeps (P := fun u : State => u.rd .pwr f = s.rd .pwr f) (fun u y hy hu => by
    obtain ⟨d, rfl⟩ := ch_of_mem_range hy
    rw [u.rd_startGait d (by decide) hw ho (.inr (h.imp (· d) id)), hu]) rfl

theorem State.dev_startGait (s : State) (c : Nat) : (s.startGait c).dev = s.dev :=
  (State.startGait_moves .refl c .refl : Moves ⟨false, _, _⟩ s _).parts .dev (by decide)

theorem governorPeriods : Rules.GovernorPeriods := by
  intro draws board s hp hu
  have he := exec_governorPeriod hp hu draws board
  refine ⟨_, he, ?_, ?_, exec_sameStores he rfl, fun c limit hlim => ?_⟩
  · rw [State.rd_startGaits _ (by decide) (by decide)
      (.inl fun d => (show 0x144 ≠ 0x104 + 8 * d.val by have := d.isLt; omega)), State.governed, State.rd_modDev,
      State.rd_wr_same _ _ _ (by decide)]
    exact Nat.mod_eq_of_lt (show min board 1023 < 1024 by omega)
  · exact foldl_keeps (P := fun u : State => u.dev.throttleRose = false) (fun u y _ h => by rw [u.dev_startGait, h]) rfl
  · have hc := c.isLt
    obtain ⟨⟨hdraw, hduty⟩, hgait, hch, hloan⟩ := s.governed_shows (fun c => draws.toList.getD c 0) board c
    have hd : draws.toList.getD c.val 0 = draws[c] := by
      simp [List.getD]
    have hper : s.periodLimit c = limit := hlim.symm
    rw [hd] at hdraw hduty
    obtain ⟨hg, hstart⟩ := foldl_keeps (f := fun (s : State) (c : Nat) => s.startGait c) (l := List.range 4)
      (P := GaitMayHaveStarted c (s.governed (fun c => draws.toList.getD c 0) board)) (fun u y hy h => by
        obtain ⟨d, rfl⟩ := ch_of_mem_range hy
        exact h.startGait) ⟨rfl, .inl ⟨rfl, rfl⟩⟩
    rw [hch, hloan, hgait] at hstart
    refine ⟨?_, hg.trans hgait, ?_, ?_⟩
    · rw [State.rd_startGaits _ (show 22 + 8 ≤ 32 by decide) (show 0x104 + 8 * c.val < 4096 by omega)
        (.inr (.inr (show 17 ≤ 22 by decide))), hdraw]
    · obtain ⟨h1, h2⟩ | ⟨h1, h2, h3⟩ := hstart
      · rw [if_neg fun h => absurd (h.2.1.symm.trans (h1.trans h.1)) (by decide), h2]
      · rw [h3]
        simp only [h1, h2, true_and]
    · rw [State.duty, State.rd_startGaits _ (show 17 + 5 ≤ 32 by decide) (show 0x104 + 8 * c.val < 4096 by omega)
        (.inr (.inr (show 17 ≤ 17 by decide))), ← State.duty, hduty, hper]
      rfl

theorem State.rd_bump_other (s : State) {p q : Page} {f g : Fld} {n : Nat} (hf : f.lo + f.w ≤ 32) (hg : g.lo + g.w ≤ 32)
    (of : f.off < 4096) (og : g.off < 4096) (h : q ≠ p ∨ g.off ≠ f.off ∨ g.lo + g.w ≤ f.lo ∨ f.lo + f.w ≤ g.lo) :
    (s.bump p f n).rd q g = s.rd q g := State.rd_wr_other s _ hf hg of og h

/-! ## Errors of blocks (R584, R656) -/

/-- A corrected error counts on the block's page. -/
theorem State.corrected_counts (s : State) (p : Page) : (s.corrected p).rd p Reg.errCntCorr_COUNT =
    min (s.rd p Reg.errCntCorr_COUNT + 1) (2 ^ Reg.errCntCorr_COUNT.w - 1) := State.rd_bump_same _ _ _ (by decide)

theorem State.corrected_regsOnly (s : State) (p : Page) : s.RegsOnly (s.corrected p) := by
  unfold State.corrected State.bump
  exact State.RegsOnly.refl.wr _ _ _

/-- A persistent error counts on the block's page and is signalled by RAS. -/
theorem State.persistent_counts (s : State) (p : Page) (code loc : Nat) :
    (s.persistent p code loc).rd p Reg.errCntUncorr_COUNT =
      min (s.rd p Reg.errCntUncorr_COUNT + 1) (2 ^ Reg.errCntUncorr_COUNT.w - 1) ∧
    ((s.persistent p code loc).rd .ras Reg.intRaw_RAW).testBit 4 = true := by
  refine ⟨?_, State.raise_sets _ _ (by decide)⟩
  unfold State.persistent
  dsimp only
  rw [State.rd_raise_other _ (by decide) (by decide) (.inr (by decide)),
    State.rd_bump_other _ (by decide) (by decide) (by decide) (by decide) (.inr (.inl (by decide))),
    State.rd_bump_same _ _ _ (by decide)]
  split
  · rw [State.rd_setWord_off _ _ (by decide) (by decide) (by decide) (by decide)]
  · rw [State.rd_setWord_off _ _ (by decide) (by decide) (by decide) (by decide)]

theorem exec_ucieLinkError (hp : s.dev.powered = true) (hm : s.mainUp = true) (hs : s.chState c ≠ chRetired)
    (a b : Bool) : exec (.ucieLinkError c a b) s = .next (if a || b then s.corrected (.grm c)
      else (s.persistent (.grm c) 0x03 0).modChan c fun x => { x with failing := x.failing.orElse fun _ => some 4 }) := by
  simp [exec, execUcieLinkError, live_of_powered hp, hm, hs]

theorem ucieErrors : Rules.UcieErrors := by
  intro c s hp hm hs
  refine ⟨fun a b h => ?_, ?_⟩
  · have he := exec_ucieLinkError hp hm hs a b
    rw [if_pos (by simpa using h)] at he
    exact ⟨_, he, s.corrected_counts _, State.sameWords.refl.corrected (by simp), s.corrected_regsOnly _⟩
  · have he := exec_ucieLinkError hp hm hs false false
    rw [if_neg (by decide)] at he
    obtain ⟨hcnt, hraw⟩ := s.persistent_counts (.grm c) 0x03 0
    refine ⟨_, he, ?_, ?_, ?_⟩
    · rw [State.chan_modChan, if_pos rfl, State.chan_congr (State.persistent_chans ..)]
      exact Option.orElse_some_eq _ 4
    · rw [State.rd_modChan, hcnt]
    · rw [State.rd_modChan]
      exact hraw

/-- Settles O53. -/
theorem governorAndUcie : Obligations.GovernorAndUcie := ⟨governorPeriods, ucieErrors⟩

end Sys2Proof.Machine
end

section
/-!
## Fields of pairs, and events of several bits (R18, R654)
-/

namespace Sys2Proof.Machine

/-- Of two fields of one pair of words, a write of the one leaves the other. -/
theorem State.rd_wr_pair_other (s : State) (p : Page) {f g : Fld} (v : Nat) (hf : 32 < f.lo + f.w) (hg : 32 < g.lo + g.w)
    (h64 : g.lo + g.w ≤ 64) (hoff : g.off = f.off) (ho : f.off + 4 < 4096)
    (h : g.lo + g.w ≤ f.lo ∨ f.lo + f.w ≤ g.lo) : (s.wr p f v).rd p g = s.rd p g := by
  have hsame : (s.wr p f v).word p f.off + (s.wr p f v).word p (f.off + 4) * 2 ^ 32 =
      setBits (s.word p f.off + s.word p (f.off + 4) * 2 ^ 32) f.lo f.w v % 2 ^ 64 := by
    unfold State.wr
    rw [if_neg (by omega)]
    dsimp only
    rw [State.word_setWord_same, State.word_setWord_other _ _ ho (by omega) (.inr (by omega)), State.word_setWord_same]
    generalize setBits _ f.lo f.w v = x
    unfold bitsOf
    omega
  have hcut (x : Nat) : bitsOf (x % 2 ^ 64) g.lo g.w = bitsOf x g.lo g.w := by
    refine Nat.eq_of_testBit_eq fun i => ?_
    rw [testBit_bitsOf, testBit_bitsOf, Nat.testBit_mod_two_pow]
    by_cases hi : i < g.w
    · simp [hi, show g.lo + i < 64 by omega]
    · simp [hi]
  unfold State.rd
  rw [if_neg (by omega), if_neg (by omega), hoff, hsame, hcut, bitsOf_setBits_other _ _ _ _ h]

theorem State.rd_raiseBits_raw (s : State) (p : Page) (bits : Nat) :
    (s.raiseBits p bits).rd p Reg.intRaw_RAW = (s.rd p Reg.intRaw_RAW ||| bits) % 2 ^ 32 := by
  simp only [State.raiseBits, State.rd_signalFrom]
  exact State.rd_wr_same _ _ _ (by decide)

theorem State.rd_raiseBits_off (s : State) (p : Page) {bits : Nat} {g : Fld} (hg : g.lo + g.w ≤ 32) (og : g.off < 4096)
    (h : g.off ≠ 0x10) : (s.raiseBits p bits).rd p g = s.rd p g := by
  simp only [State.raiseBits, State.rd_signalFrom]
  exact State.rd_wr_off _ _ (by decide) hg (by decide) og (.inl h)

end Sys2Proof.Machine
end

section
/-!
## The loss of a port (R523 to R526)
-/

namespace Sys2Proof.Machine

variable {s t u : State} {p q : PortId}

/-- The paths and the mail of a port that is lost leave the registers of ports, and of pages of other kinds. -/
theorem State.rd_portGone (s : State) (p : PortId) {q : Page} (hq : pageKind q ∈ [.hlk, .far]) {f : Fld}
    (hw : f.lo + f.w ≤ 32) (hl : lockAt? (f.off % 4096) = none) :
    (s.portGone p).rd q f = (s.setLink p linkDown).rd q f := by
  have hmail (u : State) : (if (u.slot (poBox p)).full then u.mailTimeout (poBox p) else u).rd q f = u.rd q f := by
    split
    · refine (State.mailTimeout_moves .refl (poBox p) .refl : Moves ⟨false, _, _⟩ u _).rd_eq (fun h => ?_) _
      generalize pageKind q = k at hq h
      revert k
      decide
    · rfl
  have hpaths (u : State) : (u.portPathsLost p).rd q f = u.rd q f := by
    refine (State.portPathsLost_moves .refl p .refl : Moves ⟨false, _, _⟩ u _).rd_eq (fun h => ?_) _
    generalize pageKind q = k at hq h
    revert k
    decide
  rw [State.portGone, State.rd_releaseAll _ _ _ hw hl, hmail, hpaths]
  rfl

theorem State.ports_mailLost (u : State) (b : MbxId) :
    (if (u.slot b).full then u.mailTimeout b else u).ports = u.ports := by
  split
  · exact (State.mailTimeout_moves .refl b .refl : Moves ⟨false, _, _⟩ u _).parts .ports (by decide)
  · rfl

theorem State.ports_pathsLost (u : State) (p : PortId) : (u.portPathsLost p).ports = u.ports :=
  (State.portPathsLost_moves .refl p .refl : Moves ⟨false, _, _⟩ u _).parts .ports (by decide)

theorem State.port_portGone (s : State) (p : PortId) : (s.portGone p).port p = {} := by
  rw [State.port, State.portGone, State.releaseAll]
  dsimp only
  rw [State.ports_mailLost, State.ports_pathsLost, State.setLink, State.wr_ports, ← State.port, State.port_modPort, if_pos rfl]

/-- What the page of a lost port keeps: every field but those that show the loss. -/
theorem State.rd_showLoss (s : State) (p : PortId) (cause : LossCause) {q : Page} {f : Fld} (hw : f.lo + f.w ≤ 32)
    (ho : f.off < 4096) (h : q ≠ .hlk p ∨ f.off ∉ [0x10, 0xc, 0x118, 0x130] ∧ (f.off ≠ 0x104 ∨ f.lo + f.w ≤ 9)) :
    (s.showLoss p cause).rd q f = s.rd q f := by
  simp only [List.mem_cons, List.not_mem_nil, or_false, not_or] at h
  have wr (u : State) {g : Fld} (v : Nat) (hg : g.lo + g.w ≤ 32) (og : g.off < 4096)
      (hfg : q ≠ .hlk p ∨ f.off ≠ g.off ∨ f.lo + f.w ≤ g.lo) : (u.wr (.hlk p) g v).rd q f = u.rd q f :=
    State.rd_wr_other u v hg hw og ho (hfg.imp id fun h => h.imp id .inl)
  unfold State.showLoss
  dsimp only
  rw [State.rd_raise_other _ hw ho (h.imp id fun h => h.1.1),
    State.rd_bump_other _ (by decide) hw (by decide) ho (h.imp id fun h => .inl h.1.2.2.1),
    wr _ _ (by decide) (by decide) (h.imp id fun h => .inl h.1.2.1),
    wr _ _ (by decide) (by decide) (h.imp id fun h => .inl h.1.2.1),
    wr _ _ (by decide) (by decide) (h.imp id fun h => h.2)]
  split
  · rw [wr _ _ (by decide) (by decide) (h.imp id fun h => .inl h.1.2.2.2),
      wr _ _ (by decide) (by decide) (h.imp id fun h => .inl h.1.2.2.2)]
  · rfl

/-- The fields of the port's page that show a loss. -/
theorem State.showLoss_shows (s : State) (p : PortId) (cause : LossCause) : let t := s.showLoss p cause
    t.rd (.hlk p) Reg.hlkStat_LOSTCAUSE = lossCode cause ∧ t.rd (.hlk p) Reg.hlkRlock_BUSY = 0 ∧
      (t.rd (.hlk p) Reg.intRaw_RAW).testBit 1 = true ∧
      t.rd (.hlk p) Reg.hlkCnt_LOSSES = min (s.rd (.hlk p) Reg.hlkCnt_LOSSES + 1) (2 ^ Reg.hlkCnt_LOSSES.w - 1) ∧
      (s.flag (.hlk p) Reg.hlkRlock_BUSY = true → t.rd (.hlk p) Reg.hlkRlock_LOST = 1) := by
  let s5 := if s.flag (.hlk p) Reg.hlkRlock_BUSY then
    (s.wr (.hlk p) Reg.hlkRlock_BUSY 0).wr (.hlk p) Reg.hlkRlock_LOST 1 else s
  have rlock {f : Fld} (hw : f.lo + f.w ≤ 32) (ho : f.off = 0x130) :
      (s.showLoss p cause).rd (.hlk p) f = s5.rd (.hlk p) f := by
    unfold State.showLoss
    dsimp only
    rw [State.rd_raise_off _ _ hw (by omega) (by omega), State.rd_bump_off _ _ (by decide) hw (by decide) (by omega)
        (.inl (show f.off ≠ 0x118 by omega)),
      State.rd_wr_off _ _ (by decide) hw (by decide) (by omega) (.inl (show f.off ≠ 0xc by omega)),
      State.rd_wr_off _ _ (by decide) hw (by decide) (by omega) (.inl (show f.off ≠ 0xc by omega)),
      State.rd_wr_off _ _ (by decide) hw (by decide) (by omega) (.inl (show f.off ≠ 0x104 by omega))]
  refine ⟨?_, ?_, State.raise_sets _ _ (by decide), ?_, fun hb => ?_⟩
  · unfold State.showLoss
    dsimp only
    rw [State.rd_raise_off _ _ (by decide) (by decide) (by decide),
      State.rd_bump_off _ _ (by decide) (by decide) (by decide) (by decide) (by decide),
      State.rd_wr_off _ _ (by decide) (by decide) (by decide) (by decide) (by decide),
      State.rd_wr_off _ _ (by decide) (by decide) (by decide) (by decide) (by decide), State.rd_wr_same _ _ _ (by decide)]
    cases cause <;> rfl
  · rw [rlock (by decide) rfl]
    simp only [s5]
    split
    · rw [State.rd_wr_off _ _ (by decide) (by decide) (by decide) (by decide) (by decide), State.rd_wr_same _ _ _ (by decide)]
      rfl
    · next h => simpa [State.flag] using h
  · unfold State.showLoss
    dsimp only
    rw [State.rd_raise_off _ _ (by decide) (by decide) (by decide), State.rd_bump_same _ _ _ (by decide),
      State.rd_wr_off _ _ (by decide) (by decide) (by decide) (by decide) (by decide),
      State.rd_wr_off _ _ (by decide) (by decide) (by decide) (by decide) (by decide),
      State.rd_wr_off _ _ (by decide) (by decide) (by decide) (by decide) (by decide)]
    split
    · rw [State.rd_wr_off _ _ (by decide) (by decide) (by decide) (by decide) (by decide),
        State.rd_wr_off _ _ (by decide) (by decide) (by decide) (by decide) (by decide)]
    · rfl
  · rw [rlock (by decide) rfl]
    simp only [s5]
    rw [if_pos hb, State.rd_wr_same _ _ _ (by decide)]
    rfl

theorem State.link_setLink (s : State) (p : PortId) {v : Nat} (hv : v < 4) : (s.setLink p v).link p = v := by
  rw [State.link, State.setLink, State.rd_wr_same _ _ _ (by decide)]
  exact Nat.mod_eq_of_lt hv

theorem State.rd_setLink (s : State) (p : PortId) (v : Nat) {q : Page} {f : Fld} (hw : f.lo + f.w ≤ 32) (ho : f.off < 4096)
    (h : q ≠ .hlk p ∨ f.off ≠ 0x104 ∨ 2 ≤ f.lo) : (s.setLink p v).rd q f = s.rd q f :=
  State.rd_wr_other s v (by decide) hw (by decide) ho (h.imp id fun h => h.imp id .inr)

/-- What the loss of a port leaves of the ports' pages and of the farrier's. -/
theorem State.rd_portLost (s : State) (p : PortId) (cause : LossCause) {q : Page} (hq : pageKind q ∈ [.hlk, .far]) {f : Fld}
    (hw : f.lo + f.w ≤ 32) (ho : f.off < 4096) (hl : lockAt? (f.off % 4096) = none)
    (h : q ≠ .hlk p ∨ f.off ∉ [0x10, 0xc, 0x118, 0x130] ∧ (f.off ≠ 0x104 ∨ 2 ≤ f.lo ∧ f.lo + f.w ≤ 9)) :
    (s.portLost p cause).rd q f = s.rd q f := by
  rw [State.portLost_eq, State.rd_showLoss _ p cause hw ho (h.imp id fun h => h.imp id fun h => h.imp id And.right),
    s.rd_portGone p hq hw hl, s.rd_setLink p _ hw ho (h.imp id fun h => h.2.imp id And.left)]

/-- A port that is lost shows it (R525). -/
theorem State.portLost_shows (s : State) (p : PortId) (cause : LossCause) : PortLost p cause s (s.portLost p cause) := by
  have gone {f : Fld} (hw : f.lo + f.w ≤ 32) (ho : f.off < 4096) (hl : lockAt? (f.off % 4096) = none) (h : f.off ≠ 0x104) :
      (s.portGone p).rd (.hlk p) f = s.rd (.hlk p) f := by
    rw [s.rd_portGone p (by simp) hw hl, s.rd_setLink p _ hw ho (.inr (.inl h))]
  obtain ⟨hcause, hbusy, hraw, hcnt, hlost⟩ := (s.portGone p).showLoss_shows p cause
  rw [State.portLost_eq]
  refine ⟨?_, hcause, ?_, hbusy, hraw, ?_, fun h => hlost ?_⟩
  · rw [State.link, State.rd_showLoss _ p cause (by decide) (by decide) (.inr (by decide)),
      s.rd_portGone p (by simp) (by decide) (by decide)]
    exact s.link_setLink p (by decide)
  · have hports : ((s.portGone p).showLoss p cause).ports = (s.portGone p).ports := by
      unfold State.showLoss
      dsimp only
      split <;> simp
    rw [State.port, hports]
    exact s.port_portGone p
  · rw [hcnt, gone (by decide) (by decide) (by decide) (by decide)]
  · rwa [State.flag, gone (by decide) (by decide) (by decide) (by decide)]

/-- A loss that follows a step which keeps the count of losses and the requests for locks. -/
theorem PortLost.of_before {cause : LossCause} (h : PortLost p cause u t)
    (hr : ∀ f ∈ [Reg.hlkCnt_LOSSES, Reg.hlkRlock_BUSY], u.rd (.hlk p) f = s.rd (.hlk p) f) : PortLost p cause s t := by
  obtain ⟨hlink, hcause, hport, hbusy, hraw, hcnt, hlost⟩ := h
  refine ⟨hlink, hcause, hport, hbusy, hraw, by rw [hcnt, hr _ (by simp)], fun h => hlost ?_⟩
  rwa [State.flag, hr _ (by simp)]

/-- A loss is there as before after a step that keeps the port's page and its record. -/
theorem PortLost.kept {cause : LossCause} (h : PortLost p cause s t) (hr : ∀ f, u.rd (.hlk p) f = t.rd (.hlk p) f)
    (hp : u.ports = t.ports) : PortLost p cause s u := by
  obtain ⟨hlink, hcause, hport, hbusy, hraw, hcnt, hlost⟩ := h
  refine ⟨(hr _).trans hlink, (hr _).trans hcause, ?_, (hr _).trans hbusy, by rwa [hr], (hr _).trans hcnt,
    fun h => (hr _).trans (hlost h)⟩
  rw [State.port, hp]
  exact hport

theorem exec_lossOfPort (hp : s.dev.powered = true) (hl : s.linkLive p = true) (cause : LossCause) :
    exec (.portLoss p cause) s = .next (s.portLost p cause) ∧
      exec (.goodbyeReceive p) s = .next (s.portLost p .orderly) ∧
      ((s.port p).leaving = true → exec (.goodbyeDrainDone p) s = .next (s.portLost p .disabled)) ∧
      (s.link p = linkRetraining → exec (.retrainTimeout p) s =
        .next ((s.portLost p .retrainFail).logTo 4 (domLink p) (.out 0x06 (0x100 + p.val)))) := by
  simp only [exec, execPortLoss, execGoodbyeReceive, execGoodbyeDrainDone, execRetrainTimeout, live_of_powered hp, hl, if_true,
    and_true, true_and]
  exact ⟨fun h => by rw [if_pos h], fun h => by rw [if_pos h]⟩

theorem portsLost : Rules.PortsLost := by
  intro p s hp hl
  refine ⟨fun cause => ?_, ?_, fun h => ?_, fun h => ?_⟩
  · exact ⟨_, (exec_lossOfPort hp hl cause).1, s.portLost_shows p cause⟩
  · exact ⟨_, (exec_lossOfPort hp hl .orderly).2.1, s.portLost_shows p .orderly⟩
  · exact ⟨_, (exec_lossOfPort hp hl .orderly).2.2.1 h, s.portLost_shows p .disabled⟩
  · refine ⟨_, (exec_lossOfPort hp hl .orderly).2.2.2 h, PortLost.kept (s.portLost_shows p .retrainFail)
      (fun f => State.rd_logTo_page _ (by simp)) ?_⟩
    exact (State.logTo_moves .refl _ _ _ .refl : Moves ⟨false, _, _⟩ (s.portLost p .retrainFail) _).parts .ports (by decide)

end Sys2Proof.Machine
end

section
/-!
## Links train and retrain (R520 to R523, R532, R533)
-/

namespace Sys2Proof.Machine

variable {s t u : State} {p : PortId}

/-! ## Parts of training -/

theorem chooseLanes_width {mask maxw lanes width : Nat} (h : chooseLanes mask maxw = some (lanes, width)) : width < 4 := by
  unfold chooseLanes at h
  split_ifs at h <;> cases h <;> decide

/-- The record of the peer leaves every other field of the port's page. -/
theorem State.rd_recordPeer (s : State) (p : PortId) (h : Hello) {f : Fld} (hw : f.lo + f.w ≤ 32) (ho : f.off < 4096)
    (hf : f.off ∉ [0x108, 0x10c] ∧ (f.off ≠ 0x104 ∨ f.lo + f.w ≤ 12)) : (s.recordPeer p h).rd (.hlk p) f = s.rd (.hlk p) f := by
  have hwords : ∀ o ∈ f.words, o < 4096 ∧ o ∉ [0x108, 0x10c] := by
    rw [Fld.words, if_pos hw]
    simpa using ⟨ho, by simpa using hf.1⟩
  unfold State.recordPeer
  rw [State.rd_wr_off _ _ (by decide) hw (by decide) ho (hf.2.imp id .inl),
    (State.Beside.wr _ _ _ (by decide) (.inr (by decide))).rd hwords,
    (State.Beside.wr _ _ _ (by decide) (.inr (by decide))).rd hwords]

theorem State.recordPeer_shows (s : State) (p : PortId) (h : Hello) :
    (s.recordPeer p h).rd (.hlk p) Reg.hlkPeer_PEER_ID = h.id.toNat ∧
      (s.recordPeer p h).rd (.hlk p) Reg.hlkStat_PEER_PORT = h.port.toNat := by
  unfold State.recordPeer
  refine ⟨?_, ?_⟩
  · rw [(State.Beside.wr _ _ _ (by decide) (.inr (by decide : _ ⊆ [0x104]))).rd (by decide),
      State.rd_wr_pair_other _ _ _ (by decide) (by decide) (by decide) (by rfl) (by decide) (by decide),
      State.rd_wr_same_pair _ _ _ (by decide) (by decide) (by decide)]
    exact Nat.mod_eq_of_lt h.id.isLt
  · rw [State.rd_wr_same _ _ _ (by decide)]
    exact Nat.mod_eq_of_lt h.port.isLt

theorem State.recordPeer_regsOnly (s : State) (p : PortId) (h : Hello) : s.RegsOnly (s.recordPeer p h) :=
  ((State.RegsOnly.refl.wr _ _ _).wr _ _ _).wr _ _ _

/-- The peer is recorded, and the port is UP at a width. -/
def State.resumed (s : State) (p : PortId) (h : Hello) (width : Nat) : State :=
  ((s.recordPeer p h).setLink p linkUpCode).wr (.hlk p) Reg.hlkStat_WIDTH width

theorem State.resumed_regsOnly (s : State) (p : PortId) (h : Hello) (width : Nat) : s.RegsOnly (s.resumed p h width) :=
  ((s.recordPeer_regsOnly p h).wr _ _ _).wr _ _ _

theorem State.resumed_shows (s : State) (p : PortId) (h : Hello) {width : Nat} (hw : width < 4) :
    (s.resumed p h width).link p = linkUpCode ∧ (s.resumed p h width).rd (.hlk p) Reg.hlkStat_WIDTH = width ∧
      (s.resumed p h width).rd (.hlk p) Reg.hlkPeer_PEER_ID = h.id.toNat ∧
      (s.resumed p h width).rd (.hlk p) Reg.hlkStat_PEER_PORT = h.port.toNat := by
  obtain ⟨hid, hport⟩ := s.recordPeer_shows p h
  unfold State.resumed
  refine ⟨?_, ?_, ?_, ?_⟩
  · rw [State.link, State.rd_wr_off _ _ (by decide) (by decide) (by decide) (by decide) (by decide), ← State.link]
    exact State.link_setLink _ p (by decide)
  · rw [State.rd_wr_same _ _ _ (by decide)]
    exact Nat.mod_eq_of_lt hw
  · rw [(State.Beside.wr _ _ _ (by decide) (.inr (by decide : _ ⊆ [0x104]))).rd (by decide), State.setLink,
      (State.Beside.wr _ _ _ (by decide) (.inr (by decide : _ ⊆ [0x104]))).rd (by decide), hid]
  · rw [State.rd_wr_off _ _ (by decide) (by decide) (by decide) (by decide) (by decide),
      State.rd_setLink _ p _ (by decide) (by decide) (.inr (by decide)), hport]

/-! ## LINK_TRAIN and HELLO_RECEIVE -/

theorem exec_linkTrain (hp : s.dev.powered = true) (he : s.flag (.hlk p) Reg.hlkCfg_EN = true) (hpr : s.present p = true)
    (hl : s.link p = linkDown) (hm : s.mainUp = true) (lanes : BitVec 4) :
    exec (.linkTrain p lanes) s = .next ((s.setLink p linkTraining).emit (.flit p (s.helloOf p lanes))) := by
  simp [exec, execLinkTrain, live_of_powered hp, he, hpr, hl, hm]

/-- The events of a port that comes UP: LINK_UP, and PEER_NEW where the peer is another one. -/
def State.upEvents (s : State) (p : PortId) (h : Hello) : Nat :=
  1 + if s.rd (.hlk p) Reg.hlkPeer_PEER_ID ≠ h.id.toNat ∨ s.rd (.hlk p) Reg.hlkStat_PEER_PORT ≠ h.port.toNat then 2 ^ 4 else 0

/-- A port that was TRAINING is UP with fresh buffers. -/
def State.comesUp (s : State) (p : PortId) (h : Hello) (lanes width : Nat) : State :=
  (((s.resumed p h width).modPort p fun _ => { credits := fullCredits, lanes := lanes }).wr (.hlk p) Reg.blkState_STATE
    2).raiseBits (.hlk p) (s.upEvents p h)

theorem exec_helloReceive_mismatch (hp : s.dev.powered = true) (hl : s.link p = linkTraining) {h : Hello}
    (hv : h.proto ≠ Config.proto) : exec (.helloReceive p h) s =
      .next (((s.recordPeer p h).setLink p linkDown).wr (.hlk p) Reg.hlkStat_LOSTCAUSE (lossCode .peerMismatch)) := by
  simp only [exec, execHelloReceive, live_of_powered hp, hl, if_true, ne_eq, hv, not_false_eq_true]

theorem exec_helloReceive_up (hp : s.dev.powered = true) (hl : s.link p = linkTraining) {h : Hello}
    (hv : h.proto = Config.proto) {lanes width : Nat}
    (hc : chooseLanes (s.commonLanes p h) (s.rd (.hlk p) Reg.hlkCfg_MAXW) = some (lanes, width)) :
    exec (.helloReceive p h) s = .next (s.comesUp p h lanes width) := by
  simp only [exec, execHelloReceive, live_of_powered hp, hl, if_true, ne_eq, hv, not_true_eq_false, if_false, hc]
  rfl

theorem State.rd_comesUp (s : State) (p : PortId) (h : Hello) (lanes width : Nat) {f : Fld}
    (hf : ∀ o ∈ f.words, o < 4096 ∧ o ∉ [0xc, 0x10]) :
    (s.comesUp p h lanes width).rd (.hlk p) f = (s.resumed p h width).rd (.hlk p) f := by
  have events (u : State) (bits : Nat) : u.Beside (.hlk p) [0xc, 0x10] (u.raiseBits (.hlk p) bits) := by
    obtain ⟨m, o, e⟩ := State.signalFrom_frame (u.wr (.hlk p) Reg.intRaw_RAW (u.rd (.hlk p) Reg.intRaw_RAW ||| bits)) (.hlk p)
      (u.intStat (.hlk p))
    rw [State.raiseBits, e]
    exact State.Beside.wr u _ _ (by decide) (.inr (by decide))
  unfold State.comesUp
  rw [(events _ _).rd hf, (State.Beside.wr _ _ _ (by decide) (.inr (by decide))).rd hf, State.rd_modPort]

theorem State.comesUp_shows (s : State) (p : PortId) (h : Hello) {lanes width : Nat} (hw : width < 4) :
    let t := s.comesUp p h lanes width
    t.link p = linkUpCode ∧ t.blk (.hlk p) = blkOn ∧ t.rd (.hlk p) Reg.hlkStat_WIDTH = width ∧
      t.port p = { credits := fullCredits, lanes := lanes } ∧ t.rd (.hlk p) Reg.hlkPeer_PEER_ID = h.id.toNat ∧
      t.rd (.hlk p) Reg.hlkStat_PEER_PORT = h.port.toNat ∧ (t.rd (.hlk p) Reg.intRaw_RAW).testBit 0 = true ∧
      (s.rd (.hlk p) Reg.hlkPeer_PEER_ID ≠ h.id.toNat ∨ s.rd (.hlk p) Reg.hlkStat_PEER_PORT ≠ h.port.toNat →
        (t.rd (.hlk p) Reg.intRaw_RAW).testBit 4 = true) := by
  obtain ⟨hlink, hwidth, hid, hport⟩ := s.resumed_shows p h hw
  refine ⟨?_, ?_, ?_, ?_, ?_, ?_, ?_, fun hnew => ?_⟩
  · rw [State.link, s.rd_comesUp p h lanes width (by decide)]
    exact hlink
  · rw [State.blk, State.comesUp, State.rd_raiseBits_off _ _ (by decide) (by decide) (by decide),
      State.rd_wr_same _ _ _ (by decide)]
    rfl
  · rw [s.rd_comesUp p h lanes width (by decide), hwidth]
  · rw [State.port, State.comesUp, State.raiseBits_ports, State.wr_ports, ← State.port, State.port_modPort, if_pos rfl]
  · rw [s.rd_comesUp p h lanes width (by decide), hid]
  · rw [s.rd_comesUp p h lanes width (by decide), hport]
  · rw [State.comesUp, State.rd_raiseBits_raw, Nat.testBit_mod_two_pow, Nat.testBit_or, State.upEvents]
    split <;> simp
  · rw [State.comesUp, State.rd_raiseBits_raw, Nat.testBit_mod_two_pow, Nat.testBit_or, State.upEvents, if_pos hnew]
    simp [Nat.testBit]

theorem linksTrain : Rules.LinkTraining := by
  intro p s hp
  refine ⟨fun lanes he hpr hl hm => ⟨_, exec_linkTrain hp he hpr hl hm lanes, ?_, ?_, ?_⟩, fun h hl => ?_⟩
  · exact s.link_setLink p (by decide)
  · rw [State.emit_out, State.setLink, State.wr_out]
  · rw [State.setLink, State.wr_eq]
    rfl
  · obtain ⟨t, ht⟩ := everyCommandAnswersNext (.helloReceive p h) s
    refine ⟨t, ht, fun hv => ?_, fun lanes width hv hc => ?_⟩
    · have he := exec_helloReceive_mismatch hp hl hv
      rw [ht, Host.Outcome.next.injEq] at he
      subst he
      refine ⟨?_, ?_⟩
      · rw [State.link, State.rd_wr_off _ _ (by decide) (by decide) (by decide) (by decide) (by decide)]
        exact State.link_setLink _ p (by decide)
      · rw [State.rd_wr_same _ _ _ (by decide)]
        rfl
    · have he := exec_helloReceive_up hp hl hv hc
      rw [ht, Host.Outcome.next.injEq] at he
      subst he
      exact s.comesUp_shows p h (chooseLanes_width hc)

/-! ## LANE_FAILURE and MAXW_WRITE -/

theorem State.startRetrain_link (s : State) (p : PortId) :
    (s.startRetrain p).link p = if s.link p = linkUpCode then linkRetraining else s.link p := by
  unfold State.startRetrain
  by_cases h : s.link p = linkUpCode
  · have hu : s.linkUp p = true := decide_eq_true h
    rw [if_pos h, if_pos hu, State.link, State.rd_bump_off _ _ (by decide) (by decide) (by decide) (by decide) (by decide)]
    exact s.link_setLink p (by decide)
  · have hu : s.linkUp p = false := decide_eq_false h
    rw [if_neg h, hu, if_neg Bool.false_ne_true]

theorem State.rd_startRetrain (s : State) (p : PortId) {f : Fld} (hw : f.lo + f.w ≤ 32) (ho : f.off < 4096)
    (h : f.off ≠ 0x118 ∧ (f.off ≠ 0x104 ∨ 2 ≤ f.lo)) : (s.startRetrain p).rd (.hlk p) f = s.rd (.hlk p) f := by
  unfold State.startRetrain
  split
  · rw [State.rd_bump_off _ _ (by decide) hw (by decide) ho (.inl h.1), s.rd_setLink p _ hw ho (.inr h.2)]
  · rfl

theorem State.RegsOnly.bump (h : s.RegsOnly t) (p : Page) (f : Fld) (n : Nat) : s.RegsOnly (t.bump p f n) := h.wr _ _ _

theorem State.RegsOnly.startRetrain (h : s.RegsOnly t) (p : PortId) : s.RegsOnly (t.startRetrain p) := by
  unfold State.startRetrain State.setLink
  split
  · exact (h.wr _ _ _).bump _ _ _
  · exact h

theorem State.RegsOnly.ports (h : s.RegsOnly t) : t.ports = s.ports := by
  have h : t = { s with regs := t.regs } := h
  exact (congrArg State.ports h).trans rfl

/-- A port notes the lane that has failed. -/
def State.noteLane (s : State) (p : PortId) (fail : Nat) : State := s.wr (.hlk p) Reg.hlkStat_LANE_FAIL fail

theorem exec_laneFailure (hp : s.dev.powered = true) (hl : s.linkLive p = true) (lane : Fin 4) {fail : Nat}
    (hf : fail = s.rd (.hlk p) Reg.hlkStat_LANE_FAIL ||| 2 ^ lane.val) : exec (.laneFailure p lane) s = .next
      (if bitsOf (s.port p).lanes lane 1 = 1 then
        if s.flag (.hlk p) Reg.hlkCfg_AUTODEGRADE then
          if fail = 15 then (s.noteLane p fail).portLost p .noSignal else (s.noteLane p fail).startRetrain p
        else (s.noteLane p fail).portLost p .laneFail
      else s.noteLane p fail) := by
  subst hf
  simp only [exec, execLaneFailure, live_of_powered hp, hl, if_true]
  by_cases hb : bitsOf (s.port p).lanes lane 1 = 1
  · cases ha : s.flag (.hlk p) Reg.hlkCfg_AUTODEGRADE <;> simp [hb, State.noteLane]
  · simp [hb, State.noteLane]

theorem State.rd_noteLane (s : State) (p : PortId) (fail : Nat) {f : Fld} (hw : f.lo + f.w ≤ 32) (ho : f.off < 4096)
    (h : f.off ≠ 0x104 ∨ f.lo + f.w ≤ 4 ∨ 8 ≤ f.lo) : (s.noteLane p fail).rd (.hlk p) f = s.rd (.hlk p) f :=
  State.rd_wr_off _ _ (by decide) hw (by decide) ho h

theorem State.noteLane_shows (s : State) (p : PortId) {fail : Nat} (h : fail < 2 ^ 4) :
    (s.noteLane p fail).rd (.hlk p) Reg.hlkStat_LANE_FAIL = fail := by
  rw [State.noteLane, State.rd_wr_same _ _ _ (by decide)]
  exact Nat.mod_eq_of_lt h

/-- A port whose lane has failed and that is lost for it shows both. -/
theorem State.noteLane_lost (s : State) (p : PortId) {fail : Nat} (h : fail < 2 ^ 4) (cause : LossCause) :
    ((s.noteLane p fail).portLost p cause).rd (.hlk p) Reg.hlkStat_LANE_FAIL = fail ∧
      PortLost p cause s ((s.noteLane p fail).portLost p cause) := by
  refine ⟨?_, PortLost.of_before (State.portLost_shows _ p cause) fun f hf => ?_⟩
  · rw [State.rd_portLost _ p cause (by simp) (by decide) (by decide) (by decide) (.inr (by decide)), s.noteLane_shows p h]
  · obtain rfl | rfl : f = Reg.hlkCnt_LOSSES ∨ f = Reg.hlkRlock_BUSY := by simpa using hf
    · exact s.rd_noteLane p fail (by decide) (by decide) (by decide)
    · exact s.rd_noteLane p fail (by decide) (by decide) (by decide)

theorem laneFails (hp : s.dev.powered = true) (lane : Fin 4) (fail : Nat) (hl : s.linkLive p = true)
    (hf : fail = s.rd (.hlk p) Reg.hlkStat_LANE_FAIL ||| 2 ^ lane.val) :
    ∃ t, exec (.laneFailure p lane) s = .next t ∧ t.rd (.hlk p) Reg.hlkStat_LANE_FAIL = fail ∧
      (bitsOf (s.port p).lanes lane 1 = 0 → t.link p = s.link p ∧ t = { s with regs := t.regs }) ∧
      (bitsOf (s.port p).lanes lane 1 = 1 → s.flag (.hlk p) Reg.hlkCfg_AUTODEGRADE = false → PortLost p .laneFail s t) ∧
      (bitsOf (s.port p).lanes lane 1 = 1 → s.flag (.hlk p) Reg.hlkCfg_AUTODEGRADE = true → fail = 15 →
        PortLost p .noSignal s t) ∧
      (bitsOf (s.port p).lanes lane 1 = 1 → s.flag (.hlk p) Reg.hlkCfg_AUTODEGRADE = true → fail ≠ 15 →
        t.link p = linkRetraining ∧ t.ports = s.ports) := by
  have hfail : fail < 2 ^ 4 := by
    rw [hf]
    refine Nat.or_lt_two_pow ?_ (Nat.pow_lt_pow_right (by decide) lane.isLt)
    rw [State.rd_narrow _ _ (by decide)]
    exact bitsOf_lt ..
  have hlink : (s.noteLane p fail).link p = s.link p := s.rd_noteLane p fail (by decide) (by decide) (by decide)
  refine ⟨_, exec_laneFailure hp hl lane hf, ?_⟩
  by_cases hb : bitsOf (s.port p).lanes lane 1 = 1
  · rw [if_pos hb]
    cases ha : s.flag (.hlk p) Reg.hlkCfg_AUTODEGRADE with
    | false =>
      rw [if_neg Bool.false_ne_true]
      obtain ⟨h1, h2⟩ := s.noteLane_lost p hfail .laneFail
      exact ⟨h1, fun h => absurd (h.symm.trans hb) (by decide), fun _ _ => h2, fun _ h => absurd h (by decide), fun _ h => absurd h (by decide)⟩
    | true =>
      rw [if_pos rfl]
      by_cases h15 : fail = 15
      · rw [if_pos h15]
        obtain ⟨h1, h2⟩ := s.noteLane_lost p hfail .noSignal
        exact ⟨h1, fun h => absurd (h.symm.trans hb) (by decide), fun _ h => absurd h (by decide), fun _ _ _ => h2,
          fun _ _ h => absurd h15 h⟩
      · rw [if_neg h15]
        refine ⟨?_, fun h => absurd (h.symm.trans hb) (by decide), fun _ h => absurd h (by decide), fun _ _ h => absurd h h15,
          fun _ _ _ => ⟨?_, ?_⟩⟩
        · rw [State.rd_startRetrain _ p (by decide) (by decide) (by decide), s.noteLane_shows p hfail]
        · rw [State.startRetrain_link, hlink]
          split
          · rfl
          · next hn =>
            simp only [State.linkLive, Bool.or_eq_true, decide_eq_true_eq] at hl
            exact hl.resolve_left hn
        · exact ((State.RegsOnly.refl.wr _ _ _).startRetrain p).ports
  · rw [if_neg hb]
    exact ⟨s.noteLane_shows p hfail, fun _ => ⟨hlink, State.wr_eq ..⟩, fun h => absurd h hb, fun h => absurd h hb,
      fun h => absurd h hb⟩

theorem exec_maxwWrite {m : Master} (hp : s.dev.powered = true) (hw : s.writable m (.hlk p) 0x100 = true) (w : BitVec 2) :
    exec (.maxwWrite m p w) s = .next (if s.rd (.hlk p) Reg.hlkCfg_MAXW = w.toNat then
        s.wr (.hlk p) Reg.hlkCfg_MAXW w.toNat
      else (s.wr (.hlk p) Reg.hlkCfg_MAXW w.toNat).startRetrain p) := by
  simp only [exec, execMaxwWrite, live_of_powered hp, hw, if_true]

theorem maxwWritten {m : Master} (hp : s.dev.powered = true) (w : BitVec 2) (hw : s.writable m (.hlk p) 0x100 = true) :
    ∃ t, exec (.maxwWrite m p w) s = .next t ∧ t.rd (.hlk p) Reg.hlkCfg_MAXW = w.toNat ∧
      t.link p = (if s.rd (.hlk p) Reg.hlkCfg_MAXW ≠ w.toNat ∧ s.link p = linkUpCode then linkRetraining else s.link p) ∧
      t = { s with regs := t.regs } := by
  have hmaxw : (s.wr (.hlk p) Reg.hlkCfg_MAXW w.toNat).rd (.hlk p) Reg.hlkCfg_MAXW = w.toNat := by
    rw [State.rd_wr_same _ _ _ (by decide)]
    exact Nat.mod_eq_of_lt w.isLt
  have hlink : (s.wr (.hlk p) Reg.hlkCfg_MAXW w.toNat).link p = s.link p :=
    State.rd_wr_off _ _ (by decide) (by decide) (by decide) (by decide) (by decide)
  refine ⟨_, exec_maxwWrite hp hw w, ?_⟩
  by_cases h : s.rd (.hlk p) Reg.hlkCfg_MAXW = w.toNat
  · rw [if_pos h]
    exact ⟨hmaxw, by rw [hlink, if_neg fun k => k.1 h], State.wr_eq ..⟩
  · rw [if_neg h]
    refine ⟨?_, ?_, (State.RegsOnly.refl.wr _ _ _).startRetrain p⟩
    · rw [State.rd_startRetrain _ p (by decide) (by decide) (by decide), hmaxw]
    · rw [State.startRetrain_link, hlink]
      simp only [ne_eq, h, not_false_eq_true, true_and]

/-! ## RETRAIN_DONE -/

/-- The flits after the peer's ACKSEQ are sent again, first (R522). -/
def Port.resumes (x : Port) (h : Hello) (lanes : Nat) : Port :=
  let y := { x.ackTo h.ack.toNat with lanes := lanes }
  { y with resend := y.replay }

theorem Port.resumes_shows (x : Port) (h : Hello) (lanes : Nat) : let y := x.resumes h lanes
    y.lanes = lanes ∧ y.replay = uncovered h.ack.toNat x.replay ∧ y.resend = y.replay ∧ y.fseq = x.fseq ∧ y.rx = x.rx ∧
      y.credits = x.credits := ⟨rfl, rfl, rfl, rfl, rfl, rfl⟩

/-- A retrain ends at a width, and a lower one is counted and signalled. -/
def State.retrained (s : State) (p : PortId) (h : Hello) (lanes width : Nat) : State :=
  let s1 := s.resumed p h width
  let underWay := !(s1.port p).resend.isEmpty
  let s2 := s1.modPort p fun x => x.resumes h lanes
  let s3 := if underWay ∨ (s2.port p).resend.isEmpty then s2 else s2.bump (.hlk p) Reg.hlkCnt_REPLAYS
  if s.rd (.hlk p) Reg.hlkStat_WIDTH < width then (s3.bump (.hlk p) Reg.hlkCnt_DEGRADES).raise (.hlk p) 2 else s3

theorem exec_retrainDone_mismatch (hp : s.dev.powered = true) (hl : s.link p = linkRetraining) {h : Hello}
    (hv : h.proto ≠ Config.proto) :
    exec (.retrainDone p h) s = .next ((s.recordPeer p h).portLost p .peerMismatch) := by
  simp only [exec, execRetrainDone, live_of_powered hp, hl, if_true, ne_eq, hv, not_false_eq_true]

theorem exec_retrainDone_none (hp : s.dev.powered = true) (hl : s.link p = linkRetraining) {h : Hello}
    (hv : h.proto = Config.proto) (hc : chooseLanes (s.commonLanes p h) (s.rd (.hlk p) Reg.hlkCfg_MAXW) = none) :
    exec (.retrainDone p h) s = .next (s.portLost p .noSignal) := by
  simp only [exec, execRetrainDone, live_of_powered hp, hl, if_true, ne_eq, hv, not_true_eq_false, if_false, hc]

theorem exec_retrainDone_up (hp : s.dev.powered = true) (hl : s.link p = linkRetraining) {h : Hello}
    (hv : h.proto = Config.proto) {lanes width : Nat}
    (hc : chooseLanes (s.commonLanes p h) (s.rd (.hlk p) Reg.hlkCfg_MAXW) = some (lanes, width)) :
    exec (.retrainDone p h) s = .next (s.retrained p h lanes width) := by
  simp only [exec, execRetrainDone, live_of_powered hp, hl, if_true, ne_eq, hv, not_true_eq_false, if_false, hc]
  rfl

theorem State.retrained_shows (s : State) (p : PortId) (h : Hello) {lanes width : Nat} (hw : width < 4) :
    let t := s.retrained p h lanes width
    t.link p = linkUpCode ∧ t.rd (.hlk p) Reg.hlkStat_WIDTH = width ∧ t.port p = (s.port p).resumes h lanes ∧
      (s.rd (.hlk p) Reg.hlkStat_WIDTH < width → (t.rd (.hlk p) Reg.intRaw_RAW).testBit 2 = true) := by
  let s2 := (s.resumed p h width).modPort p fun x => x.resumes h lanes
  let s3 := if (!((s.resumed p h width).port p).resend.isEmpty) = true ∨ (s2.port p).resend.isEmpty then s2
    else s2.bump (.hlk p) Reg.hlkCnt_REPLAYS
  have ht : s.retrained p h lanes width = if s.rd (.hlk p) Reg.hlkStat_WIDTH < width then
      (s3.bump (.hlk p) Reg.hlkCnt_DEGRADES).raise (.hlk p) 2 else s3 := rfl
  obtain ⟨hlink, hwidth, -, -⟩ := s.resumed_shows p h hw
  have rd {f : Fld} (hf : f.lo + f.w ≤ 32) (ho : f.off = 0x104) :
      (s.retrained p h lanes width).rd (.hlk p) f = (s.resumed p h width).rd (.hlk p) f := by
    have h3 : s3.rd (.hlk p) f = s2.rd (.hlk p) f := by
      simp only [s3]
      split
      · rfl
      · exact State.rd_bump_off _ _ (by decide) hf (by decide) (by omega) (.inl (show f.off ≠ 0x118 by omega))
    rw [ht]
    split
    · rw [State.rd_raise_off _ _ hf (by omega) (by omega),
        State.rd_bump_off _ _ (by decide) hf (by decide) (by omega) (.inl (show f.off ≠ 0x118 by omega)), h3]
      exact State.rd_modPort ..
    · exact h3.trans (State.rd_modPort ..)
  have hports : (s.retrained p h lanes width).ports = s2.ports := by
    have h3 : s3.ports = s2.ports := by
      simp only [s3]
      split
      · rfl
      · exact State.bump_ports ..
    rw [ht]
    split
    · rw [State.raise_ports, State.bump_ports, h3]
    · exact h3
  refine ⟨?_, ?_, ?_, fun hlow => ?_⟩
  · rw [State.link, rd (by decide) rfl]
    exact hlink
  · rw [rd (by decide) rfl, hwidth]
  · rw [State.port, hports, ← State.port, State.port_modPort, if_pos rfl]
    rw [State.port, (s.resumed_regsOnly p h width).ports, ← State.port]
  · rw [ht, if_pos hlow]
    exact State.raise_sets _ _ (by decide)

theorem retrainEnds (hp : s.dev.powered = true) (h : Hello) (hl : s.link p = linkRetraining) :
    ∃ t, exec (.retrainDone p h) s = .next t ∧
      (h.proto ≠ Config.proto → PortLost p .peerMismatch s t) ∧
      (h.proto = Config.proto →
        chooseLanes (s.commonLanes p h) (s.rd (.hlk p) Reg.hlkCfg_MAXW) = none → PortLost p .noSignal s t) ∧
      (∀ lanes width, h.proto = Config.proto →
        chooseLanes (s.commonLanes p h) (s.rd (.hlk p) Reg.hlkCfg_MAXW) = some (lanes, width) →
        t.link p = linkUpCode ∧ t.rd (.hlk p) Reg.hlkStat_WIDTH = width ∧ (t.port p).lanes = lanes ∧
          (t.port p).replay = uncovered h.ack.toNat (s.port p).replay ∧ (t.port p).resend = (t.port p).replay ∧
          (t.port p).fseq = (s.port p).fseq ∧ (t.port p).rx = (s.port p).rx ∧ (t.port p).credits = (s.port p).credits ∧
          (s.rd (.hlk p) Reg.hlkStat_WIDTH < width → (t.rd (.hlk p) Reg.intRaw_RAW).testBit 2 = true)) := by
  obtain ⟨t, ht⟩ := everyCommandAnswersNext (.retrainDone p h) s
  refine ⟨t, ht, fun hv => ?_, fun hv hc => ?_, fun lanes width hv hc => ?_⟩
  · have he := exec_retrainDone_mismatch hp hl hv
    rw [ht, Host.Outcome.next.injEq] at he
    subst he
    refine PortLost.of_before (State.portLost_shows _ p .peerMismatch) fun f hf => ?_
    obtain rfl | rfl : f = Reg.hlkCnt_LOSSES ∨ f = Reg.hlkRlock_BUSY := by simpa using hf
    · exact s.rd_recordPeer p h (by decide) (by decide) (by decide)
    · exact s.rd_recordPeer p h (by decide) (by decide) (by decide)
  · have he := exec_retrainDone_none hp hl hv hc
    rw [ht, Host.Outcome.next.injEq] at he
    subst he
    exact s.portLost_shows p .noSignal
  · have he := exec_retrainDone_up hp hl hv hc
    rw [ht, Host.Outcome.next.injEq] at he
    subst he
    obtain ⟨hlink, hwidth, hport, hlow⟩ := s.retrained_shows p h (lanes := lanes) (chooseLanes_width hc)
    rw [hport]
    obtain ⟨h1, h2, h3, h4, h5, h6⟩ := (s.port p).resumes_shows h lanes
    exact ⟨hlink, hwidth, h1, h2, h3, h4, h5, h6, hlow⟩

theorem linkRetrains : Rules.LinkRetrains :=
  fun _ _ hp => ⟨fun lane fail hl hf => laneFails hp lane fail hl hf, fun _ w hw => maxwWritten hp w hw,
    fun h hl => retrainEnds hp h hl⟩

/-- Settles O49. -/
theorem linkStates : Obligations.LinkStates := ⟨linksTrain, portsLost, linkRetrains⟩

end Sys2Proof.Machine
end

section
/-!
## Sideband inputs, lockstep errors and HBM temperature (R559 to R562, R575, R655, R656, R665)
-/

namespace Sys2Proof.Machine

variable {s t u : State} {n : Fin 10}

/-- ASSERTED is set, whatever THROTTLE_N does beside it. -/
theorem State.rd_asserts (s : State) (n : Fin 10) (f : Fld) :
    (s.asserts n).rd .far f = (s.wr .far (Reg.farSb_ASSERTED n) 1).rd .far f := by
  unfold State.asserts
  dsimp only
  split
  · rfl
  · rw [State.rd_modDev, State.rd_raise_page _ (by decide), State.rd_bump_page _ (by decide)]

/-- Of the fields of an input's register, a write leaves those beside its own. -/
theorem State.rd_wr_sb (s : State) (n : Fin 10) {f g : Fld} {v : Nat} (hf : f.lo + f.w ≤ 32) (hg : g.lo + g.w ≤ 32)
    (of : f.off = 0x110 + 4 * n.val) (og : g.off = 0x110 + 4 * n.val) (h : g.lo + g.w ≤ f.lo ∨ f.lo + f.w ≤ g.lo) :
    (s.wr .far f v).rd .far g = s.rd .far g := by
  have hn := n.isLt
  exact State.rd_wr_off s _ hf hg (by omega) (by omega) (.inr h)

theorem State.rd_raise_sb (s : State) (n : Fin 10) (k : Nat) {g : Fld} (hg : g.lo + g.w ≤ 32)
    (og : g.off = 0x110 + 4 * n.val) : (s.raise .far k).rd .far g = s.rd .far g := by
  have hn := n.isLt
  exact State.rd_raise_off s _ hg (by omega) (by omega)

theorem State.asserted_asserts (s : State) (n : Fin 10) : (s.asserts n).rd .far (Reg.farSb_ASSERTED n) = 1 := by
  rw [State.rd_asserts, State.rd_wr_same _ _ _ (show 1 + 1 ≤ 32 by decide)]
  rfl

/-! ## Edges -/

/-- The cycles of the last four edges of an input, with the one that is being seen. -/
def State.edgesOf (s : State) (n : Fin 10) : List Nat :=
  (s.cyc domService :: (Tab.get {} s.dev.sideband n.val).edges).take 4

/-- Four edges lie within a settling time. -/
def fastEdges (now : Nat) : List Nat → Bool
  | [_, _, _, first] => now < first + settleCycles
  | _ => false

/-- An edge is seen: RAW takes the level, and the edge counts. -/
def State.edgeSeen (s : State) (n : Fin 10) (level : Bool) : State :=
  ((s.wr .far (Reg.farSb_RAW n) (bit level)).bump .far (Reg.farSb_EDGES n)).modDev fun d =>
    { d with sideband := Tab.set d.sideband n { edges := s.edgesOf n } }

/-- The fourth edge within a settling time holds ASSERTED and sets FAST. -/
def State.edgeHolds (s : State) (n : Fin 10) (was : Bool) : State :=
  let s2 := (s.asserts n).wr .far (Reg.farSb_FAST n) 1
  if was then s2 else s2.raise .far 1

theorem exec_sidebandEdge (hp : s.dev.powered = true) {level : Bool} (hl : s.flag .far (Reg.farSb_RAW n) ≠ level) :
    exec (.sidebandEdge n level) s = .next (if fastEdges (s.cyc domService) (s.edgesOf n) then
      (s.edgeSeen n level).edgeHolds n (s.flag .far (Reg.farSb_FAST n)) else s.edgeSeen n level) := by
  simp only [exec, execSidebandEdge, live_of_powered hp, hl, if_false]
  rfl

theorem State.fastEdges_of_edges {a b first : Nat} {rest : List Nat}
    (h : (Tab.get {} s.dev.sideband n.val).edges = a :: b :: first :: rest) :
    fastEdges (s.cyc domService) (s.edgesOf n) = decide (s.cyc domService < first + settleCycles) := by
  rw [State.edgesOf, h]
  rfl

theorem State.rd_edgeHolds (s : State) (n : Fin 10) (was : Bool) {f : Fld} (hw : f.lo + f.w ≤ 32)
    (ho : f.off = 0x110 + 4 * n.val) (h : f.lo + f.w ≤ 1 ∨ 3 ≤ f.lo) : (s.edgeHolds n was).rd .far f = s.rd .far f := by
  have held : ((s.asserts n).wr .far (Reg.farSb_FAST n) 1).rd .far f = s.rd .far f := by
    rw [State.rd_wr_sb _ n (show 2 + 1 ≤ 32 by decide) hw rfl ho
        (show f.lo + f.w ≤ 2 ∨ 2 + 1 ≤ f.lo by omega), State.rd_asserts,
      State.rd_wr_sb _ n (show 1 + 1 ≤ 32 by decide) hw rfl ho (show f.lo + f.w ≤ 1 ∨ 1 + 1 ≤ f.lo by omega)]
  unfold State.edgeHolds
  dsimp only
  split
  · exact held
  · rw [State.rd_raise_sb _ n _ hw ho, held]

theorem State.edgeHolds_shows (s : State) (n : Fin 10) (was : Bool) :
    (s.edgeHolds n was).rd .far (Reg.farSb_ASSERTED n) = 1 ∧ (s.edgeHolds n was).rd .far (Reg.farSb_FAST n) = 1 := by
  have raised {f : Fld} (hw : f.lo + f.w ≤ 32) (ho : f.off = 0x110 + 4 * n.val) :
      (s.edgeHolds n was).rd .far f = ((s.asserts n).wr .far (Reg.farSb_FAST n) 1).rd .far f := by
    unfold State.edgeHolds
    dsimp only
    split
    · rfl
    · exact State.rd_raise_sb _ n _ hw ho
  refine ⟨?_, ?_⟩
  · rw [raised (show 1 + 1 ≤ 32 by decide) rfl, State.rd_wr_sb _ n (show 2 + 1 ≤ 32 by decide)
      (show 1 + 1 ≤ 32 by decide) rfl rfl (.inl (show 1 + 1 ≤ 2 by decide)), State.asserted_asserts]
  · rw [raised (show 2 + 1 ≤ 32 by decide) rfl, State.rd_wr_same _ _ _ (show 2 + 1 ≤ 32 by decide)]
    rfl

theorem State.edgeSeen_shows (s : State) (n : Fin 10) (level : Bool) :
    (s.edgeSeen n level).rd .far (Reg.farSb_RAW n) = bit level ∧
      (s.edgeSeen n level).rd .far (Reg.farSb_EDGES n) = min (s.rd .far (Reg.farSb_EDGES n) + 1) (2 ^ 16 - 1) ∧
      (s.edgeSeen n level).rd .far (Reg.farSb_ASSERTED n) = s.rd .far (Reg.farSb_ASSERTED n) := by
  unfold State.edgeSeen State.bump
  refine ⟨?_, ?_, ?_⟩
  · rw [State.rd_modDev, State.rd_wr_sb _ n (show 16 + 16 ≤ 32 by decide) (show 0 + 1 ≤ 32 by decide) rfl rfl
      (.inl (show 0 + 1 ≤ 16 by decide)), State.rd_wr_same _ _ _ (show 0 + 1 ≤ 32 by decide)]
    cases level <;> rfl
  · rw [State.rd_modDev, ← State.bump, State.rd_bump_same _ _ _ (show 16 + 16 ≤ 32 by decide),
      State.rd_wr_sb _ n (show 0 + 1 ≤ 32 by decide) (show 16 + 16 ≤ 32 by decide) rfl rfl
        (.inr (show 0 + 1 ≤ 16 by decide))]
    rfl
  · rw [State.rd_modDev, State.rd_wr_sb _ n (show 16 + 16 ≤ 32 by decide) (show 1 + 1 ≤ 32 by decide) rfl rfl
        (.inl (show 1 + 1 ≤ 16 by decide)),
      State.rd_wr_sb _ n (show 0 + 1 ≤ 32 by decide) (show 1 + 1 ≤ 32 by decide) rfl rfl (.inr (show 0 + 1 ≤ 1 by decide))]

theorem flag_of_rd_bit {p : Page} {f : Fld} {b : Bool} (h : t.rd p f = bit b) : t.flag p f = b := by
  rw [State.flag, h]
  cases b <;> rfl

theorem edgeSeen (hp : s.dev.powered = true) (level : Bool) (hl : s.flag .far (Reg.farSb_RAW n) ≠ level) :
    ∃ t, exec (.sidebandEdge n level) s = .next t ∧ t.flag .far (Reg.farSb_RAW n) = level ∧
      t.rd .far (Reg.farSb_EDGES n) = min (s.rd .far (Reg.farSb_EDGES n) + 1) (2 ^ 16 - 1) ∧
      (∀ a b first rest, (Tab.get {} s.dev.sideband n.val).edges = a :: b :: first :: rest →
        (s.cyc domService < first + settleCycles → t.rd .far (Reg.farSb_ASSERTED n) = 1 ∧
          t.rd .far (Reg.farSb_FAST n) = 1) ∧
        (first + settleCycles ≤ s.cyc domService →
          t.rd .far (Reg.farSb_ASSERTED n) = s.rd .far (Reg.farSb_ASSERTED n))) := by
  obtain ⟨hraw, hedges, hass⟩ := s.edgeSeen_shows n level
  refine ⟨_, exec_sidebandEdge hp hl, ?_⟩
  cases hfast : fastEdges (s.cyc domService) (s.edgesOf n) with
  | false =>
    rw [if_neg Bool.false_ne_true]
    refine ⟨flag_of_rd_bit hraw, hedges, fun a b first rest h => ⟨fun hlt => ?_, fun _ => hass⟩⟩
    exact absurd hlt (of_decide_eq_false ((State.fastEdges_of_edges h).symm.trans hfast))
  | true =>
    rw [if_pos rfl]
    refine ⟨flag_of_rd_bit ?_, ?_, fun a b first rest h => ⟨fun _ => State.edgeHolds_shows _ n _, fun hle => ?_⟩⟩
    · rw [State.rd_edgeHolds _ n _ (show 0 + 1 ≤ 32 by decide) rfl (.inl (show 0 + 1 ≤ 1 by decide)), hraw]
    · rw [State.rd_edgeHolds _ n _ (show 16 + 16 ≤ 32 by decide) rfl (.inr (show 3 ≤ 16 by decide)), hedges]
    · exact absurd (of_decide_eq_true ((State.fastEdges_of_edges h).symm.trans hfast)) (Nat.not_lt.mpr hle)

/-! ## Settled levels -/

/-- The farrier sees an input at rest: ASSERTED, FAST and STUCK clear. -/
def State.inputClears (s : State) (n : Fin 10) : State :=
  ((s.wr .far (Reg.farSb_ASSERTED n) 0).wr .far (Reg.farSb_FAST n) 0).wr .far (Reg.farSb_STUCK n) 0

theorem exec_sidebandSettleExpiry (hp : s.dev.powered = true) : exec (.sidebandSettleExpiry n) s = .next
    (if s.flag .far (Reg.farSb_RAW n) then s.asserts n
    else if s.flag .far (Reg.farSb_ASSERTED n) && 2 ≤ n.val then (s.inputClears n).cageEmpty (n.val - 2)
    else s.inputClears n) := by
  simp only [exec, execSidebandSettleExpiry, live_of_powered hp]
  rfl

/-- THROTTLE_N that becomes ASSERTED throttles (R575). -/
theorem State.asserts_throttles (s : State) (h : s.flag .far (Reg.farSb_ASSERTED 1) = false) :
    (s.asserts 1).dev.throttleRose = true ∧
      (s.asserts 1).rd .pwr Reg.pwrCnt_THROTTLES = min (s.rd .pwr Reg.pwrCnt_THROTTLES + 1) (2 ^ 8 - 1) ∧
      ((s.asserts 1).rd .pwr Reg.intRaw_RAW).testBit 1 = true := by
  have hs : s.asserts 1 = (((s.wr .far (Reg.farSb_ASSERTED 1) 1).bump .pwr Reg.pwrCnt_THROTTLES).raise .pwr 1).modDev
      fun d => { d with throttleRose := true } := by
    unfold State.asserts
    dsimp only
    rw [h]
    rfl
  rw [hs]
  refine ⟨rfl, ?_, ?_⟩
  · rw [State.rd_modDev, State.rd_raise_off _ _ (by decide) (by decide) (by decide), State.rd_bump_same _ _ _ (by decide),
      State.rd_wr_page _ (by decide)]
    rfl
  · rw [State.rd_modDev]
    exact State.raise_sets _ _ (by decide)

theorem State.inputClears_shows (s : State) (n : Fin 10) : (s.inputClears n).rd .far (Reg.farSb_ASSERTED n) = 0 ∧
    (s.inputClears n).rd .far (Reg.farSb_FAST n) = 0 ∧ (s.inputClears n).rd .far (Reg.farSb_STUCK n) = 0 := by
  unfold State.inputClears
  refine ⟨?_, ?_, ?_⟩
  · rw [State.rd_wr_sb _ n (show 3 + 1 ≤ 32 by decide) (show 1 + 1 ≤ 32 by decide) rfl rfl (.inl (show 1 + 1 ≤ 3 by decide)),
      State.rd_wr_sb _ n (show 2 + 1 ≤ 32 by decide) (show 1 + 1 ≤ 32 by decide) rfl rfl (.inl (show 1 + 1 ≤ 2 by decide)),
      State.rd_wr_same _ _ _ (show 1 + 1 ≤ 32 by decide)]
    rfl
  · rw [State.rd_wr_sb _ n (show 3 + 1 ≤ 32 by decide) (show 2 + 1 ≤ 32 by decide) rfl rfl (.inl (show 2 + 1 ≤ 3 by decide)),
      State.rd_wr_same _ _ _ (show 2 + 1 ≤ 32 by decide)]
    rfl
  · rw [State.rd_wr_same _ _ _ (show 3 + 1 ≤ 32 by decide)]
    rfl

/-! ## Empty cages (R524) -/

/-- A port of an empty cage is lost, or ends its training. -/
def State.cagePort (s : State) (p : PortId) : State :=
  if s.linkLive p then s.portLost p .presence else if s.link p = linkTraining then s.setLink p linkDown else s

theorem State.cageEmpty_eq (s : State) (k : Nat) :
    s.cageEmpty k = (s.cagePort (Fin.ofNat 16 (2 * k))).cagePort (Fin.ofNat 16 (2 * k + 1)) := rfl

/-- An empty cage leaves the farrier's inputs, and the state of every other port's link. -/
theorem State.rd_cagePort (s : State) (p : PortId) {q : Page} (hq : pageKind q ∈ [.hlk, .far]) (hne : q ≠ .hlk p) {f : Fld}
    (hw : f.lo + f.w ≤ 32) (ho : f.off < 4096) (hl : lockAt? (f.off % 4096) = none) :
    (s.cagePort p).rd q f = s.rd q f := by
  unfold State.cagePort
  split
  · exact s.rd_portLost p .presence hq hw ho hl (.inl hne)
  · split
    · exact s.rd_setLink p _ hw ho (.inl hne)
    · rfl

/-- A port that is DOWN for want of a peer. -/
def LostPresence (p : PortId) (t : State) : Prop :=
  t.link p = linkDown ∧ t.rd (.hlk p) Reg.hlkStat_LOSTCAUSE = lossCode .presence

theorem State.cagePort_lost {p : PortId} (h : s.linkLive p = true) : LostPresence p (s.cagePort p) := by
  obtain ⟨hlink, hcause, -⟩ := s.portLost_shows p .presence
  unfold State.cagePort
  rw [if_pos h]
  exact ⟨hlink, hcause⟩

theorem State.linkLive_congr {p : PortId} (h : t.link p = s.link p) : t.linkLive p = s.linkLive p := by
  rw [State.linkLive, State.linkLive, h]

theorem State.cageEmpty_lost {p : PortId} {k : Nat} (hk : p.val / 2 = k) (h : s.linkLive p = true) :
    LostPresence p (s.cageEmpty k) := by
  have hp := p.isLt
  rw [State.cageEmpty_eq]
  by_cases he : p.val = 2 * k
  · obtain rfl : p = Fin.ofNat 16 (2 * k) := Fin.ext (by simp only [Fin.ofNat]; omega)
    have hne : Page.hlk (Fin.ofNat 16 (2 * k)) ≠ Page.hlk (Fin.ofNat 16 (2 * k + 1)) := fun e => by
      have := congrArg Fin.val (Page.hlk.inj e)
      simp only [Fin.ofNat] at this he
      omega
    obtain ⟨hlink, hcause⟩ := State.cagePort_lost h
    exact ⟨(State.rd_cagePort _ _ (by simp) hne (by decide) (by decide) (by decide)).trans hlink,
      (State.rd_cagePort _ _ (by simp) hne (by decide) (by decide) (by decide)).trans hcause⟩
  · obtain rfl : p = Fin.ofNat 16 (2 * k + 1) := Fin.ext (by simp only [Fin.ofNat]; omega)
    have hne : Page.hlk (Fin.ofNat 16 (2 * k + 1)) ≠ Page.hlk (Fin.ofNat 16 (2 * k)) := fun e => by
      have := congrArg Fin.val (Page.hlk.inj e)
      simp only [Fin.ofNat] at this hp
      omega
    refine State.cagePort_lost ?_
    rw [State.linkLive_congr (State.rd_cagePort s _ (by simp) hne (by decide) (by decide) (by decide))]
    exact h

/-- The inputs of the farrier after a cage has emptied. -/
theorem State.rd_far_cageEmpty (s : State) (n : Fin 10) (k : Nat) {f : Fld} (hw : f.lo + f.w ≤ 32)
    (ho : f.off = 0x110 + 4 * n.val) : (s.cageEmpty k).rd .far f = s.rd .far f := by
  have hn := n.isLt
  have hl : lockAt? (f.off % 4096) = none := by
    rw [ho, lockAt?]
    exact if_neg (by omega)
  rw [State.cageEmpty_eq, State.rd_cagePort _ _ (by decide) (by simp) hw (by omega) hl,
    State.rd_cagePort _ _ (by decide) (by simp) hw (by omega) hl]

theorem inputSettlesClear (hp : s.dev.powered = true) (hr : s.flag .far (Reg.farSb_RAW n) = false) :
    ∃ t, exec (.sidebandSettleExpiry n) s = .next t ∧ t.rd .far (Reg.farSb_ASSERTED n) = 0 ∧
      t.rd .far (Reg.farSb_FAST n) = 0 ∧ t.rd .far (Reg.farSb_STUCK n) = 0 ∧
      (s.flag .far (Reg.farSb_ASSERTED n) = true → ∀ p : PortId, n.val = 2 + p.val / 2 → s.linkLive p = true →
        t.link p = linkDown ∧ t.rd (.hlk p) Reg.hlkStat_LOSTCAUSE = lossCode .presence) := by
  have he := exec_sidebandSettleExpiry (n := n) hp
  rw [hr, if_neg Bool.false_ne_true] at he
  obtain ⟨hass, hfast, hstuck⟩ := s.inputClears_shows n
  refine ⟨_, he, ?_⟩
  split
  · refine ⟨?_, ?_, ?_, fun _ p hn hlive => State.cageEmpty_lost (by omega) ?_⟩
    · rw [State.rd_far_cageEmpty _ n _ (show 1 + 1 ≤ 32 by decide) rfl, hass]
    · rw [State.rd_far_cageEmpty _ n _ (show 2 + 1 ≤ 32 by decide) rfl, hfast]
    · rw [State.rd_far_cageEmpty _ n _ (show 3 + 1 ≤ 32 by decide) rfl, hstuck]
    · rw [← hlive]
      refine State.linkLive_congr ?_
      unfold State.inputClears
      rw [State.link, State.rd_wr_page _ (by simp), State.rd_wr_page _ (by simp), State.rd_wr_page _ (by simp)]
      rfl
  · next h =>
    refine ⟨hass, hfast, hstuck, fun ha p hn _ => absurd ?_ h⟩
    rw [ha, Bool.true_and, decide_eq_true_eq]
    omega

theorem exec_sidebandStuckExpiry (hp : s.dev.powered = true) (ha : s.flag .far (Reg.farSb_ASSERTED n) = true)
    (hs : s.flag .far (Reg.farSb_STUCK n) = false) :
    exec (.sidebandStuckExpiry n) s = .next ((s.wr .far (Reg.farSb_STUCK n) 1).raise .far 0) := by
  simp [exec, execSidebandStuckExpiry, live_of_powered hp, ha, hs]

theorem sidebandInputs : Rules.SidebandInputs := by
  intro n s hp
  refine ⟨fun level hl => edgeSeen hp level hl, fun hr => ?_, fun hr => inputSettlesClear hp hr, fun ha hs => ?_⟩
  · have he := exec_sidebandSettleExpiry (n := n) hp
    rw [hr, if_pos rfl] at he
    refine ⟨_, he, s.asserted_asserts n, fun hn ha => ?_⟩
    subst hn
    exact s.asserts_throttles ha
  · have he := exec_sidebandStuckExpiry hp ha hs
    refine ⟨_, he, ?_, State.raise_sets _ _ (by decide), (State.sameWords.refl.wr (by simp)).raise (by simp), ?_⟩
    · rw [State.rd_raise_sb _ n _ (show 3 + 1 ≤ 32 by decide) rfl, State.rd_wr_same _ _ _ (show 3 + 1 ≤ 32 by decide)]
      rfl
    · exact (State.raise_moves (State.wr_moves .refl _ _ _ (by decide)) _ _ (by decide) (by decide) (by decide) :
        Moves ⟨false, [.out, .msix, .recorder], [.far]⟩ s _).sameTables

theorem exec_lockstepMismatch (hp : s.dev.powered = true) (pc : BitVec 32) :
    exec (.lockstepMismatch pc) s = .next ((s.persistent .far 0x06 (pc.toNat / 4)).raise .far 3) := by
  simp only [exec, execLockstepMismatch, live_of_powered hp]

theorem exec_hbmTempUpdate {c : Ch} (hp : s.dev.powered = true) (hm : s.mainUp = true) (hc : s.chState c ≠ chRetired)
    (temp : Byte) : exec (.hbmTempUpdate c temp) s = .next (s.wr (.hbmc c) Reg.hbmcStat_TEMP temp.toNat) := by
  simp [exec, execHbmTempUpdate, live_of_powered hp, hm, hc]

theorem lockstepAndTemperature : Rules.LockstepAndTemperature := by
  intro s hp
  refine ⟨fun pc => ⟨_, exec_lockstepMismatch hp pc, State.raise_sets _ _ (by decide), ?_, ?_, ?_⟩,
    fun c temp hm hc => exec_hbmTempUpdate hp hm hc temp⟩
  · rw [State.rd_raise_off _ _ (by decide) (by decide) (by decide), (s.persistent_counts .far _ _).1]
  · exact (State.sameWords.refl.persistent (by simp) (by simp)).raise (by simp)
  · exact (State.raise_moves (State.persistent_moves .refl _ _ _ (by decide) (by decide)) _ _ (by decide) (by decide) (by decide) :
      Moves ⟨false, [.out, .msix, .recorder], [.far, .ras]⟩ s _).sameTables

/-- Settles O57. -/
theorem sidebandAndTemperature : Obligations.SidebandAndTemperature := ⟨sidebandInputs, lockstepAndTemperature⟩

end Sys2Proof.Machine
end

section
/-!
## The window of the deadline monitor (R478, R479)
-/

namespace Sys2Proof.Machine

variable {s t u : State} {m : Master}

@[simp] theorem State.dlmRec_modDlm (s : State) (n k : Nat) (f : DlmRec → DlmRec) :
    (s.modDlm n f).dlmRec k = if k = n then f (s.dlmRec n) else s.dlmRec k := by
  simp [State.dlmRec, State.modDlm]

theorem State.dlmRec_of (h : t.dlm = s.dlm) (n : Nat) : t.dlmRec n = s.dlmRec n := by rw [State.dlmRec, h, State.dlmRec]

theorem State.windowDone_dlm (s : State) (p : Page) (status : Nat) : (s.windowDone p status).dlm = s.dlm := by
  simp [State.windowDone]

/-- A number spelt by 32-bit words is below its power of two, and each of its words stands at its place. -/
theorem sum_of_words (x : Nat → Nat) (hx : ∀ i, x i < 2 ^ 32) (n : Nat) :
    ((List.range n).map fun i => x i * 2 ^ (32 * i)).sum < 2 ^ (32 * n) ∧
      ∀ k < n, bitsOf ((List.range n).map fun i => x i * 2 ^ (32 * i)).sum (32 * k) 32 = x k := by
  induction n with
  | zero => exact ⟨Nat.one_pos, fun k hk => absurd hk (Nat.not_lt_zero k)⟩
  | succ n ih =>
    obtain ⟨hlt, hat⟩ := ih
    rw [List.range_succ, List.map_append, List.sum_append, List.map_singleton, List.sum_singleton]
    generalize ((List.range n).map fun i => x i * 2 ^ (32 * i)).sum = a at hlt hat
    refine ⟨?_, fun k hk => ?_⟩
    · rw [Nat.mul_succ, Nat.pow_add, Nat.mul_comm (x n)]
      calc a + 2 ^ (32 * n) * x n < 2 ^ (32 * n) * (x n + 1) := by rw [Nat.mul_succ]; omega
        _ ≤ 2 ^ (32 * n) * 2 ^ 32 := Nat.mul_le_mul_left _ (hx n)
    · rcases Nat.lt_succ_iff_lt_or_eq.mp hk with hk | rfl
      · rw [← hat k hk, show 32 * n = 32 * k + (32 + 32 * (n - k - 1)) by omega, Nat.pow_add, Nat.pow_add]
        simp only [bitsOf]
        rw [Nat.mul_left_comm, Nat.add_mul_div_left _ _ (Nat.two_pow_pos _), Nat.mul_left_comm, Nat.add_mul_mod_self_left]
      · simp only [bitsOf]
        rw [Nat.add_mul_div_right _ _ (Nat.two_pow_pos _), Nat.div_eq_of_lt hlt, Nat.zero_add, Nat.mod_eq_of_lt (hx k)]

/-- The fields of an ARM stand in the first three data words (R479). -/
theorem State.armFields (s : State) :
    bitsOf (s.windowData .dlm) 4 4 = bitsOf (s.rd .dlm (Reg.dlmWinData_DATA 0)) 4 4 ∧
    bitsOf (s.windowData .dlm) 8 1 = bitsOf (s.rd .dlm (Reg.dlmWinData_DATA 0)) 8 1 ∧
    bitsOf (s.windowData .dlm) 32 32 = s.rd .dlm (Reg.dlmWinData_DATA 1) ∧
    bitsOf (s.windowData .dlm) 64 32 = s.rd .dlm (Reg.dlmWinData_DATA 2) := by
  obtain ⟨-, hat⟩ := sum_of_words (fun i => s.rd .dlm (Reg.strmWinData_DATA i)) (fun _ => bitsOf_lt ..) 8
  have low : s.windowData .dlm % 2 ^ 32 = s.rd .dlm (Reg.dlmWinData_DATA 0) := by
    have h0 := hat 0 (by decide)
    rwa [bitsOf, Nat.mul_zero, Nat.pow_zero, Nat.div_one] at h0
  rw [← low, bitsOf_mod _ (by decide), bitsOf_mod _ (by decide)]
  exact ⟨rfl, rfl, hat 1 (by decide), hat 2 (by decide)⟩

theorem exec_dlmRead (h : WindowReady m .dlm s) :
    exec (.dlmRead m) s = .next ((s.wr .dlm Reg.strmWinCmd_BUSY 1).dlmOp 1 (s.rd .dlm Reg.dlmWinIdx_IDX)) := by
  rw [exec, execDlmRead, live_of_powered h.1, State.dlmWindow, State.windowStart_ready h]

theorem exec_arm (h : WindowReady m .dlm s) :
    exec (.arm m) s = .next ((s.wr .dlm Reg.strmWinCmd_BUSY 1).dlmOp 2 (s.rd .dlm Reg.dlmWinIdx_IDX)) := by
  rw [exec, execArm, live_of_powered h.1, State.dlmWindow, State.windowStart_ready h]

theorem exec_disarm (h : WindowReady m .dlm s) :
    exec (.disarm m) s = .next ((s.wr .dlm Reg.strmWinCmd_BUSY 1).dlmOp 3 (s.rd .dlm Reg.dlmWinIdx_IDX)) := by
  rw [exec, execDisarm, live_of_powered h.1, State.dlmWindow, State.windowStart_ready h]

theorem exec_dlmClear (h : WindowReady m .dlm s) :
    exec (.dlmClear m) s = .next ((s.wr .dlm Reg.strmWinCmd_BUSY 1).dlmOp 4 (s.rd .dlm Reg.dlmWinIdx_IDX)) := by
  rw [exec, execDlmClear, live_of_powered h.1, State.dlmWindow, State.windowStart_ready h]

/-- The status of an ARM: the first check that fails (R479). -/
def State.armStatus (s : State) (n : Nat) : Nat :=
  if (s.stream n).state ≠ strmOpen then strmNotOpen
  else if (s.dlmRec n).instep then strmBusyStatus
  else if s.rd .dlm (Reg.dlmWinData_DATA 1) = 0 ∨
      s.ringCtx (s.stream n).home (bitsOf (s.rd .dlm (Reg.dlmWinData_DATA 0)) 4 4) ≠ (s.stream n).ctx then strmBadArg
  else strmOk

theorem State.armStatus_lt (s : State) (n : Nat) : s.armStatus n < 2 ^ 8 := by
  unfold State.armStatus
  split_ifs <;> decide

/-- The entry that an ARM writes (R479). -/
def State.armed (s : State) (d : DlmRec) : DlmRec := { d with
  armed := true, fbring := bitsOf (s.rd .dlm (Reg.dlmWinData_DATA 0)) 4 4
  fben := bitsOf (s.rd .dlm (Reg.dlmWinData_DATA 0)) 8 1 = 1
  budget := s.rd .dlm (Reg.dlmWinData_DATA 1), stepcost := s.rd .dlm (Reg.dlmWinData_DATA 2) }

/-- An ARM writes its entry where no check fails. -/
def State.armEntry (s : State) (n : Nat) : State :=
  if s.armStatus n = strmOk then s.modDlm n fun d => s.armed d else s

theorem State.dlmArm_eq (s : State) (n : Nat) : s.dlmArm n = (s.armEntry n).windowDone .dlm (s.armStatus n) := by
  obtain ⟨hring, hen, hbudget, hcost⟩ := s.armFields
  simp only [State.dlmArm, State.armEntry, State.armStatus, State.armed, hring, hen, hbudget, hcost]
  split
  · rfl
  · split
    · rfl
    · split
      · rfl
      · rfl

theorem State.armEntry_regs (s : State) (n : Nat) : (s.armEntry n).regs = s.regs := by
  unfold State.armEntry
  split <;> rfl

/-- BUSY of the window is nothing that an ARM looks at. -/
theorem State.armStatus_busy (s : State) (n : Nat) :
    (s.wr .dlm Reg.strmWinCmd_BUSY 1).armStatus n = s.armStatus n ∧
      ∀ d, (s.wr .dlm Reg.strmWinCmd_BUSY 1).armed d = s.armed d := by
  have data (i : Fin 8) : (s.wr .dlm Reg.strmWinCmd_BUSY 1).rd .dlm (Reg.dlmWinData_DATA i) = s.rd .dlm (Reg.dlmWinData_DATA i) :=
    (s.windowBusy_beside .dlm 1).rd (f := Reg.strmWinData_DATA i) (dataWord_besideCommand i.isLt)
  have ring (c r : Nat) : (s.wr .dlm Reg.strmWinCmd_BUSY 1).ringCtx c r = s.ringCtx c r :=
    State.rd_wr_page _ (by simp [ringPage])
  have stream : (s.wr .dlm Reg.strmWinCmd_BUSY 1).stream n = s.stream n := by simp [State.stream]
  have entry : (s.wr .dlm Reg.strmWinCmd_BUSY 1).dlmRec n = s.dlmRec n := by simp [State.dlmRec]
  have d0 := data 0
  have d1 := data 1
  have d2 := data 2
  dsimp only [Fin.isValue, Fin.coe_ofNat_eq_mod, Nat.reduceMod] at d0 d1 d2
  simp only [State.armStatus, State.armed, d0, d1, d2, ring, stream, entry, implies_true, and_self]

/-- What a window operation of the monitor makes of the entries and shows. -/
theorem State.dlmRec_windowDone (s : State) (n : Nat) (f : DlmRec → DlmRec) (status k : Nat) :
    ((((s.wr .dlm Reg.strmWinCmd_BUSY 1).modDlm n f).windowDone .dlm status).dlmRec k) =
      if k = n then f (s.dlmRec n) else s.dlmRec k := by
  have entry (j : Nat) : (s.wr .dlm Reg.strmWinCmd_BUSY 1).dlmRec j = s.dlmRec j := State.dlmRec_of (State.wr_dlm ..) j
  rw [State.dlmRec_of (State.windowDone_dlm ..), State.dlmRec_modDlm, entry, entry]

theorem deadlineWindow : Rules.DeadlineWindow := by
  rintro m s n h rfl
  generalize hn : s.rd .dlm Reg.dlmWinIdx_IDX = n
  have began : s.sameWords (s.wr .dlm Reg.strmWinCmd_BUSY 1) [.dlm] := State.sameWords.refl.wr (List.mem_singleton_self _)
  refine ⟨?_, ?_, ?_, ?_⟩
  · have ran := exec_dlmRead h
    rw [hn, State.dlmOp, if_pos rfl] at ran
    have moved : Moves ⟨false, [.out, .msix, .recorder], [.dlm]⟩ s (((s.wr .dlm Reg.strmWinCmd_BUSY 1).setWindowData .dlm
        ((s.wr .dlm Reg.strmWinCmd_BUSY 1).dlmRec n).encode).windowDone .dlm strmOk) :=
      State.windowDone_moves (State.setWindowData_moves (State.wr_moves .refl _ _ _ (List.mem_singleton_self _)) _ _
        (by decide) (List.mem_singleton_self _)) _ _ (by decide) (List.mem_singleton_self _)
    refine ⟨_, ran, windowEnded_windowDone _ _ (by decide), ?_, ?_, moved.sameTables⟩
    · rw [(State.windowDone_beside _ _ _).windowData, State.windowData_setWindowData,
        State.dlmRec_of (State.wr_dlm ..)]
    · exact moved.sameWords fun q hq => by cases q <;> simp_all
  · have ran := exec_arm h
    obtain ⟨status, entry⟩ := s.armStatus_busy n
    rw [hn, State.dlmOp, if_neg (by decide), if_pos rfl, State.dlmArm_eq, status] at ran
    refine ⟨_, _, ran, windowEnded_windowDone _ _ (s.armStatus_lt n),
      (began.of_regs (State.armEntry_regs ..)).trans (State.windowDone_sameWords _ _ _), ?_⟩
    have rejected (hs : s.armStatus n ≠ strmOk) :
        (((s.wr .dlm Reg.strmWinCmd_BUSY 1).armEntry n).windowDone .dlm (s.armStatus n)).dlm = s.dlm := by
      rw [State.windowDone_dlm, State.armEntry, status, if_neg hs, State.wr_dlm]
    have accepted (hs : s.armStatus n = strmOk) (k : Nat) :
        (((s.wr .dlm Reg.strmWinCmd_BUSY 1).armEntry n).windowDone .dlm (s.armStatus n)).dlmRec k =
          if k = n then s.armed (s.dlmRec n) else s.dlmRec k := by
      rw [State.armEntry, status, if_pos hs, State.dlmRec_windowDone, entry]
    refine ⟨fun k hk => ?_, ?_⟩
    · by_cases hs : s.armStatus n = strmOk
      · rw [accepted hs, if_neg hk]
      · exact State.dlmRec_of (rejected hs) k
    · split
      · next ho =>
        have hs : s.armStatus n = strmNotOpen := by rw [State.armStatus, if_pos ho]
        exact ⟨hs, rejected (by rw [hs]; decide)⟩
      · next ho =>
        split
        · next hi =>
          have hs : s.armStatus n = strmBusyStatus := by rw [State.armStatus, if_neg ho, if_pos hi]
          exact ⟨hs, rejected (by rw [hs]; decide)⟩
        · next hi =>
          split
          · next hb =>
            have hs : s.armStatus n = strmBadArg := by rw [State.armStatus, if_neg ho, if_neg hi, if_pos hb]
            exact ⟨hs, rejected (by rw [hs]; decide)⟩
          · next hb =>
            have hs : s.armStatus n = strmOk := by rw [State.armStatus, if_neg ho, if_neg hi, if_neg hb]
            exact ⟨hs, by rw [accepted hs, if_pos rfl]; rfl⟩
  · have ran := exec_disarm h
    rw [hn, State.dlmOp, if_neg (by decide), if_neg (by decide), if_pos rfl] at ran
    exact ⟨_, ran, windowEnded_windowDone _ _ (by decide), by rw [State.dlmRec_windowDone, if_pos rfl],
      fun k hk => by rw [State.dlmRec_windowDone, if_neg hk]⟩
  · have ran := exec_dlmClear h
    rw [hn, State.dlmOp, if_neg (by decide), if_neg (by decide), if_neg (by decide)] at ran
    exact ⟨_, ran, windowEnded_windowDone _ _ (by decide), by rw [State.dlmRec_windowDone, if_pos rfl],
      fun k hk => by rw [State.dlmRec_windowDone, if_neg hk]⟩

end Sys2Proof.Machine
end

section
/-!
## The prediction of a step (R483, R484)
-/

namespace Sys2Proof.Machine

variable {s : State}

/-- The entry and the registers of a step that is diverted, before what its commands give up. -/
def State.divertEntry (s : State) (n : Nat) : State :=
  ((s.modDlm n fun d => { d with diverted := true, pending := false, diverts := min (d.diverts + 1) 0xffff }).bump .dlm
    Reg.dlmCnt_DIVERTS).raise .dlm 2

theorem State.divert_after (s : State) (c n : Nat) :
    Moves ⟨false, [.out, .msix, .recorder, .chans], [.rpl]⟩ (s.divertEntry n) (s.divert c n) :=
  Moves.fold (State.logDec_moves .refl _ _ _ (by decide)) fun _ _ hu =>
    State.modCmd_moves (State.pastSplit_moves hu _ _ (by decide)) _ _ _ (by decide)

/-- A diversion takes effect (R484). -/
theorem State.divert_shows (s : State) (c n : Nat) :
    ((s.divert c n).dlmRec n).diverted = true ∧ ((s.divert c n).dlmRec n).pending = false ∧
      ((s.divert c n).dlmRec n).diverts = min ((s.dlmRec n).diverts + 1) 0xffff ∧
      ((s.divert c n).rd .dlm Reg.intRaw_RAW).testBit 2 = true := by
  have after := s.divert_after c n
  have entry : (s.divert c n).dlmRec n =
      { s.dlmRec n with diverted := true, pending := false, diverts := min ((s.dlmRec n).diverts + 1) 0xffff } := by
    rw [State.dlmRec_of (after.parts .dlm (by decide)), State.divertEntry,
      State.dlmRec_of ((State.raise_dlm ..).trans (State.bump_dlm ..)), State.dlmRec_modDlm, if_pos rfl]
  rw [entry, after.rd_eq (by decide)]
  exact ⟨rfl, rfl, rfl, State.raise_sets _ _ (by decide)⟩

theorem State.checkStep_idle {c n : Nat} (hr : s.replayOn c = false)
    (h : (s.dlmRec n).armed = false ∨ (s.dlmRec n).instep = false ∨ s.predict c n ≤ (s.dlmRec n).budget) :
    s.checkStep c n = s := by
  have h : (!(s.dlmRec n).armed || !(s.dlmRec n).instep || s.predict c n ≤ (s.dlmRec n).budget) = true := by
    simpa [or_assoc] using h
  unfold State.checkStep
  rw [hr, if_neg Bool.false_ne_true, if_pos h]

theorem State.checkStep_late {c n : Nat} (hr : s.replayOn c = false) (ha : (s.dlmRec n).armed = true)
    (hi : (s.dlmRec n).instep = true) (hb : (s.dlmRec n).budget < s.predict c n) : s.checkStep c n =
    if (s.dlmRec n).fben = true ∧ (s.dlmRec n).diverted = false ∧ (s.dlmRec n).links = false ∧
        s.fallbackWhole c (s.dlmRec n).fbring = true then
      if s.ctxRuns (s.stream n).ctx then s.draw.divert c n
      else s.draw.modDlm n fun d => { d with pending := true, diverted := true }
    else s.draw.modDlm n fun d => { d with nofallback := min (d.nofallback + 1) 0xffff } := by
  unfold State.checkStep
  rw [hr, if_neg Bool.false_ne_true]
  simp [ha, hi, hb, and_assoc]

theorem exec_dlmCheck (hp : s.dev.powered = true) (n : StreamId) (he : s.flag .dlm Reg.dlmCfg_EN = true)
    (ha : s.arithOn (s.stream n).home = true) (hm : s.mayRecord (s.stream n).home = true) :
    exec (.dlmCheck n) s = .next (s.checkStep (s.stream n).home n) := by
  rw [exec, execDlmCheck, live_of_powered hp]
  simp [he, ha, hm]

theorem deadlineCheck : Rules.DeadlineCheck := by
  rintro n s c d hp rfl rfl he ha hm hr
  refine ⟨_, exec_dlmCheck hp n he ha hm, State.checkStep_idle hr, fun harm hin hlate => ?_⟩
  rw [State.checkStep_late hr harm hin hlate]
  split
  · cases hc : s.ctxRuns (s.stream n).ctx with
    | true =>
      obtain ⟨diverted, pending, diverts, raised⟩ := s.draw.divert_shows (s.stream n).home n
      exact ⟨diverted, fun _ => ⟨pending, diverts, raised⟩, fun h => absurd h (by decide)⟩
    | false =>
      simp only [Bool.false_eq_true, if_false, State.dlmRec_modDlm, if_true]
      exact ⟨trivial, fun h => absurd h (by decide), fun _ => ⟨trivial, rfl⟩⟩
  · rw [State.dlmRec_modDlm, if_pos rfl]
    exact ⟨rfl, rfl⟩

/-- Settles O24. -/
theorem deadlineMonitor : Obligations.DeadlineMonitor := ⟨deadlineWindow, deadlineCheck⟩

end Sys2Proof.Machine
end

section
/-!
## Contexts: records, LOAD and EVICT, blocked contexts and the relief rule (R452, R459, R462, R465 to R469)
-/

namespace Sys2Proof.Machine

variable {s t u : State} {m : Master} {i n : Nat}

/-! ## The words of a slot -/

/-- The offset of a slot's word, CTX_SLOT[i] (R457). -/
def slotWord (i : Nat) : Nat := 0x140 + 4 * i

theorem slotWord_inj {i j : Nat} (h : slotWord i = slotWord j) : i = j := by
  unfold slotWord at h
  omega

theorem slotWord_lt (hi : i < 8) : slotWord i < 4096 := by
  unfold slotWord
  omega

theorem slotWord_apart (hi : i < 8) : slotWord i ∉ windowWords := by
  simp only [windowWords, slotWord, List.mem_cons, List.not_mem_nil, or_false]
  omega

/-- The fields of a slot that are followed here lie in its word. -/
theorem slotFlds_words (i : Nat) : (Reg.ctxSlot_STATE i).words = [slotWord i] ∧ (Reg.ctxSlot_CTX i).words = [slotWord i] ∧
    (Reg.ctxSlot_BLOCKED i).words = [slotWord i] := by
  simp [Fld.words, Reg.ctxSlot_STATE, Reg.ctxSlot_CTX, Reg.ctxSlot_BLOCKED, slotWord]

/-- A change beside a slot's word leaves what the slot shows. -/
theorem State.Beside.slot {os : List Nat} (h : s.Beside .ctx os t) (hi : i < 8) (ho : slotWord i ∉ os) :
    t.slotState i = s.slotState i ∧ t.slotCtx i = s.slotCtx i ∧ t.blocked i = s.blocked i := by
  have word {f : Fld} (hf : f.words = [slotWord i]) : t.rd .ctx f = s.rd .ctx f := h.rd (by
    simp only [hf, List.mem_singleton, forall_eq]
    exact ⟨slotWord_lt hi, ho⟩)
  obtain ⟨state, ctx, blocked⟩ := slotFlds_words i
  refine ⟨word state, word ctx, ?_⟩
  rw [State.blocked, State.flag, word blocked]
  rfl

/-- A write of a field of a slot changes the slot's word only. -/
theorem State.wr_besideSlot (s : State) (hi : i < 8) {f : Fld} (hf : f.words = [slotWord i]) (v : Nat) :
    s.Beside .ctx [slotWord i] (s.wr .ctx f v) :=
  .wr _ _ _ (by simpa only [hf, List.mem_singleton, forall_eq] using slotWord_lt hi) (.inr (by rw [hf]; exact fun _ h => h))

/-- A change beside the registers leaves what a page shows. -/
theorem State.Beside.of_regs {p : Page} {os : List Nat} (h : s.Beside p os t) (e : u.regs = t.regs) : s.Beside p os u :=
  fun o ho hn => (State.word_congr e p o).trans (h o ho hn)

theorem State.slot_congr (h : t.regs = s.regs) (i : Nat) : t.slotState i = s.slotState i ∧ t.slotCtx i = s.slotCtx i :=
  ⟨State.rd_congr h _ _, State.rd_congr h _ _⟩

theorem State.setSlot_regs (s : State) (i st ctx : Nat) : (s.setSlot i st ctx).regs =
    (((s.wr .ctx (Reg.ctxSlot_STATE i) st).wr .ctx (Reg.ctxSlot_CTX i) ctx).wr .ctx (Reg.ctxSlot_BLOCKED i) 0).regs := rfl

theorem State.modCtx_regs (s : State) (n : Nat) (f : CtxRec → CtxRec) : (s.modCtx n f).regs = s.regs := rfl

theorem State.startSave_regs (s : State) (i : Nat) (serves : Serves) :
    (s.startSave i serves).regs = (s.wr .ctx (Reg.ctxSlot_STATE i) slotSaving).regs := rfl

theorem State.setSlot_ctx (s : State) (hi : i < 8) (st : Nat) {ctx : Nat} (hc : ctx < 256) :
    (s.setSlot i st ctx).slotCtx i = ctx := by
  have off : 0x140 + 4 * i < 4096 := by omega
  rw [State.slotCtx, State.rd_congr (s.setSlot_regs i st ctx), State.rd_wr_off _ _ (by simp [Reg.ctxSlot_BLOCKED]) (by simp [Reg.ctxSlot_CTX])
      off off (.inr (.inl (by simp [Reg.ctxSlot_BLOCKED, Reg.ctxSlot_CTX]))),
    State.rd_wr_same _ _ _ (by simp [Reg.ctxSlot_CTX])]
  exact Nat.mod_eq_of_lt hc

theorem State.setSlot_beside (s : State) (hi : i < 8) (st ctx : Nat) : s.Beside .ctx [slotWord i] (s.setSlot i st ctx) := by
  obtain ⟨state, ctx', blocked⟩ := slotFlds_words i
  exact (((s.wr_besideSlot hi state st).trans (State.wr_besideSlot _ hi ctx' ctx)).trans
    (State.wr_besideSlot _ hi blocked 0)).of_regs (s.setSlot_regs i st ctx)

theorem State.slotCtx_lt (s : State) (i : Nat) : s.slotCtx i < 256 := by
  rw [State.slotCtx, State.rd_narrow _ _ (show 4 + 8 ≤ 32 by decide)]
  exact bitsOf_lt ..

/-! ## Saves and restores start -/

theorem State.startRestore_image (h : (s.ctxRec n).image = true) : s.startRestore i n =
    (s.setSlot i slotLoading n).modCtx n fun r => { r with state := ctxMoving, slot := i, woken := false } := by
  rw [State.startRestore, if_pos h]

theorem State.startRestore_fresh (h : (s.ctxRec n).image = false) : s.startRestore i n =
    ((s.setSlot i slotResident n).modCtx n fun r =>
      { r with state := ctxResident, slot := i, woken := false }).raise .ctx 0 := by
  rw [State.startRestore, h, if_neg Bool.false_ne_true]

theorem State.raise_besideSlots (s : State) (k : Nat) : s.Beside .ctx [0x10] (s.raise .ctx k) :=
  .raise _ _ _ (.inr (List.mem_singleton_self _))

theorem slotWord_notRaw (i : Nat) : slotWord i ∉ [0x10] := by
  simp only [List.mem_singleton, slotWord]
  omega

/-- A restore starts: the slot takes the context (R462). -/
theorem State.startRestore_begun (s : State) (hi : i < 8) (hn : n < 256) : RestoreBegun s (s.startRestore i n) i n := by
  cases himage : (s.ctxRec n).image with
  | true =>
    rw [State.startRestore_image himage]
    obtain ⟨state, ctx⟩ := State.slot_congr (State.modCtx_regs (s.setSlot i slotLoading n) n
      fun r => { r with state := ctxMoving, slot := i, woken := false }) i
    refine ⟨ctx.trans (s.setSlot_ctx hi _ hn), ?_, fun _ => ⟨state.trans (s.rd_setSlot_state hi (by decide) n), ?_⟩,
      fun h => absurd (himage.symm.trans h) (by decide)⟩
    · rw [State.ctxRec_modCtx, if_pos rfl]
    · rw [State.ctxRec_modCtx, if_pos rfl]
  | false =>
    rw [State.startRestore_fresh himage]
    obtain ⟨state, ctx⟩ := State.slot_congr (State.modCtx_regs (s.setSlot i slotResident n) n
      fun r => { r with state := ctxResident, slot := i, woken := false }) i
    obtain ⟨state', ctx', -⟩ := (State.raise_besideSlots ((s.setSlot i slotResident n).modCtx n fun r =>
      { r with state := ctxResident, slot := i, woken := false }) 0).slot hi (slotWord_notRaw i)
    refine ⟨ctx'.trans (ctx.trans (s.setSlot_ctx hi _ hn)), ?_, fun h => absurd (himage.symm.trans h) (by decide),
      fun _ => ⟨state'.trans (state.trans (s.rd_setSlot_state hi (by decide) n)), ?_, State.raise_sets _ _ (by decide)⟩⟩
    · rw [State.ctxRec_congr (State.raise_ctxs ..), State.ctxRec_modCtx, if_pos rfl]
    · rw [State.ctxRec_congr (State.raise_ctxs ..), State.ctxRec_modCtx, if_pos rfl]

theorem State.startRestore_beside (s : State) (hi : i < 8) (n : Nat) :
    s.Beside .ctx [slotWord i, 0x10] (s.startRestore i n) := by
  have slot (st : Nat) : s.Beside .ctx [slotWord i, 0x10] (s.setSlot i st n) := (s.setSlot_beside hi st n).mono (by simp)
  cases himage : (s.ctxRec n).image with
  | true =>
    rw [State.startRestore_image himage]
    exact (slot _).of_regs (State.modCtx_regs ..)
  | false =>
    rw [State.startRestore_fresh himage]
    exact ((slot _).of_regs (State.modCtx_regs ..)).trans ((State.raise_besideSlots _ 0).mono (by simp))

/-- A restore that has begun stays so while its slot, its record and the interrupt stay. -/
theorem restoreBegun_later (h : RestoreBegun s t i n) (hs : u.slotState i = t.slotState i) (hc : u.slotCtx i = t.slotCtx i)
    (hx : u.ctxRec n = t.ctxRec n)
    (hr : (t.rd .ctx Reg.intRaw_RAW).testBit 0 = true → (u.rd .ctx Reg.intRaw_RAW).testBit 0 = true) :
    RestoreBegun s u i n := by
  unfold RestoreBegun at h ⊢
  rw [hs, hc, hx]
  obtain ⟨ctx, slot, moving, resident⟩ := h
  exact ⟨ctx, slot, moving, fun hi => ⟨(resident hi).1, (resident hi).2.1, hr (resident hi).2.2⟩⟩

/-- Of the state before it, a restore asks for no more than whether an image waits. -/
theorem restoreBegun_of_image (h : RestoreBegun u t i n) (hi : (u.ctxRec n).image = (s.ctxRec n).image) :
    RestoreBegun s t i n := by
  unfold RestoreBegun at h ⊢
  rwa [hi] at h

theorem State.ctxRec_startSave (s : State) (i : Nat) (serves : Serves) (k : Nat) : (s.startSave i serves).ctxRec k =
    if k = s.slotCtx i then { s.ctxRec k with state := ctxMoving } else s.ctxRec k := by
  have entry : (s.startSave i serves).ctxRec k = ((s.wr .ctx (Reg.ctxSlot_STATE i) slotSaving).modCtx (s.slotCtx i)
    fun r => { r with state := ctxMoving }).ctxRec k := rfl
  rw [entry, State.ctxRec_modCtx, State.ctxRec_congr (State.wr_ctxs ..), State.ctxRec_congr (State.wr_ctxs ..)]
  split
  · next hk => rw [hk]
  · rfl

theorem State.startSave_state (s : State) (i : Nat) (serves : Serves) : (s.startSave i serves).slotState i = slotSaving := by
  rw [State.slotState, State.rd_congr (s.startSave_regs i serves), State.rd_wr_same _ _ _ (by simp [Reg.ctxSlot_STATE])]
  rfl

theorem State.startSave_beside (s : State) (hi : i < 8) (serves : Serves) :
    s.Beside .ctx [slotWord i] (s.startSave i serves) :=
  (s.wr_besideSlot hi (slotFlds_words i).1 slotSaving).of_regs (s.startSave_regs i serves)

theorem State.startSave_reported (s : State) (i : Nat) (serves : Serves) :
    ((s.startSave i serves).ctxSlotOf i).reported = [] := by
  simp [State.startSave, State.modSlotRec, State.ctxSlotOf]

/-! ## What the end of a window operation leaves -/

theorem State.slotCtx_ctxDone (s : State) (status : Nat) (hi : i < 8) :
    (s.ctxDone status).slotCtx i = s.slotCtx i := by
  obtain ⟨-, ctx, -⟩ := (s.windowDone_beside .ctx status).slot hi (slotWord_apart hi)
  exact ctx

theorem State.raised_ctxDone (s : State) (status : Nat) {k : Nat} (h : (s.rd .ctx Reg.intRaw_RAW).testBit k = true) :
    ((s.ctxDone status).rd .ctx Reg.intRaw_RAW).testBit k = true :=
  State.raise_keeps _ _ _ (by
    rwa [State.rd_wr_off _ _ (by decide) (by decide) (by decide) (by decide) (by decide),
      State.rd_wr_off _ _ (by decide) (by decide) (by decide) (by decide) (by decide)])

/-! ## BUSY of the window changes nothing that an operation looks at -/

theorem State.busy_slot (s : State) (hi : i < 8) : (s.wr .ctx Reg.strmWinCmd_BUSY 1).slotState i = s.slotState i ∧
    (s.wr .ctx Reg.strmWinCmd_BUSY 1).slotCtx i = s.slotCtx i ∧ (s.wr .ctx Reg.strmWinCmd_BUSY 1).blocked i = s.blocked i :=
  (s.windowBusy_beside .ctx 1).slot hi (slotWord_apart hi)

theorem State.busy_ctxRec (s : State) (k : Nat) : (s.wr .ctx Reg.strmWinCmd_BUSY 1).ctxRec k = s.ctxRec k :=
  State.ctxRec_congr (State.wr_ctxs ..) k

theorem State.busy_isRelief (s : State) (i : Nat) : (s.wr .ctx Reg.strmWinCmd_BUSY 1).isRelief i = s.isRelief i := by
  unfold State.isRelief State.flag
  rw [(s.windowBusy_beside .ctx 1).rd (f := Reg.ctxCfg_RELIEF_EN) (by decide),
    (s.windowBusy_beside .ctx 1).rd (f := Reg.ctxCfg_RELIEF_SLOT) (by decide)]

theorem State.busy_loadTarget (s : State) : (s.wr .ctx Reg.strmWinCmd_BUSY 1).loadTarget = s.loadTarget := by
  unfold State.loadTarget
  refine List.find?_congr fun i hi => ?_
  rw [(s.busy_slot (List.mem_range.mp hi)).1, s.busy_isRelief]

theorem State.busy_causeOf (s : State) (k : Nat) : (s.wr .ctx Reg.strmWinCmd_BUSY 1).causeOf k = s.causeOf k := by
  have ring (c r : Nat) : (s.wr .ctx Reg.strmWinCmd_BUSY 1).ringCtx c r = s.ringCtx c r :=
    State.rd_wr_page _ (by simp [ringPage])
  have chan (c : Nat) : (s.wr .ctx Reg.strmWinCmd_BUSY 1).chan c = s.chan c := by simp [State.chan]
  simp only [State.causeOf, s.busy_ctxRec, ring, chan, State.wr_xlat]

theorem State.busy_inReplay (s : State) (k : Nat) : (s.wr .ctx Reg.strmWinCmd_BUSY 1).inReplay k = s.inReplay k := by
  have page {p : Page} (hp : p ≠ .ctx) (f : Fld) : (s.wr .ctx Reg.strmWinCmd_BUSY 1).rd p f = s.rd p f :=
    State.rd_wr_page _ hp
  simp only [State.inReplay, State.replayOn, State.replayState, State.target, State.ringCtx, State.blk,
    page (p := .rpl) (by decide), page (p := ringPage _ _) (by simp [ringPage])]
  rfl

/-- A choice depends on the keys of the slots it is made of only. -/
theorem leastBy_congr {key key' : Nat → Nat} {l : List Nat} (h : ∀ i ∈ l, key i = key' i) : leastBy key l = leastBy key' l := by
  unfold leastBy
  suffices ∀ best : Option Nat, (∀ b ∈ best, key b = key' b) →
      l.foldl (fun best i => match best with
        | some b => if key i < key b then some i else some b
        | none => some i) best =
      l.foldl (fun best i => match best with
        | some b => if key' i < key' b then some i else some b
        | none => some i) best from this none (by simp)
  induction l with
  | nil => exact fun _ _ => rfl
  | cons x l ih =>
    intro best hb
    have hx := h x List.mem_cons_self
    have step := ih fun i hi => h i (List.mem_cons_of_mem _ hi)
    cases best with
    | none => exact step (some x) (by simpa using hx)
    | some b =>
      have hb := hb b rfl
      simp only [List.foldl_cons, hx, hb]
      refine step _ fun k hk => ?_
      split at hk
      · obtain rfl := Option.mem_some_iff.mp hk
        exact hx
      · obtain rfl := Option.mem_some_iff.mp hk
        exact hb

/-- A choice is made among the slots it is made of. -/
theorem leastBy_mem {key : Nat → Nat} {l : List Nat} {j : Nat} (h : leastBy key l = some j) : j ∈ l := by
  unfold leastBy at h
  suffices ∀ best : Option Nat, l.foldl (fun best i => match best with
        | some b => if key i < key b then some i else some b
        | none => some i) best = some j → j ∈ l ∨ best = some j from
    (this none h).resolve_right (by simp)
  clear h
  induction l with
  | nil => exact fun best h => .inr h
  | cons x l ih =>
    intro best h
    rcases ih _ h with h | h
    · exact .inl (List.mem_cons_of_mem _ h)
    · cases best with
      | none => exact .inl (by simp_all)
      | some b =>
        dsimp only at h
        split at h
        · exact .inl (by simp_all)
        · exact .inr h

theorem State.busy_slotAge (s : State) (hi : i < 8) : (s.wr .ctx Reg.strmWinCmd_BUSY 1).slotAge i = s.slotAge i := by
  have rank (j : Nat) : (s.wr .ctx Reg.strmWinCmd_BUSY 1).ctxSlotOf j = s.ctxSlotOf j := by simp [State.ctxSlotOf]
  unfold State.slotAge
  simp only [rank, (s.busy_slot hi).2.2]
  split
  · rfl
  · refine congrArg List.length (List.filter_congr fun j hj => ?_)
    rw [(s.busy_slot (List.mem_range.mp hj)).2.2]

theorem State.busy_loadVictim (s : State) (k : Nat) : (s.wr .ctx Reg.strmWinCmd_BUSY 1).loadVictim k = s.loadVictim k := by
  unfold State.loadVictim
  dsimp only
  have same : (List.range 8).filter (fun i => (s.wr .ctx Reg.strmWinCmd_BUSY 1).slotState i = slotResident &&
        !(s.wr .ctx Reg.strmWinCmd_BUSY 1).isRelief i &&
        ((s.wr .ctx Reg.strmWinCmd_BUSY 1).ctxRec ((s.wr .ctx Reg.strmWinCmd_BUSY 1).slotCtx i)).prio <
          ((s.wr .ctx Reg.strmWinCmd_BUSY 1).ctxRec k).prio &&
        (s.wr .ctx Reg.strmWinCmd_BUSY 1).slotCause i ≠ 5 &&
        !(s.wr .ctx Reg.strmWinCmd_BUSY 1).inReplay ((s.wr .ctx Reg.strmWinCmd_BUSY 1).slotCtx i)) =
      (List.range 8).filter fun i => s.slotState i = slotResident && !s.isRelief i &&
        (s.ctxRec (s.slotCtx i)).prio < (s.ctxRec k).prio && s.slotCause i ≠ 5 && !s.inReplay (s.slotCtx i) := by
    refine List.filter_congr fun i hi => ?_
    obtain ⟨state, ctx, blocked⟩ := s.busy_slot (List.mem_range.mp hi)
    simp only [State.slotCause, state, ctx, blocked, s.busy_isRelief, s.busy_ctxRec, s.busy_causeOf, s.busy_inReplay]
    rfl
  rw [same]
  refine leastBy_congr fun i hi => ?_
  have hi := List.mem_range.mp (List.mem_filter.mp hi).1
  obtain ⟨-, ctx, blocked⟩ := s.busy_slot hi
  rw [ctx, blocked, s.busy_ctxRec, s.busy_slotAge hi]

theorem State.loadVictim_lt {k j : Nat} (h : s.loadVictim k = some j) : j < 8 :=
  List.mem_range.mp (List.mem_filter.mp (leastBy_mem h)).1

end Sys2Proof.Machine
end

section
/-!
## READ, ADMIT, UPDATE, LOAD and EVICT of the context window (R452)
-/

namespace Sys2Proof.Machine

variable {s t u : State} {m : Master} {n : Nat}

theorem exec_ctxRead (h : WindowReady m .ctx s) :
    exec (.ctxRead m) s = .next ((s.wr .ctx Reg.strmWinCmd_BUSY 1).ctxOp 1 (s.rd .ctx Reg.ctxWinIdx_IDX)) := by
  rw [exec, execCtxRead, live_of_powered h.1, State.ctxWindow, State.windowStart_ready h]

theorem exec_admitContext (h : WindowReady m .ctx s) :
    exec (.admitContext m) s = .next ((s.wr .ctx Reg.strmWinCmd_BUSY 1).ctxAdmit (s.rd .ctx Reg.ctxWinIdx_IDX)) := by
  rw [exec, execAdmit, live_of_powered h.1, State.ctxWindow, State.windowStart_ready h, State.ctxOp, if_neg (by decide),
    if_pos rfl]

theorem exec_updateContext (h : WindowReady m .ctx s) :
    exec (.update m) s = .next ((s.wr .ctx Reg.strmWinCmd_BUSY 1).ctxUpdate (s.rd .ctx Reg.ctxWinIdx_IDX)) := by
  rw [exec, execUpdate, live_of_powered h.1, State.ctxWindow, State.windowStart_ready h, State.ctxOp, if_neg (by decide),
    if_neg (by decide), if_pos rfl]

theorem exec_loadContext (h : WindowReady m .ctx s) :
    exec (.load m) s = .next ((s.wr .ctx Reg.strmWinCmd_BUSY 1).ctxLoad (s.rd .ctx Reg.ctxWinIdx_IDX)) := by
  rw [exec, execLoad, live_of_powered h.1, State.ctxWindow, State.windowStart_ready h, State.ctxOp, if_neg (by decide),
    if_neg (by decide), if_neg (by decide), if_pos rfl]

theorem exec_evictContext (h : WindowReady m .ctx s) :
    exec (.evict m) s = .next ((s.wr .ctx Reg.strmWinCmd_BUSY 1).ctxEvict (s.rd .ctx Reg.ctxWinIdx_IDX)) := by
  rw [exec, execEvict, live_of_powered h.1, State.ctxWindow, State.windowStart_ready h, State.ctxOp, if_neg (by decide),
    if_neg (by decide), if_neg (by decide), if_neg (by decide), if_pos rfl]

/-- The status of an ADMIT: the first check that fails. -/
def State.admitStatus (s : State) (n : Nat) : Nat :=
  if (s.ctxRec n).state ≠ ctxNone then ctxEntryBusy
  else if badCtxArg (s.windowData .ctx) then ctxBadArg
  else ctxOk

/-- The status of an UPDATE: the first check that fails. -/
def State.updateStatus (s : State) (n : Nat) : Nat :=
  if (s.ctxRec n).state = ctxNone then ctxNotAdmitted
  else if ((s.ctxRec n).saveVa ≠ bitsOf (s.windowData .ctx) 128 48 ∨
      (s.ctxRec n).saveMb ≠ bitsOf (s.windowData .ctx) 16 10) ∧ (s.ctxRec n).state ≠ ctxAway then ctxIsMoving
  else if badCtxArg (s.windowData .ctx) then ctxBadArg
  else ctxOk

/-- An operation on a record writes it where no check fails, and ends with its status. -/
def State.ctxWritten (s : State) (n status : Nat) (f : CtxRec → CtxRec) : State :=
  (if status = ctxOk then s.modCtx n f else s).ctxDone status

theorem State.ctxAdmit_eq (s : State) (n : Nat) : s.ctxAdmit n = s.ctxWritten n (s.admitStatus n) fun r =>
    { r.take (s.windowData .ctx) with state := ctxAway, image := false, gen := 0 } := by
  by_cases hs : (s.ctxRec n).state ≠ ctxNone
  · simp only [State.ctxAdmit, State.admitStatus, if_pos hs]
    rfl
  by_cases hb : badCtxArg (s.windowData .ctx) = true
  · simp only [State.ctxAdmit, State.admitStatus, if_neg hs, if_pos hb]
    rfl
  · simp only [State.ctxAdmit, State.admitStatus, if_neg hs, if_neg hb]
    rfl

theorem State.ctxUpdate_eq (s : State) (n : Nat) :
    s.ctxUpdate n = s.ctxWritten n (s.updateStatus n) fun r => r.take (s.windowData .ctx) := by
  have moved : (((bitsOf (s.windowData .ctx) 128 48 ≠ (s.ctxRec n).saveVa || bitsOf (s.windowData .ctx) 16 10 ≠
      (s.ctxRec n).saveMb) && (s.ctxRec n).state ≠ ctxAway : Bool) = true) =
      (((s.ctxRec n).saveVa ≠ bitsOf (s.windowData .ctx) 128 48 ∨
        (s.ctxRec n).saveMb ≠ bitsOf (s.windowData .ctx) 16 10) ∧ (s.ctxRec n).state ≠ ctxAway) := by
    simp only [Bool.and_eq_true, Bool.or_eq_true, decide_eq_true_eq, ne_comm]
  simp only [State.ctxUpdate, State.updateStatus, moved]
  by_cases hs : (s.ctxRec n).state = ctxNone
  · simp only [if_pos hs]
    rfl
  by_cases hm : ((s.ctxRec n).saveVa ≠ bitsOf (s.windowData .ctx) 128 48 ∨
      (s.ctxRec n).saveMb ≠ bitsOf (s.windowData .ctx) 16 10) ∧ (s.ctxRec n).state ≠ ctxAway
  · simp only [if_neg hs, if_pos hm]
    rfl
  by_cases hb : badCtxArg (s.windowData .ctx) = true
  · simp only [if_neg hs, if_neg hm, if_pos hb]
    rfl
  · simp only [if_neg hs, if_neg hm, if_neg hb]
    rfl

theorem State.admitStatus_lt (s : State) (n : Nat) : s.admitStatus n < 2 ^ 8 := by
  unfold State.admitStatus
  split_ifs <;> decide

theorem State.updateStatus_lt (s : State) (n : Nat) : s.updateStatus n < 2 ^ 8 := by
  unfold State.updateStatus
  split_ifs <;> decide

theorem State.busy_windowData (s : State) : (s.wr .ctx Reg.strmWinCmd_BUSY 1).windowData .ctx = s.windowData .ctx :=
  (s.windowBusy_beside .ctx 1).windowData

theorem State.busy_statuses (s : State) (n : Nat) :
    (s.wr .ctx Reg.strmWinCmd_BUSY 1).admitStatus n = s.admitStatus n ∧
      (s.wr .ctx Reg.strmWinCmd_BUSY 1).updateStatus n = s.updateStatus n := by
  simp only [State.admitStatus, State.updateStatus, s.busy_ctxRec, s.busy_windowData, and_self]

/-- What an operation on a record shows. -/
theorem State.ctxWritten_shows (s : State) (n : Nat) {status : Nat} (h : status < 2 ^ 8) (f : CtxRec → CtxRec) :
    let t := (s.wr .ctx Reg.strmWinCmd_BUSY 1).ctxWritten n status f
    WindowEnded .ctx status t ∧ s.sameWords t [.ctx] ∧ (∀ k, k ≠ n → t.ctxRec k = s.ctxRec k) ∧
      (status ≠ ctxOk → t.ctxs = s.ctxs) ∧ (status = ctxOk → t.ctxRec n = f (s.ctxRec n)) := by
  intro t
  have began : s.sameWords (s.wr .ctx Reg.strmWinCmd_BUSY 1) [.ctx] := State.sameWords.refl.wr (List.mem_singleton_self _)
  by_cases hs : status = ctxOk
  · have ht : t = ((s.wr .ctx Reg.strmWinCmd_BUSY 1).modCtx n f).ctxDone status := by
      simp only [t, State.ctxWritten, if_pos hs]
    have entry (k : Nat) : t.ctxRec k = if k = n then f (s.ctxRec n) else s.ctxRec k := by
      rw [ht, State.ctxRec_ctxDone, State.ctxRec_modCtx, s.busy_ctxRec, s.busy_ctxRec]
    refine ⟨ht ▸ windowEnded_windowDone _ _ h, ht ▸ ?_, fun k hk => by rw [entry, if_neg hk], fun hn => absurd hs hn,
      fun _ => by rw [entry, if_pos rfl]⟩
    exact (began.of_regs (State.modCtx_regs ..)).trans (State.windowDone_sameWords _ _ _)
  · have ht : t = (s.wr .ctx Reg.strmWinCmd_BUSY 1).ctxDone status := by
      simp only [t, State.ctxWritten, if_neg hs]
    have same : t.ctxs = s.ctxs := by
      rw [ht, (State.ctxDone_moves_self _ status).ctxs (by decide), State.wr_ctxs]
    exact ⟨ht ▸ windowEnded_windowDone _ _ h, ht ▸ began.trans (State.windowDone_sameWords _ _ _),
      fun k _ => State.ctxRec_congr same k, fun _ => same, fun hn => absurd hn hs⟩

theorem contextRecords : Rules.ContextRecords := by
  rintro m s n h rfl
  generalize hn : s.rd .ctx Reg.ctxWinIdx_IDX = n
  obtain ⟨admitted, updated⟩ := s.busy_statuses n
  refine ⟨?_, ?_, ?_⟩
  · have ran := exec_ctxRead h
    rw [hn, State.ctxOp, if_pos rfl] at ran
    have moved : Moves ⟨false, [.out, .msix, .recorder], [.ctx]⟩ s (((s.wr .ctx Reg.strmWinCmd_BUSY 1).setWindowData .ctx
        ((s.wr .ctx Reg.strmWinCmd_BUSY 1).ctxRec n).encode).ctxDone ctxOk) :=
      State.windowDone_moves (State.setWindowData_moves (State.wr_moves .refl _ _ _ (List.mem_singleton_self _)) _ _
        (by decide) (List.mem_singleton_self _)) _ _ (by decide) (List.mem_singleton_self _)
    refine ⟨_, ran, windowEnded_ctxDone _, ?_, ?_, moved.sameTables⟩
    · rw [State.ctxDone, (State.windowDone_beside _ _ _).windowData, State.windowData_setWindowData, s.busy_ctxRec]
    · exact moved.sameWords fun q hq => by cases q <;> simp_all
  · have ran := exec_admitContext h
    rw [hn, State.ctxAdmit_eq, admitted, s.busy_windowData] at ran
    obtain ⟨ended, same, others, rejected, accepted⟩ := s.ctxWritten_shows n (s.admitStatus_lt n)
      fun r => { r.take (s.windowData .ctx) with state := ctxAway, image := false, gen := 0 }
    refine ⟨_, _, ran, ended, same, others, ?_⟩
    split
    · next hs =>
      have status : s.admitStatus n = ctxEntryBusy := by rw [State.admitStatus, if_pos hs]
      exact ⟨status, rejected (by rw [status]; decide)⟩
    · next hs =>
      split
      · next hb =>
        have status : s.admitStatus n = ctxBadArg := by rw [State.admitStatus, if_neg hs, if_pos hb]
        exact ⟨status, rejected (by rw [status]; decide)⟩
      · next hb =>
        have status : s.admitStatus n = ctxOk := by rw [State.admitStatus, if_neg hs, if_neg hb]
        exact ⟨status, accepted status⟩
  · have ran := exec_updateContext h
    rw [hn, State.ctxUpdate_eq, updated, s.busy_windowData] at ran
    obtain ⟨ended, same, others, rejected, accepted⟩ := s.ctxWritten_shows n (s.updateStatus_lt n)
      fun r => r.take (s.windowData .ctx)
    refine ⟨_, _, ran, ended, same, others, ?_⟩
    split
    · next hs =>
      have status : s.updateStatus n = ctxNotAdmitted := by rw [State.updateStatus, if_pos hs]
      exact ⟨status, rejected (by rw [status]; decide)⟩
    · next hs =>
      split
      · next hm =>
        have status : s.updateStatus n = ctxIsMoving := by rw [State.updateStatus, if_neg hs, if_pos hm]
        exact ⟨status, rejected (by rw [status]; decide)⟩
      · next hm =>
        split
        · next hb =>
          have status : s.updateStatus n = ctxBadArg := by rw [State.updateStatus, if_neg hs, if_neg hm, if_pos hb]
          exact ⟨status, rejected (by rw [status]; decide)⟩
        · next hb =>
          have status : s.updateStatus n = ctxOk := by rw [State.updateStatus, if_neg hs, if_neg hm, if_neg hb]
          exact ⟨status, accepted status⟩

/-! ## LOAD and EVICT -/

/-- A LOAD of an AWAY context (R467). -/
theorem State.ctxLoad_away (h : (s.ctxRec n).state = ctxAway) : s.ctxLoad n =
    match s.loadTarget, s.loadVictim n with
    | some i, _ => (s.startRestore i n).ctxDone ctxOk
    | none, some j =>
      ((({ s with loads := s.loads ++ [n] } : State).modCtx n fun r => { r with state := ctxMoving }).startSave j
        (.load n)).ctxDone ctxOk
    | none, none => s.ctxDone ctxNoSlot := by
  rw [State.ctxLoad, h, if_neg (by decide), if_neg (by decide), if_neg (by decide)] <;> rfl

/-- The state of a LOAD that waits for the save of its victim. -/
def State.loadWaits (s : State) (n : Nat) : State :=
  ({ s with loads := s.loads ++ [n] } : State).modCtx n fun r => { r with state := ctxMoving }

theorem State.loadWaits_ctxRec (s : State) (n : Nat) : ((s.loadWaits n).ctxRec n).state = ctxMoving := by
  rw [State.loadWaits, State.ctxRec_modCtx, if_pos rfl]

theorem State.loadWaits_loads (s : State) (n : Nat) : (s.loadWaits n).loads = s.loads ++ [n] := rfl

theorem State.loadWaits_regs (s : State) (n : Nat) : (s.loadWaits n).regs = s.regs := rfl

theorem State.loadTarget_none (h : ∀ i, i < 8 → s.slotState i ≠ slotFree ∨ s.isRelief i = true) : s.loadTarget = none := by
  refine List.find?_eq_none.mpr fun i hi => ?_
  rcases h i (List.mem_range.mp hi) with h | h
  · simp [h]
  · simp [h]

theorem State.loadTarget_some {i : Nat} (hi : i < 8) (hf : s.slotState i = slotFree) (hr : s.isRelief i = false)
    (hj : ∀ j, j < i → s.slotState j ≠ slotFree ∨ s.isRelief j = true) : s.loadTarget = some i := by
  refine List.find?_range_eq_some.mpr ⟨by simp [hf, hr], List.mem_range.mpr hi, fun j hlt => ?_⟩
  rcases hj j hlt with h | h
  · simp [h]
  · simp [h]

theorem restoreBegun_ctxDone {i : Nat} (h : RestoreBegun s t i n) (hi : i < 8) (status : Nat) :
    RestoreBegun s (t.ctxDone status) i n :=
  restoreBegun_later h (State.slotState_ctxDone _ _ hi) (State.slotCtx_ctxDone _ _ hi) (State.ctxRec_ctxDone ..)
    (State.raised_ctxDone _ _)

theorem contextLoads (h : WindowReady m .ctx s) (hn : s.rd .ctx Reg.ctxWinIdx_IDX = n)
    (ha : (s.ctxRec n).state = ctxAway) :
    ∃ t status, exec (.load m) s = .next t ∧ WindowEnded .ctx status t ∧
        (∀ i, i < 8 → s.slotState i = slotFree → s.isRelief i = false →
          (∀ j, j < i → s.slotState j ≠ slotFree ∨ s.isRelief j = true) → status = ctxOk ∧ RestoreBegun s t i n) ∧
        (∀ j, (∀ i, i < 8 → s.slotState i ≠ slotFree ∨ s.isRelief i = true) → s.loadVictim n = some j →
          status = ctxOk ∧ t.loads = s.loads ++ [n] ∧ (t.ctxRec n).state = ctxMoving ∧ t.slotState j = slotSaving ∧
            (t.ctxRec (s.slotCtx j)).state = ctxMoving) ∧
        ((∀ i, i < 8 → s.slotState i ≠ slotFree ∨ s.isRelief i = true) → s.loadVictim n = none →
          status = ctxNoSlot ∧ t.ctxs = s.ctxs) := by
  set u := s.wr .ctx Reg.strmWinCmd_BUSY 1 with hu
  have hn256 : n < 256 := by
    rw [← hn, State.rd_narrow _ _ (by decide)]
    exact bitsOf_lt ..
  have ran := exec_loadContext h
  rw [hn, ← hu, State.ctxLoad_away (by rw [hu, s.busy_ctxRec]; exact ha), hu, s.busy_loadTarget, s.busy_loadVictim] at ran
  cases target : s.loadTarget with
  | some i =>
    rw [target] at ran
    have full (hfull : ∀ i, i < 8 → s.slotState i ≠ slotFree ∨ s.isRelief i = true) : False := by
      simp [State.loadTarget_none hfull] at target
    refine ⟨_, _, ran, windowEnded_ctxDone _, fun j hj hf hr hlow => ⟨rfl, ?_⟩, fun _ hfull => (full hfull).elim,
      fun hfull => (full hfull).elim⟩
    obtain rfl : i = j := Option.some.inj (target.symm.trans (State.loadTarget_some hj hf hr hlow))
    exact restoreBegun_of_image (restoreBegun_ctxDone (State.startRestore_begun u hj hn256) hj ctxOk) (by rw [hu, s.busy_ctxRec])
  | none =>
    rw [target] at ran
    have target' {i : Nat} (hi : i < 8) (hf : s.slotState i = slotFree) (hr : s.isRelief i = false)
        (hj : ∀ j, j < i → s.slotState j ≠ slotFree ∨ s.isRelief j = true) : False := by
      simp [State.loadTarget_some hi hf hr hj] at target
    cases victim : s.loadVictim n with
    | some j =>
      rw [victim] at ran
      have hj := State.loadVictim_lt victim
      refine ⟨_, _, ran, windowEnded_ctxDone _, fun i hi hf hr hlow => (target' hi hf hr hlow).elim, fun k _ hk => ?_,
        fun _ hnone => absurd hnone (by simp)⟩
      obtain rfl := Option.some.inj hk
      change ctxOk = ctxOk ∧ (((u.loadWaits n).startSave j (.load n)).ctxDone ctxOk).loads = _ ∧
        ((((u.loadWaits n).startSave j (.load n)).ctxDone ctxOk).ctxRec n).state = _ ∧
        (((u.loadWaits n).startSave j (.load n)).ctxDone ctxOk).slotState j = _ ∧
        ((((u.loadWaits n).startSave j (.load n)).ctxDone ctxOk).ctxRec (s.slotCtx j)).state = _
      have hctx : (u.loadWaits n).slotCtx j = s.slotCtx j :=
        (State.slot_congr (u.loadWaits_regs n) j).2.trans (s.busy_slot hj).2.1
      refine ⟨rfl, ?_, ?_, ?_, ?_⟩
      · rw [(State.ctxDone_moves_self _ _).loads (by decide),
          (State.startSave_moves .refl j _ .refl : Moves ⟨false, _, _⟩ (u.loadWaits n) _).loads (by decide),
          State.loadWaits_loads, hu, State.wr_loads]
      · rw [State.ctxRec_ctxDone, State.ctxRec_startSave]
        split
        · rfl
        · exact u.loadWaits_ctxRec n
      · rw [State.slotState_ctxDone _ _ hj, State.startSave_state]
      · rw [State.ctxRec_ctxDone, State.ctxRec_startSave, hctx, if_pos rfl]
    | none =>
      rw [victim] at ran
      refine ⟨_, _, ran, windowEnded_windowDone _ _ (by decide), fun i hi hf hr hlow => (target' hi hf hr hlow).elim,
        fun k _ hk => absurd hk (by simp), fun _ _ => ⟨rfl, ?_⟩⟩
      rw [(State.ctxDone_moves_self _ _).ctxs (by decide), State.wr_ctxs]

theorem contextEvicts (h : WindowReady m .ctx s) (hn : s.rd .ctx Reg.ctxWinIdx_IDX = n)
    (hr : (s.ctxRec n).state = ctxResident) (hlt : (s.ctxRec n).slot < 8) :
    ∃ t, exec (.evict m) s = .next t ∧ WindowEnded .ctx ctxOk t ∧
        t.slotState (s.ctxRec n).slot = slotSaving ∧ (t.ctxRec (s.slotCtx (s.ctxRec n).slot)).state = ctxMoving ∧
        (t.ctxSlotOf (s.ctxRec n).slot).reported = [] := by
  have ran := exec_evictContext h
  rw [hn, State.ctxEvict, s.busy_ctxRec, hr, if_neg (by decide), if_neg (by decide)] at ran
  refine ⟨_, ran, windowEnded_ctxDone _, ?_, ?_, ?_⟩
  · rw [State.slotState_ctxDone _ _ hlt, State.startSave_state]
  · rw [State.ctxRec_ctxDone, State.ctxRec_startSave, (s.busy_slot hlt).2.1, if_pos rfl]
  · rw [State.ctxSlotOf, (State.ctxDone_moves_self _ _).parts .ctxSlots (by decide)]
    exact State.startSave_reported _ _ _

/-- Settles O20. -/
theorem contextRecordOperations : Obligations.ContextRecordOperations :=
  ⟨contextRecords, fun _ _ _ h hn => ⟨contextLoads h hn.symm, contextEvicts h hn.symm⟩⟩

end Sys2Proof.Machine
end

section
/-!
## Blocked contexts and the relief rule (R465, R466, R469)
-/

namespace Sys2Proof.Machine

variable {s t u : State} {n : Nat}

theorem exec_contextBlocked (hp : s.dev.powered = true) (slot : CtxSlotId) (hs : s.slotState slot = slotResident)
    (hb : s.blocked slot = false) (hr : s.inReplay (s.slotCtx slot) = false) : exec (.contextBlocked slot) s =
    .next ((s.wr .ctx (Reg.ctxSlot_BLOCKED slot) 1).modSlotRec slot fun x => { x with blockedAt := s.cyc domHub }) := by
  rw [exec, execContextBlocked, live_of_powered hp]
  simp [hs, hb, hr]

/-- A slot that is marked BLOCKED shows it beside what it showed. -/
theorem State.markBlocked_shows (s : State) (i : CtxSlotId) :
    (s.wr .ctx (Reg.ctxSlot_BLOCKED i) 1).blocked i = true ∧
      (s.wr .ctx (Reg.ctxSlot_BLOCKED i) 1).slotState i = s.slotState i ∧
      (s.wr .ctx (Reg.ctxSlot_BLOCKED i) 1).slotCtx i = s.slotCtx i := by
  have off : 0x140 + 4 * i.val < 4096 := by omega
  refine ⟨?_, ?_, ?_⟩
  · rw [State.blocked, State.flag, State.rd_wr_same _ _ _ (by simp [Reg.ctxSlot_BLOCKED])]
    rfl
  · exact State.rd_wr_off _ _ (by simp [Reg.ctxSlot_BLOCKED]) (by simp [Reg.ctxSlot_STATE]) off off
      (.inr (.inl (by simp [Reg.ctxSlot_BLOCKED, Reg.ctxSlot_STATE])))
  · exact State.rd_wr_off _ _ (by simp [Reg.ctxSlot_BLOCKED]) (by simp [Reg.ctxSlot_CTX]) off off
      (.inr (.inl (by simp [Reg.ctxSlot_BLOCKED, Reg.ctxSlot_CTX])))

theorem contextBlocks (hp : s.dev.powered = true) (slot : CtxSlotId) (hs : s.slotState slot = slotResident)
    (hb : s.blocked slot = false) (hr : s.inReplay (s.slotCtx slot) = false) :
    ∃ t, exec (.contextBlocked slot) s = .next t ∧ t.blocked slot = true ∧
        (t.ctxSlotOf slot).blockedAt = s.cyc domHub ∧ t.slotState slot = slotResident ∧
        t.slotCtx slot = s.slotCtx slot ∧ s.sameWords t [.ctx] ∧ t = { s with regs := t.regs, ctxSlots := t.ctxSlots } := by
  obtain ⟨blocked, state, ctx⟩ := s.markBlocked_shows slot
  refine ⟨_, exec_contextBlocked hp slot hs hb hr, blocked, ?_, state.trans hs, ctx, ?_, ?_⟩
  · simp [State.modSlotRec, State.ctxSlotOf]
  · exact (State.sameWords.refl.wr (List.mem_singleton_self _)).of_regs rfl
  · rw [State.wr_eq]
    rfl

/-- The victim of the relief rule is a RESIDENT slot. -/
theorem State.reliefVictim_resident {j : Nat} (h : s.reliefVictim = some j) : j < 8 ∧ s.slotState j = slotResident := by
  have hm := List.mem_filter.mp (leastBy_mem h)
  simp only [Bool.and_eq_true, decide_eq_true_eq] at hm
  exact ⟨List.mem_range.mp hm.1, hm.2.1.1.1⟩

theorem State.reliefChoice_lt (h : s.reliefChoice = some n) : n < 256 :=
  List.mem_range.mp (List.mem_filter.mp (leastBy_mem h)).1

theorem State.reliefDue_free (h : s.reliefDue = true) : s.slotState (s.rd .ctx Reg.ctxCfg_RELIEF_SLOT) = slotFree := by
  simp only [State.reliefDue, Bool.and_eq_true, decide_eq_true_eq] at h
  exact h.1.1.2

/-- The restore into the relief slot is noted, and which context it serves. -/
def State.noteRelief (s : State) (i n : Nat) : State := { s with lastRelief := n, reliefInto := some i }

theorem State.noteRelief_regs (s : State) (i n : Nat) : (s.noteRelief i n).regs = s.regs := rfl

theorem State.noteRelief_ctxs (s : State) (i n : Nat) : (s.noteRelief i n).ctxs = s.ctxs := rfl

theorem exec_relief_victim (hp : s.dev.powered = true) (hd : s.reliefDue = true) (hf : s.dev.farrierUp = true)
    (hc : s.reliefChoice = some n) {j : Nat} (hv : s.reliefVictim = some j) : exec .relief s =
    .next ((((s.startSave j .relief).noteRelief (s.rd .ctx Reg.ctxCfg_RELIEF_SLOT) n).startRestore
      (s.rd .ctx Reg.ctxCfg_RELIEF_SLOT) n).bump .ctx Reg.ctxCnt_RELIEFS) := by
  rw [exec, execRelief, live_of_powered hp]
  simp only [hd, hf, hc, hv, Bool.not_true, Bool.or_self, Bool.false_eq_true, if_false, State.noteRelief]

theorem exec_relief_noVictim (hp : s.dev.powered = true) (hd : s.reliefDue = true) (hf : s.dev.farrierUp = true)
    (hc : s.reliefChoice = some n) (hv : s.reliefVictim = none) :
    exec .relief s = .next ((s.bump .ctx Reg.ctxCnt_NOVICTIM).raise .ctx 2) := by
  rw [exec, execRelief, live_of_powered hp]
  simp only [hd, hf, hc, hv, Bool.not_true, Bool.or_self, Bool.false_eq_true, if_false]

/-- A count of reliefs lies beside every slot's word and the interrupts. -/
theorem State.countRelief_keeps (s : State) {i : Nat} (hi : i < 8) :
    (s.bump .ctx Reg.ctxCnt_RELIEFS).slotState i = s.slotState i ∧
      (s.bump .ctx Reg.ctxCnt_RELIEFS).slotCtx i = s.slotCtx i := by
  have beside : s.Beside .ctx [0x10c] (s.bump .ctx Reg.ctxCnt_RELIEFS) := .wr _ _ _ (by decide) (.inr (by decide))
  obtain ⟨state, ctx, -⟩ := beside.slot hi (by
    simp only [slotWord, List.mem_singleton]
    omega)
  exact ⟨state, ctx⟩

theorem reliefs (hp : s.dev.powered = true) (hd : s.reliefDue = true) (hf : s.dev.farrierUp = true)
    (hc : s.reliefChoice = some n) {j : Nat} (hv : s.reliefVictim = some j) :
    ∃ t, exec .relief s = .next t ∧ RestoreBegun s t (s.rd .ctx Reg.ctxCfg_RELIEF_SLOT) n ∧
          t.slotState j = slotSaving ∧ t.lastRelief = n ∧
          t.reliefInto = some (s.rd .ctx Reg.ctxCfg_RELIEF_SLOT) ∧
          t.rd .ctx Reg.ctxCnt_RELIEFS = min (s.rd .ctx Reg.ctxCnt_RELIEFS + 1) (2 ^ Reg.ctxCnt_RELIEFS.w - 1) := by
  have ran := exec_relief_victim hp hd hf hc hv
  have free := State.reliefDue_free hd
  have hi : s.rd .ctx Reg.ctxCfg_RELIEF_SLOT < 8 := by
    rw [State.rd_narrow _ _ (by decide)]
    exact bitsOf_lt ..
  generalize s.rd .ctx Reg.ctxCfg_RELIEF_SLOT = i at ran free hi ⊢
  obtain ⟨hj, resident⟩ := State.reliefVictim_resident hv
  have apart : j ≠ i := by
    rintro rfl
    exact absurd (resident.symm.trans free) (by decide)
  set v := (s.startSave j .relief).noteRelief i n with hvdef
  have image : (v.ctxRec n).image = (s.ctxRec n).image := by
    rw [State.ctxRec_congr (State.noteRelief_ctxs ..), State.ctxRec_startSave]
    split <;> rfl
  have begun := v.startRestore_begun hi (State.reliefChoice_lt hc)
  have beside := v.startRestore_beside hi n
  have moves : Moves ⟨false, [.out, .msix, .ctxs, .ctxSlots], [.ctx]⟩ v ((v.startRestore i n).bump .ctx Reg.ctxCnt_RELIEFS) :=
    State.bump_moves (State.startRestore_moves .refl i n .refl) _ _ _ (List.mem_singleton_self _)
  obtain ⟨state, ctx⟩ := (v.startRestore i n).countRelief_keeps hi
  refine ⟨_, ran, restoreBegun_later (restoreBegun_of_image begun image) state ctx
    (State.ctxRec_congr (State.bump_ctxs ..) n) fun h => ?_, ?_, ?_, ?_, ?_⟩
  · rwa [State.rd_bump_off _ _ (by decide) (by decide) (by decide) (by decide) (by decide)]
  · rw [((v.startRestore i n).countRelief_keeps hj).1, (beside.slot hj (by
      simp only [slotWord, List.mem_cons, List.not_mem_nil, or_false]
      omega)).1, (State.slot_congr (State.noteRelief_regs ..) j).1, State.startSave_state]
  · rw [moves.parts .lastRelief (by decide)]
    rfl
  · rw [moves.parts .reliefInto (by decide)]
    rfl
  · have cnt : (v.startRestore i n).rd .ctx Reg.ctxCnt_RELIEFS = s.rd .ctx Reg.ctxCnt_RELIEFS := by
      rw [beside.rd (by simp [Fld.words, Reg.ctxCnt_RELIEFS, slotWord]; omega), State.rd_congr (State.noteRelief_regs ..),
        (s.startSave_beside hj .relief).rd (by simp [Fld.words, Reg.ctxCnt_RELIEFS, slotWord]; omega)]
    rw [State.rd_bump_same _ _ _ (by decide), cnt]

theorem countsNoVictim (hp : s.dev.powered = true) (hd : s.reliefDue = true) (hf : s.dev.farrierUp = true)
    (hc : s.reliefChoice = some n) (hv : s.reliefVictim = none) :
    ∃ t, exec .relief s = .next t ∧
      t.rd .ctx Reg.ctxCnt_NOVICTIM = min (s.rd .ctx Reg.ctxCnt_NOVICTIM + 1) (2 ^ Reg.ctxCnt_NOVICTIM.w - 1) ∧
          (t.rd .ctx Reg.intRaw_RAW).testBit 2 = true ∧ s.sameTables t := by
  have moves : Moves ⟨false, [.out, .msix, .recorder], [.ctx]⟩ s ((s.bump .ctx Reg.ctxCnt_NOVICTIM).raise .ctx 2) :=
    State.raise_moves (State.bump_moves .refl _ _ _ (List.mem_singleton_self _)) _ _ (List.mem_singleton_self _)
      (by decide) (by decide)
  refine ⟨_, exec_relief_noVictim hp hd hf hc hv, ?_, State.raise_sets _ _ (by decide), moves.sameTables⟩
  rw [State.rd_raise_off _ _ (by decide) (by decide) (by decide), State.rd_bump_same _ _ _ (by decide)]

/-- Settles O23. -/
theorem blockedContextsAndRelief : Obligations.BlockedContextsAndRelief := by
  refine fun s hp => ⟨fun slot hs hb hr => contextBlocks hp slot hs hb hr, fun n hd hf hc => ?_⟩
  cases hv : s.reliefVictim with
  | some j =>
    obtain ⟨t, ran, shows⟩ := reliefs hp hd hf hc hv
    exact ⟨t, ran, fun k hk => Option.some.inj hk ▸ shows, fun h => absurd h (by simp)⟩
  | none =>
    obtain ⟨t, ran, shows⟩ := countsNoVictim hp hd hf hc hv
    exact ⟨t, ran, fun k hk => absurd hk (by simp), fun _ => shows⟩

end Sys2Proof.Machine
end

section
/-!
## What the steps of translation leave (R422 to R441)
-/

namespace Sys2Proof.Machine

variable {s t u : State}

/-- The words of the hub MMU's page that faults change: HMMU_NOCTX and INT_RAW. -/
def hmmuFaultWords : List Nat := [0x118, 0x10]

/-- What a walk, a fault and a retry leave: the cached translations and table entries, an invalidation under way,
accesses that have been retried, the hub MMU's page but its record of a NO_CONTEXT fault, interrupts that are set, and
a card that is not replaying. -/
structure State.Translates (s t : State) : Prop where
  sets : ∀ k, (t.cache k).sets = (s.cache k).sets
  ready : ∀ k, (t.cache k).ready = (s.cache k).ready
  ctt : t.xlat.ctt = s.xlat.ctt
  inval : t.xlat.inval = s.xlat.inval
  retried : s.xlat.retried ⊆ t.xlat.retried
  hmmu : s.Beside .hmmu hmmuFaultWords t
  raw : ∀ n, (s.rd .hmmu Reg.intRaw_RAW).testBit n = true → (t.rd .hmmu Reg.intRaw_RAW).testBit n = true
  replay : t.replayState = rplReplaying → s.replayState = rplReplaying

theorem State.Translates.refl : s.Translates s :=
  ⟨fun _ => rfl, fun _ => rfl, rfl, rfl, List.Subset.refl _, .refl, fun _ h => h, fun h => h⟩

theorem State.Translates.trans (h1 : s.Translates t) (h2 : t.Translates u) : s.Translates u :=
  ⟨fun k => (h2.sets k).trans (h1.sets k), fun k => (h2.ready k).trans (h1.ready k), h2.ctt.trans h1.ctt,
    h2.inval.trans h1.inval, List.Subset.trans h1.retried h2.retried, h1.hmmu.trans h2.hmmu, fun n h => h2.raw n (h1.raw n h),
    fun h => h1.replay (h2.replay h)⟩

theorem State.Translates.ite {b : Prop} [Decidable b] (h1 : s.Translates t) (h2 : s.Translates u) :
    s.Translates (if b then t else u) := by
  split <;> assumption

theorem State.Translates.fold {α : Type} {f : State → α → State} {l : List α}
    (hf : ∀ u : State, ∀ x ∈ l, u.Translates (f u x)) (s : State) : s.Translates (l.foldl f s) :=
  foldl_keeps (P := fun u => s.Translates u) (fun u x hx hu => hu.trans (hf u x hx)) .refl

/-! ## Changes of the tables of translation -/

theorem State.cache_congr (h : t.xlat.caches = s.xlat.caches) (k : CacheId) : t.cache k = s.cache k := by
  rw [State.cache, h, State.cache]

theorem State.cache_modCache (s : State) (k k' : CacheId) (f : Cache → Cache) :
    (s.modCache k f).cache k' = if cacheKey k' = cacheKey k then f (s.cache k) else s.cache k' := by
  simp [State.cache, State.modCache, State.modXlat]

/-- The tables change beside what a cache serves. -/
theorem State.Translates.modXlat (s : State) {f : Translation → Translation} (hc : (f s.xlat).caches = s.xlat.caches)
    (ht : (f s.xlat).ctt = s.xlat.ctt) (hi : (f s.xlat).inval = s.xlat.inval)
    (hr : s.xlat.retried ⊆ (f s.xlat).retried) : s.Translates (s.modXlat f) :=
  ⟨fun k => by rw [State.cache_congr (t := s.modXlat f) hc], fun k => by rw [State.cache_congr (t := s.modXlat f) hc], ht, hi, hr,
    fun _ _ _ => State.word_congr rfl .hmmu _, fun _ h => h, fun h => h⟩

theorem State.Translates.modCache (s : State) (k : CacheId) {f : Cache → Cache} (hs : (f (s.cache k)).sets = (s.cache k).sets)
    (hr : (f (s.cache k)).ready = (s.cache k).ready) : s.Translates (s.modCache k f) := by
  have same {k' : CacheId} (h : cacheKey k' = cacheKey k) : s.cache k' = s.cache k := by rw [State.cache, h, State.cache]
  refine ⟨fun k' => ?_, fun k' => ?_, rfl, rfl, List.Subset.refl _, fun _ _ _ => State.word_congr rfl .hmmu _, fun _ h => h,
    fun h => h⟩
  · rw [State.cache_modCache]
    split
    · next h => rw [hs, same h]
    · rfl
  · rw [State.cache_modCache]
    split
    · next h => rw [hr, same h]
    · rfl

/-! ## Changes of registers -/

/-- A change beside the tables of translation, by what it leaves of the registers. -/
theorem State.Translates.of_shown (hx : t.xlat = s.xlat) (hh : s.Beside .hmmu hmmuFaultWords t)
    (hr : ∀ n, (s.rd .hmmu Reg.intRaw_RAW).testBit n = true → (t.rd .hmmu Reg.intRaw_RAW).testBit n = true)
    (hp : t.replayState = rplReplaying → s.replayState = rplReplaying) : s.Translates t := by
  have caches (k : CacheId) : t.cache k = s.cache k := State.cache_congr (by rw [hx]) k
  exact ⟨fun k => by rw [caches], fun k => by rw [caches], by rw [hx], by rw [hx], by rw [hx]; exact List.Subset.refl _, hh, hr, hp⟩

theorem State.Translates.wr (s : State) {p : Page} (f : Fld) (v : Nat) (h : .hmmu ≠ p) (hr : .rpl ≠ p) :
    s.Translates (s.wr p f v) :=
  .of_shown (State.wr_xlat ..) (.of_sameWords (State.sameWords.refl.wr (List.mem_singleton_self p)) (by simpa using h))
    (fun _ hb => by rwa [State.rd_wr_page _ h]) fun he => by rwa [State.replayState, State.rd_wr_page _ hr] at he

theorem State.Translates.bump (s : State) {p : Page} (f : Fld) (n : Nat) (h : .hmmu ≠ p) (hr : .rpl ≠ p) :
    s.Translates (s.bump p f n) := .wr _ _ _ h hr

theorem State.Translates.raise (s : State) (p : Page) (n : Nat) : s.Translates (s.raise p n) := by
  refine .of_shown (State.raise_xlat ..) (.raise _ _ _ (.inr (by decide))) (fun k hb => ?_) fun he => ?_
  · by_cases h : p = .hmmu
    · subst h
      exact State.raise_keeps _ _ _ hb
    · rwa [State.rd_raise_page _ (Ne.symm h)]
  · rwa [State.replayState, State.rd_raise_other _ (by decide) (by decide) (.inr (by decide))] at he

theorem State.Translates.noctx (s : State) {f : Fld} (hf : f.lo + f.w ≤ 32) (ho : f.off = 0x118) (v : Nat) :
    s.Translates (s.wr .hmmu f v) :=
  .of_shown (State.wr_xlat ..) (.wr _ _ _ (by simp [Fld.words, hf, ho]) (.inr (by simp [Fld.words, hf, ho, hmmuFaultWords])))
    (fun _ hb => by
      rwa [State.rd_wr_off _ _ hf (by decide) (by rw [ho]; decide) (by decide) (.inl (by rw [ho]; decide))])
    fun he => by rwa [State.replayState, State.rd_wr_page _ (by decide)] at he

/-- The record of an event leaves the state of a replay. -/
theorem State.replayState_logTo (s : State) (n d : Nat) (b : RecBody) : (s.logTo n d b).replayState = s.replayState := by
  unfold State.logTo State.replayState
  dsimp only
  split
  · split
    · rw [State.rd_raise_off _ _ (by decide) (by decide) (by decide),
        State.rd_bump_off _ _ (by decide) (by decide) (by decide) (by decide) (by decide),
        State.rd_wr_off _ _ (by decide) (by decide) (by decide) (by decide) (by decide)]
      exact State.rd_congr rfl _ _
    · exact State.rd_congr rfl _ _
  · rfl

theorem State.Translates.logTo (s : State) (n d : Nat) (b : RecBody) : s.Translates (s.logTo n d b) :=
  have same : s.sameWords (s.logTo n d b) [.rpl] := State.sameWords.refl.logTo (List.mem_singleton_self _)
  have beside : s.Beside .hmmu [] (s.logTo n d b) := .of_sameWords same (by decide)
  .of_shown (State.logTo_xlat ..) (beside.mono (by simp)) (fun _ hb => by rwa [beside.rd (by decide)])
    fun he => by rwa [State.replayState_logTo] at he

theorem State.Translates.logOut (s : State) (c k v : Nat) : s.Translates (s.logOut c k v) := .logTo _ _ _ _

theorem State.stopReplay_stops (s : State) (cause : Nat) : (s.stopReplay cause).replayState ≠ rplReplaying := by
  unfold State.stopReplay State.replayState
  dsimp only
  rw [State.rd_raise_off _ _ (by decide) (by decide) (by decide),
    State.rd_wr_off _ _ (by decide) (by decide) (by decide) (by decide) (by decide), State.rd_wr_same _ _ _ (by decide)]
  decide

theorem State.Translates.stopReplay (s : State) (cause : Nat) : s.Translates (s.stopReplay cause) :=
  have moves : Moves ⟨false, [.out, .msix, .recorder], [.rpl]⟩ s (s.stopReplay cause) := State.stopReplay_moves .refl _ .refl
  .of_shown (moves.xlat (by decide)) (.of_moves moves (by simp [pageKind]))
    (fun _ hb => by rwa [moves.rd_eq (by decide)]) fun he => absurd he (s.stopReplay_stops cause)

/-! ## Faults -/

theorem State.Translates.heldSince (s before : State) : s.Translates (s.heldSince before) :=
  .ite (.raise _ _ _) .refl

theorem State.Translates.onStall (s : State) : ∀ r, s.Translates (s.onStall r)
  | .ringFetch _ _ | .drain _ _ | .cvu _ | .lodger _ _ =>
    (State.Translates.wr _ _ _ Page.noConfusion Page.noConfusion).trans (.raise _ _ _)
  | .addrGen _ _ _ | .transfer _ _ _ => .raise _ _ _
  | .save _ _ => .ite (.wr _ _ _ Page.noConfusion Page.noConfusion) .refl
  | .splitRead _ _ | .scan _ _ | .initRead _ _ | .copy _ | .seal _ _ _ | .landing _ _ | .sync _ _ => .refl
  | .recorder _ | .completion _ _ | .walk _ _ => .refl

theorem State.Translates.onResume (s : State) : ∀ r, s.Translates (s.onResume r)
  | .ringFetch _ _ | .lodger _ _ => .wr _ _ _ Page.noConfusion Page.noConfusion
  | .save _ _ => .ite (.wr _ _ _ Page.noConfusion Page.noConfusion) .refl
  | .addrGen _ _ _ | .drain _ _ | .cvu _ | .transfer _ _ _ | .splitRead _ _ | .scan _ _ | .initRead _ _ | .copy _ => .refl
  | .seal _ _ _ | .landing _ _ | .sync _ _ | .recorder _ | .completion _ _ | .walk _ _ => .refl

theorem State.Translates.enterFault (s : State) (f : FaultEntry) : s.Translates (s.enterFault f) := by
  unfold State.enterFault
  split
  · extract_lets id s1 s2
    have entered : s.Translates s1 := .modXlat s rfl rfl rfl (List.Subset.refl _)
    have shown : s1.Translates s2 := by
      unfold s2
      split
      · exact ((State.Translates.noctx _ (f := Reg.hmmuNoctx_FAULTID) (by decide) rfl _).trans
          (.noctx _ (f := Reg.hmmuNoctx_CTX) (by decide) rfl _)).trans (.raise _ _ _)
      · split
        · exact (State.Translates.wr _ _ _ Page.noConfusion Page.noConfusion).trans (.raise _ _ _)
        · exact .refl
    split
    · exact (entered.trans shown).trans (.logOut _ _ _ _)
    · exact (entered.trans shown).trans (.logTo _ _ _ _)
  · exact .modXlat s rfl rfl rfl (List.Subset.refl _)

theorem State.Translates.fault (s : State) (a : MemAccess) (cause level : Nat) : s.Translates (s.fault a cause level) := by
  unfold State.fault
  exact .ite (.stopReplay _ _) (((State.Translates.enterFault _ _).trans (.onStall _ _)).trans (.heldSince _ _))

theorem State.Translates.freeFault (s : State) (id : Nat) : s.Translates (s.freeFault id) := by
  unfold State.freeFault
  extract_lets left
  have leaves : s.Translates left := .modXlat s rfl rfl rfl (List.Subset.refl _)
  split
  · exact (leaves.trans (.modXlat left rfl rfl rfl (List.Subset.refl _))).trans (.enterFault _ _)
  · exact leaves

/-! ## Walks -/

/-- A miss is counted (R424). -/
def State.countMiss (s : State) (k : CacheId) : State :=
  match k with
  | .cmmu c => s.bump (.cmmu c) Reg.cmmuCnt_MISSES
  | .hmmu => s

theorem State.Translates.countMiss (s : State) : ∀ k, s.Translates (s.countMiss k)
  | .cmmu c => .bump s (p := .cmmu c) _ _ Page.noConfusion Page.noConfusion
  | .hmmu => .refl

theorem State.countMiss_xlat (s : State) : ∀ k, (s.countMiss k).xlat = s.xlat
  | .cmmu _ => State.wr_xlat ..
  | .hmmu => rfl

/-- What becomes of an access that is to walk: nothing where it walks or waits already, a NO_CONTEXT fault where the
context translation table is not enabled, and otherwise it joins a walk, takes a walker or waits (R422, R424). -/
theorem State.walkFor_cases (s : State) (k : CacheId) (a : MemAccess) :
    (((∃ w ∈ (s.cache k).walks, a ∈ w.2.joined) ∨ a ∈ (s.cache k).waiting) ∧ s.walkFor k a = s) ∨
    (s.flag .hmmu Reg.hmmuCtt_EN = false ∧ s.walkFor k a = (s.countMiss k).fault a causeNoContext 0) ∨
    (s.flag .hmmu Reg.hmmuCtt_EN = true ∧ ∃ f : Cache → Cache, s.walkFor k a = (s.countMiss k).modCache k f ∧
      (f (s.cache k)).sets = (s.cache k).sets ∧ (f (s.cache k)).ready = (s.cache k).ready ∧
      ((∃ w ∈ (f (s.cache k)).walks, a ∈ w.2.joined) ∨ a ∈ (f (s.cache k)).waiting)) := by
  unfold State.walkFor
  extract_lets x same v
  have hv : v = s.countMiss k := by
    unfold v State.countMiss
    split <;> rfl
  clear_value v
  subst hv
  have enabled : (s.countMiss k).flag .hmmu Reg.hmmuCtt_EN = s.flag .hmmu Reg.hmmuCtt_EN := by
    cases k with
    | cmmu c => rw [State.flag, State.countMiss, State.rd_bump_page _ (by simp), State.flag]
    | hmmu => rfl
  split
  · next h =>
    refine .inl ⟨?_, rfl⟩
    simpa only [Bool.or_eq_true, List.any_eq_true, List.contains_iff_mem] using h
  · rw [enabled]
    cases hen : s.flag .hmmu Reg.hmmuCtt_EN with
    | false => exact .inr (.inl ⟨rfl, rfl⟩)
    | true =>
      refine .inr (.inr ⟨rfl, ?_⟩)
      rw [Bool.not_true, if_neg Bool.false_ne_true]
      split
      · next i w _ =>
        exact ⟨_, rfl, rfl, rfl, .inl ⟨(i, { w with joined := w.joined ++ [a] }), Tab.mem_set_self _ _ _, by simp⟩⟩
      · split
        · next i _ => exact ⟨_, rfl, rfl, rfl, .inl ⟨(i, _), Tab.mem_set_self _ _ _, List.mem_singleton_self _⟩⟩
        · exact ⟨_, rfl, rfl, rfl, .inr (List.mem_append_right _ (List.mem_singleton_self _))⟩

theorem State.Translates.walkFor (s : State) (k : CacheId) (a : MemAccess) : s.Translates (s.walkFor k a) := by
  obtain ⟨-, e⟩ | ⟨-, e⟩ | ⟨-, f, e, hs, hr, -⟩ := s.walkFor_cases k a
  · rw [e]
    exact .refl
  · rw [e]
    exact (State.Translates.countMiss s k).trans (.fault _ _ _ _)
  · rw [e]
    have cache : (s.countMiss k).cache k = s.cache k := State.cache_congr (by rw [State.countMiss_xlat]) k
    exact (State.Translates.countMiss s k).trans (.modCache _ _ (by rw [cache, hs]) (by rw [cache, hr]))

theorem State.Translates.endWalk (s : State) (k : CacheId) (i : Nat) : s.Translates (s.endWalk k i) := by
  unfold State.endWalk
  extract_lets v
  have freed : s.Translates v := .modCache s k rfl rfl
  split
  · exact (freed.trans (.modCache v k rfl rfl)).trans (.walkFor _ _ _)
  · exact freed

theorem State.Translates.retryFault (s : State) (f : FaultEntry) : s.Translates (s.retryFault f) := by
  unfold State.retryFault
  extract_lets s1 s2
  have resumed : s.Translates s2 := ((State.Translates.freeFault s f.id).trans (.onResume _ _)).trans
    (.modXlat s1 rfl rfl rfl (List.subset_append_left _ _))
  split
  · exact resumed
  · exact resumed.trans (.walkFor _ _ _)

end Sys2Proof.Machine
end

section
/-!
## Invalidations (R428 to R432)
-/

namespace Sys2Proof.Machine

variable {s t u : State} {m : Master} {v : Inval}

theorem State.invalidate_free (hw : s.writable m .hmmu 0x128 = true) (hl : s.holdsLock m .hmmu 0 = true)
    (hb : s.flag .hmmu Reg.hmmuInvStat_BUSY = false) (scope ctx count : Nat) : s.invalidate m scope ctx count =
    Invalidating s ⟨scope, ctx, s.rd .hmmu Reg.hmmuInvVa_VA * 4096, max 1 count⟩ := by
  unfold State.invalidate
  rw [if_pos ⟨hw, hl, by rw [hb]; rfl⟩, State.modXlat, State.wr_xlat]
  rfl

theorem State.invalidate_held (h : s.holdsLock m .hmmu 0 = false ∨ s.flag .hmmu Reg.hmmuInvStat_BUSY = true)
    (scope ctx count : Nat) : s.invalidate m scope ctx count = s := by
  unfold State.invalidate
  refine if_neg fun ⟨_, hl, hb⟩ => ?_
  rcases h with h | h
  · exact absurd (h.symm.trans hl) (by decide)
  · rw [h] at hb
    exact absurd hb (by decide)

theorem exec_invalidations (hp : s.dev.powered = true) (m : Master) (ctx : CtxId) (count : BitVec 20) :
    exec (.invAll m) s = .next (s.invalidate m 0 0 0) ∧ exec (.invContext m ctx) s = .next (s.invalidate m 1 ctx.toNat 0) ∧
      exec (.invRange m ctx count) s = .next (s.invalidate m 2 ctx.toNat count.toNat) ∧
      exec (.invCtt m ctx) s = .next (s.invalidate m 3 ctx.toNat 0) := by
  simp only [exec, execInvAll, execInvContext, execInvRange, execInvCtt, live_of_powered hp, and_self]

theorem invalidationsStart : Rules.InvalidationsStart := by
  rintro m ctx count s va hp rfl
  obtain ⟨all, context, range, table⟩ := exec_invalidations hp m ctx count
  rw [all, context, range, table]
  refine ⟨fun hw hl hb => ?_, fun h => ?_⟩
  · simp only [State.invalidate_free hw hl hb]
    simp
  · simp only [State.invalidate_held h, and_self]

/-- The walks of the contexts in scope start again (R432). -/
def State.restartWalks (s : State) (v : Inval) (x : Cache) : Cache :=
  { x with walks := x.walks.map fun w =>
      match w.2.joined with
      | a :: _ => if w.2.joined.any fun a => v.scope = 0 || a.ctx = v.ctx then
          (w.1, { w.2 with stage := s.firstStage a.ctx }) else w
      | [] => w }

/-- A cache that has applied an invalidation holds none of the translations in scope. -/
theorem State.invalidateCache_sets (s : State) (v : Inval) (k k' : CacheId) :
    ((s.invalidateCache v k).cache k').sets =
      if cacheKey k' = cacheKey k then ((s.cache k).drop v.removes).sets else (s.cache k').sets := by
  have cache : (s.invalidateCache v k).cache k' =
      (s.modCache k fun x => s.restartWalks v (x.drop v.removes)).cache k' := by
    unfold State.invalidateCache
    extract_lets hit s1
    cases k with
    | cmmu c => exact State.cache_congr (by rw [State.bump_xlat]; rfl) k'
    | hmmu => rfl
  rw [cache, State.cache_modCache]
  split <;> rfl

theorem State.invalidateCache_xlat (s : State) (v : Inval) (k : CacheId) :
    (s.invalidateCache v k).xlat.ctt = s.xlat.ctt ∧ (s.invalidateCache v k).xlat.inval = s.xlat.inval := by
  unfold State.invalidateCache
  extract_lets hit s1
  cases k with
  | cmmu c => rw [State.bump_xlat]; exact ⟨rfl, rfl⟩
  | hmmu => exact ⟨rfl, rfl⟩

/-- No translation in the scope of an invalidation is in a cache. -/
def Cache.Clear (x : Cache) (v : Inval) : Prop := ∀ e ∈ x.sets, ∀ t ∈ e.2, v.removes t = false

theorem Cache.clear_drop (x : Cache) (v : Inval) : (x.drop v.removes).Clear v := by
  intro e he t ht
  obtain ⟨e', -, rfl⟩ := List.mem_map.mp he
  simpa using (List.mem_filter.mp ht).2

theorem Cache.Clear.of_sets {x y : Cache} (h : x.Clear v) (e : y.sets = x.sets) : y.Clear v := by
  unfold Cache.Clear at h ⊢
  rwa [e]

/-- Once every cache of the device has applied an invalidation, no cache holds a translation in scope. -/
theorem State.invalidateCaches_clear (s : State) (v : Inval) (ks : List CacheId) (k : CacheId)
    (h : k ∈ ks ∨ (s.cache k).Clear v) : ((ks.foldl (fun s k => s.invalidateCache v k) s).cache k).Clear v := by
  induction ks generalizing s with
  | nil => exact h.resolve_left List.not_mem_nil
  | cons k' ks ih =>
    refine ih (s.invalidateCache v k') ?_
    by_cases hk : k ∈ ks
    · exact .inl hk
    · refine .inr ?_
      by_cases same : cacheKey k = cacheKey k'
      · refine ((s.cache k').clear_drop v).of_sets ?_
        rw [State.invalidateCache_sets, if_pos same]
      · have hc : (s.cache k).Clear v := h.resolve_left fun hm =>
          (List.mem_cons.mp hm).elim (fun e => same (by rw [e])) hk
        refine hc.of_sets ?_
        rw [State.invalidateCache_sets, if_neg same]

theorem mem_allCaches (k : CacheId) : k ∈ allCaches := by
  cases k with
  | hmmu => decide
  | cmmu c =>
    revert c
    decide

/-- The table entries in scope go, and the invalidation is no longer under way. -/
def State.dropEntries (s : State) (v : Inval) : State :=
  s.modXlat fun x => { x with inval := none, ctt := x.ctt.filter fun e => !v.namesEntry e.1 }

/-- Every cache applies an invalidation. -/
def State.invalidateAll (s : State) (v : Inval) : State :=
  allCaches.foldl (fun s k => s.invalidateCache v k) (s.dropEntries v)

/-- The end of an invalidation shows in the hub MMU's page. -/
def State.showInvalidated (s : State) : State :=
  ((s.wrap .hmmu Reg.hmmuInvStat_DONE).wr .hmmu Reg.hmmuInvStat_BUSY 0).raise .hmmu 0

theorem State.invalidateAll_moves (s : State) (v : Inval) : Moves ⟨false, [.xlat], [.cmmu]⟩ s (s.invalidateAll v) :=
  Moves.fold (State.modXlat_moves .refl _ (by decide)) fun _ _ hu => State.invalidateCache_moves hu _ _ (by decide)

theorem State.invalidateAll_tables (s : State) (v : Inval) : (s.invalidateAll v).xlat.inval = none ∧
    (s.invalidateAll v).xlat.ctt = s.xlat.ctt.filter fun e => !v.namesEntry e.1 := by
  refine foldl_keeps (P := fun u : State => u.xlat.inval = none ∧
    u.xlat.ctt = s.xlat.ctt.filter fun e => !v.namesEntry e.1) (fun u k _ hu => ?_) ⟨rfl, rfl⟩
  obtain ⟨ctt, inval⟩ := u.invalidateCache_xlat v k
  exact ⟨inval.trans hu.1, ctt.trans hu.2⟩

theorem exec_invalidationComplete (hp : s.dev.powered = true) (hv : s.xlat.inval = some v) :
    exec .invalidationComplete s = .next (((s.invalidateAll v).showInvalidated.xlat.faults.filter fun f =>
      f.cause = causeNoContext && v.namesEntry f.access.ctx).foldl (fun s f => s.retryFault f)
        (s.invalidateAll v).showInvalidated) := by
  rw [exec, execInvalidationComplete, live_of_powered hp]
  simp only [hv]
  rfl

theorem invalidationRemoves : Rules.InvalidationRemoves := by
  intro s v hp hv
  refine ⟨_, exec_invalidationComplete hp hv, ?_⟩
  generalize (s.invalidateAll v).showInvalidated.xlat.faults.filter _ = fs
  have after := State.Translates.fold (l := fs) (f := fun s f => s.retryFault f)
    (fun u f _ => .retryFault u f) (s.invalidateAll v).showInvalidated
  have xlat : (s.invalidateAll v).showInvalidated.xlat = (s.invalidateAll v).xlat := by
    rw [State.showInvalidated, State.raise_xlat, State.wr_xlat, State.wrap_xlat]
  obtain ⟨inval, ctt⟩ := s.invalidateAll_tables v
  refine ⟨?_, fun k => ?_, fun e he => ?_, ?_, ?_, ?_⟩
  · rw [after.inval, xlat, inval]
  · exact ((State.invalidateCaches_clear (s.dropEntries v) v allCaches k (.inl (mem_allCaches k))).of_sets
      (congrArg Cache.sets (State.cache_congr (t := (s.invalidateAll v).showInvalidated) (by rw [xlat]; rfl) k))).of_sets
      (after.sets k)
  · rw [after.ctt, xlat, ctt] at he
    simpa using (List.mem_filter.mp he).2
  · rw [after.hmmu.rd (by decide), State.showInvalidated, State.rd_raise_off _ _ (by decide) (by decide) (by decide),
      State.rd_wr_off _ _ (by decide) (by decide) (by decide) (by decide) (by decide), State.wrap,
      State.rd_wr_same _ _ _ (by decide),
      (s.invalidateAll_moves v).rd_eq (by decide)]
    exact Nat.mod_mod _ _
  · rw [after.hmmu.rd (by decide), State.showInvalidated, State.rd_raise_off _ _ (by decide) (by decide) (by decide),
      State.rd_wr_same _ _ _ (by decide)]
    rfl
  · exact after.raw 0 (State.raise_sets _ _ (by decide))

/-- Settles O25. -/
theorem invalidations : Obligations.Invalidations := ⟨invalidationsStart, invalidationRemoves⟩

end Sys2Proof.Machine
end

section
/-!
## Walks and faults (R416 to R426, R433 to R435, R542)
-/

namespace Sys2Proof.Machine

variable {s t u : State} {a b : MemAccess} {k : CacheId}

/-! ## Faults that have come in stay -/

/-- Every fault that stood in the table, or waited for an entry, still does (R435). -/
def State.FaultsStay (s t : State) : Prop := ∀ b cause level, Faulted s b cause level → Faulted t b cause level

theorem State.FaultsStay.refl : s.FaultsStay s := fun _ _ _ h => h

theorem State.FaultsStay.trans (h1 : s.FaultsStay t) (h2 : t.FaultsStay u) : s.FaultsStay u :=
  fun _ _ _ h => h2 _ _ _ (h1 _ _ _ h)

theorem State.FaultsStay.of_tables (hf : t.xlat.faults = s.xlat.faults) (ho : t.xlat.overflow = s.xlat.overflow) :
    s.FaultsStay t := by
  intro b cause level h
  unfold Faulted at h ⊢
  rwa [hf, ho]

theorem State.FaultsStay.of_xlat (h : t.xlat = s.xlat) : s.FaultsStay t := .of_tables (by rw [h]) (by rw [h])

/-- A fault comes in (R435). -/
theorem State.enterFault_enters (s : State) (f : FaultEntry) :
    Faulted (s.enterFault f) f.access f.cause f.level ∧ s.FaultsStay (s.enterFault f) := by
  unfold State.FaultsStay Faulted
  obtain ⟨hf, ho⟩ | ⟨hf, ho⟩ := s.enterFault_cases f
  · rw [hf, ho]
    refine ⟨⟨{ f with id := s.xlat.nextId }, by simp, rfl, rfl, rfl⟩, fun b cause level ⟨g, hg, h⟩ => ⟨g, ?_, h⟩⟩
    rcases List.mem_append.mp hg with hg | hg <;> simp [hg]
  · rw [hf, ho]
    refine ⟨⟨f, by simp, rfl, rfl, rfl⟩, fun b cause level ⟨g, hg, h⟩ => ⟨g, ?_, h⟩⟩
    rcases List.mem_append.mp hg with hg | hg <;> simp [hg]

theorem State.onStall_xlat (s : State) (r : RequesterId) : (s.onStall r).xlat = s.xlat :=
  (State.onStall_moves .refl r .refl : Moves ⟨false, [.out, .msix], _⟩ s _).xlat (by decide)

theorem State.heldSince_xlat (s before : State) : (s.heldSince before).xlat = s.xlat :=
  (State.heldSince_moves .refl before .refl : Moves ⟨false, [.out, .msix], _⟩ s _).xlat (by decide)

/-- A fault of a card that does not replay stands in the table, or waits (R433 to R435). -/
theorem State.fault_faults (h : s.replayState ≠ rplReplaying) (a : MemAccess) (cause level : Nat) :
    Faulted (s.fault a cause level) a cause level := by
  have live : ((reqCh? a.req).elim false fun c => s.replayOn c) = false := by
    cases reqCh? a.req with
    | none => rfl
    | some c => simp [State.replayOn, h]
  unfold State.fault
  extract_lets f
  rw [live, if_neg Bool.false_ne_true]
  exact State.FaultsStay.of_xlat ((State.heldSince_xlat ..).trans (State.onStall_xlat ..)) _ _ _ (s.enterFault_enters f).1

theorem State.fault_stay (s : State) (a : MemAccess) (cause level : Nat) : s.FaultsStay (s.fault a cause level) := by
  unfold State.fault
  extract_lets f
  split
  · exact .of_xlat (State.stopReplay_xlat _ _)
  · exact (s.enterFault_enters f).2.trans (.of_xlat ((State.heldSince_xlat ..).trans (State.onStall_xlat ..)))

theorem State.walkFor_stay (s : State) (k : CacheId) (a : MemAccess) : s.FaultsStay (s.walkFor k a) := by
  have missed : s.FaultsStay (s.countMiss k) := .of_xlat (s.countMiss_xlat k)
  obtain ⟨-, e⟩ | ⟨-, e⟩ | ⟨-, f, e, -⟩ := s.walkFor_cases k a
  · rw [e]
    exact .refl
  · rw [e]
    exact missed.trans ((s.countMiss k).fault_stay _ _ _)
  · rw [e]
    exact missed.trans (.of_tables rfl rfl)

theorem State.endWalk_stay (s : State) (k : CacheId) (i : Nat) : s.FaultsStay (s.endWalk k i) := by
  unfold State.endWalk
  extract_lets v
  have freed : s.FaultsStay v := .of_tables rfl rfl
  split
  · exact freed.trans (.trans (t := v.modCache k _) (.of_tables rfl rfl) (State.walkFor_stay _ _ _))
  · exact freed

/-- Accesses that fault one after the other all stand in the table, or wait. -/
theorem State.faults_fold (l : List MemAccess) (cause level : Nat) (h : s.replayState ≠ rplReplaying) :
    s.FaultsStay (l.foldl (fun s a => s.fault a cause level) s) ∧
      ∀ b ∈ l, Faulted (l.foldl (fun s a => s.fault a cause level) s) b cause level := by
  induction l generalizing s with
  | nil => exact ⟨.refl, nofun⟩
  | cons a l ih =>
    obtain ⟨stay, all⟩ := ih (s := s.fault a cause level) fun he => h ((State.Translates.fault s a cause level).replay he)
    refine ⟨(s.fault_stay a cause level).trans stay, fun b hb => ?_⟩
    rcases List.mem_cons.mp hb with rfl | hb
    · exact stay _ _ _ (State.fault_faults h b cause level)
    · exact all b hb

/-- A walk that ends in a fault ends so for every access that joined it (R426, R435). -/
theorem State.walkFault_faults (h : s.replayState ≠ rplReplaying) (k : CacheId) (i : Nat) (w : Walk) (cause level : Nat) :
    ∀ b ∈ w.joined, Faulted (s.walkFault k i w cause level) b cause level := by
  intro b hb
  unfold State.walkFault
  have freed : (s.modCache k fun x => { x with walks := Tab.erase x.walks i }).replayState ≠ rplReplaying :=
    fun he => h ((State.Translates.modCache s k rfl rfl).replay he)
  exact State.endWalk_stay _ _ _ _ _ _ ((State.faults_fold w.joined cause level freed).2 b hb)

/-! ## WALK_READ_RETURN -/

section
variable {i : Nat} {w : Walk} {rest : List MemAccess} {data : BitVec 256}

/-- A read of an entry is counted where an HBM stack serves it (R360). -/
def State.countEntry (s : State) (tg : Target) : State := s.countHbm none tg hbmData 8

theorem State.countEntry_moves (s : State) (tg : Target) : Moves ⟨false, [], [.hbmc]⟩ s (s.countEntry tg) :=
  State.countHbm_moves .refl _ _ _ _ .refl

theorem State.mem_congr (h : t.chans = s.chans) (tg : Target) : t.mem tg = s.mem tg := by
  cases tg with
  | host => rfl
  | hbm c => rw [State.mem, State.mem, State.chan_congr h]
  | ast c => rw [State.mem, State.mem, State.chan_congr h]

theorem State.entryAt_congr (h : t.chans = s.chans) (tg : Target) (addr data : Nat) :
    t.entryAt tg addr data = s.entryAt tg addr data := by
  cases tg with
  | host => rfl
  | hbm c => rw [State.entryAt, State.entryAt, State.mem_congr h]
  | ast c => rw [State.entryAt, State.entryAt, State.mem_congr h]

theorem exec_walkReadReturn_table (hp : s.dev.powered = true) (hw : ((s.cache k).walks.find? fun e => e.1 = i) = some (i, w))
    (hj : w.joined = a :: rest) (hs : w.stage = .table) : exec (.walkReadReturn k i data false) s = .next
      (match parseCtt data.toNat with
      | none => s.walkFault k i w causeNoContext 0
      | some e => (s.modXlat fun x => { x with ctt := Tab.set x.ctt a.ctx e }).modCache k fun x =>
          { x with walks := Tab.set x.walks i { w with stage := .level 0 e.target e.root } }) := by
  rw [exec, execWalkReadReturn, live_of_powered hp, hw]
  simp only [hj, hs, Bool.false_eq_true, if_false] <;> rfl

/-- A leaf serves the accesses that joined its walk, but a write that it does not permit (R426). -/
def State.serveLeaf (s : State) (k : CacheId) (i : Nat) (w : Walk) (x : Xlat) (cached : Bool) : State :=
  let ok := w.joined.filter fun b => x.w || !b.write
  let bad := w.joined.filter fun b => !x.w && b.write
  let s1 := s.modCache k fun y =>
    let z := { y with walks := Tab.erase y.walks i, ready := y.ready ++ ok.map (·, x) }
    if !ok.isEmpty && (k ≠ .hmmu || cached) then z.insert k x else z
  (bad.foldl (fun s b => s.fault b causeWriteProt 3) s1).endWalk k i

theorem exec_walkReadReturn_level (hp : s.dev.powered = true) (hw : ((s.cache k).walks.find? fun e => e.1 = i) = some (i, w))
    (hj : w.joined = a :: rest) {n : Nat} {tg : Target} {addr : Nat} (hs : w.stage = .level n tg addr)
    (hd : s.targetDown tg = false) (hm : tg ≠ .host → (s.mem tg).poisonedAt (addr + 8 * levelIndex a.va n) 8 = false) :
    exec (.walkReadReturn k i data false) s = .next
      (match entryStep n (s.entryAt tg (addr + 8 * levelIndex a.va n) data.toNat) with
      | .bad cause => (s.countEntry tg).walkFault k i w cause n
      | .next tg' addr' => (s.countEntry tg).modCache k fun x =>
          { x with walks := Tab.set x.walks i { w with stage := .level (n + 1) tg' addr' } }
      | .leaf size tg' base wr pin hubc => (s.countEntry tg).serveLeaf k i w
          ⟨a.ctx, a.va / 2 ^ size * 2 ^ size, size, tg', base, wr, pin⟩ hubc) := by
  have chans : (s.countHbm none tg hbmData 8).chans = s.chans := (s.countEntry_moves tg).parts .chans (by decide)
  have sound : ¬ ((tg = .host ∧ False) ∨ (tg ≠ .host ∧
      ((s.countHbm none tg hbmData 8).mem tg).poisonedAt (addr + 8 * levelIndex a.va n) 8 = true)) := by
    rw [State.mem_congr chans]
    rintro (⟨-, h⟩ | ⟨hh, h⟩)
    · exact h
    · exact absurd ((hm hh).symm.trans h) (by decide)
  rw [exec, execWalkReadReturn, live_of_powered hp, hw]
  obtain ⟨stage, joined⟩ := w
  obtain rfl : stage = .level n tg addr := hs
  obtain rfl : joined = a :: rest := hj
  simp only [hd, Bool.false_eq_true, if_false, if_neg sound, State.entryAt_congr chans]
  cases entryStep n (s.entryAt tg (addr + 8 * levelIndex a.va n) data.toNat) with
  | bad cause => rfl
  | next tg' addr' => rfl
  | leaf size tg' base wr pin hubc => rfl

theorem Cache.insert_ready (x : Cache) (k : CacheId) (e : Xlat) : (x.insert k e).ready = x.ready := rfl

theorem State.serveLeaf_serves (h : s.replayState ≠ rplReplaying) (k : CacheId) (i : Nat) (w : Walk) (x : Xlat) (cached : Bool) :
    (∀ b ∈ w.joined, x.w = true ∨ b.write = false → (b, x) ∈ ((s.serveLeaf k i w x cached).cache k).ready) ∧
      ∀ b ∈ w.joined, x.w = false → b.write = true → Faulted (s.serveLeaf k i w x cached) b causeWriteProt 3 := by
  unfold State.serveLeaf
  extract_lets ok bad s1
  have ready : (s1.cache k).ready = (s.cache k).ready ++ ok.map (·, x) := by
    unfold s1
    rw [State.cache_modCache, if_pos rfl]
    dsimp only
    split <;> rfl
  have still : s1.replayState ≠ rplReplaying := h
  have after := (State.Translates.fold (l := bad) (f := fun s b => s.fault b causeWriteProt 3)
    (fun u b _ => .fault u b causeWriteProt 3) s1).trans (.endWalk _ k i)
  refine ⟨fun b hb hok => ?_, fun b hb hw hwr => ?_⟩
  · rw [after.ready, ready]
    refine List.mem_append_right _ (List.mem_map.mpr ⟨b, List.mem_filter.mpr ⟨hb, ?_⟩, rfl⟩)
    simpa using hok
  · exact State.endWalk_stay _ _ _ _ _ _ ((State.faults_fold bad causeWriteProt 3 still).2 b
      (List.mem_filter.mpr ⟨hb, by simp [hw, hwr]⟩))

end

theorem walkSteps : Rules.WalkSteps := by
  intro k i data s w a rest hp hw hj hr
  refine ⟨fun e hs he => ?_, fun hs he => ?_, fun n tg addr hs hd hm => ?_⟩
  · have ran := exec_walkReadReturn_table (data := data) hp hw hj hs
    rw [he] at ran
    refine ⟨_, ran, fun d => ?_, fun d => ?_⟩
    · exact Tab.get_set_same _ _ _ _
    · rw [State.cache_modCache, if_pos rfl]
      exact Tab.get_set_same _ _ _ _
  · have ran := exec_walkReadReturn_table (data := data) hp hw hj hs
    rw [he] at ran
    exact ⟨_, ran, State.walkFault_faults hr k i w causeNoContext 0⟩
  · have ran := exec_walkReadReturn_level (data := data) hp hw hj hs hd hm
    have still : (s.countEntry tg).replayState ≠ rplReplaying := by
      rwa [State.replayState, (s.countEntry_moves tg).rd_eq (by decide)]
    refine ⟨_, ran, ?_⟩
    cases entryStep n (s.entryAt tg (addr + 8 * levelIndex a.va n) data.toNat) with
    | bad cause => exact State.walkFault_faults still k i w cause n
    | next tg' addr' =>
      intro d
      dsimp only
      rw [State.cache_modCache, if_pos rfl]
      exact Tab.get_set_same _ _ _ _
    | leaf size tg' base wr pin hubc =>
      exact State.serveLeaf_serves still k i w ⟨a.ctx, a.va / 2 ^ size * 2 ^ size, size, tg', base, wr, pin⟩ hubc

/-! ## PCIE_REQUEST_FAILURE -/

theorem State.aer_mem (s : State) (x : Aer) (h : (s.emit (.aer x)).out <+: t.out) : .aer x ∈ t.out :=
  h.subset (List.mem_append_right _ (List.mem_singleton_self _))

theorem exec_pcieRequestFailure (hp : s.dev.powered = true) {req : RequesterId} (hreq : ∀ k i, req ≠ .walk k i) {ctx : CtxId}
    {info : ReqInfo} (hs : s.serving req ctx.toNat = some info) (hm : s.mainUp = true) (hst : s.stalled req = false)
    (va : BitVec 48) (write : Bool) (kind : PcieFailure) : exec (.pcieRequestFailure req ctx va write kind) s = .next
      ((s.emit (.aer (failureAer kind))).fault ⟨req, ctx.toNat, va.toNat, write, info⟩ causeBusError 3) := by
  rw [exec, execPcieRequestFailure, live_of_powered hp]
  · simp only [hs, hm, hst, Bool.not_true, Bool.or_self, Bool.false_eq_true, if_false]
  · exact hreq

theorem exec_pcieRequestFailure_walk (hp : s.dev.powered = true) {i : Nat} {w : Walk}
    (hw : ((s.cache k).walks.find? fun e => e.1 = i) = some (i, w)) {n addr : Nat} (hs : w.stage = .level n .host addr)
    (ctx : CtxId) (va : BitVec 48) (write : Bool) (kind : PcieFailure) :
    exec (.pcieRequestFailure (.walk k i) ctx va write kind) s = .next
      ((s.emit (.aer (failureAer kind))).walkFault k i w causeWalkError n) := by
  rw [exec, execPcieRequestFailure, live_of_powered hp, hw]
  simp only [hs]

theorem pcieFailures : Rules.PcieFailures := by
  intro ctx va write kind s hp hr
  refine ⟨fun req info hreq hs hm hst => ⟨_, exec_pcieRequestFailure hp hreq hs hm hst va write kind, ?_, ?_⟩,
    fun k i w n addr hw hs => ⟨_, exec_pcieRequestFailure_walk hp hw hs ctx va write kind, ?_, ?_⟩⟩
  · exact State.aer_mem s _ (State.fault_moves .refl _ _ _ .refl : Moves ⟨false, _, _⟩ (s.emit _) _).out
  · exact State.fault_faults (s := s.emit (.aer (failureAer kind))) hr _ _ _
  · exact State.aer_mem s _ (State.walkFault_moves .refl _ _ _ _ _ .refl : Moves ⟨false, _, _⟩ (s.emit _) _).out
  · exact State.walkFault_faults (s := s.emit (.aer (failureAer kind))) hr k i w causeWalkError n

/-- Settles O26. -/
theorem walks : Obligations.Walks := ⟨walkSteps, pcieFailures⟩

end Sys2Proof.Machine
end

section
/-!
## Fault records, RETRY, and dispositions of no fault (R436 to R441)
-/

namespace Sys2Proof.Machine

variable {s t u : State} {m : Master} {id : BitVec 24} {f : FaultEntry}

/-- The slot of the fault ring after one slot; it wraps with PHASE inverted (R438). -/
def FaultRing.after (fr : FaultRing) (e : CttEntry) : FaultRing :=
  if fr.next + 1 < 2 ^ (e.frLog2 + 4) then ⟨fr.next + 1, fr.phase⟩ else ⟨0, !fr.phase⟩

/-- The table and the ring of a context once a fault has its record (R438). -/
def State.recordFault (s : State) (ctx : Nat) (f : FaultEntry) (e : CttEntry) (fr : FaultRing) : State :=
  s.modXlat fun x => { x with
    rings := Tab.set x.rings ctx (fr.after e)
    faults := x.faults.map fun g => if g.id = f.id then { g with recorded := some fr.next } else g }

/-- The record is written, and FRVEC is sent where FRIRQ asks for it (R438). -/
def State.sendRecord (s : State) (f : FaultEntry) (e : CttEntry) (fr : FaultRing) : State :=
  let s1 := s.emit (.hostWrite (e.frBase + 32 * fr.next) (faultRecord f fr.phase))
  if e.frIrq then s1.sendVector e.frVec else s1

theorem exec_faultRecordWrite (hp : s.dev.powered = true) {ctx : CtxId} {e : CttEntry}
    (hf : (s.xlat.faults.find? fun f => f.access.ctx = ctx.toNat && f.cause ≠ causeNoContext && f.recorded = none) = some f)
    (he : f.entry = some e) (hb : s.ringBusy ctx.toNat (Tab.get {} s.xlat.rings ctx.toNat).next = false) :
    exec (.faultRecordWrite ctx) s = .next
      (((s.recordFault ctx.toNat f e (Tab.get {} s.xlat.rings ctx.toNat)).sendRecord f e
        (Tab.get {} s.xlat.rings ctx.toNat)).heldSince s) := by
  rw [exec, execFaultRecordWrite, live_of_powered hp]
  simp only [hf, he, hb, Bool.false_eq_true, if_false]
  rfl

/-- A vector that nothing masks is sent (R541). -/
theorem State.sendVector_out (s : State) (v : Nat) : ∃ l, (s.sendVector v).out = s.out ++ l ∧
    ((Tab.get {} s.msix v).masked = false → s.dev.functionMask = false → .msix v ∈ l) := by
  unfold State.sendVector
  dsimp only
  split
  · next hmask =>
    refine ⟨[], (List.append_nil _).symm, fun hv hd => ?_⟩
    rcases Bool.or_eq_true_iff.mp hmask with h | h
    · exact absurd (hd.symm.trans h) (by decide)
    · exact absurd (hv.symm.trans h) (by decide)
  · exact ⟨[.msix v], rfl, fun _ _ => List.mem_singleton_self _⟩

/-- What is sent with a record. -/
theorem State.sendRecord_out (s : State) (f : FaultEntry) (e : CttEntry) (fr : FaultRing) :
    ∃ l, (s.sendRecord f e fr).out = s.out ++ .hostWrite (e.frBase + 32 * fr.next) (faultRecord f fr.phase) :: l ∧
      (e.frIrq = true → (Tab.get {} s.msix e.frVec).masked = false → s.dev.functionMask = false → .msix e.frVec ∈ l) := by
  unfold State.sendRecord
  cases hirq : e.frIrq with
  | false => exact ⟨[], rfl, fun h => absurd h (by decide)⟩
  | true =>
    obtain ⟨l, hl, hv⟩ :=
      (s.emit (.hostWrite (e.frBase + 32 * fr.next) (faultRecord f fr.phase))).sendVector_out e.frVec
    refine ⟨l, ?_, fun _ => hv⟩
    rw [if_pos rfl, hl]
    simp [State.emit]

theorem State.sendRecord_xlat (s : State) (f : FaultEntry) (e : CttEntry) (fr : FaultRing) :
    (s.sendRecord f e fr).xlat = s.xlat := by
  unfold State.sendRecord State.sendVector
  dsimp only
  split
  · split <;> rfl
  · rfl

theorem faultRecords : Rules.FaultRecords := by
  rintro ctx s f e fr hp hf he rfl hb
  have ran := exec_faultRecordWrite hp hf he hb
  generalize Tab.get {} s.xlat.rings ctx.toNat = fr at ran ⊢
  obtain ⟨l, hout, hvec⟩ := (s.recordFault ctx.toNat f e fr).sendRecord_out f e fr
  have held : Moves ⟨false, [.out, .msix], [.hmmu]⟩ ((s.recordFault ctx.toNat f e fr).sendRecord f e fr)
      (((s.recordFault ctx.toNat f e fr).sendRecord f e fr).heldSince s) := State.heldSince_moves .refl s .refl
  obtain ⟨l', hl'⟩ := held.out
  have xlat := (held.xlat (by decide)).trans ((s.recordFault ctx.toNat f e fr).sendRecord_xlat f e fr)
  refine ⟨_, l ++ l', ran, ?_, fun hirq hv hd => List.mem_append_left _ (hvec hirq hv hd), fun g hg hid => ?_, ?_⟩
  · rw [← hl', hout]
    simp [State.recordFault]
  · rw [xlat] at hg
    obtain ⟨g', -, rfl⟩ := List.mem_map.mp hg
    split at hid
    · next h => rw [if_pos h]
    · next h => exact absurd hid h
  · rw [xlat]
    exact Tab.get_set_same _ _ _ _

/-! ## RETRY -/

theorem exec_retry (hp : s.dev.powered = true) (hr : s.reaches m .hmmu = true) (hm : mayDispose m = true) :
    exec (.retry m id) s = .next (match s.faultOf id with
      | some f => (s.logDisposition f 1).retryFault f
      | none => s.badDisposition) := by
  rw [exec, execRetry, live_of_powered hp, if_pos ⟨hr, hm⟩] <;> rfl

theorem exec_badDisposition (hp : s.dev.powered = true) (hr : s.reaches m .hmmu = true) (hm : mayDispose m = true)
    (hf : s.faultOf id = none) {i : Instr} (hi : i = .retry m id ∨ i = .abortCommand m id ∨ i = .abortContext m id) :
    exec i s = .next s.badDisposition := by
  rcases hi with rfl | rfl | rfl
  · rw [exec_retry hp hr hm, hf]
  · rw [exec, execAbortCommand, live_of_powered hp, State.dispose, if_pos ⟨hr, hm⟩, hf]
  · rw [exec, execAbortContext, live_of_powered hp, State.dispose, if_pos ⟨hr, hm⟩, hf]

theorem State.badDisposition_shows (s : State) :
    s.badDisposition.rd .hmmu Reg.hmmuFstat_BADDISP =
        min (s.rd .hmmu Reg.hmmuFstat_BADDISP + 1) (2 ^ Reg.hmmuFstat_BADDISP.w - 1) ∧
      (s.badDisposition.rd .hmmu Reg.intRaw_RAW).testBit 2 = true ∧ s.sameWords s.badDisposition [.hmmu] ∧
      s.sameTables s.badDisposition := by
  have moves : Moves ⟨false, [.out, .msix, .recorder], [.hmmu]⟩ s s.badDisposition :=
    State.raise_moves (State.bump_moves .refl _ _ _ (List.mem_singleton_self _)) _ _ (List.mem_singleton_self _)
      (by decide) (by decide)
  refine ⟨?_, State.raise_sets _ _ (by decide), moves.sameWords fun q hq => by cases q <;> simp_all, moves.sameTables⟩
  rw [State.badDisposition, State.rd_raise_off _ _ (by decide) (by decide) (by decide),
    State.rd_bump_same _ _ _ (by decide)]

theorem State.logDisposition_moves_self (s : State) (f : FaultEntry) (action : Nat) :
    Moves ⟨false, [.out, .msix, .recorder], [.rpl]⟩ s (s.logDisposition f action) := State.logDisposition_moves .refl f action .refl

/-- The state in which a retried access walks: its fault is resolved (R440). -/
def State.retrying (s : State) (f : FaultEntry) : State :=
  ((s.freeFault f.id).onResume f.access.req).modXlat fun x => { x with retried := x.retried ++ [f.access] }

theorem State.retryFault_eq (s : State) (f : FaultEntry) : s.retryFault f =
    match (s.retrying f).lookup (reqCache f.access.req) f.access with
    | some _ => s.retrying f
    | none => (s.retrying f).walkFor (reqCache f.access.req) f.access := rfl

theorem State.onResume_xlat (s : State) (r : RequesterId) : (s.onResume r).xlat = s.xlat :=
  (State.onResume_moves .refl r .refl : Moves ⟨false, [], _⟩ s _).xlat (by decide)

/-- Where no fault waits for an entry, the one that is resolved leaves the table and nothing else changes there. -/
theorem State.retrying_xlat (h : s.xlat.overflow = []) (f : FaultEntry) : (s.retrying f).xlat = { s.xlat with
    faults := s.xlat.faults.filter fun g => g.id ≠ f.id, retried := s.xlat.retried ++ [f.access] } := by
  have freed : s.freeFault f.id = s.modXlat fun x => { x with faults := x.faults.filter fun g => g.id ≠ f.id } := by
    unfold State.freeFault
    extract_lets v
    rw [show v.xlat.overflow = [] from h]
  unfold State.retrying
  rw [State.modXlat, State.onResume_xlat, freed]
  rfl

theorem State.retrying_translates (s : State) (f : FaultEntry) : s.Translates (s.retrying f) :=
  ((State.Translates.freeFault s f.id).trans (.onResume _ _)).trans
    (.modXlat _ rfl rfl rfl (List.subset_append_left _ _))

/-- The cached translations and the results of walks alone decide how an access is served. -/
theorem State.Translates.lookup (h : s.Translates t) (k : CacheId) (a : MemAccess) : t.lookup k a = s.lookup k a := by
  simp only [State.lookup, Cache.find, h.sets, h.ready]

/-- A fault comes in under the next FAULTID (R435). -/
theorem State.fault_ids (s : State) (a : MemAccess) (cause level : Nat) :
    ∀ g ∈ (s.fault a cause level).xlat.faults, g ∈ s.xlat.faults ∨ g.id = s.xlat.nextId := by
  unfold State.fault
  extract_lets f
  split
  · rw [State.stopReplay_xlat]
    exact fun g hg => .inl hg
  · rw [State.heldSince_xlat, State.onStall_xlat]
    obtain ⟨hf, -⟩ | ⟨hf, -⟩ := s.enterFault_cases f
    · rw [hf]
      intro g hg
      rcases List.mem_append.mp hg with hg | hg
      · exact .inl hg
      · rw [List.mem_singleton.mp hg]
        exact .inr rfl
    · rw [hf]
      exact fun g hg => .inl hg

theorem State.walkFor_ids (s : State) (k : CacheId) (a : MemAccess) :
    ∀ g ∈ (s.walkFor k a).xlat.faults, g ∈ s.xlat.faults ∨ g.id = s.xlat.nextId := by
  obtain ⟨-, e⟩ | ⟨-, e⟩ | ⟨-, f, e, -⟩ := s.walkFor_cases k a
  · rw [e]
    exact fun g hg => .inl hg
  · rw [e, ← s.countMiss_xlat k]
    exact State.fault_ids _ _ _ _
  · rw [e]
    intro g hg
    rw [← s.countMiss_xlat k]
    exact .inl hg

/-- An access that is to walk does so where the context translation table is enabled (R424). -/
theorem State.walkFor_walks (h : s.flag .hmmu Reg.hmmuCtt_EN = true) (k : CacheId) (a : MemAccess) :
    (∃ w ∈ ((s.walkFor k a).cache k).walks, a ∈ w.2.joined) ∨ a ∈ ((s.walkFor k a).cache k).waiting := by
  obtain ⟨walks, e⟩ | ⟨off, -⟩ | ⟨-, f, e, -, -, walks⟩ := s.walkFor_cases k a
  · rwa [e]
  · exact absurd (off.symm.trans h) (by decide)
  · have cache : (s.countMiss k).cache k = s.cache k := State.cache_congr (by rw [State.countMiss_xlat]) k
    rwa [e, State.cache_modCache, if_pos rfl, cache]

theorem retries (hp : s.dev.powered = true) (hr : s.reaches m .hmmu = true) (hm : mayDispose m = true)
    (hf : s.faultOf id = some f) (ho : s.xlat.overflow = []) (hid : s.xlat.nextId ≠ id.toNat) :
    ∃ t, exec (.retry m id) s = .next t ∧ (∀ g ∈ t.xlat.faults, g.id ≠ id.toNat) ∧
        f.access ∈ t.xlat.retried ∧
        (s.lookup (reqCache f.access.req) f.access = none → s.flag .hmmu Reg.hmmuCtt_EN = true →
          (∃ w ∈ (t.cache (reqCache f.access.req)).walks, f.access ∈ w.2.joined) ∨
            f.access ∈ (t.cache (reqCache f.access.req)).waiting) := by
  have ran := exec_retry (id := id) hp hr hm
  rw [hf] at ran
  have fid : f.id = id.toNat := by simpa using List.find?_some hf
  have logged := s.logDisposition_moves_self f 1
  set v := s.logDisposition f 1 with hv
  have vx : v.xlat = s.xlat := logged.xlat (by decide)
  have rx := State.retrying_xlat (s := v) (by rw [vx]; exact ho) f
  have retrying := v.retrying_translates f
  have ids : ∀ g ∈ (v.retrying f).xlat.faults, g.id ≠ id.toNat := fun g hg => by
    rw [rx] at hg
    simpa [fid] using (List.mem_filter.mp hg).2
  have mem : f.access ∈ (v.retrying f).xlat.retried := by
    rw [rx]
    exact List.mem_append_right _ (List.mem_singleton_self _)
  have lookup : (v.retrying f).lookup (reqCache f.access.req) f.access = s.lookup (reqCache f.access.req) f.access := by
    rw [retrying.lookup]
    simp only [State.lookup, State.cache, vx]
  refine ⟨_, ran, ?_⟩
  dsimp only
  rw [State.retryFault_eq, lookup]
  cases hl : s.lookup (reqCache f.access.req) f.access with
  | some x => exact ⟨ids, mem, fun h => absurd h (by simp)⟩
  | none =>
    refine ⟨fun g hg => ?_, (State.Translates.walkFor _ _ _).retried mem, fun _ hen => State.walkFor_walks ?_ _ _⟩
    · rcases State.walkFor_ids _ _ _ g hg with hg | hg
      · exact ids g hg
      · rw [hg, rx]
        exact (congrArg Translation.nextId vx).trans_ne hid
    · rw [State.flag, retrying.hmmu.rd (by decide), logged.rd_eq (by decide)]
      exact hen

theorem retryAndUnknownFaults : Rules.RetryAndUnknownFaults :=
  fun _ _ s hp hr hm => ⟨fun _ hf ho hid => retries hp hr hm hf ho hid,
    fun hf _ hi => ⟨_, exec_badDisposition hp hr hm hf hi, s.badDisposition_shows⟩⟩

/-- Settles O27. -/
theorem faultsAndRetries : Obligations.FaultsAndRetries := ⟨faultRecords, retryAndUnknownFaults⟩

end Sys2Proof.Machine
end

section
/-!
## Sites and their slots (R105, R593 to R601)
-/

namespace Sys2Proof.Machine

variable {s t u : State} {c : Ch} {e k : Nat}

/-- The slots of a channel's sites. -/
abbrev State.KeepsSlots (s t : State) : Prop := s.Keeps Channel.slotMap t

theorem State.KeepsSlots.siteIn (h : s.KeepsSlots t) (c e : Nat) : t.siteIn c e = s.siteIn c e := by
  rw [State.siteIn, h.same c, State.siteIn]

theorem State.ecDone_slots (s : State) (c : Nat) (q : EngCmd) (st : Nat) : s.KeepsSlots (s.ecDone c q st) :=
  .ite .refl (s.modChan_keeps c)

theorem State.ecsDone_slots (s : State) (c : Nat) (qs : List EngCmd) (st : Nat) : s.KeepsSlots (s.ecsDone c qs st) :=
  State.Keeps.refl.fold fun u q _ => u.ecDone_slots c q st

theorem State.modEngine_slots (s : State) (c e : Nat) (f : Engine → Engine) : s.KeepsSlots (s.modEngine c e f) :=
  s.modChan_keeps c

theorem State.sweep_slots (s : State) (c e : Nat) : s.KeepsSlots (s.sweep c e) := by
  rcases s.sweep_cases c e with h | h
  · rw [h]
    exact (s.modEngine_slots c e _).trans (State.wrAll_keeps ..)
  · rw [h]
    exact s.modEngine_slots c e _

theorem State.queueRepeats_slots (s : State) (c e : Nat) (qs : List EngCmd) (front : Bool) :
    s.KeepsSlots (s.queueRepeats c e qs front) := by
  unfold State.queueRepeats
  extract_lets uid qs' s1
  have counted : s.KeepsSlots s1 := s.modChan_keeps c
  exact (counted.trans (State.modEngine_slots _ c e _)).trans (State.sweep_slots _ c e)

theorem State.queueRepeats_beside (s : State) (c e : Nat) (qs : List EngCmd) (front : Bool) (p : Page) :
    s.Beside p Reg.engWregStat_WSEL.words (s.queueRepeats c e qs front) :=
  State.Beside.trans (t := _) (.of_sameWords (ps := []) (State.sameWords.refl.of_regs rfl) List.not_mem_nil)
    (State.sweep_beside _ c e p)

theorem State.siteIn_leaveSlot (s : State) (c e j : Nat) :
    (s.leaveSlot c e).siteIn c j = if j = e then 0x7f else s.siteIn c j := by
  have stays (f : Site → Site) (n : Nat) : (s.modSite c n f).KeepsSlots s := by
    exact ⟨fun d => ((s.modChan_keeps (view := Channel.slotMap) c).same d).symm⟩
  unfold State.leaveSlot
  extract_lets map s1
  have same : s1.siteIn c j = s.siteIn c j := by
    unfold s1
    split
    · rfl
    · exact ((stays _ _).siteIn c j).symm
  rw [← same, State.siteIn, State.chan_modChan, if_pos rfl, Tab.get_set]
  rfl

theorem State.takeSlot_chan (s : State) (c e site : Nat) :
    (s.takeSlot c e site).chans = (s.modChan c fun x => { x with slotMap := Tab.set x.slotMap e site }).chans := by
  unfold State.takeSlot
  extract_lets map s1
  exact foldl_keeps (P := fun u : State => u.chans = s1.chans)
    (f := fun s (o : Nat × Nat) => s.setWord (engPage c e) o.1 (map.getD o.2 0)) (fun _ _ _ hu => hu) rfl

theorem State.siteIn_takeSlot (s : State) (c e site j : Nat) :
    (s.takeSlot c e site).siteIn c j = if j = e then site else s.siteIn c j := by
  rw [State.siteIn, State.chan_congr (s.takeSlot_chan c e site), State.chan_modChan, if_pos rfl, Tab.get_set]
  rfl

theorem State.site_modSite (s : State) (c n j : Nat) (f : Site → Site) :
    (s.modSite c n f).site c j = if j = n then f (s.site c n) else s.site c j := by
  simp only [State.modSite, State.site, State.chan_modChan, if_true, Tab.get_set]

/-! ## Substitution -/

theorem State.remount_other {e k : Nat} (h : s.remount c e = some k) : k ≠ e := by
  unfold State.remount at h
  dsimp only at h
  have pool : k ∈ ((List.range 8).map (64 + ·)).filter fun k => k ≠ e && s.siteIn c k ≠ 0x7f := by
    split at h
    · next hk => exact Option.some.inj h ▸ List.mem_of_find?_eq_some hk
    · exact List.mem_of_mem_head? h
  have := (List.mem_filter.mp pool).2
  simp only [Bool.and_eq_true, decide_eq_true_eq] at this
  exact this.1

/-- A slot whose engine is replaced: its page shows the next epoch and the remount's state (R593, R598). -/
def State.showRemount (s : State) (p : Page) (epoch blk : Nat) : State :=
  ((s.wr p Reg.engSlotId_EPOCH epoch).setBlk p blk).wr p Reg.blkCtrl_EN 1

theorem State.showRemount_shows (s : State) (p : Page) {epoch blk : Nat} (he : epoch < 16) (hb : blk < 4) :
    (s.showRemount p epoch blk).rd p Reg.engSlotId_EPOCH = epoch ∧ (s.showRemount p epoch blk).blk p = blk := by
  unfold State.showRemount
  constructor
  · rw [State.rd_wr_off _ _ (by decide) (by decide) (by decide) (by decide) (by decide), State.setBlk,
      State.rd_wr_off _ _ (by decide) (by decide) (by decide) (by decide) (by decide), State.rd_wr_same _ _ _ (by decide)]
    exact Nat.mod_eq_of_lt he
  · rw [State.blk, State.rd_wr_off _ _ (by decide) (by decide) (by decide) (by decide) (by decide)]
    exact State.blk_setBlk _ p hb

theorem State.blk_lt (s : State) (p : Page) : s.blk p < 4 := by
  rw [State.blk, State.rd_narrow _ _ (by decide)]
  exact bitsOf_lt ..

/-- A substitution (R593 to R600): the remount's site takes the failing slot, and the pool slot is empty. -/
theorem State.substitute_shows (s : State) (c : Ch) (e : SlotId) {k : Nat} (hk : k ≠ e) :
    let t := s.substitute c e k
    t.siteIn c e = s.siteIn c k ∧ t.siteIn c k = 0x7f ∧ t.epoch c e = (s.epoch c e + 1) % 16 ∧
      t.blk (engPage c e) = s.blk (engPage c k) ∧
      t.rd .ras Reg.rasCnt_SUBST = min (s.rd .ras Reg.rasCnt_SUBST + 1) (2 ^ 8 - 1) ∧
      (t.rd .ras Reg.intRaw_RAW).testBit 1 = true := by
  intro t
  obtain ⟨t', ht⟩ : ∃ t', t' = t := ⟨_, rfl⟩
  rw [← ht]
  unfold t State.substitute at ht
  extract_lets old new site blk epoch order guests reruns fails runGuests lost kept came standing s1 s2 s3 s4 s5 empty s6 s7 s8 s9
    r s10 s11 at ht
  obtain ⟨v, slots12, regs12, ht⟩ : ∃ v : State, s11.KeepsSlots v ∧ v.regs = s11.regs ∧
      t' = v.logOut c 0x08 (site + e * 2 ^ 8 + epoch * 2 ^ 16) := by
    rw [ht]
    split
    · split
      · exact ⟨_, s11.modEngine_slots c _ _, rfl, rfl⟩
      · exact ⟨s11, .refl, rfl, rfl⟩
    · exact ⟨s11, .refl, rfl, rfl⟩
  have slots1 (j : Nat) : s1.siteIn c j = if j = e then site else if j = k then 0x7f else s.siteIn c j := by
    unfold s1
    rw [State.siteIn_takeSlot, State.siteIn_leaveSlot, State.siteIn_leaveSlot]
    split
    · rfl
    · split <;> rfl
  have slots : s1.KeepsSlots t' := by
    have slots2 : s1.KeepsSlots s2 := State.Keeps.refl.fold fun u q _ => u.ecsDone_slots c _ _
    have slots5 : s2.KeepsSlots s5 := .of_chans (by unfold s5 s4 s3 State.setBlk; simp [State.resetPage])
    have slots6 : s5.KeepsSlots s6 := (s5.modEngine_slots c e _).trans (State.modEngine_slots _ c k _)
    have slots7 : s6.KeepsSlots s7 := State.Keeps.refl.fold fun u q _ => u.queueRepeats_slots c e _ _
    have slots9 : s7.KeepsSlots s9 := (s7.modEngine_slots c e _).trans (s8.modChan_keeps c)
    have slots11 : s9.KeepsSlots s11 :=
      (State.Keeps.of_chans (by rw [State.raise_chans, State.bump_chans, State.wr_chans])).trans (State.modChan_keeps _ c)
    rw [ht]
    exact ((((((slots2.trans slots5).trans slots6).trans slots7).trans slots9).trans slots11).trans slots12).trans
      (.of_chans (State.logOut_chans ..))
  -- The engine's page, from the reset of the failing slot on.
  have page5 : s5 = s3.showRemount (engPage c e) epoch blk := rfl
  have page9 (p : Page) : s5.Beside p Reg.engWregStat_WSEL.words s9 := by
    have page6 : s5.Beside p Reg.engWregStat_WSEL.words s6 := State.Beside.refl.of_regs rfl
    have page7 : s6.Beside p Reg.engWregStat_WSEL.words s7 := .fold (fun u q _ => u.queueRepeats_beside c e _ _ p) _
    exact (page6.trans page7).trans (State.Beside.refl.of_regs rfl)
  have page11 {p : Page} (hp : pageKind p ≠ .ras) : s9.Beside p [] s11 := by
    have counted : s9.sameWords ((s10.bump r Reg.rasCnt_SUBST).raise r 1) [.ras] :=
      ((State.sameWords.refl.wr (List.mem_singleton_self _)).wr (List.mem_singleton_self _)).raise (List.mem_singleton_self _)
    exact (State.Beside.of_sameWords counted (by rintro h; exact hp (by rw [List.mem_singleton.mp h]; rfl))).of_regs rfl
  have logged : Moves ⟨false, [.out, .msix, .recorder], [.rpl]⟩ v t' := ht ▸ State.logOut_moves .refl _ _ _ .refl
  have rd {f : Fld} (hf : ∀ o ∈ f.words, o < 4096 ∧ o ∉ Reg.engWregStat_WSEL.words) :
      t'.rd (engPage c e) f = s5.rd (engPage c e) f := by
    rw [logged.rd_eq (by simp [engPage, pageKind]), State.rd_congr regs12,
      (page11 (p := engPage c e) (by simp [engPage, pageKind])).rd fun o ho => ⟨(hf o ho).1, List.not_mem_nil⟩, (page9 _).rd hf]
  obtain ⟨hepoch, hblk⟩ := s3.showRemount_shows (engPage c e) (epoch := epoch) (blk := blk)
    (Nat.mod_lt _ (by decide)) (s.blk_lt _)
  have ras (f : Fld) : s9.rd .ras f = s.rd .ras f := by
    have moved1 : Moves ⟨false, [.chans], [.eng]⟩ s s1 := State.takeSlot_moves
      (State.leaveSlot_moves (State.leaveSlot_moves .refl c e (by decide)) c k (by decide)) c e site .refl
    have moved2 : Moves ⟨false, [.chans], []⟩ s1 s2 := Moves.fold .refl fun u q hu => State.ecsDone_moves hu c _ _ .refl
    have moved3 : Moves ⟨false, [.cycBase, .blocks], [.eng]⟩ s2 s3 := State.resetPage_moves
      (State.resetPage_moves .refl _ _ (by decide) (by simp [engPage, pageKind])) _ _ (by decide) (by simp [engPage, pageKind])
    have moved5 : Moves ⟨false, [], [.eng]⟩ s3 s5 := State.wr_moves (State.wr_moves (State.wr_moves .refl _ _ _
      (by simp [engPage, pageKind])) _ _ _ (by simp [engPage, pageKind])) _ _ _ (by simp [engPage, pageKind])
    have moved7 : Moves ⟨false, [.chans], [.eng]⟩ s6 s7 := Moves.fold .refl fun u q hu => State.queueRepeats_moves hu c e _ _ .refl
    have chans8 : s9.regs = s7.regs := rfl
    have chans6 : s6.regs = s5.regs := rfl
    rw [State.rd_congr chans8, moved7.rd_eq (by decide), State.rd_congr chans6, moved5.rd_eq (by decide),
      moved3.rd_eq (by decide), moved2.rd_eq (by decide), moved1.rd_eq (by decide)]
  have regs11 : s11.regs = ((s10.bump .ras Reg.rasCnt_SUBST).raise .ras 1).regs := rfl
  refine ⟨?_, ?_, ?_, ?_, ?_, ?_⟩
  · rw [slots.siteIn, slots1, if_pos rfl]
  · rw [slots.siteIn, slots1, if_neg hk, if_pos rfl]
  · rw [State.epoch, rd (by decide), page5, hepoch]
  · rw [State.blk, rd (by decide), page5]
    exact hblk
  · rw [logged.rd_eq (by decide), State.rd_congr regs12, State.rd_congr regs11,
      State.rd_raise_off _ _ (by decide) (by decide) (by decide), State.rd_bump_same _ _ _ (by decide)]
    have pool : s10.rd .ras Reg.rasCnt_SUBST = s9.rd .ras Reg.rasCnt_SUBST := by
      have hc := c.isLt
      exact State.rd_wr_off _ _ (show 6 + 4 ≤ 32 by decide) (by decide) (show 0x110 + 4 * c.val < 4096 by omega) (by decide)
        (.inl (show 0x120 ≠ 0x110 + 4 * c.val by omega))
    rw [pool, ras]
    rfl
  · rw [logged.rd_eq (by decide), State.rd_congr regs12, State.rd_congr regs11]
    exact State.raise_sets _ _ (by decide)

end Sys2Proof.Machine
end

section
/-!
## Substitutions and re-tests (R593, R600, R601, R611)
-/

namespace Sys2Proof.Machine

variable {s t u : State} {c : Ch} {e k : Nat}

theorem exec_substitutionHoldoffExpiry (hp : s.dev.powered = true) {e : SlotId} (hw : (s.chan c).substWait.contains e.val = true)
    (hf : s.dev.farrierUp = true) (ha : s.arithOn c = true) : exec (.substitutionHoldoffExpiry c e) s = .next
      (match s.remount c e with
      | some k => s.substitute c e k
      | none => s.modChan c fun x => { x with
          substWait := x.substWait.erase e, failing := x.failing.orElse fun _ => some 1 }) := by
  rw [exec, execSubstitutionHoldoffExpiry, live_of_powered hp, hw, hf, ha]
  rfl

theorem substitutions : Rules.Substitutions := by
  intro c e s hp hw hf ha
  have ran := exec_substitutionHoldoffExpiry hp hw hf ha
  refine ⟨_, ran, fun k hk => ?_, fun hn => ?_⟩
  · obtain ⟨hin, hpool, hepoch, hblk, hcnt, hraw⟩ := s.substitute_shows c e (State.remount_other hk)
    rw [engPage_val] at hblk
    simp only [hk] at ran ⊢
    exact ⟨hin, hpool, hepoch, hblk, hcnt, hraw, exec_sameStores ran rfl⟩
  · simp only [hn]
    refine ⟨?_, rfl⟩
    rw [State.chan_modChan, if_pos rfl]
    exact Option.orElse_some_eq _ _

/-! ## Re-tests -/

theorem exec_siteRetest {phys : SlotId} (h : SiteWaits s c phys) (hs : (s.site c phys).state = siteHeld) :
    exec (.siteRetest c phys) s = .next (s.modSite c phys fun x =>
      { x with state := if 2 ≤ x.returns then siteFailed else siteRetesting }) := by
  obtain ⟨hp, hr, ha, hf, hslot⟩ := h
  rw [exec, execSiteRetest, live_of_powered hp]
  simp [hr, ha, hf, hslot, hs]

/-- The end of a re-test is signalled, and its answers are given. -/
def State.endRetest (s : State) (c : Ch) (phys : SlotId) (code : Nat) : State :=
  (s.raise .ras 3).settleOwed (retestOf c phys) code

/-- A site whose re-test has failed. -/
def State.retestFails (s : State) (c : Ch) (phys : SlotId) : State :=
  (s.modSite c phys fun x => { x with state := siteFailed }).endRetest c phys codeRepairFail

/-- A site whose re-test has passed, and which a pool slot takes. -/
def State.retestPasses (s : State) (c : Ch) (phys : SlotId) (k : Nat) (m : List Nat) : State :=
  (s.returnSite c phys k m).endRetest c phys codeOk

theorem exec_retestDone {phys : SlotId} (h : SiteWaits s c phys) (hs : (s.site c phys).state = siteRetesting)
    (pass : Bool) (cols : List Nat) : exec (.retestDone c phys pass cols) s = .next
      (match (s.site c phys).retestMap cols, s.emptyPoolSlot c with
      | some m, some k => if pass then s.retestPasses c phys k m else s.retestFails c phys
      | _, _ => s.retestFails c phys) := by
  obtain ⟨hp, hr, ha, hf, hslot⟩ := h
  rw [exec, execRetestDone, live_of_powered hp]
  simp only [hr, ha, hf, hs, ne_eq, not_true_eq_false, decide_false, Bool.not_true, Bool.or_self, Bool.false_eq_true, if_false]
  rfl

theorem State.flushAnswers_owed (s : State) : s.flushAnswers.dev.owed = s.dev.owed := by
  unfold State.flushAnswers
  split
  · split
    · rfl
    · next ws rest _ _ =>
      rw [(State.acceptSend_moves (.refl : Moves ⟨false, [.out, .msix, .mbx, .ports, .recorder], [.rpl, .mbx]⟩ _ _) _ _
        .refl).parts .dev (by decide), (State.setWords_moves (.refl : Moves ⟨false, [], [.mbx]⟩ _ _) _ _ _ (by decide) (by decide)).parts
          .dev (by decide)]
      rfl
  · rfl

theorem State.answer_owed (s : State) (type seq code : Nat) : (s.answer type seq code).dev.owed = s.dev.owed :=
  State.flushAnswers_owed _

/-- The answers that are given are owed no more (R610). -/
theorem State.settleOwed_owed (s : State) (p : OwedAnswer → Bool) (code : Nat) :
    ∀ a ∈ (s.settleOwed p code).dev.owed, p a = false := by
  have owed : (s.settleOwed p code).dev.owed = s.dev.owed.filter fun a => !p a :=
    foldl_keeps (P := fun u : State => u.dev.owed = s.dev.owed.filter fun a => !p a)
      (fun u a _ hu => (u.answer_owed _ _ _).trans hu) rfl
  intro a ha
  rw [owed] at ha
  simpa using (List.mem_filter.mp ha).2

theorem State.endRetest_moves (s : State) (c : Ch) (phys : SlotId) (code : Nat) :
    Moves ⟨false, [.out, .dev, .msix, .mbx, .ports, .recorder], [.rpl, .mbx, .ras]⟩ s (s.endRetest c phys code) :=
  State.settleOwed_moves (State.raise_moves .refl _ _ (by decide) (by decide) (by decide)) _ _ (by decide)

theorem State.endRetest_signals (s : State) (c : Ch) (phys : SlotId) (code : Nat) :
    ((s.endRetest c phys code).rd .ras Reg.intRaw_RAW).testBit 3 = true := by
  rw [State.endRetest, (State.settleOwed_moves (.refl : Moves
    ⟨false, [.out, .dev, .msix, .mbx, .ports, .recorder], [.rpl, .mbx]⟩ (s.raise .ras 3) _) _ _ .refl).rd_eq (by decide)]
  exact State.raise_sets _ _ (by decide)

theorem State.endRetest_site (s : State) (c : Ch) (phys : SlotId) (code d n : Nat) :
    (s.endRetest c phys code).site d n = s.site d n ∧ (s.endRetest c phys code).siteIn d n = s.siteIn d n := by
  have chan := State.chan_congr ((s.endRetest_moves c phys code).parts .chans (by decide)) d
  exact ⟨by rw [State.site, chan, State.site], by rw [State.siteIn, chan, State.siteIn]⟩

theorem State.blk_turnOn (s : State) (p : Page) : (s.turnOn p).blk p = blkOn := State.blk_setBlk _ p (by decide)

/-- A site that has passed its re-test stands in its pool slot, which is ON (R601). -/
theorem State.returnSite_shows (s : State) (c : Ch) (phys : SlotId) (k : Nat) (m : List Nat) :
    (s.returnSite c phys k m).siteIn c k = phys ∧ (s.returnSite c phys k m).site c phys =
      { s.site c phys with
        state := sitePool, strikes := [], returns := min 3 ((s.site c phys).returns + 1), colmap := m } ∧
      (s.returnSite c phys k m).blk (engPage c k) = blkOn := by
  let s1 := s.modSite c phys fun x => { x with
    state := sitePool, strikes := [], returns := min 3 (x.returns + 1), colmap := m }
  let s2 := (s1.modEngine c k fun _ => {}).resetPage (engPage c k) clsEngine
  have chans : (s.returnSite c phys k m).chans = (s2.takeSlot c k phys).chans := by
    unfold State.returnSite State.turnOn State.setBlk
    simp only [State.wr_chans]
    rfl
  have kept : s1.Keeps Channel.sites s2 := .trans (t := s1.modEngine c k fun _ => {}) (s1.modChan_keeps c)
    (.of_chans (by simp [s2, State.resetPage]))
  have site2 : s2.site c phys = s1.site c phys := by rw [State.site, kept.same c, State.site]
  refine ⟨?_, ?_, ?_⟩
  · rw [State.siteIn, State.chan_congr chans, ← State.siteIn, State.siteIn_takeSlot, if_pos rfl]
  · rw [State.site, State.chan_congr chans, State.chan_congr (s2.takeSlot_chan c k phys), State.chan_modChan, if_pos rfl]
    exact site2.trans ((s.site_modSite c phys phys _).trans (if_pos rfl))
  · unfold State.returnSite
    dsimp only
    rw [State.blk, State.rd_wr_page _ (by simp [engPage]), State.rd_wr_page _ (by simp [engPage])]
    exact State.blk_turnOn _ _

theorem siteRetests : Rules.Retests := by
  intro c phys s h
  refine ⟨fun hs => ⟨_, exec_siteRetest h hs, ?_, rfl⟩, fun pass cols hs => ?_⟩
  · rw [State.site_modSite, if_pos rfl]
  · have ran := exec_retestDone h hs pass cols
    refine ⟨_, ran, exec_sameStores ran rfl, ?_⟩
    have fails : ((s.retestFails c phys).rd .ras Reg.intRaw_RAW).testBit 3 = true ∧
        (∀ a ∈ (s.retestFails c phys).dev.owed, retestOf c phys a = false) ∧
        ((s.retestFails c phys).site c phys).state = siteFailed := by
      refine ⟨State.endRetest_signals _ _ _ _, State.settleOwed_owed _ _ _, ?_⟩
      refine (congrArg Site.state (State.endRetest_site (s.modSite c phys fun x => { x with state := siteFailed }) c phys
        codeRepairFail c phys).1).trans ?_
      rw [State.site_modSite, if_pos rfl]
    obtain ⟨signalled, owed, failed⟩ := fails
    cases hm : (s.site c phys).retestMap cols with
    | none => exact ⟨signalled, owed, fun m k h' => absurd h' (by simp), fun _ => failed⟩
    | some m =>
      cases hk : s.emptyPoolSlot c with
      | none => exact ⟨signalled, owed, fun m k _ h' => absurd h' (by simp), fun _ => failed⟩
      | some k =>
        cases pass with
        | false => exact ⟨signalled, owed, fun m k _ _ h' => absurd h' (by decide), fun _ => failed⟩
        | true =>
          refine ⟨State.endRetest_signals (s.returnSite c phys k m) c phys codeOk, State.settleOwed_owed _ _ _,
            fun m' k' hm' hk' _ => ?_, fun h' => absurd h' (by simp)⟩
          obtain rfl := Option.some.inj hm'
          obtain rfl := Option.some.inj hk'
          obtain ⟨slot, site, on⟩ := s.returnSite_shows c phys k m
          have ended := State.endRetest_site (s.returnSite c phys k m) c phys codeOk c
          have same : (s.retestPasses c phys k m).site c phys = _ := (ended phys).1.trans site
          refine ⟨(ended k).2.trans slot, ?_⟩
          simp only [if_true, same, true_and]
          rw [State.blk, State.retestPasses, ((s.returnSite c phys k m).endRetest_moves c phys codeOk).rd_eq
            (by simp [engPage, pageKind])]
          exact on

end Sys2Proof.Machine
end

section
/-!
## Rows of the HBM stack and of the stores (R602, R603, R618)
-/

namespace Sys2Proof.Machine

variable {s t u : State} {c : Ch} {row : Nat}

/-! ## What HBMC_PPR shows -/

theorem State.showRows_eq (s : State) (c : Ch) : s.showRows c =
    (s.wr (.hbmc c) Reg.hbmcPpr_REMAP_USED (s.chan c).rows.length).wr (.hbmc c) Reg.hbmcPpr_BUSY
      (bit !(s.chan c).repairing.isEmpty) := by
  simp [State.showRows]

theorem State.showRows_shows (s : State) (c : Ch) (h : (s.chan c).rows.length < 32) :
    (s.showRows c).rd (.hbmc c) Reg.hbmcPpr_REMAP_USED = (s.chan c).rows.length ∧
      (s.showRows c).rd (.hbmc c) Reg.hbmcPpr_BUSY = bit !(s.chan c).repairing.isEmpty := by
  rw [State.showRows_eq]
  constructor
  · rw [State.rd_wr_off _ _ (by decide) (by decide) (by decide) (by decide) (by decide), State.rd_wr_same _ _ _ (by decide)]
    exact Nat.mod_eq_of_lt h
  · rw [State.rd_wr_same _ _ _ (by decide)]
    cases (s.chan c).repairing.isEmpty <;> rfl

/-- The counts of soft repairs stand beside what `showRows` writes. -/
theorem State.rd_showRows (s : State) (c : Ch) {f : Fld} (hw : f.lo + f.w ≤ 32) (ho : f.off < 4096)
    (h : f.off ≠ 0x130 ∨ 6 ≤ f.lo) : (s.showRows c).rd (.hbmc c) f = s.rd (.hbmc c) f := by
  rw [State.showRows_eq,
    State.rd_wr_off _ _ (show 5 + 1 ≤ 32 by decide) hw (show 0x130 < 4096 by decide) ho (h.imp id .inr),
    State.rd_wr_off _ _ (show 0 + 5 ≤ 32 by decide) hw (show 0x130 < 4096 by decide) ho
      (h.imp id fun h => .inr (Nat.le_trans (by decide) h))]

theorem State.showRows_chans (s : State) (c : Ch) : (s.showRows c).chans = s.chans := by
  rw [State.showRows_eq, State.wr_chans, State.wr_chans]

/-! ## A row of the stack -/

/-- A persistent error of a row is reported before the row is repaired (R603, R656). -/
def State.reportRow (s : State) (c : Ch) (row : Nat) (persistent : Bool) : State :=
  if persistent then s.persistent (.hbmc c) 0x02 (row / 16) else s

theorem State.reportRow_chan (s : State) (c : Ch) (row : Nat) (persistent : Bool) (d : Nat) :
    (s.reportRow c row persistent).chan d = s.chan d := by
  unfold State.reportRow
  split
  · rw [State.chan_congr (State.persistent_chans ..)]
  · rfl

/-- A row enters the remap buffer, and the farrier is told to repair it. -/
def State.bufferRow (s : State) (c : Ch) (row : Nat) : State :=
  ((s.modChan c fun x => { x with rows := x.rows ++ [row], repairing := x.repairing ++ [row] }).showRows c).raise (.hbmc c) 0

theorem exec_hbmRowRepair (hp : s.dev.powered = true) (persistent : Bool) (ht : s.flag (.hbmc c) Reg.hbmcStat_TRAINED = true)
    (hr : (s.chan c).rows.contains row = false) (hlt : row < Config.hbmBytes / 1024) :
    exec (.hbmRowRepair c (.hbm row persistent)) s = .next
      (if 16 ≤ (s.chan c).rows.length then (s.reportRow c row persistent).draw.rowsExhausted c (.hbmc c)
          (Config.openValue (s.reportRow c row persistent).drawn)
        else if (s.chan c).rows.length + 1 = 16 then ((s.reportRow c row persistent).bufferRow c row).raise (.hbmc c) 2
        else (s.reportRow c row persistent).bufferRow c row) := by
  rw [exec, execHbmRowRepair, live_of_powered hp]
  unfold State.repairHbm
  simp only [ht, hr, Nat.not_le.mpr hlt, Bool.not_true, Bool.or_self, decide_false, Bool.false_eq_true, if_false]
  rfl

/-- What a row shows that has entered the remap buffer. -/
theorem State.bufferRow_shows (s : State) (c : Ch) (row : Nat) (h : (s.chan c).rows.length < 16) :
    ((s.bufferRow c row).chan c).rows = (s.chan c).rows ++ [row] ∧
      (s.bufferRow c row).rd (.hbmc c) Reg.hbmcPpr_REMAP_USED = (s.chan c).rows.length + 1 ∧
      (s.bufferRow c row).rd (.hbmc c) Reg.hbmcPpr_BUSY = 1 ∧
      ((s.bufferRow c row).rd (.hbmc c) Reg.intRaw_RAW).testBit 0 = true := by
  let v := s.modChan c fun x => { x with rows := x.rows ++ [row], repairing := x.repairing ++ [row] }
  have chan : v.chan c = { s.chan c with
      rows := (s.chan c).rows ++ [row], repairing := (s.chan c).repairing ++ [row] } := by
    rw [State.chan_modChan, if_pos rfl]
  have rows : (v.chan c).rows.length = (s.chan c).rows.length + 1 := by rw [chan, List.length_append]; rfl
  obtain ⟨used, busy⟩ := v.showRows_shows c (by omega)
  refine ⟨?_, ?_, ?_, State.raise_sets _ _ (by decide)⟩
  · rw [State.bufferRow, State.chan_congr (State.raise_chans ..), State.chan_congr (State.showRows_chans ..)]
    exact congrArg Channel.rows chan
  · rw [State.bufferRow, State.rd_raise_off _ _ (by decide) (by decide) (by decide)]
    exact used.trans rows
  · rw [State.bufferRow, State.rd_raise_off _ _ (by decide) (by decide) (by decide)]
    refine busy.trans ?_
    rw [chan]
    simp [bit]

theorem State.bufferRow_moves (s : State) (c : Ch) (row : Nat) :
    Moves ⟨false, [.out, .msix, .chans], [.hbmc]⟩ s (s.bufferRow c row) := by
  unfold State.bufferRow
  refine State.raise_moves (State.showRows_moves ?_ _ (by decide)) _ _ (List.mem_singleton_self _) (by decide) (by decide)
  exact State.modChan_moves .refl _ (by decide) fun _ _ => StoresMove.of_eq rfl rfl rfl

/-- A persistent error shows in RAS while a row is repaired. -/
theorem State.reportRow_raised (s : State) (c : Ch) (row : Nat) :
    ((s.reportRow c row true).rd .ras Reg.intRaw_RAW).testBit 4 = true := (s.persistent_counts _ _ _).2

theorem State.rowsExhausted_fails (s : State) (c : Ch) (p : Page) (bank : Nat) :
    ((s.rowsExhausted c p bank).chan c) = { s.chan c with failing := some ((s.chan c).failing.getD 6) } := by
  rw [State.rowsExhausted, State.chan_modChan, if_pos rfl, State.chan_congr (State.persistent_chans ..),
    Option.orElse_some_eq]

theorem rowRepairs_stack (hp : s.dev.powered = true) (persistent : Bool)
    (ht : s.flag (.hbmc c) Reg.hbmcStat_TRAINED = true) (hr : (s.chan c).rows.contains row = false)
    (hlt : row < Config.hbmBytes / 1024) :
    ∃ t, exec (.hbmRowRepair c (.hbm row persistent)) s = .next t ∧
        ((s.chan c).rows.length < 16 → (t.chan c).rows = (s.chan c).rows ++ [row] ∧
          t.rd (.hbmc c) Reg.hbmcPpr_REMAP_USED = (s.chan c).rows.length + 1 ∧ t.rd (.hbmc c) Reg.hbmcPpr_BUSY = 1 ∧
          (t.rd (.hbmc c) Reg.intRaw_RAW).testBit 0 = true ∧
          (persistent = true → (t.rd .ras Reg.intRaw_RAW).testBit 4 = true) ∧
          ((s.chan c).rows.length = 15 → (t.rd (.hbmc c) Reg.intRaw_RAW).testBit 2 = true)) ∧
        (16 ≤ (s.chan c).rows.length → (t.chan c).rows = (s.chan c).rows ∧
          (t.chan c).failing = some ((s.chan c).failing.getD 6)) := by
  refine ⟨_, exec_hbmRowRepair hp persistent ht hr hlt, fun hroom => ?_, fun hfull => ?_⟩
  · have chan := s.reportRow_chan c row persistent c
    have shows := (s.reportRow c row persistent).bufferRow_shows c row (by rw [chan]; exact hroom)
    have raised (h : persistent = true) :
        (((s.reportRow c row persistent).bufferRow c row).rd .ras Reg.intRaw_RAW).testBit 4 = true := by
      rw [(State.bufferRow_moves _ c row).rd_eq (by decide), h]
      exact s.reportRow_raised c row
    rw [chan] at shows
    generalize (s.reportRow c row persistent).bufferRow c row = v at shows raised
    obtain ⟨rows, used, busy, told⟩ := shows
    rw [if_neg (Nat.not_le.mpr hroom)]
    split
    · refine ⟨?_, ?_, ?_, State.raise_keeps _ _ _ told, fun h => ?_, fun _ => State.raise_sets _ _ (by decide)⟩
      · rw [State.chan_congr (State.raise_chans ..), rows]
      · rw [State.rd_raise_off _ _ (by decide) (by decide) (by decide), used]
      · rw [State.rd_raise_off _ _ (by decide) (by decide) (by decide), busy]
      · rw [State.rd_raise_page _ (by simp)]
        exact raised h
    · next h => exact ⟨rows, used, busy, told, raised, fun h' => absurd (by omega) h⟩
  · rw [if_pos hfull, State.rowsExhausted_fails]
    have chan : (s.reportRow c row persistent).draw.chan c = s.chan c := s.reportRow_chan c row persistent c
    rw [chan]
    exact ⟨rfl, rfl⟩

/-! ## The end of a soft repair -/

/-- A row that has been repaired leaves the remap buffer, and a hard repair of it is pending (R603). -/
def State.softRepaired (s : State) (c : Ch) (row : Nat) : State :=
  ((s.modChan c fun x => { x with
    rows := x.rows.erase row, hbm := x.hbm.heal (1024 * row) 1024 }).bump (.hbmc c) Reg.hbmcPpr_SOFT).bump (.hbmc c)
      Reg.hbmcPpr_PENDING_HARD

/-- A row that is repaired no more. -/
def State.endRepair (s : State) (c : Ch) (row : Nat) : State :=
  s.modChan c fun x => { x with repairing := x.repairing.erase row }

theorem exec_softPprDone (hp : s.dev.powered = true) (hr : (s.chan c).repairing.contains row = true)
    (hf : s.dev.farrierUp = true) (ok : Bool) : exec (.softPprDone c row ok) s = .next
      (((if ok then (s.endRepair c row).softRepaired c row else s.endRepair c row).showRows c).raise (.hbmc c) 1) := by
  rw [exec, execSoftPprDone, live_of_powered hp]
  simp only [hr, hf, Bool.not_true, Bool.or_self, Bool.false_eq_true, if_false]
  rfl

theorem State.chan_endRepair (s : State) (c : Ch) (row : Nat) :
    (s.endRepair c row).chan c = { s.chan c with repairing := (s.chan c).repairing.erase row } := by
  rw [State.endRepair, State.chan_modChan, if_pos rfl]

theorem State.softRepaired_shows (s : State) (c : Ch) (row : Nat) :
    ((s.softRepaired c row).chan c).rows = (s.chan c).rows.erase row ∧
      ((s.softRepaired c row).chan c).repairing = (s.chan c).repairing ∧
      (s.softRepaired c row).rd (.hbmc c) Reg.hbmcPpr_SOFT = min (s.rd (.hbmc c) Reg.hbmcPpr_SOFT + 1) (2 ^ 8 - 1) ∧
      (s.softRepaired c row).rd (.hbmc c) Reg.hbmcPpr_PENDING_HARD =
        min (s.rd (.hbmc c) Reg.hbmcPpr_PENDING_HARD + 1) (2 ^ 8 - 1) := by
  have chan : (s.softRepaired c row).chan c = { s.chan c with
      rows := (s.chan c).rows.erase row, hbm := (s.chan c).hbm.heal (1024 * row) 1024 } := by
    rw [State.softRepaired, State.chan_congr (State.bump_chans ..), State.chan_congr (State.bump_chans ..),
      State.chan_modChan, if_pos rfl]
  refine ⟨by rw [chan], by rw [chan], ?_, ?_⟩
  · rw [State.softRepaired, State.rd_bump_off _ _ (by decide) (by decide) (by decide) (by decide) (by decide),
      State.rd_bump_same _ _ _ (by decide), State.rd_congr (State.modChan_regs ..)]
    rfl
  · rw [State.softRepaired, State.rd_bump_same _ _ _ (by decide),
      State.rd_bump_off _ _ (by decide) (by decide) (by decide) (by decide) (by decide), State.rd_congr (State.modChan_regs ..)]
    rfl

theorem rowRepairs_soft (hp : s.dev.powered = true) (ok : Bool) (hr : (s.chan c).repairing.contains row = true)
    (hf : s.dev.farrierUp = true) (hl : (s.chan c).rows.length ≤ 16) :
    ∃ t, exec (.softPprDone c row ok) s = .next t ∧
        (t.chan c).repairing = (s.chan c).repairing.erase row ∧ (t.rd (.hbmc c) Reg.intRaw_RAW).testBit 1 = true ∧
        t.rd (.hbmc c) Reg.hbmcPpr_REMAP_USED = (t.chan c).rows.length ∧
        (ok = true → (t.chan c).rows = (s.chan c).rows.erase row ∧
          t.rd (.hbmc c) Reg.hbmcPpr_SOFT = min (s.rd (.hbmc c) Reg.hbmcPpr_SOFT + 1) (2 ^ 8 - 1) ∧
          t.rd (.hbmc c) Reg.hbmcPpr_PENDING_HARD = min (s.rd (.hbmc c) Reg.hbmcPpr_PENDING_HARD + 1) (2 ^ 8 - 1)) ∧
        (ok = false → (t.chan c).rows = (s.chan c).rows) := by
  refine ⟨_, exec_softPprDone hp hr hf ok, ?_⟩
  have chan (v : State) : ((v.showRows c).raise (.hbmc c) 1).chan c = v.chan c :=
    State.chan_congr ((State.raise_chans ..).trans (v.showRows_chans c)) c
  have shown (v : State) (h : (v.chan c).rows.length < 32) :
      ((v.showRows c).raise (.hbmc c) 1).rd (.hbmc c) Reg.hbmcPpr_REMAP_USED = (v.chan c).rows.length := by
    rw [State.rd_raise_off _ _ (by decide) (by decide) (by decide), (v.showRows_shows c h).1]
  cases ok with
  | false =>
    simp only [Bool.false_eq_true, if_false]
    rw [chan, shown _ (by rw [State.chan_endRepair]; dsimp only; omega), State.chan_endRepair]
    exact ⟨rfl, State.raise_sets _ _ (by decide), rfl, fun h => absurd h (by simp), fun _ => rfl⟩
  | true =>
    simp only [if_true]
    obtain ⟨rows, repairing, soft, hard⟩ := (s.endRepair c row).softRepaired_shows c row
    rw [State.chan_endRepair] at rows repairing
    have short : (((s.endRepair c row).softRepaired c row).chan c).rows.length < 32 := by
      rw [rows]
      exact Nat.lt_of_le_of_lt (List.erase_sublist.length_le.trans hl) (by decide)
    rw [chan, shown _ short, rows, repairing]
    refine ⟨rfl, State.raise_sets _ _ (by decide), rfl, fun _ => ⟨rfl, ?_, ?_⟩, fun h => absurd h (by decide)⟩
    · rw [State.rd_raise_off _ _ (by decide) (by decide) (by decide), State.rd_showRows _ _ (by decide) (by decide) (by decide),
        soft]
      rfl
    · rw [State.rd_raise_off _ _ (by decide) (by decide) (by decide), State.rd_showRows _ _ (by decide) (by decide) (by decide),
        hard]
      rfl

theorem rowRepairs : Rules.RowRepairs :=
  fun _ _ _ hp => ⟨fun persistent ht hr hlt => rowRepairs_stack hp persistent ht hr hlt,
    fun ok hr hf hl => rowRepairs_soft hp ok hr hf hl⟩

/-! ## A row of a store -/

/-- The persistent error of a store's row; the activation store's own page signals it too (R602, R656). -/
def State.reportStoreRow (s : State) (p : Page) (first : Nat) : State :=
  match p with
  | .ast _ => (s.persistent p 0x01 (first / 128)).raise p 0
  | _ => s.persistent p 0x01 (first / 128)

theorem State.remapRow_eq (s : State) (c : Ch) (p : Page) (rows row first : Nat) (spares : List Nat) (use : Channel → Channel)
    (hs : spares.contains row = false) (hr : row < 64 * rows) (ha : s.arithOn c = true) (hf : s.dev.farrierUp = true) :
    s.remapRow c p rows row first spares use =
      if 16 ≤ (spares.filter fun r => r / rows = row / rows).length then
        (s.reportStoreRow p first).rowsExhausted c p (row / rows)
      else (s.reportStoreRow p first).modChan c use := by
  unfold State.remapRow
  simp only [hs, ha, hf, Nat.not_le.mpr hr, decide_false, Bool.not_true, Bool.or_self, Bool.false_eq_true, if_false]
  rfl

theorem State.reportStoreRow_chans (s : State) (p : Page) (first : Nat) : (s.reportStoreRow p first).chans = s.chans := by
  unfold State.reportStoreRow
  split
  · rw [State.raise_chans, State.persistent_chans]
  · exact State.persistent_chans ..

theorem State.reportStoreRow_raised (s : State) (p : Page) (first : Nat) :
    ((s.reportStoreRow p first).rd .ras Reg.intRaw_RAW).testBit 4 = true := by
  unfold State.reportStoreRow
  split
  · rw [State.rd_raise_page _ (by simp)]
    exact (s.persistent_counts _ _ _).2
  · exact (s.persistent_counts _ _ _).2

/-- A further persistent error clears no interrupt of the block's page. -/
theorem State.rd_persistent_raw (s : State) {p : Page} (hp : p ≠ .ras) (code loc : Nat) :
    (s.persistent p code loc).rd p Reg.intRaw_RAW = s.rd p Reg.intRaw_RAW := by
  unfold State.persistent
  dsimp only
  rw [State.rd_raise_page _ hp, State.rd_bump_page _ hp,
    State.rd_bump_off _ _ (by decide) (by decide) (by decide) (by decide) (by decide)]
  split
  · rw [State.rd_setWord_off _ _ (by decide) (by decide) (by decide) (by decide)]
  · rw [State.rd_setWord_off _ _ (by decide) (by decide) (by decide) (by decide)]

/-- The outcome of a store row's repair: its own change of the channel, or a channel that is to retire. -/
theorem State.remapRow_shows (s : State) (c : Ch) (p : Page) (rows row first : Nat) (spares : List Nat)
    (use : Channel → Channel) (hs : spares.contains row = false) (hr : row < 64 * rows) (ha : s.arithOn c = true)
    (hf : s.dev.farrierUp = true) : let t := s.remapRow c p rows row first spares use
    (t.rd .ras Reg.intRaw_RAW).testBit 4 = true ∧
      ((spares.filter fun r => r / rows = row / rows).length < 16 → t.chan c = use (s.chan c) ∧
        t.rd p Reg.intRaw_RAW = (s.reportStoreRow p first).rd p Reg.intRaw_RAW) ∧
      (16 ≤ (spares.filter fun r => r / rows = row / rows).length →
        t.chan c = { s.chan c with failing := some ((s.chan c).failing.getD 6) } ∧
          (p ≠ .ras → t.rd p Reg.intRaw_RAW = (s.reportStoreRow p first).rd p Reg.intRaw_RAW)) := by
  intro t
  have chan := State.chan_congr (s.reportStoreRow_chans p first) c
  have ht := s.remapRow_eq c p rows row first spares use hs hr ha hf
  rw [show t = _ from ht]
  split
  · next hfull =>
    refine ⟨((s.reportStoreRow p first).persistent_counts p 0x05 (row / rows)).2, fun h => absurd hfull (Nat.not_le.mpr h),
      fun _ => ⟨?_, fun hp => State.rd_persistent_raw _ hp _ _⟩⟩
    rw [State.rowsExhausted_fails, chan]
  · next hroom =>
    refine ⟨s.reportStoreRow_raised p first, fun _ => ⟨?_, rfl⟩, fun h => absurd h hroom⟩
    rw [State.chan_modChan, if_pos rfl, chan]

theorem exec_storeRowRepair (hp : s.dev.powered = true) (c : Ch) (row : Nat) :
    exec (.hbmRowRepair c (.stall row)) s = .next (s.remapRow c (.wst c) 5120 row ((rowRanges 256 5120 row).headD 0)
      (s.chan c).stallSpares fun x => { x with
        stallSpares := x.stallSpares ++ [row], stall := x.stall.blot 256 (rowRanges 256 5120 row) }) ∧
    exec (.hbmRowRepair c (.ast row)) s = .next (s.remapRow c (.ast c) 1024 row ((rowRanges 128 1024 row).headD 0)
      (s.chan c).astSpares fun x => { x with
        astSpares := x.astSpares ++ [row], ast := x.ast.blot 128 (rowRanges 128 1024 row) }) := by
  constructor
  · rw [exec, execHbmRowRepair, live_of_powered hp]
  · rw [exec, execHbmRowRepair, live_of_powered hp]

theorem storeRowRepairs : Rules.StoreRowRepairs := by
  intro c row s hp ha hf
  obtain ⟨stall, ast⟩ := exec_storeRowRepair hp c row
  constructor
  · intro hs hr
    obtain ⟨raised, room, full⟩ := s.remapRow_shows c (.wst c) 5120 row ((rowRanges 256 5120 row).headD 0)
      (s.chan c).stallSpares (fun x => { x with
        stallSpares := x.stallSpares ++ [row], stall := x.stall.blot 256 (rowRanges 256 5120 row) }) hs hr ha hf
    refine ⟨_, stall, ?_⟩
    by_cases h : ((s.chan c).stallSpares.filter fun r => r / 5120 = row / 5120).length < 16
    · obtain ⟨chan, -⟩ := room h
      rw [chan]
      exact ⟨rfl, rfl, raised, fun _ => ⟨rfl, rfl⟩, fun h' => absurd h (Nat.not_lt.mpr h')⟩
    · obtain ⟨chan, -⟩ := full (Nat.le_of_not_lt h)
      rw [chan]
      exact ⟨rfl, rfl, raised, fun h' => absurd h' h, fun _ => ⟨rfl, rfl⟩⟩
  · intro hs hr
    obtain ⟨raised, room, full⟩ := s.remapRow_shows c (.ast c) 1024 row ((rowRanges 128 1024 row).headD 0)
      (s.chan c).astSpares (fun x => { x with
        astSpares := x.astSpares ++ [row], ast := x.ast.blot 128 (rowRanges 128 1024 row) }) hs hr ha hf
    have told (first : Nat) : ((s.reportStoreRow (.ast c) first).rd (.ast c) Reg.intRaw_RAW).testBit 0 = true :=
      State.raise_sets _ _ (by decide)
    refine ⟨_, ast, ?_⟩
    by_cases h : ((s.chan c).astSpares.filter fun r => r / 1024 = row / 1024).length < 16
    · obtain ⟨chan, raw⟩ := room h
      rw [chan, raw]
      exact ⟨rfl, rfl, raised, told _, fun _ => ⟨rfl, rfl⟩, fun h' => absurd h (Nat.not_lt.mpr h')⟩
    · obtain ⟨chan, raw⟩ := full (Nat.le_of_not_lt h)
      rw [chan, raw (by simp)]
      exact ⟨rfl, rfl, raised, told _, fun h' => absurd h' h, fun _ => ⟨rfl, rfl⟩⟩

/-- Settles O58. -/
theorem repairs : Obligations.Repairs := ⟨substitutions, siteRetests, rowRepairs, storeRowRepairs⟩

end Sys2Proof.Machine
end

section
/-!
## The cold start (R543, R545, R549)
-/

namespace Sys2Proof.Machine

variable {s t u : State} {c : Ch}

/-! ## The image of a bank, and steps 3 to 5 -/

theorem State.runBank_shows (s : State) {bank svn : Nat} (hb : bank < 2) (hv : svn < 2 ^ 8) (fallback : Bool) :
    let t := s.runBank bank svn fallback
    t.rd .far Reg.farBoot_BANK = bank ∧ t.rd .far Reg.farBoot_FALLBACK = bit fallback ∧
      t.rd .far Reg.farFwStat_SVN = svn := by
  unfold State.runBank Reg.farBoot_BANK Reg.farBoot_FALLBACK Reg.farFwStat_SVN Reg.farFwStat_ACTIVE
  refine ⟨?_, ?_, ?_⟩
  · simp (disch := decide) only [State.rd_wr_off, State.rd_wr_same]
    exact Nat.mod_eq_of_lt hb
  · simp (disch := decide) only [State.rd_wr_same]
    cases fallback <;> rfl
  · simp (disch := decide) only [State.rd_wr_off, State.rd_wr_same]
    exact Nat.mod_eq_of_lt hv

/-- The clocks run at 1.2 GHz. -/
def State.lockPlls (s : State) : State := (List.range 4).foldl (fun s c => s.lockPll c 3) s

theorem State.lockPlls_moves (s : State) : Moves ⟨false, [], [.clk]⟩ s s.lockPlls :=
  .fold .refl fun _ c h => State.lockPll_moves h c 3 .refl

/-- A PLL that locks leaves those that run. -/
theorem State.arithOn_lockPll (s : State) (c d : Ch) (h : s.arithOn c = true) : (s.lockPll d 3).arithOn c = true := by
  by_cases hd : d = c
  · subst hd
    exact (s.lockPll_runs d (by decide)).1
  · have hc := c.isLt
    have hdl := d.isLt
    have hv : d.val ≠ c.val := fun e => hd (Fin.ext e)
    have off : 0x100 + 4 * d.val ≠ 0x100 + 4 * c.val := by omega
    rw [State.arithOn, State.flag, State.lockPll,
      State.rd_wr_off _ _ (show 1 + 2 ≤ 32 by decide) (show 0 + 1 ≤ 32 by decide) (show 0x100 + 4 * d.val < 4096 by omega)
        (show 0x100 + 4 * c.val < 4096 by omega) (.inl off.symm),
      State.rd_wr_off _ _ (show 0 + 1 ≤ 32 by decide) (show 0 + 1 ≤ 32 by decide) (show 0x100 + 4 * d.val < 4096 by omega)
        (show 0x100 + 4 * c.val < 4096 by omega) (.inl off.symm)]
    exact h

theorem State.arithOn_lockPlls (s : State) (c : Ch) : s.lockPlls.arithOn c = true := by
  unfold State.lockPlls
  refine foldl_holds (f := fun (s : State) c => s.lockPll c 3) (P := fun u : State => u.arithOn c = true)
    (List.mem_range.mpr c.isLt) (fun u => ?_) (fun u y hy hu => ?_) s
  · exact (u.lockPll_runs c (by decide)).1
  · obtain ⟨d, rfl⟩ := ch_of_mem_range hy
    exact u.arithOn_lockPll c d hu

theorem State.powerUp_eq (s : State) (p : PowerOnInputs) : s.powerUp p =
    if p.senseWatts < 300 then s.bootEnds stepPowerLimit 0x03
    else if !p.railsOk then s.bootEnds stepPower 0x04
    else if !p.pllsOk then s.bootEnds stepClocks 0x05
    else s.lockPlls.wr .far Reg.farBoot_STEP stepWaitPerst := rfl

theorem State.bootEnds_shows (s : State) {step code : Nat} (hs : step < 16) (hc : code < 256) :
    (s.bootEnds step code).bootStep = step ∧ (s.bootEnds step code).rd .far Reg.farBoot_FAIL = code := by
  unfold State.bootEnds State.bootStep Reg.farBoot_STEP Reg.farBoot_FAIL
  refine ⟨?_, ?_⟩
  · simp (disch := decide) only [State.rd_wr_off, State.rd_wr_same]
    exact Nat.mod_eq_of_lt hs
  · simp (disch := decide) only [State.rd_wr_same]
    exact Nat.mod_eq_of_lt hc

/-- The end of the start leaves every field of the farrier's page but STEP and FAIL. -/
theorem State.rd_bootEnds (s : State) (step code : Nat) {f : Fld} (hw : f.lo + f.w ≤ 32) (ho : f.off < 4096)
    (h : f.off ≠ 0x100 ∨ 4 ≤ f.lo ∧ f.lo + f.w ≤ 8) : (s.bootEnds step code).rd .far f = s.rd .far f := by
  unfold State.bootEnds Reg.farBoot_STEP Reg.farBoot_FAIL
  rw [State.rd_wr_off _ _ (by decide) hw (by decide) ho (by dsimp only; omega),
    State.rd_wr_off _ _ (by decide) hw (by decide) ho (by dsimp only; omega)]

theorem State.rd_powerUp (s : State) (p : PowerOnInputs) {f : Fld} (hw : f.lo + f.w ≤ 32) (ho : f.off < 4096)
    (h : f.off ≠ 0x100 ∨ 4 ≤ f.lo ∧ f.lo + f.w ≤ 8) : (s.powerUp p).rd .far f = s.rd .far f := by
  rw [s.powerUp_eq]
  split
  · exact s.rd_bootEnds _ _ hw ho h
  · split
    · exact s.rd_bootEnds _ _ hw ho h
    · split
      · exact s.rd_bootEnds _ _ hw ho h
      · rw [State.rd_wr_off _ _ (by decide) hw (by decide) ho (by simp only [Reg.farBoot_STEP]; omega),
          s.lockPlls_moves.rd_eq (by decide)]

theorem State.powerUp_dev (s : State) (p : PowerOnInputs) : (s.powerUp p).dev = s.dev := by
  rw [s.powerUp_eq]
  split
  · simp only [State.bootEnds, State.wr_dev]
  · split
    · simp only [State.bootEnds, State.wr_dev]
    · split
      · simp only [State.bootEnds, State.wr_dev]
      · rw [State.wr_dev]
        exact s.lockPlls_moves.parts .dev (by decide)

/-- Where steps 3 to 5 end, by what they meet. -/
def PowersUp (p : PowerOnInputs) (t : State) : Prop :=
  (p.senseWatts < 300 → t.bootStep = stepPowerLimit ∧ t.rd .far Reg.farBoot_FAIL = 0x03) ∧
  (300 ≤ p.senseWatts → p.railsOk = false → t.bootStep = stepPower ∧ t.rd .far Reg.farBoot_FAIL = 0x04) ∧
  (300 ≤ p.senseWatts → p.railsOk = true → p.pllsOk = false →
    t.bootStep = stepClocks ∧ t.rd .far Reg.farBoot_FAIL = 0x05) ∧
  (300 ≤ p.senseWatts → p.railsOk = true → p.pllsOk = true →
    t.bootStep = stepWaitPerst ∧ ∀ c : Ch, t.arithOn c = true)

theorem State.powersUp (s : State) (p : PowerOnInputs) : PowersUp p (s.powerUp p) := by
  rw [s.powerUp_eq]
  refine ⟨fun hw => ?_, fun hw hr => ?_, fun hw hr hl => ?_, fun hw hr hl => ?_⟩
  · rw [if_pos hw]
    exact s.bootEnds_shows (by decide) (by decide)
  · rw [if_neg (Nat.not_lt.mpr hw), if_pos (by simp [hr])]
    exact s.bootEnds_shows (by decide) (by decide)
  · rw [if_neg (Nat.not_lt.mpr hw), if_neg (by simp [hr]), if_pos (by simp [hl])]
    exact s.bootEnds_shows (by decide) (by decide)
  · rw [if_neg (Nat.not_lt.mpr hw), if_neg (by simp [hr]), if_neg (by simp [hl])]
    refine ⟨?_, fun c => ?_⟩
    · rw [State.bootStep, State.rd_wr_same _ _ _ (by decide)]
      rfl
    · rw [State.arithOn_congr (fun f => State.rd_wr_page _ (by decide)) c]
      exact s.arithOn_lockPlls c

/-! ## Steps 1 to 5 -/

/-- The blocks of the service domain run, and FAR_FW_STAT shows the banks (R543, steps 1 and 2). -/
def State.meetsBanks (s : State) (p : PowerOnInputs) : State :=
  let s1 := (servicePages.foldl State.turnOn s).modDev fun d => { d with deviceId := p.deviceId.toNat }
  (((s1.wr .far Reg.farFwStat_NEXT (bit p.next)).wr .far Reg.farFwStat_SVN_MIN p.svnMin.toNat).wr .far
    Reg.farFwStat_BANK0_OK (bit (bankFail p.bank0 p.svnMin.toNat = 0))).wr .far Reg.farFwStat_BANK1_OK
      (bit (bankFail p.bank1 p.svnMin.toNat = 0))

/-- The image of the bank that NEXT names, and that of the other bank. -/
def firstBank (p : PowerOnInputs) : BankImage := if p.next then p.bank1 else p.bank0
def spareBank (p : PowerOnInputs) : BankImage := if p.next then p.bank0 else p.bank1

theorem State.coldStart_eq (s : State) (p : PowerOnInputs) : s.coldStart p =
    if bankFail (firstBank p) p.svnMin.toNat = 0 then ((s.meetsBanks p).runBank (bit p.next) (firstBank p).svn.toNat false).powerUp p
    else if bankFail (spareBank p) p.svnMin.toNat = 0 then
      (((s.meetsBanks p).wr .far Reg.farBoot_FALLBACK 1).runBank (bit !p.next) (spareBank p).svn.toNat true).powerUp p
    else ((s.meetsBanks p).wr .far Reg.farBoot_FALLBACK 1).bootEnds stepRecovery (bankFail (spareBank p) p.svnMin.toNat) := rfl

theorem State.meetsBanks_powered (s : State) (p : PowerOnInputs) : (s.meetsBanks p).dev.powered = s.dev.powered := by
  simp only [State.meetsBanks, servicePages, List.foldl, State.turnOn, State.setBlk, State.wr_dev, State.modDev_dev]

theorem State.coldStart_powered (s : State) (p : PowerOnInputs) : (s.coldStart p).dev.powered = s.dev.powered := by
  rw [s.coldStart_eq]
  split
  · rw [State.powerUp_dev]
    simp only [State.runBank, State.wr_dev, State.meetsBanks_powered]
  · split
    · rw [State.powerUp_dev]
      simp only [State.runBank, State.wr_dev, State.meetsBanks_powered]
    · simp only [State.bootEnds, State.wr_dev, State.meetsBanks_powered]

theorem bankFail_lt (b : BankImage) (svnMin : Nat) : bankFail b svnMin < 256 := by
  unfold bankFail
  split
  · decide
  · split <;> decide

/-- What a cold start shows, by the banks that it meets. -/
def ColdStarted (p : PowerOnInputs) (first other : BankImage) (t : State) : Prop :=
  (bankFail first p.svnMin.toNat = 0 → t.rd .far Reg.farBoot_BANK = bit p.next ∧
    t.rd .far Reg.farBoot_FALLBACK = 0 ∧ t.rd .far Reg.farFwStat_SVN = first.svn.toNat) ∧
  (bankFail first p.svnMin.toNat ≠ 0 → bankFail other p.svnMin.toNat = 0 →
    t.rd .far Reg.farBoot_BANK = bit (!p.next) ∧ t.rd .far Reg.farBoot_FALLBACK = 1) ∧
  (bankFail first p.svnMin.toNat ≠ 0 → bankFail other p.svnMin.toNat ≠ 0 → t.bootStep = stepRecovery ∧
    t.rd .far Reg.farBoot_FAIL = bankFail other p.svnMin.toNat) ∧
  (bankFail first p.svnMin.toNat = 0 ∨ bankFail other p.svnMin.toNat = 0 → PowersUp p t)

theorem bit_lt (b : Bool) : bit b < 2 := by cases b <;> decide

theorem State.coldStarted (s : State) (p : PowerOnInputs) : ColdStarted p (firstBank p) (spareBank p) (s.coldStart p) := by
  have keeps (u : State) {f : Fld} (hw : f.lo + f.w ≤ 32) (ho : f.off < 4096) (h) := u.rd_powerUp p (f := f) hw ho h
  rw [s.coldStart_eq]
  refine ⟨fun h1 => ?_, fun h1 h2 => ?_, fun h1 h2 => ?_, fun h => ?_⟩
  · rw [if_pos h1, keeps _ (by decide) (by decide) (by decide), keeps _ (by decide) (by decide) (by decide),
      keeps _ (by decide) (by decide) (by decide)]
    exact State.runBank_shows _ (bit_lt _) (firstBank p).svn.isLt false
  · rw [if_neg h1, if_pos h2, keeps _ (by decide) (by decide) (by decide), keeps _ (by decide) (by decide) (by decide)]
    obtain ⟨hbank, hfall, -⟩ := State.runBank_shows ((s.meetsBanks p).wr .far Reg.farBoot_FALLBACK 1)
      (bit_lt (!p.next)) (spareBank p).svn.isLt true
    exact ⟨hbank, hfall⟩
  · rw [if_neg h1, if_neg h2]
    exact State.bootEnds_shows _ (by decide) (bankFail_lt ..)
  · split
    · exact State.powersUp _ p
    · next h1 =>
      rw [if_pos (h.resolve_left h1)]
      exact State.powersUp _ p

theorem exec_powerOn (p : PowerOnInputs) (s : State) : exec (.powerOn p) s = .next
    (if !s.dev.powered then (s.cold.modDev fun d => { d with powered := true }).coldStart p
    else if s.bootStep = stepRom then s.coldStart p else s) := rfl

theorem powerOn : Rules.PowerOn := by
  rintro p s first other rfl rfl
  refine ⟨fun hp hb => ?_, fun h => ?_⟩
  · rw [exec_powerOn, hp, if_neg (by simp), if_neg hb]
  · refine ⟨_, exec_powerOn p s, ?_⟩
    cases hp : s.dev.powered with
    | false =>
      rw [if_pos (by simp)]
      exact ⟨by rw [State.coldStart_powered, State.modDev_dev], State.coldStarted _ p⟩
    | true =>
      rw [if_neg (by simp), if_pos (h.resolve_left (by simp [hp]))]
      exact ⟨by rw [State.coldStart_powered, hp], State.coldStarted _ p⟩

end Sys2Proof.Machine
end

section
/-!
## The start of the main domain (R543 step 6, R546) and the links of its end (R543 step 11)
-/

namespace Sys2Proof.Machine

variable {s t u : State} {c : Ch} {p : Page} {f : Fld}

/-! ## What the start of the links leaves -/

/-- The enabling of a port leaves every page but the port's own. -/
theorem State.rd_enable_hlk (s : State) (q : PortId) (h : p ≠ .hlk q) (f : Fld) :
    (s.enable (.hlk q) true).rd p f = s.rd p f := by
  unfold State.enable State.enterStarting State.setBlk
  dsimp only
  rw [if_pos rfl]
  split
  · rw [State.showHubOf, if_neg (by simp [isHubBlock]), State.rd_congr (State.setBlockRun_regs ..),
      State.rd_wr_page _ h, State.rd_wr_page _ h, State.rd_wr_page _ h, State.rd_wr_page _ h]
  · split
    · rw [State.rd_wr_page _ h, State.rd_wr_page _ h]
    · rw [State.rd_wr_page _ h]

/-- Step 11 shows in the ports' pages, in LINKS_STARTED and in STEP alone. -/
theorem State.rd_startLinks (s : State) (hw : f.lo + f.w ≤ 32) (ho : f.off < 4096) (hp : ∀ q, p ≠ .hlk q)
    (h : f.off ≠ 0x100 ∨ p ≠ .far ∧ (p ≠ .hif ∨ f.lo + f.w ≤ 17)) : s.startLinks.rd p f = s.rd p f := by
  unfold State.startLinks
  dsimp only
  split
  · rw [State.rd_wr_other _ _ (by decide) hw (by decide) ho (h.symm.imp And.left .inl),
      State.rd_wr_other _ _ (by decide) hw (by decide) ho
        (h.elim (fun h => .inr (.inl h)) fun h => h.2.imp id fun h => .inr (.inl h))]
    refine foldl_keeps (P := fun u : State => u.rd p f = s.rd p f) (fun u q _ h => ?_) rfl
    split
    · rw [u.rd_enable_hlk q (hp q), h]
    · exact h
  · rfl

/-- While a channel's start is under way, step 11 does not begin. -/
theorem State.startLinks_waits (h : s.chDone c = false) : s.startLinks = s := by
  rw [State.startLinks, if_neg]
  rintro ⟨-, -, hall⟩
  have hc := List.all_eq_true.mp hall c (List.mem_range.mpr c.isLt)
  exact absurd hc (by simp [h])

/-! ## Blocks that are turned ON -/

theorem State.rd_turnOn_page (s : State) {q : Page} (h : p ≠ q) (f : Fld) : (s.turnOn q).rd p f = s.rd p f := by
  rw [State.turnOn, State.setBlk, State.rd_wr_page _ h, State.rd_wr_page _ h]

theorem State.turnOn_chans (s : State) (q : Page) : (s.turnOn q).chans = s.chans := by
  rw [State.turnOn, State.setBlk, State.wr_chans, State.wr_chans]

theorem State.blk_turnOns {ps : List Page} (hp : p ∈ ps) (s : State) : (ps.foldl State.turnOn s).blk p = blkOn := by
  refine foldl_holds (P := fun u : State => u.blk p = blkOn) hp (fun u => u.blk_turnOn p) (fun u q _ h => ?_) _
  by_cases hq : p = q
  · subst hq
    exact u.blk_turnOn p
  · rw [State.blk, u.rd_turnOn_page hq]
    exact h

/-! ## HIF_READY and the state of a channel -/

/-- A channel's field of HIF_READY stands apart from every other field of its page. -/
theorem State.rd_setChState (s : State) (c : Ch) (v : Nat) (hw : f.lo + f.w ≤ 32) (ho : f.off < 4096)
    (h : p ≠ .hif ∨ f.off ≠ 0x10 ∧ (f.off ≠ 0x100 ∨ f.lo + f.w ≤ 4 * c.val ∨ 4 * c.val + 4 ≤ f.lo)) :
    (s.setChState c v).rd p f = s.rd p f := by
  unfold State.setChState
  split
  · rfl
  · rw [State.rd_raise_other _ hw ho (h.imp id And.left),
      State.rd_wr_other _ _ (readyFld_narrow c) hw (by simp [readyFld]) ho (h.imp id And.right)]

/-- Where the start of a channel begins: a retired one stays in reset (R609). -/
def State.channelBegins (s : State) (c : Ch) : State :=
  if s.rasState c = rasRetired then s.setChState c chRetired else s.trainHbm c

theorem State.rd_channelBegins (s : State) (c : Ch) (hw : f.lo + f.w ≤ 32) (ho : f.off < 4096)
    (h : p ≠ .hif ∨ f.off ≠ 0x10 ∧ (f.off ≠ 0x100 ∨ f.lo + f.w ≤ 4 * c.val ∨ 4 * c.val + 4 ≤ f.lo)) :
    (s.channelBegins c).rd p f = s.rd p f := by
  unfold State.channelBegins
  split
  · exact s.rd_setChState c _ hw ho h
  · exact s.rd_setChState c _ hw ho h

theorem State.chState_channelBegins (s : State) (c : Ch) :
    (s.channelBegins c).chState c = if s.rasState c = rasRetired then chRetired else chHbmTrain := by
  unfold State.channelBegins
  split
  · exact s.chState_setChState c (by decide)
  · exact s.chState_setChState c (by decide)

/-- The starts of all channels begin. -/
def State.channelsBegin (s : State) : State := (List.finRange 4).foldl State.channelBegins s

theorem State.rd_channelsBegin (s : State) (hw : f.lo + f.w ≤ 32) (ho : f.off < 4096)
    (h : p ≠ .hif ∨ f.off ≠ 0x10 ∧ (f.off ≠ 0x100 ∨ 16 ≤ f.lo)) : s.channelsBegin.rd p f = s.rd p f :=
  foldl_keeps (P := fun u : State => u.rd p f = s.rd p f) (fun u c _ hu => by
    have hc := c.isLt
    rw [u.rd_channelBegins c hw ho (h.imp id (.imp id (.imp id fun h => .inr (by omega)))), hu]) rfl

theorem State.rasState_channelBegins (s : State) (c d : Ch) : (s.channelBegins d).rasState c = s.rasState c := by
  have hc := c.isLt
  exact s.rd_channelBegins d (show 0 + 2 ≤ 32 by decide) (show 0x110 + 4 * c.val < 4096 by omega) (.inl (by simp))

theorem State.chState_channelsBegin (s : State) (c : Ch) :
    s.channelsBegin.chState c = if s.rasState c = rasRetired then chRetired else chHbmTrain := by
  have hc := c.isLt
  refine (foldl_holds (f := State.channelBegins) (P := fun u : State => u.rasState c = s.rasState c → u.chState c =
    if s.rasState c = rasRetired then chRetired else chHbmTrain) (List.mem_finRange c) (fun u hu => ?_)
    (fun u d _ ih hu => ?_) s) ?_
  · rw [u.rasState_channelBegins] at hu
    rw [u.chState_channelBegins, hu]
  · rw [u.rasState_channelBegins] at hu
    by_cases hd : d = c
    · subst hd
      rw [u.chState_channelBegins, hu]
    · have hv : d.val ≠ c.val := fun e => hd (Fin.ext e)
      rw [State.chState, u.rd_channelBegins d (readyFld_narrow c) (by simp [readyFld])
        (.inr ⟨by simp [readyFld], .inr (by simp only [readyFld]; omega)⟩)]
      exact ih hu
  · exact foldl_keeps (P := fun u : State => u.rasState c = s.rasState c)
      (fun u d _ hu => (u.rasState_channelBegins c d).trans hu) rfl

/-! ## PERST# and configuration requests -/

/-- The hub blocks are ON and HIF_READY shows it (R543, step 6; R548). -/
def State.hubUp (s : State) : State := (hubBlocks.foldl State.turnOn s).showHub

/-- The link shows its rate and that it is up (R662). -/
def State.linkComesUp (s : State) (speed width flit : Nat) : State :=
  ((((s.wr .hif Reg.hifLink_SPEED speed).wr .hif Reg.hifLink_WIDTH width).wr .hif
    Reg.hifLink_FLIT flit).draw.wr .hif Reg.hifLink_DL_UP 1).raise .hif 1

/-- The start reaches its channels. -/
def State.reachesChannels (s : State) : State :=
  (s.wr .far Reg.farBoot_STEP stepChannels).modDev fun d => { d with mainRuns := true }

/-- Step 6 before the links start. -/
def State.perstSeen (s : State) (speed width : Nat) : State :=
  (s.hubUp.linkComesUp speed width (Config.openValue s.drawn % 2)).reachesChannels.channelsBegin

theorem exec_perstDeassert (hp : s.dev.powered = true) (hb : s.bootStep = stepWaitPerst) (hf : s.dev.farrierUp = true)
    (ha : s.flag .far (Reg.farSb_ASSERTED 0) = false) (speed : BitVec 4) (width : BitVec 5) :
    exec (.perstDeassert speed width) s = .next (s.perstSeen speed.toNat width.toNat).startLinks := by
  rw [exec, execPerstDeassert, live_of_powered hp, if_neg (by simp [hb, hf, ha])]
  unfold State.perstSeen State.channelsBegin State.reachesChannels State.linkComesUp State.hubUp
  rfl

/-- HUB_READY with every hub block ON. -/
theorem State.showHub_ready (h : ∀ p ∈ hubBlocks, s.blk p = blkOn) : s.showHub.rd .hif Reg.hifReady_HUB_READY = 1 := by
  have hall : (hubBlocks.all fun p => s.blk p = blkOn) = true := List.all_eq_true.mpr fun p hp => decide_eq_true (h p hp)
  rw [State.showHub, hall, State.rd_wr_same _ _ _ (by decide)]
  rfl

theorem State.hubUp_shows (s : State) :
    (∀ p ∈ hubBlocks, s.hubUp.blk p = blkOn) ∧ s.hubUp.rd .hif Reg.hifReady_HUB_READY = 1 := by
  have on : ∀ p ∈ hubBlocks, (hubBlocks.foldl State.turnOn s).blk p = blkOn := fun p hp => State.blk_turnOns hp s
  unfold State.hubUp
  generalize hubBlocks.foldl State.turnOn s = u at on ⊢
  refine ⟨fun p hp => ?_, State.showHub_ready on⟩
  rw [State.blk, u.rd_showHub (by decide) (by decide) (.inr (by decide))]
  exact on p hp

theorem State.rd_linkComesUp (s : State) (speed width flit : Nat) (hw : f.lo + f.w ≤ 32) (ho : f.off < 4096)
    (h : p ≠ .hif ∨ f.off ≠ 0x10 ∧ f.off ≠ 0x104) : (s.linkComesUp speed width flit).rd p f = s.rd p f := by
  have wr (u : State) (l w v : Nat) (hl : l + w ≤ 32) : (u.wr .hif ⟨0x104, l, w⟩ v).rd p f = u.rd p f :=
    State.rd_wr_other u v hl hw (show 0x104 < 4096 by decide) ho (h.imp id fun h => .inl h.2)
  unfold State.linkComesUp Reg.hifLink_SPEED Reg.hifLink_WIDTH Reg.hifLink_FLIT Reg.hifLink_DL_UP
  rw [State.rd_raise_other _ hw ho (h.imp id And.left), wr _ _ _ _ (by decide), State.rd_draw, wr _ _ _ _ (by decide),
    wr _ _ _ _ (by decide), wr _ _ _ _ (by decide)]

theorem State.linkComesUp_shows (s : State) {speed width : Nat} (hs : speed < 16) (hw : width < 32) (flit : Nat) :
    let t := s.linkComesUp speed width flit
    t.rd .hif Reg.hifLink_SPEED = speed ∧ t.rd .hif Reg.hifLink_WIDTH = width ∧ t.rd .hif Reg.hifLink_DL_UP = 1 := by
  have raised (u : State) (l w : Nat) (hl : l + w ≤ 32) : (u.raise .hif 1).rd .hif ⟨0x104, l, w⟩ = u.rd .hif ⟨0x104, l, w⟩ :=
    u.rd_raise_off .hif hl (show 0x104 < 4096 by decide) (show 0x104 ≠ 0x10 by decide)
  have beside (u : State) (l w m n v : Nat) (hl : l + w ≤ 32) (hm : m + n ≤ 32) (h : l + w ≤ m) :
      (u.wr .hif ⟨0x104, m, n⟩ v).rd .hif ⟨0x104, l, w⟩ = u.rd .hif ⟨0x104, l, w⟩ :=
    u.rd_wr_off .hif hm hl (show 0x104 < 4096 by decide) (show 0x104 < 4096 by decide) (.inr (.inl h))
  unfold State.linkComesUp Reg.hifLink_SPEED Reg.hifLink_WIDTH Reg.hifLink_FLIT Reg.hifLink_DL_UP
  refine ⟨?_, ?_, ?_⟩
  · rw [raised _ _ _ (by decide), beside _ _ _ _ _ _ (by decide) (by decide) (by decide), State.rd_draw,
      beside _ _ _ _ _ _ (by decide) (by decide) (by decide), beside _ _ _ _ _ _ (by decide) (by decide) (by decide),
      State.rd_wr_same _ _ _ (by decide)]
    exact Nat.mod_eq_of_lt hs
  · rw [raised _ _ _ (by decide), beside _ _ _ _ _ _ (by decide) (by decide) (by decide), State.rd_draw,
      beside _ _ _ _ _ _ (by decide) (by decide) (by decide), State.rd_wr_same _ _ _ (by decide)]
    exact Nat.mod_eq_of_lt hw
  · rw [raised _ _ _ (by decide), State.rd_wr_same _ _ _ (by decide)]
    exact Nat.mod_eq_of_lt (show 1 < 2 by decide)

theorem State.rd_reachesChannels (s : State) (hw : f.lo + f.w ≤ 32) (ho : f.off < 4096) (h : p ≠ .far ∨ f.off ≠ 0x100) :
    s.reachesChannels.rd p f = s.rd p f := by
  rw [State.reachesChannels, State.rd_modDev, State.rd_wr_other _ _ (by decide) hw (by decide) ho (h.imp id .inl)]

/-- What step 6 shows before its channels stays as the channels and the links start. -/
theorem State.rd_perstSeen_links (s : State) (speed width : Nat) (hw : f.lo + f.w ≤ 32) (ho : f.off < 4096)
    (hq : ∀ q, p ≠ .hlk q) (h : f.off ≠ 0x10) (h0 : f.off ≠ 0x100 ∨ p = .hif ∧ f.lo = 16 ∧ f.w = 1) :
    (s.perstSeen speed width).startLinks.rd p f = (s.hubUp.linkComesUp speed width (Config.openValue s.drawn % 2)).rd p f := by
  rw [State.rd_startLinks _ hw ho hq (h0.imp id fun ⟨hp, hl, hf⟩ => ⟨by simp [hp], .inr (by omega)⟩), State.perstSeen,
    State.rd_channelsBegin _ hw ho (.inr ⟨h, h0.imp id fun ⟨_, hl, _⟩ => by omega⟩),
    State.rd_reachesChannels _ hw ho (h0.symm.imp (fun ⟨hp, _⟩ => by simp [hp]) id)]

theorem State.channelsBegin_moves (s : State) : Moves ⟨false, [.out, .msix], [.hif]⟩ s s.channelsBegin :=
  .fold .refl fun u c h => by
    unfold State.channelBegins
    split
    · exact State.setChState_moves h c _ .refl
    · exact State.setChState_moves h c _ .refl

theorem State.perstSeen_dev (s : State) (speed width : Nat) :
    (s.perstSeen speed width).startLinks.dev = (s.hubUp.linkComesUp speed width (Config.openValue s.drawn % 2)).reachesChannels.dev :=
  Eq.trans ((State.startLinks_moves .refl .refl : Moves ⟨false, _, _⟩ _ _).parts .dev (by decide))
    ((State.channelsBegin_moves _).parts .dev (by decide))

/-- No port's page is among the hub blocks that HUB_READY covers. -/
theorem ne_hlk_of_hubBlocks (hp : p ∈ hubBlocks) (q : PortId) : p ≠ .hlk q := by
  rintro rfl
  simp [hubBlocks] at hp

theorem State.rd_hubUp_ras (s : State) (ho : f.off ≠ (enFld .ras).off) (hs : f.off ≠ Reg.blkState_STATE.off)
    (hw : f.lo + f.w ≤ 32) (h : f.off < 4096) : s.hubUp.rd .ras f = s.rd .ras f := by
  rw [State.hubUp, State.rd_showHub _ hw h (.inl (by decide))]
  refine foldl_keeps (P := fun u : State => u.rd .ras f = s.rd .ras f) (fun u q _ hu => ?_) rfl
  by_cases hq : Page.ras = q
  · subst hq
    rw [State.turnOn, State.setBlk, State.rd_wr_off _ _ (by decide) hw (by decide) h (.inl hs),
      State.rd_wr_off _ _ (by decide) hw (by decide) h (.inl ho), hu]
  · rw [u.rd_turnOn_page hq, hu]

theorem State.rasState_linkComesUp (s : State) (speed width : Nat) (c : Ch) :
    (s.hubUp.linkComesUp speed width (Config.openValue s.drawn % 2)).reachesChannels.rasState c = s.rasState c := by
  have hc := c.isLt
  have hw : (Reg.rasChStat_STATE c).lo + (Reg.rasChStat_STATE c).w ≤ 32 := show 0 + 2 ≤ 32 by decide
  have ho : (Reg.rasChStat_STATE c).off < 4096 := show 0x110 + 4 * c.val < 4096 by omega
  rw [State.rasState, State.rd_reachesChannels _ hw ho (.inl (by decide)), State.rd_linkComesUp _ _ _ _ hw ho (.inl (by decide)),
    State.rd_hubUp_ras _ (show 0x110 + 4 * c.val ≠ 8 by omega) (show 0x110 + 4 * c.val ≠ 0xc by omega) hw ho, State.rasState]

/-- What the start shows after step 6. -/
theorem State.perstSeen_shows (s : State) (speed : BitVec 4) (width : BitVec 5) :
    let t := (s.perstSeen speed.toNat width.toNat).startLinks
    t.dev.mainRuns = true ∧ t.rd .hif Reg.hifLink_SPEED = speed.toNat ∧ t.rd .hif Reg.hifLink_WIDTH = width.toNat ∧
      t.rd .hif Reg.hifLink_DL_UP = 1 ∧ (∀ p ∈ hubBlocks, t.blk p = blkOn) ∧ t.rd .hif Reg.hifReady_HUB_READY = 1 ∧
      (∀ c : Ch, t.chState c = if s.rasState c = rasRetired then chRetired else chHbmTrain) ∧
      ((∃ c : Ch, s.rasState c ≠ rasRetired) → t.bootStep = stepChannels) := by
  obtain ⟨hon, hhub⟩ := s.hubUp_shows
  obtain ⟨hspeed, hwidth, hup⟩ := s.hubUp.linkComesUp_shows speed.isLt width.isLt (Config.openValue s.drawn % 2)
  have link (g : Fld) (hg : g.off = 0x104) (hw : g.lo + g.w ≤ 32) :=
    s.rd_perstSeen_links speed.toNat width.toNat (p := .hif) hw (by omega) (by simp) (by omega) (.inl (by omega))
  have state (c : Ch) : (s.perstSeen speed.toNat width.toNat).chState c =
      if s.rasState c = rasRetired then chRetired else chHbmTrain := by
    rw [State.perstSeen, State.chState_channelsBegin, State.rasState_linkComesUp]
  refine ⟨?_, (link _ rfl (by decide)).trans hspeed, (link _ rfl (by decide)).trans hwidth,
    (link _ rfl (by decide)).trans hup, fun p hp => ?_, ?_, fun c => ?_, fun ⟨c, hc⟩ => ?_⟩
  · rw [State.perstSeen_dev]
    rfl
  · rw [State.blk, s.rd_perstSeen_links _ _ (by decide) (by decide) (ne_hlk_of_hubBlocks hp) (by decide)
      (.inl (by decide)), State.rd_linkComesUp _ _ _ _ (by decide) (by decide) (.inr (by decide))]
    exact hon p hp
  · rw [s.rd_perstSeen_links _ _ (by decide) (by decide) (by simp) (by decide) (.inr ⟨rfl, rfl, rfl⟩),
      State.rd_linkComesUp _ _ _ _ (by decide) (by decide) (.inr (by decide))]
    exact hhub
  · rw [State.chState_startLinks, state]
  · rw [State.startLinks_waits (c := c) (by rw [State.chDone, state, if_neg hc]; rfl), State.perstSeen, State.bootStep,
      State.rd_channelsBegin _ (by decide) (by decide) (.inl (by decide)), State.reachesChannels, State.rd_modDev,
      State.rd_wr_same _ _ _ (by decide)]
    rfl

theorem configRequested (hp : s.dev.powered = true) : ∃ t, exec .configRequest s = .next t ∧
    (s.mainUp = false → t = s.emit (.completion .retry 0)) ∧
    (s.mainUp = true → (∃ v, t.out = s.out ++ [.completion .ok v]) ∧ t = { s with out := t.out, drawn := t.drawn }) := by
  refine ⟨_, by rw [exec, execConfigRequest, live_of_powered hp], fun hm => by simp [hm], fun hm => ?_⟩
  rw [if_pos hm]
  exact ⟨⟨_, rfl⟩, rfl⟩

theorem perstDeassert : Rules.PerstDeassert := fun s hp => ⟨fun speed width hb hf ha =>
  ⟨_, exec_perstDeassert hp hb hf ha speed width, s.perstSeen_shows speed width⟩, configRequested hp⟩

end Sys2Proof.Machine
end

section
/-!
## The retirement of a channel (R604, R605, R616)
-/

namespace Sys2Proof.Machine

variable {s t u : State} {c : Ch} {p : Page} {f : Fld}

/-! ## A lost path leaves the slots of the sites -/

theorem State.freeEntry_slots (s : State) (c e : Nat) (k : EngCmd) : s.KeepsSlots (s.freeEntry c e k) :=
  .ite .refl (s.modEngine_slots c e _)

theorem State.startRebuild_slots (s : State) (c e n uid : Nat) (d : Group) : s.KeepsSlots (s.startRebuild c e n uid d) := by
  unfold State.startRebuild
  refine State.Keeps.trans (.of_chans ?_) (State.modEngine_slots _ c e _)
  exact ((State.bumpAll_moves (State.showBank_moves .refl c _ n d 0 1 0 .refl) c _ _ .refl :
    Moves ⟨false, _, _⟩ s _)).parts .chans (by decide)

theorem State.bindTo_slots (s : State) (c e n uid : Nat) : s.KeepsSlots (s.bindTo c e n uid) :=
  (s.modEngine_slots c e _).trans (State.wrAll_keeps ..)

theorem State.unbind_slots (s : State) (c e uid : Nat) : s.KeepsSlots (s.unbind c e uid) := by
  refine (s.modEngine_slots c e _).fold fun u n _ => ?_
  have first := u.modEngine_slots c e fun g =>
    { g with banks := Tab.set g.banks n { g.bank n with bound := ((u.engine c e).bank n).bound.erase uid } }
  dsimp only
  split
  · split
    · split
      · exact ((first.trans (State.modEngine_slots _ c e _)).trans (State.startRebuild_slots ..)).trans
          (State.bindTo_slots ..)
      · exact first.trans (State.wrAll_keeps ..)
    · exact first
  · exact .refl

theorem State.dropRuns_slots (s : State) (c e t : Nat) : s.KeepsSlots (s.dropRuns c e t) := by
  refine State.Keeps.trans (State.Keeps.trans (State.Keeps.refl.fold fun u r _ => ?_) (State.modEngine_slots _ c e _))
    (State.sweep_slots _ c e)
  exact ((u.unbind_slots c e _).trans (State.freeEntry_slots _ c e _)).trans (State.modEngine_slots _ c e _)

theorem State.sendBreak_slots (s : State) (c e : Nat) (k : EngCmd) (tkind cause : Nat) :
    s.KeepsSlots (s.sendBreak c e k tkind cause) := .ite (s.modEngine_slots c e _) .refl

theorem State.loseTile_slots (s : State) (c e t st : Nat) (cause : Option Nat) :
    s.KeepsSlots (s.loseTile c e t st cause) := by
  unfold State.loseTile
  dsimp only
  refine State.Keeps.trans ?_ ((State.dropRuns_slots _ c e t).trans (State.modEngine_slots _ c e _))
  split
  · exact (s.ecsDone_slots c _ st).trans (State.sendBreak_slots ..)
  · exact s.ecsDone_slots c _ st

theorem State.loseLanded_slots (s : State) (c ctx tag : Nat) : s.KeepsSlots (s.loseLanded c ctx tag) := by
  unfold State.loseLanded
  dsimp only
  refine .ite .refl ?_
  refine State.Keeps.trans (t := (((s.chan c).landed ctx tag).map (·.1)).foldl (fun s i => s.dropLanding c i) s)
    (State.Keeps.refl.fold fun u i _ => u.modChan_keeps c) ?_
  have cleared (u : State) : u.KeepsSlots (u.modChan c fun x => { x with
    spills := x.spills.filter fun p => !(p.ctx = ctx && p.block.block.hdr.tag = tag) }) := u.modChan_keeps c
  refine (cleared _).trans (.of_chans ?_)
  rw [State.raise_chans, State.bump, State.wr_chans]

theorem State.logOut_slots (s : State) (c k v : Nat) : s.KeepsSlots (s.logOut c k v) := .of_chans (State.logOut_chans ..)

theorem State.tilePathLost_slots (s : State) (c e t path : Nat) (sends : EngCmd → Bool) :
    s.KeepsSlots (s.tilePathLost c e t path sends) := by
  unfold State.tilePathLost
  dsimp only
  split
  · exact ((s.loseLanded_slots c _ _).trans (State.loseTile_slots _ c e t _ _)).trans (State.logOut_slots _ c _ _)
  · exact (s.loseTile_slots c e t _ _).trans (State.logOut_slots _ c _ _)
  · exact .refl

theorem State.modShare_slots (s : State) (c ctx : Nat) (f : EngShare → EngShare) : s.KeepsSlots (s.modShare c ctx f) :=
  .of_chans rfl

theorem State.savedPathLost_slots (s : State) (c e t : Nat) (x : TileSlot) (path : Nat) (sends : EngCmd → Bool) :
    s.KeepsSlots (s.savedPathLost c e t x path sends) := by
  unfold State.savedPathLost
  dsimp only
  split
  · exact ((((s.loseLanded_slots c _ _).trans (State.sendBreak_slots _ c e _ _ _)).trans
      (State.ecsDone_slots _ c _ _)).trans (State.modShare_slots _ c _ _)).trans (State.logOut_slots _ c _ _)
  · exact ((s.ecsDone_slots c _ _).trans (State.modShare_slots _ c _ _)).trans (State.logOut_slots _ c _ _)
  · exact .refl

theorem State.pathLost_slots (s : State) (path : Nat) (sends : Nat → EngCmd → Bool) :
    s.KeepsSlots (s.pathLost path sends) := by
  unfold State.pathLost
  refine State.Keeps.fold (State.Keeps.refl.fold fun u c _ => ?_) fun u sh _ => ?_
  · exact State.Keeps.refl.fold fun u g _ => State.Keeps.refl.fold fun u t _ => u.tilePathLost_slots c g.1 t path _
  · exact State.Keeps.refl.fold fun u g _ => State.Keeps.refl.fold fun u t _ => u.savedPathLost_slots _ _ _ _ path _

theorem State.dropSwitch_slots (s : State) (gone : Moving → Bool) : s.KeepsSlots (s.dropSwitch gone) :=
  State.Keeps.refl.fold fun u c _ => (u.modChan_keeps c).fold fun v _ _ => v.modChan_keeps c

theorem State.channelPathsLost_slots (s : State) (c : Nat) : s.KeepsSlots (s.channelPathsLost c) :=
  (s.dropSwitch_slots _).trans (State.pathLost_slots _ _ _)

/-! ## A channel after its reset -/

/-- A channel's reset up to what the reset of its tables takes away. -/
def State.beforeReset (s : State) (c : Ch) : State :=
  (((s.channelPathsLost c).loseStreams c).forgetAccesses fun a => reqCh? a.req = some c).modCache (.cmmu c) fun _ => {}

theorem State.beforeReset_slots (s : State) (c : Ch) : s.KeepsSlots (s.beforeReset c) := by
  refine (s.channelPathsLost_slots c).trans (.of_chans ?_)
  have streams (u : State) : (u.loseStreams c).chans = u.chans :=
    (State.loseStreams_moves .refl c .refl : Moves ⟨false, _, _⟩ u _).parts .chans (by decide)
  have accesses (u : State) (own : MemAccess → Bool) : (u.forgetAccesses own).chans = u.chans :=
    (State.forgetAccesses_moves .refl own .refl : Moves ⟨false, _, _⟩ u _).parts .chans (by decide)
  have cache (u : State) (f : Cache → Cache) : (u.modCache (.cmmu c) f).chans = u.chans :=
    (State.modCache_moves .refl _ f .refl : Moves ⟨false, _, _⟩ u _).parts .chans (by decide)
  rw [State.beforeReset, cache, accesses, streams]

theorem State.resetChannel_before (s : State) (c : Ch) : s.resetChannel c =
    ((((s.beforeReset c).modChan c Channel.afterReset).resetPages (channelPages c) clsChannel).releaseAll
      (masterTag (.groom c))).channelMailReset c := by
  rw [s.resetChannel_eq, State.channelCleared, State.beforeReset]

/-- What a channel's reset does after the tables: pages, locks, mailboxes and saved shares. -/
theorem State.resetTail_moves (s : State) (c : Ch) : Moves ⟨false, [.out, .cycBase, .blocks, .msix, .mbx, .shares], allKinds⟩ s
    (((s.resetPages (channelPages c) clsChannel).releaseAll (masterTag (.groom c))).channelMailReset c) := by
  have mail := State.resetSender_moves (State.emptyBox_moves (State.releaseAll_moves (State.resetPages_moves .refl
    (channelPages c) clsChannel (by decide +kernel)) (masterTag (.groom c)) (by decide +kernel)) (fgBox c)
      (by decide +kernel)) (gfBox c) (by decide +kernel) (σ := ⟨false, [.out, .cycBase, .blocks, .msix, .mbx, .shares], allKinds⟩)
    (s0 := s)
  refine State.wr_moves (mail.record rfl rfl ?_ ?_ ?_ ?_ ?_ ?_ ?_ ?_ ?_ ?_ ?_ ?_ ?_ ?_ (.inr (by decide)) ?_ ?_ ?_ ?_) _ _ _
    (pageKind_mem _) <;> exact .inl rfl

/-- The channel's tables are what its reset leaves of them. -/
theorem State.chan_resetChannel_eq (s : State) (c : Ch) :
    (s.resetChannel c).chan c = Channel.afterReset ((s.beforeReset c).chan c) := by
  rw [s.resetChannel_before, State.chan_congr ((State.resetTail_moves _ c).parts .chans (by decide)), State.chan_modChan,
    if_pos rfl]

theorem Channel.afterReset_keeps (x : Channel) : x.afterReset.rings = [] ∧ x.afterReset.slotMap = x.slotMap := ⟨rfl, rfl⟩

/-- A channel's reset leaves it no command, engine state or ring, and its sites in their slots. -/
theorem State.resetChannel_tables (s : State) (c : Ch) :
    ((s.resetChannel c).chan c).cmds = [] ∧ ((s.resetChannel c).chan c).engines = [] ∧
      ((s.resetChannel c).chan c).rings = [] ∧ ((s.resetChannel c).chan c).slotMap = (s.chan c).slotMap := by
  obtain ⟨hcmds, hengines⟩ := s.chan_resetChannel c
  obtain ⟨hrings, hslots⟩ := Channel.afterReset_keeps ((s.beforeReset c).chan c)
  rw [← s.chan_resetChannel_eq] at hrings hslots
  exact ⟨hcmds, hengines, hrings, hslots.trans ((s.beforeReset_slots c).same c)⟩

/-! ## Streams of the channel -/

/-- The loss of a home channel makes its OPEN streams LOST (R310). -/
theorem State.loseStreams_lost (s : State) (c : Nat) {n : Nat} (ho : (s.stream n).state = strmOpen)
    (hh : (s.stream n).home = c) : ((s.loseStreams c).stream n).state = strmLost := by
  unfold State.loseStreams
  extract_lets goes children lost s1 s2
  have streams1 : s1.streams = s.streams := by
    unfold s1
    split
    · split
      · exact State.windowDone_streams _ _ _
      · rfl
    · rfl
  have lost2 : (s2.stream n).state = strmLost := by
    have found : Tab.get {} s1.streams n = s.stream n := by rw [streams1, State.stream]
    have hgoes : goes (s.stream n) = true := by simp [goes, ho, hh, strmOpen, strmFree, strmLost, strmForking]
    obtain ⟨-, hnone⟩ | h := Tab.get_map ({} : StreamRec) s1.streams (f := fun r : Nat × StreamRec =>
      if goes r.2 then (r.1, { r.2 with state := strmLost, discard := false })
      else if r.2.state = strmForking && children.contains r.1 then (r.1, { r.2 with state := strmFree })
      else r) (fun r => by split <;> [rfl; split <;> rfl]) n
    · rw [found] at hnone
      rw [hnone] at ho
      exact absurd ho (by decide)
    · rw [found] at h
      rw [State.stream, h, if_pos hgoes]
  split
  · rw [State.stream, State.raise_streams]
    exact lost2
  · exact lost2

/-- A stream whose home is reset is LOST. -/
theorem State.resetChannel_lost (s : State) (c : Ch) {n : Nat} (ho : (s.stream n).state = strmOpen)
    (hh : (s.stream n).home = c) : ((s.resetChannel c).stream n).state = strmLost := by
  have paths : (s.channelPathsLost c).streams = s.streams :=
    (State.channelPathsLost_moves .refl c .refl : Moves ⟨false, _, _⟩ s _).parts .streams (by decide)
  have before : (s.channelPathsLost c).stream n = s.stream n := by rw [State.stream, paths, State.stream]
  have accesses (u : State) (own : MemAccess → Bool) : (u.forgetAccesses own).streams = u.streams :=
    (State.forgetAccesses_moves .refl own .refl : Moves ⟨false, _, _⟩ u _).parts .streams (by decide)
  have cache (u : State) (f : Cache → Cache) : (u.modCache (.cmmu c) f).streams = u.streams :=
    (State.modCache_moves .refl _ f .refl : Moves ⟨false, _, _⟩ u _).parts .streams (by decide)
  have tail (u : State) : (((u.resetPages (channelPages c) clsChannel).releaseAll
      (masterTag (.groom c))).channelMailReset c).streams = u.streams := (u.resetTail_moves c).parts .streams (by decide)
  have after : (s.resetChannel c).streams = ((s.channelPathsLost c).loseStreams c).streams := by
    rw [s.resetChannel_before, tail, State.modChan_streams, State.beforeReset, cache, accesses]
  rw [← before] at ho hh
  rw [State.stream, after, ← State.stream]
  exact State.loseStreams_lost _ c ho hh

/-! ## What a retirement shows -/

theorem State.enable_hlk_chans (s : State) (q : PortId) : (s.enable (.hlk q) true).chans = s.chans := by
  unfold State.enable State.enterStarting State.setBlk
  dsimp only
  rw [if_pos rfl]
  split
  · rw [State.showHubOf, if_neg (by simp [isHubBlock])]
    simp only [State.setBlockRun, State.wr_chans]
  · split
    · simp only [State.wr_chans]
    · simp only [State.wr_chans]

theorem State.startLinks_chans (s : State) : s.startLinks.chans = s.chans := by
  unfold State.startLinks
  dsimp only
  split
  · rw [State.wr_chans, State.wr_chans]
    refine foldl_keeps (P := fun u : State => u.chans = s.chans) (fun u q _ h => ?_) rfl
    split
    · rw [u.enable_hlk_chans, h]
    · exact h
  · rfl

/-- After the reset of the channel, its retirement leaves its tables and the streams. -/
theorem State.retireChannel_tables (s : State) (c : Ch) (cause : Nat) :
    (s.retireChannel c cause).chans = (s.resetChannel c).chans ∧
      (s.retireChannel c cause).streams = (s.resetChannel c).streams := by
  have settled (u : State) := (State.settleOwed_moves .refl (restartOf c) codeRepairFail .refl : Moves ⟨false, _, _⟩ u _)
  have links (u : State) := (State.startLinks_moves .refl .refl : Moves ⟨false, _, _⟩ u _)
  have shown := s.retired_moves c cause
  rw [s.retireChannel_eq]
  exact ⟨(State.startLinks_chans _).trans (((settled _).parts .chans (by decide)).trans (shown.parts .chans (by decide))),
    ((links _).parts .streams (by decide)).trans (((settled _).parts .streams (by decide)).trans
      (shown.parts .streams (by decide)))⟩

theorem State.retired_signalled (s : State) (c : Ch) (cause : Nat) :
    ((s.retired c cause).rd .ras Reg.intRaw_RAW).testBit 2 = true := by
  unfold State.retired
  dsimp only
  split
  · exact State.raise_keeps _ _ _ (State.raise_sets _ _ (by decide))
  · exact State.raise_sets _ _ (by decide)

/-- What a retirement shows in registers. -/
theorem State.retireChannel_registers (s : State) (c : Ch) {cause : Nat} (hc : cause < 16) :
    ShowsRetired c cause (s.retireChannel c cause) ∧
      ((s.retireChannel c cause).rd .ras Reg.intRaw_RAW).testBit 2 = true := by
  obtain ⟨hstate, hras, hcause⟩ := s.retired_shows c hc
  have links (u : State) := (State.startLinks_moves .refl .refl : Moves ⟨false, _, _⟩ u _)
  have settled (u : State) := (State.settleOwed_moves .refl (restartOf c) codeRepairFail .refl : Moves ⟨false, _, _⟩ u _)
  have ras (f : Fld) : (s.retireChannel c cause).rd .ras f = (s.retired c cause).rd .ras f := by
    rw [s.retireChannel_eq, (links _).rd_eq (by decide), (settled _).rd_eq (by decide)]
  refine ⟨⟨?_, (ras _).trans hras, (ras _).trans hcause⟩, by rw [ras]; exact s.retired_signalled c cause⟩
  rw [s.retireChannel_eq, State.chState_startLinks, State.chState, (settled _).rd_eq (by decide)]
  exact hstate

theorem exec_channelRetire (hp : s.dev.powered = true) (hm : s.mainUp = true) (hf : s.dev.farrierUp = true)
    (hr : s.chState c ≠ chRetired) (ho : s.chState c ≠ chOff) {cause : RetireCause}
    (hc : (s.chan c).failing = some cause.toNat ∨ cause = 2 ∨ cause = 6 ∨ cause = 7) :
    exec (.channelRetire c cause) s = .next (s.retireChannel c cause.toNat) := by
  have seen : (s.chan c).failing = some cause.toNat ∨ cause.toNat = 2 ∨ cause.toNat = 6 ∨ cause.toNat = 7 :=
    hc.imp id (.imp (congrArg BitVec.toNat) (.imp (congrArg BitVec.toNat) (congrArg BitVec.toNat)))
  rw [exec, execChannelRetire, live_of_powered hp]
  dsimp only
  rw [if_neg (by simpa [hm, hf, hr, ho, or_iff_not_imp_left] using seen)]

theorem channelRetires : Rules.ChannelRetires := by
  intro c cause s hp hm hf hr ho hc
  obtain ⟨⟨hstate, hras, hcause⟩, hraw⟩ := s.retireChannel_registers c cause.isLt
  obtain ⟨hcmds, hengines, hrings, hslots⟩ := s.resetChannel_tables c
  obtain ⟨hchans, hstreams⟩ := s.retireChannel_tables c cause.toNat
  rw [← State.chan_congr hchans] at hcmds hengines hrings hslots
  refine ⟨_, exec_channelRetire hp hm hf hr ho hc, hstate, hras, hcause, hraw, hcmds, hengines, hrings, hslots,
    fun n hopen hhome => ?_⟩
  rw [State.stream, hstreams, ← State.stream]
  exact s.resetChannel_lost c hopen hhome

end Sys2Proof.Machine
end

section
/-!
## The steps of a channel's start (R543 steps 7 to 10, R544)
-/

namespace Sys2Proof.Machine

variable {s t u : State} {c : Ch} {p : Page} {f : Fld}

/-! ## A step that fails -/

theorem State.chState_settleOwed (s : State) (a : OwedAnswer → Bool) (code : Nat) (c : Ch) :
    (s.settleOwed a code).chState c = s.chState c :=
  (State.settleOwed_moves .refl a code .refl : Moves ⟨false, _, _⟩ s _).rd_eq (by decide) _

/-- A start that fails leaves a channel that is not being re-admitted FAILED. -/
theorem State.startFails_failed (s : State) (c : Ch) (cause : Nat) (h : s.rasState c ≠ rasReadmitting) :
    (s.startFails c cause).chState c = chFailed := by
  rw [State.startFails, if_neg h, State.chState_startLinks, State.chState_settleOwed]
  exact s.chState_setChState c (by decide)

theorem exec_hbmTrainDone (hp : s.dev.powered = true) (h : s.chState c = chHbmTrain) (ok : Bool) :
    exec (.hbmTrainDone c ok) s = .next
      (if ok then (s.wr (.hbmc c) Reg.hbmcStat_TRAINED 1).setChState c chSelftest else s.startFails c 7) := by
  rw [exec, execHbmTrainDone, live_of_powered hp, if_neg (not_not_intro h)]

theorem hbmTrained (hp : s.dev.powered = true) (h : s.chState c = chHbmTrain) :
    (∃ t, exec (.hbmTrainDone c true) s = .next t ∧ t.chState c = chSelftest ∧
      t.rd (.hbmc c) Reg.hbmcStat_TRAINED = 1) ∧
    (s.rasState c ≠ rasReadmitting →
      ∃ t, exec (.hbmTrainDone c false) s = .next t ∧ t.chState c = chFailed) := by
  refine ⟨⟨_, exec_hbmTrainDone hp h true, ?_⟩, fun hr => ⟨_, exec_hbmTrainDone hp h false, s.startFails_failed c 7 hr⟩⟩
  rw [if_pos rfl]
  refine ⟨State.chState_setChState _ c (by decide), ?_⟩
  rw [State.rd_setChState _ c _ (by decide) (by decide) (.inl (by simp)), State.rd_wr_same _ _ _ (by decide)]
  rfl

/-! ## The self-test and the repair records -/

/-- What the counts of RAS_CHn_STAT are taken of: the slots of the sites, and the sites. -/
abbrev State.KeepsSites (s t : State) (c : Nat) : Prop := (∀ e, t.siteIn c e = s.siteIn c e) ∧ ∀ n, t.site c n = s.site c n

theorem State.poolCount_congr (h : ∀ e, t.siteIn c e = s.siteIn c e) : t.poolCount c = s.poolCount c := by
  simp only [State.poolCount, h]

theorem State.failedCount_congr (h : ∀ n, t.site c n = s.site c n) : t.failedCount c = s.failedCount c := by
  simp only [State.failedCount, h]

/-- A site that takes the slot in which it stands leaves the slots and the sites. -/
theorem State.takeSlot_again (s : State) (c e : Nat) : s.KeepsSites (s.takeSlot c e (s.siteIn c e)) c := by
  refine ⟨fun j => ?_, fun n => ?_⟩
  · rw [State.siteIn_takeSlot]
    split
    · next h => rw [h]
    · rfl
  · rw [State.site, State.chan_congr (s.takeSlot_chan ..), State.chan_modChan, if_pos rfl, State.site]

/-- The column maps of the repair records are applied (R106). -/
def State.mapsApplied (s : State) (c : Nat) : State :=
  (List.range 72).foldl (fun s e => if s.siteIn c e = 0x7f then s else s.takeSlot c e (s.siteIn c e)) s

theorem State.mapsApplied_sites (s : State) (c : Nat) : s.KeepsSites (s.mapsApplied c) c :=
  foldl_keeps (P := fun u : State => s.KeepsSites u c) (fun u e _ ⟨hslots, hsites⟩ => by
    obtain ⟨slots, sites⟩ := u.takeSlot_again c e
    split
    · exact ⟨hslots, hsites⟩
    · exact ⟨fun j => (slots j).trans (hslots j), fun n => (sites n).trans (hsites n)⟩) ⟨fun _ => rfl, fun _ => rfl⟩

theorem State.applyRecords_eq (s : State) (c : Nat) : s.applyRecords c =
    ((((s.mapsApplied c).showRows c).wr .ras (Reg.rasChStat_POOL c) ((s.mapsApplied c).poolCount c)).wr .ras
      (Reg.rasChStat_FAILED c) ((s.mapsApplied c).failedCount c)) := by
  unfold State.applyRecords State.mapsApplied
  rfl

theorem State.poolCount_lt (s : State) (c : Nat) : s.poolCount c < 2 ^ 4 :=
  Nat.lt_of_le_of_lt (List.length_filter_le ..) (by decide)

theorem State.failedCount_lt (s : State) (c : Nat) : s.failedCount c < 2 ^ 8 :=
  Nat.lt_of_le_of_lt (List.length_filter_le ..) (by decide)

/-- RAS_CHn_STAT shows the pool and the failed sites of the channel (R616). -/
theorem State.applyRecords_shows (s : State) (c : Ch) :
    (s.applyRecords c).rd .ras (Reg.rasChStat_POOL c) = s.poolCount c ∧
      (s.applyRecords c).rd .ras (Reg.rasChStat_FAILED c) = s.failedCount c := by
  have hc := c.isLt
  obtain ⟨slots, sites⟩ := s.mapsApplied_sites c
  have hpool : (Reg.rasChStat_POOL c).lo + (Reg.rasChStat_POOL c).w ≤ 32 := show 6 + 4 ≤ 32 by decide
  have hfailed : (Reg.rasChStat_FAILED c).lo + (Reg.rasChStat_FAILED c).w ≤ 32 := show 16 + 8 ≤ 32 by decide
  have off : 0x110 + 4 * c.val < 4096 := by omega
  rw [s.applyRecords_eq, State.poolCount_congr slots, State.failedCount_congr sites]
  refine ⟨?_, ?_⟩
  · rw [State.rd_wr_off _ _ hfailed hpool off off (.inr (.inl (show 6 + 4 ≤ 16 by decide))), State.rd_wr_same _ _ _ hpool]
    exact Nat.mod_eq_of_lt (s.poolCount_lt c)
  · rw [State.rd_wr_same _ _ _ hfailed]
    exact Nat.mod_eq_of_lt (s.failedCount_lt c)

theorem State.setMode_shows (s : State) (c : Ch) (acked : Bool) :
    (s.setMode c acked).rd (.mbx (fgBox c)) Reg.mbxCfg_MODE = bit acked := by
  have h : Page.mbx (fgBox c) ≠ .mbx (gfBox c) := by
    simp only [ne_eq, Page.mbx.injEq, fgBox, gfBox, Fin.ext_iff]
    omega
  rw [State.setMode, State.rd_wr_page _ h, State.rd_wr_same _ _ _ (by decide)]
  cases acked <;> rfl

theorem exec_selftestDone (hp : s.dev.powered = true) (h : s.chState c = chSelftest) (ha : s.arithOn c = true)
    (hf : s.dev.farrierUp = true) (ok : Bool) : exec (.selftestDone c ok) s = .next
      (if ok then ((s.applyRecords c).setMode c true).setChState c chGroomBoot else s.startFails c 6) := by
  rw [exec, execSelftestDone, live_of_powered hp, if_neg (by simp [h, ha, hf])]

theorem selftestPassed (hp : s.dev.powered = true) (h : s.chState c = chSelftest) (ha : s.arithOn c = true)
    (hf : s.dev.farrierUp = true) :
    (∃ t, exec (.selftestDone c true) s = .next t ∧ t.chState c = chGroomBoot ∧
      t.rd .ras (Reg.rasChStat_POOL c) = s.poolCount c ∧ t.rd .ras (Reg.rasChStat_FAILED c) = s.failedCount c ∧
      t.rd (.mbx (fgBox c)) Reg.mbxCfg_MODE = 1) ∧
    (s.rasState c ≠ rasReadmitting →
      ∃ t, exec (.selftestDone c false) s = .next t ∧ t.chState c = chFailed) := by
  obtain ⟨hpool, hfailed⟩ := s.applyRecords_shows c
  refine ⟨⟨_, exec_selftestDone hp h ha hf true, ?_⟩,
    fun hr => ⟨_, exec_selftestDone hp h ha hf false, s.startFails_failed c 6 hr⟩⟩
  rw [if_pos rfl]
  have state (u : State) := (State.setChState_moves .refl c chGroomBoot .refl : Moves ⟨false, _, _⟩ u _)
  have mode (u : State) := (State.setMode_moves .refl c true .refl : Moves ⟨false, _, _⟩ u _)
  refine ⟨State.chState_setChState _ c (by decide), ?_, ?_, ?_⟩
  · rw [(state _).rd_eq (by decide), (mode _).rd_eq (by decide), hpool]
  · rw [(state _).rd_eq (by decide), (mode _).rd_eq (by decide), hfailed]
  · rw [(state _).rd_eq (by simp [pageKind])]
    exact State.setMode_shows _ c true

/-! ## The groom's image -/

theorem State.runGroom_runs (s : State) (c : Ch) : (s.runGroom c).rd (.grm c) Reg.grmStat_RUNNING = 1 := by
  unfold State.runGroom
  extract_lets p v
  rw [State.rd_wr_off _ _ (by decide) (by decide) (by decide) (by decide) (by decide), State.rd_wr_same _ _ _ (by decide)]
  rfl

/-- Blocks that are turned ON show it in EN and STATE alone. -/
theorem State.rd_turnOns (ps : List Page) (s : State) (hw : f.lo + f.w ≤ 32) (ho : f.off < 4096)
    (h : f.off ≠ Reg.blkState_STATE.off ∧ f.off ≠ (enFld p).off) : (ps.foldl State.turnOn s).rd p f = s.rd p f := by
  obtain ⟨hlo, hwe, hoe, -⟩ := enFld_bounds p
  refine foldl_keeps (P := fun u : State => u.rd p f = s.rd p f) (fun u q _ hu => ?_) rfl
  by_cases hq : p = q
  · subst hq
    rw [State.turnOn, State.setBlk, State.rd_wr_off _ _ (by decide) hw (by decide) ho (.inl h.1),
      State.rd_wr_off _ _ (by omega) hw hoe ho (.inl h.2), hu]
  · rw [u.rd_turnOn_page hq, hu]

theorem exec_groomBootAck (hp : s.dev.powered = true) (h : s.chState c = chGroomBoot) (ha : s.arithOn c = true)
    (hf : s.dev.farrierUp = true) (code : BitVec 16) : exec (.groomBootAck c code) s = .next
      (if code = 0 then ((unitPages c).foldl State.turnOn (s.runGroom c)).setChState c chEngineCheck
      else s.startFails c 2) := by
  rw [exec, execGroomBootAck, live_of_powered hp, if_neg (by simp [h, ha, hf])]

theorem hif_not_unit (hp : p ∈ unitPages c) : p ≠ .hif := by
  rintro rfl
  simp [unitPages] at hp

theorem groomBooted (hp : s.dev.powered = true) (h : s.chState c = chGroomBoot) (ha : s.arithOn c = true)
    (hf : s.dev.farrierUp = true) (code : BitVec 16) :
    ∃ t, exec (.groomBootAck c code) s = .next t ∧
      (code = 0 → t.chState c = chEngineCheck ∧ (∀ p ∈ unitPages c, t.blk p = blkOn) ∧
        t.rd (.grm c) Reg.grmStat_RUNNING = 1) ∧
      (code ≠ 0 → s.rasState c ≠ rasReadmitting → t.chState c = chFailed) := by
  refine ⟨_, exec_groomBootAck hp h ha hf code, fun h0 => ?_, fun h0 hr => ?_⟩
  · rw [if_pos h0]
    refine ⟨State.chState_setChState _ c (by decide), fun p hq => ?_, ?_⟩
    · rw [State.blk, State.rd_setChState _ c _ (by decide) (by decide) (.inl (hif_not_unit hq))]
      exact State.blk_turnOns hq _
    · rw [State.rd_setChState _ c _ (by decide) (by decide) (.inl (by simp)),
        State.rd_turnOns _ _ (by decide) (by decide) ⟨by decide, show 0x104 ≠ 0x8 by decide⟩, s.runGroom_runs]
  · rw [if_neg h0]
    exact s.startFails_failed c 2 hr

/-! ## READY -/

/-- The engines of the sound slots are ON. -/
def State.soundOn (s : State) (c : Nat) : State :=
  (s.soundSlots c).foldl (fun s e => s.turnOn (engPage c e)) s

theorem State.soundOn_eq (s : State) (c : Nat) : s.soundOn c = ((s.soundSlots c).map (engPage c)).foldl State.turnOn s := by
  rw [State.soundOn, List.foldl_map]

theorem State.soundOn_chans (s : State) (c : Nat) : (s.soundOn c).chans = s.chans :=
  foldl_keeps (P := fun u : State => u.chans = s.chans) (fun u _ _ h => (u.turnOn_chans _).trans h) rfl

theorem State.rd_soundOn_ras (s : State) (c : Nat) (f : Fld) : (s.soundOn c).rd .ras f = s.rd .ras f :=
  foldl_keeps (P := fun u : State => u.rd .ras f = s.rd .ras f)
    (fun u _ _ h => (u.rd_turnOn_page (by simp [engPage]) f).trans h) rfl

theorem exec_engineCheckDone (hp : s.dev.powered = true) (h : s.chState c = chEngineCheck) (ha : s.arithOn c = true)
    (hf : s.dev.farrierUp = true) (hn : (s.chan c).failing = none) :
    exec (.engineCheckDone c []) s = .next ((s.soundOn c).becomeReady c) := by
  have none_failing : ((s.soundOn c).chan c).failing = none := by rw [State.chan_congr (s.soundOn_chans c), hn]
  rw [exec, execEngineCheckDone, live_of_powered hp, if_neg (by simp [h, ha, hf])]
  have empty : (s.soundSlots c).filter (fun e => ([] : List SlotId).any fun f => f.val = e) = [] := by simp
  dsimp only
  rw [empty, List.foldl_nil, ← State.soundOn, none_failing]

/-- The channel runs, and its field of HIF_READY reads READY. -/
def State.ready (s : State) (c : Ch) : State :=
  ((s.setMode c false).wr .pwr (Reg.pwrChStat_PSTATE c) 0).setChState c chReady

/-- A re-admission ends in service (R609). -/
def State.readmitted (s : State) (c : Ch) : State :=
  if s.rasState c = rasReadmitting then
    ((s.wr .ras (Reg.rasChStat_STATE c) rasInService).bump .ras (Reg.rasChStat_READMITS c)).raise .ras 3
  else s

theorem State.readmitted_moves (s : State) (c : Ch) : Moves ⟨false, [.out, .msix], [.ras]⟩ s (s.readmitted c) :=
  .ite (State.raise_moves (State.bump_moves (State.wr_moves .refl _ _ _ (by decide)) _ _ _ (by decide)) _ _ (by decide)
    (by decide) (by decide)) .refl

theorem State.ready_moves (s : State) (c : Ch) : Moves ⟨false, [.out, .msix], [.hif, .pwr, .mbx]⟩ s (s.ready c) :=
  State.setChState_moves (State.wr_moves (State.setMode_moves .refl c false (by decide)) _ _ _ (by decide)) c _ (by decide)

theorem State.rasState_ready (s : State) (c : Ch) : (s.ready c).rasState c = s.rasState c :=
  (s.ready_moves c).rd_eq (by decide) _

theorem State.becomeReady_eq (s : State) (c : Ch) :
    s.becomeReady c = (((s.ready c).readmitted c).settleOwed (restartOf c) codeOk).startLinks := by
  rw [State.becomeReady, State.readmitted, s.rasState_ready, State.ready]

/-- What a channel that becomes READY shows. -/
theorem State.becomeReady_shows (s : State) (c : Ch) : let t := s.becomeReady c
    t.chState c = chReady ∧ t.pstate c = 0 ∧ (s.rasState c = rasReadmitting → t.rasState c = rasInService) := by
  have hc := c.isLt
  have links (u : State) := (State.startLinks_moves .refl .refl : Moves ⟨false, _, _⟩ u _)
  have settled (u : State) := (State.settleOwed_moves .refl (restartOf c) codeOk .refl : Moves ⟨false, _, _⟩ u _)
  have back (u : State) := u.readmitted_moves c
  rw [s.becomeReady_eq]
  refine ⟨?_, ?_, fun hr => ?_⟩
  · rw [State.chState_startLinks, State.chState_settleOwed, State.chState, (back _).rd_eq (by decide)]
    exact State.chState_setChState _ c (by decide)
  · rw [State.pstate, (links _).rd_eq (by decide), (settled _).rd_eq (by decide), (back _).rd_eq (by decide), State.ready,
      State.rd_setChState _ c _ (show 3 + 2 ≤ 32 by decide) (show 0x104 + 8 * c.val < 4096 by omega) (.inl (by simp)),
      ← State.pstate]
    exact State.pstate_wr _ c (by decide)
  · rw [State.rasState, (links _).rd_eq (by decide), (settled _).rd_eq (by decide), State.readmitted,
      if_pos ((s.rasState_ready c).trans hr),
      State.rd_raise_off _ _ (show 0 + 2 ≤ 32 by decide) (show 0x110 + 4 * c.val < 4096 by omega)
        (show 0x110 + 4 * c.val ≠ 0x10 by omega),
      State.rd_bump_off _ _ (show 24 + 8 ≤ 32 by decide) (show 0 + 2 ≤ 32 by decide)
        (show 0x110 + 4 * c.val < 4096 by omega) (show 0x110 + 4 * c.val < 4096 by omega)
        (.inr (.inl (show 0 + 2 ≤ 24 by decide))),
      State.rd_wr_same _ _ _ (show 0 + 2 ≤ 32 by decide)]
    rfl

theorem enginesChecked (hp : s.dev.powered = true) (h : s.chState c = chEngineCheck) (ha : s.arithOn c = true)
    (hf : s.dev.farrierUp = true) (hn : (s.chan c).failing = none) :
    ∃ t, exec (.engineCheckDone c []) s = .next t ∧ t.chState c = chReady ∧ t.pstate c = 0 ∧
      (∀ e ∈ s.soundSlots c, t.blk (engPage c e) = blkOn) ∧
      (s.rasState c = rasReadmitting → t.rasState c = rasInService) := by
  obtain ⟨hstate, hps, hras⟩ := (s.soundOn c).becomeReady_shows c
  refine ⟨_, exec_engineCheckDone hp h ha hf hn, hstate, hps, fun e he => ?_, fun hr => hras ?_⟩
  · rw [State.blk, (State.becomeReady_moves .refl c .refl : Moves ⟨false, _, _⟩ (s.soundOn c) _).rd_eq
      (by simp [engPage, pageKind]), s.soundOn_eq]
    exact State.blk_turnOns (List.mem_map_of_mem he) s
  · rw [State.rasState, s.rd_soundOn_ras]
    exact hr

theorem startTimedOut (hp : s.dev.powered = true) (h1 : chHbmTrain ≤ s.chState c) (h2 : s.chState c ≤ chEngineCheck)
    (hr : s.rasState c ≠ rasReadmitting) (hf : s.dev.farrierUp = true) :
    ∃ t, exec (.channelReadyTimeout c) s = .next t ∧ t.chState c = chFailed := by
  refine ⟨s.startFails c 0, ?_, s.startFails_failed c 0 hr⟩
  rw [exec, execChannelReadyTimeout, live_of_powered hp]
  dsimp only
  rw [if_pos ⟨h1, h2, hr, hf⟩]

theorem channelStart : Rules.ChannelStart := fun _ _ hp =>
  ⟨hbmTrained hp, selftestPassed hp, fun code h ha hf => groomBooted hp h ha hf code, enginesChecked hp, startTimedOut hp⟩

/-- Settles O55. -/
theorem cardAndChannelStart : Obligations.CardAndChannelStart := ⟨powerOn, perstDeassert, channelStart, channelRetires⟩

end Sys2Proof.Machine
end

section
/-!
## Marks and the batches of the logs (R628 to R632)
-/

namespace Sys2Proof.Machine

variable {s t u : State} {c : Ch} {n dom : Nat} {b : RecBody} {m : Master}

/-! ## Logs -/

theorem State.log_modLog (s : State) (n m : Nat) (f : Log → Log) :
    (s.modLog n f).log m = if m = n then f (s.log n) else s.log m := by
  rw [State.log, State.modLog, Tab.get_set]
  rfl

theorem State.log_congr (h : t.recorder.logs = s.recorder.logs) (n : Nat) : t.log n = s.log n := by
  rw [State.log, h, State.log]

theorem Log.close_filling (l : Log) : l.close.filling = [] := by
  unfold Log.close
  split
  · next h => exact List.isEmpty_iff.mp h
  · split <;> rfl

/-- A log that begins anew with a record (R622, R632). -/
def Log.beginWith (l : Log) (lvl markNo dom : Nat) (b : RecBody) : Log :=
  { l.begin lvl markNo with filling := [{ dom := dom, dseq := 0, body := b }], dseq := Tab.set [] dom 1 }

/-- A record that a new log takes in is its first. -/
theorem Log.begin_append (l : Log) (lvl markNo dom : Nat) {b : RecBody} (hb : recUnits b ≤ 254) :
    (l.begin lvl markNo).append dom b = l.beginWith lvl markNo dom b := by
  have hfill : (l.begin lvl markNo).filling = [] := l.close_filling
  have hfits : (l.begin lvl markNo).fits b = true := by
    rw [Log.fits, hfill]
    simp only [recordsBytes, List.map_nil, List.sum_nil, decide_eq_true_eq]
    omega
  have hlost : (l.begin lvl markNo).lost = 0 := rfl
  have hdseq : (l.begin lvl markNo).dseq = [] := rfl
  unfold Log.append
  simp only [hfits, if_true, hlost, hdseq, hfill, ne_eq, not_true_eq_false, and_false, if_false, List.nil_append,
    List.length_nil, Nat.add_zero]
  rfl

/-- A log that records and loses no batch takes a record in. -/
theorem State.logTo_append (h : (s.log n).recording = true) (hl : ((s.log n).append dom b).lost ≠ (s.log n).lost + 1) :
    s.logTo n dom b = s.modLog n fun _ => (s.log n).append dom b := by
  unfold State.logTo
  dsimp only
  rw [if_pos h, if_neg hl]

/-! ## MARK (R632) -/

/-- A mark of channels begins. -/
def State.marks (s : State) (cs : List Nat) : State :=
  ((s.modRec fun r => { r with marking := cs }).wrap .rpl Reg.rplStat_MARKNO).showMarking

theorem exec_mark (hp : s.dev.powered = true) (hw : s.rplWritable m 0x164 = true) {cs : List Nat}
    (hcs : cs = (List.range 4).filter (fun c => s.isReady c && decide (s.levelOf c ≠ 0))) :
    exec (.mark m) s = .next (if cs.isEmpty || !s.recorder.marking.isEmpty then s else s.marks cs) := by
  subst hcs
  rw [exec, execMark, live_of_powered hp, if_pos hw, State.startMark]
  rfl

theorem State.marks_shows (s : State) (cs : List Nat) :
    (s.marks cs).recorder.marking = cs ∧
      (s.marks cs).rd .rpl Reg.rplStat_MARKNO = (s.rd .rpl Reg.rplStat_MARKNO + 1) % 2 ^ Reg.rplStat_MARKNO.w ∧
      (s.marks cs).chans = s.chans := by
  refine ⟨?_, ?_, ?_⟩
  · rw [State.marks, State.showMarking, State.wr_recorder, State.wrap_recorder, State.modRec_recorder]
  · rw [State.marks, State.showMarking, State.rd_wr_off _ _ (by decide) (by decide) (by decide) (by decide) (by decide),
      State.wrap, State.rd_wr_same _ _ _ (by decide), Nat.mod_mod]
    rfl
  · rw [State.marks, State.showMarking, State.wr_chans, State.wrap, State.wr_chans]
    rfl

/-! ## MARK_DONE (R628, R632, R633) -/

/-- The image of a channel joins the images, in the place of one of the same mark. -/
def State.keepImage (s : State) (c : Ch) : State :=
  s.modRec fun r => { r with
    images := s.markImage c :: r.images.filter fun i => i.chan ≠ c.val || i.markNo ≠ (s.markImage c).markNo }

/-- The log of a channel begins anew, and RPL_STAT shows that it records. -/
def State.recordingBegins (s : State) (c : Ch) (lvl markNo : Nat) : State :=
  ((s.modLog c fun l => l.begin lvl markNo).setRec c true).clearGap c

theorem exec_markDone (hp : s.dev.powered = true) (hm : s.recorder.marking.contains c.val = true)
    (hc : s.contextsMove = false) (hf : s.dev.farrierUp = true) (hg : s.changing c = false)
    (hu : s.sealVa (s.markAccess c) (s.markBytes c) = (u, true)) :
    exec (.markDone c) s = .next ((((u.keepImage c).recordingBegins c (s.levelOf c) (u.rd .rpl Reg.rplStat_MARKNO)).logTo c
      (domArith c) (.mark (u.rd .rpl Reg.rplStat_MARKNO) (s.gait c) (s.stallCrcs c))).leaveMark c) := by
  rw [exec, execMarkDone, live_of_powered hp, if_neg (by simp only [hm, hc, hf, hg]; decide), hu]
  rfl

theorem State.setRec_recorder (s : State) (c : Nat) (on : Bool) : (s.setRec c on).recorder = s.recorder :=
  State.wr_recorder ..
theorem State.clearGap_recorder (s : State) (n : Nat) : (s.clearGap n).recorder = s.recorder := State.wr_recorder ..

theorem State.recordingBegins_log (s : State) (c : Ch) (lvl markNo : Nat) :
    (s.recordingBegins c lvl markNo).log c = (s.log c).begin lvl markNo := by
  have logs : (s.recordingBegins c lvl markNo).recorder.logs = (s.modLog c fun l => l.begin lvl markNo).recorder.logs := by
    rw [State.recordingBegins, State.clearGap_recorder, State.setRec_recorder]
  rw [State.log_congr logs, State.log_modLog, if_pos rfl]

/-- The MARK record is the first of the channel's log. -/
theorem State.markLogged (s : State) (c : Ch) (lvl markNo dom : Nat) {b : RecBody} (hb : recUnits b ≤ 254) :
    (s.recordingBegins c lvl markNo).logTo c dom b = (s.recordingBegins c lvl markNo).modLog c fun _ =>
      (s.log c).beginWith lvl markNo dom b := by
  have hlog := s.recordingBegins_log c lvl markNo
  have happ := (s.log c).begin_append lvl markNo dom hb
  rw [State.logTo_append (by rw [hlog]; rfl) (by rw [hlog, happ]; exact Nat.zero_ne_add_one 0), hlog, happ]

theorem State.leaveMark_shows (s : State) (c : Nat) :
    (s.leaveMark c).recorder = { s.recorder with marking := s.recorder.marking.erase c } ∧
      (s.leaveMark c).chans = s.chans ∧
      (s.recorder.marking.erase c = [] → ((s.leaveMark c).rd .rpl Reg.intRaw_RAW).testBit 0 = true) := by
  unfold State.leaveMark State.showMarking
  extract_lets s1
  have rec1 : s1.recorder = { s.recorder with marking := s.recorder.marking.erase c } := State.wr_recorder ..
  have chans1 : s1.chans = s.chans := State.wr_chans ..
  split
  · exact ⟨(State.raise_recorder ..).trans rec1, (State.raise_chans ..).trans chans1,
      fun _ => State.raise_sets _ _ (by decide)⟩
  · next h =>
    refine ⟨rec1, chans1, fun he => absurd ?_ h⟩
    rw [rec1]
    exact List.isEmpty_iff.mpr he

theorem recUnits_mark (s : State) (c n g : Nat) : recUnits (.mark n g (s.stallCrcs c)) ≤ 254 := by
  simp [recUnits, State.stallCrcs]

theorem markDone (hp : s.dev.powered = true) (hm : s.recorder.marking.contains c.val = true)
    (hc : s.contextsMove = false) (hf : s.dev.farrierUp = true) (hg : s.changing c = false)
    (hu : s.sealVa (s.markAccess c) (s.markBytes c) = (u, true)) :
    ∃ t, exec (.markDone c) s = .next t ∧ u.sameStores t ∧
      t.recorder.images.head? = some (u.markImage c) ∧ (t.log c).recording = true ∧ (t.log c).lvl = s.levelOf c ∧
      (t.log c).filling = [{ dom := domArith c, dseq := 0
                             body := .mark (u.rd .rpl Reg.rplStat_MARKNO) (s.gait c) (s.stallCrcs c) }] ∧
      t.recorder.marking = u.recorder.marking.erase c.val ∧
      (u.recorder.marking.erase c.val = [] → (t.rd .rpl Reg.intRaw_RAW).testBit 0 = true) := by
  refine ⟨_, exec_markDone hp hm hc hf hg hu, ?_⟩
  rw [State.markLogged _ _ _ _ _ (recUnits_mark ..)]
  generalize hv : State.modLog _ _ _ = v
  have chans : v.chans = u.chans := by
    rw [← hv, State.modLog_chans, State.recordingBegins, State.clearGap, State.wr_chans, State.setRec, State.wr_chans]
    rfl
  have images : v.recorder.images.head? = some (u.markImage c) := by
    rw [← hv, State.modLog, State.recordingBegins, State.clearGap_recorder, State.setRec_recorder]
    rfl
  have marking : v.recorder.marking = u.recorder.marking := by
    rw [← hv, State.modLog, State.recordingBegins, State.clearGap_recorder, State.setRec_recorder]
    rfl
  have log : v.log c = ((u.keepImage c).log c).beginWith (s.levelOf c) (u.rd .rpl Reg.rplStat_MARKNO) (domArith c)
      (.mark (u.rd .rpl Reg.rplStat_MARKNO) (s.gait c) (s.stallCrcs c)) := by rw [← hv, State.log_modLog, if_pos rfl]
  obtain ⟨hrec, hchans, hdone⟩ := v.leaveMark_shows c
  have hlog : (v.leaveMark c).log c = v.log c := State.log_congr (by rw [hrec]) c
  rw [hlog, hrec, log]
  rw [marking] at hdone ⊢
  exact ⟨State.sameStores.of_chans (fun _ => ⟨rfl, rfl, rfl⟩) chans.symm hchans, images, rfl, rfl, rfl, rfl, hdone⟩

theorem marks : Rules.Marks := by
  intro s hp
  refine ⟨fun m cs hw hcs => ⟨_, exec_mark hp hw hcs, fun h => ?_, fun h1 h2 => ?_⟩,
    fun c u hm hc hf hg hu => markDone hp hm hc hf hg hu⟩
  · rw [if_pos (by simpa using h)]
  · rw [if_neg (by simp [h1, h2])]
    exact s.marks_shows cs

/-! ## Batches (R629) -/

theorem exec_batchWrite {log : Fin 5} {b : Batch} {rest : List Batch} (hp : s.dev.powered = true)
    (hh : (s.log log).held = b :: rest) (hw : (s.log log).writing = none) (hm : s.mainUp = true) :
    exec (.batchWrite log) s = .next
      (if s.nextTail log = s.rd .rpl (Reg.rplLogPtr_HEAD log) % batchRing (s.rd .rpl (Reg.rplLogBase_LOG2N log)) then s
      else s.modLog log fun l => { l with writing := some b, held := rest }) := by
  rw [exec, execBatchWrite, live_of_powered hp]
  simp only [hh, hw, hm, State.nextTail, Option.isSome_none, Bool.not_true, Bool.or_self, Bool.false_or,
    decide_eq_true_eq]
  rfl

theorem batchWrite {log : Fin 5} {b : Batch} {rest : List Batch} (hp : s.dev.powered = true)
    (hh : (s.log log).held = b :: rest) (hw : (s.log log).writing = none) (hm : s.mainUp = true) :
    (s.nextTail log ≠ s.rd .rpl (Reg.rplLogPtr_HEAD log) % batchRing (s.rd .rpl (Reg.rplLogBase_LOG2N log)) →
      ∃ t, exec (.batchWrite log) s = .next t ∧ (t.log log).writing = some b ∧ (t.log log).held = rest ∧
        t = { s with recorder := t.recorder }) ∧
    (s.nextTail log = s.rd .rpl (Reg.rplLogPtr_HEAD log) % batchRing (s.rd .rpl (Reg.rplLogBase_LOG2N log)) →
      exec (.batchWrite log) s = .next s) := by
  rw [exec_batchWrite hp hh hw hm]
  refine ⟨fun h => ⟨_, rfl, ?_⟩, fun h => by rw [if_pos h]⟩
  rw [if_neg h, State.log_modLog, if_pos rfl]
  exact ⟨rfl, rfl, rfl⟩

theorem batchRing_le (n : Nat) : 0 < batchRing n ∧ batchRing n ≤ 2 ^ 16 :=
  ⟨Nat.two_pow_pos _, Nat.pow_le_pow_right (by decide) (by omega)⟩

theorem State.nextTail_lt (s : State) (log : Fin 5) : s.nextTail log < 2 ^ 16 := by
  obtain ⟨hpos, hle⟩ := batchRing_le (s.rd .rpl (Reg.rplLogBase_LOG2N log))
  exact Nat.lt_of_lt_of_le (Nat.mod_lt _ hpos) hle

theorem exec_batchAccepted {log : Fin 5} {b : Batch} (hp : s.dev.powered = true) (hw : (s.log log).writing = some b)
    (hu : s.writeBatch log b = (u, true)) :
    exec (.batchAccepted log) s = .next (u.batchDone log (s.nextTail log)) := by
  rw [exec, execBatchAccepted, live_of_powered hp, hw]
  dsimp only
  rw [State.acceptBatch, hu, if_pos rfl]

/-- A batch that is done: TAIL moves on, and it is counted. -/
theorem State.batchDone_shows (u : State) (log : Fin 5) {tail : Nat} (ht : tail < 2 ^ 16) :
    let t := u.batchDone log tail
    (t.log log).writing = none ∧ t.rd .rpl (Reg.rplLogPtr_TAIL log) = tail ∧ t.chans = u.chans ∧
      t.rd .rpl Reg.rplCnt_BATCHES = min (u.rd .rpl Reg.rplCnt_BATCHES + 1) (2 ^ Reg.rplCnt_BATCHES.w - 1) := by
  have hl := log.isLt
  have hw : (Reg.rplLogPtr_TAIL log).lo + (Reg.rplLogPtr_TAIL log).w ≤ 32 := show 16 + 16 ≤ 32 by decide
  have ho : (Reg.rplLogPtr_TAIL log).off < 4096 := show 0x108 + 16 * log.val < 4096 by omega
  have apart : 0x16c ≠ 0x108 + 16 * log.val := by omega
  unfold State.batchDone
  refine ⟨?_, ?_, ?_, ?_⟩
  · rw [State.log_congr (t := State.bump _ _ _ _) (s := u.modLog log fun l => { l with writing := none })
      (by rw [State.bump_recorder, State.wr_recorder]), State.log_modLog, if_pos rfl]
  · rw [State.rd_bump_off _ _ (f := Reg.rplCnt_BATCHES) (by decide) hw (by decide) ho (.inl apart.symm),
      State.rd_wr_same _ _ _ hw]
    exact Nat.mod_eq_of_lt ht
  · rw [State.bump, State.wr_chans, State.wr_chans]
    rfl
  · rw [State.rd_bump_same _ _ _ (by decide), State.rd_wr_off _ _ hw (by decide) ho (by decide) (.inl apart)]
    rfl

theorem batches : Rules.Batches := by
  intro log s hp
  refine ⟨fun b rest hh hw hm => batchWrite hp hh hw hm, fun b u hw hu => ?_⟩
  obtain ⟨hwriting, htail, hchans, hcount⟩ := u.batchDone_shows log (s.nextTail_lt log)
  exact ⟨_, exec_batchAccepted hp hw hu, hwriting, htail,
    State.sameStores.of_chans (fun _ => ⟨rfl, rfl, rfl⟩) rfl hchans, hcount⟩

end Sys2Proof.Machine
end

section
/-!
## The end of a replay, and its records (R635 to R641)
-/

namespace Sys2Proof.Machine

variable {s t u : State} {c : Ch} {m : Master}

/-! ## What RPL_STAT shows of a replay -/

/-- RPL_STAT shows the same state and cause of a replay, and interrupts of RPL that are set stay set. -/
structure State.ReplayShown (s t : State) : Prop where
  state : t.replayState = s.replayState
  cause : t.rd .rpl Reg.rplStat_STOPCAUSE = s.rd .rpl Reg.rplStat_STOPCAUSE
  raw : ∀ n, (s.rd .rpl Reg.intRaw_RAW).testBit n = true → (t.rd .rpl Reg.intRaw_RAW).testBit n = true

theorem State.ReplayShown.refl : s.ReplayShown s := ⟨rfl, rfl, fun _ h => h⟩

theorem State.ReplayShown.trans (h1 : s.ReplayShown t) (h2 : t.ReplayShown u) : s.ReplayShown u :=
  ⟨h2.state.trans h1.state, h2.cause.trans h1.cause, fun n h => h2.raw n (h1.raw n h)⟩

theorem State.ReplayShown.ite {b : Prop} [Decidable b] (h1 : s.ReplayShown t) (h2 : s.ReplayShown u) :
    s.ReplayShown (if b then t else u) := by
  split <;> assumption

theorem State.ReplayShown.fold {α : Type} {f : State → α → State} {l : List α}
    (hf : ∀ u : State, ∀ x ∈ l, u.ReplayShown (f u x)) (s : State) : s.ReplayShown (l.foldl f s) :=
  foldl_keeps (P := fun u => s.ReplayShown u) (fun u x hx hu => hu.trans (hf u x hx)) .refl

theorem State.ReplayShown.of_rd (h : ∀ f, t.rd .rpl f = s.rd .rpl f) : s.ReplayShown t :=
  ⟨h _, h _, fun _ hb => by rwa [h]⟩

/-- What moves no word of RPL's page. -/
theorem State.ReplayShown.of_moves {σ : Scope} (h : Moves σ s t) (hk : .rpl ∉ σ.kinds) : s.ReplayShown t :=
  .of_rd (h.rd_eq (q := .rpl) hk)

theorem State.ReplayShown.wr (s : State) {p : Page} (f : Fld) (v : Nat) (h : .rpl ≠ p) : s.ReplayShown (s.wr p f v) :=
  .of_rd fun _ => State.rd_wr_page _ h

theorem State.ReplayShown.raise (s : State) (p : Page) (n : Nat) : s.ReplayShown (s.raise p n) := by
  refine ⟨State.rd_raise_other _ (by decide) (by decide) (.inr (by decide)),
    State.rd_raise_other _ (by decide) (by decide) (.inr (by decide)), fun k hb => ?_⟩
  by_cases h : p = .rpl
  · subst h
    exact State.raise_keeps _ _ _ hb
  · rwa [State.rd_raise_page _ (Ne.symm h)]

/-- A field of RPL_STAT or RPL_CNT that a log changes. -/
theorem State.ReplayShown.wr_rpl (s : State) {f : Fld} (v : Nat) (hw : f.lo + f.w ≤ 32) (ho : f.off < 4096)
    (h0 : f.off ≠ 0x10) (h : f.off ≠ 0x168 ∨ 3 ≤ f.lo ∧ f.lo + f.w ≤ 13) : s.ReplayShown (s.wr .rpl f v) := by
  refine ⟨State.rd_wr_off _ _ hw (by decide) ho (by decide) ?_, State.rd_wr_off _ _ hw (by decide) ho (by decide) ?_,
    fun n hb => ?_⟩
  · exact h.imp Ne.symm fun ⟨h3, _⟩ => .inl h3
  · exact h.imp Ne.symm fun ⟨_, h13⟩ => .inr h13
  · rwa [State.rd_wr_off _ _ hw (by decide) ho (by decide) (.inl h0.symm)]

theorem State.ReplayShown.logTo (s : State) (n d : Nat) (b : RecBody) : s.ReplayShown (s.logTo n d b) := by
  unfold State.logTo
  dsimp only
  have logged : s.ReplayShown (s.modLog n fun _ => (s.log n).append d b) := .of_rd fun f => State.rd_congr rfl .rpl f
  split
  · split
    · exact ((logged.trans (.wr_rpl _ _ (by decide) (by decide) (by decide) (by decide))).trans
        (.wr_rpl _ _ (by decide) (by decide) (by decide) (by decide))).trans (.raise _ _ _)
    · exact logged
  · exact .refl

theorem State.ReplayShown.logOut (s : State) (c k v : Nat) : s.ReplayShown (s.logOut c k v) := .logTo _ _ _ _

/-! ## Faults that go -/

theorem State.ReplayShown.modXlat (s : State) (f : Translation → Translation) : s.ReplayShown (s.modXlat f) :=
  .of_rd fun g => State.rd_congr rfl .rpl g

theorem State.ReplayShown.enterFault (s : State) (f : FaultEntry) : s.ReplayShown (s.enterFault f) := by
  unfold State.enterFault
  split
  · extract_lets id s1 s2
    have shown : s.ReplayShown s2 := by
      refine (State.ReplayShown.modXlat s _).trans (t := s1) ?_
      unfold s2
      split
      · exact ((State.ReplayShown.wr _ _ _ Page.noConfusion).trans (.wr _ _ _ Page.noConfusion)).trans (.raise _ _ _)
      · split
        · exact (State.ReplayShown.wr _ _ _ Page.noConfusion).trans (.raise _ _ _)
        · exact .refl
    split
    · exact shown.trans (.logOut _ _ _ _)
    · exact shown.trans (.logTo _ _ _ _)
  · exact .modXlat s _

theorem State.ReplayShown.freeFault (s : State) (id : Nat) : s.ReplayShown (s.freeFault id) := by
  unfold State.freeFault
  extract_lets left
  have leaves : s.ReplayShown left := .modXlat s _
  split
  · exact (leaves.trans (.modXlat left _)).trans (.enterFault _ _)
  · exact leaves

theorem State.ReplayShown.modCache (s : State) (k : CacheId) (f : Cache → Cache) : s.ReplayShown (s.modCache k f) :=
  .modXlat s _

theorem State.ReplayShown.forgetAccesses (s : State) (p : MemAccess → Bool) : s.ReplayShown (s.forgetAccesses p) :=
  ((State.ReplayShown.fold (fun u k _ => .modCache u k _) s).trans (.modXlat _ _)).trans
    (.fold (fun u f _ => .freeFault u f.id) _)

/-! ## Paths that are lost -/

theorem State.ReplayShown.modChan (s : State) (c : Nat) (f : Channel → Channel) : s.ReplayShown (s.modChan c f) :=
  .of_rd fun g => State.rd_congr rfl .rpl g

theorem State.ReplayShown.modEngine (s : State) (c e : Nat) (f : Engine → Engine) : s.ReplayShown (s.modEngine c e f) :=
  .modChan s c _

theorem State.ReplayShown.sendBreak (s : State) (c e : Nat) (k : EngCmd) (tkind cause : Nat) :
    s.ReplayShown (s.sendBreak c e k tkind cause) := .ite (.modEngine s c e _) .refl

theorem State.ReplayShown.loseTile (s : State) (c e t st : Nat) (cause : Option Nat) :
    s.ReplayShown (s.loseTile c e t st cause) := by
  have ended : s.ReplayShown (s.ecsDone c (s.tile c e t).closing st) :=
    .of_moves (State.ecsDone_moves .refl c _ st .refl) (by decide)
  have freed (u : State) : u.ReplayShown (u.freeTile c e t) := .of_moves (State.freeTile_moves .refl c e t .refl) (by decide)
  unfold State.loseTile
  dsimp only
  split
  · exact (ended.trans (.sendBreak _ c e _ _ _)).trans (freed _)
  · exact ended.trans (freed _)

theorem State.ReplayShown.loseLanded (s : State) (c ctx tag : Nat) : s.ReplayShown (s.loseLanded c ctx tag) := by
  unfold State.loseLanded
  dsimp only
  exact .ite .refl ((((State.ReplayShown.fold (fun u i _ => .modChan u c _) s).trans (.modChan _ c _)).trans
    (.wr _ _ _ Page.noConfusion)).trans (.raise _ _ _))

theorem State.ReplayShown.tilePathLost (s : State) (c e t path : Nat) (sends : EngCmd → Bool) :
    s.ReplayShown (s.tilePathLost c e t path sends) := by
  unfold State.tilePathLost
  dsimp only
  split
  · exact ((State.ReplayShown.loseLanded s c _ _).trans (.loseTile _ c e t _ _)).trans (.logOut _ c _ _)
  · exact (State.ReplayShown.loseTile s c e t _ _).trans (.logOut _ c _ _)
  · exact .refl

/-- The part of a lost link that ends its commands and takes the tile out of its saved share. -/
theorem State.ReplayShown.savedLinkDropped (s : State) (c ctx : Nat) (ks : List EngCmd) (st : Nat) (f : EngShare → EngShare) :
    s.ReplayShown ((s.ecsDone c ks st).modShare c ctx f) :=
  .of_moves (State.modShare_moves (State.ecsDone_moves .refl c ks st (by decide)) c ctx f (by decide) :
    Moves ⟨false, [.chans, .shares], []⟩ s _) (by decide)

theorem State.ReplayShown.savedPathLost (s : State) (c e t : Nat) (x : TileSlot) (path : Nat) (sends : EngCmd → Bool) :
    s.ReplayShown (s.savedPathLost c e t x path sends) := by
  unfold State.savedPathLost
  dsimp only
  split
  · exact (((State.ReplayShown.loseLanded s c _ _).trans (.sendBreak _ c e _ _ _)).trans
      (.savedLinkDropped _ c _ _ _ _)).trans (.logOut _ c _ _)
  · exact (State.ReplayShown.savedLinkDropped s c _ _ _ _).trans (.logOut _ c _ _)
  · exact .refl

theorem State.ReplayShown.pathLost (s : State) (path : Nat) (sends : Nat → EngCmd → Bool) :
    s.ReplayShown (s.pathLost path sends) := by
  unfold State.pathLost
  refine State.ReplayShown.trans (.fold (fun u c _ => ?_) _) (.fold (fun u sh _ => ?_) _)
  · exact .fold (fun u g _ => .fold (fun u t _ => .tilePathLost u c g.1 t path _) _) _
  · exact .fold (fun u g _ => .fold (fun u t _ => .savedPathLost u _ _ _ _ path _) _) _

theorem State.ReplayShown.dropSwitch (s : State) (gone : Moving → Bool) : s.ReplayShown (s.dropSwitch gone) :=
  .fold (fun u c _ => (State.ReplayShown.modChan u c _).trans (.fold (fun v _ _ => .modChan v c _) _)) _

theorem State.ReplayShown.channelPathsLost (s : State) (c : Nat) : s.ReplayShown (s.channelPathsLost c) :=
  (State.ReplayShown.dropSwitch s _).trans (.pathLost _ _ _)

/-! ## The reset of the target -/

theorem rpl_not_channelPages : Page.rpl ∉ channelPages c := by
  simp [channelPages, unitPages, ringPages]

theorem State.rd_resetPages_other (s : State) {p : Page} {ps : List Page} (h : p ∉ ps) (cls : Nat) (f : Fld) :
    (s.resetPages ps cls).rd p f = s.rd p f :=
  foldl_keeps (P := fun u : State => u.rd p f = s.rd p f) (fun u q hq hu => by
    have hne : p ≠ q := fun e => h (e ▸ hq)
    have word (o : Nat) : (u.resetPage q cls).word p o = u.word p o := State.word_resetPage_other u cls o hne
    rw [← hu, State.rd, State.rd]
    simp only [word]) rfl

/-- The reset of a channel leaves what RPL_STAT shows of a replay. -/
theorem State.ReplayShown.resetChannel (s : State) (c : Ch) : s.ReplayShown (s.resetChannel c) := by
  have locks (u : State) (tag : Nat) : u.ReplayShown (u.releaseAll tag) :=
    ⟨u.rd_releaseAll tag .rpl (by decide) (by decide), u.rd_releaseAll tag .rpl (by decide) (by decide),
      fun n hb => by rwa [u.rd_releaseAll tag .rpl (by decide) (by decide)]⟩
  have shares (u : State) (l : List CtxShare) : u.ReplayShown { u with shares := l } := .of_rd fun f => State.rd_congr rfl .rpl f
  have mail (u : State) : u.ReplayShown (u.channelMailReset c) := by
    have sender (v : State) : v.ReplayShown ((v.emptyBox (fgBox c)).resetSender (gfBox c)) :=
      .of_moves (State.resetSender_moves (State.emptyBox_moves .refl _ .refl) _ (by decide)) (by decide)
    exact ((sender u).trans (shares _ _)).trans (.wr _ _ _ Page.noConfusion)
  have pages (u : State) : u.ReplayShown (u.resetPages (channelPages c) clsChannel) :=
    .of_rd (u.rd_resetPages_other rpl_not_channelPages clsChannel)
  have streams (u : State) : u.ReplayShown (u.loseStreams c) := .of_moves (State.loseStreams_moves .refl c .refl) (by decide)
  rw [s.resetChannel_before, State.beforeReset]
  exact (((((((State.ReplayShown.channelPathsLost s c).trans (streams _)).trans (.forgetAccesses _ _)).trans
    (.modCache _ _ _)).trans (.modChan _ c _)).trans (pages _)).trans (locks _ _)).trans (mail _)

/-! ## The end of a replay (R640, R641) -/

/-- STATE and STOPCAUSE, with the interrupt that says so. -/
def State.showReplay (s : State) (state cause n : Nat) : State :=
  ((s.wr .rpl Reg.rplStat_STATE state).wr .rpl Reg.rplStat_STOPCAUSE cause).raise .rpl n

/-- RPL_STAT shows a state and a cause, and the interrupt is set. -/
def ShowsReplay (state cause n : Nat) (t : State) : Prop :=
  t.replayState = state ∧ t.rd .rpl Reg.rplStat_STOPCAUSE = cause ∧ (t.rd .rpl Reg.intRaw_RAW).testBit n = true

theorem ShowsReplay.kept {state cause n : Nat} (h : ShowsReplay state cause n s) (hk : s.ReplayShown t) :
    ShowsReplay state cause n t := by
  obtain ⟨hs, hc, hn⟩ := h
  exact ⟨hk.state.trans hs, hk.cause.trans hc, hk.raw n hn⟩

theorem State.showReplay_shows (s : State) {state cause n : Nat} (hs : state < 8) (hc : cause < 8) (hn : n < 32) :
    ShowsReplay state cause n (s.showReplay state cause n) := by
  unfold State.showReplay
  refine ⟨?_, ?_, State.raise_sets _ _ hn⟩
  · rw [State.replayState, State.rd_raise_off _ _ (by decide) (by decide) (by decide),
      State.rd_wr_off _ _ (by decide) (by decide) (by decide) (by decide) (by decide), State.rd_wr_same _ _ _ (by decide)]
    exact Nat.mod_eq_of_lt hs
  · rw [State.rd_raise_off _ _ (by decide) (by decide) (by decide), State.rd_wr_same _ _ _ (by decide)]
    exact Nat.mod_eq_of_lt hc

/-- A replay that stops with a cause (R639). -/
theorem State.stopReplay_shows (s : State) {cause : Nat} (hc : cause < 8) :
    ShowsReplay rplStopped cause 2 (s.stopReplay cause) := State.showReplay_shows _ (by decide) hc (by decide)

theorem State.stopReplay_sameStores (s : State) (cause : Nat) : s.sameStores (s.stopReplay cause) :=
  (State.stopReplay_moves .refl cause .refl : Moves ⟨false, _, _⟩ s _).sameStores rfl

theorem State.target_lt (s : State) : s.target < 4 := by
  rw [State.target, State.rd_narrow _ _ (by decide)]
  exact bitsOf_lt ..

/-- The target of a replay as a channel. -/
def State.targetCh (s : State) : Ch := ⟨s.target, s.target_lt⟩

theorem State.targetCh_eq (s : State) : (Fin.ofNat 4 s.target : Ch) = s.targetCh :=
  Fin.ext (Nat.mod_eq_of_lt s.target_lt)

/-- What a replay holds for itself goes. -/
def Recorder.forgotten (r : Recorder) : Recorder := { r with
  next := [], resumed := false, decisions := [], completions := [], finished := [], inputs := [], entries := []
  crossings := 0, partial' := [], shadow := [], upsets := [], mismatches := [] }

/-- The replay is DONE, before its target is reset. -/
def State.replayDone (s : State) (cause : Nat) : State := (s.modRec Recorder.forgotten).showReplay rplDone cause 3

theorem State.endReplay_eq (s : State) (cause : Nat) : s.endReplay cause =
    if (s.replayDone cause).isReady s.targetCh then ((s.replayDone cause).resetChannel s.targetCh).startChannel s.targetCh
    else s.replayDone cause := by
  rw [State.endReplay, s.targetCh_eq]
  rfl

theorem State.isReady_replayDone (s : State) (cause c : Nat) : (s.replayDone cause).isReady c = s.isReady c := by
  have moves : Moves ⟨false, [.out, .msix, .recorder], [.rpl]⟩ s (s.replayDone cause) :=
    State.raise_moves (State.wr_moves (State.wr_moves (State.modRec_moves .refl _ (by decide)) _ _ _ (by decide)) _ _ _
      (by decide)) _ _ (by decide) (by decide) (by decide)
  rw [State.isReady, State.isReady, State.chState, moves.rd_eq (by decide)]
  rfl

/-- How a replay ends: DONE with its cause, and its target reset. -/
theorem State.endReplay_shows (s : State) {cause : Nat} (hc : cause < 8) : let t := s.endReplay cause
    ShowsReplay rplDone cause 3 t ∧
      (s.isReady s.target = true → t.chState s.target = chHbmTrain ∧ (t.chan s.target).cmds = []) := by
  have done : ShowsReplay rplDone cause 3 (s.replayDone cause) :=
    State.showReplay_shows _ (by decide) hc (by decide)
  have started (u : State) := u.startChannel_frame s.targetCh
  rw [s.endReplay_eq]
  split
  · refine ⟨(done.kept (.resetChannel _ _)).kept (.of_moves (started _) (by decide)),
      fun _ => ⟨(State.startChannel_starts _ s.targetCh).1, ?_⟩⟩
    have chan := State.chan_congr ((started ((s.replayDone cause).resetChannel s.targetCh)).parts .chans (by decide)) s.target
    rw [chan]
    exact ((s.replayDone cause).chan_resetChannel s.targetCh).1
  · next h =>
    refine ⟨done, fun hr => absurd ?_ h⟩
    rw [s.isReady_replayDone]
    exact hr

theorem exec_rplStop (hp : s.dev.powered = true) (hw : s.rplWritable m 0x164 = true)
    (h : s.replayState = rplReplaying ∨ s.replayState = rplStopped) :
    exec (.rplStop m) s = .next (s.endReplay stopHost) := by
  rw [exec, execRplStop, live_of_powered hp]
  dsimp only
  rw [if_pos (by rw [hw]; rcases h with h | h <;> rw [h] <;> decide)]

theorem rplStop (hp : s.dev.powered = true) (hw : s.rplWritable m 0x164 = true)
    (h : s.replayState = rplReplaying ∨ s.replayState = rplStopped) :
    ∃ t, exec (.rplStop m) s = .next t ∧ t.replayState = rplDone ∧
      t.rd .rpl Reg.rplStat_STOPCAUSE = stopHost ∧ (t.rd .rpl Reg.intRaw_RAW).testBit 3 = true ∧
      (s.isReady s.target = true → t.chState s.target = chHbmTrain ∧ (t.chan s.target).cmds = []) := by
  obtain ⟨⟨hs, hc, hn⟩, hreset⟩ := s.endReplay_shows (show stopHost < 8 by decide)
  exact ⟨_, exec_rplStop hp hw h, hs, hc, hn, hreset⟩

/-- A stopped replay goes on (R640). -/
def State.resumes (s : State) : State :=
  ((s.wr .rpl Reg.rplStat_STATE rplReplaying).wr .rpl Reg.rplStat_STOPCAUSE 0).modRec fun r => { r with resumed := true }

theorem exec_rplResume (hp : s.dev.powered = true) (hw : s.rplWritable m 0x164 = true)
    (h : s.replayState = rplStopped) {cause : Nat} (hc : cause = s.rd .rpl Reg.rplStat_STOPCAUSE) (placed : Bool) :
    exec (.rplResume m placed) s = .next
      (if cause = stopStopat ∨ cause = stopUpset ∨ cause = stopNoData ∧ placed = true then s.resumes else s) := by
  rw [exec, execRplResume, live_of_powered hp]
  dsimp only
  rw [hw, h, ← hc]
  simp [State.resumes, or_assoc]

theorem State.replayState_resumes (s : State) : s.resumes.replayState = rplReplaying := by
  rw [State.replayState, State.resumes, State.rd_modRec,
    State.rd_wr_off _ _ (by decide) (by decide) (by decide) (by decide) (by decide), State.rd_wr_same _ _ _ (by decide)]
  rfl

theorem rplResume (hp : s.dev.powered = true) (hw : s.rplWritable m 0x164 = true)
    (h : s.replayState = rplStopped) {cause : Nat} (hc : cause = s.rd .rpl Reg.rplStat_STOPCAUSE) (placed : Bool) :
    ∃ t, exec (.rplResume m placed) s = .next t ∧
      (cause = stopStopat ∨ cause = stopUpset ∨ cause = stopNoData ∧ placed = true →
        t.replayState = rplReplaying ∧ t.recorder.resumed = true) ∧
      (cause ≠ stopStopat → cause ≠ stopUpset → cause ≠ stopNoData ∨ placed = false → t = s) := by
  refine ⟨_, exec_rplResume hp hw h hc placed, fun hgo => ?_, fun h1 h2 h3 => ?_⟩
  · rw [if_pos hgo]
    exact ⟨s.replayState_resumes, rfl⟩
  · rw [if_neg]
    rintro (he | he | ⟨he, hpl⟩)
    · exact h1 he
    · exact h2 he
    · exact h3.elim (absurd he) fun hf => by simp [hf] at hpl

/-! ## The records of a replay (R637, R639, R640) -/

theorem exec_replayRecord_waits (hp : s.dev.powered = true) {r : LogRecord}
    (h : s.replayOn s.target = false ∨ s.isNext r = false ∨ s.recordPlaced (recUnits r.body) = false) :
    exec (.replayRecord r) s = .next s := by
  rw [exec, execReplayRecord, live_of_powered hp]
  dsimp only
  rw [if_pos]
  rcases h with h | h | h <;> simp [h]

/-- A record that has been read runs, or the replay stops before it. -/
def State.readRecord (s : State) (r : LogRecord) : State :=
  if s.stopsAt r then s.stopReplay stopStopat
  else if (s.runRecord r.body).2 then (s.runRecord r.body).1.passed r else (s.runRecord r.body).1

theorem exec_replayRecord (hp : s.dev.powered = true) {r : LogRecord} {ps : List (Target × Nat × Nat)}
    (hon : s.replayOn s.target = true) (hn : s.isNext r = true) (hpl : s.recordPlaced (recUnits r.body) = true)
    (hu : s.reachAll (s.recordAccess (recUnits r.body)) (16 * recUnits r.body) = (u, some ps)) :
    exec (.replayRecord r) s = .next (u.readRecord r) := by
  rw [exec, execReplayRecord, live_of_powered hp]
  dsimp only
  rw [if_neg (by simp [hon, hn, hpl]), hu]
  dsimp only
  unfold State.readRecord
  split
  · rfl
  · split
    · next h => rw [h, if_pos rfl]
    · next h => rw [h, if_neg Bool.false_ne_true]

theorem State.readRecord_runs {r : LogRecord} (h : s.stopsAt r = false) (hr : s.runRecord r.body = (t, true)) :
    s.readRecord r = t.passed r := by
  rw [State.readRecord, if_neg (by simp [h]), hr, if_pos rfl]

theorem State.readRecord_waits {r : LogRecord} (h : s.stopsAt r = false) (hr : s.runRecord r.body = (t, false)) :
    s.readRecord r = t := by
  rw [State.readRecord, if_neg (by simp [h]), hr, if_neg (by simp)]

/-- The recorder after a record that counts and has been passed. -/
theorem State.passed_recorder (s : State) {r : LogRecord} (hk : (∃ k v, r.body = .dec k v) ∨
    ∃ k d f crc payload, r.body = .inData k d true f crc payload) : (s.passed r).recorder =
      { s.recorder with
        used := (s.recordPlace (recUnits r.body)).2 + 16 * recUnits r.body, resumed := false
        next := Tab.set s.recorder.next r.dom ((r.dseq + 1) % 2 ^ 32) } := by
  obtain ⟨k, v, h⟩ | ⟨k, d, f, crc, payload, h⟩ := hk
  · simp only [State.passed, h, State.modRec_recorder, State.wr_recorder, if_true]
  · simp only [State.passed, h, State.modRec_recorder, State.wr_recorder, if_true]

theorem State.passed_chans (s : State) (r : LogRecord) : (s.passed r).chans = s.chans := by
  unfold State.passed
  dsimp only
  rw [State.modRec_chans, State.wr_chans]

/-- A decision waits for the choice that takes it. -/
theorem decisionRead {r : LogRecord} (hs : u.stopsAt r = false) {k v : Nat} (hb : r.body = .dec k v) (h8 : k ≠ 0x08)
    (hbk : k ≠ 0x0b) : (u.readRecord r).recorder.decisions = u.recorder.decisions ++ [(k, u.shiftDec k v)] ∧
      (∀ d, Tab.get d (u.readRecord r).recorder.next r.dom = (r.dseq + 1) % 2 ^ 32) ∧
      (u.readRecord r).recorder.resumed = false ∧ (u.readRecord r).chans = u.chans := by
  have runs : u.runRecord r.body = (u.modRec fun x => { x with decisions := x.decisions ++ [(k, u.shiftDec k v)] }, true) := by
    rw [hb, State.runRecord, State.runDec, if_neg h8, if_neg hbk]
  rw [State.readRecord_runs hs runs, State.passed_recorder _ (.inl ⟨k, v, hb⟩), State.passed_chans]
  refine ⟨rfl, fun d => ?_, rfl, rfl⟩
  rw [Tab.get_set, if_pos rfl]

/-- An input waits for its consumer. -/
theorem inputRead {r : LogRecord} (hs : u.stopsAt r = false) {crc : Nat} {payload : List Byte}
    (hb : r.body = .inData 0x1 true true 0 crc payload) : (u.readRecord r).recorder.inputs = u.recorder.inputs ++
        [{ crc := if crc = 0 then none else some crc, data := some (u.recorder.partial' ++ payload) }] ∧
      (u.readRecord r).recorder.partial' = [] ∧ (u.readRecord r).chans = u.chans := by
  have runs : u.runRecord r.body = ((u.modRec fun x => { x with inputs := x.inputs ++
      [{ crc := if crc = 0 then none else some crc, data := some (u.recorder.partial' ++ payload) }] }).modRec
        fun x => { x with partial' := [] }, true) := by
    rw [hb, State.runRecord, State.runFragment]
    rfl
  rw [State.readRecord_runs hs runs, State.passed_recorder _ (.inr ⟨_, _, _, _, _, hb⟩), State.passed_chans]
  exact ⟨rfl, rfl, rfl⟩

theorem replayRecords : Rules.ReplayRecords := by
  intro r s hp
  refine ⟨exec_replayRecord_waits hp, fun u ps hon hn hpl hu => ⟨_, exec_replayRecord hp hon hn hpl hu, fun hs => ?_,
    fun hs => ⟨fun k v hb h8 hbk => decisionRead hs hb h8 hbk, fun crc payload hb => inputRead hs hb, fun n hb hres => ?_,
      fun hb => ?_⟩⟩⟩
  · obtain ⟨hstate, hcause, -⟩ := u.stopReplay_shows (show stopStopat < 8 by decide)
    rw [State.readRecord, if_pos hs]
    exact ⟨hstate, hcause, u.stopReplay_sameStores _⟩
  · obtain ⟨hstate, hcause, -⟩ := u.stopReplay_shows (show stopNoData < 8 by decide)
    rw [State.readRecord_waits hs (t := u.stopReplay stopNoData) (by rw [hb, State.runRecord, if_neg (by simp [hres])])]
    exact ⟨hstate, hcause⟩
  · obtain ⟨⟨hstate, hcause, hraw⟩, -⟩ := u.endReplay_shows (show stopEnd < 8 by decide)
    rw [State.readRecord_waits hs (t := u.endReplay stopEnd) (by rw [hb, State.runRecord])]
    exact ⟨hstate, hcause, hraw⟩

end Sys2Proof.Machine
end

section
/-!
## The load of a replay (R633, R635)
-/

namespace Sys2Proof.Machine

variable {s t u : State} {c n : Nat} {m : Master}

/-! ## The state map of a target whose next decision is not there yet (R637) -/

/-- A replay's target waits: no recorded decision is there for a choice to take. -/
structure State.Awaits (s : State) (c : Nat) : Prop where
  on : s.replayOn c = true
  undecided : s.recorder.decisions = []

/-- A step that leaves the registers and the recorder. -/
structure State.Quiet (s t : State) : Prop where
  regs : t.regs = s.regs
  recorder : t.recorder = s.recorder

theorem State.Quiet.refl : s.Quiet s := ⟨rfl, rfl⟩

theorem State.Quiet.trans (h1 : s.Quiet t) (h2 : t.Quiet u) : s.Quiet u :=
  ⟨h2.regs.trans h1.regs, h2.recorder.trans h1.recorder⟩

theorem State.Quiet.fold {α : Type} {f : State → α → State} {l : List α} (hf : ∀ u : State, ∀ x ∈ l, u.Quiet (f u x))
    (s : State) : s.Quiet (l.foldl f s) :=
  foldl_keeps (P := fun u => s.Quiet u) (fun u x hx hu => hu.trans (hf u x hx)) .refl

theorem State.Quiet.modChan (s : State) (c : Nat) (f : Channel → Channel) : s.Quiet (s.modChan c f) := ⟨rfl, rfl⟩

theorem State.Awaits.quiet (h : s.Awaits c) (hq : s.Quiet t) : t.Awaits c := by
  refine ⟨?_, by rw [hq.recorder, h.undecided]⟩
  have hrd (f : Fld) : t.rd .rpl f = s.rd .rpl f := State.rd_congr hq.regs _ _
  rw [State.replayOn, State.replayState, State.target, hrd, hrd]
  exact h.on

theorem State.Awaits.forced (h : s.Awaits c) (kind : Nat) : s.forced c kind = none := by
  rw [State.forced, if_pos h.on, h.undecided]

theorem State.Awaits.early (h : s.Awaits c) (kind value : Nat) : s.early c kind value = true := by
  rw [State.early, h.on, h.forced]
  rfl

/-- No entry of the paddock leaves it. -/
theorem State.Awaits.releaseEntries (h : s.Awaits c) : s.releaseEntries c = s := by
  have stays (e : Nat × Paddocked) : s.releaseEntry c e = s := by
    unfold State.releaseEntry
    dsimp only
    rw [h.early, Bool.or_true, if_pos rfl]
  exact foldl_keeps (P := fun u : State => u = s) (fun u e _ hu => by rw [hu, stays]) rfl

/-- No page gives up its frame. -/
theorem State.Awaits.makeFrames (h : s.Awaits c) (need : Nat) (k : EngCmd) : ∀ fuel, s.makeFrames c need k fuel = s
  | 0 => rfl
  | fuel + 1 => by
    rw [State.makeFrames]
    dsimp only
    split
    · rfl
    · rw [if_pos h.on, h.forced]
      rfl

theorem State.startPage_quiet (s : State) (c n : Nat) (acc : List Nat) (i : Nat) : s.Quiet (s.startPage c n acc i).1 := by
  unfold State.startPage
  extract_lets x p away f1 rest s1
  have first : s.Quiet s1 := by
    unfold s1
    split
    · exact .modChan s c _
    · exact .refl
  split
  · exact first.trans ⟨rfl, rfl⟩
  · exact first

theorem State.Awaits.serve (h : s.Awaits c) (k : EngCmd) : s.Quiet (s.serve c k).1 := by
  unfold State.serve
  dsimp only
  rw [h.makeFrames]
  split
  · exact .refl
  · exact foldl_keeps (P := fun acc : State × List Nat => s.Quiet acc.1)
      (fun acc i _ hacc => hacc.trans (acc.1.startPage_quiet c _ acc.2 i)) .refl

theorem State.Awaits.serveAll : ∀ (ks : List EngCmd) {s : State}, s.Awaits c → s.Quiet (State.serveAll c ks s)
  | [], _, _ => .refl
  | k :: ks, s, h => by
    rw [State.serveAll]
    split
    · exact State.Awaits.serveAll ks h
    · have served := h.serve k
      split
      · next s1 he =>
        rw [he] at served
        exact served.trans (State.Awaits.serveAll ks (h.quiet served))
      · next s1 he =>
        rw [he] at served
        exact served

theorem State.recall_quiet (s : State) (c : Nat) (k : EngCmd) : s.Quiet (s.recall c k) :=
  .fold (fun u i _ => by
    dsimp only
    split
    · exact .modChan u c _
    · exact .refl) s

theorem State.startCopies_quiet (s : State) (c : Nat) : s.Quiet (s.startCopies c) :=
  .fold (fun u f _ => by
    dsimp only
    split
    · exact .modChan u c _
    · exact .refl) s

/-- The state map of a target that waits changes neither a register nor the recorder. -/
theorem State.Awaits.stateMap (h : s.Awaits c) : s.Quiet (s.stateMap c) := by
  unfold State.stateMap
  rw [h.releaseEntries]
  dsimp only
  have recalled : s.Quiet ((s.wanting c).foldl (fun s k => s.recall c k) s) := .fold (fun u k _ => u.recall_quiet c k) s
  have served := recalled.trans (State.Awaits.serveAll (s.wanting c) (h.quiet recalled))
  have copied := served.trans (State.startCopies_quiet _ c)
  rw [(h.quiet copied).releaseEntries]
  exact copied

end Sys2Proof.Machine
end

section
/-!
## REPLAY loads the image of a mark (R633 to R635)
-/

namespace Sys2Proof.Machine

variable {s t u : State} {c : Nat} {m : Master} {β : Type}

/-! ## What the load leaves of the channels -/

/-- The commands of a channel. -/
abbrev State.KeepsCmds (s t : State) : Prop := s.Keeps Channel.cmds t

theorem State.modEngine_cmds (s : State) (c e : Nat) (f : Engine → Engine) : s.KeepsCmds (s.modEngine c e f) :=
  s.modChan_keeps c

theorem State.startRebuild_cmds (s : State) (c e n uid : Nat) (d : Group) : s.KeepsCmds (s.startRebuild c e n uid d) := by
  unfold State.startRebuild
  refine State.Keeps.trans (.of_chans ?_) (State.modEngine_cmds _ c e _)
  exact ((State.bumpAll_moves (State.showBank_moves .refl c _ n d 0 1 0 .refl) c _ _ .refl :
    Moves ⟨false, _, _⟩ s _)).parts .chans (by decide)

theorem State.bindTo_cmds (s : State) (c e n uid : Nat) : s.KeepsCmds (s.bindTo c e n uid) :=
  (s.modEngine_cmds c e _).trans (State.wrAll_keeps ..)

theorem State.bindBank_cmds (s : State) (c e uid : Nat) (d : Group) : s.KeepsCmds (s.bindBank c e uid d) := by
  unfold State.bindBank
  exact .ite (s.bindTo_cmds c e 0 uid) (.ite (s.bindTo_cmds c e 1 uid)
    (.ite ((s.startRebuild_cmds c e _ uid d).trans (State.bindTo_cmds _ c e _ uid)) (s.modEngine_cmds c e _)))

theorem State.rebind_cmds (s : State) (c e : Nat) (mine : List Nat) (r : EngRun) : s.KeepsCmds (s.rebind c e mine r) := by
  unfold State.rebind
  split
  · exact .ite (s.bindTo_cmds c e _ _) (s.bindBank_cmds c e _ _)
  · exact s.bindBank_cmds c e _ _
  · exact .refl
  · exact .refl

theorem State.putBank_cmds (s : State) (c e : Nat) (b : SavedBank) : s.KeepsCmds (s.putBank c e b) :=
  .ite (.trans (.of_chans
    ((State.showBank_moves .refl c [e] _ _ _ _ _ .refl : Moves ⟨false, _, _⟩ s _).parts .chans (by decide))) (State.modEngine_cmds _ c e _)) .refl

theorem State.putRegs_cmds (s : State) (c : Nat) (sh : EngShare) (alone : Bool) : s.KeepsCmds (s.putRegs c sh alone) := by
  have shown (u : State) (f g : Fld) (v w : Nat) (p : Page) : u.KeepsCmds ((u.wr p f v).wr p g w) :=
    .of_chans (by rw [State.wr_chans, State.wr_chans])
  exact .ite ((s.modEngine_cmds c sh.slot _).trans (shown _ _ _ _ _ _)) .refl

/-- An engine takes its part back beside the channel's commands. -/
theorem State.putEngine_cmds (s : State) (c : Nat) (sh : EngShare) : s.KeepsCmds (s.putEngine c sh) := by
  have seals (u : State) (e ctx : Nat) (slot : Nat → Nat) : u.KeepsCmds (u.moveSeals c e ctx slot) :=
    .of_chans ((State.moveSeals_moves .refl c e ctx slot .refl : Moves ⟨false, _, _⟩ u _).parts .chans (by decide))
  have held (u : State) (l : List (Nat × EngCmd)) :
      u.KeepsCmds (u.modChan c fun x => { x with lodgerHeld := x.lodgerHeld ++ l }) := u.modChan_keeps c
  unfold State.putEngine
  extract_lets e g map slot ctxs runs count alone free s1 s2 s3 s4
  have k1 : s.KeepsCmds s1 := s.modEngine_cmds c e _
  have k2 : s1.KeepsCmds s2 := held s1 _
  have k3 : s2.KeepsCmds s3 := (s2.putRegs_cmds c sh alone).fold fun u n _ => seals u e n slot
  have k4 : s3.KeepsCmds s4 := State.Keeps.refl.fold fun u b _ => u.putBank_cmds c e b
  have bound := ((k1.trans k2).trans k3).trans k4
  exact (bound.fold fun u r _ => u.rebind_cmds c e free r).trans (State.modEngine_cmds _ c e _)

theorem State.loadShare_cmds (s : State) (c : Nat) (i : MarkImage) (sh : CtxShare) : s.KeepsCmds (s.loadShare c i sh) := by
  have pads (ps : List Paddocked) : s.KeepsCmds (s.padsBack c ps) := by
    unfold State.padsBack
    exact s.modChan_keeps c
  unfold State.loadShare
  dsimp only
  split
  · exact ((pads _).fold fun u g _ => u.putEngine_cmds c g).trans (State.modChan_keeps _ c)
  · exact .of_chans rfl

/-- The rings come up beside everything else of the channels. -/
theorem State.loadRings_keeps {view : Channel → β} (hv : ∀ x rs, view { x with rings := rs } = view x) (s : State) (c : Nat)
    (i : MarkImage) : s.Keeps view (s.loadRings c i) := by
  refine State.Keeps.refl.fold fun u q _ => ?_
  have ring (v : State) (f : Ring → Ring) : v.Keeps view (v.modRing c q.1 f) := v.modChan_keeps c fun x => hv x _
  refine State.Keeps.trans (State.Keeps.refl.fold fun v w _ => ?_) ((State.Keeps.of_chans (State.wr_chans ..)).trans (ring _ _))
  split
  · exact .of_chans rfl
  · exact .of_chans rfl

/-- The contexts of the image that were resident. -/
def MarkImage.homes (i : MarkImage) : List Nat := (i.ctxs.filter fun r => r.2.state = ctxResident).map (·.1)

/-- The image is loaded, before the records run (R635). -/
def State.tablesLoaded (s : State) (c : Nat) (i : MarkImage) : State :=
  ((i.shares.foldl (fun s sh => s.loadShare c i sh) (i.homes.foldl (fun s n => s.reside (s.shiftCtx n))
    ((s.loadChannel c i).loadRings c i))).loadStreams i).loadGait c i.gait

/-- Where the records of a replay begin: behind MARK. -/
def State.replayRecorder (s : State) (c : Nat) (r : Recorder) : Recorder := { r with
  next := [(domArith (s.rd .rpl Reg.rplRpCfg_SRC), 1)], resumed := false, forcing := false, decisions := []
  completions := [], finished := [], inputs := [], entries := [], used := 32 + 16 * recUnits (.mark 0 0 (List.range 16))
  crossings := 0, partial' := [], shadow := s.shadowOf c, upsets := [], mismatches := [], discarded := 0 }

/-- The replay runs from its first record on. -/
def State.replayBegins (s before : State) (c : Nat) : State :=
  ((s.modRec (before.replayRecorder c)).wr .rpl Reg.rplStat_STATE rplReplaying).wr .rpl Reg.rplStat_STOPCAUSE 0

theorem State.loadImage_eq (s : State) (c : Nat) (i : MarkImage) :
    s.loadImage c i = (((s.tablesLoaded c i).replayBegins s c).stateMap c) := rfl

theorem State.reside_chans (s : State) (n : Nat) : (s.reside n).chans = s.chans :=
  (State.reside_moves .refl n .refl : Moves ⟨false, _, _⟩ s _).parts .chans (by decide)

theorem State.loadTail_chans (s : State) (i : MarkImage) : ((s.loadStreams i).loadGait c i.gait).chans = s.chans :=
  Eq.trans ((State.loadGait_moves .refl c i.gait .refl : Moves ⟨false, _, _⟩ (s.loadStreams i) _).parts .chans (by decide))
    ((State.loadStreams_moves .refl i .refl : Moves ⟨false, _, _⟩ s _).parts .chans (by decide))

/-- After the channel's own tables, the load leaves the commands. -/
theorem State.tablesLoaded_cmds (s : State) (c : Nat) (i : MarkImage) :
    (s.loadChannel c i).KeepsCmds (s.tablesLoaded c i) := by
  have rings := State.loadRings_keeps (view := Channel.cmds) (fun _ _ => rfl) (s.loadChannel c i) c i
  have homes := rings.fold (f := fun s n => s.reside (s.shiftCtx n)) (l := i.homes) fun u n _ => .of_chans (u.reside_chans _)
  exact (homes.fold fun u sh _ => u.loadShare_cmds c i sh).trans (.of_chans (State.loadTail_chans ..))

theorem State.replayBegins_chans (s before : State) (c : Nat) : (s.replayBegins before c).chans = s.chans := by
  rw [State.replayBegins, State.wr_chans, State.wr_chans, State.modRec_chans]

theorem State.loadImage_cmds (s : State) (c : Nat) (i : MarkImage) :
    ((s.loadImage c i).chan c).cmds = i.cmds.map s.shiftHost := by
  obtain ⟨hmap, -, -⟩ := Channel.workView_eq ((State.stateMap_work ((s.tablesLoaded c i).replayBegins s c) c).same c)
  rw [s.loadImage_eq, hmap, State.chan_congr (State.replayBegins_chans ..), (s.tablesLoaded_cmds c i).same c,
    State.loadChannel, State.chan_modChan, if_pos rfl]

/-- The load leaves every byte of the stores. -/
theorem State.loadImage_sameStores (s : State) (c : Nat) (i : MarkImage) : s.sameStores (s.loadImage c i) := by
  have keeps {v w : State} (h : v.Keeps (fun x => (x.stall, x.ast, x.hbm)) w) : v.sameStores w := fun d => by
    simpa only [Channel.sameStores, Prod.mk.injEq] using h.same d
  have own : s.sameStores ((s.loadChannel c i).loadRings c i) :=
    keeps (State.Keeps.trans (s.modChan_keeps c) (State.loadRings_keeps (fun _ _ => rfl) _ c i))
  have rest (v : State) (l : List Nat) (shs : List CtxShare) :
      v.sameStores ((shs.foldl (fun s sh => s.loadShare c i sh) (l.foldl (fun s n => s.reside (s.shiftCtx n)) v))) :=
    (Moves.fold (.fold .refl fun u n h => State.reside_moves h _ (by decide)) fun u sh h =>
      State.loadShare_moves h c i sh (by decide) :
      Moves ⟨false, [.xlat, .ctxs, .ctxSlots, .shares, .chans], [.eng, .ctx]⟩ v _).sameStores rfl
  have tail (v : State) : v.sameStores ((v.loadStreams i).loadGait c i.gait) :=
    State.sameStores.of_chans (fun _ => ⟨rfl, rfl, rfl⟩) rfl (State.loadTail_chans v i)
  have begun (v : State) : v.sameStores (v.replayBegins s c) :=
    State.sameStores.of_chans (fun _ => ⟨rfl, rfl, rfl⟩) rfl (v.replayBegins_chans s c)
  have mapped (v : State) : v.sameStores (v.stateMap c) :=
    (State.stateMap_moves .refl c .refl : Moves ⟨false, _, _⟩ v _).sameStores rfl
  rw [s.loadImage_eq, State.tablesLoaded]
  exact (((own.trans (rest _ i.homes i.shares)).trans (tail _)).trans (begun _)).trans (mapped _)

/-! ## What the load shows -/

/-- The load leaves RPL's page until the replay begins. -/
theorem State.rd_tablesLoaded (s : State) (c : Nat) (i : MarkImage) (f : Fld) :
    (s.tablesLoaded c i).rd .rpl f = s.rd .rpl f := by
  have rings (v : State) := (State.loadRings_moves .refl c i .refl : Moves ⟨true, _, _⟩ v _)
  have rest (v : State) (l : List Nat) (shs : List CtxShare) : Moves
      ⟨false, [.xlat, .ctxs, .ctxSlots, .shares, .chans], [.eng, .ctx]⟩ v
      (shs.foldl (fun s sh => s.loadShare c i sh) (l.foldl (fun s n => s.reside (s.shiftCtx n)) v)) :=
    .fold (.fold .refl fun u n h => State.reside_moves h _ (by decide)) fun u sh h =>
      State.loadShare_moves h c i sh (by decide)
  have tail (v : State) : Moves ⟨false, [.dlm, .streams], [.pwr, .clk]⟩ v ((v.loadStreams i).loadGait c i.gait) :=
    State.loadGait_moves (State.loadStreams_moves .refl i (by decide)) c i.gait (by decide)
  rw [State.tablesLoaded, (tail _).rd_eq (by decide), (rest _ i.homes i.shares).rd_eq (by decide), (rings _).rd_eq (by decide)]
  exact State.rd_congr rfl _ _

theorem State.gait_tablesLoaded (s : State) (d : Ch) (i : MarkImage) : (s.tablesLoaded d i).gait d = i.gait % 4 := by
  have hd := d.isLt
  rw [State.gait, State.tablesLoaded, State.loadGait, State.rd_wr_page _ (by decide),
    State.rd_wr_same _ _ _ (show 0 + 2 ≤ 32 by decide)]
  rfl

theorem State.replayBegins_shows (s before : State) (c : Nat) :
    (s.replayBegins before c).replayState = rplReplaying ∧ (s.replayBegins before c).target = s.target ∧
      (s.replayBegins before c).recorder.decisions = [] := by
  unfold State.replayBegins
  refine ⟨?_, ?_, ?_⟩
  · rw [State.replayState, State.rd_wr_off _ _ (by decide) (by decide) (by decide) (by decide) (by decide),
      State.rd_wr_same _ _ _ (by decide)]
    rfl
  · rw [State.target, State.rd_wr_off _ _ (by decide) (by decide) (by decide) (by decide) (by decide),
      State.rd_wr_off _ _ (by decide) (by decide) (by decide) (by decide) (by decide), State.rd_modRec, State.target]
  · rw [State.wr_recorder, State.wr_recorder]
    rfl

/-- A loaded replay is REPLAYING at the recorded gait. -/
theorem State.loadImage_shows (s : State) (i : MarkImage) : let t := s.loadImage s.target i
    t.replayState = rplReplaying ∧ t.gait s.target = i.gait % 4 := by
  obtain ⟨hstate, htarget, hdec⟩ := (s.tablesLoaded s.target i).replayBegins_shows s s.target
  have target : (s.tablesLoaded s.target i).target = s.target := by
    rw [State.target, s.rd_tablesLoaded, State.target]
  have awaits : ((s.tablesLoaded s.target i).replayBegins s s.target).Awaits s.target :=
    ⟨by rw [State.replayOn, hstate, htarget, target]; simp, hdec⟩
  have shown (p : Page) (f : Fld) : (s.loadImage s.target i).rd p f =
      ((s.tablesLoaded s.target i).replayBegins s s.target).rd p f := by
    rw [s.loadImage_eq]
    exact State.rd_congr awaits.stateMap.regs p f
  refine ⟨(shown _ _).trans hstate, (shown _ _).trans ?_⟩
  rw [State.replayBegins, State.rd_wr_page _ (by decide), State.rd_wr_page _ (by decide), State.rd_modRec]
  exact s.gait_tablesLoaded s.targetCh i

/-! ## REPLAY (R635) -/

/-- The image under the mark number is the one that the replay is to load. -/
def State.imageOf (s : State) (markNo : BitVec 16) : Option MarkImage :=
  s.recorder.images.find? fun i => i.chan = s.rd .rpl Reg.rplRpCfg_SRC && i.markNo = markNo.toNat

/-- What stands against the load of an image. -/
def State.setupBlocked (s : State) (crcs : List Word) (i : MarkImage) : Bool :=
  !s.isReady s.target || i.key ≠ s.dev.sealKey || s.stallCrcs s.target ≠ crcs.map BitVec.toNat
    || ((List.range 8).filter fun j => s.slotState j = slotFree && !s.isRelief j).length <
      (i.ctxs.filter fun r => r.2.state = ctxResident).length

theorem exec_replay (hp : s.dev.powered = true) (hw : s.rplWritable m 0x164 = true)
    (h : s.replayState = rplIdle ∨ s.replayState = rplDone) (markNo : BitVec 16) (crcs : List Word) :
    exec (.replay m markNo crcs) s = .next (match s.imageOf markNo with
      | none => s.setupFails
      | some i => if s.setupBlocked crcs i then s.setupFails else s.loadImage s.target i) := by
  rw [exec, execReplay, live_of_powered hp]
  dsimp only
  rw [if_neg (by rw [hw]; rcases h with h | h <;> rw [h] <;> decide)]
  rfl

/-- The image of another key, or none, is not loaded. -/
theorem State.setupBlocked_of_key {markNo : BitVec 16} {i : MarkImage} (crcs : List Word) (hi : s.imageOf markNo = some i)
    (h : ∀ i ∈ s.recorder.images, ¬ (i.chan = s.rd .rpl Reg.rplRpCfg_SRC ∧ i.markNo = markNo.toNat ∧
      i.key = s.dev.sealKey)) : s.setupBlocked crcs i = true := by
  have found := List.find?_some hi
  simp only [Bool.and_eq_true, decide_eq_true_eq] at found
  obtain ⟨hchan, hmark⟩ := found
  have hne : i.key ≠ s.dev.sealKey := fun hk => h i (List.mem_of_find?_eq_some hi) ⟨hchan, hmark, hk⟩
  simp [State.setupBlocked, hne]

theorem replayStarts (hp : s.dev.powered = true) (hw : s.rplWritable m 0x164 = true) (markNo : BitVec 16)
    (crcs : List Word) (h : s.replayState = rplIdle ∨ s.replayState = rplDone) :
    ∃ t, exec (.replay m markNo crcs) s = .next t ∧ s.sameStores t ∧
      (∀ i, s.imageOf markNo = some i → s.isReady s.target = true → i.key = s.dev.sealKey →
        s.stallCrcs s.target = crcs.map BitVec.toNat → (i.ctxs.filter fun r => r.2.state = ctxResident) = [] →
        t.replayState = rplReplaying ∧ t.gait s.target = i.gait % 4 ∧ (t.chan s.target).cmds = i.cmds.map s.shiftHost) ∧
      ((∀ i ∈ s.recorder.images, ¬ (i.chan = s.rd .rpl Reg.rplRpCfg_SRC ∧ i.markNo = markNo.toNat ∧
          i.key = s.dev.sealKey)) ∨ s.isReady s.target = false ∨ s.stallCrcs s.target ≠ crcs.map BitVec.toNat →
        t.replayState = rplStopped ∧ t.rd .rpl Reg.rplStat_STOPCAUSE = stopSetup ∧
          (t.rd .rpl Reg.intRaw_RAW).testBit 2 = true) := by
  have fails : ShowsReplay rplStopped stopSetup 2 s.setupFails := s.stopReplay_shows (by decide)
  have failStores : s.sameStores s.setupFails := s.stopReplay_sameStores stopSetup
  refine ⟨_, exec_replay hp hw h markNo crcs, ?_⟩
  cases hi : s.imageOf markNo with
  | none => exact ⟨failStores, fun i he => by simp at he, fun _ => fails⟩
  | some i =>
    dsimp only
    by_cases hb : s.setupBlocked crcs i = true
    · rw [if_pos hb]
      refine ⟨failStores, fun j hj hr hk hcrc hres => ?_, fun _ => fails⟩
      obtain rfl := Option.some.inj hj
      exact absurd hb (by simp [State.setupBlocked, hr, hk, hcrc, hres])
    · rw [if_neg hb]
      obtain ⟨hstate, hgait⟩ := s.loadImage_shows i
      refine ⟨s.loadImage_sameStores s.target i, fun j hj _ _ _ _ => ?_, fun hbad => absurd ?_ hb⟩
      · obtain rfl := Option.some.inj hj
        exact ⟨hstate, hgait, s.loadImage_cmds s.target i⟩
      · rcases hbad with hkey | hr | hcrc
        · exact State.setupBlocked_of_key crcs hi hkey
        · simp [State.setupBlocked, hr]
        · simp [State.setupBlocked, hcrc]

theorem replays : Rules.Replays := fun _ _ hp hw => ⟨fun markNo crcs h => replayStarts hp hw markNo crcs h,
  rplStop hp hw, fun placed _ h hc => rplResume hp hw h hc placed⟩

/-- Settles O60. -/
theorem marksAndReplays : Obligations.MarksAndReplays := ⟨marks, batches, replays, replayRecords⟩

end Sys2Proof.Machine
end
